-- ==== Sys2Proof/Word.lean ====
section
/-! DEFINITION. The word types of the model and their plainest arithmetic. -/

namespace Sys2Proof

/-- A 64-bit register value (R1, R2). -/
abbrev Word64 := BitVec 64
/-- A 32-bit instruction word (R25). -/
abbrev Word32 := BitVec 32
/-- One byte of memory. -/
abbrev Byte := BitVec 8

end Sys2Proof
end

