-- ==== Sys2Proof/Syntax.lean ====
section
/-! DEFINITION. The instruction syntax: one constructor of `Instr` per row of the opcode table. A row with an encoding
carries the operands its form names (R44, R45); an event row carries none: what the outside world or the hardware's own
choice decides about it is in the turn that makes it happen. -/

namespace Sys2Proof

/-- A scalar register s0 to s31 (R29). -/
abbrev SReg := Fin 32
/-- A vector register v0 to v63 (R29). -/
abbrev VRegNo := Fin 64
/-- A predicate register p0 to p63 (R29). -/
abbrev PRegNo := Fin 64
/-- A scale register k0 to k15 (R29). -/
abbrev KRegNo := Fin 16
/-- A draft-tree register d0 to d7 (R29). -/
abbrev DRegNo := Fin 8
/-- A cutter bound register b0 to b7 (R29). -/
abbrev BRegNo := Fin 8
/-- An accumulator plane c0, c1 (R29). -/
abbrev CRegNo := Fin 2
/-- A score-program slot sp0 to sp3 (R29). -/
abbrev SpNo := Fin 4
/-- A stream queue q0 to q7 (R29). -/
abbrev QNo := Fin 8

/-- The element formats (R32). -/
inductive Fmt where
  | i8 | n8 | i16 | n16 | i32 | n32 | i64 | n64 | fp32 | bf16 | fp16 | e4m3 | e5m2 | b4
  deriving DecidableEq, Repr

/-- The five scopes (R32, R160). -/
inductive Scope where
  | hart | core | die | dev | fab
  deriving DecidableEq, Repr

/-- The four scopes an atomic or a barrier can name (R32, R44, R45). -/
inductive BScope where
  | core | die | dev | fab
  deriving DecidableEq, Repr

/-- The order qualifiers: none, `.acq`, `.rel`, `.ar` (R32). -/
inductive Order where
  | none | acq | rel | ar
  deriving DecidableEq, Repr

/-- The fence kinds (R32). -/
inductive FenceKind where
  | ld | st | all
  deriving DecidableEq, Repr

/-- The depth classes 8, 16 and 32 (R33). -/
inductive Depth where
  | d8 | d16 | d32
  deriving DecidableEq, Repr

/-- The rounding modes (R33). -/
inductive Rm where
  | rne | rtz | rdn | rup | sr
  deriving DecidableEq, Repr

/-- The comparisons of `vcmp` in the order of their function codes (R45). -/
inductive Cc where
  | eq | ne | lt | le | gt | ge | uo
  deriving DecidableEq, Repr

/-- The element widths of access-stream vector memory, 1, 2, 4 and 8 bytes (R42). -/
inductive Ew where
  | b | h | w | d
  deriving DecidableEq, Repr

/-- The control and status registers (R54). -/
inductive Csr where
  | vl | vt | md | tl | resume | lanes | gcoord | cyc | bankc | nanpc | nanlane | rseed
  | ecause | epc | etval | estream | estatus | thandler | tstack | ewin | xresume
  deriving DecidableEq, Repr

/-- One constructor per row of the opcode table. -/
inductive Instr where
  /-- R98: Writes the AND of sa and a zero-extended 15-bit immediate to sd. -/
  | andi (rd : SReg) (rs : SReg) (imm : BitVec 15)
  /-- R98: Writes the OR of sa and a zero-extended 15-bit immediate to sd. -/
  | ori (rd : SReg) (rs : SReg) (imm : BitVec 15)
  /-- R98: Writes the XOR of sa and a zero-extended 15-bit immediate to sd. -/
  | xori (rd : SReg) (rs : SReg) (imm : BitVec 15)
  /-- R98: Writes 1 to sd if sa is less than the sign-extended immediate as i64, else 0. -/
  | slti (rd : SReg) (rs : SReg) (imm : BitVec 15)
  /-- R98: Writes sa plus the sign-extended immediate to sd; with all fields zero it is nop. -/
  | addi (rd : SReg) (rs : SReg) (imm : BitVec 15)
  /-- R98: Shifts sa left by an immediate count into sd. -/
  | slli (rd : SReg) (rs : SReg) (n : Fin 64)
  /-- R98: Shifts sa right logically by an immediate count into sd. -/
  | srli (rd : SReg) (rs : SReg) (n : Fin 64)
  /-- R98: Shifts sa right arithmetically by an immediate count into sd. -/
  | srai (rd : SReg) (rs : SReg) (n : Fin 64)
  /-- R99: Extracts a zero-extended bit field of sa into sd. -/
  | ext (rd : SReg) (rs : SReg) (pos : Fin 64) (wm1 : Fin 64)
  /-- R99: Inserts the low bits of sa into a bit field of sd. -/
  | ins (rd : SReg) (rs : SReg) (pos : Fin 64) (wm1 : Fin 64)
  /-- R101: Jumps to sa plus a byte immediate and links pc + 4 into sd, trapping if the target is misaligned. -/
  | jalr (rd : SReg) (rs : SReg) (imm : BitVec 15)
  /-- R95: Places a 20-bit immediate at bits 34:15 of sd, sign-extended. -/
  | lhi (rd : SReg) (imm : BitVec 20)
  /-- R101: Jumps by a word offset and links pc + 4 into sd. -/
  | jal (rd : SReg) (off : BitVec 20)
  /-- R105: Pushes a control token of target address and value onto q6, waiting if full, or trapping on deadlock with an idle access stream. -/
  | ctok (rs : SReg) (off : BitVec 20)
  /-- R104: Starts an idle access stream at the target address. -/
  | astart (off : BitVec 20)
  /-- R100: Branches when sa equals sb. -/
  | beq (ra : SReg) (rb : SReg) (off : BitVec 15)
  /-- R100: Branches when sa differs from sb. -/
  | bne (ra : SReg) (rb : SReg) (off : BitVec 15)
  /-- R100: Branches when sa is less than sb as i64. -/
  | blt (ra : SReg) (rb : SReg) (off : BitVec 15)
  /-- R100: Branches when sa is at least sb as i64. -/
  | bge (ra : SReg) (rb : SReg) (off : BitVec 15)
  /-- R100: Branches when sa is less than sb as n64. -/
  | bltn (ra : SReg) (rb : SReg) (off : BitVec 15)
  /-- R100: Branches when sa is at least sb as n64. -/
  | bgen (ra : SReg) (rb : SReg) (off : BitVec 15)
  /-- R102: Subtracts sb from sa, writes sa, and branches while the signed result is above zero. -/
  | smb (ra : SReg) (rb : SReg) (off : BitVec 15)
  /-- R96: Writes sa + sb to sd. -/
  | add (rd : SReg) (ra : SReg) (rb : SReg)
  /-- R96: Writes sa − sb to sd. -/
  | sub (rd : SReg) (ra : SReg) (rb : SReg)
  /-- R96: Writes the low 64 bits of sa × sb to sd. -/
  | mul (rd : SReg) (ra : SReg) (rb : SReg)
  /-- R96: Writes the high 64 bits of the signed product to sd. -/
  | mulh (rd : SReg) (ra : SReg) (rb : SReg)
  /-- R97: Writes the signed quotient rounded toward zero, with defined results for zero and overflow. -/
  | div (rd : SReg) (ra : SReg) (rb : SReg)
  /-- R97: Writes the unsigned quotient, all ones for a zero divisor. -/
  | divn (rd : SReg) (ra : SReg) (rb : SReg)
  /-- R97: Writes the signed remainder with the sign of the dividend. -/
  | rem (rd : SReg) (ra : SReg) (rb : SReg)
  /-- R97: Writes the unsigned remainder. -/
  | remn (rd : SReg) (ra : SReg) (rb : SReg)
  /-- R96: Writes the bitwise AND of sa and sb to sd. -/
  | and (rd : SReg) (ra : SReg) (rb : SReg)
  /-- R96: Writes the bitwise OR of sa and sb to sd. -/
  | or (rd : SReg) (ra : SReg) (rb : SReg)
  /-- R96: Writes the bitwise XOR of sa and sb to sd. -/
  | xor (rd : SReg) (ra : SReg) (rb : SReg)
  /-- R96: Shifts sa left by sb[5:0]. -/
  | sll (rd : SReg) (ra : SReg) (rb : SReg)
  /-- R96: Shifts sa right logically by sb[5:0]. -/
  | srl (rd : SReg) (ra : SReg) (rb : SReg)
  /-- R96: Shifts sa right arithmetically by sb[5:0]. -/
  | sra (rd : SReg) (ra : SReg) (rb : SReg)
  /-- R96: Writes 1 if sa < sb signed, else 0. -/
  | slt (rd : SReg) (ra : SReg) (rb : SReg)
  /-- R96: Writes 1 if sa < sb unsigned, else 0. -/
  | sltn (rd : SReg) (ra : SReg) (rb : SReg)
  /-- R96: Writes the lesser of sa and sb as i64. -/
  | min (rd : SReg) (ra : SReg) (rb : SReg)
  /-- R96: Writes the greater of sa and sb as i64. -/
  | max (rd : SReg) (ra : SReg) (rb : SReg)
  /-- R96: Writes the lesser of sa and sb as n64. -/
  | minN (rd : SReg) (ra : SReg) (rb : SReg)
  /-- R96: Writes the greater of sa and sb as n64. -/
  | maxN (rd : SReg) (ra : SReg) (rb : SReg)
  /-- R96: Writes the count of leading zero bits of sa. -/
  | clz (rd : SReg) (ra : SReg)
  /-- R96: Writes the count of one bits of sa. -/
  | popc (rd : SReg) (ra : SReg)
  /-- R96: Writes sa if the old sd is nonzero, else sb. -/
  | sel (rd : SReg) (ra : SReg) (rb : SReg)
  /-- R96: Writes sa + (sb << n). -/
  | lea (rd : SReg) (ra : SReg) (rb : SReg) (n : Fin 4)
  /-- R232: Takes the tail place of a stream queue, waiting for room, and fills it with a register value. -/
  | qpush (q : QNo) (r : Fin 64)
  /-- R233: Waits for a ready head place, delivers it to a register (vector entries also set vl) and frees it. -/
  | qpop (r : Fin 64) (q : QNo)
  /-- R232: As qpop but leaves the place at the head. -/
  | qpeek (r : Fin 64) (q : QNo)
  /-- R232: Writes the number of non-free places of a queue without waiting. -/
  | qlen (rd : SReg) (q : QNo)
  /-- R106: Waits for and pops the oldest control token of q6, writing its value to sd and jumping to its target. -/
  | ctake (rd : SReg)
  /-- R120: Adds active elements of va and vb into vd. -/
  | vadd (vd : VRegNo) (va : VRegNo) (vb : VRegNo)
  /-- R120: Subtracts active elements of vb from va into vd. -/
  | vsub (vd : VRegNo) (va : VRegNo) (vb : VRegNo)
  /-- R120: Multiplies active elements of va and vb into vd. -/
  | vmul (vd : VRegNo) (va : VRegNo) (vb : VRegNo)
  /-- R120: Computes the fused a × b + c into vd. -/
  | vmadd (vd : VRegNo) (va : VRegNo) (vb : VRegNo)
  /-- R120: Computes the fused c − a × b into vd. -/
  | vnmadd (vd : VRegNo) (va : VRegNo) (vb : VRegNo)
  /-- R121: Divides active elements of va by vb into vd. -/
  | vdiv (vd : VRegNo) (va : VRegNo) (vb : VRegNo)
  /-- R120: Writes the square root of active elements. -/
  | vsqrt (vd : VRegNo) (va : VRegNo)
  /-- R120: Writes the reciprocal square root of active elements. -/
  | vrsqrt (vd : VRegNo) (va : VRegNo)
  /-- R120: Writes 2 to the power of active elements. -/
  | vexp2 (vd : VRegNo) (va : VRegNo)
  /-- R120: Writes the base-2 logarithm of active elements. -/
  | vlog2 (vd : VRegNo) (va : VRegNo)
  /-- R120: Writes the greater of va and vb elements. -/
  | vmax (vd : VRegNo) (va : VRegNo) (vb : VRegNo)
  /-- R120: Writes the lesser of va and vb elements. -/
  | vmin (vd : VRegNo) (va : VRegNo) (vb : VRegNo)
  /-- R120: Writes the absolute value of active elements. -/
  | vabs (vd : VRegNo) (va : VRegNo)
  /-- R120: Writes the negation of active elements. -/
  | vneg (vd : VRegNo) (va : VRegNo)
  /-- R123: Writes the bitwise AND of va and vb elements. -/
  | vand (vd : VRegNo) (va : VRegNo) (vb : VRegNo)
  /-- R123: Writes the bitwise OR of va and vb elements. -/
  | vor (vd : VRegNo) (va : VRegNo) (vb : VRegNo)
  /-- R123: Writes the bitwise XOR of va and vb elements. -/
  | vxor (vd : VRegNo) (va : VRegNo) (vb : VRegNo)
  /-- R123: Writes the bitwise NOT of va elements. -/
  | vnot (vd : VRegNo) (va : VRegNo)
  /-- R123: Shifts va elements left by vb counts. -/
  | vshl (vd : VRegNo) (va : VRegNo) (vb : VRegNo)
  /-- R123: Shifts va elements right logically by vb counts. -/
  | vshr (vd : VRegNo) (va : VRegNo) (vb : VRegNo)
  /-- R123: Shifts va elements right arithmetically by vb counts. -/
  | vsra (vd : VRegNo) (va : VRegNo) (vb : VRegNo)
  /-- R124: Sets predicate bits of active elements to the comparison cc of va and vb. -/
  | vcmp (cc : Cc) (pd : PRegNo) (va : VRegNo) (vb : VRegNo)
  /-- R125: Writes every body element from va if active, else from vb. -/
  | vsel (vd : VRegNo) (va : VRegNo) (vb : VRegNo)
  /-- R126: Copies active elements of va into vd with va's tag. -/
  | vmv (vd : VRegNo) (va : VRegNo)
  /-- R126: Writes the low bits of a scalar into every active element. -/
  | vsplat (vd : VRegNo) (ra : SReg)
  /-- R126: Writes each active element's index. -/
  | vid (vd : VRegNo)
  /-- R127: Reads one element at index sb of va into sd, ignoring vl and guard. -/
  | vext (rd : SReg) (va : VRegNo) (rb : SReg)
  /-- R127: Writes sa into one element at index sb of vd, ignoring vl and guard. -/
  | vins (vd : VRegNo) (ra : SReg) (rb : SReg)
  /-- R129: Converts active elements of va to another format into a destination group. -/
  | vcvt (vd : VRegNo) (va : VRegNo) (fmt : Fmt)
  /-- R131: Sums active elements in the fixed tree into element 0 of vd. -/
  | vredsum (vd : VRegNo) (va : VRegNo)
  /-- R131: Writes the greatest active element into element 0 of vd. -/
  | vredmax (vd : VRegNo) (va : VRegNo)
  /-- R131: Writes the least active element into element 0 of vd. -/
  | vredmin (vd : VRegNo) (va : VRegNo)
  /-- R131: Writes the element number of the maximum active element to sd. -/
  | vargmax (rd : SReg) (va : VRegNo)
  /-- R132: Slides va up by a scalar count into vd. -/
  | vslideup (vd : VRegNo) (va : VRegNo) (rb : SReg)
  /-- R132: Slides va down by a scalar count into vd. -/
  | vslidedn (vd : VRegNo) (va : VRegNo) (rb : SReg)
  /-- R133: Gathers va elements at the indices in vb into vd. -/
  | vperm (vd : VRegNo) (va : VRegNo) (vb : VRegNo)
  /-- R134: Packs selected elements of va into the low elements of vd. -/
  | vcompress (vd : VRegNo) (va : VRegNo) (pb : PRegNo)
  /-- R134: Spreads the low elements of va into selected elements of vd. -/
  | vexpand (vd : VRegNo) (va : VRegNo) (pb : PRegNo)
  /-- R135: Marks active elements equal to an earlier active element. -/
  | vconf (pd : PRegNo) (va : VRegNo)
  /-- R331: Merges two partial attention triples element by element into vd. -/
  | smerge (vd : VRegNo) (va : VRegNo) (vb : VRegNo)
  /-- R332: Runs a score program on each active score with its positions and head. -/
  | sapply (vd : VRegNo) (va : VRegNo) (sp : SpNo)
  /-- R122: Adds an immediate to active elements of va. -/
  | vaddImm (vd : VRegNo) (va : VRegNo) (imm : BitVec 8)
  /-- R122: Subtracts an immediate from active elements of va. -/
  | vsubImm (vd : VRegNo) (va : VRegNo) (imm : BitVec 8)
  /-- R122: Multiplies active elements of va by an immediate. -/
  | vmulImm (vd : VRegNo) (va : VRegNo) (imm : BitVec 8)
  /-- R122: Writes the greater of each element and an immediate. -/
  | vmaxImm (vd : VRegNo) (va : VRegNo) (imm : BitVec 8)
  /-- R122: Writes the lesser of each element and an immediate. -/
  | vminImm (vd : VRegNo) (va : VRegNo) (imm : BitVec 8)
  /-- R123: ANDs active elements with a sign-extended immediate. -/
  | vandImm (vd : VRegNo) (va : VRegNo) (imm : BitVec 8)
  /-- R123: ORs active elements with a sign-extended immediate. -/
  | vorImm (vd : VRegNo) (va : VRegNo) (imm : BitVec 8)
  /-- R123: XORs active elements with a sign-extended immediate. -/
  | vxorImm (vd : VRegNo) (va : VRegNo) (imm : BitVec 8)
  /-- R123: Shifts active elements left by an immediate count. -/
  | vshlImm (vd : VRegNo) (va : VRegNo) (n : BitVec 8)
  /-- R123: Shifts active elements right logically by an immediate count. -/
  | vshrImm (vd : VRegNo) (va : VRegNo) (n : BitVec 8)
  /-- R123: Shifts active elements right arithmetically by an immediate count. -/
  | vsraImm (vd : VRegNo) (va : VRegNo) (n : BitVec 8)
  /-- R132: Slides va up by an immediate count. -/
  | vslideupImm (vd : VRegNo) (va : VRegNo) (n : BitVec 8)
  /-- R132: Slides va down by an immediate count. -/
  | vslidednImm (vd : VRegNo) (va : VRegNo) (n : BitVec 8)
  /-- R126: Writes an immediate value into every active element. -/
  | vsplatImm (vd : VRegNo) (imm : BitVec 8)
  /-- R128: Sets the format tag of vd without changing its bits. -/
  | vtag (vd : VRegNo) (fmt : Fmt)
  /-- R124: Sets predicate bits to the comparison cc of each element and an immediate. -/
  | vcmpImm (cc : Cc) (pd : PRegNo) (va : VRegNo) (imm : BitVec 8)
  /-- R136: Writes the AND of two predicates' body bits. -/
  | pand (pd : PRegNo) (pa : PRegNo) (pb : PRegNo)
  /-- R136: Writes the OR of two predicates' body bits. -/
  | por (pd : PRegNo) (pa : PRegNo) (pb : PRegNo)
  /-- R136: Writes the XOR of two predicates' body bits. -/
  | pxor (pd : PRegNo) (pa : PRegNo) (pb : PRegNo)
  /-- R136: Writes the NOT of a predicate's body bits. -/
  | pnot (pd : PRegNo) (pa : PRegNo)
  /-- R136: Sets body bits before the first set bit of pa. -/
  | psbf (pd : PRegNo) (pa : PRegNo)
  /-- R136: Sets body bits up to and including the first set bit of pa. -/
  | psif (pd : PRegNo) (pa : PRegNo)
  /-- R136: Writes the index of the first set body bit of pa, or all ones. -/
  | pfirst (rd : SReg) (pa : PRegNo)
  /-- R136: Writes the number of set body bits of pa. -/
  | pcnt (rd : SReg) (pa : PRegNo)
  /-- R136: Sets every predicate bit below sa and clears the rest, tail included. -/
  | pset (pd : PRegNo) (ra : SReg)
  /-- R137: Moves bytes of a vector register's bit string into a scale register. -/
  | kmvToScale (kd : KRegNo) (va : VRegNo)
  /-- R137: Moves scale bytes into a vector register tagged n8. -/
  | kmvToVector (vd : VRegNo) (ka : KRegNo)
  /-- R117: Sets the vector type, decides the lane grant, adjusts residency and writes the granted length, closing a strip interval. -/
  | setvl (rd : SReg) (ra : SReg) (fmt : Fmt) (dc : Depth) (ftz : Bool) (bl : Bool) (lg : Fin 17)
  /-- R119: Writes the guard, rounding mode and saturation into md. -/
  | mode (g : Option PRegNo) (rm : Rm) (sat : Bool)
  /-- R141: Loads a sign-extended byte, displacement addressing. -/
  | lbMd (rd : SReg) (ra : SReg) (disp : BitVec 9) (fr : Bool)
  /-- R141: Loads a sign-extended byte, indexed addressing. -/
  | lbMx (rd : SReg) (ra : SReg) (rb : SReg) (fr : Bool)
  /-- R141: Loads a zero-extended byte, displacement addressing. -/
  | lbnMd (rd : SReg) (ra : SReg) (disp : BitVec 9) (fr : Bool)
  /-- R141: Loads a zero-extended byte, indexed addressing. -/
  | lbnMx (rd : SReg) (ra : SReg) (rb : SReg) (fr : Bool)
  /-- R141: Loads a sign-extended halfword, displacement addressing. -/
  | lhMd (rd : SReg) (ra : SReg) (disp : BitVec 9) (fr : Bool)
  /-- R141: Loads a sign-extended halfword, indexed addressing. -/
  | lhMx (rd : SReg) (ra : SReg) (rb : SReg) (fr : Bool)
  /-- R141: Loads a zero-extended halfword, displacement addressing. -/
  | lhnMd (rd : SReg) (ra : SReg) (disp : BitVec 9) (fr : Bool)
  /-- R141: Loads a zero-extended halfword, indexed addressing. -/
  | lhnMx (rd : SReg) (ra : SReg) (rb : SReg) (fr : Bool)
  /-- R141: Loads a sign-extended word, displacement addressing. -/
  | lwMd (rd : SReg) (ra : SReg) (disp : BitVec 9) (fr : Bool)
  /-- R141: Loads a sign-extended word, indexed addressing. -/
  | lwMx (rd : SReg) (ra : SReg) (rb : SReg) (fr : Bool)
  /-- R141: Loads a zero-extended word, displacement addressing. -/
  | lwnMd (rd : SReg) (ra : SReg) (disp : BitVec 9) (fr : Bool)
  /-- R141: Loads a zero-extended word, indexed addressing. -/
  | lwnMx (rd : SReg) (ra : SReg) (rb : SReg) (fr : Bool)
  /-- R141: Loads a doubleword, displacement addressing. -/
  | ldMd (rd : SReg) (ra : SReg) (disp : BitVec 9) (fr : Bool)
  /-- R141: Loads a doubleword, indexed addressing. -/
  | ldMx (rd : SReg) (ra : SReg) (rb : SReg) (fr : Bool)
  /-- R159: Hints a fill of the line into the core's L1, displacement addressing. -/
  | prefL1Md (ra : SReg) (disp : BitVec 9)
  /-- R159: Hints a fill of the line into the core's L1, indexed addressing. -/
  | prefL1Mx (ra : SReg) (rb : SReg)
  /-- R159: Hints a fill of the line into its home slice, displacement addressing. -/
  | prefLlcMd (ra : SReg) (disp : BitVec 9)
  /-- R159: Hints a fill of the line into its home slice, indexed addressing. -/
  | prefLlcMx (ra : SReg) (rb : SReg)
  /-- R141: Stores the low byte of sa, displacement addressing. -/
  | sbMd (rs : SReg) (ra : SReg) (disp : BitVec 9)
  /-- R141: Stores the low byte of sa, indexed addressing. -/
  | sbMx (rs : SReg) (ra : SReg) (rb : SReg)
  /-- R141: Stores the low halfword, displacement addressing. -/
  | shMd (rs : SReg) (ra : SReg) (disp : BitVec 9)
  /-- R141: Stores the low halfword, indexed addressing. -/
  | shMx (rs : SReg) (ra : SReg) (rb : SReg)
  /-- R141: Stores the low word, displacement addressing. -/
  | swMd (rs : SReg) (ra : SReg) (disp : BitVec 9)
  /-- R141: Stores the low word, indexed addressing. -/
  | swMx (rs : SReg) (ra : SReg) (rb : SReg)
  /-- R141: Stores a doubleword, displacement addressing. -/
  | sdMd (rs : SReg) (ra : SReg) (disp : BitVec 9)
  /-- R141: Stores a doubleword, indexed addressing. -/
  | sdMx (rs : SReg) (ra : SReg) (rb : SReg)
  /-- R144: Loads active elements unit-stride, displacement addressing, resumable. -/
  | vldMd (vd : VRegNo) (ra : SReg) (disp : BitVec 9) (fr : Bool)
  /-- R144: Loads active elements unit-stride, indexed addressing, resumable. -/
  | vldMx (vd : VRegNo) (ra : SReg) (rb : SReg) (fr : Bool)
  /-- R144: Loads active elements at a byte stride. -/
  | vlds (vd : VRegNo) (ra : SReg) (rb : SReg) (fr : Bool)
  /-- R149: Fault-first unit-stride load that truncates vl at a later faulting element, displacement addressing. -/
  | vldffMd (vd : VRegNo) (ra : SReg) (disp : BitVec 9) (fr : Bool)
  /-- R149: Fault-first unit-stride load that truncates vl at a later faulting element, indexed addressing. -/
  | vldffMx (vd : VRegNo) (ra : SReg) (rb : SReg) (fr : Bool)
  /-- R154: Fills a scale register from bytes spaced by a stride. -/
  | ksld (kd : KRegNo) (ra : SReg) (rb : SReg) (fr : Bool)
  /-- R144: Stores active elements unit-stride, displacement addressing, resumable. -/
  | vstMd (vs : VRegNo) (ra : SReg) (disp : BitVec 9)
  /-- R144: Stores active elements unit-stride, indexed addressing, resumable. -/
  | vstMx (vs : VRegNo) (ra : SReg) (rb : SReg)
  /-- R144: Stores active elements at a byte stride. -/
  | vsts (vs : VRegNo) (ra : SReg) (rb : SReg)
  /-- R144: Loads n-field segments into a group of registers, displacement addressing. -/
  | vldsegMd (n : Fin 7) (vd : VRegNo) (ra : SReg) (disp : BitVec 9)
  /-- R144: Loads n-field segments into a group of registers, indexed addressing. -/
  | vldsegMx (n : Fin 7) (vd : VRegNo) (ra : SReg) (rb : SReg)
  /-- R144: Stores n-field segments from a group of registers, displacement addressing. -/
  | vstsegMd (n : Fin 7) (vs : VRegNo) (ra : SReg) (disp : BitVec 9)
  /-- R144: Stores n-field segments from a group of registers, indexed addressing. -/
  | vstsegMx (n : Fin 7) (vs : VRegNo) (ra : SReg) (rb : SReg)
  /-- R155: Indivisibly adds sb to memory and returns the old value. -/
  | amoadd (sc : BScope) (o : Order) (dw : Bool) (rd : SReg) (rb : SReg) (ra : SReg)
  /-- R155: Indivisibly swaps sb with memory and returns the old value. -/
  | amoswap (sc : BScope) (o : Order) (dw : Bool) (rd : SReg) (rb : SReg) (ra : SReg)
  /-- R155: Indivisibly writes the signed maximum and returns the old value. -/
  | amomax (sc : BScope) (o : Order) (dw : Bool) (rd : SReg) (rb : SReg) (ra : SReg)
  /-- R155: Indivisibly writes the signed minimum and returns the old value. -/
  | amomin (sc : BScope) (o : Order) (dw : Bool) (rd : SReg) (rb : SReg) (ra : SReg)
  /-- R155: Indivisibly writes the unsigned maximum and returns the old value. -/
  | amomaxN (sc : BScope) (o : Order) (dw : Bool) (rd : SReg) (rb : SReg) (ra : SReg)
  /-- R155: Indivisibly writes the unsigned minimum and returns the old value. -/
  | amominN (sc : BScope) (o : Order) (dw : Bool) (rd : SReg) (rb : SReg) (ra : SReg)
  /-- R155: Indivisibly ANDs sb into memory and returns the old value. -/
  | amoand (sc : BScope) (o : Order) (dw : Bool) (rd : SReg) (rb : SReg) (ra : SReg)
  /-- R155: Indivisibly ORs sb into memory and returns the old value. -/
  | amoor (sc : BScope) (o : Order) (dw : Bool) (rd : SReg) (rb : SReg) (ra : SReg)
  /-- R155: Indivisibly writes sb if memory equals the old sd, returning the old value. -/
  | cas (sc : BScope) (o : Order) (dw : Bool) (rd : SReg) (rb : SReg) (ra : SReg)
  /-- R152: Reserves a vector queue place and gathers indexed elements into it. -/
  | vgat (q : QNo) (ew : Ew) (fr : Bool) (ra : SReg) (rb : SReg) (rc : SReg)
  /-- R152: Fault-first gather that truncates the entry at a later faulting element. -/
  | vgatff (q : QNo) (ew : Ew) (fr : Bool) (ra : SReg) (rb : SReg) (rc : SReg)
  /-- R153: Reserves a status place and scatters a pair list to memory. -/
  | vsca (q : QNo) (ew : Ew) (ra : SReg) (rb : SReg) (rc : SReg)
  /-- R153: Reserves a status place and indivisibly adds a pair list into memory. -/
  | vscaa (q : QNo) (ew : Ew) (ra : SReg) (rb : SReg) (rc : SReg)
  /-- R319: Translates logical token positions through block tables and survivor bitmaps into K-row addresses in a queue entry. -/
  | kvx (q : QNo) (ra : SReg) (rb : SReg) (rc : SReg)
  /-- R353: Cuts the next tile of a sparse matrix within its budgets, writing the bound register, bout and column map. -/
  | cut (bd : BRegNo) (ra : SReg) (rb : SReg)
  /-- R354: Gathers the partner rows named by the column map into a dense weight tile. -/
  | cutp (bd : BRegNo) (ra : SReg) (rb : SReg)
  /-- R355: Writes the cut sparse tile densely over the mapped columns. -/
  | cutd (bd : BRegNo) (ra : SReg) (rb : SReg)
  /-- R188: Requests a matrix shape and formats at core scope and returns the granted sizes. -/
  | mshapeCore (rd : SReg) (ra : SReg) (rb : SReg)
  /-- R188: Requests a matrix shape at die scope, granting a cooperative grid when the die group has 16 cores. -/
  | mshapeDie (rd : SReg) (ra : SReg) (rb : SReg)
  /-- R193: Queues a load of the shadow weight plane from the local store. -/
  | mlds (rd : SReg) (ra : SReg)
  /-- R194: Queues an exchange of the active and shadow weight planes. -/
  | mswap
  /-- R195: Queues a stream of local-store activations through the array into a plane. -/
  | mstreamLocal (cd : CRegNo) (ra : SReg) (rb : SReg)
  /-- R196: Queues a stream of activation rows from a vector register into a plane. -/
  | mstreamVector (cd : CRegNo) (va : VRegNo) (rb : SReg)
  /-- R198: Clears every cell of a plane, clears poison and tags it fp32. -/
  | mzero (cd : CRegNo)
  /-- R199: Reads plane cells into a vector register, converting and trapping on poison. -/
  | mrd (vd : VRegNo) (ca : CRegNo) (rb : SReg)
  /-- R200: Writes plane cells from a vector register converted to fp32. -/
  | mwr (cd : CRegNo) (va : VRegNo) (rb : SReg)
  /-- R224: Raises the pin count of the frame holding the page. -/
  | opin (ra : SReg)
  /-- R224: Lowers the pin count of the frame holding the page. -/
  | ounpin (ra : SReg)
  /-- R225: Merges the overlay into a private base, copying a shared frame first. -/
  | ocommitPriv (ra : SReg)
  /-- R226: Publishes the overlay into the shared base as a release toward every sharer. -/
  | ocommitPub (ra : SReg)
  /-- R227: Drops the page's overlay and returns its extent. -/
  | odiscard (ra : SReg)
  /-- R228: Reads presence-vector words or the page's tier, pin and count summary. -/
  | oquery (rd : SReg) (ra : SReg) (rb : SReg)
  /-- R229: Atomically changes the reference count of the frame holding the page. -/
  | frref (o : Order) (sc : Scope) (rd : SReg) (ra : SReg) (rb : SReg)
  /-- R243: Starts a copy between two layout-record operands and returns its tag. -/
  | cpy (rd : SReg) (ra : SReg) (rb : SReg)
  /-- R243: Starts a copy that expands zero-sector compressed data into the local store. -/
  | cpyx (rd : SReg) (ra : SReg) (rb : SReg)
  /-- R243: Starts a copy that writes zero-sector compressed data with its masks. -/
  | cpyz (rd : SReg) (ra : SReg) (rb : SReg)
  /-- R248: Starts the promotion of a page to HBM. -/
  | cpyp (rd : SReg) (ra : SReg) (rb : SReg)
  /-- R248: Starts the demotion of a page to a CXL tier. -/
  | cpyd (rd : SReg) (ra : SReg) (rb : SReg)
  /-- R249: Starts the compaction of a KV block to its kept survivors. -/
  | kvcompact (rd : SReg) (ra : SReg) (rb : SReg)
  /-- R242: Waits for earlier stores and empties the core's record cache. -/
  | lrfence
  /-- R240: Waits for a matching completion record and reads a word of it, taking it on word 0. -/
  | evwait (rd : SReg) (ra : SReg)
  /-- R240: Reads a word of a matching completion record without waiting, or all ones. -/
  | evpoll (rd : SReg) (ra : SReg)
  /-- R284: Releases earlier accesses and rings a launch-queue doorbell of the issuing context. -/
  | klaunch (rd : SReg) (ra : SReg)
  /-- R285: Marks the hart triggered as a release at .dev. -/
  | ktrig
  /-- R287: Indivisibly takes the next piece of work from a claim block, setting vl to its count. -/
  | claim (rd : SReg) (ra : SReg) (rb : SReg)
  /-- R290: Frees the hart's lane groups and makes its vector state dead. -/
  | vrelease
  /-- R291: Triggers if needed, drains the hart's work and ends the hart. -/
  | hend
  /-- R300: Arrives at a regrouping by colour at one tier. -/
  | gsplit (rd : SReg) (ra : SReg)
  /-- R307: Arrives at a barrier of the named tier as a release. -/
  | barr (sc : BScope) (n : Fin 16)
  /-- R308: Waits for the phase of the hart's latest arrival, then acquires. -/
  | bwait (sc : BScope) (n : Fin 16)
  /-- R309: Arrives at a barrier and waits for its phase as one instruction. -/
  | bsync (sc : BScope) (n : Fin 16)
  /-- R325: Starts a slice attention pass over a block table for a query group. -/
  | sattn (va : VRegNo) (rb : SReg)
  /-- R323: Loads a score-program slot from 64 bytes of memory. -/
  | spld (sp : SpNo) (ra : SReg)
  /-- R337: Empties a draft-tree register and plants its root with base and token. -/
  | dtinit (dd : DRegNo) (ra : SReg)
  /-- R338: Appends one node per active element with parent, token and score. -/
  | dtadd (dd : DRegNo) (va : VRegNo) (vb : VRegNo)
  /-- R339: Writes a node's ancestor row into a predicate. -/
  | dtmaskPred (pd : PRegNo) (da : DRegNo) (rb : SReg)
  /-- R339: Writes a node's ancestor row as an additive mask vector. -/
  | dtmaskVec (vd : VRegNo) (da : DRegNo) (rb : SReg)
  /-- R340: Writes each node's position into a vector. -/
  | dtpos (vd : VRegNo) (da : DRegNo)
  /-- R341: Finds the longest accepted path against the target's choices and marks it. -/
  | dtacc (rd : SReg) (da : DRegNo) (va : VRegNo)
  /-- R342: Cuts the register down to the path ending at a node. -/
  | dtprune (dd : DRegNo) (ra : SReg)
  /-- R343: Loads a draft-tree register from a 4 KiB image. -/
  | dtld (dd : DRegNo) (ra : SReg)
  /-- R343: Stores a draft-tree register as a 4 KiB image, resumable by line. -/
  | dtst (dd : DRegNo) (ra : SReg)
  /-- R344: Reads a draft-tree register's base, depth and count. -/
  | dtinfo (rd : SReg) (da : DRegNo)
  /-- R257: Raises environment call with its number in etval. -/
  | ecall (n : BitVec 10)
  /-- R257: ecall 1023 raises breakpoint instead of environment call. -/
  | breakpoint
  /-- R263: Returns from the handler, restoring the frame, streams, vector state and privilege. -/
  | eret
  /-- R262: Ends the hart's entry window. -/
  | trapack
  /-- R267: Leaves the cores cooperatively while a yield deadline is set, else does nothing. -/
  | yield
  /-- R158: Waits until earlier accesses of the kind are performed at the scope. -/
  | fence (sc : Scope) (k : FenceKind)
  /-- R108: Reads a CSR into sd. -/
  | csrr (rd : SReg) (csr : Csr)
  /-- R108: Writes sa to a CSR under its own write rules. -/
  | csrw (csr : Csr) (ra : SReg)
  /-- R108: Reads a CSR and sets the bits of sa in it. -/
  | csrs (rd : SReg) (csr : Csr) (ra : SReg)
  /-- R108: Reads a CSR and clears the bits of sa in it. -/
  | csrc (rd : SReg) (csr : Csr) (ra : SReg)
  /-- R270: Parks a target context, giving it a yield deadline if it runs. -/
  | ctxsave (ra : SReg)
  /-- R270: Clears a context's park so that it is resumed. -/
  | ctxload (ra : SReg)
  /-- R256: Loads or clears a memory encryption key slot from a key record. -/
  | keyset (rd : SReg) (ra : SReg)
  /-- R254: Performs a descriptor management command and returns its status. -/
  | asidset (rd : SReg) (ra : SReg)
  /-- R368: Freezes every page of a checkpoint set and starts the lehr drain. -/
  | ckfreeze (ra : SReg)
  /-- R371: Waits for a checkpoint drain or restore to end and returns its status. -/
  | ckwait (rd : SReg) (ra : SReg)
  /-- R372: Starts rebuilding a created context's pages from parity stripes. -/
  | ckrestore (ra : SReg)
  /-- R152: A gather's elements all arrive and its reserved queue place becomes ready. -/
  | gatherFill
  /-- R153: When every scatter element has performed at its home, the status place is filled with the count. -/
  | scatterStatusFill
  /-- R319: The translated positions of a kvx fill its reserved queue entry. -/
  | kvxFill
  /-- R185: The array carries out the next entry of the matrix queue in issue order. -/
  | matrixQueueExecute
  /-- R245: A 16 KiB chunk of a copy finishes, its writes performed or zero-filled on failure. -/
  | copyChunkDone
  /-- R246: When every chunk has ended, fmask is written and the completion record is posted. -/
  | copyCompletion
  /-- R216: A page move's copy ends and the leaf, records and frames are installed or the move ends stale, failed or without a frame. -/
  | moveInstall
  /-- R216: Once accesses through the old leaf drain, the old frame is given to its free ring. -/
  | oldFrameRelease
  /-- R249: The engine compacts the block's rows and bitmap in one event and posts the record. -/
  | kvcompactEvent
  /-- R327: A slice reads a dispatched KV block in one event, scores it or marks it nonresident or failed. -/
  | sliceBlockRead
  /-- R328: After all slices finish and the marver network merges, results are written and the pass record is posted. -/
  | passCompletion
  /-- R219: A prefetch fill arrives and is installed, or dropped if the page left H. -/
  | prefFillArrival
  /-- R218: The eviction engine examines the frame at its hand, clearing A or demoting the page. -/
  | evictionSweep
  /-- R235: After 64 deadlocked cycles the hart traps with queue deadlock in the execute stream. -/
  | queueDeadlock
  /-- R267: A hart's yield countdown reaches zero and it is pre-empted by force. -/
  | yieldDeadlineExpiry
  /-- R266: A hart or engine of a leaving context acknowledges its die's collector after saving its state. -/
  | collectorAcknowledgement
  /-- R269: Once its resources are free, a pre-empted context is loaded back onto its cores and resumes. -/
  | contextResumption
  /-- R271: A held context event is written to the parent's event ring once it has room. -/
  | contextEventWrite
  /-- R278: A dispatcher tries head records by priority and places one kernel whose predecessors, level and resources allow. -/
  | kernelDispatch
  /-- R237: A doorbell write of a new write index is accepted, ignored, refused with overrun, or dropped and logged. -/
  | launchQueueDoorbell
  /-- R377: Mailbox command that makes a descriptor host-parented and binds and opens it. -/
  | ctxRoot
  /-- R213: Mailbox command that checks and takes the page control block. -/
  | setPcb
  /-- R362: Mailbox command that writes the fabric table and self index. -/
  | fabricTable
  /-- R377: Mailbox command that moves the oldest host context event to the data area. -/
  | takeEvent
  /-- R383: Mailbox command that moves up to 64 error-log records to the data area. -/
  | readLog
  /-- R379: Mailbox command that verifies a signed object and writes it to flash. -/
  | stage
  /-- R381: Mailbox command that returns a signed measurement report for a nonce. -/
  | attest
  /-- R376: Mailbox command that sets the key slot for aperture accesses. -/
  | keyAperture
  /-- R18: Mailbox command that returns the device to S0, discarding context state. -/
  | reset
  /-- R376: A host write through BAR2 performs as a plain store, or is dropped and logged beyond HBM. -/
  | apertureWrite
  /-- R376: A host read through BAR2 returns the home value, or all ones beyond HBM. -/
  | apertureRead
  /-- R375: A host write to a device-window offset with no behaviour of its own is stored or dropped and logged. -/
  | deviceWindowWrite
  /-- R17: Power-on or reset puts the device in S0 with the management controller running. -/
  | powerOn
  /-- R378: Die 0's firmware and record verify and it trains, so the device enters S1, or stays in S0 on failure. -/
  | enterS1
  /-- R21: All dies train and verify; die 0's clock steps up and the device enters S2. -/
  | enterS2
  /-- R378: A CXL port finishes training, up or failed. -/
  | cxlPortTrainingDone
  /-- R361: A Voltor port finishes training as up, degraded or failed. -/
  | voltorTrainingDone
  /-- R361: Training not done within 2^24 cycles leaves the port failed. -/
  | voltorTrainingTimeout
  /-- R361: A lane fault on an up or degraded port sends it back to training. -/
  | voltorLaneFault
  /-- R361: Loss of signal takes a port down. -/
  | lossOfSignal
  /-- R360: A 256-byte flit arrives and is delivered in sequence, or its CRC fails and it is not delivered. -/
  | flitReceive
  /-- R363: An access from a peer device performs at the home slice under the peer's key slot. -/
  | peerAccessArrival
  /-- R364: A store in flight loses every route, is dropped and a code-7 context event is posted. -/
  | peerStoreLost
  /-- R365: A member device reports over the links that it has placed its part of a fab kernel. -/
  | fabPartReport
  /-- R365: A pause from a collecting member gives the local part of the fab context the same deadline. -/
  | fabPause
  /-- R366: Fabric barrier arrivals combined over the links complete the barrier on every device. -/
  | fabricBarrierCombine
  /-- R370: A checkpoint drain ends, commits its pages privately and writes status as a release at .fab. -/
  | drainEnd
  /-- R372: A checkpoint restore ends with status restored, reconstructed or failed. -/
  | restoreEnd
  /-- R258: Fetch runs ahead of issue, marking lines poisoned on faults without reporting them. -/
  | instructionFetchAhead
  /-- R382: A corrected soft error is counted in the error log. -/
  | eccCorrected
  /-- R382: An uncorrectable error poisons its sector or word and is logged. -/
  | eccUncorrectable
  /-- R384: At a power or temperature limit a die's clock is lowered in 125 MHz steps. -/
  | thermalLimit
  /-- R384: Passing the trip point resets the device to S0 with boot = 4 and a class 8 record. -/
  | thermalTrip
  /-- R34: The null word 0x0000_0000 is fetched for issue and raises null fetch (0x02). -/
  | nullFetch
  /-- R35: A word that is unassigned, or that has a reserved field or code set, is issued and raises illegal instruction (0x01). -/
  | illegalInstruction
  /-- R258: A word poisoned by a fetch fault, key slot fault, promote-on-touch or uncorrectable error is fetched for issue and raises its cause with etval the word's address. -/
  | fetchForIssueFault
  /-- R163: A store that has issued performs at its home some finite time later, removing stale TLB entries where it rewrites a table entry. -/
  | storePerform
  /-- R14: Each cycle of a core's arithmetic clock advances cyc by one, whether or not any hart issues. -/
  | cycleCounterAdvance
  /-- R361: A firmware command moves a Voltor port from down to training. -/
  | voltorFirmwareCommand
  deriving DecidableEq, Repr

end Sys2Proof
end

