-- ==== Sys2Proof/WellFormed.lean ====
section
/-! DEFINITION. The limits an instruction's operands must meet together, which no single field's range gives: a group
inside its file (R40), a bit field inside a register (R99), the register file a queue's operand names (R45), the queues a
form may name (R152, R153, R319), `ecall` apart from `breakpoint` (R45). -/

namespace Sys2Proof

/-- The d field of a queue form names a vector register for q0 to q3 and a scalar register for q4, q5 and q7; q6 has no
such form (R45). -/
def queueReg (q : QNo) (r : Fin 64) : Bool := q.val ≠ 6 && (decide (q.val < 4) || decide (r.val < 32))

/-- The operands of an instruction meet the limits of its form. -/
def Instr.wf : Instr → Bool
  | .ext _ _ pos wm1 => decide (pos.val + wm1.val + 1 ≤ 64)
  | .ins _ _ pos wm1 => decide (pos.val + wm1.val + 1 ≤ 64)
  | .qpush q r => queueReg q r
  | .qpop r q => queueReg q r
  | .qpeek r q => queueReg q r
  | .sapply _ va _ => decide (va.val + 3 < 64)
  | .vldsegMd n vd _ _ => decide (vd.val + n.val + 2 ≤ 64)
  | .vldsegMx n vd _ _ => decide (vd.val + n.val + 2 ≤ 64)
  | .vstsegMd n vs _ _ => decide (vs.val + n.val + 2 ≤ 64)
  | .vstsegMx n vs _ _ => decide (vs.val + n.val + 2 ≤ 64)
  | .vgat q _ _ _ _ _ => decide (q.val ≠ 4 ∧ q.val ≠ 5)
  | .vgatff q _ _ _ _ _ => decide (q.val ≠ 4 ∧ q.val ≠ 5)
  | .vsca q _ _ _ _ => decide (4 ≤ q.val)
  | .vscaa q _ _ _ _ => decide (4 ≤ q.val)
  | .kvx q _ _ _ => decide (q.val ≠ 4 ∧ q.val ≠ 5)
  | .dtadd _ _ vb => decide (vb.val + 1 < 64)
  | .ecall n => decide (n ≠ 1023)
  | .andi .. | .ori .. | .xori .. | .slti .. | .addi .. | .slli .. | .srli .. | .srai .. | .jalr .. | .lhi ..
  | .jal .. | .ctok .. | .astart .. | .beq .. | .bne .. | .blt .. | .bge .. | .bltn .. | .bgen .. | .smb .. | .add ..
  | .sub .. | .mul .. | .mulh .. | .div .. | .divn .. | .rem .. | .remn .. | .and .. | .or .. | .xor .. | .sll ..
  | .srl .. | .sra .. | .slt .. | .sltn .. | .min .. | .max .. | .minN .. | .maxN .. | .clz .. | .popc .. | .sel ..
  | .lea .. | .qlen .. | .ctake .. | .vadd .. | .vsub .. | .vmul .. | .vmadd .. | .vnmadd .. | .vdiv .. | .vsqrt ..
  | .vrsqrt .. | .vexp2 .. | .vlog2 .. | .vmax .. | .vmin .. | .vabs .. | .vneg .. | .vand .. | .vor .. | .vxor ..
  | .vnot .. | .vshl .. | .vshr .. | .vsra .. | .vcmp .. | .vsel .. | .vmv .. | .vsplat .. | .vid .. | .vext ..
  | .vins .. | .vcvt .. | .vredsum .. | .vredmax .. | .vredmin .. | .vargmax .. | .vslideup .. | .vslidedn ..
  | .vperm .. | .vcompress .. | .vexpand .. | .vconf .. | .smerge .. | .vaddImm .. | .vsubImm .. | .vmulImm ..
  | .vmaxImm .. | .vminImm .. | .vandImm .. | .vorImm .. | .vxorImm .. | .vshlImm .. | .vshrImm .. | .vsraImm ..
  | .vslideupImm .. | .vslidednImm .. | .vsplatImm .. | .vtag .. | .vcmpImm .. | .pand .. | .por .. | .pxor ..
  | .pnot .. | .psbf .. | .psif .. | .pfirst .. | .pcnt .. | .pset .. | .kmvToScale .. | .kmvToVector .. | .setvl ..
  | .mode .. | .lbMd .. | .lbMx .. | .lbnMd .. | .lbnMx .. | .lhMd .. | .lhMx .. | .lhnMd .. | .lhnMx .. | .lwMd ..
  | .lwMx .. | .lwnMd .. | .lwnMx .. | .ldMd .. | .ldMx .. | .prefL1Md .. | .prefL1Mx .. | .prefLlcMd ..
  | .prefLlcMx .. | .sbMd .. | .sbMx .. | .shMd .. | .shMx .. | .swMd .. | .swMx .. | .sdMd .. | .sdMx .. | .vldMd ..
  | .vldMx .. | .vlds .. | .vldffMd .. | .vldffMx .. | .ksld .. | .vstMd .. | .vstMx .. | .vsts .. | .amoadd ..
  | .amoswap .. | .amomax .. | .amomin .. | .amomaxN .. | .amominN .. | .amoand .. | .amoor .. | .cas .. | .cut ..
  | .cutp .. | .cutd .. | .mshapeCore .. | .mshapeDie .. | .mlds .. | .mswap | .mstreamLocal .. | .mstreamVector ..
  | .mzero .. | .mrd .. | .mwr .. | .opin .. | .ounpin .. | .ocommitPriv .. | .ocommitPub .. | .odiscard ..
  | .oquery .. | .frref .. | .cpy .. | .cpyx .. | .cpyz .. | .cpyp .. | .cpyd .. | .kvcompact .. | .lrfence
  | .evwait .. | .evpoll .. | .klaunch .. | .ktrig | .claim .. | .vrelease | .hend | .gsplit .. | .barr .. | .bwait ..
  | .bsync .. | .sattn .. | .spld .. | .dtinit .. | .dtmaskPred .. | .dtmaskVec .. | .dtpos .. | .dtacc ..
  | .dtprune .. | .dtld .. | .dtst .. | .dtinfo .. | .breakpoint | .eret | .trapack | .yield | .fence .. | .csrr ..
  | .csrw .. | .csrs .. | .csrc .. | .ctxsave .. | .ctxload .. | .keyset .. | .asidset .. | .ckfreeze .. | .ckwait ..
  | .ckrestore .. | .gatherFill | .scatterStatusFill | .kvxFill | .matrixQueueExecute | .copyChunkDone
  | .copyCompletion | .moveInstall | .oldFrameRelease | .kvcompactEvent | .sliceBlockRead | .passCompletion
  | .prefFillArrival | .evictionSweep | .queueDeadlock | .yieldDeadlineExpiry | .collectorAcknowledgement
  | .contextResumption | .contextEventWrite | .kernelDispatch | .launchQueueDoorbell | .ctxRoot | .setPcb
  | .fabricTable | .takeEvent | .readLog | .stage | .attest | .keyAperture | .reset | .apertureWrite | .apertureRead
  | .deviceWindowWrite | .powerOn | .enterS1 | .enterS2 | .cxlPortTrainingDone | .voltorTrainingDone
  | .voltorTrainingTimeout | .voltorLaneFault | .lossOfSignal | .flitReceive | .peerAccessArrival | .peerStoreLost
  | .fabPartReport | .fabPause | .fabricBarrierCombine | .drainEnd | .restoreEnd | .instructionFetchAhead
  | .eccCorrected | .eccUncorrectable | .thermalLimit | .thermalTrip | .nullFetch | .illegalInstruction
  | .fetchForIssueFault | .storePerform | .cycleCounterAdvance | .voltorFirmwareCommand => true

end Sys2Proof
end

