-- ==== Sys2Proof/Decode.lean ====
section
/-! DEFINITION. Decoding, total on any word, rejecting by name (R25 to R35, R40, R44, R45), and the encoder written from
the same field tables. A word is a `Nat`, its bits numbered as the spec numbers them. -/

namespace Sys2Proof

/-- Why a word is no instruction (R35, R29, R40). -/
inductive IllegalWord where
  /-- Its major opcode is unassigned. -/
  | unassignedOpcode
  /-- Its function code is unassigned under its major opcode. -/
  | unassignedFunction
  /-- A reserved field is not zero, or a field that must hold one value holds another. -/
  | reservedField
  /-- A field holds a reserved code. -/
  | reservedCode
  /-- A register number lies outside its file. -/
  | registerNumber
  /-- The operands together break a limit of the form, such as a group past the end of its file. -/
  | operandLimit
  deriving DecidableEq, Repr

/-- What a word is: one form of one instruction, the null word, or illegal (R26). -/
inductive Decoded where
  | instr (i : Instr)
  | null
  | illegal (why : IllegalWord)
  deriving DecidableEq, Repr

/-- Bits lo to lo + len − 1 of a word. -/
def fld (w lo len : Nat) : Nat := w / 2 ^ lo % 2 ^ len

/-- A field that must hold one value. -/
def fixed (x v : Nat) (k : Decoded) : Decoded := if x = v then k else .illegal .reservedField

/-- A field that names one of n registers or counts below n (R29). -/
def reg (n x : Nat) (k : Fin n → Decoded) : Decoded :=
  if h : x < n then k ⟨x, h⟩ else .illegal .registerNumber

/-- A field that holds a code of a table. -/
def code {α : Type} (table : Nat → Option α) (x : Nat) (k : α → Decoded) : Decoded :=
  match table x with
  | some a => k a
  | none => .illegal .reservedCode

/-- A one-bit field. -/
def flag (x : Nat) : Bool := x == 1

/-- The guard of `mode`: ge and g, where g must be 0 when ge = 0 (R33). -/
def guardField (ge g : Nat) (k : Option PRegNo → Decoded) : Decoded :=
  if ge = 0 then fixed g 0 (k none) else reg 64 g fun p => k (some p)

/-- Format codes (R32). -/
def Fmt.ofCode? : Nat → Option Fmt
  | 1 => some .i8 | 2 => some .n8 | 3 => some .i16 | 4 => some .n16 | 5 => some .i32 | 6 => some .n32 | 7 => some .i64
  | 8 => some .n64 | 9 => some .fp32 | 10 => some .bf16 | 11 => some .fp16 | 12 => some .e4m3 | 13 => some .e5m2
  | 14 => some .b4 | _ => none

/-- The code of a format (R32). -/
def Fmt.code : Fmt → Nat
  | .i8 => 1 | .n8 => 2 | .i16 => 3 | .n16 => 4 | .i32 => 5 | .n32 => 6 | .i64 => 7 | .n64 => 8 | .fp32 => 9
  | .bf16 => 10 | .fp16 => 11 | .e4m3 => 12 | .e5m2 => 13 | .b4 => 14

/-- Scope codes (R32). -/
def Scope.ofCode? : Nat → Option Scope
  | 0 => some .hart | 1 => some .core | 2 => some .die | 3 => some .dev | 4 => some .fab | _ => none

/-- The code of a scope (R32). -/
def Scope.code : Scope → Nat
  | .hart => 0 | .core => 1 | .die => 2 | .dev => 3 | .fab => 4

/-- The sc field of an atomic: the scope code minus one (R32). -/
def BScope.ofCode? : Nat → Option BScope
  | 0 => some .core | 1 => some .die | 2 => some .dev | 3 => some .fab | _ => none

/-- The sc field of an atomic (R32). -/
def BScope.code : BScope → Nat
  | .core => 0 | .die => 1 | .dev => 2 | .fab => 3

/-- The scope code of a barrier form, where 000 is reserved (R45). -/
def BScope.ofScope? : Nat → Option BScope
  | 1 => some .core | 2 => some .die | 3 => some .dev | 4 => some .fab | _ => none

/-- The scope code of a barrier form (R45). -/
def BScope.scopeCode (b : BScope) : Nat := b.code + 1

/-- Order codes (R32). -/
def Order.ofCode? : Nat → Option Order
  | 0 => some .none | 1 => some .acq | 2 => some .rel | 3 => some .ar | _ => none

/-- The code of an order (R32). -/
def Order.code : Order → Nat
  | .none => 0 | .acq => 1 | .rel => 2 | .ar => 3

/-- Fence kinds (R32). -/
def FenceKind.ofCode? : Nat → Option FenceKind
  | 1 => some .ld | 2 => some .st | 3 => some .all | _ => none

/-- The code of a fence kind (R32). -/
def FenceKind.code : FenceKind → Nat
  | .ld => 1 | .st => 2 | .all => 3

/-- Depth classes (R33). -/
def Depth.ofCode? : Nat → Option Depth
  | 0 => some .d8 | 1 => some .d16 | 2 => some .d32 | _ => none

/-- The code of a depth class (R33). -/
def Depth.code : Depth → Nat
  | .d8 => 0 | .d16 => 1 | .d32 => 2

/-- Rounding modes (R33). -/
def Rm.ofCode? : Nat → Option Rm
  | 0 => some .rne | 1 => some .rtz | 2 => some .rdn | 3 => some .rup | 4 => some .sr | _ => none

/-- The code of a rounding mode (R33). -/
def Rm.code : Rm → Nat
  | .rne => 0 | .rtz => 1 | .rdn => 2 | .rup => 3 | .sr => 4

/-- The comparisons in the order of R45. -/
def Cc.ofCode? : Nat → Option Cc
  | 0 => some .eq | 1 => some .ne | 2 => some .lt | 3 => some .le | 4 => some .gt | 5 => some .ge | 6 => some .uo | _ => none

/-- The place of a comparison in the order of R45. -/
def Cc.code : Cc → Nat
  | .eq => 0 | .ne => 1 | .lt => 2 | .le => 3 | .gt => 4 | .ge => 5 | .uo => 6

/-- Element widths (R42). -/
def Ew.ofCode? : Nat → Option Ew
  | 0 => some .b | 1 => some .h | 2 => some .w | 3 => some .d | _ => none

/-- The code of an element width (R42). -/
def Ew.code : Ew → Nat
  | .b => 0 | .h => 1 | .w => 2 | .d => 3

/-- The CSR numbers (R54). -/
def Csr.ofCode? : Nat → Option Csr
  | 0x000 => some .vl | 0x001 => some .vt | 0x002 => some .md | 0x003 => some .tl | 0x004 => some .resume
  | 0x005 => some .lanes | 0x006 => some .gcoord | 0x007 => some .cyc | 0x008 => some .bankc | 0x009 => some .nanpc
  | 0x00A => some .nanlane | 0x00B => some .rseed | 0x100 => some .ecause | 0x101 => some .epc | 0x102 => some .etval
  | 0x103 => some .estream | 0x104 => some .estatus | 0x105 => some .thandler | 0x106 => some .tstack
  | 0x107 => some .ewin | 0x108 => some .xresume | _ => none

/-- The number of a CSR (R54). -/
def Csr.code : Csr → Nat
  | .vl => 0x000 | .vt => 0x001 | .md => 0x002 | .tl => 0x003 | .resume => 0x004 | .lanes => 0x005 | .gcoord => 0x006
  | .cyc => 0x007 | .bankc => 0x008 | .nanpc => 0x009 | .nanlane => 0x00A | .rseed => 0x00B | .ecause => 0x100
  | .epc => 0x101 | .etval => 0x102 | .estream => 0x103 | .estatus => 0x104 | .thandler => 0x105 | .tstack => 0x106
  | .ewin => 0x107 | .xresume => 0x108

/-- The form of major opcode 0x10 (R44, R98). -/
def decodeAndi (w : Nat) : Decoded :=
  reg 32 (fld w 7 5) fun rd => reg 32 (fld w 12 5) fun rs => .instr (.andi rd rs (BitVec.ofNat 15 (fld w 17 15)))

/-- The form of major opcode 0x11 (R44, R98). -/
def decodeOri (w : Nat) : Decoded :=
  reg 32 (fld w 7 5) fun rd => reg 32 (fld w 12 5) fun rs => .instr (.ori rd rs (BitVec.ofNat 15 (fld w 17 15)))

/-- The form of major opcode 0x12 (R44, R98). -/
def decodeXori (w : Nat) : Decoded :=
  reg 32 (fld w 7 5) fun rd => reg 32 (fld w 12 5) fun rs => .instr (.xori rd rs (BitVec.ofNat 15 (fld w 17 15)))

/-- The form of major opcode 0x13 (R44, R98). -/
def decodeSlti (w : Nat) : Decoded :=
  reg 32 (fld w 7 5) fun rd => reg 32 (fld w 12 5) fun rs => .instr (.slti rd rs (BitVec.ofNat 15 (fld w 17 15)))

/-- The form of major opcode 0x14 (R44, R98). -/
def decodeAddi (w : Nat) : Decoded :=
  reg 32 (fld w 7 5) fun rd => reg 32 (fld w 12 5) fun rs => .instr (.addi rd rs (BitVec.ofNat 15 (fld w 17 15)))

/-- The form of major opcode 0x15 (R44, R98). -/
def decodeSlli (w : Nat) : Decoded :=
  fixed (fld w 23 9) 0 <| reg 32 (fld w 7 5) fun rd => reg 32 (fld w 12 5) fun rs => reg 64 (fld w 17 6) fun n => .instr (.slli rd rs n)

/-- The form of major opcode 0x16 (R44, R98). -/
def decodeSrli (w : Nat) : Decoded :=
  fixed (fld w 23 9) 0 <| reg 32 (fld w 7 5) fun rd => reg 32 (fld w 12 5) fun rs => reg 64 (fld w 17 6) fun n => .instr (.srli rd rs n)

/-- The form of major opcode 0x17 (R44, R98). -/
def decodeSrai (w : Nat) : Decoded :=
  fixed (fld w 23 9) 0 <| reg 32 (fld w 7 5) fun rd => reg 32 (fld w 12 5) fun rs => reg 64 (fld w 17 6) fun n => .instr (.srai rd rs n)

/-- The form of major opcode 0x18 (R44, R99). -/
def decodeExt (w : Nat) : Decoded :=
  fixed (fld w 29 3) 0 <| reg 32 (fld w 7 5) fun rd => reg 32 (fld w 12 5) fun rs => reg 64 (fld w 17 6) fun pos => reg 64 (fld w 23 6) fun wm1 => .instr (.ext rd rs pos wm1)

/-- The form of major opcode 0x19 (R44, R99). -/
def decodeIns (w : Nat) : Decoded :=
  fixed (fld w 29 3) 0 <| reg 32 (fld w 7 5) fun rd => reg 32 (fld w 12 5) fun rs => reg 64 (fld w 17 6) fun pos => reg 64 (fld w 23 6) fun wm1 => .instr (.ins rd rs pos wm1)

/-- The form of major opcode 0x1A (R44, R101). -/
def decodeJalr (w : Nat) : Decoded :=
  reg 32 (fld w 7 5) fun rd => reg 32 (fld w 12 5) fun rs => .instr (.jalr rd rs (BitVec.ofNat 15 (fld w 17 15)))

/-- The form of major opcode 0x1B (R44, R95). -/
def decodeLhi (w : Nat) : Decoded :=
  reg 32 (fld w 7 5) fun rd => .instr (.lhi rd (BitVec.ofNat 20 (fld w 12 20)))

/-- The form of major opcode 0x1C (R44, R101). -/
def decodeJal (w : Nat) : Decoded :=
  reg 32 (fld w 7 5) fun rd => .instr (.jal rd (BitVec.ofNat 20 (fld w 12 20)))

/-- The form of major opcode 0x1D (R44, R105). -/
def decodeCtok (w : Nat) : Decoded :=
  reg 32 (fld w 7 5) fun rs => .instr (.ctok rs (BitVec.ofNat 20 (fld w 12 20)))

/-- The form of major opcode 0x1E (R44, R104). -/
def decodeAstart (w : Nat) : Decoded :=
  fixed (fld w 7 5) 0 <| .instr (.astart (BitVec.ofNat 20 (fld w 12 20)))

/-- The form of major opcode 0x20 (R44, R100). -/
def decodeBeq (w : Nat) : Decoded :=
  reg 32 (fld w 7 5) fun ra => reg 32 (fld w 12 5) fun rb => .instr (.beq ra rb (BitVec.ofNat 15 (fld w 17 15)))

/-- The form of major opcode 0x21 (R44, R100). -/
def decodeBne (w : Nat) : Decoded :=
  reg 32 (fld w 7 5) fun ra => reg 32 (fld w 12 5) fun rb => .instr (.bne ra rb (BitVec.ofNat 15 (fld w 17 15)))

/-- The form of major opcode 0x22 (R44, R100). -/
def decodeBlt (w : Nat) : Decoded :=
  reg 32 (fld w 7 5) fun ra => reg 32 (fld w 12 5) fun rb => .instr (.blt ra rb (BitVec.ofNat 15 (fld w 17 15)))

/-- The form of major opcode 0x23 (R44, R100). -/
def decodeBge (w : Nat) : Decoded :=
  reg 32 (fld w 7 5) fun ra => reg 32 (fld w 12 5) fun rb => .instr (.bge ra rb (BitVec.ofNat 15 (fld w 17 15)))

/-- The form of major opcode 0x24 (R44, R100). -/
def decodeBltn (w : Nat) : Decoded :=
  reg 32 (fld w 7 5) fun ra => reg 32 (fld w 12 5) fun rb => .instr (.bltn ra rb (BitVec.ofNat 15 (fld w 17 15)))

/-- The form of major opcode 0x25 (R44, R100). -/
def decodeBgen (w : Nat) : Decoded :=
  reg 32 (fld w 7 5) fun ra => reg 32 (fld w 12 5) fun rb => .instr (.bgen ra rb (BitVec.ofNat 15 (fld w 17 15)))

/-- The form of major opcode 0x26 (R44, R102). -/
def decodeSmb (w : Nat) : Decoded :=
  reg 32 (fld w 7 5) fun ra => reg 32 (fld w 12 5) fun rb => .instr (.smb ra rb (BitVec.ofNat 15 (fld w 17 15)))

/-- The forms of major opcode 0x30, by function code (R44, R45). -/
def decodeScalarAlu (w : Nat) : Decoded :=
  match fld w 22 10 with
  | 0x0 => reg 32 (fld w 7 5) fun rd => reg 32 (fld w 12 5) fun ra => reg 32 (fld w 17 5) fun rb => .instr (.add rd ra rb)
  | 0x1 => reg 32 (fld w 7 5) fun rd => reg 32 (fld w 12 5) fun ra => reg 32 (fld w 17 5) fun rb => .instr (.sub rd ra rb)
  | 0x2 => reg 32 (fld w 7 5) fun rd => reg 32 (fld w 12 5) fun ra => reg 32 (fld w 17 5) fun rb => .instr (.mul rd ra rb)
  | 0x3 => reg 32 (fld w 7 5) fun rd => reg 32 (fld w 12 5) fun ra => reg 32 (fld w 17 5) fun rb => .instr (.mulh rd ra rb)
  | 0x4 => reg 32 (fld w 7 5) fun rd => reg 32 (fld w 12 5) fun ra => reg 32 (fld w 17 5) fun rb => .instr (.div rd ra rb)
  | 0x5 => reg 32 (fld w 7 5) fun rd => reg 32 (fld w 12 5) fun ra => reg 32 (fld w 17 5) fun rb => .instr (.divn rd ra rb)
  | 0x6 => reg 32 (fld w 7 5) fun rd => reg 32 (fld w 12 5) fun ra => reg 32 (fld w 17 5) fun rb => .instr (.rem rd ra rb)
  | 0x7 => reg 32 (fld w 7 5) fun rd => reg 32 (fld w 12 5) fun ra => reg 32 (fld w 17 5) fun rb => .instr (.remn rd ra rb)
  | 0x8 => reg 32 (fld w 7 5) fun rd => reg 32 (fld w 12 5) fun ra => reg 32 (fld w 17 5) fun rb => .instr (.and rd ra rb)
  | 0x9 => reg 32 (fld w 7 5) fun rd => reg 32 (fld w 12 5) fun ra => reg 32 (fld w 17 5) fun rb => .instr (.or rd ra rb)
  | 0xA => reg 32 (fld w 7 5) fun rd => reg 32 (fld w 12 5) fun ra => reg 32 (fld w 17 5) fun rb => .instr (.xor rd ra rb)
  | 0xB => reg 32 (fld w 7 5) fun rd => reg 32 (fld w 12 5) fun ra => reg 32 (fld w 17 5) fun rb => .instr (.sll rd ra rb)
  | 0xC => reg 32 (fld w 7 5) fun rd => reg 32 (fld w 12 5) fun ra => reg 32 (fld w 17 5) fun rb => .instr (.srl rd ra rb)
  | 0xD => reg 32 (fld w 7 5) fun rd => reg 32 (fld w 12 5) fun ra => reg 32 (fld w 17 5) fun rb => .instr (.sra rd ra rb)
  | 0xE => reg 32 (fld w 7 5) fun rd => reg 32 (fld w 12 5) fun ra => reg 32 (fld w 17 5) fun rb => .instr (.slt rd ra rb)
  | 0xF => reg 32 (fld w 7 5) fun rd => reg 32 (fld w 12 5) fun ra => reg 32 (fld w 17 5) fun rb => .instr (.sltn rd ra rb)
  | 0x10 => reg 32 (fld w 7 5) fun rd => reg 32 (fld w 12 5) fun ra => reg 32 (fld w 17 5) fun rb => .instr (.min rd ra rb)
  | 0x11 => reg 32 (fld w 7 5) fun rd => reg 32 (fld w 12 5) fun ra => reg 32 (fld w 17 5) fun rb => .instr (.max rd ra rb)
  | 0x12 => reg 32 (fld w 7 5) fun rd => reg 32 (fld w 12 5) fun ra => reg 32 (fld w 17 5) fun rb => .instr (.minN rd ra rb)
  | 0x13 => reg 32 (fld w 7 5) fun rd => reg 32 (fld w 12 5) fun ra => reg 32 (fld w 17 5) fun rb => .instr (.maxN rd ra rb)
  | 0x14 => fixed (fld w 17 5) 0 <| reg 32 (fld w 7 5) fun rd => reg 32 (fld w 12 5) fun ra => .instr (.clz rd ra)
  | 0x15 => fixed (fld w 17 5) 0 <| reg 32 (fld w 7 5) fun rd => reg 32 (fld w 12 5) fun ra => .instr (.popc rd ra)
  | 0x16 => reg 32 (fld w 7 5) fun rd => reg 32 (fld w 12 5) fun ra => reg 32 (fld w 17 5) fun rb => .instr (.sel rd ra rb)
  | 0x18 | 0x19 | 0x1A | 0x1B => reg 32 (fld w 7 5) fun rd => reg 32 (fld w 12 5) fun ra => reg 32 (fld w 17 5) fun rb => reg 4 (fld w 22 2) fun n => .instr (.lea rd ra rb n)
  | _ => .illegal .unassignedFunction

/-- The forms of major opcode 0x38, by function code (R44, R45). -/
def decodeQueue (w : Nat) : Decoded :=
  match fld w 16 4 with
  | 0x0 => fixed (fld w 20 12) 0 <| reg 8 (fld w 13 3) fun q => reg 64 (fld w 7 6) fun r => .instr (.qpush q r)
  | 0x1 => fixed (fld w 20 12) 0 <| reg 64 (fld w 7 6) fun r => reg 8 (fld w 13 3) fun q => .instr (.qpop r q)
  | 0x2 => fixed (fld w 20 12) 0 <| reg 64 (fld w 7 6) fun r => reg 8 (fld w 13 3) fun q => .instr (.qpeek r q)
  | 0x3 => fixed (fld w 20 12) 0 <| reg 32 (fld w 7 6) fun rd => reg 8 (fld w 13 3) fun q => .instr (.qlen rd q)
  | 0x4 => fixed (fld w 13 3) 6 <| fixed (fld w 20 12) 0 <| reg 32 (fld w 7 6) fun rd => .instr (.ctake rd)
  | _ => .illegal .unassignedFunction

/-- The forms of major opcode 0x40, by function code (R44, R45). -/
def decodeVector (w : Nat) : Decoded :=
  match fld w 25 7 with
  | 0x0 => reg 64 (fld w 7 6) fun vd => reg 64 (fld w 13 6) fun va => reg 64 (fld w 19 6) fun vb => .instr (.vadd vd va vb)
  | 0x1 => reg 64 (fld w 7 6) fun vd => reg 64 (fld w 13 6) fun va => reg 64 (fld w 19 6) fun vb => .instr (.vsub vd va vb)
  | 0x2 => reg 64 (fld w 7 6) fun vd => reg 64 (fld w 13 6) fun va => reg 64 (fld w 19 6) fun vb => .instr (.vmul vd va vb)
  | 0x3 => reg 64 (fld w 7 6) fun vd => reg 64 (fld w 13 6) fun va => reg 64 (fld w 19 6) fun vb => .instr (.vmadd vd va vb)
  | 0x4 => reg 64 (fld w 7 6) fun vd => reg 64 (fld w 13 6) fun va => reg 64 (fld w 19 6) fun vb => .instr (.vnmadd vd va vb)
  | 0x5 => reg 64 (fld w 7 6) fun vd => reg 64 (fld w 13 6) fun va => reg 64 (fld w 19 6) fun vb => .instr (.vdiv vd va vb)
  | 0x6 => fixed (fld w 19 6) 0 <| reg 64 (fld w 7 6) fun vd => reg 64 (fld w 13 6) fun va => .instr (.vsqrt vd va)
  | 0x7 => fixed (fld w 19 6) 0 <| reg 64 (fld w 7 6) fun vd => reg 64 (fld w 13 6) fun va => .instr (.vrsqrt vd va)
  | 0x8 => fixed (fld w 19 6) 0 <| reg 64 (fld w 7 6) fun vd => reg 64 (fld w 13 6) fun va => .instr (.vexp2 vd va)
  | 0x9 => fixed (fld w 19 6) 0 <| reg 64 (fld w 7 6) fun vd => reg 64 (fld w 13 6) fun va => .instr (.vlog2 vd va)
  | 0xA => reg 64 (fld w 7 6) fun vd => reg 64 (fld w 13 6) fun va => reg 64 (fld w 19 6) fun vb => .instr (.vmax vd va vb)
  | 0xB => reg 64 (fld w 7 6) fun vd => reg 64 (fld w 13 6) fun va => reg 64 (fld w 19 6) fun vb => .instr (.vmin vd va vb)
  | 0xC => fixed (fld w 19 6) 0 <| reg 64 (fld w 7 6) fun vd => reg 64 (fld w 13 6) fun va => .instr (.vabs vd va)
  | 0xD => fixed (fld w 19 6) 0 <| reg 64 (fld w 7 6) fun vd => reg 64 (fld w 13 6) fun va => .instr (.vneg vd va)
  | 0x10 => reg 64 (fld w 7 6) fun vd => reg 64 (fld w 13 6) fun va => reg 64 (fld w 19 6) fun vb => .instr (.vand vd va vb)
  | 0x11 => reg 64 (fld w 7 6) fun vd => reg 64 (fld w 13 6) fun va => reg 64 (fld w 19 6) fun vb => .instr (.vor vd va vb)
  | 0x12 => reg 64 (fld w 7 6) fun vd => reg 64 (fld w 13 6) fun va => reg 64 (fld w 19 6) fun vb => .instr (.vxor vd va vb)
  | 0x13 => fixed (fld w 19 6) 0 <| reg 64 (fld w 7 6) fun vd => reg 64 (fld w 13 6) fun va => .instr (.vnot vd va)
  | 0x14 => reg 64 (fld w 7 6) fun vd => reg 64 (fld w 13 6) fun va => reg 64 (fld w 19 6) fun vb => .instr (.vshl vd va vb)
  | 0x15 => reg 64 (fld w 7 6) fun vd => reg 64 (fld w 13 6) fun va => reg 64 (fld w 19 6) fun vb => .instr (.vshr vd va vb)
  | 0x16 => reg 64 (fld w 7 6) fun vd => reg 64 (fld w 13 6) fun va => reg 64 (fld w 19 6) fun vb => .instr (.vsra vd va vb)
  | 0x18 | 0x19 | 0x1A | 0x1B | 0x1C | 0x1D | 0x1E => code Cc.ofCode? (fld w 25 3) fun cc => reg 64 (fld w 7 6) fun pd => reg 64 (fld w 13 6) fun va => reg 64 (fld w 19 6) fun vb => .instr (.vcmp cc pd va vb)
  | 0x1F => reg 64 (fld w 7 6) fun vd => reg 64 (fld w 13 6) fun va => reg 64 (fld w 19 6) fun vb => .instr (.vsel vd va vb)
  | 0x20 => fixed (fld w 19 6) 0 <| reg 64 (fld w 7 6) fun vd => reg 64 (fld w 13 6) fun va => .instr (.vmv vd va)
  | 0x21 => fixed (fld w 19 6) 0 <| reg 64 (fld w 7 6) fun vd => reg 32 (fld w 13 6) fun ra => .instr (.vsplat vd ra)
  | 0x22 => fixed (fld w 13 12) 0 <| reg 64 (fld w 7 6) fun vd => .instr (.vid vd)
  | 0x23 => reg 32 (fld w 7 6) fun rd => reg 64 (fld w 13 6) fun va => reg 32 (fld w 19 6) fun rb => .instr (.vext rd va rb)
  | 0x24 => reg 64 (fld w 7 6) fun vd => reg 32 (fld w 13 6) fun ra => reg 32 (fld w 19 6) fun rb => .instr (.vins vd ra rb)
  | 0x25 => fixed (fld w 23 2) 0 <| reg 64 (fld w 7 6) fun vd => reg 64 (fld w 13 6) fun va => code Fmt.ofCode? (fld w 19 4) fun fmt => .instr (.vcvt vd va fmt)
  | 0x28 => fixed (fld w 19 6) 0 <| reg 64 (fld w 7 6) fun vd => reg 64 (fld w 13 6) fun va => .instr (.vredsum vd va)
  | 0x29 => fixed (fld w 19 6) 0 <| reg 64 (fld w 7 6) fun vd => reg 64 (fld w 13 6) fun va => .instr (.vredmax vd va)
  | 0x2A => fixed (fld w 19 6) 0 <| reg 64 (fld w 7 6) fun vd => reg 64 (fld w 13 6) fun va => .instr (.vredmin vd va)
  | 0x2B => fixed (fld w 19 6) 0 <| reg 32 (fld w 7 6) fun rd => reg 64 (fld w 13 6) fun va => .instr (.vargmax rd va)
  | 0x30 => reg 64 (fld w 7 6) fun vd => reg 64 (fld w 13 6) fun va => reg 32 (fld w 19 6) fun rb => .instr (.vslideup vd va rb)
  | 0x31 => reg 64 (fld w 7 6) fun vd => reg 64 (fld w 13 6) fun va => reg 32 (fld w 19 6) fun rb => .instr (.vslidedn vd va rb)
  | 0x32 => reg 64 (fld w 7 6) fun vd => reg 64 (fld w 13 6) fun va => reg 64 (fld w 19 6) fun vb => .instr (.vperm vd va vb)
  | 0x33 => reg 64 (fld w 7 6) fun vd => reg 64 (fld w 13 6) fun va => reg 64 (fld w 19 6) fun pb => .instr (.vcompress vd va pb)
  | 0x34 => reg 64 (fld w 7 6) fun vd => reg 64 (fld w 13 6) fun va => reg 64 (fld w 19 6) fun pb => .instr (.vexpand vd va pb)
  | 0x35 => fixed (fld w 19 6) 0 <| reg 64 (fld w 7 6) fun pd => reg 64 (fld w 13 6) fun va => .instr (.vconf pd va)
  | 0x38 => reg 64 (fld w 7 6) fun vd => reg 64 (fld w 13 6) fun va => reg 64 (fld w 19 6) fun vb => .instr (.smerge vd va vb)
  | 0x39 => reg 64 (fld w 7 6) fun vd => reg 64 (fld w 13 6) fun va => reg 4 (fld w 19 6) fun sp => .instr (.sapply vd va sp)
  | _ => .illegal .unassignedFunction

/-- The forms of major opcode 0x41, by function code (R44, R45). -/
def decodeVectorImm (w : Nat) : Decoded :=
  match fld w 27 5 with
  | 0x0 => reg 64 (fld w 7 6) fun vd => reg 64 (fld w 13 6) fun va => .instr (.vaddImm vd va (BitVec.ofNat 8 (fld w 19 8)))
  | 0x1 => reg 64 (fld w 7 6) fun vd => reg 64 (fld w 13 6) fun va => .instr (.vsubImm vd va (BitVec.ofNat 8 (fld w 19 8)))
  | 0x2 => reg 64 (fld w 7 6) fun vd => reg 64 (fld w 13 6) fun va => .instr (.vmulImm vd va (BitVec.ofNat 8 (fld w 19 8)))
  | 0x3 => reg 64 (fld w 7 6) fun vd => reg 64 (fld w 13 6) fun va => .instr (.vmaxImm vd va (BitVec.ofNat 8 (fld w 19 8)))
  | 0x4 => reg 64 (fld w 7 6) fun vd => reg 64 (fld w 13 6) fun va => .instr (.vminImm vd va (BitVec.ofNat 8 (fld w 19 8)))
  | 0x5 => reg 64 (fld w 7 6) fun vd => reg 64 (fld w 13 6) fun va => .instr (.vandImm vd va (BitVec.ofNat 8 (fld w 19 8)))
  | 0x6 => reg 64 (fld w 7 6) fun vd => reg 64 (fld w 13 6) fun va => .instr (.vorImm vd va (BitVec.ofNat 8 (fld w 19 8)))
  | 0x7 => reg 64 (fld w 7 6) fun vd => reg 64 (fld w 13 6) fun va => .instr (.vxorImm vd va (BitVec.ofNat 8 (fld w 19 8)))
  | 0x8 => reg 64 (fld w 7 6) fun vd => reg 64 (fld w 13 6) fun va => .instr (.vshlImm vd va (BitVec.ofNat 8 (fld w 19 8)))
  | 0x9 => reg 64 (fld w 7 6) fun vd => reg 64 (fld w 13 6) fun va => .instr (.vshrImm vd va (BitVec.ofNat 8 (fld w 19 8)))
  | 0xA => reg 64 (fld w 7 6) fun vd => reg 64 (fld w 13 6) fun va => .instr (.vsraImm vd va (BitVec.ofNat 8 (fld w 19 8)))
  | 0xB => reg 64 (fld w 7 6) fun vd => reg 64 (fld w 13 6) fun va => .instr (.vslideupImm vd va (BitVec.ofNat 8 (fld w 19 8)))
  | 0xC => reg 64 (fld w 7 6) fun vd => reg 64 (fld w 13 6) fun va => .instr (.vslidednImm vd va (BitVec.ofNat 8 (fld w 19 8)))
  | 0xD => fixed (fld w 13 6) 0 <| reg 64 (fld w 7 6) fun vd => .instr (.vsplatImm vd (BitVec.ofNat 8 (fld w 19 8)))
  | 0xE => fixed (fld w 13 6) 0 <| fixed (fld w 23 4) 0 <| reg 64 (fld w 7 6) fun vd => code Fmt.ofCode? (fld w 19 4) fun fmt => .instr (.vtag vd fmt)
  | 0x10 | 0x11 | 0x12 | 0x13 | 0x14 | 0x15 | 0x16 => code Cc.ofCode? (fld w 27 3) fun cc => reg 64 (fld w 7 6) fun pd => reg 64 (fld w 13 6) fun va => .instr (.vcmpImm cc pd va (BitVec.ofNat 8 (fld w 19 8)))
  | _ => .illegal .unassignedFunction

/-- The forms of major opcode 0x42, by function code (R44, R45). -/
def decodePredScale (w : Nat) : Decoded :=
  match fld w 25 7 with
  | 0x0 => reg 64 (fld w 7 6) fun pd => reg 64 (fld w 13 6) fun pa => reg 64 (fld w 19 6) fun pb => .instr (.pand pd pa pb)
  | 0x1 => reg 64 (fld w 7 6) fun pd => reg 64 (fld w 13 6) fun pa => reg 64 (fld w 19 6) fun pb => .instr (.por pd pa pb)
  | 0x2 => reg 64 (fld w 7 6) fun pd => reg 64 (fld w 13 6) fun pa => reg 64 (fld w 19 6) fun pb => .instr (.pxor pd pa pb)
  | 0x3 => fixed (fld w 19 6) 0 <| reg 64 (fld w 7 6) fun pd => reg 64 (fld w 13 6) fun pa => .instr (.pnot pd pa)
  | 0x4 => fixed (fld w 19 6) 0 <| reg 64 (fld w 7 6) fun pd => reg 64 (fld w 13 6) fun pa => .instr (.psbf pd pa)
  | 0x5 => fixed (fld w 19 6) 0 <| reg 64 (fld w 7 6) fun pd => reg 64 (fld w 13 6) fun pa => .instr (.psif pd pa)
  | 0x6 => fixed (fld w 19 6) 0 <| reg 32 (fld w 7 6) fun rd => reg 64 (fld w 13 6) fun pa => .instr (.pfirst rd pa)
  | 0x7 => fixed (fld w 19 6) 0 <| reg 32 (fld w 7 6) fun rd => reg 64 (fld w 13 6) fun pa => .instr (.pcnt rd pa)
  | 0x8 => fixed (fld w 19 6) 0 <| reg 64 (fld w 7 6) fun pd => reg 32 (fld w 13 6) fun ra => .instr (.pset pd ra)
  | 0x10 => fixed (fld w 19 6) 0 <| reg 16 (fld w 7 6) fun kd => reg 64 (fld w 13 6) fun va => .instr (.kmvToScale kd va)
  | 0x11 => fixed (fld w 19 6) 0 <| reg 64 (fld w 7 6) fun vd => reg 16 (fld w 13 6) fun ka => .instr (.kmvToVector vd ka)
  | _ => .illegal .unassignedFunction

/-- The form of major opcode 0x44 (R44, R117). -/
def decodeSetvl (w : Nat) : Decoded :=
  fixed (fld w 30 2) 0 <| reg 32 (fld w 7 5) fun rd => reg 32 (fld w 12 5) fun ra => code Fmt.ofCode? (fld w 17 4) fun fmt => code Depth.ofCode? (fld w 21 2) fun dc => reg 17 (fld w 25 5) fun lg => .instr (.setvl rd ra fmt dc (flag (fld w 23 1)) (flag (fld w 24 1)) lg)

/-- The form of major opcode 0x45 (R44, R119). -/
def decodeMode (w : Nat) : Decoded :=
  fixed (fld w 7 10) 0 <| fixed (fld w 28 4) 0 <| guardField (fld w 23 1) (fld w 17 6) fun g => code Rm.ofCode? (fld w 24 3) fun rm => .instr (.mode g rm (flag (fld w 27 1)))

/-- The forms of major opcode 0x50, by function code (R44, R45). -/
def decodeScalarLoad (w : Nat) : Decoded :=
  match fld w 19 3 with
  | 0x0 =>
    if fld w 18 1 = 0 then fixed (fld w 12 1) 0 <| reg 32 (fld w 7 5) fun rd => reg 32 (fld w 13 5) fun ra => .instr (.lbMd rd ra (BitVec.ofNat 9 (fld w 23 9)) (flag (fld w 22 1)))
    else fixed (fld w 12 1) 0 <| fixed (fld w 28 4) 0 <| reg 32 (fld w 7 5) fun rd => reg 32 (fld w 13 5) fun ra => reg 32 (fld w 23 5) fun rb => .instr (.lbMx rd ra rb (flag (fld w 22 1)))
  | 0x1 =>
    if fld w 18 1 = 0 then fixed (fld w 12 1) 0 <| reg 32 (fld w 7 5) fun rd => reg 32 (fld w 13 5) fun ra => .instr (.lbnMd rd ra (BitVec.ofNat 9 (fld w 23 9)) (flag (fld w 22 1)))
    else fixed (fld w 12 1) 0 <| fixed (fld w 28 4) 0 <| reg 32 (fld w 7 5) fun rd => reg 32 (fld w 13 5) fun ra => reg 32 (fld w 23 5) fun rb => .instr (.lbnMx rd ra rb (flag (fld w 22 1)))
  | 0x2 =>
    if fld w 18 1 = 0 then fixed (fld w 12 1) 0 <| reg 32 (fld w 7 5) fun rd => reg 32 (fld w 13 5) fun ra => .instr (.lhMd rd ra (BitVec.ofNat 9 (fld w 23 9)) (flag (fld w 22 1)))
    else fixed (fld w 12 1) 0 <| fixed (fld w 28 4) 0 <| reg 32 (fld w 7 5) fun rd => reg 32 (fld w 13 5) fun ra => reg 32 (fld w 23 5) fun rb => .instr (.lhMx rd ra rb (flag (fld w 22 1)))
  | 0x3 =>
    if fld w 18 1 = 0 then fixed (fld w 12 1) 0 <| reg 32 (fld w 7 5) fun rd => reg 32 (fld w 13 5) fun ra => .instr (.lhnMd rd ra (BitVec.ofNat 9 (fld w 23 9)) (flag (fld w 22 1)))
    else fixed (fld w 12 1) 0 <| fixed (fld w 28 4) 0 <| reg 32 (fld w 7 5) fun rd => reg 32 (fld w 13 5) fun ra => reg 32 (fld w 23 5) fun rb => .instr (.lhnMx rd ra rb (flag (fld w 22 1)))
  | 0x4 =>
    if fld w 18 1 = 0 then fixed (fld w 12 1) 0 <| reg 32 (fld w 7 5) fun rd => reg 32 (fld w 13 5) fun ra => .instr (.lwMd rd ra (BitVec.ofNat 9 (fld w 23 9)) (flag (fld w 22 1)))
    else fixed (fld w 12 1) 0 <| fixed (fld w 28 4) 0 <| reg 32 (fld w 7 5) fun rd => reg 32 (fld w 13 5) fun ra => reg 32 (fld w 23 5) fun rb => .instr (.lwMx rd ra rb (flag (fld w 22 1)))
  | 0x5 =>
    if fld w 18 1 = 0 then fixed (fld w 12 1) 0 <| reg 32 (fld w 7 5) fun rd => reg 32 (fld w 13 5) fun ra => .instr (.lwnMd rd ra (BitVec.ofNat 9 (fld w 23 9)) (flag (fld w 22 1)))
    else fixed (fld w 12 1) 0 <| fixed (fld w 28 4) 0 <| reg 32 (fld w 7 5) fun rd => reg 32 (fld w 13 5) fun ra => reg 32 (fld w 23 5) fun rb => .instr (.lwnMx rd ra rb (flag (fld w 22 1)))
  | 0x6 =>
    if fld w 18 1 = 0 then fixed (fld w 12 1) 0 <| reg 32 (fld w 7 5) fun rd => reg 32 (fld w 13 5) fun ra => .instr (.ldMd rd ra (BitVec.ofNat 9 (fld w 23 9)) (flag (fld w 22 1)))
    else fixed (fld w 12 1) 0 <| fixed (fld w 28 4) 0 <| reg 32 (fld w 7 5) fun rd => reg 32 (fld w 13 5) fun ra => reg 32 (fld w 23 5) fun rb => .instr (.ldMx rd ra rb (flag (fld w 22 1)))
  | 0x7 =>
    match fld w 7 6, fld w 18 1 with
    | 0, 0 => fixed (fld w 22 1) 0 <| reg 32 (fld w 13 5) fun ra => .instr (.prefL1Md ra (BitVec.ofNat 9 (fld w 23 9)))
    | 0, _ => fixed (fld w 22 1) 0 <| fixed (fld w 28 4) 0 <| reg 32 (fld w 13 5) fun ra => reg 32 (fld w 23 5) fun rb => .instr (.prefL1Mx ra rb)
    | 1, 0 => fixed (fld w 22 1) 0 <| reg 32 (fld w 13 5) fun ra => .instr (.prefLlcMd ra (BitVec.ofNat 9 (fld w 23 9)))
    | 1, _ => fixed (fld w 22 1) 0 <| fixed (fld w 28 4) 0 <| reg 32 (fld w 13 5) fun ra => reg 32 (fld w 23 5) fun rb => .instr (.prefLlcMx ra rb)
    | _, _ => .illegal .reservedField
  | _ => .illegal .unassignedFunction

/-- The forms of major opcode 0x51, by function code (R44, R45). -/
def decodeScalarStore (w : Nat) : Decoded :=
  match fld w 19 3 with
  | 0x0 =>
    if fld w 18 1 = 0 then fixed (fld w 12 1) 0 <| fixed (fld w 22 1) 0 <| reg 32 (fld w 7 5) fun rs => reg 32 (fld w 13 5) fun ra => .instr (.sbMd rs ra (BitVec.ofNat 9 (fld w 23 9)))
    else fixed (fld w 12 1) 0 <| fixed (fld w 22 1) 0 <| fixed (fld w 28 4) 0 <| reg 32 (fld w 7 5) fun rs => reg 32 (fld w 13 5) fun ra => reg 32 (fld w 23 5) fun rb => .instr (.sbMx rs ra rb)
  | 0x2 =>
    if fld w 18 1 = 0 then fixed (fld w 12 1) 0 <| fixed (fld w 22 1) 0 <| reg 32 (fld w 7 5) fun rs => reg 32 (fld w 13 5) fun ra => .instr (.shMd rs ra (BitVec.ofNat 9 (fld w 23 9)))
    else fixed (fld w 12 1) 0 <| fixed (fld w 22 1) 0 <| fixed (fld w 28 4) 0 <| reg 32 (fld w 7 5) fun rs => reg 32 (fld w 13 5) fun ra => reg 32 (fld w 23 5) fun rb => .instr (.shMx rs ra rb)
  | 0x4 =>
    if fld w 18 1 = 0 then fixed (fld w 12 1) 0 <| fixed (fld w 22 1) 0 <| reg 32 (fld w 7 5) fun rs => reg 32 (fld w 13 5) fun ra => .instr (.swMd rs ra (BitVec.ofNat 9 (fld w 23 9)))
    else fixed (fld w 12 1) 0 <| fixed (fld w 22 1) 0 <| fixed (fld w 28 4) 0 <| reg 32 (fld w 7 5) fun rs => reg 32 (fld w 13 5) fun ra => reg 32 (fld w 23 5) fun rb => .instr (.swMx rs ra rb)
  | 0x6 =>
    if fld w 18 1 = 0 then fixed (fld w 12 1) 0 <| fixed (fld w 22 1) 0 <| reg 32 (fld w 7 5) fun rs => reg 32 (fld w 13 5) fun ra => .instr (.sdMd rs ra (BitVec.ofNat 9 (fld w 23 9)))
    else fixed (fld w 12 1) 0 <| fixed (fld w 22 1) 0 <| fixed (fld w 28 4) 0 <| reg 32 (fld w 7 5) fun rs => reg 32 (fld w 13 5) fun ra => reg 32 (fld w 23 5) fun rb => .instr (.sdMx rs ra rb)
  | _ => .illegal .unassignedFunction

/-- The forms of major opcode 0x54, by function code (R44, R45). -/
def decodeVectorLoad (w : Nat) : Decoded :=
  match fld w 19 3 with
  | 0x0 =>
    if fld w 18 1 = 0 then reg 64 (fld w 7 6) fun vd => reg 32 (fld w 13 5) fun ra => .instr (.vldMd vd ra (BitVec.ofNat 9 (fld w 23 9)) (flag (fld w 22 1)))
    else fixed (fld w 28 4) 0 <| reg 64 (fld w 7 6) fun vd => reg 32 (fld w 13 5) fun ra => reg 32 (fld w 23 5) fun rb => .instr (.vldMx vd ra rb (flag (fld w 22 1)))
  | 0x1 => fixed (fld w 18 1) 1 <| fixed (fld w 28 4) 0 <| reg 64 (fld w 7 6) fun vd => reg 32 (fld w 13 5) fun ra => reg 32 (fld w 23 5) fun rb => .instr (.vlds vd ra rb (flag (fld w 22 1)))
  | 0x2 =>
    if fld w 18 1 = 0 then reg 64 (fld w 7 6) fun vd => reg 32 (fld w 13 5) fun ra => .instr (.vldffMd vd ra (BitVec.ofNat 9 (fld w 23 9)) (flag (fld w 22 1)))
    else fixed (fld w 28 4) 0 <| reg 64 (fld w 7 6) fun vd => reg 32 (fld w 13 5) fun ra => reg 32 (fld w 23 5) fun rb => .instr (.vldffMx vd ra rb (flag (fld w 22 1)))
  | 0x3 => fixed (fld w 18 1) 1 <| fixed (fld w 28 4) 0 <| reg 16 (fld w 7 6) fun kd => reg 32 (fld w 13 5) fun ra => reg 32 (fld w 23 5) fun rb => .instr (.ksld kd ra rb (flag (fld w 22 1)))
  | _ => .illegal .unassignedFunction

/-- The forms of major opcode 0x55, by function code (R44, R45). -/
def decodeVectorStore (w : Nat) : Decoded :=
  match fld w 19 3 with
  | 0x0 =>
    if fld w 18 1 = 0 then fixed (fld w 22 1) 0 <| reg 64 (fld w 7 6) fun vs => reg 32 (fld w 13 5) fun ra => .instr (.vstMd vs ra (BitVec.ofNat 9 (fld w 23 9)))
    else fixed (fld w 22 1) 0 <| fixed (fld w 28 4) 0 <| reg 64 (fld w 7 6) fun vs => reg 32 (fld w 13 5) fun ra => reg 32 (fld w 23 5) fun rb => .instr (.vstMx vs ra rb)
  | 0x1 => fixed (fld w 18 1) 1 <| fixed (fld w 22 1) 0 <| fixed (fld w 28 4) 0 <| reg 64 (fld w 7 6) fun vs => reg 32 (fld w 13 5) fun ra => reg 32 (fld w 23 5) fun rb => .instr (.vsts vs ra rb)
  | _ => .illegal .unassignedFunction

/-- The forms of major opcode 0x56 (R44, R45). -/
def decodeVldseg (w : Nat) : Decoded :=
  if fld w 18 1 = 0 then
    fixed (fld w 22 1) 0 <| reg 7 (fld w 19 3) fun n => reg 64 (fld w 7 6) fun vd => reg 32 (fld w 13 5) fun ra => .instr (.vldsegMd n vd ra (BitVec.ofNat 9 (fld w 23 9)))
  else
    fixed (fld w 22 1) 0 <| fixed (fld w 28 4) 0 <| reg 7 (fld w 19 3) fun n => reg 64 (fld w 7 6) fun vd => reg 32 (fld w 13 5) fun ra => reg 32 (fld w 23 5) fun rb => .instr (.vldsegMx n vd ra rb)

/-- The forms of major opcode 0x57 (R44, R45). -/
def decodeVstseg (w : Nat) : Decoded :=
  if fld w 18 1 = 0 then
    fixed (fld w 22 1) 0 <| reg 7 (fld w 19 3) fun n => reg 64 (fld w 7 6) fun vs => reg 32 (fld w 13 5) fun ra => .instr (.vstsegMd n vs ra (BitVec.ofNat 9 (fld w 23 9)))
  else
    fixed (fld w 22 1) 0 <| fixed (fld w 28 4) 0 <| reg 7 (fld w 19 3) fun n => reg 64 (fld w 7 6) fun vs => reg 32 (fld w 13 5) fun ra => reg 32 (fld w 23 5) fun rb => .instr (.vstsegMx n vs ra rb)

/-- The forms of major opcode 0x58, by function code (R44, R45). -/
def decodeAtomic (w : Nat) : Decoded :=
  match fld w 23 4 with
  | 0x0 => fixed (fld w 12 1) 0 <| code BScope.ofCode? (fld w 30 2) fun sc => code Order.ofCode? (fld w 28 2) fun o => reg 32 (fld w 7 5) fun rd => reg 32 (fld w 18 5) fun rb => reg 32 (fld w 13 5) fun ra => .instr (.amoadd sc o (flag (fld w 27 1)) rd rb ra)
  | 0x1 => fixed (fld w 12 1) 0 <| code BScope.ofCode? (fld w 30 2) fun sc => code Order.ofCode? (fld w 28 2) fun o => reg 32 (fld w 7 5) fun rd => reg 32 (fld w 18 5) fun rb => reg 32 (fld w 13 5) fun ra => .instr (.amoswap sc o (flag (fld w 27 1)) rd rb ra)
  | 0x2 => fixed (fld w 12 1) 0 <| code BScope.ofCode? (fld w 30 2) fun sc => code Order.ofCode? (fld w 28 2) fun o => reg 32 (fld w 7 5) fun rd => reg 32 (fld w 18 5) fun rb => reg 32 (fld w 13 5) fun ra => .instr (.amomax sc o (flag (fld w 27 1)) rd rb ra)
  | 0x3 => fixed (fld w 12 1) 0 <| code BScope.ofCode? (fld w 30 2) fun sc => code Order.ofCode? (fld w 28 2) fun o => reg 32 (fld w 7 5) fun rd => reg 32 (fld w 18 5) fun rb => reg 32 (fld w 13 5) fun ra => .instr (.amomin sc o (flag (fld w 27 1)) rd rb ra)
  | 0x4 => fixed (fld w 12 1) 0 <| code BScope.ofCode? (fld w 30 2) fun sc => code Order.ofCode? (fld w 28 2) fun o => reg 32 (fld w 7 5) fun rd => reg 32 (fld w 18 5) fun rb => reg 32 (fld w 13 5) fun ra => .instr (.amomaxN sc o (flag (fld w 27 1)) rd rb ra)
  | 0x5 => fixed (fld w 12 1) 0 <| code BScope.ofCode? (fld w 30 2) fun sc => code Order.ofCode? (fld w 28 2) fun o => reg 32 (fld w 7 5) fun rd => reg 32 (fld w 18 5) fun rb => reg 32 (fld w 13 5) fun ra => .instr (.amominN sc o (flag (fld w 27 1)) rd rb ra)
  | 0x6 => fixed (fld w 12 1) 0 <| code BScope.ofCode? (fld w 30 2) fun sc => code Order.ofCode? (fld w 28 2) fun o => reg 32 (fld w 7 5) fun rd => reg 32 (fld w 18 5) fun rb => reg 32 (fld w 13 5) fun ra => .instr (.amoand sc o (flag (fld w 27 1)) rd rb ra)
  | 0x7 => fixed (fld w 12 1) 0 <| code BScope.ofCode? (fld w 30 2) fun sc => code Order.ofCode? (fld w 28 2) fun o => reg 32 (fld w 7 5) fun rd => reg 32 (fld w 18 5) fun rb => reg 32 (fld w 13 5) fun ra => .instr (.amoor sc o (flag (fld w 27 1)) rd rb ra)
  | 0x8 => fixed (fld w 12 1) 0 <| code BScope.ofCode? (fld w 30 2) fun sc => code Order.ofCode? (fld w 28 2) fun o => reg 32 (fld w 7 5) fun rd => reg 32 (fld w 18 5) fun rb => reg 32 (fld w 13 5) fun ra => .instr (.cas sc o (flag (fld w 27 1)) rd rb ra)
  | _ => .illegal .unassignedFunction

/-- The forms of major opcode 0x5A, by function code (R44, R45). -/
def decodeAccessMem (w : Nat) : Decoded :=
  match fld w 10 3 with
  | 0x0 => fixed (fld w 31 1) 0 <| reg 8 (fld w 7 3) fun q => code Ew.ofCode? (fld w 29 2) fun ew => reg 32 (fld w 13 5) fun ra => reg 32 (fld w 18 5) fun rb => reg 32 (fld w 23 5) fun rc => .instr (.vgat q ew (flag (fld w 28 1)) ra rb rc)
  | 0x1 => fixed (fld w 31 1) 0 <| reg 8 (fld w 7 3) fun q => code Ew.ofCode? (fld w 29 2) fun ew => reg 32 (fld w 13 5) fun ra => reg 32 (fld w 18 5) fun rb => reg 32 (fld w 23 5) fun rc => .instr (.vgatff q ew (flag (fld w 28 1)) ra rb rc)
  | 0x2 => fixed (fld w 28 1) 0 <| fixed (fld w 31 1) 0 <| reg 8 (fld w 7 3) fun q => code Ew.ofCode? (fld w 29 2) fun ew => reg 32 (fld w 13 5) fun ra => reg 32 (fld w 18 5) fun rb => reg 32 (fld w 23 5) fun rc => .instr (.vsca q ew ra rb rc)
  | 0x3 => fixed (fld w 28 1) 0 <| fixed (fld w 31 1) 0 <| reg 8 (fld w 7 3) fun q => code Ew.ofCode? (fld w 29 2) fun ew => reg 32 (fld w 13 5) fun ra => reg 32 (fld w 18 5) fun rb => reg 32 (fld w 23 5) fun rc => .instr (.vscaa q ew ra rb rc)
  | 0x4 => fixed (fld w 28 4) 6 <| reg 8 (fld w 7 3) fun q => reg 32 (fld w 13 5) fun ra => reg 32 (fld w 18 5) fun rb => reg 32 (fld w 23 5) fun rc => .instr (.kvx q ra rb rc)
  | _ => .illegal .unassignedFunction

/-- The forms of major opcode 0x5C, by function code (R44, R45). -/
def decodeCutter (w : Nat) : Decoded :=
  match fld w 22 10 with
  | 0x0 => reg 8 (fld w 7 5) fun bd => reg 32 (fld w 12 5) fun ra => reg 32 (fld w 17 5) fun rb => .instr (.cut bd ra rb)
  | 0x1 => reg 8 (fld w 7 5) fun bd => reg 32 (fld w 12 5) fun ra => reg 32 (fld w 17 5) fun rb => .instr (.cutp bd ra rb)
  | 0x2 => reg 8 (fld w 7 5) fun bd => reg 32 (fld w 12 5) fun ra => reg 32 (fld w 17 5) fun rb => .instr (.cutd bd ra rb)
  | _ => .illegal .unassignedFunction

/-- The forms of major opcode 0x60, by function code (R44, R45). -/
def decodeMatrix (w : Nat) : Decoded :=
  match fld w 25 7 with
  | 0x0 => reg 32 (fld w 7 6) fun rd => reg 32 (fld w 13 6) fun ra => reg 32 (fld w 19 6) fun rb => .instr (.mshapeCore rd ra rb)
  | 0x1 => reg 32 (fld w 7 6) fun rd => reg 32 (fld w 13 6) fun ra => reg 32 (fld w 19 6) fun rb => .instr (.mshapeDie rd ra rb)
  | 0x2 => fixed (fld w 19 6) 0 <| reg 32 (fld w 7 6) fun rd => reg 32 (fld w 13 6) fun ra => .instr (.mlds rd ra)
  | 0x3 => fixed (fld w 7 18) 0 <| .instr .mswap
  | 0x4 => reg 2 (fld w 7 6) fun cd => reg 32 (fld w 13 6) fun ra => reg 32 (fld w 19 6) fun rb => .instr (.mstreamLocal cd ra rb)
  | 0x5 => reg 2 (fld w 7 6) fun cd => reg 64 (fld w 13 6) fun va => reg 32 (fld w 19 6) fun rb => .instr (.mstreamVector cd va rb)
  | 0x6 => fixed (fld w 13 12) 0 <| reg 2 (fld w 7 6) fun cd => .instr (.mzero cd)
  | 0x7 => reg 64 (fld w 7 6) fun vd => reg 2 (fld w 13 6) fun ca => reg 32 (fld w 19 6) fun rb => .instr (.mrd vd ca rb)
  | 0x8 => reg 2 (fld w 7 6) fun cd => reg 64 (fld w 13 6) fun va => reg 32 (fld w 19 6) fun rb => .instr (.mwr cd va rb)
  | _ => .illegal .unassignedFunction

/-- The forms of major opcode 0x62, by function code (R44, R45). -/
def decodePage (w : Nat) : Decoded :=
  match fld w 22 4 with
  | 0x0 => fixed (fld w 12 10) 0 <| fixed (fld w 26 6) 0 <| reg 32 (fld w 7 5) fun ra => .instr (.opin ra)
  | 0x1 => fixed (fld w 12 10) 0 <| fixed (fld w 26 6) 0 <| reg 32 (fld w 7 5) fun ra => .instr (.ounpin ra)
  | 0x2 => fixed (fld w 12 10) 0 <| fixed (fld w 26 6) 0 <| reg 32 (fld w 7 5) fun ra => .instr (.ocommitPriv ra)
  | 0x3 => fixed (fld w 12 10) 0 <| fixed (fld w 26 6) 0 <| reg 32 (fld w 7 5) fun ra => .instr (.ocommitPub ra)
  | 0x4 => fixed (fld w 12 10) 0 <| fixed (fld w 26 6) 0 <| reg 32 (fld w 7 5) fun ra => .instr (.odiscard ra)
  | 0x5 => fixed (fld w 26 6) 0 <| reg 32 (fld w 7 5) fun rd => reg 32 (fld w 12 5) fun ra => reg 32 (fld w 17 5) fun rb => .instr (.oquery rd ra rb)
  | 0x6 => fixed (fld w 31 1) 0 <| code Order.ofCode? (fld w 26 2) fun o => code Scope.ofCode? (fld w 28 3) fun sc => reg 32 (fld w 7 5) fun rd => reg 32 (fld w 12 5) fun ra => reg 32 (fld w 17 5) fun rb => .instr (.frref o sc rd ra rb)
  | _ => .illegal .unassignedFunction

/-- The forms of major opcode 0x64, by function code (R44, R45). -/
def decodeTransfer (w : Nat) : Decoded :=
  match fld w 22 10 with
  | 0x0 => reg 32 (fld w 7 5) fun rd => reg 32 (fld w 12 5) fun ra => reg 32 (fld w 17 5) fun rb => .instr (.cpy rd ra rb)
  | 0x1 => reg 32 (fld w 7 5) fun rd => reg 32 (fld w 12 5) fun ra => reg 32 (fld w 17 5) fun rb => .instr (.cpyx rd ra rb)
  | 0x2 => reg 32 (fld w 7 5) fun rd => reg 32 (fld w 12 5) fun ra => reg 32 (fld w 17 5) fun rb => .instr (.cpyz rd ra rb)
  | 0x3 => reg 32 (fld w 7 5) fun rd => reg 32 (fld w 12 5) fun ra => reg 32 (fld w 17 5) fun rb => .instr (.cpyp rd ra rb)
  | 0x4 => reg 32 (fld w 7 5) fun rd => reg 32 (fld w 12 5) fun ra => reg 32 (fld w 17 5) fun rb => .instr (.cpyd rd ra rb)
  | 0x5 => reg 32 (fld w 7 5) fun rd => reg 32 (fld w 12 5) fun ra => reg 32 (fld w 17 5) fun rb => .instr (.kvcompact rd ra rb)
  | 0x6 => fixed (fld w 7 15) 0 <| .instr .lrfence
  | 0x7 => fixed (fld w 17 5) 0 <| reg 32 (fld w 7 5) fun rd => reg 32 (fld w 12 5) fun ra => .instr (.evwait rd ra)
  | 0x8 => fixed (fld w 17 5) 0 <| reg 32 (fld w 7 5) fun rd => reg 32 (fld w 12 5) fun ra => .instr (.evpoll rd ra)
  | _ => .illegal .unassignedFunction

/-- The forms of major opcode 0x66, by function code (R44, R45). -/
def decodeKernel (w : Nat) : Decoded :=
  match fld w 22 4 with
  | 0x0 => fixed (fld w 17 5) 0 <| fixed (fld w 26 6) 0 <| reg 32 (fld w 7 5) fun rd => reg 32 (fld w 12 5) fun ra => .instr (.klaunch rd ra)
  | 0x1 => fixed (fld w 7 15) 0 <| fixed (fld w 26 6) 0 <| .instr .ktrig
  | 0x2 => fixed (fld w 26 6) 0 <| reg 32 (fld w 7 5) fun rd => reg 32 (fld w 12 5) fun ra => reg 32 (fld w 17 5) fun rb => .instr (.claim rd ra rb)
  | 0x3 => fixed (fld w 7 15) 0 <| fixed (fld w 26 6) 0 <| .instr .vrelease
  | 0x4 => fixed (fld w 7 15) 0 <| fixed (fld w 26 6) 0 <| .instr .hend
  | 0x5 => fixed (fld w 17 5) 0 <| fixed (fld w 26 6) 0 <| reg 32 (fld w 7 5) fun rd => reg 32 (fld w 12 5) fun ra => .instr (.gsplit rd ra)
  | 0x6 => fixed (fld w 7 10) 0 <| fixed (fld w 26 2) 0 <| fixed (fld w 31 1) 0 <| code BScope.ofScope? (fld w 28 3) fun sc => reg 16 (fld w 17 5) fun n => .instr (.barr sc n)
  | 0x7 => fixed (fld w 7 10) 0 <| fixed (fld w 26 2) 0 <| fixed (fld w 31 1) 0 <| code BScope.ofScope? (fld w 28 3) fun sc => reg 16 (fld w 17 5) fun n => .instr (.bwait sc n)
  | 0x8 => fixed (fld w 7 10) 0 <| fixed (fld w 26 2) 0 <| fixed (fld w 31 1) 0 <| code BScope.ofScope? (fld w 28 3) fun sc => reg 16 (fld w 17 5) fun n => .instr (.bsync sc n)
  | _ => .illegal .unassignedFunction

/-- The forms of major opcode 0x68, by function code (R44, R45). -/
def decodeAttention (w : Nat) : Decoded :=
  match fld w 25 7 with
  | 0x0 => fixed (fld w 7 6) 0 <| reg 64 (fld w 13 6) fun va => reg 32 (fld w 19 6) fun rb => .instr (.sattn va rb)
  | 0x1 => fixed (fld w 19 6) 0 <| reg 4 (fld w 7 6) fun sp => reg 32 (fld w 13 6) fun ra => .instr (.spld sp ra)
  | _ => .illegal .unassignedFunction

/-- The forms of major opcode 0x6A, by function code (R44, R45). -/
def decodeTree (w : Nat) : Decoded :=
  match fld w 25 7 with
  | 0x0 => fixed (fld w 19 6) 0 <| reg 8 (fld w 7 6) fun dd => reg 32 (fld w 13 6) fun ra => .instr (.dtinit dd ra)
  | 0x1 => reg 8 (fld w 7 6) fun dd => reg 64 (fld w 13 6) fun va => reg 64 (fld w 19 6) fun vb => .instr (.dtadd dd va vb)
  | 0x2 => reg 64 (fld w 7 6) fun pd => reg 8 (fld w 13 6) fun da => reg 32 (fld w 19 6) fun rb => .instr (.dtmaskPred pd da rb)
  | 0x3 => reg 64 (fld w 7 6) fun vd => reg 8 (fld w 13 6) fun da => reg 32 (fld w 19 6) fun rb => .instr (.dtmaskVec vd da rb)
  | 0x4 => fixed (fld w 19 6) 0 <| reg 64 (fld w 7 6) fun vd => reg 8 (fld w 13 6) fun da => .instr (.dtpos vd da)
  | 0x5 => reg 32 (fld w 7 6) fun rd => reg 8 (fld w 13 6) fun da => reg 64 (fld w 19 6) fun va => .instr (.dtacc rd da va)
  | 0x6 => fixed (fld w 19 6) 0 <| reg 8 (fld w 7 6) fun dd => reg 32 (fld w 13 6) fun ra => .instr (.dtprune dd ra)
  | 0x7 => fixed (fld w 19 6) 0 <| reg 8 (fld w 7 6) fun dd => reg 32 (fld w 13 6) fun ra => .instr (.dtld dd ra)
  | 0x8 => fixed (fld w 19 6) 0 <| reg 8 (fld w 7 6) fun dd => reg 32 (fld w 13 6) fun ra => .instr (.dtst dd ra)
  | 0x9 => fixed (fld w 19 6) 0 <| reg 32 (fld w 7 6) fun rd => reg 8 (fld w 13 6) fun da => .instr (.dtinfo rd da)
  | _ => .illegal .unassignedFunction

/-- The forms of major opcode 0x70, by function code (R44, R45). -/
def decodeSystem (w : Nat) : Decoded :=
  match fld w 17 5 with
  | 0x0 => fixed (fld w 7 10) 0 <| if fld w 22 10 = 0x3FF then .instr .breakpoint else .instr (.ecall (BitVec.ofNat 10 (fld w 22 10)))
  | 0x1 => fixed (fld w 7 10) 0 <| fixed (fld w 22 10) 0 <| .instr .eret
  | 0x2 => fixed (fld w 7 10) 0 <| fixed (fld w 22 10) 0 <| .instr .trapack
  | 0x3 => fixed (fld w 7 10) 0 <| fixed (fld w 22 10) 0 <| .instr .yield
  | 0x4 => fixed (fld w 7 10) 0 <| fixed (fld w 27 5) 0 <| code Scope.ofCode? (fld w 22 3) fun sc => code FenceKind.ofCode? (fld w 25 2) fun k => .instr (.fence sc k)
  | 0x8 => fixed (fld w 12 5) 0 <| reg 32 (fld w 7 5) fun rd => code Csr.ofCode? (fld w 22 10) fun csr => .instr (.csrr rd csr)
  | 0x9 => fixed (fld w 7 5) 0 <| code Csr.ofCode? (fld w 22 10) fun csr => reg 32 (fld w 12 5) fun ra => .instr (.csrw csr ra)
  | 0xA => reg 32 (fld w 7 5) fun rd => code Csr.ofCode? (fld w 22 10) fun csr => reg 32 (fld w 12 5) fun ra => .instr (.csrs rd csr ra)
  | 0xB => reg 32 (fld w 7 5) fun rd => code Csr.ofCode? (fld w 22 10) fun csr => reg 32 (fld w 12 5) fun ra => .instr (.csrc rd csr ra)
  | 0x10 => fixed (fld w 7 5) 0 <| fixed (fld w 22 10) 0 <| reg 32 (fld w 12 5) fun ra => .instr (.ctxsave ra)
  | 0x11 => fixed (fld w 7 5) 0 <| fixed (fld w 22 10) 0 <| reg 32 (fld w 12 5) fun ra => .instr (.ctxload ra)
  | 0x12 => fixed (fld w 22 10) 0 <| reg 32 (fld w 7 5) fun rd => reg 32 (fld w 12 5) fun ra => .instr (.keyset rd ra)
  | 0x13 => fixed (fld w 22 10) 0 <| reg 32 (fld w 7 5) fun rd => reg 32 (fld w 12 5) fun ra => .instr (.asidset rd ra)
  | 0x14 => fixed (fld w 7 5) 0 <| fixed (fld w 22 10) 0 <| reg 32 (fld w 12 5) fun ra => .instr (.ckfreeze ra)
  | 0x15 => fixed (fld w 22 10) 0 <| reg 32 (fld w 7 5) fun rd => reg 32 (fld w 12 5) fun ra => .instr (.ckwait rd ra)
  | 0x16 => fixed (fld w 7 5) 0 <| fixed (fld w 22 10) 0 <| reg 32 (fld w 12 5) fun ra => .instr (.ckrestore ra)
  | _ => .illegal .unassignedFunction

/-- One word, before the limits on its operands are checked: the null word (R34), one form, or an illegal word with the
reason (R35). -/
def decodeRaw (w : Nat) : Decoded :=
  if w = 0 then .null else
  match fld w 0 7 with
  | 0x10 => decodeAndi w
  | 0x11 => decodeOri w
  | 0x12 => decodeXori w
  | 0x13 => decodeSlti w
  | 0x14 => decodeAddi w
  | 0x15 => decodeSlli w
  | 0x16 => decodeSrli w
  | 0x17 => decodeSrai w
  | 0x18 => decodeExt w
  | 0x19 => decodeIns w
  | 0x1A => decodeJalr w
  | 0x1B => decodeLhi w
  | 0x1C => decodeJal w
  | 0x1D => decodeCtok w
  | 0x1E => decodeAstart w
  | 0x20 => decodeBeq w
  | 0x21 => decodeBne w
  | 0x22 => decodeBlt w
  | 0x23 => decodeBge w
  | 0x24 => decodeBltn w
  | 0x25 => decodeBgen w
  | 0x26 => decodeSmb w
  | 0x30 => decodeScalarAlu w
  | 0x38 => decodeQueue w
  | 0x40 => decodeVector w
  | 0x41 => decodeVectorImm w
  | 0x42 => decodePredScale w
  | 0x44 => decodeSetvl w
  | 0x45 => decodeMode w
  | 0x50 => decodeScalarLoad w
  | 0x51 => decodeScalarStore w
  | 0x54 => decodeVectorLoad w
  | 0x55 => decodeVectorStore w
  | 0x56 => decodeVldseg w
  | 0x57 => decodeVstseg w
  | 0x58 => decodeAtomic w
  | 0x5A => decodeAccessMem w
  | 0x5C => decodeCutter w
  | 0x60 => decodeMatrix w
  | 0x62 => decodePage w
  | 0x64 => decodeTransfer w
  | 0x66 => decodeKernel w
  | 0x68 => decodeAttention w
  | 0x6A => decodeTree w
  | 0x70 => decodeSystem w
  | _ => .illegal .unassignedOpcode

/-- Decoding of a word: a form whose operands break a limit of R40, R99, R45, R152, R153 or R119 is illegal. -/
def decodeWord (w : Nat) : Decoded :=
  match decodeRaw w with
  | .instr i => if i.wf then .instr i else .illegal .operandLimit
  | d => d

/-- Four bytes at rising addresses as a word, the first the least significant (R2, R25). -/
def wordOfBytes (b0 b1 b2 b3 : Byte) : Nat := b0.toNat + 2 ^ 8 * b1.toNat + 2 ^ 16 * b2.toNat + 2 ^ 24 * b3.toNat

/-- The four bytes of a word, the least significant first (R2, R25). -/
def bytesOfWord (w : Nat) : List Byte :=
  [BitVec.ofNat 8 w, BitVec.ofNat 8 (w / 2 ^ 8), BitVec.ofNat 8 (w / 2 ^ 16), BitVec.ofNat 8 (w / 2 ^ 24)]

/-- Decoding of the bytes at a code address: the instruction and the bytes after it (R25). -/
def decodeBytes : List Byte → Option (Decoded × List Byte)
  | b0 :: b1 :: b2 :: b3 :: rest => some (decodeWord (wordOfBytes b0 b1 b2 b3), rest)
  | _ => none

/-- The instruction the decoder reads from an opcode-table word of `nbits` bits: every word of this machine is 32 bits. -/
def decodeTableWord (nbits w : Nat) : Option Instr :=
  match decodeBytes (bytesOfWord (w % 2 ^ min nbits 32)) with
  | some (.instr i, _) => some i
  | _ => none

/-- A one-bit field's value. -/
def bit (b : Bool) : Nat := if b then 1 else 0

/-- A word with the given fixed bits and the given fields, each a value and the place of its lowest bit. -/
def pack (base : Nat) : List (Nat × Nat) → Nat
  | [] => base
  | (x, lo) :: rest => x * 2 ^ lo + pack base rest

/-- The guard fields of `mode`: ge above g (R33). -/
def guardCode : Option PRegNo → Nat
  | none => 0
  | some p => 64 + p.val

/-- The word of an instruction, from the same field tables (R28, R44, R45); none for an event row, which has no word. -/
def encode : Instr → Option Nat
  | .andi rd rs imm => some (pack 0x00000010 [(rd.val, 7), (rs.val, 12), (imm.toNat, 17)])
  | .ori rd rs imm => some (pack 0x00000011 [(rd.val, 7), (rs.val, 12), (imm.toNat, 17)])
  | .xori rd rs imm => some (pack 0x00000012 [(rd.val, 7), (rs.val, 12), (imm.toNat, 17)])
  | .slti rd rs imm => some (pack 0x00000013 [(rd.val, 7), (rs.val, 12), (imm.toNat, 17)])
  | .addi rd rs imm => some (pack 0x00000014 [(rd.val, 7), (rs.val, 12), (imm.toNat, 17)])
  | .slli rd rs n => some (pack 0x00000015 [(rd.val, 7), (rs.val, 12), (n.val, 17)])
  | .srli rd rs n => some (pack 0x00000016 [(rd.val, 7), (rs.val, 12), (n.val, 17)])
  | .srai rd rs n => some (pack 0x00000017 [(rd.val, 7), (rs.val, 12), (n.val, 17)])
  | .ext rd rs pos wm1 => some (pack 0x00000018 [(rd.val, 7), (rs.val, 12), (pos.val, 17), (wm1.val, 23)])
  | .ins rd rs pos wm1 => some (pack 0x00000019 [(rd.val, 7), (rs.val, 12), (pos.val, 17), (wm1.val, 23)])
  | .jalr rd rs imm => some (pack 0x0000001A [(rd.val, 7), (rs.val, 12), (imm.toNat, 17)])
  | .lhi rd imm => some (pack 0x0000001B [(rd.val, 7), (imm.toNat, 12)])
  | .jal rd off => some (pack 0x0000001C [(rd.val, 7), (off.toNat, 12)])
  | .ctok rs off => some (pack 0x0000001D [(rs.val, 7), (off.toNat, 12)])
  | .astart off => some (pack 0x0000001E [(off.toNat, 12)])
  | .beq ra rb off => some (pack 0x00000020 [(ra.val, 7), (rb.val, 12), (off.toNat, 17)])
  | .bne ra rb off => some (pack 0x00000021 [(ra.val, 7), (rb.val, 12), (off.toNat, 17)])
  | .blt ra rb off => some (pack 0x00000022 [(ra.val, 7), (rb.val, 12), (off.toNat, 17)])
  | .bge ra rb off => some (pack 0x00000023 [(ra.val, 7), (rb.val, 12), (off.toNat, 17)])
  | .bltn ra rb off => some (pack 0x00000024 [(ra.val, 7), (rb.val, 12), (off.toNat, 17)])
  | .bgen ra rb off => some (pack 0x00000025 [(ra.val, 7), (rb.val, 12), (off.toNat, 17)])
  | .smb ra rb off => some (pack 0x00000026 [(ra.val, 7), (rb.val, 12), (off.toNat, 17)])
  | .add rd ra rb => some (pack 0x00000030 [(rd.val, 7), (ra.val, 12), (rb.val, 17)])
  | .sub rd ra rb => some (pack 0x00400030 [(rd.val, 7), (ra.val, 12), (rb.val, 17)])
  | .mul rd ra rb => some (pack 0x00800030 [(rd.val, 7), (ra.val, 12), (rb.val, 17)])
  | .mulh rd ra rb => some (pack 0x00C00030 [(rd.val, 7), (ra.val, 12), (rb.val, 17)])
  | .div rd ra rb => some (pack 0x01000030 [(rd.val, 7), (ra.val, 12), (rb.val, 17)])
  | .divn rd ra rb => some (pack 0x01400030 [(rd.val, 7), (ra.val, 12), (rb.val, 17)])
  | .rem rd ra rb => some (pack 0x01800030 [(rd.val, 7), (ra.val, 12), (rb.val, 17)])
  | .remn rd ra rb => some (pack 0x01C00030 [(rd.val, 7), (ra.val, 12), (rb.val, 17)])
  | .and rd ra rb => some (pack 0x02000030 [(rd.val, 7), (ra.val, 12), (rb.val, 17)])
  | .or rd ra rb => some (pack 0x02400030 [(rd.val, 7), (ra.val, 12), (rb.val, 17)])
  | .xor rd ra rb => some (pack 0x02800030 [(rd.val, 7), (ra.val, 12), (rb.val, 17)])
  | .sll rd ra rb => some (pack 0x02C00030 [(rd.val, 7), (ra.val, 12), (rb.val, 17)])
  | .srl rd ra rb => some (pack 0x03000030 [(rd.val, 7), (ra.val, 12), (rb.val, 17)])
  | .sra rd ra rb => some (pack 0x03400030 [(rd.val, 7), (ra.val, 12), (rb.val, 17)])
  | .slt rd ra rb => some (pack 0x03800030 [(rd.val, 7), (ra.val, 12), (rb.val, 17)])
  | .sltn rd ra rb => some (pack 0x03C00030 [(rd.val, 7), (ra.val, 12), (rb.val, 17)])
  | .min rd ra rb => some (pack 0x04000030 [(rd.val, 7), (ra.val, 12), (rb.val, 17)])
  | .max rd ra rb => some (pack 0x04400030 [(rd.val, 7), (ra.val, 12), (rb.val, 17)])
  | .minN rd ra rb => some (pack 0x04800030 [(rd.val, 7), (ra.val, 12), (rb.val, 17)])
  | .maxN rd ra rb => some (pack 0x04C00030 [(rd.val, 7), (ra.val, 12), (rb.val, 17)])
  | .clz rd ra => some (pack 0x05000030 [(rd.val, 7), (ra.val, 12)])
  | .popc rd ra => some (pack 0x05400030 [(rd.val, 7), (ra.val, 12)])
  | .sel rd ra rb => some (pack 0x05800030 [(rd.val, 7), (ra.val, 12), (rb.val, 17)])
  | .lea rd ra rb n => some (pack 0x06000030 [(rd.val, 7), (ra.val, 12), (rb.val, 17), (n.val, 22)])
  | .qpush q r => some (pack 0x00000038 [(q.val, 13), (r.val, 7)])
  | .qpop r q => some (pack 0x00010038 [(r.val, 7), (q.val, 13)])
  | .qpeek r q => some (pack 0x00020038 [(r.val, 7), (q.val, 13)])
  | .qlen rd q => some (pack 0x00030038 [(rd.val, 7), (q.val, 13)])
  | .ctake rd => some (pack 0x0004C038 [(rd.val, 7)])
  | .vadd vd va vb => some (pack 0x00000040 [(vd.val, 7), (va.val, 13), (vb.val, 19)])
  | .vsub vd va vb => some (pack 0x02000040 [(vd.val, 7), (va.val, 13), (vb.val, 19)])
  | .vmul vd va vb => some (pack 0x04000040 [(vd.val, 7), (va.val, 13), (vb.val, 19)])
  | .vmadd vd va vb => some (pack 0x06000040 [(vd.val, 7), (va.val, 13), (vb.val, 19)])
  | .vnmadd vd va vb => some (pack 0x08000040 [(vd.val, 7), (va.val, 13), (vb.val, 19)])
  | .vdiv vd va vb => some (pack 0x0A000040 [(vd.val, 7), (va.val, 13), (vb.val, 19)])
  | .vsqrt vd va => some (pack 0x0C000040 [(vd.val, 7), (va.val, 13)])
  | .vrsqrt vd va => some (pack 0x0E000040 [(vd.val, 7), (va.val, 13)])
  | .vexp2 vd va => some (pack 0x10000040 [(vd.val, 7), (va.val, 13)])
  | .vlog2 vd va => some (pack 0x12000040 [(vd.val, 7), (va.val, 13)])
  | .vmax vd va vb => some (pack 0x14000040 [(vd.val, 7), (va.val, 13), (vb.val, 19)])
  | .vmin vd va vb => some (pack 0x16000040 [(vd.val, 7), (va.val, 13), (vb.val, 19)])
  | .vabs vd va => some (pack 0x18000040 [(vd.val, 7), (va.val, 13)])
  | .vneg vd va => some (pack 0x1A000040 [(vd.val, 7), (va.val, 13)])
  | .vand vd va vb => some (pack 0x20000040 [(vd.val, 7), (va.val, 13), (vb.val, 19)])
  | .vor vd va vb => some (pack 0x22000040 [(vd.val, 7), (va.val, 13), (vb.val, 19)])
  | .vxor vd va vb => some (pack 0x24000040 [(vd.val, 7), (va.val, 13), (vb.val, 19)])
  | .vnot vd va => some (pack 0x26000040 [(vd.val, 7), (va.val, 13)])
  | .vshl vd va vb => some (pack 0x28000040 [(vd.val, 7), (va.val, 13), (vb.val, 19)])
  | .vshr vd va vb => some (pack 0x2A000040 [(vd.val, 7), (va.val, 13), (vb.val, 19)])
  | .vsra vd va vb => some (pack 0x2C000040 [(vd.val, 7), (va.val, 13), (vb.val, 19)])
  | .vcmp cc pd va vb => some (pack 0x30000040 [(cc.code, 25), (pd.val, 7), (va.val, 13), (vb.val, 19)])
  | .vsel vd va vb => some (pack 0x3E000040 [(vd.val, 7), (va.val, 13), (vb.val, 19)])
  | .vmv vd va => some (pack 0x40000040 [(vd.val, 7), (va.val, 13)])
  | .vsplat vd ra => some (pack 0x42000040 [(vd.val, 7), (ra.val, 13)])
  | .vid vd => some (pack 0x44000040 [(vd.val, 7)])
  | .vext rd va rb => some (pack 0x46000040 [(rd.val, 7), (va.val, 13), (rb.val, 19)])
  | .vins vd ra rb => some (pack 0x48000040 [(vd.val, 7), (ra.val, 13), (rb.val, 19)])
  | .vcvt vd va fmt => some (pack 0x4A000040 [(vd.val, 7), (va.val, 13), (fmt.code, 19)])
  | .vredsum vd va => some (pack 0x50000040 [(vd.val, 7), (va.val, 13)])
  | .vredmax vd va => some (pack 0x52000040 [(vd.val, 7), (va.val, 13)])
  | .vredmin vd va => some (pack 0x54000040 [(vd.val, 7), (va.val, 13)])
  | .vargmax rd va => some (pack 0x56000040 [(rd.val, 7), (va.val, 13)])
  | .vslideup vd va rb => some (pack 0x60000040 [(vd.val, 7), (va.val, 13), (rb.val, 19)])
  | .vslidedn vd va rb => some (pack 0x62000040 [(vd.val, 7), (va.val, 13), (rb.val, 19)])
  | .vperm vd va vb => some (pack 0x64000040 [(vd.val, 7), (va.val, 13), (vb.val, 19)])
  | .vcompress vd va pb => some (pack 0x66000040 [(vd.val, 7), (va.val, 13), (pb.val, 19)])
  | .vexpand vd va pb => some (pack 0x68000040 [(vd.val, 7), (va.val, 13), (pb.val, 19)])
  | .vconf pd va => some (pack 0x6A000040 [(pd.val, 7), (va.val, 13)])
  | .smerge vd va vb => some (pack 0x70000040 [(vd.val, 7), (va.val, 13), (vb.val, 19)])
  | .sapply vd va sp => some (pack 0x72000040 [(vd.val, 7), (va.val, 13), (sp.val, 19)])
  | .vaddImm vd va imm => some (pack 0x00000041 [(vd.val, 7), (va.val, 13), (imm.toNat, 19)])
  | .vsubImm vd va imm => some (pack 0x08000041 [(vd.val, 7), (va.val, 13), (imm.toNat, 19)])
  | .vmulImm vd va imm => some (pack 0x10000041 [(vd.val, 7), (va.val, 13), (imm.toNat, 19)])
  | .vmaxImm vd va imm => some (pack 0x18000041 [(vd.val, 7), (va.val, 13), (imm.toNat, 19)])
  | .vminImm vd va imm => some (pack 0x20000041 [(vd.val, 7), (va.val, 13), (imm.toNat, 19)])
  | .vandImm vd va imm => some (pack 0x28000041 [(vd.val, 7), (va.val, 13), (imm.toNat, 19)])
  | .vorImm vd va imm => some (pack 0x30000041 [(vd.val, 7), (va.val, 13), (imm.toNat, 19)])
  | .vxorImm vd va imm => some (pack 0x38000041 [(vd.val, 7), (va.val, 13), (imm.toNat, 19)])
  | .vshlImm vd va n => some (pack 0x40000041 [(vd.val, 7), (va.val, 13), (n.toNat, 19)])
  | .vshrImm vd va n => some (pack 0x48000041 [(vd.val, 7), (va.val, 13), (n.toNat, 19)])
  | .vsraImm vd va n => some (pack 0x50000041 [(vd.val, 7), (va.val, 13), (n.toNat, 19)])
  | .vslideupImm vd va n => some (pack 0x58000041 [(vd.val, 7), (va.val, 13), (n.toNat, 19)])
  | .vslidednImm vd va n => some (pack 0x60000041 [(vd.val, 7), (va.val, 13), (n.toNat, 19)])
  | .vsplatImm vd imm => some (pack 0x68000041 [(vd.val, 7), (imm.toNat, 19)])
  | .vtag vd fmt => some (pack 0x70000041 [(vd.val, 7), (fmt.code, 19)])
  | .vcmpImm cc pd va imm => some (pack 0x80000041 [(cc.code, 27), (pd.val, 7), (va.val, 13), (imm.toNat, 19)])
  | .pand pd pa pb => some (pack 0x00000042 [(pd.val, 7), (pa.val, 13), (pb.val, 19)])
  | .por pd pa pb => some (pack 0x02000042 [(pd.val, 7), (pa.val, 13), (pb.val, 19)])
  | .pxor pd pa pb => some (pack 0x04000042 [(pd.val, 7), (pa.val, 13), (pb.val, 19)])
  | .pnot pd pa => some (pack 0x06000042 [(pd.val, 7), (pa.val, 13)])
  | .psbf pd pa => some (pack 0x08000042 [(pd.val, 7), (pa.val, 13)])
  | .psif pd pa => some (pack 0x0A000042 [(pd.val, 7), (pa.val, 13)])
  | .pfirst rd pa => some (pack 0x0C000042 [(rd.val, 7), (pa.val, 13)])
  | .pcnt rd pa => some (pack 0x0E000042 [(rd.val, 7), (pa.val, 13)])
  | .pset pd ra => some (pack 0x10000042 [(pd.val, 7), (ra.val, 13)])
  | .kmvToScale kd va => some (pack 0x20000042 [(kd.val, 7), (va.val, 13)])
  | .kmvToVector vd ka => some (pack 0x22000042 [(vd.val, 7), (ka.val, 13)])
  | .setvl rd ra fmt dc ftz bl lg => some (pack 0x00000044 [(rd.val, 7), (ra.val, 12), (fmt.code, 17), (dc.code, 21), (bit ftz, 23), (bit bl, 24), (lg.val, 25)])
  | .mode g rm sat => some (pack 0x00000045 [(guardCode g, 17), (rm.code, 24), (bit sat, 27)])
  | .lbMd rd ra disp fr => some (pack 0x00000050 [(rd.val, 7), (ra.val, 13), (disp.toNat, 23), (bit fr, 22)])
  | .lbMx rd ra rb fr => some (pack 0x00040050 [(rd.val, 7), (ra.val, 13), (rb.val, 23), (bit fr, 22)])
  | .lbnMd rd ra disp fr => some (pack 0x00080050 [(rd.val, 7), (ra.val, 13), (disp.toNat, 23), (bit fr, 22)])
  | .lbnMx rd ra rb fr => some (pack 0x000C0050 [(rd.val, 7), (ra.val, 13), (rb.val, 23), (bit fr, 22)])
  | .lhMd rd ra disp fr => some (pack 0x00100050 [(rd.val, 7), (ra.val, 13), (disp.toNat, 23), (bit fr, 22)])
  | .lhMx rd ra rb fr => some (pack 0x00140050 [(rd.val, 7), (ra.val, 13), (rb.val, 23), (bit fr, 22)])
  | .lhnMd rd ra disp fr => some (pack 0x00180050 [(rd.val, 7), (ra.val, 13), (disp.toNat, 23), (bit fr, 22)])
  | .lhnMx rd ra rb fr => some (pack 0x001C0050 [(rd.val, 7), (ra.val, 13), (rb.val, 23), (bit fr, 22)])
  | .lwMd rd ra disp fr => some (pack 0x00200050 [(rd.val, 7), (ra.val, 13), (disp.toNat, 23), (bit fr, 22)])
  | .lwMx rd ra rb fr => some (pack 0x00240050 [(rd.val, 7), (ra.val, 13), (rb.val, 23), (bit fr, 22)])
  | .lwnMd rd ra disp fr => some (pack 0x00280050 [(rd.val, 7), (ra.val, 13), (disp.toNat, 23), (bit fr, 22)])
  | .lwnMx rd ra rb fr => some (pack 0x002C0050 [(rd.val, 7), (ra.val, 13), (rb.val, 23), (bit fr, 22)])
  | .ldMd rd ra disp fr => some (pack 0x00300050 [(rd.val, 7), (ra.val, 13), (disp.toNat, 23), (bit fr, 22)])
  | .ldMx rd ra rb fr => some (pack 0x00340050 [(rd.val, 7), (ra.val, 13), (rb.val, 23), (bit fr, 22)])
  | .prefL1Md ra disp => some (pack 0x00380050 [(ra.val, 13), (disp.toNat, 23)])
  | .prefL1Mx ra rb => some (pack 0x003C0050 [(ra.val, 13), (rb.val, 23)])
  | .prefLlcMd ra disp => some (pack 0x003800D0 [(ra.val, 13), (disp.toNat, 23)])
  | .prefLlcMx ra rb => some (pack 0x003C00D0 [(ra.val, 13), (rb.val, 23)])
  | .sbMd rs ra disp => some (pack 0x00000051 [(rs.val, 7), (ra.val, 13), (disp.toNat, 23)])
  | .sbMx rs ra rb => some (pack 0x00040051 [(rs.val, 7), (ra.val, 13), (rb.val, 23)])
  | .shMd rs ra disp => some (pack 0x00100051 [(rs.val, 7), (ra.val, 13), (disp.toNat, 23)])
  | .shMx rs ra rb => some (pack 0x00140051 [(rs.val, 7), (ra.val, 13), (rb.val, 23)])
  | .swMd rs ra disp => some (pack 0x00200051 [(rs.val, 7), (ra.val, 13), (disp.toNat, 23)])
  | .swMx rs ra rb => some (pack 0x00240051 [(rs.val, 7), (ra.val, 13), (rb.val, 23)])
  | .sdMd rs ra disp => some (pack 0x00300051 [(rs.val, 7), (ra.val, 13), (disp.toNat, 23)])
  | .sdMx rs ra rb => some (pack 0x00340051 [(rs.val, 7), (ra.val, 13), (rb.val, 23)])
  | .vldMd vd ra disp fr => some (pack 0x00000054 [(vd.val, 7), (ra.val, 13), (disp.toNat, 23), (bit fr, 22)])
  | .vldMx vd ra rb fr => some (pack 0x00040054 [(vd.val, 7), (ra.val, 13), (rb.val, 23), (bit fr, 22)])
  | .vlds vd ra rb fr => some (pack 0x000C0054 [(vd.val, 7), (ra.val, 13), (rb.val, 23), (bit fr, 22)])
  | .vldffMd vd ra disp fr => some (pack 0x00100054 [(vd.val, 7), (ra.val, 13), (disp.toNat, 23), (bit fr, 22)])
  | .vldffMx vd ra rb fr => some (pack 0x00140054 [(vd.val, 7), (ra.val, 13), (rb.val, 23), (bit fr, 22)])
  | .ksld kd ra rb fr => some (pack 0x001C0054 [(kd.val, 7), (ra.val, 13), (rb.val, 23), (bit fr, 22)])
  | .vstMd vs ra disp => some (pack 0x00000055 [(vs.val, 7), (ra.val, 13), (disp.toNat, 23)])
  | .vstMx vs ra rb => some (pack 0x00040055 [(vs.val, 7), (ra.val, 13), (rb.val, 23)])
  | .vsts vs ra rb => some (pack 0x000C0055 [(vs.val, 7), (ra.val, 13), (rb.val, 23)])
  | .vldsegMd n vd ra disp => some (pack 0x00000056 [(n.val, 19), (vd.val, 7), (ra.val, 13), (disp.toNat, 23)])
  | .vldsegMx n vd ra rb => some (pack 0x00040056 [(n.val, 19), (vd.val, 7), (ra.val, 13), (rb.val, 23)])
  | .vstsegMd n vs ra disp => some (pack 0x00000057 [(n.val, 19), (vs.val, 7), (ra.val, 13), (disp.toNat, 23)])
  | .vstsegMx n vs ra rb => some (pack 0x00040057 [(n.val, 19), (vs.val, 7), (ra.val, 13), (rb.val, 23)])
  | .amoadd sc o dw rd rb ra => some (pack 0x00000058 [(sc.code, 30), (o.code, 28), (bit dw, 27), (rd.val, 7), (rb.val, 18), (ra.val, 13)])
  | .amoswap sc o dw rd rb ra => some (pack 0x00800058 [(sc.code, 30), (o.code, 28), (bit dw, 27), (rd.val, 7), (rb.val, 18), (ra.val, 13)])
  | .amomax sc o dw rd rb ra => some (pack 0x01000058 [(sc.code, 30), (o.code, 28), (bit dw, 27), (rd.val, 7), (rb.val, 18), (ra.val, 13)])
  | .amomin sc o dw rd rb ra => some (pack 0x01800058 [(sc.code, 30), (o.code, 28), (bit dw, 27), (rd.val, 7), (rb.val, 18), (ra.val, 13)])
  | .amomaxN sc o dw rd rb ra => some (pack 0x02000058 [(sc.code, 30), (o.code, 28), (bit dw, 27), (rd.val, 7), (rb.val, 18), (ra.val, 13)])
  | .amominN sc o dw rd rb ra => some (pack 0x02800058 [(sc.code, 30), (o.code, 28), (bit dw, 27), (rd.val, 7), (rb.val, 18), (ra.val, 13)])
  | .amoand sc o dw rd rb ra => some (pack 0x03000058 [(sc.code, 30), (o.code, 28), (bit dw, 27), (rd.val, 7), (rb.val, 18), (ra.val, 13)])
  | .amoor sc o dw rd rb ra => some (pack 0x03800058 [(sc.code, 30), (o.code, 28), (bit dw, 27), (rd.val, 7), (rb.val, 18), (ra.val, 13)])
  | .cas sc o dw rd rb ra => some (pack 0x04000058 [(sc.code, 30), (o.code, 28), (bit dw, 27), (rd.val, 7), (rb.val, 18), (ra.val, 13)])
  | .vgat q ew fr ra rb rc => some (pack 0x0000005A [(q.val, 7), (ew.code, 29), (bit fr, 28), (ra.val, 13), (rb.val, 18), (rc.val, 23)])
  | .vgatff q ew fr ra rb rc => some (pack 0x0000045A [(q.val, 7), (ew.code, 29), (bit fr, 28), (ra.val, 13), (rb.val, 18), (rc.val, 23)])
  | .vsca q ew ra rb rc => some (pack 0x0000085A [(q.val, 7), (ew.code, 29), (ra.val, 13), (rb.val, 18), (rc.val, 23)])
  | .vscaa q ew ra rb rc => some (pack 0x00000C5A [(q.val, 7), (ew.code, 29), (ra.val, 13), (rb.val, 18), (rc.val, 23)])
  | .kvx q ra rb rc => some (pack 0x6000105A [(q.val, 7), (ra.val, 13), (rb.val, 18), (rc.val, 23)])
  | .cut bd ra rb => some (pack 0x0000005C [(bd.val, 7), (ra.val, 12), (rb.val, 17)])
  | .cutp bd ra rb => some (pack 0x0040005C [(bd.val, 7), (ra.val, 12), (rb.val, 17)])
  | .cutd bd ra rb => some (pack 0x0080005C [(bd.val, 7), (ra.val, 12), (rb.val, 17)])
  | .mshapeCore rd ra rb => some (pack 0x00000060 [(rd.val, 7), (ra.val, 13), (rb.val, 19)])
  | .mshapeDie rd ra rb => some (pack 0x02000060 [(rd.val, 7), (ra.val, 13), (rb.val, 19)])
  | .mlds rd ra => some (pack 0x04000060 [(rd.val, 7), (ra.val, 13)])
  | .mswap => some (pack 0x06000060 [])
  | .mstreamLocal cd ra rb => some (pack 0x08000060 [(cd.val, 7), (ra.val, 13), (rb.val, 19)])
  | .mstreamVector cd va rb => some (pack 0x0A000060 [(cd.val, 7), (va.val, 13), (rb.val, 19)])
  | .mzero cd => some (pack 0x0C000060 [(cd.val, 7)])
  | .mrd vd ca rb => some (pack 0x0E000060 [(vd.val, 7), (ca.val, 13), (rb.val, 19)])
  | .mwr cd va rb => some (pack 0x10000060 [(cd.val, 7), (va.val, 13), (rb.val, 19)])
  | .opin ra => some (pack 0x00000062 [(ra.val, 7)])
  | .ounpin ra => some (pack 0x00400062 [(ra.val, 7)])
  | .ocommitPriv ra => some (pack 0x00800062 [(ra.val, 7)])
  | .ocommitPub ra => some (pack 0x00C00062 [(ra.val, 7)])
  | .odiscard ra => some (pack 0x01000062 [(ra.val, 7)])
  | .oquery rd ra rb => some (pack 0x01400062 [(rd.val, 7), (ra.val, 12), (rb.val, 17)])
  | .frref o sc rd ra rb => some (pack 0x01800062 [(o.code, 26), (sc.code, 28), (rd.val, 7), (ra.val, 12), (rb.val, 17)])
  | .cpy rd ra rb => some (pack 0x00000064 [(rd.val, 7), (ra.val, 12), (rb.val, 17)])
  | .cpyx rd ra rb => some (pack 0x00400064 [(rd.val, 7), (ra.val, 12), (rb.val, 17)])
  | .cpyz rd ra rb => some (pack 0x00800064 [(rd.val, 7), (ra.val, 12), (rb.val, 17)])
  | .cpyp rd ra rb => some (pack 0x00C00064 [(rd.val, 7), (ra.val, 12), (rb.val, 17)])
  | .cpyd rd ra rb => some (pack 0x01000064 [(rd.val, 7), (ra.val, 12), (rb.val, 17)])
  | .kvcompact rd ra rb => some (pack 0x01400064 [(rd.val, 7), (ra.val, 12), (rb.val, 17)])
  | .lrfence => some (pack 0x01800064 [])
  | .evwait rd ra => some (pack 0x01C00064 [(rd.val, 7), (ra.val, 12)])
  | .evpoll rd ra => some (pack 0x02000064 [(rd.val, 7), (ra.val, 12)])
  | .klaunch rd ra => some (pack 0x00000066 [(rd.val, 7), (ra.val, 12)])
  | .ktrig => some (pack 0x00400066 [])
  | .claim rd ra rb => some (pack 0x00800066 [(rd.val, 7), (ra.val, 12), (rb.val, 17)])
  | .vrelease => some (pack 0x00C00066 [])
  | .hend => some (pack 0x01000066 [])
  | .gsplit rd ra => some (pack 0x01400066 [(rd.val, 7), (ra.val, 12)])
  | .barr sc n => some (pack 0x01800066 [(sc.scopeCode, 28), (n.val, 17)])
  | .bwait sc n => some (pack 0x01C00066 [(sc.scopeCode, 28), (n.val, 17)])
  | .bsync sc n => some (pack 0x02000066 [(sc.scopeCode, 28), (n.val, 17)])
  | .sattn va rb => some (pack 0x00000068 [(va.val, 13), (rb.val, 19)])
  | .spld sp ra => some (pack 0x02000068 [(sp.val, 7), (ra.val, 13)])
  | .dtinit dd ra => some (pack 0x0000006A [(dd.val, 7), (ra.val, 13)])
  | .dtadd dd va vb => some (pack 0x0200006A [(dd.val, 7), (va.val, 13), (vb.val, 19)])
  | .dtmaskPred pd da rb => some (pack 0x0400006A [(pd.val, 7), (da.val, 13), (rb.val, 19)])
  | .dtmaskVec vd da rb => some (pack 0x0600006A [(vd.val, 7), (da.val, 13), (rb.val, 19)])
  | .dtpos vd da => some (pack 0x0800006A [(vd.val, 7), (da.val, 13)])
  | .dtacc rd da va => some (pack 0x0A00006A [(rd.val, 7), (da.val, 13), (va.val, 19)])
  | .dtprune dd ra => some (pack 0x0C00006A [(dd.val, 7), (ra.val, 13)])
  | .dtld dd ra => some (pack 0x0E00006A [(dd.val, 7), (ra.val, 13)])
  | .dtst dd ra => some (pack 0x1000006A [(dd.val, 7), (ra.val, 13)])
  | .dtinfo rd da => some (pack 0x1200006A [(rd.val, 7), (da.val, 13)])
  | .ecall n => some (pack 0x00000070 [(n.toNat, 22)])
  | .breakpoint => some (pack 0xFFC00070 [])
  | .eret => some (pack 0x00020070 [])
  | .trapack => some (pack 0x00040070 [])
  | .yield => some (pack 0x00060070 [])
  | .fence sc k => some (pack 0x00080070 [(sc.code, 22), (k.code, 25)])
  | .csrr rd csr => some (pack 0x00100070 [(rd.val, 7), (csr.code, 22)])
  | .csrw csr ra => some (pack 0x00120070 [(csr.code, 22), (ra.val, 12)])
  | .csrs rd csr ra => some (pack 0x00140070 [(rd.val, 7), (csr.code, 22), (ra.val, 12)])
  | .csrc rd csr ra => some (pack 0x00160070 [(rd.val, 7), (csr.code, 22), (ra.val, 12)])
  | .ctxsave ra => some (pack 0x00200070 [(ra.val, 12)])
  | .ctxload ra => some (pack 0x00220070 [(ra.val, 12)])
  | .keyset rd ra => some (pack 0x00240070 [(rd.val, 7), (ra.val, 12)])
  | .asidset rd ra => some (pack 0x00260070 [(rd.val, 7), (ra.val, 12)])
  | .ckfreeze ra => some (pack 0x00280070 [(ra.val, 12)])
  | .ckwait rd ra => some (pack 0x002A0070 [(rd.val, 7), (ra.val, 12)])
  | .ckrestore ra => some (pack 0x002C0070 [(ra.val, 12)])
  | .gatherFill => none
  | .scatterStatusFill => none
  | .kvxFill => none
  | .matrixQueueExecute => none
  | .copyChunkDone => none
  | .copyCompletion => none
  | .moveInstall => none
  | .oldFrameRelease => none
  | .kvcompactEvent => none
  | .sliceBlockRead => none
  | .passCompletion => none
  | .prefFillArrival => none
  | .evictionSweep => none
  | .queueDeadlock => none
  | .yieldDeadlineExpiry => none
  | .collectorAcknowledgement => none
  | .contextResumption => none
  | .contextEventWrite => none
  | .kernelDispatch => none
  | .launchQueueDoorbell => none
  | .ctxRoot => none
  | .setPcb => none
  | .fabricTable => none
  | .takeEvent => none
  | .readLog => none
  | .stage => none
  | .attest => none
  | .keyAperture => none
  | .reset => none
  | .apertureWrite => none
  | .apertureRead => none
  | .deviceWindowWrite => none
  | .powerOn => none
  | .enterS1 => none
  | .enterS2 => none
  | .cxlPortTrainingDone => none
  | .voltorTrainingDone => none
  | .voltorTrainingTimeout => none
  | .voltorLaneFault => none
  | .lossOfSignal => none
  | .flitReceive => none
  | .peerAccessArrival => none
  | .peerStoreLost => none
  | .fabPartReport => none
  | .fabPause => none
  | .fabricBarrierCombine => none
  | .drainEnd => none
  | .restoreEnd => none
  | .instructionFetchAhead => none
  | .eccCorrected => none
  | .eccUncorrectable => none
  | .thermalLimit => none
  | .thermalTrip => none
  | .nullFetch => none
  | .illegalInstruction => none
  | .fetchForIssueFault => none
  | .storePerform => none
  | .cycleCounterAdvance => none
  | .voltorFirmwareCommand => none

end Sys2Proof
end

