-- ==== Sys2Proof/Config.lean ====
section
/-! DEFINITION. What the spec leaves open or takes from another standard: opaque constants, so that nothing can be proved
of their values. A free value is drawn by its number, which the state counts. -/

namespace Sys2Proof.Config

/-- The n-th free value, for every value the spec leaves unspecified (DESIGN CHOICE: log 5). -/
opaque freeWord : Nat → Word64

/-- The n-th free number, for a value of some bytes that the spec leaves unspecified (DESIGN CHOICE: log 5). -/
opaque freeNumber : Nat → Nat

/-- The n-th free choice between two outcomes the spec allows (DESIGN CHOICE: log 5). -/
opaque freeBool : Nat → Bool

/-- Whether an object's XMSS signature holds under the vendor key (R379; another standard's: log 24). -/
opaque xmssVerify : List Byte → Bool

/-- The XMSS signature of a report under the device key and a leaf index, after the index, as the number that its 2,816 bytes hold (R379, R381;
another standard's: log 24). -/
opaque xmssSign : List Byte → Nat → Nat

/-- The CRC-64 of a flit's first 248 bytes (R360; the spec names no polynomial: log 24). -/
opaque crc64 : BitVec 1984 → Word64

/-- Part i of the 224-byte payload that says some numbers, of a request, of data or of a response (R360, log 28). -/
opaque flitPayload : List Nat → Nat → BitVec 1792

/-- The identity of this device (R362, R381). -/
opaque deviceId : Word64

/-- The bytes of the signed object of a kind and die that the module's flash holds from manufacture (R379, log 24). -/
opaque factoryObject : Nat → Nat → List Byte

/-- Where the 16 bits of the sequence number stand in a flit's header, and those of the acknowledged one in its ack field; the spec gives no bit
positions (R360, log 28). -/
opaque seqAt : Fin 113
opaque ackAt : Fin 49

/-- The sequence number in a flit's header, and the acknowledged one in its ack field (R360). -/
def flitSeq (x : BitVec 128) : BitVec 16 := x.extractLsb' seqAt.val 16
def flitAck (x : BitVec 64) : BitVec 16 := x.extractLsb' ackAt.val 16

/-- A header with its sequence number put in, and an ack field with the number that it acknowledges (R360). -/
def withSeq (x : BitVec 128) (q : BitVec 16) : BitVec 128 := (x &&& ~~~(0xFFFF#128 <<< seqAt.val)) ||| (q.setWidth 128 <<< seqAt.val)
def withAck (x : BitVec 64) (q : BitVec 16) : BitVec 64 := (x &&& ~~~(0xFFFF#64 <<< ackAt.val)) ||| (q.setWidth 64 <<< ackAt.val)

/-- The 32 bytes of a record of the error log that read-log writes, as a number, from its class, unit, address, count and level; the spec gives no
layout (R377, R383, log 28). -/
opaque logData : Nat × Nat × Nat × Nat × Nat → Nat

end Sys2Proof.Config
end

