-- ==== Sys2Proof/Machine/State.lean ====
section
/-! DEFINITION. The machine's state as plain data: every register file, queue, array, cache, table and device register the
spec names, and the model's own bookkeeping (which stream issues next, how many free values were drawn). -/

namespace Sys2Proof.Machine

/-- The two streams of a hart (R12, R103). -/
inductive StreamId where
  | a | x
  deriving DecidableEq, Repr

/-- Privilege (R253). -/
inductive Priv where
  | u | s
  deriving DecidableEq, Repr

/-- Data by number, sorted by key with no repeats. -/
abbrev SMap (α : Type) := List (Nat × α)

/-- Memory: listed bytes in rising address order, none equal to what an unlisted address reads as (log 3). -/
abbrev Memory := List Host.Cell

/-- A place a byte can have its home: HBM or CXL by physical address, a core's local store, or a peer's memory (R161). -/
inductive Loc where
  | pa (a : Nat)
  | ls (core off : Nat)
  | peer (f a : Nat)
  /-- No place: in a frame or an extent that was given twice or was none, whose contents are unspecified to its page (R214). -/
  | nowhere (a : Nat)
  deriving DecidableEq, Repr

/-- A vector register: its bit string (R61) and its format tag, where none is the tag 0x0 (R53). -/
structure VReg where
  bits : Nat
  tag : Option Fmt
  deriving DecidableEq, Repr

/-- A node of a draft tree (R333). -/
structure TreeNode where
  parent : BitVec 8
  token : BitVec 32
  score : BitVec 32
  flags : BitVec 8
  deriving DecidableEq, Repr

/-- A draft-tree register (R333). -/
structure Tree where
  base : BitVec 32
  nodes : List TreeNode
  deriving DecidableEq, Repr

/-- A cutter bound register: its 32-byte record (R350). -/
abbrev Bound := BitVec 256

/-- A vector entry of q0 to q3 (R231). -/
structure VEntry where
  esize : Nat
  elems : List Word64
  deriving DecidableEq, Repr

/-- A place of q0 to q3 that is not free: held by the instruction at `pc`, which stopped partway; reserved, its elements
read and its fill to come; or ready (R231, R152). -/
inductive VPlace where
  | stopped (pc : Word64) (e : VEntry)
  /-- `kvx` tells the fill of a `kvx` from that of a gather. -/
  | reserved (e : VEntry) (kvx : Bool)
  | ready (e : VEntry)
  deriving DecidableEq, Repr

/-- A place of q4, q5 or q7 that is not free (R231, R153). -/
inductive SPlace where
  | stopped (pc : Word64)
  | reserved (n : Word64)
  | ready (v : Word64)
  deriving DecidableEq, Repr

/-- A control token: target address and value (R105). -/
structure Token where
  target : Word64
  value : Word64
  deriving DecidableEq, Repr

/-- The fields of `estatus` (R56). -/
structure EStatus where
  pvt : BitVec 8
  pmd : BitVec 11
  pvl : BitVec 17
  ppriv : Priv
  sub : BitVec 5
  deriving DecidableEq, Repr

/-- A layout record's fields (R241). -/
structure Layout where
  addr : Word64
  base : Word64
  fmt : Fmt
  z : Bool
  dims : List Nat
  steps : List Int
  maskBase : Word64
  deriving DecidableEq, Repr

/-- A range of 256-byte lines in the interlock table (R173). -/
structure LineRange where
  lo : Nat
  hi : Nat
  write : Bool
  deriving DecidableEq, Repr

/-- A partial triple (m, l, o) of attention, as fp32 bits (R92, R326). -/
structure Triple where
  m : Nat
  l : Nat
  o : List Nat
  deriving DecidableEq, Repr

/-- What became of a block of a pass (R326, R327). -/
inductive BlockFate where
  /-- Its page entry is 0: not dispatched. -/
  | noPage
  /-- Dispatched to a slice and not yet read. -/
  | dispatched (slice : Nat) (page : Word64)
  /-- Read and scored. -/
  | scored (slice : Nat)
  /-- Skipped as not resident. -/
  | nonresident (slice : Nat)
  /-- Failed, with its cause; the slice if it was dispatched. -/
  | failed (slice : Option Nat) (cause : Nat)
  deriving DecidableEq, Repr

/-- A slice attention pass in flight (R324 to R326). -/
structure Pass where
  recAddr : Word64
  pages : Word64
  maps : Word64
  nblk : Nat
  kvf : Fmt
  hd : Nat
  kvh : Nat
  nr : Nat
  nh : Nat
  hb : Nat
  scale : Nat
  qpos : Word64
  dst : Nat
  consts : List Nat
  prog : List (BitVec 32)
  queries : List (List Nat)
  pc : Word64
  /-- Outcomes of the blocks dispatched so far, in ascending block number. -/
  fates : List BlockFate
  /-- The running triples of each slice, one per query. -/
  running : SMap (List Triple)
  deriving DecidableEq, Repr

/-- The work of an engine transfer in flight (R238). -/
inductive Work where
  /-- A copy of kind 0 to 2, its chunks still to run, those that failed with their causes, and the destination bytes written
  (R243 to R246). -/
  | copy (kind : Nat) (dst src : Layout) (todo : List Nat) (failed : SMap Nat) (written : Nat)
  /-- A page move: promotion or demotion of the page at `page`, the request's sb, and the frame and the tier that the page had when
  the move was accepted (R216, R248). -/
  | move (promote : Bool) (page : Word64) (opt : Word64) (frame tier : Nat)
  /-- A compaction of the block at `page` (R249). -/
  | kvc (page bitmap keep : Word64)
  /-- An attention pass (R325). -/
  | pass (p : Pass)
  deriving DecidableEq, Repr

/-- An engine transfer in flight, with its place in the interlock table (R173, R238). -/
structure Transfer where
  id : Nat
  kind : Nat
  tag : BitVec 32
  stream : StreamId
  /-- Issued in U mode, so that its accesses check U (R207). -/
  user : Bool
  ranges : List LineRange
  /-- Virtual page numbers of the block pages a pass has still to read (R173). -/
  pages : List Nat
  /-- The page array of the pass cannot be read yet, so that it may name any page (R173). -/
  unnamed : Bool := false
  work : Work
  /-- A trap or a return has come since it issued, so that what either stream orders next comes after it (R264). -/
  both : Bool := false
  deriving DecidableEq, Repr

/-- A completion record's four words (R239). -/
structure Record where
  w0 : Word64
  w1 : Word64
  w2 : Word64
  w3 : Word64
  deriving DecidableEq, Repr

/-- What a stream waits for at issue (R235, R265). -/
inductive Wait where
  | queue | window | evwait
  | fence | interlock | grant | table | move | matrix | barrier | split | checkpoint | level | ended | ring | release | stop
  /-- It reads memory of a peer in S1 in the middle of its work, and is held as a whole (R20). -/
  | absent
  deriving DecidableEq, Repr

/-- A hart: everything R47 and R54 give it, and what the engines hold for it. -/
structure Hart where
  /-- 16 × core + place (R251). -/
  slot : Nat
  /-- Its context and the number of its kernel. -/
  asid : Nat
  kernel : Nat
  xs : Vector Word64 32
  as : Vector Word64 32
  xpc : Word64
  apc : Word64
  /-- The access stream runs, or is idle (R103). -/
  arun : Bool
  priv : Priv
  /-- In the entry window (R261). -/
  win : Bool
  vl : BitVec 17
  vt : BitVec 8
  md : BitVec 11
  v : Vector VReg 64
  p : Vector Nat 64
  k : Vector Nat 16
  d : Vector Tree 8
  b : Vector Bound 8
  vq : Vector (List VPlace) 4
  q4 : List SPlace
  q5 : List SPlace
  q6 : List Token
  q7 : List SPlace
  sp : Vector (List (BitVec 32)) 4
  resumeA : Word64
  resumeX : Word64
  /-- The lane allocation entry: groups held, and the last request (R57). -/
  grant : Nat
  req : Nat
  gcoord : Word64
  agc : BitVec 32
  rfc : BitVec 32
  /-- The form last issued names vector sources that read one bank in some cycle, so that a lane group of it can wait (R67). -/
  banks : Bool
  nanpc : Word64
  nanv : Bool
  nanelem : BitVec 17
  /-- The steps at which the instruction of the record issued, and at which the record was last rearmed (R87). -/
  nanSeq : Nat
  nanArm : Nat
  rseed : BitVec 32
  /-- The stochastic generators G[0] to G[255] (R80). -/
  gen : Vector (BitVec 32) 256
  ecause : BitVec 8
  epc : Word64
  etval : Word64
  /-- The trap was taken in the access stream. -/
  estream : Bool
  estatus : EStatus
  thandler : Word64
  tstack : Word64
  ewin : Word64
  /-- Residency of the vector and predicate files: resident and dirty registers, and the registers from the oldest last
  reference to the newest (R64). -/
  vres : List Nat
  vdirty : List Nat
  vorder : List Nat
  pres : List Nat
  pdirty : List Nat
  porder : List Nat
  /-- How many low bits of a register its spill slot holds since its last write-back (R61, R62). -/
  vslot : Vector Nat 64
  pslot : Vector Nat 64
  /-- The slot of the vector file that a resident register occupies (R67). -/
  vplace : Vector Nat 64
  /-- The number of strips the execute stream has closed (R165). -/
  strip : Nat
  tagCtr : BitVec 32
  deadline : Option Nat
  triggered : Bool
  /-- Pending and sync bits of barrier n of tier t, at 16t + n (R303). -/
  pend : BitVec 64
  sync : BitVec 64
  /-- A gsplit arrival that waits: tier code and colour (R302). -/
  arrival : Option (Nat × Nat)
  /-- The new `gcoord` of a split that has completed, until the hart's reissued gsplit takes it (R301, R302). -/
  splitDone : Option Word64
  /-- The barriers whose phase has completed for a bsync of the hart that has still to finish (R309), at 16t + n. -/
  syncDone : BitVec 64
  /-- The barrier for whose earlier phase a bsync of the hart waits before it arrives, at 16t + n (R309, R312). -/
  firstWait : Option Nat
  /-- The numbers of its core, die, device and fabric groups (R295). -/
  groups : Vector Nat 4
  transfers : List Transfer
  /-- Completion records not yet taken, oldest first (R238). -/
  records : List Record
  waitA : Option Wait
  waitX : Option Wait
  /-- The word with which the execute stream last began to wait (R235). -/
  wordX : Word32
  /-- An indexed form of the access stream has stopped between elements and waits: its open entry conflicts with every line, as a write or a
  read (R173). -/
  openA : Option Bool
  /-- The cap of a `setvl` that waits for a grant, fixed when it began to (R58). -/
  waitCap : Option Nat
  /-- Consecutive cycles for which the hart has been deadlocked (R235). -/
  deadCount : Nat
  /-- The last refresh point of each stream, by the model's step count (R142). -/
  refA : Nat
  refX : Nat
  /-- Stopped for collection: no stream issues (R265). -/
  stopped : Bool
  /-- The hart left by `yield` (R267). -/
  coop : Bool
  /-- Halted by a double fault, with the second cause and its address (R261). -/
  halted : Option (BitVec 8 × Word64)
  /-- The hart takes trap entry again when it resumes (R261). -/
  retake : Bool
  /-- The doublewords of the frame of the trap last taken, which it stores again then (R259, R261). -/
  entered : List Word64
  /-- Acknowledged to the collector: it takes no part in its core's life, and its barrier bits and its place move to the save area
  once the whole collection has completed (R265, R266, R311). -/
  acked : Bool
  /-- The bytes of its region of the save area as the collector wrote them, by field: offset, length and value (R268). -/
  image : List (Nat × Nat × Nat)
  deriving DecidableEq, Repr

/-- A weight plane: format and block length, and per cell (256k + n) its bits and its scale byte where they are not zero;
the poisoned cells (R184, R193, R197). -/
structure WPlane where
  fmt : Fmt
  bl : Nat
  cells : SMap Nat
  scales : SMap Nat
  poison : List Nat
  deriving DecidableEq, Repr

/-- An accumulator plane: per cell (256m + n) its fp32 bits where not zero, and the poisoned cells (R184, R197). -/
structure APlane where
  cells : SMap Nat
  poison : List Nat
  deriving DecidableEq, Repr

/-- The shape in force (R187, R188). -/
structure Shape where
  m : Nat
  n : Nat
  k : Nat
  grid : Bool
  a : Fmt
  w : Fmt
  bl : Nat
  deriving DecidableEq, Repr

/-- One activation row of a stream: its row of the plane, its elements' bits, its scale bytes, the positions of the elements read from poisoned
words, and the first column that the array has still to carry out (R195, R197, R202). -/
structure ActRow where
  m : Nat
  elems : List Nat
  scales : List Nat
  poison : List Nat
  first : Nat := 0
  deriving DecidableEq, Repr

/-- The rows a sender broadcasts under grid = 1, with the sender's A and K (R190). -/
structure Broadcast where
  a : Fmt
  k : Nat
  rows : List ActRow
  deriving DecidableEq, Repr

/-- An entry of the matrix queue, with the operands it read at issue, and where the array stands in it (R185, R202). -/
inductive MOp where
  /-- Weights to load, from a K row on. -/
  | load (w : WPlane) (row : Nat)
  | swap
  /-- A stream into plane c: the issuing hart's slot and the pc, the shape in force, the rows read, and under grid = 1
  its number among the core's grid streams; `op` is the step at which it issued. -/
  | stream (c : Nat) (slot : Nat) (pc : Word64) (shape : Shape) (rows : List ActRow) (pair : Option Nat) (receiver : Bool)
      (row col : Nat) (op : Nat)
  /-- A plane to clear, from a cell on. -/
  | zero (c : Nat) (cell : Nat)
  | write (c : Nat) (cells : SMap Nat)
  deriving DecidableEq, Repr

/-- The matrix array of a core (R184). -/
structure Matrix where
  /-- The kernel that holds the array, and how many planes it was granted. -/
  owner : Option Nat
  planes : Nat
  active : WPlane
  shadow : WPlane
  acc : Vector APlane 2
  /-- Tags of the planes, in issue order (R197). -/
  tags : Vector (Option Fmt) 2
  /-- Formats and block lengths of the active and the shadow plane, in issue order (R194). -/
  actFmt : Fmt
  actBl : Nat
  shFmt : Fmt
  shBl : Nat
  shape : Shape
  queue : List MOp
  /-- How many mstream were issued under grid = 1 (R190). -/
  gridCount : Nat
  /-- Rows broadcast to this core and not yet used, by stream number (R190). -/
  inbox : SMap Broadcast
  deriving DecidableEq, Repr

/-- A 32-byte sector held in an L1, with the step at which it was copied, and which of its four 64-bit words are poisoned (R142, R143, R382). -/
structure L1Line where
  bytes : BitVec 256
  stamp : Nat
  poison : List Nat
  deriving DecidableEq, Repr

/-- A word of the instruction cache fetched ahead of issue: its physical address and value, or the cause and subcode that
poison it (R27, R258). -/
inductive IWord where
  | word (pa : Nat) (w : Word32)
  | poison (cause : BitVec 8) (sub : BitVec 5)
  deriving DecidableEq, Repr

/-- A context event held in a core's place: who receives it (0xFFFF for the host) and its four words (R271). -/
structure CtxEvent where
  parent : Nat
  words : Record
  deriving DecidableEq, Repr

/-- A prefetch fill in flight: the sector, the leaf it was translated through, and whether it goes to the L1 (R159, R219). -/
structure Prefetch where
  sector : Nat
  leaf : Nat
  /-- The key slot of its context. -/
  key : Nat
  toL1 : Bool
  deriving DecidableEq, Repr

/-- The issue classes of a core: of each it issues at most one operation in a cycle (R94, R116). -/
inductive IssueClass where
  | access
  | scalar
  | vector
  deriving DecidableEq, Repr

/-- The number of an issue class. -/
def IssueClass.num : IssueClass → Nat
  | .access => 0
  | .scalar => 1
  | .vector => 2

/-- A core (R14, R57, R142, R184, R238, R242). -/
structure Core where
  cyc : Word64
  /-- The classes that have issued in the present cycle, and, by class, the place that issued last (R94, R116, R298). -/
  issued : List IssueClass
  lastPlace : Vector Nat 3
  /-- The streams whose operands are not there yet in the present cycle: bit p the execute stream at place p, and bit 16 + p its access stream
  (R94, R298, log 22). -/
  unready : Nat
  mat : Matrix
  l1 : SMap L1Line
  icache : SMap IWord
  rcache : SMap (BitVec 512)
  /-- The poisoned 64-bit words of its record cache: a record's key and the word's number in it (R242, R382). -/
  rpoison : List (Nat × Nat)
  ctxEvents : List CtxEvent
  prefetches : List Prefetch
  /-- The physical core that serves it, and that core's 20 bytes of the die's configuration record, which map its lanes and its array, as
  they are in force (R22, R23, R380). -/
  phys : Nat
  lanes : Nat
  deriving DecidableEq, Repr

/-- The state codes of a context (R252). -/
inductive CtxState where
  | free | created | runnable | running | yielding | preempted | faulted | checkpointing | destroyed
  deriving DecidableEq, Repr

/-- The double fault that collects a context: the hart's core and place, `epc` and `etval` of the original trap, and the
second cause and address (R261, R268, R271). -/
structure FaultRec where
  core : Nat
  place : Nat
  epc : Word64
  etval : Word64
  cause : BitVec 8
  addr : Word64
  deriving DecidableEq, Repr

/-- A bound context. The descriptor's other fields stay in memory (R250, R254). -/
structure Context where
  desc : Nat
  /-- Read from the descriptor at bind and at each dispatch. -/
  root : Nat
  key : Nat
  mg : Bool
  prio : Nat
  parent : Nat
  lq0 : Nat
  nq : Nat
  state : CtxState
  parked : Bool
  /-- Closed: it goes to created once no hart remains (R254); who asked, as 2 × slot + 1 for the access stream, and 2 × slot for
  the execute stream, which waits for it. -/
  closing : Option Nat
  fault : Option FaultRec
  /-- The status words of `ctxsave` requests to be answered: the asking context and the address (R270). -/
  waiters : List (Nat × Word64)
  /-- Harts pre-empted by force in this collection (R271). -/
  forced : Nat
  /-- A drain of a checkpoint of this context is running (R252, R368). -/
  drains : Nat
  deriving DecidableEq, Repr

/-- A placed kernel (R275, R279 to R292). -/
structure Kernel where
  asid : Nat
  kid : Nat
  dmask : Nat
  /-- The slots of its harts that have not ended. -/
  slots : List Nat
  /-- Its cores with the physical offset of its local store on each. -/
  cores : SMap Nat
  lsb : Nat
  planes : Nat
  prio : Nat
  cpl : Word64
  ended : Nat
  hadPred : Bool
  fab : Bool
  /-- The parts of a fab kernel reported by other devices (R365). -/
  reports : List Nat
  /-- Order of dispatch (R282). -/
  born : Nat
  deriving DecidableEq, Repr

/-- The states of a barrier (R304). -/
inductive BarState where
  | idle | gathering | complete | broken
  deriving DecidableEq, Repr

/-- One byte of a store in flight: its home, its value, and which of its bits are written (R145). -/
structure StoreByte where
  loc : Loc
  val : Byte
  mask : Byte
  deriving DecidableEq, Repr

/-- A unit that is poisoned as a whole: a 32-byte sector of memory, or a 64-bit word of the local stores (R382). -/
inductive Cell where
  | sector (x : Nat)
  | word (x : Nat)
  deriving DecidableEq, Repr

/-- What the elements of one instruction, or of one engine's transfer, have written of a poisoned sector or word: the writer's slot and stream,
the instruction's address or the transfer's number, and the bits written (R140, R382). -/
structure Cover where
  slot : Nat
  stream : StreamId
  job : Nat
  cell : Cell
  mask : Nat
  deriving DecidableEq, Repr

/-- What a load fills: a scalar register of its stream, a vector or a scale register, or a place of a queue. -/
inductive RegName where
  | s (n : Nat) | v (n : Nat) | k (n : Nat) | q (n : Nat)
  deriving DecidableEq, Repr

/-- The operation of an atomic (R155); `read` writes nothing (R156). -/
inductive AmoOp where
  | read | add | swap | max | min | maxN | minN | and | or | cas
  deriving DecidableEq, Repr

/-- Work that S1 holds (R20). -/
inductive HeldWork where
  /-- A load of a peer's memory. -/
  | load
  /-- A whole instruction that reads memory of a peer in the middle of its work: its word, and, as it issued, the privilege, and the address,
  `resume` and scalar registers of its stream. -/
  | whole (word : Word32) (pc resume : Word64) (priv : Priv) (regs : Vector Word64 32)
  /-- An atomic of n bytes at an address, with its operand and the old sd. -/
  | atomic (va : Word64) (n : Nat) (op : AmoOp) (b e : Nat)
  /-- A `frref` on the frame that holds an address, with its delta. -/
  | count (va : Word64) (d : Word64)
  deriving DecidableEq, Repr

/-- An instruction of a hart that has retired in S1 while its work waits for S2 (R20). -/
structure Held where
  slot : Nat
  stream : StreamId
  /-- What its value is still to fill. -/
  regs : List RegName
  /-- It is an acquire, or a release, of the scope that its work names (R167). -/
  acquires : Bool
  releases : Bool
  /-- The bytes that its work touches: a place and a length. -/
  loc : Loc
  len : Nat
  /-- The transfers that a release comes after. -/
  after : List Nat
  work : HeldWork
  /-- The lines of its range, which the interlock table treats as in flight (R20, R173). -/
  lines : List LineRange := []
  /-- The first number of a transfer that issues after it (R173). -/
  born : Nat := 0
  /-- A trap or a return has come since it issued (R264). -/
  both : Bool := false
  deriving DecidableEq, Repr

/-- A load of a hart's execute stream that has retired and whose value may still be fixed later: its word, its address, the scalar registers as it
issued, and where its bytes lie (R161, R164). -/
structure LateLoad where
  slot : Nat
  word : Word32
  pc : Word64
  regs : Vector Word64 32
  places : List Loc
  deriving DecidableEq, Repr

/-- A store that has issued and not yet performed (R161, R163). -/
structure PendingStore where
  slot : Nat
  stream : StreamId
  strip : Nat
  /-- A scalar access, or an element of a vector form (R164). -/
  scalar : Bool
  bytes : List StoreByte
  /-- The step at which its instruction issued. -/
  op : Nat
  /-- It removes its sectors from its own core's L1 (R143); an engine's write does not (R175). -/
  drops : Bool
  /-- The scope of an order that it comes before: it performs before an observer inside that scope makes another access (R13, R167). -/
  due : Option Scope
  /-- Physical addresses of the table entries it was translated through (R209). -/
  via : List Nat
  /-- The key slot of its context (R255). -/
  key : Nat
  asid : Nat
  /-- A trap or a return has come since it issued, so that what either stream orders next comes after it (R264). -/
  both : Bool := false
  deriving DecidableEq, Repr

/-- An entry of a column map or of a bound copy that a hart's cutter form has written, with nothing ordered after it since: where it lies, its
length, and its value (R357). -/
structure CutMark where
  slot : Nat
  loc : Loc
  len : Nat
  bits : Nat
  deriving DecidableEq, Repr

/-- A store of a hart or an engine into the spill window of the hart at a slot of a context: its offset there and its length (R66). -/
structure SpillHit where
  asid : Nat
  slot : Nat
  off : Nat
  len : Nat
  deriving DecidableEq, Repr

/-- Bytes of a spill window whose register is not resident: the hart's context and slot, their offset in the window, where they lie, and what
they held as the register left (R62, R66). -/
structure SpillHome where
  asid : Nat
  slot : Nat
  off : Nat
  loc : Loc
  len : Nat
  bits : Nat
  deriving DecidableEq, Repr

/-- A store that lost every route while it was in flight, to be reported: its context, its hart, and its place (R364). -/
structure Lost where
  asid : Nat
  slot : Nat
  peer : Nat
  off : Nat
  deriving DecidableEq, Repr

/-- A page move under way (R215, R216). -/
structure Move where
  id : Nat
  /-- The hart and transfer that asked for it; none for the eviction engine. -/
  asker : Option (Nat × Nat)
  asid : Nat
  promote : Bool
  pin : Bool
  leaf : Nat
  oldFrame : Nat
  /-- The tier the page had when the move was accepted. -/
  oldTier : Nat
  newTier : Nat
  target : Nat
  late : Bool
  deriving DecidableEq, Repr

/-- An old frame to be given to its free ring once its accesses have drained (R216). -/
structure OldFrame where
  frame : Nat
  ring : Nat
  leaf : Nat
  /-- The ring's place that it has been given, once its tail has moved past it (R214). -/
  place : Option Nat
  deriving DecidableEq, Repr

/-- A frame or an extent taken from a ring and not given back (R214). -/
structure Taken where
  base : Nat
  len : Nat
  deriving DecidableEq, Repr

/-- A checkpoint record's fields (R367). -/
structure CkRec where
  addr : Word64
  plist : Word64
  orec : Word64
  sbase : Word64
  sspan : Nat
  tdesc : Word64
  npages : Nat
  rmax : Nat
  g : Nat
  self : Nat
  lost : Nat
  deriving DecidableEq, Repr

/-- A drain running after `ckfreeze`: its context, its record, and per page its leaf, its frame and whether the freeze
set O (R368 to R370). -/
structure Drain where
  asid : Nat
  ck : CkRec
  pages : List (Nat × Nat × Bool)
  deriving DecidableEq, Repr

/-- A restore running after `ckrestore` (R372). -/
structure Restore where
  asid : Nat
  ck : CkRec
  target : Option Nat
  deriving DecidableEq, Repr

/-- Service levels (R17). -/
inductive Level where
  | s0 | s1 | s2
  deriving DecidableEq, Repr

/-- States of a CXL port (R20, R378). -/
inductive CxlState where
  | untrained | up | failed
  deriving DecidableEq, Repr

/-- States of a Voltor port (R361). -/
inductive VoltorState where
  | down | training | up | degraded | failed
  deriving DecidableEq, Repr

/-- A flit sent and not yet acknowledged: its sequence number, its 256 bytes, and the store that it carries (R360, R361, R364). -/
structure SentFlit where
  seq : BitVec 16
  bits : BitVec 2048
  store : Option PendingStore
  deriving DecidableEq, Repr

/-- A Voltor port: its state, the bad lanes replaced by spares, the next sequence number to send and to receive, the replay
buffer, and the flits delivered (R360, R361). -/
structure Voltor where
  state : VoltorState
  replaced : Nat
  txSeq : BitVec 16
  rxSeq : BitVec 16
  acked : Word64
  replay : List SentFlit
  delivered : List (BitVec 2048)
  /-- Cycles of its die spent in training. -/
  cycles : Nat
  deriving DecidableEq, Repr

/-- An entry of the fabric table (R362). -/
structure FabEntry where
  id : Word64
  ports : BitVec 8
  valid : Bool
  key : Nat
  deriving DecidableEq, Repr

/-- A record of the error log (R383). -/
structure LogRec where
  cls : Nat
  unit : Nat
  addr : Nat
  count : Nat
  level : Level
  deriving DecidableEq, Repr

/-- The mailbox command area (R377). -/
structure Mailbox where
  cmd : BitVec 32
  seq : BitVec 32
  /-- The sequence number of the command being performed. -/
  bell : BitVec 32
  /-- The number of that command. -/
  task : Nat
  status : BitVec 32
  args : List Byte
  data : List Byte
  deriving DecidableEq, Repr

/-- A signed object held in flash: its kind, die and version, and all its bytes (R379). -/
structure FlashObj where
  kind : Nat
  die : Nat
  version : Nat
  bytes : List Byte
  deriving DecidableEq, Repr

/-- The module's flash and what boot makes of it: the objects put into service since manufacture, those staged and not yet in
service, and the anti-rollback counters; the attestation's next leaf, chain and versions (R379 to R381). -/
structure Flash where
  objects : List FlashObj
  staged : List FlashObj
  /-- Anti-rollback counters by kind × 256 + die. -/
  counters : SMap Nat
  leafIndex : Nat
  chain : List (List Byte)
  versions : List Nat
  deriving DecidableEq, Repr

/-- A core's part of a saved context (R268). -/
structure SavedCore where
  ls : List (Nat × List Host.Cell)
  mat : Option Matrix
  /-- The bytes of its region of the save area as the collector wrote them: offset and 256 bytes. -/
  image : List (Nat × Nat)
  deriving DecidableEq, Repr

/-- What the outside world, or a choice of the hardware, decides about an event (log 1): up to four numbers, a word, a yes
or no, and a string of bits. Each event's meaning says how it reads them. -/
structure EvArgs where
  a : Nat := 0
  b : Nat := 0
  c : Nat := 0
  d : Nat := 0
  w : Word64 := 0
  yes : Bool := false
  data : Nat := 0
  deriving DecidableEq, Repr

/-- A turn of the agenda: a stream issues its next instruction, or issues it and stops at an element of it, as a stream does when the
hart's other stream traps (R148, R259, R260); or an event of the opcode table happens (log 1). -/
inductive Turn where
  | issue (slot : Nat) (stream : StreamId)
  | issueTo (slot : Nat) (stream : StreamId) (elem : Nat)
  /-- The execute stream issues a load whose value may still be fixed later; the late load at a position is fixed anew; and the whole instruction
  at a position of the work that S1 held is carried out. -/
  | issueLate (slot : Nat)
  | late (n : Nat)
  | held (n : Nat)
  | event (i : Instr) (args : EvArgs)
  deriving DecidableEq, Repr

/-- The whole device. -/
structure State where
  /-- Memory by physical address (R210), and the local stores at 2^20 × core + offset (R138). -/
  mem : Memory
  ls : Memory
  /-- Poisoned 32-byte sectors of memory, poisoned 64-bit words of what the slices hold of memory, and poisoned 64-bit words of the local stores
  (R382). -/
  poison : List Nat
  slicePoison : List Nat
  lsPoison : List Nat
  /-- Loaded key slots (R255, R256), and the key under which a sector was last written (log 16). -/
  keys : SMap (BitVec 512)
  sectorKey : SMap (BitVec 512)
  harts : SMap Hart
  /-- Saved harts, at 1024 × ASID + slot (R269). -/
  saved : SMap Hart
  savedCores : SMap SavedCore
  cores : Vector Core 64
  contexts : SMap Context
  kernels : SMap Kernel
  barriers : SMap BarState
  /-- The cycles for which the head record of a launch queue has been its head (R278). -/
  heads : SMap Nat
  pending : List PendingStore
  /-- Work that S1 holds, oldest first (R20). -/
  held : List Held
  /-- What instructions have written of poisoned sectors and words (R382). -/
  cover : List Cover
  lost : List Lost
  /-- What has been stored into the slots of spill windows of registers that are not resident, and where those slots lie (R66). -/
  hits : List SpillHit
  spilled : List SpillHome
  /-- Loads whose values may still be fixed later (R164). -/
  late : List LateLoad
  /-- What the harts' cutter forms have written of maps and bound copies that a form of another hart may still be mixed with (R357). -/
  cutMarks : List CutMark
  /-- Parts of fabric kernels reported before their own part was placed here: the context, the kernel's ID and the device (R365). -/
  early : List (Nat × Nat × Nat)
  moves : List Move
  oldFrames : List OldFrame
  /-- What has been taken from the rings; of it, entries that were given twice or are none, until the page that takes them is known; and the
  leaves and overlay records whose page holds such an entry (R214). -/
  taken : List Taken
  badTaken : List Nat
  spoiled : List (Nat × Nat)
  drains : List Drain
  restores : List Restore
  pcb : Option Nat
  hands : Vector Nat 4
  sweeping : Vector Bool 4
  level : Level
  boot : Nat
  clock : Vector Nat 4
  cxl : Vector CxlState 4
  /-- The physical slice, 0 to 33 of its die, that serves each slice, as the maps are in force (R10, R22, R380). -/
  slices : Vector Nat 128
  voltor : Vector Voltor 8
  fabric : List FabEntry
  self : Nat
  /-- Addresses of a victim's collection that a dispatcher waits for (R282). -/
  victims : List (Nat × Nat)
  mailbox : Mailbox
  hostEvents : List Record
  log : List LogRec
  logDropped : Nat
  apKey : Nat
  /-- What the host's last read returned, as its bytes, the lowest first (R374 to R376). -/
  hostRead : Nat
  flash : Flash
  /-- The model's own bookkeeping: who moves next, and the slot, stream and word being issued (log 1). -/
  agenda : List Turn
  curSlot : Nat
  curStream : StreamId
  curWord : Word32
  /-- The fetch condition of the word being issued: cause and subcode (R258). -/
  curFetch : BitVec 8 × BitVec 5
  /-- The element at which the issuing instruction stops, if it is resumable (R148). -/
  curStop : Option Nat
  /-- What is decided about the event that happens now (log 1). -/
  curEv : EvArgs
  /-- How many free values have been drawn (log 5). -/
  freeCtr : Nat
  /-- Steps taken so far, which orders L1 copies and refresh points (log 8). -/
  tick : Nat
  /-- The next number for a group, a kernel, a transfer, a move or a drain (log 4). -/
  nextId : Nat
  deriving DecidableEq, Repr

/-- Why the model stops on a state of its own: only in states no run reaches. -/
inductive Fault where
  /-- Raised by an instruction's meaning when the state holds no hart at the slot being issued: no run reaches such a
  state, and stopping there proves nothing false (safe). -/
  | noHart
  deriving DecidableEq, Repr

/-- Why the model gives an instruction no meaning. -/
inductive Refusal where
  /-- Raised by the dispatch of an instruction not modelled yet (safe). -/
  | notModelled (mnemonic : String)
  deriving DecidableEq, Repr

/-- A weight plane at launch: +0 in e4m3 (R184). -/
def WPlane.start : WPlane := { fmt := .e4m3, bl := 16, cells := [], scales := [], poison := [] }

/-- The array at launch (R184); the formats of the empty shape are DESIGN CHOICE (log 4). -/
def Matrix.start : Matrix :=
  { owner := none, planes := 0, active := .start, shadow := .start
    acc := Vector.replicate 2 { cells := [], poison := [] }, tags := Vector.replicate 2 none
    actFmt := .e4m3, actBl := 16, shFmt := .e4m3, shBl := 16
    shape := { m := 0, n := 0, k := 0, grid := false, a := .e4m3, w := .e4m3, bl := 16 }
    queue := [], gridCount := 0, inbox := [] }

/-- A core out of reset (R14); the number of its physical core before a record is in force is a DESIGN CHOICE (log 4). -/
def Core.start : Core :=
  { cyc := 0, issued := [], lastPlace := Vector.replicate 3 15, unready := 0, mat := .start, l1 := [], icache := [], rcache := [], rpoison := [], ctxEvents := [], prefetches := [], phys := 0, lanes := 0 }

/-- A Voltor port out of reset (R361). -/
def Voltor.start : Voltor :=
  { state := .down, replaced := 0, txSeq := 0, rxSeq := 0, acked := 0, replay := [], delivered := [], cycles := 0 }

/-- The device at power-on: S0, with no hart, no context and nothing listed in memory (R17, R375, R378). The values the
spec does not give are those of log 3 and log 4. -/
def State.reset : State :=
  { mem := [], ls := [], poison := [], slicePoison := [], lsPoison := [], keys := [(0, 0)], sectorKey := []
    harts := [], saved := [], savedCores := [], cores := Vector.replicate 64 .start
    contexts := [], kernels := [], barriers := [], heads := [], pending := [], held := [], cover := [], lost := [], hits := [], spilled := [], late := [], cutMarks := [], early := [], moves := [], oldFrames := []
    taken := [], badTaken := [], spoiled := []
    drains := [], restores := [], pcb := none, hands := Vector.replicate 4 0, sweeping := Vector.replicate 4 false
    level := .s0, boot := 0, clock := Vector.replicate 4 875, cxl := Vector.replicate 4 .untrained
    slices := Vector.replicate 128 0, voltor := Vector.replicate 8 .start, fabric := [], self := 0, victims := []
    mailbox := { cmd := 0, seq := 0, bell := 0, task := 0, status := 0, args := List.replicate 240 0, data := List.replicate 3840 0 }
    hostEvents := [], log := [], logDropped := 0, apKey := 0, hostRead := 0
    flash := { objects := [], staged := [], counters := [], leafIndex := 0, chain := [], versions := [] }
    agenda := [], curSlot := 0, curStream := .x, curWord := 0, curFetch := (0, 0), curStop := none, curEv := {}
    freeCtr := 0, tick := 0, nextId := 1 }

end Sys2Proof.Machine
end

