-- ==== Sys2Proof/Machine/Flags.lean ====
section
/-! DEFINITION. The fields of the vector type, the mode, `estatus` and the other packed registers, and what follows from
them: element widths, block lengths and VLMAX (R49, R50, R56, R60). -/

namespace Sys2Proof.Machine

/-- Element width of a format in bits (R32). -/
def Fmt.ew : Fmt → Nat
  | .i8 | .n8 | .e4m3 | .e5m2 => 8
  | .i16 | .n16 | .bf16 | .fp16 => 16
  | .i32 | .n32 | .fp32 => 32
  | .i64 | .n64 => 64
  | .b4 => 4

/-- An integer format (R70). -/
def Fmt.isInt : Fmt → Bool
  | .i8 | .n8 | .i16 | .n16 | .i32 | .n32 | .i64 | .n64 => true
  | _ => false

/-- A signed integer format (R70). -/
def Fmt.isSigned : Fmt → Bool
  | .i8 | .i16 | .i32 | .i64 => true
  | _ => false

/-- A floating format other than `b4` (R72). -/
def Fmt.isFloat : Fmt → Bool
  | .fp32 | .bf16 | .fp16 | .e4m3 | .e5m2 => true
  | _ => false

/-- The element format of a vector type; none while vector state is dead (R48, R49). -/
def vtFmt (vt : BitVec 8) : Option Fmt := Fmt.ofCode? (vt.toNat % 16)
/-- The depth in words of a vector type (R49, R60). -/
def vtDepth (vt : BitVec 8) : Nat :=
  match vt.toNat / 16 % 4 with
  | 0 => 8
  | 1 => 16
  | _ => 32
/-- A vector type flushes subnormals (R49). -/
def vtFtz (vt : BitVec 8) : Bool := vt.toNat.testBit 6
/-- The block length of a vector type (R49). -/
def vtBl (vt : BitVec 8) : Nat := if vt.toNat.testBit 7 then 32 else 16

/-- The vector type that `setvl` writes (R49). -/
def vtOf (fmt : Fmt) (dc : Depth) (ftz bl : Bool) : BitVec 8 :=
  BitVec.ofNat 8 (fmt.code + 16 * dc.code + 64 * bit ftz + 128 * bit bl)

/-- The mode that `mode` writes (R50). -/
def mdOf (g : Option PRegNo) (rm : Rm) (sat : Bool) : BitVec 11 :=
  BitVec.ofNat 11 (guardCode g + 128 * rm.code + 1024 * bit sat)

/-- The rounding mode of a mode. A reserved code, which no write of `md` leaves there but a return from a handler that has changed `estatus`
may, rounds to nearest even (R50, R52, log 36). -/
def mdRm (md : BitVec 11) : Rm := (Rm.ofCode? (md.toNat / 128 % 8)).getD .rne
/-- Saturation (R50). -/
def mdSat (md : BitVec 11) : Bool := md.toNat.testBit 10
/-- The guard predicate, when vector instructions are guarded (R50). -/
def mdGuard (md : BitVec 11) : Option PRegNo :=
  if md.toNat.testBit 6 then some ⟨md.toNat % 64, Nat.mod_lt _ (by decide)⟩ else none
/-- A mode that R50 lets a CSR write leave. -/
def mdLegal (md : BitVec 11) : Bool := decide (md.toNat / 128 % 8 ≤ 4) && (md.toNat.testBit 6 || decide (md.toNat % 64 = 0))

/-- Vector state is live (R48, R49). -/
def Hart.live (h : Hart) : Bool := (vtFmt h.vt).isSome
/-- The lanes a hart holds (R57). -/
def Hart.lanes (h : Hart) : Nat := 16 * h.grant
/-- The length of a vector register's bit string (R61). -/
def Hart.vbits (h : Hart) : Nat := h.lanes * vtDepth h.vt * 32
/-- VLMAX at an element width (R60). -/
def Hart.vlmaxAt (h : Hart) (ew : Nat) : Nat := h.vbits / ew
/-- VLMAX (R60); 0 while vector state is dead. -/
def Hart.vlmax (h : Hart) : Nat :=
  match vtFmt h.vt with
  | none => 0
  | some f => h.vlmaxAt (Fmt.ew f)

/-- `estatus` as a word (R56). -/
def EStatus.word (e : EStatus) : Word64 :=
  BitVec.ofNat 64 (e.sub.toNat * 2 ^ 8 + (if e.ppriv = .s then 2 ^ 15 else 0) + e.pvl.toNat * 2 ^ 20 + e.pmd.toNat * 2 ^ 37 +
    e.pvt.toNat * 2 ^ 48)

/-- `estatus` with the writable fields of a word (R56). -/
def EStatus.ofWord (w : Word64) : EStatus :=
  { pvt := w.extractLsb' 48 8, pmd := w.extractLsb' 37 11, pvl := w.extractLsb' 20 17
    ppriv := if w.getLsbD 15 then .s else .u, sub := w.extractLsb' 8 5 }

/-- How many vector registers are resident at once (R63). -/
def vectorSlots (vt : BitVec 8) : Nat := 512 / vtDepth vt
/-- How many predicate registers are resident at once (R63). -/
def predicateSlots (vt : BitVec 8) : Nat :=
  match vtFmt vt with
  | none => 64
  | some f => min 64 (4096 / (vtDepth vt * 32 / Fmt.ew f))

end Sys2Proof.Machine
end

