-- ==== Sys2Proof/Machine/Map.lean ====
section
/-! DEFINITION. Maps by number and memories as lists in one canonical form. -/

namespace Sys2Proof.Machine

/-- The data under a key. -/
def SMap.get? {α : Type} : SMap α → Nat → Option α
  | [], _ => none
  | (k', a) :: m, k => if k' = k then some a else SMap.get? m k

/-- The map with a key's data replaced. -/
def SMap.put {α : Type} : SMap α → Nat → α → SMap α
  | [], k, a => [(k, a)]
  | (k', b) :: m, k, a =>
    if k < k' then (k, a) :: (k', b) :: m
    else if k = k' then (k, a) :: m
    else (k', b) :: SMap.put m k a

/-- The map without a key. -/
def SMap.del {α : Type} : SMap α → Nat → SMap α
  | [], _ => []
  | (k', b) :: m, k => if k' = k then SMap.del m k else (k', b) :: SMap.del m k

/-- The keys of a map. -/
def SMap.keys {α : Type} (m : SMap α) : List Nat := m.map Prod.fst

/-- The map without the keys in lo ≤ k < hi. -/
def SMap.delRange {α : Type} (m : SMap α) (lo hi : Nat) : SMap α := m.filter fun e => decide (e.1 < lo) || decide (hi ≤ e.1)

/-- A map of numbers that lists no zero. -/
def SMap.putNZ (m : SMap Nat) (k v : Nat) : SMap Nat := if v = 0 then SMap.del m k else SMap.put m k v

/-- What a byte that nothing has written reads as (DESIGN CHOICE: log 3). -/
def Memory.unlisted : Byte := 0

/-- One byte of memory. -/
def Memory.read (m : Memory) (a : Nat) : Byte := (SMap.get? m a).getD Memory.unlisted

/-- Memory with one byte written, in canonical form. -/
def Memory.write (m : Memory) (a : Nat) (b : Byte) : Memory :=
  if b = Memory.unlisted then SMap.del m a else SMap.put m a b

/-- The canonical form: rising addresses, and no byte that reads as an unlisted one. -/
abbrev Memory.wf (m : Memory) : Prop := m.Pairwise (fun c d => c.1 < d.1) ∧ ∀ c ∈ m, c.2 ≠ Memory.unlisted

/-- n bytes from an address as a number, the lowest address least significant (R2). -/
def Memory.readLE (m : Memory) (a : Nat) : Nat → Nat
  | 0 => 0
  | n + 1 => (Memory.read m a).toNat + 2 ^ 8 * Memory.readLE m (a + 1) n

/-- Memory with the low n bytes of a number written from an address (R2). -/
def Memory.writeLE (m : Memory) (a v : Nat) : Nat → Memory
  | 0 => m
  | n + 1 => Memory.writeLE (Memory.write m a (BitVec.ofNat 8 v)) (a + 1) (v / 2 ^ 8) n

/-- A set of numbers as a list in rising order, with a number added. -/
def addNum : List Nat → Nat → List Nat
  | [], k => [k]
  | x :: l, k => if k < x then k :: x :: l else if k = x then x :: l else x :: addNum l k

/-- A set of numbers without one. -/
def delNum (l : List Nat) (k : Nat) : List Nat := l.filter fun x => x != k

/-- Bits lo to lo + n − 1 of a number. -/
def bitsOf (x lo n : Nat) : Nat := x >>> lo % 2 ^ n

/-- A number with bits lo to lo + n − 1 replaced. -/
def putBits (x lo n v : Nat) : Nat := x ^^^ (((x >>> lo % 2 ^ n) ^^^ (v % 2 ^ n)) <<< lo)

/-- The signed value of the low n bits. -/
def signedOf (n x : Nat) : Int :=
  let y := x % 2 ^ n
  if 2 * y < 2 ^ n then (y : Int) else (y : Int) - (2 ^ n : Nat)

/-- An integer as n bits, two's complement. -/
def bitsOfInt (n : Nat) (x : Int) : Nat := (x % ((2 ^ n : Nat) : Int)).toNat

/-- The number of one bits among the low n. -/
def popcountN (x : Nat) : Nat → Nat
  | 0 => 0
  | n + 1 => popcountN (x / 2) n + x % 2

end Sys2Proof.Machine
end

