-- ==== Sys2Proof/Machine/Float.lean ====
section
/-! DEFINITION. The floating formats and their arithmetic: exact results, the one rounding, overflow, flush, NaNs, and the
codes of `b4` (R72 to R87). -/

namespace Sys2Proof.Machine

/-- The value of a floating bit pattern (R72). A NaN's fraction is held as the 23 bits it has in `fp32` (R83). -/
inductive Fp where
  | nan (neg : Bool) (frac : Nat)
  | inf (neg : Bool)
  /-- (−1)^neg × mant × 2^exp. -/
  | fin (neg : Bool) (mant : Nat) (exp : Int)
  deriving DecidableEq, Repr

/-- An exact result before its rounding (R73, R85). -/
inductive Exact where
  | nan (neg : Bool) (frac : Nat)
  /-- An invalid operation generates a NaN (R85). -/
  | invalid
  | inf (neg : Bool)
  | zero (neg : Bool)
  /-- A magnitude of mant × 2^exp, or, with `sticky`, one strictly between that and (mant + 1) × 2^exp. -/
  | num (neg : Bool) (mant : Nat) (exp : Int) (sticky : Bool)
  deriving DecidableEq, Repr

/-- Fraction width of a floating format (R72). -/
def Fmt.fracBits : Fmt → Nat
  | .fp32 => 23
  | .bf16 => 7
  | .fp16 => 10
  | .e4m3 => 3
  | .e5m2 => 2
  | _ => 23

/-- Exponent width of a floating format (R72). -/
def Fmt.expBits : Fmt → Nat
  | .fp32 | .bf16 => 8
  | .fp16 | .e5m2 => 5
  | .e4m3 => 4
  | _ => 8

/-- Exponent bias of a floating format (R72). -/
def Fmt.bias (f : Fmt) : Nat := 2 ^ (Fmt.expBits f - 1) - 1

/-- The magnitude bits of the largest finite value (R72). -/
def Fmt.maxMag (f : Fmt) : Nat :=
  match f with
  | .e4m3 => 0x7E
  | _ => (2 ^ Fmt.expBits f - 1) * 2 ^ Fmt.fracBits f - 1

/-- The magnitude bits of an infinity, where a format has one (R72). -/
def Fmt.infMag (f : Fmt) : Nat := (2 ^ Fmt.expBits f - 1) * 2 ^ Fmt.fracBits f

/-- The sign bit of a floating format, as a number. -/
def Fmt.signBit (f : Fmt) : Nat := 2 ^ (Fmt.ew f - 1)

/-- A bit pattern's sign bit. -/
def signBitOf (f : Fmt) (x : Nat) : Bool := x.testBit (Fmt.ew f - 1)

/-- A sign and magnitude bits as a bit pattern. -/
def withSign (f : Fmt) (neg : Bool) (mag : Nat) : Nat := (if neg then Fmt.signBit f else 0) + mag

/-- The value of a bit pattern (R72). -/
def Fp.of (f : Fmt) (x : Nat) : Fp :=
  let w := Fmt.fracBits f
  let neg := signBitOf f x
  let mag := x % Fmt.signBit f
  let e := mag / 2 ^ w
  let frac := mag % 2 ^ w
  if mag > Fmt.maxMag f then
    if f ≠ .e4m3 ∧ frac = 0 then .inf neg else .nan neg (frac * 2 ^ (23 - w))
  else if e = 0 then .fin neg frac (1 - (Fmt.bias f : Int) - w)
  else .fin neg (2 ^ w + frac) ((e : Int) - Fmt.bias f - w)

/-- A pattern is subnormal (R72). -/
def isSubnormal (f : Fmt) (x : Nat) : Bool :=
  let mag := x % Fmt.signBit f
  decide (0 < mag) && decide (mag < 2 ^ Fmt.fracBits f)

/-- A subnormal made a zero of its sign, under ftz (R84). -/
def flush (f : Fmt) (ftz : Bool) (x : Nat) : Nat := if ftz && isSubnormal f x then withSign f (signBitOf f x) 0 else x

/-- A pattern is a NaN (R72). -/
def isNan (f : Fmt) (x : Nat) : Bool :=
  match Fp.of f x with
  | .nan _ _ => true
  | _ => false

/-- The number of bits of a number: 0 for 0. -/
def bitLen (x : Nat) : Nat := if x = 0 then 0 else Nat.log2 x + 1

/-- The integer square root, by bits from the highest: the greatest r below 2^n + r₀ whose square is at most x. -/
def isqrtFrom (x : Nat) : Nat → Nat → Nat
  | 0, r => r
  | n + 1, r =>
    let c := r + 2 ^ n
    isqrtFrom x n (if c * c ≤ x then c else r)

/-- The integer square root. -/
def isqrt (x : Nat) : Nat := isqrtFrom x ((bitLen x + 1) / 2) 0

/-- A NaN in a narrower or equal format: sign, the high bits of its payload, and the quiet bit (R83, R86). -/
def nanBits (f : Fmt) (neg : Bool) (frac : Nat) (quiet : Bool) : Nat :=
  if f = .e4m3 then withSign f neg 0x7F
  else
    let w := Fmt.fracBits f
    let fr := frac / 2 ^ (23 - w)
    withSign f neg (Fmt.infMag f + (if quiet then fr ||| 2 ^ (w - 1) else fr))

/-- The fraction of a generated NaN as `fp32` has it: quiet, with the fold of the pc and the lane number (R86). -/
def generatedFrac (pc : Word64) (ln : Nat) : Nat := 2 ^ 22 + bitsOf pc.toNat 2 14 * 2 ^ 8 + ln % 256

/-- An infinity as a result: `e4m3` has none and gives its NaN (R73). -/
def infBits (f : Fmt) (neg : Bool) : Nat := if f = .e4m3 then withSign f neg 0x7F else withSign f neg (Fmt.infMag f)

/-- What a finite result past the largest finite value becomes (R73, R79). -/
def overflowBits (f : Fmt) (rm : Rm) (neg : Bool) : Nat :=
  if f = .e4m3 then withSign f neg (Fmt.maxMag f)
  else match rm with
    | .rne | .sr => infBits f neg
    | .rtz => withSign f neg (Fmt.maxMag f)
    | .rdn => if neg then infBits f neg else withSign f neg (Fmt.maxMag f)
    | .rup => if neg then withSign f neg (Fmt.maxMag f) else infBits f neg

/-- Whether a magnitude of k quanta and r ÷ 2^sh of a quantum more, or with `sticky` slightly above that, is rounded away from
zero (R78, R82). -/
def roundsUp (rm : Rm) (rnd : Nat) (neg : Bool) (k r sh : Nat) (sticky : Bool) : Bool :=
  let inexact := decide (r ≠ 0) || sticky
  match rm with
  | .rne => decide (2 * r > 2 ^ sh) || (decide (2 * r = 2 ^ sh) && (sticky || decide (k % 2 = 1)))
  | .rtz => false
  | .rdn => neg && inexact
  | .rup => !neg && inexact
  | .sr => inexact && decide (rnd < r * 2 ^ 24 / 2 ^ sh)

/-- A nonzero magnitude in quanta of 2^q, rounded (R78, R82). A magnitude far below the quantum is decided as any tiny one. -/
def quanta (rm : Rm) (rnd : Nat) (neg : Bool) (mant : Nat) (exp : Int) (sticky : Bool) (q : Int) : Nat :=
  if (bitLen mant : Int) + exp < q - 66 then (if roundsUp rm rnd neg 0 1 66 true then 1 else 0)
  else if q ≤ exp then mant * 2 ^ (exp - q).toNat + (if sticky && roundsUp rm rnd neg (mant * 2 ^ (exp - q).toNat) 0 0 true then 1 else 0)
  else
    let sh := (q - exp).toNat
    let k := mant / 2 ^ sh
    k + (if roundsUp rm rnd neg k (mant % 2 ^ sh) sh sticky then 1 else 0)

/-- A finite nonzero exact value rounded once into a format (R73, R78, R79, R82). -/
def roundNum (f : Fmt) (rm : Rm) (rnd : Nat) (neg : Bool) (mant : Nat) (exp : Int) (sticky : Bool) : Nat :=
  let w := Fmt.fracBits f
  let low : Int := 1 - (Fmt.bias f : Int) - w
  let q := max ((bitLen mant : Int) + exp - 1 - w) low
  let mag := (q - low).toNat * 2 ^ w + quanta rm rnd neg mant exp sticky q
  if mag > Fmt.maxMag f then overflowBits f rm neg else withSign f neg mag

/-- What an operation's results are rounded by: format, mode, flush, and the instruction's address for its NaNs. -/
structure FpCtx where
  fmt : Fmt
  rm : Rm
  ftz : Bool
  pc : Word64
  deriving DecidableEq, Repr

/-- The context of the engines that round RNE into `fp32` and never flush (R78, R84). -/
def engineCtx (pc : Word64) : FpCtx := { fmt := .fp32, rm := .rne, ftz := false, pc := pc }

/-- An exact result in the destination format, and whether it is a generated NaN (R73, R84 to R86). -/
def FpCtx.round (c : FpCtx) (rnd ln : Nat) (x : Exact) : Nat × Bool :=
  match x with
  | .nan neg frac => (nanBits c.fmt neg frac true, false)
  | .invalid => (nanBits c.fmt false (generatedFrac c.pc ln) true, true)
  | .inf neg => (infBits c.fmt neg, false)
  | .zero neg => (withSign c.fmt neg 0, false)
  | .num neg mant exp sticky => (flush c.fmt c.ftz (roundNum c.fmt c.rm rnd neg mant exp sticky), false)

/-- A finite value as an exact result. -/
def exactFin (neg : Bool) (mant : Nat) (exp : Int) : Exact := if mant = 0 then .zero neg else .num neg mant exp false

/-- A value as an exact result, for a conversion (R83). -/
def Fp.exact : Fp → Exact
  | .nan neg frac => .nan neg frac
  | .inf neg => .inf neg
  | .fin neg mant exp => exactFin neg mant exp

/-- An integer as an exact result. -/
def exactInt (x : Int) : Exact := exactFin (decide (x < 0)) x.natAbs 0

/-- A signed mantissa. -/
def signedMant (neg : Bool) (m : Nat) : Int := if neg then -(m : Int) else m

/-- The exact sum of two finite values (R73). -/
def addFin (rm : Rm) (na : Bool) (ma : Nat) (ea : Int) (nb : Bool) (mb : Nat) (eb : Int) : Exact :=
  let e := min ea eb
  let t := signedMant na (ma * 2 ^ (ea - e).toNat) + signedMant nb (mb * 2 ^ (eb - e).toNat)
  if t = 0 then .zero (if ma = 0 ∧ mb = 0 ∧ na = nb then na else decide (rm = .rdn))
  else .num (decide (t < 0)) t.natAbs e false

/-- a + b (R73, R85). -/
def fpAdd (rm : Rm) : Fp → Fp → Exact
  | .nan n f, _ => .nan n f
  | _, .nan n f => .nan n f
  | .inf n, .inf m => if n = m then .inf n else .invalid
  | .inf n, .fin _ _ _ => .inf n
  | .fin _ _ _, .inf m => .inf m
  | .fin na ma ea, .fin nb mb eb => addFin rm na ma ea nb mb eb

/-- A value with its sign inverted, unless it is a NaN: for a subtraction, whose NaN operand propagates as it is (R85). -/
def Fp.flip : Fp → Fp
  | .nan n f => .nan n f
  | .inf n => .inf !n
  | .fin n m e => .fin (!n) m e

/-- a − b (R73, R85). -/
def fpSub (rm : Rm) (a b : Fp) : Exact := fpAdd rm a b.flip

/-- The product of two values that are not NaNs: a value, or none where it is 0 × ∞ (R85). -/
def mulFin : Fp → Fp → Option Fp
  | .nan n f, _ => some (.nan n f)
  | _, .nan n f => some (.nan n f)
  | .inf n, .inf m => some (.inf (xor n m))
  | .inf n, .fin m k _ => if k = 0 then none else some (.inf (xor n m))
  | .fin n k _, .inf m => if k = 0 then none else some (.inf (xor n m))
  | .fin na ma ea, .fin nb mb eb => some (.fin (xor na nb) (ma * mb) (ea + eb))

/-- a × b (R73, R85). -/
def fpMul (a b : Fp) : Exact :=
  match mulFin a b with
  | none => .invalid
  | some p => p.exact

/-- a × b + c, or c − a × b, rounded once; NaN operands propagate in the order a, b, c (R73, R85). -/
def fpFma (rm : Rm) (negate : Bool) (a b c : Fp) : Exact :=
  match a, b, c with
  | .nan n f, _, _ => .nan n f
  | _, .nan n f, _ => .nan n f
  | _, _, .nan n f => .nan n f
  | a, b, c => match mulFin a b with
    | none => .invalid
    | some p => fpAdd rm (if negate then p.flip else p) c

/-- a ÷ b (R73, R85). -/
def fpDiv : Fp → Fp → Exact
  | .nan n f, _ => .nan n f
  | _, .nan n f => .nan n f
  | .inf _, .inf _ => .invalid
  | .inf n, .fin m _ _ => .inf (xor n m)
  | .fin n _ _, .inf m => .zero (xor n m)
  | .fin na ma ea, .fin nb mb eb =>
    if mb = 0 then (if ma = 0 then .invalid else .inf (xor na nb))
    else if ma = 0 then .zero (xor na nb)
    else
      let k := 128 + bitLen mb
      let n := ma * 2 ^ k
      .num (xor na nb) (n / mb) (ea - eb - k) (decide (n % mb ≠ 0))

/-- √a (R73, R85). -/
def fpSqrt : Fp → Exact
  | .nan n f => .nan n f
  | .inf n => if n then .invalid else .inf false
  | .fin n m e =>
    if m = 0 then .zero n
    else if n then .invalid
    else
      let k := 256 + (e % 2).toNat
      let x := m * 2 ^ k
      let r := isqrt x
      .num false r ((e - k) / 2) (decide (r * r ≠ x))

/-- 1 ÷ √a (R73, R85). -/
def fpRsqrt : Fp → Exact
  | .nan n f => .nan n f
  | .inf n => if n then .invalid else .zero false
  | .fin n m e =>
    if m = 0 then .inf n
    else if n then .invalid
    else
      let m' := m * 2 ^ (e % 2).toNat
      let h := (e - (e % 2)) / 2
      let r := isqrt (2 ^ 384 / m')
      .num false r (-h - 192) (decide (r * r * m' ≠ 2 ^ 384))

/-- Fraction bits kept in exp2 and log2 (log 15). -/
def expPrec : Nat := 256

/-- 2^(0.b₁b₂…) in units of 2^−expPrec, rounded down at each product: `root` is 2^(2^−k) for the next bit k of the fraction,
whose n bits lie in `frac` from the top. -/
def exp2Frac (frac : Nat) : Nat → Nat → Nat → Nat
  | 0, _, acc => acc
  | n + 1, root, acc => exp2Frac frac n (isqrt (root * 2 ^ expPrec)) (if frac.testBit n then acc * root / 2 ^ expPrec else acc)

/-- 2^a, rounded from a value good to about 2^−240 of itself (R73, log 15). -/
def fpExp2 : Fp → Exact
  | .nan n f => .nan n f
  | .inf n => if n then .zero false else .inf false
  | .fin neg m e =>
    if m = 0 then .num false 1 0 false
    else if 0 ≤ e then .num false 1 (signedMant neg (m * 2 ^ min e.toNat 16)) false
    else
      let w := (-e).toNat
      let t := signedMant neg m
      let n := t / (2 ^ w : Nat)
      let frac := (t % (2 ^ w : Nat)).toNat
      if frac = 0 then .num false 1 n false
      else .num false (exp2Frac frac w (isqrt (2 * 2 ^ (2 * expPrec))) (2 ^ expPrec)) (n - expPrec) true

/-- The first n bits of log2 of x × 2^−1024, where x × 2^−1024 lies from 1 to 2: by repeated squaring. -/
def log2Bits : Nat → Nat → Nat → Nat
  | 0, _, acc => acc
  | n + 1, x, acc =>
    let y := x * x / 2 ^ 1024
    if y ≥ 2 ^ 1025 then log2Bits n (y / 2) (2 * acc + 1) else log2Bits n y (2 * acc)

/-- log2 a, rounded from a value good to about 2^−256 (R73, R85, log 15). -/
def fpLog2 : Fp → Exact
  | .nan n f => .nan n f
  | .inf n => if n then .invalid else .inf false
  | .fin n m e =>
    if m = 0 then .inf true
    else if n then .invalid
    else
      let k : Int := e + (bitLen m : Int) - 1
      if m = 2 ^ (bitLen m - 1) then exactInt k
      else
        let b := log2Bits expPrec (m * 2 ^ (1024 - (bitLen m - 1))) 0
        let v := k * (2 ^ expPrec : Nat) + b
        if 0 ≤ v then .num false v.toNat (-(expPrec : Int)) true else .num true (-v - 1).toNat (-(expPrec : Int)) true

/-- Where a finite value lies, as a fraction with a common exponent: the order of two values that are not NaNs. -/
def fpLess : Fp → Fp → Bool
  | .inf n, .inf m => n && !m
  | .inf n, .fin _ _ _ => n
  | .fin _ _ _, .inf m => !m
  | .fin na ma ea, .fin nb mb eb =>
    let e := min ea eb
    decide (signedMant na (ma * 2 ^ (ea - e).toNat) < signedMant nb (mb * 2 ^ (eb - e).toNat))
  | _, _ => false

/-- Neither is a NaN and they are equal, −0 and +0 among them (R124). -/
def fpEqual : Fp → Fp → Bool
  | .inf n, .inf m => n == m
  | .fin na ma ea, .fin nb mb eb =>
    let e := min ea eb
    decide (signedMant na (ma * 2 ^ (ea - e).toNat) = signedMant nb (mb * 2 ^ (eb - e).toNat))
  | _, _ => false

/-- A value's sign. -/
def Fp.neg : Fp → Bool
  | .nan n _ => n
  | .inf n => n
  | .fin n _ _ => n

/-- The order of `vmax` and its kin, in which +0 is greater than −0 (R91, R120). -/
def fpBelow (a b : Fp) : Bool := fpLess a b || (fpEqual a b && a.neg && !b.neg)

/-- A NaN pattern with its quiet bit set (R85). -/
def quieted (f : Fmt) (x : Nat) : Nat :=
  match Fp.of f x with
  | .nan neg frac => nanBits f neg frac true
  | _ => x

/-- A floating value rounded to an integer and clamped; NaN gives 0 (R83). -/
def fpToInt (rm : Rm) (rnd : Nat) (lo hi : Int) : Fp → Int
  | .nan _ _ => 0
  | .inf n => if n then lo else hi
  | .fin n m e =>
    if m = 0 then 0
    else if 130 < (bitLen m : Int) + e then (if n then lo else hi)
    else max lo (min hi (signedMant n (quanta rm rnd n m e false 0)))

/-- The least value of an integer format (R70). -/
def Fmt.intMin (f : Fmt) : Int := if Fmt.isSigned f then -((2 ^ (Fmt.ew f - 1) : Nat) : Int) else 0
/-- The greatest value of an integer format (R70). -/
def Fmt.intMax (f : Fmt) : Int := if Fmt.isSigned f then ((2 ^ (Fmt.ew f - 1) : Nat) : Int) - 1 else ((2 ^ Fmt.ew f : Nat) : Int) - 1

/-- The value of an integer pattern (R70). -/
def intVal (f : Fmt) (x : Nat) : Int := if Fmt.isSigned f then signedOf (Fmt.ew f) x else ((x % 2 ^ Fmt.ew f : Nat) : Int)

/-- An exact integer narrowed to a format (R71). -/
def narrow (f : Fmt) (sat : Bool) (x : Int) : Nat :=
  bitsOfInt (Fmt.ew f) (if sat then max (Fmt.intMin f) (min (Fmt.intMax f) x) else x)

/-- The type of a scale byte (R74). -/
def scaleType (byte : Nat) : Nat := byte / 64 % 4

/-- Twice the fixed point of the values of a type: a code's value is `codeMant` × 2^`codeExp` (R75). -/
def codeExp (ty : Nat) : Int :=
  match ty with
  | 0 => 0
  | 1 => -1
  | 2 => -6
  | _ => 0

/-- The magnitude of a magnitude field of a sign–magnitude type, in units of `codeExp` (R75). -/
def fieldMag (ty c : Nat) : Nat :=
  match ty with
  | 1 => [0, 1, 2, 3, 4, 6, 8, 12].getD c 0
  | 2 => if c = 0 then 0 else 2 ^ (c - 1)
  | _ => [0, 1, 2, 3, 4, 6, 8, 12].getD c 0

/-- A code's sign and magnitude in units of `codeExp` (R75). -/
def codeVal (ty c : Nat) : Bool × Nat :=
  if ty = 0 then (c.testBit 3, if c.testBit 3 then 16 - c % 16 else c % 8) else (c.testBit 3, fieldMag ty (c % 8))

/-- The value of a `b4` code under a scale byte (R76). -/
def b4Value (byte c : Nat) : Fp :=
  if byte % 64 = 0x3F then .nan false (2 ^ 22)
  else
    let v := codeVal (scaleType byte) c
    .fin v.1 v.2 (codeExp (scaleType byte) + (byte % 64 : Nat) - 32)

/-- The magnitudes a type can encode for a sign, ascending, each with the code it has (R75). -/
def codesOf (ty : Nat) (neg : Bool) : List (Nat × Nat) :=
  if ty = 0 then
    if neg then (List.range 9).map fun m => (m, (16 - m) % 16) else (List.range 8).map fun m => (m, m)
  else (List.range 8).map fun c => (fieldMag ty c, c + (if neg then 8 else 0))

/-- The code for the magnitude v × 2^exp (in units of `codeExp`) among ascending candidates (R77, R82). -/
def pickCode (rm : Rm) (rnd : Nat) (neg : Bool) (m : Nat) (exp : Int) : List (Nat × Nat) → Nat
  | [] => 0
  | [c] => c.2
  | lo :: hi :: rest =>
    -- compare m × 2^exp with hi: scaled to integers
    let s := (max (-exp) 0).toNat
    let x := m * 2 ^ (max exp 0).toNat
    if hi.1 * 2 ^ s ≤ x then pickCode rm rnd neg m exp (hi :: rest)
    else
      let below := x - lo.1 * 2 ^ s
      let gap := (hi.1 - lo.1) * 2 ^ s
      let up := match rm with
        | .rne => decide (2 * below > gap) || (decide (2 * below = gap) && decide (lo.2 % 2 = 1))
        | .rtz => false
        | .rdn => neg && decide (below ≠ 0)
        | .rup => !neg && decide (below ≠ 0)
        | .sr => decide (rnd < below * 2 ^ 24 / gap)
      if up then hi.2 else lo.2

/-- A value that is no NaN encoded under a scale byte (R77). -/
def b4Encode (rm : Rm) (rnd : Nat) (byte : Nat) (x : Fp) : Nat :=
  let ty := scaleType byte
  match x with
  | .nan _ _ => 0
  | .inf neg => ((codesOf ty neg).getLastD (0, 0)).2
  | .fin neg m e =>
    let exp : Int := e - ((byte % 64 : Nat) - 32) - codeExp ty
    if 40 < (bitLen m : Int) + exp then ((codesOf ty neg).getLastD (0, 0)).2
    else if (bitLen m : Int) + exp < -60 then pickCode rm rnd neg (if m = 0 then 0 else 1) (-60) (codesOf ty neg)
    else pickCode rm rnd neg m exp (codesOf ty neg)

/-- floor(log2) of the largest magnitude among values, infinities counting as the largest `fp32`; none when all are zero
(R77). -/
def largestLog (xs : List Fp) : Option Int :=
  xs.foldl (fun acc x => match x with
    | .nan _ _ => acc
    | .inf _ => some (match acc with | none => 127 | some a => max a 127)
    | .fin _ m e => if m = 0 then acc else
      let l : Int := (bitLen m : Int) - 1 + e
      some (match acc with | none => l | some a => max a l)) none

/-- The scale byte an instruction chooses for a block of a type (R77). -/
def chooseScale (ty : Nat) (xs : List Fp) : Nat :=
  let top : Int := match ty with | 0 | 1 => 2 | 2 => 0 | _ => 3
  match largestLog xs with
  | none => ty * 64
  | some l => ty * 64 + (min (max (l - top + 32) 0) 0x3E).toNat

/-- The engines' sum of two `fp32` patterns, and whether it generated a NaN (R78, R84, R86). -/
def engineAdd (pc : Word64) (ln a b : Nat) : Nat × Bool := (engineCtx pc).round 0 ln (fpAdd .rne (Fp.of .fp32 a) (Fp.of .fp32 b))

/-- One level of the engines' pairwise tree (R89, R92). -/
def engineLevel (pc : Word64) (ln : Nat) : List Nat → List Nat × Bool
  | a :: b :: rest =>
    let r := engineAdd pc ln a b
    let t := engineLevel pc ln rest
    (r.1 :: t.1, r.2 || t.2)
  | l => (l, false)

/-- The engines' pairwise tree of n levels over `fp32` patterns, and whether a node generated a NaN (R89, R326). -/
def engineTree (pc : Word64) (ln : Nat) : Nat → List Nat → Nat × Bool
  | 0, xs => (xs.headD 0, false)
  | n + 1, xs =>
    let r := engineLevel pc ln xs
    let t := engineTree pc ln n r.1
    (t.1, r.2 || t.2)

end Sys2Proof.Machine
end

