-- ==== Sys2Proof/Machine/Monad.lean ====
section
/-! DEFINITION. The form of an instruction's meaning: a computation over the state that ends in a value, or stops because
the instruction traps or waits at issue. -/

namespace Sys2Proof.Machine

/-- Why an instruction does not retire. `keep` says that what it has done so far stands (R148); otherwise the instruction
has changed nothing (R36, R257). -/
inductive Stop where
  /-- It raises a cause of R37, with the value of `etval` and the subcode. -/
  | trap (cause : BitVec 8) (etval : Word64) (sub : BitVec 5) (keep : Bool)
  /-- It waits, and issues again later. -/
  | wait (w : Wait) (keep : Bool)
  /-- The state holds no hart at the slot being issued. -/
  | noHart
  deriving DecidableEq, Repr

/-- Computations of an instruction's meaning. -/
abbrev M := EStateM Stop State

/-- Raise a cause before anything has changed. -/
def trap {α : Type} (cause : BitVec 8) (etval : Word64) (sub : BitVec 5 := 0) : M α := throw (.trap cause etval sub false)

/-- Wait at issue. -/
def waitFor {α : Type} (w : Wait) : M α := throw (.wait w false)

/-- Run a part; if it stops, undo what it did and answer why. -/
def attempt {α : Type} (x : M α) : M (Except Stop α) := fun s =>
  match x s with
  | .ok a s' => .ok (.ok a) s'
  | .error e _ => .ok (.error e) s

/-- What a part would answer, with nothing done. -/
def probe {α : Type} (x : M α) : M α := fun s =>
  match x s with
  | .ok a _ => .ok a s
  | .error e _ => .error e s

/-- Run a part whose stops let everything done so far stand. -/
def keeping {α : Type} (x : M α) : M α := fun s =>
  match x s with
  | .ok a s' => .ok a s'
  | .error (.trap c v b _) s' => .error (.trap c v b true) s'
  | .error (.wait w _) s' => .error (.wait w true) s'
  | .error .noHart s' => .error .noHart s'

/-- A free value (log 5). -/
def freeWord : M Word64 := do
  let s ← get
  set { s with freeCtr := s.freeCtr + 1 }
  pure (Config.freeWord s.freeCtr)

/-- A free choice (log 5). -/
def freeBool : M Bool := do
  let s ← get
  set { s with freeCtr := s.freeCtr + 1 }
  pure (Config.freeBool s.freeCtr)

/-- A free number of n bytes (log 5). -/
def freeBytes (n : Nat) : M Nat := do
  let s ← get
  set { s with freeCtr := s.freeCtr + 1 }
  pure (Config.freeNumber s.freeCtr % 2 ^ (8 * n))

/-- A number for a group, a kernel, a transfer, a move or a drain (log 4). -/
def newId : M Nat := do
  let s ← get
  set { s with nextId := s.nextId + 1 }
  pure s.nextId

/-- The hart at the slot being issued. -/
def State.hart (s : State) : Option Hart := SMap.get? s.harts s.curSlot

/-- The state with the hart at the slot being issued replaced. -/
def State.putHart (s : State) (h : Hart) : State := { s with harts := SMap.put s.harts s.curSlot h }

/-- The hart being issued. -/
def getHart : M Hart := do
  let s ← get
  match s.hart with
  | some h => pure h
  | none => throw .noHart

/-- Replace the hart being issued. -/
def setHart (h : Hart) : M Unit := modify fun s => s.putHart h

/-- Change the hart being issued. -/
def modHart (f : Hart → Hart) : M Unit := do
  let h ← getHart
  setHart (f h)

/-- The stream being issued. -/
def curStream : M StreamId := do
  let s ← get
  pure s.curStream

/-- The word being issued, zero-extended (R36). -/
def curWord : M Word64 := do
  let s ← get
  pure (s.curWord.setWidth 64)

/-- Raise a cause whose `etval` is the word. -/
def trapWord {α : Type} (cause : BitVec 8) (sub : BitVec 5 := 0) : M α := do
  let w ← curWord
  trap cause w sub

/-- The core of a slot (R251). -/
def coreOfSlot (slot : Nat) : Nat := slot / 16

/-- The die of a core (R10). -/
def dieOfCore (core : Nat) : Nat := core / 16

/-- A core of the device. -/
def State.core (s : State) (c : Nat) : Core := s.cores.getD c .start

/-- The state with one core changed. -/
def State.modCore (s : State) (c : Nat) (f : Core → Core) : State :=
  if h : c < 64 then { s with cores := s.cores.set c (f s.cores[c]) } else s

/-- Change a core. -/
def modCore (c : Nat) (f : Core → Core) : M Unit := modify fun s => s.modCore c f

/-- Repeat a part for each member of a list, in order. -/
def each {α : Type} : List α → (α → M Unit) → M Unit
  | [], _ => pure ()
  | a :: l, f => do
    f a
    each l f

/-- Map a part over a list, in order. -/
def eachMap {α β : Type} : List α → (α → M β) → M (List β)
  | [], _ => pure []
  | a :: l, f => do
    let b ← f a
    let bs ← eachMap l f
    pure (b :: bs)

/-- Fold a part over a list, in order. -/
def eachFold {α β : Type} : List α → β → (β → α → M β) → M β
  | [], b, _ => pure b
  | a :: l, b, f => do
    let b' ← f b a
    eachFold l b' f

end Sys2Proof.Machine
end

