-- ==== Sys2Proof/Machine/Mem.lean ====
section
/-! DEFINITION. Memory at its homes: reads and writes by physical address under a key slot, the local stores, poison, the
stores in flight, and the values a load may take from an L1 (R143, R161 to R164, R209, R217, R255, R382). -/

namespace Sys2Proof.Machine

/-- The key loaded in a slot (R256). -/
def State.keyOf (s : State) (slot : Nat) : Option (BitVec 512) := SMap.get? s.keys slot

/-- The sectors that n bytes from an address touch. -/
def sectorsOf (a n : Nat) : List Nat := (List.range ((a + n + 31) / 32 - a / 32)).map (a / 32 + ·)

/-- A sector lies in memory that is not in service: in S1 in the stacks of dies 1 to 3, and behind a CXL port that is not up (R17, R20, R378,
log 29). -/
def State.absent (s : State) (sec : Nat) : Bool :=
  (s.level != .s2 && decide (2 * 0xC00000000 ≤ 32 * sec) && decide (32 * sec < 0x6000000000)) ||
    (decide (0x1000000000000 ≤ 32 * sec) && (s.cxl[(32 * sec - 0x1000000000000) / 0x40000000000]?).any (· != .up))

/-- The bytes of a sector read true under a key slot: its memory is there, and nothing wrote it under another key (R17, R255, R256). -/
def State.sectorReadable (s : State) (slot sec : Nat) : Bool :=
  !s.absent sec && match SMap.get? s.sectorKey sec with
    | none => true
    | some k => s.keyOf slot == some k

/-- One byte at its home, unspecified under another key than the one it was written under (R217, R255). -/
def readByte (slot a : Nat) : M Nat := do
  let s ← get
  if s.sectorReadable slot (a / 32) then pure (s.mem.read a).toNat else freeBytes 1

/-- n bytes at their home under a key slot. -/
def readPA (slot a n : Nat) : M Nat := do
  let s ← get
  if (sectorsOf a n).all (s.sectorReadable slot) then pure (s.mem.readLE a n)
  else eachFold (List.range n) 0 fun v i => do
    let b ← readByte slot (a + i)
    pure (v + b * 2 ^ (8 * i))

/-- Take a sector under a key slot for a write: what it held under another key becomes unspecified (R255). -/
def claimSector (slot sec : Nat) : M Unit := do
  let s ← get
  match s.keyOf slot with
  | none => pure ()
  | some k =>
    if s.sectorReadable slot sec then
      set { s with sectorKey := SMap.put s.sectorKey sec k }
    else
      let v ← freeBytes 32
      modify fun s => { s with mem := s.mem.writeLE (32 * sec) v 32, sectorKey := SMap.put s.sectorKey sec k }

/-- What has been written into a sector of memory that is not in service is unspecified (log 29). -/
def loseAbsent (sec : Nat) : M Unit := do
  let s ← get
  if s.absent sec then do
    let v ← freeBytes 32
    modify fun s => { s with mem := s.mem.writeLE (32 * sec) v 32 }
  else pure ()

/-- Write the low n bytes of a number at their home under a key slot. -/
def writePA (slot a v n : Nat) : M Unit := do
  each (sectorsOf a n) (claimSector slot)
  modify fun s => { s with mem := s.mem.writeLE a v n }
  each (sectorsOf a n) loseAbsent

/-- A byte with the masked bits replaced (R145). -/
def maskByte (old val mask : Byte) : Byte := (old &&& ~~~mask) ||| (val &&& mask)

/-- The index of a byte of a local store. -/
def lsIndex (core off : Nat) : Nat := core * 2 ^ 20 + off

/-- Write one byte of a store at its home. A byte of a peer's memory has its home outside the device (log 17). -/
def writeStoreByte (slot : Nat) (b : StoreByte) : M Unit :=
  match b.loc with
  | .pa a => do
    claimSector slot (a / 32)
    modify fun s => { s with mem := s.mem.write a (maskByte (s.mem.read a) b.val b.mask) }
    loseAbsent (a / 32)
  | .ls c o => modify fun s => { s with ls := s.ls.write (lsIndex c o) (maskByte (s.ls.read (lsIndex c o)) b.val b.mask) }
  | .peer _ _ | .nowhere _ => pure ()

/-- Remove a sector from a core's L1 (R143). -/
def dropL1 (core sec : Nat) : M Unit := modCore core fun c => { c with l1 := SMap.del c.l1 sec }

/-- The cell in which a byte of a store lies, and its bits there. -/
def StoreByte.cell (b : StoreByte) : Option (Cell × Nat) :=
  match b.loc with
  | .pa a => some (.sector (a / 32), b.mask.toNat * 2 ^ (8 * (a % 32)))
  | .ls c o => some (.word (lsIndex c o / 8), b.mask.toNat * 2 ^ (8 * (o % 8)))
  | .peer _ _ | .nowhere _ => none

/-- The bits of a cell that some bytes write. -/
def cellBits (bytes : List StoreByte) (c : Cell) : Nat :=
  bytes.foldl (fun m b => match b.cell with | some (c', x) => if c' = c then m ||| x else m | none => m) 0

/-- Every bit of a cell. -/
def Cell.full : Cell → Nat
  | .sector _ => 2 ^ 256 - 1
  | .word _ => 2 ^ 64 - 1

/-- A sector of memory is poisoned, or a word of it that a slice holds is (R382). -/
def State.sectorPoisoned (s : State) (x : Nat) : Bool := s.poison.contains x || s.slicePoison.any fun w => w / 4 == x

/-- A sector of memory without its poison. -/
def State.soundSector (s : State) (x : Nat) : State :=
  { s with poison := delNum s.poison x, slicePoison := s.slicePoison.filter fun w => w / 4 != x }

/-- A cell is poisoned (R382). -/
def State.cellPoisoned (s : State) : Cell → Bool
  | .sector x => s.sectorPoisoned x
  | .word x => s.lsPoison.contains x

/-- A cell without its poison. -/
def State.unpoison (s : State) : Cell → State
  | .sector x => s.soundSector x
  | .word x => { s with lsPoison := delNum s.lsPoison x }

/-- The poisoned cells that some bytes touch. -/
def State.poisonedCells (s : State) (bytes : List StoreByte) : List Cell :=
  ((bytes.filterMap StoreByte.cell).map Prod.fst).eraseDups.filter s.cellPoisoned

/-- A stream's stores: those that it issued, and, after a trap or a return, those that its hart issued before (R264). -/
def PendingStore.of (p : PendingStore) (slot : Nat) (st : StreamId) : Bool := decide (p.slot = slot) && (decide (p.stream = st) || p.both)

/-- Stores note what they write of poisoned cells, for the instruction or transfer they belong to (R140, R382). -/
def State.noteCover (s : State) (slot : Nat) (st : StreamId) (job : Nat) (bytes : List StoreByte) : State :=
  (s.poisonedCells bytes).foldl (fun s c =>
    let mine (v : Cover) : Bool := decide (v.slot = slot) && decide (v.stream = st) && decide (v.job = job) && decide (v.cell = c)
    let old := (s.cover.find? mine).elim 0 Cover.mask
    { s with cover := s.cover.filter (fun v => !mine v) ++ [{ slot := slot, stream := st, job := job, cell := c, mask := old ||| cellBits bytes c }] }) s

/-- What an instruction or a transfer has noted and not covered whole is forgotten. -/
def State.endCover (s : State) (slot : Nat) (st : StreamId) (job : Nat) : State :=
  { s with cover := s.cover.filter fun v => !(decide (v.slot = slot) && decide (v.stream = st) && decide (v.job = job)) || v.mask == v.cell.full }

/-- A store has performed: a cell loses its poison when the store writes it whole, or when the store's instruction does and no other
store of the stream to it is in flight (R140, R382). -/
def State.clearBy (s : State) (p : PendingStore) : State :=
  (s.poisonedCells p.bytes).foldl (fun s c =>
    let mine (v : Cover) : Bool := decide (v.slot = p.slot) && decide (v.stream = p.stream) && decide (v.cell = c)
    if cellBits p.bytes c = c.full ∨ ((s.cover.any fun v => mine v && v.mask == c.full) ∧
        (s.pending.any fun q => q.of p.slot p.stream && cellBits q.bytes c != 0) = false) then
      { s.unpoison c with cover := s.cover.filter fun v => !mine v }
    else s) s

/-- The wider of two scopes. -/
def Scope.wider (a b : Scope) : Scope :=
  match a, b with
  | .fab, _ | _, .fab => .fab
  | .dev, _ | _, .dev => .dev
  | .die, _ | _, .die => .die
  | .core, _ | _, .core => .core
  | .hart, .hart => .hart

/-- A hart at a slot is inside a scope of the hart at another (R12, R13, log 6). -/
def Scope.holds (sc : Scope) (slot other : Nat) : Bool :=
  match sc with
  | .hart => decide (slot = other)
  | .core => decide (coreOfSlot slot = coreOfSlot other)
  | .die => decide (dieOfCore (coreOfSlot slot) = dieOfCore (coreOfSlot other))
  | .dev | .fab => true

/-- A store that must perform before any observer inside a scope makes another access (R13). -/
def PendingStore.dueAt (p : PendingStore) (sc : Scope) : PendingStore := { p with due := some (p.due.elim sc fun d => Scope.wider d sc) }

/-- A store has performed: those of its stream's earlier strips come before it toward the observers on its core (R165). -/
def State.stripsDue (s : State) (p : PendingStore) : State :=
  { s with pending := s.pending.map fun q => if q.of p.slot p.stream ∧ q.strip < p.strip then q.dueAt .core else q }

/-- The ports of a fabric entry that are up or degraded (R361, R364). -/
def State.peerPorts (s : State) (e : FabEntry) : List Nat :=
  (List.range 8).filter fun p => e.ports.getLsbD p && ((s.voltor.getD p .start).state == .up || (s.voltor.getD p .start).state == .degraded)

/-- Some port of a fabric entry is up or degraded (R364). -/
def State.peerReached (s : State) (e : FabEntry) : Bool := !(s.peerPorts e).isEmpty

/-- The ports that can take n flits for a peer: up or degraded, with room in the replay buffer (R361). -/
def State.openPorts (s : State) (f n : Nat) : List Nat :=
  match s.fabric[f]? with
  | none => []
  | some e => if e.valid then (s.peerPorts e).filter fun p => decide ((s.voltor.getD p .start).replay.length + n ≤ 256) else []

/-- A route to a peer that is closed for the time to n flits: a port that is training, or whose replay buffer has no room for them (R361, R364). -/
def State.peerWaits (s : State) (f n : Nat) : Bool :=
  (s.openPorts f n).isEmpty && match s.fabric[f]? with
    | none => false
    | some e => e.valid && (s.peerReached e || (List.range 8).any fun p => e.ports.getLsbD p && (s.voltor.getD p .start).state == .training)

/-- What goes out to a peer: a load of n bytes at a place there, a store, the answer to an access of the peer, that this device has placed its
part of a fabric kernel, or that it begins to collect a context, with the deadline (R360, R365). -/
inductive PeerMsg where
  | load (a n : Nat)
  | store (p : PendingStore)
  | answer (v n : Nat)
  | placed (asid kid : Nat)
  | pause (asid deadline : Nat)
  deriving DecidableEq, Repr

/-- The numbers that a message says. -/
def PeerMsg.words : PeerMsg → List Nat
  | .load a n => [0, a, n]
  | .store p => 1 :: p.bytes.flatMap fun b => [match b.loc with | .peer _ a => a | _ => 0, b.val.toNat, b.mask.toNat]
  | .answer v n => [2, v, n]
  | .placed asid kid => [3, asid, kid]
  | .pause asid d => [4, asid, d]

/-- How many flits a message takes: 224 bytes of payload go in one (R360). -/
def PeerMsg.flits : PeerMsg → Nat
  | .store p => (p.bytes.length + 223) / 224
  | .answer _ n => max 1 ((n + 223) / 224)
  | _ => 1

/-- The store that a message carries. -/
def PeerMsg.carries : PeerMsg → Option PendingStore
  | .store p => some p
  | _ => none

/-- A flit: a header with the port's next sequence number, a part of a message, the highest sequence number received intact from the other end,
and the CRC. What the spec gives no place is free (R360, log 28). -/
def flitOf (seq ack : BitVec 16) (free : Nat) (payload : BitVec 1792) : BitVec 2048 :=
  let body := Config.withAck (BitVec.ofNat 64 (free / 2 ^ 128)) ack ++ payload ++ Config.withSeq (BitVec.ofNat 128 free) seq
  Config.crc64 body ++ body

/-- A port has sent a flit, and keeps it for replay (R360, R361). -/
def Voltor.sent (v : Voltor) (free : Nat) (payload : BitVec 1792) (store : Option PendingStore) : Voltor :=
  { v with txSeq := v.txSeq + 1
           replay := v.replay ++ [{ seq := v.txSeq, bits := flitOf v.txSeq (v.rxSeq - 1) free payload, store := store }] }

/-- A message leaves by a port, which keeps its flits for replay (R360, R361). -/
def sendOn (port : Nat) (m : PeerMsg) : M Unit :=
  each (List.range m.flits) fun i => do
    let x ← freeBytes 24
    modify fun s => { s with voltor := s.voltor.mapIdx fun j v =>
      if j = port then v.sent x (Config.flitPayload m.words i) (if i = 0 then m.carries else none) else v }

/-- A message for a peer leaves by one of the ports that can take a flit; with none, nothing does (R360, R361, R364). -/
def sendFlit (f : Nat) (m : PeerMsg) : M Unit := do
  let s ← get
  match s.openPorts f m.flits with
  | [] => pure ()
  | [p] => sendOn p m
  | p :: ps => do
    let w ← freeWord
    sendOn ((p :: ps).getD (w.toNat % (ps.length + 1)) p) m

/-- While the work of an engine or of the device itself goes on, the other end acknowledges what it has received: with every port to a peer full,
the n oldest flits leave a replay buffer (R361, log 17). -/
def makeRoom (f n : Nat) : M Unit := modify fun s =>
  match s.openPorts f n, (s.fabric[f]?).elim [] s.peerPorts with
  | [], p :: _ => { s with voltor := s.voltor.mapIdx fun j v => if j = p then { v with replay := v.replay.drop n } else v }
  | _, _ => s

/-- A port of a peer that trains: what the device tells the peer goes out once its training is done (R361). -/
def State.trainingPort (s : State) (f : Nat) : Option Nat :=
  (s.fabric[f]?).bind fun e => (List.range 8).find? fun p => e.ports.getLsbD p && (s.voltor.getD p .start).state == .training

/-- The device tells a peer something on its own account (R361, R365). -/
def tellPeer (f : Nat) (m : PeerMsg) : M Unit := do
  makeRoom f m.flits
  let s ← get
  match s.openPorts f m.flits, s.trainingPort f with
  | [], some p => sendOn p m
  | _, _ => sendFlit f m

/-- The device tells every other member of its fabric (R362, R365). -/
def tellPeers (m : PeerMsg) : M Unit := do
  let s ← get
  each ((List.range s.fabric.length).filter fun f => decide (f ≠ s.self) && (s.fabric[f]?).any FabEntry.valid) fun f => tellPeer f m

/-- The peer whose memory a store writes, and the place there. -/
def PendingStore.peer (p : PendingStore) : Option (Nat × Nat) :=
  p.bytes.findSome? fun b => match b.loc with
    | .peer f a => some (f, a)
    | _ => none

/-- A store to a peer that cannot go out yet: in S1, or while its route is closed for the time (R20, R361). -/
def State.stays (s : State) (p : PendingStore) : Bool :=
  match p.peer with
  | none => false
  | some (f, _) => s.level != .s2 || s.peerWaits f (PeerMsg.store p).flits

/-- The place n bytes further on. -/
def Loc.add (l : Loc) (n : Nat) : Loc :=
  match l with
  | .pa a => .pa (a + n)
  | .ls c o => .ls c (o + n)
  | .peer f a => .peer f (a + n)
  | .nowhere a => .nowhere (a + n)

/-- Stores in flight with one that has not left put back in its place among them, by the order of issue. -/
def putBack (p : PendingStore) : List PendingStore → List PendingStore
  | [] => [p]
  | q :: l => if p.op < q.op then p :: q :: l else q :: putBack p l

/-- A store to a peer leaves the device; while its route is closed for the time it stays in flight; with no route left it is dropped and to be
reported (R361, R364). -/
def leave (p : PendingStore) : M Unit :=
  match p.peer with
  | none => pure ()
  | some (f, a) => do
    let s ← get
    if s.stays p then modify fun s => { s with pending := putBack p s.pending }
    else if (s.openPorts f (PeerMsg.store p).flits).isEmpty then modify fun s => { s with lost := s.lost ++ [{ asid := p.asid, slot := p.slot, peer := f, off := a }] }
    else sendFlit f (.store p)

/-- What a store that performs writes into the slots of spill windows whose registers are not resident (R66). -/
def State.noteHits (s : State) (p : PendingStore) : State :=
  let written (e : SpillHome) : List SpillHit := (List.range e.len).filterMap fun i =>
    if p.bytes.any fun b => b.loc == e.loc.add i then some { asid := e.asid, slot := e.slot, off := e.off + i, len := 1 } else none
  { s with hits := s.hits ++ s.spilled.flatMap written }

/-- A store performs at its home: its bytes are written, its core's L1 drops what it held of them, and what it covers whole loses
its poison (R143, R161, R382). -/
def performRaw (p : PendingStore) : M Unit := do
  each p.bytes fun b => do
    writeStoreByte p.key b
    match b.loc with
    | .pa a => if p.drops then dropL1 (coreOfSlot p.slot) (a / 32) else pure ()
    | _ => pure ()
  modify fun s => ((s.clearBy p).stripsDue p).noteHits p
  leave p

/-- A store was translated through a table entry that lies in n bytes from an address (R209). -/
def PendingStore.throughEntry (p : PendingStore) (a n : Nat) : Bool := p.via.any fun e => decide (e < a + n) && decide (a < e + 16)

/-- A store was translated through a table entry that another store changes (R209). -/
def PendingStore.throughStore (p q : PendingStore) : Bool := q.bytes.any fun b => match b.loc with
  | .pa a => p.throughEntry a 1
  | _ => false

/-- An earlier store of a stream comes before a later access of it to a common byte: they are both scalar or lie in different strips, or an order
of the stream or a trap has come since (R164, R167, R264). -/
def PendingStore.orders (p : PendingStore) (scalar : Bool) (strip : Nat) : Bool :=
  (p.scalar && scalar) || decide (p.strip ≠ strip) || p.due.isSome || p.both

/-- An earlier store in flight of a stream performs before a later one: they touch a common byte, and R164 orders them, or an order since. -/
def PendingStore.before (p q : PendingStore) : Bool :=
  p.of q.slot q.stream && p.orders q.scalar q.strip && q.bytes.any fun b => p.bytes.any fun c => b.loc == c.loc

/-- The stores in flight that cannot perform yet, by position, found from those already known: one that cannot go out, one that changes an entry
through which such a store was translated, and one that comes after such a store (R20, R164, R209). -/
def State.keptRound (s : State) (k : List Bool) : List Bool :=
  s.pending.zipIdx.map fun (p, i) => s.stays p || (s.pending.zip k).zipIdx.any fun ((q, b), j) =>
    b && decide (j ≠ i) && (q.throughStore p || (decide (j < i) && q.before p))

/-- The same after n rounds. -/
def State.keptAfter (s : State) : Nat → List Bool
  | 0 => s.pending.map s.stays
  | n + 1 => s.keptRound (s.keptAfter n)

/-- The stores in flight, each with whether it cannot perform yet. -/
def State.kept (s : State) : List (PendingStore × Bool) :=
  if s.pending.any s.stays then s.pending.zip (s.keptAfter s.pending.length) else s.pending.map fun p => (p, false)

/-- Some store in flight that meets a condition cannot perform yet (R20, R158). -/
def State.keeps (s : State) (f : PendingStore → Bool) : Bool := s.kept.any fun x => x.2 && f x.1

/-- The stores in flight, each with whether it meets a condition and can perform, or comes before one that does (R164). -/
def withEarlier (f : PendingStore → Bool) : List (PendingStore × Bool) → List (PendingStore × Bool)
  | [] => []
  | (p, k) :: l =>
    let r := withEarlier f l
    (p, f p && !k || r.any fun q => q.2 && p.before q.1) :: r

/-- Take the stores in flight that meet a condition and can perform, and those that come before them, in issue order. -/
def takePending (f : PendingStore → Bool) : M (List PendingStore) := do
  let s ← get
  let ps : List (PendingStore × Bool) := withEarlier f s.kept
  set { s with pending := (ps.filter fun (x : PendingStore × Bool) => !x.2).map Prod.fst }
  pure ((ps.filter fun x => x.2).map Prod.fst)

/-- A store performs, after every store translated through an entry that it changes (R209). The number bounds how deep
such stores can lie behind one another. -/
def perform : Nat → PendingStore → M Unit
  | 0, p => performRaw p
  | n + 1, p => do
    let first ← takePending fun q => q.throughStore p
    each first (perform n)
    performRaw p

/-- Perform the stores in flight that meet a condition, in issue order. -/
def drain (f : PendingStore → Bool) : M Unit := do
  let s ← get
  let ps ← takePending f
  each ps (perform s.pending.length)

/-- Perform the stores in flight that were translated through the entries in n bytes from an address (R209). -/
def drainVia (a n : Nat) : M Unit := drain fun p => p.throughEntry a n

/-- A store changes a table entry through which a store in flight was translated that cannot perform yet (R209). -/
def State.blocks (s : State) (p : PendingStore) : Bool := s.keeps fun q => q.throughStore p

/-- A table entry changes only once every store in flight translated through it can perform (R209). -/
def awaitEntry (a n : Nat) : M Unit := do
  let s ← get
  if s.keeps fun p => p.throughEntry a n then waitFor .level else pure ()

/-- A write that the device makes on its own account by physical address, under key slot 0 (R255), after every store
translated through an entry that it changes (R209). -/
def hwWrite (a v n : Nat) : M Unit := do
  drainVia a n
  writePA 0 a v n

/-- A read that the device makes on its own account by physical address (R255). -/
def hwRead (a n : Nat) : M Nat := readPA 0 a n

/-- Some byte of the range is poisoned (R382). -/
def State.poisoned (s : State) (a n : Nat) : Bool :=
  (sectorsOf a n).any (fun x => s.poison.contains x) || s.slicePoison.any fun w => decide (a < 8 * w + 8) && decide (8 * w < a + n)

/-- Some byte of a local store's range is poisoned (R382). -/
def State.lsPoisoned (s : State) (core off n : Nat) : Bool :=
  (List.range ((off % 8 + n + 7) / 8)).any fun i => s.lsPoison.contains (lsIndex core off / 8 + i)

/-- Who loads, for what a load may take from elsewhere than the home (R143). -/
structure Loader where
  slot : Nat
  /-- The stream's last refresh point. -/
  refresh : Nat
  /-- It is a load of the stream itself, after which the stream takes nothing older from the L1. -/
  own : Bool
  deriving DecidableEq, Repr

/-- A store touches n bytes at a place. -/
def PendingStore.touches (p : PendingStore) (l : Loc) (n : Nat) : Bool := p.bytes.any fun b => (List.range n).any fun i => b.loc == l.add i

/-- How a load treats the L1 (R143). -/
inductive LoadVia where
  /-- A plain load: the L1 or the home. -/
  | plain
  /-- A load with `.fr`: the home, refreshing the sector in the L1. -/
  | fresh
  /-- An atomic, a list read or an engine read: the home. -/
  | home
  deriving DecidableEq, Repr

/-- Copy a sector into a core's L1 at this step, with its poisoned words (R382). -/
def installL1 (core key sec : Nat) : M Unit := do
  let s ← get
  if s.sectorReadable key sec && !s.poison.contains sec then
    let line : L1Line :=
      { bytes := BitVec.ofNat 256 (s.mem.readLE (32 * sec) 32), stamp := s.tick, poison := (s.slicePoison.filter fun w => w / 4 == sec).map (· % 4) }
    modCore core fun c => { c with l1 := SMap.put c.l1 sec line }
  else pure ()

/-- n bytes of one sector as a load takes them: from the home, or, for a plain load, from a copy that the core's L1 took at
or after the stream's last refresh point (R143). -/
def loadPA (who : Loader) (via : LoadVia) (key a n : Nat) : M Nat := do
  let home ← readPA key a n
  let s ← get
  let core := coreOfSlot who.slot
  match via with
  | .home =>
    if who.own then each (sectorsOf a n) (dropL1 core) else pure ()
    pure home
  | .fresh =>
    installL1 core key (a / 32)
    pure home
  | .plain =>
    match SMap.get? (s.core core).l1 (a / 32) with
    | some line =>
      let copy := bitsOf line.bytes.toNat (8 * (a % 32)) (8 * n)
      if decide (who.refresh ≤ line.stamp) && copy ≠ home then
        let old ← freeBool
        if old then pure copy
        else
          installL1 core key (a / 32)
          pure home
      else
        installL1 core key (a / 32)
        pure home
    | none =>
      installL1 core key (a / 32)
      pure home

/-- n bytes at a place, as a load of a stream takes them (R143, R161). A peer's memory gives a free value, for which a request goes
out (R360, log 17). -/
def loadLoc (who : Loader) (via : LoadVia) (key : Nat) (l : Loc) (n : Nat) : M Nat :=
  match l with
  | .pa a => loadPA who via key a n
  | .ls c o => do
    let s ← get
    pure (s.ls.readLE (lsIndex c o) n)
  | .peer f x => do
    sendFlit f (.load x n)
    freeBytes n
  | .nowhere _ => freeBytes n

end Sys2Proof.Machine
end

