-- ==== Sys2Proof/Machine/Page.lean ====
section
/-! DEFINITION. The page: table walks, leaves, frame records, the rings of the page control block, overlays and the tier
states (R205 to R223, R385). -/

namespace Sys2Proof.Machine

/-- What an access does at a page (R207). -/
inductive Kind where
  | load | store | fetch
  deriving DecidableEq, Repr

/-- The translation fault of a kind (R207). -/
def Kind.cause : Kind → BitVec 8
  | .load => 0x0A
  | .store => 0x0B
  | .fetch => 0x09

/-- The cause of uncorrectable data for a kind (R207, R258). -/
def Kind.badData : Kind → BitVec 8
  | .fetch => 0x12
  | _ => 0x11

/-- The end of HBM4E (R210). -/
def hbmEnd : Nat := 0x6000000000
/-- The start of the CXL ports (R210). -/
def cxlBase : Nat := 0x1000000000000
/-- The size of a CXL port's part (R210). -/
def cxlSize : Nat := 0x40000000000
/-- The start of the peer windows (R363). -/
def peerBase : Nat := 0x8000000000000
/-- The size of a peer window (R363). -/
def peerSize : Nat := 0x10000000000
/-- The start of the local-store window (R138). -/
def windowBase : Nat := 0x00FFFFFFFFF00000

/-- An address in HBM4E. -/
def inHbm (a : Nat) : Bool := decide (a < hbmEnd)
/-- An address behind a CXL port. -/
def inCxl (a : Nat) : Bool := decide (cxlBase ≤ a) && decide (a < cxlBase + 4 * cxlSize)
/-- The CXL port of an address. -/
def cxlPort (a : Nat) : Nat := (a - cxlBase) / cxlSize
/-- An address in a peer window (R363). -/
def inPeer (a : Nat) : Bool := decide (peerBase ≤ a) && decide (a < peerBase + 512 * peerSize)
/-- The peer of a window address, and the offset in its window. -/
def peerOf (a : Nat) : Nat × Nat := ((a - peerBase) / peerSize, (a - peerBase) % peerSize)

/-- The die whose memory holds a frame (R210). -/
def dieOfFrame (a : Nat) : Nat := if inHbm a then a / 0xC00000000 / 2 else cxlPort a

/-- The home slice of a frame (R210). -/
def homeSlice (frame : Nat) : Nat :=
  let fn := bitsOf frame 16 36
  let h := fn ^^^ (fn >>> 5) ^^^ (fn >>> 10) ^^^ (fn >>> 15) ^^^ (fn >>> 20) ^^^ (fn >>> 25) ^^^ (fn >>> 30) ^^^ (fn >>> 35)
  32 * dieOfFrame frame + h % 32

/-- A leaf entry (R206), its address, and the addresses of the entries of the walk. -/
structure Leaf where
  addr : Nat
  path : List Nat
  frame : Nat
  tier : Nat
  z : Bool
  o : Bool
  a : Bool
  u : Bool
  x : Bool
  w : Bool
  r : Bool
  size : Nat
  ovr : Nat
  raw : Nat
  deriving DecidableEq, Repr

/-- What a walk finds (R205, R207). -/
inductive WalkRes where
  | leaf (l : Leaf)
  | noPath
  | invalid
  | uncorrectable
  deriving DecidableEq, Repr

/-- The fields of a leaf entry (R206). -/
def Leaf.of (addr : Nat) (path : List Nat) (e : Nat) : Leaf :=
  { addr := addr, path := path, frame := bitsOf e 16 36 * 2 ^ 16, tier := bitsOf e 13 3, z := e.testBit 12, o := e.testBit 11
    a := e.testBit 10, u := e.testBit 9, x := e.testBit 8, w := e.testBit 7, r := e.testBit 6
    size := match bitsOf e 2 2 with | 0 => 2 ^ 16 | 1 => 2 ^ 21 | _ => 2 ^ 30
    ovr := bitsOf e 64 52, raw := e }

/-- A word of the page control block (R213). -/
def pcbWord (off : Nat) : M (Option Nat) := do
  let s ← get
  match s.pcb with
  | none => pure none
  | some p => do
    let v ← hwRead (p + off) 8
    pure (some v)

/-- The address of a frame's record; none where no frame has one, as a CXL frame at or beyond the installed count (R211, R213). -/
def frameRecAddr (frame : Nat) : M (Option Nat) := do
  if inHbm frame then
    let hft ← pcbWord 0
    pure (hft.map fun b => b + frame / 2 ^ 16 * 16)
  else if inCxl frame then
    let cft ← pcbWord 8
    let n ← pcbWord 0x10
    pure (if (frame - cxlBase) / 2 ^ 16 < n.getD 0 then cft.map fun b => b + (frame - cxlBase) / 2 ^ 16 * 16 else none)
  else pure none

/-- A frame record (R211). -/
structure FrameRec where
  addr : Nat
  key : Nat
  owner : Nat
  moving : Bool
  frozen : Bool
  evictable : Bool
  pins : Nat
  count : Nat
  valid : Bool
  deriving DecidableEq, Repr

/-- A frame's record; none where the frame has none (R211, R213, R363). -/
def frameRec (frame : Nat) : M (Option FrameRec) := do
  match ← frameRecAddr frame with
  | none => pure none
  | some addr => do
    let e ← hwRead addr 16
    pure (some { addr := addr, key := bitsOf e 116 9, owner := bitsOf e 64 52, moving := e.testBit 51, frozen := e.testBit 50
                 evictable := e.testBit 49, pins := bitsOf e 32 16, count := bitsOf e 0 32
                 valid := bitsOf e 125 3 = 0 ∧ bitsOf e 52 12 = 0 ∧ e.testBit 48 = false })

/-- Write a frame record (R211). -/
def putFrameRec (r : FrameRec) : M Unit :=
  hwWrite r.addr (r.count + r.pins * 2 ^ 32 + r.evictable.toNat * 2 ^ 49 + r.frozen.toNat * 2 ^ 50 + r.moving.toNat * 2 ^ 51 +
    r.owner * 2 ^ 64 + r.key * 2 ^ 116) 16

/-- The frame lies in a mapped region (R207, R211, R363). In S1 the stacks of the dies that are absent count as mapped too: what is read there
is not stated (log 29). -/
def frameMapped (frame : Nat) : M Bool := do
  if inHbm frame then pure true
  else if inCxl frame then
    match ← pcbWord 0x10 with
    | none => pure true
    | some n => pure (decide ((frame - cxlBase) / 2 ^ 16 < n))
  else if inPeer frame then pure (decide ((peerOf frame).2 < hbmEnd))
  else pure false

/-- A leaf entry is valid (R207, R211, R213, R363). -/
def leafValid (l : Leaf) : M Bool := do
  let big := l.size ≠ 2 ^ 16
  let shape := bitsOf l.raw 116 12 = 0 ∧ bitsOf l.raw 52 12 = 0 ∧ bitsOf l.raw 4 2 = 0 ∧ l.tier ≤ 4 ∧ l.frame % l.size = 0 ∧
    ¬ (big ∧ (l.o ∨ l.tier ≠ 0)) ∧ (if l.o then l.ovr % 64 = 0 ∧ inHbm l.ovr else l.ovr = 0) ∧
    ¬ (inPeer l.frame ∧ (l.tier ≠ 0 ∨ l.o ∨ l.z))
  if shape then
    let mapped ← frameMapped l.frame
    if mapped then
      match ← frameRec l.frame with
      | none => pure (decide (l.tier ≤ 2))
      | some r => pure (r.valid && (decide (l.tier ≤ 2) || r.moving))
    else pure false
  else pure false

/-- Walk from a table at a level down to a leaf (R205, R207). A table outside HBM4E and the CXL ports holds no entry. -/
def walkFrom (va : Nat) : List Nat → Nat → List Nat → M WalkRes
  | [], _, _ => pure .noPath
  | level :: rest, table, path => do
    let addr := table + bitsOf va (16 + 10 * level) 10 * 16
    let s ← get
    if !(inHbm addr || inCxl addr) then pure .noPath
    else if s.poisoned addr 16 then pure .uncorrectable
    else
      let e ← hwRead addr 16
      if e.testBit 0 = false then pure .noPath
      else if e.testBit 1 = false then
        if level = 0 ∨ bitsOf e 2 12 ≠ 0 ∨ bitsOf e 52 76 ≠ 0 then pure .invalid
        else walkFrom va rest (bitsOf e 14 38 * 2 ^ 14) (addr :: path)
      else
        let sz := bitsOf e 2 2
        if (level = 1 ∧ sz = 2) ∨ (level = 0 ∧ sz < 2) then
          let l := Leaf.of addr (addr :: path) e
          let ok ← leafValid l
          pure (if ok then .leaf l else .invalid)
        else pure .invalid

/-- Walk the four levels (R205). -/
def walk (root va : Nat) : M WalkRes := walkFrom va [3, 2, 1, 0] root []

/-- An access as translation sees it: the context's table and key slot, whether U is checked, what it does, and the Z a page
must have (none: either). -/
structure Req where
  root : Nat
  key : Nat
  user : Bool
  kind : Kind
  va : Word64
  z : Option Bool
  /-- A store whose line does not change side yet: a `cas` before its comparison (R156). -/
  dry : Bool
  deriving DecidableEq, Repr

/-- Raise a translation fault of the access's kind (R207). -/
def Req.fault {α : Type} (q : Req) (sub : BitVec 5) : M α := trap q.kind.cause q.va sub

/-- Conditions 1 to 5 of R385: the path, the permissions, the key slot, the port or peer, and compression. In S1 an access to a peer is
held, whatever its entry and its ports, and a page in C-promote raises promote-on-touch (R20). R385 does not rank an entry of the fabric table
that is not valid (R364): it stands beside the peer that no port reaches (DEDUCED: log 34). -/
def lookup (q : Req) : M Leaf := do
  match ← walk q.root q.va.toNat with
  | .noPath => q.fault 0
  | .invalid => q.fault 4
  | .uncorrectable => trap q.kind.badData q.va
  | .leaf l => do
    let allowed := match q.kind with
      | .load => l.r
      | .store => l.w
      | .fetch => l.x
    if !allowed || (q.user && !l.u) then q.fault 0
    else
      let s ← get
      if (s.keyOf q.key).isNone then trap 0x15 q.va
      else
        let port ←
          if inPeer l.frame then
            match s.level, s.fabric[(peerOf l.frame).1]? with
            | .s2, none => q.fault 0
            | .s2, some e => if !e.valid then q.fault 0 else pure (s.peerReached e)
            | _, _ => pure true
          else if inCxl l.frame && (l.tier ≠ 2 || s.level == .s2) then pure ((s.cxl.getD (cxlPort l.frame) .untrained) == .up)
          else pure true
        if !port then q.fault 13
        else match q.z with
          | none => pure l
          | some z => if l.z = z then pure l else q.fault 1

/-- An overlay record (R221). -/
structure Overlay where
  addr : Nat
  v : Nat
  ext : Nat
  cc : Nat
  count : Nat
  tail : Nat
  deriving DecidableEq, Repr

/-- Read an overlay record (R221). -/
def readOverlay (addr : Nat) : M Overlay := do
  let e ← hwRead addr 64
  pure { addr := addr, v := bitsOf e 0 256, ext := bitsOf e 256 64, cc := bitsOf e 320 8, count := bitsOf e 328 16, tail := bitsOf e 344 168 }

/-- Write an overlay record (R221). -/
def Overlay.put (o : Overlay) : M Unit := hwWrite o.addr (o.v + o.ext * 2 ^ 256 + o.cc * 2 ^ 320 + o.count * 2 ^ 328) 64

/-- The capacity of an overlay in lines (R221). -/
def Overlay.capacity (o : Overlay) : Nat := if o.cc = 0 then 0 else 2 ^ (o.cc - 1)

/-- The slot of a line in the extent (R221). -/
def Overlay.slot (o : Overlay) (i : Nat) : Nat := popcountN o.v i

/-- A record is consistent (R221). -/
def Overlay.consistent (o : Overlay) : Bool :=
  decide (o.count = popcountN o.v 256 ∧ o.cc ≤ 9 ∧ o.count ≤ o.capacity ∧ (o.cc = 0 → o.ext = 0) ∧
    (o.cc ≠ 0 → o.ext ≠ 0 ∧ o.ext % (256 * o.capacity) = 0) ∧ o.tail = 0)

/-- The address, size, head and tail of a ring of the page control block (R213). -/
def ringBase (n : Nat) : Nat := 0x80 + 32 * n

/-- The page of a leaf or of an overlay record gives an entry to a ring: its tail moves on, and the place that it names takes the entry, later where it is still taken; until then
the entry waits among the old frames (R214, R216). -/
def give (holder ring x : Nat) : M Unit := do
  let s ← get
  match s.pcb with
  | none => pure ()
  | some p => do
    let base ← hwRead (p + ringBase ring) 8
    let size ← hwRead (p + ringBase ring + 8) 8
    let tail ← hwRead (p + ringBase ring + 24) 8
    let e ← hwRead (base + 8 * (tail % size)) 8
    hwWrite (p + ringBase ring + 24) (tail + 1) 8
    modify fun s => { s with taken := s.taken.eraseP (fun t => t.base == x), spoiled := s.spoiled.erase (holder, x) }
    if e = 0 then hwWrite (base + 8 * (tail % size)) x 8
    else modify fun s =>
      { s with oldFrames := s.oldFrames ++ [{ frame := x, ring := ring, leaf := holder, place := some (base + 8 * (tail % size)) }] }

/-- The bytes of an entry of a ring: a frame, or an extent (R213). -/
def ringLen (ring : Nat) : Nat := if ring < 8 then 2 ^ 16 else 2 ^ ring

/-- An entry is what its ring holds: aligned, in the memory of the ring, and, as a frame, named by no leaf (R213, R214). -/
def entryFits (ring x : Nat) : M Bool := do
  let here := if ring < 4 then inHbm x && decide (dieOfFrame x = ring) else if ring < 8 then inCxl x && decide (cxlPort x = ring - 4) else inHbm x
  if x % ringLen ring ≠ 0 ∨ here = false then pure false
  else if 8 ≤ ring then pure true
  else
    match ← frameRec x with
    | none => pure false
    | some r => pure (decide (r.count = 0))

/-- Two stretches of memory meet. -/
def meet (a n b m : Nat) : Bool := decide (a < b + m) && decide (b < a + n)

/-- An entry at the head of a ring stands in it again: one of the n that follow is the same (R214). -/
def givenAgain (base size head n x : Nat) : M Bool :=
  eachFold (List.range n) false fun b i => do
    let e ← hwRead (base + 8 * ((head + 1 + i) % size)) 8
    pure (b || decide (e = x))

/-- Take an entry from a ring; none when it is empty. One that was given twice, or that is none, is noted (R214). -/
def take (ring : Nat) : M (Option Nat) := do
  let s ← get
  match s.pcb with
  | none => pure none
  | some p => do
    let base ← hwRead (p + ringBase ring) 8
    let size ← hwRead (p + ringBase ring + 8) 8
    let head ← hwRead (p + ringBase ring + 16) 8
    let tail ← hwRead (p + ringBase ring + 24) 8
    let e ← hwRead (base + 8 * (head % size)) 8
    if head = tail ∨ e = 0 then pure none
    else
      let fits ← entryFits ring e
      let again ← givenAgain base size head (min size (tail - head) - 1) e
      let bad := !fits || again || s.taken.any fun t => meet t.base t.len e (ringLen ring)
      hwWrite (p + ringBase ring + 16) (head + 1) 8
      hwWrite (base + 8 * (head % size)) 0 8
      modify fun s => { s with taken := s.taken ++ [{ base := e, len := ringLen ring }]
                               badTaken := if bad then e :: s.badTaken else s.badTaken }
      pure (some e)

/-- The frame that a leaf names when it is given an entry (R206). -/
def frameOf (x : Nat) : Nat := x / 2 ^ 16 % 2 ^ 36 * 2 ^ 16

/-- The page of a leaf or of an overlay record takes an entry, which it names by some address: its contents there are unspecified if the entry was given twice, or was none
(R214). -/
def hold (holder x name : Nat) : M Unit := modify fun s =>
  if s.badTaken.contains x then { s with badTaken := s.badTaken.erase x, spoiled := s.spoiled ++ [(holder, name)] } else s

/-- The page of a leaf or of an overlay record holds at x an entry that was given twice, or was none (R214). -/
def State.spoils (s : State) (holder x : Nat) : Bool := s.spoiled.contains (holder, x)

/-- Remove sectors from every L1: the bytes there become those of another place, whose old copies no load may take. -/
def dropEverywhere (secs : List Nat) : M Unit :=
  modify fun s => { s with cores := s.cores.map fun c => { c with l1 := c.l1.filter fun e => !secs.contains e.1 } }

/-- The L1s hold of the sectors at a place what they held of those at another: the bytes at a virtual address keep the old values that
a load may return when they move (R143, R178). -/
def carryL1 (src dst n : Nat) : M Unit :=
  let carried (l1 : SMap L1Line) : SMap L1Line := (sectorsOf dst n).foldl (fun m x =>
    match SMap.get? l1 (x - dst / 32 + src / 32) with
    | none => SMap.del m x
    | some line => SMap.put m x line) l1
  modify fun s => { s with cores := s.cores.map fun c => { c with l1 := carried c.l1 } }

/-- A write of the device at a home under a key slot, after every store translated through an entry that it changes (R209, R217). -/
def hwWriteUnder (key a v n : Nat) : M Unit := do
  drainVia a n
  writePA key a v n

/-- Copy bytes of memory at their homes, decrypting and encrypting under the keys of the two places, with their poison (R217, R382). -/
def copyHome (srcKey src dstKey dst n : Nat) : M Unit := do
  let v ← readPA srcKey src n
  drainVia dst n
  writePA dstKey dst v n
  let moved (e : SpillHome) : SpillHome := match e.loc with
    | .pa a => if src ≤ a ∧ a < src + n then { e with loc := .pa (a - src + dst) } else e
    | _ => e
  modify fun s =>
    { s with
      poison := (sectorsOf dst n).foldl (fun ps x =>
        if s.poison.contains (x - dst / 32 + src / 32) then addNum ps x else delNum ps x) s.poison
      slicePoison := (s.slicePoison.filter fun w => !(sectorsOf dst n).contains (w / 4)) ++
        (s.slicePoison.filter fun w => (sectorsOf src n).contains (w / 4)).map fun w => w - src / 8 + dst / 8
      spilled := s.spilled.map moved }

/-- Copy bytes that keep their virtual address, and the old values of them that the L1s hold; under another key no old value goes
with them (R143, R217). -/
def copyPA (srcKey src dstKey dst n : Nat) : M Unit := do
  copyHome srcKey src dstKey dst n
  if srcKey = dstKey then carryL1 src dst n else dropEverywhere (sectorsOf dst n)

/-- Copy bytes of the page of one holder to where those of another lie, in one of the two ways: what a spoiled entry holds is unspecified, and nothing
is written there (R214). -/
def copyHeldBy (copy : Nat → Nat → Nat → Nat → Nat → M Unit) (src dst : Nat × Nat) (srcKey a dstKey b n : Nat) : M Unit := do
  let s ← get
  if s.spoiled.contains dst then pure ()
  else if s.spoiled.contains src then do
    let v ← freeBytes n
    hwWriteUnder dstKey b v n
  else copy srcKey a dstKey b n

/-- Copy bytes that keep their virtual address from the page of one holder to that of another (R214, R217). -/
def copyHeld (src dst : Nat × Nat) (srcKey a dstKey b n : Nat) : M Unit := copyHeldBy copyPA src dst srcKey a dstKey b n

/-- The key slot of a frame: its record's, or the context's where it has no record (R213, R217). -/
def frameKey (key frame : Nat) : M Nat := do
  match ← frameRec frame with
  | none => pure key
  | some r => pure r.key

/-- The copy-on-write of a line into an overlay, all but the store itself (R222). -/
def copyOnWrite (q : Req) (l : Leaf) (o : Overlay) (i : Nat) : M Overlay := do
  let fk ← frameKey q.key l.frame
  let s := o.slot i
  let put (o : Overlay) : M Overlay := do
    copyHeld (l.addr, l.frame) (o.addr, o.ext) fk (l.frame + 256 * i) q.key (o.ext + 256 * s) 256
    let o' := { o with v := o.v ||| 2 ^ i, count := o.count + 1 }
    o'.put
    pure o'
  if o.count = o.capacity then
    let cap := if o.capacity = 0 then 1 else 2 * o.capacity
    match ← take (8 + Nat.log2 cap) with
    | none => trap 0x0C q.va
    | some new => do
      hold o.addr new new
      let shift (i j : Nat) : M Unit := copyHeld (o.addr, o.ext) (o.addr, new) q.key (o.ext + 256 * i) q.key (new + 256 * j) 256
      each (List.range s) fun j => shift j j
      each (List.range (o.count - s)) fun j => shift (s + j) (s + j + 1)
      if o.capacity > 0 then give o.addr (8 + Nat.log2 o.capacity) o.ext
      put { o with ext := new, cc := Nat.log2 cap + 1 }
  else
    each ((List.range (o.count - s)).reverse) fun j =>
      copyHeld (o.addr, o.ext) (o.addr, o.ext) q.key (o.ext + 256 * (s + j)) q.key (o.ext + 256 * (s + j + 1)) 256
    put o

/-- Where an access reads or writes and under which key slot, and whether the key slots of the context and the frame differ (R217). -/
structure Target where
  loc : Loc
  key : Nat
  /-- The page has an overlay: slots may move, so a store performs when it issues (R222). -/
  overlay : Bool
  /-- The bytes are unspecified to the context (R217). -/
  garbled : Bool
  deriving DecidableEq, Repr

/-- The base of a page, for an access that reaches it: conditions 7 and 8 of R385 (R215). -/
def baseTarget (q : Req) (l : Leaf) : M Loc := do
  let a := l.frame + q.va.toNat % l.size
  let s ← get
  let waits : Bool := match q.kind with
    | .store => true
    | _ => decide (l.tier = 3) && !(s.moves.any fun m => decide (m.leaf = l.addr) && decide (m.oldTier = 1))
  if l.tier = 2 then trap 0x0D q.va
  else if decide (3 ≤ l.tier) && waits then waitFor .move
  else if inPeer l.frame then
    -- the window of the device's own index reaches its own memory (R363)
    if (peerOf a).1 = s.self ∧ s.level = .s2 then pure (.pa (peerOf a).2) else pure (.peer (peerOf a).1 (peerOf a).2)
  else if s.spoils l.addr l.frame then pure (.nowhere a)
  else pure (.pa a)

/-- The key slot of an access's bytes: the context's, or, in the window of the device's own index, the slot that the fabric table names
there (R217, R363). -/
def State.targetKey (s : State) (q : Req) (l : Leaf) : Nat :=
  if inPeer l.frame then (s.fabric[(peerOf l.frame).1]?).elim q.key FabEntry.key else q.key

/-- The bytes of an overlay's slot, as an access finds them (R214, R222). -/
def State.slotTarget (s : State) (q : Req) (o : Overlay) (i within : Nat) : Target :=
  let a := o.ext + 256 * o.slot i + within
  { loc := if s.spoils o.addr o.ext then .nowhere a else .pa a, key := q.key, overlay := true, garbled := s.spoils o.addr o.ext }

/-- The bytes have no place (R214). -/
def Loc.isNowhere : Loc → Bool
  | .nowhere _ => true
  | _ => false

/-- Conditions 6 to 9 of R385: the overlay record, the tier and the cullet pool; a store's line changes side here (R222). -/
def resolve (q : Req) (l : Leaf) : M Target := do
  let fk ← frameKey q.key (l.frame + q.va.toNat % l.size / 2 ^ 16 * 2 ^ 16)
  let i := q.va.toNat % 2 ^ 16 / 256
  let within := q.va.toNat % 256
  if l.o then
    let o ← readOverlay l.ovr
    if !o.consistent then q.fault 4
    else if o.v.testBit i then
      let s ← get
      pure (s.slotTarget q o i within)
    else
      let b ← baseTarget q l
      if q.kind = .store ∧ !q.dry then
        let o' ← copyOnWrite q l o i
        let s ← get
        pure (s.slotTarget q o' i within)
      else pure { loc := b, key := q.key, overlay := true, garbled := decide (fk ≠ q.key) || b.isNowhere }
  else
    let b ← baseTarget q l
    let s ← get
    pure { loc := b, key := s.targetKey q l, overlay := false, garbled := (decide (fk ≠ q.key) && !inPeer l.frame) || b.isNowhere }

/-- Set A in a leaf, once an access through it is allowed to proceed (R208). -/
def setA (l : Leaf) : M Unit := do
  if l.a then pure ()
  else
    let b ← hwRead (l.addr + 1) 1
    writePA 0 (l.addr + 1) (b ||| 4) 1

/-- Rewrite a leaf's frame, tier and A, in its place in the table, after every store translated through it (R209, R216). -/
def putLeaf (l : Leaf) (frame tier : Nat) (a : Bool) : M Unit :=
  hwWrite l.addr (putBits (putBits (putBits l.raw 16 36 (frame / 2 ^ 16)) 13 3 tier) 10 1 a.toNat) 16

end Sys2Proof.Machine
end

