-- ==== Sys2Proof/Machine/Scoreboard.lean ====
section
/-! DEFINITION. The registers that an instruction names, and those that a load fills: what has to wait for the value of a load, or of an
atomic, whose work S1 holds (R20). -/

namespace Sys2Proof.Machine

/-- The registers of a segment form (R144). -/
def segRegs (n : Fin 7) (r : VRegNo) : List RegName := (List.range (n.val + 2)).map fun i => .v (r.val + i)

/-- The scalar, vector and scale registers that an instruction names, or, as `vrelease` does, gives up (R290). -/
def regsNamed : Instr → List RegName
  | .andi rd rs _ => [.s rd.val, .s rs.val]
  | .ori rd rs _ => [.s rd.val, .s rs.val]
  | .xori rd rs _ => [.s rd.val, .s rs.val]
  | .slti rd rs _ => [.s rd.val, .s rs.val]
  | .addi rd rs _ => [.s rd.val, .s rs.val]
  | .slli rd rs _ => [.s rd.val, .s rs.val]
  | .srli rd rs _ => [.s rd.val, .s rs.val]
  | .srai rd rs _ => [.s rd.val, .s rs.val]
  | .ext rd rs _ _ => [.s rd.val, .s rs.val]
  | .ins rd rs _ _ => [.s rd.val, .s rs.val]
  | .jalr rd rs _ => [.s rd.val, .s rs.val]
  | .lhi rd _ => [.s rd.val]
  | .jal rd _ => [.s rd.val]
  | .ctok rs _ => [.s rs.val]
  | .beq ra rb _ => [.s ra.val, .s rb.val]
  | .bne ra rb _ => [.s ra.val, .s rb.val]
  | .blt ra rb _ => [.s ra.val, .s rb.val]
  | .bge ra rb _ => [.s ra.val, .s rb.val]
  | .bltn ra rb _ => [.s ra.val, .s rb.val]
  | .bgen ra rb _ => [.s ra.val, .s rb.val]
  | .smb ra rb _ => [.s ra.val, .s rb.val]
  | .add rd ra rb => [.s rd.val, .s ra.val, .s rb.val]
  | .sub rd ra rb => [.s rd.val, .s ra.val, .s rb.val]
  | .mul rd ra rb => [.s rd.val, .s ra.val, .s rb.val]
  | .mulh rd ra rb => [.s rd.val, .s ra.val, .s rb.val]
  | .div rd ra rb => [.s rd.val, .s ra.val, .s rb.val]
  | .divn rd ra rb => [.s rd.val, .s ra.val, .s rb.val]
  | .rem rd ra rb => [.s rd.val, .s ra.val, .s rb.val]
  | .remn rd ra rb => [.s rd.val, .s ra.val, .s rb.val]
  | .and rd ra rb => [.s rd.val, .s ra.val, .s rb.val]
  | .or rd ra rb => [.s rd.val, .s ra.val, .s rb.val]
  | .xor rd ra rb => [.s rd.val, .s ra.val, .s rb.val]
  | .sll rd ra rb => [.s rd.val, .s ra.val, .s rb.val]
  | .srl rd ra rb => [.s rd.val, .s ra.val, .s rb.val]
  | .sra rd ra rb => [.s rd.val, .s ra.val, .s rb.val]
  | .slt rd ra rb => [.s rd.val, .s ra.val, .s rb.val]
  | .sltn rd ra rb => [.s rd.val, .s ra.val, .s rb.val]
  | .min rd ra rb => [.s rd.val, .s ra.val, .s rb.val]
  | .max rd ra rb => [.s rd.val, .s ra.val, .s rb.val]
  | .minN rd ra rb => [.s rd.val, .s ra.val, .s rb.val]
  | .maxN rd ra rb => [.s rd.val, .s ra.val, .s rb.val]
  | .clz rd ra => [.s rd.val, .s ra.val]
  | .popc rd ra => [.s rd.val, .s ra.val]
  | .sel rd ra rb => [.s rd.val, .s ra.val, .s rb.val]
  | .lea rd ra rb _ => [.s rd.val, .s ra.val, .s rb.val]
  | .qpush q r => [if q.val < 4 then .v r.val else .s r.val]
  | .qpop r q => [if q.val < 4 then .v r.val else .s r.val]
  | .qpeek r q => [if q.val < 4 then .v r.val else .s r.val]
  | .qlen rd _ => [.s rd.val]
  | .ctake rd => [.s rd.val]
  | .vadd vd va vb => [.v vd.val, .v va.val, .v vb.val]
  | .vsub vd va vb => [.v vd.val, .v va.val, .v vb.val]
  | .vmul vd va vb => [.v vd.val, .v va.val, .v vb.val]
  | .vmadd vd va vb => [.v vd.val, .v va.val, .v vb.val]
  | .vnmadd vd va vb => [.v vd.val, .v va.val, .v vb.val]
  | .vdiv vd va vb => [.v vd.val, .v va.val, .v vb.val]
  | .vsqrt vd va => [.v vd.val, .v va.val]
  | .vrsqrt vd va => [.v vd.val, .v va.val]
  | .vexp2 vd va => [.v vd.val, .v va.val]
  | .vlog2 vd va => [.v vd.val, .v va.val]
  | .vmax vd va vb => [.v vd.val, .v va.val, .v vb.val]
  | .vmin vd va vb => [.v vd.val, .v va.val, .v vb.val]
  | .vabs vd va => [.v vd.val, .v va.val]
  | .vneg vd va => [.v vd.val, .v va.val]
  | .vand vd va vb => [.v vd.val, .v va.val, .v vb.val]
  | .vor vd va vb => [.v vd.val, .v va.val, .v vb.val]
  | .vxor vd va vb => [.v vd.val, .v va.val, .v vb.val]
  | .vnot vd va => [.v vd.val, .v va.val]
  | .vshl vd va vb => [.v vd.val, .v va.val, .v vb.val]
  | .vshr vd va vb => [.v vd.val, .v va.val, .v vb.val]
  | .vsra vd va vb => [.v vd.val, .v va.val, .v vb.val]
  | .vcmp _ _ va vb => [.v va.val, .v vb.val]
  | .vsel vd va vb => [.v vd.val, .v va.val, .v vb.val]
  | .vmv vd va => [.v vd.val, .v va.val]
  | .vsplat vd ra => [.v vd.val, .s ra.val]
  | .vid vd => [.v vd.val]
  | .vext rd va rb => [.s rd.val, .v va.val, .s rb.val]
  | .vins vd ra rb => [.v vd.val, .s ra.val, .s rb.val]
  | .vcvt vd va _ => [.v vd.val, .v va.val]
  | .vredsum vd va => [.v vd.val, .v va.val]
  | .vredmax vd va => [.v vd.val, .v va.val]
  | .vredmin vd va => [.v vd.val, .v va.val]
  | .vargmax rd va => [.s rd.val, .v va.val]
  | .vslideup vd va rb => [.v vd.val, .v va.val, .s rb.val]
  | .vslidedn vd va rb => [.v vd.val, .v va.val, .s rb.val]
  | .vperm vd va vb => [.v vd.val, .v va.val, .v vb.val]
  | .vcompress vd va _ => [.v vd.val, .v va.val]
  | .vexpand vd va _ => [.v vd.val, .v va.val]
  | .vconf _ va => [.v va.val]
  | .smerge vd va vb => [.v vd.val, .v va.val, .v vb.val]
  | .sapply vd va _ => [.v vd.val, .v va.val]
  | .vaddImm vd va _ => [.v vd.val, .v va.val]
  | .vsubImm vd va _ => [.v vd.val, .v va.val]
  | .vmulImm vd va _ => [.v vd.val, .v va.val]
  | .vmaxImm vd va _ => [.v vd.val, .v va.val]
  | .vminImm vd va _ => [.v vd.val, .v va.val]
  | .vandImm vd va _ => [.v vd.val, .v va.val]
  | .vorImm vd va _ => [.v vd.val, .v va.val]
  | .vxorImm vd va _ => [.v vd.val, .v va.val]
  | .vshlImm vd va _ => [.v vd.val, .v va.val]
  | .vshrImm vd va _ => [.v vd.val, .v va.val]
  | .vsraImm vd va _ => [.v vd.val, .v va.val]
  | .vslideupImm vd va _ => [.v vd.val, .v va.val]
  | .vslidednImm vd va _ => [.v vd.val, .v va.val]
  | .vsplatImm vd _ => [.v vd.val]
  | .vtag vd _ => [.v vd.val]
  | .vcmpImm _ _ va _ => [.v va.val]
  | .pfirst rd _ => [.s rd.val]
  | .pcnt rd _ => [.s rd.val]
  | .pset _ ra => [.s ra.val]
  | .kmvToScale kd va => [.k kd.val, .v va.val]
  | .kmvToVector vd ka => [.v vd.val, .k ka.val]
  | .setvl rd ra _ _ _ _ _ => [.s rd.val, .s ra.val]
  | .lbMd rd ra _ _ => [.s rd.val, .s ra.val]
  | .lbMx rd ra rb _ => [.s rd.val, .s ra.val, .s rb.val]
  | .lbnMd rd ra _ _ => [.s rd.val, .s ra.val]
  | .lbnMx rd ra rb _ => [.s rd.val, .s ra.val, .s rb.val]
  | .lhMd rd ra _ _ => [.s rd.val, .s ra.val]
  | .lhMx rd ra rb _ => [.s rd.val, .s ra.val, .s rb.val]
  | .lhnMd rd ra _ _ => [.s rd.val, .s ra.val]
  | .lhnMx rd ra rb _ => [.s rd.val, .s ra.val, .s rb.val]
  | .lwMd rd ra _ _ => [.s rd.val, .s ra.val]
  | .lwMx rd ra rb _ => [.s rd.val, .s ra.val, .s rb.val]
  | .lwnMd rd ra _ _ => [.s rd.val, .s ra.val]
  | .lwnMx rd ra rb _ => [.s rd.val, .s ra.val, .s rb.val]
  | .ldMd rd ra _ _ => [.s rd.val, .s ra.val]
  | .ldMx rd ra rb _ => [.s rd.val, .s ra.val, .s rb.val]
  | .prefL1Md ra _ => [.s ra.val]
  | .prefL1Mx ra rb => [.s ra.val, .s rb.val]
  | .prefLlcMd ra _ => [.s ra.val]
  | .prefLlcMx ra rb => [.s ra.val, .s rb.val]
  | .sbMd rs ra _ => [.s rs.val, .s ra.val]
  | .sbMx rs ra rb => [.s rs.val, .s ra.val, .s rb.val]
  | .shMd rs ra _ => [.s rs.val, .s ra.val]
  | .shMx rs ra rb => [.s rs.val, .s ra.val, .s rb.val]
  | .swMd rs ra _ => [.s rs.val, .s ra.val]
  | .swMx rs ra rb => [.s rs.val, .s ra.val, .s rb.val]
  | .sdMd rs ra _ => [.s rs.val, .s ra.val]
  | .sdMx rs ra rb => [.s rs.val, .s ra.val, .s rb.val]
  | .vldMd vd ra _ _ => [.v vd.val, .s ra.val]
  | .vldMx vd ra rb _ => [.v vd.val, .s ra.val, .s rb.val]
  | .vlds vd ra rb _ => [.v vd.val, .s ra.val, .s rb.val]
  | .vldffMd vd ra _ _ => [.v vd.val, .s ra.val]
  | .vldffMx vd ra rb _ => [.v vd.val, .s ra.val, .s rb.val]
  | .ksld kd ra rb _ => [.k kd.val, .s ra.val, .s rb.val]
  | .vstMd vs ra _ => [.v vs.val, .s ra.val]
  | .vstMx vs ra rb => [.v vs.val, .s ra.val, .s rb.val]
  | .vsts vs ra rb => [.v vs.val, .s ra.val, .s rb.val]
  | .vldsegMd n vd ra _ => segRegs n vd ++ [.s ra.val]
  | .vldsegMx n vd ra rb => segRegs n vd ++ [.s ra.val, .s rb.val]
  | .vstsegMd n vs ra _ => segRegs n vs ++ [.s ra.val]
  | .vstsegMx n vs ra rb => segRegs n vs ++ [.s ra.val, .s rb.val]
  | .amoadd _ _ _ rd rb ra => [.s rd.val, .s rb.val, .s ra.val]
  | .amoswap _ _ _ rd rb ra => [.s rd.val, .s rb.val, .s ra.val]
  | .amomax _ _ _ rd rb ra => [.s rd.val, .s rb.val, .s ra.val]
  | .amomin _ _ _ rd rb ra => [.s rd.val, .s rb.val, .s ra.val]
  | .amomaxN _ _ _ rd rb ra => [.s rd.val, .s rb.val, .s ra.val]
  | .amominN _ _ _ rd rb ra => [.s rd.val, .s rb.val, .s ra.val]
  | .amoand _ _ _ rd rb ra => [.s rd.val, .s rb.val, .s ra.val]
  | .amoor _ _ _ rd rb ra => [.s rd.val, .s rb.val, .s ra.val]
  | .cas _ _ _ rd rb ra => [.s rd.val, .s rb.val, .s ra.val]
  | .vgat _ _ _ ra rb rc => [.s ra.val, .s rb.val, .s rc.val]
  | .vgatff _ _ _ ra rb rc => [.s ra.val, .s rb.val, .s rc.val]
  | .vsca _ _ ra rb rc => [.s ra.val, .s rb.val, .s rc.val]
  | .vscaa _ _ ra rb rc => [.s ra.val, .s rb.val, .s rc.val]
  | .kvx _ ra rb rc => [.s ra.val, .s rb.val, .s rc.val]
  | .cut _ ra rb => [.s ra.val, .s rb.val]
  | .cutp _ ra rb => [.s ra.val, .s rb.val]
  | .cutd _ ra rb => [.s ra.val, .s rb.val]
  | .mshapeCore rd ra rb => [.s rd.val, .s ra.val, .s rb.val]
  | .mshapeDie rd ra rb => [.s rd.val, .s ra.val, .s rb.val]
  | .mlds rd ra => [.s rd.val, .s ra.val]
  | .mstreamLocal _ ra rb => [.s ra.val, .s rb.val]
  | .mstreamVector _ va rb => [.v va.val, .s rb.val]
  | .mrd vd _ rb => [.v vd.val, .s rb.val]
  | .mwr _ va rb => [.v va.val, .s rb.val]
  | .opin ra => [.s ra.val]
  | .ounpin ra => [.s ra.val]
  | .ocommitPriv ra => [.s ra.val]
  | .ocommitPub ra => [.s ra.val]
  | .odiscard ra => [.s ra.val]
  | .oquery rd ra rb => [.s rd.val, .s ra.val, .s rb.val]
  | .frref _ _ rd ra rb => [.s rd.val, .s ra.val, .s rb.val]
  | .cpy rd ra rb => [.s rd.val, .s ra.val, .s rb.val]
  | .cpyx rd ra rb => [.s rd.val, .s ra.val, .s rb.val]
  | .cpyz rd ra rb => [.s rd.val, .s ra.val, .s rb.val]
  | .cpyp rd ra rb => [.s rd.val, .s ra.val, .s rb.val]
  | .cpyd rd ra rb => [.s rd.val, .s ra.val, .s rb.val]
  | .kvcompact rd ra rb => [.s rd.val, .s ra.val, .s rb.val]
  | .evwait rd ra => [.s rd.val, .s ra.val]
  | .evpoll rd ra => [.s rd.val, .s ra.val]
  | .klaunch rd ra => [.s rd.val, .s ra.val]
  | .claim rd ra rb => [.s rd.val, .s ra.val, .s rb.val]
  | .gsplit rd ra => [.s rd.val, .s ra.val]
  | .sattn va rb => [.v va.val, .s rb.val]
  | .spld _ ra => [.s ra.val]
  | .dtinit _ ra => [.s ra.val]
  | .dtadd _ va vb => [.v va.val, .v vb.val]
  | .dtmaskPred _ _ rb => [.s rb.val]
  | .dtmaskVec vd _ rb => [.v vd.val, .s rb.val]
  | .dtpos vd _ => [.v vd.val]
  | .dtacc rd _ va => [.s rd.val, .v va.val]
  | .dtprune _ ra => [.s ra.val]
  | .dtld _ ra => [.s ra.val]
  | .dtst _ ra => [.s ra.val]
  | .dtinfo rd _ => [.s rd.val]
  | .csrr rd _ => [.s rd.val]
  | .csrw _ ra => [.s ra.val]
  | .csrs rd _ ra => [.s rd.val, .s ra.val]
  | .csrc rd _ ra => [.s rd.val, .s ra.val]
  | .ctxsave ra => [.s ra.val]
  | .ctxload ra => [.s ra.val]
  | .keyset rd ra => [.s rd.val, .s ra.val]
  | .asidset rd ra => [.s rd.val, .s ra.val]
  | .ckfreeze ra => [.s ra.val]
  | .ckwait rd ra => [.s rd.val, .s ra.val]
  | .ckrestore ra => [.s ra.val]
  | .vrelease => (List.range 64).map .v ++ (List.range 16).map .k
  | .astart _ | .pand _ _ _ | .por _ _ _ | .pxor _ _ _ | .pnot _ _ | .psbf _ _ | .psif _ _ | .mode _ _ _ | .mswap | .mzero _ | .lrfence
  | .ktrig | .hend | .barr _ _ | .bwait _ _ | .bsync _ _ | .ecall _ | .breakpoint | .eret | .trapack | .yield | .fence _ _
  | .gatherFill | .scatterStatusFill | .kvxFill | .matrixQueueExecute | .copyChunkDone | .copyCompletion | .moveInstall | .oldFrameRelease
  | .kvcompactEvent | .sliceBlockRead | .passCompletion | .prefFillArrival | .evictionSweep | .queueDeadlock | .yieldDeadlineExpiry
  | .collectorAcknowledgement | .contextResumption | .contextEventWrite | .kernelDispatch | .launchQueueDoorbell | .ctxRoot | .setPcb
  | .fabricTable | .takeEvent | .readLog | .stage | .attest | .keyAperture | .reset | .apertureWrite | .apertureRead | .deviceWindowWrite
  | .powerOn | .enterS1 | .enterS2 | .cxlPortTrainingDone | .voltorTrainingDone | .voltorTrainingTimeout | .voltorLaneFault
  | .lossOfSignal | .flitReceive | .peerAccessArrival | .peerStoreLost | .fabPartReport | .fabPause | .fabricBarrierCombine | .drainEnd
  | .restoreEnd | .instructionFetchAhead | .eccCorrected | .eccUncorrectable | .thermalLimit | .thermalTrip | .nullFetch
  | .illegalInstruction | .fetchForIssueFault | .storePerform | .cycleCounterAdvance | .voltorFirmwareCommand => []

/-- What a load fills: the registers of a scalar, vector or scale load, and the place of a gather (R141, R144, R152, R154). -/
def regsLoaded : Instr → List RegName
  | .lbMd rd _ _ _ => [.s rd.val]
  | .lbMx rd _ _ _ => [.s rd.val]
  | .lbnMd rd _ _ _ => [.s rd.val]
  | .lbnMx rd _ _ _ => [.s rd.val]
  | .lhMd rd _ _ _ => [.s rd.val]
  | .lhMx rd _ _ _ => [.s rd.val]
  | .lhnMd rd _ _ _ => [.s rd.val]
  | .lhnMx rd _ _ _ => [.s rd.val]
  | .lwMd rd _ _ _ => [.s rd.val]
  | .lwMx rd _ _ _ => [.s rd.val]
  | .lwnMd rd _ _ _ => [.s rd.val]
  | .lwnMx rd _ _ _ => [.s rd.val]
  | .ldMd rd _ _ _ => [.s rd.val]
  | .ldMx rd _ _ _ => [.s rd.val]
  | .vldMd vd _ _ _ => [.v vd.val]
  | .vldMx vd _ _ _ => [.v vd.val]
  | .vlds vd _ _ _ => [.v vd.val]
  | .vldffMd vd _ _ _ => [.v vd.val]
  | .vldffMx vd _ _ _ => [.v vd.val]
  | .ksld kd _ _ _ => [.k kd.val]
  | .vldsegMd n vd _ _ => segRegs n vd
  | .vldsegMx n vd _ _ => segRegs n vd
  | .vgat q _ _ _ _ _ => [.q q.val]
  | .vgatff q _ _ _ _ _ => [.q q.val]
  | .andi _ _ _ | .ori _ _ _ | .xori _ _ _ | .slti _ _ _ | .addi _ _ _ | .slli _ _ _ | .srli _ _ _ | .srai _ _ _ | .ext _ _ _ _
  | .ins _ _ _ _ | .jalr _ _ _ | .lhi _ _ | .jal _ _ | .ctok _ _ | .astart _ | .beq _ _ _ | .bne _ _ _ | .blt _ _ _ | .bge _ _ _
  | .bltn _ _ _ | .bgen _ _ _ | .smb _ _ _ | .add _ _ _ | .sub _ _ _ | .mul _ _ _ | .mulh _ _ _ | .div _ _ _ | .divn _ _ _ | .rem _ _ _
  | .remn _ _ _ | .and _ _ _ | .or _ _ _ | .xor _ _ _ | .sll _ _ _ | .srl _ _ _ | .sra _ _ _ | .slt _ _ _ | .sltn _ _ _ | .min _ _ _
  | .max _ _ _ | .minN _ _ _ | .maxN _ _ _ | .clz _ _ | .popc _ _ | .sel _ _ _ | .lea _ _ _ _ | .qpush _ _ | .qpop _ _ | .qpeek _ _
  | .qlen _ _ | .ctake _ | .vadd _ _ _ | .vsub _ _ _ | .vmul _ _ _ | .vmadd _ _ _ | .vnmadd _ _ _ | .vdiv _ _ _ | .vsqrt _ _ | .vrsqrt _ _
  | .vexp2 _ _ | .vlog2 _ _ | .vmax _ _ _ | .vmin _ _ _ | .vabs _ _ | .vneg _ _ | .vand _ _ _ | .vor _ _ _ | .vxor _ _ _ | .vnot _ _
  | .vshl _ _ _ | .vshr _ _ _ | .vsra _ _ _ | .vcmp _ _ _ _ | .vsel _ _ _ | .vmv _ _ | .vsplat _ _ | .vid _ | .vext _ _ _ | .vins _ _ _
  | .vcvt _ _ _ | .vredsum _ _ | .vredmax _ _ | .vredmin _ _ | .vargmax _ _ | .vslideup _ _ _ | .vslidedn _ _ _ | .vperm _ _ _
  | .vcompress _ _ _ | .vexpand _ _ _ | .vconf _ _ | .smerge _ _ _ | .sapply _ _ _ | .vaddImm _ _ _ | .vsubImm _ _ _ | .vmulImm _ _ _
  | .vmaxImm _ _ _ | .vminImm _ _ _ | .vandImm _ _ _ | .vorImm _ _ _ | .vxorImm _ _ _ | .vshlImm _ _ _ | .vshrImm _ _ _ | .vsraImm _ _ _
  | .vslideupImm _ _ _ | .vslidednImm _ _ _ | .vsplatImm _ _ | .vtag _ _ | .vcmpImm _ _ _ _ | .pand _ _ _ | .por _ _ _ | .pxor _ _ _
  | .pnot _ _ | .psbf _ _ | .psif _ _ | .pfirst _ _ | .pcnt _ _ | .pset _ _ | .kmvToScale _ _ | .kmvToVector _ _ | .setvl _ _ _ _ _ _ _
  | .mode _ _ _ | .prefL1Md _ _ | .prefL1Mx _ _ | .prefLlcMd _ _ | .prefLlcMx _ _ | .sbMd _ _ _ | .sbMx _ _ _ | .shMd _ _ _ | .shMx _ _ _
  | .swMd _ _ _ | .swMx _ _ _ | .sdMd _ _ _ | .sdMx _ _ _ | .vstMd _ _ _ | .vstMx _ _ _ | .vsts _ _ _ | .vstsegMd _ _ _ _
  | .vstsegMx _ _ _ _ | .amoadd _ _ _ _ _ _ | .amoswap _ _ _ _ _ _ | .amomax _ _ _ _ _ _ | .amomin _ _ _ _ _ _ | .amomaxN _ _ _ _ _ _
  | .amominN _ _ _ _ _ _ | .amoand _ _ _ _ _ _ | .amoor _ _ _ _ _ _ | .cas _ _ _ _ _ _ | .vsca _ _ _ _ _ | .vscaa _ _ _ _ _ | .kvx _ _ _ _
  | .cut _ _ _ | .cutp _ _ _ | .cutd _ _ _ | .mshapeCore _ _ _ | .mshapeDie _ _ _ | .mlds _ _ | .mswap | .mstreamLocal _ _ _
  | .mstreamVector _ _ _ | .mzero _ | .mrd _ _ _ | .mwr _ _ _ | .opin _ | .ounpin _ | .ocommitPriv _ | .ocommitPub _ | .odiscard _
  | .oquery _ _ _ | .frref _ _ _ _ _ | .cpy _ _ _ | .cpyx _ _ _ | .cpyz _ _ _ | .cpyp _ _ _ | .cpyd _ _ _ | .kvcompact _ _ _ | .lrfence
  | .evwait _ _ | .evpoll _ _ | .klaunch _ _ | .ktrig | .claim _ _ _ | .vrelease | .hend | .gsplit _ _ | .barr _ _ | .bwait _ _
  | .bsync _ _ | .sattn _ _ | .spld _ _ | .dtinit _ _ | .dtadd _ _ _ | .dtmaskPred _ _ _ | .dtmaskVec _ _ _ | .dtpos _ _ | .dtacc _ _ _
  | .dtprune _ _ | .dtld _ _ | .dtst _ _ | .dtinfo _ _ | .ecall _ | .breakpoint | .eret | .trapack | .yield | .fence _ _ | .csrr _ _
  | .csrw _ _ | .csrs _ _ _ | .csrc _ _ _ | .ctxsave _ | .ctxload _ | .keyset _ _ | .asidset _ _ | .ckfreeze _ | .ckwait _ _
  | .ckrestore _ | .gatherFill | .scatterStatusFill | .kvxFill | .matrixQueueExecute | .copyChunkDone | .copyCompletion | .moveInstall
  | .oldFrameRelease | .kvcompactEvent | .sliceBlockRead | .passCompletion | .prefFillArrival | .evictionSweep | .queueDeadlock
  | .yieldDeadlineExpiry | .collectorAcknowledgement | .contextResumption | .contextEventWrite | .kernelDispatch | .launchQueueDoorbell
  | .ctxRoot | .setPcb | .fabricTable | .takeEvent | .readLog | .stage | .attest | .keyAperture | .reset | .apertureWrite | .apertureRead
  | .deviceWindowWrite | .powerOn | .enterS1 | .enterS2 | .cxlPortTrainingDone | .voltorTrainingDone | .voltorTrainingTimeout
  | .voltorLaneFault | .lossOfSignal | .flitReceive | .peerAccessArrival | .peerStoreLost | .fabPartReport | .fabPause
  | .fabricBarrierCombine | .drainEnd | .restoreEnd | .instructionFetchAhead | .eccCorrected | .eccUncorrectable | .thermalLimit
  | .thermalTrip | .nullFetch | .illegalInstruction | .fetchForIssueFault | .storePerform | .cycleCounterAdvance | .voltorFirmwareCommand => []

/-- What the instruction being issued loads. -/
def State.curLoads (s : State) : List RegName :=
  match decodeWord s.curWord.toNat with
  | .instr i => regsLoaded i
  | .null | .illegal _ => []

/-- What the instruction being issued names. -/
def State.curNamed (s : State) : List RegName :=
  match decodeWord s.curWord.toNat with
  | .instr i => regsNamed i
  | .null | .illegal _ => []

/-- A word of the scalar instructions that touch nothing but scalar registers and the program counter (R98 to R104). -/
def plainWord (w : Nat) : Bool :=
  let op := fld w 0 7
  (decide (0x10 ≤ op) && decide (op ≤ 0x1C)) || (decide (0x20 ≤ op) && decide (op ≤ 0x26)) || op == 0x30

/-- S1 holds an instruction of a stream as a whole (R20). -/
def State.wholeHeld (s : State) (slot : Nat) (st : StreamId) : Bool :=
  s.held.any fun h => decide (h.slot = slot) && decide (h.stream = st) && (match h.work with
    | .whole .. => true
    | _ => false)

/-- An instruction of a stream waits for a register whose value S1 holds back, or, unless it works on other scalar registers alone, for an
instruction held as a whole (R20, log 17). A scalar register is the stream's own; s0 is none. -/
def State.awaits (s : State) (slot : Nat) (st : StreamId) (i : Instr) : Bool :=
  (s.wholeHeld slot st && !plainWord s.curWord.toNat) || s.held.any fun h => decide (h.slot = slot) && (regsNamed i).any fun r =>
    h.regs.contains r && (match r with
      | .s n => decide (h.stream = st) && decide (n ≠ 0)
      | .v _ | .k _ | .q _ => true)

end Sys2Proof.Machine
end

