-- ==== Sys2Proof/Machine/Access.lean ====
section
/-! DEFINITION. Loads and stores of a hart's streams and engines through their context's translations: the local-store
window, the interlock table, the order of the checks, and the stores in flight (R138 to R143, R161, R173, R385). -/

namespace Sys2Proof.Machine

/-- Who makes an access. -/
structure Actor where
  slot : Nat
  asid : Nat
  /-- The access checks U (R207). -/
  user : Bool
  stream : StreamId
  strip : Nat
  scalar : Bool
  refresh : Nat
  /-- The step at which the access issues. -/
  op : Nat
  /-- Its stores remove their sectors from the core's L1 (R143). -/
  drops : Bool
  /-- The kernel's allocation in the local store: core, physical offset and size; none for accesses that name no core (R138). -/
  window : Option (Nat × Nat × Nat)
  /-- An engine's access, which cannot be held in S1 on its own: its transfer waits (R20). -/
  engine : Bool
  /-- What covers poisoned sectors together with this access: the address of the instruction, or the transfer's number (R382). -/
  job : Option Nat
  deriving DecidableEq, Repr

/-- The strip of the next access of a stream: each access-stream instruction is a strip of its own (R164, R165). -/
def Hart.stripOf (h : Hart) (st : StreamId) (tick : Nat) : Nat :=
  match st with
  | .x => h.strip
  | .a => tick

/-- A hart's stream as the maker of accesses. -/
def State.actor (s : State) (h : Hart) (st : StreamId) : Actor :=
  { slot := h.slot, asid := h.asid, user := decide (h.priv = .u), stream := st, strip := h.stripOf st s.tick, scalar := true
    refresh := match st with | .x => h.refX | .a => h.refA
    op := s.tick, drops := true, engine := false, job := none
    window := match SMap.get? s.kernels h.kernel with
      | none => none
      | some k => (SMap.get? k.cores (coreOfSlot h.slot)).map fun base => (coreOfSlot h.slot, base, k.lsb) }

/-- An engine's transfer of a hart as the maker of its element accesses (R160, R244). -/
def State.engineActor (s : State) (h : Hart) (t : Transfer) : Actor :=
  { s.actor h t.stream with user := t.user, strip := s.tick, drops := false, engine := true, job := some t.id }

/-- The issuing stream as the maker of accesses. -/
def actor : M Actor := do
  let h ← getHart
  let s ← get
  pure (s.actor h s.curStream)

/-- The device acting for a context on its own account, in S mode (R138). -/
def deviceActor (slot asid : Nat) : Actor :=
  { slot := slot, asid := asid, user := false, stream := .a, strip := 0, scalar := true, refresh := 0, op := 0, drops := true, window := none
    engine := false, job := none }

/-- The access is made for a hart's stream, and is an observer's; the device acts on its own account otherwise (R138, R160). -/
def Actor.own (a : Actor) : Bool := a.window.isSome

/-- Who loads. -/
def Actor.loader (a : Actor) : Loader := { slot := a.slot, refresh := a.refresh, own := a.own }

/-- An access of an actor as translation sees it. -/
def Actor.req (a : Actor) (kind : Kind) (va : Word64) (z : Option Bool) (dry : Bool) : M Req := do
  let s ← get
  match SMap.get? s.contexts a.asid with
  | none => throw .noHart
  | some c => pure { root := c.root, key := c.key, user := a.user, kind := kind, va := va, z := z, dry := dry }

/-- The address is in the local-store window (R138). -/
def inWindow (va : Word64) : Bool := decide (windowBase ≤ va.toNat) && decide (va.toNat < 2 ^ 56)

/-- The bytes of a window address in the actor's allocation, or the translation fault of the kind (R138). -/
def Actor.local (a : Actor) (kind : Kind) (va : Word64) (n : Nat) : M Loc :=
  match a.window with
  | none => trap kind.cause va
  | some (core, base, size) =>
    if va.toNat - windowBase + n ≤ size then pure (.ls core (base + (va.toNat - windowBase)))
    else trap kind.cause va

/-- An access found in place: where its bytes are, the key slot, the walk's entries, and its target. -/
structure Place where
  loc : Loc
  key : Nat
  path : List Nat
  overlay : Bool
  garbled : Bool
  deriving DecidableEq, Repr

/-- Before an observer makes an access, the stores perform that an order of another stream puts before it (R13, R167, log 6). An access of the
stream that gave the order is itself under no such order, so that observers outside its scope may see it first (R168, R172). -/
def Actor.observe (a : Actor) : M Unit :=
  if a.own then drain fun p => !p.of a.slot a.stream && p.due.any fun sc => Scope.holds sc p.slot a.slot else pure ()

/-- Two stretches of bytes meet. -/
def Loc.meets (l : Loc) (n : Nat) (l' : Loc) (n' : Nat) : Bool :=
  match l, l' with
  | .pa a, .pa b => decide (a < b + n') && decide (b < a + n)
  | .ls c a, .ls d b => decide (c = d) && decide (a < b + n') && decide (b < a + n)
  | .peer f a, .peer g b => decide (f = g) && decide (a < b + n') && decide (b < a + n)
  | .nowhere a, .nowhere b => decide (a < b + n') && decide (b < a + n)
  | _, _ => false

/-- Held work of a stream: what it issued, and, after a trap or a return, what its hart issued before (R264). -/
def Held.of (w : Held) (slot : Nat) (st : StreamId) : Bool := decide (w.slot = slot) && (decide (w.stream = st) || w.both)

/-- An access comes after work of its stream that S1 holds: an acquire, or an access to a common byte (R20, R164, R167). -/
def State.behindHeld (s : State) (a : Actor) (l : Loc) (n : Nat) : Bool :=
  a.own && s.held.any fun h => h.of a.slot a.stream && decide (h.work ≠ .load) && (h.acquires || h.loc.meets h.len l n)

/-- An access found waits behind work that S1 holds (R20). -/
def Actor.afterHeld (a : Actor) (kind : Kind) (p : Place) (n : Nat) : M Place := do
  let s ← get
  if kind ≠ .fetch ∧ s.behindHeld a p.loc n then waitFor .level else pure p

/-- Find the bytes of an access, through every condition of R385 but the last, and set A (R138, R208, R385). -/
def Actor.find (a : Actor) (kind : Kind) (va : Word64) (n : Nat) (z : Option Bool) (dry : Bool) : M Place := do
  if 2 ^ 56 ≤ va.toNat then trap kind.cause va
  else if inWindow va then
    let l ← a.local kind va n
    pure { loc := l, key := 0, path := [], overlay := false, garbled := false }
  else
    let q ← a.req kind va z dry
    let l ← lookup q
    let t ← resolve q l
    setA l
    pure { loc := t.loc, key := t.key, path := l.path, overlay := t.overlay, garbled := t.garbled }

/-- Find the bytes of an access in its place among the orders of the streams (R13, R20, R385); a fetch has none. -/
def Actor.place (a : Actor) (kind : Kind) (va : Word64) (n : Nat) (z : Option Bool) (dry : Bool := false) : M Place := do
  if kind = .fetch then pure () else a.observe
  let p ← a.find kind va n z dry
  a.afterHeld kind p n

/-- The bytes found are poisoned (R382). -/
def Place.poisoned (p : Place) (s : State) (n : Nat) : Bool :=
  match p.loc with
  | .pa a => s.poisoned a n
  | .ls c o => s.lsPoisoned c o n
  | .peer _ _ | .nowhere _ => false

/-- The size of a spill window (R62). -/
def spillSize : Nat := 0x280000

/-- An access of a hart's own falls in the spill window of a hart of its context whose vector state is live or saved (R66). -/
def State.inSpill (s : State) (a : Actor) (va : Word64) (n : Nat) : Bool :=
  a.window.isSome && (s.harts ++ s.saved).any fun e => decide (e.2.asid = a.asid) && e.2.vt != 0 &&
    decide (e.2.ewin.toNat < va.toNat + n) && decide (va.toNat < e.2.ewin.toNat + spillSize)

/-- The bytes of a store at a place. -/
def storeBytes (l : Loc) (n v mask : Nat) : List StoreByte :=
  (List.range n).map fun i => { loc := l.add i, val := BitVec.ofNat 8 (bitsOf v (8 * i) 8), mask := BitVec.ofNat 8 (bitsOf mask (8 * i) 8) }

/-- Every bit of n bytes. -/
def fullMask (n : Nat) : Nat := 2 ^ (8 * n) - 1

/-- A store drops its sectors from its own core's L1 as it issues (R143). -/
def dropOwn (slot : Nat) (l : Loc) (n : Nat) : M Unit :=
  match l with
  | .pa a => each (sectorsOf a n) (dropL1 (coreOfSlot slot))
  | _ => pure ()

/-- The store of n bytes at a place found. -/
def Actor.storeOf (a : Actor) (p : Place) (n v mask : Nat) : PendingStore :=
  { slot := a.slot, stream := a.stream, strip := a.strip, scalar := a.scalar, bytes := storeBytes p.loc n v mask
    op := a.op, drops := a.drops, due := none, via := p.path, key := p.key, asid := a.asid }

/-- A store in flight of an actor's stream that touches some bytes. -/
def Actor.earlier (a : Actor) (l : Loc) (n : Nat) (p : PendingStore) : Bool := a.own && p.of a.slot a.stream && p.touches l n

/-- An earlier store of the stream to some bytes comes before its access to them (R164, R167). -/
def Actor.comesAfter (a : Actor) (l : Loc) (n : Nat) (p : PendingStore) : Bool := a.earlier l n p && p.orders a.scalar a.strip

/-- Perform the stream's earlier stores to some bytes that come before its access to them. -/
def Actor.drainBefore (a : Actor) (l : Loc) (n : Nat) : M Unit := drain (a.comesAfter l n)

/-- A load comes after the stream's earlier stores to its bytes that R164 orders before it, and waits for one that cannot perform yet; of each
that nothing orders, it comes before or after (R164, R209). -/
def Actor.meetOwn (a : Actor) (l : Loc) (n : Nat) : M Unit := do
  a.drainBefore l n
  let s ← get
  if s.keeps fun p => a.comesAfter l n p && p.peer.isNone then waitFor .level else pure ()
  each (s.pending.filter (a.earlier l n)) fun p => do
    let sees ← freeBool
    if sees then drain fun q => q == p else pure ()

/-- Perform every store in flight of a hart. -/
def drainHart (slot : Nat) : M Unit := drain fun p => decide (p.slot = slot)

/-- Perform every store in flight of a stream. -/
def drainStream (slot : Nat) (st : StreamId) : M Unit := drain fun p => decide (p.slot = slot) && decide (p.stream = st)

/-- What a load in S1 of a peer's memory leaves held: its value is free, and what it fills is not there before S2 (R20, log 17). Where the load is
part of something larger, its transfer waits, or its instruction is held as a whole. -/
def Actor.holdLoad (a : Actor) (whole : Bool) (va : Word64) (l : Loc) (n : Nat) : M Unit := do
  let s ← get
  if a.engine || !a.own then waitFor .level
  else if !whole || s.curLoads.isEmpty then waitFor .absent
  else
    let w : Held := { slot := a.slot, stream := a.stream, regs := s.curLoads, acquires := false, releases := false
                      loc := l, len := n, after := [], work := .load, born := s.nextId
                      lines := [{ lo := va.toNat / 256, hi := (va.toNat + n - 1) / 256, write := false }] }
    set { s with held := s.held ++ [w] }

/-- A load of a peer's memory needs S2, and a port that can take its request: a hart waits for one, and for an engine's or the device's own the
other end acknowledges what it has received (R20, R361, log 17). -/
def Actor.reachPeer (a : Actor) (via : LoadVia) (va : Word64) (l : Loc) (n : Nat) : M Unit := do
  let s ← get
  match l with
  | .peer f _ =>
    if s.level ≠ .s2 then a.holdLoad (decide (via ≠ .home)) va l n
    else if s.peerWaits f 1 then do
      if a.engine || !a.own then makeRoom f 1 else pure ()
      let s ← get
      if s.peerWaits f 1 then waitFor .interlock else pure ()
    else pure ()
  | _ => pure ()

/-- A poisoned 64-bit word of an L1 copy is among n bytes at an address (R382). -/
def L1Line.strikes (line : L1Line) (x n : Nat) : Bool := line.poison.any fun w => decide (x % 32 < 8 * w + 8) && decide (8 * w < x % 32 + n)

/-- A plain load that finds a poisoned word in its core's L1 takes it and meets the poison, or the copy has left the L1 (R382). -/
def Actor.meetCopy (a : Actor) (via : LoadVia) (l : Loc) (va : Word64) (n : Nat) : M Unit := do
  let s ← get
  match via, l with
  | .plain, .pa x =>
    if (SMap.get? (s.core (coreOfSlot a.slot)).l1 (x / 32)).any fun line => line.strikes x n then
      let hit ← freeBool
      if hit then trap 0x11 va else dropL1 (coreOfSlot a.slot) (x / 32)
    else pure ()
  | _, _ => pure ()

/-- Load n bytes (R140, R143, R164); a load from a spill window in use gives unspecified values (R66). A load of a sector whose home is poisoned
raises 0x11 also where R143 would let an older sound copy of it serve (log 38). -/
def Actor.load (a : Actor) (via : LoadVia) (va : Word64) (n : Nat) (z : Option Bool := some false) : M Nat := do
  let p ← a.place .load va n z
  a.meetOwn p.loc n
  let s ← get
  if p.poisoned s n then trap 0x11 va
  else if p.garbled || s.inSpill a va n then freeBytes n
  else
    a.reachPeer via va p.loc n
    a.meetCopy via p.loc va n
    loadLoc a.loader via p.key p.loc n

/-- Note what a store of an instruction or a transfer writes of poisoned sectors (R382). -/
def Actor.note (a : Actor) (p : PendingStore) : M Unit :=
  match a.job with
  | none => pure ()
  | some j => modify fun s => s.noteCover a.slot a.stream j p.bytes

/-- A store performs as it issues, after the stream's earlier stores to its bytes; to a peer that cannot be reached yet it joins the
stores in flight, or, as an engine's or the device's own, waits (R20, R164, R361). It waits also where it changes a table entry behind a store
that cannot perform yet (R209). -/
def Actor.performNow (a : Actor) (l : Loc) (n : Nat) (p : PendingStore) : M Unit := do
  a.drainBefore l n
  match p.peer with
  | some (f, _) => if a.engine || !a.own then makeRoom f (PeerMsg.store p).flits else pure ()
  | none => pure ()
  let s ← get
  if s.blocks p then waitFor .level
  else if s.stays p then if a.engine || !a.own then waitFor .level else set { s with pending := s.pending ++ [p] }
  else perform s.pending.length p

/-- Issue a store of n bytes: it joins the stores in flight (R163). A store to a page with an overlay performs as it issues,
in one event with the change of side of its line (R177). -/
def Actor.store (a : Actor) (va : Word64) (n v mask : Nat) : M Unit := do
  let p ← a.place .store va n (some false)
  if a.drops then dropOwn a.slot p.loc n else pure ()
  a.note (a.storeOf p n v mask)
  if p.overlay then a.performNow p.loc n (a.storeOf p n v mask)
  else modify fun s => { s with pending := s.pending ++ [a.storeOf p n v mask] }

/-- A store that performs as it issues: of an engine, or of the device itself. -/
def Actor.storeNow (a : Actor) (va : Word64) (n v : Nat) (z : Option Bool := some false) (mask : Option Nat := none) : M Unit := do
  let p ← a.place .store va n z
  if a.drops then dropOwn a.slot p.loc n else pure ()
  a.note (a.storeOf p n v (mask.getD (fullMask n)))
  a.performNow p.loc n (a.storeOf p n v (mask.getD (fullMask n)))

/-- The new value of an atomic of w bits, from the old one, the operand and the old sd, each of its width; none writes nothing (R155,
R156). -/
def AmoOp.result (w old b e : Nat) : AmoOp → Option Nat
  | .read => none
  | .add => some ((old + b) % 2 ^ w)
  | .swap => some b
  | .max => some (if signedOf w old < signedOf w b then b else old)
  | .min => some (if signedOf w b < signedOf w old then b else old)
  | .maxN => some (Nat.max old b)
  | .minN => some (Nat.min old b)
  | .and => some (old &&& b)
  | .or => some (old ||| b)
  | .cas => if old = e then some b else none

/-- The translation of an atomic: a load where it writes nothing (R156). -/
def AmoOp.kind (op : AmoOp) : Kind := if op = .read then .load else .store

/-- How S1 holds an atomic: at `.fab` scope wherever it goes, what its old value fills, and its order (R20, R157). -/
structure HoldAs where
  fab : Bool := false
  regs : List RegName := []
  acquires : Bool := false
  releases : Bool := false
  deriving DecidableEq, Repr

/-- The place is in a peer's memory. -/
def Loc.isPeer : Loc → Bool
  | .peer _ _ => true
  | _ => false

/-- A transfer that fences and releases count: every one but a page move (R158). -/
def Transfer.counted (t : Transfer) : Bool :=
  match t.work with
  | .move .. => false
  | _ => true

/-- The transfers that a fence or a release of a stream comes after (R158, R264). -/
def Hart.inFlight (h : Hart) (st : StreamId) : List Nat :=
  (h.transfers.filter fun t => (decide (t.stream = st) || t.both) && t.counted).map Transfer.id

/-- In S1 an atomic of a peer's memory, or at `.fab` scope, is held once its checks have passed (R20). -/
def Actor.holdAtomic (a : Actor) (va : Word64) (n : Nat) (op : AmoOp) (b e : Nat) (as : HoldAs) : M Bool := do
  let s ← get
  if s.level = .s2 then pure false
  else
    a.observe
    let p ← a.find op.kind va n (some false) true
    if as.fab || p.loc.isPeer then
      let ts := (SMap.get? s.harts a.slot).elim [] fun h => h.inFlight a.stream
      let w : Held := { slot := a.slot, stream := a.stream, regs := as.regs, acquires := as.acquires, releases := as.releases
                        loc := p.loc, len := n, after := ts, work := .atomic va n op b e, born := s.nextId
                        lines := [{ lo := va.toNat / 256, hi := (va.toNat + n - 1) / 256, write := decide (op ≠ .read) }] }
      modify fun s => { s with held := s.held ++ [w] }
      pure true
    else pure false

/-- What an indivisible access finds in n bytes of a place (R140, R155, R171). -/
def Actor.readHome (a : Actor) (p : Place) (va : Word64) (n : Nat) : M Nat := do
  a.meetOwn p.loc n
  let s ← get
  if p.poisoned s n then trap 0x11 va
  else if p.garbled || s.inSpill a va n then freeBytes n
  else
    a.reachPeer .home va p.loc n
    loadLoc a.loader .home p.key p.loc n

/-- An indivisible read-modify-write at the home (R155, R171). A `cas` is checked as a store, and changes its line's side only once its
comparison holds (R156). -/
def Actor.atomic (a : Actor) (va : Word64) (n : Nat) (op : AmoOp) (b e : Nat) : M Nat := do
  let p ← a.place op.kind va n (some false) (decide (op = .cas))
  let old ← a.readHome p va n
  match op.result (8 * n) old b e with
  | none => pure old
  | some new => do
    let p' ← if op = .cas then a.place .store va n (some false) else pure p
    if a.drops then dropOwn a.slot p'.loc n else pure ()
    a.note (a.storeOf p' n new (fullMask n))
    a.performNow p'.loc n (a.storeOf p' n new (fullMask n))
    pure old

/-- The accesses of a line that conflict with a transfer in flight (R173). -/
def Transfer.conflicts (t : Transfer) (lo hi : Nat) (write : Bool) : Bool :=
  t.ranges.any (fun r => decide (r.lo ≤ hi) && decide (lo ≤ r.hi) && (r.write || write)) ||
  (write && (t.unnamed || t.pages.any fun p => decide (p * 256 ≤ hi) && decide (lo ≤ p * 256 + 255)))

/-- An access conflicts with the open entry of an indexed form of the hart that has stopped between its elements (R173). -/
def Hart.opened (h : Hart) (write : Bool) : Bool := h.openA.any fun w => w || write

/-- Work of the hart at a slot that S1 holds conflicts with an access to some lines; the interlock table treats it as in flight (R20, R173). -/
def State.heldOn (s : State) (slot lo hi : Nat) (write : Bool) : Bool :=
  s.held.any fun w => decide (w.slot = slot) && w.lines.any fun r => decide (r.lo ≤ hi) && decide (lo ≤ r.hi) && (r.write || write)

/-- Wait while a transfer of the hart in flight conflicts with an access to some lines (R173). -/
def interlockLines (lo hi : Nat) (write : Bool) : M Unit := do
  let h ← getHart
  let s ← get
  if h.opened write || s.heldOn s.curSlot lo hi write || h.transfers.any fun t => t.conflicts lo hi write then waitFor .interlock
  else pure ()

/-- Wait while a transfer of the hart in flight conflicts with an access to n bytes (R173). -/
def interlock (va : Word64) (n : Nat) (write : Bool) : M Unit := interlockLines (va.toNat / 256) ((va.toNat + n - 1) / 256) write

/-- Raise misaligned unless the address is a multiple of n (R139). -/
def aligned (va : Word64) (n : Nat) : M Unit := if va.toNat % n = 0 then pure () else trap 0x08 va

end Sys2Proof.Machine
end

