-- ==== Sys2Proof/Machine/Ops.lean ====
section
/-! DEFINITION. The operations every instruction's meaning is made of: a stream's scalar registers and program counter, the
checks of issue, taking a trap and returning from one, and the way a meaning ends in an outcome (R36 to R39, R47, R257 to
R264). -/

namespace Sys2Proof.Machine

/-- A scalar register of a stream; s0 reads zero (R47). -/
def Hart.sreg (h : Hart) (st : StreamId) (r : SReg) : Word64 :=
  if r.val = 0 then 0 else match st with
    | .x => h.xs[r]
    | .a => h.as[r]

/-- A hart with a scalar register of a stream written; a write to s0 is discarded (R47). -/
def Hart.setS (h : Hart) (st : StreamId) (r : SReg) (v : Word64) : Hart :=
  if r.val = 0 then h else match st with
    | .x => { h with xs := h.xs.set r v }
    | .a => { h with as := h.as.set r v }

/-- The program counter of a stream. -/
def Hart.pc (h : Hart) (st : StreamId) : Word64 :=
  match st with
  | .x => h.xpc
  | .a => h.apc

/-- A program counter's bits 1:0 are always zero (R25). -/
def pcBits (v : Word64) : Word64 := v &&& ~~~3#64

/-- A hart with the program counter of a stream set. -/
def Hart.setPc (h : Hart) (st : StreamId) (v : Word64) : Hart :=
  match st with
  | .x => { h with xpc := pcBits v }
  | .a => { h with apc := pcBits v }

/-- A hart whose stream has moved past its instruction. -/
def Hart.advance (h : Hart) (st : StreamId) : Hart := h.setPc st (h.pc st + 4)

/-- `resume` of a stream (R54). -/
def Hart.resume (h : Hart) (st : StreamId) : Word64 :=
  match st with
  | .x => h.resumeX
  | .a => h.resumeA

/-- A hart with `resume` of a stream set. -/
def Hart.setResume (h : Hart) (st : StreamId) (v : Word64) : Hart :=
  match st with
  | .x => { h with resumeX := v }
  | .a => { h with resumeA := v }

/-- Read a scalar register of the issuing stream. -/
def rS (r : SReg) : M Word64 := do
  let h ← getHart
  let st ← curStream
  pure (h.sreg st r)

/-- Write a scalar register of the issuing stream. -/
def wS (r : SReg) (v : Word64) : M Unit := do
  let st ← curStream
  modHart fun h => h.setS st r v

/-- Move past the instruction. -/
def retire : M Unit := do
  let st ← curStream
  modHart fun h => h.advance st

/-- The program counter of the issuing stream. -/
def curPc : M Word64 := do
  let h ← getHart
  let st ← curStream
  pure (h.pc st)

/-- Set the program counter of the issuing stream. -/
def jumpTo (v : Word64) : M Unit := do
  let st ← curStream
  modHart fun h => h.setPc st v

/-- A form of the execute stream only (R38). -/
def onlyX : M Unit := do
  let st ← curStream
  if st = .x then pure () else trapWord 0x03

/-- A form of the access stream only (R38). -/
def onlyA : M Unit := do
  let st ← curStream
  if st = .a then pure () else trapWord 0x03

/-- A form marked S (R39). -/
def onlyS : M Unit := do
  let h ← getHart
  if h.priv = .s then pure () else trapWord 0x04

/-- A form marked S and mg (R253). -/
def onlyMg : M Unit := do
  onlyS
  let h ← getHart
  let s ← get
  match SMap.get? s.contexts h.asid with
  | some c => if c.mg then pure () else trapWord 0x04 6
  | none => trapWord 0x04 6

/-- A form that needs live vector state (R48). -/
def needLive : M Unit := do
  let h ← getHart
  if h.live then pure () else trapWord 0x05

/-- A refresh point of the L1 for a stream: poisoned words of its core are fetched again (R142, R258). -/
def refreshPoint (st : StreamId) : M Unit := do
  let s ← get
  modHart fun h => match st with
    | .x => { h with refX := s.tick }
    | .a => { h with refA := s.tick }
  modCore (coreOfSlot s.curSlot) fun c => { c with icache := c.icache.filter fun e => match e.2 with
    | .poison _ _ => false
    | .word _ _ => true }

/-- A hart that stops for a collection: what waits at issue is abandoned (R265). -/
def Hart.stop (h : Hart) : Hart := { h with stopped := true, waitA := none, waitX := none, waitCap := none, firstWait := none, openA := none }

/-- A context loses its harts to a collection: every hart of it stops (R261, R265). -/
def stopContext (asid : Nat) : M Unit :=
  modify fun s => { s with harts := s.harts.map fun e => if e.2.asid = asid then (e.1, e.2.stop) else e }

/-- The kernel is a context's part of a fabric kernel (R365). -/
def Kernel.partOf (k : Kernel) (asid : Nat) : Bool := decide (k.asid = asid) && k.fab

/-- The device begins to collect a context that holds a part of a fabric kernel: every member of the fabric is told, with the deadline, and every
part has to be loaded again before one issues (R365). -/
def pauseParts (asid d : Nat) : M Unit := do
  let s ← get
  if s.kernels.any fun k => k.2.partOf asid then
    set { s with kernels := s.kernels.map fun (e : Nat × Kernel) => (e.1, if e.2.partOf asid then { e.2 with reports := [] } else e.2) }
    tellPeers (.pause asid d)
  else pure ()

/-- A context that runs, or that a checkpoint holds while it runs (R252). -/
def Context.runs (c : Context) : Bool := decide (c.state = .running) || decide (c.state = .checkpointing)

/-- A double fault: both streams halt, and the whole context is collected (R261). The deadline that other members give a part of it is 0, since it has
none (DESIGN CHOICE: log 51). -/
def doubleFault (cause : BitVec 8) (addr : Word64) : M Unit := do
  let h ← getHart
  setHart { h with halted := some (cause, addr), retake := true }
  let s ← get
  if (SMap.get? s.contexts h.asid).any fun c => c.runs && c.fault.isNone then pauseParts h.asid 0 else pure ()
  modify fun s => match SMap.get? s.contexts h.asid with
    | none => s
    | some c =>
      let f : FaultRec := { core := coreOfSlot h.slot, place := h.slot % 16, epc := h.epc, etval := h.etval, cause := cause, addr := addr }
      { s with contexts := SMap.put s.contexts h.asid { c with fault := c.fault.or (some f) } }
  stopContext h.asid

/-- The eight doublewords of the trap frame (R259). -/
def Hart.frame (h : Hart) (st : StreamId) : List Word64 :=
  [h.as[28], h.as[29], h.as[30], h.as[31], if st = .a then 0 else if h.arun then h.apc else 1, h.resumeA, 0, 0]

/-- The address of the trap frame (R259). -/
def Hart.frameAddr (h : Hart) : Word64 := h.tstack - 64

/-- Store the frame of the trap last taken, in S mode and on the device's own account (R138, R259). -/
def storeFrame (h : Hart) : M Unit := do
  let f := h.frameAddr
  aligned f 8
  each h.entered.zipIdx fun (v, i) => (deviceActor h.slot h.asid).storeNow (f + BitVec.ofNat 64 (8 * i)) 8 v.toNat

/-- The registers that trap entry saves into, set for a trap of stream `st` (R52, R259). -/
def Hart.saveTrap (h : Hart) (st : StreamId) (cause : BitVec 8) (etval : Word64) (sub : BitVec 5) : Hart :=
  { h with
    ecause := cause, epc := h.pc st, etval := etval, estream := decide (st = .a)
    estatus := { pvt := h.vt, pmd := h.md, pvl := h.vl, ppriv := h.priv, sub := sub }
    md := 0, waitA := none, waitX := none, waitCap := none, firstWait := none, openA := none, deadCount := 0, entered := h.frame st }

/-- A trap or a return joins the program orders of a hart's streams: what both have refreshed and what both have in flight counts for
each of them (R264). -/
def Hart.joined (h : Hart) : Hart :=
  { h with refA := max h.refA h.refX, refX := max h.refA h.refX, transfers := h.transfers.map fun t => { t with both := true } }

/-- What a hart's streams have in flight or held comes before what either of them issues from now on (R264). -/
def State.joinWork (s : State) (slot : Nat) : State :=
  { s with
    pending := s.pending.map fun p => if p.slot = slot then { p with both := true } else p
    held := s.held.map fun w => if w.slot = slot then { w with both := true } else w
    cutMarks := s.cutMarks.filter fun m => m.slot != slot }

/-- A trap or a return: a hart's stores perform, and what cannot perform yet joins the program orders of both streams (R264). -/
def joinHart (slot : Nat) : M Unit := do
  drainHart slot
  modify fun s => s.joinWork slot

/-- A hart at its handler: the access stream runs it in S mode, in the entry window (R259, R264). -/
def Hart.enterHandler (h : Hart) : Hart :=
  { (h.setS .a 31 h.frameAddr).joined with resumeA := 0, priv := .s, win := true, arun := true, apc := pcBits h.thandler }

/-- The trap frame is stored and the handler entered; a fault of the store is a double fault, and while the store waits for a page move
nothing is done (R215, R259, R261). -/
def enterTrap : M Unit := do
  let h ← getHart
  match ← attempt (storeFrame h) with
  | .ok () => modHart Hart.enterHandler
  | .error (.trap c v _ _) => doubleFault c v
  | .error e => throw e

/-- Trap entry (R259). The trapping stream's word is at its program counter; the other stream stands at an instruction
boundary. What both streams issued before is ordered before the handler (R264). -/
def trapEntry (cause : BitVec 8) (etval : Word64) (sub : BitVec 5) : M Unit := do
  let h ← getHart
  let st ← curStream
  if h.win then doubleFault cause etval
  else
    joinHart h.slot
    setHart (h.saveTrap st cause etval sub)
    enterTrap

/-- Trap entry again for the trap a hart holds, with the frame it stored then, after a double fault has been recovered (R261). -/
def retakeTrap : M Unit := do
  modHart fun h => { h with retake := false, halted := none, win := false }
  enterTrap

/-- A hart returned from its handler, with the frame's doublewords (R263, R264). A `pvt` that the handler has changed is put in force alone:
lengths, residency and the grant stay (log 36). -/
def Hart.leaveHandler (h : Hart) (x : List Word64) : Hart :=
  let apc := x.getD 4 0
  let h := if h.estream then { h with apc := pcBits h.epc }
    else { h with xpc := pcBits h.epc, arun := decide (apc ≠ 1), apc := if apc = 1 then h.apc else pcBits apc }
  let h := ((((h.setS .a 28 (x.getD 0 0)).setS .a 29 (x.getD 1 0)).setS .a 30 (x.getD 2 0)).setS .a 31 (x.getD 3 0))
  { h.joined with resumeA := x.getD 5 0, vl := h.estatus.pvl, vt := h.estatus.pvt, md := h.estatus.pmd, priv := h.estatus.ppriv }

/-- The trap frame's doublewords, read in S mode on the device's own account (R138, R263). -/
def readFrame (h : Hart) : M (List Word64) := do
  let f := h.frameAddr
  aligned f 8
  eachMap (List.range 8) fun i => do
    let v ← (deviceActor h.slot h.asid).load .home (f + BitVec.ofNat 64 (8 * i)) 8
    pure (BitVec.ofNat 64 v)

/-- Return from the handler, whose own stores to its frame it reads (R263); inside the entry window it is a double fault, whose second cause and address the spec
does not give (free values, log 5). -/
def trapReturn : M Unit := do
  let h ← getHart
  if h.win then
    let c ← freeWord
    let v ← freeWord
    doubleFault (c.setWidth 8) v
  else
    joinHart h.slot
    let x ← readFrame h
    modHart fun h => h.leaveHandler x

/-- A hart for which something has happened: whether its streams still wait shows when they issue again (R235). -/
def Hart.stirred (h : Hart) : Hart := { h with waitA := none, waitX := none, deadCount := 0 }

/-- A hart one of whose streams waits at issue, with the word it waits with. -/
def Hart.waiting (h : Hart) (st : StreamId) (word : Word32) (w : Wait) : Hart :=
  match st with
  | .x => { h with waitX := some w, wordX := word }
  | .a => { h with waitA := some w }

/-- The state with the issuing stream's wait noted, or, when it has retired, with neither stream known to wait (R235). -/
def markWait (w : Option Wait) (s : State) : State :=
  match s.hart with
  | none => s
  | some h => s.putHart (match w with
      | none => h.stirred
      | some w => h.waiting s.curStream s.curWord w)

/-- The state after trap entry; where its frame store waits, the instruction waits, and meets its cause again (R215, R259). -/
def after (x : M Unit) (s : State) : State :=
  match x s with
  | .ok _ s' => s'
  | .error (.wait w _) _ => markWait (some w) s
  | .error _ s' => s'

/-- The scalar registers of a stream. -/
def Hart.sregs (h : Hart) : StreamId → Vector Word64 32
  | .x => h.xs
  | .a => h.as

/-- The lines of an engine's or an indexed form that S1 holds as a whole: its ranges are not known yet, so that it conflicts with every line, as a write
or a read (R20, R173, log 17). -/
def wholeLines : Instr → List LineRange
  | .cpy .. | .cpyx .. | .cpyz .. | .cpyp .. | .cpyd .. | .kvcompact .. | .vsca .. | .vscaa .. => [{ lo := 0, hi := 2 ^ 56, write := true }]
  | .vgat .. | .vgatff .. | .kvx .. | .sattn .. => [{ lo := 0, hi := 2 ^ 56, write := false }]
  | _ => []

/-- The lines of the instruction being issued, where it is held as a whole. -/
def State.curLines (s : State) : List LineRange :=
  match decodeWord s.curWord.toNat with
  | .instr i => wholeLines i
  | .null | .illegal _ => []

/-- The state with the instruction being issued held as a whole: it retires, and what it names stays as it is until S2 (R20, log 17). -/
def State.holdWhole (s : State) : State :=
  match s.hart with
  | none => s
  | some h =>
    let w : Held := { slot := h.slot, stream := s.curStream, regs := s.curNamed, acquires := true, releases := false, loc := .nowhere 0, len := 0
                      after := [], work := .whole s.curWord (h.pc s.curStream) (h.resume s.curStream) h.priv (h.sregs s.curStream)
                      born := s.nextId, lines := s.curLines }
    { s with held := s.held ++ [w] }.putHart ((h.advance s.curStream).setResume s.curStream 0).stirred

/-- An instruction's meaning as an outcome: it retires; it waits, and has changed nothing unless it is resumable; it is held as a whole; or it
traps, and trap entry follows (R20, R148, R257, R259). -/
def issue (x : M Unit) (s : State) : Host.Outcome State Fault Refusal :=
  match x s with
  | .ok _ s' => .next (markWait none s')
  | .error (.trap c v b keep) s' => .next (after (trapEntry c v b) (if keep then s' else s))
  | .error (.wait .absent _) _ => .next s.holdWhole
  | .error (.wait w keep) s' => .next (markWait (some w) (if keep then s' else s))
  | .error .noHart _ => .fault .noHart

/-- An event's meaning as an outcome: an event that cannot happen in a state changes nothing (log 20). -/
def event (x : M Unit) (s : State) : Host.Outcome State Fault Refusal :=
  match x s with
  | .ok _ s' => .next s'
  | .error _ _ => .next s

/-- The event cannot happen in this state. -/
def impossible {α : Type} : M α := throw .noHart

/-- Run a part for another hart's stream, as if it were issuing. -/
def asHart {α : Type} (slot : Nat) (st : StreamId) (x : M α) : M α := do
  let s ← get
  set { s with curSlot := slot, curStream := st }
  let a ← x
  modify fun s' => { s' with curSlot := s.curSlot, curStream := s.curStream }
  pure a

/-- S1 holds an arrival of the hart's execute stream at a fabric barrier (R20, R303). -/
def State.arrivalHeld (s : State) (h : Hart) (st : StreamId) : Bool := decide (st = .x) && s.level != .s2 && h.pend.extractLsb' 48 16 != 0

/-- Wait until the engine work that a stream issued has performed, and until work of the stream that S1 holds has been performed
(R20, R158). -/
def settleEngines (st : StreamId) : M Unit := do
  let h ← getHart
  let s ← get
  if h.transfers.any fun t => (decide (t.stream = st) || t.both) && t.counted then waitFor .fence
  else if s.held.any (fun w => w.of h.slot st) || s.keeps (fun p => p.of h.slot st) || s.arrivalHeld h st then waitFor .level
  else pure ()

/-- An order of a hart's access stream comes after what its cutter forms have written of maps and bound copies (R357). -/
def State.orderCuts (s : State) (slot : Nat) (st : StreamId) : State :=
  match st with
  | .x => s
  | .a => { s with cutMarks := s.cutMarks.filter fun m => m.slot != slot }

/-- What an order of a stream puts first: its own stores in flight, and those that an order of another stream puts before what this hart does, which
the hart has observed (R167, R170, R174). -/
def PendingStore.precedes (p : PendingStore) (slot : Nat) (st : StreamId) : Bool := p.of slot st || p.due.any fun sc => Scope.holds sc p.slot slot

/-- Every earlier access of a stream, its engine work included, has performed toward the observers inside a scope: at a scope that takes in
the whole device it has performed, and at a narrower one it performs before they make another access (R13, R158, R167, log 6). What has gone out
to a peer stays gone where the rest waits for its port (R361). -/
def settle (st : StreamId) (sc : Scope) : M Unit := do
  settleEngines st
  let h ← getHart
  modify fun s => s.orderCuts h.slot st
  if sc = .dev ∨ sc = .fab then do
    drain fun p => p.precedes h.slot st
    let s ← get
    if s.pending.any fun p => p.precedes h.slot st then throw (.wait .level true) else pure ()
  else modify fun s => { s with pending := s.pending.map fun p => if p.precedes h.slot st then p.dueAt sc else p }

end Sys2Proof.Machine
end

