-- ==== Sys2Proof/Machine/Operands.lean ====
section
/-! DEFINITION. Vector, predicate and scale operands: elements of bit strings, residency and the spill window, the checks of
a vector form, its active elements, and the pass over them that rounds, steps the generators and takes the first-NaN record
(R53, R61 to R66, R80, R87, R111 to R116, R138). -/

namespace Sys2Proof.Machine

/-- Element i of a bit string (R61). -/
def elemOf (ew bits i : Nat) : Nat := bitsOf bits (i * ew) ew

/-- A bit string with element i replaced (R61). -/
def setElem (ew bits i v : Nat) : Nat := putBits bits (i * ew) ew v

/-- The two files that spill. -/
inductive RFile where
  | v | p
  deriving DecidableEq, Repr

/-- The registers of a file that are resident. -/
def Hart.resident (h : Hart) : RFile → List Nat
  | .v => h.vres
  | .p => h.pres

/-- The dirty registers of a file. -/
def Hart.dirty (h : Hart) : RFile → List Nat
  | .v => h.vdirty
  | .p => h.pdirty

/-- The registers of a file from the oldest last reference to the newest. -/
def Hart.order (h : Hart) : RFile → List Nat
  | .v => h.vorder
  | .p => h.porder

/-- The content of a register of a file. -/
def Hart.content (h : Hart) (f : RFile) (x : Nat) : Nat :=
  match f with
  | .v => (h.v.getD x { bits := 0, tag := none }).bits
  | .p => h.p.getD x 0

/-- How many of a register's low bits its spill slot holds. -/
def Hart.slotBits (h : Hart) (f : RFile) (x : Nat) : Nat :=
  match f with
  | .v => h.vslot.getD x 0
  | .p => h.pslot.getD x 0

/-- The length of a file's registers in bits (R61). -/
def Hart.fileBits (h : Hart) : RFile → Nat
  | .v => h.vbits
  | .p => h.vlmax

/-- How many registers of a file are resident at once under a vector type (R63). -/
def fileSlots (vt : BitVec 8) : RFile → Nat
  | .v => vectorSlots vt
  | .p => predicateSlots vt

/-- A vector with the element at a number replaced. -/
def vput {α : Type} {n : Nat} (v : Vector α n) (i : Nat) (a : α) : Vector α n := if h : i < n then v.set i a else v

/-- A hart with a register's content replaced and its tag kept. -/
def Hart.setContent (h : Hart) (f : RFile) (x bits : Nat) : Hart :=
  match f with
  | .v => { h with v := vput h.v x { bits := bits, tag := (h.v.getD x { bits := 0, tag := none }).tag } }
  | .p => { h with p := vput h.p x bits }

/-- A hart with a register of a file resident and clean, or not resident. -/
def Hart.setResident (h : Hart) (f : RFile) (x : Nat) (yes : Bool) : Hart :=
  match f with
  | .v => { h with vres := if yes then addNum h.vres x else delNum h.vres x, vdirty := delNum h.vdirty x }
  | .p => { h with pres := if yes then addNum h.pres x else delNum h.pres x, pdirty := delNum h.pdirty x }

/-- A hart whose spill slot of a register holds n of its low bits. -/
def Hart.setSlotBits (h : Hart) (f : RFile) (x n : Nat) : Hart :=
  match f with
  | .v => { h with vslot := vput h.vslot x n }
  | .p => { h with pslot := vput h.pslot x n }

/-- A hart in which a form has just named registers of a file and writes some of them (R64). -/
def Hart.reference (h : Hart) (f : RFile) (named written : List Nat) : Hart :=
  match f with
  | .v => { h with vorder := h.vorder.filter (fun x => !named.contains x) ++ (List.range 64).filter named.contains
                   vdirty := written.foldl addNum h.vdirty }
  | .p => { h with porder := h.porder.filter (fun x => !named.contains x) ++ (List.range 64).filter named.contains
                   pdirty := written.foldl addNum h.pdirty }

/-- The address of a register's spill slot (R62). -/
def spillAddr (ewin : Word64) (f : RFile) (x : Nat) : Word64 :=
  match f with
  | .v => ewin + BitVec.ofNat 64 (x * 0x8000)
  | .p => ewin + BitVec.ofNat 64 (0x200000 + x * 0x2000)

/-- The pieces of n bytes: offset and length, none above 256 bytes. -/
def pieces (n : Nat) : List (Nat × Nat) := (List.range ((n + 255) / 256)).map fun i => (256 * i, min 256 (n - 256 * i))

/-- Run a part whose translation faults of a cause carry a subcode (R65). -/
def withSub {α : Type} (cause : BitVec 8) (sub : BitVec 5) (x : M α) : M α := fun s =>
  match x s with
  | .error (.trap c v b keep) s' => .error (.trap c v (if c = cause then sub else b) keep) s'
  | r => r

/-- The hart's spills: the device acts on its own account, and neither reads nor writes the L1 (R65, R138). -/
def spillActor (h : Hart) : Actor := { deviceActor h.slot h.asid with drops := false }

/-- The offset of a register's slot in the spill window, and its size (R62). -/
def spillSlot : RFile → Nat → Nat × Nat
  | .v, x => (x * 0x8000, 0x8000)
  | .p, x => (0x200000 + x * 0x2000, 0x2000)

/-- The bits of a register's slot that something has been stored to (R66). -/
def State.hitBits (s : State) (h : Hart) (f : RFile) (x : Nat) : Nat :=
  let sl := spillSlot f x
  (s.hits.filter fun e => decide (e.asid = h.asid) && decide (e.slot = h.slot)).foldl (fun m e =>
    let lo := max e.off sl.1
    let hi := min (e.off + e.len) (sl.1 + sl.2)
    if lo < hi then m ||| (2 ^ (8 * (hi - lo)) - 1) <<< (8 * (lo - sl.1)) else m) 0

/-- A hart's slot of a register has been written back or read: nothing counts as stored to it. -/
def State.clearHits (s : State) (h : Hart) (f : RFile) (x : Nat) : State :=
  let sl := spillSlot f x
  { s with hits := s.hits.flatMap fun e =>
      if e.asid = h.asid ∧ e.slot = h.slot then
        (if e.off < sl.1 then [{ e with len := min e.len (sl.1 - e.off) }] else []) ++
        (if sl.1 + sl.2 < e.off + e.len then
          let lo := max e.off (sl.1 + sl.2)
          [{ e with off := lo, len := e.off + e.len - lo }] else [])
      else [e] }

/-- The state without the places of a hart's slot of a register. -/
def State.clearHomes (s : State) (h : Hart) (f : RFile) (x : Nat) : State :=
  let sl := spillSlot f x
  { s with spilled := s.spilled.filter fun e => !(decide (e.asid = h.asid) && decide (e.slot = h.slot) && decide (sl.1 ≤ e.off) &&
      decide (e.off < sl.1 + sl.2)) }

/-- What a slot of a register held as the register left, with what is not known of it taken from what it holds now. -/
def State.slotImage (s : State) (h : Hart) (f : RFile) (x now : Nat) : Nat :=
  let sl := spillSlot f x
  (s.spilled.filter fun e => decide (e.asid = h.asid) && decide (e.slot = h.slot) && decide (sl.1 ≤ e.off) && decide (e.off < sl.1 + sl.2)).foldl
    (fun m e => putBits m (8 * (e.off - sl.1)) (8 * e.len) e.bits) now

/-- A register is not resident from now on: where the bytes of its slot lie, and what they hold (R66). -/
def spillHomes (f : RFile) (x : Nat) : M Unit := do
  let h ← getHart
  modify fun s => s.clearHomes h f x
  each (pieces (h.fileBits f / 8)) fun (o, len) => do
    match ← probe (attempt ((spillActor h).find .load (spillAddr h.ewin f x + BitVec.ofNat 64 o) len (some false) false)) with
    | .error _ => pure ()
    | .ok p =>
      if p.garbled || p.loc.isPeer then pure ()
      else
        let v ← loadLoc (spillActor h).loader .home p.key p.loc len
        modify fun s => { s with spilled := s.spilled ++
          [{ asid := h.asid, slot := h.slot, off := (spillSlot f x).1 + o, loc := p.loc, len := len, bits := v }] }

/-- Write a register to its spill slot (R62, R65). -/
def spillOut (f : RFile) (x : Nat) : M Unit := do
  let h ← getHart
  let n := h.fileBits f
  withSub 0x0B 3 (each (pieces (n / 8)) fun (o, len) =>
    (spillActor h).storeNow (spillAddr h.ewin f x + BitVec.ofNat 64 o) len (bitsOf (h.content f x) (8 * o) (8 * len)))
  modHart fun h => h.setSlotBits f x n
  modify fun s => s.clearHits h f x

/-- A register's content with the elements made unspecified whose bytes in its slot differ from what they were as it left, or have been stored to
(R66). -/
def garble (gran n old was mem hit : Nat) : M Nat :=
  eachFold (List.range (n / gran)) old fun v i => do
    if bitsOf was (gran * i) gran = bitsOf mem (gran * i) gran ∧ bitsOf hit (gran * i) gran = 0 then pure v
    else
      let w ← freeWord
      pure (putBits v (gran * i) gran (w.toNat % 2 ^ gran))

/-- The sectors of n bytes: offset and length. -/
def sectorPieces (n : Nat) : List (Nat × Nat) := (List.range ((n + 31) / 32)).map fun i => (32 * i, min 32 (n - 32 * i))

/-- Read a register from its spill slot, sector by sector, so that a fault names the sector that meets it: its content, but for what has been
written there meanwhile (R65, R66, log 37). -/
def spillIn (f : RFile) (x : Nat) : M Unit := do
  let h ← getHart
  let n := h.fileBits f
  let mem ← withSub 0x11 2 (withSub 0x0A 2 (eachFold (sectorPieces (n / 8)) 0 fun v (o, len) => do
    let b ← (spillActor h).load .home (spillAddr h.ewin f x + BitVec.ofNat 64 o) len
    pure (v + b * 2 ^ (8 * o))))
  let k := h.slotBits f x
  let old := h.content f x
  let s ← get
  let hit := s.hitBits h f x
  let was := s.slotImage h f x mem
  let new ← if bitsOf was 0 k = bitsOf mem 0 k ∧ hit = 0 then pure old
    else garble (max 8 (match f with | .v => (vtFmt h.vt).elim 8 Fmt.ew | .p => 8)) k old was mem hit
  modHart fun h => (h.setContent f x new).setResident f x true
  modify fun s => (s.clearHits h f x).clearHomes h f x

/-- Make room in a file for one more resident register: the resident register not named, with the oldest last reference,
leaves (R64). -/
def evictOne (f : RFile) (named : List Nat) : M (Option Nat) := do
  let h ← getHart
  match (h.order f).find? fun y => (h.resident f).contains y && !named.contains y with
  | none => pure none
  | some y =>
    if (h.dirty f).contains y then spillOut f y else pure ()
    spillHomes f y
    modHart fun h => h.setResident f y false
    pure (some y)

/-- Lower the number of resident registers of a file to what a vector type allows (R64). -/
def evictDown (f : RFile) (slots : Nat) : Nat → M Unit
  | 0 => pure ()
  | n + 1 => do
    let h ← getHart
    if (h.resident f).length ≤ slots then pure ()
    else
      let _ ← evictOne f []
      evictDown f slots n

/-- A hart whose register occupies a slot of the vector file (R67). -/
def Hart.setPlace (h : Hart) (x n : Nat) : Hart := { h with vplace := vput h.vplace x n }

/-- A vector register takes one of the slots that none of some others occupies; the rules do not say which (R67, log 37). -/
def placeAmong (others : List Nat) (x : Nat) : M Unit := do
  let h ← getHart
  let free := (List.range (vectorSlots h.vt)).filter fun n => !others.any fun y => h.vplace.getD y 0 == n
  let w ← freeWord
  modHart fun h => h.setPlace x (free.getD (w.toNat % max 1 free.length) 0)

/-- The slots of the resident registers once the number of slots has changed: at dc 8 a register's slot is its number, and elsewhere the rules do
not say which each keeps (R67, log 37). -/
def placeAll : M Unit := do
  let h ← getHart
  if vectorSlots h.vt = 64 then pure ()
  else eachFold h.vres [] (fun l x => do
    placeAmong l x
    pure (x :: l)) >>= fun _ => pure ()

/-- Make the named registers of a file resident. A vector register takes the slot freed for it; where room is left since a `setvl` raised the
number of slots, no register leaves for it, and it takes one of those left (R64, R67, log 37). -/
def swapFile (f : RFile) (named : List Nat) : M Unit :=
  each ((List.range 64).filter named.contains) fun x => do
    let h ← getHart
    if (h.resident f).contains x then pure ()
    else
      let y ← if (h.resident f).length < fileSlots h.vt f then pure none else evictOne f named
      spillIn f x
      match f, y with
      | .p, _ => pure ()
      | .v, some y => modHart fun h => h.setPlace x (h.vplace.getD y 0)
      | .v, none => placeAmong h.vres x

/-- The vector and predicate registers a form names, and those of them that it writes. -/
structure Named where
  vs : List Nat := []
  vw : List Nat := []
  ps : List Nat := []
  pw : List Nat := []
  deriving DecidableEq, Repr

/-- All vector registers named. -/
def Named.allV (r : Named) : List Nat := (r.vs ++ r.vw).eraseDups
/-- All predicate registers named. -/
def Named.allP (r : Named) : List Nat := (r.ps ++ r.pw).eraseDups

/-- The guard predicate as a named register (R63). -/
def Hart.guardNamed (h : Hart) : List Nat := (mdGuard h.md).elim [] fun g => [g.val]

/-- The registers a guarded form names, its guard among them. -/
def Named.guarded (r : Named) (h : Hart) : Named := { r with ps := r.ps ++ h.guardNamed }

/-- A form that needs live vector state, and no more registers than are resident at once (R48, R63). -/
def checkNamed (r : Named) : M Unit := do
  needLive
  let h ← getHart
  if r.allV.length ≤ vectorSlots h.vt ∧ r.allP.length ≤ predicateSlots h.vt then pure () else trapWord 0x05

/-- The slot of a register lies in the spill window of another hart of the context whose vector state is live or saved (R66). -/
def State.overlapped (s : State) (h : Hart) (f : RFile) (x : Nat) : Bool :=
  let sl := spillSlot f x
  (s.harts ++ s.saved).any fun e => decide (e.2.slot ≠ h.slot) && decide (e.2.asid = h.asid) && e.2.vt != 0 &&
    decide (e.2.ewin.toNat < h.ewin.toNat + sl.1 + sl.2) && decide (h.ewin.toNat + sl.1 < e.2.ewin.toNat + spillSize)

/-- A register whose slot another hart's window overlaps holds unspecified values (R66). -/
def garbleShared (f : RFile) (named : List Nat) : M Unit :=
  each named fun x => do
    let s ← get
    let h ← getHart
    if s.overlapped h f x then
      let v ← freeBytes ((h.fileBits f + 7) / 8)
      modHart fun h => h.setContent f x (v % 2 ^ h.fileBits f)
    else pure ()

/-- The bank in which word 0 of a resident vector register lies: at dc 8 its slot is its number (R67). -/
def Hart.bankOf (h : Hart) (x : Nat) : Nat := (if vectorSlots h.vt = 64 then x else h.vplace.getD x 0) % 8

/-- Two of a form's vector sources read one bank (R67). -/
def bankMeet (h : Hart) : List Nat → Bool
  | [] => false
  | x :: l => l.any (fun y => h.bankOf x == h.bankOf y) || bankMeet h l

/-- Swap in the registers named, and mark them referenced; what is done before a fault stands (R64, R65). -/
def swapIn (r : Named) : M Unit := do
  keeping (do
    swapFile .v r.allV
    swapFile .p r.allP)
  garbleShared .v r.allV
  garbleShared .p r.allP
  modHart fun h => { (h.reference .v r.allV r.vw).reference .p r.allP r.pw with banks := bankMeet h r.vs }

/-- The current format; the state is live where this is asked (R49). -/
def Hart.fmt (h : Hart) : Fmt := (vtFmt h.vt).getD .i8

/-- A vector register's bits. -/
def Hart.vbitsOf (h : Hart) (r : Nat) : Nat := (h.v.getD r { bits := 0, tag := none }).bits

/-- A vector register's tag (R53). -/
def Hart.tagOf (h : Hart) (r : Nat) : Option Fmt := (h.v.getD r { bits := 0, tag := none }).tag

/-- A hart with a vector register written and tagged (R53). -/
def Hart.setV (h : Hart) (r bits : Nat) (tag : Fmt) : Hart := { h with v := vput h.v r { bits := bits, tag := some tag } }

/-- A predicate register's bits. -/
def Hart.pbits (h : Hart) (r : Nat) : Nat := h.p.getD r 0

/-- A hart with a predicate register written. -/
def Hart.setP (h : Hart) (r bits : Nat) : Hart := { h with p := vput h.p r bits }

/-- Element i is active under the guard (R111). -/
def Hart.activeAt (h : Hart) (i : Nat) : Bool := (mdGuard h.md).elim true fun g => (h.pbits g.val).testBit i

/-- The active body elements in ascending order (R111). -/
def Hart.active (h : Hart) : List Nat := (List.range h.vl.toNat).filter h.activeAt

/-- Raise format tag mismatch unless the format is admitted and each source's tag accepted (R53, R113). -/
def checkTags (admits : Fmt → Bool) (srcs : List Nat) : M Unit := do
  let h ← getHart
  if admits h.fmt && srcs.all fun r => h.tagOf r == some h.fmt then pure () else trapWord 0x06

/-- The issue checks of a guarded vector form in their order, and the swaps (R36, R114). Every vector source must carry the
current format. -/
def vectorIssue (admits : Fmt → Bool) (r : Named) : M Hart := do
  onlyX
  let h ← getHart
  let r := r.guarded h
  checkNamed r
  checkTags admits r.vs
  swapIn r
  getHart

/-- One step of a generator: its new state, and the 24 bits it gives (R80). -/
def stepGen (x : BitVec 32) : BitVec 32 × Nat :=
  let x := x ^^^ (x <<< 13)
  let x := x ^^^ (x >>> 17)
  let x := x ^^^ (x <<< 5)
  (x, x.toNat / 256)

/-- A step of the generator of element j (R80). -/
def drawGen (gen : Vector (BitVec 32) 256) (j : Nat) : Vector (BitVec 32) 256 × Nat :=
  let r := stepGen (gen[j % 256]'(Nat.mod_lt _ (by decide)))
  (gen.set (j % 256) r.1 (Nat.mod_lt _ (by decide)), r.2)

/-- What a pass over elements has done so far: the bit string built, the generators, and the lowest element that generated a
NaN. -/
structure Lanes where
  bits : Nat
  gen : Vector (BitVec 32) 256
  nan : Option Nat
  deriving DecidableEq, Repr

/-- The lower of two element numbers that may be absent. -/
def lowerOf : Option Nat → Option Nat → Option Nat
  | none, b => b
  | a, none => a
  | some a, some b => some (min a b)

/-- One element of a pass: f gives its bits from the generator's number, and whether it generated a NaN. -/
def laneStep (ew : Nat) (draws : Bool) (f : Nat → Nat → Nat × Bool) (l : Lanes) (i : Nat) : Lanes :=
  let d := if draws then drawGen l.gen i else (l.gen, 0)
  let r := f d.2 i
  { bits := setElem ew l.bits i r.1, gen := d.1, nan := if r.2 then lowerOf l.nan (some i) else l.nan }

/-- A pass over elements in ascending order (R80). -/
def runLanes (ew : Nat) (draws : Bool) (f : Nat → Nat → Nat × Bool) (idx : List Nat) (l : Lanes) : Lanes :=
  idx.foldl (laneStep ew draws f) l

/-- A hart that has taken the first-NaN record for an element of an instruction at pc that issued at a step, unless it holds one
(R87). -/
def Hart.takeNan (h : Hart) (pc : Word64) (seq elem : Nat) : Hart :=
  if h.nanv then h else { h with nanv := true, nanpc := pc, nanelem := BitVec.ofNat 17 elem, nanSeq := seq }

/-- Take the first-NaN record for the instruction being issued (R87). -/
def noteNan (elem : Option Nat) : M Unit :=
  match elem with
  | none => pure ()
  | some e => do
    let s ← get
    modHart fun h => h.takeNan h.xpc s.tick e

/-- A pass ends: its bits go to a vector register, and the record is taken for a NaN that it generated. -/
def finishV (h : Hart) (vd : Nat) (tag : Fmt) (l : Lanes) : M Unit := do
  setHart { h.setV vd l.bits tag with gen := l.gen }
  noteNan l.nan

/-- The rounding of the hart's vector forms (R78, R84, R86). -/
def Hart.fpCtx (h : Hart) (f : Fmt) : FpCtx := { fmt := f, rm := mdRm h.md, ftz := vtFtz h.vt, pc := h.xpc }

/-- The stochastic mode is in force (R78). -/
def Hart.isSr (h : Hart) : Bool := decide (mdRm h.md = .sr)

/-- A floating input as an operation takes it: flushed under ftz (R84). -/
def Hart.input (h : Hart) (f : Fmt) (x : Nat) : Fp := Fp.of f (flush f (vtFtz h.vt) x)

/-- A plain element-wise form: nothing at `vl` = 0 (R115); else a pass over the active elements into vd, whose tag becomes the
current format (R53, R111, R112). A form that rounds steps the generators in a floating format only (R80). -/
def elementwise (h : Hart) (vd : Nat) (draws : Bool) (f : Nat → Nat → Nat × Bool) : M Unit := do
  if h.vl = 0 then retire
  else
    let l := runLanes (Fmt.ew h.fmt) (draws && h.isSr && Fmt.isFloat h.fmt) f h.active { bits := h.vbitsOf vd, gen := h.gen, nan := none }
    finishV h vd h.fmt l
    retire

/-- The registers of a group from a first one. -/
def groupOf (vd n : Nat) : List Nat := (List.range n).map (vd + ·)

/-- The effective address of a memory form (R138). -/
def addrMd (ra : SReg) (disp : BitVec 9) : M Word64 := do
  let a ← rS ra
  pure (a + disp.signExtend 64)

/-- The effective address of an indexed memory form (R138). -/
def addrMx (ra rb : SReg) : M Word64 := do
  let a ← rS ra
  let b ← rS rb
  pure (a + b)

/-- Any format. -/
def anyFmt : Fmt → Bool := fun _ => true
/-- Class N and P: every format but `b4` (R113). -/
def numFmt : Fmt → Bool := fun f => decide (f ≠ .b4)

end Sys2Proof.Machine
end

