-- ==== Sys2Proof/Machine/Queue.lean ====
section
/-! DEFINITION. The stream queues (R231 to R234). -/

namespace Sys2Proof.Machine

/-- A scalar register named by a d field of a queue form; the form's limits keep it below 32 (R232). -/
def scalarOf (r : Fin 64) : SReg := ⟨r.val % 32, Nat.mod_lt _ (by decide)⟩

/-- The places of a queue that are not free (R231). -/
def Hart.queueLen (h : Hart) (q : QNo) : Nat :=
  match q.val with
  | 4 => h.q4.length
  | 5 => h.q5.length
  | 6 => h.q6.length
  | 7 => h.q7.length
  | n => (h.vq.getD n []).length

/-- How many places a queue has (R231). -/
def queueDepth (q : QNo) : Nat := if q.val < 4 ∨ q.val = 6 then 4 else 16

/-- A scalar queue's places (R231). -/
def Hart.squeue (h : Hart) (q : QNo) : List SPlace :=
  match q.val with
  | 4 => h.q4
  | 5 => h.q5
  | _ => h.q7

/-- A hart with a scalar queue's places replaced. -/
def Hart.setSqueue (h : Hart) (q : QNo) (l : List SPlace) : Hart :=
  match q.val with
  | 4 => { h with q4 := l }
  | 5 => { h with q5 := l }
  | _ => { h with q7 := l }

/-- Wait for a place of a queue (R231). -/
def needPlace (q : QNo) : M Unit := do
  let h ← getHart
  if h.queueLen q < queueDepth q then pure () else waitFor .queue

/-- `qpush` (R232). -/
def execQpush (q : QNo) (r : Fin 64) (s : State) : Host.Outcome State Fault Refusal :=
  issue (do
    if q.val = 7 then onlyX else onlyA
    if q.val < 4 then trapWord 0x05
    else
      needPlace q
      let v ← rS (scalarOf r)
      modHart fun h => h.setSqueue q (h.squeue q ++ [.ready v])
      retire) s

/-- The stream that takes entries of a queue (R231). -/
def takingStream (q : QNo) : M Unit := if q.val = 7 then onlyA else onlyX

/-- Take, or look at, the head of a scalar queue (R232). -/
def scalarHead (q : QNo) (r : SReg) (free : Bool) : M Unit := do
  let h ← getHart
  match h.squeue q with
  | .ready v :: rest =>
    if free then setHart (h.setSqueue q rest) else pure ()
    wS r v
    retire
  | _ => waitFor .queue

/-- An entry's elements laid into a register's bits (R233). -/
def entryBits (ew : Nat) (old : Nat) (e : VEntry) : Nat := (e.elems.zipIdx).foldl (fun b x => setElem ew b x.2 x.1.toNat) old

/-- Take, or look at, the head of a vector queue: `vl` becomes the entry's length (R233). -/
def vectorHead (q : QNo) (vd : Nat) (free : Bool) : M Unit := do
  let r : Named := { vw := [vd] }
  checkNamed r
  swapIn r
  let h ← getHart
  match h.vq.getD q.val [] with
  | .ready e :: rest =>
    if h.vlmax < e.elems.length then trapWord 0x05
    else if 8 * e.esize ≠ Fmt.ew h.fmt then trapWord 0x06
    else
      let h' := h.setV vd (entryBits (Fmt.ew h.fmt) (h.vbitsOf vd) e) h.fmt
      setHart { h' with vl := BitVec.ofNat 17 e.elems.length, vq := if free then vput h'.vq q.val rest else h'.vq }
      retire
  | _ => waitFor .queue

/-- `qpop` (R232, R233). -/
def execQpop (r : Fin 64) (q : QNo) (s : State) : Host.Outcome State Fault Refusal :=
  issue (do
    takingStream q
    if q.val < 4 then vectorHead q r.val true else scalarHead q (scalarOf r) true) s

/-- `qpeek` (R232, R233). -/
def execQpeek (r : Fin 64) (q : QNo) (s : State) : Host.Outcome State Fault Refusal :=
  issue (do
    takingStream q
    if q.val < 4 then vectorHead q r.val false else scalarHead q (scalarOf r) false) s

/-- `qlen` (R232). -/
def execQlen (rd : SReg) (q : QNo) (s : State) : Host.Outcome State Fault Refusal :=
  issue (do
    let h ← getHart
    wS rd (BitVec.ofNat 64 (h.queueLen q))
    retire) s

end Sys2Proof.Machine
end

