-- ==== Sys2Proof/Machine/Transfers.lean ====
section
/-! DEFINITION. What the engine work of a hart has in common: the interlock table, the window of the event queue, tags and
completion records (R173, R238, R239). -/

namespace Sys2Proof.Machine

/-- The entries of a core's interlock table that are taken (R173). -/
def State.tableUsed (s : State) (core : Nat) : Nat :=
  ((s.harts.filter fun e => decide (coreOfSlot e.1 = core) && !e.2.acked).map fun e =>
    (e.2.transfers.map fun t => t.ranges.length + (if t.pages.isEmpty && !t.unnamed then 0 else 1)).sum).sum

/-- Wait until the interlock table has room for n entries (R173). -/
def needTable (n : Nat) : M Unit := do
  let s ← get
  if s.tableUsed (coreOfSlot s.curSlot) + n ≤ 64 then pure () else waitFor .table

/-- A range of whole lines (R173). -/
def linesOf (lo hi : Nat) (write : Bool) : LineRange := { lo := lo / 256, hi := hi / 256, write := write }

/-- The range of n bytes from an address (R173). -/
def rangeOf (va : Word64) (n : Nat) (write : Bool) : LineRange := linesOf va.toNat (va.toNat + n - 1) write

/-- A hart's places taken in its window: transfers in flight and records not taken (R238). -/
def Hart.windowUsed (h : Hart) : Nat := h.transfers.length + h.records.length

/-- Wait for a place of the hart's window (R238). -/
def needWindow : M Unit := do
  let h ← getHart
  if h.windowUsed < 15 then pure () else waitFor .window

/-- The tag counter after a tag: it skips 0xFFFF_FFFF (R238). -/
def nextTag (t : BitVec 32) : BitVec 32 := if t + 1 = 0xFFFFFFFF then 0 else t + 1

/-- Take the hart's next completion tag (R238). -/
def takeTag : M (BitVec 32) := do
  let h ← getHart
  setHart { h with tagCtr := nextTag h.tagCtr }
  pure h.tagCtr

/-- Word 0 of a completion record (R239). -/
def recordWord0 (late : Bool) (cause status kind place : Nat) (tag : BitVec 32) : Word64 :=
  BitVec.ofNat 64 (tag.toNat + place % 16 * 2 ^ 32 + kind % 16 * 2 ^ 36 + status % 256 * 2 ^ 40 + cause % 256 * 2 ^ 48 +
    (if late then 2 ^ 56 else 0))

/-- The transfer writes some line. -/
def Transfer.writes (t : Transfer) : Bool := t.ranges.any LineRange.write

/-- A transfer joins the hart's transfers in flight; one that conflicts with an open entry of the hart waits at issue (R173). -/
def startTransfer (t : Transfer) : M Unit := do
  let h ← getHart
  if h.opened t.writes then waitFor .interlock else setHart { h with transfers := h.transfers ++ [t] }

/-- A hart whose transfer has ended: it leaves the transfers in flight, and its record is posted (R175, R238). -/
def Hart.post (h : Hart) (id : Nat) (r : Record) : Hart :=
  { h.stirred with transfers := h.transfers.filter fun t => t.id != id, records := h.records ++ [r] }

/-- Wait while a transfer of the hart in flight conflicts with any of some ranges (R173). -/
def interlockRanges (rs : List LineRange) : M Unit := each rs fun r => interlockLines r.lo r.hi r.write

/-- Work that S1 holds, of the hart of a transfer that issued after it, conflicts with the transfer (R20, R173). -/
def State.heldAhead (s : State) (slot : Nat) (t : Transfer) : Bool :=
  s.held.any fun w => decide (w.slot = slot) && decide (w.born ≤ t.id) && w.lines.any fun r => t.conflicts r.lo r.hi r.write

/-- A transfer of a hart may act: no transfer that it issued before conflicts with it (R173). -/
def Hart.clearAhead (h : Hart) (id : Nat) : Bool :=
  match h.transfers.find? fun t => t.id == id with
  | none => false
  | some t => (h.transfers.takeWhile fun u => u.id != id).all fun u =>
      !(t.ranges.any (fun r => u.conflicts r.lo r.hi r.write) ||
        u.ranges.any (fun r => r.write && t.pages.any fun p => decide (p * 256 ≤ r.hi) && decide (r.lo ≤ p * 256 + 255)))

end Sys2Proof.Machine
end

