-- ==== Sys2Proof/Machine/Loads.lean ====
section
/-! DEFINITION. The scalar loads and stores, the atomics, and the prefetches (R138 to R143, R155 to R159). -/

namespace Sys2Proof.Machine

/-- How a load reads: `.fr` asks for a fresh value (R143). -/
def viaOf (fr : Bool) : LoadVia := if fr then .fresh else .plain

/-- Bytes as a scalar (R141). -/
def scalarOfBytes (signed : Bool) (n v : Nat) : Word64 := if signed then BitVec.ofInt 64 (signedOf (8 * n) v) else BitVec.ofNat 64 v

/-- A scalar load of n bytes (R141). -/
def scalarLoad (n : Nat) (signed fr : Bool) (rd : SReg) (addr : M Word64) : M Unit := do
  let va ← addr
  aligned va n
  interlock va n false
  let a ← actor
  let v ← a.load (viaOf fr) va n
  wS rd (scalarOfBytes signed n v)
  retire

/-- A scalar store of n bytes (R141). -/
def scalarStore (n : Nat) (rs : SReg) (addr : M Word64) : M Unit := do
  let va ← addr
  aligned va n
  interlock va n true
  let a ← actor
  let v ← rS rs
  a.store va n v.toNat (fullMask n)
  retire

/-- `lb`, displacement (R141). -/
def execLbMd (rd ra : SReg) (disp : BitVec 9) (fr : Bool) (s : State) : Host.Outcome State Fault Refusal :=
  issue (scalarLoad 1 true fr rd (addrMd ra disp)) s

/-- `lb`, indexed (R141). -/
def execLbMx (rd ra rb : SReg) (fr : Bool) (s : State) : Host.Outcome State Fault Refusal :=
  issue (scalarLoad 1 true fr rd (addrMx ra rb)) s

/-- `lbn`, displacement (R141). -/
def execLbnMd (rd ra : SReg) (disp : BitVec 9) (fr : Bool) (s : State) : Host.Outcome State Fault Refusal :=
  issue (scalarLoad 1 false fr rd (addrMd ra disp)) s

/-- `lbn`, indexed (R141). -/
def execLbnMx (rd ra rb : SReg) (fr : Bool) (s : State) : Host.Outcome State Fault Refusal :=
  issue (scalarLoad 1 false fr rd (addrMx ra rb)) s

/-- `lh`, displacement (R141). -/
def execLhMd (rd ra : SReg) (disp : BitVec 9) (fr : Bool) (s : State) : Host.Outcome State Fault Refusal :=
  issue (scalarLoad 2 true fr rd (addrMd ra disp)) s

/-- `lh`, indexed (R141). -/
def execLhMx (rd ra rb : SReg) (fr : Bool) (s : State) : Host.Outcome State Fault Refusal :=
  issue (scalarLoad 2 true fr rd (addrMx ra rb)) s

/-- `lhn`, displacement (R141). -/
def execLhnMd (rd ra : SReg) (disp : BitVec 9) (fr : Bool) (s : State) : Host.Outcome State Fault Refusal :=
  issue (scalarLoad 2 false fr rd (addrMd ra disp)) s

/-- `lhn`, indexed (R141). -/
def execLhnMx (rd ra rb : SReg) (fr : Bool) (s : State) : Host.Outcome State Fault Refusal :=
  issue (scalarLoad 2 false fr rd (addrMx ra rb)) s

/-- `lw`, displacement (R141). -/
def execLwMd (rd ra : SReg) (disp : BitVec 9) (fr : Bool) (s : State) : Host.Outcome State Fault Refusal :=
  issue (scalarLoad 4 true fr rd (addrMd ra disp)) s

/-- `lw`, indexed (R141). -/
def execLwMx (rd ra rb : SReg) (fr : Bool) (s : State) : Host.Outcome State Fault Refusal :=
  issue (scalarLoad 4 true fr rd (addrMx ra rb)) s

/-- `lwn`, displacement (R141). -/
def execLwnMd (rd ra : SReg) (disp : BitVec 9) (fr : Bool) (s : State) : Host.Outcome State Fault Refusal :=
  issue (scalarLoad 4 false fr rd (addrMd ra disp)) s

/-- `lwn`, indexed (R141). -/
def execLwnMx (rd ra rb : SReg) (fr : Bool) (s : State) : Host.Outcome State Fault Refusal :=
  issue (scalarLoad 4 false fr rd (addrMx ra rb)) s

/-- `ld`, displacement (R141). -/
def execLdMd (rd ra : SReg) (disp : BitVec 9) (fr : Bool) (s : State) : Host.Outcome State Fault Refusal :=
  issue (scalarLoad 8 false fr rd (addrMd ra disp)) s

/-- `ld`, indexed (R141). -/
def execLdMx (rd ra rb : SReg) (fr : Bool) (s : State) : Host.Outcome State Fault Refusal :=
  issue (scalarLoad 8 false fr rd (addrMx ra rb)) s

/-- `sb`, displacement (R141). -/
def execSbMd (rs ra : SReg) (disp : BitVec 9) (s : State) : Host.Outcome State Fault Refusal :=
  issue (scalarStore 1 rs (addrMd ra disp)) s

/-- `sb`, indexed (R141). -/
def execSbMx (rs ra rb : SReg) (s : State) : Host.Outcome State Fault Refusal :=
  issue (scalarStore 1 rs (addrMx ra rb)) s

/-- `sh`, displacement (R141). -/
def execShMd (rs ra : SReg) (disp : BitVec 9) (s : State) : Host.Outcome State Fault Refusal :=
  issue (scalarStore 2 rs (addrMd ra disp)) s

/-- `sh`, indexed (R141). -/
def execShMx (rs ra rb : SReg) (s : State) : Host.Outcome State Fault Refusal :=
  issue (scalarStore 2 rs (addrMx ra rb)) s

/-- `sw`, displacement (R141). -/
def execSwMd (rs ra : SReg) (disp : BitVec 9) (s : State) : Host.Outcome State Fault Refusal :=
  issue (scalarStore 4 rs (addrMd ra disp)) s

/-- `sw`, indexed (R141). -/
def execSwMx (rs ra rb : SReg) (s : State) : Host.Outcome State Fault Refusal :=
  issue (scalarStore 4 rs (addrMx ra rb)) s

/-- `sd`, displacement (R141). -/
def execSdMd (rs ra : SReg) (disp : BitVec 9) (s : State) : Host.Outcome State Fault Refusal :=
  issue (scalarStore 8 rs (addrMd ra disp)) s

/-- `sd`, indexed (R141). -/
def execSdMx (rs ra rb : SReg) (s : State) : Host.Outcome State Fault Refusal :=
  issue (scalarStore 8 rs (addrMx ra rb)) s

/-- A prefetch starts a fill of each sector of its line, or is dropped; it changes nothing else (R159). -/
def prefetch (toL1 : Bool) (addr : M Word64) : M Unit := do
  let va ← addr
  let a ← actor
  let dropped ← freeBool
  if !dropped then
    match ← attempt (do
      if 2 ^ 56 ≤ va.toNat ∨ inWindow va then trap 0x0A va
      else
        let q ← a.req .load (BitVec.ofNat 64 (va.toNat / 256 * 256)) (some false) true
        let l ← lookup q
        if l.tier ≠ 0 then trap 0x0D va
        else
          let t ← resolve q l
          match t.loc with
          | .pa p =>
            let s ← get
            modCore (coreOfSlot s.curSlot) fun c =>
              { c with prefetches := c.prefetches ++ (sectorsOf p 256).map fun x => { sector := x, leaf := l.addr, key := q.key, toL1 := toL1 } }
          | _ => pure ()) with
    | _ => pure ()
  else pure ()
  retire

/-- `pref.l1`, displacement (R159). -/
def execPrefL1Md (ra : SReg) (disp : BitVec 9) (s : State) : Host.Outcome State Fault Refusal := issue (prefetch true (addrMd ra disp)) s

/-- `pref.l1`, indexed (R159). -/
def execPrefL1Mx (ra rb : SReg) (s : State) : Host.Outcome State Fault Refusal := issue (prefetch true (addrMx ra rb)) s

/-- `pref.llc`, displacement (R159). -/
def execPrefLlcMd (ra : SReg) (disp : BitVec 9) (s : State) : Host.Outcome State Fault Refusal := issue (prefetch false (addrMd ra disp)) s

/-- `pref.llc`, indexed (R159). -/
def execPrefLlcMx (ra rb : SReg) (s : State) : Host.Outcome State Fault Refusal := issue (prefetch false (addrMx ra rb)) s

/-- The order qualifier acquires (R32, R167). -/
def Order.acquires (o : Order) : Bool := decide (o = .acq ∨ o = .ar)
/-- The order qualifier releases (R32, R167). -/
def Order.releases (o : Order) : Bool := decide (o = .rel ∨ o = .ar)

/-- The scope that an atomic or a barrier names (R32). -/
def BScope.scope : BScope → Scope
  | .core => .core
  | .die => .die
  | .dev => .dev
  | .fab => .fab

/-- What an order waits for before its access, and what it does after: a release comes after every earlier access of its stream, toward
the observers inside its scope, and an acquire is a refresh point of the L1 (R157, R167). -/
def ordered {α : Type} (o : Order) (sc : Scope) (x : M α) : M α := do
  let st ← curStream
  if Order.releases o then settle st sc else pure ()
  let v ← x
  if Order.acquires o then refreshPoint st else pure ()
  pure v

/-- The old value as sd receives it: a word is sign-extended (R155). -/
def oldValue (dw : Bool) (old : Nat) : Word64 := if dw then BitVec.ofNat 64 old else BitVec.ofInt 64 (signedOf 32 old)

/-- An atomic (R155 to R157). One that S1 holds retires, and the value that sd is to receive waits for S2 (R20). -/
def atomicForm (sc : BScope) (o : Order) (dw : Bool) (rd rb ra : SReg) (op : AmoOp) : M Unit := do
  let n := if dw then 8 else 4
  let va ← rS ra
  aligned va n
  interlock va n (decide (op ≠ .read))
  let a ← actor
  let b ← rS rb
  let e ← rS rd
  let b := bitsOf b.toNat 0 (8 * n)
  let e := bitsOf e.toNat 0 (8 * n)
  let held ← a.holdAtomic va n op b e
    { fab := decide (sc = .fab), regs := [.s rd.val], acquires := Order.acquires o, releases := Order.releases o }
  let old ← if held then freeBytes n else ordered o (BScope.scope sc) (a.atomic va n op b e)
  wS rd (oldValue dw old)
  retire

/-- `amoadd`; a load when its b field is 0 (R155, R156). -/
def execAmoadd (sc : BScope) (o : Order) (dw : Bool) (rd rb ra : SReg) (s : State) : Host.Outcome State Fault Refusal :=
  issue (atomicForm sc o dw rd rb ra (if rb.val = 0 then .read else .add)) s

/-- `amoswap` (R155). -/
def execAmoswap (sc : BScope) (o : Order) (dw : Bool) (rd rb ra : SReg) (s : State) : Host.Outcome State Fault Refusal :=
  issue (atomicForm sc o dw rd rb ra .swap) s

/-- `amomax` (R155). -/
def execAmomax (sc : BScope) (o : Order) (dw : Bool) (rd rb ra : SReg) (s : State) : Host.Outcome State Fault Refusal :=
  issue (atomicForm sc o dw rd rb ra .max) s

/-- `amomin` (R155). -/
def execAmomin (sc : BScope) (o : Order) (dw : Bool) (rd rb ra : SReg) (s : State) : Host.Outcome State Fault Refusal :=
  issue (atomicForm sc o dw rd rb ra .min) s

/-- `amomax.n` (R155). -/
def execAmomaxN (sc : BScope) (o : Order) (dw : Bool) (rd rb ra : SReg) (s : State) : Host.Outcome State Fault Refusal :=
  issue (atomicForm sc o dw rd rb ra .maxN) s

/-- `amomin.n` (R155). -/
def execAmominN (sc : BScope) (o : Order) (dw : Bool) (rd rb ra : SReg) (s : State) : Host.Outcome State Fault Refusal :=
  issue (atomicForm sc o dw rd rb ra .minN) s

/-- `amoand` (R155). -/
def execAmoand (sc : BScope) (o : Order) (dw : Bool) (rd rb ra : SReg) (s : State) : Host.Outcome State Fault Refusal :=
  issue (atomicForm sc o dw rd rb ra .and) s

/-- `amoor`; a load when its b field is 0 (R155, R156). -/
def execAmoor (sc : BScope) (o : Order) (dw : Bool) (rd rb ra : SReg) (s : State) : Host.Outcome State Fault Refusal :=
  issue (atomicForm sc o dw rd rb ra (if rb.val = 0 then .read else .or)) s

/-- `cas`: checked as a store before its comparison; a failed one writes nothing (R155, R156). -/
def execCas (sc : BScope) (o : Order) (dw : Bool) (rd rb ra : SReg) (s : State) : Host.Outcome State Fault Refusal :=
  issue (atomicForm sc o dw rd rb ra .cas) s

end Sys2Proof.Machine
end

