-- ==== Sys2Proof/Machine/VectorMemory.lean ====
section
/-! DEFINITION. The vector loads and stores and `ksld`, which stop at element boundaries and resume (R144 to R150, R154). -/

namespace Sys2Proof.Machine

/-- A resumable instruction stops at element j: its stores so far perform, and `resume` keeps its place. The open entry of an indexed form,
which counts as a write or a read, stands until the form goes on (R147, R148, R173). -/
def stopAt {α : Type} (opens : Option Bool) (j : Nat) (e : Stop) : M α := do
  let st ← curStream
  let h ← getHart
  drainStream h.slot st
  modHart fun h => { h.setResume st (BitVec.ofNat 64 j) with openA := opens }
  throw e

/-- A stream that stops at an element, because its hart's other stream traps or its hart is to leave, stops before it (R148, R259). -/
def stopHere (i : Nat) : M Unit := do
  let s ← get
  if s.curStop.any fun k => decide (k ≤ i) then waitFor .stop else pure ()

/-- The elements of a resumable instruction from `resume` on, in order; each performs whole or not at all, and those performed stand when the
instruction stops (R147, R148). -/
def resumeFrom (limit : Nat) (takes : Nat → Bool) (body : Nat → M Unit) (opens : Option Bool := none) : M Unit := do
  let st ← curStream
  let h ← getHart
  keeping (each (((List.range limit).drop (h.resume st).toNat).filter takes) fun i => do
    match ← attempt (do
      stopHere i
      body i) with
    | .ok () => pure ()
    | .error e => stopAt opens i e)

/-- Mark a promotion late when a fault-first element truncated at its page (R220). -/
def noteLate (a : Actor) (va : Word64) : M Unit := do
  let s ← get
  match SMap.get? s.contexts a.asid with
  | none => pure ()
  | some c => match ← walk c.root va.toNat with
    | .leaf l => modify fun s => { s with moves := s.moves.map fun m => if m.leaf = l.addr ∧ m.promote then { m with late := true } else m }
    | _ => pure ()

/-- The elements of a fault-first form: a fault, or a wait for a page move, past the first taking element truncates at it (R149,
R215). `onTrap` follows a trap at an element. The answer is the element at which it truncated. -/
def firstFault (limit : Nat) (takes : Nat → Bool) (addrOf : Nat → M Word64) (onTrap : Nat → M Unit) (body : Nat → M Unit)
    (opens : Option Bool := none) : M (Option Nat) := do
  let st ← curStream
  let h ← getHart
  let idx := ((List.range limit).drop (h.resume st).toNat).filter takes
  keeping (eachFold idx none fun cut i => match cut with
    | some k => pure (some k)
    | none => do
      match ← attempt (do
        stopHere i
        body i) with
      | .ok () => pure none
      | .error e =>
        let cuts : Bool := match e with
          | .trap .. => true
          | .wait .move _ => true
          | _ => false
        if cuts && decide (idx.head? ≠ some i) then
          let a ← actor
          match ← attempt (addrOf i) with
          | .ok va => noteLate a va
          | .error _ => pure ()
          pure (some i)
        else
          match e with
          | .trap .. => onTrap i
          | _ => pure ()
          stopAt opens i e)

/-- Retire a resumable instruction: `resume` becomes 0 (R147). -/
def retireResumable : M Unit := do
  let st ← curStream
  modHart fun h => h.setResume st 0
  retire

/-- A vector stream as the maker of an element's access. -/
def vectorActor : M Actor := do
  let a ← actor
  let pc ← curPc
  pure { a with scalar := false, job := some pc.toNat }

/-- The instruction's stores so far, of poisoned sectors that it has not covered whole, do not count for another (R382). -/
def forgetCover : M Unit := do
  let st ← curStream
  let pc ← curPc
  modify fun s => s.endCover s.curSlot st pc.toNat

/-- The elements of a resumable store: those of its sectors that all of them together write whole lose their poison, also across its stops
(R147, R148, R382, log 38). -/
def storesFrom (limit : Nat) (takes : Nat → Bool) (body : Nat → M Unit) (opens : Option Bool := none) : M Unit := do
  let st ← curStream
  let h ← getHart
  if h.resume st = 0 then forgetCover else pure ()
  resumeFrom limit takes body opens
  forgetCover

/-- Bytes of an element; a `b4` element is a nibble of a byte (R144, R145). -/
def esizeOf (f : Fmt) : Nat := max 1 (Fmt.ew f / 8)

/-- The address of element i of a unit-stride form (R144, R145). -/
def unitAddr (f : Fmt) (base : Word64) (i : Nat) : Word64 :=
  if f = .b4 then base + BitVec.ofNat 64 (i / 2) else base + BitVec.ofNat 64 (i * esizeOf f)

/-- The address of element i of a strided form (R138, R144). -/
def strideAddr (base stride : Word64) (i : Nat) : Word64 := base + BitVec.ofNat 64 i * stride

/-- An element's bits from the bytes loaded (R145). -/
def elemLoaded (f : Fmt) (i v : Nat) : Nat := if f = .b4 then bitsOf v (4 * (i % 2)) 4 else v

/-- Load element i of a register (R144). -/
def loadElem (fr : Bool) (vd i : Nat) (va : Word64) : M Unit := do
  let h ← getHart
  let f := h.fmt
  interlock va (esizeOf f) false
  let a ← vectorActor
  let v ← a.load (viaOf fr) va (esizeOf f)
  modHart fun h => h.setContent .v vd (setElem (Fmt.ew f) (h.vbitsOf vd) i (elemLoaded f i v))

/-- Take back the stores that this instruction has issued to the same bytes and that have not performed: the highest-numbered
element's value is the one that the location holds (R146). -/
def supersede (a : Actor) (l : Loc) (mask : Nat) : M Unit :=
  modify fun s => { s with pending := s.pending.filter fun p =>
    !(decide (p.op = a.op) && decide (p.slot = a.slot) && decide (p.stream = a.stream) &&
      p.bytes.any fun b => b.loc == l && decide (b.mask.toNat &&& mask ≠ 0)) }

/-- Store element i of a register (R144 to R146). -/
def storeElem (vs i : Nat) (va : Word64) : M Unit := do
  let h ← getHart
  let f := h.fmt
  interlock va (esizeOf f) true
  let a ← vectorActor
  let e := elemOf (Fmt.ew f) (h.vbitsOf vs) i
  let mask := if f = .b4 then 15 * 16 ^ (i % 2) else fullMask (esizeOf f)
  let p ← a.place .store va (esizeOf f) (some false)
  supersede a p.loc (mask % 256)
  a.store va (esizeOf f) (if f = .b4 then e * 16 ^ (i % 2) else e) mask

/-- A vector memory form admits the format: strided and segment forms do not admit `b4` (R144). -/
def memFmt (unit : Bool) : Fmt → Bool := fun f => unit || decide (f ≠ .b4)

/-- The issue checks of a vector memory form, whose stores read registers that must carry the current format (R114, R139,
R144). -/
def memIssue (unit : Bool) (r : Named) : M Hart := vectorIssue (memFmt unit) r

/-- Raise misaligned for the base or for the stride, whose first misaligned address is element 1's (R139). -/
def alignedStride (base stride : Word64) (n : Nat) : M Unit := do
  aligned base n
  if stride.toNat % n = 0 then pure () else trap 0x08 (base + stride)

/-- A vector load through an address for each element (R144, R147). -/
def vectorLoad (fr : Bool) (vd : VRegNo) (unit : Bool) (ops : Fmt → M (Nat → Word64)) : M Unit := do
  let h ← memIssue unit { vw := [vd.val] }
  if h.vl = 0 then retireResumable
  else
    let addr ← ops h.fmt
    resumeFrom h.vl.toNat h.activeAt fun i => loadElem fr vd.val i (addr i)
    modHart fun h => h.setV vd.val (h.vbitsOf vd.val) h.fmt
    retireResumable

/-- A fault-first vector load (R149). -/
def vectorLoadFf (fr : Bool) (vd : VRegNo) (ops : Fmt → M (Nat → Word64)) : M Unit := do
  let h ← memIssue true { vw := [vd.val] }
  if h.vl = 0 then retireResumable
  else
    let addr ← ops h.fmt
    let cut ← firstFault h.vl.toNat h.activeAt (fun i => pure (addr i)) (fun _ => pure ()) fun i => loadElem fr vd.val i (addr i)
    modHart fun h =>
      let h := h.setV vd.val (h.vbitsOf vd.val) h.fmt
      match cut with
      | none => h
      | some k => { h with vl := BitVec.ofNat 17 k }
    retireResumable

/-- A vector store through an address for each element (R144, R147). -/
def vectorStore (vs : VRegNo) (unit : Bool) (ops : Fmt → M (Nat → Word64)) : M Unit := do
  let h ← memIssue unit { vs := [vs.val] }
  if h.vl = 0 then retireResumable
  else
    let addr ← ops h.fmt
    storesFrom h.vl.toNat h.activeAt fun i => storeElem vs.val i (addr i)
    retireResumable

/-- The address of field f of segment element i (R144). -/
def segAddr (fmt : Fmt) (base : Word64) (n i f : Nat) : Word64 := base + BitVec.ofNat 64 ((n * i + f) * esizeOf fmt)

/-- A segment load: the fields of an element are accessed and faulted together (R144). A misaligned base traps with the base as `etval`, whichever
elements take part (DEDUCED: log 38). -/
def segmentLoad (n : Nat) (vd : VRegNo) (addr : M Word64) : M Unit := do
  let h ← memIssue false { vw := groupOf vd.val n }
  if h.vl = 0 then retireResumable
  else
    let base ← addr
    aligned base (esizeOf h.fmt)
    resumeFrom h.vl.toNat h.activeAt fun i =>
      each (List.range n) fun f => loadElem false (vd.val + f) i (segAddr h.fmt base n i f)
    modHart fun h => (List.range n).foldl (fun h f => h.setV (vd.val + f) (h.vbitsOf (vd.val + f)) h.fmt) h
    retireResumable

/-- A segment store (R144); its misaligned base as for the load (log 38). -/
def segmentStore (n : Nat) (vs : VRegNo) (addr : M Word64) : M Unit := do
  let h ← memIssue false { vs := groupOf vs.val n }
  if h.vl = 0 then retireResumable
  else
    let base ← addr
    aligned base (esizeOf h.fmt)
    storesFrom h.vl.toNat h.activeAt fun i =>
      each (List.range n) fun f => storeElem (vs.val + f) i (segAddr h.fmt base n i f)
    retireResumable

/-- The addresses of a unit-stride form, its base aligned (R139, R144). A misaligned base traps with the base as `etval`, also where element 0 takes
no part (DEDUCED: log 38). -/
def unitOps (addr : M Word64) (f : Fmt) : M (Nat → Word64) := do
  let base ← addr
  aligned base (esizeOf f)
  pure (unitAddr f base)

/-- The addresses of a strided form, base and stride aligned (R139, R144). -/
def strideOps (ra rb : SReg) (f : Fmt) : M (Nat → Word64) := do
  let base ← rS ra
  let stride ← rS rb
  alignedStride base stride (esizeOf f)
  pure (strideAddr base stride)

/-- `vld`, displacement (R144). -/
def execVldMd (vd : VRegNo) (ra : SReg) (disp : BitVec 9) (fr : Bool) (s : State) : Host.Outcome State Fault Refusal :=
  issue (vectorLoad fr vd true (unitOps (addrMd ra disp))) s

/-- `vld`, indexed (R144). -/
def execVldMx (vd : VRegNo) (ra rb : SReg) (fr : Bool) (s : State) : Host.Outcome State Fault Refusal :=
  issue (vectorLoad fr vd true (unitOps (addrMx ra rb))) s

/-- `vlds` (R144). -/
def execVlds (vd : VRegNo) (ra rb : SReg) (fr : Bool) (s : State) : Host.Outcome State Fault Refusal :=
  issue (vectorLoad fr vd false (strideOps ra rb)) s

/-- `vldff`, displacement (R149). -/
def execVldffMd (vd : VRegNo) (ra : SReg) (disp : BitVec 9) (fr : Bool) (s : State) : Host.Outcome State Fault Refusal :=
  issue (vectorLoadFf fr vd (unitOps (addrMd ra disp))) s

/-- `vldff`, indexed (R149). -/
def execVldffMx (vd : VRegNo) (ra rb : SReg) (fr : Bool) (s : State) : Host.Outcome State Fault Refusal :=
  issue (vectorLoadFf fr vd (unitOps (addrMx ra rb))) s

/-- `vst`, displacement (R144). -/
def execVstMd (vs : VRegNo) (ra : SReg) (disp : BitVec 9) (s : State) : Host.Outcome State Fault Refusal :=
  issue (vectorStore vs true (unitOps (addrMd ra disp))) s

/-- `vst`, indexed (R144). -/
def execVstMx (vs : VRegNo) (ra rb : SReg) (s : State) : Host.Outcome State Fault Refusal :=
  issue (vectorStore vs true (unitOps (addrMx ra rb))) s

/-- `vsts` (R144). -/
def execVsts (vs : VRegNo) (ra rb : SReg) (s : State) : Host.Outcome State Fault Refusal :=
  issue (vectorStore vs false (strideOps ra rb)) s

/-- `vldseg`, displacement (R144). -/
def execVldsegMd (n : Fin 7) (vd : VRegNo) (ra : SReg) (disp : BitVec 9) (s : State) : Host.Outcome State Fault Refusal :=
  issue (segmentLoad (n.val + 2) vd (addrMd ra disp)) s

/-- `vldseg`, indexed (R144). -/
def execVldsegMx (n : Fin 7) (vd : VRegNo) (ra rb : SReg) (s : State) : Host.Outcome State Fault Refusal :=
  issue (segmentLoad (n.val + 2) vd (addrMx ra rb)) s

/-- `vstseg`, displacement (R144). -/
def execVstsegMd (n : Fin 7) (vs : VRegNo) (ra : SReg) (disp : BitVec 9) (s : State) : Host.Outcome State Fault Refusal :=
  issue (segmentStore (n.val + 2) vs (addrMd ra disp)) s

/-- `vstseg`, indexed (R144). -/
def execVstsegMx (n : Fin 7) (vs : VRegNo) (ra rb : SReg) (s : State) : Host.Outcome State Fault Refusal :=
  issue (segmentStore (n.val + 2) vs (addrMx ra rb)) s

/-- `ksld` (R154): no guard, no tag, no alignment; `resume` counts bytes. -/
def execKsld (kd : KRegNo) (ra rb : SReg) (fr : Bool) (s : State) : Host.Outcome State Fault Refusal :=
  issue (do
    onlyX
    needLive
    let base ← rS ra
    let stride ← rS rb
    let h ← getHart
    let nb := (h.vl.toNat + vtBl h.vt - 1) / vtBl h.vt
    resumeFrom nb (fun _ => true) fun j => do
      let va := strideAddr base stride j
      interlock va 1 false
      let a ← vectorActor
      let v ← a.load (viaOf fr) va 1
      modHart fun h => { h with k := vput h.k kd.val (putBits (h.k.getD kd.val 0) (8 * j) 8 v) }
    retireResumable) s

end Sys2Proof.Machine
end

