-- ==== Sys2Proof/Machine/Gather.lean ====
section
/-! DEFINITION. The gathers and scatters of the access stream, and the events that fill the places they reserve (R151 to R153,
R173). They read and write memory as they issue; the place is filled by its event (log 12). -/

namespace Sys2Proof.Machine

/-- The element size of an access-stream form in bytes (R151). -/
def Ew.bytes : Ew → Nat
  | .b => 1
  | .h => 2
  | .w => 4
  | .d => 8

/-- How many elements a form has (R151). -/
def elemCount (rc : SReg) : M Nat := do
  let c ← rS rc
  pure (min c.toNat 4096)

/-- An i64 or a doubleword of a list, read from its home (R151). -/
def listWord (va : Word64) : M Word64 := do
  interlock va 8 false
  let a ← actor
  let v ← a.load .home va 8
  pure (BitVec.ofNat 64 v)

/-- The address of the element with an index (R151). -/
def indexed (base idx : Word64) (n : Nat) : Word64 := base + idx * BitVec.ofNat 64 n

/-- The place of a vector queue that the instruction at an address holds. -/
def heldEntry (l : List VPlace) (pc : Word64) : Option VEntry := l.findSome? fun p => match p with
  | .stopped pc' e => if pc' = pc then some e else none
  | _ => none

/-- The queue with the place held by the instruction at an address replaced. -/
def replaceHeld (l : List VPlace) (pc : Word64) (new : VEntry → List VPlace) : List VPlace := l.flatMap fun p => match p with
  | .stopped pc' e => if pc' = pc then new e else [p]
  | _ => [p]

/-- Change the place that the issuing instruction holds in a vector queue. -/
def modHeld (q : QNo) (new : Word64 → VEntry → List VPlace) : M Unit := do
  let pc ← curPc
  modHart fun h => { h with vq := vput h.vq q.val (replaceHeld (h.vq.getD q.val []) pc (new pc)) }

/-- Take a place of a vector queue, or find the one the instruction holds since it stopped (R148, R152). -/
def takeEntry (q : QNo) (esize : Nat) : M Unit := do
  let pc ← curPc
  let h ← getHart
  match heldEntry (h.vq.getD q.val []) pc with
  | some _ => pure ()
  | none => do
    needPlace q
    setHart { h with vq := vput h.vq q.val (h.vq.getD q.val [] ++ [.stopped pc { esize := esize, elems := [] }]) }

/-- An entry of at least n elements: those that nothing has written, below a `resume` that something else than the instruction set, hold
unspecified values (R147). -/
def padElems (n : Nat) (l : List Word64) : M (List Word64) := do
  let more ← eachMap (List.range (n - l.length)) fun _ => freeWord
  pure (l ++ more)

/-- Write element i of the entry that the issuing instruction holds (R152). -/
def putEntry (q : QNo) (i : Nat) (v : Word64) : M Unit := do
  let pc ← curPc
  let h ← getHart
  match heldEntry (h.vq.getD q.val []) pc with
  | none => pure ()
  | some e => do
    let l ← padElems i e.elems
    modHeld q fun pc e => [.stopped pc { e with elems := l.take i ++ v :: l.drop (i + 1) }]

/-- Gather element i: its index from the list, then its data into the entry (R152). -/
def gatherElem (q : QNo) (n : Nat) (fr : Bool) (base list : Word64) (i : Nat) : M Unit := do
  let idx ← listWord (list + BitVec.ofNat 64 (8 * i))
  let va := indexed base idx n
  interlock va n false
  let a ← actor
  let v ← a.load (viaOf fr) va n
  putEntry q i (BitVec.ofNat 64 v)

/-- The address at which element i stops: its list element's, or, where that can be read, its data's (R149, R220). -/
def gatherStop (base list : Word64) (n i : Nat) : M Word64 := do
  match ← attempt (listWord (list + BitVec.ofNat 64 (8 * i))) with
  | .ok idx => pure (indexed base idx n)
  | .error _ => pure (list + BitVec.ofNat 64 (8 * i))

/-- The checks of a gather or scatter at issue: its queue, its alignment and its place in the interlock table (R139, R151, R173).
The hart's earlier stores perform first. Where base and list are both misaligned, `etval` holds the base (DEDUCED: log 38). -/
def indexedIssue (n : Nat) (ra rb : SReg) : M (Word64 × Word64) := do
  let base ← rS ra
  let list ← rS rb
  aligned base n
  aligned list 8
  needTable 2
  let h ← getHart
  drainHart h.slot
  pure (base, list)

/-- The entry is complete, with n elements: the place waits for its fill (R152). -/
def finishEntry (q : QNo) (kvx : Bool) (n : Nat) : M Unit := do
  let pc ← curPc
  let h ← getHart
  match heldEntry (h.vq.getD q.val []) pc with
  | none => pure ()
  | some e => do
    let l ← padElems n e.elems
    modHeld q fun _ e => [.reserved { e with elems := l.take n } kvx]
  retireResumable

/-- An indexed form's queue must be one that the access stream fills (R152, R153). Where the form has stopped before, its own open entry does not
stand in its way (R173). -/
def accessQueue (q : QNo) : M Unit := do
  onlyA
  if 6 ≤ q.val then trapWord 0x03 else modHart fun h => { h with openA := none }

/-- `vgat` (R152). -/
def execVgat (q : QNo) (ew : Ew) (fr : Bool) (ra rb rc : SReg) (s : State) : Host.Outcome State Fault Refusal :=
  issue (do
    accessQueue q
    let n := Ew.bytes ew
    let (base, list) ← indexedIssue n ra rb
    let count ← elemCount rc
    takeEntry q n
    resumeFrom count (fun _ => true) (gatherElem q n fr base list) (some false)
    finishEntry q false count) s

/-- `vgatff`: a trap on the first element releases the reservation (R149, R152). -/
def execVgatff (q : QNo) (ew : Ew) (fr : Bool) (ra rb rc : SReg) (s : State) : Host.Outcome State Fault Refusal :=
  issue (do
    accessQueue q
    let n := Ew.bytes ew
    let (base, list) ← indexedIssue n ra rb
    let count ← elemCount rc
    takeEntry q n
    let cut ← firstFault count (fun _ => true) (gatherStop base list n)
      (fun i => if i = 0 then modHeld q fun _ _ => [] else pure ())
      (gatherElem q n fr base list) (some false)
    finishEntry q false (cut.getD count)) s

/-- Change the status place that the issuing instruction holds (R153). -/
def modStatus (q : QNo) (new : SPlace) : M Unit := do
  let pc ← curPc
  modHart fun h => h.setSqueue q ((h.squeue q).map fun p => if p = .stopped pc then new else p)

/-- Take a status place, or find the one the instruction holds since it stopped (R153). -/
def takeStatus (q : QNo) : M Unit := do
  let pc ← curPc
  let h ← getHart
  if (h.squeue q).contains (.stopped pc) then pure ()
  else
    needPlace q
    setHart (h.setSqueue q (h.squeue q ++ [.stopped pc]))

/-- A scatter: each element's pair is read and the element performs at its home (R153). -/
def scatter (q : QNo) (ew : Ew) (ra rb rc : SReg) (put : Actor → Word64 → Nat → Nat → M Unit) : M Unit := do
  accessQueue q
  let n := Ew.bytes ew
  let (base, list) ← indexedIssue n ra rb
  let count ← elemCount rc
  takeStatus q
  storesFrom count (fun _ => true) (fun i => do
    let idx ← listWord (list + BitVec.ofNat 64 (16 * i))
    let val ← listWord (list + BitVec.ofNat 64 (16 * i + 8))
    let va := indexed base idx n
    interlock va n true
    let a ← actor
    let pc ← curPc
    put { a with job := some pc.toNat } va n (val.toNat % 2 ^ (8 * n))) (some true)
  modStatus q (.reserved (BitVec.ofNat 64 count))
  retireResumable

/-- `vsca` (R153). The elements perform in one step, so that an element superseded by a higher one is seen by no one. -/
def execVsca (q : QNo) (ew : Ew) (ra rb rc : SReg) (s : State) : Host.Outcome State Fault Refusal :=
  issue (scatter q ew ra rb rc fun a va n v => a.storeNow va n v) s

/-- `vscaa`: each element adds indivisibly (R153); one of a peer's memory is held in S1 (R20). -/
def execVscaa (q : QNo) (ew : Ew) (ra rb rc : SReg) (s : State) : Host.Outcome State Fault Refusal :=
  issue (scatter q ew ra rb rc fun a va n v => do
    let held ← a.holdAtomic va n .add v 0 {}
    if held then pure ()
    else
      let _ ← a.atomic va n .add v 0) s

/-- Change a hart by its slot; none there, or one that the collector has, makes the event impossible. -/
def modSlot (slot : Nat) (f : Hart → M Hart) : M Unit := do
  let s ← get
  match SMap.get? s.harts slot with
  | none => impossible
  | some h => do
    if h.acked then impossible else pure ()
    let h' ← f h
    modify fun s => { s with harts := SMap.put s.harts slot h' }

/-- Fill the place at position c of vector queue b of the hart at slot a: of a gather, or of a `kvx`; not while S1 holds a load of it
(R20, R152). -/
def fillEntry (kvx : Bool) : M Unit := do
  let s ← get
  let e := s.curEv
  if s.held.any fun w => decide (w.slot = e.a) && w.regs.contains (.q e.b) then impossible else pure ()
  modSlot e.a fun h => match (h.vq.getD e.b [])[e.c]? with
    | some (.reserved x k) => if k = kvx then pure { h.stirred with vq := vput h.vq e.b ((h.vq.getD e.b []).set e.c (.ready x)) } else impossible
    | _ => impossible

/-- A gather's elements arrive: the hart is at slot a, its queue is b, the place c (R152). -/
def execGatherFill (s : State) : Host.Outcome State Fault Refusal := event (fillEntry false) s

/-- A `kvx` fills its entry: the hart is at slot a, its queue is b, the place c (R319). -/
def execKvxFill (s : State) : Host.Outcome State Fault Refusal := event (fillEntry true) s

/-- A scatter has performed, none of it held, and its status place is filled with the count: the hart is at slot a, its queue is q4 or q5 by b, the
place c (R20, R153). -/
def execScatterStatusFill (s : State) : Host.Outcome State Fault Refusal :=
  event (do
    let s ← get
    let e := s.curEv
    if (s.held.any fun w => w.of e.a .a) || s.keeps (fun p => p.of e.a .a) then impossible
    else pure ()
    modSlot e.a fun h =>
      let l := if e.b = 4 then h.q4 else h.q5
      match l[e.c]? with
      | some (.reserved n) =>
        if e.b = 4 then pure { h.stirred with q4 := l.set e.c (.ready n) }
        else if e.b = 5 then pure { h.stirred with q5 := l.set e.c (.ready n) }
        else impossible
      | _ => impossible) s

end Sys2Proof.Machine
end

