-- ==== Sys2Proof/Machine/Layout.lean ====
section
/-! DEFINITION. Layout records: their fields and checks, the record cache, and the addresses of their elements (R241 to R243). -/

namespace Sys2Proof.Machine

/-- A layout record's fields; none where a reserved field is not zero, the format has no code, or a mask base stands without Z
(R241, R243). -/
def Layout.parse (addr : Word64) (b : Nat) : Option Layout :=
  match Fmt.ofCode? (bitsOf b 64 4) with
  | none => none
  | some f =>
    if bitsOf b 68 4 ≠ 0 ∨ bitsOf b 73 7 ≠ 0 ∨ bitsOf b 80 48 ≠ 0 then none
    else if b.testBit 72 = false ∧ bitsOf b 384 64 ≠ 0 then none
    else some
      { addr := addr, base := BitVec.ofNat 64 (bitsOf b 0 64), fmt := f, z := b.testBit 72
        dims := (List.range 4).map fun k => bitsOf b (128 + 32 * k) 32
        steps := (List.range 4).map fun k => signedOf 32 (bitsOf b (256 + 32 * k) 32)
        maskBase := BitVec.ofNat 64 (bitsOf b 384 64) }

/-- An extent of a record. -/
def Layout.dim (l : Layout) (k : Nat) : Nat := l.dims.getD k 1
/-- A stride of a record; that of dimension 0 is half a byte for `b4`, whose nibbles pack (R191, R241). -/
def Layout.step (l : Layout) (k : Nat) : Int := l.steps.getD k 0
/-- The number of elements. -/
def Layout.count (l : Layout) : Nat := l.dim 0 * l.dim 1 * l.dim 2 * l.dim 3
/-- The bytes that the elements take. -/
def Layout.size (l : Layout) : Nat := (l.count * Fmt.ew l.fmt + 7) / 8

/-- The address of element (i0, i1, i2, i3), and which nibble of the byte for `b4` (R191, R241). -/
def Layout.at (l : Layout) (i0 i1 i2 i3 : Nat) : Word64 × Nat :=
  let lead : Int := if l.fmt = .b4 then ((i0 / 2 : Nat) : Int) else i0 * l.step 0
  (l.base + BitVec.ofInt 64 (lead + i1 * l.step 1 + i2 * l.step 2 + i3 * l.step 3), i0 % 2)

/-- The element of an ordinal (R241). -/
def Layout.ord (l : Layout) (o : Nat) : Word64 × Nat :=
  l.at (o % l.dim 0) (o / l.dim 0 % l.dim 1) (o / (l.dim 0 * l.dim 1) % l.dim 2) (o / (l.dim 0 * l.dim 1 * l.dim 2))

/-- Every element lies at base + o × esize (R241). -/
def Layout.dense (l : Layout) : Bool :=
  decide (l.count = 0) || (List.range 4).all fun k =>
    decide (l.dim k ≤ 1) || (decide (k = 0) && decide (l.fmt = .b4)) ||
      decide (8 * l.step k = ((Fmt.ew l.fmt * ((List.range k).map l.dim).prod : Nat) : Int))

/-- The lowest and the highest offset of an element's byte from the base. -/
def Layout.span (l : Layout) : Int × Int :=
  (List.range 4).foldl (fun (lo, hi) k =>
    let d : Int := if k = 0 ∧ l.fmt = .b4 then ((l.dim 0 - 1) / 2 : Nat) else ((l.dim k - 1 : Nat) : Int) * l.step k
    (lo + min 0 d, hi + max 0 d)) (0, (esizeOf l.fmt : Int) - 1)

/-- The lines that the elements and, for a compressed record, the mask bytes touch (R173). -/
def Layout.ranges (l : Layout) (write : Bool) : List LineRange :=
  if l.count = 0 then []
  else
    let s := l.span
    linesOf (l.base.toNat + s.1).toNat (l.base.toNat + s.2).toNat write ::
      (if l.z then [rangeOf l.maskBase ((l.size + 255) / 256) write] else [])

/-- The first misaligned element address in ordinal order, if any (R139). -/
def Layout.misaligned (l : Layout) : Option Word64 :=
  let n := esizeOf l.fmt
  if l.count = 0 ∨ l.fmt = .b4 then none
  else if l.base.toNat % n ≠ 0 then some l.base
  else ((List.range 4).find? fun k => decide (1 < l.dim k) && decide (l.step k % n ≠ 0)).map fun k => l.base + BitVec.ofInt 64 (l.step k)

/-- The key of a record in a core's record cache: of its context, and, in the local-store window, of the hart's kernel (R138, R242). -/
def recKey (h : Hart) (va : Word64) : Nat := ((if inWindow va then h.kernel + 1 else 0) * 2 ^ 14 + h.asid) * 2 ^ 64 + va.toNat

/-- The context of a key. -/
def keyAsid (key : Nat) : Nat := key / 2 ^ 64 % 2 ^ 14

/-- The kernel of a key that names the local-store window. -/
def keyKernel (key : Nat) : Option Nat := if key / 2 ^ 78 = 0 then none else some (key / 2 ^ 78 - 1)

/-- Read 64 bytes from their home, single doublewords (R162). -/
def read64 (a : Actor) (va : Word64) : M Nat :=
  eachFold (List.range 8) 0 fun v i => do
    let x ← a.load .home (va + BitVec.ofNat 64 (8 * i)) 8
    pure (v + x * 2 ^ (64 * i))

/-- Raise a fault's cause with the record's address as `etval` (R243). -/
def atRecord {α : Type} (va : Word64) (x : M α) : M α := fun s =>
  match x s with
  | .error (.trap c _ b keep) s' => .error (.trap c va b keep) s'
  | r => r

/-- Read a layout record from its home (R191). -/
def recordHome (va : Word64) : M Nat := do
  let a ← actor
  atRecord va (read64 a va)

/-- A record enters a core's record cache (R242). -/
def Core.cacheRecord (c : Core) (key b : Nat) : Core :=
  { c with rcache := SMap.put c.rcache key (BitVec.ofNat 512 b), rpoison := c.rpoison.filter fun e => e.1 != key }

/-- A poisoned word of a record that a core's record cache holds (R382). -/
def Core.struckWord (c : Core) (key : Nat) : Option Nat := (c.rpoison.find? fun e => e.1 == key).map Prod.snd

/-- Read a layout record through the core's record cache: a copy held there may be used, or the record read anew (R242). A poisoned word of the
copy raises what one of the record raises (R243, R382). -/
def recordCached (va : Word64) : M Nat := do
  let h ← getHart
  let s ← get
  let core := coreOfSlot s.curSlot
  let a ← actor
  let anew : M Nat := do
    let b ← atRecord va (read64 a va)
    modCore core fun c => c.cacheRecord (recKey h va) b
    pure b
  match SMap.get? (s.core core).rcache (recKey h va) with
  | none => anew
  | some b =>
    let old ← freeBool
    if !old then anew
    else if ((s.core core).struckWord (recKey h va)).isSome then trap 0x11 va
    else pure b.toNat

/-- Raise layout record invalid for a record (R37, R243). -/
def recordBad {α : Type} (va : Word64) : M α := trap 0x16 va

/-- A record's fields, or the trap (R243). -/
def parsed (va : Word64) (b : Nat) : M Layout :=
  match Layout.parse va b with
  | some l => pure l
  | none => recordBad va

/-- A compressed record is dense and aligned, and names its masks (R243). -/
def Layout.zOk (l : Layout) : Bool :=
  !l.z || (l.dense && decide (l.base.toNat % 256 = 0) && decide (l.size % 256 = 0) && decide (l.maskBase ≠ 0))

end Sys2Proof.Machine
end

