-- ==== Sys2Proof/Machine/PageForms.lean ====
section
/-! DEFINITION. The page forms: pins, commits, discards, queries and reference counts (R224 to R229). -/

namespace Sys2Proof.Machine

/-- What a page form needs of the page it names: the translation of its kind, without the conditions that only accesses to its
bytes meet (R207, R224, R256, R385). -/
structure PageAt where
  req : Req
  leaf : Leaf
  /-- The 64 KiB frame that holds the address. -/
  frame : Nat
  deriving DecidableEq, Repr

/-- Translate the address of a page form or a page move (R224, R363); a page in a peer window raises sub 14, or is answered by the
form itself. -/
def pageAt (kind : Kind) (va : Word64) (peers : Bool) : M PageAt := do
  let a ← actor
  if 2 ^ 56 ≤ va.toNat ∨ inWindow va then trap kind.cause va
  else
    let q ← a.req kind va none false
    match ← walk q.root va.toNat with
    | .noPath => q.fault 0
    | .invalid => q.fault 4
    | .uncorrectable => trap kind.badData va
    | .leaf l =>
      let allowed := match kind with
        | .load => l.r
        | .store => l.w
        | .fetch => l.x
      if !allowed || (q.user && !l.u) then q.fault 0
      else
        let s ← get
        if (s.keyOf q.key).isNone then trap 0x15 va
        else if inPeer l.frame && !peers then q.fault 14
        else pure { req := q, leaf := l, frame := l.frame + va.toNat % l.size / 2 ^ 16 * 2 ^ 16 }

/-- The page is in a move state (R215). -/
def PageAt.moving (p : PageAt) : Bool := decide (3 ≤ p.leaf.tier)

/-- A page form comes after work of its stream that S1 holds, as an access to the page does (R20, R224). -/
def behindPage (l : Loc) (n : Nat) : M Unit := do
  let a ← actor
  let s ← get
  if s.behindHeld a l n then waitFor .level else pure ()

/-- A page form's place in its stream's order: after the stream's earlier accesses to the page, and after the transfers it
conflicts with, the readers of the page among them (R173, R224); a page in a move state makes it wait (R215). The page is what its leaf says once
those accesses have performed, and A is set there. -/
def pageForm (kind : Kind) (va : Word64) (waits : Bool) (peers : Bool := false) : M PageAt := do
  let st ← curStream
  let h ← getHart
  let p ← pageAt kind va peers
  interlock (BitVec.ofNat 64 (va.toNat / p.leaf.size * p.leaf.size)) p.leaf.size true
  behindPage (.pa p.leaf.frame) p.leaf.size
  drainStream h.slot st
  let p ← pageAt kind va peers
  if waits && p.moving then waitFor .move else pure ()
  setA p.leaf
  pure p

/-- The frame record that a pin or count form acts on: none, or an invalid one, faults, and a move in progress makes the form wait
(R211, R213, R219). -/
def formRecord (p : PageAt) : M FrameRec := do
  match ← frameRec p.frame with
  | none => p.req.fault 4
  | some r =>
    if !r.valid then p.req.fault 4
    else if r.moving then waitFor .move
    else pure r

/-- `opin` and `ounpin` (R224). -/
def pinForm (ra : SReg) (f : Nat → Nat) : M Unit := do
  let va ← rS ra
  let p ← pageForm .load va true
  let r ← formRecord p
  behindPage (.pa r.addr) 16
  putFrameRec { r with pins := f r.pins }
  retire

/-- `opin` (R224). -/
def execOpin (ra : SReg) (s : State) : Host.Outcome State Fault Refusal := issue (pinForm ra fun n => min (n + 1) 0xFFFF) s

/-- `ounpin` (R224). -/
def execOunpin (ra : SReg) (s : State) : Host.Outcome State Fault Refusal := issue (pinForm ra fun n => n - 1) s

/-- Empty an overlay: its extent goes to its ring (R225 to R227). -/
def emptyOverlay (o : Overlay) : M Unit := do
  if o.cc ≠ 0 then give o.addr (7 + o.cc) o.ext else pure ()
  ({ o with v := 0, ext := 0, cc := 0, count := 0 } : Overlay).put

/-- The lines that an overlay holds. -/
def Overlay.lines (o : Overlay) : List Nat := (List.range 256).filter fun i => o.v.testBit i

/-- Copy an overlay's lines into a private frame of a leaf's page, from under the context's key to under the frame's (R217, R225). -/
def mergeLines (leaf key : Nat) (o : Overlay) (fk frame : Nat) : M Unit :=
  each o.lines fun i => copyHeld (o.addr, o.ext) (leaf, frame) key (o.ext + 256 * o.slot i) fk (frame + 256 * i) 256

/-- The cores on which a context's harts run hold no old value of some sectors. -/
def dropFor (asid : Nat) (secs : List Nat) : M Unit := do
  let s ← get
  each ((s.harts.filter fun e => decide (e.2.asid = asid)).map fun e => coreOfSlot e.1) fun core => each secs (dropL1 core)

/-- Publish an overlay's lines into the base that other contexts share: what these have in their L1s of the base they keep until they
refresh it, and the publishing context finds nothing older than what it published (R143, R179, R226). -/
def publishLines (leaf asid key : Nat) (o : Overlay) (fk frame : Nat) : M Unit :=
  each o.lines fun i => do
    copyHeldBy copyHome (o.addr, o.ext) (leaf, frame) key (o.ext + 256 * o.slot i) fk (frame + 256 * i) 256
    dropFor asid (sectorsOf (frame + 256 * i) 256)

/-- A base behind a CXL port that is not up cannot be written by a commit (R378, R385). -/
def basePort (p : PageAt) : M Unit := do
  let s ← get
  if inCxl p.frame && !((s.cxl.getD (cxlPort p.frame) .untrained) == .up) then p.req.fault 13 else pure ()

/-- The checks that both commits share, up to the point where the overlay holds a line: the answer is its record, or none where
there is nothing to do (R213, R223 to R226). A release comes after every earlier access of its stream (R179). -/
def commitStart (ra : SReg) (releases : Bool) : M (Option (PageAt × Overlay)) := do
  let va ← rS ra
  let _ ← pageAt .store va false
  let st ← curStream
  if releases then settle st .dev else pure ()
  let p ← pageForm .store va true
  match ← frameRec p.frame with
  | some r => if r.frozen then waitFor .checkpoint else pure ()
  | none => pure ()
  if !p.leaf.o then pure none
  else
    let o ← readOverlay p.leaf.ovr
    if !o.consistent then p.req.fault 4
    else if o.v = 0 then pure none
    else
      let s ← get
      if s.pcb.isNone then trap 0x0C va 5 else pure ()
      if p.leaf.tier = 2 then trap 0x0D va else pure ()
      basePort p
      pure (some (p, o))

/-- A frame that the page of a leaf has taken receives its record; one that was given twice, or is none, keeps what it has (R214, R216, R225). -/
def takeRecord (leaf frame : Nat) (r : FrameRec) : M Unit := do
  let s ← get
  if s.spoils leaf frame then pure ()
  else match ← frameRec frame with
    | none => pure ()
    | some t => putFrameRec { r with addr := t.addr }

/-- `ocommit.priv` (R225). -/
def execOcommitPriv (ra : SReg) (s : State) : Host.Outcome State Fault Refusal :=
  issue (do
    match ← commitStart ra false with
    | none => retire
    | some (p, o) =>
      match ← frameRec p.frame with
      | none => retire
      | some r =>
        if 1 < r.count then
          awaitEntry p.leaf.addr 16
          match ← take (homeSlice p.frame / 32) with
          | none => trap 0x0C p.req.va 5
          | some x =>
            let n := frameOf x
            hold p.leaf.addr x n
            takeRecord p.leaf.addr n { r with count := 1, pins := 0, moving := false, owner := p.leaf.addr }
            each ((List.range 256).filter fun i => !o.v.testBit i) fun i =>
              copyHeld (p.leaf.addr, p.frame) (p.leaf.addr, n) r.key (p.frame + 256 * i) r.key (n + 256 * i) 256
            mergeLines p.leaf.addr p.req.key o r.key n
            putFrameRec { r with count := r.count - 1 }
            putLeaf p.leaf n 0 true
        else mergeLines p.leaf.addr p.req.key o r.key p.frame
        emptyOverlay o
        retire) s

/-- `ocommit.pub`: a release at `.dev` each time it does not trap (R179, R226). -/
def execOcommitPub (ra : SReg) (s : State) : Host.Outcome State Fault Refusal :=
  issue (do
    match ← commitStart ra true with
    | none => retire
    | some (p, o) =>
      let fk ← frameKey p.req.key p.frame
      let h ← getHart
      publishLines p.leaf.addr h.asid p.req.key o fk p.frame
      emptyOverlay o
      retire) s

/-- `odiscard`: also an overlay that holds no line gives its extent back; before a page control block is taken there is no ring for it
(R213, R227). -/
def execOdiscard (ra : SReg) (s : State) : Host.Outcome State Fault Refusal :=
  issue (do
    let va ← rS ra
    let p ← pageForm .load va true
    if !p.leaf.o then retire
    else
      let o ← readOverlay p.leaf.ovr
      let s ← get
      if !o.consistent then p.req.fault 4
      else if s.pcb.isNone then if o.v = 0 then retire else trap 0x0C va 5
      else
        emptyOverlay o
        retire) s

/-- `oquery` (R228); a peer page answers 0 (R363). -/
def execOquery (rd ra rb : SReg) (s : State) : Host.Outcome State Fault Refusal :=
  issue (do
    let va ← rS ra
    let p ← pageForm .load va false true
    let b ← rS rb
    let j := b.toNat % 8
    let v ←
      if inPeer p.leaf.frame then pure 0
      else if 5 ≤ j then pure 0
      else do
        let o ← if p.leaf.o then do
            let o ← readOverlay p.leaf.ovr
            if o.consistent then pure (some o) else p.req.fault 4
          else pure none
        if j < 4 then pure (o.elim 0 fun o => bitsOf o.v (64 * j) 64)
        else do
          let r ← frameRec p.frame
          pure (o.elim 0 (fun o => o.count % 512 + o.cc % 16 * 2 ^ 9) + p.leaf.tier * 2 ^ 13 +
            r.elim 0 (fun r => r.pins * 2 ^ 16 + r.count * 2 ^ 32))
    wS rd (BitVec.ofNat 64 v)
    retire) s

/-- The count of a frame changed by a delta, if it stays in range: the new count, or all ones. As an atomic does, it leaves no copy of the count
word in the core's L1 (R143, R229). -/
def countOf (r : FrameRec) (d : Word64) : M Word64 := do
  let s ← get
  dropOwn s.curSlot (.pa r.addr) 4
  let x : Int := r.count + d.toInt
  if 0 ≤ x ∧ x ≤ 0xFFFFFFFF then
    putFrameRec { r with count := x.toNat }
    pure (BitVec.ofInt 64 x)
  else pure (BitVec.allOnes 64)

/-- The scope of an order on a count word: `.hart` behaves as `.core` (R229). -/
def countScope (sc : Scope) : Scope := if sc = .hart then .core else sc

/-- `frref`: an atomic on the count word of the frame that holds the address (R229). At `.fab` scope S1 holds it once its checks have
passed (R20). -/
def execFrref (o : Order) (sc : Scope) (rd ra rb : SReg) (s : State) : Host.Outcome State Fault Refusal :=
  issue (do
    let va ← rS ra
    let d ← rS rb
    let p ← pageAt .load va false
    let _ ← formRecord p
    let s ← get
    let v ← if sc = .fab ∧ s.level ≠ .s2 then do
        let p ← pageForm .load va true
        let r ← formRecord p
        let h ← getHart
        let st ← curStream
        let w : Held := { slot := h.slot, stream := st, regs := [.s rd.val], acquires := Order.acquires o, releases := Order.releases o
                          loc := .pa r.addr, len := 4, after := h.inFlight st, work := .count va d, born := s.nextId
                          lines := [linesOf (va.toNat / p.leaf.size * p.leaf.size) (va.toNat / p.leaf.size * p.leaf.size + p.leaf.size - 1) true] }
        modify fun s => { s with held := s.held ++ [w] }
        freeWord
      else ordered o (countScope sc) (do
        let p ← pageForm .load va true
        let r ← formRecord p
        behindPage (.pa r.addr) 4
        countOf r d)
    wS rd v
    retire) s

end Sys2Proof.Machine
end

