-- ==== Sys2Proof/Machine/Copies.lean ====
section
/-! DEFINITION. Copies, page moves, `kvcompact`, `lrfence` and the reading of completion records, with the events in which the
engines do their work (R215 to R220, R238 to R249). -/

namespace Sys2Proof.Machine

/-- The chunks of a copy (R245). -/
def Layout.chunks (l : Layout) : Nat := (l.count * Fmt.ew l.fmt + 131071) / 131072

/-- The ranges of a copy share a line (R245). -/
def overlaps (a b : List LineRange) : Bool := a.any fun x => b.any fun y => decide (x.lo ≤ y.hi) && decide (y.lo ≤ x.hi)

/-- The records of a copy against each other and against its form (R243): the address of the record that fails. -/
def copyBad (kind : Nat) (d s : Layout) : Option Word64 :=
  if Fmt.ew d.fmt ≠ Fmt.ew s.fmt ∨ d.count ≠ s.count then some d.addr
  else if 2 ^ 20 < d.size then some d.addr
  else if !d.zOk then some d.addr
  else if !s.zOk then some s.addr
  else if d.z ≠ decide (kind = 2) then some d.addr
  else if s.z ≠ decide (kind = 1) then some s.addr
  else if kind = 1 ∧ inWindow d.base = false then some d.addr
  else none

/-- `cpy`, `cpyx` and `cpyz`: the checks, and the transfer's start (R243). -/
def copyForm (kind : Nat) (rd ra rb : SReg) : M Unit := do
  onlyA
  needWindow
  let da ← rS ra
  let sa ← rS rb
  aligned da 64
  aligned sa 64
  let db ← recordCached da
  let sb ← recordCached sa
  let d ← parsed da db
  let l ← parsed sa sb
  match copyBad kind d l with
  | some va => recordBad va
  | none => pure ()
  match d.misaligned.or l.misaligned with
  | some va => trap 0x08 va
  | none => pure ()
  let ranges := d.ranges true ++ l.ranges false
  needTable ranges.length
  let h ← getHart
  drainHart h.slot
  let tag ← takeTag
  let id ← newId
  startTransfer { id := id, kind := kind, tag := tag, stream := .a, user := decide (h.priv = .u), ranges := ranges, pages := []
                  work := .copy kind d l (List.range d.chunks) [] 0 }
  wS rd (tag.setWidth 64)
  retire

/-- `cpy` (R243). -/
def execCpy (rd ra rb : SReg) (s : State) : Host.Outcome State Fault Refusal := issue (copyForm 0 rd ra rb) s

/-- `cpyx` (R243). -/
def execCpyx (rd ra rb : SReg) (s : State) : Host.Outcome State Fault Refusal := issue (copyForm 1 rd ra rb) s

/-- `cpyz` (R243). -/
def execCpyz (rd ra rb : SReg) (s : State) : Host.Outcome State Fault Refusal := issue (copyForm 2 rd ra rb) s

/-- Read an element of a layout: its bits (R145, R244). -/
def readElem (a : Actor) (l : Layout) (o : Nat) : M Nat := do
  let (va, nib) := l.ord o
  let v ← a.load .home va (esizeOf l.fmt)
  pure (if l.fmt = .b4 then bitsOf v (4 * nib) 4 else v)

/-- Write an element of a layout at its home (R145, R244). -/
def writeElem (a : Actor) (l : Layout) (o v : Nat) : M Unit := do
  let (va, nib) := l.ord o
  if l.fmt = .b4 then a.storeNow va 1 (v * 16 ^ nib) (some false) (some (15 * 16 ^ nib))
  else a.storeNow va (esizeOf l.fmt) v

/-- The elements of a 256-byte line of a dense record. -/
def lineElems (f : Fmt) (line : Nat) : List Nat := (List.range (2048 / Fmt.ew f)).map fun i => line * (2048 / Fmt.ew f) + i

/-- A compressed line with its mask, expanded; its page may be marked compressed or not (R244, R247). -/
def readLine (a : Actor) (l : Layout) (line : Nat) : M Nat := do
  let mask ← a.load .home (l.maskBase + BitVec.ofNat 64 line) 1
  eachFold ((List.range 8).filter mask.testBit) 0 fun v j => do
    let x ← a.load .home (l.base + BitVec.ofNat 64 (256 * line + 32 * popcountN mask j)) 32 none
    pure (v + x * 2 ^ (256 * j))

/-- The sectors of a line that are not all zero (R247). -/
def lineMask (v : Nat) : List Nat := (List.range 8).filter fun j => decide (bitsOf v (256 * j) 256 ≠ 0)

/-- Write a compressed line and its mask, in one event; the bytes past the packed sectors are unspecified (R247). -/
def writeLine (a : Actor) (l : Layout) (line v : Nat) : M Unit := do
  let secs := lineMask v
  let rest ← freeBytes (256 - 32 * secs.length)
  let packed := secs.zipIdx.foldl (fun x (j, k) => x + bitsOf v (256 * j) 256 * 2 ^ (256 * k)) 0
  a.storeNow (l.base + BitVec.ofNat 64 (256 * line)) 256 (packed + rest * 2 ^ (256 * secs.length)) (some true)
  a.storeNow (l.maskBase + BitVec.ofNat 64 line) 1 ((secs.map fun j => 2 ^ j).sum)

/-- The units that a chunk of a copy is made of: elements, or lines of a compressed record. -/
def chunkUnits (kind : Nat) (d : Layout) (c : Nat) : List Nat :=
  if kind = 0 then
    let per := 131072 / Fmt.ew d.fmt
    (List.range (min per (d.count - c * per))).map (c * per + ·)
  else (List.range (min 64 (d.size / 256 - c * 64))).map (c * 64 + ·)

/-- One unit of a copy, as its form gives (R243, R247). -/
def copyUnit (a : Actor) (kind : Nat) (d l : Layout) (u : Nat) : M Unit := do
  match kind with
  | 0 =>
    let v ← readElem a l u
    writeElem a d u v
  | 1 =>
    let v ← readLine a l u
    each ((lineElems d.fmt u).zipIdx) fun (o, i) => writeElem a d o (bitsOf v (i * Fmt.ew d.fmt) (Fmt.ew d.fmt))
  | _ =>
    let v ← eachFold ((lineElems l.fmt u).zipIdx) 0 fun v (o, i) => do
      let x ← readElem a l o
      pure (v + x * 2 ^ (i * Fmt.ew l.fmt))
    writeLine a d u v

/-- Zeros in a unit of a failed chunk; an element whose own store faults is left unchanged. The answer is how many bits were
written (R246). -/
def zeroUnit (a : Actor) (kind : Nat) (d : Layout) (u : Nat) : M Nat := do
  let put (x : M Unit) (bits : Nat) : M Nat := do
    match ← attempt x with
    | .ok () => pure bits
    | .error (.trap ..) => pure 0
    | .error e => throw e
  match kind with
  | 0 => put (writeElem a d u 0) (Fmt.ew d.fmt)
  | 1 => eachFold (lineElems d.fmt u) 0 fun n o => do
      let k ← put (writeElem a d o 0) (Fmt.ew d.fmt)
      pure (n + k)
  | _ => put (writeLine a d u 0) 2048

/-- The bits of a unit. -/
def unitBits (kind : Nat) (d : Layout) : Nat := if kind = 0 then Fmt.ew d.fmt else 2048

/-- Find a transfer in flight of a hart that is on its core, and that the collector does not have. -/
def transferOf (slot id : Nat) : M (Hart × Transfer) := do
  let s ← get
  match SMap.get? s.harts slot with
  | none => impossible
  | some h => match h.transfers.find? fun t => t.id == id with
    | none => impossible
    | some t => if h.acked then impossible else pure (h, t)

/-- Run a part of a transfer of a hart, as the hart's engine: the transfer may act only when no transfer that the hart issued before, and no work
of it that S1 holds, conflicts with it (R20, R173). -/
def asEngine {α : Type} (slot id : Nat) (x : Hart → Transfer → Actor → M α) : M α := do
  let (h, t) ← transferOf slot id
  let s ← get
  if h.clearAhead id && !s.heldAhead slot t then
    asHart slot t.stream (do
      let s ← get
      x h t (s.engineActor h t))
  else impossible

/-- Replace the work of a transfer of a hart. -/
def setWork (slot id : Nat) (w : Work) : M Unit :=
  modSlot slot fun h => pure { h with transfers := h.transfers.map fun t => if t.id = id then { t with work := w } else t }

/-- A hart after a chunk of its copy waited n cycles on bank conflicts: the count stops at all ones (R56, R69). -/
def Hart.countAgc (h : Hart) (n : Nat) : Hart := { h with agc := BitVec.ofNat 32 (min (h.agc.toNat + n) (2 ^ 32 - 1)) }

/-- A chunk of a copy finishes: the hart is at slot a, its transfer is b, the chunk c, and its address generator waited d cycles on
bank conflicts (R69). A chunk that meets a page move waits (R245, R246). -/
def execCopyChunkDone (s : State) : Host.Outcome State Fault Refusal :=
  event (do
    let s ← get
    let e := s.curEv
    asEngine e.a e.b fun _ t a => do
      match t.work with
      | .copy kind d l todo failed written =>
        let inOrder := overlaps (d.ranges true) (l.ranges false)
        if !todo.contains e.c || (inOrder && todo.head? != some e.c) then impossible
        else
          let units := chunkUnits kind d e.c
          let rest := todo.filter (· != e.c)
          match ← attempt (each units (copyUnit a kind d l)) with
          | .ok () => setWork e.a e.b (.copy kind d l rest failed (written + units.length * unitBits kind d))
          | .error (.trap cause _ _ _) =>
            let n ← eachFold units 0 fun n u => do
              let k ← zeroUnit a kind d u
              pure (n + k)
            setWork e.a e.b (.copy kind d l rest (SMap.put failed e.c cause.toNat) (written + n))
          | .error _ => impossible
      | _ => impossible
    modSlot e.a fun h => pure (h.countAgc e.d)) s

/-- Post a transfer's record to its hart, on its core or saved; a record for a hart that has ended is discarded (R238, R239). -/
def postRecord (slot id kind : Nat) (late : Bool) (cause status : Nat) (w1 w2 w3 : Word64) : M Unit := do
  let post (h : Hart) : Hart :=
    match h.transfers.find? fun t => t.id == id with
    | none => h
    | some t => h.post id { w0 := recordWord0 late cause status kind (slot % 16) t.tag, w1 := w1, w2 := w2, w3 := w3 }
  modify fun s => { s with
    harts := s.harts.map fun e => (e.1, post e.2)
    saved := s.saved.map fun e => (e.1, post e.2) }

/-- A copy ends: fmask is written and the record posted; the hart is at slot a, its transfer is b (R246). -/
def execCopyCompletion (s : State) : Host.Outcome State Fault Refusal :=
  event (do
    let s ← get
    let e := s.curEv
    asEngine e.a e.b fun h t a => do
      match t.work with
      | .copy kind d _ [] failed written =>
        let fmask := (failed.map fun f => 2 ^ f.1).sum
        let wrote ← match ← attempt (a.storeNow (d.addr + 56) 8 fmask) with
          | .ok () => pure true
          | .error (.trap ..) => pure false
          | .error _ => impossible
        modCore (coreOfSlot e.a) fun c => match SMap.get? c.rcache (recKey h d.addr) with
          | none => c
          | some b => if wrote then { c with
              rcache := SMap.put c.rcache (recKey h d.addr) (BitVec.ofNat 512 (putBits b.toNat 448 64 fmask))
              rpoison := c.rpoison.filter (· != (recKey h d.addr, 7)) } else c
        modify fun s => s.endCover e.a t.stream t.id
        let status := if failed.isEmpty then 0 else if failed.length = d.chunks then 2 else 1
        postRecord e.a e.b kind false (failed.headD (0, 0)).2 status (BitVec.ofNat 64 fmask) d.addr (BitVec.ofNat 64 (written / 8))
      | _ => impossible) s

/-- `lrfence` (R242). -/
def execLrfence (s : State) : Host.Outcome State Fault Refusal :=
  issue (do
    onlyA
    settle .a .dev
    let s ← get
    modCore (coreOfSlot s.curSlot) fun c => { c with rcache := [], rpoison := [] }
    retire) s

/-- A record matches a tag; all ones match the oldest (R240). -/
def matchRecord (t : BitVec 32) (r : Record) : Bool := decide (t = 0xFFFFFFFF) || decide (r.w0.setWidth 32 = t)

/-- A word of a record. -/
def Record.word (r : Record) (w : Nat) : Word64 :=
  match w with
  | 0 => r.w0
  | 1 => r.w1
  | 2 => r.w2
  | _ => r.w3

/-- `evwait` and `evpoll`: without a matching record the one waits and the other answers all ones (R240). -/
def readEvent (rd ra : SReg) (waits : Bool) : M Unit := do
  let v ← rS ra
  let h ← getHart
  let w := bitsOf v.toNat 32 2
  match h.records.find? (matchRecord (v.setWidth 32)) with
  | none => if waits then waitFor .evwait else wS rd (BitVec.allOnes 64)
  | some r =>
    if w = 0 then setHart { h with records := h.records.eraseP (matchRecord (v.setWidth 32)) } else pure ()
    wS rd (r.word w)
  retire

/-- `evwait` (R240). -/
def execEvwait (rd ra : SReg) (s : State) : Host.Outcome State Fault Refusal := issue (readEvent rd ra true) s

/-- `evpoll` (R240). -/
def execEvpoll (rd ra : SReg) (s : State) : Host.Outcome State Fault Refusal := issue (readEvent rd ra false) s

/-- A transfer reads memory, and so keeps the pages it reads busy (R218). -/
def Transfer.reads (t : Transfer) : Bool :=
  match t.work with
  | .copy .. | .pass _ => true
  | _ => false

/-- Some page that a transfer of a context reads is mapped by a leaf (R218). -/
def readsLeaf (root : Nat) (t : Transfer) (leaf : Nat) : M Bool := do
  if !t.reads then pure false
  else
    let spans := (t.ranges.filter fun r => !r.write).map fun r => (r.lo / 256, r.hi / 256)
    let pages := spans.flatMap (fun p => (List.range (p.2 + 1 - p.1)).map (p.1 + ·)) ++ t.pages
    eachFold pages false fun b p => do
      if b then pure true
      else match ← walk root (p * 2 ^ 16) with
        | .leaf l => pure (decide (l.addr = leaf))
        | _ => pure false

/-- A page is busy: a prefetch of one of its lines, or a read of it by an engine transfer, is in flight (R218). -/
def busyLeaf (leaf : Nat) : M Bool := do
  let s ← get
  if s.cores.toList.any fun c => c.prefetches.any fun p => p.leaf == leaf then pure true
  else eachFold (s.harts.flatMap fun e => e.2.transfers.map fun t => (e.2.asid, t)) false fun b (asid, t) => do
    if b then pure true
    else match SMap.get? s.contexts asid with
      | none => pure false
      | some c => readsLeaf c.root t leaf

/-- The free ring that an old frame goes to (R213, R216). -/
def ringOf (frame : Nat) : Nat := if inHbm frame then dieOfFrame frame else 4 + dieOfFrame frame

/-- The tier that a demotion goes to by the page control block; none when it holds an invalid one (R213). The bits of that word beside tgt,
which set-pcb found to be zero, no longer matter (log 50). -/
def demotionTier : M (Option Nat) := do
  match ← pcbWord 0x18 with
  | none => pure none
  | some t => pure (if t % 8 = 1 ∨ t % 8 = 2 then some (t % 8) else none)

/-- The ring that a move takes its target frame from (R216). -/
def moveRing (promote : Bool) (l : Leaf) : Nat := if promote then homeSlice l.frame / 32 else 4 + dieOfFrame l.frame

/-- A ring holds an entry. -/
def ringHolds (ring : Nat) : M Bool := fun s =>
  match take ring s with
  | .ok x _ => .ok x.isSome s
  | .error e _ => .error e s

/-- Begin a move of a page: M is set, the leaf enters the move state, and a target frame is taken; false when the ring is empty
(R216). -/
def beginMove (m : Move) (l : Leaf) (r : FrameRec) : M Bool := do
  awaitEntry l.addr 16
  match ← take (moveRing m.promote l) with
  | none => pure false
  | some x =>
    let n := frameOf x
    hold l.addr x n
    putFrameRec { r with moving := true }
    putLeaf l l.frame (if m.promote then 3 else 4) l.a
    modify fun s => { s with moves := s.moves ++ [{ m with target := n }] }
    pure true

/-- The CXL port behind which a frame lies is not up (R378). -/
def State.portDown (s : State) (frame : Nat) : Bool := inCxl frame && !((s.cxl.getD (cxlPort frame) .untrained) == .up)

/-- The start of a move that a hart asked for: the cases of R248 in their order, where every move ends with no frame while no page control block is
given (R213), and a frozen page counts as pinned whatever else it is (R368). A frame behind a port that is not up fails as an access to it does, the
source as a load and the target as a store (R378, log 34). A move waits while the page is in a move state, a demotion also while it is busy (R219);
in S1 it is held (R20). It starts after the hart's earlier moves of the page (R224). -/
def startMove (slot id : Nat) (h : Hart) (promote : Bool) (va opt : Word64) (frame tier : Nat) : M Unit := do
  let s ← get
  let post (cause status : Nat) : M Unit :=
    postRecord slot id (if promote then 3 else 4) false cause status 0 (va &&& ~~~0xFFFF#64) 0
  let ahead : Bool := (h.transfers.takeWhile fun t => t.id != id).any fun t => match t.work with
    | .move _ page .. => decide (page.toNat / 2 ^ 16 = va.toNat / 2 ^ 16) && !s.moves.any fun m => m.id == t.id
    | _ => false
  match SMap.get? s.contexts h.asid with
  | none => impossible
  | some c =>
    if s.level ≠ .s2 ∨ ahead then impossible
    else if s.pcb.isNone then post 0 4
    else
      match ← walk c.root va.toNat with
      | .leaf l =>
        let want ← if promote then pure (some 0) else if opt.toNat % 8 = 1 ∨ opt.toNat % 8 = 2 then pure (some (opt.toNat % 8)) else demotionTier
        if s.portDown l.frame then post 0x0A 2
        else if l.size ≠ 2 ^ 16 then post 0 8
        else match ← frameRec l.frame with
          | none => post 0 4
          | some r =>
            match want with
            | none => post 0 2
            | some goal =>
              if r.frozen then post 0 5
              else if l.tier = goal then post 0 7
              else if 3 ≤ l.tier then impossible
              else if r.count ≠ 1 then post 0 6
              else if !promote && decide (r.pins ≠ 0) then post 0 5
              else
                let busy ← busyLeaf l.addr
                let has ← ringHolds (moveRing promote l)
                if !promote && busy then impossible
                else if !has then post 0 4
                else if tier < 3 ∧ (l.frame ≠ frame ∨ l.tier ≠ tier) then post 0 3
                else if !promote && !((s.cxl.getD (dieOfFrame l.frame) .untrained) == .up) then post 0x0B 2
                else
                  let ok ← beginMove { id := id, asker := some (slot, id), asid := h.asid, promote := promote, pin := opt.getLsbD 0 && promote
                                       leaf := l.addr, oldFrame := l.frame, oldTier := l.tier, newTier := goal, target := 0, late := false } l r
                  if ok then pure () else post 0 4
      | _ => post 0x0A 2

/-- `cpyp` and `cpyd`: the page is translated at issue, a frame behind a port that is not up raising sub 13 (R378), and the move starts with its acceptance unless it must wait (R20, R215, R216,
R219, R248). -/
def moveForm (promote : Bool) (rd ra rb : SReg) : M Unit := do
  onlyA
  needWindow
  let va ← rS ra
  let opt ← rS rb
  let p ← pageAt .load va false
  let s ← get
  if s.level = .s2 ∧ s.portDown p.leaf.frame then p.req.fault 13 else pure ()
  let h ← getHart
  let tag ← takeTag
  let id ← newId
  startTransfer { id := id, kind := if promote then 3 else 4, tag := tag, stream := .a, user := decide (h.priv = .u), ranges := [], pages := []
                  work := .move promote va opt p.leaf.frame p.leaf.tier }
  wS rd (tag.setWidth 64)
  retire
  let _ ← attempt (startMove h.slot id h promote va opt p.leaf.frame p.leaf.tier)

/-- `cpyp` (R248). -/
def execCpyp (rd ra rb : SReg) (s : State) : Host.Outcome State Fault Refusal := issue (moveForm true rd ra rb) s

/-- `cpyd` (R248). -/
def execCpyd (rd ra rb : SReg) (s : State) : Host.Outcome State Fault Refusal := issue (moveForm false rd ra rb) s

/-- The end of a move: it installs, or, when the leaf no longer names the frame and state it was given, it is stale (R216, R219,
R220). -/
def finishMove (m : Move) : M Unit := do
  modify fun s => { s with moves := s.moves.filter fun x => x.id != m.id }
  let e ← hwRead m.leaf 16
  let l := Leaf.of m.leaf [] e
  let s ← get
  let va := match m.asker with
    | none => 0
    | some (_, id) => (((s.harts ++ s.saved).findSome? fun e => e.2.transfers.find? fun t => t.id == id).bind fun t =>
        match t.work with
          | .move _ page _ _ _ => some (page &&& ~~~0xFFFF#64)
          | _ => none).getD 0
  let post (status w3 : Nat) : M Unit := match m.asker with
    | none => pure ()
    | some (slot, id) => postRecord slot id (if m.promote then 3 else 4) (m.promote && m.late) 0 status 0 va (BitVec.ofNat 64 w3)
  let old ← frameRec m.oldFrame
  if e % 4 = 3 ∧ l.frame = m.oldFrame ∧ l.tier = (if m.promote then 3 else 4) then
    awaitEntry m.leaf 16
    let fk := old.elim 0 FrameRec.key
    copyHeld (m.leaf, m.oldFrame) (m.leaf, m.target) fk m.oldFrame fk m.target (2 ^ 16)
    match old with
    | some r =>
      takeRecord m.leaf m.target { r with moving := false, pins := if m.pin then min (r.pins + 1) 0xFFFF else r.pins }
      putFrameRec { r with count := 0, moving := false }
    | none => pure ()
    putLeaf l m.target m.newTier (if m.promote then !m.late else l.a)
    modify fun s => { s with oldFrames := s.oldFrames ++ [{ frame := m.oldFrame, ring := ringOf m.oldFrame, leaf := m.leaf, place := none }] }
    post 0 m.target
  else
    match old with
    | some r => putFrameRec { r with moving := false }
    | none => pure ()
    give m.leaf (ringOf m.target) m.target
    post 3 0

/-- The mover acts on move a: one that a hart has asked for starts, or ends at once by R248; one under way ends (R216). -/
def execMoveInstall (s : State) : Host.Outcome State Fault Refusal :=
  event (do
    let s ← get
    let id := s.curEv.a
    match s.moves.find? fun m => m.id == id with
    | some m => finishMove m
    | none =>
      match (s.harts ++ s.saved).findSome? fun e => (e.2.transfers.find? fun t => t.id == id).map fun t => (e.2.slot, e.2, t) with
      | some (slot, h, t) => match t.work with
        | .move promote va opt frame tier => startMove slot id h promote va opt frame tier
        | _ => impossible
      | none => impossible) s

/-- The old frame at position a of those waiting is given to its free ring (R216). Every access translated through the old leaf has
performed by then: the leaf's rewriting performs them (R209). An entry that a ring has already made room for goes to its place there,
once that is free (R214). -/
def execOldFrameRelease (s : State) : Host.Outcome State Fault Refusal :=
  event (do
    let s ← get
    match s.oldFrames[s.curEv.a]? with
    | none => impossible
    | some o =>
      set { s with oldFrames := s.oldFrames.eraseIdx s.curEv.a }
      match o.place with
      | none => give o.leaf o.ring o.frame
      | some x => do
        let e ← hwRead x 8
        if e = 0 then hwWrite x o.frame 8 else impossible) s

/-- `kvcompact` (R249). -/
def execKvcompact (rd ra rb : SReg) (s : State) : Host.Outcome State Fault Refusal :=
  issue (do
    onlyA
    needWindow
    let va ← rS ra
    let arg ← rS rb
    aligned arg 16
    interlock arg 16 false
    let a ← actor
    let bm ← atRecord arg (a.load .home arg 8)
    let keep ← atRecord arg (a.load .home (arg + 8) 8)
    let bitmap := BitVec.ofNat 64 bm
    aligned bitmap 8
    let _ ← pageAt .store va false
    let page := va &&& ~~~0xFFFF#64
    needTable 2
    let h ← getHart
    drainHart h.slot
    let tag ← takeTag
    let id ← newId
    startTransfer { id := id, kind := 5, tag := tag, stream := .a, user := decide (h.priv = .u)
                    ranges := [rangeOf page (2 ^ 16) true, rangeOf bitmap 8 true], pages := []
                    work := .kvc page bitmap (BitVec.ofNat 64 keep) }
    wS rd (tag.setWidth 64)
    retire) s

/-- The bytes of a row: K row j, or V row j, of a block page (R249, R317). -/
def rowAddr (page : Word64) (v : Bool) (j : Nat) : Word64 := page + BitVec.ofNat 64 ((if v then 0x8000 else 0) + 512 * j)

/-- Move or clear the rows of a block (R249). -/
def compactRows (a : Actor) (page : Word64) (keptFrom kept : Nat) : M Unit := do
  each (List.range 64) fun p =>
    if kept.testBit p then
      each [false, true] fun v => each [0, 256] fun off => do
        let x ← a.load .home (rowAddr page v (popcountN keptFrom p) + BitVec.ofNat 64 off) 256
        a.storeNow (rowAddr page v (popcountN kept p) + BitVec.ofNat 64 off) 256 x
    else pure ()
  each ((List.range 64).filter fun j => decide (popcountN kept 64 ≤ j) && decide (j < popcountN keptFrom 64)) fun j =>
    each [false, true] fun v => each [0, 256] fun off => a.storeNow (rowAddr page v j + BitVec.ofNat 64 off) 256 0

/-- The engine compacts a block in one event: the hart is at slot a, its transfer is b (R249). -/
def execKvcompactEvent (s : State) : Host.Outcome State Fault Refusal :=
  event (do
    let s ← get
    let e := s.curEv
    asEngine e.a e.b fun h t a => do
      match t.work with
      | .kvc page bitmap keep =>
        let s ← get
        let root := ((SMap.get? s.contexts h.asid).map Context.root).getD 0
        let post (cause status : Nat) (w3 : Word64) : M Unit := postRecord e.a e.b 5 false cause status 0 page w3
        match ← walk root page.toNat with
        | .leaf l =>
          if l.size ≠ 2 ^ 16 then post 0 8 0
          else if l.tier = 2 then post 0x0D 2 0
          else
            match ← attempt (do
              let bm ← a.load .home bitmap 8
              let kept := bm &&& keep.toNat
              compactRows a page bm kept
              a.storeNow bitmap 8 kept
              pure kept) with
            | .ok kept => post 0 0 (BitVec.ofNat 64 kept)
            | .error (.trap c _ _ _) => if c = 0x0C then post 0 9 0 else post c.toNat 2 0
            | .error _ => impossible
        | _ => post 0x0B 2 0
      | _ => impossible) s

end Sys2Proof.Machine
end

