-- ==== Sys2Proof/Machine/Scalar.lean ====
section
/-! DEFINITION. The scalar forms: constants, arithmetic, immediates, branches, jumps and the coupling of the streams
(R93 to R107). -/

namespace Sys2Proof.Machine

/-- A form that computes its result from the stream's scalar registers alone (R93). -/
def alu (rd : SReg) (f : (SReg → Word64) → Word64) : M Unit := do
  let h ← getHart
  let st ← curStream
  wS rd (f (h.sreg st))
  retire

/-- Division of i64 values toward zero (R97). -/
def divS (a b : Word64) : Word64 := if b = 0 then BitVec.allOnes 64 else BitVec.ofInt 64 (a.toInt.tdiv b.toInt)
/-- Remainder of i64 values, with the sign of the dividend (R97). -/
def remS (a b : Word64) : Word64 := if b = 0 then a else BitVec.ofInt 64 (a.toInt.tmod b.toInt)
/-- Division of n64 values (R97). -/
def divU (a b : Word64) : Word64 := if b = 0 then BitVec.allOnes 64 else BitVec.ofNat 64 (a.toNat / b.toNat)
/-- Remainder of n64 values (R97). -/
def remU (a b : Word64) : Word64 := if b = 0 then a else BitVec.ofNat 64 (a.toNat % b.toNat)
/-- Bits 127:64 of the exact signed product (R96). -/
def mulHigh (a b : Word64) : Word64 := BitVec.ofInt 64 (a.toInt * b.toInt / 2 ^ 64)
/-- 1 or 0. -/
def truth (b : Bool) : Word64 := if b then 1 else 0
/-- The number of leading zero bits of the low n bits (R96). -/
def leadingZeros (x : Nat) : Nat → Nat
  | 0 => 0
  | n + 1 => if x.testBit n then 0 else 1 + leadingZeros x n
/-- The field of `ext`, zero-extended (R99). -/
def extField (a : Word64) (pos wm1 : Nat) : Word64 := BitVec.ofNat 64 (a.toNat / 2 ^ pos % 2 ^ (wm1 + 1))
/-- The old value with the field of `ins` replaced (R99). -/
def insField (old a : Word64) (pos wm1 : Nat) : Word64 :=
  let mask := BitVec.ofNat 64 ((2 ^ (wm1 + 1) - 1) * 2 ^ pos)
  (old &&& ~~~mask) ||| ((a <<< pos) &&& mask)


/-- `add` (R96). -/
def execAdd (rd ra rb : SReg) (s : State) : Host.Outcome State Fault Refusal :=
  issue (alu rd fun r => r ra + r rb) s

/-- `sub` (R96). -/
def execSub (rd ra rb : SReg) (s : State) : Host.Outcome State Fault Refusal :=
  issue (alu rd fun r => r ra - r rb) s

/-- `mul`: the low 64 bits of the product (R96). -/
def execMul (rd ra rb : SReg) (s : State) : Host.Outcome State Fault Refusal :=
  issue (alu rd fun r => r ra * r rb) s

/-- `mulh` (R96). -/
def execMulh (rd ra rb : SReg) (s : State) : Host.Outcome State Fault Refusal :=
  issue (alu rd fun r => mulHigh (r ra) (r rb)) s

/-- `div` (R97). -/
def execDiv (rd ra rb : SReg) (s : State) : Host.Outcome State Fault Refusal :=
  issue (alu rd fun r => divS (r ra) (r rb)) s

/-- `divn` (R97). -/
def execDivn (rd ra rb : SReg) (s : State) : Host.Outcome State Fault Refusal :=
  issue (alu rd fun r => divU (r ra) (r rb)) s

/-- `rem` (R97). -/
def execRem (rd ra rb : SReg) (s : State) : Host.Outcome State Fault Refusal :=
  issue (alu rd fun r => remS (r ra) (r rb)) s

/-- `remn` (R97). -/
def execRemn (rd ra rb : SReg) (s : State) : Host.Outcome State Fault Refusal :=
  issue (alu rd fun r => remU (r ra) (r rb)) s

/-- `and` (R96). -/
def execAnd (rd ra rb : SReg) (s : State) : Host.Outcome State Fault Refusal :=
  issue (alu rd fun r => r ra &&& r rb) s

/-- `or` (R96). -/
def execOr (rd ra rb : SReg) (s : State) : Host.Outcome State Fault Refusal :=
  issue (alu rd fun r => r ra ||| r rb) s

/-- `xor` (R96). -/
def execXor (rd ra rb : SReg) (s : State) : Host.Outcome State Fault Refusal :=
  issue (alu rd fun r => r ra ^^^ r rb) s

/-- `sll`, by b[5:0] (R96). -/
def execSll (rd ra rb : SReg) (s : State) : Host.Outcome State Fault Refusal :=
  issue (alu rd fun r => r ra <<< ((r rb).toNat % 64)) s

/-- `srl`, by b[5:0] (R96). -/
def execSrl (rd ra rb : SReg) (s : State) : Host.Outcome State Fault Refusal :=
  issue (alu rd fun r => r ra >>> ((r rb).toNat % 64)) s

/-- `sra`, by b[5:0] (R96). -/
def execSra (rd ra rb : SReg) (s : State) : Host.Outcome State Fault Refusal :=
  issue (alu rd fun r => (r ra).sshiftRight ((r rb).toNat % 64)) s

/-- `slt` (R96). -/
def execSlt (rd ra rb : SReg) (s : State) : Host.Outcome State Fault Refusal :=
  issue (alu rd fun r => truth ((r ra).slt (r rb))) s

/-- `sltn` (R96). -/
def execSltn (rd ra rb : SReg) (s : State) : Host.Outcome State Fault Refusal :=
  issue (alu rd fun r => truth ((r ra).ult (r rb))) s

/-- `min` of i64 (R96). -/
def execMin (rd ra rb : SReg) (s : State) : Host.Outcome State Fault Refusal :=
  issue (alu rd fun r => if (r ra).slt (r rb) then r ra else r rb) s

/-- `max` of i64 (R96). -/
def execMax (rd ra rb : SReg) (s : State) : Host.Outcome State Fault Refusal :=
  issue (alu rd fun r => if (r ra).slt (r rb) then r rb else r ra) s

/-- `min.n` of n64 (R96). -/
def execMinN (rd ra rb : SReg) (s : State) : Host.Outcome State Fault Refusal :=
  issue (alu rd fun r => if (r ra).ult (r rb) then r ra else r rb) s

/-- `max.n` of n64 (R96). -/
def execMaxN (rd ra rb : SReg) (s : State) : Host.Outcome State Fault Refusal :=
  issue (alu rd fun r => if (r ra).ult (r rb) then r rb else r ra) s

/-- `sel`: the old sd decides (R96). -/
def execSel (rd ra rb : SReg) (s : State) : Host.Outcome State Fault Refusal :=
  issue (alu rd fun r => if r rd ≠ 0 then r ra else r rb) s

/-- `clz` (R96). -/
def execClz (rd ra : SReg) (s : State) : Host.Outcome State Fault Refusal :=
  issue (alu rd fun r => BitVec.ofNat 64 (leadingZeros (r ra).toNat 64)) s

/-- `popc` (R96). -/
def execPopc (rd ra : SReg) (s : State) : Host.Outcome State Fault Refusal :=
  issue (alu rd fun r => BitVec.ofNat 64 (popcountN (r ra).toNat 64)) s

/-- `lea`: a + (b << n) (R96). -/
def execLea (rd ra rb : SReg) (n : Fin 4) (s : State) : Host.Outcome State Fault Refusal :=
  issue (alu rd fun r => r ra + r rb <<< n.val) s

/-- `andi`, the immediate zero-extended (R98). -/
def execAndi (rd rs : SReg) (imm : BitVec 15) (s : State) : Host.Outcome State Fault Refusal :=
  issue (alu rd fun r => r rs &&& imm.setWidth 64) s

/-- `ori`, the immediate zero-extended (R98). -/
def execOri (rd rs : SReg) (imm : BitVec 15) (s : State) : Host.Outcome State Fault Refusal :=
  issue (alu rd fun r => r rs ||| imm.setWidth 64) s

/-- `xori`, the immediate zero-extended (R98). -/
def execXori (rd rs : SReg) (imm : BitVec 15) (s : State) : Host.Outcome State Fault Refusal :=
  issue (alu rd fun r => r rs ^^^ imm.setWidth 64) s

/-- `slti`, the immediate sign-extended (R98). -/
def execSlti (rd rs : SReg) (imm : BitVec 15) (s : State) : Host.Outcome State Fault Refusal :=
  issue (alu rd fun r => truth ((r rs).slt (imm.signExtend 64))) s

/-- `addi`, the immediate sign-extended (R98). -/
def execAddi (rd rs : SReg) (imm : BitVec 15) (s : State) : Host.Outcome State Fault Refusal :=
  issue (alu rd fun r => r rs + imm.signExtend 64) s

/-- `slli` (R98). -/
def execSlli (rd rs : SReg) (n : Fin 64) (s : State) : Host.Outcome State Fault Refusal :=
  issue (alu rd fun r => r rs <<< n.val) s

/-- `srli` (R98). -/
def execSrli (rd rs : SReg) (n : Fin 64) (s : State) : Host.Outcome State Fault Refusal :=
  issue (alu rd fun r => r rs >>> n.val) s

/-- `srai` (R98). -/
def execSrai (rd rs : SReg) (n : Fin 64) (s : State) : Host.Outcome State Fault Refusal :=
  issue (alu rd fun r => (r rs).sshiftRight n.val) s

/-- `ext` (R99). -/
def execExt (rd rs : SReg) (pos wm1 : Fin 64) (s : State) : Host.Outcome State Fault Refusal :=
  issue (alu rd fun r => extField (r rs) pos wm1) s

/-- `ins`, which reads sd before it writes it (R99). -/
def execIns (rd rs : SReg) (pos wm1 : Fin 64) (s : State) : Host.Outcome State Fault Refusal :=
  issue (alu rd fun r => insField (r rd) (r rs) pos wm1) s

/-- `lhi`: the immediate at bits 34:15, sign-extended (R95). -/
def execLhi (rd : SReg) (imm : BitVec 20) (s : State) : Host.Outcome State Fault Refusal :=
  issue (alu rd fun _ => (imm ++ 0#15).signExtend 64) s

/-- The target of a word offset from the program counter (R30, R100). -/
def target (pc : Word64) {n : Nat} (off : BitVec n) : Word64 := pc + (off.signExtend 64) * 4

/-- A compare-and-branch form (R100). -/
def branch (ra rb : SReg) (off : BitVec 15) (taken : Word64 → Word64 → Bool) : M Unit := do
  let a ← rS ra
  let b ← rS rb
  let pc ← curPc
  jumpTo (if taken a b then target pc off else pc + 4)

/-- `beq` (R100). -/
def execBeq (ra rb : SReg) (off : BitVec 15) (s : State) : Host.Outcome State Fault Refusal :=
  issue (branch ra rb off fun a b => a == b) s

/-- `bne` (R100). -/
def execBne (ra rb : SReg) (off : BitVec 15) (s : State) : Host.Outcome State Fault Refusal :=
  issue (branch ra rb off fun a b => a != b) s

/-- `blt`, as i64 (R100). -/
def execBlt (ra rb : SReg) (off : BitVec 15) (s : State) : Host.Outcome State Fault Refusal :=
  issue (branch ra rb off fun a b => a.slt b) s

/-- `bge`, as i64 (R100). -/
def execBge (ra rb : SReg) (off : BitVec 15) (s : State) : Host.Outcome State Fault Refusal :=
  issue (branch ra rb off fun a b => !(a.slt b)) s

/-- `bltn`, as n64 (R100). -/
def execBltn (ra rb : SReg) (off : BitVec 15) (s : State) : Host.Outcome State Fault Refusal :=
  issue (branch ra rb off fun a b => a.ult b) s

/-- `bgen`, as n64 (R100). -/
def execBgen (ra rb : SReg) (off : BitVec 15) (s : State) : Host.Outcome State Fault Refusal :=
  issue (branch ra rb off fun a b => !(a.ult b)) s

/-- `jal` (R101). -/
def execJal (rd : SReg) (off : BitVec 20) (s : State) : Host.Outcome State Fault Refusal :=
  issue (do
    let pc ← curPc
    wS rd (pc + 4)
    jumpTo (target pc off)) s

/-- `jalr`: the register is read before the link is written, and a misaligned target traps (R25, R101). -/
def execJalr (rd rs : SReg) (imm : BitVec 15) (s : State) : Host.Outcome State Fault Refusal :=
  issue (do
    let a ← rS rs
    let t := a + imm.signExtend 64
    if t.toNat % 4 ≠ 0 then trap 0x08 t
    let pc ← curPc
    wS rd (pc + 4)
    jumpTo t) s

/-- `smb`: subtract, and branch while the result is above zero (R102). -/
def execSmb (ra rb : SReg) (off : BitVec 15) (s : State) : Host.Outcome State Fault Refusal :=
  issue (do
    let a ← rS ra
    let b ← rS rb
    let pc ← curPc
    wS ra (a - b)
    jumpTo (if (0#64).slt (a - b) then target pc off else pc + 4)) s

/-- `astart`: an idle access stream starts at the target (R104). -/
def execAstart (off : BitVec 20) (s : State) : Host.Outcome State Fault Refusal :=
  issue (do
    onlyX
    modHart fun h => if h.arun then h else { h with arun := true, apc := pcBits (target h.xpc off) }
    retire) s

/-- `ctok`: a token of target and value goes to q6; a full q6 behind an idle access stream traps (R105). -/
def execCtok (rs : SReg) (off : BitVec 20) (s : State) : Host.Outcome State Fault Refusal :=
  issue (do
    onlyX
    let h ← getHart
    if 4 ≤ h.q6.length then (if h.arun then waitFor .queue else trapWord 0x0E)
    else
      let v ← rS rs
      setHart { h with q6 := h.q6 ++ [{ target := target h.xpc off, value := v }] }
      retire) s

/-- `ctake`: the oldest token gives sd its value and the access stream its target (R106). -/
def execCtake (rd : SReg) (s : State) : Host.Outcome State Fault Refusal :=
  issue (do
    onlyA
    let h ← getHart
    match h.q6 with
    | [] => waitFor .queue
    | t :: rest => do
      setHart { h with q6 := rest }
      wS rd t.value
      jumpTo t.target) s

end Sys2Proof.Machine
end

