-- ==== Sys2Proof/Machine/Vector.lean ====
section
/-! DEFINITION. The vector forms: arithmetic, logic, comparison, moves, conversion, reductions, slides and permutes, and the
predicate and scale forms (R111 to R137). -/

namespace Sys2Proof.Machine

/-- An operation on integers, narrowed, or on floating values, rounded (R71, R73, R120). -/
def numOp (h : Hart) (int : Int → Int → Int) (fl : Fp → Fp → Exact) (a b rnd i : Nat) : Nat × Bool :=
  let f := h.fmt
  if Fmt.isInt f then (narrow f (mdSat h.md) (int (intVal f a) (intVal f b)), false)
  else (h.fpCtx f).round rnd i (fl (h.input f a) (h.input f b))

/-- The fused a × b + c, or c − a × b (R120). -/
def fmaOp (h : Hart) (negate : Bool) (a b c rnd i : Nat) : Nat × Bool :=
  let f := h.fmt
  if Fmt.isInt f then
    let p := intVal f a * intVal f b
    (narrow f (mdSat h.md) (if negate then intVal f c - p else p + intVal f c), false)
  else (h.fpCtx f).round rnd i (fpFma (mdRm h.md) negate (h.input f a) (h.input f b) (h.input f c))

/-- Integer division (R121): a zero divisor gives all ones. -/
def divOp (h : Hart) (a b rnd i : Nat) : Nat × Bool :=
  let f := h.fmt
  if Fmt.isInt f ∧ intVal f b = 0 then (2 ^ Fmt.ew f - 1, false)
  else numOp h Int.tdiv fpDiv a b rnd i

/-- A floating operation of one operand (R120). -/
def unaryOp (h : Hart) (fl : Fp → Exact) (a rnd i : Nat) : Nat × Bool :=
  (h.fpCtx h.fmt).round rnd i (fl (h.input h.fmt a))

/-- Element a is below element b: by the integer format, or in the order in which +0 is greater than −0, of flushed inputs
(R91, R120). -/
def belowOp (h : Hart) (a b : Nat) : Bool :=
  let f := h.fmt
  if Fmt.isInt f then decide (intVal f a < intVal f b) else fpBelow (h.input f a) (h.input f b)

/-- The greater, or the lesser, of two elements: a NaN operand propagates, and a chosen subnormal is flushed under ftz (R84,
R120). -/
def pickOp (h : Hart) (greater : Bool) (a b : Nat) : Nat :=
  let f := h.fmt
  if !Fmt.isInt f && isNan f a then quieted f a
  else if !Fmt.isInt f && isNan f b then quieted f b
  else
    let c := if (if greater then belowOp h a b else belowOp h b a) then b else a
    if Fmt.isInt f then c else flush f (vtFtz h.vt) c

/-- `vabs` of an element (R120). -/
def absOp (h : Hart) (a : Nat) : Nat :=
  if Fmt.isInt h.fmt then narrow h.fmt (mdSat h.md) ((intVal h.fmt a).natAbs : Int) else a % Fmt.signBit h.fmt

/-- `vneg` of an element (R120). -/
def negOp (h : Hart) (a : Nat) : Nat :=
  if Fmt.isInt h.fmt then narrow h.fmt (mdSat h.md) (-intVal h.fmt a) else a ^^^ Fmt.signBit h.fmt

/-- Left shift of a pattern (R123). -/
def shlOp (ew a n : Nat) : Nat := if ew ≤ n then 0 else a * 2 ^ n % 2 ^ ew
/-- Logical right shift of a pattern (R123). -/
def shrOp (ew a n : Nat) : Nat := if ew ≤ n then 0 else a / 2 ^ n
/-- Arithmetic right shift of a pattern (R123). -/
def sraOp (ew a n : Nat) : Nat := bitsOfInt ew (signedOf ew a / (2 ^ min n ew : Nat))

/-- A form of two vector operands and a class (R113, R120). -/
def vecBin (admits : Fmt → Bool) (draws : Bool) (vd va vb : VRegNo) (f : Hart → (a b rnd i : Nat) → Nat × Bool) : M Unit := do
  let h ← vectorIssue admits { vs := [va.val, vb.val], vw := [vd.val] }
  let ew := Fmt.ew h.fmt
  elementwise h vd.val draws fun rnd i => f h (elemOf ew (h.vbitsOf va.val) i) (elemOf ew (h.vbitsOf vb.val) i) rnd i

/-- A form of one vector operand. -/
def vecUn (admits : Fmt → Bool) (draws : Bool) (vd va : VRegNo) (f : Hart → (a rnd i : Nat) → Nat × Bool) : M Unit := do
  let h ← vectorIssue admits { vs := [va.val], vw := [vd.val] }
  let ew := Fmt.ew h.fmt
  elementwise h vd.val draws fun rnd i => f h (elemOf ew (h.vbitsOf va.val) i) rnd i

/-- The immediate of a numeric form, formed once; under SR its rounding takes a step of G[0] (R122). At `vl` = 0 it is not
formed. -/
def formImm (imm : BitVec 8) : M Nat := do
  let h ← getHart
  let f := h.fmt
  if h.vl = 0 then pure 0
  else if Fmt.isInt f then pure (narrow f (mdSat h.md) imm.toInt)
  else
    let d := if h.isSr then drawGen h.gen 0 else (h.gen, 0)
    setHart { h with gen := d.1 }
    pure ((h.fpCtx f).round d.2 0 (exactInt imm.toInt)).1

/-- A numeric form with an immediate (R122). -/
def vecImm (draws : Bool) (vd va : VRegNo) (imm : BitVec 8) (f : Hart → (a b rnd i : Nat) → Nat × Bool) : M Unit := do
  let _ ← vectorIssue numFmt { vs := [va.val], vw := [vd.val] }
  let x ← formImm imm
  let h ← getHart
  let ew := Fmt.ew h.fmt
  elementwise h vd.val draws fun rnd i => f h (elemOf ew (h.vbitsOf va.val) i) x rnd i

/-- `vadd` (R120). -/
def execVadd (vd va vb : VRegNo) (s : State) : Host.Outcome State Fault Refusal :=
  issue (vecBin numFmt true vd va vb fun h => numOp h (· + ·) (fpAdd (mdRm h.md))) s

/-- `vsub` (R120). -/
def execVsub (vd va vb : VRegNo) (s : State) : Host.Outcome State Fault Refusal :=
  issue (vecBin numFmt true vd va vb fun h => numOp h (· - ·) (fpSub (mdRm h.md))) s

/-- `vmul` (R120). -/
def execVmul (vd va vb : VRegNo) (s : State) : Host.Outcome State Fault Refusal :=
  issue (vecBin numFmt true vd va vb fun h => numOp h (· * ·) fpMul) s

/-- `vmadd`: the fused a × b + c, c the old element of vd (R120). -/
def execVmadd (vd va vb : VRegNo) (s : State) : Host.Outcome State Fault Refusal :=
  issue (do
    let h ← vectorIssue numFmt { vs := [va.val, vb.val, vd.val], vw := [vd.val] }
    let ew := Fmt.ew h.fmt
    elementwise h vd.val true fun rnd i =>
      fmaOp h false (elemOf ew (h.vbitsOf va.val) i) (elemOf ew (h.vbitsOf vb.val) i) (elemOf ew (h.vbitsOf vd.val) i) rnd i) s

/-- `vnmadd`: the fused c − a × b (R120). -/
def execVnmadd (vd va vb : VRegNo) (s : State) : Host.Outcome State Fault Refusal :=
  issue (do
    let h ← vectorIssue numFmt { vs := [va.val, vb.val, vd.val], vw := [vd.val] }
    let ew := Fmt.ew h.fmt
    elementwise h vd.val true fun rnd i =>
      fmaOp h true (elemOf ew (h.vbitsOf va.val) i) (elemOf ew (h.vbitsOf vb.val) i) (elemOf ew (h.vbitsOf vd.val) i) rnd i) s

/-- `vdiv` (R120, R121). -/
def execVdiv (vd va vb : VRegNo) (s : State) : Host.Outcome State Fault Refusal :=
  issue (vecBin numFmt true vd va vb divOp) s

/-- `vsqrt` (R120). -/
def execVsqrt (vd va : VRegNo) (s : State) : Host.Outcome State Fault Refusal :=
  issue (vecUn Fmt.isFloat true vd va fun h => unaryOp h fpSqrt) s

/-- `vrsqrt` (R120). -/
def execVrsqrt (vd va : VRegNo) (s : State) : Host.Outcome State Fault Refusal :=
  issue (vecUn Fmt.isFloat true vd va fun h => unaryOp h fpRsqrt) s

/-- `vexp2` (R120). -/
def execVexp2 (vd va : VRegNo) (s : State) : Host.Outcome State Fault Refusal :=
  issue (vecUn Fmt.isFloat true vd va fun h => unaryOp h fpExp2) s

/-- `vlog2` (R120). -/
def execVlog2 (vd va : VRegNo) (s : State) : Host.Outcome State Fault Refusal :=
  issue (vecUn Fmt.isFloat true vd va fun h => unaryOp h fpLog2) s

/-- `vmax` (R120); nothing is rounded, so no generator steps (log 21). -/
def execVmax (vd va vb : VRegNo) (s : State) : Host.Outcome State Fault Refusal :=
  issue (vecBin numFmt false vd va vb fun h a b _ _ => (pickOp h true a b, false)) s

/-- `vmin` (R120). -/
def execVmin (vd va vb : VRegNo) (s : State) : Host.Outcome State Fault Refusal :=
  issue (vecBin numFmt false vd va vb fun h a b _ _ => (pickOp h false a b, false)) s

/-- `vabs` (R120). -/
def execVabs (vd va : VRegNo) (s : State) : Host.Outcome State Fault Refusal :=
  issue (vecUn numFmt false vd va fun h a _ _ => (absOp h a, false)) s

/-- `vneg` (R120). -/
def execVneg (vd va : VRegNo) (s : State) : Host.Outcome State Fault Refusal :=
  issue (vecUn numFmt false vd va fun h a _ _ => (negOp h a, false)) s

/-- `vand` (R123). -/
def execVand (vd va vb : VRegNo) (s : State) : Host.Outcome State Fault Refusal :=
  issue (vecBin anyFmt false vd va vb fun _ a b _ _ => (a &&& b, false)) s

/-- `vor` (R123). -/
def execVor (vd va vb : VRegNo) (s : State) : Host.Outcome State Fault Refusal :=
  issue (vecBin anyFmt false vd va vb fun _ a b _ _ => (a ||| b, false)) s

/-- `vxor` (R123). -/
def execVxor (vd va vb : VRegNo) (s : State) : Host.Outcome State Fault Refusal :=
  issue (vecBin anyFmt false vd va vb fun _ a b _ _ => (a ^^^ b, false)) s

/-- `vnot` (R123). -/
def execVnot (vd va : VRegNo) (s : State) : Host.Outcome State Fault Refusal :=
  issue (vecUn anyFmt false vd va fun h a _ _ => (2 ^ Fmt.ew h.fmt - 1 - a, false)) s

/-- `vshl`, by the unsigned element of vb (R123). -/
def execVshl (vd va vb : VRegNo) (s : State) : Host.Outcome State Fault Refusal :=
  issue (vecBin Fmt.isInt false vd va vb fun h a b _ _ => (shlOp (Fmt.ew h.fmt) a b, false)) s

/-- `vshr`, by the unsigned element of vb (R123). -/
def execVshr (vd va vb : VRegNo) (s : State) : Host.Outcome State Fault Refusal :=
  issue (vecBin Fmt.isInt false vd va vb fun h a b _ _ => (shrOp (Fmt.ew h.fmt) a b, false)) s

/-- `vsra`, by the unsigned element of vb (R123). -/
def execVsra (vd va vb : VRegNo) (s : State) : Host.Outcome State Fault Refusal :=
  issue (vecBin Fmt.isInt false vd va vb fun h a b _ _ => (sraOp (Fmt.ew h.fmt) a b, false)) s

/-- `vadd` with an immediate (R122). -/
def execVaddImm (vd va : VRegNo) (imm : BitVec 8) (s : State) : Host.Outcome State Fault Refusal :=
  issue (vecImm true vd va imm fun h => numOp h (· + ·) (fpAdd (mdRm h.md))) s

/-- `vsub` with an immediate (R122). -/
def execVsubImm (vd va : VRegNo) (imm : BitVec 8) (s : State) : Host.Outcome State Fault Refusal :=
  issue (vecImm true vd va imm fun h => numOp h (· - ·) (fpSub (mdRm h.md))) s

/-- `vmul` with an immediate (R122). -/
def execVmulImm (vd va : VRegNo) (imm : BitVec 8) (s : State) : Host.Outcome State Fault Refusal :=
  issue (vecImm true vd va imm fun h => numOp h (· * ·) fpMul) s

/-- `vmax` with an immediate (R122). -/
def execVmaxImm (vd va : VRegNo) (imm : BitVec 8) (s : State) : Host.Outcome State Fault Refusal :=
  issue (vecImm false vd va imm fun h a b _ _ => (pickOp h true a b, false)) s

/-- `vmin` with an immediate (R122). -/
def execVminImm (vd va : VRegNo) (imm : BitVec 8) (s : State) : Host.Outcome State Fault Refusal :=
  issue (vecImm false vd va imm fun h a b _ _ => (pickOp h false a b, false)) s

/-- `vand` with a sign-extended immediate (R123). -/
def execVandImm (vd va : VRegNo) (imm : BitVec 8) (s : State) : Host.Outcome State Fault Refusal :=
  issue (vecUn anyFmt false vd va fun h a _ _ => (a &&& bitsOfInt (Fmt.ew h.fmt) imm.toInt, false)) s

/-- `vor` with a sign-extended immediate (R123). -/
def execVorImm (vd va : VRegNo) (imm : BitVec 8) (s : State) : Host.Outcome State Fault Refusal :=
  issue (vecUn anyFmt false vd va fun h a _ _ => (a ||| bitsOfInt (Fmt.ew h.fmt) imm.toInt, false)) s

/-- `vxor` with a sign-extended immediate (R123). -/
def execVxorImm (vd va : VRegNo) (imm : BitVec 8) (s : State) : Host.Outcome State Fault Refusal :=
  issue (vecUn anyFmt false vd va fun h a _ _ => (a ^^^ bitsOfInt (Fmt.ew h.fmt) imm.toInt, false)) s

/-- `vshl` by an immediate count (R123). -/
def execVshlImm (vd va : VRegNo) (n : BitVec 8) (s : State) : Host.Outcome State Fault Refusal :=
  issue (vecUn Fmt.isInt false vd va fun h a _ _ => (shlOp (Fmt.ew h.fmt) a n.toNat, false)) s

/-- `vshr` by an immediate count (R123). -/
def execVshrImm (vd va : VRegNo) (n : BitVec 8) (s : State) : Host.Outcome State Fault Refusal :=
  issue (vecUn Fmt.isInt false vd va fun h a _ _ => (shrOp (Fmt.ew h.fmt) a n.toNat, false)) s

/-- `vsra` by an immediate count (R123). -/
def execVsraImm (vd va : VRegNo) (n : BitVec 8) (s : State) : Host.Outcome State Fault Refusal :=
  issue (vecUn Fmt.isInt false vd va fun h a _ _ => (sraOp (Fmt.ew h.fmt) a n.toNat, false)) s

/-- A comparison of two elements (R124); under ftz subnormal inputs compare as zeros. -/
def cmpOp (h : Hart) (cc : Cc) (a b : Nat) : Bool :=
  let f := h.fmt
  if Fmt.isInt f then
    let x := intVal f a
    let y := intVal f b
    match cc with
    | .eq => decide (x = y)
    | .ne => decide (x ≠ y)
    | .lt => decide (x < y)
    | .le => decide (x ≤ y)
    | .gt => decide (y < x)
    | .ge => decide (y ≤ x)
    | .uo => false
  else
    let x := h.input f a
    let y := h.input f b
    let u := isNan f a || isNan f b
    match cc with
    | .eq => fpEqual x y
    | .ne => !fpEqual x y
    | .lt => fpLess x y
    | .le => fpLess x y || fpEqual x y
    | .gt => fpLess y x
    | .ge => fpLess y x || fpEqual x y
    | .uo => u

/-- A predicate with bits replaced at some elements. -/
def setBits (p : Nat) (idx : List Nat) (f : Nat → Bool) : Nat := idx.foldl (fun p i => putBits p i 1 (f i).toNat) p

/-- A predicate written by a form, unless `vl` = 0 (R115). -/
def writeP (h : Hart) (pd : Nat) (idx : List Nat) (f : Nat → Bool) : M Unit := do
  if h.vl = 0 then retire
  else
    setHart (h.setP pd (setBits (h.pbits pd) idx f))
    retire

/-- `vcmp` (R124). -/
def execVcmp (cc : Cc) (pd : PRegNo) (va vb : VRegNo) (s : State) : Host.Outcome State Fault Refusal :=
  issue (do
    let h ← vectorIssue numFmt { vs := [va.val, vb.val], pw := [pd.val] }
    let ew := Fmt.ew h.fmt
    writeP h pd.val h.active fun i => cmpOp h cc (elemOf ew (h.vbitsOf va.val) i) (elemOf ew (h.vbitsOf vb.val) i)) s

/-- `vcmp` with an immediate, formed as R122 gives (R124). -/
def execVcmpImm (cc : Cc) (pd : PRegNo) (va : VRegNo) (imm : BitVec 8) (s : State) : Host.Outcome State Fault Refusal :=
  issue (do
    let _ ← vectorIssue numFmt { vs := [va.val], pw := [pd.val] }
    let x ← formImm imm
    let h ← getHart
    writeP h pd.val h.active fun i => cmpOp h cc (elemOf (Fmt.ew h.fmt) (h.vbitsOf va.val) i) x) s

/-- A vector written by a form at some elements with plain bit patterns, unless `vl` = 0 (R115). -/
def writeV (h : Hart) (vd : Nat) (idx : List Nat) (f : Nat → Nat) : M Unit := do
  if h.vl = 0 then retire
  else
    let l := runLanes (Fmt.ew h.fmt) false (fun _ i => (f i, false)) idx { bits := h.vbitsOf vd, gen := h.gen, nan := none }
    setHart (h.setV vd l.bits h.fmt)
    retire

/-- `vsel`: every body element is written (R125). -/
def execVsel (vd va vb : VRegNo) (s : State) : Host.Outcome State Fault Refusal :=
  issue (do
    let h ← vectorIssue anyFmt { vs := [va.val, vb.val], vw := [vd.val] }
    let ew := Fmt.ew h.fmt
    writeV h vd.val (List.range h.vl.toNat) fun i => elemOf ew (h.vbitsOf (if h.activeAt i then va.val else vb.val)) i) s

/-- `vmv`: any tag, which goes with the elements (R126). -/
def execVmv (vd va : VRegNo) (s : State) : Host.Outcome State Fault Refusal :=
  issue (do
    onlyX
    let h ← getHart
    let r := ({ vs := [va.val], vw := [vd.val] } : Named).guarded h
    checkNamed r
    swapIn r
    let h ← getHart
    if h.vl = 0 then retire
    else
      let ew := Fmt.ew h.fmt
      let l := runLanes ew false (fun _ i => (elemOf ew (h.vbitsOf va.val) i, false)) h.active { bits := h.vbitsOf vd.val, gen := h.gen, nan := none }
      setHart { h with v := vput h.v vd.val { bits := l.bits, tag := h.tagOf va.val } }
      retire) s

/-- `vsplat` of a scalar's low bits (R126). -/
def execVsplat (vd : VRegNo) (ra : SReg) (s : State) : Host.Outcome State Fault Refusal :=
  issue (do
    let h ← vectorIssue anyFmt { vw := [vd.val] }
    let a ← rS ra
    writeV h vd.val h.active fun _ => a.toNat % 2 ^ Fmt.ew h.fmt) s

/-- `vsplat` of an immediate (R126): in a floating format each active element is a rounding. -/
def execVsplatImm (vd : VRegNo) (imm : BitVec 8) (s : State) : Host.Outcome State Fault Refusal :=
  issue (do
    let h ← vectorIssue anyFmt { vw := [vd.val] }
    let f := h.fmt
    if Fmt.isFloat f then elementwise h vd.val true fun rnd i => (h.fpCtx f).round rnd i (exactInt imm.toInt)
    else elementwise h vd.val false fun _ _ => (if f = .b4 then imm.toNat % 16 else narrow f (mdSat h.md) imm.toInt, false)) s

/-- `vid`: each active element's index (R126). -/
def execVid (vd : VRegNo) (s : State) : Host.Outcome State Fault Refusal :=
  issue (do
    let h ← vectorIssue numFmt { vw := [vd.val] }
    let f := h.fmt
    elementwise h vd.val true fun rnd i =>
      if Fmt.isInt f then (narrow f (mdSat h.md) i, false) else (h.fpCtx f).round rnd i (exactInt i)) s

/-- An element as a scalar: sign-extended for the signed integer formats (R127). -/
def elemScalar (f : Fmt) (x : Nat) : Word64 := if Fmt.isSigned f then BitVec.ofInt 64 (signedOf (Fmt.ew f) x) else BitVec.ofNat 64 x

/-- The issue checks of a form that no guard governs. -/
def plainIssue (admits : Fmt → Bool) (r : Named) : M Hart := do
  onlyX
  checkNamed r
  checkTags admits r.vs
  swapIn r
  getHart

/-- `vext` (R127). -/
def execVext (rd : SReg) (va : VRegNo) (rb : SReg) (s : State) : Host.Outcome State Fault Refusal :=
  issue (do
    let h ← plainIssue anyFmt { vs := [va.val] }
    let j ← rS rb
    wS rd (if j.toNat < h.vlmax then elemScalar h.fmt (elemOf (Fmt.ew h.fmt) (h.vbitsOf va.val) j.toNat) else 0)
    retire) s

/-- `vins` (R127). -/
def execVins (vd : VRegNo) (ra rb : SReg) (s : State) : Host.Outcome State Fault Refusal :=
  issue (do
    let h ← plainIssue anyFmt { vs := [vd.val], vw := [vd.val] }
    let a ← rS ra
    let j ← rS rb
    if j.toNat < h.vlmax then
      setHart (h.setV vd.val (setElem (Fmt.ew h.fmt) (h.vbitsOf vd.val) j.toNat a.toNat) h.fmt)
    else pure ()
    retire) s

/-- `vtag` (R128). -/
def execVtag (vd : VRegNo) (fmt : Fmt) (s : State) : Host.Outcome State Fault Refusal :=
  issue (do
    let h ← plainIssue anyFmt { vw := [vd.val] }
    setHart (h.setV vd.val (h.vbitsOf vd.val) fmt)
    retire) s

/-- A conversion between formats rounds, so that under SR an active element takes a step (R80, R83). -/
def convRounds (src dst : Fmt) : Bool :=
  if dst = .b4 then true
  else if Fmt.isInt src then !Fmt.isInt dst
  else if Fmt.isInt dst then true
  else decide (Fmt.ew dst ≤ Fmt.ew (if src = .b4 then .fp32 else src)) && decide (dst ≠ (if src = .b4 then .fp32 else src))

/-- An element's value before a conversion (R76, R83, R84). -/
def convValue (h : Hart) (src : Fmt) (k0 x i : Nat) : Fp :=
  if src = .b4 then b4Value (bitsOf k0 (8 * (i / vtBl h.vt)) 8) x
  else if Fmt.isInt src then (let v := intVal src x; .fin (decide (v < 0)) v.natAbs 0)
  else h.input src x

/-- An element converted to a format other than `b4` (R83). -/
def convert (h : Hart) (src dst : Fmt) (k0 x rnd i : Nat) : Nat :=
  if Fmt.isInt src && Fmt.isInt dst then narrow dst (mdSat h.md) (intVal src x)
  else
    let v := convValue h src k0 x i
    if Fmt.isInt dst then bitsOfInt (Fmt.ew dst) (fpToInt (mdRm h.md) rnd (Fmt.intMin dst) (Fmt.intMax dst) v)
    else match v with
      | .nan neg frac => nanBits dst neg frac (convRounds src dst)
      | v => ((h.fpCtx dst).round rnd i v.exact).1

/-- How many registers a conversion's destination takes (R129). -/
def convGroup (src dst : Fmt) : Nat := max 1 (Fmt.ew dst / Fmt.ew src)

/-- The bit strings of a group as one, the first register lowest. -/
def Hart.groupBits (h : Hart) (vd n : Nat) : Nat := ((List.range n).map fun r => h.vbitsOf (vd + r) * 2 ^ (r * h.vbits)).sum

/-- A hart with a group's registers written from one bit string, and tagged. -/
def Hart.setGroup (h : Hart) (vd n bits : Nat) (tag : Fmt) : Hart :=
  (List.range n).foldl (fun h' r => h'.setV (vd + r) (bitsOf bits (r * h.vbits) h.vbits) tag) h

/-- The pass of a conversion into `b4`, block by block: each block with active elements gets a scale byte, and one with a NaN
among them becomes a block NaN (R77, R130). -/
def convToB4 (h : Hart) (src : Fmt) (elem : Nat → Nat) (k0 : Nat) : Lanes × Nat :=
  let bl := vtBl h.vt
  let val (i : Nat) : Fp := convValue h src k0 (elem i) i
  (List.range ((h.vl.toNat + bl - 1) / bl)).foldl (fun (l, k) b =>
    let idx := h.active.filter fun i => decide (i / bl = b)
    match idx with
    | [] => (l, k)
    | _ =>
      let old := bitsOf k0 (8 * b) 8
      let bad := idx.any fun i => match val i with
        | .nan _ _ => true
        | _ => false
      let byte := if bad then scaleType old * 64 + 0x3F else chooseScale (scaleType old) (idx.map val)
      (runLanes 4 (h.isSr && !bad) (fun rnd i => (if bad then 0 else b4Encode (mdRm h.md) rnd byte (val i), false)) idx l,
        putBits k (8 * b) 8 byte)) ({ bits := 0, gen := h.gen, nan := none }, k0)

/-- The elements that `elem` gives in format `src`, converted into a group of registers of format `dst` (R83, R129, R130): the active
ones are written, and the generators step as the conversion rounds. -/
def convertInto (h : Hart) (src dst : Fmt) (elem : Nat → Nat) (vd n : Nat) : Hart :=
  let k0 := h.k.getD 0 0
  if dst = .b4 then
    let r := convToB4 h src elem k0
    -- codes of elements that are not active are kept
    let bits := h.active.foldl (fun b i => setElem 4 b i (elemOf 4 r.1.bits i)) (h.vbitsOf vd)
    { (h.setV vd bits .b4) with gen := r.1.gen, k := vput h.k 0 r.2 }
  else
    let l := runLanes (Fmt.ew dst) (convRounds src dst && h.isSr) (fun rnd i => (convert h src dst k0 (elem i) rnd i, false)) h.active
      { bits := h.groupBits vd n, gen := h.gen, nan := none }
    { (h.setGroup vd n l.bits dst) with gen := l.gen }

/-- `vcvt` (R129, R130). A group past `v63` is illegal before any other check. -/
def execVcvt (vd va : VRegNo) (fmt : Fmt) (s : State) : Host.Outcome State Fault Refusal :=
  issue (do
    let h ← getHart
    let n := convGroup h.fmt fmt
    if h.live ∧ 64 < vd.val + n then trapWord 0x01
    else
      onlyX
      let r := ({ vs := [va.val], vw := groupOf vd.val n } : Named).guarded h
      checkNamed r
      if 1 < n ∧ vd.val ≤ va.val ∧ va.val < vd.val + n then trapWord 0x07
      else
        checkTags anyFmt [va.val]
        swapIn r
        let h ← getHart
        if h.vl = 0 then retire
        else
          setHart (convertInto h h.fmt fmt (fun i => elemOf (Fmt.ew h.fmt) (h.vbitsOf va.val) i) vd.val n)
          retire) s

/-- One level of the tree of sums, from node i (R90). -/
def sumLevel (c : FpCtx) (draws : Bool) : Nat → List Nat → Lanes → List Nat × Lanes
  | i, a :: b :: rest, l =>
    let d := if draws then drawGen l.gen i else (l.gen, 0)
    let x (v : Nat) : Fp := Fp.of .fp32 v
    let r := c.round d.2 0 (fpAdd c.rm (x a) (x b))
    let t := sumLevel c draws (i + 1) rest { l with gen := d.1, nan := if r.2 then some 0 else l.nan }
    (r.1 :: t.1, t.2)
  | _, [a], l => ([a], l)
  | _, [], l => ([], l)

/-- The tree of sums over fp32 patterns, level by level (R90). -/
def sumTree (c : FpCtx) (draws : Bool) : Nat → List Nat → Lanes → Nat × Lanes
  | 0, xs, l => (xs.headD 0, l)
  | n + 1, xs, l => match xs with
    | [x] => (x, l)
    | xs =>
      let r := sumLevel c draws 0 xs l
      sumTree c draws n r.1 r.2

/-- A floating element as `fp32`, exactly (R83, R90). -/
def widen (f : Fmt) (x : Nat) : Nat :=
  if f = .fp32 then x
  else match Fp.of f x with
    | .nan neg frac => nanBits .fp32 neg frac false
    | v => ((engineCtx 0).round 0 0 v.exact).1

/-- The least power of two that is at least n. -/
def ceilPow2 (n : Nat) : Nat := if n ≤ 1 then 1 else 2 ^ (Nat.log2 (n - 1) + 1)

/-- The sum of the active elements in the fixed tree, in the current format (R90). In `fp32` with one element the tree has no node and R90 no final
rounding: the element is the result as it stands, also a NaN with its quiet bit clear (DEDUCED: log 56). -/
def redSum (h : Hart) (va : Nat) : Lanes :=
  let f := h.fmt
  let l0 : Lanes := { bits := 0, gen := h.gen, nan := none }
  let elem (i : Nat) := elemOf (Fmt.ew f) (h.vbitsOf va) i
  if Fmt.isInt f then { l0 with bits := narrow f (mdSat h.md) ((h.active.map fun i => intVal f (elem i)).sum) }
  else
    let leaf (i : Nat) : Nat := if decide (i < h.vl.toNat) && h.activeAt i then widen f (flush f (vtFtz h.vt) (elem i)) else 0
    let r := sumTree (h.fpCtx .fp32) h.isSr 20 ((List.range (ceilPow2 h.vl.toNat)).map leaf) l0
    if f = .fp32 then { r.2 with bits := r.1 }
    else
      let d := if h.isSr then drawGen r.2.gen 0 else (r.2.gen, 0)
      { r.2 with bits := ((h.fpCtx f).round d.2 0 (Fp.of .fp32 r.1).exact).1, gen := d.1 }

/-- `vredsum` (R90, R131). -/
def execVredsum (vd va : VRegNo) (s : State) : Host.Outcome State Fault Refusal :=
  issue (do
    let h ← vectorIssue numFmt { vs := [va.val], vw := [vd.val] }
    if h.vl = 0 then retire
    else
      let l := redSum h va.val
      finishV h vd.val h.fmt { l with bits := setElem (Fmt.ew h.fmt) (h.vbitsOf vd.val) 0 l.bits }
      retire) s

/-- The element that `vredmax`, `vredmin` or `vargmax` chooses, with its number: the lowest-numbered NaN, else the lowest-numbered
of the extreme elements; none without an active element (R91). -/
def extreme (h : Hart) (greater : Bool) (va : Nat) : Option (Nat × Nat) :=
  let f := h.fmt
  let xs := h.active.map fun i => (i, elemOf (Fmt.ew f) (h.vbitsOf va) i)
  match xs.find? fun x => !Fmt.isInt f && isNan f x.2 with
  | some x => some x
  | none => xs.foldl (fun acc x => match acc with
    | none => some x
    | some y => if (if greater then belowOp h y.2 x.2 else belowOp h x.2 y.2) then some x else some y) none

/-- `vredmax` and `vredmin`: without an active element only the tag is set (R131). -/
def vredPick (greater : Bool) (vd va : VRegNo) : M Unit := do
  let h ← vectorIssue numFmt { vs := [va.val], vw := [vd.val] }
  let f := h.fmt
  if h.vl = 0 then retire
  else
    match extreme h greater va.val with
    | none => setHart (h.setV vd.val (h.vbitsOf vd.val) f)
    | some x =>
      let b := if Fmt.isInt f then x.2 else if isNan f x.2 then quieted f x.2 else flush f (vtFtz h.vt) x.2
      setHart (h.setV vd.val (setElem (Fmt.ew f) (h.vbitsOf vd.val) 0 b) f)
    retire

/-- `vredmax` (R91, R131). -/
def execVredmax (vd va : VRegNo) (s : State) : Host.Outcome State Fault Refusal := issue (vredPick true vd va) s

/-- `vredmin` (R91, R131). -/
def execVredmin (vd va : VRegNo) (s : State) : Host.Outcome State Fault Refusal := issue (vredPick false vd va) s

/-- `vargmax`: all ones without an active element, and at `vl` = 0 (R91, R115, R131). -/
def execVargmax (rd : SReg) (va : VRegNo) (s : State) : Host.Outcome State Fault Refusal :=
  issue (do
    let h ← vectorIssue numFmt { vs := [va.val] }
    wS rd (match extreme h true va.val with
      | none => BitVec.allOnes 64
      | some x => BitVec.ofNat 64 x.1)
    retire) s

/-- A slide up by n (R132). -/
def slideUp (vd va : VRegNo) (n : Nat) (h : Hart) : M Unit :=
  writeV h vd.val (h.active.filter fun i => decide (n ≤ i)) fun i => elemOf (Fmt.ew h.fmt) (h.vbitsOf va.val) (i - n)

/-- A slide down by n, zeros coming in past VLMAX (R132). -/
def slideDown (vd va : VRegNo) (n : Nat) (h : Hart) : M Unit :=
  writeV h vd.val h.active fun i => if i + n < h.vlmax then elemOf (Fmt.ew h.fmt) (h.vbitsOf va.val) (i + n) else 0

/-- `vslideup` by a scalar (R132). -/
def execVslideup (vd va : VRegNo) (rb : SReg) (s : State) : Host.Outcome State Fault Refusal :=
  issue (do
    let h ← vectorIssue anyFmt { vs := [va.val], vw := [vd.val] }
    let n ← rS rb
    slideUp vd va n.toNat h) s

/-- `vslidedn` by a scalar (R132). -/
def execVslidedn (vd va : VRegNo) (rb : SReg) (s : State) : Host.Outcome State Fault Refusal :=
  issue (do
    let h ← vectorIssue anyFmt { vs := [va.val], vw := [vd.val] }
    let n ← rS rb
    slideDown vd va n.toNat h) s

/-- `vslideup` by an immediate (R132). -/
def execVslideupImm (vd va : VRegNo) (n : BitVec 8) (s : State) : Host.Outcome State Fault Refusal :=
  issue (do
    let h ← vectorIssue anyFmt { vs := [va.val], vw := [vd.val] }
    slideUp vd va n.toNat h) s

/-- `vslidedn` by an immediate (R132). -/
def execVslidednImm (vd va : VRegNo) (n : BitVec 8) (s : State) : Host.Outcome State Fault Refusal :=
  issue (do
    let h ← vectorIssue anyFmt { vs := [va.val], vw := [vd.val] }
    slideDown vd va n.toNat h) s

/-- `vperm`: vb holds indices of any integer format of the same width (R113, R133). -/
def execVperm (vd va vb : VRegNo) (s : State) : Host.Outcome State Fault Refusal :=
  issue (do
    onlyX
    let h ← getHart
    let r := ({ vs := [va.val, vb.val], vw := [vd.val] } : Named).guarded h
    checkNamed r
    checkTags numFmt [va.val]
    if (h.tagOf vb.val).any fun t => Fmt.isInt t && decide (Fmt.ew t = Fmt.ew h.fmt) then pure () else trapWord 0x06
    swapIn r
    let h ← getHart
    let ew := Fmt.ew h.fmt
    writeV h vd.val h.active fun i =>
      let j := elemOf ew (h.vbitsOf vb.val) i
      if j < h.vlmax then elemOf ew (h.vbitsOf va.val) j else 0) s

/-- The elements that `vcompress` and `vexpand` select (R134). -/
def Hart.selected (h : Hart) (pb : PRegNo) : List Nat := h.active.filter fun i => (h.pbits pb.val).testBit i

/-- `vcompress` (R134). -/
def execVcompress (vd va : VRegNo) (pb : PRegNo) (s : State) : Host.Outcome State Fault Refusal :=
  issue (do
    let h ← vectorIssue anyFmt { vs := [va.val], vw := [vd.val], ps := [pb.val] }
    let sel := h.selected pb
    writeV h vd.val (List.range sel.length) fun k => elemOf (Fmt.ew h.fmt) (h.vbitsOf va.val) (sel.getD k 0)) s

/-- `vexpand` (R134). -/
def execVexpand (vd va : VRegNo) (pb : PRegNo) (s : State) : Host.Outcome State Fault Refusal :=
  issue (do
    let h ← vectorIssue anyFmt { vs := [va.val], vw := [vd.val], ps := [pb.val] }
    let sel := h.selected pb
    writeV h vd.val sel fun i => elemOf (Fmt.ew h.fmt) (h.vbitsOf va.val) (sel.idxOf i)) s

/-- `vconf`: every body bit is written (R135). -/
def execVconf (pd : PRegNo) (va : VRegNo) (s : State) : Host.Outcome State Fault Refusal :=
  issue (do
    let h ← vectorIssue Fmt.isInt { vs := [va.val], pw := [pd.val] }
    let e (i : Nat) := elemOf (Fmt.ew h.fmt) (h.vbitsOf va.val) i
    writeP h pd.val (List.range h.vl.toNat) fun i => h.activeAt i && (List.range i).any fun j => h.activeAt j && e j == e i) s

/-- A predicate form: no guard, no tags (R136). -/
def predIssue (ps pw : List PRegNo) : M Hart := plainIssue anyFmt { ps := ps.map Fin.val, pw := pw.map Fin.val }

/-- A predicate form that writes the body bits of pd (R136). -/
def predBody (ps : List PRegNo) (pd : PRegNo) (f : Hart → Nat → Bool) : M Unit := do
  let h ← predIssue ps [pd]
  writeP h pd.val (List.range h.vl.toNat) (f h)

/-- The first set body bit of a predicate (R136). -/
def Hart.firstSet (h : Hart) (pa : PRegNo) : Option Nat := (List.range h.vl.toNat).find? fun i => (h.pbits pa.val).testBit i

/-- `pand` (R136). -/
def execPand (pd pa pb : PRegNo) (s : State) : Host.Outcome State Fault Refusal :=
  issue (predBody [pa, pb] pd fun h i => (h.pbits pa.val).testBit i && (h.pbits pb.val).testBit i) s

/-- `por` (R136). -/
def execPor (pd pa pb : PRegNo) (s : State) : Host.Outcome State Fault Refusal :=
  issue (predBody [pa, pb] pd fun h i => (h.pbits pa.val).testBit i || (h.pbits pb.val).testBit i) s

/-- `pxor` (R136). -/
def execPxor (pd pa pb : PRegNo) (s : State) : Host.Outcome State Fault Refusal :=
  issue (predBody [pa, pb] pd fun h i => xor ((h.pbits pa.val).testBit i) ((h.pbits pb.val).testBit i)) s

/-- `pnot` (R136). -/
def execPnot (pd pa : PRegNo) (s : State) : Host.Outcome State Fault Refusal :=
  issue (predBody [pa] pd fun h i => !(h.pbits pa.val).testBit i) s

/-- `psbf`: the body bits before the first set one (R136). -/
def execPsbf (pd pa : PRegNo) (s : State) : Host.Outcome State Fault Refusal :=
  issue (predBody [pa] pd fun h i => decide (i < (h.firstSet pa).getD h.vl.toNat)) s

/-- `psif`: the body bits up to and including the first set one (R136). -/
def execPsif (pd pa : PRegNo) (s : State) : Host.Outcome State Fault Refusal :=
  issue (predBody [pa] pd fun h i => decide (i ≤ (h.firstSet pa).getD h.vl.toNat)) s

/-- `pfirst`: all ones without a set body bit, and at `vl` = 0 (R115, R136). -/
def execPfirst (rd : SReg) (pa : PRegNo) (s : State) : Host.Outcome State Fault Refusal :=
  issue (do
    let h ← predIssue [pa] []
    wS rd ((h.firstSet pa).elim (BitVec.allOnes 64) (BitVec.ofNat 64 ·))
    retire) s

/-- `pcnt` (R136). -/
def execPcnt (rd : SReg) (pa : PRegNo) (s : State) : Host.Outcome State Fault Refusal :=
  issue (do
    let h ← predIssue [pa] []
    wS rd (BitVec.ofNat 64 (popcountN (h.pbits pa.val) h.vl.toNat))
    retire) s

/-- `pset`: every bit below VLMAX is written, at every `vl` (R136). -/
def execPset (pd : PRegNo) (ra : SReg) (s : State) : Host.Outcome State Fault Refusal :=
  issue (do
    let h ← predIssue [] [pd]
    let a ← rS ra
    setHart (h.setP pd.val (2 ^ min a.toNat h.vlmax - 1))
    retire) s

/-- How many scale bytes the body takes (R137). -/
def Hart.scaleBytes (h : Hart) : Nat := (h.vl.toNat + vtBl h.vt - 1) / vtBl h.vt

/-- `kmv kd, va` (R137). -/
def execKmvToScale (kd : KRegNo) (va : VRegNo) (s : State) : Host.Outcome State Fault Refusal :=
  issue (do
    onlyX
    let r : Named := { vs := [va.val] }
    checkNamed r
    swapIn r
    let h ← getHart
    let n := 8 * h.scaleBytes
    setHart { h with k := vput h.k kd.val (putBits (h.k.getD kd.val 0) 0 n (bitsOf (h.vbitsOf va.val) 0 n)) }
    retire) s

/-- `kmv vd, ka`: the tag becomes `n8` at every `vl` (R137). -/
def execKmvToVector (vd : VRegNo) (ka : KRegNo) (s : State) : Host.Outcome State Fault Refusal :=
  issue (do
    let h ← plainIssue anyFmt { vw := [vd.val] }
    let n := 8 * h.scaleBytes
    setHart (h.setV vd.val (putBits (h.vbitsOf vd.val) 0 n (bitsOf (h.k.getD ka.val 0) 0 n)) .n8)
    retire) s

end Sys2Proof.Machine
end

