-- ==== Sys2Proof/Machine/Trees.lean ====
section
/-! DEFINITION. Draft trees: the register, what is derived from its parents, and the forms of op 0x6A (R333 to R345). -/

namespace Sys2Proof.Machine

/-- How many nodes a register holds (R333). -/
def Tree.count (t : Tree) : Nat := t.nodes.length

/-- The parent of node i (R333). -/
def Tree.parent (t : Tree) (i : Nat) : Nat := (t.nodes[i]?).elim 0 fun n => n.parent.toNat

/-- The depth of node i, for a register of at most n nodes on its path (R334). -/
def Tree.depthIn (t : Tree) : Nat → Nat → Nat
  | 0, _ => 0
  | n + 1, i => if i = 0 then 0 else Tree.depthIn t n (t.parent i) + 1

/-- The depth of node i (R334). -/
def Tree.depth (t : Tree) (i : Nat) : Nat := t.depthIn 256 i

/-- Node j is node i or an ancestor of it, for a path of at most n nodes (R334). -/
def Tree.ancIn (t : Tree) : Nat → Nat → Nat → Bool
  | 0, i, j => i == j
  | n + 1, i, j => i == j || (i != 0 && Tree.ancIn t n (t.parent i) j)

/-- Bit j of anc(i) (R334). -/
def Tree.anc (t : Tree) (i j : Nat) : Bool := t.ancIn 256 i j

/-- pos(i) (R334). -/
def Tree.pos (t : Tree) (i : Nat) : Nat := t.base.toNat + t.depth i

/-- A draft-tree register of a hart. -/
def Hart.tree (h : Hart) (d : DRegNo) : Tree := h.d[d]

/-- A hart with a draft-tree register replaced. -/
def Hart.setTree (h : Hart) (d : DRegNo) (t : Tree) : Hart := { h with d := h.d.set d t }

/-- Raise tree overflow (R336). -/
def treeError {α : Type} (sub : BitVec 5) : M α := trapWord 0x13 sub

/-- `dtinit` (R337). -/
def execDtinit (dd : DRegNo) (ra : SReg) (s : State) : Host.Outcome State Fault Refusal :=
  issue (do
    onlyX
    let a ← rS ra
    modHart fun h => h.setTree dd { base := a.setWidth 32, nodes := [{ parent := 0, token := a.extractLsb' 32 32, score := 0, flags := 0 }] }
    retire) s

/-- Every parent names a node held before it, or appended earlier; j nodes are held (R338). -/
def parentsOk : Nat → List Nat → Bool
  | _, [] => true
  | j, p :: rest => decide (p < j) && parentsOk (j + 1) rest

/-- A format of a register of tokens or parents (R338). -/
def intTag (t : Option Fmt) : Bool := decide (t = some .i32) || decide (t = some .n32)

/-- `dtadd` (R338). -/
def execDtadd (dd : DRegNo) (va vb : VRegNo) (s : State) : Host.Outcome State Fault Refusal :=
  issue (do
    if vb.val = 63 then trapWord 0x01 else pure ()
    onlyX
    let h ← getHart
    let r := ({ vs := [va.val, vb.val, vb.val + 1] } : Named).guarded h
    checkNamed r
    if va.val = vb.val ∨ va.val = vb.val + 1 then trapWord 0x07 else pure ()
    if (h.fmt = .i32 ∨ h.fmt = .n32 ∨ h.fmt = .fp32) ∧ intTag (h.tagOf va.val) ∧ intTag (h.tagOf vb.val) ∧ h.tagOf (vb.val + 1) = some .fp32 then pure ()
    else trapWord 0x06
    swapIn r
    let h ← getHart
    let t := h.tree dd
    let el (r i : Nat) := elemOf 32 (h.vbitsOf r) i
    if t.count = 0 then treeError 8
    else if 256 < t.count + h.active.length then treeError 16
    else if parentsOk t.count (h.active.map (el va.val)) = false then treeError 7
    else
      let new := h.active.map fun i => ({ parent := BitVec.ofNat 8 (el va.val i), token := BitVec.ofNat 32 (el vb.val i)
                                          score := BitVec.ofNat 32 (el (vb.val + 1) i), flags := 0 } : TreeNode)
      setHart (h.setTree dd { t with nodes := t.nodes ++ new })
      retire) s

/-- Element i is visible to the query of node r (R339). -/
def Tree.visible (t : Tree) (r i : Nat) : Bool := decide (r < t.count) && decide (i < t.count) && t.anc r i

/-- `dtmask` to a predicate (R339). -/
def execDtmaskPred (pd : PRegNo) (da : DRegNo) (rb : SReg) (s : State) : Host.Outcome State Fault Refusal :=
  issue (do
    let h ← plainIssue anyFmt { pw := [pd.val] }
    let r ← rS rb
    writeP h pd.val (List.range h.vl.toNat) fun i => (h.tree da).visible r.toNat i) s

/-- The formats of a vector mask (R339). -/
def maskFmt : Fmt → Bool := fun f => decide (f ≠ .e4m3) && decide (f ≠ .b4)

/-- `dtmask` to a vector (R339). -/
def execDtmaskVec (vd : VRegNo) (da : DRegNo) (rb : SReg) (s : State) : Host.Outcome State Fault Refusal :=
  issue (do
    let h ← vectorIssue maskFmt { vw := [vd.val] }
    let r ← rS rb
    writeV h vd.val h.active fun i =>
      let v := (h.tree da).visible r.toNat i
      if Fmt.isInt h.fmt then v.toNat else if v then 0 else infBits h.fmt true) s

/-- The formats of positions (R340). -/
def posFmt : Fmt → Bool
  | .i32 | .n32 | .i64 | .n64 => true
  | _ => false

/-- `dtpos` (R340). -/
def execDtpos (vd : VRegNo) (da : DRegNo) (s : State) : Host.Outcome State Fault Refusal :=
  issue (do
    let h ← vectorIssue posFmt { vw := [vd.val] }
    let t := h.tree da
    writeV h vd.val h.active fun i => if i < t.count then narrow h.fmt (mdSat h.md) (t.pos i) else 2 ^ Fmt.ew h.fmt - 1) s

/-- Score x is greater than score y; a NaN is below every other (R341). -/
def scoreAbove (x y : BitVec 32) : Bool :=
  if isNan .fp32 x.toNat then false
  else isNan .fp32 y.toNat || fpLess (Fp.of .fp32 y.toNat) (Fp.of .fp32 x.toNat)

/-- Which nodes the target accepts, node by node: `choice` gives the target's token after a node, where it is known (R341). -/
def Tree.accepted (t : Tree) (choice : Nat → Option Nat) : List Bool :=
  (List.range t.count).foldl (fun ok i => ok ++ [if i = 0 then true else
    ok.getD (t.parent i) false && decide (choice (t.parent i) = (t.nodes[i]?).map fun n => n.token.toNat)]) []

/-- The score of node i. -/
def Tree.score (t : Tree) (i : Nat) : BitVec 32 := (t.nodes[i]?).elim 0 TreeNode.score

/-- The end of the accepted path: the accepted node of greatest depth, then greatest score, then lowest number (R341). -/
def Tree.endNode (t : Tree) (ok : List Bool) : Nat :=
  ((List.range t.count).filter fun i => ok.getD i false).foldl (fun e i =>
    if t.depth e < t.depth i ∨ (t.depth e = t.depth i ∧ scoreAbove (t.score i) (t.score e)) then i else e) 0

/-- A node's flags with acc set or clear, and nothing else (R333). -/
def accFlags (acc : Bool) : BitVec 8 := if acc then 1 else 0

/-- `dtacc` (R341). -/
def execDtacc (rd : SReg) (da : DRegNo) (va : VRegNo) (s : State) : Host.Outcome State Fault Refusal :=
  issue (do
    let h ← vectorIssue (fun f => decide (f = .i32) || decide (f = .n32)) { vs := [va.val] }
    let t := h.tree da
    if t.count = 0 then
      wS rd 0xFFFFFFFF00000000
      retire
    else
      let choice (p : Nat) : Option Nat := if p < h.vl.toNat ∧ h.activeAt p then some (elemOf 32 (h.vbitsOf va.val) p) else none
      let e := t.endNode (t.accepted choice)
      modHart fun h => h.setTree da { t with nodes := t.nodes.zipIdx.map fun (n, j) => { n with flags := accFlags (t.anc e j) } }
      wS rd (BitVec.ofNat 64 ((choice e).getD 0xFFFFFFFF * 2 ^ 32 + e * 2 ^ 16 + (t.depth e + 1)))
      retire) s

/-- The register cut down to the path that ends at node e (R342). -/
def Tree.pruned (t : Tree) (e : Nat) : Tree :=
  { t with nodes := (t.nodes.zipIdx.filter fun n => t.anc e n.2).zipIdx.map fun (n, k) =>
      { n.1 with parent := BitVec.ofNat 8 (k - 1), flags := 1 } }

/-- `dtprune` (R342). -/
def execDtprune (dd : DRegNo) (ra : SReg) (s : State) : Host.Outcome State Fault Refusal :=
  issue (do
    onlyX
    let a ← rS ra
    let h ← getHart
    let t := h.tree dd
    let e := bitsOf a.toNat 16 8
    if t.count ≤ e then treeError 8
    else
      setHart (h.setTree dd (t.pruned e))
      retire) s

/-- The 4 KiB image of a register (R343). -/
def Tree.image (t : Tree) : Nat :=
  t.nodes.zipIdx.foldl (fun v (n, i) => v + n.token.toNat * 2 ^ (32 * i) + n.score.toNat * 2 ^ (8 * 0x400 + 32 * i) +
      n.parent.toNat * 2 ^ (8 * 0x800 + 8 * i) + n.flags.toNat * 2 ^ (8 * 0x900 + 8 * i)) 0 +
    t.count * 2 ^ (8 * 0xA00) + t.base.toNat * 2 ^ (8 * 0xA04)

/-- The register an image holds; none where the image is invalid (R343). -/
def Tree.ofImage (v : Nat) : Option Tree :=
  let count := bitsOf v (8 * 0xA00) 16
  let node (i : Nat) : TreeNode :=
    { parent := BitVec.ofNat 8 (bitsOf v (8 * 0x800 + 8 * i) 8), token := BitVec.ofNat 32 (bitsOf v (32 * i) 32)
      score := BitVec.ofNat 32 (bitsOf v (8 * 0x400 + 32 * i) 32), flags := BitVec.ofNat 8 (bitsOf v (8 * 0x900 + 8 * i) 8) }
  let t : Tree := { base := BitVec.ofNat 32 (bitsOf v (8 * 0xA04) 32), nodes := (List.range count).map node }
  if count ≤ 256 ∧ (count = 0 ∨ (node 0).parent = 0) ∧ (List.range count).all (fun i => decide (i = 0) || decide (t.parent i < i)) ∧
      t.nodes.all (fun n => decide (n.flags.toNat < 2)) ∧ bitsOf v (8 * 0xA02) 16 = 0 ∧ bitsOf v (8 * 0xA08) (8 * 0x5F8) = 0 then some t else none

/-- `dtld` (R343). -/
def execDtld (dd : DRegNo) (ra : SReg) (s : State) : Host.Outcome State Fault Refusal :=
  issue (do
    onlyX
    let va ← rS ra
    aligned va 4096
    interlock va 4096 false
    let a ← vectorActor
    let v ← eachFold (List.range 16) 0 fun v i => do
      let x ← a.load .home (va + BitVec.ofNat 64 (256 * i)) 256
      pure (v + x * 2 ^ (2048 * i))
    match Tree.ofImage v with
    | none => trap 0x16 va
    | some t =>
      modHart fun h => h.setTree dd t
      retire) s

/-- `dtst`: resumable, line by line (R343). -/
def execDtst (dd : DRegNo) (ra : SReg) (s : State) : Host.Outcome State Fault Refusal :=
  issue (do
    onlyX
    let va ← rS ra
    aligned va 4096
    let h ← getHart
    let v := (h.tree dd).image
    let line (i : Nat) := va + BitVec.ofNat 64 (256 * i)
    resumeFrom 16 (fun _ => true) fun i => do
      interlock (line i) 256 true
      let a ← vectorActor
      a.store (line i) 256 (bitsOf v (2048 * i) 2048) (fullMask 256)
    retireResumable) s

/-- `dtinfo` (R344). -/
def execDtinfo (rd : SReg) (da : DRegNo) (s : State) : Host.Outcome State Fault Refusal :=
  issue (do
    onlyX
    let h ← getHart
    let t := h.tree da
    let maxd := (List.range t.count).foldl (fun m i => max m (t.depth i)) 0
    wS rd (BitVec.ofNat 64 (t.base.toNat * 2 ^ 32 + maxd * 2 ^ 16 + t.count))
    retire) s

end Sys2Proof.Machine
end

