-- ==== Sys2Proof/Machine/Attention.lean ====
section
/-! DEFINITION. Attention and the key-value cache: `kvx`, score programs, `sattn` and its events, `smerge` and `sapply` (R92, R317 to
R332). -/

namespace Sys2Proof.Machine

/-- The block tables an access is led through (R318). -/
structure BlockTable where
  pages : Word64
  maps : Word64
  nblk : Nat
  deriving DecidableEq, Repr

/-- A table descriptor's 24 bytes; none where R318 does not allow them. -/
def BlockTable.of (b : Nat) : Option BlockTable :=
  let t : BlockTable := { pages := BitVec.ofNat 64 (bitsOf b 0 64), maps := BitVec.ofNat 64 (bitsOf b 64 64), nblk := bitsOf b 128 32 }
  if bitsOf b 160 32 ≠ 0 ∨ 16384 < t.nblk ∨ t.pages.toNat % 8 ≠ 0 ∨ t.maps.toNat % 8 ≠ 0 then none else some t

/-- A block page's address from its entry (R318). -/
def blockPage (entry : Word64) : Word64 := entry &&& ~~~0xFFFF#64

/-- The element that a position gives (R319). -/
def kvxElem (t : BlockTable) (list : Word64) (i : Nat) : M Word64 := do
  let p ← listWord (list + BitVec.ofNat 64 (8 * i))
  let b := p.toNat / 64
  if p.msb || decide (t.nblk ≤ b) then pure (BitVec.allOnes 64)
  else
    let page ← listWord (t.pages + BitVec.ofNat 64 (8 * b))
    if page = 0 then pure (BitVec.allOnes 64)
    else
      let s ← listWord (t.maps + BitVec.ofNat 64 (8 * b))
      pure (if s.getLsbD (p.toNat % 64) then blockPage page + BitVec.ofNat 64 (512 * popcountN s.toNat (p.toNat % 64)) else BitVec.allOnes 64)

/-- The address at which element i stops: in the list, in the page array, or in the bitmap array (R149, R220). -/
def kvxStop (t : BlockTable) (list : Word64) (i : Nat) : M Word64 := do
  let l := list + BitVec.ofNat 64 (8 * i)
  match ← attempt (listWord l) with
  | .error _ => pure l
  | .ok p =>
    let b := t.pages + BitVec.ofNat 64 (8 * (p.toNat / 64))
    match ← attempt (listWord b) with
    | .error _ => pure b
    | .ok _ => pure (t.maps + BitVec.ofNat 64 (8 * (p.toNat / 64)))

/-- `kvx`: fault-first; a trap on the first element releases the reservation (R319, R320). -/
def execKvx (q : QNo) (ra rb rc : SReg) (s : State) : Host.Outcome State Fault Refusal :=
  issue (do
    accessQueue q
    let desc ← rS ra
    let list ← rS rb
    aligned desc 8
    aligned list 8
    interlock desc 24 false
    let a ← actor
    let b ← atRecord desc (eachFold (List.range 3) 0 fun v i => do
      let x ← a.load .home (desc + BitVec.ofNat 64 (8 * i)) 8
      pure (v + x * 2 ^ (64 * i)))
    match BlockTable.of b with
    | none => recordBad desc
    | some t =>
      needTable 3
      let h ← getHart
      drainHart h.slot
      let count ← elemCount rc
      takeEntry q 8
      let cut ← firstFault count (fun _ => true) (kvxStop t list)
        (fun i => if i = 0 then modHeld q fun _ _ => [] else pure ())
        (fun i => do
          let x ← kvxElem t list i
          putEntry q i x) (some false)
      finishEntry q true (cut.getD count)) s

/-- The fields that a score operation names, as a mask of its word; none for a reserved opc (R321). -/
def scoreMask (opc : Nat) : Option Nat :=
  let d := 7 * 2 ^ 24
  let ab := 7 * 2 ^ 21 + 7 * 2 ^ 18
  match opc with
  | 0x00 => some 0
  | 0x01 | 0x02 | 0x05 | 0x06 | 0x07 | 0x08 | 0x0A => some (d + ab)
  | 0x03 | 0x04 => some (d + 7 * 2 ^ 21 + 0xFFFF)
  | 0x09 => some (d + ab + 7)
  | 0x0B | 0x0C => some (d + 0xFFFF)
  | 0x0D => some d
  | 0x0E => some (d + 15)
  | 0x0F => some (d + 7)
  | 0x10 => some (d + 7 * 2 ^ 21)
  | _ => none

/-- A word is an operation that R321 allows. -/
def scoreLegal (w : Nat) : Bool :=
  match scoreMask (bitsOf w 27 5) with
  | none => false
  | some m => w % 2 ^ 27 &&& m = w % 2 ^ 27 ∧ bitsOf w 24 3 ≤ 4

/-- The words of a program up to and including the first `stop`; none where one of them is not legal (R323). -/
def scoreWords : List Nat → Option (List (BitVec 32))
  | [] => some []
  | w :: rest =>
    if !scoreLegal w then none
    else if bitsOf w 27 5 = 0 then some [BitVec.ofNat 32 w]
    else (scoreWords rest).map (BitVec.ofNat 32 w :: ·)

/-- `spld` (R323). -/
def execSpld (sp : SpNo) (ra : SReg) (s : State) : Host.Outcome State Fault Refusal :=
  issue (do
    onlyX
    let va ← rS ra
    aligned va 64
    interlock va 64 false
    let a ← actor
    let ws ← eachMap (List.range 16) fun i => a.load .home (va + BitVec.ofNat 64 (4 * i)) 4
    match scoreWords ws with
    | none => recordBad va
    | some p =>
      modHart fun h => { h with sp := h.sp.set sp p }
      retire) s

/-- What a score program sees beside the score (R321). -/
structure ScoreEnv where
  pc : Word64
  ln : Nat
  qi : Int
  ki : Int
  h : Int
  /-- The sixteen constants, as `e4m3` bytes. -/
  consts : List Nat
  trees : Vector Tree 8
  deriving DecidableEq, Repr

/-- An integer as a value. -/
def Fp.ofInt (x : Int) : Fp := .fin (decide (x < 0)) x.natAbs 0

/-- The greater, or the lesser, of two `fp32` patterns, as `vmax` and `vmin` choose without flushing (R120, R321, R326). -/
def pickFp32 (greater : Bool) (a b : Nat) : Nat :=
  if isNan .fp32 a then quieted .fp32 a
  else if isNan .fp32 b then quieted .fp32 b
  else if (if greater then fpBelow (Fp.of .fp32 a) (Fp.of .fp32 b) else fpBelow (Fp.of .fp32 b) (Fp.of .fp32 a)) then b
  else a

/-- 1.0 in `fp32`, or +0. -/
def fpFlag (yes : Bool) : Nat := if yes then 0x3F800000 else 0

/-- Minus infinity in `fp32`. -/
def negInf : Nat := 0xFF800000

/-- A pattern is not equal to 0: a NaN is not (R321). -/
def fpNonzero (x : Nat) : Bool := !fpEqual (Fp.of .fp32 x) (.fin false 0 0)

/-- An operand of a program: s and z0 to z3 as the list holds them, qi, ki and h rounded (R321). -/
def ScoreEnv.operand (e : ScoreEnv) (r : List Nat) (c : Nat) : Nat :=
  let int (x : Int) : Nat := ((engineCtx e.pc).round 0 e.ln (exactInt x)).1
  match c with
  | 5 => int e.qi
  | 6 => int e.ki
  | 7 => int e.h
  | _ => r.getD c 0

/-- One operation: its result, and whether it generated a NaN (R321). -/
def ScoreEnv.run (e : ScoreEnv) (r : List Nat) (w : Nat) : Nat × Bool :=
  let a := e.operand r (bitsOf w 21 3)
  let b := e.operand r (bitsOf w 18 3)
  let imm := bitsOf w 0 16
  let round := (engineCtx e.pc).round 0 e.ln
  let fa := Fp.of .fp32 a
  let fb := Fp.of .fp32 b
  match bitsOf w 27 5 with
  | 0x01 => round (fpAdd .rne fa fb)
  | 0x02 => round (fpMul fa fb)
  | 0x03 => round (fpAdd .rne fa (Fp.of .bf16 imm))
  | 0x04 => round (fpMul fa (Fp.of .bf16 imm))
  | 0x05 => (pickFp32 true a b, false)
  | 0x06 => (pickFp32 false a b, false)
  | 0x07 => (fpFlag (fpLess fa fb), false)
  | 0x08 => (fpFlag (fpLess fa fb || fpEqual fa fb), false)
  | 0x09 => (if fpNonzero (e.operand r (imm % 8)) then a else b, false)
  | 0x0A => (if fpNonzero b then a else negInf, false)
  | 0x0B => (fpFlag (decide (e.ki ≤ e.qi + signedOf 16 imm)), false)
  | 0x0C => (fpFlag (decide (0 ≤ e.qi - e.ki) && decide (e.qi - e.ki < imm)), false)
  | 0x0D => round (fpMul (Fp.of .e4m3 (e.consts.getD (e.h % 16).toNat 0)) (Fp.ofInt (e.ki - e.qi)))
  | 0x0E => round (Fp.of .e4m3 (e.consts.getD (imm % 16) 0)).exact
  | 0x0F =>
    let t := e.trees.getD (imm % 8) { base := 0, nodes := [] }
    (fpFlag (decide (0 ≤ e.qi) && decide (0 ≤ e.ki) && t.visible e.qi.toNat e.ki.toNat), false)
  | _ => (a, false)

/-- Run a program from registers s and z0 to z3: the score, and whether an operation generated a NaN (R321). -/
def ScoreEnv.steps (e : ScoreEnv) : List (BitVec 32) → List Nat → Bool → Nat × Bool
  | [], r, g => (r.headD 0, g)
  | w :: rest, r, g =>
    if bitsOf w.toNat 27 5 = 0 then (r.headD 0, g)
    else
      let x := e.run r w.toNat
      e.steps rest (r.set (bitsOf w.toNat 24 3) x.1) (g || x.2)

/-- Run a program on a score (R321). -/
def ScoreEnv.score (e : ScoreEnv) (prog : List (BitVec 32)) (s : Nat) : Nat × Bool := e.steps prog [s, 0, 0, 0, 0] false

/-- How the merge of R92 rounds: the rounding, whether it draws, the generators, and the lowest element that generated a NaN. -/
structure Merging where
  c : FpCtx
  sr : Bool
  gen : Vector (BitVec 32) 256
  nan : Option Nat
  deriving DecidableEq, Repr

/-- One rounding for element k, whose NaN has lane number ln. -/
def Merging.round (g : Merging) (k ln : Nat) (x : Exact) : Nat × Merging :=
  let d := if g.sr then drawGen g.gen k else (g.gen, 0)
  let r := g.c.round d.2 ln x
  (r.1, { g with gen := d.1, nan := if r.2 then lowerOf g.nan (some k) else g.nan })

/-- A factor of a merge (R92); a NaN generated in it serves no single element (R86). -/
def Merging.factor (g : Merging) (mi m : Nat) : Nat × Merging :=
  if mi = negInf then (0, g)
  else
    let d := g.round 0 0 (fpSub g.c.rm (Fp.of .fp32 mi) (Fp.of .fp32 m))
    d.2.round 0 0 (fpExp2 (Fp.of .fp32 d.1))

/-- rne(rne(x × f1) + rne(y × f2)) for element k (R92). -/
def Merging.combine (g : Merging) (k f1 f2 x y : Nat) : Nat × Merging :=
  let a := g.round k k (fpMul (Fp.of .fp32 x) (Fp.of .fp32 f1))
  let b := a.2.round k k (fpMul (Fp.of .fp32 y) (Fp.of .fp32 f2))
  b.2.round k k (fpAdd g.c.rm (Fp.of .fp32 a.1) (Fp.of .fp32 b.1))

/-- The elements of o from the k-th of a triple on. -/
def Merging.outputs (g : Merging) (k f1 f2 : Nat) : List Nat → List Nat → List Nat × Merging
  | x :: xs, y :: ys =>
    let r := g.combine k f1 f2 x y
    let t := r.2.outputs (k + 1) f1 f2 xs ys
    (r.1 :: t.1, t.2)
  | _, _ => ([], g)

/-- The merge of two triples (R92). Where m is a NaN its bits stand in every place, and no rounding is made: no generator steps, no NaN is generated,
and no NaN of l or o is taken; the rules say only that it propagates (DESIGN CHOICE: log 56). -/
def Merging.merge (g : Merging) (a b : Triple) : Triple × Merging :=
  let m := pickFp32 true a.m b.m
  if isNan .fp32 m then ({ m := m, l := m, o := a.o.map fun _ => m }, g)
  else
    let f1 := g.factor a.m m
    let f2 := f1.2.factor b.m m
    let l := f2.2.combine 1 f1.1 f2.1 a.l b.l
    let o := l.2.outputs 2 f1.1 f2.1 a.o b.o
    ({ m := m, l := l.1, o := o.1 }, o.2)

/-- The merge of the engines: RNE, never flushed (R92, R326). -/
def engineMerge (pc : Word64) (a b : Triple) : Triple := ((({ c := engineCtx pc, sr := false, gen := Vector.replicate 256 0, nan := none } : Merging)).merge a b).1

/-- `smerge` (R331). -/
def execSmerge (vd va vb : VRegNo) (s : State) : Host.Outcome State Fault Refusal :=
  issue (do
    onlyX
    let r : Named := { vs := [va.val, vb.val], vw := [vd.val] }
    checkNamed r
    checkTags (fun f => f = .fp32) r.vs
    swapIn r
    let h ← getHart
    if h.vl.toNat ≤ 1 then retire
    else
      let el (x i : Nat) : Nat := flush .fp32 (vtFtz h.vt) (elemOf 32 (h.vbitsOf x) i)
      let triple (x : Nat) : Triple := { m := el x 0, l := el x 1, o := (List.range (h.vl.toNat - 2)).map fun i => el x (i + 2) }
      let t := (({ c := h.fpCtx .fp32, sr := h.isSr, gen := h.gen, nan := none } : Merging)).merge (triple va.val) (triple vb.val)
      let bits := ((t.1.m :: t.1.l :: t.1.o).zipIdx).foldl (fun b x => setElem 32 b x.2 x.1) (h.vbitsOf vd.val)
      finishV h vd.val .fp32 { bits := bits, gen := t.2.gen, nan := t.2.nan }
      retire) s

/-- `sapply` (R332). An element counts as having generated a NaN where one that its program generated is its result (R87). -/
def execSapply (vd va : VRegNo) (sp : SpNo) (s : State) : Host.Outcome State Fault Refusal :=
  issue (do
    if 60 < va.val then trapWord 0x01 else pure ()
    onlyX
    let h ← getHart
    let r := ({ vs := groupOf va.val 4, vw := [vd.val] } : Named).guarded h
    checkNamed r
    if (groupOf va.val 4).contains vd.val then trapWord 0x07 else pure ()
    if h.fmt = .fp32 ∧ h.tagOf va.val = some .fp32 ∧ (groupOf (va.val + 1) 3).all fun x => h.tagOf x == some .i32 then pure ()
    else trapWord 0x06
    swapIn r
    let h ← getHart
    let el (k i : Nat) : Nat := elemOf 32 (h.vbitsOf (va.val + k)) i
    let consts := (List.range 16).map fun j => bitsOf (h.k.getD 15 0) (8 * j) 8
    elementwise h vd.val false fun _ i =>
      let e : ScoreEnv := { pc := h.xpc, ln := i, qi := signedOf 32 (el 1 i), ki := signedOf 32 (el 2 i), h := signedOf 32 (el 3 i)
                            consts := consts, trees := h.d }
      let x := e.score h.sp[sp] (el 0 i)
      (x.1, x.2 && decide (x.1 = nanBits .fp32 false (generatedFrac h.xpc i) true))) s

/-- The size of a result and of a mask (R324). -/
def Pass.triple (hd : Nat) : Nat := 8 + 4 * hd
/-- The doublewords of a mask (R324). -/
def maskWords (nblk : Nat) : Nat := (nblk + 63) / 64

/-- A pass record's fields (R324); none where R325 refuses them by themselves. -/
structure PassRec where
  table : BlockTable
  kvf : Fmt
  hd : Nat
  kvh : Nat
  nr : Nat
  nh : Nat
  slot : Nat
  enabled : Bool
  hb : Nat
  scale : Nat
  qpos : Word64
  dst : Nat
  tag : BitVec 32
  consts : List Nat
  deriving DecidableEq, Repr

/-- The KV formats of a pass (R324). -/
def kvFormat : Nat → Option Fmt
  | 0xA => some .bf16
  | 0xC => some .e4m3
  | 0xD => some .e5m2
  | _ => none

/-- Some byte of n at an address lies in the local-store window (R138, R325). -/
def meetsWindow (va : Word64) (n : Nat) : Bool := decide (n ≠ 0) && decide (va.toNat < 2 ^ 56) && decide (windowBase < va.toNat + n)

/-- A pass record's 64 bytes, checked (R324, R325). -/
def PassRec.of (b : Nat) : Option PassRec :=
  match BlockTable.of b, kvFormat (bitsOf b 192 4) with
  | some t, some f =>
    let hd := 64 * 2 ^ bitsOf b 200 2
    let r : PassRec :=
      { table := t, kvf := f, hd := hd, kvh := bitsOf b 202 4, nr := bitsOf b 208 4 + 1, nh := bitsOf b 212 4 + 1, slot := bitsOf b 216 2
        enabled := b.testBit 218, hb := bitsOf b 219 5, scale := bitsOf b 224 32, qpos := BitVec.ofNat 64 (bitsOf b 256 64), dst := bitsOf b 320 32
        tag := BitVec.ofNat 32 (bitsOf b 352 32), consts := (List.range 16).map fun j => bitsOf b (384 + 8 * j) 8 }
    if bitsOf b 196 4 = 0 ∧ bitsOf b 206 2 = 0 ∧ bitsOf b 200 2 ≠ 3 ∧ r.kvh < 512 / (hd * esizeOf f) ∧ r.nr * r.nh ≤ 16 ∧ r.dst % 8 = 0 ∧
        r.tag ≠ 0xFFFFFFFF ∧ !meetsWindow t.pages (8 * t.nblk) ∧ !meetsWindow t.maps (8 * t.nblk) then some r
    else none
  | _, _ => none

/-- The pages that a page array names from entry k on; none while an entry has to be waited for or lies with a peer, so that it may name any page
(R173). -/
def namedPages (a : Actor) (pages : Word64) (nblk k : Nat) : M (Option (List Nat)) :=
  probe (eachFold (List.range' k (nblk - k)) (some []) fun l b => do
    let va := pages + BitVec.ofNat 64 (8 * b)
    match ← attempt (do
      let p ← a.place .load va 8 (some false)
      if p.loc.isPeer then waitFor .level else a.load .home va 8) with
    | .ok v => pure (l.map fun l => if v = 0 then l else l ++ [v / 2 ^ 16])
    | .error (.wait _ _) => pure none
    | .error _ => pure l)

/-- The pages that a page array names as its pass issues: none while earlier work of the hart has still to write the array (R173, R329). -/
def pagesAtIssue (a : Actor) (h : Hart) (pages : Word64) (nblk : Nat) : M (Option (List Nat)) := do
  let r := rangeOf pages (8 * nblk) false
  let s ← get
  if nblk ≠ 0 ∧ (s.heldOn h.slot r.lo r.hi false || h.transfers.any fun t => t.conflicts r.lo r.hi false) then pure none
  else namedPages a pages nblk 0

/-- `sattn`: the checks in their order, and the start of the pass (R325), whose work S1 holds (R20). Its reads name no core, so that the
local-store window is unmapped for them (R138). -/
def execSattn (va : VRegNo) (rb : SReg) (s : State) : Host.Outcome State Fault Refusal :=
  issue (do
    onlyX
    checkNamed { vs := [va.val] }
    let h ← getHart
    if h.tagOf va.val = some .bf16 then pure () else trapWord 0x06
    needWindow
    let ra ← rS rb
    aligned ra 64
    interlock ra 64 false
    let b ← if inWindow ra then trap 0x0A ra else recordHome ra
    match PassRec.of b with
    | none => recordBad ra
    | some r =>
      let prog := if r.enabled then h.sp.getD r.slot [] else []
      if prog.any fun w => bitsOf w.toNat 27 5 == 0x0F then recordBad ra else pure ()
      let nq := r.nr * r.nh
      if 64 < va.val + nq ∨ !((groupOf va.val nq).all fun x => h.tagOf x == some .bf16) ∨ h.vbits < 16 * r.hd then recordBad ra else pure ()
      let size := nq * Pass.triple r.hd + 16 * maskWords r.table.nblk
      let a ← actor
      let lsb := match a.window with
        | none => 0
        | some (_, _, n) => n
      if lsb < r.dst + size then trap 0x0A (BitVec.ofNat 64 (windowBase + max r.dst lsb)) else pure ()
      let n := r.table.nblk
      needTable (if n = 0 then 1 else 4)
      swapIn { vs := groupOf va.val nq }
      let h ← getHart
      drainHart h.slot
      let pages ← pagesAtIssue a h r.table.pages n
      let id ← newId
      let ranges := rangeOf (BitVec.ofNat 64 (windowBase + r.dst)) size true ::
        (if n = 0 then [] else [rangeOf r.table.pages (8 * n) false, rangeOf r.table.maps (8 * n) false])
      let p : Pass :=
        { recAddr := ra, pages := r.table.pages, maps := r.table.maps, nblk := n, kvf := r.kvf, hd := r.hd, kvh := r.kvh, nr := r.nr, nh := r.nh
          hb := r.hb, scale := r.scale, qpos := r.qpos, dst := r.dst, consts := r.consts, prog := prog
          queries := (groupOf va.val nq).map fun x => (List.range r.hd).map fun d => elemOf 16 (h.vbitsOf x) d
          pc := h.xpc, fates := [], running := [] }
      startTransfer { id := id, kind := 6, tag := r.tag, stream := .x, user := decide (h.priv = .u), ranges := ranges, pages := pages.getD []
                      unnamed := pages.isNone, work := .pass p }
      retire) s

/-- The empty partial (R92). -/
def emptyTriple (hd : Nat) : Triple := { m := negInf, l := 0, o := List.replicate hd 0 }

/-- The cause of a failed block (R327). -/
def blockCause (c : BitVec 8) : Nat := if c = 0x11 ∨ c = 0x15 then c.toNat else 0x0A

/-- The leaf of a block page, or the fault by which the block fails (R327). -/
def blockLeaf (a : Actor) (page : Word64) : M (Req × Leaf) := do
  let q ← a.req .load page (some false) false
  if 2 ^ 56 ≤ page.toNat ∨ inWindow page then q.fault 0
  else
    let l ← lookup q
    if inPeer l.frame then q.fault 14
    else if l.size = 2 ^ 16 then pure (q, l)
    else q.fault 4

/-- Run a part of a block; a fault becomes the block's fate. -/
def orFailed (slice : Option Nat) (x : M BlockFate) : M BlockFate := do
  match ← attempt x with
  | .ok f => pure f
  | .error (.trap c _ _ _) => pure (.failed slice (blockCause c))
  | .error e => throw e

/-- Dispatch a block: its entry is read once and its page translated (R326). -/
def dispatchBlock (a : Actor) (p : Pass) (b : Nat) : M BlockFate :=
  orFailed none (do
    let e ← a.load .home (p.pages + BitVec.ofNat 64 (8 * b)) 8
    if e = 0 then pure .noPage
    else
      let page := blockPage (BitVec.ofNat 64 e)
      let (_, l) ← blockLeaf a page
      pure (.dispatched (homeSlice l.frame) page))

/-- A row of a block: its elements' bits (R317). -/
def readRow (a : Actor) (p : Pass) (page : Word64) (off : Nat) : M (List Nat) := do
  let n := p.hd * esizeOf p.kvf
  let v ← eachFold (pieces n) 0 fun v (o, len) => do
    let x ← a.load .home (page + BitVec.ofNat 64 (off + p.kvh * n + o)) len
    pure (v + x * 2 ^ (8 * o))
  pure ((List.range p.hd).map fun d => bitsOf v (d * Fmt.ew p.kvf) (Fmt.ew p.kvf))

/-- Some line of a block page holds uncorrectable data (R327). -/
def blockPoisoned (a : Actor) (page : Word64) : M Bool :=
  eachFold (List.range 256) false fun bad i => do
    if bad then pure true
    else match ← attempt (a.place .load (page + BitVec.ofNat 64 (256 * i)) 256 (some false)) with
      | .ok x => do
        let s ← get
        pure (x.poisoned s 256)
      | .error _ => pure false

/-- log2 of a number. -/
def log2N (n : Nat) : Nat := Nat.log2 n

/-- The score of a query with a key (R326). -/
def Pass.score (p : Pass) (j : Nat) (key : List Nat) (ki : Nat) : Nat :=
  let q := p.queries.getD j []
  let x := (q.zip key).map fun (a, b) => ((engineCtx p.pc).round 0 0 (fpMul (Fp.of .bf16 a) (Fp.of p.kvf b))).1
  let dot := (engineTree p.pc 0 (log2N p.hd) x).1
  let s := ((engineCtx p.pc).round 0 0 (fpMul (Fp.of .fp32 p.scale) (Fp.of .fp32 dot))).1
  let e : ScoreEnv := { pc := p.pc, ln := 0, qi := p.qpos.toInt + (j / p.nh : Nat), ki := ki, h := (p.hb + j % p.nh : Nat), consts := p.consts
                        trees := Vector.replicate 8 { base := 0, nodes := [] } }
  (e.score p.prog s).1

/-- A block's triple for a query: present positions with their keys and values; none where every score is −∞ (R326). -/
def Pass.partial' (p : Pass) (j : Nat) (rows : List (Nat × List Nat × List Nat)) (block : Nat) : Option Triple :=
  let scores := rows.map fun (pos, key, _) => (pos, p.score j key (64 * block + pos))
  let m := scores.foldl (fun m x => pickFp32 true m x.2) negInf
  if m = negInf then none
  else
    let weight (s : Nat) : Nat :=
      let d := ((engineCtx p.pc).round 0 0 (fpSub .rne (Fp.of .fp32 s) (Fp.of .fp32 m))).1
      ((engineCtx p.pc).round 0 0 (fpExp2 (Fp.of .fp32 d))).1
    let ws := scores.map fun x => (x.1, weight x.2)
    let l := (engineTree p.pc 1 6 ((List.range 64).map fun i => (SMap.get? ws i).getD 0)).1
    let o := (List.range p.hd).map fun d =>
      let prods : List (Nat × Nat) := (rows.zip ws).map fun (r, w) =>
        (w.1, ((engineCtx p.pc).round 0 (d + 2) (fpMul (Fp.of .fp32 w.2) (Fp.of p.kvf (r.2.2.getD d 0)))).1)
      (engineTree p.pc (d + 2) 6 ((List.range 64).map fun i => (SMap.get? prods i).getD 0)).1
    some { m := m, l := l, o := o }

/-- A slice's running triples with a block's merged in (R326). -/
def Pass.absorb (p : Pass) (slice block : Nat) (rows : List (Nat × List Nat × List Nat)) : Pass :=
  let old := (SMap.get? p.running slice).getD (List.replicate (p.nr * p.nh) (emptyTriple p.hd))
  { p with running := SMap.put p.running slice ((old.zipIdx).map fun (t, j) => match p.partial' j rows block with
      | none => t
      | some x => engineMerge p.pc t x) }

/-- The present positions of a block with their rows (R317, R326). -/
def readRows (a : Actor) (p : Pass) (page : Word64) (map : Nat) : M (List (Nat × List Nat × List Nat)) :=
  eachMap ((List.range 64).filter map.testBit) fun pos => do
    let slot := popcountN map pos
    let k ← readRow a p page (512 * slot)
    let v ← readRow a p page (0x8000 + 512 * slot)
    pure (pos, k, v)

/-- A slice reads a block, in one event: its fate, and its rows where it is scored. The tier decides first whether it is read at all
(R327, log 31). -/
def readBlock (a : Actor) (p : Pass) (slice : Nat) (page : Word64) (b : Nat) : M (BlockFate × List (Nat × List Nat × List Nat)) := do
  let s ← get
  let r ← attempt (do
    let (_, l) ← blockLeaf a page
    let promoted := l.tier = 3 ∧ !(s.moves.any fun m => decide (m.leaf = l.addr) && decide (m.oldTier = 1))
    if l.tier = 2 ∨ promoted then
      modify fun s => { s with moves := s.moves.map fun m => if m.leaf = l.addr ∧ m.promote then { m with late := true } else m }
      pure (BlockFate.nonresident slice, [])
    else
      let map ← a.load .home (p.maps + BitVec.ofNat 64 (8 * b)) 8
      let rows ← readRows a p page map
      let bad ← blockPoisoned a page
      if bad then trap 0x11 page else pure (BlockFate.scored slice, rows))
  match r with
  | .ok x => pure x
  | .error (.trap c _ _ _) => pure (.failed (some slice) (blockCause c), [])
  | .error e => throw e

/-- A block has been dispatched to a slice and not read. -/
def BlockFate.waitsAt (f : BlockFate) (slice : Nat) : Bool :=
  match f with
  | .dispatched k _ => k == slice
  | _ => false

/-- A pass's work is replaced, and the block pages that it has still to read; once every block has been dispatched, it names no other page (R173). -/
def setPass (slot id : Nat) (p : Pass) (pages : List Nat) (unnamed : Bool) : M Unit :=
  modSlot slot fun h => pure { h with transfers := h.transfers.map fun t =>
    if t.id = id then { t with work := .pass p, pages := pages, unnamed := unnamed && decide (p.fates.length < p.nblk) } else t }

/-- A pass whose array was still to be written as it issued knows its pages once it can be read: none of the hart's earlier work writes it by now
(R173). -/
def Transfer.nameNow (t : Transfer) (a : Actor) (p : Pass) : M Transfer := do
  if !t.unnamed then pure t
  else match ← namedPages a p.pages p.nblk p.fates.length with
    | none => pure t
    | some l => pure { t with pages := t.pages ++ l, unnamed := false }

/-- A block dispatched to a page and not read. -/
def BlockFate.waitsOn (f : BlockFate) (page : Nat) : Bool :=
  match f with
  | .dispatched _ g => decide (g.toNat / 2 ^ 16 = page)
  | _ => false

/-- The pages that a pass has still to read once a block has been dispatched: a page that the array named only after the pass issued
joins them (R173, R326). -/
def Pass.pagesWith (p : Pass) (pages : List Nat) (page : Nat) : List Nat :=
  if (p.fates.filter fun f => f.waitsOn page).length < pages.count page then pages else pages ++ [page]

/-- A transfer that the hart issued earlier writes a page (R173). -/
def Hart.pageAhead (h : Hart) (id page : Nat) : Bool :=
  (h.transfers.takeWhile fun u => u.id != id).any fun u => u.ranges.any fun r => r.write && decide (page * 256 ≤ r.hi) && decide (r.lo ≤ page * 256 + 255)

/-- A block is dispatched; a page that an earlier transfer of the hart still writes is waited for (R173, R326). -/
def dispatchTurn (slot : Nat) (h : Hart) (t : Transfer) (a : Actor) (p : Pass) (b : Nat) : M Unit := do
  let t ← t.nameNow a p
  let f ← dispatchBlock a p b
  let p' := { p with fates := p.fates ++ [f] }
  match f with
  | .dispatched k page =>
    let n := page.toNat / 2 ^ 16
    if h.pageAhead t.id n then impossible
    else
      let running := if (SMap.get? p.running k).isSome then p.running
        else SMap.put p.running k (List.replicate (p.nr * p.nh) (emptyTriple p.hd))
      setPass slot t.id { p' with running := running } (p.pagesWith t.pages n) t.unnamed
  | _ => setPass slot t.id p' t.pages t.unnamed

/-- Block c of the pass b of the hart at slot a is dispatched, in ascending order, if it has not been; else its slice reads it, in
ascending order for each slice (R326, R327). S1 holds the work of a pass (R20). -/
def execSliceBlockRead (s : State) : Host.Outcome State Fault Refusal :=
  event (do
    let s ← get
    let e := s.curEv
    if s.level ≠ .s2 then impossible
    else asEngine e.a e.b fun h t a => do
      match t.work with
      | .pass p =>
        if e.c = p.fates.length ∧ e.c < p.nblk then dispatchTurn e.a h t a p e.c
        else match p.fates[e.c]? with
          | some (.dispatched k page) =>
            if (p.fates.take e.c).any fun f => f.waitsAt k then impossible
            else
              let (f, rows) ← readBlock a p k page e.c
              let p := { p with fates := p.fates.set e.c f }
              let p := match f with
                | .scored _ => p.absorb k e.c rows
                | _ => p
              setPass e.a e.b p (t.pages.erase (page.toNat / 2 ^ 16)) t.unnamed
          | _ => impossible
      | _ => impossible) s

/-- One level of the marver network, over the triples of all queries (R92). -/
def mergeLevel (pc : Word64) (hd : Nat) : List (List Triple) → List (List Triple)
  | a :: b :: rest => ((a.zip b).map fun (x, y) => engineMerge pc x y) :: mergeLevel pc hd rest
  | [a] => [a.map fun x => engineMerge pc x (emptyTriple hd)]
  | [] => []

/-- The marver network's levels down to one partial (R92). -/
def mergeAll (pc : Word64) (hd : Nat) : Nat → List (List Triple) → List (List Triple)
  | 0, l => l
  | n + 1, l => if l.length ≤ 1 then l else mergeAll pc hd n (mergeLevel pc hd l)

/-- A mask of blocks as doublewords (R324). -/
def blockMask (p : Pass) (f : BlockFate → Bool) : List Nat :=
  (List.range (maskWords p.nblk)).map fun w => ((List.range 64).filter fun i => (p.fates[64 * w + i]?).any f).foldl (fun v i => v + 2 ^ i) 0

/-- A block is not resident. -/
def BlockFate.absent (f : BlockFate) : Bool :=
  match f with
  | .nonresident _ => true
  | _ => false

/-- The cause of a block that failed. -/
def BlockFate.cause? (f : BlockFate) : Option Nat :=
  match f with
  | .failed _ c => some c
  | _ => none

/-- The doublewords of a query's result (R324). -/
def Triple.words (t : Triple) : List Nat :=
  let xs := t.m :: t.l :: t.o
  (List.range (xs.length / 2)).map fun i => xs.getD (2 * i) 0 + xs.getD (2 * i + 1) 0 * 2 ^ 32

/-- Pass b of the hart at slot a ends: the results and masks are written and the record posted (R328). -/
def execPassCompletion (s : State) : Host.Outcome State Fault Refusal :=
  event (do
    let s ← get
    let e := s.curEv
    asEngine e.a e.b fun _ t a => do
      match t.work with
      | .pass p =>
        if s.level ≠ .s2 ∨ p.fates.length ≠ p.nblk ∨ p.fates.any (fun f => match f with | .dispatched .. => true | _ => false) then impossible
        else
          let merged := (mergeAll p.pc p.hd 8 (p.running.map Prod.snd)).headD (List.replicate (p.nr * p.nh) (emptyTriple p.hd))
          let words := merged.flatMap Triple.words ++ blockMask p BlockFate.absent ++ blockMask p fun f => f.cause?.isSome
          each (words.zipIdx) fun (w, i) => a.storeNow (BitVec.ofNat 64 (windowBase + p.dst + 8 * i)) 8 w
          let causes := p.fates.filterMap BlockFate.cause?
          let tried := (p.fates.filter (· != .noPage)).length
          let status := if causes.isEmpty then 0 else if causes.length = tried then 2 else 1
          postRecord e.a e.b 6 false (causes.headD 0) status (BitVec.ofNat 64 causes.length) p.recAddr
            (BitVec.ofNat 64 (p.fates.filter BlockFate.absent).length)
      | _ => impossible) s

end Sys2Proof.Machine
end

