-- ==== Sys2Proof/Machine/Barrier.lean ====
section
/-! DEFINITION. Groups' barriers and their regrouping: `barr`, `bwait`, `bsync` and `gsplit` (R295 to R313). -/

namespace Sys2Proof.Machine

/-- The number of a tier: 0 core, 1 die, 2 device, 3 fabric (R311). -/
def BScope.tier : BScope → Nat
  | .core => 0
  | .die => 1
  | .dev => 2
  | .fab => 3

/-- Every hart that has not ended, on its core or saved. -/
def State.allHarts (s : State) : List Hart := (s.harts ++ s.saved).map Prod.snd

/-- The number of a hart's group at a tier. -/
def Hart.group (h : Hart) (t : Nat) : Nat := h.groups.getD t 0

/-- The harts of a group (R303). -/
def State.members (s : State) (t gid : Nat) : List Hart := s.allHarts.filter fun h => h.group t == gid

/-- The place of barrier n of a tier among a hart's 64 barriers (R303). -/
def barBit (t n : Nat) : Nat := 16 * t + n

/-- The key of barrier n of a group. -/
def barKey (gid n : Nat) : Nat := 16 * gid + n

/-- The state of barrier n of a group (R304). -/
def State.barrier (s : State) (gid n : Nat) : BarState := (SMap.get? s.barriers (barKey gid n)).getD .idle

/-- A hart's bits with one set, or cleared. -/
def setBit64 (w : BitVec 64) (i : Nat) (b : Bool) : BitVec 64 := if b then w ||| BitVec.twoPow 64 i else w &&& ~~~BitVec.twoPow 64 i

/-- Change every hart, on its core or saved. -/
def mapHarts (f : Hart → Hart) : M Unit :=
  modify fun s => { s with harts := s.harts.map fun e => (e.1, f e.2), saved := s.saved.map fun e => (e.1, f e.2) }

/-- A hart whose phase of a barrier has ended: its pending and sync bits clear, and a bsync that had arrived finishes (R305,
R312). -/
def Hart.phaseEnded (h : Hart) (i : Nat) : Hart :=
  { h with pend := setBit64 h.pend i false, sync := setBit64 h.sync i false
           syncDone := if h.sync.getLsbD i then setBit64 h.syncDone i true else h.syncDone }

/-- A member of the group belongs to a kernel of a fabric group, whose other parts arrive over the links (R366). -/
def State.isFab (s : State) (h : Hart) : Bool := (SMap.get? s.kernels h.kernel).elim false Kernel.fab

/-- Every member that has not ended has arrived (R305). -/
def State.allArrived (s : State) (t gid n : Nat) : Bool := (s.members t gid).all fun h => h.pend.getLsbD (barBit t n)

/-- The completion of a phase, in one event (R305). -/
def endPhase (t gid n : Nat) : M Unit := do
  mapHarts fun h => if h.group t = gid then h.phaseEnded (barBit t n) else h
  modify fun s => { s with barriers := SMap.put s.barriers (barKey gid n) .complete }

/-- A gathering barrier completes once every member that has not ended has arrived; one whose members lie on several devices only in
the event that combines them, and one of the fabric tier not before S2 (R20, R305, R366). -/
def checkBarrier (t gid n : Nat) : M Unit := do
  let s ← get
  if s.barrier gid n = .gathering ∧ s.allArrived t gid n ∧ ¬ (t = 3 ∧ (s.level ≠ .s2 ∨ (s.members t gid).any s.isFab)) then endPhase t gid n
  else pure ()

/-- An arrival: after every earlier access of the execute stream has performed (R307, R310). -/
def arrive (sc : BScope) (n : Nat) (sync : Bool) : M Unit := do
  settle .x (BScope.scope sc)
  let h ← getHart
  let t := BScope.tier sc
  setHart { h with pend := setBit64 h.pend (barBit t n) true, sync := if sync then setBit64 h.sync (barBit t n) true else h.sync }
  modify fun s => { s with barriers := SMap.put s.barriers (barKey (h.group t) n) .gathering }

/-- Closing its context ends a hart's wait in a barrier or a split, at a time that the spec does not give (R254, R302, R313, R366,
log 52). -/
def closingEnds : M Bool := do
  let h ← getHart
  let s ← get
  if (SMap.get? s.contexts h.asid).any fun c => c.closing.isSome then freeBool else pure false

/-- `barr` (R307). One that S1 holds retires with its arrival (R20). -/
def execBarr (sc : BScope) (n : Fin 16) (s : State) : Host.Outcome State Fault Refusal :=
  issue (do
    onlyX
    let h ← getHart
    if h.pend.getLsbD (barBit (BScope.tier sc) n.val) then
      let ended ← closingEnds
      if ended then retire else keeping (waitFor .barrier)
    else
      arrive sc n.val false
      retire
      checkBarrier (BScope.tier sc) (h.group (BScope.tier sc)) n.val) s

/-- `bwait`: an acquire once the phase of the hart's latest arrival has completed (R308, R310). -/
def execBwait (sc : BScope) (n : Fin 16) (s : State) : Host.Outcome State Fault Refusal :=
  issue (do
    onlyX
    let h ← getHart
    let ended ← if h.pend.getLsbD (barBit (BScope.tier sc) n.val) then closingEnds else pure true
    if ended then
      refreshPoint .x
      retire
    else keeping (waitFor .barrier)) s

/-- A bsync has finished: it is an acquire (R309, R310). -/
def syncFinish (i : Nat) : M Unit := do
  modHart fun h => { h with syncDone := setBit64 h.syncDone i false, firstWait := none }
  refreshPoint .x
  retire

/-- A bsync waits, unless the closing of its context ends its wait (R254). -/
def syncWait (i : Nat) : M Unit := do
  let ended ← closingEnds
  if ended then syncFinish i else keeping (waitFor .barrier)

/-- `bsync`: it arrives once, and finishes when its phase has completed (R309). -/
def execBsync (sc : BScope) (n : Fin 16) (s : State) : Host.Outcome State Fault Refusal :=
  issue (do
    onlyX
    let h ← getHart
    let t := BScope.tier sc
    let i := barBit t n.val
    if h.syncDone.getLsbD i then syncFinish i
    else if h.pend.getLsbD i then
      modHart fun h => { h with firstWait := if h.sync.getLsbD i then none else some i }
      syncWait i
    else
      arrive sc n.val true
      modHart fun h => { h with firstWait := none }
      checkBarrier t (h.group t) n.val
      let h ← getHart
      if h.syncDone.getLsbD i then syncFinish i else syncWait i) s

/-- The first bit and width of the index field of a tier in `gcoord`, and of its count field (R56). -/
def coordFields (t : Nat) : (Nat × Nat) × (Nat × Nat) :=
  match t with
  | 0 => ((0, 4), (20, 4))
  | 1 => ((4, 4), (24, 4))
  | 2 => ((8, 2), (28, 2))
  | _ => ((10, 9), (30, 9))

/-- A hart's index at a tier (R56). -/
def Hart.index (h : Hart) (t : Nat) : Nat := bitsOf h.gcoord.toNat (coordFields t).1.1 (coordFields t).1.2

/-- A `gcoord` with the index and the count of a tier replaced (R301). -/
def withCoord (g : Word64) (t i c : Nat) : Word64 :=
  let f := coordFields t
  BitVec.ofNat 64 (putBits (putBits g.toNat f.1.1 f.1.2 i) f.2.1 f.2.2 c)

/-- The least of some numbers. -/
def leastOf (l : List Nat) : Option Nat := l.foldl (fun acc x => some (acc.elim x (min x))) none

/-- A member of a group at a tier that has not retired: its old index, its number, and its harts (R301). At core tier a member is a
hart, numbered by its slot. -/
structure Member where
  index : Nat
  num : Nat
  harts : List Hart
  deriving DecidableEq, Repr

/-- The number of the member that a hart belongs to at a tier: a hart, a core group or a die group (R301). -/
def Hart.memberNum (h : Hart) (t : Nat) : Nat := if t = 0 then h.slot else h.group (t - 1)

/-- Members in ascending old index. -/
def insertMember (m : Member) : List Member → List Member
  | [] => [m]
  | x :: l => if m.index < x.index ∨ (m.index = x.index ∧ m.num ≤ x.num) then m :: x :: l else x :: insertMember m l

/-- The members of a group that have not retired, in ascending old index (R301). -/
def State.splitMembers (s : State) (t gid : Nat) : List Member :=
  let hs := s.members t gid
  let nums := (hs.map fun h => h.memberNum t).eraseDups
  nums.foldl (fun l n =>
    let mine := hs.filter fun h => h.memberNum t == n
    insertMember { index := (mine.head?.elim 0 fun h => h.index t), num := n, harts := mine } l) []

/-- The hart that arrives for a member: the hart of lowest index; of a die group, that of its core group of lowest index (R301). -/
def Member.leader (m : Member) (t : Nat) : Option Hart :=
  let hs := if t = 2 then
      match leastOf (m.harts.map fun h => h.index 1) with
      | none => []
      | some c => m.harts.filter fun h => h.index 1 == c
    else m.harts
  match leastOf (hs.map fun h => h.index 0) with
  | none => none
  | some i => hs.find? fun h => h.index 0 == i

/-- The colour with which a member has arrived at a split of a tier (R301). -/
def Member.colour (m : Member) (t : Nat) : Option Nat :=
  (m.leader t).bind fun h => h.arrival.bind fun a => if a.1 = t then some a.2 else none

/-- A hart whose barrier has been discarded: its bits clear, and a bsync that waits on it finishes, also one that has not arrived
(R312). -/
def Hart.barrierDropped (h : Hart) (i : Nat) : Hart :=
  let h' := h.phaseEnded i
  if h.firstWait = some i then { h' with syncDone := setBit64 h'.syncDone i true, firstWait := none } else h'

/-- Barriers of a group are discarded: its members' bits clear, and waits on them end (R312). -/
def discardBarriers (t gid : Nat) : M Unit := do
  mapHarts fun h => if h.group t = gid then (List.range 16).foldl (fun h n => h.barrierDropped (barBit t n)) h else h
  modify fun s => { s with barriers := SMap.delRange s.barriers (16 * gid) (16 * gid + 16) }

/-- The new groups of a split: each member with its colour, its new index and count, and its group's number (R301). -/
def splitPlan (ms : List (Member × Nat)) (ids : List Nat) : List (Member × Nat × Nat × Nat) :=
  let colours := (ms.map Prod.snd).eraseDups
  colours.zipIdx.flatMap fun (k, c) =>
    let g := ms.filter fun m => m.2 == k
    g.zipIdx.map fun (m, j) => (m.1, j, g.length - 1, ids.getD c 0)

/-- A split of a group completes once every member has arrived or retired, in one event for the whole group (R301, R312). -/
def checkSplit (t gid : Nat) : M Unit := do
  let s ← get
  let ms := s.splitMembers t gid
  let coloured := ms.filterMap fun m => (m.colour t).map fun c => (m, c)
  if ms.isEmpty ∨ coloured.length ≠ ms.length then pure ()
  else
    discardBarriers t gid
    let ids ← eachMap (coloured.map Prod.snd).eraseDups fun _ => newId
    let plan := splitPlan coloured ids
    mapHarts fun h =>
      if h.group t ≠ gid then h
      else match plan.find? fun p => p.1.num == h.memberNum t with
        | none => h
        | some (_, i, c, id) =>
          let g := withCoord h.gcoord t i c
          { h with
            gcoord := g, groups := vput h.groups t id
            arrival := if h.arrival.any (fun a => a.1 == t) then none else h.arrival
            splitDone := if h.arrival.any (fun a => a.1 == t) then some g else h.splitDone }

/-- A gsplit waits, its arrival standing, unless the closing of its context ends its wait: then its arrival is dropped, its group stays,
and what sd receives is not stated (R254, R302, log 52). -/
def splitWait (rd : SReg) : M Unit := do
  let ended ← closingEnds
  if ended then
    modHart fun h => { h with arrival := none }
    let v ← freeWord
    wS rd v
    retire
  else keeping (waitFor .split)

/-- `gsplit` (R300 to R302). An arrival stands while the form waits; the reissued form takes what the completion gave it. -/
def execGsplit (rd ra : SReg) (s : State) : Host.Outcome State Fault Refusal :=
  issue (do
    onlyX
    let h ← getHart
    let done (g : Word64) : M Unit := do
      modHart fun h => { h with splitDone := none }
      wS rd g
      retire
    match h.splitDone with
    | some g => done g
    | none =>
      let a ← rS ra
      let tier := bitsOf a.toNat 0 3
      if tier = 0 ∨ 4 ≤ tier ∨ bitsOf a.toNat 3 5 ≠ 0 then
        wS rd (BitVec.allOnes 64)
        retire
      else if h.arrival.isSome then splitWait rd
      else
        setHart { h with arrival := some (tier - 1, bitsOf a.toNat 8 8) }
        checkSplit (tier - 1) (h.group (tier - 1))
        let h ← getHart
        match h.splitDone with
        | some g => done g
        | none => splitWait rd) s

end Sys2Proof.Machine
end

