-- ==== Sys2Proof/Machine/Device.lean ====
section
/-! DEFINITION. What the device does on its own account: the error log, context events, the context's state and its deadline, and
launch queue descriptors and doorbells (R236, R237, R250 to R252, R267, R271, R383). -/

namespace Sys2Proof.Machine

/-- The slot the device acts under when it acts for no hart: that of no hart. -/
def deviceSlot : Nat := 1024

/-- The records the error log holds (R383). -/
def logSize : Nat := 1024

/-- The log with a record added; when it is full, a record of another class than 1 replaces the oldest of class 1, and any other is
counted as dropped (R383). -/
def State.logged (s : State) (cls unit addr : Nat) : State :=
  let r : LogRec := { cls := cls, unit := unit, addr := addr, count := 1, level := s.level }
  if s.log.length < logSize then { s with log := s.log ++ [r] }
  else if cls ≠ 1 ∧ s.log.any (fun x => x.cls == 1) then { s with log := s.log.eraseP (fun x => x.cls == 1) ++ [r] }
  else { s with logDropped := s.logDropped + 1 }

/-- Add a record to the error log. -/
def logError (cls unit addr : Nat) : M Unit := modify fun s => s.logged cls unit addr

/-- n bytes of a byte string as a number, the lowest first. -/
def bytesLE (l : List Byte) (off n : Nat) : Nat := ((l.drop off).take n).foldr (fun b v => b.toNat + 2 ^ 8 * v) 0

/-- An object held for a kind and die: one put into service, or the one from manufacture (R379). -/
def Flash.object (f : Flash) (kind die : Nat) : List Byte :=
  ((f.objects.find? fun o => o.kind == kind && o.die == die).map FlashObj.bytes).getD (Config.factoryObject kind die)

/-- The newest object for a kind and die: one staged, or the one in service (R380). -/
def Flash.newest (f : Flash) (kind die : Nat) : List Byte :=
  ((f.staged.find? fun o => o.kind == kind && o.die == die).map FlashObj.bytes).getD (f.object kind die)

/-- The physical core that serves a core, by the configuration record in service of its die (R23, R380). -/
def Flash.coreMap (f : Flash) (core : Nat) : Nat := bytesLE (f.object 3 (dieOfCore core)) (16 + core % 16) 1

/-- The physical slice that serves a slice, by the configuration record in service of its die (R22, R23, R380). -/
def Flash.sliceMap (f : Flash) (slice : Nat) : Nat := bytesLE (f.object 3 (slice / 32)) (32 + slice % 32) 1

/-- The failed lanes, the array row and the array column that the newest record names for the physical core of a core: 20 bytes (R380). -/
def State.laneRecord (s : State) (core : Nat) : Nat :=
  bytesLE (s.flash.newest 3 (dieOfCore core)) (16 + 48 + 20 * (s.core core).phys) 20

/-- A field of a context's descriptor, by physical address (R250, R255). -/
def descField (c : Context) (off n : Nat) : M Nat := hwRead (c.desc + off) n

/-- The code of a context state (R252). -/
def CtxState.code : CtxState → Nat
  | .free => 0
  | .created => 1
  | .runnable => 2
  | .running => 3
  | .yielding => 4
  | .preempted => 5
  | .faulted => 6
  | .checkpointing => 7
  | .destroyed => 8

/-- A bound context by its ASID. -/
def getCtx (asid : Nat) : M Context := do
  let s ← get
  match SMap.get? s.contexts asid with
  | some c => pure c
  | none => impossible

/-- Change a context. -/
def modCtx (asid : Nat) (f : Context → Context) : M Unit := modify fun s => match SMap.get? s.contexts asid with
  | none => s
  | some c => { s with contexts := SMap.put s.contexts asid (f c) }

/-- A context enters a state; its code is written into the descriptor (R252). -/
def setCtxState (asid : Nat) (st : CtxState) : M Unit := do
  let c ← getCtx asid
  modCtx asid fun c => { c with state := st }
  hwWrite (c.desc + 96) st.code 1

/-- The places of a core's event queue kept for context events (R238). -/
def ctxEventPlaces : Nat := 16

/-- Word 0 of a context event (R271). -/
def eventWord0 (second code place core asid : Nat) : Word64 :=
  BitVec.ofNat 64 (asid % 2 ^ 14 + core % 64 * 2 ^ 16 + place % 16 * 2 ^ 32 + 7 * 2 ^ 36 + code % 256 * 2 ^ 40 + second % 256 * 2 ^ 48)

/-- Post a context event on a core; with its places full, what would post it waits (R271). -/
def postAt (c : Context) (core : Nat) (r : Record) : M Unit := do
  let s ← get
  if (s.core core).ctxEvents.length < ctxEventPlaces then
    modCore core fun k => { k with ctxEvents := k.ctxEvents ++ [{ parent := c.parent, words := r }] }
  else waitFor .ring

/-- Post an event of a context that arises at no one hart: the core and the place that it names are not stated (R271, log 5). -/
def postEvent (asid code : Nat) (w1 w2 w3 : Word64) : M Unit := do
  let c ← getCtx asid
  let core ← freeWord
  let place ← freeWord
  let core := core.toNat % 64
  postAt c core { w0 := eventWord0 0 code place.toNat core asid, w1 := w1, w2 := w2, w3 := w3 }

/-- Post an event of a context that arises at a hart (R271). -/
def postHartEvent (asid code second slot : Nat) (w1 w2 w3 : Word64) : M Unit := do
  let c ← getCtx asid
  postAt c (coreOfSlot slot) { w0 := eventWord0 second code (slot % 16) (coreOfSlot slot) asid, w1 := w1, w2 := w2, w3 := w3 }

/-- The device writes an event of core a, at position b, to its parent: the host's ring, or the parent context's own. A parent's events
keep their order, and one whose ring is full holds back no other's (R271, R377). -/
def execContextEventWrite (s : State) : Host.Outcome State Fault Refusal :=
  event (do
    let s ← get
    let core := s.curEv.a
    let i := s.curEv.b
    match (s.core core).ctxEvents[i]? with
    | none => impossible
    | some e =>
      let r := e.words
      if ((s.core core).ctxEvents.take i).any fun x => x.parent == e.parent then impossible
      else if e.parent = 0xFFFF then
        if s.hostEvents.length < 256 then modify fun s => { s with hostEvents := s.hostEvents ++ [r] } else impossible
      else
        let c ← getCtx e.parent
        let evr ← descField c 64 8
        let sz ← descField c 72 1
        let hd ← descField c 80 8
        let tl ← descField c 88 8
        if (hd + 2 ^ 64 - tl) % 2 ^ 64 = 2 ^ (sz % 16) then impossible
        else
          let at' := BitVec.ofNat 64 (evr + hd % 2 ^ (sz % 16) * 32)
          each ([r.w0, r.w1, r.w2, r.w3].zipIdx) fun (w, i) => (deviceActor deviceSlot e.parent).storeNow (at' + BitVec.ofNat 64 (8 * i)) 8 w.toNat
          hwWrite (c.desc + 80) ((hd + 1) % 2 ^ 64) 8
      modCore core fun k => { k with ctxEvents := k.ctxEvents.eraseIdx i }) s

/-- A context is given a yield deadline, of which the members of a fabric part are told: every hart of it counts down, or at 0 is pre-empted by force at once (R267, R270, R365). -/
def giveDeadline (asid d : Nat) : M Unit := do
  let c ← getCtx asid
  if c.runs then
    pauseParts asid d
    setCtxState asid .yielding
  else pure ()
  let s ← get
  let hit := s.harts.filter fun e => decide (e.2.asid = asid) && !e.2.stopped
  if d = 0 then
    modCtx asid fun c => { c with forced := c.forced + hit.length }
    mapHarts fun h => if h.asid = asid then { h with deadline := none } else h
    stopContext asid
  else mapHarts fun h => if h.asid = asid ∧ h.stopped = false ∧ (s.harts.any fun e => e.1 == h.slot && e.2.asid == asid) then
      { h with deadline := some d } else h

/-- The countdown of the hart at slot a reaches zero: it is pre-empted by force (R267). -/
def execYieldDeadlineExpiry (s : State) : Host.Outcome State Fault Refusal :=
  event (do
    let s ← get
    match SMap.get? s.harts s.curEv.a with
    | none => impossible
    | some h =>
      if h.deadline = some 0 ∧ h.stopped = false then
        set { s with harts := SMap.put s.harts s.curEv.a { h.stop with deadline := none } }
        let c ← getCtx h.asid
        modCtx h.asid fun c => { c with forced := c.forced + 1 }
        if c.runs then giveDeadline h.asid 0 else pure ()
      else impossible) s

/-- A launch queue's descriptor (R236). -/
structure LaunchQ where
  lq : Nat
  asid : Nat
  addr : Word64
  base : Nat
  lgsz : Nat
  rd : Nat
  wr : Nat
  enabled : Bool
  overrun : Bool
  valid : Bool
  deriving DecidableEq, Repr

/-- The device reads a queue descriptor of a context, which is launch queue lq, through the context's translations. -/
def readQueue (asid : Nat) (c : Context) (lq : Nat) : M LaunchQ := do
  let lqd ← descField c 48 8
  let addr := BitVec.ofNat 64 (lqd + 64 * (lq - c.lq0))
  let b ← read64 (deviceActor deviceSlot asid) addr
  pure { lq := lq, asid := asid, addr := addr, base := bitsOf b 0 64, lgsz := bitsOf b 64 4, rd := bitsOf b 128 64, wr := bitsOf b 192 64
         enabled := b.testBit 256, overrun := b.testBit 257
         valid := bitsOf b 68 60 = 0 ∧ bitsOf b 258 254 = 0 ∧ 1 ≤ bitsOf b 64 4 ∧ bitsOf b 64 4 ≤ 12 ∧ bitsOf b 0 64 % 128 = 0 }

/-- The context whose launch queues include one, by its ASID (R250). -/
def State.queueOwner (s : State) (lq : Nat) : Option (Nat × Context) := s.contexts.find? fun e => decide (e.2.lq0 ≤ lq) && decide (lq < e.2.lq0 + e.2.nq)

/-- The device writes a field of a queue descriptor. -/
def putQueue (q : LaunchQ) (off n v : Nat) : M Unit := (deviceActor deviceSlot q.asid).storeNow (q.addr + BitVec.ofNat 64 off) n v

/-- A queue descriptor that the device can read and write (R237); otherwise the fault or the wait that it meets. -/
def usableQueue (asid : Nat) (c : Context) (lq : Nat) : M LaunchQ := do
  let q ← readQueue asid c lq
  probe (do
    let _ ← (deviceActor deviceSlot asid).place .store q.addr 64 (some false)
    pure ())
  pure q

/-- A registered queue that the device can read and write and that is enabled (R237); none otherwise. What waits stays waiting. A reserved
field that is nonzero by now does not matter to a doorbell (log 50). -/
def enabledQueue (lq : Nat) : M (Option LaunchQ) := do
  let s ← get
  match s.queueOwner lq with
  | none => pure none
  | some (asid, c) =>
    match ← attempt (usableQueue asid c lq) with
    | .ok q => pure (if q.enabled then some q else none)
    | .error (.trap ..) => pure none
    | .error e => throw e

/-- What became of a doorbell (R237, R284). -/
inductive Bell where
  | accepted | refused | dropped
  deriving DecidableEq, Repr

/-- Restart the count of cycles for which a queue's head has been its head (R278). -/
def newHead (lq : Nat) : M Unit := modify fun s => { s with heads := (List.range 4).foldl (fun m d => SMap.put m (4 * lq + d) 0) s.heads }

/-- Write the status byte of a queue descriptor: bit 0 enabled, bit 1 overrun. -/
def putQueueSt (q : LaunchQ) : M Unit := putQueue q 32 1 (q.enabled.toNat + 2 * q.overrun.toNat)

/-- A doorbell write of an index to a launch queue (R237, R383). The event of an overrun is posted by `post`. -/
def doorbell (lq w : Nat) (post : Nat → M Unit) : M Bell := do
  match ← enabledQueue lq with
  | none =>
    logError 3 lq (0x100000 + 8 * lq)
    pure .dropped
  | some q =>
    if q.overrun then pure .refused
    else if q.wr ≤ w ∧ w ≤ q.rd + 2 ^ q.lgsz then
      putQueue q 24 8 w
      if q.rd = q.wr ∧ q.wr < w then newHead lq else pure ()
      pure .accepted
    else
      post q.asid
      putQueueSt { q with overrun := true }
      pure .refused

/-- The host rings launch queue a with the index w (R237). -/
def execLaunchQueueDoorbell (s : State) : Host.Outcome State Fault Refusal :=
  event (do
    let s ← get
    let e := s.curEv
    let _ ← doorbell e.a e.w.toNat fun asid => postEvent asid 4 (BitVec.ofNat 64 e.a) 0 0) s

/-- `klaunch` (R284). -/
def execKlaunch (rd ra : SReg) (s : State) : Host.Outcome State Fault Refusal :=
  issue (do
    onlyX
    let va ← rS ra
    aligned va 16
    interlock va 16 false
    let a ← actor
    let j ← a.load .plain va 8
    let w ← a.load .plain (va + 8) 8
    let h ← getHart
    let answer (n : Nat) : M Unit := do
      wS rd (BitVec.ofNat 64 n)
      retire
    if 64 ≤ j then answer 3
    else
      let c ← getCtx h.asid
      if c.nq ≤ j then answer 2
      else
        match ← enabledQueue (c.lq0 + j) with
        | none => answer 2
        | some q =>
          settle .x .dev
          let r ← doorbell (c.lq0 + j) w fun asid => postHartEvent asid 4 0 h.slot (BitVec.ofNat 64 (c.lq0 + j)) 0 0
          answer (if r = .accepted ∨ w = q.wr then 0 else 1)) s

end Sys2Proof.Machine
end

