-- ==== Sys2Proof/Machine/Fetch.lean ====
section
/-! DEFINITION. Fetching a word for issue, the instruction cache, and which instruction a turn of a stream runs (R25 to R27,
R34 to R36, R258, log 9). -/

namespace Sys2Proof.Machine

/-- The key of a virtual word address in an instruction cache. -/
def icKey (asid va : Nat) : Nat := asid * 2 ^ 64 + va

/-- A stream that may issue: its hart is on its core and not stopped, no part of its kernel is missing (R365), and the
stream runs: the access stream unless it is idle, the execute stream unless the handler runs (R103, R259). -/
def State.mayIssue (s : State) (h : Hart) (st : StreamId) : Bool :=
  !h.stopped && h.halted.isNone && h.deadline != some 0 &&
  (match SMap.get? s.kernels h.kernel with
    | none => true
    | some k => !k.fab || (s.fabric.zipIdx.all fun e => !e.1.valid || k.reports.contains e.2 || decide (e.2 = s.self))) &&
  (match st with
    | .x => decide (h.priv = .u)
    | .a => h.arun)

/-- The word at an address, fetched from its home through the context's translations (R207, R215, R258, R385). -/
def fetchHome (a : Actor) (va : Word64) : M (Option Nat × Word32) := do
  let p ← a.place .fetch va 4 (some false)
  let s ← get
  if p.poisoned s 4 then trap 0x12 va
  else
    let v ← if p.garbled then freeBytes 4 else match p.loc with
      | .pa x => readPA p.key x 4
      | .ls c o => pure (s.ls.readLE (lsIndex c o) 4)
      | .peer f x => do
        if s.level ≠ .s2 then waitFor .level else sendFlit f (.load x 4)
        freeBytes 4
      | .nowhere _ => freeBytes 4
    pure ((match p.loc with | .pa x => some x | _ => none), BitVec.ofNat 32 v)

/-- The word at the issuing stream's program counter. A word fetched ahead is used while the cache holds it: an old word, or
the cause of a poisoned one (R27, R258); the cache may have evicted it. -/
def fetchWord : M Word32 := do
  let a ← actor
  let va ← curPc
  let s ← get
  let core := coreOfSlot s.curSlot
  match SMap.get? (s.core core).icache (icKey a.asid va.toNat) with
  | none => do
    let r ← fetchHome a va
    pure r.2
  | some held => do
    let evicted ← freeBool
    if evicted then
      modCore core fun c => { c with icache := SMap.del c.icache (icKey a.asid va.toNat) }
      let r ← fetchHome a va
      pure r.2
    else match held with
      | .poison c b => trap c va b
      | .word pa w => do
        let r ← fetchHome a va
        if r.1 = some pa then pure w else pure r.2

/-- A core is in service (R17). -/
def State.inService (s : State) (core : Nat) : Bool :=
  match s.level with
  | .s0 => false
  | .s1 => decide (core < 16)
  | .s2 => decide (core < 64)

/-- A stream of a deadlocked hart waits on a queue, its window or an `evwait`, or is idle (R235). -/
def stuck (w : Option Wait) : Bool := w == some .queue || w == some .window || w == some .evwait

/-- A place of a queue is reserved and still to be filled, also by an instruction that has stopped partway (R148, R235). -/
def Hart.filling (h : Hart) : Bool :=
  h.vq.toList.any (fun l => l.any fun p => match p with | .ready _ => false | _ => true) ||
    (h.q4 ++ h.q5).any fun p => match p with | .ready _ => false | _ => true

/-- A hart is deadlocked (R235). -/
def Hart.deadlocked (h : Hart) : Bool :=
  !h.stopped && stuck h.waitX && (!h.arun || stuck h.waitA) && h.transfers.isEmpty && !h.filling

/-- A hart over one cycle of its core: its yield deadline and its count of deadlocked cycles (R16, R235, R267). -/
def Hart.tick (h : Hart) : Hart :=
  { h with deadline := if h.stopped then h.deadline else h.deadline.map (· - 1), deadCount := if h.deadlocked then h.deadCount + 1 else 0 }

/-- A core's cycle passes: `cyc` and its harts' counts advance, each issue class is free again, and, with the first core of a die, what counts that
die's cycles: the dispatcher's heads and training ports (R14, R16, R94, R116, R278, R361, log 22). -/
def tickCore (core : Nat) (s : State) : State :=
  let s := s.modCore core fun c => { c with cyc := c.cyc + 1, issued := [], unready := 0 }
  let s := { s with harts := s.harts.map fun e => if coreOfSlot e.1 = core then (e.1, e.2.tick) else e }
  if core % 16 = 0 then
    { s with
      heads := s.heads.map fun e => if e.1 % 4 = core / 16 then (e.1, e.2 + 1) else e
      voltor := s.voltor.mapIdx fun p v => if p / 2 = core / 16 ∧ v.state = .training then { v with cycles := v.cycles + 1 } else v }
  else s

/-- What a stream runs next, and the state it runs in; none while its fetch waits, or while its instruction waits for a register whose value S1 holds
back (R20). -/
def fetched (slot : Nat) (st : StreamId) (s : State) : Option (Instr × State) :=
  let s := { s with curSlot := slot, curStream := st, curWord := 0, curFetch := (0, 0), curStop := none }
  match fetchWord s with
  | .ok w s' =>
    let s' := { s' with curWord := w }
    match decodeWord w.toNat with
    | .instr i => if s'.awaits slot st i then none else some (i, s')
    | .null => some (.nullFetch, s')
    | .illegal _ => some (.illegalInstruction, s')
  | .error (.trap c _ b _) s' => some (.fetchForIssueFault, { s with curFetch := (c, b), freeCtr := s'.freeCtr })
  | .error _ _ => none

/-- The class of a word that the execute stream issues: a form of chapter 6 is a vector one. The forms that neither R94 nor R116 names are taken as
scalar ones (log 1). -/
def wordClass (w : Nat) : IssueClass :=
  let op := fld w 0 7
  if (0x40 ≤ op ∧ op ≤ 0x45) ∨ (0x54 ≤ op ∧ op ≤ 0x57) then .vector else .scalar

/-- The class of what a stream issues next (R94, R116). -/
def State.issueClass (s : State) (h : Hart) (st : StreamId) : IssueClass :=
  match st with
  | .a => .access
  | .x => (fetched h.slot .x s).elim .scalar fun r => wordClass r.2.curWord.toNat

/-- The operands of a stream's next instruction are not there in this cycle (R94, R298). -/
def State.masked (s : State) (h : Hart) (st : StreamId) : Bool :=
  (s.core (coreOfSlot h.slot)).unready.testBit (h.slot % 16 + match st with | .x => 0 | .a => 16)

/-- A stream is ready: it may issue and has what it needs, and its last turn did not find it waiting (R298). -/
def State.ready (s : State) (h : Hart) (st : StreamId) : Bool :=
  s.mayIssue h st && !s.masked h st && (fetched h.slot st s).isSome && (match st with
    | .x => h.waitX.isNone
    | .a => h.waitA.isNone)

/-- The effective priority at which the kernel of a hart was dispatched (R278, R298). -/
def State.priority (s : State) (h : Hart) : Nat := (SMap.get? s.kernels h.kernel).elim 0 Kernel.prio

/-- Another hart of a hart's core has a stream ready in a class, and meets a condition. -/
def State.rival (s : State) (h : Hart) (c : IssueClass) (f : Hart → Bool) : Bool :=
  s.harts.any fun e => decide (coreOfSlot e.1 = coreOfSlot h.slot) && decide (e.1 ≠ h.slot) && f e.2 &&
    [StreamId.x, .a].any fun st => s.ready e.2 st && decide (s.issueClass e.2 st = c)

/-- How far the place of a hart lies behind the one that issued last in a class (R298). -/
def State.distance (s : State) (h : Hart) (c : IssueClass) : Nat :=
  (h.slot % 16 + 31 - (s.core (coreOfSlot h.slot)).lastPlace.toList.getD c.num 15) % 16

/-- The core chooses a stream in a class: among the ready ones of the highest priority present it is the next in rotation by ascending place; one whose
last turn found it waiting tries again in its place among them (R298). -/
def State.chosen (s : State) (h : Hart) (st : StreamId) (c : IssueClass) : Bool :=
  s.mayIssue h st && !s.masked h st && !s.rival h c fun g => decide (s.priority h < s.priority g) ||
    decide (s.priority h = s.priority g) && decide (s.distance g c < s.distance h c)

/-- A ready stream of a core has not issued in this cycle though its class is still free in it (R298). -/
def State.owes (s : State) (core : Nat) : Bool :=
  s.harts.any fun e => decide (coreOfSlot e.1 = core) && [StreamId.x, .a].any fun st =>
    s.ready e.2 st && !(s.core core).issued.contains (s.issueClass e.2 st)

/-- The state in the cycle in which a class of a core can issue: the present one, or the next when the class has issued in it, which begins once no
other class owes an issue (R94, R116, R298). -/
def State.cycleFor (s : State) (core : Nat) (c : IssueClass) : Option State :=
  if !(s.core core).issued.contains c then some s
  else if s.owes core then none
  else some (tickCore core s)

/-- An operation of a class issues from a slot (R298). -/
def State.charge (s : State) (slot : Nat) (c : IssueClass) : State :=
  s.modCore (coreOfSlot slot) fun k => { k with issued := c :: k.issued, lastPlace := vput k.lastPlace c.num (slot % 16) }

/-- What the turn of a stream runs, and the state it runs in; none when the stream may not issue, has not what it needs, or is not the one its core
chooses (R94, R116, R298, log 1). -/
def fetchTurn (slot : Nat) (st : StreamId) (s : State) : Option (Instr × State) := do
  let h ← SMap.get? s.harts slot
  let c := s.issueClass h st
  let s ← s.cycleFor (coreOfSlot slot) c
  let h ← SMap.get? s.harts slot
  if s.chosen h st c then
    let (i, s') ← fetched slot st s
    some (i, s'.charge slot c)
  else none

/-- The stream that can issue a word placed for a test: the access stream for the forms only it may issue (R44). -/
def wordStream (w : Nat) : StreamId :=
  match fld w 0 7 with
  | 0x5A | 0x5C => .a
  | 0x64 => if fld w 22 10 ≤ 6 then .a else .x
  | 0x38 => if fld w 16 4 = 4 then .a else .x
  | _ => .x

/-- A leaf for a test page: valid, 64 KiB, H, with every permission and A set, naming a frame (R206). -/
def testLeaf (frame : Nat) : Nat := frame + 0x7C3

/-- The virtual address of the page a word is placed in. -/
def testVa : Nat := 0x4000000000

/-- The device in S2 with one context, one kernel and one hart at place 0 of core 0, its page tables mapping one page at
`testVa`, at the start of whose frame a word stands, and the turn of the stream that issues it (log 2). -/
def State.loaded (s : State) (hart : Hart) (w : Nat) : State :=
  let m := s.mem
  let m := m.writeLE (0x10000 + 16 * bitsOf testVa 46 10) 0x14001 16
  let m := m.writeLE (0x14000 + 16 * bitsOf testVa 36 10) 0x18001 16
  let m := m.writeLE (0x18000 + 16 * bitsOf testVa 26 10) 0x1C001 16
  let m := m.writeLE (0x1C000 + 16 * bitsOf testVa 16 10) (testLeaf 0x20000) 16
  let m := m.writeLE 0x20000 w 4
  { s with
    mem := m, level := .s2
    contexts := SMap.put s.contexts 1
      { desc := 0x30000, root := 0x10000, key := 0, mg := true, prio := 7, parent := 0xFFFF, lq0 := 0, nq := 0, state := .running
        parked := false, closing := none, fault := none, waiters := [], forced := 0, drains := 0 }
    kernels := SMap.put s.kernels 1
      { asid := 1, kid := 1, dmask := 1, slots := [0], cores := [(0, 0)], lsb := 2 ^ 20, planes := 2, prio := 0, cpl := 0, ended := 0
        hadPred := false, fab := false, reports := [], born := 1 }
    harts := SMap.put s.harts 0 hart
    agenda := [.issue 0 (wordStream w)] }

end Sys2Proof.Machine
end

