-- ==== Sys2Proof/Machine/Background.lean ====
section
/-! DEFINITION. What happens in the background: prefetch fills, the eviction engine, queue deadlock, fetching ahead, stores that
perform, cycles, and ECC and thermal events (R14, R27, R143, R163 to R165, R218, R219, R235, R258, R382, R384). -/

namespace Sys2Proof.Machine

/-- The fill at position b of core a's prefetches arrives: it is installed, or dropped when its page is no longer in H (R159, R219). -/
def execPrefFillArrival (s : State) : Host.Outcome State Fault Refusal :=
  event (do
    let s ← get
    let core := s.curEv.a
    match (s.core core).prefetches[s.curEv.b]? with
    | none => impossible
    | some p => do
      modCore core fun c => { c with prefetches := c.prefetches.eraseIdx s.curEv.b }
      let e ← hwRead p.leaf 16
      if e % 4 = 3 ∧ bitsOf e 13 3 = 0 ∧ p.toL1 then installL1 core p.key p.sector else pure ()) s

/-- The HBM frames of a die (R210). -/
def framesPerDie : Nat := 0x180000

/-- How many entries a ring holds (R213, R214). -/
def ringCount (ring : Nat) : M Nat := do
  let head ← pcbWord (ringBase ring + 16)
  let tail ← pcbWord (ringBase ring + 24)
  pure ((tail.getD 0 + 2 ^ 64 - head.getD 0) % 2 ^ 64)

/-- A frame whose record lets the eviction engine look at its page (R218). -/
def FrameRec.candidate (r : FrameRec) : Bool :=
  r.valid && r.evictable && !r.frozen && !r.moving && decide (r.count = 1) && decide (r.pins = 0) && decide (r.owner ≠ 0)

/-- The eviction engine examines a frame: it clears A, or demotes the page (R218, R219). -/
def examineFrame (frame tier : Nat) : M Unit := do
  match ← frameRec frame with
  | none => pure ()
  | some r =>
    if !r.candidate then pure ()
    else
      let e ← hwRead r.owner 16
      let l := Leaf.of r.owner [r.owner] e
      let ok ← leafValid l
      let busy ← busyLeaf l.addr
      if e % 4 = 3 ∧ ok ∧ l.frame = frame ∧ l.size = 2 ^ 16 ∧ l.tier = 0 ∧ !busy then
        if l.a then do
          awaitEntry l.addr 16
          putLeaf l l.frame l.tier false
        else
          let id ← newId
          let _ ← beginMove { id := id, asker := none, asid := 0, promote := false, pin := false, leaf := l.addr, oldFrame := frame, oldTier := 0
                              newTier := tier, target := 0, late := false } l r
      else pure ()

/-- The eviction engine of die a looks at its ring, and, while it sweeps, at the frame at its hand (R20, R213, R218). -/
def execEvictionSweep (s : State) : Host.Outcome State Fault Refusal :=
  event (do
    let s ← get
    let die := s.curEv.a
    if s.level ≠ .s2 ∨ s.pcb.isNone ∨ 4 ≤ die then impossible
    else
      let set' (on : Bool) : M Unit := modify fun s => { s with sweeping := vput s.sweeping die on }
      let n ← ringCount die
      let wm ← pcbWord (0x20 + 16 * die)
      let wm := wm.getD 0
      match ← demotionTier with
      | none => set' false
      | some tier =>
        if !s.sweeping.getD die false then
          if n < bitsOf wm 0 32 then set' true else impossible
        else if bitsOf wm 32 32 ≤ n then set' false
        else
          let hand := s.hands.getD die 0
          examineFrame (die * framesPerDie * 2 ^ 16 + hand * 2 ^ 16) tier
          modify fun s => { s with hands := vput s.hands die ((hand + 1) % framesPerDie) }) s

/-- The hart at slot a has been deadlocked for 64 cycles: it traps in the execute stream, with its waiting instruction's word (R235). -/
def execQueueDeadlock (s : State) : Host.Outcome State Fault Refusal :=
  event (do
    let s ← get
    let slot := s.curEv.a
    match SMap.get? s.harts slot with
    | none => impossible
    | some h =>
      if h.deadlocked ∧ 64 ≤ h.deadCount then
        asHart slot .x (trapEntry 0x0E (h.wordX.setWidth 64) 0)
      else impossible) s

/-- The words of the line of an instruction word: 256 bytes (log 9). -/
def lineWords (va : Nat) : List Nat := (List.range 64).map fun i => va / 256 * 256 + 4 * i

/-- Fetch runs ahead for the hart at slot a: the word at an address is held, or a condition met poisons its line (R27, R258). -/
def execInstructionFetchAhead (s : State) : Host.Outcome State Fault Refusal :=
  event (do
    let s ← get
    let e := s.curEv
    let va := e.w.toNat / 4 * 4
    match SMap.get? s.harts e.a with
    | none => impossible
    | some h =>
      let put (va : Nat) (w : IWord) : M Unit := modCore (coreOfSlot e.a) fun c => { c with icache := SMap.put c.icache (icKey h.asid va) w }
      match ← attempt (asHart e.a .x (do
        let a ← actor
        fetchHome a (BitVec.ofNat 64 va))) with
      | .ok (some pa, w) => put va (.word pa w)
      | .ok (none, _) => pure ()
      | .error (.trap c _ b _) => each (lineWords va) fun x => put x (.poison c b)
      | .error _ => impossible) s

/-- An atomic that S1 held performs: the access is made as it would have been at issue, its translation and poison met now; what it then
meets cannot be reported, and its old value is free (log 27). -/
def heldAtomic (a : Actor) (va : Word64) (n : Nat) (op : AmoOp) (b e : Nat) : M Nat := do
  match ← attempt (a.atomic va n op b e) with
  | .ok old => pure old
  | .error (.trap ..) => freeBytes n
  | .error x => throw x

/-- A `frref` that S1 held performs on the count of the frame that holds its address now (R229, log 27). -/
def heldCount (root va : Nat) (d : Word64) : M Word64 := do
  match ← walk root va with
  | .leaf l =>
    match ← frameRec (l.frame + va % l.size / 2 ^ 16 * 2 ^ 16) with
    | some r => if r.moving then waitFor .move else countOf r d
    | none => freeWord
  | _ => freeWord

/-- Work that S1 held is performed: in S2, the oldest of its stream first, a release after every earlier access of the stream; the
registers that wait for it receive its value (R20, R157). -/
def performHeld (i : Nat) : M Unit := do
  let s ← get
  match s.held[i]? with
  | none => impossible
  | some w =>
    match SMap.get? s.harts w.slot with
    | none => impossible
    | some h =>
      if s.level ≠ .s2 ∨ (s.held.take i).any (fun v => v.of w.slot w.stream) then impossible
      else if w.releases ∧ h.transfers.any fun t => w.after.contains t.id then impossible
      else
        set { s with held := s.held.eraseIdx i }
        asHart w.slot w.stream (do
          if w.releases then do
            drain fun p => p.precedes w.slot w.stream
            let s ← get
            if s.pending.any fun p => p.precedes w.slot w.stream then impossible else pure ()
          else pure ()
          let a := { s.actor h w.stream with user := false }
          match w.work with
          | .load => match w.loc with
            | .peer f x => if s.peerWaits f 1 then impossible else sendFlit f (.load x w.len)
            | _ => pure ()
          -- an instruction held as a whole has a turn of its own
          | .whole .. => impossible
          | .atomic va n op b e => do
            let old ← heldAtomic a va n op b e
            each w.regs fun r => match r with
              | .s rd => modHart fun h => h.setS w.stream (Fin.ofNat 32 rd) (BitVec.ofInt 64 (if n = 4 then signedOf 32 old else old))
              | _ => pure ()
          | .count va d => do
            let c ← getCtx h.asid
            let v ← heldCount c.root va.toNat d
            each w.regs fun r => match r with
              | .s rd => modHart fun h => h.setS w.stream (Fin.ofNat 32 rd) v
              | _ => pure ()
          if w.acquires then refreshPoint w.stream else pure ())

/-- The store in flight at position a performs (R163), or, if so decided, the work at position a that S1 held (R20). -/
def execStorePerform (s : State) : Host.Outcome State Fault Refusal :=
  event (do
    let s ← get
    let i := s.curEv.a
    if s.curEv.yes then performHeld i
    else match s.pending[i]? with
    | none => impossible
    | some p =>
      if (s.pending.take i).any (fun q => q.before p) || (s.kept[i]?).any Prod.snd then impossible
      else
        set { s with pending := s.pending.eraseIdx i }
        perform s.pending.length p) s

/-- A hart after a cycle in which a lane group of it waited on a bank: the count stops at all ones (R56, R67). -/
def Hart.countRfc (h : Hart) : Hart := { h with rfc := BitVec.ofNat 32 (min (h.rfc.toNat + 1) (2 ^ 32 - 1)) }

/-- A record of a core's record cache takes the value that it has at its home now (R242). -/
def refreshRecord (core i : Nat) : M Unit := do
  let s ← get
  match (s.core core).rcache[i]? with
  | none => pure ()
  | some (key, _) =>
    let put (b : Nat) : M Unit := modCore core fun c => c.cacheRecord key b
    match keyKernel key with
    | none =>
      match ← attempt (read64 (deviceActor deviceSlot (keyAsid key)) (BitVec.ofNat 64 key)) with
      | .ok b => put b
      | .error _ => pure ()
    | some num =>
      match (SMap.get? s.kernels num).bind fun k => (SMap.get? k.cores core).map fun base => (base, k.lsb) with
      | none => pure ()
      | some (base, size) =>
        let off := key % 2 ^ 64 - windowBase
        if off + 64 ≤ size ∧ !s.lsPoisoned core (base + off) 64 then put (s.ls.readLE (lsIndex core (base + off)) 64) else pure ()

/-- A cycle of core a passes, once no ready stream of it still has to issue in the present one (R14, R94, R298). The bits of c say which streams' operands
are not there yet in the next. Bit i of w says that a lane group of the hart at place i waits on a bank in it, which only one whose
instruction's sources meet in a bank can do (R67). If so decided, record b of the core's record cache takes its present value (R242). -/
def execCycleCounterAdvance (s : State) : Host.Outcome State Fault Refusal :=
  event (do
    let s ← get
    let e := s.curEv
    if s.inService e.a ∧ !s.owes e.a then
      set (tickCore e.a s)
      modCore e.a fun k => { k with unready := e.c }
      modify fun s => { s with harts := s.harts.map fun (slot, h) =>
        (slot, if coreOfSlot slot = e.a && h.live && h.banks && e.w.getLsbD (slot % 16) then h.countRfc else h) }
      if e.yes then refreshRecord e.a e.b else pure ()
    else impossible) s

/-- A soft error of unit a is corrected; it is counted in the log under an address that the spec does not state (R382, R383). If so
decided, no spare of the kind remains for the unit, which the log shows too (R24, R380). -/
def execEccCorrected (s : State) : Host.Outcome State Fault Refusal :=
  event (do
    let s ← get
    let w ← freeWord
    logError 1 s.curEv.a w.toNat
    if s.curEv.yes then logError 6 s.curEv.a w.toNat else pure ()) s

/-- The cells that share a 64-bit word with one, where a cell takes w bits (R382, log 38). -/
def wordCells (w x : Nat) : List Nat := (List.range (64 / w)).map fun i => x / (64 / w) * (64 / w) + i

/-- A weight plane with the word of a cell poisoned (R382). -/
def WPlane.poisonWord (p : WPlane) (x : Nat) : WPlane := { p with poison := (wordCells (Fmt.ew p.fmt) x).foldl addNum p.poison }

/-- A core's array with the word of a cell poisoned: 2 an accumulator plane, numbered 2^16 × plane + cell, 3 the active and 4 the
shadow weight plane (R382). -/
def Matrix.poisonCell (m : Matrix) (place x : Nat) : Matrix :=
  match place with
  | 2 =>
    let a := m.acc.getD (x / 2 ^ 16 % 2) { cells := [], poison := [] }
    { m with acc := vput m.acc (x / 2 ^ 16 % 2) { a with poison := (wordCells 32 (x % 2 ^ 16)).foldl addNum a.poison } }
  | 3 => { m with active := m.active.poisonWord (x % 2 ^ 16) }
  | _ => { m with shadow := m.shadow.poisonWord (x % 2 ^ 16) }

/-- An L1 copy with one of its 64-bit words poisoned (R382). -/
def L1Line.poisonWord (line : L1Line) (w : Nat) : L1Line := { line with poison := addNum line.poison w }

/-- A core whose instruction cache holds two words under an error: each that it holds raises uncorrectable instruction when it is fetched for
issue (R258, R382). -/
def Core.poisonFetch (c : Core) (keys : List Nat) : Core :=
  { c with icache := c.icache.map fun e => if keys.contains e.1 then (e.1, .poison 0x12 0) else e }

/-- An uncorrectable error, by place b: 0 the sector of memory at physical address a; 1 the word of a local store at 2^20 × core + offset a; 2 to 4
cell a of a plane of core c's array; 5 the word at physical address a of the copy that core c's L1 holds; 6 a word of the vector file, bits 64a on
of vector register d of the hart at slot c, which the rules give no trap: it holds unspecified bits (log 38); 7 the word at physical address a in
the slice that holds it; 8 the two instruction words of context d that core c's instruction cache holds at the doubleword of w; 9 word d of record a
of core c's record cache. It is logged with the physical address where it has one, under the core or the slice; the rest of its record is not stated
(R382, R383, log 5). A load of a sector whose home is poisoned raises 0x11 from then on, also where R143 would let an older sound copy of it
serve: no copy stays (log 38). -/
def execEccUncorrectable (s : State) : Host.Outcome State Fault Refusal :=
  event (do
    let s ← get
    let e := s.curEv
    let other ← freeWord
    match e.b with
    | 0 => do
      modify fun s => { s with poison := addNum s.poison (e.a / 32) }
      dropEverywhere [e.a / 32]
      logError 2 other.toNat e.a
    | 1 => do
      modify fun s => { s with lsPoison := addNum s.lsPoison (e.a / 8) }
      logError 2 (e.a / 2 ^ 20) other.toNat
    | 5 => match SMap.get? (s.core e.c).l1 (e.a / 32) with
      | none => impossible
      | some line => do
        modCore e.c fun c => { c with l1 := SMap.put c.l1 (e.a / 32) (line.poisonWord (e.a / 8 % 4)) }
        logError 2 e.c e.a
    | 6 =>
      match SMap.get? s.harts e.c with
      | none => impossible
      | some h => do
        let v ← freeWord
        let bits := putBits (h.vbitsOf e.d) (64 * e.a) 64 v.toNat % 2 ^ h.vbits
        modify fun s => { s with harts := SMap.put s.harts e.c (h.setContent .v e.d bits) }
        logError 2 (coreOfSlot e.c) other.toNat
    | 7 => do
      modify fun s => { s with slicePoison := addNum s.slicePoison (e.a / 8) }
      logError 2 (other.toNat % 128) e.a
    | 8 => do
      let va := e.w.toNat / 8 * 8
      modCore e.c fun c => c.poisonFetch [icKey e.d va, icKey e.d (va + 4)]
      logError 2 e.c other.toNat
    | 9 => match (s.core e.c).rcache[e.a]? with
      | none => impossible
      | some (key, _) => do
        modCore e.c fun c => { c with rpoison := (key, e.d % 8) :: c.rpoison }
        logError 2 e.c other.toNat
    | k => do
      modCore e.c fun c => { c with mat := c.mat.poisonCell k e.a }
      logError 2 e.c other.toNat) s

/-- The clock of die a goes a step of 125 MHz down, or up again: between 875 MHz and what the service level gives (R17, R384). -/
def execThermalLimit (s : State) : Host.Outcome State Fault Refusal :=
  event (do
    let s ← get
    let die := s.curEv.a
    let top := if s.level = .s2 then 1750 else 875
    let now := s.clock.getD die 875
    if 4 ≤ die then impossible
    else if s.curEv.yes then
      if now + 125 ≤ top then set { s with clock := vput s.clock die (now + 125) } else impossible
    else if 875 + 125 ≤ now then set { s with clock := vput s.clock die (now - 125) } else impossible) s

end Sys2Proof.Machine
end

