-- ==== Sys2Proof/Machine/HartStart.lean ====
section
/-! DEFINITION. A hart at its start: the start values of R47, R54, R56, R80, R251 and R283. -/

namespace Sys2Proof.Machine

/-- The generators seeded (R80). -/
def seedGen (seed : BitVec 32) : Vector (BitVec 32) 256 :=
  Vector.ofFn fun j =>
    let g := seed + BitVec.ofNat 32 ((j.val + 1) * 0x9E3779B9)
    if g = 0 then 1 else g

/-- A hart at hart start (R283). Vector, predicate and scale registers have no contents before the first `setvl`, which
clears them (R48): their bits are DESIGN CHOICE (log 4), and so is the residency before it (log 26). -/
def Hart.start (slot asid kernel : Nat) (xentry arg : Word64) (grant req : Nat) (gcoord : Word64) (groups : Vector Nat 4)
    (thandler tstack ewin : Word64) (tick : Nat) : Hart :=
  { slot := slot, asid := asid, kernel := kernel
    xs := (Vector.replicate 32 0).set 1 arg, as := (Vector.replicate 32 0).set 1 arg
    xpc := pcBits xentry, apc := 0, arun := false, priv := .u, win := false, vl := 0, vt := 0, md := 0
    v := Vector.replicate 64 { bits := 0, tag := none }, p := Vector.replicate 64 0, k := Vector.replicate 16 0
    d := Vector.replicate 8 { base := 0, nodes := [] }, b := Vector.replicate 8 0
    vq := Vector.replicate 4 [], q4 := [], q5 := [], q6 := [], q7 := [], sp := Vector.replicate 4 []
    resumeA := 0, resumeX := 0, grant := grant, req := req, gcoord := gcoord, agc := 0, rfc := 0, banks := false
    nanpc := 0, nanv := false, nanelem := 0, nanSeq := 0, nanArm := 0, rseed := 0, gen := seedGen 0
    ecause := 0, epc := 0, etval := 0, estream := false, estatus := { pvt := 0, pmd := 0, pvl := 0, ppriv := .u, sub := 0 }
    thandler := thandler &&& ~~~3#64, tstack := tstack, ewin := ewin &&& ~~~0xFFFF#64
    vres := List.range 64, vdirty := [], vorder := List.range 64, pres := List.range 64, pdirty := [], porder := List.range 64
    vslot := Vector.replicate 64 0, pslot := Vector.replicate 64 0, vplace := Vector.replicate 64 0
    strip := 0, tagCtr := 0, deadline := none, triggered := false, pend := 0, sync := 0, arrival := none, splitDone := none, syncDone := 0, firstWait := none
    groups := groups, transfers := [], records := [], waitA := none, waitX := none, wordX := 0, openA := none, waitCap := none, deadCount := 0
    refA := tick, refX := tick, stopped := false, coop := false, halted := none, retake := false, entered := []
    acked := false, image := [] }

end Sys2Proof.Machine
end

