-- ==== Sys2Proof/Machine/Length.lean ====
section
/-! DEFINITION. The vector length, the lane grant and the mode: `setvl`, `mode` and `vrelease` (R48 to R61, R117 to R119,
R290). -/

namespace Sys2Proof.Machine

/-- The harts in the lane allocation table of a core (R57). -/
def State.coreHarts (s : State) (core : Nat) : List Hart := (s.harts.filter fun e => decide (coreOfSlot e.1 = core) && !e.2.acked).map Prod.snd

/-- The free lane groups of a core (R57). -/
def State.freeGroups (s : State) (core : Nat) : Nat := 16 - ((s.coreHarts core).map Hart.grant).sum

/-- The cap of a `setvl`'s grant (R58). -/
def State.grantCap (s : State) (h : Hart) : Nat :=
  let others := (s.coreHarts (coreOfSlot h.slot)).filter fun o => decide (o.slot ≠ h.slot)
  let n := (others.filter fun o => decide (1 ≤ o.grant) || decide (o.grant < o.req)).length + 1
  if others.any fun o => decide (o.grant < o.req) then max 1 (16 / n) else 16

/-- The grant of a `setvl` under a cap; 0 when it must wait (R58). -/
def State.decideGrant (s : State) (h : Hart) (want cap : Nat) : Nat := min (min want (h.grant + s.freeGroups (coreOfSlot h.slot))) cap

/-- Decide the lane grant; with no group held and none free the instruction waits, its request noted and its cap fixed (R58). -/
def laneGrant (lg : Nat) : M Nat := do
  let h ← getHart
  if lg = 0 ∧ 1 ≤ h.grant then pure h.grant
  else
    let want := if lg = 0 then 1 else lg
    let s ← get
    let cap := h.waitCap.getD (s.grantCap h)
    let g := s.decideGrant h want cap
    if g = 0 then
      setHart { h with req := want, waitCap := some cap }
      keeping (waitFor .grant)
    else
      setHart { h with req := want, waitCap := none }
      pure g

/-- A hart whose vector state becomes live: every register zero, tagged, and dirty (R48, R64). -/
def Hart.vectorsCleared (h : Hart) (fmt : Fmt) : Hart :=
  { h with
    v := Vector.replicate 64 { bits := 0, tag := some fmt }, p := Vector.replicate 64 0, k := Vector.replicate 16 0
    vres := List.range 64, vdirty := List.range 64, vorder := List.range 64
    pres := List.range 64, pdirty := List.range 64, porder := List.range 64 }

/-- A hart under a vector type and a grant: each string keeps its low bits, and what is above the old length reads zero
(R61). -/
def Hart.relength (h : Hart) (vt : BitVec 8) (grant : Nat) : Hart :=
  let h' := { h with vt := vt, grant := grant }
  { h' with
    v := h.v.map fun r => { r with bits := r.bits % 2 ^ h'.vbits }
    p := h.p.map fun b => b % 2 ^ h'.vlmax
    k := h.k.map fun b => b % 2 ^ (8 * ((h'.vlmax + vtBl vt - 1) / vtBl vt))
    vslot := h.vslot.map fun n => min n h'.vbits
    pslot := h.pslot.map fun n => min n h'.vlmax }

/-- The registers that no longer fit are written back (R64). -/
def evictBoth (vt : BitVec 8) : M Unit := do
  evictDown .v (vectorSlots vt) 64
  evictDown .p (predicateSlots vt) 64

/-- Where every register of a file is to be resident, those that are not are read back (R64). -/
def fillUp (vt : BitVec 8) (f : RFile) : M Unit := do
  let h ← getHart
  if fileSlots vt f < 64 then pure ()
  else each ((List.range 64).filter fun x => !(h.resident f).contains x) (spillIn f)

/-- The residency that a vector type asks for: registers that no longer fit are written back, and where all fit the others are read back
(R64). -/
def adjustBoth (vt : BitVec 8) : M Unit := do
  evictBoth vt
  fillUp vt .v
  fillUp vt .p

/-- The resident registers lie in other slots once a vector type of another number of slots is in force, or the vector state has become live
(R67). -/
def replace (vt : BitVec 8) (old : Hart) : M Unit :=
  if old.live ∧ vectorSlots vt = vectorSlots old.vt then pure () else placeAll

/-- The length a `setvl` grants (R117). -/
def grantedLength (n : Word64) (vlmax : Nat) : Nat := if n.toInt ≤ 0 then 0 else min n.toNat vlmax

/-- Run a part whose swaps stand when it faults, the hart as it was given (R65). -/
def swapsStand (h : Hart) (x : M Unit) : M Unit := fun s =>
  match x s with
  | .error (.trap c v b _) s' => .error (.trap c v b true) (s'.putHart h)
  | r => r

/-- `setvl` (R117). A swap that faults leaves `vt`, `vl`, the grant and sd unchanged (R65). -/
def execSetvl (rd ra : SReg) (fmt : Fmt) (dc : Depth) (ftz bl : Bool) (lg : Fin 17) (s : State) : Host.Outcome State Fault Refusal :=
  issue (do
    onlyX
    let n ← rS ra
    let vt := vtOf fmt dc ftz bl
    let h ← getHart
    if h.live then keeping (adjustBoth vt) else pure ()
    let g ← laneGrant lg.val
    modHart fun h' => if h.live then h'.relength vt g else (h'.vectorsCleared fmt).relength vt g
    if h.live then pure () else swapsStand h (evictBoth vt)
    replace vt h
    modHart fun h' => { h' with vl := BitVec.ofNat 17 (grantedLength n h'.vlmax), strip := h'.strip + 1 }
    let h' ← getHart
    wS rd (h'.vl.setWidth 64)
    retire) s

/-- `mode` (R119). -/
def execMode (g : Option PRegNo) (rm : Rm) (sat : Bool) (s : State) : Host.Outcome State Fault Refusal :=
  issue (do
    onlyX
    modHart fun h => { h with md := mdOf g rm sat }
    retire) s

/-- The state in which a hart's spill window is no longer the hardware's (R66). -/
def State.windowFree (s : State) (asid slot : Nat) : State :=
  { s with hits := s.hits.filter (fun e => !(decide (e.asid = asid) && decide (e.slot = slot)))
           spilled := s.spilled.filter fun e => !(decide (e.asid = asid) && decide (e.slot = slot)) }

/-- `vrelease`: the hart's lane groups are free and its vector state is dead; while it is dead, nothing (R48, R290). -/
def execVrelease (s : State) : Host.Outcome State Fault Refusal :=
  issue (do
    onlyX
    let h ← getHart
    if h.live then
      setHart { h with grant := 0, vl := 0, vt := 0 }
      modify fun s => s.windowFree h.asid h.slot
    else pure ()
    retire) s

end Sys2Proof.Machine
end

