-- ==== Sys2Proof/Machine/System.lean ====
section
/-! DEFINITION. The system forms: calls, traps and returns, yield, fences, and the control and status registers (R54 to R56,
R108 to R110, R158, R253, R257 to R263, R267), and what a word that is no instruction raises (R34, R35, R258). -/

namespace Sys2Proof.Machine

/-- `nanlane` as a word (R56). -/
def Hart.nanlane (h : Hart) : Word64 := (if h.nanv then 0x8000000000000000 else 0) ||| h.nanelem.setWidth 64

/-- `lanes` as a word (R56). -/
def Hart.lanesWord (h : Hart) : Word64 := BitVec.ofNat 64 (h.grant % 32 + 256 * (h.req % 32))

/-- A CSR that the execute stream alone may access, or the access stream alone (R54). -/
def csrOnly : Csr → Option StreamId
  | .vl | .vt | .md | .nanpc | .nanlane | .rseed => some .x
  | .xresume => some .a
  | .tl | .resume | .lanes | .gcoord | .cyc | .bankc | .ecause | .epc | .etval | .estream | .estatus | .thandler | .tstack | .ewin => none

/-- The U view has no access (R54). -/
def csrSupervisor : Csr → Bool
  | .ecause | .epc | .etval | .estream | .estatus | .thandler | .tstack | .ewin | .xresume => true
  | .vl | .vt | .md | .tl | .resume | .lanes | .gcoord | .cyc | .bankc | .nanpc | .nanlane | .rseed => false

/-- Read-only in both views (R54). -/
def csrReadOnly : Csr → Bool
  | .vl | .vt | .tl | .lanes | .gcoord | .cyc | .nanpc => true
  | .md | .resume | .bankc | .nanlane | .rseed | .ecause | .epc | .etval | .estream | .estatus | .thandler | .tstack | .ewin
  | .xresume => false

/-- The value a CSR reads (R54, R56, R109). -/
def Hart.csr (h : Hart) (st : StreamId) (cyc : Word64) : Csr → Word64
  | .vl => h.vl.setWidth 64
  | .vt => h.vt.setWidth 64
  | .md => h.md.setWidth 64
  | .tl => 256
  | .resume => h.resume st
  | .lanes => h.lanesWord
  | .gcoord => h.gcoord
  | .cyc => cyc
  | .bankc => h.agc ++ h.rfc
  | .nanpc => h.nanpc
  | .nanlane => h.nanlane
  | .rseed => h.rseed.setWidth 64
  | .ecause => h.ecause.setWidth 64
  | .epc => h.epc
  | .etval => h.etval
  | .estream => if h.estream then 1 else 0
  | .estatus => h.estatus.word
  | .thandler => h.thandler
  | .tstack => h.tstack
  | .ewin => h.ewin
  | .xresume => h.resumeX

/-- A hart with a CSR written; reserved bits ignore the write, and a read-only register keeps its value (R6, R54, R56, R81). -/
def Hart.setCsr (h : Hart) (st : StreamId) (v : Word64) : Csr → Hart
  | .md => { h with md := v.setWidth 11 }
  | .resume => h.setResume st v
  | .bankc => { h with agc := v.extractLsb' 32 32, rfc := v.setWidth 32 }
  | .nanlane => if v.getLsbD 63 then h else { h with nanv := false, nanelem := 0, nanpc := 0 }
  | .rseed => { h with rseed := v.setWidth 32, gen := seedGen (v.setWidth 32) }
  | .ecause => { h with ecause := v.setWidth 8 }
  | .epc => { h with epc := v }
  | .etval => { h with etval := v }
  | .estream => { h with estream := v.getLsbD 0 }
  | .estatus => { h with estatus := .ofWord v }
  | .thandler => { h with thandler := v &&& ~~~3#64 }
  | .tstack => { h with tstack := v }
  | .ewin => { h with ewin := v &&& ~~~0xFFFF#64 }
  | .xresume => { h with resumeX := v }
  | .vl | .vt | .tl | .lanes | .gcoord | .cyc | .nanpc => h

/-- The checks of a CSR access, in the order in which R55 numbers them, the stream first (R55, log 53). -/
def csrChecks (csr : Csr) (writes : Bool) : M Unit := do
  let st ← curStream
  let h ← getHart
  if (csrOnly csr).any (· ≠ st) then trapWord 0x03
  else if csrSupervisor csr && decide (h.priv = .u) then trapWord 0x04
  else if writes && csrReadOnly csr then trapWord 0x01
  else if writes && decide (csr = .resume) && decide (h.priv = .u) then trapWord 0x04
  else pure ()

/-- A hart's matrix streams that the array has still to carry out (R185). -/
def Matrix.streamsOf (m : Matrix) (slot : Nat) : List MOp := m.queue.filter fun o => match o with
  | .stream _ sl .. => sl == slot
  | _ => false

/-- Read a CSR. A read of `ecause` ends the entry window (R261). A read of the first-NaN record waits until every earlier
instruction that can take it has completed (R87). -/
def csrRead (csr : Csr) : M Word64 := do
  let h ← getHart
  let st ← curStream
  let s ← get
  if (csr = .nanpc ∨ csr = .nanlane) ∧ (s.core (coreOfSlot s.curSlot)).mat.streamsOf s.curSlot ≠ [] then waitFor .matrix else pure ()
  if csr = .ecause then setHart { h with win := false } else pure ()
  pure (h.csr st (s.core (coreOfSlot s.curSlot)).cyc csr)

/-- Write a CSR; a write of `md` that R50 refuses raises illegal instruction. -/
def csrWrite (csr : Csr) (v : Word64) : M Unit := do
  let st ← curStream
  if csr = .md ∧ mdLegal (v.setWidth 11) = false then trapWord 0x01
  else
    let s ← get
    modHart fun h =>
      let h' := h.setCsr st v csr
      if csr = .nanlane ∧ v.getLsbD 63 = false then { h' with nanArm := s.tick } else h'

/-- `csrr` (R108). -/
def execCsrr (rd : SReg) (csr : Csr) (s : State) : Host.Outcome State Fault Refusal :=
  issue (do
    csrChecks csr false
    let v ← csrRead csr
    wS rd v
    retire) s

/-- `csrw` (R108). -/
def execCsrw (csr : Csr) (ra : SReg) (s : State) : Host.Outcome State Fault Refusal :=
  issue (do
    csrChecks csr true
    let v ← rS ra
    csrWrite csr v
    retire) s

/-- The read-modify-write of `csrs` and `csrc`, a read alone where the a field names s0 (R55, R108). -/
def csrModify (rd : SReg) (csr : Csr) (ra : SReg) (f : Word64 → Word64 → Word64) : M Unit := do
  csrChecks csr (ra.val ≠ 0)
  let v ← rS ra
  let old ← csrRead csr
  if ra.val ≠ 0 then csrWrite csr (f old v) else pure ()
  wS rd old
  retire

/-- `csrs` (R108). -/
def execCsrs (rd : SReg) (csr : Csr) (ra : SReg) (s : State) : Host.Outcome State Fault Refusal :=
  issue (csrModify rd csr ra fun old v => old ||| v) s

/-- `csrc` (R108). -/
def execCsrc (rd : SReg) (csr : Csr) (ra : SReg) (s : State) : Host.Outcome State Fault Refusal :=
  issue (csrModify rd csr ra fun old v => old &&& ~~~v) s

/-- `ecall n`: environment call (R257). -/
def execEcall (n : BitVec 10) (s : State) : Host.Outcome State Fault Refusal :=
  issue (trap 0x10 (n.setWidth 64)) s

/-- `ecall 1023`: breakpoint (R257). -/
def execBreakpoint (s : State) : Host.Outcome State Fault Refusal := issue (trap 0x0F 0x3FF) s

/-- `eret` (R263). -/
def execEret (s : State) : Host.Outcome State Fault Refusal :=
  issue (do
    onlyS
    trapReturn) s

/-- `trapack` ends the entry window (R262). -/
def execTrapack (s : State) : Host.Outcome State Fault Refusal :=
  issue (do
    onlyS
    modHart fun h => { h with win := false }
    retire) s

/-- `yield`: a hart with a deadline leaves cooperatively, with none of it remaining, and its stream resumes after the `yield` (R267, log 51). -/
def execYield (s : State) : Host.Outcome State Fault Refusal :=
  issue (do
    retire
    modHart fun h => if h.deadline.isSome then { h.stop with coop := true, deadline := none } else h) s

/-- `fence`: the stream's earlier accesses of the kind come before its later ones, toward the observers inside the scope (R158). -/
def execFence (sc : Scope) (k : FenceKind) (s : State) : Host.Outcome State Fault Refusal :=
  issue (do
    let st ← curStream
    match k with
    | .ld => settleEngines st
    | .st | .all => settle st sc
    if k ≠ .st ∧ sc ≠ .hart then refreshPoint st
    retire) s

/-- The null word, fetched for issue, raises null fetch (R34). -/
def execNullFetch (s : State) : Host.Outcome State Fault Refusal := issue (trap 0x02 0) s

/-- A word that is no instruction raises illegal instruction (R35). -/
def execIllegalInstruction (s : State) : Host.Outcome State Fault Refusal := issue (trapWord 0x01) s

/-- A word that cannot be fetched for issue raises the cause of its fetch, with the word's address (R36, R258). -/
def execFetchForIssueFault (s : State) : Host.Outcome State Fault Refusal :=
  issue (do
    let va ← curPc
    trap s.curFetch.1 va s.curFetch.2) s

end Sys2Proof.Machine
end

