-- ==== Sys2Proof/Machine/SaveArea.lean ====
section
/-! DEFINITION. The save area of a context: what the collector writes into it, and what resumption takes from it (R202 to R204, R268,
R269, R311, R345, log 19). -/

namespace Sys2Proof.Machine

/-- A field of a hart region: its offset, its bytes, and how it is written and taken back. A field that is not loaded back has the
identity. -/
structure SaveField where
  off : Nat
  n : Nat
  get : Hart → Nat
  put : Hart → Nat → Hart

/-- A 64-bit field. -/
def word64Field (off : Nat) (get : Hart → Word64) (put : Hart → Word64 → Hart) : SaveField :=
  { off := off, n := 8, get := fun h => (get h).toNat, put := fun h v => put h (BitVec.ofNat 64 v) }

/-- The scalar registers: access stream, then execute stream (R268). -/
def scalarFields : List SaveField :=
  (List.finRange 32).map (fun (r : Fin 32) => word64Field (8 * r.val) (fun h => h.as[r]) fun h v => { h with as := h.as.set r v }) ++
  (List.finRange 32).map (fun (r : Fin 32) => word64Field (0x100 + 8 * r.val) (fun h => h.xs[r]) fun h v => { h with xs := h.xs.set r v })

/-- A hart whose saved `lanes` word was changed: the request is any, and the groups are any that it may hold, no more than were free for it
(R57, R59, R268, log 19). -/
def Hart.takeLanesWord (h : Hart) (v : Word64) : Hart :=
  let grant := if h.grant = 0 then 0 else 1 + bitsOf v.toNat 0 8 % h.grant
  { h with grant := grant, req := max grant (bitsOf v.toNat 8 8 % 17) }

/-- The CSRs, at the places of their numbers; `cyc` is as read at save (R268). -/
def csrFields (cyc : Word64) : List SaveField :=
  [ word64Field 0x200 (fun h => h.csr .x cyc .vl) (fun h v => { h with vl := v.setWidth 17 }),
    word64Field 0x208 (fun h => h.csr .x cyc .vt) (fun h v => { h with vt := v.setWidth 8 }),
    word64Field 0x210 (fun h => h.csr .x cyc .md) (fun h v => if mdLegal (v.setWidth 11) then { h with md := v.setWidth 11 } else h),
    word64Field 0x218 (fun h => h.csr .x cyc .tl) (fun h _ => h),
    word64Field 0x220 (fun h => h.resumeX) (fun h v => { h with resumeX := v }),
    word64Field 0x228 (fun h => h.csr .x cyc .lanes) (fun h v => h.takeLanesWord v),
    word64Field 0x230 (fun h => h.gcoord) (fun h v => { h with gcoord := v &&& 0x7FFFF7FFFF#64 }),
    word64Field 0x238 (fun _ => cyc) (fun h _ => h),
    word64Field 0x240 (fun h => h.csr .x cyc .bankc) (fun h v => { h with agc := v.extractLsb' 32 32, rfc := v.setWidth 32 }),
    word64Field 0x248 (fun h => h.nanpc) (fun h v => { h with nanpc := v }),
    word64Field 0x250 (fun h => h.nanlane) (fun h v => { h with nanv := v.getLsbD 63, nanelem := v.setWidth 17 }),
    word64Field 0x258 (fun h => h.csr .x cyc .rseed) (fun h v => { h with rseed := v.setWidth 32 }),
    word64Field 0x280 (fun h => h.csr .a cyc .ecause) (fun h v => { h with ecause := v.setWidth 8 }),
    word64Field 0x288 (fun h => h.epc) (fun h v => { h with epc := v }),
    word64Field 0x290 (fun h => h.etval) (fun h v => { h with etval := v }),
    word64Field 0x298 (fun h => h.csr .a cyc .estream) (fun h v => { h with estream := v.getLsbD 0 }),
    word64Field 0x2A0 (fun h => h.estatus.word) (fun h v => { h with estatus := .ofWord v }),
    word64Field 0x2A8 (fun h => h.thandler) (fun h v => { h with thandler := v &&& ~~~3#64 }),
    word64Field 0x2B0 (fun h => h.tstack) (fun h v => { h with tstack := v }),
    word64Field 0x2B8 (fun h => h.ewin) (fun h v => { h with ewin := v &&& ~~~0xFFFF#64 }) ]

/-- The hart flags in the order R268 names them: access idle, privilege, entry window, park (log 19). -/
def Hart.flagsWord (h : Hart) (parked : Bool) : Word64 :=
  BitVec.ofNat 64 ((!h.arun).toNat + 2 * (decide (h.priv = .s)).toNat + 4 * h.win.toNat + 8 * parked.toNat)

/-- Program counters, flags, tag counter, remaining deadline, and the access stream's `resume` (R268). -/
def controlFields (parked : Bool) : List SaveField :=
  [ word64Field 0x2C0 (fun h => h.apc) (fun h v => { h with apc := pcBits v }),
    word64Field 0x2C8 (fun h => h.xpc) (fun h v => { h with xpc := pcBits v }),
    word64Field 0x2D0 (fun h => h.flagsWord parked) (fun h v => { h with arun := !v.getLsbD 0, priv := if v.getLsbD 1 then .s else .u, win := v.getLsbD 2 }),
    word64Field 0x2D8 (fun h => h.tagCtr.setWidth 64) (fun h v => { h with tagCtr := v.setWidth 32 }),
    word64Field 0x2E0 (fun h => BitVec.ofNat 64 (h.deadline.getD 0)) (fun h v => { h with deadline := if v = 0 then none else some v.toNat }),
    word64Field 0x2E8 (fun h => h.resumeA) (fun h v => { h with resumeA := v }) ]

/-- Vector tags, generators, score programs, bounds and scale registers; reserved bits of a bound read zero (R6, R268, R350). -/
def fileFields : List SaveField :=
  (List.range 64).map (fun r =>
    { off := 0x300 + r, n := 1, get := fun h => (h.tagOf r).elim 0 Fmt.code
      put := fun h v => { h with v := vput h.v r { bits := h.vbitsOf r, tag := Fmt.ofCode? v } } }) ++
  (List.range 256).map (fun j =>
    { off := 0x400 + 4 * j, n := 4, get := fun h => (h.gen.getD j 1).toNat, put := fun h v => { h with gen := vput h.gen j (BitVec.ofNat 32 v) } }) ++
  (List.range 4).map (fun k =>
    { off := 0x800 + 64 * k, n := 64
      get := fun h => (List.range 16).foldl (fun v i => v + ((h.sp.getD k []).getD i 0).toNat * 2 ^ (32 * i)) 0
      put := fun h v => { h with sp := vput h.sp k ((List.range 16).map fun i => BitVec.ofNat 32 (bitsOf v (32 * i) 32)) } }) ++
  (List.range 8).map (fun k =>
    { off := 0x900 + 32 * k, n := 32, get := fun h => (h.b.getD k 0).toNat, put := fun h v => { h with b := vput h.b k (BitVec.ofNat 256 (v % 2 ^ 245)) } }) ++
  (List.range 16).map (fun k =>
    { off := 0x10000 + 4096 * k, n := 4096, get := fun h => h.k.getD k 0
      put := fun h v => { h with k := vput h.k k (v % 2 ^ (8 * ((h.vlmax + vtBl h.vt - 1) / vtBl h.vt))) } })

/-- The barrier bits of a hart, and the state codes of its barriers, which are not loaded back (R311). -/
def barrierFields (code : Nat → Nat) : List SaveField :=
  (List.range 64).map (fun i =>
    { off := 0xE0000 + i, n := 1, get := fun h => (h.pend.getLsbD i).toNat + 2 * (h.sync.getLsbD i).toNat
      put := fun h v => { h with pend := setBit64 h.pend i (v.testBit 0), sync := setBit64 h.sync i (v.testBit 1) } }) ++
  (List.range 64).map (fun i => { off := 0xE0040 + i, n := 1, get := fun _ => code i, put := fun h _ => h })

/-- The elements of the vector queues (R268). The queues' conditions and the records of the engines have no layout in the spec. -/
def queueFields : List SaveField :=
  (List.range 16).map (fun i =>
    { off := 0x20000 + 32768 * i, n := 32768
      get := fun h => match (h.vq.getD (i / 4) [])[i % 4]? with
        | some (.ready e) | some (.reserved e _) | some (.stopped _ e) => e.elems.zipIdx.foldl (fun v (x, j) => v + x.toNat * 2 ^ (64 * j)) 0
        | none => 0
      put := fun h v => { h with vq := vput h.vq (i / 4) ((h.vq.getD (i / 4) []).zipIdx.map fun (p, j) =>
        let new (e : VEntry) : VEntry := { e with elems := e.elems.zipIdx.map fun (_, k) => BitVec.ofNat 64 (bitsOf v (64 * k) 64) }
        if j ≠ i % 4 then p else match p with
          | .ready e => .ready (new e)
          | .reserved e k => .reserved (new e) k
          | .stopped pc e => .stopped pc (new e)) } })

/-- The state code of a barrier (R311). -/
def BarState.code : BarState → Nat
  | .idle => 0
  | .gathering => 1
  | .complete => 2
  | .broken => 3

/-- The state codes of a hart's barriers as they are saved: a gathering one is broken (R311). -/
def barrierCode (s : State) (h : Hart) (i : Nat) : Nat :=
  let b := s.barrier (h.group (i / 16)) (i % 16)
  BarState.code (if b = .gathering then .broken else b)

/-- The fields of a hart region that its acknowledgement writes, those loaded back and those beside them; its draft trees apart. -/
def loadFields (s : State) (h : Hart) (parked : Bool) : List SaveField :=
  scalarFields ++ csrFields (s.core (coreOfSlot h.slot)).cyc ++ controlFields parked ++ fileFields ++ queueFields

/-- The hart's completion records, which may still arrive once it has left (R266, R268). -/
def recordField (i : Nat) (h : Hart) : Nat :=
  match h.records[i]? with
  | some r => r.w0.toNat + r.w1.toNat * 2 ^ 64 + r.w2.toNat * 2 ^ 128 + r.w3.toNat * 2 ^ 192
  | none => 0

/-- Write n bytes of a number for a context, piece by piece. -/
def deviceWrite (asid : Nat) (va : Word64) (n v : Nat) : M Unit :=
  each (pieces n) fun (o, len) => (deviceActor deviceSlot asid).storeNow (va + BitVec.ofNat 64 o) len (bitsOf v (8 * o) (8 * len))

/-- Read n bytes for a context, piece by piece. -/
def deviceRead (asid : Nat) (va : Word64) (n : Nat) : M Nat :=
  eachFold (pieces n) 0 fun v (o, len) => do
    let x ← (deviceActor deviceSlot asid).load .home (va + BitVec.ofNat 64 o) len
    pure (v + x * 2 ^ (8 * o))

/-- Write n bytes whose layout the spec does not give: free values (log 5, log 19). -/
def deviceScribble (asid : Nat) (va : Word64) (n : Nat) : M Unit :=
  each (pieces n) fun (o, len) => do
    let v ← freeBytes len
    (deviceActor deviceSlot asid).storeNow (va + BitVec.ofNat 64 o) len v

/-- The address of the hart region of a slot (R268). -/
def hartRegion (save slot : Nat) : Word64 := BitVec.ofNat 64 (save + 0x10000000 + slot * 0x100000)

/-- The address of the core region of a core (R268). -/
def coreRegion (save core : Nat) : Word64 := BitVec.ofNat 64 (save + core * 0x400000)

/-- What a hart region holds of no layout that the spec gives: the residency map and last-reference order, q4 to q7 with their conditions,
and the records of transfer i (R268, log 19): offset and length. -/
def blobs : List (Nat × Nat) := (0x340, 0xC0) :: (0xA0000, 0x1000) :: (List.range 15).map fun i => (0xA2000 + 0x4000 * i, 0x4000)

/-- Write a hart's region, all but its barriers' bits; the answer is what was written. -/
def writeHartRegion (save : Nat) (h : Hart) : M (List (Nat × Nat × Nat)) := do
  let s ← get
  let parked := (SMap.get? s.contexts h.asid).elim false Context.parked
  let rest ← eachMap blobs fun (off, n) => do
    let v ← freeBytes n
    pure (off, n, v)
  let image := (loadFields s h parked).map (fun f => (f.off, f.n, f.get h)) ++
    (List.range 8).map (fun k => (0x1000 + 4096 * k, 4096, (h.d.getD k { base := 0, nodes := [] }).image)) ++
    (List.range 15).map (fun i => (0xA1000 + 32 * i, 32, recordField i h)) ++ rest
  each image fun (off, n, v) => deviceWrite h.asid (hartRegion save h.slot + BitVec.ofNat 64 off) n v
  pure image

/-- Write the bits of a hart's barriers into its region, once its context's collector has completed (R311). -/
def writeBarriers (save : Nat) (h : Hart) : M (List (Nat × Nat × Nat)) := do
  let s ← get
  let image := (barrierFields (barrierCode s h)).map fun f => (f.off, f.n, f.get h)
  each image fun (off, n, v) => deviceWrite h.asid (hartRegion save h.slot + BitVec.ofNat 64 off) n v
  pure image

/-- Every dirty resident vector and predicate register goes to its spill slot; no register is resident from then on (R64, R66, R265). -/
def spillDirty : M Unit := do
  let h ← getHart
  if h.live then
    each (h.vdirty.filter h.vres.contains) (spillOut .v)
    each (h.pdirty.filter h.pres.contains) (spillOut .p)
    each h.vres (spillHomes .v)
    each h.pres (spillHomes .p)
    modHart fun h => { h with vdirty := [], pdirty := [] }
  else pure ()

/-- The record of a cell in the scan image, but what is in flight (R203). Each weight lies where its own format puts it: a 16-bit active one in
bytes 1 and 0, a 16-bit shadow one in bytes 9 and 8, a narrower one in byte 0 or 1 with its scale in byte 10 or 9. R203 gives no layout for
weights of different widths: a narrower shadow weight beside a 16-bit active one, whose byte 1 is taken, lies in byte 8 (DEDUCED: log 19). -/
def scanRecord (m : Matrix) (cell : Nat) : Nat :=
  let aw := (SMap.get? m.active.cells cell).getD 0
  let sw := (SMap.get? m.shadow.cells cell).getD 0
  let wideA := decide (Fmt.ew m.active.fmt = 16)
  let wideS := decide (Fmt.ew m.shadow.fmt = 16)
  let asc := (SMap.get? m.active.scales cell).getD 0
  let ssc := (SMap.get? m.shadow.scales cell).getD 0
  let low := if wideA then aw else if wideS then aw % 256 else aw % 256 + sw % 256 * 2 ^ 8
  let high := if wideS then sw else (if wideA then sw % 256 else 0) + ssc * 2 ^ 8
  low + high * 2 ^ 64 + asc * 2 ^ 80 + ((m.active.poison.contains cell).toNat + 2 * (m.shadow.poison.contains cell).toNat) * 2 ^ 88

/-- A byte of a core's local store lies in an allocation of a context. -/
def State.holdsLs (s : State) (asid core off : Nat) : Bool :=
  s.kernels.any fun k => k.2.asid == asid && (match SMap.get? k.2.cores core with
    | none => false
    | some b => decide (b ≤ off) && decide (off < b + k.2.lsb))

/-- The bytes of a context's allocations on a core, at their offsets; 0 elsewhere (R268). -/
def lsByte (s : State) (asid core off : Nat) : Nat := if s.holdsLs asid core off then (s.ls.read (lsIndex core off)).toNat else 0

/-- The kernel of a context that holds the array of a core. -/
def ownsArray (s : State) (asid core : Nat) : Bool :=
  (s.core core).mat.owner.any fun o => s.kernels.any fun k => k.1 == o && k.2.asid == asid

/-- The 256 bytes at an offset of a core region: local store, planes, what has no layout in the spec (none), and the scan image. -/
def coreBytes (s : State) (asid core off : Nat) : Option Nat :=
  let m := (s.core core).mat
  let mine := ownsArray s asid core
  if off < 0x100000 then some ((List.range 256).foldl (fun v i => v + lsByte s asid core (off + i) * 2 ^ (8 * i)) 0)
  else if off < 0x180000 then
    let c := (off - 0x100000) / 0x40000
    some ((List.range 64).foldl (fun v i =>
      v + (if mine then (SMap.get? (m.acc.getD c { cells := [], poison := [] }).cells ((off - 0x100000) % 0x40000 / 4 + i)).getD 0 else 0) * 2 ^ (32 * i)) 0)
  else if off < 0x200000 then none
  else some ((List.range 16).foldl (fun v i => v + (if mine then scanRecord m ((off - 0x200000) / 16 + i) else 0) * 2 ^ (128 * i)) 0)

/-- The cores on which a context has kernels. -/
def State.coresOf (s : State) (asid : Nat) : List Nat := (s.kernels.filter fun k => k.2.asid == asid).foldl (fun l k => (SMap.keys k.2.cores).foldl addNum l) []

/-- The array stops within a stream (R202). -/
def Matrix.streaming (m : Matrix) : Bool :=
  match m.queue with
  | .stream .. :: _ => true
  | _ => false

/-- What is in flight in 16 cells of an array that stops within a stream: activations, partial sums and their flags, which depend on the
cycle at which it froze (R202, R203): free values. -/
def inFlight : M Nat :=
  eachFold (List.range 16) 0 fun v i => do
    let w ← freeWord
    pure (v + (bitsOf w.toNat 0 48 * 2 ^ 16 + bitsOf w.toNat 48 2 * 2 ^ 90) * 2 ^ (128 * i))

/-- The 256 bytes at an offset of a core region as the collector writes them; those of no layout that the spec gives are free (log 19). -/
def savedBytes (asid core off : Nat) : M Nat := do
  let s ← get
  match coreBytes s asid core off with
  | none => freeBytes 256
  | some v =>
    if 0x200000 ≤ off && ownsArray s asid core && (s.core core).mat.streaming then do
      let w ← inFlight
      pure (v + w)
    else pure v

/-- Write a context's core regions, and keep what was written (R202, R268). -/
def writeCoreRegions (asid : Nat) : M Unit := do
  let c ← getCtx asid
  let save ← descField c 40 8
  let s ← get
  each (s.coresOf asid) fun core => do
    let image ← eachMap (List.range 0x3000) fun i => do
      let v ← savedBytes asid core (256 * i)
      (deviceActor deviceSlot asid).storeNow (coreRegion save core + BitVec.ofNat 64 (256 * i)) 256 v
      pure (256 * i, v)
    modify fun s => { s with savedCores := SMap.put s.savedCores (asid * 64 + core) { ls := [], mat := none, image := image } }

/-- A write of the save area or of a spill slot has faulted: the context is to enter faulted, with no original trap, whose words of the
event are not stated (R268, log 5). -/
def saveFault (asid slot : Nat) (cause : BitVec 8) (va : Word64) : M Unit := do
  let epc ← freeWord
  let etval ← freeWord
  modCtx asid fun c => { c with fault := c.fault.or (some { core := coreOfSlot slot, place := slot % 16, epc := epc, etval := etval, cause := cause, addr := va }) }

/-- Run a write of the collector; a fault of it makes the context faulted, a wait is waited for. -/
def collectorWrite (asid slot : Nat) (x : M Unit) : M Unit := do
  match ← attempt x with
  | .ok () => pure ()
  | .error (.trap c v _ _) => saveFault asid slot c v
  | .error e => throw e

/-- What the collector wrote at an offset of a hart's region. -/
def Hart.imageAt (h : Hart) (off : Nat) : Option Nat := (h.image.find? fun e => e.1 == off).map fun e => e.2.2

/-- Take a field of a hart's region back: where it no longer holds what the collector wrote there, `changed` gives what becomes of it, from
what it holds (R268). -/
def reload (save : Nat) (h : Hart) (off n : Nat) (changed : Nat → Hart → M Hart) : M Hart := do
  match h.imageAt off with
  | none => pure h
  | some old =>
    match ← attempt (deviceRead h.asid (hartRegion save h.slot + BitVec.ofNat 64 off) n) with
    | .ok v => if v = old then pure h else changed v h
    | .error (.wait w _) => waitFor w
    | .error _ => pure h

/-- A field that changed in the save area becomes unspecified at resumption (R268). -/
def reloadField (save : Nat) (h : Hart) (f : SaveField) : M Hart :=
  reload save h f.off f.n fun _ h => do
    let x ← freeBytes f.n
    pure (f.put h x)

/-- A free value where two differ. -/
def freeWhere {n : Nat} (old new : BitVec n) : M (BitVec n) := do
  if old = new then pure old
  else
    let w ← freeWord
    pure (w.setWidth n)

/-- A node of which nothing is specified, among those of a tree (R333). -/
def freeNode (i : Nat) : M TreeNode := do
  let w ← freeWord
  let x ← freeWord
  pure { parent := BitVec.ofNat 8 (x.toNat % max 1 i), token := w.setWidth 32, score := (w >>> 32).setWidth 32, flags := (x >>> 8).setWidth 8 &&& 1 }

/-- A tree with what a valid image changes of it unspecified, field by field: where the count changes it is unspecified too, and so is a node that
the old tree or the image does not have (R345). -/
def Tree.changed (old new : Tree) : M Tree := do
  let base ← freeWhere old.base new.base
  let n ← if old.nodes.length = new.nodes.length then pure new.nodes.length else do
    let w ← freeWord
    pure (w.toNat % 257)
  let nodes ← eachMap (List.range n) fun i => do
    match old.nodes[i]?, new.nodes[i]? with
    | some o, some n => do
      let token ← freeWhere o.token n.token
      let score ← freeWhere o.score n.score
      let parent ← freeWhere o.parent n.parent
      let flags ← freeWhere o.flags n.flags
      pure ({ parent := BitVec.ofNat 8 (parent.toNat % max 1 i), token := token, score := score, flags := flags &&& 1 } : TreeNode)
    | _, _ => freeNode i
  pure { base := base, nodes := nodes }

/-- A draft-tree slot that changed restores a register unspecified in what changed, or an empty one where the slot fails the checks of R343
(R345). -/
def reloadTree (save : Nat) (h : Hart) (k : Nat) : M Hart :=
  reload save h (0x1000 + 4096 * k) 4096 fun v h =>
    match Tree.ofImage v with
    | none => pure { h with d := vput h.d k { base := 0, nodes := [] } }
    | some t => do
      let t' ← Tree.changed (h.d.getD k { base := 0, nodes := [] }) t
      pure { h with d := vput h.d k t' }

/-- A completion record that changed is unspecified (R268). -/
def reloadRecord (save : Nat) (h : Hart) (i : Nat) : M Hart :=
  reload save h (0xA1000 + 32 * i) 32 fun _ h => do
    let w0 ← freeWord
    let w1 ← freeWord
    let w2 ← freeWord
    let w3 ← freeWord
    pure { h with records := h.records.set i { w0 := w0, w1 := w1, w2 := w2, w3 := w3 } }

/-- A free order of the 64 registers of a file. -/
def freeOrder : M (List Nat) :=
  eachFold (List.range 64) [] fun l x => do
    let w ← freeWord
    pure (l.insertIdx (w.toNat % (l.length + 1)) x)

/-- A free part of a list. -/
def freePart {α : Type} (l : List α) : M (List α) :=
  eachFold l [] fun r x => do
    let yes ← freeBool
    pure (if yes then r ++ [x] else r)

/-- The residency and the last-reference order that a changed map leaves (R268). -/
def reloadResidency (save : Nat) (h : Hart) : M Hart :=
  reload save h 0x340 0xC0 fun _ h => do
    let vr ← freePart (List.range 64)
    let pr ← freePart (List.range 64)
    let vo ← freeOrder
    let po ← freeOrder
    pure { h with vres := vr.take (fileSlots h.vt .v), pres := pr.take (fileSlots h.vt .p), vorder := vo, porder := po }

/-- A place of a status queue with a free value, where it holds one. -/
def SPlace.freed (p : SPlace) : M SPlace := do
  let w ← freeWord
  match p with
  | .ready _ => pure (.ready w)
  | .reserved _ => pure (.reserved w)
  | .stopped pc => pure (.stopped pc)

/-- What a changed part for q4 to q7 leaves of their values (R268). -/
def reloadScalarQueues (save : Nat) (h : Hart) : M Hart :=
  reload save h 0xA0000 0x1000 fun _ h => do
    let q4 ← eachMap h.q4 SPlace.freed
    let q5 ← eachMap h.q5 SPlace.freed
    let q7 ← eachMap h.q7 SPlace.freed
    let q6 ← eachMap h.q6 fun _ => do
      let a ← freeWord
      let v ← freeWord
      pure ({ target := a, value := v } : Token)
    pure { h with q4 := q4, q5 := q5, q6 := q6, q7 := q7 }

/-- What a changed record leaves of a transfer: its tag, the chunks still to run of a copy, and the triples of a pass (R268). -/
def Transfer.freed (t : Transfer) : M Transfer := do
  let tag ← freeWord
  let work ← match t.work with
    | .copy kind d l todo failed written => do
      let todo ← freePart todo
      pure (Work.copy kind d l todo failed written)
    | .pass p => do
      let running ← eachMap p.running fun (k, ts) => do
        let ts ← eachMap ts fun x => do
          let m ← freeWord
          let o ← eachMap x.o fun _ => do
            let w ← freeWord
            pure (w.toNat % 2 ^ 32)
          pure ({ m := m.toNat % 2 ^ 32, l := m.toNat / 2 ^ 32, o := o } : Triple)
        pure (k, ts)
      pure (Work.pass { p with running := running })
    | w => pure w
  pure { t with tag := tag.setWidth 32, work := work }

/-- What a changed engine record leaves of the hart's transfer i (R268). -/
def reloadTransfer (save : Nat) (h : Hart) (i : Nat) : M Hart :=
  reload save h (0xA2000 + 0x4000 * i) 0x4000 fun _ h =>
    match h.transfers[i]? with
    | none => pure h
    | some t => do
      let t' ← t.freed
      pure { h with transfers := h.transfers.set i t' }

/-- A hart with everything that was changed in its region of the save area unspecified (R268, R311, R345). -/
def reloadAll (save : Nat) (parked : Bool) (h : Hart) : M Hart := do
  let s ← get
  let h ← eachFold (loadFields s h parked ++ barrierFields (barrierCode s h)) h (reloadField save)
  let h ← eachFold (List.range 8) h (reloadTree save)
  let h ← eachFold (List.range 15) h (reloadRecord save)
  let h ← eachFold (List.range 15) h (reloadTransfer save)
  let h ← reloadResidency save h
  reloadScalarQueues save h

/-- A free format. -/
def freeFmt : M Fmt := do
  let w ← freeWord
  pure ((Fmt.ofCode? (w.toNat % 16)).getD .e4m3)

/-- Free bits of the cells of a plane, each of w bits. -/
def freeCells (w : Nat) : M (SMap Nat) :=
  eachFold (List.range 0x10000) [] fun l x => do
    let v ← freeWord
    pure (SMap.putNZ l x (v.toNat % 2 ^ w))

/-- A weight plane of which nothing is specified. -/
def freeWPlane : M WPlane := do
  let fmt ← freeFmt
  let cells ← freeCells (Fmt.ew fmt)
  let scales ← freeCells 8
  let poison ← freePart (List.range 0x10000)
  let wide ← freeBool
  pure { fmt := fmt, bl := if wide then 32 else 16, cells := cells, scales := scales, poison := poison }

/-- An accumulator plane of which nothing is specified. -/
def freeAPlane : M APlane := do
  let cells ← freeCells 32
  let poison ← freePart (List.range 0x10000)
  pure { cells := cells, poison := poison }

/-- A weight plane under another format: its cells keep the low bits that the format has. -/
def WPlane.reformat (p : WPlane) (f : Fmt) (bl : Nat) (poison : List Nat) : WPlane :=
  { fmt := f, bl := bl, poison := poison, scales := p.scales
    cells := (p.cells.map fun c => (c.1, c.2 % 2 ^ Fmt.ew f)).filter fun c => c.2 != 0 }

/-- An array whose tags, poison bits, queue, shape and weight formats are unspecified (R268). -/
def Matrix.freedRest (m : Matrix) : M Matrix := do
  let f0 ← freeFmt
  let f1 ← freeFmt
  let f2 ← freeFmt
  let f3 ← freeFmt
  let t0 ← freeBool
  let t1 ← freeBool
  let w ← freeWord
  let pa ← freePart (List.range 0x10000)
  let ps ← freePart (List.range 0x10000)
  let acc ← eachMap m.acc.toList fun a => do
    let p ← freePart (List.range 0x10000)
    pure { a with poison := p }
  let queue ← freePart m.queue
  let bl (b : Bool) : Nat := if b then 32 else 16
  pure { m with
    active := m.active.reformat f2 (bl (w.getLsbD 26)) pa
    shadow := m.shadow.reformat f3 (bl (w.getLsbD 27)) ps
    acc := #v[acc.getD 0 m.acc[0], acc.getD 1 m.acc[1]]
    tags := #v[if t0 then some f0 else none, if t1 then some f1 else none]
    actFmt := f2, actBl := bl (w.getLsbD 26), shFmt := f3, shBl := bl (w.getLsbD 27), queue := queue
    shape := { m := bitsOf w.toNat 0 8, n := bitsOf w.toNat 8 8, k := bitsOf w.toNat 16 8, grid := w.getLsbD 24, a := f0, w := f1
               bl := bl (w.getLsbD 25) } }

/-- An array of which nothing is specified but who holds it (R203). -/
def Matrix.freed (m : Matrix) : M Matrix := do
  let m ← m.freedRest
  let active ← freeWPlane
  let shadow ← freeWPlane
  let c0 ← freeAPlane
  let c1 ← freeAPlane
  pure { m with active := active, shadow := shadow, acc := #v[c0, c1], actFmt := active.fmt, actBl := active.bl, shFmt := shadow.fmt, shBl := shadow.bl }

/-- A core's array with a cell of an accumulator plane unspecified (R268). -/
def freeCell (core plane cell : Nat) : M Unit := do
  let v ← freeBytes 4
  modCore core fun k =>
    let a := k.mat.acc.getD plane { cells := [], poison := [] }
    { k with mat := { k.mat with acc := vput k.mat.acc plane { a with cells := SMap.putNZ a.cells cell v } } }

end Sys2Proof.Machine
end

