-- ==== Sys2Proof/Machine/Kernel.lean ====
section
/-! DEFINITION. Kernels: launch records, dispatch and placement, `claim`, `ktrig`, `hend`, and completion (R275 to R294). -/

namespace Sys2Proof.Machine

/-- A launch record (R275). -/
structure LaunchRec where
  xentry : Nat
  aentry : Nat
  arg : Word64
  kid : Nat
  hpc : Nat
  ncore : Nat
  dmask : Nat
  lreq : Nat
  lsb : Nat
  planes : Nat
  prio : Nat
  early : Bool
  fab : Bool
  cpl : Nat
  preds : List Nat
  valid : Bool
  deriving DecidableEq, Repr

/-- A launch record's fields, and whether R276 allows them. -/
def LaunchRec.of (b : Nat) : LaunchRec :=
  let r : LaunchRec :=
    { xentry := bitsOf b 0 64, aentry := bitsOf b 64 64, arg := BitVec.ofNat 64 (bitsOf b 128 64), kid := bitsOf b 192 32, hpc := bitsOf b 224 5
      ncore := bitsOf b 232 5, dmask := bitsOf b 240 4, lreq := bitsOf b 248 5, lsb := bitsOf b 256 32, planes := bitsOf b 288 2
      prio := bitsOf b 296 3, early := b.testBit 304, fab := b.testBit 305, cpl := bitsOf b 320 64
      preds := (List.range 4).map fun k => bitsOf b (384 + 32 * k) 32, valid := true }
  { r with valid := r.xentry ≠ 0 ∧ r.xentry % 4 = 0 ∧ r.aentry % 4 = 0 ∧ r.kid ≠ 0 ∧ 1 ≤ r.hpc ∧ r.hpc ≤ 16 ∧ 1 ≤ r.ncore ∧ r.ncore ≤ 16 ∧
             r.dmask ≠ 0 ∧ 1 ≤ r.lreq ∧ r.lreq ≤ 16 ∧ r.lsb % 4096 = 0 ∧ r.lsb ≤ 2 ^ 20 ∧ r.planes ≠ 3 ∧ r.cpl % 16 = 0 ∧
             bitsOf b 229 3 = 0 ∧ bitsOf b 237 3 = 0 ∧ bitsOf b 244 4 = 0 ∧ bitsOf b 253 3 = 0 ∧ bitsOf b 290 6 = 0 ∧ bitsOf b 299 5 = 0 ∧
             bitsOf b 306 14 = 0 ∧ bitsOf b 512 512 = 0 }

/-- The dies of a record, in ascending order. -/
def diesOf (dmask : Nat) : List Nat := (List.range 4).filter dmask.testBit

/-- The address of record n of a queue (R236). -/
def LaunchQ.record (q : LaunchQ) (n : Nat) : Word64 := BitVec.ofNat 64 (q.base + n % 2 ^ q.lgsz * 128)

/-- Read n doublewords for a context, as the device. -/
def deviceWords (asid : Nat) (va : Word64) (n : Nat) : M Nat :=
  eachFold (List.range n) 0 fun v i => do
    let x ← (deviceActor deviceSlot asid).load .home (va + BitVec.ofNat 64 (8 * i)) 8
    pure (v + x * 2 ^ (64 * i))

/-- The completion record of a kernel; a record that cannot be written is lost and logged with class 9 (R276, R289). -/
def writeCompletion (asid cpl kid status ended : Nat) : M Unit :=
  if cpl = 0 then pure ()
  else do
    let a := deviceActor deviceSlot asid
    let va := BitVec.ofNat 64 cpl
    match ← attempt (do
      a.storeNow (va + 8) 8 ended
      a.storeNow va 8 (kid + status * 2 ^ 32)) with
    | .ok () => pure ()
    | .error (.trap ..) => logError 9 0 cpl
    | .error e => throw e

/-- A kernel leaves: its arrays and local-store allocations are free, its completion record is written, and it counts as complete
(R292). -/
def completeKernel (num status : Nat) : M Unit := do
  let s ← get
  match SMap.get? s.kernels num with
  | none => pure ()
  | some k =>
    each k.cores fun c => modCore c.1 fun x => if x.mat.owner = some num then { x with mat := .start } else x
    writeCompletion k.asid k.cpl.toNat k.kid status k.ended
    modify fun s => { s with kernels := SMap.del s.kernels num }

/-- No hart of a context remains: a context that is closed becomes created, one that runs becomes runnable (R252, R254, R292). -/
def contextEmpty (asid : Nat) : M Unit := do
  let s ← get
  match SMap.get? s.contexts asid with
  | none => pure ()
  | some c =>
    if s.kernels.any (fun k => k.2.asid == asid) then pure ()
    else if c.state = .running ∨ c.state = .runnable then
      if c.closing.isSome then setCtxState asid .created
      else if c.state = .running then setCtxState asid .runnable
      else pure ()
    else pure ()

/-- At a context switch the cores that the context leaves take the lanes and the array's rows and columns that the repair records in force
name, once its image has been saved under the old ones (R22, R23). -/
def takeLanes (asid : Nat) : M Unit := do
  let s ← get
  each (s.coresOf asid) fun core => modCore core fun c => { c with lanes := s.laneRecord core }

/-- The dispatchers stop waiting for a victim whose collector is complete (R282). -/
def victimDone (asid : Nat) : M Unit := modify fun s => { s with victims := s.victims.filter fun v => v.2 != asid }

/-- The part of a local store in a range, and the store without it. -/
def takeRange (m : Memory) (lo n : Nat) : List Host.Cell × Memory :=
  (m.filter (fun c => decide (lo ≤ c.1) && decide (c.1 < lo + n)), SMap.delRange m lo (lo + n))

/-- A context's kernels leave the cores: their local stores and arrays are kept for its resumption (R202, R266, R268). -/
def saveCores (asid : Nat) : M Unit := do
  let s ← get
  each (s.kernels.filter fun k => k.2.asid == asid) fun (num, k) => each k.cores fun (core, base) => modify fun s =>
    let r := takeRange s.ls (lsIndex core base) k.lsb
    let c := s.core core
    let mine := c.mat.owner = some num
    let old := (SMap.get? s.savedCores (asid * 64 + core)).getD { ls := [], mat := none, image := [] }
    let s := { s with
      ls := r.2
      savedCores := SMap.put s.savedCores (asid * 64 + core) { old with ls := old.ls ++ [(num, r.1)], mat := if mine then some c.mat else old.mat } }
    s.modCore core fun c => if mine then { c with mat := .start } else c

/-- Gathering barriers of a context's groups are broken, or broken ones gather again (R311). -/
def moveBarriers (asid : Nat) (old new : BarState) : M Unit := modify fun s =>
  let gids := (s.allHarts.filter fun h => h.asid == asid).flatMap fun h => h.groups.toList
  { s with barriers := s.barriers.map fun e => if e.2 = old ∧ gids.contains (e.1 / 16) then (e.1, new) else e }

/-- Answer the requests that wait for a context to leave (R270). A request whose word cannot be written is dropped. -/
def answerWaiters (asid : Nat) : M Unit := do
  let c ← getCtx asid
  each c.waiters fun (who, va) => do
    let s ← get
    if (SMap.get? s.contexts who).isNone then pure ()
    else match ← attempt ((deviceActor deviceSlot who).storeNow va 4 1) with
      | .error (.wait w _) => waitFor w
      | _ => pure ()
  modCtx asid fun c => { c with waiters := [] }

/-- The harts of a context leave their cores, all of them having been acknowledged: the bits of their barriers are written, and each
keeps its place and what its region holds (R266, R268, R311). -/
def saveHarts (asid save : Nat) : M Unit := do
  let s ← get
  each (s.harts.filter fun e => decide (e.2.asid = asid)) fun (slot, h) => do
    let image ← match ← attempt (writeBarriers save h) with
      | .ok image => pure image
      | .error (.trap c v _ _) => do
        saveFault asid slot c v
        pure []
      | .error e => throw e
    let left := { h.stop with stopped := false, coop := false, acked := false, deadCount := 0, image := h.image ++ image }
    modify fun s => { s with harts := SMap.del s.harts slot, saved := SMap.put s.saved (asid * 1024 + slot) left
                             cutMarks := s.cutMarks.filter fun m => m.slot != slot }

/-- The collector of a context is complete once every hart of it on the cores has been acknowledged: its barriers break, it enters
pre-empted or faulted, and its event is posted (R252, R266, R271). -/
def checkCollected (asid : Nat) : M Unit := do
  let s ← get
  match SMap.get? s.contexts asid with
  | none => pure ()
  | some c =>
    let leaving := c.state = .yielding ∨ (c.fault.isSome ∧ (c.state = .running ∨ c.state = .checkpointing))
    if leaving ∧ (s.harts.all fun e => e.2.asid != asid || e.2.acked) then
      let at' ← freeWord
      let save ← descField c 40 8
      collectorWrite asid (at'.toNat % 1024) (writeCoreRegions asid)
      moveBarriers asid .gathering .broken
      saveHarts asid save
      let c ← getCtx asid
      saveCores asid
      setCtxState asid (if c.fault.isSome then .faulted else .preempted)
      match c.fault with
      | some f => postHartEvent asid 3 f.cause.toNat (16 * f.core + f.place) f.epc f.etval f.addr
      | none =>
        postEvent asid (if c.forced = 0 then 1 else 2) 0 0 (BitVec.ofNat 64 c.forced)
        answerWaiters asid
      modCtx asid fun c => { c with forced := 0 }
      takeLanes asid
      victimDone asid
    else pure ()

/-- A context is given a deadline, and has left at once where no hart of it is on the cores (R266, R267). -/
def sendAway (asid d : Nat) : M Unit := do
  giveDeadline asid d
  checkCollected asid

/-- Another device pauses a fabric part's context a with deadline b (R365). -/
def execFabPause (s : State) : Host.Outcome State Fault Refusal :=
  event (do
    let s ← get
    let e := s.curEv
    let c ← getCtx e.a
    if (s.kernels.any fun k => k.2.asid == e.a && k.2.fab) && (c.runs || decide (c.state = .yielding)) then
      sendAway e.a e.b
    else impossible) s

/-- Barriers and splits that a hart's end may complete (R301, R305). -/
def checkGroups (h : Hart) : M Unit :=
  each (List.range 4) fun t => do
    each (List.range 16) fun n => checkBarrier t (h.group t) n
    if t < 3 then checkSplit t (h.group t) else pure ()

/-- A hart ends: it leaves its core, its groups and its kernel; the last one completes the kernel (R291, R292, R305). -/
def endHart : M Unit := do
  let h ← getHart
  modify fun s => { s with
    harts := SMap.del s.harts h.slot
    cutMarks := s.cutMarks.filter fun m => m.slot != h.slot
    kernels := s.kernels.map fun k => if k.1 = h.kernel then
      (k.1, { k.2 with slots := k.2.slots.filter (· != h.slot), ended := k.2.ended + 1 }) else k }
  checkGroups h
  let s ← get
  match SMap.get? s.kernels h.kernel with
  | none => pure ()
  | some k => if k.slots.isEmpty then completeKernel h.kernel 0 else pure ()
  contextEmpty h.asid
  checkCollected h.asid

/-- Mark the hart triggered: a release at `.dev` of its execute stream, and of the access stream's stores that are ordered before it through the
queues (R174, R285). -/
def trigger : M Unit := do
  let h ← getHart
  if h.triggered then pure ()
  else
    settle .x .dev
    modHart fun h => { h with triggered := true }

/-- `ktrig` (R285). -/
def execKtrig (s : State) : Host.Outcome State Fault Refusal :=
  issue (do
    onlyX
    trigger
    retire) s

/-- The hart's stores perform; accesses and arrivals of it that S1 holds, and stores that cannot go out yet, are waited for (R20, R294, R361). -/
def settleHart : M Unit := do
  let h ← getHart
  drainHart h.slot
  let s ← get
  if s.held.any (fun w => decide (w.slot = h.slot)) || s.pending.any (fun p => decide (p.slot = h.slot)) || s.arrivalHeld h .x then
    waitFor .level
  else pure ()

/-- A hart whose access stream has stopped for good: what it has stopped in, partway, is abandoned (R291). -/
def Hart.endAccess (h : Hart) : Hart :=
  let keepV (p : VPlace) : Bool := match p with
    | .stopped .. => false
    | _ => true
  let keepS (p : SPlace) : Bool := match p with
    | .stopped _ => false
    | _ => true
  { h with arun := false, waitA := none, openA := none, vq := h.vq.map (·.filter keepV), q4 := h.q4.filter keepS, q5 := h.q5.filter keepS }

/-- `hend` (R291). -/
def execHend (s : State) : Host.Outcome State Fault Refusal :=
  issue (do
    onlyX
    trigger
    modHart Hart.endAccess
    keeping (do
      settleHart
      let h ← getHart
      if h.transfers.isEmpty && !h.filling then pure () else waitFor .ended)
    endHart) s

/-- The indivisible step of `claim` on the 16 bytes of a block: what it finds there, its first doubleword advanced by what is taken. It is a store
where it takes something, and a load where it takes nothing, which shows once the block has been read; where neither may reach the block, it
faults as a store (R140, R156, R287, log 55). -/
def Actor.claimBlock (a : Actor) (va : Word64) (take : Nat → Nat) : M Nat := do
  let p ← match ← attempt (a.place .store va 16 (some false) true) with
    | .ok p => pure p
    | .error e => match ← attempt (a.place .load va 16 (some false)) with
      | .ok p => pure p
      | .error _ => throw e
  let old ← a.readHome p va 16
  if take old = 0 then do
    let _ ← a.place .load va 16 (some false)
    pure old
  else
    let p ← a.place .store va 16 (some false)
    let new := putBits old 0 64 (bitsOf old 0 64 + take old)
    dropOwn a.slot p.loc 16
    a.note (a.storeOf p 16 new (fullMask 16))
    a.performNow p.loc 16 (a.storeOf p 16 new (fullMask 16))
    pure old

/-- `claim` (R287). -/
def execClaim (rd ra rb : SReg) (s : State) : Host.Outcome State Fault Refusal :=
  issue (do
    onlyX
    needLive
    let va ← rS ra
    aligned va 16
    interlock va 16 true
    let b ← rS rb
    let h ← getHart
    let n := min b.toNat h.vlmax
    let take (old : Nat) : Nat := min n (bitsOf old 64 64 - bitsOf old 0 64)
    settle .x .dev
    let a ← actor
    let old ← a.claimBlock va take
    refreshPoint .x
    wS rd (BitVec.ofNat 64 (bitsOf old 0 64))
    modHart fun h => { h with vl := BitVec.ofNat 17 (take old) }
    retire) s

/-- A kernel is on the cores: its context has not left them. -/
def State.onCores (s : State) (k : Kernel) : Bool :=
  match SMap.get? s.contexts k.asid with
  | none => false
  | some c => decide (c.state ≠ .preempted) && decide (c.state ≠ .faulted)

/-- The local-store ranges taken on a core: offset and size. -/
def State.lsTaken (s : State) (core : Nat) : List (Nat × Nat) :=
  (s.kernels.filter fun k => s.onCores k.2).filterMap fun k => (SMap.get? k.2.cores core).map fun b => (b, k.2.lsb)

/-- n bytes at an offset of a core's local store are free. -/
def State.lsFree (s : State) (core off n : Nat) : Bool := off + n ≤ 2 ^ 20 && (s.lsTaken core).all fun r => decide (off + n ≤ r.1) || decide (r.1 + r.2 ≤ off) || decide (n = 0) || decide (r.2 = 0)

/-- The lowest offset, a multiple of 4 KiB, at which n bytes lie free together (R281). -/
def State.lsPlace (s : State) (core n : Nat) : Option Nat := ((List.range 257).map (· * 4096)).find? fun o => s.lsFree core o n

/-- The free places of a core's lane allocation table, lowest first (R281). -/
def State.freePlaces (s : State) (core : Nat) : List Nat := (List.range 16).filter fun p => (SMap.get? s.harts (16 * core + p)).isNone

/-- A core can take part in a placement (R279). -/
def State.coreFits (s : State) (r : LaunchRec) (core : Nat) : Bool :=
  decide (r.hpc ≤ (s.freePlaces core).length) && decide (r.hpc ≤ s.freeGroups core) && (s.lsPlace core r.lsb).isSome &&
    (decide (r.planes = 0) || (s.core core).mat.owner.isNone)

/-- The cores that a dispatcher chooses on a die; none when too few qualify (R279). -/
def State.coresFor (s : State) (r : LaunchRec) (die : Nat) : Option (List Nat) :=
  let fit := ((List.range 16).map (16 * die + ·)).filter (s.coreFits r)
  if r.ncore ≤ fit.length then some (fit.take r.ncore) else none

/-- The grants of a core's harts at placement (R281). -/
def launchGrants (lreq hpc : Nat) : Nat → Nat → List Nat
  | 0, _ => []
  | left + 1, free =>
    let g := min lreq (free - left)
    g :: launchGrants lreq hpc left (free - g)

/-- Place the harts of a kernel on a core, where no word fetched before stays: a launch comes after the stores that wrote its code (R27,
R281, R283, R295). -/
def placeCore (num asid : Nat) (r : LaunchRec) (thandler tstack ewin : Nat) (coord : Nat) (dev fab die core cix : Nat) : M Unit := do
  let s ← get
  let base := (s.lsPlace core r.lsb).getD 0
  let grants := launchGrants r.lreq r.hpc r.hpc (s.freeGroups core)
  let places := (s.freePlaces core).take r.hpc
  let gid ← newId
  each places.zipIdx fun (place, hix) => modify fun s =>
    let slot := 16 * core + place
    let g := coord + hix + cix * 2 ^ 4 + (r.hpc - 1) * 2 ^ 20 + (r.ncore - 1) * 2 ^ 24
    let h := Hart.start slot asid num (BitVec.ofNat 64 r.xentry) r.arg (grants.getD hix 1) r.lreq (BitVec.ofNat 64 g) #v[gid, die, dev, fab]
      (BitVec.ofNat 64 thandler) (BitVec.ofNat 64 tstack - BitVec.ofNat 64 (slot * 0x10000))
      (BitVec.ofNat 64 ewin + BitVec.ofNat 64 (slot * 0x400000)) s.tick
    { s.windowFree asid slot with harts := SMap.put s.harts slot h }
  modify fun s => { s with
    ls := SMap.delRange s.ls (lsIndex core base) (lsIndex core base + r.lsb)
    lsPoison := s.lsPoison.filter fun w => decide (8 * w + 7 < lsIndex core base) || decide (lsIndex core base + r.lsb ≤ 8 * w)
    kernels := s.kernels.map fun k => if k.1 = num then
      (k.1, { k.2 with cores := SMap.put k.2.cores core base, slots := k.2.slots ++ places.map (16 * core + ·) }) else k }
  modCore core fun c => { c with icache := SMap.delRange c.icache (asid * 2 ^ 64) ((asid + 1) * 2 ^ 64) }
  if r.planes = 0 then pure ()
  else modCore core fun c => { c with mat := { Matrix.start with owner := some num, planes := r.planes } }

/-- The number of valid entries of the fabric table (R362). -/
def State.fabCount (s : State) : Nat := (s.fabric.filter FabEntry.valid).length

/-- A core to which a context comes, of which no hart is on it, takes the lanes and the array's row and column of the newest repair record: that is
the context switch at which one staged since takes effect (R22, R23, R380). -/
def switchCore (asid core : Nat) : M Unit := modify fun s =>
  if s.harts.any fun e => decide (coreOfSlot e.1 = core) && decide (e.2.asid = asid) then s
  else s.modCore core fun c => { c with lanes := s.laneRecord core }

/-- Place a kernel on its dies in one event (R279, R281, R283, R295). A bit of the descriptor that R250 reserves and that is set since bind, whose
status 3 R254 states at bind alone, is ignored here (DESIGN CHOICE: log 50). The part of a fabric kernel is reported to the other members (R365). -/
def placeKernel (asid : Nat) (r : LaunchRec) (prio : Nat) (places : List (Nat × List Nat)) : M Unit := do
  let c ← getCtx asid
  let root ← descField c 0 8
  let key ← descField c 10 2
  let ceil ← descField c 12 1
  let parent ← descField c 14 2
  let thandler ← descField c 16 8
  let tstack ← descField c 24 8
  let ewin ← descField c 32 8
  modCtx asid fun c => { c with root := root, key := key % 512, mg := ceil.testBit 0, parent := parent }
  let num ← newId
  let dev ← newId
  let fab ← newId
  let s ← get
  let k : Kernel :=
    { asid := asid, kid := r.kid, dmask := r.dmask, slots := [], cores := [], lsb := r.lsb, planes := r.planes, prio := prio
      cpl := BitVec.ofNat 64 r.cpl, ended := 0, hadPred := r.preds.any (· != 0), fab := r.fab, reports := (s.early.filter fun x => decide (r.fab ∧ x.1 = asid ∧ x.2.1 = r.kid)).map fun x => x.2.2, born := s.tick }
  set { s with
    kernels := SMap.put s.kernels num k
    early := s.early.filter fun x => !decide (r.fab ∧ x.1 = asid ∧ x.2.1 = r.kid) }
  let far := if r.fab then s.self * 2 ^ 10 + (s.fabCount - 1) * 2 ^ 30 else 0
  each places.zipIdx fun ((_, cores), dix) => do
    let die ← newId
    each cores.zipIdx fun (core, cix) => do
      switchCore asid core
      placeCore num asid r thandler tstack ewin (far + dix * 2 ^ 8 + (places.length - 1) * 2 ^ 28) dev fab die core cix
  if r.fab then tellPeers (.placed asid r.kid) else pure ()
  if c.state = .runnable then setCtxState asid .running else pure ()

/-- Every hart of a kernel that has not ended has triggered (R285). -/
def State.triggered (s : State) (num : Nat) : Bool := (s.allHarts.filter fun h => h.kernel == num).all Hart.triggered

/-- A record with an ID lies between rd and wr of a queue, other than record `but` of it, or may lie there, in a page that
moves or cannot be read now (R215, R280). -/
def queued (q : LaunchQ) (kid but : Nat) (own : Bool) : M Bool :=
  eachFold ((List.range (q.wr - q.rd)).map (q.rd + ·)) false fun b n => do
    if b || (own && decide (n = but)) then pure b
    else match ← attempt ((deviceActor deviceSlot q.asid).load .home (q.record n + 24) 4) with
      | .ok k => pure (decide (k = kid))
      | .error _ => pure true

/-- A predecessor is satisfied (R280); one that may stand in a queue that cannot be read now is not. -/
def predDone (q : LaunchQ) (r : LaunchRec) (p : Nat) : M Bool := do
  let s ← get
  if s.kernels.any fun k => k.2.asid == q.asid && k.2.kid == p && !(r.early && s.triggered k.1) then pure false
  else
    let c ← getCtx q.asid
    let found ← eachFold (List.range c.nq) false fun b j => do
      if b then pure b
      else match ← attempt (readQueue q.asid c (c.lq0 + j)) with
        | .ok o => if o.rd ≤ o.wr then queued o p q.rd (decide (o.lq = q.lq)) else pure false
        | .error _ => pure true
    pure (!found)

/-- A head record that a dispatcher considers: its queue, its record, its effective priority, and its count of cycles (R277, R278). -/
structure Head where
  q : LaunchQ
  r : LaunchRec
  prio : Nat
  t : Nat
  deriving DecidableEq, Repr

/-- The head record of a launch queue, if the queue can be read and written, is enabled and not overrun, has one, and its context may be
dispatched and is not closed (R237, R254, R277). A descriptor that has become invalid since open is passed over (log 50). -/
def headOf (lq : Nat) : M (Option Head) := do
  let s ← get
  match s.queueOwner lq with
  | none => pure none
  | some (asid, c) =>
    if c.fault.isSome ∨ c.closing.isSome ∨ ¬ (c.state = .runnable ∨ c.state = .running ∨ c.state = .checkpointing) then pure none
    else match ← attempt (usableQueue asid c lq) with
      | .error _ => pure none
      | .ok q =>
        if !q.valid || !q.enabled || q.overrun || decide (q.wr ≤ q.rd) then pure none
        else match ← attempt (deviceWords asid (q.record q.rd) 16) with
          | .error (.trap ..) => pure (some { q := q, r := { LaunchRec.of 0 with valid := false }, prio := 0, t := 0 })
          | .error _ => pure none
          | .ok b =>
            let r := LaunchRec.of b
            let die := (diesOf r.dmask).headD 0
            let t := (SMap.get? s.heads (4 * lq + die)).getD 0
            let ceil ← descField c 13 1
            pure (some { q := q, r := r, prio := min (r.prio + t / 2 ^ 20) (ceil % 8), t := t })

/-- Head a comes before head b (R278). -/
def Head.before (a b : Head) : Bool :=
  decide (b.prio < a.prio) || (decide (a.prio = b.prio) && (decide (b.t < a.t) || (decide (a.t = b.t) && decide (a.q.lq < b.q.lq))))

/-- Heads in the order a dispatcher tries them. -/
def insertHead (h : Head) : List Head → List Head
  | [] => [h]
  | x :: l => if h.before x then h :: x :: l else x :: insertHead h l

/-- rd moves past a record (R237). -/
def nextRecord (q : LaunchQ) : M Unit := do
  putQueue q 16 8 (q.rd + 1)
  newHead q.lq

/-- The greatest effective priority among a context's kernels, and its latest dispatch. -/
def State.ctxPrio (s : State) (asid : Nat) : Nat × Nat :=
  (s.kernels.filter fun k => k.2.asid == asid).foldl (fun acc k => (max acc.1 k.2.prio, max acc.2 k.2.born)) (0, 0)

/-- The contexts that a dispatcher may pre-empt on a die for a record of a priority, and the one it picks (R282). -/
def State.victim (s : State) (die asid prio : Nat) : Option Nat :=
  let cands := (s.contexts.filter fun c => c.1 != asid && (decide (c.2.state = .running) || decide (c.2.state = .checkpointing)) && c.2.fault.isNone &&
    (s.harts.any fun e => e.2.asid == c.1 && dieOfCore (coreOfSlot e.1) == die) && decide ((s.ctxPrio c.1).1 < prio)).map Prod.fst
  cands.foldl (fun acc x => match acc with
    | none => some x
    | some y =>
      let (px, bx) := s.ctxPrio x
      let (py, by') := s.ctxPrio y
      some (if px < py ∨ (px = py ∧ by' < bx) then x else y)) none

/-- A record cannot be placed for lack of resources on a die: a victim is given the deadline of R282, once until it has left. -/
def pickVictim (die : Nat) (h : Head) (short : List Nat) : M Unit := do
  let s ← get
  if s.victims.any fun v => v.1 == die then pure ()
  else match short.findSome? fun d => s.victim d h.q.asid h.prio with
    | none => pure ()
    | some v =>
      sendAway v 65536
      modify fun s => { s with victims := s.victims ++ [(die, v)] }

/-- A record may start at this service level: it names no die out of service, and no fabric (R17, R19). -/
def State.levelAllows (s : State) (r : LaunchRec) : Bool :=
  match s.level with
  | .s0 => false
  | .s1 => (diesOf r.dmask).all (· == 0) && !r.fab
  | .s2 => true

/-- An invalid record is disposed of: rd moves past it, and its completion record, if it names one that is usable, says so (R276). -/
def disposeRecord (h : Head) : M Unit := do
  nextRecord h.q
  if h.r.cpl % 16 = 0 then writeCompletion h.q.asid h.r.cpl h.r.kid 2 0 else pure ()

/-- Try the heads of a dispatcher in order; the first that can start is started. One that the service level holds back waits, whatever else
is wrong with it, and an invalid one is disposed of (R19, R276, R278). -/
def tryHeads (die : Nat) : List Head → M Unit
  | [] => pure ()
  | h :: rest => do
    let s ← get
    if !s.levelAllows h.r then tryHeads die rest
    else if !h.r.valid then
      let _ ← attempt (disposeRecord h)
      tryHeads die rest
    else
      let ready ← eachFold (h.r.preds.filter (· != 0)) true fun b p => do
        if b then predDone h.q h.r p else pure false
      if !ready then tryHeads die rest
      else
        let dies := diesOf h.r.dmask
        let places := dies.filterMap fun d => (s.coresFor h.r d).map fun cs => (d, cs)
        if places.length = dies.length then
          match ← attempt (do
            nextRecord h.q
            placeKernel h.q.asid h.r h.prio places) with
          | .ok () => pure ()
          | .error _ => tryHeads die rest
        else
          let _ ← attempt (pickVictim die h (dies.filter fun d => (s.coresFor h.r d).isNone))
          tryHeads die rest

/-- The dispatcher of die a, which is in service, takes a cycle: it starts at most one kernel (R17, R277 to R283). -/
def execKernelDispatch (s : State) : Host.Outcome State Fault Refusal :=
  event (do
    let s ← get
    let die := s.curEv.a
    if !s.inService (16 * die) then impossible
    else
      let heads ← eachFold (s.contexts.flatMap fun c => (List.range c.2.nq).map (c.2.lq0 + ·)) [] fun l lq => do
        match ← headOf lq with
        | none => pure l
        | some h => pure (if (diesOf h.r.dmask).headD 0 = die then insertHead h l else l)
      tryHeads die heads) s

/-- Device c reports that it has placed, or loaded, its part of the fabric kernel with ID b of context a; a report that
comes before the part here is placed is kept for it (R365). -/
def execFabPartReport (s : State) : Host.Outcome State Fault Refusal :=
  event (modify fun s =>
    let e := s.curEv
    let mine (k : Kernel) : Bool := decide (k.asid = e.a) && decide (k.kid = e.b) && k.fab
    if s.kernels.any fun k => mine k.2 then
      { s with kernels := s.kernels.map fun k => if mine k.2 then (k.1, { k.2 with reports := addNum k.2.reports e.c }) else k }
    else { s with early := s.early ++ [(e.a, e.b, e.c)] }) s

end Sys2Proof.Machine
end

