-- ==== Sys2Proof/Machine/Context.lean ====
section
/-! DEFINITION. Managing contexts: `asidset`, `keyset`, `ctxsave` and `ctxload`, and the events in which a context leaves the cores
and comes back (R250 to R256, R265 to R270). -/

namespace Sys2Proof.Machine

/-- The statuses of `asidset` (R254). -/
def sDone : Nat := 0
/-- The descriptor is not in a From state. -/
def sState : Nat := 1
/-- The ASID is already bound. -/
def sBound : Nat := 2
/-- The descriptor, or the request, is invalid. -/
def sInvalid : Nat := 3
/-- A queue number is too high or taken. -/
def sQueues : Nat := 4
/-- A queue descriptor cannot be used. -/
def sOpen : Nat := 5

/-- The context bound through the descriptor at a physical address. -/
def State.boundAt (s : State) (desc : Nat) : Option (Nat × Context) := s.contexts.find? fun e => e.2.desc == desc

/-- A descriptor's 128 bytes satisfy R250 and the checks of bind (R254). -/
def descValid (s : State) (b : Nat) : Bool :=
  bitsOf b 0 64 % 0x4000 = 0 ∧ bitsOf b 78 2 = 0 ∧ bitsOf b 89 7 = 0 ∧ bitsOf b 97 7 = 0 ∧ bitsOf b 107 5 = 0 ∧ bitsOf b 128 64 % 4 = 0 ∧
    bitsOf b 192 64 % 64 = 0 ∧ bitsOf b 256 64 % 0x10000 = 0 ∧ bitsOf b 320 64 % 0x10000 = 0 ∧ bitsOf b 384 64 % 64 = 0 ∧ bitsOf b 464 8 ≤ 64 ∧
    bitsOf b 472 40 = 0 ∧ bitsOf b 512 64 % 32 = 0 ∧ 1 ≤ bitsOf b 576 4 ∧ bitsOf b 576 4 ≤ 12 ∧ bitsOf b 580 60 = 0 ∧ bitsOf b 776 248 = 0 ∧
    (s.keyOf (bitsOf b 80 9)).isSome ∧ (bitsOf b 80 9 = 0 → b.testBit 96 = true)

/-- bind (R254). -/
def bindCtx (desc : Nat) : M Nat := do
  let s ← get
  if (s.boundAt desc).isSome then pure sState
  else
    let b ← hwRead desc 128
    let asid := bitsOf b 64 14
    let lq0 := bitsOf b 448 16
    let nq := bitsOf b 464 8
    if !descValid s b || !inHbm desc then pure sInvalid
    else if (SMap.get? s.contexts asid).isSome then pure sBound
    else if nq ≠ 0 ∧ (4096 < lq0 + nq ∨ (s.contexts.any fun e => decide (e.2.nq ≠ 0) && decide (e.2.lq0 < lq0 + nq) && decide (lq0 < e.2.lq0 + e.2.nq))) then pure sQueues
    else
      let c : Context :=
        { desc := desc, root := bitsOf b 0 64, key := bitsOf b 80 9, mg := b.testBit 96, prio := bitsOf b 104 3, parent := bitsOf b 112 16, lq0 := lq0
          nq := nq, state := .created, parked := false, closing := none, fault := none, waiters := [], forced := 0, drains := 0 }
      set { s with contexts := SMap.put s.contexts asid c }
      setCtxState asid .created
      pure sDone

/-- Set or clear the enabled bit of a context's queues; what cannot be written stays (R254). -/
def enableQueues (asid : Nat) (c : Context) (on : Bool) : M Unit :=
  each (List.range c.nq) fun j => do
    match ← attempt (do
      let q ← readQueue asid c (c.lq0 + j)
      putQueueSt { q with enabled := on }) with
    | .error (.wait w _) => waitFor w
    | _ => pure ()

/-- open (R254). -/
def openCtx (asid : Nat) (c : Context) : M Nat :=
  if c.state ≠ .created then pure sState
  else do
    let ok ← eachFold (List.range c.nq) true fun ok j => do
      match ← attempt (do
        let q ← readQueue asid c (c.lq0 + j)
        putQueueSt { q with enabled := true }
        pure q.valid) with
      | .ok v => pure (ok && v)
      | .error (.wait w _) => waitFor w
      | .error _ => pure false
    if ok then
      modCtx asid fun c => { c with closing := none }
      setCtxState asid .runnable
      let s ← get
      each (List.range c.nq) fun j => modify fun s' => { s' with heads := (List.range 4).foldl (fun m d =>
        if (SMap.get? s.heads (4 * (c.lq0 + j) + d)).isSome then m else SMap.put m (4 * (c.lq0 + j) + d) 0) s'.heads }
      pure sDone
    else
      enableQueues asid c false
      pure sOpen

/-- close: it ends once no hart remains; `me` is who asks (R254). -/
def closeCtx (asid : Nat) (c : Context) (me : Nat) : M Nat := do
  match c.closing with
  | some who =>
    let s ← get
    if who = me ∧ c.state = .created then
      modCtx asid fun c => { c with closing := none }
      pure sDone
    else if (s.allHarts.any fun h => decide (h.slot = who / 2 % 1024) && decide (h.asid = who / 2048)) ∨ c.state ≠ .created then keeping (waitFor .ended)
    else pure sState
  | none =>
    if c.state = .runnable ∨ c.state = .running then
      enableQueues asid c false
      modCtx asid fun c => { c with closing := some me }
      contextEmpty asid
      let c ← getCtx asid
      if c.state = .created then
        modCtx asid fun c => { c with closing := none }
        pure sDone
      else keeping (waitFor .ended)
    else pure sState

/-- unbind: it waits for every access of the context, also for stores to peers that cannot go out yet (R20, R254). A drain of a context ends as failed when it is unbound (R370): that is done by whoever ends drains, given here. -/
def unbindCtx (asid : Nat) (c : Context) (endDrains : M Unit) : M Nat :=
  if c.state ≠ .created then pure sState
  else do
    endDrains
    drain fun p => p.asid == asid
    let s ← get
    if s.pending.any fun p => p.asid == asid then throw (.wait .level true) else pure ()
    let parent ← descField c 14 2
    modCtx asid fun c => { c with parent := parent }
    setCtxState asid .destroyed
    postEvent asid 6 0 0 0
    setCtxState asid .free
    modify fun s => { s with
      contexts := SMap.del s.contexts asid
      heads := SMap.delRange s.heads (4 * c.lq0) (4 * (c.lq0 + c.nq))
      cores := s.cores.map fun k => { k with icache := SMap.delRange k.icache (asid * 2 ^ 64) ((asid + 1) * 2 ^ 64)
                                             rcache := k.rcache.filter fun e => keyAsid e.1 != asid
                                             rpoison := k.rpoison.filter fun e => keyAsid e.1 != asid }
      restores := s.restores.map fun r => if r.target = some asid then { r with target := none } else r }
    pure sDone

/-- discard: every saved hart is dropped, and each kernel completes as failed (R254, R292). -/
def discardCtx (asid : Nat) (c : Context) : M Nat :=
  if c.state = .preempted ∨ c.state = .faulted then do
    modify fun s => { s with
      saved := s.saved.filter fun e => e.2.asid != asid
      savedCores := SMap.delRange s.savedCores (asid * 64) (asid * 64 + 64) }
    let s ← get
    each ((s.kernels.filter fun k => k.2.asid == asid).map Prod.fst) fun k => completeKernel k 1
    modCtx asid fun c => { c with fault := none, parked := false }
    setCtxState asid .created
    pure sDone
  else pure sState

/-- recover: the fault is cleared and the context parked; whoever waits for it to be pre-empted is answered (R254, R270). -/
def recoverCtx (asid : Nat) (c : Context) : M Nat :=
  if c.state = .faulted then do
    modCtx asid fun c => { c with fault := none, parked := true }
    setCtxState asid .preempted
    answerWaiters asid
    pure sDone
  else pure sState

/-- The physical address that a page form of a kind names (R224). -/
def formAddr (kind : Kind) (va : Word64) : M Nat := do
  let p ← pageForm kind va true
  pure (p.leaf.frame + va.toNat % p.leaf.size)

/-- Who issues: 2048 × ASID, twice the slot, and 1 for the access stream. -/
def whoAsks : M Nat := do
  let s ← get
  let h ← getHart
  pure (2048 * h.asid + 2 * s.curSlot + (decide (s.curStream = .a)).toNat)

/-- A drain of a context ends as failed: given by the checkpoint forms (R370). -/
def asidCommand (cmd desc : Nat) (endDrains : Nat → M Unit) : M Nat := do
  let s ← get
  let me ← whoAsks
  if cmd = 0 then bindCtx desc
  else match s.boundAt desc with
    | none => pure (if 5 < cmd then sInvalid else sState)
    | some (asid, c) =>
      -- a close of another hart that has not ended comes first
      if c.closing.any (· != me) && decide (c.state ≠ .created) && cmd != 2 then keeping (waitFor .ended)
      else match cmd with
        | 1 => openCtx asid c
        | 2 => closeCtx asid c me
        | 3 => unbindCtx asid c (endDrains asid)
        | 4 => discardCtx asid c
        | 5 => recoverCtx asid c
        | _ => pure sInvalid

/-- `keyset` (R256). -/
def execKeyset (rd ra : SReg) (s : State) : Host.Outcome State Fault Refusal :=
  issue (do
    onlyMg
    let va ← rS ra
    aligned va 64
    interlock va 128 true
    let a ← actor
    let b ← eachFold (List.range 16) 0 fun v i => do
      let x ← a.load .home (va + BitVec.ofNat 64 (8 * i)) 8
      pure (v + x * 2 ^ (64 * i))
    let slot := bitsOf b 0 16
    let op := bitsOf b 16 8
    let answer (v : Nat) : M Unit := do
      wS rd (BitVec.ofNat 64 v)
      retire
    if slot = 0 ∨ 511 < slot then answer 1
    else if 1 < op ∨ bitsOf b 24 40 ≠ 0 ∨ bitsOf b 576 448 ≠ 0 then answer 2
    else
      drain fun p => p.key == slot
      let s ← get
      if s.pending.any fun p => p.key == slot && p.peer.isNone then throw (.wait .level true) else pure ()
      if op = 0 then
        each (List.range 8) fun i => a.storeNow (va + BitVec.ofNat 64 (8 + 8 * i)) 8 0
        modify fun s => { s with keys := SMap.put s.keys slot (BitVec.ofNat 512 (bitsOf b 64 512)) }
        answer 0
      else
        modify fun s => { s with keys := SMap.del s.keys slot }
        let s ← get
        answer ((s.contexts.filter fun c => c.2.key == slot).length * 2 ^ 16)) s

/-- `ctxsave` (R270). -/
def execCtxsave (ra : SReg) (s : State) : Host.Outcome State Fault Refusal :=
  issue (do
    onlyMg
    let va ← rS ra
    aligned va 8
    interlock va 16 true
    let a ← actor
    let target ← a.load .plain va 8
    let d ← a.load .plain (va + 8) 4
    let _ ← a.place .store (va + 12) 4 (some false)
    let desc ← formAddr .load (BitVec.ofNat 64 target)
    let s ← get
    let h ← getHart
    let answer (n : Nat) : M Unit := a.storeNow (va + 12) 4 n
    match s.boundAt desc with
    | none => answer 2
    | some (asid, c) =>
      if c.state = .running ∨ c.state = .yielding ∨ c.state = .checkpointing then
        modCtx asid fun c => { c with parked := true, waiters := c.waiters ++ [(h.asid, va + 12)] }
        sendAway asid d
      else if c.state = .preempted then
        modCtx asid fun c => { c with parked := true }
        answer 1
      else answer 2
    retire) s

/-- `ctxload` (R270). -/
def execCtxload (ra : SReg) (s : State) : Host.Outcome State Fault Refusal :=
  issue (do
    onlyMg
    let va ← rS ra
    let desc ← formAddr .load va
    let s ← get
    match s.boundAt desc with
    | none => pure ()
    | some (asid, _) => modCtx asid fun c => { c with parked := false }
    retire) s

/-- A hart that left cooperatively on a deadline its context brought back from an earlier pre-emption takes the context with it: the
context is yielding, and a hart that counts no deadline is pre-empted by force (R267, log 33). -/
def leaveWith (asid : Nat) : M Unit := do
  let c ← getCtx asid
  if c.fault = none ∧ c.runs then do
    pauseParts asid 0
    setCtxState asid .yielding
    let s ← get
    let counts (h : Hart) : Bool := decide (h.asid = asid) && !h.stopped && h.deadline.isNone
    let leave (h : Hart) : Hart := if counts h then h.stop else h
    modCtx asid fun c => { c with forced := c.forced + (s.harts.filter fun e => counts e.2).length }
    modify fun s => { s with harts := s.harts.map fun e => (e.1, leave e.2) }
  else pure ()

/-- A hart is acknowledged to its collector: its stores have performed, none of its work is held, its registers and its region are written,
and its lane groups are free (R20, R265, R266). The last one completes the collection. -/
def collectHart (slot : Nat) : M Unit := do
  let s ← get
  match SMap.get? s.harts slot with
  | none => impossible
  | some h =>
    if !h.stopped || h.acked || s.held.any fun w => decide (w.slot = slot) then impossible
    else
      drainHart slot
      let s ← get
      if s.pending.any fun p => decide (p.slot = slot) then impossible else pure ()
      let c ← getCtx h.asid
      let save ← descField c 40 8
      collectorWrite h.asid slot (asHart slot .x spillDirty)
      let s ← get
      let h := (SMap.get? s.harts slot).getD h
      let image ← match ← attempt (writeHartRegion save h) with
        | .ok image => pure image
        | .error (.trap c v _ _) => do
          saveFault h.asid slot c v
          pure []
        | .error e => throw e
      modify fun s => { s with harts := SMap.put s.harts slot { h with acked := true, image := image } }
      if h.coop then leaveWith h.asid else pure ()
      checkCollected h.asid

/-- The hart at slot a acknowledges its collector (R265, R266). -/
def execCollectorAcknowledgement (s : State) : Host.Outcome State Fault Refusal :=
  event (do
    let s ← get
    collectHart s.curEv.a) s

/-- The saved harts of a context. -/
def State.savedHarts (s : State) (asid : Nat) : List Hart := (s.saved.filter fun e => e.2.asid == asid).map Prod.snd

/-- The resources that a context's resumption needs are free (R59, R269). -/
def State.canResume (s : State) (asid : Nat) : Bool :=
  let hs := s.savedHarts asid
  hs.all (fun h => (SMap.get? s.harts h.slot).isNone) &&
  (List.range 64).all (fun core => decide (((hs.filter fun h => coreOfSlot h.slot == core).map Hart.grant).sum ≤ s.freeGroups core)) &&
  (s.kernels.filter fun k => k.2.asid == asid).all (fun k => k.2.cores.all fun c => s.lsFree c.1 c.2 k.2.lsb) &&
  (List.range 64).all fun core => match SMap.get? s.savedCores (asid * 64 + core) with
    | some { mat := some _, .. } => (s.core core).mat.owner.isNone
    | _ => true

/-- What a changed allocation table leaves of a context's kernels on a core: any kid, and any bytes and place of the allocation in the local store, of
which no more is granted than was waited for (R268, R269, log 19). -/
def freeAllocation (asid core : Nat) : M Unit := do
  let s ← get
  each (s.kernels.filter fun k => k.2.asid == asid && (SMap.get? k.2.cores core).isSome) fun (num, k) => do
    let kid ← freeBytes 4
    let n ← freeWord
    let w ← freeWord
    let lsb := n.toNat % (k.lsb + 1)
    let s ← get
    let clear (o : Nat) : Bool := s.lsFree core o lsb && s.kernels.all fun e => e.1 == num || e.2.asid != asid || match SMap.get? e.2.cores core with
      | none => true
      | some b => decide (o + lsb ≤ b) || decide (b + e.2.lsb ≤ o)
    let spots := ((List.range 257).map (· * 4096)).filter clear
    let base := spots.getD (w.toNat % max 1 spots.length) ((SMap.get? k.cores core).getD 0)
    modify fun s => { s with kernels := SMap.put s.kernels num { k with kid := kid, lsb := lsb, cores := SMap.put k.cores core base } }

/-- What was changed of 256 bytes of a core region at an offset, from what the collector wrote there: bytes of the local stores, cells of the
accumulator planes, the part of no layout that the spec gives, and the scan image, which leaves the whole array unspecified (R203, R268, log 19). -/
def reloadPiece (asid core off old new : Nat) : M Unit := do
  let s ← get
  let differ (w j : Nat) : Bool := decide (bitsOf new (w * j) w ≠ bitsOf old (w * j) w)
  let mine := ownsArray s asid core
  if off < 0x100000 then
    each ((List.range 256).filter fun j => differ 8 j && s.holdsLs asid core (off + j)) fun j => do
      let b ← freeBytes 1
      modify fun s => { s with ls := s.ls.write (lsIndex core (off + j)) (BitVec.ofNat 8 b) }
  else if off < 0x180000 then
    if mine then
      each ((List.range 64).filter (differ 32)) fun j => freeCell core ((off - 0x100000) / 0x40000) ((off - 0x100000) % 0x40000 / 4 + j)
    else pure ()
  else if mine then do
    let m ← if off < 0x200000 then (s.core core).mat.freedRest else (s.core core).mat.freed
    modCore core fun k => { k with mat := m }
  else pure ()

/-- Restore a core's local stores and array; what was changed of its region of the save area becomes unspecified, field by field, and where several
pieces that say the same were changed it does so at each (R203, R204, R268, R269). -/
def reloadCore (asid core : Nat) : M Unit := do
  let s ← get
  match SMap.get? s.savedCores (asid * 64 + core) with
  | none => pure ()
  | some sc =>
    modify fun s =>
      let s := { s with ls := sc.ls.foldl (fun m p => p.2.foldl (fun m c => Memory.write m c.1 c.2) m) s.ls }
      match sc.mat with
      | none => s
      | some m => s.modCore core fun c => { c with mat := m }
    let c ← getCtx asid
    let save ← descField c 40 8
    let table ← eachFold sc.image false fun table (off, v) => do
      match ← attempt ((deviceActor deviceSlot asid).load .home (coreRegion save core + BitVec.ofNat 64 off) 256) with
      | .error (.wait w _) => waitFor w
      | .error _ => pure table
      | .ok x =>
        if x = v then pure table
        else do
          reloadPiece asid core off v x
          pure (table || (decide (0x180000 ≤ off) && decide (off < 0x200000)))
    if table then freeAllocation asid core else pure ()

/-- Restore a hart: its registers, with what was changed in the save area unspecified, its place, at least the groups it held, and its
residency (R59, R61, R268, R269, R345). -/
def reloadHart (h : Hart) : M Unit := do
  let c ← getCtx h.asid
  let save ← descField c 40 8
  let s ← get
  let parked ← match ← attempt (deviceRead h.asid (hartRegion save h.slot + 0x2D0) 8) with
    | .ok v => pure (v.testBit 3)
    | .error (.wait w _) => waitFor w
    | .error _ => pure false
  let h ← reloadAll save parked h
  let held := ((s.savedHarts h.asid).filter fun o => coreOfSlot o.slot == coreOfSlot h.slot).map Hart.grant
  let spare := min (h.req - h.grant) (s.freeGroups (coreOfSlot h.slot) - held.sum)
  let more ← freeWord
  let h := h.relength h.vt (h.grant + more.toNat % (spare + 1))
  let resident := (h.vres, h.pres)
  let h := { h with refA := s.tick, refX := s.tick, vres := [], pres := [], image := [] }
  modify fun s => { s with saved := SMap.del s.saved (h.asid * 1024 + h.slot), harts := SMap.put s.harts h.slot h }
  if h.live then
    let back (f : RFile) (x : Nat) : M Unit := do
      match ← attempt (asHart h.slot .x (spillIn f x)) with
      | .error (.wait w _) => waitFor w
      | _ => pure ()
    each resident.1 (back .v)
    each resident.2 (back .p)
    asHart h.slot .x placeAll
  else modify fun s => { s with harts := SMap.put s.harts h.slot { h with vres := resident.1, pres := resident.2 } }

/-- A hart that was halted by a double fault takes its trap again, with `thandler` and `tstack` read afresh (R251, R261). -/
def retakeHart (slot : Nat) : M Unit := do
  let s ← get
  match SMap.get? s.harts slot with
  | none => pure ()
  | some h =>
    if h.retake then
      let c ← getCtx h.asid
      let th ← descField c 16 8
      let ts ← descField c 24 8
      asHart slot (if h.estream then .a else .x) (do
        setHart { h with thandler := BitVec.ofNat 64 th &&& ~~~3#64, tstack := BitVec.ofNat 64 ts - BitVec.ofNat 64 (slot * 0x10000) }
        retakeTrap)
    else pure ()

/-- Context a resumes on the cores it left, which have switched to it; its parts of fabric kernels are reported to the other members (R22, R59, R269,
R365). -/
def execContextResumption (s : State) : Host.Outcome State Fault Refusal :=
  event (do
    let s ← get
    let asid := s.curEv.a
    let c ← getCtx asid
    if c.state = .preempted ∧ c.parked = false ∧ s.canResume asid then
      each (s.coresOf asid) fun core => do
        switchCore asid core
        reloadCore asid core
      let slots := (s.savedHarts asid).map Hart.slot
      each (s.savedHarts asid) reloadHart
      moveBarriers asid .broken .gathering
      modify fun s => { s with
        savedCores := SMap.delRange s.savedCores (asid * 64) (asid * 64 + 64)
        cores := s.cores.map fun k => { k with icache := k.icache.filter fun e => match e.2 with
          | .poison _ _ => decide (e.1 / 2 ^ 64 ≠ asid)
          | .word _ _ => true } }
      setCtxState asid .running
      postEvent asid 5 0 0 0
      each (s.kernels.filter fun k => k.2.partOf asid) fun k => tellPeers (.placed asid k.2.kid)
      each slots retakeHart
      contextEmpty asid
    else impossible) s

end Sys2Proof.Machine
end

