-- ==== Sys2Proof/Machine/Checkpoint.lean ====
section
/-! DEFINITION. Checkpoints: `ckfreeze`, `ckwait` and `ckrestore`, the end of a drain and of a restore, and `asidset`, whose unbind ends
a drain (R253, R254, R272, R367 to R372). -/

namespace Sys2Proof.Machine

/-- A checkpoint record's fields (R367). -/
def CkRec.of (addr : Word64) (b : Nat) : CkRec :=
  { addr := addr, plist := BitVec.ofNat 64 (bitsOf b 0 64), orec := BitVec.ofNat 64 (bitsOf b 64 64), sbase := BitVec.ofNat 64 (bitsOf b 128 64)
    sspan := bitsOf b 192 64, tdesc := BitVec.ofNat 64 (bitsOf b 256 64), npages := bitsOf b 320 32, rmax := bitsOf b 352 32
    g := bitsOf b 384 5, self := bitsOf b 392 4, lost := bitsOf b 400 5 }

/-- One mebibyte, the size of a unit (R369). -/
def mib : Nat := 2 ^ 20

/-- The rows that a source's pages fill (R369). -/
def CkRec.rows (r : CkRec) : Nat := (r.npages + 16 * (r.g - 1) - 1) / (16 * (r.g - 1))

/-- The reserved bits of a record (R367). -/
def ckReserved (b : Nat) : Bool := bitsOf b 389 3 = 0 ∧ bitsOf b 396 4 = 0 ∧ bitsOf b 405 3 = 0 ∧ bitsOf b 448 64 = 0

/-- Every field of a record is in range (R367). -/
def CkRec.inRange (r : CkRec) : Bool :=
  r.plist.toNat % 8 = 0 ∧ r.orec.toNat % 64 = 0 ∧ r.sbase.toNat % mib = 0 ∧ r.sspan % mib = 0 ∧ 2 ≤ r.g ∧ r.g ≤ 16 ∧ r.g * r.rmax * mib ≤ r.sspan ∧
    1 ≤ r.npages ∧ r.npages ≤ 2 ^ 20 ∧ r.self < r.g ∧ (r.lost < r.g ∨ r.lost = 31) ∧ r.rows ≤ r.rmax

/-- Read the record that a form names: misalignment and faults trap precisely, and a record that R367 does not allow is refused; `fresh`
asks that status and units are 0 at issue, and `freezes` that tdesc is (R272, R367). -/
def readCk (ra : SReg) (fresh freezes : Bool) : M (CkRec × Nat) := do
  let va ← rS ra
  aligned va 64
  interlock va 64 fresh
  let a ← actor
  let b ← read64 a va
  let r := CkRec.of va b
  if ckReserved b && r.inRange && (!fresh || decide (bitsOf b 408 40 = 0)) && (!freezes || decide (r.tdesc = 0)) then pure (r, bitsOf b 408 8)
  else trap 0x16 va

/-- The byte of a record's status. -/
def CkRec.statusAt (r : CkRec) : Word64 := r.addr + 51

/-- A page does not meet the conditions of a freeze (R368). -/
def unfit {α : Type} (page : Word64) : M α := trap 0x16 page 15

/-- Check and freeze page i of a set; the answer is its leaf, its frame and whether the freeze set O (R368). -/
def freezePage (a : Actor) (r : CkRec) (i : Nat) : M (Nat × Nat × Bool) := do
  interlock (r.plist + BitVec.ofNat 64 (8 * i)) 8 false
  let v ← a.load .home (r.plist + BitVec.ofNat 64 (8 * i)) 8
  let page := BitVec.ofNat 64 v
  if 2 ^ 56 ≤ v ∨ inWindow page then unfit page
  else
    let q ← a.req .load page none false
    match ← walk q.root v with
    | .leaf l =>
      match ← frameRec l.frame with
      | none => unfit page
      | some f =>
        if l.size = 2 ^ 16 ∧ l.tier ≤ 1 ∧ !inPeer l.frame ∧ f.moving = false ∧ f.count = 1 ∧ f.valid then
          if l.o then do
            let o ← readOverlay l.ovr
            if o.consistent ∧ o.v = 0 then
              putFrameRec { f with frozen := true }
              pure (l.addr, l.frame, false)
            else unfit page
          else do
            let ova := r.orec + BitVec.ofNat 64 (64 * i)
            interlock ova 64 true
            let z ← read64 a ova
            let p ← a.place .load ova 64 (some false)
            match p.loc with
            | .pa x =>
              if z = 0 ∧ inHbm x ∧ x % 64 = 0 then
                awaitEntry l.addr 16
                putFrameRec { f with frozen := true }
                hwWrite l.addr (putBits (putBits l.raw 11 1 1) 64 52 x) 16
                pure (l.addr, l.frame, true)
              else unfit page
            | _ => unfit page
        else unfit page
    | _ => unfit page

/-- `ckfreeze`: all pages of the set, or none; a release at `.dev` (R272, R368). -/
def execCkfreeze (ra : SReg) (s : State) : Host.Outcome State Fault Refusal :=
  issue (do
    onlyS
    let h ← getHart
    let st ← curStream
    let c ← getCtx h.asid
    if c.drains ≠ 0 then waitFor .checkpoint else pure ()
    let (r, _) ← readCk ra true true
    settle st .dev
    let a ← actor
    let pages ← eachMap (List.range r.npages) (freezePage a r)
    a.storeNow r.statusAt 1 1
    modify fun s => { s with drains := s.drains ++ [{ asid := h.asid, ck := r, pages := pages }] }
    modCtx h.asid fun c => { c with drains := c.drains + 1 }
    if c.state = .running then setCtxState h.asid .checkpointing else pure ()
    retire) s

/-- `ckwait`: an acquire at `.fab` once the drain or restore has ended (R272, R371). -/
def execCkwait (rd ra : SReg) (s : State) : Host.Outcome State Fault Refusal :=
  issue (do
    let st ← curStream
    let (_, status) ← readCk ra false false
    let answer ← match status with
      | 2 | 5 => pure 0#64
      | 3 => pure 2
      | 6 => pure 3
      | _ => waitFor .checkpoint
    wS rd answer
    refreshPoint st
    retire) s

/-- `ckrestore`: it starts the rebuild and retires; a target that is not a created context makes the status failed (R272, R372). -/
def execCkrestore (ra : SReg) (s : State) : Host.Outcome State Fault Refusal :=
  issue (do
    onlyMg
    let h ← getHart
    let (r, _) ← readCk ra true false
    let a ← actor
    let desc ← match ← attempt (formAddr .load r.tdesc) with
      | .ok x => pure (some x)
      | .error (.trap ..) => pure none
      | .error e => throw e
    let s ← get
    match desc.bind s.boundAt with
    | some (asid, c) =>
      if c.state = .created then
        a.storeNow r.statusAt 1 4
        modify fun s => { s with restores := s.restores ++ [{ asid := h.asid, ck := r, target := some asid }] }
      else a.storeNow r.statusAt 1 3
    | none => a.storeNow r.statusAt 1 3
    retire) s

/-- The address of row j's unit on member m (R369). -/
def CkRec.unitAt (r : CkRec) (j m : Nat) : Word64 := r.sbase + BitVec.ofNat 64 (m * r.sspan + (r.self * r.rmax + j) * mib)

/-- The member that holds row j's parity (R369). -/
def CkRec.parityOn (r : CkRec) (j : Nat) : Nat := (r.self + j) % r.g

/-- The member that holds row j's data unit k (R369). -/
def CkRec.dataOn (r : CkRec) (j k : Nat) : Nat := (r.parityOn j + 1 + k) % r.g

/-- The 256 bytes from byte x of a source's data: its frozen bases in list order, then zeros (R369). What a poisoned sector holds is not
stated (log 5). -/
def frozenChunk (d : Drain) (x : Nat) : M Nat :=
  match d.pages[x / 2 ^ 16]? with
  | none => pure 0
  | some (leaf, frame, _) => do
    let s ← get
    let at' := frame + x % 2 ^ 16
    if s.poisoned at' 256 || s.spoils leaf frame then freeBytes 256
    else
      let c ← getCtx d.asid
      let fk ← frameKey c.key frame
      readPA fk at' 256

/-- Chunk x of row j's unit: data unit k, or the parity of all of them (R369). -/
def unitChunk (d : Drain) (j : Nat) (k : Option Nat) (x : Nat) : M Nat :=
  match k with
  | some k => frozenChunk d (((d.ck.g - 1) * j + k) * mib + x)
  | none => eachFold (List.range (d.ck.g - 1)) 0 fun v k => do
    let u ← frozenChunk d (((d.ck.g - 1) * j + k) * mib + x)
    pure (v ^^^ u)

/-- Write one unit through the context's translations; false when a write faults. Which of its other bytes are written then is not stated
(R369, R370, log 5). -/
def writeUnit (d : Drain) (j : Nat) (k : Option Nat) : M Bool :=
  eachFold (List.range (mib / 256)) true fun ok i => do
    let go ← if ok then pure true else freeBool
    if !go then pure ok
    else
      let v ← unitChunk d j k (256 * i)
      let m := match k with
        | some k => d.ck.dataOn j k
        | none => d.ck.parityOn j
      match ← attempt ((deviceActor deviceSlot d.asid).storeNow (d.ck.unitAt j m + BitVec.ofNat 64 (256 * i)) 256 v) with
      | .ok () => pure ok
      | .error (.trap ..) => pure false
      | .error e => throw e

/-- The units of a drain: row, and data unit or parity. -/
def CkRec.units (r : CkRec) : List (Nat × Option Nat) :=
  (List.range r.rows).flatMap fun j => (j, none) :: (List.range (r.g - 1)).map fun k => (j, some k)

/-- Write the units of a drain; the answer is how many were written, and whether any write faulted. Which of the others are written once
one has faulted is not stated (R370, log 5). -/
def writeUnits (d : Drain) : M (Nat × Bool) :=
  eachFold d.ck.units (0, false) fun (n, bad) (j, k) => do
    let go ← if bad then freeBool else pure true
    if !go then pure (n, bad)
    else
      let ok ← writeUnit d j k
      pure (if ok then n + 1 else n, bad || !ok)

/-- A page of a set is let go: its overlay is committed privately, F is cleared, and O and ovr where the freeze set them (R370). -/
def thawPage (key : Nat) (p : Nat × Nat × Bool) : M Unit := do
  let (leaf, frame, setO) := p
  let e ← hwRead leaf 16
  let l := Leaf.of leaf [leaf] e
  let fk ← frameKey key frame
  if e.testBit 0 && l.o && decide (l.frame = frame) then
    let o ← readOverlay l.ovr
    if o.consistent then
      mergeLines leaf key o fk frame
      emptyOverlay o
    else pure ()
    if setO then do
      awaitEntry leaf 16
      hwWrite leaf (putBits (putBits e 11 1 0) 64 52 0) 16
    else pure ()
  else pure ()
  match ← frameRec frame with
  | none => pure ()
  | some f => putFrameRec { f with frozen := false }

/-- Write bytes of a record for the device, in its context; a record that can no longer be written is left (log 30). -/
def writeCk (asid : Nat) (va : Word64) (n v : Nat) : M Unit := do
  match ← attempt ((deviceActor deviceSlot asid).storeNow va n v) with
  | .error (.wait w _) => waitFor w
  | _ => pure ()

/-- A drain ends with a status (R370). -/
def finishDrain (d : Drain) (units : Option Nat) (status : Nat) : M Unit := do
  let c ← getCtx d.asid
  each d.pages (thawPage c.key)
  match units with
  | some n => writeCk d.asid (d.ck.addr + 52) 4 n
  | none => pure ()
  writeCk d.asid d.ck.statusAt 1 status
  modCtx d.asid fun c => { c with drains := c.drains - 1 }
  let c ← getCtx d.asid
  if c.state = .checkpointing ∧ c.drains = 0 then
    setCtxState d.asid .running
    contextEmpty d.asid
  else pure ()

/-- Drain a ends: every unit has been written, or some unit write has faulted (R370). -/
def execDrainEnd (s : State) : Host.Outcome State Fault Refusal :=
  event (do
    let s ← get
    match s.drains[s.curEv.a]? with
    | none => impossible
    | some d =>
      let (n, bad) ← writeUnits d
      modify fun s => { s with drains := s.drains.eraseIdx s.curEv.a }
      finishDrain d (some n) (if bad then 3 else 2)) s

/-- The drains of a context end as failed before it is unbound (R370). -/
def failDrains (asid : Nat) : M Unit := do
  let s ← get
  set { s with drains := s.drains.filter fun d => d.asid != asid }
  each (s.drains.filter fun d => d.asid == asid) fun d => finishDrain d none 3

/-- Row j's unit on member m, from the issuer's stripe window; none where it cannot be read (R372). -/
def stripeUnit (asid : Nat) (r : CkRec) (j m : Nat) : M (Option Nat) :=
  eachFold (List.range (mib / 256)) (some 0) fun v i => do
    match v with
    | none => pure none
    | some v =>
      match ← attempt ((deviceActor deviceSlot asid).load .home (r.unitAt j m + BitVec.ofNat 64 (256 * i)) 256) with
      | .ok u => pure (some (v + u * 2 ^ (2048 * i)))
      | .error (.trap ..) => pure none
      | .error e => throw e

/-- Member m's unit of row j is read: a data unit that is not lost, and the parity where a lost data unit is rebuilt from it (R372). -/
def CkRec.needs (r : CkRec) (j m : Nat) : Bool := decide (m ≠ r.lost) && (decide (m ≠ r.parityOn j) || (decide (r.lost ≠ 31) && decide (r.lost ≠ r.parityOn j)))

/-- The data of row j: its data units in order, a lost one rebuilt as the XOR of the row's other units; none where a unit that is needed
cannot be read (R372). -/
def restoredRow (asid : Nat) (r : CkRec) (j : Nat) : M (Option Nat) := do
  let us ← eachMap (List.range r.g) fun m => if r.needs j m then stripeUnit asid r j m else pure (some 0)
  if us.any Option.isNone then pure none
  else
    let us := us.map fun u => u.getD 0
    let unit (k : Nat) : Nat := if r.dataOn j k = r.lost then us.foldl (· ^^^ ·) 0 else us.getD (r.dataOn j k) 0
    pure (some ((List.range (r.g - 1)).foldl (fun v k => v + unit k * 2 ^ (8 * mib * k)) 0))

/-- Write a page in place through the target's translations, past any overlay; false where it cannot be written (R372, log 30). A page in a
peer window leaves by the links (R363). -/
def restorePage (target : Nat) (r : CkRec) (i v : Nat) : M Bool := do
  let c ← getCtx target
  let a := deviceActor deviceSlot target
  match ← attempt (a.load .home (r.plist + BitVec.ofNat 64 (8 * i)) 8) with
  | .error (.trap ..) => pure false
  | .error e => throw e
  | .ok page =>
    let va := BitVec.ofNat 64 (page / 2 ^ 16 * 2 ^ 16)
    let q : Req := { root := c.root, key := c.key, user := false, kind := .store, va := va, z := some false, dry := true }
    if 2 ^ 56 ≤ page ∨ inWindow va then pure false
    else match ← attempt (do
      let l ← lookup q
      let b ← baseTarget q l
      setA l
      pure (l, b)) with
    | .ok (_, .pa b) =>
      let fk ← frameKey c.key (b / 2 ^ 16 * 2 ^ 16)
      drainVia b (2 ^ 16)
      writePA fk b v (2 ^ 16)
      dropEverywhere (sectorsOf b (2 ^ 16))
      modify fun s => (sectorsOf b (2 ^ 16)).foldl State.soundSector s
      pure true
    | .ok (_, .peer _ _) => do
      match ← attempt (each (List.range 256) fun i => a.storeNow (va + BitVec.ofNat 64 (256 * i)) 256 (bitsOf v (2048 * i) 2048)) with
      | .ok () => pure true
      | .error (.trap ..) => pure false
      | .error e => throw e
    | .ok (_, .nowhere _) => pure true
    | .ok _ => pure false
    | .error (.trap ..) => pure false
    | .error e => throw e

/-- The rows of a restore, each read whole before its pages are written; false at the first that fails (R372). -/
def restoreRows (t : Restore) (target : Nat) : M Bool :=
  eachFold (List.range t.ck.rows) true fun ok j => do
    if !ok then pure false
    else match ← restoredRow t.asid t.ck j with
      | none => pure false
      | some v =>
        let per := 16 * (t.ck.g - 1)
        eachFold ((List.range per).filter fun i => j * per + i < t.ck.npages) true fun ok i => do
          if ok then restorePage target t.ck (j * per + i) (bitsOf v (i * 2 ^ 19) (2 ^ 19)) else pure false

/-- Restore a ends. How many units a failed one had read is not stated (R372, log 5). -/
def execRestoreEnd (s : State) : Host.Outcome State Fault Refusal :=
  event (do
    let s ← get
    match s.restores[s.curEv.a]? with
    | none => impossible
    | some t =>
      modify fun s => { s with restores := s.restores.eraseIdx s.curEv.a }
      if (SMap.get? s.contexts t.asid).isSome then
        let ok ← match t.target with
          | none => pure false
          | some asid => restoreRows t asid
        let some' ← freeWord
        writeCk t.asid (t.ck.addr + 52) 4 (if ok then t.ck.rows * (t.ck.g - 1) else some'.toNat % 2 ^ 32)
        writeCk t.asid t.ck.statusAt 1 (if ok then (if t.ck.lost = 31 then 5 else 6) else 3)
      else pure ()) s

/-- `asidset`: the request holds the descriptor's address, with the command in bits 6:0 (R254). -/
def execAsidset (rd ra : SReg) (s : State) : Host.Outcome State Fault Refusal :=
  issue (do
    onlyMg
    let v ← rS ra
    let desc ← formAddr .store (v &&& ~~~0x7F#64)
    let status ← asidCommand (v.toNat % 128) desc failDrains
    wS rd (BitVec.ofNat 64 status)
    retire) s

end Sys2Proof.Machine
end

