-- ==== Sys2Proof/Machine/Cutter.lean ====
section
/-! DEFINITION. The tile cutter: sparse descriptors, bound registers, and the forms `cut`, `cutp` and `cutd` (R349 to R358). A
form reads and writes in the step in which it issues; where its entries meet those of another hart's unordered form, each may come first (R357). -/

namespace Sys2Proof.Machine

/-- A sparse descriptor's fields (R349). -/
structure Sparse where
  brc : Bool
  fmt : Fmt
  bcol : Nat
  bnz : Nat
  nrows : Nat
  ncols : Nat
  mrow : Nat
  rowptr : Word64
  colidx : Word64
  vals : Word64
  cmap : Word64
  bout : Word64
  deriving DecidableEq, Repr

/-- Cost of a nonzero in elements (R349). -/
def Sparse.w (d : Sparse) : Nat := if d.brc then 16 else 1
/-- Columns of a nonzero (R349). -/
def Sparse.cw (d : Sparse) : Nat := if d.brc then 4 else 1
/-- Element rows of a row (R349). -/
def Sparse.h (d : Sparse) : Nat := if d.brc then 4 else 1

/-- A descriptor's fields; none where one is out of its range (R349, R352). -/
def Sparse.parse (b : Nat) : Option Sparse :=
  match Fmt.ofCode? (bitsOf b 8 4) with
  | none => none
  | some f =>
    let word (byte : Nat) : Word64 := BitVec.ofNat 64 (bitsOf b (8 * byte) 64)
    let d : Sparse :=
      { brc := b.testBit 0, fmt := f, bcol := bitsOf b 16 16, bnz := bitsOf b 32 32, nrows := bitsOf b 64 32, ncols := bitsOf b 96 32
        mrow := bitsOf b 128 16, rowptr := word 24, colidx := word 32, vals := word 40, cmap := word 48, bout := word 56 }
    let m4 (n : Nat) : Bool := !d.brc || decide (n % 4 = 0)
    if bitsOf b 1 7 = 0 ∧ bitsOf b 12 4 = 0 ∧ bitsOf b 144 48 = 0 ∧ f ≠ .b4 ∧
        1 ≤ d.bcol ∧ d.bcol ≤ 256 ∧ m4 d.bcol ∧ 1 ≤ d.bnz ∧ d.bnz ≤ 65536 ∧ (!d.brc || decide (d.bnz % 16 = 0)) ∧
        d.nrows < 2 ^ 31 ∧ 1 ≤ d.ncols ∧ d.ncols < 2 ^ 31 ∧ m4 d.ncols ∧ 1 ≤ d.mrow ∧ d.mrow ≤ 256 ∧ m4 d.mrow ∧
        d.rowptr.toNat % 4 = 0 ∧ d.colidx.toNat % 4 = 0 ∧ d.vals.toNat % esizeOf f = 0 ∧
        inWindow d.cmap ∧ d.cmap.toNat % 4 = 0 ∧ inWindow d.bout ∧ d.bout.toNat % 32 = 0 then some d
    else none

/-- Raise cutter descriptor with a subcode (R352). -/
def cutterTrap {α : Type} (sub : BitVec 5) : M α := trapWord 0x14 sub

/-- A local-store range that a cutter form writes: bytes outside the allocation raise 0x0A at the lowest (R352). -/
def localRange (va : Word64) (n : Nat) : M Unit := do
  let a ← actor
  match a.window with
  | none => trap 0x0A va
  | some (_, _, size) =>
    if va.toNat - windowBase + n ≤ size then pure ()
    else trap 0x0A (BitVec.ofNat 64 (max va.toNat (windowBase + size)))

/-- What other harts have in flight to bytes that a form reads performs before it or not: a rewrite that nothing orders is read entry by
entry (R357). -/
def meetOthers (a : Actor) (l : Loc) (n : Nat) : M Unit := do
  let s ← get
  each (s.pending.filter fun p => decide (p.slot ≠ a.slot) && p.touches l n) fun p => do
    let first ← freeBool
    if first then drain fun q => q == p else pure ()

/-- A number of n bytes read from its home, after the transfers it conflicts with (R352, R357). -/
def cutRead (va : Word64) (n : Nat) : M Nat := do
  interlock va n false
  let a ← actor
  let p ← probe (a.place .load va n (some false))
  meetOthers a p.loc n
  a.load .home va n

/-- A number of n bytes written at its home, after the transfers it conflicts with. -/
def cutWrite (va : Word64) (n v : Nat) : M Unit := do
  interlock va n true
  let a ← actor
  { a with drops := false }.storeNow va n v

/-- An entry of a map or of a bound copy in the local store still holds what a form of another hart wrote there, which nothing has ordered since. -/
def State.unorderedCut (s : State) (slot : Nat) (l : Loc) (n : Nat) : Bool :=
  s.cutMarks.any fun m => decide (m.slot ≠ slot) && decide (m.loc = l) && decide (m.len = n) && match l with
    | .ls c o => s.ls.readLE (lsIndex c o) n == m.bits
    | _ => false

/-- An entry of a map or of a bound copy written: after or before the same entry of another hart's unordered form, so that two such forms leave a
mix of their entries (R357). -/
def cutEntry (va : Word64) (n v : Nat) : M Unit := do
  let a ← actor
  let p ← probe (a.place .store va n (some false))
  let s ← get
  let first ← if s.unorderedCut a.slot p.loc n then freeBool else pure false
  if first then interlock va n true
  else
    cutWrite va n v
    modify fun s => { s with cutMarks := s.cutMarks ++ [{ slot := a.slot, loc := p.loc, len := n, bits := v }] }

/-- An n32 entry of an array (R352). -/
def entry32 (base : Word64) (i : Nat) : M Nat := cutRead (base + BitVec.ofNat 64 (4 * i)) 4

/-- Read and check the descriptor at an address (R352, R353). -/
def readSparse (va : Word64) : M Sparse := do
  aligned va 64
  let b ← eachFold (List.range 8) 0 fun v i => do
    let x ← cutRead (va + BitVec.ofNat 64 (8 * i)) 8
    pure (v + x * 2 ^ (64 * i))
  match Sparse.parse b with
  | none => cutterTrap 9
  | some d =>
    localRange d.cmap 1024
    localRange d.bout 32
    pure d

/-- The fields of a bound record (R350). -/
structure BoundRec where
  desc : Word64
  r0 : Nat
  k0 : Nat
  rn : Nat
  k1 : Nat
  r1 : Nat
  nc : Nat
  empty : Bool
  split : Bool
  last : Bool
  pdone : Bool
  ddone : Bool
  deriving DecidableEq, Repr

/-- A bound register's fields (R350). -/
def BoundRec.of (b : Bound) : BoundRec :=
  let x := b.toNat
  { desc := BitVec.ofNat 64 (bitsOf x 0 64), r0 := bitsOf x 64 32, k0 := bitsOf x 96 32, rn := bitsOf x 128 32, k1 := bitsOf x 160 32
    r1 := bitsOf x 192 32, nc := bitsOf x 224 16, empty := x.testBit 240, split := x.testBit 241, last := x.testBit 242
    pdone := x.testBit 243, ddone := x.testBit 244 }

/-- A bound record as a register (R350). -/
def BoundRec.word (r : BoundRec) : Bound :=
  BitVec.ofNat 256 (r.desc.toNat + r.r0 * 2 ^ 64 + r.k0 * 2 ^ 96 + r.rn * 2 ^ 128 + r.k1 * 2 ^ 160 + r.r1 * 2 ^ 192 + r.nc * 2 ^ 224 +
    r.empty.toNat * 2 ^ 240 + r.split.toNat * 2 ^ 241 + r.last.toNat * 2 ^ 242 + r.pdone.toNat * 2 ^ 243 + r.ddone.toNat * 2 ^ 244)

/-- Write a bound record to its register and to bout (R353 to R355). -/
def putBound (bd : BRegNo) (d : Sparse) (r : BoundRec) : M Unit := do
  let b := r.word
  each (List.range 4) fun i => cutEntry (d.bout + BitVec.ofNat 64 (8 * i)) 8 (bitsOf b.toNat (64 * i) 64)
  modHart fun h => { h with b := vput h.b bd.val b }

/-- Columns rise strictly and lie below a bound (R349, R352). -/
def risingBelow (bound : Nat) : List Nat → Bool
  | [] => true
  | [c] => decide (c < bound)
  | c :: c' :: rest => decide (c < c') && decide (c < bound) && risingBelow bound (c' :: rest)

/-- Read column indices from nonzero t on, at most n of them, while the distinct columns stay within a budget. The answer is the
indices taken, the set with them, and whether all n were taken (R353). -/
def readColumns (d : Sparse) : Nat → Nat → List Nat → M (List Nat × List Nat × Bool)
  | 0, _, set => pure ([], set, true)
  | n + 1, t, set => do
    let c ← entry32 d.colidx t
    let set' := addNum set c
    if d.cw * set'.length ≤ d.bcol then
      let (cs, set'', all) ← readColumns d n (t + 1) set'
      pure (c :: cs, set'', all)
    else pure ([], set, false)

/-- What a cut has taken: rows up to r1, nonzeros up to k1, their number of elements, and the columns. -/
structure Cut where
  r1 : Nat
  k1 : Nat
  nz : Nat
  set : List Nat
  split : Bool
  deriving DecidableEq, Repr

/-- The row loop of `cut` (R353); the number bounds how many rows a tile can take. -/
def cutRows (d : Sparse) (r k : Nat) : Nat → Cut → M Cut
  | 0, c => pure c
  | n + 1, c =>
    if c.r1 < d.nrows ∧ (c.r1 + 1 - r) * d.h ≤ d.mrow then do
      let s ← if c.r1 = r then pure k else entry32 d.rowptr c.r1
      let e ← entry32 d.rowptr (c.r1 + 1)
      if e < s then cutterTrap 12
      else
        let whole ← if c.nz + d.w * (e - s) ≤ d.bnz then do
            let (cs, set, all) ← readColumns d (e - s) s c.set
            pure (if all then some (cs, set) else none)
          else pure none
        match whole with
        | some (cs, set) =>
          if risingBelow (d.ncols / d.cw) cs then
            cutRows d r k n { c with r1 := c.r1 + 1, k1 := e, nz := c.nz + d.w * (e - s), set := set }
          else cutterTrap 10
        | none =>
          if c.r1 = r then
            let room := (d.bnz - c.nz) / d.w
            let (cs, set, _) ← readColumns d (min (e - s) room) s c.set
            if risingBelow (d.ncols / d.cw) cs then
              pure { r1 := r + 1, k1 := s + cs.length, nz := c.nz + d.w * cs.length, set := set, split := true }
            else cutterTrap 10
          else pure c
    else pure c

/-- What the cutter forms share at issue: the stream, room in the interlock table, and the hart's earlier stores performed (R352,
R357). -/
def cutterIssue (n : Nat) : M Unit := do
  onlyA
  needTable n
  let h ← getHart
  drainHart h.slot

/-- `cut` (R353). -/
def execCut (bd : BRegNo) (ra rb : SReg) (s : State) : Host.Outcome State Fault Refusal :=
  issue (do
    cutterIssue 5
    let va ← rS ra
    let cursor ← rS rb
    let d ← readSparse va
    let r := bitsOf cursor.toNat 0 32
    let k := bitsOf cursor.toNat 32 32
    if d.nrows < r then cutterTrap 12
    else if r = d.nrows then
      let k' ← entry32 d.rowptr d.nrows
      putBound bd d { desc := va, r0 := r, k0 := k', rn := r, k1 := k', r1 := r, nc := 0, empty := true, split := false, last := true
                      pdone := false, ddone := false }
    else
      let p0 ← entry32 d.rowptr r
      let p1 ← entry32 d.rowptr (r + 1)
      let k := max k p0
      if p1 < k then cutterTrap 12
      else
        let c ← cutRows d r k 256 { r1 := r, k1 := k, nz := 0, set := [], split := false }
        let rn := if c.split then r else c.r1
        each (c.set.zipIdx) fun (col, j) =>
          each (List.range d.cw) fun v => cutEntry (d.cmap + BitVec.ofNat 64 (4 * (d.cw * j + v))) 4 (d.cw * col + v)
        putBound bd d { desc := va, r0 := r, k0 := k, rn := rn, k1 := c.k1, r1 := c.r1, nc := d.cw * c.set.length
                        empty := decide (c.k1 = k), split := c.split, last := decide (rn = d.nrows), pdone := false, ddone := false }
    retire) s

/-- A layout record of a cutter form, under the rules of R243 and those of R354 for one record. -/
def cutRecord (va : Word64) (dst : Bool) : M Layout := do
  let b ← recordCached va
  let l ← parsed va b
  if l.fmt = .b4 ∨ l.z ∨ l.dim 2 ≠ 1 ∨ l.dim 3 ≠ 1 ∨ (dst ∧ (inWindow l.base = false ∨ 2 ^ 20 < l.size)) then recordBad va
  else pure l

/-- The lowest byte of a record's elements that lies outside the first `size` bytes of the local-store window (R352). -/
def Layout.lowestOutside (l : Layout) (size : Nat) : Option Nat :=
  ((List.range l.count).filterMap fun o =>
    let x := (l.ord o).1.toNat
    if x < windowBase ∨ windowBase + size ≤ x then some x
    else if windowBase + size < x + esizeOf l.fmt then some (windowBase + size)
    else none).foldl (fun low x => some (low.elim x (min x))) none

/-- A record's elements are aligned, and a destination's lie in the kernel's allocation (R139, R352, R354). -/
def recordPlaced (l : Layout) (dst : Bool) : M Unit := do
  match l.misaligned with
  | some va => trap 0x08 va
  | none => pure ()
  if dst then
    let a ← actor
    match l.lowestOutside (match a.window with | none => 0 | some (_, _, size) => size) with
    | some x => trap 0x0A (BitVec.ofNat 64 x)
    | none => pure ()
  else pure ()

/-- The column map's entries (R354, R355). -/
def readMap (d : Sparse) (nc : Nat) : M (List Nat) := eachMap (List.range nc) fun j => entry32 d.cmap j

/-- An element of a partner's tile: of the row that the map names, or zero past it (R354). -/
def partner (src : Layout) (map : List Nat) (nc i j : Nat) : M Nat :=
  if j < nc then cutRead (src.at i (map.getD j 0) 0 0).1 (esizeOf src.fmt) else pure 0

/-- `cutp`: every source fault is found before any byte is written, and the elements are copied in the order written (R354). -/
def execCutp (bd : BRegNo) (ra rb : SReg) (s : State) : Host.Outcome State Fault Refusal :=
  issue (do
    cutterIssue 5
    let h ← getHart
    let b := BoundRec.of (h.b.getD bd.val 0)
    if b.desc = 0 ∨ b.pdone ∨ b.ddone then cutterTrap 11
    else
      let d ← readSparse b.desc
      let da ← rS ra
      let sa ← rS rb
      aligned da 64
      aligned sa 64
      let dst ← cutRecord da true
      let src ← cutRecord sa false
      if dst.fmt ≠ src.fmt ∨ src.dim 0 < dst.dim 0 ∨ dst.dim 1 < b.nc then recordBad da
      else if src.dim 1 < d.ncols then recordBad sa
      else
        recordPlaced dst true
        recordPlaced src false
        let map ← readMap d b.nc
        let elements (f : Nat → Nat → M Unit) : M Unit := each (List.range (dst.dim 1)) fun j => each (List.range (dst.dim 0)) fun i => f i j
        elements fun i j => do
          let _ ← probe (partner src map b.nc i j)
        elements fun i j => do
          let v ← partner src map b.nc i j
          cutWrite (dst.at i j 0 0).1 (esizeOf dst.fmt) v
        putBound bd d { b with pdone := true }
        retire) s

/-- The rows of a tile with their first nonzero and the one past their last (R355). -/
def tileRows (d : Sparse) (r0 r1 : Nat) : M (List (Nat × Nat)) :=
  eachMap (List.range (r1 - r0)) fun i => do
    let s ← entry32 d.rowptr (r0 + i)
    let e ← entry32 d.rowptr (r0 + i + 1)
    pure (s, e)

/-- A nonzero of a tile: its row in the tile, its column in the map, and its values. A column that the map does not hold, or a nonzero that lies in
none of the rows, which only arrays changed since the cut can bring about, has no stated place: a free one of the tile's (R355, log 5, log 40). -/
def tileItem (d : Sparse) (b : BoundRec) (dst : Layout) (map : List Nat) (t : Nat) : M (Nat × Nat × List Nat) := do
  let spans ← tileRows d b.r0 b.r1
  let c ← entry32 d.colidx t
  let vals ← eachMap (List.range (d.h * d.cw)) fun q => cutRead (d.vals + BitVec.ofNat 64 ((d.w * t + q) * esizeOf dst.fmt)) (esizeOf dst.fmt)
  let col := map.idxOf (d.cw * c)
  let j ← if col < map.length then pure col else do
    let w ← freeWord
    pure (w.toNat % max 1 (dst.dim 0))
  let row := spans.findIdx fun se => decide (se.1 ≤ t) && decide (t < se.2)
  let r ← if row < spans.length then pure row else do
    let w ← freeWord
    pure (w.toNat % max 1 spans.length)
  pure (r, j, vals)

/-- Zeros in the rows of a tile (R355). -/
def clearTile (dst : Layout) (row0 rows : Nat) : M Unit :=
  each (List.range rows) fun i => each (List.range (dst.dim 0)) fun c => cutWrite (dst.at c (row0 + i) 0 0).1 (esizeOf dst.fmt) 0

/-- A nonzero of a tile is written, as far as its row goes (R355). -/
def writeItem (d : Sparse) (dst : Layout) (row0 : Nat) (item : Nat × Nat × List Nat) : M Unit :=
  let (r, j, vals) := item
  each (vals.zipIdx.filter fun e => decide (j + e.2 % d.cw < dst.dim 0)) fun (v, q) =>
    cutWrite (dst.at (j + q % d.cw) (row0 + r * d.h + q / d.cw) 0 0).1 (esizeOf dst.fmt) v

/-- `cutd`: the map is read, the tile's rows are cleared, and then its nonzeros are read and written one by one (R355). -/
def execCutd (bd : BRegNo) (ra rb : SReg) (s : State) : Host.Outcome State Fault Refusal :=
  issue (do
    cutterIssue 7
    let h ← getHart
    let b := BoundRec.of (h.b.getD bd.val 0)
    if b.pdone = false ∨ b.ddone then cutterTrap 11
    else
      let d ← readSparse b.desc
      let da ← rS ra
      let org ← rS rb
      let row0 := org.toNat % 2 ^ 16
      let rows := (b.r1 - b.r0) * d.h
      aligned da 64
      let dst ← cutRecord da true
      if dst.fmt ≠ d.fmt ∨ dst.dim 0 < b.nc ∨ dst.dim 1 < row0 + rows then recordBad da
      else
        recordPlaced dst true
        let map ← readMap d b.nc
        clearTile dst row0 rows
        each (List.range (b.k1 - b.k0)) fun i => do
          let item ← tileItem d b dst map (b.k0 + i)
          writeItem d dst row0 item
        putBound bd d { b with ddone := true }
        retire) s

end Sys2Proof.Machine
end

