-- ==== Sys2Proof/Machine/Link.lean ====
section
/-! DEFINITION. The links: the CXL and Voltor ports, flits, accesses that arrive from peers, and stores to peers that are lost (R360 to
R364, R368, R371, R378). -/

namespace Sys2Proof.Machine

/-- Change a Voltor port. -/
def modVoltor (p : Nat) (f : Voltor → Voltor) : M Unit :=
  modify fun s => { s with voltor := vput s.voltor p (f (s.voltor.getD p .start)) }

/-- A Voltor port's state; there is no port from the eighth on. -/
def voltorState (p : Nat) : M VoltorState := do
  let s ← get
  if 8 ≤ p then impossible else pure (s.voltor.getD p .start).state

/-- A port begins to train (R361). -/
def trainVoltor (p : Nat) : M Unit := modVoltor p fun v => { v with state := .training, cycles := 0 }

/-- A port ends its training as failed; the failure is logged. The stores in its replay buffer are in flight again, to be retried on another port
or lost (R361, R364, R383). -/
def failVoltor (p : Nat) : M Unit := do
  let s ← get
  modVoltor p fun v => { v with state := .failed, replay := [] }
  modify fun t => { t with pending := ((s.voltor.getD p .start).replay.filterMap SentFlit.store).foldl (fun l q => putBack q l) t.pending }
  logError 7 p 0

/-- The cycles of its die in which a port must train (R361). -/
def trainingLimit : Nat := 2 ^ 24

/-- CXL port a finishes training, up or failed (R378). -/
def execCxlPortTrainingDone (s : State) : Host.Outcome State Fault Refusal :=
  event (do
    let s ← get
    let p := s.curEv.a
    if 4 ≤ p ∨ s.level ≠ .s2 ∨ s.cxl.getD p .failed ≠ .untrained then impossible
    else if s.curEv.yes then set { s with cxl := vput s.cxl p .up }
    else
      set { s with cxl := vput s.cxl p .failed }
      logError 7 p 0) s

/-- Voltor port a finishes training with b bad data lanes and c good spares (R361). -/
def execVoltorTrainingDone (s : State) : Host.Outcome State Fault Refusal :=
  event (do
    let s ← get
    let e := s.curEv
    let st ← voltorState e.a
    if st ≠ .training ∨ 32 < e.b ∨ 2 < e.c ∨ trainingLimit ≤ (s.voltor.getD e.a .start).cycles then impossible
    else if e.b = 0 then modVoltor e.a fun v => { v with state := .up, replaced := 0 }
    else if e.b ≤ e.c then modVoltor e.a fun v => { v with state := .degraded, replaced := e.b }
    else failVoltor e.a) s

/-- Voltor port a has not finished training in time (R361). -/
def execVoltorTrainingTimeout (s : State) : Host.Outcome State Fault Refusal :=
  event (do
    let s ← get
    let p := s.curEv.a
    let st ← voltorState p
    if st = .training ∧ trainingLimit ≤ (s.voltor.getD p .start).cycles then failVoltor p else impossible) s

/-- A lane fault sends Voltor port a back to training (R361). -/
def execVoltorLaneFault (s : State) : Host.Outcome State Fault Refusal :=
  event (do
    let s ← get
    let st ← voltorState s.curEv.a
    if st = .up ∨ st = .degraded then trainVoltor s.curEv.a else impossible) s

/-- Voltor port a loses its signal (R361). -/
def execLossOfSignal (s : State) : Host.Outcome State Fault Refusal :=
  event (do
    let s ← get
    let st ← voltorState s.curEv.a
    if st = .failed then impossible else modVoltor s.curEv.a fun v => { v with state := .down }) s

/-- A firmware command trains Voltor port a (R361). -/
def execVoltorFirmwareCommand (s : State) : Host.Outcome State Fault Refusal :=
  event (do
    let s ← get
    let st ← voltorState s.curEv.a
    if st = .down ∧ s.level = .s2 then trainVoltor s.curEv.a else impossible) s

/-- A sequence number is at or before another, modulo 2^16. -/
def seqUpTo (a b : BitVec 16) : Bool := decide ((b - a).toNat < 2 ^ 15)

/-- The sequence number of a flit (R360). -/
def seqOf (flit : BitVec 2048) : BitVec 16 := Config.flitSeq (flit.extractLsb' 0 128)

/-- A flit arrives at Voltor port a, after decryption: it is delivered when its CRC holds and it is the next in sequence, and what it
acknowledges leaves the replay buffer (R360, R361). A flit that the other end does not acknowledge stays there, to be sent again. -/
def execFlitReceive (s : State) : Host.Outcome State Fault Refusal :=
  event (do
    let s ← get
    let e := s.curEv
    let flit := BitVec.ofNat 2048 e.data
    let st ← voltorState e.a
    if st ≠ .up ∧ st ≠ .degraded then impossible
    else if Config.crc64 (flit.extractLsb' 0 1984) ≠ flit.extractLsb' 1984 64 then pure ()
    else
      let ack := Config.flitAck (flit.extractLsb' 1920 64)
      modVoltor e.a fun v =>
        let v := { v with acked := ack.setWidth 64, replay := v.replay.filter fun f => !seqUpTo f.seq ack }
        if seqOf flit = v.rxSeq then { v with rxSeq := v.rxSeq + 1, delivered := v.delivered ++ [flit] } else v) s

/-- Where a physical store or load of the outside falls: the base, or, on a page frozen for a checkpoint, the page's overlay, whose line a
store copies first (R222, R223, R373). The answer has the key slot of the bytes. -/
def outsideTarget (key pa : Nat) (stores : Bool) : M (Nat × Nat) := do
  let frame := pa / 2 ^ 16 * 2 ^ 16
  let s ← get
  match s.drains.findSome? fun d => (d.pages.find? fun p => p.2.1 == frame).map fun p => (d.asid, p) with
  | none => pure (pa, key)
  | some (asid, leaf, _, _) =>
    let c ← getCtx asid
    let e ← hwRead leaf 16
    let l := Leaf.of leaf [leaf] e
    if !l.o || decide (l.frame ≠ frame) then pure (pa, key)
    else
      let o ← readOverlay l.ovr
      let i := pa % 2 ^ 16 / 256
      if !o.consistent then pure (pa, key)
      else if o.v.testBit i then pure (o.ext + 256 * o.slot i + pa % 256, c.key)
      else if stores then
        let q : Req := { root := c.root, key := c.key, user := false, kind := .store, va := 0, z := none, dry := false }
        let o ← copyOnWrite q l o i
        pure (o.ext + 256 * o.slot i + pa % 256, c.key)
      else pure (pa, key)

/-- Store n bytes from outside at their home, under a key slot; the bytes are unspecified when no key is loaded there (R162, R255). -/
def outsideStore (key pa n v : Nat) : M Unit := do
  let (at', k) ← outsideTarget key pa true
  drainVia at' n
  let s ← get
  let v ← if (s.keyOf k).isSome then pure v else freeBytes n
  writePA k at' v n

/-- Load n bytes from outside at their home; what a poisoned sector or an unloaded key gives is unspecified. -/
def outsideLoad (key pa n : Nat) : M Nat := do
  let (at', k) ← outsideTarget key pa false
  let s ← get
  if s.poisoned at' n || (s.keyOf k).isNone then freeBytes n else readPA k at' n

/-- The pieces of n bytes at an address that lie in one aligned doubleword each, which are whole for every observer: address, length and
offset (R162, R376). -/
def inDoublewords (pa n : Nat) : List (Nat × Nat × Nat) :=
  (List.range ((pa + n + 7) / 8 - pa / 8)).map fun i =>
    let lo := max pa (8 * (pa / 8 + i))
    (lo, min (pa + n) (8 * (pa / 8 + i) + 8) - lo, lo - pa)

/-- Write n bytes from outside; a sector written whole loses its poison (R140, R376, R382). -/
def outsideWrite (key pa n v : Nat) : M Unit := do
  each (inDoublewords pa n) fun (a, len, i) => outsideStore key a len (bitsOf v (8 * i) (8 * len))
  each ((sectorsOf pa n).filter fun x => decide (pa ≤ 32 * x) && decide (32 * x + 32 ≤ pa + n)) fun x => do
    let (at', _) ← outsideTarget key (32 * x) false
    modify fun s => s.soundSector (at' / 32)

/-- Read n bytes from outside. -/
def outsideRead (key pa n : Nat) : M Nat :=
  eachFold (inDoublewords pa n) 0 fun v (a, len, i) => do
    let x ← outsideLoad key a len
    pure (v + x * 2 ^ (8 * i))

/-- The atomics that a peer may ask for, by number (R155, R363). -/
def peerAmo : Nat → Option AmoOp
  | 1 => some .add
  | 2 => some .swap
  | 3 => some .max
  | 4 => some .min
  | 5 => some .maxN
  | 6 => some .minN
  | 7 => some .and
  | 8 => some .or
  | 9 => some .cas
  | _ => none

/-- An access from peer a arrives at physical address b, c bytes long, at the home under the key slot that the fabric table names for the
peer: a store of the data, a load, or, by number d, an atomic with the word as operand and the data as the old sd. A load or an atomic
is answered (R360, R363). -/
def execPeerAccessArrival (s : State) : Host.Outcome State Fault Refusal :=
  event (do
    let s ← get
    let e := s.curEv
    match s.fabric[e.a]? with
    | none => impossible
    | some f =>
      if !f.valid || !s.peerReached f || s.peerWaits e.a 2 || s.level != .s2 || decide (256 < e.c) || decide (hbmEnd < e.b + e.c) then impossible
      else match peerAmo e.d with
        | none =>
          if e.yes then outsideWrite f.key e.b e.c e.data
          else
            let v ← outsideRead f.key e.b e.c
            sendFlit e.a (.answer v e.c)
        | some op =>
          if (e.c ≠ 4 ∧ e.c ≠ 8) ∨ e.b % e.c ≠ 0 then impossible
          else
            let old ← outsideLoad f.key e.b e.c
            match op.result (8 * e.c) old (bitsOf e.w.toNat 0 (8 * e.c)) (bitsOf e.data 0 (8 * e.c)) with
            | none => pure ()
            | some new => outsideStore f.key e.b e.c new
            sendFlit e.a (.answer old e.c)) s

/-- The indices of the valid members that no route reaches (R364, R366). -/
def State.unreached (s : State) : List Nat :=
  (s.fabric.zipIdx.filter fun e => e.1.valid && decide (e.2 ≠ s.self) && !s.peerReached e.1).map Prod.snd

/-- The arrivals at a barrier of the fabric tier, group a and number b, are combined: every part's members have arrived, also those whose
arrival S1 held (R20). While a member cannot be reached the barrier waits, and an event of code 7 reports the peer, at a waiting member
(R271, R366). -/
def execFabricBarrierCombine (s : State) : Host.Outcome State Fault Refusal :=
  event (do
    let s ← get
    let e := s.curEv
    if e.b < 16 ∧ s.level = .s2 ∧ (s.members 3 e.a).isEmpty = false ∧ s.barrier e.a e.b = .gathering then
      match (if (s.members 3 e.a).any s.isFab then s.unreached else []), (s.members 3 e.a).find? fun h => h.pend.getLsbD (barBit 3 e.b) with
      | f :: _, some h => postHartEvent h.asid 7 0 h.slot (BitVec.ofNat 64 f) 0 0
      | _, _ => if s.allArrived 3 e.a e.b then endPhase 3 e.a e.b else impossible
    else impossible) s

/-- The stores that a context has lost to a peer, and that no event has reported yet, are reported to its parent (R271, R364). -/
def reportLost (asid peer : Nat) : M Unit := do
  let s ← get
  let mine (x : Lost) : Bool := decide (x.asid = asid) && decide (x.peer = peer)
  set { s with lost := s.lost.filter fun x => !mine x }
  match s.lost.filter mine with
  | [] => pure ()
  | x :: rest =>
    if (SMap.get? s.contexts asid).isSome then
      postHartEvent asid 7 0 x.slot (BitVec.ofNat 64 peer) (BitVec.ofNat 64 (peerBase + peer * peerSize + x.off)) (BitVec.ofNat 64 (rest.length + 1))
    else pure ()

/-- The store in flight at position a has lost every route: it is dropped, and an event of code 7 reports it to its context's parent; or,
if so decided, those of the first context and peer that a fence or a release has dropped are reported (R271, R364). -/
def execPeerStoreLost (s : State) : Host.Outcome State Fault Refusal :=
  event (do
    let s ← get
    if s.curEv.yes then
      match s.lost with
      | [] => impossible
      | x :: _ => reportLost x.asid x.peer
    else match s.pending[s.curEv.a]? with
      | none => impossible
      | some p =>
        match p.peer with
        | none => impossible
        | some (f, a) =>
          if s.stays p ∨ !(s.openPorts f (PeerMsg.store p).flits).isEmpty then impossible
          else
            let x : Lost := { asid := p.asid, slot := p.slot, peer := f, off := a }
            set { s with pending := s.pending.eraseIdx s.curEv.a, lost := s.lost ++ [x] }
            reportLost p.asid f) s

end Sys2Proof.Machine
end

