-- ==== Sys2Proof/Machine/Matrix.lean ====
section
/-! DEFINITION. The matrix array: shapes, loading, swapping, streaming, the planes, and the event in which the array carries out
the head of its queue (R184 to R204). A form reads its operands as it issues; the array works later (log 14). -/

namespace Sys2Proof.Machine

/-- The array of the issuing hart's core. -/
def getMat : M Matrix := do
  let s ← get
  pure (s.core (coreOfSlot s.curSlot)).mat

/-- Change the array of the issuing hart's core. -/
def modMat (f : Matrix → Matrix) : M Unit := do
  let s ← get
  modCore (coreOfSlot s.curSlot) fun c => { c with mat := f c.mat }

/-- The checks that every matrix form shares, with the planes it names (R186). -/
def matrixIssue (planes : List CRegNo) : M Unit := do
  onlyX
  let h ← getHart
  let m ← getMat
  if m.owner ≠ some h.kernel ∨ planes.any (fun c => decide (m.planes ≤ c.val)) then trapWord 0x05 else pure ()

/-- Wait for a place of the matrix queue (R185). -/
def needMatrix : M Unit := do
  let m ← getMat
  if m.queue.length < 8 then pure () else waitFor .matrix

/-- An operation joins the matrix queue (R185). -/
def pushMat (o : MOp) : M Unit := modMat fun m => { m with queue := m.queue ++ [o] }

/-- A pair of formats that the array supports (R187). -/
def matrixPair (a w : Fmt) : Bool :=
  match a, w with
  | .e4m3, .e4m3 | .e4m3, .e5m2 | .e5m2, .e4m3 | .e5m2, .e5m2 => true
  | .bf16, .bf16 | .bf16, .fp16 | .fp16, .bf16 | .fp16, .fp16 => true
  | .b4, .b4 => true
  | _, _ => false

/-- `gcoord`.cix (R56). -/
def Hart.cix (h : Hart) : Nat := bitsOf h.gcoord.toNat 4 4

/-- The die group has 16 cores (R56, R188). -/
def Hart.fullDie (h : Hart) : Bool := decide (bitsOf h.gcoord.toNat 24 4 = 15)

/-- The shape granted for a request (R187, R188). -/
def grantShape (die : Bool) (h : Hart) (req : Word64) (a w : Fmt) (bl : Nat) : Shape :=
  let grid := die && h.fullDie
  let lim := if grid then 1024 else 256
  let k := min (bitsOf req.toNat 32 16) 256
  { m := min (bitsOf req.toNat 0 16) lim, n := min (bitsOf req.toNat 16 16) lim, k := if a = .b4 then k - k % bl else k
    grid := grid, a := a, w := w, bl := bl }

/-- A shape with a granted size of 0 is empty (R188). -/
def Shape.empty (p : Shape) : Bool := decide (p.m = 0) || decide (p.n = 0) || decide (p.k = 0)

/-- The word that `mshape` answers (R188). -/
def Shape.word (p : Shape) : Word64 := BitVec.ofNat 64 (p.m + p.n * 2 ^ 16 + p.k * 2 ^ 32 + p.grid.toNat * 2 ^ 48)

/-- The local row and column extents (R189). -/
def Shape.extents (p : Shape) (cix : Nat) : Nat × Nat :=
  if p.grid then (min 256 (p.m - 256 * (cix / 4)), min 256 (p.n - 256 * (cix % 4))) else (p.m, p.n)

/-- `mshape` (R187, R188). -/
def mshape (die : Bool) (rd ra rb : SReg) : M Unit := do
  matrixIssue []
  let req ← rS ra
  let fm ← rS rb
  match Fmt.ofCode? (bitsOf fm.toNat 0 4), Fmt.ofCode? (bitsOf fm.toNat 4 4) with
  | some a, some w =>
    if matrixPair a w then
      needMatrix
      let h ← getHart
      let p := grantShape die h req a w (if fm.getLsbD 8 then 32 else 16)
      modMat fun m => { m with shape := p }
      wS rd p.word
      retire
    else trapWord 0x06
  | _, _ => trapWord 0x06

/-- `mshape.core` (R187). -/
def execMshapeCore (rd ra rb : SReg) (s : State) : Host.Outcome State Fault Refusal := issue (mshape false rd ra rb) s

/-- `mshape.die` (R187). -/
def execMshapeDie (rd ra rb : SReg) (s : State) : Host.Outcome State Fault Refusal := issue (mshape true rd ra rb) s

/-- The lowest of some addresses outside the actor's local-store allocation (R138, R191). -/
def Actor.lowestOutside (a : Actor) (vas : List Word64) : Option Word64 :=
  let lo := windowBase
  let hi := windowBase + a.window.elim 0 fun w => w.2.2
  (vas.filter fun v => decide (v.toNat < lo) || decide (hi ≤ v.toNat)).foldl (fun acc v => match acc with
    | none => some v
    | some u => some (if v.toNat < u.toNat then v else u)) none

/-- The bytes of n bytes from an address. -/
def bytesFrom (va : Word64) (n : Nat) : List Word64 := (List.range n).map fun i => va + BitVec.ofNat 64 i

/-- An operand of the array in the local store: its record with the extents the array uses, and its scale bytes (R191, R192). -/
structure Tile where
  rec' : Layout
  scales : Word64
  nscales : Nat
  deriving DecidableEq, Repr

/-- The checks of an operand in the local store, of extents n0 and n1 in a format (R191, R192). -/
def matrixOperand (ra sb : SReg) (f : Fmt) (n0 n1 nscales : Nat) : M Tile := do
  let va ← rS ra
  let sc ← rS sb
  aligned va 64
  let b ← recordHome va
  let l ← parsed va b
  if l.fmt ≠ f ∨ l.dim 0 < n0 ∨ l.dim 1 < n1 ∨ l.dim 2 ≠ 1 ∨ l.dim 3 ≠ 1 ∨ inWindow l.base = false then recordBad va
  else
    let used := { l with dims := [n0, n1, 1, 1] }
    match used.misaligned with
    | some x => trap 0x08 x
    | none =>
      let a ← actor
      let elems := (List.range used.count).flatMap fun o => bytesFrom (used.ord o).1 (esizeOf f)
      match a.lowestOutside (elems ++ if f = .b4 then bytesFrom sc nscales else []) with
      | some x => trap 0x0A x
      | none => pure { rec' := used, scales := sc, nscales := if f = .b4 then nscales else 0 }

/-- The ranges that an operand enters in the interlock table (R173). -/
def Tile.ranges (t : Tile) : List LineRange :=
  t.rec'.ranges false ++ if t.nscales = 0 then [] else [rangeOf t.scales t.nscales false]

/-- The reading of an operand waits for room in the interlock table and for what conflicts with it; the hart's stores perform before
it (R173, R185). -/
def Tile.enter (t : Tile) : M Unit := do
  needTable t.ranges.length
  interlockRanges t.ranges
  let h ← getHart
  drainHart h.slot

/-- n bytes of the local store at a window address, and whether they are poisoned (R197). -/
def readWindow (va : Word64) (n : Nat) : M (Nat × Bool) := do
  let a ← actor
  match ← a.local .load va n with
  | .ls c o => do
    let s ← get
    pure (s.ls.readLE (lsIndex c o) n, s.lsPoisoned c o n)
  | _ => pure (0, false)

/-- An element of an operand, as its bits (R191). -/
def Tile.elem (t : Tile) (i0 i1 : Nat) : M (Nat × Bool) := do
  let (va, nib) := t.rec'.at i0 i1 0 0
  let (v, p) ← readWindow va (esizeOf t.rec'.fmt)
  pure (if t.rec'.fmt = .b4 then bitsOf v (4 * nib) 4 else v, p)

/-- A scale byte of an operand; 0 where it has none (R192). -/
def Tile.scale (t : Tile) (i : Nat) : M (Nat × Bool) := if t.nscales = 0 then pure (0, false) else readWindow (t.scales + BitVec.ofNat 64 i) 1

/-- `mlds`: the weights are read as the form issues, and take the shadow plane in their turn (R193). -/
def execMlds (rd ra : SReg) (s : State) : Host.Outcome State Fault Refusal :=
  issue (do
    matrixIssue []
    let m ← getMat
    let h ← getHart
    let p := m.shape
    if p.empty then
      needMatrix
      retire
    else
      let nl := (p.extents h.cix).2
      let t ← matrixOperand rd ra p.w nl p.k (p.k / p.bl * nl)
      needMatrix
      t.enter
      let w ← eachFold (List.range (p.k * nl)) ({ fmt := p.w, bl := p.bl, cells := [], scales := [], poison := [] } : WPlane) fun w x => do
        let k := x / nl
        let n := x % nl
        let (v, pe) ← t.elem n k
        let (sc, ps) ← t.scale (k / p.bl * nl + n)
        let cell := 256 * k + n
        pure { w with cells := w.cells.putNZ cell v, scales := w.scales.putNZ cell sc, poison := if pe || ps then addNum w.poison cell else w.poison }
      pushMat (.load w 0)
      modMat fun m => { m with shFmt := p.w, shBl := p.bl }
      retire) s

/-- `mswap` (R194). -/
def execMswap (s : State) : Host.Outcome State Fault Refusal :=
  issue (do
    matrixIssue []
    needMatrix
    pushMat .swap
    modMat fun m => { m with actFmt := m.shFmt, actBl := m.shBl, shFmt := m.actFmt, shBl := m.actBl }
    retire) s

/-- A plane's tag must be `fp32` (R197). -/
def needTagged (c : CRegNo) : M Unit := do
  let m ← getMat
  if m.tags[c] = some .fp32 then pure () else trapWord 0x06

/-- The checks of a stream: the plane's tag, and the pair of formats (R195). -/
def streamChecks (cd : CRegNo) : M Unit := do
  needTagged cd
  let m ← getMat
  if matrixPair m.shape.a m.actFmt then pure () else trapWord 0x06

/-- A stream joins the queue; under a grid it takes the core's next number (R190). -/
def pushStream (cd : CRegNo) (rows : List ActRow) (receiver : Bool) : M Unit := do
  let h ← getHart
  let s ← get
  modMat fun m =>
    { m with
      queue := m.queue ++ [.stream cd.val h.slot h.xpc m.shape rows (if m.shape.grid then some m.gridCount else none) receiver (h.cix / 4)
        (h.cix % 4) s.tick]
      gridCount := if m.shape.grid then m.gridCount + 1 else m.gridCount }

/-- A core of a grid that receives its rows from the sender of its row (R190). -/
def Shape.receives (p : Shape) (cix : Nat) : Bool := p.grid && decide (cix % 4 ≠ 0)

/-- `mstream`, local-store form (R195). -/
def execMstreamLocal (cd : CRegNo) (ra rb : SReg) (s : State) : Host.Outcome State Fault Refusal :=
  issue (do
    matrixIssue [cd]
    let m ← getMat
    let h ← getHart
    let p := m.shape
    if p.empty then
      needMatrix
      retire
    else
      streamChecks cd
      if p.receives h.cix then
        needMatrix
        pushStream cd [] true
        retire
      else
        let ml := (p.extents h.cix).1
        let t ← matrixOperand ra rb p.a p.k ml (ml * (p.k / p.bl))
        needMatrix
        t.enter
        let rows ← eachMap (List.range ml) fun m => do
          let xs ← eachMap (List.range p.k) fun k => do
            let (v, pe) ← t.elem k m
            let (sc, ps) ← t.scale (m * (p.k / p.bl) + k / p.bl)
            pure (v, sc, pe || ps)
          pure ({ m := m, elems := xs.map fun x => x.1, scales := xs.map fun x => x.2.1
                  poison := (List.range p.k).filter fun k => (xs.getD k (0, 0, false)).2.2 } : ActRow)
        pushStream cd rows false
        retire) s

/-- The rows of a vector form, from register contents (R196). -/
def vectorRows (h : Hart) (p : Shape) (ml row0 va : Nat) : List ActRow :=
  (List.range (min (h.vl.toNat / p.k) (ml - row0))).map fun r =>
    let i (k : Nat) := r * p.k + k
    { m := row0 + r, elems := (List.range p.k).map fun k => elemOf (Fmt.ew p.a) (h.vbitsOf va) (i k)
      scales := (List.range p.k).map fun k => if p.a = .b4 then bitsOf (h.k.getD 0 0) (8 * (i k / p.bl)) 8 else 0, poison := [] }

/-- `mstream`, vector form (R196). At vl = 0 under a grid, where R196 gives it no effect and R190 pairs every `mstream`, it is one of the streams that
R190 counts and pairs: a sender broadcasts no rows, and a receiver takes its sender's (DESIGN CHOICE: log 14). -/
def execMstreamVector (cd : CRegNo) (va : VRegNo) (rb : SReg) (s : State) : Host.Outcome State Fault Refusal :=
  issue (do
    matrixIssue [cd]
    checkNamed { vs := [va.val] }
    let m ← getMat
    let p := m.shape
    if p.empty then
      needMatrix
      retire
    else
      streamChecks cd
      checkTags (fun f => decide (f = p.a)) [va.val]
      let h ← getHart
      if p.a = .b4 ∧ vtBl h.vt ≠ p.bl then trapWord 0x06
      else
        needMatrix
        swapIn { vs := [va.val] }
        let h ← getHart
        if p.receives h.cix then pushStream cd [] true
        else
          let b ← rS rb
          pushStream cd (vectorRows h p (p.extents h.cix).1 (b.toNat % 2 ^ 16) va.val) false
        retire) s

/-- `mzero` (R198). -/
def execMzero (cd : CRegNo) (s : State) : Host.Outcome State Fault Refusal :=
  issue (do
    matrixIssue [cd]
    needMatrix
    pushMat (.zero cd.val 0)
    modMat fun m => { m with tags := m.tags.set cd (some .fp32) }
    retire) s

/-- row0 and the width of `mrd` and `mwr` (R199). -/
def planeWindow (b : Word64) : Nat × Nat :=
  let w := bitsOf b.toNat 16 9
  (b.toNat % 2 ^ 16, if w = 0 ∨ 256 < w then 256 else w)

/-- An operation of the queue writes a plane. -/
def MOp.writes (o : MOp) (c : Nat) : Bool :=
  match o with
  | .stream d .. => d == c
  | .zero d _ => d == c
  | .write d _ => d == c
  | _ => false

/-- `mrd` (R199). -/
def execMrd (vd : VRegNo) (ca : CRegNo) (rb : SReg) (s : State) : Host.Outcome State Fault Refusal :=
  issue (do
    matrixIssue [ca]
    let h ← getHart
    let r := ({ vw := [vd.val] } : Named).guarded h
    checkNamed r
    needTagged ca
    let m ← getMat
    needMatrix
    if m.queue.any fun o => o.writes ca.val then waitFor .matrix else pure ()
    swapIn r
    let h ← getHart
    let b ← rS rb
    let (row0, w) := planeWindow b
    let plane := m.acc[ca]
    let cell (i : Nat) := 256 * (row0 + i / w) + i % w
    match h.active.find? fun i => decide (row0 + i / w < 256) && plane.poison.contains (cell i) with
    | some i => trap 0x11 (BitVec.ofNat 64 (cell i))
    | none =>
      if h.vl = 0 then retire
      else
        setHart (convertInto h .fp32 h.fmt (fun i => if row0 + i / w < 256 then (SMap.get? plane.cells (cell i)).getD 0 else 0) vd.val 1)
        retire) s

/-- `mwr` (R200); its conversion flushes subnormals under `vt.ftz`, as that of every vector form does (R84, log 54). -/
def execMwr (cd : CRegNo) (va : VRegNo) (rb : SReg) (s : State) : Host.Outcome State Fault Refusal :=
  issue (do
    matrixIssue [cd]
    let h ← getHart
    let r := ({ vs := [va.val] } : Named).guarded h
    checkNamed r
    checkTags anyFmt [va.val]
    needMatrix
    swapIn r
    let h ← getHart
    let b ← rS rb
    let (row0, w) := planeWindow b
    if h.vl = 0 then retire
    else
      let idx := h.active.filter fun i => decide (row0 + i / w < 256)
      let draws := convRounds h.fmt .fp32 && h.isSr
      let r := idx.foldl (fun (acc : Vector (BitVec 32) 256 × SMap Nat) i =>
        let d := if draws then drawGen acc.1 i else (acc.1, 0)
        (d.1, SMap.put acc.2 (256 * (row0 + i / w) + i % w) (convert h h.fmt .fp32 (h.k.getD 0 0) (elemOf (Fmt.ew h.fmt) (h.vbitsOf va.val) i) d.2 i)))
        (h.gen, [])
      setHart { h with gen := r.1 }
      pushMat (.write cd.val r.2)
      modMat fun m => { m with tags := m.tags.set cd (some .fp32) }
      retire) s

/-- The value of an element or weight of the array (R74, R193). -/
def matrixValue (f : Fmt) (scale x : Nat) : Fp := if f = .b4 then b4Value scale x else Fp.of f x

/-- The products of a run of 32, padded past K with +0, and whether one generated a NaN (R89, R195). -/
def runProducts (pc : Word64) (a : Fmt) (row : ActRow) (w : WPlane) (n kmax k0 : Nat) : List Nat × Bool :=
  let ps := (List.range 32).map fun j =>
    let k := k0 + j
    if kmax ≤ k then (0, false)
    else
      (engineCtx pc).round 0 n (fpMul (matrixValue a (row.scales.getD k 0) (row.elems.getD k 0))
        (matrixValue w.fmt ((SMap.get? w.scales (256 * k + n)).getD 0) ((SMap.get? w.cells (256 * k + n)).getD 0)))
  (ps.map Prod.fst, ps.any Prod.snd)

/-- One output cell of a stream: its new bits, and whether a NaN was generated in it (R89). -/
def streamCell (pc : Word64) (a : Fmt) (row : ActRow) (w : WPlane) (n kmax acc : Nat) : Nat × Bool :=
  (List.range ((kmax + 31) / 32)).foldl (fun r i =>
    let p := runProducts pc a row w n kmax (32 * i)
    let t := engineTree pc n 5 p.1
    let x := engineAdd pc n r.1 t.1
    (x.1, r.2 || p.2 || t.2 || x.2)) (acc, false)

/-- Some cells of a stream, of each of the given rows those up to a column: the plane, and the lowest cell in which a NaN was generated (R87, R195,
R197). -/
def streamRows (pc : Word64) (a : Fmt) (w : WPlane) (kmax : Nat) (rows : List (ActRow × Nat)) (plane : APlane) : APlane × Option Nat :=
  rows.foldl (fun acc (row, upTo) => (List.range' row.first (upTo - row.first)).foldl (fun (acc : APlane × Option Nat) n =>
    let cell := 256 * row.m + n
    let r := streamCell pc a row w n kmax ((SMap.get? acc.1.cells cell).getD 0)
    let bad := row.poison.any (fun k => decide (k < kmax)) || (List.range kmax).any fun k => w.poison.contains (256 * k + n)
    ({ cells := acc.1.cells.putNZ cell r.1, poison := if bad then addNum acc.1.poison cell else acc.1.poison },
      if r.2 then lowerOf acc.2 (some cell) else acc.2)) acc) (plane, none)

/-- Every cell of some extents holds an unspecified value (R190). -/
def garbleCells (ml nl : Nat) (plane : APlane) : M APlane :=
  eachFold (List.range (ml * nl)) plane fun p x => do
    let w ← freeWord
    pure { p with cells := p.cells.putNZ (256 * (x / nl) + x % nl) (w.toNat % 2 ^ 32) }

/-- A stream has generated a NaN: its hart takes the record, unless the record names an instruction earlier in program order, or a lower cell of this
one, or was rearmed since (R87). -/
def streamNan (kernel slot op : Nat) (pc : Word64) (cell : Option Nat) : M Unit :=
  match cell with
  | none => pure ()
  | some e => modify fun s => match SMap.get? s.harts slot with
    | none => s
    | some h =>
      if h.kernel = kernel ∧ h.nanArm < op ∧ (h.nanv = false ∨ op < h.nanSeq ∨ (op = h.nanSeq ∧ e < h.nanelem.toNat)) then
        { s with harts := SMap.put s.harts slot { h with nanv := true, nanpc := pc, nanelem := BitVec.ofNat 17 e, nanSeq := op } }
      else s

/-- The cells of nl columns that the array carries out now, and the rows it has still to carry out: the next n cells of row i, or, where n is 0, all.
Rows flow through the array one behind the other, so that it can stand at a cell of each (R202). -/
def cellsNow (n i nl : Nat) (rows : List ActRow) : List (ActRow × Nat) × List ActRow :=
  if n = 0 then (rows.map fun r => (r, nl), [])
  else match rows[i]? with
    | none => ([], rows)
    | some r =>
      let upTo := min nl (r.first + n)
      ([(r, upTo)], if upTo = nl then rows.eraseIdx i else rows.set i { r with first := upTo })

/-- The core of grid column c that waits in its queue for the j-th stream of grid row r of a kernel, on the die of a core (R190). -/
def State.receiver (s : State) (core : Nat) (owner : Option Nat) (j r c : Nat) : Option Nat :=
  ((List.range 16).map (16 * dieOfCore core + ·)).find? fun q => (s.core q).mat.owner == owner && (s.core q).mat.queue.any fun o => match o with
    | .stream _ _ _ _ _ (some j') true r' c' _ => decide (j' = j) && decide (r' = r) && decide (c' = c)
    | _ => false

/-- A broadcast reaches a receiver (R190). -/
def sendRows (j : Nat) (b : Broadcast) (q : Nat) : M Unit := modCore q fun k => { k with mat := { k.mat with inbox := SMap.put k.mat.inbox j b } }

/-- The array of a core carries out cells of a stream; the answer is the rows still to come (R190, R195, R202). -/
def runStream (core c slot : Nat) (pc : Word64) (p : Shape) (rows : List ActRow) (pair : Option Nat) (receiver : Bool) (row col op n i : Nat) :
    M (List ActRow) := do
  let s ← get
  let m := (s.core core).mat
  let (ml, nl) := p.extents (4 * row + col)
  let plane := m.acc.getD c { cells := [], poison := [] }
  let put (r : APlane × Option Nat) : M Unit := do
    modCore core fun k => { k with mat := { k.mat with acc := vput k.mat.acc c r.1 } }
    match m.owner with
    | none => pure ()
    | some k => streamNan k slot op pc r.2
  let go (rows : List ActRow) : M (List ActRow) := do
    put (streamRows pc p.a m.active p.k (cellsNow n i nl rows).1 plane)
    pure (cellsNow n i nl rows).2
  match pair with
  | none => go rows
  | some j =>
    if receiver then
      match SMap.get? m.inbox j with
      | none => impossible
      | some b =>
        modCore core fun k => { k with mat := { k.mat with inbox := SMap.del k.mat.inbox j } }
        if b.a ≠ p.a ∨ b.k ≠ p.k then
          let g ← garbleCells ml nl plane
          put (g, none)
          pure []
        else go b.rows
    else
      match s.receiver core m.owner j row 1, s.receiver core m.owner j row 2, s.receiver core m.owner j row 3 with
      | some q1, some q2, some q3 => do
        each [q1, q2, q3] (sendRows j { a := p.a, k := p.k, rows := rows })
        go rows
      | _, _, _ => impossible

/-- A shadow plane into which the weights of some K rows have been loaded (R193, R202). -/
def WPlane.loadRows (w old : WPlane) (upTo : Nat) : WPlane :=
  let mix {α : Type} (key : α → Nat) (new old : List α) : List α := new.filter (fun x => decide (key x < 256 * upTo)) ++ old.filter fun x => decide (256 * upTo ≤ key x)
  if 256 ≤ upTo then w else
  { w with cells := mix Prod.fst w.cells old.cells, scales := mix Prod.fst w.scales old.scales, poison := mix id w.poison old.poison }

/-- An accumulator plane cleared up to a cell (R198, R202). -/
def APlane.clearTo (p : APlane) (upTo : Nat) : APlane :=
  if 0x10000 ≤ upTo then { cells := [], poison := [] }
  else { cells := p.cells.filter (fun x => decide (upTo ≤ x.1)), poison := p.poison.filter fun x => decide (upTo ≤ x) }

/-- An accumulator plane with cells written (R200). -/
def APlane.write (p : APlane) (cells : SMap Nat) : APlane :=
  cells.foldl (fun p x => { cells := p.cells.putNZ x.1 x.2, poison := delNum p.poison x.1 }) p

/-- Change a plane of a core's array. -/
def modPlane (core c : Nat) (f : APlane → APlane) : M Unit :=
  modCore core fun k => { k with mat := { k.mat with acc := vput k.mat.acc c (f (k.mat.acc.getD c { cells := [], poison := [] })) } }

/-- Where the array stands after n more of a number of steps, or, where n is 0, after all. -/
def upToStep (n done total : Nat) : Nat := if n = 0 then total else min total (done + n)

/-- The array of core a carries out the head of its queue, or a part of it: of a stream, the next b cells of its row c; of a load, b rows of weights;
of a clear or a write of a plane, b cells; all that is left where b is 0 (R185, R202). -/
def execMatrixQueueExecute (s : State) : Host.Outcome State Fault Refusal :=
  event (do
    let s ← get
    let core := s.curEv.a
    let n := s.curEv.b
    match (s.core core).mat.queue with
    | [] => impossible
    | o :: rest =>
      let left ← match o with
        | .load w row => do
          let k := upToStep n row 256
          modCore core fun x => { x with mat := { x.mat with shadow := w.loadRows x.mat.shadow k } }
          pure (if k = 256 then [] else [MOp.load w k])
        | .swap => do
          modCore core fun k => { k with mat := { k.mat with active := k.mat.shadow, shadow := k.mat.active } }
          pure []
        | .zero c cell => do
          let k := upToStep n cell 0x10000
          modPlane core c fun p => p.clearTo k
          pure (if k = 0x10000 then [] else [MOp.zero c k])
        | .write c cells => do
          let k := upToStep n 0 cells.length
          modPlane core c fun p => p.write (cells.take k)
          pure (if k = cells.length then [] else [MOp.write c (cells.drop k)])
        | .stream c slot pc p rows pair receiver row col op => do
          let later ← runStream core c slot pc p rows pair receiver row col op n s.curEv.c
          pure (if later.isEmpty then [] else [MOp.stream c slot pc p later none false row col op])
      modCore core fun k => { k with mat := { k.mat with queue := left ++ rest } }) s

end Sys2Proof.Machine
end

