-- ==== Sys2Proof/Machine/Sha3.lean ====
section
/-! DEFINITION. SHAKE256 of FIPS 202, which R381 names for the attestation's chain (log 24). -/

namespace Sys2Proof.Machine

/-- A 64-bit word rotated to the left. -/
def rotWord (x n : Nat) : Nat := (x <<< n ||| x >>> (64 - n)) % 2 ^ 64

/-- Set the rotation amounts of n lanes on the walk of FIPS 202 from lane (x, y), which is its t-th: the amounts are the triangular numbers. -/
def rotWalk : Nat → Nat → Nat → Nat → List Nat → List Nat
  | 0, _, _, _, l => l
  | n + 1, t, x, y, l => rotWalk n (t + 1) y ((2 * x + 3 * y) % 5) (l.set (x + 5 * y) ((t + 1) * (t + 2) / 2 % 64))

/-- The amounts by which the lanes rotate, lane (x, y) at x + 5y. -/
def keccakRot : List Nat := rotWalk 24 0 1 0 (List.replicate 25 0)

/-- The shift register of FIPS 202 that gives the rounds' constants. -/
def shiftNext (v : Nat) : Nat := if 128 ≤ v then (2 * v) ^^^ 0x171 else 2 * v

/-- The constant of a round from the shift register at its first bit: seven bits of it go to the places 2^j - 1. -/
def roundConst : Nat → Nat → Nat → Nat
  | 0, _, _ => 0
  | n + 1, j, v => v % 2 * 2 ^ (2 ^ j - 1) + roundConst n (j + 1) (shiftNext v)

/-- The constants of n rounds. -/
def roundConsts : Nat → Nat → List Nat
  | 0, _ => []
  | n + 1, v => roundConst 7 0 v :: roundConsts n ((List.range 7).foldl (fun w _ => shiftNext w) v)

/-- The constants of the 24 rounds. -/
def keccakConst : List Nat := roundConsts 24 1

/-- One round of Keccak-f[1600] on 25 lanes. -/
def keccakRound (rc : Nat) (a : List Nat) : List Nat :=
  let at' (l : List Nat) (x y : Nat) : Nat := l.getD (x % 5 + 5 * (y % 5)) 0
  let c := (List.range 5).map fun x => at' a x 0 ^^^ at' a x 1 ^^^ at' a x 2 ^^^ at' a x 3 ^^^ at' a x 4
  let d := (List.range 5).map fun x => c.getD ((x + 4) % 5) 0 ^^^ rotWord (c.getD ((x + 1) % 5) 0) 1
  let e := (List.range 25).map fun i => rotWord (a.getD i 0 ^^^ d.getD (i % 5) 0) (keccakRot.getD i 0)
  -- lane (x, y) goes to (y, 2x + 3y): what lies at (x, y) comes from (x + 3y, x)
  let b := (List.range 25).map fun i => at' e (i % 5 + 3 * (i / 5)) (i % 5)
  let r := (List.range 25).map fun i => at' b (i % 5) (i / 5) ^^^ ((2 ^ 64 - 1 ^^^ at' b (i % 5 + 1) (i / 5)) &&& at' b (i % 5 + 2) (i / 5))
  r.set 0 (r.getD 0 0 ^^^ rc)

/-- Keccak-f[1600]. -/
def keccak (a : List Nat) : List Nat := keccakConst.foldl (fun a rc => keccakRound rc a) a

/-- The bytes of a block that SHAKE256 absorbs or gives at once. -/
def shakeRate : Nat := 136

/-- Eight bytes as a word, the lowest first. -/
def wordOfBytes (l : List Byte) : Nat := (l.take 8).foldr (fun b v => b.toNat + 2 ^ 8 * v) 0

/-- A block absorbed into the lanes. -/
def absorbBlock (a : List Nat) (block : List Byte) : List Nat :=
  keccak (a.zipIdx.map fun (x, i) => if 8 * i < shakeRate then x ^^^ wordOfBytes (block.drop (8 * i)) else x)

/-- A byte string absorbed: n whole blocks, then the last one with its padding. -/
def absorb (a : List Nat) (l : List Byte) : Nat → List Nat
  | 0 =>
    let m := l.length
    let pad := (List.range (shakeRate - m)).map fun i => (if i = 0 then 0x1F#8 else 0) ||| (if i + 1 = shakeRate - m then 0x80 else 0)
    absorbBlock a (l ++ pad)
  | n + 1 => absorb (absorbBlock a (l.take shakeRate)) (l.drop shakeRate) n

/-- The bytes of a block that the lanes give. -/
def squeezeBlock (a : List Nat) : List Byte := (List.range shakeRate).map fun i => BitVec.ofNat 8 (a.getD (i / 8) 0 >>> (8 * (i % 8)))

/-- n blocks of output. -/
def squeeze (a : List Nat) : Nat → List Byte
  | 0 => []
  | n + 1 => squeezeBlock a ++ squeeze (keccak a) n

/-- The first n bytes of the SHAKE256 of a byte string. -/
def shake256 (l : List Byte) (n : Nat) : List Byte := (squeeze (absorb (List.replicate 25 0) l (l.length / shakeRate)) (n / shakeRate + 1)).take n

end Sys2Proof.Machine
end

