-- ==== Sys2Proof/Machine/Service.lean ====
section
/-! DEFINITION. The host, the mailbox, boot and reset (R17 to R21, R362, R374 to R381, R384). -/

namespace Sys2Proof.Machine

/-- The device returns to S0: every context, hart, cache and unit starts as at power-on, and memory's contents, whose key is made anew, are
unspecified; the flash and, but at power-on, the error log stay (R14, R18, R255, R379, log 29). -/
def restart (boot : Nat) (power : Bool) : M Unit := do
  let key ← freeBytes 64
  modify fun s => { State.reset with
    mem := s.mem, sectorKey := s.sectorKey, keys := [(0, BitVec.ofNat 512 key)]
    flash := { s.flash with chain := [], versions := [] }
    log := if power then [] else s.log, logDropped := if power then 0 else s.logDropped
    boot := boot, agenda := s.agenda, curEv := s.curEv, freeCtr := s.freeCtr, tick := s.tick, nextId := s.nextId }
  -- the local stores do not keep their contents
  modify fun s => { s with ls := [], lsPoison := [] }

/-- Power-on (R17, R378). -/
def execPowerOn (s : State) : Host.Outcome State Fault Refusal := event (restart 0 true) s

/-- The temperature passes the trip point: a reset with boot = 4, and a record of class 8 at a unit and an address that the spec does not
state (R383, R384). -/
def execThermalTrip (s : State) : Host.Outcome State Fault Refusal :=
  event (do
    let unit ← freeWord
    let addr ← freeWord
    logError 8 unit.toNat addr.toNat
    restart 4 false) s

/-- A number as n bytes, the lowest first. -/
def bytesOf (v n : Nat) : List Byte := (List.range n).map fun i => BitVec.ofNat 8 (bitsOf v (8 * i) 8)

/-- The key of an anti-rollback counter. -/
def counterKey (kind die : Nat) : Nat := kind * 256 + die

/-- A configuration record's maps name physical units that a die has, and none twice (R380). -/
def mapsDistinct (body : List Byte) : Bool :=
  let cores := body.take 16
  let slices := (body.drop 16).take 32
  decide cores.Nodup && decide slices.Nodup && cores.all (fun b => decide (b.toNat ≤ 17)) && slices.all fun b => decide (b.toNat ≤ 33)

/-- A signed object is accepted for a kind and die: its signature holds, its header is in range, its version is not below the counter, and
a configuration record's maps are sound (R379, R380). -/
def Flash.accepts (f : Flash) (bytes : List Byte) : Bool :=
  let kind := bytesLE bytes 4 1
  let die := bytesLE bytes 5 1
  let ranged := decide (1 ≤ kind) && decide (kind ≤ 3) && (if kind = 1 then decide (die = 0xFF) else decide (die ≤ 3))
  decide (bytesLE bytes 0 4 = 0x50464E5A) && ranged && decide ((SMap.get? f.counters (counterKey kind die)).getD 0 ≤ bytesLE bytes 8 4) &&
    Config.xmssVerify bytes && (decide (kind ≠ 3) || mapsDistinct (bytes.drop 16))

/-- Boot verifies an object: its counter rises to its version, and the chain goes on (R379, R381). -/
def verifyObject (f : Flash) (kind die : Nat) : Flash :=
  let o := f.object kind die
  let v := bytesLE o 8 4
  let last := f.chain.getLastD (List.replicate 64 0)
  { f with
    counters := SMap.put f.counters (counterKey kind die) (max v ((SMap.get? f.counters (counterKey kind die)).getD 0))
    chain := f.chain ++ [shake256 (last ++ shake256 o 64) 64], versions := f.versions ++ [v] }

/-- Boot verifies objects in order until one fails; whether all hold (R378, R379). -/
def Flash.verify (f : Flash) : List (Nat × Nat) → Flash × Bool
  | [] => (f, true)
  | (kind, die) :: rest =>
    let o := f.object kind die
    if f.accepts o && decide (bytesLE o 4 1 = kind ∧ bytesLE o 5 1 = die) then (verifyObject f kind die).verify rest else (f, false)

/-- What is staged for a die enters service (R22, R23, R380). -/
def Flash.install (f : Flash) (die : Nat) : Flash :=
  let due := f.staged.filter fun o => o.die == die
  { f with objects := due ++ (f.objects.filter fun o => !due.any fun d => d.kind == o.kind && d.die == o.die)
           staged := f.staged.filter fun o => o.die != die }

/-- The slices and the cores of a die coming into service are served by the physical ones that its record names, with the lanes, array row and array
column of each core (R22, R23, R380). -/
def mapDie (die : Nat) : M Unit := do
  modify fun s => { s with slices := s.slices.mapIdx fun i p => if i / 32 = die then s.flash.sliceMap i else p }
  each ((List.range 16).map (16 * die + ·)) fun core => do
    let s ← get
    modCore core fun c => { c with phys := s.flash.coreMap core }
    let s ← get
    modCore core fun c => { c with lanes := s.laneRecord core }

/-- No part of the boot has failed since the last reset (R18, R375). -/
def State.bootable (s : State) : Bool := decide (s.boot = 0) || decide (s.boot = 4)

/-- The controller firmware verifies, or boot is 3; die 0's firmware and record verify and, if so decided, it trains: S1. Else the device
stays in S0, with boot 1 (R17, R18, R378). -/
def execEnterS1 (s : State) : Host.Outcome State Fault Refusal :=
  event (do
    let s ← get
    if s.level ≠ .s0 ∨ !s.bootable then impossible
    else
      let (f, sound) := ((s.flash.install 0xFF).install 0).verify [(1, 0xFF)]
      if !sound then set { s with boot := 3 }
      else
        let (f, sound) := f.verify [(2, 0), (3, 0)]
        if sound && s.curEv.yes then
          set { s with level := .s1, flash := f }
          mapDie 0
        else set { s with boot := 1, flash := f }) s

/-- The firmware and records of dies 1 to 3 verify and, if so decided, the dies train: S2, every die at full clock, and the ports begin to
train. Else the device stays in S1, with boot 2 (R18, R21, R361, R378). -/
def execEnterS2 (s : State) : Host.Outcome State Fault Refusal :=
  event (do
    let s ← get
    if s.level ≠ .s1 ∨ !s.bootable then impossible
    else
      let (f, sound) := (((s.flash.install 1).install 2).install 3).verify [(2, 1), (3, 1), (2, 2), (3, 2), (2, 3), (3, 3)]
      if sound && s.curEv.yes then
        set { s with level := .s2, flash := f, clock := Vector.replicate 4 1750 }
        each [1, 2, 3] mapDie
        each (List.range 8) fun p => trainVoltor p
      else set { s with boot := 2, flash := f }) s

/-- The status register (R375). -/
def State.status (s : State) : Word64 :=
  let bits (n : Nat) (f : Nat → Bool) : Nat := ((List.range n).map fun p => if f p then 2 ^ p else 0).sum
  BitVec.ofNat 64 ((match s.level with | .s0 => 0 | .s1 => 1 | .s2 => 2) + s.boot % 16 * 2 ^ 4 +
    bits 8 (fun p => match (s.voltor.getD p .start).state with | .up | .degraded => true | _ => false) * 2 ^ 8 +
    bits 4 (fun p => s.cxl.getD p .untrained == .up) * 2 ^ 16 + bits 4 (fun p => s.cxl.getD p .untrained == .failed) * 2 ^ 24)

/-- One byte of the mailbox command area is written (R377). Bytes that hold no field are not kept. -/
def Mailbox.putByte (m : Mailbox) (off v : Nat) : Mailbox :=
  let word (w : BitVec 32) (k : Nat) : BitVec 32 := BitVec.ofNat 32 (putBits w.toNat (8 * k) 8 v)
  if off < 4 then { m with cmd := word m.cmd off }
  else if off < 8 then { m with seq := word m.seq (off - 4) }
  else if off < 12 then { m with status := word m.status (off - 8) }
  else if off < 16 then m
  else if off < 0x100 then { m with args := m.args.set (off - 16) (BitVec.ofNat 8 v) }
  else { m with data := m.data.set (off - 0x100) (BitVec.ofNat 8 v) }

/-- One byte of the mailbox command area as the host reads it (R377). -/
def Mailbox.byte (m : Mailbox) (off : Nat) : Nat :=
  if off < 4 then bitsOf m.cmd.toNat (8 * off) 8
  else if off < 8 then bitsOf m.seq.toNat (8 * (off - 4)) 8
  else if off < 12 then bitsOf m.status.toNat (8 * (off - 8)) 8
  else if off < 16 then 0
  else if off < 0x100 then (m.args.getD (off - 16) 0).toNat
  else (m.data.getD (off - 0x100) 0).toNat

/-- Argument i of a command: the doublewords of the argument area in order (R377, log 25). -/
def Mailbox.arg (m : Mailbox) (i : Nat) : Nat := bytesLE m.args (8 * i) 8

/-- The commands of the mailbox (R377). -/
def knownCommand (c : Nat) : Bool := decide (1 ≤ c) && decide (c ≤ 9)

/-- The host rings the mailbox with a sequence number: dropped and logged while a command is being performed; one that is no command ends at
once with status 2; any other is taken, and its event performs it (R377). -/
def ringMailbox (seq : Nat) : M Unit := do
  let s ← get
  if s.mailbox.status = 1 then logError 4 0 0x1000
  else if knownCommand s.mailbox.cmd.toNat then set { s with mailbox := { s.mailbox with bell := BitVec.ofNat 32 seq, task := s.mailbox.cmd.toNat, status := 1 } }
  else set { s with mailbox := { s.mailbox with status := 2, seq := BitVec.ofNat 32 seq } }

/-- The host reads b bytes at offset a of the device window: the mailbox, the status register, or, at a doorbell, a value that the spec does
not state; anywhere else zero, which is logged (R375, R377, R383). -/
def windowRead (a b : Nat) : M Nat := do
  let s ← get
  if a + b ≤ 0x1000 then pure ((List.range b).foldl (fun v i => v + s.mailbox.byte (a + i) * 2 ^ (8 * i)) 0)
  else if 0x2000 ≤ a ∧ a + b ≤ 0x2008 then pure (bitsOf s.status.toNat (8 * (a - 0x2000)) (8 * b))
  else if (a = 0x1000 ∧ b = 4) ∨ (0x100000 ≤ a ∧ a < 0x108000 ∧ a % 8 = 0 ∧ b = 8) then freeBytes b
  else do
    logError 5 0 a
    pure 0

/-- The bytes that the host writes: of the word, or, where there are more than 8, of the data. -/
def EvArgs.written (e : EvArgs) : Nat := if e.b ≤ 8 then e.w.toNat else e.data

/-- The host writes b bytes at offset a of the device window, of the word, or, where there are more than 8, of the data; or, if so decided, reads b
bytes there (R375, R377, R383). -/
def execDeviceWindowWrite (s : State) : Host.Outcome State Fault Refusal :=
  event (do
    let s ← get
    let e := s.curEv
    if e.yes then do
      let v ← windowRead e.a e.b
      modify fun s => { s with hostRead := v }
    else if e.a + e.b ≤ 0x1000 then
      set { s with mailbox := (List.range e.b).foldl (fun m i => m.putByte (e.a + i) (bitsOf (e.written) (8 * i) 8)) s.mailbox }
    else if e.a = 0x1000 ∧ e.b = 4 then ringMailbox (e.w.toNat % 2 ^ 32)
    else if 0x100000 ≤ e.a ∧ e.a < 0x108000 ∧ e.a % 8 = 0 ∧ e.b = 8 then
      let lq := (e.a - 0x100000) / 8
      let _ ← doorbell lq e.w.toNat fun asid => postEvent asid 4 (BitVec.ofNat 64 lq) 0 0
      pure ()
    else logError 5 0 e.a) s

/-- A mailbox command that the device has taken is performed: it answers a status and data; the data is written, then the status, then seq
(R377). `levels` are the levels that permit it. -/
def command (number : Nat) (levels : Level → Bool) (x : M (Nat × List Byte)) : M Unit := do
  let s ← get
  if s.mailbox.status ≠ 1 ∨ s.mailbox.task ≠ number then impossible
  else
    let (status, data) ← if levels s.level then x else pure (3, [])
    modify fun s => { s with mailbox := { s.mailbox with
      data := data.take 3840 ++ s.mailbox.data.drop (min data.length 3840), status := BitVec.ofNat 32 status, seq := s.mailbox.bell } }

/-- S1 and S2. -/
def Level.running (l : Level) : Bool := decide (l ≠ .s0)

/-- ctx-root: the descriptor at the physical address of argument 0 becomes the host's, and is bound and opened; data +0 receives the status of the bind, or,
once it is done, of the open (R254, R377). -/
def execCtxRoot (s : State) : Host.Outcome State Fault Refusal :=
  event (command 0x01 Level.running (do
    let s ← get
    let pa := s.mailbox.arg 0
    if pa % 128 ≠ 0 ∨ !inHbm pa then pure (2, [])
    else
      hwWrite (pa + 14) 0xFFFF 2
      let b ← bindCtx pa
      if b ≠ 0 then pure (0, bytesOf b 4)
      else
        let s ← get
        match s.boundAt pa with
        | none => pure (0, bytesOf b 4)
        | some (asid, c) =>
          let o ← openCtx asid c
          pure (0, bytesOf o 4))) s

/-- n bytes of physical memory from an address, of the HBM or behind one CXL port (R210). -/
def inMemory (pa n : Nat) : Bool := decide (pa + n ≤ hbmEnd) || (inCxl pa && decide (cxlPort pa = cxlPort (pa + n - 1)) && inCxl (pa + n - 1))

/-- Every word that set-pcb checks is as R213 asks; the bytes of the block that R213's table does not list count as reserved (log 50). -/
def pcbValid (p : Nat) : M Bool := do
  let hft ← hwRead p 8
  let cft ← hwRead (p + 8) 8
  let tgt ← hwRead (p + 0x18) 8
  let rings ← eachMap (List.range 17) fun n => do
    let base ← hwRead (p + ringBase n) 8
    let size ← hwRead (p + ringBase n + 8) 8
    pure (decide (base % 8 = 0) && decide (size = 2 ^ Nat.log2 size))
  let wm ← eachMap (List.range 4) fun d => hwRead (p + 0x28 + 16 * d) 8
  let gap ← hwRead (p + 0x60) 32
  pure (hft % 16 = 0 ∧ cft % 16 = 0 ∧ (tgt = 1 ∨ tgt = 2) ∧ rings.all id ∧ wm.all (· == 0) ∧ gap = 0)

/-- set-pcb, at the physical address of argument 0 (R213, R377). -/
def execSetPcb (s : State) : Host.Outcome State Fault Refusal :=
  event (command 0x02 Level.running (do
    let s ← get
    let pa := s.mailbox.arg 0
    if s.pcb.isSome ∨ pa % 64 ≠ 0 ∨ !inMemory pa 0x2A0 then pure (2, [])
    else
      let ok ← pcbValid pa
      if ok then
        modify fun s => { s with pcb := some pa }
        pure (0, [])
      else pure (2, []))) s

/-- fabric-table: the entries at the physical address of argument 0, as many as argument 1 says, and the device's own index, argument 2. A
table with a nonzero reserved bit, the unlisted bits of the valid and key fields among them, is refused whole, with status 2 (R362, R377,
log 50). -/
def execFabricTable (s : State) : Host.Outcome State Fault Refusal :=
  event (command 0x03 (fun l => l == .s2) (do
    let s ← get
    let pa := s.mailbox.arg 0
    let n := s.mailbox.arg 1
    let self := s.mailbox.arg 2
    if s.kernels.any (fun k => k.2.fab) ∨ 512 < n ∨ n ≤ self ∨ !inMemory pa (16 * n) then pure (2, [])
    else
      let es ← eachMap (List.range n) fun i => hwRead (pa + 16 * i) 16
      if es.any fun x => decide (bitsOf x 73 7 ≠ 0) || decide (bitsOf x 89 39 ≠ 0) then pure (2, [])
      else
        modify fun s => { s with self := self, fabric := es.map fun x =>
          { id := BitVec.ofNat 64 (bitsOf x 0 64), ports := BitVec.ofNat 8 (bitsOf x 64 8), valid := x.testBit 72, key := bitsOf x 80 9 } }
        pure (0, []))) s

/-- take-event: the oldest event for the host (R377). -/
def execTakeEvent (s : State) : Host.Outcome State Fault Refusal :=
  event (command 0x04 (fun _ => true) (do
    let s ← get
    match s.hostEvents with
    | [] => pure (6, [])
    | r :: rest =>
      set { s with hostEvents := rest }
      pure (0, [r.w0, r.w1, r.w2, r.w3].flatMap fun w => bytesOf w.toNat 8))) s

/-- A level's number. -/
def Level.code : Level → Nat
  | .s0 => 0
  | .s1 => 1
  | .s2 => 2

/-- read-log: up to 64 records of 32 bytes, oldest first, are moved to data, after their count (R377, R383, log 28). -/
def execReadLog (s : State) : Host.Outcome State Fault Refusal :=
  event (command 0x05 (fun _ => true) (do
    let s ← get
    let rs := s.log.take 64
    set { s with log := s.log.drop 64 }
    pure (0, bytesOf rs.length 4 ++ rs.flatMap fun r => bytesOf (Config.logData (r.cls, r.unit, r.addr, r.count, r.level.code)) 32))) s

/-- The size of a signed object's signature (R379). -/
def signatureSize : Nat := 2820

/-- stage: the object at the physical address of argument 0, as many bytes as argument 1 says, is verified, and written to flash (R379,
R380). In S0, where R17 has no HBM and R377 accepts the command, the object is read as it is in S1: stacks 0 and 1 answer (DESIGN CHOICE: log 29). -/
def execStage (s : State) : Host.Outcome State Fault Refusal :=
  event (command 0x06 (fun _ => true) (do
    let s ← get
    let pa := s.mailbox.arg 0
    let n := s.mailbox.arg 1
    if !inMemory pa n ∨ n < 16 + signatureSize then pure (2, [])
    else
      let bytes ← eachMap (List.range n) fun i => do
        let b ← hwRead (pa + i) 1
        pure (BitVec.ofNat 8 b)
      let o : FlashObj := { kind := bytesLE bytes 4 1, die := bytesLE bytes 5 1, version := bytesLE bytes 8 4, bytes := bytes }
      if n ≠ 16 + bytesLE bytes 12 4 + signatureSize then pure (2, [])
      else if !s.flash.accepts bytes then pure (4, [])
      else
        let mine (x : FlashObj) : Bool := x.kind == o.kind && x.die == o.die
        let staged := match s.flash.staged.find? mine with
          | none => s.flash.staged ++ [o]
          | some x => if x.version < o.version then s.flash.staged.filter (fun x => !mine x) ++ [o] else s.flash.staged
        modify fun s => { s with flash := { s.flash with staged := staged } }
        pure (0, []))) s

/-- The leaves of the device's signing key (R379, R381). -/
def leaves : Nat := 2 ^ 20

/-- attest: the report for the nonce in the first 32 bytes of arguments, signed with the next leaf, whose index leads the
signature; the one after it is written to flash first (R379, R381, log 24). -/
def execAttest (s : State) : Host.Outcome State Fault Refusal :=
  event (command 0x07 Level.running (do
    let s ← get
    if leaves ≤ s.flash.leafIndex then pure (5, [])
    else
      set { s with flash := { s.flash with leafIndex := s.flash.leafIndex + 1 } }
      let report := s.mailbox.args.take 32 ++ (List.replicate 64 0 :: s.flash.chain).flatten ++ s.flash.versions.flatMap (bytesOf · 4) ++
        bytesOf Config.deviceId.toNat 8
      pure (0, report ++ bytesOf s.flash.leafIndex 4 ++ bytesOf (Config.xmssSign report s.flash.leafIndex) (signatureSize - 4)))) s

/-- key-aperture: the key slot of argument 0 for aperture accesses (R376, R377). -/
def execKeyAperture (s : State) : Host.Outcome State Fault Refusal :=
  event (command 0x08 (fun _ => true) (do
    let s ← get
    if 511 < s.mailbox.arg 0 then pure (2, [])
    else
      set { s with apKey := s.mailbox.arg 0 }
      pure (0, []))) s

/-- reset: the device returns to S0 (R18, R377). -/
def execReset (s : State) : Host.Outcome State Fault Refusal :=
  event (do
    let s ← get
    command 0x09 (fun _ => true) (pure (0, []))
    restart 0 false
    modify fun s' => { s' with mailbox := { s'.mailbox with cmd := s.mailbox.cmd, seq := s.mailbox.bell, bell := s.mailbox.bell } }) s

/-- The host writes b bytes at aperture offset a: of the word, or, where there are more than 8, of the data (R374, R376). In S0 there is no
memory, and the write is lost (log 29). -/
def execApertureWrite (s : State) : Host.Outcome State Fault Refusal :=
  event (do
    let s ← get
    let e := s.curEv
    if hbmEnd < e.a + e.b then logError 5 0 e.a
    else if s.level = .s0 then pure ()
    else outsideWrite s.apKey e.a e.b e.written) s

/-- The host reads b bytes at aperture offset a (R374, R376). In S0 there is no memory, and what a read returns is not stated (log 5). -/
def execApertureRead (s : State) : Host.Outcome State Fault Refusal :=
  event (do
    let s ← get
    let e := s.curEv
    let v ← if hbmEnd < e.a + e.b then pure (2 ^ (8 * e.b) - 1)
      else if s.level = .s0 then freeBytes e.b
      else outsideRead s.apKey e.a e.b
    modify fun s => { s with hostRead := v }) s

end Sys2Proof.Machine
end

