-- ==== Sys2Proof/Machine/Dispatch.lean ====
section
/-! DEFINITION. The meaning of every instruction: one direct call for each row of the opcode table. -/

namespace Sys2Proof.Machine

def exec (i : Instr) (s : State) : Host.Outcome State Fault Refusal :=
  match i with
  | .andi rd rs imm => Sys2Proof.Machine.execAndi rd rs imm s
  | .ori rd rs imm => Sys2Proof.Machine.execOri rd rs imm s
  | .xori rd rs imm => Sys2Proof.Machine.execXori rd rs imm s
  | .slti rd rs imm => Sys2Proof.Machine.execSlti rd rs imm s
  | .addi rd rs imm => Sys2Proof.Machine.execAddi rd rs imm s
  | .slli rd rs n => Sys2Proof.Machine.execSlli rd rs n s
  | .srli rd rs n => Sys2Proof.Machine.execSrli rd rs n s
  | .srai rd rs n => Sys2Proof.Machine.execSrai rd rs n s
  | .ext rd rs pos wm1 => Sys2Proof.Machine.execExt rd rs pos wm1 s
  | .ins rd rs pos wm1 => Sys2Proof.Machine.execIns rd rs pos wm1 s
  | .jalr rd rs imm => Sys2Proof.Machine.execJalr rd rs imm s
  | .lhi rd imm => Sys2Proof.Machine.execLhi rd imm s
  | .jal rd off => Sys2Proof.Machine.execJal rd off s
  | .ctok rs off => Sys2Proof.Machine.execCtok rs off s
  | .astart off => Sys2Proof.Machine.execAstart off s
  | .beq ra rb off => Sys2Proof.Machine.execBeq ra rb off s
  | .bne ra rb off => Sys2Proof.Machine.execBne ra rb off s
  | .blt ra rb off => Sys2Proof.Machine.execBlt ra rb off s
  | .bge ra rb off => Sys2Proof.Machine.execBge ra rb off s
  | .bltn ra rb off => Sys2Proof.Machine.execBltn ra rb off s
  | .bgen ra rb off => Sys2Proof.Machine.execBgen ra rb off s
  | .smb ra rb off => Sys2Proof.Machine.execSmb ra rb off s
  | .add rd ra rb => Sys2Proof.Machine.execAdd rd ra rb s
  | .sub rd ra rb => Sys2Proof.Machine.execSub rd ra rb s
  | .mul rd ra rb => Sys2Proof.Machine.execMul rd ra rb s
  | .mulh rd ra rb => Sys2Proof.Machine.execMulh rd ra rb s
  | .div rd ra rb => Sys2Proof.Machine.execDiv rd ra rb s
  | .divn rd ra rb => Sys2Proof.Machine.execDivn rd ra rb s
  | .rem rd ra rb => Sys2Proof.Machine.execRem rd ra rb s
  | .remn rd ra rb => Sys2Proof.Machine.execRemn rd ra rb s
  | .and rd ra rb => Sys2Proof.Machine.execAnd rd ra rb s
  | .or rd ra rb => Sys2Proof.Machine.execOr rd ra rb s
  | .xor rd ra rb => Sys2Proof.Machine.execXor rd ra rb s
  | .sll rd ra rb => Sys2Proof.Machine.execSll rd ra rb s
  | .srl rd ra rb => Sys2Proof.Machine.execSrl rd ra rb s
  | .sra rd ra rb => Sys2Proof.Machine.execSra rd ra rb s
  | .slt rd ra rb => Sys2Proof.Machine.execSlt rd ra rb s
  | .sltn rd ra rb => Sys2Proof.Machine.execSltn rd ra rb s
  | .min rd ra rb => Sys2Proof.Machine.execMin rd ra rb s
  | .max rd ra rb => Sys2Proof.Machine.execMax rd ra rb s
  | .minN rd ra rb => Sys2Proof.Machine.execMinN rd ra rb s
  | .maxN rd ra rb => Sys2Proof.Machine.execMaxN rd ra rb s
  | .clz rd ra => Sys2Proof.Machine.execClz rd ra s
  | .popc rd ra => Sys2Proof.Machine.execPopc rd ra s
  | .sel rd ra rb => Sys2Proof.Machine.execSel rd ra rb s
  | .lea rd ra rb n => Sys2Proof.Machine.execLea rd ra rb n s
  | .qpush q r => Sys2Proof.Machine.execQpush q r s
  | .qpop r q => Sys2Proof.Machine.execQpop r q s
  | .qpeek r q => Sys2Proof.Machine.execQpeek r q s
  | .qlen rd q => Sys2Proof.Machine.execQlen rd q s
  | .ctake rd => Sys2Proof.Machine.execCtake rd s
  | .vadd vd va vb => Sys2Proof.Machine.execVadd vd va vb s
  | .vsub vd va vb => Sys2Proof.Machine.execVsub vd va vb s
  | .vmul vd va vb => Sys2Proof.Machine.execVmul vd va vb s
  | .vmadd vd va vb => Sys2Proof.Machine.execVmadd vd va vb s
  | .vnmadd vd va vb => Sys2Proof.Machine.execVnmadd vd va vb s
  | .vdiv vd va vb => Sys2Proof.Machine.execVdiv vd va vb s
  | .vsqrt vd va => Sys2Proof.Machine.execVsqrt vd va s
  | .vrsqrt vd va => Sys2Proof.Machine.execVrsqrt vd va s
  | .vexp2 vd va => Sys2Proof.Machine.execVexp2 vd va s
  | .vlog2 vd va => Sys2Proof.Machine.execVlog2 vd va s
  | .vmax vd va vb => Sys2Proof.Machine.execVmax vd va vb s
  | .vmin vd va vb => Sys2Proof.Machine.execVmin vd va vb s
  | .vabs vd va => Sys2Proof.Machine.execVabs vd va s
  | .vneg vd va => Sys2Proof.Machine.execVneg vd va s
  | .vand vd va vb => Sys2Proof.Machine.execVand vd va vb s
  | .vor vd va vb => Sys2Proof.Machine.execVor vd va vb s
  | .vxor vd va vb => Sys2Proof.Machine.execVxor vd va vb s
  | .vnot vd va => Sys2Proof.Machine.execVnot vd va s
  | .vshl vd va vb => Sys2Proof.Machine.execVshl vd va vb s
  | .vshr vd va vb => Sys2Proof.Machine.execVshr vd va vb s
  | .vsra vd va vb => Sys2Proof.Machine.execVsra vd va vb s
  | .vcmp cc pd va vb => Sys2Proof.Machine.execVcmp cc pd va vb s
  | .vsel vd va vb => Sys2Proof.Machine.execVsel vd va vb s
  | .vmv vd va => Sys2Proof.Machine.execVmv vd va s
  | .vsplat vd ra => Sys2Proof.Machine.execVsplat vd ra s
  | .vid vd => Sys2Proof.Machine.execVid vd s
  | .vext rd va rb => Sys2Proof.Machine.execVext rd va rb s
  | .vins vd ra rb => Sys2Proof.Machine.execVins vd ra rb s
  | .vcvt vd va fmt => Sys2Proof.Machine.execVcvt vd va fmt s
  | .vredsum vd va => Sys2Proof.Machine.execVredsum vd va s
  | .vredmax vd va => Sys2Proof.Machine.execVredmax vd va s
  | .vredmin vd va => Sys2Proof.Machine.execVredmin vd va s
  | .vargmax rd va => Sys2Proof.Machine.execVargmax rd va s
  | .vslideup vd va rb => Sys2Proof.Machine.execVslideup vd va rb s
  | .vslidedn vd va rb => Sys2Proof.Machine.execVslidedn vd va rb s
  | .vperm vd va vb => Sys2Proof.Machine.execVperm vd va vb s
  | .vcompress vd va pb => Sys2Proof.Machine.execVcompress vd va pb s
  | .vexpand vd va pb => Sys2Proof.Machine.execVexpand vd va pb s
  | .vconf pd va => Sys2Proof.Machine.execVconf pd va s
  | .smerge vd va vb => Sys2Proof.Machine.execSmerge vd va vb s
  | .sapply vd va sp => Sys2Proof.Machine.execSapply vd va sp s
  | .vaddImm vd va imm => Sys2Proof.Machine.execVaddImm vd va imm s
  | .vsubImm vd va imm => Sys2Proof.Machine.execVsubImm vd va imm s
  | .vmulImm vd va imm => Sys2Proof.Machine.execVmulImm vd va imm s
  | .vmaxImm vd va imm => Sys2Proof.Machine.execVmaxImm vd va imm s
  | .vminImm vd va imm => Sys2Proof.Machine.execVminImm vd va imm s
  | .vandImm vd va imm => Sys2Proof.Machine.execVandImm vd va imm s
  | .vorImm vd va imm => Sys2Proof.Machine.execVorImm vd va imm s
  | .vxorImm vd va imm => Sys2Proof.Machine.execVxorImm vd va imm s
  | .vshlImm vd va n => Sys2Proof.Machine.execVshlImm vd va n s
  | .vshrImm vd va n => Sys2Proof.Machine.execVshrImm vd va n s
  | .vsraImm vd va n => Sys2Proof.Machine.execVsraImm vd va n s
  | .vslideupImm vd va n => Sys2Proof.Machine.execVslideupImm vd va n s
  | .vslidednImm vd va n => Sys2Proof.Machine.execVslidednImm vd va n s
  | .vsplatImm vd imm => Sys2Proof.Machine.execVsplatImm vd imm s
  | .vtag vd fmt => Sys2Proof.Machine.execVtag vd fmt s
  | .vcmpImm cc pd va imm => Sys2Proof.Machine.execVcmpImm cc pd va imm s
  | .pand pd pa pb => Sys2Proof.Machine.execPand pd pa pb s
  | .por pd pa pb => Sys2Proof.Machine.execPor pd pa pb s
  | .pxor pd pa pb => Sys2Proof.Machine.execPxor pd pa pb s
  | .pnot pd pa => Sys2Proof.Machine.execPnot pd pa s
  | .psbf pd pa => Sys2Proof.Machine.execPsbf pd pa s
  | .psif pd pa => Sys2Proof.Machine.execPsif pd pa s
  | .pfirst rd pa => Sys2Proof.Machine.execPfirst rd pa s
  | .pcnt rd pa => Sys2Proof.Machine.execPcnt rd pa s
  | .pset pd ra => Sys2Proof.Machine.execPset pd ra s
  | .kmvToScale kd va => Sys2Proof.Machine.execKmvToScale kd va s
  | .kmvToVector vd ka => Sys2Proof.Machine.execKmvToVector vd ka s
  | .setvl rd ra fmt dc ftz bl lg => Sys2Proof.Machine.execSetvl rd ra fmt dc ftz bl lg s
  | .mode g rm sat => Sys2Proof.Machine.execMode g rm sat s
  | .lbMd rd ra disp fr => Sys2Proof.Machine.execLbMd rd ra disp fr s
  | .lbMx rd ra rb fr => Sys2Proof.Machine.execLbMx rd ra rb fr s
  | .lbnMd rd ra disp fr => Sys2Proof.Machine.execLbnMd rd ra disp fr s
  | .lbnMx rd ra rb fr => Sys2Proof.Machine.execLbnMx rd ra rb fr s
  | .lhMd rd ra disp fr => Sys2Proof.Machine.execLhMd rd ra disp fr s
  | .lhMx rd ra rb fr => Sys2Proof.Machine.execLhMx rd ra rb fr s
  | .lhnMd rd ra disp fr => Sys2Proof.Machine.execLhnMd rd ra disp fr s
  | .lhnMx rd ra rb fr => Sys2Proof.Machine.execLhnMx rd ra rb fr s
  | .lwMd rd ra disp fr => Sys2Proof.Machine.execLwMd rd ra disp fr s
  | .lwMx rd ra rb fr => Sys2Proof.Machine.execLwMx rd ra rb fr s
  | .lwnMd rd ra disp fr => Sys2Proof.Machine.execLwnMd rd ra disp fr s
  | .lwnMx rd ra rb fr => Sys2Proof.Machine.execLwnMx rd ra rb fr s
  | .ldMd rd ra disp fr => Sys2Proof.Machine.execLdMd rd ra disp fr s
  | .ldMx rd ra rb fr => Sys2Proof.Machine.execLdMx rd ra rb fr s
  | .prefL1Md ra disp => Sys2Proof.Machine.execPrefL1Md ra disp s
  | .prefL1Mx ra rb => Sys2Proof.Machine.execPrefL1Mx ra rb s
  | .prefLlcMd ra disp => Sys2Proof.Machine.execPrefLlcMd ra disp s
  | .prefLlcMx ra rb => Sys2Proof.Machine.execPrefLlcMx ra rb s
  | .sbMd rs ra disp => Sys2Proof.Machine.execSbMd rs ra disp s
  | .sbMx rs ra rb => Sys2Proof.Machine.execSbMx rs ra rb s
  | .shMd rs ra disp => Sys2Proof.Machine.execShMd rs ra disp s
  | .shMx rs ra rb => Sys2Proof.Machine.execShMx rs ra rb s
  | .swMd rs ra disp => Sys2Proof.Machine.execSwMd rs ra disp s
  | .swMx rs ra rb => Sys2Proof.Machine.execSwMx rs ra rb s
  | .sdMd rs ra disp => Sys2Proof.Machine.execSdMd rs ra disp s
  | .sdMx rs ra rb => Sys2Proof.Machine.execSdMx rs ra rb s
  | .vldMd vd ra disp fr => Sys2Proof.Machine.execVldMd vd ra disp fr s
  | .vldMx vd ra rb fr => Sys2Proof.Machine.execVldMx vd ra rb fr s
  | .vlds vd ra rb fr => Sys2Proof.Machine.execVlds vd ra rb fr s
  | .vldffMd vd ra disp fr => Sys2Proof.Machine.execVldffMd vd ra disp fr s
  | .vldffMx vd ra rb fr => Sys2Proof.Machine.execVldffMx vd ra rb fr s
  | .ksld kd ra rb fr => Sys2Proof.Machine.execKsld kd ra rb fr s
  | .vstMd vs ra disp => Sys2Proof.Machine.execVstMd vs ra disp s
  | .vstMx vs ra rb => Sys2Proof.Machine.execVstMx vs ra rb s
  | .vsts vs ra rb => Sys2Proof.Machine.execVsts vs ra rb s
  | .vldsegMd n vd ra disp => Sys2Proof.Machine.execVldsegMd n vd ra disp s
  | .vldsegMx n vd ra rb => Sys2Proof.Machine.execVldsegMx n vd ra rb s
  | .vstsegMd n vs ra disp => Sys2Proof.Machine.execVstsegMd n vs ra disp s
  | .vstsegMx n vs ra rb => Sys2Proof.Machine.execVstsegMx n vs ra rb s
  | .amoadd sc o dw rd rb ra => Sys2Proof.Machine.execAmoadd sc o dw rd rb ra s
  | .amoswap sc o dw rd rb ra => Sys2Proof.Machine.execAmoswap sc o dw rd rb ra s
  | .amomax sc o dw rd rb ra => Sys2Proof.Machine.execAmomax sc o dw rd rb ra s
  | .amomin sc o dw rd rb ra => Sys2Proof.Machine.execAmomin sc o dw rd rb ra s
  | .amomaxN sc o dw rd rb ra => Sys2Proof.Machine.execAmomaxN sc o dw rd rb ra s
  | .amominN sc o dw rd rb ra => Sys2Proof.Machine.execAmominN sc o dw rd rb ra s
  | .amoand sc o dw rd rb ra => Sys2Proof.Machine.execAmoand sc o dw rd rb ra s
  | .amoor sc o dw rd rb ra => Sys2Proof.Machine.execAmoor sc o dw rd rb ra s
  | .cas sc o dw rd rb ra => Sys2Proof.Machine.execCas sc o dw rd rb ra s
  | .vgat q ew fr ra rb rc => Sys2Proof.Machine.execVgat q ew fr ra rb rc s
  | .vgatff q ew fr ra rb rc => Sys2Proof.Machine.execVgatff q ew fr ra rb rc s
  | .vsca q ew ra rb rc => Sys2Proof.Machine.execVsca q ew ra rb rc s
  | .vscaa q ew ra rb rc => Sys2Proof.Machine.execVscaa q ew ra rb rc s
  | .kvx q ra rb rc => Sys2Proof.Machine.execKvx q ra rb rc s
  | .cut bd ra rb => Sys2Proof.Machine.execCut bd ra rb s
  | .cutp bd ra rb => Sys2Proof.Machine.execCutp bd ra rb s
  | .cutd bd ra rb => Sys2Proof.Machine.execCutd bd ra rb s
  | .mshapeCore rd ra rb => Sys2Proof.Machine.execMshapeCore rd ra rb s
  | .mshapeDie rd ra rb => Sys2Proof.Machine.execMshapeDie rd ra rb s
  | .mlds rd ra => Sys2Proof.Machine.execMlds rd ra s
  | .mswap => Sys2Proof.Machine.execMswap s
  | .mstreamLocal cd ra rb => Sys2Proof.Machine.execMstreamLocal cd ra rb s
  | .mstreamVector cd va rb => Sys2Proof.Machine.execMstreamVector cd va rb s
  | .mzero cd => Sys2Proof.Machine.execMzero cd s
  | .mrd vd ca rb => Sys2Proof.Machine.execMrd vd ca rb s
  | .mwr cd va rb => Sys2Proof.Machine.execMwr cd va rb s
  | .opin ra => Sys2Proof.Machine.execOpin ra s
  | .ounpin ra => Sys2Proof.Machine.execOunpin ra s
  | .ocommitPriv ra => Sys2Proof.Machine.execOcommitPriv ra s
  | .ocommitPub ra => Sys2Proof.Machine.execOcommitPub ra s
  | .odiscard ra => Sys2Proof.Machine.execOdiscard ra s
  | .oquery rd ra rb => Sys2Proof.Machine.execOquery rd ra rb s
  | .frref o sc rd ra rb => Sys2Proof.Machine.execFrref o sc rd ra rb s
  | .cpy rd ra rb => Sys2Proof.Machine.execCpy rd ra rb s
  | .cpyx rd ra rb => Sys2Proof.Machine.execCpyx rd ra rb s
  | .cpyz rd ra rb => Sys2Proof.Machine.execCpyz rd ra rb s
  | .cpyp rd ra rb => Sys2Proof.Machine.execCpyp rd ra rb s
  | .cpyd rd ra rb => Sys2Proof.Machine.execCpyd rd ra rb s
  | .kvcompact rd ra rb => Sys2Proof.Machine.execKvcompact rd ra rb s
  | .lrfence => Sys2Proof.Machine.execLrfence s
  | .evwait rd ra => Sys2Proof.Machine.execEvwait rd ra s
  | .evpoll rd ra => Sys2Proof.Machine.execEvpoll rd ra s
  | .klaunch rd ra => Sys2Proof.Machine.execKlaunch rd ra s
  | .ktrig => Sys2Proof.Machine.execKtrig s
  | .claim rd ra rb => Sys2Proof.Machine.execClaim rd ra rb s
  | .vrelease => Sys2Proof.Machine.execVrelease s
  | .hend => Sys2Proof.Machine.execHend s
  | .gsplit rd ra => Sys2Proof.Machine.execGsplit rd ra s
  | .barr sc n => Sys2Proof.Machine.execBarr sc n s
  | .bwait sc n => Sys2Proof.Machine.execBwait sc n s
  | .bsync sc n => Sys2Proof.Machine.execBsync sc n s
  | .sattn va rb => Sys2Proof.Machine.execSattn va rb s
  | .spld sp ra => Sys2Proof.Machine.execSpld sp ra s
  | .dtinit dd ra => Sys2Proof.Machine.execDtinit dd ra s
  | .dtadd dd va vb => Sys2Proof.Machine.execDtadd dd va vb s
  | .dtmaskPred pd da rb => Sys2Proof.Machine.execDtmaskPred pd da rb s
  | .dtmaskVec vd da rb => Sys2Proof.Machine.execDtmaskVec vd da rb s
  | .dtpos vd da => Sys2Proof.Machine.execDtpos vd da s
  | .dtacc rd da va => Sys2Proof.Machine.execDtacc rd da va s
  | .dtprune dd ra => Sys2Proof.Machine.execDtprune dd ra s
  | .dtld dd ra => Sys2Proof.Machine.execDtld dd ra s
  | .dtst dd ra => Sys2Proof.Machine.execDtst dd ra s
  | .dtinfo rd da => Sys2Proof.Machine.execDtinfo rd da s
  | .ecall n => Sys2Proof.Machine.execEcall n s
  | .breakpoint => Sys2Proof.Machine.execBreakpoint s
  | .eret => Sys2Proof.Machine.execEret s
  | .trapack => Sys2Proof.Machine.execTrapack s
  | .yield => Sys2Proof.Machine.execYield s
  | .fence sc k => Sys2Proof.Machine.execFence sc k s
  | .csrr rd csr => Sys2Proof.Machine.execCsrr rd csr s
  | .csrw csr ra => Sys2Proof.Machine.execCsrw csr ra s
  | .csrs rd csr ra => Sys2Proof.Machine.execCsrs rd csr ra s
  | .csrc rd csr ra => Sys2Proof.Machine.execCsrc rd csr ra s
  | .ctxsave ra => Sys2Proof.Machine.execCtxsave ra s
  | .ctxload ra => Sys2Proof.Machine.execCtxload ra s
  | .keyset rd ra => Sys2Proof.Machine.execKeyset rd ra s
  | .asidset rd ra => Sys2Proof.Machine.execAsidset rd ra s
  | .ckfreeze ra => Sys2Proof.Machine.execCkfreeze ra s
  | .ckwait rd ra => Sys2Proof.Machine.execCkwait rd ra s
  | .ckrestore ra => Sys2Proof.Machine.execCkrestore ra s
  | .gatherFill => Sys2Proof.Machine.execGatherFill s
  | .scatterStatusFill => Sys2Proof.Machine.execScatterStatusFill s
  | .kvxFill => Sys2Proof.Machine.execKvxFill s
  | .matrixQueueExecute => Sys2Proof.Machine.execMatrixQueueExecute s
  | .copyChunkDone => Sys2Proof.Machine.execCopyChunkDone s
  | .copyCompletion => Sys2Proof.Machine.execCopyCompletion s
  | .moveInstall => Sys2Proof.Machine.execMoveInstall s
  | .oldFrameRelease => Sys2Proof.Machine.execOldFrameRelease s
  | .kvcompactEvent => Sys2Proof.Machine.execKvcompactEvent s
  | .sliceBlockRead => Sys2Proof.Machine.execSliceBlockRead s
  | .passCompletion => Sys2Proof.Machine.execPassCompletion s
  | .prefFillArrival => Sys2Proof.Machine.execPrefFillArrival s
  | .evictionSweep => Sys2Proof.Machine.execEvictionSweep s
  | .queueDeadlock => Sys2Proof.Machine.execQueueDeadlock s
  | .yieldDeadlineExpiry => Sys2Proof.Machine.execYieldDeadlineExpiry s
  | .collectorAcknowledgement => Sys2Proof.Machine.execCollectorAcknowledgement s
  | .contextResumption => Sys2Proof.Machine.execContextResumption s
  | .contextEventWrite => Sys2Proof.Machine.execContextEventWrite s
  | .kernelDispatch => Sys2Proof.Machine.execKernelDispatch s
  | .launchQueueDoorbell => Sys2Proof.Machine.execLaunchQueueDoorbell s
  | .ctxRoot => Sys2Proof.Machine.execCtxRoot s
  | .setPcb => Sys2Proof.Machine.execSetPcb s
  | .fabricTable => Sys2Proof.Machine.execFabricTable s
  | .takeEvent => Sys2Proof.Machine.execTakeEvent s
  | .readLog => Sys2Proof.Machine.execReadLog s
  | .stage => Sys2Proof.Machine.execStage s
  | .attest => Sys2Proof.Machine.execAttest s
  | .keyAperture => Sys2Proof.Machine.execKeyAperture s
  | .reset => Sys2Proof.Machine.execReset s
  | .apertureWrite => Sys2Proof.Machine.execApertureWrite s
  | .apertureRead => Sys2Proof.Machine.execApertureRead s
  | .deviceWindowWrite => Sys2Proof.Machine.execDeviceWindowWrite s
  | .powerOn => Sys2Proof.Machine.execPowerOn s
  | .enterS1 => Sys2Proof.Machine.execEnterS1 s
  | .enterS2 => Sys2Proof.Machine.execEnterS2 s
  | .cxlPortTrainingDone => Sys2Proof.Machine.execCxlPortTrainingDone s
  | .voltorTrainingDone => Sys2Proof.Machine.execVoltorTrainingDone s
  | .voltorTrainingTimeout => Sys2Proof.Machine.execVoltorTrainingTimeout s
  | .voltorLaneFault => Sys2Proof.Machine.execVoltorLaneFault s
  | .lossOfSignal => Sys2Proof.Machine.execLossOfSignal s
  | .flitReceive => Sys2Proof.Machine.execFlitReceive s
  | .peerAccessArrival => Sys2Proof.Machine.execPeerAccessArrival s
  | .peerStoreLost => Sys2Proof.Machine.execPeerStoreLost s
  | .fabPartReport => Sys2Proof.Machine.execFabPartReport s
  | .fabPause => Sys2Proof.Machine.execFabPause s
  | .fabricBarrierCombine => Sys2Proof.Machine.execFabricBarrierCombine s
  | .drainEnd => Sys2Proof.Machine.execDrainEnd s
  | .restoreEnd => Sys2Proof.Machine.execRestoreEnd s
  | .instructionFetchAhead => Sys2Proof.Machine.execInstructionFetchAhead s
  | .eccCorrected => Sys2Proof.Machine.execEccCorrected s
  | .eccUncorrectable => Sys2Proof.Machine.execEccUncorrectable s
  | .thermalLimit => Sys2Proof.Machine.execThermalLimit s
  | .thermalTrip => Sys2Proof.Machine.execThermalTrip s
  | .nullFetch => Sys2Proof.Machine.execNullFetch s
  | .illegalInstruction => Sys2Proof.Machine.execIllegalInstruction s
  | .fetchForIssueFault => Sys2Proof.Machine.execFetchForIssueFault s
  | .storePerform => Sys2Proof.Machine.execStorePerform s
  | .cycleCounterAdvance => Sys2Proof.Machine.execCycleCounterAdvance s
  | .voltorFirmwareCommand => Sys2Proof.Machine.execVoltorFirmwareCommand s

end Sys2Proof.Machine
end

