-- ==== Sys2Proof/Machine/Redo.lean ====
section
/-! DEFINITION. Instructions carried out after they have retired: one that S1 held as a whole (R20), and a load whose value the order of its strip
leaves open past later stores (R161, R164). -/

namespace Sys2Proof.Machine

/-- The registers of a stream now, with what an instruction carried out after it retired has changed of those that it issued with. -/
def mergeRegs (now issued done : Vector Word64 32) : Vector Word64 32 :=
  Vector.ofFn fun i => if done[i] = issued[i] then now[i] else done[i]

/-- A hart as it stood when an instruction of a stream issued, in the rest as it is. -/
def Hart.recalled (h : Hart) (st : StreamId) (pc resume : Word64) (priv : Priv) (regs : Vector Word64 32) : Hart :=
  let h := { (h.setPc st pc).setResume st resume with priv := priv, win := false, halted := none }
  match st with
  | .x => { h with xs := regs }
  | .a => { h with as := regs }

/-- A hart after an instruction of a stream has been carried out: where its streams stand is as it was. -/
def Hart.rejoin (done now : Hart) (st : StreamId) (regs : Vector Word64 32) : Hart :=
  let h := { done with
    xpc := now.xpc, apc := now.apc, resumeX := now.resumeX, resumeA := now.resumeA, priv := now.priv, win := now.win, halted := now.halted
    xs := now.xs, as := now.as }
  match st with
  | .x => { h with xs := mergeRegs now.xs regs done.xs }
  | .a => { h with as := mergeRegs now.as regs done.as }

/-- How an instruction carried out after it retired ends: it retires, with the hart that it leaves; it waits; or it meets what would be a trap. -/
inductive Redone where
  | retired (t : State) (h : Hart)
  | waits (t : State) (h : Hart)
  | trapped (t : State)

/-- Carry out an instruction of a stream from the hart that it issued with. -/
def redo (word : Word32) (st : StreamId) (h : Hart) (s : State) : Redone :=
  let s' := { s with curSlot := h.slot, curStream := st, curWord := word, curFetch := (0, 0), curStop := none }.putHart h
  match decodeWord word.toNat with
  | .instr i => match exec i s' with
    | .next t => match t.hart with
      | some d => if d.win || d.halted.isSome then .trapped t else if d.pc st = pcBits (h.pc st + 4) then .retired t d else .waits t d
      | none => .trapped t
    | .fault _ | .refused _ => .trapped s'
  | .null | .illegal _ => .trapped s'

/-- The scalar register that an instruction held as a whole fills: those of a claim and of the engines' forms (R238, R287). -/
def wholeDest : Instr → Option SReg
  | .claim rd _ _ | .cpy rd _ _ | .cpyx rd _ _ | .cpyz rd _ _ | .kvcompact rd _ _ => some rd
  | _ => none

/-- What becomes of a held instruction that meets what would be a trap, which nothing can report any more: it is not done, and the register that it
was to fill holds a free value (log 17). -/
def Hart.unfilled (h : Hart) (st : StreamId) (word : Word32) (v : Word64) : Hart :=
  match decodeWord word.toNat with
  | .instr i => (wholeDest i).elim h fun rd => h.setS st rd v
  | .null | .illegal _ => h

/-- The whole instruction at a position of what S1 held is carried out: in S2, the oldest of its stream first, with the registers that it issued with; one
that waits stays held, with its progress (R20, log 17). -/
def carryOut (n : Nat) (s : State) : State :=
  match s.held[n]? with
  | none => s
  | some w => match w.work, SMap.get? s.harts w.slot with
    | .whole word pc resume priv regs, some h =>
      if s.level ≠ .s2 ∨ (s.held.take n).any (fun v => v.of w.slot w.stream) then s
      else
        let rest := { s with held := s.held.eraseIdx n }
        match redo word w.stream (h.recalled w.stream pc resume priv regs) rest with
        | .retired t d => { t with harts := SMap.put t.harts w.slot (d.rejoin h w.stream regs) }
        | .waits t d =>
          { t with
            harts := SMap.put t.harts w.slot { d.rejoin h w.stream regs with waitA := h.waitA, waitX := h.waitX }
            held := t.held.insertIdx n { w with work := .whole word pc (d.resume w.stream) priv regs } }
        | .trapped t =>
          { rest with
            freeCtr := t.freeCtr + 1
            harts := SMap.put rest.harts w.slot (h.unfilled w.stream word (Config.freeWord t.freeCtr)).stirred }
    | _, _ => s

/-- The addresses of the active elements of a vector form (R144). -/
def elemAddrs (ops : Fmt → M (Nat → Word64)) (fields : Nat) : M (List (Word64 × Nat)) := do
  let h ← getHart
  let addr ← ops h.fmt
  pure (((List.range h.vl.toNat).filter h.activeAt).flatMap fun i => (List.range fields).map fun f => (addr (i * fields + f), esizeOf h.fmt))

/-- The address of a scalar form (R141). -/
def scalarAddr (n : Nat) (addr : M Word64) : M (List (Word64 × Nat)) := do
  let va ← addr
  pure [(va, n)]

/-- The addresses and lengths that a load reads whose value may be fixed after it has retired: a scalar load, or a unit-stride, strided or segment load
(R161, R164); none for any other instruction (log 7). -/
def lateAddrs : Instr → Option (M (List (Word64 × Nat)))
  | .lbMd _ ra d _ | .lbnMd _ ra d _ => some (scalarAddr 1 (addrMd ra d))
  | .lbMx _ ra rb _ | .lbnMx _ ra rb _ => some (scalarAddr 1 (addrMx ra rb))
  | .lhMd _ ra d _ | .lhnMd _ ra d _ => some (scalarAddr 2 (addrMd ra d))
  | .lhMx _ ra rb _ | .lhnMx _ ra rb _ => some (scalarAddr 2 (addrMx ra rb))
  | .lwMd _ ra d _ | .lwnMd _ ra d _ => some (scalarAddr 4 (addrMd ra d))
  | .lwMx _ ra rb _ | .lwnMx _ ra rb _ => some (scalarAddr 4 (addrMx ra rb))
  | .ldMd _ ra d _ => some (scalarAddr 8 (addrMd ra d))
  | .ldMx _ ra rb _ => some (scalarAddr 8 (addrMx ra rb))
  | .vldMd _ ra d _ => some (elemAddrs (unitOps (addrMd ra d)) 1)
  | .vldMx _ ra rb _ => some (elemAddrs (unitOps (addrMx ra rb)) 1)
  | .vlds _ ra rb _ => some (elemAddrs (strideOps ra rb) 1)
  | .vldsegMd n _ ra d => some (elemAddrs (unitOps (addrMd ra d)) (n.val + 2))
  | .vldsegMx n _ ra rb => some (elemAddrs (unitOps (addrMx ra rb)) (n.val + 2))
  | _ => none

/-- Where the bytes lie that such a load reads: in memory or in a local store, and not in a peer's memory. -/
def latePlaces (i : Instr) : M (Option (List Loc)) :=
  match lateAddrs i with
  | none => pure none
  | some addrs => do
    let l ← addrs
    let a ← actor
    let ps ← eachMap l fun (va, n) => do
      let p ← a.find .load va n (some false) true
      pure p.loc
    pure (if ps.any Loc.isPeer then none else some ps)

/-- The loads whose values may still be fixed later, with one that the execute stream of a slot has issued in `s` and that retired in `t`. -/
def State.withLate (t : State) (i : Instr) (s : State) : List LateLoad :=
  match s.hart, latePlaces i s with
  | some h, .ok (some ps) _ =>
    if h.resumeX = 0 ∧ (t.hart.any fun d => d.xpc = pcBits (h.xpc + 4) && decide (d.priv = .u)) then
      t.late ++ [{ slot := s.curSlot, word := s.curWord, pc := h.xpc, regs := h.xs, places := ps }]
    else t.late
  | _, _ => t.late

/-- The late load at a position takes its value anew, once more as a load in its place in the order, while its bytes lie where they lay and the
registers that it fills are where it left them (R161, R164). -/
def fixLate (n : Nat) (s : State) : State :=
  match s.late[n]? with
  | none => s
  | some l => match SMap.get? s.harts l.slot, decodeWord l.word.toNat with
    | some h, .instr i =>
      let r := h.recalled .x l.pc 0 .u l.regs
      let here : Bool := match latePlaces i ({ s with curSlot := l.slot, curStream := .x, curWord := l.word }.putHart r) with
        | .ok ps _ => ps == some l.places
        | .error _ _ => false
      let resident : Bool := (regsLoaded i).all fun x => match x with
        | .v n => h.vres.contains n
        | _ => true
      if decide (h.priv = .u) && !h.stopped && h.halted.isNone && here && resident then
        match redo l.word .x r s with
        | .retired t d => { t with harts := SMap.put t.harts l.slot { h with v := d.v, xs := mergeRegs h.xs l.regs d.xs } }
        | .waits .. | .trapped _ => s
      else s
    | _, _ => s

/-- A load or a store of one stream whose accesses take their places in the order by R164 alone: yes for a scalar one (log 7). -/
def memForm : Instr → Option Bool
  | .lbMd .. | .lbMx .. | .lbnMd .. | .lbnMx .. | .lhMd .. | .lhMx .. | .lhnMd .. | .lhnMx .. | .lwMd .. | .lwMx .. | .lwnMd .. | .lwnMx ..
  | .ldMd .. | .ldMx .. | .sbMd .. | .sbMx .. | .shMd .. | .shMx .. | .swMd .. | .swMx .. | .sdMd .. | .sdMx .. => some true
  | .vldMd .. | .vldMx .. | .vlds .. | .vldsegMd .. | .vldsegMx .. | .vstMd .. | .vstMx .. | .vsts .. | .vstsegMd .. | .vstsegMx .. => some false
  | _ => none

/-- The value of a late load stays open over an instruction of its hart: one that works on scalar registers alone, or a load or a store that R164 leaves
unordered with it; of its own stream it names no register that the load fills (R164, R166). -/
def LateLoad.openOver (l : LateLoad) (st : StreamId) (i : Instr) (word : Word32) : Bool :=
  match decodeWord l.word.toNat with
  | .instr j =>
    (plainWord word.toNat || (memForm i).isSome) &&
      (decide (st = .a) || ((regsNamed i).all fun r => !(regsLoaded j).contains r) && !(memForm i == some true && memForm j == some true))
  | .null | .illegal _ => false

/-- An instruction of the late load's stream, issued in a state, is a load that may read a byte of it once more: no value that it returns comes before the
late load's (R143). -/
def LateLoad.rereads (l : LateLoad) (i : Instr) (s : State) : Bool :=
  (lateAddrs i).isSome && match latePlaces i s with
    | .ok (some ps) _ => ps.any fun p => l.places.any fun q => p.meets 8 q 8
    | _ => true

/-- The value of a late load stays open over the turn of a stream: another hart's, or one of its own that leaves it open. -/
def State.openOver (s : State) (slot : Nat) (st : StreamId) (l : LateLoad) : Bool :=
  decide (slot ≠ l.slot) || match fetchTurn slot st s with
    | none => true
    | some (i, t) => l.openOver st i t.curWord && !(decide (st = .x) && l.rereads i t)

/-- The value of a late load stays open over a turn (R164). -/
def State.leavesOpen (s : State) (t : Turn) (l : LateLoad) : Bool :=
  match t with
  | .issue slot st => s.openOver slot st l
  | .issueTo slot st _ => s.openOver slot st l
  | .issueLate slot => s.openOver slot .x l
  | .late _ | .event .storePerform _ | .event .cycleCounterAdvance _ => true
  | .held _ | .event _ _ => false

/-- The loads whose values a turn fixes are late no more. -/
def State.fixedBy (s : State) (t : Turn) : State := { s with late := s.late.filter (s.leavesOpen t) }

end Sys2Proof.Machine
end

