-- ==== Sys2Proof/Machine/Schedule.lean ====
section
/-! DEFINITION. The schedule the machine follows when its agenda is empty (log 1). -/

namespace Sys2Proof.Machine

/-- The hart of a test (log 2). -/
def testHart : Hart :=
  { Hart.start 0 1 1 (BitVec.ofNat 64 testVa) 0 16 16 0 (Vector.replicate 4 0) 0 0 0 0 with arun := true, apc := BitVec.ofNat 64 testVa }

/-- An event with up to three numbers. -/
def ev (i : Instr) (a : Nat := 0) (b : Nat := 0) (c : Nat := 0) : Turn := .event i { a := a, b := b, c := c }

/-- The fills that a hart's queues wait for. -/
def Hart.fills (h : Hart) : List Turn :=
  (List.range 4).flatMap (fun q => ((h.vq.getD q []).zipIdx).filterMap fun (p, i) => match p with
    | .reserved _ kvx => some (ev (if kvx then .kvxFill else .gatherFill) h.slot q i)
    | _ => none) ++
  [(4, h.q4), (5, h.q5)].flatMap fun (q, l) => (l.zipIdx).filterMap fun (p, i) => match p with
    | .reserved _ => some (ev .scatterStatusFill h.slot q i)
    | _ => none

/-- What comes next of a pass: a block to dispatch or to read, or its end. -/
def Pass.next (slot id : Nat) (p : Pass) : Turn :=
  let waits := (p.fates.zipIdx).find? fun (f, _) => match f with
    | .dispatched .. => true
    | _ => false
  match waits with
  | some (_, b) => ev .sliceBlockRead slot id b
  | none => if p.fates.length < p.nblk then ev .sliceBlockRead slot id p.fates.length else ev .passCompletion slot id

/-- What comes next of a transfer. -/
def Transfer.next (slot : Nat) (t : Transfer) : Turn :=
  match t.work with
  | .copy _ _ _ [] _ _ => ev .copyCompletion slot t.id
  | .copy _ _ _ (c :: _) _ _ => ev .copyChunkDone slot t.id c
  | .move .. => ev .moveInstall t.id
  | .kvc .. => ev .kvcompactEvent slot t.id
  | .pass p => p.next slot t.id

/-- What a hart's engines, its collector and its counters may do. -/
def Hart.turns (h : Hart) : List Turn :=
  h.fills ++ h.transfers.map (Transfer.next h.slot) ++
  (if h.stopped && !h.acked then [ev .collectorAcknowledgement h.slot] else []) ++
  (if h.deadline = some 0 ∧ !h.stopped then [ev .yieldDeadlineExpiry h.slot] else []) ++
  (if h.deadlocked ∧ 64 ≤ h.deadCount then [ev .queueDeadlock h.slot] else [])

/-- What a core may do. -/
def Core.turns (c : Core) (n : Nat) : List Turn :=
  (if c.mat.queue.isEmpty then [] else [ev .matrixQueueExecute n]) ++
  (if c.prefetches.isEmpty then [] else [ev .prefFillArrival n]) ++
  (List.range c.ctxEvents.length).map (fun i => ev .contextEventWrite n i)

/-- What the device does by itself that may come next. What only the outside world brings about stands in the agenda alone. -/
def State.turns (s : State) : List Turn :=
  s.harts.flatMap (fun e => e.2.turns) ++
  (s.cores.toList.zipIdx).flatMap (fun (c, n) => c.turns n) ++
  s.moves.map (fun m => ev .moveInstall m.id) ++
  (List.range s.pending.length).map (fun i => ev .storePerform i) ++
  s.held.zipIdx.map (fun (w, i) => match w.work with
    | .whole .. => .held i
    | .load | .atomic .. | .count .. => .event .storePerform { a := i, yes := true }) ++
  (if s.lost.isEmpty then [] else [.event .peerStoreLost { yes := true }]) ++
  (s.barriers.filter fun b => b.2 == .gathering && !(s.members 3 (b.1 / 16)).isEmpty).map (fun b => ev .fabricBarrierCombine (b.1 / 16) (b.1 % 16)) ++
  (List.range s.oldFrames.length).map (fun i => ev .oldFrameRelease i) ++
  (s.contexts.filter fun c => c.2.state == .preempted && !c.2.parked).map (fun c => ev .contextResumption c.1) ++
  (if s.heads.isEmpty then [] else (List.range 4).map fun d => ev .kernelDispatch d) ++
  (if s.pcb.isSome && s.level == .s2 then (List.range 4).map fun d => ev .evictionSweep d else []) ++
  (if s.drains.isEmpty then [] else [ev .drainEnd]) ++
  (if s.restores.isEmpty then [] else [ev .restoreEnd])

/-- The turn of the stream that a core chooses in an issue class; a turn that does nothing when it chooses none (R298). -/
def State.classTurn (s : State) (core : Nat) (c : IssueClass) : Turn :=
  match (s.harts.filter fun e => decide (coreOfSlot e.1 = core)).findSome? fun e =>
      ([.x, .a].find? fun st => s.ready e.2 st && decide (s.issueClass e.2 st = c) && s.chosen e.2 st c).map fun st => Turn.issue e.1 st with
  | some t => t
  | none => .issue (16 * core) .x

/-- What else may come next, in its turn; a stream that waits tries again. -/
def State.otherTurn (s : State) (n : Nat) : Turn :=
  let l := s.harts.flatMap (fun e => ([.x, .a].filter fun st => s.mayIssue e.2 st && !s.ready e.2 st).map (Turn.issue e.1)) ++ s.turns
  (l[n % l.length]?).getD (ev .cycleCounterAdvance (n % 64))

/-- The turn the schedule chooses: each core in its turn has a cycle, in which it issues in each of its classes, with some of what the device does by
itself between (log 1). -/
def State.nextTurn (s : State) : Turn :=
  let core := s.tick / 8 % 64
  match s.tick % 8 with
  | 0 => ev .cycleCounterAdvance core
  | 1 => s.classTurn core .access
  | 2 => s.classTurn core .scalar
  | 3 => s.classTurn core .vector
  | k => s.otherTurn (s.tick / 8 * 4 + (k - 4))

end Sys2Proof.Machine
end

