-- ==== Sys2Proof/Machine/Step.lean ====
section
/-! DEFINITION. One step: the turn of a stream, which fetches and runs its next instruction, or an event of the opcode
table. The agenda says whose turn it is; when it is empty a fixed schedule chooses (log 1). -/

namespace Sys2Proof.Machine

/-- A turn taken. -/
def takeTurn (t : Turn) (s : State) : Host.Outcome State Fault Refusal :=
  match t with
  | .event i args => exec i { s with curEv := args }
  | .issue slot st =>
    match fetchTurn slot st s with
    | none => .next s
    | some (i, s') => exec i s'
  | .issueTo slot st k =>
    match fetchTurn slot st s with
    | none => .next s
    | some (i, s') => exec i { s' with curStop := some k }
  | .issueLate slot =>
    match fetchTurn slot .x s with
    | none => .next s
    | some (i, s') => match exec i s' with
      | .next t => .next { t with late := t.withLate i s' }
      | .fault f => .fault f
      | .refused r => .refused r
  | .late n => .next (fixLate n s)
  | .held n => .next (carryOut n s)

/-- One step of the machine. -/
def step (s : State) : Host.Outcome State Fault Refusal :=
  let s' := { s with tick := s.tick + 1 }
  match s'.agenda with
  | t :: rest => takeTurn t ({ s' with agenda := rest }.fixedBy t)
  | [] => takeTurn s'.nextTurn (s'.fixedBy s'.nextTurn)

/-- The state with an instruction stored where the next step fetches: the device in S2, one hart, its page tables, and the
word at its program counter (log 2). -/
def State.withFetchWord (s : State) (nbits w : Nat) : State := s.loaded testHart (w % 2 ^ min nbits 32)

end Sys2Proof.Machine
end

