-- ==== Sys2Proof/Safety.lean ====
section
/-! DEFINITION. What counts as a safe state and a safe step, and the words that claims use for the states that instructions
leave. -/

namespace Sys2Proof.Machine

/-- The invariant of the machine's memories: both in canonical form. -/
def State.MemInv (s : State) : Prop := s.mem.wf ∧ s.ls.wf

/-- A step goes on: it stops with no fault and no refusal. -/
def State.Goes (s : State) : Prop := ∃ t, step s = .next t

/-- The state in which the issuing hart is h and its stream has moved past its instruction (R257). -/
def State.retired (s : State) (h : Hart) : State := s.putHart (h.advance s.curStream).stirred

/-- The state in which the issuing hart is h and its stream goes on at an address (R100). -/
def State.jumped (s : State) (h : Hart) (pc : Word64) : State := s.putHart (h.setPc s.curStream pc).stirred

/-- The state in which the issuing stream of hart h waits at issue: nothing else is changed (R235, R257). -/
def State.waits (s : State) (h : Hart) (w : Wait) : State := s.putHart (h.waiting s.curStream s.curWord w)

/-- The state after trap entry for a cause, with its `etval` and subcode (R259). -/
def State.trapped (s : State) (cause : BitVec 8) (etval : Word64) (sub : BitVec 5) : State := after (trapEntry cause etval sub) s

/-- The effective addresses of the memory forms: a register and a displacement, and two registers (R138). -/
def Hart.addrMd (h : Hart) (st : StreamId) (ra : SReg) (disp : BitVec 9) : Word64 := BitVec.ofInt 64 ((h.sreg st ra).toInt + disp.toInt)
/-- See `Hart.addrMd`. -/
def Hart.addrMx (h : Hart) (st : StreamId) (ra rb : SReg) : Word64 := BitVec.ofNat 64 ((h.sreg st ra).toNat + (h.sreg st rb).toNat)

/-- The interlock table lets hart h make an access to n bytes: no transfer of the hart in flight conflicts with it, no work of it that S1 holds, and
no indexed form of it that has stopped between its elements (R20, R173). -/
def State.free (s : State) (h : Hart) (va : Word64) (n : Nat) (write : Bool) : Prop :=
  let lo := va.toNat / 256
  let hi := (va.toNat + n - 1) / 256
  (∀ t ∈ h.transfers, t.conflicts lo hi write = false) ∧ s.heldOn s.curSlot lo hi write = false ∧ h.opened write = false

/-- Nothing comes before the accesses of the issuing stream of hart h from outside it: no store that another stream's order puts before them, and no
work of the stream that S1 holds (R13, R20, log 6). -/
def State.undisturbed (s : State) (h : Hart) : Prop :=
  (∀ p ∈ s.pending, ∀ sc, p.due = some sc → p.of h.slot s.curStream = true ∨ Scope.holds sc p.slot h.slot = false) ∧
  ∀ w ∈ s.held, w.of h.slot s.curStream = false

/-- What a release or a fence of the issuing stream of hart h waits for is not there: engine work of the stream, and work and stores of it that S1 or
a closed route holds (R20, R158, R361). -/
def State.unblocked (s : State) (h : Hart) : Prop :=
  (∀ t ∈ h.transfers, t.stream = s.curStream ∨ t.both = true → t.counted = false) ∧
  (∀ w ∈ s.held, w.of h.slot s.curStream = false) ∧
  (∀ p ∈ s.pending, s.stays p = false) ∧ s.arrivalHeld h s.curStream = false

/-- The state in which a resumable store of a stream of hart h begins: at its first element, what an earlier instruction at its address has
written of poisoned sectors does not count for it (R147, R382). -/
def State.storing (s : State) (h : Hart) (st : StreamId) : State :=
  if h.resume st = 0 then s.endCover s.curSlot st (h.pc st).toNat else s

/-- The state in which it has stored its elements. -/
def State.stored (s : State) (h : Hart) (st : StreamId) : State := s.endCover s.curSlot st (h.pc st).toNat

/-- A table entry in HBM4E that is read as a value, sound and under key slot 0 (R205, R255). -/
def State.entry (s : State) (a e : Nat) : Prop := a < hbmEnd ∧ s.poisoned a 16 = false ∧ hwRead a 16 s = .ok e s

/-- The table that a walk reaches after k of its steps through entries that point to a next table (R205, R206). -/
def State.tableAt (s : State) (root va : Nat) : Nat → Nat → Prop
  | 0, t => t = root
  | k + 1, t => ∃ u e, s.tableAt root va k u ∧ s.entry (u + va / 2 ^ (46 - 10 * k) % 2 ^ 10 * 16) e ∧ e % 4 = 1 ∧ e / 2 ^ 2 % 2 ^ 12 = 0 ∧
      e / 2 ^ 52 % 2 ^ 76 = 0 ∧ t = e / 2 ^ 14 % 2 ^ 38 * 2 ^ 14

/-- A doubleword of the local store that the issuing stream of hart h can read at an address (R138, R162). -/
def State.localWord (s : State) (h : Hart) (va v : Word64) : Prop :=
  ∃ base size core, (s.actor h s.curStream).window = some (core, base, size) ∧ inWindow va = true ∧ va.toNat - windowBase + 8 ≤ size ∧
    s.inSpill (s.actor h s.curStream) va 8 = false ∧ v = BitVec.ofNat 64 (s.ls.readLE (lsIndex core (base + (va.toNat - windowBase))) 8)

/-- An access of n bytes by the issuing stream of hart h falls in its kernel's allocation in the local-store window: the core, and the
offset in its local store (R138). -/
def State.localPlace (s : State) (h : Hart) (va : Word64) (n core off : Nat) : Prop :=
  ∃ base size, (s.actor h s.curStream).window = some (core, base, size) ∧ inWindow va = true ∧ va.toNat - windowBase + n ≤ size ∧
    off = base + (va.toNat - windowBase)

/-- The issue checks of a vector form pass in s: the execute stream issues it, vector state is live, the registers named fit, the
format is admitted and the sources `srcs` carry it; and swapping the registers in leaves the state s1 with the hart h (R36, R48, R53,
R63 to R65, R114). -/
def State.opensFor (s : State) (admits : Fmt → Bool) (r : Named) (srcs : List Nat) (s1 : State) (h : Hart) : Prop :=
  s.curStream = .x ∧ ∃ h0, s.hart = some h0 ∧ h0.live = true ∧ r.allV.length ≤ vectorSlots h0.vt ∧ r.allP.length ≤ predicateSlots h0.vt ∧
    admits h0.fmt = true ∧ (∀ v ∈ srcs, h0.tagOf v = some h0.fmt) ∧ swapIn r s = .ok () s1 ∧ s1.hart = some h ∧ s1.curStream = .x

/-- The same, where every vector source carries the format. -/
def State.opensPlain (s : State) (admits : Fmt → Bool) (r : Named) (s1 : State) (h : Hart) : Prop := s.opensFor admits r r.vs s1 h

/-- The same for a guarded form, whose guard is among the registers named (R63). -/
def State.opens (s : State) (admits : Fmt → Bool) (r : Named) (s1 : State) (h : Hart) : Prop :=
  ∃ h0, s.hart = some h0 ∧ s.opensPlain admits (r.guarded h0) s1 h

/-- The element numbers below `vl` that the guard lets a form write (R111). -/
def Hart.writes (h : Hart) (i : Nat) : Prop := i < h.vl.toNat ∧ h.activeAt i = true

/-- The elements that a resumable form of the execute stream has still to take (R111, R147). -/
def Hart.toTake (h : Hart) : List Nat := ((List.range h.vl.toNat).drop h.resumeX.toNat).filter h.activeAt

/-- An outcome in which hart h of s1 retires a form that writes vector register vd: element i takes the bits `val i` where
`written i`, every other element keeps its bits, the tag becomes the current format, and no other register changes; at `vl` = 0
nothing is written (R53, R111, R112, R115). -/
def WritesVector (out : Host.Outcome State Fault Refusal) (s1 : State) (h : Hart) (vd : Nat) (written : Nat → Prop) (val : Nat → Nat) : Prop :=
  if h.vl = 0 then out = .next (s1.retired h)
  else ∃ b, out = .next (s1.retired (h.setV vd b h.fmt)) ∧
    (∀ i, written i → elemOf (Fmt.ew h.fmt) b i = val i % 2 ^ Fmt.ew h.fmt) ∧
    ∀ i, ¬written i → elemOf (Fmt.ew h.fmt) b i = elemOf (Fmt.ew h.fmt) (h.vbitsOf vd) i

/-- The same for a predicate register (R111, R115, R136). -/
def WritesPredicate (out : Host.Outcome State Fault Refusal) (s1 : State) (h : Hart) (pd : Nat) (written : Nat → Prop) (val : Nat → Bool) : Prop :=
  if h.vl = 0 then out = .next (s1.retired h)
  else ∃ b, out = .next (s1.retired (h.setP pd b)) ∧
    (∀ i, written i → b.testBit i = val i) ∧ ∀ i, ¬written i → b.testBit i = (h.pbits pd).testBit i

/-- An integer narrowed to a format: its low bits, or clamped to the format's range where `md`.sat is set (R71). -/
def Hart.narrowed (h : Hart) (x : Int) : Nat :=
  let w := Fmt.ew h.fmt
  let lo : Int := if Fmt.isSigned h.fmt then -(2 ^ (w - 1) : Int) else 0
  let hi : Int := if Fmt.isSigned h.fmt then 2 ^ (w - 1) - 1 else 2 ^ w - 1
  ((if mdSat h.md then max lo (min hi x) else x) % 2 ^ w).toNat

/-- Bits as an integer of the current format (R70). -/
def Hart.asInt (h : Hart) (x : Nat) : Int :=
  if Fmt.isSigned h.fmt ∧ 2 ^ (Fmt.ew h.fmt - 1) ≤ x then (x : Int) - 2 ^ Fmt.ew h.fmt else x

/-- Element i of a vector register as bits, and as an integer of the current format (R61, R70). -/
def Hart.bitsAt (h : Hart) (v : VRegNo) (i : Nat) : Nat := elemOf (Fmt.ew h.fmt) (h.vbitsOf v.val) i
/-- See `Hart.bitsAt`. -/
def Hart.intAt (h : Hart) (v : VRegNo) (i : Nat) : Int := h.asInt (h.bitsAt v i)

/-- A generator's state after n steps (R80). -/
def stepped (x : BitVec 32) : Nat → BitVec 32
  | 0 => x
  | n + 1 => (stepGen (stepped x n)).1

/-- The active elements below n whose generator is G[j] (R80). -/
def Hart.uses (h : Hart) (j n : Nat) : Nat := (h.active.filter fun i => decide (i % 256 = j) && decide (i < n)).length

/-- The number that the generator of element i gives for its rounding, when each active element is rounded once; 0 outside the
stochastic mode (R80). -/
def Hart.rndAt (h : Hart) (i : Nat) : Nat :=
  if mdRm h.md = .sr then (stepGen (stepped (h.gen.getD (i % 256) 0) (h.uses (i % 256) i))).2 else 0

/-- A hart after a floating immediate has been formed, and the bits of the immediate: it is rounded once for the instruction, with one
step of G[0] in the stochastic mode (R122). -/
def Hart.afterImm (h : Hart) : Hart := if mdRm h.md = .sr then { h with gen := h.gen.set 0 (stepped h.gen[0] 1) } else h
/-- See `Hart.afterImm`. -/
def Hart.immBits (h : Hart) (imm : BitVec 8) : Nat :=
  ((h.fpCtx h.fmt).round (if mdRm h.md = .sr then (stepGen h.gen[0]).2 else 0) 0 (exactInt imm.toInt)).1

/-- An outcome in which hart h of s1 retires a floating form that rounds each active element once: as `WritesVector`, with
`val rnd i` the rounded bits of element i and whether it generated a NaN. The generators have stepped once per rounding of theirs,
and the lowest element that generated a NaN takes the first-NaN record unless it is held (R80, R87, R111). -/
def WritesRounded (out : Host.Outcome State Fault Refusal) (s1 : State) (h : Hart) (vd : Nat) (val : Nat → Nat → Nat × Bool) : Prop :=
  if h.vl = 0 then out = .next (s1.retired h)
  else ∃ (b : Nat) (gens : Vector (BitVec 32) 256),
    out = .next (s1.retired (match h.active.find? (fun i => (val (h.rndAt i) i).2) with
      | none => { h.setV vd b h.fmt with gen := gens }
      | some e => { h.setV vd b h.fmt with gen := gens }.takeNan h.xpc s1.tick e)) ∧
    (∀ i, h.writes i → elemOf (Fmt.ew h.fmt) b i = (val (h.rndAt i) i).1 % 2 ^ Fmt.ew h.fmt) ∧
    (∀ i, ¬h.writes i → elemOf (Fmt.ew h.fmt) b i = elemOf (Fmt.ew h.fmt) (h.vbitsOf vd) i) ∧
    ∀ j : Fin 256, gens[j] = if mdRm h.md = .sr then stepped h.gen[j] (h.uses j h.vl.toNat) else h.gen[j]

/-- The value of a magnitude of a floating format: its finite magnitudes, and past the largest of them the grid that goes on with the spacing of
an unbounded exponent (R72, R79, R82). -/
def magVal (f : Fmt) (m : Nat) : ℚ :=
  let w := Fmt.fracBits f
  (if m < 2 ^ w then (m : ℚ) else (2 ^ w + m % 2 ^ w : Nat) * 2 ^ (m / 2 ^ w - 1)) * (2 : ℚ) ^ (1 - (2 ^ (Fmt.expBits f - 1) - 1 : Int) - w)

/-- A magnitude that lies between the grid's k and k + 1 is rounded by the mode in force to one of them (R78, R82). -/
def roundMag (f : Fmt) (rm : Rm) (rnd : Nat) (neg : Bool) (v : ℚ) (k : Nat) : Nat :=
  let lo := magVal f k
  let hi := magVal f (k + 1)
  if v = lo then k
  else match rm with
    | .rne => if 2 * v < lo + hi then k else if lo + hi < 2 * v then k + 1 else if k % 2 = 0 then k else k + 1
    | .rtz => k
    | .rdn => if neg then k + 1 else k
    | .rup => if neg then k else k + 1
    | .sr => if (rnd : Int) < ((v - lo) / (hi - lo) * 2 ^ 24).floor then k + 1 else k

/-- The largest finite magnitude of a floating format, and the magnitude of its infinity (R72). -/
def largestMag : Fmt → Nat
  | .fp32 => 0x7F7FFFFF
  | .bf16 => 0x7F7F
  | .fp16 => 0x7BFF
  | .e4m3 => 0x7E
  | _ => 0x7B

/-- A rounded magnitude as the result: flushed, or, past the largest finite one, what the mode makes of an overflow (R73, R79, R84). -/
def rounded (c : FpCtx) (neg : Bool) (m : Nat) : Nat :=
  let f := c.fmt
  let top := largestMag f
  let sign := if neg then 2 ^ (Fmt.ew f - 1) else 0
  sign + (if m ≤ top then (if c.ftz = true ∧ m < 2 ^ Fmt.fracBits f then 0 else m)
    else if f = .e4m3 then top
    else match c.rm with
      | .rne | .sr => top + 1
      | .rtz => top
      | .rdn => if neg then top + 1 else top
      | .rup => if neg then top else top + 1)

/-- The value of a floating value that is finite (R72). -/
def Fp.rat : Fp → ℚ
  | .fin neg m e => (if neg then -1 else 1) * m * (2 : ℚ) ^ e
  | _ => 0

/-- An exact result has a value: a zero of the sign given, or a number of it (R73). -/
def Exact.has (x : Exact) (v : ℚ) (zero : Bool) : Prop :=
  if v = 0 then x = .zero zero else ∃ (m : Nat) (e : Int), m ≠ 0 ∧ x = .num (decide (v < 0)) m e false ∧ |v| = m * (2 : ℚ) ^ e

/-- An exact result is a number of a sign and of at least 60 bits, known to within one unit: a rising function of its lower end is at most v, and
equal to it where the number is exact, and of its upper end is greater (R73). -/
def Exact.near (x : Exact) (neg : Bool) (f : ℚ → ℚ) (v : ℚ) : Prop :=
  ∃ (m : Nat) (e : Int) (sticky : Bool), x = .num neg m e sticky ∧ 2 ^ 60 ≤ m ∧ f (m * (2 : ℚ) ^ e) ≤ v ∧ v < f ((m + 1) * (2 : ℚ) ^ e) ∧
    (sticky = false ↔ f (m * (2 : ℚ) ^ e) = v)

/-- How often a generator number j has stepped when the nodes of the levels below `lev` of a tree over 2^k leaves have taken their steps (R90). -/
def levelSteps (k lev j : Nat) : Nat := ((List.range (lev - 1)).map fun l => (2 ^ (k - 1 - l) + 255 - j) / 256).sum

/-- The number that node i of a level draws from its generator: 0 outside the stochastic mode (R80, R90). -/
def Hart.nodeRnd (h : Hart) (k lev i : Nat) : Nat :=
  if mdRm h.md = .sr then (stepGen (stepped (h.gen.getD (i % 256) 0) (levelSteps k lev (i % 256) + i / 256))).2 else 0

/-- Node i of a level of the balanced tree of sums, rounded to `fp32`, and whether it generated a NaN (R90). -/
def nodeSum (c : FpCtx) (rnd : Nat → Nat → Nat) (leaf : Nat → Nat) : Nat → Nat → Nat × Bool
  | 0, i => (leaf i, false)
  | lev + 1, i => c.round (rnd (lev + 1) i) 0 (fpAdd c.rm (Fp.of .fp32 (nodeSum c rnd leaf lev (2 * i)).1) (Fp.of .fp32 (nodeSum c rnd leaf lev (2 * i + 1)).1))

/-- The state with the array of the issuing core changed. -/
def State.withMat (s : State) (f : Matrix → Matrix) : State := s.modCore (coreOfSlot s.curSlot) fun c => { c with mat := f c.mat }

/-- Hart h after it has issued a transfer of an identity, which takes the hart's next tag, and has written the tag to sd (R238, R243). -/
def Hart.issued (h : Hart) (id : Nat) (rd : SReg) (kind : Nat) (ranges : List LineRange) (work : Work) : Hart :=
  let t : Transfer := { id := id, kind := kind, tag := h.tagCtr, stream := .a, user := decide (h.priv = .u), ranges := ranges, pages := []
                        work := work }
  let g : Hart := { h with tagCtr := if h.tagCtr + 1 = 0xFFFFFFFF then 0 else h.tagCtr + 1, transfers := h.transfers ++ [t] }
  g.setS .a rd (h.tagCtr.setWidth 64)

/-- The state in which hart h has issued a transfer, which takes the next identity, and has retired (R238, R243). -/
def State.started (s : State) (h : Hart) (rd : SReg) (kind : Nat) (ranges : List LineRange) (work : Work) : State :=
  State.retired { s with nextId := s.nextId + 1 } (h.issued s.nextId rd kind ranges work)

/-- The state in which an engine acts for a transfer of the hart that an event names. -/
def State.engineFor (s : State) (t : Transfer) : State := { s with curSlot := s.curEv.a, curStream := t.stream }

/-- Transfer t, of hart h, is the one that an event names, and may act: nothing that the hart issued before it conflicts with it (R20, R173). -/
def State.acts (s : State) (h : Hart) (t : Transfer) : Prop :=
  SMap.get? s.harts s.curEv.a = some h ∧ h.acked = false ∧ h.transfers.find? (fun x => x.id == s.curEv.b) = some t ∧ h.clearAhead s.curEv.b = true ∧
    s.heldAhead s.curEv.a t = false

/-- The state left by an engine's event, which began in s. -/
def State.engineDone (s u : State) : State := { u with curSlot := s.curSlot, curStream := s.curStream }

/-- The transfer that an event names goes on with other work. -/
def State.goesOn (s u : State) (w : Work) : State :=
  s.engineDone (match SMap.get? u.harts s.curEv.a with
    | none => u
    | some h =>
      let ts := h.transfers.map fun t => if t.id = s.curEv.b then { t with work := w } else t
      { u with harts := SMap.put u.harts s.curEv.a { h with transfers := ts } })

/-- The hart of the copy that an event names has its bank conflicts counted. -/
def State.bankCounted (s : State) (e : EvArgs) : State :=
  match SMap.get? s.harts e.a with
  | none => s
  | some h => { s with harts := SMap.put s.harts e.a (h.countAgc e.d) }

end Sys2Proof.Machine
end

