-- ==== Sys2Proof/Certificates/Slice0/Obligations.lean ====
section
/-! DEFINITION. The statements for the provers. Where a statement says "hart h issues", h is the hart at the slot being issued
(`s.hart = some h`), and the registers are those of its issuing stream. -/

open Sys2Proof Sys2Proof.Machine

/-- R96, R97: the register forms under op 0x30: each writes sd with the table's result, and retires. Division rounds toward zero, remainders take
the sign of the dividend, and the cases with no quotient have the table's results; no case traps. -/
def Obligations.ScalarArithmeticResults : Prop :=
  ∀ (s : State) (h : Hart) (rd ra rb : SReg), s.hart = some h →
    let a := h.sreg s.curStream ra
    let b := h.sreg s.curStream rb
    let out (v : Word64) := (Host.Outcome.next (s.retired (h.setS s.curStream rd v)) : Host.Outcome State Fault Refusal)
    exec (.add rd ra rb) s = out (BitVec.ofNat 64 (a.toNat + b.toNat)) ∧
    exec (.sub rd ra rb) s = out (BitVec.ofInt 64 (a.toInt - b.toInt)) ∧
    exec (.mul rd ra rb) s = out (BitVec.ofInt 64 (a.toInt * b.toInt)) ∧
    exec (.mulh rd ra rb) s = out ((BitVec.ofInt 128 (a.toInt * b.toInt)).extractLsb' 64 64) ∧
    exec (.and rd ra rb) s = out (a &&& b) ∧
    exec (.or rd ra rb) s = out (a ||| b) ∧
    exec (.xor rd ra rb) s = out (a ^^^ b) ∧
    exec (.sll rd ra rb) s = out (a <<< (b.toNat % 64)) ∧
    exec (.srl rd ra rb) s = out (a >>> (b.toNat % 64)) ∧
    exec (.sra rd ra rb) s = out (BitVec.ofInt 64 (a.toInt / 2 ^ (b.toNat % 64))) ∧
    exec (.slt rd ra rb) s = out (if a.toInt < b.toInt then 1 else 0) ∧
    exec (.sltn rd ra rb) s = out (if a.toNat < b.toNat then 1 else 0) ∧
    exec (.min rd ra rb) s = out (BitVec.ofInt 64 (min a.toInt b.toInt)) ∧
    exec (.max rd ra rb) s = out (BitVec.ofInt 64 (max a.toInt b.toInt)) ∧
    exec (.minN rd ra rb) s = out (BitVec.ofNat 64 (min a.toNat b.toNat)) ∧
    exec (.maxN rd ra rb) s = out (BitVec.ofNat 64 (max a.toNat b.toNat)) ∧
    exec (.clz rd ra) s = out (if a = 0 then 64 else BitVec.ofNat 64 (63 - Nat.log2 a.toNat)) ∧
    exec (.popc rd ra) s = out (BitVec.ofNat 64 ((List.range 64).countP fun i => a.getLsbD i)) ∧
    exec (.sel rd ra rb) s = out (if h.sreg s.curStream rd ≠ 0 then a else b) ∧
    (∀ n : Fin 4, exec (.lea rd ra rb n) s = out (BitVec.ofNat 64 (a.toNat + b.toNat * 2 ^ n.val))) ∧
    exec (.div rd ra rb) s = out (if b = 0 then 0xFFFFFFFFFFFFFFFF else if a = 0x8000000000000000 ∧ b = 0xFFFFFFFFFFFFFFFF then 0x8000000000000000
      else BitVec.ofInt 64 (a.toInt.tdiv b.toInt)) ∧
    exec (.rem rd ra rb) s = out (if b = 0 then a else if a = 0x8000000000000000 ∧ b = 0xFFFFFFFFFFFFFFFF then 0
      else BitVec.ofInt 64 (a.toInt - a.toInt.tdiv b.toInt * b.toInt)) ∧
    exec (.divn rd ra rb) s = out (if b = 0 then 0xFFFFFFFFFFFFFFFF else BitVec.ofNat 64 (a.toNat / b.toNat)) ∧
    exec (.remn rd ra rb) s = out (if b = 0 then a else BitVec.ofNat 64 (a.toNat % b.toNat))

/-- R95, R98, R99: the immediate forms: `lhi` places its 20 bits at bits 34:15, sign-extended; `ext` takes a field and zero-extends it; `ins`
replaces the field of the old sd, which it reads before it writes. -/
def Obligations.ImmediateAndBitFieldResults : Prop :=
  (∀ (s : State) (h : Hart) (rd ra : SReg) (imm : BitVec 15) (n : Fin 64), s.hart = some h →
     let a := h.sreg s.curStream ra
     let out (v : Word64) := (Host.Outcome.next (s.retired (h.setS s.curStream rd v)) : Host.Outcome State Fault Refusal)
     exec (.andi rd ra imm) s = out (a &&& BitVec.ofNat 64 imm.toNat) ∧
     exec (.ori rd ra imm) s = out (a ||| BitVec.ofNat 64 imm.toNat) ∧
     exec (.xori rd ra imm) s = out (a ^^^ BitVec.ofNat 64 imm.toNat) ∧
     exec (.slti rd ra imm) s = out (if a.toInt < imm.toInt then 1 else 0) ∧
     exec (.addi rd ra imm) s = out (BitVec.ofInt 64 (a.toInt + imm.toInt)) ∧
     exec (.slli rd ra n) s = out (BitVec.ofNat 64 (a.toNat * 2 ^ n.val)) ∧
     exec (.srli rd ra n) s = out (BitVec.ofNat 64 (a.toNat / 2 ^ n.val)) ∧
     exec (.srai rd ra n) s = out (BitVec.ofInt 64 (a.toInt / 2 ^ n.val)) ∧
     ∀ imm20 : BitVec 20, exec (.lhi rd imm20) s = out (BitVec.ofInt 64 (imm20.toInt * 2 ^ 15))) ∧
  (∀ (s : State) (h : Hart) (rd ra : SReg) (pos wm1 : Fin 64), s.hart = some h → pos.val + wm1.val < 64 →
     let a := h.sreg s.curStream ra
     let old := h.sreg s.curStream rd
     (∃ v : Word64, exec (.ext rd ra pos wm1) s = .next (s.retired (h.setS s.curStream rd v)) ∧
       ∀ i, i < 64 → v.getLsbD i = (decide (i ≤ wm1.val) && a.getLsbD (pos.val + i))) ∧
     (∃ v : Word64, exec (.ins rd ra pos wm1) s = .next (s.retired (h.setS s.curStream rd v)) ∧
       ∀ i, i < 64 → v.getLsbD i = if pos.val ≤ i ∧ i ≤ pos.val + wm1.val then a.getLsbD (i - pos.val) else old.getLsbD i))

/-- R101: `jal` links and jumps; `jalr` reads its register before it writes the link, and traps with misaligned (0x08), changing
nothing else, when its target's low bits are not zero. -/
def Obligations.JumpsLinkAndGo : Prop :=
  ∀ (s : State) (h : Hart) (rd ra : SReg), s.hart = some h →
    let pc := h.pc s.curStream
    (∀ off : BitVec 20, exec (.jal rd off) s =
      .next (s.jumped (h.setS s.curStream rd (pc + 4)) (BitVec.ofInt 64 (pc.toInt + off.toInt * 4)))) ∧
    ∀ imm : BitVec 15,
      let t := BitVec.ofInt 64 ((h.sreg s.curStream ra).toInt + imm.toInt)
      exec (.jalr rd ra imm) s = if t.toNat % 4 = 0 then .next (s.jumped (h.setS s.curStream rd (pc + 4)) t) else .next (s.trapped 0x08 t 0)

/-- R100, R102: a branch goes to its target when its comparison holds, and past itself when not; it writes no register. `smb` subtracts, writes
the difference, and branches while it is above zero as a signed number. -/
def Obligations.BranchesFollowTheirComparison : Prop :=
  (∀ (s : State) (h : Hart) (ra rb : SReg) (off : BitVec 15), s.hart = some h →
     let a := h.sreg s.curStream ra
     let b := h.sreg s.curStream rb
     let pc := h.pc s.curStream
     let out (taken : Prop) [Decidable taken] : Host.Outcome State Fault Refusal :=
       .next (s.jumped h (if taken then BitVec.ofInt 64 (pc.toInt + off.toInt * 4) else pc + 4))
     exec (.beq ra rb off) s = out (a = b) ∧
     exec (.bne ra rb off) s = out (a ≠ b) ∧
     exec (.blt ra rb off) s = out (a.toInt < b.toInt) ∧
     exec (.bge ra rb off) s = out (b.toInt ≤ a.toInt) ∧
     exec (.bltn ra rb off) s = out (a.toNat < b.toNat) ∧
     exec (.bgen ra rb off) s = out (b.toNat ≤ a.toNat)) ∧
  (∀ (s : State) (h : Hart) (ra rb : SReg) (off : BitVec 15), s.hart = some h →
     let x := BitVec.ofInt 64 ((h.sreg s.curStream ra).toInt - (h.sreg s.curStream rb).toInt)
     let pc := h.pc s.curStream
     exec (.smb ra rb off) s = .next (s.jumped (h.setS s.curStream ra x)
       (if 0 < x.toInt then BitVec.ofInt 64 (pc.toInt + off.toInt * 4) else pc + 4)))

/-- R104, R105, R106: an idle access stream starts at the target of `astart`; a token goes to the end of `q6`, and the oldest
token gives `ctake` its value and target. A full `q6` makes `ctok` wait, or trap behind an idle access stream; an empty one makes
`ctake` wait. -/
def Obligations.StreamCoupling : Prop :=
  ∀ (s : State) (h : Hart) (r : SReg) (off : BitVec 20), s.hart = some h →
    let target := BitVec.ofInt 64 (h.xpc.toInt + off.toInt * 4)
    (s.curStream = .x → exec (.astart off) s = .next (s.retired (if h.arun then h else { h.setPc .a target with arun := true }))) ∧
    (s.curStream = .x → h.q6.length < 4 → exec (.ctok r off) s =
      .next (s.retired { h with q6 := h.q6 ++ [{ target := target, value := h.sreg .x r }] })) ∧
    (s.curStream = .x → 4 ≤ h.q6.length → h.arun = true → exec (.ctok r off) s = .next (s.waits h .queue)) ∧
    (s.curStream = .x → 4 ≤ h.q6.length → h.arun = false → exec (.ctok r off) s = .next (s.trapped 0x0E (s.curWord.setWidth 64) 0)) ∧
    (s.curStream = .a → h.q6 = [] → exec (.ctake r) s = .next (s.waits h .queue)) ∧
    (s.curStream = .a → ∀ t rest, h.q6 = t :: rest →
      exec (.ctake r) s = .next (s.jumped ({ h with q6 := rest }.setS .a r t.value) t.target))

/-- R231, R232, R233: a push to q4, q5 or q7 adds an entry at its queue's tail while a place is free, and waits while none is; a pop or a peek of
a ready head gives its value, and waits where the head is not ready; `qlen` counts the places that are not free. A pop of q0 to q3 writes
the entry's elements to elements 0 up of the register, sets `vl` to their number and the tag to `vt`.fmt, and frees the place; a peek does
the same and frees nothing. -/
def Obligations.QueueForms : Prop :=
  (∀ (s : State) (h : Hart) (q : QNo) (r : Fin 64) (rd : SReg), s.hart = some h →
     let st := s.curStream
     exec (.qlen rd q) s = .next (s.retired (h.setS st rd (BitVec.ofNat 64 (h.queueLen q)))) ∧
     (4 ≤ q.val → q.val ≠ 6 → r.val < 32 →
       (st = (if q.val = 7 then .x else .a) →
         exec (.qpush q r) s = if (h.squeue q).length < 16
           then .next (s.retired (h.setSqueue q (h.squeue q ++ [.ready (h.sreg st (scalarOf r))])))
           else .next (s.waits h .queue)) ∧
       (st = (if q.val = 7 then .a else .x) →
         (∀ v rest, h.squeue q = .ready v :: rest →
           exec (.qpop r q) s = .next (s.retired ((h.setSqueue q rest).setS st (scalarOf r) v)) ∧
           exec (.qpeek r q) s = .next (s.retired (h.setS st (scalarOf r) v))) ∧
         ((∀ v rest, h.squeue q ≠ .ready v :: rest) →
           exec (.qpop r q) s = .next (s.waits h .queue) ∧ exec (.qpeek r q) s = .next (s.waits h .queue))))) ∧
  (∀ (s s1 : State) (h : Hart) (q : QNo) (vd : Fin 64) (e : VEntry) (rest : List VPlace), q.val < 4 →
     s.opensPlain anyFmt { vw := [vd.val] } s1 h →
     h.vq.getD q.val [] = .ready e :: rest → e.elems.length ≤ h.vlmax → 8 * e.esize = Fmt.ew h.fmt →
     ∃ b : Nat,
       (∀ i, i < e.elems.length → elemOf (Fmt.ew h.fmt) b i = (e.elems.getD i 0).toNat % 2 ^ Fmt.ew h.fmt) ∧
       (∀ i, e.elems.length ≤ i → elemOf (Fmt.ew h.fmt) b i = elemOf (Fmt.ew h.fmt) (h.vbitsOf vd) i) ∧
       exec (.qpop vd q) s = .next (s1.retired { h.setV vd b h.fmt with vl := BitVec.ofNat 17 e.elems.length, vq := vput h.vq q.val rest }) ∧
       exec (.qpeek vd q) s = .next (s1.retired { h.setV vd b h.fmt with vl := BitVec.ofNat 17 e.elems.length }))

/-- R71, R120, R121, R122: the numeric forms on integer formats: each active element is the exact result narrowed to the format, a
zero divisor gives all ones, and an immediate is first narrowed to the format. -/
def Obligations.IntegerVectorArithmetic : Prop :=
  ∀ (s s1 : State) (h : Hart) (vd va vb : VRegNo) (imm : BitVec 8), Fmt.isInt h.fmt = true →
    let a := h.intAt va
    let b := h.intAt vb
    let c := h.intAt vd
    let x := h.asInt (h.narrowed imm.toInt)
    let w (i : Instr) (f : Nat → Nat) := WritesVector (exec i s) s1 h vd h.writes f
    (s.opens numFmt { vs := [va.val, vb.val], vw := [vd.val] } s1 h →
      w (.vadd vd va vb) (fun i => h.narrowed (a i + b i)) ∧
      w (.vsub vd va vb) (fun i => h.narrowed (a i - b i)) ∧
      w (.vmul vd va vb) (fun i => h.narrowed (a i * b i)) ∧
      w (.vdiv vd va vb) (fun i => if b i = 0 then 2 ^ Fmt.ew h.fmt - 1 else h.narrowed ((a i).tdiv (b i))) ∧
      w (.vmax vd va vb) (fun i => h.narrowed (max (a i) (b i))) ∧
      w (.vmin vd va vb) (fun i => h.narrowed (min (a i) (b i)))) ∧
    (s.opens numFmt { vs := [va.val, vb.val, vd.val], vw := [vd.val] } s1 h →
      w (.vmadd vd va vb) (fun i => h.narrowed (a i * b i + c i)) ∧
      w (.vnmadd vd va vb) (fun i => h.narrowed (c i - a i * b i))) ∧
    (s.opens numFmt { vs := [va.val], vw := [vd.val] } s1 h →
      w (.vabs vd va) (fun i => h.narrowed |a i|) ∧
      w (.vneg vd va) (fun i => h.narrowed (-a i)) ∧
      w (.vaddImm vd va imm) (fun i => h.narrowed (a i + x)) ∧
      w (.vsubImm vd va imm) (fun i => h.narrowed (a i - x)) ∧
      w (.vmulImm vd va imm) (fun i => h.narrowed (a i * x)) ∧
      w (.vmaxImm vd va imm) (fun i => h.narrowed (max (a i) x)) ∧
      w (.vminImm vd va imm) (fun i => h.narrowed (min (a i) x)))

/-- R73, R80, R82, R84, R87, R120, R122: the numeric forms on floating formats: the exact result of the flushed inputs, rounded once per active
element; `vmax` and `vmin` propagate a NaN or choose exactly, and `vabs` and `vneg` change the sign bit alone. The model's choices: `vexp2` and
`vlog2`, where no exact case holds, have a bounded precision before their rounding (log 15), and `vmax` and `vmin`, which round nothing, take no
generator step (log 21). -/
def Obligations.FloatingVectorArithmetic : Prop :=
  ∀ (s s1 : State) (h : Hart) (vd va vb : VRegNo), Fmt.isFloat h.fmt = true →
    let f := h.fmt
    let a (i : Nat) := h.input f (h.bitsAt va i)
    let b (i : Nat) := h.input f (h.bitsAt vb i)
    let c (i : Nat) := h.input f (h.bitsAt vd i)
    let r (i : Instr) (x : Nat → Exact) := WritesRounded (exec i s) s1 h vd fun rnd i => (h.fpCtx f).round rnd i (x i)
    let w (i : Instr) (x : Nat → Nat) := WritesVector (exec i s) s1 h vd h.writes x
    let pick (less : Bool) (i : Nat) :=
      let x := h.bitsAt va i
      let y := h.bitsAt vb i
      if isNan f x = true then quieted f x else if isNan f y = true then quieted f y
      else flush f (vtFtz h.vt) (if (if less then fpBelow (b i) (a i) else fpBelow (a i) (b i)) = true then y else x)
    (s.opens numFmt { vs := [va.val, vb.val], vw := [vd.val] } s1 h →
      r (.vadd vd va vb) (fun i => fpAdd (mdRm h.md) (a i) (b i)) ∧
      r (.vsub vd va vb) (fun i => fpSub (mdRm h.md) (a i) (b i)) ∧
      r (.vmul vd va vb) (fun i => fpMul (a i) (b i)) ∧
      r (.vdiv vd va vb) (fun i => fpDiv (a i) (b i)) ∧
      w (.vmax vd va vb) (pick false) ∧ w (.vmin vd va vb) (pick true)) ∧
    (s.opens numFmt { vs := [va.val, vb.val, vd.val], vw := [vd.val] } s1 h →
      r (.vmadd vd va vb) (fun i => fpFma (mdRm h.md) false (a i) (b i) (c i)) ∧
      r (.vnmadd vd va vb) (fun i => fpFma (mdRm h.md) true (a i) (b i) (c i))) ∧
    (s.opens Fmt.isFloat { vs := [va.val], vw := [vd.val] } s1 h →
      r (.vsqrt vd va) (fun i => fpSqrt (a i)) ∧ r (.vrsqrt vd va) (fun i => fpRsqrt (a i)) ∧
      r (.vexp2 vd va) (fun i => fpExp2 (a i)) ∧ r (.vlog2 vd va) (fun i => fpLog2 (a i))) ∧
    (s.opens numFmt { vs := [va.val], vw := [vd.val] } s1 h →
      w (.vabs vd va) (fun i => h.bitsAt va i % Fmt.signBit f) ∧
      w (.vneg vd va) (fun i => h.bitsAt va i ^^^ Fmt.signBit f))

/-- R122: in a floating format the immediate of a numeric form is rounded once for the whole instruction, with one step of G[0] before element 0 under
SR; the elements are then computed as for a register operand. That the elements of `vmax` and `vmin` then take no generator step is log 21, the
model's choice. -/
def Obligations.FloatingImmediateForms : Prop :=
  ∀ (s s1 : State) (h : Hart) (vd va : VRegNo) (imm : BitVec 8), Fmt.isFloat h.fmt = true →
    s.opens numFmt { vs := [va.val], vw := [vd.val] } s1 h →
    let f := h.fmt
    let g := if h.vl = 0 then h else h.afterImm
    let a (i : Nat) := h.input f (h.bitsAt va i)
    let y := h.input f (h.immBits imm)
    let r (i : Instr) (e : Nat → Exact) := WritesRounded (exec i s) s1 g vd fun rnd i => (h.fpCtx f).round rnd i (e i)
    r (.vaddImm vd va imm) (fun i => fpAdd (mdRm h.md) (a i) y) ∧
    r (.vsubImm vd va imm) (fun i => fpSub (mdRm h.md) (a i) y) ∧
    r (.vmulImm vd va imm) (fun i => fpMul (a i) y) ∧
    WritesVector (exec (.vmaxImm vd va imm) s) s1 g vd h.writes (fun i => pickOp h true (h.bitsAt va i) (h.immBits imm)) ∧
    WritesVector (exec (.vminImm vd va imm) s) s1 g vd h.writes (fun i => pickOp h false (h.bitsAt va i) (h.immBits imm))

/-- R123: logic on bit patterns, and the shifts, whose counts at and above the element width give zeros, or copies of the sign
bit. -/
def Obligations.VectorLogicAndShifts : Prop :=
  ∀ (s s1 : State) (h : Hart) (vd va vb : VRegNo) (imm : BitVec 8),
    let n := Fmt.ew h.fmt
    let a := h.bitsAt va
    let b := h.bitsAt vb
    let x := (imm.toInt % 2 ^ n).toNat
    let signed (y : Nat) : Int := if 2 ^ (n - 1) ≤ y then (y : Int) - 2 ^ n else y
    let shl (y k : Nat) := if n ≤ k then 0 else y * 2 ^ k % 2 ^ n
    let shr (y k : Nat) := if n ≤ k then 0 else y / 2 ^ k
    let sra (y k : Nat) := ((signed y / 2 ^ min n k) % 2 ^ n).toNat
    let w (i : Instr) (f : Nat → Nat) := WritesVector (exec i s) s1 h vd h.writes f
    (s.opens anyFmt { vs := [va.val, vb.val], vw := [vd.val] } s1 h →
      w (.vand vd va vb) (fun i => a i &&& b i) ∧ w (.vor vd va vb) (fun i => a i ||| b i) ∧
      w (.vxor vd va vb) (fun i => a i ^^^ b i)) ∧
    (s.opens anyFmt { vs := [va.val], vw := [vd.val] } s1 h →
      w (.vnot vd va) (fun i => 2 ^ n - 1 - a i) ∧ w (.vandImm vd va imm) (fun i => a i &&& x) ∧
      w (.vorImm vd va imm) (fun i => a i ||| x) ∧ w (.vxorImm vd va imm) (fun i => a i ^^^ x)) ∧
    (s.opens Fmt.isInt { vs := [va.val, vb.val], vw := [vd.val] } s1 h →
      w (.vshl vd va vb) (fun i => shl (a i) (b i)) ∧ w (.vshr vd va vb) (fun i => shr (a i) (b i)) ∧
      w (.vsra vd va vb) (fun i => sra (a i) (b i))) ∧
    (s.opens Fmt.isInt { vs := [va.val], vw := [vd.val] } s1 h →
      w (.vshlImm vd va imm) (fun i => shl (a i) imm.toNat) ∧ w (.vshrImm vd va imm) (fun i => shr (a i) imm.toNat) ∧
      w (.vsraImm vd va imm) (fun i => sra (a i) imm.toNat))

/-- R124, R125, R135: a comparison sets the predicate's bit of each active element, unordered where an operand is a NaN; `vsel` takes
each body element from va under the guard and from vb elsewhere; `vconf` marks the active elements whose bits an earlier active element
has. -/
def Obligations.VectorComparisons : Prop :=
  ∀ (s s1 : State) (h : Hart) (vd va vb : VRegNo) (pd : PRegNo) (imm : BitVec 8),
    let cmp (cc : Cc) (x y : Int) : Bool := match cc with
      | .eq => x = y
      | .ne => x ≠ y
      | .lt => x < y
      | .le => x ≤ y
      | .gt => y < x
      | .ge => y ≤ x
      | .uo => false
    let fcmp (cc : Cc) (x y : Nat) : Bool :=
      let u := isNan h.fmt x || isNan h.fmt y
      let a := h.input h.fmt x
      let b := h.input h.fmt y
      match cc with
      | .eq => !u && fpEqual a b
      | .ne => u || !fpEqual a b
      | .lt => !u && fpLess a b
      | .le => !u && (fpLess a b || fpEqual a b)
      | .gt => !u && fpLess b a
      | .ge => !u && (fpLess b a || fpEqual a b)
      | .uo => u
    (s.opens numFmt { vs := [va.val, vb.val], pw := [pd.val] } s1 h → ∀ cc,
      WritesPredicate (exec (.vcmp cc pd va vb) s) s1 h pd h.writes
        (fun i => if Fmt.isInt h.fmt then cmp cc (h.intAt va i) (h.intAt vb i) else fcmp cc (h.bitsAt va i) (h.bitsAt vb i))) ∧
    (s.opens numFmt { vs := [va.val], pw := [pd.val] } s1 h → Fmt.isInt h.fmt = true → ∀ cc,
      WritesPredicate (exec (.vcmpImm cc pd va imm) s) s1 h pd h.writes
        (fun i => cmp cc (h.intAt va i) (h.asInt (h.narrowed imm.toInt)))) ∧
    (s.opens numFmt { vs := [va.val], pw := [pd.val] } s1 h → Fmt.isFloat h.fmt = true → ∀ cc,
      WritesPredicate (exec (.vcmpImm cc pd va imm) s) s1 (if h.vl = 0 then h else h.afterImm) pd h.writes
        (fun i => fcmp cc (h.bitsAt va i) (h.immBits imm))) ∧
    (s.opens anyFmt { vs := [va.val, vb.val], vw := [vd.val] } s1 h →
      WritesVector (exec (.vsel vd va vb) s) s1 h vd (· < h.vl.toNat) (fun i => if h.activeAt i then h.bitsAt va i else h.bitsAt vb i)) ∧
    (s.opens Fmt.isInt { vs := [va.val], pw := [pd.val] } s1 h →
      WritesPredicate (exec (.vconf pd va) s) s1 h pd (· < h.vl.toNat)
        (fun i => h.activeAt i && decide (∃ j, j < i ∧ h.activeAt j = true ∧ h.bitsAt va j = h.bitsAt va i)))

/-- R126, R127, R128: moves, splats, element numbers, single elements and tags. -/
def Obligations.VectorMoves : Prop :=
  ∀ (s s1 : State) (h : Hart) (vd va : VRegNo) (ra rb rd : SReg) (imm : BitVec 8) (fmt : Fmt),
    let f := h.fmt
    let w (i : Instr) (x : Nat → Nat) := WritesVector (exec i s) s1 h vd h.writes x
    ((∃ h0, s.hart = some h0 ∧ s.opensFor anyFmt (({ vs := [va.val], vw := [vd.val] } : Named).guarded h0) [] s1 h) →
      if h.vl = 0 then exec (.vmv vd va) s = .next (s1.retired h)
      else ∃ b, exec (.vmv vd va) s = .next (s1.retired { h with v := vput h.v vd.val { bits := b, tag := h.tagOf va } }) ∧
        ∀ i, elemOf (Fmt.ew f) b i = if h.vl.toNat ≤ i ∨ h.activeAt i = false then h.bitsAt vd i else h.bitsAt va i) ∧
    (s.opens anyFmt { vw := [vd.val] } s1 h → w (.vsplat vd ra) (fun _ => (h.sreg .x ra).toNat)) ∧
    (s.opens anyFmt { vw := [vd.val] } s1 h → Fmt.isInt f = true → w (.vsplatImm vd imm) (fun _ => h.narrowed imm.toInt)) ∧
    (s.opens anyFmt { vw := [vd.val] } s1 h → f = .b4 → w (.vsplatImm vd imm) (fun _ => imm.toNat % 16)) ∧
    (s.opens anyFmt { vw := [vd.val] } s1 h → Fmt.isFloat f = true →
      WritesRounded (exec (.vsplatImm vd imm) s) s1 h vd fun rnd i => (h.fpCtx f).round rnd i (exactInt imm.toInt)) ∧
    (s.opens numFmt { vw := [vd.val] } s1 h → Fmt.isInt f = true → w (.vid vd) (fun i => h.narrowed i)) ∧
    (s.opens numFmt { vw := [vd.val] } s1 h → Fmt.isFloat f = true →
      WritesRounded (exec (.vid vd) s) s1 h vd fun rnd i => (h.fpCtx f).round rnd i (exactInt i)) ∧
    (s.opensPlain anyFmt { vs := [va.val] } s1 h →
      let j := (h.sreg .x rb).toNat
      exec (.vext rd va rb) s = .next (s1.retired (h.setS .x rd
        (if h.vlmax ≤ j then 0 else if Fmt.isSigned f then BitVec.ofInt 64 (h.intAt va j) else BitVec.ofNat 64 (h.bitsAt va j))))) ∧
    (s.opensPlain anyFmt { vs := [vd.val], vw := [vd.val] } s1 h →
      let j := (h.sreg .x rb).toNat
      (h.vlmax ≤ j → exec (.vins vd ra rb) s = .next (s1.retired h)) ∧
      (j < h.vlmax → ∃ b, exec (.vins vd ra rb) s = .next (s1.retired (h.setV vd b f)) ∧
        ∀ i, elemOf (Fmt.ew f) b i = if i = j then (h.sreg .x ra).toNat % 2 ^ Fmt.ew f else h.bitsAt vd i)) ∧
    (s.opensPlain anyFmt { vw := [vd.val] } s1 h → exec (.vtag vd fmt) s = .next (s1.retired (h.setV vd (h.vbitsOf vd) fmt)))

/-- R132, R133, R134: slides, permutes, compress and expand. -/
def Obligations.SlidesAndPermutes : Prop :=
  ∀ (s s1 : State) (h : Hart) (vd va vb : VRegNo) (rb : SReg) (imm : BitVec 8) (pb : PRegNo),
    let w (i : Instr) (p : Nat → Prop) (x : Nat → Nat) := WritesVector (exec i s) s1 h vd p x
    let up (i : Instr) (n : Nat) := w i (fun j => h.writes j ∧ n ≤ j) (fun j => h.bitsAt va (j - n))
    let down (i : Instr) (n : Nat) := w i h.writes (fun j => if j + n < h.vlmax then h.bitsAt va (j + n) else 0)
    let chosen := (List.range h.vl.toNat).filter fun i => h.activeAt i && (h.pbits pb).testBit i
    (s.opens anyFmt { vs := [va.val], vw := [vd.val] } s1 h →
      up (.vslideup vd va rb) (h.sreg .x rb).toNat ∧ up (.vslideupImm vd va imm) imm.toNat ∧
      down (.vslidedn vd va rb) (h.sreg .x rb).toNat ∧ down (.vslidednImm vd va imm) imm.toNat) ∧
    ((∃ h0 t, s.hart = some h0 ∧ h0.tagOf vb = some t ∧ Fmt.isInt t = true ∧ Fmt.ew t = Fmt.ew h0.fmt ∧
        s.opensFor numFmt (({ vs := [va.val, vb.val], vw := [vd.val] } : Named).guarded h0) [va.val] s1 h) →
      w (.vperm vd va vb) h.writes (fun i => if h.bitsAt vb i < h.vlmax then h.bitsAt va (h.bitsAt vb i) else 0)) ∧
    (s.opens anyFmt { vs := [va.val], vw := [vd.val], ps := [pb.val] } s1 h →
      w (.vcompress vd va pb) (· < chosen.length) (fun k => h.bitsAt va (chosen.getD k 0)) ∧
      w (.vexpand vd va pb) (· ∈ chosen) (fun i => h.bitsAt va (chosen.filter (· < i)).length))

/-- R71, R91, R131: reductions of integer formats: the exact sum narrowed once, and the extreme elements, of which `vargmax` gives the
lowest number. Without an active element only the tag is set, and `vargmax` gives all ones. -/
def Obligations.IntegerReductions : Prop :=
  ∀ (s s1 : State) (h : Hart) (vd va : VRegNo) (rd : SReg), Fmt.isInt h.fmt = true →
    let a := h.intAt va
    let w (i : Instr) (p : Nat → Prop) (x : Nat) := WritesVector (exec i s) s1 h vd p (fun _ => x)
    (s.opens numFmt { vs := [va.val], vw := [vd.val] } s1 h →
      w (.vredsum vd va) (· = 0) (h.narrowed (h.active.map a).sum) ∧
      (h.active = [] → w (.vredmax vd va) (fun _ => False) 0 ∧ w (.vredmin vd va) (fun _ => False) 0) ∧
      (∀ m, h.writes m → (∀ i, h.writes i → a i ≤ a m) → w (.vredmax vd va) (· = 0) (h.bitsAt va m)) ∧
      ∀ m, h.writes m → (∀ i, h.writes i → a m ≤ a i) → w (.vredmin vd va) (· = 0) (h.bitsAt va m)) ∧
    (s.opens numFmt { vs := [va.val] } s1 h →
      (h.active = [] → exec (.vargmax rd va) s = .next (s1.retired (h.setS .x rd 0xFFFFFFFFFFFFFFFF))) ∧
      ∀ m, h.writes m → (∀ i, h.writes i → a i ≤ a m) → (∀ i, h.writes i → a i = a m → m ≤ i) →
        exec (.vargmax rd va) s = .next (s1.retired (h.setS .x rd (BitVec.ofNat 64 m))))

/-- R72, R73, R78, R79, R82 to R86, R120: floating results are exact and rounded once. The exact results: a sum, a product, and a product with a
sum, have their exact values, with the sign of an exact zero; a quotient and a root are held to within one unit of at least 60 bits; what infinities
and zeros give, which operations are invalid, and which NaN goes on. Of 2^x and log2 the exact cases are stated; the others are log 15. The one
rounding: a magnitude between two of the format's grid goes to the one that the mode names, and past the largest finite value to what the
mode makes of an overflow; a result known to within one unit of many bits rounds as every value in the unit does; zeros, infinities and
NaNs have their own patterns, and a pattern has the format's value. -/
def Obligations.FloatingResultsAreExactAndRoundedOnce : Prop :=
  (∀ (c : FpCtx) (rnd ln : Nat), Fmt.isFloat c.fmt = true →
    let f := c.fmt
    let w := Fmt.fracBits f
    let top := largestMag f
    let sign (neg : Bool) := if neg = true then 2 ^ (Fmt.ew f - 1) else 0
    (∀ (neg : Bool) (m : Nat) e v k, m ≠ 0 → v = m * (2 : ℚ) ^ (e : Int) → magVal f k ≤ v → v < magVal f (k + 1) →
      c.round rnd ln (.num neg m e false) = (rounded c neg (roundMag f c.rm rnd neg v k), false)) ∧
    (∀ (neg : Bool) (m : Nat) e v k, 2 ^ (w + 28) ≤ m → m * (2 : ℚ) ^ (e : Int) < v → v < (m + 1) * (2 : ℚ) ^ e → magVal f k ≤ v → v < magVal f (k + 1) →
      c.round rnd ln (.num neg m e true) = (rounded c neg (roundMag f c.rm rnd neg v k), false)) ∧
    (∀ neg, c.round rnd ln (.zero neg) = (sign neg, false) ∧
      c.round rnd ln (.inf neg) = (sign neg + (if f = .e4m3 then 0x7F else top + 1), false) ∧
      ∀ frac, frac < 2 ^ 23 → c.round rnd ln (.nan neg frac) =
        (sign neg + (if f = .e4m3 then 0x7F else top + 1 + (frac / 2 ^ (23 - w) ||| 2 ^ (w - 1))), false)) ∧
    (c.round rnd ln .invalid = (match f with
      | .fp32 => 0x7FC00000 + c.pc.toNat / 2 ^ 2 % 2 ^ 14 * 2 ^ 8 + ln % 256
      | .bf16 => 0x7FC0 + c.pc.toNat / 2 ^ 10 % 2 ^ 6
      | .fp16 => 0x7E00 + c.pc.toNat / 2 ^ 7 % 2 ^ 9
      | .e4m3 => 0x7F
      | _ => 0x7E + c.pc.toNat / 2 ^ 15 % 2, true)) ∧
    (∀ neg m, m ≤ top → ∃ k e, Fp.of f (sign neg + m) = .fin neg k e ∧ (k : ℚ) * (2 : ℚ) ^ e = magVal f m) ∧
    (∀ neg, f ≠ .e4m3 → Fp.of f (sign neg + (top + 1)) = .inf neg) ∧
    (∀ neg m, top < m → m < 2 ^ (Fmt.ew f - 1) → f = .e4m3 ∨ m ≠ top + 1 → Fp.of f (sign neg + m) = .nan neg (m % 2 ^ w * 2 ^ (23 - w)))) ∧
  (∀ (rm : Rm) (a b c : Fp) (n1 n2 n3 : Bool) (m1 m2 m3 : Nat) (e1 e2 e3 : Int), a = .fin n1 m1 e1 → b = .fin n2 m2 e2 → c = .fin n3 m3 e3 →
     let zero (x y : Bool) (zeros : Prop) [Decidable zeros] : Bool := if zeros ∧ x = y then x else decide (rm = .rdn)
     (fpAdd rm a b).has (Fp.rat a + Fp.rat b) (zero n1 n2 (m1 = 0 ∧ m2 = 0)) ∧
     (fpSub rm a b).has (Fp.rat a - Fp.rat b) (zero n1 (!n2) (m1 = 0 ∧ m2 = 0)) ∧
     (fpMul a b).has (Fp.rat a * Fp.rat b) (xor n1 n2) ∧
     (fpFma rm false a b c).has (Fp.rat a * Fp.rat b + Fp.rat c) (zero (xor n1 n2) n3 (m1 * m2 = 0 ∧ m3 = 0)) ∧
     (fpFma rm true a b c).has (Fp.rat c - Fp.rat a * Fp.rat b) (zero (!xor n1 n2) n3 (m1 * m2 = 0 ∧ m3 = 0)) ∧
     (m1 ≠ 0 → m2 ≠ 0 → (fpDiv a b).near (xor n1 n2) id |Fp.rat a / Fp.rat b|) ∧
     (m1 ≠ 0 → m2 = 0 → fpDiv a b = .inf (xor n1 n2)) ∧ (m1 = 0 → m2 ≠ 0 → fpDiv a b = .zero (xor n1 n2)) ∧ (m1 = 0 → m2 = 0 → fpDiv a b = .invalid) ∧
     (m1 ≠ 0 → n1 = true → fpSqrt a = .invalid ∧ fpRsqrt a = .invalid ∧ fpLog2 a = .invalid) ∧
     (m1 ≠ 0 → n1 = false → (fpSqrt a).near false (fun x => x * x) (Fp.rat a) ∧
       (m1 < 2 ^ 24 → (fpRsqrt a).near false (fun x => x * x * Fp.rat a) 1)) ∧
     (m1 = 0 → fpSqrt a = .zero n1 ∧ fpRsqrt a = .inf n1 ∧ fpLog2 a = .inf true ∧ fpExp2 a = .num false 1 0 false) ∧
     (∀ k : Int, m1 ≠ 0 → Fp.rat a = k → |k| < 2 ^ 16 → fpExp2 a = .num false 1 k false) ∧
     ∀ k : Int, n1 = false → Fp.rat a = (2 : ℚ) ^ k → fpLog2 a = exactInt k) ∧
  (∀ (rm : Rm) (n m : Bool) (k : Nat) (e : Int), fpAdd rm (.inf n) (.inf m) = (if n = m then .inf n else .invalid) ∧
     fpAdd rm (.inf n) (.fin m k e) = .inf n ∧ fpAdd rm (.fin m k e) (.inf n) = .inf n ∧ fpSub rm (.inf n) (.inf m) = (if n = m then .invalid else .inf n) ∧
     fpMul (.inf n) (.inf m) = .inf (xor n m) ∧ (k ≠ 0 → fpMul (.inf n) (.fin m k e) = .inf (xor n m) ∧ fpMul (.fin m k e) (.inf n) = .inf (xor n m)) ∧
     fpMul (.inf n) (.fin m 0 e) = .invalid ∧ fpMul (.fin m 0 e) (.inf n) = .invalid ∧ fpDiv (.inf n) (.inf m) = .invalid ∧
     fpDiv (.inf n) (.fin m k e) = .inf (xor n m) ∧ fpDiv (.fin n k e) (.inf m) = .zero (xor n m) ∧
     fpSqrt (.inf n) = (if n then .invalid else .inf false) ∧ fpRsqrt (.inf n) = (if n then .invalid else .zero false) ∧
     fpLog2 (.inf n) = (if n then .invalid else .inf false) ∧ fpExp2 (.inf n) = (if n then .zero false else .inf false)) ∧
  ∀ (rm : Rm) (neg : Bool) (a b c : Fp) (n : Bool) (f : Nat),
    (a = .nan n f → ∀ x ∈ [fpAdd rm a b, fpSub rm a b, fpMul a b, fpDiv a b, fpFma rm neg a b c, fpSqrt a, fpRsqrt a, fpExp2 a, fpLog2 a], x = .nan n f) ∧
    ((∀ n f, a ≠ .nan n f) → b = .nan n f → ∀ x ∈ [fpAdd rm a b, fpSub rm a b, fpMul a b, fpDiv a b, fpFma rm neg a b c], x = .nan n f) ∧
    ((∀ n f, a ≠ .nan n f) → (∀ n f, b ≠ .nan n f) → c = .nan n f → fpFma rm neg a b c = .nan n f)

/-- R80, R87, R90, R91, R115, R131: `vredsum` of a floating format is the balanced tree over the element numbers, in `fp32`, rounded once more to a
narrower format; in the stochastic mode each node and the last rounding take a step of their generators; a NaN that a node generates is element 0's. A
NaN among the active elements is what the other reductions answer, the lowest-numbered one, and without one they compare exactly, the lowest number
first; with no active element they leave the contents, and `vargmax` gives all ones, as at `vl` = 0, where the others do nothing. That `vredmax` and
`vredmin` take no generator step is log 21, the model's choice. -/
def Obligations.FloatingReductions : Prop :=
  ∀ (s s1 : State) (h : Hart) (vd va : VRegNo) (rd : SReg), Fmt.isFloat h.fmt = true →
    let f := h.fmt
    let x := h.bitsAt va
    let nan (i : Nat) := isNan f (x i) = true
    let less (i j : Nat) := fpBelow (h.input f (x i)) (h.input f (x j)) = true
    let firstNan (m : Nat) := h.writes m ∧ nan m ∧ ∀ i, h.writes i → nan i → m ≤ i
    let greatest (m : Nat) := h.writes m ∧ (∀ i, h.writes i → ¬nan i ∧ ¬less m i) ∧ ∀ i, h.writes i → i < m → less i m
    let least (m : Nat) := h.writes m ∧ (∀ i, h.writes i → ¬nan i ∧ ¬less i m) ∧ ∀ i, h.writes i → i < m → less m i
    let leaf (i : Nat) := if i < h.vl.toNat ∧ h.activeAt i = true then widen f (flush f (vtFtz h.vt) (x i)) else 0
    let w (i : Instr) (v : Nat) := WritesVector (exec i s) s1 h vd (· = 0) (fun _ => v)
    let kept (i : Instr) := WritesVector (exec i s) s1 h vd (fun _ => False) (fun _ => 0)
    (s.opens numFmt { vs := [va.val], vw := [vd.val] } s1 h →
      (h.vl = 0 → exec (.vredsum vd va) s = .next (s1.retired h)) ∧
      (∀ k, h.vl ≠ 0 → h.vl.toNat ≤ 2 ^ k → (k = 0 ∨ 2 ^ (k - 1) < h.vl.toNat) → ∃ (b : Nat) (gens : Vector (BitVec 32) 256),
        let node (lev i : Nat) := nodeSum (h.fpCtx .fp32) (h.nodeRnd k) leaf lev i
        let g : Hart := { h.setV vd b f with gen := gens }
        let generated := ∃ lev i, lev ≤ k ∧ i < 2 ^ (k - lev) ∧ (node lev i).2 = true
        (¬generated → exec (.vredsum vd va) s = .next (s1.retired g)) ∧
        (generated → exec (.vredsum vd va) s = .next (s1.retired (g.takeNan h.xpc s1.tick 0))) ∧
        (let r := (node k 0).1
         elemOf (Fmt.ew f) b 0 = (if f = .fp32 then r else ((h.fpCtx f).round (h.nodeRnd k (k + 1) 0) 0 (Fp.of .fp32 r).exact).1) % 2 ^ Fmt.ew f) ∧
        (∀ j, 0 < j → elemOf (Fmt.ew f) b j = h.bitsAt vd j) ∧
        ∀ j : Fin 256, gens[j] = if mdRm h.md = .sr then stepped h.gen[j] (levelSteps k (k + 1) j + if f ≠ .fp32 ∧ j = 0 then 1 else 0) else h.gen[j]) ∧
      (h.active = [] → kept (.vredmax vd va) ∧ kept (.vredmin vd va)) ∧
      (∀ m, firstNan m → w (.vredmax vd va) (quieted f (x m)) ∧ w (.vredmin vd va) (quieted f (x m))) ∧
      (∀ m, greatest m → w (.vredmax vd va) (flush f (vtFtz h.vt) (x m))) ∧
      ∀ m, least m → w (.vredmin vd va) (flush f (vtFtz h.vt) (x m))) ∧
    (s.opens numFmt { vs := [va.val] } s1 h → (h.active = [] → exec (.vargmax rd va) s = .next (s1.retired (h.setS .x rd 0xFFFFFFFFFFFFFFFF))) ∧
      ∀ m, firstNan m ∨ greatest m → exec (.vargmax rd va) s = .next (s1.retired (h.setS .x rd (BitVec.ofNat 64 m))))

/-- R136, R137: predicate logic over the body bits, the first set bit, the count, `pset` up to VLMAX, and the moves between scale and
vector registers. -/
def Obligations.PredicateAndScaleForms : Prop :=
  ∀ (s s1 : State) (h : Hart) (pd pa pb : PRegNo) (rd ra : SReg) (vd va : VRegNo) (kd ka : KRegNo),
    let a (i : Nat) := (h.pbits pa).testBit i
    let b (i : Nat) := (h.pbits pb).testBit i
    let w (i : Instr) (f : Nat → Bool) := WritesPredicate (exec i s) s1 h pd (· < h.vl.toNat) f
    let body := List.range h.vl.toNat
    let n := 8 * ((h.vl.toNat + vtBl h.vt - 1) / vtBl h.vt)
    (s.opensPlain anyFmt { ps := [pa.val, pb.val], pw := [pd.val] } s1 h →
      w (.pand pd pa pb) (fun i => a i && b i) ∧ w (.por pd pa pb) (fun i => a i || b i) ∧ w (.pxor pd pa pb) (fun i => a i != b i)) ∧
    (s.opensPlain anyFmt { ps := [pa.val], pw := [pd.val] } s1 h →
      w (.pnot pd pa) (fun i => !a i) ∧ w (.psbf pd pa) (fun i => (List.range (i + 1)).all fun j => !a j) ∧
      w (.psif pd pa) (fun i => (List.range i).all fun j => !a j)) ∧
    (s.opensPlain anyFmt { ps := [pa.val] } s1 h →
      exec (.pcnt rd pa) s = .next (s1.retired (h.setS .x rd (BitVec.ofNat 64 (body.countP a)))) ∧
      ((∀ i ∈ body, a i = false) → exec (.pfirst rd pa) s = .next (s1.retired (h.setS .x rd 0xFFFFFFFFFFFFFFFF))) ∧
      ∀ m ∈ body, a m = true → (∀ i, i < m → a i = false) → exec (.pfirst rd pa) s = .next (s1.retired (h.setS .x rd (BitVec.ofNat 64 m)))) ∧
    (s.opensPlain anyFmt { pw := [pd.val] } s1 h → ∃ p, exec (.pset pd ra) s = .next (s1.retired (h.setP pd p)) ∧
      ∀ i, p.testBit i = decide (i < (h.sreg .x ra).toNat ∧ i < h.vlmax)) ∧
    (s.opensFor anyFmt { vs := [va.val] } [] s1 h → ∃ k, exec (.kmvToScale kd va) s = .next (s1.retired { h with k := vput h.k kd.val k }) ∧
      ∀ i, k.testBit i = if i < n then (h.vbitsOf va).testBit i else (h.k[kd]).testBit i) ∧
    (s.opensPlain anyFmt { vw := [vd.val] } s1 h → ∃ v, exec (.kmvToVector vd ka) s = .next (s1.retired (h.setV vd v .n8)) ∧
      ∀ i, v.testBit i = if i < n then (h.k[ka]).testBit i else (h.vbitsOf vd).testBit i)

/-- R48, R50, R53, R58, R61, R64, R117, R119, R290: `setvl` writes the vector type, the lane grant and the length it grants, closes a strip, and
gives the length to sd; with no lane group held and none free it waits with its request noted and its cap fixed; in the dead state it first
clears every register and tags it. `mode` writes `md`; `vrelease` frees the lane groups, kills the vector state and gives up the spill window, and
does nothing while it is dead. Clauses that rest on log 26: the residency after the clearing, and when registers are read back; on log 37: which
slots of the vector file the resident registers then occupy. -/
def Obligations.TypeLengthAndMode : Prop :=
  (∀ (s s1 s2 : State) (h : Hart) (rd ra : SReg) (fmt : Fmt) (dc : Depth) (ftz bl : Bool) (lg : Fin 17), s.curStream = .x →
    s.hart = some h →
    let vt := vtOf fmt dc ftz bl
    let len (g : Hart) := grantedLength (h.sreg .x ra) g.vlmax
    let ends (u : State) := ∀ t g, replace vt h u = .ok () t → t.hart = some g → t.curStream = .x → exec (.setvl rd ra fmt dc ftz bl lg) s =
      .next (t.retired ({ g with vl := BitVec.ofNat 17 (len g), strip := g.strip + 1 }.setS .x rd ((BitVec.ofNat 17 (len g)).setWidth 64)))
    let want := if lg.val = 0 then 1 else lg.val
    (h.live = true → adjustBoth vt s = .ok () s1 → s1.curStream = .x → ∀ h1, s1.hart = some h1 → h1.live = true →
      let cap := h1.waitCap.getD (s1.grantCap h1)
      let grant := s1.decideGrant h1 want cap
      (lg.val = 0 ∧ 1 ≤ h1.grant → ends (s1.putHart (h1.relength vt h1.grant))) ∧
      (¬(lg.val = 0 ∧ 1 ≤ h1.grant) → grant ≠ 0 → ends (s1.putHart ({ h1 with req := want, waitCap := none }.relength vt grant))) ∧
      (¬(lg.val = 0 ∧ 1 ≤ h1.grant) → grant = 0 →
        exec (.setvl rd ra fmt dc ftz bl lg) s = .next (s1.waits { h1 with req := want, waitCap := some cap } .grant))) ∧
    (h.live = false →
      let cap := h.waitCap.getD (s.grantCap h)
      let grant := s.decideGrant h want cap
      (lg.val = 0 ∧ 1 ≤ h.grant → evictBoth vt (s.putHart ((h.vectorsCleared fmt).relength vt h.grant)) = .ok () s2 → ends s2) ∧
      (¬(lg.val = 0 ∧ 1 ≤ h.grant) → grant ≠ 0 →
        evictBoth vt (s.putHart ((({ h with req := want, waitCap := none } : Hart).vectorsCleared fmt).relength vt grant)) = .ok () s2 → ends s2) ∧
      (¬(lg.val = 0 ∧ 1 ≤ h.grant) → grant = 0 →
        exec (.setvl rd ra fmt dc ftz bl lg) s = .next (s.waits { h with req := want, waitCap := some cap } .grant)))) ∧
  ∀ (s : State) (h : Hart), s.hart = some h → s.curStream = .x →
    (∀ g rm sat, ∃ md : BitVec 11, exec (.mode g rm sat) s = .next (s.retired { h with md := md }) ∧
      mdRm md = rm ∧ mdSat md = sat ∧ mdGuard md = g ∧ mdLegal md = true) ∧
    exec .vrelease s = .next (if h.live then (s.windowFree h.asid h.slot).retired { h with grant := 0, vl := 0, vt := 0 } else s.retired h)

/-- The scalar loads, with their size, whether they sign-extend, and their address (R138, R141). -/
def loadForms (h : Hart) (st : StreamId) (rd ra rb : SReg) (disp : BitVec 9) (fr : Bool) : List (Instr × Nat × Bool × Word64) :=
  let d := h.addrMd st ra disp
  let x := h.addrMx st ra rb
  [(.lbMd rd ra disp fr, 1, true, d), (.lbMx rd ra rb fr, 1, true, x), (.lbnMd rd ra disp fr, 1, false, d), (.lbnMx rd ra rb fr, 1, false, x),
   (.lhMd rd ra disp fr, 2, true, d), (.lhMx rd ra rb fr, 2, true, x), (.lhnMd rd ra disp fr, 2, false, d), (.lhnMx rd ra rb fr, 2, false, x),
   (.lwMd rd ra disp fr, 4, true, d), (.lwMx rd ra rb fr, 4, true, x), (.lwnMd rd ra disp fr, 4, false, d), (.lwnMx rd ra rb fr, 4, false, x),
   (.ldMd rd ra disp fr, 8, false, d), (.ldMx rd ra rb fr, 8, false, x)]

/-- The scalar stores, with their size and address (R138, R141). -/
def storeForms (h : Hart) (st : StreamId) (rs ra rb : SReg) (disp : BitVec 9) : List (Instr × Nat × Word64) :=
  let d := h.addrMd st ra disp
  let x := h.addrMx st ra rb
  [(.sbMd rs ra disp, 1, d), (.sbMx rs ra rb, 1, x), (.shMd rs ra disp, 2, d), (.shMx rs ra rb, 2, x), (.swMd rs ra disp, 4, d),
   (.swMx rs ra rb, 4, x), (.sdMd rs ra disp, 8, d), (.sdMx rs ra rb, 8, x)]

/-- R138, R139, R141, R173: a scalar load of an aligned address that the access reaches writes sd with the bytes, extended, and retires;
a misaligned one raises misaligned with its address. That one which conflicts with a transfer of the hart waits at issue is log 11, the
model's choice. -/
def Obligations.ScalarLoadsComplete : Prop :=
  ∀ (s s1 : State) (h : Hart) (rd ra rb : SReg) (disp : BitVec 9) (fr : Bool) (v : Nat), s.hart = some h →
    ∀ f ∈ loadForms h s.curStream rd ra rb disp fr,
      let n := f.2.1
      let va := f.2.2.2
      let x : Word64 := if f.2.2.1 then BitVec.ofInt 64 (if 2 ^ (8 * n - 1) ≤ v % 2 ^ (8 * n) then (v % 2 ^ (8 * n) : Nat) - (2 ^ (8 * n) : Int) else (v % 2 ^ (8 * n) : Nat))
        else BitVec.ofNat 64 v
      (va.toNat % n = 0 → s.free h va n false → (s.actor h s.curStream).load (if fr then .fresh else .plain) va n (some false) s = .ok v s1 →
        exec f.1 s = .next (s1.retired (h.setS s.curStream rd x)) ∧ s1.curStream = s.curStream ∧ s1.curSlot = s.curSlot) ∧
      (va.toNat % n ≠ 0 → exec f.1 s = .next (s.trapped 0x08 va 0)) ∧
      (va.toNat % n = 0 → ¬s.free h va n false → exec f.1 s = .next (s.waits h .interlock))

/-- R138, R140, R141, R143, R161, R164, R205: a scalar load from the local store that no store in flight of the stream touches gives the
bytes there, lowest address first; outside the allocation, and at and above 2^56, it raises load translation fault with its address. A load
with `.fr` of a translated address reads its home: where translation finds the bytes in memory, readable under the context's key, not
poisoned, and touched by no store in flight of the stream, sd takes those bytes; and where a store of the stream touches them, and is the
only one in flight, the store performs first. Log 6 says which stores of others come first. -/
def Obligations.LoadsGiveTheBytes : Prop :=
  (∀ (s : State) (h : Hart) (rd ra rb : SReg) (disp : BitVec 9) (fr : Bool), s.hart = some h →
     ∀ f ∈ loadForms h s.curStream rd ra rb disp fr,
       let n := f.2.1
       let va := f.2.2.2
       va.toNat % n = 0 → s.free h va n false →
       (∀ core off, s.localPlace h va n core off → s.lsPoisoned core off n = false → s.inSpill (s.actor h s.curStream) va n = false →
         s.undisturbed h → (∀ p ∈ s.pending, p.of h.slot s.curStream = true → p.touches (.ls core off) n = false) →
         ∃ x : Word64, exec f.1 s = .next (s.retired (h.setS s.curStream rd x)) ∧
           ∀ i, i < 64 → x.getLsbD i = if i < 8 * n then (s.ls.read (lsIndex core off + i / 8)).getLsbD (i % 8)
             else f.2.2.1 && (s.ls.read (lsIndex core off + n - 1)).getLsbD 7) ∧
       (2 ^ 56 ≤ va.toNat → exec f.1 s = .next (s.trapped 0x0A va 0)) ∧
       (inWindow va = true → (∀ core off, ¬s.localPlace h va n core off) → exec f.1 s = .next (s.trapped 0x0A va 0))) ∧
  (∀ (s s1 : State) (h : Hart) (rd ra : SReg) (disp : BitVec 9) (p : Place) (x : Nat), s.hart = some h →
     let va := h.addrMd s.curStream ra disp
     va.toNat % 8 = 0 → s.free h va 8 false → (s.actor h s.curStream).place .load va 8 (some false) false s = .ok p s1 → p.loc = .pa x →
     p.garbled = false → s1.poisoned x 8 = false → s1.inSpill (s.actor h s.curStream) va 8 = false →
     (sectorsOf x 8).all (s1.sectorReadable p.key) = true →
     (∀ q ∈ s1.pending, q.of h.slot s.curStream = true → q.touches (.pa x) 8 = false) →
     ∃ t, exec (.ldMd rd ra disp true) s = .next t ∧
       t.hart = some ((h.setS s.curStream rd (BitVec.ofNat 64 (s1.mem.readLE x 8))).advance s.curStream).stirred ∧ t.mem = s1.mem ∧ t.pending = s1.pending) ∧
  (∀ (s : State) (h : Hart) (rd ra : SReg) (disp : BitVec 9) (fr : Bool) (core off v : Nat) (q : PendingStore), s.hart = some h →
     let va := h.addrMd s.curStream ra disp
     va.toNat % 8 = 0 → s.free h va 8 false → s.localPlace h va 8 core off → s.lsPoison = [] → s.inSpill (s.actor h s.curStream) va 8 = false →
     s.held = [] → s.pending = [q] → q.slot = h.slot → q.stream = s.curStream → q.scalar = true → q.due = none → q.via = [] →
     q.bytes = storeBytes (.ls core off) 8 v (2 ^ 64 - 1) →
     ∃ t, exec (.ldMd rd ra disp fr) s = .next t ∧
       t.hart = some ((h.setS s.curStream rd (BitVec.ofNat 64 v)).advance s.curStream).stirred ∧ t.pending = [] ∧
       t.ls.readLE (lsIndex core off) 8 = v % 2 ^ 64)

/-- R138, R205 to R208, R210, R211, R215, R364, R385: translation walks the four levels of the context's tables, and an access or a fetch reports the
first condition that it meets: no valid path, an invalid entry or an uncorrectable one; a missing permission; a cleared key slot; a port or a peer
that is not reached; a page marked compressed; an inconsistent overlay record; C-promote; a move state, for which a store waits; and poison. Where
none is met, a load with `.fr` takes the bytes of the frame, and A is set in the leaf. What holds with no page control block, that a leaf is
judged by the record of its first frame, and the place of a fabric table entry that is not valid among the conditions, is log 34, the model's
choice; what S1 does instead of the peer conditions is log 17. -/
def Obligations.TranslationFollowsTheTables : Prop :=
  ∀ (s : State) (h : Hart) (c : Context) (rd ra : SReg) (disp : BitVec 9) (k table e : Nat), s.hart = some h → s.undisturbed h → s.held = [] →
    SMap.get? s.contexts h.asid = some c →
    let va := h.addrMd s.curStream ra disp
    let load := Instr.ldMd rd ra disp true
    let store := Instr.sdMd rd ra disp
    va.toNat % 8 = 0 → va.toNat < windowBase → s.free h va 8 false → s.free h va 8 true → k < 4 → s.tableAt c.root va.toNat k table →
    let entry := table + va.toNat / 2 ^ (46 - 10 * k) % 2 ^ 10 * 16
    let raises (kind : Kind) (cause : BitVec 8) (sub : BitVec 5) : Prop := match kind with
      | .load => exec load s = .next (s.trapped cause va sub)
      | .store => exec store s = .next (s.trapped cause va sub)
      | .fetch => ∃ u, fetchHome (s.actor h s.curStream) va s = .error (.trap cause va sub false) u
    let faults (kind : Kind) (sub : BitVec 5) := raises kind (match kind with | .load => 0x0A | .store => 0x0B | .fetch => 0x09) sub
    let invalid := ∀ kind, faults kind 4
    (entry < hbmEnd → s.poisoned entry 16 = true → raises .load 0x11 0 ∧ raises .store 0x11 0 ∧ raises .fetch 0x12 0) ∧
    (s.entry entry e →
      let big := e / 2 ^ 2 % 4 ≠ 0
      let size := if e / 2 ^ 2 % 4 = 0 then 2 ^ 16 else if e / 2 ^ 2 % 4 = 1 then 2 ^ 21 else 2 ^ 30
      let frame := e / 2 ^ 16 % 2 ^ 36 * 2 ^ 16
      let ovr := e / 2 ^ 64 % 2 ^ 52
      let tier := e / 2 ^ 13 % 8
      let overlay := e.testBit 11 = true
      let shape := e / 2 ^ 116 % 2 ^ 12 = 0 ∧ e / 2 ^ 52 % 2 ^ 12 = 0 ∧ e / 2 ^ 4 % 4 = 0 ∧ tier ≤ 4 ∧ frame % size = 0 ∧ (big → ¬overlay ∧ tier = 0) ∧
        (overlay → ovr % 64 = 0 ∧ ovr < hbmEnd) ∧ (¬overlay → ovr = 0)
      let recorded (p hft r : Nat) := s.pcb = some p ∧ hwRead p 8 s = .ok hft s ∧ hwRead (hft + frame / 2 ^ 16 * 16) 16 s = .ok r s
      let sound (r : Nat) := r / 2 ^ 125 % 8 = 0 ∧ r / 2 ^ 52 % 2 ^ 12 = 0 ∧ r.testBit 48 = false ∧ (tier ≤ 2 ∨ r.testBit 51 = true)
      let permits (kind : Kind) := e.testBit (match kind with | .load => 6 | .store => 7 | .fetch => 8) = true ∧ (h.priv = .u → e.testBit 9 = true)
      (e % 2 = 0 → ∀ kind, faults kind 0) ∧
      (e % 4 = 1 → k = 3 ∨ e / 2 ^ 2 % 2 ^ 12 ≠ 0 ∨ e / 2 ^ 52 % 2 ^ 76 ≠ 0 → invalid) ∧
      (e % 4 = 3 → ¬(k = 2 ∧ e / 2 ^ 2 % 4 = 2 ∨ k = 3 ∧ e / 2 ^ 2 % 4 < 2) → invalid) ∧
      (e % 4 = 3 → k = 2 ∧ e / 2 ^ 2 % 4 = 2 ∨ k = 3 ∧ e / 2 ^ 2 % 4 < 2 →
        (¬shape → invalid) ∧
        (hbmEnd ≤ frame → (frame < 2 ^ 48 ∨ 2 ^ 48 + 2 ^ 44 ≤ frame ∧ frame < 2 ^ 51 ∨ 2 ^ 51 + 2 ^ 49 ≤ frame ∨
          2 ^ 51 ≤ frame ∧ hbmEnd ≤ (frame - 2 ^ 51) % 2 ^ 40) → invalid) ∧
        (frame < hbmEnd → s.pcb = none → 2 < tier → invalid) ∧
        (frame < hbmEnd → ∀ p hft r, recorded p hft r → ¬sound r → invalid) ∧
        (shape → 2 ^ 48 ≤ frame → frame < 2 ^ 48 + 2 ^ 44 → s.pcb = none → tier ≤ 2 → ∀ kind, permits kind → s.keyOf c.key ≠ none →
          s.cxl.getD ((frame - 2 ^ 48) / 2 ^ 42) .untrained ≠ .up → (tier = 2 → s.level = .s2) → faults kind 13) ∧
        (shape → tier = 0 → ¬overlay → e.testBit 12 = false → 2 ^ 51 ≤ frame → frame < 2 ^ 51 + 2 ^ 49 → (frame - 2 ^ 51) % 2 ^ 40 < hbmEnd →
          ∀ kind, permits kind → s.keyOf c.key ≠ none →
          (s.level = .s2 → (∀ x, s.fabric[(frame - 2 ^ 51) / 2 ^ 40]? = some x → x.valid = false) → faults kind 0) ∧
          ∀ x, s.fabric[(frame - 2 ^ 51) / 2 ^ 40]? = some x → x.valid = true → s.level = .s2 → s.peerReached x = false → faults kind 13) ∧
        (shape → frame < hbmEnd → (s.pcb = none ∧ tier ≤ 2 ∨ ∃ p hft r, recorded p hft r ∧ sound r) → ∀ kind,
          (¬permits kind → faults kind 0) ∧
          (permits kind → s.keyOf c.key = none → raises kind 0x15 0) ∧
          (permits kind → s.keyOf c.key ≠ none →
            (e.testBit 12 = true → faults kind 1) ∧
            (e.testBit 12 = false → overlay → ∀ o u, readOverlay ovr s = .ok o u → o.consistent = false → faults kind 4) ∧
            (e.testBit 12 = false → ¬overlay → tier = 2 → raises kind 0x0D 0) ∧
            (e.testBit 12 = false → ¬overlay → 3 ≤ tier → kind = .store → exec store s = .next (s.waits h .move)) ∧
            (e.testBit 12 = false → ¬overlay → tier = 3 → (∀ m ∈ s.moves, m.leaf ≠ entry) → kind = .load → exec load s = .next (s.waits h .move)))) ∧
        (shape → frame < hbmEnd → tier = 0 → ¬overlay → e.testBit 12 = false → e.testBit 10 = true → (s.pcb = none ∨ ∃ p hft r, recorded p hft r ∧ sound r ∧
            (∃ r', hwRead (hft + (frame + va.toNat % size / 2 ^ 16 * 2 ^ 16) / 2 ^ 16 * 16) 16 s = .ok r' s ∧ r' / 2 ^ 116 % 2 ^ 9 = c.key)) →
          permits .load → s.keyOf c.key ≠ none → s.pending = [] → s.spoils entry frame = false →
          let pa := frame + va.toNat % size
          (s.poisoned pa 8 = true → raises .load 0x11 0) ∧
          (s.poisoned pa 8 = false → s.inSpill (s.actor h s.curStream) va 8 = false → (sectorsOf pa 8).all (s.sectorReadable c.key) = true →
            ∃ t, exec load s = .next t ∧ t.mem = s.mem ∧ t.pending = [] ∧
              t.hart = some ((h.setS s.curStream rd (BitVec.ofNat 64 (s.mem.readLE pa 8))).advance s.curStream).stirred)) ∧
        (shape → frame < hbmEnd → tier = 0 → ¬overlay → e.testBit 12 = false → e.testBit 10 = false → s.pcb = none → permits .load → s.keyOf c.key ≠ none →
          s.spoils entry frame = false → (sectorsOf (entry + 1) 1).all (s.sectorReadable 0) = true → s.keyOf 0 ≠ none →
          ∃ p t, (s.actor h s.curStream).place .load va 8 (some false) false s = .ok p t ∧ p.loc = .pa (frame + va.toNat % size) ∧
            t.mem.read (entry + 1) = s.mem.read (entry + 1) ||| 4 ∧ ∀ x, x ≠ entry + 1 → t.mem.read x = s.mem.read x)))

/-- R138, R139, R141, R163: a scalar store of an aligned address that the access reaches retires; a misaligned one raises misaligned. The
model's choices: to the local store it joins the stores in flight and writes no memory yet (log 7), and one that conflicts with a transfer
waits at issue (log 11). -/
def Obligations.ScalarStoresComplete : Prop :=
  ∀ (s s1 : State) (h : Hart) (rs ra rb : SReg) (disp : BitVec 9), s.hart = some h →
    let a := s.actor h s.curStream
    ∀ f ∈ storeForms h s.curStream rs ra rb disp,
      let n := f.2.1
      let va := f.2.2
      let v := (h.sreg s.curStream rs).toNat
      (va.toNat % n = 0 → s.free h va n true → a.store va n v (2 ^ (8 * n) - 1) s = .ok () s1 →
        exec f.1 s = .next (s1.retired h) ∧ s1.curStream = s.curStream ∧ s1.curSlot = s.curSlot) ∧
      (va.toNat % n = 0 → s.free h va n true → s.undisturbed h → ∀ core off, s.localPlace h va n core off →
        let p : PendingStore :=
          { slot := h.slot, stream := s.curStream, strip := h.stripOf s.curStream s.tick, scalar := true
            bytes := (List.range n).map fun i => { loc := .ls core (off + i), val := BitVec.ofNat 8 (v / 2 ^ (8 * i)), mask := 0xFF }
            op := s.tick, drops := true, due := none, via := [], key := 0, asid := h.asid }
        exec f.1 s = .next ({ s with pending := s.pending ++ [p] }.retired h)) ∧
      (va.toNat % n ≠ 0 → exec f.1 s = .next (s.trapped 0x08 va 0)) ∧
      (va.toNat % n = 0 → ¬s.free h va n true → exec f.1 s = .next (s.waits h .interlock)) ∧
      (va.toNat % n = 0 → s.free h va n true → 2 ^ 56 ≤ va.toNat → exec f.1 s = .next (s.trapped 0x0B va 0))

/-- R140, R161, R163: when a store in flight performs, each byte it writes holds its value at its home, every other byte keeps its own, and the
store is in flight no more: in the local store, and in memory under a key slot that its sectors read true under. A sector or a word that
it writes whole is poisoned no more. Log 6: the earlier strips of its stream then come before what its core's harts access next. -/
def Obligations.StoresPerformAtTheirHome : Prop :=
  ∀ (s : State) (p : PendingStore) (n v : Nat), s.curEv.yes = false → s.pending[s.curEv.a]? = some p →
    (∀ q ∈ s.pending.take s.curEv.a, q.before p = false) → (∀ q ∈ s.pending.eraseIdx s.curEv.a, q.throughStore p = false) →
    let rest := (s.pending.eraseIdx s.curEv.a).map fun q => if q.of p.slot p.stream = true ∧ q.strip < p.strip then q.dueAt .core else q
    (∀ core off, p.bytes = storeBytes (.ls core off) n v (2 ^ (8 * n) - 1) → ∃ t, exec .storePerform s = .next t ∧
      t.pending = rest ∧ t.mem = s.mem ∧ t.harts = s.harts ∧
      (∀ i, i < n → t.ls.read (lsIndex core off + i) = BitVec.ofNat 8 (v / 2 ^ (8 * i))) ∧
      (n = 8 → off % 8 = 0 → lsIndex core off / 8 ∉ t.lsPoison) ∧
      ∀ x, (x < lsIndex core off ∨ lsIndex core off + n ≤ x) → t.ls.read x = s.ls.read x) ∧
    (∀ a, p.bytes = storeBytes (.pa a) n v (2 ^ (8 * n) - 1) → (∀ x ∈ sectorsOf a n, s.sectorReadable p.key x = true) →
      ∃ t, exec .storePerform s = .next t ∧ t.pending = rest ∧ t.ls = s.ls ∧ t.harts = s.harts ∧
      (∀ i, i < n → t.mem.read (a + i) = BitVec.ofNat 8 (v / 2 ^ (8 * i))) ∧
      (n = 32 → a % 32 = 0 → a / 32 ∉ t.poison ∧ ∀ w ∈ t.slicePoison, w / 4 ≠ a / 32) ∧
      ∀ x, (x < a ∨ a + n ≤ x) → t.mem.read x = s.mem.read x)

/-- R159, R219: a prefetch retires whatever its address, and changes neither memory nor the local stores, nor any register; the arrival of its fill
removes it from those awaited and changes no memory. That a prefetch may be dropped as it issues is log 43, the model's choice. -/
def Obligations.PrefetchesChangeNoValue : Prop :=
  ∀ (s : State) (h : Hart) (ra rb : SReg) (disp : BitVec 9), s.hart = some h →
    (∀ i ∈ [Instr.prefL1Md ra disp, .prefL1Mx ra rb, .prefLlcMd ra disp, .prefLlcMx ra rb], ∃ t, exec i s = .next t ∧
      t.hart = some (h.advance s.curStream).stirred ∧ t.mem = s.mem ∧ t.ls = s.ls ∧ t.pending = s.pending) ∧
    (∀ p, s.curEv.a < 64 → (s.core s.curEv.a).prefetches[s.curEv.b]? = some p → ∃ t, exec .prefFillArrival s = .next t ∧
      t.mem = s.mem ∧ t.ls = s.ls ∧ t.harts = s.harts ∧ (t.core s.curEv.a).prefetches = (s.core s.curEv.a).prefetches.eraseIdx s.curEv.b)

/-- The atomics: the operation by name, and the new value from the old one, the operand and the old sd, all of w bits; none where it writes
nothing (R155, R156). -/
def atomicForms (sc : BScope) (o : Order) (dw : Bool) (rd rb ra : SReg) : List (Instr × AmoOp × (Nat → Nat → Nat → Option Nat)) :=
  let w := if dw then 64 else 32
  let sg (x : Nat) : Int := if 2 ^ (w - 1) ≤ x % 2 ^ w then (x % 2 ^ w : Nat) - (2 ^ w : Int) else (x % 2 ^ w : Nat)
  [(.amoadd sc o dw rd rb ra, if rb.val = 0 then .read else .add, fun old b _ => if rb.val = 0 then none else some ((old + b) % 2 ^ w)),
   (.amoswap sc o dw rd rb ra, .swap, fun _ b _ => some b),
   (.amomax sc o dw rd rb ra, .max, fun old b _ => some (if sg old < sg b then b else old)),
   (.amomin sc o dw rd rb ra, .min, fun old b _ => some (if sg b < sg old then b else old)),
   (.amomaxN sc o dw rd rb ra, .maxN, fun old b _ => some (max old b)),
   (.amominN sc o dw rd rb ra, .minN, fun old b _ => some (min old b)),
   (.amoand sc o dw rd rb ra, .and, fun old b _ => some (old &&& b)),
   (.amoor sc o dw rd rb ra, if rb.val = 0 then .read else .or, fun old b _ => if rb.val = 0 then none else some (old ||| b)),
   (.cas sc o dw rd rb ra, .cas, fun old b e => if old = e then some b else none)]

/-- The scope that an atomic or a barrier names, as a fence names it (R32). -/
def wideScope : BScope → Scope
  | .core => .core
  | .die => .die
  | .dev => .dev
  | .fab => .fab

/-- R20, R138, R139, R155, R156, R157, R167, R171: an atomic on the local store, with no store in flight, reads the old value, writes the new
one in the same step where its form writes, and gives sd the old value, a word sign-extended. Every atomic whose address is aligned and
whose access succeeds retires with the old value in sd, at every scope and order; a release waits for the stream's earlier accesses first;
a misaligned one raises misaligned. One that S1 holds retires, its work held and sd a free value (log 27). The model's choices: what an
order puts first inside its scope (log 6), and the wait at issue on a transfer (log 11). -/
def Obligations.AtomicsExchange : Prop :=
  (∀ (s : State) (h : Hart) (sc : BScope) (dw : Bool) (rd rb ra : SReg) (core off : Nat), s.hart = some h → sc ≠ .fab ∨ s.level = .s2 →
     s.pending = [] → s.held = [] →
     let n := if dw then 8 else 4
     let va := h.sreg s.curStream ra
     let b := (h.sreg s.curStream rb).toNat % 2 ^ (8 * n)
     let e := (h.sreg s.curStream rd).toNat % 2 ^ (8 * n)
     let old := s.ls.readLE (lsIndex core off) n
     va.toNat % n = 0 → s.free h va n true → s.localPlace h va n core off → s.lsPoisoned core off n = false →
     s.inSpill (s.actor h s.curStream) va n = false →
     ∀ f ∈ atomicForms sc .none dw rd rb ra, ∃ t, exec f.1 s = .next t ∧
       t.hart = some ((h.setS s.curStream rd (if dw then BitVec.ofNat 64 old
         else BitVec.ofInt 64 (if 2 ^ 31 ≤ old then (old : Int) - 2 ^ 32 else old))).advance s.curStream).stirred ∧
       t.ls.readLE (lsIndex core off) n = (f.2.2 old b e).getD old ∧ t.mem = s.mem ∧ t.pending = [] ∧
       ∀ x, (x < lsIndex core off ∨ lsIndex core off + n ≤ x) → t.ls.read x = s.ls.read x) ∧
  (∀ (s s0 s1 s2 : State) (h : Hart) (sc : BScope) (o : Order) (dw held : Bool) (rd rb ra : SReg) (old : Nat), s.hart = some h →
     let n := if dw then 8 else 4
     let va := h.sreg s.curStream ra
     let b := (h.sreg s.curStream rb).toNat % 2 ^ (8 * n)
     let e := (h.sreg s.curStream rd).toNat % 2 ^ (8 * n)
     let x : Word64 := if dw then BitVec.ofNat 64 old else BitVec.ofInt 64 (signedOf 32 old)
     let a := s.actor h s.curStream
     ∀ f ∈ atomicForms sc o dw rd rb ra,
       (va.toNat % n ≠ 0 → exec f.1 s = .next (s.trapped 0x08 va 0)) ∧
       (va.toNat % n = 0 → s.free h va n true →
         a.holdAtomic va n f.2.1 b e { fab := decide (sc = .fab), regs := [.s rd.val], acquires := decide (o = .acq ∨ o = .ar)
                                       releases := decide (o = .rel ∨ o = .ar) } s = .ok held s0 →
         (held = true → ∃ v t, exec f.1 s = .next t ∧ t.mem = s0.mem ∧ t.ls = s0.ls ∧ t.held = s0.held ∧
           t.hart = some ((h.setS s.curStream rd v).advance s.curStream).stirred) ∧
         (held = false → (if o = .rel ∨ o = .ar then settle s.curStream (wideScope sc) s0 = .ok () s1 else s1 = s0) →
           a.atomic va n f.2.1 b e s1 = .ok old s2 →
           ∃ t g, exec f.1 s = .next t ∧ t.mem = s2.mem ∧ t.ls = s2.ls ∧ t.hart = some g ∧ g.pc s.curStream = pcBits (h.pc s.curStream + 4) ∧
             ∀ r, g.sreg s.curStream r = (h.setS s.curStream rd x).sreg s.curStream r))) ∧
  (∀ (s : State) (a : Actor) (va : Word64) (n b e : Nat) (op : AmoOp) (as : HoldAs),
     (s.level = .s2 → a.holdAtomic va n op b e as s = .ok false s) ∧
     ∀ s1 s2 p, s.level ≠ .s2 → a.observe s = .ok () s1 → a.find op.kind va n (some false) true s1 = .ok p s2 →
       (as.fab = false → (∀ f o, p.loc ≠ .peer f o) → a.holdAtomic va n op b e as s = .ok false s2) ∧
       (as.fab = true ∨ (∃ f o, p.loc = .peer f o) → ∃ t w, a.holdAtomic va n op b e as s = .ok true t ∧ t.held = s2.held ++ [w] ∧ t.mem = s2.mem ∧
         w.slot = a.slot ∧ w.stream = a.stream ∧ w.regs = as.regs ∧ w.acquires = as.acquires ∧ w.releases = as.releases ∧ w.work = .atomic va n op b e)) ∧
  ∀ (op : AmoOp) (w old b e : Nat), (w = 32 ∨ w = 64) → old < 2 ^ w → b < 2 ^ w →
    let sg (x : Nat) : Int := if 2 ^ (w - 1) ≤ x then (x : Int) - 2 ^ w else x
    op.result w old b e = match op with
      | .read => none
      | .add => some ((old + b) % 2 ^ w)
      | .swap => some b
      | .max => some (if sg old < sg b then b else old)
      | .min => some (if sg b < sg old then b else old)
      | .maxN => some (max old b)
      | .minN => some (min old b)
      | .and => some (old &&& b)
      | .or => some (old ||| b)
      | .cas => if old = e then some b else none

/-- What the CSRs read as, field by field (R54, R56). -/
def csrValue (h : Hart) (st : StreamId) (cyc : Word64) : Csr → Nat
  | .vl => h.vl.toNat
  | .vt => h.vt.toNat
  | .md => h.md.toNat
  | .tl => 256
  | .resume => (h.resume st).toNat
  | .lanes => h.req % 32 * 2 ^ 8 + h.grant % 32
  | .gcoord => h.gcoord.toNat
  | .cyc => cyc.toNat
  | .bankc => h.agc.toNat * 2 ^ 32 + h.rfc.toNat
  | .nanpc => h.nanpc.toNat
  | .nanlane => (if h.nanv then 2 ^ 63 else 0) + h.nanelem.toNat
  | .rseed => h.rseed.toNat
  | .ecause => h.ecause.toNat
  | .epc => h.epc.toNat
  | .etval => h.etval.toNat
  | .estream => if h.estream then 1 else 0
  | .estatus => h.estatus.pvt.toNat * 2 ^ 48 + h.estatus.pmd.toNat * 2 ^ 37 + h.estatus.pvl.toNat * 2 ^ 20 +
      (if h.estatus.ppriv = .s then 2 ^ 15 else 0) + h.estatus.sub.toNat * 2 ^ 8
  | .thandler => h.thandler.toNat
  | .tstack => h.tstack.toNat
  | .ewin => h.ewin.toNat
  | .xresume => h.resumeX.toNat

/-- The cause that the checks of a CSR access raise; none where they pass (R54, R55). -/
def csrCause (csr : Csr) (st : StreamId) (priv : Priv) (writes : Bool) : Option (BitVec 8) :=
  let xOnly := csr ∈ [Csr.vl, .vt, .md, .nanpc, .nanlane, .rseed]
  let sOnly := csr ∈ [Csr.ecause, .epc, .etval, .estream, .estatus, .thandler, .tstack, .ewin, .xresume]
  let readOnly := csr ∈ [Csr.vl, .vt, .tl, .lanes, .gcoord, .cyc, .nanpc]
  if (xOnly ∧ st = .a) ∨ (csr = .xresume ∧ st = .x) then some 0x03
  else if sOnly ∧ priv = .u then some 0x04
  else if writes = true ∧ readOnly then some 0x01
  else if writes = true ∧ csr = .resume ∧ priv = .u then some 0x04
  else none

/-- A hart in which a CSR that may be written takes a word (R6, R50, R54, R56, R81); `tick` is the step at which it happens. -/
def csrTakes (h : Hart) (st : StreamId) (v : Word64) (tick : Nat) : Csr → Hart
  | .md => { h with md := BitVec.ofNat 11 v.toNat }
  | .resume => match st with
    | .a => { h with resumeA := v }
    | .x => { h with resumeX := v }
  | .bankc => { h with agc := BitVec.ofNat 32 (v.toNat / 2 ^ 32), rfc := BitVec.ofNat 32 v.toNat }
  | .nanlane => if v.toNat < 2 ^ 63 then { h with nanv := false, nanelem := 0, nanpc := 0, nanArm := tick } else h
  | .rseed => { h with rseed := BitVec.ofNat 32 v.toNat, gen := Vector.ofFn fun j =>
      let g := BitVec.ofNat 32 (v.toNat + (j.val + 1) * 0x9E3779B9)
      if g = 0 then 1 else g }
  | .ecause => { h with ecause := BitVec.ofNat 8 v.toNat }
  | .epc => { h with epc := v }
  | .etval => { h with etval := v }
  | .estream => { h with estream := decide (v.toNat % 2 = 1) }
  | .estatus => { h with estatus :=
      { pvt := BitVec.ofNat 8 (v.toNat / 2 ^ 48), pmd := BitVec.ofNat 11 (v.toNat / 2 ^ 37), pvl := BitVec.ofNat 17 (v.toNat / 2 ^ 20)
        ppriv := if v.toNat / 2 ^ 15 % 2 = 1 then .s else .u, sub := BitVec.ofNat 5 (v.toNat / 2 ^ 8) } }
  | .thandler => { h with thandler := BitVec.ofNat 64 (v.toNat / 4 * 4) }
  | .tstack => { h with tstack := v }
  | .ewin => { h with ewin := BitVec.ofNat 64 (v.toNat / 2 ^ 16 * 2 ^ 16) }
  | .xresume => { h with resumeX := v }
  | .vl | .vt | .tl | .lanes | .gcoord | .cyc | .nanpc => h

/-- A hart that has read a CSR: a read of `ecause` ends the entry window, and no other read changes anything (R109, R261). -/
def csrHasRead (h : Hart) (csr : Csr) : Hart := if csr = .ecause then { h with win := false } else h

/-- No matrix stream of the issuing hart has still to be carried out, where the CSR is of the first-NaN record (R87). -/
def nanSettled (s : State) (csr : Csr) : Prop :=
  csr = .nanpc ∨ csr = .nanlane → (s.core (coreOfSlot s.curSlot)).mat.streamsOf s.curSlot = []

/-- R54, R55, R56, R87, R108, R109, R261: `csrr`, and `csrs` and `csrc` with a zero a field, give sd the CSR's value and write nothing
else; a read of the first-NaN record waits for the hart's matrix streams. -/
def Obligations.CsrReads : Prop :=
  ∀ (s : State) (h : Hart) (rd : SReg) (csr : Csr), s.hart = some h → csrCause csr s.curStream h.priv false = none →
    let v := BitVec.ofNat 64 (csrValue h s.curStream (s.core (coreOfSlot s.curSlot)).cyc csr)
    ∀ i ∈ [Instr.csrr rd csr, .csrs rd csr 0, .csrc rd csr 0],
      (nanSettled s csr → exec i s = .next (s.retired ((csrHasRead h csr).setS s.curStream rd v))) ∧
      (¬nanSettled s csr → exec i s = .next (s.waits h .matrix))

/-- R6, R50, R54, R55, R56, R80, R81, R108: `csrw` writes the CSR; `csrs` and `csrc` write it with the bits of sa set or cleared and give sd
its old value; a write of `md` that would leave a reserved rounding code, or a guard number without a guard, raises illegal instruction
and changes nothing. -/
def Obligations.CsrWrites : Prop :=
  ∀ (s : State) (h : Hart) (rd ra : SReg) (csr : Csr), s.hart = some h → csrCause csr s.curStream h.priv true = none → nanSettled s csr →
    let st := s.curStream
    let a := h.sreg st ra
    let old := BitVec.ofNat 64 (csrValue h st (s.core (coreOfSlot s.curSlot)).cyc csr)
    let refused (v : Word64) := csr = .md ∧ (5 ≤ v.toNat / 2 ^ 7 % 8 ∨ (v.toNat / 2 ^ 6 % 2 = 0 ∧ v.toNat % 2 ^ 6 ≠ 0))
    let illegal := (Host.Outcome.next (s.trapped 0x01 (s.curWord.setWidth 64) 0) : Host.Outcome State Fault Refusal)
    (refused a → exec (.csrw csr ra) s = illegal) ∧
    (¬refused a → exec (.csrw csr ra) s = .next (s.retired (csrTakes h st a s.tick csr))) ∧
    ∀ f ∈ [(Instr.csrs rd csr ra, old ||| a), (.csrc rd csr ra, old &&& ~~~a)], ra.val ≠ 0 →
      (refused f.2 → exec f.1 s = illegal) ∧
      (¬refused f.2 → exec f.1 s = .next (s.retired ((csrTakes (csrHasRead h csr) st f.2 s.tick csr).setS st rd old)))

/-- The one stream that may issue a word, from the opcode map (R44, R45); none where both may. -/
def wordOwner (w : Nat) : Option StreamId :=
  let op := w % 2 ^ 7
  if op ∈ [0x1D, 0x1E, 0x40, 0x41, 0x42, 0x44, 0x45, 0x54, 0x55, 0x56, 0x57, 0x60, 0x66, 0x68, 0x6A] then some .x
  else if op = 0x5A ∨ op = 0x5C ∨ (op = 0x64 ∧ w / 2 ^ 22 ≤ 6) ∨ (op = 0x38 ∧ w / 2 ^ 16 = 4) then some .a
  else none

/-- R36, R38, R39, R48, R54, R55: what is checked at issue before anything else: a form in the other stream than its own raises wrong stream, as a queue form
against its queue's direction does (a conversion whose group of registers would pass v63 is an illegal instruction first); a form marked S raises
privileged in U mode; a vector, predicate or scale form, or a vector load or store, raises vector state illegal while vector state is dead; and a CSR
access raises what its checks do in their order. That the stream is checked before a write to a read-only CSR is the model's choice (log 53,
DEDUCED). Each gives the word in etval and changes nothing else. -/
def Obligations.IssueChecksTrap : Prop :=
  ∀ (s : State) (h : Hart) (i : Instr) (w : Nat), s.hart = some h → i.wf = true → encode i = some w →
    let traps (i : Instr) (c : BitVec 8) := exec i s = .next (s.trapped c (s.curWord.setWidth 64) 0)
    (∀ st, wordOwner w = some st → s.curStream ≠ st →
      (∀ vd va fmt, i = .vcvt vd va fmt → h.live = true → vd.val + max 1 (Fmt.ew fmt / Fmt.ew h.fmt) ≤ 64) → traps i 0x03) ∧
    (∀ vd va fmt, i = .vcvt vd va fmt → h.live = true → 64 < vd.val + max 1 (Fmt.ew fmt / Fmt.ew h.fmt) → traps i 0x01) ∧
    (∀ (q : QNo) (r : Fin 64), q.val ≠ 6 → r.val < 32 →
      (s.curStream = (if q.val = 7 then .a else .x) → traps (.qpush q r) 0x03) ∧
      (s.curStream = (if q.val = 7 then .x else .a) → traps (.qpop r q) 0x03 ∧ traps (.qpeek r q) 0x03)) ∧
    (h.priv = .u → ∀ rd ra, ∀ i ∈ [Instr.eret, .trapack, .ctxsave ra, .ctxload ra, .keyset rd ra, .asidset rd ra, .ckfreeze ra, .ckrestore ra],
      traps i 0x04) ∧
    (s.curStream = .x → h.live = false → w % 2 ^ 7 ∈ [0x40, 0x41, 0x42, 0x54, 0x55, 0x56, 0x57] → traps i 0x05) ∧
    ∀ (rd ra : SReg) (csr : Csr) (c : BitVec 8),
      (csrCause csr s.curStream h.priv false = some c → traps (.csrr rd csr) c ∧ traps (.csrs rd csr 0) c ∧ traps (.csrc rd csr 0) c) ∧
      (csrCause csr s.curStream h.priv true = some c → traps (.csrw csr ra) c ∧ (ra.val ≠ 0 → traps (.csrs rd csr ra) c ∧ traps (.csrc rd csr ra) c))

/-- R34, R35, R37, R257, R258: an environment call traps with its number, a breakpoint with 0x3FF, the null word with 0, a word that is no
instruction with the word, and a word that cannot be fetched with the cause of its fetch and its address. -/
def Obligations.CallsAndBadWordsTrap : Prop :=
  ∀ (s : State) (h : Hart), s.hart = some h →
    (∀ n : BitVec 10, exec (.ecall n) s = .next (s.trapped 0x10 (BitVec.ofNat 64 n.toNat) 0)) ∧
    exec .breakpoint s = .next (s.trapped 0x0F 0x3FF 0) ∧
    exec .nullFetch s = .next (s.trapped 0x02 0 0) ∧
    exec .illegalInstruction s = .next (s.trapped 0x01 (BitVec.ofNat 64 s.curWord.toNat) 0) ∧
    exec .fetchForIssueFault s = .next (s.trapped s.curFetch.1 (h.pc s.curStream) s.curFetch.2)

/-- R52, R259, R264: trap entry outside the entry window, where the trap frame can be stored: `ecause`, `epc`, `etval`, `estream` and `estatus` hold
the trap, `md` is zero, the access stream runs the handler in S mode inside the entry window with s31 at the frame, and `resume` of the access stream
is 0; the execute stream's registers, `vl` and `vt` are as they were. The frame's eight doublewords are s28 to s31 of the access stream, its program
counter, or 1 where it was idle, or 0 for a trap of its own, its `resume`, and two zeros. The streams' refresh points and transfers count for both
from then on, and so does what they have in flight to peers or held. That the hart's stores in flight perform at the entry is log 7, the model's
choice. -/
def Obligations.TrapEntrySavesAndEnters : Prop :=
  (∀ (s s1 s2 : State) (h : Hart) (c : BitVec 8) (v : Word64) (b : BitVec 5), s.hart = some h → h.win = false →
     joinHart h.slot s = .ok () s1 → s1.hart = some h → s1.curStream = s.curStream →
     let st := s.curStream
     let saved : Hart := { h with
       ecause := c, epc := h.pc st, etval := v, estream := decide (st = .a), md := 0, waitA := none, waitX := none, waitCap := none, firstWait := none
       openA := none, deadCount := 0, entered := h.frame st
       estatus := { pvt := h.vt, pmd := h.md, pvl := h.vl, ppriv := h.priv, sub := b } }
     storeFrame saved (s1.putHart saved) = .ok () s2 → s2.hart = some saved →
     s.trapped c v b = s2.putHart { saved with
       as := saved.as.set 31 (h.tstack - 64), resumeA := 0, priv := .s, win := true, arun := true, apc := pcBits h.thandler
       refA := max h.refA h.refX, refX := max h.refA h.refX, transfers := h.transfers.map fun t => { t with both := true } }) ∧
  (∀ (h : Hart),
     (h.frame .x).length = 8 ∧ (h.frame .a).length = 8 ∧ h.frameAddr = h.tstack - 64 ∧
     ∀ st, (h.frame st)[0]? = some (h.sreg .a 28) ∧ (h.frame st)[1]? = some (h.sreg .a 29) ∧ (h.frame st)[2]? = some (h.sreg .a 30) ∧
       (h.frame st)[3]? = some (h.sreg .a 31) ∧
       (h.frame st)[4]? = some (if st = .a then 0 else if h.arun = true then h.apc else 1) ∧
       (h.frame st)[5]? = some h.resumeA ∧ (h.frame st)[6]? = some 0 ∧ (h.frame st)[7]? = some 0)

/-- R261: a trap taken inside the entry window is a double fault: the hart halts with the second cause and its value, keeps the registers
that the first trap saved, and every hart of its context stops; the context holds the first double fault. -/
def Obligations.DoubleFaultHalts : Prop :=
  ∀ (s : State) (h : Hart) (c : BitVec 8) (v : Word64) (b : BitVec 5), s.hart = some h → h.win = true →
    ∃ g, (s.trapped c v b).hart = some g ∧ g.halted = some (c, v) ∧ g.stopped = true ∧ g.retake = true ∧ g.epc = h.epc ∧ g.ecause = h.ecause ∧
      g.etval = h.etval ∧ g.estatus = h.estatus ∧ (∀ e ∈ (s.trapped c v b).harts, e.2.asid = h.asid → e.2.stopped = true) ∧
      (s.trapped c v b).mem = s.mem ∧
      ∀ x, SMap.get? s.contexts h.asid = some x → x.fault = none →
        ∃ y, SMap.get? (s.trapped c v b).contexts h.asid = some y ∧
          y.fault = some { core := coreOfSlot h.slot, place := h.slot % 16, epc := h.epc, etval := h.etval, cause := c, addr := v }

/-- R39, R52, R262, R263: `eret` outside the entry window, where the frame can be read, restores s28 to s31, both program counters, `resume`, `vl`,
`vt`, `md` and the privilege; the frame is read once the handler's own stores to it have been made; `trapack` ends the entry window; both raise
privileged in U mode. The model's choices: the hart's stores in flight perform at the return (log 7), and a vector type that the handler has changed is put in force alone (log 36). -/
def Obligations.TrapReturnRestores : Prop :=
  ∀ (s s1 s2 : State) (h : Hart) (x : List Word64), s.hart = some h →
    (h.priv = .u → exec .eret s = .next (s.trapped 0x04 (s.curWord.setWidth 64) 0) ∧ exec .trapack s = .next (s.trapped 0x04 (s.curWord.setWidth 64) 0)) ∧
    (h.priv = .s → exec .trapack s = .next (s.retired { h with win := false })) ∧
    (h.priv = .s → h.win = false → joinHart h.slot s = .ok () s1 → readFrame h s1 = .ok x s2 → s2.hart = some h →
      let w (i : Nat) := x.getD i 0
      let regs := (((h.as.set 28 (w 0)).set 29 (w 1)).set 30 (w 2)).set 31 (w 3)
      exec .eret s = .next (s2.putHart { h with
        as := regs, refA := max h.refA h.refX, refX := max h.refA h.refX, transfers := h.transfers.map fun t => { t with both := true }
        resumeA := w 5, vl := h.estatus.pvl, vt := h.estatus.pvt, md := h.estatus.pmd, priv := h.estatus.ppriv
        apc := if h.estream = true then pcBits h.epc else if w 4 = 1 then h.apc else pcBits (w 4)
        xpc := if h.estream = true then h.xpc else pcBits h.epc
        arun := if h.estream = true then h.arun else decide (w 4 ≠ 1)
        waitA := none, waitX := none, deadCount := 0 }))

/-- R158, R267: `yield` retires, and a hart with a deadline leaves, the deadline erased by log 51; a `fence` waits while engine work of its stream
is in flight, or work, stores or arrivals of it that S1 or a closed route holds, and else retires. Log 6 says what it does to the stream's earlier
stores, for which R158 has it wait: at `.dev` and `.fab` they perform as it issues, with those that another hart's order has put before what this hart
does, and where some of them cannot go out yet the fence waits; at a narrower scope they perform before the observers inside it make another
access. -/
def Obligations.YieldAndFence : Prop :=
  ∀ (s s1 : State) (h : Hart) (sc : Scope) (k : FenceKind), s.hart = some h →
    exec .yield s = .next (s.retired (if h.deadline.isSome then
      { h with coop := true, stopped := true, deadline := none, waitCap := none, firstWait := none, openA := none } else h)) ∧
    ((∃ t ∈ h.transfers, (t.stream = s.curStream ∨ t.both = true) ∧ t.counted = true) → exec (.fence sc k) s = .next (s.waits h .fence)) ∧
    ((∀ t ∈ h.transfers, t.stream = s.curStream ∨ t.both = true → t.counted = false) →
      (∃ w ∈ s.held, w.of h.slot s.curStream = true) ∨ (∃ p ∈ s.pending, p.of h.slot s.curStream = true ∧ s.stays p = true) ∨
        s.arrivalHeld h s.curStream = true →
      exec (.fence sc k) s = .next (s.waits h .level)) ∧
    (s.unblocked h →
      let before (p : PendingStore) := p.precedes h.slot s.curStream
      let retires (t : State) := ∃ g, exec (.fence sc k) s = .next t ∧ t.hart = some g ∧ g.pc s.curStream = pcBits (h.pc s.curStream + 4) ∧
        (∀ st r, g.sreg st r = h.sreg st r) ∧ (k ≠ .st → sc ≠ .hart → (match s.curStream with | .a => g.refA | .x => g.refX) = s.tick)
      (k = .ld → ∃ t, retires t ∧ t.mem = s.mem ∧ t.ls = s.ls ∧ t.pending = s.pending) ∧
      (k ≠ .ld → sc ≠ .dev → sc ≠ .fab → ∃ t, retires t ∧ t.mem = s.mem ∧ t.ls = s.ls ∧
        t.pending = s.pending.map fun p => if before p = true then p.dueAt sc else p) ∧
      (k ≠ .ld → sc = .dev ∨ sc = .fab → drain before (s.orderCuts h.slot s.curStream) = .ok () s1 → s1.hart = some h → s1.curStream = s.curStream →
        ((∀ p ∈ s1.pending, before p = false) → ∃ t, retires t ∧ t.mem = s1.mem ∧ t.ls = s1.ls ∧ t.pending = s1.pending) ∧
        ((∃ p ∈ s1.pending, before p = true) → exec (.fence sc k) s = .next (s1.waits h .level))))

/-- The vector loads of one register: the form, whether it admits `b4`, whether its base and stride are aligned, its first misaligned
address, and the address of each element (R138, R139, R144). -/
def vectorLoadForms (h : Hart) (vd : VRegNo) (ra rb : SReg) (disp : BitVec 9) (fr : Bool) : List (Instr × Bool × Bool × Word64 × (Nat → Word64)) :=
  let n := max 1 (Fmt.ew h.fmt / 8)
  let d := h.addrMd .x ra disp
  let x := h.addrMx .x ra rb
  let base := h.sreg .x ra
  let stride := h.sreg .x rb
  let ok (a : Word64) : Bool := a.toNat % n = 0
  let step (i : Nat) : Nat := if h.fmt = .b4 then i / 2 else i * n
  [(.vldMd vd ra disp fr, true, ok d, d, fun i => BitVec.ofNat 64 (d.toNat + step i)),
   (.vldMx vd ra rb fr, true, ok x, x, fun i => BitVec.ofNat 64 (x.toNat + step i)),
   (.vlds vd ra rb fr, false, ok base && ok stride, if ok base then base + stride else base, fun i => BitVec.ofNat 64 (base.toNat + i * stride.toNat))]

/-- The vector stores of one register, in the same words (R144). -/
def vectorStoreForms (h : Hart) (vs : VRegNo) (ra rb : SReg) (disp : BitVec 9) : List (Instr × Bool × Bool × Word64 × (Nat → Word64)) :=
  let l := vectorLoadForms h vs ra rb disp false
  let i : List Instr := [.vstMd vs ra disp, .vstMx vs ra rb, .vsts vs ra rb]
  (i.zip l).map fun (i, f) => (i, f.2)

/-- R114, R139, R144, R147: a vector load whose checks pass and whose elements can be loaded loads those from `resume` on that are active,
tags its register, leaves `resume` at 0 and retires; at `vl` = 0 it retires at once; a misaligned base or stride traps. That a misaligned
stride gives base plus stride is log 38, the model's reading of R139. -/
def Obligations.VectorLoadsComplete : Prop :=
  ∀ (s s1 s2 : State) (h g : Hart) (vd : VRegNo) (ra rb : SReg) (disp : BitVec 9) (fr : Bool), ∀ f ∈ vectorLoadForms h vd ra rb disp fr,
    s.opens (fun x => f.2.1 || decide (x ≠ .b4)) { vw := [vd.val] } s1 h →
    (h.vl = 0 → exec f.1 s = .next (s1.retired (h.setResume .x 0))) ∧
    (h.vl ≠ 0 → f.2.2.1 = false → exec f.1 s = .next (s.trapped 0x08 f.2.2.2.1 0)) ∧
    (h.vl ≠ 0 → f.2.2.1 = true → s1.curStop = none →
      each h.toTake (fun i => loadElem fr vd.val i (f.2.2.2.2 i)) s1 = .ok () s2 → s2.hart = some g → s2.curStream = .x →
      exec f.1 s = .next (s2.retired ((g.setV vd (g.vbitsOf vd) g.fmt).setResume .x 0)))

/-- R149, R220: a fault-first load whose elements can all be loaded is a vector load; where an element past the first taking one faults, it truncates
`vl` at that element and retires. Which faults truncate is log 38, the model's choice. -/
def Obligations.FaultFirstLoads : Prop :=
  ∀ (s s1 s2 s3 : State) (h g : Hart) (vd : VRegNo) (ra rb : SReg) (disp : BitVec 9) (fr : Bool), s.opens anyFmt { vw := [vd.val] } s1 h → h.vl ≠ 0 →
    s1.curStop = none → ∀ f ∈ [(Instr.vldffMd vd ra disp fr, h.addrMd .x ra disp), (.vldffMx vd ra rb fr, h.addrMx .x ra rb)], f.2.toNat % max 1 (Fmt.ew h.fmt / 8) = 0 →
      let addr (i : Nat) := BitVec.ofNat 64 (f.2.toNat + if h.fmt = .b4 then i / 2 else i * max 1 (Fmt.ew h.fmt / 8))
      let load (i : Nat) := loadElem fr vd.val i (addr i)
      s2.hart = some g → s2.curStream = .x →
      (each h.toTake load s1 = .ok () s2 → exec f.1 s = .next (s2.retired ((g.setV vd (g.vbitsOf vd) g.fmt).setResume .x 0))) ∧
      ∀ first k rest c v b keep, h.toTake = first ++ k :: rest → first ≠ [] → each first load s1 = .ok () s2 →
        load k s2 = .error (.trap c v b keep) s3 →
        ∃ t, exec f.1 s = .next t ∧ t.mem = s2.mem ∧ t.ls = s2.ls ∧
          t.hart = some ((({ g.setV vd (g.vbitsOf vd) g.fmt with vl := BitVec.ofNat 17 k }).setResume .x 0).advance .x).stirred

/-- R144, R145, R146, R147: a vector store whose checks pass and whose elements can be stored stores the active elements from `resume` on,
leaves `resume` at 0 and retires. The model's choices, log 38: what its elements have written of poisoned sectors is noted together from its
first element to its end, and a misaligned stride gives base plus stride. -/
def Obligations.VectorStoresComplete : Prop :=
  ∀ (s s1 s2 : State) (h g : Hart) (vs : VRegNo) (ra rb : SReg) (disp : BitVec 9), ∀ f ∈ vectorStoreForms h vs ra rb disp,
    s.opens (fun x => f.2.1 || decide (x ≠ .b4)) { vs := [vs.val] } s1 h →
    (h.vl = 0 → exec f.1 s = .next (s1.retired (h.setResume .x 0))) ∧
    (h.vl ≠ 0 → f.2.2.1 = false → exec f.1 s = .next (s.trapped 0x08 f.2.2.2.1 0)) ∧
    (h.vl ≠ 0 → f.2.2.1 = true → s1.curStop = none →
      each h.toTake (fun i => storeElem vs.val i (f.2.2.2.2 i)) (s1.storing h .x) = .ok () s2 → s2.hart = some g → s2.curStream = .x →
      exec f.1 s = .next ((s2.stored g .x).retired (g.setResume .x 0)))

/-- R144, R147, R154: segment loads and stores take the fields of each active element together, in the order of memory; `ksld` takes the
scale bytes of the body, under no guard. What a segment store writes of poisoned sectors is noted as log 38 says. -/
def Obligations.SegmentsAndScalesComplete : Prop :=
  ∀ (s s1 s2 : State) (h g : Hart) (n : Fin 7) (v : VRegNo) (kd : KRegNo) (ra rb : SReg) (disp : BitVec 9) (fr : Bool),
    let m := n.val + 2
    let group := (List.range m).map (v.val + ·)
    let size := max 1 (Fmt.ew h.fmt / 8)
    let addr (base : Word64) (i k : Nat) := BitVec.ofNat 64 (base.toNat + (m * i + k) * size)
    let noB4 (x : Fmt) := decide (x ≠ .b4)
    (s.opens noB4 { vw := group } s1 h → ∀ f ∈ [(Instr.vldsegMd n v ra disp, h.addrMd .x ra disp), (.vldsegMx n v ra rb, h.addrMx .x ra rb)],
      (h.vl = 0 → exec f.1 s = .next (s1.retired (h.setResume .x 0))) ∧
      (h.vl ≠ 0 → f.2.toNat % size ≠ 0 → exec f.1 s = .next (s.trapped 0x08 f.2 0)) ∧
      (h.vl ≠ 0 → f.2.toNat % size = 0 → s1.curStop = none → s2.hart = some g → s2.curStream = .x →
        each h.toTake (fun i => each (List.range m) fun k => loadElem false (v.val + k) i (addr f.2 i k)) s1 = .ok () s2 →
        exec f.1 s = .next (s2.retired ((group.foldl (fun x r => x.setV r (x.vbitsOf r) x.fmt) g).setResume .x 0)))) ∧
    (s.opens noB4 { vs := group } s1 h → ∀ f ∈ [(Instr.vstsegMd n v ra disp, h.addrMd .x ra disp), (.vstsegMx n v ra rb, h.addrMx .x ra rb)],
      (h.vl = 0 → exec f.1 s = .next (s1.retired (h.setResume .x 0))) ∧
      (h.vl ≠ 0 → f.2.toNat % size ≠ 0 → exec f.1 s = .next (s.trapped 0x08 f.2 0)) ∧
      (h.vl ≠ 0 → f.2.toNat % size = 0 → s1.curStop = none → s2.hart = some g → s2.curStream = .x →
        each h.toTake (fun i => each (List.range m) fun k => storeElem (v.val + k) i (addr f.2 i k)) (s1.storing h .x) = .ok () s2 →
        exec f.1 s = .next ((s2.stored g .x).retired (g.setResume .x 0)))) ∧
    (s.hart = some h → s.curStream = .x → h.live = true → s.curStop = none → s2.hart = some g → s2.curStream = .x →
      let count := (h.vl.toNat + vtBl h.vt - 1) / vtBl h.vt
      let stride := (h.sreg .x rb).toNat
      let body (j : Nat) : M Unit := do
        let va := BitVec.ofNat 64 ((h.sreg .x ra).toNat + j * stride)
        interlock va 1 false
        let a ← vectorActor
        let b ← a.load (if fr then .fresh else .plain) va 1
        modHart fun x => { x with k := vput x.k kd.val (putBits (x.k.getD kd.val 0) (8 * j) 8 b) }
      each ((List.range count).drop h.resumeX.toNat) body s = .ok () s2 →
      exec (.ksld kd ra rb fr) s = .next (s2.retired (g.setResume .x 0)))

/-- R138, R144, R145: a vector load from the local store, with no store in flight and no transfer, gives each active element from `resume`
on the bytes at its address, lowest first, a `b4` element the nibble of its byte; and each element that a vector store issues, `vsts` with
elements that do not meet among them, joins the stores in flight with the bits of its element (log 7, the model's choice). -/
def Obligations.LocalStoreVectorAccess : Prop :=
  ∀ (s s1 : State) (h : Hart) (v : VRegNo) (ra rb : SReg) (disp : BitVec 9) (fr : Bool) (core : Nat) (off : Nat → Nat), h.vl ≠ 0 → h.transfers = [] →
    s1.pending = [] → s1.held = [] → s1.lsPoison = [] → s1.poison = [] → s1.curStop = none →
    let size := max 1 (Fmt.ew h.fmt / 8)
    let apart (i j : Nat) : Prop := off i + size ≤ off j ∨ off j + size ≤ off i
    (∀ f ∈ vectorLoadForms h v ra rb disp fr, s.opens (fun x => f.2.1 || decide (x ≠ .b4)) { vw := [v.val] } s1 h → f.2.2.1 = true →
      (∀ i ∈ h.toTake, s1.localPlace h (f.2.2.2.2 i) size core (off i) ∧ s1.inSpill (s1.actor h .x) (f.2.2.2.2 i) size = false) →
      ∃ b, exec f.1 s = .next (s1.retired ((h.setV v b h.fmt).setResume .x 0)) ∧
        (∀ i ∈ h.toTake, elemOf (Fmt.ew h.fmt) b i =
          if h.fmt = .b4 then (s1.ls.read (lsIndex core (off i))).toNat / 16 ^ (i % 2) % 16 else s1.ls.readLE (lsIndex core (off i)) size) ∧
        ∀ i, i ∉ h.toTake → elemOf (Fmt.ew h.fmt) b i = h.bitsAt v i) ∧
    (∀ f ∈ vectorStoreForms h v ra rb disp, s.opens (fun x => f.2.1 || decide (x ≠ .b4)) { vs := [v.val] } s1 h → f.2.2.1 = true →
      (∀ i ∈ h.toTake, s1.localPlace h (f.2.2.2.2 i) size core (off i)) → (h.fmt ≠ .b4 → ∀ i ∈ h.toTake, ∀ j ∈ h.toTake, i ≠ j → apart i j) →
      ∃ t, exec f.1 s = .next t ∧ t.hart = some ((h.setResume .x 0).advance .x).stirred ∧ t.mem = s1.mem ∧ t.ls = s1.ls ∧
        t.pending.map (·.bytes) = h.toTake.map fun i =>
          if h.fmt = .b4 then [{ loc := .ls core (off i), val := BitVec.ofNat 8 (h.bitsAt v i * 16 ^ (i % 2)), mask := BitVec.ofNat 8 (15 * 16 ^ (i % 2)) }]
          else storeBytes (.ls core (off i)) size (h.bitsAt v i) (2 ^ (8 * size) - 1))

/-- R139, R151, R152, R153: a gather reserves a place of its queue, takes its elements in order and leaves them for the fill; a scatter
reserves a status place, performs each element at its home and leaves the count for the fill; either has no open entry of its own any more. The
model's choices: the elements are taken as the instruction issues (log 12), a conflict with a transfer waits (log 11), and what a scatter writes of
poisoned sectors is noted (log 38). -/
def Obligations.GathersAndScattersComplete : Prop :=
  ∀ (s s1 s2 : State) (h g : Hart) (q : QNo) (ew : Ew) (fr : Bool) (ra rb rc : SReg), s.curStream = .a → s.hart = some h → h.resumeA = 0 →
    s.curStop = none →
    let n := match ew with
      | .b => 1
      | .h => 2
      | .w => 4
      | .d => 8
    let base := h.sreg .a ra
    let list := h.sreg .a rb
    let count := min (h.sreg .a rc).toNat 4096
    let pc := h.apc
    let h' : Hart := { h with openA := none }
    let s' := s.putHart h'
    base.toNat % n = 0 → list.toNat % 8 = 0 → s'.tableUsed (coreOfSlot s.curSlot) + 2 ≤ 64 → drainHart h.slot s' = .ok () s1 → s1.hart = some h' →
    s1.curStream = .a → s2.hart = some g → s2.curStream = .a → g.apc = pc →
    (q.val < 4 → let places := h.vq.getD q.val []
      heldEntry places pc = none → places.length < 4 →
      each (List.range count) (gatherElem q n fr base list)
        (s1.putHart { h' with vq := vput h.vq q.val (places ++ [.stopped pc { esize := n, elems := [] }]) }) = .ok () s2 →
      (heldEntry (g.vq.getD q.val []) pc).map (fun e => e.elems.length) = some count →
      ∀ i ∈ [Instr.vgat q ew fr ra rb rc, .vgatff q ew fr ra rb rc], exec i s = .next (s2.retired ({ g with
        vq := vput g.vq q.val (replaceHeld (g.vq.getD q.val []) pc fun e => [.reserved { e with elems := e.elems.take count } false]) }.setResume .a 0))) ∧
    (q.val = 4 ∨ q.val = 5 → let places := h.squeue q
      SPlace.stopped pc ∉ places → places.length < 16 →
      let elems (put : Actor → Word64 → Nat → M Unit) := each (List.range count) fun i => do
        let idx ← listWord (list + BitVec.ofNat 64 (16 * i))
        let val ← listWord (list + BitVec.ofNat 64 (16 * i + 8))
        let va := base + idx * BitVec.ofNat 64 n
        interlock va n true
        let a ← actor
        put { a with job := some pc.toNat } va (val.toNat % 2 ^ (8 * n))
      let taken := State.storing (s1.putHart (h'.setSqueue q (places ++ [.stopped pc]))) h' .a
      let status (x : Hart) := x.setSqueue q ((x.squeue q).map fun p => if p = SPlace.stopped pc then SPlace.reserved (BitVec.ofNat 64 count) else p)
      (elems (fun a va v => a.storeNow va n v) taken = .ok () s2 →
        exec (.vsca q ew ra rb rc) s = .next ((s2.stored g .a).retired ((status g).setResume .a 0))) ∧
      (elems (fun a va v => do
          let held ← a.holdAtomic va n .add v 0 {}
          if held then pure ()
          else
            let _ ← a.atomic va n .add v 0) taken = .ok () s2 →
        exec (.vscaa q ew ra rb rc) s = .next ((s2.stored g .a).retired ((status g).setResume .a 0))))

/-- R138, R151, R152, R231: a gather whose list and data lie in the local store, with no store in flight and no transfer, leaves an entry
that holds, for each of its list's indices in order, the bytes at base + index × esize, taken as it issues (log 12, the model's choice). -/
def Obligations.LocalStoreGather : Prop :=
  ∀ (s : State) (h : Hart) (q : QNo) (ew : Ew) (fr : Bool) (ra rb rc : SReg) (core listOff : Nat) (dataOff : Nat → Nat), s.curStream = .a →
    s.hart = some h → h.resumeA = 0 → h.transfers = [] → s.pending = [] → s.held = [] → s.lsPoison = [] → s.curStop = none → q.val < 4 →
    (s.putHart { h with openA := none }).tableUsed (coreOfSlot s.curSlot) + 2 ≤ 64 → heldEntry (h.vq.getD q.val []) h.apc = none →
    (h.vq.getD q.val []).length < 4 →
    let n := match ew with
      | .b => 1
      | .h => 2
      | .w => 4
      | .d => 8
    let base := h.sreg .a ra
    let list := h.sreg .a rb
    let count := min (h.sreg .a rc).toNat 4096
    let index (i : Nat) := s.ls.readLE (lsIndex core (listOff + 8 * i)) 8
    let va (i : Nat) := BitVec.ofNat 64 (base.toNat + index i * n)
    base.toNat % n = 0 → list.toNat % 8 = 0 →
    (∀ i, i < count → s.localPlace h (BitVec.ofNat 64 (list.toNat + 8 * i)) 8 core (listOff + 8 * i) ∧ s.localPlace h (va i) n core (dataOff i) ∧
      s.inSpill (s.actor h .a) (BitVec.ofNat 64 (list.toNat + 8 * i)) 8 = false ∧ s.inSpill (s.actor h .a) (va i) n = false) →
    exec (.vgat q ew fr ra rb rc) s = .next (s.retired ({ h with openA := none, vq := vput h.vq q.val (h.vq.getD q.val [] ++
      [VPlace.reserved { esize := n, elems := (List.range count).map fun i => BitVec.ofNat 64 (s.ls.readLE (lsIndex core (dataOff i)) n) } false]) }.setResume .a 0))

/-- R20, R152, R153, R231, R319: a fill makes the reserved place that it names ready, with the entry or the count it was reserved with, and changes no
other place; while S1 holds an element of it, it does not come. That the elements are taken at issue and the fill only makes the place ready is log
12, the model's choice. -/
def Obligations.FillsMakePlacesReady : Prop :=
  ∀ (s : State) (h : Hart), SMap.get? s.harts s.curEv.a = some h → h.acked = false →
    let q := s.curEv.b
    let c := s.curEv.c
    let out (g : Hart) := (Host.Outcome.next { s with harts := SMap.put s.harts s.curEv.a g.stirred } : Host.Outcome State Fault Refusal)
    let heldLoad := ∃ w ∈ s.held, w.slot = s.curEv.a ∧ RegName.q q ∈ w.regs
    let heldStore := (∃ w ∈ s.held, w.of s.curEv.a .a = true) ∨ s.keeps (fun p => p.of s.curEv.a .a) = true
    (heldLoad → exec .gatherFill s = .next s ∧ exec .kvxFill s = .next s) ∧ (heldStore → exec .scatterStatusFill s = .next s) ∧
    (∀ e, ¬heldLoad → (h.vq.getD q [])[c]? = some (VPlace.reserved e false) →
      exec .gatherFill s = out { h with vq := vput h.vq q ((h.vq.getD q []).set c (.ready e)) }) ∧
    (∀ e, ¬heldLoad → (h.vq.getD q [])[c]? = some (VPlace.reserved e true) →
      exec .kvxFill s = out { h with vq := vput h.vq q ((h.vq.getD q []).set c (.ready e)) }) ∧
    (∀ n, ¬heldStore → q = 4 → h.q4[c]? = some (SPlace.reserved n) → exec .scatterStatusFill s = out { h with q4 := h.q4.set c (.ready n) }) ∧
    (∀ n, ¬heldStore → q = 5 → h.q5[c]? = some (SPlace.reserved n) → exec .scatterStatusFill s = out { h with q5 := h.q5.set c (.ready n) })

/-- The element that `kvx` gives for a position, by the descriptor's number of blocks, its block's page entry and its bitmap (R319): the address
of the token's row, or all ones where the position is negative or past the table, the block has no page, or its bit is not set. -/
def rowOf (nblk : Nat) (pos page map : Word64) : Word64 :=
  let t := pos.toNat % 64
  if pos.toInt < 0 ∨ nblk ≤ pos.toNat / 64 ∨ page = 0 ∨ map.getLsbD t = false then 0xFFFFFFFFFFFFFFFF
  else BitVec.ofNat 64 (page.toNat / 2 ^ 16 * 2 ^ 16 + 512 * (List.range t).countP fun i => map.getLsbD i)

/-- R318, R319, R320: `kvx` reads its descriptor, reserves a place, and leaves an element for each position. Where the descriptor, the list and the
table lie in the local store, with no store in flight and no transfer, the elements are the rows of R319, or all ones; and wherever they lie, what
each position's words give. That the elements are taken at issue is log 12, the model's choice. -/
def Obligations.KeyValueIndexForms : Prop :=
  ∀ (s : State) (h : Hart) (q : QNo) (ra rb rc : SReg), s.curStream = .a → s.hart = some h → h.resumeA = 0 → s.curStop = none → q.val < 4 →
    let desc := h.sreg .a ra
    let list := h.sreg .a rb
    let count := min (h.sreg .a rc).toNat 4096
    let places := h.vq.getD q.val []
    let h' : Hart := { h with openA := none }
    let s' := s.putHart h'
    desc.toNat % 8 = 0 → list.toNat % 8 = 0 → s.free h' desc 24 false → heldEntry places h.apc = none → places.length < 4 →
    (∀ (pages maps nblk : Word64) (pos page map : Nat → Word64), h.transfers = [] → s.pending = [] → s.held = [] → s.lsPoison = [] →
      s'.tableUsed (coreOfSlot s.curSlot) + 3 ≤ 64 → s.localWord h desc pages → s.localWord h (desc + 8) maps → s.localWord h (desc + 16) nblk →
      nblk.toNat ≤ 16384 → pages.toNat % 8 = 0 → maps.toNat % 8 = 0 →
      (∀ i, i < count → s.localWord h (list + BitVec.ofNat 64 (8 * i)) (pos i)) →
      (∀ i, i < count → 0 ≤ (pos i).toInt → (pos i).toNat / 64 < nblk.toNat →
        s.localWord h (pages + BitVec.ofNat 64 (8 * ((pos i).toNat / 64))) (page i) ∧
        (page i ≠ 0 → s.localWord h (maps + BitVec.ofNat 64 (8 * ((pos i).toNat / 64))) (map i))) →
      exec (.kvx q ra rb rc) s = .next (s.retired ({ h' with vq := vput h.vq q.val (places ++
        [VPlace.reserved { esize := 8, elems := (List.range count).map fun i => rowOf nblk.toNat (pos i) (page i) (map i) } true]) }.setResume .a 0))) ∧
    ∀ (s0 s1 s2 : State) (g : Hart) (b : Nat),
      eachFold (List.range 3) 0 (fun v i => do
        let x ← (s.actor h .a).load .home (desc + BitVec.ofNat 64 (8 * i)) 8
        pure (v + x * 2 ^ (64 * i))) s' = .ok b s0 →
      let pages := BitVec.ofNat 64 b
      let maps := BitVec.ofNat 64 (b / 2 ^ 64)
      let nblk := b / 2 ^ 128
      nblk ≤ 16384 → pages.toNat % 8 = 0 → maps.toNat % 8 = 0 →
      s0.tableUsed (coreOfSlot s0.curSlot) + 3 ≤ 64 → s0.hart = some h' → s0.curStream = .a →
      drainHart h.slot s0 = .ok () s1 → s1.hart = some h' → s1.curStream = .a → s1.curStop = none →
      each (List.range count) (fun i => do
        let pos ← listWord (list + BitVec.ofNat 64 (8 * i))
        let x : Word64 ←
          if pos.toInt < 0 ∨ nblk ≤ pos.toNat / 64 then pure 0xFFFFFFFFFFFFFFFF
          else do
            let page ← listWord (pages + BitVec.ofNat 64 (8 * (pos.toNat / 64)))
            if page = 0 then pure 0xFFFFFFFFFFFFFFFF
            else do
              let map ← listWord (maps + BitVec.ofNat 64 (8 * (pos.toNat / 64)))
              pure (rowOf nblk pos page map)
        putEntry q i x)
        (s1.putHart { h' with vq := vput h.vq q.val (places ++ [.stopped h.apc { esize := 8, elems := [] }]) }) = .ok () s2 →
      s2.hart = some g → s2.curStream = .a → g.apc = h.apc → (heldEntry (g.vq.getD q.val []) h.apc).map (fun e => e.elems.length) = some count →
      exec (.kvx q ra rb rc) s = .next (s2.retired ({ g with
        vq := vput g.vq q.val (replaceHeld (g.vq.getD q.val []) h.apc fun e => [.reserved { e with elems := e.elems.take count } true]) }.setResume .a 0))

/-- R349, R350, R352, R353, R354, R355, R357: the cutter forms where their checks and accesses succeed: `cut` writes its bound register with the tile
it took, the empty record past the last row; `cutp` finds every fault of its sources before it copies, element by element, and `cutd` clears its rows
and then writes the nonzeros one by one; they set the packed and the dense mark of the record they used. How much of the descriptor and the map is
checked, and where a nonzero with no place goes, is log 40, and how the entries of two unordered forms mix is log 12, the model's choice. -/
def Obligations.CutterFormsComplete : Prop :=
  ∀ (s s1 s2 s3 s4 s5 s6 : State) (h g : Hart) (bd : BRegNo) (ra rb : SReg) (d : Sparse), s.hart = some h → s.curStream = .a → s6.hart = some g →
    s6.curStream = .a →
    let va := h.sreg .a ra
    let cursor := (h.sreg .a rb).toNat
    let r := cursor % 2 ^ 32
    let bound := BoundRec.of (h.b.getD bd.val 0)
    (cutterIssue 5 s = .ok () s1 → s1.hart = some h → s1.curStream = .a → readSparse va s1 = .ok d s2 →
      (r = d.nrows → ∀ k, entry32 d.rowptr d.nrows s2 = .ok k s3 →
        putBound bd d { desc := va, r0 := r, k0 := k, rn := r, k1 := k, r1 := r, nc := 0, empty := true, split := false, last := true
                        pdone := false, ddone := false } s3 = .ok () s6 → exec (.cut bd ra rb) s = .next (s6.retired g)) ∧
      (r < d.nrows → ∀ p0 p1 c, entry32 d.rowptr r s2 = .ok p0 s3 → entry32 d.rowptr (r + 1) s3 = .ok p1 s4 →
        let k := max (cursor / 2 ^ 32) p0
        k ≤ p1 → cutRows d r k 256 { r1 := r, k1 := k, nz := 0, set := [], split := false } s4 = .ok c s5 →
        let rn := if c.split then r else c.r1
        (do
          each (c.set.zipIdx) fun (col, j) =>
            each (List.range d.cw) fun v => cutEntry (d.cmap + BitVec.ofNat 64 (4 * (d.cw * j + v))) 4 (d.cw * col + v)
          putBound bd d { desc := va, r0 := r, k0 := k, rn := rn, k1 := c.k1, r1 := c.r1, nc := d.cw * c.set.length
                          empty := decide (c.k1 = k), split := c.split, last := decide (rn = d.nrows), pdone := false, ddone := false }) s5 = .ok () s6 →
        exec (.cut bd ra rb) s = .next (s6.retired g))) ∧
    (∀ dst src, cutterIssue 5 s = .ok () s1 → s1.hart = some h → s1.curStream = .a → bound.desc ≠ 0 → bound.pdone = false → bound.ddone = false →
      readSparse bound.desc s1 = .ok d s2 → va.toNat % 64 = 0 → (h.sreg .a rb).toNat % 64 = 0 → s2.hart = some h → s2.curStream = .a →
      cutRecord va true s2 = .ok dst s3 → cutRecord (h.sreg .a rb) false s3 = .ok src s4 →
      dst.fmt = src.fmt → dst.dim 0 ≤ src.dim 0 → bound.nc ≤ dst.dim 1 → d.ncols ≤ src.dim 1 →
      (do
        recordPlaced dst true
        recordPlaced src false
        let map ← readMap d bound.nc
        let source (i j : Nat) : M Nat := if j < bound.nc then cutRead (src.at i (map.getD j 0) 0 0).1 (esizeOf dst.fmt) else pure 0
        each (List.range (dst.dim 1)) fun j => each (List.range (dst.dim 0)) fun i => do
          let _ ← probe (source i j)
        each (List.range (dst.dim 1)) fun j => each (List.range (dst.dim 0)) fun i => do
          let v ← source i j
          cutWrite (dst.at i j 0 0).1 (esizeOf dst.fmt) v
        putBound bd d { bound with pdone := true }) s4 = .ok () s6 →
      exec (.cutp bd ra rb) s = .next (s6.retired g) ∧ g.b.getD bd.val 0 = ({ bound with pdone := true } : BoundRec).word) ∧
    (∀ dst map, cutterIssue 7 s = .ok () s1 → s1.hart = some h → s1.curStream = .a → bound.pdone = true → bound.ddone = false →
      readSparse bound.desc s1 = .ok d s2 → s2.hart = some h → s2.curStream = .a → va.toNat % 64 = 0 → cutRecord va true s2 = .ok dst s3 →
      let row0 := (h.sreg .a rb).toNat % 2 ^ 16
      let rows := (bound.r1 - bound.r0) * d.h
      dst.fmt = d.fmt → bound.nc ≤ dst.dim 0 → row0 + rows ≤ dst.dim 1 → recordPlaced dst true s3 = .ok () s4 → readMap d bound.nc s4 = .ok map s5 →
      (do
        each (List.range rows) fun i => each (List.range (dst.dim 0)) fun c => cutWrite (dst.at c (row0 + i) 0 0).1 (esizeOf dst.fmt) 0
        each (List.range (bound.k1 - bound.k0)) fun i => do
          let item ← tileItem d bound dst map (bound.k0 + i)
          each (item.2.2.zipIdx.filter fun (e : Nat × Nat) => decide (item.2.1 + e.2 % d.cw < dst.dim 0)) fun (v, q) =>
            cutWrite (dst.at (item.2.1 + q % d.cw) (row0 + item.1 * d.h + q / d.cw) 0 0).1 (esizeOf dst.fmt) v
        putBound bd d { bound with ddone := true }) s5 = .ok () s6 →
      exec (.cutd bd ra rb) s = .next (s6.retired g) ∧ g.b.getD bd.val 0 = ({ bound with ddone := true } : BoundRec).word) ∧
    (bound.pdone = false → cutterIssue 7 s = .ok () s1 → s1.hart = some h → s1.curWord = s.curWord →
      exec (.cutd bd ra rb) s = .next (s.trapped 0x14 (s.curWord.setWidth 64) 11))

/-- R83, R84, R92, R129, R331, R332: `vcvt` converts its active elements, each rounded once, into its destination's registers; `smerge` merges two
triples element by element; `sapply` runs a score program on each active element. The model's choices: which conversions step a generator (log 21),
NaNs in conversions that round nothing (log 39), which NaN of `sapply` is noted (log 45), and that `smerge` rounds nothing where its m is a NaN
(log 56). -/
def Obligations.ConversionsMergesAndScores : Prop :=
  ∀ (s s1 : State) (h : Hart) (vd va vb : VRegNo) (fmt : Fmt) (sp : SpNo),
    (∀ h0, s.hart = some h0 → let n := max 1 (Fmt.ew fmt / Fmt.ew h0.fmt)
      vd.val + n ≤ 64 → (n = 1 ∨ va.val < vd.val ∨ vd.val + n ≤ va.val) → s.opens anyFmt { vs := [va.val], vw := groupOf vd.val n } s1 h →
      let f := h0.fmt
      let x := h.bitsAt va
      let v (i : Nat) : Int := if Fmt.isSigned f ∧ 2 ^ (Fmt.ew f - 1) ≤ x i then (x i : Int) - 2 ^ Fmt.ew f else x i
      let w := Fmt.ew fmt
      let result (i : Nat) : Nat :=
        if Fmt.isInt f then if Fmt.isInt fmt then narrow fmt (mdSat h.md) (v i) else ((h.fpCtx fmt).round 0 i (exactInt (v i))).1
        else match h.input f (x i) with
          | .nan neg frac => if Fmt.isInt fmt then 0 else nanBits fmt neg frac (decide (Fmt.ew fmt ≤ Fmt.ew f ∧ fmt ≠ f))
          | y => if Fmt.isInt fmt then bitsOfInt w (fpToInt (mdRm h.md) 0 (Fmt.intMin fmt) (Fmt.intMax fmt) y) else ((h.fpCtx fmt).round 0 i y.exact).1
      h.fmt = f →
      exec (.vcvt vd va fmt) s = .next (s1.retired (if h.vl = 0 then h else convertInto h f fmt x vd.val n)) ∧
      (h.vl ≠ 0 → n = 1 → f ≠ .b4 → fmt ≠ .b4 → mdRm h.md ≠ .sr → ∃ b, exec (.vcvt vd va fmt) s = .next (s1.retired (h.setV vd b fmt)) ∧
        ∀ i, (i + 1) * w ≤ h.vbits → (h.writes i → elemOf w b i = result i % 2 ^ w) ∧ (¬h.writes i → elemOf w b i = elemOf w (h.vbitsOf vd) i))) ∧
    (s.opensPlain (fun f => decide (f = .fp32)) { vs := [va.val, vb.val], vw := [vd.val] } s1 h →
      let c := h.fpCtx .fp32
      let el (r : VRegNo) (i : Nat) := flush .fp32 (vtFtz h.vt) (elemOf 32 (h.vbitsOf r) i)
      let rnd (k : Nat) (x : Exact) := (c.round 0 k x).1
      let fp := Fp.of .fp32
      let m := pickFp32 true (el va 0) (el vb 0)
      let factor (x : Nat) := if x = negInf then 0 else rnd 0 (fpExp2 (fp (rnd 0 (fpSub c.rm (fp x) (fp m)))))
      let joined (k : Nat) := rnd k (fpAdd c.rm (fp (rnd k (fpMul (fp (el va k)) (fp (factor (el va 0))))))
        (fp (rnd k (fpMul (fp (el vb k)) (fp (factor (el vb 0)))))))
      (h.vl.toNat ≤ 1 → exec (.smerge vd va vb) s = .next (s1.retired h)) ∧
      (2 ≤ h.vl.toNat → ∃ b, ∃ g : Hart, exec (.smerge vd va vb) s = .next (s1.retired g) ∧ g.v = (h.setV vd b .fp32).v ∧
        (mdRm h.md ≠ .sr → g = h.setV vd b .fp32 ∨ ∃ e, g = (h.setV vd b .fp32).takeNan h.xpc s1.tick e) ∧
        (isNan .fp32 m = true → ∀ i, i < h.vl.toNat → elemOf 32 b i = m % 2 ^ 32) ∧
        (isNan .fp32 m = false → mdRm h.md ≠ .sr → elemOf 32 b 0 = m % 2 ^ 32 ∧
          ∀ i, 0 < i → i < h.vl.toNat → elemOf 32 b i = joined i % 2 ^ 32) ∧
        ∀ i, h.vl.toNat ≤ i → elemOf 32 b i = elemOf 32 (h.vbitsOf vd) i)) ∧
    (∀ h0, s.hart = some h0 → s.curStream = .x → h0.live = true → va.val + 4 ≤ 64 → (vd.val < va.val ∨ va.val + 4 ≤ vd.val) →
      let r := ({ vs := groupOf va.val 4, vw := [vd.val] } : Named).guarded h0
      r.allV.length ≤ vectorSlots h0.vt → r.allP.length ≤ predicateSlots h0.vt → h0.fmt = .fp32 → h0.tagOf va = some .fp32 →
      (∀ k, 0 < k → k < 4 → h0.tagOf (va.val + k) = some .i32) → swapIn r s = .ok () s1 → s1.hart = some h → s1.curStream = .x → h.fmt = .fp32 →
      let el (k i : Nat) := elemOf 32 (h.vbitsOf (va.val + k)) i
      let score (i : Nat) := (({ pc := h.xpc, ln := i, qi := signedOf 32 (el 1 i), ki := signedOf 32 (el 2 i), h := signedOf 32 (el 3 i)
                                 consts := (List.range 16).map fun j => bitsOf (h.k.getD 15 0) (8 * j) 8, trees := h.d } : ScoreEnv).score
        h.sp[sp] (el 0 i)).1
      (h.vl = 0 → exec (.sapply vd va sp) s = .next (s1.retired h)) ∧
      (h.vl ≠ 0 → ∃ g b, exec (.sapply vd va sp) s = .next (s1.retired g) ∧
        (g = h.setV vd b .fp32 ∨ ∃ e, g = (h.setV vd b .fp32).takeNan h.xpc s1.tick e) ∧
        (∀ i, h.writes i → elemOf 32 b i = score i % 2 ^ 32) ∧ ∀ i, ¬h.writes i → elemOf 32 b i = elemOf 32 (h.vbitsOf vd) i))

/-- R185 to R189, R193 to R200: a matrix form raises register not present where the kernel holds no array or not the plane that it names, and
waits where the queue is full; else `mshape` answers the shape it grants, and every other form adds its operation to the queue with the
operands it read, or, for `mrd`, writes the cells converted to the current format. That the operands are read as the form issues is log 14,
and that the conversion of `mwr` flushes under `vt.ftz` is log 54, the model's choices. -/
def Obligations.MatrixFormsComplete : Prop :=
  ∀ (s : State) (h : Hart), s.hart = some h → s.curStream = .x → coreOfSlot s.curSlot < 64 →
    let m := (s.core (coreOfSlot s.curSlot)).mat
    let granted (t : State) (c : CRegNo) := (t.core (coreOfSlot t.curSlot)).mat = m ∧ c.val < m.planes
    let push (o : MOp) (x : Matrix) : Matrix := { x with queue := m.queue ++ [o] }
    ∀ (rd ra rb : SReg) (c : CRegNo) (v : VRegNo),
    (m.owner ≠ some h.kernel ∨ m.planes ≤ c.val → ∀ i ∈ [Instr.mzero c, .mrd v c rb, .mwr c v rb, .mstreamLocal c ra rb, .mstreamVector c v rb],
      exec i s = .next (s.trapped 0x05 (s.curWord.setWidth 64) 0)) ∧
    (m.owner ≠ some h.kernel → ∀ i ∈ [Instr.mshapeCore rd ra rb, .mshapeDie rd ra rb, .mlds rd ra, .mswap],
      exec i s = .next (s.trapped 0x05 (s.curWord.setWidth 64) 0)) ∧
    (m.owner = some h.kernel → 8 ≤ m.queue.length →
      let waits (i : Instr) := exec i s = .next (s.waits h .matrix)
      let r := ({ vs := [v.val] } : Named).guarded h
      waits .mswap ∧
      (∀ a w, Fmt.ofCode? ((h.sreg .x rb).toNat % 16) = some a → Fmt.ofCode? ((h.sreg .x rb).toNat / 16 % 16) = some w → matrixPair a w = true →
        waits (.mshapeCore rd ra rb) ∧ waits (.mshapeDie rd ra rb)) ∧
      (m.shape.empty = true → waits (.mlds rd ra)) ∧
      (m.shape.empty = false → ∀ (s1 : State) (t : Tile),
        let p := m.shape
        let nl := (p.extents h.cix).2
        matrixOperand rd ra p.w nl p.k (p.k / p.bl * nl) s = .ok t s1 → (s1.core (coreOfSlot s1.curSlot)).mat = m → waits (.mlds rd ra)) ∧
      (c.val < m.planes → waits (.mzero c) ∧
        (h.live = true → r.allV.length ≤ vectorSlots h.vt → r.allP.length ≤ predicateSlots h.vt →
          (m.tags[c] = some .fp32 → waits (.mrd v c rb)) ∧ (h.tagOf v = some h.fmt → waits (.mwr c v rb))) ∧
        (m.shape.empty = true → waits (.mstreamLocal c ra rb) ∧ (h.live = true → 1 ≤ vectorSlots h.vt → waits (.mstreamVector c v rb))) ∧
        (m.shape.empty = false → m.tags[c] = some .fp32 → matrixPair m.shape.a m.actFmt = true →
          let p := m.shape
          let ml := (p.extents h.cix).1
          (p.grid = true ∧ h.cix % 4 ≠ 0 → waits (.mstreamLocal c ra rb)) ∧
          (¬(p.grid = true ∧ h.cix % 4 ≠ 0) → ∀ (s1 : State) (t : Tile), matrixOperand ra rb p.a p.k ml (ml * (p.k / p.bl)) s = .ok t s1 →
            (s1.core (coreOfSlot s1.curSlot)).mat = m → waits (.mstreamLocal c ra rb)) ∧
          (h.live = true → 1 ≤ vectorSlots h.vt → h.fmt = p.a → h.tagOf v = some p.a → (p.a = .b4 → vtBl h.vt = p.bl) →
            waits (.mstreamVector c v rb))))) ∧
    (m.owner = some h.kernel → m.queue.length < 8 →
      (∀ a w, Fmt.ofCode? ((h.sreg .x rb).toNat % 16) = some a → Fmt.ofCode? ((h.sreg .x rb).toNat / 16 % 16) = some w → matrixPair a w = true →
        let req := (h.sreg .x ra).toNat
        let bl := if (h.sreg .x rb).toNat / 256 % 2 = 1 then 32 else 16
        let shape (die : Bool) : Shape :=
          let grid := die && decide (h.gcoord.toNat / 2 ^ 24 % 16 = 15)
          let lim := if grid then 1024 else 256
          let k := min (req / 2 ^ 32 % 2 ^ 16) 256
          { m := min (req % 2 ^ 16) lim, n := min (req / 2 ^ 16 % 2 ^ 16) lim, k := if a = .b4 then k / bl * bl else k, grid := grid, a := a, w := w, bl := bl }
        ∀ f ∈ [(Instr.mshapeCore rd ra rb, shape false), (.mshapeDie rd ra rb, shape true)],
          exec f.1 s = .next ((s.withMat fun x => { x with shape := f.2 }).retired (h.setS .x rd
            (BitVec.ofNat 64 (f.2.m + f.2.n * 2 ^ 16 + f.2.k * 2 ^ 32 + if f.2.grid then 2 ^ 48 else 0))))) ∧
      (∀ a w, Fmt.ofCode? ((h.sreg .x rb).toNat % 16) = some a → Fmt.ofCode? ((h.sreg .x rb).toNat / 16 % 16) = some w → matrixPair a w = false →
        ∀ i ∈ [Instr.mshapeCore rd ra rb, .mshapeDie rd ra rb], exec i s = .next (s.trapped 0x06 (s.curWord.setWidth 64) 0)) ∧
      exec .mswap s = .next ((s.withMat fun x => { push .swap x with
        actFmt := m.shFmt, actBl := m.shBl, shFmt := m.actFmt, shBl := m.actBl }).retired h) ∧
      (c.val < m.planes → exec (.mzero c) s = .next ((s.withMat fun x => { push (.zero c.val 0) x with tags := m.tags.set c (some .fp32) }).retired h)) ∧
      (m.shape.empty = true → exec (.mlds rd ra) s = .next (s.retired h) ∧ (c.val < m.planes → exec (.mstreamLocal c ra rb) s = .next (s.retired h) ∧
        (h.live = true → 1 ≤ vectorSlots h.vt → exec (.mstreamVector c v rb) s = .next (s.retired h)))) ∧
      (m.shape.empty = false → ∀ (s1 s2 s3 : State) (t : Tile) (g : Hart) (w : WPlane),
        let p := m.shape
        let nl := (p.extents h.cix).2
        s1.hart = some h → s1.curStream = .x → (s1.core (coreOfSlot s1.curSlot)).mat = m → s3.hart = some g → s3.curStream = .x →
        coreOfSlot s3.curSlot < 64 → (s3.core (coreOfSlot s3.curSlot)).mat = m →
        matrixOperand rd ra p.w nl p.k (p.k / p.bl * nl) s = .ok t s1 → t.enter s1 = .ok () s2 →
        eachFold (List.range (p.k * nl)) ({ fmt := p.w, bl := p.bl, cells := [], scales := [], poison := [] } : WPlane) (fun w x => do
          let k := x / nl
          let n := x % nl
          let e ← t.elem n k
          let sc ← t.scale (k / p.bl * nl + n)
          pure { w with cells := w.cells.putNZ (256 * k + n) e.1, scales := w.scales.putNZ (256 * k + n) sc.1
                        poison := if e.2 || sc.2 then addNum w.poison (256 * k + n) else w.poison }) s2 = .ok w s3 →
        exec (.mlds rd ra) s = .next ((s3.withMat fun x => { push (.load w 0) x with shFmt := p.w, shBl := p.bl }).retired g)) ∧
      (m.shape.empty = false → c.val < m.planes → m.tags[c] = some .fp32 → matrixPair m.shape.a m.actFmt = true →
        let p := m.shape
        let ml := (p.extents h.cix).1
        let join (t : State) (rows : List ActRow) (receiver : Bool) : State := t.withMat fun x =>
          { push (.stream c.val h.slot h.xpc p rows (if p.grid then some m.gridCount else none) receiver (h.cix / 4) (h.cix % 4) t.tick) x with
            gridCount := if p.grid then m.gridCount + 1 else m.gridCount }
        let receives := p.grid = true ∧ h.cix % 4 ≠ 0
        (receives → exec (.mstreamLocal c ra rb) s = .next ((join s [] true).retired h)) ∧
        (¬receives → ∀ (s1 s2 s3 : State) (t : Tile) (rows : List ActRow), s1.hart = some h → s1.curStream = .x →
          (s1.core (coreOfSlot s1.curSlot)).mat = m → s3.hart = some h → s3.curStream = .x →
          coreOfSlot s3.curSlot < 64 → (s3.core (coreOfSlot s3.curSlot)).mat = m →
          matrixOperand ra rb p.a p.k ml (ml * (p.k / p.bl)) s = .ok t s1 → t.enter s1 = .ok () s2 →
          eachMap (List.range ml) (fun m => do
            let xs ← eachMap (List.range p.k) fun k => do
              let e ← t.elem k m
              let sc ← t.scale (m * (p.k / p.bl) + k / p.bl)
              pure (e.1, sc.1, e.2 || sc.2)
            pure ({ m := m, elems := xs.map fun x => x.1, scales := xs.map fun x => x.2.1
                    poison := (List.range p.k).filter fun k => (xs.getD k (0, 0, false)).2.2 } : ActRow)) s2 = .ok rows s3 →
          exec (.mstreamLocal c ra rb) s = .next ((join s3 rows false).retired h)) ∧
        (∀ (s1 : State) (g : Hart), s.opensPlain (fun f => decide (f = p.a)) { vs := [v.val] } s1 g → g.slot = h.slot → g.xpc = h.xpc → g.gcoord = h.gcoord →
          granted s1 c → (p.a = .b4 → vtBl h.vt = p.bl) → coreOfSlot s1.curSlot < 64 →
          let row0 := (g.sreg .x rb).toNat % 2 ^ 16
          let row (r : Nat) : ActRow :=
            { m := row0 + r, elems := (List.range p.k).map fun k => elemOf (Fmt.ew p.a) (g.vbitsOf v) (r * p.k + k)
              scales := (List.range p.k).map fun k => if p.a = .b4 then (g.k.getD 0 0) / 2 ^ (8 * ((r * p.k + k) / p.bl)) % 256 else 0, poison := [] }
          exec (.mstreamVector c v rb) s = .next (if receives then (join s1 [] true).retired g
            else (join s1 ((List.range (min (g.vl.toNat / p.k) (ml - row0))).map row) false).retired g))) ∧
      (c.val < m.planes → ∀ (s1 : State) (g : Hart),
        let b := (g.sreg .x rb).toNat
        let row0 := b % 2 ^ 16
        let w := if b / 2 ^ 16 % 512 = 0 ∨ 256 < b / 2 ^ 16 % 512 then 256 else b / 2 ^ 16 % 512
        let cell (i : Nat) := 256 * (row0 + i / w) + i % w
        granted s1 c → coreOfSlot s1.curSlot < 64 →
        (m.tags[c] = some .fp32 → (∀ o ∈ m.queue, o.writes c.val = false) → s.opens anyFmt { vw := [v.val] } s1 g →
          (∀ i, g.writes i → row0 + i / w < 256 → cell i ∉ (m.acc[c]).poison) →
          exec (.mrd v c rb) s = .next (s1.retired (if g.vl = 0 then g
            else convertInto g .fp32 g.fmt (fun i => if row0 + i / w < 256 then (SMap.get? (m.acc[c]).cells (cell i)).getD 0 else 0) v.val 1))) ∧
        (s.opens anyFmt { vs := [v.val] } s1 g → mdRm g.md ≠ .sr →
          (g.vl = 0 → exec (.mwr c v rb) s = .next (s1.retired g)) ∧
          (g.vl ≠ 0 → ∃ cells, exec (.mwr c v rb) s = .next ((s1.withMat fun x =>
              { push (.write c.val cells) x with tags := m.tags.set c (some .fp32) }).retired g) ∧
            (∀ i, g.writes i → row0 + i / w < 256 → SMap.get? cells (cell i) = some (convert g g.fmt .fp32 (g.k.getD 0 0) (g.bitsAt v i) 0 i)) ∧
            ∀ x, SMap.get? cells x ≠ none → ∃ i, g.writes i ∧ row0 + i / w < 256 ∧ x = cell i))))

/-- R184, R185, R190, R193 to R200, R202: the array carries out the head of its queue, as much of it as the event says or all that is left: a load
fills the shadow plane row by row, a swap exchanges the two, a zero clears its plane and a write puts its cells, cell by cell, and a stream of one
core adds the products of its rows, any of which may be the next to move on; what is left stays at the head. That the operands were read at issue,
and the order in which a part is carried out, are log 14, the model's choices. -/
def Obligations.TheArrayCarriesOutItsQueue : Prop :=
  ∀ (s : State) (o : MOp) (rest : List MOp), s.curEv.a < 64 → (s.core s.curEv.a).mat.queue = o :: rest →
    let m := (s.core s.curEv.a).mat
    let n := s.curEv.b
    let upTo (done total : Nat) : Nat := if n = 0 then total else min total (done + n)
    let leaves (f : Matrix) := exec .matrixQueueExecute s = .next (s.modCore s.curEv.a fun k => { k with mat := f })
    (∀ w row, o = .load w row → let k := upTo row 256
      ∃ sh, leaves { m with shadow := sh, queue := if k = 256 then rest else .load w k :: rest } ∧ (k = 256 → sh = w) ∧
        (k < 256 → ∀ x, SMap.get? sh.cells x = (if x < 256 * k then SMap.get? w.cells x else SMap.get? m.shadow.cells x) ∧
          SMap.get? sh.scales x = if x < 256 * k then SMap.get? w.scales x else SMap.get? m.shadow.scales x)) ∧
    (o = .swap → leaves { m with active := m.shadow, shadow := m.active, queue := rest }) ∧
    (∀ (c : CRegNo) cell, o = .zero c.val cell → let k := upTo cell 65536
      ∃ p, leaves { m with acc := m.acc.set c p, queue := if k = 65536 then rest else .zero c.val k :: rest } ∧
        (k = 65536 → p = { cells := [], poison := [] }) ∧
        (k < 65536 → ∀ x, SMap.get? p.cells x = if x < k then none else SMap.get? (m.acc[c]).cells x)) ∧
    (∀ (c : CRegNo) cells, o = .write c.val cells → let k := upTo 0 cells.length
      leaves { m with queue := if k = cells.length then rest else .write c.val (cells.drop k) :: rest, acc := m.acc.set c ((cells.take k).foldl (fun p x =>
        { cells := p.cells.putNZ x.1 x.2, poison := delNum p.poison x.1 }) m.acc[c]) }) ∧
    (∀ (c : CRegNo) slot pc p rows row col op, o = .stream c.val slot pc p rows none false row col op →
      let nl := (p.extents (4 * row + col)).2
      let left (later : List ActRow) : List MOp := if later = [] then rest else .stream c.val slot pc p later none false row col op :: rest
      let adds (now : List (ActRow × Nat)) (later : List ActRow) := ∃ t, exec .matrixQueueExecute s = .next t ∧ t.mem = s.mem ∧ t.ls = s.ls ∧
        (t.core s.curEv.a).mat = { m with acc := m.acc.set c (streamRows pc p.a m.active p.k now m.acc[c]).1, queue := left later }
      (n = 0 → adds (rows.map fun r => (r, nl)) []) ∧
      ∀ r, n ≠ 0 → rows[s.curEv.c]? = some r → let k := min nl (r.first + n)
        adds [(r, k)] (if k = nl then rows.eraseIdx s.curEv.c else rows.set s.curEv.c { r with first := k }))

/-- R20, R213, R215, R224 to R229: the page forms where their page translates and their stream's accesses have performed: a pin count goes up
or down and saturates; a commit merges the overlay's lines into the base, or into a fresh frame where the base is shared, and empties the
overlay; a discard empties it, one that holds no line included; a query answers its doubleword; and `frref` adds to the frame's count, unless
the sum does not fit, or, at `.fab` scope outside S2, retires with its work held. The model's choices: a commit
or a discard without a page control block has no ring to give to or take from (log 41), and what an order puts first inside its scope
(log 6). -/
def Obligations.PageFormsComplete : Prop :=
  ∀ (s s1 s2 s3 s4 s5 s6 s7 s8 s9 : State) (h g : Hart) (rd ra rb : SReg) (p : PageAt) (r : FrameRec) (o : Overlay), s.hart = some h →
    let st := s.curStream
    let va := h.sreg st ra
    (∀ p0 s0, pageAt .load va false s = .ok p0 s0 → s.free h (BitVec.ofNat 64 (va.toNat / p0.leaf.size * p0.leaf.size)) p0.leaf.size true →
      s0.hart = some h → s0.curStream = st → s0.behindHeld (s0.actor h st) (.pa p0.leaf.frame) p0.leaf.size = false →
      drainStream h.slot st s0 = .ok () s1 → pageAt .load va false s1 = .ok p s2 → setA p.leaf s2 = .ok () s3 →
      (p.leaf.tier ≤ 2 → pageForm .load va true false s = .ok p s3) ∧ pageForm .load va false false s = .ok p s3 ∧
      (3 ≤ p.leaf.tier → ∀ i ∈ [Instr.opin ra, .ounpin ra, .odiscard ra], exec i s = .next (s.waits h .move))) ∧
    (pageForm .load va true false s = .ok p s1 → formRecord p s1 = .ok r s2 → s2.hart = some g → s2.curStream = st →
      s2.behindHeld (s2.actor g st) (.pa r.addr) 16 = false → s4.hart = some g →
      (putFrameRec { r with pins := min (r.pins + 1) 65535 } s2 = .ok () s4 → exec (.opin ra) s = .next (s4.retired g)) ∧
      (putFrameRec { r with pins := r.pins - 1 } s2 = .ok () s4 → exec (.ounpin ra) s = .next (s4.retired g))) ∧
    (∀ releases, commitStart ra releases s = .ok none s1 → s1.hart = some g →
      exec (if releases then .ocommitPub ra else .ocommitPriv ra) s = .next (s1.retired g)) ∧
    (commitStart ra false s = .ok (some (p, o)) s1 → frameRec p.frame s1 = .ok (some r) s2 → s9.hart = some g →
      (r.count ≤ 1 → mergeLines p.leaf.addr p.req.key o r.key p.frame s2 = .ok () s3 → emptyOverlay o s3 = .ok () s9 →
        exec (.ocommitPriv ra) s = .next (s9.retired g)) ∧
      (1 < r.count → awaitEntry p.leaf.addr 16 s2 = .ok () s3 →
        (∀ x, take (homeSlice p.frame / 32) s3 = .ok (some x) s4 →
          let n := x / 2 ^ 16 % 2 ^ 36 * 2 ^ 16
          (do
            hold p.leaf.addr x n
            takeRecord p.leaf.addr n { r with count := 1, pins := 0, moving := false, owner := p.leaf.addr }) s4 = .ok () s5 →
          each ((List.range 256).filter fun i => !o.v.testBit i) (fun i =>
            copyHeld (p.leaf.addr, p.frame) (p.leaf.addr, n) r.key (p.frame + 256 * i) r.key (n + 256 * i) 256) s5 = .ok () s6 →
          mergeLines p.leaf.addr p.req.key o r.key n s6 = .ok () s7 → putFrameRec { r with count := r.count - 1 } s7 = .ok () s8 →
          (do
            putLeaf p.leaf n 0 true
            emptyOverlay o) s8 = .ok () s9 → exec (.ocommitPriv ra) s = .next (s9.retired g)) ∧
        (take (homeSlice p.frame / 32) s3 = .ok none s4 → exec (.ocommitPriv ra) s = .next (s.trapped 0x0C p.req.va 5)))) ∧
    (∀ fk, commitStart ra true s = .ok (some (p, o)) s1 → frameKey p.req.key p.frame s1 = .ok fk s2 → s2.hart = some h →
      each ((List.range 256).filter fun i => o.v.testBit i) (fun i => do
        copyHeldBy copyHome (o.addr, o.ext) (p.leaf.addr, p.frame) p.req.key (o.ext + 256 * popcountN o.v i) fk (p.frame + 256 * i) 256
        dropFor h.asid (sectorsOf (p.frame + 256 * i) 256)) s2 = .ok () s3 →
      emptyOverlay o s3 = .ok () s4 → s4.hart = some g → exec (.ocommitPub ra) s = .next (s4.retired g)) ∧
    (pageForm .load va true false s = .ok p s2 →
      (p.leaf.o = false → s2.hart = some g → exec (.odiscard ra) s = .next (s2.retired g)) ∧
      (p.leaf.o = true → readOverlay p.leaf.ovr s2 = .ok o s3 → o.consistent = true → s3.hart = some g →
        (o.v = 0 → s3.pcb = none → exec (.odiscard ra) s = .next (s3.retired g)) ∧
        (o.v ≠ 0 → s3.pcb = none → exec (.odiscard ra) s = .next (s.trapped 0x0C va 5)) ∧
        ∀ g4, s3.pcb ≠ none →
          (do
            if o.cc ≠ 0 then give o.addr (7 + o.cc) o.ext else pure ()
            ({ o with v := 0, ext := 0, cc := 0, count := 0 } : Overlay).put) s3 = .ok () s4 → s4.hart = some g4 →
          exec (.odiscard ra) s = .next (s4.retired g4))) ∧
    (pageForm .load va false true s = .ok p s2 → s2.hart = some h → s2.curStream = st →
      let j := (h.sreg st rb).toNat % 8
      let answers (t : State) (x : Nat) := ∀ k, t.hart = some k → exec (.oquery rd ra rb) s = .next (t.retired (k.setS t.curStream rd (BitVec.ofNat 64 x)))
      (inPeer p.leaf.frame = true ∨ 5 ≤ j → answers s2 0) ∧
      (inPeer p.leaf.frame = false → p.leaf.o = true → readOverlay p.leaf.ovr s2 = .ok o s3 → o.consistent = true →
        (j < 4 → answers s3 (o.v / 2 ^ (64 * j) % 2 ^ 64)) ∧
        (j = 4 → frameRec p.frame s3 = .ok (some r) s4 →
          answers s4 (o.count % 512 + o.cc % 16 * 2 ^ 9 + p.leaf.tier * 2 ^ 13 + (r.pins * 2 ^ 16 + r.count * 2 ^ 32)))) ∧
      (inPeer p.leaf.frame = false → p.leaf.o = false → (j < 4 → answers s2 0) ∧
        (j = 4 → frameRec p.frame s2 = .ok (some r) s3 → answers s3 (p.leaf.tier * 2 ^ 13 + (r.pins * 2 ^ 16 + r.count * 2 ^ 32))))) ∧
    (∀ (od : Order) (sc : Scope) (p0 : PageAt) (r0 : FrameRec), pageAt .load va false s = .ok p0 s1 → formRecord p0 s1 = .ok r0 s2 →
      s2.curStream = st →
      (sc ≠ .fab ∨ s2.level = .s2 →
        (if od = .rel ∨ od = .ar then settle st (if sc = .hart then .core else sc) s2 = .ok () s3 else s3 = s2) →
        pageForm .load va true false s3 = .ok p s4 → formRecord p s4 = .ok r s5 → s5.hart = some h → s5.curStream = st →
        s5.behindHeld (s5.actor h st) (.pa r.addr) 4 = false →
        let sum : Int := r.count + (h.sreg st rb).toInt
        let ends (t : State) (v : Word64) := (if od = .acq ∨ od = .ar then refreshPoint st t = .ok () s9 else s9 = t) ∧ s9.hart = some g ∧
          s9.curStream = st → exec (.frref od sc rd ra rb) s = .next (s9.retired (g.setS st rd v))
        dropOwn s5.curSlot (.pa r.addr) 4 s5 = .ok () s6 →
        (0 ≤ sum ∧ sum ≤ 0xFFFFFFFF → putFrameRec { r with count := sum.toNat } s6 = .ok () s7 → ends s7 (BitVec.ofInt 64 sum)) ∧
        (¬(0 ≤ sum ∧ sum ≤ 0xFFFFFFFF) → ends s6 0xFFFFFFFFFFFFFFFF)) ∧
      (sc = .fab → s2.level ≠ .s2 → pageForm .load va true false s2 = .ok p s4 → formRecord p s4 = .ok r s5 → s5.hart = some h → s5.curStream = st →
        ∃ t w v, exec (.frref od sc rd ra rb) s = .next t ∧ t.held = s5.held ++ [w] ∧ t.mem = s5.mem ∧ w.slot = h.slot ∧ w.stream = st ∧
          w.regs = [.s rd.val] ∧ w.work = .count va (h.sreg st rb) ∧ t.hart = some ((h.setS st rd v).advance st).stirred))

/-- R20, R158, R216, R219, R238, R239, R240, R242, R243, R248, R249: a copy, a move and a compaction whose checks pass take the hart's next tag, join
its transfers and retire with the tag in sd; with no place in the window they wait. A move that S1 holds, or that must wait, stays among the
transfers; else it ends at once with the status of the first case that holds, its record posted, or it takes its target frame and is under way.
`evwait` and `evpoll` give a word of the oldest matching record, and take the record with its word 0; without one the first waits and the second
answers all ones. The model's choices: a move begins as it issues unless it must wait (log 42), a layout record may come from the record cache (log
8), and layouts that fit alone and not together (log 38). -/
def Obligations.TransferFormsComplete : Prop :=
  ∀ (s s1 s2 s3 s4 : State) (h g : Hart) (rd ra rb : SReg), s.hart = some h →
    let v := h.sreg s.curStream ra
    let w := h.sreg s.curStream rb
    (s.curStream = .a → 15 ≤ h.transfers.length + h.records.length →
      ∀ i ∈ [Instr.cpy rd ra rb, .cpyx rd ra rb, .cpyz rd ra rb, .cpyp rd ra rb, .cpyd rd ra rb, .kvcompact rd ra rb],
        exec i s = .next (s.waits h .window)) ∧
    (s.curStream = .a → h.transfers.length + h.records.length < 15 →
      (∀ f ∈ [(Instr.cpy rd ra rb, 0), (.cpyx rd ra rb, 1), (.cpyz rd ra rb, 2)],
        (v.toNat % 64 ≠ 0 → exec f.1 s = .next (s.trapped 0x08 v 0)) ∧
        (v.toNat % 64 = 0 → w.toNat % 64 ≠ 0 → exec f.1 s = .next (s.trapped 0x08 w 0)) ∧
        (v.toNat % 64 = 0 → w.toNat % 64 = 0 → ∀ db sb d l, recordCached v s = .ok db s1 → recordCached w s1 = .ok sb s2 →
          Layout.parse v db = some d → Layout.parse w sb = some l → copyBad f.2 d l = none → d.misaligned = none → l.misaligned = none →
          s2.tableUsed (coreOfSlot s2.curSlot) + (d.ranges true ++ l.ranges false).length ≤ 64 → s2.hart = some h →
          drainHart h.slot s2 = .ok () s3 → s3.hart = some h → s3.curStream = .a →
          exec f.1 s = .next (s3.started h rd f.2 (d.ranges true ++ l.ranges false) (.copy f.2 d l (List.range d.chunks) [] 0)))) ∧
      (∀ f ∈ [(Instr.cpyp rd ra rb, true, 3), (.cpyd rd ra rb, false, 4)], ∀ p, pageAt .load v false s = .ok p s1 → s1.hart = some h → s1.curStream = .a →
        let id := s1.nextId
        let work : Work := .move f.2.1 v w p.leaf.frame p.leaf.tier
        let g := (h.issued id rd f.2.2 [] work).advance .a
        let u : State := { s1 with nextId := id + 1 }.putHart g
        let page := BitVec.ofNat 64 (v.toNat / 2 ^ 16 * 2 ^ 16)
        let stays := exec f.1 s = .next (s1.started h rd f.2.2 [] work)
        let posts (cause status : Nat) (x : State) := x.hart = some g → ∃ y, exec f.1 s = .next y ∧ y.mem = x.mem ∧ y.moves = x.moves ∧
          y.hart = some (g.post id { w0 := recordWord0 false cause status f.2.2 (h.slot % 16) h.tagCtr, w1 := 0, w2 := page, w3 := 0 }).stirred
        let samePage (x : Transfer) : Prop := match x.work with
          | .move _ q .. => q.toNat / 2 ^ 16 = v.toNat / 2 ^ 16
          | _ => False
        (s1.level ≠ .s2 → stays) ∧
        (s1.level = .s2 → s1.portDown p.leaf.frame = true → exec f.1 s = .next (s.trapped 0x0A v 13)) ∧
        (s1.level = .s2 → s1.portDown p.leaf.frame = false → (∀ x ∈ h.transfers, x.id ≠ id) → ∀ c, SMap.get? s1.contexts h.asid = some c →
          ((∃ x ∈ h.transfers, samePage x ∧ ∀ m ∈ s1.moves, m.id ≠ x.id) → stays) ∧
          ((∀ x ∈ h.transfers, samePage x → ∃ m ∈ s1.moves, m.id = x.id) → (s1.pcb = none → posts 0 4 u) ∧
            (s1.pcb ≠ none → ∀ l u1, walk c.root v.toNat u = .ok (.leaf l) u1 → l.frame = p.leaf.frame → l.tier = p.leaf.tier →
            ∀ want u2,
              (if f.2.1 = true then want = some 0 ∧ u2 = u1 else if w.toNat % 8 = 1 ∨ w.toNat % 8 = 2 then want = some (w.toNat % 8) ∧ u2 = u1
                else demotionTier u1 = .ok want u2) →
              (l.size ≠ 2 ^ 16 → posts 0 8 u2) ∧
              (l.size = 2 ^ 16 → ∀ o u3, frameRec l.frame u2 = .ok o u3 → (o = none ∨ want = none → posts 0 (if o = none then 4 else 2) u3) ∧
                ∀ r goal, o = some r → want = some goal →
                  (r.frozen = true → posts 0 5 u3) ∧
                  (r.frozen = false →
                    (l.tier = goal → posts 0 7 u3) ∧
                    (l.tier ≠ goal → 3 ≤ l.tier → stays) ∧
                    (l.tier ≠ goal → l.tier < 3 → r.count ≠ 1 → posts 0 6 u3) ∧
                    (l.tier ≠ goal → l.tier < 3 → r.count = 1 → f.2.1 = false → r.pins ≠ 0 → posts 0 5 u3) ∧
                    (l.tier ≠ goal → l.tier < 3 → r.count = 1 → f.2.1 = true ∨ r.pins = 0 → ∀ busy u4 n u5,
                      let ring := if f.2.1 = true then homeSlice l.frame / 32 else 4 + dieOfFrame l.frame
                      busyLeaf l.addr u3 = .ok busy u4 → take ring u4 = .ok n u5 →
                      (f.2.1 = false → busy = true → stays) ∧
                      (f.2.1 = true ∨ busy = false → n = none → posts 0 4 u4) ∧
                      (f.2.1 = true ∨ busy = false → n ≠ none → f.2.1 = false → s1.cxl.getD (dieOfFrame l.frame) .untrained ≠ .up → posts 0x0B 2 u4) ∧
                      ∀ x u6 u7 u8 u9, f.2.1 = true ∨ busy = false → n ≠ none → f.2.1 = true ∨ s1.cxl.getD (dieOfFrame l.frame) .untrained = .up →
                        awaitEntry l.addr 16 u4 = .ok () u6 → take ring u6 = .ok (some x) u7 →
                        let a := x / 2 ^ 16 % 2 ^ 36 * 2 ^ 16
                        (do
                          hold l.addr x a
                          putFrameRec { r with moving := true }) u7 = .ok () u8 →
                        putLeaf l l.frame (if f.2.1 = true then 3 else 4) l.a u8 = .ok () u9 → u9.hart = some g →
                        let m : Move :=
                          { id := id, asker := some (h.slot, id), asid := h.asid, promote := f.2.1, pin := f.2.1 && w.getLsbD 0, leaf := l.addr
                            oldFrame := l.frame, oldTier := l.tier, newTier := goal, target := a, late := false }
                        exec f.1 s = .next { u9.putHart g.stirred with moves := u9.moves ++ [m] }))))))) ∧
      (w.toNat % 16 ≠ 0 → exec (.kvcompact rd ra rb) s = .next (s.trapped 0x08 w 0)) ∧
      (w.toNat % 16 = 0 → s.free h w 16 false → ∀ bm keep p, (s.actor h .a).load .home w 8 (some false) s = .ok bm s1 → (s.actor h .a).load .home (w + 8) 8 (some false) s1 = .ok keep s2 →
        bm % 8 = 0 → bm < 2 ^ 64 → pageAt .store v false s2 = .ok p s3 → s3.tableUsed (coreOfSlot s3.curSlot) + 2 ≤ 64 → s3.hart = some h →
        drainHart h.slot s3 = .ok () s4 → s4.hart = some h → s4.curStream = .a →
        let page := BitVec.ofNat 64 (v.toNat / 2 ^ 16 * 2 ^ 16)
        exec (.kvcompact rd ra rb) s = .next (s4.started h rd 5 [{ lo := page.toNat / 256, hi := page.toNat / 256 + 255, write := true },
          { lo := bm / 256, hi := (bm + 7) / 256, write := true }] (.kvc page (BitVec.ofNat 64 bm) (BitVec.ofNat 64 keep))))) ∧
    (s.curStream = .a → settle .a .dev s = .ok () s1 → s1.hart = some g →
      exec .lrfence s = .next ((s1.modCore (coreOfSlot s1.curSlot) fun c => { c with rcache := [] }).retired g)) ∧
    (let hit (r : Record) : Bool := decide (v.toNat % 2 ^ 32 = 0xFFFFFFFF) || decide (r.w0.toNat % 2 ^ 32 = v.toNat % 2 ^ 32)
     let k := v.toNat / 2 ^ 32 % 4
     (h.records.find? hit = none → exec (.evwait rd ra) s = .next (s.waits h .evwait) ∧
       exec (.evpoll rd ra) s = .next (s.retired (h.setS s.curStream rd 0xFFFFFFFFFFFFFFFF))) ∧
     ∀ r, h.records.find? hit = some r → ∀ i ∈ [Instr.evwait rd ra, .evpoll rd ra], exec i s = .next (s.retired
       ((if k = 0 then { h with records := h.records.eraseP hit } else h).setS s.curStream rd
         (if k = 0 then r.w0 else if k = 1 then r.w1 else if k = 2 then r.w2 else r.w3))))

/-- R20, R214, R216, R218, R219, R239, R244 to R247, R249, R317, R326 to R328: the engines' events: a chunk of a copy copies its units, or writes
zeros and notes its cause; a copy that has no chunk left writes its mask and posts its record; a move installs its frame, or ends as stale; an
old frame goes to its ring, or to the place there that was made for it; a block is compacted, dispatched, read; and a pass that has read its
blocks writes its results and posts its record. S1 holds the work of a pass. The model's choices: a chunk of a copy runs in one event (log 13), a
move copies its page in one (log 42), a block of a pass is dispatched in one event and read in another, and dispatched only once no earlier transfer
of the hart writes its page (log 45), the order of a block's checks (log 31), and what becomes of an entry given twice (log 35). -/
def Obligations.EnginesDoTheirWork : Prop :=
  (∀ (s u0 u1 u2 u3 : State) (h : Hart) (t : Transfer), s.acts h t →
     let e := s.curEv
     let u := s.engineFor t
     let a := u.engineActor h t
     let record (v : State) (k cause status : Nat) (w1 w2 w3 : Word64) := ∀ v', postRecord e.a e.b k false cause status w1 w2 w3 v = .ok () v' →
       ∀ i ∈ [(0, Instr.copyCompletion), (1, .copyCompletion), (2, .copyCompletion), (5, .kvcompactEvent), (6, .passCompletion)], i.1 = k →
         exec i.2 s = .next (s.engineDone v')
     (∀ kind d l todo failed written, t.work = .copy kind d l todo failed written → e.c ∈ todo →
       (overlaps (d.ranges true) (l.ranges false) = true → todo.head? = some e.c) →
       let units := chunkUnits kind d e.c
       let rest := todo.filter (· ≠ e.c)
       let done (n : Nat) : Work := .copy kind d l rest failed (written + n)
       (each units (copyUnit a kind d l) u = .ok () u1 → SMap.get? u1.harts e.a = some h →
         exec .copyChunkDone s = .next ((s.goesOn u1 (done (units.length * if kind = 0 then Fmt.ew d.fmt else 2048))).bankCounted e)) ∧
       (∀ c v b k u' n, each units (copyUnit a kind d l) u = .error (.trap c v b k) u' →
         eachFold units 0 (fun n x => do
           let k ← zeroUnit a kind d x
           pure (n + k)) u = .ok n u1 → SMap.get? u1.harts e.a = some h →
         exec .copyChunkDone s = .next ((s.goesOn u1 (.copy kind d l rest (SMap.put failed e.c c.toNat) (written + n))).bankCounted e))) ∧
     (∀ kind d l failed written, t.work = .copy kind d l [] failed written → kind < 3 →
       let fmask := (failed.map fun f => 2 ^ f.1).sum
       let key := recKey h d.addr
       let cached (wrote : Bool) (v : State) := State.endCover (v.modCore (coreOfSlot e.a) fun c => match SMap.get? c.rcache key with
         | none => c
         | some b => if wrote then { c with
             rcache := SMap.put c.rcache key (BitVec.ofNat 512 (putBits b.toNat 448 64 fmask)), rpoison := c.rpoison.filter fun x => x != (key, 7) } else c)
         e.a t.stream t.id
       let ends (v : State) := record v kind (failed.headD (0, 0)).2 (if failed = [] then 0 else if failed.length = d.chunks then 2 else 1)
         (BitVec.ofNat 64 fmask) d.addr (BitVec.ofNat 64 (written / 8))
       (a.storeNow (d.addr + 56) 8 fmask (some false) none u = .ok () u1 → ends (cached true u1)) ∧
       ∀ c v b k u', a.storeNow (d.addr + 56) 8 fmask (some false) none u = .error (.trap c v b k) u' → ends (cached false u)) ∧
     (∀ page bitmap keep l bm, t.work = .kvc page bitmap keep →
       walk (((SMap.get? s.contexts h.asid).map Context.root).getD 0) page.toNat u = .ok (.leaf l) u1 →
       (l.size ≠ 2 ^ 16 → record u1 5 0 8 0 page 0) ∧
       (l.size = 2 ^ 16 → l.tier = 2 → record u1 5 0x0D 2 0 page 0) ∧
       (l.size = 2 ^ 16 → l.tier ≠ 2 → a.load .home bitmap 8 (some false) u1 = .ok bm u2 →
         (do
           compactRows a page bm (bm &&& keep.toNat)
           a.storeNow bitmap 8 (bm &&& keep.toNat)) u2 = .ok () u3 →
         record u3 5 0 0 0 page (BitVec.ofNat 64 (bm &&& keep.toNat)))) ∧
     (s.level ≠ .s2 → exec .sliceBlockRead s = .next s ∧ exec .passCompletion s = .next s) ∧
     (∀ p, t.work = .pass p → s.level = .s2 →
       let leaves (p' : Pass) (pages : List Nat) (un : Bool) (x : State) := exec .sliceBlockRead s = .next x ∧ x.mem = u1.mem ∧
         SMap.get? x.harts e.a = some { h with transfers := h.transfers.map fun y =>
           if y.id = e.b then { y with work := .pass p', pages := pages, unnamed := un && decide (p'.fates.length < p'.nblk) } else y }
       (∀ f t', e.c = p.fates.length → e.c < p.nblk → t.nameNow a p u = .ok t' u0 → dispatchBlock a p e.c u0 = .ok f u1 → SMap.get? u1.harts e.a = some h →
         ((∀ k page, f ≠ .dispatched k page) → ∃ x, leaves { p with fates := p.fates ++ [f] } t'.pages t'.unnamed x) ∧
         ∀ k page, f = .dispatched k page →
           (h.pageAhead t.id (page.toNat / 2 ^ 16) = true → exec .sliceBlockRead s = .next s) ∧
           (h.pageAhead t.id (page.toNat / 2 ^ 16) = false → ∃ p' x, leaves p' (p.pagesWith t'.pages (page.toNat / 2 ^ 16)) t'.unnamed x ∧ p'.fates = p.fates ++ [f] ∧
             p'.queries = p.queries ∧ ∀ k' v, SMap.get? p.running k' = some v → SMap.get? p'.running k' = some v)) ∧
       (∀ k page f rows, e.c < p.fates.length → p.fates[e.c]? = some (.dispatched k page) → (∀ x ∈ p.fates.take e.c, x.waitsAt k = false) →
         readBlock a p k page e.c u = .ok (f, rows) u1 → SMap.get? u1.harts e.a = some h →
         ∃ p' x, leaves p' (t.pages.erase (page.toNat / 2 ^ 16)) t.unnamed x ∧ p'.fates = p.fates.set e.c f ∧ ((∀ k', f ≠ .scored k') → p'.running = p.running)) ∧
       (p.fates.length = p.nblk → (∀ f ∈ p.fates, ∀ k page, f ≠ .dispatched k page) →
         let merged := (mergeAll p.pc p.hd 8 (p.running.map Prod.snd)).headD (List.replicate (p.nr * p.nh) (emptyTriple p.hd))
         let causes := p.fates.filterMap BlockFate.cause?
         each ((merged.flatMap Triple.words ++ blockMask p BlockFate.absent ++ blockMask p fun f => f.cause?.isSome).zipIdx)
           (fun (w, i) => a.storeNow (BitVec.ofNat 64 (windowBase + p.dst + 8 * i)) 8 w) u = .ok () u1 →
         record u1 6 (causes.headD 0) (if causes = [] then 0 else if causes.length = (p.fates.filter (· ≠ .noPage)).length then 2 else 1)
           (BitVec.ofNat 64 causes.length) p.recAddr (BitVec.ofNat 64 (p.fates.filter BlockFate.absent).length)))) ∧
  (∀ (s s1 s2 s3 s4 s5 s6 s7 s8 : State) (m : Move) (e : Nat) (r : FrameRec), s.moves.find? (fun x => x.id == s.curEv.a) = some m →
     hwRead m.leaf 16 { s with moves := s.moves.filter fun x => x.id != m.id } = .ok e s1 → frameRec m.oldFrame s1 = .ok (some r) s2 →
     let l := Leaf.of m.leaf [] e
     let still := e % 4 = 3 ∧ l.frame = m.oldFrame ∧ l.tier = (if m.promote then 3 else 4)
     (still → awaitEntry m.leaf 16 s2 = .ok () s3 → copyHeld (m.leaf, m.oldFrame) (m.leaf, m.target) r.key m.oldFrame r.key m.target (2 ^ 16) s3 = .ok () s4 →
       takeRecord m.leaf m.target { r with moving := false, pins := if m.pin then min (r.pins + 1) 0xFFFF else r.pins } s4 = .ok () s5 →
       putFrameRec { r with count := 0, moving := false } s5 = .ok () s6 →
       putLeaf l m.target m.newTier (if m.promote then !m.late else l.a) s6 = .ok () s7 →
       let out : State := { s7 with oldFrames := s7.oldFrames ++ [{ frame := m.oldFrame, ring := ringOf m.oldFrame, leaf := m.leaf, place := none }] }
       (m.asker = none → exec .moveInstall s = .next out) ∧
       ∀ slot id h t pr page opt f tier, m.asker = some (slot, id) → SMap.get? s1.harts slot = some h → h.transfers.find? (fun x => x.id == id) = some t →
         t.work = .move pr page opt f tier → (∀ x ∈ s1.harts ++ s1.saved, ∀ y ∈ x.2.transfers, y.id = id → y = t) →
         postRecord slot id (if m.promote then 3 else 4) (m.promote && m.late) 0 0 0 (BitVec.ofNat 64 (page.toNat / 2 ^ 16 * 2 ^ 16)) (BitVec.ofNat 64 m.target) out
           = .ok () s8 → exec .moveInstall s = .next s8) ∧
     (¬still → m.asker = none → putFrameRec { r with moving := false } s2 = .ok () s3 → give m.leaf (ringOf m.target) m.target s3 = .ok () s4 →
       exec .moveInstall s = .next s4)) ∧
  (∀ (s s1 s2 : State) (o : OldFrame), s.oldFrames[s.curEv.a]? = some o →
     let u : State := { s with oldFrames := s.oldFrames.eraseIdx s.curEv.a }
     (o.place = none → give o.leaf o.ring o.frame u = .ok () s1 → exec .oldFrameRelease s = .next s1) ∧
     ∀ x e, o.place = some x → hwRead x 8 u = .ok e s1 → (e = 0 → hwWrite x o.frame 8 s1 = .ok () s2 → exec .oldFrameRelease s = .next s2) ∧
       (e ≠ 0 → exec .oldFrameRelease s = .next s))

/-- R20, R92, R138, R173, R321, R323, R324, R325: `spld` takes the words of a program up to its `stop`; `sattn`, where its record and registers
fit, reads its queries, starts the pass and retires, at every level; the work of the pass is held in S1. A record in the local-store window is
not mapped for it. Which pages a pass keeps behind the hart's earlier transfers, and that one whose page array is still to be written holds back
every later access, is log 45, the model's choice. -/
def Obligations.AttentionFormsComplete : Prop :=
  ∀ (s s1 s2 s3 s4 : State) (h g g4 : Hart) (sp : SpNo) (ra : SReg) (va : VRegNo), s.hart = some h → s.curStream = .x →
    let x := h.sreg .x ra
    let a := s.actor h .x
    (x.toNat % 64 ≠ 0 → exec (.spld sp ra) s = .next (s.trapped 0x08 x 0)) ∧
    (∀ ws p, x.toNat % 64 = 0 → s.free h x 64 false → eachMap (List.range 16) (fun i => a.load .home (x + BitVec.ofNat 64 (4 * i)) 4) s = .ok ws s1 →
      s1.hart = some g → (scoreWords ws = some p → exec (.spld sp ra) s = .next (s1.retired { g with sp := g.sp.set sp p })) ∧
        (scoreWords ws = none → exec (.spld sp ra) s = .next (s.trapped 0x16 x 0))) ∧
    (h.live = true → 1 ≤ vectorSlots h.vt → h.tagOf va = some .bf16 → h.transfers.length + h.records.length < 15 → x.toNat % 64 = 0 →
      s.free h x 64 false → inWindow x = true → exec (.sattn va ra) s = .next (s.trapped 0x0A x 0)) ∧
    (∀ b r pages, h.live = true → 1 ≤ vectorSlots h.vt → h.tagOf va = some .bf16 → h.transfers.length + h.records.length < 15 →
      x.toNat % 64 = 0 → s.free h x 64 false → inWindow x = false → recordHome x s = .ok b s1 → PassRec.of b = some r → s1.hart = some h → s1.curStream = .x →
      let prog := if r.enabled then h.sp.getD r.slot [] else []
      let nq := r.nr * r.nh
      let size := nq * (8 + 4 * r.hd) + 16 * ((r.table.nblk + 63) / 64)
      let n := r.table.nblk
      let regs := (List.range nq).map (va.val + ·)
      let dst := BitVec.ofNat 64 (windowBase + r.dst)
      let ranges : List LineRange := { lo := dst.toNat / 256, hi := (dst.toNat + size - 1) / 256, write := true } ::
        if n = 0 then [] else [rangeOf r.table.pages (8 * n) false, rangeOf r.table.maps (8 * n) false]
      (∀ y ∈ prog, y.toNat / 2 ^ 27 ≠ 0x0F) → va.val + nq ≤ 64 → (∀ y ∈ regs, h.tagOf y = some .bf16) → 16 * r.hd ≤ h.vbits →
      (∃ c o lsb, (s1.actor h .x).window = some (c, o, lsb) ∧ r.dst + size ≤ lsb) →
      s1.tableUsed (coreOfSlot s1.curSlot) + (if n = 0 then 1 else 4) ≤ 64 → swapIn { vs := regs } s1 = .ok () s2 → s2.hart = some g →
      g.slot = h.slot → drainHart h.slot s2 = .ok () s3 → pagesAtIssue (s1.actor h .x) g r.table.pages n s3 = .ok pages s4 → s4.hart = some g4 → s4.curStream = .x →
      ∃ p : Pass, exec (.sattn va ra) s = .next (State.retired { s4 with nextId := s4.nextId + 1 } { g4 with transfers := g4.transfers ++
          [{ id := s4.nextId, kind := 6, tag := r.tag, stream := .x, user := decide (g.priv = .u), ranges := ranges, pages := pages.getD []
             unnamed := pages.isNone, work := .pass p }] }) ∧
        p.queries = regs.map (fun y => (List.range r.hd).map fun d => elemOf 16 (g.vbitsOf y) d) ∧ p.prog = prog ∧ p.recAddr = x ∧ p.nblk = n ∧
        p.fates = [] ∧ p.running = [] ∧ p.qpos = r.qpos ∧ p.scale = r.scale ∧ p.dst = r.dst) ∧
    (s.level ≠ .s2 → exec .sliceBlockRead s = .next s ∧ exec .passCompletion s = .next s)

/-- R334, R336 to R344: the draft-tree forms: a register is started, extended by the active elements, masked, measured, cut to a path, loaded and
stored as its image; a node is accepted when its parent is and the target's token there is its own. What a store of a tree notes of poisoned sectors
is log 38, the model's choice. -/
def Obligations.TreeFormsComplete : Prop :=
  ∀ (s s1 s2 s3 : State) (h g g2 g3 : Hart) (d : DRegNo) (rd ra rb : SReg) (va vb vd : VRegNo) (pd : PRegNo), s.hart = some h → s.curStream = .x →
    let a := h.sreg .x ra
    let t := h.d[d]
    let n := t.nodes.length
    let word := s.curWord.setWidth 64
    exec (.dtinit d ra) s = .next (s.retired (h.setTree d
      { base := BitVec.ofNat 32 a.toNat, nodes := [{ parent := 0, token := BitVec.ofNat 32 (a.toNat / 2 ^ 32), score := 0, flags := 0 }] })) ∧
    (∀ m, (∀ i, i < n → t.depth i ≤ m) → (m = 0 ∨ ∃ i, i < n ∧ t.depth i = m) →
      exec (.dtinfo rd d) s = .next (s.retired (h.setS .x rd (BitVec.ofNat 64 (t.base.toNat * 2 ^ 32 + m * 2 ^ 16 + n))))) ∧
    (let e := a.toNat / 2 ^ 16 % 256
     let path := (List.range n).filter fun j => t.anc e j
     (n ≤ e → exec (.dtprune d ra) s = .next (s.trapped 0x13 word 8)) ∧
     (e < n → exec (.dtprune d ra) s = .next (s.retired (h.setTree d (t.pruned e))) ∧ (t.pruned e).base = t.base ∧
       (t.pruned e).nodes.length = path.length ∧ ∀ k, k < path.length → ∃ x y, (t.pruned e).nodes[k]? = some x ∧ t.nodes[path.getD k 0]? = some y ∧
         x.token = y.token ∧ x.score = y.score ∧ x.parent = BitVec.ofNat 8 (k - 1) ∧ x.flags = 1)) ∧
    (h.live = true → (va.val ≠ vb.val ∧ va.val ≠ vb.val + 1) → vb.val ≠ 63 → (h.fmt = .i32 ∨ h.fmt = .n32 ∨ h.fmt = .fp32) →
      intTag (h.tagOf va) = true → intTag (h.tagOf vb) = true → h.tagOf (vb.val + 1) = some .fp32 →
      let r := ({ vs := [va.val, vb.val, vb.val + 1] } : Named).guarded h
      r.allV.length ≤ vectorSlots h.vt → r.allP.length ≤ predicateSlots h.vt → swapIn r s = .ok () s1 → s1.hart = some g → g.d = h.d →
      let el (x i : Nat) := elemOf 32 (g.vbitsOf x) i
      let parents := g.active.map (el va)
      let named : Prop := ∀ k, k < parents.length → parents.getD k 0 < n + k
      (n = 0 → exec (.dtadd d va vb) s = .next (s.trapped 0x13 word 8)) ∧
      (n ≠ 0 → 256 < n + g.active.length → exec (.dtadd d va vb) s = .next (s.trapped 0x13 word 16)) ∧
      (n ≠ 0 → n + g.active.length ≤ 256 → ¬named → exec (.dtadd d va vb) s = .next (s.trapped 0x13 word 7)) ∧
      (n ≠ 0 → n + g.active.length ≤ 256 → named → exec (.dtadd d va vb) s = .next (s1.retired (g.setTree d
        { base := t.base, nodes := t.nodes ++ g.active.map fun i => { parent := BitVec.ofNat 8 (el va i), token := BitVec.ofNat 32 (el vb i)
                                                                      score := BitVec.ofNat 32 (el (vb.val + 1) i), flags := 0 } })))) ∧
    (let r := (h.sreg .x rb).toNat
     let sees (i : Nat) : Bool := decide (r < n ∧ i < n) && t.anc r i
     (s.opensPlain anyFmt { pw := [pd.val] } s1 g → g.d = h.d → g.sreg .x rb = h.sreg .x rb →
       WritesPredicate (exec (.dtmaskPred pd d rb) s) s1 g pd (· < g.vl.toNat) sees) ∧
     (s.opens maskFmt { vw := [vd.val] } s1 g → g.d = h.d → g.sreg .x rb = h.sreg .x rb →
       WritesVector (exec (.dtmaskVec vd d rb) s) s1 g vd g.writes
         (fun i => if Fmt.isInt g.fmt then (if sees i then 1 else 0) else if sees i then 0 else infBits g.fmt true)) ∧
     (s.opens posFmt { vw := [vd.val] } s1 g → g.d = h.d → WritesVector (exec (.dtpos vd d) s) s1 g vd g.writes
       (fun i => if i < n then g.narrowed ((t.base.toNat + t.depth i : Nat) : Int) else 2 ^ Fmt.ew g.fmt - 1))) ∧
    (s.opens (fun f => decide (f = .i32) || decide (f = .n32)) { vs := [va.val] } s1 g → g.d = h.d →
      let choice (p : Nat) : Option Nat := if p < g.vl.toNat ∧ g.activeAt p = true then some (elemOf 32 (g.vbitsOf va) p) else none
      let ok := t.accepted choice
      let e := t.endNode ok
      (n = 0 → exec (.dtacc rd d va) s = .next (s1.retired (g.setS .x rd 0xFFFFFFFF00000000))) ∧
      (n ≠ 0 → exec (.dtacc rd d va) s = .next (s1.retired ((g.setTree d { t with nodes := t.nodes.zipIdx.map fun (x, j) =>
          { x with flags := if t.anc e j then 1 else 0 } }).setS .x rd
          (BitVec.ofNat 64 ((choice e).getD 0xFFFFFFFF * 2 ^ 32 + e * 2 ^ 16 + (t.depth e + 1)))))) ∧
      ((∀ i, 0 < i → i < n → t.parent i < i) → ok.length = n ∧ ∀ i, i < n → ok.getD i false =
        (decide (i = 0) || (ok.getD (t.parent i) false && decide (choice (t.parent i) = (t.nodes[i]?).map fun x => x.token.toNat))))) ∧
    (a.toNat % 4096 ≠ 0 → ∀ i ∈ [Instr.dtld d ra, .dtst d ra], exec i s = .next (s.trapped 0x08 a 0)) ∧
    (a.toNat % 4096 = 0 → s.free h a 4096 false → ∀ v, eachFold (List.range 16) 0 (fun v i => do
        let x ← ({ s.actor h .x with scalar := false } : Actor).load .home (a + BitVec.ofNat 64 (256 * i)) 256
        pure (v + x * 2 ^ (2048 * i))) s = .ok v s1 → s1.hart = some g →
      (Tree.ofImage v = none → exec (.dtld d ra) s = .next (s.trapped 0x16 a 0)) ∧
      ∀ x, Tree.ofImage v = some x → exec (.dtld d ra) s = .next (s1.retired (g.setTree d x))) ∧
    (a.toNat % 4096 = 0 → s.curStop = none →
      let line (i : Nat) := a + BitVec.ofNat 64 (256 * i)
      each ((List.range 16).drop h.resumeX.toNat) (fun i => do
        interlock (line i) 256 true
        let b ← vectorActor
        b.store (line i) 256 (t.image / 2 ^ (2048 * i) % 2 ^ 2048) (2 ^ 2048 - 1)) s = .ok () s2 → s2.hart = some g2 → s2.curStream = .x →
      exec (.dtst d ra) s = .next (s2.retired (g2.setResume .x 0)))

/-- R17, R20, R236, R237, R254, R277, R280 to R288, R291, R300 to R302, R304 to R313, R365, R366: kernels, groups and barriers. A barrier form
arrives, and the phase ends for every member once all have arrived; `bwait` waits while the hart's own phase gathers; a split of a bad tier
answers all ones; closing the context ends these waits, at a free time, and a split ended so gives a free value (log 52); `claim` takes at most
what is left; `ktrig` marks the hart; `hend` waits for the hart's accesses and transfers, but for what its access stream has stopped in, and then
ends it; a launch or a doorbell moves its queue's index;
and the dispatcher of a die in service starts the first head of its order that can start. The model's choice: what an arrival, a trigger, a
claim and a launch put first inside their scope (log 6), what a claim is before its block is read (log 55), and how a dispatcher's cycle takes its heads (log 48). -/
def Obligations.KernelsGroupsAndBarriers : Prop :=
  ∀ (s s1 s2 s3 s4 : State) (h g : Hart) (rd ra rb : SReg) (sc : BScope) (n : Fin 16),
    let t := BScope.tier sc
    let i := 16 * t + n.val
    (s.hart = some h → s.curStream = .x →
      let a := h.sreg .x ra
      let b := h.sreg .x rb
      let closing (x : State) : Prop := ∃ c, SMap.get? x.contexts h.asid = some c ∧ c.closing ≠ none
      let ends (x : State) : Bool := Config.freeBool x.freeCtr
      let chosen (x : State) : State := { x with freeCtr := x.freeCtr + 1 }
      let done (k : Hart) : Hart := { k with syncDone := k.syncDone &&& ~~~BitVec.twoPow 64 i, firstWait := none }
      (h.pend.getLsbD i = true → ¬closing s → exec (.barr sc n) s = .next (s.waits h .barrier) ∧ exec (.bwait sc n) s = .next (s.waits h .barrier)) ∧
      (h.pend.getLsbD i = true → closing s →
        exec (.barr sc n) s = .next (if ends s = true then (chosen s).retired h else (chosen s).waits h .barrier) ∧
        (refreshPoint .x (chosen s) = .ok () s1 → s1.hart = some g →
          exec (.bwait sc n) s = .next (if ends s = true then s1.retired g else (chosen s).waits h .barrier))) ∧
      (h.pend.getLsbD i = false → refreshPoint .x s = .ok () s1 → s1.hart = some g → exec (.bwait sc n) s = .next (s1.retired g)) ∧
      (h.pend.getLsbD i = false → settle .x (wideScope sc) s = .ok () s1 → s1.hart = some h → s1.curStream = .x →
        let gid := h.groups.getD t 0
        let arrived (k : Hart) : State := { s1.putHart k with barriers := SMap.put s1.barriers (16 * gid + n.val) .gathering }
        (checkBarrier t gid n.val (arrived (({ h with pend := h.pend ||| BitVec.twoPow 64 i } : Hart).advance .x)) = .ok () s2 →
          exec (.barr sc n) s = .next (markWait none s2)) ∧
        (h.syncDone.getLsbD i = false →
          checkBarrier t gid n.val (arrived { h with pend := h.pend ||| BitVec.twoPow 64 i, sync := h.sync ||| BitVec.twoPow 64 i, firstWait := none }) =
            .ok () s2 → s2.hart = some g → g.asid = h.asid → s2.curStream = .x → s2.curWord = s.curWord →
          (g.syncDone.getLsbD i = false → ¬closing s2 → exec (.bsync sc n) s = .next (s2.waits g .barrier)) ∧
          (g.syncDone.getLsbD i = true → ∀ k, refreshPoint .x (s2.putHart (done g)) = .ok () s3 →
            s3.hart = some k → exec (.bsync sc n) s = .next (s3.retired k)))) ∧
      (h.syncDone.getLsbD i = true → ∀ k, refreshPoint .x (s.putHart (done h)) = .ok () s1 →
        s1.hart = some k → exec (.bsync sc n) s = .next (s1.retired k)) ∧
      (h.syncDone.getLsbD i = false → h.pend.getLsbD i = true →
        let waited (x : State) := x.mem = s.mem ∧ x.hart = some
          (({ h with firstWait := if h.sync.getLsbD i = true then none else some i } : Hart).waiting .x s.curWord .barrier)
        (¬closing s → ∃ x, exec (.bsync sc n) s = .next x ∧ waited x) ∧
        (closing s → ∀ k, refreshPoint .x ((chosen s).putHart (done h)) = .ok () s1 → s1.hart = some k →
          ∃ x, exec (.bsync sc n) s = .next x ∧ if ends s = true then x = s1.retired k else waited x)) ∧
      (∀ w, h.splitDone = some w → exec (.gsplit rd ra) s = .next (s.retired (({ h with splitDone := none } : Hart).setS .x rd w))) ∧
      (h.splitDone = none →
        let tier := a.toNat % 8
        let good := tier ≠ 0 ∧ tier < 4 ∧ a.toNat / 8 % 32 = 0
        (¬good → exec (.gsplit rd ra) s = .next (s.retired (h.setS .x rd 0xFFFFFFFFFFFFFFFF))) ∧
        (good → h.arrival ≠ none → (¬closing s → exec (.gsplit rd ra) s = .next (s.waits h .split)) ∧
          (closing s → ∃ v, exec (.gsplit rd ra) s = .next (if ends s = true then
            (chosen (chosen s)).retired (({ h with arrival := none } : Hart).setS .x rd v) else (chosen s).waits h .split))) ∧
        (good → h.arrival = none →
          checkSplit (tier - 1) (h.groups.getD (tier - 1) 0) (s.putHart { h with arrival := some (tier - 1, a.toNat / 2 ^ 8 % 2 ^ 8) }) = .ok () s1 →
          s1.hart = some g → g.asid = h.asid → s1.curStream = .x → s1.curWord = s.curWord →
          (g.splitDone = none → ¬closing s1 → exec (.gsplit rd ra) s = .next (s1.waits g .split)) ∧
          ∀ w, g.splitDone = some w → exec (.gsplit rd ra) s = .next (s1.retired (({ g with splitDone := none } : Hart).setS .x rd w)))) ∧
      (h.triggered = true → exec .ktrig s = .next (s.retired h)) ∧
      (h.triggered = false → settle .x .dev s = .ok () s1 → s1.hart = some g → exec .ktrig s = .next (s1.retired { g with triggered := true })) ∧
      (∀ (u : State) (k : Hart), (if h.triggered = true then u = s ∧ k = h else
          ∃ u0 k0, settle .x .dev s = .ok () u0 ∧ u0.hart = some k0 ∧ k = { k0 with triggered := true } ∧ u = u0.putHart k) → u.curStream = .x →
        u.curWord = s.curWord →
        let left : Hart := k.endAccess
        left.arun = false ∧ ∀ k1, drainHart k.slot (u.putHart left) = .ok () s1 → s1.hart = some k1 → s1.curStream = .x → s1.curWord = s.curWord →
          let clear := (∀ w ∈ s1.held, w.slot ≠ k.slot) ∧ (∀ p ∈ s1.pending, p.slot ≠ k.slot) ∧ s1.arrivalHeld left .x = false
          (¬clear → exec .hend s = .next (s1.waits k1 .level)) ∧
          (clear → (k1.transfers ≠ [] ∨ k1.filling = true → exec .hend s = .next (s1.waits k1 .ended)) ∧
            (k1.transfers = [] → k1.filling = false → endHart s1 = .ok () s2 → exec .hend s = .next (markWait none s2)))) ∧
      (h.live = true → a.toNat % 16 ≠ 0 → exec (.claim rd ra rb) s = .next (s.trapped 0x08 a 0)) ∧
      (h.live = true → a.toNat % 16 = 0 → s.free h a 16 true →
        let m := min b.toNat h.vlmax
        let taken (x : Nat) := min m (x / 2 ^ 64 % 2 ^ 64 - x % 2 ^ 64)
        let answers (k : Hart) (old : Nat) : Hart := { k.setS .x rd (BitVec.ofNat 64 (old % 2 ^ 64)) with vl := BitVec.ofNat 17 (taken old) }
        (∀ core off, s.pending = [] → s.unblocked h → s.localPlace h a 16 core off → s.lsPoisoned core off 16 = false →
          s.inSpill (s.actor h .x) a 16 = false → s.undisturbed h →
          let old := s.ls.readLE (lsIndex core off) 16
          ∃ x, exec (.claim rd ra rb) s = .next x ∧ x.mem = s.mem ∧ x.hart = some ((answers { h with refX := s.tick } old).advance .x).stirred ∧
            x.ls.readLE (lsIndex core off) 8 = (old % 2 ^ 64 + taken old) % 2 ^ 64 ∧
            ∀ y, (y < lsIndex core off ∨ lsIndex core off + 8 ≤ y) → x.ls.read y = s.ls.read y) ∧
        (settle .x .dev s = .ok () s1 → s1.hart = some h → s1.curStream = .x → ∀ old k, (s1.actor h .x).claimBlock a taken s1 = .ok old s2 →
          refreshPoint .x s2 = .ok () s3 → s3.hart = some k → s3.curStream = .x →
          exec (.claim rd ra rb) s = .next (s3.retired (answers k old)))) ∧
      (a.toNat % 16 ≠ 0 → exec (.klaunch rd ra) s = .next (s.trapped 0x08 a 0)) ∧
      (a.toNat % 16 = 0 → s.free h a 16 false → ∀ j w c, (s.actor h .x).load .plain a 8 (some false) s = .ok j s1 →
        (s.actor h .x).load .plain (a + 8) 8 (some false) s1 = .ok w s2 → s2.hart = some h → s2.curStream = .x →
        SMap.get? s2.contexts h.asid = some c →
        let answers (u : State) (v : Nat) := ∀ k, u.hart = some k → exec (.klaunch rd ra) s = .next (u.retired (k.setS u.curStream rd (BitVec.ofNat 64 v)))
        (64 ≤ j → answers s2 3) ∧ (j < 64 → c.nq ≤ j → answers s2 2) ∧
        (j < 64 → j < c.nq → enabledQueue (c.lq0 + j) s2 = .ok none s3 → answers s3 2) ∧
        ∀ q r, j < 64 → j < c.nq → enabledQueue (c.lq0 + j) s2 = .ok (some q) s3 →
          (do
            settle .x .dev
            doorbell (c.lq0 + j) w fun asid => postHartEvent asid 4 0 h.slot (BitVec.ofNat 64 (c.lq0 + j)) 0 0) s3 = .ok r s4 →
          answers s4 (if r = .accepted ∨ w = q.wr then 0 else 1))) ∧
    (let e := s.curEv
     (∀ gid k, k < 16 → s.barrier gid k = .gathering → s.allArrived t gid k = true →
       (t = 3 → s.level = .s2 ∧ ∀ x ∈ s.members 3 gid, s.isFab x = false) →
       ∃ u, checkBarrier t gid k s = .ok () u ∧ u.barrier gid k = .complete ∧ ∀ x ∈ u.harts, x.2.groups.getD t 0 = gid → x.2.pend.getLsbD (16 * t + k) = false) ∧
     (∀ r, doorbell e.a e.w.toNat (fun asid => postEvent asid 4 (BitVec.ofNat 64 e.a) 0 0) s = .ok r s1 → exec .launchQueueDoorbell s = .next s1) ∧
     (s.inService (16 * e.a) = false → exec .kernelDispatch s = .next s) ∧
     (s.inService (16 * e.a) = true → ∀ heads, eachFold (s.contexts.flatMap fun c => (List.range c.2.nq).map (c.2.lq0 + ·)) [] (fun l lq => do
         match ← headOf lq with
         | none => pure l
         | some h => pure (if (diesOf h.r.dmask).headD 0 = e.a then insertHead h l else l)) s = .ok heads s1 →
       tryHeads e.a heads s1 = .ok () s2 → exec .kernelDispatch s = .next s2) ∧
     ((∃ k ∈ s.kernels, k.2.asid = e.a ∧ k.2.kid = e.b ∧ k.2.fab = true) → exec .fabPartReport s = .next { s with kernels := s.kernels.map fun k =>
       if k.2.asid = e.a ∧ k.2.kid = e.b ∧ k.2.fab = true then (k.1, { k.2 with reports := addNum k.2.reports e.c }) else k }) ∧
     ((∀ k ∈ s.kernels, ¬(k.2.asid = e.a ∧ k.2.kid = e.b ∧ k.2.fab = true)) → exec .fabPartReport s = .next { s with
       early := s.early ++ [(e.a, e.b, e.c)] }) ∧
     (∀ c, SMap.get? s.contexts e.a = some c → c.state = .running ∨ c.state = .yielding ∨ c.state = .checkpointing →
       (∃ k ∈ s.kernels, k.2.asid = e.a ∧ k.2.fab = true) → (do
         giveDeadline e.a e.b
         checkCollected e.a) s = .ok () s1 → exec .fabPause s = .next s1) ∧
     (s.members 3 e.a = [] → exec .fabricBarrierCombine s = .next s) ∧
     (e.b < 16 → s.level = .s2 → s.barrier e.a e.b = .gathering → (∃ x ∈ s.members 3 e.a, s.isFab x = true) → s.unreached = [] →
       s.allArrived 3 e.a e.b = true → endPhase 3 e.a e.b s = .ok () s1 → exec .fabricBarrierCombine s = .next s1))

/-- R251 to R256, R261, R265 to R272, R367 to R372: contexts and checkpoints: keys are loaded and cleared, contexts bound, saved and let resume;
a hart that has stopped is acknowledged to the collector once its stores have performed and none of its work is held, and comes back with its context; an event goes to its
parent; a freeze starts a drain, whose end writes its status; a restore rebuilds its pages. The forms marked S, or S and mg, raise privileged
in U mode. The model's choices: what a freeze's release puts first (log 6), the places of a resumption's fields that have no layout (log 19),
a record or page that cannot be written (log 30), and the conditions of a freeze (log 44). -/
def Obligations.ContextsAndCheckpoints : Prop :=
  ∀ (s s1 s2 s3 s4 s5 s6 : State) (h g : Hart) (rd ra : SReg),
    (s.hart = some h →
      let st := s.curStream
      let v := h.sreg st ra
      (h.priv = .u → ∀ i ∈ [Instr.keyset rd ra, .ctxsave ra, .ctxload ra, .asidset rd ra, .ckfreeze ra, .ckrestore ra],
        exec i s = .next (s.trapped 0x04 (s.curWord.setWidth 64) 0)) ∧
      (onlyMg s = .ok () s1 → s1.hart = some h → s1.curStream = st →
        (∀ b, v.toNat % 64 = 0 → s.free h v 128 true → eachFold (List.range 16) 0 (fun x i => do
            let y ← (s1.actor h st).load .home (v + BitVec.ofNat 64 (8 * i)) 8
            pure (x + y * 2 ^ (64 * i))) s1 = .ok b s2 → s2.hart = some h → s2.curStream = st →
          let slot := b % 2 ^ 16
          let op := b / 2 ^ 16 % 2 ^ 8
          let answers (u : State) (n : Nat) := ∀ k, u.hart = some k → exec (.keyset rd ra) s = .next (u.retired (k.setS u.curStream rd (BitVec.ofNat 64 n)))
          (slot = 0 ∨ 511 < slot → answers s2 1) ∧
          (0 < slot → slot ≤ 511 → 1 < op ∨ b / 2 ^ 24 % 2 ^ 40 ≠ 0 ∨ b / 2 ^ 576 % 2 ^ 448 ≠ 0 → answers s2 2) ∧
          (0 < slot → slot ≤ 511 → b / 2 ^ 24 % 2 ^ 40 = 0 → b / 2 ^ 576 % 2 ^ 448 = 0 → drain (fun p => p.key == slot) s2 = .ok () s3 →
            (∀ p ∈ s3.pending, p.key = slot → p.peer ≠ none) →
            (op = 0 → each (List.range 8) (fun i => (s1.actor h st).storeNow (v + BitVec.ofNat 64 (8 + 8 * i)) 8 0) s3 = .ok () s4 →
              answers { s4 with keys := SMap.put s4.keys slot (BitVec.ofNat 512 (b / 2 ^ 64 % 2 ^ 512)) } 0) ∧
            (op = 1 → answers { s3 with keys := SMap.del s3.keys slot } ((s3.contexts.filter fun c => c.2.key == slot).length * 2 ^ 16)))) ∧
        (∀ desc status, formAddr .store (BitVec.ofNat 64 (v.toNat / 128 * 128)) s1 = .ok desc s2 → asidCommand (v.toNat % 128) desc failDrains s2 = .ok status s3 →
          s3.hart = some g → exec (.asidset rd ra) s = .next (s3.retired (g.setS s3.curStream rd (BitVec.ofNat 64 status)))) ∧
        (∀ target d p desc, v.toNat % 8 = 0 → s.free h v 16 true → (s1.actor h st).load .plain v 8 (some false) s1 = .ok target s2 →
          (s1.actor h st).load .plain (v + 8) 4 (some false) s2 = .ok d s3 → (s1.actor h st).place .store (v + 12) 4 (some false) false s3 = .ok p s4 →
          formAddr .load (BitVec.ofNat 64 target) s4 = .ok desc s5 → s5.hart = some h →
          (s5.boundAt desc = none → (s1.actor h st).storeNow (v + 12) 4 2 (some false) none s5 = .ok () s6 → s6.hart = some g →
            exec (.ctxsave ra) s = .next (s6.retired g)) ∧
          ∀ asid c, s5.boundAt desc = some (asid, c) →
            (c.state = .running ∨ c.state = .yielding ∨ c.state = .checkpointing → (do
                modCtx asid fun c => { c with parked := true, waiters := c.waiters ++ [(h.asid, v + 12)] }
                giveDeadline asid d
                checkCollected asid) s5 = .ok () s6 → s6.hart = some g → exec (.ctxsave ra) s = .next (s6.retired g)) ∧
            (c.state = .preempted → (do
                modCtx asid fun c => { c with parked := true }
                (s1.actor h st).storeNow (v + 12) 4 1) s5 = .ok () s6 → s6.hart = some g → exec (.ctxsave ra) s = .next (s6.retired g))) ∧
        (∀ desc, formAddr .load v s1 = .ok desc s2 → s2.hart = some g →
          (s2.boundAt desc = none → exec (.ctxload ra) s = .next (s2.retired g)) ∧
          ∀ asid c, s2.boundAt desc = some (asid, c) → modCtx asid (fun c => { c with parked := false }) s2 = .ok () s3 →
            exec (.ctxload ra) s = .next (s3.retired g)) ∧
        (∀ r status desc asid c, readCk ra true false s1 = .ok (r, status) s2 → s2.hart = some h → s2.curStream = st → formAddr .load r.tdesc s2 = .ok desc s3 →
          s3.boundAt desc = some (asid, c) →
          (c.state = .created → (s2.actor h st).storeNow r.statusAt 1 4 (some false) none s3 = .ok () s4 → s4.hart = some g →
            exec (.ckrestore ra) s = .next (State.retired { s4 with restores := s4.restores ++ [{ asid := h.asid, ck := r, target := some asid }] } g)) ∧
          (c.state ≠ .created → (s2.actor h st).storeNow r.statusAt 1 3 (some false) none s3 = .ok () s4 → s4.hart = some g →
            exec (.ckrestore ra) s = .next (s4.retired g)))) ∧
      (h.priv = .s → ∀ c, SMap.get? s.contexts h.asid = some c → (c.drains ≠ 0 → exec (.ckfreeze ra) s = .next (s.waits h .checkpoint)) ∧
        (c.drains = 0 → ∀ r status pages, readCk ra true true s = .ok (r, status) s1 → settle st .dev s1 = .ok () s2 → s2.hart = some h → s2.curStream = st →
          eachMap (List.range r.npages) (freezePage (s2.actor h st) r) s2 = .ok pages s3 → (s2.actor h st).storeNow r.statusAt 1 1 (some false) none s3 = .ok () s4 →
          (do
            modify fun s => { s with drains := s.drains ++ [{ asid := h.asid, ck := r, pages := pages }] }
            modCtx h.asid fun c => { c with drains := c.drains + 1 }
            if c.state = .running then setCtxState h.asid .checkpointing else pure () : M Unit) s4 = .ok () s5 → s5.hart = some g →
          exec (.ckfreeze ra) s = .next (s5.retired g))) ∧
      (∀ r status, readCk ra false false s = .ok (r, status) s1 → s1.hart = some h → s1.curStream = st →
        (∀ f ∈ [(2, 0#64), (5, 0), (3, 2), (6, 3)], f.1 = status → refreshPoint st (s1.putHart (h.setS st rd f.2)) = .ok () s2 → s2.hart = some g →
          exec (.ckwait rd ra) s = .next (s2.retired g)) ∧
        (status = 1 ∨ status = 4 → exec (.ckwait rd ra) s = .next (s.waits h .checkpoint)))) ∧
    (let e := s.curEv
     (∀ x, SMap.get? s.harts e.a = some x →
       (x.stopped = false ∨ x.acked = true ∨ (∃ w ∈ s.held, w.slot = e.a) → exec .collectorAcknowledgement s = .next s) ∧
       (drainHart e.a s = .ok () s1 → (∃ p ∈ s1.pending, p.slot = e.a) → exec .collectorAcknowledgement s = .next s) ∧
       (collectHart e.a s = .ok () s1 → exec .collectorAcknowledgement s = .next s1)) ∧
     (∀ x c, SMap.get? s.harts e.a = some x → x.deadline = some 0 → x.stopped = false → SMap.get? s.contexts x.asid = some c → c.state = .yielding →
       ∃ t, exec .yieldDeadlineExpiry s = .next t ∧ t.mem = s.mem ∧ t.harts = SMap.put s.harts e.a
         { x with stopped := true, deadline := none, waitA := none, waitX := none, waitCap := none, firstWait := none, openA := none } ∧ t.contexts = SMap.put s.contexts x.asid { c with forced := c.forced + 1 }) ∧
     (∀ c, SMap.get? s.contexts e.a = some c → c.state = .preempted → c.parked = false → s.canResume e.a = true → (do
         each (s.coresOf e.a) fun core => do
           switchCore e.a core
           reloadCore e.a core
         each (s.savedHarts e.a) reloadHart
         moveBarriers e.a .broken .gathering : M Unit) s = .ok () s1 → (do
         setCtxState e.a .running
         postEvent e.a 5 0 0 0
         each (s.kernels.filter fun k => k.2.partOf e.a) fun k => tellPeers (.placed e.a k.2.kid)
         each ((s.savedHarts e.a).map Hart.slot) retakeHart
         contextEmpty e.a : M Unit) { s1 with
           savedCores := SMap.delRange s1.savedCores (e.a * 64) (e.a * 64 + 64)
           cores := s1.cores.map fun k => { k with icache := k.icache.filter fun x => match x.2 with
             | .poison _ _ => decide (x.1 / 2 ^ 64 ≠ e.a)
             | .word _ _ => true } } = .ok () s2 → exec .contextResumption s = .next s2) ∧
     (∀ x, (s.core e.a).ctxEvents[e.b]? = some x →
       let gone (u : State) := u.modCore e.a fun k => { k with ctxEvents := k.ctxEvents.eraseIdx e.b }
       let first := ∀ y ∈ (s.core e.a).ctxEvents.take e.b, y.parent ≠ x.parent
       (¬first → exec .contextEventWrite s = .next s) ∧
       (first → x.parent = 0xFFFF → exec .contextEventWrite s =
         .next (if s.hostEvents.length < 256 then gone { s with hostEvents := s.hostEvents ++ [x.words] } else s)) ∧
       (first → x.parent ≠ 0xFFFF → ∀ c evr sz hd tl, SMap.get? s.contexts x.parent = some c → hwRead (c.desc + 64) 8 s = .ok evr s1 →
         hwRead (c.desc + 72) 1 s1 = .ok sz s2 → hwRead (c.desc + 80) 8 s2 = .ok hd s3 → hwRead (c.desc + 88) 8 s3 = .ok tl s4 →
         ((hd + 2 ^ 64 - tl) % 2 ^ 64 = 2 ^ (sz % 16) → exec .contextEventWrite s = .next s) ∧
         ((hd + 2 ^ 64 - tl) % 2 ^ 64 ≠ 2 ^ (sz % 16) → (do
             each ([x.words.w0, x.words.w1, x.words.w2, x.words.w3].zipIdx) fun (w, i) =>
               (deviceActor deviceSlot x.parent).storeNow (BitVec.ofNat 64 (evr + hd % 2 ^ (sz % 16) * 32) + BitVec.ofNat 64 (8 * i)) 8 w.toNat
             hwWrite (c.desc + 80) ((hd + 1) % 2 ^ 64) 8) s4 = .ok () s5 → exec .contextEventWrite s = .next (gone s5)))) ∧
     (∀ d n bad, s.drains[e.a]? = some d → writeUnits d s = .ok (n, bad) s1 →
       finishDrain d (some n) (if bad then 3 else 2) { s1 with drains := s1.drains.eraseIdx e.a } = .ok () s2 → exec .drainEnd s = .next s2) ∧
     (∀ r, s.restores[e.a]? = some r → (SMap.get? s.contexts r.asid = none → exec .restoreEnd s = .next { s with restores := s.restores.eraseIdx e.a }) ∧
       ∀ target, SMap.get? s.contexts r.asid ≠ none → r.target = some target →
         restoreRows r target { s with restores := s.restores.eraseIdx e.a } = .ok true s1 → (do
           writeCk r.asid (r.ck.addr + 52) 4 (r.ck.rows * (r.ck.g - 1))
           writeCk r.asid r.ck.statusAt 1 (if r.ck.lost = 31 then 5 else 6) : M Unit) { s1 with freeCtr := s1.freeCtr + 1 } = .ok () s2 →
         exec .restoreEnd s = .next s2))

/-- R17, R18, R22, R140, R213, R254, R255, R362, R374 to R381, R383, R384: the host and the device's own life: a mailbox command that has been
rung is performed where its level permits it, and answers its data, its status and its number; a reset and a trip lead to S0 and keep memory
and the log; the boot events verify the objects of the flash and lead to S1 and to S2, or to the boot code of what fails; and the host's
window and aperture reach the mailbox, the launch queues and memory. The model's choices: the leaf index and where the nonce stands
(log 24), the arguments as doublewords (log 25), the form of the log's data (log 28), that a reset and a trip keep memory and the log and power-on
keeps memory alone, and the aperture and `stage` in S0 (log 29), `stage`'s length test first, with status 2, and a training that the outside decides
(log 46), and the fields that count as reserved (log 50). -/
def Obligations.TheHostIsServed : Prop :=
  ∀ (s s1 s2 s3 : State),
    let e := s.curEv
    let rung (n : Nat) := s.mailbox.status = 1 ∧ s.mailbox.task = n
    let answered (u : State) (status : Nat) (data : List Byte) : State := { u with mailbox := { u.mailbox with
      data := data.take 3840 ++ u.mailbox.data.drop (min data.length 3840), status := BitVec.ofNat 32 status, seq := u.mailbox.bell } }
    let arg (i : Nat) := bytesLE s.mailbox.args (8 * i) 8
    let pa := arg 0
    (s.level = .s0 → ∀ f ∈ [(1, Instr.ctxRoot), (2, .setPcb), (3, .fabricTable), (7, .attest)], rung f.1 → exec f.2 s = .next (answered s 3 [])) ∧
    (rung 1 → s.level ≠ .s0 → (pa % 128 ≠ 0 ∨ inHbm pa = false → exec .ctxRoot s = .next (answered s 2 [])) ∧
      (pa % 128 = 0 → inHbm pa = true → hwWrite (pa + 14) 0xFFFF 2 s = .ok () s1 →
        (∀ b, b ≠ 0 → bindCtx pa s1 = .ok b s2 → exec .ctxRoot s = .next (answered s2 0 (bytesOf b 4))) ∧
        ∀ asid c o, bindCtx pa s1 = .ok 0 s2 → s2.boundAt pa = some (asid, c) → openCtx asid c s2 = .ok o s3 →
          exec .ctxRoot s = .next (answered s3 0 (bytesOf o 4)))) ∧
    (rung 2 → s.level ≠ .s0 → (s.pcb ≠ none ∨ pa % 64 ≠ 0 ∨ inMemory pa 672 = false → exec .setPcb s = .next (answered s 2 [])) ∧
      (s.pcb = none → pa % 64 = 0 → inMemory pa 672 = true → (pcbValid pa s = .ok true s1 → exec .setPcb s = .next (answered { s1 with pcb := some pa } 0 [])) ∧
        (pcbValid pa s = .ok false s1 → exec .setPcb s = .next (answered s1 2 [])))) ∧
    (rung 3 → s.level = .s1 → exec .fabricTable s = .next (answered s 3 [])) ∧
    (rung 3 → s.level = .s2 → ((∃ k ∈ s.kernels, k.2.fab = true) ∨ 512 < arg 1 ∨ arg 1 ≤ arg 2 ∨ inMemory pa (16 * arg 1) = false →
        exec .fabricTable s = .next (answered s 2 [])) ∧
      ((∀ k ∈ s.kernels, k.2.fab = false) → arg 1 ≤ 512 → arg 2 < arg 1 → inMemory pa (16 * arg 1) = true → ∀ es,
        eachMap (List.range (arg 1)) (fun i => hwRead (pa + 16 * i) 16) s = .ok es s1 →
        ((∀ x ∈ es, x / 2 ^ 73 % 2 ^ 7 = 0 ∧ x / 2 ^ 89 % 2 ^ 39 = 0) → exec .fabricTable s = .next (answered { s1 with
          self := arg 2
          fabric := es.map fun x =>
            { id := BitVec.ofNat 64 x, ports := BitVec.ofNat 8 (x / 2 ^ 64), valid := x.testBit 72, key := x / 2 ^ 80 % 512 } } 0 [])) ∧
        ((∃ x ∈ es, x / 2 ^ 73 % 2 ^ 7 ≠ 0 ∨ x / 2 ^ 89 % 2 ^ 39 ≠ 0) → exec .fabricTable s = .next (answered s1 2 [])))) ∧
    (rung 4 → (s.hostEvents = [] → exec .takeEvent s = .next (answered s 6 [])) ∧
      ∀ r rest, s.hostEvents = r :: rest → exec .takeEvent s = .next (answered { s with hostEvents := rest } 0
        ([r.w0, r.w1, r.w2, r.w3].flatMap fun w => bytesOf w.toNat 8))) ∧
    (rung 5 → ∃ recs : List (List Byte), recs.length = min 64 s.log.length ∧ (∀ r ∈ recs, r.length = 32) ∧
      exec .readLog s = .next (answered { s with log := s.log.drop 64 } 0 (bytesOf (min 64 s.log.length) 4 ++ recs.flatten))) ∧
    (rung 6 → (inMemory pa (arg 1) = false ∨ arg 1 < 2836 → exec .stage s = .next (answered s 2 [])) ∧
      (inMemory pa (arg 1) = true → 2836 ≤ arg 1 → ∀ o : FlashObj, eachMap (List.range (arg 1)) (fun i => do
          let b ← hwRead (pa + i) 1
          pure (BitVec.ofNat 8 b)) s = .ok o.bytes s1 → o.kind = bytesLE o.bytes 4 1 → o.die = bytesLE o.bytes 5 1 → o.version = bytesLE o.bytes 8 4 →
        let sound := bytesLE o.bytes 0 4 = 0x50464E5A ∧ (o.kind = 1 ∧ o.die = 0xFF ∨ (o.kind = 2 ∨ o.kind = 3) ∧ o.die ≤ 3) ∧
          (SMap.get? s1.flash.counters (o.kind * 256 + o.die)).getD 0 ≤ o.version ∧ Config.xmssVerify o.bytes = true ∧
          (o.kind = 3 → ((o.bytes.drop 16).take 16).Nodup ∧ ((o.bytes.drop 32).take 32).Nodup ∧
            (∀ b ∈ (o.bytes.drop 16).take 16, b.toNat ≤ 17) ∧ ∀ b ∈ (o.bytes.drop 32).take 32, b.toNat ≤ 33)
        (arg 1 ≠ 16 + bytesLE o.bytes 12 4 + 2820 → exec .stage s = .next (answered s1 2 [])) ∧
        (arg 1 = 16 + bytesLE o.bytes 12 4 + 2820 → (¬sound → exec .stage s = .next (answered s1 4 [])) ∧
          (sound → (∀ x ∈ s1.flash.staged, ¬(x.kind = o.kind ∧ x.die = o.die)) →
            exec .stage s = .next (answered { s1 with flash := { s1.flash with staged := s1.flash.staged ++ [o] } } 0 []))))) ∧
    (rung 7 → s.level ≠ .s0 → (2 ^ 20 ≤ s.flash.leafIndex → exec .attest s = .next (answered s 5 [])) ∧
      (s.flash.leafIndex < 2 ^ 20 →
        let report := s.mailbox.args.take 32 ++ (List.replicate 64 0 :: s.flash.chain).flatten ++ s.flash.versions.flatMap (bytesOf · 4) ++
          bytesOf Config.deviceId.toNat 8
        exec .attest s = .next (answered { s with flash := { s.flash with leafIndex := s.flash.leafIndex + 1 } } 0
          (report ++ bytesOf s.flash.leafIndex 4 ++ bytesOf (Config.xmssSign report s.flash.leafIndex) 2816)))) ∧
    (rung 8 → (511 < pa → exec .keyAperture s = .next (answered s 2 [])) ∧
      (pa ≤ 511 → exec .keyAperture s = .next (answered { s with apKey := pa } 0 []))) ∧
    (let fresh (i : Instr) (boot : Nat) := ∃ t, exec i s = .next t ∧ t.level = .s0 ∧ t.boot = boot ∧ t.harts = [] ∧ t.contexts = [] ∧ t.kernels = [] ∧
        t.pcb = none ∧ t.mem = s.mem ∧ t.ls = [] ∧ t.flash.objects = s.flash.objects ∧ t.flash.leafIndex = s.flash.leafIndex ∧
        (i = .powerOn → t.log = []) ∧ (i = .reset → t.log = s.log ∧ t.mailbox.status = 0 ∧ t.mailbox.seq = s.mailbox.bell) ∧
        (i = .thermalTrip → ∃ unit addr, t.log = (s.logged 8 unit addr).log)
     fresh .powerOn 0 ∧ fresh .thermalTrip 4 ∧ (rung 9 → fresh .reset 0)) ∧
    (s.level = .s0 → s.boot = 0 ∨ s.boot = 4 →
      let f := (s.flash.install 0xFF).install 0
      let c := f.verify [(1, 0xFF)]
      let d := c.1.verify [(2, 0), (3, 0)]
      (c.2 = false → exec .enterS1 s = .next { s with boot := 3 }) ∧
      (c.2 = true → d.2 = false ∨ e.yes = false → exec .enterS1 s = .next { s with boot := 1, flash := d.1 }) ∧
      (c.2 = true → d.2 = true → e.yes = true → ∃ t, exec .enterS1 s = .next t ∧ t.level = .s1 ∧ t.boot = s.boot ∧ t.flash = d.1 ∧ t.mem = s.mem ∧
        t.harts = s.harts ∧ t.mailbox = s.mailbox ∧ (∀ i, i < 16 → (t.core i).phys = bytesLE (d.1.object 3 0) (16 + i) 1) ∧
        ∀ i, i < 32 → t.slices.getD i 0 = bytesLE (d.1.object 3 0) (32 + i) 1)) ∧
    (s.level = .s1 → s.boot = 0 ∨ s.boot = 4 →
      let d := (((s.flash.install 1).install 2).install 3).verify [(2, 1), (3, 1), (2, 2), (3, 2), (2, 3), (3, 3)]
      (d.2 = false ∨ e.yes = false → exec .enterS2 s = .next { s with boot := 2, flash := d.1 }) ∧
      (d.2 = true → e.yes = true → ∃ t, exec .enterS2 s = .next t ∧ t.level = .s2 ∧ t.boot = s.boot ∧ t.flash = d.1 ∧ t.mem = s.mem ∧ t.harts = s.harts ∧
        t.clock = Vector.replicate 4 1750 ∧ (∀ p, p < 8 → (t.voltor.getD p .start).state = .training ∧ (t.voltor.getD p .start).cycles = 0) ∧
        (∀ i, 16 ≤ i → i < 64 → (t.core i).phys = bytesLE (d.1.object 3 (i / 16)) (16 + i % 16) 1) ∧
        ∀ i, 32 ≤ i → i < 128 → t.slices.getD i 0 = bytesLE (d.1.object 3 (i / 32)) (32 + i % 32) 1)) ∧
    (∀ (f : Flash) (k d : Nat),
      let o := f.object k d
      let takes := f.accepts o = true ∧ bytesLE o 4 1 = k ∧ bytesLE o 5 1 = d
      (takes → ∃ g, f.verify [(k, d)] = (g, true) ∧ g.objects = f.objects ∧ g.staged = f.staged ∧ g.versions = f.versions ++ [bytesLE o 8 4] ∧
        g.chain = f.chain ++ [shake256 (f.chain.getLastD (List.replicate 64 0) ++ shake256 o 64) 64] ∧
        bytesLE o 8 4 ≤ (SMap.get? g.counters (k * 256 + d)).getD 0) ∧
      (¬takes → f.verify [(k, d)] = (f, false))) ∧
    (e.yes = false → (e.a + e.b ≤ 0x1000 → let x := if e.b ≤ 8 then e.w.toNat else e.data
        exec .deviceWindowWrite s = .next { s with
          mailbox := (List.range e.b).foldl (fun m i => m.putByte (e.a + i) (x / 2 ^ (8 * i) % 2 ^ 8)) s.mailbox }) ∧
      (e.a = 0x1000 → e.b = 4 →
        let seq := BitVec.ofNat 32 e.w.toNat
        (s.mailbox.status = 1 → exec .deviceWindowWrite s = .next (s.logged 4 0 0x1000)) ∧
        (s.mailbox.status ≠ 1 → exec .deviceWindowWrite s = .next { s with mailbox :=
          if 1 ≤ s.mailbox.cmd.toNat ∧ s.mailbox.cmd.toNat ≤ 9 then { s.mailbox with bell := seq, task := s.mailbox.cmd.toNat, status := 1 } else { s.mailbox with status := 2, seq := seq } })) ∧
      (∀ lq r, lq < 4096 → e.a = 0x100000 + 8 * lq → e.b = 8 →
        doorbell lq e.w.toNat (fun asid => postEvent asid 4 (BitVec.ofNat 64 lq) 0 0) s = .ok r s1 → exec .deviceWindowWrite s = .next s1) ∧
      (0x1000 < e.a → e.a < 0x100000 ∨ 0x108000 ≤ e.a → exec .deviceWindowWrite s = .next (s.logged 5 0 e.a))) ∧
    (e.yes = true → (e.b = 4 → ∀ x, (e.a, x) ∈ [(0, s.mailbox.cmd), (4, s.mailbox.seq), (8, s.mailbox.status)] →
        exec .deviceWindowWrite s = .next { s with hostRead := x.toNat }) ∧
      (e.a = 0x2000 → e.b = 8 → exec .deviceWindowWrite s = .next { s with hostRead := s.status.toNat }) ∧
      (1 ≤ e.b → 0x1000 < e.a ∧ e.a + e.b ≤ 0x2000 ∨ 0x2008 ≤ e.a ∧ e.a < 0x100000 ∨ 0x108000 ≤ e.a → exec .deviceWindowWrite s = .next { s.logged 5 0 e.a with hostRead := 0 })) ∧
    (s.boot < 16 →
      (s.status.extractLsb' 0 4 = match s.level with | .s0 => 0 | .s1 => 1 | .s2 => 2) ∧ s.status.extractLsb' 4 4 = BitVec.ofNat 4 s.boot ∧
      (∀ p, p < 8 → (s.status.getLsbD (8 + p) = true ↔ (s.voltor.getD p .start).state = .up ∨ (s.voltor.getD p .start).state = .degraded)) ∧
      ∀ p, p < 4 → s.status.getLsbD (16 + p) = (s.cxl.getD p .untrained == .up) ∧ s.status.getLsbD (24 + p) = (s.cxl.getD p .untrained == .failed)) ∧
    (hbmEnd < e.a + e.b → exec .apertureWrite s = .next (s.logged 5 0 e.a) ∧
      exec .apertureRead s = .next { s with hostRead := 2 ^ (8 * e.b) - 1 }) ∧
    (e.a + e.b ≤ hbmEnd → s.level ≠ .s0 →
      (1 ≤ e.b → e.a % 8 + e.b ≤ 8 → outsideStore s.apKey e.a e.b (e.w.toNat % 2 ^ (8 * e.b)) s = .ok () s2 →
        exec .apertureWrite s = .next s2) ∧
      (8 < e.b → outsideWrite s.apKey e.a e.b e.data s = .ok () s2 → exec .apertureWrite s = .next s2) ∧
      (e.a % 32 = 0 → e.b = 32 → s.drains = [] → outsideWrite s.apKey e.a 32 e.data s = .ok () s2 → e.a / 32 ∉ s2.poison) ∧
      (1 ≤ e.b → e.a % 8 + e.b ≤ 8 → ∀ v, outsideLoad s.apKey e.a e.b s = .ok v s3 → exec .apertureRead s = .next { s3 with hostRead := v }) ∧
      ∀ v, outsideRead s.apKey e.a e.b s = .ok v s3 → exec .apertureRead s = .next { s3 with hostRead := v })

/-- R14, R27, R67, R140, R155, R218, R235, R258, R267, R360, R361, R363, R364, R376, R378, R382 to R384: the links and the background: ports train,
fail and lose their signal; a flit in sequence is delivered, what it acknowledges leaves the replay buffer, and a flit that is sent joins it;
accesses of peers reach their home; a store with no route is dropped and reported; errors are counted and
poison what they strike; clocks step; cycles pass, and the waits on banks are counted; fetch runs ahead; and a hart that has been deadlocked for
64 cycles traps. The model's choices: the line that a fetch ahead poisons (log 9), whose stores may be lost and when (log 17), what a cycle counts
and that it does not end while a ready stream has still to issue in it (log 22), the names of the flit's fields (log 49), the log's units and
addresses that the spec does not state (log 28), how errors strike (log 38), and a clock that rises again (log 47). -/
def Obligations.LinksAndBackgroundGoOn : Prop :=
  ∀ (s s1 : State),
    let e := s.curEv
    let p := e.a
    let v := s.voltor.getD p .start
    let port (x : Voltor) : State := { s with voltor := vput s.voltor p x }
    (p < 4 → s.level = .s2 → s.cxl.getD p .failed = .untrained → exec .cxlPortTrainingDone s = .next (if e.yes = true then { s with cxl := vput s.cxl p .up }
      else State.logged { s with cxl := vput s.cxl p .failed } 7 p 0)) ∧
    (p < 8 → v.state = .training →
      (e.b ≤ 32 → e.c ≤ 2 → v.cycles < 2 ^ 24 → exec .voltorTrainingDone s = .next (if e.b = 0 then port { v with state := .up, replaced := 0 }
        else if e.b ≤ e.c then port { v with state := .degraded, replaced := e.b } else (port { v with state := .failed }).logged 7 p 0)) ∧
      (2 ^ 24 ≤ v.cycles → exec .voltorTrainingTimeout s = .next ((port { v with state := .failed }).logged 7 p 0))) ∧
    (p < 8 → v.state = .up ∨ v.state = .degraded → exec .voltorLaneFault s = .next (port { v with state := .training, cycles := 0 })) ∧
    (p < 8 → v.state = .down → s.level = .s2 → exec .voltorFirmwareCommand s = .next (port { v with state := .training, cycles := 0 })) ∧
    (p < 8 → v.state ≠ .failed → exec .lossOfSignal s = .next (port { v with state := .down })) ∧
    (p < 8 → v.state = .up ∨ v.state = .degraded →
      let flit := BitVec.ofNat 2048 e.data
      let seq := Config.flitSeq (flit.extractLsb' 0 128)
      let good := Config.crc64 (flit.extractLsb' 0 1984) = flit.extractLsb' 1984 64
      let ack := Config.flitAck (flit.extractLsb' 1920 64)
      (¬good → exec .flitReceive s = .next s) ∧
      (good → ∃ t, exec .flitReceive s = .next t ∧ t.mem = s.mem ∧ t.harts = s.harts ∧
        let w := t.voltor.getD p .start
        w.state = v.state ∧ w.txSeq = v.txSeq ∧ w.delivered = (if seq = v.rxSeq then v.delivered ++ [flit] else v.delivered) ∧
        w.rxSeq = (if seq = v.rxSeq then v.rxSeq + 1 else v.rxSeq) ∧
        ∀ x : SentFlit, x ∈ w.replay ↔ x ∈ v.replay ∧ 2 ^ 15 ≤ (ack - x.seq).toNat)) ∧
    (∀ f m k, k < 8 → s.openPorts f m.flits = [k] → ∃ t fs, sendFlit f m s = .ok () t ∧ t.mem = s.mem ∧ t.harts = s.harts ∧
      let v := s.voltor.getD k .start
      t.voltor.getD k .start = { v with txSeq := v.txSeq + BitVec.ofNat 16 m.flits, replay := v.replay ++ fs } ∧ fs.length = m.flits ∧
      (∀ i x, fs[i]? = some x → x.seq = v.txSeq + BitVec.ofNat 16 i ∧ x.store = (if i = 0 then m.carries else none) ∧
        ∃ n, x.bits = flitOf x.seq (v.rxSeq - 1) n (Config.flitPayload m.words i)) ∧
      ∀ i, i ≠ k → t.voltor.getD i .start = s.voltor.getD i .start) ∧
    (∀ q k n d, let flit := flitOf q k n d
      Config.flitSeq (flit.extractLsb' 0 128) = q ∧ Config.flitAck (flit.extractLsb' 1920 64) = k ∧ flit.extractLsb' 128 1792 = d ∧
      Config.crc64 (flit.extractLsb' 0 1984) = flit.extractLsb' 1984 64) ∧
    (∀ f, s.fabric[p]? = some f → f.valid = true → s.peerReached f = true → s.peerWaits p 2 = false → s.level = .s2 → e.b + e.c ≤ hbmEnd →
      (e.d = 0 → e.yes = true → (1 ≤ e.c → e.b % 8 + e.c ≤ 8 → outsideStore f.key e.b e.c (e.data % 2 ^ (8 * e.c)) s = .ok () s1 →
          exec .peerAccessArrival s = .next s1) ∧
        (e.c ≤ 256 → outsideWrite f.key e.b e.c e.data s = .ok () s1 → exec .peerAccessArrival s = .next s1)) ∧
      (e.d = 0 → e.yes = false → e.c ≤ 256 → ∀ x s2, outsideRead f.key e.b e.c s = .ok x s1 → sendFlit p (.answer x e.c) s1 = .ok () s2 →
        exec .peerAccessArrival s = .next s2) ∧
      ∀ op, (e.d, op) ∈ [(1, AmoOp.add), (2, .swap), (3, .max), (4, .min), (5, .maxN), (6, .minN), (7, .and), (8, .or), (9, .cas)] → e.c = 4 ∨ e.c = 8 →
        e.b % e.c = 0 → ∀ old s2 s3, outsideLoad f.key e.b e.c s = .ok old s1 →
        let new := op.result (8 * e.c) old (e.w.toNat % 2 ^ (8 * e.c)) (e.data % 2 ^ (8 * e.c))
        (∀ n, new = some n → outsideStore f.key e.b e.c n s1 = .ok () s2 → sendFlit p (.answer old e.c) s2 = .ok () s3 → exec .peerAccessArrival s = .next s3) ∧
        (new = none → sendFlit p (.answer old e.c) s1 = .ok () s3 → exec .peerAccessArrival s = .next s3)) ∧
    (let reports (u : State) (asid peer : Nat) (r : State) : Prop :=
       let mine (x : Lost) : Bool := x.asid == asid && x.peer == peer
       let v : State := { u with lost := u.lost.filter fun x => !mine x }
       ∃ x rest, u.lost.filter mine = x :: rest ∧ (SMap.get? s.contexts asid = none → r = v) ∧ (SMap.get? s.contexts asid ≠ none →
         postHartEvent asid 7 0 x.slot (BitVec.ofNat 64 peer) (BitVec.ofNat 64 (0x8000000000000 + peer * 0x10000000000 + x.off))
           (BitVec.ofNat 64 (rest.length + 1)) v = .ok () r)
     (∀ q f a, e.yes = false → s.pending[p]? = some q → q.peer = some (f, a) → s.level = .s2 → s.peerWaits f (PeerMsg.store q).flits = false →
       s.openPorts f (PeerMsg.store q).flits = [] →
       reports { s with pending := s.pending.eraseIdx p, lost := s.lost ++ [{ asid := q.asid, slot := q.slot, peer := f, off := a }] } q.asid f s1 →
       exec .peerStoreLost s = .next s1) ∧
     ∀ x rest, e.yes = true → s.lost = x :: rest → reports s x.asid x.peer s1 → exec .peerStoreLost s = .next s1) ∧
    (∃ addr, exec .eccCorrected s = .next (let u := State.logged { s with freeCtr := s.freeCtr + 1 } 1 p addr
      if e.yes = true then u.logged 6 p addr else u)) ∧
    (∃ other, let u : State := { s with freeCtr := s.freeCtr + 1 }
      (e.b = 1 → exec .eccUncorrectable s = .next (State.logged { u with lsPoison := addNum s.lsPoison (p / 8) } 2 (p / 2 ^ 20) other)) ∧
      (e.b = 0 → ∃ t, exec .eccUncorrectable s = .next t ∧ t.poison = addNum s.poison (p / 32) ∧ t.mem = s.mem ∧ t.harts = s.harts ∧
        t.log = (s.logged 2 other p).log) ∧
      (e.b = 7 → exec .eccUncorrectable s = .next (State.logged { u with slicePoison := addNum s.slicePoison (p / 8) } 2 (other % 128) p)) ∧
      (e.b = 5 → e.c < 64 → ∀ line, SMap.get? (s.core e.c).l1 (p / 32) = some line →
        exec .eccUncorrectable s = .next (State.logged (u.modCore e.c fun c =>
          { c with l1 := SMap.put c.l1 (p / 32) { line with poison := addNum line.poison (p / 8 % 4) } }) 2 e.c p))) ∧
    (p < 4 → let now := s.clock.getD p 875
      let top := if s.level = .s2 then 1750 else 875
      (e.yes = true → now + 125 ≤ top → exec .thermalLimit s = .next { s with clock := vput s.clock p (now + 125) }) ∧
      (e.yes = false → 1000 ≤ now → exec .thermalLimit s = .next { s with clock := vput s.clock p (now - 125) })) ∧
    (p < 4 → s.level = .s2 → s.pcb ≠ none → ∀ n w tier s2 s3, ringCount p s = .ok n s1 → pcbWord (0x20 + 16 * p) s1 = .ok (some w) s2 →
      demotionTier s2 = .ok (some tier) s3 → let low := w % 2 ^ 32
      let high := w / 2 ^ 32 % 2 ^ 32
      (s.sweeping.getD p false = false → n < low → exec .evictionSweep s = .next { s3 with sweeping := vput s3.sweeping p true }) ∧
      (s.sweeping.getD p false = true → high ≤ n → exec .evictionSweep s = .next { s3 with sweeping := vput s3.sweeping p false }) ∧
      ∀ s4, s.sweeping.getD p false = true → n < high →
        examineFrame (p * 0x180000 * 2 ^ 16 + s.hands.getD p 0 * 2 ^ 16) tier s3 = .ok () s4 →
        exec .evictionSweep s = .next { s4 with hands := vput s4.hands p ((s.hands.getD p 0 + 1) % 0x180000) }) ∧
    (∀ h, SMap.get? s.harts p = some h → h.deadlocked = true → 64 ≤ h.deadCount →
      trapEntry 0x0E (h.wordX.setWidth 64) 0 { s with curSlot := p, curStream := .x } = .ok () s1 →
      exec .queueDeadlock s = .next { s1 with curSlot := s.curSlot, curStream := s.curStream }) ∧
    (∀ h, SMap.get? s.harts p = some h →
      let va := e.w.toNat / 4 * 4
      let u := { s with curSlot := p, curStream := .x }
      let back (x : State) : State := { x with curSlot := s.curSlot, curStream := s.curStream }
      (∀ a w, fetchHome (u.actor h .x) (BitVec.ofNat 64 va) u = .ok (some a, w) s1 → exec .instructionFetchAhead s = .next ((back s1).modCore (coreOfSlot p) fun c =>
        { c with icache := SMap.put c.icache (icKey h.asid va) (.word a w) })) ∧
      ∀ c x b k, fetchHome (u.actor h .x) (BitVec.ofNat 64 va) u = .error (.trap c x b k) s1 → coreOfSlot p < 64 → ∃ t, exec .instructionFetchAhead s = .next t ∧
        t.mem = s.mem ∧ t.harts = s.harts ∧ ∀ i, i < 64 → SMap.get? (t.core (coreOfSlot p)).icache (icKey h.asid (va / 256 * 256 + 4 * i)) = some (.poison c b)) ∧
    (s.owes p = true → exec .cycleCounterAdvance s = .next s) ∧
    (s.level = .s2 → p < 64 → s.owes p = false → e.yes = false → ∃ t, exec .cycleCounterAdvance s = .next t ∧ t.mem = s.mem ∧
      (t.core p).cyc = (s.core p).cyc + 1 ∧ (t.core p).issued = [] ∧
      (∀ k, k ≠ p → t.core k = s.core k) ∧
      ∀ x h, SMap.get? s.harts x = some h → coreOfSlot x = p → ∃ g, SMap.get? t.harts x = some g ∧
        g.rfc = if h.live = true ∧ h.banks = true ∧ e.w.getLsbD (x % 16) = true then BitVec.ofNat 32 (min (h.rfc.toNat + 1) (2 ^ 32 - 1)) else h.rfc)

/-- R20, R25, R34 to R36, R94, R116, R257, R258, R298: the turn of a stream that its core chooses runs the instruction that the four bytes fetched at
its program counter decode to, in the state that the fetch leaves, in the present cycle of its core or, where its class has issued in it, in the next;
the null word, a word that is no instruction and a word that cannot be fetched run the rows that trap; a stream that is not chosen, or that waits for
a register whose value S1 holds, does nothing; no ready stream of another hart in the class goes before the one chosen, by priority and then by
rotation; and an event in the agenda runs with what the outside decides about it. The model's choices: whose turn it is (log 1), what a cycle is
(log 22), and loads that take their value at a later turn, which comes before the turn that would need it (log 7). -/
def Obligations.StepRunsTheDecodedInstruction : Prop :=
  (∀ (u : State) (t : Turn), u.late = [] → u.fixedBy t = u) ∧
  (∀ (v : State) (g : Hart) (st st' : StreamId) (c : IssueClass) (e : Nat × Hart), v.chosen g st c = true → e ∈ v.harts →
    coreOfSlot e.1 = coreOfSlot g.slot → e.1 ≠ g.slot → v.ready e.2 st' = true → v.issueClass e.2 st' = c →
    v.priority e.2 ≤ v.priority g ∧ (v.priority e.2 = v.priority g → v.distance g c ≤ v.distance e.2 c)) ∧
  ∀ (s : State) (rest : List Turn),
    let begun (t : Turn) : State := ({ s with tick := s.tick + 1, agenda := rest } : State).fixedBy t
    (∀ slot st h, s.agenda = .issue slot st :: rest →
      let b := begun (.issue slot st)
      SMap.get? b.harts slot = some h →
      let core := coreOfSlot slot
      let c := b.issueClass h st
      let issued := (b.core core).issued.contains c
      (issued = true → b.owes core = true → step s = .next b) ∧
      ∀ v g, (issued = false → v = b) → (issued = true → b.owes core = false ∧ v = tickCore core b) → SMap.get? v.harts slot = some g →
        (v.chosen g st c = false → step s = .next b) ∧
        (v.chosen g st c = true →
          let u : State := { v with curSlot := slot, curStream := st, curWord := 0, curFetch := (0, 0), curStop := none }
          (∀ w y, fetchWord u = .ok w y →
            let x : State := { y with curWord := w }
            (∀ i, decodeBytes (bytesOfWord w.toNat) = some (.instr i, []) →
              (x.awaits slot st i = false → step s = exec i (x.charge slot c)) ∧ (x.awaits slot st i = true → step s = .next b)) ∧
            (w = 0 → step s = exec .nullFetch (x.charge slot c)) ∧
            ∀ r, decodeBytes (bytesOfWord w.toNat) = some (.illegal r, []) → step s = exec .illegalInstruction (x.charge slot c)) ∧
          ∀ k a n z y, fetchWord u = .error (.trap k a n z) y →
            step s = exec .fetchForIssueFault (State.charge { u with curFetch := (k, n), freeCtr := y.freeCtr } slot c))) ∧
    (∀ slot st k i x, s.agenda = .issueTo slot st k :: rest → fetchTurn slot st (begun (.issueTo slot st k)) = some (i, x) →
      step s = exec i { x with curStop := some k }) ∧
    ∀ i e, s.agenda = .event i e :: rest → step s = exec i { begun (.event i e) with curEv := e }

/-- R28 to R35, R44, R45: words of the spec's own examples, one or more of every family, decode to the instructions that they stand for, and the
null word, the all-ones word and a word with a reserved bit set to none. -/
def Obligations.WordsDecodeAsTheSpecReadsThem : Prop :=
  (∀ f ∈ ([(0x00000014, .addi 0 0 0), (0x0001F01A, .jalr 0 31 0), (0x00010F9C, .jal 31 16), (0x01905318, .ext 6 5 8 3), (0x000A4330, .add 6 4 5),
      (0x06CA43B0, .lea 7 4 5 3), (0x00012538, .qpop 10 1), (0x0002A338, .qpeek 6 5), (0x04490540, .vmul 10 8 9), (0x34490140, .vcmp .lt 2 8 9),
      (0x07E90541, .vaddImm 10 8 (-3)), (0x70280541, .vtag 10 .i32), (0x20125244, .setvl 4 5 .fp32 .d8 false false 16),
      (0x09860045, .mode (some 3) .rtz true), (0xFC2082D0, .lwMd 5 4 (-8) false), (0x20708350, .ldMd 6 4 64 true), (0x083083D1, .sdMd 7 4 16),
      (0x028C8454, .vlds 8 4 5 false), (0x00088856, .vldsegMd 1 16 4 0), (0xBC1C8358, .cas .dev .ar true 6 7 4), (0x431480DA, .vgat 1 .w false 4 5 6),
      (0x000A40DC, .cut 1 4 5), (0x08594060, .mstreamLocal 0 10 11), (0x00C00262, .ocommitPub 4), (0x3D8A4362, .frref .ar .dev 6 4 5),
      (0x01C063E4, .evwait 7 6), (0x12020066, .bsync .core 1), (0x00220068, .sattn 16 4), (0x045000EA, .dtmaskPred 1 0 10),
      (0x06C80070, .fence .dev .all), (0x01D00370, .csrr 6 .cyc), (0x00204070, .ctxsave 4)] : List (Nat × Instr)), decodeTableWord 32 f.1 = some f.2) ∧
  ∀ w ∈ [0x00000000, 0xFFFFFFFF, 0x0000001F, 0x80000330], decodeTableWord 32 w = none

/-- R28 to R33, R44, R45: for every instruction of the table that has a word, with its operands within the limits of its form, the word has 32
bits and decodes to that instruction, every operand included. -/
def Obligations.DecodingInvertsEncoding : Prop :=
  ∀ (i : Instr) (w : Nat), i.wf = true → encode i = some w → w < 2 ^ 32 ∧ decodeTableWord 32 w = some i

/-- The form of the memory is the model's choice (log 3): every step, from any state, keeps memory and the local stores in their canonical
form. -/
def Obligations.MemoryStaysCanonical : Prop :=
  ∀ s t : State, s.MemInv → step s = .next t → t.MemInv

/-- R17, R18, R47, R48, R54, R80, R238, R251, R283: after reset the device is in S0 with no hart and no context, and its memory is in canonical
form; and a hart starts with its registers as the spec has them. -/
def Obligations.ResetAndHartStart : Prop :=
  State.reset.level = .s0 ∧ State.reset.boot = 0 ∧ State.reset.harts = [] ∧ State.reset.contexts = [] ∧ State.reset.kernels = [] ∧ State.reset.MemInv ∧
  (∀ c : Nat, (State.reset.core c).cyc = 0) ∧
  ∀ (slot asid kernel : Nat) (xentry arg : Word64) (grant req : Nat) (gcoord : Word64) (groups : Vector Nat 4) (thandler tstack ewin : Word64) (tick : Nat),
    let h := Hart.start slot asid kernel xentry arg grant req gcoord groups thandler tstack ewin tick
    (∀ st r, h.sreg st r = if r.val = 1 then arg else 0) ∧ (xentry.toNat % 4 = 0 → h.xpc = xentry) ∧ h.arun = false ∧ h.priv = .u ∧
    h.vl = 0 ∧ h.vt = 0 ∧ h.md = 0 ∧ h.live = false ∧ (∀ d : DRegNo, h.d[d] = { base := 0, nodes := [] }) ∧ (∀ b : BRegNo, h.b[b] = 0) ∧
    (∀ q : QNo, h.queueLen q = 0) ∧ (∀ p : SpNo, h.sp[p] = []) ∧ (∀ st, h.resume st = 0) ∧ h.nanv = false ∧ h.rseed = 0 ∧ h.tagCtr = 0 ∧
    h.grant = grant ∧ h.req = req ∧ h.gcoord = gcoord ∧ h.win = false ∧
    ∀ j : Fin 256, h.gen[j] = let g := BitVec.ofNat 32 ((j.val + 1) * 0x9E3779B9); if g = 0 then 1 else g
end

