-- ==== Sys2Proof/Laws/Exec.lean ====
section
/-! SUPPORT. Each arm of the dispatch, as a law of its own. -/

namespace Sys2Proof.Machine

@[simp] theorem exec_andi {s : State} {rd rs imm} : exec (.andi rd rs imm) s = execAndi rd rs imm s := rfl
@[simp] theorem exec_ori {s : State} {rd rs imm} : exec (.ori rd rs imm) s = execOri rd rs imm s := rfl
@[simp] theorem exec_xori {s : State} {rd rs imm} : exec (.xori rd rs imm) s = execXori rd rs imm s := rfl
@[simp] theorem exec_slti {s : State} {rd rs imm} : exec (.slti rd rs imm) s = execSlti rd rs imm s := rfl
@[simp] theorem exec_addi {s : State} {rd rs imm} : exec (.addi rd rs imm) s = execAddi rd rs imm s := rfl
@[simp] theorem exec_slli {s : State} {rd rs n} : exec (.slli rd rs n) s = execSlli rd rs n s := rfl
@[simp] theorem exec_srli {s : State} {rd rs n} : exec (.srli rd rs n) s = execSrli rd rs n s := rfl
@[simp] theorem exec_srai {s : State} {rd rs n} : exec (.srai rd rs n) s = execSrai rd rs n s := rfl
@[simp] theorem exec_ext {s : State} {rd rs pos wm1} : exec (.ext rd rs pos wm1) s = execExt rd rs pos wm1 s := rfl
@[simp] theorem exec_ins {s : State} {rd rs pos wm1} : exec (.ins rd rs pos wm1) s = execIns rd rs pos wm1 s := rfl
@[simp] theorem exec_jalr {s : State} {rd rs imm} : exec (.jalr rd rs imm) s = execJalr rd rs imm s := rfl
@[simp] theorem exec_lhi {s : State} {rd imm} : exec (.lhi rd imm) s = execLhi rd imm s := rfl
@[simp] theorem exec_jal {s : State} {rd off} : exec (.jal rd off) s = execJal rd off s := rfl
@[simp] theorem exec_ctok {s : State} {rs off} : exec (.ctok rs off) s = execCtok rs off s := rfl
@[simp] theorem exec_astart {s : State} {off} : exec (.astart off) s = execAstart off s := rfl
@[simp] theorem exec_beq {s : State} {ra rb off} : exec (.beq ra rb off) s = execBeq ra rb off s := rfl
@[simp] theorem exec_bne {s : State} {ra rb off} : exec (.bne ra rb off) s = execBne ra rb off s := rfl
@[simp] theorem exec_blt {s : State} {ra rb off} : exec (.blt ra rb off) s = execBlt ra rb off s := rfl
@[simp] theorem exec_bge {s : State} {ra rb off} : exec (.bge ra rb off) s = execBge ra rb off s := rfl
@[simp] theorem exec_bltn {s : State} {ra rb off} : exec (.bltn ra rb off) s = execBltn ra rb off s := rfl
@[simp] theorem exec_bgen {s : State} {ra rb off} : exec (.bgen ra rb off) s = execBgen ra rb off s := rfl
@[simp] theorem exec_smb {s : State} {ra rb off} : exec (.smb ra rb off) s = execSmb ra rb off s := rfl
@[simp] theorem exec_add {s : State} {rd ra rb} : exec (.add rd ra rb) s = execAdd rd ra rb s := rfl
@[simp] theorem exec_sub {s : State} {rd ra rb} : exec (.sub rd ra rb) s = execSub rd ra rb s := rfl
@[simp] theorem exec_mul {s : State} {rd ra rb} : exec (.mul rd ra rb) s = execMul rd ra rb s := rfl
@[simp] theorem exec_mulh {s : State} {rd ra rb} : exec (.mulh rd ra rb) s = execMulh rd ra rb s := rfl
@[simp] theorem exec_div {s : State} {rd ra rb} : exec (.div rd ra rb) s = execDiv rd ra rb s := rfl
@[simp] theorem exec_divn {s : State} {rd ra rb} : exec (.divn rd ra rb) s = execDivn rd ra rb s := rfl
@[simp] theorem exec_rem {s : State} {rd ra rb} : exec (.rem rd ra rb) s = execRem rd ra rb s := rfl
@[simp] theorem exec_remn {s : State} {rd ra rb} : exec (.remn rd ra rb) s = execRemn rd ra rb s := rfl
@[simp] theorem exec_and {s : State} {rd ra rb} : exec (.and rd ra rb) s = execAnd rd ra rb s := rfl
@[simp] theorem exec_or {s : State} {rd ra rb} : exec (.or rd ra rb) s = execOr rd ra rb s := rfl
@[simp] theorem exec_xor {s : State} {rd ra rb} : exec (.xor rd ra rb) s = execXor rd ra rb s := rfl
@[simp] theorem exec_sll {s : State} {rd ra rb} : exec (.sll rd ra rb) s = execSll rd ra rb s := rfl
@[simp] theorem exec_srl {s : State} {rd ra rb} : exec (.srl rd ra rb) s = execSrl rd ra rb s := rfl
@[simp] theorem exec_sra {s : State} {rd ra rb} : exec (.sra rd ra rb) s = execSra rd ra rb s := rfl
@[simp] theorem exec_slt {s : State} {rd ra rb} : exec (.slt rd ra rb) s = execSlt rd ra rb s := rfl
@[simp] theorem exec_sltn {s : State} {rd ra rb} : exec (.sltn rd ra rb) s = execSltn rd ra rb s := rfl
@[simp] theorem exec_min {s : State} {rd ra rb} : exec (.min rd ra rb) s = execMin rd ra rb s := rfl
@[simp] theorem exec_max {s : State} {rd ra rb} : exec (.max rd ra rb) s = execMax rd ra rb s := rfl
@[simp] theorem exec_minN {s : State} {rd ra rb} : exec (.minN rd ra rb) s = execMinN rd ra rb s := rfl
@[simp] theorem exec_maxN {s : State} {rd ra rb} : exec (.maxN rd ra rb) s = execMaxN rd ra rb s := rfl
@[simp] theorem exec_clz {s : State} {rd ra} : exec (.clz rd ra) s = execClz rd ra s := rfl
@[simp] theorem exec_popc {s : State} {rd ra} : exec (.popc rd ra) s = execPopc rd ra s := rfl
@[simp] theorem exec_sel {s : State} {rd ra rb} : exec (.sel rd ra rb) s = execSel rd ra rb s := rfl
@[simp] theorem exec_lea {s : State} {rd ra rb n} : exec (.lea rd ra rb n) s = execLea rd ra rb n s := rfl
@[simp] theorem exec_qpush {s : State} {q r} : exec (.qpush q r) s = execQpush q r s := rfl
@[simp] theorem exec_qpop {s : State} {r q} : exec (.qpop r q) s = execQpop r q s := rfl
@[simp] theorem exec_qpeek {s : State} {r q} : exec (.qpeek r q) s = execQpeek r q s := rfl
@[simp] theorem exec_qlen {s : State} {rd q} : exec (.qlen rd q) s = execQlen rd q s := rfl
@[simp] theorem exec_ctake {s : State} {rd} : exec (.ctake rd) s = execCtake rd s := rfl
@[simp] theorem exec_vadd {s : State} {vd va vb} : exec (.vadd vd va vb) s = execVadd vd va vb s := rfl
@[simp] theorem exec_vsub {s : State} {vd va vb} : exec (.vsub vd va vb) s = execVsub vd va vb s := rfl
@[simp] theorem exec_vmul {s : State} {vd va vb} : exec (.vmul vd va vb) s = execVmul vd va vb s := rfl
@[simp] theorem exec_vmadd {s : State} {vd va vb} : exec (.vmadd vd va vb) s = execVmadd vd va vb s := rfl
@[simp] theorem exec_vnmadd {s : State} {vd va vb} : exec (.vnmadd vd va vb) s = execVnmadd vd va vb s := rfl
@[simp] theorem exec_vdiv {s : State} {vd va vb} : exec (.vdiv vd va vb) s = execVdiv vd va vb s := rfl
@[simp] theorem exec_vsqrt {s : State} {vd va} : exec (.vsqrt vd va) s = execVsqrt vd va s := rfl
@[simp] theorem exec_vrsqrt {s : State} {vd va} : exec (.vrsqrt vd va) s = execVrsqrt vd va s := rfl
@[simp] theorem exec_vexp2 {s : State} {vd va} : exec (.vexp2 vd va) s = execVexp2 vd va s := rfl
@[simp] theorem exec_vlog2 {s : State} {vd va} : exec (.vlog2 vd va) s = execVlog2 vd va s := rfl
@[simp] theorem exec_vmax {s : State} {vd va vb} : exec (.vmax vd va vb) s = execVmax vd va vb s := rfl
@[simp] theorem exec_vmin {s : State} {vd va vb} : exec (.vmin vd va vb) s = execVmin vd va vb s := rfl
@[simp] theorem exec_vabs {s : State} {vd va} : exec (.vabs vd va) s = execVabs vd va s := rfl
@[simp] theorem exec_vneg {s : State} {vd va} : exec (.vneg vd va) s = execVneg vd va s := rfl
@[simp] theorem exec_vand {s : State} {vd va vb} : exec (.vand vd va vb) s = execVand vd va vb s := rfl
@[simp] theorem exec_vor {s : State} {vd va vb} : exec (.vor vd va vb) s = execVor vd va vb s := rfl
@[simp] theorem exec_vxor {s : State} {vd va vb} : exec (.vxor vd va vb) s = execVxor vd va vb s := rfl
@[simp] theorem exec_vnot {s : State} {vd va} : exec (.vnot vd va) s = execVnot vd va s := rfl
@[simp] theorem exec_vshl {s : State} {vd va vb} : exec (.vshl vd va vb) s = execVshl vd va vb s := rfl
@[simp] theorem exec_vshr {s : State} {vd va vb} : exec (.vshr vd va vb) s = execVshr vd va vb s := rfl
@[simp] theorem exec_vsra {s : State} {vd va vb} : exec (.vsra vd va vb) s = execVsra vd va vb s := rfl
@[simp] theorem exec_vcmp {s : State} {cc pd va vb} : exec (.vcmp cc pd va vb) s = execVcmp cc pd va vb s := rfl
@[simp] theorem exec_vsel {s : State} {vd va vb} : exec (.vsel vd va vb) s = execVsel vd va vb s := rfl
@[simp] theorem exec_vmv {s : State} {vd va} : exec (.vmv vd va) s = execVmv vd va s := rfl
@[simp] theorem exec_vsplat {s : State} {vd ra} : exec (.vsplat vd ra) s = execVsplat vd ra s := rfl
@[simp] theorem exec_vid {s : State} {vd} : exec (.vid vd) s = execVid vd s := rfl
@[simp] theorem exec_vext {s : State} {rd va rb} : exec (.vext rd va rb) s = execVext rd va rb s := rfl
@[simp] theorem exec_vins {s : State} {vd ra rb} : exec (.vins vd ra rb) s = execVins vd ra rb s := rfl
@[simp] theorem exec_vcvt {s : State} {vd va fmt} : exec (.vcvt vd va fmt) s = execVcvt vd va fmt s := rfl
@[simp] theorem exec_vredsum {s : State} {vd va} : exec (.vredsum vd va) s = execVredsum vd va s := rfl
@[simp] theorem exec_vredmax {s : State} {vd va} : exec (.vredmax vd va) s = execVredmax vd va s := rfl
@[simp] theorem exec_vredmin {s : State} {vd va} : exec (.vredmin vd va) s = execVredmin vd va s := rfl
@[simp] theorem exec_vargmax {s : State} {rd va} : exec (.vargmax rd va) s = execVargmax rd va s := rfl
@[simp] theorem exec_vslideup {s : State} {vd va rb} : exec (.vslideup vd va rb) s = execVslideup vd va rb s := rfl
@[simp] theorem exec_vslidedn {s : State} {vd va rb} : exec (.vslidedn vd va rb) s = execVslidedn vd va rb s := rfl
@[simp] theorem exec_vperm {s : State} {vd va vb} : exec (.vperm vd va vb) s = execVperm vd va vb s := rfl
@[simp] theorem exec_vcompress {s : State} {vd va pb} : exec (.vcompress vd va pb) s = execVcompress vd va pb s := rfl
@[simp] theorem exec_vexpand {s : State} {vd va pb} : exec (.vexpand vd va pb) s = execVexpand vd va pb s := rfl
@[simp] theorem exec_vconf {s : State} {pd va} : exec (.vconf pd va) s = execVconf pd va s := rfl
@[simp] theorem exec_smerge {s : State} {vd va vb} : exec (.smerge vd va vb) s = execSmerge vd va vb s := rfl
@[simp] theorem exec_sapply {s : State} {vd va sp} : exec (.sapply vd va sp) s = execSapply vd va sp s := rfl
@[simp] theorem exec_vaddImm {s : State} {vd va imm} : exec (.vaddImm vd va imm) s = execVaddImm vd va imm s := rfl
@[simp] theorem exec_vsubImm {s : State} {vd va imm} : exec (.vsubImm vd va imm) s = execVsubImm vd va imm s := rfl
@[simp] theorem exec_vmulImm {s : State} {vd va imm} : exec (.vmulImm vd va imm) s = execVmulImm vd va imm s := rfl
@[simp] theorem exec_vmaxImm {s : State} {vd va imm} : exec (.vmaxImm vd va imm) s = execVmaxImm vd va imm s := rfl
@[simp] theorem exec_vminImm {s : State} {vd va imm} : exec (.vminImm vd va imm) s = execVminImm vd va imm s := rfl
@[simp] theorem exec_vandImm {s : State} {vd va imm} : exec (.vandImm vd va imm) s = execVandImm vd va imm s := rfl
@[simp] theorem exec_vorImm {s : State} {vd va imm} : exec (.vorImm vd va imm) s = execVorImm vd va imm s := rfl
@[simp] theorem exec_vxorImm {s : State} {vd va imm} : exec (.vxorImm vd va imm) s = execVxorImm vd va imm s := rfl
@[simp] theorem exec_vshlImm {s : State} {vd va n} : exec (.vshlImm vd va n) s = execVshlImm vd va n s := rfl
@[simp] theorem exec_vshrImm {s : State} {vd va n} : exec (.vshrImm vd va n) s = execVshrImm vd va n s := rfl
@[simp] theorem exec_vsraImm {s : State} {vd va n} : exec (.vsraImm vd va n) s = execVsraImm vd va n s := rfl
@[simp] theorem exec_vslideupImm {s : State} {vd va n} : exec (.vslideupImm vd va n) s = execVslideupImm vd va n s := rfl
@[simp] theorem exec_vslidednImm {s : State} {vd va n} : exec (.vslidednImm vd va n) s = execVslidednImm vd va n s := rfl
@[simp] theorem exec_vsplatImm {s : State} {vd imm} : exec (.vsplatImm vd imm) s = execVsplatImm vd imm s := rfl
@[simp] theorem exec_vtag {s : State} {vd fmt} : exec (.vtag vd fmt) s = execVtag vd fmt s := rfl
@[simp] theorem exec_vcmpImm {s : State} {cc pd va imm} : exec (.vcmpImm cc pd va imm) s = execVcmpImm cc pd va imm s := rfl
@[simp] theorem exec_pand {s : State} {pd pa pb} : exec (.pand pd pa pb) s = execPand pd pa pb s := rfl
@[simp] theorem exec_por {s : State} {pd pa pb} : exec (.por pd pa pb) s = execPor pd pa pb s := rfl
@[simp] theorem exec_pxor {s : State} {pd pa pb} : exec (.pxor pd pa pb) s = execPxor pd pa pb s := rfl
@[simp] theorem exec_pnot {s : State} {pd pa} : exec (.pnot pd pa) s = execPnot pd pa s := rfl
@[simp] theorem exec_psbf {s : State} {pd pa} : exec (.psbf pd pa) s = execPsbf pd pa s := rfl
@[simp] theorem exec_psif {s : State} {pd pa} : exec (.psif pd pa) s = execPsif pd pa s := rfl
@[simp] theorem exec_pfirst {s : State} {rd pa} : exec (.pfirst rd pa) s = execPfirst rd pa s := rfl
@[simp] theorem exec_pcnt {s : State} {rd pa} : exec (.pcnt rd pa) s = execPcnt rd pa s := rfl
@[simp] theorem exec_pset {s : State} {pd ra} : exec (.pset pd ra) s = execPset pd ra s := rfl
@[simp] theorem exec_kmvToScale {s : State} {kd va} : exec (.kmvToScale kd va) s = execKmvToScale kd va s := rfl
@[simp] theorem exec_kmvToVector {s : State} {vd ka} : exec (.kmvToVector vd ka) s = execKmvToVector vd ka s := rfl
@[simp] theorem exec_setvl {s : State} {rd ra fmt dc ftz bl lg} : exec (.setvl rd ra fmt dc ftz bl lg) s = execSetvl rd ra fmt dc ftz bl lg s := rfl
@[simp] theorem exec_mode {s : State} {g rm sat} : exec (.mode g rm sat) s = execMode g rm sat s := rfl
@[simp] theorem exec_lbMd {s : State} {rd ra disp fr} : exec (.lbMd rd ra disp fr) s = execLbMd rd ra disp fr s := rfl
@[simp] theorem exec_lbMx {s : State} {rd ra rb fr} : exec (.lbMx rd ra rb fr) s = execLbMx rd ra rb fr s := rfl
@[simp] theorem exec_lbnMd {s : State} {rd ra disp fr} : exec (.lbnMd rd ra disp fr) s = execLbnMd rd ra disp fr s := rfl
@[simp] theorem exec_lbnMx {s : State} {rd ra rb fr} : exec (.lbnMx rd ra rb fr) s = execLbnMx rd ra rb fr s := rfl
@[simp] theorem exec_lhMd {s : State} {rd ra disp fr} : exec (.lhMd rd ra disp fr) s = execLhMd rd ra disp fr s := rfl
@[simp] theorem exec_lhMx {s : State} {rd ra rb fr} : exec (.lhMx rd ra rb fr) s = execLhMx rd ra rb fr s := rfl
@[simp] theorem exec_lhnMd {s : State} {rd ra disp fr} : exec (.lhnMd rd ra disp fr) s = execLhnMd rd ra disp fr s := rfl
@[simp] theorem exec_lhnMx {s : State} {rd ra rb fr} : exec (.lhnMx rd ra rb fr) s = execLhnMx rd ra rb fr s := rfl
@[simp] theorem exec_lwMd {s : State} {rd ra disp fr} : exec (.lwMd rd ra disp fr) s = execLwMd rd ra disp fr s := rfl
@[simp] theorem exec_lwMx {s : State} {rd ra rb fr} : exec (.lwMx rd ra rb fr) s = execLwMx rd ra rb fr s := rfl
@[simp] theorem exec_lwnMd {s : State} {rd ra disp fr} : exec (.lwnMd rd ra disp fr) s = execLwnMd rd ra disp fr s := rfl
@[simp] theorem exec_lwnMx {s : State} {rd ra rb fr} : exec (.lwnMx rd ra rb fr) s = execLwnMx rd ra rb fr s := rfl
@[simp] theorem exec_ldMd {s : State} {rd ra disp fr} : exec (.ldMd rd ra disp fr) s = execLdMd rd ra disp fr s := rfl
@[simp] theorem exec_ldMx {s : State} {rd ra rb fr} : exec (.ldMx rd ra rb fr) s = execLdMx rd ra rb fr s := rfl
@[simp] theorem exec_prefL1Md {s : State} {ra disp} : exec (.prefL1Md ra disp) s = execPrefL1Md ra disp s := rfl
@[simp] theorem exec_prefL1Mx {s : State} {ra rb} : exec (.prefL1Mx ra rb) s = execPrefL1Mx ra rb s := rfl
@[simp] theorem exec_prefLlcMd {s : State} {ra disp} : exec (.prefLlcMd ra disp) s = execPrefLlcMd ra disp s := rfl
@[simp] theorem exec_prefLlcMx {s : State} {ra rb} : exec (.prefLlcMx ra rb) s = execPrefLlcMx ra rb s := rfl
@[simp] theorem exec_sbMd {s : State} {rs ra disp} : exec (.sbMd rs ra disp) s = execSbMd rs ra disp s := rfl
@[simp] theorem exec_sbMx {s : State} {rs ra rb} : exec (.sbMx rs ra rb) s = execSbMx rs ra rb s := rfl
@[simp] theorem exec_shMd {s : State} {rs ra disp} : exec (.shMd rs ra disp) s = execShMd rs ra disp s := rfl
@[simp] theorem exec_shMx {s : State} {rs ra rb} : exec (.shMx rs ra rb) s = execShMx rs ra rb s := rfl
@[simp] theorem exec_swMd {s : State} {rs ra disp} : exec (.swMd rs ra disp) s = execSwMd rs ra disp s := rfl
@[simp] theorem exec_swMx {s : State} {rs ra rb} : exec (.swMx rs ra rb) s = execSwMx rs ra rb s := rfl
@[simp] theorem exec_sdMd {s : State} {rs ra disp} : exec (.sdMd rs ra disp) s = execSdMd rs ra disp s := rfl
@[simp] theorem exec_sdMx {s : State} {rs ra rb} : exec (.sdMx rs ra rb) s = execSdMx rs ra rb s := rfl
@[simp] theorem exec_vldMd {s : State} {vd ra disp fr} : exec (.vldMd vd ra disp fr) s = execVldMd vd ra disp fr s := rfl
@[simp] theorem exec_vldMx {s : State} {vd ra rb fr} : exec (.vldMx vd ra rb fr) s = execVldMx vd ra rb fr s := rfl
@[simp] theorem exec_vlds {s : State} {vd ra rb fr} : exec (.vlds vd ra rb fr) s = execVlds vd ra rb fr s := rfl
@[simp] theorem exec_vldffMd {s : State} {vd ra disp fr} : exec (.vldffMd vd ra disp fr) s = execVldffMd vd ra disp fr s := rfl
@[simp] theorem exec_vldffMx {s : State} {vd ra rb fr} : exec (.vldffMx vd ra rb fr) s = execVldffMx vd ra rb fr s := rfl
@[simp] theorem exec_ksld {s : State} {kd ra rb fr} : exec (.ksld kd ra rb fr) s = execKsld kd ra rb fr s := rfl
@[simp] theorem exec_vstMd {s : State} {vs ra disp} : exec (.vstMd vs ra disp) s = execVstMd vs ra disp s := rfl
@[simp] theorem exec_vstMx {s : State} {vs ra rb} : exec (.vstMx vs ra rb) s = execVstMx vs ra rb s := rfl
@[simp] theorem exec_vsts {s : State} {vs ra rb} : exec (.vsts vs ra rb) s = execVsts vs ra rb s := rfl
@[simp] theorem exec_vldsegMd {s : State} {n vd ra disp} : exec (.vldsegMd n vd ra disp) s = execVldsegMd n vd ra disp s := rfl
@[simp] theorem exec_vldsegMx {s : State} {n vd ra rb} : exec (.vldsegMx n vd ra rb) s = execVldsegMx n vd ra rb s := rfl
@[simp] theorem exec_vstsegMd {s : State} {n vs ra disp} : exec (.vstsegMd n vs ra disp) s = execVstsegMd n vs ra disp s := rfl
@[simp] theorem exec_vstsegMx {s : State} {n vs ra rb} : exec (.vstsegMx n vs ra rb) s = execVstsegMx n vs ra rb s := rfl
@[simp] theorem exec_amoadd {s : State} {sc o dw rd rb ra} : exec (.amoadd sc o dw rd rb ra) s = execAmoadd sc o dw rd rb ra s := rfl
@[simp] theorem exec_amoswap {s : State} {sc o dw rd rb ra} : exec (.amoswap sc o dw rd rb ra) s = execAmoswap sc o dw rd rb ra s := rfl
@[simp] theorem exec_amomax {s : State} {sc o dw rd rb ra} : exec (.amomax sc o dw rd rb ra) s = execAmomax sc o dw rd rb ra s := rfl
@[simp] theorem exec_amomin {s : State} {sc o dw rd rb ra} : exec (.amomin sc o dw rd rb ra) s = execAmomin sc o dw rd rb ra s := rfl
@[simp] theorem exec_amomaxN {s : State} {sc o dw rd rb ra} : exec (.amomaxN sc o dw rd rb ra) s = execAmomaxN sc o dw rd rb ra s := rfl
@[simp] theorem exec_amominN {s : State} {sc o dw rd rb ra} : exec (.amominN sc o dw rd rb ra) s = execAmominN sc o dw rd rb ra s := rfl
@[simp] theorem exec_amoand {s : State} {sc o dw rd rb ra} : exec (.amoand sc o dw rd rb ra) s = execAmoand sc o dw rd rb ra s := rfl
@[simp] theorem exec_amoor {s : State} {sc o dw rd rb ra} : exec (.amoor sc o dw rd rb ra) s = execAmoor sc o dw rd rb ra s := rfl
@[simp] theorem exec_cas {s : State} {sc o dw rd rb ra} : exec (.cas sc o dw rd rb ra) s = execCas sc o dw rd rb ra s := rfl
@[simp] theorem exec_vgat {s : State} {q ew fr ra rb rc} : exec (.vgat q ew fr ra rb rc) s = execVgat q ew fr ra rb rc s := rfl
@[simp] theorem exec_vgatff {s : State} {q ew fr ra rb rc} : exec (.vgatff q ew fr ra rb rc) s = execVgatff q ew fr ra rb rc s := rfl
@[simp] theorem exec_vsca {s : State} {q ew ra rb rc} : exec (.vsca q ew ra rb rc) s = execVsca q ew ra rb rc s := rfl
@[simp] theorem exec_vscaa {s : State} {q ew ra rb rc} : exec (.vscaa q ew ra rb rc) s = execVscaa q ew ra rb rc s := rfl
@[simp] theorem exec_kvx {s : State} {q ra rb rc} : exec (.kvx q ra rb rc) s = execKvx q ra rb rc s := rfl
@[simp] theorem exec_cut {s : State} {bd ra rb} : exec (.cut bd ra rb) s = execCut bd ra rb s := rfl
@[simp] theorem exec_cutp {s : State} {bd ra rb} : exec (.cutp bd ra rb) s = execCutp bd ra rb s := rfl
@[simp] theorem exec_cutd {s : State} {bd ra rb} : exec (.cutd bd ra rb) s = execCutd bd ra rb s := rfl
@[simp] theorem exec_mshapeCore {s : State} {rd ra rb} : exec (.mshapeCore rd ra rb) s = execMshapeCore rd ra rb s := rfl
@[simp] theorem exec_mshapeDie {s : State} {rd ra rb} : exec (.mshapeDie rd ra rb) s = execMshapeDie rd ra rb s := rfl
@[simp] theorem exec_mlds {s : State} {rd ra} : exec (.mlds rd ra) s = execMlds rd ra s := rfl
@[simp] theorem exec_mswap {s : State} : exec (.mswap) s = execMswap s := rfl
@[simp] theorem exec_mstreamLocal {s : State} {cd ra rb} : exec (.mstreamLocal cd ra rb) s = execMstreamLocal cd ra rb s := rfl
@[simp] theorem exec_mstreamVector {s : State} {cd va rb} : exec (.mstreamVector cd va rb) s = execMstreamVector cd va rb s := rfl
@[simp] theorem exec_mzero {s : State} {cd} : exec (.mzero cd) s = execMzero cd s := rfl
@[simp] theorem exec_mrd {s : State} {vd ca rb} : exec (.mrd vd ca rb) s = execMrd vd ca rb s := rfl
@[simp] theorem exec_mwr {s : State} {cd va rb} : exec (.mwr cd va rb) s = execMwr cd va rb s := rfl
@[simp] theorem exec_opin {s : State} {ra} : exec (.opin ra) s = execOpin ra s := rfl
@[simp] theorem exec_ounpin {s : State} {ra} : exec (.ounpin ra) s = execOunpin ra s := rfl
@[simp] theorem exec_ocommitPriv {s : State} {ra} : exec (.ocommitPriv ra) s = execOcommitPriv ra s := rfl
@[simp] theorem exec_ocommitPub {s : State} {ra} : exec (.ocommitPub ra) s = execOcommitPub ra s := rfl
@[simp] theorem exec_odiscard {s : State} {ra} : exec (.odiscard ra) s = execOdiscard ra s := rfl
@[simp] theorem exec_oquery {s : State} {rd ra rb} : exec (.oquery rd ra rb) s = execOquery rd ra rb s := rfl
@[simp] theorem exec_frref {s : State} {o sc rd ra rb} : exec (.frref o sc rd ra rb) s = execFrref o sc rd ra rb s := rfl
@[simp] theorem exec_cpy {s : State} {rd ra rb} : exec (.cpy rd ra rb) s = execCpy rd ra rb s := rfl
@[simp] theorem exec_cpyx {s : State} {rd ra rb} : exec (.cpyx rd ra rb) s = execCpyx rd ra rb s := rfl
@[simp] theorem exec_cpyz {s : State} {rd ra rb} : exec (.cpyz rd ra rb) s = execCpyz rd ra rb s := rfl
@[simp] theorem exec_cpyp {s : State} {rd ra rb} : exec (.cpyp rd ra rb) s = execCpyp rd ra rb s := rfl
@[simp] theorem exec_cpyd {s : State} {rd ra rb} : exec (.cpyd rd ra rb) s = execCpyd rd ra rb s := rfl
@[simp] theorem exec_kvcompact {s : State} {rd ra rb} : exec (.kvcompact rd ra rb) s = execKvcompact rd ra rb s := rfl
@[simp] theorem exec_lrfence {s : State} : exec (.lrfence) s = execLrfence s := rfl
@[simp] theorem exec_evwait {s : State} {rd ra} : exec (.evwait rd ra) s = execEvwait rd ra s := rfl
@[simp] theorem exec_evpoll {s : State} {rd ra} : exec (.evpoll rd ra) s = execEvpoll rd ra s := rfl
@[simp] theorem exec_klaunch {s : State} {rd ra} : exec (.klaunch rd ra) s = execKlaunch rd ra s := rfl
@[simp] theorem exec_ktrig {s : State} : exec (.ktrig) s = execKtrig s := rfl
@[simp] theorem exec_claim {s : State} {rd ra rb} : exec (.claim rd ra rb) s = execClaim rd ra rb s := rfl
@[simp] theorem exec_vrelease {s : State} : exec (.vrelease) s = execVrelease s := rfl
@[simp] theorem exec_hend {s : State} : exec (.hend) s = execHend s := rfl
@[simp] theorem exec_gsplit {s : State} {rd ra} : exec (.gsplit rd ra) s = execGsplit rd ra s := rfl
@[simp] theorem exec_barr {s : State} {sc n} : exec (.barr sc n) s = execBarr sc n s := rfl
@[simp] theorem exec_bwait {s : State} {sc n} : exec (.bwait sc n) s = execBwait sc n s := rfl
@[simp] theorem exec_bsync {s : State} {sc n} : exec (.bsync sc n) s = execBsync sc n s := rfl
@[simp] theorem exec_sattn {s : State} {va rb} : exec (.sattn va rb) s = execSattn va rb s := rfl
@[simp] theorem exec_spld {s : State} {sp ra} : exec (.spld sp ra) s = execSpld sp ra s := rfl
@[simp] theorem exec_dtinit {s : State} {dd ra} : exec (.dtinit dd ra) s = execDtinit dd ra s := rfl
@[simp] theorem exec_dtadd {s : State} {dd va vb} : exec (.dtadd dd va vb) s = execDtadd dd va vb s := rfl
@[simp] theorem exec_dtmaskPred {s : State} {pd da rb} : exec (.dtmaskPred pd da rb) s = execDtmaskPred pd da rb s := rfl
@[simp] theorem exec_dtmaskVec {s : State} {vd da rb} : exec (.dtmaskVec vd da rb) s = execDtmaskVec vd da rb s := rfl
@[simp] theorem exec_dtpos {s : State} {vd da} : exec (.dtpos vd da) s = execDtpos vd da s := rfl
@[simp] theorem exec_dtacc {s : State} {rd da va} : exec (.dtacc rd da va) s = execDtacc rd da va s := rfl
@[simp] theorem exec_dtprune {s : State} {dd ra} : exec (.dtprune dd ra) s = execDtprune dd ra s := rfl
@[simp] theorem exec_dtld {s : State} {dd ra} : exec (.dtld dd ra) s = execDtld dd ra s := rfl
@[simp] theorem exec_dtst {s : State} {dd ra} : exec (.dtst dd ra) s = execDtst dd ra s := rfl
@[simp] theorem exec_dtinfo {s : State} {rd da} : exec (.dtinfo rd da) s = execDtinfo rd da s := rfl
@[simp] theorem exec_ecall {s : State} {n} : exec (.ecall n) s = execEcall n s := rfl
@[simp] theorem exec_breakpoint {s : State} : exec (.breakpoint) s = execBreakpoint s := rfl
@[simp] theorem exec_eret {s : State} : exec (.eret) s = execEret s := rfl
@[simp] theorem exec_trapack {s : State} : exec (.trapack) s = execTrapack s := rfl
@[simp] theorem exec_yield {s : State} : exec (.yield) s = execYield s := rfl
@[simp] theorem exec_fence {s : State} {sc k} : exec (.fence sc k) s = execFence sc k s := rfl
@[simp] theorem exec_csrr {s : State} {rd csr} : exec (.csrr rd csr) s = execCsrr rd csr s := rfl
@[simp] theorem exec_csrw {s : State} {csr ra} : exec (.csrw csr ra) s = execCsrw csr ra s := rfl
@[simp] theorem exec_csrs {s : State} {rd csr ra} : exec (.csrs rd csr ra) s = execCsrs rd csr ra s := rfl
@[simp] theorem exec_csrc {s : State} {rd csr ra} : exec (.csrc rd csr ra) s = execCsrc rd csr ra s := rfl
@[simp] theorem exec_ctxsave {s : State} {ra} : exec (.ctxsave ra) s = execCtxsave ra s := rfl
@[simp] theorem exec_ctxload {s : State} {ra} : exec (.ctxload ra) s = execCtxload ra s := rfl
@[simp] theorem exec_keyset {s : State} {rd ra} : exec (.keyset rd ra) s = execKeyset rd ra s := rfl
@[simp] theorem exec_asidset {s : State} {rd ra} : exec (.asidset rd ra) s = execAsidset rd ra s := rfl
@[simp] theorem exec_ckfreeze {s : State} {ra} : exec (.ckfreeze ra) s = execCkfreeze ra s := rfl
@[simp] theorem exec_ckwait {s : State} {rd ra} : exec (.ckwait rd ra) s = execCkwait rd ra s := rfl
@[simp] theorem exec_ckrestore {s : State} {ra} : exec (.ckrestore ra) s = execCkrestore ra s := rfl
@[simp] theorem exec_gatherFill {s : State} : exec (.gatherFill) s = execGatherFill s := rfl
@[simp] theorem exec_scatterStatusFill {s : State} : exec (.scatterStatusFill) s = execScatterStatusFill s := rfl
@[simp] theorem exec_kvxFill {s : State} : exec (.kvxFill) s = execKvxFill s := rfl
@[simp] theorem exec_matrixQueueExecute {s : State} : exec (.matrixQueueExecute) s = execMatrixQueueExecute s := rfl
@[simp] theorem exec_copyChunkDone {s : State} : exec (.copyChunkDone) s = execCopyChunkDone s := rfl
@[simp] theorem exec_copyCompletion {s : State} : exec (.copyCompletion) s = execCopyCompletion s := rfl
@[simp] theorem exec_moveInstall {s : State} : exec (.moveInstall) s = execMoveInstall s := rfl
@[simp] theorem exec_oldFrameRelease {s : State} : exec (.oldFrameRelease) s = execOldFrameRelease s := rfl
@[simp] theorem exec_kvcompactEvent {s : State} : exec (.kvcompactEvent) s = execKvcompactEvent s := rfl
@[simp] theorem exec_sliceBlockRead {s : State} : exec (.sliceBlockRead) s = execSliceBlockRead s := rfl
@[simp] theorem exec_passCompletion {s : State} : exec (.passCompletion) s = execPassCompletion s := rfl
@[simp] theorem exec_prefFillArrival {s : State} : exec (.prefFillArrival) s = execPrefFillArrival s := rfl
@[simp] theorem exec_evictionSweep {s : State} : exec (.evictionSweep) s = execEvictionSweep s := rfl
@[simp] theorem exec_queueDeadlock {s : State} : exec (.queueDeadlock) s = execQueueDeadlock s := rfl
@[simp] theorem exec_yieldDeadlineExpiry {s : State} : exec (.yieldDeadlineExpiry) s = execYieldDeadlineExpiry s := rfl
@[simp] theorem exec_collectorAcknowledgement {s : State} : exec (.collectorAcknowledgement) s = execCollectorAcknowledgement s := rfl
@[simp] theorem exec_contextResumption {s : State} : exec (.contextResumption) s = execContextResumption s := rfl
@[simp] theorem exec_contextEventWrite {s : State} : exec (.contextEventWrite) s = execContextEventWrite s := rfl
@[simp] theorem exec_kernelDispatch {s : State} : exec (.kernelDispatch) s = execKernelDispatch s := rfl
@[simp] theorem exec_launchQueueDoorbell {s : State} : exec (.launchQueueDoorbell) s = execLaunchQueueDoorbell s := rfl
@[simp] theorem exec_ctxRoot {s : State} : exec (.ctxRoot) s = execCtxRoot s := rfl
@[simp] theorem exec_setPcb {s : State} : exec (.setPcb) s = execSetPcb s := rfl
@[simp] theorem exec_fabricTable {s : State} : exec (.fabricTable) s = execFabricTable s := rfl
@[simp] theorem exec_takeEvent {s : State} : exec (.takeEvent) s = execTakeEvent s := rfl
@[simp] theorem exec_readLog {s : State} : exec (.readLog) s = execReadLog s := rfl
@[simp] theorem exec_stage {s : State} : exec (.stage) s = execStage s := rfl
@[simp] theorem exec_attest {s : State} : exec (.attest) s = execAttest s := rfl
@[simp] theorem exec_keyAperture {s : State} : exec (.keyAperture) s = execKeyAperture s := rfl
@[simp] theorem exec_reset {s : State} : exec (.reset) s = execReset s := rfl
@[simp] theorem exec_apertureWrite {s : State} : exec (.apertureWrite) s = execApertureWrite s := rfl
@[simp] theorem exec_apertureRead {s : State} : exec (.apertureRead) s = execApertureRead s := rfl
@[simp] theorem exec_deviceWindowWrite {s : State} : exec (.deviceWindowWrite) s = execDeviceWindowWrite s := rfl
@[simp] theorem exec_powerOn {s : State} : exec (.powerOn) s = execPowerOn s := rfl
@[simp] theorem exec_enterS1 {s : State} : exec (.enterS1) s = execEnterS1 s := rfl
@[simp] theorem exec_enterS2 {s : State} : exec (.enterS2) s = execEnterS2 s := rfl
@[simp] theorem exec_cxlPortTrainingDone {s : State} : exec (.cxlPortTrainingDone) s = execCxlPortTrainingDone s := rfl
@[simp] theorem exec_voltorTrainingDone {s : State} : exec (.voltorTrainingDone) s = execVoltorTrainingDone s := rfl
@[simp] theorem exec_voltorTrainingTimeout {s : State} : exec (.voltorTrainingTimeout) s = execVoltorTrainingTimeout s := rfl
@[simp] theorem exec_voltorLaneFault {s : State} : exec (.voltorLaneFault) s = execVoltorLaneFault s := rfl
@[simp] theorem exec_lossOfSignal {s : State} : exec (.lossOfSignal) s = execLossOfSignal s := rfl
@[simp] theorem exec_flitReceive {s : State} : exec (.flitReceive) s = execFlitReceive s := rfl
@[simp] theorem exec_peerAccessArrival {s : State} : exec (.peerAccessArrival) s = execPeerAccessArrival s := rfl
@[simp] theorem exec_peerStoreLost {s : State} : exec (.peerStoreLost) s = execPeerStoreLost s := rfl
@[simp] theorem exec_fabPartReport {s : State} : exec (.fabPartReport) s = execFabPartReport s := rfl
@[simp] theorem exec_fabPause {s : State} : exec (.fabPause) s = execFabPause s := rfl
@[simp] theorem exec_fabricBarrierCombine {s : State} : exec (.fabricBarrierCombine) s = execFabricBarrierCombine s := rfl
@[simp] theorem exec_drainEnd {s : State} : exec (.drainEnd) s = execDrainEnd s := rfl
@[simp] theorem exec_restoreEnd {s : State} : exec (.restoreEnd) s = execRestoreEnd s := rfl
@[simp] theorem exec_instructionFetchAhead {s : State} : exec (.instructionFetchAhead) s = execInstructionFetchAhead s := rfl
@[simp] theorem exec_eccCorrected {s : State} : exec (.eccCorrected) s = execEccCorrected s := rfl
@[simp] theorem exec_eccUncorrectable {s : State} : exec (.eccUncorrectable) s = execEccUncorrectable s := rfl
@[simp] theorem exec_thermalLimit {s : State} : exec (.thermalLimit) s = execThermalLimit s := rfl
@[simp] theorem exec_thermalTrip {s : State} : exec (.thermalTrip) s = execThermalTrip s := rfl
@[simp] theorem exec_nullFetch {s : State} : exec (.nullFetch) s = execNullFetch s := rfl
@[simp] theorem exec_illegalInstruction {s : State} : exec (.illegalInstruction) s = execIllegalInstruction s := rfl
@[simp] theorem exec_fetchForIssueFault {s : State} : exec (.fetchForIssueFault) s = execFetchForIssueFault s := rfl
@[simp] theorem exec_storePerform {s : State} : exec (.storePerform) s = execStorePerform s := rfl
@[simp] theorem exec_cycleCounterAdvance {s : State} : exec (.cycleCounterAdvance) s = execCycleCounterAdvance s := rfl
@[simp] theorem exec_voltorFirmwareCommand {s : State} : exec (.voltorFirmwareCommand) s = execVoltorFirmwareCommand s := rfl

end Sys2Proof.Machine
end

