-- ==== Sys2Proof/Laws/Map.lean ====
section
/-! SUPPORT. The laws of maps by number and of memories in canonical form. -/

namespace Sys2Proof.Machine

theorem SMap.get?_put_self {α : Type} (m : SMap α) (k : Nat) (a : α) : SMap.get? (SMap.put m k a) k = some a := by
  induction m with
  | nil => simp [SMap.put, SMap.get?]
  | cons e m ih =>
    simp only [SMap.put]
    split
    · simp [SMap.get?]
    · split
      · simp [SMap.get?]
      · have : e.1 ≠ k := fun h => ‹¬k = e.1› h.symm
        simp [SMap.get?, this, ih]

theorem SMap.get?_put_ne {α : Type} (m : SMap α) {k j : Nat} (a : α) (h : j ≠ k) : SMap.get? (SMap.put m k a) j = SMap.get? m j := by
  induction m with
  | nil => simp [SMap.put, SMap.get?, Ne.symm h]
  | cons e m ih =>
    simp only [SMap.put]
    split
    · simp [SMap.get?, Ne.symm h]
    · split
      · rename_i _ hk
        subst hk
        simp [SMap.get?, Ne.symm h]
      · simp only [SMap.get?]
        split <;> simp [ih]

theorem SMap.put_put {α : Type} (m : SMap α) (k : Nat) (a b : α) : SMap.put (SMap.put m k a) k b = SMap.put m k b := by
  induction m with
  | nil => simp [SMap.put]
  | cons e m ih =>
    by_cases h1 : k < e.1
    · simp [SMap.put, h1]
    · by_cases h2 : k = e.1
      · subst h2
        simp [SMap.put]
      · simp [SMap.put, h1, h2, ih]

theorem SMap.get?_del_self {α : Type} (m : SMap α) (k : Nat) : SMap.get? (SMap.del m k) k = none := by
  induction m with
  | nil => rfl
  | cons e m ih =>
    simp only [SMap.del]
    split
    · exact ih
    · simp [SMap.get?, *]

theorem SMap.get?_del_ne {α : Type} (m : SMap α) {k j : Nat} (h : j ≠ k) : SMap.get? (SMap.del m k) j = SMap.get? m j := by
  induction m with
  | nil => rfl
  | cons e m ih =>
    simp only [SMap.del]
    split
    · rename_i hk
      subst hk
      simp [SMap.get?, Ne.symm h, ih]
    · simp only [SMap.get?]
      split <;> simp [ih]

/-- A number under a key stands in the map. -/
theorem SMap.mem_of_get? {α : Type} {m : SMap α} {k : Nat} {a : α} (h : SMap.get? m k = some a) : (k, a) ∈ m := by
  induction m with
  | nil => simp [SMap.get?] at h
  | cons e m ih =>
    obtain ⟨j, b⟩ := e
    simp only [SMap.get?] at h
    split at h
    · rename_i hk
      subst hk
      simp_all
    · exact List.mem_cons_of_mem _ (ih h)

/-- The entries of a map after a put are the new one and old ones. -/
theorem SMap.mem_put {α : Type} {m : SMap α} {k : Nat} {a : α} {e : Nat × α} (h : e ∈ SMap.put m k a) : e = (k, a) ∨ e ∈ m := by
  induction m with
  | nil => simpa [SMap.put] using h
  | cons d m ih =>
    simp only [SMap.put] at h
    split at h
    · simpa using h
    · split at h
      · simp only [List.mem_cons] at h ⊢
        tauto
      · simp only [List.mem_cons] at h ⊢
        rcases h with h | h
        · exact .inr (.inl h)
        · rcases ih h with h | h
          · exact .inl h
          · exact .inr (.inr h)

theorem SMap.mem_del {α : Type} {m : SMap α} {k : Nat} {e : Nat × α} (h : e ∈ SMap.del m k) : e ∈ m := by
  induction m with
  | nil => exact h
  | cons d m ih =>
    simp only [SMap.del] at h
    split at h
    · exact List.mem_cons_of_mem _ (ih h)
    · simp only [List.mem_cons] at h ⊢
      exact h.imp id ih

theorem SMap.sorted_put {α : Type} {m : SMap α} (k : Nat) (a : α) (h : m.Pairwise fun c d => c.1 < d.1) :
    (SMap.put m k a).Pairwise fun c d => c.1 < d.1 := by
  induction m with
  | nil => simp [SMap.put]
  | cons e m ih =>
    have hm := (List.pairwise_cons.mp h)
    simp only [SMap.put]
    split
    · rename_i hk
      refine List.pairwise_cons.mpr ⟨?_, h⟩
      intro d hd
      rcases List.mem_cons.mp hd with rfl | hd
      · exact hk
      · exact Nat.lt_trans hk (hm.1 d hd)
    · split
      · rename_i hk
        refine List.pairwise_cons.mpr ⟨?_, hm.2⟩
        intro d hd
        rw [hk]
        exact hm.1 d hd
      · rename_i h1 h2
        refine List.pairwise_cons.mpr ⟨?_, ih hm.2⟩
        intro d hd
        rcases SMap.mem_put hd with rfl | hd
        · simp only
          omega
        · exact hm.1 d hd

theorem SMap.sorted_del {α : Type} {m : SMap α} (k : Nat) (h : m.Pairwise fun c d => c.1 < d.1) :
    (SMap.del m k).Pairwise fun c d => c.1 < d.1 := by
  induction m with
  | nil => exact h
  | cons e m ih =>
    have hm := (List.pairwise_cons.mp h)
    simp only [SMap.del]
    split
    · exact ih hm.2
    · exact List.pairwise_cons.mpr ⟨fun d hd => hm.1 d (SMap.mem_del hd), ih hm.2⟩

theorem Memory.read_write_self (m : Memory) (a : Nat) (b : Byte) : (m.write a b).read a = b := by
  unfold Memory.write Memory.read
  split
  · rename_i h
    rw [SMap.get?_del_self, h]
    rfl
  · rw [SMap.get?_put_self]
    rfl

theorem Memory.read_write_ne (m : Memory) {a c : Nat} (b : Byte) (h : c ≠ a) : (m.write a b).read c = m.read c := by
  unfold Memory.write Memory.read
  split
  · rw [SMap.get?_del_ne m h]
  · rw [SMap.get?_put_ne m b h]

theorem Memory.wf_nil : Memory.wf [] := ⟨List.Pairwise.nil, fun _ h => absurd h List.not_mem_nil⟩

theorem Memory.wf_write {m : Memory} (a : Nat) (b : Byte) (h : m.wf) : (m.write a b).wf := by
  unfold Memory.write
  split
  · exact ⟨SMap.sorted_del a h.1, fun c hc => h.2 c (SMap.mem_del hc)⟩
  · rename_i hb
    refine ⟨SMap.sorted_put a b h.1, fun c hc => ?_⟩
    rcases SMap.mem_put hc with rfl | hc
    · exact hb
    · exact h.2 c hc

theorem Memory.wf_writeLE {m : Memory} (a v n : Nat) (h : m.wf) : (m.writeLE a v n).wf := by
  induction n generalizing m a v with
  | zero => exact h
  | succ n ih => exact ih _ _ (Memory.wf_write _ _ h)

theorem Memory.wf_filter {m : Memory} (f : Host.Cell → Bool) (h : m.wf) : Memory.wf (m.filter f) :=
  ⟨h.1.filter f, fun c hc => h.2 c (List.mem_of_mem_filter hc)⟩

theorem Memory.wf_delRange {m : Memory} (lo hi : Nat) (h : m.wf) : Memory.wf (SMap.delRange m lo hi) := Memory.wf_filter _ h

theorem Memory.read_writeLE_outside (m : Memory) (a v n c : Nat) (h : c < a ∨ a + n ≤ c) : (m.writeLE a v n).read c = m.read c := by
  induction n generalizing m a v with
  | zero => rfl
  | succ n ih =>
    simp only [Memory.writeLE]
    rw [ih _ _ _ (by omega), Memory.read_write_ne _ _ (by omega)]

theorem Memory.read_writeLE_inside (m : Memory) (a v n i : Nat) (h : i < n) :
    (m.writeLE a v n).read (a + i) = BitVec.ofNat 8 (v / 2 ^ (8 * i)) := by
  induction n generalizing m a v i with
  | zero => omega
  | succ n ih =>
    simp only [Memory.writeLE]
    cases i with
    | zero =>
      rw [Memory.read_writeLE_outside _ _ _ _ _ (by omega)]
      simp [Memory.read_write_self]
    | succ i =>
      have e : a + (i + 1) = a + 1 + i := by omega
      rw [e, ih _ _ _ _ (by omega), Nat.div_div_eq_div_mul, ← Nat.pow_add]
      congr 3
      omega

/-- Two memories in canonical form that read alike at every address are the same data. -/
theorem Memory.ext_of_read {m n : Memory} (hm : m.wf) (hn : n.wf) (h : ∀ a, m.read a = n.read a) : m = n := by
  induction m generalizing n with
  | nil =>
    cases n with
    | nil => rfl
    | cons d n =>
      have hd := h d.1
      simp only [Memory.read, SMap.get?, if_pos, Option.getD] at hd
      exact absurd hd.symm (hn.2 d List.mem_cons_self)
  | cons c m ih =>
    cases n with
    | nil =>
      have hc := h c.1
      simp only [Memory.read, SMap.get?, if_pos, Option.getD] at hc
      exact absurd hc (hm.2 c List.mem_cons_self)
    | cons d n =>
      have hm1 := List.pairwise_cons.mp hm.1
      have hn1 := List.pairwise_cons.mp hn.1
      have none_of : ∀ (l : Memory) (k : Nat), (∀ e ∈ l, k < e.1) → SMap.get? l k = none := by
        intro l k hl
        induction l with
        | nil => rfl
        | cons e l ihl =>
          have := hl e List.mem_cons_self
          have hne : e.1 ≠ k := by omega
          simp only [SMap.get?, if_neg hne]
          exact ihl fun x hx => hl x (List.mem_cons_of_mem _ hx)
      have key : c.1 = d.1 := by
        rcases Nat.lt_trichotomy c.1 d.1 with hlt | heq | hgt
        · have hc := h c.1
          have hne : d.1 ≠ c.1 := by omega
          simp only [Memory.read, SMap.get?, if_neg hne] at hc
          rw [none_of n c.1 fun e he => Nat.lt_trans hlt (hn1.1 e he)] at hc
          simp only [if_pos, Option.getD] at hc
          exact absurd hc (hm.2 c List.mem_cons_self)
        · exact heq
        · have hd := h d.1
          have hne : c.1 ≠ d.1 := by omega
          simp only [Memory.read, SMap.get?, if_neg hne] at hd
          rw [none_of m d.1 fun e he => Nat.lt_trans hgt (hm1.1 e he)] at hd
          simp only [if_pos, Option.getD] at hd
          exact absurd hd.symm (hn.2 d List.mem_cons_self)
      have val : c.2 = d.2 := by
        have hc := h c.1
        simpa [Memory.read, SMap.get?, key] using hc
      have hcd : c = d := Prod.ext key val
      subst hcd
      congr 1
      refine ih ⟨hm1.2, fun e he => hm.2 e (List.mem_cons_of_mem _ he)⟩ ⟨hn1.2, fun e he => hn.2 e (List.mem_cons_of_mem _ he)⟩ ?_
      intro a
      by_cases ha : c.1 = a
      · subst ha
        simp only [Memory.read]
        rw [none_of m c.1 hm1.1, none_of n c.1 hn1.1]
      · have := h a
        simpa [Memory.read, SMap.get?, ha] using this

end Sys2Proof.Machine
end

