-- ==== Sys2Proof/Laws/Monad.lean ====
section
/-! SUPPORT. The laws of the computations that meanings are made of: what each basic part answers, and what `issue` and `event`
make of it. -/

namespace Sys2Proof.Machine

@[simp] theorem run_pure {α : Type} (a : α) (s : State) : (pure a : M α) s = .ok a s := rfl

@[simp] theorem run_bind {α β : Type} (x : M α) (f : α → M β) (s : State) :
    (x >>= f) s = match x s with
      | .ok a s' => f a s'
      | .error e s' => .error e s' := by
  change EStateM.bind x f s = _
  unfold EStateM.bind
  cases x s <;> rfl

@[simp] theorem run_map {α β : Type} (f : α → β) (x : M α) (s : State) :
    (f <$> x) s = match x s with
      | .ok a s' => .ok (f a) s'
      | .error e s' => .error e s' := by
  change EStateM.map f x s = _
  unfold EStateM.map
  cases x s <;> rfl

@[simp] theorem run_get (s : State) : (get : M State) s = .ok s s := rfl
@[simp] theorem run_set (t s : State) : (set t : M PUnit) s = .ok ⟨⟩ t := rfl
@[simp] theorem run_modify (f : State → State) (s : State) : (modify f : M PUnit) s = .ok ⟨⟩ (f s) := rfl
@[simp] theorem run_throw {α : Type} (e : Stop) (s : State) : (throw e : M α) s = .error e s := rfl
@[simp] theorem run_trap {α : Type} (c : BitVec 8) (v : Word64) (b : BitVec 5) (s : State) : (trap c v b : M α) s = .error (.trap c v b false) s := rfl
@[simp] theorem run_waitFor {α : Type} (w : Wait) (s : State) : (waitFor w : M α) s = .error (.wait w false) s := rfl
@[simp] theorem run_impossible {α : Type} (s : State) : (impossible : M α) s = .error .noHart s := rfl
@[simp] theorem run_curStream (s : State) : curStream s = .ok s.curStream s := rfl
@[simp] theorem run_curWord (s : State) : curWord s = .ok (s.curWord.setWidth 64) s := rfl

theorem run_ite {α : Type} (p : Prop) [Decidable p] (x y : M α) (s : State) : (if p then x else y) s = if p then x s else y s := by
  split <;> rfl

@[simp] theorem run_attempt_ok {α : Type} {x : M α} {s s' : State} {a : α} (h : x s = .ok a s') : attempt x s = .ok (.ok a) s' := by
  simp [attempt, h]

theorem run_attempt_error {α : Type} {x : M α} {s s' : State} {e : Stop} (h : x s = .error e s') : attempt x s = .ok (.error e) s := by
  simp [attempt, h]

theorem run_keeping_ok {α : Type} {x : M α} {s s' : State} {a : α} (h : x s = .ok a s') : keeping x s = .ok a s' := by
  simp [keeping, h]

@[simp] theorem run_each_nil {α : Type} (f : α → M Unit) (s : State) : each [] f s = .ok () s := rfl
@[simp] theorem each_cons {α : Type} (a : α) (l : List α) (f : α → M Unit) : each (a :: l) f = (f a >>= fun _ => each l f) := rfl
@[simp] theorem run_eachFold_nil {α β : Type} (b : β) (f : β → α → M β) (s : State) : eachFold [] b f s = .ok b s := rfl
@[simp] theorem eachFold_cons {α β : Type} (a : α) (l : List α) (b : β) (f : β → α → M β) :
    eachFold (a :: l) b f = (f b a >>= fun b' => eachFold l b' f) := rfl
@[simp] theorem run_eachMap_nil {α β : Type} (f : α → M β) (s : State) : eachMap [] f s = .ok [] s := rfl
@[simp] theorem eachMap_cons {α β : Type} (a : α) (l : List α) (f : α → M β) :
    eachMap (a :: l) f = (f a >>= fun b => eachMap l f >>= fun bs => pure (b :: bs)) := rfl

@[simp] theorem hart_putHart (s : State) (h : Hart) : (s.putHart h).hart = some h := SMap.get?_put_self _ _ _

@[simp] theorem putHart_putHart (s : State) (h g : Hart) : (s.putHart h).putHart g = s.putHart g := by
  simp [State.putHart, SMap.put_put]

@[simp] theorem run_getHart (s : State) : getHart s = match s.hart with
    | some h => .ok h s
    | none => .error .noHart s := by
  simp only [getHart, run_bind, run_get]
  cases s.hart <;> rfl

@[simp] theorem run_setHart (h : Hart) (s : State) : setHart h s = .ok () (s.putHart h) := rfl

@[simp] theorem run_modHart (f : Hart → Hart) (s : State) : modHart f s = match s.hart with
    | some h => .ok () (s.putHart (f h))
    | none => .error .noHart s := by
  simp only [modHart, run_bind, run_getHart]
  cases s.hart <;> rfl

@[simp] theorem run_rS (r : SReg) (s : State) : rS r s = match s.hart with
    | some h => .ok (h.sreg s.curStream r) s
    | none => .error .noHart s := by
  simp only [rS, run_bind, run_getHart]
  cases s.hart <;> rfl

@[simp] theorem run_wS (r : SReg) (v : Word64) (s : State) : wS r v s = match s.hart with
    | some h => .ok () (s.putHart (h.setS s.curStream r v))
    | none => .error .noHart s := by
  simp only [wS, run_bind, run_curStream, run_modHart]

@[simp] theorem run_retire (s : State) : retire s = match s.hart with
    | some h => .ok () (s.putHart (h.advance s.curStream))
    | none => .error .noHart s := by
  simp only [retire, run_bind, run_curStream, run_modHart]

@[simp] theorem run_curPc (s : State) : curPc s = match s.hart with
    | some h => .ok (h.pc s.curStream) s
    | none => .error .noHart s := by
  simp only [curPc, run_bind, run_getHart]
  cases s.hart <;> rfl

@[simp] theorem run_jumpTo (v : Word64) (s : State) : jumpTo v s = match s.hart with
    | some h => .ok () (s.putHart (h.setPc s.curStream v))
    | none => .error .noHart s := by
  simp only [jumpTo, run_bind, run_curStream, run_modHart]

@[simp] theorem run_onlyX (s : State) : onlyX s =
    if s.curStream = .x then .ok () s else .error (.trap 0x03 (s.curWord.setWidth 64) 0 false) s := by
  simp only [onlyX, run_bind, run_curStream]
  split <;> rfl

@[simp] theorem run_onlyA (s : State) : onlyA s =
    if s.curStream = .a then .ok () s else .error (.trap 0x03 (s.curWord.setWidth 64) 0 false) s := by
  simp only [onlyA, run_bind, run_curStream]
  split <;> rfl

@[simp] theorem run_onlyS (s : State) : onlyS s = match s.hart with
    | some h => if h.priv = .s then .ok () s else .error (.trap 0x04 (s.curWord.setWidth 64) 0 false) s
    | none => .error .noHart s := by
  simp only [onlyS, run_bind, run_getHart]
  cases s.hart with
  | none => rfl
  | some h =>
    simp only
    split <;> rfl

@[simp] theorem run_needLive (s : State) : needLive s = match s.hart with
    | some h => if h.live = true then .ok () s else .error (.trap 0x05 (s.curWord.setWidth 64) 0 false) s
    | none => .error .noHart s := by
  simp only [needLive, run_bind, run_getHart]
  cases s.hart with
  | none => rfl
  | some h =>
    simp only
    split <;> rfl

@[simp] theorem run_modCore (c : Nat) (f : Core → Core) (s : State) : modCore c f s = .ok () (s.modCore c f) := rfl
@[simp] theorem run_newId (s : State) : newId s = .ok s.nextId { s with nextId := s.nextId + 1 } := rfl
theorem run_freeWord (s : State) : freeWord s = .ok (Config.freeWord s.freeCtr) { s with freeCtr := s.freeCtr + 1 } := rfl
theorem run_freeBool (s : State) : freeBool s = .ok (Config.freeBool s.freeCtr) { s with freeCtr := s.freeCtr + 1 } := rfl

/-- A part that retires makes a next state in which neither stream of the hart is known to wait. -/
theorem issue_ok {x : M Unit} {s s' : State} (h : x s = .ok () s') : issue x s = .next (markWait none s') := by
  simp [issue, h]

/-- A part that waits before anything has changed leaves the state but for the mark of its wait. -/
theorem issue_wait {x : M Unit} {s s' : State} {w : Wait} (h : x s = .error (.wait w false) s') (hw : w ≠ .absent) :
    issue x s = .next (markWait (some w) s) := by
  unfold issue
  rw [h]
  cases w <;> first | rfl | exact absurd rfl hw

/-- A part that has to read a peer's memory in S1 leaves its instruction held as a whole (R20). -/
theorem issue_absent {x : M Unit} {s s' : State} {k : Bool} (h : x s = .error (.wait .absent k) s') : issue x s = .next s.holdWhole := by
  simp [issue, h]

/-- A part that traps before anything has changed takes trap entry from the state before. -/
theorem issue_trap {x : M Unit} {s s' : State} {c : BitVec 8} {v : Word64} {b : BitVec 5} (h : x s = .error (.trap c v b false) s') :
    issue x s = .next (after (trapEntry c v b) s) := by
  simp [issue, h]

theorem event_ok {x : M Unit} {s s' : State} (h : x s = .ok () s') : event x s = .next s' := by
  simp [event, h]

theorem event_error {x : M Unit} {s s' : State} {e : Stop} (h : x s = .error e s') : event x s = .next s := by
  simp [event, h]

theorem markWait_none {s : State} {h : Hart} (hh : s.hart = some h) : markWait none s = s.putHart h.stirred := by
  simp [markWait, hh]

end Sys2Proof.Machine
end

