-- ==== Sys2Proof/Laws/Keeps.lean ====
section
/-! SUPPORT. What a part of a meaning keeps: the rules by which a property of the state passes through computations, and the memory
operations, which keep every property that only memory contents could break. -/

namespace Sys2Proof.Machine

/-- The state in which a part ends, whether it answers or stops. -/
def endState {α : Type} : EStateM.Result Stop State α → State
  | .ok _ s => s
  | .error _ s => s

/-- A part keeps a property of the state. -/
structure Keeps {α : Type} (P : State → Prop) (x : M α) : Prop where
  run : ∀ s, P s → P (endState (x s))

theorem keeps_pure {α : Type} {P : State → Prop} (a : α) : Keeps P (pure a : M α) := ⟨fun _ h => h⟩
theorem keeps_get {P : State → Prop} : Keeps P (get : M State) := ⟨fun _ h => h⟩
theorem keeps_throw {α : Type} {P : State → Prop} (e : Stop) : Keeps P (throw e : M α) := ⟨fun _ h => h⟩
theorem keeps_trap {α : Type} {P : State → Prop} (c : BitVec 8) (v : Word64) (b : BitVec 5) : Keeps P (trap c v b : M α) := ⟨fun _ h => h⟩
theorem keeps_waitFor {α : Type} {P : State → Prop} (w : Wait) : Keeps P (waitFor w : M α) := ⟨fun _ h => h⟩
theorem keeps_impossible {α : Type} {P : State → Prop} : Keeps P (impossible : M α) := ⟨fun _ h => h⟩
theorem keeps_modify {P : State → Prop} {f : State → State} (h : ∀ s, P s → P (f s)) : Keeps P (modify f : M PUnit) := ⟨fun s hs => h s hs⟩

theorem keeps_bind {α β : Type} {P : State → Prop} {x : M α} {f : α → M β} (hx : Keeps P x) (hf : ∀ a, Keeps P (f a)) :
    Keeps P (x >>= f) := by
  constructor
  intro s hs
  have h1 := hx.run s hs
  rw [run_bind]
  cases hr : x s with
  | ok a t =>
    rw [hr] at h1
    exact (hf a).run t h1
  | error e t =>
    rw [hr] at h1
    exact h1

/-- A part that first looks at the state. -/
theorem keeps_get_bind {β : Type} {P : State → Prop} {f : State → M β} (hf : ∀ s, P s → P (endState (f s s))) :
    Keeps P (get >>= f) := by
  constructor
  intro s hs
  rw [run_bind, run_get]
  exact hf s hs

theorem keeps_fault {α : Type} {P : State → Prop} (q : Req) (b : BitVec 5) : Keeps P (q.fault b : M α) := ⟨fun _ h => h⟩

theorem keeps_map {α β : Type} {P : State → Prop} {x : M α} (f : α → β) (hx : Keeps P x) : Keeps P (f <$> x) := by
  constructor
  intro s hs
  have h1 := hx.run s hs
  rw [run_map]
  cases hr : x s with
  | ok a t =>
    rw [hr] at h1
    exact h1
  | error e t =>
    rw [hr] at h1
    exact h1

theorem keeps_attempt {α : Type} {P : State → Prop} {x : M α} (hx : Keeps P x) : Keeps P (attempt x) := by
  constructor
  intro s hs
  have h1 := hx.run s hs
  unfold attempt
  cases hr : x s with
  | ok a t =>
    rw [hr] at h1
    exact h1
  | error e t => exact hs

theorem keeps_keeping {α : Type} {P : State → Prop} {x : M α} (hx : Keeps P x) : Keeps P (keeping x) := by
  constructor
  intro s hs
  have h1 := hx.run s hs
  unfold keeping
  cases hr : x s with
  | ok a t =>
    rw [hr] at h1
    exact h1
  | error e t =>
    rw [hr] at h1
    cases e <;> exact h1

theorem keeps_each {α : Type} {P : State → Prop} {f : α → M Unit} (hf : ∀ a, Keeps P (f a)) (l : List α) : Keeps P (each l f) := by
  induction l with
  | nil => exact keeps_pure ()
  | cons a l ih => exact keeps_bind (hf a) fun _ => ih

theorem keeps_eachFold {α β : Type} {P : State → Prop} {f : β → α → M β} (hf : ∀ b a, Keeps P (f b a)) (l : List α) (b : β) :
    Keeps P (eachFold l b f) := by
  induction l generalizing b with
  | nil => exact keeps_pure b
  | cons a l ih => exact keeps_bind (hf b a) fun b' => ih b'

theorem keeps_eachMap {α β : Type} {P : State → Prop} {f : α → M β} (hf : ∀ a, Keeps P (f a)) (l : List α) : Keeps P (eachMap l f) := by
  induction l with
  | nil => exact keeps_pure []
  | cons a l ih => exact keeps_bind (hf a) fun b => keeps_bind ih fun bs => keeps_pure (b :: bs)

theorem keeps_probe {α : Type} {P : State → Prop} {x : M α} (hx : Keeps P x) : Keeps P (probe x) := by
  constructor
  intro s hs
  have h1 := hx.run s hs
  unfold probe
  cases hr : x s with
  | ok a t => exact hs
  | error e t =>
    rw [hr] at h1
    exact hs

/-- A property that the memory operations cannot break: it survives writes of single bytes, and any change of poison and what covers
it, of sector keys, of the cores' caches, of the stores in flight and those lost, of the work that S1 holds, of what spill windows have
taken and where they lie, of the ports, of the free values drawn, of the entries that wait for a ring, and of those taken from one. -/
structure MemClosed (P : State → Prop) : Prop where
  mem : ∀ s a b, P s → P { s with mem := s.mem.write a b }
  ls : ∀ s a b, P s → P { s with ls := s.ls.write a b }
  poison : ∀ s x, P s → P { s with poison := x }
  slicePoison : ∀ s x, P s → P { s with slicePoison := x }
  lsPoison : ∀ s x, P s → P { s with lsPoison := x }
  sectorKey : ∀ s x, P s → P { s with sectorKey := x }
  cores : ∀ s x, P s → P { s with cores := x }
  pending : ∀ s x, P s → P { s with pending := x }
  held : ∀ s x, P s → P { s with held := x }
  cover : ∀ s x, P s → P { s with cover := x }
  lost : ∀ s x, P s → P { s with lost := x }
  hits : ∀ s x, P s → P { s with hits := x }
  spilled : ∀ s x, P s → P { s with spilled := x }
  voltor : ∀ s x, P s → P { s with voltor := x }
  freeCtr : ∀ s x, P s → P { s with freeCtr := x }
  oldFrames : ∀ s x, P s → P { s with oldFrames := x }
  taken : ∀ s x, P s → P { s with taken := x }
  badTaken : ∀ s x, P s → P { s with badTaken := x }
  spoiled : ∀ s x, P s → P { s with spoiled := x }

section
variable {P : State → Prop} (hP : MemClosed P)
include hP

theorem MemClosed.memLE (s : State) (a v n : Nat) (h : P s) : P { s with mem := s.mem.writeLE a v n } := by
  induction n generalizing s a v with
  | zero => exact h
  | succ n ih => exact ih _ _ _ (hP.mem s a (BitVec.ofNat 8 v) h)

theorem MemClosed.modCore (s : State) (c : Nat) (f : Core → Core) (h : P s) : P (s.modCore c f) := by
  unfold State.modCore
  split
  · exact hP.cores s _ h
  · exact h

theorem keeps_modCore (c : Nat) (f : Core → Core) : Keeps P (modCore c f) := keeps_modify fun s h => hP.modCore s c f h

theorem keeps_freeWord : Keeps P freeWord := ⟨fun s h => hP.freeCtr s _ h⟩

theorem keeps_freeBool : Keeps P freeBool := ⟨fun s h => hP.freeCtr s _ h⟩

theorem keeps_freeBytes (n : Nat) : Keeps P (freeBytes n) := ⟨fun s h => hP.freeCtr s _ h⟩

theorem keeps_readByte (slot a : Nat) : Keeps P (readByte slot a) :=
  keeps_bind keeps_get fun s => by
    split
    · exact keeps_pure _
    · exact keeps_freeBytes hP 1

theorem keeps_readPA (slot a n : Nat) : Keeps P (readPA slot a n) :=
  keeps_bind keeps_get fun s => by
    split
    · exact keeps_pure _
    · exact keeps_eachFold (fun v i => keeps_bind (keeps_readByte hP slot (a + i)) fun b => keeps_pure _) _ _

theorem keeps_claimSector (slot sec : Nat) : Keeps P (claimSector slot sec) := by
  refine keeps_get_bind fun s h => ?_
  cases hk : s.keyOf slot with
  | none => exact h
  | some k =>
    simp only
    split
    · exact hP.sectorKey s _ h
    · refine (keeps_bind (keeps_freeBytes hP 32) (fun v => keeps_modify fun t ht => ?_)).run s h
      exact hP.sectorKey _ (SMap.put t.sectorKey sec k) (hP.memLE t (32 * sec) v 32 ht)

theorem keeps_loseAbsent (sec : Nat) : Keeps P (loseAbsent sec) := by
  refine keeps_get_bind fun s h => ?_
  split
  · exact (keeps_bind (keeps_freeBytes hP 32) fun v => keeps_modify fun t ht => hP.memLE t (32 * sec) v 32 ht).run s h
  · exact h

theorem keeps_writePA (slot a v n : Nat) : Keeps P (writePA slot a v n) :=
  keeps_bind (keeps_each (keeps_claimSector hP slot) _) fun _ =>
    keeps_bind (keeps_modify fun s h => hP.memLE s a v n h) fun _ => keeps_each (keeps_loseAbsent hP) _

theorem keeps_writeStoreByte (slot : Nat) (b : StoreByte) : Keeps P (writeStoreByte slot b) := by
  unfold writeStoreByte
  split
  · exact keeps_bind (keeps_claimSector hP _ _) fun _ => keeps_bind (keeps_modify fun s h => hP.mem s _ _ h) fun _ => keeps_loseAbsent hP _
  · exact keeps_modify fun s h => hP.ls s _ _ h
  · exact keeps_pure ()
  · exact keeps_pure ()

theorem keeps_dropL1 (core sec : Nat) : Keeps P (dropL1 core sec) := keeps_modCore hP _ _

omit hP in
theorem foldl_keeps {α : Type} {f : State → α → State} (hf : ∀ s a, P s → P (f s a)) (l : List α) (s : State) (h : P s) :
    P (l.foldl f s) := by
  induction l generalizing s with
  | nil => exact h
  | cons a l ih => exact ih _ (hf s a h)

theorem MemClosed.unpoison (s : State) (c : Cell) (h : P s) : P (s.unpoison c) := by
  cases c with
  | sector x => exact hP.slicePoison { s with poison := delNum s.poison x } _ (hP.poison s _ h)
  | word x => exact hP.lsPoison s _ h

theorem MemClosed.noteCover (s : State) (slot : Nat) (st : StreamId) (job : Nat) (bytes : List StoreByte) (h : P s) :
    P (s.noteCover slot st job bytes) := foldl_keeps (fun s _ h => hP.cover s _ h) _ s h

theorem MemClosed.endCover (s : State) (slot : Nat) (st : StreamId) (job : Nat) (h : P s) : P (s.endCover slot st job) := hP.cover s _ h

theorem MemClosed.clearBy (s : State) (p : PendingStore) (h : P s) : P (s.clearBy p) := by
  refine foldl_keeps (fun s c h => ?_) _ s h
  dsimp only
  split
  · exact hP.cover _ _ (hP.unpoison s c h)
  · exact h

theorem MemClosed.stripsDue (s : State) (p : PendingStore) (h : P s) : P (s.stripsDue p) := hP.pending s _ h

theorem keeps_sendOn (port : Nat) (m : PeerMsg) : Keeps P (sendOn port m) :=
  keeps_each (fun _ => keeps_bind (keeps_freeBytes hP 24) fun _ => keeps_modify fun s h => hP.voltor s _ h) _

theorem keeps_sendFlit (f : Nat) (m : PeerMsg) : Keeps P (sendFlit f m) :=
  keeps_bind keeps_get fun s => by
    split
    · exact keeps_pure ()
    · exact keeps_sendOn hP _ _
    · exact keeps_bind (keeps_freeWord hP) fun w => keeps_sendOn hP _ _

theorem keeps_makeRoom (f n : Nat) : Keeps P (makeRoom f n) := by
  refine keeps_modify fun s h => ?_
  split
  · exact hP.voltor s _ h
  · exact h

theorem keeps_leave (p : PendingStore) : Keeps P (leave p) := by
  unfold leave
  split
  · exact keeps_pure ()
  · exact keeps_bind keeps_get fun s => by
      split
      · exact keeps_modify fun s h => hP.pending s _ h
      · split
        · exact keeps_modify fun s h => hP.lost s _ h
        · exact keeps_sendFlit hP _ _

theorem MemClosed.noteHits (s : State) (p : PendingStore) (h : P s) : P (s.noteHits p) := hP.hits s _ h

theorem keeps_performRaw (p : PendingStore) : Keeps P (performRaw p) := by
  refine keeps_bind (keeps_each (fun b => keeps_bind (keeps_writeStoreByte hP _ _) fun _ => ?_) _) fun _ =>
    keeps_bind (keeps_modify fun s h => hP.noteHits _ p (hP.stripsDue _ p (hP.clearBy s p h))) fun _ => keeps_leave hP p
  split
  · split
    · exact keeps_dropL1 hP _ _
    · exact keeps_pure ()
  · exact keeps_pure ()

theorem keeps_takePending (f : PendingStore → Bool) : Keeps P (takePending f) := ⟨fun s h => hP.pending s _ h⟩

theorem keeps_perform (n : Nat) (p : PendingStore) : Keeps P (perform n p) := by
  induction n generalizing p with
  | zero => exact keeps_performRaw hP p
  | succ n ih => exact keeps_bind (keeps_takePending hP _) fun first => keeps_bind (keeps_each ih first) fun _ => keeps_performRaw hP p

theorem keeps_drain (f : PendingStore → Bool) : Keeps P (drain f) :=
  keeps_bind keeps_get fun _ => keeps_bind (keeps_takePending hP f) fun _ => keeps_each (keeps_perform hP _) _

theorem keeps_drainVia (a n : Nat) : Keeps P (drainVia a n) := keeps_drain hP _

theorem keeps_hwWrite (a v n : Nat) : Keeps P (hwWrite a v n) := keeps_bind (keeps_drainVia hP a n) fun _ => keeps_writePA hP 0 a v n

theorem keeps_hwRead (a n : Nat) : Keeps P (hwRead a n) := keeps_readPA hP 0 a n

theorem keeps_installL1 (core key sec : Nat) : Keeps P (installL1 core key sec) :=
  keeps_bind keeps_get fun _ => by
    split
    · exact keeps_modCore hP _ _
    · exact keeps_pure ()

theorem keeps_loadPA (who : Loader) (via : LoadVia) (key a n : Nat) : Keeps P (loadPA who via key a n) := by
  have inst : ∀ home : Nat, Keeps P (installL1 (coreOfSlot who.slot) key (a / 32) >>= fun _ => (pure home : M Nat)) := fun home =>
    keeps_bind (keeps_installL1 hP _ _ _) fun _ => keeps_pure home
  refine keeps_bind (keeps_readPA hP _ _ _) fun home => keeps_bind keeps_get fun s => ?_
  cases via with
  | home =>
    simp only
    split
    · exact keeps_bind (keeps_each (fun x => keeps_dropL1 hP _ x) _) fun _ => keeps_pure home
    · exact keeps_pure home
  | fresh => exact inst home
  | plain =>
    simp only
    split
    · split
      · exact keeps_bind (keeps_freeBool hP) fun old => by
          split
          · exact keeps_pure _
          · exact inst home
      · exact inst home
    · exact inst home

theorem keeps_loadLoc (who : Loader) (via : LoadVia) (key : Nat) (l : Loc) (n : Nat) : Keeps P (loadLoc who via key l n) := by
  unfold loadLoc
  split
  · exact keeps_loadPA hP _ _ _ _ _
  · exact keeps_bind keeps_get fun _ => keeps_pure _
  · exact keeps_bind (keeps_sendFlit hP _ _) fun _ => keeps_freeBytes hP n
  · exact keeps_freeBytes hP n

theorem keeps_pcbWord (off : Nat) : Keeps P (pcbWord off) :=
  keeps_bind keeps_get fun s => by
    split
    · exact keeps_pure none
    · exact keeps_bind (keeps_hwRead hP _ _) fun _ => keeps_pure _

theorem keeps_frameRecAddr (frame : Nat) : Keeps P (frameRecAddr frame) := by
  unfold frameRecAddr
  split
  · exact keeps_bind (keeps_pcbWord hP _) fun _ => keeps_pure _
  · split
    · exact keeps_bind (keeps_pcbWord hP _) fun _ => keeps_bind (keeps_pcbWord hP _) fun _ => keeps_pure _
    · exact keeps_pure none

theorem keeps_frameRec (frame : Nat) : Keeps P (frameRec frame) :=
  keeps_bind (keeps_frameRecAddr hP frame) fun a => by
    split
    · exact keeps_pure none
    · exact keeps_bind (keeps_hwRead hP _ _) fun _ => keeps_pure _

theorem keeps_putFrameRec (r : FrameRec) : Keeps P (putFrameRec r) := keeps_hwWrite hP _ _ _

theorem keeps_frameMapped (frame : Nat) : Keeps P (frameMapped frame) := by
  unfold frameMapped
  split
  · exact keeps_pure _
  · split
    · exact keeps_bind (keeps_pcbWord hP _) fun n => by split <;> exact keeps_pure _
    · split <;> exact keeps_pure _

theorem keeps_leafValid (l : Leaf) : Keeps P (leafValid l) := by
  unfold leafValid
  repeat' first
    | exact keeps_pure _
    | exact keeps_frameMapped hP _
    | exact keeps_frameRec hP _
    | exact keeps_fault _ _
    | apply keeps_bind
    | intro _
    | dsimp only
    | split

theorem keeps_walkFrom (va : Nat) (levels : List Nat) (table : Nat) (path : List Nat) : Keeps P (walkFrom va levels table path) := by
  induction levels generalizing table path with
  | nil => exact keeps_pure _
  | cons level rest ih =>
    refine keeps_bind keeps_get fun s => ?_
    split
    · exact keeps_pure _
    · split
      · exact keeps_pure _
      · refine keeps_bind (keeps_hwRead hP _ _) fun e => ?_
        split
        · exact keeps_pure _
        · split
          · split
            · exact keeps_pure _
            · exact ih _ _
          · simp only
            split
            · exact keeps_bind (keeps_leafValid hP _) fun _ => keeps_pure _
            · exact keeps_pure _

theorem keeps_walk (root va : Nat) : Keeps P (walk root va) := keeps_walkFrom hP _ _ _ _

theorem keeps_lookup (q : Req) : Keeps P (lookup q) := by
  unfold lookup
  repeat' first
    | exact keeps_pure _
    | exact keeps_get
    | exact keeps_trap _ _ _
    | exact keeps_waitFor _
    | exact keeps_walk hP _ _
    | exact keeps_fault _ _
    | apply keeps_bind
    | intro _
    | dsimp only
    | split

theorem keeps_readOverlay (addr : Nat) : Keeps P (readOverlay addr) := keeps_bind (keeps_hwRead hP _ _) fun _ => keeps_pure _

theorem keeps_putOverlay (o : Overlay) : Keeps P o.put := keeps_hwWrite hP _ _ _

theorem keeps_give (holder ring x : Nat) : Keeps P (give holder ring x) := by
  refine keeps_bind keeps_get fun s => ?_
  split
  · exact keeps_pure ()
  · refine keeps_bind (keeps_hwRead hP _ _) fun base => keeps_bind (keeps_hwRead hP _ _) fun size =>
      keeps_bind (keeps_hwRead hP _ _) fun tail => keeps_bind (keeps_hwRead hP _ _) fun e =>
      keeps_bind (keeps_hwWrite hP _ _ _) fun _ => keeps_bind (keeps_modify fun s h =>
        hP.spoiled { s with taken := s.taken.eraseP fun t => t.base == x } _ (hP.taken s _ h)) fun _ => ?_
    split
    · exact keeps_hwWrite hP _ _ _
    · exact keeps_modify fun s h => hP.oldFrames s _ h

theorem keeps_entryFits (ring x : Nat) : Keeps P (entryFits ring x) := by
  unfold entryFits
  repeat' first
    | exact keeps_pure _
    | exact keeps_frameRec hP _
    | apply keeps_bind
    | intro _
    | dsimp only
    | split

theorem keeps_givenAgain (base size head n x : Nat) : Keeps P (givenAgain base size head n x) :=
  keeps_eachFold (fun _ _ => keeps_bind (keeps_hwRead hP _ _) fun _ => keeps_pure _) _ _

theorem keeps_take (ring : Nat) : Keeps P (take ring) := by
  refine keeps_bind keeps_get fun s => ?_
  split
  · exact keeps_pure _
  · refine keeps_bind (keeps_hwRead hP _ _) fun base => keeps_bind (keeps_hwRead hP _ _) fun size =>
      keeps_bind (keeps_hwRead hP _ _) fun head => keeps_bind (keeps_hwRead hP _ _) fun tail =>
      keeps_bind (keeps_hwRead hP _ _) fun e => ?_
    split
    · exact keeps_pure _
    · refine keeps_bind (keeps_entryFits hP _ _) fun fits => keeps_bind (keeps_givenAgain hP _ _ _ _ _) fun again =>
        keeps_bind (keeps_hwWrite hP _ _ _) fun _ => keeps_bind (keeps_hwWrite hP _ _ _) fun _ =>
        keeps_bind (keeps_modify fun s h => ?_) fun _ => keeps_pure _
      exact hP.badTaken { s with taken := s.taken ++ [{ base := e, len := ringLen ring }] } _ (hP.taken s _ h)

theorem keeps_hold (holder x name : Nat) : Keeps P (hold holder x name) := by
  refine keeps_modify fun s h => ?_
  split
  · exact hP.spoiled { s with badTaken := s.badTaken.erase x } _ (hP.badTaken s _ h)
  · exact h

theorem keeps_hwWriteUnder (key a v n : Nat) : Keeps P (hwWriteUnder key a v n) :=
  keeps_bind (keeps_drainVia hP a n) fun _ => keeps_writePA hP key a v n

theorem keeps_dropEverywhere (secs : List Nat) : Keeps P (dropEverywhere secs) := keeps_modify fun s h => hP.cores s _ h

theorem keeps_carryL1 (src dst n : Nat) : Keeps P (carryL1 src dst n) := keeps_modify fun s h => hP.cores s _ h

theorem MemClosed.copied (s : State) (x y : List Nat) (z : List SpillHome) (h : P s) :
    P { s with poison := x, slicePoison := y, spilled := z } :=
  hP.spilled { s with poison := x, slicePoison := y } z (hP.slicePoison { s with poison := x } y (hP.poison s x h))

theorem keeps_copyHome (srcKey src dstKey dst n : Nat) : Keeps P (copyHome srcKey src dstKey dst n) :=
  keeps_bind (keeps_readPA hP _ _ _) fun _ => keeps_bind (keeps_drainVia hP _ _) fun _ => keeps_bind (keeps_writePA hP _ _ _ _) fun _ =>
    keeps_modify fun s h => hP.copied s _ _ _ h

theorem keeps_copyPA (srcKey src dstKey dst n : Nat) : Keeps P (copyPA srcKey src dstKey dst n) :=
  keeps_bind (keeps_copyHome hP _ _ _ _ _) fun _ => by
    split
    · exact keeps_carryL1 hP _ _ _
    · exact keeps_dropEverywhere hP _

theorem keeps_copyHeld (src dst : Nat × Nat) (srcKey a dstKey b n : Nat) : Keeps P (copyHeld src dst srcKey a dstKey b n) := by
  refine keeps_bind keeps_get fun s => ?_
  split
  · exact keeps_pure ()
  · split
    · exact keeps_bind (keeps_freeBytes hP n) fun _ => keeps_hwWriteUnder hP _ _ _ _
    · exact keeps_copyPA hP _ _ _ _ _

theorem keeps_frameKey (key frame : Nat) : Keeps P (frameKey key frame) :=
  keeps_bind (keeps_frameRec hP _) fun r => by split <;> exact keeps_pure _

theorem keeps_copyOnWrite (q : Req) (l : Leaf) (o : Overlay) (i : Nat) : Keeps P (copyOnWrite q l o i) := by
  unfold copyOnWrite
  repeat' first
    | exact keeps_pure _
    | exact keeps_get
    | exact keeps_trap _ _ _
    | exact keeps_waitFor _
    | exact keeps_fault _ _
    | exact keeps_frameKey hP _ _
    | exact keeps_copyHeld hP _ _ _ _ _ _ _
    | exact keeps_hold hP _ _ _
    | exact keeps_take hP _
    | exact keeps_give hP _ _ _
    | exact keeps_putOverlay hP _
    | apply keeps_bind
    | apply keeps_each
    | intro _
    | dsimp only
    | split

omit hP in
theorem keeps_baseTarget (q : Req) (l : Leaf) : Keeps P (baseTarget q l) := by
  unfold baseTarget
  repeat' first
    | exact keeps_pure _
    | exact keeps_get
    | exact keeps_trap _ _ _
    | exact keeps_waitFor _
    | exact keeps_fault _ _
    | apply keeps_bind
    | apply keeps_each
    | intro _
    | dsimp only
    | split

theorem keeps_resolve (q : Req) (l : Leaf) : Keeps P (resolve q l) := by
  refine keeps_bind (keeps_frameKey hP _ _) fun fk => ?_
  simp only
  split
  · refine keeps_bind (keeps_readOverlay hP _) fun o => ?_
    split
    · exact keeps_trap _ _ _
    · split
      · exact keeps_bind keeps_get fun _ => keeps_pure _
      · refine keeps_bind (keeps_baseTarget _ _) fun b => ?_
        split
        · exact keeps_bind (keeps_copyOnWrite hP _ _ _ _) fun _ => keeps_bind keeps_get fun _ => keeps_pure _
        · exact keeps_pure _
  · exact keeps_bind (keeps_baseTarget _ _) fun _ => keeps_bind keeps_get fun _ => keeps_pure _

theorem keeps_setA (l : Leaf) : Keeps P (setA l) := by
  unfold setA
  split
  · exact keeps_pure ()
  · exact keeps_bind (keeps_hwRead hP _ _) fun _ => keeps_writePA hP _ _ _ _

theorem keeps_putLeaf (l : Leaf) (frame tier : Nat) (a : Bool) : Keeps P (putLeaf l frame tier a) := keeps_hwWrite hP _ _ _

omit hP in
theorem keeps_req (a : Actor) (kind : Kind) (va : Word64) (z : Option Bool) (dry : Bool) : Keeps P (a.req kind va z dry) :=
  keeps_bind keeps_get fun s => by
    split
    · exact keeps_throw _
    · exact keeps_pure _

omit hP in
theorem keeps_local (a : Actor) (kind : Kind) (va : Word64) (n : Nat) : Keeps P (a.local kind va n) := by
  unfold Actor.local
  split
  · exact keeps_trap _ _ _
  · split
    · exact keeps_pure _
    · exact keeps_trap _ _ _

theorem keeps_drainHart (slot : Nat) : Keeps P (drainHart slot) := keeps_drain hP _
theorem keeps_drainStream (slot : Nat) (st : StreamId) : Keeps P (drainStream slot st) := keeps_drain hP _
theorem keeps_drainBefore (a : Actor) (l : Loc) (n : Nat) : Keeps P (a.drainBefore l n) := keeps_drain hP _

theorem keeps_observe (a : Actor) : Keeps P a.observe := by
  unfold Actor.observe
  split
  · exact keeps_drain hP _
  · exact keeps_pure ()

omit hP in
theorem keeps_afterHeld (a : Actor) (kind : Kind) (p : Place) (n : Nat) : Keeps P (a.afterHeld kind p n) :=
  keeps_bind keeps_get fun s => by
    split
    · exact keeps_waitFor _
    · exact keeps_pure _

theorem keeps_find (a : Actor) (kind : Kind) (va : Word64) (n : Nat) (z : Option Bool) (dry : Bool) : Keeps P (a.find kind va n z dry) := by
  unfold Actor.find
  split
  · exact keeps_trap _ _ _
  · split
    · exact keeps_bind (keeps_local a kind va n) fun _ => keeps_pure _
    · exact keeps_bind (keeps_req a kind va z dry) fun q => keeps_bind (keeps_lookup hP q) fun l =>
        keeps_bind (keeps_resolve hP q l) fun t => keeps_bind (keeps_setA hP l) fun _ => keeps_pure _

theorem keeps_place (a : Actor) (kind : Kind) (va : Word64) (n : Nat) (z : Option Bool) (dry : Bool) : Keeps P (a.place kind va n z dry) := by
  have tail : Keeps P (a.find kind va n z dry >>= fun p => a.afterHeld kind p n) :=
    keeps_bind (keeps_find hP a kind va n z dry) fun p => keeps_afterHeld a kind p n
  unfold Actor.place
  dsimp only
  split
  · exact tail
  · exact keeps_bind (keeps_observe hP a) fun _ => tail

theorem keeps_meetOwn (a : Actor) (l : Loc) (n : Nat) : Keeps P (a.meetOwn l n) := by
  have each' (ps : List PendingStore) : Keeps P (each ps fun p => do
      let sees ← freeBool
      if sees then drain fun q => q == p else pure ()) :=
    keeps_each (fun p => keeps_bind (keeps_freeBool hP) fun b => by
      split
      · exact keeps_drain hP _
      · exact keeps_pure ()) _
  refine keeps_bind (keeps_drainBefore hP a l n) fun _ => keeps_bind keeps_get fun s => ?_
  dsimp only
  split
  · exact keeps_bind (keeps_waitFor _) fun _ => each' _
  · exact keeps_bind (keeps_pure ()) fun _ => each' _

theorem keeps_holdLoad (a : Actor) (whole : Bool) (va : Word64) (l : Loc) (n : Nat) : Keeps P (a.holdLoad whole va l n) := by
  refine keeps_get_bind fun s h => ?_
  split
  · exact h
  · split
    · exact h
    · exact hP.held s _ h

theorem keeps_reachPeer (a : Actor) (via : LoadVia) (va : Word64) (l : Loc) (n : Nat) : Keeps P (a.reachPeer via va l n) := by
  unfold Actor.reachPeer
  repeat' first
    | exact keeps_pure _
    | exact keeps_get
    | exact keeps_waitFor _
    | exact keeps_holdLoad hP _ _ _ _ _
    | exact keeps_makeRoom hP _ _
    | apply keeps_bind
    | intro _
    | dsimp only
    | split

theorem keeps_meetCopy (a : Actor) (via : LoadVia) (l : Loc) (va : Word64) (n : Nat) : Keeps P (a.meetCopy via l va n) :=
  keeps_bind keeps_get fun s => by
    split
    · split
      · exact keeps_bind (keeps_freeBool hP) fun b => by
          split
          · exact keeps_trap _ _ _
          · exact keeps_dropL1 hP _ _
      · exact keeps_pure ()
    · exact keeps_pure ()

theorem keeps_load (a : Actor) (via : LoadVia) (va : Word64) (n : Nat) (z : Option Bool) : Keeps P (a.load via va n z) := by
  refine keeps_bind (keeps_place hP _ _ _ _ _ _) fun p => keeps_bind (keeps_meetOwn hP _ _ _) fun _ => keeps_bind keeps_get fun s => ?_
  split
  · exact keeps_trap _ _ _
  · split
    · exact keeps_freeBytes hP n
    · exact keeps_bind (keeps_reachPeer hP _ _ _ _ _) fun _ => keeps_bind (keeps_meetCopy hP _ _ _ _ _) fun _ => keeps_loadLoc hP _ _ _ _ _

theorem keeps_dropOwn (slot : Nat) (l : Loc) (n : Nat) : Keeps P (dropOwn slot l n) := by
  unfold dropOwn
  split
  · exact keeps_each (fun x => keeps_dropL1 hP _ x) _
  · exact keeps_pure ()

theorem keeps_note (a : Actor) (p : PendingStore) : Keeps P (a.note p) := by
  unfold Actor.note
  split
  · exact keeps_pure ()
  · exact keeps_modify fun s h => hP.noteCover s _ _ _ _ h

theorem keeps_performNow (a : Actor) (l : Loc) (n : Nat) (p : PendingStore) : Keeps P (a.performNow l n p) := by
  refine keeps_bind (keeps_drainBefore hP _ _ _) fun _ => ?_
  repeat' first
    | exact keeps_makeRoom hP _ _
    | (refine keeps_get_bind fun s h => ?_
       repeat' split
       all_goals first | exact h | exact hP.pending s _ h | exact (keeps_perform hP _ _).run s h)
    | exact keeps_pure _
    | apply keeps_bind
    | intro _
    | dsimp only
    | split

theorem keeps_store (a : Actor) (va : Word64) (n v mask : Nat) : Keeps P (a.store va n v mask) := by
  unfold Actor.store
  repeat' first
    | exact keeps_pure _
    | exact keeps_place hP _ _ _ _ _ _
    | exact keeps_dropOwn hP _ _ _
    | exact keeps_note hP _ _
    | exact keeps_performNow hP _ _ _ _
    | exact keeps_modify fun s h => hP.pending s _ h
    | apply keeps_bind
    | intro _
    | dsimp only
    | split

theorem keeps_storeNow (a : Actor) (va : Word64) (n v : Nat) (z : Option Bool) (mask : Option Nat) : Keeps P (a.storeNow va n v z mask) := by
  unfold Actor.storeNow
  repeat' first
    | exact keeps_pure _
    | exact keeps_place hP _ _ _ _ _ _
    | exact keeps_dropOwn hP _ _ _
    | exact keeps_note hP _ _
    | exact keeps_performNow hP _ _ _ _
    | apply keeps_bind
    | intro _
    | dsimp only
    | split

theorem keeps_holdAtomic (a : Actor) (va : Word64) (n : Nat) (op : AmoOp) (b e : Nat) (as : HoldAs) : Keeps P (a.holdAtomic va n op b e as) := by
  refine keeps_bind keeps_get fun s => ?_
  split
  · exact keeps_pure _
  · refine keeps_bind (keeps_observe hP a) fun _ => keeps_bind (keeps_find hP _ _ _ _ _ _) fun p => ?_
    split
    · exact keeps_bind (keeps_modify fun s h => hP.held s _ h) fun _ => keeps_pure _
    · exact keeps_pure _

theorem keeps_readHome (a : Actor) (p : Place) (va : Word64) (n : Nat) : Keeps P (a.readHome p va n) := by
  refine keeps_bind (keeps_meetOwn hP _ _ _) fun _ => keeps_bind keeps_get fun s => ?_
  split
  · exact keeps_trap _ _ _
  · split
    · exact keeps_freeBytes hP n
    · exact keeps_bind (keeps_reachPeer hP _ _ _ _ _) fun _ => keeps_loadLoc hP _ _ _ _ _

theorem keeps_atomic (a : Actor) (va : Word64) (n : Nat) (op : AmoOp) (b e : Nat) : Keeps P (a.atomic va n op b e) := by
  unfold Actor.atomic
  repeat' first
    | exact keeps_pure _
    | exact keeps_get
    | exact keeps_trap _ _ _
    | exact keeps_place hP _ _ _ _ _ _
    | exact keeps_readHome hP _ _ _ _
    | exact keeps_dropOwn hP _ _ _
    | exact keeps_note hP _ _
    | exact keeps_performNow hP _ _ _ _
    | apply keeps_bind
    | intro _
    | dsimp only
    | split

end

/-- The memories keep their canonical form under the memory operations. -/
theorem memInv_closed : MemClosed fun s => s.mem.wf ∧ s.ls.wf where
  mem _ a b h := ⟨Memory.wf_write a b h.1, h.2⟩
  ls _ a b h := ⟨h.1, Memory.wf_write a b h.2⟩
  poison _ _ h := h
  slicePoison _ _ h := h
  lsPoison _ _ h := h
  sectorKey _ _ h := h
  cores _ _ h := h
  pending _ _ h := h
  held _ _ h := h
  cover _ _ h := h
  lost _ _ h := h
  hits _ _ h := h
  spilled _ _ h := h
  voltor _ _ h := h
  freeCtr _ _ h := h
  oldFrames _ _ h := h
  taken _ _ h := h
  badTaken _ _ h := h
  spoiled _ _ h := h

/-- An answer of a part that keeps a property. -/
theorem Keeps.ok {α : Type} {P : State → Prop} {x : M α} (hx : Keeps P x) {s s' : State} {a : α} (h : x s = .ok a s') (hs : P s) : P s' := by
  have h1 := hx.run s hs
  rw [h] at h1
  exact h1

/-- A state with all that the memory operations can change left out. -/
def State.outer (s : State) : State :=
  { s with mem := [], ls := [], poison := [], slicePoison := [], lsPoison := [], sectorKey := [], cores := Vector.replicate 64 .start, pending := []
           held := [], cover := [], lost := [], hits := [], spilled := [], voltor := Vector.replicate 8 .start, freeCtr := 0, oldFrames := []
           taken := [], badTaken := [], spoiled := [] }

/-- The memory operations change nothing else of the state. -/
theorem outer_closed (t : State) : MemClosed fun s => s.outer = t where
  mem _ _ _ h := h
  ls _ _ _ h := h
  poison _ _ h := h
  slicePoison _ _ h := h
  lsPoison _ _ h := h
  sectorKey _ _ h := h
  cores _ _ h := h
  pending _ _ h := h
  held _ _ h := h
  cover _ _ h := h
  lost _ _ h := h
  hits _ _ h := h
  spilled _ _ h := h
  voltor _ _ h := h
  freeCtr _ _ h := h
  oldFrames _ _ h := h
  taken _ _ h := h
  badTaken _ _ h := h
  spoiled _ _ h := h

/-- A part of the memory operations leaves the harts, the slot and the stream being issued. -/
theorem harts_of_outer {s t : State} (h : t.outer = s.outer) : t.harts = s.harts ∧ t.hart = s.hart ∧ t.curStream = s.curStream := by
  have h1 : t.harts = s.harts := by
    have e := congrArg State.harts h
    exact e
  have h2 : t.curSlot = s.curSlot := by
    have e := congrArg State.curSlot h
    exact e
  have h3 : t.curStream = s.curStream := by
    have e := congrArg State.curStream h
    exact e
  refine ⟨h1, ?_, h3⟩
  unfold State.hart
  rw [h1, h2]

/-- A load leaves everything but the memories' own bookkeeping (R140, R143). -/
theorem load_outer {a : Actor} {via : LoadVia} {va : Word64} {n : Nat} {z : Option Bool} {s s' : State} {v : Nat}
    (h : a.load via va n z s = .ok v s') : s'.outer = s.outer := (keeps_load (outer_closed s.outer) a via va n z).ok h rfl

/-- A store that issues leaves everything but the memories' own bookkeeping (R163). -/
theorem store_outer {a : Actor} {va : Word64} {n v mask : Nat} {s s' : State} (h : a.store va n v mask s = .ok () s') : s'.outer = s.outer :=
  (keeps_store (outer_closed s.outer) a va n v mask).ok h rfl

/-- An atomic access leaves everything but the memories' own bookkeeping (R155). -/
theorem atomic_outer {a : Actor} {va : Word64} {n : Nat} {op : AmoOp} {b e : Nat} {s s' : State} {v : Nat}
    (h : a.atomic va n op b e s = .ok v s') : s'.outer = s.outer := (keeps_atomic (outer_closed s.outer) a va n op b e).ok h rfl

end Sys2Proof.Machine
end

