-- ==== Sys2Proof/Laws/PerInstr.lean ====
section
/-! SUPPORT. Facts that hold of every instruction as syntax, one lemma per constructor: the word of a well-formed instruction decodes
to that instruction, every operand included (R28 to R33, R44, R45). -/

namespace Sys2Proof.Laws
open Sys2Proof

/-- The word of an instruction has 32 bits and decodes to it. -/
def RoundTrip.Statement (i : Instr) : Prop := ∀ w, i.wf = true → encode i = some w → w < 2 ^ 32 ∧ decodeTableWord 32 w = some i

theorem RoundTrip.of_none {i : Instr} (h : encode i = none) : RoundTrip.Statement i := fun w _ e => by rw [h] at e; cases e

theorem table_of_raw {w : Nat} {i : Instr} (h : w < 2 ^ 32) (hr : decodeRaw w = .instr i) (hw : i.wf = true) : decodeTableWord 32 w = some i := by
  have e : wordOfBytes (BitVec.ofNat 8 w) (BitVec.ofNat 8 (w / 2 ^ 8)) (BitVec.ofNat 8 (w / 2 ^ 16)) (BitVec.ofNat 8 (w / 2 ^ 24)) = w := by
    simp only [wordOfBytes, BitVec.toNat_ofNat]
    omega
  have m : w % 2 ^ min 32 32 = w := Nat.mod_eq_of_lt h
  have d : decodeWord w = .instr i := by
    unfold decodeWord
    rw [hr]
    exact if_pos hw
  simp only [decodeTableWord, m, bytesOfWord, decodeBytes, e, d]

theorem fixed_of {x v : Nat} (h : x = v) (k : Decoded) : fixed x v k = k := if_pos h
theorem reg_of {n x : Nat} {r : Fin n} (h : x = r.val) (k : Fin n → Decoded) : reg n x k = k r := by
  subst h
  exact dif_pos r.isLt
theorem code_of {α : Type} {table : Nat → Option α} {x c : Nat} {a : α} (h : x = c) (t : table c = some a) (k : α → Decoded) : code table x k = k a := by
  unfold code
  rw [h, t]
theorem imm_of {n x : Nat} {b : BitVec n} (h : x = b.toNat) : BitVec.ofNat n x = b := by
  rw [h, BitVec.ofNat_toNat, BitVec.setWidth_eq]
theorem flag_of {x : Nat} {b : Bool} (h : x = bit b) : flag x = b := by
  rw [h]
  cases b <;> rfl

theorem bit_le (b : Bool) : bit b ≤ 1 := by cases b <;> decide
theorem guardCode_lt (g : Option PRegNo) : guardCode g < 128 := by
  cases g with
  | none => decide
  | some p =>
    have := p.isLt
    simp only [guardCode]
    omega
theorem Fmt.code_lt (x : Fmt) : x.code < 15 := by cases x <;> decide
theorem Scope.code_lt (x : Scope) : x.code < 5 := by cases x <;> decide
theorem BScope.code_lt (x : BScope) : x.code < 4 := by cases x <;> decide
theorem Order.code_lt (x : Order) : x.code < 4 := by cases x <;> decide
theorem FenceKind.code_lt (x : FenceKind) : x.code < 4 := by cases x <;> decide
theorem Depth.code_lt (x : Depth) : x.code < 3 := by cases x <;> decide
theorem Rm.code_lt (x : Rm) : x.code < 5 := by cases x <;> decide
theorem Cc.code_lt (x : Cc) : x.code < 7 := by cases x <;> decide
theorem Ew.code_lt (x : Ew) : x.code < 4 := by cases x <;> decide
theorem Csr.code_lt (x : Csr) : x.code < 1024 := by cases x <;> decide
theorem fmt_code (x : Fmt) : Fmt.ofCode? x.code = some x := by cases x <;> rfl
theorem scope_code (x : Scope) : Scope.ofCode? x.code = some x := by cases x <;> rfl
theorem bscope_code (x : BScope) : BScope.ofCode? x.code = some x := by cases x <;> rfl
theorem bscopeS_code (x : BScope) : BScope.ofScope? (x.code + 1) = some x := by cases x <;> rfl
theorem order_code (x : Order) : Order.ofCode? x.code = some x := by cases x <;> rfl
theorem kind_code (x : FenceKind) : FenceKind.ofCode? x.code = some x := by cases x <;> rfl
theorem depth_code (x : Depth) : Depth.ofCode? x.code = some x := by cases x <;> rfl
theorem rm_code (x : Rm) : Rm.ofCode? x.code = some x := by cases x <;> rfl
theorem cc_code (x : Cc) : Cc.ofCode? x.code = some x := by cases x <;> rfl
theorem ew_code (x : Ew) : Ew.ofCode? x.code = some x := by cases x <;> rfl
theorem csr_code (x : Csr) : Csr.ofCode? x.code = some x := by cases x <;> rfl

/-- The form of a major opcode. -/
theorem raw_of {w : Nat} {d : Decoded} (h : fld w 0 7 ≠ 0) (e : (match fld w 0 7 with
    | 0x10 => decodeAndi w | 0x11 => decodeOri w | 0x12 => decodeXori w | 0x13 => decodeSlti w | 0x14 => decodeAddi w | 0x15 => decodeSlli w
    | 0x16 => decodeSrli w | 0x17 => decodeSrai w | 0x18 => decodeExt w | 0x19 => decodeIns w | 0x1A => decodeJalr w | 0x1B => decodeLhi w
    | 0x1C => decodeJal w | 0x1D => decodeCtok w | 0x1E => decodeAstart w | 0x20 => decodeBeq w | 0x21 => decodeBne w | 0x22 => decodeBlt w
    | 0x23 => decodeBge w | 0x24 => decodeBltn w | 0x25 => decodeBgen w | 0x26 => decodeSmb w | 0x30 => decodeScalarAlu w | 0x38 => decodeQueue w
    | 0x40 => decodeVector w | 0x41 => decodeVectorImm w | 0x42 => decodePredScale w | 0x44 => decodeSetvl w | 0x45 => decodeMode w
    | 0x50 => decodeScalarLoad w | 0x51 => decodeScalarStore w | 0x54 => decodeVectorLoad w | 0x55 => decodeVectorStore w
    | 0x56 => decodeVldseg w | 0x57 => decodeVstseg w | 0x58 => decodeAtomic w | 0x5A => decodeAccessMem w | 0x5C => decodeCutter w
    | 0x60 => decodeMatrix w | 0x62 => decodePage w | 0x64 => decodeTransfer w | 0x66 => decodeKernel w | 0x68 => decodeAttention w
    | 0x6A => decodeTree w | 0x70 => decodeSystem w | _ => .illegal .unassignedOpcode) = d) : decodeRaw w = d := by
  have z : w ≠ 0 := fun z => h (by rw [z]; rfl)
  unfold decodeRaw
  rw [if_neg z]
  exact e

theorem raw_10 {w : Nat} (h : fld w 0 7 = 0x10) : decodeRaw w = decodeAndi w := raw_of (by rw [h]; decide) (by rw [h]; rfl)
theorem raw_11 {w : Nat} (h : fld w 0 7 = 0x11) : decodeRaw w = decodeOri w := raw_of (by rw [h]; decide) (by rw [h]; rfl)
theorem raw_12 {w : Nat} (h : fld w 0 7 = 0x12) : decodeRaw w = decodeXori w := raw_of (by rw [h]; decide) (by rw [h]; rfl)
theorem raw_13 {w : Nat} (h : fld w 0 7 = 0x13) : decodeRaw w = decodeSlti w := raw_of (by rw [h]; decide) (by rw [h]; rfl)
theorem raw_14 {w : Nat} (h : fld w 0 7 = 0x14) : decodeRaw w = decodeAddi w := raw_of (by rw [h]; decide) (by rw [h]; rfl)
theorem raw_15 {w : Nat} (h : fld w 0 7 = 0x15) : decodeRaw w = decodeSlli w := raw_of (by rw [h]; decide) (by rw [h]; rfl)
theorem raw_16 {w : Nat} (h : fld w 0 7 = 0x16) : decodeRaw w = decodeSrli w := raw_of (by rw [h]; decide) (by rw [h]; rfl)
theorem raw_17 {w : Nat} (h : fld w 0 7 = 0x17) : decodeRaw w = decodeSrai w := raw_of (by rw [h]; decide) (by rw [h]; rfl)
theorem raw_18 {w : Nat} (h : fld w 0 7 = 0x18) : decodeRaw w = decodeExt w := raw_of (by rw [h]; decide) (by rw [h]; rfl)
theorem raw_19 {w : Nat} (h : fld w 0 7 = 0x19) : decodeRaw w = decodeIns w := raw_of (by rw [h]; decide) (by rw [h]; rfl)
theorem raw_1A {w : Nat} (h : fld w 0 7 = 0x1A) : decodeRaw w = decodeJalr w := raw_of (by rw [h]; decide) (by rw [h]; rfl)
theorem raw_1B {w : Nat} (h : fld w 0 7 = 0x1B) : decodeRaw w = decodeLhi w := raw_of (by rw [h]; decide) (by rw [h]; rfl)
theorem raw_1C {w : Nat} (h : fld w 0 7 = 0x1C) : decodeRaw w = decodeJal w := raw_of (by rw [h]; decide) (by rw [h]; rfl)
theorem raw_1D {w : Nat} (h : fld w 0 7 = 0x1D) : decodeRaw w = decodeCtok w := raw_of (by rw [h]; decide) (by rw [h]; rfl)
theorem raw_1E {w : Nat} (h : fld w 0 7 = 0x1E) : decodeRaw w = decodeAstart w := raw_of (by rw [h]; decide) (by rw [h]; rfl)
theorem raw_20 {w : Nat} (h : fld w 0 7 = 0x20) : decodeRaw w = decodeBeq w := raw_of (by rw [h]; decide) (by rw [h]; rfl)
theorem raw_21 {w : Nat} (h : fld w 0 7 = 0x21) : decodeRaw w = decodeBne w := raw_of (by rw [h]; decide) (by rw [h]; rfl)
theorem raw_22 {w : Nat} (h : fld w 0 7 = 0x22) : decodeRaw w = decodeBlt w := raw_of (by rw [h]; decide) (by rw [h]; rfl)
theorem raw_23 {w : Nat} (h : fld w 0 7 = 0x23) : decodeRaw w = decodeBge w := raw_of (by rw [h]; decide) (by rw [h]; rfl)
theorem raw_24 {w : Nat} (h : fld w 0 7 = 0x24) : decodeRaw w = decodeBltn w := raw_of (by rw [h]; decide) (by rw [h]; rfl)
theorem raw_25 {w : Nat} (h : fld w 0 7 = 0x25) : decodeRaw w = decodeBgen w := raw_of (by rw [h]; decide) (by rw [h]; rfl)
theorem raw_26 {w : Nat} (h : fld w 0 7 = 0x26) : decodeRaw w = decodeSmb w := raw_of (by rw [h]; decide) (by rw [h]; rfl)
theorem raw_30 {w : Nat} (h : fld w 0 7 = 0x30) : decodeRaw w = decodeScalarAlu w := raw_of (by rw [h]; decide) (by rw [h]; rfl)
theorem raw_38 {w : Nat} (h : fld w 0 7 = 0x38) : decodeRaw w = decodeQueue w := raw_of (by rw [h]; decide) (by rw [h]; rfl)
theorem raw_40 {w : Nat} (h : fld w 0 7 = 0x40) : decodeRaw w = decodeVector w := raw_of (by rw [h]; decide) (by rw [h]; rfl)
theorem raw_41 {w : Nat} (h : fld w 0 7 = 0x41) : decodeRaw w = decodeVectorImm w := raw_of (by rw [h]; decide) (by rw [h]; rfl)
theorem raw_42 {w : Nat} (h : fld w 0 7 = 0x42) : decodeRaw w = decodePredScale w := raw_of (by rw [h]; decide) (by rw [h]; rfl)
theorem raw_44 {w : Nat} (h : fld w 0 7 = 0x44) : decodeRaw w = decodeSetvl w := raw_of (by rw [h]; decide) (by rw [h]; rfl)
theorem raw_45 {w : Nat} (h : fld w 0 7 = 0x45) : decodeRaw w = decodeMode w := raw_of (by rw [h]; decide) (by rw [h]; rfl)
theorem raw_50 {w : Nat} (h : fld w 0 7 = 0x50) : decodeRaw w = decodeScalarLoad w := raw_of (by rw [h]; decide) (by rw [h]; rfl)
theorem raw_51 {w : Nat} (h : fld w 0 7 = 0x51) : decodeRaw w = decodeScalarStore w := raw_of (by rw [h]; decide) (by rw [h]; rfl)
theorem raw_54 {w : Nat} (h : fld w 0 7 = 0x54) : decodeRaw w = decodeVectorLoad w := raw_of (by rw [h]; decide) (by rw [h]; rfl)
theorem raw_55 {w : Nat} (h : fld w 0 7 = 0x55) : decodeRaw w = decodeVectorStore w := raw_of (by rw [h]; decide) (by rw [h]; rfl)
theorem raw_56 {w : Nat} (h : fld w 0 7 = 0x56) : decodeRaw w = decodeVldseg w := raw_of (by rw [h]; decide) (by rw [h]; rfl)
theorem raw_57 {w : Nat} (h : fld w 0 7 = 0x57) : decodeRaw w = decodeVstseg w := raw_of (by rw [h]; decide) (by rw [h]; rfl)
theorem raw_58 {w : Nat} (h : fld w 0 7 = 0x58) : decodeRaw w = decodeAtomic w := raw_of (by rw [h]; decide) (by rw [h]; rfl)
theorem raw_5A {w : Nat} (h : fld w 0 7 = 0x5A) : decodeRaw w = decodeAccessMem w := raw_of (by rw [h]; decide) (by rw [h]; rfl)
theorem raw_5C {w : Nat} (h : fld w 0 7 = 0x5C) : decodeRaw w = decodeCutter w := raw_of (by rw [h]; decide) (by rw [h]; rfl)
theorem raw_60 {w : Nat} (h : fld w 0 7 = 0x60) : decodeRaw w = decodeMatrix w := raw_of (by rw [h]; decide) (by rw [h]; rfl)
theorem raw_62 {w : Nat} (h : fld w 0 7 = 0x62) : decodeRaw w = decodePage w := raw_of (by rw [h]; decide) (by rw [h]; rfl)
theorem raw_64 {w : Nat} (h : fld w 0 7 = 0x64) : decodeRaw w = decodeTransfer w := raw_of (by rw [h]; decide) (by rw [h]; rfl)
theorem raw_66 {w : Nat} (h : fld w 0 7 = 0x66) : decodeRaw w = decodeKernel w := raw_of (by rw [h]; decide) (by rw [h]; rfl)
theorem raw_68 {w : Nat} (h : fld w 0 7 = 0x68) : decodeRaw w = decodeAttention w := raw_of (by rw [h]; decide) (by rw [h]; rfl)
theorem raw_6A {w : Nat} (h : fld w 0 7 = 0x6A) : decodeRaw w = decodeTree w := raw_of (by rw [h]; decide) (by rw [h]; rfl)
theorem raw_70 {w : Nat} (h : fld w 0 7 = 0x70) : decodeRaw w = decodeSystem w := raw_of (by rw [h]; decide) (by rw [h]; rfl)

/-! The fields of a word that is the sum of its fields, in each division of the word that the forms use (R28, R33). -/

theorem word_s3 {w x0 x1 x2 x3 x4 : Nat} (e : w = x0 + x1 * 128 + x2 * 4096 + x3 * 131072 + x4 * 4194304) (h0 : x0 < 128) (h1 : x1 < 32) (h2 : x2 < 32) (h3 : x3 < 32) (h4 : x4 < 1024) :
    w < 2 ^ 32 ∧ fld w 0 7 = x0 ∧ fld w 7 5 = x1 ∧ fld w 12 5 = x2 ∧ fld w 17 5 = x3 ∧ fld w 22 10 = x4 := by
  subst e
  refine ⟨by omega, ?_, ?_, ?_, ?_, ?_⟩ <;> simp only [fld] <;> omega
theorem word_v3 {w x0 x1 x2 x3 x4 : Nat} (e : w = x0 + x1 * 128 + x2 * 8192 + x3 * 524288 + x4 * 33554432) (h0 : x0 < 128) (h1 : x1 < 64) (h2 : x2 < 64) (h3 : x3 < 64) (h4 : x4 < 128) :
    w < 2 ^ 32 ∧ fld w 0 7 = x0 ∧ fld w 7 6 = x1 ∧ fld w 13 6 = x2 ∧ fld w 19 6 = x3 ∧ fld w 25 7 = x4 := by
  subst e
  refine ⟨by omega, ?_, ?_, ?_, ?_, ?_⟩ <;> simp only [fld] <;> omega
theorem word_v2i {w x0 x1 x2 x3 x4 : Nat} (e : w = x0 + x1 * 128 + x2 * 8192 + x3 * 524288 + x4 * 134217728) (h0 : x0 < 128) (h1 : x1 < 64) (h2 : x2 < 64) (h3 : x3 < 256) (h4 : x4 < 32) :
    w < 2 ^ 32 ∧ fld w 0 7 = x0 ∧ fld w 7 6 = x1 ∧ fld w 13 6 = x2 ∧ fld w 19 8 = x3 ∧ fld w 27 5 = x4 := by
  subst e
  refine ⟨by omega, ?_, ?_, ?_, ?_, ?_⟩ <;> simp only [fld] <;> omega
theorem word_si {w x0 x1 x2 x3 : Nat} (e : w = x0 + x1 * 128 + x2 * 4096 + x3 * 131072) (h0 : x0 < 128) (h1 : x1 < 32) (h2 : x2 < 32) (h3 : x3 < 32768) :
    w < 2 ^ 32 ∧ fld w 0 7 = x0 ∧ fld w 7 5 = x1 ∧ fld w 12 5 = x2 ∧ fld w 17 15 = x3 := by
  subst e
  refine ⟨by omega, ?_, ?_, ?_, ?_⟩ <;> simp only [fld] <;> omega
theorem word_j {w x0 x1 x2 : Nat} (e : w = x0 + x1 * 128 + x2 * 4096) (h0 : x0 < 128) (h1 : x1 < 32) (h2 : x2 < 1048576) :
    w < 2 ^ 32 ∧ fld w 0 7 = x0 ∧ fld w 7 5 = x1 ∧ fld w 12 20 = x2 := by
  subst e
  refine ⟨by omega, ?_, ?_, ?_⟩ <;> simp only [fld] <;> omega
theorem word_q {w x0 x1 x2 x3 x4 : Nat} (e : w = x0 + x1 * 128 + x2 * 8192 + x3 * 65536 + x4 * 1048576) (h0 : x0 < 128) (h1 : x1 < 64) (h2 : x2 < 8) (h3 : x3 < 16) (h4 : x4 < 4096) :
    w < 2 ^ 32 ∧ fld w 0 7 = x0 ∧ fld w 7 6 = x1 ∧ fld w 13 3 = x2 ∧ fld w 16 4 = x3 ∧ fld w 20 12 = x4 := by
  subst e
  refine ⟨by omega, ?_, ?_, ?_, ?_, ?_⟩ <;> simp only [fld] <;> omega
theorem word_md {w x0 x1 x2 x3 x4 x5 x6 x7 : Nat} (e : w = x0 + x1 * 128 + x2 * 4096 + x3 * 8192 + x4 * 262144 + x5 * 524288 + x6 * 4194304 + x7 * 8388608) (h0 : x0 < 128) (h1 : x1 < 32) (h2 : x2 < 2) (h3 : x3 < 32) (h4 : x4 < 2) (h5 : x5 < 8) (h6 : x6 < 2) (h7 : x7 < 512) :
    w < 2 ^ 32 ∧ fld w 0 7 = x0 ∧ fld w 7 5 = x1 ∧ fld w 12 1 = x2 ∧ fld w 13 5 = x3 ∧ fld w 18 1 = x4 ∧ fld w 19 3 = x5 ∧ fld w 22 1 = x6 ∧ fld w 23 9 = x7 := by
  subst e
  refine ⟨by omega, ?_, ?_, ?_, ?_, ?_, ?_, ?_, ?_⟩ <;> simp only [fld] <;> omega
theorem word_mdv {w x0 x1 x2 x3 x4 x5 x6 : Nat} (e : w = x0 + x1 * 128 + x2 * 8192 + x3 * 262144 + x4 * 524288 + x5 * 4194304 + x6 * 8388608) (h0 : x0 < 128) (h1 : x1 < 64) (h2 : x2 < 32) (h3 : x3 < 2) (h4 : x4 < 8) (h5 : x5 < 2) (h6 : x6 < 512) :
    w < 2 ^ 32 ∧ fld w 0 7 = x0 ∧ fld w 7 6 = x1 ∧ fld w 13 5 = x2 ∧ fld w 18 1 = x3 ∧ fld w 19 3 = x4 ∧ fld w 22 1 = x5 ∧ fld w 23 9 = x6 := by
  subst e
  refine ⟨by omega, ?_, ?_, ?_, ?_, ?_, ?_, ?_⟩ <;> simp only [fld] <;> omega
theorem word_mx {w x0 x1 x2 x3 x4 x5 x6 x7 x8 : Nat} (e : w = x0 + x1 * 128 + x2 * 4096 + x3 * 8192 + x4 * 262144 + x5 * 524288 + x6 * 4194304 + x7 * 8388608 + x8 * 268435456) (h0 : x0 < 128) (h1 : x1 < 32) (h2 : x2 < 2) (h3 : x3 < 32) (h4 : x4 < 2) (h5 : x5 < 8) (h6 : x6 < 2) (h7 : x7 < 32) (h8 : x8 < 16) :
    w < 2 ^ 32 ∧ fld w 0 7 = x0 ∧ fld w 7 5 = x1 ∧ fld w 12 1 = x2 ∧ fld w 13 5 = x3 ∧ fld w 18 1 = x4 ∧ fld w 19 3 = x5 ∧ fld w 22 1 = x6 ∧ fld w 23 5 = x7 ∧ fld w 28 4 = x8 := by
  subst e
  refine ⟨by omega, ?_, ?_, ?_, ?_, ?_, ?_, ?_, ?_, ?_⟩ <;> simp only [fld] <;> omega
theorem word_mxv {w x0 x1 x2 x3 x4 x5 x6 x7 : Nat} (e : w = x0 + x1 * 128 + x2 * 8192 + x3 * 262144 + x4 * 524288 + x5 * 4194304 + x6 * 8388608 + x7 * 268435456) (h0 : x0 < 128) (h1 : x1 < 64) (h2 : x2 < 32) (h3 : x3 < 2) (h4 : x4 < 8) (h5 : x5 < 2) (h6 : x6 < 32) (h7 : x7 < 16) :
    w < 2 ^ 32 ∧ fld w 0 7 = x0 ∧ fld w 7 6 = x1 ∧ fld w 13 5 = x2 ∧ fld w 18 1 = x3 ∧ fld w 19 3 = x4 ∧ fld w 22 1 = x5 ∧ fld w 23 5 = x6 ∧ fld w 28 4 = x7 := by
  subst e
  refine ⟨by omega, ?_, ?_, ?_, ?_, ?_, ?_, ?_, ?_⟩ <;> simp only [fld] <;> omega
theorem word_ma {w x0 x1 x2 x3 x4 x5 x6 x7 x8 : Nat} (e : w = x0 + x1 * 128 + x2 * 4096 + x3 * 8192 + x4 * 262144 + x5 * 8388608 + x6 * 134217728 + x7 * 268435456 + x8 * 1073741824) (h0 : x0 < 128) (h1 : x1 < 32) (h2 : x2 < 2) (h3 : x3 < 32) (h4 : x4 < 32) (h5 : x5 < 16) (h6 : x6 < 2) (h7 : x7 < 4) (h8 : x8 < 4) :
    w < 2 ^ 32 ∧ fld w 0 7 = x0 ∧ fld w 7 5 = x1 ∧ fld w 12 1 = x2 ∧ fld w 13 5 = x3 ∧ fld w 18 5 = x4 ∧ fld w 23 4 = x5 ∧ fld w 27 1 = x6 ∧ fld w 28 2 = x7 ∧ fld w 30 2 = x8 := by
  subst e
  refine ⟨by omega, ?_, ?_, ?_, ?_, ?_, ?_, ?_, ?_, ?_⟩ <;> simp only [fld] <;> omega
theorem word_mq {w x0 x1 x2 x3 x4 x5 x6 x7 x8 : Nat} (e : w = x0 + x1 * 128 + x2 * 1024 + x3 * 8192 + x4 * 262144 + x5 * 8388608 + x6 * 268435456 + x7 * 536870912 + x8 * 2147483648) (h0 : x0 < 128) (h1 : x1 < 8) (h2 : x2 < 8) (h3 : x3 < 32) (h4 : x4 < 32) (h5 : x5 < 32) (h6 : x6 < 2) (h7 : x7 < 4) (h8 : x8 < 2) :
    w < 2 ^ 32 ∧ fld w 0 7 = x0 ∧ fld w 7 3 = x1 ∧ fld w 10 3 = x2 ∧ fld w 13 5 = x3 ∧ fld w 18 5 = x4 ∧ fld w 23 5 = x5 ∧ fld w 28 1 = x6 ∧ fld w 29 2 = x7 ∧ fld w 31 1 = x8 := by
  subst e
  refine ⟨by omega, ?_, ?_, ?_, ?_, ?_, ?_, ?_, ?_, ?_⟩ <;> simp only [fld] <;> omega
theorem word_mk {w x0 x1 x2 x3 x4 x5 x6 : Nat} (e : w = x0 + x1 * 128 + x2 * 1024 + x3 * 8192 + x4 * 262144 + x5 * 8388608 + x6 * 268435456) (h0 : x0 < 128) (h1 : x1 < 8) (h2 : x2 < 8) (h3 : x3 < 32) (h4 : x4 < 32) (h5 : x5 < 32) (h6 : x6 < 16) :
    w < 2 ^ 32 ∧ fld w 0 7 = x0 ∧ fld w 7 3 = x1 ∧ fld w 10 3 = x2 ∧ fld w 13 5 = x3 ∧ fld w 18 5 = x4 ∧ fld w 23 5 = x5 ∧ fld w 28 4 = x6 := by
  subst e
  refine ⟨by omega, ?_, ?_, ?_, ?_, ?_, ?_, ?_⟩ <;> simp only [fld] <;> omega
theorem word_p {w x0 x1 x2 x3 x4 x5 : Nat} (e : w = x0 + x1 * 128 + x2 * 4096 + x3 * 131072 + x4 * 4194304 + x5 * 67108864) (h0 : x0 < 128) (h1 : x1 < 32) (h2 : x2 < 32) (h3 : x3 < 32) (h4 : x4 < 16) (h5 : x5 < 64) :
    w < 2 ^ 32 ∧ fld w 0 7 = x0 ∧ fld w 7 5 = x1 ∧ fld w 12 5 = x2 ∧ fld w 17 5 = x3 ∧ fld w 22 4 = x4 ∧ fld w 26 6 = x5 := by
  subst e
  refine ⟨by omega, ?_, ?_, ?_, ?_, ?_, ?_⟩ <;> simp only [fld] <;> omega
theorem word_p2 {w x0 x1 x2 x3 x4 : Nat} (e : w = x0 + x1 * 128 + x2 * 4096 + x3 * 4194304 + x4 * 67108864) (h0 : x0 < 128) (h1 : x1 < 32) (h2 : x2 < 1024) (h3 : x3 < 16) (h4 : x4 < 64) :
    w < 2 ^ 32 ∧ fld w 0 7 = x0 ∧ fld w 7 5 = x1 ∧ fld w 12 10 = x2 ∧ fld w 22 4 = x3 ∧ fld w 26 6 = x4 := by
  subst e
  refine ⟨by omega, ?_, ?_, ?_, ?_, ?_⟩ <;> simp only [fld] <;> omega
theorem word_p3 {w x0 x1 x2 x3 : Nat} (e : w = x0 + x1 * 128 + x2 * 4194304 + x3 * 67108864) (h0 : x0 < 128) (h1 : x1 < 32768) (h2 : x2 < 16) (h3 : x3 < 64) :
    w < 2 ^ 32 ∧ fld w 0 7 = x0 ∧ fld w 7 15 = x1 ∧ fld w 22 4 = x2 ∧ fld w 26 6 = x3 := by
  subst e
  refine ⟨by omega, ?_, ?_, ?_, ?_⟩ <;> simp only [fld] <;> omega
theorem word_b {w x0 x1 x2 x3 x4 x5 x6 : Nat} (e : w = x0 + x1 * 128 + x2 * 131072 + x3 * 4194304 + x4 * 67108864 + x5 * 268435456 + x6 * 2147483648) (h0 : x0 < 128) (h1 : x1 < 1024) (h2 : x2 < 32) (h3 : x3 < 16) (h4 : x4 < 4) (h5 : x5 < 8) (h6 : x6 < 2) :
    w < 2 ^ 32 ∧ fld w 0 7 = x0 ∧ fld w 7 10 = x1 ∧ fld w 17 5 = x2 ∧ fld w 22 4 = x3 ∧ fld w 26 2 = x4 ∧ fld w 28 3 = x5 ∧ fld w 31 1 = x6 := by
  subst e
  refine ⟨by omega, ?_, ?_, ?_, ?_, ?_, ?_, ?_⟩ <;> simp only [fld] <;> omega
theorem word_sh {w x0 x1 x2 x3 x4 : Nat} (e : w = x0 + x1 * 128 + x2 * 4096 + x3 * 131072 + x4 * 8388608) (h0 : x0 < 128) (h1 : x1 < 32) (h2 : x2 < 32) (h3 : x3 < 64) (h4 : x4 < 512) :
    w < 2 ^ 32 ∧ fld w 0 7 = x0 ∧ fld w 7 5 = x1 ∧ fld w 12 5 = x2 ∧ fld w 17 6 = x3 ∧ fld w 23 9 = x4 := by
  subst e
  refine ⟨by omega, ?_, ?_, ?_, ?_, ?_⟩ <;> simp only [fld] <;> omega
theorem word_ex {w x0 x1 x2 x3 x4 x5 : Nat} (e : w = x0 + x1 * 128 + x2 * 4096 + x3 * 131072 + x4 * 8388608 + x5 * 536870912) (h0 : x0 < 128) (h1 : x1 < 32) (h2 : x2 < 32) (h3 : x3 < 64) (h4 : x4 < 64) (h5 : x5 < 8) :
    w < 2 ^ 32 ∧ fld w 0 7 = x0 ∧ fld w 7 5 = x1 ∧ fld w 12 5 = x2 ∧ fld w 17 6 = x3 ∧ fld w 23 6 = x4 ∧ fld w 29 3 = x5 := by
  subst e
  refine ⟨by omega, ?_, ?_, ?_, ?_, ?_, ?_⟩ <;> simp only [fld] <;> omega
theorem word_sv {w x0 x1 x2 x3 x4 x5 x6 x7 x8 : Nat} (e : w = x0 + x1 * 128 + x2 * 4096 + x3 * 131072 + x4 * 2097152 + x5 * 8388608 + x6 * 16777216 + x7 * 33554432 + x8 * 1073741824) (h0 : x0 < 128) (h1 : x1 < 32) (h2 : x2 < 32) (h3 : x3 < 16) (h4 : x4 < 4) (h5 : x5 < 2) (h6 : x6 < 2) (h7 : x7 < 32) (h8 : x8 < 4) :
    w < 2 ^ 32 ∧ fld w 0 7 = x0 ∧ fld w 7 5 = x1 ∧ fld w 12 5 = x2 ∧ fld w 17 4 = x3 ∧ fld w 21 2 = x4 ∧ fld w 23 1 = x5 ∧ fld w 24 1 = x6 ∧ fld w 25 5 = x7 ∧ fld w 30 2 = x8 := by
  subst e
  refine ⟨by omega, ?_, ?_, ?_, ?_, ?_, ?_, ?_, ?_, ?_⟩ <;> simp only [fld] <;> omega
theorem word_fr {w x0 x1 x2 x3 x4 x5 x6 x7 : Nat} (e : w = x0 + x1 * 128 + x2 * 4096 + x3 * 131072 + x4 * 4194304 + x5 * 67108864 + x6 * 268435456 + x7 * 2147483648) (h0 : x0 < 128) (h1 : x1 < 32) (h2 : x2 < 32) (h3 : x3 < 32) (h4 : x4 < 16) (h5 : x5 < 4) (h6 : x6 < 8) (h7 : x7 < 2) :
    w < 2 ^ 32 ∧ fld w 0 7 = x0 ∧ fld w 7 5 = x1 ∧ fld w 12 5 = x2 ∧ fld w 17 5 = x3 ∧ fld w 22 4 = x4 ∧ fld w 26 2 = x5 ∧ fld w 28 3 = x6 ∧ fld w 31 1 = x7 := by
  subst e
  refine ⟨by omega, ?_, ?_, ?_, ?_, ?_, ?_, ?_, ?_⟩ <;> simp only [fld] <;> omega
theorem word_x0 {w x0 x1 x2 x3 : Nat} (e : w = x0 + x1 * 128 + x2 * 131072 + x3 * 4194304) (h0 : x0 < 128) (h1 : x1 < 1024) (h2 : x2 < 32) (h3 : x3 < 1024) :
    w < 2 ^ 32 ∧ fld w 0 7 = x0 ∧ fld w 7 10 = x1 ∧ fld w 17 5 = x2 ∧ fld w 22 10 = x3 := by
  subst e
  refine ⟨by omega, ?_, ?_, ?_, ?_⟩ <;> simp only [fld] <;> omega
theorem word_fe {w x0 x1 x2 x3 x4 x5 : Nat} (e : w = x0 + x1 * 128 + x2 * 131072 + x3 * 4194304 + x4 * 33554432 + x5 * 134217728) (h0 : x0 < 128) (h1 : x1 < 1024) (h2 : x2 < 32) (h3 : x3 < 8) (h4 : x4 < 4) (h5 : x5 < 32) :
    w < 2 ^ 32 ∧ fld w 0 7 = x0 ∧ fld w 7 10 = x1 ∧ fld w 17 5 = x2 ∧ fld w 22 3 = x3 ∧ fld w 25 2 = x4 ∧ fld w 27 5 = x5 := by
  subst e
  refine ⟨by omega, ?_, ?_, ?_, ?_, ?_, ?_⟩ <;> simp only [fld] <;> omega
theorem word_vi {w x0 x1 x2 x3 : Nat} (e : w = x0 + x1 * 128 + x2 * 8192 + x3 * 33554432) (h0 : x0 < 128) (h1 : x1 < 64) (h2 : x2 < 4096) (h3 : x3 < 128) :
    w < 2 ^ 32 ∧ fld w 0 7 = x0 ∧ fld w 7 6 = x1 ∧ fld w 13 12 = x2 ∧ fld w 25 7 = x3 := by
  subst e
  refine ⟨by omega, ?_, ?_, ?_, ?_⟩ <;> simp only [fld] <;> omega
theorem word_vc {w x0 x1 x2 x3 x4 x5 : Nat} (e : w = x0 + x1 * 128 + x2 * 8192 + x3 * 524288 + x4 * 8388608 + x5 * 33554432) (h0 : x0 < 128) (h1 : x1 < 64) (h2 : x2 < 64) (h3 : x3 < 16) (h4 : x4 < 4) (h5 : x5 < 128) :
    w < 2 ^ 32 ∧ fld w 0 7 = x0 ∧ fld w 7 6 = x1 ∧ fld w 13 6 = x2 ∧ fld w 19 4 = x3 ∧ fld w 23 2 = x4 ∧ fld w 25 7 = x5 := by
  subst e
  refine ⟨by omega, ?_, ?_, ?_, ?_, ?_, ?_⟩ <;> simp only [fld] <;> omega
theorem word_vt {w x0 x1 x2 x3 x4 x5 : Nat} (e : w = x0 + x1 * 128 + x2 * 8192 + x3 * 524288 + x4 * 8388608 + x5 * 134217728) (h0 : x0 < 128) (h1 : x1 < 64) (h2 : x2 < 64) (h3 : x3 < 16) (h4 : x4 < 16) (h5 : x5 < 32) :
    w < 2 ^ 32 ∧ fld w 0 7 = x0 ∧ fld w 7 6 = x1 ∧ fld w 13 6 = x2 ∧ fld w 19 4 = x3 ∧ fld w 23 4 = x4 ∧ fld w 27 5 = x5 := by
  subst e
  refine ⟨by omega, ?_, ?_, ?_, ?_, ?_, ?_⟩ <;> simp only [fld] <;> omega
theorem word_t0 {w x0 x1 x2 : Nat} (e : w = x0 + x1 * 128 + x2 * 4194304) (h0 : x0 < 128) (h1 : x1 < 32768) (h2 : x2 < 1024) :
    w < 2 ^ 32 ∧ fld w 0 7 = x0 ∧ fld w 7 15 = x1 ∧ fld w 22 10 = x2 := by
  subst e
  refine ⟨by omega, ?_, ?_, ?_⟩ <;> simp only [fld] <;> omega
theorem word_m0 {w x0 x1 x2 : Nat} (e : w = x0 + x1 * 128 + x2 * 33554432) (h0 : x0 < 128) (h1 : x1 < 262144) (h2 : x2 < 128) :
    w < 2 ^ 32 ∧ fld w 0 7 = x0 ∧ fld w 7 18 = x1 ∧ fld w 25 7 = x2 := by
  subst e
  refine ⟨by omega, ?_, ?_, ?_⟩ <;> simp only [fld] <;> omega

theorem RoundTrip.andi (rd : SReg) (rs : SReg) (imm : BitVec 15) : RoundTrip.Statement (.andi rd rs imm) := by
  intro w wf e
  replace e := Option.some.inj (show some (pack 0x00000010 [(rd.val, 7), (rs.val, 12), (imm.toNat, 17)]) = some w from e)
  simp only [pack] at e
  obtain ⟨hw, f0_7, f7_5, f12_5, f17_15⟩ := word_si (w := w) (x0 := 16) (x1 := rd.val) (x2 := rs.val) (x3 := imm.toNat) (by omega) (by decide) rd.isLt rs.isLt imm.isLt
  refine ⟨hw, table_of_raw hw ?_ wf⟩
  rw [raw_10 f0_7, decodeAndi]
  rw [reg_of f7_5, reg_of f12_5, imm_of f17_15]
theorem RoundTrip.ori (rd : SReg) (rs : SReg) (imm : BitVec 15) : RoundTrip.Statement (.ori rd rs imm) := by
  intro w wf e
  replace e := Option.some.inj (show some (pack 0x00000011 [(rd.val, 7), (rs.val, 12), (imm.toNat, 17)]) = some w from e)
  simp only [pack] at e
  obtain ⟨hw, f0_7, f7_5, f12_5, f17_15⟩ := word_si (w := w) (x0 := 17) (x1 := rd.val) (x2 := rs.val) (x3 := imm.toNat) (by omega) (by decide) rd.isLt rs.isLt imm.isLt
  refine ⟨hw, table_of_raw hw ?_ wf⟩
  rw [raw_11 f0_7, decodeOri]
  rw [reg_of f7_5, reg_of f12_5, imm_of f17_15]
theorem RoundTrip.xori (rd : SReg) (rs : SReg) (imm : BitVec 15) : RoundTrip.Statement (.xori rd rs imm) := by
  intro w wf e
  replace e := Option.some.inj (show some (pack 0x00000012 [(rd.val, 7), (rs.val, 12), (imm.toNat, 17)]) = some w from e)
  simp only [pack] at e
  obtain ⟨hw, f0_7, f7_5, f12_5, f17_15⟩ := word_si (w := w) (x0 := 18) (x1 := rd.val) (x2 := rs.val) (x3 := imm.toNat) (by omega) (by decide) rd.isLt rs.isLt imm.isLt
  refine ⟨hw, table_of_raw hw ?_ wf⟩
  rw [raw_12 f0_7, decodeXori]
  rw [reg_of f7_5, reg_of f12_5, imm_of f17_15]
theorem RoundTrip.slti (rd : SReg) (rs : SReg) (imm : BitVec 15) : RoundTrip.Statement (.slti rd rs imm) := by
  intro w wf e
  replace e := Option.some.inj (show some (pack 0x00000013 [(rd.val, 7), (rs.val, 12), (imm.toNat, 17)]) = some w from e)
  simp only [pack] at e
  obtain ⟨hw, f0_7, f7_5, f12_5, f17_15⟩ := word_si (w := w) (x0 := 19) (x1 := rd.val) (x2 := rs.val) (x3 := imm.toNat) (by omega) (by decide) rd.isLt rs.isLt imm.isLt
  refine ⟨hw, table_of_raw hw ?_ wf⟩
  rw [raw_13 f0_7, decodeSlti]
  rw [reg_of f7_5, reg_of f12_5, imm_of f17_15]
theorem RoundTrip.addi (rd : SReg) (rs : SReg) (imm : BitVec 15) : RoundTrip.Statement (.addi rd rs imm) := by
  intro w wf e
  replace e := Option.some.inj (show some (pack 0x00000014 [(rd.val, 7), (rs.val, 12), (imm.toNat, 17)]) = some w from e)
  simp only [pack] at e
  obtain ⟨hw, f0_7, f7_5, f12_5, f17_15⟩ := word_si (w := w) (x0 := 20) (x1 := rd.val) (x2 := rs.val) (x3 := imm.toNat) (by omega) (by decide) rd.isLt rs.isLt imm.isLt
  refine ⟨hw, table_of_raw hw ?_ wf⟩
  rw [raw_14 f0_7, decodeAddi]
  rw [reg_of f7_5, reg_of f12_5, imm_of f17_15]
theorem RoundTrip.slli (rd : SReg) (rs : SReg) (n : Fin 64) : RoundTrip.Statement (.slli rd rs n) := by
  intro w wf e
  replace e := Option.some.inj (show some (pack 0x00000015 [(rd.val, 7), (rs.val, 12), (n.val, 17)]) = some w from e)
  simp only [pack] at e
  obtain ⟨hw, f0_7, f7_5, f12_5, f17_6, f23_9⟩ := word_sh (w := w) (x0 := 21) (x1 := rd.val) (x2 := rs.val) (x3 := n.val) (x4 := 0) (by omega) (by decide) rd.isLt rs.isLt n.isLt (by decide)
  refine ⟨hw, table_of_raw hw ?_ wf⟩
  rw [raw_15 f0_7, decodeSlli]
  rw [fixed_of f23_9, reg_of f7_5, reg_of f12_5, reg_of f17_6]
theorem RoundTrip.srli (rd : SReg) (rs : SReg) (n : Fin 64) : RoundTrip.Statement (.srli rd rs n) := by
  intro w wf e
  replace e := Option.some.inj (show some (pack 0x00000016 [(rd.val, 7), (rs.val, 12), (n.val, 17)]) = some w from e)
  simp only [pack] at e
  obtain ⟨hw, f0_7, f7_5, f12_5, f17_6, f23_9⟩ := word_sh (w := w) (x0 := 22) (x1 := rd.val) (x2 := rs.val) (x3 := n.val) (x4 := 0) (by omega) (by decide) rd.isLt rs.isLt n.isLt (by decide)
  refine ⟨hw, table_of_raw hw ?_ wf⟩
  rw [raw_16 f0_7, decodeSrli]
  rw [fixed_of f23_9, reg_of f7_5, reg_of f12_5, reg_of f17_6]
theorem RoundTrip.srai (rd : SReg) (rs : SReg) (n : Fin 64) : RoundTrip.Statement (.srai rd rs n) := by
  intro w wf e
  replace e := Option.some.inj (show some (pack 0x00000017 [(rd.val, 7), (rs.val, 12), (n.val, 17)]) = some w from e)
  simp only [pack] at e
  obtain ⟨hw, f0_7, f7_5, f12_5, f17_6, f23_9⟩ := word_sh (w := w) (x0 := 23) (x1 := rd.val) (x2 := rs.val) (x3 := n.val) (x4 := 0) (by omega) (by decide) rd.isLt rs.isLt n.isLt (by decide)
  refine ⟨hw, table_of_raw hw ?_ wf⟩
  rw [raw_17 f0_7, decodeSrai]
  rw [fixed_of f23_9, reg_of f7_5, reg_of f12_5, reg_of f17_6]
theorem RoundTrip.ext (rd : SReg) (rs : SReg) (pos : Fin 64) (wm1 : Fin 64) : RoundTrip.Statement (.ext rd rs pos wm1) := by
  intro w wf e
  replace e := Option.some.inj (show some (pack 0x00000018 [(rd.val, 7), (rs.val, 12), (pos.val, 17), (wm1.val, 23)]) = some w from e)
  simp only [pack] at e
  obtain ⟨hw, f0_7, f7_5, f12_5, f17_6, f23_6, f29_3⟩ := word_ex (w := w) (x0 := 24) (x1 := rd.val) (x2 := rs.val) (x3 := pos.val) (x4 := wm1.val) (x5 := 0) (by omega) (by decide) rd.isLt rs.isLt pos.isLt wm1.isLt (by decide)
  refine ⟨hw, table_of_raw hw ?_ wf⟩
  rw [raw_18 f0_7, decodeExt]
  rw [fixed_of f29_3, reg_of f7_5, reg_of f12_5, reg_of f17_6, reg_of f23_6]
theorem RoundTrip.ins (rd : SReg) (rs : SReg) (pos : Fin 64) (wm1 : Fin 64) : RoundTrip.Statement (.ins rd rs pos wm1) := by
  intro w wf e
  replace e := Option.some.inj (show some (pack 0x00000019 [(rd.val, 7), (rs.val, 12), (pos.val, 17), (wm1.val, 23)]) = some w from e)
  simp only [pack] at e
  obtain ⟨hw, f0_7, f7_5, f12_5, f17_6, f23_6, f29_3⟩ := word_ex (w := w) (x0 := 25) (x1 := rd.val) (x2 := rs.val) (x3 := pos.val) (x4 := wm1.val) (x5 := 0) (by omega) (by decide) rd.isLt rs.isLt pos.isLt wm1.isLt (by decide)
  refine ⟨hw, table_of_raw hw ?_ wf⟩
  rw [raw_19 f0_7, decodeIns]
  rw [fixed_of f29_3, reg_of f7_5, reg_of f12_5, reg_of f17_6, reg_of f23_6]
theorem RoundTrip.jalr (rd : SReg) (rs : SReg) (imm : BitVec 15) : RoundTrip.Statement (.jalr rd rs imm) := by
  intro w wf e
  replace e := Option.some.inj (show some (pack 0x0000001A [(rd.val, 7), (rs.val, 12), (imm.toNat, 17)]) = some w from e)
  simp only [pack] at e
  obtain ⟨hw, f0_7, f7_5, f12_5, f17_15⟩ := word_si (w := w) (x0 := 26) (x1 := rd.val) (x2 := rs.val) (x3 := imm.toNat) (by omega) (by decide) rd.isLt rs.isLt imm.isLt
  refine ⟨hw, table_of_raw hw ?_ wf⟩
  rw [raw_1A f0_7, decodeJalr]
  rw [reg_of f7_5, reg_of f12_5, imm_of f17_15]
theorem RoundTrip.lhi (rd : SReg) (imm : BitVec 20) : RoundTrip.Statement (.lhi rd imm) := by
  intro w wf e
  replace e := Option.some.inj (show some (pack 0x0000001B [(rd.val, 7), (imm.toNat, 12)]) = some w from e)
  simp only [pack] at e
  obtain ⟨hw, f0_7, f7_5, f12_20⟩ := word_j (w := w) (x0 := 27) (x1 := rd.val) (x2 := imm.toNat) (by omega) (by decide) rd.isLt imm.isLt
  refine ⟨hw, table_of_raw hw ?_ wf⟩
  rw [raw_1B f0_7, decodeLhi]
  rw [reg_of f7_5, imm_of f12_20]
theorem RoundTrip.jal (rd : SReg) (off : BitVec 20) : RoundTrip.Statement (.jal rd off) := by
  intro w wf e
  replace e := Option.some.inj (show some (pack 0x0000001C [(rd.val, 7), (off.toNat, 12)]) = some w from e)
  simp only [pack] at e
  obtain ⟨hw, f0_7, f7_5, f12_20⟩ := word_j (w := w) (x0 := 28) (x1 := rd.val) (x2 := off.toNat) (by omega) (by decide) rd.isLt off.isLt
  refine ⟨hw, table_of_raw hw ?_ wf⟩
  rw [raw_1C f0_7, decodeJal]
  rw [reg_of f7_5, imm_of f12_20]
theorem RoundTrip.ctok (rs : SReg) (off : BitVec 20) : RoundTrip.Statement (.ctok rs off) := by
  intro w wf e
  replace e := Option.some.inj (show some (pack 0x0000001D [(rs.val, 7), (off.toNat, 12)]) = some w from e)
  simp only [pack] at e
  obtain ⟨hw, f0_7, f7_5, f12_20⟩ := word_j (w := w) (x0 := 29) (x1 := rs.val) (x2 := off.toNat) (by omega) (by decide) rs.isLt off.isLt
  refine ⟨hw, table_of_raw hw ?_ wf⟩
  rw [raw_1D f0_7, decodeCtok]
  rw [reg_of f7_5, imm_of f12_20]
theorem RoundTrip.astart (off : BitVec 20) : RoundTrip.Statement (.astart off) := by
  intro w wf e
  replace e := Option.some.inj (show some (pack 0x0000001E [(off.toNat, 12)]) = some w from e)
  simp only [pack] at e
  obtain ⟨hw, f0_7, f7_5, f12_20⟩ := word_j (w := w) (x0 := 30) (x1 := 0) (x2 := off.toNat) (by omega) (by decide) (by decide) off.isLt
  refine ⟨hw, table_of_raw hw ?_ wf⟩
  rw [raw_1E f0_7, decodeAstart]
  rw [fixed_of f7_5, imm_of f12_20]
theorem RoundTrip.beq (ra : SReg) (rb : SReg) (off : BitVec 15) : RoundTrip.Statement (.beq ra rb off) := by
  intro w wf e
  replace e := Option.some.inj (show some (pack 0x00000020 [(ra.val, 7), (rb.val, 12), (off.toNat, 17)]) = some w from e)
  simp only [pack] at e
  obtain ⟨hw, f0_7, f7_5, f12_5, f17_15⟩ := word_si (w := w) (x0 := 32) (x1 := ra.val) (x2 := rb.val) (x3 := off.toNat) (by omega) (by decide) ra.isLt rb.isLt off.isLt
  refine ⟨hw, table_of_raw hw ?_ wf⟩
  rw [raw_20 f0_7, decodeBeq]
  rw [reg_of f7_5, reg_of f12_5, imm_of f17_15]
theorem RoundTrip.bne (ra : SReg) (rb : SReg) (off : BitVec 15) : RoundTrip.Statement (.bne ra rb off) := by
  intro w wf e
  replace e := Option.some.inj (show some (pack 0x00000021 [(ra.val, 7), (rb.val, 12), (off.toNat, 17)]) = some w from e)
  simp only [pack] at e
  obtain ⟨hw, f0_7, f7_5, f12_5, f17_15⟩ := word_si (w := w) (x0 := 33) (x1 := ra.val) (x2 := rb.val) (x3 := off.toNat) (by omega) (by decide) ra.isLt rb.isLt off.isLt
  refine ⟨hw, table_of_raw hw ?_ wf⟩
  rw [raw_21 f0_7, decodeBne]
  rw [reg_of f7_5, reg_of f12_5, imm_of f17_15]
theorem RoundTrip.blt (ra : SReg) (rb : SReg) (off : BitVec 15) : RoundTrip.Statement (.blt ra rb off) := by
  intro w wf e
  replace e := Option.some.inj (show some (pack 0x00000022 [(ra.val, 7), (rb.val, 12), (off.toNat, 17)]) = some w from e)
  simp only [pack] at e
  obtain ⟨hw, f0_7, f7_5, f12_5, f17_15⟩ := word_si (w := w) (x0 := 34) (x1 := ra.val) (x2 := rb.val) (x3 := off.toNat) (by omega) (by decide) ra.isLt rb.isLt off.isLt
  refine ⟨hw, table_of_raw hw ?_ wf⟩
  rw [raw_22 f0_7, decodeBlt]
  rw [reg_of f7_5, reg_of f12_5, imm_of f17_15]
theorem RoundTrip.bge (ra : SReg) (rb : SReg) (off : BitVec 15) : RoundTrip.Statement (.bge ra rb off) := by
  intro w wf e
  replace e := Option.some.inj (show some (pack 0x00000023 [(ra.val, 7), (rb.val, 12), (off.toNat, 17)]) = some w from e)
  simp only [pack] at e
  obtain ⟨hw, f0_7, f7_5, f12_5, f17_15⟩ := word_si (w := w) (x0 := 35) (x1 := ra.val) (x2 := rb.val) (x3 := off.toNat) (by omega) (by decide) ra.isLt rb.isLt off.isLt
  refine ⟨hw, table_of_raw hw ?_ wf⟩
  rw [raw_23 f0_7, decodeBge]
  rw [reg_of f7_5, reg_of f12_5, imm_of f17_15]
theorem RoundTrip.bltn (ra : SReg) (rb : SReg) (off : BitVec 15) : RoundTrip.Statement (.bltn ra rb off) := by
  intro w wf e
  replace e := Option.some.inj (show some (pack 0x00000024 [(ra.val, 7), (rb.val, 12), (off.toNat, 17)]) = some w from e)
  simp only [pack] at e
  obtain ⟨hw, f0_7, f7_5, f12_5, f17_15⟩ := word_si (w := w) (x0 := 36) (x1 := ra.val) (x2 := rb.val) (x3 := off.toNat) (by omega) (by decide) ra.isLt rb.isLt off.isLt
  refine ⟨hw, table_of_raw hw ?_ wf⟩
  rw [raw_24 f0_7, decodeBltn]
  rw [reg_of f7_5, reg_of f12_5, imm_of f17_15]
theorem RoundTrip.bgen (ra : SReg) (rb : SReg) (off : BitVec 15) : RoundTrip.Statement (.bgen ra rb off) := by
  intro w wf e
  replace e := Option.some.inj (show some (pack 0x00000025 [(ra.val, 7), (rb.val, 12), (off.toNat, 17)]) = some w from e)
  simp only [pack] at e
  obtain ⟨hw, f0_7, f7_5, f12_5, f17_15⟩ := word_si (w := w) (x0 := 37) (x1 := ra.val) (x2 := rb.val) (x3 := off.toNat) (by omega) (by decide) ra.isLt rb.isLt off.isLt
  refine ⟨hw, table_of_raw hw ?_ wf⟩
  rw [raw_25 f0_7, decodeBgen]
  rw [reg_of f7_5, reg_of f12_5, imm_of f17_15]
theorem RoundTrip.smb (ra : SReg) (rb : SReg) (off : BitVec 15) : RoundTrip.Statement (.smb ra rb off) := by
  intro w wf e
  replace e := Option.some.inj (show some (pack 0x00000026 [(ra.val, 7), (rb.val, 12), (off.toNat, 17)]) = some w from e)
  simp only [pack] at e
  obtain ⟨hw, f0_7, f7_5, f12_5, f17_15⟩ := word_si (w := w) (x0 := 38) (x1 := ra.val) (x2 := rb.val) (x3 := off.toNat) (by omega) (by decide) ra.isLt rb.isLt off.isLt
  refine ⟨hw, table_of_raw hw ?_ wf⟩
  rw [raw_26 f0_7, decodeSmb]
  rw [reg_of f7_5, reg_of f12_5, imm_of f17_15]
theorem RoundTrip.add (rd : SReg) (ra : SReg) (rb : SReg) : RoundTrip.Statement (.add rd ra rb) := by
  intro w wf e
  replace e := Option.some.inj (show some (pack 0x00000030 [(rd.val, 7), (ra.val, 12), (rb.val, 17)]) = some w from e)
  simp only [pack] at e
  obtain ⟨hw, f0_7, f7_5, f12_5, f17_5, f22_10⟩ := word_s3 (w := w) (x0 := 48) (x1 := rd.val) (x2 := ra.val) (x3 := rb.val) (x4 := 0) (by omega) (by decide) rd.isLt ra.isLt rb.isLt (by decide)
  refine ⟨hw, table_of_raw hw ?_ wf⟩
  rw [raw_30 f0_7, decodeScalarAlu]
  rw [f22_10]
  change (reg 32 (fld w 7 5) fun rd => reg 32 (fld w 12 5) fun ra => reg 32 (fld w 17 5) fun rb => .instr (.add rd ra rb)) = _
  rw [reg_of f7_5, reg_of f12_5, reg_of f17_5]
theorem RoundTrip.sub (rd : SReg) (ra : SReg) (rb : SReg) : RoundTrip.Statement (.sub rd ra rb) := by
  intro w wf e
  replace e := Option.some.inj (show some (pack 0x00400030 [(rd.val, 7), (ra.val, 12), (rb.val, 17)]) = some w from e)
  simp only [pack] at e
  obtain ⟨hw, f0_7, f7_5, f12_5, f17_5, f22_10⟩ := word_s3 (w := w) (x0 := 48) (x1 := rd.val) (x2 := ra.val) (x3 := rb.val) (x4 := 1) (by omega) (by decide) rd.isLt ra.isLt rb.isLt (by decide)
  refine ⟨hw, table_of_raw hw ?_ wf⟩
  rw [raw_30 f0_7, decodeScalarAlu]
  rw [f22_10]
  change (reg 32 (fld w 7 5) fun rd => reg 32 (fld w 12 5) fun ra => reg 32 (fld w 17 5) fun rb => .instr (.sub rd ra rb)) = _
  rw [reg_of f7_5, reg_of f12_5, reg_of f17_5]
theorem RoundTrip.mul (rd : SReg) (ra : SReg) (rb : SReg) : RoundTrip.Statement (.mul rd ra rb) := by
  intro w wf e
  replace e := Option.some.inj (show some (pack 0x00800030 [(rd.val, 7), (ra.val, 12), (rb.val, 17)]) = some w from e)
  simp only [pack] at e
  obtain ⟨hw, f0_7, f7_5, f12_5, f17_5, f22_10⟩ := word_s3 (w := w) (x0 := 48) (x1 := rd.val) (x2 := ra.val) (x3 := rb.val) (x4 := 2) (by omega) (by decide) rd.isLt ra.isLt rb.isLt (by decide)
  refine ⟨hw, table_of_raw hw ?_ wf⟩
  rw [raw_30 f0_7, decodeScalarAlu]
  rw [f22_10]
  change (reg 32 (fld w 7 5) fun rd => reg 32 (fld w 12 5) fun ra => reg 32 (fld w 17 5) fun rb => .instr (.mul rd ra rb)) = _
  rw [reg_of f7_5, reg_of f12_5, reg_of f17_5]
theorem RoundTrip.mulh (rd : SReg) (ra : SReg) (rb : SReg) : RoundTrip.Statement (.mulh rd ra rb) := by
  intro w wf e
  replace e := Option.some.inj (show some (pack 0x00C00030 [(rd.val, 7), (ra.val, 12), (rb.val, 17)]) = some w from e)
  simp only [pack] at e
  obtain ⟨hw, f0_7, f7_5, f12_5, f17_5, f22_10⟩ := word_s3 (w := w) (x0 := 48) (x1 := rd.val) (x2 := ra.val) (x3 := rb.val) (x4 := 3) (by omega) (by decide) rd.isLt ra.isLt rb.isLt (by decide)
  refine ⟨hw, table_of_raw hw ?_ wf⟩
  rw [raw_30 f0_7, decodeScalarAlu]
  rw [f22_10]
  change (reg 32 (fld w 7 5) fun rd => reg 32 (fld w 12 5) fun ra => reg 32 (fld w 17 5) fun rb => .instr (.mulh rd ra rb)) = _
  rw [reg_of f7_5, reg_of f12_5, reg_of f17_5]
theorem RoundTrip.div (rd : SReg) (ra : SReg) (rb : SReg) : RoundTrip.Statement (.div rd ra rb) := by
  intro w wf e
  replace e := Option.some.inj (show some (pack 0x01000030 [(rd.val, 7), (ra.val, 12), (rb.val, 17)]) = some w from e)
  simp only [pack] at e
  obtain ⟨hw, f0_7, f7_5, f12_5, f17_5, f22_10⟩ := word_s3 (w := w) (x0 := 48) (x1 := rd.val) (x2 := ra.val) (x3 := rb.val) (x4 := 4) (by omega) (by decide) rd.isLt ra.isLt rb.isLt (by decide)
  refine ⟨hw, table_of_raw hw ?_ wf⟩
  rw [raw_30 f0_7, decodeScalarAlu]
  rw [f22_10]
  change (reg 32 (fld w 7 5) fun rd => reg 32 (fld w 12 5) fun ra => reg 32 (fld w 17 5) fun rb => .instr (.div rd ra rb)) = _
  rw [reg_of f7_5, reg_of f12_5, reg_of f17_5]
theorem RoundTrip.divn (rd : SReg) (ra : SReg) (rb : SReg) : RoundTrip.Statement (.divn rd ra rb) := by
  intro w wf e
  replace e := Option.some.inj (show some (pack 0x01400030 [(rd.val, 7), (ra.val, 12), (rb.val, 17)]) = some w from e)
  simp only [pack] at e
  obtain ⟨hw, f0_7, f7_5, f12_5, f17_5, f22_10⟩ := word_s3 (w := w) (x0 := 48) (x1 := rd.val) (x2 := ra.val) (x3 := rb.val) (x4 := 5) (by omega) (by decide) rd.isLt ra.isLt rb.isLt (by decide)
  refine ⟨hw, table_of_raw hw ?_ wf⟩
  rw [raw_30 f0_7, decodeScalarAlu]
  rw [f22_10]
  change (reg 32 (fld w 7 5) fun rd => reg 32 (fld w 12 5) fun ra => reg 32 (fld w 17 5) fun rb => .instr (.divn rd ra rb)) = _
  rw [reg_of f7_5, reg_of f12_5, reg_of f17_5]
theorem RoundTrip.rem (rd : SReg) (ra : SReg) (rb : SReg) : RoundTrip.Statement (.rem rd ra rb) := by
  intro w wf e
  replace e := Option.some.inj (show some (pack 0x01800030 [(rd.val, 7), (ra.val, 12), (rb.val, 17)]) = some w from e)
  simp only [pack] at e
  obtain ⟨hw, f0_7, f7_5, f12_5, f17_5, f22_10⟩ := word_s3 (w := w) (x0 := 48) (x1 := rd.val) (x2 := ra.val) (x3 := rb.val) (x4 := 6) (by omega) (by decide) rd.isLt ra.isLt rb.isLt (by decide)
  refine ⟨hw, table_of_raw hw ?_ wf⟩
  rw [raw_30 f0_7, decodeScalarAlu]
  rw [f22_10]
  change (reg 32 (fld w 7 5) fun rd => reg 32 (fld w 12 5) fun ra => reg 32 (fld w 17 5) fun rb => .instr (.rem rd ra rb)) = _
  rw [reg_of f7_5, reg_of f12_5, reg_of f17_5]
theorem RoundTrip.remn (rd : SReg) (ra : SReg) (rb : SReg) : RoundTrip.Statement (.remn rd ra rb) := by
  intro w wf e
  replace e := Option.some.inj (show some (pack 0x01C00030 [(rd.val, 7), (ra.val, 12), (rb.val, 17)]) = some w from e)
  simp only [pack] at e
  obtain ⟨hw, f0_7, f7_5, f12_5, f17_5, f22_10⟩ := word_s3 (w := w) (x0 := 48) (x1 := rd.val) (x2 := ra.val) (x3 := rb.val) (x4 := 7) (by omega) (by decide) rd.isLt ra.isLt rb.isLt (by decide)
  refine ⟨hw, table_of_raw hw ?_ wf⟩
  rw [raw_30 f0_7, decodeScalarAlu]
  rw [f22_10]
  change (reg 32 (fld w 7 5) fun rd => reg 32 (fld w 12 5) fun ra => reg 32 (fld w 17 5) fun rb => .instr (.remn rd ra rb)) = _
  rw [reg_of f7_5, reg_of f12_5, reg_of f17_5]
theorem RoundTrip.and (rd : SReg) (ra : SReg) (rb : SReg) : RoundTrip.Statement (.and rd ra rb) := by
  intro w wf e
  replace e := Option.some.inj (show some (pack 0x02000030 [(rd.val, 7), (ra.val, 12), (rb.val, 17)]) = some w from e)
  simp only [pack] at e
  obtain ⟨hw, f0_7, f7_5, f12_5, f17_5, f22_10⟩ := word_s3 (w := w) (x0 := 48) (x1 := rd.val) (x2 := ra.val) (x3 := rb.val) (x4 := 8) (by omega) (by decide) rd.isLt ra.isLt rb.isLt (by decide)
  refine ⟨hw, table_of_raw hw ?_ wf⟩
  rw [raw_30 f0_7, decodeScalarAlu]
  rw [f22_10]
  change (reg 32 (fld w 7 5) fun rd => reg 32 (fld w 12 5) fun ra => reg 32 (fld w 17 5) fun rb => .instr (.and rd ra rb)) = _
  rw [reg_of f7_5, reg_of f12_5, reg_of f17_5]
theorem RoundTrip.or (rd : SReg) (ra : SReg) (rb : SReg) : RoundTrip.Statement (.or rd ra rb) := by
  intro w wf e
  replace e := Option.some.inj (show some (pack 0x02400030 [(rd.val, 7), (ra.val, 12), (rb.val, 17)]) = some w from e)
  simp only [pack] at e
  obtain ⟨hw, f0_7, f7_5, f12_5, f17_5, f22_10⟩ := word_s3 (w := w) (x0 := 48) (x1 := rd.val) (x2 := ra.val) (x3 := rb.val) (x4 := 9) (by omega) (by decide) rd.isLt ra.isLt rb.isLt (by decide)
  refine ⟨hw, table_of_raw hw ?_ wf⟩
  rw [raw_30 f0_7, decodeScalarAlu]
  rw [f22_10]
  change (reg 32 (fld w 7 5) fun rd => reg 32 (fld w 12 5) fun ra => reg 32 (fld w 17 5) fun rb => .instr (.or rd ra rb)) = _
  rw [reg_of f7_5, reg_of f12_5, reg_of f17_5]
theorem RoundTrip.xor (rd : SReg) (ra : SReg) (rb : SReg) : RoundTrip.Statement (.xor rd ra rb) := by
  intro w wf e
  replace e := Option.some.inj (show some (pack 0x02800030 [(rd.val, 7), (ra.val, 12), (rb.val, 17)]) = some w from e)
  simp only [pack] at e
  obtain ⟨hw, f0_7, f7_5, f12_5, f17_5, f22_10⟩ := word_s3 (w := w) (x0 := 48) (x1 := rd.val) (x2 := ra.val) (x3 := rb.val) (x4 := 10) (by omega) (by decide) rd.isLt ra.isLt rb.isLt (by decide)
  refine ⟨hw, table_of_raw hw ?_ wf⟩
  rw [raw_30 f0_7, decodeScalarAlu]
  rw [f22_10]
  change (reg 32 (fld w 7 5) fun rd => reg 32 (fld w 12 5) fun ra => reg 32 (fld w 17 5) fun rb => .instr (.xor rd ra rb)) = _
  rw [reg_of f7_5, reg_of f12_5, reg_of f17_5]
theorem RoundTrip.sll (rd : SReg) (ra : SReg) (rb : SReg) : RoundTrip.Statement (.sll rd ra rb) := by
  intro w wf e
  replace e := Option.some.inj (show some (pack 0x02C00030 [(rd.val, 7), (ra.val, 12), (rb.val, 17)]) = some w from e)
  simp only [pack] at e
  obtain ⟨hw, f0_7, f7_5, f12_5, f17_5, f22_10⟩ := word_s3 (w := w) (x0 := 48) (x1 := rd.val) (x2 := ra.val) (x3 := rb.val) (x4 := 11) (by omega) (by decide) rd.isLt ra.isLt rb.isLt (by decide)
  refine ⟨hw, table_of_raw hw ?_ wf⟩
  rw [raw_30 f0_7, decodeScalarAlu]
  rw [f22_10]
  change (reg 32 (fld w 7 5) fun rd => reg 32 (fld w 12 5) fun ra => reg 32 (fld w 17 5) fun rb => .instr (.sll rd ra rb)) = _
  rw [reg_of f7_5, reg_of f12_5, reg_of f17_5]
theorem RoundTrip.srl (rd : SReg) (ra : SReg) (rb : SReg) : RoundTrip.Statement (.srl rd ra rb) := by
  intro w wf e
  replace e := Option.some.inj (show some (pack 0x03000030 [(rd.val, 7), (ra.val, 12), (rb.val, 17)]) = some w from e)
  simp only [pack] at e
  obtain ⟨hw, f0_7, f7_5, f12_5, f17_5, f22_10⟩ := word_s3 (w := w) (x0 := 48) (x1 := rd.val) (x2 := ra.val) (x3 := rb.val) (x4 := 12) (by omega) (by decide) rd.isLt ra.isLt rb.isLt (by decide)
  refine ⟨hw, table_of_raw hw ?_ wf⟩
  rw [raw_30 f0_7, decodeScalarAlu]
  rw [f22_10]
  change (reg 32 (fld w 7 5) fun rd => reg 32 (fld w 12 5) fun ra => reg 32 (fld w 17 5) fun rb => .instr (.srl rd ra rb)) = _
  rw [reg_of f7_5, reg_of f12_5, reg_of f17_5]
theorem RoundTrip.sra (rd : SReg) (ra : SReg) (rb : SReg) : RoundTrip.Statement (.sra rd ra rb) := by
  intro w wf e
  replace e := Option.some.inj (show some (pack 0x03400030 [(rd.val, 7), (ra.val, 12), (rb.val, 17)]) = some w from e)
  simp only [pack] at e
  obtain ⟨hw, f0_7, f7_5, f12_5, f17_5, f22_10⟩ := word_s3 (w := w) (x0 := 48) (x1 := rd.val) (x2 := ra.val) (x3 := rb.val) (x4 := 13) (by omega) (by decide) rd.isLt ra.isLt rb.isLt (by decide)
  refine ⟨hw, table_of_raw hw ?_ wf⟩
  rw [raw_30 f0_7, decodeScalarAlu]
  rw [f22_10]
  change (reg 32 (fld w 7 5) fun rd => reg 32 (fld w 12 5) fun ra => reg 32 (fld w 17 5) fun rb => .instr (.sra rd ra rb)) = _
  rw [reg_of f7_5, reg_of f12_5, reg_of f17_5]
theorem RoundTrip.slt (rd : SReg) (ra : SReg) (rb : SReg) : RoundTrip.Statement (.slt rd ra rb) := by
  intro w wf e
  replace e := Option.some.inj (show some (pack 0x03800030 [(rd.val, 7), (ra.val, 12), (rb.val, 17)]) = some w from e)
  simp only [pack] at e
  obtain ⟨hw, f0_7, f7_5, f12_5, f17_5, f22_10⟩ := word_s3 (w := w) (x0 := 48) (x1 := rd.val) (x2 := ra.val) (x3 := rb.val) (x4 := 14) (by omega) (by decide) rd.isLt ra.isLt rb.isLt (by decide)
  refine ⟨hw, table_of_raw hw ?_ wf⟩
  rw [raw_30 f0_7, decodeScalarAlu]
  rw [f22_10]
  change (reg 32 (fld w 7 5) fun rd => reg 32 (fld w 12 5) fun ra => reg 32 (fld w 17 5) fun rb => .instr (.slt rd ra rb)) = _
  rw [reg_of f7_5, reg_of f12_5, reg_of f17_5]
theorem RoundTrip.sltn (rd : SReg) (ra : SReg) (rb : SReg) : RoundTrip.Statement (.sltn rd ra rb) := by
  intro w wf e
  replace e := Option.some.inj (show some (pack 0x03C00030 [(rd.val, 7), (ra.val, 12), (rb.val, 17)]) = some w from e)
  simp only [pack] at e
  obtain ⟨hw, f0_7, f7_5, f12_5, f17_5, f22_10⟩ := word_s3 (w := w) (x0 := 48) (x1 := rd.val) (x2 := ra.val) (x3 := rb.val) (x4 := 15) (by omega) (by decide) rd.isLt ra.isLt rb.isLt (by decide)
  refine ⟨hw, table_of_raw hw ?_ wf⟩
  rw [raw_30 f0_7, decodeScalarAlu]
  rw [f22_10]
  change (reg 32 (fld w 7 5) fun rd => reg 32 (fld w 12 5) fun ra => reg 32 (fld w 17 5) fun rb => .instr (.sltn rd ra rb)) = _
  rw [reg_of f7_5, reg_of f12_5, reg_of f17_5]
theorem RoundTrip.min (rd : SReg) (ra : SReg) (rb : SReg) : RoundTrip.Statement (.min rd ra rb) := by
  intro w wf e
  replace e := Option.some.inj (show some (pack 0x04000030 [(rd.val, 7), (ra.val, 12), (rb.val, 17)]) = some w from e)
  simp only [pack] at e
  obtain ⟨hw, f0_7, f7_5, f12_5, f17_5, f22_10⟩ := word_s3 (w := w) (x0 := 48) (x1 := rd.val) (x2 := ra.val) (x3 := rb.val) (x4 := 16) (by omega) (by decide) rd.isLt ra.isLt rb.isLt (by decide)
  refine ⟨hw, table_of_raw hw ?_ wf⟩
  rw [raw_30 f0_7, decodeScalarAlu]
  rw [f22_10]
  change (reg 32 (fld w 7 5) fun rd => reg 32 (fld w 12 5) fun ra => reg 32 (fld w 17 5) fun rb => .instr (.min rd ra rb)) = _
  rw [reg_of f7_5, reg_of f12_5, reg_of f17_5]
theorem RoundTrip.max (rd : SReg) (ra : SReg) (rb : SReg) : RoundTrip.Statement (.max rd ra rb) := by
  intro w wf e
  replace e := Option.some.inj (show some (pack 0x04400030 [(rd.val, 7), (ra.val, 12), (rb.val, 17)]) = some w from e)
  simp only [pack] at e
  obtain ⟨hw, f0_7, f7_5, f12_5, f17_5, f22_10⟩ := word_s3 (w := w) (x0 := 48) (x1 := rd.val) (x2 := ra.val) (x3 := rb.val) (x4 := 17) (by omega) (by decide) rd.isLt ra.isLt rb.isLt (by decide)
  refine ⟨hw, table_of_raw hw ?_ wf⟩
  rw [raw_30 f0_7, decodeScalarAlu]
  rw [f22_10]
  change (reg 32 (fld w 7 5) fun rd => reg 32 (fld w 12 5) fun ra => reg 32 (fld w 17 5) fun rb => .instr (.max rd ra rb)) = _
  rw [reg_of f7_5, reg_of f12_5, reg_of f17_5]
theorem RoundTrip.minN (rd : SReg) (ra : SReg) (rb : SReg) : RoundTrip.Statement (.minN rd ra rb) := by
  intro w wf e
  replace e := Option.some.inj (show some (pack 0x04800030 [(rd.val, 7), (ra.val, 12), (rb.val, 17)]) = some w from e)
  simp only [pack] at e
  obtain ⟨hw, f0_7, f7_5, f12_5, f17_5, f22_10⟩ := word_s3 (w := w) (x0 := 48) (x1 := rd.val) (x2 := ra.val) (x3 := rb.val) (x4 := 18) (by omega) (by decide) rd.isLt ra.isLt rb.isLt (by decide)
  refine ⟨hw, table_of_raw hw ?_ wf⟩
  rw [raw_30 f0_7, decodeScalarAlu]
  rw [f22_10]
  change (reg 32 (fld w 7 5) fun rd => reg 32 (fld w 12 5) fun ra => reg 32 (fld w 17 5) fun rb => .instr (.minN rd ra rb)) = _
  rw [reg_of f7_5, reg_of f12_5, reg_of f17_5]
theorem RoundTrip.maxN (rd : SReg) (ra : SReg) (rb : SReg) : RoundTrip.Statement (.maxN rd ra rb) := by
  intro w wf e
  replace e := Option.some.inj (show some (pack 0x04C00030 [(rd.val, 7), (ra.val, 12), (rb.val, 17)]) = some w from e)
  simp only [pack] at e
  obtain ⟨hw, f0_7, f7_5, f12_5, f17_5, f22_10⟩ := word_s3 (w := w) (x0 := 48) (x1 := rd.val) (x2 := ra.val) (x3 := rb.val) (x4 := 19) (by omega) (by decide) rd.isLt ra.isLt rb.isLt (by decide)
  refine ⟨hw, table_of_raw hw ?_ wf⟩
  rw [raw_30 f0_7, decodeScalarAlu]
  rw [f22_10]
  change (reg 32 (fld w 7 5) fun rd => reg 32 (fld w 12 5) fun ra => reg 32 (fld w 17 5) fun rb => .instr (.maxN rd ra rb)) = _
  rw [reg_of f7_5, reg_of f12_5, reg_of f17_5]
theorem RoundTrip.clz (rd : SReg) (ra : SReg) : RoundTrip.Statement (.clz rd ra) := by
  intro w wf e
  replace e := Option.some.inj (show some (pack 0x05000030 [(rd.val, 7), (ra.val, 12)]) = some w from e)
  simp only [pack] at e
  obtain ⟨hw, f0_7, f7_5, f12_5, f17_5, f22_10⟩ := word_s3 (w := w) (x0 := 48) (x1 := rd.val) (x2 := ra.val) (x3 := 0) (x4 := 20) (by omega) (by decide) rd.isLt ra.isLt (by decide) (by decide)
  refine ⟨hw, table_of_raw hw ?_ wf⟩
  rw [raw_30 f0_7, decodeScalarAlu]
  rw [f22_10]
  change (fixed (fld w 17 5) 0 <| reg 32 (fld w 7 5) fun rd => reg 32 (fld w 12 5) fun ra => .instr (.clz rd ra)) = _
  rw [fixed_of f17_5, reg_of f7_5, reg_of f12_5]
theorem RoundTrip.popc (rd : SReg) (ra : SReg) : RoundTrip.Statement (.popc rd ra) := by
  intro w wf e
  replace e := Option.some.inj (show some (pack 0x05400030 [(rd.val, 7), (ra.val, 12)]) = some w from e)
  simp only [pack] at e
  obtain ⟨hw, f0_7, f7_5, f12_5, f17_5, f22_10⟩ := word_s3 (w := w) (x0 := 48) (x1 := rd.val) (x2 := ra.val) (x3 := 0) (x4 := 21) (by omega) (by decide) rd.isLt ra.isLt (by decide) (by decide)
  refine ⟨hw, table_of_raw hw ?_ wf⟩
  rw [raw_30 f0_7, decodeScalarAlu]
  rw [f22_10]
  change (fixed (fld w 17 5) 0 <| reg 32 (fld w 7 5) fun rd => reg 32 (fld w 12 5) fun ra => .instr (.popc rd ra)) = _
  rw [fixed_of f17_5, reg_of f7_5, reg_of f12_5]
theorem RoundTrip.sel (rd : SReg) (ra : SReg) (rb : SReg) : RoundTrip.Statement (.sel rd ra rb) := by
  intro w wf e
  replace e := Option.some.inj (show some (pack 0x05800030 [(rd.val, 7), (ra.val, 12), (rb.val, 17)]) = some w from e)
  simp only [pack] at e
  obtain ⟨hw, f0_7, f7_5, f12_5, f17_5, f22_10⟩ := word_s3 (w := w) (x0 := 48) (x1 := rd.val) (x2 := ra.val) (x3 := rb.val) (x4 := 22) (by omega) (by decide) rd.isLt ra.isLt rb.isLt (by decide)
  refine ⟨hw, table_of_raw hw ?_ wf⟩
  rw [raw_30 f0_7, decodeScalarAlu]
  rw [f22_10]
  change (reg 32 (fld w 7 5) fun rd => reg 32 (fld w 12 5) fun ra => reg 32 (fld w 17 5) fun rb => .instr (.sel rd ra rb)) = _
  rw [reg_of f7_5, reg_of f12_5, reg_of f17_5]
theorem RoundTrip.lea (rd : SReg) (ra : SReg) (rb : SReg) (n : Fin 4) : RoundTrip.Statement (.lea rd ra rb n) := by
  intro w wf e
  replace e := Option.some.inj (show some (pack 0x06000030 [(rd.val, 7), (ra.val, 12), (rb.val, 17), (n.val, 22)]) = some w from e)
  simp only [pack] at e
  have b_rd := rd.isLt
  have b_ra := ra.isLt
  have b_rb := rb.isLt
  have b_n := n.isLt
  refine ⟨by omega, table_of_raw (by omega) ?_ wf⟩
  rw [raw_30 (by simp only [fld]; omega), decodeScalarAlu]
  have f : fld w 22 10 = 0x18 ∨ fld w 22 10 = 0x19 ∨ fld w 22 10 = 0x1A ∨ fld w 22 10 = 0x1B := by
    simp only [fld]
    omega
  have k : (reg 32 (fld w 7 5) fun rd => reg 32 (fld w 12 5) fun ra => reg 32 (fld w 17 5) fun rb => reg 4 (fld w 22 2) fun n =>
      .instr (.lea rd ra rb n)) = .instr (.lea rd ra rb n) := by
    rw [reg_of (show fld w 7 5 = rd.val by simp only [fld]; omega), reg_of (show fld w 12 5 = ra.val by simp only [fld]; omega),
      reg_of (show fld w 17 5 = rb.val by simp only [fld]; omega), reg_of (show fld w 22 2 = n.val by simp only [fld]; omega)]
  obtain f | f | f | f := f <;> rw [f] <;> exact k
theorem RoundTrip.qpush (q : QNo) (r : Fin 64) : RoundTrip.Statement (.qpush q r) := by
  intro w wf e
  replace e := Option.some.inj (show some (pack 0x00000038 [(q.val, 13), (r.val, 7)]) = some w from e)
  simp only [pack] at e
  obtain ⟨hw, f0_7, f7_6, f13_3, f16_4, f20_12⟩ := word_q (w := w) (x0 := 56) (x1 := r.val) (x2 := q.val) (x3 := 0) (x4 := 0) (by omega) (by decide) r.isLt q.isLt (by decide) (by decide)
  refine ⟨hw, table_of_raw hw ?_ wf⟩
  rw [raw_38 f0_7, decodeQueue]
  rw [f16_4]
  change (fixed (fld w 20 12) 0 <| reg 8 (fld w 13 3) fun q => reg 64 (fld w 7 6) fun r => .instr (.qpush q r)) = _
  rw [fixed_of f20_12, reg_of f13_3, reg_of f7_6]
theorem RoundTrip.qpop (r : Fin 64) (q : QNo) : RoundTrip.Statement (.qpop r q) := by
  intro w wf e
  replace e := Option.some.inj (show some (pack 0x00010038 [(r.val, 7), (q.val, 13)]) = some w from e)
  simp only [pack] at e
  obtain ⟨hw, f0_7, f7_6, f13_3, f16_4, f20_12⟩ := word_q (w := w) (x0 := 56) (x1 := r.val) (x2 := q.val) (x3 := 1) (x4 := 0) (by omega) (by decide) r.isLt q.isLt (by decide) (by decide)
  refine ⟨hw, table_of_raw hw ?_ wf⟩
  rw [raw_38 f0_7, decodeQueue]
  rw [f16_4]
  change (fixed (fld w 20 12) 0 <| reg 64 (fld w 7 6) fun r => reg 8 (fld w 13 3) fun q => .instr (.qpop r q)) = _
  rw [fixed_of f20_12, reg_of f7_6, reg_of f13_3]
theorem RoundTrip.qpeek (r : Fin 64) (q : QNo) : RoundTrip.Statement (.qpeek r q) := by
  intro w wf e
  replace e := Option.some.inj (show some (pack 0x00020038 [(r.val, 7), (q.val, 13)]) = some w from e)
  simp only [pack] at e
  obtain ⟨hw, f0_7, f7_6, f13_3, f16_4, f20_12⟩ := word_q (w := w) (x0 := 56) (x1 := r.val) (x2 := q.val) (x3 := 2) (x4 := 0) (by omega) (by decide) r.isLt q.isLt (by decide) (by decide)
  refine ⟨hw, table_of_raw hw ?_ wf⟩
  rw [raw_38 f0_7, decodeQueue]
  rw [f16_4]
  change (fixed (fld w 20 12) 0 <| reg 64 (fld w 7 6) fun r => reg 8 (fld w 13 3) fun q => .instr (.qpeek r q)) = _
  rw [fixed_of f20_12, reg_of f7_6, reg_of f13_3]
theorem RoundTrip.qlen (rd : SReg) (q : QNo) : RoundTrip.Statement (.qlen rd q) := by
  intro w wf e
  replace e := Option.some.inj (show some (pack 0x00030038 [(rd.val, 7), (q.val, 13)]) = some w from e)
  simp only [pack] at e
  obtain ⟨hw, f0_7, f7_6, f13_3, f16_4, f20_12⟩ := word_q (w := w) (x0 := 56) (x1 := rd.val) (x2 := q.val) (x3 := 3) (x4 := 0) (by omega) (by decide) (Nat.lt_of_lt_of_le (rd.isLt) (by decide)) q.isLt (by decide) (by decide)
  refine ⟨hw, table_of_raw hw ?_ wf⟩
  rw [raw_38 f0_7, decodeQueue]
  rw [f16_4]
  change (fixed (fld w 20 12) 0 <| reg 32 (fld w 7 6) fun rd => reg 8 (fld w 13 3) fun q => .instr (.qlen rd q)) = _
  rw [fixed_of f20_12, reg_of f7_6, reg_of f13_3]
theorem RoundTrip.ctake (rd : SReg) : RoundTrip.Statement (.ctake rd) := by
  intro w wf e
  replace e := Option.some.inj (show some (pack 0x0004C038 [(rd.val, 7)]) = some w from e)
  simp only [pack] at e
  obtain ⟨hw, f0_7, f7_6, f13_3, f16_4, f20_12⟩ := word_q (w := w) (x0 := 56) (x1 := rd.val) (x2 := 6) (x3 := 4) (x4 := 0) (by omega) (by decide) (Nat.lt_of_lt_of_le (rd.isLt) (by decide)) (by decide) (by decide) (by decide)
  refine ⟨hw, table_of_raw hw ?_ wf⟩
  rw [raw_38 f0_7, decodeQueue]
  rw [f16_4]
  change (fixed (fld w 13 3) 6 <| fixed (fld w 20 12) 0 <| reg 32 (fld w 7 6) fun rd => .instr (.ctake rd)) = _
  rw [fixed_of f13_3, fixed_of f20_12, reg_of f7_6]
theorem RoundTrip.vadd (vd : VRegNo) (va : VRegNo) (vb : VRegNo) : RoundTrip.Statement (.vadd vd va vb) := by
  intro w wf e
  replace e := Option.some.inj (show some (pack 0x00000040 [(vd.val, 7), (va.val, 13), (vb.val, 19)]) = some w from e)
  simp only [pack] at e
  obtain ⟨hw, f0_7, f7_6, f13_6, f19_6, f25_7⟩ := word_v3 (w := w) (x0 := 64) (x1 := vd.val) (x2 := va.val) (x3 := vb.val) (x4 := 0) (by omega) (by decide) vd.isLt va.isLt vb.isLt (by decide)
  refine ⟨hw, table_of_raw hw ?_ wf⟩
  rw [raw_40 f0_7, decodeVector]
  rw [f25_7]
  change (reg 64 (fld w 7 6) fun vd => reg 64 (fld w 13 6) fun va => reg 64 (fld w 19 6) fun vb => .instr (.vadd vd va vb)) = _
  rw [reg_of f7_6, reg_of f13_6, reg_of f19_6]
theorem RoundTrip.vsub (vd : VRegNo) (va : VRegNo) (vb : VRegNo) : RoundTrip.Statement (.vsub vd va vb) := by
  intro w wf e
  replace e := Option.some.inj (show some (pack 0x02000040 [(vd.val, 7), (va.val, 13), (vb.val, 19)]) = some w from e)
  simp only [pack] at e
  obtain ⟨hw, f0_7, f7_6, f13_6, f19_6, f25_7⟩ := word_v3 (w := w) (x0 := 64) (x1 := vd.val) (x2 := va.val) (x3 := vb.val) (x4 := 1) (by omega) (by decide) vd.isLt va.isLt vb.isLt (by decide)
  refine ⟨hw, table_of_raw hw ?_ wf⟩
  rw [raw_40 f0_7, decodeVector]
  rw [f25_7]
  change (reg 64 (fld w 7 6) fun vd => reg 64 (fld w 13 6) fun va => reg 64 (fld w 19 6) fun vb => .instr (.vsub vd va vb)) = _
  rw [reg_of f7_6, reg_of f13_6, reg_of f19_6]
theorem RoundTrip.vmul (vd : VRegNo) (va : VRegNo) (vb : VRegNo) : RoundTrip.Statement (.vmul vd va vb) := by
  intro w wf e
  replace e := Option.some.inj (show some (pack 0x04000040 [(vd.val, 7), (va.val, 13), (vb.val, 19)]) = some w from e)
  simp only [pack] at e
  obtain ⟨hw, f0_7, f7_6, f13_6, f19_6, f25_7⟩ := word_v3 (w := w) (x0 := 64) (x1 := vd.val) (x2 := va.val) (x3 := vb.val) (x4 := 2) (by omega) (by decide) vd.isLt va.isLt vb.isLt (by decide)
  refine ⟨hw, table_of_raw hw ?_ wf⟩
  rw [raw_40 f0_7, decodeVector]
  rw [f25_7]
  change (reg 64 (fld w 7 6) fun vd => reg 64 (fld w 13 6) fun va => reg 64 (fld w 19 6) fun vb => .instr (.vmul vd va vb)) = _
  rw [reg_of f7_6, reg_of f13_6, reg_of f19_6]
theorem RoundTrip.vmadd (vd : VRegNo) (va : VRegNo) (vb : VRegNo) : RoundTrip.Statement (.vmadd vd va vb) := by
  intro w wf e
  replace e := Option.some.inj (show some (pack 0x06000040 [(vd.val, 7), (va.val, 13), (vb.val, 19)]) = some w from e)
  simp only [pack] at e
  obtain ⟨hw, f0_7, f7_6, f13_6, f19_6, f25_7⟩ := word_v3 (w := w) (x0 := 64) (x1 := vd.val) (x2 := va.val) (x3 := vb.val) (x4 := 3) (by omega) (by decide) vd.isLt va.isLt vb.isLt (by decide)
  refine ⟨hw, table_of_raw hw ?_ wf⟩
  rw [raw_40 f0_7, decodeVector]
  rw [f25_7]
  change (reg 64 (fld w 7 6) fun vd => reg 64 (fld w 13 6) fun va => reg 64 (fld w 19 6) fun vb => .instr (.vmadd vd va vb)) = _
  rw [reg_of f7_6, reg_of f13_6, reg_of f19_6]
theorem RoundTrip.vnmadd (vd : VRegNo) (va : VRegNo) (vb : VRegNo) : RoundTrip.Statement (.vnmadd vd va vb) := by
  intro w wf e
  replace e := Option.some.inj (show some (pack 0x08000040 [(vd.val, 7), (va.val, 13), (vb.val, 19)]) = some w from e)
  simp only [pack] at e
  obtain ⟨hw, f0_7, f7_6, f13_6, f19_6, f25_7⟩ := word_v3 (w := w) (x0 := 64) (x1 := vd.val) (x2 := va.val) (x3 := vb.val) (x4 := 4) (by omega) (by decide) vd.isLt va.isLt vb.isLt (by decide)
  refine ⟨hw, table_of_raw hw ?_ wf⟩
  rw [raw_40 f0_7, decodeVector]
  rw [f25_7]
  change (reg 64 (fld w 7 6) fun vd => reg 64 (fld w 13 6) fun va => reg 64 (fld w 19 6) fun vb => .instr (.vnmadd vd va vb)) = _
  rw [reg_of f7_6, reg_of f13_6, reg_of f19_6]
theorem RoundTrip.vdiv (vd : VRegNo) (va : VRegNo) (vb : VRegNo) : RoundTrip.Statement (.vdiv vd va vb) := by
  intro w wf e
  replace e := Option.some.inj (show some (pack 0x0A000040 [(vd.val, 7), (va.val, 13), (vb.val, 19)]) = some w from e)
  simp only [pack] at e
  obtain ⟨hw, f0_7, f7_6, f13_6, f19_6, f25_7⟩ := word_v3 (w := w) (x0 := 64) (x1 := vd.val) (x2 := va.val) (x3 := vb.val) (x4 := 5) (by omega) (by decide) vd.isLt va.isLt vb.isLt (by decide)
  refine ⟨hw, table_of_raw hw ?_ wf⟩
  rw [raw_40 f0_7, decodeVector]
  rw [f25_7]
  change (reg 64 (fld w 7 6) fun vd => reg 64 (fld w 13 6) fun va => reg 64 (fld w 19 6) fun vb => .instr (.vdiv vd va vb)) = _
  rw [reg_of f7_6, reg_of f13_6, reg_of f19_6]
theorem RoundTrip.vsqrt (vd : VRegNo) (va : VRegNo) : RoundTrip.Statement (.vsqrt vd va) := by
  intro w wf e
  replace e := Option.some.inj (show some (pack 0x0C000040 [(vd.val, 7), (va.val, 13)]) = some w from e)
  simp only [pack] at e
  obtain ⟨hw, f0_7, f7_6, f13_6, f19_6, f25_7⟩ := word_v3 (w := w) (x0 := 64) (x1 := vd.val) (x2 := va.val) (x3 := 0) (x4 := 6) (by omega) (by decide) vd.isLt va.isLt (by decide) (by decide)
  refine ⟨hw, table_of_raw hw ?_ wf⟩
  rw [raw_40 f0_7, decodeVector]
  rw [f25_7]
  change (fixed (fld w 19 6) 0 <| reg 64 (fld w 7 6) fun vd => reg 64 (fld w 13 6) fun va => .instr (.vsqrt vd va)) = _
  rw [fixed_of f19_6, reg_of f7_6, reg_of f13_6]
theorem RoundTrip.vrsqrt (vd : VRegNo) (va : VRegNo) : RoundTrip.Statement (.vrsqrt vd va) := by
  intro w wf e
  replace e := Option.some.inj (show some (pack 0x0E000040 [(vd.val, 7), (va.val, 13)]) = some w from e)
  simp only [pack] at e
  obtain ⟨hw, f0_7, f7_6, f13_6, f19_6, f25_7⟩ := word_v3 (w := w) (x0 := 64) (x1 := vd.val) (x2 := va.val) (x3 := 0) (x4 := 7) (by omega) (by decide) vd.isLt va.isLt (by decide) (by decide)
  refine ⟨hw, table_of_raw hw ?_ wf⟩
  rw [raw_40 f0_7, decodeVector]
  rw [f25_7]
  change (fixed (fld w 19 6) 0 <| reg 64 (fld w 7 6) fun vd => reg 64 (fld w 13 6) fun va => .instr (.vrsqrt vd va)) = _
  rw [fixed_of f19_6, reg_of f7_6, reg_of f13_6]
theorem RoundTrip.vexp2 (vd : VRegNo) (va : VRegNo) : RoundTrip.Statement (.vexp2 vd va) := by
  intro w wf e
  replace e := Option.some.inj (show some (pack 0x10000040 [(vd.val, 7), (va.val, 13)]) = some w from e)
  simp only [pack] at e
  obtain ⟨hw, f0_7, f7_6, f13_6, f19_6, f25_7⟩ := word_v3 (w := w) (x0 := 64) (x1 := vd.val) (x2 := va.val) (x3 := 0) (x4 := 8) (by omega) (by decide) vd.isLt va.isLt (by decide) (by decide)
  refine ⟨hw, table_of_raw hw ?_ wf⟩
  rw [raw_40 f0_7, decodeVector]
  rw [f25_7]
  change (fixed (fld w 19 6) 0 <| reg 64 (fld w 7 6) fun vd => reg 64 (fld w 13 6) fun va => .instr (.vexp2 vd va)) = _
  rw [fixed_of f19_6, reg_of f7_6, reg_of f13_6]
theorem RoundTrip.vlog2 (vd : VRegNo) (va : VRegNo) : RoundTrip.Statement (.vlog2 vd va) := by
  intro w wf e
  replace e := Option.some.inj (show some (pack 0x12000040 [(vd.val, 7), (va.val, 13)]) = some w from e)
  simp only [pack] at e
  obtain ⟨hw, f0_7, f7_6, f13_6, f19_6, f25_7⟩ := word_v3 (w := w) (x0 := 64) (x1 := vd.val) (x2 := va.val) (x3 := 0) (x4 := 9) (by omega) (by decide) vd.isLt va.isLt (by decide) (by decide)
  refine ⟨hw, table_of_raw hw ?_ wf⟩
  rw [raw_40 f0_7, decodeVector]
  rw [f25_7]
  change (fixed (fld w 19 6) 0 <| reg 64 (fld w 7 6) fun vd => reg 64 (fld w 13 6) fun va => .instr (.vlog2 vd va)) = _
  rw [fixed_of f19_6, reg_of f7_6, reg_of f13_6]
theorem RoundTrip.vmax (vd : VRegNo) (va : VRegNo) (vb : VRegNo) : RoundTrip.Statement (.vmax vd va vb) := by
  intro w wf e
  replace e := Option.some.inj (show some (pack 0x14000040 [(vd.val, 7), (va.val, 13), (vb.val, 19)]) = some w from e)
  simp only [pack] at e
  obtain ⟨hw, f0_7, f7_6, f13_6, f19_6, f25_7⟩ := word_v3 (w := w) (x0 := 64) (x1 := vd.val) (x2 := va.val) (x3 := vb.val) (x4 := 10) (by omega) (by decide) vd.isLt va.isLt vb.isLt (by decide)
  refine ⟨hw, table_of_raw hw ?_ wf⟩
  rw [raw_40 f0_7, decodeVector]
  rw [f25_7]
  change (reg 64 (fld w 7 6) fun vd => reg 64 (fld w 13 6) fun va => reg 64 (fld w 19 6) fun vb => .instr (.vmax vd va vb)) = _
  rw [reg_of f7_6, reg_of f13_6, reg_of f19_6]
theorem RoundTrip.vmin (vd : VRegNo) (va : VRegNo) (vb : VRegNo) : RoundTrip.Statement (.vmin vd va vb) := by
  intro w wf e
  replace e := Option.some.inj (show some (pack 0x16000040 [(vd.val, 7), (va.val, 13), (vb.val, 19)]) = some w from e)
  simp only [pack] at e
  obtain ⟨hw, f0_7, f7_6, f13_6, f19_6, f25_7⟩ := word_v3 (w := w) (x0 := 64) (x1 := vd.val) (x2 := va.val) (x3 := vb.val) (x4 := 11) (by omega) (by decide) vd.isLt va.isLt vb.isLt (by decide)
  refine ⟨hw, table_of_raw hw ?_ wf⟩
  rw [raw_40 f0_7, decodeVector]
  rw [f25_7]
  change (reg 64 (fld w 7 6) fun vd => reg 64 (fld w 13 6) fun va => reg 64 (fld w 19 6) fun vb => .instr (.vmin vd va vb)) = _
  rw [reg_of f7_6, reg_of f13_6, reg_of f19_6]
theorem RoundTrip.vabs (vd : VRegNo) (va : VRegNo) : RoundTrip.Statement (.vabs vd va) := by
  intro w wf e
  replace e := Option.some.inj (show some (pack 0x18000040 [(vd.val, 7), (va.val, 13)]) = some w from e)
  simp only [pack] at e
  obtain ⟨hw, f0_7, f7_6, f13_6, f19_6, f25_7⟩ := word_v3 (w := w) (x0 := 64) (x1 := vd.val) (x2 := va.val) (x3 := 0) (x4 := 12) (by omega) (by decide) vd.isLt va.isLt (by decide) (by decide)
  refine ⟨hw, table_of_raw hw ?_ wf⟩
  rw [raw_40 f0_7, decodeVector]
  rw [f25_7]
  change (fixed (fld w 19 6) 0 <| reg 64 (fld w 7 6) fun vd => reg 64 (fld w 13 6) fun va => .instr (.vabs vd va)) = _
  rw [fixed_of f19_6, reg_of f7_6, reg_of f13_6]
theorem RoundTrip.vneg (vd : VRegNo) (va : VRegNo) : RoundTrip.Statement (.vneg vd va) := by
  intro w wf e
  replace e := Option.some.inj (show some (pack 0x1A000040 [(vd.val, 7), (va.val, 13)]) = some w from e)
  simp only [pack] at e
  obtain ⟨hw, f0_7, f7_6, f13_6, f19_6, f25_7⟩ := word_v3 (w := w) (x0 := 64) (x1 := vd.val) (x2 := va.val) (x3 := 0) (x4 := 13) (by omega) (by decide) vd.isLt va.isLt (by decide) (by decide)
  refine ⟨hw, table_of_raw hw ?_ wf⟩
  rw [raw_40 f0_7, decodeVector]
  rw [f25_7]
  change (fixed (fld w 19 6) 0 <| reg 64 (fld w 7 6) fun vd => reg 64 (fld w 13 6) fun va => .instr (.vneg vd va)) = _
  rw [fixed_of f19_6, reg_of f7_6, reg_of f13_6]
theorem RoundTrip.vand (vd : VRegNo) (va : VRegNo) (vb : VRegNo) : RoundTrip.Statement (.vand vd va vb) := by
  intro w wf e
  replace e := Option.some.inj (show some (pack 0x20000040 [(vd.val, 7), (va.val, 13), (vb.val, 19)]) = some w from e)
  simp only [pack] at e
  obtain ⟨hw, f0_7, f7_6, f13_6, f19_6, f25_7⟩ := word_v3 (w := w) (x0 := 64) (x1 := vd.val) (x2 := va.val) (x3 := vb.val) (x4 := 16) (by omega) (by decide) vd.isLt va.isLt vb.isLt (by decide)
  refine ⟨hw, table_of_raw hw ?_ wf⟩
  rw [raw_40 f0_7, decodeVector]
  rw [f25_7]
  change (reg 64 (fld w 7 6) fun vd => reg 64 (fld w 13 6) fun va => reg 64 (fld w 19 6) fun vb => .instr (.vand vd va vb)) = _
  rw [reg_of f7_6, reg_of f13_6, reg_of f19_6]
theorem RoundTrip.vor (vd : VRegNo) (va : VRegNo) (vb : VRegNo) : RoundTrip.Statement (.vor vd va vb) := by
  intro w wf e
  replace e := Option.some.inj (show some (pack 0x22000040 [(vd.val, 7), (va.val, 13), (vb.val, 19)]) = some w from e)
  simp only [pack] at e
  obtain ⟨hw, f0_7, f7_6, f13_6, f19_6, f25_7⟩ := word_v3 (w := w) (x0 := 64) (x1 := vd.val) (x2 := va.val) (x3 := vb.val) (x4 := 17) (by omega) (by decide) vd.isLt va.isLt vb.isLt (by decide)
  refine ⟨hw, table_of_raw hw ?_ wf⟩
  rw [raw_40 f0_7, decodeVector]
  rw [f25_7]
  change (reg 64 (fld w 7 6) fun vd => reg 64 (fld w 13 6) fun va => reg 64 (fld w 19 6) fun vb => .instr (.vor vd va vb)) = _
  rw [reg_of f7_6, reg_of f13_6, reg_of f19_6]
theorem RoundTrip.vxor (vd : VRegNo) (va : VRegNo) (vb : VRegNo) : RoundTrip.Statement (.vxor vd va vb) := by
  intro w wf e
  replace e := Option.some.inj (show some (pack 0x24000040 [(vd.val, 7), (va.val, 13), (vb.val, 19)]) = some w from e)
  simp only [pack] at e
  obtain ⟨hw, f0_7, f7_6, f13_6, f19_6, f25_7⟩ := word_v3 (w := w) (x0 := 64) (x1 := vd.val) (x2 := va.val) (x3 := vb.val) (x4 := 18) (by omega) (by decide) vd.isLt va.isLt vb.isLt (by decide)
  refine ⟨hw, table_of_raw hw ?_ wf⟩
  rw [raw_40 f0_7, decodeVector]
  rw [f25_7]
  change (reg 64 (fld w 7 6) fun vd => reg 64 (fld w 13 6) fun va => reg 64 (fld w 19 6) fun vb => .instr (.vxor vd va vb)) = _
  rw [reg_of f7_6, reg_of f13_6, reg_of f19_6]
theorem RoundTrip.vnot (vd : VRegNo) (va : VRegNo) : RoundTrip.Statement (.vnot vd va) := by
  intro w wf e
  replace e := Option.some.inj (show some (pack 0x26000040 [(vd.val, 7), (va.val, 13)]) = some w from e)
  simp only [pack] at e
  obtain ⟨hw, f0_7, f7_6, f13_6, f19_6, f25_7⟩ := word_v3 (w := w) (x0 := 64) (x1 := vd.val) (x2 := va.val) (x3 := 0) (x4 := 19) (by omega) (by decide) vd.isLt va.isLt (by decide) (by decide)
  refine ⟨hw, table_of_raw hw ?_ wf⟩
  rw [raw_40 f0_7, decodeVector]
  rw [f25_7]
  change (fixed (fld w 19 6) 0 <| reg 64 (fld w 7 6) fun vd => reg 64 (fld w 13 6) fun va => .instr (.vnot vd va)) = _
  rw [fixed_of f19_6, reg_of f7_6, reg_of f13_6]
theorem RoundTrip.vshl (vd : VRegNo) (va : VRegNo) (vb : VRegNo) : RoundTrip.Statement (.vshl vd va vb) := by
  intro w wf e
  replace e := Option.some.inj (show some (pack 0x28000040 [(vd.val, 7), (va.val, 13), (vb.val, 19)]) = some w from e)
  simp only [pack] at e
  obtain ⟨hw, f0_7, f7_6, f13_6, f19_6, f25_7⟩ := word_v3 (w := w) (x0 := 64) (x1 := vd.val) (x2 := va.val) (x3 := vb.val) (x4 := 20) (by omega) (by decide) vd.isLt va.isLt vb.isLt (by decide)
  refine ⟨hw, table_of_raw hw ?_ wf⟩
  rw [raw_40 f0_7, decodeVector]
  rw [f25_7]
  change (reg 64 (fld w 7 6) fun vd => reg 64 (fld w 13 6) fun va => reg 64 (fld w 19 6) fun vb => .instr (.vshl vd va vb)) = _
  rw [reg_of f7_6, reg_of f13_6, reg_of f19_6]
theorem RoundTrip.vshr (vd : VRegNo) (va : VRegNo) (vb : VRegNo) : RoundTrip.Statement (.vshr vd va vb) := by
  intro w wf e
  replace e := Option.some.inj (show some (pack 0x2A000040 [(vd.val, 7), (va.val, 13), (vb.val, 19)]) = some w from e)
  simp only [pack] at e
  obtain ⟨hw, f0_7, f7_6, f13_6, f19_6, f25_7⟩ := word_v3 (w := w) (x0 := 64) (x1 := vd.val) (x2 := va.val) (x3 := vb.val) (x4 := 21) (by omega) (by decide) vd.isLt va.isLt vb.isLt (by decide)
  refine ⟨hw, table_of_raw hw ?_ wf⟩
  rw [raw_40 f0_7, decodeVector]
  rw [f25_7]
  change (reg 64 (fld w 7 6) fun vd => reg 64 (fld w 13 6) fun va => reg 64 (fld w 19 6) fun vb => .instr (.vshr vd va vb)) = _
  rw [reg_of f7_6, reg_of f13_6, reg_of f19_6]
theorem RoundTrip.vsra (vd : VRegNo) (va : VRegNo) (vb : VRegNo) : RoundTrip.Statement (.vsra vd va vb) := by
  intro w wf e
  replace e := Option.some.inj (show some (pack 0x2C000040 [(vd.val, 7), (va.val, 13), (vb.val, 19)]) = some w from e)
  simp only [pack] at e
  obtain ⟨hw, f0_7, f7_6, f13_6, f19_6, f25_7⟩ := word_v3 (w := w) (x0 := 64) (x1 := vd.val) (x2 := va.val) (x3 := vb.val) (x4 := 22) (by omega) (by decide) vd.isLt va.isLt vb.isLt (by decide)
  refine ⟨hw, table_of_raw hw ?_ wf⟩
  rw [raw_40 f0_7, decodeVector]
  rw [f25_7]
  change (reg 64 (fld w 7 6) fun vd => reg 64 (fld w 13 6) fun va => reg 64 (fld w 19 6) fun vb => .instr (.vsra vd va vb)) = _
  rw [reg_of f7_6, reg_of f13_6, reg_of f19_6]
theorem RoundTrip.vcmp (cc : Cc) (pd : PRegNo) (va : VRegNo) (vb : VRegNo) : RoundTrip.Statement (.vcmp cc pd va vb) := by
  intro w wf e
  replace e := Option.some.inj (show some (pack 0x30000040 [(cc.code, 25), (pd.val, 7), (va.val, 13), (vb.val, 19)]) = some w from e)
  simp only [pack] at e
  have b_cc := Cc.code_lt cc
  have b_pd := pd.isLt
  have b_va := va.isLt
  have b_vb := vb.isLt
  refine ⟨by omega, table_of_raw (by omega) ?_ wf⟩
  rw [raw_40 (by simp only [fld]; omega), decodeVector]
  have f : fld w 25 7 = 0x18 ∨ fld w 25 7 = 0x19 ∨ fld w 25 7 = 0x1A ∨ fld w 25 7 = 0x1B ∨ fld w 25 7 = 0x1C ∨ fld w 25 7 = 0x1D ∨ fld w 25 7 = 0x1E := by
    simp only [fld]
    omega
  have k : (code Cc.ofCode? (fld w 25 3) fun cc => reg 64 (fld w 7 6) fun pd => reg 64 (fld w 13 6) fun va => reg 64 (fld w 19 6) fun vb =>
      .instr (.vcmp cc pd va vb)) = .instr (.vcmp cc pd va vb) := by
    rw [code_of (show fld w 25 3 = cc.code by simp only [fld]; omega) (cc_code cc), reg_of (show fld w 7 6 = pd.val by simp only [fld]; omega),
      reg_of (show fld w 13 6 = va.val by simp only [fld]; omega), reg_of (show fld w 19 6 = vb.val by simp only [fld]; omega)]
  obtain f | f | f | f | f | f | f := f <;> rw [f] <;> exact k
theorem RoundTrip.vsel (vd : VRegNo) (va : VRegNo) (vb : VRegNo) : RoundTrip.Statement (.vsel vd va vb) := by
  intro w wf e
  replace e := Option.some.inj (show some (pack 0x3E000040 [(vd.val, 7), (va.val, 13), (vb.val, 19)]) = some w from e)
  simp only [pack] at e
  obtain ⟨hw, f0_7, f7_6, f13_6, f19_6, f25_7⟩ := word_v3 (w := w) (x0 := 64) (x1 := vd.val) (x2 := va.val) (x3 := vb.val) (x4 := 31) (by omega) (by decide) vd.isLt va.isLt vb.isLt (by decide)
  refine ⟨hw, table_of_raw hw ?_ wf⟩
  rw [raw_40 f0_7, decodeVector]
  rw [f25_7]
  change (reg 64 (fld w 7 6) fun vd => reg 64 (fld w 13 6) fun va => reg 64 (fld w 19 6) fun vb => .instr (.vsel vd va vb)) = _
  rw [reg_of f7_6, reg_of f13_6, reg_of f19_6]
theorem RoundTrip.vmv (vd : VRegNo) (va : VRegNo) : RoundTrip.Statement (.vmv vd va) := by
  intro w wf e
  replace e := Option.some.inj (show some (pack 0x40000040 [(vd.val, 7), (va.val, 13)]) = some w from e)
  simp only [pack] at e
  obtain ⟨hw, f0_7, f7_6, f13_6, f19_6, f25_7⟩ := word_v3 (w := w) (x0 := 64) (x1 := vd.val) (x2 := va.val) (x3 := 0) (x4 := 32) (by omega) (by decide) vd.isLt va.isLt (by decide) (by decide)
  refine ⟨hw, table_of_raw hw ?_ wf⟩
  rw [raw_40 f0_7, decodeVector]
  rw [f25_7]
  change (fixed (fld w 19 6) 0 <| reg 64 (fld w 7 6) fun vd => reg 64 (fld w 13 6) fun va => .instr (.vmv vd va)) = _
  rw [fixed_of f19_6, reg_of f7_6, reg_of f13_6]
theorem RoundTrip.vsplat (vd : VRegNo) (ra : SReg) : RoundTrip.Statement (.vsplat vd ra) := by
  intro w wf e
  replace e := Option.some.inj (show some (pack 0x42000040 [(vd.val, 7), (ra.val, 13)]) = some w from e)
  simp only [pack] at e
  obtain ⟨hw, f0_7, f7_6, f13_6, f19_6, f25_7⟩ := word_v3 (w := w) (x0 := 64) (x1 := vd.val) (x2 := ra.val) (x3 := 0) (x4 := 33) (by omega) (by decide) vd.isLt (Nat.lt_of_lt_of_le (ra.isLt) (by decide)) (by decide) (by decide)
  refine ⟨hw, table_of_raw hw ?_ wf⟩
  rw [raw_40 f0_7, decodeVector]
  rw [f25_7]
  change (fixed (fld w 19 6) 0 <| reg 64 (fld w 7 6) fun vd => reg 32 (fld w 13 6) fun ra => .instr (.vsplat vd ra)) = _
  rw [fixed_of f19_6, reg_of f7_6, reg_of f13_6]
theorem RoundTrip.vid (vd : VRegNo) : RoundTrip.Statement (.vid vd) := by
  intro w wf e
  replace e := Option.some.inj (show some (pack 0x44000040 [(vd.val, 7)]) = some w from e)
  simp only [pack] at e
  obtain ⟨hw, f0_7, f7_6, f13_12, f25_7⟩ := word_vi (w := w) (x0 := 64) (x1 := vd.val) (x2 := 0) (x3 := 34) (by omega) (by decide) vd.isLt (by decide) (by decide)
  refine ⟨hw, table_of_raw hw ?_ wf⟩
  rw [raw_40 f0_7, decodeVector]
  rw [f25_7]
  change (fixed (fld w 13 12) 0 <| reg 64 (fld w 7 6) fun vd => .instr (.vid vd)) = _
  rw [fixed_of f13_12, reg_of f7_6]
theorem RoundTrip.vext (rd : SReg) (va : VRegNo) (rb : SReg) : RoundTrip.Statement (.vext rd va rb) := by
  intro w wf e
  replace e := Option.some.inj (show some (pack 0x46000040 [(rd.val, 7), (va.val, 13), (rb.val, 19)]) = some w from e)
  simp only [pack] at e
  obtain ⟨hw, f0_7, f7_6, f13_6, f19_6, f25_7⟩ := word_v3 (w := w) (x0 := 64) (x1 := rd.val) (x2 := va.val) (x3 := rb.val) (x4 := 35) (by omega) (by decide) (Nat.lt_of_lt_of_le (rd.isLt) (by decide)) va.isLt (Nat.lt_of_lt_of_le (rb.isLt) (by decide)) (by decide)
  refine ⟨hw, table_of_raw hw ?_ wf⟩
  rw [raw_40 f0_7, decodeVector]
  rw [f25_7]
  change (reg 32 (fld w 7 6) fun rd => reg 64 (fld w 13 6) fun va => reg 32 (fld w 19 6) fun rb => .instr (.vext rd va rb)) = _
  rw [reg_of f7_6, reg_of f13_6, reg_of f19_6]
theorem RoundTrip.vins (vd : VRegNo) (ra : SReg) (rb : SReg) : RoundTrip.Statement (.vins vd ra rb) := by
  intro w wf e
  replace e := Option.some.inj (show some (pack 0x48000040 [(vd.val, 7), (ra.val, 13), (rb.val, 19)]) = some w from e)
  simp only [pack] at e
  obtain ⟨hw, f0_7, f7_6, f13_6, f19_6, f25_7⟩ := word_v3 (w := w) (x0 := 64) (x1 := vd.val) (x2 := ra.val) (x3 := rb.val) (x4 := 36) (by omega) (by decide) vd.isLt (Nat.lt_of_lt_of_le (ra.isLt) (by decide)) (Nat.lt_of_lt_of_le (rb.isLt) (by decide)) (by decide)
  refine ⟨hw, table_of_raw hw ?_ wf⟩
  rw [raw_40 f0_7, decodeVector]
  rw [f25_7]
  change (reg 64 (fld w 7 6) fun vd => reg 32 (fld w 13 6) fun ra => reg 32 (fld w 19 6) fun rb => .instr (.vins vd ra rb)) = _
  rw [reg_of f7_6, reg_of f13_6, reg_of f19_6]
theorem RoundTrip.vcvt (vd : VRegNo) (va : VRegNo) (fmt : Fmt) : RoundTrip.Statement (.vcvt vd va fmt) := by
  intro w wf e
  replace e := Option.some.inj (show some (pack 0x4A000040 [(vd.val, 7), (va.val, 13), (fmt.code, 19)]) = some w from e)
  simp only [pack] at e
  obtain ⟨hw, f0_7, f7_6, f13_6, f19_4, f23_2, f25_7⟩ := word_vc (w := w) (x0 := 64) (x1 := vd.val) (x2 := va.val) (x3 := fmt.code) (x4 := 0) (x5 := 37) (by omega) (by decide) vd.isLt va.isLt (Nat.lt_of_lt_of_le (Fmt.code_lt fmt) (by decide)) (by decide) (by decide)
  refine ⟨hw, table_of_raw hw ?_ wf⟩
  rw [raw_40 f0_7, decodeVector]
  rw [f25_7]
  change (fixed (fld w 23 2) 0 <| reg 64 (fld w 7 6) fun vd => reg 64 (fld w 13 6) fun va => code Fmt.ofCode? (fld w 19 4) fun fmt => .instr (.vcvt vd va fmt)) = _
  rw [fixed_of f23_2, reg_of f7_6, reg_of f13_6, code_of f19_4 (fmt_code fmt)]
theorem RoundTrip.vredsum (vd : VRegNo) (va : VRegNo) : RoundTrip.Statement (.vredsum vd va) := by
  intro w wf e
  replace e := Option.some.inj (show some (pack 0x50000040 [(vd.val, 7), (va.val, 13)]) = some w from e)
  simp only [pack] at e
  obtain ⟨hw, f0_7, f7_6, f13_6, f19_6, f25_7⟩ := word_v3 (w := w) (x0 := 64) (x1 := vd.val) (x2 := va.val) (x3 := 0) (x4 := 40) (by omega) (by decide) vd.isLt va.isLt (by decide) (by decide)
  refine ⟨hw, table_of_raw hw ?_ wf⟩
  rw [raw_40 f0_7, decodeVector]
  rw [f25_7]
  change (fixed (fld w 19 6) 0 <| reg 64 (fld w 7 6) fun vd => reg 64 (fld w 13 6) fun va => .instr (.vredsum vd va)) = _
  rw [fixed_of f19_6, reg_of f7_6, reg_of f13_6]
theorem RoundTrip.vredmax (vd : VRegNo) (va : VRegNo) : RoundTrip.Statement (.vredmax vd va) := by
  intro w wf e
  replace e := Option.some.inj (show some (pack 0x52000040 [(vd.val, 7), (va.val, 13)]) = some w from e)
  simp only [pack] at e
  obtain ⟨hw, f0_7, f7_6, f13_6, f19_6, f25_7⟩ := word_v3 (w := w) (x0 := 64) (x1 := vd.val) (x2 := va.val) (x3 := 0) (x4 := 41) (by omega) (by decide) vd.isLt va.isLt (by decide) (by decide)
  refine ⟨hw, table_of_raw hw ?_ wf⟩
  rw [raw_40 f0_7, decodeVector]
  rw [f25_7]
  change (fixed (fld w 19 6) 0 <| reg 64 (fld w 7 6) fun vd => reg 64 (fld w 13 6) fun va => .instr (.vredmax vd va)) = _
  rw [fixed_of f19_6, reg_of f7_6, reg_of f13_6]
theorem RoundTrip.vredmin (vd : VRegNo) (va : VRegNo) : RoundTrip.Statement (.vredmin vd va) := by
  intro w wf e
  replace e := Option.some.inj (show some (pack 0x54000040 [(vd.val, 7), (va.val, 13)]) = some w from e)
  simp only [pack] at e
  obtain ⟨hw, f0_7, f7_6, f13_6, f19_6, f25_7⟩ := word_v3 (w := w) (x0 := 64) (x1 := vd.val) (x2 := va.val) (x3 := 0) (x4 := 42) (by omega) (by decide) vd.isLt va.isLt (by decide) (by decide)
  refine ⟨hw, table_of_raw hw ?_ wf⟩
  rw [raw_40 f0_7, decodeVector]
  rw [f25_7]
  change (fixed (fld w 19 6) 0 <| reg 64 (fld w 7 6) fun vd => reg 64 (fld w 13 6) fun va => .instr (.vredmin vd va)) = _
  rw [fixed_of f19_6, reg_of f7_6, reg_of f13_6]
theorem RoundTrip.vargmax (rd : SReg) (va : VRegNo) : RoundTrip.Statement (.vargmax rd va) := by
  intro w wf e
  replace e := Option.some.inj (show some (pack 0x56000040 [(rd.val, 7), (va.val, 13)]) = some w from e)
  simp only [pack] at e
  obtain ⟨hw, f0_7, f7_6, f13_6, f19_6, f25_7⟩ := word_v3 (w := w) (x0 := 64) (x1 := rd.val) (x2 := va.val) (x3 := 0) (x4 := 43) (by omega) (by decide) (Nat.lt_of_lt_of_le (rd.isLt) (by decide)) va.isLt (by decide) (by decide)
  refine ⟨hw, table_of_raw hw ?_ wf⟩
  rw [raw_40 f0_7, decodeVector]
  rw [f25_7]
  change (fixed (fld w 19 6) 0 <| reg 32 (fld w 7 6) fun rd => reg 64 (fld w 13 6) fun va => .instr (.vargmax rd va)) = _
  rw [fixed_of f19_6, reg_of f7_6, reg_of f13_6]
theorem RoundTrip.vslideup (vd : VRegNo) (va : VRegNo) (rb : SReg) : RoundTrip.Statement (.vslideup vd va rb) := by
  intro w wf e
  replace e := Option.some.inj (show some (pack 0x60000040 [(vd.val, 7), (va.val, 13), (rb.val, 19)]) = some w from e)
  simp only [pack] at e
  obtain ⟨hw, f0_7, f7_6, f13_6, f19_6, f25_7⟩ := word_v3 (w := w) (x0 := 64) (x1 := vd.val) (x2 := va.val) (x3 := rb.val) (x4 := 48) (by omega) (by decide) vd.isLt va.isLt (Nat.lt_of_lt_of_le (rb.isLt) (by decide)) (by decide)
  refine ⟨hw, table_of_raw hw ?_ wf⟩
  rw [raw_40 f0_7, decodeVector]
  rw [f25_7]
  change (reg 64 (fld w 7 6) fun vd => reg 64 (fld w 13 6) fun va => reg 32 (fld w 19 6) fun rb => .instr (.vslideup vd va rb)) = _
  rw [reg_of f7_6, reg_of f13_6, reg_of f19_6]
theorem RoundTrip.vslidedn (vd : VRegNo) (va : VRegNo) (rb : SReg) : RoundTrip.Statement (.vslidedn vd va rb) := by
  intro w wf e
  replace e := Option.some.inj (show some (pack 0x62000040 [(vd.val, 7), (va.val, 13), (rb.val, 19)]) = some w from e)
  simp only [pack] at e
  obtain ⟨hw, f0_7, f7_6, f13_6, f19_6, f25_7⟩ := word_v3 (w := w) (x0 := 64) (x1 := vd.val) (x2 := va.val) (x3 := rb.val) (x4 := 49) (by omega) (by decide) vd.isLt va.isLt (Nat.lt_of_lt_of_le (rb.isLt) (by decide)) (by decide)
  refine ⟨hw, table_of_raw hw ?_ wf⟩
  rw [raw_40 f0_7, decodeVector]
  rw [f25_7]
  change (reg 64 (fld w 7 6) fun vd => reg 64 (fld w 13 6) fun va => reg 32 (fld w 19 6) fun rb => .instr (.vslidedn vd va rb)) = _
  rw [reg_of f7_6, reg_of f13_6, reg_of f19_6]
theorem RoundTrip.vperm (vd : VRegNo) (va : VRegNo) (vb : VRegNo) : RoundTrip.Statement (.vperm vd va vb) := by
  intro w wf e
  replace e := Option.some.inj (show some (pack 0x64000040 [(vd.val, 7), (va.val, 13), (vb.val, 19)]) = some w from e)
  simp only [pack] at e
  obtain ⟨hw, f0_7, f7_6, f13_6, f19_6, f25_7⟩ := word_v3 (w := w) (x0 := 64) (x1 := vd.val) (x2 := va.val) (x3 := vb.val) (x4 := 50) (by omega) (by decide) vd.isLt va.isLt vb.isLt (by decide)
  refine ⟨hw, table_of_raw hw ?_ wf⟩
  rw [raw_40 f0_7, decodeVector]
  rw [f25_7]
  change (reg 64 (fld w 7 6) fun vd => reg 64 (fld w 13 6) fun va => reg 64 (fld w 19 6) fun vb => .instr (.vperm vd va vb)) = _
  rw [reg_of f7_6, reg_of f13_6, reg_of f19_6]
theorem RoundTrip.vcompress (vd : VRegNo) (va : VRegNo) (pb : PRegNo) : RoundTrip.Statement (.vcompress vd va pb) := by
  intro w wf e
  replace e := Option.some.inj (show some (pack 0x66000040 [(vd.val, 7), (va.val, 13), (pb.val, 19)]) = some w from e)
  simp only [pack] at e
  obtain ⟨hw, f0_7, f7_6, f13_6, f19_6, f25_7⟩ := word_v3 (w := w) (x0 := 64) (x1 := vd.val) (x2 := va.val) (x3 := pb.val) (x4 := 51) (by omega) (by decide) vd.isLt va.isLt pb.isLt (by decide)
  refine ⟨hw, table_of_raw hw ?_ wf⟩
  rw [raw_40 f0_7, decodeVector]
  rw [f25_7]
  change (reg 64 (fld w 7 6) fun vd => reg 64 (fld w 13 6) fun va => reg 64 (fld w 19 6) fun pb => .instr (.vcompress vd va pb)) = _
  rw [reg_of f7_6, reg_of f13_6, reg_of f19_6]
theorem RoundTrip.vexpand (vd : VRegNo) (va : VRegNo) (pb : PRegNo) : RoundTrip.Statement (.vexpand vd va pb) := by
  intro w wf e
  replace e := Option.some.inj (show some (pack 0x68000040 [(vd.val, 7), (va.val, 13), (pb.val, 19)]) = some w from e)
  simp only [pack] at e
  obtain ⟨hw, f0_7, f7_6, f13_6, f19_6, f25_7⟩ := word_v3 (w := w) (x0 := 64) (x1 := vd.val) (x2 := va.val) (x3 := pb.val) (x4 := 52) (by omega) (by decide) vd.isLt va.isLt pb.isLt (by decide)
  refine ⟨hw, table_of_raw hw ?_ wf⟩
  rw [raw_40 f0_7, decodeVector]
  rw [f25_7]
  change (reg 64 (fld w 7 6) fun vd => reg 64 (fld w 13 6) fun va => reg 64 (fld w 19 6) fun pb => .instr (.vexpand vd va pb)) = _
  rw [reg_of f7_6, reg_of f13_6, reg_of f19_6]
theorem RoundTrip.vconf (pd : PRegNo) (va : VRegNo) : RoundTrip.Statement (.vconf pd va) := by
  intro w wf e
  replace e := Option.some.inj (show some (pack 0x6A000040 [(pd.val, 7), (va.val, 13)]) = some w from e)
  simp only [pack] at e
  obtain ⟨hw, f0_7, f7_6, f13_6, f19_6, f25_7⟩ := word_v3 (w := w) (x0 := 64) (x1 := pd.val) (x2 := va.val) (x3 := 0) (x4 := 53) (by omega) (by decide) pd.isLt va.isLt (by decide) (by decide)
  refine ⟨hw, table_of_raw hw ?_ wf⟩
  rw [raw_40 f0_7, decodeVector]
  rw [f25_7]
  change (fixed (fld w 19 6) 0 <| reg 64 (fld w 7 6) fun pd => reg 64 (fld w 13 6) fun va => .instr (.vconf pd va)) = _
  rw [fixed_of f19_6, reg_of f7_6, reg_of f13_6]
theorem RoundTrip.smerge (vd : VRegNo) (va : VRegNo) (vb : VRegNo) : RoundTrip.Statement (.smerge vd va vb) := by
  intro w wf e
  replace e := Option.some.inj (show some (pack 0x70000040 [(vd.val, 7), (va.val, 13), (vb.val, 19)]) = some w from e)
  simp only [pack] at e
  obtain ⟨hw, f0_7, f7_6, f13_6, f19_6, f25_7⟩ := word_v3 (w := w) (x0 := 64) (x1 := vd.val) (x2 := va.val) (x3 := vb.val) (x4 := 56) (by omega) (by decide) vd.isLt va.isLt vb.isLt (by decide)
  refine ⟨hw, table_of_raw hw ?_ wf⟩
  rw [raw_40 f0_7, decodeVector]
  rw [f25_7]
  change (reg 64 (fld w 7 6) fun vd => reg 64 (fld w 13 6) fun va => reg 64 (fld w 19 6) fun vb => .instr (.smerge vd va vb)) = _
  rw [reg_of f7_6, reg_of f13_6, reg_of f19_6]
theorem RoundTrip.sapply (vd : VRegNo) (va : VRegNo) (sp : SpNo) : RoundTrip.Statement (.sapply vd va sp) := by
  intro w wf e
  replace e := Option.some.inj (show some (pack 0x72000040 [(vd.val, 7), (va.val, 13), (sp.val, 19)]) = some w from e)
  simp only [pack] at e
  obtain ⟨hw, f0_7, f7_6, f13_6, f19_6, f25_7⟩ := word_v3 (w := w) (x0 := 64) (x1 := vd.val) (x2 := va.val) (x3 := sp.val) (x4 := 57) (by omega) (by decide) vd.isLt va.isLt (Nat.lt_of_lt_of_le (sp.isLt) (by decide)) (by decide)
  refine ⟨hw, table_of_raw hw ?_ wf⟩
  rw [raw_40 f0_7, decodeVector]
  rw [f25_7]
  change (reg 64 (fld w 7 6) fun vd => reg 64 (fld w 13 6) fun va => reg 4 (fld w 19 6) fun sp => .instr (.sapply vd va sp)) = _
  rw [reg_of f7_6, reg_of f13_6, reg_of f19_6]
theorem RoundTrip.vaddImm (vd : VRegNo) (va : VRegNo) (imm : BitVec 8) : RoundTrip.Statement (.vaddImm vd va imm) := by
  intro w wf e
  replace e := Option.some.inj (show some (pack 0x00000041 [(vd.val, 7), (va.val, 13), (imm.toNat, 19)]) = some w from e)
  simp only [pack] at e
  obtain ⟨hw, f0_7, f7_6, f13_6, f19_8, f27_5⟩ := word_v2i (w := w) (x0 := 65) (x1 := vd.val) (x2 := va.val) (x3 := imm.toNat) (x4 := 0) (by omega) (by decide) vd.isLt va.isLt imm.isLt (by decide)
  refine ⟨hw, table_of_raw hw ?_ wf⟩
  rw [raw_41 f0_7, decodeVectorImm]
  rw [f27_5]
  change (reg 64 (fld w 7 6) fun vd => reg 64 (fld w 13 6) fun va => .instr (.vaddImm vd va (BitVec.ofNat 8 (fld w 19 8)))) = _
  rw [reg_of f7_6, reg_of f13_6, imm_of f19_8]
theorem RoundTrip.vsubImm (vd : VRegNo) (va : VRegNo) (imm : BitVec 8) : RoundTrip.Statement (.vsubImm vd va imm) := by
  intro w wf e
  replace e := Option.some.inj (show some (pack 0x08000041 [(vd.val, 7), (va.val, 13), (imm.toNat, 19)]) = some w from e)
  simp only [pack] at e
  obtain ⟨hw, f0_7, f7_6, f13_6, f19_8, f27_5⟩ := word_v2i (w := w) (x0 := 65) (x1 := vd.val) (x2 := va.val) (x3 := imm.toNat) (x4 := 1) (by omega) (by decide) vd.isLt va.isLt imm.isLt (by decide)
  refine ⟨hw, table_of_raw hw ?_ wf⟩
  rw [raw_41 f0_7, decodeVectorImm]
  rw [f27_5]
  change (reg 64 (fld w 7 6) fun vd => reg 64 (fld w 13 6) fun va => .instr (.vsubImm vd va (BitVec.ofNat 8 (fld w 19 8)))) = _
  rw [reg_of f7_6, reg_of f13_6, imm_of f19_8]
theorem RoundTrip.vmulImm (vd : VRegNo) (va : VRegNo) (imm : BitVec 8) : RoundTrip.Statement (.vmulImm vd va imm) := by
  intro w wf e
  replace e := Option.some.inj (show some (pack 0x10000041 [(vd.val, 7), (va.val, 13), (imm.toNat, 19)]) = some w from e)
  simp only [pack] at e
  obtain ⟨hw, f0_7, f7_6, f13_6, f19_8, f27_5⟩ := word_v2i (w := w) (x0 := 65) (x1 := vd.val) (x2 := va.val) (x3 := imm.toNat) (x4 := 2) (by omega) (by decide) vd.isLt va.isLt imm.isLt (by decide)
  refine ⟨hw, table_of_raw hw ?_ wf⟩
  rw [raw_41 f0_7, decodeVectorImm]
  rw [f27_5]
  change (reg 64 (fld w 7 6) fun vd => reg 64 (fld w 13 6) fun va => .instr (.vmulImm vd va (BitVec.ofNat 8 (fld w 19 8)))) = _
  rw [reg_of f7_6, reg_of f13_6, imm_of f19_8]
theorem RoundTrip.vmaxImm (vd : VRegNo) (va : VRegNo) (imm : BitVec 8) : RoundTrip.Statement (.vmaxImm vd va imm) := by
  intro w wf e
  replace e := Option.some.inj (show some (pack 0x18000041 [(vd.val, 7), (va.val, 13), (imm.toNat, 19)]) = some w from e)
  simp only [pack] at e
  obtain ⟨hw, f0_7, f7_6, f13_6, f19_8, f27_5⟩ := word_v2i (w := w) (x0 := 65) (x1 := vd.val) (x2 := va.val) (x3 := imm.toNat) (x4 := 3) (by omega) (by decide) vd.isLt va.isLt imm.isLt (by decide)
  refine ⟨hw, table_of_raw hw ?_ wf⟩
  rw [raw_41 f0_7, decodeVectorImm]
  rw [f27_5]
  change (reg 64 (fld w 7 6) fun vd => reg 64 (fld w 13 6) fun va => .instr (.vmaxImm vd va (BitVec.ofNat 8 (fld w 19 8)))) = _
  rw [reg_of f7_6, reg_of f13_6, imm_of f19_8]
theorem RoundTrip.vminImm (vd : VRegNo) (va : VRegNo) (imm : BitVec 8) : RoundTrip.Statement (.vminImm vd va imm) := by
  intro w wf e
  replace e := Option.some.inj (show some (pack 0x20000041 [(vd.val, 7), (va.val, 13), (imm.toNat, 19)]) = some w from e)
  simp only [pack] at e
  obtain ⟨hw, f0_7, f7_6, f13_6, f19_8, f27_5⟩ := word_v2i (w := w) (x0 := 65) (x1 := vd.val) (x2 := va.val) (x3 := imm.toNat) (x4 := 4) (by omega) (by decide) vd.isLt va.isLt imm.isLt (by decide)
  refine ⟨hw, table_of_raw hw ?_ wf⟩
  rw [raw_41 f0_7, decodeVectorImm]
  rw [f27_5]
  change (reg 64 (fld w 7 6) fun vd => reg 64 (fld w 13 6) fun va => .instr (.vminImm vd va (BitVec.ofNat 8 (fld w 19 8)))) = _
  rw [reg_of f7_6, reg_of f13_6, imm_of f19_8]
theorem RoundTrip.vandImm (vd : VRegNo) (va : VRegNo) (imm : BitVec 8) : RoundTrip.Statement (.vandImm vd va imm) := by
  intro w wf e
  replace e := Option.some.inj (show some (pack 0x28000041 [(vd.val, 7), (va.val, 13), (imm.toNat, 19)]) = some w from e)
  simp only [pack] at e
  obtain ⟨hw, f0_7, f7_6, f13_6, f19_8, f27_5⟩ := word_v2i (w := w) (x0 := 65) (x1 := vd.val) (x2 := va.val) (x3 := imm.toNat) (x4 := 5) (by omega) (by decide) vd.isLt va.isLt imm.isLt (by decide)
  refine ⟨hw, table_of_raw hw ?_ wf⟩
  rw [raw_41 f0_7, decodeVectorImm]
  rw [f27_5]
  change (reg 64 (fld w 7 6) fun vd => reg 64 (fld w 13 6) fun va => .instr (.vandImm vd va (BitVec.ofNat 8 (fld w 19 8)))) = _
  rw [reg_of f7_6, reg_of f13_6, imm_of f19_8]
theorem RoundTrip.vorImm (vd : VRegNo) (va : VRegNo) (imm : BitVec 8) : RoundTrip.Statement (.vorImm vd va imm) := by
  intro w wf e
  replace e := Option.some.inj (show some (pack 0x30000041 [(vd.val, 7), (va.val, 13), (imm.toNat, 19)]) = some w from e)
  simp only [pack] at e
  obtain ⟨hw, f0_7, f7_6, f13_6, f19_8, f27_5⟩ := word_v2i (w := w) (x0 := 65) (x1 := vd.val) (x2 := va.val) (x3 := imm.toNat) (x4 := 6) (by omega) (by decide) vd.isLt va.isLt imm.isLt (by decide)
  refine ⟨hw, table_of_raw hw ?_ wf⟩
  rw [raw_41 f0_7, decodeVectorImm]
  rw [f27_5]
  change (reg 64 (fld w 7 6) fun vd => reg 64 (fld w 13 6) fun va => .instr (.vorImm vd va (BitVec.ofNat 8 (fld w 19 8)))) = _
  rw [reg_of f7_6, reg_of f13_6, imm_of f19_8]
theorem RoundTrip.vxorImm (vd : VRegNo) (va : VRegNo) (imm : BitVec 8) : RoundTrip.Statement (.vxorImm vd va imm) := by
  intro w wf e
  replace e := Option.some.inj (show some (pack 0x38000041 [(vd.val, 7), (va.val, 13), (imm.toNat, 19)]) = some w from e)
  simp only [pack] at e
  obtain ⟨hw, f0_7, f7_6, f13_6, f19_8, f27_5⟩ := word_v2i (w := w) (x0 := 65) (x1 := vd.val) (x2 := va.val) (x3 := imm.toNat) (x4 := 7) (by omega) (by decide) vd.isLt va.isLt imm.isLt (by decide)
  refine ⟨hw, table_of_raw hw ?_ wf⟩
  rw [raw_41 f0_7, decodeVectorImm]
  rw [f27_5]
  change (reg 64 (fld w 7 6) fun vd => reg 64 (fld w 13 6) fun va => .instr (.vxorImm vd va (BitVec.ofNat 8 (fld w 19 8)))) = _
  rw [reg_of f7_6, reg_of f13_6, imm_of f19_8]
theorem RoundTrip.vshlImm (vd : VRegNo) (va : VRegNo) (n : BitVec 8) : RoundTrip.Statement (.vshlImm vd va n) := by
  intro w wf e
  replace e := Option.some.inj (show some (pack 0x40000041 [(vd.val, 7), (va.val, 13), (n.toNat, 19)]) = some w from e)
  simp only [pack] at e
  obtain ⟨hw, f0_7, f7_6, f13_6, f19_8, f27_5⟩ := word_v2i (w := w) (x0 := 65) (x1 := vd.val) (x2 := va.val) (x3 := n.toNat) (x4 := 8) (by omega) (by decide) vd.isLt va.isLt n.isLt (by decide)
  refine ⟨hw, table_of_raw hw ?_ wf⟩
  rw [raw_41 f0_7, decodeVectorImm]
  rw [f27_5]
  change (reg 64 (fld w 7 6) fun vd => reg 64 (fld w 13 6) fun va => .instr (.vshlImm vd va (BitVec.ofNat 8 (fld w 19 8)))) = _
  rw [reg_of f7_6, reg_of f13_6, imm_of f19_8]
theorem RoundTrip.vshrImm (vd : VRegNo) (va : VRegNo) (n : BitVec 8) : RoundTrip.Statement (.vshrImm vd va n) := by
  intro w wf e
  replace e := Option.some.inj (show some (pack 0x48000041 [(vd.val, 7), (va.val, 13), (n.toNat, 19)]) = some w from e)
  simp only [pack] at e
  obtain ⟨hw, f0_7, f7_6, f13_6, f19_8, f27_5⟩ := word_v2i (w := w) (x0 := 65) (x1 := vd.val) (x2 := va.val) (x3 := n.toNat) (x4 := 9) (by omega) (by decide) vd.isLt va.isLt n.isLt (by decide)
  refine ⟨hw, table_of_raw hw ?_ wf⟩
  rw [raw_41 f0_7, decodeVectorImm]
  rw [f27_5]
  change (reg 64 (fld w 7 6) fun vd => reg 64 (fld w 13 6) fun va => .instr (.vshrImm vd va (BitVec.ofNat 8 (fld w 19 8)))) = _
  rw [reg_of f7_6, reg_of f13_6, imm_of f19_8]
theorem RoundTrip.vsraImm (vd : VRegNo) (va : VRegNo) (n : BitVec 8) : RoundTrip.Statement (.vsraImm vd va n) := by
  intro w wf e
  replace e := Option.some.inj (show some (pack 0x50000041 [(vd.val, 7), (va.val, 13), (n.toNat, 19)]) = some w from e)
  simp only [pack] at e
  obtain ⟨hw, f0_7, f7_6, f13_6, f19_8, f27_5⟩ := word_v2i (w := w) (x0 := 65) (x1 := vd.val) (x2 := va.val) (x3 := n.toNat) (x4 := 10) (by omega) (by decide) vd.isLt va.isLt n.isLt (by decide)
  refine ⟨hw, table_of_raw hw ?_ wf⟩
  rw [raw_41 f0_7, decodeVectorImm]
  rw [f27_5]
  change (reg 64 (fld w 7 6) fun vd => reg 64 (fld w 13 6) fun va => .instr (.vsraImm vd va (BitVec.ofNat 8 (fld w 19 8)))) = _
  rw [reg_of f7_6, reg_of f13_6, imm_of f19_8]
theorem RoundTrip.vslideupImm (vd : VRegNo) (va : VRegNo) (n : BitVec 8) : RoundTrip.Statement (.vslideupImm vd va n) := by
  intro w wf e
  replace e := Option.some.inj (show some (pack 0x58000041 [(vd.val, 7), (va.val, 13), (n.toNat, 19)]) = some w from e)
  simp only [pack] at e
  obtain ⟨hw, f0_7, f7_6, f13_6, f19_8, f27_5⟩ := word_v2i (w := w) (x0 := 65) (x1 := vd.val) (x2 := va.val) (x3 := n.toNat) (x4 := 11) (by omega) (by decide) vd.isLt va.isLt n.isLt (by decide)
  refine ⟨hw, table_of_raw hw ?_ wf⟩
  rw [raw_41 f0_7, decodeVectorImm]
  rw [f27_5]
  change (reg 64 (fld w 7 6) fun vd => reg 64 (fld w 13 6) fun va => .instr (.vslideupImm vd va (BitVec.ofNat 8 (fld w 19 8)))) = _
  rw [reg_of f7_6, reg_of f13_6, imm_of f19_8]
theorem RoundTrip.vslidednImm (vd : VRegNo) (va : VRegNo) (n : BitVec 8) : RoundTrip.Statement (.vslidednImm vd va n) := by
  intro w wf e
  replace e := Option.some.inj (show some (pack 0x60000041 [(vd.val, 7), (va.val, 13), (n.toNat, 19)]) = some w from e)
  simp only [pack] at e
  obtain ⟨hw, f0_7, f7_6, f13_6, f19_8, f27_5⟩ := word_v2i (w := w) (x0 := 65) (x1 := vd.val) (x2 := va.val) (x3 := n.toNat) (x4 := 12) (by omega) (by decide) vd.isLt va.isLt n.isLt (by decide)
  refine ⟨hw, table_of_raw hw ?_ wf⟩
  rw [raw_41 f0_7, decodeVectorImm]
  rw [f27_5]
  change (reg 64 (fld w 7 6) fun vd => reg 64 (fld w 13 6) fun va => .instr (.vslidednImm vd va (BitVec.ofNat 8 (fld w 19 8)))) = _
  rw [reg_of f7_6, reg_of f13_6, imm_of f19_8]
theorem RoundTrip.vsplatImm (vd : VRegNo) (imm : BitVec 8) : RoundTrip.Statement (.vsplatImm vd imm) := by
  intro w wf e
  replace e := Option.some.inj (show some (pack 0x68000041 [(vd.val, 7), (imm.toNat, 19)]) = some w from e)
  simp only [pack] at e
  obtain ⟨hw, f0_7, f7_6, f13_6, f19_8, f27_5⟩ := word_v2i (w := w) (x0 := 65) (x1 := vd.val) (x2 := 0) (x3 := imm.toNat) (x4 := 13) (by omega) (by decide) vd.isLt (by decide) imm.isLt (by decide)
  refine ⟨hw, table_of_raw hw ?_ wf⟩
  rw [raw_41 f0_7, decodeVectorImm]
  rw [f27_5]
  change (fixed (fld w 13 6) 0 <| reg 64 (fld w 7 6) fun vd => .instr (.vsplatImm vd (BitVec.ofNat 8 (fld w 19 8)))) = _
  rw [fixed_of f13_6, reg_of f7_6, imm_of f19_8]
theorem RoundTrip.vtag (vd : VRegNo) (fmt : Fmt) : RoundTrip.Statement (.vtag vd fmt) := by
  intro w wf e
  replace e := Option.some.inj (show some (pack 0x70000041 [(vd.val, 7), (fmt.code, 19)]) = some w from e)
  simp only [pack] at e
  obtain ⟨hw, f0_7, f7_6, f13_6, f19_4, f23_4, f27_5⟩ := word_vt (w := w) (x0 := 65) (x1 := vd.val) (x2 := 0) (x3 := fmt.code) (x4 := 0) (x5 := 14) (by omega) (by decide) vd.isLt (by decide) (Nat.lt_of_lt_of_le (Fmt.code_lt fmt) (by decide)) (by decide) (by decide)
  refine ⟨hw, table_of_raw hw ?_ wf⟩
  rw [raw_41 f0_7, decodeVectorImm]
  rw [f27_5]
  change (fixed (fld w 13 6) 0 <| fixed (fld w 23 4) 0 <| reg 64 (fld w 7 6) fun vd => code Fmt.ofCode? (fld w 19 4) fun fmt => .instr (.vtag vd fmt)) = _
  rw [fixed_of f13_6, fixed_of f23_4, reg_of f7_6, code_of f19_4 (fmt_code fmt)]
theorem RoundTrip.vcmpImm (cc : Cc) (pd : PRegNo) (va : VRegNo) (imm : BitVec 8) : RoundTrip.Statement (.vcmpImm cc pd va imm) := by
  intro w wf e
  replace e := Option.some.inj (show some (pack 0x80000041 [(cc.code, 27), (pd.val, 7), (va.val, 13), (imm.toNat, 19)]) = some w from e)
  simp only [pack] at e
  have b_cc := Cc.code_lt cc
  have b_pd := pd.isLt
  have b_va := va.isLt
  have b_imm := imm.isLt
  refine ⟨by omega, table_of_raw (by omega) ?_ wf⟩
  rw [raw_41 (by simp only [fld]; omega), decodeVectorImm]
  have f : fld w 27 5 = 0x10 ∨ fld w 27 5 = 0x11 ∨ fld w 27 5 = 0x12 ∨ fld w 27 5 = 0x13 ∨ fld w 27 5 = 0x14 ∨ fld w 27 5 = 0x15 ∨ fld w 27 5 = 0x16 := by
    simp only [fld]
    omega
  have k : (code Cc.ofCode? (fld w 27 3) fun cc => reg 64 (fld w 7 6) fun pd => reg 64 (fld w 13 6) fun va =>
      .instr (.vcmpImm cc pd va (BitVec.ofNat 8 (fld w 19 8)))) = .instr (.vcmpImm cc pd va imm) := by
    rw [code_of (show fld w 27 3 = cc.code by simp only [fld]; omega) (cc_code cc), reg_of (show fld w 7 6 = pd.val by simp only [fld]; omega),
      reg_of (show fld w 13 6 = va.val by simp only [fld]; omega), imm_of (show fld w 19 8 = imm.toNat by simp only [fld]; omega)]
  obtain f | f | f | f | f | f | f := f <;> rw [f] <;> exact k
theorem RoundTrip.pand (pd : PRegNo) (pa : PRegNo) (pb : PRegNo) : RoundTrip.Statement (.pand pd pa pb) := by
  intro w wf e
  replace e := Option.some.inj (show some (pack 0x00000042 [(pd.val, 7), (pa.val, 13), (pb.val, 19)]) = some w from e)
  simp only [pack] at e
  obtain ⟨hw, f0_7, f7_6, f13_6, f19_6, f25_7⟩ := word_v3 (w := w) (x0 := 66) (x1 := pd.val) (x2 := pa.val) (x3 := pb.val) (x4 := 0) (by omega) (by decide) pd.isLt pa.isLt pb.isLt (by decide)
  refine ⟨hw, table_of_raw hw ?_ wf⟩
  rw [raw_42 f0_7, decodePredScale]
  rw [f25_7]
  change (reg 64 (fld w 7 6) fun pd => reg 64 (fld w 13 6) fun pa => reg 64 (fld w 19 6) fun pb => .instr (.pand pd pa pb)) = _
  rw [reg_of f7_6, reg_of f13_6, reg_of f19_6]
theorem RoundTrip.por (pd : PRegNo) (pa : PRegNo) (pb : PRegNo) : RoundTrip.Statement (.por pd pa pb) := by
  intro w wf e
  replace e := Option.some.inj (show some (pack 0x02000042 [(pd.val, 7), (pa.val, 13), (pb.val, 19)]) = some w from e)
  simp only [pack] at e
  obtain ⟨hw, f0_7, f7_6, f13_6, f19_6, f25_7⟩ := word_v3 (w := w) (x0 := 66) (x1 := pd.val) (x2 := pa.val) (x3 := pb.val) (x4 := 1) (by omega) (by decide) pd.isLt pa.isLt pb.isLt (by decide)
  refine ⟨hw, table_of_raw hw ?_ wf⟩
  rw [raw_42 f0_7, decodePredScale]
  rw [f25_7]
  change (reg 64 (fld w 7 6) fun pd => reg 64 (fld w 13 6) fun pa => reg 64 (fld w 19 6) fun pb => .instr (.por pd pa pb)) = _
  rw [reg_of f7_6, reg_of f13_6, reg_of f19_6]
theorem RoundTrip.pxor (pd : PRegNo) (pa : PRegNo) (pb : PRegNo) : RoundTrip.Statement (.pxor pd pa pb) := by
  intro w wf e
  replace e := Option.some.inj (show some (pack 0x04000042 [(pd.val, 7), (pa.val, 13), (pb.val, 19)]) = some w from e)
  simp only [pack] at e
  obtain ⟨hw, f0_7, f7_6, f13_6, f19_6, f25_7⟩ := word_v3 (w := w) (x0 := 66) (x1 := pd.val) (x2 := pa.val) (x3 := pb.val) (x4 := 2) (by omega) (by decide) pd.isLt pa.isLt pb.isLt (by decide)
  refine ⟨hw, table_of_raw hw ?_ wf⟩
  rw [raw_42 f0_7, decodePredScale]
  rw [f25_7]
  change (reg 64 (fld w 7 6) fun pd => reg 64 (fld w 13 6) fun pa => reg 64 (fld w 19 6) fun pb => .instr (.pxor pd pa pb)) = _
  rw [reg_of f7_6, reg_of f13_6, reg_of f19_6]
theorem RoundTrip.pnot (pd : PRegNo) (pa : PRegNo) : RoundTrip.Statement (.pnot pd pa) := by
  intro w wf e
  replace e := Option.some.inj (show some (pack 0x06000042 [(pd.val, 7), (pa.val, 13)]) = some w from e)
  simp only [pack] at e
  obtain ⟨hw, f0_7, f7_6, f13_6, f19_6, f25_7⟩ := word_v3 (w := w) (x0 := 66) (x1 := pd.val) (x2 := pa.val) (x3 := 0) (x4 := 3) (by omega) (by decide) pd.isLt pa.isLt (by decide) (by decide)
  refine ⟨hw, table_of_raw hw ?_ wf⟩
  rw [raw_42 f0_7, decodePredScale]
  rw [f25_7]
  change (fixed (fld w 19 6) 0 <| reg 64 (fld w 7 6) fun pd => reg 64 (fld w 13 6) fun pa => .instr (.pnot pd pa)) = _
  rw [fixed_of f19_6, reg_of f7_6, reg_of f13_6]
theorem RoundTrip.psbf (pd : PRegNo) (pa : PRegNo) : RoundTrip.Statement (.psbf pd pa) := by
  intro w wf e
  replace e := Option.some.inj (show some (pack 0x08000042 [(pd.val, 7), (pa.val, 13)]) = some w from e)
  simp only [pack] at e
  obtain ⟨hw, f0_7, f7_6, f13_6, f19_6, f25_7⟩ := word_v3 (w := w) (x0 := 66) (x1 := pd.val) (x2 := pa.val) (x3 := 0) (x4 := 4) (by omega) (by decide) pd.isLt pa.isLt (by decide) (by decide)
  refine ⟨hw, table_of_raw hw ?_ wf⟩
  rw [raw_42 f0_7, decodePredScale]
  rw [f25_7]
  change (fixed (fld w 19 6) 0 <| reg 64 (fld w 7 6) fun pd => reg 64 (fld w 13 6) fun pa => .instr (.psbf pd pa)) = _
  rw [fixed_of f19_6, reg_of f7_6, reg_of f13_6]
theorem RoundTrip.psif (pd : PRegNo) (pa : PRegNo) : RoundTrip.Statement (.psif pd pa) := by
  intro w wf e
  replace e := Option.some.inj (show some (pack 0x0A000042 [(pd.val, 7), (pa.val, 13)]) = some w from e)
  simp only [pack] at e
  obtain ⟨hw, f0_7, f7_6, f13_6, f19_6, f25_7⟩ := word_v3 (w := w) (x0 := 66) (x1 := pd.val) (x2 := pa.val) (x3 := 0) (x4 := 5) (by omega) (by decide) pd.isLt pa.isLt (by decide) (by decide)
  refine ⟨hw, table_of_raw hw ?_ wf⟩
  rw [raw_42 f0_7, decodePredScale]
  rw [f25_7]
  change (fixed (fld w 19 6) 0 <| reg 64 (fld w 7 6) fun pd => reg 64 (fld w 13 6) fun pa => .instr (.psif pd pa)) = _
  rw [fixed_of f19_6, reg_of f7_6, reg_of f13_6]
theorem RoundTrip.pfirst (rd : SReg) (pa : PRegNo) : RoundTrip.Statement (.pfirst rd pa) := by
  intro w wf e
  replace e := Option.some.inj (show some (pack 0x0C000042 [(rd.val, 7), (pa.val, 13)]) = some w from e)
  simp only [pack] at e
  obtain ⟨hw, f0_7, f7_6, f13_6, f19_6, f25_7⟩ := word_v3 (w := w) (x0 := 66) (x1 := rd.val) (x2 := pa.val) (x3 := 0) (x4 := 6) (by omega) (by decide) (Nat.lt_of_lt_of_le (rd.isLt) (by decide)) pa.isLt (by decide) (by decide)
  refine ⟨hw, table_of_raw hw ?_ wf⟩
  rw [raw_42 f0_7, decodePredScale]
  rw [f25_7]
  change (fixed (fld w 19 6) 0 <| reg 32 (fld w 7 6) fun rd => reg 64 (fld w 13 6) fun pa => .instr (.pfirst rd pa)) = _
  rw [fixed_of f19_6, reg_of f7_6, reg_of f13_6]
theorem RoundTrip.pcnt (rd : SReg) (pa : PRegNo) : RoundTrip.Statement (.pcnt rd pa) := by
  intro w wf e
  replace e := Option.some.inj (show some (pack 0x0E000042 [(rd.val, 7), (pa.val, 13)]) = some w from e)
  simp only [pack] at e
  obtain ⟨hw, f0_7, f7_6, f13_6, f19_6, f25_7⟩ := word_v3 (w := w) (x0 := 66) (x1 := rd.val) (x2 := pa.val) (x3 := 0) (x4 := 7) (by omega) (by decide) (Nat.lt_of_lt_of_le (rd.isLt) (by decide)) pa.isLt (by decide) (by decide)
  refine ⟨hw, table_of_raw hw ?_ wf⟩
  rw [raw_42 f0_7, decodePredScale]
  rw [f25_7]
  change (fixed (fld w 19 6) 0 <| reg 32 (fld w 7 6) fun rd => reg 64 (fld w 13 6) fun pa => .instr (.pcnt rd pa)) = _
  rw [fixed_of f19_6, reg_of f7_6, reg_of f13_6]
theorem RoundTrip.pset (pd : PRegNo) (ra : SReg) : RoundTrip.Statement (.pset pd ra) := by
  intro w wf e
  replace e := Option.some.inj (show some (pack 0x10000042 [(pd.val, 7), (ra.val, 13)]) = some w from e)
  simp only [pack] at e
  obtain ⟨hw, f0_7, f7_6, f13_6, f19_6, f25_7⟩ := word_v3 (w := w) (x0 := 66) (x1 := pd.val) (x2 := ra.val) (x3 := 0) (x4 := 8) (by omega) (by decide) pd.isLt (Nat.lt_of_lt_of_le (ra.isLt) (by decide)) (by decide) (by decide)
  refine ⟨hw, table_of_raw hw ?_ wf⟩
  rw [raw_42 f0_7, decodePredScale]
  rw [f25_7]
  change (fixed (fld w 19 6) 0 <| reg 64 (fld w 7 6) fun pd => reg 32 (fld w 13 6) fun ra => .instr (.pset pd ra)) = _
  rw [fixed_of f19_6, reg_of f7_6, reg_of f13_6]
theorem RoundTrip.kmvToScale (kd : KRegNo) (va : VRegNo) : RoundTrip.Statement (.kmvToScale kd va) := by
  intro w wf e
  replace e := Option.some.inj (show some (pack 0x20000042 [(kd.val, 7), (va.val, 13)]) = some w from e)
  simp only [pack] at e
  obtain ⟨hw, f0_7, f7_6, f13_6, f19_6, f25_7⟩ := word_v3 (w := w) (x0 := 66) (x1 := kd.val) (x2 := va.val) (x3 := 0) (x4 := 16) (by omega) (by decide) (Nat.lt_of_lt_of_le (kd.isLt) (by decide)) va.isLt (by decide) (by decide)
  refine ⟨hw, table_of_raw hw ?_ wf⟩
  rw [raw_42 f0_7, decodePredScale]
  rw [f25_7]
  change (fixed (fld w 19 6) 0 <| reg 16 (fld w 7 6) fun kd => reg 64 (fld w 13 6) fun va => .instr (.kmvToScale kd va)) = _
  rw [fixed_of f19_6, reg_of f7_6, reg_of f13_6]
theorem RoundTrip.kmvToVector (vd : VRegNo) (ka : KRegNo) : RoundTrip.Statement (.kmvToVector vd ka) := by
  intro w wf e
  replace e := Option.some.inj (show some (pack 0x22000042 [(vd.val, 7), (ka.val, 13)]) = some w from e)
  simp only [pack] at e
  obtain ⟨hw, f0_7, f7_6, f13_6, f19_6, f25_7⟩ := word_v3 (w := w) (x0 := 66) (x1 := vd.val) (x2 := ka.val) (x3 := 0) (x4 := 17) (by omega) (by decide) vd.isLt (Nat.lt_of_lt_of_le (ka.isLt) (by decide)) (by decide) (by decide)
  refine ⟨hw, table_of_raw hw ?_ wf⟩
  rw [raw_42 f0_7, decodePredScale]
  rw [f25_7]
  change (fixed (fld w 19 6) 0 <| reg 64 (fld w 7 6) fun vd => reg 16 (fld w 13 6) fun ka => .instr (.kmvToVector vd ka)) = _
  rw [fixed_of f19_6, reg_of f7_6, reg_of f13_6]
theorem RoundTrip.setvl (rd : SReg) (ra : SReg) (fmt : Fmt) (dc : Depth) (ftz : Bool) (bl : Bool) (lg : Fin 17) : RoundTrip.Statement (.setvl rd ra fmt dc ftz bl lg) := by
  intro w wf e
  replace e := Option.some.inj (show some (pack 0x00000044 [(rd.val, 7), (ra.val, 12), (fmt.code, 17), (dc.code, 21), (bit ftz, 23), (bit bl, 24), (lg.val, 25)]) = some w from e)
  simp only [pack] at e
  obtain ⟨hw, f0_7, f7_5, f12_5, f17_4, f21_2, f23_1, f24_1, f25_5, f30_2⟩ := word_sv (w := w) (x0 := 68) (x1 := rd.val) (x2 := ra.val) (x3 := fmt.code) (x4 := dc.code) (x5 := bit ftz) (x6 := bit bl) (x7 := lg.val) (x8 := 0) (by omega) (by decide) rd.isLt ra.isLt (Nat.lt_of_lt_of_le (Fmt.code_lt fmt) (by decide)) (Nat.lt_of_lt_of_le (Depth.code_lt dc) (by decide)) (Nat.lt_succ_of_le (bit_le ftz)) (Nat.lt_succ_of_le (bit_le bl)) (Nat.lt_of_lt_of_le (lg.isLt) (by decide)) (by decide)
  refine ⟨hw, table_of_raw hw ?_ wf⟩
  rw [raw_44 f0_7, decodeSetvl]
  rw [fixed_of f30_2, reg_of f7_5, reg_of f12_5, code_of f17_4 (fmt_code fmt), code_of f21_2 (depth_code dc), reg_of f25_5, flag_of f23_1, flag_of f24_1]
theorem RoundTrip.mode (g : Option PRegNo) (rm : Rm) (sat : Bool) : RoundTrip.Statement (.mode g rm sat) := by
  intro w wf e
  replace e := Option.some.inj (show some (pack 0x00000045 [(guardCode g, 17), (rm.code, 24), (bit sat, 27)]) = some w from e)
  simp only [pack] at e
  have b_g := guardCode_lt g
  have b_rm := Rm.code_lt rm
  have b_sat := bit_le sat
  refine ⟨by omega, table_of_raw (by omega) ?_ wf⟩
  rw [raw_45 (by simp only [fld]; omega), decodeMode, fixed_of (show fld w 7 10 = 0 by simp only [fld]; omega),
    fixed_of (show fld w 28 4 = 0 by simp only [fld]; omega)]
  have k : (code Rm.ofCode? (fld w 24 3) fun rm => .instr (.mode g rm (flag (fld w 27 1)))) = .instr (.mode g rm sat) := by
    rw [code_of (show fld w 24 3 = rm.code by simp only [fld]; omega) (rm_code rm), flag_of (show fld w 27 1 = bit sat by simp only [fld]; omega)]
  cases g with
  | none =>
    simp only [guardCode] at e
    rw [guardField, if_pos (show fld w 23 1 = 0 by simp only [fld]; omega), fixed_of (show fld w 17 6 = 0 by simp only [fld]; omega), k]
  | some p =>
    have b_p := p.isLt
    simp only [guardCode] at e
    rw [guardField, if_neg (show ¬fld w 23 1 = 0 by simp only [fld]; omega), reg_of (show fld w 17 6 = p.val by simp only [fld]; omega), k]
theorem RoundTrip.lbMd (rd : SReg) (ra : SReg) (disp : BitVec 9) (fr : Bool) : RoundTrip.Statement (.lbMd rd ra disp fr) := by
  intro w wf e
  replace e := Option.some.inj (show some (pack 0x00000050 [(rd.val, 7), (ra.val, 13), (disp.toNat, 23), (bit fr, 22)]) = some w from e)
  simp only [pack] at e
  obtain ⟨hw, f0_7, f7_5, f12_1, f13_5, f18_1, f19_3, f22_1, f23_9⟩ := word_md (w := w) (x0 := 80) (x1 := rd.val) (x2 := 0) (x3 := ra.val) (x4 := 0) (x5 := 0) (x6 := bit fr) (x7 := disp.toNat) (by omega) (by decide) rd.isLt (by decide) ra.isLt (by decide) (by decide) (Nat.lt_succ_of_le (bit_le fr)) disp.isLt
  refine ⟨hw, table_of_raw hw ?_ wf⟩
  rw [raw_50 f0_7, decodeScalarLoad]
  rw [f19_3]
  change (if fld w 18 1 = 0 then fixed (fld w 12 1) 0 <| reg 32 (fld w 7 5) fun rd => reg 32 (fld w 13 5) fun ra => .instr (.lbMd rd ra (BitVec.ofNat 9 (fld w 23 9)) (flag (fld w 22 1))) else fixed (fld w 12 1) 0 <| fixed (fld w 28 4) 0 <| reg 32 (fld w 7 5) fun rd => reg 32 (fld w 13 5) fun ra => reg 32 (fld w 23 5) fun rb => .instr (.lbMx rd ra rb (flag (fld w 22 1)))) = _
  rw [if_pos f18_1]
  rw [fixed_of f12_1, reg_of f7_5, reg_of f13_5, imm_of f23_9, flag_of f22_1]
theorem RoundTrip.lbMx (rd : SReg) (ra : SReg) (rb : SReg) (fr : Bool) : RoundTrip.Statement (.lbMx rd ra rb fr) := by
  intro w wf e
  replace e := Option.some.inj (show some (pack 0x00040050 [(rd.val, 7), (ra.val, 13), (rb.val, 23), (bit fr, 22)]) = some w from e)
  simp only [pack] at e
  obtain ⟨hw, f0_7, f7_5, f12_1, f13_5, f18_1, f19_3, f22_1, f23_5, f28_4⟩ := word_mx (w := w) (x0 := 80) (x1 := rd.val) (x2 := 0) (x3 := ra.val) (x4 := 1) (x5 := 0) (x6 := bit fr) (x7 := rb.val) (x8 := 0) (by omega) (by decide) rd.isLt (by decide) ra.isLt (by decide) (by decide) (Nat.lt_succ_of_le (bit_le fr)) rb.isLt (by decide)
  refine ⟨hw, table_of_raw hw ?_ wf⟩
  rw [raw_50 f0_7, decodeScalarLoad]
  rw [f19_3]
  change (if fld w 18 1 = 0 then fixed (fld w 12 1) 0 <| reg 32 (fld w 7 5) fun rd => reg 32 (fld w 13 5) fun ra => .instr (.lbMd rd ra (BitVec.ofNat 9 (fld w 23 9)) (flag (fld w 22 1))) else fixed (fld w 12 1) 0 <| fixed (fld w 28 4) 0 <| reg 32 (fld w 7 5) fun rd => reg 32 (fld w 13 5) fun ra => reg 32 (fld w 23 5) fun rb => .instr (.lbMx rd ra rb (flag (fld w 22 1)))) = _
  rw [if_neg (show ¬fld w 18 1 = 0 by rw [f18_1]; decide)]
  rw [fixed_of f12_1, fixed_of f28_4, reg_of f7_5, reg_of f13_5, reg_of f23_5, flag_of f22_1]
theorem RoundTrip.lbnMd (rd : SReg) (ra : SReg) (disp : BitVec 9) (fr : Bool) : RoundTrip.Statement (.lbnMd rd ra disp fr) := by
  intro w wf e
  replace e := Option.some.inj (show some (pack 0x00080050 [(rd.val, 7), (ra.val, 13), (disp.toNat, 23), (bit fr, 22)]) = some w from e)
  simp only [pack] at e
  obtain ⟨hw, f0_7, f7_5, f12_1, f13_5, f18_1, f19_3, f22_1, f23_9⟩ := word_md (w := w) (x0 := 80) (x1 := rd.val) (x2 := 0) (x3 := ra.val) (x4 := 0) (x5 := 1) (x6 := bit fr) (x7 := disp.toNat) (by omega) (by decide) rd.isLt (by decide) ra.isLt (by decide) (by decide) (Nat.lt_succ_of_le (bit_le fr)) disp.isLt
  refine ⟨hw, table_of_raw hw ?_ wf⟩
  rw [raw_50 f0_7, decodeScalarLoad]
  rw [f19_3]
  change (if fld w 18 1 = 0 then fixed (fld w 12 1) 0 <| reg 32 (fld w 7 5) fun rd => reg 32 (fld w 13 5) fun ra => .instr (.lbnMd rd ra (BitVec.ofNat 9 (fld w 23 9)) (flag (fld w 22 1))) else fixed (fld w 12 1) 0 <| fixed (fld w 28 4) 0 <| reg 32 (fld w 7 5) fun rd => reg 32 (fld w 13 5) fun ra => reg 32 (fld w 23 5) fun rb => .instr (.lbnMx rd ra rb (flag (fld w 22 1)))) = _
  rw [if_pos f18_1]
  rw [fixed_of f12_1, reg_of f7_5, reg_of f13_5, imm_of f23_9, flag_of f22_1]
theorem RoundTrip.lbnMx (rd : SReg) (ra : SReg) (rb : SReg) (fr : Bool) : RoundTrip.Statement (.lbnMx rd ra rb fr) := by
  intro w wf e
  replace e := Option.some.inj (show some (pack 0x000C0050 [(rd.val, 7), (ra.val, 13), (rb.val, 23), (bit fr, 22)]) = some w from e)
  simp only [pack] at e
  obtain ⟨hw, f0_7, f7_5, f12_1, f13_5, f18_1, f19_3, f22_1, f23_5, f28_4⟩ := word_mx (w := w) (x0 := 80) (x1 := rd.val) (x2 := 0) (x3 := ra.val) (x4 := 1) (x5 := 1) (x6 := bit fr) (x7 := rb.val) (x8 := 0) (by omega) (by decide) rd.isLt (by decide) ra.isLt (by decide) (by decide) (Nat.lt_succ_of_le (bit_le fr)) rb.isLt (by decide)
  refine ⟨hw, table_of_raw hw ?_ wf⟩
  rw [raw_50 f0_7, decodeScalarLoad]
  rw [f19_3]
  change (if fld w 18 1 = 0 then fixed (fld w 12 1) 0 <| reg 32 (fld w 7 5) fun rd => reg 32 (fld w 13 5) fun ra => .instr (.lbnMd rd ra (BitVec.ofNat 9 (fld w 23 9)) (flag (fld w 22 1))) else fixed (fld w 12 1) 0 <| fixed (fld w 28 4) 0 <| reg 32 (fld w 7 5) fun rd => reg 32 (fld w 13 5) fun ra => reg 32 (fld w 23 5) fun rb => .instr (.lbnMx rd ra rb (flag (fld w 22 1)))) = _
  rw [if_neg (show ¬fld w 18 1 = 0 by rw [f18_1]; decide)]
  rw [fixed_of f12_1, fixed_of f28_4, reg_of f7_5, reg_of f13_5, reg_of f23_5, flag_of f22_1]
theorem RoundTrip.lhMd (rd : SReg) (ra : SReg) (disp : BitVec 9) (fr : Bool) : RoundTrip.Statement (.lhMd rd ra disp fr) := by
  intro w wf e
  replace e := Option.some.inj (show some (pack 0x00100050 [(rd.val, 7), (ra.val, 13), (disp.toNat, 23), (bit fr, 22)]) = some w from e)
  simp only [pack] at e
  obtain ⟨hw, f0_7, f7_5, f12_1, f13_5, f18_1, f19_3, f22_1, f23_9⟩ := word_md (w := w) (x0 := 80) (x1 := rd.val) (x2 := 0) (x3 := ra.val) (x4 := 0) (x5 := 2) (x6 := bit fr) (x7 := disp.toNat) (by omega) (by decide) rd.isLt (by decide) ra.isLt (by decide) (by decide) (Nat.lt_succ_of_le (bit_le fr)) disp.isLt
  refine ⟨hw, table_of_raw hw ?_ wf⟩
  rw [raw_50 f0_7, decodeScalarLoad]
  rw [f19_3]
  change (if fld w 18 1 = 0 then fixed (fld w 12 1) 0 <| reg 32 (fld w 7 5) fun rd => reg 32 (fld w 13 5) fun ra => .instr (.lhMd rd ra (BitVec.ofNat 9 (fld w 23 9)) (flag (fld w 22 1))) else fixed (fld w 12 1) 0 <| fixed (fld w 28 4) 0 <| reg 32 (fld w 7 5) fun rd => reg 32 (fld w 13 5) fun ra => reg 32 (fld w 23 5) fun rb => .instr (.lhMx rd ra rb (flag (fld w 22 1)))) = _
  rw [if_pos f18_1]
  rw [fixed_of f12_1, reg_of f7_5, reg_of f13_5, imm_of f23_9, flag_of f22_1]
theorem RoundTrip.lhMx (rd : SReg) (ra : SReg) (rb : SReg) (fr : Bool) : RoundTrip.Statement (.lhMx rd ra rb fr) := by
  intro w wf e
  replace e := Option.some.inj (show some (pack 0x00140050 [(rd.val, 7), (ra.val, 13), (rb.val, 23), (bit fr, 22)]) = some w from e)
  simp only [pack] at e
  obtain ⟨hw, f0_7, f7_5, f12_1, f13_5, f18_1, f19_3, f22_1, f23_5, f28_4⟩ := word_mx (w := w) (x0 := 80) (x1 := rd.val) (x2 := 0) (x3 := ra.val) (x4 := 1) (x5 := 2) (x6 := bit fr) (x7 := rb.val) (x8 := 0) (by omega) (by decide) rd.isLt (by decide) ra.isLt (by decide) (by decide) (Nat.lt_succ_of_le (bit_le fr)) rb.isLt (by decide)
  refine ⟨hw, table_of_raw hw ?_ wf⟩
  rw [raw_50 f0_7, decodeScalarLoad]
  rw [f19_3]
  change (if fld w 18 1 = 0 then fixed (fld w 12 1) 0 <| reg 32 (fld w 7 5) fun rd => reg 32 (fld w 13 5) fun ra => .instr (.lhMd rd ra (BitVec.ofNat 9 (fld w 23 9)) (flag (fld w 22 1))) else fixed (fld w 12 1) 0 <| fixed (fld w 28 4) 0 <| reg 32 (fld w 7 5) fun rd => reg 32 (fld w 13 5) fun ra => reg 32 (fld w 23 5) fun rb => .instr (.lhMx rd ra rb (flag (fld w 22 1)))) = _
  rw [if_neg (show ¬fld w 18 1 = 0 by rw [f18_1]; decide)]
  rw [fixed_of f12_1, fixed_of f28_4, reg_of f7_5, reg_of f13_5, reg_of f23_5, flag_of f22_1]
theorem RoundTrip.lhnMd (rd : SReg) (ra : SReg) (disp : BitVec 9) (fr : Bool) : RoundTrip.Statement (.lhnMd rd ra disp fr) := by
  intro w wf e
  replace e := Option.some.inj (show some (pack 0x00180050 [(rd.val, 7), (ra.val, 13), (disp.toNat, 23), (bit fr, 22)]) = some w from e)
  simp only [pack] at e
  obtain ⟨hw, f0_7, f7_5, f12_1, f13_5, f18_1, f19_3, f22_1, f23_9⟩ := word_md (w := w) (x0 := 80) (x1 := rd.val) (x2 := 0) (x3 := ra.val) (x4 := 0) (x5 := 3) (x6 := bit fr) (x7 := disp.toNat) (by omega) (by decide) rd.isLt (by decide) ra.isLt (by decide) (by decide) (Nat.lt_succ_of_le (bit_le fr)) disp.isLt
  refine ⟨hw, table_of_raw hw ?_ wf⟩
  rw [raw_50 f0_7, decodeScalarLoad]
  rw [f19_3]
  change (if fld w 18 1 = 0 then fixed (fld w 12 1) 0 <| reg 32 (fld w 7 5) fun rd => reg 32 (fld w 13 5) fun ra => .instr (.lhnMd rd ra (BitVec.ofNat 9 (fld w 23 9)) (flag (fld w 22 1))) else fixed (fld w 12 1) 0 <| fixed (fld w 28 4) 0 <| reg 32 (fld w 7 5) fun rd => reg 32 (fld w 13 5) fun ra => reg 32 (fld w 23 5) fun rb => .instr (.lhnMx rd ra rb (flag (fld w 22 1)))) = _
  rw [if_pos f18_1]
  rw [fixed_of f12_1, reg_of f7_5, reg_of f13_5, imm_of f23_9, flag_of f22_1]
theorem RoundTrip.lhnMx (rd : SReg) (ra : SReg) (rb : SReg) (fr : Bool) : RoundTrip.Statement (.lhnMx rd ra rb fr) := by
  intro w wf e
  replace e := Option.some.inj (show some (pack 0x001C0050 [(rd.val, 7), (ra.val, 13), (rb.val, 23), (bit fr, 22)]) = some w from e)
  simp only [pack] at e
  obtain ⟨hw, f0_7, f7_5, f12_1, f13_5, f18_1, f19_3, f22_1, f23_5, f28_4⟩ := word_mx (w := w) (x0 := 80) (x1 := rd.val) (x2 := 0) (x3 := ra.val) (x4 := 1) (x5 := 3) (x6 := bit fr) (x7 := rb.val) (x8 := 0) (by omega) (by decide) rd.isLt (by decide) ra.isLt (by decide) (by decide) (Nat.lt_succ_of_le (bit_le fr)) rb.isLt (by decide)
  refine ⟨hw, table_of_raw hw ?_ wf⟩
  rw [raw_50 f0_7, decodeScalarLoad]
  rw [f19_3]
  change (if fld w 18 1 = 0 then fixed (fld w 12 1) 0 <| reg 32 (fld w 7 5) fun rd => reg 32 (fld w 13 5) fun ra => .instr (.lhnMd rd ra (BitVec.ofNat 9 (fld w 23 9)) (flag (fld w 22 1))) else fixed (fld w 12 1) 0 <| fixed (fld w 28 4) 0 <| reg 32 (fld w 7 5) fun rd => reg 32 (fld w 13 5) fun ra => reg 32 (fld w 23 5) fun rb => .instr (.lhnMx rd ra rb (flag (fld w 22 1)))) = _
  rw [if_neg (show ¬fld w 18 1 = 0 by rw [f18_1]; decide)]
  rw [fixed_of f12_1, fixed_of f28_4, reg_of f7_5, reg_of f13_5, reg_of f23_5, flag_of f22_1]
theorem RoundTrip.lwMd (rd : SReg) (ra : SReg) (disp : BitVec 9) (fr : Bool) : RoundTrip.Statement (.lwMd rd ra disp fr) := by
  intro w wf e
  replace e := Option.some.inj (show some (pack 0x00200050 [(rd.val, 7), (ra.val, 13), (disp.toNat, 23), (bit fr, 22)]) = some w from e)
  simp only [pack] at e
  obtain ⟨hw, f0_7, f7_5, f12_1, f13_5, f18_1, f19_3, f22_1, f23_9⟩ := word_md (w := w) (x0 := 80) (x1 := rd.val) (x2 := 0) (x3 := ra.val) (x4 := 0) (x5 := 4) (x6 := bit fr) (x7 := disp.toNat) (by omega) (by decide) rd.isLt (by decide) ra.isLt (by decide) (by decide) (Nat.lt_succ_of_le (bit_le fr)) disp.isLt
  refine ⟨hw, table_of_raw hw ?_ wf⟩
  rw [raw_50 f0_7, decodeScalarLoad]
  rw [f19_3]
  change (if fld w 18 1 = 0 then fixed (fld w 12 1) 0 <| reg 32 (fld w 7 5) fun rd => reg 32 (fld w 13 5) fun ra => .instr (.lwMd rd ra (BitVec.ofNat 9 (fld w 23 9)) (flag (fld w 22 1))) else fixed (fld w 12 1) 0 <| fixed (fld w 28 4) 0 <| reg 32 (fld w 7 5) fun rd => reg 32 (fld w 13 5) fun ra => reg 32 (fld w 23 5) fun rb => .instr (.lwMx rd ra rb (flag (fld w 22 1)))) = _
  rw [if_pos f18_1]
  rw [fixed_of f12_1, reg_of f7_5, reg_of f13_5, imm_of f23_9, flag_of f22_1]
theorem RoundTrip.lwMx (rd : SReg) (ra : SReg) (rb : SReg) (fr : Bool) : RoundTrip.Statement (.lwMx rd ra rb fr) := by
  intro w wf e
  replace e := Option.some.inj (show some (pack 0x00240050 [(rd.val, 7), (ra.val, 13), (rb.val, 23), (bit fr, 22)]) = some w from e)
  simp only [pack] at e
  obtain ⟨hw, f0_7, f7_5, f12_1, f13_5, f18_1, f19_3, f22_1, f23_5, f28_4⟩ := word_mx (w := w) (x0 := 80) (x1 := rd.val) (x2 := 0) (x3 := ra.val) (x4 := 1) (x5 := 4) (x6 := bit fr) (x7 := rb.val) (x8 := 0) (by omega) (by decide) rd.isLt (by decide) ra.isLt (by decide) (by decide) (Nat.lt_succ_of_le (bit_le fr)) rb.isLt (by decide)
  refine ⟨hw, table_of_raw hw ?_ wf⟩
  rw [raw_50 f0_7, decodeScalarLoad]
  rw [f19_3]
  change (if fld w 18 1 = 0 then fixed (fld w 12 1) 0 <| reg 32 (fld w 7 5) fun rd => reg 32 (fld w 13 5) fun ra => .instr (.lwMd rd ra (BitVec.ofNat 9 (fld w 23 9)) (flag (fld w 22 1))) else fixed (fld w 12 1) 0 <| fixed (fld w 28 4) 0 <| reg 32 (fld w 7 5) fun rd => reg 32 (fld w 13 5) fun ra => reg 32 (fld w 23 5) fun rb => .instr (.lwMx rd ra rb (flag (fld w 22 1)))) = _
  rw [if_neg (show ¬fld w 18 1 = 0 by rw [f18_1]; decide)]
  rw [fixed_of f12_1, fixed_of f28_4, reg_of f7_5, reg_of f13_5, reg_of f23_5, flag_of f22_1]
theorem RoundTrip.lwnMd (rd : SReg) (ra : SReg) (disp : BitVec 9) (fr : Bool) : RoundTrip.Statement (.lwnMd rd ra disp fr) := by
  intro w wf e
  replace e := Option.some.inj (show some (pack 0x00280050 [(rd.val, 7), (ra.val, 13), (disp.toNat, 23), (bit fr, 22)]) = some w from e)
  simp only [pack] at e
  obtain ⟨hw, f0_7, f7_5, f12_1, f13_5, f18_1, f19_3, f22_1, f23_9⟩ := word_md (w := w) (x0 := 80) (x1 := rd.val) (x2 := 0) (x3 := ra.val) (x4 := 0) (x5 := 5) (x6 := bit fr) (x7 := disp.toNat) (by omega) (by decide) rd.isLt (by decide) ra.isLt (by decide) (by decide) (Nat.lt_succ_of_le (bit_le fr)) disp.isLt
  refine ⟨hw, table_of_raw hw ?_ wf⟩
  rw [raw_50 f0_7, decodeScalarLoad]
  rw [f19_3]
  change (if fld w 18 1 = 0 then fixed (fld w 12 1) 0 <| reg 32 (fld w 7 5) fun rd => reg 32 (fld w 13 5) fun ra => .instr (.lwnMd rd ra (BitVec.ofNat 9 (fld w 23 9)) (flag (fld w 22 1))) else fixed (fld w 12 1) 0 <| fixed (fld w 28 4) 0 <| reg 32 (fld w 7 5) fun rd => reg 32 (fld w 13 5) fun ra => reg 32 (fld w 23 5) fun rb => .instr (.lwnMx rd ra rb (flag (fld w 22 1)))) = _
  rw [if_pos f18_1]
  rw [fixed_of f12_1, reg_of f7_5, reg_of f13_5, imm_of f23_9, flag_of f22_1]
theorem RoundTrip.lwnMx (rd : SReg) (ra : SReg) (rb : SReg) (fr : Bool) : RoundTrip.Statement (.lwnMx rd ra rb fr) := by
  intro w wf e
  replace e := Option.some.inj (show some (pack 0x002C0050 [(rd.val, 7), (ra.val, 13), (rb.val, 23), (bit fr, 22)]) = some w from e)
  simp only [pack] at e
  obtain ⟨hw, f0_7, f7_5, f12_1, f13_5, f18_1, f19_3, f22_1, f23_5, f28_4⟩ := word_mx (w := w) (x0 := 80) (x1 := rd.val) (x2 := 0) (x3 := ra.val) (x4 := 1) (x5 := 5) (x6 := bit fr) (x7 := rb.val) (x8 := 0) (by omega) (by decide) rd.isLt (by decide) ra.isLt (by decide) (by decide) (Nat.lt_succ_of_le (bit_le fr)) rb.isLt (by decide)
  refine ⟨hw, table_of_raw hw ?_ wf⟩
  rw [raw_50 f0_7, decodeScalarLoad]
  rw [f19_3]
  change (if fld w 18 1 = 0 then fixed (fld w 12 1) 0 <| reg 32 (fld w 7 5) fun rd => reg 32 (fld w 13 5) fun ra => .instr (.lwnMd rd ra (BitVec.ofNat 9 (fld w 23 9)) (flag (fld w 22 1))) else fixed (fld w 12 1) 0 <| fixed (fld w 28 4) 0 <| reg 32 (fld w 7 5) fun rd => reg 32 (fld w 13 5) fun ra => reg 32 (fld w 23 5) fun rb => .instr (.lwnMx rd ra rb (flag (fld w 22 1)))) = _
  rw [if_neg (show ¬fld w 18 1 = 0 by rw [f18_1]; decide)]
  rw [fixed_of f12_1, fixed_of f28_4, reg_of f7_5, reg_of f13_5, reg_of f23_5, flag_of f22_1]
theorem RoundTrip.ldMd (rd : SReg) (ra : SReg) (disp : BitVec 9) (fr : Bool) : RoundTrip.Statement (.ldMd rd ra disp fr) := by
  intro w wf e
  replace e := Option.some.inj (show some (pack 0x00300050 [(rd.val, 7), (ra.val, 13), (disp.toNat, 23), (bit fr, 22)]) = some w from e)
  simp only [pack] at e
  obtain ⟨hw, f0_7, f7_5, f12_1, f13_5, f18_1, f19_3, f22_1, f23_9⟩ := word_md (w := w) (x0 := 80) (x1 := rd.val) (x2 := 0) (x3 := ra.val) (x4 := 0) (x5 := 6) (x6 := bit fr) (x7 := disp.toNat) (by omega) (by decide) rd.isLt (by decide) ra.isLt (by decide) (by decide) (Nat.lt_succ_of_le (bit_le fr)) disp.isLt
  refine ⟨hw, table_of_raw hw ?_ wf⟩
  rw [raw_50 f0_7, decodeScalarLoad]
  rw [f19_3]
  change (if fld w 18 1 = 0 then fixed (fld w 12 1) 0 <| reg 32 (fld w 7 5) fun rd => reg 32 (fld w 13 5) fun ra => .instr (.ldMd rd ra (BitVec.ofNat 9 (fld w 23 9)) (flag (fld w 22 1))) else fixed (fld w 12 1) 0 <| fixed (fld w 28 4) 0 <| reg 32 (fld w 7 5) fun rd => reg 32 (fld w 13 5) fun ra => reg 32 (fld w 23 5) fun rb => .instr (.ldMx rd ra rb (flag (fld w 22 1)))) = _
  rw [if_pos f18_1]
  rw [fixed_of f12_1, reg_of f7_5, reg_of f13_5, imm_of f23_9, flag_of f22_1]
theorem RoundTrip.ldMx (rd : SReg) (ra : SReg) (rb : SReg) (fr : Bool) : RoundTrip.Statement (.ldMx rd ra rb fr) := by
  intro w wf e
  replace e := Option.some.inj (show some (pack 0x00340050 [(rd.val, 7), (ra.val, 13), (rb.val, 23), (bit fr, 22)]) = some w from e)
  simp only [pack] at e
  obtain ⟨hw, f0_7, f7_5, f12_1, f13_5, f18_1, f19_3, f22_1, f23_5, f28_4⟩ := word_mx (w := w) (x0 := 80) (x1 := rd.val) (x2 := 0) (x3 := ra.val) (x4 := 1) (x5 := 6) (x6 := bit fr) (x7 := rb.val) (x8 := 0) (by omega) (by decide) rd.isLt (by decide) ra.isLt (by decide) (by decide) (Nat.lt_succ_of_le (bit_le fr)) rb.isLt (by decide)
  refine ⟨hw, table_of_raw hw ?_ wf⟩
  rw [raw_50 f0_7, decodeScalarLoad]
  rw [f19_3]
  change (if fld w 18 1 = 0 then fixed (fld w 12 1) 0 <| reg 32 (fld w 7 5) fun rd => reg 32 (fld w 13 5) fun ra => .instr (.ldMd rd ra (BitVec.ofNat 9 (fld w 23 9)) (flag (fld w 22 1))) else fixed (fld w 12 1) 0 <| fixed (fld w 28 4) 0 <| reg 32 (fld w 7 5) fun rd => reg 32 (fld w 13 5) fun ra => reg 32 (fld w 23 5) fun rb => .instr (.ldMx rd ra rb (flag (fld w 22 1)))) = _
  rw [if_neg (show ¬fld w 18 1 = 0 by rw [f18_1]; decide)]
  rw [fixed_of f12_1, fixed_of f28_4, reg_of f7_5, reg_of f13_5, reg_of f23_5, flag_of f22_1]
theorem RoundTrip.prefL1Md (ra : SReg) (disp : BitVec 9) : RoundTrip.Statement (.prefL1Md ra disp) := by
  intro w wf e
  replace e := Option.some.inj (show some (pack 0x00380050 [(ra.val, 13), (disp.toNat, 23)]) = some w from e)
  simp only [pack] at e
  obtain ⟨hw, f0_7, f7_6, f13_5, f18_1, f19_3, f22_1, f23_9⟩ := word_mdv (w := w) (x0 := 80) (x1 := 0) (x2 := ra.val) (x3 := 0) (x4 := 7) (x5 := 0) (x6 := disp.toNat) (by omega) (by decide) (by decide) ra.isLt (by decide) (by decide) (by decide) disp.isLt
  refine ⟨hw, table_of_raw hw ?_ wf⟩
  rw [raw_50 f0_7, decodeScalarLoad]
  rw [f19_3]
  rw [f7_6, f18_1]
  change (fixed (fld w 22 1) 0 <| reg 32 (fld w 13 5) fun ra => .instr (.prefL1Md ra (BitVec.ofNat 9 (fld w 23 9)))) = _
  rw [fixed_of f22_1, reg_of f13_5, imm_of f23_9]
theorem RoundTrip.prefL1Mx (ra : SReg) (rb : SReg) : RoundTrip.Statement (.prefL1Mx ra rb) := by
  intro w wf e
  replace e := Option.some.inj (show some (pack 0x003C0050 [(ra.val, 13), (rb.val, 23)]) = some w from e)
  simp only [pack] at e
  obtain ⟨hw, f0_7, f7_6, f13_5, f18_1, f19_3, f22_1, f23_5, f28_4⟩ := word_mxv (w := w) (x0 := 80) (x1 := 0) (x2 := ra.val) (x3 := 1) (x4 := 7) (x5 := 0) (x6 := rb.val) (x7 := 0) (by omega) (by decide) (by decide) ra.isLt (by decide) (by decide) (by decide) rb.isLt (by decide)
  refine ⟨hw, table_of_raw hw ?_ wf⟩
  rw [raw_50 f0_7, decodeScalarLoad]
  rw [f19_3]
  rw [f7_6, f18_1]
  change (fixed (fld w 22 1) 0 <| fixed (fld w 28 4) 0 <| reg 32 (fld w 13 5) fun ra => reg 32 (fld w 23 5) fun rb => .instr (.prefL1Mx ra rb)) = _
  rw [fixed_of f22_1, fixed_of f28_4, reg_of f13_5, reg_of f23_5]
theorem RoundTrip.prefLlcMd (ra : SReg) (disp : BitVec 9) : RoundTrip.Statement (.prefLlcMd ra disp) := by
  intro w wf e
  replace e := Option.some.inj (show some (pack 0x003800D0 [(ra.val, 13), (disp.toNat, 23)]) = some w from e)
  simp only [pack] at e
  obtain ⟨hw, f0_7, f7_6, f13_5, f18_1, f19_3, f22_1, f23_9⟩ := word_mdv (w := w) (x0 := 80) (x1 := 1) (x2 := ra.val) (x3 := 0) (x4 := 7) (x5 := 0) (x6 := disp.toNat) (by omega) (by decide) (by decide) ra.isLt (by decide) (by decide) (by decide) disp.isLt
  refine ⟨hw, table_of_raw hw ?_ wf⟩
  rw [raw_50 f0_7, decodeScalarLoad]
  rw [f19_3]
  rw [f7_6, f18_1]
  change (fixed (fld w 22 1) 0 <| reg 32 (fld w 13 5) fun ra => .instr (.prefLlcMd ra (BitVec.ofNat 9 (fld w 23 9)))) = _
  rw [fixed_of f22_1, reg_of f13_5, imm_of f23_9]
theorem RoundTrip.prefLlcMx (ra : SReg) (rb : SReg) : RoundTrip.Statement (.prefLlcMx ra rb) := by
  intro w wf e
  replace e := Option.some.inj (show some (pack 0x003C00D0 [(ra.val, 13), (rb.val, 23)]) = some w from e)
  simp only [pack] at e
  obtain ⟨hw, f0_7, f7_6, f13_5, f18_1, f19_3, f22_1, f23_5, f28_4⟩ := word_mxv (w := w) (x0 := 80) (x1 := 1) (x2 := ra.val) (x3 := 1) (x4 := 7) (x5 := 0) (x6 := rb.val) (x7 := 0) (by omega) (by decide) (by decide) ra.isLt (by decide) (by decide) (by decide) rb.isLt (by decide)
  refine ⟨hw, table_of_raw hw ?_ wf⟩
  rw [raw_50 f0_7, decodeScalarLoad]
  rw [f19_3]
  rw [f7_6, f18_1]
  change (fixed (fld w 22 1) 0 <| fixed (fld w 28 4) 0 <| reg 32 (fld w 13 5) fun ra => reg 32 (fld w 23 5) fun rb => .instr (.prefLlcMx ra rb)) = _
  rw [fixed_of f22_1, fixed_of f28_4, reg_of f13_5, reg_of f23_5]
theorem RoundTrip.sbMd (rs : SReg) (ra : SReg) (disp : BitVec 9) : RoundTrip.Statement (.sbMd rs ra disp) := by
  intro w wf e
  replace e := Option.some.inj (show some (pack 0x00000051 [(rs.val, 7), (ra.val, 13), (disp.toNat, 23)]) = some w from e)
  simp only [pack] at e
  obtain ⟨hw, f0_7, f7_5, f12_1, f13_5, f18_1, f19_3, f22_1, f23_9⟩ := word_md (w := w) (x0 := 81) (x1 := rs.val) (x2 := 0) (x3 := ra.val) (x4 := 0) (x5 := 0) (x6 := 0) (x7 := disp.toNat) (by omega) (by decide) rs.isLt (by decide) ra.isLt (by decide) (by decide) (by decide) disp.isLt
  refine ⟨hw, table_of_raw hw ?_ wf⟩
  rw [raw_51 f0_7, decodeScalarStore]
  rw [f19_3]
  change (if fld w 18 1 = 0 then fixed (fld w 12 1) 0 <| fixed (fld w 22 1) 0 <| reg 32 (fld w 7 5) fun rs => reg 32 (fld w 13 5) fun ra => .instr (.sbMd rs ra (BitVec.ofNat 9 (fld w 23 9))) else fixed (fld w 12 1) 0 <| fixed (fld w 22 1) 0 <| fixed (fld w 28 4) 0 <| reg 32 (fld w 7 5) fun rs => reg 32 (fld w 13 5) fun ra => reg 32 (fld w 23 5) fun rb => .instr (.sbMx rs ra rb)) = _
  rw [if_pos f18_1]
  rw [fixed_of f12_1, fixed_of f22_1, reg_of f7_5, reg_of f13_5, imm_of f23_9]
theorem RoundTrip.sbMx (rs : SReg) (ra : SReg) (rb : SReg) : RoundTrip.Statement (.sbMx rs ra rb) := by
  intro w wf e
  replace e := Option.some.inj (show some (pack 0x00040051 [(rs.val, 7), (ra.val, 13), (rb.val, 23)]) = some w from e)
  simp only [pack] at e
  obtain ⟨hw, f0_7, f7_5, f12_1, f13_5, f18_1, f19_3, f22_1, f23_5, f28_4⟩ := word_mx (w := w) (x0 := 81) (x1 := rs.val) (x2 := 0) (x3 := ra.val) (x4 := 1) (x5 := 0) (x6 := 0) (x7 := rb.val) (x8 := 0) (by omega) (by decide) rs.isLt (by decide) ra.isLt (by decide) (by decide) (by decide) rb.isLt (by decide)
  refine ⟨hw, table_of_raw hw ?_ wf⟩
  rw [raw_51 f0_7, decodeScalarStore]
  rw [f19_3]
  change (if fld w 18 1 = 0 then fixed (fld w 12 1) 0 <| fixed (fld w 22 1) 0 <| reg 32 (fld w 7 5) fun rs => reg 32 (fld w 13 5) fun ra => .instr (.sbMd rs ra (BitVec.ofNat 9 (fld w 23 9))) else fixed (fld w 12 1) 0 <| fixed (fld w 22 1) 0 <| fixed (fld w 28 4) 0 <| reg 32 (fld w 7 5) fun rs => reg 32 (fld w 13 5) fun ra => reg 32 (fld w 23 5) fun rb => .instr (.sbMx rs ra rb)) = _
  rw [if_neg (show ¬fld w 18 1 = 0 by rw [f18_1]; decide)]
  rw [fixed_of f12_1, fixed_of f22_1, fixed_of f28_4, reg_of f7_5, reg_of f13_5, reg_of f23_5]
theorem RoundTrip.shMd (rs : SReg) (ra : SReg) (disp : BitVec 9) : RoundTrip.Statement (.shMd rs ra disp) := by
  intro w wf e
  replace e := Option.some.inj (show some (pack 0x00100051 [(rs.val, 7), (ra.val, 13), (disp.toNat, 23)]) = some w from e)
  simp only [pack] at e
  obtain ⟨hw, f0_7, f7_5, f12_1, f13_5, f18_1, f19_3, f22_1, f23_9⟩ := word_md (w := w) (x0 := 81) (x1 := rs.val) (x2 := 0) (x3 := ra.val) (x4 := 0) (x5 := 2) (x6 := 0) (x7 := disp.toNat) (by omega) (by decide) rs.isLt (by decide) ra.isLt (by decide) (by decide) (by decide) disp.isLt
  refine ⟨hw, table_of_raw hw ?_ wf⟩
  rw [raw_51 f0_7, decodeScalarStore]
  rw [f19_3]
  change (if fld w 18 1 = 0 then fixed (fld w 12 1) 0 <| fixed (fld w 22 1) 0 <| reg 32 (fld w 7 5) fun rs => reg 32 (fld w 13 5) fun ra => .instr (.shMd rs ra (BitVec.ofNat 9 (fld w 23 9))) else fixed (fld w 12 1) 0 <| fixed (fld w 22 1) 0 <| fixed (fld w 28 4) 0 <| reg 32 (fld w 7 5) fun rs => reg 32 (fld w 13 5) fun ra => reg 32 (fld w 23 5) fun rb => .instr (.shMx rs ra rb)) = _
  rw [if_pos f18_1]
  rw [fixed_of f12_1, fixed_of f22_1, reg_of f7_5, reg_of f13_5, imm_of f23_9]
theorem RoundTrip.shMx (rs : SReg) (ra : SReg) (rb : SReg) : RoundTrip.Statement (.shMx rs ra rb) := by
  intro w wf e
  replace e := Option.some.inj (show some (pack 0x00140051 [(rs.val, 7), (ra.val, 13), (rb.val, 23)]) = some w from e)
  simp only [pack] at e
  obtain ⟨hw, f0_7, f7_5, f12_1, f13_5, f18_1, f19_3, f22_1, f23_5, f28_4⟩ := word_mx (w := w) (x0 := 81) (x1 := rs.val) (x2 := 0) (x3 := ra.val) (x4 := 1) (x5 := 2) (x6 := 0) (x7 := rb.val) (x8 := 0) (by omega) (by decide) rs.isLt (by decide) ra.isLt (by decide) (by decide) (by decide) rb.isLt (by decide)
  refine ⟨hw, table_of_raw hw ?_ wf⟩
  rw [raw_51 f0_7, decodeScalarStore]
  rw [f19_3]
  change (if fld w 18 1 = 0 then fixed (fld w 12 1) 0 <| fixed (fld w 22 1) 0 <| reg 32 (fld w 7 5) fun rs => reg 32 (fld w 13 5) fun ra => .instr (.shMd rs ra (BitVec.ofNat 9 (fld w 23 9))) else fixed (fld w 12 1) 0 <| fixed (fld w 22 1) 0 <| fixed (fld w 28 4) 0 <| reg 32 (fld w 7 5) fun rs => reg 32 (fld w 13 5) fun ra => reg 32 (fld w 23 5) fun rb => .instr (.shMx rs ra rb)) = _
  rw [if_neg (show ¬fld w 18 1 = 0 by rw [f18_1]; decide)]
  rw [fixed_of f12_1, fixed_of f22_1, fixed_of f28_4, reg_of f7_5, reg_of f13_5, reg_of f23_5]
theorem RoundTrip.swMd (rs : SReg) (ra : SReg) (disp : BitVec 9) : RoundTrip.Statement (.swMd rs ra disp) := by
  intro w wf e
  replace e := Option.some.inj (show some (pack 0x00200051 [(rs.val, 7), (ra.val, 13), (disp.toNat, 23)]) = some w from e)
  simp only [pack] at e
  obtain ⟨hw, f0_7, f7_5, f12_1, f13_5, f18_1, f19_3, f22_1, f23_9⟩ := word_md (w := w) (x0 := 81) (x1 := rs.val) (x2 := 0) (x3 := ra.val) (x4 := 0) (x5 := 4) (x6 := 0) (x7 := disp.toNat) (by omega) (by decide) rs.isLt (by decide) ra.isLt (by decide) (by decide) (by decide) disp.isLt
  refine ⟨hw, table_of_raw hw ?_ wf⟩
  rw [raw_51 f0_7, decodeScalarStore]
  rw [f19_3]
  change (if fld w 18 1 = 0 then fixed (fld w 12 1) 0 <| fixed (fld w 22 1) 0 <| reg 32 (fld w 7 5) fun rs => reg 32 (fld w 13 5) fun ra => .instr (.swMd rs ra (BitVec.ofNat 9 (fld w 23 9))) else fixed (fld w 12 1) 0 <| fixed (fld w 22 1) 0 <| fixed (fld w 28 4) 0 <| reg 32 (fld w 7 5) fun rs => reg 32 (fld w 13 5) fun ra => reg 32 (fld w 23 5) fun rb => .instr (.swMx rs ra rb)) = _
  rw [if_pos f18_1]
  rw [fixed_of f12_1, fixed_of f22_1, reg_of f7_5, reg_of f13_5, imm_of f23_9]
theorem RoundTrip.swMx (rs : SReg) (ra : SReg) (rb : SReg) : RoundTrip.Statement (.swMx rs ra rb) := by
  intro w wf e
  replace e := Option.some.inj (show some (pack 0x00240051 [(rs.val, 7), (ra.val, 13), (rb.val, 23)]) = some w from e)
  simp only [pack] at e
  obtain ⟨hw, f0_7, f7_5, f12_1, f13_5, f18_1, f19_3, f22_1, f23_5, f28_4⟩ := word_mx (w := w) (x0 := 81) (x1 := rs.val) (x2 := 0) (x3 := ra.val) (x4 := 1) (x5 := 4) (x6 := 0) (x7 := rb.val) (x8 := 0) (by omega) (by decide) rs.isLt (by decide) ra.isLt (by decide) (by decide) (by decide) rb.isLt (by decide)
  refine ⟨hw, table_of_raw hw ?_ wf⟩
  rw [raw_51 f0_7, decodeScalarStore]
  rw [f19_3]
  change (if fld w 18 1 = 0 then fixed (fld w 12 1) 0 <| fixed (fld w 22 1) 0 <| reg 32 (fld w 7 5) fun rs => reg 32 (fld w 13 5) fun ra => .instr (.swMd rs ra (BitVec.ofNat 9 (fld w 23 9))) else fixed (fld w 12 1) 0 <| fixed (fld w 22 1) 0 <| fixed (fld w 28 4) 0 <| reg 32 (fld w 7 5) fun rs => reg 32 (fld w 13 5) fun ra => reg 32 (fld w 23 5) fun rb => .instr (.swMx rs ra rb)) = _
  rw [if_neg (show ¬fld w 18 1 = 0 by rw [f18_1]; decide)]
  rw [fixed_of f12_1, fixed_of f22_1, fixed_of f28_4, reg_of f7_5, reg_of f13_5, reg_of f23_5]
theorem RoundTrip.sdMd (rs : SReg) (ra : SReg) (disp : BitVec 9) : RoundTrip.Statement (.sdMd rs ra disp) := by
  intro w wf e
  replace e := Option.some.inj (show some (pack 0x00300051 [(rs.val, 7), (ra.val, 13), (disp.toNat, 23)]) = some w from e)
  simp only [pack] at e
  obtain ⟨hw, f0_7, f7_5, f12_1, f13_5, f18_1, f19_3, f22_1, f23_9⟩ := word_md (w := w) (x0 := 81) (x1 := rs.val) (x2 := 0) (x3 := ra.val) (x4 := 0) (x5 := 6) (x6 := 0) (x7 := disp.toNat) (by omega) (by decide) rs.isLt (by decide) ra.isLt (by decide) (by decide) (by decide) disp.isLt
  refine ⟨hw, table_of_raw hw ?_ wf⟩
  rw [raw_51 f0_7, decodeScalarStore]
  rw [f19_3]
  change (if fld w 18 1 = 0 then fixed (fld w 12 1) 0 <| fixed (fld w 22 1) 0 <| reg 32 (fld w 7 5) fun rs => reg 32 (fld w 13 5) fun ra => .instr (.sdMd rs ra (BitVec.ofNat 9 (fld w 23 9))) else fixed (fld w 12 1) 0 <| fixed (fld w 22 1) 0 <| fixed (fld w 28 4) 0 <| reg 32 (fld w 7 5) fun rs => reg 32 (fld w 13 5) fun ra => reg 32 (fld w 23 5) fun rb => .instr (.sdMx rs ra rb)) = _
  rw [if_pos f18_1]
  rw [fixed_of f12_1, fixed_of f22_1, reg_of f7_5, reg_of f13_5, imm_of f23_9]
theorem RoundTrip.sdMx (rs : SReg) (ra : SReg) (rb : SReg) : RoundTrip.Statement (.sdMx rs ra rb) := by
  intro w wf e
  replace e := Option.some.inj (show some (pack 0x00340051 [(rs.val, 7), (ra.val, 13), (rb.val, 23)]) = some w from e)
  simp only [pack] at e
  obtain ⟨hw, f0_7, f7_5, f12_1, f13_5, f18_1, f19_3, f22_1, f23_5, f28_4⟩ := word_mx (w := w) (x0 := 81) (x1 := rs.val) (x2 := 0) (x3 := ra.val) (x4 := 1) (x5 := 6) (x6 := 0) (x7 := rb.val) (x8 := 0) (by omega) (by decide) rs.isLt (by decide) ra.isLt (by decide) (by decide) (by decide) rb.isLt (by decide)
  refine ⟨hw, table_of_raw hw ?_ wf⟩
  rw [raw_51 f0_7, decodeScalarStore]
  rw [f19_3]
  change (if fld w 18 1 = 0 then fixed (fld w 12 1) 0 <| fixed (fld w 22 1) 0 <| reg 32 (fld w 7 5) fun rs => reg 32 (fld w 13 5) fun ra => .instr (.sdMd rs ra (BitVec.ofNat 9 (fld w 23 9))) else fixed (fld w 12 1) 0 <| fixed (fld w 22 1) 0 <| fixed (fld w 28 4) 0 <| reg 32 (fld w 7 5) fun rs => reg 32 (fld w 13 5) fun ra => reg 32 (fld w 23 5) fun rb => .instr (.sdMx rs ra rb)) = _
  rw [if_neg (show ¬fld w 18 1 = 0 by rw [f18_1]; decide)]
  rw [fixed_of f12_1, fixed_of f22_1, fixed_of f28_4, reg_of f7_5, reg_of f13_5, reg_of f23_5]
theorem RoundTrip.vldMd (vd : VRegNo) (ra : SReg) (disp : BitVec 9) (fr : Bool) : RoundTrip.Statement (.vldMd vd ra disp fr) := by
  intro w wf e
  replace e := Option.some.inj (show some (pack 0x00000054 [(vd.val, 7), (ra.val, 13), (disp.toNat, 23), (bit fr, 22)]) = some w from e)
  simp only [pack] at e
  obtain ⟨hw, f0_7, f7_6, f13_5, f18_1, f19_3, f22_1, f23_9⟩ := word_mdv (w := w) (x0 := 84) (x1 := vd.val) (x2 := ra.val) (x3 := 0) (x4 := 0) (x5 := bit fr) (x6 := disp.toNat) (by omega) (by decide) vd.isLt ra.isLt (by decide) (by decide) (Nat.lt_succ_of_le (bit_le fr)) disp.isLt
  refine ⟨hw, table_of_raw hw ?_ wf⟩
  rw [raw_54 f0_7, decodeVectorLoad]
  rw [f19_3]
  change (if fld w 18 1 = 0 then reg 64 (fld w 7 6) fun vd => reg 32 (fld w 13 5) fun ra => .instr (.vldMd vd ra (BitVec.ofNat 9 (fld w 23 9)) (flag (fld w 22 1))) else fixed (fld w 28 4) 0 <| reg 64 (fld w 7 6) fun vd => reg 32 (fld w 13 5) fun ra => reg 32 (fld w 23 5) fun rb => .instr (.vldMx vd ra rb (flag (fld w 22 1)))) = _
  rw [if_pos f18_1]
  rw [reg_of f7_6, reg_of f13_5, imm_of f23_9, flag_of f22_1]
theorem RoundTrip.vldMx (vd : VRegNo) (ra : SReg) (rb : SReg) (fr : Bool) : RoundTrip.Statement (.vldMx vd ra rb fr) := by
  intro w wf e
  replace e := Option.some.inj (show some (pack 0x00040054 [(vd.val, 7), (ra.val, 13), (rb.val, 23), (bit fr, 22)]) = some w from e)
  simp only [pack] at e
  obtain ⟨hw, f0_7, f7_6, f13_5, f18_1, f19_3, f22_1, f23_5, f28_4⟩ := word_mxv (w := w) (x0 := 84) (x1 := vd.val) (x2 := ra.val) (x3 := 1) (x4 := 0) (x5 := bit fr) (x6 := rb.val) (x7 := 0) (by omega) (by decide) vd.isLt ra.isLt (by decide) (by decide) (Nat.lt_succ_of_le (bit_le fr)) rb.isLt (by decide)
  refine ⟨hw, table_of_raw hw ?_ wf⟩
  rw [raw_54 f0_7, decodeVectorLoad]
  rw [f19_3]
  change (if fld w 18 1 = 0 then reg 64 (fld w 7 6) fun vd => reg 32 (fld w 13 5) fun ra => .instr (.vldMd vd ra (BitVec.ofNat 9 (fld w 23 9)) (flag (fld w 22 1))) else fixed (fld w 28 4) 0 <| reg 64 (fld w 7 6) fun vd => reg 32 (fld w 13 5) fun ra => reg 32 (fld w 23 5) fun rb => .instr (.vldMx vd ra rb (flag (fld w 22 1)))) = _
  rw [if_neg (show ¬fld w 18 1 = 0 by rw [f18_1]; decide)]
  rw [fixed_of f28_4, reg_of f7_6, reg_of f13_5, reg_of f23_5, flag_of f22_1]
theorem RoundTrip.vlds (vd : VRegNo) (ra : SReg) (rb : SReg) (fr : Bool) : RoundTrip.Statement (.vlds vd ra rb fr) := by
  intro w wf e
  replace e := Option.some.inj (show some (pack 0x000C0054 [(vd.val, 7), (ra.val, 13), (rb.val, 23), (bit fr, 22)]) = some w from e)
  simp only [pack] at e
  obtain ⟨hw, f0_7, f7_6, f13_5, f18_1, f19_3, f22_1, f23_5, f28_4⟩ := word_mxv (w := w) (x0 := 84) (x1 := vd.val) (x2 := ra.val) (x3 := 1) (x4 := 1) (x5 := bit fr) (x6 := rb.val) (x7 := 0) (by omega) (by decide) vd.isLt ra.isLt (by decide) (by decide) (Nat.lt_succ_of_le (bit_le fr)) rb.isLt (by decide)
  refine ⟨hw, table_of_raw hw ?_ wf⟩
  rw [raw_54 f0_7, decodeVectorLoad]
  rw [f19_3]
  change (fixed (fld w 18 1) 1 <| fixed (fld w 28 4) 0 <| reg 64 (fld w 7 6) fun vd => reg 32 (fld w 13 5) fun ra => reg 32 (fld w 23 5) fun rb => .instr (.vlds vd ra rb (flag (fld w 22 1)))) = _
  rw [fixed_of f18_1, fixed_of f28_4, reg_of f7_6, reg_of f13_5, reg_of f23_5, flag_of f22_1]
theorem RoundTrip.vldffMd (vd : VRegNo) (ra : SReg) (disp : BitVec 9) (fr : Bool) : RoundTrip.Statement (.vldffMd vd ra disp fr) := by
  intro w wf e
  replace e := Option.some.inj (show some (pack 0x00100054 [(vd.val, 7), (ra.val, 13), (disp.toNat, 23), (bit fr, 22)]) = some w from e)
  simp only [pack] at e
  obtain ⟨hw, f0_7, f7_6, f13_5, f18_1, f19_3, f22_1, f23_9⟩ := word_mdv (w := w) (x0 := 84) (x1 := vd.val) (x2 := ra.val) (x3 := 0) (x4 := 2) (x5 := bit fr) (x6 := disp.toNat) (by omega) (by decide) vd.isLt ra.isLt (by decide) (by decide) (Nat.lt_succ_of_le (bit_le fr)) disp.isLt
  refine ⟨hw, table_of_raw hw ?_ wf⟩
  rw [raw_54 f0_7, decodeVectorLoad]
  rw [f19_3]
  change (if fld w 18 1 = 0 then reg 64 (fld w 7 6) fun vd => reg 32 (fld w 13 5) fun ra => .instr (.vldffMd vd ra (BitVec.ofNat 9 (fld w 23 9)) (flag (fld w 22 1))) else fixed (fld w 28 4) 0 <| reg 64 (fld w 7 6) fun vd => reg 32 (fld w 13 5) fun ra => reg 32 (fld w 23 5) fun rb => .instr (.vldffMx vd ra rb (flag (fld w 22 1)))) = _
  rw [if_pos f18_1]
  rw [reg_of f7_6, reg_of f13_5, imm_of f23_9, flag_of f22_1]
theorem RoundTrip.vldffMx (vd : VRegNo) (ra : SReg) (rb : SReg) (fr : Bool) : RoundTrip.Statement (.vldffMx vd ra rb fr) := by
  intro w wf e
  replace e := Option.some.inj (show some (pack 0x00140054 [(vd.val, 7), (ra.val, 13), (rb.val, 23), (bit fr, 22)]) = some w from e)
  simp only [pack] at e
  obtain ⟨hw, f0_7, f7_6, f13_5, f18_1, f19_3, f22_1, f23_5, f28_4⟩ := word_mxv (w := w) (x0 := 84) (x1 := vd.val) (x2 := ra.val) (x3 := 1) (x4 := 2) (x5 := bit fr) (x6 := rb.val) (x7 := 0) (by omega) (by decide) vd.isLt ra.isLt (by decide) (by decide) (Nat.lt_succ_of_le (bit_le fr)) rb.isLt (by decide)
  refine ⟨hw, table_of_raw hw ?_ wf⟩
  rw [raw_54 f0_7, decodeVectorLoad]
  rw [f19_3]
  change (if fld w 18 1 = 0 then reg 64 (fld w 7 6) fun vd => reg 32 (fld w 13 5) fun ra => .instr (.vldffMd vd ra (BitVec.ofNat 9 (fld w 23 9)) (flag (fld w 22 1))) else fixed (fld w 28 4) 0 <| reg 64 (fld w 7 6) fun vd => reg 32 (fld w 13 5) fun ra => reg 32 (fld w 23 5) fun rb => .instr (.vldffMx vd ra rb (flag (fld w 22 1)))) = _
  rw [if_neg (show ¬fld w 18 1 = 0 by rw [f18_1]; decide)]
  rw [fixed_of f28_4, reg_of f7_6, reg_of f13_5, reg_of f23_5, flag_of f22_1]
theorem RoundTrip.ksld (kd : KRegNo) (ra : SReg) (rb : SReg) (fr : Bool) : RoundTrip.Statement (.ksld kd ra rb fr) := by
  intro w wf e
  replace e := Option.some.inj (show some (pack 0x001C0054 [(kd.val, 7), (ra.val, 13), (rb.val, 23), (bit fr, 22)]) = some w from e)
  simp only [pack] at e
  obtain ⟨hw, f0_7, f7_6, f13_5, f18_1, f19_3, f22_1, f23_5, f28_4⟩ := word_mxv (w := w) (x0 := 84) (x1 := kd.val) (x2 := ra.val) (x3 := 1) (x4 := 3) (x5 := bit fr) (x6 := rb.val) (x7 := 0) (by omega) (by decide) (Nat.lt_of_lt_of_le (kd.isLt) (by decide)) ra.isLt (by decide) (by decide) (Nat.lt_succ_of_le (bit_le fr)) rb.isLt (by decide)
  refine ⟨hw, table_of_raw hw ?_ wf⟩
  rw [raw_54 f0_7, decodeVectorLoad]
  rw [f19_3]
  change (fixed (fld w 18 1) 1 <| fixed (fld w 28 4) 0 <| reg 16 (fld w 7 6) fun kd => reg 32 (fld w 13 5) fun ra => reg 32 (fld w 23 5) fun rb => .instr (.ksld kd ra rb (flag (fld w 22 1)))) = _
  rw [fixed_of f18_1, fixed_of f28_4, reg_of f7_6, reg_of f13_5, reg_of f23_5, flag_of f22_1]
theorem RoundTrip.vstMd (vs : VRegNo) (ra : SReg) (disp : BitVec 9) : RoundTrip.Statement (.vstMd vs ra disp) := by
  intro w wf e
  replace e := Option.some.inj (show some (pack 0x00000055 [(vs.val, 7), (ra.val, 13), (disp.toNat, 23)]) = some w from e)
  simp only [pack] at e
  obtain ⟨hw, f0_7, f7_6, f13_5, f18_1, f19_3, f22_1, f23_9⟩ := word_mdv (w := w) (x0 := 85) (x1 := vs.val) (x2 := ra.val) (x3 := 0) (x4 := 0) (x5 := 0) (x6 := disp.toNat) (by omega) (by decide) vs.isLt ra.isLt (by decide) (by decide) (by decide) disp.isLt
  refine ⟨hw, table_of_raw hw ?_ wf⟩
  rw [raw_55 f0_7, decodeVectorStore]
  rw [f19_3]
  change (if fld w 18 1 = 0 then fixed (fld w 22 1) 0 <| reg 64 (fld w 7 6) fun vs => reg 32 (fld w 13 5) fun ra => .instr (.vstMd vs ra (BitVec.ofNat 9 (fld w 23 9))) else fixed (fld w 22 1) 0 <| fixed (fld w 28 4) 0 <| reg 64 (fld w 7 6) fun vs => reg 32 (fld w 13 5) fun ra => reg 32 (fld w 23 5) fun rb => .instr (.vstMx vs ra rb)) = _
  rw [if_pos f18_1]
  rw [fixed_of f22_1, reg_of f7_6, reg_of f13_5, imm_of f23_9]
theorem RoundTrip.vstMx (vs : VRegNo) (ra : SReg) (rb : SReg) : RoundTrip.Statement (.vstMx vs ra rb) := by
  intro w wf e
  replace e := Option.some.inj (show some (pack 0x00040055 [(vs.val, 7), (ra.val, 13), (rb.val, 23)]) = some w from e)
  simp only [pack] at e
  obtain ⟨hw, f0_7, f7_6, f13_5, f18_1, f19_3, f22_1, f23_5, f28_4⟩ := word_mxv (w := w) (x0 := 85) (x1 := vs.val) (x2 := ra.val) (x3 := 1) (x4 := 0) (x5 := 0) (x6 := rb.val) (x7 := 0) (by omega) (by decide) vs.isLt ra.isLt (by decide) (by decide) (by decide) rb.isLt (by decide)
  refine ⟨hw, table_of_raw hw ?_ wf⟩
  rw [raw_55 f0_7, decodeVectorStore]
  rw [f19_3]
  change (if fld w 18 1 = 0 then fixed (fld w 22 1) 0 <| reg 64 (fld w 7 6) fun vs => reg 32 (fld w 13 5) fun ra => .instr (.vstMd vs ra (BitVec.ofNat 9 (fld w 23 9))) else fixed (fld w 22 1) 0 <| fixed (fld w 28 4) 0 <| reg 64 (fld w 7 6) fun vs => reg 32 (fld w 13 5) fun ra => reg 32 (fld w 23 5) fun rb => .instr (.vstMx vs ra rb)) = _
  rw [if_neg (show ¬fld w 18 1 = 0 by rw [f18_1]; decide)]
  rw [fixed_of f22_1, fixed_of f28_4, reg_of f7_6, reg_of f13_5, reg_of f23_5]
theorem RoundTrip.vsts (vs : VRegNo) (ra : SReg) (rb : SReg) : RoundTrip.Statement (.vsts vs ra rb) := by
  intro w wf e
  replace e := Option.some.inj (show some (pack 0x000C0055 [(vs.val, 7), (ra.val, 13), (rb.val, 23)]) = some w from e)
  simp only [pack] at e
  obtain ⟨hw, f0_7, f7_6, f13_5, f18_1, f19_3, f22_1, f23_5, f28_4⟩ := word_mxv (w := w) (x0 := 85) (x1 := vs.val) (x2 := ra.val) (x3 := 1) (x4 := 1) (x5 := 0) (x6 := rb.val) (x7 := 0) (by omega) (by decide) vs.isLt ra.isLt (by decide) (by decide) (by decide) rb.isLt (by decide)
  refine ⟨hw, table_of_raw hw ?_ wf⟩
  rw [raw_55 f0_7, decodeVectorStore]
  rw [f19_3]
  change (fixed (fld w 18 1) 1 <| fixed (fld w 22 1) 0 <| fixed (fld w 28 4) 0 <| reg 64 (fld w 7 6) fun vs => reg 32 (fld w 13 5) fun ra => reg 32 (fld w 23 5) fun rb => .instr (.vsts vs ra rb)) = _
  rw [fixed_of f18_1, fixed_of f22_1, fixed_of f28_4, reg_of f7_6, reg_of f13_5, reg_of f23_5]
theorem RoundTrip.vldsegMd (n : Fin 7) (vd : VRegNo) (ra : SReg) (disp : BitVec 9) : RoundTrip.Statement (.vldsegMd n vd ra disp) := by
  intro w wf e
  replace e := Option.some.inj (show some (pack 0x00000056 [(n.val, 19), (vd.val, 7), (ra.val, 13), (disp.toNat, 23)]) = some w from e)
  simp only [pack] at e
  obtain ⟨hw, f0_7, f7_6, f13_5, f18_1, f19_3, f22_1, f23_9⟩ := word_mdv (w := w) (x0 := 86) (x1 := vd.val) (x2 := ra.val) (x3 := 0) (x4 := n.val) (x5 := 0) (x6 := disp.toNat) (by omega) (by decide) vd.isLt ra.isLt (by decide) (Nat.lt_of_lt_of_le (n.isLt) (by decide)) (by decide) disp.isLt
  refine ⟨hw, table_of_raw hw ?_ wf⟩
  rw [raw_56 f0_7, decodeVldseg]
  rw [if_pos f18_1]
  rw [fixed_of f22_1, reg_of f19_3, reg_of f7_6, reg_of f13_5, imm_of f23_9]
theorem RoundTrip.vldsegMx (n : Fin 7) (vd : VRegNo) (ra : SReg) (rb : SReg) : RoundTrip.Statement (.vldsegMx n vd ra rb) := by
  intro w wf e
  replace e := Option.some.inj (show some (pack 0x00040056 [(n.val, 19), (vd.val, 7), (ra.val, 13), (rb.val, 23)]) = some w from e)
  simp only [pack] at e
  obtain ⟨hw, f0_7, f7_6, f13_5, f18_1, f19_3, f22_1, f23_5, f28_4⟩ := word_mxv (w := w) (x0 := 86) (x1 := vd.val) (x2 := ra.val) (x3 := 1) (x4 := n.val) (x5 := 0) (x6 := rb.val) (x7 := 0) (by omega) (by decide) vd.isLt ra.isLt (by decide) (Nat.lt_of_lt_of_le (n.isLt) (by decide)) (by decide) rb.isLt (by decide)
  refine ⟨hw, table_of_raw hw ?_ wf⟩
  rw [raw_56 f0_7, decodeVldseg]
  rw [if_neg (show ¬fld w 18 1 = 0 by rw [f18_1]; decide)]
  rw [fixed_of f22_1, fixed_of f28_4, reg_of f19_3, reg_of f7_6, reg_of f13_5, reg_of f23_5]
theorem RoundTrip.vstsegMd (n : Fin 7) (vs : VRegNo) (ra : SReg) (disp : BitVec 9) : RoundTrip.Statement (.vstsegMd n vs ra disp) := by
  intro w wf e
  replace e := Option.some.inj (show some (pack 0x00000057 [(n.val, 19), (vs.val, 7), (ra.val, 13), (disp.toNat, 23)]) = some w from e)
  simp only [pack] at e
  obtain ⟨hw, f0_7, f7_6, f13_5, f18_1, f19_3, f22_1, f23_9⟩ := word_mdv (w := w) (x0 := 87) (x1 := vs.val) (x2 := ra.val) (x3 := 0) (x4 := n.val) (x5 := 0) (x6 := disp.toNat) (by omega) (by decide) vs.isLt ra.isLt (by decide) (Nat.lt_of_lt_of_le (n.isLt) (by decide)) (by decide) disp.isLt
  refine ⟨hw, table_of_raw hw ?_ wf⟩
  rw [raw_57 f0_7, decodeVstseg]
  rw [if_pos f18_1]
  rw [fixed_of f22_1, reg_of f19_3, reg_of f7_6, reg_of f13_5, imm_of f23_9]
theorem RoundTrip.vstsegMx (n : Fin 7) (vs : VRegNo) (ra : SReg) (rb : SReg) : RoundTrip.Statement (.vstsegMx n vs ra rb) := by
  intro w wf e
  replace e := Option.some.inj (show some (pack 0x00040057 [(n.val, 19), (vs.val, 7), (ra.val, 13), (rb.val, 23)]) = some w from e)
  simp only [pack] at e
  obtain ⟨hw, f0_7, f7_6, f13_5, f18_1, f19_3, f22_1, f23_5, f28_4⟩ := word_mxv (w := w) (x0 := 87) (x1 := vs.val) (x2 := ra.val) (x3 := 1) (x4 := n.val) (x5 := 0) (x6 := rb.val) (x7 := 0) (by omega) (by decide) vs.isLt ra.isLt (by decide) (Nat.lt_of_lt_of_le (n.isLt) (by decide)) (by decide) rb.isLt (by decide)
  refine ⟨hw, table_of_raw hw ?_ wf⟩
  rw [raw_57 f0_7, decodeVstseg]
  rw [if_neg (show ¬fld w 18 1 = 0 by rw [f18_1]; decide)]
  rw [fixed_of f22_1, fixed_of f28_4, reg_of f19_3, reg_of f7_6, reg_of f13_5, reg_of f23_5]
theorem RoundTrip.amoadd (sc : BScope) (o : Order) (dw : Bool) (rd : SReg) (rb : SReg) (ra : SReg) : RoundTrip.Statement (.amoadd sc o dw rd rb ra) := by
  intro w wf e
  replace e := Option.some.inj (show some (pack 0x00000058 [(sc.code, 30), (o.code, 28), (bit dw, 27), (rd.val, 7), (rb.val, 18), (ra.val, 13)]) = some w from e)
  simp only [pack] at e
  obtain ⟨hw, f0_7, f7_5, f12_1, f13_5, f18_5, f23_4, f27_1, f28_2, f30_2⟩ := word_ma (w := w) (x0 := 88) (x1 := rd.val) (x2 := 0) (x3 := ra.val) (x4 := rb.val) (x5 := 0) (x6 := bit dw) (x7 := o.code) (x8 := sc.code) (by omega) (by decide) rd.isLt (by decide) ra.isLt rb.isLt (by decide) (Nat.lt_succ_of_le (bit_le dw)) (Order.code_lt o) (BScope.code_lt sc)
  refine ⟨hw, table_of_raw hw ?_ wf⟩
  rw [raw_58 f0_7, decodeAtomic]
  rw [f23_4]
  change (fixed (fld w 12 1) 0 <| code BScope.ofCode? (fld w 30 2) fun sc => code Order.ofCode? (fld w 28 2) fun o => reg 32 (fld w 7 5) fun rd => reg 32 (fld w 18 5) fun rb => reg 32 (fld w 13 5) fun ra => .instr (.amoadd sc o (flag (fld w 27 1)) rd rb ra)) = _
  rw [fixed_of f12_1, code_of f30_2 (bscope_code sc), code_of f28_2 (order_code o), reg_of f7_5, reg_of f18_5, reg_of f13_5, flag_of f27_1]
theorem RoundTrip.amoswap (sc : BScope) (o : Order) (dw : Bool) (rd : SReg) (rb : SReg) (ra : SReg) : RoundTrip.Statement (.amoswap sc o dw rd rb ra) := by
  intro w wf e
  replace e := Option.some.inj (show some (pack 0x00800058 [(sc.code, 30), (o.code, 28), (bit dw, 27), (rd.val, 7), (rb.val, 18), (ra.val, 13)]) = some w from e)
  simp only [pack] at e
  obtain ⟨hw, f0_7, f7_5, f12_1, f13_5, f18_5, f23_4, f27_1, f28_2, f30_2⟩ := word_ma (w := w) (x0 := 88) (x1 := rd.val) (x2 := 0) (x3 := ra.val) (x4 := rb.val) (x5 := 1) (x6 := bit dw) (x7 := o.code) (x8 := sc.code) (by omega) (by decide) rd.isLt (by decide) ra.isLt rb.isLt (by decide) (Nat.lt_succ_of_le (bit_le dw)) (Order.code_lt o) (BScope.code_lt sc)
  refine ⟨hw, table_of_raw hw ?_ wf⟩
  rw [raw_58 f0_7, decodeAtomic]
  rw [f23_4]
  change (fixed (fld w 12 1) 0 <| code BScope.ofCode? (fld w 30 2) fun sc => code Order.ofCode? (fld w 28 2) fun o => reg 32 (fld w 7 5) fun rd => reg 32 (fld w 18 5) fun rb => reg 32 (fld w 13 5) fun ra => .instr (.amoswap sc o (flag (fld w 27 1)) rd rb ra)) = _
  rw [fixed_of f12_1, code_of f30_2 (bscope_code sc), code_of f28_2 (order_code o), reg_of f7_5, reg_of f18_5, reg_of f13_5, flag_of f27_1]
theorem RoundTrip.amomax (sc : BScope) (o : Order) (dw : Bool) (rd : SReg) (rb : SReg) (ra : SReg) : RoundTrip.Statement (.amomax sc o dw rd rb ra) := by
  intro w wf e
  replace e := Option.some.inj (show some (pack 0x01000058 [(sc.code, 30), (o.code, 28), (bit dw, 27), (rd.val, 7), (rb.val, 18), (ra.val, 13)]) = some w from e)
  simp only [pack] at e
  obtain ⟨hw, f0_7, f7_5, f12_1, f13_5, f18_5, f23_4, f27_1, f28_2, f30_2⟩ := word_ma (w := w) (x0 := 88) (x1 := rd.val) (x2 := 0) (x3 := ra.val) (x4 := rb.val) (x5 := 2) (x6 := bit dw) (x7 := o.code) (x8 := sc.code) (by omega) (by decide) rd.isLt (by decide) ra.isLt rb.isLt (by decide) (Nat.lt_succ_of_le (bit_le dw)) (Order.code_lt o) (BScope.code_lt sc)
  refine ⟨hw, table_of_raw hw ?_ wf⟩
  rw [raw_58 f0_7, decodeAtomic]
  rw [f23_4]
  change (fixed (fld w 12 1) 0 <| code BScope.ofCode? (fld w 30 2) fun sc => code Order.ofCode? (fld w 28 2) fun o => reg 32 (fld w 7 5) fun rd => reg 32 (fld w 18 5) fun rb => reg 32 (fld w 13 5) fun ra => .instr (.amomax sc o (flag (fld w 27 1)) rd rb ra)) = _
  rw [fixed_of f12_1, code_of f30_2 (bscope_code sc), code_of f28_2 (order_code o), reg_of f7_5, reg_of f18_5, reg_of f13_5, flag_of f27_1]
theorem RoundTrip.amomin (sc : BScope) (o : Order) (dw : Bool) (rd : SReg) (rb : SReg) (ra : SReg) : RoundTrip.Statement (.amomin sc o dw rd rb ra) := by
  intro w wf e
  replace e := Option.some.inj (show some (pack 0x01800058 [(sc.code, 30), (o.code, 28), (bit dw, 27), (rd.val, 7), (rb.val, 18), (ra.val, 13)]) = some w from e)
  simp only [pack] at e
  obtain ⟨hw, f0_7, f7_5, f12_1, f13_5, f18_5, f23_4, f27_1, f28_2, f30_2⟩ := word_ma (w := w) (x0 := 88) (x1 := rd.val) (x2 := 0) (x3 := ra.val) (x4 := rb.val) (x5 := 3) (x6 := bit dw) (x7 := o.code) (x8 := sc.code) (by omega) (by decide) rd.isLt (by decide) ra.isLt rb.isLt (by decide) (Nat.lt_succ_of_le (bit_le dw)) (Order.code_lt o) (BScope.code_lt sc)
  refine ⟨hw, table_of_raw hw ?_ wf⟩
  rw [raw_58 f0_7, decodeAtomic]
  rw [f23_4]
  change (fixed (fld w 12 1) 0 <| code BScope.ofCode? (fld w 30 2) fun sc => code Order.ofCode? (fld w 28 2) fun o => reg 32 (fld w 7 5) fun rd => reg 32 (fld w 18 5) fun rb => reg 32 (fld w 13 5) fun ra => .instr (.amomin sc o (flag (fld w 27 1)) rd rb ra)) = _
  rw [fixed_of f12_1, code_of f30_2 (bscope_code sc), code_of f28_2 (order_code o), reg_of f7_5, reg_of f18_5, reg_of f13_5, flag_of f27_1]
theorem RoundTrip.amomaxN (sc : BScope) (o : Order) (dw : Bool) (rd : SReg) (rb : SReg) (ra : SReg) : RoundTrip.Statement (.amomaxN sc o dw rd rb ra) := by
  intro w wf e
  replace e := Option.some.inj (show some (pack 0x02000058 [(sc.code, 30), (o.code, 28), (bit dw, 27), (rd.val, 7), (rb.val, 18), (ra.val, 13)]) = some w from e)
  simp only [pack] at e
  obtain ⟨hw, f0_7, f7_5, f12_1, f13_5, f18_5, f23_4, f27_1, f28_2, f30_2⟩ := word_ma (w := w) (x0 := 88) (x1 := rd.val) (x2 := 0) (x3 := ra.val) (x4 := rb.val) (x5 := 4) (x6 := bit dw) (x7 := o.code) (x8 := sc.code) (by omega) (by decide) rd.isLt (by decide) ra.isLt rb.isLt (by decide) (Nat.lt_succ_of_le (bit_le dw)) (Order.code_lt o) (BScope.code_lt sc)
  refine ⟨hw, table_of_raw hw ?_ wf⟩
  rw [raw_58 f0_7, decodeAtomic]
  rw [f23_4]
  change (fixed (fld w 12 1) 0 <| code BScope.ofCode? (fld w 30 2) fun sc => code Order.ofCode? (fld w 28 2) fun o => reg 32 (fld w 7 5) fun rd => reg 32 (fld w 18 5) fun rb => reg 32 (fld w 13 5) fun ra => .instr (.amomaxN sc o (flag (fld w 27 1)) rd rb ra)) = _
  rw [fixed_of f12_1, code_of f30_2 (bscope_code sc), code_of f28_2 (order_code o), reg_of f7_5, reg_of f18_5, reg_of f13_5, flag_of f27_1]
theorem RoundTrip.amominN (sc : BScope) (o : Order) (dw : Bool) (rd : SReg) (rb : SReg) (ra : SReg) : RoundTrip.Statement (.amominN sc o dw rd rb ra) := by
  intro w wf e
  replace e := Option.some.inj (show some (pack 0x02800058 [(sc.code, 30), (o.code, 28), (bit dw, 27), (rd.val, 7), (rb.val, 18), (ra.val, 13)]) = some w from e)
  simp only [pack] at e
  obtain ⟨hw, f0_7, f7_5, f12_1, f13_5, f18_5, f23_4, f27_1, f28_2, f30_2⟩ := word_ma (w := w) (x0 := 88) (x1 := rd.val) (x2 := 0) (x3 := ra.val) (x4 := rb.val) (x5 := 5) (x6 := bit dw) (x7 := o.code) (x8 := sc.code) (by omega) (by decide) rd.isLt (by decide) ra.isLt rb.isLt (by decide) (Nat.lt_succ_of_le (bit_le dw)) (Order.code_lt o) (BScope.code_lt sc)
  refine ⟨hw, table_of_raw hw ?_ wf⟩
  rw [raw_58 f0_7, decodeAtomic]
  rw [f23_4]
  change (fixed (fld w 12 1) 0 <| code BScope.ofCode? (fld w 30 2) fun sc => code Order.ofCode? (fld w 28 2) fun o => reg 32 (fld w 7 5) fun rd => reg 32 (fld w 18 5) fun rb => reg 32 (fld w 13 5) fun ra => .instr (.amominN sc o (flag (fld w 27 1)) rd rb ra)) = _
  rw [fixed_of f12_1, code_of f30_2 (bscope_code sc), code_of f28_2 (order_code o), reg_of f7_5, reg_of f18_5, reg_of f13_5, flag_of f27_1]
theorem RoundTrip.amoand (sc : BScope) (o : Order) (dw : Bool) (rd : SReg) (rb : SReg) (ra : SReg) : RoundTrip.Statement (.amoand sc o dw rd rb ra) := by
  intro w wf e
  replace e := Option.some.inj (show some (pack 0x03000058 [(sc.code, 30), (o.code, 28), (bit dw, 27), (rd.val, 7), (rb.val, 18), (ra.val, 13)]) = some w from e)
  simp only [pack] at e
  obtain ⟨hw, f0_7, f7_5, f12_1, f13_5, f18_5, f23_4, f27_1, f28_2, f30_2⟩ := word_ma (w := w) (x0 := 88) (x1 := rd.val) (x2 := 0) (x3 := ra.val) (x4 := rb.val) (x5 := 6) (x6 := bit dw) (x7 := o.code) (x8 := sc.code) (by omega) (by decide) rd.isLt (by decide) ra.isLt rb.isLt (by decide) (Nat.lt_succ_of_le (bit_le dw)) (Order.code_lt o) (BScope.code_lt sc)
  refine ⟨hw, table_of_raw hw ?_ wf⟩
  rw [raw_58 f0_7, decodeAtomic]
  rw [f23_4]
  change (fixed (fld w 12 1) 0 <| code BScope.ofCode? (fld w 30 2) fun sc => code Order.ofCode? (fld w 28 2) fun o => reg 32 (fld w 7 5) fun rd => reg 32 (fld w 18 5) fun rb => reg 32 (fld w 13 5) fun ra => .instr (.amoand sc o (flag (fld w 27 1)) rd rb ra)) = _
  rw [fixed_of f12_1, code_of f30_2 (bscope_code sc), code_of f28_2 (order_code o), reg_of f7_5, reg_of f18_5, reg_of f13_5, flag_of f27_1]
theorem RoundTrip.amoor (sc : BScope) (o : Order) (dw : Bool) (rd : SReg) (rb : SReg) (ra : SReg) : RoundTrip.Statement (.amoor sc o dw rd rb ra) := by
  intro w wf e
  replace e := Option.some.inj (show some (pack 0x03800058 [(sc.code, 30), (o.code, 28), (bit dw, 27), (rd.val, 7), (rb.val, 18), (ra.val, 13)]) = some w from e)
  simp only [pack] at e
  obtain ⟨hw, f0_7, f7_5, f12_1, f13_5, f18_5, f23_4, f27_1, f28_2, f30_2⟩ := word_ma (w := w) (x0 := 88) (x1 := rd.val) (x2 := 0) (x3 := ra.val) (x4 := rb.val) (x5 := 7) (x6 := bit dw) (x7 := o.code) (x8 := sc.code) (by omega) (by decide) rd.isLt (by decide) ra.isLt rb.isLt (by decide) (Nat.lt_succ_of_le (bit_le dw)) (Order.code_lt o) (BScope.code_lt sc)
  refine ⟨hw, table_of_raw hw ?_ wf⟩
  rw [raw_58 f0_7, decodeAtomic]
  rw [f23_4]
  change (fixed (fld w 12 1) 0 <| code BScope.ofCode? (fld w 30 2) fun sc => code Order.ofCode? (fld w 28 2) fun o => reg 32 (fld w 7 5) fun rd => reg 32 (fld w 18 5) fun rb => reg 32 (fld w 13 5) fun ra => .instr (.amoor sc o (flag (fld w 27 1)) rd rb ra)) = _
  rw [fixed_of f12_1, code_of f30_2 (bscope_code sc), code_of f28_2 (order_code o), reg_of f7_5, reg_of f18_5, reg_of f13_5, flag_of f27_1]
theorem RoundTrip.cas (sc : BScope) (o : Order) (dw : Bool) (rd : SReg) (rb : SReg) (ra : SReg) : RoundTrip.Statement (.cas sc o dw rd rb ra) := by
  intro w wf e
  replace e := Option.some.inj (show some (pack 0x04000058 [(sc.code, 30), (o.code, 28), (bit dw, 27), (rd.val, 7), (rb.val, 18), (ra.val, 13)]) = some w from e)
  simp only [pack] at e
  obtain ⟨hw, f0_7, f7_5, f12_1, f13_5, f18_5, f23_4, f27_1, f28_2, f30_2⟩ := word_ma (w := w) (x0 := 88) (x1 := rd.val) (x2 := 0) (x3 := ra.val) (x4 := rb.val) (x5 := 8) (x6 := bit dw) (x7 := o.code) (x8 := sc.code) (by omega) (by decide) rd.isLt (by decide) ra.isLt rb.isLt (by decide) (Nat.lt_succ_of_le (bit_le dw)) (Order.code_lt o) (BScope.code_lt sc)
  refine ⟨hw, table_of_raw hw ?_ wf⟩
  rw [raw_58 f0_7, decodeAtomic]
  rw [f23_4]
  change (fixed (fld w 12 1) 0 <| code BScope.ofCode? (fld w 30 2) fun sc => code Order.ofCode? (fld w 28 2) fun o => reg 32 (fld w 7 5) fun rd => reg 32 (fld w 18 5) fun rb => reg 32 (fld w 13 5) fun ra => .instr (.cas sc o (flag (fld w 27 1)) rd rb ra)) = _
  rw [fixed_of f12_1, code_of f30_2 (bscope_code sc), code_of f28_2 (order_code o), reg_of f7_5, reg_of f18_5, reg_of f13_5, flag_of f27_1]
theorem RoundTrip.vgat (q : QNo) (ew : Ew) (fr : Bool) (ra : SReg) (rb : SReg) (rc : SReg) : RoundTrip.Statement (.vgat q ew fr ra rb rc) := by
  intro w wf e
  replace e := Option.some.inj (show some (pack 0x0000005A [(q.val, 7), (ew.code, 29), (bit fr, 28), (ra.val, 13), (rb.val, 18), (rc.val, 23)]) = some w from e)
  simp only [pack] at e
  obtain ⟨hw, f0_7, f7_3, f10_3, f13_5, f18_5, f23_5, f28_1, f29_2, f31_1⟩ := word_mq (w := w) (x0 := 90) (x1 := q.val) (x2 := 0) (x3 := ra.val) (x4 := rb.val) (x5 := rc.val) (x6 := bit fr) (x7 := ew.code) (x8 := 0) (by omega) (by decide) q.isLt (by decide) ra.isLt rb.isLt rc.isLt (Nat.lt_succ_of_le (bit_le fr)) (Ew.code_lt ew) (by decide)
  refine ⟨hw, table_of_raw hw ?_ wf⟩
  rw [raw_5A f0_7, decodeAccessMem]
  rw [f10_3]
  change (fixed (fld w 31 1) 0 <| reg 8 (fld w 7 3) fun q => code Ew.ofCode? (fld w 29 2) fun ew => reg 32 (fld w 13 5) fun ra => reg 32 (fld w 18 5) fun rb => reg 32 (fld w 23 5) fun rc => .instr (.vgat q ew (flag (fld w 28 1)) ra rb rc)) = _
  rw [fixed_of f31_1, reg_of f7_3, code_of f29_2 (ew_code ew), reg_of f13_5, reg_of f18_5, reg_of f23_5, flag_of f28_1]
theorem RoundTrip.vgatff (q : QNo) (ew : Ew) (fr : Bool) (ra : SReg) (rb : SReg) (rc : SReg) : RoundTrip.Statement (.vgatff q ew fr ra rb rc) := by
  intro w wf e
  replace e := Option.some.inj (show some (pack 0x0000045A [(q.val, 7), (ew.code, 29), (bit fr, 28), (ra.val, 13), (rb.val, 18), (rc.val, 23)]) = some w from e)
  simp only [pack] at e
  obtain ⟨hw, f0_7, f7_3, f10_3, f13_5, f18_5, f23_5, f28_1, f29_2, f31_1⟩ := word_mq (w := w) (x0 := 90) (x1 := q.val) (x2 := 1) (x3 := ra.val) (x4 := rb.val) (x5 := rc.val) (x6 := bit fr) (x7 := ew.code) (x8 := 0) (by omega) (by decide) q.isLt (by decide) ra.isLt rb.isLt rc.isLt (Nat.lt_succ_of_le (bit_le fr)) (Ew.code_lt ew) (by decide)
  refine ⟨hw, table_of_raw hw ?_ wf⟩
  rw [raw_5A f0_7, decodeAccessMem]
  rw [f10_3]
  change (fixed (fld w 31 1) 0 <| reg 8 (fld w 7 3) fun q => code Ew.ofCode? (fld w 29 2) fun ew => reg 32 (fld w 13 5) fun ra => reg 32 (fld w 18 5) fun rb => reg 32 (fld w 23 5) fun rc => .instr (.vgatff q ew (flag (fld w 28 1)) ra rb rc)) = _
  rw [fixed_of f31_1, reg_of f7_3, code_of f29_2 (ew_code ew), reg_of f13_5, reg_of f18_5, reg_of f23_5, flag_of f28_1]
theorem RoundTrip.vsca (q : QNo) (ew : Ew) (ra : SReg) (rb : SReg) (rc : SReg) : RoundTrip.Statement (.vsca q ew ra rb rc) := by
  intro w wf e
  replace e := Option.some.inj (show some (pack 0x0000085A [(q.val, 7), (ew.code, 29), (ra.val, 13), (rb.val, 18), (rc.val, 23)]) = some w from e)
  simp only [pack] at e
  obtain ⟨hw, f0_7, f7_3, f10_3, f13_5, f18_5, f23_5, f28_1, f29_2, f31_1⟩ := word_mq (w := w) (x0 := 90) (x1 := q.val) (x2 := 2) (x3 := ra.val) (x4 := rb.val) (x5 := rc.val) (x6 := 0) (x7 := ew.code) (x8 := 0) (by omega) (by decide) q.isLt (by decide) ra.isLt rb.isLt rc.isLt (by decide) (Ew.code_lt ew) (by decide)
  refine ⟨hw, table_of_raw hw ?_ wf⟩
  rw [raw_5A f0_7, decodeAccessMem]
  rw [f10_3]
  change (fixed (fld w 28 1) 0 <| fixed (fld w 31 1) 0 <| reg 8 (fld w 7 3) fun q => code Ew.ofCode? (fld w 29 2) fun ew => reg 32 (fld w 13 5) fun ra => reg 32 (fld w 18 5) fun rb => reg 32 (fld w 23 5) fun rc => .instr (.vsca q ew ra rb rc)) = _
  rw [fixed_of f28_1, fixed_of f31_1, reg_of f7_3, code_of f29_2 (ew_code ew), reg_of f13_5, reg_of f18_5, reg_of f23_5]
theorem RoundTrip.vscaa (q : QNo) (ew : Ew) (ra : SReg) (rb : SReg) (rc : SReg) : RoundTrip.Statement (.vscaa q ew ra rb rc) := by
  intro w wf e
  replace e := Option.some.inj (show some (pack 0x00000C5A [(q.val, 7), (ew.code, 29), (ra.val, 13), (rb.val, 18), (rc.val, 23)]) = some w from e)
  simp only [pack] at e
  obtain ⟨hw, f0_7, f7_3, f10_3, f13_5, f18_5, f23_5, f28_1, f29_2, f31_1⟩ := word_mq (w := w) (x0 := 90) (x1 := q.val) (x2 := 3) (x3 := ra.val) (x4 := rb.val) (x5 := rc.val) (x6 := 0) (x7 := ew.code) (x8 := 0) (by omega) (by decide) q.isLt (by decide) ra.isLt rb.isLt rc.isLt (by decide) (Ew.code_lt ew) (by decide)
  refine ⟨hw, table_of_raw hw ?_ wf⟩
  rw [raw_5A f0_7, decodeAccessMem]
  rw [f10_3]
  change (fixed (fld w 28 1) 0 <| fixed (fld w 31 1) 0 <| reg 8 (fld w 7 3) fun q => code Ew.ofCode? (fld w 29 2) fun ew => reg 32 (fld w 13 5) fun ra => reg 32 (fld w 18 5) fun rb => reg 32 (fld w 23 5) fun rc => .instr (.vscaa q ew ra rb rc)) = _
  rw [fixed_of f28_1, fixed_of f31_1, reg_of f7_3, code_of f29_2 (ew_code ew), reg_of f13_5, reg_of f18_5, reg_of f23_5]
theorem RoundTrip.kvx (q : QNo) (ra : SReg) (rb : SReg) (rc : SReg) : RoundTrip.Statement (.kvx q ra rb rc) := by
  intro w wf e
  replace e := Option.some.inj (show some (pack 0x6000105A [(q.val, 7), (ra.val, 13), (rb.val, 18), (rc.val, 23)]) = some w from e)
  simp only [pack] at e
  obtain ⟨hw, f0_7, f7_3, f10_3, f13_5, f18_5, f23_5, f28_4⟩ := word_mk (w := w) (x0 := 90) (x1 := q.val) (x2 := 4) (x3 := ra.val) (x4 := rb.val) (x5 := rc.val) (x6 := 6) (by omega) (by decide) q.isLt (by decide) ra.isLt rb.isLt rc.isLt (by decide)
  refine ⟨hw, table_of_raw hw ?_ wf⟩
  rw [raw_5A f0_7, decodeAccessMem]
  rw [f10_3]
  change (fixed (fld w 28 4) 6 <| reg 8 (fld w 7 3) fun q => reg 32 (fld w 13 5) fun ra => reg 32 (fld w 18 5) fun rb => reg 32 (fld w 23 5) fun rc => .instr (.kvx q ra rb rc)) = _
  rw [fixed_of f28_4, reg_of f7_3, reg_of f13_5, reg_of f18_5, reg_of f23_5]
theorem RoundTrip.cut (bd : BRegNo) (ra : SReg) (rb : SReg) : RoundTrip.Statement (.cut bd ra rb) := by
  intro w wf e
  replace e := Option.some.inj (show some (pack 0x0000005C [(bd.val, 7), (ra.val, 12), (rb.val, 17)]) = some w from e)
  simp only [pack] at e
  obtain ⟨hw, f0_7, f7_5, f12_5, f17_5, f22_10⟩ := word_s3 (w := w) (x0 := 92) (x1 := bd.val) (x2 := ra.val) (x3 := rb.val) (x4 := 0) (by omega) (by decide) (Nat.lt_of_lt_of_le (bd.isLt) (by decide)) ra.isLt rb.isLt (by decide)
  refine ⟨hw, table_of_raw hw ?_ wf⟩
  rw [raw_5C f0_7, decodeCutter]
  rw [f22_10]
  change (reg 8 (fld w 7 5) fun bd => reg 32 (fld w 12 5) fun ra => reg 32 (fld w 17 5) fun rb => .instr (.cut bd ra rb)) = _
  rw [reg_of f7_5, reg_of f12_5, reg_of f17_5]
theorem RoundTrip.cutp (bd : BRegNo) (ra : SReg) (rb : SReg) : RoundTrip.Statement (.cutp bd ra rb) := by
  intro w wf e
  replace e := Option.some.inj (show some (pack 0x0040005C [(bd.val, 7), (ra.val, 12), (rb.val, 17)]) = some w from e)
  simp only [pack] at e
  obtain ⟨hw, f0_7, f7_5, f12_5, f17_5, f22_10⟩ := word_s3 (w := w) (x0 := 92) (x1 := bd.val) (x2 := ra.val) (x3 := rb.val) (x4 := 1) (by omega) (by decide) (Nat.lt_of_lt_of_le (bd.isLt) (by decide)) ra.isLt rb.isLt (by decide)
  refine ⟨hw, table_of_raw hw ?_ wf⟩
  rw [raw_5C f0_7, decodeCutter]
  rw [f22_10]
  change (reg 8 (fld w 7 5) fun bd => reg 32 (fld w 12 5) fun ra => reg 32 (fld w 17 5) fun rb => .instr (.cutp bd ra rb)) = _
  rw [reg_of f7_5, reg_of f12_5, reg_of f17_5]
theorem RoundTrip.cutd (bd : BRegNo) (ra : SReg) (rb : SReg) : RoundTrip.Statement (.cutd bd ra rb) := by
  intro w wf e
  replace e := Option.some.inj (show some (pack 0x0080005C [(bd.val, 7), (ra.val, 12), (rb.val, 17)]) = some w from e)
  simp only [pack] at e
  obtain ⟨hw, f0_7, f7_5, f12_5, f17_5, f22_10⟩ := word_s3 (w := w) (x0 := 92) (x1 := bd.val) (x2 := ra.val) (x3 := rb.val) (x4 := 2) (by omega) (by decide) (Nat.lt_of_lt_of_le (bd.isLt) (by decide)) ra.isLt rb.isLt (by decide)
  refine ⟨hw, table_of_raw hw ?_ wf⟩
  rw [raw_5C f0_7, decodeCutter]
  rw [f22_10]
  change (reg 8 (fld w 7 5) fun bd => reg 32 (fld w 12 5) fun ra => reg 32 (fld w 17 5) fun rb => .instr (.cutd bd ra rb)) = _
  rw [reg_of f7_5, reg_of f12_5, reg_of f17_5]
theorem RoundTrip.mshapeCore (rd : SReg) (ra : SReg) (rb : SReg) : RoundTrip.Statement (.mshapeCore rd ra rb) := by
  intro w wf e
  replace e := Option.some.inj (show some (pack 0x00000060 [(rd.val, 7), (ra.val, 13), (rb.val, 19)]) = some w from e)
  simp only [pack] at e
  obtain ⟨hw, f0_7, f7_6, f13_6, f19_6, f25_7⟩ := word_v3 (w := w) (x0 := 96) (x1 := rd.val) (x2 := ra.val) (x3 := rb.val) (x4 := 0) (by omega) (by decide) (Nat.lt_of_lt_of_le (rd.isLt) (by decide)) (Nat.lt_of_lt_of_le (ra.isLt) (by decide)) (Nat.lt_of_lt_of_le (rb.isLt) (by decide)) (by decide)
  refine ⟨hw, table_of_raw hw ?_ wf⟩
  rw [raw_60 f0_7, decodeMatrix]
  rw [f25_7]
  change (reg 32 (fld w 7 6) fun rd => reg 32 (fld w 13 6) fun ra => reg 32 (fld w 19 6) fun rb => .instr (.mshapeCore rd ra rb)) = _
  rw [reg_of f7_6, reg_of f13_6, reg_of f19_6]
theorem RoundTrip.mshapeDie (rd : SReg) (ra : SReg) (rb : SReg) : RoundTrip.Statement (.mshapeDie rd ra rb) := by
  intro w wf e
  replace e := Option.some.inj (show some (pack 0x02000060 [(rd.val, 7), (ra.val, 13), (rb.val, 19)]) = some w from e)
  simp only [pack] at e
  obtain ⟨hw, f0_7, f7_6, f13_6, f19_6, f25_7⟩ := word_v3 (w := w) (x0 := 96) (x1 := rd.val) (x2 := ra.val) (x3 := rb.val) (x4 := 1) (by omega) (by decide) (Nat.lt_of_lt_of_le (rd.isLt) (by decide)) (Nat.lt_of_lt_of_le (ra.isLt) (by decide)) (Nat.lt_of_lt_of_le (rb.isLt) (by decide)) (by decide)
  refine ⟨hw, table_of_raw hw ?_ wf⟩
  rw [raw_60 f0_7, decodeMatrix]
  rw [f25_7]
  change (reg 32 (fld w 7 6) fun rd => reg 32 (fld w 13 6) fun ra => reg 32 (fld w 19 6) fun rb => .instr (.mshapeDie rd ra rb)) = _
  rw [reg_of f7_6, reg_of f13_6, reg_of f19_6]
theorem RoundTrip.mlds (rd : SReg) (ra : SReg) : RoundTrip.Statement (.mlds rd ra) := by
  intro w wf e
  replace e := Option.some.inj (show some (pack 0x04000060 [(rd.val, 7), (ra.val, 13)]) = some w from e)
  simp only [pack] at e
  obtain ⟨hw, f0_7, f7_6, f13_6, f19_6, f25_7⟩ := word_v3 (w := w) (x0 := 96) (x1 := rd.val) (x2 := ra.val) (x3 := 0) (x4 := 2) (by omega) (by decide) (Nat.lt_of_lt_of_le (rd.isLt) (by decide)) (Nat.lt_of_lt_of_le (ra.isLt) (by decide)) (by decide) (by decide)
  refine ⟨hw, table_of_raw hw ?_ wf⟩
  rw [raw_60 f0_7, decodeMatrix]
  rw [f25_7]
  change (fixed (fld w 19 6) 0 <| reg 32 (fld w 7 6) fun rd => reg 32 (fld w 13 6) fun ra => .instr (.mlds rd ra)) = _
  rw [fixed_of f19_6, reg_of f7_6, reg_of f13_6]
theorem RoundTrip.mswap : RoundTrip.Statement .mswap := by
  intro w wf e
  replace e := Option.some.inj (show some (pack 0x06000060 []) = some w from e)
  simp only [pack] at e
  obtain ⟨hw, f0_7, f7_18, f25_7⟩ := word_m0 (w := w) (x0 := 96) (x1 := 0) (x2 := 3) (by omega) (by decide) (by decide) (by decide)
  refine ⟨hw, table_of_raw hw ?_ wf⟩
  rw [raw_60 f0_7, decodeMatrix]
  rw [f25_7]
  change (fixed (fld w 7 18) 0 <| .instr .mswap) = _
  rw [fixed_of f7_18]
theorem RoundTrip.mstreamLocal (cd : CRegNo) (ra : SReg) (rb : SReg) : RoundTrip.Statement (.mstreamLocal cd ra rb) := by
  intro w wf e
  replace e := Option.some.inj (show some (pack 0x08000060 [(cd.val, 7), (ra.val, 13), (rb.val, 19)]) = some w from e)
  simp only [pack] at e
  obtain ⟨hw, f0_7, f7_6, f13_6, f19_6, f25_7⟩ := word_v3 (w := w) (x0 := 96) (x1 := cd.val) (x2 := ra.val) (x3 := rb.val) (x4 := 4) (by omega) (by decide) (Nat.lt_of_lt_of_le (cd.isLt) (by decide)) (Nat.lt_of_lt_of_le (ra.isLt) (by decide)) (Nat.lt_of_lt_of_le (rb.isLt) (by decide)) (by decide)
  refine ⟨hw, table_of_raw hw ?_ wf⟩
  rw [raw_60 f0_7, decodeMatrix]
  rw [f25_7]
  change (reg 2 (fld w 7 6) fun cd => reg 32 (fld w 13 6) fun ra => reg 32 (fld w 19 6) fun rb => .instr (.mstreamLocal cd ra rb)) = _
  rw [reg_of f7_6, reg_of f13_6, reg_of f19_6]
theorem RoundTrip.mstreamVector (cd : CRegNo) (va : VRegNo) (rb : SReg) : RoundTrip.Statement (.mstreamVector cd va rb) := by
  intro w wf e
  replace e := Option.some.inj (show some (pack 0x0A000060 [(cd.val, 7), (va.val, 13), (rb.val, 19)]) = some w from e)
  simp only [pack] at e
  obtain ⟨hw, f0_7, f7_6, f13_6, f19_6, f25_7⟩ := word_v3 (w := w) (x0 := 96) (x1 := cd.val) (x2 := va.val) (x3 := rb.val) (x4 := 5) (by omega) (by decide) (Nat.lt_of_lt_of_le (cd.isLt) (by decide)) va.isLt (Nat.lt_of_lt_of_le (rb.isLt) (by decide)) (by decide)
  refine ⟨hw, table_of_raw hw ?_ wf⟩
  rw [raw_60 f0_7, decodeMatrix]
  rw [f25_7]
  change (reg 2 (fld w 7 6) fun cd => reg 64 (fld w 13 6) fun va => reg 32 (fld w 19 6) fun rb => .instr (.mstreamVector cd va rb)) = _
  rw [reg_of f7_6, reg_of f13_6, reg_of f19_6]
theorem RoundTrip.mzero (cd : CRegNo) : RoundTrip.Statement (.mzero cd) := by
  intro w wf e
  replace e := Option.some.inj (show some (pack 0x0C000060 [(cd.val, 7)]) = some w from e)
  simp only [pack] at e
  obtain ⟨hw, f0_7, f7_6, f13_12, f25_7⟩ := word_vi (w := w) (x0 := 96) (x1 := cd.val) (x2 := 0) (x3 := 6) (by omega) (by decide) (Nat.lt_of_lt_of_le (cd.isLt) (by decide)) (by decide) (by decide)
  refine ⟨hw, table_of_raw hw ?_ wf⟩
  rw [raw_60 f0_7, decodeMatrix]
  rw [f25_7]
  change (fixed (fld w 13 12) 0 <| reg 2 (fld w 7 6) fun cd => .instr (.mzero cd)) = _
  rw [fixed_of f13_12, reg_of f7_6]
theorem RoundTrip.mrd (vd : VRegNo) (ca : CRegNo) (rb : SReg) : RoundTrip.Statement (.mrd vd ca rb) := by
  intro w wf e
  replace e := Option.some.inj (show some (pack 0x0E000060 [(vd.val, 7), (ca.val, 13), (rb.val, 19)]) = some w from e)
  simp only [pack] at e
  obtain ⟨hw, f0_7, f7_6, f13_6, f19_6, f25_7⟩ := word_v3 (w := w) (x0 := 96) (x1 := vd.val) (x2 := ca.val) (x3 := rb.val) (x4 := 7) (by omega) (by decide) vd.isLt (Nat.lt_of_lt_of_le (ca.isLt) (by decide)) (Nat.lt_of_lt_of_le (rb.isLt) (by decide)) (by decide)
  refine ⟨hw, table_of_raw hw ?_ wf⟩
  rw [raw_60 f0_7, decodeMatrix]
  rw [f25_7]
  change (reg 64 (fld w 7 6) fun vd => reg 2 (fld w 13 6) fun ca => reg 32 (fld w 19 6) fun rb => .instr (.mrd vd ca rb)) = _
  rw [reg_of f7_6, reg_of f13_6, reg_of f19_6]
theorem RoundTrip.mwr (cd : CRegNo) (va : VRegNo) (rb : SReg) : RoundTrip.Statement (.mwr cd va rb) := by
  intro w wf e
  replace e := Option.some.inj (show some (pack 0x10000060 [(cd.val, 7), (va.val, 13), (rb.val, 19)]) = some w from e)
  simp only [pack] at e
  obtain ⟨hw, f0_7, f7_6, f13_6, f19_6, f25_7⟩ := word_v3 (w := w) (x0 := 96) (x1 := cd.val) (x2 := va.val) (x3 := rb.val) (x4 := 8) (by omega) (by decide) (Nat.lt_of_lt_of_le (cd.isLt) (by decide)) va.isLt (Nat.lt_of_lt_of_le (rb.isLt) (by decide)) (by decide)
  refine ⟨hw, table_of_raw hw ?_ wf⟩
  rw [raw_60 f0_7, decodeMatrix]
  rw [f25_7]
  change (reg 2 (fld w 7 6) fun cd => reg 64 (fld w 13 6) fun va => reg 32 (fld w 19 6) fun rb => .instr (.mwr cd va rb)) = _
  rw [reg_of f7_6, reg_of f13_6, reg_of f19_6]
theorem RoundTrip.opin (ra : SReg) : RoundTrip.Statement (.opin ra) := by
  intro w wf e
  replace e := Option.some.inj (show some (pack 0x00000062 [(ra.val, 7)]) = some w from e)
  simp only [pack] at e
  obtain ⟨hw, f0_7, f7_5, f12_10, f22_4, f26_6⟩ := word_p2 (w := w) (x0 := 98) (x1 := ra.val) (x2 := 0) (x3 := 0) (x4 := 0) (by omega) (by decide) ra.isLt (by decide) (by decide) (by decide)
  refine ⟨hw, table_of_raw hw ?_ wf⟩
  rw [raw_62 f0_7, decodePage]
  rw [f22_4]
  change (fixed (fld w 12 10) 0 <| fixed (fld w 26 6) 0 <| reg 32 (fld w 7 5) fun ra => .instr (.opin ra)) = _
  rw [fixed_of f12_10, fixed_of f26_6, reg_of f7_5]
theorem RoundTrip.ounpin (ra : SReg) : RoundTrip.Statement (.ounpin ra) := by
  intro w wf e
  replace e := Option.some.inj (show some (pack 0x00400062 [(ra.val, 7)]) = some w from e)
  simp only [pack] at e
  obtain ⟨hw, f0_7, f7_5, f12_10, f22_4, f26_6⟩ := word_p2 (w := w) (x0 := 98) (x1 := ra.val) (x2 := 0) (x3 := 1) (x4 := 0) (by omega) (by decide) ra.isLt (by decide) (by decide) (by decide)
  refine ⟨hw, table_of_raw hw ?_ wf⟩
  rw [raw_62 f0_7, decodePage]
  rw [f22_4]
  change (fixed (fld w 12 10) 0 <| fixed (fld w 26 6) 0 <| reg 32 (fld w 7 5) fun ra => .instr (.ounpin ra)) = _
  rw [fixed_of f12_10, fixed_of f26_6, reg_of f7_5]
theorem RoundTrip.ocommitPriv (ra : SReg) : RoundTrip.Statement (.ocommitPriv ra) := by
  intro w wf e
  replace e := Option.some.inj (show some (pack 0x00800062 [(ra.val, 7)]) = some w from e)
  simp only [pack] at e
  obtain ⟨hw, f0_7, f7_5, f12_10, f22_4, f26_6⟩ := word_p2 (w := w) (x0 := 98) (x1 := ra.val) (x2 := 0) (x3 := 2) (x4 := 0) (by omega) (by decide) ra.isLt (by decide) (by decide) (by decide)
  refine ⟨hw, table_of_raw hw ?_ wf⟩
  rw [raw_62 f0_7, decodePage]
  rw [f22_4]
  change (fixed (fld w 12 10) 0 <| fixed (fld w 26 6) 0 <| reg 32 (fld w 7 5) fun ra => .instr (.ocommitPriv ra)) = _
  rw [fixed_of f12_10, fixed_of f26_6, reg_of f7_5]
theorem RoundTrip.ocommitPub (ra : SReg) : RoundTrip.Statement (.ocommitPub ra) := by
  intro w wf e
  replace e := Option.some.inj (show some (pack 0x00C00062 [(ra.val, 7)]) = some w from e)
  simp only [pack] at e
  obtain ⟨hw, f0_7, f7_5, f12_10, f22_4, f26_6⟩ := word_p2 (w := w) (x0 := 98) (x1 := ra.val) (x2 := 0) (x3 := 3) (x4 := 0) (by omega) (by decide) ra.isLt (by decide) (by decide) (by decide)
  refine ⟨hw, table_of_raw hw ?_ wf⟩
  rw [raw_62 f0_7, decodePage]
  rw [f22_4]
  change (fixed (fld w 12 10) 0 <| fixed (fld w 26 6) 0 <| reg 32 (fld w 7 5) fun ra => .instr (.ocommitPub ra)) = _
  rw [fixed_of f12_10, fixed_of f26_6, reg_of f7_5]
theorem RoundTrip.odiscard (ra : SReg) : RoundTrip.Statement (.odiscard ra) := by
  intro w wf e
  replace e := Option.some.inj (show some (pack 0x01000062 [(ra.val, 7)]) = some w from e)
  simp only [pack] at e
  obtain ⟨hw, f0_7, f7_5, f12_10, f22_4, f26_6⟩ := word_p2 (w := w) (x0 := 98) (x1 := ra.val) (x2 := 0) (x3 := 4) (x4 := 0) (by omega) (by decide) ra.isLt (by decide) (by decide) (by decide)
  refine ⟨hw, table_of_raw hw ?_ wf⟩
  rw [raw_62 f0_7, decodePage]
  rw [f22_4]
  change (fixed (fld w 12 10) 0 <| fixed (fld w 26 6) 0 <| reg 32 (fld w 7 5) fun ra => .instr (.odiscard ra)) = _
  rw [fixed_of f12_10, fixed_of f26_6, reg_of f7_5]
theorem RoundTrip.oquery (rd : SReg) (ra : SReg) (rb : SReg) : RoundTrip.Statement (.oquery rd ra rb) := by
  intro w wf e
  replace e := Option.some.inj (show some (pack 0x01400062 [(rd.val, 7), (ra.val, 12), (rb.val, 17)]) = some w from e)
  simp only [pack] at e
  obtain ⟨hw, f0_7, f7_5, f12_5, f17_5, f22_4, f26_6⟩ := word_p (w := w) (x0 := 98) (x1 := rd.val) (x2 := ra.val) (x3 := rb.val) (x4 := 5) (x5 := 0) (by omega) (by decide) rd.isLt ra.isLt rb.isLt (by decide) (by decide)
  refine ⟨hw, table_of_raw hw ?_ wf⟩
  rw [raw_62 f0_7, decodePage]
  rw [f22_4]
  change (fixed (fld w 26 6) 0 <| reg 32 (fld w 7 5) fun rd => reg 32 (fld w 12 5) fun ra => reg 32 (fld w 17 5) fun rb => .instr (.oquery rd ra rb)) = _
  rw [fixed_of f26_6, reg_of f7_5, reg_of f12_5, reg_of f17_5]
theorem RoundTrip.frref (o : Order) (sc : Scope) (rd : SReg) (ra : SReg) (rb : SReg) : RoundTrip.Statement (.frref o sc rd ra rb) := by
  intro w wf e
  replace e := Option.some.inj (show some (pack 0x01800062 [(o.code, 26), (sc.code, 28), (rd.val, 7), (ra.val, 12), (rb.val, 17)]) = some w from e)
  simp only [pack] at e
  obtain ⟨hw, f0_7, f7_5, f12_5, f17_5, f22_4, f26_2, f28_3, f31_1⟩ := word_fr (w := w) (x0 := 98) (x1 := rd.val) (x2 := ra.val) (x3 := rb.val) (x4 := 6) (x5 := o.code) (x6 := sc.code) (x7 := 0) (by omega) (by decide) rd.isLt ra.isLt rb.isLt (by decide) (Order.code_lt o) (Nat.lt_of_lt_of_le (Scope.code_lt sc) (by decide)) (by decide)
  refine ⟨hw, table_of_raw hw ?_ wf⟩
  rw [raw_62 f0_7, decodePage]
  rw [f22_4]
  change (fixed (fld w 31 1) 0 <| code Order.ofCode? (fld w 26 2) fun o => code Scope.ofCode? (fld w 28 3) fun sc => reg 32 (fld w 7 5) fun rd => reg 32 (fld w 12 5) fun ra => reg 32 (fld w 17 5) fun rb => .instr (.frref o sc rd ra rb)) = _
  rw [fixed_of f31_1, code_of f26_2 (order_code o), code_of f28_3 (scope_code sc), reg_of f7_5, reg_of f12_5, reg_of f17_5]
theorem RoundTrip.cpy (rd : SReg) (ra : SReg) (rb : SReg) : RoundTrip.Statement (.cpy rd ra rb) := by
  intro w wf e
  replace e := Option.some.inj (show some (pack 0x00000064 [(rd.val, 7), (ra.val, 12), (rb.val, 17)]) = some w from e)
  simp only [pack] at e
  obtain ⟨hw, f0_7, f7_5, f12_5, f17_5, f22_10⟩ := word_s3 (w := w) (x0 := 100) (x1 := rd.val) (x2 := ra.val) (x3 := rb.val) (x4 := 0) (by omega) (by decide) rd.isLt ra.isLt rb.isLt (by decide)
  refine ⟨hw, table_of_raw hw ?_ wf⟩
  rw [raw_64 f0_7, decodeTransfer]
  rw [f22_10]
  change (reg 32 (fld w 7 5) fun rd => reg 32 (fld w 12 5) fun ra => reg 32 (fld w 17 5) fun rb => .instr (.cpy rd ra rb)) = _
  rw [reg_of f7_5, reg_of f12_5, reg_of f17_5]
theorem RoundTrip.cpyx (rd : SReg) (ra : SReg) (rb : SReg) : RoundTrip.Statement (.cpyx rd ra rb) := by
  intro w wf e
  replace e := Option.some.inj (show some (pack 0x00400064 [(rd.val, 7), (ra.val, 12), (rb.val, 17)]) = some w from e)
  simp only [pack] at e
  obtain ⟨hw, f0_7, f7_5, f12_5, f17_5, f22_10⟩ := word_s3 (w := w) (x0 := 100) (x1 := rd.val) (x2 := ra.val) (x3 := rb.val) (x4 := 1) (by omega) (by decide) rd.isLt ra.isLt rb.isLt (by decide)
  refine ⟨hw, table_of_raw hw ?_ wf⟩
  rw [raw_64 f0_7, decodeTransfer]
  rw [f22_10]
  change (reg 32 (fld w 7 5) fun rd => reg 32 (fld w 12 5) fun ra => reg 32 (fld w 17 5) fun rb => .instr (.cpyx rd ra rb)) = _
  rw [reg_of f7_5, reg_of f12_5, reg_of f17_5]
theorem RoundTrip.cpyz (rd : SReg) (ra : SReg) (rb : SReg) : RoundTrip.Statement (.cpyz rd ra rb) := by
  intro w wf e
  replace e := Option.some.inj (show some (pack 0x00800064 [(rd.val, 7), (ra.val, 12), (rb.val, 17)]) = some w from e)
  simp only [pack] at e
  obtain ⟨hw, f0_7, f7_5, f12_5, f17_5, f22_10⟩ := word_s3 (w := w) (x0 := 100) (x1 := rd.val) (x2 := ra.val) (x3 := rb.val) (x4 := 2) (by omega) (by decide) rd.isLt ra.isLt rb.isLt (by decide)
  refine ⟨hw, table_of_raw hw ?_ wf⟩
  rw [raw_64 f0_7, decodeTransfer]
  rw [f22_10]
  change (reg 32 (fld w 7 5) fun rd => reg 32 (fld w 12 5) fun ra => reg 32 (fld w 17 5) fun rb => .instr (.cpyz rd ra rb)) = _
  rw [reg_of f7_5, reg_of f12_5, reg_of f17_5]
theorem RoundTrip.cpyp (rd : SReg) (ra : SReg) (rb : SReg) : RoundTrip.Statement (.cpyp rd ra rb) := by
  intro w wf e
  replace e := Option.some.inj (show some (pack 0x00C00064 [(rd.val, 7), (ra.val, 12), (rb.val, 17)]) = some w from e)
  simp only [pack] at e
  obtain ⟨hw, f0_7, f7_5, f12_5, f17_5, f22_10⟩ := word_s3 (w := w) (x0 := 100) (x1 := rd.val) (x2 := ra.val) (x3 := rb.val) (x4 := 3) (by omega) (by decide) rd.isLt ra.isLt rb.isLt (by decide)
  refine ⟨hw, table_of_raw hw ?_ wf⟩
  rw [raw_64 f0_7, decodeTransfer]
  rw [f22_10]
  change (reg 32 (fld w 7 5) fun rd => reg 32 (fld w 12 5) fun ra => reg 32 (fld w 17 5) fun rb => .instr (.cpyp rd ra rb)) = _
  rw [reg_of f7_5, reg_of f12_5, reg_of f17_5]
theorem RoundTrip.cpyd (rd : SReg) (ra : SReg) (rb : SReg) : RoundTrip.Statement (.cpyd rd ra rb) := by
  intro w wf e
  replace e := Option.some.inj (show some (pack 0x01000064 [(rd.val, 7), (ra.val, 12), (rb.val, 17)]) = some w from e)
  simp only [pack] at e
  obtain ⟨hw, f0_7, f7_5, f12_5, f17_5, f22_10⟩ := word_s3 (w := w) (x0 := 100) (x1 := rd.val) (x2 := ra.val) (x3 := rb.val) (x4 := 4) (by omega) (by decide) rd.isLt ra.isLt rb.isLt (by decide)
  refine ⟨hw, table_of_raw hw ?_ wf⟩
  rw [raw_64 f0_7, decodeTransfer]
  rw [f22_10]
  change (reg 32 (fld w 7 5) fun rd => reg 32 (fld w 12 5) fun ra => reg 32 (fld w 17 5) fun rb => .instr (.cpyd rd ra rb)) = _
  rw [reg_of f7_5, reg_of f12_5, reg_of f17_5]
theorem RoundTrip.kvcompact (rd : SReg) (ra : SReg) (rb : SReg) : RoundTrip.Statement (.kvcompact rd ra rb) := by
  intro w wf e
  replace e := Option.some.inj (show some (pack 0x01400064 [(rd.val, 7), (ra.val, 12), (rb.val, 17)]) = some w from e)
  simp only [pack] at e
  obtain ⟨hw, f0_7, f7_5, f12_5, f17_5, f22_10⟩ := word_s3 (w := w) (x0 := 100) (x1 := rd.val) (x2 := ra.val) (x3 := rb.val) (x4 := 5) (by omega) (by decide) rd.isLt ra.isLt rb.isLt (by decide)
  refine ⟨hw, table_of_raw hw ?_ wf⟩
  rw [raw_64 f0_7, decodeTransfer]
  rw [f22_10]
  change (reg 32 (fld w 7 5) fun rd => reg 32 (fld w 12 5) fun ra => reg 32 (fld w 17 5) fun rb => .instr (.kvcompact rd ra rb)) = _
  rw [reg_of f7_5, reg_of f12_5, reg_of f17_5]
theorem RoundTrip.lrfence : RoundTrip.Statement .lrfence := by
  intro w wf e
  replace e := Option.some.inj (show some (pack 0x01800064 []) = some w from e)
  simp only [pack] at e
  obtain ⟨hw, f0_7, f7_15, f22_10⟩ := word_t0 (w := w) (x0 := 100) (x1 := 0) (x2 := 6) (by omega) (by decide) (by decide) (by decide)
  refine ⟨hw, table_of_raw hw ?_ wf⟩
  rw [raw_64 f0_7, decodeTransfer]
  rw [f22_10]
  change (fixed (fld w 7 15) 0 <| .instr .lrfence) = _
  rw [fixed_of f7_15]
theorem RoundTrip.evwait (rd : SReg) (ra : SReg) : RoundTrip.Statement (.evwait rd ra) := by
  intro w wf e
  replace e := Option.some.inj (show some (pack 0x01C00064 [(rd.val, 7), (ra.val, 12)]) = some w from e)
  simp only [pack] at e
  obtain ⟨hw, f0_7, f7_5, f12_5, f17_5, f22_10⟩ := word_s3 (w := w) (x0 := 100) (x1 := rd.val) (x2 := ra.val) (x3 := 0) (x4 := 7) (by omega) (by decide) rd.isLt ra.isLt (by decide) (by decide)
  refine ⟨hw, table_of_raw hw ?_ wf⟩
  rw [raw_64 f0_7, decodeTransfer]
  rw [f22_10]
  change (fixed (fld w 17 5) 0 <| reg 32 (fld w 7 5) fun rd => reg 32 (fld w 12 5) fun ra => .instr (.evwait rd ra)) = _
  rw [fixed_of f17_5, reg_of f7_5, reg_of f12_5]
theorem RoundTrip.evpoll (rd : SReg) (ra : SReg) : RoundTrip.Statement (.evpoll rd ra) := by
  intro w wf e
  replace e := Option.some.inj (show some (pack 0x02000064 [(rd.val, 7), (ra.val, 12)]) = some w from e)
  simp only [pack] at e
  obtain ⟨hw, f0_7, f7_5, f12_5, f17_5, f22_10⟩ := word_s3 (w := w) (x0 := 100) (x1 := rd.val) (x2 := ra.val) (x3 := 0) (x4 := 8) (by omega) (by decide) rd.isLt ra.isLt (by decide) (by decide)
  refine ⟨hw, table_of_raw hw ?_ wf⟩
  rw [raw_64 f0_7, decodeTransfer]
  rw [f22_10]
  change (fixed (fld w 17 5) 0 <| reg 32 (fld w 7 5) fun rd => reg 32 (fld w 12 5) fun ra => .instr (.evpoll rd ra)) = _
  rw [fixed_of f17_5, reg_of f7_5, reg_of f12_5]
theorem RoundTrip.klaunch (rd : SReg) (ra : SReg) : RoundTrip.Statement (.klaunch rd ra) := by
  intro w wf e
  replace e := Option.some.inj (show some (pack 0x00000066 [(rd.val, 7), (ra.val, 12)]) = some w from e)
  simp only [pack] at e
  obtain ⟨hw, f0_7, f7_5, f12_5, f17_5, f22_4, f26_6⟩ := word_p (w := w) (x0 := 102) (x1 := rd.val) (x2 := ra.val) (x3 := 0) (x4 := 0) (x5 := 0) (by omega) (by decide) rd.isLt ra.isLt (by decide) (by decide) (by decide)
  refine ⟨hw, table_of_raw hw ?_ wf⟩
  rw [raw_66 f0_7, decodeKernel]
  rw [f22_4]
  change (fixed (fld w 17 5) 0 <| fixed (fld w 26 6) 0 <| reg 32 (fld w 7 5) fun rd => reg 32 (fld w 12 5) fun ra => .instr (.klaunch rd ra)) = _
  rw [fixed_of f17_5, fixed_of f26_6, reg_of f7_5, reg_of f12_5]
theorem RoundTrip.ktrig : RoundTrip.Statement .ktrig := by
  intro w wf e
  replace e := Option.some.inj (show some (pack 0x00400066 []) = some w from e)
  simp only [pack] at e
  obtain ⟨hw, f0_7, f7_15, f22_4, f26_6⟩ := word_p3 (w := w) (x0 := 102) (x1 := 0) (x2 := 1) (x3 := 0) (by omega) (by decide) (by decide) (by decide) (by decide)
  refine ⟨hw, table_of_raw hw ?_ wf⟩
  rw [raw_66 f0_7, decodeKernel]
  rw [f22_4]
  change (fixed (fld w 7 15) 0 <| fixed (fld w 26 6) 0 <| .instr .ktrig) = _
  rw [fixed_of f7_15, fixed_of f26_6]
theorem RoundTrip.claim (rd : SReg) (ra : SReg) (rb : SReg) : RoundTrip.Statement (.claim rd ra rb) := by
  intro w wf e
  replace e := Option.some.inj (show some (pack 0x00800066 [(rd.val, 7), (ra.val, 12), (rb.val, 17)]) = some w from e)
  simp only [pack] at e
  obtain ⟨hw, f0_7, f7_5, f12_5, f17_5, f22_4, f26_6⟩ := word_p (w := w) (x0 := 102) (x1 := rd.val) (x2 := ra.val) (x3 := rb.val) (x4 := 2) (x5 := 0) (by omega) (by decide) rd.isLt ra.isLt rb.isLt (by decide) (by decide)
  refine ⟨hw, table_of_raw hw ?_ wf⟩
  rw [raw_66 f0_7, decodeKernel]
  rw [f22_4]
  change (fixed (fld w 26 6) 0 <| reg 32 (fld w 7 5) fun rd => reg 32 (fld w 12 5) fun ra => reg 32 (fld w 17 5) fun rb => .instr (.claim rd ra rb)) = _
  rw [fixed_of f26_6, reg_of f7_5, reg_of f12_5, reg_of f17_5]
theorem RoundTrip.vrelease : RoundTrip.Statement .vrelease := by
  intro w wf e
  replace e := Option.some.inj (show some (pack 0x00C00066 []) = some w from e)
  simp only [pack] at e
  obtain ⟨hw, f0_7, f7_15, f22_4, f26_6⟩ := word_p3 (w := w) (x0 := 102) (x1 := 0) (x2 := 3) (x3 := 0) (by omega) (by decide) (by decide) (by decide) (by decide)
  refine ⟨hw, table_of_raw hw ?_ wf⟩
  rw [raw_66 f0_7, decodeKernel]
  rw [f22_4]
  change (fixed (fld w 7 15) 0 <| fixed (fld w 26 6) 0 <| .instr .vrelease) = _
  rw [fixed_of f7_15, fixed_of f26_6]
theorem RoundTrip.hend : RoundTrip.Statement .hend := by
  intro w wf e
  replace e := Option.some.inj (show some (pack 0x01000066 []) = some w from e)
  simp only [pack] at e
  obtain ⟨hw, f0_7, f7_15, f22_4, f26_6⟩ := word_p3 (w := w) (x0 := 102) (x1 := 0) (x2 := 4) (x3 := 0) (by omega) (by decide) (by decide) (by decide) (by decide)
  refine ⟨hw, table_of_raw hw ?_ wf⟩
  rw [raw_66 f0_7, decodeKernel]
  rw [f22_4]
  change (fixed (fld w 7 15) 0 <| fixed (fld w 26 6) 0 <| .instr .hend) = _
  rw [fixed_of f7_15, fixed_of f26_6]
theorem RoundTrip.gsplit (rd : SReg) (ra : SReg) : RoundTrip.Statement (.gsplit rd ra) := by
  intro w wf e
  replace e := Option.some.inj (show some (pack 0x01400066 [(rd.val, 7), (ra.val, 12)]) = some w from e)
  simp only [pack] at e
  obtain ⟨hw, f0_7, f7_5, f12_5, f17_5, f22_4, f26_6⟩ := word_p (w := w) (x0 := 102) (x1 := rd.val) (x2 := ra.val) (x3 := 0) (x4 := 5) (x5 := 0) (by omega) (by decide) rd.isLt ra.isLt (by decide) (by decide) (by decide)
  refine ⟨hw, table_of_raw hw ?_ wf⟩
  rw [raw_66 f0_7, decodeKernel]
  rw [f22_4]
  change (fixed (fld w 17 5) 0 <| fixed (fld w 26 6) 0 <| reg 32 (fld w 7 5) fun rd => reg 32 (fld w 12 5) fun ra => .instr (.gsplit rd ra)) = _
  rw [fixed_of f17_5, fixed_of f26_6, reg_of f7_5, reg_of f12_5]
theorem RoundTrip.barr (sc : BScope) (n : Fin 16) : RoundTrip.Statement (.barr sc n) := by
  intro w wf e
  replace e := Option.some.inj (show some (pack 0x01800066 [(sc.scopeCode, 28), (n.val, 17)]) = some w from e)
  simp only [pack, BScope.scopeCode] at e
  obtain ⟨hw, f0_7, f7_10, f17_5, f22_4, f26_2, f28_3, f31_1⟩ := word_b (w := w) (x0 := 102) (x1 := 0) (x2 := n.val) (x3 := 6) (x4 := 0) (x5 := sc.code + 1) (x6 := 0) (by omega) (by decide) (by decide) (Nat.lt_of_lt_of_le (n.isLt) (by decide)) (by decide) (by decide) (by have := BScope.code_lt sc; omega) (by decide)
  refine ⟨hw, table_of_raw hw ?_ wf⟩
  rw [raw_66 f0_7, decodeKernel]
  rw [f22_4]
  change (fixed (fld w 7 10) 0 <| fixed (fld w 26 2) 0 <| fixed (fld w 31 1) 0 <| code BScope.ofScope? (fld w 28 3) fun sc => reg 16 (fld w 17 5) fun n => .instr (.barr sc n)) = _
  rw [fixed_of f7_10, fixed_of f26_2, fixed_of f31_1, code_of f28_3 (bscopeS_code sc), reg_of f17_5]
theorem RoundTrip.bwait (sc : BScope) (n : Fin 16) : RoundTrip.Statement (.bwait sc n) := by
  intro w wf e
  replace e := Option.some.inj (show some (pack 0x01C00066 [(sc.scopeCode, 28), (n.val, 17)]) = some w from e)
  simp only [pack, BScope.scopeCode] at e
  obtain ⟨hw, f0_7, f7_10, f17_5, f22_4, f26_2, f28_3, f31_1⟩ := word_b (w := w) (x0 := 102) (x1 := 0) (x2 := n.val) (x3 := 7) (x4 := 0) (x5 := sc.code + 1) (x6 := 0) (by omega) (by decide) (by decide) (Nat.lt_of_lt_of_le (n.isLt) (by decide)) (by decide) (by decide) (by have := BScope.code_lt sc; omega) (by decide)
  refine ⟨hw, table_of_raw hw ?_ wf⟩
  rw [raw_66 f0_7, decodeKernel]
  rw [f22_4]
  change (fixed (fld w 7 10) 0 <| fixed (fld w 26 2) 0 <| fixed (fld w 31 1) 0 <| code BScope.ofScope? (fld w 28 3) fun sc => reg 16 (fld w 17 5) fun n => .instr (.bwait sc n)) = _
  rw [fixed_of f7_10, fixed_of f26_2, fixed_of f31_1, code_of f28_3 (bscopeS_code sc), reg_of f17_5]
theorem RoundTrip.bsync (sc : BScope) (n : Fin 16) : RoundTrip.Statement (.bsync sc n) := by
  intro w wf e
  replace e := Option.some.inj (show some (pack 0x02000066 [(sc.scopeCode, 28), (n.val, 17)]) = some w from e)
  simp only [pack, BScope.scopeCode] at e
  obtain ⟨hw, f0_7, f7_10, f17_5, f22_4, f26_2, f28_3, f31_1⟩ := word_b (w := w) (x0 := 102) (x1 := 0) (x2 := n.val) (x3 := 8) (x4 := 0) (x5 := sc.code + 1) (x6 := 0) (by omega) (by decide) (by decide) (Nat.lt_of_lt_of_le (n.isLt) (by decide)) (by decide) (by decide) (by have := BScope.code_lt sc; omega) (by decide)
  refine ⟨hw, table_of_raw hw ?_ wf⟩
  rw [raw_66 f0_7, decodeKernel]
  rw [f22_4]
  change (fixed (fld w 7 10) 0 <| fixed (fld w 26 2) 0 <| fixed (fld w 31 1) 0 <| code BScope.ofScope? (fld w 28 3) fun sc => reg 16 (fld w 17 5) fun n => .instr (.bsync sc n)) = _
  rw [fixed_of f7_10, fixed_of f26_2, fixed_of f31_1, code_of f28_3 (bscopeS_code sc), reg_of f17_5]
theorem RoundTrip.sattn (va : VRegNo) (rb : SReg) : RoundTrip.Statement (.sattn va rb) := by
  intro w wf e
  replace e := Option.some.inj (show some (pack 0x00000068 [(va.val, 13), (rb.val, 19)]) = some w from e)
  simp only [pack] at e
  obtain ⟨hw, f0_7, f7_6, f13_6, f19_6, f25_7⟩ := word_v3 (w := w) (x0 := 104) (x1 := 0) (x2 := va.val) (x3 := rb.val) (x4 := 0) (by omega) (by decide) (by decide) va.isLt (Nat.lt_of_lt_of_le (rb.isLt) (by decide)) (by decide)
  refine ⟨hw, table_of_raw hw ?_ wf⟩
  rw [raw_68 f0_7, decodeAttention]
  rw [f25_7]
  change (fixed (fld w 7 6) 0 <| reg 64 (fld w 13 6) fun va => reg 32 (fld w 19 6) fun rb => .instr (.sattn va rb)) = _
  rw [fixed_of f7_6, reg_of f13_6, reg_of f19_6]
theorem RoundTrip.spld (sp : SpNo) (ra : SReg) : RoundTrip.Statement (.spld sp ra) := by
  intro w wf e
  replace e := Option.some.inj (show some (pack 0x02000068 [(sp.val, 7), (ra.val, 13)]) = some w from e)
  simp only [pack] at e
  obtain ⟨hw, f0_7, f7_6, f13_6, f19_6, f25_7⟩ := word_v3 (w := w) (x0 := 104) (x1 := sp.val) (x2 := ra.val) (x3 := 0) (x4 := 1) (by omega) (by decide) (Nat.lt_of_lt_of_le (sp.isLt) (by decide)) (Nat.lt_of_lt_of_le (ra.isLt) (by decide)) (by decide) (by decide)
  refine ⟨hw, table_of_raw hw ?_ wf⟩
  rw [raw_68 f0_7, decodeAttention]
  rw [f25_7]
  change (fixed (fld w 19 6) 0 <| reg 4 (fld w 7 6) fun sp => reg 32 (fld w 13 6) fun ra => .instr (.spld sp ra)) = _
  rw [fixed_of f19_6, reg_of f7_6, reg_of f13_6]
theorem RoundTrip.dtinit (dd : DRegNo) (ra : SReg) : RoundTrip.Statement (.dtinit dd ra) := by
  intro w wf e
  replace e := Option.some.inj (show some (pack 0x0000006A [(dd.val, 7), (ra.val, 13)]) = some w from e)
  simp only [pack] at e
  obtain ⟨hw, f0_7, f7_6, f13_6, f19_6, f25_7⟩ := word_v3 (w := w) (x0 := 106) (x1 := dd.val) (x2 := ra.val) (x3 := 0) (x4 := 0) (by omega) (by decide) (Nat.lt_of_lt_of_le (dd.isLt) (by decide)) (Nat.lt_of_lt_of_le (ra.isLt) (by decide)) (by decide) (by decide)
  refine ⟨hw, table_of_raw hw ?_ wf⟩
  rw [raw_6A f0_7, decodeTree]
  rw [f25_7]
  change (fixed (fld w 19 6) 0 <| reg 8 (fld w 7 6) fun dd => reg 32 (fld w 13 6) fun ra => .instr (.dtinit dd ra)) = _
  rw [fixed_of f19_6, reg_of f7_6, reg_of f13_6]
theorem RoundTrip.dtadd (dd : DRegNo) (va : VRegNo) (vb : VRegNo) : RoundTrip.Statement (.dtadd dd va vb) := by
  intro w wf e
  replace e := Option.some.inj (show some (pack 0x0200006A [(dd.val, 7), (va.val, 13), (vb.val, 19)]) = some w from e)
  simp only [pack] at e
  obtain ⟨hw, f0_7, f7_6, f13_6, f19_6, f25_7⟩ := word_v3 (w := w) (x0 := 106) (x1 := dd.val) (x2 := va.val) (x3 := vb.val) (x4 := 1) (by omega) (by decide) (Nat.lt_of_lt_of_le (dd.isLt) (by decide)) va.isLt vb.isLt (by decide)
  refine ⟨hw, table_of_raw hw ?_ wf⟩
  rw [raw_6A f0_7, decodeTree]
  rw [f25_7]
  change (reg 8 (fld w 7 6) fun dd => reg 64 (fld w 13 6) fun va => reg 64 (fld w 19 6) fun vb => .instr (.dtadd dd va vb)) = _
  rw [reg_of f7_6, reg_of f13_6, reg_of f19_6]
theorem RoundTrip.dtmaskPred (pd : PRegNo) (da : DRegNo) (rb : SReg) : RoundTrip.Statement (.dtmaskPred pd da rb) := by
  intro w wf e
  replace e := Option.some.inj (show some (pack 0x0400006A [(pd.val, 7), (da.val, 13), (rb.val, 19)]) = some w from e)
  simp only [pack] at e
  obtain ⟨hw, f0_7, f7_6, f13_6, f19_6, f25_7⟩ := word_v3 (w := w) (x0 := 106) (x1 := pd.val) (x2 := da.val) (x3 := rb.val) (x4 := 2) (by omega) (by decide) pd.isLt (Nat.lt_of_lt_of_le (da.isLt) (by decide)) (Nat.lt_of_lt_of_le (rb.isLt) (by decide)) (by decide)
  refine ⟨hw, table_of_raw hw ?_ wf⟩
  rw [raw_6A f0_7, decodeTree]
  rw [f25_7]
  change (reg 64 (fld w 7 6) fun pd => reg 8 (fld w 13 6) fun da => reg 32 (fld w 19 6) fun rb => .instr (.dtmaskPred pd da rb)) = _
  rw [reg_of f7_6, reg_of f13_6, reg_of f19_6]
theorem RoundTrip.dtmaskVec (vd : VRegNo) (da : DRegNo) (rb : SReg) : RoundTrip.Statement (.dtmaskVec vd da rb) := by
  intro w wf e
  replace e := Option.some.inj (show some (pack 0x0600006A [(vd.val, 7), (da.val, 13), (rb.val, 19)]) = some w from e)
  simp only [pack] at e
  obtain ⟨hw, f0_7, f7_6, f13_6, f19_6, f25_7⟩ := word_v3 (w := w) (x0 := 106) (x1 := vd.val) (x2 := da.val) (x3 := rb.val) (x4 := 3) (by omega) (by decide) vd.isLt (Nat.lt_of_lt_of_le (da.isLt) (by decide)) (Nat.lt_of_lt_of_le (rb.isLt) (by decide)) (by decide)
  refine ⟨hw, table_of_raw hw ?_ wf⟩
  rw [raw_6A f0_7, decodeTree]
  rw [f25_7]
  change (reg 64 (fld w 7 6) fun vd => reg 8 (fld w 13 6) fun da => reg 32 (fld w 19 6) fun rb => .instr (.dtmaskVec vd da rb)) = _
  rw [reg_of f7_6, reg_of f13_6, reg_of f19_6]
theorem RoundTrip.dtpos (vd : VRegNo) (da : DRegNo) : RoundTrip.Statement (.dtpos vd da) := by
  intro w wf e
  replace e := Option.some.inj (show some (pack 0x0800006A [(vd.val, 7), (da.val, 13)]) = some w from e)
  simp only [pack] at e
  obtain ⟨hw, f0_7, f7_6, f13_6, f19_6, f25_7⟩ := word_v3 (w := w) (x0 := 106) (x1 := vd.val) (x2 := da.val) (x3 := 0) (x4 := 4) (by omega) (by decide) vd.isLt (Nat.lt_of_lt_of_le (da.isLt) (by decide)) (by decide) (by decide)
  refine ⟨hw, table_of_raw hw ?_ wf⟩
  rw [raw_6A f0_7, decodeTree]
  rw [f25_7]
  change (fixed (fld w 19 6) 0 <| reg 64 (fld w 7 6) fun vd => reg 8 (fld w 13 6) fun da => .instr (.dtpos vd da)) = _
  rw [fixed_of f19_6, reg_of f7_6, reg_of f13_6]
theorem RoundTrip.dtacc (rd : SReg) (da : DRegNo) (va : VRegNo) : RoundTrip.Statement (.dtacc rd da va) := by
  intro w wf e
  replace e := Option.some.inj (show some (pack 0x0A00006A [(rd.val, 7), (da.val, 13), (va.val, 19)]) = some w from e)
  simp only [pack] at e
  obtain ⟨hw, f0_7, f7_6, f13_6, f19_6, f25_7⟩ := word_v3 (w := w) (x0 := 106) (x1 := rd.val) (x2 := da.val) (x3 := va.val) (x4 := 5) (by omega) (by decide) (Nat.lt_of_lt_of_le (rd.isLt) (by decide)) (Nat.lt_of_lt_of_le (da.isLt) (by decide)) va.isLt (by decide)
  refine ⟨hw, table_of_raw hw ?_ wf⟩
  rw [raw_6A f0_7, decodeTree]
  rw [f25_7]
  change (reg 32 (fld w 7 6) fun rd => reg 8 (fld w 13 6) fun da => reg 64 (fld w 19 6) fun va => .instr (.dtacc rd da va)) = _
  rw [reg_of f7_6, reg_of f13_6, reg_of f19_6]
theorem RoundTrip.dtprune (dd : DRegNo) (ra : SReg) : RoundTrip.Statement (.dtprune dd ra) := by
  intro w wf e
  replace e := Option.some.inj (show some (pack 0x0C00006A [(dd.val, 7), (ra.val, 13)]) = some w from e)
  simp only [pack] at e
  obtain ⟨hw, f0_7, f7_6, f13_6, f19_6, f25_7⟩ := word_v3 (w := w) (x0 := 106) (x1 := dd.val) (x2 := ra.val) (x3 := 0) (x4 := 6) (by omega) (by decide) (Nat.lt_of_lt_of_le (dd.isLt) (by decide)) (Nat.lt_of_lt_of_le (ra.isLt) (by decide)) (by decide) (by decide)
  refine ⟨hw, table_of_raw hw ?_ wf⟩
  rw [raw_6A f0_7, decodeTree]
  rw [f25_7]
  change (fixed (fld w 19 6) 0 <| reg 8 (fld w 7 6) fun dd => reg 32 (fld w 13 6) fun ra => .instr (.dtprune dd ra)) = _
  rw [fixed_of f19_6, reg_of f7_6, reg_of f13_6]
theorem RoundTrip.dtld (dd : DRegNo) (ra : SReg) : RoundTrip.Statement (.dtld dd ra) := by
  intro w wf e
  replace e := Option.some.inj (show some (pack 0x0E00006A [(dd.val, 7), (ra.val, 13)]) = some w from e)
  simp only [pack] at e
  obtain ⟨hw, f0_7, f7_6, f13_6, f19_6, f25_7⟩ := word_v3 (w := w) (x0 := 106) (x1 := dd.val) (x2 := ra.val) (x3 := 0) (x4 := 7) (by omega) (by decide) (Nat.lt_of_lt_of_le (dd.isLt) (by decide)) (Nat.lt_of_lt_of_le (ra.isLt) (by decide)) (by decide) (by decide)
  refine ⟨hw, table_of_raw hw ?_ wf⟩
  rw [raw_6A f0_7, decodeTree]
  rw [f25_7]
  change (fixed (fld w 19 6) 0 <| reg 8 (fld w 7 6) fun dd => reg 32 (fld w 13 6) fun ra => .instr (.dtld dd ra)) = _
  rw [fixed_of f19_6, reg_of f7_6, reg_of f13_6]
theorem RoundTrip.dtst (dd : DRegNo) (ra : SReg) : RoundTrip.Statement (.dtst dd ra) := by
  intro w wf e
  replace e := Option.some.inj (show some (pack 0x1000006A [(dd.val, 7), (ra.val, 13)]) = some w from e)
  simp only [pack] at e
  obtain ⟨hw, f0_7, f7_6, f13_6, f19_6, f25_7⟩ := word_v3 (w := w) (x0 := 106) (x1 := dd.val) (x2 := ra.val) (x3 := 0) (x4 := 8) (by omega) (by decide) (Nat.lt_of_lt_of_le (dd.isLt) (by decide)) (Nat.lt_of_lt_of_le (ra.isLt) (by decide)) (by decide) (by decide)
  refine ⟨hw, table_of_raw hw ?_ wf⟩
  rw [raw_6A f0_7, decodeTree]
  rw [f25_7]
  change (fixed (fld w 19 6) 0 <| reg 8 (fld w 7 6) fun dd => reg 32 (fld w 13 6) fun ra => .instr (.dtst dd ra)) = _
  rw [fixed_of f19_6, reg_of f7_6, reg_of f13_6]
theorem RoundTrip.dtinfo (rd : SReg) (da : DRegNo) : RoundTrip.Statement (.dtinfo rd da) := by
  intro w wf e
  replace e := Option.some.inj (show some (pack 0x1200006A [(rd.val, 7), (da.val, 13)]) = some w from e)
  simp only [pack] at e
  obtain ⟨hw, f0_7, f7_6, f13_6, f19_6, f25_7⟩ := word_v3 (w := w) (x0 := 106) (x1 := rd.val) (x2 := da.val) (x3 := 0) (x4 := 9) (by omega) (by decide) (Nat.lt_of_lt_of_le (rd.isLt) (by decide)) (Nat.lt_of_lt_of_le (da.isLt) (by decide)) (by decide) (by decide)
  refine ⟨hw, table_of_raw hw ?_ wf⟩
  rw [raw_6A f0_7, decodeTree]
  rw [f25_7]
  change (fixed (fld w 19 6) 0 <| reg 32 (fld w 7 6) fun rd => reg 8 (fld w 13 6) fun da => .instr (.dtinfo rd da)) = _
  rw [fixed_of f19_6, reg_of f7_6, reg_of f13_6]
theorem RoundTrip.ecall (n : BitVec 10) : RoundTrip.Statement (.ecall n) := by
  intro w wf e
  replace e := Option.some.inj (show some (pack 0x00000070 [(n.toNat, 22)]) = some w from e)
  simp only [pack] at e
  have b_n := n.isLt
  have h : n ≠ 1023 := of_decide_eq_true wf
  have h' : n.toNat ≠ 1023 := fun h' => h (BitVec.eq_of_toNat_eq h')
  refine ⟨by omega, table_of_raw (by omega) ?_ wf⟩
  rw [raw_70 (by simp only [fld]; omega), decodeSystem]
  rw [show fld w 17 5 = 0x0 by simp only [fld]; omega]
  change (fixed (fld w 7 10) 0 <| if fld w 22 10 = 0x3FF then .instr .breakpoint else .instr (.ecall (BitVec.ofNat 10 (fld w 22 10)))) = _
  rw [fixed_of (show fld w 7 10 = 0 by simp only [fld]; omega), if_neg (show ¬fld w 22 10 = 0x3FF by simp only [fld]; omega),
    imm_of (show fld w 22 10 = n.toNat by simp only [fld]; omega)]
theorem RoundTrip.breakpoint : RoundTrip.Statement .breakpoint := by
  intro w wf e
  have e : 0xFFC00070 = w := Option.some.inj e
  subst e
  exact ⟨by decide, by decide⟩
theorem RoundTrip.eret : RoundTrip.Statement .eret := by
  intro w wf e
  replace e := Option.some.inj (show some (pack 0x00020070 []) = some w from e)
  simp only [pack] at e
  obtain ⟨hw, f0_7, f7_10, f17_5, f22_10⟩ := word_x0 (w := w) (x0 := 112) (x1 := 0) (x2 := 1) (x3 := 0) (by omega) (by decide) (by decide) (by decide) (by decide)
  refine ⟨hw, table_of_raw hw ?_ wf⟩
  rw [raw_70 f0_7, decodeSystem]
  rw [f17_5]
  change (fixed (fld w 7 10) 0 <| fixed (fld w 22 10) 0 <| .instr .eret) = _
  rw [fixed_of f7_10, fixed_of f22_10]
theorem RoundTrip.trapack : RoundTrip.Statement .trapack := by
  intro w wf e
  replace e := Option.some.inj (show some (pack 0x00040070 []) = some w from e)
  simp only [pack] at e
  obtain ⟨hw, f0_7, f7_10, f17_5, f22_10⟩ := word_x0 (w := w) (x0 := 112) (x1 := 0) (x2 := 2) (x3 := 0) (by omega) (by decide) (by decide) (by decide) (by decide)
  refine ⟨hw, table_of_raw hw ?_ wf⟩
  rw [raw_70 f0_7, decodeSystem]
  rw [f17_5]
  change (fixed (fld w 7 10) 0 <| fixed (fld w 22 10) 0 <| .instr .trapack) = _
  rw [fixed_of f7_10, fixed_of f22_10]
theorem RoundTrip.yield : RoundTrip.Statement .yield := by
  intro w wf e
  replace e := Option.some.inj (show some (pack 0x00060070 []) = some w from e)
  simp only [pack] at e
  obtain ⟨hw, f0_7, f7_10, f17_5, f22_10⟩ := word_x0 (w := w) (x0 := 112) (x1 := 0) (x2 := 3) (x3 := 0) (by omega) (by decide) (by decide) (by decide) (by decide)
  refine ⟨hw, table_of_raw hw ?_ wf⟩
  rw [raw_70 f0_7, decodeSystem]
  rw [f17_5]
  change (fixed (fld w 7 10) 0 <| fixed (fld w 22 10) 0 <| .instr .yield) = _
  rw [fixed_of f7_10, fixed_of f22_10]
theorem RoundTrip.fence (sc : Scope) (k : FenceKind) : RoundTrip.Statement (.fence sc k) := by
  intro w wf e
  replace e := Option.some.inj (show some (pack 0x00080070 [(sc.code, 22), (k.code, 25)]) = some w from e)
  simp only [pack] at e
  obtain ⟨hw, f0_7, f7_10, f17_5, f22_3, f25_2, f27_5⟩ := word_fe (w := w) (x0 := 112) (x1 := 0) (x2 := 4) (x3 := sc.code) (x4 := k.code) (x5 := 0) (by omega) (by decide) (by decide) (by decide) (Nat.lt_of_lt_of_le (Scope.code_lt sc) (by decide)) (FenceKind.code_lt k) (by decide)
  refine ⟨hw, table_of_raw hw ?_ wf⟩
  rw [raw_70 f0_7, decodeSystem]
  rw [f17_5]
  change (fixed (fld w 7 10) 0 <| fixed (fld w 27 5) 0 <| code Scope.ofCode? (fld w 22 3) fun sc => code FenceKind.ofCode? (fld w 25 2) fun k => .instr (.fence sc k)) = _
  rw [fixed_of f7_10, fixed_of f27_5, code_of f22_3 (scope_code sc), code_of f25_2 (kind_code k)]
theorem RoundTrip.csrr (rd : SReg) (csr : Csr) : RoundTrip.Statement (.csrr rd csr) := by
  intro w wf e
  replace e := Option.some.inj (show some (pack 0x00100070 [(rd.val, 7), (csr.code, 22)]) = some w from e)
  simp only [pack] at e
  obtain ⟨hw, f0_7, f7_5, f12_5, f17_5, f22_10⟩ := word_s3 (w := w) (x0 := 112) (x1 := rd.val) (x2 := 0) (x3 := 8) (x4 := csr.code) (by omega) (by decide) rd.isLt (by decide) (by decide) (Csr.code_lt csr)
  refine ⟨hw, table_of_raw hw ?_ wf⟩
  rw [raw_70 f0_7, decodeSystem]
  rw [f17_5]
  change (fixed (fld w 12 5) 0 <| reg 32 (fld w 7 5) fun rd => code Csr.ofCode? (fld w 22 10) fun csr => .instr (.csrr rd csr)) = _
  rw [fixed_of f12_5, reg_of f7_5, code_of f22_10 (csr_code csr)]
theorem RoundTrip.csrw (csr : Csr) (ra : SReg) : RoundTrip.Statement (.csrw csr ra) := by
  intro w wf e
  replace e := Option.some.inj (show some (pack 0x00120070 [(csr.code, 22), (ra.val, 12)]) = some w from e)
  simp only [pack] at e
  obtain ⟨hw, f0_7, f7_5, f12_5, f17_5, f22_10⟩ := word_s3 (w := w) (x0 := 112) (x1 := 0) (x2 := ra.val) (x3 := 9) (x4 := csr.code) (by omega) (by decide) (by decide) ra.isLt (by decide) (Csr.code_lt csr)
  refine ⟨hw, table_of_raw hw ?_ wf⟩
  rw [raw_70 f0_7, decodeSystem]
  rw [f17_5]
  change (fixed (fld w 7 5) 0 <| code Csr.ofCode? (fld w 22 10) fun csr => reg 32 (fld w 12 5) fun ra => .instr (.csrw csr ra)) = _
  rw [fixed_of f7_5, code_of f22_10 (csr_code csr), reg_of f12_5]
theorem RoundTrip.csrs (rd : SReg) (csr : Csr) (ra : SReg) : RoundTrip.Statement (.csrs rd csr ra) := by
  intro w wf e
  replace e := Option.some.inj (show some (pack 0x00140070 [(rd.val, 7), (csr.code, 22), (ra.val, 12)]) = some w from e)
  simp only [pack] at e
  obtain ⟨hw, f0_7, f7_5, f12_5, f17_5, f22_10⟩ := word_s3 (w := w) (x0 := 112) (x1 := rd.val) (x2 := ra.val) (x3 := 10) (x4 := csr.code) (by omega) (by decide) rd.isLt ra.isLt (by decide) (Csr.code_lt csr)
  refine ⟨hw, table_of_raw hw ?_ wf⟩
  rw [raw_70 f0_7, decodeSystem]
  rw [f17_5]
  change (reg 32 (fld w 7 5) fun rd => code Csr.ofCode? (fld w 22 10) fun csr => reg 32 (fld w 12 5) fun ra => .instr (.csrs rd csr ra)) = _
  rw [reg_of f7_5, code_of f22_10 (csr_code csr), reg_of f12_5]
theorem RoundTrip.csrc (rd : SReg) (csr : Csr) (ra : SReg) : RoundTrip.Statement (.csrc rd csr ra) := by
  intro w wf e
  replace e := Option.some.inj (show some (pack 0x00160070 [(rd.val, 7), (csr.code, 22), (ra.val, 12)]) = some w from e)
  simp only [pack] at e
  obtain ⟨hw, f0_7, f7_5, f12_5, f17_5, f22_10⟩ := word_s3 (w := w) (x0 := 112) (x1 := rd.val) (x2 := ra.val) (x3 := 11) (x4 := csr.code) (by omega) (by decide) rd.isLt ra.isLt (by decide) (Csr.code_lt csr)
  refine ⟨hw, table_of_raw hw ?_ wf⟩
  rw [raw_70 f0_7, decodeSystem]
  rw [f17_5]
  change (reg 32 (fld w 7 5) fun rd => code Csr.ofCode? (fld w 22 10) fun csr => reg 32 (fld w 12 5) fun ra => .instr (.csrc rd csr ra)) = _
  rw [reg_of f7_5, code_of f22_10 (csr_code csr), reg_of f12_5]
theorem RoundTrip.ctxsave (ra : SReg) : RoundTrip.Statement (.ctxsave ra) := by
  intro w wf e
  replace e := Option.some.inj (show some (pack 0x00200070 [(ra.val, 12)]) = some w from e)
  simp only [pack] at e
  obtain ⟨hw, f0_7, f7_5, f12_5, f17_5, f22_10⟩ := word_s3 (w := w) (x0 := 112) (x1 := 0) (x2 := ra.val) (x3 := 16) (x4 := 0) (by omega) (by decide) (by decide) ra.isLt (by decide) (by decide)
  refine ⟨hw, table_of_raw hw ?_ wf⟩
  rw [raw_70 f0_7, decodeSystem]
  rw [f17_5]
  change (fixed (fld w 7 5) 0 <| fixed (fld w 22 10) 0 <| reg 32 (fld w 12 5) fun ra => .instr (.ctxsave ra)) = _
  rw [fixed_of f7_5, fixed_of f22_10, reg_of f12_5]
theorem RoundTrip.ctxload (ra : SReg) : RoundTrip.Statement (.ctxload ra) := by
  intro w wf e
  replace e := Option.some.inj (show some (pack 0x00220070 [(ra.val, 12)]) = some w from e)
  simp only [pack] at e
  obtain ⟨hw, f0_7, f7_5, f12_5, f17_5, f22_10⟩ := word_s3 (w := w) (x0 := 112) (x1 := 0) (x2 := ra.val) (x3 := 17) (x4 := 0) (by omega) (by decide) (by decide) ra.isLt (by decide) (by decide)
  refine ⟨hw, table_of_raw hw ?_ wf⟩
  rw [raw_70 f0_7, decodeSystem]
  rw [f17_5]
  change (fixed (fld w 7 5) 0 <| fixed (fld w 22 10) 0 <| reg 32 (fld w 12 5) fun ra => .instr (.ctxload ra)) = _
  rw [fixed_of f7_5, fixed_of f22_10, reg_of f12_5]
theorem RoundTrip.keyset (rd : SReg) (ra : SReg) : RoundTrip.Statement (.keyset rd ra) := by
  intro w wf e
  replace e := Option.some.inj (show some (pack 0x00240070 [(rd.val, 7), (ra.val, 12)]) = some w from e)
  simp only [pack] at e
  obtain ⟨hw, f0_7, f7_5, f12_5, f17_5, f22_10⟩ := word_s3 (w := w) (x0 := 112) (x1 := rd.val) (x2 := ra.val) (x3 := 18) (x4 := 0) (by omega) (by decide) rd.isLt ra.isLt (by decide) (by decide)
  refine ⟨hw, table_of_raw hw ?_ wf⟩
  rw [raw_70 f0_7, decodeSystem]
  rw [f17_5]
  change (fixed (fld w 22 10) 0 <| reg 32 (fld w 7 5) fun rd => reg 32 (fld w 12 5) fun ra => .instr (.keyset rd ra)) = _
  rw [fixed_of f22_10, reg_of f7_5, reg_of f12_5]
theorem RoundTrip.asidset (rd : SReg) (ra : SReg) : RoundTrip.Statement (.asidset rd ra) := by
  intro w wf e
  replace e := Option.some.inj (show some (pack 0x00260070 [(rd.val, 7), (ra.val, 12)]) = some w from e)
  simp only [pack] at e
  obtain ⟨hw, f0_7, f7_5, f12_5, f17_5, f22_10⟩ := word_s3 (w := w) (x0 := 112) (x1 := rd.val) (x2 := ra.val) (x3 := 19) (x4 := 0) (by omega) (by decide) rd.isLt ra.isLt (by decide) (by decide)
  refine ⟨hw, table_of_raw hw ?_ wf⟩
  rw [raw_70 f0_7, decodeSystem]
  rw [f17_5]
  change (fixed (fld w 22 10) 0 <| reg 32 (fld w 7 5) fun rd => reg 32 (fld w 12 5) fun ra => .instr (.asidset rd ra)) = _
  rw [fixed_of f22_10, reg_of f7_5, reg_of f12_5]
theorem RoundTrip.ckfreeze (ra : SReg) : RoundTrip.Statement (.ckfreeze ra) := by
  intro w wf e
  replace e := Option.some.inj (show some (pack 0x00280070 [(ra.val, 12)]) = some w from e)
  simp only [pack] at e
  obtain ⟨hw, f0_7, f7_5, f12_5, f17_5, f22_10⟩ := word_s3 (w := w) (x0 := 112) (x1 := 0) (x2 := ra.val) (x3 := 20) (x4 := 0) (by omega) (by decide) (by decide) ra.isLt (by decide) (by decide)
  refine ⟨hw, table_of_raw hw ?_ wf⟩
  rw [raw_70 f0_7, decodeSystem]
  rw [f17_5]
  change (fixed (fld w 7 5) 0 <| fixed (fld w 22 10) 0 <| reg 32 (fld w 12 5) fun ra => .instr (.ckfreeze ra)) = _
  rw [fixed_of f7_5, fixed_of f22_10, reg_of f12_5]
theorem RoundTrip.ckwait (rd : SReg) (ra : SReg) : RoundTrip.Statement (.ckwait rd ra) := by
  intro w wf e
  replace e := Option.some.inj (show some (pack 0x002A0070 [(rd.val, 7), (ra.val, 12)]) = some w from e)
  simp only [pack] at e
  obtain ⟨hw, f0_7, f7_5, f12_5, f17_5, f22_10⟩ := word_s3 (w := w) (x0 := 112) (x1 := rd.val) (x2 := ra.val) (x3 := 21) (x4 := 0) (by omega) (by decide) rd.isLt ra.isLt (by decide) (by decide)
  refine ⟨hw, table_of_raw hw ?_ wf⟩
  rw [raw_70 f0_7, decodeSystem]
  rw [f17_5]
  change (fixed (fld w 22 10) 0 <| reg 32 (fld w 7 5) fun rd => reg 32 (fld w 12 5) fun ra => .instr (.ckwait rd ra)) = _
  rw [fixed_of f22_10, reg_of f7_5, reg_of f12_5]
theorem RoundTrip.ckrestore (ra : SReg) : RoundTrip.Statement (.ckrestore ra) := by
  intro w wf e
  replace e := Option.some.inj (show some (pack 0x002C0070 [(ra.val, 12)]) = some w from e)
  simp only [pack] at e
  obtain ⟨hw, f0_7, f7_5, f12_5, f17_5, f22_10⟩ := word_s3 (w := w) (x0 := 112) (x1 := 0) (x2 := ra.val) (x3 := 22) (x4 := 0) (by omega) (by decide) (by decide) ra.isLt (by decide) (by decide)
  refine ⟨hw, table_of_raw hw ?_ wf⟩
  rw [raw_70 f0_7, decodeSystem]
  rw [f17_5]
  change (fixed (fld w 7 5) 0 <| fixed (fld w 22 10) 0 <| reg 32 (fld w 12 5) fun ra => .instr (.ckrestore ra)) = _
  rw [fixed_of f7_5, fixed_of f22_10, reg_of f12_5]
theorem RoundTrip.gatherFill : RoundTrip.Statement .gatherFill := RoundTrip.of_none rfl
theorem RoundTrip.scatterStatusFill : RoundTrip.Statement .scatterStatusFill := RoundTrip.of_none rfl
theorem RoundTrip.kvxFill : RoundTrip.Statement .kvxFill := RoundTrip.of_none rfl
theorem RoundTrip.matrixQueueExecute : RoundTrip.Statement .matrixQueueExecute := RoundTrip.of_none rfl
theorem RoundTrip.copyChunkDone : RoundTrip.Statement .copyChunkDone := RoundTrip.of_none rfl
theorem RoundTrip.copyCompletion : RoundTrip.Statement .copyCompletion := RoundTrip.of_none rfl
theorem RoundTrip.moveInstall : RoundTrip.Statement .moveInstall := RoundTrip.of_none rfl
theorem RoundTrip.oldFrameRelease : RoundTrip.Statement .oldFrameRelease := RoundTrip.of_none rfl
theorem RoundTrip.kvcompactEvent : RoundTrip.Statement .kvcompactEvent := RoundTrip.of_none rfl
theorem RoundTrip.sliceBlockRead : RoundTrip.Statement .sliceBlockRead := RoundTrip.of_none rfl
theorem RoundTrip.passCompletion : RoundTrip.Statement .passCompletion := RoundTrip.of_none rfl
theorem RoundTrip.prefFillArrival : RoundTrip.Statement .prefFillArrival := RoundTrip.of_none rfl
theorem RoundTrip.evictionSweep : RoundTrip.Statement .evictionSweep := RoundTrip.of_none rfl
theorem RoundTrip.queueDeadlock : RoundTrip.Statement .queueDeadlock := RoundTrip.of_none rfl
theorem RoundTrip.yieldDeadlineExpiry : RoundTrip.Statement .yieldDeadlineExpiry := RoundTrip.of_none rfl
theorem RoundTrip.collectorAcknowledgement : RoundTrip.Statement .collectorAcknowledgement := RoundTrip.of_none rfl
theorem RoundTrip.contextResumption : RoundTrip.Statement .contextResumption := RoundTrip.of_none rfl
theorem RoundTrip.contextEventWrite : RoundTrip.Statement .contextEventWrite := RoundTrip.of_none rfl
theorem RoundTrip.kernelDispatch : RoundTrip.Statement .kernelDispatch := RoundTrip.of_none rfl
theorem RoundTrip.launchQueueDoorbell : RoundTrip.Statement .launchQueueDoorbell := RoundTrip.of_none rfl
theorem RoundTrip.ctxRoot : RoundTrip.Statement .ctxRoot := RoundTrip.of_none rfl
theorem RoundTrip.setPcb : RoundTrip.Statement .setPcb := RoundTrip.of_none rfl
theorem RoundTrip.fabricTable : RoundTrip.Statement .fabricTable := RoundTrip.of_none rfl
theorem RoundTrip.takeEvent : RoundTrip.Statement .takeEvent := RoundTrip.of_none rfl
theorem RoundTrip.readLog : RoundTrip.Statement .readLog := RoundTrip.of_none rfl
theorem RoundTrip.stage : RoundTrip.Statement .stage := RoundTrip.of_none rfl
theorem RoundTrip.attest : RoundTrip.Statement .attest := RoundTrip.of_none rfl
theorem RoundTrip.keyAperture : RoundTrip.Statement .keyAperture := RoundTrip.of_none rfl
theorem RoundTrip.reset : RoundTrip.Statement .reset := RoundTrip.of_none rfl
theorem RoundTrip.apertureWrite : RoundTrip.Statement .apertureWrite := RoundTrip.of_none rfl
theorem RoundTrip.apertureRead : RoundTrip.Statement .apertureRead := RoundTrip.of_none rfl
theorem RoundTrip.deviceWindowWrite : RoundTrip.Statement .deviceWindowWrite := RoundTrip.of_none rfl
theorem RoundTrip.powerOn : RoundTrip.Statement .powerOn := RoundTrip.of_none rfl
theorem RoundTrip.enterS1 : RoundTrip.Statement .enterS1 := RoundTrip.of_none rfl
theorem RoundTrip.enterS2 : RoundTrip.Statement .enterS2 := RoundTrip.of_none rfl
theorem RoundTrip.cxlPortTrainingDone : RoundTrip.Statement .cxlPortTrainingDone := RoundTrip.of_none rfl
theorem RoundTrip.voltorTrainingDone : RoundTrip.Statement .voltorTrainingDone := RoundTrip.of_none rfl
theorem RoundTrip.voltorTrainingTimeout : RoundTrip.Statement .voltorTrainingTimeout := RoundTrip.of_none rfl
theorem RoundTrip.voltorLaneFault : RoundTrip.Statement .voltorLaneFault := RoundTrip.of_none rfl
theorem RoundTrip.lossOfSignal : RoundTrip.Statement .lossOfSignal := RoundTrip.of_none rfl
theorem RoundTrip.flitReceive : RoundTrip.Statement .flitReceive := RoundTrip.of_none rfl
theorem RoundTrip.peerAccessArrival : RoundTrip.Statement .peerAccessArrival := RoundTrip.of_none rfl
theorem RoundTrip.peerStoreLost : RoundTrip.Statement .peerStoreLost := RoundTrip.of_none rfl
theorem RoundTrip.fabPartReport : RoundTrip.Statement .fabPartReport := RoundTrip.of_none rfl
theorem RoundTrip.fabPause : RoundTrip.Statement .fabPause := RoundTrip.of_none rfl
theorem RoundTrip.fabricBarrierCombine : RoundTrip.Statement .fabricBarrierCombine := RoundTrip.of_none rfl
theorem RoundTrip.drainEnd : RoundTrip.Statement .drainEnd := RoundTrip.of_none rfl
theorem RoundTrip.restoreEnd : RoundTrip.Statement .restoreEnd := RoundTrip.of_none rfl
theorem RoundTrip.instructionFetchAhead : RoundTrip.Statement .instructionFetchAhead := RoundTrip.of_none rfl
theorem RoundTrip.eccCorrected : RoundTrip.Statement .eccCorrected := RoundTrip.of_none rfl
theorem RoundTrip.eccUncorrectable : RoundTrip.Statement .eccUncorrectable := RoundTrip.of_none rfl
theorem RoundTrip.thermalLimit : RoundTrip.Statement .thermalLimit := RoundTrip.of_none rfl
theorem RoundTrip.thermalTrip : RoundTrip.Statement .thermalTrip := RoundTrip.of_none rfl
theorem RoundTrip.nullFetch : RoundTrip.Statement .nullFetch := RoundTrip.of_none rfl
theorem RoundTrip.illegalInstruction : RoundTrip.Statement .illegalInstruction := RoundTrip.of_none rfl
theorem RoundTrip.fetchForIssueFault : RoundTrip.Statement .fetchForIssueFault := RoundTrip.of_none rfl
theorem RoundTrip.storePerform : RoundTrip.Statement .storePerform := RoundTrip.of_none rfl
theorem RoundTrip.cycleCounterAdvance : RoundTrip.Statement .cycleCounterAdvance := RoundTrip.of_none rfl
theorem RoundTrip.voltorFirmwareCommand : RoundTrip.Statement .voltorFirmwareCommand := RoundTrip.of_none rfl

end Sys2Proof.Laws
end

