-- ==== Sys2Proof/Laws/State.lean ====
section
/-! SUPPORT. The fields of a state after each of the updates that meanings make: one lemma per field per update. -/

namespace Sys2Proof.Machine

@[simp] theorem putHart_mem (s : State) (h : Hart) : (s.putHart h).mem = s.mem := rfl
@[simp] theorem putHart_ls (s : State) (h : Hart) : (s.putHart h).ls = s.ls := rfl
@[simp] theorem putHart_poison (s : State) (h : Hart) : (s.putHart h).poison = s.poison := rfl
@[simp] theorem putHart_lsPoison (s : State) (h : Hart) : (s.putHart h).lsPoison = s.lsPoison := rfl
@[simp] theorem putHart_keys (s : State) (h : Hart) : (s.putHart h).keys = s.keys := rfl
@[simp] theorem putHart_sectorKey (s : State) (h : Hart) : (s.putHart h).sectorKey = s.sectorKey := rfl
@[simp] theorem putHart_saved (s : State) (h : Hart) : (s.putHart h).saved = s.saved := rfl
@[simp] theorem putHart_savedCores (s : State) (h : Hart) : (s.putHart h).savedCores = s.savedCores := rfl
@[simp] theorem putHart_cores (s : State) (h : Hart) : (s.putHart h).cores = s.cores := rfl
@[simp] theorem putHart_contexts (s : State) (h : Hart) : (s.putHart h).contexts = s.contexts := rfl
@[simp] theorem putHart_kernels (s : State) (h : Hart) : (s.putHart h).kernels = s.kernels := rfl
@[simp] theorem putHart_barriers (s : State) (h : Hart) : (s.putHart h).barriers = s.barriers := rfl
@[simp] theorem putHart_heads (s : State) (h : Hart) : (s.putHart h).heads = s.heads := rfl
@[simp] theorem putHart_pending (s : State) (h : Hart) : (s.putHart h).pending = s.pending := rfl
@[simp] theorem putHart_moves (s : State) (h : Hart) : (s.putHart h).moves = s.moves := rfl
@[simp] theorem putHart_oldFrames (s : State) (h : Hart) : (s.putHart h).oldFrames = s.oldFrames := rfl
@[simp] theorem putHart_drains (s : State) (h : Hart) : (s.putHart h).drains = s.drains := rfl
@[simp] theorem putHart_restores (s : State) (h : Hart) : (s.putHart h).restores = s.restores := rfl
@[simp] theorem putHart_pcb (s : State) (h : Hart) : (s.putHart h).pcb = s.pcb := rfl
@[simp] theorem putHart_hands (s : State) (h : Hart) : (s.putHart h).hands = s.hands := rfl
@[simp] theorem putHart_sweeping (s : State) (h : Hart) : (s.putHart h).sweeping = s.sweeping := rfl
@[simp] theorem putHart_level (s : State) (h : Hart) : (s.putHart h).level = s.level := rfl
@[simp] theorem putHart_boot (s : State) (h : Hart) : (s.putHart h).boot = s.boot := rfl
@[simp] theorem putHart_clock (s : State) (h : Hart) : (s.putHart h).clock = s.clock := rfl
@[simp] theorem putHart_cxl (s : State) (h : Hart) : (s.putHart h).cxl = s.cxl := rfl
@[simp] theorem putHart_voltor (s : State) (h : Hart) : (s.putHart h).voltor = s.voltor := rfl
@[simp] theorem putHart_fabric (s : State) (h : Hart) : (s.putHart h).fabric = s.fabric := rfl
@[simp] theorem putHart_self (s : State) (h : Hart) : (s.putHart h).self = s.self := rfl
@[simp] theorem putHart_victims (s : State) (h : Hart) : (s.putHart h).victims = s.victims := rfl
@[simp] theorem putHart_mailbox (s : State) (h : Hart) : (s.putHart h).mailbox = s.mailbox := rfl
@[simp] theorem putHart_hostEvents (s : State) (h : Hart) : (s.putHart h).hostEvents = s.hostEvents := rfl
@[simp] theorem putHart_log (s : State) (h : Hart) : (s.putHart h).log = s.log := rfl
@[simp] theorem putHart_logDropped (s : State) (h : Hart) : (s.putHart h).logDropped = s.logDropped := rfl
@[simp] theorem putHart_apKey (s : State) (h : Hart) : (s.putHart h).apKey = s.apKey := rfl
@[simp] theorem putHart_hostRead (s : State) (h : Hart) : (s.putHart h).hostRead = s.hostRead := rfl
@[simp] theorem putHart_flash (s : State) (h : Hart) : (s.putHart h).flash = s.flash := rfl
@[simp] theorem putHart_agenda (s : State) (h : Hart) : (s.putHart h).agenda = s.agenda := rfl
@[simp] theorem putHart_curSlot (s : State) (h : Hart) : (s.putHart h).curSlot = s.curSlot := rfl
@[simp] theorem putHart_curStream (s : State) (h : Hart) : (s.putHart h).curStream = s.curStream := rfl
@[simp] theorem putHart_curWord (s : State) (h : Hart) : (s.putHart h).curWord = s.curWord := rfl
@[simp] theorem putHart_curFetch (s : State) (h : Hart) : (s.putHart h).curFetch = s.curFetch := rfl
@[simp] theorem putHart_curEv (s : State) (h : Hart) : (s.putHart h).curEv = s.curEv := rfl
@[simp] theorem putHart_freeCtr (s : State) (h : Hart) : (s.putHart h).freeCtr = s.freeCtr := rfl
@[simp] theorem putHart_tick (s : State) (h : Hart) : (s.putHart h).tick = s.tick := rfl
@[simp] theorem putHart_nextId (s : State) (h : Hart) : (s.putHart h).nextId = s.nextId := rfl
@[simp] theorem putHart_held (s : State) (h : Hart) : (s.putHart h).held = s.held := rfl
@[simp] theorem putHart_cover (s : State) (h : Hart) : (s.putHart h).cover = s.cover := rfl
@[simp] theorem putHart_lost (s : State) (h : Hart) : (s.putHart h).lost = s.lost := rfl
@[simp] theorem putHart_hits (s : State) (h : Hart) : (s.putHart h).hits = s.hits := rfl
@[simp] theorem putHart_slicePoison (s : State) (h : Hart) : (s.putHart h).slicePoison = s.slicePoison := rfl
@[simp] theorem putHart_spilled (s : State) (h : Hart) : (s.putHart h).spilled = s.spilled := rfl
@[simp] theorem putHart_late (s : State) (h : Hart) : (s.putHart h).late = s.late := rfl
@[simp] theorem putHart_cutMarks (s : State) (h : Hart) : (s.putHart h).cutMarks = s.cutMarks := rfl
@[simp] theorem putHart_taken (s : State) (h : Hart) : (s.putHart h).taken = s.taken := rfl
@[simp] theorem putHart_badTaken (s : State) (h : Hart) : (s.putHart h).badTaken = s.badTaken := rfl
@[simp] theorem putHart_spoiled (s : State) (h : Hart) : (s.putHart h).spoiled = s.spoiled := rfl
@[simp] theorem putHart_slices (s : State) (h : Hart) : (s.putHart h).slices = s.slices := rfl
@[simp] theorem putHart_early (s : State) (h : Hart) : (s.putHart h).early = s.early := rfl
@[simp] theorem putHart_curStop (s : State) (h : Hart) : (s.putHart h).curStop = s.curStop := rfl

@[simp] theorem modCore_mem (s : State) (c : Nat) (g : Core → Core) : (s.modCore c g).mem = s.mem := by unfold State.modCore; split <;> rfl
@[simp] theorem modCore_ls (s : State) (c : Nat) (g : Core → Core) : (s.modCore c g).ls = s.ls := by unfold State.modCore; split <;> rfl
@[simp] theorem modCore_poison (s : State) (c : Nat) (g : Core → Core) : (s.modCore c g).poison = s.poison := by unfold State.modCore; split <;> rfl
@[simp] theorem modCore_lsPoison (s : State) (c : Nat) (g : Core → Core) : (s.modCore c g).lsPoison = s.lsPoison := by unfold State.modCore; split <;> rfl
@[simp] theorem modCore_keys (s : State) (c : Nat) (g : Core → Core) : (s.modCore c g).keys = s.keys := by unfold State.modCore; split <;> rfl
@[simp] theorem modCore_sectorKey (s : State) (c : Nat) (g : Core → Core) : (s.modCore c g).sectorKey = s.sectorKey := by unfold State.modCore; split <;> rfl
@[simp] theorem modCore_harts (s : State) (c : Nat) (g : Core → Core) : (s.modCore c g).harts = s.harts := by unfold State.modCore; split <;> rfl
@[simp] theorem modCore_saved (s : State) (c : Nat) (g : Core → Core) : (s.modCore c g).saved = s.saved := by unfold State.modCore; split <;> rfl
@[simp] theorem modCore_savedCores (s : State) (c : Nat) (g : Core → Core) : (s.modCore c g).savedCores = s.savedCores := by unfold State.modCore; split <;> rfl
@[simp] theorem modCore_contexts (s : State) (c : Nat) (g : Core → Core) : (s.modCore c g).contexts = s.contexts := by unfold State.modCore; split <;> rfl
@[simp] theorem modCore_kernels (s : State) (c : Nat) (g : Core → Core) : (s.modCore c g).kernels = s.kernels := by unfold State.modCore; split <;> rfl
@[simp] theorem modCore_barriers (s : State) (c : Nat) (g : Core → Core) : (s.modCore c g).barriers = s.barriers := by unfold State.modCore; split <;> rfl
@[simp] theorem modCore_heads (s : State) (c : Nat) (g : Core → Core) : (s.modCore c g).heads = s.heads := by unfold State.modCore; split <;> rfl
@[simp] theorem modCore_pending (s : State) (c : Nat) (g : Core → Core) : (s.modCore c g).pending = s.pending := by unfold State.modCore; split <;> rfl
@[simp] theorem modCore_moves (s : State) (c : Nat) (g : Core → Core) : (s.modCore c g).moves = s.moves := by unfold State.modCore; split <;> rfl
@[simp] theorem modCore_oldFrames (s : State) (c : Nat) (g : Core → Core) : (s.modCore c g).oldFrames = s.oldFrames := by unfold State.modCore; split <;> rfl
@[simp] theorem modCore_drains (s : State) (c : Nat) (g : Core → Core) : (s.modCore c g).drains = s.drains := by unfold State.modCore; split <;> rfl
@[simp] theorem modCore_restores (s : State) (c : Nat) (g : Core → Core) : (s.modCore c g).restores = s.restores := by unfold State.modCore; split <;> rfl
@[simp] theorem modCore_pcb (s : State) (c : Nat) (g : Core → Core) : (s.modCore c g).pcb = s.pcb := by unfold State.modCore; split <;> rfl
@[simp] theorem modCore_hands (s : State) (c : Nat) (g : Core → Core) : (s.modCore c g).hands = s.hands := by unfold State.modCore; split <;> rfl
@[simp] theorem modCore_sweeping (s : State) (c : Nat) (g : Core → Core) : (s.modCore c g).sweeping = s.sweeping := by unfold State.modCore; split <;> rfl
@[simp] theorem modCore_level (s : State) (c : Nat) (g : Core → Core) : (s.modCore c g).level = s.level := by unfold State.modCore; split <;> rfl
@[simp] theorem modCore_boot (s : State) (c : Nat) (g : Core → Core) : (s.modCore c g).boot = s.boot := by unfold State.modCore; split <;> rfl
@[simp] theorem modCore_clock (s : State) (c : Nat) (g : Core → Core) : (s.modCore c g).clock = s.clock := by unfold State.modCore; split <;> rfl
@[simp] theorem modCore_cxl (s : State) (c : Nat) (g : Core → Core) : (s.modCore c g).cxl = s.cxl := by unfold State.modCore; split <;> rfl
@[simp] theorem modCore_voltor (s : State) (c : Nat) (g : Core → Core) : (s.modCore c g).voltor = s.voltor := by unfold State.modCore; split <;> rfl
@[simp] theorem modCore_fabric (s : State) (c : Nat) (g : Core → Core) : (s.modCore c g).fabric = s.fabric := by unfold State.modCore; split <;> rfl
@[simp] theorem modCore_self (s : State) (c : Nat) (g : Core → Core) : (s.modCore c g).self = s.self := by unfold State.modCore; split <;> rfl
@[simp] theorem modCore_victims (s : State) (c : Nat) (g : Core → Core) : (s.modCore c g).victims = s.victims := by unfold State.modCore; split <;> rfl
@[simp] theorem modCore_mailbox (s : State) (c : Nat) (g : Core → Core) : (s.modCore c g).mailbox = s.mailbox := by unfold State.modCore; split <;> rfl
@[simp] theorem modCore_hostEvents (s : State) (c : Nat) (g : Core → Core) : (s.modCore c g).hostEvents = s.hostEvents := by unfold State.modCore; split <;> rfl
@[simp] theorem modCore_log (s : State) (c : Nat) (g : Core → Core) : (s.modCore c g).log = s.log := by unfold State.modCore; split <;> rfl
@[simp] theorem modCore_logDropped (s : State) (c : Nat) (g : Core → Core) : (s.modCore c g).logDropped = s.logDropped := by unfold State.modCore; split <;> rfl
@[simp] theorem modCore_apKey (s : State) (c : Nat) (g : Core → Core) : (s.modCore c g).apKey = s.apKey := by unfold State.modCore; split <;> rfl
@[simp] theorem modCore_hostRead (s : State) (c : Nat) (g : Core → Core) : (s.modCore c g).hostRead = s.hostRead := by unfold State.modCore; split <;> rfl
@[simp] theorem modCore_flash (s : State) (c : Nat) (g : Core → Core) : (s.modCore c g).flash = s.flash := by unfold State.modCore; split <;> rfl
@[simp] theorem modCore_agenda (s : State) (c : Nat) (g : Core → Core) : (s.modCore c g).agenda = s.agenda := by unfold State.modCore; split <;> rfl
@[simp] theorem modCore_curSlot (s : State) (c : Nat) (g : Core → Core) : (s.modCore c g).curSlot = s.curSlot := by unfold State.modCore; split <;> rfl
@[simp] theorem modCore_curStream (s : State) (c : Nat) (g : Core → Core) : (s.modCore c g).curStream = s.curStream := by unfold State.modCore; split <;> rfl
@[simp] theorem modCore_curWord (s : State) (c : Nat) (g : Core → Core) : (s.modCore c g).curWord = s.curWord := by unfold State.modCore; split <;> rfl
@[simp] theorem modCore_curFetch (s : State) (c : Nat) (g : Core → Core) : (s.modCore c g).curFetch = s.curFetch := by unfold State.modCore; split <;> rfl
@[simp] theorem modCore_curEv (s : State) (c : Nat) (g : Core → Core) : (s.modCore c g).curEv = s.curEv := by unfold State.modCore; split <;> rfl
@[simp] theorem modCore_freeCtr (s : State) (c : Nat) (g : Core → Core) : (s.modCore c g).freeCtr = s.freeCtr := by unfold State.modCore; split <;> rfl
@[simp] theorem modCore_tick (s : State) (c : Nat) (g : Core → Core) : (s.modCore c g).tick = s.tick := by unfold State.modCore; split <;> rfl
@[simp] theorem modCore_nextId (s : State) (c : Nat) (g : Core → Core) : (s.modCore c g).nextId = s.nextId := by unfold State.modCore; split <;> rfl
@[simp] theorem modCore_held (s : State) (c : Nat) (g : Core → Core) : (s.modCore c g).held = s.held := by unfold State.modCore; split <;> rfl
@[simp] theorem modCore_cover (s : State) (c : Nat) (g : Core → Core) : (s.modCore c g).cover = s.cover := by unfold State.modCore; split <;> rfl
@[simp] theorem modCore_lost (s : State) (c : Nat) (g : Core → Core) : (s.modCore c g).lost = s.lost := by unfold State.modCore; split <;> rfl
@[simp] theorem modCore_hits (s : State) (c : Nat) (g : Core → Core) : (s.modCore c g).hits = s.hits := by unfold State.modCore; split <;> rfl
@[simp] theorem modCore_slicePoison (s : State) (c : Nat) (g : Core → Core) : (s.modCore c g).slicePoison = s.slicePoison := by unfold State.modCore; split <;> rfl
@[simp] theorem modCore_spilled (s : State) (c : Nat) (g : Core → Core) : (s.modCore c g).spilled = s.spilled := by unfold State.modCore; split <;> rfl
@[simp] theorem modCore_late (s : State) (c : Nat) (g : Core → Core) : (s.modCore c g).late = s.late := by unfold State.modCore; split <;> rfl
@[simp] theorem modCore_cutMarks (s : State) (c : Nat) (g : Core → Core) : (s.modCore c g).cutMarks = s.cutMarks := by unfold State.modCore; split <;> rfl
@[simp] theorem modCore_taken (s : State) (c : Nat) (g : Core → Core) : (s.modCore c g).taken = s.taken := by unfold State.modCore; split <;> rfl
@[simp] theorem modCore_badTaken (s : State) (c : Nat) (g : Core → Core) : (s.modCore c g).badTaken = s.badTaken := by unfold State.modCore; split <;> rfl
@[simp] theorem modCore_spoiled (s : State) (c : Nat) (g : Core → Core) : (s.modCore c g).spoiled = s.spoiled := by unfold State.modCore; split <;> rfl
@[simp] theorem modCore_slices (s : State) (c : Nat) (g : Core → Core) : (s.modCore c g).slices = s.slices := by unfold State.modCore; split <;> rfl
@[simp] theorem modCore_early (s : State) (c : Nat) (g : Core → Core) : (s.modCore c g).early = s.early := by unfold State.modCore; split <;> rfl
@[simp] theorem modCore_curStop (s : State) (c : Nat) (g : Core → Core) : (s.modCore c g).curStop = s.curStop := by unfold State.modCore; split <;> rfl

@[simp] theorem setS_slot (h : Hart) (st : StreamId) (r : SReg) (v : Word64) : (h.setS st r v).slot = h.slot := by unfold Hart.setS; split <;> [rfl; (cases st <;> rfl)]
@[simp] theorem setS_asid (h : Hart) (st : StreamId) (r : SReg) (v : Word64) : (h.setS st r v).asid = h.asid := by unfold Hart.setS; split <;> [rfl; (cases st <;> rfl)]
@[simp] theorem setS_kernel (h : Hart) (st : StreamId) (r : SReg) (v : Word64) : (h.setS st r v).kernel = h.kernel := by unfold Hart.setS; split <;> [rfl; (cases st <;> rfl)]
@[simp] theorem setS_xpc (h : Hart) (st : StreamId) (r : SReg) (v : Word64) : (h.setS st r v).xpc = h.xpc := by unfold Hart.setS; split <;> [rfl; (cases st <;> rfl)]
@[simp] theorem setS_apc (h : Hart) (st : StreamId) (r : SReg) (v : Word64) : (h.setS st r v).apc = h.apc := by unfold Hart.setS; split <;> [rfl; (cases st <;> rfl)]
@[simp] theorem setS_arun (h : Hart) (st : StreamId) (r : SReg) (v : Word64) : (h.setS st r v).arun = h.arun := by unfold Hart.setS; split <;> [rfl; (cases st <;> rfl)]
@[simp] theorem setS_priv (h : Hart) (st : StreamId) (r : SReg) (v : Word64) : (h.setS st r v).priv = h.priv := by unfold Hart.setS; split <;> [rfl; (cases st <;> rfl)]
@[simp] theorem setS_win (h : Hart) (st : StreamId) (r : SReg) (v : Word64) : (h.setS st r v).win = h.win := by unfold Hart.setS; split <;> [rfl; (cases st <;> rfl)]
@[simp] theorem setS_vl (h : Hart) (st : StreamId) (r : SReg) (v : Word64) : (h.setS st r v).vl = h.vl := by unfold Hart.setS; split <;> [rfl; (cases st <;> rfl)]
@[simp] theorem setS_vt (h : Hart) (st : StreamId) (r : SReg) (v : Word64) : (h.setS st r v).vt = h.vt := by unfold Hart.setS; split <;> [rfl; (cases st <;> rfl)]
@[simp] theorem setS_md (h : Hart) (st : StreamId) (r : SReg) (v : Word64) : (h.setS st r v).md = h.md := by unfold Hart.setS; split <;> [rfl; (cases st <;> rfl)]
@[simp] theorem setS_v (h : Hart) (st : StreamId) (r : SReg) (v : Word64) : (h.setS st r v).v = h.v := by unfold Hart.setS; split <;> [rfl; (cases st <;> rfl)]
@[simp] theorem setS_p (h : Hart) (st : StreamId) (r : SReg) (v : Word64) : (h.setS st r v).p = h.p := by unfold Hart.setS; split <;> [rfl; (cases st <;> rfl)]
@[simp] theorem setS_k (h : Hart) (st : StreamId) (r : SReg) (v : Word64) : (h.setS st r v).k = h.k := by unfold Hart.setS; split <;> [rfl; (cases st <;> rfl)]
@[simp] theorem setS_d (h : Hart) (st : StreamId) (r : SReg) (v : Word64) : (h.setS st r v).d = h.d := by unfold Hart.setS; split <;> [rfl; (cases st <;> rfl)]
@[simp] theorem setS_b (h : Hart) (st : StreamId) (r : SReg) (v : Word64) : (h.setS st r v).b = h.b := by unfold Hart.setS; split <;> [rfl; (cases st <;> rfl)]
@[simp] theorem setS_vq (h : Hart) (st : StreamId) (r : SReg) (v : Word64) : (h.setS st r v).vq = h.vq := by unfold Hart.setS; split <;> [rfl; (cases st <;> rfl)]
@[simp] theorem setS_q4 (h : Hart) (st : StreamId) (r : SReg) (v : Word64) : (h.setS st r v).q4 = h.q4 := by unfold Hart.setS; split <;> [rfl; (cases st <;> rfl)]
@[simp] theorem setS_q5 (h : Hart) (st : StreamId) (r : SReg) (v : Word64) : (h.setS st r v).q5 = h.q5 := by unfold Hart.setS; split <;> [rfl; (cases st <;> rfl)]
@[simp] theorem setS_q6 (h : Hart) (st : StreamId) (r : SReg) (v : Word64) : (h.setS st r v).q6 = h.q6 := by unfold Hart.setS; split <;> [rfl; (cases st <;> rfl)]
@[simp] theorem setS_q7 (h : Hart) (st : StreamId) (r : SReg) (v : Word64) : (h.setS st r v).q7 = h.q7 := by unfold Hart.setS; split <;> [rfl; (cases st <;> rfl)]
@[simp] theorem setS_sp (h : Hart) (st : StreamId) (r : SReg) (v : Word64) : (h.setS st r v).sp = h.sp := by unfold Hart.setS; split <;> [rfl; (cases st <;> rfl)]
@[simp] theorem setS_resumeA (h : Hart) (st : StreamId) (r : SReg) (v : Word64) : (h.setS st r v).resumeA = h.resumeA := by unfold Hart.setS; split <;> [rfl; (cases st <;> rfl)]
@[simp] theorem setS_resumeX (h : Hart) (st : StreamId) (r : SReg) (v : Word64) : (h.setS st r v).resumeX = h.resumeX := by unfold Hart.setS; split <;> [rfl; (cases st <;> rfl)]
@[simp] theorem setS_grant (h : Hart) (st : StreamId) (r : SReg) (v : Word64) : (h.setS st r v).grant = h.grant := by unfold Hart.setS; split <;> [rfl; (cases st <;> rfl)]
@[simp] theorem setS_req (h : Hart) (st : StreamId) (r : SReg) (v : Word64) : (h.setS st r v).req = h.req := by unfold Hart.setS; split <;> [rfl; (cases st <;> rfl)]
@[simp] theorem setS_gcoord (h : Hart) (st : StreamId) (r : SReg) (v : Word64) : (h.setS st r v).gcoord = h.gcoord := by unfold Hart.setS; split <;> [rfl; (cases st <;> rfl)]
@[simp] theorem setS_agc (h : Hart) (st : StreamId) (r : SReg) (v : Word64) : (h.setS st r v).agc = h.agc := by unfold Hart.setS; split <;> [rfl; (cases st <;> rfl)]
@[simp] theorem setS_rfc (h : Hart) (st : StreamId) (r : SReg) (v : Word64) : (h.setS st r v).rfc = h.rfc := by unfold Hart.setS; split <;> [rfl; (cases st <;> rfl)]
@[simp] theorem setS_nanpc (h : Hart) (st : StreamId) (r : SReg) (v : Word64) : (h.setS st r v).nanpc = h.nanpc := by unfold Hart.setS; split <;> [rfl; (cases st <;> rfl)]
@[simp] theorem setS_nanv (h : Hart) (st : StreamId) (r : SReg) (v : Word64) : (h.setS st r v).nanv = h.nanv := by unfold Hart.setS; split <;> [rfl; (cases st <;> rfl)]
@[simp] theorem setS_nanelem (h : Hart) (st : StreamId) (r : SReg) (v : Word64) : (h.setS st r v).nanelem = h.nanelem := by unfold Hart.setS; split <;> [rfl; (cases st <;> rfl)]
@[simp] theorem setS_nanSeq (h : Hart) (st : StreamId) (r : SReg) (v : Word64) : (h.setS st r v).nanSeq = h.nanSeq := by unfold Hart.setS; split <;> [rfl; (cases st <;> rfl)]
@[simp] theorem setS_nanArm (h : Hart) (st : StreamId) (r : SReg) (v : Word64) : (h.setS st r v).nanArm = h.nanArm := by unfold Hart.setS; split <;> [rfl; (cases st <;> rfl)]
@[simp] theorem setS_rseed (h : Hart) (st : StreamId) (r : SReg) (v : Word64) : (h.setS st r v).rseed = h.rseed := by unfold Hart.setS; split <;> [rfl; (cases st <;> rfl)]
@[simp] theorem setS_gen (h : Hart) (st : StreamId) (r : SReg) (v : Word64) : (h.setS st r v).gen = h.gen := by unfold Hart.setS; split <;> [rfl; (cases st <;> rfl)]
@[simp] theorem setS_ecause (h : Hart) (st : StreamId) (r : SReg) (v : Word64) : (h.setS st r v).ecause = h.ecause := by unfold Hart.setS; split <;> [rfl; (cases st <;> rfl)]
@[simp] theorem setS_epc (h : Hart) (st : StreamId) (r : SReg) (v : Word64) : (h.setS st r v).epc = h.epc := by unfold Hart.setS; split <;> [rfl; (cases st <;> rfl)]
@[simp] theorem setS_etval (h : Hart) (st : StreamId) (r : SReg) (v : Word64) : (h.setS st r v).etval = h.etval := by unfold Hart.setS; split <;> [rfl; (cases st <;> rfl)]
@[simp] theorem setS_estream (h : Hart) (st : StreamId) (r : SReg) (v : Word64) : (h.setS st r v).estream = h.estream := by unfold Hart.setS; split <;> [rfl; (cases st <;> rfl)]
@[simp] theorem setS_estatus (h : Hart) (st : StreamId) (r : SReg) (v : Word64) : (h.setS st r v).estatus = h.estatus := by unfold Hart.setS; split <;> [rfl; (cases st <;> rfl)]
@[simp] theorem setS_thandler (h : Hart) (st : StreamId) (r : SReg) (v : Word64) : (h.setS st r v).thandler = h.thandler := by unfold Hart.setS; split <;> [rfl; (cases st <;> rfl)]
@[simp] theorem setS_tstack (h : Hart) (st : StreamId) (r : SReg) (v : Word64) : (h.setS st r v).tstack = h.tstack := by unfold Hart.setS; split <;> [rfl; (cases st <;> rfl)]
@[simp] theorem setS_ewin (h : Hart) (st : StreamId) (r : SReg) (v : Word64) : (h.setS st r v).ewin = h.ewin := by unfold Hart.setS; split <;> [rfl; (cases st <;> rfl)]
@[simp] theorem setS_vres (h : Hart) (st : StreamId) (r : SReg) (v : Word64) : (h.setS st r v).vres = h.vres := by unfold Hart.setS; split <;> [rfl; (cases st <;> rfl)]
@[simp] theorem setS_vdirty (h : Hart) (st : StreamId) (r : SReg) (v : Word64) : (h.setS st r v).vdirty = h.vdirty := by unfold Hart.setS; split <;> [rfl; (cases st <;> rfl)]
@[simp] theorem setS_vorder (h : Hart) (st : StreamId) (r : SReg) (v : Word64) : (h.setS st r v).vorder = h.vorder := by unfold Hart.setS; split <;> [rfl; (cases st <;> rfl)]
@[simp] theorem setS_pres (h : Hart) (st : StreamId) (r : SReg) (v : Word64) : (h.setS st r v).pres = h.pres := by unfold Hart.setS; split <;> [rfl; (cases st <;> rfl)]
@[simp] theorem setS_pdirty (h : Hart) (st : StreamId) (r : SReg) (v : Word64) : (h.setS st r v).pdirty = h.pdirty := by unfold Hart.setS; split <;> [rfl; (cases st <;> rfl)]
@[simp] theorem setS_porder (h : Hart) (st : StreamId) (r : SReg) (v : Word64) : (h.setS st r v).porder = h.porder := by unfold Hart.setS; split <;> [rfl; (cases st <;> rfl)]
@[simp] theorem setS_vslot (h : Hart) (st : StreamId) (r : SReg) (v : Word64) : (h.setS st r v).vslot = h.vslot := by unfold Hart.setS; split <;> [rfl; (cases st <;> rfl)]
@[simp] theorem setS_pslot (h : Hart) (st : StreamId) (r : SReg) (v : Word64) : (h.setS st r v).pslot = h.pslot := by unfold Hart.setS; split <;> [rfl; (cases st <;> rfl)]
@[simp] theorem setS_vplace (h : Hart) (st : StreamId) (r : SReg) (v : Word64) : (h.setS st r v).vplace = h.vplace := by unfold Hart.setS; split <;> [rfl; (cases st <;> rfl)]
@[simp] theorem setS_openA (h : Hart) (st : StreamId) (r : SReg) (v : Word64) : (h.setS st r v).openA = h.openA := by unfold Hart.setS; split <;> [rfl; (cases st <;> rfl)]
@[simp] theorem setS_strip (h : Hart) (st : StreamId) (r : SReg) (v : Word64) : (h.setS st r v).strip = h.strip := by unfold Hart.setS; split <;> [rfl; (cases st <;> rfl)]
@[simp] theorem setS_tagCtr (h : Hart) (st : StreamId) (r : SReg) (v : Word64) : (h.setS st r v).tagCtr = h.tagCtr := by unfold Hart.setS; split <;> [rfl; (cases st <;> rfl)]
@[simp] theorem setS_deadline (h : Hart) (st : StreamId) (r : SReg) (v : Word64) : (h.setS st r v).deadline = h.deadline := by unfold Hart.setS; split <;> [rfl; (cases st <;> rfl)]
@[simp] theorem setS_triggered (h : Hart) (st : StreamId) (r : SReg) (v : Word64) : (h.setS st r v).triggered = h.triggered := by unfold Hart.setS; split <;> [rfl; (cases st <;> rfl)]
@[simp] theorem setS_pend (h : Hart) (st : StreamId) (r : SReg) (v : Word64) : (h.setS st r v).pend = h.pend := by unfold Hart.setS; split <;> [rfl; (cases st <;> rfl)]
@[simp] theorem setS_sync (h : Hart) (st : StreamId) (r : SReg) (v : Word64) : (h.setS st r v).sync = h.sync := by unfold Hart.setS; split <;> [rfl; (cases st <;> rfl)]
@[simp] theorem setS_arrival (h : Hart) (st : StreamId) (r : SReg) (v : Word64) : (h.setS st r v).arrival = h.arrival := by unfold Hart.setS; split <;> [rfl; (cases st <;> rfl)]
@[simp] theorem setS_splitDone (h : Hart) (st : StreamId) (r : SReg) (v : Word64) : (h.setS st r v).splitDone = h.splitDone := by unfold Hart.setS; split <;> [rfl; (cases st <;> rfl)]
@[simp] theorem setS_syncDone (h : Hart) (st : StreamId) (r : SReg) (v : Word64) : (h.setS st r v).syncDone = h.syncDone := by unfold Hart.setS; split <;> [rfl; (cases st <;> rfl)]
@[simp] theorem setS_groups (h : Hart) (st : StreamId) (r : SReg) (v : Word64) : (h.setS st r v).groups = h.groups := by unfold Hart.setS; split <;> [rfl; (cases st <;> rfl)]
@[simp] theorem setS_transfers (h : Hart) (st : StreamId) (r : SReg) (v : Word64) : (h.setS st r v).transfers = h.transfers := by unfold Hart.setS; split <;> [rfl; (cases st <;> rfl)]
@[simp] theorem setS_records (h : Hart) (st : StreamId) (r : SReg) (v : Word64) : (h.setS st r v).records = h.records := by unfold Hart.setS; split <;> [rfl; (cases st <;> rfl)]
@[simp] theorem setS_waitA (h : Hart) (st : StreamId) (r : SReg) (v : Word64) : (h.setS st r v).waitA = h.waitA := by unfold Hart.setS; split <;> [rfl; (cases st <;> rfl)]
@[simp] theorem setS_waitX (h : Hart) (st : StreamId) (r : SReg) (v : Word64) : (h.setS st r v).waitX = h.waitX := by unfold Hart.setS; split <;> [rfl; (cases st <;> rfl)]
@[simp] theorem setS_deadCount (h : Hart) (st : StreamId) (r : SReg) (v : Word64) : (h.setS st r v).deadCount = h.deadCount := by unfold Hart.setS; split <;> [rfl; (cases st <;> rfl)]
@[simp] theorem setS_refA (h : Hart) (st : StreamId) (r : SReg) (v : Word64) : (h.setS st r v).refA = h.refA := by unfold Hart.setS; split <;> [rfl; (cases st <;> rfl)]
@[simp] theorem setS_refX (h : Hart) (st : StreamId) (r : SReg) (v : Word64) : (h.setS st r v).refX = h.refX := by unfold Hart.setS; split <;> [rfl; (cases st <;> rfl)]
@[simp] theorem setS_stopped (h : Hart) (st : StreamId) (r : SReg) (v : Word64) : (h.setS st r v).stopped = h.stopped := by unfold Hart.setS; split <;> [rfl; (cases st <;> rfl)]
@[simp] theorem setS_coop (h : Hart) (st : StreamId) (r : SReg) (v : Word64) : (h.setS st r v).coop = h.coop := by unfold Hart.setS; split <;> [rfl; (cases st <;> rfl)]
@[simp] theorem setS_halted (h : Hart) (st : StreamId) (r : SReg) (v : Word64) : (h.setS st r v).halted = h.halted := by unfold Hart.setS; split <;> [rfl; (cases st <;> rfl)]
@[simp] theorem setS_retake (h : Hart) (st : StreamId) (r : SReg) (v : Word64) : (h.setS st r v).retake = h.retake := by unfold Hart.setS; split <;> [rfl; (cases st <;> rfl)]
@[simp] theorem setS_entered (h : Hart) (st : StreamId) (r : SReg) (v : Word64) : (h.setS st r v).entered = h.entered := by unfold Hart.setS; split <;> [rfl; (cases st <;> rfl)]

@[simp] theorem setPc_slot (h : Hart) (st : StreamId) (v : Word64) : (h.setPc st v).slot = h.slot := by cases st <;> rfl
@[simp] theorem setPc_asid (h : Hart) (st : StreamId) (v : Word64) : (h.setPc st v).asid = h.asid := by cases st <;> rfl
@[simp] theorem setPc_kernel (h : Hart) (st : StreamId) (v : Word64) : (h.setPc st v).kernel = h.kernel := by cases st <;> rfl
@[simp] theorem setPc_xs (h : Hart) (st : StreamId) (v : Word64) : (h.setPc st v).xs = h.xs := by cases st <;> rfl
@[simp] theorem setPc_as (h : Hart) (st : StreamId) (v : Word64) : (h.setPc st v).as = h.as := by cases st <;> rfl
@[simp] theorem setPc_arun (h : Hart) (st : StreamId) (v : Word64) : (h.setPc st v).arun = h.arun := by cases st <;> rfl
@[simp] theorem setPc_priv (h : Hart) (st : StreamId) (v : Word64) : (h.setPc st v).priv = h.priv := by cases st <;> rfl
@[simp] theorem setPc_win (h : Hart) (st : StreamId) (v : Word64) : (h.setPc st v).win = h.win := by cases st <;> rfl
@[simp] theorem setPc_vl (h : Hart) (st : StreamId) (v : Word64) : (h.setPc st v).vl = h.vl := by cases st <;> rfl
@[simp] theorem setPc_vt (h : Hart) (st : StreamId) (v : Word64) : (h.setPc st v).vt = h.vt := by cases st <;> rfl
@[simp] theorem setPc_md (h : Hart) (st : StreamId) (v : Word64) : (h.setPc st v).md = h.md := by cases st <;> rfl
@[simp] theorem setPc_v (h : Hart) (st : StreamId) (v : Word64) : (h.setPc st v).v = h.v := by cases st <;> rfl
@[simp] theorem setPc_p (h : Hart) (st : StreamId) (v : Word64) : (h.setPc st v).p = h.p := by cases st <;> rfl
@[simp] theorem setPc_k (h : Hart) (st : StreamId) (v : Word64) : (h.setPc st v).k = h.k := by cases st <;> rfl
@[simp] theorem setPc_d (h : Hart) (st : StreamId) (v : Word64) : (h.setPc st v).d = h.d := by cases st <;> rfl
@[simp] theorem setPc_b (h : Hart) (st : StreamId) (v : Word64) : (h.setPc st v).b = h.b := by cases st <;> rfl
@[simp] theorem setPc_vq (h : Hart) (st : StreamId) (v : Word64) : (h.setPc st v).vq = h.vq := by cases st <;> rfl
@[simp] theorem setPc_q4 (h : Hart) (st : StreamId) (v : Word64) : (h.setPc st v).q4 = h.q4 := by cases st <;> rfl
@[simp] theorem setPc_q5 (h : Hart) (st : StreamId) (v : Word64) : (h.setPc st v).q5 = h.q5 := by cases st <;> rfl
@[simp] theorem setPc_q6 (h : Hart) (st : StreamId) (v : Word64) : (h.setPc st v).q6 = h.q6 := by cases st <;> rfl
@[simp] theorem setPc_q7 (h : Hart) (st : StreamId) (v : Word64) : (h.setPc st v).q7 = h.q7 := by cases st <;> rfl
@[simp] theorem setPc_sp (h : Hart) (st : StreamId) (v : Word64) : (h.setPc st v).sp = h.sp := by cases st <;> rfl
@[simp] theorem setPc_resumeA (h : Hart) (st : StreamId) (v : Word64) : (h.setPc st v).resumeA = h.resumeA := by cases st <;> rfl
@[simp] theorem setPc_resumeX (h : Hart) (st : StreamId) (v : Word64) : (h.setPc st v).resumeX = h.resumeX := by cases st <;> rfl
@[simp] theorem setPc_grant (h : Hart) (st : StreamId) (v : Word64) : (h.setPc st v).grant = h.grant := by cases st <;> rfl
@[simp] theorem setPc_req (h : Hart) (st : StreamId) (v : Word64) : (h.setPc st v).req = h.req := by cases st <;> rfl
@[simp] theorem setPc_gcoord (h : Hart) (st : StreamId) (v : Word64) : (h.setPc st v).gcoord = h.gcoord := by cases st <;> rfl
@[simp] theorem setPc_agc (h : Hart) (st : StreamId) (v : Word64) : (h.setPc st v).agc = h.agc := by cases st <;> rfl
@[simp] theorem setPc_rfc (h : Hart) (st : StreamId) (v : Word64) : (h.setPc st v).rfc = h.rfc := by cases st <;> rfl
@[simp] theorem setPc_nanpc (h : Hart) (st : StreamId) (v : Word64) : (h.setPc st v).nanpc = h.nanpc := by cases st <;> rfl
@[simp] theorem setPc_nanv (h : Hart) (st : StreamId) (v : Word64) : (h.setPc st v).nanv = h.nanv := by cases st <;> rfl
@[simp] theorem setPc_nanelem (h : Hart) (st : StreamId) (v : Word64) : (h.setPc st v).nanelem = h.nanelem := by cases st <;> rfl
@[simp] theorem setPc_nanSeq (h : Hart) (st : StreamId) (v : Word64) : (h.setPc st v).nanSeq = h.nanSeq := by cases st <;> rfl
@[simp] theorem setPc_nanArm (h : Hart) (st : StreamId) (v : Word64) : (h.setPc st v).nanArm = h.nanArm := by cases st <;> rfl
@[simp] theorem setPc_rseed (h : Hart) (st : StreamId) (v : Word64) : (h.setPc st v).rseed = h.rseed := by cases st <;> rfl
@[simp] theorem setPc_gen (h : Hart) (st : StreamId) (v : Word64) : (h.setPc st v).gen = h.gen := by cases st <;> rfl
@[simp] theorem setPc_ecause (h : Hart) (st : StreamId) (v : Word64) : (h.setPc st v).ecause = h.ecause := by cases st <;> rfl
@[simp] theorem setPc_epc (h : Hart) (st : StreamId) (v : Word64) : (h.setPc st v).epc = h.epc := by cases st <;> rfl
@[simp] theorem setPc_etval (h : Hart) (st : StreamId) (v : Word64) : (h.setPc st v).etval = h.etval := by cases st <;> rfl
@[simp] theorem setPc_estream (h : Hart) (st : StreamId) (v : Word64) : (h.setPc st v).estream = h.estream := by cases st <;> rfl
@[simp] theorem setPc_estatus (h : Hart) (st : StreamId) (v : Word64) : (h.setPc st v).estatus = h.estatus := by cases st <;> rfl
@[simp] theorem setPc_thandler (h : Hart) (st : StreamId) (v : Word64) : (h.setPc st v).thandler = h.thandler := by cases st <;> rfl
@[simp] theorem setPc_tstack (h : Hart) (st : StreamId) (v : Word64) : (h.setPc st v).tstack = h.tstack := by cases st <;> rfl
@[simp] theorem setPc_ewin (h : Hart) (st : StreamId) (v : Word64) : (h.setPc st v).ewin = h.ewin := by cases st <;> rfl
@[simp] theorem setPc_vres (h : Hart) (st : StreamId) (v : Word64) : (h.setPc st v).vres = h.vres := by cases st <;> rfl
@[simp] theorem setPc_vdirty (h : Hart) (st : StreamId) (v : Word64) : (h.setPc st v).vdirty = h.vdirty := by cases st <;> rfl
@[simp] theorem setPc_vorder (h : Hart) (st : StreamId) (v : Word64) : (h.setPc st v).vorder = h.vorder := by cases st <;> rfl
@[simp] theorem setPc_pres (h : Hart) (st : StreamId) (v : Word64) : (h.setPc st v).pres = h.pres := by cases st <;> rfl
@[simp] theorem setPc_pdirty (h : Hart) (st : StreamId) (v : Word64) : (h.setPc st v).pdirty = h.pdirty := by cases st <;> rfl
@[simp] theorem setPc_porder (h : Hart) (st : StreamId) (v : Word64) : (h.setPc st v).porder = h.porder := by cases st <;> rfl
@[simp] theorem setPc_vslot (h : Hart) (st : StreamId) (v : Word64) : (h.setPc st v).vslot = h.vslot := by cases st <;> rfl
@[simp] theorem setPc_pslot (h : Hart) (st : StreamId) (v : Word64) : (h.setPc st v).pslot = h.pslot := by cases st <;> rfl
@[simp] theorem setPc_vplace (h : Hart) (st : StreamId) (v : Word64) : (h.setPc st v).vplace = h.vplace := by cases st <;> rfl
@[simp] theorem setPc_openA (h : Hart) (st : StreamId) (v : Word64) : (h.setPc st v).openA = h.openA := by cases st <;> rfl
@[simp] theorem setPc_strip (h : Hart) (st : StreamId) (v : Word64) : (h.setPc st v).strip = h.strip := by cases st <;> rfl
@[simp] theorem setPc_tagCtr (h : Hart) (st : StreamId) (v : Word64) : (h.setPc st v).tagCtr = h.tagCtr := by cases st <;> rfl
@[simp] theorem setPc_deadline (h : Hart) (st : StreamId) (v : Word64) : (h.setPc st v).deadline = h.deadline := by cases st <;> rfl
@[simp] theorem setPc_triggered (h : Hart) (st : StreamId) (v : Word64) : (h.setPc st v).triggered = h.triggered := by cases st <;> rfl
@[simp] theorem setPc_pend (h : Hart) (st : StreamId) (v : Word64) : (h.setPc st v).pend = h.pend := by cases st <;> rfl
@[simp] theorem setPc_sync (h : Hart) (st : StreamId) (v : Word64) : (h.setPc st v).sync = h.sync := by cases st <;> rfl
@[simp] theorem setPc_arrival (h : Hart) (st : StreamId) (v : Word64) : (h.setPc st v).arrival = h.arrival := by cases st <;> rfl
@[simp] theorem setPc_splitDone (h : Hart) (st : StreamId) (v : Word64) : (h.setPc st v).splitDone = h.splitDone := by cases st <;> rfl
@[simp] theorem setPc_syncDone (h : Hart) (st : StreamId) (v : Word64) : (h.setPc st v).syncDone = h.syncDone := by cases st <;> rfl
@[simp] theorem setPc_groups (h : Hart) (st : StreamId) (v : Word64) : (h.setPc st v).groups = h.groups := by cases st <;> rfl
@[simp] theorem setPc_transfers (h : Hart) (st : StreamId) (v : Word64) : (h.setPc st v).transfers = h.transfers := by cases st <;> rfl
@[simp] theorem setPc_records (h : Hart) (st : StreamId) (v : Word64) : (h.setPc st v).records = h.records := by cases st <;> rfl
@[simp] theorem setPc_waitA (h : Hart) (st : StreamId) (v : Word64) : (h.setPc st v).waitA = h.waitA := by cases st <;> rfl
@[simp] theorem setPc_waitX (h : Hart) (st : StreamId) (v : Word64) : (h.setPc st v).waitX = h.waitX := by cases st <;> rfl
@[simp] theorem setPc_deadCount (h : Hart) (st : StreamId) (v : Word64) : (h.setPc st v).deadCount = h.deadCount := by cases st <;> rfl
@[simp] theorem setPc_refA (h : Hart) (st : StreamId) (v : Word64) : (h.setPc st v).refA = h.refA := by cases st <;> rfl
@[simp] theorem setPc_refX (h : Hart) (st : StreamId) (v : Word64) : (h.setPc st v).refX = h.refX := by cases st <;> rfl
@[simp] theorem setPc_stopped (h : Hart) (st : StreamId) (v : Word64) : (h.setPc st v).stopped = h.stopped := by cases st <;> rfl
@[simp] theorem setPc_coop (h : Hart) (st : StreamId) (v : Word64) : (h.setPc st v).coop = h.coop := by cases st <;> rfl
@[simp] theorem setPc_halted (h : Hart) (st : StreamId) (v : Word64) : (h.setPc st v).halted = h.halted := by cases st <;> rfl
@[simp] theorem setPc_retake (h : Hart) (st : StreamId) (v : Word64) : (h.setPc st v).retake = h.retake := by cases st <;> rfl
@[simp] theorem setPc_entered (h : Hart) (st : StreamId) (v : Word64) : (h.setPc st v).entered = h.entered := by cases st <;> rfl
@[simp] theorem setPc_banks (h : Hart) (st : StreamId) (v : Word64) : (h.setPc st v).banks = h.banks := by cases st <;> rfl
@[simp] theorem setPc_firstWait (h : Hart) (st : StreamId) (v : Word64) : (h.setPc st v).firstWait = h.firstWait := by cases st <;> rfl
@[simp] theorem setPc_wordX (h : Hart) (st : StreamId) (v : Word64) : (h.setPc st v).wordX = h.wordX := by cases st <;> rfl
@[simp] theorem setPc_waitCap (h : Hart) (st : StreamId) (v : Word64) : (h.setPc st v).waitCap = h.waitCap := by cases st <;> rfl
@[simp] theorem setPc_acked (h : Hart) (st : StreamId) (v : Word64) : (h.setPc st v).acked = h.acked := by cases st <;> rfl
@[simp] theorem setPc_image (h : Hart) (st : StreamId) (v : Word64) : (h.setPc st v).image = h.image := by cases st <;> rfl

@[simp] theorem advance_slot (h : Hart) (st : StreamId) : (h.advance st).slot = h.slot := setPc_slot _ _ _
@[simp] theorem advance_asid (h : Hart) (st : StreamId) : (h.advance st).asid = h.asid := setPc_asid _ _ _
@[simp] theorem advance_kernel (h : Hart) (st : StreamId) : (h.advance st).kernel = h.kernel := setPc_kernel _ _ _
@[simp] theorem advance_xs (h : Hart) (st : StreamId) : (h.advance st).xs = h.xs := setPc_xs _ _ _
@[simp] theorem advance_as (h : Hart) (st : StreamId) : (h.advance st).as = h.as := setPc_as _ _ _
@[simp] theorem advance_arun (h : Hart) (st : StreamId) : (h.advance st).arun = h.arun := setPc_arun _ _ _
@[simp] theorem advance_priv (h : Hart) (st : StreamId) : (h.advance st).priv = h.priv := setPc_priv _ _ _
@[simp] theorem advance_win (h : Hart) (st : StreamId) : (h.advance st).win = h.win := setPc_win _ _ _
@[simp] theorem advance_vl (h : Hart) (st : StreamId) : (h.advance st).vl = h.vl := setPc_vl _ _ _
@[simp] theorem advance_vt (h : Hart) (st : StreamId) : (h.advance st).vt = h.vt := setPc_vt _ _ _
@[simp] theorem advance_md (h : Hart) (st : StreamId) : (h.advance st).md = h.md := setPc_md _ _ _
@[simp] theorem advance_v (h : Hart) (st : StreamId) : (h.advance st).v = h.v := setPc_v _ _ _
@[simp] theorem advance_p (h : Hart) (st : StreamId) : (h.advance st).p = h.p := setPc_p _ _ _
@[simp] theorem advance_k (h : Hart) (st : StreamId) : (h.advance st).k = h.k := setPc_k _ _ _
@[simp] theorem advance_d (h : Hart) (st : StreamId) : (h.advance st).d = h.d := setPc_d _ _ _
@[simp] theorem advance_b (h : Hart) (st : StreamId) : (h.advance st).b = h.b := setPc_b _ _ _
@[simp] theorem advance_vq (h : Hart) (st : StreamId) : (h.advance st).vq = h.vq := setPc_vq _ _ _
@[simp] theorem advance_q4 (h : Hart) (st : StreamId) : (h.advance st).q4 = h.q4 := setPc_q4 _ _ _
@[simp] theorem advance_q5 (h : Hart) (st : StreamId) : (h.advance st).q5 = h.q5 := setPc_q5 _ _ _
@[simp] theorem advance_q6 (h : Hart) (st : StreamId) : (h.advance st).q6 = h.q6 := setPc_q6 _ _ _
@[simp] theorem advance_q7 (h : Hart) (st : StreamId) : (h.advance st).q7 = h.q7 := setPc_q7 _ _ _
@[simp] theorem advance_sp (h : Hart) (st : StreamId) : (h.advance st).sp = h.sp := setPc_sp _ _ _
@[simp] theorem advance_resumeA (h : Hart) (st : StreamId) : (h.advance st).resumeA = h.resumeA := setPc_resumeA _ _ _
@[simp] theorem advance_resumeX (h : Hart) (st : StreamId) : (h.advance st).resumeX = h.resumeX := setPc_resumeX _ _ _
@[simp] theorem advance_grant (h : Hart) (st : StreamId) : (h.advance st).grant = h.grant := setPc_grant _ _ _
@[simp] theorem advance_req (h : Hart) (st : StreamId) : (h.advance st).req = h.req := setPc_req _ _ _
@[simp] theorem advance_gcoord (h : Hart) (st : StreamId) : (h.advance st).gcoord = h.gcoord := setPc_gcoord _ _ _
@[simp] theorem advance_agc (h : Hart) (st : StreamId) : (h.advance st).agc = h.agc := setPc_agc _ _ _
@[simp] theorem advance_rfc (h : Hart) (st : StreamId) : (h.advance st).rfc = h.rfc := setPc_rfc _ _ _
@[simp] theorem advance_nanpc (h : Hart) (st : StreamId) : (h.advance st).nanpc = h.nanpc := setPc_nanpc _ _ _
@[simp] theorem advance_nanv (h : Hart) (st : StreamId) : (h.advance st).nanv = h.nanv := setPc_nanv _ _ _
@[simp] theorem advance_nanelem (h : Hart) (st : StreamId) : (h.advance st).nanelem = h.nanelem := setPc_nanelem _ _ _
@[simp] theorem advance_nanSeq (h : Hart) (st : StreamId) : (h.advance st).nanSeq = h.nanSeq := setPc_nanSeq _ _ _
@[simp] theorem advance_nanArm (h : Hart) (st : StreamId) : (h.advance st).nanArm = h.nanArm := setPc_nanArm _ _ _
@[simp] theorem advance_rseed (h : Hart) (st : StreamId) : (h.advance st).rseed = h.rseed := setPc_rseed _ _ _
@[simp] theorem advance_gen (h : Hart) (st : StreamId) : (h.advance st).gen = h.gen := setPc_gen _ _ _
@[simp] theorem advance_ecause (h : Hart) (st : StreamId) : (h.advance st).ecause = h.ecause := setPc_ecause _ _ _
@[simp] theorem advance_epc (h : Hart) (st : StreamId) : (h.advance st).epc = h.epc := setPc_epc _ _ _
@[simp] theorem advance_etval (h : Hart) (st : StreamId) : (h.advance st).etval = h.etval := setPc_etval _ _ _
@[simp] theorem advance_estream (h : Hart) (st : StreamId) : (h.advance st).estream = h.estream := setPc_estream _ _ _
@[simp] theorem advance_estatus (h : Hart) (st : StreamId) : (h.advance st).estatus = h.estatus := setPc_estatus _ _ _
@[simp] theorem advance_thandler (h : Hart) (st : StreamId) : (h.advance st).thandler = h.thandler := setPc_thandler _ _ _
@[simp] theorem advance_tstack (h : Hart) (st : StreamId) : (h.advance st).tstack = h.tstack := setPc_tstack _ _ _
@[simp] theorem advance_ewin (h : Hart) (st : StreamId) : (h.advance st).ewin = h.ewin := setPc_ewin _ _ _
@[simp] theorem advance_vres (h : Hart) (st : StreamId) : (h.advance st).vres = h.vres := setPc_vres _ _ _
@[simp] theorem advance_vdirty (h : Hart) (st : StreamId) : (h.advance st).vdirty = h.vdirty := setPc_vdirty _ _ _
@[simp] theorem advance_vorder (h : Hart) (st : StreamId) : (h.advance st).vorder = h.vorder := setPc_vorder _ _ _
@[simp] theorem advance_pres (h : Hart) (st : StreamId) : (h.advance st).pres = h.pres := setPc_pres _ _ _
@[simp] theorem advance_pdirty (h : Hart) (st : StreamId) : (h.advance st).pdirty = h.pdirty := setPc_pdirty _ _ _
@[simp] theorem advance_porder (h : Hart) (st : StreamId) : (h.advance st).porder = h.porder := setPc_porder _ _ _
@[simp] theorem advance_vslot (h : Hart) (st : StreamId) : (h.advance st).vslot = h.vslot := setPc_vslot _ _ _
@[simp] theorem advance_pslot (h : Hart) (st : StreamId) : (h.advance st).pslot = h.pslot := setPc_pslot _ _ _
@[simp] theorem advance_vplace (h : Hart) (st : StreamId) : (h.advance st).vplace = h.vplace := setPc_vplace _ _ _
@[simp] theorem advance_openA (h : Hart) (st : StreamId) : (h.advance st).openA = h.openA := setPc_openA _ _ _
@[simp] theorem advance_strip (h : Hart) (st : StreamId) : (h.advance st).strip = h.strip := setPc_strip _ _ _
@[simp] theorem advance_tagCtr (h : Hart) (st : StreamId) : (h.advance st).tagCtr = h.tagCtr := setPc_tagCtr _ _ _
@[simp] theorem advance_deadline (h : Hart) (st : StreamId) : (h.advance st).deadline = h.deadline := setPc_deadline _ _ _
@[simp] theorem advance_triggered (h : Hart) (st : StreamId) : (h.advance st).triggered = h.triggered := setPc_triggered _ _ _
@[simp] theorem advance_pend (h : Hart) (st : StreamId) : (h.advance st).pend = h.pend := setPc_pend _ _ _
@[simp] theorem advance_sync (h : Hart) (st : StreamId) : (h.advance st).sync = h.sync := setPc_sync _ _ _
@[simp] theorem advance_arrival (h : Hart) (st : StreamId) : (h.advance st).arrival = h.arrival := setPc_arrival _ _ _
@[simp] theorem advance_splitDone (h : Hart) (st : StreamId) : (h.advance st).splitDone = h.splitDone := setPc_splitDone _ _ _
@[simp] theorem advance_syncDone (h : Hart) (st : StreamId) : (h.advance st).syncDone = h.syncDone := setPc_syncDone _ _ _
@[simp] theorem advance_groups (h : Hart) (st : StreamId) : (h.advance st).groups = h.groups := setPc_groups _ _ _
@[simp] theorem advance_transfers (h : Hart) (st : StreamId) : (h.advance st).transfers = h.transfers := setPc_transfers _ _ _
@[simp] theorem advance_records (h : Hart) (st : StreamId) : (h.advance st).records = h.records := setPc_records _ _ _
@[simp] theorem advance_waitA (h : Hart) (st : StreamId) : (h.advance st).waitA = h.waitA := setPc_waitA _ _ _
@[simp] theorem advance_waitX (h : Hart) (st : StreamId) : (h.advance st).waitX = h.waitX := setPc_waitX _ _ _
@[simp] theorem advance_deadCount (h : Hart) (st : StreamId) : (h.advance st).deadCount = h.deadCount := setPc_deadCount _ _ _
@[simp] theorem advance_refA (h : Hart) (st : StreamId) : (h.advance st).refA = h.refA := setPc_refA _ _ _
@[simp] theorem advance_refX (h : Hart) (st : StreamId) : (h.advance st).refX = h.refX := setPc_refX _ _ _
@[simp] theorem advance_stopped (h : Hart) (st : StreamId) : (h.advance st).stopped = h.stopped := setPc_stopped _ _ _
@[simp] theorem advance_coop (h : Hart) (st : StreamId) : (h.advance st).coop = h.coop := setPc_coop _ _ _
@[simp] theorem advance_halted (h : Hart) (st : StreamId) : (h.advance st).halted = h.halted := setPc_halted _ _ _
@[simp] theorem advance_retake (h : Hart) (st : StreamId) : (h.advance st).retake = h.retake := setPc_retake _ _ _
@[simp] theorem advance_entered (h : Hart) (st : StreamId) : (h.advance st).entered = h.entered := setPc_entered _ _ _
@[simp] theorem advance_banks (h : Hart) (st : StreamId) : (h.advance st).banks = h.banks := setPc_banks _ _ _
@[simp] theorem advance_firstWait (h : Hart) (st : StreamId) : (h.advance st).firstWait = h.firstWait := setPc_firstWait _ _ _
@[simp] theorem advance_wordX (h : Hart) (st : StreamId) : (h.advance st).wordX = h.wordX := setPc_wordX _ _ _
@[simp] theorem advance_waitCap (h : Hart) (st : StreamId) : (h.advance st).waitCap = h.waitCap := setPc_waitCap _ _ _
@[simp] theorem advance_acked (h : Hart) (st : StreamId) : (h.advance st).acked = h.acked := setPc_acked _ _ _
@[simp] theorem advance_image (h : Hart) (st : StreamId) : (h.advance st).image = h.image := setPc_image _ _ _

@[simp] theorem setResume_slot (h : Hart) (st : StreamId) (v : Word64) : (h.setResume st v).slot = h.slot := by cases st <;> rfl
@[simp] theorem setResume_asid (h : Hart) (st : StreamId) (v : Word64) : (h.setResume st v).asid = h.asid := by cases st <;> rfl
@[simp] theorem setResume_kernel (h : Hart) (st : StreamId) (v : Word64) : (h.setResume st v).kernel = h.kernel := by cases st <;> rfl
@[simp] theorem setResume_xs (h : Hart) (st : StreamId) (v : Word64) : (h.setResume st v).xs = h.xs := by cases st <;> rfl
@[simp] theorem setResume_as (h : Hart) (st : StreamId) (v : Word64) : (h.setResume st v).as = h.as := by cases st <;> rfl
@[simp] theorem setResume_xpc (h : Hart) (st : StreamId) (v : Word64) : (h.setResume st v).xpc = h.xpc := by cases st <;> rfl
@[simp] theorem setResume_apc (h : Hart) (st : StreamId) (v : Word64) : (h.setResume st v).apc = h.apc := by cases st <;> rfl
@[simp] theorem setResume_arun (h : Hart) (st : StreamId) (v : Word64) : (h.setResume st v).arun = h.arun := by cases st <;> rfl
@[simp] theorem setResume_priv (h : Hart) (st : StreamId) (v : Word64) : (h.setResume st v).priv = h.priv := by cases st <;> rfl
@[simp] theorem setResume_win (h : Hart) (st : StreamId) (v : Word64) : (h.setResume st v).win = h.win := by cases st <;> rfl
@[simp] theorem setResume_vl (h : Hart) (st : StreamId) (v : Word64) : (h.setResume st v).vl = h.vl := by cases st <;> rfl
@[simp] theorem setResume_vt (h : Hart) (st : StreamId) (v : Word64) : (h.setResume st v).vt = h.vt := by cases st <;> rfl
@[simp] theorem setResume_md (h : Hart) (st : StreamId) (v : Word64) : (h.setResume st v).md = h.md := by cases st <;> rfl
@[simp] theorem setResume_v (h : Hart) (st : StreamId) (v : Word64) : (h.setResume st v).v = h.v := by cases st <;> rfl
@[simp] theorem setResume_p (h : Hart) (st : StreamId) (v : Word64) : (h.setResume st v).p = h.p := by cases st <;> rfl
@[simp] theorem setResume_k (h : Hart) (st : StreamId) (v : Word64) : (h.setResume st v).k = h.k := by cases st <;> rfl
@[simp] theorem setResume_d (h : Hart) (st : StreamId) (v : Word64) : (h.setResume st v).d = h.d := by cases st <;> rfl
@[simp] theorem setResume_b (h : Hart) (st : StreamId) (v : Word64) : (h.setResume st v).b = h.b := by cases st <;> rfl
@[simp] theorem setResume_vq (h : Hart) (st : StreamId) (v : Word64) : (h.setResume st v).vq = h.vq := by cases st <;> rfl
@[simp] theorem setResume_q4 (h : Hart) (st : StreamId) (v : Word64) : (h.setResume st v).q4 = h.q4 := by cases st <;> rfl
@[simp] theorem setResume_q5 (h : Hart) (st : StreamId) (v : Word64) : (h.setResume st v).q5 = h.q5 := by cases st <;> rfl
@[simp] theorem setResume_q6 (h : Hart) (st : StreamId) (v : Word64) : (h.setResume st v).q6 = h.q6 := by cases st <;> rfl
@[simp] theorem setResume_q7 (h : Hart) (st : StreamId) (v : Word64) : (h.setResume st v).q7 = h.q7 := by cases st <;> rfl
@[simp] theorem setResume_sp (h : Hart) (st : StreamId) (v : Word64) : (h.setResume st v).sp = h.sp := by cases st <;> rfl
@[simp] theorem setResume_grant (h : Hart) (st : StreamId) (v : Word64) : (h.setResume st v).grant = h.grant := by cases st <;> rfl
@[simp] theorem setResume_req (h : Hart) (st : StreamId) (v : Word64) : (h.setResume st v).req = h.req := by cases st <;> rfl
@[simp] theorem setResume_gcoord (h : Hart) (st : StreamId) (v : Word64) : (h.setResume st v).gcoord = h.gcoord := by cases st <;> rfl
@[simp] theorem setResume_agc (h : Hart) (st : StreamId) (v : Word64) : (h.setResume st v).agc = h.agc := by cases st <;> rfl
@[simp] theorem setResume_rfc (h : Hart) (st : StreamId) (v : Word64) : (h.setResume st v).rfc = h.rfc := by cases st <;> rfl
@[simp] theorem setResume_nanpc (h : Hart) (st : StreamId) (v : Word64) : (h.setResume st v).nanpc = h.nanpc := by cases st <;> rfl
@[simp] theorem setResume_nanv (h : Hart) (st : StreamId) (v : Word64) : (h.setResume st v).nanv = h.nanv := by cases st <;> rfl
@[simp] theorem setResume_nanelem (h : Hart) (st : StreamId) (v : Word64) : (h.setResume st v).nanelem = h.nanelem := by cases st <;> rfl
@[simp] theorem setResume_nanSeq (h : Hart) (st : StreamId) (v : Word64) : (h.setResume st v).nanSeq = h.nanSeq := by cases st <;> rfl
@[simp] theorem setResume_nanArm (h : Hart) (st : StreamId) (v : Word64) : (h.setResume st v).nanArm = h.nanArm := by cases st <;> rfl
@[simp] theorem setResume_rseed (h : Hart) (st : StreamId) (v : Word64) : (h.setResume st v).rseed = h.rseed := by cases st <;> rfl
@[simp] theorem setResume_gen (h : Hart) (st : StreamId) (v : Word64) : (h.setResume st v).gen = h.gen := by cases st <;> rfl
@[simp] theorem setResume_ecause (h : Hart) (st : StreamId) (v : Word64) : (h.setResume st v).ecause = h.ecause := by cases st <;> rfl
@[simp] theorem setResume_epc (h : Hart) (st : StreamId) (v : Word64) : (h.setResume st v).epc = h.epc := by cases st <;> rfl
@[simp] theorem setResume_etval (h : Hart) (st : StreamId) (v : Word64) : (h.setResume st v).etval = h.etval := by cases st <;> rfl
@[simp] theorem setResume_estream (h : Hart) (st : StreamId) (v : Word64) : (h.setResume st v).estream = h.estream := by cases st <;> rfl
@[simp] theorem setResume_estatus (h : Hart) (st : StreamId) (v : Word64) : (h.setResume st v).estatus = h.estatus := by cases st <;> rfl
@[simp] theorem setResume_thandler (h : Hart) (st : StreamId) (v : Word64) : (h.setResume st v).thandler = h.thandler := by cases st <;> rfl
@[simp] theorem setResume_tstack (h : Hart) (st : StreamId) (v : Word64) : (h.setResume st v).tstack = h.tstack := by cases st <;> rfl
@[simp] theorem setResume_ewin (h : Hart) (st : StreamId) (v : Word64) : (h.setResume st v).ewin = h.ewin := by cases st <;> rfl
@[simp] theorem setResume_vres (h : Hart) (st : StreamId) (v : Word64) : (h.setResume st v).vres = h.vres := by cases st <;> rfl
@[simp] theorem setResume_vdirty (h : Hart) (st : StreamId) (v : Word64) : (h.setResume st v).vdirty = h.vdirty := by cases st <;> rfl
@[simp] theorem setResume_vorder (h : Hart) (st : StreamId) (v : Word64) : (h.setResume st v).vorder = h.vorder := by cases st <;> rfl
@[simp] theorem setResume_pres (h : Hart) (st : StreamId) (v : Word64) : (h.setResume st v).pres = h.pres := by cases st <;> rfl
@[simp] theorem setResume_pdirty (h : Hart) (st : StreamId) (v : Word64) : (h.setResume st v).pdirty = h.pdirty := by cases st <;> rfl
@[simp] theorem setResume_porder (h : Hart) (st : StreamId) (v : Word64) : (h.setResume st v).porder = h.porder := by cases st <;> rfl
@[simp] theorem setResume_vslot (h : Hart) (st : StreamId) (v : Word64) : (h.setResume st v).vslot = h.vslot := by cases st <;> rfl
@[simp] theorem setResume_pslot (h : Hart) (st : StreamId) (v : Word64) : (h.setResume st v).pslot = h.pslot := by cases st <;> rfl
@[simp] theorem setResume_vplace (h : Hart) (st : StreamId) (v : Word64) : (h.setResume st v).vplace = h.vplace := by cases st <;> rfl
@[simp] theorem setResume_openA (h : Hart) (st : StreamId) (v : Word64) : (h.setResume st v).openA = h.openA := by cases st <;> rfl
@[simp] theorem setResume_strip (h : Hart) (st : StreamId) (v : Word64) : (h.setResume st v).strip = h.strip := by cases st <;> rfl
@[simp] theorem setResume_tagCtr (h : Hart) (st : StreamId) (v : Word64) : (h.setResume st v).tagCtr = h.tagCtr := by cases st <;> rfl
@[simp] theorem setResume_deadline (h : Hart) (st : StreamId) (v : Word64) : (h.setResume st v).deadline = h.deadline := by cases st <;> rfl
@[simp] theorem setResume_triggered (h : Hart) (st : StreamId) (v : Word64) : (h.setResume st v).triggered = h.triggered := by cases st <;> rfl
@[simp] theorem setResume_pend (h : Hart) (st : StreamId) (v : Word64) : (h.setResume st v).pend = h.pend := by cases st <;> rfl
@[simp] theorem setResume_sync (h : Hart) (st : StreamId) (v : Word64) : (h.setResume st v).sync = h.sync := by cases st <;> rfl
@[simp] theorem setResume_arrival (h : Hart) (st : StreamId) (v : Word64) : (h.setResume st v).arrival = h.arrival := by cases st <;> rfl
@[simp] theorem setResume_splitDone (h : Hart) (st : StreamId) (v : Word64) : (h.setResume st v).splitDone = h.splitDone := by cases st <;> rfl
@[simp] theorem setResume_syncDone (h : Hart) (st : StreamId) (v : Word64) : (h.setResume st v).syncDone = h.syncDone := by cases st <;> rfl
@[simp] theorem setResume_groups (h : Hart) (st : StreamId) (v : Word64) : (h.setResume st v).groups = h.groups := by cases st <;> rfl
@[simp] theorem setResume_transfers (h : Hart) (st : StreamId) (v : Word64) : (h.setResume st v).transfers = h.transfers := by cases st <;> rfl
@[simp] theorem setResume_records (h : Hart) (st : StreamId) (v : Word64) : (h.setResume st v).records = h.records := by cases st <;> rfl
@[simp] theorem setResume_waitA (h : Hart) (st : StreamId) (v : Word64) : (h.setResume st v).waitA = h.waitA := by cases st <;> rfl
@[simp] theorem setResume_waitX (h : Hart) (st : StreamId) (v : Word64) : (h.setResume st v).waitX = h.waitX := by cases st <;> rfl
@[simp] theorem setResume_deadCount (h : Hart) (st : StreamId) (v : Word64) : (h.setResume st v).deadCount = h.deadCount := by cases st <;> rfl
@[simp] theorem setResume_refA (h : Hart) (st : StreamId) (v : Word64) : (h.setResume st v).refA = h.refA := by cases st <;> rfl
@[simp] theorem setResume_refX (h : Hart) (st : StreamId) (v : Word64) : (h.setResume st v).refX = h.refX := by cases st <;> rfl
@[simp] theorem setResume_stopped (h : Hart) (st : StreamId) (v : Word64) : (h.setResume st v).stopped = h.stopped := by cases st <;> rfl
@[simp] theorem setResume_coop (h : Hart) (st : StreamId) (v : Word64) : (h.setResume st v).coop = h.coop := by cases st <;> rfl
@[simp] theorem setResume_halted (h : Hart) (st : StreamId) (v : Word64) : (h.setResume st v).halted = h.halted := by cases st <;> rfl
@[simp] theorem setResume_retake (h : Hart) (st : StreamId) (v : Word64) : (h.setResume st v).retake = h.retake := by cases st <;> rfl
@[simp] theorem setResume_entered (h : Hart) (st : StreamId) (v : Word64) : (h.setResume st v).entered = h.entered := by cases st <;> rfl
@[simp] theorem setResume_banks (h : Hart) (st : StreamId) (v : Word64) : (h.setResume st v).banks = h.banks := by cases st <;> rfl
@[simp] theorem setResume_firstWait (h : Hart) (st : StreamId) (v : Word64) : (h.setResume st v).firstWait = h.firstWait := by cases st <;> rfl
@[simp] theorem setResume_wordX (h : Hart) (st : StreamId) (v : Word64) : (h.setResume st v).wordX = h.wordX := by cases st <;> rfl
@[simp] theorem setResume_waitCap (h : Hart) (st : StreamId) (v : Word64) : (h.setResume st v).waitCap = h.waitCap := by cases st <;> rfl
@[simp] theorem setResume_acked (h : Hart) (st : StreamId) (v : Word64) : (h.setResume st v).acked = h.acked := by cases st <;> rfl
@[simp] theorem setResume_image (h : Hart) (st : StreamId) (v : Word64) : (h.setResume st v).image = h.image := by cases st <;> rfl

@[simp] theorem stirred_slot (h : Hart) : h.stirred.slot = h.slot := rfl
@[simp] theorem stirred_asid (h : Hart) : h.stirred.asid = h.asid := rfl
@[simp] theorem stirred_kernel (h : Hart) : h.stirred.kernel = h.kernel := rfl
@[simp] theorem stirred_xs (h : Hart) : h.stirred.xs = h.xs := rfl
@[simp] theorem stirred_as (h : Hart) : h.stirred.as = h.as := rfl
@[simp] theorem stirred_xpc (h : Hart) : h.stirred.xpc = h.xpc := rfl
@[simp] theorem stirred_apc (h : Hart) : h.stirred.apc = h.apc := rfl
@[simp] theorem stirred_arun (h : Hart) : h.stirred.arun = h.arun := rfl
@[simp] theorem stirred_priv (h : Hart) : h.stirred.priv = h.priv := rfl
@[simp] theorem stirred_win (h : Hart) : h.stirred.win = h.win := rfl
@[simp] theorem stirred_vl (h : Hart) : h.stirred.vl = h.vl := rfl
@[simp] theorem stirred_vt (h : Hart) : h.stirred.vt = h.vt := rfl
@[simp] theorem stirred_md (h : Hart) : h.stirred.md = h.md := rfl
@[simp] theorem stirred_v (h : Hart) : h.stirred.v = h.v := rfl
@[simp] theorem stirred_p (h : Hart) : h.stirred.p = h.p := rfl
@[simp] theorem stirred_k (h : Hart) : h.stirred.k = h.k := rfl
@[simp] theorem stirred_d (h : Hart) : h.stirred.d = h.d := rfl
@[simp] theorem stirred_b (h : Hart) : h.stirred.b = h.b := rfl
@[simp] theorem stirred_vq (h : Hart) : h.stirred.vq = h.vq := rfl
@[simp] theorem stirred_q4 (h : Hart) : h.stirred.q4 = h.q4 := rfl
@[simp] theorem stirred_q5 (h : Hart) : h.stirred.q5 = h.q5 := rfl
@[simp] theorem stirred_q6 (h : Hart) : h.stirred.q6 = h.q6 := rfl
@[simp] theorem stirred_q7 (h : Hart) : h.stirred.q7 = h.q7 := rfl
@[simp] theorem stirred_sp (h : Hart) : h.stirred.sp = h.sp := rfl
@[simp] theorem stirred_resumeA (h : Hart) : h.stirred.resumeA = h.resumeA := rfl
@[simp] theorem stirred_resumeX (h : Hart) : h.stirred.resumeX = h.resumeX := rfl
@[simp] theorem stirred_grant (h : Hart) : h.stirred.grant = h.grant := rfl
@[simp] theorem stirred_req (h : Hart) : h.stirred.req = h.req := rfl
@[simp] theorem stirred_gcoord (h : Hart) : h.stirred.gcoord = h.gcoord := rfl
@[simp] theorem stirred_agc (h : Hart) : h.stirred.agc = h.agc := rfl
@[simp] theorem stirred_rfc (h : Hart) : h.stirred.rfc = h.rfc := rfl
@[simp] theorem stirred_nanpc (h : Hart) : h.stirred.nanpc = h.nanpc := rfl
@[simp] theorem stirred_nanv (h : Hart) : h.stirred.nanv = h.nanv := rfl
@[simp] theorem stirred_nanelem (h : Hart) : h.stirred.nanelem = h.nanelem := rfl
@[simp] theorem stirred_nanSeq (h : Hart) : h.stirred.nanSeq = h.nanSeq := rfl
@[simp] theorem stirred_nanArm (h : Hart) : h.stirred.nanArm = h.nanArm := rfl
@[simp] theorem stirred_rseed (h : Hart) : h.stirred.rseed = h.rseed := rfl
@[simp] theorem stirred_gen (h : Hart) : h.stirred.gen = h.gen := rfl
@[simp] theorem stirred_ecause (h : Hart) : h.stirred.ecause = h.ecause := rfl
@[simp] theorem stirred_epc (h : Hart) : h.stirred.epc = h.epc := rfl
@[simp] theorem stirred_etval (h : Hart) : h.stirred.etval = h.etval := rfl
@[simp] theorem stirred_estream (h : Hart) : h.stirred.estream = h.estream := rfl
@[simp] theorem stirred_estatus (h : Hart) : h.stirred.estatus = h.estatus := rfl
@[simp] theorem stirred_thandler (h : Hart) : h.stirred.thandler = h.thandler := rfl
@[simp] theorem stirred_tstack (h : Hart) : h.stirred.tstack = h.tstack := rfl
@[simp] theorem stirred_ewin (h : Hart) : h.stirred.ewin = h.ewin := rfl
@[simp] theorem stirred_vres (h : Hart) : h.stirred.vres = h.vres := rfl
@[simp] theorem stirred_vdirty (h : Hart) : h.stirred.vdirty = h.vdirty := rfl
@[simp] theorem stirred_vorder (h : Hart) : h.stirred.vorder = h.vorder := rfl
@[simp] theorem stirred_pres (h : Hart) : h.stirred.pres = h.pres := rfl
@[simp] theorem stirred_pdirty (h : Hart) : h.stirred.pdirty = h.pdirty := rfl
@[simp] theorem stirred_porder (h : Hart) : h.stirred.porder = h.porder := rfl
@[simp] theorem stirred_vslot (h : Hart) : h.stirred.vslot = h.vslot := rfl
@[simp] theorem stirred_pslot (h : Hart) : h.stirred.pslot = h.pslot := rfl
@[simp] theorem stirred_vplace (h : Hart) : h.stirred.vplace = h.vplace := rfl
@[simp] theorem stirred_openA (h : Hart) : h.stirred.openA = h.openA := rfl
@[simp] theorem stirred_strip (h : Hart) : h.stirred.strip = h.strip := rfl
@[simp] theorem stirred_tagCtr (h : Hart) : h.stirred.tagCtr = h.tagCtr := rfl
@[simp] theorem stirred_deadline (h : Hart) : h.stirred.deadline = h.deadline := rfl
@[simp] theorem stirred_triggered (h : Hart) : h.stirred.triggered = h.triggered := rfl
@[simp] theorem stirred_pend (h : Hart) : h.stirred.pend = h.pend := rfl
@[simp] theorem stirred_sync (h : Hart) : h.stirred.sync = h.sync := rfl
@[simp] theorem stirred_arrival (h : Hart) : h.stirred.arrival = h.arrival := rfl
@[simp] theorem stirred_splitDone (h : Hart) : h.stirred.splitDone = h.splitDone := rfl
@[simp] theorem stirred_syncDone (h : Hart) : h.stirred.syncDone = h.syncDone := rfl
@[simp] theorem stirred_groups (h : Hart) : h.stirred.groups = h.groups := rfl
@[simp] theorem stirred_transfers (h : Hart) : h.stirred.transfers = h.transfers := rfl
@[simp] theorem stirred_records (h : Hart) : h.stirred.records = h.records := rfl
@[simp] theorem stirred_waitA (h : Hart) : h.stirred.waitA = none := rfl
@[simp] theorem stirred_waitX (h : Hart) : h.stirred.waitX = none := rfl
@[simp] theorem stirred_deadCount (h : Hart) : h.stirred.deadCount = 0 := rfl
@[simp] theorem stirred_refA (h : Hart) : h.stirred.refA = h.refA := rfl
@[simp] theorem stirred_refX (h : Hart) : h.stirred.refX = h.refX := rfl
@[simp] theorem stirred_stopped (h : Hart) : h.stirred.stopped = h.stopped := rfl
@[simp] theorem stirred_coop (h : Hart) : h.stirred.coop = h.coop := rfl
@[simp] theorem stirred_halted (h : Hart) : h.stirred.halted = h.halted := rfl
@[simp] theorem stirred_retake (h : Hart) : h.stirred.retake = h.retake := rfl
@[simp] theorem stirred_entered (h : Hart) : h.stirred.entered = h.entered := rfl
@[simp] theorem stirred_banks (h : Hart) : h.stirred.banks = h.banks := rfl
@[simp] theorem stirred_firstWait (h : Hart) : h.stirred.firstWait = h.firstWait := rfl
@[simp] theorem stirred_wordX (h : Hart) : h.stirred.wordX = h.wordX := rfl
@[simp] theorem stirred_waitCap (h : Hart) : h.stirred.waitCap = h.waitCap := rfl
@[simp] theorem stirred_acked (h : Hart) : h.stirred.acked = h.acked := rfl
@[simp] theorem stirred_image (h : Hart) : h.stirred.image = h.image := rfl

@[simp] theorem setV_slot (h : Hart) (r bits : Nat) (t : Fmt) : (h.setV r bits t).slot = h.slot := rfl
@[simp] theorem setV_asid (h : Hart) (r bits : Nat) (t : Fmt) : (h.setV r bits t).asid = h.asid := rfl
@[simp] theorem setV_kernel (h : Hart) (r bits : Nat) (t : Fmt) : (h.setV r bits t).kernel = h.kernel := rfl
@[simp] theorem setV_xs (h : Hart) (r bits : Nat) (t : Fmt) : (h.setV r bits t).xs = h.xs := rfl
@[simp] theorem setV_as (h : Hart) (r bits : Nat) (t : Fmt) : (h.setV r bits t).as = h.as := rfl
@[simp] theorem setV_xpc (h : Hart) (r bits : Nat) (t : Fmt) : (h.setV r bits t).xpc = h.xpc := rfl
@[simp] theorem setV_apc (h : Hart) (r bits : Nat) (t : Fmt) : (h.setV r bits t).apc = h.apc := rfl
@[simp] theorem setV_arun (h : Hart) (r bits : Nat) (t : Fmt) : (h.setV r bits t).arun = h.arun := rfl
@[simp] theorem setV_priv (h : Hart) (r bits : Nat) (t : Fmt) : (h.setV r bits t).priv = h.priv := rfl
@[simp] theorem setV_win (h : Hart) (r bits : Nat) (t : Fmt) : (h.setV r bits t).win = h.win := rfl
@[simp] theorem setV_vl (h : Hart) (r bits : Nat) (t : Fmt) : (h.setV r bits t).vl = h.vl := rfl
@[simp] theorem setV_vt (h : Hart) (r bits : Nat) (t : Fmt) : (h.setV r bits t).vt = h.vt := rfl
@[simp] theorem setV_md (h : Hart) (r bits : Nat) (t : Fmt) : (h.setV r bits t).md = h.md := rfl
@[simp] theorem setV_p (h : Hart) (r bits : Nat) (t : Fmt) : (h.setV r bits t).p = h.p := rfl
@[simp] theorem setV_k (h : Hart) (r bits : Nat) (t : Fmt) : (h.setV r bits t).k = h.k := rfl
@[simp] theorem setV_d (h : Hart) (r bits : Nat) (t : Fmt) : (h.setV r bits t).d = h.d := rfl
@[simp] theorem setV_b (h : Hart) (r bits : Nat) (t : Fmt) : (h.setV r bits t).b = h.b := rfl
@[simp] theorem setV_vq (h : Hart) (r bits : Nat) (t : Fmt) : (h.setV r bits t).vq = h.vq := rfl
@[simp] theorem setV_q4 (h : Hart) (r bits : Nat) (t : Fmt) : (h.setV r bits t).q4 = h.q4 := rfl
@[simp] theorem setV_q5 (h : Hart) (r bits : Nat) (t : Fmt) : (h.setV r bits t).q5 = h.q5 := rfl
@[simp] theorem setV_q6 (h : Hart) (r bits : Nat) (t : Fmt) : (h.setV r bits t).q6 = h.q6 := rfl
@[simp] theorem setV_q7 (h : Hart) (r bits : Nat) (t : Fmt) : (h.setV r bits t).q7 = h.q7 := rfl
@[simp] theorem setV_sp (h : Hart) (r bits : Nat) (t : Fmt) : (h.setV r bits t).sp = h.sp := rfl
@[simp] theorem setV_resumeA (h : Hart) (r bits : Nat) (t : Fmt) : (h.setV r bits t).resumeA = h.resumeA := rfl
@[simp] theorem setV_resumeX (h : Hart) (r bits : Nat) (t : Fmt) : (h.setV r bits t).resumeX = h.resumeX := rfl
@[simp] theorem setV_grant (h : Hart) (r bits : Nat) (t : Fmt) : (h.setV r bits t).grant = h.grant := rfl
@[simp] theorem setV_req (h : Hart) (r bits : Nat) (t : Fmt) : (h.setV r bits t).req = h.req := rfl
@[simp] theorem setV_gcoord (h : Hart) (r bits : Nat) (t : Fmt) : (h.setV r bits t).gcoord = h.gcoord := rfl
@[simp] theorem setV_agc (h : Hart) (r bits : Nat) (t : Fmt) : (h.setV r bits t).agc = h.agc := rfl
@[simp] theorem setV_rfc (h : Hart) (r bits : Nat) (t : Fmt) : (h.setV r bits t).rfc = h.rfc := rfl
@[simp] theorem setV_nanpc (h : Hart) (r bits : Nat) (t : Fmt) : (h.setV r bits t).nanpc = h.nanpc := rfl
@[simp] theorem setV_nanv (h : Hart) (r bits : Nat) (t : Fmt) : (h.setV r bits t).nanv = h.nanv := rfl
@[simp] theorem setV_nanelem (h : Hart) (r bits : Nat) (t : Fmt) : (h.setV r bits t).nanelem = h.nanelem := rfl
@[simp] theorem setV_nanSeq (h : Hart) (r bits : Nat) (t : Fmt) : (h.setV r bits t).nanSeq = h.nanSeq := rfl
@[simp] theorem setV_nanArm (h : Hart) (r bits : Nat) (t : Fmt) : (h.setV r bits t).nanArm = h.nanArm := rfl
@[simp] theorem setV_rseed (h : Hart) (r bits : Nat) (t : Fmt) : (h.setV r bits t).rseed = h.rseed := rfl
@[simp] theorem setV_gen (h : Hart) (r bits : Nat) (t : Fmt) : (h.setV r bits t).gen = h.gen := rfl
@[simp] theorem setV_ecause (h : Hart) (r bits : Nat) (t : Fmt) : (h.setV r bits t).ecause = h.ecause := rfl
@[simp] theorem setV_epc (h : Hart) (r bits : Nat) (t : Fmt) : (h.setV r bits t).epc = h.epc := rfl
@[simp] theorem setV_etval (h : Hart) (r bits : Nat) (t : Fmt) : (h.setV r bits t).etval = h.etval := rfl
@[simp] theorem setV_estream (h : Hart) (r bits : Nat) (t : Fmt) : (h.setV r bits t).estream = h.estream := rfl
@[simp] theorem setV_estatus (h : Hart) (r bits : Nat) (t : Fmt) : (h.setV r bits t).estatus = h.estatus := rfl
@[simp] theorem setV_thandler (h : Hart) (r bits : Nat) (t : Fmt) : (h.setV r bits t).thandler = h.thandler := rfl
@[simp] theorem setV_tstack (h : Hart) (r bits : Nat) (t : Fmt) : (h.setV r bits t).tstack = h.tstack := rfl
@[simp] theorem setV_ewin (h : Hart) (r bits : Nat) (t : Fmt) : (h.setV r bits t).ewin = h.ewin := rfl
@[simp] theorem setV_vres (h : Hart) (r bits : Nat) (t : Fmt) : (h.setV r bits t).vres = h.vres := rfl
@[simp] theorem setV_vdirty (h : Hart) (r bits : Nat) (t : Fmt) : (h.setV r bits t).vdirty = h.vdirty := rfl
@[simp] theorem setV_vorder (h : Hart) (r bits : Nat) (t : Fmt) : (h.setV r bits t).vorder = h.vorder := rfl
@[simp] theorem setV_pres (h : Hart) (r bits : Nat) (t : Fmt) : (h.setV r bits t).pres = h.pres := rfl
@[simp] theorem setV_pdirty (h : Hart) (r bits : Nat) (t : Fmt) : (h.setV r bits t).pdirty = h.pdirty := rfl
@[simp] theorem setV_porder (h : Hart) (r bits : Nat) (t : Fmt) : (h.setV r bits t).porder = h.porder := rfl
@[simp] theorem setV_vslot (h : Hart) (r bits : Nat) (t : Fmt) : (h.setV r bits t).vslot = h.vslot := rfl
@[simp] theorem setV_pslot (h : Hart) (r bits : Nat) (t : Fmt) : (h.setV r bits t).pslot = h.pslot := rfl
@[simp] theorem setV_vplace (h : Hart) (r bits : Nat) (t : Fmt) : (h.setV r bits t).vplace = h.vplace := rfl
@[simp] theorem setV_openA (h : Hart) (r bits : Nat) (t : Fmt) : (h.setV r bits t).openA = h.openA := rfl
@[simp] theorem setV_strip (h : Hart) (r bits : Nat) (t : Fmt) : (h.setV r bits t).strip = h.strip := rfl
@[simp] theorem setV_tagCtr (h : Hart) (r bits : Nat) (t : Fmt) : (h.setV r bits t).tagCtr = h.tagCtr := rfl
@[simp] theorem setV_deadline (h : Hart) (r bits : Nat) (t : Fmt) : (h.setV r bits t).deadline = h.deadline := rfl
@[simp] theorem setV_triggered (h : Hart) (r bits : Nat) (t : Fmt) : (h.setV r bits t).triggered = h.triggered := rfl
@[simp] theorem setV_pend (h : Hart) (r bits : Nat) (t : Fmt) : (h.setV r bits t).pend = h.pend := rfl
@[simp] theorem setV_sync (h : Hart) (r bits : Nat) (t : Fmt) : (h.setV r bits t).sync = h.sync := rfl
@[simp] theorem setV_arrival (h : Hart) (r bits : Nat) (t : Fmt) : (h.setV r bits t).arrival = h.arrival := rfl
@[simp] theorem setV_splitDone (h : Hart) (r bits : Nat) (t : Fmt) : (h.setV r bits t).splitDone = h.splitDone := rfl
@[simp] theorem setV_syncDone (h : Hart) (r bits : Nat) (t : Fmt) : (h.setV r bits t).syncDone = h.syncDone := rfl
@[simp] theorem setV_groups (h : Hart) (r bits : Nat) (t : Fmt) : (h.setV r bits t).groups = h.groups := rfl
@[simp] theorem setV_transfers (h : Hart) (r bits : Nat) (t : Fmt) : (h.setV r bits t).transfers = h.transfers := rfl
@[simp] theorem setV_records (h : Hart) (r bits : Nat) (t : Fmt) : (h.setV r bits t).records = h.records := rfl
@[simp] theorem setV_waitA (h : Hart) (r bits : Nat) (t : Fmt) : (h.setV r bits t).waitA = h.waitA := rfl
@[simp] theorem setV_waitX (h : Hart) (r bits : Nat) (t : Fmt) : (h.setV r bits t).waitX = h.waitX := rfl
@[simp] theorem setV_deadCount (h : Hart) (r bits : Nat) (t : Fmt) : (h.setV r bits t).deadCount = h.deadCount := rfl
@[simp] theorem setV_refA (h : Hart) (r bits : Nat) (t : Fmt) : (h.setV r bits t).refA = h.refA := rfl
@[simp] theorem setV_refX (h : Hart) (r bits : Nat) (t : Fmt) : (h.setV r bits t).refX = h.refX := rfl
@[simp] theorem setV_stopped (h : Hart) (r bits : Nat) (t : Fmt) : (h.setV r bits t).stopped = h.stopped := rfl
@[simp] theorem setV_coop (h : Hart) (r bits : Nat) (t : Fmt) : (h.setV r bits t).coop = h.coop := rfl
@[simp] theorem setV_halted (h : Hart) (r bits : Nat) (t : Fmt) : (h.setV r bits t).halted = h.halted := rfl
@[simp] theorem setV_retake (h : Hart) (r bits : Nat) (t : Fmt) : (h.setV r bits t).retake = h.retake := rfl
@[simp] theorem setV_entered (h : Hart) (r bits : Nat) (t : Fmt) : (h.setV r bits t).entered = h.entered := rfl
@[simp] theorem setV_banks (h : Hart) (r bits : Nat) (t : Fmt) : (h.setV r bits t).banks = h.banks := rfl
@[simp] theorem setV_firstWait (h : Hart) (r bits : Nat) (t : Fmt) : (h.setV r bits t).firstWait = h.firstWait := rfl
@[simp] theorem setV_wordX (h : Hart) (r bits : Nat) (t : Fmt) : (h.setV r bits t).wordX = h.wordX := rfl
@[simp] theorem setV_waitCap (h : Hart) (r bits : Nat) (t : Fmt) : (h.setV r bits t).waitCap = h.waitCap := rfl
@[simp] theorem setV_acked (h : Hart) (r bits : Nat) (t : Fmt) : (h.setV r bits t).acked = h.acked := rfl
@[simp] theorem setV_image (h : Hart) (r bits : Nat) (t : Fmt) : (h.setV r bits t).image = h.image := rfl

@[simp] theorem setP_slot (h : Hart) (r bits : Nat) : (h.setP r bits).slot = h.slot := rfl
@[simp] theorem setP_asid (h : Hart) (r bits : Nat) : (h.setP r bits).asid = h.asid := rfl
@[simp] theorem setP_kernel (h : Hart) (r bits : Nat) : (h.setP r bits).kernel = h.kernel := rfl
@[simp] theorem setP_xs (h : Hart) (r bits : Nat) : (h.setP r bits).xs = h.xs := rfl
@[simp] theorem setP_as (h : Hart) (r bits : Nat) : (h.setP r bits).as = h.as := rfl
@[simp] theorem setP_xpc (h : Hart) (r bits : Nat) : (h.setP r bits).xpc = h.xpc := rfl
@[simp] theorem setP_apc (h : Hart) (r bits : Nat) : (h.setP r bits).apc = h.apc := rfl
@[simp] theorem setP_arun (h : Hart) (r bits : Nat) : (h.setP r bits).arun = h.arun := rfl
@[simp] theorem setP_priv (h : Hart) (r bits : Nat) : (h.setP r bits).priv = h.priv := rfl
@[simp] theorem setP_win (h : Hart) (r bits : Nat) : (h.setP r bits).win = h.win := rfl
@[simp] theorem setP_vl (h : Hart) (r bits : Nat) : (h.setP r bits).vl = h.vl := rfl
@[simp] theorem setP_vt (h : Hart) (r bits : Nat) : (h.setP r bits).vt = h.vt := rfl
@[simp] theorem setP_md (h : Hart) (r bits : Nat) : (h.setP r bits).md = h.md := rfl
@[simp] theorem setP_v (h : Hart) (r bits : Nat) : (h.setP r bits).v = h.v := rfl
@[simp] theorem setP_k (h : Hart) (r bits : Nat) : (h.setP r bits).k = h.k := rfl
@[simp] theorem setP_d (h : Hart) (r bits : Nat) : (h.setP r bits).d = h.d := rfl
@[simp] theorem setP_b (h : Hart) (r bits : Nat) : (h.setP r bits).b = h.b := rfl
@[simp] theorem setP_vq (h : Hart) (r bits : Nat) : (h.setP r bits).vq = h.vq := rfl
@[simp] theorem setP_q4 (h : Hart) (r bits : Nat) : (h.setP r bits).q4 = h.q4 := rfl
@[simp] theorem setP_q5 (h : Hart) (r bits : Nat) : (h.setP r bits).q5 = h.q5 := rfl
@[simp] theorem setP_q6 (h : Hart) (r bits : Nat) : (h.setP r bits).q6 = h.q6 := rfl
@[simp] theorem setP_q7 (h : Hart) (r bits : Nat) : (h.setP r bits).q7 = h.q7 := rfl
@[simp] theorem setP_sp (h : Hart) (r bits : Nat) : (h.setP r bits).sp = h.sp := rfl
@[simp] theorem setP_resumeA (h : Hart) (r bits : Nat) : (h.setP r bits).resumeA = h.resumeA := rfl
@[simp] theorem setP_resumeX (h : Hart) (r bits : Nat) : (h.setP r bits).resumeX = h.resumeX := rfl
@[simp] theorem setP_grant (h : Hart) (r bits : Nat) : (h.setP r bits).grant = h.grant := rfl
@[simp] theorem setP_req (h : Hart) (r bits : Nat) : (h.setP r bits).req = h.req := rfl
@[simp] theorem setP_gcoord (h : Hart) (r bits : Nat) : (h.setP r bits).gcoord = h.gcoord := rfl
@[simp] theorem setP_agc (h : Hart) (r bits : Nat) : (h.setP r bits).agc = h.agc := rfl
@[simp] theorem setP_rfc (h : Hart) (r bits : Nat) : (h.setP r bits).rfc = h.rfc := rfl
@[simp] theorem setP_nanpc (h : Hart) (r bits : Nat) : (h.setP r bits).nanpc = h.nanpc := rfl
@[simp] theorem setP_nanv (h : Hart) (r bits : Nat) : (h.setP r bits).nanv = h.nanv := rfl
@[simp] theorem setP_nanelem (h : Hart) (r bits : Nat) : (h.setP r bits).nanelem = h.nanelem := rfl
@[simp] theorem setP_nanSeq (h : Hart) (r bits : Nat) : (h.setP r bits).nanSeq = h.nanSeq := rfl
@[simp] theorem setP_nanArm (h : Hart) (r bits : Nat) : (h.setP r bits).nanArm = h.nanArm := rfl
@[simp] theorem setP_rseed (h : Hart) (r bits : Nat) : (h.setP r bits).rseed = h.rseed := rfl
@[simp] theorem setP_gen (h : Hart) (r bits : Nat) : (h.setP r bits).gen = h.gen := rfl
@[simp] theorem setP_ecause (h : Hart) (r bits : Nat) : (h.setP r bits).ecause = h.ecause := rfl
@[simp] theorem setP_epc (h : Hart) (r bits : Nat) : (h.setP r bits).epc = h.epc := rfl
@[simp] theorem setP_etval (h : Hart) (r bits : Nat) : (h.setP r bits).etval = h.etval := rfl
@[simp] theorem setP_estream (h : Hart) (r bits : Nat) : (h.setP r bits).estream = h.estream := rfl
@[simp] theorem setP_estatus (h : Hart) (r bits : Nat) : (h.setP r bits).estatus = h.estatus := rfl
@[simp] theorem setP_thandler (h : Hart) (r bits : Nat) : (h.setP r bits).thandler = h.thandler := rfl
@[simp] theorem setP_tstack (h : Hart) (r bits : Nat) : (h.setP r bits).tstack = h.tstack := rfl
@[simp] theorem setP_ewin (h : Hart) (r bits : Nat) : (h.setP r bits).ewin = h.ewin := rfl
@[simp] theorem setP_vres (h : Hart) (r bits : Nat) : (h.setP r bits).vres = h.vres := rfl
@[simp] theorem setP_vdirty (h : Hart) (r bits : Nat) : (h.setP r bits).vdirty = h.vdirty := rfl
@[simp] theorem setP_vorder (h : Hart) (r bits : Nat) : (h.setP r bits).vorder = h.vorder := rfl
@[simp] theorem setP_pres (h : Hart) (r bits : Nat) : (h.setP r bits).pres = h.pres := rfl
@[simp] theorem setP_pdirty (h : Hart) (r bits : Nat) : (h.setP r bits).pdirty = h.pdirty := rfl
@[simp] theorem setP_porder (h : Hart) (r bits : Nat) : (h.setP r bits).porder = h.porder := rfl
@[simp] theorem setP_vslot (h : Hart) (r bits : Nat) : (h.setP r bits).vslot = h.vslot := rfl
@[simp] theorem setP_pslot (h : Hart) (r bits : Nat) : (h.setP r bits).pslot = h.pslot := rfl
@[simp] theorem setP_vplace (h : Hart) (r bits : Nat) : (h.setP r bits).vplace = h.vplace := rfl
@[simp] theorem setP_openA (h : Hart) (r bits : Nat) : (h.setP r bits).openA = h.openA := rfl
@[simp] theorem setP_strip (h : Hart) (r bits : Nat) : (h.setP r bits).strip = h.strip := rfl
@[simp] theorem setP_tagCtr (h : Hart) (r bits : Nat) : (h.setP r bits).tagCtr = h.tagCtr := rfl
@[simp] theorem setP_deadline (h : Hart) (r bits : Nat) : (h.setP r bits).deadline = h.deadline := rfl
@[simp] theorem setP_triggered (h : Hart) (r bits : Nat) : (h.setP r bits).triggered = h.triggered := rfl
@[simp] theorem setP_pend (h : Hart) (r bits : Nat) : (h.setP r bits).pend = h.pend := rfl
@[simp] theorem setP_sync (h : Hart) (r bits : Nat) : (h.setP r bits).sync = h.sync := rfl
@[simp] theorem setP_arrival (h : Hart) (r bits : Nat) : (h.setP r bits).arrival = h.arrival := rfl
@[simp] theorem setP_splitDone (h : Hart) (r bits : Nat) : (h.setP r bits).splitDone = h.splitDone := rfl
@[simp] theorem setP_syncDone (h : Hart) (r bits : Nat) : (h.setP r bits).syncDone = h.syncDone := rfl
@[simp] theorem setP_groups (h : Hart) (r bits : Nat) : (h.setP r bits).groups = h.groups := rfl
@[simp] theorem setP_transfers (h : Hart) (r bits : Nat) : (h.setP r bits).transfers = h.transfers := rfl
@[simp] theorem setP_records (h : Hart) (r bits : Nat) : (h.setP r bits).records = h.records := rfl
@[simp] theorem setP_waitA (h : Hart) (r bits : Nat) : (h.setP r bits).waitA = h.waitA := rfl
@[simp] theorem setP_waitX (h : Hart) (r bits : Nat) : (h.setP r bits).waitX = h.waitX := rfl
@[simp] theorem setP_deadCount (h : Hart) (r bits : Nat) : (h.setP r bits).deadCount = h.deadCount := rfl
@[simp] theorem setP_refA (h : Hart) (r bits : Nat) : (h.setP r bits).refA = h.refA := rfl
@[simp] theorem setP_refX (h : Hart) (r bits : Nat) : (h.setP r bits).refX = h.refX := rfl
@[simp] theorem setP_stopped (h : Hart) (r bits : Nat) : (h.setP r bits).stopped = h.stopped := rfl
@[simp] theorem setP_coop (h : Hart) (r bits : Nat) : (h.setP r bits).coop = h.coop := rfl
@[simp] theorem setP_halted (h : Hart) (r bits : Nat) : (h.setP r bits).halted = h.halted := rfl
@[simp] theorem setP_retake (h : Hart) (r bits : Nat) : (h.setP r bits).retake = h.retake := rfl
@[simp] theorem setP_entered (h : Hart) (r bits : Nat) : (h.setP r bits).entered = h.entered := rfl
@[simp] theorem setP_banks (h : Hart) (r bits : Nat) : (h.setP r bits).banks = h.banks := rfl
@[simp] theorem setP_firstWait (h : Hart) (r bits : Nat) : (h.setP r bits).firstWait = h.firstWait := rfl
@[simp] theorem setP_wordX (h : Hart) (r bits : Nat) : (h.setP r bits).wordX = h.wordX := rfl
@[simp] theorem setP_waitCap (h : Hart) (r bits : Nat) : (h.setP r bits).waitCap = h.waitCap := rfl
@[simp] theorem setP_acked (h : Hart) (r bits : Nat) : (h.setP r bits).acked = h.acked := rfl
@[simp] theorem setP_image (h : Hart) (r bits : Nat) : (h.setP r bits).image = h.image := rfl

@[simp] theorem takeNan_slot (h : Hart) (pc : Word64) (seq e : Nat) : (h.takeNan pc seq e).slot = h.slot := by unfold Hart.takeNan; split <;> rfl
@[simp] theorem takeNan_asid (h : Hart) (pc : Word64) (seq e : Nat) : (h.takeNan pc seq e).asid = h.asid := by unfold Hart.takeNan; split <;> rfl
@[simp] theorem takeNan_kernel (h : Hart) (pc : Word64) (seq e : Nat) : (h.takeNan pc seq e).kernel = h.kernel := by unfold Hart.takeNan; split <;> rfl
@[simp] theorem takeNan_xs (h : Hart) (pc : Word64) (seq e : Nat) : (h.takeNan pc seq e).xs = h.xs := by unfold Hart.takeNan; split <;> rfl
@[simp] theorem takeNan_as (h : Hart) (pc : Word64) (seq e : Nat) : (h.takeNan pc seq e).as = h.as := by unfold Hart.takeNan; split <;> rfl
@[simp] theorem takeNan_xpc (h : Hart) (pc : Word64) (seq e : Nat) : (h.takeNan pc seq e).xpc = h.xpc := by unfold Hart.takeNan; split <;> rfl
@[simp] theorem takeNan_apc (h : Hart) (pc : Word64) (seq e : Nat) : (h.takeNan pc seq e).apc = h.apc := by unfold Hart.takeNan; split <;> rfl
@[simp] theorem takeNan_arun (h : Hart) (pc : Word64) (seq e : Nat) : (h.takeNan pc seq e).arun = h.arun := by unfold Hart.takeNan; split <;> rfl
@[simp] theorem takeNan_priv (h : Hart) (pc : Word64) (seq e : Nat) : (h.takeNan pc seq e).priv = h.priv := by unfold Hart.takeNan; split <;> rfl
@[simp] theorem takeNan_win (h : Hart) (pc : Word64) (seq e : Nat) : (h.takeNan pc seq e).win = h.win := by unfold Hart.takeNan; split <;> rfl
@[simp] theorem takeNan_vl (h : Hart) (pc : Word64) (seq e : Nat) : (h.takeNan pc seq e).vl = h.vl := by unfold Hart.takeNan; split <;> rfl
@[simp] theorem takeNan_vt (h : Hart) (pc : Word64) (seq e : Nat) : (h.takeNan pc seq e).vt = h.vt := by unfold Hart.takeNan; split <;> rfl
@[simp] theorem takeNan_md (h : Hart) (pc : Word64) (seq e : Nat) : (h.takeNan pc seq e).md = h.md := by unfold Hart.takeNan; split <;> rfl
@[simp] theorem takeNan_v (h : Hart) (pc : Word64) (seq e : Nat) : (h.takeNan pc seq e).v = h.v := by unfold Hart.takeNan; split <;> rfl
@[simp] theorem takeNan_p (h : Hart) (pc : Word64) (seq e : Nat) : (h.takeNan pc seq e).p = h.p := by unfold Hart.takeNan; split <;> rfl
@[simp] theorem takeNan_k (h : Hart) (pc : Word64) (seq e : Nat) : (h.takeNan pc seq e).k = h.k := by unfold Hart.takeNan; split <;> rfl
@[simp] theorem takeNan_d (h : Hart) (pc : Word64) (seq e : Nat) : (h.takeNan pc seq e).d = h.d := by unfold Hart.takeNan; split <;> rfl
@[simp] theorem takeNan_b (h : Hart) (pc : Word64) (seq e : Nat) : (h.takeNan pc seq e).b = h.b := by unfold Hart.takeNan; split <;> rfl
@[simp] theorem takeNan_vq (h : Hart) (pc : Word64) (seq e : Nat) : (h.takeNan pc seq e).vq = h.vq := by unfold Hart.takeNan; split <;> rfl
@[simp] theorem takeNan_q4 (h : Hart) (pc : Word64) (seq e : Nat) : (h.takeNan pc seq e).q4 = h.q4 := by unfold Hart.takeNan; split <;> rfl
@[simp] theorem takeNan_q5 (h : Hart) (pc : Word64) (seq e : Nat) : (h.takeNan pc seq e).q5 = h.q5 := by unfold Hart.takeNan; split <;> rfl
@[simp] theorem takeNan_q6 (h : Hart) (pc : Word64) (seq e : Nat) : (h.takeNan pc seq e).q6 = h.q6 := by unfold Hart.takeNan; split <;> rfl
@[simp] theorem takeNan_q7 (h : Hart) (pc : Word64) (seq e : Nat) : (h.takeNan pc seq e).q7 = h.q7 := by unfold Hart.takeNan; split <;> rfl
@[simp] theorem takeNan_sp (h : Hart) (pc : Word64) (seq e : Nat) : (h.takeNan pc seq e).sp = h.sp := by unfold Hart.takeNan; split <;> rfl
@[simp] theorem takeNan_resumeA (h : Hart) (pc : Word64) (seq e : Nat) : (h.takeNan pc seq e).resumeA = h.resumeA := by unfold Hart.takeNan; split <;> rfl
@[simp] theorem takeNan_resumeX (h : Hart) (pc : Word64) (seq e : Nat) : (h.takeNan pc seq e).resumeX = h.resumeX := by unfold Hart.takeNan; split <;> rfl
@[simp] theorem takeNan_grant (h : Hart) (pc : Word64) (seq e : Nat) : (h.takeNan pc seq e).grant = h.grant := by unfold Hart.takeNan; split <;> rfl
@[simp] theorem takeNan_req (h : Hart) (pc : Word64) (seq e : Nat) : (h.takeNan pc seq e).req = h.req := by unfold Hart.takeNan; split <;> rfl
@[simp] theorem takeNan_gcoord (h : Hart) (pc : Word64) (seq e : Nat) : (h.takeNan pc seq e).gcoord = h.gcoord := by unfold Hart.takeNan; split <;> rfl
@[simp] theorem takeNan_agc (h : Hart) (pc : Word64) (seq e : Nat) : (h.takeNan pc seq e).agc = h.agc := by unfold Hart.takeNan; split <;> rfl
@[simp] theorem takeNan_rfc (h : Hart) (pc : Word64) (seq e : Nat) : (h.takeNan pc seq e).rfc = h.rfc := by unfold Hart.takeNan; split <;> rfl
@[simp] theorem takeNan_nanArm (h : Hart) (pc : Word64) (seq e : Nat) : (h.takeNan pc seq e).nanArm = h.nanArm := by unfold Hart.takeNan; split <;> rfl
@[simp] theorem takeNan_rseed (h : Hart) (pc : Word64) (seq e : Nat) : (h.takeNan pc seq e).rseed = h.rseed := by unfold Hart.takeNan; split <;> rfl
@[simp] theorem takeNan_gen (h : Hart) (pc : Word64) (seq e : Nat) : (h.takeNan pc seq e).gen = h.gen := by unfold Hart.takeNan; split <;> rfl
@[simp] theorem takeNan_ecause (h : Hart) (pc : Word64) (seq e : Nat) : (h.takeNan pc seq e).ecause = h.ecause := by unfold Hart.takeNan; split <;> rfl
@[simp] theorem takeNan_epc (h : Hart) (pc : Word64) (seq e : Nat) : (h.takeNan pc seq e).epc = h.epc := by unfold Hart.takeNan; split <;> rfl
@[simp] theorem takeNan_etval (h : Hart) (pc : Word64) (seq e : Nat) : (h.takeNan pc seq e).etval = h.etval := by unfold Hart.takeNan; split <;> rfl
@[simp] theorem takeNan_estream (h : Hart) (pc : Word64) (seq e : Nat) : (h.takeNan pc seq e).estream = h.estream := by unfold Hart.takeNan; split <;> rfl
@[simp] theorem takeNan_estatus (h : Hart) (pc : Word64) (seq e : Nat) : (h.takeNan pc seq e).estatus = h.estatus := by unfold Hart.takeNan; split <;> rfl
@[simp] theorem takeNan_thandler (h : Hart) (pc : Word64) (seq e : Nat) : (h.takeNan pc seq e).thandler = h.thandler := by unfold Hart.takeNan; split <;> rfl
@[simp] theorem takeNan_tstack (h : Hart) (pc : Word64) (seq e : Nat) : (h.takeNan pc seq e).tstack = h.tstack := by unfold Hart.takeNan; split <;> rfl
@[simp] theorem takeNan_ewin (h : Hart) (pc : Word64) (seq e : Nat) : (h.takeNan pc seq e).ewin = h.ewin := by unfold Hart.takeNan; split <;> rfl
@[simp] theorem takeNan_vres (h : Hart) (pc : Word64) (seq e : Nat) : (h.takeNan pc seq e).vres = h.vres := by unfold Hart.takeNan; split <;> rfl
@[simp] theorem takeNan_vdirty (h : Hart) (pc : Word64) (seq e : Nat) : (h.takeNan pc seq e).vdirty = h.vdirty := by unfold Hart.takeNan; split <;> rfl
@[simp] theorem takeNan_vorder (h : Hart) (pc : Word64) (seq e : Nat) : (h.takeNan pc seq e).vorder = h.vorder := by unfold Hart.takeNan; split <;> rfl
@[simp] theorem takeNan_pres (h : Hart) (pc : Word64) (seq e : Nat) : (h.takeNan pc seq e).pres = h.pres := by unfold Hart.takeNan; split <;> rfl
@[simp] theorem takeNan_pdirty (h : Hart) (pc : Word64) (seq e : Nat) : (h.takeNan pc seq e).pdirty = h.pdirty := by unfold Hart.takeNan; split <;> rfl
@[simp] theorem takeNan_porder (h : Hart) (pc : Word64) (seq e : Nat) : (h.takeNan pc seq e).porder = h.porder := by unfold Hart.takeNan; split <;> rfl
@[simp] theorem takeNan_vslot (h : Hart) (pc : Word64) (seq e : Nat) : (h.takeNan pc seq e).vslot = h.vslot := by unfold Hart.takeNan; split <;> rfl
@[simp] theorem takeNan_pslot (h : Hart) (pc : Word64) (seq e : Nat) : (h.takeNan pc seq e).pslot = h.pslot := by unfold Hart.takeNan; split <;> rfl
@[simp] theorem takeNan_vplace (h : Hart) (pc : Word64) (seq e : Nat) : (h.takeNan pc seq e).vplace = h.vplace := by unfold Hart.takeNan; split <;> rfl
@[simp] theorem takeNan_openA (h : Hart) (pc : Word64) (seq e : Nat) : (h.takeNan pc seq e).openA = h.openA := by unfold Hart.takeNan; split <;> rfl
@[simp] theorem takeNan_strip (h : Hart) (pc : Word64) (seq e : Nat) : (h.takeNan pc seq e).strip = h.strip := by unfold Hart.takeNan; split <;> rfl
@[simp] theorem takeNan_tagCtr (h : Hart) (pc : Word64) (seq e : Nat) : (h.takeNan pc seq e).tagCtr = h.tagCtr := by unfold Hart.takeNan; split <;> rfl
@[simp] theorem takeNan_deadline (h : Hart) (pc : Word64) (seq e : Nat) : (h.takeNan pc seq e).deadline = h.deadline := by unfold Hart.takeNan; split <;> rfl
@[simp] theorem takeNan_triggered (h : Hart) (pc : Word64) (seq e : Nat) : (h.takeNan pc seq e).triggered = h.triggered := by unfold Hart.takeNan; split <;> rfl
@[simp] theorem takeNan_pend (h : Hart) (pc : Word64) (seq e : Nat) : (h.takeNan pc seq e).pend = h.pend := by unfold Hart.takeNan; split <;> rfl
@[simp] theorem takeNan_sync (h : Hart) (pc : Word64) (seq e : Nat) : (h.takeNan pc seq e).sync = h.sync := by unfold Hart.takeNan; split <;> rfl
@[simp] theorem takeNan_arrival (h : Hart) (pc : Word64) (seq e : Nat) : (h.takeNan pc seq e).arrival = h.arrival := by unfold Hart.takeNan; split <;> rfl
@[simp] theorem takeNan_splitDone (h : Hart) (pc : Word64) (seq e : Nat) : (h.takeNan pc seq e).splitDone = h.splitDone := by unfold Hart.takeNan; split <;> rfl
@[simp] theorem takeNan_syncDone (h : Hart) (pc : Word64) (seq e : Nat) : (h.takeNan pc seq e).syncDone = h.syncDone := by unfold Hart.takeNan; split <;> rfl
@[simp] theorem takeNan_groups (h : Hart) (pc : Word64) (seq e : Nat) : (h.takeNan pc seq e).groups = h.groups := by unfold Hart.takeNan; split <;> rfl
@[simp] theorem takeNan_transfers (h : Hart) (pc : Word64) (seq e : Nat) : (h.takeNan pc seq e).transfers = h.transfers := by unfold Hart.takeNan; split <;> rfl
@[simp] theorem takeNan_records (h : Hart) (pc : Word64) (seq e : Nat) : (h.takeNan pc seq e).records = h.records := by unfold Hart.takeNan; split <;> rfl
@[simp] theorem takeNan_waitA (h : Hart) (pc : Word64) (seq e : Nat) : (h.takeNan pc seq e).waitA = h.waitA := by unfold Hart.takeNan; split <;> rfl
@[simp] theorem takeNan_waitX (h : Hart) (pc : Word64) (seq e : Nat) : (h.takeNan pc seq e).waitX = h.waitX := by unfold Hart.takeNan; split <;> rfl
@[simp] theorem takeNan_deadCount (h : Hart) (pc : Word64) (seq e : Nat) : (h.takeNan pc seq e).deadCount = h.deadCount := by unfold Hart.takeNan; split <;> rfl
@[simp] theorem takeNan_refA (h : Hart) (pc : Word64) (seq e : Nat) : (h.takeNan pc seq e).refA = h.refA := by unfold Hart.takeNan; split <;> rfl
@[simp] theorem takeNan_refX (h : Hart) (pc : Word64) (seq e : Nat) : (h.takeNan pc seq e).refX = h.refX := by unfold Hart.takeNan; split <;> rfl
@[simp] theorem takeNan_stopped (h : Hart) (pc : Word64) (seq e : Nat) : (h.takeNan pc seq e).stopped = h.stopped := by unfold Hart.takeNan; split <;> rfl
@[simp] theorem takeNan_coop (h : Hart) (pc : Word64) (seq e : Nat) : (h.takeNan pc seq e).coop = h.coop := by unfold Hart.takeNan; split <;> rfl
@[simp] theorem takeNan_halted (h : Hart) (pc : Word64) (seq e : Nat) : (h.takeNan pc seq e).halted = h.halted := by unfold Hart.takeNan; split <;> rfl
@[simp] theorem takeNan_retake (h : Hart) (pc : Word64) (seq e : Nat) : (h.takeNan pc seq e).retake = h.retake := by unfold Hart.takeNan; split <;> rfl
@[simp] theorem takeNan_entered (h : Hart) (pc : Word64) (seq e : Nat) : (h.takeNan pc seq e).entered = h.entered := by unfold Hart.takeNan; split <;> rfl
@[simp] theorem takeNan_banks (h : Hart) (pc : Word64) (seq e : Nat) : (h.takeNan pc seq e).banks = h.banks := by unfold Hart.takeNan; split <;> rfl
@[simp] theorem takeNan_firstWait (h : Hart) (pc : Word64) (seq e : Nat) : (h.takeNan pc seq e).firstWait = h.firstWait := by unfold Hart.takeNan; split <;> rfl
@[simp] theorem takeNan_wordX (h : Hart) (pc : Word64) (seq e : Nat) : (h.takeNan pc seq e).wordX = h.wordX := by unfold Hart.takeNan; split <;> rfl
@[simp] theorem takeNan_waitCap (h : Hart) (pc : Word64) (seq e : Nat) : (h.takeNan pc seq e).waitCap = h.waitCap := by unfold Hart.takeNan; split <;> rfl
@[simp] theorem takeNan_acked (h : Hart) (pc : Word64) (seq e : Nat) : (h.takeNan pc seq e).acked = h.acked := by unfold Hart.takeNan; split <;> rfl
@[simp] theorem takeNan_image (h : Hart) (pc : Word64) (seq e : Nat) : (h.takeNan pc seq e).image = h.image := by unfold Hart.takeNan; split <;> rfl

@[simp] theorem waiting_slot (h : Hart) (st : StreamId) (word : Word32) (w : Wait) : (h.waiting st word w).slot = h.slot := by cases st <;> rfl
@[simp] theorem waiting_asid (h : Hart) (st : StreamId) (word : Word32) (w : Wait) : (h.waiting st word w).asid = h.asid := by cases st <;> rfl
@[simp] theorem waiting_kernel (h : Hart) (st : StreamId) (word : Word32) (w : Wait) : (h.waiting st word w).kernel = h.kernel := by cases st <;> rfl
@[simp] theorem waiting_xs (h : Hart) (st : StreamId) (word : Word32) (w : Wait) : (h.waiting st word w).xs = h.xs := by cases st <;> rfl
@[simp] theorem waiting_as (h : Hart) (st : StreamId) (word : Word32) (w : Wait) : (h.waiting st word w).as = h.as := by cases st <;> rfl
@[simp] theorem waiting_xpc (h : Hart) (st : StreamId) (word : Word32) (w : Wait) : (h.waiting st word w).xpc = h.xpc := by cases st <;> rfl
@[simp] theorem waiting_apc (h : Hart) (st : StreamId) (word : Word32) (w : Wait) : (h.waiting st word w).apc = h.apc := by cases st <;> rfl
@[simp] theorem waiting_arun (h : Hart) (st : StreamId) (word : Word32) (w : Wait) : (h.waiting st word w).arun = h.arun := by cases st <;> rfl
@[simp] theorem waiting_priv (h : Hart) (st : StreamId) (word : Word32) (w : Wait) : (h.waiting st word w).priv = h.priv := by cases st <;> rfl
@[simp] theorem waiting_win (h : Hart) (st : StreamId) (word : Word32) (w : Wait) : (h.waiting st word w).win = h.win := by cases st <;> rfl
@[simp] theorem waiting_vl (h : Hart) (st : StreamId) (word : Word32) (w : Wait) : (h.waiting st word w).vl = h.vl := by cases st <;> rfl
@[simp] theorem waiting_vt (h : Hart) (st : StreamId) (word : Word32) (w : Wait) : (h.waiting st word w).vt = h.vt := by cases st <;> rfl
@[simp] theorem waiting_md (h : Hart) (st : StreamId) (word : Word32) (w : Wait) : (h.waiting st word w).md = h.md := by cases st <;> rfl
@[simp] theorem waiting_v (h : Hart) (st : StreamId) (word : Word32) (w : Wait) : (h.waiting st word w).v = h.v := by cases st <;> rfl
@[simp] theorem waiting_p (h : Hart) (st : StreamId) (word : Word32) (w : Wait) : (h.waiting st word w).p = h.p := by cases st <;> rfl
@[simp] theorem waiting_k (h : Hart) (st : StreamId) (word : Word32) (w : Wait) : (h.waiting st word w).k = h.k := by cases st <;> rfl
@[simp] theorem waiting_d (h : Hart) (st : StreamId) (word : Word32) (w : Wait) : (h.waiting st word w).d = h.d := by cases st <;> rfl
@[simp] theorem waiting_b (h : Hart) (st : StreamId) (word : Word32) (w : Wait) : (h.waiting st word w).b = h.b := by cases st <;> rfl
@[simp] theorem waiting_vq (h : Hart) (st : StreamId) (word : Word32) (w : Wait) : (h.waiting st word w).vq = h.vq := by cases st <;> rfl
@[simp] theorem waiting_q4 (h : Hart) (st : StreamId) (word : Word32) (w : Wait) : (h.waiting st word w).q4 = h.q4 := by cases st <;> rfl
@[simp] theorem waiting_q5 (h : Hart) (st : StreamId) (word : Word32) (w : Wait) : (h.waiting st word w).q5 = h.q5 := by cases st <;> rfl
@[simp] theorem waiting_q6 (h : Hart) (st : StreamId) (word : Word32) (w : Wait) : (h.waiting st word w).q6 = h.q6 := by cases st <;> rfl
@[simp] theorem waiting_q7 (h : Hart) (st : StreamId) (word : Word32) (w : Wait) : (h.waiting st word w).q7 = h.q7 := by cases st <;> rfl
@[simp] theorem waiting_sp (h : Hart) (st : StreamId) (word : Word32) (w : Wait) : (h.waiting st word w).sp = h.sp := by cases st <;> rfl
@[simp] theorem waiting_resumeA (h : Hart) (st : StreamId) (word : Word32) (w : Wait) : (h.waiting st word w).resumeA = h.resumeA := by cases st <;> rfl
@[simp] theorem waiting_resumeX (h : Hart) (st : StreamId) (word : Word32) (w : Wait) : (h.waiting st word w).resumeX = h.resumeX := by cases st <;> rfl
@[simp] theorem waiting_grant (h : Hart) (st : StreamId) (word : Word32) (w : Wait) : (h.waiting st word w).grant = h.grant := by cases st <;> rfl
@[simp] theorem waiting_req (h : Hart) (st : StreamId) (word : Word32) (w : Wait) : (h.waiting st word w).req = h.req := by cases st <;> rfl
@[simp] theorem waiting_gcoord (h : Hart) (st : StreamId) (word : Word32) (w : Wait) : (h.waiting st word w).gcoord = h.gcoord := by cases st <;> rfl
@[simp] theorem waiting_agc (h : Hart) (st : StreamId) (word : Word32) (w : Wait) : (h.waiting st word w).agc = h.agc := by cases st <;> rfl
@[simp] theorem waiting_rfc (h : Hart) (st : StreamId) (word : Word32) (w : Wait) : (h.waiting st word w).rfc = h.rfc := by cases st <;> rfl
@[simp] theorem waiting_nanpc (h : Hart) (st : StreamId) (word : Word32) (w : Wait) : (h.waiting st word w).nanpc = h.nanpc := by cases st <;> rfl
@[simp] theorem waiting_nanv (h : Hart) (st : StreamId) (word : Word32) (w : Wait) : (h.waiting st word w).nanv = h.nanv := by cases st <;> rfl
@[simp] theorem waiting_nanelem (h : Hart) (st : StreamId) (word : Word32) (w : Wait) : (h.waiting st word w).nanelem = h.nanelem := by cases st <;> rfl
@[simp] theorem waiting_nanSeq (h : Hart) (st : StreamId) (word : Word32) (w : Wait) : (h.waiting st word w).nanSeq = h.nanSeq := by cases st <;> rfl
@[simp] theorem waiting_nanArm (h : Hart) (st : StreamId) (word : Word32) (w : Wait) : (h.waiting st word w).nanArm = h.nanArm := by cases st <;> rfl
@[simp] theorem waiting_rseed (h : Hart) (st : StreamId) (word : Word32) (w : Wait) : (h.waiting st word w).rseed = h.rseed := by cases st <;> rfl
@[simp] theorem waiting_gen (h : Hart) (st : StreamId) (word : Word32) (w : Wait) : (h.waiting st word w).gen = h.gen := by cases st <;> rfl
@[simp] theorem waiting_ecause (h : Hart) (st : StreamId) (word : Word32) (w : Wait) : (h.waiting st word w).ecause = h.ecause := by cases st <;> rfl
@[simp] theorem waiting_epc (h : Hart) (st : StreamId) (word : Word32) (w : Wait) : (h.waiting st word w).epc = h.epc := by cases st <;> rfl
@[simp] theorem waiting_etval (h : Hart) (st : StreamId) (word : Word32) (w : Wait) : (h.waiting st word w).etval = h.etval := by cases st <;> rfl
@[simp] theorem waiting_estream (h : Hart) (st : StreamId) (word : Word32) (w : Wait) : (h.waiting st word w).estream = h.estream := by cases st <;> rfl
@[simp] theorem waiting_estatus (h : Hart) (st : StreamId) (word : Word32) (w : Wait) : (h.waiting st word w).estatus = h.estatus := by cases st <;> rfl
@[simp] theorem waiting_thandler (h : Hart) (st : StreamId) (word : Word32) (w : Wait) : (h.waiting st word w).thandler = h.thandler := by cases st <;> rfl
@[simp] theorem waiting_tstack (h : Hart) (st : StreamId) (word : Word32) (w : Wait) : (h.waiting st word w).tstack = h.tstack := by cases st <;> rfl
@[simp] theorem waiting_ewin (h : Hart) (st : StreamId) (word : Word32) (w : Wait) : (h.waiting st word w).ewin = h.ewin := by cases st <;> rfl
@[simp] theorem waiting_vres (h : Hart) (st : StreamId) (word : Word32) (w : Wait) : (h.waiting st word w).vres = h.vres := by cases st <;> rfl
@[simp] theorem waiting_vdirty (h : Hart) (st : StreamId) (word : Word32) (w : Wait) : (h.waiting st word w).vdirty = h.vdirty := by cases st <;> rfl
@[simp] theorem waiting_vorder (h : Hart) (st : StreamId) (word : Word32) (w : Wait) : (h.waiting st word w).vorder = h.vorder := by cases st <;> rfl
@[simp] theorem waiting_pres (h : Hart) (st : StreamId) (word : Word32) (w : Wait) : (h.waiting st word w).pres = h.pres := by cases st <;> rfl
@[simp] theorem waiting_pdirty (h : Hart) (st : StreamId) (word : Word32) (w : Wait) : (h.waiting st word w).pdirty = h.pdirty := by cases st <;> rfl
@[simp] theorem waiting_porder (h : Hart) (st : StreamId) (word : Word32) (w : Wait) : (h.waiting st word w).porder = h.porder := by cases st <;> rfl
@[simp] theorem waiting_vslot (h : Hart) (st : StreamId) (word : Word32) (w : Wait) : (h.waiting st word w).vslot = h.vslot := by cases st <;> rfl
@[simp] theorem waiting_pslot (h : Hart) (st : StreamId) (word : Word32) (w : Wait) : (h.waiting st word w).pslot = h.pslot := by cases st <;> rfl
@[simp] theorem waiting_vplace (h : Hart) (st : StreamId) (word : Word32) (w : Wait) : (h.waiting st word w).vplace = h.vplace := by cases st <;> rfl
@[simp] theorem waiting_openA (h : Hart) (st : StreamId) (word : Word32) (w : Wait) : (h.waiting st word w).openA = h.openA := by cases st <;> rfl
@[simp] theorem waiting_strip (h : Hart) (st : StreamId) (word : Word32) (w : Wait) : (h.waiting st word w).strip = h.strip := by cases st <;> rfl
@[simp] theorem waiting_tagCtr (h : Hart) (st : StreamId) (word : Word32) (w : Wait) : (h.waiting st word w).tagCtr = h.tagCtr := by cases st <;> rfl
@[simp] theorem waiting_deadline (h : Hart) (st : StreamId) (word : Word32) (w : Wait) : (h.waiting st word w).deadline = h.deadline := by cases st <;> rfl
@[simp] theorem waiting_triggered (h : Hart) (st : StreamId) (word : Word32) (w : Wait) : (h.waiting st word w).triggered = h.triggered := by cases st <;> rfl
@[simp] theorem waiting_pend (h : Hart) (st : StreamId) (word : Word32) (w : Wait) : (h.waiting st word w).pend = h.pend := by cases st <;> rfl
@[simp] theorem waiting_sync (h : Hart) (st : StreamId) (word : Word32) (w : Wait) : (h.waiting st word w).sync = h.sync := by cases st <;> rfl
@[simp] theorem waiting_arrival (h : Hart) (st : StreamId) (word : Word32) (w : Wait) : (h.waiting st word w).arrival = h.arrival := by cases st <;> rfl
@[simp] theorem waiting_splitDone (h : Hart) (st : StreamId) (word : Word32) (w : Wait) : (h.waiting st word w).splitDone = h.splitDone := by cases st <;> rfl
@[simp] theorem waiting_syncDone (h : Hart) (st : StreamId) (word : Word32) (w : Wait) : (h.waiting st word w).syncDone = h.syncDone := by cases st <;> rfl
@[simp] theorem waiting_groups (h : Hart) (st : StreamId) (word : Word32) (w : Wait) : (h.waiting st word w).groups = h.groups := by cases st <;> rfl
@[simp] theorem waiting_transfers (h : Hart) (st : StreamId) (word : Word32) (w : Wait) : (h.waiting st word w).transfers = h.transfers := by cases st <;> rfl
@[simp] theorem waiting_records (h : Hart) (st : StreamId) (word : Word32) (w : Wait) : (h.waiting st word w).records = h.records := by cases st <;> rfl
@[simp] theorem waiting_deadCount (h : Hart) (st : StreamId) (word : Word32) (w : Wait) : (h.waiting st word w).deadCount = h.deadCount := by cases st <;> rfl
@[simp] theorem waiting_refA (h : Hart) (st : StreamId) (word : Word32) (w : Wait) : (h.waiting st word w).refA = h.refA := by cases st <;> rfl
@[simp] theorem waiting_refX (h : Hart) (st : StreamId) (word : Word32) (w : Wait) : (h.waiting st word w).refX = h.refX := by cases st <;> rfl
@[simp] theorem waiting_stopped (h : Hart) (st : StreamId) (word : Word32) (w : Wait) : (h.waiting st word w).stopped = h.stopped := by cases st <;> rfl
@[simp] theorem waiting_coop (h : Hart) (st : StreamId) (word : Word32) (w : Wait) : (h.waiting st word w).coop = h.coop := by cases st <;> rfl
@[simp] theorem waiting_halted (h : Hart) (st : StreamId) (word : Word32) (w : Wait) : (h.waiting st word w).halted = h.halted := by cases st <;> rfl
@[simp] theorem waiting_retake (h : Hart) (st : StreamId) (word : Word32) (w : Wait) : (h.waiting st word w).retake = h.retake := by cases st <;> rfl
@[simp] theorem waiting_entered (h : Hart) (st : StreamId) (word : Word32) (w : Wait) : (h.waiting st word w).entered = h.entered := by cases st <;> rfl
@[simp] theorem waiting_banks (h : Hart) (st : StreamId) (word : Word32) (w : Wait) : (h.waiting st word w).banks = h.banks := by cases st <;> rfl
@[simp] theorem waiting_firstWait (h : Hart) (st : StreamId) (word : Word32) (w : Wait) : (h.waiting st word w).firstWait = h.firstWait := by cases st <;> rfl
@[simp] theorem waiting_waitCap (h : Hart) (st : StreamId) (word : Word32) (w : Wait) : (h.waiting st word w).waitCap = h.waitCap := by cases st <;> rfl
@[simp] theorem waiting_acked (h : Hart) (st : StreamId) (word : Word32) (w : Wait) : (h.waiting st word w).acked = h.acked := by cases st <;> rfl
@[simp] theorem waiting_image (h : Hart) (st : StreamId) (word : Word32) (w : Wait) : (h.waiting st word w).image = h.image := by cases st <;> rfl

@[simp] theorem saveTrap_slot (h : Hart) (st : StreamId) (c : BitVec 8) (v : Word64) (b : BitVec 5) : (h.saveTrap st c v b).slot = h.slot := rfl
@[simp] theorem saveTrap_asid (h : Hart) (st : StreamId) (c : BitVec 8) (v : Word64) (b : BitVec 5) : (h.saveTrap st c v b).asid = h.asid := rfl
@[simp] theorem saveTrap_kernel (h : Hart) (st : StreamId) (c : BitVec 8) (v : Word64) (b : BitVec 5) : (h.saveTrap st c v b).kernel = h.kernel := rfl
@[simp] theorem saveTrap_xs (h : Hart) (st : StreamId) (c : BitVec 8) (v : Word64) (b : BitVec 5) : (h.saveTrap st c v b).xs = h.xs := rfl
@[simp] theorem saveTrap_as (h : Hart) (st : StreamId) (c : BitVec 8) (v : Word64) (b : BitVec 5) : (h.saveTrap st c v b).as = h.as := rfl
@[simp] theorem saveTrap_xpc (h : Hart) (st : StreamId) (c : BitVec 8) (v : Word64) (b : BitVec 5) : (h.saveTrap st c v b).xpc = h.xpc := rfl
@[simp] theorem saveTrap_apc (h : Hart) (st : StreamId) (c : BitVec 8) (v : Word64) (b : BitVec 5) : (h.saveTrap st c v b).apc = h.apc := rfl
@[simp] theorem saveTrap_arun (h : Hart) (st : StreamId) (c : BitVec 8) (v : Word64) (b : BitVec 5) : (h.saveTrap st c v b).arun = h.arun := rfl
@[simp] theorem saveTrap_priv (h : Hart) (st : StreamId) (c : BitVec 8) (v : Word64) (b : BitVec 5) : (h.saveTrap st c v b).priv = h.priv := rfl
@[simp] theorem saveTrap_win (h : Hart) (st : StreamId) (c : BitVec 8) (v : Word64) (b : BitVec 5) : (h.saveTrap st c v b).win = h.win := rfl
@[simp] theorem saveTrap_vl (h : Hart) (st : StreamId) (c : BitVec 8) (v : Word64) (b : BitVec 5) : (h.saveTrap st c v b).vl = h.vl := rfl
@[simp] theorem saveTrap_vt (h : Hart) (st : StreamId) (c : BitVec 8) (v : Word64) (b : BitVec 5) : (h.saveTrap st c v b).vt = h.vt := rfl
@[simp] theorem saveTrap_md (h : Hart) (st : StreamId) (c : BitVec 8) (v : Word64) (b : BitVec 5) : (h.saveTrap st c v b).md = 0 := rfl
@[simp] theorem saveTrap_v (h : Hart) (st : StreamId) (c : BitVec 8) (v : Word64) (b : BitVec 5) : (h.saveTrap st c v b).v = h.v := rfl
@[simp] theorem saveTrap_p (h : Hart) (st : StreamId) (c : BitVec 8) (v : Word64) (b : BitVec 5) : (h.saveTrap st c v b).p = h.p := rfl
@[simp] theorem saveTrap_k (h : Hart) (st : StreamId) (c : BitVec 8) (v : Word64) (b : BitVec 5) : (h.saveTrap st c v b).k = h.k := rfl
@[simp] theorem saveTrap_d (h : Hart) (st : StreamId) (c : BitVec 8) (v : Word64) (b : BitVec 5) : (h.saveTrap st c v b).d = h.d := rfl
@[simp] theorem saveTrap_b (h : Hart) (st : StreamId) (c : BitVec 8) (v : Word64) (b : BitVec 5) : (h.saveTrap st c v b).b = h.b := rfl
@[simp] theorem saveTrap_vq (h : Hart) (st : StreamId) (c : BitVec 8) (v : Word64) (b : BitVec 5) : (h.saveTrap st c v b).vq = h.vq := rfl
@[simp] theorem saveTrap_q4 (h : Hart) (st : StreamId) (c : BitVec 8) (v : Word64) (b : BitVec 5) : (h.saveTrap st c v b).q4 = h.q4 := rfl
@[simp] theorem saveTrap_q5 (h : Hart) (st : StreamId) (c : BitVec 8) (v : Word64) (b : BitVec 5) : (h.saveTrap st c v b).q5 = h.q5 := rfl
@[simp] theorem saveTrap_q6 (h : Hart) (st : StreamId) (c : BitVec 8) (v : Word64) (b : BitVec 5) : (h.saveTrap st c v b).q6 = h.q6 := rfl
@[simp] theorem saveTrap_q7 (h : Hart) (st : StreamId) (c : BitVec 8) (v : Word64) (b : BitVec 5) : (h.saveTrap st c v b).q7 = h.q7 := rfl
@[simp] theorem saveTrap_sp (h : Hart) (st : StreamId) (c : BitVec 8) (v : Word64) (b : BitVec 5) : (h.saveTrap st c v b).sp = h.sp := rfl
@[simp] theorem saveTrap_resumeA (h : Hart) (st : StreamId) (c : BitVec 8) (v : Word64) (b : BitVec 5) : (h.saveTrap st c v b).resumeA = h.resumeA := rfl
@[simp] theorem saveTrap_resumeX (h : Hart) (st : StreamId) (c : BitVec 8) (v : Word64) (b : BitVec 5) : (h.saveTrap st c v b).resumeX = h.resumeX := rfl
@[simp] theorem saveTrap_grant (h : Hart) (st : StreamId) (c : BitVec 8) (v : Word64) (b : BitVec 5) : (h.saveTrap st c v b).grant = h.grant := rfl
@[simp] theorem saveTrap_req (h : Hart) (st : StreamId) (c : BitVec 8) (v : Word64) (b : BitVec 5) : (h.saveTrap st c v b).req = h.req := rfl
@[simp] theorem saveTrap_gcoord (h : Hart) (st : StreamId) (c : BitVec 8) (v : Word64) (b : BitVec 5) : (h.saveTrap st c v b).gcoord = h.gcoord := rfl
@[simp] theorem saveTrap_agc (h : Hart) (st : StreamId) (c : BitVec 8) (v : Word64) (b : BitVec 5) : (h.saveTrap st c v b).agc = h.agc := rfl
@[simp] theorem saveTrap_rfc (h : Hart) (st : StreamId) (c : BitVec 8) (v : Word64) (b : BitVec 5) : (h.saveTrap st c v b).rfc = h.rfc := rfl
@[simp] theorem saveTrap_nanpc (h : Hart) (st : StreamId) (c : BitVec 8) (v : Word64) (b : BitVec 5) : (h.saveTrap st c v b).nanpc = h.nanpc := rfl
@[simp] theorem saveTrap_nanv (h : Hart) (st : StreamId) (c : BitVec 8) (v : Word64) (b : BitVec 5) : (h.saveTrap st c v b).nanv = h.nanv := rfl
@[simp] theorem saveTrap_nanelem (h : Hart) (st : StreamId) (c : BitVec 8) (v : Word64) (b : BitVec 5) : (h.saveTrap st c v b).nanelem = h.nanelem := rfl
@[simp] theorem saveTrap_nanSeq (h : Hart) (st : StreamId) (c : BitVec 8) (v : Word64) (b : BitVec 5) : (h.saveTrap st c v b).nanSeq = h.nanSeq := rfl
@[simp] theorem saveTrap_nanArm (h : Hart) (st : StreamId) (c : BitVec 8) (v : Word64) (b : BitVec 5) : (h.saveTrap st c v b).nanArm = h.nanArm := rfl
@[simp] theorem saveTrap_rseed (h : Hart) (st : StreamId) (c : BitVec 8) (v : Word64) (b : BitVec 5) : (h.saveTrap st c v b).rseed = h.rseed := rfl
@[simp] theorem saveTrap_gen (h : Hart) (st : StreamId) (c : BitVec 8) (v : Word64) (b : BitVec 5) : (h.saveTrap st c v b).gen = h.gen := rfl
@[simp] theorem saveTrap_ecause (h : Hart) (st : StreamId) (c : BitVec 8) (v : Word64) (b : BitVec 5) : (h.saveTrap st c v b).ecause = c := rfl
@[simp] theorem saveTrap_epc (h : Hart) (st : StreamId) (c : BitVec 8) (v : Word64) (b : BitVec 5) : (h.saveTrap st c v b).epc = h.pc st := rfl
@[simp] theorem saveTrap_etval (h : Hart) (st : StreamId) (c : BitVec 8) (v : Word64) (b : BitVec 5) : (h.saveTrap st c v b).etval = v := rfl
@[simp] theorem saveTrap_estream (h : Hart) (st : StreamId) (c : BitVec 8) (v : Word64) (b : BitVec 5) : (h.saveTrap st c v b).estream = decide (st = .a) := rfl
@[simp] theorem saveTrap_thandler (h : Hart) (st : StreamId) (c : BitVec 8) (v : Word64) (b : BitVec 5) : (h.saveTrap st c v b).thandler = h.thandler := rfl
@[simp] theorem saveTrap_tstack (h : Hart) (st : StreamId) (c : BitVec 8) (v : Word64) (b : BitVec 5) : (h.saveTrap st c v b).tstack = h.tstack := rfl
@[simp] theorem saveTrap_ewin (h : Hart) (st : StreamId) (c : BitVec 8) (v : Word64) (b : BitVec 5) : (h.saveTrap st c v b).ewin = h.ewin := rfl
@[simp] theorem saveTrap_vres (h : Hart) (st : StreamId) (c : BitVec 8) (v : Word64) (b : BitVec 5) : (h.saveTrap st c v b).vres = h.vres := rfl
@[simp] theorem saveTrap_vdirty (h : Hart) (st : StreamId) (c : BitVec 8) (v : Word64) (b : BitVec 5) : (h.saveTrap st c v b).vdirty = h.vdirty := rfl
@[simp] theorem saveTrap_vorder (h : Hart) (st : StreamId) (c : BitVec 8) (v : Word64) (b : BitVec 5) : (h.saveTrap st c v b).vorder = h.vorder := rfl
@[simp] theorem saveTrap_pres (h : Hart) (st : StreamId) (c : BitVec 8) (v : Word64) (b : BitVec 5) : (h.saveTrap st c v b).pres = h.pres := rfl
@[simp] theorem saveTrap_pdirty (h : Hart) (st : StreamId) (c : BitVec 8) (v : Word64) (b : BitVec 5) : (h.saveTrap st c v b).pdirty = h.pdirty := rfl
@[simp] theorem saveTrap_porder (h : Hart) (st : StreamId) (c : BitVec 8) (v : Word64) (b : BitVec 5) : (h.saveTrap st c v b).porder = h.porder := rfl
@[simp] theorem saveTrap_vslot (h : Hart) (st : StreamId) (c : BitVec 8) (v : Word64) (b : BitVec 5) : (h.saveTrap st c v b).vslot = h.vslot := rfl
@[simp] theorem saveTrap_pslot (h : Hart) (st : StreamId) (c : BitVec 8) (v : Word64) (b : BitVec 5) : (h.saveTrap st c v b).pslot = h.pslot := rfl
@[simp] theorem saveTrap_vplace (h : Hart) (st : StreamId) (c : BitVec 8) (v : Word64) (b : BitVec 5) : (h.saveTrap st c v b).vplace = h.vplace := rfl
@[simp] theorem saveTrap_strip (h : Hart) (st : StreamId) (c : BitVec 8) (v : Word64) (b : BitVec 5) : (h.saveTrap st c v b).strip = h.strip := rfl
@[simp] theorem saveTrap_tagCtr (h : Hart) (st : StreamId) (c : BitVec 8) (v : Word64) (b : BitVec 5) : (h.saveTrap st c v b).tagCtr = h.tagCtr := rfl
@[simp] theorem saveTrap_deadline (h : Hart) (st : StreamId) (c : BitVec 8) (v : Word64) (b : BitVec 5) : (h.saveTrap st c v b).deadline = h.deadline := rfl
@[simp] theorem saveTrap_triggered (h : Hart) (st : StreamId) (c : BitVec 8) (v : Word64) (b : BitVec 5) : (h.saveTrap st c v b).triggered = h.triggered := rfl
@[simp] theorem saveTrap_pend (h : Hart) (st : StreamId) (c : BitVec 8) (v : Word64) (b : BitVec 5) : (h.saveTrap st c v b).pend = h.pend := rfl
@[simp] theorem saveTrap_sync (h : Hart) (st : StreamId) (c : BitVec 8) (v : Word64) (b : BitVec 5) : (h.saveTrap st c v b).sync = h.sync := rfl
@[simp] theorem saveTrap_arrival (h : Hart) (st : StreamId) (c : BitVec 8) (v : Word64) (b : BitVec 5) : (h.saveTrap st c v b).arrival = h.arrival := rfl
@[simp] theorem saveTrap_splitDone (h : Hart) (st : StreamId) (c : BitVec 8) (v : Word64) (b : BitVec 5) : (h.saveTrap st c v b).splitDone = h.splitDone := rfl
@[simp] theorem saveTrap_syncDone (h : Hart) (st : StreamId) (c : BitVec 8) (v : Word64) (b : BitVec 5) : (h.saveTrap st c v b).syncDone = h.syncDone := rfl
@[simp] theorem saveTrap_groups (h : Hart) (st : StreamId) (c : BitVec 8) (v : Word64) (b : BitVec 5) : (h.saveTrap st c v b).groups = h.groups := rfl
@[simp] theorem saveTrap_transfers (h : Hart) (st : StreamId) (c : BitVec 8) (v : Word64) (b : BitVec 5) : (h.saveTrap st c v b).transfers = h.transfers := rfl
@[simp] theorem saveTrap_records (h : Hart) (st : StreamId) (c : BitVec 8) (v : Word64) (b : BitVec 5) : (h.saveTrap st c v b).records = h.records := rfl
@[simp] theorem saveTrap_waitA (h : Hart) (st : StreamId) (c : BitVec 8) (v : Word64) (b : BitVec 5) : (h.saveTrap st c v b).waitA = none := rfl
@[simp] theorem saveTrap_waitX (h : Hart) (st : StreamId) (c : BitVec 8) (v : Word64) (b : BitVec 5) : (h.saveTrap st c v b).waitX = none := rfl
@[simp] theorem saveTrap_deadCount (h : Hart) (st : StreamId) (c : BitVec 8) (v : Word64) (b : BitVec 5) : (h.saveTrap st c v b).deadCount = 0 := rfl
@[simp] theorem saveTrap_refA (h : Hart) (st : StreamId) (c : BitVec 8) (v : Word64) (b : BitVec 5) : (h.saveTrap st c v b).refA = h.refA := rfl
@[simp] theorem saveTrap_refX (h : Hart) (st : StreamId) (c : BitVec 8) (v : Word64) (b : BitVec 5) : (h.saveTrap st c v b).refX = h.refX := rfl
@[simp] theorem saveTrap_stopped (h : Hart) (st : StreamId) (c : BitVec 8) (v : Word64) (b : BitVec 5) : (h.saveTrap st c v b).stopped = h.stopped := rfl
@[simp] theorem saveTrap_coop (h : Hart) (st : StreamId) (c : BitVec 8) (v : Word64) (b : BitVec 5) : (h.saveTrap st c v b).coop = h.coop := rfl
@[simp] theorem saveTrap_halted (h : Hart) (st : StreamId) (c : BitVec 8) (v : Word64) (b : BitVec 5) : (h.saveTrap st c v b).halted = h.halted := rfl
@[simp] theorem saveTrap_retake (h : Hart) (st : StreamId) (c : BitVec 8) (v : Word64) (b : BitVec 5) : (h.saveTrap st c v b).retake = h.retake := rfl
@[simp] theorem saveTrap_entered (h : Hart) (st : StreamId) (c : BitVec 8) (v : Word64) (b : BitVec 5) : (h.saveTrap st c v b).entered = h.frame st := rfl
@[simp] theorem saveTrap_banks (h : Hart) (st : StreamId) (c : BitVec 8) (v : Word64) (b : BitVec 5) : (h.saveTrap st c v b).banks = h.banks := rfl
@[simp] theorem saveTrap_wordX (h : Hart) (st : StreamId) (c : BitVec 8) (v : Word64) (b : BitVec 5) : (h.saveTrap st c v b).wordX = h.wordX := rfl
@[simp] theorem saveTrap_acked (h : Hart) (st : StreamId) (c : BitVec 8) (v : Word64) (b : BitVec 5) : (h.saveTrap st c v b).acked = h.acked := rfl
@[simp] theorem saveTrap_image (h : Hart) (st : StreamId) (c : BitVec 8) (v : Word64) (b : BitVec 5) : (h.saveTrap st c v b).image = h.image := rfl

@[simp] theorem setS_sreg_zero (h : Hart) (st : StreamId) (r : SReg) (v : Word64) (hr : r.val = 0) : h.setS st r v = h := by simp [Hart.setS, hr]
@[simp] theorem setS_banks (h : Hart) (st : StreamId) (r : SReg) (v : Word64) : (h.setS st r v).banks = h.banks := by unfold Hart.setS; split <;> [rfl; (cases st <;> rfl)]
@[simp] theorem setS_firstWait (h : Hart) (st : StreamId) (r : SReg) (v : Word64) : (h.setS st r v).firstWait = h.firstWait := by unfold Hart.setS; split <;> [rfl; (cases st <;> rfl)]
@[simp] theorem setS_wordX (h : Hart) (st : StreamId) (r : SReg) (v : Word64) : (h.setS st r v).wordX = h.wordX := by unfold Hart.setS; split <;> [rfl; (cases st <;> rfl)]
@[simp] theorem setS_waitCap (h : Hart) (st : StreamId) (r : SReg) (v : Word64) : (h.setS st r v).waitCap = h.waitCap := by unfold Hart.setS; split <;> [rfl; (cases st <;> rfl)]
@[simp] theorem setS_acked (h : Hart) (st : StreamId) (r : SReg) (v : Word64) : (h.setS st r v).acked = h.acked := by unfold Hart.setS; split <;> [rfl; (cases st <;> rfl)]
@[simp] theorem setS_image (h : Hart) (st : StreamId) (r : SReg) (v : Word64) : (h.setS st r v).image = h.image := by unfold Hart.setS; split <;> [rfl; (cases st <;> rfl)]

/-- A scalar register written reads back, unless it is s0 (R47). -/
theorem sreg_setS_self (h : Hart) (st : StreamId) (r : SReg) (v : Word64) (hr : r.val ≠ 0) : (h.setS st r v).sreg st r = v := by
  cases st <;> simp [Hart.setS, Hart.sreg, hr]

/-- Writing a scalar register leaves the stream's others (R47). -/
theorem sreg_setS_ne (h : Hart) (st : StreamId) (r q : SReg) (v : Word64) (hq : q ≠ r) : (h.setS st r v).sreg st q = h.sreg st q := by
  have hv : r.val ≠ q.val := fun e => hq (Fin.ext e.symm)
  by_cases hr : r.val = 0
  · simp [Hart.setS, hr]
  · cases st <;> simp [Hart.setS, Hart.sreg, hr, Vector.getElem_set, hv]

/-- Writing a scalar register leaves the other stream's registers (R47). -/
theorem sreg_setS_other (h : Hart) (st su : StreamId) (r q : SReg) (v : Word64) (hs : su ≠ st) : (h.setS st r v).sreg su q = h.sreg su q := by
  by_cases hr : r.val = 0
  · simp [Hart.setS, hr]
  · cases st <;> cases su <;> simp_all [Hart.setS, Hart.sreg]

/-- Register s0 reads zero (R47). -/
@[simp] theorem sreg_zero (h : Hart) (st : StreamId) (r : SReg) (hr : r.val = 0) : h.sreg st r = 0 := by simp [Hart.sreg, hr]

@[simp] theorem sreg_advance (h : Hart) (st su : StreamId) (r : SReg) : (h.advance st).sreg su r = h.sreg su r := by
  cases st <;> cases su <;> rfl

@[simp] theorem sreg_stirred (h : Hart) (su : StreamId) (r : SReg) : h.stirred.sreg su r = h.sreg su r := by cases su <;> rfl

end Sys2Proof.Machine
end

