-- ==== Sys2Proof/Laws/Scalar.lean ====
section
/-! SUPPORT. What the shared operations of the scalar forms do. -/

namespace Sys2Proof.Machine

/-- A form of the scalar file writes its result and retires. -/
theorem issue_alu {s : State} {h : Hart} (hh : s.hart = some h) (rd : SReg) (f : (SReg → Word64) → Word64) :
    issue (alu rd f) s = .next (s.retired (h.setS s.curStream rd (f (h.sreg s.curStream)))) := by
  simp [issue, alu, markWait, hh, State.retired]

/-- A branch goes on at its target when it is taken, and past itself when not. -/
theorem issue_branch {s : State} {h : Hart} (hh : s.hart = some h) (ra rb : SReg) (off : BitVec 15) (taken : Word64 → Word64 → Bool) :
    issue (branch ra rb off taken) s = .next (s.jumped h
      (if taken (h.sreg s.curStream ra) (h.sreg s.curStream rb) then target (h.pc s.curStream) off else h.pc s.curStream + 4)) := by
  simp [issue, branch, markWait, hh, State.jumped]

end Sys2Proof.Machine
end

