-- ==== Sys2Proof/Laws/Total.lean ====
section
/-! SUPPORT. The memory operations that the device makes on its own account always answer: none of them waits or traps. -/

namespace Sys2Proof.Machine

/-- A part answers in every state. -/
def Total {α : Type} (x : M α) : Prop := ∀ s, ∃ a t, x s = .ok a t

theorem total_pure {α : Type} (a : α) : Total (pure a : M α) := fun s => ⟨a, s, rfl⟩
theorem total_get : Total (get : M State) := fun s => ⟨s, s, rfl⟩
theorem total_set (t : State) : Total (set t : M PUnit) := fun _ => ⟨_, t, rfl⟩
theorem total_modify (f : State → State) : Total (modify f : M PUnit) := fun s => ⟨_, f s, rfl⟩

theorem total_bind {α β : Type} {x : M α} {f : α → M β} (hx : Total x) (hf : ∀ a, Total (f a)) : Total (x >>= f) := by
  intro s
  obtain ⟨a, t, e⟩ := hx s
  obtain ⟨b, u, e'⟩ := hf a t
  exact ⟨b, u, by rw [run_bind, e]; exact e'⟩

theorem total_each {α : Type} {f : α → M Unit} (hf : ∀ a, Total (f a)) (l : List α) : Total (each l f) := by
  induction l with
  | nil => exact total_pure ()
  | cons a l ih => exact total_bind (hf a) fun _ => ih

theorem total_eachFold {α β : Type} {f : β → α → M β} (hf : ∀ b a, Total (f b a)) (l : List α) (b : β) : Total (eachFold l b f) := by
  induction l generalizing b with
  | nil => exact total_pure b
  | cons a l ih => exact total_bind (hf b a) fun c => ih c

theorem total_freeWord : Total freeWord := fun _ => ⟨_, _, rfl⟩

theorem total_freeBytes (n : Nat) : Total (freeBytes n) := fun _ => ⟨_, _, rfl⟩

theorem total_readByte (slot a : Nat) : Total (readByte slot a) := total_bind total_get fun s => by
  split
  · exact total_pure _
  · exact total_freeBytes 1

theorem total_readPA (slot a n : Nat) : Total (readPA slot a n) := total_bind total_get fun s => by
  split
  · exact total_pure _
  · exact total_eachFold (fun _ _ => total_bind (total_readByte _ _) fun _ => total_pure _) _ _

theorem total_claimSector (slot sec : Nat) : Total (claimSector slot sec) := total_bind total_get fun s => by
  cases s.keyOf slot with
  | none => exact total_pure ()
  | some k =>
    simp only
    split
    · exact total_set _
    · exact total_bind (total_freeBytes 32) fun _ => total_modify _

theorem total_loseAbsent (sec : Nat) : Total (loseAbsent sec) := total_bind total_get fun s => by
  split
  · exact total_bind (total_freeBytes _) fun _ => total_modify _
  · exact total_pure ()

theorem total_writePA (slot a v n : Nat) : Total (writePA slot a v n) :=
  total_bind (total_each (total_claimSector slot) _) fun _ => total_bind (total_modify _) fun _ => total_each total_loseAbsent _

theorem total_writeStoreByte (slot : Nat) (b : StoreByte) : Total (writeStoreByte slot b) := by
  unfold writeStoreByte
  split
  · exact total_bind (total_claimSector _ _) fun _ => total_bind (total_modify _) fun _ => total_loseAbsent _
  · exact total_modify _
  · exact total_pure ()
  · exact total_pure ()

theorem total_sendOn (port : Nat) (m : PeerMsg) : Total (sendOn port m) :=
  total_each (fun _ => total_bind (total_freeBytes 24) fun _ => total_modify _) _

theorem total_sendFlit (f : Nat) (m : PeerMsg) : Total (sendFlit f m) := total_bind total_get fun s => by
  split
  · exact total_pure ()
  · exact total_sendOn _ _
  · exact total_bind total_freeWord fun _ => total_sendOn _ _

theorem total_leave (p : PendingStore) : Total (leave p) := by
  unfold leave
  split
  · exact total_pure ()
  · exact total_bind total_get fun s => by
      split
      · exact total_modify _
      · split
        · exact total_modify _
        · exact total_sendFlit _ _

theorem total_performRaw (p : PendingStore) : Total (performRaw p) := by
  refine total_bind (total_each (fun b => total_bind (total_writeStoreByte _ _) fun _ => ?_) _) fun _ =>
    total_bind (total_modify _) fun _ => total_leave p
  split
  · split
    · exact total_modify _
    · exact total_pure ()
  · exact total_pure ()

theorem total_takePending (f : PendingStore → Bool) : Total (takePending f) := fun _ => ⟨_, _, rfl⟩

theorem total_perform (n : Nat) (p : PendingStore) : Total (perform n p) := by
  induction n generalizing p with
  | zero => exact total_performRaw p
  | succ n ih => exact total_bind (total_takePending _) fun first => total_bind (total_each ih first) fun _ => total_performRaw p

/-- Performing stores in flight never stops (R161). -/
theorem total_drain (f : PendingStore → Bool) : Total (drain f) :=
  total_bind total_get fun _ => total_bind (total_takePending f) fun _ => total_each (total_perform _) _

theorem total_hwWrite (a v n : Nat) : Total (hwWrite a v n) := total_bind (total_drain _) fun _ => total_writePA 0 a v n

theorem total_copyHome (srcKey src dstKey dst n : Nat) : Total (copyHome srcKey src dstKey dst n) :=
  total_bind (total_readPA _ _ _) fun _ => total_bind (total_drain _) fun _ => total_bind (total_writePA _ _ _ _) fun _ => total_modify _

theorem total_copyPA (srcKey src dstKey dst n : Nat) : Total (copyPA srcKey src dstKey dst n) :=
  total_bind (total_copyHome _ _ _ _ _) fun _ => by split <;> exact total_modify _

theorem total_hwWriteUnder (key a v n : Nat) : Total (hwWriteUnder key a v n) := total_bind (total_drain _) fun _ => total_writePA key a v n

theorem total_copyHeld (src dst : Nat × Nat) (srcKey a dstKey b n : Nat) : Total (copyHeld src dst srcKey a dstKey b n) :=
  total_bind total_get fun s => by
    split
    · exact total_pure ()
    · split
      · exact total_bind (total_freeBytes n) fun _ => total_hwWriteUnder _ _ _ _
      · exact total_copyPA _ _ _ _ _

theorem total_putFrameRec (r : FrameRec) : Total (putFrameRec r) := total_hwWrite _ _ _
theorem total_putLeaf (l : Leaf) (frame tier : Nat) (a : Bool) : Total (putLeaf l frame tier a) := total_hwWrite _ _ _

/-- A word of the page control block in force can be read (R213). -/
theorem pcbWord_answers {s : State} {p : Nat} (hp : s.pcb = some p) (off : Nat) :
    ∃ v t, pcbWord off s = .ok (some v) t ∧ t.outer = s.outer := by
  obtain ⟨v, t, e⟩ := total_readPA 0 (p + off) 8 s
  exact ⟨v, t, by simp [pcbWord, hp, hwRead, e], (keeps_readPA (outer_closed s.outer) 0 (p + off) 8).ok e rfl⟩

/-- A frame record can be read, and is there, wherever a page control block is in force and the frame lies in HBM4E (R211). -/
theorem frameRec_answers {s : State} {frame p : Nat} (hp : s.pcb = some p) (hf : inHbm frame = true) :
    ∃ r t, frameRec frame s = .ok (some r) t ∧ t.outer = s.outer := by
  obtain ⟨v, t, e, o⟩ := pcbWord_answers hp 0
  have addr : ∃ a, frameRecAddr frame s = .ok (some a) t := ⟨_, by simp [frameRecAddr, hf, e]; rfl⟩
  obtain ⟨a, ea⟩ := addr
  obtain ⟨x, u, e'⟩ := total_readPA 0 a 16 t
  exact ⟨_, u, by simp only [frameRec, hwRead, run_bind, ea, e']; rfl, ((keeps_readPA (outer_closed t.outer) 0 a 16).ok e' rfl).trans o⟩

/-- A ring takes what is given to it, at once or later (R214). -/
theorem total_give (holder ring x : Nat) : Total (give holder ring x) := total_bind total_get fun s => by
  cases s.pcb with
  | none => exact total_pure ()
  | some p =>
    refine total_bind (total_readPA _ _ _) fun _ => total_bind (total_readPA _ _ _) fun _ => total_bind (total_readPA _ _ _) fun _ =>
      total_bind (total_readPA _ _ _) fun _ => total_bind (total_hwWrite _ _ _) fun _ =>
      total_bind (total_modify _) fun _ => ?_
    split
    · exact total_hwWrite _ _ _
    · exact total_modify _

theorem total_emptyOverlay (o : Overlay) : Total (emptyOverlay o) := by
  unfold emptyOverlay
  split
  · exact total_bind (total_give _ _ _) fun _ => total_hwWrite _ _ _
  · exact total_hwWrite _ _ _

theorem total_mergeLines (leaf key : Nat) (o : Overlay) (fk frame : Nat) : Total (mergeLines leaf key o fk frame) :=
  total_each (fun _ => total_copyHeld _ _ _ _ _ _ _) _

section
variable {P : State → Prop} (hP : MemClosed P)
include hP

theorem keeps_emptyOverlay (o : Overlay) : Keeps P (emptyOverlay o) := by
  unfold emptyOverlay
  split
  · exact keeps_bind (keeps_give hP _ _ _) fun _ => keeps_putOverlay hP _
  · exact keeps_putOverlay hP _

theorem keeps_mergeLines (leaf key : Nat) (o : Overlay) (fk frame : Nat) : Keeps P (mergeLines leaf key o fk frame) :=
  keeps_each (fun _ => keeps_copyHeld hP _ _ _ _ _ _ _) _

end

end Sys2Proof.Machine
end

