-- ==== Sys2Proof/Laws/Turn.lean ====
section
/-! SUPPORT. The fields of a state after the updates that a turn and a trap make besides a hart's: one lemma per field per update. -/

namespace Sys2Proof.Machine

@[simp] theorem charge_mem (s : State) (n : Nat) (c : IssueClass) : (s.charge n c).mem = s.mem := modCore_mem ..
@[simp] theorem charge_ls (s : State) (n : Nat) (c : IssueClass) : (s.charge n c).ls = s.ls := modCore_ls ..
@[simp] theorem charge_poison (s : State) (n : Nat) (c : IssueClass) : (s.charge n c).poison = s.poison := modCore_poison ..
@[simp] theorem charge_slicePoison (s : State) (n : Nat) (c : IssueClass) : (s.charge n c).slicePoison = s.slicePoison := modCore_slicePoison ..
@[simp] theorem charge_lsPoison (s : State) (n : Nat) (c : IssueClass) : (s.charge n c).lsPoison = s.lsPoison := modCore_lsPoison ..
@[simp] theorem charge_keys (s : State) (n : Nat) (c : IssueClass) : (s.charge n c).keys = s.keys := modCore_keys ..
@[simp] theorem charge_sectorKey (s : State) (n : Nat) (c : IssueClass) : (s.charge n c).sectorKey = s.sectorKey := modCore_sectorKey ..
@[simp] theorem charge_harts (s : State) (n : Nat) (c : IssueClass) : (s.charge n c).harts = s.harts := modCore_harts ..
@[simp] theorem charge_saved (s : State) (n : Nat) (c : IssueClass) : (s.charge n c).saved = s.saved := modCore_saved ..
@[simp] theorem charge_savedCores (s : State) (n : Nat) (c : IssueClass) : (s.charge n c).savedCores = s.savedCores := modCore_savedCores ..
@[simp] theorem charge_contexts (s : State) (n : Nat) (c : IssueClass) : (s.charge n c).contexts = s.contexts := modCore_contexts ..
@[simp] theorem charge_kernels (s : State) (n : Nat) (c : IssueClass) : (s.charge n c).kernels = s.kernels := modCore_kernels ..
@[simp] theorem charge_barriers (s : State) (n : Nat) (c : IssueClass) : (s.charge n c).barriers = s.barriers := modCore_barriers ..
@[simp] theorem charge_heads (s : State) (n : Nat) (c : IssueClass) : (s.charge n c).heads = s.heads := modCore_heads ..
@[simp] theorem charge_pending (s : State) (n : Nat) (c : IssueClass) : (s.charge n c).pending = s.pending := modCore_pending ..
@[simp] theorem charge_held (s : State) (n : Nat) (c : IssueClass) : (s.charge n c).held = s.held := modCore_held ..
@[simp] theorem charge_cover (s : State) (n : Nat) (c : IssueClass) : (s.charge n c).cover = s.cover := modCore_cover ..
@[simp] theorem charge_lost (s : State) (n : Nat) (c : IssueClass) : (s.charge n c).lost = s.lost := modCore_lost ..
@[simp] theorem charge_hits (s : State) (n : Nat) (c : IssueClass) : (s.charge n c).hits = s.hits := modCore_hits ..
@[simp] theorem charge_spilled (s : State) (n : Nat) (c : IssueClass) : (s.charge n c).spilled = s.spilled := modCore_spilled ..
@[simp] theorem charge_late (s : State) (n : Nat) (c : IssueClass) : (s.charge n c).late = s.late := modCore_late ..
@[simp] theorem charge_cutMarks (s : State) (n : Nat) (c : IssueClass) : (s.charge n c).cutMarks = s.cutMarks := modCore_cutMarks ..
@[simp] theorem charge_early (s : State) (n : Nat) (c : IssueClass) : (s.charge n c).early = s.early := modCore_early ..
@[simp] theorem charge_moves (s : State) (n : Nat) (c : IssueClass) : (s.charge n c).moves = s.moves := modCore_moves ..
@[simp] theorem charge_oldFrames (s : State) (n : Nat) (c : IssueClass) : (s.charge n c).oldFrames = s.oldFrames := modCore_oldFrames ..
@[simp] theorem charge_taken (s : State) (n : Nat) (c : IssueClass) : (s.charge n c).taken = s.taken := modCore_taken ..
@[simp] theorem charge_badTaken (s : State) (n : Nat) (c : IssueClass) : (s.charge n c).badTaken = s.badTaken := modCore_badTaken ..
@[simp] theorem charge_spoiled (s : State) (n : Nat) (c : IssueClass) : (s.charge n c).spoiled = s.spoiled := modCore_spoiled ..
@[simp] theorem charge_drains (s : State) (n : Nat) (c : IssueClass) : (s.charge n c).drains = s.drains := modCore_drains ..
@[simp] theorem charge_restores (s : State) (n : Nat) (c : IssueClass) : (s.charge n c).restores = s.restores := modCore_restores ..
@[simp] theorem charge_pcb (s : State) (n : Nat) (c : IssueClass) : (s.charge n c).pcb = s.pcb := modCore_pcb ..
@[simp] theorem charge_hands (s : State) (n : Nat) (c : IssueClass) : (s.charge n c).hands = s.hands := modCore_hands ..
@[simp] theorem charge_sweeping (s : State) (n : Nat) (c : IssueClass) : (s.charge n c).sweeping = s.sweeping := modCore_sweeping ..
@[simp] theorem charge_level (s : State) (n : Nat) (c : IssueClass) : (s.charge n c).level = s.level := modCore_level ..
@[simp] theorem charge_boot (s : State) (n : Nat) (c : IssueClass) : (s.charge n c).boot = s.boot := modCore_boot ..
@[simp] theorem charge_clock (s : State) (n : Nat) (c : IssueClass) : (s.charge n c).clock = s.clock := modCore_clock ..
@[simp] theorem charge_cxl (s : State) (n : Nat) (c : IssueClass) : (s.charge n c).cxl = s.cxl := modCore_cxl ..
@[simp] theorem charge_slices (s : State) (n : Nat) (c : IssueClass) : (s.charge n c).slices = s.slices := modCore_slices ..
@[simp] theorem charge_voltor (s : State) (n : Nat) (c : IssueClass) : (s.charge n c).voltor = s.voltor := modCore_voltor ..
@[simp] theorem charge_fabric (s : State) (n : Nat) (c : IssueClass) : (s.charge n c).fabric = s.fabric := modCore_fabric ..
@[simp] theorem charge_self (s : State) (n : Nat) (c : IssueClass) : (s.charge n c).self = s.self := modCore_self ..
@[simp] theorem charge_victims (s : State) (n : Nat) (c : IssueClass) : (s.charge n c).victims = s.victims := modCore_victims ..
@[simp] theorem charge_mailbox (s : State) (n : Nat) (c : IssueClass) : (s.charge n c).mailbox = s.mailbox := modCore_mailbox ..
@[simp] theorem charge_hostEvents (s : State) (n : Nat) (c : IssueClass) : (s.charge n c).hostEvents = s.hostEvents := modCore_hostEvents ..
@[simp] theorem charge_log (s : State) (n : Nat) (c : IssueClass) : (s.charge n c).log = s.log := modCore_log ..
@[simp] theorem charge_logDropped (s : State) (n : Nat) (c : IssueClass) : (s.charge n c).logDropped = s.logDropped := modCore_logDropped ..
@[simp] theorem charge_apKey (s : State) (n : Nat) (c : IssueClass) : (s.charge n c).apKey = s.apKey := modCore_apKey ..
@[simp] theorem charge_hostRead (s : State) (n : Nat) (c : IssueClass) : (s.charge n c).hostRead = s.hostRead := modCore_hostRead ..
@[simp] theorem charge_flash (s : State) (n : Nat) (c : IssueClass) : (s.charge n c).flash = s.flash := modCore_flash ..
@[simp] theorem charge_agenda (s : State) (n : Nat) (c : IssueClass) : (s.charge n c).agenda = s.agenda := modCore_agenda ..
@[simp] theorem charge_curSlot (s : State) (n : Nat) (c : IssueClass) : (s.charge n c).curSlot = s.curSlot := modCore_curSlot ..
@[simp] theorem charge_curStream (s : State) (n : Nat) (c : IssueClass) : (s.charge n c).curStream = s.curStream := modCore_curStream ..
@[simp] theorem charge_curWord (s : State) (n : Nat) (c : IssueClass) : (s.charge n c).curWord = s.curWord := modCore_curWord ..
@[simp] theorem charge_curFetch (s : State) (n : Nat) (c : IssueClass) : (s.charge n c).curFetch = s.curFetch := modCore_curFetch ..
@[simp] theorem charge_curStop (s : State) (n : Nat) (c : IssueClass) : (s.charge n c).curStop = s.curStop := modCore_curStop ..
@[simp] theorem charge_curEv (s : State) (n : Nat) (c : IssueClass) : (s.charge n c).curEv = s.curEv := modCore_curEv ..
@[simp] theorem charge_freeCtr (s : State) (n : Nat) (c : IssueClass) : (s.charge n c).freeCtr = s.freeCtr := modCore_freeCtr ..
@[simp] theorem charge_tick (s : State) (n : Nat) (c : IssueClass) : (s.charge n c).tick = s.tick := modCore_tick ..
@[simp] theorem charge_nextId (s : State) (n : Nat) (c : IssueClass) : (s.charge n c).nextId = s.nextId := modCore_nextId ..

@[simp] theorem joinWork_mem (s : State) (n : Nat) : (s.joinWork n).mem = s.mem := rfl
@[simp] theorem joinWork_ls (s : State) (n : Nat) : (s.joinWork n).ls = s.ls := rfl
@[simp] theorem joinWork_poison (s : State) (n : Nat) : (s.joinWork n).poison = s.poison := rfl
@[simp] theorem joinWork_slicePoison (s : State) (n : Nat) : (s.joinWork n).slicePoison = s.slicePoison := rfl
@[simp] theorem joinWork_lsPoison (s : State) (n : Nat) : (s.joinWork n).lsPoison = s.lsPoison := rfl
@[simp] theorem joinWork_keys (s : State) (n : Nat) : (s.joinWork n).keys = s.keys := rfl
@[simp] theorem joinWork_sectorKey (s : State) (n : Nat) : (s.joinWork n).sectorKey = s.sectorKey := rfl
@[simp] theorem joinWork_harts (s : State) (n : Nat) : (s.joinWork n).harts = s.harts := rfl
@[simp] theorem joinWork_saved (s : State) (n : Nat) : (s.joinWork n).saved = s.saved := rfl
@[simp] theorem joinWork_savedCores (s : State) (n : Nat) : (s.joinWork n).savedCores = s.savedCores := rfl
@[simp] theorem joinWork_cores (s : State) (n : Nat) : (s.joinWork n).cores = s.cores := rfl
@[simp] theorem joinWork_contexts (s : State) (n : Nat) : (s.joinWork n).contexts = s.contexts := rfl
@[simp] theorem joinWork_kernels (s : State) (n : Nat) : (s.joinWork n).kernels = s.kernels := rfl
@[simp] theorem joinWork_barriers (s : State) (n : Nat) : (s.joinWork n).barriers = s.barriers := rfl
@[simp] theorem joinWork_heads (s : State) (n : Nat) : (s.joinWork n).heads = s.heads := rfl
@[simp] theorem joinWork_cover (s : State) (n : Nat) : (s.joinWork n).cover = s.cover := rfl
@[simp] theorem joinWork_lost (s : State) (n : Nat) : (s.joinWork n).lost = s.lost := rfl
@[simp] theorem joinWork_hits (s : State) (n : Nat) : (s.joinWork n).hits = s.hits := rfl
@[simp] theorem joinWork_spilled (s : State) (n : Nat) : (s.joinWork n).spilled = s.spilled := rfl
@[simp] theorem joinWork_late (s : State) (n : Nat) : (s.joinWork n).late = s.late := rfl
@[simp] theorem joinWork_early (s : State) (n : Nat) : (s.joinWork n).early = s.early := rfl
@[simp] theorem joinWork_moves (s : State) (n : Nat) : (s.joinWork n).moves = s.moves := rfl
@[simp] theorem joinWork_oldFrames (s : State) (n : Nat) : (s.joinWork n).oldFrames = s.oldFrames := rfl
@[simp] theorem joinWork_taken (s : State) (n : Nat) : (s.joinWork n).taken = s.taken := rfl
@[simp] theorem joinWork_badTaken (s : State) (n : Nat) : (s.joinWork n).badTaken = s.badTaken := rfl
@[simp] theorem joinWork_spoiled (s : State) (n : Nat) : (s.joinWork n).spoiled = s.spoiled := rfl
@[simp] theorem joinWork_drains (s : State) (n : Nat) : (s.joinWork n).drains = s.drains := rfl
@[simp] theorem joinWork_restores (s : State) (n : Nat) : (s.joinWork n).restores = s.restores := rfl
@[simp] theorem joinWork_pcb (s : State) (n : Nat) : (s.joinWork n).pcb = s.pcb := rfl
@[simp] theorem joinWork_hands (s : State) (n : Nat) : (s.joinWork n).hands = s.hands := rfl
@[simp] theorem joinWork_sweeping (s : State) (n : Nat) : (s.joinWork n).sweeping = s.sweeping := rfl
@[simp] theorem joinWork_level (s : State) (n : Nat) : (s.joinWork n).level = s.level := rfl
@[simp] theorem joinWork_boot (s : State) (n : Nat) : (s.joinWork n).boot = s.boot := rfl
@[simp] theorem joinWork_clock (s : State) (n : Nat) : (s.joinWork n).clock = s.clock := rfl
@[simp] theorem joinWork_cxl (s : State) (n : Nat) : (s.joinWork n).cxl = s.cxl := rfl
@[simp] theorem joinWork_slices (s : State) (n : Nat) : (s.joinWork n).slices = s.slices := rfl
@[simp] theorem joinWork_voltor (s : State) (n : Nat) : (s.joinWork n).voltor = s.voltor := rfl
@[simp] theorem joinWork_fabric (s : State) (n : Nat) : (s.joinWork n).fabric = s.fabric := rfl
@[simp] theorem joinWork_self (s : State) (n : Nat) : (s.joinWork n).self = s.self := rfl
@[simp] theorem joinWork_victims (s : State) (n : Nat) : (s.joinWork n).victims = s.victims := rfl
@[simp] theorem joinWork_mailbox (s : State) (n : Nat) : (s.joinWork n).mailbox = s.mailbox := rfl
@[simp] theorem joinWork_hostEvents (s : State) (n : Nat) : (s.joinWork n).hostEvents = s.hostEvents := rfl
@[simp] theorem joinWork_log (s : State) (n : Nat) : (s.joinWork n).log = s.log := rfl
@[simp] theorem joinWork_logDropped (s : State) (n : Nat) : (s.joinWork n).logDropped = s.logDropped := rfl
@[simp] theorem joinWork_apKey (s : State) (n : Nat) : (s.joinWork n).apKey = s.apKey := rfl
@[simp] theorem joinWork_hostRead (s : State) (n : Nat) : (s.joinWork n).hostRead = s.hostRead := rfl
@[simp] theorem joinWork_flash (s : State) (n : Nat) : (s.joinWork n).flash = s.flash := rfl
@[simp] theorem joinWork_agenda (s : State) (n : Nat) : (s.joinWork n).agenda = s.agenda := rfl
@[simp] theorem joinWork_curSlot (s : State) (n : Nat) : (s.joinWork n).curSlot = s.curSlot := rfl
@[simp] theorem joinWork_curStream (s : State) (n : Nat) : (s.joinWork n).curStream = s.curStream := rfl
@[simp] theorem joinWork_curWord (s : State) (n : Nat) : (s.joinWork n).curWord = s.curWord := rfl
@[simp] theorem joinWork_curFetch (s : State) (n : Nat) : (s.joinWork n).curFetch = s.curFetch := rfl
@[simp] theorem joinWork_curStop (s : State) (n : Nat) : (s.joinWork n).curStop = s.curStop := rfl
@[simp] theorem joinWork_curEv (s : State) (n : Nat) : (s.joinWork n).curEv = s.curEv := rfl
@[simp] theorem joinWork_freeCtr (s : State) (n : Nat) : (s.joinWork n).freeCtr = s.freeCtr := rfl
@[simp] theorem joinWork_tick (s : State) (n : Nat) : (s.joinWork n).tick = s.tick := rfl
@[simp] theorem joinWork_nextId (s : State) (n : Nat) : (s.joinWork n).nextId = s.nextId := rfl
@[simp] theorem joinWork_pending (s : State) (n : Nat) :
    (s.joinWork n).pending = s.pending.map fun p => if p.slot = n then { p with both := true } else p := rfl
@[simp] theorem joinWork_held (s : State) (n : Nat) : (s.joinWork n).held = s.held.map fun w => if w.slot = n then { w with both := true } else w := rfl
@[simp] theorem joinWork_cutMarks (s : State) (n : Nat) : (s.joinWork n).cutMarks = s.cutMarks.filter fun m => m.slot != n := rfl

@[simp] theorem orderCuts_mem (s : State) (n : Nat) (st : StreamId) : (s.orderCuts n st).mem = s.mem := by cases st <;> rfl
@[simp] theorem orderCuts_ls (s : State) (n : Nat) (st : StreamId) : (s.orderCuts n st).ls = s.ls := by cases st <;> rfl
@[simp] theorem orderCuts_poison (s : State) (n : Nat) (st : StreamId) : (s.orderCuts n st).poison = s.poison := by cases st <;> rfl
@[simp] theorem orderCuts_slicePoison (s : State) (n : Nat) (st : StreamId) : (s.orderCuts n st).slicePoison = s.slicePoison := by cases st <;> rfl
@[simp] theorem orderCuts_lsPoison (s : State) (n : Nat) (st : StreamId) : (s.orderCuts n st).lsPoison = s.lsPoison := by cases st <;> rfl
@[simp] theorem orderCuts_keys (s : State) (n : Nat) (st : StreamId) : (s.orderCuts n st).keys = s.keys := by cases st <;> rfl
@[simp] theorem orderCuts_sectorKey (s : State) (n : Nat) (st : StreamId) : (s.orderCuts n st).sectorKey = s.sectorKey := by cases st <;> rfl
@[simp] theorem orderCuts_harts (s : State) (n : Nat) (st : StreamId) : (s.orderCuts n st).harts = s.harts := by cases st <;> rfl
@[simp] theorem orderCuts_saved (s : State) (n : Nat) (st : StreamId) : (s.orderCuts n st).saved = s.saved := by cases st <;> rfl
@[simp] theorem orderCuts_savedCores (s : State) (n : Nat) (st : StreamId) : (s.orderCuts n st).savedCores = s.savedCores := by cases st <;> rfl
@[simp] theorem orderCuts_cores (s : State) (n : Nat) (st : StreamId) : (s.orderCuts n st).cores = s.cores := by cases st <;> rfl
@[simp] theorem orderCuts_contexts (s : State) (n : Nat) (st : StreamId) : (s.orderCuts n st).contexts = s.contexts := by cases st <;> rfl
@[simp] theorem orderCuts_kernels (s : State) (n : Nat) (st : StreamId) : (s.orderCuts n st).kernels = s.kernels := by cases st <;> rfl
@[simp] theorem orderCuts_barriers (s : State) (n : Nat) (st : StreamId) : (s.orderCuts n st).barriers = s.barriers := by cases st <;> rfl
@[simp] theorem orderCuts_heads (s : State) (n : Nat) (st : StreamId) : (s.orderCuts n st).heads = s.heads := by cases st <;> rfl
@[simp] theorem orderCuts_pending (s : State) (n : Nat) (st : StreamId) : (s.orderCuts n st).pending = s.pending := by cases st <;> rfl
@[simp] theorem orderCuts_held (s : State) (n : Nat) (st : StreamId) : (s.orderCuts n st).held = s.held := by cases st <;> rfl
@[simp] theorem orderCuts_cover (s : State) (n : Nat) (st : StreamId) : (s.orderCuts n st).cover = s.cover := by cases st <;> rfl
@[simp] theorem orderCuts_lost (s : State) (n : Nat) (st : StreamId) : (s.orderCuts n st).lost = s.lost := by cases st <;> rfl
@[simp] theorem orderCuts_hits (s : State) (n : Nat) (st : StreamId) : (s.orderCuts n st).hits = s.hits := by cases st <;> rfl
@[simp] theorem orderCuts_spilled (s : State) (n : Nat) (st : StreamId) : (s.orderCuts n st).spilled = s.spilled := by cases st <;> rfl
@[simp] theorem orderCuts_late (s : State) (n : Nat) (st : StreamId) : (s.orderCuts n st).late = s.late := by cases st <;> rfl
@[simp] theorem orderCuts_early (s : State) (n : Nat) (st : StreamId) : (s.orderCuts n st).early = s.early := by cases st <;> rfl
@[simp] theorem orderCuts_moves (s : State) (n : Nat) (st : StreamId) : (s.orderCuts n st).moves = s.moves := by cases st <;> rfl
@[simp] theorem orderCuts_oldFrames (s : State) (n : Nat) (st : StreamId) : (s.orderCuts n st).oldFrames = s.oldFrames := by cases st <;> rfl
@[simp] theorem orderCuts_taken (s : State) (n : Nat) (st : StreamId) : (s.orderCuts n st).taken = s.taken := by cases st <;> rfl
@[simp] theorem orderCuts_badTaken (s : State) (n : Nat) (st : StreamId) : (s.orderCuts n st).badTaken = s.badTaken := by cases st <;> rfl
@[simp] theorem orderCuts_spoiled (s : State) (n : Nat) (st : StreamId) : (s.orderCuts n st).spoiled = s.spoiled := by cases st <;> rfl
@[simp] theorem orderCuts_drains (s : State) (n : Nat) (st : StreamId) : (s.orderCuts n st).drains = s.drains := by cases st <;> rfl
@[simp] theorem orderCuts_restores (s : State) (n : Nat) (st : StreamId) : (s.orderCuts n st).restores = s.restores := by cases st <;> rfl
@[simp] theorem orderCuts_pcb (s : State) (n : Nat) (st : StreamId) : (s.orderCuts n st).pcb = s.pcb := by cases st <;> rfl
@[simp] theorem orderCuts_hands (s : State) (n : Nat) (st : StreamId) : (s.orderCuts n st).hands = s.hands := by cases st <;> rfl
@[simp] theorem orderCuts_sweeping (s : State) (n : Nat) (st : StreamId) : (s.orderCuts n st).sweeping = s.sweeping := by cases st <;> rfl
@[simp] theorem orderCuts_level (s : State) (n : Nat) (st : StreamId) : (s.orderCuts n st).level = s.level := by cases st <;> rfl
@[simp] theorem orderCuts_boot (s : State) (n : Nat) (st : StreamId) : (s.orderCuts n st).boot = s.boot := by cases st <;> rfl
@[simp] theorem orderCuts_clock (s : State) (n : Nat) (st : StreamId) : (s.orderCuts n st).clock = s.clock := by cases st <;> rfl
@[simp] theorem orderCuts_cxl (s : State) (n : Nat) (st : StreamId) : (s.orderCuts n st).cxl = s.cxl := by cases st <;> rfl
@[simp] theorem orderCuts_slices (s : State) (n : Nat) (st : StreamId) : (s.orderCuts n st).slices = s.slices := by cases st <;> rfl
@[simp] theorem orderCuts_voltor (s : State) (n : Nat) (st : StreamId) : (s.orderCuts n st).voltor = s.voltor := by cases st <;> rfl
@[simp] theorem orderCuts_fabric (s : State) (n : Nat) (st : StreamId) : (s.orderCuts n st).fabric = s.fabric := by cases st <;> rfl
@[simp] theorem orderCuts_self (s : State) (n : Nat) (st : StreamId) : (s.orderCuts n st).self = s.self := by cases st <;> rfl
@[simp] theorem orderCuts_victims (s : State) (n : Nat) (st : StreamId) : (s.orderCuts n st).victims = s.victims := by cases st <;> rfl
@[simp] theorem orderCuts_mailbox (s : State) (n : Nat) (st : StreamId) : (s.orderCuts n st).mailbox = s.mailbox := by cases st <;> rfl
@[simp] theorem orderCuts_hostEvents (s : State) (n : Nat) (st : StreamId) : (s.orderCuts n st).hostEvents = s.hostEvents := by cases st <;> rfl
@[simp] theorem orderCuts_log (s : State) (n : Nat) (st : StreamId) : (s.orderCuts n st).log = s.log := by cases st <;> rfl
@[simp] theorem orderCuts_logDropped (s : State) (n : Nat) (st : StreamId) : (s.orderCuts n st).logDropped = s.logDropped := by cases st <;> rfl
@[simp] theorem orderCuts_apKey (s : State) (n : Nat) (st : StreamId) : (s.orderCuts n st).apKey = s.apKey := by cases st <;> rfl
@[simp] theorem orderCuts_hostRead (s : State) (n : Nat) (st : StreamId) : (s.orderCuts n st).hostRead = s.hostRead := by cases st <;> rfl
@[simp] theorem orderCuts_flash (s : State) (n : Nat) (st : StreamId) : (s.orderCuts n st).flash = s.flash := by cases st <;> rfl
@[simp] theorem orderCuts_agenda (s : State) (n : Nat) (st : StreamId) : (s.orderCuts n st).agenda = s.agenda := by cases st <;> rfl
@[simp] theorem orderCuts_curSlot (s : State) (n : Nat) (st : StreamId) : (s.orderCuts n st).curSlot = s.curSlot := by cases st <;> rfl
@[simp] theorem orderCuts_curStream (s : State) (n : Nat) (st : StreamId) : (s.orderCuts n st).curStream = s.curStream := by cases st <;> rfl
@[simp] theorem orderCuts_curWord (s : State) (n : Nat) (st : StreamId) : (s.orderCuts n st).curWord = s.curWord := by cases st <;> rfl
@[simp] theorem orderCuts_curFetch (s : State) (n : Nat) (st : StreamId) : (s.orderCuts n st).curFetch = s.curFetch := by cases st <;> rfl
@[simp] theorem orderCuts_curStop (s : State) (n : Nat) (st : StreamId) : (s.orderCuts n st).curStop = s.curStop := by cases st <;> rfl
@[simp] theorem orderCuts_curEv (s : State) (n : Nat) (st : StreamId) : (s.orderCuts n st).curEv = s.curEv := by cases st <;> rfl
@[simp] theorem orderCuts_freeCtr (s : State) (n : Nat) (st : StreamId) : (s.orderCuts n st).freeCtr = s.freeCtr := by cases st <;> rfl
@[simp] theorem orderCuts_tick (s : State) (n : Nat) (st : StreamId) : (s.orderCuts n st).tick = s.tick := by cases st <;> rfl
@[simp] theorem orderCuts_nextId (s : State) (n : Nat) (st : StreamId) : (s.orderCuts n st).nextId = s.nextId := by cases st <;> rfl

end Sys2Proof.Machine
end

