-- ==== Sys2Proof/Laws/Vector.lean ====
section
/-! SUPPORT. What the shared operations of the vector forms do: the fields of bit strings, the checks of issue, and the passes over
elements. -/

namespace Sys2Proof.Machine

theorem testBit_bitsOf (x lo n i : Nat) : (bitsOf x lo n).testBit i = (decide (i < n) && x.testBit (lo + i)) := by
  simp [bitsOf, Nat.testBit_mod_two_pow]

theorem testBit_putBits (x lo n v i : Nat) :
    (putBits x lo n v).testBit i = if lo ≤ i ∧ i < lo + n then v.testBit (i - lo) else x.testBit i := by
  simp only [putBits, Nat.testBit_xor, Nat.testBit_shiftLeft, Nat.testBit_mod_two_pow, Nat.testBit_shiftRight]
  by_cases h1 : lo ≤ i
  · have e : lo + (i - lo) = i := by omega
    by_cases h2 : i < lo + n
    · simp [h1, h2, e, show i - lo < n by omega]
    · simp [h1, h2, show ¬ i - lo < n by omega]
  · simp [h1]

theorem bitsOf_lt (x lo n : Nat) : bitsOf x lo n < 2 ^ n := Nat.mod_lt _ (Nat.two_pow_pos n)

/-- A field that was written reads as what was written. -/
theorem bitsOf_putBits_self (x lo n v : Nat) : bitsOf (putBits x lo n v) lo n = v % 2 ^ n := by
  apply Nat.eq_of_testBit_eq
  intro i
  rw [testBit_bitsOf, testBit_putBits, Nat.testBit_mod_two_pow]
  by_cases h : i < n
  · simp [h, show lo ≤ lo + i by omega]
  · simp [h]

/-- A field apart from the one written reads as before. -/
theorem bitsOf_putBits_ne {x lo n v lo' n' : Nat} (h : lo' + n' ≤ lo ∨ lo + n ≤ lo') : bitsOf (putBits x lo n v) lo' n' = bitsOf x lo' n' := by
  apply Nat.eq_of_testBit_eq
  intro i
  rw [testBit_bitsOf, testBit_putBits, testBit_bitsOf]
  by_cases hi : i < n'
  · have : ¬ (lo ≤ lo' + i ∧ lo' + i < lo + n) := by omega
    simp [hi, this]
  · simp [hi]

@[simp] theorem elemOf_setElem_self (ew b i v : Nat) : elemOf ew (setElem ew b i v) i = v % 2 ^ ew := bitsOf_putBits_self _ _ _ _

theorem elemOf_setElem_ne {ew b i j v : Nat} (h : i ≠ j) : elemOf ew (setElem ew b i v) j = elemOf ew b j := by
  apply bitsOf_putBits_ne
  rcases Nat.lt_or_gt_of_ne h with h | h
  · right
    calc i * ew + ew = (i + 1) * ew := by ring
      _ ≤ j * ew := Nat.mul_le_mul_right _ h
  · left
    calc j * ew + ew = (j + 1) * ew := by ring
      _ ≤ i * ew := Nat.mul_le_mul_right _ h

theorem elemOf_lt (ew b i : Nat) : elemOf ew b i < 2 ^ ew := bitsOf_lt _ _ _

/-- A pass that draws nothing and generates no NaN: each element of the list holds its value, the others are as before. -/
theorem runLanes_plain (ew : Nat) (val : Nat → Nat) (idx : List Nat) (l : Lanes) :
    (runLanes ew false (fun _ i => (val i, false)) idx l).gen = l.gen ∧ (runLanes ew false (fun _ i => (val i, false)) idx l).nan = l.nan ∧
    ∀ i, elemOf ew (runLanes ew false (fun _ i => (val i, false)) idx l).bits i = if i ∈ idx then val i % 2 ^ ew else elemOf ew l.bits i := by
  induction idx generalizing l with
  | nil => simp [runLanes]
  | cons j idx ih =>
    have e : runLanes ew false (fun _ i => (val i, false)) (j :: idx) l =
        runLanes ew false (fun _ i => (val i, false)) idx (laneStep ew false (fun _ i => (val i, false)) l j) := rfl
    rw [e]
    obtain ⟨h1, h2, h3⟩ := ih (laneStep ew false (fun _ i => (val i, false)) l j)
    refine ⟨by rw [h1]; simp [laneStep], by rw [h2]; simp [laneStep], fun i => ?_⟩
    rw [h3 i]
    by_cases hi : i ∈ idx
    · simp [hi]
    · by_cases hij : i = j
      · subst hij; simp [hi, laneStep]
      · simp [hi, hij, laneStep, elemOf_setElem_ne (Ne.symm hij)]

/-- The issue checks of a form without a guard answer the hart they leave. -/
theorem plainIssue_ok {s s1 : State} {h : Hart} {admits : Fmt → Bool} {r : Named} (ho : s.opensPlain admits r s1 h) :
    plainIssue admits r s = .ok h s1 := by
  obtain ⟨hx, h0, hh, hl, hv, hp, ha, ht, hsw, h1, -⟩ := ho
  have ht' : (∀ x ∈ r.vs, h0.tagOf x = some h0.fmt) = True := eq_true ht
  simp [plainIssue, onlyX, hx, checkNamed, needLive, hh, hl, hv, hp, checkTags, ha, hsw, h1, ht']

/-- The issue checks of a guarded form answer the hart they leave. -/
theorem vectorIssue_ok {s s1 : State} {h : Hart} {admits : Fmt → Bool} {r : Named} (ho : s.opens admits r s1 h) :
    vectorIssue admits r s = .ok h s1 := by
  obtain ⟨h0, hh0, ho⟩ := ho
  have e := plainIssue_ok ho
  obtain ⟨hx, h0', hh, -⟩ := ho
  have : h0' = h0 := by rw [hh0] at hh; exact (Option.some.inj hh).symm
  subst this
  simp [plainIssue, onlyX, hx] at e
  simp [vectorIssue, onlyX, hx, hh]
  exact e

theorem mem_active {h : Hart} {i : Nat} : i ∈ h.active ↔ h.writes i := by
  simp [Hart.active, Hart.writes]

theorem retire_ok {s : State} {h : Hart} (hh : s.hart = some h) : retire s = .ok () (s.putHart (h.advance s.curStream)) := by
  simp [retire, hh]

/-- A part that ends with hart h, which then retires. -/
theorem issue_retired {s s1 s2 : State} {h : Hart} {x : M Unit} (hx : x s = .ok () (s2.putHart (h.advance s2.curStream)))
    (he : ∀ g, s2.putHart g = s1.putHart g) (hs : s2.curStream = s1.curStream) : issue x s = .next (s1.retired h) := by
  rw [issue_ok hx, markWait_none (hart_putHart _ _)]
  simp [State.retired, he, hs, putHart_putHart]

theorem stepped_add (x : BitVec 32) (m n : Nat) : stepped (stepped x m) n = stepped x (m + n) := by
  induction n with
  | zero => rfl
  | succ n ih =>
    have e : m + (n + 1) = (m + n) + 1 := rfl
    rw [e]; simp only [stepped, ih]

/-- How many elements of a list below n use generator j. -/
def usesIn (idx : List Nat) (j n : Nat) : Nat := (idx.filter fun i => decide (i % 256 = j) && decide (i < n)).length

theorem usesIn_cons (i : Nat) (idx : List Nat) (j n : Nat) :
    usesIn (i :: idx) j n = (if i % 256 = j ∧ i < n then 1 else 0) + usesIn idx j n := by
  unfold usesIn
  by_cases h : i % 256 = j ∧ i < n
  · simp [h]; omega
  · rw [List.filter_cons_of_neg (by simpa using h)]; simp [h]

/-- A generator after one element's step. -/
theorem drawGen_get (gen : Vector (BitVec 32) 256) (i j : Nat) :
    (drawGen gen i).1.getD (j % 256) 0 = stepped (gen.getD (j % 256) 0) (if i % 256 = j % 256 then 1 else 0) := by
  have h1 : j % 256 < 256 := Nat.mod_lt _ (by decide)
  have h2 : i % 256 < 256 := Nat.mod_lt _ (by decide)
  by_cases h : i % 256 = j % 256
  · simp [drawGen, Vector.getD, h1, h, stepped, stepGen]
  · simp [drawGen, Vector.getD, h1, h, stepped]

/-- The number that the generator of element i gives in a pass over a list. -/
def laneRnd (gen : Vector (BitVec 32) 256) (idx : List Nat) (i : Nat) : Nat :=
  (stepGen (stepped (gen.getD (i % 256) 0) (usesIn idx (i % 256) i))).2

theorem usesIn_first {i : Nat} {idx : List Nat} (hi : ∀ x ∈ idx, i < x) : usesIn (i :: idx) (i % 256) i = 0 := by
  unfold usesIn
  simp only [List.length_eq_zero_iff, List.filter_eq_nil_iff]
  intro x hx
  rcases List.mem_cons.1 hx with rfl | hx
  · simp
  · have := hi x hx; simp; omega

theorem laneRnd_first {gen : Vector (BitVec 32) 256} {i : Nat} {idx : List Nat} (hi : ∀ x ∈ idx, i < x) :
    (drawGen gen i).2 = laneRnd gen (i :: idx) i := by
  have : i % 256 < 256 := Nat.mod_lt _ (by decide)
  simp [laneRnd, usesIn_first hi, drawGen, stepped, Vector.getD, this]

theorem laneRnd_later {gen : Vector (BitVec 32) 256} {i x : Nat} {idx : List Nat} (hx : i < x) :
    laneRnd (drawGen gen i).1 idx x = laneRnd gen (i :: idx) x := by
  unfold laneRnd
  rw [drawGen_get, stepped_add, usesIn_cons]
  by_cases hm : i % 256 = x % 256
  · simp [hm, hx]
  · simp [hm]

/-- A pass in rising order under SR: the elements, the generators, and the lowest element that generated a NaN. -/
theorem runLanes_draws (ew : Nat) (f : Nat → Nat → Nat × Bool) (idx : List Nat) (hp : idx.Pairwise (· < ·)) (l : Lanes) :
    (∀ i, elemOf ew (runLanes ew true f idx l).bits i =
      if i ∈ idx then (f (laneRnd l.gen idx i) i).1 % 2 ^ ew else elemOf ew l.bits i) ∧
    (∀ j n, (∀ i ∈ idx, i < n) → (runLanes ew true f idx l).gen.getD (j % 256) 0 = stepped (l.gen.getD (j % 256) 0) (usesIn idx (j % 256) n)) ∧
    (runLanes ew true f idx l).nan = lowerOf l.nan (idx.find? fun i => (f (laneRnd l.gen idx i) i).2) := by
  induction idx generalizing l with
  | nil => simp [runLanes, usesIn, stepped]; cases l.nan <;> rfl
  | cons i idx ih =>
    obtain ⟨hi, hp⟩ := List.pairwise_cons.1 hp
    have e : runLanes ew true f (i :: idx) l = runLanes ew true f idx (laneStep ew true f l i) := rfl
    have eg : (laneStep ew true f l i).gen = (drawGen l.gen i).1 := by simp [laneStep]
    have r' : ∀ x ∈ idx, laneRnd (drawGen l.gen i).1 idx x = laneRnd l.gen (i :: idx) x := fun x hx => laneRnd_later (hi x hx)
    obtain ⟨h1, h2, h3⟩ := ih hp (laneStep ew true f l i)
    rw [eg] at h1 h2 h3
    refine ⟨fun x => ?_, fun j n hn => ?_, ?_⟩
    · rw [e, h1 x]
      by_cases hx : x ∈ idx
      · rw [if_pos hx, if_pos (List.mem_cons_of_mem _ hx), r' x hx]
      · rw [if_neg hx]
        by_cases hxi : x = i
        · subst hxi
          rw [if_pos List.mem_cons_self]
          simp [laneStep, ← laneRnd_first hi]
        · rw [if_neg (by simp [hxi, hx])]
          simp [laneStep, elemOf_setElem_ne (Ne.symm hxi)]
    · rw [e, h2 j n (fun x hx => hn x (List.mem_cons_of_mem _ hx)), drawGen_get, stepped_add, usesIn_cons]
      congr 1
      have := hn i List.mem_cons_self
      simp [this]
    · have hf : idx.find? (fun x => (f (laneRnd (drawGen l.gen i).1 idx x) x).2) = idx.find? (fun x => (f (laneRnd l.gen (i :: idx) x) x).2) := by
        apply List.find?_congr
        intro x hx; rw [r' x hx]
      rw [e, h3, hf, List.find?_cons, ← laneRnd_first hi]
      by_cases hb : (f (drawGen l.gen i).2 i).2 = true
      · have hl : (laneStep ew true f l i).nan = lowerOf l.nan (some i) := by simp [laneStep, hb]
        rw [hl, hb]
        rcases hfd : idx.find? (fun x => (f (laneRnd l.gen (i :: idx) x) x).2) with _ | y
        · cases l.nan <;> rfl
        · have := hi y (List.mem_of_find?_eq_some hfd)
          cases l.nan <;> simp [lowerOf] <;> omega
      · have hl : (laneStep ew true f l i).nan = l.nan := by simp [laneStep, hb]
        rw [hl]; simp [hb]

/-- A pass that draws nothing: the elements, and the lowest element that generated a NaN. -/
theorem runLanes_still (ew : Nat) (f : Nat → Nat → Nat × Bool) (idx : List Nat) (hp : idx.Pairwise (· < ·)) (l : Lanes) :
    (∀ i, elemOf ew (runLanes ew false f idx l).bits i = if i ∈ idx then (f 0 i).1 % 2 ^ ew else elemOf ew l.bits i) ∧
    (runLanes ew false f idx l).gen = l.gen ∧
    (runLanes ew false f idx l).nan = lowerOf l.nan (idx.find? fun i => (f 0 i).2) := by
  induction idx generalizing l with
  | nil => simp [runLanes]; cases l.nan <;> rfl
  | cons i idx ih =>
    obtain ⟨hi, hp⟩ := List.pairwise_cons.1 hp
    have e : runLanes ew false f (i :: idx) l = runLanes ew false f idx (laneStep ew false f l i) := rfl
    obtain ⟨h1, h2, h3⟩ := ih hp (laneStep ew false f l i)
    refine ⟨fun x => ?_, by rw [e, h2]; simp [laneStep], ?_⟩
    · rw [e, h1 x]
      by_cases hx : x ∈ idx
      · simp [hx]
      · by_cases hxi : x = i
        · subst hxi; simp [hx, laneStep]
        · simp [hx, hxi, laneStep, elemOf_setElem_ne (Ne.symm hxi)]
    · rw [e, h3, List.find?_cons]
      by_cases hb : (f 0 i).2 = true
      · have hl : (laneStep ew false f l i).nan = lowerOf l.nan (some i) := by simp [laneStep, hb]
        rw [hl, hb]
        rcases hfd : idx.find? (fun x => (f 0 x).2) with _ | y
        · cases l.nan <;> rfl
        · have := hi y (List.mem_of_find?_eq_some hfd)
          cases l.nan <;> simp [lowerOf] <;> omega
      · have hl : (laneStep ew false f l i).nan = l.nan := by simp [laneStep, hb]
        rw [hl]; simp [hb]

theorem active_pairwise (h : Hart) : h.active.Pairwise (· < ·) := List.pairwise_lt_range.filter _

/-- A plain pass writes the active elements. -/
theorem elementwise_plain {s s1 : State} {h : Hart} (hh : s1.hart = some h) (vd : Nat) (d : Bool) (hd : (d && h.isSr && Fmt.isFloat h.fmt) = false)
    (val : Nat → Nat) {x : M Unit} (hx : x s = elementwise h vd d (fun _ i => (val i, false)) s1) :
    WritesVector (issue x s) s1 h vd h.writes val := by
  unfold WritesVector
  split
  · rename_i h0
    refine issue_retired (s2 := s1) ?_ (fun _ => rfl) rfl
    rw [hx]; simp [elementwise, h0, hh]
  · rename_i h0
    obtain ⟨h1, h2, h3⟩ := runLanes_still (Fmt.ew h.fmt) (fun _ i => (val i, false)) h.active (active_pairwise h) { bits := h.vbitsOf vd, gen := h.gen, nan := none }
    refine ⟨(runLanes (Fmt.ew h.fmt) false (fun _ i => (val i, false)) h.active { bits := h.vbitsOf vd, gen := h.gen, nan := none }).bits,
      ?_, fun i hi => ?_, fun i hi => ?_⟩
    rotate_left
    · rw [h1 i, if_pos (mem_active.2 hi)]
    · rw [h1 i, if_neg (fun h => hi (mem_active.1 h))]
    · refine issue_retired (s2 := s1) ?_ (fun _ => rfl) rfl
      rw [hx]
      simp only [elementwise, h0, if_false, hd]
      have h3' : (runLanes (Fmt.ew h.fmt) false (fun _ i => (val i, false)) h.active { bits := h.vbitsOf vd, gen := h.gen, nan := none }).nan = none := by
        rw [h3]; simp [lowerOf]
      simp [finishV, h2, h3', noteNan, retire, putHart_putHart, Hart.setV]

/-- A pass that rounds: its elements, generators and first-NaN record. -/
theorem elementwise_rounds {s s1 : State} {h : Hart} (hh : s1.hart = some h) (vd : Nat) (hf : Fmt.isFloat h.fmt = true)
    (val : Nat → Nat → Nat × Bool) {x : M Unit} (hx : x s = elementwise h vd true val s1) :
    WritesRounded (issue x s) s1 h vd val := by
  unfold WritesRounded
  split
  · rename_i h0
    refine issue_retired (s2 := s1) ?_ (fun _ => rfl) rfl
    rw [hx]; simp [elementwise, h0, hh]
  · rename_i h0
    by_cases hsr : h.isSr = true
    · obtain ⟨h1, h2, h3⟩ := runLanes_draws (Fmt.ew h.fmt) val h.active (active_pairwise h) { bits := h.vbitsOf vd, gen := h.gen, nan := none }
      have hm : mdRm h.md = .sr := by simpa [Hart.isSr] using hsr
      have er : ∀ i, laneRnd h.gen h.active i = h.rndAt i := fun i => by simp [laneRnd, Hart.rndAt, hm, usesIn, Hart.uses]
      simp only [er] at h1 h3
      refine ⟨(runLanes (Fmt.ew h.fmt) true val h.active { bits := h.vbitsOf vd, gen := h.gen, nan := none }).bits,
        (runLanes (Fmt.ew h.fmt) true val h.active { bits := h.vbitsOf vd, gen := h.gen, nan := none }).gen,
        ?_, fun i hi => ?_, fun i hi => ?_, fun j => ?_⟩
      rotate_left
      · rw [h1 i, if_pos (mem_active.2 hi)]
      · rw [h1 i, if_neg (fun h => hi (mem_active.1 h))]
      · have := h2 j h.vl.toNat (fun i hi => (mem_active.1 hi).1)
        rw [Nat.mod_eq_of_lt j.isLt] at this
        simpa [Vector.getD, hm, usesIn, Hart.uses] using this
      · refine issue_retired (s2 := s1) ?_ (fun _ => rfl) rfl
        rw [hx]
        simp only [elementwise, h0, if_false, hsr, hf]
        simp only [lowerOf] at h3
        cases hfd : h.active.find? fun i => (val (h.rndAt i) i).2 <;> rw [hfd] at h3
        · simp [finishV, h3, noteNan, retire, putHart_putHart]
        · simp [finishV, h3, noteNan, retire, putHart_putHart, Hart.setV]
    · have hm : mdRm h.md ≠ .sr := by simpa [Hart.isSr] using hsr
      obtain ⟨h1, h2, h3⟩ := runLanes_still (Fmt.ew h.fmt) val h.active (active_pairwise h) { bits := h.vbitsOf vd, gen := h.gen, nan := none }
      have er : ∀ i, (0 : Nat) = h.rndAt i := fun i => by simp [Hart.rndAt, hm]
      refine ⟨(runLanes (Fmt.ew h.fmt) false val h.active { bits := h.vbitsOf vd, gen := h.gen, nan := none }).bits, h.gen, ?_, fun i hi => ?_, fun i hi => ?_, fun j => by simp [hm]⟩
      rotate_left
      · rw [h1 i, if_pos (mem_active.2 hi), ← er i]
      · rw [h1 i, if_neg (fun h => hi (mem_active.1 h))]
      · refine issue_retired (s2 := s1) ?_ (fun _ => rfl) rfl
        rw [hx]
        simp only [elementwise, h0, if_false, hsr, hf]
        simp only [lowerOf] at h3
        simp only [← er]
        cases hfd : h.active.find? fun i => (val 0 i).2 <;> rw [hfd] at h3
        · simp [finishV, h2, h3, noteNan, retire, putHart_putHart]
        · simp [finishV, h2, h3, noteNan, retire, putHart_putHart, Hart.setV]

/-- A form that writes plain bits at a list of elements. -/
theorem writeV_plain {s s1 : State} {h : Hart} (hh : s1.hart = some h) (vd : Nat) (idx : List Nat) (val : Nat → Nat) {x : M Unit}
    (hx : x s = writeV h vd idx val s1) : WritesVector (issue x s) s1 h vd (· ∈ idx) val := by
  unfold WritesVector
  split
  · rename_i h0
    refine issue_retired (s2 := s1) ?_ (fun _ => rfl) rfl
    rw [hx]; simp [writeV, h0, hh]
  · rename_i h0
    obtain ⟨-, -, h3⟩ := runLanes_plain (Fmt.ew h.fmt) val idx { bits := h.vbitsOf vd, gen := h.gen, nan := none }
    refine ⟨(runLanes (Fmt.ew h.fmt) false (fun _ i => (val i, false)) idx { bits := h.vbitsOf vd, gen := h.gen, nan := none }).bits,
      ?_, fun i hi => ?_, fun i hi => ?_⟩
    rotate_left
    · rw [h3 i, if_pos hi]
    · rw [h3 i, if_neg hi]
    · refine issue_retired (s2 := s1) ?_ (fun _ => rfl) rfl
      rw [hx]
      simp only [writeV, h0, if_false]
      simp [retire, putHart_putHart]

theorem testBit_setBits (p : Nat) (idx : List Nat) (f : Nat → Bool) (i : Nat) :
    (setBits p idx f).testBit i = if i ∈ idx then f i else p.testBit i := by
  induction idx generalizing p with
  | nil => simp [setBits]
  | cons j idx ih =>
    have e : setBits p (j :: idx) f = setBits (putBits p j 1 (f j).toNat) idx f := rfl
    rw [e, ih]
    by_cases hi : i ∈ idx
    · simp [hi]
    · by_cases hij : i = j
      · subst hij; simp [hi, testBit_putBits]; cases f i <;> rfl
      · rw [testBit_putBits, if_neg (by omega : ¬ (j ≤ i ∧ i < j + 1))]
        simp [hi, hij]

/-- A form that writes bits of a predicate register at a list of elements. -/
theorem writeP_plain {s s1 : State} {h : Hart} (hh : s1.hart = some h) (pd : Nat) (idx : List Nat) (val : Nat → Bool) {x : M Unit}
    (hx : x s = writeP h pd idx val s1) : WritesPredicate (issue x s) s1 h pd (· ∈ idx) val := by
  unfold WritesPredicate
  split
  · rename_i h0
    refine issue_retired (s2 := s1) ?_ (fun _ => rfl) rfl
    rw [hx]; simp [writeP, h0, hh]
  · rename_i h0
    refine ⟨setBits (h.pbits pd) idx val, ?_, fun i hi => by simp [testBit_setBits, hi], fun i hi => by simp [testBit_setBits, hi]⟩
    refine issue_retired (s2 := s1) ?_ (fun _ => rfl) rfl
    rw [hx]
    simp only [writeP, h0, if_false]
    simp [retire, putHart_putHart]

theorem hart_of_opens {s s1 : State} {h : Hart} {admits : Fmt → Bool} {r : Named} (ho : s.opens admits r s1 h) : s1.hart = some h := by
  obtain ⟨_, _, _, _, _, _, _, _, _, _, _, h1, _⟩ := ho; exact h1

theorem intVal_asInt (h : Hart) (b i : Nat) : intVal h.fmt (elemOf (Fmt.ew h.fmt) b i) = h.asInt (elemOf (Fmt.ew h.fmt) b i) := by
  have hl := elemOf_lt (Fmt.ew h.fmt) b i
  generalize elemOf (Fmt.ew h.fmt) b i = x at *
  have hp : 0 < Fmt.ew h.fmt := by cases h.fmt <;> decide
  have : 2 ^ Fmt.ew h.fmt = 2 * 2 ^ (Fmt.ew h.fmt - 1) := by rw [← Nat.pow_succ']; congr 1; omega
  unfold intVal Hart.asInt signedOf
  rw [Nat.mod_eq_of_lt hl]
  by_cases hs : Fmt.isSigned h.fmt = true
  · simp only [hs, if_true, true_and]
    by_cases hc : 2 ^ (Fmt.ew h.fmt - 1) ≤ x
    · rw [if_neg (by omega), if_pos hc]; push_cast; rfl
    · rw [if_pos (by omega), if_neg hc]
  · simp [hs]

theorem narrow_eq (h : Hart) (x : Int) : narrow h.fmt (mdSat h.md) x = h.narrowed x := by
  unfold narrow Hart.narrowed bitsOfInt Fmt.intMin Fmt.intMax
  push_cast
  rfl

end Sys2Proof.Machine
end

