-- ==== Sys2Proof/Tests/Slice0.lean ====
section
/-! SUPPORT. Tests: ill-formed terms that the checks refuse, words of the spec decoded, single steps, and for every statement with
hypotheses a state that meets them. -/

namespace Sys2Proof.Tests
set_option Elab.async false
open Sys2Proof Sys2Proof.Machine

/-! Words written out from the tables of the spec, field by field, and the words of its examples. -/

theorem test_words_immediates_and_jumps : ([
  (0b111111111111110_10001_00011_0010000, .andi 3 17 (-2)),
  (0b111111111111110_10001_00011_0010001, .ori 3 17 (-2)),
  (0b111111111111110_10001_00011_0010010, .xori 3 17 (-2)),
  (0b111111111111110_10001_00011_0010011, .slti 3 17 (-2)),
  (0b111111111111110_10001_00011_0010100, .addi 3 17 (-2)),
  (0b111111111111110_10001_00011_0011010, .jalr 3 17 (-2)),
  (0b000000000101001_10001_00011_0010101, .slli 3 17 41),
  (0b000000000101001_10001_00011_0010110, .srli 3 17 41),
  (0b000000000101001_10001_00011_0010111, .srai 3 17 41),
  (0b000010100101001_10001_00011_0011000, .ext 3 17 41 20),
  (0b000010100101001_10001_00011_0011001, .ins 3 17 41 20),
  (0b11111111111111111110_00011_0011011, .lhi 3 (-2)),
  (0b11111111111111111110_00011_0011100, .jal 3 (-2)),
  (0b00000000000000000101_00011_0011101, .ctok 3 5),
  (0b00000000000000000101_00000_0011110, .astart 5),
  (0b111111111111110_10001_00011_0100000, .beq 3 17 (-2)),
  (0b111111111111110_10001_00011_0100001, .bne 3 17 (-2)),
  (0b111111111111110_10001_00011_0100010, .blt 3 17 (-2)),
  (0b111111111111110_10001_00011_0100011, .bge 3 17 (-2)),
  (0b111111111111110_10001_00011_0100100, .bltn 3 17 (-2)),
  (0b111111111111110_10001_00011_0100101, .bgen 3 17 (-2)),
  (0b111111111111110_10001_00011_0100110, .smb 3 17 (-2))] : List (Nat × Instr)).all (fun x => decide (decodeTableWord 32 x.1 = some x.2)) = true := by decide
theorem test_words_scalar_alu_and_queues : ([
  (0b0000000000_11110_10001_00011_0110000, .add 3 17 30),
  (0b0000000001_11110_10001_00011_0110000, .sub 3 17 30),
  (0b0000000010_11110_10001_00011_0110000, .mul 3 17 30),
  (0b0000000011_11110_10001_00011_0110000, .mulh 3 17 30),
  (0b0000000100_11110_10001_00011_0110000, .div 3 17 30),
  (0b0000000101_11110_10001_00011_0110000, .divn 3 17 30),
  (0b0000000110_11110_10001_00011_0110000, .rem 3 17 30),
  (0b0000000111_11110_10001_00011_0110000, .remn 3 17 30),
  (0b0000001000_11110_10001_00011_0110000, .and 3 17 30),
  (0b0000001001_11110_10001_00011_0110000, .or 3 17 30),
  (0b0000001010_11110_10001_00011_0110000, .xor 3 17 30),
  (0b0000001011_11110_10001_00011_0110000, .sll 3 17 30),
  (0b0000001100_11110_10001_00011_0110000, .srl 3 17 30),
  (0b0000001101_11110_10001_00011_0110000, .sra 3 17 30),
  (0b0000001110_11110_10001_00011_0110000, .slt 3 17 30),
  (0b0000001111_11110_10001_00011_0110000, .sltn 3 17 30),
  (0b0000010000_11110_10001_00011_0110000, .min 3 17 30),
  (0b0000010001_11110_10001_00011_0110000, .max 3 17 30),
  (0b0000010010_11110_10001_00011_0110000, .minN 3 17 30),
  (0b0000010011_11110_10001_00011_0110000, .maxN 3 17 30),
  (0b0000010100_00000_10001_00011_0110000, .clz 3 17),
  (0b0000010101_00000_10001_00011_0110000, .popc 3 17),
  (0b0000010110_11110_10001_00011_0110000, .sel 3 17 30),
  (0b0000011010_11110_10001_00011_0110000, .lea 3 17 30 2),
  (0b000000000000_0000_101_010001_0111000, .qpush 5 17),
  (0b000000000000_0001_010_101000_0111000, .qpop 40 2),
  (0b000000000000_0010_010_101000_0111000, .qpeek 40 2),
  (0b000000000000_0011_101_010001_0111000, .qlen 17 5),
  (0b000000000000_0100_110_010001_0111000, .ctake 17)] : List (Nat × Instr)).all (fun x => decide (decodeTableWord 32 x.1 = some x.2)) = true := by decide
theorem test_words_vector : ([
  (0b0000000_111100_101001_000011_1000000, .vadd 3 41 60),
  (0b0000001_111100_101001_000011_1000000, .vsub 3 41 60),
  (0b0000010_111100_101001_000011_1000000, .vmul 3 41 60),
  (0b0000011_111100_101001_000011_1000000, .vmadd 3 41 60),
  (0b0000100_111100_101001_000011_1000000, .vnmadd 3 41 60),
  (0b0000101_111100_101001_000011_1000000, .vdiv 3 41 60),
  (0b0001010_111100_101001_000011_1000000, .vmax 3 41 60),
  (0b0001011_111100_101001_000011_1000000, .vmin 3 41 60),
  (0b0010000_111100_101001_000011_1000000, .vand 3 41 60),
  (0b0010001_111100_101001_000011_1000000, .vor 3 41 60),
  (0b0010010_111100_101001_000011_1000000, .vxor 3 41 60),
  (0b0010100_111100_101001_000011_1000000, .vshl 3 41 60),
  (0b0010101_111100_101001_000011_1000000, .vshr 3 41 60),
  (0b0010110_111100_101001_000011_1000000, .vsra 3 41 60),
  (0b0011111_111100_101001_000011_1000000, .vsel 3 41 60),
  (0b0110010_111100_101001_000011_1000000, .vperm 3 41 60),
  (0b0110011_111100_101001_000011_1000000, .vcompress 3 41 60),
  (0b0110100_111100_101001_000011_1000000, .vexpand 3 41 60),
  (0b0111000_111100_101001_000011_1000000, .smerge 3 41 60),
  (0b0000110_000000_101001_000011_1000000, .vsqrt 3 41),
  (0b0000111_000000_101001_000011_1000000, .vrsqrt 3 41),
  (0b0001000_000000_101001_000011_1000000, .vexp2 3 41),
  (0b0001001_000000_101001_000011_1000000, .vlog2 3 41),
  (0b0001100_000000_101001_000011_1000000, .vabs 3 41),
  (0b0001101_000000_101001_000011_1000000, .vneg 3 41),
  (0b0010011_000000_101001_000011_1000000, .vnot 3 41),
  (0b0100000_000000_101001_000011_1000000, .vmv 3 41),
  (0b0101000_000000_101001_000011_1000000, .vredsum 3 41),
  (0b0101001_000000_101001_000011_1000000, .vredmax 3 41),
  (0b0101010_000000_101001_000011_1000000, .vredmin 3 41),
  (0b0101011_000000_101001_000011_1000000, .vargmax 3 41),
  (0b0110101_000000_101001_000011_1000000, .vconf 3 41),
  (0b0011000_111100_101001_000011_1000000, .vcmp .eq 3 41 60),
  (0b0011001_111100_101001_000011_1000000, .vcmp .ne 3 41 60),
  (0b0011010_111100_101001_000011_1000000, .vcmp .lt 3 41 60),
  (0b0011011_111100_101001_000011_1000000, .vcmp .le 3 41 60),
  (0b0011100_111100_101001_000011_1000000, .vcmp .gt 3 41 60),
  (0b0011101_111100_101001_000011_1000000, .vcmp .ge 3 41 60),
  (0b0011110_111100_101001_000011_1000000, .vcmp .uo 3 41 60),
  (0b0100001_000000_000011_101001_1000000, .vsplat 41 3),
  (0b0100010_000000_000000_101001_1000000, .vid 41),
  (0b0100011_010001_101001_000011_1000000, .vext 3 41 17),
  (0b0100100_010001_000011_101001_1000000, .vins 41 3 17),
  (0b0100101_001010_101001_000011_1000000, .vcvt 3 41 .bf16),
  (0b0110000_010001_101001_000011_1000000, .vslideup 3 41 17),
  (0b0110001_010001_101001_000011_1000000, .vslidedn 3 41 17),
  (0b0111001_000010_101001_000011_1000000, .sapply 3 41 2)] : List (Nat × Instr)).all (fun x => decide (decodeTableWord 32 x.1 = some x.2)) = true := by decide
theorem test_words_vector_immediate_and_predicate : ([
  (0b00000_11111110_101001_000011_1000001, .vaddImm 3 41 (-2)),
  (0b00001_11111110_101001_000011_1000001, .vsubImm 3 41 (-2)),
  (0b00010_11111110_101001_000011_1000001, .vmulImm 3 41 (-2)),
  (0b00011_11111110_101001_000011_1000001, .vmaxImm 3 41 (-2)),
  (0b00100_11111110_101001_000011_1000001, .vminImm 3 41 (-2)),
  (0b00101_11111110_101001_000011_1000001, .vandImm 3 41 (-2)),
  (0b00110_11111110_101001_000011_1000001, .vorImm 3 41 (-2)),
  (0b00111_11111110_101001_000011_1000001, .vxorImm 3 41 (-2)),
  (0b01000_11111110_101001_000011_1000001, .vshlImm 3 41 (-2)),
  (0b01001_11111110_101001_000011_1000001, .vshrImm 3 41 (-2)),
  (0b01010_11111110_101001_000011_1000001, .vsraImm 3 41 (-2)),
  (0b01011_11111110_101001_000011_1000001, .vslideupImm 3 41 (-2)),
  (0b01100_11111110_101001_000011_1000001, .vslidednImm 3 41 (-2)),
  (0b01101_11111110_000000_000011_1000001, .vsplatImm 3 (-2)),
  (0b01110_00001101_000000_000011_1000001, .vtag 3 .e5m2),
  (0b10000_11111110_101001_000011_1000001, .vcmpImm .eq 3 41 (-2)),
  (0b10001_11111110_101001_000011_1000001, .vcmpImm .ne 3 41 (-2)),
  (0b10010_11111110_101001_000011_1000001, .vcmpImm .lt 3 41 (-2)),
  (0b10011_11111110_101001_000011_1000001, .vcmpImm .le 3 41 (-2)),
  (0b10100_11111110_101001_000011_1000001, .vcmpImm .gt 3 41 (-2)),
  (0b10101_11111110_101001_000011_1000001, .vcmpImm .ge 3 41 (-2)),
  (0b10110_11111110_101001_000011_1000001, .vcmpImm .uo 3 41 (-2)),
  (0b0000000_111100_101001_000011_1000010, .pand 3 41 60),
  (0b0000001_111100_101001_000011_1000010, .por 3 41 60),
  (0b0000010_111100_101001_000011_1000010, .pxor 3 41 60),
  (0b0000011_000000_101001_000011_1000010, .pnot 3 41),
  (0b0000100_000000_101001_000011_1000010, .psbf 3 41),
  (0b0000101_000000_101001_000011_1000010, .psif 3 41),
  (0b0000110_000000_101001_000011_1000010, .pfirst 3 41),
  (0b0000111_000000_101001_000011_1000010, .pcnt 3 41),
  (0b0001000_000000_000011_101001_1000010, .pset 41 3),
  (0b0010000_000000_101001_000011_1000010, .kmvToScale 3 41),
  (0b0010001_000000_000011_101001_1000010, .kmvToVector 41 3)] : List (Nat × Instr)).all (fun x => decide (decodeTableWord 32 x.1 = some x.2)) = true := by decide
theorem test_words_length_and_mode : ([
  (0b00_10000_0_1_10_1010_10001_00011_1000100, .setvl 3 17 .bf16 .d32 true false 16),
  (0b00_00000_1_0_00_1110_10001_00011_1000100, .setvl 3 17 .b4 .d8 false true 0),
  (0b0000_1_100_1_101001_00000_00000_1000101, .mode (some 41) .sr true),
  (0b0000_0_001_0_000000_00000_00000_1000101, .mode none .rtz false)] : List (Nat × Instr)).all (fun x => decide (decodeTableWord 32 x.1 = some x.2)) = true := by decide
theorem test_words_scalar_memory : ([
  (0b111111000_1_000_0_10001_000011_1010000, .lbMd 3 17 (-8) true),
  (0b0000_11110_0_000_1_10001_000011_1010000, .lbMx 3 17 30 false),
  (0b111111000_1_001_0_10001_000011_1010000, .lbnMd 3 17 (-8) true),
  (0b0000_11110_0_001_1_10001_000011_1010000, .lbnMx 3 17 30 false),
  (0b111111000_1_010_0_10001_000011_1010000, .lhMd 3 17 (-8) true),
  (0b0000_11110_0_010_1_10001_000011_1010000, .lhMx 3 17 30 false),
  (0b111111000_1_011_0_10001_000011_1010000, .lhnMd 3 17 (-8) true),
  (0b0000_11110_0_011_1_10001_000011_1010000, .lhnMx 3 17 30 false),
  (0b111111000_1_100_0_10001_000011_1010000, .lwMd 3 17 (-8) true),
  (0b0000_11110_0_100_1_10001_000011_1010000, .lwMx 3 17 30 false),
  (0b111111000_1_101_0_10001_000011_1010000, .lwnMd 3 17 (-8) true),
  (0b0000_11110_0_101_1_10001_000011_1010000, .lwnMx 3 17 30 false),
  (0b111111000_1_110_0_10001_000011_1010000, .ldMd 3 17 (-8) true),
  (0b0000_11110_0_110_1_10001_000011_1010000, .ldMx 3 17 30 false),
  (0b111111000_0_111_0_10001_000000_1010000, .prefL1Md 17 (-8)),
  (0b0000_11110_0_111_1_10001_000000_1010000, .prefL1Mx 17 30),
  (0b111111000_0_111_0_10001_000001_1010000, .prefLlcMd 17 (-8)),
  (0b0000_11110_0_111_1_10001_000001_1010000, .prefLlcMx 17 30),
  (0b111111000_0_000_0_10001_000011_1010001, .sbMd 3 17 (-8)),
  (0b0000_11110_0_000_1_10001_000011_1010001, .sbMx 3 17 30),
  (0b111111000_0_010_0_10001_000011_1010001, .shMd 3 17 (-8)),
  (0b0000_11110_0_010_1_10001_000011_1010001, .shMx 3 17 30),
  (0b111111000_0_100_0_10001_000011_1010001, .swMd 3 17 (-8)),
  (0b0000_11110_0_100_1_10001_000011_1010001, .swMx 3 17 30),
  (0b111111000_0_110_0_10001_000011_1010001, .sdMd 3 17 (-8)),
  (0b0000_11110_0_110_1_10001_000011_1010001, .sdMx 3 17 30)] : List (Nat × Instr)).all (fun x => decide (decodeTableWord 32 x.1 = some x.2)) = true := by decide
theorem test_words_vector_memory : ([
  (0b111111000_1_000_0_10001_101001_1010100, .vldMd 41 17 (-8) true),
  (0b0000_11110_0_000_1_10001_101001_1010100, .vldMx 41 17 30 false),
  (0b0000_11110_1_001_1_10001_101001_1010100, .vlds 41 17 30 true),
  (0b111111000_0_010_0_10001_101001_1010100, .vldffMd 41 17 (-8) false),
  (0b0000_11110_1_010_1_10001_101001_1010100, .vldffMx 41 17 30 true),
  (0b0000_11110_0_011_1_10001_001001_1010100, .ksld 9 17 30 false),
  (0b111111000_0_000_0_10001_101001_1010101, .vstMd 41 17 (-8)),
  (0b0000_11110_0_000_1_10001_101001_1010101, .vstMx 41 17 30),
  (0b0000_11110_0_001_1_10001_101001_1010101, .vsts 41 17 30),
  (0b111111000_0_011_0_10001_101001_1010110, .vldsegMd 3 41 17 (-8)),
  (0b0000_11110_0_110_1_10001_101001_1010110, .vldsegMx 6 41 17 30),
  (0b111111000_0_000_0_10001_101001_1010111, .vstsegMd 0 41 17 (-8)),
  (0b0000_11110_0_011_1_10001_101001_1010111, .vstsegMx 3 41 17 30)] : List (Nat × Instr)).all (fun x => decide (decodeTableWord 32 x.1 = some x.2)) = true := by decide
theorem test_words_atomics_and_access_stream : ([
  (0b11_10_1_0000_10001_11110_000011_1011000, .amoadd .fab .rel true 3 17 30),
  (0b11_10_1_0001_10001_11110_000011_1011000, .amoswap .fab .rel true 3 17 30),
  (0b11_10_1_0010_10001_11110_000011_1011000, .amomax .fab .rel true 3 17 30),
  (0b11_10_1_0011_10001_11110_000011_1011000, .amomin .fab .rel true 3 17 30),
  (0b11_10_1_0100_10001_11110_000011_1011000, .amomaxN .fab .rel true 3 17 30),
  (0b11_10_1_0101_10001_11110_000011_1011000, .amominN .fab .rel true 3 17 30),
  (0b11_10_1_0110_10001_11110_000011_1011000, .amoand .fab .rel true 3 17 30),
  (0b11_10_1_0111_10001_11110_000011_1011000, .amoor .fab .rel true 3 17 30),
  (0b11_10_1_1000_10001_11110_000011_1011000, .cas .fab .rel true 3 17 30),
  (0b00_01_0_0000_10001_11110_000011_1011000, .amoadd .core .acq false 3 17 30),
  (0b0_01_1_11110_10001_00011_000_010_1011010, .vgat 2 .h true 3 17 30),
  (0b0_11_0_11110_10001_00011_001_010_1011010, .vgatff 2 .d false 3 17 30),
  (0b0_10_0_11110_10001_00011_010_101_1011010, .vsca 5 .w 3 17 30),
  (0b0_00_0_11110_10001_00011_011_101_1011010, .vscaa 5 .b 3 17 30),
  (0b0_11_0_11110_10001_00011_100_010_1011010, .kvx 2 3 17 30),
  (0b0000000000_11110_10001_00101_1011100, .cut 5 17 30),
  (0b0000000001_11110_10001_00101_1011100, .cutp 5 17 30),
  (0b0000000010_11110_10001_00101_1011100, .cutd 5 17 30)] : List (Nat × Instr)).all (fun x => decide (decodeTableWord 32 x.1 = some x.2)) = true := by decide
theorem test_words_matrix_and_pages : ([
  (0b0000000_011110_010001_000011_1100000, .mshapeCore 3 17 30),
  (0b0000001_011110_010001_000011_1100000, .mshapeDie 3 17 30),
  (0b0000010_000000_011110_010001_1100000, .mlds 17 30),
  (0b0000011_000000_000000_000000_1100000, .mswap),
  (0b0000100_011110_010001_000001_1100000, .mstreamLocal 1 17 30),
  (0b0000101_011110_101001_000001_1100000, .mstreamVector 1 41 30),
  (0b0000110_000000_000000_000001_1100000, .mzero 1),
  (0b0000111_011110_000001_101001_1100000, .mrd 41 1 30),
  (0b0001000_011110_101001_000001_1100000, .mwr 1 41 30),
  (0b0000000000_00000_00000_10001_1100010, .opin 17),
  (0b0000000001_00000_00000_10001_1100010, .ounpin 17),
  (0b0000000010_00000_00000_10001_1100010, .ocommitPriv 17),
  (0b0000000011_00000_00000_10001_1100010, .ocommitPub 17),
  (0b0000000100_00000_00000_10001_1100010, .odiscard 17),
  (0b0000000101_11110_10001_00011_1100010, .oquery 3 17 30),
  (0b0100110110_11110_10001_00011_1100010, .frref .ar .fab 3 17 30)] : List (Nat × Instr)).all (fun x => decide (decodeTableWord 32 x.1 = some x.2)) = true := by decide
theorem test_words_transfers_and_kernels : ([
  (0b0000000000_11110_10001_00011_1100100, .cpy 3 17 30),
  (0b0000000001_11110_10001_00011_1100100, .cpyx 3 17 30),
  (0b0000000010_11110_10001_00011_1100100, .cpyz 3 17 30),
  (0b0000000011_11110_10001_00011_1100100, .cpyp 3 17 30),
  (0b0000000100_11110_10001_00011_1100100, .cpyd 3 17 30),
  (0b0000000101_11110_10001_00011_1100100, .kvcompact 3 17 30),
  (0b0000000110_00000_00000_00000_1100100, .lrfence),
  (0b0000000111_00000_10001_00011_1100100, .evwait 3 17),
  (0b0000001000_00000_10001_00011_1100100, .evpoll 3 17),
  (0b0000000000_00000_10001_00011_1100110, .klaunch 3 17),
  (0b0000000001_00000_00000_00000_1100110, .ktrig),
  (0b0000000010_11110_10001_00011_1100110, .claim 3 17 30),
  (0b0000000011_00000_00000_00000_1100110, .vrelease),
  (0b0000000100_00000_00000_00000_1100110, .hend),
  (0b0000000101_00000_10001_00011_1100110, .gsplit 3 17),
  (0b0010000110_01101_00000_00000_1100110, .barr .die 13),
  (0b0010000111_01101_00000_00000_1100110, .bwait .die 13),
  (0b0010001000_01101_00000_00000_1100110, .bsync .die 13)] : List (Nat × Instr)).all (fun x => decide (decodeTableWord 32 x.1 = some x.2)) = true := by decide
theorem test_words_attention_and_trees : ([
  (0b0000000_010001_101001_000000_1101000, .sattn 41 17),
  (0b0000001_000000_010001_000010_1101000, .spld 2 17),
  (0b0000000_000000_010001_000101_1101010, .dtinit 5 17),
  (0b0000001_111100_101001_000101_1101010, .dtadd 5 41 60),
  (0b0000010_010001_000101_101001_1101010, .dtmaskPred 41 5 17),
  (0b0000011_010001_000101_101001_1101010, .dtmaskVec 41 5 17),
  (0b0000100_000000_000101_101001_1101010, .dtpos 41 5),
  (0b0000101_101001_000101_010001_1101010, .dtacc 17 5 41),
  (0b0000110_000000_010001_000101_1101010, .dtprune 5 17),
  (0b0000111_000000_010001_000101_1101010, .dtld 5 17),
  (0b0001000_000000_010001_000101_1101010, .dtst 5 17),
  (0b0001001_000000_000101_010001_1101010, .dtinfo 17 5)] : List (Nat × Instr)).all (fun x => decide (decodeTableWord 32 x.1 = some x.2)) = true := by decide
theorem test_words_system : ([
  (0b0101010101_00000_00000_00000_1110000, .ecall 0x155),
  (0b1111111111_00000_00000_00000_1110000, .breakpoint),
  (0b0000000000_00001_00000_00000_1110000, .eret),
  (0b0000000000_00010_00000_00000_1110000, .trapack),
  (0b0000000000_00011_00000_00000_1110000, .yield),
  (0b0000010010_00100_00000_00000_1110000, .fence .die .st),
  (0b0000001010_01000_00000_00011_1110000, .csrr 3 .nanlane),
  (0b0100000101_01001_10001_00000_1110000, .csrw .thandler 17),
  (0b0000000010_01010_10001_00011_1110000, .csrs 3 .md 17),
  (0b0100001000_01011_10001_00011_1110000, .csrc 3 .xresume 17),
  (0b0000000000_10000_10001_00000_1110000, .ctxsave 17),
  (0b0000000000_10001_10001_00000_1110000, .ctxload 17),
  (0b0000000000_10010_10001_00011_1110000, .keyset 3 17),
  (0b0000000000_10011_10001_00011_1110000, .asidset 3 17),
  (0b0000000000_10100_10001_00000_1110000, .ckfreeze 17),
  (0b0000000000_10101_10001_00011_1110000, .ckwait 3 17),
  (0b0000000000_10110_10001_00000_1110000, .ckrestore 17)] : List (Nat × Instr)).all (fun x => decide (decodeTableWord 32 x.1 = some x.2)) = true := by decide
theorem test_words_of_the_spec : ([
  (0x000A4330, .add 6 4 5),
  (0x00264370, .asidset 6 4),
  (0x12020066, .bsync .core 1),
  (0x321E0066, .bsync .dev 15),
  (0xBC1C8358, .cas .dev .ar true 6 7 4),
  (0x000A4364, .cpy 6 4 5),
  (0x004A4364, .cpyx 6 4 5),
  (0x008A4364, .cpyz 6 4 5),
  (0x01D00370, .csrr 6 .cyc),
  (0x000A40DC, .cut 1 4 5),
  (0x045000EA, .dtmaskPred 1 0 10),
  (0x020063E4, .evpoll 7 6),
  (0x01C063E4, .evwait 7 6),
  (0x01905318, .ext 6 5 8 3),
  (0x06C80070, .fence .dev .all),
  (0x3D8A4362, .frref .ar .dev 6 4 5),
  (0x398A4362, .frref .rel .dev 6 4 5),
  (0x01404366, .gsplit 6 4),
  (0x01000066, .hend),
  (0x00010F9C, .jal 31 16),
  (0x0001F01A, .jalr 0 31 0),
  (0x00004366, .klaunch 6 4),
  (0x029C8154, .ksld 2 4 5 false),
  (0x6314915A, .kvx 2 4 5 6),
  (0x02B48350, .ldMx 6 4 5 false),
  (0x20708350, .ldMd 6 4 64 true),
  (0x06CA43B0, .lea 7 4 5 3),
  (0xFC2082D0, .lwMd 5 4 (-8) false),
  (0x04012460, .mlds 8 9),
  (0x00000045, .mode none .rne false),
  (0x09860045, .mode (some 3) .rtz true),
  (0x0E800660, .mrd 12 0 16),
  (0x00288360, .mshapeCore 6 4 5),
  (0x02288360, .mshapeDie 6 4 5),
  (0x08594060, .mstreamLocal 0 10 11),
  (0x0A2900E0, .mstreamVector 1 8 5),
  (0x102900E0, .mwr 1 8 5),
  (0x00C00262, .ocommitPub 4),
  (0x01404562, .oquery 10 4 0),
  (0x203880D0, .prefLlcMd 4 64),
  (0x0003E2B8, .qlen 5 7),
  (0x0002A338, .qpeek 6 5),
  (0x00018438, .qpop 8 4),
  (0x00012538, .qpop 10 1),
  (0x000084B8, .qpush 4 9),
  (0x72098A40, .sapply 20 12 1),
  (0x00220068, .sattn 16 4),
  (0x083083D1, .sdMd 7 4 16),
  (0x20125244, .setvl 4 5 .fp32 .d8 false false 16),
  (0x70490540, .smerge 10 8 9),
  (0x0200A0E8, .spld 1 5),
  (0x07E90541, .vaddImm 10 8 (-3)),
  (0x34490140, .vcmp .lt 2 8 9),
  (0x4A510640, .vcvt 12 8 .bf16),
  (0x431480DA, .vgat 1 .w false 4 5 6),
  (0x00008454, .vldMd 8 4 0 false),
  (0x03148554, .vldffMx 10 4 6 false),
  (0x028C8454, .vlds 8 4 5 false),
  (0x00088856, .vldsegMd 1 16 4 0),
  (0x04490540, .vmul 10 8 9),
  (0x63148A5A, .vsca 4 .d 4 5 6),
  (0x70280541, .vtag 10 .i32),
  (0x00000014, .addi 0 0 0),
  (0x00204070, .ctxsave 4)] : List (Nat × Instr)).all (fun x => decide (decodeTableWord 32 x.1 = some x.2)) = true := by decide

/-! Ill-formed terms: one for each check of `Instr.wf`, beside the last term that the check lets through. -/

theorem test_wf_bit_fields : (Instr.ext 1 2 40 24).wf = false ∧ (Instr.ext 1 2 40 23).wf = true ∧ (Instr.ins 1 2 63 1).wf = false ∧ (Instr.ins 1 2 63 0).wf = true := by decide
theorem test_wf_queues : (Instr.qpush 6 1).wf = false ∧ (Instr.qpush 4 32).wf = false ∧ (Instr.qpush 3 63).wf = true ∧ (Instr.qpop 1 6).wf = false ∧
    (Instr.qpop 32 5).wf = false ∧ (Instr.qpop 31 7).wf = true ∧ (Instr.qpeek 0 6).wf = false ∧ (Instr.qpeek 32 7).wf = false ∧ (Instr.qpeek 63 0).wf = true := by decide
theorem test_wf_groups : (Instr.sapply 0 61 0).wf = false ∧ (Instr.sapply 0 60 0).wf = true ∧ (Instr.dtadd 0 1 63).wf = false ∧ (Instr.dtadd 0 1 62).wf = true ∧
    (Instr.vldsegMd 2 61 0 0).wf = false ∧ (Instr.vldsegMd 2 60 0 0).wf = true ∧ (Instr.vldsegMx 0 63 0 0).wf = false ∧ (Instr.vldsegMx 0 62 0 0).wf = true ∧
    (Instr.vstsegMd 1 62 0 0).wf = false ∧ (Instr.vstsegMd 1 61 0 0).wf = true ∧ (Instr.vstsegMx 2 63 0 0).wf = false ∧ (Instr.vstsegMx 2 60 0 0).wf = true := by decide
theorem test_wf_gathers : (Instr.vgat 4 .w false 0 0 0).wf = false ∧ (Instr.vgat 6 .w false 0 0 0).wf = true ∧ (Instr.vgatff 5 .w false 0 0 0).wf = false ∧
    (Instr.vgatff 3 .w false 0 0 0).wf = true ∧ (Instr.kvx 5 0 0 0).wf = false ∧ (Instr.kvx 7 0 0 0).wf = true := by decide
theorem test_wf_scatters : (Instr.vsca 3 .w 0 0 0).wf = false ∧ (Instr.vsca 4 .w 0 0 0).wf = true ∧ (Instr.vscaa 0 .w 0 0 0).wf = false ∧ (Instr.vscaa 7 .w 0 0 0).wf = true := by decide
theorem test_wf_ecall : (Instr.ecall 1023).wf = false ∧ (Instr.ecall 1022).wf = true := by decide

/-- A computation succeeds, with an answer and a state that meet p. -/
def okWith {α : Type} (x : M α) (s : State) (p : α → State → Bool) : Bool :=
  match x s with
  | .ok a t => p a t
  | .error _ _ => false

theorem exists_of_okWith {α : Type} {x : M α} {s : State} {p : α → State → Bool} (h : okWith x s p = true) :
    ∃ a t, x s = .ok a t ∧ p a t = true := by
  unfold okWith at h
  cases hx : x s with
  | ok a t => rw [hx] at h; exact ⟨a, t, rfl, h⟩
  | error e t => rw [hx] at h; simp at h

/-- A state has an issuing hart that meets p. -/
def hartWith (s : State) (p : Hart → Bool) : Bool :=
  match s.hart with
  | some h => p h
  | none => false

theorem exists_of_hartWith {s : State} {p : Hart → Bool} (h : hartWith s p = true) : ∃ g, s.hart = some g ∧ p g = true := by
  unfold hartWith at h
  cases hx : s.hart with
  | some a => rw [hx] at h; exact ⟨a, rfl, h⟩
  | none => rw [hx] at h; simp at h

/-- The checks of a vector form pass, and p holds of what they leave. -/
def opensWith (s : State) (admits : Fmt → Bool) (r : Named) (srcs : List Nat) (p : State → Hart → Bool) : Bool :=
  decide (s.curStream = .x) && hartWith s fun h0 => h0.live && decide (r.allV.length ≤ vectorSlots h0.vt) &&
    decide (r.allP.length ≤ predicateSlots h0.vt) && admits h0.fmt && srcs.all (fun v => decide (h0.tagOf v = some h0.fmt)) &&
    okWith (swapIn r) s fun _ t => hartWith t fun h => decide (t.curStream = .x) && p t h

theorem opensFor_of {s : State} {admits : Fmt → Bool} {r : Named} {srcs : List Nat} {p : State → Hart → Bool}
    (h : opensWith s admits r srcs p = true) : ∃ s1 g, s.opensFor admits r srcs s1 g ∧ p s1 g = true := by
  simp only [opensWith, Bool.and_eq_true, decide_eq_true_eq] at h
  obtain ⟨hx, hh⟩ := h
  obtain ⟨h0, e0, hp⟩ := exists_of_hartWith hh
  simp only [Bool.and_eq_true, decide_eq_true_eq, List.all_eq_true] at hp
  obtain ⟨⟨⟨⟨⟨a, b⟩, c⟩, d⟩, e⟩, f⟩ := hp
  obtain ⟨_, t, e1, f1⟩ := exists_of_okWith f
  obtain ⟨g, e2, f2⟩ := exists_of_hartWith f1
  simp only [Bool.and_eq_true, decide_eq_true_eq] at f2
  exact ⟨t, g, ⟨hx, h0, e0, a, b, c, d, e, e1, e2, f2.1⟩, f2.2⟩

/-- The same for an unguarded form whose vector sources all carry the format. -/
def plainWith (s : State) (admits : Fmt → Bool) (r : Named) (p : State → Hart → Bool) : Bool := opensWith s admits r r.vs p

theorem opensPlain_of {s : State} {admits : Fmt → Bool} {r : Named} {p : State → Hart → Bool}
    (h : plainWith s admits r p = true) : ∃ s1 g, s.opensPlain admits r s1 g ∧ p s1 g = true := opensFor_of h

/-- The same for a guarded form. -/
def guardedWith (s : State) (admits : Fmt → Bool) (r : Named) (p : State → Hart → Bool) : Bool :=
  hartWith s fun h0 => plainWith s admits (r.guarded h0) p

theorem opens_of {s : State} {admits : Fmt → Bool} {r : Named} {p : State → Hart → Bool}
    (h : guardedWith s admits r p = true) : ∃ s1 g, s.opens admits r s1 g ∧ p s1 g = true := by
  obtain ⟨h0, e0, hp⟩ := exists_of_hartWith h
  obtain ⟨s1, g, o, hp⟩ := opensPlain_of hp
  exact ⟨s1, g, ⟨h0, e0, o⟩, hp⟩

/-- The device of log 2 with a hart, whose execute or access stream is issuing a word. -/
def onX (h : Hart) : State := { State.reset.loaded h 0 with curWord := 0x104 }
/-- See `onX`. -/
def onA (h : Hart) : State := { onX h with curStream := .a }

/-- The hart of log 2, with plain generators. -/
def plainHart : Hart := { testHart with gen := Vector.replicate 256 1 }

/-- A hart with live vector state in a format, every vector register holding the same bits. -/
def vecHart (f : Fmt) (vl : Nat) (bits : Nat) : Hart :=
  { plainHart with vt := vtOf f .d8 false false, vl := BitVec.ofNat 17 vl, v := Vector.replicate 64 { bits := bits, tag := some f } }

/-- A hart whose scalar registers all hold a value. -/
def regHart (v : Nat) : Hart := { plainHart with xs := Vector.replicate 32 (BitVec.ofNat 64 v), as := Vector.replicate 32 (BitVec.ofNat 64 v) }

/-- How a test on a computation gives what it answers. -/
theorem okE {α : Type} {x : M α} {s : State} {P : α → State → Prop} (p : α → State → Bool) (hp : ∀ a t, p a t = true → P a t)
    (h : okWith x s p = true) : ∃ a t, x s = .ok a t ∧ P a t := by
  obtain ⟨a, t, e, q⟩ := exists_of_okWith h
  exact ⟨a, t, e, hp a t q⟩

/-- How a test on the issuing hart gives the hart. -/
theorem hartE {s : State} {P : Hart → Prop} (p : Hart → Bool) (hp : ∀ h, p h = true → P h) (h : hartWith s p = true) :
    ∃ g, s.hart = some g ∧ P g := by
  obtain ⟨g, e, q⟩ := exists_of_hartWith h
  exact ⟨g, e, hp g q⟩

/-- How a conjunction of tests gives its parts. -/
theorem andE {A B : Prop} [Decidable A] (b : Bool) (hb : b = true → B) (h : (decide A && b) = true) : A ∧ B := by
  simp only [Bool.and_eq_true, decide_eq_true_eq] at h
  exact ⟨h.1, hb h.2⟩

/-- How the tests of a vector form give its checks: with named sources, unguarded, and guarded. -/
theorem forE {s : State} {admits : Fmt → Bool} {r : Named} {srcs : List Nat} {P : State → Hart → Prop} (p : State → Hart → Bool)
    (hp : ∀ t g, p t g = true → P t g) (h : opensWith s admits r srcs p = true) : ∃ s1 g, s.opensFor admits r srcs s1 g ∧ P s1 g := by
  obtain ⟨t, g, e, q⟩ := opensFor_of h
  exact ⟨t, g, e, hp t g q⟩

theorem plainE {s : State} {admits : Fmt → Bool} {r : Named} {P : State → Hart → Prop} (p : State → Hart → Bool)
    (hp : ∀ t g, p t g = true → P t g) (h : plainWith s admits r p = true) : ∃ s1 g, s.opensPlain admits r s1 g ∧ P s1 g := by
  obtain ⟨t, g, e, q⟩ := opensPlain_of h
  exact ⟨t, g, e, hp t g q⟩

theorem opensE {s : State} {admits : Fmt → Bool} {r : Named} {P : State → Hart → Prop} (p : State → Hart → Bool)
    (hp : ∀ t g, p t g = true → P t g) (h : guardedWith s admits r p = true) : ∃ s1 g, s.opens admits r s1 g ∧ P s1 g := by
  obtain ⟨t, g, e, q⟩ := opens_of h
  exact ⟨t, g, e, hp t g q⟩

/-- The last test. -/
theorem last {A : Prop} [Decidable A] (h : decide A = true) : A := of_decide_eq_true h

/-- Two harts are the same, field by field. -/
def same (h g : Hart) : Bool :=
  h.slot == g.slot && h.asid == g.asid && h.kernel == g.kernel && h.xs.toList == g.xs.toList && h.as.toList == g.as.toList &&
    h.xpc == g.xpc && h.apc == g.apc && h.arun == g.arun && h.priv == g.priv && h.win == g.win && h.vl == g.vl && h.vt == g.vt &&
    h.md == g.md && h.v.toList == g.v.toList && h.p.toList == g.p.toList && h.k.toList == g.k.toList && h.d.toList == g.d.toList &&
    h.b.toList == g.b.toList && h.vq.toList == g.vq.toList && h.q4 == g.q4 && h.q5 == g.q5 && h.q6 == g.q6 && h.q7 == g.q7 &&
    h.sp.toList == g.sp.toList && h.resumeA == g.resumeA && h.resumeX == g.resumeX && h.grant == g.grant && h.req == g.req &&
    h.gcoord == g.gcoord && h.agc == g.agc && h.rfc == g.rfc && h.nanpc == g.nanpc && h.nanv == g.nanv && h.nanelem == g.nanelem &&
    h.nanSeq == g.nanSeq && h.nanArm == g.nanArm && h.rseed == g.rseed && h.gen.toList == g.gen.toList && h.ecause == g.ecause &&
    h.epc == g.epc && h.etval == g.etval && h.estream == g.estream && h.estatus == g.estatus && h.thandler == g.thandler &&
    h.tstack == g.tstack && h.ewin == g.ewin && h.vres == g.vres && h.vdirty == g.vdirty && h.vorder == g.vorder && h.pres == g.pres &&
    h.pdirty == g.pdirty && h.porder == g.porder && h.vslot.toList == g.vslot.toList && h.pslot.toList == g.pslot.toList &&
    h.vplace.toList == g.vplace.toList && h.openA == g.openA &&
    h.strip == g.strip && h.tagCtr == g.tagCtr && h.deadline == g.deadline && h.triggered == g.triggered && h.pend == g.pend &&
    h.sync == g.sync && h.arrival == g.arrival && h.splitDone == g.splitDone && h.syncDone == g.syncDone &&
    h.groups.toList == g.groups.toList && h.transfers == g.transfers && h.records == g.records && h.waitA == g.waitA &&
    h.waitX == g.waitX && h.deadCount == g.deadCount && h.refA == g.refA && h.refX == g.refX && h.stopped == g.stopped &&
    h.coop == g.coop && h.halted == g.halted && h.retake == g.retake && h.entered == g.entered && h.banks == g.banks &&
    h.firstWait == g.firstWait && h.wordX == g.wordX && h.waitCap == g.waitCap && h.acked == g.acked && h.image == g.image

theorem eq_of_same {h g : Hart} (e : same h g = true) : h = g := by
  cases h
  cases g
  simp only [same, Bool.and_eq_true, beq_iff_eq, Vector.toList_inj] at e
  simp_all

/-- How a test on the issuing hart gives which it is. -/
theorem isE {s : State} {h : Hart} {B : Prop} (b : Bool) (hb : b = true → B) (e : (hartWith s (same · h) && b) = true) :
    s.hart = some h ∧ B := by
  simp only [Bool.and_eq_true] at e
  obtain ⟨g, eg, q⟩ := exists_of_hartWith e.1
  rw [eg, eq_of_same q]
  exact ⟨rfl, hb e.2⟩

theorem isL {s : State} {h : Hart} (e : hartWith s (same · h) = true) : s.hart = some h := by
  obtain ⟨g, eg, q⟩ := exists_of_hartWith e
  rw [eg, eq_of_same q]

/-- Bytes placed in the local store of core 0: offset, length, value. -/
def place (l : List (Nat × Nat × Nat)) (s : State) : State := { s with ls := l.foldl (fun m x => Memory.writeLE m x.1 x.2.2 x.2.1) s.ls }

/-- A hart with scalar registers set in both files. -/
def setRegs (l : List (Nat × Nat)) (h : Hart) : Hart :=
  l.foldl (fun h x => { h with xs := vput h.xs x.1 (BitVec.ofNat 64 x.2), as := vput h.as x.1 (BitVec.ofNat 64 x.2) }) h

/-- An address in the local-store window. -/
def lsAt (off : Nat) : Nat := windowBase + off

/-- A computation traps. -/
def trapWith {α : Type} (x : M α) (s : State) : Bool :=
  match x s with
  | .error (.trap ..) _ => true
  | _ => false

theorem trapL {α : Type} {x : M α} {s : State} (h : trapWith x s = true) : ∃ c v b k t, x s = .error (.trap c v b k) t := by
  unfold trapWith at h
  cases hx : x s with
  | ok a t => rw [hx] at h; simp at h
  | error e t =>
    rw [hx] at h
    cases e with
    | trap c v b k => exact ⟨c, v, b, k, t, rfl⟩
    | wait w k => simp at h
    | noHart => simp at h

/-- A test on every member of a list. -/
theorem allE {α : Type} {l : List α} {Q : α → Prop} {B : Prop} (p : α → Bool) (hp : ∀ x, p x = true → Q x) (b : Bool) (hb : b = true → B)
    (h : (l.all p && b) = true) : (∀ x ∈ l, Q x) ∧ B := by
  simp only [Bool.and_eq_true, List.all_eq_true] at h
  exact ⟨fun x hx => hp x (h.1 x hx), hb h.2⟩

/-- A test for the place of an access in the local store. -/
def placed (s : State) (h : Hart) (va : Word64) (n off : Nat) : Bool :=
  decide ((s.actor h s.curStream).window = some (0, 0, 2 ^ 20)) && inWindow va && decide (va.toNat - windowBase + n ≤ 2 ^ 20) &&
    decide (off = va.toNat - windowBase)

theorem placed_place {s : State} {h : Hart} {va : Word64} {n off : Nat} (e : placed s h va n off = true) : s.localPlace h va n 0 off := by
  simp only [placed, Bool.and_eq_true, decide_eq_true_eq] at e
  obtain ⟨⟨⟨a, b⟩, c⟩, d⟩ := e
  exact ⟨0, 2 ^ 20, a, b, c, by omega⟩

/-- How a test on a computation that answers an option gives what it answers. -/
def someWith {α : Type} (x : M (Option α)) (s : State) (p : α → State → Bool) : Bool :=
  match x s with
  | .ok (some a) t => p a t
  | _ => false

theorem someE {α : Type} {x : M (Option α)} {s : State} {P : α → State → Prop} (p : α → State → Bool) (hp : ∀ a t, p a t = true → P a t)
    (h : someWith x s p = true) : ∃ a t, x s = .ok (some a) t ∧ P a t := by
  unfold someWith at h
  cases hx : x s with
  | ok a t =>
    rw [hx] at h
    cases a with
    | some a => exact ⟨a, t, rfl, hp a t h⟩
    | none => simp at h
  | error e t => rw [hx] at h; simp at h

/-- Bytes placed in memory: address, length, value. -/
def poke (l : List (Nat × Nat × Nat)) (s : State) : State := { s with mem := l.foldl (fun m x => Memory.writeLE m x.1 x.2.2 x.2.1) s.mem }

/-- A page control block at 0x40000 with a record for the test's frame, of a count, and one entry in each ring of die 0. -/
def paged (count : Nat) (s : State) : State :=
  { poke [(0x40000, 8, 0x50000), (0x40008, 8, 0x58000), (0x40010, 8, 16), (0x40018, 8, 1), (0x40020, 8, 2 * 2 ^ 32 + 1),
          (0x40080, 8, 0x70000), (0x40088, 8, 4), (0x40098, 8, 1), (0x70000, 8, 0x80000),
          (0x40100, 8, 0x70100), (0x40108, 8, 4), (0x40118, 8, 1), (0x70100, 8, 2 ^ 48), (0x40180, 8, 0x70200), (0x40188, 8, 4),
          (0x50020, 16, count + 0x1C000 * 2 ^ 64), (0x50080, 16, 0)] s with pcb := some 0x40000 }

/-- The test's page with an overlay record at 0x60000, with the first line in it or empty. -/
def overlaid (full : Bool) (s : State) : State :=
  poke [(0x1C000, 16, testLeaf 0x20000 + 0x800 + 0x60000 * 2 ^ 64), (0x60000, 64, if full then 1 + 0x61000 * 2 ^ 256 + 2 ^ 320 + 2 ^ 328 else 0)] s

/-- A test on an option. -/
def optWith {α : Type} (x : Option α) (p : α → Bool) : Bool :=
  match x with
  | some a => p a
  | none => false

theorem optE {α : Type} {x : Option α} {P : α → Prop} (p : α → Bool) (hp : ∀ a, p a = true → P a) (h : optWith x p = true) : ∃ a, x = some a ∧ P a := by
  cases x with
  | some a => exact ⟨a, rfl, hp a h⟩
  | none => cases h

/-- A hart at a slot is a given one. -/
def atSlot (s : State) (slot : Nat) (h : Hart) : Bool := optWith (SMap.get? s.harts slot) (same · h)

theorem atL {s : State} {slot : Nat} {h : Hart} (e : atSlot s slot h = true) : SMap.get? s.harts slot = some h := by
  obtain ⟨g, eg, q⟩ := optE (P := fun g => same g h = true) _ (fun _ q => q) e
  rw [eg, eq_of_same q]

/-- How a test on a walk gives the leaf it reaches. -/
def leafWith (x : M WalkRes) (s : State) (p : Leaf → State → Bool) : Bool :=
  match x s with
  | .ok (.leaf l) t => p l t
  | _ => false

theorem leafE {x : M WalkRes} {s : State} {P : Leaf → State → Prop} (p : Leaf → State → Bool) (hp : ∀ l t, p l t = true → P l t)
    (h : leafWith x s p = true) : ∃ l t, x s = .ok (.leaf l) t ∧ P l t := by
  unfold leafWith at h
  cases hx : x s with
  | ok a t =>
    rw [hx] at h
    cases a with
    | leaf l => exact ⟨l, t, rfl, hp l t h⟩
    | _ => simp at h
  | error e t => rw [hx] at h; simp at h

/-- ScalarArithmeticResults, JumpsLinkAndGo, BranchesFollowTheirComparison, CallsAndBadWordsTrap: an issuing hart. -/
theorem witness_a_hart_issues : ∃ s h, State.hart s = some h := ⟨onX plainHart, plainHart, rfl⟩

/-- ImmediateAndBitFieldResults: a field that reaches the top bit. -/
theorem witness_a_bit_field : ∃ (s : State) (h : Hart) (pos wm1 : Fin 64), s.hart = some h ∧ pos.val + wm1.val < 64 :=
  ⟨onX plainHart, plainHart, 40, 23, rfl, by decide⟩

/-- StreamCoupling: a token, at the last free place and with none free, with the access stream running and idle; and the two
cases of `ctake`. -/
theorem witness_StreamCoupling :
    (∃ s h, State.hart s = some h ∧ s.curStream = .x ∧ h.q6.length = 3) ∧
    (∃ s h, State.hart s = some h ∧ s.curStream = .x ∧ h.q6.length = 4 ∧ h.arun = true) ∧
    (∃ s h, State.hart s = some h ∧ s.curStream = .x ∧ h.q6.length = 4 ∧ h.arun = false) ∧
    (∃ s h, State.hart s = some h ∧ s.curStream = .a ∧ h.q6 = []) ∧
    (∃ s h t rest, State.hart s = some h ∧ s.curStream = .a ∧ h.q6 = t :: rest) :=
  let t : Token := { target := 0, value := 0 }
  ⟨⟨onX { plainHart with q6 := [t, t, t] }, _, rfl, rfl, rfl⟩, ⟨onX { plainHart with q6 := [t, t, t, t] }, _, rfl, rfl, rfl, rfl⟩,
   ⟨onX { plainHart with q6 := [t, t, t, t], arun := false }, _, rfl, rfl, rfl, rfl⟩, ⟨onA plainHart, _, rfl, rfl, rfl⟩,
   ⟨onA { plainHart with q6 := [t] }, _, t, [], rfl, rfl, rfl⟩⟩

/-- QueueForms: a push with a place free and with none, a pop of a ready head and of one that is not. -/
theorem witness_QueueForms_scalar :
    (∃ (s : State) (h : Hart) (q : QNo) (r : Fin 64), s.hart = some h ∧ 4 ≤ q.val ∧ q.val ≠ 6 ∧ r.val < 32 ∧ s.curStream = .x ∧ q.val = 7 ∧
      (h.squeue q).length = 15) ∧
    (∃ (s : State) (h : Hart) (q : QNo) (r : Fin 64), s.hart = some h ∧ 4 ≤ q.val ∧ q.val ≠ 6 ∧ r.val < 32 ∧ s.curStream = .a ∧ q.val = 4 ∧
      (h.squeue q).length = 16) ∧
    (∃ (s : State) (h : Hart) (q : QNo) (v : Word64) (rest : List SPlace), s.hart = some h ∧ s.curStream = .a ∧ q.val = 7 ∧ h.squeue q = .ready v :: rest) ∧
    (∃ (s : State) (h : Hart) (q : QNo), s.hart = some h ∧ s.curStream = .x ∧ q.val = 5 ∧ ∀ v rest, h.squeue q ≠ .ready v :: rest) :=
  ⟨⟨onX { plainHart with q7 := List.replicate 15 (.ready 0) }, _, 7, 31, rfl, by decide, by decide, by decide, rfl, rfl, rfl⟩,
   ⟨onA { plainHart with q4 := List.replicate 16 (.ready 0) }, _, 4, 31, rfl, by decide, by decide, by decide, rfl, rfl, rfl⟩,
   ⟨onA { plainHart with q7 := [.ready 9] }, _, 7, 9, [], rfl, rfl, rfl, rfl⟩,
   ⟨onX { plainHart with q5 := [.reserved 9] }, _, 5, rfl, rfl, rfl, by intro v rest h; exact absurd h (by simp [Hart.squeue])⟩⟩

/-- QueueForms: a ready entry at the head of a vector queue. -/
theorem witness_QueueForms_vector : ∃ s s1 h, State.opensPlain s anyFmt { vw := [1] } s1 h ∧
    h.vq.getD 3 [] = [.ready { esize := 4, elems := [7, 8] }] ∧ 2 ≤ h.vlmax ∧ 8 * 4 = Fmt.ew h.fmt :=
  ⟨onX { vecHart .i32 4 0 with vq := (Vector.replicate 4 []).set 3 [.ready { esize := 4, elems := [7, 8] }] },
   plainE _ (fun _ _ => last) (by decide +kernel)⟩

/-- IntegerVectorArithmetic: each of its three shapes, with the destination among the sources. -/
theorem witness_IntegerVectorArithmetic :
    (∃ s s1 h, State.opens s numFmt { vs := [1, 2], vw := [1] } s1 h ∧ Fmt.isInt h.fmt = true) ∧
    (∃ s s1 h, State.opens s numFmt { vs := [1, 2, 3], vw := [3] } s1 h ∧ Fmt.isInt h.fmt = true) ∧
    (∃ s s1 h, State.opens s numFmt { vs := [1], vw := [1] } s1 h ∧ Fmt.isInt h.fmt = true) :=
  ⟨⟨onX (vecHart .i32 4 5), opensE _ (fun _ _ => last) (by decide +kernel)⟩, ⟨onX (vecHart .n64 4 5), opensE _ (fun _ _ => last) (by decide +kernel)⟩,
   ⟨onX (vecHart .i8 4 5), opensE _ (fun _ _ => last) (by decide +kernel)⟩⟩

/-- FloatingVectorArithmetic, FloatingImmediateForms: their shapes. -/
theorem witness_FloatingVectorArithmetic :
    (∃ s s1 h, State.opens s numFmt { vs := [1, 2], vw := [1] } s1 h ∧ Fmt.isFloat h.fmt = true) ∧
    (∃ s s1 h, State.opens s numFmt { vs := [1, 2, 3], vw := [3] } s1 h ∧ Fmt.isFloat h.fmt = true) ∧
    (∃ s s1 h, State.opens s Fmt.isFloat { vs := [1], vw := [1] } s1 h ∧ Fmt.isFloat h.fmt = true) ∧
    (∃ s s1 h, State.opens s numFmt { vs := [1], vw := [1] } s1 h ∧ Fmt.isFloat h.fmt = true) :=
  ⟨⟨onX (vecHart .fp32 4 5), opensE _ (fun _ _ => last) (by decide +kernel)⟩, ⟨onX (vecHart .bf16 4 5), opensE _ (fun _ _ => last) (by decide +kernel)⟩,
   ⟨onX (vecHart .fp16 4 5), opensE _ (fun _ _ => last) (by decide +kernel)⟩, ⟨onX (vecHart .e4m3 4 5), opensE _ (fun _ _ => last) (by decide +kernel)⟩⟩

/-- VectorLogicAndShifts: every format, `b4` among them, and the integer ones. -/
theorem witness_VectorLogicAndShifts :
    (∃ s s1 h, State.opens s anyFmt { vs := [1, 2], vw := [1] } s1 h ∧ h.fmt = .b4) ∧
    (∃ s s1 h, State.opens s anyFmt { vs := [1], vw := [1] } s1 h ∧ h.fmt = .fp32) ∧
    (∃ s s1 h, State.opens s Fmt.isInt { vs := [1, 2], vw := [1] } s1 h ∧ h.fmt = .n8) ∧
    (∃ s s1 h, State.opens s Fmt.isInt { vs := [1], vw := [1] } s1 h ∧ h.fmt = .i16) :=
  ⟨⟨onX (vecHart .b4 4 5), opensE _ (fun _ _ => last) (by decide +kernel)⟩, ⟨onX (vecHart .fp32 4 5), opensE _ (fun _ _ => last) (by decide +kernel)⟩,
   ⟨onX (vecHart .n8 4 5), opensE _ (fun _ _ => last) (by decide +kernel)⟩, ⟨onX (vecHart .i16 4 5), opensE _ (fun _ _ => last) (by decide +kernel)⟩⟩

/-- VectorComparisons: two registers, an immediate in an integer and in a floating format, a selection and a conflict. -/
theorem witness_VectorComparisons :
    (∃ s s1 h, State.opens s numFmt { vs := [1, 2], pw := [3] } s1 h ∧ h.fmt = .fp32) ∧
    (∃ s s1 h, State.opens s numFmt { vs := [1], pw := [3] } s1 h ∧ Fmt.isInt h.fmt = true) ∧
    (∃ s s1 h, State.opens s numFmt { vs := [1], pw := [3] } s1 h ∧ Fmt.isFloat h.fmt = true) ∧
    (∃ s s1 h, State.opens s anyFmt { vs := [1, 2], vw := [3] } s1 h ∧ h.fmt = .b4) ∧
    (∃ s s1 h, State.opens s Fmt.isInt { vs := [1], pw := [3] } s1 h ∧ h.vl = 4) :=
  ⟨⟨onX (vecHart .fp32 4 5), opensE _ (fun _ _ => last) (by decide +kernel)⟩, ⟨onX (vecHart .i32 4 5), opensE _ (fun _ _ => last) (by decide +kernel)⟩,
   ⟨onX (vecHart .fp32 4 5), opensE _ (fun _ _ => last) (by decide +kernel)⟩, ⟨onX (vecHart .b4 4 5), opensE _ (fun _ _ => last) (by decide +kernel)⟩,
   ⟨onX (vecHart .i32 4 5), opensE _ (fun _ _ => last) (by decide +kernel)⟩⟩

/-- VectorMoves: a move from a register of another format, and the splats, element forms and `vtag`. -/
theorem witness_VectorMoves :
    (∃ s h0, State.hart s = some h0 ∧ ∃ s1 h, State.opensFor s anyFmt (({ vs := [1], vw := [2] } : Named).guarded h0) [] s1 h ∧ h.vl ≠ 0) ∧
    (∃ s s1 h, State.opens s anyFmt { vw := [1] } s1 h ∧ Fmt.isInt h.fmt = true) ∧
    (∃ s s1 h, State.opens s anyFmt { vw := [1] } s1 h ∧ h.fmt = .b4) ∧
    (∃ s s1 h, State.opens s anyFmt { vw := [1] } s1 h ∧ Fmt.isFloat h.fmt = true) ∧
    (∃ s s1 h, State.opens s numFmt { vw := [1] } s1 h ∧ Fmt.isInt h.fmt = true) ∧
    (∃ s s1 h, State.opens s numFmt { vw := [1] } s1 h ∧ Fmt.isFloat h.fmt = true) ∧
    (∃ s s1 h, State.opensPlain s anyFmt { vs := [1] } s1 h ∧ 1 ≤ h.vlmax) ∧
    (∃ s s1 h, State.opensPlain s anyFmt { vs := [1], vw := [1] } s1 h ∧ (h.sreg .x 3).toNat < h.vlmax) ∧
    (∃ s s1 h, State.opensPlain s anyFmt { vs := [1], vw := [1] } s1 h ∧ h.vlmax ≤ (h.sreg .x 3).toNat) ∧
    (∃ s s1 h, State.opensPlain s anyFmt { vw := [1] } s1 h ∧ h.fmt = .b4) :=
  ⟨⟨onX { vecHart .fp32 4 5 with v := Vector.replicate 64 { bits := 0, tag := none } }, hartE _ (fun _ => forE _ (fun _ _ => last)) (by decide +kernel)⟩,
   ⟨onX (vecHart .i32 4 5), opensE _ (fun _ _ => last) (by decide +kernel)⟩, ⟨onX (vecHart .b4 4 5), opensE _ (fun _ _ => last) (by decide +kernel)⟩,
   ⟨onX (vecHart .fp32 4 5), opensE _ (fun _ _ => last) (by decide +kernel)⟩, ⟨onX (vecHart .i32 4 5), opensE _ (fun _ _ => last) (by decide +kernel)⟩,
   ⟨onX (vecHart .fp32 4 5), opensE _ (fun _ _ => last) (by decide +kernel)⟩, ⟨onX (vecHart .i32 4 5), plainE _ (fun _ _ => last) (by decide +kernel)⟩,
   ⟨onX (vecHart .i32 4 5), plainE _ (fun _ _ => last) (by decide +kernel)⟩,
   ⟨onX { vecHart .i32 4 5 with xs := Vector.replicate 32 65536 }, plainE _ (fun _ _ => last) (by decide +kernel)⟩,
   ⟨onX (vecHart .b4 4 5), plainE _ (fun _ _ => last) (by decide +kernel)⟩⟩

/-- SlidesAndPermutes: a slide, a permute by an integer register of the width, and a compress. -/
theorem witness_SlidesAndPermutes :
    (∃ s s1 h, State.opens s anyFmt { vs := [1], vw := [2] } s1 h ∧ h.fmt = .b4) ∧
    (∃ s h0, State.hart s = some h0 ∧ (h0.tagOf 3 = some .i32 ∧ Fmt.ew .i32 = Fmt.ew h0.fmt) ∧
      ∃ s1 h, State.opensFor s numFmt (({ vs := [1, 3], vw := [2] } : Named).guarded h0) [1] s1 h ∧ h.fmt = .fp32) ∧
    (∃ s s1 h, State.opens s anyFmt { vs := [1], vw := [2], ps := [3] } s1 h ∧ h.vl = 4) :=
  ⟨⟨onX (vecHart .b4 4 5), opensE _ (fun _ _ => last) (by decide +kernel)⟩,
   ⟨onX { vecHart .fp32 4 5 with v := (Vector.replicate 64 { bits := 5, tag := some .fp32 }).set 3 { bits := 1, tag := some .i32 } },
     hartE _ (fun _ => andE _ (forE _ (fun _ _ => last))) (by decide +kernel)⟩,
   ⟨onX (vecHart .i32 4 5), opensE _ (fun _ _ => last) (by decide +kernel)⟩⟩

/-- IntegerReductions: a greatest and a least element, and no active element, under a guard of zeros. -/
theorem witness_IntegerReductions :
    (∃ s s1 h, State.opens s numFmt { vs := [1], vw := [2] } s1 h ∧ Fmt.isInt h.fmt = true ∧ h.active = [0, 1] ∧
      h.intAt 1 0 = -1 ∧ h.intAt 1 1 = 7) ∧
    (∃ s s1 h, State.opens s numFmt { vs := [1], vw := [2] } s1 h ∧ Fmt.isInt h.fmt = true ∧ h.active = []) ∧
    (∃ s s1 h, State.opens s numFmt { vs := [1] } s1 h ∧ Fmt.isInt h.fmt = true ∧ h.active = [0, 1]) :=
  ⟨⟨onX (vecHart .i32 2 0x7FFFFFFFF), opensE _ (fun _ _ => last) (by decide +kernel)⟩,
   ⟨onX { vecHart .i32 2 0x7FFFFFFFF with md := 0x40 }, opensE _ (fun _ _ => last) (by decide +kernel)⟩,
   ⟨onX (vecHart .i32 2 0x7FFFFFFFF), opensE _ (fun _ _ => last) (by decide +kernel)⟩⟩

/-- FloatingResultsAreExactAndRoundedOnce: a tie past the fraction of `fp32`, an overflow and the top of its grid, and of e4m3; a result known to
within one unit; the patterns past the largest finite one; operands that are not zero, one below zero, one that is a whole number, and one that is
a power of two; and NaNs in each place. -/
theorem witness_FloatingResultsAreExactAndRoundedOnce :
    (∃ (m k : Nat) (e : Int) (v : ℚ), m ≠ 0 ∧ v = m * (2 : ℚ) ^ e ∧ magVal .fp32 k ≤ v ∧ v < magVal .fp32 (k + 1) ∧ 2 * v = magVal .fp32 k + magVal .fp32 (k + 1)) ∧
    (∃ (m k : Nat) (e : Int) (v : ℚ), m ≠ 0 ∧ v = m * (2 : ℚ) ^ e ∧ magVal .e4m3 k ≤ v ∧ v < magVal .e4m3 (k + 1) ∧ largestMag .e4m3 < k) ∧
    (∃ (m k : Nat) (e : Int) (v : ℚ), 2 ^ (Fmt.fracBits .e5m2 + 28) ≤ m ∧ m * (2 : ℚ) ^ e < v ∧ v < (m + 1) * (2 : ℚ) ^ e ∧ magVal .e5m2 k ≤ v ∧ v < magVal .e5m2 (k + 1)) ∧
    (largestMag .e4m3 < 0x7F ∧ 0x7F < 2 ^ (Fmt.ew .e4m3 - 1)) ∧
    (largestMag .fp32 < 0x7F800001 ∧ 0x7F800001 < 2 ^ (Fmt.ew .fp32 - 1) ∧ 0x7F800001 ≠ largestMag .fp32 + 1) ∧
    Fp.rat (.fin true 3 0) = (-3 : Int) ∧ |(-3 : Int)| < 2 ^ 16 ∧ Fp.rat (.fin false 4 (-1)) = (2 : ℚ) ^ (1 : Int) ∧ 4 < 2 ^ 24 ∧
    (∃ a b : Fp, (∀ n f, a ≠ .nan n f) ∧ b = .nan true 5) := by
  refine ⟨⟨16777217, 0x4B800000, 0, 16777217, by decide, by norm_num, ?_, ?_, ?_⟩, ⟨480, 0x7F, 0, 480, by decide, by norm_num, ?_, ?_, by decide⟩,
    ⟨2 ^ 30, 0x3C, -30, 1 + 2 ^ (-31 : Int), ?_, ?_, ?_, ?_, ?_⟩, by decide, by decide, ?_, by decide, ?_, by decide,
    ⟨.fin false 1 0, .nan true 5, (by intro n f h; cases h), rfl⟩⟩ <;> norm_num [magVal, Fmt.fracBits, Fmt.expBits, Fp.rat]

/-- FloatingReductions: sums over no, one and three elements; no active element; a NaN among the elements, first and last; and a greatest and a
least one. -/
theorem witness_FloatingReductions :
    (∃ s s1 h, State.opens s numFmt { vs := [1], vw := [2] } s1 h ∧ Fmt.isFloat h.fmt = true ∧ h.vl = 0) ∧
    (∃ s s1 h, State.opens s numFmt { vs := [1], vw := [2] } s1 h ∧ Fmt.isFloat h.fmt = true ∧ h.vl.toNat ≤ 2 ^ 0 ∧ h.vl ≠ 0) ∧
    (∃ s s1 h, State.opens s numFmt { vs := [1], vw := [2] } s1 h ∧ Fmt.isFloat h.fmt = true ∧ mdRm h.md = .sr ∧ h.vl.toNat ≤ 2 ^ 2 ∧ 2 ^ 1 < h.vl.toNat) ∧
    (∃ s s1 h, State.opens s numFmt { vs := [1], vw := [2] } s1 h ∧ Fmt.isFloat h.fmt = true ∧ h.active = []) ∧
    (∃ s s1 h, State.opens s numFmt { vs := [1], vw := [2] } s1 h ∧ Fmt.isFloat h.fmt = true ∧ h.active = [0, 1] ∧
      isNan h.fmt (h.bitsAt 1 0) = false ∧ isNan h.fmt (h.bitsAt 1 1) = true) ∧
    (∃ s s1 h, State.opens s numFmt { vs := [1], vw := [2] } s1 h ∧ Fmt.isFloat h.fmt = true ∧ h.active = [0, 1] ∧
      fpBelow (h.input h.fmt (h.bitsAt 1 0)) (h.input h.fmt (h.bitsAt 1 1)) = true ∧ isNan h.fmt (h.bitsAt 1 0) = false ∧ isNan h.fmt (h.bitsAt 1 1) = false) ∧
    (∃ s s1 h, State.opens s numFmt { vs := [1] } s1 h ∧ Fmt.isFloat h.fmt = true ∧ h.active = []) ∧
    (∃ s s1 h, State.opens s numFmt { vs := [1] } s1 h ∧ Fmt.isFloat h.fmt = true ∧ h.active = [0, 1] ∧ isNan h.fmt (h.bitsAt 1 1) = true) :=
  ⟨⟨onX (vecHart .fp32 0 5), opensE _ (fun _ _ => last) (by decide +kernel)⟩, ⟨onX (vecHart .fp32 1 5), opensE _ (fun _ _ => last) (by decide +kernel)⟩,
   ⟨onX { vecHart .bf16 3 5 with md := 0x200 }, opensE _ (fun _ _ => last) (by decide +kernel)⟩,
   ⟨onX { vecHart .fp16 3 5 with md := 0x40 }, opensE _ (fun _ _ => last) (by decide +kernel)⟩,
   ⟨onX (vecHart .fp32 2 0x7FC000003F800000), opensE _ (fun _ _ => last) (by decide +kernel)⟩,
   ⟨onX (vecHart .fp32 2 0x400000003F800000), opensE _ (fun _ _ => last) (by decide +kernel)⟩,
   ⟨onX { vecHart .e5m2 3 5 with md := 0x40 }, opensE _ (fun _ _ => last) (by decide +kernel)⟩,
   ⟨onX (vecHart .fp32 2 0x7FC000003F800000), opensE _ (fun _ _ => last) (by decide +kernel)⟩⟩

/-- PredicateAndScaleForms: its shapes, with the first set bit at the last body element and with none. -/
theorem witness_PredicateAndScaleForms :
    (∃ s s1 h, State.opensPlain s anyFmt { ps := [1, 2], pw := [3] } s1 h ∧ h.vl = 4) ∧
    (∃ s s1 h, State.opensPlain s anyFmt { ps := [1], pw := [3] } s1 h ∧ h.vl = 4) ∧
    (∃ s s1 h, State.opensPlain s anyFmt { ps := [1] } s1 h ∧ h.vl = 4 ∧ h.pbits 1 = 8) ∧
    (∃ s s1 h, State.opensPlain s anyFmt { ps := [1] } s1 h ∧ h.vl = 4 ∧ h.pbits 1 = 0) ∧
    (∃ s s1 h, State.opensPlain s anyFmt { pw := [3] } s1 h ∧ 1 ≤ h.vlmax) ∧
    (∃ s s1 h, State.opensFor s anyFmt { vs := [1] } [] s1 h ∧ h.fmt = .fp32) ∧
    (∃ s s1 h, State.opensPlain s anyFmt { vw := [1] } s1 h ∧ h.vl = 17) :=
  ⟨⟨onX (vecHart .i32 4 5), plainE _ (fun _ _ => last) (by decide +kernel)⟩, ⟨onX (vecHart .i32 4 5), plainE _ (fun _ _ => last) (by decide +kernel)⟩,
   ⟨onX { vecHart .i32 4 5 with p := Vector.replicate 64 8 }, plainE _ (fun _ _ => last) (by decide +kernel)⟩,
   ⟨onX (vecHart .i32 4 5), plainE _ (fun _ _ => last) (by decide +kernel)⟩, ⟨onX (vecHart .i32 4 5), plainE _ (fun _ _ => last) (by decide +kernel)⟩,
   ⟨onX (vecHart .fp32 4 5), forE _ (fun _ _ => last) (by decide +kernel)⟩, ⟨onX (vecHart .b4 17 5), plainE _ (fun _ _ => last) (by decide +kernel)⟩⟩

/-- No transfer, so nothing conflicts. -/
theorem free_of_none {s : State} {h : Hart} (e : h.transfers = []) (q : s.held = []) (o : h.openA = none) (va : Word64) (n : Nat) (w : Bool) :
    s.free h va n w :=
  ⟨(by rw [e]; intro t ht; cases ht), (by simp [State.heldOn, q]), by simp [Hart.opened, o]⟩

/-- A transfer that reads or writes every line. -/
def wide : Transfer :=
  { id := 1, kind := 5, tag := 0, stream := .a, user := true, both := false, ranges := [{ lo := 0, hi := 2 ^ 56, write := true }], pages := [], work := .kvc 0 0 0 }

theorem not_free_of_wide {s : State} {h : Hart} (e : h.transfers = [wide]) {va : Word64} {n : Nat} {w : Bool}
    (c : wide.conflicts (va.toNat / 256) ((va.toNat + n - 1) / 256) w = true) : ¬s.free h va n w := by
  intro f
  have := f.1 wide (by rw [e]; simp)
  rw [c] at this
  cases this

/-- A live hart with no lane group, and beside it one that holds all sixteen. -/
def crowded (h : Hart) : State := { onX h with harts := [(0, h), (1, { plainHart with slot := 1 })] }

/-- TypeLengthAndMode, in the live state: the groups held are kept. -/
theorem witness_TypeLengthAndMode_kept :
    ∃ s, State.curStream s = .x ∧ ∃ h, s.hart = some h ∧ h.live = true ∧ ∃ a s1, adjustBoth (vtOf .fp32 .d8 false false) s = .ok a s1 ∧ s1.curStream = .x ∧
      ∃ h1, s1.hart = some h1 ∧ (h1.live = true ∧ 1 ≤ h1.grant) ∧
      ∃ b t, replace (vtOf .fp32 .d8 false false) h (s1.putHart (h1.relength (vtOf .fp32 .d8 false false) h1.grant)) = .ok b t ∧
      ∃ g, t.hart = some g ∧ t.curStream = .x :=
  ⟨onX (vecHart .fp32 4 0), rfl, hartE _ (fun _ => andE _ (okE _ fun _ _ => andE _ (hartE _ fun _ => andE _ (okE _ fun _ _ => hartE _ fun _ => last))))
    (by decide +kernel)⟩

/-- The same: some groups are granted. -/
theorem witness_TypeLengthAndMode_granted :
    ∃ s, State.curStream s = .x ∧ ∃ h, s.hart = some h ∧ h.live = true ∧ ∃ a s1, adjustBoth (vtOf .fp32 .d8 false false) s = .ok a s1 ∧ s1.curStream = .x ∧
      ∃ h1, s1.hart = some h1 ∧ (h1.live = true ∧ s1.decideGrant h1 4 (h1.waitCap.getD (s1.grantCap h1)) ≠ 0) ∧
      ∃ b t, replace (vtOf .fp32 .d8 false false) h (s1.putHart (({ h1 with req := 4, waitCap := none } : Hart).relength (vtOf .fp32 .d8 false false)
        (s1.decideGrant h1 4 (h1.waitCap.getD (s1.grantCap h1))))) = .ok b t ∧ ∃ g, t.hart = some g ∧ t.curStream = .x :=
  ⟨onX (vecHart .fp32 4 0), rfl, hartE _ (fun _ => andE _ (okE _ fun _ _ => andE _ (hartE _ fun _ => andE _ (okE _ fun _ _ => hartE _ fun _ => last))))
    (by decide +kernel)⟩

/-- The same: none are free, first asked for and asked for again with the cap of the first time. -/
theorem witness_TypeLengthAndMode_waits : ∀ c ∈ [none, some 3],
    ∃ s, State.curStream s = .x ∧ ∃ h, s.hart = some h ∧ h.live = true ∧ ∃ a s1, adjustBoth (vtOf .fp32 .d8 false false) s = .ok a s1 ∧ s1.curStream = .x ∧
      ∃ h1, s1.hart = some h1 ∧ (h1.live = true ∧ ¬(0 = 0 ∧ 1 ≤ h1.grant)) ∧ s1.decideGrant h1 1 (h1.waitCap.getD (s1.grantCap h1)) = 0 ∧ h1.waitCap = c := by
  have w (x : Option Nat) (b : hartWith (crowded { vecHart .fp32 4 0 with grant := 0, req := 0, waitCap := x }) (fun h => decide (h.live = true) &&
      okWith (adjustBoth (vtOf .fp32 .d8 false false)) (crowded { vecHart .fp32 4 0 with grant := 0, req := 0, waitCap := x }) fun _ s1 =>
        decide (s1.curStream = .x) && hartWith s1 fun h1 => decide (h1.live = true ∧ ¬(0 = 0 ∧ 1 ≤ h1.grant)) &&
          decide (s1.decideGrant h1 1 (h1.waitCap.getD (s1.grantCap h1)) = 0 ∧ h1.waitCap = x)) = true) :=
    hartE _ (fun _ => andE _ (okE _ fun _ _ => andE _ (hartE _ fun _ => andE _ last))) b
  intro c hc
  have hc : c = none ∨ c = some 3 := by simpa using hc
  rcases hc with rfl | rfl
  · exact ⟨_, rfl, w none (by decide +kernel)⟩
  · exact ⟨_, rfl, w (some 3) (by decide +kernel)⟩

/-- TypeLengthAndMode, in the dead state, where `mode` and `vrelease` have theirs as well. -/
theorem witness_TypeLengthAndMode_dead :
    (∃ s, State.curStream s = .x ∧ ∃ h, s.hart = some h ∧ (h.live = false ∧ 1 ≤ h.grant) ∧
      ∃ a s2, evictBoth (vtOf .fp32 .d8 false false) (s.putHart ((h.vectorsCleared .fp32).relength (vtOf .fp32 .d8 false false) h.grant)) = .ok a s2 ∧
      ∃ b t, replace (vtOf .fp32 .d8 false false) h s2 = .ok b t ∧ ∃ g, t.hart = some g ∧ t.curStream = .x) ∧
    (∃ s, State.curStream s = .x ∧ ∃ h, s.hart = some h ∧ (h.live = false ∧ ¬(4 = 0 ∧ 1 ≤ h.grant) ∧ s.decideGrant h 4 (h.waitCap.getD (s.grantCap h)) = 4) ∧
      ∃ a s2, evictBoth (vtOf .fp32 .d8 false false)
        (s.putHart ((({ h with req := 4, waitCap := none } : Hart).vectorsCleared .fp32).relength (vtOf .fp32 .d8 false false) 4)) = .ok a s2 ∧
      ∃ b t, replace (vtOf .fp32 .d8 false false) h s2 = .ok b t ∧ ∃ g, t.hart = some g ∧ t.curStream = .x) ∧
    (∃ s, State.curStream s = .x ∧ ∃ h, s.hart = some h ∧ h.live = false ∧ ¬(0 = 0 ∧ 1 ≤ h.grant) ∧ s.decideGrant h 1 (h.waitCap.getD (s.grantCap h)) = 0) :=
  ⟨⟨onX plainHart, rfl, hartE _ (fun _ => andE _ (okE _ fun _ _ => okE _ fun _ _ => hartE _ fun _ => last)) (by decide +kernel)⟩,
   ⟨onX { plainHart with grant := 0, req := 0 }, rfl, hartE _ (fun _ => andE _ (okE _ fun _ _ => okE _ fun _ _ => hartE _ fun _ => last)) (by decide +kernel)⟩,
   ⟨crowded { plainHart with grant := 0, req := 0 }, rfl, hartE _ (fun _ => last) (by decide +kernel)⟩⟩

/-- Nothing in flight and nothing held disturbs no access. -/
theorem quiet_of {s : State} {h : Hart} (p : s.pending = []) (w : s.held = []) : s.undisturbed h :=
  ⟨(by rw [p]; intro q hq; cases hq), (by rw [w]; intro q hq; cases hq)⟩

/-- One scalar store of hart 0's stream in flight, which comes before nothing of others, disturbs none of its own. -/
theorem quiet_of_due {s : State} {h : Hart} {q : PendingStore} (p : s.pending = [q]) (d : q.due = none) (w : s.held = []) : s.undisturbed h := by
  refine ⟨?_, (by rw [w]; intro q hq; cases hq)⟩
  rw [p]
  intro x hx sc hs
  rw [List.mem_singleton.1 hx, d] at hs
  cases hs

/-- A hart whose scalar registers all hold the first address of the local-store window. -/
def lsHart : Hart := regHart windowBase
/-- The same at the top of its last doubleword, and one byte further. -/
def topHart : Hart := regHart (2 ^ 56 - 8)

/-- The place of an access in the local store of the test's device. -/
theorem place_of {h : Hart} {s : State} {va : Word64} {n : Nat} (w : (s.actor h s.curStream).window = some (0, 0, 2 ^ 20)) (i : inWindow va = true)
    (l : va.toNat - windowBase + n ≤ 2 ^ 20) : s.localPlace h va n 0 (va.toNat - windowBase) := ⟨0, 2 ^ 20, w, i, l, by omega⟩

/-- ScalarLoadsComplete: an aligned load, a misaligned one, and one that conflicts with a transfer. -/
theorem witness_ScalarLoadsComplete :
    ((onX topHart).hart = some topHart ∧ (Instr.ldMd 5 4 0 false, 8, false, topHart.addrMd .x 4 0) ∈ loadForms topHart .x 5 4 6 0 false ∧
      (topHart.addrMd .x 4 0).toNat % 8 = 0 ∧ (onX topHart).free topHart (topHart.addrMd .x 4 0) 8 false ∧
      ∃ v s1, ((onX topHart).actor topHart .x).load .plain (topHart.addrMd .x 4 0) 8 (some false) (onX topHart) = .ok v s1 ∧ s1.curSlot = 0) ∧
    ((Instr.lhMd 5 4 1 false, 2, true, topHart.addrMd .x 4 1) ∈ loadForms topHart .x 5 4 6 1 false ∧ (topHart.addrMd .x 4 1).toNat % 2 ≠ 0) ∧
    ((onX { topHart with transfers := [wide] }).hart = some { topHart with transfers := [wide] } ∧ (topHart.addrMd .x 4 0).toNat % 8 = 0 ∧
      ¬(onX { topHart with transfers := [wide] }).free { topHart with transfers := [wide] } (topHart.addrMd .x 4 0) 8 false) :=
  ⟨⟨rfl, by simp [loadForms], by decide, free_of_none rfl rfl rfl _ _ _, okE _ (fun _ _ => last) (by decide +kernel)⟩, ⟨by simp [loadForms], by decide⟩,
   ⟨rfl, by decide, not_free_of_wide rfl (by decide +kernel)⟩⟩

/-- A device whose kernel has 4096 bytes of local store. -/
def small (s : State) : State :=
  { s with kernels := [(1, { asid := 1, kid := 1, dmask := 1, slots := [0], cores := [(0, 0)], lsb := 4096, planes := 0, prio := 0, cpl := 0, ended := 0
                             hadPred := false, fab := false, reports := [], born := 1 })] }

/-- A store of hart 0 in flight. -/
def inFlight (l : Loc) (n v : Nat) : PendingStore :=
  { slot := 0, stream := .x, strip := 0, scalar := true, bytes := storeBytes l n v (2 ^ (8 * n) - 1), op := 0, drops := true, due := none, via := [], key := 0
    asid := 1 }

/-- LoadsGiveTheBytes: at the last doubleword of the local store; at 2^56; past the allocation; in memory; and behind a store of the stream. -/
theorem witness_LoadsGiveTheBytes :
    (let s := onX topHart
     let va := topHart.addrMd .x 4 0
     s.hart = some topHart ∧ va.toNat % 8 = 0 ∧ s.free topHart va 8 false ∧ s.localPlace topHart va 8 0 (va.toNat - windowBase) ∧
       s.lsPoisoned 0 (va.toNat - windowBase) 8 = false ∧ s.inSpill (s.actor topHart .x) va 8 = false ∧ s.undisturbed topHart ∧
       ∀ p ∈ s.pending, p.of topHart.slot s.curStream = true → p.touches (.ls 0 (va.toNat - windowBase)) 8 = false) ∧
    (let h := regHart (2 ^ 56)
     (onX h).hart = some h ∧ (h.addrMd .x 4 0).toNat % 8 = 0 ∧ 2 ^ 56 ≤ (h.addrMd .x 4 0).toNat) ∧
    (let h := regHart (windowBase + 4096)
     (small (onX h)).hart = some h ∧ inWindow (h.addrMd .x 4 0) = true ∧ ∀ core off, ¬(small (onX h)).localPlace h (h.addrMd .x 4 0) 8 core off) ∧
    (let h := regHart testVa
     (onX h).hart = some h ∧ (h.addrMd .x 4 0).toNat % 8 = 0 ∧ (onX h).free h (h.addrMd .x 4 0) 8 false ∧
       ∃ p s1, ((onX h).actor h .x).place .load (h.addrMd .x 4 0) 8 (some false) false (onX h) = .ok p s1 ∧ p.loc = .pa 0x20000 ∧ p.garbled = false ∧
         s1.poisoned 0x20000 8 = false ∧ s1.inSpill ((onX h).actor h .x) (h.addrMd .x 4 0) 8 = false ∧
         (sectorsOf 0x20000 8).all (s1.sectorReadable p.key) = true ∧ s1.pending = []) ∧
    (let q := inFlight (.ls 0 (2 ^ 20 - 8)) 8 7
     let s : State := { onX topHart with pending := [q] }
     let va := topHart.addrMd .x 4 0
     s.hart = some topHart ∧ va.toNat % 8 = 0 ∧ s.free topHart va 8 false ∧ s.localPlace topHart va 8 0 (2 ^ 20 - 8) ∧ s.lsPoison = [] ∧
       s.inSpill (s.actor topHart .x) va 8 = false ∧ s.held = [] ∧ s.pending = [q] ∧ q.slot = topHart.slot ∧ q.stream = s.curStream ∧ q.scalar = true ∧
       q.due = none ∧ q.via = [] ∧ q.bytes = storeBytes (.ls 0 (2 ^ 20 - 8)) 8 7 (2 ^ 64 - 1)) := by
  refine ⟨⟨rfl, by decide, free_of_none rfl rfl rfl _ _ _, place_of rfl (by decide) (by decide), by decide +kernel, by decide +kernel, quiet_of rfl rfl,
      by intro p hp; cases hp⟩,
    ⟨rfl, by decide, by decide⟩, ⟨rfl, by decide, ?_⟩,
    ⟨rfl, by decide, free_of_none rfl rfl rfl _ _ _, okE _ (fun _ _ => last) (by decide +kernel)⟩,
    ⟨rfl, by decide, free_of_none rfl rfl rfl _ _ _, ⟨0, 2 ^ 20, rfl, by decide, by decide, by decide⟩, rfl, by decide +kernel, rfl, rfl, rfl, rfl, rfl, rfl, rfl, rfl⟩⟩
  rintro core off ⟨base, size, hw, -, hle, -⟩
  have e : size = 4096 := by
    have : (0, 0, 4096) = (core, base, size) := Option.some.inj hw
    simpa using (congrArg (fun x => x.2.2) this).symm
  subst e
  revert hle
  decide

/-- Whether an entry can be read and holds some bits. -/
def entryAt (s : State) (a e : Nat) : Bool :=
  decide (a < hbmEnd) && !s.poisoned a 16 && (sectorsOf a 16).all (s.sectorReadable 0) && decide (s.mem.readLE a 16 = e)

theorem hwRead_of {s : State} {a n : Nat} (r : (sectorsOf a n).all (s.sectorReadable 0) = true) : hwRead a n s = .ok (s.mem.readLE a n) s := by
  simp only [hwRead, readPA, run_bind, run_get, r, if_true]
  rfl

theorem hwReads {s : State} {a n v : Nat} (h : ((sectorsOf a n).all (s.sectorReadable 0) && decide (s.mem.readLE a n = v)) = true) : hwRead a n s = .ok v s := by
  simp only [Bool.and_eq_true, decide_eq_true_eq] at h
  exact h.2 ▸ hwRead_of h.1

theorem entry_of {s : State} {a e : Nat} (h : entryAt s a e = true) : s.entry a e := by
  simp only [entryAt, Bool.and_eq_true, decide_eq_true_eq, Bool.not_eq_true'] at h
  obtain ⟨⟨⟨x, y⟩, z⟩, w⟩ := h
  exact ⟨x, y, w ▸ hwRead_of z⟩

/-- The first and the last step of a walk reach an entry of the table there for the address of the test's page, which hart h names. -/
def Reaches (s : State) (h : Hart) (k table e : Nat) : Prop :=
  let va := h.addrMd s.curStream 5 0
  s.hart = some h ∧ s.undisturbed h ∧ s.held = [] ∧ (∃ c, SMap.get? s.contexts h.asid = some c ∧ s.tableAt c.root va.toNat k table) ∧ va.toNat % 8 = 0 ∧
    va.toNat < windowBase ∧ s.free h va 8 false ∧ s.free h va 8 true ∧ k < 4 ∧ s.entry (table + va.toNat / 2 ^ (46 - 10 * k) % 2 ^ 10 * 16) e

/-- A test for the last step. -/
def reachB (s : State) (h : Hart) (e : Nat) : Bool :=
  decide (s.pending = [] ∧ s.held = [] ∧ h.transfers = [] ∧ h.openA = none ∧ h.asid = 1 ∧ h.addrMd s.curStream 5 0 = BitVec.ofNat 64 testVa) && hartWith s (same · h) &&
    optWith (SMap.get? s.contexts 1) (fun c => decide (c.root = 0x10000)) && entryAt s 0x10000 0x14001 && entryAt s 0x14040 0x18001 &&
    entryAt s 0x18000 0x1C001 && entryAt s 0x1C000 e

theorem reach_of {s : State} {h : Hart} {e : Nat} (b : reachB s h e = true) : Reaches s h 3 0x1C000 e := by
  simp only [reachB, Bool.and_eq_true, decide_eq_true_eq] at b
  obtain ⟨⟨⟨⟨⟨⟨⟨p, w, t, o, a, v⟩, x⟩, r⟩, e0⟩, e1⟩, e2⟩, e3⟩ := b
  obtain ⟨c, ec, hr⟩ := optE (P := fun c : Context => c.root = 0x10000) _ (fun _ => last) r
  refine ⟨isL x, quiet_of p w, w, ⟨c, a ▸ ec, 0x18000, 0x1C001, ⟨0x14000, 0x18001, ⟨0x10000, 0x14001, hr.symm, ?_, ?_⟩, ?_, ?_⟩, ?_, ?_⟩, ?_, ?_,
    free_of_none t w o _ _ _, free_of_none t w o _ _ _, by decide, ?_⟩ <;> try rw [v]
  · exact entry_of e0
  · decide
  · exact entry_of e1
  · decide
  · exact entry_of e2
  · decide
  · decide
  · decide
  · exact entry_of e3

/-- A hart that names the test's page, whose leaf holds some bits. -/
def leafState (e : Nat) : State := poke [(0x1C000, 16, e)] (onX (regHart testVa))

/-- The same, with a frame record for its frame. -/
def recordState (e r : Nat) : State := poke [(0x1C000, 16, e), (0x50020, 16, r)] (paged 0 (onX (regHart testVa)))

/-- TranslationFollowsTheTables, in turn: an entry that is poisoned, one that is not valid, a table and a leaf where none may be; a reserved field; a
frame at the end of HBM, and one that moves without a page control block; a record that is not sound; a port and a peer that are not reached; a
missing permission, a cleared key slot, a compressed page, an inconsistent overlay, C-promote, a store and a load that wait for a move; poison, and
none; and a leaf without A. -/
theorem witness_TranslationFollowsTheTables :
    let h := regHart testVa
    let leaf := testLeaf 0x20000
    (Reaches (leafState 0) h 3 0x1C000 0 ∧ ({ leafState 0 with poison := [0x1C000 / 32] } : State).poisoned 0x1C000 16 = true) ∧
    Reaches (leafState 1) h 3 0x1C000 1 ∧ Reaches (poke [(0x10000, 16, 3)] (onX h)) h 0 0x10000 3 ∧
    Reaches (leafState (leaf + 2 ^ 127)) h 3 0x1C000 (leaf + 2 ^ 127) ∧
    Reaches (leafState (testLeaf hbmEnd)) h 3 0x1C000 (testLeaf hbmEnd) ∧ Reaches (leafState (leaf + 3 * 2 ^ 13)) h 3 0x1C000 (leaf + 3 * 2 ^ 13) ∧
    (let s := recordState leaf (2 ^ 48)
     Reaches s h 3 0x1C000 leaf ∧ s.pcb = some 0x40000 ∧ hwRead 0x40000 8 s = .ok 0x50000 s ∧ hwRead 0x50020 16 s = .ok (2 ^ 48) s) ∧
    (let s := leafState (testLeaf (2 ^ 48) + 2 * 2 ^ 13)
     Reaches s h 3 0x1C000 (testLeaf (2 ^ 48) + 2 * 2 ^ 13) ∧ s.pcb = none ∧ s.keyOf 0 ≠ none ∧ s.cxl.getD 0 .untrained ≠ .up ∧ s.level = .s2) ∧
    (let s := leafState (testLeaf (2 ^ 51))
     Reaches s h 3 0x1C000 (testLeaf (2 ^ 51)) ∧ s.keyOf 0 ≠ none ∧ s.level = .s2 ∧ ∀ x, s.fabric[0]? = some x → x.valid = false) ∧
    (let s : State := { leafState (testLeaf (2 ^ 51)) with fabric := [{ id := 0, ports := 1, valid := true, key := 0 }] }
     Reaches s h 3 0x1C000 (testLeaf (2 ^ 51)) ∧ s.keyOf 0 ≠ none ∧ ∃ x, s.fabric[0]? = some x ∧ x.valid = true ∧ s.level = .s2 ∧ s.peerReached x = false) ∧
    (Reaches (leafState (leaf - 2 ^ 9)) h 3 0x1C000 (leaf - 2 ^ 9) ∧ (leaf - 2 ^ 9).testBit 9 = false ∧ h.priv = .u) ∧
    (let s : State := { leafState leaf with keys := [] }
     s.hart = some h ∧ s.keyOf 0 = none) ∧
    Reaches (leafState (leaf + 2 ^ 12)) h 3 0x1C000 (leaf + 2 ^ 12) ∧
    (let s := poke [(0x60000, 64, 1)] (leafState (leaf + 2 ^ 11 + 0x60000 * 2 ^ 64))
     Reaches s h 3 0x1C000 (leaf + 2 ^ 11 + 0x60000 * 2 ^ 64) ∧ ∃ o u, readOverlay 0x60000 s = .ok o u ∧ o.consistent = false) ∧
    Reaches (leafState (leaf + 2 * 2 ^ 13)) h 3 0x1C000 (leaf + 2 * 2 ^ 13) ∧
    (let s := recordState (leaf + 3 * 2 ^ 13) (2 ^ 51)
     Reaches s h 3 0x1C000 (leaf + 3 * 2 ^ 13) ∧ hwRead 0x40000 8 s = .ok 0x50000 s ∧ hwRead 0x50020 16 s = .ok (2 ^ 51) s ∧ s.moves = []) ∧
    (let s : State := { leafState leaf with poison := [0x20000 / 32] }
     Reaches s h 3 0x1C000 leaf ∧ s.poisoned 0x20000 8 = true) ∧
    (let s := leafState leaf
     Reaches s h 3 0x1C000 leaf ∧ s.pcb = none ∧ s.keyOf 0 ≠ none ∧ s.pending = [] ∧ s.spoils (0x1C000 + testVa / 2 ^ 16 % 2 ^ 10 * 16) 0x20000 = false ∧ s.poisoned 0x20000 8 = false ∧ s.inSpill (s.actor h .x) (h.addrMd .x 5 0) 8 = false ∧
       (sectorsOf 0x20000 8).all (s.sectorReadable 0) = true) ∧
    (let s := leafState (leaf - 2 ^ 10)
     Reaches s h 3 0x1C000 (leaf - 2 ^ 10) ∧ (leaf - 2 ^ 10).testBit 10 = false ∧ (sectorsOf (0x1C000 + 1) 1).all (s.sectorReadable 0) = true) := by
  refine ⟨⟨reach_of ?_, ?_⟩, reach_of ?_, ⟨rfl, quiet_of rfl rfl, rfl, ⟨_, rfl, rfl⟩, by decide, by decide, free_of_none rfl rfl rfl _ _ _, free_of_none rfl rfl rfl _ _ _, by decide,
      entry_of ?_⟩, reach_of ?_, reach_of ?_, reach_of ?_, ⟨reach_of ?_, rfl, hwReads ?_, hwReads ?_⟩, ⟨reach_of ?_, rfl, ?_, ?_, rfl⟩,
    ⟨reach_of ?_, ?_, rfl, (by intro x hx; cases hx)⟩, ⟨reach_of ?_, ?_, _, rfl, rfl, rfl, ?_⟩, ⟨reach_of ?_, ?_, rfl⟩, ⟨rfl, rfl⟩, reach_of ?_,
    ⟨reach_of ?_, okE _ (fun _ _ => last) ?_⟩, reach_of ?_, ⟨reach_of ?_, hwReads ?_, hwReads ?_, rfl⟩, ⟨reach_of ?_, ?_⟩,
    ⟨reach_of ?_, rfl, ?_, rfl, rfl, ?_, ?_, ?_⟩, ⟨reach_of ?_, ?_, ?_⟩⟩ <;> decide +kernel

/-- ScalarStoresComplete: a store to the local store, a misaligned one, one that conflicts, and one at 2^56. -/
theorem witness_ScalarStoresComplete :
    (let s := onX topHart
     let va := topHart.addrMd .x 4 0
     s.hart = some topHart ∧ (Instr.sdMd 5 4 0, 8, va) ∈ storeForms topHart .x 5 4 6 0 ∧ va.toNat % 8 = 0 ∧ s.free topHart va 8 true ∧
       s.localPlace topHart va 8 0 (va.toNat - windowBase) ∧
       ∃ a s1, (s.actor topHart .x).store va 8 (topHart.sreg .x 5).toNat (2 ^ (8 * 8) - 1) s = .ok a s1 ∧ s1.pending.length = 1) ∧
    ((Instr.swMd 5 4 1, 4, topHart.addrMd .x 4 1) ∈ storeForms topHart .x 5 4 6 1 ∧ (topHart.addrMd .x 4 1).toNat % 4 ≠ 0) ∧
    (let h : Hart := { topHart with transfers := [{ wide with ranges := [{ lo := 0, hi := 2 ^ 56, write := false }], pages := [2 ^ 40 - 1] }] }
     (onX h).hart = some h ∧ (h.addrMd .x 4 0).toNat % 8 = 0 ∧ ¬(onX h).free h (h.addrMd .x 4 0) 8 true) ∧
    (let h := regHart (2 ^ 56)
     (onX h).hart = some h ∧ (h.addrMd .x 4 0).toNat % 8 = 0 ∧ (onX h).free h (h.addrMd .x 4 0) 8 true ∧ 2 ^ 56 ≤ (h.addrMd .x 4 0).toNat) := by
  refine ⟨⟨rfl, by simp [storeForms], by decide, free_of_none rfl rfl rfl _ _ _, place_of rfl (by decide) (by decide), okE _ (fun _ _ => last) (by decide +kernel)⟩,
    ⟨by simp [storeForms], by decide⟩, ⟨rfl, by decide, fun f => ?_⟩, ⟨rfl, by decide, free_of_none rfl rfl rfl _ _ _, by decide⟩⟩
  have := f.1 _ (List.mem_singleton.2 rfl)
  revert this
  decide +kernel

/-- StoresPerformAtTheirHome: the one store in flight, to the local store and to a whole sector of memory. -/
theorem witness_StoresPerformAtTheirHome :
    (let p := inFlight (.ls 0 8) 8 7
     let s : State := { onX plainHart with pending := [p] }
     s.curEv.yes = false ∧ s.pending[s.curEv.a]? = some p ∧ (∀ q ∈ s.pending.take s.curEv.a, q.before p = false) ∧
       (∀ q ∈ s.pending.eraseIdx s.curEv.a, q.throughStore p = false)) ∧
    (let p := inFlight (.pa 0x20000) 32 7
     let s : State := { onX plainHart with pending := [p] }
     s.curEv.yes = false ∧ s.pending[s.curEv.a]? = some p ∧ (∀ q ∈ s.pending.take s.curEv.a, q.before p = false) ∧
       (∀ q ∈ s.pending.eraseIdx s.curEv.a, q.throughStore p = false) ∧ ∀ x ∈ sectorsOf 0x20000 32, s.sectorReadable p.key x = true) :=
  ⟨⟨rfl, rfl, (by intro q h; cases h), by intro q h; cases h⟩, ⟨rfl, rfl, (by intro q h; cases h), (by intro q h; cases h), by decide +kernel⟩⟩

/-- PrefetchesChangeNoValue: a hart, and a fill awaited. -/
theorem witness_PrefetchesChangeNoValue : (onX plainHart).hart = some plainHart ∧
    ∃ s p, State.curEv s = {} ∧ s.curEv.a < 64 ∧ (s.core s.curEv.a).prefetches[s.curEv.b]? = some p :=
  ⟨rfl, State.modCore (onX plainHart) 0 (fun c => { c with prefetches := [{ sector := 0x1000, leaf := 0x1C000, key := 0, toL1 := true }] }), _, rfl, by decide, rfl⟩

/-- AtomicsExchange: a doubleword at the top of the local store; a misaligned one; one that S1 holds, and one that it does not; and one with a release,
after a store. -/
theorem witness_AtomicsExchange :
    (let s := onX topHart
     let va := topHart.sreg s.curStream 4
     s.hart = some topHart ∧ s.level = .s2 ∧ s.pending = [] ∧ s.held = [] ∧ va.toNat % 8 = 0 ∧ s.free topHart va 8 true ∧
       s.localPlace topHart va 8 0 (va.toNat - windowBase) ∧ s.lsPoisoned 0 (va.toNat - windowBase) 8 = false ∧ s.inSpill (s.actor topHart s.curStream) va 8 = false) ∧
    ((regHart (windowBase + 4)).sreg .x 4).toNat % 8 ≠ 0 ∧
    (let s : State := { onX topHart with level := .s1 }
     ∃ b s0, (s.actor topHart s.curStream).holdAtomic (topHart.sreg .x 4) 8 .add 1 0 { fab := true, regs := [.s 5] } s = .ok b s0 ∧ b = true) ∧
    (let s : State := { onX topHart with level := .s1 }
     ∃ b s0, (s.actor topHart s.curStream).holdAtomic (topHart.sreg .x 4) 8 .add 1 0 { regs := [.s 5] } s = .ok b s0 ∧ b = false) ∧
    (let s : State := { onX topHart with pending := [inFlight (.ls 0 8) 8 7] }
     ∃ b s0, (s.actor topHart s.curStream).holdAtomic (topHart.sreg .x 4) 8 .add 1 0 { fab := true, regs := [.s 5], releases := true } s = .ok b s0 ∧ b = false ∧
       ∃ a s1, settle s.curStream (wideScope .fab) s0 = .ok a s1 ∧ s1.pending = [] ∧
       ∃ old s2, (s.actor topHart s.curStream).atomic (topHart.sreg .x 4) 8 .add 1 0 s1 = .ok old s2 ∧ old = 0) ∧
    (let s : State := { onX topHart with level := .s1 }
     s.level ≠ .s2 ∧ ∃ a s1, (s.actor topHart .x).observe s = .ok a s1 ∧
       ∃ p s2, (s.actor topHart .x).find AmoOp.add.kind (topHart.sreg .x 4) 8 (some false) true s1 = .ok p s2 ∧ p.loc.isPeer = false) :=
  ⟨⟨rfl, rfl, rfl, rfl, by decide, free_of_none rfl rfl rfl _ _ _, place_of rfl (by decide) (by decide), by decide +kernel, by decide +kernel⟩, by decide,
   okE _ (fun _ _ => last) (by decide +kernel), okE _ (fun _ _ => last) (by decide +kernel),
   okE _ (fun _ _ => andE _ (okE _ fun _ _ => andE _ (okE _ fun _ _ => last))) (by decide +kernel),
   by decide, okE _ (fun _ _ => okE _ fun _ _ => last) (by decide +kernel)⟩

/-- A core with an mstream of hart 0 still to be carried out. -/
def streaming (s : State) : State :=
  s.modCore 0 fun c => { c with mat := { c.mat with queue := [.stream 0 0 0 { m := 1, n := 1, k := 1, grid := false, a := .e4m3, w := .e4m3, bl := 16 } [] none
    false 0 0 0] } }

/-- CsrReads, CsrWrites: reads and writes that pass, of the first-NaN record with and without a matrix stream outstanding, and of `md`
with a word that leaves a reserved code and with one that does not. -/
theorem witness_CsrReads_and_CsrWrites :
    (let s := onX plainHart
     s.hart = some plainHart ∧ csrCause .nanpc s.curStream plainHart.priv false = none ∧ nanSettled s .nanpc) ∧
    (let s := streaming (onX plainHart)
     s.hart = some plainHart ∧ csrCause .nanpc s.curStream plainHart.priv false = none ∧ ¬nanSettled s .nanpc) ∧
    (let s := onX plainHart
     s.hart = some plainHart ∧ csrCause .md s.curStream plainHart.priv true = none ∧ nanSettled s .md ∧ 5 ≤ (0x280 : Word64).toNat / 2 ^ 7 % 8 ∧
       (0 : Word64).toNat / 2 ^ 7 % 8 < 5) :=
  ⟨⟨rfl, rfl, fun _ => rfl⟩, ⟨rfl, rfl, fun f => absurd (f (Or.inl rfl)) (by decide +kernel)⟩,
   ⟨rfl, rfl, fun h => absurd h (by decide), by decide, by decide⟩⟩

/-- IssueChecksTrap: each cause of the checks of a CSR access, with the stream before the read-only check. -/
theorem witness_IssueChecksTrap_csr :
    (let s := onA plainHart
     s.hart = some plainHart ∧ csrCause .vl s.curStream plainHart.priv false = some 0x03 ∧ csrCause .vl s.curStream plainHart.priv true = some 0x03) ∧
    (let s := onX plainHart
     s.hart = some plainHart ∧ csrCause .epc s.curStream plainHart.priv false = some 0x04 ∧ csrCause .resume s.curStream plainHart.priv true = some 0x04 ∧
       csrCause .vl s.curStream plainHart.priv true = some 0x01) ∧
    (let h : Hart := { plainHart with priv := .s }
     (onX h).hart = some h ∧ csrCause .xresume (onX h).curStream h.priv false = some 0x03 ∧ csrCause .vl (onX h).curStream h.priv true = some 0x01) :=
  ⟨⟨rfl, rfl, rfl⟩, ⟨rfl, rfl, rfl, rfl⟩, ⟨rfl, rfl, rfl⟩⟩

/-- IssueChecksTrap: a form of the execute stream in the access stream, and one of the access stream in the execute stream; a conversion to a format four
times as wide from v60 and from v61; queues in each direction; U mode; and a dead vector state. -/
theorem witness_IssueChecksTrap :
    (let i : Instr := .vaddImm 10 8 (-3)
     i.wf = true ∧ encode i = some 0x07E90541 ∧ (onA plainHart).hart = some plainHart ∧ wordOwner 0x07E90541 = some .x ∧ (onA plainHart).curStream ≠ .x ∧
       (onX plainHart).hart = some plainHart ∧ (onX plainHart).curStream = .x ∧ plainHart.live = false ∧ 0x07E90541 % 2 ^ 7 = 0x41) ∧
    (let i : Instr := .cut 1 4 5
     i.wf = true ∧ encode i = some 0x000A40DC ∧ wordOwner 0x000A40DC = some .a ∧ (onX plainHart).curStream ≠ .a) ∧
    (let h : Hart := { plainHart with vt := vtOf .i8 .d8 false false, vl := 1 }
     (onA h).hart = some h ∧ h.live = true ∧ ((60 : VRegNo).val + max 1 (Fmt.ew .i32 / Fmt.ew h.fmt) ≤ 64) ∧ 64 < (61 : VRegNo).val + max 1 (Fmt.ew .i32 / Fmt.ew h.fmt)) ∧
    (∀ q ∈ ([0, 5, 7] : List QNo), q.val ≠ 6 ∧ (31 : Fin 64).val < 32) ∧ plainHart.priv = .u :=
  ⟨⟨rfl, by decide, rfl, by decide, by decide, rfl, rfl, by decide, by decide⟩, ⟨rfl, by decide, by decide, by decide⟩, ⟨rfl, by decide, by decide, by decide⟩, by decide, rfl⟩

/-- A hart with a trap stack in the test's page. -/
def trapHart : Hart := { plainHart with tstack := BitVec.ofNat 64 (testVa + 0x1000), thandler := BitVec.ofNat 64 testVa }

/-- TrapEntrySavesAndEnters: a frame that can be stored. -/
theorem witness_TrapEntrySavesAndEnters :
    let h := trapHart
    let s := onX h
    let saved := h.saveTrap .x 0x01 0x104 0
    s.hart = some h ∧ h.win = false ∧ ∃ a s1, joinHart h.slot s = .ok a s1 ∧ (s1.hart = some h ∧ s1.curStream = s.curStream) ∧
      ∃ b s2, storeFrame saved (s1.putHart saved) = .ok b s2 ∧ s2.hart = some saved :=
  ⟨rfl, rfl, (), _, rfl, ⟨rfl, rfl⟩, okE _ (fun _ _ => isL) (by decide +kernel)⟩

/-- DoubleFaultHalts: a hart in its entry window, whose context holds no fault. -/
theorem witness_DoubleFaultHalts : let h : Hart := { trapHart with win := true, priv := .s }
    (onX h).hart = some h ∧ h.win = true ∧ ∃ x, SMap.get? (onX h).contexts h.asid = some x ∧ x.fault = none := ⟨rfl, rfl, _, rfl, rfl⟩

/-- TrapReturnRestores: in U mode, and in S mode with a frame that can be read. -/
theorem witness_TrapReturnRestores : ((onA plainHart).hart = some plainHart ∧ plainHart.priv = .u) ∧
    (let h : Hart := { trapHart with priv := .s }
     (onA h).hart = some h ∧ (h.priv = .s ∧ h.win = false) ∧ ∃ a s1, joinHart h.slot (onA h) = .ok a s1 ∧ ∃ x s2, readFrame h s1 = .ok x s2 ∧ s2.hart = some h) :=
  ⟨⟨rfl, rfl⟩, rfl, ⟨rfl, rfl⟩, okE _ (fun _ _ => okE _ fun _ _ => isL) (by decide +kernel)⟩

/-- A load of hart 0 that S1 holds. -/
def heldLoad (st : StreamId) : Held :=
  { slot := 0, stream := st, regs := [.s 5], acquires := false, releases := false, loc := .peer 0 0, len := 8, after := [], work := .load }

theorem unblocked_of {s : State} {h : Hart} (t : h.transfers = []) (w : s.held = []) (l : s.arrivalHeld h s.curStream = false)
    (p : ∀ p ∈ s.pending, s.stays p = false) : s.unblocked h :=
  ⟨(by rw [t]; intro x hx; cases hx), (by rw [w]; intro x hx; cases hx), p, l⟩

/-- A device with one port to a peer, in whose replay buffer one flit more finds room, and two stores to that peer in flight. -/
def nearlyFull (s : State) : State :=
  { s with fabric := [{ id := 0, ports := 1, valid := true, key := 0 }], pending := [inFlight (.peer 0 8) 8 7, inFlight (.peer 0 16) 8 7]
           voltor := s.voltor.set 0 { Voltor.start with state := .up, replay := List.replicate 255 { seq := 0, bits := 0, store := none } } }

/-- YieldAndFence: with and without a deadline; with a transfer in flight; with work that S1 holds, and a store that it holds; with a store to
perform; and with two, of which one finds no room. -/
theorem witness_YieldAndFence : ((onX { plainHart with deadline := some 9 }).hart = some { plainHart with deadline := some 9 }) ∧
    (let h : Hart := { plainHart with transfers := [{ wide with both := true }] }
     (onX h).hart = some h ∧ ∃ t ∈ h.transfers, (t.stream = (onX h).curStream ∨ t.both = true) ∧ t.counted = true) ∧
    (let s : State := { onX plainHart with held := [heldLoad .x] }
     s.hart = some plainHart ∧ (∀ t ∈ plainHart.transfers, t.stream = s.curStream ∨ t.both = true → t.counted = false) ∧
       ∃ w ∈ s.held, w.of plainHart.slot s.curStream = true) ∧
    (let q := inFlight (.peer 0 8) 8 7
     let s : State := { onX plainHart with pending := [q], level := .s1 }
     s.hart = some plainHart ∧ ∃ p ∈ s.pending, p.of plainHart.slot s.curStream = true ∧ s.stays p = true) ∧
    (let s : State := { onX plainHart with pending := [inFlight (.ls 0 8) 8 7] }
     s.hart = some plainHart ∧ s.unblocked plainHart ∧
       ∃ a s1, drain (fun p => p.precedes plainHart.slot s.curStream) (s.orderCuts plainHart.slot s.curStream) = .ok a s1 ∧ s1.curStream = s.curStream ∧
       s1.hart = some plainHart ∧ s1.pending = []) ∧
    (let s := nearlyFull (onX plainHart)
     s.hart = some plainHart ∧ s.unblocked plainHart ∧
       ∃ a s1, drain (fun p => p.precedes plainHart.slot s.curStream) (s.orderCuts plainHart.slot s.curStream) = .ok a s1 ∧ s1.curStream = s.curStream ∧
       s1.hart = some plainHart ∧ s1.pending = [inFlight (.peer 0 16) 8 7]) :=
  ⟨rfl, ⟨rfl, _, List.mem_singleton.2 rfl, Or.inr rfl, rfl⟩, ⟨rfl, (by intro t h; cases h), _, List.mem_singleton.2 rfl, rfl⟩,
   ⟨rfl, _, List.mem_singleton.2 rfl, rfl, by decide +kernel⟩, ⟨rfl, unblocked_of rfl rfl rfl (by intro p hp; rw [List.mem_singleton.1 hp]; decide +kernel),
   okE _ (fun _ _ => andE _ (isE _ last)) (by decide +kernel)⟩, rfl, unblocked_of rfl rfl rfl (by decide +kernel),
   okE _ (fun _ _ => andE _ (isE _ last)) (by decide +kernel)⟩

/-! Single steps: the expected values are the spec's own examples, or are worked out by hand from the rule that is named. -/

/-- exec answers a next state whose hart 0 meets p. -/
def after (i : Instr) (s : State) (p : Hart → Bool) : Bool :=
  match exec i s with
  | .next t => optWith (SMap.get? t.harts 0) p
  | _ => false

/-- What two registers come to under a form, in the register 3 of the execute stream. -/
def gives (i : Instr) (a b v : Nat) : Bool := after i (onX (setRegs [(1, a), (2, b)] plainHart)) fun h => h.xs[3] == BitVec.ofNat 64 v

/-- R97, the example under it: a = −7, b = 2. -/
theorem test_division_example : gives (.div 3 1 2) (2 ^ 64 - 7) 2 (2 ^ 64 - 3) = true ∧ gives (.rem 3 1 2) (2 ^ 64 - 7) 2 (2 ^ 64 - 1) = true ∧
    gives (.divn 3 1 2) (2 ^ 64 - 7) 2 0x7FFFFFFFFFFFFFFC = true ∧ gives (.remn 3 1 2) (2 ^ 64 - 7) 2 1 = true := by decide +kernel
/-- R96: every result is taken mod 2^64; a shift ignores bits 63:6; `mulh` is signed. -/
theorem test_scalar_edges : gives (.add 3 1 2) (2 ^ 64 - 1) 2 1 = true ∧ gives (.sll 3 1 2) 5 64 5 = true ∧ gives (.mulh 3 1 2) (2 ^ 64 - 1) 2 (2 ^ 64 - 1) = true ∧
    gives (.slt 3 1 2) (2 ^ 63) 1 1 = true ∧ gives (.sltn 3 1 2) (2 ^ 63) 1 0 = true := by decide +kernel
/-- R60, the example under it: 3 groups, `fp32`, dc 16. -/
theorem test_vlmax_example : ({ vecHart .fp32 0 0 with vt := vtOf .fp32 .d16 false false, grant := 3 } : Hart).vlmax = 768 := by decide
/-- R138, R205: a byte of the local store is read with its sign, and without. -/
theorem test_load_sign : after (.lbMd 3 1 1 false) (place [(1, 1, 0x80)] (onX (setRegs [(1, lsAt 0)] plainHart))) (fun h => h.xs[3] == BitVec.ofNat 64 (2 ^ 64 - 128)) = true ∧
    after (.lbnMd 3 1 1 false) (place [(1, 1, 0x80)] (onX (setRegs [(1, lsAt 0)] plainHart))) (fun h => h.xs[3] == 0x80) = true := by decide +kernel
/-- R101: `jal` leaves the address after it and goes to its own address plus four times its operand. -/
theorem test_jal : after (.jal 3 (-2)) (onX plainHart) (fun h => h.xs[3] == BitVec.ofNat 64 (testVa + 4) && h.xpc == BitVec.ofNat 64 (testVa - 8)) = true := by decide +kernel
/-- R120: an `i32` sum wraps. -/
theorem test_vadd_wraps : after (.vadd 5 3 4) (onX (vecHart .i32 2 0x7FFFFFFF7FFFFFFF)) (fun h => h.v[5].bits == 0xFFFFFFFEFFFFFFFE && h.v[5].tag == some .i32) = true := by
  decide +kernel
/-- R80: 1.0 + 2^−24 is a tie that goes to the even 1.0 in RNE; here 1.0 + 1.0 = 2.0 with the same forms. -/
theorem test_vadd_fp32 : after (.vadd 5 3 4) (onX (vecHart .fp32 1 0x3F800000)) (fun h => h.v[5].bits == 0x40000000) = true ∧
    after (.vmul 5 3 4) (onX (vecHart .fp32 1 0xC0000000)) (fun h => h.v[5].bits == 0x40800000) = true := by decide +kernel
/-- R259: a trap stores s28 to s31 of the access stream and leaves the frame's address in s31; `ecall` gives its operand in etval. -/
theorem test_ecall : after (.ecall 7) (onX trapHart) (fun h => h.priv == .s && h.apc == BitVec.ofNat 64 testVa && h.epc == BitVec.ofNat 64 testVa &&
    h.as[31] == h.tstack - 64) = true := by decide +kernel

/-- A hart with live vector state, whose scalar registers hold the first address of the local-store window. -/
def vecLs (f : Fmt) (vl : Nat) : Hart := { vecHart f vl 5 with xs := Vector.replicate 32 (BitVec.ofNat 64 windowBase) }

/-- VectorLoadsComplete: `vl` = 0; a misaligned base; elements to take, and the last of them a nibble; a strided load. -/
theorem witness_VectorLoadsComplete :
    (∃ s s1 h, State.opens s (fun x => true || decide (x ≠ .b4)) { vw := [1] } s1 h ∧ h.vl = 0) ∧
    (∃ s s1 h, State.opens s (fun x => true || decide (x ≠ .b4)) { vw := [1] } s1 h ∧ h.vl ≠ 0 ∧ (h.addrMd .x 2 1).toNat % max 1 (Fmt.ew h.fmt / 8) ≠ 0) ∧
    (∃ s s1 h, State.opens s (fun x => true || decide (x ≠ .b4)) { vw := [1] } s1 h ∧ (h.vl = 3 ∧ h.fmt = .b4 ∧ h.toTake = [0, 1, 2] ∧ s1.curStop = none) ∧
      ∃ a s2, each h.toTake (fun i => loadElem false 1 i (BitVec.ofNat 64 ((h.addrMd .x 2 0).toNat + i / 2))) s1 = .ok a s2 ∧ s2.curStream = .x ∧
      ∃ g, s2.hart = some g ∧ g.fmt = .b4) ∧
    (∃ s s1 h, State.opens s (fun x => false || decide (x ≠ .b4)) { vw := [1] } s1 h ∧
      (h.vl = 2 ∧ (h.sreg .x 2).toNat % 4 = 0 ∧ (h.sreg .x 3).toNat % 4 = 0 ∧ h.toTake = [1] ∧ s1.curStop = none) ∧
      ∃ a s2, each h.toTake (fun i => loadElem true 1 i (BitVec.ofNat 64 ((h.sreg .x 2).toNat + i * (h.sreg .x 3).toNat))) s1 = .ok a s2 ∧ s2.curStream = .x ∧
      ∃ g, s2.hart = some g ∧ g.fmt = .i32) :=
  ⟨⟨onX (vecLs .i32 0), opensE _ (fun _ _ => last) (by decide +kernel)⟩, ⟨onX (vecLs .i32 4), opensE _ (fun _ _ => last) (by decide +kernel)⟩,
   ⟨onX (vecLs .b4 3), opensE _ (fun _ _ => andE _ (okE _ fun _ _ => andE _ (hartE _ fun _ => last))) (by decide +kernel)⟩,
   ⟨onX { setRegs [(3, 8)] (vecLs .i32 2) with resumeX := 1 },
    opensE _ (fun _ _ => andE _ (okE _ fun _ _ => andE _ (hartE _ fun _ => last))) (by decide +kernel)⟩⟩

/-- FaultFirstLoads: every element loads; and the third lies past the allocation. -/
theorem witness_FaultFirstLoads :
    (∃ s s1 h, State.opens s anyFmt { vw := [1] } s1 h ∧ (h.vl ≠ 0 ∧ s1.curStop = none ∧ (h.addrMd .x 2 0).toNat % 4 = 0) ∧
      ∃ a s2, each h.toTake (fun i => loadElem false 1 i (BitVec.ofNat 64 ((h.addrMd .x 2 0).toNat + i * 4))) s1 = .ok a s2 ∧ s2.curStream = .x ∧
      ∃ g, s2.hart = some g ∧ g.fmt = .i32) ∧
    (∃ s s1 h, State.opens s anyFmt { vw := [1] } s1 h ∧ (h.vl ≠ 0 ∧ s1.curStop = none ∧ (h.addrMd .x 2 0).toNat % 4 = 0 ∧ h.toTake = [0, 1] ++ 2 :: [3]) ∧
      ∃ a s2, each [0, 1] (fun i => loadElem false 1 i (BitVec.ofNat 64 ((h.addrMd .x 2 0).toNat + i * 4))) s1 = .ok a s2 ∧ s2.curStream = .x ∧
      ∃ c v b keep s3, loadElem false 1 2 (BitVec.ofNat 64 ((h.addrMd .x 2 0).toNat + 2 * 4)) s2 = .error (.trap c v b keep) s3) :=
  ⟨⟨onX (vecLs .i32 3), opensE _ (fun _ _ => andE _ (okE _ fun _ _ => andE _ (hartE _ fun _ => last))) (by decide +kernel)⟩,
   ⟨small (onX (setRegs [(2, lsAt 4088)] (vecLs .i32 4))), opensE _ (fun _ _ => andE _ (okE _ fun _ _ => andE _ trapL)) (by decide +kernel)⟩⟩

/-- VectorStoresComplete: `vl` = 0; a misaligned base; and a store, of `b4` from its start and strided from its second element. -/
theorem witness_VectorStoresComplete :
    (∃ s s1 h, State.opens s (fun x => true || decide (x ≠ .b4)) { vs := [1] } s1 h ∧ h.vl = 0) ∧
    (∃ s s1 h, State.opens s (fun x => true || decide (x ≠ .b4)) { vs := [1] } s1 h ∧ h.vl ≠ 0 ∧ (h.addrMd .x 2 1).toNat % max 1 (Fmt.ew h.fmt / 8) ≠ 0) ∧
    (∃ s s1 h, State.opens s (fun x => true || decide (x ≠ .b4)) { vs := [1] } s1 h ∧ (h.vl = 3 ∧ h.fmt = .b4 ∧ s1.curStop = none) ∧
      ∃ a s2, each h.toTake (fun i => storeElem 1 i (BitVec.ofNat 64 ((h.addrMd .x 2 0).toNat + i / 2))) (s1.storing h .x) = .ok a s2 ∧ s2.curStream = .x ∧
      ∃ g, s2.hart = some g ∧ g.fmt = .b4) ∧
    (∃ s s1 h, State.opens s (fun x => false || decide (x ≠ .b4)) { vs := [1] } s1 h ∧
      (h.vl = 2 ∧ (h.sreg .x 2).toNat % 4 = 0 ∧ (h.sreg .x 3).toNat % 4 = 0 ∧ h.toTake = [1] ∧ s1.curStop = none) ∧
      ∃ a s2, each h.toTake (fun i => storeElem 1 i (BitVec.ofNat 64 ((h.sreg .x 2).toNat + i * (h.sreg .x 3).toNat))) (s1.storing h .x) = .ok a s2 ∧
      s2.curStream = .x ∧ ∃ g, s2.hart = some g ∧ g.fmt = .i32) :=
  ⟨⟨onX (vecLs .i32 0), opensE _ (fun _ _ => last) (by decide +kernel)⟩, ⟨onX (vecLs .i32 4), opensE _ (fun _ _ => last) (by decide +kernel)⟩,
   ⟨onX (vecLs .b4 3), opensE _ (fun _ _ => andE _ (okE _ fun _ _ => andE _ (hartE _ fun _ => last))) (by decide +kernel)⟩,
   ⟨onX { setRegs [(3, 8)] (vecLs .i32 2) with resumeX := 1 },
    opensE _ (fun _ _ => andE _ (okE _ fun _ _ => andE _ (hartE _ fun _ => last))) (by decide +kernel)⟩⟩

/-- SegmentsAndScalesComplete: two fields of two elements loaded and stored, a misaligned base, and the scales of 17 elements. -/
theorem witness_SegmentsAndScalesComplete :
    (∃ s s1 h, State.opens s (fun x => decide (x ≠ .b4)) { vw := [1, 2] } s1 h ∧ (h.vl ≠ 0 ∧ s1.curStop = none ∧ (h.addrMd .x 3 0).toNat % max 1 (Fmt.ew h.fmt / 8) = 0) ∧
      ∃ a s2, each h.toTake (fun i => each (List.range 2) fun k => loadElem false (1 + k) i (BitVec.ofNat 64 ((h.addrMd .x 3 0).toNat + (2 * i + k) * 4))) s1
        = .ok a s2 ∧ s2.curStream = .x ∧ ∃ g, s2.hart = some g ∧ g.fmt = .i32) ∧
    (∃ s s1 h, State.opens s (fun x => decide (x ≠ .b4)) { vw := [62, 63] } s1 h ∧ h.vl ≠ 0 ∧ (h.addrMd .x 3 1).toNat % max 1 (Fmt.ew h.fmt / 8) ≠ 0) ∧
    (∃ s s1 h, State.opens s (fun x => decide (x ≠ .b4)) { vs := [1, 2] } s1 h ∧ (h.vl ≠ 0 ∧ s1.curStop = none ∧ (h.addrMd .x 3 0).toNat % max 1 (Fmt.ew h.fmt / 8) = 0) ∧
      ∃ a s2, each h.toTake (fun i => each (List.range 2) fun k => storeElem (1 + k) i (BitVec.ofNat 64 ((h.addrMd .x 3 0).toNat + (2 * i + k) * 4)))
        (s1.storing h .x) = .ok a s2 ∧ s2.curStream = .x ∧ ∃ g, s2.hart = some g ∧ g.fmt = .i32) ∧
    (∃ s h, State.hart s = some h ∧ (s.curStream = .x ∧ h.live = true ∧ h.vl = 17 ∧ s.curStop = none ∧ (h.vl.toNat + vtBl h.vt - 1) / vtBl h.vt = 2) ∧
      ∃ a s2, each ((List.range 2).drop h.resumeX.toNat) (fun j => do
        let va := BitVec.ofNat 64 ((h.sreg .x 2).toNat + j * (h.sreg .x 3).toNat)
        interlock va 1 false
        let a ← vectorActor
        let b ← a.load (if false then .fresh else .plain) va 1
        modHart fun x => { x with k := vput x.k 1 (putBits (x.k.getD 1 0) (8 * j) 8 b) }) s = .ok a s2 ∧ s2.curStream = .x ∧
      ∃ g, s2.hart = some g ∧ g.fmt = .b4) :=
  ⟨⟨onX (vecLs .i32 2), opensE _ (fun _ _ => andE _ (okE _ fun _ _ => andE _ (hartE _ fun _ => last))) (by decide +kernel)⟩,
   ⟨onX (vecLs .i32 2), opensE _ (fun _ _ => last) (by decide +kernel)⟩,
   ⟨onX (vecLs .i32 2), opensE _ (fun _ _ => andE _ (okE _ fun _ _ => andE _ (hartE _ fun _ => last))) (by decide +kernel)⟩,
   ⟨onX (setRegs [(3, 8)] (vecLs .b4 17)), hartE _ (fun _ => andE _ (okE _ fun _ _ => andE _ (hartE _ fun _ => last))) (by decide +kernel)⟩⟩

/-- LocalStoreVectorAccess: a load and a store of three elements at the start of the local store, and a store of two that are apart. -/
theorem witness_LocalStoreVectorAccess :
    (∃ s s1 h, State.opens s (fun x => true || decide (x ≠ .b4)) { vw := [1] } s1 h ∧
      (h.vl ≠ 0 ∧ h.transfers = [] ∧ s1.pending = [] ∧ s1.held = [] ∧ s1.lsPoison = [] ∧ s1.poison = [] ∧ s1.curStop = none ∧ (h.addrMd .x 2 0).toNat % 4 = 0) ∧
      (∀ i ∈ h.toTake, s1.localPlace h (BitVec.ofNat 64 ((h.addrMd .x 2 0).toNat + i * 4)) 4 0 (4 * i)) ∧
      ∀ i ∈ h.toTake, s1.inSpill (s1.actor h .x) (BitVec.ofNat 64 ((h.addrMd .x 2 0).toNat + i * 4)) 4 = false) ∧
    (∃ s s1 h, State.opens s anyFmt { vs := [1] } s1 h ∧
      (h.vl ≠ 0 ∧ h.transfers = [] ∧ s1.pending = [] ∧ s1.held = [] ∧ s1.lsPoison = [] ∧ s1.poison = [] ∧ s1.curStop = none) ∧
      (∀ i ∈ h.toTake, s1.localPlace h (BitVec.ofNat 64 ((h.addrMd .x 2 0).toNat + i / 2)) 1 0 (i / 2)) ∧ h.fmt = .b4) ∧
    (∃ s s1 h, State.opens s (fun x => false || decide (x ≠ .b4)) { vs := [1] } s1 h ∧
      (h.vl ≠ 0 ∧ h.transfers = [] ∧ s1.pending = [] ∧ s1.held = [] ∧ s1.lsPoison = [] ∧ s1.poison = [] ∧ s1.curStop = none ∧ (h.sreg .x 3).toNat % 4 = 0) ∧
      (∀ i ∈ h.toTake, s1.localPlace h (BitVec.ofNat 64 ((h.sreg .x 2).toNat + i * (h.sreg .x 3).toNat)) 4 0 (4 * i)) ∧
      ∀ i ∈ h.toTake, ∀ j ∈ h.toTake, i ≠ j → 4 * i + 4 ≤ 4 * j ∨ 4 * j + 4 ≤ 4 * i) :=
  ⟨⟨onX (vecLs .i32 3), opensE _ (fun _ _ => andE _ (allE _ (fun _ => placed_place) _ last)) (by decide +kernel)⟩,
   ⟨onX (vecLs .b4 3), opensE _ (fun _ _ => andE _ (allE _ (fun _ => placed_place) _ last)) (by decide +kernel)⟩,
   ⟨onX (setRegs [(3, 4)] (vecLs .i32 2)), opensE _ (fun _ _ => andE _ (allE _ (fun _ => placed_place) _ last)) (by decide +kernel)⟩⟩

/-- A hart whose access stream is to gather or scatter two elements: base in s1, list in s2, count in s3. -/
def listHart : Hart := setRegs [(1, lsAt 0), (2, lsAt 256), (3, 2)] plainHart

/-- GathersAndScattersComplete: a gather of two, an accumulating scatter, and a scatter, from the local store. -/
theorem witness_GathersAndScattersComplete :
    (let h := { listHart with openA := some 4 }
     let h' : Hart := { h with openA := none }
     let s := onA h
     let s' := s.putHart h'
     s.curStream = .a ∧ s.hart = some h ∧ h.resumeA = 0 ∧ s.curStop = none ∧ (h.sreg .a 1).toNat % 4 = 0 ∧ (h.sreg .a 2).toNat % 8 = 0 ∧
       min (h.sreg .a 3).toNat 4096 = 2 ∧
       s'.tableUsed (coreOfSlot s.curSlot) + 2 ≤ 64 ∧ drainHart h.slot s' = .ok () s' ∧ s'.hart = some h' ∧ heldEntry (h.vq.getD 0 []) h.apc = none ∧
       (h.vq.getD 0 []).length < 4 ∧
       ∃ a s2, each (List.range 2) (gatherElem 0 4 false (h.sreg .a 1) (h.sreg .a 2))
           (s'.putHart { h' with vq := vput h.vq 0 ([] ++ [.stopped h.apc { esize := 4, elems := [] }]) }) = .ok a s2 ∧ s2.curStream = .a ∧
         ∃ g, s2.hart = some g ∧ g.apc = h.apc ∧ (heldEntry (g.vq.getD 0 []) h.apc).map (fun e => e.elems.length) = some 2) ∧
    (let h := listHart
     let h' : Hart := { h with openA := none }
     let s := onA h
     let s' := s.putHart h'
     s.curStream = .a ∧ s.hart = some h ∧ h.resumeA = 0 ∧ s.curStop = none ∧ (h.sreg .a 1).toNat % 8 = 0 ∧ drainHart h.slot s' = .ok () s' ∧ s'.hart = some h' ∧
       SPlace.stopped h.apc ∉ h.squeue 4 ∧ (h.squeue 4).length < 16 ∧
       ∃ a s2, each (List.range 2) (fun i => do
           let idx ← listWord (h.sreg .a 2 + BitVec.ofNat 64 (16 * i))
           let val ← listWord (h.sreg .a 2 + BitVec.ofNat 64 (16 * i + 8))
           let va := h.sreg .a 1 + idx * BitVec.ofNat 64 8
           interlock va 8 true
           let a ← actor
           let held ← ({ a with job := some h.apc.toNat } : Actor).holdAtomic va 8 .add (val.toNat % 2 ^ (8 * 8)) 0 {}
           if held then pure ()
           else
             let _ ← ({ a with job := some h.apc.toNat } : Actor).atomic va 8 .add (val.toNat % 2 ^ (8 * 8)) 0)
           (State.storing (s'.putHart (h'.setSqueue 4 ([] ++ [.stopped h.apc]))) h' .a) = .ok a s2 ∧ s2.curStream = .a ∧ ∃ g, s2.hart = some g ∧ g.apc = h.apc) ∧
    (let h := listHart
     let h' : Hart := { h with openA := none }
     let s := onA h
     let s' := s.putHart h'
     s.curStream = .a ∧ s.hart = some h ∧ h.resumeA = 0 ∧ s.curStop = none ∧ (h.sreg .a 1).toNat % 8 = 0 ∧ drainHart h.slot s' = .ok () s' ∧ s'.hart = some h' ∧
       SPlace.stopped h.apc ∉ h.squeue 5 ∧ (h.squeue 5).length < 16 ∧
       ∃ a s2, each (List.range 2) (fun i => do
           let idx ← listWord (h.sreg .a 2 + BitVec.ofNat 64 (16 * i))
           let val ← listWord (h.sreg .a 2 + BitVec.ofNat 64 (16 * i + 8))
           let va := h.sreg .a 1 + idx * BitVec.ofNat 64 8
           interlock va 8 true
           let a ← actor
           ({ a with job := some h.apc.toNat } : Actor).storeNow va 8 (val.toNat % 2 ^ (8 * 8)))
           (State.storing (s'.putHart (h'.setSqueue 5 ([] ++ [.stopped h.apc]))) h' .a) = .ok a s2 ∧ s2.curStream = .a ∧
         ∃ g, s2.hart = some g ∧ (g.apc = h.apc ∧ min (g.sreg .a 3).toNat 4096 = 2)) :=
  ⟨⟨rfl, rfl, rfl, rfl, by decide, by decide, by decide, by decide +kernel, rfl, rfl, rfl, by decide,
     okE _ (fun _ _ => andE _ (hartE _ fun _ => last)) (by decide +kernel)⟩,
   ⟨rfl, rfl, rfl, rfl, by decide, rfl, rfl, by decide, by decide, okE _ (fun _ _ => andE _ (hartE _ fun _ => last)) (by decide +kernel)⟩,
   ⟨rfl, rfl, rfl, rfl, by decide, rfl, rfl, by decide, by decide, okE _ (fun _ _ => andE _ (hartE _ fun _ => last)) (by decide +kernel)⟩⟩

/-- LocalStoreGather: a list of two indices and their elements, all at the start of the local store. -/
theorem witness_LocalStoreGather :
    let h := listHart
    let s := onA h
    s.curStream = .a ∧ s.hart = some h ∧ h.resumeA = 0 ∧ h.transfers = [] ∧ s.pending = [] ∧ s.held = [] ∧ s.lsPoison = [] ∧ s.curStop = none ∧
      (s.putHart { h with openA := none }).tableUsed (coreOfSlot s.curSlot) + 2 ≤ 64 ∧ heldEntry (h.vq.getD 3 []) h.apc = none ∧ (h.vq.getD 3 []).length < 4 ∧
      (h.sreg .a 1).toNat % 8 = 0 ∧ (h.sreg .a 2).toNat % 8 = 0 ∧
      (∀ i ∈ List.range 2, s.localPlace h (BitVec.ofNat 64 ((h.sreg .a 2).toNat + 8 * i)) 8 0 (256 + 8 * i)) ∧
      (∀ i ∈ List.range 2, s.localPlace h (BitVec.ofNat 64 ((h.sreg .a 1).toNat + s.ls.readLE (lsIndex 0 (256 + 8 * i)) 8 * 8)) 8 0 0) ∧
      ∀ i ∈ List.range 2, s.inSpill (s.actor h .a) (BitVec.ofNat 64 ((h.sreg .a 2).toNat + 8 * i)) 8 = false ∧
        s.inSpill (s.actor h .a) (h.sreg .a 1) 8 = false :=
  ⟨rfl, rfl, rfl, rfl, rfl, rfl, rfl, rfl, by decide +kernel, rfl, by decide, by decide, by decide,
   allE _ (fun _ => placed_place) _ (allE _ (fun _ => placed_place) _ last) (by decide +kernel)⟩

/-- FillsMakePlacesReady: a reserved place of each kind, and one whose element S1 holds. -/
theorem witness_FillsMakePlacesReady :
    (let h : Hart := { plainHart with vq := Vector.replicate 4 [.reserved { esize := 1, elems := [] } false], q4 := [.reserved 3], q5 := [.ready 0, .reserved 4] }
     SMap.get? (onX h).harts (onX h).curEv.a = some h ∧ h.acked = false ∧ (onX h).held = [] ∧ (onX h).pending = [] ∧
       (h.vq.getD 0 [])[0]? = some (VPlace.reserved { esize := 1, elems := [] } false) ∧
       h.q4[0]? = some (SPlace.reserved 3) ∧ h.q5[1]? = some (SPlace.reserved 4)) ∧
    (let h : Hart := { plainHart with vq := Vector.replicate 4 [.reserved { esize := 8, elems := [] } true] }
     SMap.get? (onX h).harts (onX h).curEv.a = some h ∧ h.acked = false ∧ (onX h).held = [] ∧
       (h.vq.getD 0 [])[0]? = some (VPlace.reserved { esize := 8, elems := [] } true)) ∧
    (let s : State := { onX plainHart with held := [{ heldLoad .a with regs := [.q 0] }] }
     SMap.get? s.harts s.curEv.a = some plainHart ∧ (∃ w ∈ s.held, w.slot = s.curEv.a ∧ RegName.q s.curEv.b ∈ w.regs) ∧
       ∃ w ∈ s.held, w.of s.curEv.a .a = true) :=
  ⟨⟨rfl, rfl, rfl, rfl, rfl, rfl, rfl⟩, ⟨rfl, rfl, rfl, rfl⟩, rfl, ⟨_, List.mem_singleton.2 rfl, rfl, List.mem_singleton.2 rfl⟩,
    _, List.mem_singleton.2 rfl, rfl⟩

/-- A test for a doubleword of the local store. -/
def wordAt (s : State) (h : Hart) (va v : Word64) : Bool :=
  decide ((s.actor h s.curStream).window = some (0, 0, 2 ^ 20)) && inWindow va && decide (va.toNat - windowBase + 8 ≤ 2 ^ 20) &&
    !s.inSpill (s.actor h s.curStream) va 8 && decide (v = BitVec.ofNat 64 (s.ls.readLE (lsIndex 0 (0 + (va.toNat - windowBase))) 8))

theorem word_of {s : State} {h : Hart} {va v : Word64} (e : wordAt s h va v = true) : s.localWord h va v := by
  simp only [wordAt, Bool.and_eq_true, decide_eq_true_eq, Bool.not_eq_true'] at e
  obtain ⟨⟨⟨⟨a, b⟩, c⟩, d⟩, f⟩ := e
  exact ⟨0, 2 ^ 20, 0, a, b, c, d, f⟩

/-- A descriptor in the local store of a table of one block, with its page and bitmap, and a list of one position in its last token. -/
def blocks (s : State) : State :=
  place [(0, 8, lsAt 0x200), (8, 8, lsAt 0x208), (16, 8, 1), (0x100, 8, 63), (0x200, 8, 0x50000), (0x208, 8, 2 ^ 63 + 5)] s

/-- KeyValueIndexForms: a descriptor of one block in the local store, and one position at its end; and the same read word by word. -/
theorem witness_KeyValueIndexForms :
    let h := setRegs [(3, 1)] listHart
    let h' : Hart := { h with openA := none }
    let s := blocks (onA h)
    let s' := s.putHart h'
    s.curStream = .a ∧ s.hart = some h ∧ h.resumeA = 0 ∧ s.curStop = none ∧ (h.sreg .a 1).toNat % 8 = 0 ∧ (h.sreg .a 2).toNat % 8 = 0 ∧ s.free h' (h.sreg .a 1) 24 false ∧
      heldEntry (h.vq.getD 0 []) h.apc = none ∧ (h.vq.getD 0 []).length < 4 ∧
      (h.transfers = [] ∧ s.pending = [] ∧ s.held = [] ∧ s.lsPoison = [] ∧ s'.tableUsed (coreOfSlot s.curSlot) + 3 ≤ 64 ∧
        s.localWord h (h.sreg .a 1) (BitVec.ofNat 64 (lsAt 0x200)) ∧ s.localWord h (h.sreg .a 1 + 8) (BitVec.ofNat 64 (lsAt 0x208)) ∧
        s.localWord h (h.sreg .a 1 + 16) 1 ∧ s.localWord h (h.sreg .a 2 + BitVec.ofNat 64 (8 * 0)) 63 ∧
        s.localWord h (BitVec.ofNat 64 (lsAt 0x200) + BitVec.ofNat 64 (8 * (63 / 64))) 0x50000 ∧
        s.localWord h (BitVec.ofNat 64 (lsAt 0x208) + BitVec.ofNat 64 (8 * (63 / 64))) (BitVec.ofNat 64 (2 ^ 63 + 5))) ∧
      ∃ b s0, eachFold (List.range 3) 0 (fun v i => do
          let x ← (s.actor h .a).load .home (h.sreg .a 1 + BitVec.ofNat 64 (8 * i)) 8
          pure (v + x * 2 ^ (64 * i))) s' = .ok b s0 ∧
        (b = lsAt 0x200 + lsAt 0x208 * 2 ^ 64 + 2 ^ 128 ∧ s0.tableUsed (coreOfSlot s0.curSlot) + 3 ≤ 64 ∧ s0.curStream = .a) ∧ s0.hart = some h' ∧
      ∃ a s1, drainHart h.slot s0 = .ok a s1 ∧ (s1.curStream = .a ∧ s1.curStop = none) ∧ s1.hart = some h' ∧
      ∃ c s2, each (List.range 1) (fun i => do
          let pos ← listWord (h.sreg .a 2 + BitVec.ofNat 64 (8 * i))
          let x : Word64 ←
            if pos.toInt < 0 ∨ 1 ≤ pos.toNat / 64 then pure 0xFFFFFFFFFFFFFFFF
            else do
              let page ← listWord (BitVec.ofNat 64 (lsAt 0x200) + BitVec.ofNat 64 (8 * (pos.toNat / 64)))
              if page = 0 then pure 0xFFFFFFFFFFFFFFFF
              else do
                let map ← listWord (BitVec.ofNat 64 (lsAt 0x208) + BitVec.ofNat 64 (8 * (pos.toNat / 64)))
                pure (rowOf 1 pos page map)
          putEntry 0 i x)
          (s1.putHart { h' with vq := vput h.vq 0 ([] ++ [.stopped h.apc { esize := 8, elems := [] }]) }) = .ok c s2 ∧ s2.curStream = .a ∧
      ∃ g, s2.hart = some g ∧ g.apc = h.apc ∧ (heldEntry (g.vq.getD 0 []) h.apc).map (fun e => e.elems) = some [BitVec.ofNat 64 (0x50000 + 512 * 2)] :=
  ⟨rfl, rfl, rfl, rfl, by decide, by decide, free_of_none rfl rfl rfl _ _ _, rfl, by decide,
   ⟨rfl, rfl, rfl, rfl, by decide +kernel, word_of (by decide +kernel), word_of (by decide +kernel), word_of (by decide +kernel), word_of (by decide +kernel),
     word_of (by decide +kernel), word_of (by decide +kernel)⟩,
   okE _ (fun _ _ => andE _ (isE _ (okE _ fun _ _ => andE _ (isE _ (okE _ fun _ _ => andE _ (hartE _ fun _ => last)))))) (by decide +kernel)⟩

/-- A CSR matrix with one row and one nonzero in the local store: its descriptor at 0x100, its arrays after it, a destination record at
0x1000 and a source record at 0x1040. -/
def sparse (s : State) : State := place
  [(0x100, 8, 0x0000000100010500), (0x108, 8, 0x0000000100000001), (0x110, 8, 1), (0x118, 8, lsAt 0x200), (0x120, 8, lsAt 0x300), (0x128, 8, lsAt 0x400),
   (0x130, 8, lsAt 0x800), (0x138, 8, lsAt 0xC00), (0x204, 4, 1), (0x400, 4, 9),
   (0x1000, 8, lsAt 0x2000), (0x1008, 8, 5), (0x1010, 8, 0x0000000100000001), (0x1018, 8, 0x0000000100000001), (0x1020, 8, 0x0000000400000004),
   (0x1040, 8, lsAt 0x3000), (0x1048, 8, 5), (0x1050, 8, 0x0000000100000001), (0x1058, 8, 0x0000000100000001), (0x1060, 8, 0x0000000400000004)] s

/-- A hart to cut from a row: descriptor in s1, cursor in s2. -/
def cutHart (row : Nat) : Hart := setRegs [(1, lsAt 0x100), (2, row)] plainHart

/-- CutterFormsComplete: a cut past the last row, and of the row. -/
theorem witness_CutterFormsComplete_cut :
    (∃ s h, State.hart s = some h ∧ s.curStream = .a ∧ ∃ a s1, cutterIssue 5 s = .ok a s1 ∧ s1.curStream = .a ∧ s1.hart = some (cutHart 1) ∧
      ∃ d s2, readSparse (h.sreg .a 1) s1 = .ok d s2 ∧ (h.sreg .a 2).toNat % 2 ^ 32 = d.nrows ∧
      ∃ k s3, entry32 d.rowptr d.nrows s2 = .ok k s3 ∧
      ∃ b s6, putBound 0 d { desc := h.sreg .a 1, r0 := 1, k0 := k, rn := 1, k1 := k, r1 := 1, nc := 0, empty := true, split := false, last := true
                             pdone := false, ddone := false } s3 = .ok b s6 ∧ s6.curStream = .a ∧ ∃ g, s6.hart = some g ∧ g.apc = h.apc) ∧
    (∃ s h, State.hart s = some h ∧ s.curStream = .a ∧ ∃ a s1, cutterIssue 5 s = .ok a s1 ∧ s1.curStream = .a ∧ s1.hart = some (cutHart 0) ∧
      ∃ d s2, readSparse (h.sreg .a 1) s1 = .ok d s2 ∧ (h.sreg .a 2).toNat % 2 ^ 32 < d.nrows ∧
      ∃ p0 s3, entry32 d.rowptr 0 s2 = .ok p0 s3 ∧ ∃ p1 s4, entry32 d.rowptr (0 + 1) s3 = .ok p1 s4 ∧ max 0 p0 ≤ p1 ∧
      ∃ c s5, cutRows d 0 (max 0 p0) 256 { r1 := 0, k1 := max 0 p0, nz := 0, set := [], split := false } s4 = .ok c s5 ∧
      ∃ b s6, (do
          each (c.set.zipIdx) fun (col, j) =>
            each (List.range d.cw) fun v => cutEntry (d.cmap + BitVec.ofNat 64 (4 * (d.cw * j + v))) 4 (d.cw * col + v)
          putBound 0 d { desc := h.sreg .a 1, r0 := 0, k0 := max 0 p0, rn := c.r1, k1 := c.k1, r1 := c.r1, nc := d.cw * c.set.length
                         empty := decide (c.k1 = max 0 p0), split := c.split, last := decide (c.r1 = d.nrows), pdone := false, ddone := false }) s5
          = .ok b s6 ∧ s6.curStream = .a ∧ ∃ g, s6.hart = some g ∧ c.split = false) :=
  ⟨⟨sparse (onA (cutHart 1)), cutHart 1, rfl, rfl,
    okE _ (fun _ _ => andE _ (isE _ (okE _ fun _ _ => andE _ (okE _ fun _ _ => okE _ fun _ _ => andE _ (hartE _ fun _ => last))))) (by decide +kernel)⟩,
   ⟨sparse (onA (cutHart 0)), cutHart 0, rfl, rfl,
    okE _ (fun _ _ => andE _ (isE _ (okE _ fun _ _ => andE _ (okE _ fun _ _ => okE _ fun _ _ => andE _ (okE _ fun _ _ => okE _ fun _ _ =>
      andE _ (hartE _ fun _ => last)))))) (by decide +kernel)⟩⟩

/-- The bound record of the tile that the matrix is. -/
def tile (pdone : Bool) : BoundRec :=
  { desc := BitVec.ofNat 64 (lsAt 0x100), r0 := 0, k0 := 0, rn := 1, k1 := 1, r1 := 1, nc := 1, empty := false, split := false, last := true, pdone := pdone
    ddone := false }

/-- A hart to pack from the records, or to write the dense tile. -/
def packHart (pdone : Bool) : Hart := { setRegs [(1, lsAt 0x1000), (2, if pdone then 0 else lsAt 0x1040)] plainHart with b := Vector.replicate 8 (tile pdone).word }

/-- CutterFormsComplete: the packed operand and the dense tile of the row. -/
theorem witness_CutterFormsComplete_pack :
    (∃ s h, State.hart s = some h ∧ s.curStream = .a ∧ BoundRec.of (h.b.getD 0 0) = tile false ∧
      ∃ a s1, cutterIssue 5 s = .ok a s1 ∧ s1.curStream = .a ∧ s1.hart = some (packHart false) ∧
      ∃ d s2, readSparse (tile false).desc s1 = .ok d s2 ∧ s2.curStream = .a ∧ s2.hart = some (packHart false) ∧
      ∃ dst s3, cutRecord (h.sreg .a 1) true s2 = .ok dst s3 ∧ ∃ src s4, cutRecord (h.sreg .a 2) false s3 = .ok src s4 ∧
      (dst.fmt = src.fmt ∧ dst.dim 0 ≤ src.dim 0 ∧ (tile false).nc ≤ dst.dim 1 ∧ d.ncols ≤ src.dim 1) ∧
      ∃ b s6, (do
        recordPlaced dst true
        recordPlaced src false
        let map ← readMap d (tile false).nc
        let source (i j : Nat) : M Nat := if j < (tile false).nc then cutRead (src.at i (map.getD j 0) 0 0).1 (esizeOf dst.fmt) else pure 0
        each (List.range (dst.dim 1)) fun j => each (List.range (dst.dim 0)) fun i => do
          let _ ← probe (source i j)
        each (List.range (dst.dim 1)) fun j => each (List.range (dst.dim 0)) fun i => do
          let v ← source i j
          cutWrite (dst.at i j 0 0).1 (esizeOf dst.fmt) v
        putBound 0 d { tile false with pdone := true }) s4 = .ok b s6 ∧ s6.curStream = .a ∧ ∃ g, s6.hart = some g ∧ g.apc = h.apc) ∧
    (∃ s h, State.hart s = some h ∧ s.curStream = .a ∧ BoundRec.of (h.b.getD 0 0) = tile true ∧
      ∃ a s1, cutterIssue 7 s = .ok a s1 ∧ s1.curStream = .a ∧ s1.hart = some (packHart true) ∧
      ∃ d s2, readSparse (tile true).desc s1 = .ok d s2 ∧ s2.curStream = .a ∧ s2.hart = some (packHart true) ∧
      ∃ dst s3, cutRecord (h.sreg .a 1) true s2 = .ok dst s3 ∧
      (dst.fmt = d.fmt ∧ (tile true).nc ≤ dst.dim 0 ∧ (h.sreg .a 2).toNat % 2 ^ 16 + 1 * d.h ≤ dst.dim 1) ∧
      ∃ b s4, recordPlaced dst true s3 = .ok b s4 ∧ ∃ map s5, readMap d (tile true).nc s4 = .ok map s5 ∧
      ∃ c s6, (do
        each (List.range (1 * d.h)) fun i => each (List.range (dst.dim 0)) fun c => cutWrite (dst.at c ((h.sreg .a 2).toNat % 2 ^ 16 + i) 0 0).1 (esizeOf dst.fmt) 0
        each (List.range 1) fun i => do
          let item ← tileItem d (tile true) dst map (0 + i)
          each (item.2.2.zipIdx.filter fun (e : Nat × Nat) => decide (item.2.1 + e.2 % d.cw < dst.dim 0)) fun (v, q) =>
            cutWrite (dst.at (item.2.1 + q % d.cw) ((h.sreg .a 2).toNat % 2 ^ 16 + item.1 * d.h + q / d.cw) 0 0).1 (esizeOf dst.fmt) v
        putBound 0 d { tile true with ddone := true }) s5 = .ok c s6 ∧ s6.curStream = .a ∧ ∃ g, s6.hart = some g ∧ g.apc = h.apc) :=
  ⟨⟨sparse (onA (packHart false)), packHart false, rfl, rfl, by decide +kernel,
    okE _ (fun _ _ => andE _ (isE _ (okE _ fun _ _ => andE _ (isE _ (okE _ fun _ _ => okE _ fun _ _ => andE _ (okE _ fun _ _ =>
      andE _ (hartE _ fun _ => last))))))) (by decide +kernel)⟩,
   ⟨sparse (onA (packHart true)), packHart true, rfl, rfl, by decide +kernel,
    okE _ (fun _ _ => andE _ (isE _ (okE _ fun _ _ => andE _ (isE _ (okE _ fun _ _ => andE _ (okE _ fun _ _ => okE _ fun _ _ => okE _ fun _ _ =>
      andE _ (hartE _ fun _ => last))))))) (by decide +kernel)⟩⟩

/-- ConversionsMergesAndScores: conversions that widen, keep the width and narrow; a merge of two triples; and a score program. -/
theorem witness_ConversionsMergesAndScores :
    (∃ s h0, State.hart s = some h0 ∧ (h0.fmt = .bf16 ∧ max 1 (Fmt.ew .fp32 / Fmt.ew h0.fmt) = 2) ∧
      ∃ s1 h, State.opens s anyFmt { vs := [1], vw := groupOf 2 2 } s1 h ∧ h.fmt = h0.fmt) ∧
    (∃ s h0, State.hart s = some h0 ∧ (h0.fmt = .fp32 ∧ max 1 (Fmt.ew .i32 / Fmt.ew h0.fmt) = 1) ∧
      ∃ s1 h, State.opens s anyFmt { vs := [1], vw := groupOf 1 1 } s1 h ∧ h.fmt = h0.fmt ∧ h.vl ≠ 0 ∧ mdRm h.md ≠ .sr) ∧
    (∃ s h0, State.hart s = some h0 ∧ (h0.fmt = .fp32 ∧ max 1 (Fmt.ew .e4m3 / Fmt.ew h0.fmt) = 1) ∧
      ∃ s1 h, State.opens s anyFmt { vs := [1], vw := groupOf 1 1 } s1 h ∧ h.fmt = h0.fmt ∧ h.vl ≠ 0) ∧
    (∃ s s1 h, State.opensPlain s (fun f => decide (f = .fp32)) { vs := [1, 2], vw := [3] } s1 h ∧ h.vl.toNat = 1) ∧
    (∃ s s1 h, State.opensPlain s (fun f => decide (f = .fp32)) { vs := [1, 2], vw := [3] } s1 h ∧ h.vl.toNat = 3 ∧
      isNan .fp32 (pickFp32 true (flush .fp32 (vtFtz h.vt) (elemOf 32 (h.vbitsOf 1) 0)) (flush .fp32 (vtFtz h.vt) (elemOf 32 (h.vbitsOf 2) 0))) = false ∧
      mdRm h.md ≠ .sr) ∧
    (∃ s h0, State.hart s = some h0 ∧ (s.curStream = .x ∧ h0.live = true ∧ h0.fmt = .fp32 ∧ h0.tagOf 1 = some .fp32 ∧ h0.tagOf 2 = some .i32 ∧
        h0.tagOf 3 = some .i32 ∧ h0.tagOf 4 = some .i32 ∧
        (({ vs := groupOf 1 4, vw := [5] } : Named).guarded h0).allV.length ≤ vectorSlots h0.vt ∧
        (({ vs := groupOf 1 4, vw := [5] } : Named).guarded h0).allP.length ≤ predicateSlots h0.vt) ∧
      ∃ a s1, swapIn (({ vs := groupOf 1 4, vw := [5] } : Named).guarded h0) s = .ok a s1 ∧ s1.curStream = .x ∧ ∃ h, s1.hart = some h ∧ h.fmt = .fp32 ∧ h.vl ≠ 0) :=
  ⟨⟨onX (vecHart .bf16 4 5), hartE _ (fun _ => andE _ (opensE _ fun _ _ => last)) (by decide +kernel)⟩,
   ⟨onX (vecHart .fp32 4 5), hartE _ (fun _ => andE _ (opensE _ fun _ _ => last)) (by decide +kernel)⟩,
   ⟨onX (vecHart .fp32 4 5), hartE _ (fun _ => andE _ (opensE _ fun _ _ => last)) (by decide +kernel)⟩,
   ⟨onX (vecHart .fp32 1 5), plainE _ (fun _ _ => last) (by decide +kernel)⟩, ⟨onX (vecHart .fp32 3 5), plainE _ (fun _ _ => last) (by decide +kernel)⟩,
   ⟨onX { vecHart .fp32 3 5 with v := (Vector.replicate 64 { bits := 5, tag := some .i32 }).set 1 { bits := 5, tag := some .fp32 } },
     hartE _ (fun _ => andE _ (okE _ fun _ _ => andE _ (hartE _ fun _ => last))) (by decide +kernel)⟩⟩

/-- A core whose array is granted to the test's kernel, with a shape and a queue. -/
def arrayed (p : Shape) (queue : List MOp) (s : State) : State :=
  s.modCore 0 fun c => { c with mat := { c.mat with owner := some 1, planes := 2, tags := Vector.replicate 2 (some .fp32), shape := p, queue := queue } }

/-- The shape of one product. -/
def unitShape : Shape := { m := 1, n := 1, k := 1, grid := false, a := .e4m3, w := .e4m3, bl := 16 }

/-- A record of one `e4m3` element at the start of the local store. -/
def record1 (s : State) : State :=
  place [(0, 8, lsAt 0x100), (8, 8, 12), (0x10, 8, 0x0000000100000001), (0x18, 8, 0x0000000100000001), (0x20, 8, 0x0000000100000001)] s

/-- MatrixFormsComplete: no array, and a plane past those granted; a full queue; supported and unsupported pairs of formats; and an empty shape. -/
theorem witness_MatrixFormsComplete_shapes :
    (let s := onX plainHart
     s.hart = some plainHart ∧ s.curStream = .x ∧ coreOfSlot s.curSlot < 64 ∧ (s.core (coreOfSlot s.curSlot)).mat.owner ≠ some plainHart.kernel ∧
       (s.core (coreOfSlot s.curSlot)).mat.planes ≤ (0 : CRegNo).val) ∧
    (let s := arrayed unitShape (List.replicate 8 .swap) (onX plainHart)
     s.hart = some plainHart ∧ s.curStream = .x ∧ (s.core (coreOfSlot s.curSlot)).mat.owner = some plainHart.kernel ∧
       8 ≤ (s.core (coreOfSlot s.curSlot)).mat.queue.length ∧ 1 < (s.core (coreOfSlot s.curSlot)).mat.planes) ∧
    (let h := setRegs [(1, 1 + 2 ^ 16 + 2 ^ 32), (2, 12 + 12 * 16)] plainHart
     let s := arrayed unitShape (List.replicate 7 .swap) (onX h)
     s.hart = some h ∧ (s.core (coreOfSlot s.curSlot)).mat.owner = some h.kernel ∧ (s.core (coreOfSlot s.curSlot)).mat.queue.length < 8 ∧
       Fmt.ofCode? ((h.sreg .x 2).toNat % 16) = some .e4m3 ∧ Fmt.ofCode? ((h.sreg .x 2).toNat / 16 % 16) = some .e4m3 ∧ matrixPair .e4m3 .e4m3 = true) ∧
    (let h := setRegs [(1, 1), (2, 9 + 9 * 16)] plainHart
     let s := arrayed unitShape [] (onX h)
     s.hart = some h ∧ Fmt.ofCode? ((h.sreg .x 2).toNat % 16) = some .fp32 ∧ Fmt.ofCode? ((h.sreg .x 2).toNat / 16 % 16) = some .fp32 ∧
       matrixPair .fp32 .fp32 = false) ∧
    (let s := arrayed { unitShape with n := 0 } [] (onX (vecHart .i32 4 5))
     s.hart = some (vecHart .i32 4 5) ∧ (s.core (coreOfSlot s.curSlot)).mat.shape.empty = true ∧ (vecHart .i32 4 5).live = true ∧
       1 ≤ vectorSlots (vecHart .i32 4 5).vt) :=
  ⟨⟨rfl, rfl, by decide, by decide +kernel, by decide +kernel⟩, ⟨rfl, rfl, by decide +kernel, by decide +kernel, by decide +kernel⟩,
   ⟨rfl, by decide +kernel, by decide +kernel, by decide +kernel, by decide +kernel, rfl⟩, ⟨rfl, by decide +kernel, by decide +kernel, rfl⟩,
   ⟨rfl, by decide +kernel, by decide +kernel, by decide +kernel⟩⟩

/-- MatrixFormsComplete, at a full queue: each of the forms that wait there, with an empty and with a full shape. -/
theorem witness_MatrixFormsComplete_waits :
    (let h := { setRegs [(2, 12 + 12 * 16)] (vecHart .fp32 4 5) with grant := 1 }
     let s := arrayed { unitShape with n := 0 } (List.replicate 8 .swap) (onX h)
     let m := (s.core (coreOfSlot s.curSlot)).mat
     let r := ({ vs := [1] } : Named).guarded h
     s.hart = some h ∧ m.owner = some h.kernel ∧ 8 ≤ m.queue.length ∧ m.shape.empty = true ∧ 1 < m.planes ∧ h.live = true ∧
       r.allV.length ≤ vectorSlots h.vt ∧ r.allP.length ≤ predicateSlots h.vt ∧ m.tags[1] = some .fp32 ∧ h.tagOf 1 = some h.fmt ∧ 1 ≤ vectorSlots h.vt ∧
       Fmt.ofCode? ((h.sreg .x 2).toNat % 16) = some .e4m3 ∧ Fmt.ofCode? ((h.sreg .x 2).toNat / 16 % 16) = some .e4m3 ∧ matrixPair .e4m3 .e4m3 = true) ∧
    (let h := setRegs [(1, lsAt 0), (2, lsAt 0x200)] (vecHart .e4m3 4 5)
     let s := record1 (arrayed unitShape (List.replicate 8 .swap) (onX h))
     s.hart = some h ∧ 8 ≤ (s.core 0).mat.queue.length ∧ (s.core 0).mat.shape.empty = false ∧ (s.core 0).mat.tags[1] = some .fp32 ∧
       matrixPair .e4m3 (s.core 0).mat.actFmt = true ∧ ¬(unitShape.grid = true ∧ h.cix % 4 ≠ 0) ∧ h.live = true ∧ 1 ≤ vectorSlots h.vt ∧ h.fmt = .e4m3 ∧
       h.tagOf 1 = some .e4m3 ∧
       ∃ t s1, matrixOperand 1 2 .e4m3 1 1 (1 / 16 * 1) s = .ok t s1 ∧ (s1.core 0).mat = (s.core 0).mat) ∧
    (let h : Hart := { plainHart with gcoord := 0x0F000010 }
     let s := arrayed { unitShape with grid := true } (List.replicate 8 .swap) (onX h)
     s.hart = some h ∧ 8 ≤ (s.core 0).mat.queue.length ∧ (s.core 0).mat.shape.grid = true ∧ h.cix % 4 ≠ 0) :=
  ⟨⟨rfl, by decide +kernel, by decide +kernel, by decide +kernel, by decide +kernel, by decide +kernel, by decide +kernel, by decide +kernel,
     by decide +kernel, by decide +kernel, by decide +kernel, by decide +kernel, by decide +kernel, rfl⟩,
   ⟨rfl, by decide +kernel, by decide +kernel, by decide +kernel, by decide +kernel, by decide +kernel, by decide +kernel, by decide +kernel,
     by decide +kernel, by decide +kernel, okE _ (fun _ _ => last) (by decide +kernel)⟩,
   ⟨rfl, by decide +kernel, by decide +kernel, by decide +kernel⟩⟩

/-- MatrixFormsComplete: weights and activations read from a record in the local store, and a receiver of a broadcast. -/
theorem witness_MatrixFormsComplete_operands :
    (let h := setRegs [(1, lsAt 0), (2, lsAt 0x200)] plainHart
     let s := record1 (arrayed unitShape [] (onX h))
     s.hart = some h ∧ (s.core 0).mat.shape.empty = false ∧
       ∃ t s1, matrixOperand 1 2 .e4m3 1 1 (1 / 16 * 1) s = .ok t s1 ∧ (s1.curStream = .x ∧ (s1.core 0).mat = (s.core 0).mat) ∧ s1.hart = some h ∧
       ∃ a s2, t.enter s1 = .ok a s2 ∧
       ∃ w s3, eachFold (List.range (1 * 1)) ({ fmt := .e4m3, bl := 16, cells := [], scales := [], poison := [] } : WPlane) (fun w x => do
            let e ← t.elem (x % 1) (x / 1)
            let sc ← t.scale (x / 1 / 16 * 1 + x % 1)
            pure { w with cells := w.cells.putNZ (256 * (x / 1) + x % 1) e.1, scales := w.scales.putNZ (256 * (x / 1) + x % 1) sc.1
                          poison := if e.2 || sc.2 then addNum w.poison (256 * (x / 1) + x % 1) else w.poison }) s2 = .ok w s3 ∧
         (s3.curStream = .x ∧ coreOfSlot s3.curSlot < 64 ∧ (s3.core 0).mat = (s.core 0).mat) ∧ ∃ g, s3.hart = some g ∧ g.xpc = h.xpc) ∧
    (let h := setRegs [(1, lsAt 0), (2, lsAt 0x200)] plainHart
     let s := record1 (arrayed unitShape [] (onX h))
     s.hart = some h ∧ (s.core 0).mat.tags[0] = some .fp32 ∧ matrixPair .e4m3 (s.core 0).mat.actFmt = true ∧ ¬(unitShape.grid = true ∧ h.cix % 4 ≠ 0) ∧
       ∃ t s1, matrixOperand 1 2 .e4m3 1 1 (1 * (1 / 16)) s = .ok t s1 ∧ (s1.curStream = .x ∧ (s1.core 0).mat = (s.core 0).mat) ∧ s1.hart = some h ∧
       ∃ a s2, t.enter s1 = .ok a s2 ∧
       ∃ rows s3, eachMap (List.range 1) (fun m => do
            let xs ← eachMap (List.range 1) fun k => do
              let e ← t.elem k m
              let sc ← t.scale (m * (1 / 16) + k / 16)
              pure (e.1, sc.1, e.2 || sc.2)
            pure ({ m := m, elems := xs.map fun x => x.1, scales := xs.map fun x => x.2.1
                    poison := (List.range 1).filter fun k => (xs.getD k (0, 0, false)).2.2 } : ActRow)) s2 = .ok rows s3 ∧
         (s3.curStream = .x ∧ coreOfSlot s3.curSlot < 64 ∧ (s3.core 0).mat = (s.core 0).mat) ∧ s3.hart = some h) ∧
    (let h : Hart := { plainHart with gcoord := 0x0F000010 }
     let s := arrayed { unitShape with grid := true } [] (onX h)
     s.hart = some h ∧ (s.core 0).mat.shape.grid = true ∧ h.cix % 4 ≠ 0 ∧ (s.core 0).mat.tags[1] = some .fp32) :=
  ⟨⟨rfl, by decide +kernel,
     okE _ (fun _ _ => andE _ (isE _ (okE _ fun _ _ => okE _ fun _ _ => andE _ (hartE _ fun _ => last)))) (by decide +kernel)⟩,
   ⟨rfl, by decide +kernel, by decide +kernel, by decide +kernel,
     okE _ (fun _ _ => andE _ (isE _ (okE _ fun _ _ => okE _ fun _ _ => andE _ isL))) (by decide +kernel)⟩,
   ⟨rfl, by decide +kernel, by decide +kernel, by decide +kernel⟩⟩

/-- MatrixFormsComplete: activations from a vector register, and cells read and written. -/
theorem witness_MatrixFormsComplete_vectors :
    (∃ s, (State.core s 0).mat.shape = unitShape ∧ ∃ s1 g, s.opensPlain (fun f => decide (f = unitShape.a)) { vs := [1] } s1 g ∧
      g.slot = 0 ∧ g.xpc = BitVec.ofNat 64 testVa ∧ g.gcoord = 0 ∧ (s1.core (coreOfSlot s1.curSlot)).mat = (s.core 0).mat ∧ 1 < (s.core 0).mat.planes ∧
        coreOfSlot s1.curSlot < 64) ∧
    (∃ s, ((State.core s 0).mat.tags[1] = some .fp32 ∧ ∀ o ∈ (s.core 0).mat.queue, o.writes 1 = false) ∧
      ∃ s1 g, s.opens anyFmt { vw := [1] } s1 g ∧ (s1.core (coreOfSlot s1.curSlot)).mat = (s.core 0).mat ∧ coreOfSlot s1.curSlot < 64 ∧ g.vl = 3) ∧
    (∃ s s1 g, State.opens s anyFmt { vs := [1] } s1 g ∧ mdRm g.md ≠ .sr ∧ (s1.core (coreOfSlot s1.curSlot)).mat = (s.core 0).mat ∧
      coreOfSlot s1.curSlot < 64 ∧ g.vl = 3) :=
  ⟨⟨arrayed unitShape [] (onX (vecHart .e4m3 3 5)), by decide +kernel, plainE _ (fun _ _ => last) (by decide +kernel)⟩,
   ⟨arrayed unitShape [.swap] (onX (vecHart .fp32 3 5)), by decide +kernel, opensE _ (fun _ _ => last) (by decide +kernel)⟩,
   ⟨arrayed unitShape [] (onX (vecHart .fp32 3 5)), opensE _ (fun _ _ => last) (by decide +kernel)⟩⟩

/-- TheArrayCarriesOutItsQueue: each kind of operation at the head, untouched and partly done, with an event that takes all of it, one step of it,
and its last step; and a stream of two rows and two columns, of which the event may take either row, to its first or its last column. -/
theorem witness_TheArrayCarriesOutItsQueue : ∀ o ∈ [MOp.load WPlane.start 0, .load WPlane.start 255, .swap, .zero 1 0, .zero 1 65535,
      .write 1 [(0, 5), (1, 6)], .stream 1 0 0 { unitShape with n := 2, m := 2 } [{ m := 0, elems := [], scales := [], poison := [] },
        { m := 1, first := 1, elems := [], scales := [], poison := [] }] none false 0 0 0],
    ∀ n ∈ [0, 1, 2], ∀ c ∈ [0, 1],
    let s : State := { arrayed unitShape [o] (onX plainHart) with curEv := { b := n, c := c } }
    s.curEv.a < 64 ∧ (s.core s.curEv.a).mat.queue = o :: [] := by decide +kernel

/-- A hart that names the test's page. -/
def pageHart : Hart := regHart testVa

/-- PageFormsComplete: a page form, with a page that stands and one in a move; a pin and its return; and commits with no overlay. -/
theorem witness_PageFormsComplete_pins :
    (∃ s h, State.hart s = some h ∧ (∀ va n w, s.free h va n w) ∧ ∃ p0 s0, pageAt .load (h.sreg s.curStream 1) false s = .ok p0 s0 ∧
      (s0.curStream = s.curStream ∧ s0.behindHeld (s0.actor h s.curStream) (.pa p0.leaf.frame) p0.leaf.size = false) ∧ s0.hart = some h ∧
      ∃ a s1, drainStream h.slot s.curStream s0 = .ok a s1 ∧ ∃ p s2, pageAt .load (h.sreg s.curStream 1) false s1 = .ok p s2 ∧ p.leaf.tier ≤ 2 ∧
      ∃ b s3, setA p.leaf s2 = .ok b s3 ∧ s3.curStream = s.curStream) ∧
    (∃ s h, State.hart s = some h ∧ (∀ va n w, s.free h va n w) ∧ ∃ p0 s0, pageAt .load (h.sreg s.curStream 1) false s = .ok p0 s0 ∧
      (s0.curStream = s.curStream ∧ s0.behindHeld (s0.actor h s.curStream) (.pa p0.leaf.frame) p0.leaf.size = false) ∧ s0.hart = some h ∧
      ∃ a s1, drainStream h.slot s.curStream s0 = .ok a s1 ∧ ∃ p s2, pageAt .load (h.sreg s.curStream 1) false s1 = .ok p s2 ∧ 3 ≤ p.leaf.tier ∧
      ∃ b s3, setA p.leaf s2 = .ok b s3 ∧ s3.curStream = s.curStream) ∧
    (∃ s h, State.hart s = some h ∧ ∃ p s1, pageForm .load (h.sreg s.curStream 1) true false s = .ok p s1 ∧ ∃ r s2, formRecord p s1 = .ok r s2 ∧
      (s2.curStream = s.curStream ∧ s2.behindHeld (s2.actor h s.curStream) (.pa r.addr) 16 = false) ∧ s2.hart = some h ∧
      ∃ b s4, putFrameRec { r with pins := min (r.pins + 1) 65535 } s2 = .ok b s4 ∧ r.count = 1 ∧ s4.hart = some h) ∧
    (∃ s h, State.hart s = some h ∧ ∃ p s1, pageForm .load (h.sreg s.curStream 1) true false s = .ok p s1 ∧ ∃ r s2, formRecord p s1 = .ok r s2 ∧
      (s2.curStream = s.curStream ∧ s2.behindHeld (s2.actor h s.curStream) (.pa r.addr) 16 = false) ∧ s2.hart = some h ∧
      ∃ b s4, putFrameRec { r with pins := r.pins - 1 } s2 = .ok b s4 ∧ r.pins = 0 ∧ s4.hart = some h) ∧
    (∃ s h, State.hart s = some h ∧ ∃ a s1, commitStart 1 false s = .ok a s1 ∧ a = none ∧ ∃ g, s1.hart = some g ∧ g.xpc = h.xpc) ∧
    (∃ s h, State.hart s = some h ∧ ∃ a s1, commitStart 1 true s = .ok a s1 ∧ a = none ∧ ∃ g, s1.hart = some g ∧ g.xpc = h.xpc) :=
  ⟨⟨paged 1 (onX pageHart), pageHart, rfl, free_of_none rfl rfl rfl,
      okE _ (fun _ _ => andE _ (isE _ (okE _ fun _ _ => okE _ fun _ _ => andE _ (okE _ fun _ _ => last)))) (by decide +kernel)⟩,
   ⟨poke [(0x1C000, 16, testLeaf 0x20000 + 3 * 2 ^ 13), (0x50020, 16, 1 + 2 ^ 51)] (paged 1 (onX pageHart)), pageHart, rfl, free_of_none rfl rfl rfl,
      okE _ (fun _ _ => andE _ (isE _ (okE _ fun _ _ => okE _ fun _ _ => andE _ (okE _ fun _ _ => last)))) (by decide +kernel)⟩,
   ⟨paged 1 (onX pageHart), pageHart, rfl, okE _ (fun _ _ => okE _ fun _ _ => andE _ (isE _ (okE _ fun _ _ => andE _ isL))) (by decide +kernel)⟩,
   ⟨paged 1 (onX pageHart), pageHart, rfl, okE _ (fun _ _ => okE _ fun _ _ => andE _ (isE _ (okE _ fun _ _ => andE _ isL))) (by decide +kernel)⟩,
   ⟨paged 1 (onX pageHart), pageHart, rfl, okE _ (fun _ _ => andE _ (hartE _ fun _ => last)) (by decide +kernel)⟩,
   ⟨paged 1 (onX pageHart), pageHart, rfl, okE _ (fun _ _ => andE _ (hartE _ fun _ => last)) (by decide +kernel)⟩⟩

/-- PageFormsComplete: a private commit into the page's own frame; one whose frame is shared, with an empty ring, and with a ring whose entry was given
twice; and a published commit. -/
theorem witness_PageFormsComplete_commits :
    (∃ s h, State.hart s = some h ∧ ∃ x s1, commitStart 1 false s = .ok (some x) s1 ∧ ∃ r s2, frameRec x.1.frame s1 = .ok (some r) s2 ∧ r.count ≤ 1 ∧
      ∃ a s3, mergeLines x.1.leaf.addr x.1.req.key x.2 r.key x.1.frame s2 = .ok a s3 ∧ ∃ b s9, emptyOverlay x.2 s3 = .ok b s9 ∧ ∃ g, s9.hart = some g ∧ g.xpc = h.xpc) ∧
    (∃ s h, State.hart s = some h ∧ ∃ x s1, commitStart 1 false s = .ok (some x) s1 ∧ ∃ r s2, frameRec x.1.frame s1 = .ok (some r) s2 ∧ 1 < r.count ∧
      ∃ b s3, awaitEntry x.1.leaf.addr 16 s2 = .ok b s3 ∧ ∃ a s4, take (homeSlice x.1.frame / 32) s3 = .ok a s4 ∧ a = none) ∧
    (∃ s h, State.hart s = some h ∧ ∃ x s1, commitStart 1 false s = .ok (some x) s1 ∧ ∃ r s2, frameRec x.1.frame s1 = .ok (some r) s2 ∧ 1 < r.count ∧
      ∃ b s3, awaitEntry x.1.leaf.addr 16 s2 = .ok b s3 ∧ ∃ e s4, take (homeSlice x.1.frame / 32) s3 = .ok (some e) s4 ∧ e / 2 ^ 16 % 2 ^ 36 * 2 ^ 16 = 0x80000 ∧
      ∃ c s5, (do
        hold x.1.leaf.addr e 0x80000
        takeRecord x.1.leaf.addr 0x80000 { r with count := 1, pins := 0, moving := false, owner := x.1.leaf.addr }) s4 = .ok c s5 ∧
      ∃ d s6, each ((List.range 256).filter fun i => !x.2.v.testBit i) (fun i =>
        copyHeld (x.1.leaf.addr, x.1.frame) (x.1.leaf.addr, 0x80000) r.key (x.1.frame + 256 * i) r.key (0x80000 + 256 * i) 256) s5 = .ok d s6 ∧
      ∃ f s7, mergeLines x.1.leaf.addr x.1.req.key x.2 r.key 0x80000 s6 = .ok f s7 ∧ ∃ k s8, putFrameRec { r with count := r.count - 1 } s7 = .ok k s8 ∧
      ∃ l s9, (do
        putLeaf x.1.leaf 0x80000 0 true
        emptyOverlay x.2) s8 = .ok l s9 ∧ ∃ g, s9.hart = some g ∧ g.xpc = h.xpc) ∧
    (∃ s h, State.hart s = some h ∧ ∃ x s1, commitStart 1 true s = .ok (some x) s1 ∧ ∃ fk s2, frameKey x.1.req.key x.1.frame s1 = .ok fk s2 ∧ s2.hart = some h ∧
      ∃ a s3, each ((List.range 256).filter fun i => x.2.v.testBit i) (fun i => do
        copyHeldBy copyHome (x.2.addr, x.2.ext) (x.1.leaf.addr, x.1.frame) x.1.req.key (x.2.ext + 256 * popcountN x.2.v i) fk (x.1.frame + 256 * i) 256
        dropFor h.asid (sectorsOf (x.1.frame + 256 * i) 256)) s2 = .ok a s3 ∧ ∃ b s4, emptyOverlay x.2 s3 = .ok b s4 ∧ ∃ g, s4.hart = some g ∧ g.xpc = h.xpc) :=
  ⟨⟨paged 1 (overlaid true (onX pageHart)), pageHart, rfl,
    someE _ (fun _ _ => someE _ fun _ _ => andE _ (okE _ fun _ _ => okE _ fun _ _ => hartE _ fun _ => last)) (by decide +kernel)⟩,
   ⟨poke [(0x40098, 8, 0)] (paged 2 (overlaid true (onX pageHart))), pageHart, rfl,
    someE _ (fun _ _ => someE _ fun _ _ => andE _ (okE _ fun _ _ => okE _ fun _ _ => last)) (by decide +kernel)⟩,
   ⟨{ paged 2 (overlaid true (onX pageHart)) with taken := [{ base := 0x80000, len := 2 ^ 16 }] }, pageHart, rfl,
    someE _ (fun _ _ => someE _ fun _ _ => andE _ (okE _ fun _ _ => someE _ fun _ _ => andE _ (okE _ fun _ _ => okE _ fun _ _ => okE _ fun _ _ =>
      okE _ fun _ _ => okE _ fun _ _ => hartE _ fun _ => last))) (by decide +kernel)⟩,
   ⟨paged 1 (overlaid true (onX pageHart)), pageHart, rfl,
    someE _ (fun _ _ => okE _ fun _ _ => isE _ (okE _ fun _ _ => okE _ fun _ _ => hartE _ fun _ => last)) (by decide +kernel)⟩⟩

/-- PageFormsComplete: discards of a page without O, of an empty overlay, and of one that holds a line, without and with a page control
block. -/
theorem witness_PageFormsComplete_discards :
    (∃ s h, State.hart s = some h ∧ ∃ p s2, pageForm .load (h.sreg s.curStream 1) true false s = .ok p s2 ∧ p.leaf.o = false ∧
      ∃ g, s2.hart = some g ∧ g.xpc = h.xpc) ∧
    (∃ s h, State.hart s = some h ∧ ∃ p s2, pageForm .load (h.sreg s.curStream 1) true false s = .ok p s2 ∧ p.leaf.o = true ∧
      ∃ o s3, readOverlay p.leaf.ovr s2 = .ok o s3 ∧ (o.consistent = true ∧ o.v = 0 ∧ s3.pcb = none) ∧ ∃ g, s3.hart = some g ∧ g.xpc = h.xpc) ∧
    (∃ s h, State.hart s = some h ∧ ∃ p s2, pageForm .load (h.sreg s.curStream 1) true false s = .ok p s2 ∧ p.leaf.o = true ∧
      ∃ o s3, readOverlay p.leaf.ovr s2 = .ok o s3 ∧ (o.consistent = true ∧ o.v ≠ 0 ∧ s3.pcb = none) ∧ ∃ g, s3.hart = some g ∧ g.xpc = h.xpc) ∧
    (∃ s h, State.hart s = some h ∧ ∃ p s2, pageForm .load (h.sreg s.curStream 1) true false s = .ok p s2 ∧ p.leaf.o = true ∧
      ∃ o s3, readOverlay p.leaf.ovr s2 = .ok o s3 ∧ (o.consistent = true ∧ o.cc ≠ 0 ∧ s3.pcb ≠ none) ∧
      ∃ b s4, (do
        if o.cc ≠ 0 then give o.addr (7 + o.cc) o.ext else pure ()
        ({ o with v := 0, ext := 0, cc := 0, count := 0 } : Overlay).put) s3 = .ok b s4 ∧ ∃ g, s4.hart = some g ∧ g.xpc = h.xpc) :=
  ⟨⟨onX pageHart, pageHart, rfl, okE _ (fun _ _ => andE _ (hartE _ fun _ => last)) (by decide +kernel)⟩,
   ⟨overlaid false (onX pageHart), pageHart, rfl, okE _ (fun _ _ => andE _ (okE _ fun _ _ => andE _ (hartE _ fun _ => last))) (by decide +kernel)⟩,
   ⟨overlaid true (onX pageHart), pageHart, rfl, okE _ (fun _ _ => andE _ (okE _ fun _ _ => andE _ (hartE _ fun _ => last))) (by decide +kernel)⟩,
   ⟨paged 1 (overlaid true (onX pageHart)), pageHart, rfl,
    okE _ (fun _ _ => andE _ (okE _ fun _ _ => andE _ (okE _ fun _ _ => hartE _ fun _ => last))) (by decide +kernel)⟩⟩

/-- PageFormsComplete: queries of a doubleword of a bitmap, of the record, and of a page without O; and sums of a count that fit and
that do not, and one that S1 holds. -/
theorem witness_PageFormsComplete_queries :
    (∃ s h, State.hart s = some h ∧ (h.sreg s.curStream 2).toNat % 8 = 3 ∧ ∃ p s2, pageForm .load (h.sreg s.curStream 1) false true s = .ok p s2 ∧
      (s2.curStream = s.curStream ∧ inPeer p.leaf.frame = false ∧ p.leaf.o = true) ∧ s2.hart = some h ∧
      ∃ o s3, readOverlay p.leaf.ovr s2 = .ok o s3 ∧ o.consistent = true) ∧
    (∃ s h, State.hart s = some h ∧ (h.sreg s.curStream 2).toNat % 8 = 4 ∧ ∃ p s2, pageForm .load (h.sreg s.curStream 1) false true s = .ok p s2 ∧
      (inPeer p.leaf.frame = false ∧ p.leaf.o = true) ∧ s2.hart = some h ∧
      ∃ o s3, readOverlay p.leaf.ovr s2 = .ok o s3 ∧ o.consistent = true ∧ ∃ r s4, frameRec p.frame s3 = .ok (some r) s4 ∧ r.count = 1) ∧
    (∃ s h, State.hart s = some h ∧ (h.sreg s.curStream 2).toNat % 8 = 4 ∧ ∃ p s2, pageForm .load (h.sreg s.curStream 1) false true s = .ok p s2 ∧
      (inPeer p.leaf.frame = false ∧ p.leaf.o = false) ∧ s2.hart = some h ∧ ∃ r s3, frameRec p.frame s2 = .ok (some r) s3 ∧ r.count = 1) ∧
    (∃ s h, State.hart s = some h ∧ ∃ p s1, pageAt .load (h.sreg s.curStream 1) false s = .ok p s1 ∧ ∃ r1 s2, formRecord p s1 = .ok r1 s2 ∧
      (s2.curStream = s.curStream ∧ s2.level = .s2) ∧ ∃ b s3, settle s.curStream .fab s2 = .ok b s3 ∧
      ∃ p s4, pageForm .load (h.sreg s.curStream 1) true false s3 = .ok p s4 ∧
      ∃ r s5, formRecord p s4 = .ok r s5 ∧ ((r.count : Int) + (h.sreg s.curStream 2).toInt = 0xFFFFFFFF ∧ s5.curStream = s.curStream ∧
        s5.behindHeld (s5.actor h s.curStream) (.pa r.addr) 4 = false) ∧ s5.hart = some h ∧
      ∃ x s6, dropOwn s5.curSlot (.pa r.addr) 4 s5 = .ok x s6 ∧
      ∃ c s7, putFrameRec { r with count := 0xFFFFFFFF } s6 = .ok c s7 ∧ s7.curStream = s.curStream ∧ s7.hart = some h) ∧
    (∃ s h, State.hart s = some h ∧ ∃ p s1, pageAt .load (h.sreg s.curStream 1) false s = .ok p s1 ∧ ∃ r1 s2, formRecord p s1 = .ok r1 s2 ∧
      s2.curStream = s.curStream ∧ ∃ p s4, pageForm .load (h.sreg s.curStream 1) true false s2 = .ok p s4 ∧
      ∃ r s5, formRecord p s4 = .ok r s5 ∧ ((r.count : Int) + (h.sreg s.curStream 2).toInt = 0x100000000 ∧ s5.curStream = s.curStream ∧
        s5.behindHeld (s5.actor h s.curStream) (.pa r.addr) 4 = false) ∧ s5.hart = some h ∧
      ∃ x s6, dropOwn s5.curSlot (.pa r.addr) 4 s5 = .ok x s6 ∧ s6.curStream = s.curStream ∧ s6.hart = some h) ∧
    (∃ s h, State.hart s = some h ∧ ∃ p s1, pageAt .load (h.sreg s.curStream 1) false s = .ok p s1 ∧ ∃ r1 s2, formRecord p s1 = .ok r1 s2 ∧
      (s2.curStream = s.curStream ∧ s2.level ≠ .s2) ∧ ∃ p s4, pageForm .load (h.sreg s.curStream 1) true false s2 = .ok p s4 ∧
      ∃ r s5, formRecord p s4 = .ok r s5 ∧ (s5.curStream = s.curStream ∧ r.count = 1) ∧ s5.hart = some h) :=
  ⟨⟨overlaid true (onX (setRegs [(2, 3)] pageHart)), setRegs [(2, 3)] pageHart, rfl, by decide,
    okE _ (fun _ _ => andE _ (isE _ (okE _ fun _ _ => last))) (by decide +kernel)⟩,
   ⟨paged 1 (overlaid true (onX (setRegs [(2, 4)] pageHart))), setRegs [(2, 4)] pageHart, rfl, by decide,
    okE _ (fun _ _ => andE _ (isE _ (okE _ fun _ _ => andE _ (someE _ fun _ _ => last)))) (by decide +kernel)⟩,
   ⟨paged 1 (onX (setRegs [(2, 4)] pageHart)), setRegs [(2, 4)] pageHart, rfl, by decide,
    okE _ (fun _ _ => andE _ (isE _ (someE _ fun _ _ => last))) (by decide +kernel)⟩,
   ⟨paged 1 (onX (setRegs [(2, 0xFFFFFFFE)] pageHart)), setRegs [(2, 0xFFFFFFFE)] pageHart, rfl,
    okE _ (fun _ _ => okE _ fun _ _ => andE _ (okE _ fun _ _ => okE _ fun _ _ => okE _ fun _ _ => andE _ (isE _ (okE _ fun _ _ => okE _ fun _ _ => andE _ isL))))
      (by decide +kernel)⟩,
   ⟨paged 1 (onX (setRegs [(2, 0xFFFFFFFF)] pageHart)), setRegs [(2, 0xFFFFFFFF)] pageHart, rfl,
    okE _ (fun _ _ => okE _ fun _ _ => andE _ (okE _ fun _ _ => okE _ fun _ _ => andE _ (isE _ (okE _ fun _ _ => andE _ isL)))) (by decide +kernel)⟩,
   ⟨{ paged 1 (onX pageHart) with level := .s1 }, pageHart, rfl,
    okE _ (fun _ _ => okE _ fun _ _ => andE _ (okE _ fun _ _ => okE _ fun _ _ => andE _ isL)) (by decide +kernel)⟩⟩

/-- A hart whose access stream names the destination record at 0x1000 and the source record at 0x1040. -/
def copyHart : Hart := setRegs [(1, lsAt 0x1000), (2, lsAt 0x1040)] plainHart

/-- TransferFormsComplete: a full window; misaligned records; and a copy that starts. -/
theorem witness_TransferFormsComplete_copies :
    (let h : Hart := { copyHart with transfers := List.replicate 15 wide }
     (onA h).hart = some h ∧ (onA h).curStream = .a ∧ 15 ≤ h.transfers.length + h.records.length) ∧
    (let h := setRegs [(2, lsAt 0x1041)] copyHart
     (onA h).hart = some h ∧ h.transfers.length + h.records.length < 15 ∧ (h.sreg .a 1).toNat % 64 = 0 ∧ (h.sreg .a 2).toNat % 64 ≠ 0) ∧
    (let h := copyHart
     ∃ s, State.hart s = some h ∧ s.curStream = .a ∧ ∃ db s1, recordCached (h.sreg .a 1) s = .ok db s1 ∧ ∃ sb s2, recordCached (h.sreg .a 2) s1 = .ok sb s2 ∧
       ∃ d, Layout.parse (h.sreg .a 1) db = some d ∧ ∃ l, Layout.parse (h.sreg .a 2) sb = some l ∧
       (copyBad 0 d l = none ∧ d.misaligned = none ∧ l.misaligned = none ∧
         s2.tableUsed (coreOfSlot s2.curSlot) + (d.ranges true ++ l.ranges false).length ≤ 64) ∧ s2.hart = some h ∧
       ∃ a s3, drainHart h.slot s2 = .ok a s3 ∧ s3.curStream = .a ∧ s3.hart = some h) :=
  ⟨⟨rfl, rfl, by decide⟩, ⟨rfl, by decide, by decide, by decide⟩, sparse (onA copyHart), rfl, rfl,
   okE _ (fun _ _ => okE _ fun _ _ => optE _ fun _ => optE _ fun _ => andE _ (isE _ (okE _ fun _ _ => andE _ isL))) (by decide +kernel)⟩

/-- A record of a hart with a tag. -/
def tagged (tag : Nat) : Record := { w0 := BitVec.ofNat 64 (tag + 3 * 2 ^ 32), w1 := 1, w2 := 2, w3 := 3 }

/-- TransferFormsComplete: a move that starts, below S2; a compaction; the fence of the record cache; and records that match and do not. -/
theorem witness_TransferFormsComplete_others :
    (∃ s, State.hart s = some pageHart ∧ s.curStream = .a ∧ ∃ p s1, pageAt .load (pageHart.sreg .a 1) false s = .ok p s1 ∧
      (s1.curStream = .a ∧ s1.level ≠ .s2) ∧ s1.hart = some pageHart) ∧
    (let h := setRegs [(2, lsAt 0x40)] pageHart
     ∃ s, State.hart s = some h ∧ s.curStream = .a ∧ (h.sreg .a 2).toNat % 16 = 0 ∧ s.free h (h.sreg .a 2) 16 false ∧
       ∃ bm s1, (s.actor h .a).load .home (h.sreg .a 2) 8 (some false) s = .ok bm s1 ∧ (bm % 8 = 0 ∧ bm < 2 ^ 64) ∧
       ∃ keep s2, (s.actor h .a).load .home (h.sreg .a 2 + 8) 8 (some false) s1 = .ok keep s2 ∧
       ∃ p s3, pageAt .store (h.sreg .a 1) false s2 = .ok p s3 ∧ s3.tableUsed (coreOfSlot s3.curSlot) + 2 ≤ 64 ∧ s3.hart = some h ∧
       ∃ a s4, drainHart h.slot s3 = .ok a s4 ∧ s4.curStream = .a ∧ s4.hart = some h) ∧
    (∃ s, State.hart s = some pageHart ∧ s.curStream = .a ∧ ∃ a s1, settle .a .dev s = .ok a s1 ∧ ∃ g, s1.hart = some g ∧ g.apc = pageHart.apc) ∧
    (let h : Hart := { setRegs [(1, 5)] plainHart with records := [tagged 4, tagged 5] }
     (onX h).hart = some h ∧ h.records.find? (fun r => decide ((h.sreg .x 1).toNat % 2 ^ 32 = 0xFFFFFFFF) ||
       decide (r.w0.toNat % 2 ^ 32 = (h.sreg .x 1).toNat % 2 ^ 32)) = some (tagged 5)) ∧
    (let h : Hart := { setRegs [(1, 6)] plainHart with records := [tagged 4, tagged 5] }
     (onX h).hart = some h ∧ h.records.find? (fun r => decide ((h.sreg .x 1).toNat % 2 ^ 32 = 0xFFFFFFFF) ||
       decide (r.w0.toNat % 2 ^ 32 = (h.sreg .x 1).toNat % 2 ^ 32)) = none) :=
  ⟨⟨{ onA pageHart with level := .s1 }, rfl, rfl, okE _ (fun _ _ => andE _ isL) (by decide +kernel)⟩,
   ⟨place [(0x40, 8, BitVec.toNat (BitVec.ofNat 64 (lsAt 0x80)))] (onA (setRegs [(2, lsAt 0x40)] pageHart)), rfl, rfl, by decide, free_of_none rfl rfl rfl _ _ _,
    okE _ (fun _ _ => andE _ (okE _ fun _ _ => okE _ fun _ _ => andE _ (isE _ (okE _ fun _ _ => andE _ isL)))) (by decide +kernel)⟩,
   ⟨onA pageHart, rfl, rfl, okE _ (fun _ _ => hartE _ fun _ => last) (by decide +kernel)⟩,
   ⟨rfl, by decide⟩, ⟨rfl, by decide⟩⟩

/-- The tier that a move goes to. -/
def goalOf (promote : Bool) (w : Word64) : M (Option Nat) :=
  if promote = true then pure (some 0) else if w.toNat % 8 = 1 ∨ w.toNat % 8 = 2 then pure (some (w.toNat % 8)) else demotionTier

/-- A hart's move of its page in S2 is accepted, with a page control block and no earlier transfer, and what the device then reads meets P: the leaf,
the goal, and the frame's record. -/
def MoveMeets (s : State) (h : Hart) (promote : Bool) (P : Leaf → Option Nat → Option FrameRec → State → Prop) : Prop :=
  let v := h.sreg .a 1
  s.hart = some h ∧ s.curStream = .a ∧ h.transfers = [] ∧ h.records = [] ∧ ∃ p s1, pageAt .load v false s = .ok p s1 ∧
    (s1.curStream = .a ∧ s1.level = .s2 ∧ s1.portDown p.leaf.frame = false ∧ s1.pcb ≠ none ∧ s1.cxl = s.cxl) ∧ s1.hart = some h ∧
    ∃ c, SMap.get? s1.contexts h.asid = some c ∧
    ∃ l u1, walk c.root v.toNat ({ s1 with nextId := s1.nextId + 1 }.putHart
      ((h.issued s1.nextId 5 (if promote then 3 else 4) [] (.move promote v (h.sreg .a 2) p.leaf.frame p.leaf.tier)).advance .a)) = .ok (.leaf l) u1 ∧
    (l.frame = p.leaf.frame ∧ l.tier = p.leaf.tier) ∧
    ∃ want u2, goalOf promote (h.sreg .a 2) u1 = .ok want u2 ∧ ∃ o u3, frameRec l.frame u2 = .ok o u3 ∧ P l want o u3

/-- A test for it. -/
theorem moveE {s : State} {h : Hart} {promote : Bool} {P : Leaf → Option Nat → Option FrameRec → State → Prop}
    (p : Leaf → Option Nat → Option FrameRec → State → Bool) (hp : ∀ l w o u, p l w o u = true → P l w o u) (eh : s.hart = some h)
    (e : (decide (s.curStream = .a ∧ h.transfers = [] ∧ h.records = []) && okWith (pageAt .load (h.sreg .a 1) false) s fun q s1 =>
      decide (s1.curStream = .a ∧ s1.level = .s2 ∧ s1.portDown q.leaf.frame = false ∧ s1.pcb ≠ none ∧ s1.cxl = s.cxl) &&
      (hartWith s1 (same · h) && optWith (SMap.get? s1.contexts h.asid) fun c =>
      leafWith (walk c.root (h.sreg .a 1).toNat) ({ s1 with nextId := s1.nextId + 1 }.putHart
        ((h.issued s1.nextId 5 (if promote then 3 else 4) [] (.move promote (h.sreg .a 1) (h.sreg .a 2) q.leaf.frame q.leaf.tier)).advance .a)) fun l u1 =>
      decide (l.frame = q.leaf.frame ∧ l.tier = q.leaf.tier) &&
      okWith (goalOf promote (h.sreg .a 2)) u1 fun w u2 => okWith (frameRec l.frame) u2 fun o u3 => p l w o u3)) = true) :
    MoveMeets s h promote P := by
  obtain ⟨⟨a, b, c⟩, d⟩ := andE _ (fun x => x) e
  exact ⟨eh, a, b, c, okE _ (fun _ _ => andE _ (isE _ (optE _ fun _ => leafE _ fun _ _ => andE _ (okE _ fun _ _ => okE _ fun _ _ => hp _ _ _ _)))) d⟩

/-- The test's page in a tier, with a record for its frame. -/
def tiered (tier r : Nat) (s : State) : State := poke [(0x1C000, 16, testLeaf 0x20000 + tier * 2 ^ 13), (0x50020, 16, r)] (paged 1 s)

/-- A CXL port of the test's die that is up. -/
def cxlUp (s : State) : State := { s with cxl := Vector.replicate 4 .up }

/-- TransferFormsComplete: moves in S2: behind a port that is not up; with no page control block; of a large page; with a
bad tier to go to; of a frozen page; of one that is there; of one in a move; of one that is shared, or pinned. -/
theorem witness_TransferFormsComplete_moves :
    (∃ s, State.hart s = some pageHart ∧ s.curStream = .a ∧ ∃ p s1, pageAt .load (pageHart.sreg .a 1) false s = .ok p s1 ∧
      (s1.curStream = .a ∧ s1.level = .s2 ∧ s1.portDown p.leaf.frame = true) ∧ s1.hart = some pageHart) ∧
    (∃ s, State.hart s = some pageHart ∧ s.curStream = .a ∧ pageHart.transfers = [] ∧ ∃ p s1, pageAt .load (pageHart.sreg .a 1) false s = .ok p s1 ∧
      (s1.curStream = .a ∧ s1.level = .s2 ∧ s1.portDown p.leaf.frame = false ∧ s1.pcb = none) ∧ s1.hart = some pageHart) ∧
    (∃ s, MoveMeets s pageHart true fun l _ _ _ => l.size ≠ 2 ^ 16) ∧
    (∃ s, MoveMeets s pageHart false fun l want o _ => l.size = 2 ^ 16 ∧ want = none ∧ o ≠ none) ∧
    (∃ s, MoveMeets s pageHart true fun l want o _ => (l.size = 2 ^ 16 ∧ want = some 0) ∧ ∃ r, o = some r ∧ r.frozen = true) ∧
    (∃ s, MoveMeets s pageHart true fun l want o _ => (l.size = 2 ^ 16 ∧ want = some l.tier) ∧ ∃ r, o = some r ∧ r.frozen = false) ∧
    (∃ s, MoveMeets s pageHart true fun l want o _ => (l.size = 2 ^ 16 ∧ want = some 0 ∧ l.tier = 3) ∧ ∃ r, o = some r ∧ r.frozen = false) ∧
    (∃ s, MoveMeets s pageHart true fun l want o _ => (l.tier = 2 ∧ want = some 0) ∧ ∃ r, o = some r ∧ r.count = 2 ∧ r.frozen = false) ∧
    (∃ s, MoveMeets s pageHart false fun l want o _ => (l.tier = 0 ∧ want = some 1) ∧ ∃ r, o = some r ∧ r.count = 1 ∧ r.frozen = false ∧ r.pins ≠ 0) :=
  ⟨⟨poke [(0x1C000, 16, testLeaf (2 ^ 48) + 2 * 2 ^ 13)] (onA pageHart), rfl, rfl, okE _ (fun _ _ => andE _ isL) (by decide +kernel)⟩,
   ⟨onA pageHart, rfl, rfl, rfl, okE _ (fun _ _ => andE _ isL) (by decide +kernel)⟩,
   ⟨poke [(0x1C000, 16, testLeaf 0x200000 + 4)] (paged 1 (onA pageHart)), moveE _ (fun _ _ _ _ => last) rfl (by decide +kernel)⟩,
   ⟨poke [(0x40018, 8, 0)] (tiered 0 1 (onA pageHart)), moveE _ (fun _ _ _ _ => last) rfl (by decide +kernel)⟩,
   ⟨tiered 2 (1 + 2 ^ 50) (onA pageHart), moveE _ (fun _ _ _ _ => andE _ (optE _ fun _ => last)) rfl (by decide +kernel)⟩,
   ⟨tiered 0 1 (onA pageHart), moveE _ (fun _ _ _ _ => andE _ (optE _ fun _ => last)) rfl (by decide +kernel)⟩,
   ⟨tiered 3 (1 + 2 ^ 51) (onA pageHart), moveE _ (fun _ _ _ _ => andE _ (optE _ fun _ => last)) rfl (by decide +kernel)⟩,
   ⟨tiered 2 2 (onA pageHart), moveE _ (fun _ _ _ _ => andE _ (optE _ fun _ => last)) rfl (by decide +kernel)⟩,
   ⟨tiered 0 (1 + 2 ^ 32) (onA pageHart), moveE _ (fun _ _ _ _ => andE _ (optE _ fun _ => last)) rfl (by decide +kernel)⟩⟩

/-- TransferFormsComplete: moves in S2 of a page that may move: busy; with an empty ring; down to a port that is not up; and one that gets under way,
up and down. -/
theorem witness_TransferFormsComplete_starts :
    (∃ s, MoveMeets s pageHart false fun l want o u => (l.tier = 0 ∧ want = some 1) ∧ ∃ r, o = some r ∧ (r.count = 1 ∧ r.frozen = false ∧ r.pins = 0) ∧
      ∃ b u4, busyLeaf l.addr u = .ok b u4 ∧ b = true ∧ ∃ n u5, take (4 + dieOfFrame l.frame) u4 = .ok n u5 ∧ n ≠ none) ∧
    (∃ s, MoveMeets s pageHart true fun l want o u => (l.tier = 2 ∧ want = some 0) ∧ ∃ r, o = some r ∧ (r.count = 1 ∧ r.frozen = false) ∧
      ∃ b u4, busyLeaf l.addr u = .ok b u4 ∧ ∃ n u5, take (homeSlice l.frame / 32) u4 = .ok n u5 ∧ n = none) ∧
    (∃ s, MoveMeets s pageHart false fun l want o u => (l.tier = 0 ∧ want = some 1 ∧ s.cxl.getD (dieOfFrame l.frame) .untrained ≠ .up) ∧
      ∃ r, o = some r ∧ (r.count = 1 ∧ r.frozen = false ∧ r.pins = 0) ∧
      ∃ b u4, busyLeaf l.addr u = .ok b u4 ∧ b = false ∧ ∃ n u5, take (4 + dieOfFrame l.frame) u4 = .ok n u5 ∧ n ≠ none) ∧
    (∃ s, MoveMeets s pageHart true fun l want o u => (l.tier = 2 ∧ want = some 0) ∧ ∃ r, o = some r ∧ (r.count = 1 ∧ r.frozen = false) ∧
      ∃ b u4, busyLeaf l.addr u = .ok b u4 ∧ ∃ n u5, take (homeSlice l.frame / 32) u4 = .ok n u5 ∧ n ≠ none ∧
      ∃ a u6, awaitEntry l.addr 16 u4 = .ok a u6 ∧ ∃ x u7, take (homeSlice l.frame / 32) u6 = .ok (some x) u7 ∧ x / 2 ^ 16 % 2 ^ 36 * 2 ^ 16 = 0x80000 ∧
      ∃ y u8, (do
        hold l.addr x 0x80000
        putFrameRec { r with moving := true }) u7 = .ok y u8 ∧
      ∃ z u9, putLeaf l l.frame 3 l.a u8 = .ok z u9 ∧ ∃ g, u9.hart = some g ∧ g.tagCtr = 1) ∧
    (∃ s, MoveMeets s pageHart false fun l want o u => (l.tier = 0 ∧ want = some 1 ∧ s.cxl.getD (dieOfFrame l.frame) .untrained = .up) ∧
      ∃ r, o = some r ∧ (r.count = 1 ∧ r.frozen = false ∧ r.pins = 0) ∧
      ∃ b u4, busyLeaf l.addr u = .ok b u4 ∧ b = false ∧ ∃ n u5, take (4 + dieOfFrame l.frame) u4 = .ok n u5 ∧ n ≠ none ∧
      ∃ a u6, awaitEntry l.addr 16 u4 = .ok a u6 ∧ ∃ x u7, take (4 + dieOfFrame l.frame) u6 = .ok (some x) u7 ∧ x / 2 ^ 16 % 2 ^ 36 * 2 ^ 16 = 2 ^ 48 ∧
      ∃ y u8, (do
        hold l.addr x (2 ^ 48)
        putFrameRec { r with moving := true }) u7 = .ok y u8 ∧
      ∃ z u9, putLeaf l l.frame 4 l.a u8 = .ok z u9 ∧ ∃ g, u9.hart = some g ∧ g.tagCtr = 1) :=
  ⟨⟨State.modCore (tiered 0 1 (onA pageHart)) 0 (fun c => { c with prefetches := [{ sector := 0x1000, leaf := 0x1C000, key := 0, toL1 := true }] }),
    moveE _ (fun _ _ _ _ => andE _ (optE _ fun _ => andE _ (okE _ fun _ _ => andE _ (okE _ fun _ _ => last)))) rfl (by decide +kernel)⟩,
   ⟨poke [(0x40098, 8, 0)] (tiered 2 1 (onA pageHart)),
    moveE _ (fun _ _ _ _ => andE _ (optE _ fun _ => andE _ (okE _ fun _ _ => okE _ fun _ _ => last))) rfl (by decide +kernel)⟩,
   ⟨tiered 0 1 (onA pageHart),
    moveE _ (fun _ _ _ _ => andE _ (optE _ fun _ => andE _ (okE _ fun _ _ => andE _ (okE _ fun _ _ => last)))) rfl (by decide +kernel)⟩,
   ⟨tiered 2 1 (onA pageHart), moveE _ (fun _ _ _ _ => andE _ (optE _ fun _ => andE _ (okE _ fun _ _ => okE _ fun _ _ => andE _ (okE _ fun _ _ =>
     someE _ fun _ _ => andE _ (okE _ fun _ _ => okE _ fun _ _ => hartE _ fun _ => last))))) rfl (by decide +kernel)⟩,
   ⟨cxlUp (tiered 0 1 (onA pageHart)), moveE _ (fun _ _ _ _ => andE _ (optE _ fun _ => andE _ (okE _ fun _ _ => andE _ (okE _ fun _ _ => andE _
     (okE _ fun _ _ => someE _ fun _ _ => andE _ (okE _ fun _ _ => okE _ fun _ _ => hartE _ fun _ => last)))))) rfl (by decide +kernel)⟩⟩

/-- TransferFormsComplete: a move behind another of the same page that has still to begin. -/
theorem witness_TransferFormsComplete_behind :
    let h : Hart := { pageHart with transfers := [{ wide with work := .move true (BitVec.ofNat 64 testVa) 0 0x20000 1, ranges := [] }] }
    let s : State := { onA h with nextId := 2 }
    s.hart = some h ∧ s.curStream = .a ∧ h.transfers.length + h.records.length < 15 ∧ (h.sreg .a 1).toNat / 2 ^ 16 = (BitVec.ofNat 64 testVa).toNat / 2 ^ 16 ∧
      ∃ p s1, pageAt .load (h.sreg .a 1) false s = .ok p s1 ∧
      (s1.curStream = .a ∧ s1.level = .s2 ∧ s1.portDown p.leaf.frame = false ∧ (∀ x ∈ h.transfers, x.id ≠ s1.nextId) ∧ ∀ m ∈ s1.moves, m.id ≠ wide.id) ∧ s1.hart = some h :=
  ⟨rfl, rfl, by decide, by decide, okE _ (fun _ _ => andE _ isL) (by decide +kernel)⟩

/-- A device whose hart has one transfer, and the event that acts on it. -/
def working (w : Work) (args : EvArgs) (s : State) : State :=
  { s with harts := [(0, { plainHart with transfers := [{ wide with work := w, kind := 0 }] })], curEv := args }

/-- The layout of one `i32` element in the local store. -/
def one (off : Nat) : Layout :=
  { addr := BitVec.ofNat 64 (lsAt 0x1000), base := BitVec.ofNat 64 (lsAt off), fmt := .i32, z := false, dims := [1, 1, 1, 1], steps := [4, 4, 4, 4], maskBase := 0 }

/-- A layout that no access reaches. -/
def lost (off : Nat) : Layout := { one off with base := BitVec.ofNat 64 (0x5000000000 + off) }

/-- A layout whose record no access reaches. -/
def gone (off : Nat) : Layout := { one off with addr := 0x5000000000 }

/-- EnginesDoTheirWork: a chunk that is copied, the first of one that overlaps its source, one whose source faults, and copies that have no chunk left,
whose record is there and is not. -/
theorem witness_EnginesDoTheirWork_copies :
    (∃ s h t, State.acts s h t ∧ t.work = .copy 0 (one 0x2000) (one 0x3000) [0] [] 0 ∧
      overlaps ((one 0x2000).ranges true) ((one 0x3000).ranges false) = false ∧
      ∃ a u1, each (chunkUnits 0 (one 0x2000) 0) (copyUnit ((s.engineFor t).engineActor h t) 0 (one 0x2000) (one 0x3000)) (s.engineFor t) = .ok a u1 ∧
        u1.poison = [] ∧ SMap.get? u1.harts s.curEv.a = some h) ∧
    (∃ s h t, State.acts s h t ∧ t.work = .copy 0 (one 0x2000) (one 0x2000) [0] [] 0 ∧ [0].head? = some s.curEv.c ∧
      overlaps ((one 0x2000).ranges true) ((one 0x2000).ranges false) = true) ∧
    (∃ s h t, State.acts s h t ∧ t.work = .copy 0 (one 0x2000) (lost 0) [0] [] 0 ∧
      (∃ c v b k u', each (chunkUnits 0 (one 0x2000) 0) (copyUnit ((s.engineFor t).engineActor h t) 0 (one 0x2000) (lost 0)) (s.engineFor t)
        = .error (.trap c v b k) u') ∧
      ∃ n u1, eachFold (chunkUnits 0 (one 0x2000) 0) 0 (fun n x => do
          let k ← zeroUnit ((s.engineFor t).engineActor h t) 0 (one 0x2000) x
          pure (n + k)) (s.engineFor t) = .ok n u1 ∧ SMap.get? u1.harts s.curEv.a = some h) ∧
    (∃ s h t, State.acts s h t ∧ t.work = .copy 0 (one 0x2000) (one 0x3000) [] [] 32 ∧
      ∃ a u1, ((s.engineFor t).engineActor h t).storeNow ((one 0x2000).addr + 56) 8 0 (some false) none (s.engineFor t) = .ok a u1 ∧
      ∃ b v', postRecord s.curEv.a s.curEv.b 0 false 0 0 0 (one 0x2000).addr 4 u1 = .ok b v' ∧ v'.level = .s2) ∧
    (∃ s h t, State.acts s h t ∧ t.work = .copy 0 (gone 0x2000) (one 0x3000) [] [] 32 ∧
      ∃ c v b k u', ((s.engineFor t).engineActor h t).storeNow ((gone 0x2000).addr + 56) 8 0 (some false) none (s.engineFor t) = .error (.trap c v b k) u') :=
  ⟨⟨working (.copy 0 (one 0x2000) (one 0x3000) [0] [] 0) { a := 0, b := 1, c := 0 } (onX plainHart), _, _, ⟨rfl, rfl, rfl, by decide +kernel⟩, rfl,
     by decide +kernel, okE _ (fun _ _ => andE _ atL) (by decide +kernel)⟩,
   ⟨working (.copy 0 (one 0x2000) (one 0x2000) [0] [] 0) { a := 0, b := 1, c := 0 } (onX plainHart), _, _, ⟨rfl, rfl, rfl, by decide +kernel⟩, rfl, rfl,
     by decide +kernel⟩,
   ⟨working (.copy 0 (one 0x2000) (lost 0) [0] [] 0) { a := 0, b := 1, c := 0 } (onX plainHart), _, _, ⟨rfl, rfl, rfl, by decide +kernel⟩, rfl,
     trapL (by decide +kernel), okE _ (fun _ _ => atL) (by decide +kernel)⟩,
   ⟨working (.copy 0 (one 0x2000) (one 0x3000) [] [] 32) { a := 0, b := 1, c := 0 } (onX plainHart), _, _, ⟨rfl, rfl, rfl, by decide +kernel⟩, rfl,
     okE _ (fun _ _ => okE _ fun _ _ => last) (by decide +kernel)⟩,
   ⟨working (.copy 0 (gone 0x2000) (one 0x3000) [] [] 32) { a := 0, b := 1, c := 0 } (onX plainHart), _, _, ⟨rfl, rfl, rfl, by decide +kernel⟩, rfl,
     trapL (by decide +kernel)⟩⟩

/-- The compaction of the test's page, with its bitmap at 0x80 of the local store. -/
def compacting (s : State) : State := working (.kvc (BitVec.ofNat 64 testVa) (BitVec.ofNat 64 (lsAt 0x80)) 0xFF) { a := 0, b := 1 } s

/-- EnginesDoTheirWork: a compaction of a large page, of a page below CXL, and of one that is at hand. -/
theorem witness_EnginesDoTheirWork_compactions :
    (∃ s h t, State.acts s h t ∧ t.work = .kvc (BitVec.ofNat 64 testVa) (BitVec.ofNat 64 (lsAt 0x80)) 0xFF ∧
      ∃ l u1, walk (((SMap.get? s.contexts h.asid).map Context.root).getD 0) testVa (s.engineFor t) = .ok (.leaf l) u1 ∧ l.size ≠ 2 ^ 16 ∧
      ∃ a v', postRecord s.curEv.a s.curEv.b 5 false 0 8 0 (BitVec.ofNat 64 testVa) 0 u1 = .ok a v' ∧ v'.level = .s2) ∧
    (∃ s h t, State.acts s h t ∧ t.work = .kvc (BitVec.ofNat 64 testVa) (BitVec.ofNat 64 (lsAt 0x80)) 0xFF ∧
      ∃ l u1, walk (((SMap.get? s.contexts h.asid).map Context.root).getD 0) testVa (s.engineFor t) = .ok (.leaf l) u1 ∧ (l.size = 2 ^ 16 ∧ l.tier = 2) ∧
      ∃ a v', postRecord s.curEv.a s.curEv.b 5 false 0x0D 2 0 (BitVec.ofNat 64 testVa) 0 u1 = .ok a v' ∧ v'.level = .s2) ∧
    (∃ s h t, State.acts s h t ∧ t.work = .kvc (BitVec.ofNat 64 testVa) (BitVec.ofNat 64 (lsAt 0x80)) 0xFF ∧
      ∃ l u1, walk (((SMap.get? s.contexts h.asid).map Context.root).getD 0) testVa (s.engineFor t) = .ok (.leaf l) u1 ∧ (l.size = 2 ^ 16 ∧ l.tier ≠ 2) ∧
      ∃ bm u2, ((s.engineFor t).engineActor h t).load .home (BitVec.ofNat 64 (lsAt 0x80)) 8 (some false) u1 = .ok bm u2 ∧
      ∃ a u3, (do
        compactRows ((s.engineFor t).engineActor h t) (BitVec.ofNat 64 testVa) bm (bm &&& 0xFF)
        ((s.engineFor t).engineActor h t).storeNow (BitVec.ofNat 64 (lsAt 0x80)) 8 (bm &&& 0xFF)) u2 = .ok a u3 ∧ u3.level = .s2) :=
  ⟨⟨compacting (poke [(0x1C000, 16, testLeaf 0x200000 + 4)] (onX plainHart)), _, _, ⟨rfl, rfl, rfl, by decide +kernel⟩, rfl,
     leafE _ (fun _ _ => andE _ (okE _ fun _ _ => last)) (by decide +kernel)⟩,
   ⟨compacting (poke [(0x1C000, 16, testLeaf 0x20000 + 2 * 2 ^ 13)] (onX plainHart)), _, _, ⟨rfl, rfl, rfl, by decide +kernel⟩, rfl,
     leafE _ (fun _ _ => andE _ (okE _ fun _ _ => last)) (by decide +kernel)⟩,
   ⟨compacting (onX plainHart), _, _, ⟨rfl, rfl, rfl, by decide +kernel⟩, rfl,
     leafE _ (fun _ _ => andE _ (okE _ fun _ _ => okE _ fun _ _ => last)) (by decide +kernel)⟩⟩

/-- A pass over the test's page, with its page array and bitmaps in it. -/
def passOf (nblk : Nat) (fates : List BlockFate) : Pass :=
  { recAddr := 0, pages := BitVec.ofNat 64 (testVa + 0x100), maps := BitVec.ofNat 64 (testVa + 0x200), nblk := nblk, kvf := .bf16, hd := 64, kvh := 0, nr := 1, nh := 1
    hb := 0, scale := 0, qpos := 0, dst := 0x800, consts := [], prog := [], queries := [List.replicate 64 0], pc := 0, fates := fates, running := [] }

/-- A device whose hart has a pass, with no line of its own, behind other transfers. -/
def passing (before : List Transfer) (p : Pass) (args : EvArgs) (s : State) : State :=
  { s with harts := [(0, { plainHart with transfers := before ++ [{ wide with work := .pass p, kind := 6, stream := .x, ranges := [] }] })], curEv := args }

/-- EnginesDoTheirWork: a pass dispatches a block without a page, one of a page that is free, and one of a page that an earlier transfer writes; reads one
that is not resident; ends; and is held below S2. -/
theorem witness_EnginesDoTheirWork_passes :
    (∃ s h t, State.acts s h t ∧ t.work = .pass (passOf 1 []) ∧ s.level = .s2 ∧ s.curEv.c = 0 ∧
      ∃ t' u0, t.nameNow ((s.engineFor t).engineActor h t) (passOf 1 []) (s.engineFor t) = .ok t' u0 ∧ t'.unnamed = false ∧
      ∃ f u1, dispatchBlock ((s.engineFor t).engineActor h t) (passOf 1 []) 0 u0 = .ok f u1 ∧ f = .noPage ∧ SMap.get? u1.harts s.curEv.a = some h) ∧
    (∃ s h t, State.acts s h t ∧ t.work = .pass (passOf 1 []) ∧ s.level = .s2 ∧ s.curEv.c = 0 ∧
      ∃ t' u0, t.nameNow ((s.engineFor t).engineActor h t) (passOf 1 []) (s.engineFor t) = .ok t' u0 ∧ t'.unnamed = false ∧
      ∃ f u1, dispatchBlock ((s.engineFor t).engineActor h t) (passOf 1 []) 0 u0 = .ok f u1 ∧
        (f = .dispatched (homeSlice 0x20000) (BitVec.ofNat 64 testVa) ∧ h.pageAhead t.id (testVa / 2 ^ 16) = false) ∧ SMap.get? u1.harts s.curEv.a = some h) ∧
    (∃ s h t, State.acts s h t ∧ t.work = .pass (passOf 1 []) ∧ s.level = .s2 ∧ s.curEv.c = 0 ∧
      ∃ t' u0, t.nameNow ((s.engineFor t).engineActor h t) (passOf 1 []) (s.engineFor t) = .ok t' u0 ∧ t'.unnamed = false ∧
      ∃ f u1, dispatchBlock ((s.engineFor t).engineActor h t) (passOf 1 []) 0 u0 = .ok f u1 ∧
        (f = .dispatched (homeSlice 0x20000) (BitVec.ofNat 64 testVa) ∧ h.pageAhead t.id (testVa / 2 ^ 16) = true) ∧ SMap.get? u1.harts s.curEv.a = some h) ∧
    (∃ s h t, State.acts s h t ∧ t.work = .pass (passOf 1 [.dispatched 0 (BitVec.ofNat 64 testVa)]) ∧ s.level = .s2 ∧ s.curEv.c = 0 ∧
      ∃ x u1, readBlock ((s.engineFor t).engineActor h t) (passOf 1 [.dispatched 0 (BitVec.ofNat 64 testVa)]) 0 (BitVec.ofNat 64 testVa) 0 (s.engineFor t)
        = .ok x u1 ∧ x.1 = .nonresident 0 ∧ SMap.get? u1.harts s.curEv.a = some h) ∧
    (∃ s h t, State.acts s h t ∧ t.work = .pass (passOf 0 []) ∧ s.level = .s2 ∧
      ∃ a u1, each (((mergeAll 0 64 8 []).headD (List.replicate (1 * 1) (emptyTriple 64))).flatMap Triple.words ++ blockMask (passOf 0 []) BlockFate.absent ++
          blockMask (passOf 0 []) fun f => f.cause?.isSome).zipIdx
        (fun (w, i) => ((s.engineFor t).engineActor h t).storeNow (BitVec.ofNat 64 (windowBase + 0x800 + 8 * i)) 8 w) (s.engineFor t) = .ok a u1 ∧
      ∃ b v', postRecord s.curEv.a s.curEv.b 6 false 0 0 0 0 0 u1 = .ok b v' ∧ v'.level = .s2) ∧
    (∃ s h t, State.acts s h t ∧ s.level ≠ .s2) :=
  ⟨⟨passing [] (passOf 1 []) { a := 0, b := 1, c := 0 } (onX plainHart), _, _, ⟨rfl, rfl, rfl, by decide +kernel⟩, rfl, rfl, rfl,
     okE _ (fun _ _ => andE _ (okE _ fun _ _ => andE _ atL)) (by decide +kernel)⟩,
   ⟨passing [] (passOf 1 []) { a := 0, b := 1, c := 0 } (poke [(0x20100, 8, testVa)] (onX plainHart)), _, _, ⟨rfl, rfl, rfl, by decide +kernel⟩, rfl, rfl, rfl,
     okE _ (fun _ _ => andE _ (okE _ fun _ _ => andE _ atL)) (by decide +kernel)⟩,
   ⟨passing [{ wide with id := 0 }] (passOf 1 []) { a := 0, b := 1, c := 0 } (poke [(0x20100, 8, testVa)] (onX plainHart)), _, _,
     ⟨rfl, rfl, rfl, by decide +kernel⟩, rfl, rfl, rfl,
     okE _ (fun _ _ => andE _ (okE _ fun _ _ => andE _ atL)) (by decide +kernel)⟩,
   ⟨passing [] (passOf 1 [.dispatched 0 (BitVec.ofNat 64 testVa)]) { a := 0, b := 1, c := 0 }
     (poke [(0x1C000, 16, testLeaf 0x20000 + 2 * 2 ^ 13)] (onX plainHart)), _, _, ⟨rfl, rfl, rfl, by decide +kernel⟩, rfl, rfl, rfl,
     okE _ (fun _ _ => andE _ atL) (by decide +kernel)⟩,
   ⟨passing [] (passOf 0 []) { a := 0, b := 1, c := 0 } (onX plainHart), _, _, ⟨rfl, rfl, rfl, by decide +kernel⟩, rfl, rfl,
     okE _ (fun _ _ => okE _ fun _ _ => last) (by decide +kernel)⟩,
   ⟨{ passing [] (passOf 0 []) { a := 0, b := 1, c := 0 } (onX plainHart) with level := .s1 }, _, _, ⟨rfl, rfl, rfl, by decide +kernel⟩, by decide⟩⟩

/-- A move of the test's page to the frame 0x80000. -/
def moveOf : Move :=
  { id := 0, asker := none, asid := 1, promote := true, pin := false, leaf := 0x1C000, oldFrame := 0x20000, oldTier := 1, newTier := 0, target := 0x80000, late := false }

/-- EnginesDoTheirWork: a move that installs, into a frame that was given twice, for no hart and for one; one that is stale; and an old frame for its ring, and for a place of it that is free and one that is not. -/
theorem witness_EnginesDoTheirWork_moves :
    (∀ asker ∈ [none, some (0, 1)], let m : Move := { moveOf with asker := asker }
      ∃ s, State.moves s = [m] ∧ s.curEv = {} ∧ ∃ e s1, hwRead m.leaf 16 { s with moves := s.moves.filter fun x => x.id != m.id } = .ok e s1 ∧
      (e % 4 = 3 ∧ (Leaf.of m.leaf [] e).frame = m.oldFrame ∧ (Leaf.of m.leaf [] e).tier = 3 ∧ asker.isSome = s1.harts.any fun x => decide (x.1 = 0 ∧
        (x.2.transfers.find? fun y => y.id == 1).any fun t => decide (t.work = .move true (BitVec.ofNat 64 testVa) 0 0x20000 1))) ∧
      ∃ r s2, frameRec m.oldFrame s1 = .ok (some r) s2 ∧ ∃ a s3, awaitEntry m.leaf 16 s2 = .ok a s3 ∧
      ∃ b s4, copyHeld (m.leaf, m.oldFrame) (m.leaf, m.target) r.key m.oldFrame r.key m.target (2 ^ 16) s3 = .ok b s4 ∧
      ∃ c s5, takeRecord m.leaf m.target { r with moving := false, pins := r.pins } s4 = .ok c s5 ∧
      ∃ d s6, putFrameRec { r with count := 0, moving := false } s5 = .ok d s6 ∧
      ∃ f s7, putLeaf (Leaf.of m.leaf [] e) m.target m.newTier true s6 = .ok f s7 ∧
      ∃ g s8, postRecord 0 1 3 false 0 0 0 (BitVec.ofNat 64 (testVa / 2 ^ 16 * 2 ^ 16)) (BitVec.ofNat 64 m.target) { s7 with
        harts := [(0, { plainHart with transfers := [{ wide with work := .move true (BitVec.ofNat 64 testVa) 0 0x20000 1, ranges := [] }] })] } = .ok g s8 ∧
        s8.pcb = some 0x40000) ∧
    (∃ s, State.moves s = [moveOf] ∧ s.curEv = {} ∧ ∃ e s1, hwRead moveOf.leaf 16 { s with moves := s.moves.filter fun x => x.id != moveOf.id } = .ok e s1 ∧
      (Leaf.of moveOf.leaf [] e).tier ≠ 3 ∧ ∃ r s2, frameRec moveOf.oldFrame s1 = .ok (some r) s2 ∧ ∃ a s3, putFrameRec { r with moving := false } s2 = .ok a s3 ∧
      ∃ b s4, give moveOf.leaf (ringOf moveOf.target) moveOf.target s3 = .ok b s4 ∧ s4.pcb = some 0x40000) ∧
    (∃ s o, State.oldFrames s = [o] ∧ s.curEv = {} ∧ o.place = none ∧
      ∃ a s1, give o.leaf o.ring o.frame { s with oldFrames := s.oldFrames.eraseIdx 0 } = .ok a s1 ∧ s1.pcb = some 0x40000) ∧
    (∃ s o x, State.oldFrames s = [o] ∧ s.curEv = {} ∧ o.place = some x ∧ ∃ e s1, hwRead x 8 { s with oldFrames := s.oldFrames.eraseIdx 0 } = .ok e s1 ∧ e = 0 ∧
      ∃ a s2, hwWrite x o.frame 8 s1 = .ok a s2 ∧ s2.pcb = some 0x40000) ∧
    (∃ s o x, State.oldFrames s = [o] ∧ s.curEv = {} ∧ o.place = some x ∧ ∃ e s1, hwRead x 8 { s with oldFrames := s.oldFrames.eraseIdx 0 } = .ok e s1 ∧ e ≠ 0) :=
  ⟨fun asker ha => by
    have e : asker = none ∨ asker = some (0, 1) := by simpa using ha
    obtain rfl | rfl := e
    · exact ⟨{ tiered 3 1 (onX plainHart) with moves := [moveOf], spoiled := [(0x1C000, 0x80000)] }, rfl, rfl,
        okE _ (fun _ _ => andE _ (someE _ fun _ _ => okE _ fun _ _ => okE _ fun _ _ => okE _ fun _ _ => okE _ fun _ _ => okE _ fun _ _ => okE _ fun _ _ => last))
          (by decide +kernel)⟩
    · exact ⟨working (.move true (BitVec.ofNat 64 testVa) 0 0x20000 1) {} { tiered 3 1 (onX plainHart) with
        moves := [{ moveOf with asker := some (0, 1) }], spoiled := [(0x1C000, 0x80000)] }, rfl, rfl,
        okE _ (fun _ _ => andE _ (someE _ fun _ _ => okE _ fun _ _ => okE _ fun _ _ => okE _ fun _ _ => okE _ fun _ _ => okE _ fun _ _ => okE _ fun _ _ => last))
          (by decide +kernel)⟩,
   ⟨{ paged 1 (onX plainHart) with moves := [moveOf] }, rfl, rfl, okE _ (fun _ _ => andE _ (someE _ fun _ _ => okE _ fun _ _ => okE _ fun _ _ => last)) (by decide +kernel)⟩,
   ⟨{ paged 1 (onX plainHart) with oldFrames := [{ frame := 0x90000, ring := 0, leaf := 0x1C000, place := none }] }, _, rfl, rfl, rfl,
    okE _ (fun _ _ => last) (by decide +kernel)⟩,
   ⟨{ paged 1 (onX plainHart) with oldFrames := [{ frame := 0x90000, ring := 0, leaf := 0x1C000, place := some 0x70008 }] }, _, 0x70008, rfl, rfl, rfl,
    okE _ (fun _ _ => andE _ (okE _ fun _ _ => last)) (by decide +kernel)⟩,
   ⟨{ paged 1 (onX plainHart) with oldFrames := [{ frame := 0x90000, ring := 0, leaf := 0x1C000, place := some 0x70000 }] }, _, 0x70000, rfl, rfl, rfl,
    okE _ (fun _ _ => last) (by decide +kernel)⟩⟩

/-- A hart whose vector registers hold `bf16`. -/
def queryHart (x : Nat) : Hart := setRegs [(1, x)] { vecHart .bf16 4 0 with ewin := 0 }

/-- AttentionFormsComplete: a misaligned program, a program that loads and one that is refused. -/
theorem witness_AttentionFormsComplete_programs :
    (let h := setRegs [(1, lsAt 32)] plainHart
     (onX h).hart = some h ∧ (onX h).curStream = .x ∧ (h.sreg .x 1).toNat % 64 ≠ 0) ∧
    (let h := setRegs [(1, lsAt 0)] plainHart
     ∃ s, State.hart s = some h ∧ s.curStream = .x ∧ (h.sreg .x 1).toNat % 64 = 0 ∧ s.free h (h.sreg .x 1) 64 false ∧
       ∃ ws s1, eachMap (List.range 16) (fun i => (s.actor h .x).load .home (h.sreg .x 1 + BitVec.ofNat 64 (4 * i)) 4) s = .ok ws s1 ∧ (scoreWords ws).isSome = true ∧
       ∃ g, s1.hart = some g ∧ g.xpc = h.xpc) ∧
    (let h := setRegs [(1, lsAt 0)] plainHart
     ∃ s, State.hart s = some h ∧ s.curStream = .x ∧ (h.sreg .x 1).toNat % 64 = 0 ∧ s.free h (h.sreg .x 1) 64 false ∧
       ∃ ws s1, eachMap (List.range 16) (fun i => (s.actor h .x).load .home (h.sreg .x 1 + BitVec.ofNat 64 (4 * i)) 4) s = .ok ws s1 ∧ scoreWords ws = none) :=
  ⟨⟨rfl, rfl, by decide⟩,
   ⟨onX (setRegs [(1, lsAt 0)] plainHart), rfl, rfl, by decide, free_of_none rfl rfl rfl _ _ _, okE _ (fun _ _ => andE _ (hartE _ fun _ => last)) (by decide +kernel)⟩,
   ⟨place [(0, 4, 0xFFFFFFFF)] (onX (setRegs [(1, lsAt 0)] plainHart)), rfl, rfl, by decide, free_of_none rfl rfl rfl _ _ _, okE _ (fun _ _ => last) (by decide +kernel)⟩⟩

/-- AttentionFormsComplete: a record in the local-store window; and, at S1 as at S2, a pass that starts, over a table with no block. -/
theorem witness_AttentionFormsComplete_passes :
    (let h := queryHart (lsAt 0)
     (onX h).hart = some h ∧ h.live = true ∧ 1 ≤ vectorSlots h.vt ∧ h.tagOf 1 = some .bf16 ∧ (h.sreg .x 1).toNat % 64 = 0 ∧ (onX h).free h (h.sreg .x 1) 64 false ∧
       inWindow (h.sreg .x 1) = true) ∧
    ∀ level ∈ [Level.s1, .s2], (let h := queryHart testVa
     ∃ s, State.hart s = some h ∧ s.curStream = .x ∧ s.level = level ∧ h.live = true ∧ h.tagOf 1 = some .bf16 ∧ h.transfers.length + h.records.length < 15 ∧
       (h.sreg .x 1).toNat % 64 = 0 ∧ s.free h (h.sreg .x 1) 64 false ∧ inWindow (h.sreg .x 1) = false ∧
       ∃ b s1, recordHome (h.sreg .x 1) s = .ok b s1 ∧ ∃ r, PassRec.of b = some r ∧
       (s1.curStream = .x ∧ r.nr * r.nh = 1 ∧ r.table.nblk = 0 ∧ 16 * r.hd ≤ h.vbits ∧ (s1.actor h .x).window = some (0, 0, 2 ^ 20) ∧
         r.dst + (8 + 4 * r.hd) ≤ 2 ^ 20 ∧ s1.tableUsed (coreOfSlot s1.curSlot) + 1 ≤ 64) ∧ s1.hart = some h ∧
       ∃ a s2, swapIn { vs := [1] } s1 = .ok a s2 ∧ ∃ g, s2.hart = some g ∧ g.slot = h.slot ∧
       ∃ c s3, drainHart h.slot s2 = .ok c s3 ∧ ∃ pages s4, pagesAtIssue (s1.actor h .x) g r.table.pages 0 s3 = .ok pages s4 ∧ s4.curStream = .x ∧
         ∃ g4, s4.hart = some g4 ∧ g4.slot = h.slot) := by
  refine ⟨⟨rfl, by decide +kernel, by decide +kernel, by decide +kernel, by decide, free_of_none rfl rfl rfl _ _ _, by decide⟩, fun level hl => ?_⟩
  refine ⟨{ poke [(0x20018, 4, 10)] (onX (queryHart testVa)) with level := level }, rfl, rfl, rfl, by decide +kernel, by decide +kernel, by decide, by decide,
    free_of_none rfl rfl rfl _ _ _, by decide, ?_⟩
  simp only [List.mem_cons, List.not_mem_nil, or_false] at hl
  rcases hl with rfl | rfl <;>
    exact okE _ (fun _ _ => optE _ fun _ => andE _ (isE _ (okE _ fun _ _ => hartE _ fun _ => andE _ (okE _ fun _ _ => okE _ fun _ _ => andE _ (hartE _ fun _ => last)))))
      (by decide +kernel)

/-- A tree of a root and its child. -/
def twoNodes : Tree :=
  { base := 7, nodes := [{ parent := 0, token := 5, score := 0, flags := 0 }, { parent := 0, token := 6, score := 0, flags := 0 }] }

/-- A hart whose draft registers hold it. -/
def treeHart (f : Fmt) (bits : Nat) : Hart := { vecHart f 2 bits with d := Vector.replicate 8 twoNodes }

/-- TreeFormsComplete: the depth of a tree, a cut at its last node and past it. -/
theorem witness_TreeFormsComplete_paths :
    (let h := setRegs [(1, 1 * 2 ^ 16)] (treeHart .i32 0)
     (onX h).hart = some h ∧ (onX h).curStream = .x ∧ (∀ i < 2, h.d[0].depth i ≤ 1) ∧ h.d[0].depth 1 = 1 ∧ (h.sreg .x 1).toNat / 2 ^ 16 % 256 < h.d[0].nodes.length) ∧
    (let h := setRegs [(1, 2 * 2 ^ 16)] (treeHart .i32 0)
     (onX h).hart = some h ∧ h.d[0].nodes.length ≤ (h.sreg .x 1).toNat / 2 ^ 16 % 256) :=
  ⟨⟨rfl, rfl, by decide +kernel, by decide +kernel, by decide +kernel⟩, ⟨rfl, by decide +kernel⟩⟩

/-- A hart with two nodes to add, whose parents are in register 1, tokens in 2 and scores in 3. -/
def addHart (parents : Nat) (t : Tree) : Hart :=
  { vecHart .i32 2 0 with v := ((Vector.replicate 64 { bits := 0, tag := some .i32 }).set 1 { bits := parents, tag := some .i32 }).set 3 { bits := 0, tag := some .fp32 }
                          d := Vector.replicate 8 t }

/-- TreeFormsComplete: nodes added to a tree, to an empty one, to a full one, and with a parent that there is not. -/
theorem witness_TreeFormsComplete_additions : ∀ x ∈ [(addHart 0x100000000 twoNodes, 2, true), (addHart 0 { base := 0, nodes := [] }, 0, false),
      (addHart 0 { base := 0, nodes := List.replicate 255 { parent := 0, token := 0, score := 0, flags := 0 } }, 255, true), (addHart 0x400000000 twoNodes, 2, false)],
    ∃ s, State.hart s = some x.1 ∧ s.curStream = .x ∧ (x.1.live = true ∧ x.1.fmt = .i32 ∧ x.1.tagOf 1 = some .i32 ∧ x.1.tagOf 2 = some .i32 ∧ x.1.tagOf 3 = some .fp32 ∧
        x.1.d[0].nodes.length = x.2.1 ∧ (({ vs := [1, 2, 3] } : Named).guarded x.1).allV.length ≤ vectorSlots x.1.vt ∧
        (({ vs := [1, 2, 3] } : Named).guarded x.1).allP.length ≤ predicateSlots x.1.vt) ∧
      ∃ a s1, swapIn (({ vs := [1, 2, 3] } : Named).guarded x.1) s = .ok a s1 ∧ ∃ g, s1.hart = some g ∧ (g.d.toList = x.1.d.toList ∧ g.active.length = 2) ∧
        (List.range 2).all (fun k => decide (elemOf 32 (g.vbitsOf 1) k < x.2.1 + k)) = x.2.2 := by
  intro x hx
  fin_cases hx
  · exact ⟨onX (addHart 0x100000000 twoNodes), rfl, rfl, by decide +kernel, okE _ (fun _ _ => hartE _ fun _ => andE _ last) (by decide +kernel)⟩
  · exact ⟨onX (addHart 0 { base := 0, nodes := [] }), rfl, rfl, by decide +kernel, okE _ (fun _ _ => hartE _ fun _ => andE _ last) (by decide +kernel)⟩
  · exact ⟨onX (addHart 0 { base := 0, nodes := List.replicate 255 { parent := 0, token := 0, score := 0, flags := 0 } }), rfl, rfl, by decide +kernel,
      okE _ (fun _ _ => hartE _ fun _ => andE _ last) (by decide +kernel)⟩
  · exact ⟨onX (addHart 0x400000000 twoNodes), rfl, rfl, by decide +kernel, okE _ (fun _ _ => hartE _ fun _ => andE _ last) (by decide +kernel)⟩

/-- TreeFormsComplete: masks and positions to a predicate and to vectors, and an acceptance. -/
theorem witness_TreeFormsComplete_masks :
    (∃ s s1 g, State.opensPlain s anyFmt { pw := [1] } s1 g ∧ g.d.toList = (treeHart .i32 0).d.toList ∧ (g.sreg .x 3).toNat < g.d[0].nodes.length) ∧
    (∃ s s1 g, State.opens s maskFmt { vw := [1] } s1 g ∧ g.d.toList = (treeHart .i32 0).d.toList ∧ g.fmt = .fp32) ∧
    (∃ s s1 g, State.opens s posFmt { vw := [1] } s1 g ∧ g.d.toList = (treeHart .i32 0).d.toList ∧ g.fmt = .n64) ∧
    (∃ s s1 g, State.opens s (fun f => decide (f = .i32) || decide (f = .n32)) { vs := [1] } s1 g ∧ g.d.toList = (treeHart .i32 0).d.toList ∧
      ∀ i < 2, 0 < i → g.d[0].parent i < i) :=
  ⟨⟨onX (treeHart .i32 0), plainE _ (fun _ _ => last) (by decide +kernel)⟩, ⟨onX (treeHart .fp32 0), opensE _ (fun _ _ => last) (by decide +kernel)⟩,
   ⟨onX (treeHart .n64 0), opensE _ (fun _ _ => last) (by decide +kernel)⟩, ⟨onX (treeHart .n32 5), opensE _ (fun _ _ => last) (by decide +kernel)⟩⟩

/-- TreeFormsComplete: an image misaligned, one that loads, one that is no tree, and one stored. -/
theorem witness_TreeFormsComplete_images :
    (let h := setRegs [(1, lsAt 64)] plainHart
     (onX h).hart = some h ∧ (h.sreg .x 1).toNat % 4096 ≠ 0) ∧
    (let h := setRegs [(1, lsAt 0)] plainHart
     ∃ s, State.hart s = some h ∧ s.curStream = .x ∧ (h.sreg .x 1).toNat % 4096 = 0 ∧ s.free h (h.sreg .x 1) 4096 false ∧
       ∃ v s1, eachFold (List.range 16) 0 (fun v i => do
          let x ← ({ s.actor h .x with scalar := false } : Actor).load .home (h.sreg .x 1 + BitVec.ofNat 64 (256 * i)) 256
          pure (v + x * 2 ^ (2048 * i))) s = .ok v s1 ∧ (Tree.ofImage v).isSome = true ∧ ∃ g, s1.hart = some g ∧ g.xpc = h.xpc) ∧
    (let h := setRegs [(1, lsAt 0)] plainHart
     ∃ s, State.hart s = some h ∧ s.curStream = .x ∧
       ∃ v s1, eachFold (List.range 16) 0 (fun v i => do
          let x ← ({ s.actor h .x with scalar := false } : Actor).load .home (h.sreg .x 1 + BitVec.ofNat 64 (256 * i)) 256
          pure (v + x * 2 ^ (2048 * i))) s = .ok v s1 ∧ Tree.ofImage v = none) ∧
    (let h := setRegs [(1, lsAt 0)] { plainHart with resumeX := 15 }
     ∃ s, State.hart s = some h ∧ s.curStream = .x ∧ s.curStop = none ∧
       ∃ a s2, each ((List.range 16).drop h.resumeX.toNat) (fun i => do
          interlock (h.sreg .x 1 + BitVec.ofNat 64 (256 * i)) 256 true
          let b ← vectorActor
          b.store (h.sreg .x 1 + BitVec.ofNat 64 (256 * i)) 256 (h.d[0].image / 2 ^ (2048 * i) % 2 ^ 2048) (2 ^ 2048 - 1)) s = .ok a s2 ∧ s2.curStream = .x ∧
       ∃ g2, s2.hart = some g2 ∧ g2.xpc = h.xpc) :=
  ⟨⟨rfl, by decide⟩,
   ⟨onX (setRegs [(1, lsAt 0)] plainHart), rfl, rfl, by decide, free_of_none rfl rfl rfl _ _ _, okE _ (fun _ _ => andE _ (hartE _ fun _ => last)) (by decide +kernel)⟩,
   ⟨place [(0xA00, 2, 257)] (onX (setRegs [(1, lsAt 0)] plainHart)), rfl, rfl, okE _ (fun _ _ => last) (by decide +kernel)⟩,
   ⟨onX (setRegs [(1, lsAt 0)] { plainHart with resumeX := 15 }), rfl, rfl, rfl,
    okE _ (fun _ _ => andE _ (hartE _ fun _ => last)) (by decide +kernel)⟩⟩

/-- A second hart of the test's kernel on core 0, in the same groups. -/
def twoHarts (s : State) : State := { s with harts := s.harts ++ [(1, { plainHart with slot := 1, gcoord := 1 })] }

/-- The arrival of a hart at barrier 1 of its core group. -/
def arrivedAt (s : State) (h : Hart) (sync : Bool) : State :=
  let g : Hart := { h with pend := h.pend ||| BitVec.twoPow 64 1, sync := if sync then h.sync ||| BitVec.twoPow 64 1 else h.sync }
  { s.putHart g with barriers := SMap.put s.barriers (16 * 0 + 1) .gathering }

/-- The context of a hart is closing (R254). -/
def Closing (s : State) (h : Hart) : Prop := ∃ c, SMap.get? s.contexts h.asid = some c ∧ c.closing ≠ none

/-- A test that it is not. -/
def opened (s : State) (h : Hart) : Bool := (SMap.get? s.contexts h.asid).all fun c => c.closing.isNone

theorem opened_not {s : State} {h : Hart} (e : opened s h = true) : ¬Closing s h := by
  rintro ⟨c, hc, n⟩
  simp only [opened, hc, Option.all_some, Option.isNone_iff_eq_none] at e
  exact n e

/-- The test's context closing. -/
def closed (s : State) : State := { s with contexts := s.contexts.map fun c => (c.1, { c.2 with closing := some 4096 }) }

/-- KernelsGroupsAndBarriers: a phase that gathers, and one whose context is closing; one that has ended; and an arrival. -/
theorem witness_KernelsGroupsAndBarriers_barriers :
    (let h : Hart := { plainHart with pend := 2 }
     (onX h).hart = some h ∧ (onX h).curStream = .x ∧ h.pend.getLsbD (16 * BScope.tier .core + 1) = true ∧ ¬Closing (onX h) h) ∧
    (let h : Hart := { plainHart with pend := 2 }
     (closed (onX h)).hart = some h ∧ h.pend.getLsbD 1 = true ∧ Closing (closed (onX h)) h ∧
       ∃ a s1, refreshPoint .x { closed (onX h) with freeCtr := (closed (onX h)).freeCtr + 1 } = .ok a s1 ∧ ∃ g, s1.hart = some g ∧ g.slot = 0) ∧
    (∃ s, State.hart s = some plainHart ∧ s.curStream = .x ∧ plainHart.pend.getLsbD 1 = false ∧ ∃ a s1, refreshPoint .x s = .ok a s1 ∧ ∃ g, s1.hart = some g ∧ g.slot = 0) ∧
    (∃ s, State.hart s = some plainHart ∧ s.curStream = .x ∧ ∃ a s1, settle .x (wideScope .core) s = .ok a s1 ∧ s1.curStream = .x ∧ s1.hart = some plainHart ∧
      ∃ b s2, checkBarrier 0 0 1 ((arrivedAt s1 plainHart false).putHart (({ plainHart with pend := plainHart.pend ||| BitVec.twoPow 64 1 } : Hart).advance .x)) = .ok b s2 ∧
        s2.level = .s2) :=
  ⟨⟨rfl, rfl, by decide, opened_not rfl⟩,
   ⟨rfl, by decide, ⟨_, rfl, by decide⟩, okE _ (fun _ _ => hartE _ fun _ => last) (by decide +kernel)⟩,
   ⟨onX plainHart, rfl, rfl, by decide, okE _ (fun _ _ => hartE _ fun _ => last) (by decide +kernel)⟩,
   ⟨onX plainHart, rfl, rfl, okE _ (fun _ _ => andE _ (isE _ (okE _ fun _ _ => last))) (by decide +kernel)⟩⟩

/-- KernelsGroupsAndBarriers: a sync that ends the phase, one that does not, one whose phase has ended, and one that waits, with its context open and
closing. -/
theorem witness_KernelsGroupsAndBarriers_syncs :
    (∃ s, State.hart s = some plainHart ∧ s.curStream = .x ∧ plainHart.syncDone.getLsbD 1 = false ∧ ∃ a s1, settle .x (wideScope .core) s = .ok a s1 ∧
      s1.curStream = .x ∧ s1.hart = some plainHart ∧ ∃ b s2, checkBarrier 0 0 1 (arrivedAt s1 plainHart true) = .ok b s2 ∧
        (s2.curStream = .x ∧ s2.curWord = s.curWord) ∧ ∃ g, s2.hart = some g ∧ (g.syncDone.getLsbD 1 = true ∧ g.asid = plainHart.asid) ∧
        ∃ c s3, refreshPoint .x (s2.putHart { g with syncDone := g.syncDone &&& ~~~BitVec.twoPow 64 1, firstWait := none }) = .ok c s3 ∧
          ∃ k, s3.hart = some k ∧ k.slot = 0) ∧
    (∃ s, State.hart s = some plainHart ∧ s.curStream = .x ∧ plainHart.syncDone.getLsbD 1 = false ∧ ∃ a s1, settle .x (wideScope .core) s = .ok a s1 ∧
      s1.curStream = .x ∧ s1.hart = some plainHart ∧ ∃ b s2, checkBarrier 0 0 1 (arrivedAt s1 plainHart true) = .ok b s2 ∧
        (s2.curStream = .x ∧ s2.curWord = s.curWord) ∧ ∃ g, s2.hart = some g ∧ (g.syncDone.getLsbD 1 = false ∧ g.asid = plainHart.asid) ∧ ¬Closing s2 plainHart) ∧
    (let h : Hart := { plainHart with syncDone := 2 }
     (onX h).hart = some h ∧ h.syncDone.getLsbD 1 = true ∧
       ∃ a s1, refreshPoint .x ((onX h).putHart { h with syncDone := h.syncDone &&& ~~~BitVec.twoPow 64 1, firstWait := none }) = .ok a s1 ∧
       ∃ k, s1.hart = some k ∧ k.slot = 0) ∧
    (let h : Hart := { plainHart with pend := 2 }
     (onX h).hart = some h ∧ h.syncDone.getLsbD 1 = false ∧ h.pend.getLsbD 1 = true ∧ ¬Closing (onX h) h) ∧
    (let h : Hart := { plainHart with pend := 2 }
     let s := closed (onX h)
     s.hart = some h ∧ h.syncDone.getLsbD 1 = false ∧ h.pend.getLsbD 1 = true ∧ Closing s h ∧
       ∃ a s1, refreshPoint .x ({ s with freeCtr := s.freeCtr + 1 }.putHart { h with syncDone := h.syncDone &&& ~~~BitVec.twoPow 64 1, firstWait := none }) = .ok a s1 ∧
       ∃ k, s1.hart = some k ∧ k.slot = 0) :=
  ⟨⟨onX plainHart, rfl, rfl, by decide, okE _ (fun _ _ => andE _ (isE _ (okE _ fun _ _ => andE _ (hartE _ fun _ => andE _ (okE _ fun _ _ => hartE _ fun _ => last)))))
     (by decide +kernel)⟩,
   ⟨twoHarts (onX plainHart), rfl, rfl, by decide, okE _ (fun _ _ => andE _ (isE _ (okE _ fun _ _ => andE _ (hartE _ fun _ => andE _ opened_not)))) (by decide +kernel)⟩,
   ⟨rfl, by decide, okE _ (fun _ _ => hartE _ fun _ => last) (by decide +kernel)⟩,
   ⟨rfl, by decide, by decide, opened_not rfl⟩,
   ⟨rfl, by decide, by decide, ⟨_, rfl, by decide⟩, okE _ (fun _ _ => hartE _ fun _ => last) (by decide +kernel)⟩⟩

/-- The state of a split's arrival. -/
def splitting (s : State) (h : Hart) : State := s.putHart { h with arrival := some (0, (h.sreg .x 1).toNat / 2 ^ 8 % 2 ^ 8) }

/-- KernelsGroupsAndBarriers: a split that is over, two of tiers there are not, one that has arrived before, with its context open and closing, one that ends
with this arrival and one that does not. -/
theorem witness_KernelsGroupsAndBarriers_splits :
    (∃ s h, State.hart s = some h ∧ s.curStream = .x ∧ h.splitDone = some 9) ∧
    (∃ s h, State.hart s = some h ∧ s.curStream = .x ∧ h.splitDone = none ∧ 4 ≤ (h.sreg .x 1).toNat % 8) ∧
    (∃ s h, State.hart s = some h ∧ s.curStream = .x ∧ h.splitDone = none ∧ (h.sreg .x 1).toNat % 8 = 0) ∧
    (∃ s h, State.hart s = some h ∧ s.curStream = .x ∧ h.splitDone = none ∧ (h.sreg .x 1).toNat % 8 = 3 ∧ (h.sreg .x 1).toNat / 8 % 32 = 0 ∧ h.arrival ≠ none ∧ ¬Closing s h) ∧
    (∃ s h, State.hart s = some h ∧ s.curStream = .x ∧ h.splitDone = none ∧ (h.sreg .x 1).toNat % 8 = 3 ∧ (h.sreg .x 1).toNat / 8 % 32 = 0 ∧ h.arrival ≠ none ∧ Closing s h) ∧
    (let h := setRegs [(1, 1)] plainHart
     ∃ s, State.hart s = some h ∧ s.curStream = .x ∧ h.splitDone = none ∧ (h.sreg .x 1).toNat % 8 = 1 ∧ (h.sreg .x 1).toNat / 8 % 32 = 0 ∧ h.arrival = none ∧
       ∃ a s1, checkSplit 0 (h.groups.getD 0 0) (splitting s h) = .ok a s1 ∧ (s1.curStream = .x ∧ s1.curWord = s.curWord) ∧
       ∃ g, s1.hart = some g ∧ (g.splitDone ≠ none ∧ g.asid = h.asid)) ∧
    (let h := setRegs [(1, 1)] plainHart
     ∃ s, State.hart s = some h ∧ s.curStream = .x ∧
       ∃ a s1, checkSplit 0 (h.groups.getD 0 0) (splitting s h) = .ok a s1 ∧ (s1.curStream = .x ∧ s1.curWord = s.curWord) ∧
       ∃ g, s1.hart = some g ∧ (g.splitDone = none ∧ g.asid = h.asid) ∧ ¬Closing s1 h) :=
  ⟨⟨onX { plainHart with splitDone := some 9 }, _, rfl, rfl, rfl⟩, ⟨onX (setRegs [(1, 4)] plainHart), _, rfl, rfl, rfl, by decide⟩,
   ⟨onX (setRegs [(1, 0)] plainHart), _, rfl, rfl, rfl, by decide⟩,
   ⟨onX { setRegs [(1, 3)] plainHart with arrival := some (2, 0) }, _, rfl, rfl, rfl, by decide, by decide, by decide, opened_not rfl⟩,
   ⟨closed (onX { setRegs [(1, 3)] plainHart with arrival := some (2, 0) }), _, rfl, rfl, rfl, by decide, by decide, by decide, ⟨_, rfl, by decide⟩⟩,
   ⟨onX (setRegs [(1, 1)] plainHart), rfl, rfl, rfl, by decide, by decide, rfl, okE _ (fun _ _ => andE _ (hartE _ fun _ => last)) (by decide +kernel)⟩,
   ⟨twoHarts (onX (setRegs [(1, 1)] plainHart)), rfl, rfl, okE _ (fun _ _ => andE _ (hartE _ fun _ => andE _ opened_not)) (by decide +kernel)⟩⟩

/-- What the end of a hart waits for is not there, once its stores have performed. -/
def Clear (u : State) (k : Hart) : Prop :=
  (∀ w ∈ u.held, w.slot ≠ k.slot) ∧ (∀ p ∈ u.pending, p.slot ≠ k.slot) ∧ u.arrivalHeld k.endAccess .x = false

/-- A test for it. -/
def clear (u : State) (k : Hart) : Bool :=
  u.held.all (fun w => decide (w.slot ≠ k.slot)) && u.pending.all (fun p => decide (p.slot ≠ k.slot)) && !u.arrivalHeld k.endAccess .x

theorem clear_iff {u : State} {k : Hart} : clear u k = true ↔ Clear u k := by
  simp only [clear, Clear, Bool.and_eq_true, List.all_eq_true, decide_eq_true_eq, Bool.not_eq_true', and_assoc]

/-- KernelsGroupsAndBarriers: the trigger; the end of a hart not triggered, of one with work that S1 holds, of one that waits for a transfer, of one whose
queue is being filled, and of one that does not wait, though its access stream has stopped in a gather. -/
theorem witness_KernelsGroupsAndBarriers_ends :
    (∃ s, State.hart s = some plainHart ∧ s.curStream = .x ∧ plainHart.triggered = false ∧ ∃ a s1, settle .x .dev s = .ok a s1 ∧
      (s1.curStream = .x ∧ s1.curWord = s.curWord) ∧ ∃ g, s1.hart = some g ∧ g.slot = 0) ∧
    (let h : Hart := { plainHart with triggered := true }
     ∃ s, State.hart s = some h ∧ s.curStream = .x ∧ h.triggered = true ∧
       ∃ a s1, drainHart h.slot (s.putHart h.endAccess) = .ok a s1 ∧ (s1.curStream = .x ∧ s1.curWord = s.curWord ∧ clear s1 h = false) ∧
       ∃ k, s1.hart = some k ∧ k.slot = 0) ∧
    (∀ h ∈ [({ plainHart with triggered := true, transfers := [wide] } : Hart), { plainHart with triggered := true, q4 := [.reserved 1] }],
     ∃ s, State.hart s = some h ∧ s.curStream = .x ∧ h.triggered = true ∧
       ∃ a s1, drainHart h.slot (s.putHart h.endAccess) = .ok a s1 ∧ (s1.curStream = .x ∧ s1.curWord = s.curWord ∧ clear s1 h = true) ∧
       ∃ k, s1.hart = some k ∧ (k.transfers ≠ [] ∨ k.filling = true)) ∧
    (let h : Hart := { plainHart with triggered := true, vq := Vector.replicate 4 [.stopped 0 { esize := 1, elems := [] }] }
     ∃ s, State.hart s = some h ∧ s.curStream = .x ∧ h.triggered = true ∧
       ∃ a s1, drainHart h.slot (s.putHart h.endAccess) = .ok a s1 ∧ (s1.curStream = .x ∧ s1.curWord = s.curWord ∧ clear s1 h = true) ∧
       ∃ k, s1.hart = some k ∧ (k.transfers = [] ∧ k.filling = false) ∧ ∃ b s2, endHart s1 = .ok b s2 ∧ s2.harts = []) := by
  refine ⟨⟨onX plainHart, rfl, rfl, rfl, okE _ (fun _ _ => andE _ (hartE _ fun _ => last)) (by decide +kernel)⟩,
   ⟨{ onX { plainHart with triggered := true } with held := [heldLoad .a] }, rfl, rfl, rfl,
    okE _ (fun _ _ => andE _ (hartE _ fun _ => last)) (by decide +kernel)⟩,
   fun h hh => ?_,
   ⟨onX { plainHart with triggered := true, vq := Vector.replicate 4 [.stopped 0 { esize := 1, elems := [] }] }, rfl, rfl, rfl,
    okE _ (fun _ _ => andE _ (hartE _ fun _ => andE _ (okE _ fun _ _ => last))) (by decide +kernel)⟩⟩
  · fin_cases hh
    · exact ⟨onX { plainHart with triggered := true, transfers := [wide] }, rfl, rfl, rfl, okE _ (fun _ _ => andE _ (hartE _ fun _ => last)) (by decide +kernel)⟩
    · exact ⟨onX { plainHart with triggered := true, q4 := [.reserved 1] }, rfl, rfl, rfl, okE _ (fun _ _ => andE _ (hartE _ fun _ => last)) (by decide +kernel)⟩

/-- KernelsGroupsAndBarriers: a claim of a misaligned counter, and one that takes what is left, in the local store and by the block. -/
theorem witness_KernelsGroupsAndBarriers_claims :
    (let h := setRegs [(1, lsAt 8)] (vecHart .i32 0 0)
     (onX h).hart = some h ∧ h.live = true ∧ (h.sreg .x 1).toNat % 16 ≠ 0) ∧
    (let h := setRegs [(1, lsAt 16), (2, 4096)] (vecHart .i32 0 0)
     ∃ s, State.hart s = some h ∧ s.curStream = .x ∧ h.live = true ∧ (h.sreg .x 1).toNat % 16 = 0 ∧ s.free h (h.sreg .x 1) 16 true ∧
       (s.pending = [] ∧ s.unblocked h ∧ s.localPlace h (h.sreg .x 1) 16 0 16 ∧ s.lsPoisoned 0 16 16 = false ∧ s.inSpill (s.actor h .x) (h.sreg .x 1) 16 = false ∧
         s.undisturbed h ∧ s.ls.readLE (lsIndex 0 16) 16 = 5 + 9 * 2 ^ 64) ∧
       ∃ a s1, settle .x .dev s = .ok a s1 ∧ s1.curStream = .x ∧ s1.hart = some h ∧
       ∃ old s2, (s1.actor h .x).claimBlock (h.sreg .x 1) (fun x => min (min 4096 h.vlmax) (x / 2 ^ 64 % 2 ^ 64 - x % 2 ^ 64)) s1 = .ok old s2 ∧ old = 5 + 9 * 2 ^ 64 ∧
       ∃ b s3, refreshPoint .x s2 = .ok b s3 ∧ s3.curStream = .x ∧ ∃ k, s3.hart = some k ∧ k.slot = 0) :=
  ⟨⟨rfl, by decide +kernel, by decide⟩,
   ⟨place [(16, 8, 5), (24, 8, 9)] (onX (setRegs [(1, lsAt 16), (2, 4096)] (vecHart .i32 0 0))), rfl, rfl, by decide +kernel, by decide, free_of_none rfl rfl rfl _ _ _,
    ⟨rfl, unblocked_of rfl rfl rfl (by intro p hp; cases hp), place_of rfl (by decide) (by decide), by decide +kernel, by decide +kernel, quiet_of rfl rfl, by decide +kernel⟩,
    okE _ (fun _ _ => andE _ (isE _ (okE _ fun _ _ => andE _ (okE _ fun _ _ => andE _ (hartE _ fun _ => last))))) (by decide +kernel)⟩⟩

/-- The test's context with a launch queue of two records, whose descriptor lies in the test's page. -/
def queued (on : Nat) (s : State) : State :=
  { poke [(0x30030, 8, testVa + 0x400), (0x20400, 8, testVa + 0x800), (0x20408, 8, 1), (0x20420, 8, on)] s with
    contexts := s.contexts.map fun c => (c.1, { c.2 with nq := 1 }) }

/-- A launch request in the local store: a queue and an index. -/
def launching (on j w : Nat) : State := place [(0, 8, j), (8, 8, w)] (queued on (onX (setRegs [(1, lsAt 0)] plainHart)))

/-- KernelsGroupsAndBarriers: launches at numbers that no context has and that this one has not, at a queue not enabled, and one that the queue accepts and one
it refuses. -/
theorem witness_KernelsGroupsAndBarriers_launches :
    (let h := setRegs [(1, lsAt 8)] plainHart
     (onX h).hart = some h ∧ (h.sreg .x 1).toNat % 16 ≠ 0) ∧
    (∀ x ∈ [64, 1], let h := setRegs [(1, lsAt 0)] plainHart
     ∃ s, State.hart s = some h ∧ s.curStream = .x ∧ (h.sreg .x 1).toNat % 16 = 0 ∧ s.free h (h.sreg .x 1) 16 false ∧
       ∃ j s1, (s.actor h .x).load .plain (h.sreg .x 1) 8 (some false) s = .ok j s1 ∧ j = x ∧
       ∃ w s2, (s.actor h .x).load .plain (h.sreg .x 1 + 8) 8 (some false) s1 = .ok w s2 ∧ s2.curStream = .x ∧ s2.hart = some h ∧
       ∃ c, SMap.get? s2.contexts h.asid = some c ∧ c.nq = 1) ∧
    (let h := setRegs [(1, lsAt 0)] plainHart
     ∃ s, State.hart s = some h ∧ s.curStream = .x ∧
       ∃ j s1, (s.actor h .x).load .plain (h.sreg .x 1) 8 (some false) s = .ok j s1 ∧ j = 0 ∧
       ∃ w s2, (s.actor h .x).load .plain (h.sreg .x 1 + 8) 8 (some false) s1 = .ok w s2 ∧ s2.curStream = .x ∧ s2.hart = some h ∧
       ∃ q s3, enabledQueue 0 s2 = .ok q s3 ∧ q = none) ∧
    (∀ x ∈ [(1, Bell.accepted), (3, Bell.refused)], let h := setRegs [(1, lsAt 0)] plainHart
     ∃ s, State.hart s = some h ∧ s.curStream = .x ∧
       ∃ j s1, (s.actor h .x).load .plain (h.sreg .x 1) 8 (some false) s = .ok j s1 ∧ j = 0 ∧
       ∃ w s2, (s.actor h .x).load .plain (h.sreg .x 1 + 8) 8 (some false) s1 = .ok w s2 ∧ w = x.1 ∧ s2.hart = some h ∧
       ∃ q s3, enabledQueue 0 s2 = .ok (some q) s3 ∧
       ∃ r s4, (do
            settle .x .dev
            doorbell 0 w fun asid => postHartEvent asid 4 0 h.slot (BitVec.ofNat 64 0) 0 0) s3 = .ok r s4 ∧ r = x.2) := by
  refine ⟨⟨rfl, by decide⟩, fun x hx => ?_,
    ⟨launching 0 0 1, rfl, rfl, okE _ (fun _ _ => andE _ (okE _ fun _ _ => andE _ (isE _ (okE _ fun _ _ => last)))) (by decide +kernel)⟩, fun x hx => ?_⟩
  · fin_cases hx
    · exact ⟨launching 1 64 0, rfl, rfl, by decide, free_of_none rfl rfl rfl _ _ _,
        okE _ (fun _ _ => andE _ (okE _ fun _ _ => andE _ (isE _ (optE _ fun _ => last)))) (by decide +kernel)⟩
    · exact ⟨launching 1 1 0, rfl, rfl, by decide, free_of_none rfl rfl rfl _ _ _,
        okE _ (fun _ _ => andE _ (okE _ fun _ _ => andE _ (isE _ (optE _ fun _ => last)))) (by decide +kernel)⟩
  · fin_cases hx
    · exact ⟨launching 1 0 1, rfl, rfl, okE _ (fun _ _ => andE _ (okE _ fun _ _ => andE _ (isE _ (someE _ fun _ _ => okE _ fun _ _ => last)))) (by decide +kernel)⟩
    · exact ⟨launching 1 0 3, rfl, rfl, okE _ (fun _ _ => andE _ (okE _ fun _ _ => andE _ (isE _ (someE _ fun _ _ => okE _ fun _ _ => last)))) (by decide +kernel)⟩

/-- A device whose barrier 1 of group 0 gathers with every hart arrived. -/
def gathered (s : State) : State :=
  { s with barriers := [(1, .gathering)], harts := [(0, { plainHart with pend := BitVec.twoPow 64 (16 * 0 + 1) ||| BitVec.twoPow 64 (16 * 3 + 1) })] }

/-- The test's kernel as a part of one of a fabric group. -/
def fabbed (s : State) : State := { s with kernels := s.kernels.map fun k => (k.1, { k.2 with fab := true }) }

/-- KernelsGroupsAndBarriers: the events: a phase that can end, a doorbell, heads to dispatch, and a die that S1 does not have. -/
theorem witness_KernelsGroupsAndBarriers_events :
    (let s := gathered (onX plainHart)
     s.barrier 0 1 = .gathering ∧ s.allArrived 0 0 1 = true ∧ ∀ x ∈ s.members 3 0, s.isFab x = false) ∧
    (∃ r s1, doorbell 0 1 (fun asid => postEvent asid 4 0 0 0) (queued 1 (onX plainHart)) = .ok r s1 ∧ r = .accepted) ∧
    (∃ heads s1, eachFold ((queued 1 (onX plainHart)).contexts.flatMap fun c => (List.range c.2.nq).map (c.2.lq0 + ·)) [] (fun l lq => do
         match ← headOf lq with
         | none => pure l
         | some h => pure (if (diesOf h.r.dmask).headD 0 = 0 then insertHead h l else l)) (queued 1 (onX plainHart)) = .ok heads s1 ∧
       ∃ a s2, tryHeads 0 heads s1 = .ok a s2 ∧ s2.level = .s2) ∧ (queued 1 (onX plainHart)).inService 0 = true ∧
    ({ onX plainHart with level := .s1 } : State).inService 16 = false :=
  ⟨⟨rfl, by decide +kernel, by decide +kernel⟩, okE _ (fun _ _ => last) (by decide +kernel), okE _ (fun _ _ => okE _ fun _ _ => last) (by decide +kernel), rfl, rfl⟩

/-- KernelsGroupsAndBarriers: the events of a fabric group: a report of a part placed and of one that is not, a pause, a group with no member, and a phase
combined. -/
theorem witness_KernelsGroupsAndBarriers_fabric :
    (let s : State := { fabbed (onX plainHart) with curEv := { a := 1, b := 1, c := 5 } }
     ∃ k ∈ s.kernels, k.2.asid = s.curEv.a ∧ k.2.kid = s.curEv.b ∧ k.2.fab = true) ∧
    (let s : State := { fabbed (onX plainHart) with curEv := { a := 1, b := 2, c := 5 } }
     ∀ k ∈ s.kernels, ¬(k.2.asid = s.curEv.a ∧ k.2.kid = s.curEv.b ∧ k.2.fab = true)) ∧
    (let s : State := { fabbed (onX plainHart) with curEv := { a := 1, b := 5 } }
     ∃ c, SMap.get? s.contexts s.curEv.a = some c ∧ c.state = .running ∧ (∃ k ∈ s.kernels, k.2.asid = s.curEv.a ∧ k.2.fab = true) ∧
       ∃ a s1, (do
         giveDeadline 1 5
         checkCollected 1) s = .ok a s1 ∧ s1.level = .s2) ∧
    (let s : State := { fabbed (gathered (onX plainHart)) with curEv := { a := 5, b := 1 } }
     s.members 3 s.curEv.a = []) ∧
    (let s : State := { fabbed (gathered (onX plainHart)) with curEv := { a := 0, b := 1 } }
     s.curEv.b < 16 ∧ s.level = .s2 ∧ s.barrier s.curEv.a s.curEv.b = .gathering ∧ (∃ x ∈ s.members 3 s.curEv.a, s.isFab x = true) ∧ s.unreached = [] ∧
       s.allArrived 3 s.curEv.a s.curEv.b = true ∧ ∃ a s1, endPhase 3 0 1 s = .ok a s1 ∧ s1.barrier 0 1 = .complete) :=
  ⟨⟨_, List.mem_singleton.2 rfl, rfl, rfl, rfl⟩, by decide +kernel,
   ⟨_, rfl, rfl, ⟨_, List.mem_singleton.2 rfl, rfl, rfl⟩, okE _ (fun _ _ => last) (by decide +kernel)⟩,
   by decide +kernel, by decide, rfl, rfl, ⟨_, List.mem_singleton.2 rfl, rfl⟩, by decide +kernel, by decide +kernel, okE _ (fun _ _ => last) (by decide +kernel)⟩

/-- A hart in S mode whose s1 holds a value. -/
def sHart (v : Nat) : Hart := { setRegs [(1, v)] plainHart with priv := .s }

/-- The second page of the test, which holds the descriptor of its context at its start. -/
def descMapped (s : State) : State := poke [(0x1C010, 16, testLeaf 0x30000)] s

/-- The test's context in another state. -/
def inState (c : CtxState) (s : State) : State := { s with contexts := s.contexts.map fun x => (x.1, { x.2 with state := c }) }

/-- Sixteen doublewords read as one number. -/
def sixteen (s : State) (h : Hart) (v : Word64) : M Nat := eachFold (List.range 16) 0 (fun x i => do
  let y ← (s.actor h s.curStream).load .home (v + BitVec.ofNat 64 (8 * i)) 8
  pure (x + y * 2 ^ (64 * i)))

/-- ContextsAndCheckpoints: `keyset` with a slot out of range, with a bad operation, a load and a clear. -/
theorem witness_ContextsAndCheckpoints_keys :
    (let s := onX plainHart
     s.hart = some plainHart ∧ plainHart.priv = .u) ∧
    (∀ x ∈ [0, 512, 7 + 2 * 2 ^ 16], let h := sHart (lsAt 0)
     ∃ s, State.hart s = some h ∧ s.curStream = .x ∧ (h.sreg .x 1).toNat % 64 = 0 ∧ s.free h (h.sreg .x 1) 128 true ∧
       ∃ a s1, onlyMg s = .ok a s1 ∧ s1.curStream = .x ∧ s1.hart = some h ∧ ∃ b s2, sixteen s1 h (h.sreg .x 1) s1 = .ok b s2 ∧ b = x ∧ s2.hart = some h) ∧
    (let h := sHart (lsAt 0)
     ∃ s, State.hart s = some h ∧ s.curStream = .x ∧
       ∃ a s1, onlyMg s = .ok a s1 ∧ s1.hart = some h ∧ ∃ b s2, sixteen s1 h (h.sreg .x 1) s1 = .ok b s2 ∧ b = 7 ∧ s2.hart = some h ∧
       ∃ c s3, drain (fun p => p.key == 7) s2 = .ok c s3 ∧ (∀ p ∈ s3.pending, p.key = 7 → p.peer ≠ none) ∧
       ∃ d s4, each (List.range 8) (fun i => (s1.actor h .x).storeNow (h.sreg .x 1 + BitVec.ofNat 64 (8 + 8 * i)) 8 0) s3 = .ok d s4 ∧ s4.level = .s2) ∧
    (let h := sHart (lsAt 0)
     ∃ s, State.hart s = some h ∧ s.curStream = .x ∧
       ∃ a s1, onlyMg s = .ok a s1 ∧ s1.hart = some h ∧ ∃ b s2, sixteen s1 h (h.sreg .x 1) s1 = .ok b s2 ∧ b = 511 + 2 ^ 16 ∧ s2.hart = some h ∧
       ∃ c s3, drain (fun p => p.key == 511) s2 = .ok c s3 ∧ (∀ p ∈ s3.pending, p.key = 511 → p.peer ≠ none) ∧ s3.level = .s2) := by
  refine ⟨⟨rfl, rfl⟩, fun x hx => ?_, ?_, ?_⟩
  · fin_cases hx
    · exact ⟨onX (sHart (lsAt 0)), rfl, rfl, by decide, free_of_none rfl rfl rfl _ _ _, okE _ (fun _ _ => andE _ (isE _ (okE _ fun _ _ => andE _ isL))) (by decide +kernel)⟩
    · exact ⟨place [(0, 8, 512)] (onX (sHart (lsAt 0))), rfl, rfl, by decide, free_of_none rfl rfl rfl _ _ _,
        okE _ (fun _ _ => andE _ (isE _ (okE _ fun _ _ => andE _ isL))) (by decide +kernel)⟩
    · exact ⟨place [(0, 8, 7 + 2 * 2 ^ 16)] (onX (sHart (lsAt 0))), rfl, rfl, by decide, free_of_none rfl rfl rfl _ _ _,
        okE _ (fun _ _ => andE _ (isE _ (okE _ fun _ _ => andE _ isL))) (by decide +kernel)⟩
  · exact ⟨place [(0, 8, 7)] (onX (sHart (lsAt 0))), rfl, rfl,
      okE _ (fun _ _ => isE _ (okE _ fun _ _ => andE _ (isE _ (okE _ fun _ _ => andE _ (okE _ fun _ _ => last))))) (by decide +kernel)⟩
  · exact ⟨place [(0, 8, 511 + 2 ^ 16)] (onX (sHart (lsAt 0))), rfl, rfl,
      okE _ (fun _ _ => isE _ (okE _ fun _ _ => andE _ (isE _ (okE _ fun _ _ => last)))) (by decide +kernel)⟩

/-- ContextsAndCheckpoints: `asidset` on a descriptor that is not bound, and `ctxsave` and `ctxload` on one that is not and on one that is. -/
theorem witness_ContextsAndCheckpoints_contexts :
    (let h := sHart (testVa + 0x800 + 4)
     ∃ s, State.hart s = some h ∧ s.curStream = .x ∧ ∃ a s1, onlyMg s = .ok a s1 ∧ s1.hart = some h ∧
       ∃ desc s2, formAddr .store (BitVec.ofNat 64 ((h.sreg .x 1).toNat / 128 * 128)) s1 = .ok desc s2 ∧
       ∃ status s3, asidCommand ((h.sreg .x 1).toNat % 128) desc failDrains s2 = .ok status s3 ∧ ∃ g, s3.hart = some g ∧ g.slot = 0) ∧
    (∀ x ∈ [(testVa + 0x800, CtxState.running, false), (testVa + 0x10000, .running, true), (testVa + 0x10000, .preempted, true)], let h := sHart (lsAt 0)
     ∃ s, State.hart s = some h ∧ s.curStream = .x ∧ (h.sreg .x 1).toNat % 8 = 0 ∧ s.free h (h.sreg .x 1) 16 true ∧
       ∃ a s1, onlyMg s = .ok a s1 ∧ ∃ target s2, (s1.actor h .x).load .plain (h.sreg .x 1) 8 (some false) s1 = .ok target s2 ∧
       ∃ d s3, (s1.actor h .x).load .plain (h.sreg .x 1 + 8) 4 (some false) s2 = .ok d s3 ∧
       ∃ p s4, (s1.actor h .x).place .store (h.sreg .x 1 + 12) 4 (some false) false s3 = .ok p s4 ∧
       ∃ desc s5, formAddr .load (BitVec.ofNat 64 target) s4 = .ok desc s5 ∧
         ((s5.boundAt desc).isSome = x.2.2 ∧ ∀ c ∈ s5.boundAt desc, c.2.state = x.2.1) ∧ s5.hart = some h ∧
       ∃ b s6, (do
          modCtx 1 fun c => { c with parked := true, waiters := c.waiters ++ [(h.asid, h.sreg .x 1 + 12)] }
          giveDeadline 1 d
          checkCollected 1) s5 = .ok b s6 ∧ ∃ g, s6.hart = some g ∧ g.slot = 0) ∧
    (∀ x ∈ [(testVa + 0x800, false), (testVa + 0x10000, true)], let h := sHart x.1
     ∃ s, State.hart s = some h ∧ s.curStream = .x ∧ ∃ a s1, onlyMg s = .ok a s1 ∧ s1.hart = some h ∧
       ∃ desc s2, formAddr .load (h.sreg .x 1) s1 = .ok desc s2 ∧ (s2.boundAt desc).isSome = x.2 ∧ ∃ g, s2.hart = some g ∧ g.slot = 0) := by
  refine ⟨⟨onX (sHart (testVa + 0x800 + 4)), rfl, rfl, okE _ (fun _ _ => isE _ (okE _ fun _ _ => okE _ fun _ _ => hartE _ fun _ => last)) (by decide +kernel)⟩,
    fun x hx => ?_, fun x hx => ?_⟩
  · fin_cases hx
    · exact ⟨place [(0, 8, testVa + 0x800)] (descMapped (onX (sHart (lsAt 0)))), rfl, rfl, by decide, free_of_none rfl rfl rfl _ _ _, okE _ (fun _ _ => okE _ fun _ _ =>
        okE _ fun _ _ => okE _ fun _ _ => okE _ fun _ _ => andE _ (isE _ (okE _ fun _ _ => hartE _ fun _ => last))) (by decide +kernel)⟩
    · exact ⟨place [(0, 8, testVa + 0x10000)] (descMapped (onX (sHart (lsAt 0)))), rfl, rfl, by decide, free_of_none rfl rfl rfl _ _ _, okE _ (fun _ _ => okE _ fun _ _ =>
        okE _ fun _ _ => okE _ fun _ _ => okE _ fun _ _ => andE _ (isE _ (okE _ fun _ _ => hartE _ fun _ => last))) (by decide +kernel)⟩
    · exact ⟨place [(0, 8, testVa + 0x10000)] (inState .preempted (descMapped (onX (sHart (lsAt 0))))), rfl, rfl, by decide, free_of_none rfl rfl rfl _ _ _,
        okE _ (fun _ _ => okE _ fun _ _ => okE _ fun _ _ => okE _ fun _ _ => okE _ fun _ _ => andE _ (isE _ (okE _ fun _ _ => hartE _ fun _ => last)))
          (by decide +kernel)⟩
  · fin_cases hx
    · exact ⟨descMapped (onX (sHart (testVa + 0x800))), rfl, rfl, okE _ (fun _ _ => isE _ (okE _ fun _ _ => andE _ (hartE _ fun _ => last))) (by decide +kernel)⟩
    · exact ⟨descMapped (onX (sHart (testVa + 0x10000))), rfl, rfl, okE _ (fun _ _ => isE _ (okE _ fun _ _ => andE _ (hartE _ fun _ => last))) (by decide +kernel)⟩

/-- A checkpoint record in the local store: one page, two sources, with a target descriptor and a status; the list of pages is at 0x80. -/
def ckRecord (tdesc status : Nat) (s : State) : State :=
  place [(0, 8, lsAt 0x80), (8, 8, testVa + 0x11000), (0x18, 8, 2 ^ 21), (0x20, 8, tdesc), (0x28, 8, 1 + 2 ^ 32), (0x30, 8, 2 + 31 * 2 ^ 16 + status * 2 ^ 24),
         (0x80, 8, testVa)] (descMapped s)

/-- ContextsAndCheckpoints: a restore into a created context and into one that runs; a freeze; and a wait at each status. -/
theorem witness_ContextsAndCheckpoints_checkpoints :
    (∀ x ∈ [CtxState.created, .running], let h := sHart (lsAt 0)
     ∃ s, State.hart s = some h ∧ s.curStream = .x ∧ ∃ a s1, onlyMg s = .ok a s1 ∧ s1.hart = some h ∧
       ∃ r s2, readCk 1 true false s1 = .ok r s2 ∧ s2.curStream = .x ∧ s2.hart = some h ∧ ∃ desc s3, formAddr .load r.1.tdesc s2 = .ok desc s3 ∧
       ∃ c, s3.boundAt desc = some c ∧ c.2.state = x ∧ ∃ b s4, (s2.actor h .x).storeNow r.1.statusAt 1 4 (some false) none s3 = .ok b s4 ∧ ∃ g, s4.hart = some g ∧ g.slot = 0) ∧
    (let h := sHart (lsAt 0)
     ∃ s, State.hart s = some h ∧ s.curStream = .x ∧ (∃ c, SMap.get? s.contexts h.asid = some c ∧ c.drains = 0) ∧
       ∃ r s1, readCk 1 true true s = .ok r s1 ∧ ∃ a s2, settle .x .dev s1 = .ok a s2 ∧ s2.curStream = .x ∧ s2.hart = some h ∧
       ∃ pages s3, eachMap (List.range r.1.npages) (freezePage (s2.actor h .x) r.1) s2 = .ok pages s3 ∧ pages.length = 1 ∧
       ∃ b s4, (s2.actor h .x).storeNow r.1.statusAt 1 1 (some false) none s3 = .ok b s4 ∧
       ∃ c s5, (do
          modify fun s => { s with drains := s.drains ++ [{ asid := h.asid, ck := r.1, pages := pages }] }
          modCtx h.asid fun c => { c with drains := c.drains + 1 }
          if CtxState.running = .running then setCtxState h.asid .checkpointing else pure () : M Unit) s4 = .ok c s5 ∧ ∃ g, s5.hart = some g ∧ g.slot = 0) ∧
    (let s : State := { onX (sHart 0) with contexts := (onX (sHart 0)).contexts.map fun c => (c.1, { c.2 with drains := 1 }) }
     s.hart = some (sHart 0) ∧ ∃ c, SMap.get? s.contexts (sHart 0).asid = some c ∧ c.drains ≠ 0) ∧
    (∀ x ∈ [1, 2, 3, 4, 5, 6], let h := sHart (lsAt 0)
     ∃ s, State.hart s = some h ∧ s.curStream = .x ∧ ∃ r s1, readCk 1 false false s = .ok r s1 ∧ r.2 = x ∧ s1.hart = some h ∧
       ∃ a s2, refreshPoint .x (s1.putHart (h.setS .x 2 3)) = .ok a s2 ∧ ∃ g, s2.hart = some g ∧ g.slot = 0) := by
  refine ⟨fun x hx => ?_, ⟨ckRecord 0 0 (paged 1 (onX (sHart (lsAt 0)))), rfl, rfl, ⟨_, rfl, rfl⟩, okE _ (fun _ _ => okE _ fun _ _ => andE _ (isE _ (okE _ fun _ _ => andE _
    (okE _ fun _ _ => okE _ fun _ _ => hartE _ fun _ => last)))) (by decide +kernel)⟩, ⟨rfl, _, rfl, by decide⟩, fun x hx => ?_⟩
  · fin_cases hx
    · exact ⟨ckRecord (testVa + 0x10000) 0 (inState .created (onX (sHart (lsAt 0)))), rfl, rfl, okE _ (fun _ _ => isE _ (okE _ fun _ _ => andE _ (isE _
        (okE _ fun _ _ => optE _ fun _ => andE _ (okE _ fun _ _ => hartE _ fun _ => last))))) (by decide +kernel)⟩
    · exact ⟨ckRecord (testVa + 0x10000) 0 (onX (sHart (lsAt 0))), rfl, rfl, okE _ (fun _ _ => isE _ (okE _ fun _ _ => andE _ (isE _
        (okE _ fun _ _ => optE _ fun _ => andE _ (okE _ fun _ _ => hartE _ fun _ => last))))) (by decide +kernel)⟩
  · refine ⟨ckRecord 0 x (onX (sHart (lsAt 0))), rfl, rfl, okE _ (fun _ _ => andE _ (isE _ (okE _ fun _ _ => hartE _ fun _ => last))) ?_⟩
    fin_cases hx <;> decide +kernel

/-- A drain whose record has no unit to write. -/
def drainOf : Drain :=
  { asid := 1, pages := []
    ck := { addr := BitVec.ofNat 64 (lsAt 0), plist := 0, orec := 0, sbase := 0, sspan := 0, tdesc := 0, npages := 0, rmax := 0, g := 2, self := 0, lost := 31 } }

theorem postAt_answers {s : State} (c : Context) {core : Nat} (r : Record) (h : (s.core core).ctxEvents = []) : ∃ t, postAt c core r s = .ok () t := by
  refine ⟨s.modCore core fun k => { k with ctxEvents := k.ctxEvents ++ [{ parent := c.parent, words := r }] }, ?_⟩
  rw [postAt, run_bind]
  change (if (s.core core).ctxEvents.length < ctxEventPlaces then _ else _ : M Unit) s = _
  rw [h]
  rfl

/-- An event of a context is posted where every place for it is free. -/
theorem postEvent_answers {s : State} {asid : Nat} {c : Context} (code : Nat) (w1 w2 w3 : Word64) (hc : SMap.get? s.contexts asid = some c)
    (he : ∀ k < 64, (s.core k).ctxEvents = []) :
    ∃ t, postEvent asid code w1 w2 w3 s = .ok () t ∧ t.outer = s.outer := by
  have e : ∃ t, postEvent asid code w1 w2 w3 s = .ok () t := by
    simp only [postEvent, getCtx, freeWord, run_bind, run_get, hc, run_pure, run_set]
    exact postAt_answers c _ (he _ (Nat.mod_lt _ (by decide)))
  obtain ⟨t, e⟩ := e
  have cl := outer_closed s.outer
  have k : Keeps (fun u => u.outer = s.outer) (postEvent asid code w1 w2 w3) :=
    keeps_bind (keeps_bind keeps_get fun u => by cases SMap.get? u.contexts asid <;> [exact keeps_impossible; exact keeps_pure _]) fun _ =>
      keeps_bind (keeps_freeWord cl) fun _ => keeps_bind (keeps_freeWord cl) fun _ => keeps_bind keeps_get fun _ => by
        split
        · exact keeps_modCore cl _ _
        · exact keeps_waitFor _
  exact ⟨t, e, k.ok e rfl⟩

/-- A context that may resume, with no hart left. -/
def resuming : State := { inState .preempted (onX plainHart) with harts := [], curEv := { a := 1 } }

/-- What a resumption leaves of the saved cores and of the cores' instruction caches. -/
def restored (asid : Nat) (s : State) : State := { s with
  savedCores := SMap.delRange s.savedCores (asid * 64) (asid * 64 + 64)
  cores := s.cores.map fun k => { k with icache := k.icache.filter fun x => match x.2 with
    | .poison _ _ => decide (x.1 / 2 ^ 64 ≠ asid)
    | .word _ _ => true } }

theorem resumption_answers : ∃ c, SMap.get? resuming.contexts resuming.curEv.a = some c ∧
    (c.state = .preempted ∧ c.parked = false ∧ resuming.canResume resuming.curEv.a = true) ∧
    ∃ a s1, (do
        each (resuming.coresOf 1) fun core => do
          switchCore 1 core
          reloadCore 1 core
        each (resuming.savedHarts 1) reloadHart
        moveBarriers 1 .broken .gathering : M Unit) resuming = .ok a s1 ∧
      ∃ b s2, (do
        setCtxState 1 .running
        postEvent 1 5 0 0 0
        each (resuming.kernels.filter fun k => k.2.partOf 1) fun k => tellPeers (.placed 1 k.2.kid)
        each ((resuming.savedHarts 1).map Hart.slot) retakeHart
        contextEmpty 1 : M Unit) (restored 1 s1) = .ok b s2 ∧ s2.level = .s2 := by
  have first : ∃ c, SMap.get? resuming.contexts resuming.curEv.a = some c ∧
      (c.state = .preempted ∧ c.parked = false ∧ resuming.canResume resuming.curEv.a = true) ∧
      ∃ a s1, (do
          each (resuming.coresOf 1) fun core => do
            switchCore 1 core
            reloadCore 1 core
          each (resuming.savedHarts 1) reloadHart
          moveBarriers 1 .broken .gathering : M Unit) resuming = .ok a s1 ∧
        ∃ b s2, setCtxState 1 .running (restored 1 s1) = .ok b s2 ∧ (SMap.get? s2.contexts 1).isSome = true ∧ (∀ k < 64, (s2.core k).ctxEvents = []) ∧
          s2.kernels.any (fun k => k.2.asid == 1) = true ∧ s2.level = .s2 :=
    optE _ (fun _ => andE _ (okE _ fun _ _ => okE _ fun _ _ => last)) (by decide +kernel)
  obtain ⟨c, hc, h1, a, s1, e1, b, s2, e2, hs, he, hk, hl⟩ := first
  obtain ⟨d, hd⟩ := Option.isSome_iff_exists.mp hs
  obtain ⟨t, e3, o⟩ := postEvent_answers 5 0 0 0 hd he
  have kt : t.kernels = s2.kernels := by
    have x := congrArg State.kernels o
    exact x
  have ct : t.contexts = s2.contexts := by
    have x := congrArg State.contexts o
    exact x
  have lt : t.level = s2.level := by
    have x := congrArg State.level o
    exact x
  have hsv : resuming.savedHarts 1 = [] := by decide +kernel
  have hp : resuming.kernels.filter (fun k => k.2.partOf 1) = [] := by decide +kernel
  refine ⟨c, hc, h1, a, s1, e1, (), t, ?_, lt.trans hl⟩
  simp only [run_bind, e2, e3, hsv, hp, List.map_nil, run_each_nil, contextEmpty, run_get, ct, hd, kt, hk, if_true, run_pure]

/-- ContextsAndCheckpoints: a hart that has not stopped, one that has been collected, one with work that S1 holds and one with a store that it holds; and one
to collect. -/
theorem witness_ContextsAndCheckpoints_collector :
    (SMap.get? (onX plainHart).harts 0 = some plainHart ∧ plainHart.stopped = false) ∧
    (let h : Hart := { plainHart with stopped := true, acked := true }
     SMap.get? (onX h).harts 0 = some h ∧ h.stopped = true ∧ h.acked = true) ∧
    (let h : Hart := { plainHart with stopped := true }
     let s : State := { onX h with held := [heldLoad .x] }
     SMap.get? s.harts 0 = some h ∧ ∃ w ∈ s.held, w.slot = 0) ∧
    (let h : Hart := { plainHart with stopped := true }
     let s : State := { onX h with pending := [inFlight (.peer 0 8) 8 7], level := .s1 }
     SMap.get? s.harts 0 = some h ∧ ∃ a s1, drainHart 0 s = .ok a s1 ∧ ∃ p ∈ s1.pending, p.slot = 0) ∧
    (let h : Hart := { plainHart with stopped := true }
     SMap.get? (onX h).harts (onX h).curEv.a = some h ∧ ∃ a s1, collectHart 0 (onX h) = .ok a s1 ∧ s1.level = .s2) :=
  ⟨⟨rfl, rfl⟩, ⟨rfl, rfl, rfl⟩, ⟨rfl, _, List.mem_singleton.2 rfl, rfl⟩, ⟨rfl, okE _ (fun _ _ => last) (by decide +kernel)⟩,
   rfl, okE _ (fun _ _ => last) (by decide +kernel)⟩

/-- Events of core 0 for a context or the host. -/
def posting (parents : List Nat) (s : State) : State := s.modCore 0 fun k => { k with ctxEvents := parents.map fun p => { parent := p, words := tagged 1 } }

/-- The test's context with a ring of two events at the test's page, of which some are not read. -/
def ringed (count : Nat) (s : State) : State := poke [(0x30040, 8, testVa), (0x30048, 8, 1), (0x30050, 8, count), (0x30058, 8, 0)] s

/-- ContextsAndCheckpoints: an event behind another of its parent; one for the host, whose ring has a place or is full; and one for a parent, likewise. -/
theorem witness_ContextsAndCheckpoints_postings :
    (let s : State := { posting [1, 1] (onX plainHart) with curEv := { a := 0, b := 1 } }
     ∃ x, (s.core 0).ctxEvents[s.curEv.b]? = some x ∧ ¬∀ y ∈ (s.core 0).ctxEvents.take s.curEv.b, y.parent ≠ x.parent) ∧
    (∀ n ∈ [0, 256], let s : State := { posting [1, 0xFFFF] (onX plainHart) with curEv := { a := 0, b := 1 }, hostEvents := List.replicate n (tagged 1) }
     ∃ x, (s.core 0).ctxEvents[s.curEv.b]? = some x ∧ ((∀ y ∈ (s.core 0).ctxEvents.take s.curEv.b, y.parent ≠ x.parent) ∧ x.parent = 0xFFFF) ∧ s.hostEvents.length = n) ∧
    (∀ n ∈ [1, 2], let s := posting [1] (ringed n (onX plainHart))
     ∃ x, (s.core 0).ctxEvents[s.curEv.b]? = some x ∧ ((∀ y ∈ (s.core 0).ctxEvents.take s.curEv.b, y.parent ≠ x.parent) ∧ x.parent ≠ 0xFFFF) ∧
       ∃ c, SMap.get? s.contexts x.parent = some c ∧ ∃ evr s1, hwRead (c.desc + 64) 8 s = .ok evr s1 ∧ ∃ sz s2, hwRead (c.desc + 72) 1 s1 = .ok sz s2 ∧
       ∃ hd s3, hwRead (c.desc + 80) 8 s2 = .ok hd s3 ∧ ∃ tl s4, hwRead (c.desc + 88) 8 s3 = .ok tl s4 ∧
       ((hd + 2 ^ 64 - tl) % 2 ^ 64 = n ∧ 2 ^ (sz % 16) = 2) ∧ ∃ a s5, (do
             each ([x.words.w0, x.words.w1, x.words.w2, x.words.w3].zipIdx) fun (w, i) =>
               (deviceActor deviceSlot x.parent).storeNow (BitVec.ofNat 64 (evr + hd % 2 ^ (sz % 16) * 32) + BitVec.ofNat 64 (8 * i)) 8 w.toNat
             hwWrite (c.desc + 80) ((hd + 1) % 2 ^ 64) 8) s4 = .ok a s5 ∧ s5.level = .s2) := by
  refine ⟨optE _ (fun _ => last) (by decide +kernel), fun n hn => ?_, fun n hn => ?_⟩
  · fin_cases hn
    · exact optE _ (fun _ => andE _ last) (by decide +kernel)
    · exact optE _ (fun _ => andE _ last) (by decide +kernel)
  · fin_cases hn
    · exact optE _ (fun _ => andE _ (optE _ fun _ => okE _ fun _ _ => okE _ fun _ _ => okE _ fun _ _ => okE _ fun _ _ => andE _ (okE _ fun _ _ => last)))
        (by decide +kernel)
    · exact optE _ (fun _ => andE _ (optE _ fun _ => okE _ fun _ _ => okE _ fun _ _ => okE _ fun _ _ => okE _ fun _ _ => andE _ (okE _ fun _ _ => last)))
        (by decide +kernel)

/-- ContextsAndCheckpoints: the events: a countdown that is over, a context that may resume, with no hart left, and the ends of a drain and of a restore. -/
theorem witness_ContextsAndCheckpoints_events :
    (let h : Hart := { plainHart with deadline := some 0 }
     let s := inState .yielding (onX h)
     SMap.get? s.harts s.curEv.a = some h ∧ h.stopped = false ∧ ∃ c, SMap.get? s.contexts h.asid = some c ∧ c.state = .yielding) ∧
    (let s : State := { inState .preempted (onX plainHart) with harts := [], curEv := { a := 1 } }
     ∃ c, SMap.get? s.contexts s.curEv.a = some c ∧ (c.state = .preempted ∧ c.parked = false ∧ s.canResume s.curEv.a = true) ∧
       ∃ a s1, (do
          each (s.coresOf 1) fun core => do
            switchCore 1 core
            reloadCore 1 core
          each (s.savedHarts 1) reloadHart
          moveBarriers 1 .broken .gathering : M Unit) s = .ok a s1 ∧
       ∃ b s2, (do
          setCtxState 1 .running
          postEvent 1 5 0 0 0
          each (s.kernels.filter fun k => k.2.partOf 1) fun k => tellPeers (.placed 1 k.2.kid)
          each ((s.savedHarts 1).map Hart.slot) retakeHart
          contextEmpty 1 : M Unit) (restored 1 s1) = .ok b s2 ∧ s2.level = .s2) ∧
    (let s : State := { onX plainHart with drains := [drainOf] }
     s.drains[s.curEv.a]? = some drainOf ∧ ∃ x s1, writeUnits drainOf s = .ok x s1 ∧
       ∃ a s2, finishDrain drainOf (some x.1) (if x.2 then 3 else 2) { s1 with drains := s1.drains.eraseIdx s.curEv.a } = .ok a s2 ∧ s2.level = .s2) ∧
    (let r : Restore := { asid := 1, ck := drainOf.ck, target := some 1 }
     let s : State := { onX plainHart with restores := [r] }
     s.restores[s.curEv.a]? = some r ∧ SMap.get? s.contexts r.asid ≠ none ∧
       ∃ ok s1, restoreRows r 1 { s with restores := s.restores.eraseIdx s.curEv.a } = .ok ok s1 ∧ ok = true ∧
       ∃ a s2, (do
          writeCk r.asid (r.ck.addr + 52) 4 (r.ck.rows * (r.ck.g - 1))
          writeCk r.asid r.ck.statusAt 1 (if r.ck.lost = 31 then 5 else 6) : M Unit) { s1 with freeCtr := s1.freeCtr + 1 } = .ok a s2 ∧ s2.level = .s2) ∧
    (let r : Restore := { asid := 9, ck := drainOf.ck, target := some 1 }
     let s : State := { onX plainHart with restores := [r] }
     s.restores[s.curEv.a]? = some r ∧ SMap.get? s.contexts r.asid = none) :=
  ⟨⟨rfl, rfl, _, rfl, rfl⟩,
   resumption_answers,
   ⟨rfl, okE _ (fun _ _ => okE _ fun _ _ => last) (by decide +kernel)⟩,
   ⟨rfl, by decide +kernel, okE _ (fun _ _ => andE _ (okE _ fun _ _ => last)) (by decide +kernel)⟩, rfl, rfl⟩

/-- A command of the host rung, with its arguments. -/
def rung (cmd : Nat) (args : List Nat) (s : State) : State :=
  { s with mailbox := { s.mailbox with status := 1, task := cmd, args := args.flatMap (bytesOf · 8) ++ s.mailbox.args.drop (8 * args.length) } }

/-- An argument of the command. -/
def argOf (s : State) (i : Nat) : Nat := bytesLE s.mailbox.args (8 * i) 8

/-- A context descriptor for another context at 0x30800. -/
def described (s : State) : State := poke [(0x30800, 128, 0x10000 + 2 * 2 ^ 64 + 2 ^ 96 + 2 ^ 576)] s

/-- A page control block at 0x40000 that satisfies R213, not yet in force. -/
def pcbSound (s : State) : State := poke ((0x40018, 8, 1) :: (List.range 17).map fun n => (0x40000 + ringBase n + 8, 8, 1)) s

/-- TheHostIsServed: commands in S0; a context's root that is misplaced, one bound already, and one taken; a page control block that is refused, one sound and
one not. -/
theorem witness_TheHostIsServed_tables :
    (∀ n ∈ [1, 2, 3, 7], let s := rung n [] State.reset
     s.level = .s0 ∧ s.mailbox.status = 1 ∧ s.mailbox.task = n) ∧
    (∀ x ∈ [0x30001, 2 ^ 63], let s := rung 1 [x] (onX plainHart)
     s.mailbox.status = 1 ∧ s.mailbox.task = 1 ∧ s.level ≠ .s0 ∧ (argOf s 0 % 128 ≠ 0 ∨ inHbm (argOf s 0) = false)) ∧
    (let s := rung 1 [0x30000] (onX plainHart)
     (argOf s 0 = 0x30000 ∧ inHbm 0x30000 = true) ∧ ∃ a s1, hwWrite (0x30000 + 14) 0xFFFF 2 s = .ok a s1 ∧ ∃ b s2, bindCtx 0x30000 s1 = .ok b s2 ∧ b ≠ 0) ∧
    (let s := rung 1 [0x30800] (described (onX plainHart))
     argOf s 0 = 0x30800 ∧ ∃ a s1, hwWrite (0x30800 + 14) 0xFFFF 2 s = .ok a s1 ∧ ∃ b s2, bindCtx 0x30800 s1 = .ok b s2 ∧ b = 0 ∧ ∃ x, s2.boundAt 0x30800 = some x ∧
       ∃ o s3, openCtx x.1 x.2 s2 = .ok o s3 ∧ s3.level = .s2) ∧
    (let s := rung 2 [0x40000] (paged 1 (onX plainHart))
     s.mailbox.task = 2 ∧ s.level ≠ .s0 ∧ s.pcb ≠ none) ∧
    (∀ x ∈ [true, false], let s := rung 2 [0x40000] (if x then pcbSound (onX plainHart) else onX plainHart)
     s.pcb = none ∧ argOf s 0 = 0x40000 ∧ ∃ b s1, pcbValid 0x40000 s = .ok b s1 ∧ b = x) :=
  ⟨by decide +kernel, by decide +kernel, ⟨by decide +kernel, okE _ (fun _ _ => okE _ fun _ _ => last) (by decide +kernel)⟩,
   ⟨by decide +kernel, okE _ (fun _ _ => okE _ fun _ _ => andE _ (optE _ fun _ => okE _ fun _ _ => last)) (by decide +kernel)⟩, by decide +kernel,
   fun x hx => ⟨by cases x <;> rfl, by revert x; decide +kernel, okE _ (fun _ _ => last) (by revert x; decide +kernel)⟩⟩

/-- The entries of a fabric table at an address. -/
def entriesAt (s : State) : M (List Nat) := eachMap (List.range (argOf s 1)) fun i => hwRead (argOf s 0 + 16 * i) 16

/-- TheHostIsServed: a fabric table in S1; one while a kernel of a fabric group runs, one of too many entries, one without this device, and one past the
memory; one of one entry, at the end of the memory; and one with a reserved bit set. -/
theorem witness_TheHostIsServed_fabric :
    (let s : State := { rung 3 [] (onX plainHart) with level := .s1 }
     s.level = .s1 ∧ s.mailbox.status = 1 ∧ s.mailbox.task = 3) ∧
    (let s := rung 3 [0x50000, 1, 0] (fabbed (onX plainHart))
     s.level = .s2 ∧ ∃ k ∈ s.kernels, k.2.fab = true) ∧
    (∀ x ∈ [[0x50000, 513, 0], [0x50000, 1, 1], [hbmEnd - 8, 1, 0]], let s := rung 3 x (onX plainHart)
     s.level = .s2 ∧ (512 < argOf s 1 ∨ argOf s 1 ≤ argOf s 2 ∨ inMemory (argOf s 0) (16 * argOf s 1) = false)) ∧
    (let s := rung 3 [hbmEnd - 16, 1, 0] (onX plainHart)
     (s.level = .s2 ∧ (∀ k ∈ s.kernels, k.2.fab = false) ∧ argOf s 1 ≤ 512 ∧ argOf s 2 < argOf s 1 ∧ inMemory (argOf s 0) (16 * argOf s 1) = true) ∧
       ∃ es s1, entriesAt s s = .ok es s1 ∧ ∀ x ∈ es, x / 2 ^ 73 % 2 ^ 7 = 0 ∧ x / 2 ^ 89 % 2 ^ 39 = 0) ∧
    (let s := rung 3 [0x50000, 1, 0] (poke [(0x50000, 16, 2 ^ 73)] (onX plainHart))
     (s.level = .s2 ∧ (∀ k ∈ s.kernels, k.2.fab = false) ∧ argOf s 1 ≤ 512 ∧ argOf s 2 < argOf s 1 ∧ inMemory (argOf s 0) (16 * argOf s 1) = true) ∧
       ∃ es s1, entriesAt s s = .ok es s1 ∧ ∃ x ∈ es, x / 2 ^ 73 % 2 ^ 7 ≠ 0 ∨ x / 2 ^ 89 % 2 ^ 39 ≠ 0) :=
  ⟨by decide +kernel, ⟨rfl, _, List.mem_singleton.2 rfl, rfl⟩, by decide +kernel, ⟨by decide +kernel, okE _ (fun _ _ => last) (by decide +kernel)⟩,
   ⟨by decide +kernel, okE _ (fun _ _ => last) (by decide +kernel)⟩⟩

/-- A signed object of no body at 0x60000. -/
def objected (s : State) : State := poke [(0x60000, 16, 0x50464E5A + 2 ^ 32 + 0xFF * 2 ^ 40 + 3 * 2 ^ 64)] s

/-- The bytes of the object that a stage names. -/
def staged (s : State) : M (List Byte) := eachMap (List.range (argOf s 1)) fun i => do
  let b ← hwRead (argOf s 0 + i) 1
  pure (BitVec.ofNat 8 b)

/-- TheHostIsServed: the event ring empty and not, the log, an object too short, one whose length is not its own, one that is no object, and one whose signature
is then good or is not; an attestation with leaves left and with none; a key for the aperture in range and out of it; and a reset. -/
theorem witness_TheHostIsServed_commands :
    (∀ l ∈ [[], [tagged 1]], let s := rung 4 [] { onX plainHart with hostEvents := l }
     s.mailbox.status = 1 ∧ s.mailbox.task = 4 ∧ s.hostEvents = l) ∧
    (∀ n ∈ [5, 9], let s := rung n [] (onX plainHart)
     s.mailbox.status = 1 ∧ s.mailbox.task = n) ∧
    (∀ x ∈ [[0x60000, 2835], [hbmEnd - 2835, 2836]], let s := rung 6 x (onX plainHart)
     s.mailbox.task = 6 ∧ (inMemory (argOf s 0) (argOf s 1) = false ∨ argOf s 1 < 2836)) ∧
    (let s := rung 6 [0x60000, 2837] (onX plainHart)
     ∃ l s1, staged s s = .ok l s1 ∧ argOf s 1 ≠ 16 + bytesLE l 12 4 + 2820) ∧
    (let s := rung 6 [0x60000, 2836] (onX plainHart)
     ∃ l s1, staged s s = .ok l s1 ∧ (argOf s 1 = 16 + bytesLE l 12 4 + 2820 ∧ bytesLE l 0 4 ≠ 0x50464E5A)) ∧
    (let s := rung 6 [0x60000, 2836] (objected (onX plainHart))
     (s.mailbox.task = 6 ∧ inMemory (argOf s 0) (argOf s 1) = true) ∧ ∃ l s1, staged s s = .ok l s1 ∧
       (2836 = 16 + bytesLE l 12 4 + 2820 ∧ bytesLE l 0 4 = 0x50464E5A ∧ bytesLE l 4 1 = 1 ∧ bytesLE l 5 1 = 0xFF ∧ s1.flash.staged = [] ∧
         (SMap.get? s1.flash.counters (1 * 256 + 0xFF)).getD 0 ≤ bytesLE l 8 4) ∧ (Config.xmssVerify l = false ∨ Config.xmssVerify l = true)) ∧
    (∀ n ∈ [0, 2 ^ 20], let s := rung 7 [] (onX plainHart)
     let s := { s with flash := { s.flash with leafIndex := n } }
     s.mailbox.task = 7 ∧ s.level ≠ .s0 ∧ s.flash.leafIndex = n) ∧
    (∀ n ∈ [511, 512], let s := rung 8 [n] (onX plainHart)
     s.mailbox.task = 8 ∧ argOf s 0 = n) :=
  ⟨by decide +kernel, by decide +kernel, by decide +kernel, okE _ (fun _ _ => last) (by decide +kernel), okE _ (fun _ _ => last) (by decide +kernel),
   ⟨by decide +kernel, okE _ (fun l _ h => ⟨last h, by cases Config.xmssVerify l <;> simp⟩) (by decide +kernel)⟩, by decide +kernel, by decide +kernel⟩

/-- TheHostIsServed: the boot events, whose objects verify or do not as their signatures have it, with the training ended well or not; and an object that has
another's kind, and one that has its own. -/
theorem witness_TheHostIsServed_boot :
    (∀ b ∈ [false, true], ∀ n ∈ [0, 4], let s : State := { State.reset with boot := n, curEv := { yes := b } }
     let c := ((s.flash.install 0xFF).install 0).verify [(1, 0xFF)]
     s.level = .s0 ∧ (s.boot = 0 ∨ s.boot = 4) ∧ s.curEv.yes = b ∧ (c.2 = false ∨ c.2 = true)) ∧
    (∀ b ∈ [false, true], let s : State := { State.reset with level := .s1, curEv := { yes := b } }
     let d := (((s.flash.install 1).install 2).install 3).verify [(2, 1), (3, 1), (2, 2), (3, 2), (2, 3), (3, 3)]
     s.level = .s1 ∧ (s.boot = 0 ∨ s.boot = 4) ∧ s.curEv.yes = b ∧ (d.2 = false ∨ d.2 = true)) ∧
    (let f : Flash := { State.reset.flash with objects := [{ kind := 2, die := 0, version := 3, bytes := bytesOf (0x50464E5A + 2 ^ 32 + 3 * 2 ^ 64) 16 }] }
     bytesLE (f.object 2 0) 4 1 ≠ 2) ∧
    (let f : Flash := { State.reset.flash with objects := [{ kind := 2, die := 0, version := 3, bytes := bytesOf (0x50464E5A + 2 * 2 ^ 32 + 3 * 2 ^ 64) 16 }] }
     bytesLE (f.object 2 0) 4 1 = 2 ∧ bytesLE (f.object 2 0) 5 1 = 0 ∧ (f.accepts (f.object 2 0) = false ∨ f.accepts (f.object 2 0) = true)) := by
  refine ⟨fun b _ n hn => ?_, fun b _ => ⟨rfl, .inl rfl, rfl, ?_⟩, by decide +kernel, by decide +kernel, by decide +kernel, ?_⟩
  · refine ⟨rfl, ?_, rfl, ?_⟩
    · change n = 0 ∨ n = 4
      simpa using hn
    · cases (((State.reset.flash.install 0xFF).install 0).verify [(1, 0xFF)]).2 <;> simp
  · cases ((((State.reset.flash.install 1).install 2).install 3).verify [(2, 1), (3, 1), (2, 2), (3, 2), (2, 3), (3, 3)]).2 <;> simp
  · exact (Bool.eq_false_or_eq_true _).symm

/-- TheHostIsServed: the host's window, written and read, and the aperture. -/
theorem witness_TheHostIsServed_windows :
    (∀ n ∈ [8, 9], let e : EvArgs := { a := 0xFF0, b := n, w := 5, data := 6 }
     e.yes = false ∧ e.a + e.b ≤ 0x1000) ∧
    (let s : State := { rung 0 [] (onX plainHart) with curEv := { a := 0x1000, b := 4, w := 7 } }
     s.curEv.yes = false ∧ s.curEv.a = 0x1000 ∧ s.curEv.b = 4 ∧ s.mailbox.status = 1) ∧
    (let s : State := { onX plainHart with curEv := { a := 0x1000, b := 4, w := 7 } }
     s.curEv.yes = false ∧ s.curEv.a = 0x1000 ∧ s.curEv.b = 4 ∧ s.mailbox.status ≠ 1) ∧
    (∀ n ∈ [0x1001, 0xFFFFF, 0x108000], 0x1000 < ({ a := n } : EvArgs).a ∧ (({ a := n } : EvArgs).a < 0x100000 ∨ 0x108000 ≤ ({ a := n } : EvArgs).a)) ∧
    (∃ r s1, doorbell 0 1 (fun asid => postEvent asid 4 0 0 0) (queued 1 (onX plainHart)) = .ok r s1 ∧ r = .accepted) ∧
    (let s : State := { onX plainHart with curEv := { a := 4, b := 4, yes := true } }
     s.curEv.yes = true ∧ s.curEv.b = 4 ∧ (s.curEv.a, s.mailbox.seq) ∈ [(0, s.mailbox.cmd), (4, s.mailbox.seq), (8, s.mailbox.status)]) ∧
    (let e : EvArgs := { a := 0x2000, b := 8, yes := true }
     e.yes = true ∧ e.a = 0x2000 ∧ e.b = 8) ∧
    (∀ x ∈ [(0x1001, 8), (0x1FF8, 8), (0x2008, 8), (0xFFFFF, 1), (0x108000, 8)],
     1 ≤ x.2 ∧ (0x1000 < x.1 ∧ x.1 + x.2 ≤ 0x2000 ∨ 0x2008 ≤ x.1 ∧ x.1 < 0x100000 ∨ 0x108000 ≤ x.1)) ∧
    (onX plainHart).boot < 16 ∧ (hbmEnd < hbmEnd - 7 + 8) ∧
    (∃ a s1, outsideStore 0 (hbmEnd - 8) 8 7 (onX plainHart) = .ok a s1 ∧ s1.level = .s2) ∧
    (∃ a s1, outsideWrite 0 0x20000 9 7 (onX plainHart) = .ok a s1 ∧ s1.level = .s2) ∧
    ((onX plainHart).drains = [] ∧ ∃ a s1, outsideWrite 0 0x20000 32 7 (onX plainHart) = .ok a s1 ∧ s1.level = .s2) ∧
    (∃ v s1, outsideLoad 0 0x20000 4 (onX plainHart) = .ok v s1 ∧ v = 0) ∧
    (∃ v s1, outsideRead 0 0x20001 9 (onX plainHart) = .ok v s1 ∧ v = 0) :=
  ⟨by decide, ⟨rfl, rfl, rfl, rfl⟩, ⟨rfl, rfl, rfl, by decide⟩, by decide, okE _ (fun _ _ => last) (by decide +kernel), by decide +kernel, ⟨rfl, rfl, rfl⟩,
   by decide, by decide +kernel, by decide, okE _ (fun _ _ => last) (by decide +kernel), okE _ (fun _ _ => last) (by decide +kernel),
   ⟨rfl, okE _ (fun _ _ => last) (by decide +kernel)⟩, okE _ (fun _ _ => last) (by decide +kernel), okE _ (fun _ _ => last) (by decide +kernel)⟩

/-- A device with a port of the links in a state, and a peer that the port reaches. -/
def linked (v : VoltorState) (e : EvArgs) : State :=
  { onX plainHart with
    voltor := vput (onX plainHart).voltor 0 { Voltor.start with state := v }, curEv := e
    fabric := [{ id := 1, ports := 1, valid := true, key := 0 }] }

/-- LinksAndBackgroundGoOn: ports in each state, with a training that takes too long and one that does not; a flit that is good or is not; and a port that can
take a flit. -/
theorem witness_LinksAndBackgroundGoOn_links :
    (∀ b ∈ [true, false], let s := linked .down { yes := b }
     s.level = .s2 ∧ s.cxl.getD s.curEv.a .failed = .untrained ∧ s.curEv.yes = b) ∧
    (∀ b ∈ [0, 1, 2], let s := linked .training { b := b, c := 1 }
     s.curEv.a < 8 ∧ (s.voltor.getD 0 .start).state = .training ∧ s.curEv.b ≤ 32 ∧ s.curEv.c ≤ 2 ∧ (s.voltor.getD 0 .start).cycles < 2 ^ 24) ∧
    (let s : State := { linked .training {} with voltor := vput (linked .training {}).voltor 0 { Voltor.start with state := .training, cycles := 2 ^ 24 } }
     (s.voltor.getD 0 .start).state = .training ∧ 2 ^ 24 ≤ (s.voltor.getD 0 .start).cycles) ∧
    (∀ x ∈ [VoltorState.up, .degraded, .down, .training], ((linked x {}).voltor.getD 0 .start).state = x ∧ (linked x {}).level = .s2) ∧
    (let s := linked .up {}
     let flit := BitVec.ofNat 2048 s.curEv.data
     ¬Config.crc64 (flit.extractLsb' 0 1984) = flit.extractLsb' 1984 64 ∨ Config.crc64 (flit.extractLsb' 0 1984) = flit.extractLsb' 1984 64) ∧
    (linked .up {}).openPorts 0 (PeerMsg.answer 5 8).flits = [0] := by
  refine ⟨by decide +kernel, by decide +kernel, by decide +kernel, by decide +kernel, (Classical.em _).symm, by decide +kernel⟩

/-- A peer's access: a kind, a number of bytes, and whether it writes. -/
def peerAccess (d c : Nat) (w : Bool) (data : Nat) : EvArgs := { b := 0x20000, c := c, d := d, w := 5, yes := w, data := data }

/-- LinksAndBackgroundGoOn: accesses of a peer: a store of one doubleword and of more, a load, an atomic that writes and one that does not. -/
theorem witness_LinksAndBackgroundGoOn_peers :
    (∀ x ∈ [peerAccess 0 8 true 5, peerAccess 0 256 true 5, peerAccess 0 256 false 0, peerAccess 1 8 false 0, peerAccess 9 4 false 1], let s := linked .up x
     ∃ f, s.fabric[s.curEv.a]? = some f ∧ f.valid = true ∧ s.peerReached f = true ∧ s.peerWaits s.curEv.a 2 = false ∧ s.level = .s2 ∧ s.curEv.b + s.curEv.c ≤ hbmEnd) ∧
    (∃ a s1, outsideStore 0 0x20000 8 5 (linked .up (peerAccess 0 8 true 5)) = .ok a s1 ∧ s1.level = .s2) ∧
    (∃ a s1, outsideWrite 0 0x20000 256 5 (linked .up (peerAccess 0 256 true 5)) = .ok a s1 ∧ s1.level = .s2) ∧
    (∃ x s1, outsideRead 0 0x20000 256 (linked .up (peerAccess 0 256 false 0)) = .ok x s1 ∧ ∃ a s2, sendFlit 0 (.answer x 256) s1 = .ok a s2 ∧ s2.level = .s2) ∧
    (∃ x s1, outsideLoad 0 0x20000 8 (linked .up (peerAccess 1 8 false 0)) = .ok x s1 ∧ AmoOp.result 64 x 5 0 .add = some 5 ∧
       ∃ a s2, outsideStore 0 0x20000 8 5 s1 = .ok a s2 ∧ ∃ b s3, sendFlit 0 (.answer x 8) s2 = .ok b s3 ∧ s3.level = .s2) ∧
    (∃ x s1, outsideLoad 0 0x20000 4 (linked .up (peerAccess 9 4 false 1)) = .ok x s1 ∧ AmoOp.result 32 x 5 1 .cas = none ∧
       ∃ b s3, sendFlit 0 (.answer x 4) s1 = .ok b s3 ∧ s3.level = .s2) :=
  ⟨fun x hx => optE _ (fun _ => last) (by revert x; decide +kernel), okE _ (fun _ _ => last) (by decide +kernel), okE _ (fun _ _ => last) (by decide +kernel),
   okE _ (fun _ _ => okE _ fun _ _ => last) (by decide +kernel), okE _ (fun _ _ => andE _ (okE _ fun _ _ => okE _ fun _ _ => last)) (by decide +kernel),
   okE _ (fun _ _ => andE _ (okE _ fun _ _ => last)) (by decide +kernel)⟩

/-- What is reported of the stores of a context lost on the way to a peer: all of them at once, and none where the context is not bound (R271). -/
def Reports (s u : State) (asid peer : Nat) : Prop :=
  let mine (x : Lost) : Bool := x.asid == asid && x.peer == peer
  ∃ x rest, u.lost.filter mine = x :: rest ∧ (SMap.get? s.contexts asid = none ∨ ∃ a r,
    postHartEvent asid 7 0 x.slot (BitVec.ofNat 64 peer) (BitVec.ofNat 64 (0x8000000000000 + peer * 0x10000000000 + x.off)) (BitVec.ofNat 64 (rest.length + 1))
      { u with lost := u.lost.filter fun x => !mine x } = .ok a r ∧ r.level = .s2)

/-- LinksAndBackgroundGoOn: a store in flight with no route, of a context that is bound and of one that is not, and two lost before, reported together. -/
theorem witness_LinksAndBackgroundGoOn_lost :
    (∀ n ∈ [1, 5], let q := { inFlight (.peer 0 8) 1 7 with asid := n }
     let s : State := { linked .down {} with pending := [q] }
     s.curEv.yes = false ∧ s.pending[0]? = some q ∧ q.peer = some (0, 8) ∧ s.level = .s2 ∧ s.peerWaits 0 (PeerMsg.store q).flits = false ∧
       s.openPorts 0 (PeerMsg.store q).flits = [] ∧ Reports s { s with pending := [], lost := s.lost ++ [{ asid := n, slot := q.slot, peer := 0, off := 8 }] } n 0) ∧
    (let x : Lost := { asid := 1, slot := 0, peer := 0, off := 8 }
     let s : State := { linked .down { yes := true } with lost := [x, { x with peer := 1 }, x] }
     s.curEv.yes = true ∧ s.lost = x :: [{ x with peer := 1 }, x] ∧ Reports s s x.asid x.peer) := by
  refine ⟨fun n hn => ?_, rfl, rfl, _, _, rfl, .inr (okE _ (fun _ _ => last) (by decide +kernel))⟩
  have e : n = 1 ∨ n = 5 := by simpa using hn
  obtain rfl | rfl := e
  · exact ⟨rfl, rfl, rfl, rfl, by decide +kernel, by decide +kernel, _, _, rfl, .inr (okE _ (fun _ _ => last) (by decide +kernel))⟩
  · exact ⟨rfl, rfl, rfl, rfl, by decide +kernel, by decide +kernel, _, _, rfl, .inl (by decide +kernel)⟩

/-- A hart that has waited for its queues for 64 cycles. -/
def deadHart : Hart := { trapHart with arun := false, waitX := some .queue, deadCount := 64 }

/-- LinksAndBackgroundGoOn: clocks, sweeps at each side of the water marks, a hart in deadlock, words fetched ahead and words that cannot be, and
cycles, one of which ends and one of which a stream has still to issue in. -/
theorem witness_LinksAndBackgroundGoOn_background :
    (let s : State := onX plainHart
     s.level = .s2 ∧ s.clock.getD 0 875 + 125 ≤ 1750) ∧
    (let s : State := { onX plainHart with clock := Vector.replicate 4 1000 }
     1000 ≤ s.clock.getD 0 875) ∧
    (∀ x ∈ [(false, 2, 3), (true, 1, 1), (true, 2, 3)], let s : State := { poke [(0x40020, 8, x.2.1 + x.2.2 * 2 ^ 32)] (paged 1 (onX plainHart)) with
        sweeping := vput (onX plainHart).sweeping 0 x.1 }
     s.level = .s2 ∧ s.pcb ≠ none ∧ s.sweeping.getD 0 false = x.1 ∧ ∃ n s1, ringCount 0 s = .ok n s1 ∧ n = 1 ∧
       ∃ w s2, pcbWord (0x20 + 16 * 0) s1 = .ok (some w) s2 ∧ (w % 2 ^ 32 = x.2.1 ∧ w / 2 ^ 32 % 2 ^ 32 = x.2.2) ∧
       ∃ tier s3, demotionTier s2 = .ok (some tier) s3 ∧ ∃ a s4, examineFrame (0 * 0x180000 * 2 ^ 16 + s.hands.getD 0 0 * 2 ^ 16) tier s3 = .ok a s4 ∧ s4.level = .s2) ∧
    (let s := onX deadHart
     ∃ h, SMap.get? s.harts 0 = some h ∧ (h.deadlocked = true ∧ 64 ≤ h.deadCount) ∧ ∃ a s1, trapEntry 0x0E (h.wordX.setWidth 64) 0 { s with curSlot := 0, curStream := .x } = .ok a s1 ∧
       s1.level = .s2) ∧
    (let s := onX plainHart
     ∃ h, SMap.get? s.harts 0 = some h ∧ (∃ r s1, fetchHome (s.actor h .x) (BitVec.ofNat 64 testVa) s = .ok r s1 ∧ r.1 = some 0x20000) ∧
       ∃ c v b k t, fetchHome (s.actor h .x) 0 s = .error (.trap c v b k) t) ∧
    (let s : State := { onX plainHart with cores := (onX plainHart).cores.map fun k => { k with l1 := [(0x1000, { bytes := 0, stamp := 0, poison := [] })] } }
     SMap.get? (s.core 0).l1 0x1000 = some { bytes := 0, stamp := 0, poison := [] }) ∧
    (let s := onX plainHart
     s.level = .s2 ∧ s.owes 0 = true) ∧
    (let s := (onX { plainHart with arun := false }).charge 0 .scalar
     s.level = .s2 ∧ s.owes 0 = false ∧ SMap.get? s.harts 0 = some { plainHart with arun := false }) := by
  refine ⟨by decide +kernel, by decide +kernel, fun x hx => ⟨?_, ?_, ?_, ?_⟩, ⟨_, rfl, by decide +kernel, okE _ (fun _ _ => last) (by decide +kernel)⟩,
    ⟨_, rfl, okE _ (fun _ _ => last) (by decide +kernel), trapL (by decide +kernel)⟩, by decide +kernel, by decide +kernel, rfl, by decide +kernel, rfl⟩
  · rfl
  · decide +revert +kernel
  · decide +revert +kernel
  · refine okE _ (fun _ _ => andE _ (someE _ fun _ _ => andE _ (someE _ fun _ _ => okE _ fun _ _ => last))) ?_
    decide +revert +kernel

/-- The turn of the execute stream of hart 0, with a word at its program counter. -/
def turnOf (h : Hart) (w : Nat) : State := { State.reset.loaded h w with agenda := [.issue 0 .x] }

/-- The state in which a turn of hart 0's execute stream begins. -/
def begun (s : State) : State := ({ s with tick := s.tick + 1, agenda := [] } : State).fixedBy (.issue 0 .x)

/-- What a turn fetches from. -/
def turnState (v : State) : State := { v with curSlot := 0, curStream := .x, curWord := 0, curFetch := (0, 0), curStop := none }

/-- StepRunsTheDecodedInstruction: turns that find a register held or nothing of the kind, whose word is an instruction, is null, is none, and cannot be
fetched; and an event. -/
theorem witness_StepRunsTheDecodedInstruction_words :
    (∀ x ∈ [0x0001F01A, 0, 0xFFFFFFFF], let s := turnOf plainHart x
     s.agenda = .issue 0 .x :: [] ∧ let b := begun s
     ∃ h, SMap.get? b.harts 0 = some h ∧ ((b.core 0).issued.contains (b.issueClass h .x) = false ∧ b.chosen h .x (b.issueClass h .x) = true) ∧
       ∃ w y, fetchWord (turnState b) = .ok w y ∧ w = BitVec.ofNat 32 x ∧ State.awaits { y with curWord := w } 0 .x (.jalr 0 31 0) = false) ∧
    (let s : State := { turnOf plainHart 0x0000501A with held := [heldLoad .x] }
     s.agenda = .issue 0 .x :: [] ∧ let b := begun s
     ∃ h, SMap.get? b.harts 0 = some h ∧ ((b.core 0).issued.contains (b.issueClass h .x) = false ∧ b.chosen h .x (b.issueClass h .x) = true) ∧
       ∃ w y, fetchWord (turnState b) = .ok w y ∧ w = 0x0000501A ∧ State.awaits { y with curWord := w } 0 .x (.jalr 0 5 0) = true) ∧
    (decodeBytes (bytesOfWord 0x0001F01A) = some (.instr (.jalr 0 31 0), []) ∧ decodeBytes (bytesOfWord 0x0000501A) = some (.instr (.jalr 0 5 0), []) ∧
      ∃ r, decodeBytes (bytesOfWord 0xFFFFFFFF) = some (.illegal r, [])) ∧
    (let s := turnOf { plainHart with xpc := 0 } 0
     s.agenda = .issue 0 .x :: [] ∧ let b := begun s
     ∃ h, SMap.get? b.harts 0 = some h ∧ ((b.core 0).issued.contains (b.issueClass h .x) = false ∧ b.chosen h .x (b.issueClass h .x) = true) ∧
       ∃ c v k z t, fetchWord (turnState b) = .error (.trap c v k z) t) ∧
    ({ State.reset with agenda := [.event .cycleCounterAdvance {}] } : State).agenda = .event .cycleCounterAdvance {} :: [] := by
  refine ⟨fun x hx => ⟨rfl, optE _ (fun _ => andE _ (okE _ fun _ _ => last)) ?_⟩, ⟨rfl, optE _ (fun _ => andE _ (okE _ fun _ _ => last)) (by decide +kernel)⟩,
    ⟨by decide, by decide, _, rfl⟩, ⟨rfl, optE _ (fun _ => andE _ trapL) (by decide +kernel)⟩, rfl⟩
  decide +revert +kernel

/-- StepRunsTheDecodedInstruction: a state with no load still to come; a stream that is chosen, with another ready in its class; turns whose class has
issued, with an issue owed and with none; a stream that may not issue; and a turn of an instruction that stops partway. -/
theorem witness_StepRunsTheDecodedInstruction_cycles :
    (onX plainHart).late = [] ∧
    (let v := twoHarts (onX plainHart)
     v.chosen plainHart .x .scalar = true ∧ ∃ e ∈ v.harts, coreOfSlot e.1 = coreOfSlot plainHart.slot ∧ e.1 ≠ plainHart.slot ∧ v.ready e.2 .x = true ∧
       v.issueClass e.2 .x = .scalar) ∧
    (let b := begun ((turnOf plainHart 0x0001F01A).charge 0 .scalar)
     (∃ h, SMap.get? b.harts 0 = some h ∧ (b.core 0).issued.contains (b.issueClass h .x) = true) ∧ b.owes 0 = true) ∧
    (let b := begun ((turnOf { plainHart with arun := false } 0x0001F01A).charge 0 .scalar)
     (∃ h, SMap.get? b.harts 0 = some h ∧ (b.core 0).issued.contains (b.issueClass h .x) = true) ∧ b.owes 0 = false ∧
       ∃ g, SMap.get? (tickCore 0 b).harts 0 = some g ∧ (tickCore 0 b).chosen g .x .scalar = true) ∧
    (let b := begun (turnOf { plainHart with stopped := true } 0x0001F01A)
     ∃ h, SMap.get? b.harts 0 = some h ∧ b.chosen h .x (b.issueClass h .x) = false) ∧
    (let s := turnOf plainHart 0x0001F01A
     ∃ r, fetchTurn 0 .x (({ s with tick := s.tick + 1, agenda := [] } : State).fixedBy (.issueTo 0 .x 1)) = some r ∧ r.1 = .jalr 0 31 0) := by
  refine ⟨rfl, by decide +kernel, ⟨optE _ (fun _ => last) (by decide +kernel), by decide +kernel⟩,
    ⟨optE _ (fun _ => last) (by decide +kernel), by decide +kernel, optE _ (fun _ => last) (by decide +kernel)⟩, optE _ (fun _ => last) (by decide +kernel),
    optE _ (fun _ => last) (by decide +kernel)⟩

/-- DecodingInvertsEncoding: an instruction with its word. -/
theorem witness_DecodingInvertsEncoding : (Instr.lea 7 4 5 3).wf = true ∧ encode (.lea 7 4 5 3) = some 0x06CA43B0 := by decide

/-- A step answers a next state that meets p. -/
def nextWith (s : State) (p : State → Bool) : Bool :=
  match step s with
  | .next t => p t
  | _ => false

theorem nextE {s : State} {P : State → Prop} (p : State → Bool) (hp : ∀ t, p t = true → P t) (h : nextWith s p = true) : ∃ t, step s = .next t ∧ P t := by
  unfold nextWith at h
  cases hx : step s with
  | next t => rw [hx] at h; exact ⟨t, rfl, hp t h⟩
  | fault f => rw [hx] at h; simp at h
  | refused r => rw [hx] at h; simp at h

/-- MemoryStaysCanonical: a canonical memory, and a step from it that jumps. -/
theorem witness_MemoryStaysCanonical :
    ∃ s : State, s.MemInv ∧ ∃ t, step s = .next t ∧ (SMap.get? t.harts 0).isSome = true :=
  ⟨turnOf plainHart 0x0001F01A, ⟨by decide +kernel, by decide +kernel⟩, nextE _ (fun _ => last) (by decide +kernel)⟩

/-- ResetAndHartStart: an entry that is aligned. -/
theorem witness_ResetAndHartStart : (BitVec.ofNat 64 testVa).toNat % 4 = 0 := by decide

/-- The first bytes of SHAKE256 of the empty string, as FIPS 202 gives them (R381). -/
theorem test_shake256_empty : shake256 [] 8 = [0x46, 0xB9, 0xDD, 0x2B, 0x0B, 0xA8, 0x8D, 0x13] := by decide +kernel

end Sys2Proof.Tests
end

section
/-! The scalar and control forms (R95 to R102): what each computes, over the integers and the naturals that its operands read as. -/

namespace Sys2Proof.Machine

/-- A form whose meaning is `alu` writes the value of its function and retires. -/
theorem exec_eq_retired_of_alu {i : Instr} {s : State} {h : Hart} {rd : SReg} {f : (SReg → Word64) → Word64} {v : Word64}
    (hh : s.hart = some h) (hi : exec i s = issue (alu rd f) s) (hv : f (h.sreg s.curStream) = v) :
    exec i s = .next (s.retired (h.setS s.curStream rd v)) := by
  rw [hi, issue_alu hh, hv]

/-- A form whose meaning is `branch` goes where its test says and leaves the hart's registers. -/
theorem exec_eq_jumped_of_branch {i : Instr} {s : State} {h : Hart} {ra rb : SReg} {off : BitVec 15} {test : Word64 → Word64 → Bool}
    {taken : Prop} [Decidable taken] {goal : Word64} (hh : s.hart = some h) (hi : exec i s = issue (branch ra rb off test) s)
    (ht : test (h.sreg s.curStream ra) (h.sreg s.curStream rb) = true ↔ taken) (hg : target (h.pc s.curStream) off = goal) :
    exec i s = .next (s.jumped h (if taken then goal else h.pc s.curStream + 4)) := by
  rw [hi, issue_branch hh, hg]
  simp only [ht]

/-! ### Sums, differences and products -/

theorem ofNat_toNat_self (a : Word64) : BitVec.ofNat 64 a.toNat = a := by
  rw [BitVec.ofNat_toNat, BitVec.setWidth_eq]

theorem sub_eq_ofInt (a b : Word64) : a - b = BitVec.ofInt 64 (a.toInt - b.toInt) := by
  rw [Int.sub_eq_add_neg, BitVec.ofInt_add, BitVec.ofInt_neg, BitVec.ofInt_toInt, BitVec.ofInt_toInt, BitVec.sub_eq_add_neg]

theorem mul_eq_ofInt (a b : Word64) : a * b = BitVec.ofInt 64 (a.toInt * b.toInt) := by
  rw [BitVec.ofInt_mul, BitVec.ofInt_toInt, BitVec.ofInt_toInt]

theorem add_signExtend_eq_ofInt {n : Nat} (a : Word64) (imm : BitVec n) : a + imm.signExtend 64 = BitVec.ofInt 64 (a.toInt + imm.toInt) := by
  rw [BitVec.ofInt_add, BitVec.ofInt_toInt, BitVec.signExtend]

/-- A target counts its offset in words (R30). -/
theorem target_eq_ofInt {n : Nat} (pc : Word64) (off : BitVec n) : target pc off = BitVec.ofInt 64 (pc.toInt + off.toInt * 4) := by
  rw [target, BitVec.ofInt_add, BitVec.ofInt_mul, BitVec.ofInt_toInt, BitVec.signExtend]
  rfl

theorem extractLsb'_ofInt_128 (x : Int) : (BitVec.ofInt 128 x).extractLsb' 64 64 = BitVec.ofInt 64 (x / 2 ^ 64) := by
  apply BitVec.eq_of_toNat_eq
  simp only [BitVec.extractLsb'_toNat, BitVec.toNat_ofInt, Nat.shiftRight_eq_div_pow]
  omega

theorem mulHigh_eq_extract (a b : Word64) : mulHigh a b = (BitVec.ofInt 128 (a.toInt * b.toInt)).extractLsb' 64 64 :=
  (extractLsb'_ofInt_128 _).symm

/-! ### Shifts -/

theorem shiftLeft_eq_ofNat (a : Word64) (n : Nat) : a <<< n = BitVec.ofNat 64 (a.toNat * 2 ^ n) := by
  rw [← Nat.shiftLeft_eq]
  rfl

theorem ushiftRight_eq_ofNat (a : Word64) (n : Nat) : a >>> n = BitVec.ofNat 64 (a.toNat / 2 ^ n) := by
  rw [← Nat.shiftRight_eq_div_pow, ← BitVec.toNat_ushiftRight, ofNat_toNat_self]

theorem sshiftRight_eq_ofInt (a : Word64) (n : Nat) : a.sshiftRight n = BitVec.ofInt 64 (a.toInt / 2 ^ n) := by
  rw [← BitVec.ofInt_toInt (x := a.sshiftRight n), BitVec.toInt_sshiftRight, Int.shiftRight_eq_div_pow, Nat.cast_pow]
  rfl

theorem add_shiftLeft_eq_ofNat (a b : Word64) (n : Nat) : a + b <<< n = BitVec.ofNat 64 (a.toNat + b.toNat * 2 ^ n) := by
  rw [BitVec.ofNat_add, ← shiftLeft_eq_ofNat, ofNat_toNat_self]

/-- The 20 bits of `lhi` stand above 15 zero bits (R95). -/
theorem signExtend_append_zero (imm : BitVec 20) : (imm ++ 0#15).signExtend 64 = BitVec.ofInt 64 (imm.toInt * 2 ^ 15) := by
  rw [BitVec.signExtend, BitVec.toInt_append, Int.mul_comm]
  simp

/-! ### Comparisons, the lesser and the greater -/

theorem truth_slt (a b : Word64) : truth (a.slt b) = if a.toInt < b.toInt then 1 else 0 := by
  simp only [truth, BitVec.slt_iff_toInt_lt]

theorem truth_ult (a b : Word64) : truth (a.ult b) = if a.toNat < b.toNat then 1 else 0 := by
  simp only [truth, BitVec.ult_iff_toNat_lt]

theorem toInt_signExtend_15 (imm : BitVec 15) : (imm.signExtend 64).toInt = imm.toInt :=
  BitVec.toInt_signExtend_of_le (by decide)

theorem ite_slt_eq_min (a b : Word64) : (if a.slt b then a else b) = BitVec.ofInt 64 (min a.toInt b.toInt) := by
  rw [min_def_lt, apply_ite (BitVec.ofInt 64), BitVec.ofInt_toInt, BitVec.ofInt_toInt]
  simp only [BitVec.slt_iff_toInt_lt]

theorem ite_slt_eq_max (a b : Word64) : (if a.slt b then b else a) = BitVec.ofInt 64 (max a.toInt b.toInt) := by
  rw [max_def_lt, apply_ite (BitVec.ofInt 64), BitVec.ofInt_toInt, BitVec.ofInt_toInt]
  simp only [BitVec.slt_iff_toInt_lt]

theorem ite_ult_eq_min (a b : Word64) : (if a.ult b then a else b) = BitVec.ofNat 64 (min a.toNat b.toNat) := by
  rw [min_def_lt, apply_ite (BitVec.ofNat 64), ofNat_toNat_self, ofNat_toNat_self]
  simp only [BitVec.ult_iff_toNat_lt]

theorem ite_ult_eq_max (a b : Word64) : (if a.ult b then b else a) = BitVec.ofNat 64 (max a.toNat b.toNat) := by
  rw [max_def_lt, apply_ite (BitVec.ofNat 64), ofNat_toNat_self, ofNat_toNat_self]
  simp only [BitVec.ult_iff_toNat_lt]

/-! ### Division -/

/-- The quotient -2^63 ÷ -1 is 2^63, which narrows to the table's -2^63 (R97). -/
theorem divS_eq (a b : Word64) : divS a b = if b = 0 then 0xFFFFFFFFFFFFFFFF
    else if a = 0x8000000000000000 ∧ b = 0xFFFFFFFFFFFFFFFF then 0x8000000000000000 else BitVec.ofInt 64 (a.toInt.tdiv b.toInt) := by
  unfold divS
  split
  · rfl
  · split
    case isTrue hm =>
      obtain ⟨rfl, rfl⟩ := hm
      decide
    case isFalse => rfl

/-- The remainder -2^63 mod -1 is 0 by the general rule too (R97). -/
theorem remS_eq (a b : Word64) : remS a b = if b = 0 then a
    else if a = 0x8000000000000000 ∧ b = 0xFFFFFFFFFFFFFFFF then 0 else BitVec.ofInt 64 (a.toInt - a.toInt.tdiv b.toInt * b.toInt) := by
  unfold remS
  split
  · rfl
  · split
    case isTrue hm =>
      obtain ⟨rfl, rfl⟩ := hm
      decide
    case isFalse => rw [Int.tmod_def, Int.mul_comm]

/-! ### Counts of bits -/

theorem popcountN_eq_countP (n x : Nat) : popcountN x n = (List.range n).countP x.testBit := by
  induction n generalizing x with
  | zero => rfl
  | succ n ih =>
    have hshift : x.testBit ∘ Nat.succ = (x / 2).testBit := funext fun i => Nat.testBit_succ x i
    have hlow : x % 2 = if x.testBit 0 then 1 else 0 := by
      simp only [Nat.testBit_zero, decide_eq_true_eq]
      split <;> omega
    rw [popcountN, ih, List.range_succ_eq_map, List.countP_cons, List.countP_map, hshift, hlow]

theorem leadingZeros_eq_log2 (n x : Nat) (hx : x < 2 ^ n) : leadingZeros x n = if x = 0 then n else n - 1 - Nat.log2 x := by
  induction n with
  | zero =>
    have h0 : x = 0 := by omega
    simp [leadingZeros, h0]
  | succ n ih =>
    rw [leadingZeros]
    split
    case isTrue hb =>
      have hge : 2 ^ n ≤ x := Nat.ge_two_pow_of_testBit hb
      have h0 : x ≠ 0 := by have := Nat.two_pow_pos n; omega
      rw [if_neg h0, (Nat.log2_eq_iff h0).2 ⟨hge, hx⟩]
      omega
    case isFalse hb =>
      have hlt : x < 2 ^ n := by
        by_contra hge
        exact hb (Nat.testBit_of_two_pow_le_and_two_pow_add_one_gt (by omega) hx)
      rw [ih hlt]
      split
      · omega
      · have := (Nat.log2_lt (n := x) ‹_›).2 hlt
        omega

theorem leadingZeros_toNat (a : Word64) :
    BitVec.ofNat 64 (leadingZeros a.toNat 64) = if a = 0 then 64 else BitVec.ofNat 64 (63 - Nat.log2 a.toNat) := by
  rw [leadingZeros_eq_log2 64 a.toNat a.isLt]
  by_cases h0 : a = 0
  · rw [if_pos h0, if_pos (by rw [h0]; rfl)]
    rfl
  · have hn : a.toNat ≠ 0 := fun e => h0 (BitVec.eq_of_toNat_eq e)
    rw [if_neg h0, if_neg hn]

/-! ### Fields of bits -/

theorem getLsbD_extField (a : Word64) (pos wm1 i : Nat) (hi : i < 64) :
    (extField a pos wm1).getLsbD i = (decide (i ≤ wm1) && a.getLsbD (pos + i)) := by
  rw [extField, BitVec.getLsbD_ofNat, Nat.testBit_mod_two_pow, Nat.testBit_div_two_pow, Nat.add_comm i pos]
  simp [hi, BitVec.getLsbD]

/-- The mask of `ins` is the bits of its field (R99). -/
theorem testBit_fieldMask (pos wm1 i : Nat) : ((2 ^ (wm1 + 1) - 1) * 2 ^ pos).testBit i = decide (pos ≤ i ∧ i ≤ pos + wm1) := by
  rw [Nat.testBit_mul_two_pow, Nat.testBit_two_pow_sub_one, ← Bool.decide_and]
  exact decide_eq_decide.2 (by omega)

theorem getLsbD_insField (old a : Word64) (pos wm1 i : Nat) (hi : i < 64) :
    (insField old a pos wm1).getLsbD i = if pos ≤ i ∧ i ≤ pos + wm1 then a.getLsbD (i - pos) else old.getLsbD i := by
  simp only [insField, BitVec.getLsbD_or, BitVec.getLsbD_and, BitVec.getLsbD_not, BitVec.getLsbD_ofNat, testBit_fieldMask,
    BitVec.getLsbD_shiftLeft]
  by_cases hf : pos ≤ i ∧ i ≤ pos + wm1 <;> simp [hf, hi]

/-! ### Jumps and the strip-mine branch -/

theorem execJal_eq {s : State} {h : Hart} (hh : s.hart = some h) (rd : SReg) (off : BitVec 20) :
    execJal rd off s = .next (s.jumped (h.setS s.curStream rd (h.pc s.curStream + 4)) (target (h.pc s.curStream) off)) := by
  simp [execJal, issue, markWait, hh, State.jumped]

section
variable {s : State} {h : Hart} {ra : SReg} {imm : BitVec 15} {t : Word64}

theorem execJalr_aligned (hh : s.hart = some h) (rd : SReg) (ht : h.sreg s.curStream ra + imm.signExtend 64 = t) (hal : t.toNat % 4 = 0) :
    execJalr rd ra imm s = .next (s.jumped (h.setS s.curStream rd (h.pc s.curStream + 4)) t) := by
  simp [execJalr, issue, markWait, hh, State.jumped, ht, hal, -BitVec.toNat_add]

theorem execJalr_misaligned (hh : s.hart = some h) (rd : SReg) (ht : h.sreg s.curStream ra + imm.signExtend 64 = t) (hmis : t.toNat % 4 ≠ 0) :
    execJalr rd ra imm s = .next (s.trapped 0x08 t 0) := by
  apply issue_trap (s' := s)
  simp [hh, ht, hmis, -BitVec.toNat_add]

end

theorem execSmb_eq {s : State} {h : Hart} (hh : s.hart = some h) (ra rb : SReg) (off : BitVec 15) :
    execSmb ra rb off s = .next (s.jumped (h.setS s.curStream ra (h.sreg s.curStream ra - h.sreg s.curStream rb))
      (if (0#64).slt (h.sreg s.curStream ra - h.sreg s.curStream rb) then target (h.pc s.curStream) off else h.pc s.curStream + 4)) := by
  simp [execSmb, issue, markWait, hh, State.jumped]

/-! ### The obligations -/

/-- Settles O1: each form is `alu` of a function that the lemmas above give its arithmetic meaning. -/
theorem scalarArithmeticResults : Obligations.ScalarArithmeticResults := by
  unfold Obligations.ScalarArithmeticResults
  intro s h rd ra rb hh a b out
  exact ⟨
    exec_eq_retired_of_alu hh exec_add (BitVec.add_def a b),
    exec_eq_retired_of_alu hh exec_sub (sub_eq_ofInt a b),
    exec_eq_retired_of_alu hh exec_mul (mul_eq_ofInt a b),
    exec_eq_retired_of_alu hh exec_mulh (mulHigh_eq_extract a b),
    exec_eq_retired_of_alu hh exec_and rfl,
    exec_eq_retired_of_alu hh exec_or rfl,
    exec_eq_retired_of_alu hh exec_xor rfl,
    exec_eq_retired_of_alu hh exec_sll rfl,
    exec_eq_retired_of_alu hh exec_srl rfl,
    exec_eq_retired_of_alu hh exec_sra (sshiftRight_eq_ofInt a _),
    exec_eq_retired_of_alu hh exec_slt (truth_slt a b),
    exec_eq_retired_of_alu hh exec_sltn (truth_ult a b),
    exec_eq_retired_of_alu hh exec_min (ite_slt_eq_min a b),
    exec_eq_retired_of_alu hh exec_max (ite_slt_eq_max a b),
    exec_eq_retired_of_alu hh exec_minN (ite_ult_eq_min a b),
    exec_eq_retired_of_alu hh exec_maxN (ite_ult_eq_max a b),
    exec_eq_retired_of_alu hh exec_clz (leadingZeros_toNat a),
    exec_eq_retired_of_alu hh exec_popc (congrArg (BitVec.ofNat 64) (popcountN_eq_countP 64 a.toNat)),
    exec_eq_retired_of_alu hh exec_sel rfl,
    fun n => exec_eq_retired_of_alu hh exec_lea (add_shiftLeft_eq_ofNat a b n.val),
    exec_eq_retired_of_alu hh exec_div (divS_eq a b),
    exec_eq_retired_of_alu hh exec_rem (remS_eq a b),
    exec_eq_retired_of_alu hh exec_divn rfl,
    exec_eq_retired_of_alu hh exec_remn rfl⟩

/-- Settles O2: the immediates widen as R95 and R98 say, and `ext` and `ins` are read bit by bit (R99). -/
theorem immediateAndBitFieldResults : Obligations.ImmediateAndBitFieldResults := by
  unfold Obligations.ImmediateAndBitFieldResults
  constructor
  · intro s h rd ra imm n hh a out
    have hwide : imm.setWidth 64 = BitVec.ofNat 64 imm.toNat := (BitVec.ofNat_toNat 64 imm).symm
    have hslti : truth (a.slt (imm.signExtend 64)) = if a.toInt < imm.toInt then 1 else 0 := by
      rw [truth_slt, toInt_signExtend_15]
    exact ⟨
      exec_eq_retired_of_alu hh exec_andi (congrArg (a &&& ·) hwide),
      exec_eq_retired_of_alu hh exec_ori (congrArg (a ||| ·) hwide),
      exec_eq_retired_of_alu hh exec_xori (congrArg (a ^^^ ·) hwide),
      exec_eq_retired_of_alu hh exec_slti hslti,
      exec_eq_retired_of_alu hh exec_addi (add_signExtend_eq_ofInt a imm),
      exec_eq_retired_of_alu hh exec_slli (shiftLeft_eq_ofNat a n.val),
      exec_eq_retired_of_alu hh exec_srli (ushiftRight_eq_ofNat a n.val),
      exec_eq_retired_of_alu hh exec_srai (sshiftRight_eq_ofInt a n.val),
      fun imm20 => exec_eq_retired_of_alu hh exec_lhi (signExtend_append_zero imm20)⟩
  · intro s h rd ra pos wm1 hh _ a old
    exact ⟨
      ⟨extField a pos wm1, exec_eq_retired_of_alu hh exec_ext rfl, getLsbD_extField a pos wm1⟩,
      ⟨insField old a pos wm1, exec_eq_retired_of_alu hh exec_ins rfl, getLsbD_insField old a pos wm1⟩⟩

/-- Settles O3: `jal` always jumps, and `jalr` jumps or traps by the low bits of its target (R101). -/
theorem jumpsLinkAndGo : Obligations.JumpsLinkAndGo := by
  unfold Obligations.JumpsLinkAndGo
  intro s h rd ra hh pc
  constructor
  · intro off
    rw [exec_jal, execJal_eq hh, target_eq_ofInt]
  · intro imm t
    have ht : h.sreg s.curStream ra + imm.signExtend 64 = t := add_signExtend_eq_ofInt _ imm
    rw [exec_jalr]
    split
    case isTrue hal => exact execJalr_aligned hh rd ht hal
    case isFalse hmis => exact execJalr_misaligned hh rd ht hmis

/-- Settles O4: each branch's test is its comparison of the operands, and that of `smb` is of the difference with zero as signed numbers. -/
theorem branchesFollowTheirComparison : Obligations.BranchesFollowTheirComparison := by
  unfold Obligations.BranchesFollowTheirComparison
  constructor
  · intro s h ra rb off hh a b pc out
    have hgoal : target pc off = BitVec.ofInt 64 (pc.toInt + off.toInt * 4) := target_eq_ofInt pc off
    have hge : (!a.slt b) = true ↔ b.toInt ≤ a.toInt := by simp [BitVec.slt_eq_decide]
    have hgeN : (!a.ult b) = true ↔ b.toNat ≤ a.toNat := by simp [BitVec.ult_eq_decide]
    exact ⟨
      exec_eq_jumped_of_branch hh exec_beq beq_iff_eq hgoal,
      exec_eq_jumped_of_branch hh exec_bne bne_iff_ne hgoal,
      exec_eq_jumped_of_branch hh exec_blt BitVec.slt_iff_toInt_lt hgoal,
      exec_eq_jumped_of_branch hh exec_bge hge hgoal,
      exec_eq_jumped_of_branch hh exec_bltn BitVec.ult_iff_toNat_lt hgoal,
      exec_eq_jumped_of_branch hh exec_bgen hgeN hgoal⟩
  · intro s h ra rb off hh x pc
    have hx : h.sreg s.curStream ra - h.sreg s.curStream rb = x := sub_eq_ofInt _ _
    have hpos : (0#64).slt x = true ↔ 0 < x.toInt := BitVec.slt_iff_toInt_lt
    rw [exec_smb, execSmb_eq hh, hx, target_eq_ofInt]
    simp only [hpos, pc]

end Sys2Proof.Machine
end

section
/-! The vector forms of R123 to R137: logic, shifts, comparisons, moves, slides and permutes, and the predicate and scale forms. -/

namespace Sys2Proof.Machine

/-! ### What the issue checks leave -/

section
variable {s s1 : State} {h : Hart} {admits : Fmt → Bool} {r : Named} {srcs : List Nat}

theorem hart_of_opensFor (ho : s.opensFor admits r srcs s1 h) : s1.hart = some h := by
  obtain ⟨-, -, -, -, -, -, -, -, -, hh, -⟩ := ho
  exact hh

theorem curStream_of_opensFor (ho : s.opensFor admits r srcs s1 h) : s1.curStream = .x := by
  obtain ⟨-, -, -, -, -, -, -, -, -, -, hx⟩ := ho
  exact hx

theorem curStream_of_opens (ho : s.opens admits r s1 h) : s1.curStream = .x := by
  obtain ⟨h0, -, ho⟩ := ho
  exact curStream_of_opensFor ho

theorem rS_of_opens (ho : s.opens admits r s1 h) (ra : SReg) : rS ra s1 = .ok (h.sreg .x ra) s1 := by
  rw [run_rS, hart_of_opens ho, curStream_of_opens ho]

theorem rS_of_opensFor (ho : s.opensFor admits r srcs s1 h) (ra : SReg) : rS ra s1 = .ok (h.sreg .x ra) s1 := by
  rw [run_rS, hart_of_opensFor ho, curStream_of_opensFor ho]

/-- The checks of the forms that test a tag of their own, one by one (R36, R114). -/
theorem checks_of_opensFor (ho : s.opensFor admits r srcs s1 h) :
    onlyX s = .ok () s ∧ checkNamed r s = .ok () s ∧ checkTags admits srcs s = .ok () s ∧ swapIn r s = .ok () s1 := by
  obtain ⟨hx, h0, hh, hl, hv, hp, ha, ht, hsw, -⟩ := ho
  have htags : (∀ v ∈ srcs, h0.tagOf v = some h0.fmt) = True := eq_true ht
  refine ⟨?_, ?_, ?_, hsw⟩
  · simp [hx]
  · simp [checkNamed, hh, hl, hv, hp]
  · simp [checkTags, hh, ha, htags]

end

/-- A part that leaves the hart g about to retire. -/
theorem issue_eq_retired {s s1 : State} {g : Hart} {x : M Unit} (hx : x s = .ok () (s1.putHart (g.advance s1.curStream))) :
    issue x s = .next (s1.retired g) :=
  issue_retired hx (fun _ => rfl) rfl

/-! ### Forms that write a register at their active elements -/

section
variable {s s1 : State} {h : Hart} {admits : Fmt → Bool} {vd va vb : VRegNo} {i : Instr} {val : Nat → Nat}

/-- A form of two vector operands that rounds nothing. -/
theorem writesVector_of_vecBin {f : Hart → Nat → Nat → Nat} (ho : s.opens admits { vs := [va.val, vb.val], vw := [vd.val] } s1 h)
    (hi : exec i s = issue (vecBin admits false vd va vb fun h a b _ _ => (f h a b, false)) s)
    (hv : ∀ j, f h (h.bitsAt va j) (h.bitsAt vb j) = val j) : WritesVector (exec i s) s1 h vd h.writes val := by
  rw [hi, ← funext hv]
  apply elementwise_plain (hart_of_opens ho) vd.val false rfl
  simp only [vecBin, run_bind, vectorIssue_ok ho]
  rfl

/-- A form of one vector operand that rounds nothing. -/
theorem writesVector_of_vecUn {f : Hart → Nat → Nat} (ho : s.opens admits { vs := [va.val], vw := [vd.val] } s1 h)
    (hi : exec i s = issue (vecUn admits false vd va fun h a _ _ => (f h a, false)) s)
    (hv : ∀ j, f h (h.bitsAt va j) = val j) : WritesVector (exec i s) s1 h vd h.writes val := by
  rw [hi, ← funext hv]
  apply elementwise_plain (hart_of_opens ho) vd.val false rfl
  simp only [vecUn, run_bind, vectorIssue_ok ho]
  rfl

end

/-! ### Bit patterns as integers -/

theorem ew_pos (f : Fmt) : 0 < Fmt.ew f := by cases f <;> decide

theorem bitsOfInt_eq (n : Nat) (x : Int) : bitsOfInt n x = (x % 2 ^ n).toNat := by
  rw [bitsOfInt, Nat.cast_pow, Nat.cast_ofNat]

theorem signedOf_of_lt {n y : Nat} (hn : 0 < n) (hy : y < 2 ^ n) : signedOf n y = if 2 ^ (n - 1) ≤ y then (y : Int) - 2 ^ n else y := by
  have hhalf : 2 ^ n = 2 * 2 ^ (n - 1) := by rw [← Nat.pow_succ']; congr 1; omega
  rw [signedOf, Nat.mod_eq_of_lt hy]
  by_cases hc : 2 ^ (n - 1) ≤ y
  · rw [if_neg (by omega), if_pos hc, Nat.cast_pow, Nat.cast_ofNat]
  · rw [if_pos (by omega), if_neg hc]

/-- The arithmetic shift of an element, whose count at and above the width shifts in copies of the sign (R123). -/
theorem sraOp_eq {n y : Nat} (hn : 0 < n) (hy : y < 2 ^ n) (k : Nat) :
    sraOp n y k = (((if 2 ^ (n - 1) ≤ y then (y : Int) - 2 ^ n else y) / 2 ^ min n k) % 2 ^ n).toNat := by
  rw [sraOp, bitsOfInt_eq, signedOf_of_lt hn hy, Nat.cast_pow, Nat.cast_ofNat, Nat.min_comm]

/-- Settles O10: each form is a pass over the active elements that rounds nothing, and `vsra` is read by `sraOp_eq`. -/
theorem vectorLogicAndShifts : Obligations.VectorLogicAndShifts := by
  unfold Obligations.VectorLogicAndShifts
  intro s s1 h vd va vb imm n a b x signed shl shr sra w
  have hx : bitsOfInt n imm.toInt = x := bitsOfInt_eq n imm.toInt
  have hsra : ∀ j k, sraOp n (a j) k = sra (a j) k := fun j k => sraOp_eq (ew_pos h.fmt) (elemOf_lt _ _ _) k
  refine ⟨fun ho => ⟨?_, ?_, ?_⟩, fun ho => ⟨?_, ?_, ?_, ?_⟩, fun ho => ⟨?_, ?_, ?_⟩, fun ho => ⟨?_, ?_, ?_⟩⟩
  · exact writesVector_of_vecBin ho exec_vand fun _ => rfl
  · exact writesVector_of_vecBin ho exec_vor fun _ => rfl
  · exact writesVector_of_vecBin ho exec_vxor fun _ => rfl
  · exact writesVector_of_vecUn ho exec_vnot fun _ => rfl
  · exact writesVector_of_vecUn ho exec_vandImm fun j => congrArg (a j &&& ·) hx
  · exact writesVector_of_vecUn ho exec_vorImm fun j => congrArg (a j ||| ·) hx
  · exact writesVector_of_vecUn ho exec_vxorImm fun j => congrArg (a j ^^^ ·) hx
  · exact writesVector_of_vecBin ho exec_vshl fun _ => rfl
  · exact writesVector_of_vecBin ho exec_vshr fun _ => rfl
  · exact writesVector_of_vecBin ho exec_vsra fun j => hsra j (b j)
  · exact writesVector_of_vecUn ho exec_vshlImm fun _ => rfl
  · exact writesVector_of_vecUn ho exec_vshrImm fun _ => rfl
  · exact writesVector_of_vecUn ho exec_vsraImm fun j => hsra j imm.toNat

/-! ### Forms that write a list of elements, or the bits of a predicate -/

theorem WritesVector.congr {out : Host.Outcome State Fault Refusal} {s1 : State} {h : Hart} {vd : Nat} {p q : Nat → Prop} {val val' : Nat → Nat}
    (hw : WritesVector out s1 h vd p val) (hpq : ∀ i, p i ↔ q i)
    (hval : ∀ i, q i → val i % 2 ^ Fmt.ew h.fmt = val' i % 2 ^ Fmt.ew h.fmt) : WritesVector out s1 h vd q val' := by
  obtain rfl : p = q := funext fun i => propext (hpq i)
  unfold WritesVector at hw ⊢
  split at hw
  case isTrue h0 => rwa [if_pos h0]
  case isFalse h0 =>
    obtain ⟨b, hout, hin, hrest⟩ := hw
    rw [if_neg h0]
    exact ⟨b, hout, fun i hi => by rw [hin i hi, hval i hi], hrest⟩

theorem WritesPredicate.congr {out : Host.Outcome State Fault Refusal} {s1 : State} {h : Hart} {pd : Nat} {p q : Nat → Prop} {val val' : Nat → Bool}
    (hw : WritesPredicate out s1 h pd p val) (hpq : ∀ i, p i ↔ q i) (hval : ∀ i, q i → val i = val' i) : WritesPredicate out s1 h pd q val' := by
  obtain rfl : p = q := funext fun i => propext (hpq i)
  unfold WritesPredicate at hw ⊢
  split at hw
  case isTrue h0 => rwa [if_pos h0]
  case isFalse h0 =>
    obtain ⟨b, hout, hin, hrest⟩ := hw
    rw [if_neg h0]
    exact ⟨b, hout, fun i hi => by rw [hin i hi, hval i hi], hrest⟩

theorem retired_putHart (s : State) (g k : Hart) : (s.putHart g).retired k = s.retired k := putHart_putHart s g _

/-- What a form writes does not depend on the hart that its state holds at the slot being issued. -/
theorem writesPredicate_putHart {out : Host.Outcome State Fault Refusal} {s1 : State} {g h : Hart} {pd : Nat} {p : Nat → Prop}
    {val : Nat → Bool} : WritesPredicate out (s1.putHart g) h pd p val ↔ WritesPredicate out s1 h pd p val := by
  unfold WritesPredicate
  simp only [retired_putHart]

/-! ### Comparisons -/

/-- The test of a comparison of integers (R124). -/
def cmpInts (cc : Cc) (x y : Int) : Bool := match cc with
  | .eq => x = y
  | .ne => x ≠ y
  | .lt => x < y
  | .le => x ≤ y
  | .gt => y < x
  | .ge => y ≤ x
  | .uo => false

/-- The test of a comparison of floating patterns, unordered where either is a NaN (R124). -/
def Hart.cmpFloats (h : Hart) (cc : Cc) (x y : Nat) : Bool :=
  let u := isNan h.fmt x || isNan h.fmt y
  let a := h.input h.fmt x
  let b := h.input h.fmt y
  match cc with
  | .eq => !u && fpEqual a b
  | .ne => u || !fpEqual a b
  | .lt => !u && fpLess a b
  | .le => !u && (fpLess a b || fpEqual a b)
  | .gt => !u && fpLess b a
  | .ge => !u && (fpLess b a || fpEqual a b)
  | .uo => u

theorem intVal_of_lt {h : Hart} {x : Nat} (hx : x < 2 ^ Fmt.ew h.fmt) : intVal h.fmt x = h.asInt x := by
  have he : elemOf (Fmt.ew h.fmt) x 0 = x := by simp [elemOf, bitsOf, Nat.mod_eq_of_lt hx]
  rw [← he, intVal_asInt]

theorem narrowed_lt (h : Hart) (x : Int) : h.narrowed x < 2 ^ Fmt.ew h.fmt := by
  rw [← narrow_eq, narrow, bitsOfInt]
  have hpos : (0 : Int) < ((2 ^ Fmt.ew h.fmt : Nat) : Int) := by exact_mod_cast Nat.two_pow_pos _
  exact (Int.toNat_lt (Int.emod_nonneg _ hpos.ne')).2 (Int.emod_lt_of_pos _ hpos)

theorem cmpOp_of_isInt {h : Hart} (hf : Fmt.isInt h.fmt = true) (cc : Cc) {x y : Nat} (hx : x < 2 ^ Fmt.ew h.fmt) (hy : y < 2 ^ Fmt.ew h.fmt) :
    cmpOp h cc x y = cmpInts cc (h.asInt x) (h.asInt y) := by
  rw [← intVal_of_lt hx, ← intVal_of_lt hy]
  cases cc <;> simp [cmpOp, hf, cmpInts]

theorem isNan_iff {f : Fmt} {x : Nat} : isNan f x = true ↔ ∃ n frac, Fp.of f x = .nan n frac := by
  unfold isNan
  cases Fp.of f x <;> simp

theorem maxMag_lt_of_isNan {f : Fmt} {x : Nat} (hx : isNan f x = true) : Fmt.maxMag f < x % Fmt.signBit f := by
  obtain ⟨n, frac, hof⟩ := isNan_iff.1 hx
  by_contra hle
  simp only [Fp.of, hle, if_false] at hof
  split at hof <;> cases hof

theorem isSubnormal_of_isNan {f : Fmt} {x : Nat} (hx : isNan f x = true) : isSubnormal f x = false := by
  have hmag := maxMag_lt_of_isNan hx
  have hmax : 2 ^ Fmt.fracBits f ≤ Fmt.maxMag f := by cases f <;> decide
  simp only [isSubnormal, Bool.and_eq_false_iff, decide_eq_false_iff_not]
  omega

/-- A NaN is not flushed (R84): it reaches the operation as a NaN. -/
theorem input_of_isNan {h : Hart} {f : Fmt} {x : Nat} (hx : isNan f x = true) : ∃ n frac, h.input f x = .nan n frac := by
  have hflush : flush f (vtFtz h.vt) x = x := by simp [flush, isSubnormal_of_isNan hx]
  rw [Hart.input, hflush]
  exact isNan_iff.1 hx

/-- Neither test holds of a NaN. -/
theorem unordered_of_isNan {h : Hart} {f : Fmt} {x y : Nat} (hu : (isNan f x || isNan f y) = true) :
    fpLess (h.input f x) (h.input f y) = false ∧ fpEqual (h.input f x) (h.input f y) = false := by
  rcases Bool.or_eq_true_iff.1 hu with hx | hy
  · obtain ⟨n, frac, e⟩ := input_of_isNan (h := h) hx
    rw [e]
    exact ⟨rfl, rfl⟩
  · obtain ⟨n, frac, e⟩ := input_of_isNan (h := h) hy
    rw [e]
    cases h.input f x <;> exact ⟨rfl, rfl⟩

theorem cmpOp_of_not_isInt {h : Hart} (hf : Fmt.isInt h.fmt = false) (cc : Cc) (x y : Nat) : cmpOp h cc x y = h.cmpFloats cc x y := by
  cases hu : isNan h.fmt x || isNan h.fmt y with
  | false => cases cc <;> simp [cmpOp, hf, Hart.cmpFloats, hu]
  | true =>
    obtain ⟨hless, hequal⟩ := unordered_of_isNan (h := h) hu
    obtain ⟨hless', -⟩ := unordered_of_isNan (h := h) (Bool.or_comm _ _ ▸ hu)
    cases cc <;> simp [cmpOp, hf, Hart.cmpFloats, hu, hless, hequal, hless']

/-! ### Immediates, formed once for the instruction (R122) -/

section
variable {s : State} {h : Hart}

theorem formImm_of_vl_zero (hh : s.hart = some h) (h0 : h.vl = 0) (imm : BitVec 8) : formImm imm s = .ok 0 s := by
  simp [formImm, hh, h0]

theorem formImm_of_isInt (hh : s.hart = some h) (h0 : h.vl ≠ 0) (hf : Fmt.isInt h.fmt = true) (imm : BitVec 8) :
    formImm imm s = .ok (h.narrowed imm.toInt) s := by
  simp only [formImm, run_bind, run_getHart, hh, h0, if_false, hf, if_true, run_pure, narrow_eq]

theorem formImm_of_not_isInt (hh : s.hart = some h) (h0 : h.vl ≠ 0) (hf : Fmt.isInt h.fmt = false) (imm : BitVec 8) :
    formImm imm s = .ok (h.immBits imm) (s.putHart h.afterImm) := by
  simp only [formImm, run_bind, run_getHart, run_setHart, run_pure, hh, h0, hf, Bool.false_eq_true, if_false, Hart.isSr, decide_eq_true_eq,
    Hart.immBits, Hart.afterImm]
  split <;> rfl

end

@[simp] theorem afterImm_fmt (h : Hart) : h.afterImm.fmt = h.fmt := by unfold Hart.afterImm; split <;> rfl
@[simp] theorem afterImm_active (h : Hart) : h.afterImm.active = h.active := by unfold Hart.afterImm; split <;> rfl
@[simp] theorem afterImm_bitsAt (h : Hart) (v : VRegNo) : h.afterImm.bitsAt v = h.bitsAt v := by unfold Hart.afterImm; split <;> rfl
@[simp] theorem afterImm_cmpFloats (h : Hart) (cc : Cc) : h.afterImm.cmpFloats cc = h.cmpFloats cc := by unfold Hart.afterImm; split <;> rfl

/-! ### The forms that compare -/

theorem isFloat_of_isInt {f : Fmt} (hf : Fmt.isInt f = true) : Fmt.isFloat f = false := by cases f <;> simp_all [Fmt.isInt, Fmt.isFloat]

theorem not_isInt_of_isFloat {f : Fmt} (hf : Fmt.isFloat f = true) : Fmt.isInt f = false := by cases f <;> simp_all [Fmt.isInt, Fmt.isFloat]

section
variable {s s1 : State} {h : Hart} {va vb vd : VRegNo} {pd : PRegNo}

theorem cmpOp_eq {x y : Nat} (cc : Cc) (hx : x < 2 ^ Fmt.ew h.fmt) (hy : y < 2 ^ Fmt.ew h.fmt) :
    cmpOp h cc x y = if Fmt.isInt h.fmt then cmpInts cc (h.asInt x) (h.asInt y) else h.cmpFloats cc x y := by
  split
  case isTrue hf => exact cmpOp_of_isInt hf cc hx hy
  case isFalse hf => exact cmpOp_of_not_isInt (Bool.eq_false_of_not_eq_true hf) cc x y

theorem writesPredicate_vcmp (ho : s.opens numFmt { vs := [va.val, vb.val], pw := [pd.val] } s1 h) (cc : Cc) :
    WritesPredicate (exec (.vcmp cc pd va vb) s) s1 h pd h.writes
      (fun i => if Fmt.isInt h.fmt then cmpInts cc (h.intAt va i) (h.intAt vb i) else h.cmpFloats cc (h.bitsAt va i) (h.bitsAt vb i)) := by
  refine (writeP_plain (hart_of_opens ho) pd.val h.active (fun i => cmpOp h cc (h.bitsAt va i) (h.bitsAt vb i)) ?_).congr
    (fun _ => mem_active) fun i _ => cmpOp_eq cc (elemOf_lt _ _ _) (elemOf_lt _ _ _)
  simp only [run_bind, vectorIssue_ok ho]
  rfl

/-- `vcmp` with an immediate compares with what `formImm` gives, in the hart that it leaves. -/
theorem writesPredicate_vcmpImm {g : Hart} {s2 : State} {x : Nat} {imm : BitVec 8} (ho : s.opens numFmt { vs := [va.val], pw := [pd.val] } s1 h)
    (hx : formImm imm s1 = .ok x s2) (hg : s2.hart = some g) (cc : Cc) :
    WritesPredicate (exec (.vcmpImm cc pd va imm) s) s2 g pd (· ∈ g.active) (fun i => cmpOp g cc (g.bitsAt va i) x) := by
  apply writeP_plain hg
  simp only [run_bind, vectorIssue_ok ho, hx, run_getHart, hg]
  rfl

/-- At `vl` = 0 a form writes no predicate, so that what it would write is of no account (R115). -/
theorem WritesPredicate.of_vl_zero {out : Host.Outcome State Fault Refusal} {p q : Nat → Prop} {val val' : Nat → Bool}
    (hw : WritesPredicate out s1 h pd p val) (h0 : h.vl = 0) : WritesPredicate out s1 h pd q val' := by
  unfold WritesPredicate at hw ⊢
  rw [if_pos h0] at hw ⊢
  exact hw

theorem writesPredicate_vcmpImm_of_isInt {imm : BitVec 8} (ho : s.opens numFmt { vs := [va.val], pw := [pd.val] } s1 h)
    (hf : Fmt.isInt h.fmt = true) (cc : Cc) :
    WritesPredicate (exec (.vcmpImm cc pd va imm) s) s1 h pd h.writes (fun i => cmpInts cc (h.intAt va i) (h.asInt (h.narrowed imm.toInt))) := by
  have hh := hart_of_opens ho
  by_cases h0 : h.vl = 0
  · exact (writesPredicate_vcmpImm ho (formImm_of_vl_zero hh h0 imm) hh cc).of_vl_zero h0
  · exact (writesPredicate_vcmpImm ho (formImm_of_isInt hh h0 hf imm) hh cc).congr (fun _ => mem_active)
      fun i _ => cmpOp_of_isInt hf cc (elemOf_lt _ _ _) (narrowed_lt _ _)

theorem writesPredicate_vcmpImm_of_isFloat {imm : BitVec 8} (ho : s.opens numFmt { vs := [va.val], pw := [pd.val] } s1 h)
    (hf : Fmt.isFloat h.fmt = true) (cc : Cc) :
    WritesPredicate (exec (.vcmpImm cc pd va imm) s) s1 (if h.vl = 0 then h else h.afterImm) pd h.writes
      (fun i => h.cmpFloats cc (h.bitsAt va i) (h.immBits imm)) := by
  have hh := hart_of_opens ho
  have hint := not_isInt_of_isFloat hf
  split
  case isTrue h0 => exact (writesPredicate_vcmpImm ho (formImm_of_vl_zero hh h0 imm) hh cc).of_vl_zero h0
  case isFalse h0 =>
    have hw := writesPredicate_putHart.1 (writesPredicate_vcmpImm ho (formImm_of_not_isInt hh h0 hint imm) (hart_putHart _ _) cc)
    refine hw.congr (fun i => ?_) fun i _ => ?_
    · rw [afterImm_active, mem_active]
    · rw [cmpOp_of_not_isInt (by rw [afterImm_fmt, hint]), afterImm_bitsAt, afterImm_cmpFloats]

theorem writesVector_vsel (ho : s.opens anyFmt { vs := [va.val, vb.val], vw := [vd.val] } s1 h) :
    WritesVector (exec (.vsel vd va vb) s) s1 h vd (· < h.vl.toNat) (fun i => if h.activeAt i then h.bitsAt va i else h.bitsAt vb i) := by
  refine (writeV_plain (hart_of_opens ho) vd.val (List.range h.vl.toNat)
    (fun i => elemOf (Fmt.ew h.fmt) (h.vbitsOf (if h.activeAt i then va.val else vb.val)) i) ?_).congr (fun _ => List.mem_range) fun i _ => ?_
  · simp only [run_bind, vectorIssue_ok ho]
  · split <;> rfl

theorem writesPredicate_vconf (ho : s.opens Fmt.isInt { vs := [va.val], pw := [pd.val] } s1 h) :
    WritesPredicate (exec (.vconf pd va) s) s1 h pd (· < h.vl.toNat)
      (fun i => h.activeAt i && decide (∃ j, j < i ∧ h.activeAt j = true ∧ h.bitsAt va j = h.bitsAt va i)) := by
  refine (writeP_plain (hart_of_opens ho) pd.val (List.range h.vl.toNat)
    (fun i => h.activeAt i && (List.range i).any fun j => h.activeAt j && h.bitsAt va j == h.bitsAt va i) ?_).congr
    (fun _ => List.mem_range) fun i _ => ?_
  · simp only [run_bind, vectorIssue_ok ho]
    rfl
  · congr 1
    rw [Bool.eq_iff_iff]
    simp

end

/-- Settles O11: a comparison's test is `cmpOp`, which is the integer test or the floating one; `vsel` and `vconf` write every body element. -/
theorem vectorComparisons : Obligations.VectorComparisons := by
  unfold Obligations.VectorComparisons
  intro s s1 h vd va vb pd imm cmp fcmp
  have hcmp : cmp = cmpInts := by funext cc x y; cases cc <;> rfl
  have hfcmp : fcmp = h.cmpFloats := by funext cc x y; cases cc <;> rfl
  rw [hcmp, hfcmp]
  exact ⟨writesPredicate_vcmp, writesPredicate_vcmpImm_of_isInt, writesPredicate_vcmpImm_of_isFloat, writesVector_vsel, writesPredicate_vconf⟩

/-! ### Moves, splats and element numbers -/

section
variable {s s1 : State} {h : Hart} {vd va vb : VRegNo}

/-- The bits of vd after `vmv`: the active elements from va, the others as they were (R126). -/
def Hart.movedBits (h : Hart) (vd va : VRegNo) : Nat :=
  (runLanes (Fmt.ew h.fmt) false (fun _ i => (h.bitsAt va i, false)) h.active { bits := h.vbitsOf vd, gen := h.gen, nan := none }).bits

theorem elemOf_movedBits (i : Nat) :
    elemOf (Fmt.ew h.fmt) (h.movedBits vd va) i = if h.vl.toNat ≤ i ∨ h.activeAt i = false then h.bitsAt vd i else h.bitsAt va i := by
  obtain ⟨-, -, helem⟩ := runLanes_plain (Fmt.ew h.fmt) (h.bitsAt va) h.active { bits := h.vbitsOf vd, gen := h.gen, nan := none }
  rw [Hart.movedBits, helem i]
  by_cases hi : i ∈ h.active
  · obtain ⟨hlt, hact⟩ := mem_active.1 hi
    rw [if_pos hi, if_neg (by simp [hlt, hact])]
    exact Nat.mod_eq_of_lt (elemOf_lt _ _ _)
  · have hout : h.vl.toNat ≤ i ∨ h.activeAt i = false := by
      by_contra hc
      push Not at hc
      exact hi (mem_active.2 ⟨hc.1, Bool.eq_true_of_not_eq_false hc.2⟩)
    rw [if_neg hi, if_pos hout]
    rfl

theorem exec_vmv_eq {h0 : Hart} (hh0 : s.hart = some h0) (ho : s.opensFor anyFmt (({ vs := [va.val], vw := [vd.val] } : Named).guarded h0) [] s1 h) :
    exec (.vmv vd va) s = if h.vl = 0 then .next (s1.retired h) else
      .next (s1.retired { h with v := vput h.v vd.val { bits := h.movedBits vd va, tag := h.tagOf va } }) := by
  obtain ⟨hx, hn, -, hsw⟩ := checks_of_opensFor ho
  have hh := hart_of_opensFor ho
  split
  case isTrue hz =>
    apply issue_eq_retired
    simp only [run_bind, hx, run_getHart, hh0, hn, hsw, hh, hz, if_true, run_retire]
  case isFalse hz =>
    apply issue_eq_retired
    simp only [run_bind, hx, run_getHart, hh0, hn, hsw, hh, hz, if_false, run_retire, run_setHart, hart_putHart, putHart_putHart, putHart_curStream]
    rfl

theorem writesVector_vsplat (ho : s.opens anyFmt { vw := [vd.val] } s1 h) (ra : SReg) :
    WritesVector (exec (.vsplat vd ra) s) s1 h vd h.writes (fun _ => (h.sreg .x ra).toNat) := by
  refine (writeV_plain (hart_of_opens ho) vd.val h.active (fun _ => (h.sreg .x ra).toNat % 2 ^ Fmt.ew h.fmt) ?_).congr
    (fun _ => mem_active) fun _ _ => Nat.mod_mod _ _
  simp only [run_bind, vectorIssue_ok ho, rS_of_opens ho]

/-- `vsplat` of an immediate in a format that it does not round to: the low nibble in `b4`, and a narrowed integer elsewhere (R126). -/
theorem writesVector_vsplatImm (ho : s.opens anyFmt { vw := [vd.val] } s1 h) (hf : Fmt.isFloat h.fmt = false) (imm : BitVec 8) :
    WritesVector (exec (.vsplatImm vd imm) s) s1 h vd h.writes (fun _ => if h.fmt = .b4 then imm.toNat % 16 else h.narrowed imm.toInt) := by
  apply elementwise_plain (hart_of_opens ho) vd.val false rfl
  simp only [run_bind, vectorIssue_ok ho, hf, Bool.false_eq_true, if_false, narrow_eq]

theorem writesRounded_vsplatImm (ho : s.opens anyFmt { vw := [vd.val] } s1 h) (hf : Fmt.isFloat h.fmt = true) (imm : BitVec 8) :
    WritesRounded (exec (.vsplatImm vd imm) s) s1 h vd fun rnd i => (h.fpCtx h.fmt).round rnd i (exactInt imm.toInt) := by
  apply elementwise_rounds (hart_of_opens ho) vd.val hf
  simp only [run_bind, vectorIssue_ok ho, hf, if_true]

theorem writesVector_vid (ho : s.opens numFmt { vw := [vd.val] } s1 h) (hf : Fmt.isInt h.fmt = true) :
    WritesVector (exec (.vid vd) s) s1 h vd h.writes (fun i => h.narrowed i) := by
  apply elementwise_plain (hart_of_opens ho) vd.val true (by rw [isFloat_of_isInt hf, Bool.and_false])
  simp only [run_bind, vectorIssue_ok ho, hf, if_true, narrow_eq]

theorem writesRounded_vid (ho : s.opens numFmt { vw := [vd.val] } s1 h) (hf : Fmt.isFloat h.fmt = true) :
    WritesRounded (exec (.vid vd) s) s1 h vd fun rnd i => (h.fpCtx h.fmt).round rnd i (exactInt i) := by
  apply elementwise_rounds (hart_of_opens ho) vd.val hf
  simp only [run_bind, vectorIssue_ok ho, not_isInt_of_isFloat hf, Bool.false_eq_true, if_false]

/-! ### Single elements and tags -/

theorem elemScalar_bitsAt (i : Nat) :
    elemScalar h.fmt (h.bitsAt va i) = if Fmt.isSigned h.fmt then BitVec.ofInt 64 (h.intAt va i) else BitVec.ofNat 64 (h.bitsAt va i) := by
  unfold elemScalar
  split
  case isTrue hs =>
    have hval : intVal h.fmt (h.bitsAt va i) = h.intAt va i := intVal_asInt h _ i
    rw [← hval, intVal, if_pos hs]
  case isFalse => rfl

theorem exec_vext_eq (ho : s.opensPlain anyFmt { vs := [va.val] } s1 h) (rd rb : SReg) :
    exec (.vext rd va rb) s = .next (s1.retired (h.setS .x rd
      (if (h.sreg .x rb).toNat < h.vlmax then elemScalar h.fmt (h.bitsAt va (h.sreg .x rb).toNat) else 0))) := by
  apply issue_eq_retired
  simp only [run_bind, plainIssue_ok ho, rS_of_opensFor ho, run_wS, hart_of_opensFor ho, run_retire, hart_putHart, putHart_putHart,
    putHart_curStream, curStream_of_opensFor ho]
  rfl

/-- A form that only checks its registers, sets the hart, and retires. -/
theorem issue_plain_set {admits : Fmt → Bool} {r : Named} (ho : s.opensPlain admits r s1 h) (f : Hart → Hart) :
    issue (do let h ← plainIssue admits r; setHart (f h); retire) s = .next (s1.retired (f h)) := by
  apply issue_eq_retired
  simp only [run_bind, plainIssue_ok ho, run_setHart, run_retire, hart_putHart, putHart_putHart, putHart_curStream]

theorem exec_vins_inside (ho : s.opensPlain anyFmt { vs := [vd.val], vw := [vd.val] } s1 h) (ra rb : SReg) (hj : (h.sreg .x rb).toNat < h.vlmax) :
    exec (.vins vd ra rb) s = .next (s1.retired
      (h.setV vd (setElem (Fmt.ew h.fmt) (h.vbitsOf vd) (h.sreg .x rb).toNat (h.sreg .x ra).toNat) h.fmt)) := by
  apply issue_eq_retired
  simp only [run_bind, plainIssue_ok ho, rS_of_opensFor ho, hj, if_true, run_setHart, run_retire, hart_putHart, putHart_putHart, putHart_curStream]

theorem exec_vins_outside (ho : s.opensPlain anyFmt { vs := [vd.val], vw := [vd.val] } s1 h) (ra rb : SReg) (hj : h.vlmax ≤ (h.sreg .x rb).toNat) :
    exec (.vins vd ra rb) s = .next (s1.retired h) := by
  apply issue_eq_retired
  simp only [run_bind, plainIssue_ok ho, rS_of_opensFor ho, Nat.not_lt.2 hj, if_false, run_retire, hart_of_opensFor ho]

theorem exec_vtag_eq (ho : s.opensPlain anyFmt { vw := [vd.val] } s1 h) (fmt : Fmt) :
    exec (.vtag vd fmt) s = .next (s1.retired (h.setV vd (h.vbitsOf vd) fmt)) :=
  issue_plain_set ho fun h => h.setV vd (h.vbitsOf vd) fmt

end

/-- Settles O12: each form by its lemma above; at `vl` = 0 `vmv` leaves the tag as well. -/
theorem vectorMoves : Obligations.VectorMoves := by
  unfold Obligations.VectorMoves
  intro s s1 h vd va ra rb rd imm fmt f w
  refine ⟨?_, fun ho => writesVector_vsplat ho ra, fun ho hf => ?_, fun ho hf => ?_, fun ho hf => writesRounded_vsplatImm ho hf imm,
    writesVector_vid, writesRounded_vid, fun ho => ?_, fun ho => ⟨?_, ?_⟩, fun ho => exec_vtag_eq ho fmt⟩
  · rintro ⟨h0, hh0, ho⟩
    rw [exec_vmv_eq hh0 ho]
    split
    case isTrue => rfl
    case isFalse => exact ⟨_, rfl, elemOf_movedBits⟩
  · have hb4 : h.fmt ≠ .b4 := fun e => by simp [f, e, Fmt.isInt] at hf
    refine (writesVector_vsplatImm ho (isFloat_of_isInt hf) imm).congr (fun _ => Iff.rfl) fun _ _ => ?_
    rw [if_neg hb4]
  · have hnot : Fmt.isFloat h.fmt = false := by rw [show h.fmt = .b4 from hf]; rfl
    refine (writesVector_vsplatImm ho hnot imm).congr (fun _ => Iff.rfl) fun _ _ => ?_
    rw [if_pos hf]
  · intro j
    rw [exec_vext_eq ho, elemScalar_bitsAt]
    simp only [← Nat.not_lt, ite_not, j, f]
  · exact exec_vins_outside ho ra rb
  · intro hj
    refine ⟨_, exec_vins_inside ho ra rb hj, fun i => ?_⟩
    split
    case isTrue hi => rw [hi, elemOf_setElem_self]
    case isFalse hi => exact elemOf_setElem_ne (Ne.symm hi)

/-! ### Slides and permutes -/

section
variable {s s1 : State} {h : Hart} {vd va vb : VRegNo} {pb : PRegNo}

theorem writesVector_slideUp {x : M Unit} (ho : s1.hart = some h) (n : Nat) (hx : x s = slideUp vd va n h s1) :
    WritesVector (issue x s) s1 h vd (fun j => h.writes j ∧ n ≤ j) (fun j => h.bitsAt va (j - n)) :=
  (writeV_plain ho vd.val _ _ hx).congr (fun i => by simp [mem_active]) fun _ _ => rfl

theorem writesVector_slideDown {x : M Unit} (ho : s1.hart = some h) (n : Nat) (hx : x s = slideDown vd va n h s1) :
    WritesVector (issue x s) s1 h vd h.writes (fun j => if j + n < h.vlmax then h.bitsAt va (j + n) else 0) :=
  (writeV_plain ho vd.val _ _ hx).congr (fun _ => mem_active) fun _ _ => rfl

theorem writesVector_vperm {h0 : Hart} {t : Fmt} (hh0 : s.hart = some h0) (htag : h0.tagOf vb = some t) (hint : Fmt.isInt t = true)
    (hew : Fmt.ew t = Fmt.ew h0.fmt)
    (ho : s.opensFor numFmt (({ vs := [va.val, vb.val], vw := [vd.val] } : Named).guarded h0) [va.val] s1 h) :
    WritesVector (exec (.vperm vd va vb) s) s1 h vd h.writes
      (fun i => if h.bitsAt vb i < h.vlmax then h.bitsAt va (h.bitsAt vb i) else 0) := by
  obtain ⟨hx, hn, ht, hsw⟩ := checks_of_opensFor ho
  have hidx : ((h0.tagOf vb.val).any fun t => Fmt.isInt t && decide (Fmt.ew t = Fmt.ew h0.fmt)) = true := by simp [htag, hint, hew]
  refine (writeV_plain (hart_of_opensFor ho) vd.val h.active (fun i => if h.bitsAt vb i < h.vlmax then h.bitsAt va (h.bitsAt vb i) else 0) ?_).congr
    (fun _ => mem_active) fun _ _ => rfl
  simp only [run_bind, hx, run_getHart, hh0, hn, ht, hidx, if_true, hsw, hart_of_opensFor ho]
  rfl

/-! ### Compress and expand -/

theorem selected_eq (h : Hart) (pb : PRegNo) :
    h.selected pb = (List.range h.vl.toNat).filter fun i => h.activeAt i && (h.pbits pb).testBit i := by
  rw [Hart.selected, Hart.active, List.filter_filter]
  exact List.filter_congr fun i _ => Bool.and_comm _ _

/-- In a rising list the place of a member is how many of the list are below it. -/
theorem idxOf_eq_length_filter_lt {l : List Nat} (hl : l.Pairwise (· < ·)) {i : Nat} (hi : i ∈ l) : l.idxOf i = (l.filter (· < i)).length := by
  induction l with
  | nil => cases hi
  | cons a l ih =>
    obtain ⟨ha, hl⟩ := List.pairwise_cons.1 hl
    rcases List.mem_cons.1 hi with rfl | hmem
    · have hnone : (i :: l).filter (· < i) = [] := by
        simp only [List.filter_eq_nil_iff, List.mem_cons, decide_eq_true_eq, forall_eq_or_imp]
        exact ⟨lt_irrefl i, fun x hx => (ha x hx).not_gt⟩
      rw [List.idxOf_cons_self, hnone, List.length_nil]
    · have hlt := ha i hmem
      rw [List.idxOf_cons_ne _ hlt.ne, ih hl hmem, List.filter_cons_of_pos (by simpa using hlt), List.length_cons]

theorem writesVector_vcompress (ho : s.opens anyFmt { vs := [va.val], vw := [vd.val], ps := [pb.val] } s1 h) :
    WritesVector (exec (.vcompress vd va pb) s) s1 h vd (· < (h.selected pb).length) (fun k => h.bitsAt va ((h.selected pb).getD k 0)) := by
  refine (writeV_plain (hart_of_opens ho) vd.val (List.range (h.selected pb).length) (fun k => h.bitsAt va ((h.selected pb).getD k 0)) ?_).congr
    (fun _ => List.mem_range) fun _ _ => rfl
  simp only [run_bind, vectorIssue_ok ho]
  rfl

theorem writesVector_vexpand (ho : s.opens anyFmt { vs := [va.val], vw := [vd.val], ps := [pb.val] } s1 h) :
    WritesVector (exec (.vexpand vd va pb) s) s1 h vd (· ∈ h.selected pb) (fun i => h.bitsAt va ((h.selected pb).filter (· < i)).length) := by
  have hrising : (h.selected pb).Pairwise (· < ·) := (active_pairwise h).filter _
  refine (writeV_plain (hart_of_opens ho) vd.val (h.selected pb) (fun i => h.bitsAt va ((h.selected pb).idxOf i)) ?_).congr
    (fun _ => Iff.rfl) fun i hi => ?_
  · simp only [run_bind, vectorIssue_ok ho]
    rfl
  · rw [idxOf_eq_length_filter_lt hrising hi]

end

/-- Settles O13: each form writes the elements that it names with the elements that it moves there. -/
theorem slidesAndPermutes : Obligations.SlidesAndPermutes := by
  unfold Obligations.SlidesAndPermutes
  intro s s1 h vd va vb rb imm pb w up down chosen
  refine ⟨fun ho => ⟨?_, ?_, ?_, ?_⟩, ?_, fun ho => ?_⟩
  · exact writesVector_slideUp (hart_of_opens ho) _ (by simp only [run_bind, vectorIssue_ok ho, rS_of_opens ho])
  · exact writesVector_slideUp (hart_of_opens ho) _ (by simp only [run_bind, vectorIssue_ok ho])
  · exact writesVector_slideDown (hart_of_opens ho) _ (by simp only [run_bind, vectorIssue_ok ho, rS_of_opens ho])
  · exact writesVector_slideDown (hart_of_opens ho) _ (by simp only [run_bind, vectorIssue_ok ho])
  · rintro ⟨h0, t, hh0, htag, hint, hew, ho⟩
    exact writesVector_vperm hh0 htag hint hew ho
  · have hchosen : chosen = h.selected pb := (selected_eq h pb).symm
    rw [hchosen]
    exact ⟨writesVector_vcompress ho, writesVector_vexpand ho⟩

/-! ### Predicate logic and the first set bit -/

section
variable {s s1 : State} {h : Hart} {pd pa : PRegNo} {rd : SReg}

/-- A predicate form writes the body bits (R136). -/
theorem writesPredicate_predBody {i : Instr} {ps : List PRegNo} {f : Hart → Nat → Bool} {val : Nat → Bool}
    (ho : s.opensPlain anyFmt { ps := ps.map Fin.val, pw := [pd.val] } s1 h) (hi : exec i s = issue (predBody ps pd f) s)
    (hv : ∀ j, j < h.vl.toNat → f h j = val j) : WritesPredicate (exec i s) s1 h pd (· < h.vl.toNat) val := by
  rw [hi]
  refine (writeP_plain (hart_of_opensFor ho) pd.val (List.range h.vl.toNat) (f h) ?_).congr (fun _ => List.mem_range) hv
  have hp : predIssue ps [pd] s = .ok h s1 := plainIssue_ok ho
  simp only [predBody, run_bind, hp]

/-- A form that writes a scalar computed from a predicate register. -/
theorem issue_predicate_scalar (ho : s.opensPlain anyFmt { ps := [pa.val] } s1 h) (f : Hart → Word64) :
    issue (do let h ← predIssue [pa] []; wS rd (f h); retire) s = .next (s1.retired (h.setS .x rd (f h))) := by
  apply issue_eq_retired
  have hp : predIssue [pa] [] s = .ok h s1 := plainIssue_ok ho
  simp only [run_bind, hp, run_wS, hart_of_opensFor ho, run_retire, hart_putHart, putHart_putHart, putHart_curStream, curStream_of_opensFor ho]

theorem exec_pfirst_eq (ho : s.opensPlain anyFmt { ps := [pa.val] } s1 h) :
    exec (.pfirst rd pa) s = .next (s1.retired (h.setS .x rd ((h.firstSet pa).elim (BitVec.allOnes 64) (BitVec.ofNat 64 ·)))) :=
  issue_predicate_scalar ho fun h => (h.firstSet pa).elim (BitVec.allOnes 64) (BitVec.ofNat 64 ·)

theorem exec_pcnt_eq (ho : s.opensPlain anyFmt { ps := [pa.val] } s1 h) :
    exec (.pcnt rd pa) s = .next (s1.retired (h.setS .x rd (BitVec.ofNat 64 (popcountN (h.pbits pa) h.vl.toNat)))) :=
  issue_predicate_scalar ho fun h => BitVec.ofNat 64 (popcountN (h.pbits pa) h.vl.toNat)

theorem firstSet_eq_some {m : Nat} :
    h.firstSet pa = some m ↔ m < h.vl.toNat ∧ (h.pbits pa).testBit m = true ∧ ∀ j, j < m → (h.pbits pa).testBit j = false := by
  simp [Hart.firstSet, List.find?_range_eq_some, and_left_comm]

theorem firstSet_eq_none : h.firstSet pa = none ↔ ∀ j, j < h.vl.toNat → (h.pbits pa).testBit j = false := by
  simp [Hart.firstSet]

/-- An element is before the first set bit, or the end of the body, where no bit up to it is set (R136). -/
theorem lt_firstSet_iff {i : Nat} (hi : i < h.vl.toNat) :
    i < (h.firstSet pa).getD h.vl.toNat ↔ ∀ j, j ≤ i → (h.pbits pa).testBit j = false := by
  cases hf : h.firstSet pa with
  | none =>
    have hnone := firstSet_eq_none.1 hf
    exact ⟨fun _ j hj => hnone j (by omega), fun _ => hi⟩
  | some m =>
    obtain ⟨-, hm, hbefore⟩ := firstSet_eq_some.1 hf
    constructor
    · intro (him : i < m) j hj
      exact hbefore j (by omega)
    · intro hall
      by_contra hmi
      exact Bool.false_ne_true ((hall m (Nat.not_lt.1 hmi)).symm.trans hm)

theorem le_firstSet_iff {i : Nat} (hi : i < h.vl.toNat) :
    i ≤ (h.firstSet pa).getD h.vl.toNat ↔ ∀ j, j < i → (h.pbits pa).testBit j = false := by
  cases i with
  | zero => simp
  | succ k =>
    rw [Nat.succ_le_iff, lt_firstSet_iff (Nat.lt_of_succ_lt hi)]
    simp only [Nat.lt_succ_iff]

theorem exec_pset_eq (ho : s.opensPlain anyFmt { pw := [pd.val] } s1 h) (ra : SReg) :
    exec (.pset pd ra) s = .next (s1.retired (h.setP pd (2 ^ min (h.sreg .x ra).toNat h.vlmax - 1))) := by
  apply issue_eq_retired
  have hp : predIssue [] [pd] s = .ok h s1 := plainIssue_ok ho
  simp only [run_bind, hp, rS_of_opensFor ho, run_setHart, run_retire, hart_putHart, putHart_putHart, putHart_curStream]

end

/-! ### Scale registers -/

/-- The low n bits of one number, put in another. -/
theorem testBit_putBits_bitsOf (x y n i : Nat) : (putBits x 0 n (bitsOf y 0 n)).testBit i = if i < n then y.testBit i else x.testBit i := by
  rw [testBit_putBits, testBit_bitsOf]
  simp only [Nat.zero_le, true_and, Nat.zero_add, Nat.sub_zero]
  split
  case isTrue hi => rw [decide_eq_true hi, Bool.true_and]
  case isFalse => rfl

section
variable {s s1 : State} {h : Hart} {va vd : VRegNo}

theorem exec_kmvToScale_eq (ho : s.opensFor anyFmt { vs := [va.val] } [] s1 h) (kd : KRegNo) :
    exec (.kmvToScale kd va) s = .next (s1.retired { h with
      k := vput h.k kd.val (putBits (h.k.getD kd.val 0) 0 (8 * h.scaleBytes) (bitsOf (h.vbitsOf va) 0 (8 * h.scaleBytes))) }) := by
  obtain ⟨hx, hn, -, hsw⟩ := checks_of_opensFor ho
  apply issue_eq_retired
  simp only [run_bind, hx, hn, hsw, run_getHart, hart_of_opensFor ho, run_setHart, run_retire, hart_putHart, putHart_putHart, putHart_curStream]

theorem exec_kmvToVector_eq (ho : s.opensPlain anyFmt { vw := [vd.val] } s1 h) (ka : KRegNo) :
    exec (.kmvToVector vd ka) s = .next (s1.retired (h.setV vd
      (putBits (h.vbitsOf vd) 0 (8 * h.scaleBytes) (bitsOf (h.k.getD ka.val 0) 0 (8 * h.scaleBytes))) .n8)) :=
  issue_plain_set ho fun h => h.setV vd (putBits (h.vbitsOf vd) 0 (8 * h.scaleBytes) (bitsOf (h.k.getD ka.val 0) 0 (8 * h.scaleBytes))) .n8

theorem k_getD (h : Hart) (ka : KRegNo) : h.k.getD ka.val 0 = h.k[ka] := by simp [Vector.getD]

end

/-- Settles O17: predicate forms write the body bits, `psbf` and `psif` by the place of the first set one, and `kmv` moves whole bytes. -/
theorem predicateAndScaleForms : Obligations.PredicateAndScaleForms := by
  unfold Obligations.PredicateAndScaleForms
  intro s s1 h pd pa pb rd ra vd va kd ka a b w body n
  refine ⟨fun ho => ⟨?_, ?_, ?_⟩, fun ho => ⟨?_, ?_, ?_⟩, fun ho => ⟨?_, ?_, ?_⟩, fun ho => ?_, fun ho => ?_, fun ho => ?_⟩
  · exact writesPredicate_predBody (ps := [pa, pb]) ho exec_pand fun _ _ => rfl
  · exact writesPredicate_predBody (ps := [pa, pb]) ho exec_por fun _ _ => rfl
  · exact writesPredicate_predBody (ps := [pa, pb]) ho exec_pxor fun _ _ => rfl
  · exact writesPredicate_predBody (ps := [pa]) ho exec_pnot fun _ _ => rfl
  · refine writesPredicate_predBody (ps := [pa]) ho exec_psbf fun j hj => ?_
    rw [Bool.eq_iff_iff, decide_eq_true_iff, lt_firstSet_iff hj]
    simp [a]
  · refine writesPredicate_predBody (ps := [pa]) ho exec_psif fun j hj => ?_
    rw [Bool.eq_iff_iff, decide_eq_true_iff, le_firstSet_iff hj]
    simp [a]
  · rw [exec_pcnt_eq ho, popcountN_eq_countP]
  · intro hnone
    have hf : h.firstSet pa = none := firstSet_eq_none.2 fun j hj => hnone j (List.mem_range.2 hj)
    rw [exec_pfirst_eq ho, hf]
    rfl
  · intro m hm hset hbefore
    have hf : h.firstSet pa = some m := firstSet_eq_some.2 ⟨List.mem_range.1 hm, hset, hbefore⟩
    rw [exec_pfirst_eq ho, hf]
    rfl
  · refine ⟨_, exec_pset_eq ho ra, fun i => ?_⟩
    rw [Nat.testBit_two_pow_sub_one]
    exact decide_eq_decide.2 lt_min_iff
  · refine ⟨_, exec_kmvToScale_eq ho kd, fun i => ?_⟩
    rw [testBit_putBits_bitsOf, k_getD]
    rfl
  · refine ⟨_, exec_kmvToVector_eq ho ka, fun i => ?_⟩
    rw [testBit_putBits_bitsOf, k_getD]
    rfl

end Sys2Proof.Machine
end

section
/-! The decoder inverts the encoder (R28 to R33, R44, R45): the round trips of the single constructors, put together. -/

namespace Sys2Proof.Laws

/-- Every instruction makes the round trip, by its constructor. -/
theorem roundTrip : ∀ i : Instr, RoundTrip.Statement i
  | .andi rd rs imm => RoundTrip.andi rd rs imm
  | .ori rd rs imm => RoundTrip.ori rd rs imm
  | .xori rd rs imm => RoundTrip.xori rd rs imm
  | .slti rd rs imm => RoundTrip.slti rd rs imm
  | .addi rd rs imm => RoundTrip.addi rd rs imm
  | .slli rd rs n => RoundTrip.slli rd rs n
  | .srli rd rs n => RoundTrip.srli rd rs n
  | .srai rd rs n => RoundTrip.srai rd rs n
  | .ext rd rs pos wm1 => RoundTrip.ext rd rs pos wm1
  | .ins rd rs pos wm1 => RoundTrip.ins rd rs pos wm1
  | .jalr rd rs imm => RoundTrip.jalr rd rs imm
  | .lhi rd imm => RoundTrip.lhi rd imm
  | .jal rd off => RoundTrip.jal rd off
  | .ctok rs off => RoundTrip.ctok rs off
  | .astart off => RoundTrip.astart off
  | .beq ra rb off => RoundTrip.beq ra rb off
  | .bne ra rb off => RoundTrip.bne ra rb off
  | .blt ra rb off => RoundTrip.blt ra rb off
  | .bge ra rb off => RoundTrip.bge ra rb off
  | .bltn ra rb off => RoundTrip.bltn ra rb off
  | .bgen ra rb off => RoundTrip.bgen ra rb off
  | .smb ra rb off => RoundTrip.smb ra rb off
  | .add rd ra rb => RoundTrip.add rd ra rb
  | .sub rd ra rb => RoundTrip.sub rd ra rb
  | .mul rd ra rb => RoundTrip.mul rd ra rb
  | .mulh rd ra rb => RoundTrip.mulh rd ra rb
  | .div rd ra rb => RoundTrip.div rd ra rb
  | .divn rd ra rb => RoundTrip.divn rd ra rb
  | .rem rd ra rb => RoundTrip.rem rd ra rb
  | .remn rd ra rb => RoundTrip.remn rd ra rb
  | .and rd ra rb => RoundTrip.and rd ra rb
  | .or rd ra rb => RoundTrip.or rd ra rb
  | .xor rd ra rb => RoundTrip.xor rd ra rb
  | .sll rd ra rb => RoundTrip.sll rd ra rb
  | .srl rd ra rb => RoundTrip.srl rd ra rb
  | .sra rd ra rb => RoundTrip.sra rd ra rb
  | .slt rd ra rb => RoundTrip.slt rd ra rb
  | .sltn rd ra rb => RoundTrip.sltn rd ra rb
  | .min rd ra rb => RoundTrip.min rd ra rb
  | .max rd ra rb => RoundTrip.max rd ra rb
  | .minN rd ra rb => RoundTrip.minN rd ra rb
  | .maxN rd ra rb => RoundTrip.maxN rd ra rb
  | .clz rd ra => RoundTrip.clz rd ra
  | .popc rd ra => RoundTrip.popc rd ra
  | .sel rd ra rb => RoundTrip.sel rd ra rb
  | .lea rd ra rb n => RoundTrip.lea rd ra rb n
  | .qpush q r => RoundTrip.qpush q r
  | .qpop r q => RoundTrip.qpop r q
  | .qpeek r q => RoundTrip.qpeek r q
  | .qlen rd q => RoundTrip.qlen rd q
  | .ctake rd => RoundTrip.ctake rd
  | .vadd vd va vb => RoundTrip.vadd vd va vb
  | .vsub vd va vb => RoundTrip.vsub vd va vb
  | .vmul vd va vb => RoundTrip.vmul vd va vb
  | .vmadd vd va vb => RoundTrip.vmadd vd va vb
  | .vnmadd vd va vb => RoundTrip.vnmadd vd va vb
  | .vdiv vd va vb => RoundTrip.vdiv vd va vb
  | .vsqrt vd va => RoundTrip.vsqrt vd va
  | .vrsqrt vd va => RoundTrip.vrsqrt vd va
  | .vexp2 vd va => RoundTrip.vexp2 vd va
  | .vlog2 vd va => RoundTrip.vlog2 vd va
  | .vmax vd va vb => RoundTrip.vmax vd va vb
  | .vmin vd va vb => RoundTrip.vmin vd va vb
  | .vabs vd va => RoundTrip.vabs vd va
  | .vneg vd va => RoundTrip.vneg vd va
  | .vand vd va vb => RoundTrip.vand vd va vb
  | .vor vd va vb => RoundTrip.vor vd va vb
  | .vxor vd va vb => RoundTrip.vxor vd va vb
  | .vnot vd va => RoundTrip.vnot vd va
  | .vshl vd va vb => RoundTrip.vshl vd va vb
  | .vshr vd va vb => RoundTrip.vshr vd va vb
  | .vsra vd va vb => RoundTrip.vsra vd va vb
  | .vcmp cc pd va vb => RoundTrip.vcmp cc pd va vb
  | .vsel vd va vb => RoundTrip.vsel vd va vb
  | .vmv vd va => RoundTrip.vmv vd va
  | .vsplat vd ra => RoundTrip.vsplat vd ra
  | .vid vd => RoundTrip.vid vd
  | .vext rd va rb => RoundTrip.vext rd va rb
  | .vins vd ra rb => RoundTrip.vins vd ra rb
  | .vcvt vd va fmt => RoundTrip.vcvt vd va fmt
  | .vredsum vd va => RoundTrip.vredsum vd va
  | .vredmax vd va => RoundTrip.vredmax vd va
  | .vredmin vd va => RoundTrip.vredmin vd va
  | .vargmax rd va => RoundTrip.vargmax rd va
  | .vslideup vd va rb => RoundTrip.vslideup vd va rb
  | .vslidedn vd va rb => RoundTrip.vslidedn vd va rb
  | .vperm vd va vb => RoundTrip.vperm vd va vb
  | .vcompress vd va pb => RoundTrip.vcompress vd va pb
  | .vexpand vd va pb => RoundTrip.vexpand vd va pb
  | .vconf pd va => RoundTrip.vconf pd va
  | .smerge vd va vb => RoundTrip.smerge vd va vb
  | .sapply vd va sp => RoundTrip.sapply vd va sp
  | .vaddImm vd va imm => RoundTrip.vaddImm vd va imm
  | .vsubImm vd va imm => RoundTrip.vsubImm vd va imm
  | .vmulImm vd va imm => RoundTrip.vmulImm vd va imm
  | .vmaxImm vd va imm => RoundTrip.vmaxImm vd va imm
  | .vminImm vd va imm => RoundTrip.vminImm vd va imm
  | .vandImm vd va imm => RoundTrip.vandImm vd va imm
  | .vorImm vd va imm => RoundTrip.vorImm vd va imm
  | .vxorImm vd va imm => RoundTrip.vxorImm vd va imm
  | .vshlImm vd va n => RoundTrip.vshlImm vd va n
  | .vshrImm vd va n => RoundTrip.vshrImm vd va n
  | .vsraImm vd va n => RoundTrip.vsraImm vd va n
  | .vslideupImm vd va n => RoundTrip.vslideupImm vd va n
  | .vslidednImm vd va n => RoundTrip.vslidednImm vd va n
  | .vsplatImm vd imm => RoundTrip.vsplatImm vd imm
  | .vtag vd fmt => RoundTrip.vtag vd fmt
  | .vcmpImm cc pd va imm => RoundTrip.vcmpImm cc pd va imm
  | .pand pd pa pb => RoundTrip.pand pd pa pb
  | .por pd pa pb => RoundTrip.por pd pa pb
  | .pxor pd pa pb => RoundTrip.pxor pd pa pb
  | .pnot pd pa => RoundTrip.pnot pd pa
  | .psbf pd pa => RoundTrip.psbf pd pa
  | .psif pd pa => RoundTrip.psif pd pa
  | .pfirst rd pa => RoundTrip.pfirst rd pa
  | .pcnt rd pa => RoundTrip.pcnt rd pa
  | .pset pd ra => RoundTrip.pset pd ra
  | .kmvToScale kd va => RoundTrip.kmvToScale kd va
  | .kmvToVector vd ka => RoundTrip.kmvToVector vd ka
  | .setvl rd ra fmt dc ftz bl lg => RoundTrip.setvl rd ra fmt dc ftz bl lg
  | .mode g rm sat => RoundTrip.mode g rm sat
  | .lbMd rd ra disp fr => RoundTrip.lbMd rd ra disp fr
  | .lbMx rd ra rb fr => RoundTrip.lbMx rd ra rb fr
  | .lbnMd rd ra disp fr => RoundTrip.lbnMd rd ra disp fr
  | .lbnMx rd ra rb fr => RoundTrip.lbnMx rd ra rb fr
  | .lhMd rd ra disp fr => RoundTrip.lhMd rd ra disp fr
  | .lhMx rd ra rb fr => RoundTrip.lhMx rd ra rb fr
  | .lhnMd rd ra disp fr => RoundTrip.lhnMd rd ra disp fr
  | .lhnMx rd ra rb fr => RoundTrip.lhnMx rd ra rb fr
  | .lwMd rd ra disp fr => RoundTrip.lwMd rd ra disp fr
  | .lwMx rd ra rb fr => RoundTrip.lwMx rd ra rb fr
  | .lwnMd rd ra disp fr => RoundTrip.lwnMd rd ra disp fr
  | .lwnMx rd ra rb fr => RoundTrip.lwnMx rd ra rb fr
  | .ldMd rd ra disp fr => RoundTrip.ldMd rd ra disp fr
  | .ldMx rd ra rb fr => RoundTrip.ldMx rd ra rb fr
  | .prefL1Md ra disp => RoundTrip.prefL1Md ra disp
  | .prefL1Mx ra rb => RoundTrip.prefL1Mx ra rb
  | .prefLlcMd ra disp => RoundTrip.prefLlcMd ra disp
  | .prefLlcMx ra rb => RoundTrip.prefLlcMx ra rb
  | .sbMd rs ra disp => RoundTrip.sbMd rs ra disp
  | .sbMx rs ra rb => RoundTrip.sbMx rs ra rb
  | .shMd rs ra disp => RoundTrip.shMd rs ra disp
  | .shMx rs ra rb => RoundTrip.shMx rs ra rb
  | .swMd rs ra disp => RoundTrip.swMd rs ra disp
  | .swMx rs ra rb => RoundTrip.swMx rs ra rb
  | .sdMd rs ra disp => RoundTrip.sdMd rs ra disp
  | .sdMx rs ra rb => RoundTrip.sdMx rs ra rb
  | .vldMd vd ra disp fr => RoundTrip.vldMd vd ra disp fr
  | .vldMx vd ra rb fr => RoundTrip.vldMx vd ra rb fr
  | .vlds vd ra rb fr => RoundTrip.vlds vd ra rb fr
  | .vldffMd vd ra disp fr => RoundTrip.vldffMd vd ra disp fr
  | .vldffMx vd ra rb fr => RoundTrip.vldffMx vd ra rb fr
  | .ksld kd ra rb fr => RoundTrip.ksld kd ra rb fr
  | .vstMd vs ra disp => RoundTrip.vstMd vs ra disp
  | .vstMx vs ra rb => RoundTrip.vstMx vs ra rb
  | .vsts vs ra rb => RoundTrip.vsts vs ra rb
  | .vldsegMd n vd ra disp => RoundTrip.vldsegMd n vd ra disp
  | .vldsegMx n vd ra rb => RoundTrip.vldsegMx n vd ra rb
  | .vstsegMd n vs ra disp => RoundTrip.vstsegMd n vs ra disp
  | .vstsegMx n vs ra rb => RoundTrip.vstsegMx n vs ra rb
  | .amoadd sc o dw rd rb ra => RoundTrip.amoadd sc o dw rd rb ra
  | .amoswap sc o dw rd rb ra => RoundTrip.amoswap sc o dw rd rb ra
  | .amomax sc o dw rd rb ra => RoundTrip.amomax sc o dw rd rb ra
  | .amomin sc o dw rd rb ra => RoundTrip.amomin sc o dw rd rb ra
  | .amomaxN sc o dw rd rb ra => RoundTrip.amomaxN sc o dw rd rb ra
  | .amominN sc o dw rd rb ra => RoundTrip.amominN sc o dw rd rb ra
  | .amoand sc o dw rd rb ra => RoundTrip.amoand sc o dw rd rb ra
  | .amoor sc o dw rd rb ra => RoundTrip.amoor sc o dw rd rb ra
  | .cas sc o dw rd rb ra => RoundTrip.cas sc o dw rd rb ra
  | .vgat q ew fr ra rb rc => RoundTrip.vgat q ew fr ra rb rc
  | .vgatff q ew fr ra rb rc => RoundTrip.vgatff q ew fr ra rb rc
  | .vsca q ew ra rb rc => RoundTrip.vsca q ew ra rb rc
  | .vscaa q ew ra rb rc => RoundTrip.vscaa q ew ra rb rc
  | .kvx q ra rb rc => RoundTrip.kvx q ra rb rc
  | .cut bd ra rb => RoundTrip.cut bd ra rb
  | .cutp bd ra rb => RoundTrip.cutp bd ra rb
  | .cutd bd ra rb => RoundTrip.cutd bd ra rb
  | .mshapeCore rd ra rb => RoundTrip.mshapeCore rd ra rb
  | .mshapeDie rd ra rb => RoundTrip.mshapeDie rd ra rb
  | .mlds rd ra => RoundTrip.mlds rd ra
  | .mswap => RoundTrip.mswap
  | .mstreamLocal cd ra rb => RoundTrip.mstreamLocal cd ra rb
  | .mstreamVector cd va rb => RoundTrip.mstreamVector cd va rb
  | .mzero cd => RoundTrip.mzero cd
  | .mrd vd ca rb => RoundTrip.mrd vd ca rb
  | .mwr cd va rb => RoundTrip.mwr cd va rb
  | .opin ra => RoundTrip.opin ra
  | .ounpin ra => RoundTrip.ounpin ra
  | .ocommitPriv ra => RoundTrip.ocommitPriv ra
  | .ocommitPub ra => RoundTrip.ocommitPub ra
  | .odiscard ra => RoundTrip.odiscard ra
  | .oquery rd ra rb => RoundTrip.oquery rd ra rb
  | .frref o sc rd ra rb => RoundTrip.frref o sc rd ra rb
  | .cpy rd ra rb => RoundTrip.cpy rd ra rb
  | .cpyx rd ra rb => RoundTrip.cpyx rd ra rb
  | .cpyz rd ra rb => RoundTrip.cpyz rd ra rb
  | .cpyp rd ra rb => RoundTrip.cpyp rd ra rb
  | .cpyd rd ra rb => RoundTrip.cpyd rd ra rb
  | .kvcompact rd ra rb => RoundTrip.kvcompact rd ra rb
  | .lrfence => RoundTrip.lrfence
  | .evwait rd ra => RoundTrip.evwait rd ra
  | .evpoll rd ra => RoundTrip.evpoll rd ra
  | .klaunch rd ra => RoundTrip.klaunch rd ra
  | .ktrig => RoundTrip.ktrig
  | .claim rd ra rb => RoundTrip.claim rd ra rb
  | .vrelease => RoundTrip.vrelease
  | .hend => RoundTrip.hend
  | .gsplit rd ra => RoundTrip.gsplit rd ra
  | .barr sc n => RoundTrip.barr sc n
  | .bwait sc n => RoundTrip.bwait sc n
  | .bsync sc n => RoundTrip.bsync sc n
  | .sattn va rb => RoundTrip.sattn va rb
  | .spld sp ra => RoundTrip.spld sp ra
  | .dtinit dd ra => RoundTrip.dtinit dd ra
  | .dtadd dd va vb => RoundTrip.dtadd dd va vb
  | .dtmaskPred pd da rb => RoundTrip.dtmaskPred pd da rb
  | .dtmaskVec vd da rb => RoundTrip.dtmaskVec vd da rb
  | .dtpos vd da => RoundTrip.dtpos vd da
  | .dtacc rd da va => RoundTrip.dtacc rd da va
  | .dtprune dd ra => RoundTrip.dtprune dd ra
  | .dtld dd ra => RoundTrip.dtld dd ra
  | .dtst dd ra => RoundTrip.dtst dd ra
  | .dtinfo rd da => RoundTrip.dtinfo rd da
  | .ecall n => RoundTrip.ecall n
  | .breakpoint => RoundTrip.breakpoint
  | .eret => RoundTrip.eret
  | .trapack => RoundTrip.trapack
  | .yield => RoundTrip.yield
  | .fence sc k => RoundTrip.fence sc k
  | .csrr rd csr => RoundTrip.csrr rd csr
  | .csrw csr ra => RoundTrip.csrw csr ra
  | .csrs rd csr ra => RoundTrip.csrs rd csr ra
  | .csrc rd csr ra => RoundTrip.csrc rd csr ra
  | .ctxsave ra => RoundTrip.ctxsave ra
  | .ctxload ra => RoundTrip.ctxload ra
  | .keyset rd ra => RoundTrip.keyset rd ra
  | .asidset rd ra => RoundTrip.asidset rd ra
  | .ckfreeze ra => RoundTrip.ckfreeze ra
  | .ckwait rd ra => RoundTrip.ckwait rd ra
  | .ckrestore ra => RoundTrip.ckrestore ra
  | .gatherFill => RoundTrip.gatherFill
  | .scatterStatusFill => RoundTrip.scatterStatusFill
  | .kvxFill => RoundTrip.kvxFill
  | .matrixQueueExecute => RoundTrip.matrixQueueExecute
  | .copyChunkDone => RoundTrip.copyChunkDone
  | .copyCompletion => RoundTrip.copyCompletion
  | .moveInstall => RoundTrip.moveInstall
  | .oldFrameRelease => RoundTrip.oldFrameRelease
  | .kvcompactEvent => RoundTrip.kvcompactEvent
  | .sliceBlockRead => RoundTrip.sliceBlockRead
  | .passCompletion => RoundTrip.passCompletion
  | .prefFillArrival => RoundTrip.prefFillArrival
  | .evictionSweep => RoundTrip.evictionSweep
  | .queueDeadlock => RoundTrip.queueDeadlock
  | .yieldDeadlineExpiry => RoundTrip.yieldDeadlineExpiry
  | .collectorAcknowledgement => RoundTrip.collectorAcknowledgement
  | .contextResumption => RoundTrip.contextResumption
  | .contextEventWrite => RoundTrip.contextEventWrite
  | .kernelDispatch => RoundTrip.kernelDispatch
  | .launchQueueDoorbell => RoundTrip.launchQueueDoorbell
  | .ctxRoot => RoundTrip.ctxRoot
  | .setPcb => RoundTrip.setPcb
  | .fabricTable => RoundTrip.fabricTable
  | .takeEvent => RoundTrip.takeEvent
  | .readLog => RoundTrip.readLog
  | .stage => RoundTrip.stage
  | .attest => RoundTrip.attest
  | .keyAperture => RoundTrip.keyAperture
  | .reset => RoundTrip.reset
  | .apertureWrite => RoundTrip.apertureWrite
  | .apertureRead => RoundTrip.apertureRead
  | .deviceWindowWrite => RoundTrip.deviceWindowWrite
  | .powerOn => RoundTrip.powerOn
  | .enterS1 => RoundTrip.enterS1
  | .enterS2 => RoundTrip.enterS2
  | .cxlPortTrainingDone => RoundTrip.cxlPortTrainingDone
  | .voltorTrainingDone => RoundTrip.voltorTrainingDone
  | .voltorTrainingTimeout => RoundTrip.voltorTrainingTimeout
  | .voltorLaneFault => RoundTrip.voltorLaneFault
  | .lossOfSignal => RoundTrip.lossOfSignal
  | .flitReceive => RoundTrip.flitReceive
  | .peerAccessArrival => RoundTrip.peerAccessArrival
  | .peerStoreLost => RoundTrip.peerStoreLost
  | .fabPartReport => RoundTrip.fabPartReport
  | .fabPause => RoundTrip.fabPause
  | .fabricBarrierCombine => RoundTrip.fabricBarrierCombine
  | .drainEnd => RoundTrip.drainEnd
  | .restoreEnd => RoundTrip.restoreEnd
  | .instructionFetchAhead => RoundTrip.instructionFetchAhead
  | .eccCorrected => RoundTrip.eccCorrected
  | .eccUncorrectable => RoundTrip.eccUncorrectable
  | .thermalLimit => RoundTrip.thermalLimit
  | .thermalTrip => RoundTrip.thermalTrip
  | .nullFetch => RoundTrip.nullFetch
  | .illegalInstruction => RoundTrip.illegalInstruction
  | .fetchForIssueFault => RoundTrip.fetchForIssueFault
  | .storePerform => RoundTrip.storePerform
  | .cycleCounterAdvance => RoundTrip.cycleCounterAdvance
  | .voltorFirmwareCommand => RoundTrip.voltorFirmwareCommand

end Sys2Proof.Laws

namespace Sys2Proof.Machine

/-- Settles O58: the word of each well-formed instruction makes the round trip of its constructor. -/
theorem decodingInvertsEncoding : Obligations.DecodingInvertsEncoding := by
  unfold Obligations.DecodingInvertsEncoding
  exact fun i w => Laws.roundTrip i w

end Sys2Proof.Machine
end

section
/-! The control of the machine: calls and bad words, the start of a hart, CSR accesses, trap entry and return, fences (R34 to R39, R54 to R56, R257 to R264). -/

namespace Sys2Proof.Machine

/-! ### How a part that does not retire ends -/

section
variable {s s' : State} {h : Hart} {x : M Unit}

theorem issue_eq_trapped {c : BitVec 8} {v : Word64} {b : BitVec 5} (hx : x s = .error (.trap c v b false) s') :
    issue x s = .next (s.trapped c v b) := issue_trap hx

theorem issue_eq_waits {w : Wait} (hh : s.hart = some h) (hx : x s = .error (.wait w false) s') (hw : w ≠ .absent) :
    issue x s = .next (s.waits h w) := by
  rw [issue_wait hx hw, markWait, hh]
  rfl

end

/-! ### Calls and bad words, and the start of a hart -/

/-- Settles O29: each form raises its cause before it changes anything. -/
theorem callsAndBadWordsTrap : Obligations.CallsAndBadWordsTrap := by
  unfold Obligations.CallsAndBadWordsTrap
  intro s h hh
  refine ⟨fun n => ?_, ?_, ?_, ?_, ?_⟩
  · rw [BitVec.ofNat_toNat]
    exact issue_eq_trapped (run_trap _ _ _ _)
  · exact issue_eq_trapped (run_trap _ _ _ _)
  · exact issue_eq_trapped (run_trap _ _ _ _)
  · rw [BitVec.ofNat_toNat]
    exact issue_eq_trapped (run_trap _ _ _ _)
  · refine issue_eq_trapped (s' := s) ?_
    simp only [run_bind, run_curPc, hh, run_trap]

section
variable (slot asid kernel : Nat) (xentry arg : Word64) (grant req : Nat) (gcoord : Word64) (groups : Vector Nat 4) (thandler tstack ewin : Word64) (tick : Nat)

/-- At hart start s1 of both streams holds the argument and every other scalar register is 0 (R283). -/
theorem sreg_start (st : StreamId) (r : SReg) :
    (Hart.start slot asid kernel xentry arg grant req gcoord groups thandler tstack ewin tick).sreg st r = if r.val = 1 then arg else 0 := by
  have hget : ((Vector.replicate 32 (0 : Word64)).set 1 arg)[r] = if r.val = 1 then arg else 0 := by
    rw [Fin.getElem_fin, Vector.getElem_set]
    simp [eq_comm]
  unfold Hart.sreg
  by_cases h0 : r.val = 0
  · simp [h0]
  · rw [if_neg h0]
    cases st <;> exact hget

/-- An aligned address keeps its bits as a program counter (R25). -/
theorem pcBits_of_aligned {v : Word64} (hv : v.toNat % 4 = 0) : pcBits v = v := by
  have hlow : v.setWidth 2 = 0 := BitVec.eq_of_toNat_eq (by simpa using hv)
  ext i hi
  have hbit (hi2 : i < 2) : v[i] = false := by
    have := congrArg (·.getLsbD i) hlow
    simpa [hi, hi2] using this
  rcases Nat.lt_or_ge i 2 with hi2 | hi2
  · simp [pcBits, hbit hi2]
  · have h3 : (3#64)[i] = false := by
      simp only [BitVec.getElem_eq_testBit_toNat, BitVec.toNat_ofNat]
      exact Nat.testBit_lt_two_pow (lt_of_lt_of_le (by decide) (Nat.pow_le_pow_right (by decide) hi2))
    simp only [pcBits, BitVec.getElem_and, BitVec.getElem_not, h3, Bool.not_false, Bool.and_true]

/-- The core of a reset device is a core at its start. -/
theorem core_reset (c : Nat) : State.reset.core c = .start := by
  have hc : State.reset.cores = Vector.replicate 64 .start := rfl
  rw [State.core, hc]
  rcases Nat.lt_or_ge c 64 with h | h
  · simp [Vector.getD, h]
  · simp [Vector.getD, Nat.not_lt.2 h]

/-- A hart at its start has no entry in any queue. -/
theorem queueLen_start (q : QNo) : (Hart.start slot asid kernel xentry arg grant req gcoord groups thandler tstack ewin tick).queueLen q = 0 := by
  fin_cases q <;> rfl

end

/-- Settles O60: the reset state is a literal, and so is a hart at its start. -/
theorem resetAndHartStart : Obligations.ResetAndHartStart := by
  unfold Obligations.ResetAndHartStart
  refine ⟨rfl, rfl, rfl, rfl, rfl, ⟨Memory.wf_nil, Memory.wf_nil⟩, fun c => ?_, ?_⟩
  · rw [core_reset]
    rfl
  · intro slot asid kernel xentry arg grant req gcoord groups thandler tstack ewin tick h
    refine ⟨fun st r => sreg_start .., pcBits_of_aligned, rfl, rfl, rfl, rfl, rfl, rfl, fun d => ?_, fun b => ?_, fun q => queueLen_start .., fun p => ?_,
      fun st => ?_, rfl, rfl, rfl, rfl, rfl, rfl, rfl, fun j => ?_⟩
    · exact Vector.getElem_replicate _
    · exact Vector.getElem_replicate _
    · exact Vector.getElem_replicate _
    · cases st <;> rfl
    · simp [h, Hart.start, seedGen]

/-- Settles O57: each word is decoded by the opcode map. -/
theorem wordsDecodeAsTheSpecReadsThem : Obligations.WordsDecodeAsTheSpecReadsThem := by
  unfold Obligations.WordsDecodeAsTheSpecReadsThem
  decide

end Sys2Proof.Machine
end

section
/-! The control and status registers (R54 to R56, R108): what the checks of an access, its read and its write do. -/

namespace Sys2Proof.Machine

theorem csrOnly_any_ne (csr : Csr) (st : StreamId) : (csrOnly csr).any (· ≠ st) =
    decide ((csr ∈ [Csr.vl, .vt, .md, .nanpc, .nanlane, .rseed] ∧ st = .a) ∨ (csr = .xresume ∧ st = .x)) := by
  cases csr <;> cases st <;> decide

theorem csrSupervisor_eq (csr : Csr) : csrSupervisor csr =
    decide (csr ∈ [Csr.ecause, .epc, .etval, .estream, .estatus, .thandler, .tstack, .ewin, .xresume]) := by
  cases csr <;> decide

theorem csrReadOnly_eq (csr : Csr) : csrReadOnly csr = decide (csr ∈ [Csr.vl, .vt, .tl, .lanes, .gcoord, .cyc, .nanpc]) := by
  cases csr <;> decide

/-- The checks of a CSR access raise the first cause that holds, with the word (R55). -/
theorem run_csrChecks {s : State} {h : Hart} (hh : s.hart = some h) (csr : Csr) (writes : Bool) :
    csrChecks csr writes s = match csrCause csr s.curStream h.priv writes with
      | some c => .error (.trap c (s.curWord.setWidth 64) 0 false) s
      | none => .ok () s := by
  simp only [csrChecks, run_bind, run_curStream, run_getHart, hh, csrOnly_any_ne, csrSupervisor_eq, csrReadOnly_eq, csrCause, Bool.and_eq_true,
    decide_eq_true_eq, and_assoc]
  split <;> [rfl; split] <;> [rfl; split] <;> [rfl; split] <;> rfl

/-- A CSR reads as the sum of its fields (R54, R56). -/
theorem csr_eq_csrValue (h : Hart) (st : StreamId) (cyc : Word64) (csr : Csr) : h.csr st cyc csr = BitVec.ofNat 64 (csrValue h st cyc csr) := by
  cases csr
  case lanes =>
    rw [Hart.csr, csrValue, Hart.lanesWord]
    congr 1
    omega
  case bankc =>
    apply BitVec.eq_of_toNat_eq
    rw [Hart.csr, csrValue, BitVec.toNat_append, BitVec.toNat_ofNat, ← Nat.shiftLeft_add_eq_or_of_lt h.rfc.isLt, Nat.shiftLeft_eq]
    omega
  case nanlane =>
    apply BitVec.eq_of_toNat_eq
    have he := h.nanelem.isLt
    have hor : 2 ^ 63 ||| h.nanelem.toNat = 2 ^ 63 + h.nanelem.toNat :=
      (Nat.two_pow_add_eq_or_of_lt (i := 63) (by omega) 1).symm
    rw [Hart.csr, csrValue, Hart.nanlane]
    split
    · simp only [BitVec.toNat_or, BitVec.toNat_ofNat, BitVec.toNat_setWidth]
      rw [Nat.mod_eq_of_lt (show h.nanelem.toNat < 2 ^ 64 by omega), Nat.mod_eq_of_lt (show 2 ^ 63 + h.nanelem.toNat < 2 ^ 64 by omega)]
      exact hor
    · simp
  case estream =>
    rw [Hart.csr, csrValue]
    split <;> rfl
  case estatus =>
    rw [Hart.csr, csrValue, EStatus.word]
    exact congrArg (BitVec.ofNat 64) (by omega)
  all_goals simp [Hart.csr, csrValue]

/-- Clearing low bits rounds down to their multiple. -/
theorem and_not_mask_eq (v : Word64) (k : Nat) : v &&& ~~~BitVec.ofNat 64 (2 ^ k - 1) = BitVec.ofNat 64 (v.toNat / 2 ^ k * 2 ^ k) := by
  apply BitVec.eq_of_getLsbD_eq
  intro i hi
  rw [BitVec.getLsbD_and, BitVec.getLsbD_not, BitVec.getLsbD_ofNat, BitVec.getLsbD_ofNat, Nat.testBit_two_pow_sub_one, Nat.testBit_mul_two_pow,
    Nat.testBit_div_two_pow, BitVec.getLsbD]
  by_cases h : k ≤ i
  · simp [hi, h]
  · simp [h, Nat.not_le.1 h, hi]

theorem extractLsb'_eq_div (v : Word64) (lo n : Nat) : v.extractLsb' lo n = BitVec.ofNat n (v.toNat / 2 ^ lo) := by
  rw [BitVec.extractLsb', Nat.shiftRight_eq_div_pow]

theorem getLsbD_eq_mod (v : Word64) (k : Nat) : v.getLsbD k = decide (v.toNat / 2 ^ k % 2 = 1) := Nat.testBit_eq_decide_div_mod_eq

/-- The hart that a CSR write leaves, the arming of the first-NaN record included (R6, R54, R56, R81). -/
theorem setCsr_eq_csrTakes (h : Hart) (st : StreamId) (v : Word64) (tick : Nat) (csr : Csr) :
    (if csr = .nanlane ∧ v.getLsbD 63 = false then { h.setCsr st v csr with nanArm := tick } else h.setCsr st v csr) = csrTakes h st v tick csr := by
  cases csr
  case nanlane =>
    have h63 : v.getLsbD 63 = decide (2 ^ 63 ≤ v.toNat) := BitVec.msb_eq_decide v
    simp only [true_and, Hart.setCsr, csrTakes, h63, decide_eq_false_iff_not, Nat.not_le, decide_eq_true_eq]
    split
    case isTrue hlt => rw [if_neg (Nat.not_le.2 hlt)]
    case isFalse hge => rw [if_pos (Nat.not_lt.1 hge)]
  all_goals simp only [reduceCtorEq, false_and, if_false, Hart.setCsr, csrTakes]
  case md => rw [BitVec.ofNat_toNat]
  case resume => cases st <;> rfl
  case bankc => rw [BitVec.ofNat_toNat, extractLsb'_eq_div]
  case rseed =>
    have hgen (j : Fin 256) : v.setWidth 32 + BitVec.ofNat 32 ((j.val + 1) * 0x9E3779B9) = BitVec.ofNat 32 (v.toNat + (j.val + 1) * 0x9E3779B9) := by
      rw [BitVec.ofNat_add, BitVec.ofNat_toNat]
    simp only [seedGen, hgen, BitVec.ofNat_toNat]
  case ecause => rw [BitVec.ofNat_toNat]
  case estream => rw [getLsbD_eq_mod, Nat.pow_zero, Nat.div_one]
  case estatus => simp only [EStatus.ofWord, extractLsb'_eq_div, getLsbD_eq_mod, decide_eq_true_eq]
  case thandler => exact congrArg (fun x => { h with thandler := x }) (and_not_mask_eq v 2)
  case ewin => exact congrArg (fun x => { h with ewin := x }) (and_not_mask_eq v 16)

/-- The state after a CSR has been read. -/
def State.afterCsrRead (s : State) (h : Hart) (csr : Csr) : State := if csr = .ecause then s.putHart { h with win := false } else s

section
variable {s : State} {h : Hart} {csr : Csr}

theorem hart_afterCsrRead (hh : s.hart = some h) : (s.afterCsrRead h csr).hart = some (csrHasRead h csr) := by
  unfold State.afterCsrRead csrHasRead
  split
  · exact hart_putHart _ _
  · exact hh

@[simp] theorem putHart_afterCsrRead (g : Hart) : (s.afterCsrRead h csr).putHart g = s.putHart g := by
  unfold State.afterCsrRead
  split
  · exact putHart_putHart _ _ _
  · rfl

@[simp] theorem curStream_afterCsrRead : (s.afterCsrRead h csr).curStream = s.curStream := by unfold State.afterCsrRead; split <;> rfl
@[simp] theorem curWord_afterCsrRead : (s.afterCsrRead h csr).curWord = s.curWord := by unfold State.afterCsrRead; split <;> rfl
@[simp] theorem tick_afterCsrRead : (s.afterCsrRead h csr).tick = s.tick := by unfold State.afterCsrRead; split <;> rfl

theorem run_csrRead (hh : s.hart = some h) (hn : nanSettled s csr) :
    csrRead csr s = .ok (BitVec.ofNat 64 (csrValue h s.curStream (s.core (coreOfSlot s.curSlot)).cyc csr)) (s.afterCsrRead h csr) := by
  have hsettled : ¬((csr = .nanpc ∨ csr = .nanlane) ∧ (s.core (coreOfSlot s.curSlot)).mat.streamsOf s.curSlot ≠ []) := fun hc => hc.2 (hn hc.1)
  simp only [csrRead, run_bind, run_getHart, hh, run_curStream, run_get, if_neg hsettled, run_pure, run_ite, run_setHart, State.afterCsrRead,
    csr_eq_csrValue]
  split <;> rfl

theorem run_csrRead_waits (hh : s.hart = some h) (hn : ¬nanSettled s csr) : csrRead csr s = .error (.wait .matrix false) s := by
  have hopen : (csr = .nanpc ∨ csr = .nanlane) ∧ (s.core (coreOfSlot s.curSlot)).mat.streamsOf s.curSlot ≠ [] := Classical.not_imp.1 hn
  simp only [csrRead, run_bind, run_getHart, hh, run_curStream, run_get, if_pos hopen, run_waitFor]

/-- The words that a write of `md` refuses: a reserved rounding code, or a guard number without a guard (R50). -/
def mdRefused (csr : Csr) (v : Word64) : Prop := csr = .md ∧ (5 ≤ v.toNat / 2 ^ 7 % 8 ∨ (v.toNat / 2 ^ 6 % 2 = 0 ∧ v.toNat % 2 ^ 6 ≠ 0))

theorem mdRefused_iff {v : Word64} : mdRefused csr v ↔ csr = .md ∧ mdLegal (v.setWidth 11) = false := by
  have hlow : v.toNat % 2 ^ 11 / 128 % 8 = v.toNat / 2 ^ 7 % 8 := by omega
  have hlow6 : v.toNat % 2 ^ 11 / 2 ^ 6 % 2 = v.toNat / 2 ^ 6 % 2 := by omega
  have hlow0 : v.toNat % 2 ^ 11 % 64 = v.toNat % 2 ^ 6 := by omega
  refine and_congr_right fun _ => ?_
  simp only [mdLegal, BitVec.toNat_setWidth, Nat.testBit_eq_decide_div_mod_eq, hlow, hlow6, hlow0, Bool.and_eq_false_iff, Bool.or_eq_false_iff,
    decide_eq_false_iff_not]
  omega

theorem run_csrWrite_refused {v : Word64} (hr : mdRefused csr v) : csrWrite csr v s = .error (.trap 0x01 (s.curWord.setWidth 64) 0 false) s := by
  simp only [csrWrite, run_bind, run_curStream, if_pos (mdRefused_iff.1 hr), trapWord, run_curWord, run_trap]

theorem run_csrWrite {v : Word64} (hh : s.hart = some h) (hr : ¬mdRefused csr v) :
    csrWrite csr v s = .ok () (s.putHart (csrTakes h s.curStream v s.tick csr)) := by
  simp only [csrWrite, run_bind, run_curStream, if_neg (mdRefused_iff.not.1 hr), run_get, run_modHart, hh, setCsr_eq_csrTakes]

variable {rd ra : SReg} {f : Word64 → Word64 → Word64}

/-- `csrs` and `csrc` that name s0 are a read (R55). -/
theorem csrModify_zero (hh : s.hart = some h) : csrModify rd csr 0 f s = (do
    csrChecks csr false
    let v ← csrRead csr
    wS rd v
    retire : M Unit) s := by
  have hw : (decide ((0 : SReg).val ≠ 0)) = false := rfl
  simp only [csrModify, hw, run_bind, run_csrChecks hh]
  cases csrCause csr s.curStream h.priv false with
  | some c => rfl
  | none =>
    simp only [run_rS, hh]
    cases csrRead csr s with
    | error e t => rfl
    | ok v t => simp only [Fin.val_zero, ne_eq, not_true_eq_false, if_false, run_bind]

theorem execCsrr_eq (hh : s.hart = some h) (hc : csrCause csr s.curStream h.priv false = none) (hn : nanSettled s csr) :
    execCsrr rd csr s = .next (s.retired ((csrHasRead h csr).setS s.curStream rd
      (BitVec.ofNat 64 (csrValue h s.curStream (s.core (coreOfSlot s.curSlot)).cyc csr)))) := by
  apply issue_eq_retired
  simp only [run_bind, run_csrChecks hh, hc, run_csrRead hh hn, run_wS, hart_afterCsrRead hh, run_retire, putHart_afterCsrRead, hart_putHart,
    putHart_putHart, curStream_afterCsrRead, putHart_curStream]

theorem execCsrr_waits (hh : s.hart = some h) (hc : csrCause csr s.curStream h.priv false = none) (hn : ¬nanSettled s csr) :
    execCsrr rd csr s = .next (s.waits h .matrix) := by
  refine issue_eq_waits (s' := s) hh ?_ (by decide)
  simp only [run_bind, run_csrChecks hh, hc, run_csrRead_waits hh hn]

theorem execCsrw_refused (hh : s.hart = some h) (hc : csrCause csr s.curStream h.priv true = none) (hr : mdRefused csr (h.sreg s.curStream ra)) :
    execCsrw csr ra s = .next (s.trapped 0x01 (s.curWord.setWidth 64) 0) := by
  refine issue_eq_trapped (s' := s) ?_
  simp only [run_bind, run_csrChecks hh, hc, run_rS, hh, run_csrWrite_refused hr]

theorem execCsrw_eq (hh : s.hart = some h) (hc : csrCause csr s.curStream h.priv true = none) (hr : ¬mdRefused csr (h.sreg s.curStream ra)) :
    execCsrw csr ra s = .next (s.retired (csrTakes h s.curStream (h.sreg s.curStream ra) s.tick csr)) := by
  apply issue_eq_retired
  simp only [run_bind, run_csrChecks hh, hc, run_rS, hh, run_csrWrite hh hr, run_retire, hart_putHart, putHart_putHart, putHart_curStream]

variable {old w : Word64}

theorem issue_csrModify_refused (hh : s.hart = some h) (hc : csrCause csr s.curStream h.priv true = none) (hn : nanSettled s csr) (ha : ra.val ≠ 0)
    (ho : BitVec.ofNat 64 (csrValue h s.curStream (s.core (coreOfSlot s.curSlot)).cyc csr) = old) (hw : f old (h.sreg s.curStream ra) = w)
    (hr : mdRefused csr w) : issue (csrModify rd csr ra f) s = .next (s.trapped 0x01 (s.curWord.setWidth 64) 0) := by
  refine issue_eq_trapped (s' := s.afterCsrRead h csr) ?_
  simp only [csrModify, decide_eq_true ha, run_bind, run_csrChecks hh, hc, run_rS, hh, run_csrRead hh hn, if_pos ha, ho, hw, run_csrWrite_refused hr,
    curWord_afterCsrRead]

theorem issue_csrModify_eq (hh : s.hart = some h) (hc : csrCause csr s.curStream h.priv true = none) (hn : nanSettled s csr) (ha : ra.val ≠ 0)
    (ho : BitVec.ofNat 64 (csrValue h s.curStream (s.core (coreOfSlot s.curSlot)).cyc csr) = old) (hw : f old (h.sreg s.curStream ra) = w)
    (hr : ¬mdRefused csr w) :
    issue (csrModify rd csr ra f) s = .next (s.retired ((csrTakes (csrHasRead h csr) s.curStream w s.tick csr).setS s.curStream rd old)) := by
  apply issue_eq_retired
  simp only [csrModify, decide_eq_true ha, run_bind, run_csrChecks hh, hc, run_rS, hh, run_csrRead hh hn, if_pos ha, ho, hw,
    run_csrWrite (hart_afterCsrRead hh) hr, run_wS, run_retire, hart_putHart, putHart_putHart, putHart_afterCsrRead, curStream_afterCsrRead,
    tick_afterCsrRead, putHart_curStream]

end

/-- Settles O26: each of the three forms is a read, and reads once the array has carried out the hart's streams. -/
theorem csrReads : Obligations.CsrReads := by
  unfold Obligations.CsrReads
  intro s h rd csr hh hc v i hi
  have hread : exec i s = execCsrr rd csr s := by
    simp only [List.mem_cons, List.not_mem_nil, or_false] at hi
    obtain rfl | rfl | rfl := hi
    · rfl
    · simp only [exec_csrs, execCsrs, execCsrr, issue, csrModify_zero hh]
    · simp only [exec_csrc, execCsrc, execCsrr, issue, csrModify_zero hh]
  rw [hread]
  exact ⟨execCsrr_eq hh hc, execCsrr_waits hh hc⟩

/-- Settles O27: a write is refused before it changes anything, or writes the fields that can be written. -/
theorem csrWrites : Obligations.CsrWrites := by
  unfold Obligations.CsrWrites
  intro s h rd ra csr hh hc hn st a old refused illegal
  refine ⟨execCsrw_refused hh hc, execCsrw_eq hh hc, fun f hf ha => ?_⟩
  simp only [List.mem_cons, List.not_mem_nil, or_false] at hf
  obtain rfl | rfl := hf
  · exact ⟨issue_csrModify_refused hh hc hn ha rfl rfl, issue_csrModify_eq hh hc hn ha rfl rfl⟩
  · exact ⟨issue_csrModify_refused hh hc hn ha rfl rfl, issue_csrModify_eq hh hc hn ha rfl rfl⟩

end Sys2Proof.Machine
end

section
/-! Traps: double faults, trap entry and trap return (R52, R259 to R264). -/

namespace Sys2Proof.Machine

/-! ### Parts that always answer and keep a property -/

/-- A part that always answers and keeps a property answers in a state that has it. -/
theorem Total.keeps {α : Type} {P : State → Prop} {x : M α} (ht : Total x) (hk : Keeps P x) {s : State} (hs : P s) : ∃ a t, x s = .ok a t ∧ P t := by
  obtain ⟨a, t, hx⟩ := ht s
  exact ⟨a, t, hx, hk.ok hx hs⟩

/-! ### What the device tells its peers changes the ports alone -/

/-- A state with the Voltor ports and the free values drawn left out. -/
def State.besideLinks (s : State) : State := { s with voltor := Vector.replicate 8 .start, freeCtr := 0 }

section
variable {t : State}

theorem keepsLinks_sendOn (port : Nat) (m : PeerMsg) : Keeps (·.besideLinks = t) (sendOn port m) :=
  keeps_each (fun _ => keeps_bind (x := freeBytes 24) ⟨fun _ h => h⟩ fun _ => by exact keeps_modify fun _ h => h) _

theorem keepsLinks_sendFlit (f : Nat) (m : PeerMsg) : Keeps (·.besideLinks = t) (sendFlit f m) :=
  keeps_bind keeps_get fun s => by
    split
    · exact keeps_pure ()
    · exact keepsLinks_sendOn _ _
    · exact keeps_bind (⟨fun _ h => h⟩ : Keeps _ freeWord) fun _ => keepsLinks_sendOn _ _

theorem keepsLinks_makeRoom (f n : Nat) : Keeps (·.besideLinks = t) (makeRoom f n) := by
  refine keeps_modify fun s h => ?_
  split
  · exact h
  · exact h

theorem keepsLinks_tellPeer (f : Nat) (m : PeerMsg) : Keeps (·.besideLinks = t) (tellPeer f m) :=
  keeps_bind (keepsLinks_makeRoom _ _) fun _ => keeps_bind keeps_get fun s => by
    split
    · exact keepsLinks_sendOn _ _
    · exact keepsLinks_sendFlit _ _

theorem keepsLinks_tellPeers (m : PeerMsg) : Keeps (·.besideLinks = t) (tellPeers m) :=
  keeps_bind keeps_get fun _ => keeps_each (fun _ => keepsLinks_tellPeer _ _) _

theorem total_tellPeer (f : Nat) (m : PeerMsg) : Total (tellPeer f m) :=
  total_bind (total_modify _) fun _ => total_bind total_get fun s => by
    split
    · exact total_sendOn _ _
    · exact total_sendFlit _ _

theorem total_tellPeers (m : PeerMsg) : Total (tellPeers m) := total_bind total_get fun _ => total_each (fun _ => total_tellPeer _ _) _

end

/-- Peers are told, and nothing but the ports changes. -/
theorem run_tellPeers (m : PeerMsg) (s : State) : ∃ t, tellPeers m s = .ok () t ∧ t.besideLinks = s.besideLinks := by
  obtain ⟨_, t, ht⟩ := (total_tellPeers m).keeps (keepsLinks_tellPeers (t := s.besideLinks) m) rfl
  exact ⟨t, ht⟩

/-- The parts of a fabric kernel are paused: kernels and ports alone change. -/
theorem run_pauseParts (asid d : Nat) (s : State) :
    ∃ k t, pauseParts asid d s = .ok () t ∧ t.besideLinks = { s with kernels := k }.besideLinks := by
  simp only [pauseParts, run_bind, run_get, run_ite]
  split
  · obtain ⟨t, ht, hl⟩ := run_tellPeers (.pause asid d) { s with kernels := s.kernels.map fun (e : Nat × Kernel) => (e.1, if e.2.partOf asid then { e.2 with reports := [] } else e.2) }
    exact ⟨_, t, ht, hl⟩
  · exact ⟨s.kernels, s, rfl, rfl⟩

/-! ### Double faults -/

/-- The fields that a double fault concerns, where nothing but kernels and ports has changed. -/
theorem of_besideLinks {s t : State} {k : SMap Kernel} (hl : t.besideLinks = { s with kernels := k }.besideLinks) :
    t.harts = s.harts ∧ t.contexts = s.contexts ∧ t.mem = s.mem ∧ t.curSlot = s.curSlot := by
  have hharts := congrArg State.harts hl
  have hcontexts := congrArg State.contexts hl
  have hmem := congrArg State.mem hl
  have hslot := congrArg State.curSlot hl
  exact ⟨hharts, hcontexts, hmem, hslot⟩

/-- A hart that a double fault halts (R261). -/
def Hart.haltedBy (h : Hart) (c : BitVec 8) (v : Word64) : Hart := { h with halted := some (c, v), retake := true }

/-- The record of a double fault of hart h. -/
def Hart.faultRec (h : Hart) (c : BitVec 8) (v : Word64) : FaultRec :=
  { core := coreOfSlot h.slot, place := h.slot % 16, epc := h.epc, etval := h.etval, cause := c, addr := v }

/-- The contexts in which the one of hart h has taken the record of a double fault, the first of them kept. -/
def faultTaken (m : SMap Context) (h : Hart) (c : BitVec 8) (v : Word64) : SMap Context :=
  match SMap.get? m h.asid with
  | none => m
  | some x => SMap.put m h.asid { x with fault := x.fault.or (some (h.faultRec c v)) }

/-- The harts in which those of a context have stopped. -/
def stoppedIn (m : SMap Hart) (asid : Nat) : SMap Hart := m.map fun e => if e.2.asid = asid then (e.1, e.2.stop) else e

/-- The state after a context has taken a double fault of its hart h and stopped. -/
def State.faulted (s : State) (h : Hart) (c : BitVec 8) (v : Word64) : State :=
  { s with contexts := faultTaken s.contexts h c v, harts := stoppedIn s.harts h.asid }

/-- The end of a double fault: the record and the stop. -/
def noteFault (h : Hart) (c : BitVec 8) (v : Word64) : M Unit := do
  modify fun s => match SMap.get? s.contexts h.asid with
    | none => s
    | some x => { s with contexts := SMap.put s.contexts h.asid { x with fault := x.fault.or (some (h.faultRec c v)) } }
  stopContext h.asid

theorem run_noteFault (h : Hart) (c : BitVec 8) (v : Word64) (s : State) : noteFault h c v s = .ok () (s.faulted h c v) := by
  simp only [noteFault, run_bind, run_modify, stopContext, State.faulted, faultTaken, stoppedIn]
  cases SMap.get? s.contexts h.asid <;> rfl

/-- A double fault halts the hart, stops its context's harts and notes the first fault in the context; kernels and ports may change with it (R261). -/
theorem run_doubleFault {s : State} {h : Hart} (hh : s.hart = some h) (c : BitVec 8) (v : Word64) :
    ∃ (k : SMap Kernel) (t : State), doubleFault c v s = .ok () (t.faulted h c v) ∧
      t.besideLinks = { s.putHart (h.haltedBy c v) with kernels := k }.besideLinks := by
  have hrest : doubleFault c v s = (if (SMap.get? s.contexts h.asid).any fun c => c.runs && c.fault.isNone then do
      pauseParts h.asid 0
      noteFault h c v
    else noteFault h c v : M Unit) (s.putHart (h.haltedBy c v)) := by
    simp only [doubleFault, run_bind, run_getHart, hh]
    rfl
  rw [hrest]
  split
  · obtain ⟨k, t, ht, hl⟩ := run_pauseParts h.asid 0 (s.putHart (h.haltedBy c v))
    exact ⟨k, t, by simp only [run_bind, ht, run_noteFault], hl⟩
  · exact ⟨s.kernels, _, run_noteFault _ _ _ _, rfl⟩

/-- The hart at a number, where those of a context have stopped. -/
theorem get?_stoppedIn (m : SMap Hart) (asid k : Nat) :
    SMap.get? (stoppedIn m asid) k = (SMap.get? m k).map fun h => if h.asid = asid then h.stop else h := by
  induction m with
  | nil => rfl
  | cons e m ih =>
    simp only [stoppedIn, List.map_cons, SMap.get?] at ih ⊢
    have he : (if e.2.asid = asid then (e.1, e.2.stop) else e) = (e.1, if e.2.asid = asid then e.2.stop else e.2) := by split <;> rfl
    rw [he, ih]
    by_cases hk : e.1 = k
    · simp [hk]
    · simp [hk]

theorem stopped_of_mem_stoppedIn {m : SMap Hart} {asid : Nat} {e : Nat × Hart} (he : e ∈ stoppedIn m asid) (ha : e.2.asid = asid) : e.2.stopped = true := by
  obtain ⟨d, -, rfl⟩ := List.mem_map.1 he
  by_cases hd : d.2.asid = asid
  · simp [hd, Hart.stop]
  · simp [hd] at ha

/-- Settles O31: the frame of the first trap stands, and the context takes the record of this fault unless it has one. -/
theorem doubleFaultHalts : Obligations.DoubleFaultHalts := by
  unfold Obligations.DoubleFaultHalts
  intro s h c v b hh hw
  obtain ⟨k, t, ht, hl⟩ := run_doubleFault hh c v
  obtain ⟨hharts, hcontexts, hmem, hslot⟩ := of_besideLinks hl
  have hs : s.trapped c v b = t.faulted h c v := by
    simp only [State.trapped, after, trapEntry, run_bind, run_getHart, hh, run_curStream, hw, if_true, ht]
  rw [hs]
  refine ⟨(h.haltedBy c v).stop, ?_, rfl, rfl, rfl, rfl, rfl, rfl, rfl, fun e he ha => stopped_of_mem_stoppedIn he ha,
    hmem, fun x hx hf => ?_⟩
  · have hget : SMap.get? t.harts t.curSlot = some (h.haltedBy c v) := by
      rw [hharts, hslot]
      exact hart_putHart _ _
    simp only [State.hart, State.faulted, get?_stoppedIn, hget, Option.map_some]
    exact congrArg some (if_pos rfl)
  · refine ⟨{ x with fault := x.fault.or (some (h.faultRec c v)) }, ?_, by rw [hf]; rfl⟩
    have hget : SMap.get? t.contexts h.asid = some x := by
      rw [hcontexts]
      exact hx
    simp only [State.faulted, faultTaken, hget, SMap.get?_put_self]

/-! ### Trap entry and return -/

/-- Settles O30: entry stores the frame that `saveTrap` noted and runs the handler. -/
theorem trapEntrySavesAndEnters : Obligations.TrapEntrySavesAndEnters := by
  unfold Obligations.TrapEntrySavesAndEnters
  refine ⟨?_, fun h => ⟨rfl, rfl, rfl, fun st => ⟨rfl, rfl, rfl, rfl, rfl, rfl, rfl, rfl⟩⟩⟩
  intro s s1 s2 h c v b hh hw hj hh1 hst st saved hf hh2
  have hsaved : h.saveTrap s.curStream c v b = saved := rfl
  have hstored : attempt (storeFrame saved) (s1.putHart saved) = .ok (.ok ()) s2 := run_attempt_ok hf
  simp only [State.trapped, after, trapEntry, run_bind, run_getHart, hh, run_curStream, hw, hj, run_setHart, enterTrap, hsaved, hart_putHart, hstored,
    run_modHart, hh2, Bool.false_eq_true, if_false]
  rfl

theorem setS_a {r : SReg} (hr : r.val ≠ 0) (h : Hart) (v : Word64) : h.setS .a r v = { h with as := h.as.set r v } := by
  simp only [Hart.setS, if_neg hr]

/-- The frame's first four doublewords go to s28 to s31 of the access stream (R259, R263). -/
theorem setS_frame (h : Hart) (a b c d : Word64) : (((h.setS .a 28 a).setS .a 29 b).setS .a 30 c).setS .a 31 d =
    { h with as := (((h.as.set 28 a).set 29 b).set 30 c).set 31 d } := by
  rw [setS_a (r := 28) (by decide), setS_a (r := 29) (by decide), setS_a (r := 30) (by decide), setS_a (r := 31) (by decide)]
  rfl

/-- Settles O32: the handler's stores are made, the frame is read, and the hart goes on as it says. -/
theorem trapReturnRestores : Obligations.TrapReturnRestores := by
  unfold Obligations.TrapReturnRestores
  intro s s1 s2 h x hh
  have onlyS_u (hu : h.priv = .u) : onlyS s = .error (.trap 0x04 (s.curWord.setWidth 64) 0 false) s := by simp [hh, hu]
  have onlyS_s (hp : h.priv = .s) : onlyS s = .ok () s := by simp [hh, hp]
  refine ⟨fun hu => ⟨?_, ?_⟩, fun hp => ?_, ?_⟩
  · exact issue_eq_trapped (s' := s) (by simp only [run_bind, onlyS_u hu])
  · exact issue_eq_trapped (s' := s) (by simp only [run_bind, onlyS_u hu])
  · apply issue_eq_retired
    simp only [run_bind, onlyS_s hp, run_modHart, hh, run_retire, hart_putHart, putHart_putHart, putHart_curStream]
  · intro hp hw hj hr hh2 w regs
    have hrun : trapReturn s = .ok () (s2.putHart (h.leaveHandler x)) := by
      simp only [trapReturn, run_bind, run_getHart, hh, hw, hj, hr, run_modHart, hh2, Bool.false_eq_true, if_false]
    have hissue : exec .eret s = .next (markWait none (s2.putHart (h.leaveHandler x))) := issue_ok (by simp only [run_bind, onlyS_s hp, hrun])
    rw [hissue, markWait_none (hart_putHart _ _), putHart_putHart]
    refine congrArg (fun g => Host.Outcome.next (s2.putHart g)) ?_
    cases he : h.estream
    · simp only [Hart.leaveHandler, setS_frame, he, Bool.false_eq_true, if_false]
      rfl
    · simp only [Hart.leaveHandler, setS_frame, he, if_true]
      rfl

end Sys2Proof.Machine
end

section
/-! Settling what a stream has in flight, and the forms that do no more: yield and fence (R158, R267). -/

namespace Sys2Proof.Machine

/-! ### Stores in flight that cannot go out -/

section
variable {s : State}

/-- A store in flight that cannot go out is kept in every round. -/
theorem keptAfter_of_stays {n i : Nat} {p : PendingStore} (hi : s.pending[i]? = some p) (hp : s.stays p = true) : (s.keptAfter n)[i]? = some true := by
  cases n with
  | zero => simp [State.keptAfter, hi, hp]
  | succ n => simp [State.keptAfter, State.keptRound, hi, hp]

theorem keeps_of_stays {f : PendingStore → Bool} {p : PendingStore} (hmem : p ∈ s.pending) (hf : f p = true) (hp : s.stays p = true) : s.keeps f = true := by
  obtain ⟨i, hi⟩ := List.getElem?_of_mem hmem
  have hany : s.pending.any s.stays = true := List.any_eq_true.2 ⟨p, hmem, hp⟩
  have hkept : (p, true) ∈ s.kept := by
    rw [State.kept, if_pos hany]
    refine List.mem_of_getElem? (i := i) ?_
    rw [List.getElem?_zip_eq_some]
    exact ⟨hi, keptAfter_of_stays hi hp⟩
  exact List.any_eq_true.2 ⟨_, hkept, by simpa using hf⟩

/-- Where every store in flight can go out, none is kept. -/
theorem keeps_of_none_stays (f : PendingStore → Bool) (hs : ∀ p ∈ s.pending, s.stays p = false) : s.keeps f = false := by
  have hany : s.pending.any s.stays = false := List.any_eq_false.2 fun p hp => by simp [hs p hp]
  simp [State.keeps, State.kept, hany]

end

/-! ### Settling what a stream has in flight -/

section
variable {s : State} {h : Hart}

theorem settleEngines_fence (hh : s.hart = some h) {st : StreamId} (ht : ∃ t ∈ h.transfers, (t.stream = st ∨ t.both = true) ∧ t.counted = true) :
    settleEngines st s = .error (.wait .fence false) s := by
  have hany : (h.transfers.any fun t => (decide (t.stream = st) || t.both) && t.counted) = true := by simpa [and_assoc] using ht
  simp only [settleEngines, run_bind, run_getHart, hh, run_get, hany, if_true, run_waitFor]

theorem settleEngines_level (hh : s.hart = some h) {st : StreamId} (ht : ∀ t ∈ h.transfers, t.stream = st ∨ t.both = true → t.counted = false)
    (hw : (∃ w ∈ s.held, w.of h.slot st = true) ∨ (∃ p ∈ s.pending, p.of h.slot st = true ∧ s.stays p = true) ∨ s.arrivalHeld h st = true) :
    settleEngines st s = .error (.wait .level false) s := by
  have hany : (h.transfers.any fun t => (decide (t.stream = st) || t.both) && t.counted) = false := by
    simpa [List.any_eq_false] using ht
  have hlevel : (s.held.any (fun w => w.of h.slot st) || s.keeps (fun p => p.of h.slot st) || s.arrivalHeld h st) = true := by
    obtain ⟨w, hw, ho⟩ | ⟨p, hp, ho, hs⟩ | ha := hw
    · rw [List.any_eq_true.2 ⟨w, hw, ho⟩, Bool.true_or, Bool.true_or]
    · rw [keeps_of_stays hp ho hs, Bool.or_true, Bool.true_or]
    · rw [ha, Bool.or_true]
  simp only [settleEngines, run_bind, run_getHart, hh, run_get, hany, hlevel, if_true, Bool.false_eq_true, if_false, run_waitFor]

theorem settleEngines_ok (hh : s.hart = some h) (hu : s.unblocked h) : settleEngines s.curStream s = .ok () s := by
  obtain ⟨ht, hheld, hstays, harr⟩ := hu
  have hany : (h.transfers.any fun t => (decide (t.stream = s.curStream) || t.both) && t.counted) = false := by
    simpa [List.any_eq_false] using ht
  have hlevel : (s.held.any (fun w => w.of h.slot s.curStream) || s.keeps (fun p => p.of h.slot s.curStream) || s.arrivalHeld h s.curStream) = false := by
    rw [List.any_eq_false.2 (by simpa using hheld), keeps_of_none_stays _ hstays, harr]
    rfl
  simp only [settleEngines, run_bind, run_getHart, hh, run_get, hany, hlevel, Bool.false_eq_true, if_false, run_pure]

/-- At a narrow scope what a stream has in flight falls due inside the scope (log 6). -/
theorem settle_narrow (hh : s.hart = some h) (hu : s.unblocked h) {sc : Scope} (hd : sc ≠ .dev) (hf : sc ≠ .fab) :
    settle s.curStream sc s = .ok () { s.orderCuts h.slot s.curStream with
      pending := (s.orderCuts h.slot s.curStream).pending.map fun p => if p.precedes h.slot s.curStream then p.dueAt sc else p } := by
  simp only [settle, run_bind, settleEngines_ok hh hu, run_getHart, hh, run_modify, hd, hf, or_self, if_false]

variable {s1 : State}

/-- At a scope that takes in the device what a stream has in flight performs (R158, log 6). -/
theorem settle_wide (hh : s.hart = some h) (hu : s.unblocked h) {sc : Scope} (hsc : sc = .dev ∨ sc = .fab)
    (hd : drain (fun p => p.precedes h.slot s.curStream) (s.orderCuts h.slot s.curStream) = .ok () s1) :
    settle s.curStream sc s = if s1.pending.any fun p => p.precedes h.slot s.curStream then .error (.wait .level true) s1 else .ok () s1 := by
  simp only [settle, run_bind, settleEngines_ok hh hu, run_getHart, hh, run_modify, hsc, if_true, hd, run_get, run_ite, run_throw, run_pure]

end

/-! ### `yield` and `fence` -/

/-- What a fence puts first: with kind `.ld` it waits for the engines alone (R158). -/
def fenceSettles (st : StreamId) (sc : Scope) : FenceKind → M Unit
  | .ld => settleEngines st
  | .st | .all => settle st sc

/-- What a fence does then: a refresh point, unless it orders stores alone or is of the hart's scope (R142). -/
def fenceEnds (st : StreamId) (sc : Scope) (k : FenceKind) : M Unit := do
  if k ≠ .st ∧ sc ≠ .hart then refreshPoint st else pure ()
  retire

theorem exec_fence_eq (s : State) (sc : Scope) (k : FenceKind) :
    exec (.fence sc k) s = issue (fenceSettles s.curStream sc k >>= fun _ => fenceEnds s.curStream sc k) s := by
  cases k <;> rfl

theorem hart_modCore (s : State) (c : Nat) (f : Core → Core) : (s.modCore c f).hart = s.hart := by
  rw [State.hart, modCore_harts, modCore_curSlot]
  rfl

@[simp] theorem pc_advance (h : Hart) (st : StreamId) : (h.advance st).pc st = pcBits (h.pc st + 4) := by cases st <;> rfl

/-- A hart at a refresh point of a stream (R142). -/
def Hart.refreshed (h : Hart) (st : StreamId) (tick : Nat) : Hart :=
  match st with
  | .x => { h with refX := tick }
  | .a => { h with refA := tick }

/-- A core whose poisoned instruction words are to be fetched again (R258). -/
def Core.refetching (c : Core) : Core :=
  { c with icache := c.icache.filter fun e => match e.2 with
      | .poison _ _ => false
      | .word _ _ => true }

theorem run_refreshPoint {s : State} {h : Hart} (hh : s.hart = some h) (st : StreamId) :
    refreshPoint st s = .ok () ((s.putHart (h.refreshed st s.tick)).modCore (coreOfSlot s.curSlot) Core.refetching) := by
  simp only [refreshPoint, run_bind, run_get, run_modHart, hh, run_modCore]
  rfl

theorem orderCuts_fields (s : State) (slot : Nat) (st : StreamId) :
    (s.orderCuts slot st).hart = s.hart ∧ (s.orderCuts slot st).curStream = s.curStream ∧ (s.orderCuts slot st).tick = s.tick ∧
      (s.orderCuts slot st).mem = s.mem ∧ (s.orderCuts slot st).ls = s.ls ∧ (s.orderCuts slot st).pending = s.pending := by
  cases st <;> exact ⟨rfl, rfl, rfl, rfl, rfl, rfl⟩

section
variable {s s1 : State} {h : Hart} {sc : Scope} {k : FenceKind}

theorem fenceSettles_of_ne_ld (hk : k ≠ .ld) : fenceSettles s.curStream sc k s = settle s.curStream sc s := by
  cases k
  · exact absurd rfl hk
  · rfl
  · rfl

/-- A fence's end leaves the hart past it, and refreshed where it orders loads beyond the hart; memory and the stores in flight stay. -/
theorem run_fenceEnds (hh : s1.hart = some h) :
    ∃ t g, fenceEnds s1.curStream sc k s1 = .ok () t ∧ t.hart = some (g.advance s1.curStream) ∧
      g = (if k ≠ .st ∧ sc ≠ .hart then h.refreshed s1.curStream s1.tick else h) ∧ t.mem = s1.mem ∧ t.ls = s1.ls ∧ t.pending = s1.pending := by
  by_cases hr : k ≠ .st ∧ sc ≠ .hart
  · simp only [fenceEnds, if_pos hr, run_bind, run_refreshPoint hh, run_retire, hart_modCore, hart_putHart]
    exact ⟨_, _, rfl, by rw [hart_putHart, modCore_curStream, putHart_curStream], rfl, by simp, by simp, by simp⟩
  · simp only [fenceEnds, if_neg hr, run_retire, hh]
    exact ⟨_, _, rfl, hart_putHart _ _, rfl, rfl, rfl, rfl⟩

/-- A fence that has put first what it orders retires; memory and the stores in flight are as that left them. -/
theorem exec_fence_retires (hx : fenceSettles s.curStream sc k s = .ok () s1) (hh : s1.hart = some h) (hst : s1.curStream = s.curStream)
    (htick : s1.tick = s.tick) :
    ∃ t, (∃ g, exec (.fence sc k) s = .next t ∧ t.hart = some g ∧ g.pc s.curStream = pcBits (h.pc s.curStream + 4) ∧
        (∀ st r, g.sreg st r = h.sreg st r) ∧ (k ≠ .st → sc ≠ .hart → (match s.curStream with | .a => g.refA | .x => g.refX) = s.tick)) ∧
      t.mem = s1.mem ∧ t.ls = s1.ls ∧ t.pending = s1.pending := by
  obtain ⟨t, g, ht, hg, rfl, hmem, hls, hpend⟩ := run_fenceEnds (sc := sc) (k := k) hh
  rw [hst] at ht hg
  have hexec : exec (.fence sc k) s = .next (markWait none t) := by
    rw [exec_fence_eq]
    exact issue_ok (by simp only [run_bind, hx, ht])
  rw [hexec, markWait_none hg, htick]
  refine ⟨_, ⟨_, rfl, hart_putHart _ _, ?_, fun st r => ?_, fun hk hsc => ?_⟩, hmem, hls, hpend⟩
  · split
    · cases s.curStream <;> rfl
    · cases s.curStream <;> rfl
  · rw [sreg_stirred, sreg_advance]
    split
    · cases s.curStream <;> cases st <;> rfl
    · rfl
  · rw [if_pos ⟨hk, hsc⟩]
    cases s.curStream <;> rfl

end

/-- Settles O33: a fence waits, or puts first what its kind and scope order, and retires. -/
theorem yieldAndFence : Obligations.YieldAndFence := by
  unfold Obligations.YieldAndFence
  intro s s1 h sc k hh
  refine ⟨?_, fun ht => ?_, fun ht hw => ?_, fun hu => ?_⟩
  · have hx : (retire >>= fun _ => modHart fun h => if h.deadline.isSome then { h.stop with coop := true, deadline := none } else h) s =
        .ok () (s.putHart (if h.deadline.isSome then { (h.advance s.curStream).stop with coop := true, deadline := none } else h.advance s.curStream)) := by
      simp only [run_bind, run_retire, hh, run_modHart, hart_putHart, putHart_putHart, advance_deadline]
    have hissue : exec .yield s = .next (markWait none _) := issue_ok hx
    rw [hissue, markWait_none (hart_putHart _ _), putHart_putHart]
    refine congrArg (fun g => Host.Outcome.next (s.putHart g)) ?_
    split
    · cases s.curStream <;> rfl
    · rfl
  · rw [exec_fence_eq]
    refine issue_eq_waits (s' := s) hh ?_ (by decide)
    cases k <;> simp only [fenceSettles, settle, run_bind, settleEngines_fence hh ht]
  · rw [exec_fence_eq]
    refine issue_eq_waits (s' := s) hh ?_ (by decide)
    cases k <;> simp only [fenceSettles, settle, run_bind, settleEngines_level hh ht hw]
  · intro before retires
    refine ⟨?_, ?_, ?_⟩
    · rintro rfl
      exact exec_fence_retires (settleEngines_ok hh hu) hh rfl rfl
    · intro hk hd hf
      obtain ⟨h1, h2, h3, h4, h5, h6⟩ := orderCuts_fields s h.slot s.curStream
      have hr := exec_fence_retires (k := k) ((fenceSettles_of_ne_ld hk).trans (settle_narrow hh hu hd hf)) (h1.trans hh) h2 h3
      simp only [h4, h5, h6] at hr
      exact hr
    · intro hk hsc hd hh1 hst
      have hkept := (keeps_drain (outer_closed (s.orderCuts h.slot s.curStream).outer) _).ok hd rfl
      have htick : s1.tick = s.tick := (congrArg State.tick hkept).trans (orderCuts_fields s h.slot s.curStream).2.2.1
      have hx := (fenceSettles_of_ne_ld hk).trans (settle_wide hh hu hsc hd)
      refine ⟨fun hnone => ?_, fun ⟨p, hp, hb⟩ => ?_⟩
      · have hany : (s1.pending.any fun p => p.precedes h.slot s.curStream) = false := List.any_eq_false.2 fun p hp => Bool.not_eq_true _ ▸ hnone p hp
        rw [hany, if_neg Bool.false_ne_true] at hx
        exact exec_fence_retires hx hh1 hst htick
      · have hany : (s1.pending.any fun p => p.precedes h.slot s.curStream) = true := List.any_eq_true.2 ⟨p, hp, hb⟩
        rw [hany, if_pos rfl] at hx
        rw [exec_fence_eq]
        simp only [issue, run_bind, hx, if_true, markWait, hh1]
        exact congrArg Host.Outcome.next (by rw [State.waits, hst])

end Sys2Proof.Machine
end

section
/-! The turn of a stream: which stream a core chooses, and what the word that it fetches runs (R25, R34 to R36, R298). -/

namespace Sys2Proof.Machine

/-- The bytes of a word decode as the word does, with none left over. -/
theorem decodeBytes_bytesOfWord (w : Word32) : decodeBytes (bytesOfWord w.toNat) = some (decodeWord w.toNat, []) := by
  have hw : Sys2Proof.wordOfBytes (BitVec.ofNat 8 w.toNat) (BitVec.ofNat 8 (w.toNat / 2 ^ 8)) (BitVec.ofNat 8 (w.toNat / 2 ^ 16))
      (BitVec.ofNat 8 (w.toNat / 2 ^ 24)) = w.toNat := by
    simp only [Sys2Proof.wordOfBytes, BitVec.toNat_ofNat]
    omega
  simp only [bytesOfWord, decodeBytes, hw]

theorem decodeWord_zero : decodeWord 0 = .null := by decide

/-- A state with no late load stays as it is when a turn fixes some. -/
theorem fixedBy_of_late_nil {u : State} (t : Turn) (hl : u.late = []) : u.fixedBy t = u := by
  cases u
  cases hl
  rfl

/-! ### The stream that a core chooses -/

section
variable {v : State} {g : Hart} {st : StreamId} {c : IssueClass}

/-- No ready stream of another hart in the class goes before the one chosen (R298). -/
theorem not_before_of_chosen {st' : StreamId} {e : Nat × Hart} (hc : v.chosen g st c = true) (he : e ∈ v.harts)
    (hcore : coreOfSlot e.1 = coreOfSlot g.slot) (hslot : e.1 ≠ g.slot) (hr : v.ready e.2 st' = true) (hcl : v.issueClass e.2 st' = c) :
    v.priority e.2 ≤ v.priority g ∧ (v.priority e.2 = v.priority g → v.distance g c ≤ v.distance e.2 c) := by
  have hstream : st' = .x ∨ st' = .a := by cases st' <;> simp
  have hany : ([StreamId.x, .a].any fun st => v.ready e.2 st && decide (v.issueClass e.2 st = c)) = true :=
    List.any_eq_true.2 ⟨st', by obtain rfl | rfl := hstream <;> simp, by simp [hr, hcl]⟩
  simp only [State.chosen, State.rival, Bool.and_eq_true, Bool.not_eq_true', List.any_eq_false] at hc
  have hnot := hc.2 e he
  simp only [hcore, hslot, hany, decide_true, ne_eq, not_false_eq_true, Bool.or_eq_true, decide_eq_true_eq,
    Bool.and_eq_true, true_and, and_true] at hnot
  push Not at hnot
  exact ⟨hnot.1, fun hp => hnot.2 hp.symm⟩

end

/-! ### The turn of a stream -/

section
variable {b v : State} {slot : Nat} {st : StreamId} {h g : Hart}

theorem cycleFor_free {core : Nat} {c : IssueClass} (hi : (b.core core).issued.contains c = false) : b.cycleFor core c = some b := by
  rw [State.cycleFor, hi]
  rfl

theorem cycleFor_owed {core : Nat} {c : IssueClass} (hi : (b.core core).issued.contains c = true) (ho : b.owes core = true) :
    b.cycleFor core c = none := by
  rw [State.cycleFor, hi, ho]
  rfl

theorem cycleFor_next {core : Nat} {c : IssueClass} (hi : (b.core core).issued.contains c = true) (ho : b.owes core = false) :
    b.cycleFor core c = some (tickCore core b) := by
  rw [State.cycleFor, hi, ho]
  rfl

theorem fetchTurn_of_no_cycle (hg : SMap.get? b.harts slot = some h) (hc : b.cycleFor (coreOfSlot slot) (b.issueClass h st) = none) :
    fetchTurn slot st b = none := by
  simp only [fetchTurn, hg, hc, Option.bind_eq_bind, Option.bind_some, Option.bind_none]

/-- The turn of a stream whose class owes no other issue is decided in the cycle in which it can issue. -/
theorem fetchTurn_eq (hg : SMap.get? b.harts slot = some h) (hc : b.cycleFor (coreOfSlot slot) (b.issueClass h st) = some v)
    (hv : SMap.get? v.harts slot = some g) :
    fetchTurn slot st b = if v.chosen g st (b.issueClass h st) then (fetched slot st v).map fun r => (r.1, r.2.charge slot (b.issueClass h st)) else none := by
  simp only [fetchTurn, hg, hc, hv, Option.bind_eq_bind, Option.bind_some]
  split
  · cases fetched slot st v <;> rfl
  · rfl

theorem takeTurn_issue_none (hf : fetchTurn slot st b = none) : takeTurn (.issue slot st) b = .next b := by
  simp only [takeTurn, hf]

theorem takeTurn_issue_some {i : Instr} {x : State} (hf : fetchTurn slot st b = some (i, x)) : takeTurn (.issue slot st) b = exec i x := by
  simp only [takeTurn, hf]

theorem takeTurn_issueTo_some {i : Instr} {x : State} {k : Nat} (hf : fetchTurn slot st b = some (i, x)) :
    takeTurn (.issueTo slot st k) b = exec i { x with curStop := some k } := by
  simp only [takeTurn, hf]

end

/-- The state in which the word of a stream is fetched. -/
def State.fetching (v : State) (slot : Nat) (st : StreamId) : State :=
  { v with curSlot := slot, curStream := st, curWord := 0, curFetch := (0, 0), curStop := none }

section
variable {v y : State} {slot : Nat} {st : StreamId} {w : Word32}

theorem fetched_instr {i : Instr} (hw : fetchWord (v.fetching slot st) = .ok w y) (hd : decodeBytes (bytesOfWord w.toNat) = some (.instr i, [])) :
    fetched slot st v = if State.awaits { y with curWord := w } slot st i then none else some (i, { y with curWord := w }) := by
  rw [decodeBytes_bytesOfWord] at hd
  have hi : decodeWord w.toNat = .instr i := by simpa using hd
  rw [State.fetching] at hw
  simp only [fetched, hw, hi]

theorem fetched_null (hw : fetchWord (v.fetching slot st) = .ok w y) (h0 : w = 0) : fetched slot st v = some (.nullFetch, { y with curWord := w }) := by
  have hi : decodeWord w.toNat = .null := by rw [h0]; exact decodeWord_zero
  rw [State.fetching] at hw
  simp only [fetched, hw, hi]

theorem fetched_illegal {r : IllegalWord} (hw : fetchWord (v.fetching slot st) = .ok w y) (hd : decodeBytes (bytesOfWord w.toNat) = some (.illegal r, [])) :
    fetched slot st v = some (.illegalInstruction, { y with curWord := w }) := by
  rw [decodeBytes_bytesOfWord] at hd
  have hi : decodeWord w.toNat = .illegal r := by simpa using hd
  rw [State.fetching] at hw
  simp only [fetched, hw, hi]

theorem fetched_fault {k : BitVec 8} {a : Word64} {n : BitVec 5} {z : Bool} (hw : fetchWord (v.fetching slot st) = .error (.trap k a n z) y) :
    fetched slot st v = some (.fetchForIssueFault, { v.fetching slot st with curFetch := (k, n), freeCtr := y.freeCtr }) := by
  rw [State.fetching] at hw
  simp only [fetched, hw]
  rfl

end

/-- Settles O56: a turn decides its cycle, its stream and its fetch, and runs what the word decodes to. -/
theorem stepRunsTheDecodedInstruction : Obligations.StepRunsTheDecodedInstruction := by
  unfold Obligations.StepRunsTheDecodedInstruction
  refine ⟨fun u t => fixedBy_of_late_nil t, fun v g st st' c e => not_before_of_chosen, ?_⟩
  intro s rest begun
  refine ⟨?_, ?_, ?_⟩
  · intro slot st h ha b hh core c issued
    have hstep : step s = takeTurn (.issue slot st) b := by simp only [step, ha]; rfl
    rw [hstep]
    refine ⟨fun hi ho => takeTurn_issue_none (fetchTurn_of_no_cycle hh (cycleFor_owed hi ho)), fun v g hfree hbusy hg => ?_⟩
    have hc : b.cycleFor core c = some v := by
      cases hi : issued with
      | false => rw [hfree hi, cycleFor_free hi]
      | true => rw [(hbusy hi).2, cycleFor_next hi (hbusy hi).1]
    have hturn := fetchTurn_eq hh hc hg
    refine ⟨fun hch => ?_, fun hch => ?_⟩
    · rw [hch, if_neg Bool.false_ne_true] at hturn
      exact takeTurn_issue_none hturn
    · rw [hch, if_pos rfl] at hturn
      refine ⟨fun w y hw => ⟨fun i hd => ?_, fun h0 => ?_, fun r hd => ?_⟩, fun k a n z y hw => ?_⟩
      · rw [fetched_instr hw hd] at hturn
        refine ⟨fun haw => ?_, fun haw => ?_⟩
        · rw [haw] at hturn
          exact takeTurn_issue_some hturn
        · rw [haw] at hturn
          exact takeTurn_issue_none hturn
      · rw [fetched_null hw h0] at hturn
        exact takeTurn_issue_some hturn
      · rw [fetched_illegal hw hd] at hturn
        exact takeTurn_issue_some hturn
      · rw [fetched_fault hw] at hturn
        exact takeTurn_issue_some hturn
  · intro slot st k i x ha hf
    simp only [step, ha]
    exact takeTurn_issueTo_some hf
  · intro i e ha
    simp only [step, ha]
    rfl

end Sys2Proof.Machine
end

section
/-! Coupling the streams (R104 to R106), and the stream queues (R231 to R233). -/

namespace Sys2Proof.Machine

/-! ### Coupling the streams -/

section
variable {s : State} {h : Hart}

theorem onlyX_of_eq (hst : s.curStream = .x) : onlyX s = .ok () s := by rw [run_onlyX, if_pos hst]
theorem onlyA_of_eq (hst : s.curStream = .a) : onlyA s = .ok () s := by rw [run_onlyA, if_pos hst]

theorem execAstart_eq (hh : s.hart = some h) (hst : s.curStream = .x) (off : BitVec 20) :
    execAstart off s = .next (s.retired (if h.arun then h else { h.setPc .a (target h.xpc off) with arun := true })) := by
  apply issue_eq_retired
  simp only [run_bind, onlyX_of_eq hst, run_modHart, hh, run_retire, hart_putHart, putHart_putHart, putHart_curStream]
  rfl

theorem execCtok_eq (hh : s.hart = some h) (hst : s.curStream = .x) (r : SReg) (off : BitVec 20) (hq : h.q6.length < 4) :
    execCtok r off s = .next (s.retired { h with q6 := h.q6 ++ [{ target := target h.xpc off, value := h.sreg .x r }] }) := by
  apply issue_eq_retired
  simp only [run_bind, onlyX_of_eq hst, run_getHart, hh, if_neg (Nat.not_le.2 hq), run_rS, run_setHart, run_retire, hart_putHart, putHart_putHart,
    putHart_curStream, hst]

theorem execCtok_full (hh : s.hart = some h) (hst : s.curStream = .x) (r : SReg) (off : BitVec 20) (hq : 4 ≤ h.q6.length) :
    execCtok r off s = .next (if h.arun then s.waits h .queue else s.trapped 0x0E (s.curWord.setWidth 64) 0) := by
  split
  case isTrue ha =>
    refine issue_eq_waits (s' := s) hh ?_ (by decide)
    simp only [run_bind, onlyX_of_eq hst, run_getHart, hh, if_pos hq, if_pos ha, run_waitFor]
  case isFalse ha =>
    refine issue_eq_trapped (s' := s) ?_
    simp only [run_bind, onlyX_of_eq hst, run_getHart, hh, if_pos hq, if_neg ha, trapWord, run_curWord, run_trap]

theorem execCtake_empty (hh : s.hart = some h) (hst : s.curStream = .a) (r : SReg) (hq : h.q6 = []) : execCtake r s = .next (s.waits h .queue) := by
  refine issue_eq_waits (s' := s) hh ?_ (by decide)
  simp only [run_bind, onlyA_of_eq hst, run_getHart, hh, hq, run_waitFor]

theorem execCtake_eq (hh : s.hart = some h) (hst : s.curStream = .a) (r : SReg) {t : Token} {rest : List Token} (hq : h.q6 = t :: rest) :
    execCtake r s = .next (s.jumped ({ h with q6 := rest }.setS .a r t.value) t.target) := by
  have hx : execCtake r s = .next (markWait none (s.putHart (({ h with q6 := rest }.setS .a r t.value).setPc .a t.target))) := by
    apply issue_ok
    simp only [run_bind, onlyA_of_eq hst, run_getHart, hh, hq, run_setHart, run_wS, run_jumpTo, hart_putHart, putHart_putHart, putHart_curStream, hst]
  rw [hx, markWait_none (hart_putHart _ _), putHart_putHart, State.jumped, hst]

end

/-- Settles O5: each form of the coupling, by whether `q6` has room or a token. -/
theorem streamCoupling : Obligations.StreamCoupling := by
  unfold Obligations.StreamCoupling
  intro s h r off hh goal
  have htarget : target h.xpc off = goal := target_eq_ofInt _ _
  refine ⟨fun hst => ?_, fun hst hq => ?_, fun hst hq ha => ?_, fun hst hq ha => ?_, fun hst hq => execCtake_empty hh hst r hq,
    fun hst t rest hq => execCtake_eq hh hst r hq⟩
  · rw [← htarget]
    exact execAstart_eq hh hst off
  · rw [← htarget]
    exact execCtok_eq hh hst r off hq
  · have hx := execCtok_full hh hst r off hq
    rwa [if_pos ha] at hx
  · have hx := execCtok_full hh hst r off hq
    rwa [ha, if_neg Bool.false_ne_true] at hx

/-! ### The scalar queues -/

section
variable {s : State} {h : Hart} {q : QNo}

/-- The scalar queues are those of numbers 4, 5 and 7 (R231). -/
theorem scalar_queue_cases (h4 : 4 ≤ q.val) (h6 : q.val ≠ 6) : q = 4 ∨ q = 5 ∨ q = 7 := by
  have hv : q.val = 4 ∨ q.val = 5 ∨ q.val = 7 := by omega
  exact hv.imp (Fin.ext (b := 4)) (Or.imp (Fin.ext (b := 5)) (Fin.ext (b := 7)))

theorem queueLen_eq_squeue (h4 : 4 ≤ q.val) (h6 : q.val ≠ 6) : h.queueLen q = (h.squeue q).length ∧ queueDepth q = 16 := by
  obtain rfl | rfl | rfl := scalar_queue_cases h4 h6 <;> exact ⟨rfl, rfl⟩

/-- The stream that puts entries into a scalar queue, and the one that takes them (R231). -/
theorem only_putting (hst : s.curStream = (if q.val = 7 then .x else .a)) : (if q.val = 7 then onlyX else onlyA) s = .ok () s := by
  split at hst
  case isTrue h7 => rw [if_pos h7, onlyX_of_eq hst]
  case isFalse h7 => rw [if_neg h7, onlyA_of_eq hst]

theorem takingStream_ok (hst : s.curStream = (if q.val = 7 then .a else .x)) : takingStream q s = .ok () s := by
  split at hst
  case isTrue h7 => rw [takingStream, if_pos h7, onlyA_of_eq hst]
  case isFalse h7 => rw [takingStream, if_neg h7, onlyX_of_eq hst]

variable {r : Fin 64}

theorem execQlen_eq (hh : s.hart = some h) (rd : SReg) :
    execQlen rd q s = .next (s.retired (h.setS s.curStream rd (BitVec.ofNat 64 (h.queueLen q)))) := by
  apply issue_eq_retired
  simp only [run_bind, run_getHart, hh, run_wS, run_retire, hart_putHart, putHart_putHart, putHart_curStream]

theorem run_needPlace (hh : s.hart = some h) : needPlace q s = if h.queueLen q < queueDepth q then .ok () s else .error (.wait .queue false) s := by
  simp only [needPlace, run_bind, run_getHart, hh, run_ite, run_pure, run_waitFor]

theorem execQpush_eq (hh : s.hart = some h) (h4 : 4 ≤ q.val) (h6 : q.val ≠ 6) (hst : s.curStream = (if q.val = 7 then .x else .a)) :
    execQpush q r s = if (h.squeue q).length < 16
      then .next (s.retired (h.setSqueue q (h.squeue q ++ [.ready (h.sreg s.curStream (scalarOf r))]))) else .next (s.waits h .queue) := by
  obtain ⟨hlen, hdepth⟩ := queueLen_eq_squeue (h := h) h4 h6
  have hput : execQpush q r s = issue (do
      needPlace q
      let v ← rS (scalarOf r)
      modHart fun h => h.setSqueue q (h.squeue q ++ [.ready v])
      retire) s := by
    unfold execQpush
    split at hst
    case isTrue h7 => simp only [issue, if_pos h7, run_bind, onlyX_of_eq hst, if_neg (Nat.not_lt.2 h4)]
    case isFalse h7 => simp only [issue, if_neg h7, run_bind, onlyA_of_eq hst, if_neg (Nat.not_lt.2 h4)]
  rw [hput]
  split
  case isTrue hroom =>
    apply issue_eq_retired
    simp only [run_bind, run_needPlace hh, hlen, hdepth, if_pos hroom, run_rS, hh, run_modHart, run_retire, hart_putHart, putHart_putHart,
      putHart_curStream]
  case isFalse hfull =>
    refine issue_eq_waits (s' := s) hh ?_ (by decide)
    simp only [run_bind, run_needPlace hh, hlen, hdepth, if_neg hfull]

theorem scalarHead_ready (hh : s.hart = some h) {v : Word64} {rest : List SPlace} (hq : h.squeue q = .ready v :: rest) (rd : SReg) (free : Bool) :
    scalarHead q rd free s = .ok () (s.putHart (((if free then h.setSqueue q rest else h).setS s.curStream rd v).advance s.curStream)) := by
  cases free <;>
    simp only [scalarHead, run_bind, run_getHart, hh, hq, Bool.false_eq_true, if_false, if_true, run_setHart, run_wS, run_retire, hart_putHart,
      putHart_putHart, putHart_curStream]

theorem scalarHead_waits (hh : s.hart = some h) (hq : ∀ v rest, h.squeue q ≠ .ready v :: rest) (rd : SReg) (free : Bool) :
    scalarHead q rd free s = .error (.wait .queue false) s := by
  simp only [scalarHead, run_bind, run_getHart, hh, run_waitFor]

/-- A pop and a peek of a scalar queue take, or look at, its head. -/
theorem exec_scalarHead (h4 : 4 ≤ q.val) (hst : s.curStream = (if q.val = 7 then .a else .x)) :
    execQpop r q s = issue (scalarHead q (scalarOf r) true) s ∧ execQpeek r q s = issue (scalarHead q (scalarOf r) false) s := by
  constructor
  · simp only [execQpop, issue, run_bind, takingStream_ok hst, if_neg (Nat.not_lt.2 h4)]
  · simp only [execQpeek, issue, run_bind, takingStream_ok hst, if_neg (Nat.not_lt.2 h4)]

end

/-! ### The vector queues -/

/-- The elements of an entry laid into a register from a number on. -/
theorem elemOf_foldl_setElem {α : Type} (ew n b i : Nat) (v : α → Nat) (l : List α) :
    elemOf ew ((l.zipIdx n).foldl (fun b x => setElem ew b x.2 (v x.1)) b) i =
      if n ≤ i ∧ i < n + l.length then (l.map v).getD (i - n) 0 % 2 ^ ew else elemOf ew b i := by
  induction l generalizing n b with
  | nil => simp
  | cons a l ih =>
    rw [List.zipIdx_cons, List.foldl_cons, ih]
    rcases Nat.lt_trichotomy i n with hlt | rfl | hgt
    · rw [if_neg (by omega), if_neg (by omega), elemOf_setElem_ne (by omega)]
    · rw [if_neg (by omega), if_pos (by simp), elemOf_setElem_self]
      simp
    · have hsub : i - n = i - (n + 1) + 1 := by omega
      rw [hsub, List.map_cons, List.getD_cons_succ, List.length_cons, elemOf_setElem_ne (by omega)]
      exact if_congr (by omega) rfl rfl

theorem elemOf_entryBits (ew old i : Nat) (e : VEntry) :
    elemOf ew (entryBits ew old e) i = if i < e.elems.length then (e.elems.getD i 0).toNat % 2 ^ ew else elemOf ew old i := by
  have hget : (e.elems.map BitVec.toNat).getD i 0 = (e.elems.getD i 0).toNat := List.getD_map e.elems (0 : Word64) BitVec.toNat
  rw [entryBits, elemOf_foldl_setElem ew 0 old i BitVec.toNat, Nat.sub_zero, hget]
  simp

section
variable {s s1 : State} {h : Hart} {q : QNo} {vd : Fin 64} {e : VEntry} {rest : List VPlace}

/-- A hart that has taken, or looked at, the entry at the head of a vector queue (R233). -/
def Hart.takesEntry (h : Hart) (q : QNo) (vd : Nat) (e : VEntry) (rest : List VPlace) (free : Bool) : Hart :=
  { h.setV vd (entryBits (Fmt.ew h.fmt) (h.vbitsOf vd) e) h.fmt with
    vl := BitVec.ofNat 17 e.elems.length, vq := if free then vput h.vq q.val rest else h.vq }

theorem vectorHead_ready (ho : s.opensPlain anyFmt { vw := [vd.val] } s1 h) (hq : h.vq.getD q.val [] = .ready e :: rest)
    (hlen : e.elems.length ≤ h.vlmax) (hsize : 8 * e.esize = Fmt.ew h.fmt) (free : Bool) :
    vectorHead q vd.val free s = .ok () (s1.putHart ((h.takesEntry q vd.val e rest free).advance s1.curStream)) := by
  obtain ⟨-, hn, -, hsw⟩ := checks_of_opensFor ho
  simp only [vectorHead, run_bind, hn, hsw, run_getHart, hart_of_opensFor ho, hq, if_neg (Nat.not_lt.2 hlen), hsize, ne_eq, not_true_eq_false, if_false,
    run_setHart, run_retire, hart_putHart, putHart_putHart, putHart_curStream]
  rfl

end

/-- Settles O6: a push, a pop and a peek by the state of the queue's ends, and the elements of an entry by their numbers. -/
theorem queueForms : Obligations.QueueForms := by
  unfold Obligations.QueueForms
  refine ⟨?_, ?_⟩
  · intro s h q r rd hh st
    refine ⟨execQlen_eq hh rd, fun h4 h6 _ => ⟨fun hst => execQpush_eq hh h4 h6 hst, fun hst => ?_⟩⟩
    obtain ⟨hpop, hpeek⟩ := exec_scalarHead (r := r) h4 hst
    rw [exec_qpop, exec_qpeek, hpop, hpeek]
    refine ⟨fun v rest hq => ⟨?_, ?_⟩, fun hq => ⟨?_, ?_⟩⟩
    · exact issue_eq_retired (scalarHead_ready hh hq _ true)
    · exact issue_eq_retired (scalarHead_ready hh hq _ false)
    · exact issue_eq_waits hh (scalarHead_waits hh hq _ true) (by decide)
    · exact issue_eq_waits hh (scalarHead_waits hh hq _ false) (by decide)
  · intro s s1 h q vd e rest h4 ho hq hlen hsize
    have htake : takingStream q s = .ok () s := takingStream_ok (by rw [if_neg (by omega)]; exact ho.1)
    refine ⟨entryBits (Fmt.ew h.fmt) (h.vbitsOf vd) e, fun i hi => ?_, fun i hi => ?_, ?_, ?_⟩
    · rw [elemOf_entryBits, if_pos hi]
    · rw [elemOf_entryBits, if_neg (Nat.not_lt.2 hi)]
    · refine issue_eq_retired (g := h.takesEntry q vd.val e rest true) ?_
      simp only [run_bind, htake, if_pos h4, vectorHead_ready ho hq hlen hsize]
    · refine issue_eq_retired (g := h.takesEntry q vd.val e rest false) ?_
      simp only [run_bind, htake, if_pos h4, vectorHead_ready ho hq hlen hsize]

end Sys2Proof.Machine
end

section
/-! The numeric vector forms (R120 to R122): integer elements are narrowed, floating elements are rounded once. -/

namespace Sys2Proof.Machine

/-! ### Elements of integer formats -/

section
variable {s s1 : State} {h : Hart} {vd va vb : VRegNo} {i : Instr} {val : Nat → Nat} {d : Bool}

theorem intVal_bitsAt (h : Hart) (v : VRegNo) (j : Nat) : intVal h.fmt (h.bitsAt v j) = h.intAt v j := intVal_asInt h _ j

theorem draws_of_isInt (hf : Fmt.isInt h.fmt = true) : (d && h.isSr && Fmt.isFloat h.fmt) = false := by
  rw [isFloat_of_isInt hf, Bool.and_false]

/-- A form of two vector operands on an integer format: no generator steps and no NaN arises. -/
theorem writesVector_of_vecBin_isInt {F : Hart → Nat → Nat → Nat → Nat → Nat × Bool} (hf : Fmt.isInt h.fmt = true)
    (ho : s.opens numFmt { vs := [va.val, vb.val], vw := [vd.val] } s1 h) (hi : exec i s = issue (vecBin numFmt d vd va vb F) s)
    (hv : ∀ rnd j, F h (h.bitsAt va j) (h.bitsAt vb j) rnd j = (val j, false)) : WritesVector (exec i s) s1 h vd h.writes val := by
  rw [hi]
  apply elementwise_plain (hart_of_opens ho) vd.val d (draws_of_isInt hf)
  simp only [vecBin, run_bind, vectorIssue_ok ho]
  exact congrFun (congrArg (elementwise h vd.val d) (funext₂ hv)) s1

/-- A numeric form with an immediate on an integer format: the immediate is narrowed first (R122). -/
theorem writesVector_of_vecImm_isInt {F : Hart → Nat → Nat → Nat → Nat → Nat × Bool} {imm : BitVec 8} (hf : Fmt.isInt h.fmt = true)
    (ho : s.opens numFmt { vs := [va.val], vw := [vd.val] } s1 h) (hi : exec i s = issue (vecImm d vd va imm F) s)
    (hv : ∀ rnd j, F h (h.bitsAt va j) (h.narrowed imm.toInt) rnd j = (val j, false)) : WritesVector (exec i s) s1 h vd h.writes val := by
  have hh := hart_of_opens ho
  rw [hi]
  by_cases h0 : h.vl = 0
  · unfold WritesVector
    rw [if_pos h0]
    apply issue_retired (s2 := s1) _ (fun _ => rfl) rfl
    simp [vecImm, vectorIssue_ok ho, formImm_of_vl_zero hh h0, hh, elementwise, h0]
  · apply elementwise_plain hh vd.val d (draws_of_isInt hf)
    simp only [vecImm, run_bind, vectorIssue_ok ho, formImm_of_isInt hh h0 hf, run_getHart, hh]
    exact congrFun (congrArg (elementwise h vd.val d) (funext₂ hv)) s1

end

section
variable {h : Hart} (hf : Fmt.isInt h.fmt = true)
include hf

theorem numOp_of_isInt (op : Int → Int → Int) (fl : Fp → Fp → Exact) (a b rnd i : Nat) :
    numOp h op fl a b rnd i = (h.narrowed (op (intVal h.fmt a) (intVal h.fmt b)), false) := by
  simp only [numOp, hf, if_true, narrow_eq]

theorem fmaOp_of_isInt (negate : Bool) (a b c rnd i : Nat) :
    fmaOp h negate a b c rnd i = (h.narrowed (if negate then intVal h.fmt c - intVal h.fmt a * intVal h.fmt b
      else intVal h.fmt a * intVal h.fmt b + intVal h.fmt c), false) := by
  simp only [fmaOp, hf, if_true, narrow_eq]

theorem divOp_of_isInt (a b rnd i : Nat) :
    divOp h a b rnd i = (if intVal h.fmt b = 0 then 2 ^ Fmt.ew h.fmt - 1 else h.narrowed ((intVal h.fmt a).tdiv (intVal h.fmt b)), false) := by
  simp only [divOp, hf, true_and, numOp_of_isInt hf]
  split <;> rfl

theorem absOp_of_isInt (a : Nat) : absOp h a = h.narrowed |intVal h.fmt a| := by
  simp only [absOp, hf, if_true, narrow_eq, Int.natCast_natAbs]

theorem negOp_of_isInt (a : Nat) : negOp h a = h.narrowed (-intVal h.fmt a) := by
  simp only [negOp, hf, if_true, narrow_eq]

end

/-- A pattern that is the bits of an integer of the format is what that integer narrows to. -/
theorem narrowed_asInt {h : Hart} {x : Nat} (hx : x < 2 ^ Fmt.ew h.fmt) : h.narrowed (h.asInt x) = x := by
  have hpos := ew_pos h.fmt
  have hhalf : (2 : Nat) ^ Fmt.ew h.fmt = 2 * 2 ^ (Fmt.ew h.fmt - 1) := by rw [← Nat.pow_succ']; congr 1; omega
  have hlo : (h.asInt x) % 2 ^ Fmt.ew h.fmt = x := by
    unfold Hart.asInt
    split
    · rw [Int.sub_emod_right]; exact_mod_cast Nat.mod_eq_of_lt hx
    · exact_mod_cast Nat.mod_eq_of_lt hx
  have hclamp : ∀ lo hi : Int, lo ≤ h.asInt x → h.asInt x ≤ hi → max lo (min hi (h.asInt x)) = h.asInt x := by omega
  have hin : (if Fmt.isSigned h.fmt then -(2 ^ (Fmt.ew h.fmt - 1) : Int) else 0) ≤ h.asInt x ∧
      h.asInt x ≤ (if Fmt.isSigned h.fmt then 2 ^ (Fmt.ew h.fmt - 1) - 1 else 2 ^ Fmt.ew h.fmt - 1 : Int) := by
    unfold Hart.asInt
    zify at hx hhalf
    by_cases hs : Fmt.isSigned h.fmt = true
    · by_cases hc : 2 ^ (Fmt.ew h.fmt - 1) ≤ x
      · simp only [hs, hc, if_true, and_self]; zify at hc; omega
      · simp only [hs, hc, if_true, if_false, and_false]; zify at hc; omega
    · simp only [hs, Bool.false_eq_true, false_and, if_false]; omega
  unfold Hart.narrowed
  simp only [hclamp _ _ hin.1 hin.2, ite_self, hlo, Int.toNat_natCast]

/-- The chosen element of `vmax` or `vmin` on an integer format is the greater or the lesser of the two integers (R120). -/
theorem pickOp_of_isInt {h : Hart} {x y : Nat} (hf : Fmt.isInt h.fmt = true) (hx : x < 2 ^ Fmt.ew h.fmt) (hy : y < 2 ^ Fmt.ew h.fmt) (greater : Bool) :
    pickOp h greater x y = h.narrowed (if greater then max (h.asInt x) (h.asInt y) else min (h.asInt x) (h.asInt y)) := by
  have ex := narrowed_asInt hx
  have ey := narrowed_asInt hy
  simp only [pickOp, hf, Bool.not_true, Bool.false_and, Bool.false_eq_true, if_false, if_true, belowOp, intVal_of_lt hx, intVal_of_lt hy]
  cases greater
  · simp only [Bool.false_eq_true, if_false, decide_eq_true_eq, min_comm (h.asInt x), min_def_lt]
    split <;> simp only [ex, ey]
  · simp only [if_true, decide_eq_true_eq, max_def_lt]
    split <;> simp only [ex, ey]

/-- Settles O7: on an integer format each function is its integer operation narrowed, and no form draws or generates a NaN. -/
theorem integerVectorArithmetic : Obligations.IntegerVectorArithmetic := by
  unfold Obligations.IntegerVectorArithmetic
  intro s s1 h vd va vb imm hf a b c x w
  have hnum (op : Int → Int → Int) (fl : Fp → Fp → Exact) (rnd j : Nat) :
      numOp h op fl (h.bitsAt va j) (h.bitsAt vb j) rnd j = (h.narrowed (op (a j) (b j)), false) := by
    rw [numOp_of_isInt hf, intVal_bitsAt, intVal_bitsAt]
  have hfma (negate : Bool) (rnd j : Nat) : fmaOp h negate (h.bitsAt va j) (h.bitsAt vb j) (h.bitsAt vd j) rnd j =
      (h.narrowed (if negate then c j - a j * b j else a j * b j + c j), false) := by
    rw [fmaOp_of_isInt hf, intVal_bitsAt, intVal_bitsAt, intVal_bitsAt]
  have hdiv (rnd j : Nat) : divOp h (h.bitsAt va j) (h.bitsAt vb j) rnd j =
      (if b j = 0 then 2 ^ Fmt.ew h.fmt - 1 else h.narrowed ((a j).tdiv (b j)), false) := by
    rw [divOp_of_isInt hf, intVal_bitsAt, intVal_bitsAt]
  have hnumImm (op : Int → Int → Int) (fl : Fp → Fp → Exact) (rnd j : Nat) :
      numOp h op fl (h.bitsAt va j) (h.narrowed imm.toInt) rnd j = (h.narrowed (op (a j) x), false) := by
    rw [numOp_of_isInt hf, intVal_bitsAt, intVal_of_lt (narrowed_lt h _)]
  have hpick (greater : Bool) (j : Nat) {y : Nat} (hy : y < 2 ^ Fmt.ew h.fmt) := pickOp_of_isInt hf (elemOf_lt _ (h.vbitsOf va.val) j) hy greater
  refine ⟨fun ho => ⟨?_, ?_, ?_, ?_, ?_, ?_⟩, fun ho => ⟨?_, ?_⟩, fun ho => ⟨?_, ?_, ?_, ?_, ?_, ?_, ?_⟩⟩
  · exact writesVector_of_vecBin_isInt hf ho exec_vadd (hnum _ _)
  · exact writesVector_of_vecBin_isInt hf ho exec_vsub (hnum _ _)
  · exact writesVector_of_vecBin_isInt hf ho exec_vmul (hnum _ _)
  · exact writesVector_of_vecBin_isInt hf ho exec_vdiv hdiv
  · exact writesVector_of_vecBin ho exec_vmax fun j => hpick true j (elemOf_lt _ _ _)
  · exact writesVector_of_vecBin ho exec_vmin fun j => hpick false j (elemOf_lt _ _ _)
  · refine elementwise_plain (hart_of_opens ho) vd.val true (draws_of_isInt hf) _ (?_ : _ = _)
    simp only [run_bind, vectorIssue_ok ho]
    exact congrFun (congrArg (elementwise h vd.val true) (funext₂ (hfma false))) s1
  · refine elementwise_plain (hart_of_opens ho) vd.val true (draws_of_isInt hf) _ (?_ : _ = _)
    simp only [run_bind, vectorIssue_ok ho]
    exact congrFun (congrArg (elementwise h vd.val true) (funext₂ (hfma true))) s1
  · exact writesVector_of_vecUn ho exec_vabs fun j => (absOp_of_isInt hf _).trans (by rw [intVal_bitsAt])
  · exact writesVector_of_vecUn ho exec_vneg fun j => (negOp_of_isInt hf _).trans (by rw [intVal_bitsAt])
  · exact writesVector_of_vecImm_isInt hf ho exec_vaddImm (hnumImm _ _)
  · exact writesVector_of_vecImm_isInt hf ho exec_vsubImm (hnumImm _ _)
  · exact writesVector_of_vecImm_isInt hf ho exec_vmulImm (hnumImm _ _)
  · exact writesVector_of_vecImm_isInt hf ho exec_vmaxImm fun _ j => congrArg (·, false) (hpick true j (narrowed_lt h _))
  · exact writesVector_of_vecImm_isInt hf ho exec_vminImm fun _ j => congrArg (·, false) (hpick false j (narrowed_lt h _))

/-! ### Elements of floating formats -/

section
variable {s s1 : State} {h : Hart} {vd va vb : VRegNo} {i : Instr} {val : Nat → Nat → Nat × Bool}

/-- A form of two vector operands that rounds each active element. -/
theorem writesRounded_of_vecBin {F : Hart → Nat → Nat → Nat → Nat → Nat × Bool} (hf : Fmt.isFloat h.fmt = true)
    (ho : s.opens numFmt { vs := [va.val, vb.val], vw := [vd.val] } s1 h) (hi : exec i s = issue (vecBin numFmt true vd va vb F) s)
    (hv : ∀ rnd j, F h (h.bitsAt va j) (h.bitsAt vb j) rnd j = val rnd j) : WritesRounded (exec i s) s1 h vd val := by
  rw [hi]
  apply elementwise_rounds (hart_of_opens ho) vd.val hf
  simp only [vecBin, run_bind, vectorIssue_ok ho]
  exact congrFun (congrArg (elementwise h vd.val true) (funext₂ hv)) s1

/-- A form of one vector operand that rounds each active element. -/
theorem writesRounded_of_vecUn {F : Hart → Nat → Nat → Nat → Nat × Bool} {admits : Fmt → Bool} (hf : Fmt.isFloat h.fmt = true)
    (ho : s.opens admits { vs := [va.val], vw := [vd.val] } s1 h) (hi : exec i s = issue (vecUn admits true vd va F) s)
    (hv : ∀ rnd j, F h (h.bitsAt va j) rnd j = val rnd j) : WritesRounded (exec i s) s1 h vd val := by
  rw [hi]
  apply elementwise_rounds (hart_of_opens ho) vd.val hf
  simp only [vecUn, run_bind, vectorIssue_ok ho]
  exact congrFun (congrArg (elementwise h vd.val true) (funext₂ hv)) s1

end

section
variable {h : Hart} (hf : Fmt.isFloat h.fmt = true)
include hf

theorem numOp_of_isFloat (op : Int → Int → Int) (fl : Fp → Fp → Exact) (a b rnd i : Nat) :
    numOp h op fl a b rnd i = (h.fpCtx h.fmt).round rnd i (fl (h.input h.fmt a) (h.input h.fmt b)) := by
  simp only [numOp, not_isInt_of_isFloat hf, Bool.false_eq_true, if_false]

theorem divOp_of_isFloat (a b rnd i : Nat) :
    divOp h a b rnd i = (h.fpCtx h.fmt).round rnd i (fpDiv (h.input h.fmt a) (h.input h.fmt b)) := by
  simp only [divOp, not_isInt_of_isFloat hf, Bool.false_eq_true, false_and, if_false, numOp_of_isFloat hf]

theorem fmaOp_of_isFloat (negate : Bool) (a b c rnd i : Nat) : fmaOp h negate a b c rnd i =
    (h.fpCtx h.fmt).round rnd i (fpFma (mdRm h.md) negate (h.input h.fmt a) (h.input h.fmt b) (h.input h.fmt c)) := by
  simp only [fmaOp, not_isInt_of_isFloat hf, Bool.false_eq_true, if_false]

theorem pickOp_of_isFloat (greater : Bool) (x y : Nat) :
    pickOp h greater x y = if isNan h.fmt x = true then quieted h.fmt x else if isNan h.fmt y = true then quieted h.fmt y
      else flush h.fmt (vtFtz h.vt) (if (if !greater then fpBelow (h.input h.fmt y) (h.input h.fmt x)
        else fpBelow (h.input h.fmt x) (h.input h.fmt y)) = true then y else x) := by
  cases greater <;> simp [pickOp, belowOp, not_isInt_of_isFloat hf]

theorem absOp_of_isFloat (a : Nat) : absOp h a = a % Fmt.signBit h.fmt := by
  simp only [absOp, not_isInt_of_isFloat hf, Bool.false_eq_true, if_false]

theorem negOp_of_isFloat (a : Nat) : negOp h a = a ^^^ Fmt.signBit h.fmt := by
  simp only [negOp, not_isInt_of_isFloat hf, Bool.false_eq_true, if_false]

end

/-- Settles O8: on a floating format each function rounds its exact result once, and `vmax`, `vmin`, `vabs` and `vneg` round nothing. -/
theorem floatingVectorArithmetic : Obligations.FloatingVectorArithmetic := by
  unfold Obligations.FloatingVectorArithmetic
  intro s s1 h vd va vb hf f a b c r w pick
  have hnum (op : Int → Int → Int) (fl : Fp → Fp → Exact) (rnd j : Nat) := numOp_of_isFloat hf op fl (h.bitsAt va j) (h.bitsAt vb j) rnd j
  refine ⟨fun ho => ⟨?_, ?_, ?_, ?_, ?_, ?_⟩, fun ho => ⟨?_, ?_⟩, fun ho => ⟨?_, ?_, ?_, ?_⟩, fun ho => ⟨?_, ?_⟩⟩
  · exact writesRounded_of_vecBin hf ho exec_vadd (hnum _ _)
  · exact writesRounded_of_vecBin hf ho exec_vsub (hnum _ _)
  · exact writesRounded_of_vecBin hf ho exec_vmul (hnum _ _)
  · exact writesRounded_of_vecBin hf ho exec_vdiv fun rnd j => divOp_of_isFloat hf _ _ rnd j
  · exact writesVector_of_vecBin ho exec_vmax fun j => pickOp_of_isFloat hf true _ _
  · exact writesVector_of_vecBin ho exec_vmin fun j => pickOp_of_isFloat hf false _ _
  · refine elementwise_rounds (hart_of_opens ho) vd.val hf _ (?_ : _ = _)
    simp only [run_bind, vectorIssue_ok ho]
    exact congrFun (congrArg (elementwise h vd.val true) (funext₂ fun rnd j => fmaOp_of_isFloat hf false _ _ _ rnd j)) s1
  · refine elementwise_rounds (hart_of_opens ho) vd.val hf _ (?_ : _ = _)
    simp only [run_bind, vectorIssue_ok ho]
    exact congrFun (congrArg (elementwise h vd.val true) (funext₂ fun rnd j => fmaOp_of_isFloat hf true _ _ _ rnd j)) s1
  · exact writesRounded_of_vecUn hf ho exec_vsqrt fun _ _ => rfl
  · exact writesRounded_of_vecUn hf ho exec_vrsqrt fun _ _ => rfl
  · exact writesRounded_of_vecUn hf ho exec_vexp2 fun _ _ => rfl
  · exact writesRounded_of_vecUn hf ho exec_vlog2 fun _ _ => rfl
  · exact writesVector_of_vecUn ho exec_vabs fun j => absOp_of_isFloat hf _
  · exact writesVector_of_vecUn ho exec_vneg fun j => negOp_of_isFloat hf _

/-! ### A floating immediate -/

section
variable {s s1 : State} {h : Hart} {vd va : VRegNo} {i : Instr} {imm : BitVec 8} {x : Nat}

@[simp] theorem afterImm_md (h : Hart) : h.afterImm.md = h.md := by unfold Hart.afterImm; split <;> rfl
@[simp] theorem afterImm_vl (h : Hart) : h.afterImm.vl = h.vl := by unfold Hart.afterImm; split <;> rfl
@[simp] theorem afterImm_vt (h : Hart) : h.afterImm.vt = h.vt := by unfold Hart.afterImm; split <;> rfl
@[simp] theorem afterImm_input (h : Hart) (f : Fmt) : h.afterImm.input f = h.input f := by unfold Hart.afterImm; split <;> rfl
@[simp] theorem afterImm_fpCtx (h : Hart) (f : Fmt) : h.afterImm.fpCtx f = h.fpCtx f := by unfold Hart.afterImm; split <;> rfl
@[simp] theorem afterImm_writes (h : Hart) (j : Nat) : h.afterImm.writes j ↔ h.writes j := by unfold Hart.afterImm; split <;> rfl

theorem writesVector_putHart {out : Host.Outcome State Fault Refusal} {g : Hart} {v : Nat} {p : Nat → Prop} {val : Nat → Nat} :
    WritesVector out (s1.putHart g) h v p val ↔ WritesVector out s1 h v p val := by
  unfold WritesVector
  simp only [retired_putHart]

theorem writesRounded_putHart {out : Host.Outcome State Fault Refusal} {g : Hart} {v : Nat} {val : Nat → Nat → Nat × Bool} :
    WritesRounded out (s1.putHart g) h v val ↔ WritesRounded out s1 h v val := by
  unfold WritesRounded
  simp only [retired_putHart]
  rfl

/-- A numeric form with an immediate runs its elements with what `formImm` gives, in the hart that it leaves. -/
theorem vecImm_eq_elementwise {F : Hart → Nat → Nat → Nat → Nat → Nat × Bool} {s2 : State} {g : Hart} {d : Bool}
    (ho : s.opens numFmt { vs := [va.val], vw := [vd.val] } s1 h) (hx : formImm imm s1 = .ok x s2) (hg : s2.hart = some g) :
    vecImm d vd va imm F s = elementwise g vd.val d (fun rnd j => F g (g.bitsAt va j) x rnd j) s2 := by
  simp only [vecImm, run_bind, vectorIssue_ok ho, hx, run_getHart, hg]
  rfl

/-- At `vl` = 0 a form with an immediate retires and forms nothing (R115, R122). -/
theorem exec_vecImm_of_vl_zero {F : Hart → Nat → Nat → Nat → Nat → Nat × Bool} {d : Bool}
    (ho : s.opens numFmt { vs := [va.val], vw := [vd.val] } s1 h) (h0 : h.vl = 0) (hi : exec i s = issue (vecImm d vd va imm F) s) :
    exec i s = .next (s1.retired h) := by
  have hh := hart_of_opens ho
  rw [hi]
  refine issue_eq_retired ?_
  rw [vecImm_eq_elementwise ho (formImm_of_vl_zero hh h0 imm) hh]
  simp [elementwise, h0, hh]

/-- A numeric form with an immediate on a floating format: the immediate is rounded first, and the elements then (R122). -/
theorem writesRounded_of_vecImm {F : Hart → Nat → Nat → Nat → Nat → Nat × Bool} {e : Nat → Exact} (hf : Fmt.isFloat h.fmt = true)
    (ho : s.opens numFmt { vs := [va.val], vw := [vd.val] } s1 h) (hi : exec i s = issue (vecImm true vd va imm F) s)
    (hv : ∀ rnd j, F h.afterImm (h.bitsAt va j) (h.immBits imm) rnd j = (h.fpCtx h.fmt).round rnd j (e j)) :
    WritesRounded (exec i s) s1 (if h.vl = 0 then h else h.afterImm) vd (fun rnd j => (h.fpCtx h.fmt).round rnd j (e j)) := by
  by_cases h0 : h.vl = 0
  · rw [if_pos h0]
    unfold WritesRounded
    rw [if_pos h0]
    exact exec_vecImm_of_vl_zero ho h0 hi
  · rw [if_neg h0, hi, ← writesRounded_putHart (g := h.afterImm)]
    refine elementwise_rounds (hart_putHart _ _) vd.val (by rwa [afterImm_fmt]) _ ?_
    rw [vecImm_eq_elementwise ho (formImm_of_not_isInt (hart_of_opens ho) h0 (not_isInt_of_isFloat hf) imm) (hart_putHart _ _), afterImm_bitsAt]
    exact congrFun (congrArg (elementwise h.afterImm vd.val true) (funext₂ hv)) _

/-- `vmax` and `vmin` with an immediate on a floating format. -/
theorem writesVector_of_vecImm {F : Hart → Nat → Nat → Nat} {val : Nat → Nat} (hf : Fmt.isFloat h.fmt = true)
    (ho : s.opens numFmt { vs := [va.val], vw := [vd.val] } s1 h)
    (hi : exec i s = issue (vecImm false vd va imm fun h a b _ _ => (F h a b, false)) s)
    (hv : ∀ j, F h.afterImm (h.bitsAt va j) (h.immBits imm) = val j) :
    WritesVector (exec i s) s1 (if h.vl = 0 then h else h.afterImm) vd h.writes val := by
  by_cases h0 : h.vl = 0
  · rw [if_pos h0]
    unfold WritesVector
    rw [if_pos h0]
    exact exec_vecImm_of_vl_zero ho h0 hi
  · rw [if_neg h0, hi, ← writesVector_putHart (g := h.afterImm), ← funext hv]
    refine (elementwise_plain (hart_putHart _ _) vd.val false rfl (fun j => F h.afterImm (h.bitsAt va j) (h.immBits imm)) ?_).congr
      (afterImm_writes h) fun _ _ => rfl
    rw [vecImm_eq_elementwise ho (formImm_of_not_isInt (hart_of_opens ho) h0 (not_isInt_of_isFloat hf) imm) (hart_putHart _ _), afterImm_bitsAt]

theorem pickOp_afterImm (hf : Fmt.isFloat h.fmt = true) (greater : Bool) (x y : Nat) : pickOp h.afterImm greater x y = pickOp h greater x y := by
  rw [pickOp_of_isFloat (by rwa [afterImm_fmt]), pickOp_of_isFloat hf]
  simp only [afterImm_fmt, afterImm_vt, afterImm_input]

end

/-- Settles O9: at `vl` = 0 nothing is formed; else the elements are computed in the hart that the one rounding of the immediate leaves. -/
theorem floatingImmediateForms : Obligations.FloatingImmediateForms := by
  unfold Obligations.FloatingImmediateForms
  intro s s1 h vd va imm hf ho f g a y r
  have hnum (op : Int → Int → Int) (fl : Fp → Fp → Exact) (rnd j : Nat) : numOp h.afterImm op fl (h.bitsAt va j) (h.immBits imm) rnd j =
      (h.fpCtx f).round rnd j (fl (a j) y) := by
    rw [numOp_of_isFloat (by rwa [afterImm_fmt])]
    simp only [afterImm_fmt, afterImm_input, afterImm_fpCtx]
    rfl
  refine ⟨?_, ?_, ?_, ?_, ?_⟩
  · exact writesRounded_of_vecImm hf ho exec_vaddImm fun rnd j => (hnum _ _ rnd j).trans (by rw [afterImm_md])
  · exact writesRounded_of_vecImm hf ho exec_vsubImm fun rnd j => (hnum _ _ rnd j).trans (by rw [afterImm_md])
  · exact writesRounded_of_vecImm hf ho exec_vmulImm (hnum _ _)
  · exact writesVector_of_vecImm hf ho exec_vmaxImm fun j => pickOp_afterImm hf true _ _
  · exact writesVector_of_vecImm hf ho exec_vminImm fun j => pickOp_afterImm hf false _ _

end Sys2Proof.Machine
end

section
/-! The reductions (R90, R91, R131): the tree of sums and the extreme elements. -/

namespace Sys2Proof.Machine

/-! ### The extreme elements -/

section
variable {h : Hart} {va : VRegNo} {greater : Bool}

/-- One step of the choice of an extreme element: x replaces the element held where it is better (R91). -/
def betterOf (better : Nat → Nat → Bool) : Option (Nat × Nat) → Nat × Nat → Option (Nat × Nat)
  | none, x => some x
  | some y, x => if better y.2 x.2 then some x else some y

/-- Element x goes before element y as the extreme one (R91). -/
def Hart.outdone (h : Hart) (greater : Bool) (y x : Nat) : Bool := if greater then belowOp h y x else belowOp h x y

/-- The active elements with their numbers. -/
def Hart.numbered (h : Hart) (va : VRegNo) : List (Nat × Nat) := h.active.map fun i => (i, h.bitsAt va i)

theorem extreme_of_nan {x : Nat × Nat} (hx : (h.numbered va).find? (fun x => !Fmt.isInt h.fmt && isNan h.fmt x.2) = some x) :
    extreme h greater va.val = some x := by
  unfold Hart.numbered Hart.bitsAt at hx
  simp only [extreme, hx]

theorem extreme_of_no_nan (hx : (h.numbered va).find? (fun x => !Fmt.isInt h.fmt && isNan h.fmt x.2) = none) :
    extreme h greater va.val = (h.numbered va).foldl (betterOf (h.outdone greater)) none := by
  have hstep : ∀ (acc : Option (Nat × Nat)) (x : Nat × Nat), (match acc with
      | none => some x
      | some y => if (if greater then belowOp h y.2 x.2 else belowOp h x.2 y.2) then some x else some y) = betterOf (h.outdone greater) acc x := by
    intro acc x
    cases acc <;> rfl
  unfold Hart.numbered Hart.bitsAt at hx ⊢
  simp only [extreme, hx]
  exact congrArg (fun f => List.foldl f none _) (funext₂ hstep)

theorem foldl_betterOf_mem {better : Nat → Nat → Bool} {xs : List (Nat × Nat)} {y z : Nat × Nat} (hz : xs.foldl (betterOf better) (some y) = some z) :
    z = y ∨ z ∈ xs := by
  induction xs generalizing y with
  | nil => exact .inl (Option.some.inj hz).symm
  | cons x xs ih =>
    rw [List.foldl_cons, betterOf] at hz
    split at hz
    all_goals
      rcases ih hz with rfl | hmem
      · simp
      · simp [hmem]

theorem foldl_betterOf_kept {better : Nat → Nat → Bool} {xs : List (Nat × Nat)} {y : Nat × Nat} (hx : ∀ x ∈ xs, better y.2 x.2 = false) :
    xs.foldl (betterOf better) (some y) = some y := by
  induction xs with
  | nil => rfl
  | cons x xs ih =>
    rw [List.foldl_cons, betterOf, hx x List.mem_cons_self, if_neg Bool.false_ne_true]
    exact ih fun z hz => hx z (List.mem_cons_of_mem _ hz)

/-- An element that goes before the ones ahead of it, and that none goes before, is the one chosen. -/
theorem foldl_betterOf_eq {better : Nat → Nat → Bool} {pre post : List (Nat × Nat)} {y : Nat × Nat} (hpre : ∀ x ∈ pre, better x.2 y.2 = true)
    (hpost : ∀ x ∈ post, better y.2 x.2 = false) : (pre ++ y :: post).foldl (betterOf better) none = some y := by
  rw [List.foldl_append, List.foldl_cons]
  have hstep : betterOf better (pre.foldl (betterOf better) none) y = some y := by
    cases pre with
    | nil => rfl
    | cons x xs =>
      rw [List.foldl_cons, betterOf]
      cases hz : xs.foldl (betterOf better) (some x) with
      | none => rfl
      | some z =>
        have hmem : z ∈ x :: xs := by simpa using foldl_betterOf_mem hz
        rw [betterOf, hpre z hmem, if_pos rfl]
  rw [hstep, foldl_betterOf_kept hpost]

theorem active_split {m : Nat} (hm : h.writes m) : ∃ pre post, h.active = pre ++ m :: post ∧ (∀ i ∈ pre, h.writes i ∧ i < m) ∧
    ∀ i ∈ post, h.writes i := by
  obtain ⟨pre, post, hsplit⟩ := List.append_of_mem (mem_active.2 hm)
  have hp := active_pairwise h
  rw [hsplit] at hp
  obtain ⟨-, -, hlt⟩ := List.pairwise_append.1 hp
  refine ⟨pre, post, hsplit, fun i hi => ⟨mem_active.1 (by rw [hsplit]; simp [hi]), hlt i hi m List.mem_cons_self⟩, fun i hi => ?_⟩
  exact mem_active.1 (by rw [hsplit]; simp [hi])

theorem extreme_eq_none (ha : h.active = []) : extreme h greater va.val = none := by
  have hn : h.numbered va = [] := by rw [Hart.numbered, ha]; rfl
  rw [extreme_of_no_nan (by rw [hn]; rfl), hn]
  rfl

/-- The lowest-numbered of the extreme elements (R91), none of which is a NaN. -/
theorem extreme_eq_some {m : Nat} (hm : h.writes m) (hnan : ∀ i, h.writes i → (!Fmt.isInt h.fmt && isNan h.fmt (h.bitsAt va i)) = false)
    (hnone : ∀ i, h.writes i → h.outdone greater (h.bitsAt va m) (h.bitsAt va i) = false)
    (hlow : ∀ i, h.writes i → i < m → h.outdone greater (h.bitsAt va i) (h.bitsAt va m) = true) :
    extreme h greater va.val = some (m, h.bitsAt va m) := by
  obtain ⟨pre, post, hsplit, hpre, hpost⟩ := active_split hm
  rw [extreme_of_no_nan]
  · rw [Hart.numbered, hsplit, List.map_append, List.map_cons]
    refine foldl_betterOf_eq (List.forall_mem_map.2 fun i hi => ?_) (List.forall_mem_map.2 fun i hi => ?_)
    · exact hlow i (hpre i hi).1 (hpre i hi).2
    · exact hnone i (hpost i hi)
  · rw [List.find?_eq_none, Hart.numbered]
    refine List.forall_mem_map.2 fun i hi => ?_
    rw [hnan i (mem_active.1 hi)]
    exact Bool.false_ne_true

/-- A NaN among the active elements goes before all (R91). -/
theorem extreme_eq_nan {m : Nat} (hf : Fmt.isInt h.fmt = false) (hm : h.writes m) (hnan : isNan h.fmt (h.bitsAt va m) = true)
    (hlow : ∀ i, h.writes i → isNan h.fmt (h.bitsAt va i) = true → m ≤ i) : extreme h greater va.val = some (m, h.bitsAt va m) := by
  obtain ⟨pre, post, hsplit, hpre, -⟩ := active_split hm
  apply extreme_of_nan
  rw [List.find?_eq_some_iff_append]
  refine ⟨by simp [hf, hnan], pre.map fun i => (i, h.bitsAt va i), post.map fun i => (i, h.bitsAt va i), ?_, List.forall_mem_map.2 fun i hi => ?_⟩
  · rw [Hart.numbered, hsplit, List.map_append, List.map_cons]
  · obtain ⟨hw, hlt⟩ := hpre i hi
    cases hn : isNan h.fmt (h.bitsAt va i) with
    | false => simp
    | true => exact absurd (hlow i hw hn) (Nat.not_le.2 hlt)

end

/-! ### What the reductions of a choice write -/

section
variable {s s1 : State} {h : Hart} {vd va : VRegNo} {rd : SReg}

/-- The bits that `vredmax` and `vredmin` give for a chosen element (R84, R91). -/
def Hart.pickedBits (h : Hart) (x : Nat) : Nat :=
  if Fmt.isInt h.fmt then x else if isNan h.fmt x then quieted h.fmt x else flush h.fmt (vtFtz h.vt) x

theorem vredPick_of_none {greater : Bool} (ho : s.opens numFmt { vs := [va.val], vw := [vd.val] } s1 h) (hx : extreme h greater va.val = none) :
    WritesVector (issue (vredPick greater vd va) s) s1 h vd (fun _ => False) (fun _ => 0) := by
  have hh := hart_of_opens ho
  unfold WritesVector
  split
  case isTrue h0 =>
    refine issue_eq_retired ?_
    simp [vredPick, vectorIssue_ok ho, h0, hh]
  case isFalse h0 =>
    refine ⟨h.vbitsOf vd, issue_eq_retired ?_, fun i hi => hi.elim, fun i _ => rfl⟩
    simp only [vredPick, run_bind, vectorIssue_ok ho, if_neg h0]
    simp [hx, retire, putHart_putHart]

theorem vredPick_of_some {greater : Bool} {m x : Nat} (ho : s.opens numFmt { vs := [va.val], vw := [vd.val] } s1 h)
    (hx : extreme h greater va.val = some (m, x)) :
    WritesVector (issue (vredPick greater vd va) s) s1 h vd (· = 0) (fun _ => h.pickedBits x) := by
  have hh := hart_of_opens ho
  unfold WritesVector
  split
  case isTrue h0 =>
    refine issue_eq_retired ?_
    simp [vredPick, vectorIssue_ok ho, h0, hh]
  case isFalse h0 =>
    refine ⟨setElem (Fmt.ew h.fmt) (h.vbitsOf vd) 0 (h.pickedBits x), issue_eq_retired ?_, fun i hi => ?_, fun i hi => ?_⟩
    · simp only [vredPick, run_bind, vectorIssue_ok ho, if_neg h0]
      simp [hx, retire, putHart_putHart, Hart.pickedBits]
    · rw [hi, elemOf_setElem_self]
    · exact elemOf_setElem_ne (Ne.symm hi)

theorem exec_vargmax_of_none (ho : s.opens numFmt { vs := [va.val] } s1 h) (hx : extreme h true va.val = none) :
    exec (.vargmax rd va) s = .next (s1.retired (h.setS .x rd 0xFFFFFFFFFFFFFFFF)) := by
  refine issue_eq_retired ?_
  simp [vectorIssue_ok ho, hx, hart_of_opens ho, curStream_of_opens ho, retire, putHart_putHart]

theorem exec_vargmax_of_some {m x : Nat} (ho : s.opens numFmt { vs := [va.val] } s1 h) (hx : extreme h true va.val = some (m, x)) :
    exec (.vargmax rd va) s = .next (s1.retired (h.setS .x rd (BitVec.ofNat 64 m))) := by
  refine issue_eq_retired ?_
  simp [vectorIssue_ok ho, hx, hart_of_opens ho, curStream_of_opens ho, retire, putHart_putHart]

end

/-! ### Reductions of integer formats -/

section
variable {s s1 : State} {h : Hart} {vd va : VRegNo}

theorem exec_vredsum_of_vl_zero (ho : s.opens numFmt { vs := [va.val], vw := [vd.val] } s1 h) (h0 : h.vl = 0) :
    exec (.vredsum vd va) s = .next (s1.retired h) := by
  refine issue_eq_retired ?_
  simp [vectorIssue_ok ho, h0, hart_of_opens ho]

theorem redSum_of_isInt (hf : Fmt.isInt h.fmt = true) :
    redSum h va.val = { bits := h.narrowed (h.active.map (h.intAt va)).sum, gen := h.gen, nan := none } := by
  have hmap : (fun i => intVal h.fmt (elemOf (Fmt.ew h.fmt) (h.vbitsOf va.val) i)) = h.intAt va := funext (intVal_bitsAt h va)
  simp only [redSum, hf, if_true, hmap, narrow_eq]

theorem writesVector_vredsum_of_isInt (hf : Fmt.isInt h.fmt = true) (ho : s.opens numFmt { vs := [va.val], vw := [vd.val] } s1 h) :
    WritesVector (exec (.vredsum vd va) s) s1 h vd (· = 0) (fun _ => h.narrowed (h.active.map (h.intAt va)).sum) := by
  unfold WritesVector
  split
  case isTrue h0 => exact exec_vredsum_of_vl_zero ho h0
  case isFalse h0 =>
    refine ⟨setElem (Fmt.ew h.fmt) (h.vbitsOf vd) 0 (h.narrowed (h.active.map (h.intAt va)).sum), issue_eq_retired ?_, fun i hi => ?_, fun i hi => ?_⟩
    · simp only [run_bind, vectorIssue_ok ho, if_neg h0]
      simp [redSum_of_isInt hf, finishV, noteNan, retire, putHart_putHart, Hart.setV]
    · rw [hi, elemOf_setElem_self]
    · exact elemOf_setElem_ne (Ne.symm hi)

theorem outdone_of_isInt (hf : Fmt.isInt h.fmt = true) (greater : Bool) (i j : Nat) : h.outdone greater (h.bitsAt va i) (h.bitsAt va j) =
    decide (if greater then h.intAt va i < h.intAt va j else h.intAt va j < h.intAt va i) := by
  cases greater <;> simp [Hart.outdone, belowOp, hf, intVal_bitsAt]

/-- The lowest-numbered of the elements than which none is greater, or less. -/
theorem extreme_of_isInt (hf : Fmt.isInt h.fmt = true) {greater : Bool} {m : Nat} (hm : h.writes m)
    (hmax : ∀ i, h.writes i → if greater then h.intAt va i ≤ h.intAt va m else h.intAt va m ≤ h.intAt va i)
    (hlow : ∀ i, h.writes i → h.intAt va i = h.intAt va m → m ≤ i) : extreme h greater va.val = some (m, h.bitsAt va m) := by
  refine extreme_eq_some hm (fun i _ => by simp [hf]) (fun i hi => ?_) fun i hi hlt => ?_
  · rw [outdone_of_isInt hf, decide_eq_false_iff_not]
    have := hmax i hi
    split <;> simp_all
  · have hne : h.intAt va i ≠ h.intAt va m := fun e => absurd (hlow i hi e) (Nat.not_le.2 hlt)
    have := hmax i hi
    rw [outdone_of_isInt hf, decide_eq_true_eq]
    cases greater
    · exact lt_of_le_of_ne this (Ne.symm hne)
    · exact lt_of_le_of_ne this hne

theorem bitsAt_eq_of_intAt_eq {i j : Nat} (he : h.intAt va i = h.intAt va j) : h.bitsAt va i = h.bitsAt va j := by
  have hbits (k : Nat) : h.narrowed (h.intAt va k) = h.bitsAt va k := narrowed_asInt (elemOf_lt _ _ _)
  rw [← hbits i, ← hbits j, he]

/-- Among the extreme elements there is a lowest-numbered one, and its bits are those of each of them. -/
theorem exists_extreme_of_isInt (hf : Fmt.isInt h.fmt = true) {greater : Bool} {m : Nat} (hm : h.writes m)
    (hmax : ∀ i, h.writes i → if greater then h.intAt va i ≤ h.intAt va m else h.intAt va m ≤ h.intAt va i) :
    ∃ n, extreme h greater va.val = some (n, h.bitsAt va m) := by
  classical
  have hex : ∃ n, h.writes n ∧ h.intAt va n = h.intAt va m := ⟨m, hm, rfl⟩
  obtain ⟨hn, heq⟩ := Nat.find_spec hex
  refine ⟨Nat.find hex, ?_⟩
  rw [← bitsAt_eq_of_intAt_eq heq]
  exact extreme_of_isInt hf hn (by rwa [heq]) fun i hi he => Nat.find_min' hex ⟨hi, he.trans heq⟩

theorem pickedBits_of_isInt (hf : Fmt.isInt h.fmt = true) (x : Nat) : h.pickedBits x = x := by rw [Hart.pickedBits, if_pos hf]

end

/-- Settles O14: the extreme element chosen is the lowest-numbered, and all extreme elements have its bits. -/
theorem integerReductions : Obligations.IntegerReductions := by
  unfold Obligations.IntegerReductions
  intro s s1 h vd va rd hf a w
  refine ⟨fun ho => ⟨writesVector_vredsum_of_isInt hf ho, fun ha => ⟨?_, ?_⟩, fun m hm hmax => ?_, fun m hm hmin => ?_⟩,
    fun ho => ⟨fun ha => exec_vargmax_of_none ho (extreme_eq_none ha), fun m hm hmax hlow => ?_⟩⟩
  · exact vredPick_of_none ho (extreme_eq_none ha)
  · exact vredPick_of_none ho (extreme_eq_none ha)
  · obtain ⟨n, hx⟩ := exists_extreme_of_isInt (greater := true) hf hm hmax
    have hw := vredPick_of_some ho hx
    rwa [pickedBits_of_isInt hf] at hw
  · obtain ⟨n, hx⟩ := exists_extreme_of_isInt (greater := false) hf hm hmin
    have hw := vredPick_of_some ho hx
    rwa [pickedBits_of_isInt hf] at hw
  · exact exec_vargmax_of_some ho (extreme_of_isInt (greater := true) hf hm hmax hlow)

/-! ### The extreme elements of floating formats -/

section
variable {s s1 : State} {h : Hart} {vd va : VRegNo} {m : Nat}

theorem extreme_of_greatest (hf : Fmt.isFloat h.fmt = true) (hm : h.writes m)
    (hmax : ∀ i, h.writes i → ¬isNan h.fmt (h.bitsAt va i) = true ∧ ¬fpBelow (h.input h.fmt (h.bitsAt va m)) (h.input h.fmt (h.bitsAt va i)) = true)
    (hlow : ∀ i, h.writes i → i < m → fpBelow (h.input h.fmt (h.bitsAt va i)) (h.input h.fmt (h.bitsAt va m)) = true) :
    extreme h true va.val = some (m, h.bitsAt va m) := by
  have hint := not_isInt_of_isFloat hf
  have hout (x y : Nat) : h.outdone true x y = fpBelow (h.input h.fmt x) (h.input h.fmt y) := by simp [Hart.outdone, belowOp, hint]
  refine extreme_eq_some hm (fun i hi => by simp [(hmax i hi).1]) (fun i hi => ?_) fun i hi hlt => ?_
  · rw [hout]
    exact Bool.eq_false_of_not_eq_true (hmax i hi).2
  · rw [hout]
    exact hlow i hi hlt

theorem extreme_of_least (hf : Fmt.isFloat h.fmt = true) (hm : h.writes m)
    (hmin : ∀ i, h.writes i → ¬isNan h.fmt (h.bitsAt va i) = true ∧ ¬fpBelow (h.input h.fmt (h.bitsAt va i)) (h.input h.fmt (h.bitsAt va m)) = true)
    (hlow : ∀ i, h.writes i → i < m → fpBelow (h.input h.fmt (h.bitsAt va m)) (h.input h.fmt (h.bitsAt va i)) = true) :
    extreme h false va.val = some (m, h.bitsAt va m) := by
  have hint := not_isInt_of_isFloat hf
  have hout (x y : Nat) : h.outdone false x y = fpBelow (h.input h.fmt y) (h.input h.fmt x) := by simp [Hart.outdone, belowOp, hint]
  refine extreme_eq_some hm (fun i hi => by simp [(hmin i hi).1]) (fun i hi => ?_) fun i hi hlt => ?_
  · rw [hout]
    exact Bool.eq_false_of_not_eq_true (hmin i hi).2
  · rw [hout]
    exact hlow i hi hlt

theorem pickedBits_of_nan (hf : Fmt.isFloat h.fmt = true) {x : Nat} (hx : isNan h.fmt x = true) : h.pickedBits x = quieted h.fmt x := by
  simp [Hart.pickedBits, not_isInt_of_isFloat hf, hx]

theorem pickedBits_of_not_nan (hf : Fmt.isFloat h.fmt = true) {x : Nat} (hx : ¬isNan h.fmt x = true) :
    h.pickedBits x = flush h.fmt (vtFtz h.vt) x := by
  simp [Hart.pickedBits, not_isInt_of_isFloat hf, hx]

end

/-! ### The tree of sums (R90) -/

/-- How many elements below n use generator j, of those below m. -/
theorem usesIn_range {j : Nat} (hj : j < 256) (n m : Nat) : usesIn (List.range n) j m = (min n m + 255 - j) / 256 := by
  induction n with
  | zero => simp [usesIn]; omega
  | succ n ih =>
    unfold usesIn at ih ⊢
    rw [List.range_succ, List.filter_append, List.length_append, ih]
    by_cases hn : n % 256 = j ∧ n < m
    · rw [List.filter_cons_of_pos (by simpa using hn), List.filter_nil, List.length_singleton]
      omega
    · rw [List.filter_cons_of_neg (by simpa using hn), List.filter_nil, List.length_nil]
      omega

section
variable (c : FpCtx) (draws : Bool)

/-- The node over the values 2 i and 2 i + 1 of a level, from the number that it draws. -/
def pairSum (v : Nat → Nat) (rnd i : Nat) : Nat × Bool := c.round rnd 0 (fpAdd c.rm (Fp.of .fp32 (v (2 * i))) (Fp.of .fp32 (v (2 * i + 1))))

/-- The number that node i draws in a pass over the nodes of a list. -/
def pairRnd (gen : Vector (BitVec 32) 256) (idx : List Nat) (i : Nat) : Nat := if draws then laneRnd gen idx i else 0

/-- A generator's step where the form draws. -/
def drawIf (gen : Vector (BitVec 32) 256) (i : Nat) : Vector (BitVec 32) 256 × Nat := if draws then drawGen gen i else (gen, 0)

/-- A level of the tree: its nodes in order, the steps of the generators, and whether a node generated a NaN. -/
theorem sumLevel_eq (v : Nat → Nat) (n i : Nat) (l : Lanes) :
    (sumLevel c draws i ((List.range' (2 * i) (2 * n)).map v) l).1 =
      (List.range' i n).map (fun j => (pairSum c v (pairRnd draws l.gen (List.range' i n) j) j).1) ∧
    (∀ j, (sumLevel c draws i ((List.range' (2 * i) (2 * n)).map v) l).2.gen.getD (j % 256) 0 =
      if draws then stepped (l.gen.getD (j % 256) 0) (usesIn (List.range' i n) (j % 256) (i + n)) else l.gen.getD (j % 256) 0) ∧
    (sumLevel c draws i ((List.range' (2 * i) (2 * n)).map v) l).2.nan =
      if ∃ j ∈ List.range' i n, (pairSum c v (pairRnd draws l.gen (List.range' i n) j) j).2 = true then some 0 else l.nan := by
  induction n generalizing i l with
  | zero => simp [sumLevel, usesIn, stepped]
  | succ n ih =>
    have hsplit : (List.range' (2 * i) (2 * (n + 1))).map v = v (2 * i) :: v (2 * i + 1) :: (List.range' (2 * (i + 1)) (2 * n)).map v := by
      rw [show 2 * (n + 1) = 2 * n + 1 + 1 by omega, List.range'_succ, List.range'_succ, List.map_cons, List.map_cons, Nat.mul_add_one]
    have hidx : List.range' i (n + 1) = i :: List.range' (i + 1) n := List.range'_succ
    have hlt : ∀ x ∈ List.range' (i + 1) n, i < x := fun x hx => (List.mem_range'_1.1 hx).1
    have hfirst : pairRnd draws l.gen (i :: List.range' (i + 1) n) i = (drawIf draws l.gen i).2 := by
      cases draws
      · rfl
      · exact (laneRnd_first hlt).symm
    have hlater : ∀ x ∈ List.range' (i + 1) n, pairRnd draws (drawIf draws l.gen i).1 (List.range' (i + 1) n) x =
        pairRnd draws l.gen (i :: List.range' (i + 1) n) x := by
      intro x hx
      cases draws
      · rfl
      · exact laneRnd_later (hlt x hx)
    have hstep (a b : Nat) (rest : List Nat) : sumLevel c draws i (a :: b :: rest) l =
        let d := drawIf draws l.gen i
        let r := c.round d.2 0 (fpAdd c.rm (Fp.of .fp32 a) (Fp.of .fp32 b))
        let t := sumLevel c draws (i + 1) rest { l with gen := d.1, nan := if r.2 then some 0 else l.nan }
        (r.1 :: t.1, t.2) := rfl
    rw [hsplit, hstep, hidx]
    obtain ⟨hbits, hgen, hnan⟩ := ih (i + 1) { l with
      gen := (drawIf draws l.gen i).1
      nan := if (pairSum c v (drawIf draws l.gen i).2 i).2 then some 0 else l.nan }
    refine ⟨?_, fun j => ?_, ?_⟩
    · rw [List.map_cons, hfirst]
      refine congrArg (_ :: ·) (hbits.trans (List.map_congr_left fun x hx => ?_))
      rw [hlater x hx]
    · refine (hgen j).trans ?_
      cases draws
      · rfl
      · simp only [if_true, drawIf]
        rw [drawGen_get, stepped_add, usesIn_cons, show i + (n + 1) = i + 1 + n by omega]
        simp only [show i < i + 1 + n by omega, and_true]
    · refine hnan.trans ?_
      simp only [List.exists_mem_cons_iff, hfirst]
      have hrest : (∃ x ∈ List.range' (i + 1) n, (pairSum c v (pairRnd draws (drawIf draws l.gen i).1
          (List.range' (i + 1) n) x) x).2 = true) ↔ ∃ x ∈ List.range' (i + 1) n,
            (pairSum c v (pairRnd draws l.gen (i :: List.range' (i + 1) n) x) x).2 = true :=
        exists_congr fun x => and_congr_right fun hx => by rw [hlater x hx]
      simp only [hrest]
      by_cases hr : (pairSum c v (drawIf draws l.gen i).2 i).2 = true
      · simp only [hr, true_or, if_true, ite_self]
      · simp only [hr, Bool.false_eq_true, false_or, if_false]

end

section
variable (h : Hart) (c : FpCtx) (k : Nat) (leaf : Nat → Nat)

/-- Node i of a level, with the numbers that the hart's generators give it (R80, R90). -/
def Hart.node (lev i : Nat) : Nat × Bool := nodeSum c (h.nodeRnd k) leaf lev i

/-- A node of the levels up to `lev` has generated a NaN (R87). -/
def Hart.generatedBy (lev : Nat) : Prop := ∃ lv i, lv ≤ lev ∧ i < 2 ^ (k - lv) ∧ (h.node c k leaf lv i).2 = true

/-- What a pass over the tree of 2^k leaves has done when the levels up to `lev` are done: the sums, the steps of the generators, and the record. -/
structure Hart.TreeAt (lev : Nat) (xs : List Nat) (l : Lanes) : Prop where
  sums : xs = (List.range (2 ^ (k - lev))).map fun i => (h.node c k leaf lev i).1
  gens : ∀ j, l.gen.getD (j % 256) 0 = if h.isSr then stepped (h.gen.getD (j % 256) 0) (levelSteps k (lev + 1) (j % 256)) else h.gen.getD (j % 256) 0
  taken : h.generatedBy c k leaf lev → l.nan = some 0
  free : ¬h.generatedBy c k leaf lev → l.nan = none

variable {h c k leaf}

theorem levelSteps_succ (k lev j : Nat) : levelSteps k (lev + 2) j = levelSteps k (lev + 1) j + (2 ^ (k - 1 - lev) + 255 - j) / 256 := by
  simp [levelSteps, List.range_succ]

theorem treeAt_leaves {l : Lanes} (hg : l.gen = h.gen) (hn : l.nan = none) : h.TreeAt c k leaf 0 ((List.range (2 ^ k)).map leaf) l where
  sums := rfl
  gens j := by simp [hg, levelSteps, stepped]
  taken := by
    rintro ⟨lv, i, hle, -, hgen⟩
    obtain rfl : lv = 0 := Nat.le_zero.1 hle
    exact absurd hgen Bool.false_ne_true
  free _ := hn

theorem generatedBy_succ {lev : Nat} : h.generatedBy c k leaf (lev + 1) ↔
    (∃ i, i < 2 ^ (k - (lev + 1)) ∧ (h.node c k leaf (lev + 1) i).2 = true) ∨ h.generatedBy c k leaf lev := by
  constructor
  · rintro ⟨lv, i, hle, hi, hgen⟩
    rcases Nat.le_succ_iff.1 hle with hle | rfl
    · exact .inr ⟨lv, i, hle, hi, hgen⟩
    · exact .inl ⟨i, hi, hgen⟩
  · rintro (⟨i, hi, hgen⟩ | ⟨lv, i, hle, hi, hgen⟩)
    · exact ⟨lev + 1, i, le_rfl, hi, hgen⟩
    · exact ⟨lv, i, Nat.le_succ_of_le hle, hi, hgen⟩

/-- Node i of a level draws after the nodes of the lower levels, and after the i / 256 nodes of its own that share its generator. -/
theorem pairRnd_eq_nodeRnd {lev n i : Nat} {xs : List Nat} {l : Lanes} (ht : h.TreeAt c k leaf lev xs l) (hi : i < n) :
    pairRnd h.isSr l.gen (List.range n) i = h.nodeRnd k (lev + 1) i := by
  have hg := ht.gens i
  by_cases hsr : mdRm h.md = .sr
  · have hsr' : h.isSr = true := decide_eq_true hsr
    have huses : usesIn (List.range n) (i % 256) i = i / 256 := by
      rw [usesIn_range (Nat.mod_lt _ (by decide))]
      omega
    rw [hsr', if_pos rfl] at hg
    simp only [pairRnd, hsr', if_true, laneRnd, hg, huses, stepped_add, Hart.nodeRnd, hsr]
  · have hsr' : h.isSr = false := decide_eq_false hsr
    simp only [pairRnd, hsr', Bool.false_eq_true, if_false, Hart.nodeRnd, hsr]

theorem Hart.TreeAt.next {lev : Nat} {xs : List Nat} {l : Lanes} (ht : h.TreeAt c k leaf lev xs l) (hlev : lev < k) :
    h.TreeAt c k leaf (lev + 1) (sumLevel c h.isSr 0 xs l).1 (sumLevel c h.isSr 0 xs l).2 := by
  obtain ⟨n, hn⟩ : ∃ n, n = 2 ^ (k - (lev + 1)) := ⟨_, rfl⟩
  have hxs : xs = (List.range' (2 * 0) (2 * n)).map fun i => (h.node c k leaf lev i).1 := by
    rw [ht.sums, hn, ← Nat.pow_succ', Nat.mul_zero, ← List.range_eq_range', show (k - (lev + 1)).succ = k - lev by omega]
  obtain ⟨hbits, hgen, hnan⟩ := sumLevel_eq c h.isSr (fun i => (h.node c k leaf lev i).1) n 0 l
  rw [← hxs] at hbits hgen hnan
  rw [← List.range_eq_range'] at hbits hnan
  have hnode : ∀ i ∈ List.range n, pairSum c (fun i => (h.node c k leaf lev i).1) (pairRnd h.isSr l.gen (List.range n) i) i =
      h.node c k leaf (lev + 1) i := by
    intro i hi
    rw [pairRnd_eq_nodeRnd ht (List.mem_range.1 hi)]
    rfl
  have hany : (∃ i ∈ List.range n, (pairSum c (fun i => (h.node c k leaf lev i).1) (pairRnd h.isSr l.gen (List.range n) i) i).2 = true) ↔
      ∃ i, i < 2 ^ (k - (lev + 1)) ∧ (h.node c k leaf (lev + 1) i).2 = true := by
    rw [← hn]
    refine exists_congr fun i => ?_
    rw [List.mem_range]
    exact and_congr_right fun hi => by rw [hnode i (List.mem_range.2 hi)]
  simp only [hany] at hnan
  refine ⟨?_, fun j => ?_, fun hg => ?_, fun hg => ?_⟩
  · rw [hbits, ← hn]
    exact List.map_congr_left fun i hi => by rw [hnode i hi]
  · rw [hgen j, ht.gens j]
    by_cases hsr : h.isSr = true
    · have huses : usesIn (List.range' 0 n) (j % 256) (0 + n) = (2 ^ (k - 1 - lev) + 255 - j % 256) / 256 := by
        rw [← List.range_eq_range', usesIn_range (Nat.mod_lt _ (by decide)), show k - 1 - lev = k - (lev + 1) by omega, ← hn]
        omega
      simp only [hsr, if_true, stepped_add, huses, levelSteps_succ]
    · simp only [hsr, Bool.false_eq_true, if_false]
  · rw [hnan]
    rcases generatedBy_succ.1 hg with hg | hg
    · exact if_pos hg
    · rw [ht.taken hg, ite_self]
  · rw [generatedBy_succ, not_or] at hg
    rw [hnan, if_neg hg.1, ht.free hg.2]

/-- The tree from a level on: its root, and what the whole pass has done. -/
theorem sumTree_of_treeAt {b lev fuel : Nat} {xs : List Nat} {l : Lanes} (ht : h.TreeAt c k leaf lev xs l) (hb : lev + b = k) (hfuel : b ≤ fuel) :
    ∃ l', sumTree c h.isSr fuel xs l = ((h.node c k leaf k 0).1, l') ∧ h.TreeAt c k leaf k [(h.node c k leaf k 0).1] l' := by
  induction b generalizing lev fuel xs l with
  | zero =>
    obtain rfl : lev = k := hb
    have hxs : xs = [(h.node c lev leaf lev 0).1] := by rw [ht.sums, Nat.sub_self]; rfl
    subst hxs
    exact ⟨l, by cases fuel <;> rfl, ht⟩
  | succ b ih =>
    obtain ⟨fuel, rfl⟩ : ∃ m, fuel = m + 1 := ⟨fuel - 1, by omega⟩
    have hlen : xs.length = 2 ^ (b + 1) := by rw [ht.sums, List.length_map, List.length_range, show k - lev = b + 1 by omega]
    have hstep : sumTree c h.isSr (fuel + 1) xs l = sumTree c h.isSr fuel (sumLevel c h.isSr 0 xs l).1 (sumLevel c h.isSr 0 xs l).2 := by
      match xs, hlen with
      | [_], hlen => rw [List.length_singleton, Nat.pow_succ] at hlen; omega
      | [], _ => rfl
      | _ :: _ :: _, _ => rfl
    rw [hstep]
    exact ih (ht.next (by omega)) (by omega) (by omega)

theorem ceilPow2_eq {n k : Nat} (hle : n ≤ 2 ^ k) (hlow : k = 0 ∨ 2 ^ (k - 1) < n) : ceilPow2 n = 2 ^ k := by
  unfold ceilPow2
  rcases hlow with rfl | hlow
  · rw [Nat.pow_zero] at hle ⊢
    exact if_pos hle
  · have h1 : 0 < 2 ^ (k - 1) := Nat.two_pow_pos _
    have hk : k ≠ 0 := by
      rintro rfl
      simp only [Nat.pow_zero] at hle hlow
      omega
    have hlog : (n - 1).log2 = k - 1 := (Nat.log2_eq_iff (by omega)).2 ⟨by omega, by rw [Nat.sub_add_cancel (by omega)]; omega⟩
    rw [if_neg (by omega), hlog, Nat.sub_add_cancel (by omega)]

theorem drawIf_rnd {l : Lanes} {xs : List Nat} (ht : h.TreeAt c k leaf k xs l) : (drawIf h.isSr l.gen 0).2 = h.nodeRnd k (k + 1) 0 := by
  rw [← pairRnd_eq_nodeRnd ht Nat.one_pos]
  cases h.isSr
  · rfl
  · exact laneRnd_first (idx := []) (by simp)

theorem drawIf_gen (draws : Bool) (gen : Vector (BitVec 32) 256) (j : Nat) : (drawIf draws gen 0).1.getD (j % 256) 0 =
    if draws then stepped (gen.getD (j % 256) 0) (if j % 256 = 0 then 1 else 0) else gen.getD (j % 256) 0 := by
  cases draws
  · rfl
  · simp only [if_true, drawIf, drawGen_get, Nat.zero_mod, eq_comm]

end

/-! ### Reductions of floating formats -/

section
variable {s s1 : State} {h : Hart} {vd va : VRegNo} {k : Nat}

/-- The leaf of an element: the active ones as `fp32`, zero for the others (R90). -/
def Hart.leafOf (h : Hart) (va : VRegNo) (i : Nat) : Nat :=
  if i < h.vl.toNat ∧ h.activeAt i = true then widen h.fmt (flush h.fmt (vtFtz h.vt) (h.bitsAt va i)) else 0

/-- The tree that `vredsum` builds, its root rounded once more to a narrower format (R90). -/
theorem redSum_of_isFloat (hf : Fmt.isFloat h.fmt = true) (hle : h.vl.toNat ≤ 2 ^ k) (hlow : k = 0 ∨ 2 ^ (k - 1) < h.vl.toNat) :
    ∃ l, h.TreeAt (h.fpCtx .fp32) k (h.leafOf va) k [(h.node (h.fpCtx .fp32) k (h.leafOf va) k 0).1] l ∧
      redSum h va.val = if h.fmt = .fp32 then { l with bits := (h.node (h.fpCtx .fp32) k (h.leafOf va) k 0).1 } else
        { l with
          bits := ((h.fpCtx h.fmt).round (drawIf h.isSr l.gen 0).2 0 (Fp.of .fp32 (h.node (h.fpCtx .fp32) k (h.leafOf va) k 0).1).exact).1
          gen := (drawIf h.isSr l.gen 0).1 } := by
  have hk : k ≤ 20 := by
    by_contra hc
    have hlt := h.vl.isLt
    have hpow : 2 ^ 20 ≤ 2 ^ (k - 1) := Nat.pow_le_pow_right (by decide) (by omega)
    omega
  have hleaf : (fun i => if (decide (i < h.vl.toNat) && h.activeAt i) = true then
      widen h.fmt (flush h.fmt (vtFtz h.vt) (elemOf (Fmt.ew h.fmt) (h.vbitsOf va.val) i)) else 0) = h.leafOf va := by
    funext i
    simp only [Bool.and_eq_true, decide_eq_true_eq]
    rfl
  obtain ⟨l, hsum, ht⟩ := sumTree_of_treeAt (treeAt_leaves (h := h) (c := h.fpCtx .fp32) (k := k) (leaf := h.leafOf va)
    (l := { bits := 0, gen := h.gen, nan := none }) rfl rfl) (Nat.zero_add k) hk
  refine ⟨l, ht, ?_⟩
  simp only [redSum, not_isInt_of_isFloat hf, Bool.false_eq_true, if_false, ceilPow2_eq hle hlow, hleaf, hsum]
  rfl

theorem redSum_nan (hf : Fmt.isFloat h.fmt = true) (hle : h.vl.toNat ≤ 2 ^ k) (hlow : k = 0 ∨ 2 ^ (k - 1) < h.vl.toNat) :
    (h.generatedBy (h.fpCtx .fp32) k (h.leafOf va) k → (redSum h va.val).nan = some 0) ∧
      (¬h.generatedBy (h.fpCtx .fp32) k (h.leafOf va) k → (redSum h va.val).nan = none) := by
  obtain ⟨l, ht, hsum⟩ := redSum_of_isFloat (va := va) hf hle hlow
  have hnan : (redSum h va.val).nan = l.nan := by rw [hsum]; split <;> rfl
  rw [hnan]
  exact ⟨ht.taken, ht.free⟩

theorem redSum_bits (hf : Fmt.isFloat h.fmt = true) (hle : h.vl.toNat ≤ 2 ^ k) (hlow : k = 0 ∨ 2 ^ (k - 1) < h.vl.toNat) :
    (redSum h va.val).bits = if h.fmt = .fp32 then (h.node (h.fpCtx .fp32) k (h.leafOf va) k 0).1 else
      ((h.fpCtx h.fmt).round (h.nodeRnd k (k + 1) 0) 0 (Fp.of .fp32 (h.node (h.fpCtx .fp32) k (h.leafOf va) k 0).1).exact).1 := by
  obtain ⟨l, ht, hsum⟩ := redSum_of_isFloat (va := va) hf hle hlow
  rw [hsum, ← drawIf_rnd ht]
  split <;> rfl

theorem redSum_gen (hf : Fmt.isFloat h.fmt = true) (hle : h.vl.toNat ≤ 2 ^ k) (hlow : k = 0 ∨ 2 ^ (k - 1) < h.vl.toNat) (j : Fin 256) :
    (redSum h va.val).gen[j] = if mdRm h.md = .sr then
      stepped h.gen[j] (levelSteps k (k + 1) j + if h.fmt ≠ .fp32 ∧ j = 0 then 1 else 0) else h.gen[j] := by
  obtain ⟨l, ht, hsum⟩ := redSum_of_isFloat (va := va) hf hle hlow
  have hget (g : Vector (BitVec 32) 256) : g.getD (j.val % 256) 0 = g[j] := by simp [Vector.getD, Nat.mod_eq_of_lt j.isLt]
  have htree := ht.gens j
  have hdraw := drawIf_gen h.isSr l.gen j
  rw [hget, hget, Nat.mod_eq_of_lt j.isLt] at htree hdraw
  have hj : (j.val = 0) = (j = 0) := propext Fin.val_eq_zero_iff
  rw [hsum]
  by_cases hsr : mdRm h.md = .sr
  · have hsr' : h.isSr = true := decide_eq_true hsr
    simp only [hsr', if_true] at htree hdraw
    by_cases hfp : h.fmt = .fp32
    · simp only [hfp, hsr, if_true, ne_eq, not_true, false_and, if_false, htree, Nat.add_zero]
    · simp only [hfp, hsr, hsr', if_true, if_false, ne_eq, not_false_eq_true, true_and, hdraw, htree, stepped_add, hj]
  · have hsr' : h.isSr = false := decide_eq_false hsr
    simp only [hsr', Bool.false_eq_true, if_false] at htree hdraw
    rw [if_neg hsr]
    split <;> simp only [hsr', hdraw, htree]

end

/-- What `vredsum` of a floating format does, with the state of the generators after it. -/
theorem exec_vredsum_of_isFloat {s s1 : State} {h : Hart} {vd va : VRegNo} {l : Lanes} (ho : s.opens numFmt { vs := [va.val], vw := [vd.val] } s1 h)
    (h0 : h.vl ≠ 0) (hl : redSum h va.val = l) :
    exec (.vredsum vd va) s = .next (s1.retired (match l.nan with
      | none => { h.setV vd (setElem (Fmt.ew h.fmt) (h.vbitsOf vd) 0 l.bits) h.fmt with gen := l.gen }
      | some e => { h.setV vd (setElem (Fmt.ew h.fmt) (h.vbitsOf vd) 0 l.bits) h.fmt with gen := l.gen }.takeNan h.xpc s1.tick e)) := by
  refine issue_eq_retired ?_
  simp only [run_bind, vectorIssue_ok ho, if_neg h0, hl]
  cases hn : l.nan with
  | none => simp [finishV, noteNan, retire, putHart_putHart]
  | some e => simp [finishV, noteNan, retire, putHart_putHart, Hart.setV]

/-- Settles O16: the sum is that of `sumTree_of_treeAt`, and the other reductions answer the element that `extreme` chooses. -/
theorem floatingReductions : Obligations.FloatingReductions := by
  unfold Obligations.FloatingReductions
  intro s s1 h vd va rd hf f x nan less firstNan greatest least leaf w kept
  have hint := not_isInt_of_isFloat hf
  have hfirst (greater : Bool) (m : Nat) (hm : firstNan m) : extreme h greater va.val = some (m, x m) := by
    obtain ⟨hw, hn, hlow⟩ := hm
    exact extreme_eq_nan hint hw hn hlow
  have hgreatest (m : Nat) (hm : greatest m) : extreme h true va.val = some (m, x m) := by
    obtain ⟨hw, hmax, hlow⟩ := hm
    exact extreme_of_greatest hf hw hmax hlow
  refine ⟨fun ho => ⟨exec_vredsum_of_vl_zero ho, ?_, fun ha => ⟨?_, ?_⟩, fun m hm => ⟨?_, ?_⟩, fun m hm => ?_, fun m hm => ?_⟩,
    fun ho => ⟨fun ha => exec_vargmax_of_none ho (extreme_eq_none ha), ?_⟩⟩
  · intro k h0 hle hlow
    obtain ⟨htaken, hfree⟩ := redSum_nan (va := va) hf hle hlow
    have hexec := exec_vredsum_of_isFloat ho h0 rfl
    refine ⟨setElem (Fmt.ew f) (h.vbitsOf vd) 0 (redSum h va.val).bits, (redSum h va.val).gen, fun hg => ?_, fun hg => ?_, ?_, fun j hj => ?_,
      redSum_gen hf hle hlow⟩
    · rw [hfree hg] at hexec
      exact hexec
    · rw [htaken hg] at hexec
      exact hexec
    · rw [elemOf_setElem_self, redSum_bits hf hle hlow]
      rfl
    · exact elemOf_setElem_ne hj.ne
  · exact vredPick_of_none ho (extreme_eq_none ha)
  · exact vredPick_of_none ho (extreme_eq_none ha)
  · have hw := vredPick_of_some ho (hfirst true m hm)
    rwa [pickedBits_of_nan hf hm.2.1] at hw
  · have hw := vredPick_of_some ho (hfirst false m hm)
    rwa [pickedBits_of_nan hf hm.2.1] at hw
  · have hw := vredPick_of_some ho (hgreatest m hm)
    rwa [pickedBits_of_not_nan hf (hm.2.1 m hm.1).1] at hw
  · have hw := vredPick_of_some ho (extreme_of_least hf hm.1 hm.2.1 hm.2.2)
    rwa [pickedBits_of_not_nan hf (hm.2.1 m hm.1).1] at hw
  · rintro m (hm | hm)
    · exact exec_vargmax_of_some ho (hfirst true m hm)
    · exact exec_vargmax_of_some ho (hgreatest m hm)

end Sys2Proof.Machine
end

section
/-! Accesses: what stays in flight, the parts of an access, and the scalar loads and stores (R138 to R141, R163). -/

namespace Sys2Proof.Machine

/-! ### Stores in flight that a part leaves in flight -/

section
variable {s : State} {f : PendingStore → Bool}

theorem length_keptAfter (s : State) (n : Nat) : (s.keptAfter n).length = s.pending.length := by
  cases n <;> simp [State.keptAfter, State.keptRound]

theorem map_fst_kept (s : State) : s.kept.map Prod.fst = s.pending := by
  unfold State.kept
  split
  · rw [List.map_fst_zip (by rw [length_keptAfter])]
  · rw [List.map_map]
    exact List.map_id' s.pending

theorem withEarlier_of_none {l : List (PendingStore × Bool)} (hf : ∀ x ∈ l, f x.1 = false) : withEarlier f l = l.map fun x => (x.1, false) := by
  induction l with
  | nil => rfl
  | cons x l ih =>
    obtain ⟨p, k⟩ := x
    have hp : f p = false := hf (p, k) List.mem_cons_self
    rw [withEarlier, ih fun x hx => hf x (List.mem_cons_of_mem _ hx), hp]
    simp

/-- Where no store in flight meets the condition, none performs. -/
theorem run_drain_of_none (hf : ∀ p ∈ s.pending, f p = false) : drain f s = .ok () s := by
  have hk : ∀ x ∈ s.kept, f x.1 = false := fun x hx => hf x.1 (map_fst_kept s ▸ List.mem_map_of_mem hx)
  have hall : ((withEarlier f s.kept).filter fun x => !x.2).map Prod.fst = s.pending := by
    rw [withEarlier_of_none hk, List.filter_eq_self.2 (by simp), List.map_map]
    exact map_fst_kept s
  have hnone : ((withEarlier f s.kept).filter fun x => x.2).map Prod.fst = [] := by
    rw [withEarlier_of_none hk, List.filter_eq_nil_iff.2 (by simp)]
    rfl
  have htake : takePending f s = .ok [] s := by
    simp only [takePending, run_bind, run_get, run_set, run_pure, hall, hnone]
  simp only [drain, run_bind, run_get, htake, each, run_pure]

theorem keeps_of_none {s : State} {f : PendingStore → Bool} (hf : ∀ p ∈ s.pending, f p = false) : s.keeps f = false := by
  rw [State.keeps, List.any_eq_false]
  intro x hx
  rw [hf x.1 (map_fst_kept s ▸ List.mem_map_of_mem hx), Bool.and_false]
  exact Bool.false_ne_true

end

/-! ### The parts of an access of the issuing stream -/

section
variable {s : State} {h : Hart} (hh : s.hart = some h)
include hh

theorem run_addrMd (ra : SReg) (disp : BitVec 9) : addrMd ra disp s = .ok (h.addrMd s.curStream ra disp) s := by
  simp only [addrMd, run_bind, run_rS, hh, run_pure, Hart.addrMd, add_signExtend_eq_ofInt]

theorem run_addrMx (ra rb : SReg) : addrMx ra rb s = .ok (h.addrMx s.curStream ra rb) s := by
  simp only [addrMx, run_bind, run_rS, hh, run_pure, Hart.addrMx, BitVec.ofNat_add, ofNat_toNat_self]

theorem run_actor : actor s = .ok (s.actor h s.curStream) s := by
  simp only [actor, run_bind, run_getHart, hh, run_get, run_pure]

theorem run_interlock_free {va : Word64} {n : Nat} {write : Bool} (hf : s.free h va n write) : interlock va n write s = .ok () s := by
  obtain ⟨ht, hheld, hopen⟩ := hf
  have hany : (h.transfers.any fun t => t.conflicts (va.toNat / 256) ((va.toNat + n - 1) / 256) write) = false :=
    List.any_eq_false.2 fun t hmem => by rw [ht t hmem]; exact Bool.false_ne_true
  simp only [interlock, interlockLines, run_bind, run_getHart, hh, run_get, hheld, hopen, hany, Bool.or_self, Bool.false_eq_true, if_false, run_pure]

theorem run_interlock_conflict {va : Word64} {n : Nat} {write : Bool} (hf : ¬s.free h va n write) :
    interlock va n write s = .error (.wait .interlock false) s := by
  have hc : (h.opened write || s.heldOn s.curSlot (va.toNat / 256) ((va.toNat + n - 1) / 256) write ||
      h.transfers.any fun t => t.conflicts (va.toNat / 256) ((va.toNat + n - 1) / 256) write) = true := by
    by_contra hcon
    simp only [Bool.not_eq_true, Bool.or_eq_false_iff] at hcon
    obtain ⟨⟨hopen, hheld⟩, hany⟩ := hcon
    exact hf ⟨fun t hmem => by simpa using List.any_eq_false.1 hany t hmem, hheld, hopen⟩
  simp only [interlock, interlockLines, run_bind, run_getHart, hh, run_get, hc, if_true, run_waitFor]

end

theorem run_aligned {va : Word64} {n : Nat} (ha : va.toNat % n = 0) (s : State) : aligned va n s = .ok () s := by
  simp only [aligned, ha, if_true, run_pure]

theorem run_misaligned {va : Word64} {n : Nat} (ha : va.toNat % n ≠ 0) (s : State) : aligned va n s = .error (.trap 0x08 va 0 false) s := by
  simp only [aligned, ha, if_false, run_trap]

/-! ### Scalar loads and stores -/

section
variable {s s1 : State} {h : Hart} {n : Nat} {addr : M Word64} {va : Word64}

/-- Each of the scalar loads is `scalarLoad` of its size, sign and address. -/
theorem loadForms_spec (hh : s.hart = some h) (rd ra rb : SReg) (disp : BitVec 9) (fr : Bool) :
    ∀ f ∈ loadForms h s.curStream rd ra rb disp fr, (0 < f.2.1 ∧ f.2.1 ≤ 8) ∧
      ∃ addr, exec f.1 s = issue (scalarLoad f.2.1 f.2.2.1 fr rd addr) s ∧ addr s = .ok f.2.2.2 s := by
  have hd := run_addrMd hh ra disp
  have hx := run_addrMx hh ra rb
  simp only [loadForms, List.forall_mem_cons, List.not_mem_nil, false_imp_iff, implies_true, and_true]
  exact ⟨⟨by decide, _, rfl, hd⟩, ⟨by decide, _, rfl, hx⟩, ⟨by decide, _, rfl, hd⟩, ⟨by decide, _, rfl, hx⟩, ⟨by decide, _, rfl, hd⟩,
    ⟨by decide, _, rfl, hx⟩, ⟨by decide, _, rfl, hd⟩, ⟨by decide, _, rfl, hx⟩, ⟨by decide, _, rfl, hd⟩, ⟨by decide, _, rfl, hx⟩,
    ⟨by decide, _, rfl, hd⟩, ⟨by decide, _, rfl, hx⟩, ⟨by decide, _, rfl, hd⟩, ⟨by decide, _, rfl, hx⟩⟩

/-- Each of the scalar stores is `scalarStore` of its size and address. -/
theorem storeForms_spec (hh : s.hart = some h) (rs ra rb : SReg) (disp : BitVec 9) :
    ∀ f ∈ storeForms h s.curStream rs ra rb disp, (0 < f.2.1 ∧ f.2.1 ≤ 8) ∧
      ∃ addr, exec f.1 s = issue (scalarStore f.2.1 rs addr) s ∧ addr s = .ok f.2.2 s := by
  have hd := run_addrMd hh ra disp
  have hx := run_addrMx hh ra rb
  simp only [storeForms, List.forall_mem_cons, List.not_mem_nil, false_imp_iff, implies_true, and_true]
  exact ⟨⟨by decide, _, rfl, hd⟩, ⟨by decide, _, rfl, hx⟩, ⟨by decide, _, rfl, hd⟩, ⟨by decide, _, rfl, hx⟩, ⟨by decide, _, rfl, hd⟩,
    ⟨by decide, _, rfl, hx⟩, ⟨by decide, _, rfl, hd⟩, ⟨by decide, _, rfl, hx⟩⟩

theorem viaOf_eq (fr : Bool) : viaOf fr = if fr then .fresh else .plain := rfl

theorem scalarOfBytes_eq {signed : Bool} {n : Nat} (hn : 0 < n) (v : Nat) : scalarOfBytes signed n v =
    if signed then BitVec.ofInt 64 (if 2 ^ (8 * n - 1) ≤ v % 2 ^ (8 * n) then (v % 2 ^ (8 * n) : Nat) - (2 ^ (8 * n) : Int) else (v % 2 ^ (8 * n) : Nat))
    else BitVec.ofNat 64 v := by
  have hmod : signedOf (8 * n) v = signedOf (8 * n) (v % 2 ^ (8 * n)) := by simp only [signedOf, Nat.mod_mod]
  rw [scalarOfBytes, hmod, signedOf_of_lt (by omega) (Nat.mod_lt _ (Nat.two_pow_pos _))]

theorem curSlot_of_outer {s t : State} (ho : t.outer = s.outer) : t.curSlot = s.curSlot := by
  have e := congrArg State.curSlot ho
  exact e

/-- A scalar load, from its access on. -/
theorem issue_scalarLoad (hh : s.hart = some h) (ha : addr s = .ok va s) (hal : va.toNat % n = 0) (hf : s.free h va n false) {signed fr : Bool}
    {rd : SReg} {v : Nat} (hl : (s.actor h s.curStream).load (viaOf fr) va n (some false) s = .ok v s1) :
    issue (scalarLoad n signed fr rd addr) s = .next (s1.retired (h.setS s.curStream rd (scalarOfBytes signed n v))) := by
  obtain ⟨-, hhart, hst⟩ := harts_of_outer (load_outer hl)
  apply issue_eq_retired
  simp only [scalarLoad, run_bind, ha, run_aligned hal, run_interlock_free hh hf, run_actor hh, hl, run_wS, run_retire, hhart, hh, hst,
    hart_putHart, putHart_putHart, putHart_curStream]

theorem issue_scalarLoad_trapped (hh : s.hart = some h) (ha : addr s = .ok va s) (hal : va.toNat % n = 0) (hf : s.free h va n false)
    {signed fr : Bool} {rd : SReg} {c : BitVec 8} {e : Word64} {b : BitVec 5}
    (hl : (s.actor h s.curStream).load (viaOf fr) va n (some false) s = .error (.trap c e b false) s1) :
    issue (scalarLoad n signed fr rd addr) s = .next (s.trapped c e b) := by
  apply issue_eq_trapped (s' := s1)
  simp only [scalarLoad, run_bind, ha, run_aligned hal, run_interlock_free hh hf, run_actor hh, hl]

theorem issue_scalarLoad_misaligned (ha : addr s = .ok va s) (hal : va.toNat % n ≠ 0) {signed fr : Bool} {rd : SReg} :
    issue (scalarLoad n signed fr rd addr) s = .next (s.trapped 0x08 va 0) := by
  apply issue_eq_trapped (s' := s)
  simp only [scalarLoad, run_bind, ha, run_misaligned hal]

theorem issue_scalarLoad_waits (hh : s.hart = some h) (ha : addr s = .ok va s) (hal : va.toNat % n = 0) (hf : ¬s.free h va n false)
    {signed fr : Bool} {rd : SReg} : issue (scalarLoad n signed fr rd addr) s = .next (s.waits h .interlock) := by
  refine issue_eq_waits (s' := s) hh ?_ (by decide)
  simp only [scalarLoad, run_bind, ha, run_aligned hal, run_interlock_conflict hh hf]

/-- A scalar store, from its access on. -/
theorem issue_scalarStore (hh : s.hart = some h) (ha : addr s = .ok va s) (hal : va.toNat % n = 0) (hf : s.free h va n true) {rs : SReg}
    (hl : (s.actor h s.curStream).store va n (h.sreg s.curStream rs).toNat (fullMask n) s = .ok () s1) :
    issue (scalarStore n rs addr) s = .next (s1.retired h) := by
  obtain ⟨-, hhart, hst⟩ := harts_of_outer (store_outer hl)
  apply issue_eq_retired
  simp only [scalarStore, run_bind, ha, run_aligned hal, run_interlock_free hh hf, run_actor hh, run_rS, hh, hl, run_retire, hhart]

theorem issue_scalarStore_trapped (hh : s.hart = some h) (ha : addr s = .ok va s) (hal : va.toNat % n = 0) (hf : s.free h va n true) {rs : SReg}
    {c : BitVec 8} {e : Word64} {b : BitVec 5}
    (hl : (s.actor h s.curStream).store va n (h.sreg s.curStream rs).toNat (fullMask n) s = .error (.trap c e b false) s1) :
    issue (scalarStore n rs addr) s = .next (s.trapped c e b) := by
  apply issue_eq_trapped (s' := s1)
  simp only [scalarStore, run_bind, ha, run_aligned hal, run_interlock_free hh hf, run_actor hh, run_rS, hh, hl]

theorem issue_scalarStore_misaligned (ha : addr s = .ok va s) (hal : va.toNat % n ≠ 0) {rs : SReg} :
    issue (scalarStore n rs addr) s = .next (s.trapped 0x08 va 0) := by
  apply issue_eq_trapped (s' := s)
  simp only [scalarStore, run_bind, ha, run_misaligned hal]

theorem issue_scalarStore_waits (hh : s.hart = some h) (ha : addr s = .ok va s) (hal : va.toNat % n = 0) (hf : ¬s.free h va n true)
    {rs : SReg} : issue (scalarStore n rs addr) s = .next (s.waits h .interlock) := by
  refine issue_eq_waits (s' := s) hh ?_ (by decide)
  simp only [scalarStore, run_bind, ha, run_aligned hal, run_interlock_conflict hh hf]

end

/-- Settles O19: each form is `scalarLoad`, whose access leaves the harts, the slot and the stream. -/
theorem scalarLoadsComplete : Obligations.ScalarLoadsComplete := by
  unfold Obligations.ScalarLoadsComplete
  intro s s1 h rd ra rb disp fr v hh f hf n va x
  obtain ⟨⟨hn, -⟩, addr, hexec, haddr⟩ := loadForms_spec hh rd ra rb disp fr f hf
  rw [hexec]
  refine ⟨fun hal hfree hl => ?_, fun hal => issue_scalarLoad_misaligned haddr hal, fun hal hfree => issue_scalarLoad_waits hh haddr hal hfree⟩
  obtain ⟨-, -, hst⟩ := harts_of_outer (load_outer hl)
  refine ⟨?_, hst, curSlot_of_outer (load_outer hl)⟩
  rw [issue_scalarLoad hh haddr hal hfree hl, scalarOfBytes_eq hn]

/-! ### Accesses to the local store -/

section
variable {s : State} {h : Hart} {va : Word64} {n core off : Nat}

theorem run_observe_of_undisturbed (hu : s.undisturbed h) : (s.actor h s.curStream).observe s = .ok () s := by
  unfold Actor.observe
  split
  · apply run_drain_of_none
    intro p hp
    have hp' := hu.1 p hp
    cases hd : p.due with
    | none => simp
    | some sc =>
      rcases hp' sc hd with hof | hout
      · rw [show p.of (s.actor h s.curStream).slot (s.actor h s.curStream).stream = true from hof]
        rfl
      · rw [show Option.any _ (some sc) = Scope.holds sc p.slot (s.actor h s.curStream).slot from rfl,
          show Scope.holds sc p.slot (s.actor h s.curStream).slot = false from hout, Bool.and_false]
  · rfl

theorem behindHeld_of_undisturbed (hu : s.undisturbed h) (l : Loc) (n : Nat) : s.behindHeld (s.actor h s.curStream) l n = false := by
  have hany : (s.held.any fun w => w.of h.slot s.curStream && decide (w.work ≠ .load) && (w.acquires || w.loc.meets w.len l n)) = false :=
    List.any_eq_false.2 fun w hw => by simp [hu.2 w hw]
  exact (congrArg _ hany).trans (Bool.and_false _)

/-- An access in the allocation is found in the local store (R138). -/
theorem run_find_local (hl : s.localPlace h va n core off) (kind : Kind) (z : Option Bool) (dry : Bool) (t : State) :
    (s.actor h s.curStream).find kind va n z dry t = .ok { loc := .ls core off, key := 0, path := [], overlay := false, garbled := false } t := by
  obtain ⟨base, size, hw, hin, hle, hoff⟩ := hl
  have hlt : ¬2 ^ 56 ≤ va.toNat := by
    simp only [inWindow, Bool.and_eq_true, decide_eq_true_eq] at hin
    exact Nat.not_le.2 hin.2
  simp only [Actor.find, hlt, if_false, hin, if_true, run_bind, Actor.local, hw, hle, run_pure, hoff]

/-- The place of an access in the allocation, where nothing comes before it from outside its stream. -/
theorem run_place_local (hu : s.undisturbed h) (hl : s.localPlace h va n core off) (kind : Kind) (z : Option Bool) (dry : Bool) :
    (s.actor h s.curStream).place kind va n z dry s = .ok { loc := .ls core off, key := 0, path := [], overlay := false, garbled := false } s := by
  have hafter : (s.actor h s.curStream).afterHeld kind { loc := .ls core off, key := 0, path := [], overlay := false, garbled := false } n s =
      .ok { loc := .ls core off, key := 0, path := [], overlay := false, garbled := false } s := by
    simp only [Actor.afterHeld, run_bind, run_get, behindHeld_of_undisturbed hu, Bool.false_eq_true, and_false, if_false, run_pure]
  unfold Actor.place
  by_cases hk : kind = .fetch
  · subst hk
    simp only [eq_self, if_true, run_bind, run_find_local hl, hafter]
  · simp only [hk, if_false, run_bind, run_observe_of_undisturbed hu, run_find_local hl, hafter]

/-- An access meets nothing of its own stream where no store in flight of the stream touches its bytes. -/
theorem run_meetOwn_of_none {a : Actor} {l : Loc} {t : State} (ht : ∀ p ∈ t.pending, a.earlier l n p = false) : a.meetOwn l n t = .ok () t := by
  have hdrain : drain (a.comesAfter l n) t = .ok () t := run_drain_of_none fun p hp => by rw [Actor.comesAfter, ht p hp, Bool.false_and]
  have hkeeps : (t.keeps fun p => a.comesAfter l n p && p.peer.isNone) = false :=
    keeps_of_none fun p hp => by rw [Actor.comesAfter, ht p hp, Bool.false_and, Bool.false_and]
  have hfilter : t.pending.filter (a.earlier l n) = [] := List.filter_eq_nil_iff.2 fun p hp => by rw [ht p hp]; exact Bool.false_ne_true
  simp only [Actor.meetOwn, Actor.drainBefore, run_bind, hdrain, run_get, hkeeps, Bool.false_eq_true, if_false, hfilter, each, run_pure]

/-- A load from the local store past the stores of its own stream gives the bytes there, lowest first. -/
theorem run_load_local_after {t u : State} (hp : (s.actor h s.curStream).place .load va n (some false) false s =
      .ok { loc := .ls core off, key := 0, path := [], overlay := false, garbled := false } t)
    (hm : (s.actor h s.curStream).meetOwn (.ls core off) n t = .ok () u) (hsound : u.lsPoisoned core off n = false)
    (hspill : u.inSpill (s.actor h s.curStream) va n = false) (via : LoadVia) :
    (s.actor h s.curStream).load via va n (some false) s = .ok (u.ls.readLE (lsIndex core off) n) u := by
  have hcopy : (s.actor h s.curStream).meetCopy via (.ls core off) va n u = .ok () u := by cases via <;> rfl
  simp only [Actor.load, run_bind, hp, hm, run_get, Place.poisoned, hsound, hspill, Bool.or_self, Bool.false_eq_true, if_false, Actor.reachPeer,
    run_pure, hcopy, loadLoc]

theorem run_load_local (hu : s.undisturbed h) (hl : s.localPlace h va n core off)
    (htouch : ∀ p ∈ s.pending, p.of h.slot s.curStream = true → p.touches (.ls core off) n = false) (hsound : s.lsPoisoned core off n = false)
    (hspill : s.inSpill (s.actor h s.curStream) va n = false) (via : LoadVia) :
    (s.actor h s.curStream).load via va n (some false) s = .ok (s.ls.readLE (lsIndex core off) n) s := by
  refine run_load_local_after (run_place_local hu hl .load (some false) false) (run_meetOwn_of_none fun p hp => ?_) hsound hspill via
  rw [Actor.earlier, Bool.and_assoc]
  cases hof : p.of h.slot s.curStream with
  | false => simp [State.actor, hof]
  | true => rw [htouch p hp hof, Bool.and_false, Bool.and_false]

/-- Outside the allocation and past the window the access faults (R138). -/
theorem run_find_trapped {a : Actor} (ht : 2 ^ 56 ≤ va.toNat ∨ inWindow va = true ∧ ∀ core base size, a.window = some (core, base, size) →
    size < va.toNat - windowBase + n) (kind : Kind) (z : Option Bool) (dry : Bool) (t : State) :
    a.find kind va n z dry t = .error (.trap kind.cause va 0 false) t := by
  by_cases hbig : 2 ^ 56 ≤ va.toNat
  · simp only [Actor.find, hbig, if_true, run_trap]
  · obtain ⟨hin, hout⟩ := ht.resolve_left hbig
    cases hw : a.window with
    | none => simp only [Actor.find, hbig, if_false, hin, if_true, Actor.local, hw, run_bind, run_trap]
    | some w =>
      obtain ⟨core, base, size⟩ := w
      have hle := Nat.not_le.2 (hout core base size hw)
      simp only [Actor.find, hbig, if_false, hin, if_true, Actor.local, hw, hle, run_bind, run_trap]

theorem total_observe (a : Actor) : Total a.observe := by
  unfold Actor.observe
  split
  · exact total_drain _
  · exact total_pure ()

/-- An access whose bytes are not found stops with the cause that finding them raises. -/
theorem run_place_error {a : Actor} {kind : Kind} {z : Option Bool} {dry : Bool} {e : Stop} (hk : kind ≠ .fetch)
    (hf : ∀ t, ∃ u, a.find kind va n z dry t = .error e u) (t : State) : ∃ u, a.place kind va n z dry t = .error e u := by
  obtain ⟨_, t', hobs⟩ := total_observe a t
  obtain ⟨u, hfind⟩ := hf t'
  exact ⟨u, by simp only [Actor.place, hk, if_false, run_bind, hobs, hfind]⟩

theorem run_store_error {a : Actor} {v mask : Nat} {t u : State} {e : Stop} (hp : a.place .store va n (some false) false t = .error e u) :
    a.store va n v mask t = .error e u := by
  simp only [Actor.store, run_bind, hp]

/-- A store to the local store joins the stores in flight (R163). -/
theorem run_store_local (hu : s.undisturbed h) (hl : s.localPlace h va n core off) (v mask : Nat) :
    (s.actor h s.curStream).store va n v mask s = .ok () { s with pending := s.pending ++ [(s.actor h s.curStream).storeOf
      { loc := .ls core off, key := 0, path := [], overlay := false, garbled := false } n v mask] } := by
  simp only [Actor.store, run_bind, run_place_local hu hl]
  rfl

end

theorem bitsOf_byte (v i : Nat) : BitVec.ofNat 8 (bitsOf v (8 * i) 8) = BitVec.ofNat 8 (v / 2 ^ (8 * i)) := by
  apply BitVec.eq_of_toNat_eq
  simp only [BitVec.toNat_ofNat, bitsOf, Nat.shiftRight_eq_div_pow, Nat.mod_mod]

/-- The mask of a byte of a whole store is all ones. -/
theorem fullMask_byte {n i : Nat} (hi : i < n) : BitVec.ofNat 8 (bitsOf (fullMask n) (8 * i) 8) = 0xFF := by
  apply BitVec.eq_of_getLsbD_eq
  intro j hj
  rw [BitVec.getLsbD_ofNat, testBit_bitsOf, fullMask, Nat.testBit_two_pow_sub_one]
  have hbit : (0xFF : BitVec 8).getLsbD j = true := by
    have : ∀ k : Fin 8, (0xFF : BitVec 8).getLsbD k.val = true := by decide
    exact this ⟨j, hj⟩
  rw [hbit]
  simp only [hj, decide_true, Bool.true_and, decide_eq_true_eq]
  omega

/-- The bytes of a whole store, lowest first. -/
theorem storeBytes_full (l : Loc) (n v : Nat) : storeBytes l n v (fullMask n) =
    (List.range n).map fun i => { loc := l.add i, val := BitVec.ofNat 8 (v / 2 ^ (8 * i)), mask := 0xFF } := by
  unfold storeBytes
  refine List.map_congr_left fun i hi => ?_
  rw [bitsOf_byte, fullMask_byte (List.mem_range.1 hi)]

/-- Settles O22: each form is `scalarStore`; to the local store its access finds the place and joins the stores in flight. -/
theorem scalarStoresComplete : Obligations.ScalarStoresComplete := by
  unfold Obligations.ScalarStoresComplete
  intro s s1 h rs ra rb disp hh a f hf n va v
  obtain ⟨⟨hn, -⟩, addr, hexec, haddr⟩ := storeForms_spec hh rs ra rb disp f hf
  rw [hexec]
  refine ⟨fun hal hfree hl => ?_, fun hal hfree hu core off hplace => ?_, fun hal => issue_scalarStore_misaligned haddr hal,
    fun hal hfree => issue_scalarStore_waits hh haddr hal hfree, fun hal hfree hbig => ?_⟩
  · obtain ⟨-, -, hst⟩ := harts_of_outer (store_outer hl)
    exact ⟨issue_scalarStore hh haddr hal hfree hl, hst, curSlot_of_outer (store_outer hl)⟩
  · intro p
    rw [issue_scalarStore hh haddr hal hfree (run_store_local hu hplace _ _)]
    have hp : (s.actor h s.curStream).storeOf { loc := .ls core off, key := 0, path := [], overlay := false, garbled := false } f.2.1 v (fullMask f.2.1) = p := by
      rw [Actor.storeOf, storeBytes_full]
      rfl
    rw [hp]
  · obtain ⟨u, hplace⟩ := run_place_error (a := s.actor h s.curStream) (kind := .store) (z := some false) (dry := false) (by decide)
      (fun t => ⟨t, run_find_trapped (va := va) (n := n) (.inl hbig) .store (some false) false t⟩) s
    exact issue_scalarStore_trapped hh haddr hal hfree (run_store_error hplace)

end Sys2Proof.Machine
end

section
/-! Parts that only read, and prefetches (R159, R205 to R208, R219). -/

namespace Sys2Proof.Machine

/-! ### Parts that only read -/

/-- A part that changes nothing but the count of the free values drawn. -/
structure ReadOnly {α : Type} (x : M α) : Prop where
  run : ∀ s, ∃ k, endState (x s) = { s with freeCtr := k }

section
variable {α β : Type}

theorem readOnly_of_same {x : M α} (hx : ∀ s, endState (x s) = s) : ReadOnly x := ⟨fun s => ⟨s.freeCtr, hx s⟩⟩
theorem readOnly_pure (a : α) : ReadOnly (pure a : M α) := readOnly_of_same fun _ => rfl
theorem readOnly_get : ReadOnly (get : M State) := readOnly_of_same fun _ => rfl
theorem readOnly_trap (c : BitVec 8) (v : Word64) (b : BitVec 5) : ReadOnly (trap c v b : M α) := readOnly_of_same fun _ => rfl
theorem readOnly_fault (q : Req) (b : BitVec 5) : ReadOnly (q.fault b : M α) := readOnly_of_same fun _ => rfl
theorem readOnly_waitFor (w : Wait) : ReadOnly (waitFor w : M α) := readOnly_of_same fun _ => rfl
theorem readOnly_throw (e : Stop) : ReadOnly (throw e : M α) := readOnly_of_same fun _ => rfl
theorem readOnly_freeBytes (n : Nat) : ReadOnly (freeBytes n) := ⟨fun s => ⟨s.freeCtr + 1, rfl⟩⟩
theorem readOnly_freeBool : ReadOnly freeBool := ⟨fun s => ⟨s.freeCtr + 1, rfl⟩⟩

theorem readOnly_bind {x : M α} {f : α → M β} (hx : ReadOnly x) (hf : ∀ a, ReadOnly (f a)) : ReadOnly (x >>= f) := by
  constructor
  intro s
  obtain ⟨k, hk⟩ := hx.run s
  rw [run_bind]
  cases hr : x s with
  | ok a t =>
    rw [hr] at hk
    obtain ⟨k', hk'⟩ := (hf a).run t
    rw [show t = { s with freeCtr := k } from hk] at hk'
    exact ⟨k', by rw [show t = { s with freeCtr := k } from hk]; exact hk'⟩
  | error e t =>
    rw [hr] at hk
    exact ⟨k, hk⟩

theorem readOnly_ite {c : Prop} [Decidable c] {x y : M α} (hx : c → ReadOnly x) (hy : ¬c → ReadOnly y) : ReadOnly (if c then x else y) := by
  split
  · exact hx ‹_›
  · exact hy ‹_›

theorem readOnly_eachFold {f : β → α → M β} (hf : ∀ b a, ReadOnly (f b a)) (l : List α) (b : β) : ReadOnly (eachFold l b f) := by
  induction l generalizing b with
  | nil => exact readOnly_pure b
  | cons a l ih => exact readOnly_bind (hf b a) fun b' => ih b'

/-- Where a part that only reads answers, the state is as it was but for the free values drawn. -/
theorem ReadOnly.ok {x : M α} (hx : ReadOnly x) {s t : State} {a : α} (he : x s = .ok a t) : ∃ k, t = { s with freeCtr := k } := by
  obtain ⟨k, hk⟩ := hx.run s
  rw [he] at hk
  exact ⟨k, hk⟩

/-- A part that only reads keeps what does not depend on the free values drawn. -/
theorem ReadOnly.keeps {x : M α} (hx : ReadOnly x) {P : State → Prop} (hP : ∀ s k, P s → P { s with freeCtr := k }) : Keeps P x := by
  constructor
  intro s hs
  obtain ⟨k, hk⟩ := hx.run s
  rw [hk]
  exact hP s k hs

end

theorem readOnly_readByte (slot a : Nat) : ReadOnly (readByte slot a) := readOnly_bind readOnly_get fun s => by
  split
  · exact readOnly_pure _
  · exact readOnly_freeBytes 1

theorem readOnly_readPA (slot a n : Nat) : ReadOnly (readPA slot a n) := readOnly_bind readOnly_get fun s => by
  split
  · exact readOnly_pure _
  · exact readOnly_eachFold (fun _ _ => readOnly_bind (readOnly_readByte _ _) fun _ => readOnly_pure _) _ _

theorem readOnly_hwRead (a n : Nat) : ReadOnly (hwRead a n) := readOnly_readPA 0 a n

theorem readOnly_pcbWord (off : Nat) : ReadOnly (pcbWord off) := readOnly_bind readOnly_get fun s => by
  split
  · exact readOnly_pure none
  · exact readOnly_bind (readOnly_hwRead _ _) fun _ => readOnly_pure _

theorem readOnly_frameRecAddr (frame : Nat) : ReadOnly (frameRecAddr frame) := by
  unfold frameRecAddr
  split
  · exact readOnly_bind (readOnly_pcbWord _) fun _ => readOnly_pure _
  · split
    · exact readOnly_bind (readOnly_pcbWord _) fun _ => readOnly_bind (readOnly_pcbWord _) fun _ => readOnly_pure _
    · exact readOnly_pure none

theorem readOnly_frameRec (frame : Nat) : ReadOnly (frameRec frame) := readOnly_bind (readOnly_frameRecAddr frame) fun a => by
  split
  · exact readOnly_pure none
  · exact readOnly_bind (readOnly_hwRead _ _) fun _ => readOnly_pure _

theorem readOnly_frameMapped (frame : Nat) : ReadOnly (frameMapped frame) := by
  unfold frameMapped
  split
  · exact readOnly_pure true
  · split
    · exact readOnly_bind (readOnly_pcbWord _) fun n => by split <;> exact readOnly_pure _
    · split <;> exact readOnly_pure _

theorem readOnly_leafValid (l : Leaf) : ReadOnly (leafValid l) := by
  unfold leafValid
  refine readOnly_ite (fun _ => ?_) fun _ => readOnly_pure false
  refine readOnly_bind (readOnly_frameMapped _) fun mapped => readOnly_ite (fun _ => ?_) fun _ => readOnly_pure false
  exact readOnly_bind (readOnly_frameRec _) fun r => by split <;> exact readOnly_pure _

theorem readOnly_walkFrom (va : Nat) (levels : List Nat) (table : Nat) (path : List Nat) : ReadOnly (walkFrom va levels table path) := by
  induction levels generalizing table path with
  | nil => exact readOnly_pure _
  | cons level rest ih =>
    refine readOnly_bind readOnly_get fun s => ?_
    split
    · exact readOnly_pure _
    · split
      · exact readOnly_pure _
      · refine readOnly_bind (readOnly_hwRead _ _) fun e => ?_
        split
        · exact readOnly_pure _
        · split
          · split
            · exact readOnly_pure _
            · exact ih _ _
          · dsimp only
            split
            · exact readOnly_bind (readOnly_leafValid _) fun _ => readOnly_pure _
            · exact readOnly_pure _

theorem readOnly_walk (root va : Nat) : ReadOnly (walk root va) := readOnly_walkFrom _ _ _ _

/-- Whether a port or a peer is reached (R364). -/
theorem readOnly_lookup (q : Req) : ReadOnly (lookup q) := by
  unfold lookup
  refine readOnly_bind (readOnly_walk _ _) fun w => ?_
  cases w with
  | noPath => exact readOnly_fault _ _
  | invalid => exact readOnly_fault _ _
  | uncorrectable => exact readOnly_trap _ _ _
  | leaf l =>
    have hend (port : Bool) : ReadOnly (if !port then q.fault 13 else match q.z with
        | none => pure l
        | some z => if l.z = z then pure l else q.fault 1 : M Leaf) := by
      split
      · exact readOnly_fault _ _
      · split
        · exact readOnly_pure l
        · split
          · exact readOnly_pure l
          · exact readOnly_fault _ _
    refine readOnly_ite (fun _ => readOnly_fault _ _) fun _ => ?_
    refine readOnly_bind readOnly_get fun s => readOnly_ite (fun _ => readOnly_trap _ _ _) fun _ => readOnly_ite (fun _ => ?_) fun _ => ?_
    · split
      · exact readOnly_fault _ _
      · exact readOnly_ite (fun _ => readOnly_fault _ _) fun _ => readOnly_bind (readOnly_pure _) hend
      · exact readOnly_bind (readOnly_pure _) hend
    · exact readOnly_ite (fun _ => readOnly_bind (readOnly_pure _) hend) fun _ => readOnly_bind (readOnly_pure _) hend

theorem readOnly_frameKey (key frame : Nat) : ReadOnly (frameKey key frame) := readOnly_bind (readOnly_frameRec frame) fun r => by
  split <;> exact readOnly_pure _

theorem readOnly_readOverlay (addr : Nat) : ReadOnly (readOverlay addr) := readOnly_bind (readOnly_hwRead _ _) fun _ => readOnly_pure _

theorem readOnly_baseTarget (q : Req) (l : Leaf) : ReadOnly (baseTarget q l) := by
  refine readOnly_bind readOnly_get fun s => readOnly_ite (fun _ => readOnly_trap _ _ _) fun _ => readOnly_ite (fun _ => readOnly_waitFor _) fun _ => ?_
  exact readOnly_ite (fun _ => readOnly_ite (fun _ => readOnly_pure _) fun _ => readOnly_pure _) fun _ =>
    readOnly_ite (fun _ => readOnly_pure _) fun _ => readOnly_pure _

/-- The target of an access whose line does not change side (R222). -/
theorem readOnly_resolve {q : Req} (hq : q.kind ≠ .store ∨ q.dry = true) (l : Leaf) : ReadOnly (resolve q l) := by
  have hside : ¬(q.kind = .store ∧ !q.dry) := by
    rintro ⟨hk, hd⟩
    rcases hq with hq | hq
    · exact hq hk
    · rw [hq] at hd
      exact Bool.false_ne_true hd
  refine readOnly_bind (readOnly_frameKey _ _) fun fk => ?_
  refine readOnly_ite (fun _ => ?_) fun _ => ?_
  · refine readOnly_bind (readOnly_readOverlay _) fun o => readOnly_ite (fun _ => readOnly_fault _ _) fun _ => readOnly_ite (fun _ => ?_) fun _ => ?_
    · exact readOnly_bind readOnly_get fun _ => readOnly_pure _
    · exact readOnly_bind (readOnly_baseTarget _ _) fun b => readOnly_ite (fun hs => absurd hs hside) fun _ => readOnly_pure _
  · exact readOnly_bind (readOnly_baseTarget _ _) fun _ => readOnly_bind readOnly_get fun _ => readOnly_pure _

theorem readOnly_req (a : Actor) (kind : Kind) (va : Word64) (z : Option Bool) (dry : Bool) : ReadOnly (a.req kind va z dry) :=
  readOnly_bind readOnly_get fun s => by
    split
    · exact readOnly_throw _
    · exact readOnly_pure _

/-! ### Prefetches -/

/-- A state with the caches and the free values drawn left out. -/
def State.besideFills (s : State) : State := { s with cores := Vector.replicate 64 .start, freeCtr := 0 }

theorem besideFills_modCore (s : State) (c : Nat) (f : Core → Core) : (s.modCore c f).besideFills = s.besideFills := by
  unfold State.modCore
  split <;> rfl

section
variable {t : State}

theorem keepsFills_modCore (c : Nat) (f : Core → Core) : Keeps (·.besideFills = t) (modCore c f) :=
  keeps_modify fun s hs => (besideFills_modCore s c f).trans hs

theorem ReadOnly.keepsFills {α : Type} {x : M α} (hx : ReadOnly x) : Keeps (·.besideFills = t) x := hx.keeps fun _ _ hs => hs

/-- What a prefetch does where it is not dropped (R159). -/
def startFills (toL1 : Bool) (a : Actor) (va : Word64) : M Unit := do
  if 2 ^ 56 ≤ va.toNat ∨ inWindow va then trap 0x0A va
  else
    let q ← a.req .load (BitVec.ofNat 64 (va.toNat / 256 * 256)) (some false) true
    let l ← lookup q
    if l.tier ≠ 0 then trap 0x0D va
    else
      let t ← resolve q l
      match t.loc with
      | .pa p =>
        let s ← get
        modCore (coreOfSlot s.curSlot) fun c =>
          { c with prefetches := c.prefetches ++ (sectorsOf p 256).map fun x => { sector := x, leaf := l.addr, key := q.key, toL1 := toL1 } }
      | _ => pure ()

theorem req_dry {a : Actor} {kind : Kind} {va : Word64} {z : Option Bool} {dry : Bool} {s u : State} {q : Req} (hq : a.req kind va z dry s = .ok q u) :
    q.dry = dry := by
  simp only [Actor.req, run_bind, run_get] at hq
  cases hc : SMap.get? s.contexts a.asid with
  | none => simp [hc] at hq
  | some c =>
    rw [hc] at hq
    cases hq
    rfl

/-- A part that goes on with an answer of which something is known. -/
theorem keeps_bind_of {α β : Type} {P : State → Prop} {x : M α} {f : α → M β} (Q : α → Prop) (hx : Keeps P x) (hQ : ∀ s a u, x s = .ok a u → Q a)
    (hf : ∀ a, Q a → Keeps P (f a)) : Keeps P (x >>= f) := by
  constructor
  intro s hs
  have hrun := hx.run s hs
  rw [run_bind]
  cases hr : x s with
  | ok a u =>
    rw [hr] at hrun
    exact (hf a (hQ s a u hr)).run u hrun
  | error e u =>
    rw [hr] at hrun
    exact hrun

theorem keeps_ite {α : Type} {P : State → Prop} {c : Prop} [Decidable c] {x y : M α} (hx : c → Keeps P x) (hy : ¬c → Keeps P y) :
    Keeps P (if c then x else y) := by
  split
  · exact hx ‹_›
  · exact hy ‹_›

theorem keepsFills_startFills (toL1 : Bool) (a : Actor) (va : Word64) : Keeps (·.besideFills = t) (startFills toL1 a va) := by
  refine keeps_ite (fun _ => keeps_trap _ _ _) fun _ => ?_
  refine keeps_bind_of (·.dry = true) (readOnly_req _ _ _ _ _).keepsFills (fun _ _ _ => req_dry) fun q hq => ?_
  refine keeps_bind (readOnly_lookup q).keepsFills fun l => keeps_ite (fun _ => keeps_trap _ _ _) fun _ => ?_
  refine keeps_bind (readOnly_resolve (.inr hq) l).keepsFills fun u => ?_
  cases u.loc with
  | pa p => exact keeps_bind keeps_get fun _ => keepsFills_modCore _ _
  | ls c o => exact keeps_pure ()
  | peer f o => exact keeps_pure ()
  | nowhere o => exact keeps_pure ()

end

/-- An attempt answers, and keeps what the part keeps. -/
theorem run_attempt_keeps {α : Type} {P : State → Prop} {x : M α} (hx : Keeps P x) {s : State} (hs : P s) : ∃ r t, attempt x s = .ok r t ∧ P t := by
  have hkeep := (keeps_attempt hx).run s hs
  have htotal : ∃ r t, attempt x s = .ok r t := by
    unfold attempt
    split <;> exact ⟨_, _, rfl⟩
  obtain ⟨r, t, he⟩ := htotal
  rw [he] at hkeep
  exact ⟨r, t, he, hkeep⟩

theorem prefetch_eq_retire {s : State} {h : Hart} {addr : M Word64} {va : Word64} (hh : s.hart = some h) (ha : addr s = .ok va s) (toL1 : Bool) :
    ∃ t, prefetch toL1 addr s = retire t ∧ t.besideFills = s.besideFills := by
  have hend (dropped : Bool) (u : State) (hu : u.besideFills = s.besideFills) : ∃ t, (do
      if !dropped then
        match ← attempt (startFills toL1 (s.actor h s.curStream) va) with
        | _ => pure ()
      else pure ()
      retire : M Unit) u = retire t ∧ t.besideFills = s.besideFills := by
    cases dropped with
    | true => exact ⟨u, rfl, hu⟩
    | false =>
      obtain ⟨r, t, hrun, ht⟩ := run_attempt_keeps (keepsFills_startFills (t := s.besideFills) toL1 (s.actor h s.curStream) va) hu
      refine ⟨t, ?_, ht⟩
      simp only [Bool.not_false, if_true, run_bind, hrun]
  obtain ⟨t, ht, hfill⟩ := hend (Config.freeBool s.freeCtr) { s with freeCtr := s.freeCtr + 1 } rfl
  refine ⟨t, ?_, hfill⟩
  rw [← ht]
  simp only [prefetch, run_bind, ha, run_actor hh, run_freeBool]
  rfl

theorem issue_prefetch {s : State} {h : Hart} {addr : M Word64} {va : Word64} (hh : s.hart = some h) (ha : addr s = .ok va s) (toL1 : Bool) :
    ∃ t, issue (prefetch toL1 addr) s = .next t ∧ t.hart = some (h.advance s.curStream).stirred ∧ t.mem = s.mem ∧ t.ls = s.ls ∧
      t.pending = s.pending := by
  obtain ⟨u, hrun, hfill⟩ := prefetch_eq_retire hh ha toL1
  have hharts : u.harts = s.harts := by have e := congrArg State.harts hfill; exact e
  have hslot : u.curSlot = s.curSlot := by have e := congrArg State.curSlot hfill; exact e
  have hst : u.curStream = s.curStream := by have e := congrArg State.curStream hfill; exact e
  have hhart : u.hart = some h := by rw [State.hart, hharts, hslot]; exact hh
  refine ⟨u.retired h, issue_eq_retired ?_, ?_, ?_, ?_, ?_⟩
  · rw [hrun, run_retire, hhart]
  · rw [State.retired, hart_putHart, hst]
  · have e := congrArg State.mem hfill; exact e
  · have e := congrArg State.ls hfill; exact e
  · have e := congrArg State.pending hfill; exact e

theorem core_modCore_self {s : State} {c : Nat} (hc : c < 64) (f : Core → Core) : (s.modCore c f).core c = f (s.core c) := by
  simp [State.modCore, State.core, hc, Vector.getD]

/-- Where a sector is put into an L1, or is not, the fills awaited stay (R143). -/
theorem run_installIf (c : Prop) [Decidable c] (core key sec : Nat) (s : State) :
    ∃ t, (if c then installL1 core key sec else pure () : M Unit) s = .ok () t ∧ t.besideFills = s.besideFills ∧
      (t.core core).prefetches = (s.core core).prefetches := by
  have hstay : ∃ t, (pure () : M Unit) s = .ok () t ∧ t.besideFills = s.besideFills ∧ (t.core core).prefetches = (s.core core).prefetches :=
    ⟨s, rfl, rfl, rfl⟩
  split
  · simp only [installL1, run_bind, run_get]
    split
    · refine ⟨_, rfl, besideFills_modCore _ _ _, ?_⟩
      by_cases hc : core < 64
      · rw [core_modCore_self hc]
      · simp [State.modCore, hc]
    · exact hstay
  · exact hstay

/-- The arrival of a fill takes it off the list and may put its sector into the L1 (R159, R219). -/
theorem exec_prefFillArrival_of_awaited {s : State} {p : Prefetch} (hc : s.curEv.a < 64) (hp : (s.core s.curEv.a).prefetches[s.curEv.b]? = some p) :
    ∃ t, exec .prefFillArrival s = .next t ∧ t.mem = s.mem ∧ t.ls = s.ls ∧ t.harts = s.harts ∧
      (t.core s.curEv.a).prefetches = (s.core s.curEv.a).prefetches.eraseIdx s.curEv.b := by
  obtain ⟨e, u, hread⟩ := total_readPA 0 p.leaf 16 (s.modCore s.curEv.a fun c => { c with prefetches := c.prefetches.eraseIdx s.curEv.b })
  obtain ⟨k, rfl⟩ := (readOnly_readPA 0 p.leaf 16).ok hread
  obtain ⟨t, hinstall, hfill, hpref⟩ := run_installIf (e % 4 = 3 ∧ bitsOf e 13 3 = 0 ∧ p.toL1) s.curEv.a p.key p.sector
    { s.modCore s.curEv.a fun c => { c with prefetches := c.prefetches.eraseIdx s.curEv.b } with freeCtr := k }
  refine ⟨t, ?_, ?_, ?_, ?_, ?_⟩
  · rw [exec_prefFillArrival]
    apply event_ok
    simp only [run_bind, run_get, hp, run_modCore, hwRead, hread, hinstall]
  · have e := (congrArg State.mem hfill).trans (congrArg State.mem (besideFills_modCore s s.curEv.a _))
    exact e
  · have e := (congrArg State.ls hfill).trans (congrArg State.ls (besideFills_modCore s s.curEv.a _))
    exact e
  · have e := (congrArg State.harts hfill).trans (congrArg State.harts (besideFills_modCore s s.curEv.a _))
    exact e
  · exact hpref.trans (congrArg Core.prefetches (core_modCore_self hc _))

/-- Settles O24: what a prefetch looks up is only read, and its fill goes to the caches alone. -/
theorem prefetchesChangeNoValue : Obligations.PrefetchesChangeNoValue := by
  unfold Obligations.PrefetchesChangeNoValue
  intro s h ra rb disp hh
  refine ⟨?_, fun p => exec_prefFillArrival_of_awaited⟩
  have hd := run_addrMd hh ra disp
  have hx := run_addrMx hh ra rb
  simp only [List.forall_mem_cons, List.not_mem_nil, false_imp_iff, implies_true, and_true]
  exact ⟨issue_prefetch hh hd true, issue_prefetch hh hx true, issue_prefetch hh hd false, issue_prefetch hh hx false⟩

end Sys2Proof.Machine
end

section
/-! Loads of the local store and of memory, and stores that perform (R140, R143, R161, R164). -/

namespace Sys2Proof.Machine

/-! ### Bytes of memory as numbers -/

theorem testBit_readLE (m : Memory) (a n i : Nat) :
    (m.readLE a n).testBit i = (decide (i < 8 * n) && (m.read (a + i / 8)).getLsbD (i % 8)) := by
  induction n generalizing a i with
  | zero => simp [Memory.readLE]
  | succ n ih =>
    have hbyte : (m.read a).toNat < 2 ^ 8 := (m.read a).isLt
    have hsum : m.readLE a (n + 1) = 2 ^ 8 * m.readLE (a + 1) n + (m.read a).toNat := by
      rw [Memory.readLE]
      omega
    rw [hsum, Nat.testBit_two_pow_mul_add _ hbyte]
    by_cases hi : i < 8
    · rw [if_pos hi, Nat.div_eq_of_lt hi, Nat.mod_eq_of_lt hi]
      simp [show i < 8 * (n + 1) by omega, BitVec.getLsbD]
    · rw [if_neg hi, ih, show a + 1 + (i - 8) / 8 = a + i / 8 by omega, show (i - 8) % 8 = i % 8 by omega]
      congr 1
      exact decide_eq_decide.2 (by omega)

theorem readLE_lt (m : Memory) (a n : Nat) : m.readLE a n < 2 ^ (8 * n) := by
  refine Nat.lt_pow_two_of_testBit _ fun i hi => ?_
  rw [testBit_readLE, decide_eq_false (Nat.not_lt.2 hi), Bool.false_and]

/-- Bytes that are those of a number read as the number. -/
theorem readLE_of_bytes {m : Memory} {a n v : Nat} (hb : ∀ i, i < n → m.read (a + i) = BitVec.ofNat 8 (v / 2 ^ (8 * i))) :
    m.readLE a n = v % 2 ^ (8 * n) := by
  apply Nat.eq_of_testBit_eq
  intro i
  rw [testBit_readLE, Nat.testBit_mod_two_pow]
  by_cases hi : i < 8 * n
  · have hmod : i % 8 < 8 := Nat.mod_lt _ (by decide)
    rw [hb (i / 8) (by omega), BitVec.getLsbD_ofNat, Nat.testBit_div_two_pow, show i % 8 + 8 * (i / 8) = i by omega]
    simp [hmod]
  · simp [hi]

theorem signedOf_eq_toInt {n : Nat} (hn : 0 < n) (v : Nat) : signedOf n v = (BitVec.ofNat n v).toInt := by
  have hmod : signedOf n v = signedOf n (v % 2 ^ n) := by simp only [signedOf, Nat.mod_mod]
  have hpow : (2 : Nat) ^ n = 2 * 2 ^ (n - 1) := by rw [← Nat.pow_succ']; congr 1; omega
  rw [hmod, signedOf_of_lt hn (Nat.mod_lt _ (Nat.two_pow_pos _)), BitVec.toInt_eq_toNat_cond, BitVec.toNat_ofNat]
  by_cases hc : 2 ^ (n - 1) ≤ v % 2 ^ n
  · rw [if_pos hc, if_neg (by omega)]
    push_cast
    rfl
  · rw [if_neg hc, if_pos (by omega)]

/-- The bits of a loaded value: its own below its size, and above them zeros or copies of its sign (R141). -/
theorem getLsbD_scalarOfBytes {signed : Bool} {n : Nat} (hn : 0 < n) (h8 : n ≤ 8) (m : Memory) (a i : Nat) (hi : i < 64) :
    (scalarOfBytes signed n (m.readLE a n)).getLsbD i = if i < 8 * n then (m.read (a + i / 8)).getLsbD (i % 8)
      else signed && (m.read (a + n - 1)).getLsbD 7 := by
  cases signed with
  | false =>
    rw [scalarOfBytes, if_neg Bool.false_ne_true, BitVec.getLsbD_ofNat, testBit_readLE]
    by_cases hin : i < 8 * n <;> simp [hin, hi]
  | true =>
    have hext : scalarOfBytes true n (m.readLE a n) = (BitVec.ofNat (8 * n) (m.readLE a n)).signExtend 64 := by
      rw [scalarOfBytes, if_pos rfl, signedOf_eq_toInt (by omega)]
      rfl
    rw [hext, BitVec.getLsbD_signExtend, BitVec.getLsbD_ofNat, testBit_readLE, BitVec.msb_eq_getLsbD_last, BitVec.getLsbD_ofNat, testBit_readLE]
    by_cases hin : i < 8 * n
    · simp [hin, hi]
    · rw [show a + n - 1 = a + (8 * n - 1) / 8 by omega, show (8 * n - 1) % 8 = 7 by omega]
      simp [hin, hi, show 8 * n - 1 < 8 * n by omega]

/-! ### Stores in flight that a part takes -/

theorem run_takePending_of_none {s : State} {f : PendingStore → Bool} (hk : ∀ x ∈ s.kept, f x.1 = false) : takePending f s = .ok [] s := by
  have hall : ((withEarlier f s.kept).filter fun x => !x.2).map Prod.fst = s.pending := by
    rw [withEarlier_of_none hk, List.filter_eq_self.2 (by simp), List.map_map]
    exact map_fst_kept s
  have hnone : ((withEarlier f s.kept).filter fun x => x.2).map Prod.fst = [] := by
    rw [withEarlier_of_none hk, List.filter_eq_nil_iff.2 (by simp)]
    rfl
  simp only [takePending, run_bind, run_get, run_set, run_pure, hall, hnone]

/-! ### A load with `.fr` at its home -/

section
variable {s s1 : State} {h : Hart} {va : Word64}

/-- A load of bytes found in memory, sound, readable and touched by no store in flight of the stream, gives the bytes at their home (R143). -/
theorem run_load_fresh {a : Actor} {n x : Nat} {p : Place} (hp : a.place .load va n (some false) false s = .ok p s1) (hloc : p.loc = .pa x)
    (hgarbled : p.garbled = false) (hsound : s1.poisoned x n = false) (hspill : s1.inSpill a va n = false)
    (hread : (sectorsOf x n).all (s1.sectorReadable p.key) = true) (hnone : ∀ q ∈ s1.pending, a.earlier (.pa x) n q = false) :
    ∃ u, a.load .fresh va n (some false) s = .ok (s1.mem.readLE x n) u ∧ u.besideFills = s1.besideFills := by
  have hpa : readPA p.key x n s1 = .ok (s1.mem.readLE x n) s1 := by simp only [readPA, run_bind, run_get, hread, if_true, run_pure]
  obtain ⟨u, hinstall, hfill, -⟩ := run_installIf True (coreOfSlot a.slot) p.key (x / 32) s1
  rw [if_pos trivial] at hinstall
  refine ⟨u, ?_, hfill⟩
  simp only [Actor.load, run_bind, hp, hloc, run_meetOwn_of_none hnone, run_get, Place.poisoned, hsound, hgarbled, hspill, Bool.or_self,
    Bool.false_eq_true, if_false, Actor.reachPeer, run_pure, Actor.meetCopy, loadLoc, loadPA, hpa, Actor.loader, hinstall]

theorem earlier_of_untouched {l : Loc} {n : Nat} {q : PendingStore} (hq : q.of h.slot s.curStream = true → q.touches l n = false) :
    (s.actor h s.curStream).earlier l n q = false := by
  rw [Actor.earlier, Bool.and_assoc]
  cases hof : q.of h.slot s.curStream with
  | false => simp [State.actor, hof]
  | true => rw [hq hof, Bool.and_false, Bool.and_false]

end

/-! ### Stores that perform in the local store -/

/-- A memory with the n bytes from base + i on written, each by its number. -/
def writtenBytes (m : Memory) (base : Nat) (val : Nat → Byte) (i n : Nat) : Memory :=
  (List.range' i n).foldl (fun m j => m.write (base + j) (val j)) m

theorem read_writtenBytes (m : Memory) (base : Nat) (val : Nat → Byte) (i n x : Nat) :
    (writtenBytes m base val i n).read x = if base + i ≤ x ∧ x < base + i + n then val (x - base) else m.read x := by
  induction n generalizing i m with
  | zero => rw [if_neg (by omega)]; rfl
  | succ n ih =>
    have hstep : writtenBytes m base val i (n + 1) = writtenBytes (m.write (base + i) (val i)) base val (i + 1) n := by
      rw [writtenBytes, List.range'_succ]
      rfl
    rw [hstep, ih]
    by_cases hx : x = base + i
    · rw [if_neg (by omega), if_pos (by omega), hx, Memory.read_write_self]
      congr 1
      omega
    · rw [Memory.read_write_ne _ _ hx]
      exact ite_congr (propext (by omega)) (fun _ => rfl) fun _ => rfl

theorem maskByte_full (old val : Byte) : maskByte old val 0xFF = val := by
  change (old &&& 0#8) ||| (val &&& BitVec.allOnes 8) = val
  rw [BitVec.and_zero, BitVec.zero_or, BitVec.and_allOnes]

/-- What performing a byte of a store does: the byte goes to its home, and its sector leaves the core's L1 (R143). -/
def performByte (p : PendingStore) (b : StoreByte) : M Unit := do
  writeStoreByte p.key b
  match b.loc with
  | .pa a => if p.drops then dropL1 (coreOfSlot p.slot) (a / 32) else pure ()
  | _ => pure ()

theorem performRaw_eq (p : PendingStore) : performRaw p = (do
    each p.bytes (performByte p)
    modify fun s => ((s.clearBy p).stripsDue p).noteHits p
    leave p) := rfl

theorem lsIndex_add (core off i : Nat) : lsIndex core (off + i) = lsIndex core off + i := (Nat.add_assoc _ _ _).symm

theorem run_performByte_ls (p : PendingStore) (core off : Nat) (v : Byte) (s : State) :
    performByte p { loc := .ls core off, val := v, mask := 0xFF } s = .ok () { s with ls := s.ls.write (lsIndex core off) v } := by
  simp only [performByte, writeStoreByte, run_bind, run_modify, maskByte_full, run_pure]

theorem run_each_performByte_ls (p : PendingStore) (core off : Nat) (val : Nat → Byte) (i n : Nat) (s : State) :
    each ((List.range' i n).map fun j => ({ loc := .ls core (off + j), val := val j, mask := 0xFF } : StoreByte)) (performByte p) s =
      .ok () { s with ls := writtenBytes s.ls (lsIndex core off) val i n } := by
  induction n generalizing i s with
  | zero => rfl
  | succ n ih =>
    rw [List.range'_succ, List.map_cons, each, run_bind, run_performByte_ls]
    simp only
    rw [ih, writtenBytes, writtenBytes, List.range'_succ, List.foldl_cons, lsIndex_add]

theorem peer_of_ls {p : PendingStore} {core off n v : Nat} (hb : p.bytes = storeBytes (.ls core off) n v (fullMask n)) : p.peer = none := by
  rw [PendingStore.peer, hb, List.findSome?_eq_none_iff]
  intro b hmem
  obtain ⟨i, -, rfl⟩ := List.mem_map.1 hmem
  rfl

/-- A store of n bytes to the local store performs (R161, R163). -/
theorem run_performRaw_ls {p : PendingStore} {core off n v : Nat} (hb : p.bytes = storeBytes (.ls core off) n v (fullMask n)) (s : State) :
    performRaw p s = .ok () ((({ s with ls := writtenBytes s.ls (lsIndex core off) (fun j => BitVec.ofNat 8 (v / 2 ^ (8 * j))) 0 n }
      ).clearBy p).stripsDue p |>.noteHits p) := by
  have hbytes : p.bytes = (List.range' 0 n).map fun j => { loc := .ls core (off + j), val := BitVec.ofNat 8 (v / 2 ^ (8 * j)), mask := 0xFF } := by
    rw [hb, storeBytes_full, List.range_eq_range']
    rfl
  have hwrite := run_each_performByte_ls p core off (fun j => BitVec.ofNat 8 (v / 2 ^ (8 * j))) 0 n s
  rw [← hbytes] at hwrite
  simp only [performRaw_eq, run_bind, hwrite, run_modify, leave, peer_of_ls hb, run_pure]

/-- A store performs at once where none in flight was translated through an entry that it changes (R209). -/
theorem run_perform_of_none {s : State} {p : PendingStore} (hnone : ∀ q ∈ s.pending, q.throughStore p = false) (n : Nat) :
    perform n p s = performRaw p s := by
  cases n with
  | zero => rfl
  | succ n =>
    have hk : ∀ x ∈ s.kept, x.1.throughStore p = false := fun x hx => hnone x.1 (map_fst_kept s ▸ List.mem_map_of_mem hx)
    rw [perform, run_bind, run_takePending_of_none hk]
    rfl

/-- The bytes of a store to the local store lie in no poisoned word where there is none. -/
theorem clearBy_ls_of_sound {s : State} {p : PendingStore} {core off n v : Nat} (hb : p.bytes = storeBytes (.ls core off) n v (fullMask n))
    (hp : s.lsPoison = []) : s.clearBy p = s := by
  have hnone : s.poisonedCells p.bytes = [] := by
    rw [State.poisonedCells, List.filter_eq_nil_iff]
    intro c hc
    rw [List.mem_eraseDups, List.mem_map] at hc
    obtain ⟨x, hx, rfl⟩ := hc
    obtain ⟨b, hmem, hcell⟩ := List.mem_filterMap.1 hx
    rw [hb] at hmem
    obtain ⟨i, -, rfl⟩ := List.mem_map.1 hmem
    cases hcell
    simp [State.cellPoisoned, hp]
  rw [State.clearBy, hnone]
  rfl

/-- The only store in flight, where it can go out, is taken when it meets the condition. -/
theorem run_drain_single {s : State} {f : PendingStore → Bool} {q : PendingStore} (hs : s.pending = [q]) (hf : f q = true) (hpeer : q.peer = none) :
    drain f s = performRaw q { s with pending := [] } := by
  have hstays : s.stays q = false := by rw [State.stays, hpeer]
  have hkept : s.kept = [(q, false)] := by simp [State.kept, hs, hstays]
  have htake : takePending f s = .ok [q] { s with pending := [] } := by
    simp [takePending, hkept, withEarlier, hf]
  simp only [drain, run_bind, run_get, htake, each, run_perform_of_none (s := { s with pending := [] }) (p := q) (fun _ h => nomatch h), run_pure]
  cases performRaw q { s with pending := [] } <;> rfl

/-- The state in which the only store in flight, one of n bytes to the local store, has performed. -/
def State.performedLs (s : State) (q : PendingStore) (core off n v : Nat) : State :=
  State.noteHits { s with pending := [], ls := writtenBytes s.ls (lsIndex core off) (fun j => BitVec.ofNat 8 (v / 2 ^ (8 * j))) 0 n } q

theorem readLE_performedLs (s : State) (q : PendingStore) (core off n v : Nat) :
    (s.performedLs q core off n v).ls.readLE (lsIndex core off) n = v % 2 ^ (8 * n) := by
  refine readLE_of_bytes fun i hi => ?_
  refine (read_writtenBytes _ _ _ _ _ _).trans ?_
  rw [if_pos (by omega), Nat.add_sub_cancel_left]

section
variable {s : State} {h : Hart} {va : Word64} {core off v : Nat} {q : PendingStore}

/-- The only store in flight, an earlier one of the stream to the same bytes, performs before a load of them (R164). -/
theorem run_meetOwn_single {n : Nat} (hn : 0 < n) (hplace : s.localPlace h va n core off) (hsound : s.lsPoison = []) (hs : s.pending = [q])
    (hslot : q.slot = h.slot) (hst : q.stream = s.curStream) (hscalar : q.scalar = true)
    (hb : q.bytes = storeBytes (.ls core off) n v (fullMask n)) :
    (s.actor h s.curStream).meetOwn (.ls core off) n s = .ok () (s.performedLs q core off n v) := by
  have htouch : q.touches (.ls core off) n = true := by
    rw [PendingStore.touches, hb, List.any_eq_true]
    refine ⟨_, List.mem_map_of_mem (List.mem_range.2 hn), List.any_eq_true.2 ⟨0, List.mem_range.2 hn, ?_⟩⟩
    simp
  have hafter : (s.actor h s.curStream).comesAfter (.ls core off) n q = true := by
    obtain ⟨base, size, hw, -⟩ := hplace
    have hown : (s.actor h s.curStream).own = true := by rw [Actor.own, hw]; rfl
    have hof : q.of (s.actor h s.curStream).slot (s.actor h s.curStream).stream = true := by simp [PendingStore.of, State.actor, hslot, hst]
    have horders : q.orders (s.actor h s.curStream).scalar (s.actor h s.curStream).strip = true := by simp [PendingStore.orders, State.actor, hscalar]
    rw [Actor.comesAfter, Actor.earlier, hown, hof, htouch, horders]
    rfl
  have hdrain : (s.actor h s.curStream).drainBefore (.ls core off) n s = .ok () (s.performedLs q core off n v) := by
    rw [Actor.drainBefore, run_drain_single hs hafter (peer_of_ls hb)]
    refine (run_performRaw_ls hb _).trans ?_
    exact congrArg (fun t => EStateM.Result.ok () (State.noteHits (State.stripsDue t q) q)) (clearBy_ls_of_sound (s := { s with
      pending := [], ls := writtenBytes s.ls (lsIndex core off) (fun j => BitVec.ofNat 8 (v / 2 ^ (8 * j))) 0 n }) hb hsound)
  have hnone : ∀ p ∈ (s.performedLs q core off n v).pending, (s.actor h s.curStream).earlier (.ls core off) n p = false := fun p hp => nomatch hp
  have hrest := run_meetOwn_of_none hnone
  simp only [Actor.meetOwn, run_bind, hdrain] at hrest ⊢
  rwa [show (s.actor h s.curStream).drainBefore (.ls core off) n (s.performedLs q core off n v) = .ok () (s.performedLs q core off n v) from
    run_drain_of_none fun p hp => nomatch hp] at hrest

end

/-! ### Loads give the bytes -/

theorem run_load_error {a : Actor} {via : LoadVia} {va : Word64} {n : Nat} {t u : State} {e : Stop}
    (hp : a.place .load va n (some false) false t = .error e u) : a.load via va n (some false) t = .error e u := by
  simp only [Actor.load, run_bind, hp]

/-- Settles O20: a load meets the stores of its stream first, and then takes the bytes of its place. -/
theorem loadsGiveTheBytes : Obligations.LoadsGiveTheBytes := by
  unfold Obligations.LoadsGiveTheBytes
  refine ⟨?_, ?_, ?_⟩
  · intro s h rd ra rb disp fr hh f hf n va hal hfree
    obtain ⟨⟨hn, h8⟩, addr, hexec, haddr⟩ := loadForms_spec hh rd ra rb disp fr f hf
    have htrap (hout : 2 ^ 56 ≤ va.toNat ∨ inWindow va = true ∧ ∀ core base size, (s.actor h s.curStream).window = some (core, base, size) →
        size < va.toNat - windowBase + n) : exec f.1 s = .next (s.trapped 0x0A va 0) := by
      obtain ⟨u, hplace⟩ := run_place_error (a := s.actor h s.curStream) (kind := .load) (by decide)
        (fun t => ⟨t, run_find_trapped hout .load (some false) false t⟩) s
      rw [hexec]
      exact issue_scalarLoad_trapped hh haddr hal hfree (run_load_error hplace)
    refine ⟨fun core off hplace hsound hspill hu htouch => ?_, fun hbig => htrap (.inl hbig), fun hin hout => htrap (.inr ⟨hin, ?_⟩)⟩
    · rw [hexec]
      refine ⟨_, issue_scalarLoad hh haddr hal hfree (run_load_local hu hplace htouch hsound hspill _), fun i hi => getLsbD_scalarOfBytes hn h8 _ _ i hi⟩
    · intro core base size hw
      by_contra hle
      exact hout core _ ⟨base, size, hw, hin, Nat.not_lt.1 hle, rfl⟩
  · intro s s1 h rd ra disp p x hh va hal hfree hp hloc hgarbled hsound hspill hread htouch
    obtain ⟨u, hl, hfill⟩ := run_load_fresh hp hloc hgarbled hsound hspill hread fun q hq => earlier_of_untouched (htouch q hq)
    obtain ⟨-, -, hst⟩ := harts_of_outer (load_outer hl)
    refine ⟨_, issue_scalarLoad hh (run_addrMd hh ra disp) hal hfree (fr := true) hl, ?_, ?_, ?_⟩
    · rw [State.retired, hart_putHart, hst]
      rfl
    · have e := congrArg State.mem hfill; exact e
    · have e := congrArg State.pending hfill; exact e
  · intro s h rd ra disp fr core off v q hh va hal hfree hplace hsound hspill hheld hs hslot hst hscalar hdue _ hb
    have hu : s.undisturbed h := by
      refine ⟨fun p hp sc hsc => ?_, fun w hw => ?_⟩
      · rw [hs, List.mem_singleton] at hp
        rw [hp, hdue] at hsc
        exact nomatch hsc
      · rw [hheld] at hw
        exact nomatch hw
    have hl := run_load_local_after (run_place_local hu hplace .load (some false) false)
      (run_meetOwn_single (by decide) hplace hsound hs hslot hst hscalar hb) (by simp [State.lsPoisoned, State.performedLs, State.noteHits, hsound])
      hspill (viaOf fr)
    refine ⟨_, issue_scalarLoad hh (run_addrMd hh ra disp) hal hfree hl, ?_, rfl, readLE_performedLs s q core off 8 v⟩
    have hv : BitVec.ofNat 64 (v % 2 ^ (8 * 8)) = BitVec.ofNat 64 v := BitVec.eq_of_toNat_eq (by simp)
    rw [State.retired, hart_putHart, readLE_performedLs, scalarOfBytes, if_neg Bool.false_ne_true, hv]
    rfl

end Sys2Proof.Machine
end

section
/-! Stores that perform at their home (R140, R161, R163, R382). -/

namespace Sys2Proof.Machine

/-! ### A store whose turn to perform has come -/

section
variable {s : State} {p : PendingStore} {i : Nat}

/-- A store that nothing in flight comes before can perform. -/
theorem keptAfter_eq_false (hi : s.pending[i]? = some p) (hbefore : ∀ q ∈ s.pending.take i, q.before p = false)
    (hthrough : ∀ q ∈ s.pending.eraseIdx i, q.throughStore p = false) (hstays : s.stays p = false) (n : Nat) : (s.keptAfter n)[i]? = some false := by
  cases n with
  | zero => simp [State.keptAfter, hi, hstays]
  | succ n =>
    have hnone : (((s.pending.zip (s.keptAfter n)).zipIdx).any fun ((q, b), j) =>
        b && decide (j ≠ i) && (q.throughStore p || (decide (j < i) && q.before p))) = false := by
      rw [List.any_eq_false]
      rintro ⟨⟨q, b⟩, j⟩ hmem
      have hq : s.pending[j]? = some q := (List.getElem?_zip_eq_some.1 (List.mem_zipIdx_iff_getElem?.1 hmem)).1
      dsimp only
      by_cases hji : j = i
      · simp [hji]
      · have herase : q ∈ s.pending.eraseIdx i := List.mem_eraseIdx_iff_getElem?.2 ⟨j, hji, hq⟩
        rw [hthrough q herase]
        by_cases hlt : j < i
        · rw [hbefore q (List.mem_iff_getElem?.2 ⟨j, by rw [List.getElem?_take, if_pos hlt]; exact hq⟩)]
          simp
        · simp [hlt]
    simp only [State.keptAfter, State.keptRound, List.getElem?_map, List.getElem?_zipIdx, hi, Option.map_some, Nat.zero_add, hstays, Bool.false_or]
    exact congrArg some hnone

theorem kept_getElem_snd (hi : s.pending[i]? = some p) (hbefore : ∀ q ∈ s.pending.take i, q.before p = false)
    (hthrough : ∀ q ∈ s.pending.eraseIdx i, q.throughStore p = false) (hstays : s.stays p = false) : (s.kept[i]?).any Prod.snd = false := by
  unfold State.kept
  split
  · rw [(List.getElem?_zip_eq_some (z := (p, false))).2 ⟨hi, keptAfter_eq_false hi hbefore hthrough hstays _⟩]
    rfl
  · rw [List.getElem?_map, hi]
    rfl

end

/-! ### Poison that a store covers whole -/

section
variable {s : State} {p : PendingStore}

theorem cellPoisoned_unpoison_self (s : State) (c : Cell) : (s.unpoison c).cellPoisoned c = false := by
  cases c with
  | sector x =>
    simp only [State.unpoison, State.cellPoisoned, State.soundSector, State.sectorPoisoned, Bool.or_eq_false_iff]
    refine ⟨by simp [delNum], List.any_eq_false.2 fun w hw => ?_⟩
    simpa using (List.mem_filter.1 hw).2
  | word x => simp [State.unpoison, State.cellPoisoned, delNum]

theorem cellPoisoned_of_unpoison {c d : Cell} (hd : (s.unpoison c).cellPoisoned d = true) : s.cellPoisoned d = true := by
  cases c with
  | sector x =>
    cases d with
    | sector y =>
      simp only [State.unpoison, State.cellPoisoned, State.soundSector, State.sectorPoisoned, Bool.or_eq_true, List.contains_iff_mem, delNum,
        List.mem_filter, List.any_eq_true] at hd ⊢
      rcases hd with ⟨hmem, -⟩ | ⟨w, ⟨hw, -⟩, he⟩
      · exact .inl hmem
      · exact .inr ⟨w, hw, he⟩
    | word y => exact hd
  | word x =>
    cases d with
    | sector y => exact hd
    | word y =>
      simp only [State.unpoison, State.cellPoisoned, delNum, List.contains_iff_mem, List.mem_filter] at hd ⊢
      exact hd.1

/-- What clearing one cell does: it loses its poison, or nothing changes. -/
def State.clearCell (s : State) (p : PendingStore) (c : Cell) : State :=
  let mine (v : Cover) : Bool := decide (v.slot = p.slot) && decide (v.stream = p.stream) && decide (v.cell = c)
  if cellBits p.bytes c = c.full ∨ ((s.cover.any fun v => mine v && v.mask == c.full) ∧
      (s.pending.any fun q => q.of p.slot p.stream && cellBits q.bytes c != 0) = false) then
    { s.unpoison c with cover := s.cover.filter fun v => !mine v }
  else s

theorem clearBy_eq (s : State) (p : PendingStore) : s.clearBy p = (s.poisonedCells p.bytes).foldl (·.clearCell p) s := rfl

theorem cellPoisoned_of_clearCell {c d : Cell} (hd : (s.clearCell p c).cellPoisoned d = true) : s.cellPoisoned d = true := by
  unfold State.clearCell at hd
  dsimp only at hd
  split at hd
  · exact cellPoisoned_of_unpoison (c := c) (by cases d <;> exact hd)
  · exact hd

theorem cellPoisoned_of_foldl_clearCell {l : List Cell} {d : Cell} (hd : (l.foldl (·.clearCell p) s).cellPoisoned d = true) : s.cellPoisoned d = true := by
  induction l generalizing s with
  | nil => exact hd
  | cons c l ih => exact cellPoisoned_of_clearCell (ih hd)

theorem cellPoisoned_clearCell_self {c : Cell} (hc : cellBits p.bytes c = c.full) : (s.clearCell p c).cellPoisoned c = false := by
  unfold State.clearCell
  dsimp only
  rw [if_pos (.inl hc)]
  have hu := cellPoisoned_unpoison_self s c
  cases c <;> exact hu

/-- A cell that a store writes whole is poisoned no more (R140, R382). -/
theorem cellPoisoned_clearBy {c : Cell} (hc : cellBits p.bytes c = c.full) (hmem : ∃ b ∈ p.bytes, b.cell.map Prod.fst = some c) :
    (s.clearBy p).cellPoisoned c = false := by
  rw [clearBy_eq]
  by_contra hpoison
  rw [Bool.not_eq_false] at hpoison
  have hin : c ∈ s.poisonedCells p.bytes := by
    obtain ⟨b, hb, hcell⟩ := hmem
    obtain ⟨x, hx, rfl⟩ := Option.map_eq_some_iff.1 hcell
    refine List.mem_filter.2 ⟨List.mem_eraseDups.2 (List.mem_map_of_mem (List.mem_filterMap.2 ⟨b, hb, hx⟩)), ?_⟩
    exact cellPoisoned_of_foldl_clearCell hpoison
  obtain ⟨pre, post, hsplit⟩ := List.append_of_mem hin
  rw [hsplit, List.foldl_append, List.foldl_cons] at hpoison
  have hself := cellPoisoned_of_foldl_clearCell hpoison
  rw [cellPoisoned_clearCell_self hc] at hself
  exact Bool.false_ne_true hself

/-- Clearing changes nothing but poison and what covers it. -/
theorem clearBy_fields (s : State) (p : PendingStore) : (s.clearBy p).mem = s.mem ∧ (s.clearBy p).ls = s.ls ∧ (s.clearBy p).pending = s.pending := by
  have hstep (t : State) (c : Cell) : (t.clearCell p c).mem = t.mem ∧ (t.clearCell p c).ls = t.ls ∧ (t.clearCell p c).pending = t.pending := by
    unfold State.clearCell
    dsimp only
    split
    · cases c <;> exact ⟨rfl, rfl, rfl⟩
    · exact ⟨rfl, rfl, rfl⟩
  exact foldl_keeps (P := fun t => t.mem = s.mem ∧ t.ls = s.ls ∧ t.pending = s.pending) (fun t c ht => by
    obtain ⟨hm, hl, hp⟩ := hstep t c
    obtain ⟨hm', hl', hp'⟩ := ht
    exact ⟨hm.trans hm', hl.trans hl', hp.trans hp'⟩) _ s ⟨rfl, rfl, rfl⟩

/-- The bits of a cell that the n bytes from its start write. -/
theorem cellBits_range (c : Cell) (byte : Nat → StoreByte) (n : Nat) (hb : ∀ i, i < n → (byte i).cell = some (c, 255 * 2 ^ (8 * i))) :
    cellBits ((List.range n).map byte) c = 2 ^ (8 * n) - 1 := by
  induction n with
  | zero => rfl
  | succ n ih =>
    have hrest := ih fun i hi => hb i (Nat.lt_succ_of_lt hi)
    rw [cellBits] at hrest
    rw [cellBits, List.range_succ, List.map_append, List.foldl_append, hrest]
    simp only [List.map_cons, List.map_nil, List.foldl_cons, List.foldl_nil, hb n (Nat.lt_succ_self n), if_true]
    have hpos : 0 < 2 ^ (8 * n) := Nat.two_pow_pos _
    rw [Nat.or_comm, Nat.mul_comm, ← Nat.two_pow_add_eq_or_of_lt (by omega), show 8 * (n + 1) = 8 * n + 8 by omega, Nat.pow_add]
    omega

end

/-! ### Stores that perform in memory -/

section
variable {s : State} {key : Nat}

/-- A state with all that writing readable sectors changes left out. -/
def State.besideWrites (s : State) : State := { s with mem := [], sectorKey := [], cores := Vector.replicate 64 .start }

theorem readable_put {sec x : Nat} {k : BitVec 512} (hk : s.keyOf key = some k) (hx : s.sectorReadable key x = true) (m : Memory) :
    State.sectorReadable { s with mem := m, sectorKey := SMap.put s.sectorKey sec k } key x = true := by
  unfold State.sectorReadable at hx ⊢
  rw [Bool.and_eq_true] at hx ⊢
  refine ⟨hx.1, ?_⟩
  by_cases hxs : x = sec
  · rw [hxs, SMap.get?_put_self]
    exact beq_iff_eq.2 hk
  · rw [SMap.get?_put_ne _ _ hxs]
    exact hx.2

/-- A byte in a readable sector performs (R163). -/
theorem run_performByte_pa {p : PendingStore} {a : Nat} (v : Byte) (hr : s.sectorReadable p.key (a / 32) = true) :
    ∃ t, performByte p { loc := .pa a, val := v, mask := 0xFF } s = .ok () t ∧ t.mem = s.mem.write a v ∧ t.besideWrites = s.besideWrites ∧
      ∀ x, s.sectorReadable p.key x = true → t.sectorReadable p.key x = true := by
  have habsent : s.absent (a / 32) = false := by
    rw [State.sectorReadable, Bool.and_eq_true, Bool.not_eq_true'] at hr
    exact hr.1
  have hdrop (u : State) : ∃ t, (if p.drops then dropL1 (coreOfSlot p.slot) (a / 32) else pure () : M Unit) u = .ok () t ∧ t.mem = u.mem ∧
      t.besideWrites = u.besideWrites ∧ ∀ x, u.sectorReadable p.key x = true → t.sectorReadable p.key x = true := by
    split
    · refine ⟨_, rfl, ?_, ?_, ?_⟩ <;> (unfold State.modCore; split)
      · rfl
      · rfl
      · rfl
      · rfl
      · exact fun _ hx => hx
      · exact fun _ hx => hx
    · exact ⟨u, rfl, rfl, rfl, fun _ hx => hx⟩
  cases hk : s.keyOf p.key with
  | none =>
    obtain ⟨t, ht, hmem, hbeside, hread⟩ := hdrop { s with mem := s.mem.write a v }
    refine ⟨t, ?_, hmem, hbeside, hread⟩
    have hlose : loseAbsent (a / 32) { s with mem := s.mem.write a v } = .ok () { s with mem := s.mem.write a v } := by
      simp only [loseAbsent, run_bind, run_get]
      rw [show State.absent { s with mem := s.mem.write a v } (a / 32) = false from habsent]
      rfl
    simp only [performByte, writeStoreByte, claimSector, run_bind, run_get, hk, run_pure, run_modify, maskByte_full, hlose, ht]
  | some k =>
    obtain ⟨t, ht, hmem, hbeside, hread⟩ := hdrop { s with mem := s.mem.write a v, sectorKey := SMap.put s.sectorKey (a / 32) k }
    refine ⟨t, ?_, hmem, hbeside, fun x hx => hread x (readable_put hk hx _)⟩
    have hlose : loseAbsent (a / 32) { s with mem := s.mem.write a v, sectorKey := SMap.put s.sectorKey (a / 32) k } =
        .ok () { s with mem := s.mem.write a v, sectorKey := SMap.put s.sectorKey (a / 32) k } := by
      simp only [loseAbsent, run_bind, run_get]
      rw [show State.absent { s with mem := s.mem.write a v, sectorKey := SMap.put s.sectorKey (a / 32) k } (a / 32) = false from habsent]
      rfl
    simp only [performByte, writeStoreByte, claimSector, run_bind, run_get, hk, hr, if_true, run_set, run_modify, maskByte_full, hlose, ht]

theorem run_each_performByte_pa (p : PendingStore) (a : Nat) (val : Nat → Byte) (i n : Nat) (s : State)
    (hr : ∀ j, i ≤ j → j < i + n → s.sectorReadable p.key ((a + j) / 32) = true) :
    ∃ t, each ((List.range' i n).map fun j => ({ loc := .pa (a + j), val := val j, mask := 0xFF } : StoreByte)) (performByte p) s = .ok () t ∧
      t.mem = writtenBytes s.mem a val i n ∧ t.besideWrites = s.besideWrites := by
  induction n generalizing i s with
  | zero => exact ⟨s, rfl, rfl, rfl⟩
  | succ n ih =>
    obtain ⟨u, hu, hmem, hbeside, hread⟩ := run_performByte_pa (val i) (hr i le_rfl (by omega))
    obtain ⟨t, ht, hmem', hbeside'⟩ := ih (i + 1) u fun j hj hlt => hread _ (hr j (by omega) (by omega))
    refine ⟨t, ?_, ?_, hbeside'.trans hbeside⟩
    · rw [List.range'_succ, List.map_cons, each, run_bind, hu]
      exact ht
    · rw [hmem', hmem, writtenBytes, writtenBytes, List.range'_succ, List.foldl_cons]

theorem peer_of_pa {p : PendingStore} {a n v : Nat} (hb : p.bytes = storeBytes (.pa a) n v (fullMask n)) : p.peer = none := by
  rw [PendingStore.peer, hb, List.findSome?_eq_none_iff]
  intro b hmem
  obtain ⟨i, -, rfl⟩ := List.mem_map.1 hmem
  rfl

/-- A store of n bytes to readable sectors of memory performs (R161, R163). -/
theorem run_performRaw_pa {p : PendingStore} {a n v : Nat} (hb : p.bytes = storeBytes (.pa a) n v (fullMask n)) {s : State}
    (hr : ∀ x ∈ sectorsOf a n, s.sectorReadable p.key x = true) :
    ∃ t : State, performRaw p s = .ok () (((t.clearBy p).stripsDue p).noteHits p) ∧
      t.mem = writtenBytes s.mem a (fun j => BitVec.ofNat 8 (v / 2 ^ (8 * j))) 0 n ∧ t.besideWrites = s.besideWrites := by
  have hbytes : p.bytes = (List.range' 0 n).map fun j => { loc := .pa (a + j), val := BitVec.ofNat 8 (v / 2 ^ (8 * j)), mask := 0xFF } := by
    rw [hb, storeBytes_full, List.range_eq_range']
    rfl
  obtain ⟨t, hwrite, hmem, hbeside⟩ := run_each_performByte_pa p a (fun j => BitVec.ofNat 8 (v / 2 ^ (8 * j))) 0 n s fun j _ hj => hr _ (by
    rw [sectorsOf, List.mem_map]
    exact ⟨(a + j) / 32 - a / 32, List.mem_range.2 (by omega), by omega⟩)
  rw [← hbytes] at hwrite
  refine ⟨t, ?_, hmem, hbeside⟩
  simp only [performRaw_eq, run_bind, hwrite, run_modify, leave, peer_of_pa hb, run_pure]

end

/-! ### The event in which a store performs -/

/-- The stores that stay in flight when one performs: the earlier strips of its stream come before what its core's harts access next (R165). -/
def State.pendingAfter (s : State) (i : Nat) (p : PendingStore) : List PendingStore :=
  (s.pending.eraseIdx i).map fun q => if q.of p.slot p.stream = true ∧ q.strip < p.strip then q.dueAt .core else q

theorem exec_storePerform_of_turn {s : State} {p : PendingStore} (hyes : s.curEv.yes = false) (hp : s.pending[s.curEv.a]? = some p)
    (hbefore : ∀ q ∈ s.pending.take s.curEv.a, q.before p = false) (hthrough : ∀ q ∈ s.pending.eraseIdx s.curEv.a, q.throughStore p = false)
    (hpeer : p.peer = none) {t : State} (hrun : performRaw p { s with pending := s.pending.eraseIdx s.curEv.a } = .ok () t) :
    exec .storePerform s = .next t := by
  have hstays : s.stays p = false := by rw [State.stays, hpeer]
  have hfirst : ((s.pending.take s.curEv.a).any fun q => q.before p) = false :=
    List.any_eq_false.2 fun q hq => by rw [hbefore q hq]; exact Bool.false_ne_true
  have hkept := kept_getElem_snd hp hbefore hthrough hstays
  have hperform := run_perform_of_none (s := { s with pending := s.pending.eraseIdx s.curEv.a }) hthrough s.pending.length
  apply event_ok
  simp only [run_bind, run_get, hyes, Bool.false_eq_true, if_false, hp, hfirst, hkept, Bool.or_self, run_set, hperform, hrun]

/-- The cell that a store of a whole word of the local store writes is whole (R382). -/
theorem cellBits_word {p : PendingStore} {core off v : Nat} (hb : p.bytes = storeBytes (.ls core off) 8 v (fullMask 8)) (hal : off % 8 = 0) :
    cellBits p.bytes (.word (lsIndex core off / 8)) = Cell.full (.word (lsIndex core off / 8)) := by
  rw [hb, storeBytes_full]
  refine cellBits_range _ _ 8 fun i hi => ?_
  have hindex : lsIndex core (off + i) / 8 = lsIndex core off / 8 := by unfold lsIndex; omega
  simp only [Loc.add, StoreByte.cell, hindex, show (off + i) % 8 = i by omega]
  rfl

theorem writes_word {p : PendingStore} {core off v : Nat} (hb : p.bytes = storeBytes (.ls core off) 8 v (fullMask 8)) :
    ∃ b ∈ p.bytes, b.cell.map Prod.fst = some (.word (lsIndex core off / 8)) := by
  rw [hb, storeBytes_full]
  exact ⟨_, List.mem_map_of_mem (List.mem_range.2 (by decide : 0 < 8)), rfl⟩

/-- The cell that a store of a whole sector writes is whole (R382). -/
theorem cellBits_sector {p : PendingStore} {a v : Nat} (hb : p.bytes = storeBytes (.pa a) 32 v (fullMask 32)) (hal : a % 32 = 0) :
    cellBits p.bytes (.sector (a / 32)) = Cell.full (.sector (a / 32)) := by
  rw [hb, storeBytes_full]
  refine cellBits_range _ _ 32 fun i hi => ?_
  simp only [Loc.add, StoreByte.cell, show (a + i) / 32 = a / 32 by omega, show (a + i) % 32 = i by omega]
  rfl

theorem writes_sector {p : PendingStore} {a v : Nat} (hb : p.bytes = storeBytes (.pa a) 32 v (fullMask 32)) :
    ∃ b ∈ p.bytes, b.cell.map Prod.fst = some (.sector (a / 32)) := by
  rw [hb, storeBytes_full]
  exact ⟨_, List.mem_map_of_mem (List.mem_range.2 (by decide : 0 < 32)), rfl⟩

/-- Settles O23: the store's bytes go to their home one by one, and its cells that it writes whole are cleared. -/
theorem storesPerformAtTheirHome : Obligations.StoresPerformAtTheirHome := by
  unfold Obligations.StoresPerformAtTheirHome
  intro s p n v hyes hp hbefore hthrough
  refine ⟨?_, ?_⟩
  · intro core off hb
    have hrun := run_performRaw_ls hb { s with pending := s.pending.eraseIdx s.curEv.a }
    have hexec := exec_storePerform_of_turn hyes hp hbefore hthrough (peer_of_ls hb) hrun
    obtain ⟨hharts, -, -⟩ := harts_of_outer ((keeps_performRaw (outer_closed s.outer) p).ok hrun rfl)
    obtain ⟨hmem, hls, hpend⟩ := clearBy_fields { s with
      pending := s.pending.eraseIdx s.curEv.a
      ls := writtenBytes s.ls (lsIndex core off) (fun j => BitVec.ofNat 8 (v / 2 ^ (8 * j))) 0 n } p
    refine ⟨_, hexec, congrArg (List.map _) hpend, hmem, hharts, fun i hi => ?_, ?_, fun x hx => ?_⟩
    · refine (congrArg (Memory.read · _) hls).trans ((read_writtenBytes _ _ _ _ _ _).trans ?_)
      rw [if_pos (by omega), Nat.add_sub_cancel_left]
    · rintro rfl hal hmem
      have hclear := cellPoisoned_clearBy (s := { s with
        pending := s.pending.eraseIdx s.curEv.a
        ls := writtenBytes s.ls (lsIndex core off) (fun j => BitVec.ofNat 8 (v / 2 ^ (8 * j))) 0 8 }) (cellBits_word hb hal) (writes_word hb)
      exact Bool.false_ne_true (hclear.symm.trans (List.contains_iff_mem.2 hmem))
    · refine (congrArg (Memory.read · _) hls).trans ((read_writtenBytes _ _ _ _ _ _).trans (if_neg (by omega)))
  · intro a hb hr
    obtain ⟨t, hrun, hmem, hbeside⟩ := run_performRaw_pa hb (s := { s with pending := s.pending.eraseIdx s.curEv.a }) hr
    have hexec := exec_storePerform_of_turn hyes hp hbefore hthrough (peer_of_pa hb) hrun
    obtain ⟨hharts, -, -⟩ := harts_of_outer ((keeps_performRaw (outer_closed s.outer) p).ok hrun rfl)
    obtain ⟨hmem', hls', hpend'⟩ := clearBy_fields t p
    have hpend : t.pending = s.pending.eraseIdx s.curEv.a := by have e := congrArg State.pending hbeside; exact e
    have hls : t.ls = s.ls := by have e := congrArg State.ls hbeside; exact e
    refine ⟨_, hexec, congrArg (List.map _) (hpend'.trans hpend), hls'.trans hls, hharts, fun i hi => ?_, ?_, fun x hx => ?_⟩
    · refine (congrArg (Memory.read · _) (hmem'.trans hmem)).trans ((read_writtenBytes _ _ _ _ _ _).trans ?_)
      rw [if_pos (by omega), Nat.add_sub_cancel_left]
    · rintro rfl hal
      have hclear := cellPoisoned_clearBy (s := t) (cellBits_sector hb hal) (writes_sector hb)
      rw [State.cellPoisoned, State.sectorPoisoned, Bool.or_eq_false_iff] at hclear
      refine ⟨fun hmem => Bool.false_ne_true (hclear.1.symm.trans (List.contains_iff_mem.2 hmem)), fun w hw he => ?_⟩
      exact List.any_eq_false.1 hclear.2 w hw (beq_iff_eq.2 he)
    · exact (congrArg (Memory.read · _) (hmem'.trans hmem)).trans ((read_writtenBytes _ _ _ _ _ _).trans (if_neg (by omega)))

end Sys2Proof.Machine
end

section
/-! Atomics (R20, R139, R155 to R157, R167, R171). -/

namespace Sys2Proof.Machine

/-! ### What an atomic computes -/

/-- The new value of each operation, over the integers that its operands read as (R155). -/
theorem result_eq (op : AmoOp) {w old b : Nat} (e : Nat) (hw : 0 < w) (hold : old < 2 ^ w) (hb : b < 2 ^ w) :
    op.result w old b e = match op with
      | .read => none
      | .add => some ((old + b) % 2 ^ w)
      | .swap => some b
      | .max => some (if (if 2 ^ (w - 1) ≤ old then (old : Int) - 2 ^ w else old) < (if 2 ^ (w - 1) ≤ b then (b : Int) - 2 ^ w else b) then b else old)
      | .min => some (if (if 2 ^ (w - 1) ≤ b then (b : Int) - 2 ^ w else b) < (if 2 ^ (w - 1) ≤ old then (old : Int) - 2 ^ w else old) then b else old)
      | .maxN => some (max old b)
      | .minN => some (min old b)
      | .and => some (old &&& b)
      | .or => some (old ||| b)
      | .cas => if old = e then some b else none := by
  cases op <;> simp only [AmoOp.result, signedOf_of_lt hw hold, signedOf_of_lt hw hb]

/-- What an atomic writes fits its width. -/
theorem result_lt {op : AmoOp} {w old b e new : Nat} (hold : old < 2 ^ w) (hb : b < 2 ^ w) (hr : op.result w old b e = some new) : new < 2 ^ w := by
  have hite {c : Prop} [Decidable c] {x y : Nat} (hx : x < 2 ^ w) (hy : y < 2 ^ w) : (if c then x else y) < 2 ^ w := by split <;> assumption
  cases op with
  | read => exact nomatch hr
  | add => cases hr; exact Nat.mod_lt _ (Nat.two_pow_pos w)
  | swap => cases hr; exact hb
  | max => cases hr; exact hite hb hold
  | min => cases hr; exact hite hb hold
  | maxN => cases hr; exact Nat.max_lt.2 ⟨hold, hb⟩
  | minN => cases hr; exact Nat.lt_of_le_of_lt (Nat.min_le_left _ _) hold
  | and => cases hr; exact Nat.and_lt_two_pow _ hb
  | or => cases hr; exact Nat.or_lt_two_pow hold hb
  | cas =>
    simp only [AmoOp.result] at hr
    split at hr
    · cases hr; exact hb
    · exact nomatch hr

/-- Each of the atomics is `atomicForm` of its operation, and its new value is the operation's. -/
theorem atomicForms_spec (sc : BScope) (o : Order) (dw : Bool) (rd rb ra : SReg) : ∀ f ∈ atomicForms sc o dw rd rb ra,
    (∀ s, exec f.1 s = issue (atomicForm sc o dw rd rb ra f.2.1) s) ∧
      ∀ old b e, old < 2 ^ (if dw then 64 else 32) → b < 2 ^ (if dw then 64 else 32) → f.2.2 old b e = f.2.1.result (if dw then 64 else 32) old b e := by
  have hw : 0 < (if dw then 64 else 32) := by cases dw <;> decide
  simp only [atomicForms, List.forall_mem_cons, List.not_mem_nil, false_imp_iff, implies_true, and_true]
  refine ⟨⟨fun _ => rfl, fun old b e hold hb => ?_⟩, ⟨fun _ => rfl, fun old b e hold hb => ?_⟩, ⟨fun _ => rfl, fun old b e hold hb => ?_⟩,
    ⟨fun _ => rfl, fun old b e hold hb => ?_⟩, ⟨fun _ => rfl, fun old b e hold hb => ?_⟩, ⟨fun _ => rfl, fun old b e hold hb => ?_⟩,
    ⟨fun _ => rfl, fun old b e hold hb => ?_⟩, ⟨fun _ => rfl, fun old b e hold hb => ?_⟩, ⟨fun _ => rfl, fun old b e hold hb => ?_⟩⟩
  · split <;> rfl
  · rfl
  · simp only [result_eq _ _ hw hold hb, Nat.mod_eq_of_lt hold, Nat.mod_eq_of_lt hb]
  · simp only [result_eq _ _ hw hold hb, Nat.mod_eq_of_lt hold, Nat.mod_eq_of_lt hb]
  · rfl
  · rfl
  · rfl
  · split <;> rfl
  · rfl

theorem bitsOf_zero (x n : Nat) : bitsOf x 0 n = x % 2 ^ n := rfl

/-! ### Holding and ordering -/

section
variable {P : State → Prop}

/-- Settling keeps what the memory operations and the marks of the cutter forms cannot break. -/
theorem keeps_settle (hP : MemClosed P) (hcut : ∀ s x, P s → P { s with cutMarks := x }) (st : StreamId) (sc : Scope) : Keeps P (settle st sc) := by
  have hgetHart : Keeps P getHart := keeps_bind keeps_get fun s => by
    split
    · exact keeps_pure _
    · exact keeps_throw _
  have hengines : Keeps P (settleEngines st) := keeps_bind hgetHart fun h => keeps_bind keeps_get fun s =>
    keeps_ite (fun _ => keeps_waitFor _) fun _ => keeps_ite (fun _ => keeps_waitFor _) fun _ => keeps_pure ()
  refine keeps_bind hengines fun _ => keeps_bind hgetHart fun h => keeps_bind (keeps_modify fun s hs => ?_) fun _ => keeps_ite (fun _ => ?_) fun _ => ?_
  · cases st
    · exact hcut s _ hs
    · exact hs
  · exact keeps_bind (keeps_drain hP _) fun _ => keeps_bind keeps_get fun s => keeps_ite (fun _ => keeps_throw _) fun _ => keeps_pure ()
  · exact keeps_modify fun s hs => hP.pending s _ hs

end

/-- The harts and who issues, which the accesses of an instruction leave as they are. -/
def State.sameIssue (s t : State) : Prop := t.harts = s.harts ∧ t.curSlot = s.curSlot ∧ t.curStream = s.curStream

theorem sameIssue_closed (s : State) : MemClosed s.sameIssue where
  mem _ _ _ h := h
  ls _ _ _ h := h
  poison _ _ h := h
  slicePoison _ _ h := h
  lsPoison _ _ h := h
  sectorKey _ _ h := h
  cores _ _ h := h
  pending _ _ h := h
  held _ _ h := h
  cover _ _ h := h
  lost _ _ h := h
  hits _ _ h := h
  spilled _ _ h := h
  voltor _ _ h := h
  freeCtr _ _ h := h
  oldFrames _ _ h := h
  taken _ _ h := h
  badTaken _ _ h := h
  spoiled _ _ h := h

theorem State.sameIssue.hart_eq {s t : State} (h : s.sameIssue t) : t.hart = s.hart := by
  obtain ⟨hharts, hslot, -⟩ := h
  rw [State.hart, State.hart, hharts, hslot]

theorem free_read {s : State} {h : Hart} {va : Word64} {n : Nat} (hf : s.free h va n true) (write : Bool) : s.free h va n write := by
  cases write with
  | true => exact hf
  | false =>
    obtain ⟨ht, hheld, hopen⟩ := hf
    refine ⟨fun t hmem => ?_, ?_, ?_⟩
    · have hc := ht t hmem
      simp only [Transfer.conflicts, Bool.or_true, Bool.and_true, Bool.true_and, Bool.or_eq_false_iff, List.any_eq_false] at hc
      simp only [Transfer.conflicts, Bool.or_false, Bool.false_and, List.any_eq_false]
      intro r hr
      have := hc.1 r hr
      simp_all
    · simp only [State.heldOn, Bool.or_true, Bool.and_true, List.any_eq_false, Bool.and_eq_true, not_and] at hheld
      simp only [State.heldOn, Bool.or_false, List.any_eq_false, Bool.and_eq_true, not_and]
      intro w hw hslot hlines
      refine hheld w hw hslot ?_
      obtain ⟨r, hr, hmeet⟩ := List.any_eq_true.1 hlines
      rw [List.any_eq_true]
      exact ⟨r, hr, (Bool.and_eq_true _ _ ▸ hmeet).1⟩
    · unfold Hart.opened at hopen ⊢
      cases ho : h.openA with
      | none => rfl
      | some w => rw [ho] at hopen; simp at hopen

/-! ### An atomic on the local store -/

section
variable {s : State} {h : Hart} {va : Word64} {n core off : Nat}

theorem undisturbed_of_none (hp : s.pending = []) (hheld : s.held = []) : s.undisturbed h := by
  constructor
  · rw [hp]
    exact fun p hp => nomatch hp
  · rw [hheld]
    exact fun w hw => nomatch hw

theorem pending_stripsDue {s : State} (hp : s.pending = []) (p : PendingStore) : ((s.stripsDue p).noteHits p).pending = [] := by
  simp only [State.noteHits, State.stripsDue, hp, List.map_nil]

/-- A store to the local store performs as it issues, where none is in flight (R163). -/
theorem run_performNow_ls (hp : s.pending = []) {a : Actor} {p : PendingStore} {v : Nat} (hv : v < 2 ^ (8 * n))
    (hb : p.bytes = storeBytes (.ls core off) n v (fullMask n)) : ∃ t, a.performNow (.ls core off) n p s = .ok () t ∧
      t.ls.readLE (lsIndex core off) n = v ∧ t.mem = s.mem ∧ t.pending = [] ∧
      ∀ x, (x < lsIndex core off ∨ lsIndex core off + n ≤ x) → t.ls.read x = s.ls.read x := by
  have hnone {f : PendingStore → Bool} : ∀ q ∈ s.pending, f q = false := by rw [hp]; exact fun q hq => nomatch hq
  have hblocks : s.blocks p = false := keeps_of_none hnone
  have hstays : s.stays p = false := by rw [State.stays, peer_of_ls hb]
  have hperform : perform s.pending.length p s = performRaw p s := by rw [hp]; rfl
  obtain ⟨hmem, hls, hpend⟩ := clearBy_fields { s with ls := writtenBytes s.ls (lsIndex core off) (fun j => BitVec.ofNat 8 (v / 2 ^ (8 * j))) 0 n } p
  have hnow : a.performNow (.ls core off) n p s = performRaw p s := by
    simp only [Actor.performNow, Actor.drainBefore, run_bind, run_drain_of_none hnone, peer_of_ls hb, run_get, hblocks, hstays,
      Bool.false_eq_true, if_false, hperform]
  refine ⟨_, hnow.trans (run_performRaw_ls hb s), ?_, hmem, pending_stripsDue (hpend.trans hp) p, fun x hx => ?_⟩
  · refine (readLE_of_bytes (v := v) fun i hi => ?_).trans (Nat.mod_eq_of_lt hv)
    refine (congrArg (Memory.read · _) hls).trans ((read_writtenBytes _ _ _ _ _ _).trans ?_)
    rw [if_pos (by omega), Nat.add_sub_cancel_left]
  · exact (congrArg (Memory.read · _) hls).trans ((read_writtenBytes _ _ _ _ _ _).trans (if_neg (by omega)))

/-- What an indivisible access finds in the local store, with no store in flight (R155). -/
theorem run_readHome_local (hp : s.pending = []) (hsound : s.lsPoisoned core off n = false) (hspill : s.inSpill (s.actor h s.curStream) va n = false) :
    (s.actor h s.curStream).readHome { loc := .ls core off, key := 0, path := [], overlay := false, garbled := false } va n s =
      .ok (s.ls.readLE (lsIndex core off) n) s := by
  have hnone (a : Actor) (l : Loc) : ∀ q ∈ s.pending, a.earlier l n q = false := by rw [hp]; exact fun q hq => nomatch hq
  have hpoison : Place.poisoned { loc := .ls core off, key := 0, path := [], overlay := false, garbled := false } s n = false := hsound
  simp only [Actor.readHome, run_bind, run_meetOwn_of_none (hnone _ _), run_get, hpoison, hspill, Bool.or_self, Bool.false_eq_true,
    if_false, Actor.reachPeer, run_pure, loadLoc]

/-- An atomic on the local store, with no store in flight: the old value, and the new one in its place (R155, R171). -/
theorem run_atomic_local (hp : s.pending = []) (hheld : s.held = []) (hl : s.localPlace h va n core off) (hsound : s.lsPoisoned core off n = false)
    (hspill : s.inSpill (s.actor h s.curStream) va n = false) (op : AmoOp) {b : Nat} (hb : b < 2 ^ (8 * n)) (e : Nat) :
    ∃ t, (s.actor h s.curStream).atomic va n op b e s = .ok (s.ls.readLE (lsIndex core off) n) t ∧
      t.ls.readLE (lsIndex core off) n = (op.result (8 * n) (s.ls.readLE (lsIndex core off) n) b e).getD (s.ls.readLE (lsIndex core off) n) ∧
      t.mem = s.mem ∧ t.pending = [] ∧ ∀ x, (x < lsIndex core off ∨ lsIndex core off + n ≤ x) → t.ls.read x = s.ls.read x := by
  have hu : s.undisturbed h := undisturbed_of_none hp hheld
  have hread := run_readHome_local hp hsound hspill
  cases hr : op.result (8 * n) (s.ls.readLE (lsIndex core off) n) b e with
  | none =>
    refine ⟨s, ?_, rfl, rfl, hp, fun _ _ => rfl⟩
    simp only [Actor.atomic, run_bind, run_place_local hu hl, hread, hr, run_pure]
  | some new =>
    obtain ⟨t, hrun, hls, hmem, hpend, hrest⟩ := run_performNow_ls (a := s.actor h s.curStream) hp (result_lt (readLE_lt _ _ _) hb hr)
      (p := (s.actor h s.curStream).storeOf { loc := .ls core off, key := 0, path := [], overlay := false, garbled := false } n new (fullMask n)) rfl
    refine ⟨t, ?_, hls, hmem, hpend, hrest⟩
    have hdrops : (s.actor h s.curStream).drops = true := rfl
    have hdrop : dropOwn (s.actor h s.curStream).slot (.ls core off) n s = .ok () s := rfl
    have hnote (p : PendingStore) : (s.actor h s.curStream).note p s = .ok () s := rfl
    simp only [Actor.atomic, run_bind, run_place_local hu hl, hread]
    simp only [hr]
    by_cases hc : op = .cas
    · simp only [if_pos hc, run_bind, run_place_local hu hl, hdrops, if_true, hdrop, hnote, hrun, run_pure]
    · simp only [if_neg hc, run_bind, hdrops, if_true, hdrop, hnote, hrun, run_pure]

end

/-! ### Holding an atomic in S1 -/

section
variable {s s1 s2 : State}

theorem run_holdAtomic_s2 (hl : s.level = .s2) (a : Actor) (va : Word64) (n b e : Nat) (op : AmoOp) (as : HoldAs) :
    a.holdAtomic va n op b e as s = .ok false s := by
  simp only [Actor.holdAtomic, run_bind, run_get, hl, if_true, run_pure]

theorem run_holdAtomic (hl : s.level ≠ .s2) {a : Actor} {va : Word64} {n : Nat} {op : AmoOp} {p : Place} (ho : a.observe s = .ok () s1)
    (hf : a.find op.kind va n (some false) true s1 = .ok p s2) (b e : Nat) (as : HoldAs) :
    a.holdAtomic va n op b e as s = if as.fab || p.loc.isPeer then
        .ok true { s2 with held := s2.held ++ [{
          slot := a.slot, stream := a.stream, regs := as.regs, acquires := as.acquires, releases := as.releases
          loc := p.loc, len := n, after := (SMap.get? s.harts a.slot).elim [] fun h => h.inFlight a.stream, work := .atomic va n op b e, born := s.nextId
          lines := [{ lo := va.toNat / 256, hi := (va.toNat + n - 1) / 256, write := decide (op ≠ .read) }] }] }
      else .ok false s2 := by
  simp only [Actor.holdAtomic, run_bind, run_get, hl, if_false, ho, hf]
  split
  · simp only [run_bind, run_modify, run_pure]
  · exact run_pure _ _

theorem isPeer_iff (l : Loc) : l.isPeer = true ↔ ∃ f o, l = .peer f o := by
  cases l <;> simp [Loc.isPeer]

end

/-! ### The atomic forms -/

section
variable {s s0 s1 s2 : State} {h : Hart} {rd rb ra : SReg} {sc : BScope} {o : Order} {dw : Bool} {op : AmoOp}

theorem issue_atomic_misaligned (hh : s.hart = some h) (hal : (h.sreg s.curStream ra).toNat % (if dw then 8 else 4) ≠ 0) :
    issue (atomicForm sc o dw rd rb ra op) s = .next (s.trapped 0x08 (h.sreg s.curStream ra) 0) := by
  apply issue_eq_trapped (s' := s)
  simp only [atomicForm, run_bind, run_rS, hh, run_misaligned hal]

/-- An atomic of an aligned address that meets no transfer, up to the question whether S1 holds it. -/
theorem run_atomicForm (hh : s.hart = some h) (hal : (h.sreg s.curStream ra).toNat % (if dw then 8 else 4) = 0)
    (hf : s.free h (h.sreg s.curStream ra) (if dw then 8 else 4) true) {held : Bool}
    (hheld : (s.actor h s.curStream).holdAtomic (h.sreg s.curStream ra) (if dw then 8 else 4) op
      ((h.sreg s.curStream rb).toNat % 2 ^ (8 * if dw then 8 else 4)) ((h.sreg s.curStream rd).toNat % 2 ^ (8 * if dw then 8 else 4))
      { fab := decide (sc = .fab), regs := [.s rd.val], acquires := Order.acquires o, releases := Order.releases o } s = .ok held s0) :
    atomicForm sc o dw rd rb ra op s = (do
      let old ← if held then freeBytes (if dw then 8 else 4) else ordered o (BScope.scope sc) ((s.actor h s.curStream).atomic (h.sreg s.curStream ra)
        (if dw then 8 else 4) op ((h.sreg s.curStream rb).toNat % 2 ^ (8 * if dw then 8 else 4))
        ((h.sreg s.curStream rd).toNat % 2 ^ (8 * if dw then 8 else 4)))
      wS rd (oldValue dw old)
      retire) s0 := by
  simp only [atomicForm, run_bind, run_rS, hh, run_aligned hal, run_interlock_free hh (free_read hf _), run_actor hh, bitsOf_zero, hheld]

theorem BScope.scope_eq_wideScope (sc : BScope) : BScope.scope sc = wideScope sc := by cases sc <;> rfl

/-- An ordered access: what a release comes after, the access, and the refresh of an acquire (R157, R167). -/
theorem run_ordered {α : Type} {x : M α} {v : α} {sc : Scope}
    (hset : if Order.releases o then settle s0.curStream sc s0 = .ok () s1 else s1 = s0) (hx : x s1 = .ok v s2) (hh : s2.hart = some h) :
    ordered o sc x s0 = .ok v (if Order.acquires o then
      (s2.putHart (h.refreshed s0.curStream s2.tick)).modCore (coreOfSlot s2.curSlot) Core.refetching else s2) := by
  have hlast : (do
      let v ← x
      if Order.acquires o then refreshPoint s0.curStream else pure ()
      pure v) s1 = .ok v (if Order.acquires o then
        (s2.putHart (h.refreshed s0.curStream s2.tick)).modCore (coreOfSlot s2.curSlot) Core.refetching else s2) := by
    by_cases ha : Order.acquires o = true
    · simp only [run_bind, hx, if_pos ha, run_refreshPoint hh, run_pure]
    · simp only [run_bind, hx, if_neg ha, run_pure]
  by_cases hr : Order.releases o = true
  · rw [if_pos hr] at hset
    simpa only [ordered, run_bind, run_curStream, if_pos hr, hset] using hlast
  · rw [if_neg hr] at hset
    subst hset
    simpa only [ordered, run_bind, run_curStream, if_neg hr, run_pure] using hlast

@[simp] theorem pc_setS (h : Hart) (st su : StreamId) (r : SReg) (v : Word64) : (h.setS st r v).pc su = h.pc su := by
  unfold Hart.setS
  split
  · rfl
  · cases st <;> cases su <;> rfl

theorem sreg_setS_refreshed (h : Hart) (st : StreamId) (k : Nat) (r q : SReg) (v : Word64) :
    ((h.refreshed st k).setS st r v).sreg st q = (h.setS st r v).sreg st q := by
  unfold Hart.setS
  split <;> cases st <;> rfl

@[simp] theorem pc_refreshed (h : Hart) (st su : StreamId) (k : Nat) : (h.refreshed st k).pc su = h.pc su := by cases st <;> cases su <;> rfl

/-- A hart whose scalar register takes the old value of an atomic: it has moved on, and its other registers are as they were. -/
theorem hart_afterAtomic (hh : s2.hart = some h) (st : StreamId) (acquires : Bool) (r : SReg) (v : Word64) {t : State}
    (ht : t = if acquires then (s2.putHart (h.refreshed st s2.tick)).modCore (coreOfSlot s2.curSlot) Core.refetching else s2) :
    ∃ g, t.hart = some g ∧ (acquires = false → t = s2 ∧ g = h) ∧ t.curStream = s2.curStream ∧ t.mem = s2.mem ∧ t.ls = s2.ls ∧
      g.pc st = h.pc st ∧ ∀ q, (g.setS st r v).sreg st q = (h.setS st r v).sreg st q := by
  subst ht
  cases acquires with
  | false => exact ⟨h, hh, fun _ => ⟨rfl, rfl⟩, rfl, rfl, rfl, rfl, fun _ => rfl⟩
  | true =>
    refine ⟨h.refreshed st s2.tick, ?_, fun hc => (Bool.noConfusion hc), ?_, ?_, ?_, pc_refreshed _ _ _ _, fun q => sreg_setS_refreshed _ _ _ _ _ _⟩
    · rw [if_pos rfl, hart_modCore, hart_putHart]
    · rw [if_pos rfl, modCore_curStream, putHart_curStream]
    · simp
    · simp

/-- An atomic that S1 does not hold: it retires with the old value in sd, after what its order puts first (R155, R157). -/
theorem issue_atomic (hh : s.hart = some h) (hal : (h.sreg s.curStream ra).toNat % (if dw then 8 else 4) = 0)
    (hf : s.free h (h.sreg s.curStream ra) (if dw then 8 else 4) true) {old : Nat}
    (hheld : (s.actor h s.curStream).holdAtomic (h.sreg s.curStream ra) (if dw then 8 else 4) op
      ((h.sreg s.curStream rb).toNat % 2 ^ (8 * if dw then 8 else 4)) ((h.sreg s.curStream rd).toNat % 2 ^ (8 * if dw then 8 else 4))
      { fab := decide (sc = .fab), regs := [.s rd.val], acquires := Order.acquires o, releases := Order.releases o } s = .ok false s0)
    (hset : if Order.releases o then settle s.curStream (wideScope sc) s0 = .ok () s1 else s1 = s0)
    (hx : (s.actor h s.curStream).atomic (h.sreg s.curStream ra) (if dw then 8 else 4) op
      ((h.sreg s.curStream rb).toNat % 2 ^ (8 * if dw then 8 else 4)) ((h.sreg s.curStream rd).toNat % 2 ^ (8 * if dw then 8 else 4)) s1 = .ok old s2) :
    ∃ (t : State) (g : Hart), issue (atomicForm sc o dw rd rb ra op) s = .next (t.retired (g.setS s.curStream rd (oldValue dw old))) ∧
      (Order.acquires o = false → t = s2 ∧ g = h) ∧ t.curStream = s.curStream ∧ t.mem = s2.mem ∧ t.ls = s2.ls ∧ g.pc s.curStream = h.pc s.curStream ∧
      ∀ q, (g.setS s.curStream rd (oldValue dw old)).sreg s.curStream q = (h.setS s.curStream rd (oldValue dw old)).sreg s.curStream q := by
  have h0 : s.sameIssue s0 := (keeps_holdAtomic (sameIssue_closed s) _ _ _ _ _ _ _).ok hheld ⟨rfl, rfl, rfl⟩
  have h1 : s.sameIssue s1 := by
    split at hset
    · exact (keeps_settle (sameIssue_closed s) (fun _ _ ht => ht) _ _).ok hset h0
    · rw [hset]; exact h0
  have h2 : s.sameIssue s2 := (keeps_atomic (sameIssue_closed s) _ _ _ _ _ _).ok hx h1
  have hst0 : s0.curStream = s.curStream := h0.2.2
  have hst2 : s2.curStream = s.curStream := h2.2.2
  rw [← hst0, ← BScope.scope_eq_wideScope] at hset
  have hrun := run_ordered hset hx (h2.hart_eq.trans hh)
  rw [hst0] at hrun
  obtain ⟨g, hg, hplain, hst, hmem, hls, hpc, hreg⟩ := hart_afterAtomic (h2.hart_eq.trans hh) s.curStream (Order.acquires o) rd (oldValue dw old) rfl
  refine ⟨_, g, ?_, hplain, hst.trans hst2, hmem, hls, hpc, hreg⟩
  apply issue_eq_retired
  rw [run_atomicForm hh hal hf hheld]
  simp only [run_bind, Bool.false_eq_true, if_false, hrun, run_wS, run_retire, hg, hart_putHart, putHart_putHart, putHart_curStream, hst.trans hst2]

/-- An atomic that S1 holds: it retires, and sd has a free value until then (R20, log 27). -/
theorem issue_atomic_held (hh : s.hart = some h) (hal : (h.sreg s.curStream ra).toNat % (if dw then 8 else 4) = 0)
    (hf : s.free h (h.sreg s.curStream ra) (if dw then 8 else 4) true)
    (hheld : (s.actor h s.curStream).holdAtomic (h.sreg s.curStream ra) (if dw then 8 else 4) op
      ((h.sreg s.curStream rb).toNat % 2 ^ (8 * if dw then 8 else 4)) ((h.sreg s.curStream rd).toNat % 2 ^ (8 * if dw then 8 else 4))
      { fab := decide (sc = .fab), regs := [.s rd.val], acquires := Order.acquires o, releases := Order.releases o } s = .ok true s0) :
    ∃ v, issue (atomicForm sc o dw rd rb ra op) s = .next (State.retired { s0 with freeCtr := s0.freeCtr + 1 } (h.setS s.curStream rd v)) := by
  obtain ⟨hharts, hslot, hst⟩ : s.sameIssue s0 := (keeps_holdAtomic (sameIssue_closed s) _ _ _ _ _ _ _).ok hheld ⟨rfl, rfl, rfl⟩
  obtain ⟨t, ht⟩ : ∃ t : State, t = { s0 with freeCtr := s0.freeCtr + 1 } := ⟨_, rfl⟩
  have hht : t.hart = some h := by rw [ht, ← hh, State.hart, State.hart, ← hharts, ← hslot]
  have hstt : t.curStream = s.curStream := by rw [ht, ← hst]
  refine ⟨oldValue dw (Config.freeNumber s0.freeCtr % 2 ^ (8 * if dw then 8 else 4)), issue_eq_retired ?_⟩
  rw [run_atomicForm hh hal hf hheld]
  simp only [run_bind, if_true, freeBytes, run_get, run_set, run_pure, ← ht, run_wS, run_retire, hht, hart_putHart, putHart_putHart,
    putHart_curStream, hstt]
  rw [hst]

end

/-- An access to the local store is not held in S1, but at `.fab` scope (R20). -/
theorem run_holdAtomic_local {s : State} {h : Hart} {va : Word64} {n core off : Nat} (hu : s.undisturbed h) (hl : s.localPlace h va n core off)
    {as : HoldAs} (hfab : as.fab = false ∨ s.level = .s2) (op : AmoOp) (b e : Nat) :
    (s.actor h s.curStream).holdAtomic va n op b e as s = .ok false s := by
  by_cases hs2 : s.level = .s2
  · exact run_holdAtomic_s2 hs2 _ _ _ _ _ _ _
  · rw [run_holdAtomic hs2 (run_observe_of_undisturbed hu) (run_find_local hl _ _ _ _), hfab.resolve_right hs2]
    rfl

theorem atomicWidth_eq (dw : Bool) : (if dw then 64 else 32) = 8 * (if dw then 8 else 4) := by cases dw <;> rfl

theorem oldValue_eq {dw : Bool} {old : Nat} (hold : old < 2 ^ (if dw then 64 else 32)) :
    oldValue dw old = if dw then BitVec.ofNat 64 old else BitVec.ofInt 64 (if 2 ^ 31 ≤ old then (old : Int) - 2 ^ 32 else old) := by
  cases dw with
  | true => rfl
  | false => rw [oldValue, if_neg Bool.false_ne_true, if_neg Bool.false_ne_true, signedOf_of_lt (n := 32) (by decide) hold]

/-- The clause of O25 about the local store. -/
theorem atomic_local_clause {s : State} {h : Hart} {sc : BScope} {dw : Bool} {rd rb ra : SReg} {core off : Nat} (hh : s.hart = some h)
    (hsc : sc ≠ .fab ∨ s.level = .s2) (hp : s.pending = []) (hheld : s.held = []) (hal : (h.sreg s.curStream ra).toNat % (if dw then 8 else 4) = 0)
    (hf : s.free h (h.sreg s.curStream ra) (if dw then 8 else 4) true) (hl : s.localPlace h (h.sreg s.curStream ra) (if dw then 8 else 4) core off)
    (hsound : s.lsPoisoned core off (if dw then 8 else 4) = false)
    (hspill : s.inSpill (s.actor h s.curStream) (h.sreg s.curStream ra) (if dw then 8 else 4) = false) (op : AmoOp) :
    ∃ t, issue (atomicForm sc .none dw rd rb ra op) s = .next t ∧
      t.hart = some ((h.setS s.curStream rd (oldValue dw (s.ls.readLE (lsIndex core off) (if dw then 8 else 4)))).advance s.curStream).stirred ∧
      t.ls.readLE (lsIndex core off) (if dw then 8 else 4) = (op.result (8 * if dw then 8 else 4) (s.ls.readLE (lsIndex core off) (if dw then 8 else 4))
        ((h.sreg s.curStream rb).toNat % 2 ^ (8 * if dw then 8 else 4)) ((h.sreg s.curStream rd).toNat % 2 ^ (8 * if dw then 8 else 4))).getD
          (s.ls.readLE (lsIndex core off) (if dw then 8 else 4)) ∧ t.mem = s.mem ∧ t.pending = [] ∧
      ∀ x, (x < lsIndex core off ∨ lsIndex core off + (if dw then 8 else 4) ≤ x) → t.ls.read x = s.ls.read x := by
  have hu : s.undisturbed h := undisturbed_of_none hp hheld
  have hfab : (decide (sc = .fab)) = false ∨ s.level = .s2 := hsc.imp_left fun hc => decide_eq_false hc
  obtain ⟨s2, hx, hls, hmem, hpend, hrest⟩ := run_atomic_local hp hheld hl hsound hspill op
    (Nat.mod_lt (h.sreg s.curStream rb).toNat (Nat.two_pow_pos (8 * if dw then 8 else 4)))
    ((h.sreg s.curStream rd).toNat % 2 ^ (8 * if dw then 8 else 4))
  obtain ⟨t, g, hrun, hplain, hst, -⟩ := issue_atomic (o := .none) (sc := sc) (rd := rd) (rb := rb) hh hal hf
    (run_holdAtomic_local hu hl hfab op _ _) (s1 := s) rfl hx
  obtain ⟨rfl, rfl⟩ := hplain rfl
  exact ⟨_, hrun, (hart_putHart _ _).trans (by rw [hst]), hls, hmem, hpend, hrest⟩

/-- Settles O25. -/
theorem atomicsExchange : Obligations.AtomicsExchange := by
  unfold Obligations.AtomicsExchange
  refine ⟨?_, ?_, ?_, ?_⟩
  · intro s h sc dw rd rb ra core off hh hsc hp hheld n va b e old hal hf hl hsound hspill f hmem
    obtain ⟨hexec, hres⟩ := atomicForms_spec sc .none dw rd rb ra f hmem
    obtain ⟨t, hrun, hhart, hls, hrest⟩ := atomic_local_clause (rd := rd) (rb := rb) hh hsc hp hheld hal hf hl hsound hspill f.2.1
    have hold : old < 2 ^ (8 * n) := readLE_lt _ _ _
    have hb : b < 2 ^ (8 * n) := Nat.mod_lt _ (Nat.two_pow_pos _)
    rw [← atomicWidth_eq] at hold hb
    refine ⟨t, (hexec s).trans hrun, ?_, ?_, hrest⟩
    · rw [hhart, oldValue_eq hold]
    · rw [hres old b e hold hb, atomicWidth_eq]
      exact hls
  · intro s s0 s1 s2 h sc o dw held rd rb ra old hh n va b e x a f hmem
    obtain ⟨hexec, -⟩ := atomicForms_spec sc o dw rd rb ra f hmem
    rw [hexec]
    refine ⟨issue_atomic_misaligned hh, fun hal hf hheld => ⟨?_, ?_⟩⟩
    · rintro rfl
      obtain ⟨v, hrun⟩ := issue_atomic_held hh hal hf hheld
      obtain ⟨-, -, hst⟩ : s.sameIssue s0 := (keeps_holdAtomic (sameIssue_closed s) _ _ _ _ _ _ _).ok hheld ⟨rfl, rfl, rfl⟩
      exact ⟨v, _, hrun, rfl, rfl, rfl, (hart_putHart _ _).trans (by rw [hst])⟩
    · rintro rfl hset hx
      have hset' : if Order.releases o then settle s.curStream (wideScope sc) s0 = .ok () s1 else s1 = s0 := by
        simpa only [Order.releases, decide_eq_true_eq] using hset
      obtain ⟨t, g, hrun, -, hst, hmem, hls, hpc, hreg⟩ := issue_atomic hh hal hf hheld hset' hx
      refine ⟨_, _, hrun, hmem, hls, hart_putHart _ _, ?_, fun r => ?_⟩
      · rw [hst]
        exact ((pc_advance _ _).trans (by rw [pc_setS, hpc]))
      · rw [hst, sreg_stirred, sreg_advance]
        exact hreg r
  · intro s a va n b e op as
    refine ⟨fun hl => run_holdAtomic_s2 hl a va n b e op as, fun s1 s2 p hl ho hfind => ?_⟩
    have hrun := run_holdAtomic hl ho hfind b e as
    refine ⟨fun hfab hloc => ?_, fun hc => ?_⟩
    · have hpeer : p.loc.isPeer = false := Bool.eq_false_iff.2 fun ht => by
        obtain ⟨f, o, h⟩ := (isPeer_iff _).1 ht
        exact hloc f o h
      rw [hrun, hfab, hpeer]
      rfl
    · have hhold : (as.fab || p.loc.isPeer) = true := by
        rw [Bool.or_eq_true, isPeer_iff]
        exact hc
      rw [hrun, if_pos hhold]
      exact ⟨_, _, rfl, rfl, rfl, rfl, rfl, rfl, rfl, rfl, rfl⟩
  · intro op w old b e hw hold hb
    have hpos : 0 < w := by rcases hw with rfl | rfl <;> decide
    exact result_eq op e hpos hold hb

end Sys2Proof.Machine
end

section
/-! Vector loads and stores, segments and scales (R138, R139, R144 to R148, R154). -/

namespace Sys2Proof.Machine

/-! ### Elements of resumable forms -/

/-- No other stream has asked the issuing one to stop between its elements (R148, R259). -/
def State.unstopped (s : State) : Prop := s.curStop = none

theorem unstopped_closed : MemClosed State.unstopped where
  mem _ _ _ h := h
  ls _ _ _ h := h
  poison _ _ h := h
  slicePoison _ _ h := h
  lsPoison _ _ h := h
  sectorKey _ _ h := h
  cores _ _ h := h
  pending _ _ h := h
  held _ _ h := h
  cover _ _ h := h
  lost _ _ h := h
  hits _ _ h := h
  spilled _ _ h := h
  voltor _ _ h := h
  freeCtr _ _ h := h
  oldFrames _ _ h := h
  taken _ _ h := h
  badTaken _ _ h := h
  spoiled _ _ h := h

section
variable {P : State → Prop}

theorem keeps_getHart : Keeps P getHart :=
  keeps_bind keeps_get fun s => by
    split
    · exact keeps_pure _
    · exact keeps_throw _

theorem keeps_curStream : Keeps P curStream := keeps_map _ keeps_get

theorem keeps_curPc : Keeps P curPc := keeps_bind keeps_getHart fun _ => keeps_bind keeps_curStream fun _ => keeps_pure _

theorem keeps_actor : Keeps P actor := keeps_bind keeps_getHart fun _ => keeps_bind keeps_get fun _ => keeps_pure _

theorem keeps_vectorActor : Keeps P vectorActor := keeps_bind keeps_actor fun _ => keeps_bind keeps_curPc fun _ => keeps_pure _

theorem keeps_interlock (va : Word64) (n : Nat) (write : Bool) : Keeps P (interlock va n write) :=
  keeps_bind keeps_getHart fun _ => keeps_bind keeps_get fun _ => keeps_ite (fun _ => keeps_waitFor _) fun _ => keeps_pure ()

end

theorem keeps_modHart_unstopped (f : Hart → Hart) : Keeps State.unstopped (modHart f) := 
  keeps_bind keeps_getHart fun _ => keeps_modify fun _ h => h

theorem keeps_loadElem (fr : Bool) (vd i : Nat) (va : Word64) : Keeps State.unstopped (loadElem fr vd i va) :=
  keeps_bind keeps_getHart fun _ => keeps_bind (keeps_interlock _ _ _) fun _ => keeps_bind keeps_vectorActor fun a =>
    keeps_bind (keeps_load unstopped_closed a _ _ _ _) fun _ => keeps_modHart_unstopped _

theorem keeps_storeElem (vs i : Nat) (va : Word64) : Keeps State.unstopped (storeElem vs i va) :=
  keeps_bind keeps_getHart fun _ => keeps_bind (keeps_interlock _ _ _) fun _ => keeps_bind keeps_vectorActor fun a =>
    keeps_bind (keeps_place unstopped_closed a _ _ _ _ _) fun _ => keeps_bind (keeps_modify fun _ h => h) fun _ =>
      keeps_store unstopped_closed a _ _ _ _

/-- The elements of a resumable form that stops nowhere are its elements in order (R147). -/
theorem run_each_stops {body : Nat → M Unit} (hbody : ∀ i, Keeps State.unstopped (body i)) (opens : Option Bool) (l : List Nat) {s t : State}
    (hs : s.unstopped) (hx : each l body s = .ok () t) : each l (fun i => do
      match ← attempt (do
        stopHere i
        body i) with
      | .ok () => pure ()
      | .error e => stopAt opens i e) s = .ok () t := by
  induction l generalizing s with
  | nil => exact hx
  | cons i l ih =>
    simp only [each, run_bind] at hx ⊢
    cases hr : body i s with
    | error e u => rw [hr] at hx; exact nomatch hx
    | ok a u =>
      rw [hr] at hx
      have hstop : (do stopHere i; body i : M Unit) s = .ok () u := by
        rw [State.unstopped] at hs
        simp only [stopHere, run_bind, run_get, hs, Option.any_none, Bool.false_eq_true, if_false, run_pure, hr]
      simp only [attempt, hstop, run_pure]
      exact ih ((hbody i).ok hr hs) hx

theorem run_resumeFrom {body : Nat → M Unit} (hbody : ∀ i, Keeps State.unstopped (body i)) {s t : State} {h : Hart} (hh : s.hart = some h) (hs : s.unstopped)
    {limit : Nat} {takes : Nat → Bool} (hx : each (((List.range limit).drop (h.resume s.curStream).toNat).filter takes) body s = .ok () t)
    (opens : Option Bool := none) : resumeFrom limit takes body opens s = .ok () t := by
  simp only [resumeFrom, run_bind, run_curStream, run_getHart, hh]
  exact run_keeping_ok (run_each_stops hbody opens _ hs hx)

theorem run_retireResumable {s : State} {h : Hart} (hh : s.hart = some h) :
    retireResumable s = .ok () (s.putHart ((h.setResume s.curStream 0).advance s.curStream)) := by
  simp only [retireResumable, run_bind, run_curStream, run_modHart, hh, run_retire, hart_putHart, putHart_putHart, putHart_curStream]

theorem run_forgetCover {s : State} {h : Hart} (hh : s.hart = some h) : forgetCover s = .ok () (s.stored h s.curStream) := by
  simp only [forgetCover, run_bind, run_curStream, run_curPc, hh, run_modify]
  rfl

theorem run_storesFrom {body : Nat → M Unit} (hbody : ∀ i, Keeps State.unstopped (body i)) {s t : State} {h g : Hart} (hh : s.hart = some h) (hs : s.unstopped)
    {limit : Nat} {takes : Nat → Bool}
    (hx : each (((List.range limit).drop (h.resume s.curStream).toNat).filter takes) body (s.storing h s.curStream) = .ok () t) (hg : t.hart = some g)
    (opens : Option Bool := none) : storesFrom limit takes body opens s = .ok () (t.stored g t.curStream) := by
  obtain ⟨hh', hs', hst⟩ : (s.storing h s.curStream).hart = some h ∧ (s.storing h s.curStream).unstopped ∧
      (s.storing h s.curStream).curStream = s.curStream := by
    unfold State.storing
    split <;> exact ⟨hh, hs, rfl⟩
  have hrun : resumeFrom limit takes body opens (s.storing h s.curStream) = .ok () t :=
    run_resumeFrom hbody hh' hs' (by rw [hst]; exact hx) opens
  by_cases hr : h.resume s.curStream = 0
  · have hstoring : s.storing h s.curStream = s.stored h s.curStream := if_pos hr
    rw [hstoring] at hrun
    simp only [storesFrom, run_bind, run_curStream, run_getHart, hh, if_pos hr, run_forgetCover hh, hrun, run_forgetCover hg]
  · have hstoring : s.storing h s.curStream = s := if_neg hr
    rw [hstoring] at hrun
    simp only [storesFrom, run_bind, run_curStream, run_getHart, hh, if_neg hr, hrun, run_forgetCover hg]

/-! ### Addresses of elements -/

theorem unitAddr_eq (f : Fmt) (base : Word64) (i : Nat) :
    unitAddr f base i = BitVec.ofNat 64 (base.toNat + if f = .b4 then i / 2 else i * max 1 (Fmt.ew f / 8)) := by
  rw [BitVec.ofNat_add, ofNat_toNat_self, unitAddr, esizeOf]
  split <;> rfl

theorem strideAddr_eq (base stride : Word64) (i : Nat) : strideAddr base stride i = BitVec.ofNat 64 (base.toNat + i * stride.toNat) := by
  rw [BitVec.ofNat_add, BitVec.ofNat_mul, ofNat_toNat_self, ofNat_toNat_self, strideAddr]

theorem segAddr_eq (f : Fmt) (base : Word64) (n i k : Nat) :
    segAddr f base n i k = BitVec.ofNat 64 (base.toNat + (n * i + k) * max 1 (Fmt.ew f / 8)) := by
  rw [BitVec.ofNat_add, ofNat_toNat_self, segAddr, esizeOf]

/-- The addresses that a form's elements have, where its base, and its stride, are aligned; else its first misaligned address (R139). -/
def OpsGive (ops : Fmt → M (Nat → Word64)) (s : State) (f : Fmt) (aligned : Bool) (bad : Word64) (addr : Nat → Word64) : Prop :=
  (aligned = true → ops f s = .ok addr s) ∧ (aligned = false → ops f s = .error (.trap 0x08 bad 0 false) s)

theorem opsGive_unitOps {s : State} {x : M Word64} {va : Word64} (hx : x s = .ok va s) (f : Fmt) :
    OpsGive (unitOps x) s f (decide (va.toNat % max 1 (Fmt.ew f / 8) = 0)) va
      fun i => BitVec.ofNat 64 (va.toNat + if f = .b4 then i / 2 else i * max 1 (Fmt.ew f / 8)) := by
  refine ⟨fun ha => ?_, fun ha => ?_⟩
  · rw [← funext (unitAddr_eq f va)]
    simp only [unitOps, run_bind, hx, run_aligned (n := esizeOf f) (of_decide_eq_true ha), run_pure]
  · simp only [unitOps, run_bind, hx, run_misaligned (n := esizeOf f) (of_decide_eq_false ha)]

theorem opsGive_strideOps {s : State} {h : Hart} (hh : s.hart = some h) (hst : s.curStream = .x) (ra rb : SReg) (f : Fmt) :
    OpsGive (strideOps ra rb) s f (decide ((h.sreg .x ra).toNat % max 1 (Fmt.ew f / 8) = 0) && decide ((h.sreg .x rb).toNat % max 1 (Fmt.ew f / 8) = 0))
      (if decide ((h.sreg .x ra).toNat % max 1 (Fmt.ew f / 8) = 0) then h.sreg .x ra + h.sreg .x rb else h.sreg .x ra)
      fun i => BitVec.ofNat 64 ((h.sreg .x ra).toNat + i * (h.sreg .x rb).toNat) := by
  refine ⟨fun ha => ?_, fun ha => ?_⟩
  · obtain ⟨h1, h2⟩ := Bool.and_eq_true _ _ ▸ ha
    rw [← funext (strideAddr_eq _ _)]
    simp only [strideOps, alignedStride, run_bind, run_rS, hh, hst, run_aligned (n := esizeOf f) (of_decide_eq_true h1),
      if_pos (of_decide_eq_true h2 : _ % esizeOf f = 0), run_pure]
  · by_cases h1 : (h.sreg .x ra).toNat % esizeOf f = 0
    · have h2 : ¬(h.sreg .x rb).toNat % esizeOf f = 0 := by
        rw [esizeOf] at h1 ⊢
        simpa [h1] using ha
      simp only [strideOps, alignedStride, run_bind, run_rS, hh, hst, run_aligned h1, if_neg h2, run_trap]
      rw [esizeOf] at h1
      simp [h1]
    · simp only [strideOps, alignedStride, run_bind, run_rS, hh, hst, run_misaligned h1]
      rw [esizeOf] at h1
      simp [h1]

/-! ### Vector loads and stores -/

section
variable {s s1 s2 : State} {h g : Hart} {unit ok : Bool} {bad : Word64} {addr : Nat → Word64} {ops : Fmt → M (Nat → Word64)} {r : Named}

theorem run_memIssue (ho : s.opens (fun x => unit || decide (x ≠ .b4)) r s1 h) : memIssue unit r s = .ok h s1 := vectorIssue_ok ho

/-- The elements of a resumable form of the execute stream, up to what is left to do after them (R147). -/
theorem run_resumeFrom_toTake {body : Nat → M Unit} (hbody : ∀ i, Keeps State.unstopped (body i)) (hh : s1.hart = some h) (hst : s1.curStream = .x)
    (hs : s1.unstopped) (hx : each h.toTake body s1 = .ok () s2) : resumeFrom h.vl.toNat h.activeAt body none s1 = .ok () s2 :=
  run_resumeFrom hbody hh hs (by rw [hst]; exact hx) none

theorem run_storesFrom_toTake {body : Nat → M Unit} (hbody : ∀ i, Keeps State.unstopped (body i)) (hh : s1.hart = some h) (hst : s1.curStream = .x)
    (hs : s1.unstopped) (hx : each h.toTake body (s1.storing h .x) = .ok () s2) (hg : s2.hart = some g) (hst2 : s2.curStream = .x) :
    storesFrom h.vl.toNat h.activeAt body none s1 = .ok () (s2.stored g .x) := by
  have hrun := run_storesFrom hbody hh hs (limit := h.vl.toNat) (takes := h.activeAt) (by rw [hst]; exact hx) hg none
  rwa [hst2] at hrun

theorem issue_vectorLoad {fr : Bool} {vd : VRegNo} (ho : s.opens (fun x => unit || decide (x ≠ .b4)) { vw := [vd.val] } s1 h)
    (hops : OpsGive ops s1 h.fmt ok bad addr) :
    (h.vl = 0 → issue (vectorLoad fr vd unit ops) s = .next (s1.retired (h.setResume .x 0))) ∧
    (h.vl ≠ 0 → ok = false → issue (vectorLoad fr vd unit ops) s = .next (s.trapped 0x08 bad 0)) ∧
    (h.vl ≠ 0 → ok = true → s1.curStop = none → each h.toTake (fun i => loadElem fr vd.val i (addr i)) s1 = .ok () s2 → s2.hart = some g →
      s2.curStream = .x → issue (vectorLoad fr vd unit ops) s = .next (s2.retired ((g.setV vd (g.vbitsOf vd) g.fmt).setResume .x 0))) := by
  have hh := hart_of_opens ho
  have hst := curStream_of_opens ho
  refine ⟨fun h0 => ?_, fun h0 hbad => ?_, fun h0 hok hs hx hg hst2 => ?_⟩
  · apply issue_eq_retired
    simp only [vectorLoad, run_bind, run_memIssue ho, if_pos h0, run_retireResumable hh, hst]
  · apply issue_eq_trapped (s' := s1)
    simp only [vectorLoad, run_bind, run_memIssue ho, if_neg h0, hops.2 hbad]
  · apply issue_eq_retired
    simp only [vectorLoad, run_bind, run_memIssue ho, if_neg h0, hops.1 hok, run_resumeFrom_toTake (fun i => keeps_loadElem fr vd.val i (addr i)) hh hst hs hx,
      run_modHart, hg, run_retireResumable (hart_putHart _ _), putHart_curStream, hst2, putHart_putHart]

theorem issue_vectorStore {vs : VRegNo} (ho : s.opens (fun x => unit || decide (x ≠ .b4)) { vs := [vs.val] } s1 h)
    (hops : OpsGive ops s1 h.fmt ok bad addr) :
    (h.vl = 0 → issue (vectorStore vs unit ops) s = .next (s1.retired (h.setResume .x 0))) ∧
    (h.vl ≠ 0 → ok = false → issue (vectorStore vs unit ops) s = .next (s.trapped 0x08 bad 0)) ∧
    (h.vl ≠ 0 → ok = true → s1.curStop = none → each h.toTake (fun i => storeElem vs.val i (addr i)) (s1.storing h .x) = .ok () s2 →
      s2.hart = some g → s2.curStream = .x →
      issue (vectorStore vs unit ops) s = .next ((s2.stored g .x).retired (g.setResume .x 0))) := by
  have hh := hart_of_opens ho
  have hst := curStream_of_opens ho
  refine ⟨fun h0 => ?_, fun h0 hbad => ?_, fun h0 hok hs hx hg hst2 => ?_⟩
  · apply issue_eq_retired
    simp only [vectorStore, run_bind, run_memIssue ho, if_pos h0, run_retireResumable hh, hst]
  · apply issue_eq_trapped (s' := s1)
    simp only [vectorStore, run_bind, run_memIssue ho, if_neg h0, hops.2 hbad]
  · have hg' : (s2.stored g .x).hart = some g := hg
    have hst' : (s2.stored g .x).curStream = .x := hst2
    apply issue_eq_retired
    simp only [vectorStore, run_bind, run_memIssue ho, if_neg h0, hops.1 hok,
      run_storesFrom_toTake (fun i => keeps_storeElem vs.val i (addr i)) hh hst hs hx hg hst2, run_retireResumable hg', hst']

end

/-- The addresses that the three vector loads, or stores, of one register give (R138, R139, R144). -/
theorem vectorLoadForms_ops {s : State} {h : Hart} (hh : s.hart = some h) (hst : s.curStream = .x) (ra rb : SReg) (disp : BitVec 9) :
    OpsGive (unitOps (addrMd ra disp)) s h.fmt (decide ((h.addrMd .x ra disp).toNat % max 1 (Fmt.ew h.fmt / 8) = 0)) (h.addrMd .x ra disp)
      (fun i => BitVec.ofNat 64 ((h.addrMd .x ra disp).toNat + if h.fmt = .b4 then i / 2 else i * max 1 (Fmt.ew h.fmt / 8))) ∧
    OpsGive (unitOps (addrMx ra rb)) s h.fmt (decide ((h.addrMx .x ra rb).toNat % max 1 (Fmt.ew h.fmt / 8) = 0)) (h.addrMx .x ra rb)
      (fun i => BitVec.ofNat 64 ((h.addrMx .x ra rb).toNat + if h.fmt = .b4 then i / 2 else i * max 1 (Fmt.ew h.fmt / 8))) := by
  refine ⟨opsGive_unitOps ?_ _, opsGive_unitOps ?_ _⟩
  · rw [run_addrMd hh, hst]
  · rw [run_addrMx hh, hst]

/-- Settles O34. -/
theorem vectorLoadsComplete : Obligations.VectorLoadsComplete := by
  unfold Obligations.VectorLoadsComplete
  intro s s1 s2 h g vd ra rb disp fr f hf ho
  have hh := hart_of_opens ho
  have hst := curStream_of_opens ho
  obtain ⟨hmd, hmx⟩ := vectorLoadForms_ops hh hst ra rb disp
  simp only [vectorLoadForms, List.mem_cons, List.not_mem_nil, or_false] at hf
  rcases hf with rfl | rfl | rfl
  · exact issue_vectorLoad ho hmd
  · exact issue_vectorLoad ho hmx
  · exact issue_vectorLoad ho (opsGive_strideOps hh hst ra rb _)

/-- Settles O36. -/
theorem vectorStoresComplete : Obligations.VectorStoresComplete := by
  unfold Obligations.VectorStoresComplete
  intro s s1 s2 h g vs ra rb disp f hf ho
  have hh := hart_of_opens ho
  have hst := curStream_of_opens ho
  obtain ⟨hmd, hmx⟩ := vectorLoadForms_ops hh hst ra rb disp
  simp only [vectorStoreForms, vectorLoadForms, List.zip_cons_cons, List.zip_nil_right, List.map_cons, List.map_nil, List.mem_cons, List.not_mem_nil,
    or_false] at hf
  rcases hf with rfl | rfl | rfl
  · exact issue_vectorStore ho hmd
  · exact issue_vectorStore ho hmx
  · exact issue_vectorStore ho (opsGive_strideOps hh hst ra rb _)

/-! ### Segments and scales -/

section
variable {s s1 s2 : State} {h g : Hart} {n : Nat} {v : VRegNo} {addr : M Word64} {base : Word64}

theorem issue_segmentLoad (ho : s.opens (fun x => decide (x ≠ .b4)) { vw := groupOf v.val n } s1 h) (ha : addr s1 = .ok base s1) :
    (h.vl = 0 → issue (segmentLoad n v addr) s = .next (s1.retired (h.setResume .x 0))) ∧
    (h.vl ≠ 0 → base.toNat % max 1 (Fmt.ew h.fmt / 8) ≠ 0 → issue (segmentLoad n v addr) s = .next (s.trapped 0x08 base 0)) ∧
    (h.vl ≠ 0 → base.toNat % max 1 (Fmt.ew h.fmt / 8) = 0 → s1.curStop = none → s2.hart = some g → s2.curStream = .x →
      each h.toTake (fun i => each (List.range n) fun k => loadElem false (v.val + k) i
        (BitVec.ofNat 64 (base.toNat + (n * i + k) * max 1 (Fmt.ew h.fmt / 8)))) s1 = .ok () s2 →
      issue (segmentLoad n v addr) s = .next (s2.retired
        (((List.range n).foldl (fun x k => x.setV (v.val + k) (x.vbitsOf (v.val + k)) x.fmt) g).setResume .x 0))) := by
  have hh := hart_of_opens ho
  have hst := curStream_of_opens ho
  refine ⟨fun h0 => ?_, fun h0 hbad => ?_, fun h0 hok hs hg hst2 hx => ?_⟩
  · apply issue_eq_retired
    simp only [segmentLoad, run_bind, run_memIssue (unit := false) ho, if_pos h0, run_retireResumable hh, hst]
  · apply issue_eq_trapped (s' := s1)
    simp only [segmentLoad, run_bind, run_memIssue (unit := false) ho, if_neg h0, ha, run_misaligned (n := esizeOf h.fmt) hbad]
  · simp only [← segAddr_eq] at hx
    apply issue_eq_retired
    simp only [segmentLoad, run_bind, run_memIssue (unit := false) ho, if_neg h0, ha, run_aligned (n := esizeOf h.fmt) hok,
      run_resumeFrom_toTake (fun i => keeps_each (fun k => keeps_loadElem false (v.val + k) i _) _) hh hst hs hx,
      run_modHart, hg, run_retireResumable (hart_putHart _ _), putHart_curStream, hst2, putHart_putHart]

theorem issue_segmentStore (ho : s.opens (fun x => decide (x ≠ .b4)) { vs := groupOf v.val n } s1 h) (ha : addr s1 = .ok base s1) :
    (h.vl = 0 → issue (segmentStore n v addr) s = .next (s1.retired (h.setResume .x 0))) ∧
    (h.vl ≠ 0 → base.toNat % max 1 (Fmt.ew h.fmt / 8) ≠ 0 → issue (segmentStore n v addr) s = .next (s.trapped 0x08 base 0)) ∧
    (h.vl ≠ 0 → base.toNat % max 1 (Fmt.ew h.fmt / 8) = 0 → s1.curStop = none → s2.hart = some g → s2.curStream = .x →
      each h.toTake (fun i => each (List.range n) fun k => storeElem (v.val + k) i
        (BitVec.ofNat 64 (base.toNat + (n * i + k) * max 1 (Fmt.ew h.fmt / 8)))) (s1.storing h .x) = .ok () s2 →
      issue (segmentStore n v addr) s = .next ((s2.stored g .x).retired (g.setResume .x 0))) := by
  have hh := hart_of_opens ho
  have hst := curStream_of_opens ho
  refine ⟨fun h0 => ?_, fun h0 hbad => ?_, fun h0 hok hs hg hst2 hx => ?_⟩
  · apply issue_eq_retired
    simp only [segmentStore, run_bind, run_memIssue (unit := false) ho, if_pos h0, run_retireResumable hh, hst]
  · apply issue_eq_trapped (s' := s1)
    simp only [segmentStore, run_bind, run_memIssue (unit := false) ho, if_neg h0, ha, run_misaligned (n := esizeOf h.fmt) hbad]
  · simp only [← segAddr_eq] at hx
    have hg' : (s2.stored g .x).hart = some g := hg
    have hst' : (s2.stored g .x).curStream = .x := hst2
    apply issue_eq_retired
    simp only [segmentStore, run_bind, run_memIssue (unit := false) ho, if_neg h0, ha, run_aligned (n := esizeOf h.fmt) hok,
      run_storesFrom_toTake (fun i => keeps_each (fun k => keeps_storeElem (v.val + k) i _) _) hh hst hs hx hg hst2, run_retireResumable hg', hst']

end

/-- The scale byte j of a `ksld` (R154). -/
def scaleByte (kd : KRegNo) (fr : Bool) (base stride : Word64) (j : Nat) : M Unit := do
  let va := BitVec.ofNat 64 (base.toNat + j * stride.toNat)
  interlock va 1 false
  let a ← vectorActor
  let b ← a.load (if fr then .fresh else .plain) va 1
  modHart fun x => { x with k := vput x.k kd.val (putBits (x.k.getD kd.val 0) (8 * j) 8 b) }

theorem keeps_scaleByte (kd : KRegNo) (fr : Bool) (base stride : Word64) (j : Nat) : Keeps State.unstopped (scaleByte kd fr base stride j) :=
  keeps_bind (keeps_interlock _ _ _) fun _ => keeps_bind keeps_vectorActor fun a => keeps_bind (keeps_load unstopped_closed a _ _ _ _) fun _ =>
    keeps_modHart_unstopped _

theorem exec_ksld_scales {s s2 : State} {h g : Hart} (hh : s.hart = some h) (hst : s.curStream = .x) (hl : h.live = true) (hs : s.curStop = none)
    (hg : s2.hart = some g) (hst2 : s2.curStream = .x) (kd : KRegNo) (ra rb : SReg) (fr : Bool)
    (hx : each ((List.range ((h.vl.toNat + vtBl h.vt - 1) / vtBl h.vt)).drop h.resumeX.toNat) (scaleByte kd fr (h.sreg .x ra) (h.sreg .x rb)) s = .ok () s2) :
    exec (.ksld kd ra rb fr) s = .next (s2.retired (g.setResume .x 0)) := by
  have hbody := keeps_scaleByte kd fr (h.sreg .x ra) (h.sreg .x rb)
  have hrun : resumeFrom ((h.vl.toNat + vtBl h.vt - 1) / vtBl h.vt) (fun _ => true) (scaleByte kd fr (h.sreg .x ra) (h.sreg .x rb)) none s = .ok () s2 := by
    refine run_resumeFrom hbody hh hs ?_ none
    rw [hst, List.filter_true]
    exact hx
  have hexec : exec (.ksld kd ra rb fr) s = issue (do
      onlyX
      needLive
      let base ← rS ra
      let stride ← rS rb
      let h ← getHart
      resumeFrom ((h.vl.toNat + vtBl h.vt - 1) / vtBl h.vt) (fun _ => true) (scaleByte kd fr base stride)
      retireResumable) s := by
    unfold scaleByte
    simp only [← strideAddr_eq]
    rfl
  rw [hexec]
  apply issue_eq_retired
  simp only [run_bind, onlyX, run_curStream, hst, if_true, run_pure, needLive, run_getHart, hh, hl, run_rS, hrun, run_retireResumable hg, hst2]

/-- Settles O37. -/
theorem segmentsAndScalesComplete : Obligations.SegmentsAndScalesComplete := by
  unfold Obligations.SegmentsAndScalesComplete
  intro s s1 s2 h g n v kd ra rb disp fr m group size addr noB4
  have hfold (g : Hart) : group.foldl (fun x r => x.setV r (x.vbitsOf r) x.fmt) g =
      (List.range m).foldl (fun x k => x.setV (v.val + k) (x.vbitsOf (v.val + k)) x.fmt) g := List.foldl_map
  refine ⟨fun ho f hf => ?_, fun ho f hf => ?_, fun hh hst hl hs hg hst2 => exec_ksld_scales hh hst hl hs hg hst2 kd ra rb fr⟩
  · have hh := hart_of_opens ho
    have hst := curStream_of_opens ho
    rw [hfold]
    simp only [List.mem_cons, List.not_mem_nil, or_false] at hf
    rcases hf with rfl | rfl
    · exact issue_segmentLoad ho (by rw [run_addrMd hh, hst])
    · exact issue_segmentLoad ho (by rw [run_addrMx hh, hst])
  · have hh := hart_of_opens ho
    have hst := curStream_of_opens ho
    simp only [List.mem_cons, List.not_mem_nil, or_false] at hf
    rcases hf with rfl | rfl
    · exact issue_segmentStore ho (by rw [run_addrMd hh, hst])
    · exact issue_segmentStore ho (by rw [run_addrMx hh, hst])

end Sys2Proof.Machine
end

section
/-! Fault-first loads (R149, R220). -/

namespace Sys2Proof.Machine

/-! ### A walk always answers -/

theorem total_ite {α : Type} {c : Prop} [Decidable c] {x y : M α} (hx : c → Total x) (hy : ¬c → Total y) : Total (if c then x else y) := by
  split
  · exact hx ‹_›
  · exact hy ‹_›

theorem total_hwRead (a n : Nat) : Total (hwRead a n) := total_readPA 0 a n

theorem total_pcbWord (off : Nat) : Total (pcbWord off) := total_bind total_get fun s => by
  split
  · exact total_pure none
  · exact total_bind (total_hwRead _ _) fun _ => total_pure _

theorem total_frameRecAddr (frame : Nat) : Total (frameRecAddr frame) := by
  unfold frameRecAddr
  split
  · exact total_bind (total_pcbWord _) fun _ => total_pure _
  · split
    · exact total_bind (total_pcbWord _) fun _ => total_bind (total_pcbWord _) fun _ => total_pure _
    · exact total_pure none

theorem total_frameRec (frame : Nat) : Total (frameRec frame) := total_bind (total_frameRecAddr frame) fun a => by
  split
  · exact total_pure none
  · exact total_bind (total_hwRead _ _) fun _ => total_pure _

theorem total_frameMapped (frame : Nat) : Total (frameMapped frame) := by
  unfold frameMapped
  split
  · exact total_pure true
  · split
    · exact total_bind (total_pcbWord _) fun n => by split <;> exact total_pure _
    · split <;> exact total_pure _

theorem total_leafValid (l : Leaf) : Total (leafValid l) := by
  unfold leafValid
  refine total_ite (fun _ => ?_) fun _ => total_pure false
  refine total_bind (total_frameMapped _) fun mapped => total_ite (fun _ => ?_) fun _ => total_pure false
  exact total_bind (total_frameRec _) fun r => by split <;> exact total_pure _

theorem total_walkFrom (va : Nat) (levels : List Nat) (table : Nat) (path : List Nat) : Total (walkFrom va levels table path) := by
  induction levels generalizing table path with
  | nil => exact total_pure _
  | cons level rest ih =>
    refine total_bind total_get fun s => ?_
    split
    · exact total_pure _
    · split
      · exact total_pure _
      · refine total_bind (total_hwRead _ _) fun e => ?_
        split
        · exact total_pure _
        · split
          · split
            · exact total_pure _
            · exact ih _ _
          · dsimp only
            split
            · exact total_bind (total_leafValid _) fun _ => total_pure _
            · exact total_pure _

theorem total_walk (root va : Nat) : Total (walk root va) := total_walkFrom _ _ _ _

/-! ### Fault-first forms -/

/-- What a note of a late promotion leaves as it is (R220). -/
def State.besideMoves (s : State) : Memory × Memory × SMap Hart × Nat × StreamId := (s.mem, s.ls, s.harts, s.curSlot, s.curStream)

theorem run_noteLate (a : Actor) (va : Word64) (s : State) : ∃ (u : Unit) (t : State), noteLate a va s = .ok u t ∧ t.besideMoves = s.besideMoves := by
  have htotal : Total (noteLate a va) := total_bind total_get fun s => by
    split
    · exact total_pure ()
    · refine total_bind (total_walk _ _) fun w => ?_
      split
      · exact total_modify _
      · exact total_pure ()
  have hkeeps : Keeps (fun t : State => t.besideMoves = s.besideMoves) (noteLate a va) := keeps_bind keeps_get fun s => by
    split
    · exact keeps_pure ()
    · refine keeps_bind ((readOnly_walk _ _).keeps fun t k ht => ht) fun w => ?_
      split
      · exact keeps_modify fun t ht => ht
      · exact keeps_pure ()
  exact htotal.keeps hkeeps rfl

/-- The element that a fault-first form takes next, or the one at which it has truncated (R149, R215). -/
def faultStep (idx : List Nat) (addrOf : Nat → M Word64) (onTrap : Nat → M Unit) (body : Nat → M Unit) (opens : Option Bool) (cut : Option Nat)
    (i : Nat) : M (Option Nat) := match cut with
  | some k => pure (some k)
  | none => do
    match ← attempt (do
      stopHere i
      body i) with
    | .ok () => pure none
    | .error e =>
      let cuts : Bool := match e with
        | .trap .. => true
        | .wait .move _ => true
        | _ => false
      if cuts && decide (idx.head? ≠ some i) then
        let a ← actor
        match ← attempt (addrOf i) with
        | .ok va => noteLate a va
        | .error _ => pure ()
        pure (some i)
      else
        match e with
        | .trap .. => onTrap i
        | _ => pure ()
        stopAt opens i e

theorem firstFault_eq (limit : Nat) (takes : Nat → Bool) (addrOf : Nat → M Word64) (onTrap : Nat → M Unit) (body : Nat → M Unit) (opens : Option Bool) :
    firstFault limit takes addrOf onTrap body opens = (do
      let st ← curStream
      let h ← getHart
      keeping (eachFold (((List.range limit).drop (h.resume st).toNat).filter takes) none
        (faultStep (((List.range limit).drop (h.resume st).toNat).filter takes) addrOf onTrap body opens))) := rfl

section
variable {s t u : State} {body : Nat → M Unit} {idx : List Nat} {addrOf : Nat → M Word64} {onTrap : Nat → M Unit} {opens : Option Bool}

theorem run_faultStep_ok {i : Nat} (hs : s.unstopped) (hx : body i s = .ok () t) : faultStep idx addrOf onTrap body opens none i s = .ok none t := by
  have hrun : attempt (do stopHere i; body i : M Unit) s = .ok (.ok ()) t := by
    rw [State.unstopped] at hs
    simp only [attempt, stopHere, run_bind, run_get, hs, Option.any_none, Bool.false_eq_true, if_false, run_pure, hx]
  simp only [faultStep, run_bind, hrun, run_pure]

/-- Past the first element, a fault truncates: nothing of the element stands (R149). -/
theorem run_faultStep_trap {i : Nat} {h : Hart} (hs : s.unstopped) (hh : s.hart = some h) {va : Word64} (ha : addrOf i s = .ok va s)
    (hi : idx.head? ≠ some i) {c : BitVec 8} {v : Word64} {b : BitVec 5} {keep : Bool} (hx : body i s = .error (.trap c v b keep) t) :
    ∃ u : State, faultStep idx addrOf onTrap body opens none i s = .ok (some i) u ∧ u.besideMoves = s.besideMoves := by
  have hrun : attempt (do stopHere i; body i : M Unit) s = .ok (.error (.trap c v b keep)) s := by
    rw [State.unstopped] at hs
    simp only [attempt, stopHere, run_bind, run_get, hs, Option.any_none, Bool.false_eq_true, if_false, run_pure, hx]
  have haddr : attempt (addrOf i) s = .ok (.ok va) s := by simp only [attempt, ha]
  obtain ⟨⟨⟩, u, hu, hbeside⟩ := run_noteLate (s.actor h s.curStream) va s
  refine ⟨u, ?_, hbeside⟩
  simp only [faultStep, run_bind, hrun, decide_eq_true hi, Bool.and_self, if_true, run_actor hh, haddr, hu, run_pure]

theorem run_eachFold_cut (k : Nat) (l : List Nat) (s : State) :
    eachFold l (some k) (faultStep idx addrOf onTrap body opens) s = .ok (some k) s := by
  induction l with
  | nil => rfl
  | cons i l ih =>
    simp only [eachFold, run_bind, faultStep, run_pure]
    exact ih

/-- Elements that none of which faults leave what is left of the form to do (R149). -/
theorem run_eachFold_faultStep (hbody : ∀ i, Keeps State.unstopped (body i)) (hs : s.unstopped) {first : List Nat} (rest : List Nat)
    (hx : each first body s = .ok () t) : t.unstopped ∧ eachFold (first ++ rest) none (faultStep idx addrOf onTrap body opens) s =
      eachFold rest none (faultStep idx addrOf onTrap body opens) t := by
  induction first generalizing s with
  | nil =>
    cases hx
    exact ⟨hs, rfl⟩
  | cons i l ih =>
    simp only [each, run_bind] at hx
    cases hr : body i s with
    | error e u => rw [hr] at hx; exact nomatch hx
    | ok a u =>
      rw [hr] at hx
      obtain ⟨ht, hrest⟩ := ih ((hbody i).ok hr hs) hx
      refine ⟨ht, ?_⟩
      simp only [List.cons_append, eachFold, run_bind, run_faultStep_ok hs hr]
      exact hrest

end

theorem nodup_toTake (h : Hart) : h.toTake.Nodup := ((List.nodup_range).sublist (List.drop_sublist _ _)).filter _

section
variable {s s1 s2 s3 : State} {h g : Hart} {vd : VRegNo} {fr : Bool} {addr : Nat → Word64} {ops : Fmt → M (Nat → Word64)}

theorem run_firstFault (hh : s1.hart = some h) (hst : s1.curStream = .x) {addrOf : Nat → M Word64} {onTrap body : Nat → M Unit} {cut : Option Nat} {t : State}
    (hx : eachFold h.toTake none (faultStep h.toTake addrOf onTrap body none) s1 = .ok cut t) :
    firstFault h.vl.toNat h.activeAt addrOf onTrap body none s1 = .ok cut t := by
  simp only [firstFault_eq, run_bind, run_curStream, hst, run_getHart, hh]
  exact run_keeping_ok hx

/-- A fault-first load after its elements, where it has truncated or not (R149). -/
theorem issue_vectorLoadFf (ho : s.opens anyFmt { vw := [vd.val] } s1 h) (h0 : h.vl ≠ 0) (hops : ops h.fmt s1 = .ok addr s1) {cut : Option Nat}
    (hx : eachFold h.toTake none (faultStep h.toTake (fun i => pure (addr i)) (fun _ => pure ()) (fun i => loadElem fr vd.val i (addr i)) none) s1 =
      .ok cut s2) (hg : s2.hart = some g) (hst2 : s2.curStream = .x) :
    issue (vectorLoadFf fr vd ops) s = .next (s2.retired ((match cut with
      | none => g.setV vd (g.vbitsOf vd) g.fmt
      | some k => { g.setV vd (g.vbitsOf vd) g.fmt with vl := BitVec.ofNat 17 k }).setResume .x 0)) := by
  have hh := hart_of_opens ho
  have hst := curStream_of_opens ho
  have hissue : memIssue true { vw := [vd.val] } s = .ok h s1 := vectorIssue_ok ho
  apply issue_eq_retired
  simp only [vectorLoadFf, run_bind, hissue, if_neg h0, hops, run_firstFault hh hst hx, run_modHart, hg, run_retireResumable (hart_putHart _ _),
    putHart_curStream, hst2, putHart_putHart] <;> cases cut <;> rfl

end

/-- Settles O35. -/
theorem faultFirstLoads : Obligations.FaultFirstLoads := by
  unfold Obligations.FaultFirstLoads
  intro s s1 s2 s3 h g vd ra rb disp fr ho h0 hs f hf hal addr load hg hst2
  have hh := hart_of_opens ho
  have hst := curStream_of_opens ho
  obtain ⟨hmd, hmx⟩ := vectorLoadForms_ops hh hst ra rb disp
  have hexec : ∃ ops : Fmt → M (Nat → Word64), exec f.1 s = issue (vectorLoadFf fr vd ops) s ∧ ops h.fmt s1 = .ok addr s1 := by
    simp only [List.mem_cons, List.not_mem_nil, or_false] at hf
    rcases hf with rfl | rfl
    · exact ⟨_, rfl, hmd.1 (decide_eq_true hal)⟩
    · exact ⟨_, rfl, hmx.1 (decide_eq_true hal)⟩
  obtain ⟨ops, hexec, hops⟩ := hexec
  have hbody : ∀ i, Keeps State.unstopped (load i) := fun i => keeps_loadElem fr vd.val i (addr i)
  refine ⟨fun hx => ?_, fun first k rest c v b keep htake hfirst hx hk => ?_⟩
  · have hall := (run_eachFold_faultStep (idx := h.toTake) (addrOf := fun i => pure (addr i)) (onTrap := fun _ => pure ()) (opens := none)
      hbody hs [] hx).2
    rw [List.append_nil] at hall
    exact hexec.trans (issue_vectorLoadFf ho h0 hops hall hg hst2)
  · have hnot : h.toTake.head? ≠ some k := by
      have hnodup := nodup_toTake h
      rw [htake] at hnodup ⊢
      obtain ⟨a, l, rfl⟩ := List.exists_cons_of_ne_nil hfirst
      have hne := (List.nodup_cons.1 hnodup).1
      rw [List.cons_append, List.head?_cons]
      rintro ⟨⟩
      exact hne (List.mem_append_right _ List.mem_cons_self)
    obtain ⟨hs2, hfold⟩ := run_eachFold_faultStep (idx := h.toTake) (addrOf := fun i => pure (addr i)) (onTrap := fun _ => pure ()) (opens := none)
      hbody hs (k :: rest) hx
    obtain ⟨u, hcut, hbeside⟩ := run_faultStep_trap (idx := h.toTake) (addrOf := fun i => pure (addr i)) (onTrap := fun _ => pure ()) (opens := none)
      hs2 hg rfl hnot hk
    simp only [State.besideMoves, Prod.mk.injEq] at hbeside
    obtain ⟨hmem, hls, hharts, hslot, hstream⟩ := hbeside
    have hgu : u.hart = some g := by rw [← hg, State.hart, State.hart, hharts, hslot]
    simp only [eachFold, run_bind, hcut, run_eachFold_cut] at hfold
    rw [← htake] at hfold
    refine ⟨_, hexec.trans (issue_vectorLoadFf ho h0 hops hfold hgu (hstream.trans hst2)), hmem, hls, ?_⟩
    rw [State.retired, hart_putHart, hstream, hst2]

end Sys2Proof.Machine
end

section
/-! The refutation of O38: an access of the execute stream meets the open entry of its hart's access stream (R173). -/

namespace Sys2Proof.Machine

/-- The issuing execute stream waits. -/
def waitsOnX (o : Host.Outcome State Fault Refusal) : Bool :=
  match o with
  | .next t => t.hart.any fun g => g.waitX.isSome
  | _ => false

/-- A stream whose instruction has retired is not known to wait. -/
theorem waitsOnX_retired (s : State) (h : Hart) : waitsOnX (.next (s.retired h)) = false := by
  simp only [waitsOnX, State.retired, hart_putHart, Hart.stirred, Option.any_some, Option.isSome_none]

/-- A hart about to load two elements of `i32` from the start of the local store, while a scatter of its access stream has stopped between its
elements (log 2). -/
def openedHart : Hart :=
  { testHart with vt := vtOf .i32 .d8 false false, vl := 2, xs := Vector.replicate 32 (BitVec.ofNat 64 windowBase), openA := some true }

/-- The device in which it issues. -/
def openedState : State := { State.reset.loaded openedHart 0 with curWord := 0x104 }

/-- The registers that its load names, and the state and the hart once they are swapped in. -/
def openedNamed : Named := Named.guarded { vw := [1] } openedHart
def openedAfter : State := endState (swapIn openedNamed openedState)
def openedAfterHart : Hart := openedAfter.hart.getD openedHart

/-- A part that answers ends in its answer's state. -/
theorem ok_of_answers {x : M Unit} {s : State} (h : (match x s with | .ok _ _ => true | .error _ _ => false) = true) : x s = .ok () (endState (x s)) := by
  cases hx : x s with
  | ok a t => rfl
  | error e t => rw [hx] at h; exact nomatch h

/-- A hart that is there is the hart. -/
theorem some_getD_of_isSome {α : Type} {x : Option α} (d : α) (h : x.isSome = true) : x = some (x.getD d) := by
  cases x with
  | none => exact nomatch h
  | some a => rfl

theorem openedState_opens : openedState.opens (fun x => true || decide (x ≠ .b4)) { vw := [1] } openedAfter openedAfterHart :=
  ⟨openedHart, rfl, rfl, openedHart, rfl, by decide +kernel, by decide +kernel, by decide +kernel, rfl, by decide +kernel,
    ok_of_answers (x := swapIn openedNamed) (by decide +kernel), some_getD_of_isSome (x := openedAfter.hart) openedHart (by decide +kernel),
    by decide +kernel⟩

/-- Both elements lie in the allocation, outside every spill window. -/
theorem opened_places : ∀ i ∈ openedAfterHart.toTake,
    openedAfter.localPlace openedAfterHart (BitVec.ofNat 64 ((openedAfterHart.addrMd .x 2 0).toNat + i * 4)) 4 0 (4 * i) ∧
      openedAfter.inSpill (openedAfter.actor openedAfterHart .x) (BitVec.ofNat 64 ((openedAfterHart.addrMd .x 2 0).toNat + i * 4)) 4 = false := by
  have hall : openedAfterHart.toTake = [0, 1] := by decide +kernel
  rw [hall]
  simp only [List.forall_mem_cons, List.not_mem_nil, false_imp_iff, implies_true, and_true]
  exact ⟨⟨⟨0, 2 ^ 20, by decide +kernel, by decide +kernel, by decide +kernel, by decide +kernel⟩, by decide +kernel⟩,
    ⟨0, 2 ^ 20, by decide +kernel, by decide +kernel, by decide +kernel, by decide +kernel⟩, by decide +kernel⟩

/-- Refutes O38: the statement leaves out the open entry of an indexed form of the hart that has stopped, which conflicts with the access (R173): the
load of `openedHart` waits at issue. -/
theorem not_localStoreVectorAccess : ¬ Obligations.LocalStoreVectorAccess := by
  unfold Obligations.LocalStoreVectorAccess
  intro hall
  have hfmt : openedAfterHart.fmt = .i32 := by decide +kernel
  have hal : (openedAfterHart.addrMd .x 2 0).toNat % 4 = 0 := by decide +kernel
  have hload := (hall openedState openedAfter openedAfterHart 1 2 3 0 false 0 (fun i => 4 * i) (by decide +kernel) (by decide +kernel) (by decide +kernel)
    (by decide +kernel) (by decide +kernel) (by decide +kernel) (by decide +kernel)).1 (.vldMd 1 2 0 false, true, _, _, _) List.mem_cons_self openedState_opens
  simp only [hfmt] at hload
  obtain ⟨b, hexec, -⟩ := hload (decide_eq_true hal) opened_places
  have hwaits : waitsOnX (exec (.vldMd 1 2 0 false) openedState) = true := by decide +kernel
  rw [hexec, waitsOnX_retired] at hwaits
  exact Bool.false_ne_true hwaits

end Sys2Proof.Machine
end

section
/-! The fills of queue places (R20, R152, R153, R231, R319). -/

namespace Sys2Proof.Machine

section
variable {s : State} {h g : Hart}

theorem run_modSlot {slot : Nat} {f : Hart → M Hart} (hh : SMap.get? s.harts slot = some h) (hack : h.acked = false) (hf : f h s = .ok g s) :
    modSlot slot f s = .ok () { s with harts := SMap.put s.harts slot g } := by
  simp only [modSlot, run_bind, run_get, hh, hack, Bool.false_eq_true, if_false, hf, run_modify]

/-- S1 holds a load of a queue of the hart to be filled (R20). -/
def State.heldLoad (s : State) : Bool := s.held.any fun w => decide (w.slot = s.curEv.a) && w.regs.contains (.q s.curEv.b)

theorem heldLoad_iff : s.heldLoad = true ↔ ∃ w ∈ s.held, w.slot = s.curEv.a ∧ RegName.q s.curEv.b ∈ w.regs := by
  simp only [State.heldLoad, List.any_eq_true, Bool.and_eq_true, decide_eq_true_eq, List.contains_iff_mem]

theorem event_fillEntry_held (hheld : s.heldLoad = true) (kvx : Bool) : event (fillEntry kvx) s = .next s := by
  have hany : (s.held.any fun w => decide (w.slot = s.curEv.a) && w.regs.contains (.q s.curEv.b)) = true := hheld
  apply event_error (e := .noHart) (s' := s)
  simp only [fillEntry, run_bind, run_get, hany, if_true]
  rfl

theorem event_fillEntry (hheld : ¬s.heldLoad = true) (hh : SMap.get? s.harts s.curEv.a = some h) (hack : h.acked = false) {kvx : Bool} {e : VEntry}
    (hp : (h.vq.getD s.curEv.b [])[s.curEv.c]? = some (.reserved e kvx)) :
    event (fillEntry kvx) s = .next { s with harts := (SMap.put s.harts s.curEv.a
      ({ h with vq := vput h.vq s.curEv.b ((h.vq.getD s.curEv.b []).set s.curEv.c (.ready e)) } : Hart).stirred) } := by
  have hany : ¬(s.held.any fun w => decide (w.slot = s.curEv.a) && w.regs.contains (.q s.curEv.b)) = true := hheld
  apply event_ok
  simp only [fillEntry, run_bind, run_get, hany]
  exact run_modSlot hh hack (by simp only [hp, if_true]; rfl)

/-- What the scatter's stream has issued is not all performed (R20, R153). -/
def State.heldStore (s : State) : Bool := (s.held.any fun w => w.of s.curEv.a .a) || s.keeps fun p => p.of s.curEv.a .a

theorem heldStore_iff : s.heldStore = true ↔ (∃ w ∈ s.held, w.of s.curEv.a .a = true) ∨ s.keeps (fun p => p.of s.curEv.a .a) = true := by
  simp only [State.heldStore, Bool.or_eq_true, List.any_eq_true]

theorem exec_scatterStatusFill_held (hheld : s.heldStore = true) : exec .scatterStatusFill s = .next s := by
  have hany : ((s.held.any fun w => w.of s.curEv.a .a) || s.keeps fun p => p.of s.curEv.a .a) = true := hheld
  apply event_error (e := .noHart) (s' := s)
  simp only [run_bind, run_get, hany, if_true]
  rfl

theorem exec_scatterStatusFill_q4 (hheld : ¬s.heldStore = true) (hh : SMap.get? s.harts s.curEv.a = some h) (hack : h.acked = false) (hb : s.curEv.b = 4)
    {n : Word64} (hp : h.q4[s.curEv.c]? = some (.reserved n)) : exec .scatterStatusFill s =
      .next { s with harts := SMap.put s.harts s.curEv.a ({ h with q4 := h.q4.set s.curEv.c (.ready n) } : Hart).stirred } := by
  have hany : ¬((s.held.any fun w => w.of s.curEv.a .a) || s.keeps fun p => p.of s.curEv.a .a) = true := hheld
  apply event_ok
  simp only [run_bind, run_get, hany]
  exact run_modSlot hh hack (by simp only [hb, if_true, hp]; rfl)

theorem exec_scatterStatusFill_q5 (hheld : ¬s.heldStore = true) (hh : SMap.get? s.harts s.curEv.a = some h) (hack : h.acked = false) (hb : s.curEv.b = 5)
    {n : Word64} (hp : h.q5[s.curEv.c]? = some (.reserved n)) : exec .scatterStatusFill s =
      .next { s with harts := SMap.put s.harts s.curEv.a ({ h with q5 := h.q5.set s.curEv.c (.ready n) } : Hart).stirred } := by
  have hany : ¬((s.held.any fun w => w.of s.curEv.a .a) || s.keeps fun p => p.of s.curEv.a .a) = true := hheld
  have h4 : ¬(5 : Nat) = 4 := by decide
  apply event_ok
  simp only [run_bind, run_get, hany]
  exact run_modSlot hh hack (by simp only [hb, if_neg h4, if_true, hp]; rfl)

end

/-- Settles O41. -/
theorem fillsMakePlacesReady : Obligations.FillsMakePlacesReady := by
  unfold Obligations.FillsMakePlacesReady
  intro s h hh hack q c out heldLoad heldStore
  refine ⟨fun hheld => ?_, fun hheld => ?_, fun e hheld hp => ?_, fun e hheld hp => ?_, fun n hheld hq hp => ?_, fun n hheld hq hp => ?_⟩
  · exact ⟨event_fillEntry_held (heldLoad_iff.2 hheld) false, event_fillEntry_held (heldLoad_iff.2 hheld) true⟩
  · exact exec_scatterStatusFill_held (heldStore_iff.2 hheld)
  · exact event_fillEntry (mt heldLoad_iff.1 hheld) hh hack hp
  · exact event_fillEntry (mt heldLoad_iff.1 hheld) hh hack hp
  · exact exec_scatterStatusFill_q4 (mt heldStore_iff.1 hheld) hh hack hq hp
  · exact exec_scatterStatusFill_q5 (mt heldStore_iff.1 hheld) hh hack hq hp

end Sys2Proof.Machine
end

section
/-! Gathers and scatters (R139, R147 to R153, R173). -/

namespace Sys2Proof.Machine

/-! ### The place that an indexed form holds -/

section
variable {pc : Word64} {pl : List VPlace} {e : VEntry}

theorem replaceHeld_of_heldEntry_none (new : VEntry → List VPlace) (hp : heldEntry pl pc = none) : replaceHeld pl pc new = pl := by
  induction pl with
  | nil => rfl
  | cons p l ih =>
    cases p with
    | stopped pc' e =>
      by_cases hpc : pc' = pc
      · simp [heldEntry, hpc] at hp
      · have hl : heldEntry l pc = none := by simpa [heldEntry, hpc] using hp
        have hrest := ih hl
        simp only [replaceHeld, List.flatMap_cons, hpc, if_false, List.singleton_append] at hrest ⊢
        rw [hrest]
    | _ =>
      have hl : heldEntry l pc = none := by simpa [heldEntry] using hp
      have hrest := ih hl
      simp only [replaceHeld, List.flatMap_cons, List.singleton_append] at hrest ⊢
      rw [hrest]

theorem replaceHeld_append_stopped (new : VEntry → List VPlace) (hp : heldEntry pl pc = none) :
    replaceHeld (pl ++ [.stopped pc e]) pc new = pl ++ new e := by
  have hpl := replaceHeld_of_heldEntry_none new hp
  simp only [replaceHeld, List.flatMap_append, List.flatMap_cons, List.flatMap_nil, if_true, List.append_nil] at hpl ⊢
  rw [hpl]

theorem heldEntry_append_stopped (hp : heldEntry pl pc = none) : heldEntry (pl ++ [.stopped pc e]) pc = some e := by
  simp only [heldEntry] at hp ⊢
  simp [List.findSome?_append, hp]

end

theorem getD_vput_self {α : Type} {n i : Nat} (hi : i < n) (v : Vector α n) (a d : α) : (vput v i a).getD i d = a := by
  rw [vput, dif_pos hi, Vector.getD]
  simp [hi]

theorem vput_vput {α : Type} {n : Nat} (v : Vector α n) (i : Nat) (a b : α) : vput (vput v i a) i b = vput v i b := by
  unfold vput
  split
  · simp
  · rfl

/-- A hart with the places of a vector queue replaced. -/
def Hart.withPlaces (h : Hart) (q : QNo) (l : List VPlace) : Hart := { h with vq := vput h.vq q.val l }

/-- A hart whose access stream has just taken a place of a vector queue for an indexed form (R152, R173). -/
def Hart.opening (h : Hart) (q : QNo) (esize : Nat) : Hart :=
  ({ h with openA := none } : Hart).withPlaces q (h.vq.getD q.val [] ++ [.stopped h.apc { esize := esize, elems := [] }])

theorem vq_opening {q : QNo} (hq : q.val < 4) (h : Hart) (esize : Nat) :
    (h.opening q esize).vq.getD q.val [] = h.vq.getD q.val [] ++ [.stopped h.apc { esize := esize, elems := [] }] := getD_vput_self hq _ _ _

/-- The elements of a fault-first form that stops nowhere are its elements in order, and it truncates at none (R149). -/
theorem run_firstFault_whole {body : Nat → M Unit} (hbody : ∀ i, Keeps State.unstopped (body i)) {s t : State} {h : Hart} (hh : s.hart = some h)
    (hs : s.unstopped) {limit : Nat} {takes : Nat → Bool}
    (hx : each (((List.range limit).drop (h.resume s.curStream).toNat).filter takes) body s = .ok () t) (addrOf : Nat → M Word64) (onTrap : Nat → M Unit)
    (opens : Option Bool) : firstFault limit takes addrOf onTrap body opens s = .ok none t := by
  have hfold := (run_eachFold_faultStep (idx := ((List.range limit).drop (h.resume s.curStream).toNat).filter takes) (addrOf := addrOf) (onTrap := onTrap)
    (opens := opens) hbody hs [] hx).2
  rw [List.append_nil] at hfold
  simp only [firstFault_eq, run_bind, run_curStream, run_getHart, hh]
  exact run_keeping_ok hfold

/-- The issuing access stream stands at an address and holds the last place of a vector queue, behind some others. -/
def State.holdsPlace (q : QNo) (pc : Word64) (pl : List VPlace) (s : State) : Prop :=
  s.unstopped ∧ s.curStream = .a ∧ ∃ h e, s.hart = some h ∧ h.apc = pc ∧ h.vq.getD q.val [] = pl ++ [.stopped pc e]

theorem holdsPlace_closed (q : QNo) (pc : Word64) (pl : List VPlace) : MemClosed (State.holdsPlace q pc pl) where
  mem _ _ _ h := h
  ls _ _ _ h := h
  poison _ _ h := h
  slicePoison _ _ h := h
  lsPoison _ _ h := h
  sectorKey _ _ h := h
  cores _ _ h := h
  pending _ _ h := h
  held _ _ h := h
  cover _ _ h := h
  lost _ _ h := h
  hits _ _ h := h
  spilled _ _ h := h
  voltor _ _ h := h
  freeCtr _ _ h := h
  oldFrames _ _ h := h
  taken _ _ h := h
  badTaken _ _ h := h
  spoiled _ _ h := h

section
variable {P : State → Prop} (hP : MemClosed P)
include hP

theorem keeps_listWord (va : Word64) : Keeps P (listWord va) :=
  keeps_bind (keeps_interlock _ _ _) fun _ => keeps_bind keeps_actor fun a => keeps_bind (keeps_load hP a _ _ _ _) fun _ => keeps_pure _

theorem keeps_padElems (n : Nat) (l : List Word64) : Keeps P (padElems n l) :=
  keeps_bind (keeps_eachMap (fun _ => keeps_freeWord hP) _) fun _ => keeps_pure _

end

/-- A part after another that keeps a property has the property to start from. -/
theorem Keeps.run_bind_congr {α β : Type} {P : State → Prop} {x : M α} {f g : α → M β} {s : State} (hx : Keeps P x) (hs : P s)
    (hf : ∀ a t, P t → f a t = g a t) : (x >>= f) s = (x >>= g) s := by
  simp only [run_bind]
  cases hr : x s with
  | ok a t => exact hf a t (hx.ok hr hs)
  | error e t => rfl

theorem run_modHeld {q : QNo} {pc : Word64} {s : State} {h : Hart} (hh : s.hart = some h) (hst : s.curStream = .a) (hpc : h.apc = pc)
    (new : Word64 → VEntry → List VPlace) :
    modHeld q new s = .ok () (s.putHart (h.withPlaces q (replaceHeld (h.vq.getD q.val []) pc (new pc)))) := by
  have hpc' : h.pc s.curStream = pc := by rw [hst]; exact hpc
  simp only [modHeld, run_bind, run_curPc, hh, hpc', run_modHart]
  rfl

theorem keeps_putEntry {q : QNo} (hq : q.val < 4) {pc : Word64} {pl : List VPlace} (hp : heldEntry pl pc = none) (i : Nat) (v : Word64) :
    Keeps (State.holdsPlace q pc pl) (putEntry q i v) := by
  have hmod (l : List Word64) : Keeps (State.holdsPlace q pc pl) (modHeld q fun pc e => [.stopped pc { e with elems := l.take i ++ v :: l.drop (i + 1) }]) := by
    constructor
    rintro s ⟨hs, hst, h, e, hh, hpc, hvq⟩
    rw [run_modHeld hh hst hpc, hvq, replaceHeld_append_stopped _ hp]
    exact ⟨hs, hst, _, _, hart_putHart _ _, hpc, getD_vput_self hq _ _ _⟩
  refine keeps_bind keeps_curPc fun _ => keeps_bind keeps_getHart fun h => ?_
  split
  · exact keeps_pure ()
  · exact keeps_bind (keeps_padElems (holdsPlace_closed q pc pl) _ _) fun l => hmod l

theorem keeps_gatherElem {q : QNo} (hq : q.val < 4) {pc : Word64} {pl : List VPlace} (hp : heldEntry pl pc = none) (n : Nat) (fr : Bool)
    (base list : Word64) (i : Nat) : Keeps (State.holdsPlace q pc pl) (gatherElem q n fr base list i) :=
  keeps_bind (keeps_listWord (holdsPlace_closed q pc pl) _) fun _ => keeps_bind (keeps_interlock _ _ _) fun _ => keeps_bind keeps_actor fun a =>
    keeps_bind (keeps_load (holdsPlace_closed q pc pl) a _ _ _ _) fun _ => keeps_putEntry hq hp i _

theorem keeps_gatherElem_unstopped (q : QNo) (n : Nat) (fr : Bool) (base list : Word64) (i : Nat) : Keeps State.unstopped (gatherElem q n fr base list i) := by
  refine keeps_bind (keeps_listWord unstopped_closed _) fun _ => keeps_bind (keeps_interlock _ _ _) fun _ => keeps_bind keeps_actor fun a =>
    keeps_bind (keeps_load unstopped_closed a _ _ _ _) fun v => keeps_bind keeps_curPc fun _ => keeps_bind keeps_getHart fun h => ?_
  split
  · exact keeps_pure ()
  · exact keeps_bind (keeps_padElems unstopped_closed _ _) fun l => keeps_bind keeps_curPc fun _ => keeps_modHart_unstopped _

/-! ### The parts of a gather -/

section
variable {s s1 s2 : State} {h g : Hart} {q : QNo} {n : Nat} {ra rb rc : SReg}

/-- The checks of an indexed form pass: its own open entry is closed, and the hart's stores in flight perform (R139, R151, R173). -/
theorem run_accessQueue (hst : s.curStream = .a) (hh : s.hart = some h) (hq : q.val < 6) :
    accessQueue q s = .ok () (s.putHart { h with openA := none }) := by
  simp only [accessQueue, run_bind, onlyA_of_eq hst, if_neg (Nat.not_le.2 hq), run_modHart, hh]

theorem run_indexedIssue (hst : s.curStream = .a) (hh : s.hart = some h) (hb : (h.sreg .a ra).toNat % n = 0) (hl : (h.sreg .a rb).toNat % 8 = 0)
    (ht : s.tableUsed (coreOfSlot s.curSlot) + 2 ≤ 64) (hd : drainHart h.slot s = .ok () s1) :
    indexedIssue n ra rb s = .ok (h.sreg .a ra, h.sreg .a rb) s1 := by
  simp only [indexedIssue, run_bind, run_rS, hh, hst, run_aligned hb, run_aligned hl, needTable, run_get, if_pos ht, run_pure, run_getHart, hd]

theorem run_elemCount (hst : s.curStream = .a) (hh : s.hart = some h) : elemCount rc s = .ok (min (h.sreg .a rc).toNat 4096) s := by
  simp only [elemCount, run_bind, run_rS, hh, hst, run_pure]

theorem queueLen_vector (hq : q.val < 4) : h.queueLen q = (h.vq.getD q.val []).length ∧ queueDepth q = 4 := by
  refine ⟨?_, if_pos (.inl hq)⟩
  unfold Hart.queueLen
  split
  · omega
  · omega
  · omega
  · omega
  · rfl

theorem run_takeEntry (hst : s.curStream = .a) (hh : s.hart = some h) (hq : q.val < 4) (hheld : heldEntry (h.vq.getD q.val []) h.apc = none)
    (hroom : (h.vq.getD q.val []).length < 4) (n : Nat) :
    takeEntry q n s = .ok () (s.putHart (h.withPlaces q (h.vq.getD q.val [] ++ [.stopped h.apc { esize := n, elems := [] }]))) := by
  have hpc : h.pc s.curStream = h.apc := by rw [hst]; rfl
  obtain ⟨hlen, hdepth⟩ := queueLen_vector (h := h) hq
  simp only [takeEntry, run_bind, run_curPc, hh, hpc, run_getHart, hheld, run_needPlace hh, hlen, hdepth, if_pos hroom, run_setHart]
  rfl

theorem padElems_of_le {l : List Word64} (hl : n ≤ l.length) (s : State) : padElems n l s = .ok l s := by
  rw [padElems, Nat.sub_eq_zero_of_le hl]
  simp only [List.range_zero, eachMap, run_bind, run_pure, List.append_nil]

/-- The entry is complete: its place waits for its fill (R152). -/
theorem run_finishEntry {pl : List VPlace} {e : VEntry} (hst : s.curStream = .a) (hh : s.hart = some h) (hp : heldEntry pl h.apc = none)
    (hvq : h.vq.getD q.val [] = pl ++ [.stopped h.apc e]) {count : Nat} (hlen : e.elems.length = count) (kvx : Bool) :
    finishEntry q kvx count s = .ok () (s.putHart (((h.withPlaces q (pl ++ [.reserved { e with elems := e.elems.take count } kvx])).setResume .a 0).advance .a)) := by
  have hpc : h.pc .a = h.apc := rfl
  have hheld : heldEntry (h.vq.getD q.val []) h.apc = some e := by rw [hvq, heldEntry_append_stopped hp]
  simp only [finishEntry, run_bind, run_curPc, hh, hst, hpc, run_getHart, hheld, padElems_of_le hlen.ge, run_modHeld hh hst rfl,
    run_retireResumable (hart_putHart _ _), putHart_curStream, putHart_putHart]
  rw [hvq, replaceHeld_append_stopped _ hp]

theorem Ew.bytes_eq (ew : Ew) : Ew.bytes ew = match ew with
    | .b => 1
    | .h => 2
    | .w => 4
    | .d => 8 := by cases ew <;> rfl

/-- The checks of a gather pass, and its place is open: what is left is its elements (R139, R151, R152). -/
theorem run_gather_opens (hst : s.curStream = .a) (hh : s.hart = some h) (hq : q.val < 4) (hb : (h.sreg .a ra).toNat % n = 0)
    (hl : (h.sreg .a rb).toNat % 8 = 0) (ht : (s.putHart { h with openA := none }).tableUsed (coreOfSlot s.curSlot) + 2 ≤ 64)
    (hd : drainHart h.slot (s.putHart { h with openA := none }) = .ok () s1) (hh1 : s1.hart = some { h with openA := none }) (hst1 : s1.curStream = .a)
    (hheld : heldEntry (h.vq.getD q.val []) h.apc = none) (hroom : (h.vq.getD q.val []).length < 4) (rest : Word64 → Word64 → Nat → M Unit) :
    (do
      accessQueue q
      let (base, list) ← indexedIssue n ra rb
      let count ← elemCount rc
      takeEntry q n
      rest base list count) s = rest (h.sreg .a ra) (h.sreg .a rb) (min (h.sreg .a rc).toNat 4096)
        (s1.putHart (h.opening q n)) := by
  have hissue := run_indexedIssue (ra := ra) (rb := rb) (n := n) (s := s.putHart { h with openA := none }) hst (hart_putHart _ _) hb hl ht hd
  simp only [run_bind, run_accessQueue hst hh (by omega : q.val < 6), hissue, run_elemCount hst1 hh1, run_takeEntry hst1 hh1 hq hheld hroom]
  rfl

/-- The elements of a gather that nothing stops, and its end (R152). -/
theorem run_gather_elems {pl : List VPlace} {pc : Word64} {body : Nat → M Unit} {count : Nat} (hst : s.curStream = .a) (hh : s.hart = some h)
    (hs : s.unstopped) (hpc : h.apc = pc) (hp : heldEntry pl pc = none) {e : VEntry} (hvq : h.vq.getD q.val [] = pl ++ [.stopped pc e])
    (hbody : ∀ i, Keeps (State.holdsPlace q pc pl) (body i)) (hx : each (List.range count) body s = .ok () s2)
    (hg : s2.hart = some g) (hlen : (heldEntry (g.vq.getD q.val []) pc).map (fun e => e.elems.length) = some count) (hgpc : g.apc = pc)
    (hst2 : s2.curStream = .a) (kvx : Bool) :
    finishEntry q kvx count s2 = .ok () (s2.putHart ((({ g with
      vq := vput g.vq q.val (replaceHeld (g.vq.getD q.val []) pc fun e => [.reserved { e with elems := e.elems.take count } kvx]) } : Hart).setResume .a 0).advance .a)) := by
  obtain ⟨-, -, g', e', hg', -, hvq'⟩ := (keeps_each hbody _).ok hx ⟨hs, hst, h, e, hh, hpc, hvq⟩
  obtain rfl : g' = g := Option.some.inj (hg'.symm.trans hg)
  subst hgpc
  rw [hvq', heldEntry_append_stopped hp] at hlen
  rw [run_finishEntry hst2 hg hp hvq' (Option.some.inj hlen), hvq', replaceHeld_append_stopped _ hp]
  rfl

end

/-- The clause of O39 about gathers. -/
theorem exec_gather {s s1 s2 : State} {h g : Hart} {q : QNo} {ew : Ew} {fr : Bool} {ra rb rc : SReg} (hst : s.curStream = .a) (hh : s.hart = some h)
    (hr : h.resumeA = 0) (hs : s.curStop = none) (hb : (h.sreg .a ra).toNat % Ew.bytes ew = 0) (hl : (h.sreg .a rb).toNat % 8 = 0)
    (ht : (s.putHart { h with openA := none }).tableUsed (coreOfSlot s.curSlot) + 2 ≤ 64)
    (hd : drainHart h.slot (s.putHart { h with openA := none }) = .ok () s1) (hh1 : s1.hart = some { h with openA := none }) (hst1 : s1.curStream = .a)
    (hg : s2.hart = some g) (hst2 : s2.curStream = .a) (hpc : g.apc = h.apc) (hq : q.val < 4) (hheld : heldEntry (h.vq.getD q.val []) h.apc = none)
    (hroom : (h.vq.getD q.val []).length < 4)
    (hx : each (List.range (min (h.sreg .a rc).toNat 4096)) (gatherElem q (Ew.bytes ew) fr (h.sreg .a ra) (h.sreg .a rb))
      (s1.putHart (h.opening q (Ew.bytes ew))) = .ok () s2)
    (hlen : (heldEntry (g.vq.getD q.val []) h.apc).map (fun e => e.elems.length) = some (min (h.sreg .a rc).toNat 4096)) :
    ∀ i ∈ [Instr.vgat q ew fr ra rb rc, .vgatff q ew fr ra rb rc], exec i s = .next (s2.retired ({ g with
      vq := vput g.vq q.val (replaceHeld (g.vq.getD q.val []) h.apc fun e =>
        [.reserved { e with elems := e.elems.take (min (h.sreg .a rc).toNat 4096) } false]) }.setResume .a 0)) := by
  have hd1 : s1.unstopped := (keeps_drainHart unstopped_closed _).ok hd hs
  have hs1 : (s1.putHart (h.opening q (Ew.bytes ew))).unstopped := hd1
  have hh0 : (s1.putHart (h.opening q (Ew.bytes ew))).hart = some (h.opening q (Ew.bytes ew)) := hart_putHart _ _
  have hst0 : (s1.putHart (h.opening q (Ew.bytes ew))).curStream = .a := hst1
  have hopen (rest : Word64 → Word64 → Nat → M Unit) := run_gather_opens (rc := rc) hst hh hq hb hl ht hd hh1 hst1 hheld hroom rest
  generalize s1.putHart (h.opening q (Ew.bytes ew)) = s0 at *
  have hfin := run_gather_elems (pc := h.apc) hst0 hh0 hs1 rfl hheld (vq_opening hq h _)
    (fun i => keeps_gatherElem hq hheld (Ew.bytes ew) fr (h.sreg .a ra) (h.sreg .a rb) i) hx hg hlen hpc hst2 false
  have hbody := keeps_gatherElem_unstopped q (Ew.bytes ew) fr (h.sreg .a ra) (h.sreg .a rb)
  have hall : each (((List.range (min (h.sreg .a rc).toNat 4096)).drop ((h.opening q (Ew.bytes ew)).resume s0.curStream).toNat).filter fun _ => true)
      (gatherElem q (Ew.bytes ew) fr (h.sreg .a ra) (h.sreg .a rb)) s0 = .ok () s2 := by
    have hres : (h.opening q (Ew.bytes ew)).resume .a = 0 := hr
    rw [hst0, hres, List.filter_true]
    exact hx
  simp only [List.forall_mem_cons, List.not_mem_nil, false_imp_iff, implies_true, and_true]
  refine ⟨issue_eq_retired ?_, issue_eq_retired ?_⟩
  · refine (hopen fun base list count => do
      resumeFrom count (fun _ => true) (gatherElem q (Ew.bytes ew) fr base list) (some false)
      finishEntry q false count).trans ?_
    simp only [run_bind, run_resumeFrom hbody hh0 hs1 hall (some false), hfin, hst2]
  · refine (hopen fun base list count => do
      let cut ← firstFault count (fun _ => true) (gatherStop base list (Ew.bytes ew)) (fun i => if i = 0 then modHeld q fun _ _ => [] else pure ())
        (gatherElem q (Ew.bytes ew) fr base list) (some false)
      finishEntry q false (cut.getD count)).trans ?_
    simp only [run_bind, run_firstFault_whole hbody hh0 hs1 hall, Option.getD_none, hfin, hst2]

/-! ### Scatters -/

/-- The issuing access stream stands at an address. -/
def State.standsAt (pc : Word64) (s : State) : Prop := s.unstopped ∧ s.curStream = .a ∧ ∃ h, s.hart = some h ∧ h.apc = pc

theorem standsAt_closed (pc : Word64) : MemClosed (State.standsAt pc) where
  mem _ _ _ h := h
  ls _ _ _ h := h
  poison _ _ h := h
  slicePoison _ _ h := h
  lsPoison _ _ h := h
  sectorKey _ _ h := h
  cores _ _ h := h
  pending _ _ h := h
  held _ _ h := h
  cover _ _ h := h
  lost _ _ h := h
  hits _ _ h := h
  spilled _ _ h := h
  voltor _ _ h := h
  freeCtr _ _ h := h
  oldFrames _ _ h := h
  taken _ _ h := h
  badTaken _ _ h := h
  spoiled _ _ h := h

theorem run_curPc_of_standsAt {pc : Word64} {s : State} (hs : s.standsAt pc) : curPc s = .ok pc s := by
  obtain ⟨-, hst, h, hh, hpc⟩ := hs
  have hpc' : h.pc s.curStream = pc := by rw [hst]; exact hpc
  simp only [run_curPc, hh, hpc']

/-- An element of a scatter whose instruction stands at an address that is known (R153). -/
def scatterAt (pc base list : Word64) (n : Nat) (put : Actor → Word64 → Nat → Nat → M Unit) (i : Nat) : M Unit := do
  let idx ← listWord (list + BitVec.ofNat 64 (16 * i))
  let val ← listWord (list + BitVec.ofNat 64 (16 * i + 8))
  let va := base + idx * BitVec.ofNat 64 n
  interlock va n true
  let a ← actor
  put { a with job := some pc.toNat } va n (val.toNat % 2 ^ (8 * n))

/-- An element of a scatter (R153). -/
def scatterElem (base list : Word64) (n : Nat) (put : Actor → Word64 → Nat → Nat → M Unit) (i : Nat) : M Unit := do
  let idx ← listWord (list + BitVec.ofNat 64 (16 * i))
  let val ← listWord (list + BitVec.ofNat 64 (16 * i + 8))
  let va := indexed base idx n
  interlock va n true
  let a ← actor
  let pc ← curPc
  put { a with job := some pc.toNat } va n (val.toNat % 2 ^ (8 * n))

/-- What an element of a scatter does with its value keeps what the memory operations cannot break. -/
def PutKeeps (put : Actor → Word64 → Nat → Nat → M Unit) : Prop := ∀ P, MemClosed P → ∀ a va n v, Keeps P (put a va n v)

section
variable {put : Actor → Word64 → Nat → Nat → M Unit} {pc base list : Word64} {n : Nat}

theorem keeps_scatterElem (hput : PutKeeps put) {P : State → Prop} (hP : MemClosed P) (i : Nat) : Keeps P (scatterElem base list n put i) :=
  keeps_bind (keeps_listWord hP _) fun _ => keeps_bind (keeps_listWord hP _) fun _ => keeps_bind (keeps_interlock _ _ _) fun _ =>
    keeps_bind keeps_actor fun _ => keeps_bind keeps_curPc fun _ => hput P hP _ _ _ _

theorem scatterElem_eq {s : State} (hs : s.standsAt pc) (i : Nat) : scatterElem base list n put i s = scatterAt pc base list n put i s :=
  (keeps_listWord (standsAt_closed pc) _).run_bind_congr hs fun idx _ h1 => (keeps_listWord (standsAt_closed pc) _).run_bind_congr h1 fun val _ h2 =>
    (keeps_interlock _ _ _).run_bind_congr h2 fun _ _ h3 => keeps_actor.run_bind_congr h3 fun a _ h4 => by
      simp only [run_bind, run_curPc_of_standsAt h4, indexed]

theorem each_scatterElem (hput : PutKeeps put) (l : List Nat) {s : State} (hs : s.standsAt pc) :
    each l (scatterElem base list n put) s = each l (scatterAt pc base list n put) s := by
  induction l generalizing s with
  | nil => rfl
  | cons i l ih =>
    have hfirst := scatterElem_eq (put := put) (base := base) (list := list) (n := n) hs i
    simp only [each, run_bind, ← hfirst]
    cases hr : scatterElem base list n put i s with
    | ok a t => exact ih ((keeps_scatterElem hput (standsAt_closed pc) i).ok hr hs)
    | error e t => rfl

end

section
variable {s s1 s2 : State} {h g : Hart} {q : QNo} {ra rb rc : SReg}

theorem run_takeStatus (hst : s.curStream = .a) (hh : s.hart = some h) (hq : q.val = 4 ∨ q.val = 5) (hnew : SPlace.stopped h.apc ∉ h.squeue q)
    (hroom : (h.squeue q).length < 16) : takeStatus q s = .ok () (s.putHart (h.setSqueue q (h.squeue q ++ [.stopped h.apc]))) := by
  have hpc : h.pc s.curStream = h.apc := by rw [hst]; rfl
  obtain ⟨hlen, hdepth⟩ := queueLen_eq_squeue (h := h) (q := q) (by omega) (by omega)
  have hcont : ¬(h.squeue q).contains (.stopped h.apc) = true := by rwa [List.contains_iff_mem]
  simp only [takeStatus, run_bind, run_curPc, hh, hpc, run_getHart, if_neg hcont, run_needPlace hh, hlen, hdepth, if_pos hroom, run_setHart]

/-- A hart whose status place, held by the instruction at an address, waits for its fill with a count (R153). -/
def Hart.statusTaken (x : Hart) (q : QNo) (pc : Word64) (count : Nat) : Hart :=
  x.setSqueue q ((x.squeue q).map fun p => if p = SPlace.stopped pc then SPlace.reserved (BitVec.ofNat 64 count) else p)

theorem run_modStatus (hst : s.curStream = .a) (hh : s.hart = some h) (count : Nat) :
    modStatus q (.reserved (BitVec.ofNat 64 count)) s = .ok () (s.putHart (h.statusTaken q h.apc count)) := by
  have hpc : h.pc s.curStream = h.apc := by rw [hst]; rfl
  simp only [modStatus, run_bind, run_curPc, hh, hpc, run_modHart]
  rfl

theorem setSqueue_fields (h : Hart) (q : QNo) (l : List SPlace) : (h.setSqueue q l).resumeA = h.resumeA ∧ (h.setSqueue q l).apc = h.apc := by
  unfold Hart.setSqueue
  split <;> exact ⟨rfl, rfl⟩

/-- The clause of O39 about scatters. -/
theorem issue_scatter {ew : Ew} {put : Actor → Word64 → Nat → Nat → M Unit} (hput : PutKeeps put) (hst : s.curStream = .a) (hh : s.hart = some h)
    (hr : h.resumeA = 0) (hs : s.curStop = none) (hb : (h.sreg .a ra).toNat % Ew.bytes ew = 0) (hl : (h.sreg .a rb).toNat % 8 = 0)
    (ht : (s.putHart { h with openA := none }).tableUsed (coreOfSlot s.curSlot) + 2 ≤ 64)
    (hd : drainHart h.slot (s.putHart { h with openA := none }) = .ok () s1) (hh1 : s1.hart = some { h with openA := none }) (hst1 : s1.curStream = .a)
    (hg : s2.hart = some g) (hst2 : s2.curStream = .a) (hpc : g.apc = h.apc) (hq : q.val = 4 ∨ q.val = 5) (hnew : SPlace.stopped h.apc ∉ h.squeue q)
    (hroom : (h.squeue q).length < 16)
    (hx : each (List.range (min (h.sreg .a rc).toNat 4096)) (scatterAt h.apc (h.sreg .a ra) (h.sreg .a rb) (Ew.bytes ew) put)
      (State.storing (s1.putHart (({ h with openA := none } : Hart).setSqueue q (h.squeue q ++ [.stopped h.apc]))) { h with openA := none } .a) = .ok () s2) :
    issue (scatter q ew ra rb rc put) s = .next ((s2.stored g .a).retired ((g.statusTaken q h.apc (min (h.sreg .a rc).toNat 4096)).setResume .a 0)) := by
  have hd1 : s1.unstopped := (keeps_drainHart unstopped_closed _).ok hd hs
  have hissue := run_indexedIssue (ra := ra) (rb := rb) (n := Ew.bytes ew) (s := s.putHart { h with openA := none }) hst (hart_putHart _ _) hb hl ht hd
  have htake := run_takeStatus hst1 hh1 hq hnew hroom
  have hh0 : (s1.putHart (({ h with openA := none } : Hart).setSqueue q (h.squeue q ++ [.stopped h.apc]))).hart = some _ := hart_putHart _ _
  have hst0 : (s1.putHart (({ h with openA := none } : Hart).setSqueue q (h.squeue q ++ [.stopped h.apc]))).curStream = .a := hst1
  have hs0 : (s1.putHart (({ h with openA := none } : Hart).setSqueue q (h.squeue q ++ [.stopped h.apc]))).unstopped := hd1
  obtain ⟨hres, hapc⟩ : (({ h with openA := none } : Hart).setSqueue q (h.squeue q ++ [.stopped h.apc])).resume .a = 0 ∧
      (({ h with openA := none } : Hart).setSqueue q (h.squeue q ++ [.stopped h.apc])).apc = h.apc := by
    obtain ⟨hres, hapc⟩ := setSqueue_fields { h with openA := none } q (h.squeue q ++ [.stopped h.apc])
    exact ⟨hres.trans hr, hapc⟩
  have htake : takeStatus q s1 = .ok () (s1.putHart (({ h with openA := none } : Hart).setSqueue q (h.squeue q ++ [.stopped h.apc]))) := htake
  generalize ({ h with openA := none } : Hart).setSqueue q (h.squeue q ++ [.stopped h.apc]) = h2 at *
  generalize s1.putHart h2 = s0 at *
  have hstoring : s0.storing h2 .a = s0.storing { h with openA := none } .a := by
    have hleft : s0.storing h2 .a = s0.endCover s0.curSlot .a h.apc.toNat := (if_pos hres).trans (by rw [Hart.pc, hapc])
    exact hleft.trans (if_pos hr).symm
  have hstands : (s0.storing h2 .a).standsAt h.apc := by
    rw [State.storing, if_pos hres]
    exact ⟨hs0, hst0, h2, hh0, hapc⟩
  have hall : each (((List.range (min (h.sreg .a rc).toNat 4096)).drop (h2.resume s0.curStream).toNat).filter fun _ => true)
      (scatterElem (h.sreg .a ra) (h.sreg .a rb) (Ew.bytes ew) put) (s0.storing h2 s0.curStream) = .ok () s2 := by
    rw [hst0, hres, List.filter_true]
    exact (each_scatterElem hput _ hstands).trans (by rw [hstoring]; exact hx)
  have hstores := run_storesFrom (fun i => keeps_scatterElem hput unstopped_closed i) hh0 hs0 hall hg (some true)
  rw [hst2] at hstores
  have hg' : (s2.stored g .a).hart = some g := hg
  have hst' : (s2.stored g .a).curStream = .a := hst2
  have hscatter : scatter q ew ra rb rc put = (do
      accessQueue q
      let (base, list) ← indexedIssue (Ew.bytes ew) ra rb
      let count ← elemCount rc
      takeStatus q
      storesFrom count (fun _ => true) (scatterElem base list (Ew.bytes ew) put) (some true)
      modStatus q (.reserved (BitVec.ofNat 64 count))
      retireResumable) := rfl
  apply issue_eq_retired
  rw [hscatter]
  have hcount : elemCount rc s1 = .ok (min (h.sreg .a rc).toNat 4096) s1 := (run_elemCount hst1 hh1).trans rfl
  have hissue : indexedIssue (Ew.bytes ew) ra rb (s.putHart { h with openA := none }) = .ok (h.sreg .a ra, h.sreg .a rb) s1 := hissue
  simp only [run_bind, run_accessQueue hst hh (by omega : q.val < 6), hissue, hcount, htake, hstores, run_modStatus hst' hg', hpc,
    run_retireResumable (hart_putHart _ _), putHart_curStream, hst', putHart_putHart]

end

theorem putKeeps_storeNow : PutKeeps fun a va n v => a.storeNow va n v := fun _ hP a va n v => keeps_storeNow hP a va n v _ _

theorem putKeeps_atomic : PutKeeps (fun a va n v => do
    let held ← a.holdAtomic va n .add v 0 {}
    if held then pure ()
    else
      let _ ← a.atomic va n .add v 0) := fun _ hP a va n v =>
  keeps_bind (keeps_holdAtomic hP a va n .add v 0 {}) fun _ => keeps_ite (fun _ => keeps_pure ()) fun _ =>
    keeps_bind (keeps_atomic hP a va n .add v 0) fun _ => keeps_pure ()

/-- Settles O39. -/
theorem gathersAndScattersComplete : Obligations.GathersAndScattersComplete := by
  unfold Obligations.GathersAndScattersComplete
  intro s s1 s2 h g q ew fr ra rb rc hst hh hr hs n base list count pc h' s' hb hl ht hd hh1 hst1 hg hst2 hpc
  have hn : n = Ew.bytes ew := (Ew.bytes_eq ew).symm
  clear_value n
  subst hn
  refine ⟨?_, ?_⟩
  · intro hq places hheld hroom hx hlen
    exact exec_gather hst hh hr hs hb hl ht hd hh1 hst1 hg hst2 hpc hq hheld hroom hx hlen
  · intro hq places hnew hroom elems taken status
    exact ⟨fun hx => issue_scatter putKeeps_storeNow hst hh hr hs hb hl ht hd hh1 hst1 hg hst2 hpc hq hnew hroom hx,
      fun hx => issue_scatter putKeeps_atomic hst hh hr hs hb hl ht hd hh1 hst1 hg hst2 hpc hq hnew hroom hx⟩

end Sys2Proof.Machine
end

section
/-! Gathers from the local store (R138, R151, R152, R231). -/

namespace Sys2Proof.Machine

/-! ### Accesses of a hart that nothing conflicts with -/

section
variable {s : State} {h g : Hart}

/-- Spill windows lie where they were when a hart is replaced by one of the same context, type and window. -/
theorem inSpill_putHart (hh : s.hart = some h) (hasid : g.asid = h.asid) (hvt : g.vt = h.vt) (hewin : g.ewin = h.ewin) {a : Actor} {va : Word64} {n : Nat}
    (hs : s.inSpill a va n = false) : (s.putHart g).inSpill a va n = false := by
  unfold State.inSpill at hs ⊢
  rw [Bool.and_eq_false_iff] at hs ⊢
  refine hs.imp_right fun hany => List.any_eq_false.2 fun e he => ?_
  have hall := List.any_eq_false.1 hany
  rcases List.mem_append.1 he with he | he
  · rcases SMap.mem_put he with rfl | he
    · have hold := hall _ (List.mem_append_left _ (SMap.mem_of_get? hh))
      rwa [← hasid, ← hvt, ← hewin] at hold
    · exact hall e (List.mem_append_left _ he)
  · exact hall e (List.mem_append_right _ he)

/-- Two harts make the same accesses: they are the same to memory, and have the same transfers in flight. -/
def Hart.sameAccess (g h : Hart) : Prop :=
  g.slot = h.slot ∧ g.asid = h.asid ∧ g.priv = h.priv ∧ g.kernel = h.kernel ∧ g.refX = h.refX ∧ g.refA = h.refA ∧ g.strip = h.strip ∧ g.vt = h.vt ∧
    g.ewin = h.ewin ∧ g.transfers = h.transfers

theorem actor_putHart (hg : g.sameAccess h) (st : StreamId) : (s.putHart g).actor g st = s.actor h st := by
  obtain ⟨hslot, hasid, hpriv, hkernel, hrefX, hrefA, hstrip, -⟩ := hg
  unfold State.actor Hart.stripOf
  rw [hslot, hasid, hpriv, hkernel, hrefX, hrefA, hstrip]
  rfl

/-- The access stream of hart h issues, and nothing is in flight that its accesses could meet. -/
def State.quiet (s : State) (h : Hart) : Prop :=
  s.curStream = .a ∧ s.hart = some h ∧ h.transfers = [] ∧ h.openA = none ∧ s.pending = [] ∧ s.held = [] ∧ s.lsPoison = []

/-- An access of n bytes falls in the allocation of the local store, at a place outside every spill window. -/
def State.localAt (s : State) (h : Hart) (va : Word64) (n core off : Nat) : Prop :=
  s.localPlace h va n core off ∧ s.inSpill (s.actor h s.curStream) va n = false

theorem quiet_putHart (hs : s.pending = [] ∧ s.held = [] ∧ s.lsPoison = []) (hst : s.curStream = .a) (ht : g.transfers = []) (ho : g.openA = none) :
    (s.putHart g).quiet g := ⟨hst, hart_putHart _ _, ht, ho, hs⟩

theorem localAt_putHart (hh : s.hart = some h) (hg : g.sameAccess h) {va : Word64} {n core off : Nat} (hl : s.localAt h va n core off) :
    (s.putHart g).localAt g va n core off := by
  obtain ⟨⟨base, size, hw, hrest⟩, hspill⟩ := hl
  have hactor : (s.putHart g).actor g (s.putHart g).curStream = s.actor h s.curStream := actor_putHart hg _
  obtain ⟨-, hasid, -, -, -, -, -, hvt, hewin, -⟩ := hg
  exact ⟨⟨base, size, by rw [hactor]; exact hw, hrest⟩, by rw [hactor]; exact inSpill_putHart hh hasid hvt hewin hspill⟩

theorem run_interlock_of_quiet (hq : s.quiet h) (va : Word64) (n : Nat) (write : Bool) : interlock va n write s = .ok () s := by
  obtain ⟨-, hh, ht, ho, -, hheld, -⟩ := hq
  refine run_interlock_free hh ⟨fun t hmem => ?_, ?_, ?_⟩
  · rw [ht] at hmem
    exact nomatch hmem
  · rw [State.heldOn, hheld]
    rfl
  · rw [Hart.opened, ho]
    rfl

theorem run_load_of_quiet (hq : s.quiet h) {va : Word64} {n core off : Nat} (hl : s.localAt h va n core off) (via : LoadVia) :
    (s.actor h s.curStream).load via va n (some false) s = .ok (s.ls.readLE (lsIndex core off) n) s := by
  obtain ⟨-, -, -, -, hp, hheld, hls⟩ := hq
  refine run_load_local (undisturbed_of_none hp hheld) hl.1 (fun p hmem => ?_) ?_ hl.2 via
  · rw [hp] at hmem
    exact nomatch hmem
  · rw [State.lsPoisoned, hls]
    exact List.any_eq_false.2 fun i _ => Bool.false_ne_true

/-- A word of a list in the local store (R151, R162). -/
theorem run_listWord_of_quiet (hq : s.quiet h) {va : Word64} {core off : Nat} (hl : s.localAt h va 8 core off) :
    listWord va s = .ok (BitVec.ofNat 64 (s.ls.readLE (lsIndex core off) 8)) s := by
  have ⟨_, hh, _⟩ := hq
  simp only [listWord, run_bind, run_interlock_of_quiet hq, run_actor hh, run_load_of_quiet hq hl, run_pure]

end

/-! ### Entries that elements fill in order -/

/-- A hart whose indexed form has filled the first elements of the entry that it holds (R152). -/
def Hart.filled (h : Hart) (q : QNo) (esize : Nat) (elems : List Word64) : Hart :=
  ({ h with openA := none } : Hart).withPlaces q (h.vq.getD q.val [] ++ [.stopped h.apc { esize := esize, elems := elems }])

section
variable {s : State} {h : Hart} {q : QNo} {n : Nat} {elems : List Word64}

theorem sameAccess_filled (h : Hart) (q : QNo) (n : Nat) (elems : List Word64) : (h.filled q n elems).sameAccess h :=
  ⟨rfl, rfl, rfl, rfl, rfl, rfl, rfl, rfl, rfl, rfl⟩

theorem filled_nil (h : Hart) (q : QNo) (n : Nat) : h.filled q n [] = h.opening q n := rfl

theorem vq_filled (hq : q.val < 4) : (h.filled q n elems).vq.getD q.val [] = h.vq.getD q.val [] ++ [.stopped h.apc { esize := n, elems := elems }] :=
  getD_vput_self hq _ _ _

/-- The next element of the entry (R152). -/
theorem run_putEntry_filled (hst : s.curStream = .a) (hq : q.val < 4) (hp : heldEntry (h.vq.getD q.val []) h.apc = none) (v : Word64) :
    putEntry q elems.length v (s.putHart (h.filled q n elems)) = .ok () (s.putHart (h.filled q n (elems ++ [v]))) := by
  have hst' : (s.putHart (h.filled q n elems)).curStream = .a := hst
  have hpc : (h.filled q n elems).pc .a = h.apc := rfl
  have hheld : heldEntry ((h.filled q n elems).vq.getD q.val []) h.apc = some { esize := n, elems := elems } := by
    rw [vq_filled hq, heldEntry_append_stopped hp]
  simp only [putEntry, run_bind, run_curPc, hart_putHart, hst', hpc, run_getHart, hheld, padElems_of_le le_rfl]
  have hmod := run_modHeld (q := q) (hart_putHart s (h.filled q n elems)) hst' (pc := h.apc) rfl
    fun pc e => [.stopped pc { e with elems := elems.take elems.length ++ v :: elems.drop (elems.length + 1) }]
  rw [vq_filled hq, replaceHeld_append_stopped _ hp, List.take_length, List.drop_eq_nil_of_le (Nat.le_succ _), putHart_putHart] at hmod
  rw [List.take_length, List.drop_eq_nil_of_le (Nat.le_succ _)]
  refine hmod.trans (congrArg (fun g => EStateM.Result.ok () (s.putHart g)) ?_)
  exact congrArg (fun l => { h with openA := none, vq := l }) (vput_vput _ _ _ _)

/-- Elements that leave everything but the entry as it is fill it in order (R152). -/
theorem run_each_filled (hst : s.curStream = .a) (hq : q.val < 4) (hp : heldEntry (h.vq.getD q.val []) h.apc = none) {count : Nat} {body : Nat → M Unit}
    {val : Nat → Word64}
    (hbody : ∀ i < count, ∀ elems, body i (s.putHart (h.filled q n elems)) = putEntry q i (val i) (s.putHart (h.filled q n elems))) :
    each (List.range count) body (s.putHart (h.filled q n [])) = .ok () (s.putHart (h.filled q n ((List.range count).map val))) := by
  have hfrom (m k : Nat) (hk : k + m ≤ count) : each (List.range' k m) body (s.putHart (h.filled q n ((List.range k).map val))) =
      .ok () (s.putHart (h.filled q n ((List.range (k + m)).map val))) := by
    induction m generalizing k with
    | zero => rfl
    | succ m ih =>
      have hput := run_putEntry_filled (n := n) (elems := (List.range k).map val) hst hq hp (val k)
      rw [List.length_map, List.length_range] at hput
      have hnext : (List.range k).map val ++ [val k] = (List.range (k + 1)).map val := by rw [List.range_succ, List.map_append]; rfl
      rw [hnext] at hput
      simp only [List.range'_succ, each, run_bind, hbody k (by omega), hput]
      rw [ih (k + 1) (by omega), Nat.add_right_comm, Nat.add_assoc]
  have hall := hfrom count 0 (by omega)
  rwa [← List.range_eq_range', Nat.zero_add] at hall

end

/-- Settles O40. -/
theorem localStoreGather : Obligations.LocalStoreGather := by
  unfold Obligations.LocalStoreGather
  intro s h q ew fr ra rb rc core listOff dataOff hst hh hr ht hp hheld hls hs hq htable hplace hroom n base list count index va hb hl hat
  have hn : n = Ew.bytes ew := (Ew.bytes_eq ew).symm
  clear_value n
  subst hn
  have hsame := sameAccess_filled h q (Ew.bytes ew)
  have hquiet (elems : List Word64) : (s.putHart (h.filled q (Ew.bytes ew) elems)).quiet (h.filled q (Ew.bytes ew) elems) :=
    quiet_putHart ⟨hp, hheld, hls⟩ hst ht rfl
  have hbody : ∀ i < count, ∀ elems, gatherElem q (Ew.bytes ew) fr base list i (s.putHart (h.filled q (Ew.bytes ew) elems)) =
      putEntry q i (BitVec.ofNat 64 (s.ls.readLE (lsIndex core (dataOff i)) (Ew.bytes ew))) (s.putHart (h.filled q (Ew.bytes ew) elems)) := by
    intro i hi elems
    obtain ⟨hlist, hdata, hlspill, hdspill⟩ := hat i hi
    rw [← hst] at hlspill hdspill
    have hword : listWord (BitVec.ofNat 64 (list.toNat + 8 * i)) (s.putHart (h.filled q (Ew.bytes ew) elems)) =
        .ok (BitVec.ofNat 64 (index i)) (s.putHart (h.filled q (Ew.bytes ew) elems)) :=
      run_listWord_of_quiet (hquiet elems) (localAt_putHart hh (hsame elems) ⟨hlist, hlspill⟩)
    have hload := run_load_of_quiet (hquiet elems) (localAt_putHart hh (hsame elems) ⟨hdata, hdspill⟩) (viaOf fr)
    rw [BitVec.ofNat_add, ofNat_toNat_self] at hword
    have hva : indexed base (BitVec.ofNat 64 (index i)) (Ew.bytes ew) = va i := by
      simp only [va, BitVec.ofNat_add, BitVec.ofNat_mul, ofNat_toNat_self, indexed]
    simp only [gatherElem, run_bind, hword, hva, run_interlock_of_quiet (hquiet elems), run_actor (hart_putHart _ _), hload, putHart_ls]
  have hdrain : drainHart h.slot (s.putHart { h with openA := none }) = .ok () (s.putHart { h with openA := none }) :=
    run_drain_of_none fun p hmem => by rw [show (s.putHart { h with openA := none }).pending = [] from hp] at hmem; exact nomatch hmem
  have hx := run_each_filled (n := Ew.bytes ew) hst hq hplace hbody
  generalize hvals : (List.range count).map (fun i => BitVec.ofNat 64 (s.ls.readLE (lsIndex core (dataOff i)) (Ew.bytes ew))) = vals at hx ⊢
  have hlen : vals.length = count := by rw [← hvals, List.length_map, List.length_range]
  have hvq := vq_filled (h := h) (n := Ew.bytes ew) (elems := vals) hq
  have hgather := exec_gather (ew := ew) (fr := fr) (ra := ra) (rb := rb) (rc := rc) (s2 := s.putHart (h.filled q (Ew.bytes ew) vals)) hst hh hr hs hb hl htable hdrain
    (hart_putHart _ _) hst (hart_putHart _ _) hst rfl hq hplace hroom (by rw [putHart_putHart, ← filled_nil]; exact hx)
    (by rw [hvq, heldEntry_append_stopped hplace]; exact congrArg some hlen) _ List.mem_cons_self
  rw [hgather, hvq, replaceHeld_append_stopped _ hplace, retired_putHart, List.take_of_length_le hlen.le]
  exact congrArg (fun l => Host.Outcome.next (s.retired (({ h with openA := none, vq := l } : Hart).setResume .a 0))) (vput_vput _ _ _ _)

end Sys2Proof.Machine
end

section
/-! Key-value indices: the rows of a list of positions (R318 to R320). -/

namespace Sys2Proof.Machine

/-! ### The row of a position -/

theorem blockPage_eq (page : Word64) : blockPage page = BitVec.ofNat 64 (page.toNat / 2 ^ 16 * 2 ^ 16) := by
  apply BitVec.eq_of_getLsbD_eq
  intro i hi
  have hmask : (0xFFFF#64).getLsbD i = decide (i < 16) := by
    have := Nat.testBit_two_pow_sub_one 16 i
    rw [BitVec.getLsbD_ofNat]
    simpa [hi] using this
  rw [blockPage, BitVec.getLsbD_and, BitVec.getLsbD_not, hmask, BitVec.getLsbD_ofNat, ← Nat.shiftRight_eq_div_pow, ← Nat.shiftLeft_eq, Nat.testBit_shiftLeft,
    Nat.testBit_shiftRight]
  by_cases h16 : 16 ≤ i
  · simp [hi, h16, BitVec.getLsbD, Nat.add_sub_cancel' h16]
  · have hlt : i < 16 := by omega
    simp [hlt, h16]

theorem msb_iff_toInt_neg (x : Word64) : x.msb = true ↔ x.toInt < 0 := by
  rw [BitVec.msb_eq_toInt, decide_eq_true_eq]

theorem ones_eq : (0xFFFFFFFFFFFFFFFF : Word64) = BitVec.allOnes 64 := rfl

/-- A position that the table takes, whose block has a page: the address of its row, or all ones (R319). -/
theorem rowOf_eq {nblk : Nat} {pos page : Word64} (hp : ¬(pos.toInt < 0 ∨ nblk ≤ pos.toNat / 64)) (h0 : ¬page = 0) (map : Word64) :
    rowOf nblk pos page map = if map.getLsbD (pos.toNat % 64) then blockPage page + BitVec.ofNat 64 (512 * popcountN map.toNat (pos.toNat % 64))
      else BitVec.allOnes 64 := by
  rw [not_or] at hp
  obtain ⟨hneg, hblk⟩ := hp
  rw [rowOf, blockPage_eq, ← BitVec.ofNat_add, ones_eq, popcountN_eq_countP]
  simp only [hneg, hblk, h0, false_or]
  cases map.getLsbD (pos.toNat % 64) <;> rfl

theorem rowOf_of_none {nblk : Nat} {pos page : Word64} (hp : pos.toInt < 0 ∨ nblk ≤ pos.toNat / 64 ∨ page = 0) (map : Word64) :
    rowOf nblk pos page map = BitVec.allOnes 64 := by
  rw [rowOf, if_pos (by rcases hp with h | h | h <;> simp [h]), ones_eq]

/-- The element that `kvx` leaves for a position, as R319 reads its words. -/
def kvxRow (pages maps : Word64) (nblk : Nat) (list : Word64) (i : Nat) : M Word64 := do
  let pos ← listWord (list + BitVec.ofNat 64 (8 * i))
  if pos.toInt < 0 ∨ nblk ≤ pos.toNat / 64 then pure 0xFFFFFFFFFFFFFFFF
  else do
    let page ← listWord (pages + BitVec.ofNat 64 (8 * (pos.toNat / 64)))
    if page = 0 then pure 0xFFFFFFFFFFFFFFFF
    else do
      let map ← listWord (maps + BitVec.ofNat 64 (8 * (pos.toNat / 64)))
      pure (rowOf nblk pos page map)

theorem kvxElem_eq (t : BlockTable) (list : Word64) (i : Nat) : kvxElem t list i = kvxRow t.pages t.maps t.nblk list i := by
  unfold kvxElem kvxRow
  refine congrArg (listWord (list + BitVec.ofNat 64 (8 * i)) >>= ·) (funext fun pos => ?_)
  have hcond : (pos.msb || decide (t.nblk ≤ pos.toNat / 64)) = true ↔ pos.toInt < 0 ∨ t.nblk ≤ pos.toNat / 64 := by
    rw [Bool.or_eq_true, msb_iff_toInt_neg, decide_eq_true_eq]
  by_cases hp : pos.toInt < 0 ∨ t.nblk ≤ pos.toNat / 64
  · simp only [hcond.2 hp, if_pos hp, if_true, ones_eq]
  · have hc : ¬(pos.msb || decide (t.nblk ≤ pos.toNat / 64)) = true := mt hcond.1 hp
    simp only [if_neg hc, if_neg hp]
    refine congrArg (listWord (t.pages + BitVec.ofNat 64 (8 * (pos.toNat / 64))) >>= ·) (funext fun page => ?_)
    by_cases h0 : page = 0
    · simp only [if_pos h0, ones_eq]
    · simp only [if_neg h0, rowOf_eq hp h0]

section
variable {P : State → Prop} (hP : MemClosed P)
include hP

theorem keeps_kvxRow (pages maps : Word64) (nblk : Nat) (list : Word64) (i : Nat) : Keeps P (kvxRow pages maps nblk list i) :=
  keeps_bind (keeps_listWord hP _) fun _ => keeps_ite (fun _ => keeps_pure _) fun _ => keeps_bind (keeps_listWord hP _) fun _ =>
    keeps_ite (fun _ => keeps_pure _) fun _ => keeps_bind (keeps_listWord hP _) fun _ => keeps_pure _

end

theorem keeps_putEntry_unstopped (q : QNo) (i : Nat) (v : Word64) : Keeps State.unstopped (putEntry q i v) := by
  refine keeps_bind keeps_curPc fun _ => keeps_bind keeps_getHart fun h => ?_
  split
  · exact keeps_pure ()
  · exact keeps_bind (keeps_padElems unstopped_closed _ _) fun l => keeps_bind keeps_curPc fun _ => keeps_modHart_unstopped _

/-! ### The descriptor -/

/-- A descriptor's 24 bytes that R318 allows, as its three doublewords. -/
theorem blockTable_of {b : Nat} (hn : b / 2 ^ 128 ≤ 16384) (hp : (BitVec.ofNat 64 b).toNat % 8 = 0) (hm : (BitVec.ofNat 64 (b / 2 ^ 64)).toNat % 8 = 0) :
    BlockTable.of b = some { pages := BitVec.ofNat 64 b, maps := BitVec.ofNat 64 (b / 2 ^ 64), nblk := b / 2 ^ 128 } := by
  have hpages : BitVec.ofNat 64 (bitsOf b 0 64) = BitVec.ofNat 64 b := by
    apply BitVec.eq_of_toNat_eq
    simp only [BitVec.toNat_ofNat, bitsOf_zero, Nat.mod_mod]
  have hmaps : BitVec.ofNat 64 (bitsOf b 64 64) = BitVec.ofNat 64 (b / 2 ^ 64) := by
    apply BitVec.eq_of_toNat_eq
    simp only [BitVec.toNat_ofNat, bitsOf, Nat.shiftRight_eq_div_pow, Nat.mod_mod]
  have hnblk : bitsOf b 128 32 = b / 2 ^ 128 := by
    rw [bitsOf, Nat.shiftRight_eq_div_pow, Nat.mod_eq_of_lt (by omega)]
  have hhigh : bitsOf b 160 32 = 0 := by
    rw [bitsOf, Nat.shiftRight_eq_div_pow, show (2 : Nat) ^ 160 = 2 ^ 128 * 2 ^ 32 from rfl, ← Nat.div_div_eq_div_mul, Nat.div_eq_of_lt (by omega)]
    rfl
  simp only [BlockTable.of, hpages, hmaps, hnblk, hhigh]
  rw [if_neg]
  omega

/-- A descriptor, read by single doublewords (R162, R318). -/
def readTable (a : Actor) (desc : Word64) : M Nat := eachFold (List.range 3) 0 fun v i => do
  let x ← a.load .home (desc + BitVec.ofNat 64 (8 * i)) 8
  pure (v + x * 2 ^ (64 * i))

section
variable {s s0 s1 s2 : State} {h g : Hart} {q : QNo} {ra rb rc : SReg} {b : Nat}

theorem run_atRecord {α : Type} {x : M α} {a : α} {t : State} (hx : x s = .ok a t) (va : Word64) : atRecord va x s = .ok a t := by
  simp only [atRecord, hx]

/-- `kvx` whose descriptor can be read and whose elements can be taken (R318 to R320). -/
theorem exec_kvx_rows (hst : s.curStream = .a) (hh : s.hart = some h) (hr : h.resumeA = 0) (hq : q.val < 4) (hd : (h.sreg .a ra).toNat % 8 = 0)
    (hl : (h.sreg .a rb).toNat % 8 = 0) (hfree : s.free { h with openA := none } (h.sreg .a ra) 24 false)
    (hheld : heldEntry (h.vq.getD q.val []) h.apc = none) (hroom : (h.vq.getD q.val []).length < 4)
    (hb : readTable (s.actor h .a) (h.sreg .a ra) (s.putHart { h with openA := none }) = .ok b s0)
    (hn : b / 2 ^ 128 ≤ 16384) (hp : (BitVec.ofNat 64 b).toNat % 8 = 0) (hm : (BitVec.ofNat 64 (b / 2 ^ 64)).toNat % 8 = 0)
    (ht : s0.tableUsed (coreOfSlot s0.curSlot) + 3 ≤ 64) (hh0 : s0.hart = some { h with openA := none })
    (hdr : drainHart h.slot s0 = .ok () s1) (hh1 : s1.hart = some { h with openA := none }) (hst1 : s1.curStream = .a) (hs1 : s1.curStop = none)
    (hx : each (List.range (min (h.sreg .a rc).toNat 4096)) (fun i => do
        let x ← kvxRow (BitVec.ofNat 64 b) (BitVec.ofNat 64 (b / 2 ^ 64)) (b / 2 ^ 128) (h.sreg .a rb) i
        putEntry q i x) (s1.putHart (h.opening q 8)) = .ok () s2)
    (hg : s2.hart = some g) (hst2 : s2.curStream = .a) (hpc : g.apc = h.apc)
    (hlen : (heldEntry (g.vq.getD q.val []) h.apc).map (fun e => e.elems.length) = some (min (h.sreg .a rc).toNat 4096)) :
    exec (.kvx q ra rb rc) s = .next (s2.retired ({ g with
      vq := vput g.vq q.val (replaceHeld (g.vq.getD q.val []) h.apc fun e =>
        [.reserved { e with elems := e.elems.take (min (h.sreg .a rc).toNat 4096) } true]) }.setResume .a 0)) := by
  have hs : (s1.putHart (h.opening q 8)).unstopped := hs1
  have hopened : (s1.putHart (h.opening q 8)).hart = some (h.opening q 8) := hart_putHart _ _
  have hstream : (s1.putHart (h.opening q 8)).curStream = .a := hst1
  have htake : takeEntry q 8 s1 = .ok () (s1.putHart (h.opening q 8)) := run_takeEntry hst1 hh1 hq hheld hroom 8
  generalize s1.putHart (h.opening q 8) = s3 at *
  have hfin := run_gather_elems (pc := h.apc) hstream hopened hs rfl hheld (vq_opening hq h _)
    (fun i => keeps_bind (keeps_kvxRow (holdsPlace_closed q h.apc _) _ _ _ _ i) fun x => keeps_putEntry hq hheld i x) hx hg hlen hpc hst2 true
  have hbody (i : Nat) : Keeps State.unstopped (do
      let x ← kvxRow (BitVec.ofNat 64 b) (BitVec.ofNat 64 (b / 2 ^ 64)) (b / 2 ^ 128) (h.sreg .a rb) i
      putEntry q i x) := keeps_bind (keeps_kvxRow unstopped_closed _ _ _ _ i) fun x => keeps_putEntry_unstopped q i x
  have hall : each (((List.range (min (h.sreg .a rc).toNat 4096)).drop ((h.opening q 8).resume s3.curStream).toNat).filter fun _ => true) (fun i => do
      let x ← kvxRow (BitVec.ofNat 64 b) (BitVec.ofNat 64 (b / 2 ^ 64)) (b / 2 ^ 128) (h.sreg .a rb) i
      putEntry q i x) s3 = .ok () s2 := by
    have hres : (h.opening q 8).resume .a = 0 := hr
    rw [hstream, hres, List.filter_true]
    exact hx
  have hexec : exec (.kvx q ra rb rc) s = issue (do
      accessQueue q
      let desc ← rS ra
      let list ← rS rb
      aligned desc 8
      aligned list 8
      interlock desc 24 false
      let a ← actor
      let b ← atRecord desc (readTable a desc)
      match BlockTable.of b with
      | none => recordBad desc
      | some t =>
        needTable 3
        let h ← getHart
        drainHart h.slot
        let count ← elemCount rc
        takeEntry q 8
        let cut ← firstFault count (fun _ => true) (kvxStop t list) (fun i => if i = 0 then modHeld q fun _ _ => [] else pure ())
          (fun i => do
            let x ← kvxRow t.pages t.maps t.nblk list i
            putEntry q i x) (some false)
        finishEntry q true (cut.getD count)) s := by
    simp only [← kvxElem_eq]
    rfl
  have hstq : (s.putHart { h with openA := none }).curStream = .a := hst
  have hregs (r : SReg) : ({ h with openA := none } : Hart).sreg .a r = h.sreg .a r := rfl
  have hinter : interlock (h.sreg .a ra) 24 false (s.putHart { h with openA := none }) = .ok () (s.putHart { h with openA := none }) :=
    run_interlock_free (hart_putHart _ _) hfree
  have hactor : (s.putHart { h with openA := none }).actor { h with openA := none } .a = s.actor h .a := rfl
  have hcount : elemCount rc s1 = .ok (min (h.sreg .a rc).toNat 4096) s1 := (run_elemCount hst1 hh1).trans rfl
  rw [hexec]
  apply issue_eq_retired
  simp only [run_bind, run_accessQueue hst hh (by omega : q.val < 6), run_rS, hart_putHart, hstq, hregs, run_aligned hd, run_aligned hl, hinter,
    run_actor (hart_putHart s { h with openA := none }), hactor, run_atRecord hb, blockTable_of hn hp hm, needTable, run_get, if_pos ht, run_pure, run_getHart, hh0,
    hdr, hcount, htake, run_firstFault_whole hbody hopened hs hall, Option.getD_none, hfin, hst2]

end

/-- A doubleword of the local store, as an access to it (R138, R162). -/
theorem localAt_of_localWord {s : State} {h : Hart} {va v : Word64} (hw : s.localWord h va v) :
    ∃ core off, s.localAt h va 8 core off ∧ s.ls.readLE (lsIndex core off) 8 = v.toNat := by
  obtain ⟨base, size, core, hwin, hin, hle, hspill, rfl⟩ := hw
  refine ⟨core, base + (va.toNat - windowBase), ⟨⟨base, size, hwin, hin, hle, rfl⟩, hspill⟩, ?_⟩
  rw [BitVec.toNat_ofNat, Nat.mod_eq_of_lt (readLE_lt _ _ _)]

section
variable {s : State} {h g : Hart} {q : QNo}

theorem run_load_localWord (hq : (s.putHart g).quiet g) (hh : s.hart = some h) (hg : g.sameAccess h) {va v : Word64} (hw : s.localWord h va v)
    (via : LoadVia) : (s.actor h s.curStream).load via va 8 (some false) (s.putHart g) = .ok v.toNat (s.putHart g) := by
  obtain ⟨core, off, hl, hv⟩ := localAt_of_localWord hw
  have hload := run_load_of_quiet hq (localAt_putHart hh hg hl) via
  rw [putHart_curStream, actor_putHart hg] at hload
  exact hload.trans (congrArg (fun n => EStateM.Result.ok n (s.putHart g)) hv)

theorem run_listWord_localWord (hq : (s.putHart g).quiet g) (hh : s.hart = some h) (hg : g.sameAccess h) {va v : Word64} (hw : s.localWord h va v) :
    listWord va (s.putHart g) = .ok v (s.putHart g) := by
  obtain ⟨core, off, hl, hv⟩ := localAt_of_localWord hw
  refine (run_listWord_of_quiet hq (localAt_putHart hh hg hl)).trans (congrArg (fun x => EStateM.Result.ok x (s.putHart g)) ?_)
  exact (congrArg (BitVec.ofNat 64) hv).trans (ofNat_toNat_self v)

/-- The row of a position whose words lie in the local store (R319). -/
theorem run_kvxRow_local (hq : (s.putHart g).quiet g) (hh : s.hart = some h) (hg : g.sameAccess h) {pages maps list pos page map : Word64} {nblk i : Nat}
    (hpos : s.localWord h (list + BitVec.ofNat 64 (8 * i)) pos)
    (hrest : 0 ≤ pos.toInt → pos.toNat / 64 < nblk → s.localWord h (pages + BitVec.ofNat 64 (8 * (pos.toNat / 64))) page ∧
      (page ≠ 0 → s.localWord h (maps + BitVec.ofNat 64 (8 * (pos.toNat / 64))) map)) :
    kvxRow pages maps nblk list i (s.putHart g) = .ok (rowOf nblk pos page map) (s.putHart g) := by
  simp only [kvxRow, run_bind, run_listWord_localWord hq hh hg hpos]
  by_cases hp : pos.toInt < 0 ∨ nblk ≤ pos.toNat / 64
  · rw [if_pos hp, rowOf_of_none (hp.imp_right .inl), run_pure, ones_eq]
  · rw [not_or, Int.not_lt, Nat.not_le] at hp
    obtain ⟨hpage, hmap⟩ := hrest hp.1 hp.2
    rw [if_neg (by omega)]
    simp only [run_bind, run_listWord_localWord hq hh hg hpage]
    by_cases h0 : page = 0
    · rw [if_pos h0, rowOf_of_none (.inr (.inr h0)), run_pure, ones_eq]
    · rw [if_neg h0]
      simp only [run_bind, run_listWord_localWord hq hh hg (hmap h0), run_pure]

/-- A descriptor in the local store (R318). -/
theorem run_readTable_local (hq : (s.putHart g).quiet g) (hh : s.hart = some h) (hg : g.sameAccess h) {desc pages maps nblk : Word64}
    (h0 : s.localWord h desc pages) (h1 : s.localWord h (desc + 8) maps) (h2 : s.localWord h (desc + 16) nblk) :
    readTable (s.actor h s.curStream) desc (s.putHart g) = .ok (pages.toNat + maps.toNat * 2 ^ 64 + nblk.toNat * 2 ^ 128) (s.putHart g) := by
  have hr : List.range 3 = [0, 1, 2] := rfl
  have ha0 : desc + BitVec.ofNat 64 (8 * 0) = desc := BitVec.add_zero desc
  have ha1 : desc + BitVec.ofNat 64 (8 * 1) = desc + 8 := rfl
  have ha2 : desc + BitVec.ofNat 64 (8 * 2) = desc + 16 := rfl
  simp only [readTable, hr, eachFold, run_bind, ha0, ha1, ha2, run_load_localWord hq hh hg h0, run_load_localWord hq hh hg h1, run_load_localWord hq hh hg h2,
    run_pure]
  refine congrArg (fun n => EStateM.Result.ok n (s.putHart g)) ?_
  omega

end

/-- Settles O42. -/
theorem keyValueIndexForms : Obligations.KeyValueIndexForms := by
  unfold Obligations.KeyValueIndexForms
  intro s h q ra rb rc hst hh hr hs hq desc list count places h' s' hd hl hfree hheld hroom
  refine ⟨?_, ?_⟩
  · intro pages maps nblk pos page map ht hp hhold hls htable h0 h1 h2 hn hpal hmal hpos hrest
    have hquiet (elems : List Word64) : (s.putHart (h.filled q 8 elems)).quiet (h.filled q 8 elems) := quiet_putHart ⟨hp, hhold, hls⟩ hst ht rfl
    have hquiet' : (s.putHart h').quiet h' := quiet_putHart ⟨hp, hhold, hls⟩ hst ht rfl
    have hb := run_readTable_local hquiet' hh ⟨rfl, rfl, rfl, rfl, rfl, rfl, rfl, rfl, rfl, rfl⟩ h0 h1 h2
    rw [hst] at hb
    have hp64 := pages.isLt
    have hm64 := maps.isLt
    generalize hbdef : pages.toNat + maps.toNat * 2 ^ 64 + nblk.toNat * 2 ^ 128 = b at hb
    have hbn : b / 2 ^ 128 = nblk.toNat := by omega
    have hbm : BitVec.ofNat 64 (b / 2 ^ 64) = maps := BitVec.eq_of_toNat_eq (by rw [BitVec.toNat_ofNat]; omega)
    have hbp : BitVec.ofNat 64 b = pages := BitVec.eq_of_toNat_eq (by rw [BitVec.toNat_ofNat]; omega)
    have hbody : ∀ i < count, ∀ elems, (do
        let x ← kvxRow pages maps nblk.toNat list i
        putEntry q i x : M Unit) (s.putHart (h.filled q 8 elems)) = putEntry q i (rowOf nblk.toNat (pos i) (page i) (map i)) (s.putHart (h.filled q 8 elems)) := by
      intro i hi elems
      simp only [run_bind, run_kvxRow_local (hquiet elems) hh (sameAccess_filled h q 8 elems) (hpos i hi) (hrest i hi)]
    have hdrain : drainHart h.slot s' = .ok () s' :=
      run_drain_of_none fun p hmem => by rw [show s'.pending = [] from hp] at hmem; exact nomatch hmem
    have hx := run_each_filled (n := 8) hst hq hheld hbody
    generalize hvals : (List.range count).map (fun i => rowOf nblk.toNat (pos i) (page i) (map i)) = vals at hx ⊢
    have hlen : vals.length = count := by rw [← hvals, List.length_map, List.length_range]
    have hvq := vq_filled (h := h) (n := 8) (elems := vals) hq
    have hkvx := exec_kvx_rows (ra := ra) (rb := rb) (rc := rc) (s2 := s.putHart (h.filled q 8 vals)) hst hh hr hq hd hl hfree hheld hroom hb
      (hbn ▸ hn) (hbp ▸ hpal) (hbm ▸ hmal) htable (hart_putHart _ _) hdrain (hart_putHart _ _) hst hs
      (by rw [hbn, hbm, hbp, putHart_putHart, ← filled_nil]; exact hx) (hart_putHart _ _) hst rfl
      (by rw [hvq, heldEntry_append_stopped hheld]; exact congrArg some hlen)
    rw [hkvx, hvq, replaceHeld_append_stopped _ hheld, retired_putHart, List.take_of_length_le hlen.le]
    exact congrArg (fun l => Host.Outcome.next (s.retired (({ h with openA := none, vq := l } : Hart).setResume .a 0))) (vput_vput _ _ _ _)
  · intro s0 s1 s2 g b hb pages maps nblk hn hp hm ht hh0 _ hdr hh1 hst1 hs1 hx hg hst2 hpc hlen
    refine exec_kvx_rows hst hh hr hq hd hl hfree hheld hroom hb hn hp hm ht hh0 hdr hh1 hst1 hs1 ?_ hg hst2 hpc hlen
    refine (congrArg (fun body => each (List.range count) body (s1.putHart (h.opening q 8))) (funext fun i => ?_)).trans hx
    refine (bind_assoc _ _ _).trans (congrArg (listWord (list + BitVec.ofNat 64 (8 * i)) >>= ·) (funext fun pos => ?_))
    by_cases hpos : pos.toInt < 0 ∨ nblk ≤ pos.toNat / 64
    · rw [if_pos hpos, if_pos hpos]
    · rw [if_neg hpos, if_neg hpos]
      refine (bind_assoc _ _ _).trans (congrArg (listWord (pages + BitVec.ofNat 64 (8 * (pos.toNat / 64))) >>= ·) (funext fun page => ?_))
      by_cases h0 : page = 0
      · rw [if_pos h0, if_pos h0]
      · rw [if_neg h0, if_neg h0]
        exact bind_assoc _ _ _

end Sys2Proof.Machine
end

section
/-! The cutter forms (R349 to R357). -/

namespace Sys2Proof.Machine

/-- A sequence that answers has answers for both of its parts. -/
theorem ok_of_bind {α β : Type} {x : M α} {f : α → M β} {b : β} {s t : State} (h : (x >>= f) s = .ok b t) :
    ∃ a u, x s = .ok a u ∧ f a u = .ok b t := by
  rw [run_bind] at h
  cases hx : x s with
  | ok a u => rw [hx] at h; exact ⟨a, u, rfl, h⟩
  | error e u => rw [hx] at h; exact nomatch h

section
variable {s s1 s2 s3 s4 s5 s6 : State} {h g : Hart} {bd : BRegNo} {ra rb : SReg} {d : Sparse}

/-- A bound record that has been written stands in its register (R353 to R355). -/
theorem bound_of_putBound {r : BoundRec} (hp : putBound bd d r s = .ok () s6) (hg : s6.hart = some g) : g.b.getD bd.val 0 = r.word := by
  obtain ⟨_, u, -, hmod⟩ := ok_of_bind hp
  rw [run_modHart] at hmod
  cases hu : u.hart with
  | none => rw [hu] at hmod; exact nomatch hmod
  | some k =>
    rw [hu] at hmod
    cases hmod
    rw [hart_putHart] at hg
    cases hg
    exact getD_vput_self bd.isLt _ _ _

/-! ### cut -/

/-- The nonzero at which a cursor stands is its high word (R353). -/
theorem cursor_nonzero (x : Word64) : x.toNat / 2 ^ 32 = bitsOf x.toNat 32 32 := by
  have hx := x.isLt
  rw [bitsOf, Nat.shiftRight_eq_div_pow, Nat.mod_eq_of_lt (by omega)]

/-- A cut past the last row takes the empty tile (R353). -/
theorem exec_cut_past (hi : cutterIssue 5 s = .ok () s1) (hh1 : s1.hart = some h) (hst1 : s1.curStream = .a)
    (hd : readSparse (h.sreg .a ra) s1 = .ok d s2) {r : Nat} (hcur : r = bitsOf (h.sreg .a rb).toNat 0 32) (hr : r = d.nrows) {k : Nat}
    (hk : entry32 d.rowptr d.nrows s2 = .ok k s3)
    (hp : putBound bd d { desc := h.sreg .a ra, r0 := r, k0 := k, rn := r, k1 := k
                          r1 := r, nc := 0, empty := true, split := false, last := true, pdone := false, ddone := false } s3 =
      .ok () s6) (hg : s6.hart = some g) : exec (.cut bd ra rb) s = .next (s6.retired g) := by
  apply issue_eq_retired
  have hlt : ¬d.nrows < r := by omega
  subst hcur
  simp only [run_bind, hi, run_rS, hh1, hst1, hd, if_neg hlt, if_pos hr, hk, hp, run_retire, hg]

/-- A cut before the last row takes the rows that fit (R353). -/
theorem exec_cut_rows (hi : cutterIssue 5 s = .ok () s1) (hh1 : s1.hart = some h) (hst1 : s1.curStream = .a)
    (hd : readSparse (h.sreg .a ra) s1 = .ok d s2) {r k : Nat} (hcur : r = bitsOf (h.sreg .a rb).toNat 0 32)
    (hcurk : k = bitsOf (h.sreg .a rb).toNat 32 32) (hr : r < d.nrows) {p0 p1 : Nat} {c : Cut}
    (h0 : entry32 d.rowptr r s2 = .ok p0 s3) (h1 : entry32 d.rowptr (r + 1) s3 = .ok p1 s4)
    (hk : max k p0 ≤ p1)
    (hc : cutRows d r (max k p0) 256
      { r1 := r, k1 := max k p0, nz := 0, set := [], split := false } s4 = .ok c s5)
    (hp : (do
      each (c.set.zipIdx) fun (col, j) =>
        each (List.range d.cw) fun v => cutEntry (d.cmap + BitVec.ofNat 64 (4 * (d.cw * j + v))) 4 (d.cw * col + v)
      putBound bd d { desc := h.sreg .a ra, r0 := r, k0 := max k p0
                      rn := if c.split then r else c.r1, k1 := c.k1, r1 := c.r1, nc := d.cw * c.set.length
                      empty := decide (c.k1 = max k p0), split := c.split
                      last := decide ((if c.split then r else c.r1) = d.nrows), pdone := false, ddone := false } : M Unit) s5 =
      .ok () s6) (hg : s6.hart = some g) : exec (.cut bd ra rb) s = .next (s6.retired g) := by
  obtain ⟨⟨⟩, u, hmap, hbound⟩ := ok_of_bind hp
  apply issue_eq_retired
  have hlt : ¬d.nrows < r := by omega
  have hne : ¬r = d.nrows := by omega
  have hle : ¬p1 < max k p0 := by omega
  subst hcur hcurk
  simp only [run_bind, hi, run_rS, hh1, hst1, hd, if_neg hlt, if_neg hne, h0, h1, if_neg hle, hc, hmap, hbound, run_retire, hg]

/-! ### cutp -/

/-- The copies of `cutp`, once its sources are known (R354). -/
def copyPartners (bd : BRegNo) (d : Sparse) (b : BoundRec) (dst src : Layout) : M Unit := do
  recordPlaced dst true
  recordPlaced src false
  let map ← readMap d b.nc
  let source (i j : Nat) : M Nat := if j < b.nc then cutRead (src.at i (map.getD j 0) 0 0).1 (esizeOf dst.fmt) else pure 0
  each (List.range (dst.dim 1)) fun j => each (List.range (dst.dim 0)) fun i => do
    let _ ← probe (source i j)
  each (List.range (dst.dim 1)) fun j => each (List.range (dst.dim 0)) fun i => do
    let v ← source i j
    cutWrite (dst.at i j 0 0).1 (esizeOf dst.fmt) v
  putBound bd d { b with pdone := true }

theorem exec_cutp_copies {b : BoundRec} (hb : b = BoundRec.of (h.b.getD bd.val 0)) {dst src : Layout} (hi : cutterIssue 5 s = .ok () s1)
    (hh1 : s1.hart = some h) (hdesc : b.desc ≠ 0) (hpd : b.pdone = false) (hdd : b.ddone = false)
    (hd : readSparse b.desc s1 = .ok d s2) (hda : (h.sreg .a ra).toNat % 64 = 0) (hsa : (h.sreg .a rb).toNat % 64 = 0) (hh2 : s2.hart = some h)
    (hst2 : s2.curStream = .a) (hdst : cutRecord (h.sreg .a ra) true s2 = .ok dst s3) (hsrc : cutRecord (h.sreg .a rb) false s3 = .ok src s4)
    (hfmt : dst.fmt = src.fmt) (h0 : dst.dim 0 ≤ src.dim 0) (hnc : b.nc ≤ dst.dim 1) (hcols : d.ncols ≤ src.dim 1)
    (hx : copyPartners bd d b dst src s4 = .ok () s6) (hg : s6.hart = some g) :
    exec (.cutp bd ra rb) s = .next (s6.retired g) ∧ g.b.getD bd.val 0 = ({ b with pdone := true } : BoundRec).word := by
  obtain ⟨⟨⟩, u1, hplaced, hx⟩ := ok_of_bind hx
  obtain ⟨⟨⟩, u2, hplaced', hx⟩ := ok_of_bind hx
  obtain ⟨map, u3, hmap, hx⟩ := ok_of_bind hx
  obtain ⟨⟨⟩, u4, hprobe, hx⟩ := ok_of_bind hx
  obtain ⟨⟨⟩, u5, hcopy, hp⟩ := ok_of_bind hx
  have hsource (i j : Nat) : (if j < b.nc then cutRead (src.at i (map.getD j 0) 0 0).1 (esizeOf dst.fmt) else pure 0 : M Nat) = partner src map b.nc i j := by
    rw [partner, hfmt]
  simp only [hsource] at hprobe hcopy
  refine ⟨issue_eq_retired ?_, bound_of_putBound hp hg⟩
  have hopen : ¬(b.desc = 0 ∨ b.pdone = true ∨ b.ddone = true) := by
    rw [hpd, hdd]
    exact fun hor => hor.elim hdesc fun hor => hor.elim Bool.false_ne_true Bool.false_ne_true
  have hrec : ¬(dst.fmt ≠ src.fmt ∨ src.dim 0 < dst.dim 0 ∨ dst.dim 1 < b.nc) := by
    simp only [hfmt, ne_eq, not_true, false_or]
    omega
  subst hb
  simp only [run_bind, hi, run_getHart, hh1, if_neg hopen, hd, run_rS, hh2, hst2, run_aligned hda, run_aligned hsa, hdst, hsrc, if_neg hrec,
    if_neg (Nat.not_lt.2 hcols), hplaced, hplaced', hmap, hprobe, hcopy, hp, run_retire, hg]

/-! ### cutd -/

/-- The rows of a tile are cleared, and its nonzeros written one by one (R355). -/
def denseTile (bd : BRegNo) (d : Sparse) (b : BoundRec) (dst : Layout) (map : List Nat) (row0 : Nat) : M Unit := do
  clearTile dst row0 ((b.r1 - b.r0) * d.h)
  each (List.range (b.k1 - b.k0)) fun i => do
    let item ← tileItem d b dst map (b.k0 + i)
    writeItem d dst row0 item
  putBound bd d { b with ddone := true }

theorem exec_cutd_tile {b : BoundRec} (hb : b = BoundRec.of (h.b.getD bd.val 0)) {dst : Layout} {map : List Nat} (hi : cutterIssue 7 s = .ok () s1)
    (hh1 : s1.hart = some h) (hpd : b.pdone = true) (hdd : b.ddone = false) (hd : readSparse b.desc s1 = .ok d s2) (hh2 : s2.hart = some h)
    (hst2 : s2.curStream = .a) (hda : (h.sreg .a ra).toNat % 64 = 0) (hdst : cutRecord (h.sreg .a ra) true s2 = .ok dst s3)
    (hfmt : dst.fmt = d.fmt) (hnc : b.nc ≤ dst.dim 0) (hrows : (h.sreg .a rb).toNat % 2 ^ 16 + (b.r1 - b.r0) * d.h ≤ dst.dim 1)
    (hplaced : recordPlaced dst true s3 = .ok () s4) (hmap : readMap d b.nc s4 = .ok map s5)
    (hx : denseTile bd d b dst map ((h.sreg .a rb).toNat % 2 ^ 16) s5 = .ok () s6) (hg : s6.hart = some g) :
    exec (.cutd bd ra rb) s = .next (s6.retired g) ∧ g.b.getD bd.val 0 = ({ b with ddone := true } : BoundRec).word := by
  obtain ⟨⟨⟩, u1, hclear, hx⟩ := ok_of_bind hx
  obtain ⟨⟨⟩, u2, hitems, hp⟩ := ok_of_bind hx
  refine ⟨issue_eq_retired ?_, bound_of_putBound hp hg⟩
  have hopen : ¬(b.pdone = false ∨ b.ddone = true) := by simp [hpd, hdd]
  have hrec : ¬(dst.fmt ≠ d.fmt ∨ dst.dim 0 < b.nc ∨ dst.dim 1 < (h.sreg .a rb).toNat % 2 ^ 16 + (b.r1 - b.r0) * d.h) := by
    simp only [hfmt, ne_eq, not_true, false_or]
    omega
  subst hb
  simp only [run_bind, hi, run_getHart, hh1, if_neg hopen, hd, run_rS, hh2, hst2, run_aligned hda, hdst, if_neg hrec, hplaced, hmap, hclear, hitems, hp,
    run_retire, hg]

/-- A record that is not packed cannot be made dense (R355). -/
theorem exec_cutd_unpacked (hpd : (BoundRec.of (h.b.getD bd.val 0)).pdone = false) (hi : cutterIssue 7 s = .ok () s1) (hh1 : s1.hart = some h)
    (hw : s1.curWord = s.curWord) : exec (.cutd bd ra rb) s = .next (s.trapped 0x14 (s.curWord.setWidth 64) 11) := by
  apply issue_eq_trapped (s' := s1)
  simp only [run_bind, hi, run_getHart, hh1, hpd, true_or, if_true, cutterTrap]
  rw [← hw]
  rfl

end

/-- Settles O43. -/
theorem cutterFormsComplete : Obligations.CutterFormsComplete := by
  unfold Obligations.CutterFormsComplete
  intro s s1 s2 s3 s4 s5 s6 h g bd ra rb d hh hst hg hst6 va cursor r bound
  refine ⟨fun hi hh1 hst1 hd => ⟨fun hr k hk hp => exec_cut_past hi hh1 hst1 hd rfl hr hk hp hg, ?_⟩, ?_, ?_, ?_⟩
  · intro hr p0 p1 c h0 h1 k hk hc rn hp
    exact exec_cut_rows hi hh1 hst1 hd rfl (cursor_nonzero _) hr h0 h1 hk hc hp hg
  · intro dst src hi hh1 hst1 hdesc hpd hdd hd hda hsa hh2 hst2 hdst hsrc hfmt h0 hnc hcols hx
    exact exec_cutp_copies rfl hi hh1 hdesc hpd hdd hd hda hsa hh2 hst2 hdst hsrc hfmt h0 hnc hcols hx hg
  · intro dst map hi hh1 hst1 hpd hdd hd hh2 hst2 hda hdst row0 rows hfmt hnc hrows hplaced hmap hx
    exact exec_cutd_tile rfl hi hh1 hpd hdd hd hh2 hst2 hda hdst hfmt hnc hrows hplaced hmap hx hg
  · intro hpd hi hh1 hw
    exact exec_cutd_unpacked hpd hi hh1 hw

end Sys2Proof.Machine
end

section
/-! What a swap of registers keeps (R64, R65). -/

namespace Sys2Proof.Machine

/-- A property that neither the memory operations nor any change of the rest of the state can break, while who issues which word stays. -/
structure StepClosed (P : State → Prop) : Prop extends MemClosed P where
  other : ∀ s t, P s → t.mem = s.mem → t.ls = s.ls → t.curSlot = s.curSlot → t.curStream = s.curStream → t.curWord = s.curWord → P t

/-- Who issues which word. -/
def State.sameTurn (s t : State) : Prop := t.curSlot = s.curSlot ∧ t.curStream = s.curStream ∧ t.curWord = s.curWord

theorem sameTurn_closed (s : State) : StepClosed s.sameTurn where
  mem _ _ _ h := h
  ls _ _ _ h := h
  poison _ _ h := h
  slicePoison _ _ h := h
  lsPoison _ _ h := h
  sectorKey _ _ h := h
  cores _ _ h := h
  pending _ _ h := h
  held _ _ h := h
  cover _ _ h := h
  lost _ _ h := h
  hits _ _ h := h
  spilled _ _ h := h
  voltor _ _ h := h
  freeCtr _ _ h := h
  oldFrames _ _ h := h
  taken _ _ h := h
  badTaken _ _ h := h
  spoiled _ _ h := h
  other := by
    rintro t u ⟨hslot, hst, hw⟩ - - hslot' hst' hw'
    exact ⟨hslot'.trans hslot, hst'.trans hst, hw'.trans hw⟩

/-- A part that chooses between two parts. -/
theorem keeps_if {α : Type} {P : State → Prop} {c : Prop} [Decidable c] {x y : M α} (hx : Keeps P x) (hy : Keeps P y) : Keeps P (if c then x else y) :=
  keeps_ite (fun _ => hx) fun _ => hy

theorem keeps_withSub {α : Type} {P : State → Prop} {x : M α} (hx : Keeps P x) (c : BitVec 8) (b : BitVec 5) : Keeps P (withSub c b x) := by
  constructor
  intro s hs
  have h1 := hx.run s hs
  unfold withSub
  cases hr : x s with
  | ok a t => rwa [hr] at h1
  | error e t =>
    rw [hr] at h1
    cases e with
    | _ => exact h1

section
variable {P : State → Prop} (hP : StepClosed P)
include hP

theorem keeps_modHart (f : Hart → Hart) : Keeps P (modHart f) := by
  constructor
  intro s hs
  rw [run_modHart]
  cases s.hart with
  | none => exact hs
  | some h => exact hP.other _ _ hs rfl rfl rfl rfl rfl

theorem keeps_spillHomes (f : RFile) (x : Nat) : Keeps P (spillHomes f x) :=
  keeps_bind keeps_getHart fun h => keeps_bind (keeps_modify fun s hs => hP.spilled s _ hs) fun _ =>
    keeps_each (fun (o, len) => keeps_bind (keeps_probe (keeps_attempt (keeps_find hP.toMemClosed _ _ _ _ _ _))) fun r => by
      cases r with
      | error _ => exact keeps_pure ()
      | ok p =>
        refine keeps_if (keeps_pure ()) (keeps_bind (keeps_loadLoc hP.toMemClosed _ _ _ _ _) fun v => keeps_modify fun s hs => hP.spilled s _ hs)) _

theorem keeps_spillOut (f : RFile) (x : Nat) : Keeps P (spillOut f x) :=
  keeps_bind keeps_getHart fun _ =>
    keeps_bind (keeps_withSub (keeps_each (fun _ => keeps_storeNow hP.toMemClosed _ _ _ _ _ _) _) _ _) fun _ =>
    keeps_bind (keeps_modHart hP _) fun _ => keeps_modify fun s hs => hP.hits s _ hs

theorem keeps_garble (gran n old was mem hit : Nat) : Keeps P (garble gran n old was mem hit) :=
  keeps_eachFold (fun _ _ => keeps_if (keeps_pure _) (keeps_bind (keeps_freeWord hP.toMemClosed) fun _ => keeps_pure _)) _ _

theorem keeps_spillIn (f : RFile) (x : Nat) : Keeps P (spillIn f x) := by
  refine keeps_bind keeps_getHart fun h => keeps_bind (keeps_withSub (keeps_withSub (keeps_eachFold (fun v piece =>
    keeps_bind (keeps_load hP.toMemClosed ..) fun _ => keeps_pure _) ..) ..) ..) fun mem => keeps_bind keeps_get fun s => ?_
  extract_lets hit was new
  have hnew (v : Nat) : Keeps P (new v) :=
    keeps_bind (keeps_modHart hP _) fun _ => keeps_modify fun s hs => hP.other _ _ hs rfl rfl rfl rfl rfl
  exact keeps_if (keeps_bind (keeps_pure _) hnew) (keeps_bind (keeps_garble hP ..) hnew)

theorem keeps_evictOne (f : RFile) (named : List Nat) : Keeps P (evictOne f named) := by
  refine keeps_bind keeps_getHart fun h => ?_
  split
  · exact keeps_pure none
  next y _ =>
    have hrest : Keeps P (do spillHomes f y; modHart fun h => h.setResident f y false; pure (some y)) :=
      keeps_bind (keeps_spillHomes hP ..) fun _ => keeps_bind (keeps_modHart hP _) fun _ => keeps_pure _
    exact keeps_if (keeps_bind (keeps_spillOut hP ..) fun _ => hrest) hrest

theorem keeps_placeAmong (others : List Nat) (x : Nat) : Keeps P (placeAmong others x) :=
  keeps_bind keeps_getHart fun _ => keeps_bind (keeps_freeWord hP.toMemClosed) fun _ => keeps_modHart hP _

theorem keeps_swapFile (f : RFile) (named : List Nat) : Keeps P (swapFile f named) := by
  refine keeps_each (fun x => keeps_bind keeps_getHart fun h => keeps_if (keeps_pure ()) ?_) _
  extract_lets rest
  have hrest (y : Option Nat) : Keeps P (rest y) := keeps_bind (keeps_spillIn hP ..) fun _ => by
    split
    · exact keeps_pure ()
    · exact keeps_modHart hP _
    · exact keeps_placeAmong hP ..
  exact keeps_if (keeps_bind (keeps_pure _) hrest) (keeps_bind (keeps_evictOne hP ..) hrest)

theorem keeps_garbleShared (f : RFile) (named : List Nat) : Keeps P (garbleShared f named) :=
  keeps_each (fun _ => keeps_bind keeps_get fun _ => keeps_bind keeps_getHart fun _ =>
    keeps_if (keeps_bind (keeps_freeBytes hP.toMemClosed _) fun _ => keeps_modHart hP _) (keeps_pure ())) _

theorem keeps_swapIn (r : Named) : Keeps P (swapIn r) :=
  keeps_bind (keeps_keeping (keeps_bind (keeps_swapFile hP ..) fun _ => keeps_swapFile hP ..)) fun _ =>
    keeps_bind (keeps_garbleShared hP ..) fun _ => keeps_bind (keeps_garbleShared hP ..) fun _ => keeps_modHart hP _

end

end Sys2Proof.Machine
end

section
/-! The draft-tree forms (R333 to R344). -/

namespace Sys2Proof.Machine

/-! ### What a tree derives from its parents -/

section
variable (t : Tree)

/-- The greatest of the depths, folded over the nodes (R344). -/
theorem foldl_max_eq {l : List Nat} {f : Nat → Nat} {a m : Nat} (ha : a ≤ m) (hle : ∀ i ∈ l, f i ≤ m) (hm : m = a ∨ ∃ i ∈ l, f i = m) :
    l.foldl (fun x i => max x (f i)) a = m := by
  induction l generalizing a with
  | nil =>
    obtain rfl | ⟨i, hi, -⟩ := hm
    · rfl
    · exact nomatch hi
  | cons j l ih =>
    have hj := hle j (List.mem_cons_self)
    refine ih (Nat.max_le.2 ⟨ha, hj⟩) (fun i hi => hle i (List.mem_cons_of_mem _ hi)) ?_
    obtain rfl | ⟨i, hi, hfi⟩ := hm
    · exact .inl (Nat.max_eq_left hj).symm
    · rcases List.mem_cons.1 hi with rfl | hi
      · subst hfi
        exact .inl (Nat.max_eq_right ha).symm
      · exact .inr ⟨i, hi, hfi⟩

theorem maxDepth_eq {m : Nat} (hle : ∀ i, i < t.nodes.length → t.depth i ≤ m) (hm : m = 0 ∨ ∃ i, i < t.nodes.length ∧ t.depth i = m) :
    (List.range t.count).foldl (fun m i => max m (t.depth i)) 0 = m :=
  foldl_max_eq (Nat.zero_le m) (fun i hi => hle i (List.mem_range.1 hi)) (hm.imp_right fun ⟨i, hi, he⟩ => ⟨i, List.mem_range.2 hi, he⟩)

/-- The nodes on the path to node e, with their numbers (R342). -/
def Tree.onPath (e : Nat) : List (TreeNode × Nat) := t.nodes.zipIdx.filter fun n => t.anc e n.2

theorem onPath_numbers (e : Nat) : (t.onPath e).map Prod.snd = (List.range t.nodes.length).filter fun j => t.anc e j := by
  rw [Tree.onPath, List.range_eq_range', ← List.zipIdx_map_snd 0 t.nodes, List.filter_map]
  rfl

theorem pruned_nodes (e : Nat) : (t.pruned e).nodes.length = ((List.range t.nodes.length).filter fun j => t.anc e j).length ∧
    ∀ k, k < ((List.range t.nodes.length).filter fun j => t.anc e j).length → ∃ x y, (t.pruned e).nodes[k]? = some x ∧
      t.nodes[((List.range t.nodes.length).filter fun j => t.anc e j).getD k 0]? = some y ∧
      x.token = y.token ∧ x.score = y.score ∧ x.parent = BitVec.ofNat 8 (k - 1) ∧ x.flags = 1 := by
  have hpruned : (t.pruned e).nodes = (t.onPath e).zipIdx.map fun (n, k) => { n.1 with parent := BitVec.ofNat 8 (k - 1), flags := 1 } := rfl
  rw [hpruned, ← onPath_numbers]
  refine ⟨by simp only [List.length_map, List.length_zipIdx], fun k hk => ?_⟩
  rw [List.length_map] at hk
  have hmem : (t.onPath e)[k] ∈ t.nodes.zipIdx := List.mem_of_mem_filter (List.getElem_mem hk)
  refine ⟨{ (t.onPath e)[k].1 with parent := BitVec.ofNat 8 (k - 1), flags := 1 }, (t.onPath e)[k].1, ?_, ?_, rfl, rfl, rfl, rfl⟩
  · rw [List.getElem?_map, List.getElem?_zipIdx, List.getElem?_eq_getElem hk]
    rw [Option.map_some, Option.map_some, Nat.zero_add]
  · rw [List.getD_eq_getElem?_getD, List.getElem?_map, List.getElem?_eq_getElem hk]
    exact List.mem_zipIdx_iff_getElem?.1 hmem

/-- A list that is built element by element, each from those before it. -/
def grown (g : List Bool → Nat → Bool) (n : Nat) : List Bool := (List.range n).foldl (fun ok i => ok ++ [g ok i]) []

theorem grown_succ (g : List Bool → Nat → Bool) (n : Nat) : grown g (n + 1) = grown g n ++ [g (grown g n) n] := by
  rw [grown, List.range_succ, List.foldl_append]
  rfl

@[simp] theorem length_grown (g : List Bool → Nat → Bool) (n : Nat) : (grown g n).length = n := by
  induction n with
  | zero => rfl
  | succ n ih => rw [grown_succ, List.length_append, ih, List.length_singleton]

theorem getD_grown_of_le {g : List Bool → Nat → Bool} {m n i : Nat} (hmn : m ≤ n) (hi : i < m) : (grown g n).getD i false = (grown g m).getD i false := by
  induction n, hmn using Nat.le_induction with
  | base => rfl
  | succ n hmn ih => rw [grown_succ, List.getD_append _ _ _ _ (by rw [length_grown]; omega), ih]

theorem getD_grown {g : List Bool → Nat → Bool} {n i : Nat} (hi : i < n) : (grown g n).getD i false = g (grown g i) i := by
  rw [getD_grown_of_le hi (Nat.lt_succ_self i), grown_succ, List.getD_append_right _ _ _ _ (by rw [length_grown]), length_grown, Nat.sub_self]
  rfl

/-- Whether a node is accepted, from what is known of those before it (R341). -/
def Tree.acceptStep (choice : Nat → Option Nat) (ok : List Bool) (i : Nat) : Bool :=
  if i = 0 then true else ok.getD (t.parent i) false && decide (choice (t.parent i) = (t.nodes[i]?).map fun n => n.token.toNat)

theorem accepted_eq_grown (choice : Nat → Option Nat) : t.accepted choice = grown (t.acceptStep choice) t.nodes.length := rfl

/-- A node is accepted when its parent is and the target's token there is its own (R341). -/
theorem accepted_node {choice : Nat → Option Nat} (hp : ∀ i, 0 < i → i < t.nodes.length → t.parent i < i) : (t.accepted choice).length = t.nodes.length ∧
    ∀ i, i < t.nodes.length → (t.accepted choice).getD i false = (decide (i = 0) ||
      ((t.accepted choice).getD (t.parent i) false && decide (choice (t.parent i) = (t.nodes[i]?).map fun x => x.token.toNat))) := by
  rw [accepted_eq_grown]
  refine ⟨length_grown _ _, fun i hi => ?_⟩
  rw [getD_grown hi, Tree.acceptStep]
  by_cases h0 : i = 0
  · rw [if_pos h0, decide_eq_true h0, Bool.true_or]
  · have hlt := hp i (Nat.pos_of_ne_zero h0) hi
    rw [if_neg h0, decide_eq_false h0, Bool.false_or, getD_grown_of_le (Nat.le_of_lt hi) hlt]

theorem parentsOk_iff {l : List Nat} {j : Nat} : parentsOk j l = true ↔ ∀ k, k < l.length → l.getD k 0 < j + k := by
  induction l generalizing j with
  | nil => exact ⟨fun _ k hk => absurd hk (Nat.not_lt_zero k), fun _ => rfl⟩
  | cons p l ih =>
    rw [parentsOk, Bool.and_eq_true, decide_eq_true_iff, ih]
    constructor
    · rintro ⟨hp, hl⟩ k hk
      cases k with
      | zero => exact hp
      | succ k =>
        have := hl k (Nat.lt_of_succ_lt_succ hk)
        rw [List.getD_cons_succ]
        omega
    · intro hl
      refine ⟨hl 0 (Nat.succ_pos _), fun k hk => ?_⟩
      have := hl (k + 1) (Nat.succ_lt_succ hk)
      rw [List.getD_cons_succ] at this
      omega

end

/-! ### The forms -/

section
variable {s s1 s2 : State} {h g : Hart} {d : DRegNo} {rd ra rb : SReg} {va vb vd : VRegNo} {pd : PRegNo}

theorem exec_dtinit_eq (hh : s.hart = some h) (hst : s.curStream = .x) : exec (.dtinit d ra) s = .next (s.retired (h.setTree d
    { base := BitVec.ofNat 32 (h.sreg .x ra).toNat
      nodes := [{ parent := 0, token := BitVec.ofNat 32 ((h.sreg .x ra).toNat / 2 ^ 32), score := 0, flags := 0 }] })) := by
  have htoken : (h.sreg .x ra).extractLsb' 32 32 = BitVec.ofNat 32 ((h.sreg .x ra).toNat / 2 ^ 32) := by
    rw [← Nat.shiftRight_eq_div_pow]
    rfl
  apply issue_eq_retired
  simp only [run_bind, onlyX_of_eq hst, run_rS, hh, hst, run_modHart, run_retire, hart_putHart, putHart_putHart, putHart_curStream, htoken]
  rfl

theorem exec_dtinfo_eq (hh : s.hart = some h) (hst : s.curStream = .x) {m : Nat} (hle : ∀ i, i < h.d[d].nodes.length → h.d[d].depth i ≤ m)
    (hm : m = 0 ∨ ∃ i, i < h.d[d].nodes.length ∧ h.d[d].depth i = m) : exec (.dtinfo rd d) s =
      .next (s.retired (h.setS .x rd (BitVec.ofNat 64 (h.d[d].base.toNat * 2 ^ 32 + m * 2 ^ 16 + h.d[d].nodes.length)))) := by
  have hmax : (List.range (h.tree d).count).foldl (fun m i => max m ((h.tree d).depth i)) 0 = m := maxDepth_eq _ hle hm
  apply issue_eq_retired
  simp only [run_bind, onlyX_of_eq hst, run_getHart, hh, hst, run_wS, run_retire, hart_putHart, putHart_putHart, putHart_curStream, hmax]
  rfl

theorem exec_dtprune_outside (hh : s.hart = some h) (hst : s.curStream = .x) (he : h.d[d].nodes.length ≤ (h.sreg .x ra).toNat / 2 ^ 16 % 256) :
    exec (.dtprune d ra) s = .next (s.trapped 0x13 (s.curWord.setWidth 64) 8) := by
  apply issue_eq_trapped (s' := s)
  have hlt : (h.tree d).count ≤ bitsOf (h.sreg .x ra).toNat 16 8 := by
    rw [bitsOf, Nat.shiftRight_eq_div_pow]
    exact he
  simp only [run_bind, onlyX_of_eq hst, run_rS, run_getHart, hh, hst, if_pos hlt]
  rfl

theorem exec_dtprune_eq (hh : s.hart = some h) (hst : s.curStream = .x) (he : (h.sreg .x ra).toNat / 2 ^ 16 % 256 < h.d[d].nodes.length) :
    exec (.dtprune d ra) s = .next (s.retired (h.setTree d (h.d[d].pruned ((h.sreg .x ra).toNat / 2 ^ 16 % 256)))) := by
  apply issue_eq_retired
  have hbits : bitsOf (h.sreg .x ra).toNat 16 8 = (h.sreg .x ra).toNat / 2 ^ 16 % 256 := by
    rw [bitsOf, Nat.shiftRight_eq_div_pow]
    rfl
  have hlt : ¬(h.tree d).count ≤ bitsOf (h.sreg .x ra).toNat 16 8 := by
    rw [hbits]
    exact Nat.not_le.2 he
  simp only [run_bind, onlyX_of_eq hst, run_rS, run_getHart, hh, hst, if_neg hlt, run_setHart, run_retire, hart_putHart, putHart_putHart,
    putHart_curStream]
  rw [hbits]
  rfl

/-! ### dtadd -/

/-- What `dtadd` does once its checks pass: it appends the active elements, or finds why it cannot (R338). -/
def appendActive (d : DRegNo) (va vb : VRegNo) (g : Hart) : M Unit :=
  let t := g.tree d
  let el (r i : Nat) := elemOf 32 (g.vbitsOf r) i
  if t.count = 0 then treeError 8
  else if 256 < t.count + g.active.length then treeError 16
  else if parentsOk t.count (g.active.map (el va.val)) = false then treeError 7
  else do
    setHart (g.setTree d { t with nodes := t.nodes ++ g.active.map fun i =>
      { parent := BitVec.ofNat 8 (el va.val i), token := BitVec.ofNat 32 (el vb.val i), score := BitVec.ofNat 32 (el (vb.val + 1) i), flags := 0 } })
    retire

section
variable {r : Named} {k : Tree} (hh : s.hart = some h) (hst : s.curStream = .x) (hl : h.live = true) (h63 : vb.val ≠ 63)
  (hne : va.val ≠ vb.val ∧ va.val ≠ vb.val + 1) (hf : h.fmt = .i32 ∨ h.fmt = .n32 ∨ h.fmt = .fp32)
  (ht : intTag (h.tagOf va) = true ∧ intTag (h.tagOf vb) = true ∧ h.tagOf (vb.val + 1) = some .fp32)
  (hr : r = ({ vs := [va.val, vb.val, vb.val + 1] } : Named).guarded h) (hfit : r.allV.length ≤ vectorSlots h.vt ∧ r.allP.length ≤ predicateSlots h.vt)
  (hswap : swapIn r s = .ok () s1) (hg : s1.hart = some g)
include hh hst hl h63 hne hf ht hr hfit hswap hg

theorem run_dtadd : ∃ x : M Unit, exec (.dtadd d va vb) = issue x ∧ x s = appendActive d va vb g s1 := by
  have hor : ¬(va.val = vb.val ∨ va.val = vb.val + 1) := not_or.2 hne
  have hnamed : checkNamed r s = .ok () s := by
    simp [checkNamed, hh, hl, hfit]
  subst hr
  refine ⟨_, rfl, ?_⟩
  simp only [run_bind, if_neg h63, onlyX_of_eq hst, run_getHart, hh, hnamed, if_neg hor, if_pos (And.intro hf ht), hswap, hg]
  rfl

theorem exec_dtadd_trapped {sub : BitVec 5} (hx : appendActive d va vb g s1 = treeError sub s1) :
    exec (.dtadd d va vb) s = .next (s.trapped 0x13 (s.curWord.setWidth 64) sub) := by
  obtain ⟨x, hexec, hrun⟩ := run_dtadd (d := d) hh hst hl h63 hne hf ht hr hfit hswap hg
  have hw : s1.curWord = s.curWord := ((keeps_swapIn (sameTurn_closed s) r).ok hswap ⟨rfl, rfl, rfl⟩).2.2
  rw [hexec]
  apply issue_eq_trapped (s' := s1)
  rw [hrun, hx, ← hw]
  rfl

theorem exec_dtadd_appended (hx : appendActive d va vb g s1 = (do setHart (g.setTree d k); retire : M Unit) s1) :
    exec (.dtadd d va vb) s = .next (s1.retired (g.setTree d k)) := by
  obtain ⟨x, hexec, hrun⟩ := run_dtadd (d := d) hh hst hl h63 hne hf ht hr hfit hswap hg
  rw [hexec]
  apply issue_eq_retired
  rw [hrun, hx]
  simp only [run_bind, run_setHart, run_retire, hart_putHart, putHart_putHart, putHart_curStream]

end

/-! ### Masks, positions and acceptance -/

theorem writesPredicate_dtmaskPred (ho : s.opensPlain anyFmt { pw := [pd.val] } s1 g) :
    WritesPredicate (exec (.dtmaskPred pd d rb) s) s1 g pd (· < g.vl.toNat) ((g.tree d).visible (g.sreg .x rb).toNat) := by
  refine (writeP_plain (hart_of_opensFor ho) pd.val (List.range g.vl.toNat) _ ?_).congr (fun _ => List.mem_range) fun _ _ => rfl
  simp only [run_bind, plainIssue_ok ho, rS_of_opensFor ho]

theorem writesVector_dtmaskVec (ho : s.opens maskFmt { vw := [vd.val] } s1 g) :
    WritesVector (exec (.dtmaskVec vd d rb) s) s1 g vd g.writes fun i =>
      if Fmt.isInt g.fmt then ((g.tree d).visible (g.sreg .x rb).toNat i).toNat
      else if (g.tree d).visible (g.sreg .x rb).toNat i then 0 else infBits g.fmt true := by
  refine (writeV_plain (hart_of_opens ho) vd.val g.active _ ?_).congr (fun _ => mem_active) fun _ _ => rfl
  simp only [run_bind, vectorIssue_ok ho, rS_of_opens ho]

theorem writesVector_dtpos (ho : s.opens posFmt { vw := [vd.val] } s1 g) :
    WritesVector (exec (.dtpos vd d) s) s1 g vd g.writes fun i =>
      if i < (g.tree d).count then g.narrowed ((g.tree d).pos i : Nat) else 2 ^ Fmt.ew g.fmt - 1 := by
  refine (writeV_plain (hart_of_opens ho) vd.val g.active _ ?_).congr (fun _ => mem_active) fun _ _ => rfl
  simp only [run_bind, vectorIssue_ok ho, narrow_eq]

section
variable (ho : s.opens (fun f => decide (f = .i32) || decide (f = .n32)) { vs := [va.val] } s1 g)
include ho

theorem exec_dtacc_empty (h0 : (g.tree d).count = 0) : exec (.dtacc rd d va) s = .next (s1.retired (g.setS .x rd 0xFFFFFFFF00000000)) := by
  apply issue_eq_retired
  simp only [run_bind, vectorIssue_ok ho, if_pos h0, run_wS, hart_of_opens ho, curStream_of_opens ho, run_retire, hart_putHart, putHart_putHart,
    putHart_curStream]

theorem exec_dtacc_eq (h0 : (g.tree d).count ≠ 0) {choice : Nat → Option Nat} {e : Nat}
    (hc : choice = fun p => if p < g.vl.toNat ∧ g.activeAt p = true then some (elemOf 32 (g.vbitsOf va.val) p) else none)
    (he : e = (g.tree d).endNode ((g.tree d).accepted choice)) :
    exec (.dtacc rd d va) s = .next (s1.retired ((g.setTree d { g.tree d with nodes := (g.tree d).nodes.zipIdx.map fun (x, j) =>
      { x with flags := if (g.tree d).anc e j then 1 else 0 } }).setS .x rd
      (BitVec.ofNat 64 ((choice e).getD 0xFFFFFFFF * 2 ^ 32 + e * 2 ^ 16 + ((g.tree d).depth e + 1))))) := by
  subst he hc
  apply issue_eq_retired
  simp only [run_bind, vectorIssue_ok ho, if_neg h0, run_modHart, run_wS, hart_of_opens ho, curStream_of_opens ho, run_retire, hart_putHart,
    putHart_putHart, putHart_curStream]
  rfl

end

/-! ### The image of a tree in memory -/

theorem load_job (a : Actor) (j : Option Nat) : ({ a with job := j } : Actor).load = a.load := rfl

theorem run_vectorActor (hh : s.hart = some h) :
    vectorActor s = .ok { s.actor h s.curStream with scalar := false, job := some (h.pc s.curStream).toNat } s := by
  simp only [vectorActor, run_bind, run_actor hh, run_curPc, hh, run_pure]

/-- The image at an address, line by line (R343). -/
def Actor.loadImage (a : Actor) (va : Word64) : M Nat := eachFold (List.range 16) 0 fun v i => do
  let x ← a.load .home (va + BitVec.ofNat 64 (256 * i)) 256
  pure (v + x * 2 ^ (2048 * i))

theorem loadImage_job (a : Actor) (j : Option Nat) : ({ a with job := j } : Actor).loadImage = a.loadImage := rfl

/-- A line of an image is stored (R343). -/
def storeLine (va : Word64) (v i : Nat) : M Unit := do
  interlock (va + BitVec.ofNat 64 (256 * i)) 256 true
  let a ← vectorActor
  a.store (va + BitVec.ofNat 64 (256 * i)) 256 (bitsOf v (2048 * i) 2048) (fullMask 256)

theorem keeps_storeLine (va : Word64) (v i : Nat) : Keeps State.unstopped (storeLine va v i) :=
  keeps_bind (keeps_interlock _ _ _) fun _ => keeps_bind keeps_vectorActor fun a => keeps_store unstopped_closed a _ _ _ _

section
variable (hh : s.hart = some h) (hst : s.curStream = .x)
include hh hst

theorem exec_dtld_misaligned (ha : (h.sreg .x ra).toNat % 4096 ≠ 0) : exec (.dtld d ra) s = .next (s.trapped 0x08 (h.sreg .x ra) 0) := by
  apply issue_eq_trapped (s' := s)
  simp only [run_bind, onlyX_of_eq hst, run_rS, hh, hst, run_misaligned ha]

theorem exec_dtst_misaligned (ha : (h.sreg .x ra).toNat % 4096 ≠ 0) : exec (.dtst d ra) s = .next (s.trapped 0x08 (h.sreg .x ra) 0) := by
  apply issue_eq_trapped (s' := s)
  simp only [run_bind, onlyX_of_eq hst, run_rS, hh, hst, run_misaligned ha]

section
variable (ha : (h.sreg .x ra).toNat % 4096 = 0) (hf : s.free h (h.sreg .x ra) 4096 false) {v : Nat}
  (hv : ({ s.actor h .x with scalar := false } : Actor).loadImage (h.sreg .x ra) s = .ok v s1)
include ha hf hv

theorem exec_dtld_invalid (hi : Tree.ofImage v = none) : exec (.dtld d ra) s = .next (s.trapped 0x16 (h.sreg .x ra) 0) := by
  rw [← loadImage_job _ (some (h.pc .x).toNat), Actor.loadImage] at hv
  apply issue_eq_trapped (s' := s1)
  simp only [run_bind, onlyX_of_eq hst, run_rS, hh, hst, run_aligned ha, run_interlock_free hh hf, run_vectorActor hh, hv, hi, run_trap]

theorem exec_dtld_eq {t : Tree} (hi : Tree.ofImage v = some t) (hg : s1.hart = some g) : exec (.dtld d ra) s = .next (s1.retired (g.setTree d t)) := by
  rw [← loadImage_job _ (some (h.pc .x).toNat), Actor.loadImage] at hv
  apply issue_eq_retired
  simp only [run_bind, onlyX_of_eq hst, run_rS, hh, hst, run_aligned ha, run_interlock_free hh hf, run_vectorActor hh, hv, hi, run_modHart, hg,
    run_retire, hart_putHart, putHart_putHart, putHart_curStream]

end

theorem exec_dtst_eq (ha : (h.sreg .x ra).toNat % 4096 = 0) (hs : s.curStop = none)
    (hx : each ((List.range 16).drop h.resumeX.toNat) (storeLine (h.sreg .x ra) (h.tree d).image) s = .ok () s2) (hg : s2.hart = some g)
    (hst2 : s2.curStream = .x) : exec (.dtst d ra) s = .next (s2.retired (g.setResume .x 0)) := by
  have hlines : resumeFrom 16 (fun _ => true) (storeLine (h.sreg .x ra) (h.tree d).image) none s = .ok () s2 := by
    refine run_resumeFrom (keeps_storeLine (h.sreg .x ra) (h.tree d).image) hh hs ?_ none
    rw [hst, List.filter_true]
    exact hx
  unfold storeLine at hlines
  apply issue_eq_retired
  simp only [run_bind, onlyX_of_eq hst, run_rS, hh, hst, run_aligned ha, run_getHart, hlines, run_retireResumable hg, hst2]

end

end

theorem visible_eq (t : Tree) (r i : Nat) : t.visible r i = (decide (r < t.nodes.length ∧ i < t.nodes.length) && t.anc r i) := by
  rw [Tree.visible, Tree.count, Bool.decide_and]

theorem bitsOf_eq_div (v lo n : Nat) : bitsOf v lo n = v / 2 ^ lo % 2 ^ n := by
  rw [bitsOf, Nat.shiftRight_eq_div_pow]

/-- Settles O51. -/
theorem treeFormsComplete : Obligations.TreeFormsComplete := by
  unfold Obligations.TreeFormsComplete
  intro s s1 s2 s3 h g g2 g3 d rd ra rb va vb vd pd hh hst a t n word
  refine ⟨exec_dtinit_eq hh hst, fun m hle hm => exec_dtinfo_eq hh hst hle hm, ?_, ?_, ?_, ?_, ?_, ?_, ?_⟩
  · intro e path
    refine ⟨exec_dtprune_outside hh hst, fun he => ⟨exec_dtprune_eq hh hst he, rfl, ?_⟩⟩
    exact pruned_nodes t e
  · intro hl hne h63 hf ht1 ht2 ht3 r hv hp hswap hg hd el parents named
    have htree : g.tree d = t := congrArg (fun x => x[d]) hd
    have hnamed : parentsOk n parents = true ↔ named := parentsOk_iff
    refine ⟨fun h0 => ?_, fun h0 hbig => ?_, fun h0 hfit hbad => ?_, fun h0 hfit hok => ?_⟩
    · refine exec_dtadd_trapped hh hst hl h63 hne hf ⟨ht1, ht2, ht3⟩ rfl ⟨hv, hp⟩ hswap hg ?_
      rw [appendActive, htree]
      exact congrFun (if_pos h0) s1
    · refine exec_dtadd_trapped hh hst hl h63 hne hf ⟨ht1, ht2, ht3⟩ rfl ⟨hv, hp⟩ hswap hg ?_
      rw [appendActive, htree]
      exact congrFun ((if_neg h0).trans (if_pos hbig)) s1
    · refine exec_dtadd_trapped hh hst hl h63 hne hf ⟨ht1, ht2, ht3⟩ rfl ⟨hv, hp⟩ hswap hg ?_
      rw [appendActive, htree]
      exact congrFun ((if_neg h0).trans ((if_neg (Nat.not_lt.2 hfit)).trans (if_pos (Bool.eq_false_iff.2 (hbad ∘ hnamed.1))))) s1
    · refine exec_dtadd_appended hh hst hl h63 hne hf ⟨ht1, ht2, ht3⟩ rfl ⟨hv, hp⟩ hswap hg ?_
      rw [appendActive, htree]
      refine congrFun ((if_neg h0).trans ((if_neg (Nat.not_lt.2 hfit)).trans (if_neg ?_))) s1
      exact fun hbad => Bool.false_ne_true (hbad.symm.trans (hnamed.2 hok))
  · intro r sees
    refine ⟨fun ho hd hrb => ?_, fun ho hd hrb => ?_, fun ho hd => ?_⟩
    · have htree : g.tree d = t := congrArg (fun x => x[d]) hd
      have hw := writesPredicate_dtmaskPred (rb := rb) (d := d) ho
      rw [htree, hrb] at hw
      exact hw.congr (fun _ => Iff.rfl) fun i _ => visible_eq t _ i
    · have htree : g.tree d = t := congrArg (fun x => x[d]) hd
      have hw := writesVector_dtmaskVec (rb := rb) (d := d) ho
      rw [htree, hrb] at hw
      refine hw.congr (fun _ => Iff.rfl) fun i _ => ?_
      have hsees : sees i = t.visible r i := (visible_eq t r i).symm
      rw [hsees]
      cases t.visible r i <;> rfl
    · have htree : g.tree d = t := congrArg (fun x => x[d]) hd
      have hw := writesVector_dtpos (d := d) ho
      rw [htree] at hw
      exact hw
  · intro ho hd choice ok e
    have htree : g.tree d = t := congrArg (fun x => x[d]) hd
    refine ⟨fun h0 => ?_, fun h0 => ?_, accepted_node t⟩
    · exact exec_dtacc_empty ho (htree ▸ h0)
    · have := exec_dtacc_eq (rd := rd) (d := d) ho (htree ▸ h0) rfl rfl
      rw [htree] at this
      exact this
  · intro ha i hi
    simp only [List.mem_cons, List.not_mem_nil, or_false] at hi
    rcases hi with rfl | rfl
    · exact exec_dtld_misaligned hh hst ha
    · exact exec_dtst_misaligned hh hst ha
  · intro ha hf v hv hg
    exact ⟨fun hi => exec_dtld_invalid hh hst ha hf hv hi, fun x hi => exec_dtld_eq hh hst ha hf hv hi hg⟩
  · intro ha hs line hx hg hst2
    refine exec_dtst_eq hh hst ha hs ?_ hg hst2
    have hmask : fullMask 256 = 2 ^ 2048 - 1 := congrArg (fun k => 2 ^ k - 1) (rfl : 8 * 256 = 2048)
    unfold storeLine
    simp only [bitsOf_eq_div, hmask]
    exact hx

end Sys2Proof.Machine
end

section
/-! Conversions, merges and scores (R83, R92, R129, R331, R332). -/

namespace Sys2Proof.Machine

/-! ### vcvt -/

section
variable {s s1 : State} {h h0 : Hart} {vd va : VRegNo} {fmt : Fmt} {n : Nat}

theorem exec_vcvt_eq (hh0 : s.hart = some h0) (hn : n = convGroup h0.fmt fmt) (hfit : vd.val + n ≤ 64)
    (hapart : n = 1 ∨ va.val < vd.val ∨ vd.val + n ≤ va.val) (ho : s.opens anyFmt { vs := [va.val], vw := groupOf vd.val n } s1 h)
    (hf : h.fmt = h0.fmt) :
    exec (.vcvt vd va fmt) s = .next (s1.retired (if h.vl = 0 then h else convertInto h h0.fmt fmt (h.bitsAt va) vd.val n)) := by
  have hfor : s.opensFor anyFmt (({ vs := [va.val], vw := groupOf vd.val n } : Named).guarded h0) [va.val] s1 h := by
    obtain ⟨h0', hh0', ho⟩ := ho
    cases hh0.symm.trans hh0'
    exact ho
  obtain ⟨hx, hnamed, htags, hswap⟩ := checks_of_opensFor hfor
  have hpast : ¬(h0.live ∧ 64 < vd.val + n) := fun hp => absurd hp.2 (Nat.not_lt.2 hfit)
  have hmeet : ¬(1 < n ∧ vd.val ≤ va.val ∧ va.val < vd.val + n) := by omega
  subst hn
  apply issue_eq_retired
  by_cases hvl : h.vl = 0
  · simp only [run_bind, run_getHart, hh0, if_neg hpast, hx, hnamed, if_neg hmeet, htags, hswap, hart_of_opens ho, if_pos hvl, run_retire]
  · simp only [run_bind, run_getHart, hh0, if_neg hpast, hx, hnamed, if_neg hmeet, htags, hswap, hart_of_opens ho, if_neg hvl, run_setHart, run_retire,
      hart_putHart, putHart_putHart, putHart_curStream]
    unfold Hart.bitsAt
    rw [hf]

end

/-- An element that lies within a register is an element of the register's bits. -/
theorem elemOf_bitsOf {w b i m : Nat} (hi : (i + 1) * w ≤ m) : elemOf w (bitsOf b 0 m) i = elemOf w b i := by
  apply Nat.eq_of_testBit_eq
  intro j
  rw [Nat.succ_mul] at hi
  simp only [elemOf, testBit_bitsOf, Nat.zero_add]
  by_cases hj : j < w
  · rw [decide_eq_true (by omega : i * w + j < m), Bool.true_and]
  · rw [decide_eq_false hj, Bool.false_and, Bool.false_and]

section
variable {h : Hart} {f fmt : Fmt}

theorem groupBits_one (h : Hart) (vd : Nat) : h.groupBits vd 1 = h.vbitsOf vd := by
  simp [Hart.groupBits]

theorem setGroup_one (h : Hart) (vd bits : Nat) (tag : Fmt) : h.setGroup vd 1 bits tag = h.setV vd (bitsOf bits 0 h.vbits) tag := by
  simp [Hart.setGroup]

/-- A conversion that draws nothing writes its active elements, each converted (R83, R129). -/
theorem convertInto_one {elem : Nat → Nat} {vd : Nat} (hfmt : fmt ≠ .b4) (hsr : mdRm h.md ≠ .sr) :
    ∃ b, convertInto h f fmt elem vd 1 = h.setV vd b fmt ∧ ∀ i, (i + 1) * Fmt.ew fmt ≤ h.vbits →
      (h.writes i → elemOf (Fmt.ew fmt) b i = convert h f fmt (h.k.getD 0 0) (elem i) 0 i % 2 ^ Fmt.ew fmt) ∧
      (¬h.writes i → elemOf (Fmt.ew fmt) b i = elemOf (Fmt.ew fmt) (h.vbitsOf vd) i) := by
  have hdraws : (convRounds f fmt && h.isSr) = false := by rw [Hart.isSr, decide_eq_false hsr, Bool.and_false]
  obtain ⟨hbits, hgen, -⟩ := runLanes_still (Fmt.ew fmt) (fun rnd i => (convert h f fmt (h.k.getD 0 0) (elem i) rnd i, false)) h.active
    (active_pairwise h) { bits := h.groupBits vd 1, gen := h.gen, nan := none }
  refine ⟨bitsOf (runLanes (Fmt.ew fmt) false (fun rnd i => (convert h f fmt (h.k.getD 0 0) (elem i) rnd i, false)) h.active
    { bits := h.groupBits vd 1, gen := h.gen, nan := none }).bits 0 h.vbits, ?_, fun i hi => ?_⟩
  rotate_left
  · refine ⟨fun hw => ?_, fun hw => ?_⟩
    · rw [elemOf_bitsOf hi, hbits i, if_pos (mem_active.2 hw)]
    · rw [elemOf_bitsOf hi, hbits i, if_neg (hw ∘ mem_active.1), groupBits_one]
  · simp only [convertInto, if_neg hfmt, hdraws, hgen, setGroup_one]
    rfl

/-- What a conversion between formats other than `b4` makes of an element (R83). -/
def Hart.converted (h : Hart) (f fmt : Fmt) (v : Int) (x i : Nat) : Nat :=
  if Fmt.isInt f then if Fmt.isInt fmt then narrow fmt (mdSat h.md) v else ((h.fpCtx fmt).round 0 i (exactInt v)).1
  else match h.input f x with
    | .nan neg frac => if Fmt.isInt fmt then 0 else nanBits fmt neg frac (decide (Fmt.ew fmt ≤ Fmt.ew f ∧ fmt ≠ f))
    | y => if Fmt.isInt fmt then bitsOfInt (Fmt.ew fmt) (fpToInt (mdRm h.md) 0 (Fmt.intMin fmt) (Fmt.intMax fmt) y)
      else ((h.fpCtx fmt).round 0 i y.exact).1

theorem convert_eq_converted (hf : f ≠ .b4) (hfmt : fmt ≠ .b4) (k0 x i : Nat) : convert h f fmt k0 x 0 i = h.converted f fmt (intVal f x) x i := by
  rw [convert, Hart.converted, convValue, if_neg hf]
  by_cases hi : Fmt.isInt f = true
  · by_cases hd : Fmt.isInt fmt = true
    · rw [if_pos hi, if_pos hd, hi, hd]
      rfl
    · rw [if_pos hi, if_pos hi, if_neg hd, hi, Bool.eq_false_iff.2 hd]
      rfl
  · rw [if_neg hi, if_neg hi, Bool.eq_false_iff.2 hi]
    cases hx : h.input f x with
    | nan neg frac =>
      by_cases hd : Fmt.isInt fmt = true
      · simp [hd, fpToInt, bitsOfInt]
      · simp [hd, convRounds, hf, hfmt, hi]
    | inf neg => rfl
    | fin neg m e => rfl

end

/-! ### smerge -/

/-- The rounding of a merge, which draws nothing (R92). -/
def Merging.still (c : FpCtx) (gen : Vector (BitVec 32) 256) (g : Merging) : Prop := g.c = c ∧ g.sr = false ∧ g.gen = gen

/-- A factor of a merge that draws nothing (R92). -/
def mergeFactor (c : FpCtx) (x m : Nat) : Nat :=
  if x = negInf then 0 else (c.round 0 0 (fpExp2 (Fp.of .fp32 (c.round 0 0 (fpSub c.rm (Fp.of .fp32 x) (Fp.of .fp32 m))).1))).1

/-- Element k of a merge that draws nothing, from the factors and the two elements (R92). -/
def mergeJoin (c : FpCtx) (k f1 f2 x y : Nat) : Nat :=
  (c.round 0 k (fpAdd c.rm (Fp.of .fp32 (c.round 0 k (fpMul (Fp.of .fp32 x) (Fp.of .fp32 f1))).1)
    (Fp.of .fp32 (c.round 0 k (fpMul (Fp.of .fp32 y) (Fp.of .fp32 f2))).1))).1

section
variable {c : FpCtx} {gen : Vector (BitVec 32) 256} {g : Merging}

theorem round_of_still (hg : g.still c gen) (k ln : Nat) (x : Exact) : (g.round k ln x).1 = (c.round 0 ln x).1 ∧ (g.round k ln x).2.still c gen := by
  obtain ⟨rfl, hsr, rfl⟩ := hg
  refine ⟨?_, rfl, hsr, ?_⟩ <;> simp [Merging.round, hsr]

theorem factor_of_still (hg : g.still c gen) (x m : Nat) : (g.factor x m).1 = mergeFactor c x m ∧ (g.factor x m).2.still c gen := by
  unfold Merging.factor mergeFactor
  split
  · exact ⟨rfl, hg⟩
  · obtain ⟨h1, hg1⟩ := round_of_still hg 0 0 (fpSub g.c.rm (Fp.of .fp32 x) (Fp.of .fp32 m))
    obtain ⟨h2, hg2⟩ := round_of_still hg1 0 0 (fpExp2 (Fp.of .fp32 (g.round 0 0 (fpSub g.c.rm (Fp.of .fp32 x) (Fp.of .fp32 m))).1))
    obtain ⟨rfl, -⟩ := hg
    exact ⟨h2.trans (by rw [h1]), hg2⟩

theorem combine_of_still (hg : g.still c gen) (k f1 f2 x y : Nat) :
    (g.combine k f1 f2 x y).1 = mergeJoin c k f1 f2 x y ∧ (g.combine k f1 f2 x y).2.still c gen := by
  obtain ⟨h1, hg1⟩ := round_of_still hg k k (fpMul (Fp.of .fp32 x) (Fp.of .fp32 f1))
  obtain ⟨h2, hg2⟩ := round_of_still hg1 k k (fpMul (Fp.of .fp32 y) (Fp.of .fp32 f2))
  obtain ⟨h3, hg3⟩ := round_of_still hg2 k k (fpAdd c.rm (Fp.of .fp32 (c.round 0 k (fpMul (Fp.of .fp32 x) (Fp.of .fp32 f1))).1)
    (Fp.of .fp32 (c.round 0 k (fpMul (Fp.of .fp32 y) (Fp.of .fp32 f2))).1))
  unfold Merging.combine mergeJoin
  obtain ⟨rfl, -⟩ := hg
  simp only [h1, h2]
  exact ⟨h3, hg3⟩

theorem outputs_of_still (hg : g.still c gen) (k f1 f2 : Nat) {xs ys : List Nat} (hlen : xs.length = ys.length) :
    (g.outputs k f1 f2 xs ys).1.length = xs.length ∧ (g.outputs k f1 f2 xs ys).2.still c gen ∧
      ∀ j, j < xs.length → (g.outputs k f1 f2 xs ys).1.getD j 0 = mergeJoin c (k + j) f1 f2 (xs.getD j 0) (ys.getD j 0) := by
  induction xs generalizing g k ys with
  | nil => exact ⟨rfl, hg, fun j hj => absurd hj (Nat.not_lt_zero j)⟩
  | cons x xs ih =>
    cases ys with
    | nil => exact nomatch hlen
    | cons y ys =>
      obtain ⟨hx, hg1⟩ := combine_of_still hg k f1 f2 x y
      obtain ⟨hl, hg2, hget⟩ := ih hg1 (k + 1) (Nat.succ.inj hlen)
      refine ⟨congrArg Nat.succ hl, hg2, fun j hj => ?_⟩
      cases j with
      | zero => exact hx
      | succ j =>
        have hj' := hget j (Nat.lt_of_succ_lt_succ hj)
        rw [Nat.add_assoc, Nat.add_comm 1 j] at hj'
        exact hj'

/-- A merge that draws nothing, where m is no NaN, element by element (R92). -/
theorem merge_of_still (hg : g.still c gen) {a b : Triple} (hlen : a.o.length = b.o.length) (hm : isNan .fp32 (pickFp32 true a.m b.m) = false) :
    let m := pickFp32 true a.m b.m
    let f1 := mergeFactor c a.m m
    let f2 := mergeFactor c b.m m
    (g.merge a b).1.m = m ∧ (g.merge a b).1.l = mergeJoin c 1 f1 f2 a.l b.l ∧ (g.merge a b).1.o.length = a.o.length ∧
      (∀ j, j < a.o.length → (g.merge a b).1.o.getD j 0 = mergeJoin c (2 + j) f1 f2 (a.o.getD j 0) (b.o.getD j 0)) ∧ (g.merge a b).2.still c gen := by
  intro m f1 f2
  obtain ⟨h1, hg1⟩ := factor_of_still hg a.m m
  obtain ⟨h2, hg2⟩ := factor_of_still hg1 b.m m
  obtain ⟨h3, hg3⟩ := combine_of_still hg2 1 f1 f2 a.l b.l
  obtain ⟨h4, hg4, h5⟩ := outputs_of_still hg3 2 f1 f2 hlen
  have hmerge : g.merge a b = (let f1 := g.factor a.m m
      let f2 := f1.2.factor b.m m
      let l := f2.2.combine 1 f1.1 f2.1 a.l b.l
      let o := l.2.outputs 2 f1.1 f2.1 a.o b.o
      ({ m := m, l := l.1, o := o.1 }, o.2)) := if_neg (Bool.eq_false_iff.1 hm)
  rw [hmerge]
  simp only [h1, h2]
  exact ⟨trivial, h3, h4, h5, hg4⟩

/-- Where m is a NaN its bits stand in every place (log 56). -/
theorem merge_of_nan {a b : Triple} (hm : isNan .fp32 (pickFp32 true a.m b.m) = true) :
    g.merge a b = ({ m := pickFp32 true a.m b.m, l := pickFp32 true a.m b.m, o := a.o.map fun _ => pickFp32 true a.m b.m }, g) := if_pos hm

theorem length_outputs (g : Merging) (k f1 f2 : Nat) {xs ys : List Nat} (hlen : xs.length = ys.length) :
    (g.outputs k f1 f2 xs ys).1.length = xs.length := by
  induction xs generalizing g k ys with
  | nil => rfl
  | cons x xs ih =>
    cases ys with
    | nil => exact nomatch hlen
    | cons y ys => exact congrArg Nat.succ (ih _ _ (Nat.succ.inj hlen))

theorem length_merge (g : Merging) {a b : Triple} (hlen : a.o.length = b.o.length) : (g.merge a b).1.o.length = a.o.length := by
  unfold Merging.merge
  by_cases hm : isNan .fp32 (pickFp32 true a.m b.m) = true
  · simp only [if_pos hm, List.length_map]
  · simp only [if_neg hm, length_outputs _ _ _ _ hlen]

end

/-- The triple of a register: m, l and the elements of o (R92, R331). -/
def Hart.triple (h : Hart) (x : Nat) : Triple :=
  { m := flush .fp32 (vtFtz h.vt) (elemOf 32 (h.vbitsOf x) 0), l := flush .fp32 (vtFtz h.vt) (elemOf 32 (h.vbitsOf x) 1)
    o := (List.range (h.vl.toNat - 2)).map fun i => flush .fp32 (vtFtz h.vt) (elemOf 32 (h.vbitsOf x) (i + 2)) }

/-- The merge of two registers' triples (R331). -/
def Hart.merged (h : Hart) (va vb : Nat) : Triple × Merging :=
  (({ c := h.fpCtx .fp32, sr := h.isSr, gen := h.gen, nan := none } : Merging)).merge (h.triple va) (h.triple vb)

/-- A triple's elements in order. -/
def Triple.elems (t : Triple) : List Nat := t.m :: t.l :: t.o

/-- The bits of vd after a merge (R331). -/
def Hart.mergedBits (h : Hart) (vd va vb : Nat) : Nat := ((h.merged va vb).1.elems.zipIdx).foldl (fun b x => setElem 32 b x.2 x.1) (h.vbitsOf vd)

section
variable {s s1 : State} {h : Hart} {vd va vb : VRegNo}

theorem length_merged (h : Hart) (va vb : Nat) : (h.merged va vb).1.o.length = h.vl.toNat - 2 := by
  rw [Hart.merged, length_merge _ (by simp [Hart.triple])]
  simp [Hart.triple]

theorem elemOf_mergedBits (h2 : 2 ≤ h.vl.toNat) (vd va vb i : Nat) : elemOf 32 (h.mergedBits vd va vb) i =
    if i < h.vl.toNat then (h.merged va vb).1.elems.getD i 0 % 2 ^ 32 else elemOf 32 (h.vbitsOf vd) i := by
  have hlen : (h.merged va vb).1.elems.length = h.vl.toNat := by
    rw [Triple.elems, List.length_cons, List.length_cons, length_merged]
    omega
  rw [Hart.mergedBits, elemOf_foldl_setElem 32 0 _ i (fun x => x), hlen, List.map_id']
  simp

theorem getD_triple (h : Hart) (x : Nat) {j : Nat} (hj : j < h.vl.toNat - 2) :
    (h.triple x).o.getD j 0 = flush .fp32 (vtFtz h.vt) (elemOf 32 (h.vbitsOf x) (j + 2)) := by
  simp [Hart.triple, hj]

/-- The elements of a merge whose m is a NaN (log 56). -/
theorem merged_of_nan (hm : isNan .fp32 (pickFp32 true (h.triple va).m (h.triple vb).m) = true) {i : Nat} (hi : i < h.vl.toNat) (h2 : 2 ≤ h.vl.toNat) :
    (h.merged va vb).1.elems.getD i 0 = pickFp32 true (h.triple va).m (h.triple vb).m := by
  rw [Hart.merged, merge_of_nan hm]
  match i with
  | 0 => rfl
  | 1 => rfl
  | j + 2 =>
    have hj : j < h.vl.toNat - 2 := by omega
    simp [Triple.elems, Hart.triple, hj]

/-- The elements of a merge that draws nothing (R92). -/
theorem merged_of_still (hsr : mdRm h.md ≠ .sr) (hm : isNan .fp32 (pickFp32 true (h.triple va).m (h.triple vb).m) = false) :
    (h.merged va vb).2.gen = h.gen ∧ (h.merged va vb).1.elems.getD 0 0 = pickFp32 true (h.triple va).m (h.triple vb).m ∧
    ∀ i, 0 < i → i < h.vl.toNat → (h.merged va vb).1.elems.getD i 0 = mergeJoin (h.fpCtx .fp32) i
      (mergeFactor (h.fpCtx .fp32) (h.triple va).m (pickFp32 true (h.triple va).m (h.triple vb).m))
      (mergeFactor (h.fpCtx .fp32) (h.triple vb).m (pickFp32 true (h.triple va).m (h.triple vb).m))
      (flush .fp32 (vtFtz h.vt) (elemOf 32 (h.vbitsOf va) i)) (flush .fp32 (vtFtz h.vt) (elemOf 32 (h.vbitsOf vb) i)) := by
  have hlen : (h.triple va).o.length = h.vl.toNat - 2 := by simp [Hart.triple]
  have hstill : (({ c := h.fpCtx .fp32, sr := h.isSr, gen := h.gen, nan := none } : Merging)).still (h.fpCtx .fp32) h.gen :=
    ⟨rfl, decide_eq_false hsr, rfl⟩
  obtain ⟨hfirst, hl, -, ho, -, -, hgen⟩ := merge_of_still hstill (a := h.triple va) (b := h.triple vb) (by simp [Hart.triple]) hm
  refine ⟨hgen, hfirst, fun i hi hlt => ?_⟩
  match i, hi with
  | 1, _ => exact hl
  | j + 2, _ =>
    have hj : j < h.vl.toNat - 2 := by omega
    have hget := ho j (by rw [hlen]; exact hj)
    rw [getD_triple h va.val hj, getD_triple h vb.val hj, Nat.add_comm 2 j] at hget
    exact hget

theorem setV_gen_of_still (hsr : mdRm h.md ≠ .sr) (x bits : Nat) (f : Fmt) :
    ({ h.setV x bits f with gen := (h.merged va vb).2.gen } : Hart) = h.setV x bits f := by
  have hgen : (h.merged va vb).2.gen = h.gen := by
    cases hm : isNan .fp32 (pickFp32 true (h.triple va).m (h.triple vb).m) with
    | true => rw [Hart.merged, merge_of_nan hm]
    | false => exact (merged_of_still hsr hm).1
  rw [hgen]
  rfl

/-- A pass ends: its register and generators, and the first-NaN record where it generated a NaN (R87). -/
theorem run_finishV (h : Hart) (vd : Nat) (tag : Fmt) (l : Lanes) (s : State) : finishV h vd tag l s =
    .ok () (s.putHart (l.nan.elim { h.setV vd l.bits tag with gen := l.gen } fun i => { h.setV vd l.bits tag with gen := l.gen }.takeNan h.xpc s.tick i)) := by
  unfold finishV
  cases l.nan with
  | none => simp only [noteNan, run_bind, run_setHart, run_pure, Option.elim_none]
  | some i =>
    simp only [noteNan, run_bind, run_setHart, run_get, run_modHart, hart_putHart, putHart_putHart, Option.elim_some]
    rfl

theorem exec_smerge_eq (ho : s.opensPlain (fun f => decide (f = .fp32)) { vs := [va.val, vb.val], vw := [vd.val] } s1 h) :
    (h.vl.toNat ≤ 1 → exec (.smerge vd va vb) s = .next (s1.retired h)) ∧
    (2 ≤ h.vl.toNat → exec (.smerge vd va vb) s = .next (s1.retired ((h.merged va vb).2.nan.elim
      { h.setV vd (h.mergedBits vd va vb) .fp32 with gen := (h.merged va vb).2.gen }
      fun i => { h.setV vd (h.mergedBits vd va vb) .fp32 with gen := (h.merged va vb).2.gen }.takeNan h.xpc s1.tick i))) := by
  obtain ⟨hx, hnamed, htags, hswap⟩ := checks_of_opensFor ho
  refine ⟨fun h1 => ?_, fun h2 => ?_⟩
  · apply issue_eq_retired
    simp only [run_bind, hx, hnamed, htags, hswap, run_getHart, hart_of_opensFor ho, if_pos h1, run_retire]
  · apply issue_eq_retired
    have hlt : ¬h.vl.toNat ≤ 1 := by omega
    simp only [run_bind, hx, hnamed, htags, hswap, run_getHart, hart_of_opensFor ho, if_neg hlt, run_finishV, run_retire, hart_putHart, putHart_putHart,
      putHart_curStream]
    rfl

end

/-- A hart that has taken the first-NaN record, or not, keeps its vector registers. -/
theorem elim_takeNan_v (e : Option Nat) (h : Hart) (pc : Word64) (t : Nat) : (e.elim h fun i => h.takeNan pc t i).v = h.v := by
  cases e with
  | none => rfl
  | some i =>
    rw [Option.elim_some, Hart.takeNan]
    split <;> rfl

theorem elim_takeNan_cases (e : Option Nat) (h : Hart) (pc : Word64) (t : Nat) :
    (e.elim h fun i => h.takeNan pc t i) = h ∨ ∃ i, (e.elim h fun i => h.takeNan pc t i) = h.takeNan pc t i := by
  cases e with
  | none => exact .inl rfl
  | some i => exact .inr ⟨i, rfl⟩

/-! ### sapply -/

section
variable {s s1 : State} {h h0 : Hart} {vd va : VRegNo} {sp : SpNo}

/-- The score that `sapply` gives element i, and whether it is a NaN that the program generated (R332). -/
def Hart.applied (h : Hart) (va : Nat) (sp : SpNo) (i : Nat) : Nat × Bool :=
  let el (k i : Nat) := elemOf 32 (h.vbitsOf (va + k)) i
  let x := (({ pc := h.xpc, ln := i, qi := signedOf 32 (el 1 i), ki := signedOf 32 (el 2 i), h := signedOf 32 (el 3 i)
               consts := (List.range 16).map fun j => bitsOf (h.k.getD 15 0) (8 * j) 8, trees := h.d } : ScoreEnv)).score h.sp[sp] (el 0 i)
  (x.1, x.2 && decide (x.1 = nanBits .fp32 false (generatedFrac h.xpc i) true))

/-- A pass that draws nothing: vd takes its active elements, and a NaN generated the record (R87, R111). -/
theorem issue_elementwise_still {x : M Unit} {f : Nat → Nat × Bool} (hh : s1.hart = some h) (hx : x s = elementwise h vd.val false (fun _ i => f i) s1) :
    (h.vl = 0 → issue x s = .next (s1.retired h)) ∧
    (h.vl ≠ 0 → ∃ g b, issue x s = .next (s1.retired g) ∧ (g = h.setV vd b h.fmt ∨ ∃ e, g = (h.setV vd b h.fmt).takeNan h.xpc s1.tick e) ∧
      (∀ i, h.writes i → elemOf (Fmt.ew h.fmt) b i = (f i).1 % 2 ^ Fmt.ew h.fmt) ∧
      ∀ i, ¬h.writes i → elemOf (Fmt.ew h.fmt) b i = elemOf (Fmt.ew h.fmt) (h.vbitsOf vd) i) := by
  refine ⟨fun h0 => ?_, fun h0 => ?_⟩
  · apply issue_eq_retired
    rw [hx]
    simp only [elementwise, if_pos h0, run_retire, hh]
  · obtain ⟨hbits, hgen, -⟩ := runLanes_still (Fmt.ew h.fmt) (fun _ i => f i) h.active (active_pairwise h)
      { bits := h.vbitsOf vd, gen := h.gen, nan := none }
    generalize hl : runLanes (Fmt.ew h.fmt) false (fun _ i => f i) h.active { bits := h.vbitsOf vd, gen := h.gen, nan := none } = l at hbits hgen
    have hset : ({ h.setV vd l.bits h.fmt with gen := l.gen } : Hart) = h.setV vd l.bits h.fmt := by
      rw [hgen]
      rfl
    refine ⟨l.nan.elim (h.setV vd l.bits h.fmt) fun i => (h.setV vd l.bits h.fmt).takeNan h.xpc s1.tick i, l.bits, issue_eq_retired ?_,
      elim_takeNan_cases l.nan _ _ _, fun i hi => ?_, fun i hi => ?_⟩
    · rw [hx]
      simp only [elementwise, if_neg h0, Bool.false_and, hl, run_bind, run_finishV, hset, run_retire, hart_putHart, putHart_putHart, putHart_curStream]
    · rw [hbits i, if_pos (mem_active.2 hi)]
    · rw [hbits i, if_neg (hi ∘ mem_active.1)]

theorem run_sapply {r : Named} (hh : s.hart = some h0) (hst : s.curStream = .x) (hl : h0.live = true) (hva : va.val + 4 ≤ 64)
    (hapart : vd.val < va.val ∨ va.val + 4 ≤ vd.val) (hr : r = ({ vs := groupOf va.val 4, vw := [vd.val] } : Named).guarded h0)
    (hv : r.allV.length ≤ vectorSlots h0.vt) (hp : r.allP.length ≤ predicateSlots h0.vt) (hf : h0.fmt = .fp32) (ht : h0.tagOf va = some .fp32)
    (hts : ∀ k, 0 < k → k < 4 → h0.tagOf (va.val + k) = some .i32) (hswap : swapIn r s = .ok () s1) (hg : s1.hart = some h) :
    ∃ x : M Unit, exec (.sapply vd va sp) = issue x ∧ x s = elementwise h vd.val false (fun _ i => h.applied va sp i) s1 := by
  have h60 : ¬60 < va.val := by omega
  have hnamed : checkNamed r s = .ok () s := by simp [checkNamed, hh, hl, hv, hp]
  have hdst : ¬(groupOf va.val 4).contains vd.val = true := by
    simp only [groupOf, List.contains_iff_mem, List.mem_map, List.mem_range, not_exists, not_and]
    omega
  have htags : h0.fmt = .fp32 ∧ h0.tagOf va.val = some .fp32 ∧ ((groupOf (va.val + 1) 3).all fun x => h0.tagOf x == some .i32) = true := by
    refine ⟨hf, ht, List.all_eq_true.2 fun x hx => ?_⟩
    obtain ⟨k, hk, rfl⟩ := List.mem_map.1 hx
    have htag := hts (1 + k) (by omega) (by have := List.mem_range.1 hk; omega)
    rw [Nat.add_assoc, htag, beq_self_eq_true]
  subst hr
  refine ⟨_, rfl, ?_⟩
  simp only [run_bind, if_neg h60, onlyX_of_eq hst, run_getHart, hh, hnamed, if_neg hdst, if_pos htags, hswap, hg]
  rfl

end

/-- Settles O44. -/
theorem conversionsMergesAndScores : Obligations.ConversionsMergesAndScores := by
  unfold Obligations.ConversionsMergesAndScores
  intro s s1 h vd va vb fmt sp
  refine ⟨?_, ?_, ?_⟩
  · intro h0 hh0 n hfit hapart ho f x v w result hf
    have hexec := exec_vcvt_eq hh0 rfl hfit hapart ho hf
    refine ⟨hexec, fun hvl hn hb4 hfmt hsr => ?_⟩
    obtain ⟨b, hb, helem⟩ := convertInto_one (h := h) (f := f) (elem := x) (vd := vd) hfmt hsr
    rw [if_neg hvl, show (convGroup h0.fmt fmt) = 1 from hn, hb] at hexec
    refine ⟨b, hexec, fun i hi => ?_⟩
    have hv : intVal f (x i) = v i := by
      have hint := intVal_bitsAt h va i
      rw [Hart.intAt, Hart.asInt, hf] at hint
      exact hint
    have hres : convert h f fmt (h.k.getD 0 0) (x i) 0 i = result i := by
      rw [convert_eq_converted hb4 hfmt, hv]
      rfl
    rw [← hres]
    exact helem i hi
  · intro ho c el rnd fp m factor joined
    obtain ⟨h1, h2⟩ := exec_smerge_eq ho
    refine ⟨h1, fun hvl => ⟨h.mergedBits vd va vb, _, h2 hvl, elim_takeNan_v _ _ _ _, fun hsr => ?_, fun hm i hi => ?_,
      fun hm hsr => ⟨?_, fun i hi hlt => ?_⟩, fun i hi => ?_⟩⟩
    · rw [setV_gen_of_still hsr]
      exact elim_takeNan_cases _ _ _ _
    · rw [elemOf_mergedBits hvl, if_pos hi, merged_of_nan hm hi hvl]
      rfl
    · rw [elemOf_mergedBits hvl, if_pos (by omega), (merged_of_still hsr hm).2.1]
      rfl
    · rw [elemOf_mergedBits hvl, if_pos hlt, (merged_of_still hsr hm).2.2 i hi hlt]
      rfl
    · rw [elemOf_mergedBits hvl, if_neg (Nat.not_lt.2 hi)]
  · intro h0 hh0 hst hl hva hapart r hv hp hf ht hts hswap hg hst1 hfmt el score
    obtain ⟨x, hexec, hx⟩ := run_sapply (sp := sp) hh0 hst hl hva hapart rfl hv hp hf ht hts hswap hg
    rw [hexec]
    have := issue_elementwise_still hg hx
    rw [hfmt] at this
    exact this

end Sys2Proof.Machine
end

section
/-! What is checked at issue (R36, R38, R39, R48, R54, R55). -/

namespace Sys2Proof.Machine

/-! ### Parts that check first -/

/-- A part that begins with a check of the stream: in the other stream it raises wrong stream (R38). -/
def StreamFirst {α : Type} (st : StreamId) (x : M α) : Prop :=
  ∀ s : State, s.curStream ≠ st → ∃ t, x s = .error (.trap 0x03 (s.curWord.setWidth 64) 0 false) t

/-- A part that raises vector state illegal while vector state is dead (R48). -/
def DeadTraps {α : Type} (x : M α) : Prop :=
  ∀ (s : State) (h : Hart), s.hart = some h → h.live = false → ∃ t, x s = .error (.trap 0x05 (s.curWord.setWidth 64) 0 false) t

/-- A part of the execute stream that checks the stream, and then that vector state is live (R38, R48). -/
def DeadFirst {α : Type} (x : M α) : Prop :=
  StreamFirst .x x ∧ ∀ (s : State) (h : Hart), s.hart = some h → s.curStream = .x → h.live = false →
    ∃ t, x s = .error (.trap 0x05 (s.curWord.setWidth 64) 0 false) t

section
variable {α β : Type} {st : StreamId} {x : M α} {f : α → M β}

theorem StreamFirst.bind (hx : StreamFirst st x) (f : α → M β) : StreamFirst st (x >>= f) := fun s hs => by
  obtain ⟨t, ht⟩ := hx s hs
  exact ⟨t, by rw [run_bind, ht]⟩

theorem DeadTraps.bind (hx : DeadTraps x) (f : α → M β) : DeadTraps (x >>= f) := fun s h hh hl => by
  obtain ⟨t, ht⟩ := hx s h hh hl
  exact ⟨t, by rw [run_bind, ht]⟩

theorem DeadFirst.bind (hx : DeadFirst x) (f : α → M β) : DeadFirst (x >>= f) :=
  ⟨hx.1.bind f, fun s h hh hst hl => by
    obtain ⟨t, ht⟩ := hx.2 s h hh hst hl
    exact ⟨t, by rw [run_bind, ht]⟩⟩

/-- The first check of a form decides what it raises in the other stream. -/
theorem StreamFirst.exec_eq {i : Instr} {x : M Unit} (hx : StreamFirst st x) (hi : exec i = issue x) {s : State} (hs : s.curStream ≠ st) :
    exec i s = .next (s.trapped 0x03 (s.curWord.setWidth 64) 0) := by
  obtain ⟨t, ht⟩ := hx s hs
  rw [hi]
  exact issue_eq_trapped ht

theorem DeadFirst.exec_eq {i : Instr} {x : M Unit} (hx : DeadFirst x) (hi : exec i = issue x) {s : State} {h : Hart} (hh : s.hart = some h)
    (hs : s.curStream = .x) (hl : h.live = false) : exec i s = .next (s.trapped 0x05 (s.curWord.setWidth 64) 0) := by
  obtain ⟨t, ht⟩ := hx.2 s h hh hs hl
  rw [hi]
  exact issue_eq_trapped ht

end

theorem streamFirst_onlyX : StreamFirst .x onlyX := fun s hs => ⟨s, by rw [run_onlyX, if_neg hs]⟩
theorem streamFirst_onlyA : StreamFirst .a onlyA := fun s hs => ⟨s, by rw [run_onlyA, if_neg hs]⟩

theorem deadTraps_needLive : DeadTraps needLive := fun s h hh hl => ⟨s, by simp [needLive, hh, hl, trapWord]⟩

theorem deadTraps_checkNamed (r : Named) : DeadTraps (checkNamed r) := deadTraps_needLive.bind _

theorem deadTraps_getHart {α : Type} {f : Hart → M α} (hf : ∀ h, DeadTraps (f h)) : DeadTraps (getHart >>= f) := fun s h hh hl => by
  obtain ⟨t, ht⟩ := hf h s h hh hl
  exact ⟨t, by rw [run_bind, run_getHart, hh]; exact ht⟩

/-- The stream is checked before what raises vector state illegal. -/
theorem deadFirst_onlyX {α : Type} {f : Unit → M α} (hf : DeadTraps (f ())) : DeadFirst (onlyX >>= f) :=
  ⟨streamFirst_onlyX.bind f, fun s h hh hst hl => by
    obtain ⟨t, ht⟩ := hf s h hh hl
    exact ⟨t, by rw [run_bind, onlyX_of_eq hst]; exact ht⟩⟩

theorem deadFirst_plainIssue (admits : Fmt → Bool) (r : Named) : DeadFirst (plainIssue admits r) :=
  deadFirst_onlyX ((deadTraps_checkNamed r).bind _)

theorem deadFirst_vectorIssue (admits : Fmt → Bool) (r : Named) : DeadFirst (vectorIssue admits r) :=
  deadFirst_onlyX (deadTraps_getHart fun _ => (deadTraps_checkNamed _).bind _)

/-! ### The opcode of a word -/

/-- The fields of a word lie above its opcode (R28). -/
theorem pack_opcode {base : Nat} : ∀ {fields : List (Nat × Nat)}, (fields.all fun f => decide (7 ≤ f.2)) = true → pack base fields % 2 ^ 7 = base % 2 ^ 7
  | [], _ => rfl
  | (x, lo) :: rest, h => by
    obtain ⟨hlo, hrest⟩ := Bool.and_eq_true_iff.1 h
    obtain ⟨k, rfl⟩ := Nat.exists_eq_add_of_le (of_decide_eq_true hlo : 7 ≤ lo)
    rw [pack, Nat.pow_add, Nat.mul_comm (2 ^ 7), ← Nat.mul_assoc, Nat.add_comm, Nat.add_mul_mod_self_right]
    exact pack_opcode hrest

/-- The opcodes of the vector, predicate and scale forms, and of the vector loads and stores (R48). -/
def vectorOps : List Nat := [0x40, 0x41, 0x42, 0x54, 0x55, 0x56, 0x57]

/-- A form of another opcode is no vector form. -/
theorem not_vector {base : Nat} {fields : List (Nat × Nat)} (hf : (fields.all fun f => decide (7 ≤ f.2)) = true) (hb : base % 2 ^ 7 ∉ vectorOps) :
    pack base fields % 2 ^ 7 ∉ vectorOps := by rwa [pack_opcode hf]

/-- The vector forms but `vcvt` check their stream, and then that vector state is live (R38, R48). -/
theorem deadFirst_of_vector {i : Instr} {w : Nat} (he : encode i = some w) (hwf : i.wf = true) (hop : w % 2 ^ 7 ∈ vectorOps)
    (hcvt : ∀ vd va fmt, i ≠ .vcvt vd va fmt) : ∃ x, exec i = issue x ∧ DeadFirst x := by
  cases i with
  | vadd | vsub | vmul | vmadd | vnmadd | vdiv | vsqrt | vrsqrt | vexp2 | vlog2 | vmax | vmin | vabs | vneg | vand | vor | vxor | vnot | vshl | vshr
  | vsra | vcmp | vsel | vsplat | vid | vredsum | vredmax | vredmin | vargmax | vslideup | vslidedn | vcompress | vexpand | vconf | vaddImm | vsubImm
  | vmulImm | vmaxImm | vminImm | vandImm | vorImm | vxorImm | vshlImm | vshrImm | vsraImm | vslideupImm | vslidednImm | vsplatImm | vcmpImm | vldMd
  | vldMx | vlds | vldffMd | vldffMx | vstMd | vstMx | vsts | vldsegMd | vldsegMx | vstsegMd | vstsegMx => exact ⟨_, rfl, (deadFirst_vectorIssue _ _).bind _⟩
  | vext | vins | vtag | pand | por | pxor | pnot | psbf | psif | pfirst | pcnt | pset | kmvToVector => exact ⟨_, rfl, (deadFirst_plainIssue _ _).bind _⟩
  | vmv | vperm => exact ⟨_, rfl, deadFirst_onlyX (deadTraps_getHart fun _ => (deadTraps_checkNamed _).bind _)⟩
  | smerge | kmvToScale => exact ⟨_, rfl, deadFirst_onlyX ((deadTraps_checkNamed _).bind _)⟩
  | ksld => exact ⟨_, rfl, deadFirst_onlyX (deadTraps_needLive.bind _)⟩
  | sapply vd va sp =>
    have h60 : ¬60 < va.val := by
      have := of_decide_eq_true hwf
      omega
    refine ⟨_, rfl, ?_⟩
    rw [if_neg h60]
    exact deadFirst_onlyX (deadTraps_getHart fun _ => (deadTraps_checkNamed _).bind _)
  | vcvt vd va fmt => exact absurd rfl (hcvt vd va fmt)
  | _ => cases he <;> exact absurd hop (not_vector rfl (by decide))

/-- The opcodes that are not vector forms and that one stream alone may issue, and those of which some words are such (R38, R44, R45). -/
def ownedOps : List Nat := [0x1D, 0x1E, 0x44, 0x45, 0x60, 0x66, 0x68, 0x6A, 0x5A, 0x5C, 0x64, 0x38]

/-- A word of another opcode may be issued by both streams. -/
theorem wordOwner_pack {base : Nat} {fields : List (Nat × Nat)} (hf : (fields.all fun f => decide (7 ≤ f.2)) = true)
    (hb : base % 2 ^ 7 ∈ vectorOps ∨ base % 2 ^ 7 ∉ ownedOps) (hv : pack base fields % 2 ^ 7 ∉ vectorOps) : wordOwner (pack base fields) = none := by
  rw [pack_opcode hf] at hv
  have ho := hb.resolve_left hv
  simp only [vectorOps, ownedOps, List.mem_cons, List.not_mem_nil, or_false, not_or] at hv ho
  have hx : pack base fields % 2 ^ 7 ∉ [0x1D, 0x1E, 0x40, 0x41, 0x42, 0x44, 0x45, 0x54, 0x55, 0x56, 0x57, 0x60, 0x66, 0x68, 0x6A] := by
    rw [pack_opcode hf]
    simp only [List.mem_cons, List.not_mem_nil, or_false]
    omega
  have ha : ¬(pack base fields % 2 ^ 7 = 0x5A ∨ pack base fields % 2 ^ 7 = 0x5C ∨ (pack base fields % 2 ^ 7 = 0x64 ∧ pack base fields / 2 ^ 22 ≤ 6) ∨
      (pack base fields % 2 ^ 7 = 0x38 ∧ pack base fields / 2 ^ 16 = 4)) := by
    rw [pack_opcode hf]
    omega
  rw [wordOwner]
  simp only [if_neg hx, if_neg ha]

/-- The owner of a word, by its opcode. -/
theorem wordOwner_x {w : Nat} (hop : w % 2 ^ 7 ∈ vectorOps ++ [0x1D, 0x1E, 0x44, 0x45, 0x60, 0x66, 0x68, 0x6A]) : wordOwner w = some .x := by
  refine if_pos ?_
  revert hop
  generalize w % 2 ^ 7 = op
  simp only [vectorOps, List.cons_append, List.nil_append, List.mem_cons, List.not_mem_nil, or_false]
  omega

theorem wordOwner_pack_x {base : Nat} {fields : List (Nat × Nat)} (hf : (fields.all fun f => decide (7 ≤ f.2)) = true)
    (hop : base % 2 ^ 7 ∈ vectorOps ++ [0x1D, 0x1E, 0x44, 0x45, 0x60, 0x66, 0x68, 0x6A]) : wordOwner (pack base fields) = some .x :=
  wordOwner_x (by rwa [pack_opcode hf])

/-- A word of a form of the access stream alone is owned by no other. -/
theorem wordOwner_ne_x {w : Nat} (hop : w % 2 ^ 7 ∈ [0x5A, 0x5C, 0x64, 0x38]) : wordOwner w ≠ some .x := by
  have hx : w % 2 ^ 7 ∉ [0x1D, 0x1E, 0x40, 0x41, 0x42, 0x44, 0x45, 0x54, 0x55, 0x56, 0x57, 0x60, 0x66, 0x68, 0x6A] := by
    revert hop
    generalize w % 2 ^ 7 = op
    simp only [List.mem_cons, List.not_mem_nil, or_false]
    omega
  rw [wordOwner]
  simp only [if_neg hx]
  split <;> exact nofun

theorem owner_a {base : Nat} {fields : List (Nat × Nat)} {st : StreamId} (hf : (fields.all fun f => decide (7 ≤ f.2)) = true)
    (hop : base % 2 ^ 7 ∈ [0x5A, 0x5C, 0x64, 0x38]) (ho : wordOwner (pack base fields) = some st) : st = .a := by
  cases st with
  | a => rfl
  | x => exact absurd ho (wordOwner_ne_x (by rwa [pack_opcode hf]))

/-- A word of opcode 0x64 or 0x38 whose function field is past that of the access stream's forms may be issued by both (R44, R45). -/
theorem wordOwner_both {w : Nat} (hop : (w % 2 ^ 7 = 0x64 ∧ 6 < w / 2 ^ 22) ∨ (w % 2 ^ 7 = 0x38 ∧ w / 2 ^ 16 ≠ 4)) : wordOwner w = none := by
  have hx : w % 2 ^ 7 ∉ [0x1D, 0x1E, 0x40, 0x41, 0x42, 0x44, 0x45, 0x54, 0x55, 0x56, 0x57, 0x60, 0x66, 0x68, 0x6A] := by
    simp only [List.mem_cons, List.not_mem_nil, or_false]
    omega
  have ha : ¬(w % 2 ^ 7 = 0x5A ∨ w % 2 ^ 7 = 0x5C ∨ (w % 2 ^ 7 = 0x64 ∧ w / 2 ^ 22 ≤ 6) ∨ (w % 2 ^ 7 = 0x38 ∧ w / 2 ^ 16 = 4)) := by omega
  rw [wordOwner]
  simp only [if_neg hx, if_neg ha]

/-- The forms that one stream alone may issue, the vector forms apart, check their stream first (R38). -/
theorem streamFirst_of_owner {i : Instr} {w : Nat} {st : StreamId} (he : encode i = some w) (hwf : i.wf = true) (hv : w % 2 ^ 7 ∉ vectorOps)
    (ho : wordOwner w = some st) : ∃ x, exec i = issue x ∧ StreamFirst st x := by
  cases i with
  | ctok | astart | setvl | mode | klaunch | ktrig | claim | vrelease | hend | gsplit | barr | bwait | bsync | sattn | spld | dtinit | dtprune | dtld
  | dtst | dtinfo =>
    cases he
    cases (wordOwner_pack_x rfl (by decide)).symm.trans ho
    exact ⟨_, rfl, streamFirst_onlyX.bind _⟩
  | mshapeCore | mshapeDie | mlds | mswap | mstreamLocal | mstreamVector | mzero | mrd | mwr =>
    cases he
    cases (wordOwner_pack_x rfl (by decide)).symm.trans ho
    exact ⟨_, rfl, (streamFirst_onlyX.bind _).bind _⟩
  | dtmaskPred =>
    cases he
    cases (wordOwner_pack_x rfl (by decide)).symm.trans ho
    exact ⟨_, rfl, (deadFirst_plainIssue _ _).1.bind _⟩
  | dtmaskVec | dtpos | dtacc =>
    cases he
    cases (wordOwner_pack_x rfl (by decide)).symm.trans ho
    exact ⟨_, rfl, (deadFirst_vectorIssue _ _).1.bind _⟩
  | dtadd dd va vb =>
    cases he
    cases (wordOwner_pack_x rfl (by decide)).symm.trans ho
    have h63 : ¬vb.val = 63 := by
      have := of_decide_eq_true hwf
      omega
    refine ⟨_, rfl, ?_⟩
    rw [if_neg h63]
    exact streamFirst_onlyX.bind _
  | ctake | kvcompact | lrfence | cpy | cpyx | cpyz | cpyp | cpyd =>
    cases he
    cases owner_a rfl (by decide) ho
    exact ⟨_, rfl, streamFirst_onlyA.bind _⟩
  | vgat | vgatff | vsca | vscaa | kvx | cut | cutp | cutd =>
    cases he
    cases owner_a rfl (by decide) ho
    exact ⟨_, rfl, (streamFirst_onlyA.bind _).bind _⟩
  | evwait rd ra | evpoll rd ra =>
    cases he
    refine absurd ho ((wordOwner_both (.inl ⟨pack_opcode rfl, ?_⟩)).trans_ne nofun)
    simp only [pack]
    omega
  | qpush q r | qpop r q | qpeek r q | qlen r q =>
    cases he
    refine absurd ho ((wordOwner_both (.inr ⟨pack_opcode rfl, ?_⟩)).trans_ne nofun)
    simp only [pack]
    omega
  | _ => cases he <;> exact absurd ho ((wordOwner_pack rfl (by decide) hv).trans_ne nofun)

/-! ### Privilege and the queues -/

section
variable {s : State} {h : Hart}

/-- A part that begins with the check of a form marked S raises privileged in U mode (R39). -/
theorem issue_onlyS_user {x : M Unit} {f : Unit → M Unit} (hh : s.hart = some h) (hu : h.priv = .u) (hx : x = onlyS >>= f) :
    issue x s = .next (s.trapped 0x04 (s.curWord.setWidth 64) 0) := by
  have hpriv : ¬h.priv = .s := by
    rw [hu]
    exact nofun
  apply issue_eq_trapped (s' := s)
  rw [hx]
  simp only [run_bind, run_onlyS, hh, if_neg hpriv]

theorem exec_privileged_user (hh : s.hart = some h) (hu : h.priv = .u) (rd ra : SReg) {i : Instr}
    (hi : i ∈ [Instr.eret, .trapack, .ctxsave ra, .ctxload ra, .keyset rd ra, .asidset rd ra, .ckfreeze ra, .ckrestore ra]) :
    exec i s = .next (s.trapped 0x04 (s.curWord.setWidth 64) 0) := by
  simp only [List.mem_cons, List.not_mem_nil, or_false] at hi
  rcases hi with rfl | rfl | rfl | rfl | rfl | rfl | rfl | rfl
  case inl | inr.inl | inr.inr.inr.inr.inr.inr.inl => exact issue_onlyS_user hh hu rfl
  all_goals exact issue_onlyS_user hh hu (bind_assoc onlyS _ _)

theorem exec_vcvt_past (hh : s.hart = some h) {vd va : VRegNo} {fmt : Fmt} (hl : h.live = true) (hp : 64 < vd.val + convGroup h.fmt fmt) :
    exec (.vcvt vd va fmt) s = .next (s.trapped 0x01 (s.curWord.setWidth 64) 0) := by
  apply issue_eq_trapped (s' := s)
  simp only [run_bind, run_getHart, hh, if_pos (And.intro hl hp)]
  rfl

/-- `vcvt` checks its stream, and then that vector state is live, where its group does not pass the last register (R129). -/
theorem exec_vcvt_first (hh : s.hart = some h) {vd va : VRegNo} {fmt : Fmt} (hp : h.live = true → vd.val + convGroup h.fmt fmt ≤ 64) :
    (s.curStream ≠ .x → exec (.vcvt vd va fmt) s = .next (s.trapped 0x03 (s.curWord.setWidth 64) 0)) ∧
    (s.curStream = .x → h.live = false → exec (.vcvt vd va fmt) s = .next (s.trapped 0x05 (s.curWord.setWidth 64) 0)) := by
  have hpast : ¬(h.live = true ∧ 64 < vd.val + convGroup h.fmt fmt) := fun ⟨hl, hlt⟩ => absurd hlt (Nat.not_lt.2 (hp hl))
  refine ⟨fun hst => ?_, fun hst hl => ?_⟩
  · apply issue_eq_trapped (s' := s)
    simp only [run_bind, run_getHart, hh, if_neg hpast, run_onlyX, if_neg hst]
  · obtain ⟨t, ht⟩ := deadTraps_checkNamed (({ vs := [va.val], vw := groupOf vd.val (convGroup h.fmt fmt) } : Named).guarded h) s h hh hl
    apply issue_eq_trapped (s' := t)
    simp only [run_bind, run_getHart, hh, if_neg hpast, onlyX_of_eq hst, ht]

theorem exec_qpush_wrong {q : QNo} {r : Fin 64} (hst : s.curStream = (if q.val = 7 then .a else .x)) :
    exec (.qpush q r) s = .next (s.trapped 0x03 (s.curWord.setWidth 64) 0) := by
  apply issue_eq_trapped (s' := s)
  by_cases h7 : q.val = 7
  · have hx : ¬s.curStream = .x := by
      rw [hst, if_pos h7]
      exact nofun
    simp only [if_pos h7, run_bind, run_onlyX, if_neg hx]
  · have ha : ¬s.curStream = .a := by
      rw [hst, if_neg h7]
      exact nofun
    simp only [if_neg h7, run_bind, run_onlyA, if_neg ha]

theorem streamFirst_takingStream (q : QNo) : StreamFirst (if q.val = 7 then .a else .x) (takingStream q) := by
  unfold takingStream
  split
  · exact streamFirst_onlyA
  · exact streamFirst_onlyX

theorem taking_ne {q : QNo} (hst : s.curStream = (if q.val = 7 then .x else .a)) : s.curStream ≠ (if q.val = 7 then .a else .x) := by
  rw [hst]
  split <;> exact nofun

theorem exec_csr_traps (hh : s.hart = some h) (rd ra : SReg) (csr : Csr) {c : BitVec 8} :
    (csrCause csr s.curStream h.priv false = some c → exec (.csrr rd csr) s = .next (s.trapped c (s.curWord.setWidth 64) 0)) ∧
    (csrCause csr s.curStream h.priv true = some c → exec (.csrw csr ra) s = .next (s.trapped c (s.curWord.setWidth 64) 0)) ∧
    ∀ f, csrCause csr s.curStream h.priv (decide (ra.val ≠ 0)) = some c →
      issue (csrModify rd csr ra f) s = .next (s.trapped c (s.curWord.setWidth 64) 0) := by
  refine ⟨fun hc => ?_, fun hc => ?_, fun f hc => ?_⟩
  · apply issue_eq_trapped (s' := s)
    simp only [run_bind, run_csrChecks hh, hc]
  · apply issue_eq_trapped (s' := s)
    simp only [run_bind, run_csrChecks hh, hc]
  · apply issue_eq_trapped (s' := s)
    simp only [csrModify, run_bind, run_csrChecks hh, hc]

end

/-- Settles O28: each form checks its stream first, the vector forms then the vector state, and the others what they say. -/
theorem issueChecksTrap : Obligations.IssueChecksTrap := by
  unfold Obligations.IssueChecksTrap
  intro s h i w hh hwf he traps
  refine ⟨fun st ho hst hcvt => ?_, ?_, fun q r _ _ => ⟨exec_qpush_wrong, fun hst => ?_⟩, fun hu rd ra i hi => exec_privileged_user hh hu rd ra hi, ?_, ?_⟩
  · by_cases hv : w % 2 ^ 7 ∈ vectorOps
    · cases (wordOwner_x (List.mem_append_left _ hv)).symm.trans ho
      by_cases hi : ∃ vd va fmt, i = .vcvt vd va fmt
      · obtain ⟨vd, va, fmt, rfl⟩ := hi
        exact (exec_vcvt_first hh fun hl => hcvt vd va fmt rfl hl).1 hst
      · obtain ⟨x, hx, hfirst⟩ := deadFirst_of_vector he hwf hv fun vd va fmt hi' => hi ⟨vd, va, fmt, hi'⟩
        exact hfirst.1.exec_eq hx hst
    · obtain ⟨x, hx, hfirst⟩ := streamFirst_of_owner he hwf hv ho
      exact hfirst.exec_eq hx hst
  · rintro vd va fmt rfl hl hp
    exact exec_vcvt_past hh hl hp
  · exact ⟨((streamFirst_takingStream q).bind _).exec_eq rfl (taking_ne hst), ((streamFirst_takingStream q).bind _).exec_eq rfl (taking_ne hst)⟩
  · intro hst hl hv
    by_cases hi : ∃ vd va fmt, i = .vcvt vd va fmt
    · obtain ⟨vd, va, fmt, rfl⟩ := hi
      exact (exec_vcvt_first hh fun hl' => absurd (hl.symm.trans hl') Bool.false_ne_true).2 hst hl
    · obtain ⟨x, hx, hfirst⟩ := deadFirst_of_vector he hwf hv fun vd va fmt hi' => hi ⟨vd, va, fmt, hi'⟩
      exact hfirst.exec_eq hx hh hst hl
  · intro rd ra csr c
    refine ⟨fun hc => ⟨(exec_csr_traps hh rd ra csr).1 hc, (exec_csr_traps hh rd 0 csr).2.2 _ hc, (exec_csr_traps hh rd 0 csr).2.2 _ hc⟩,
      fun hc => ⟨(exec_csr_traps hh rd ra csr).2.1 hc, fun hra => ?_⟩⟩
    rw [← decide_eq_true hra] at hc
    exact ⟨(exec_csr_traps hh rd ra csr).2.2 _ hc, (exec_csr_traps hh rd ra csr).2.2 _ hc⟩

end Sys2Proof.Machine
end

section
/-! The vector length, the lane grant and the mode (R48 to R61, R117 to R119, R290). -/

namespace Sys2Proof.Machine

/-! ### The lane grant -/

section
variable {s : State} {h : Hart} {lg : Nat}

theorem run_laneGrant_kept (hh : s.hart = some h) (hk : lg = 0 ∧ 1 ≤ h.grant) : laneGrant lg s = .ok h.grant s := by
  simp only [laneGrant, run_bind, run_getHart, hh, if_pos hk, run_pure]

theorem run_laneGrant_granted (hh : s.hart = some h) (hk : ¬(lg = 0 ∧ 1 ≤ h.grant)) {want cap : Nat} (hwant : want = if lg = 0 then 1 else lg)
    (hcap : cap = h.waitCap.getD (s.grantCap h)) (hg : s.decideGrant h want cap ≠ 0) :
    laneGrant lg s = .ok (s.decideGrant h want cap) (s.putHart { h with req := want, waitCap := none }) := by
  subst hwant hcap
  simp only [laneGrant, run_bind, run_getHart, hh, if_neg hk, run_get, if_neg hg, run_setHart, run_pure]

theorem run_laneGrant_waits (hh : s.hart = some h) (hk : ¬(lg = 0 ∧ 1 ≤ h.grant)) {want cap : Nat} (hwant : want = if lg = 0 then 1 else lg)
    (hcap : cap = h.waitCap.getD (s.grantCap h)) (hg : s.decideGrant h want cap = 0) :
    laneGrant lg s = .error (.wait .grant true) (s.putHart { h with req := want, waitCap := some cap }) := by
  subst hwant hcap
  simp only [laneGrant, run_bind, run_getHart, hh, if_neg hk, run_get, if_pos hg, run_setHart]
  rfl

end

/-- A part that waits and keeps what it has done. -/
theorem issue_eq_waits_kept {s s1 : State} {h : Hart} {w : Wait} {x : M Unit} (hx : x s = .error (.wait w true) (s1.putHart h)) (hw : w ≠ .absent) :
    issue x s = .next (s1.waits h w) := by
  have hi : issue x s = .next (markWait (some w) (s1.putHart h)) := by
    unfold issue
    rw [hx]
    cases w
    case absent => exact absurd rfl hw
    all_goals rfl
  rw [hi, markWait, hart_putHart]
  simp only [putHart_putHart]
  rfl

/-! ### setvl -/

section
variable {s s1 s2 u t : State} {h k g : Hart} {rd ra : SReg} {fmt : Fmt} {dc : Depth} {ftz bl : Bool} {lg : Fin 17} {n : Nat} {vt : BitVec 8}

/-- A hart whose `setvl` has granted a length: a new strip begins (R117, R165). -/
def Hart.lengthened (g : Hart) (rd : SReg) (len : Nat) : Hart :=
  { g with vl := BitVec.ofNat 17 len, strip := g.strip + 1 }.setS .x rd ((BitVec.ofNat 17 len).setWidth 64)

section
variable (hh : s.hart = some h) (hst : s.curStream = .x) (hvt : vt = vtOf fmt dc ftz bl)
include hh hst hvt

theorem exec_setvl_live (hl : h.live = true) (hadj : adjustBoth vt s = .ok () s1) (hgrant : laneGrant lg.val s1 = .ok n u) (hk : u.hart = some k)
    (hr : replace vt h (u.putHart (k.relength vt n)) = .ok () t) (hg : t.hart = some g) (hstt : t.curStream = .x) :
    exec (.setvl rd ra fmt dc ftz bl lg) s = .next (t.retired (g.lengthened rd (grantedLength (h.sreg .x ra) g.vlmax))) := by
  subst hvt
  apply issue_eq_retired
  simp only [run_bind, onlyX_of_eq hst, run_rS, run_getHart, hh, hst, if_pos hl, run_keeping_ok hadj, hgrant, run_modHart, hk, hr, hg, hart_putHart,
    putHart_putHart, run_wS, run_retire, putHart_curStream, hstt]
  rfl

theorem exec_setvl_live_waits (hl : h.live = true) (hadj : adjustBoth vt s = .ok () s1)
    (hgrant : laneGrant lg.val s1 = .error (.wait .grant true) (s1.putHart k)) :
    exec (.setvl rd ra fmt dc ftz bl lg) s = .next (s1.waits k .grant) := by
  subst hvt
  refine issue_eq_waits_kept ?_ nofun
  simp only [run_bind, onlyX_of_eq hst, run_rS, run_getHart, hh, hst, if_pos hl, run_keeping_ok hadj, hgrant]

theorem exec_setvl_dead (hl : h.live = false) (hgrant : laneGrant lg.val s = .ok n u) (hk : u.hart = some k)
    (hev : evictBoth vt (u.putHart ((k.vectorsCleared fmt).relength vt n)) = .ok () s2) (hr : replace vt h s2 = .ok () t)
    (hg : t.hart = some g) (hstt : t.curStream = .x) :
    exec (.setvl rd ra fmt dc ftz bl lg) s = .next (t.retired (g.lengthened rd (grantedLength (h.sreg .x ra) g.vlmax))) := by
  have hdead : ¬h.live = true := by
    rw [hl]
    exact Bool.false_ne_true
  have hstand : swapsStand h (evictBoth vt) (u.putHart ((k.vectorsCleared fmt).relength vt n)) = .ok () s2 := by rw [swapsStand, hev]
  subst hvt
  apply issue_eq_retired
  simp only [run_bind, onlyX_of_eq hst, run_rS, run_getHart, hh, hst, if_neg hdead, hgrant, run_modHart, hk, hstand, hr, hg, hart_putHart,
    putHart_putHart, run_wS, run_retire, putHart_curStream, hstt]
  rfl

omit hvt in
theorem exec_setvl_dead_waits (hl : h.live = false) (hgrant : laneGrant lg.val s = .error (.wait .grant true) (s.putHart k)) :
    exec (.setvl rd ra fmt dc ftz bl lg) s = .next (s.waits k .grant) := by
  have hdead : ¬h.live = true := by
    rw [hl]
    exact Bool.false_ne_true
  refine issue_eq_waits_kept ?_ nofun
  simp only [run_bind, onlyX_of_eq hst, run_rS, run_getHart, hh, hst, if_neg hdead, hgrant]

end

end

/-! ### mode and vrelease -/

section
variable {s : State} {h : Hart}

theorem exec_mode_eq (hh : s.hart = some h) (hst : s.curStream = .x) (g : Option PRegNo) (rm : Rm) (sat : Bool) :
    exec (.mode g rm sat) s = .next (s.retired { h with md := mdOf g rm sat }) := by
  apply issue_eq_retired
  simp only [run_bind, onlyX_of_eq hst, run_modHart, hh, run_retire, hart_putHart, putHart_putHart, putHart_curStream]

/-- The fields of a mode are those it was made of, and R50 lets a CSR write leave it. -/
theorem mdOf_fields (g : Option PRegNo) (rm : Rm) (sat : Bool) :
    mdRm (mdOf g rm sat) = rm ∧ mdSat (mdOf g rm sat) = sat ∧ mdGuard (mdOf g rm sat) = g ∧ mdLegal (mdOf g rm sat) = true := by
  cases g with
  | none => cases rm <;> cases sat <;> decide
  | some p => cases rm <;> cases sat <;> revert p <;> decide

theorem exec_vrelease_eq (hh : s.hart = some h) (hst : s.curStream = .x) : exec .vrelease s =
    .next (if h.live then (s.windowFree h.asid h.slot).retired { h with grant := 0, vl := 0, vt := 0 } else s.retired h) := by
  by_cases hl : h.live = true
  · rw [if_pos hl]
    apply issue_eq_retired
    have hfree (g : Hart) : (s.putHart g).windowFree h.asid h.slot = (s.windowFree h.asid h.slot).putHart g := rfl
    simp only [run_bind, onlyX_of_eq hst, run_getHart, hh, if_pos hl, run_setHart, run_modify, hfree, run_retire, hart_putHart, putHart_putHart,
      putHart_curStream]
  · rw [if_neg hl]
    apply issue_eq_retired
    simp only [run_bind, onlyX_of_eq hst, run_getHart, hh, if_neg hl, run_retire]

end

/-- Settles O18. -/
theorem typeLengthAndMode : Obligations.TypeLengthAndMode := by
  unfold Obligations.TypeLengthAndMode
  refine ⟨?_, fun s h hh hst => ⟨fun g rm sat => ⟨_, exec_mode_eq hh hst g rm sat, mdOf_fields g rm sat⟩, exec_vrelease_eq hh hst⟩⟩
  intro s s1 s2 h rd ra fmt dc ftz bl lg hst hh vt len ends want
  constructor
  · intro hl hadj hst1 h1 hh1 hl1 cap grant
    refine ⟨fun hk t g hr hg hstt => ?_, fun hk hg t g hr hgt hstt => ?_, fun hk hg => ?_⟩
    · exact exec_setvl_live hh hst rfl hl hadj (run_laneGrant_kept hh1 hk) hh1 hr hg hstt
    · refine exec_setvl_live hh hst rfl hl hadj (run_laneGrant_granted hh1 hk rfl rfl hg) (hart_putHart _ _) ?_ hgt hstt
      rw [putHart_putHart]
      exact hr
    · exact exec_setvl_live_waits hh hst rfl hl hadj (run_laneGrant_waits hh1 hk rfl rfl hg)
  · intro hl cap grant
    refine ⟨fun hk hev t g hr hg hstt => ?_, fun hk hg hev t g hr hgt hstt => ?_, fun hk hg => ?_⟩
    · exact exec_setvl_dead hh hst rfl hl (run_laneGrant_kept hh hk) hh hev hr hg hstt
    · refine exec_setvl_dead hh hst rfl hl (run_laneGrant_granted hh hk rfl rfl hg) (hart_putHart _ _) ?_ hr hgt hstt
      rw [putHart_putHart]
      exact hev
    · exact exec_setvl_dead_waits hh hst hl (run_laneGrant_waits hh hk rfl rfl hg)

end Sys2Proof.Machine
end

section
/-! The refutation of O50: the wait of a transfer behind an indexed form that has stopped. -/

namespace Sys2Proof.Machine

/-- A part that answers a value ends in its answer's state. -/
theorem ok_of_answer {α : Type} [DecidableEq α] {x : M α} {s : State} {v : α}
    (h : (match x s with | .ok a _ => decide (a = v) | .error _ _ => false) = true) : x s = .ok v (endState (x s)) := by
  cases hx : x s with
  | ok a t =>
    rw [hx] at h
    cases of_decide_eq_true h
    rfl
  | error e t => rw [hx] at h; exact nomatch h

section
variable {P : State → Prop} (hP : MemClosed P)

theorem keeps_atRecord {α : Type} {x : M α} (hx : Keeps P x) (va : Word64) : Keeps P (atRecord va x) := by
  constructor
  intro s hs
  have h1 := hx.run s hs
  unfold atRecord
  cases hr : x s with
  | ok a t => rwa [hr] at h1
  | error e t =>
    rw [hr] at h1
    cases e with
    | _ => exact h1

include hP

theorem keeps_read64 (a : Actor) (va : Word64) : Keeps P (read64 a va) :=
  keeps_eachFold (fun _ _ => keeps_bind (keeps_load hP ..) fun _ => keeps_pure _) _ _

theorem keeps_recordHome (va : Word64) : Keeps P (recordHome va) :=
  keeps_bind keeps_actor fun a => keeps_atRecord (keeps_read64 hP a va) va

end

/-- A hart with one query of `bf16` in register 1 and the address of a pass record in its scalar registers, while a gather of its access stream has
stopped between its elements (log 2). -/
def passHart : Hart :=
  { testHart with vt := vtOf .bf16 .d8 false false, vl := 4, v := Vector.replicate 64 { bits := 0, tag := some .bf16 }, ewin := 0
                  xs := Vector.replicate 32 (BitVec.ofNat 64 testVa), openA := some false }

/-- The device in which it issues; its record names a table with no block. -/
def passState : State :=
  let s := State.reset.loaded passHart 0
  { s with mem := s.mem.writeLE 0x20018 10 4, curWord := 0x1068 }

/-- The record's bytes. -/
def passBytes : Nat := 10 * 2 ^ 192

/-- A record of no pass, and what the record says. -/
def noPass : PassRec :=
  { table := { pages := 0, maps := 0, nblk := 0 }, kvf := .bf16, hd := 0, kvh := 0, nr := 0, nh := 0, slot := 0, enabled := false, hb := 0, scale := 0
    qpos := 0, dst := 0, tag := 0, consts := [] }
def passRec : PassRec := (PassRec.of passBytes).getD noPass

/-- The states that its issue goes through: the record read, the query swapped in, the stores in flight performed, the pages named. -/
def passRead : State := endState (recordHome (passHart.sreg .x 1) passState)
def passRegs : List Nat := (List.range (passRec.nr * passRec.nh)).map ((1 : VRegNo).val + ·)
def passSwapped : State := endState (swapIn { vs := passRegs } passRead)
def passDrained : State := endState (drainHart passHart.slot passSwapped)
def passNamed : State := endState (pagesAtIssue (passRead.actor passHart .x) (passSwapped.hart.getD passHart) passRec.table.pages passRec.table.nblk passDrained)

/-- Refutes O50: the statement leaves out the open entry of an indexed form of the hart that has stopped, with which the results that a pass writes
conflict (R173): the `sattn` of `passHart` waits at issue. -/
theorem not_attentionFormsComplete : ¬ Obligations.AttentionFormsComplete := by
  unfold Obligations.AttentionFormsComplete
  intro hall
  have hread : recordHome (passHart.sreg .x 1) passState = .ok passBytes passRead := ok_of_answer (by decide +kernel)
  have hswap : swapIn { vs := passRegs } passRead = .ok () passSwapped := ok_of_answers (by decide +kernel)
  have hdrain : drainHart passHart.slot passSwapped = .ok () passDrained := ok_of_answers (by decide +kernel)
  have hpages : pagesAtIssue (passRead.actor passHart .x) (passSwapped.hart.getD passHart) passRec.table.pages passRec.table.nblk passDrained = .ok (some []) passNamed :=
    ok_of_answer (by decide +kernel)
  have hrec : PassRec.of passBytes = some passRec := some_getD_of_isSome (x := PassRec.of passBytes) noPass (by decide +kernel)
  obtain ⟨-, -, -, hpass, -⟩ := hall passState passRead passSwapped passDrained passNamed passHart (passSwapped.hart.getD passHart)
    (passNamed.hart.getD passHart) 0 1 1 rfl rfl
  have hkept : passState.sameIssue passRead := (keeps_recordHome (sameIssue_closed passState) _).ok hread ⟨rfl, rfl, rfl⟩
  have hhart : passRead.hart = some passHart := hkept.hart_eq.trans rfl
  have hprog : ∀ y ∈ (if passRec.enabled then passHart.sp.getD passRec.slot [] else []), y.toNat / 2 ^ 27 ≠ 0x0F := by
    have hoff : passRec.enabled = false := by decide +kernel
    rw [hoff]
    exact fun _ hy => nomatch hy
  have hlast : (1 : VRegNo).val + passRec.nr * passRec.nh ≤ 64 := by decide +kernel
  have htags : ∀ y ∈ passRegs, passHart.tagOf y = some .bf16 := by decide +kernel
  have hbits : 16 * passRec.hd ≤ passHart.vbits := by decide +kernel
  have hwindow : (passRead.actor passHart .x).window = some (0, 0, 2 ^ 20) := by decide +kernel
  have hfits : passRec.dst + (passRec.nr * passRec.nh * (8 + 4 * passRec.hd) + 16 * ((passRec.table.nblk + 63) / 64)) ≤ 2 ^ 20 := by decide +kernel
  have hused : passRead.tableUsed (coreOfSlot passRead.curSlot) + (if passRec.table.nblk = 0 then 1 else 4) ≤ 64 := by decide +kernel
  have hsent := hpass passBytes passRec (some []) (by decide +kernel) (by decide +kernel) (by decide +kernel) (by decide +kernel) (by decide +kernel)
    ⟨by decide +kernel, by decide +kernel, by decide +kernel⟩ (by decide +kernel) hread hrec hhart hkept.2.2 hprog hlast htags hbits
    ⟨0, 0, _, hwindow, hfits⟩ hused hswap (some_getD_of_isSome (x := passSwapped.hart) passHart (by decide +kernel)) (by decide +kernel) hdrain hpages
    (some_getD_of_isSome (x := passNamed.hart) passHart (by decide +kernel)) (by decide +kernel)
  obtain ⟨p, hexec, -⟩ := hsent
  have hwaits : waitsOnX (exec (.sattn 1 1) passState) = true := by decide +kernel
  rw [hexec, waitsOnX_retired] at hwaits
  exact Bool.false_ne_true hwaits

end Sys2Proof.Machine
end

section
/-! The refutation of O48: what lrfence forgets beside the record cache. -/

namespace Sys2Proof.Machine

/-- Core 0 has a word of its record cache that an error struck. -/
def struckCore (o : Host.Outcome State Fault Refusal) : Bool :=
  match o with
  | .next t => !(t.core 0).rpoison.isEmpty
  | _ => false

/-- The device in which a hart issues an `lrfence` on its access stream, while an error has struck a word of its core's record cache (log 2). -/
def struckState : State :=
  State.modCore { State.reset.loaded testHart 0 with curStream := .a } 0 fun c => { c with rpoison := [(0, 7)] }

/-- The device once the stream's accesses have performed. -/
def struckSettled : State := endState (settle .a .dev struckState)

/-- Refutes O48: the statement has `lrfence` empty the record cache alone; it also forgets which of its words an error struck (R242), as it does in
`struckState`. -/
theorem not_transferFormsComplete : ¬ Obligations.TransferFormsComplete := by
  unfold Obligations.TransferFormsComplete
  intro hall
  obtain ⟨-, -, hlrfence, -⟩ := hall struckState struckSettled struckState struckState struckState testHart (struckSettled.hart.getD testHart) 0 0 0 rfl
  have hexec := hlrfence rfl (ok_of_answers (by decide +kernel)) (some_getD_of_isSome (x := struckSettled.hart) testHart (by decide +kernel))
  have hforgets : struckCore (exec .lrfence struckState) = false := by decide +kernel
  rw [hexec] at hforgets
  exact absurd hforgets (by decide +kernel)

end Sys2Proof.Machine
end

section
/-! The refutation of O55: the replay buffer of a port whose training has failed. -/

namespace Sys2Proof.Machine

/-- Port 0 keeps flits to be sent again. -/
def keepsFlits (o : Host.Outcome State Fault Refusal) : Bool :=
  match o with
  | .next t => !(t.voltor.getD 0 .start).replay.isEmpty
  | _ => false

/-- A port in training that still holds a flit to be sent again. -/
def retrainedPort : Voltor := { Voltor.start with state := .training, replay := [{ seq := 0, bits := 0, store := none }] }

/-- The device in which its training ends with three bad lanes and no good spare (log 2). -/
def retrainedState : State := { State.reset with voltor := vput State.reset.voltor 0 retrainedPort, curEv := { b := 3 } }

/-- Refutes O55: the statement keeps the replay buffer of a port whose training has failed, which the failure empties (R361, R364), as it does in
`retrainedState`. -/
theorem not_linksAndBackgroundGoOn : ¬ Obligations.LinksAndBackgroundGoOn := by
  unfold Obligations.LinksAndBackgroundGoOn
  intro hall
  obtain ⟨-, htraining, -⟩ := hall retrainedState retrainedState
  obtain ⟨hdone, -⟩ := htraining (by decide) (by decide +kernel)
  have hexec := hdone (by decide) (by decide) (by decide +kernel)
  have hempties : keepsFlits (exec .voltorTrainingDone retrainedState) = false := by decide +kernel
  rw [hexec] at hempties
  exact absurd hempties (by decide +kernel)

end Sys2Proof.Machine
end

section
/-! The array carries out the head of its queue (O46): one equation of the event per operation. -/

namespace Sys2Proof.Machine

@[simp] theorem run_modPlane (core c : Nat) (f : APlane → APlane) (s : State) : modPlane core c f s = .ok ()
    (s.modCore core fun k => { k with mat := { k.mat with acc := vput k.mat.acc c (f (k.mat.acc.getD c { cells := [], poison := [] })) } }) := rfl

/-- Changes of one core follow each other. -/
theorem modCore_modCore (s : State) (c : Nat) (f g : Core → Core) : (s.modCore c f).modCore c g = s.modCore c fun k => g (f k) := by
  unfold State.modCore
  by_cases hc : c < 64
  · simp only [hc, ↓reduceDIte, Vector.getElem_set_self, Vector.set_set]
  · simp only [hc, ↓reduceDIte]

/-- A change of a core depends on what the core is alone. -/
theorem modCore_congr {s : State} {c : Nat} {f g : Core → Core} (h : f (s.core c) = g (s.core c)) : s.modCore c f = s.modCore c g := by
  unfold State.modCore
  split
  · next hc =>
    have hcore : s.core c = s.cores[c] := by simp [State.core, Vector.getD, hc]
    rw [← hcore, h]
  · rfl

theorem get?_append {α : Type} (a b : SMap α) (k : Nat) : SMap.get? (a ++ b) k = (SMap.get? a k).or (SMap.get? b k) := by
  induction a with
  | nil => simp [SMap.get?]
  | cons x a ih =>
    obtain ⟨j, v⟩ := x
    by_cases hj : j = k
    · simp [SMap.get?, hj]
    · simp [SMap.get?, hj, ih]

theorem get?_filter_key {α : Type} (p : Nat → Bool) (m : SMap α) (k : Nat) : SMap.get? (m.filter fun e => p e.1) k = if p k then SMap.get? m k else none := by
  induction m with
  | nil => simp [SMap.get?]
  | cons x m ih =>
    obtain ⟨j, v⟩ := x
    by_cases hj : j = k
    · subst hj
      by_cases hp : p j = true <;> simp [SMap.get?, hp, ih]
    · by_cases hp : p j = true <;> simp [SMap.get?, hp, hj, ih]

/-- The plane of an accumulator register. -/
theorem acc_getD (m : Matrix) (c : CRegNo) (d : APlane) : m.acc.getD c.val d = m.acc[c] := by
  simp [Vector.getD, c.isLt]

theorem acc_vput (v : Vector APlane 2) (c : CRegNo) (p : APlane) : vput v c.val p = v.set c p := by
  simp only [vput, c.isLt, ↓reduceDIte]

/-- The record of a NaN that a stream of an array has generated, where a kernel holds the array (R87). -/
def streamNanOf (owner : Option Nat) (slot op : Nat) (pc : Word64) (cell : Option Nat) : M Unit :=
  match owner with
  | none => pure ()
  | some k => streamNan k slot op pc cell

/-- It changes no memory and no core. -/
theorem run_streamNanOf (owner : Option Nat) (slot op : Nat) (pc : Word64) (cell : Option Nat) (s : State) :
    ∃ t, streamNanOf owner slot op pc cell s = .ok () t ∧ t.mem = s.mem ∧ t.ls = s.ls ∧ t.cores = s.cores := by
  unfold streamNanOf streamNan
  split
  · exact ⟨s, rfl, rfl, rfl, rfl⟩
  · split
    · exact ⟨s, rfl, rfl, rfl, rfl⟩
    · rw [run_modify]
      split
      · exact ⟨_, rfl, rfl, rfl, rfl⟩
      · split <;> exact ⟨_, rfl, rfl, rfl, rfl⟩

section
variable {s : State} {o : MOp} {rest : List MOp} (hq : (s.core s.curEv.a).mat.queue = o :: rest)
include hq

theorem exec_matrixQueueExecute_swap (ho : o = .swap) : exec .matrixQueueExecute s = .next (s.modCore s.curEv.a fun k => { k with mat :=
    { k.mat with active := k.mat.shadow, shadow := k.mat.active, queue := rest } }) := by
  subst ho
  refine event_ok ?_
  simp only [run_bind, run_get, hq, run_modCore, run_pure, modCore_modCore, List.nil_append]

theorem exec_matrixQueueExecute_load {w : WPlane} {row : Nat} (ho : o = .load w row) :
    exec .matrixQueueExecute s = .next (s.modCore s.curEv.a fun k => { k with mat :=
      { k.mat with shadow := w.loadRows k.mat.shadow (upToStep s.curEv.b row 256)
                   queue := (if upToStep s.curEv.b row 256 = 256 then [] else [.load w (upToStep s.curEv.b row 256)]) ++ rest } }) := by
  subst ho
  refine event_ok ?_
  simp only [run_bind, run_get, hq, run_modCore, run_pure, modCore_modCore]

theorem exec_matrixQueueExecute_zero {c : CRegNo} {cell : Nat} (ho : o = .zero c.val cell) :
    exec .matrixQueueExecute s = .next (s.modCore s.curEv.a fun k => { k with mat :=
      { k.mat with acc := k.mat.acc.set c (k.mat.acc[c].clearTo (upToStep s.curEv.b cell 0x10000))
                   queue := (if upToStep s.curEv.b cell 0x10000 = 0x10000 then [] else [.zero c.val (upToStep s.curEv.b cell 0x10000)]) ++ rest } }) := by
  subst ho
  refine event_ok ?_
  simp only [run_bind, run_get, hq, run_modCore, run_modPlane, run_pure, modCore_modCore, acc_getD, acc_vput]

theorem exec_matrixQueueExecute_write {c : CRegNo} {cells : SMap Nat} (ho : o = .write c.val cells) :
    exec .matrixQueueExecute s = .next (s.modCore s.curEv.a fun k => { k with mat :=
      { k.mat with acc := k.mat.acc.set c (k.mat.acc[c].write (cells.take (upToStep s.curEv.b 0 cells.length)))
                   queue := (if upToStep s.curEv.b 0 cells.length = cells.length then []
                     else [.write c.val (cells.drop (upToStep s.curEv.b 0 cells.length))]) ++ rest } }) := by
  subst ho
  refine event_ok ?_
  simp only [run_bind, run_get, hq, run_modCore, run_modPlane, run_pure, modCore_modCore, acc_getD, acc_vput]

theorem exec_matrixQueueExecute_stream {c : CRegNo} {slot : Nat} {pc : Word64} {p : Shape} {rows : List ActRow} {row col op : Nat} (hc : s.curEv.a < 64)
    (ho : o = .stream c.val slot pc p rows none false row col op) :
    let now := cellsNow s.curEv.b s.curEv.c (p.extents (4 * row + col)).2 rows
    let m := (s.core s.curEv.a).mat
    ∃ t, exec .matrixQueueExecute s = .next t ∧ t.mem = s.mem ∧ t.ls = s.ls ∧ (t.core s.curEv.a).mat =
      { m with acc := m.acc.set c (streamRows pc p.a m.active p.k now.1 m.acc[c]).1
               queue := (if now.2.isEmpty then [] else [.stream c.val slot pc p now.2 none false row col op]) ++ rest } := by
  subst ho
  intro now m
  let u := s.modCore s.curEv.a fun k => { k with mat := { k.mat with acc := k.mat.acc.set c (streamRows pc p.a m.active p.k now.1 m.acc[c]).1 } }
  obtain ⟨v, hv, hmem, hls, hcores⟩ := run_streamNanOf m.owner slot op pc (streamRows pc p.a m.active p.k now.1 m.acc[c]).2 u
  refine ⟨v.modCore s.curEv.a fun k => { k with mat := { k.mat with
    queue := (if now.2.isEmpty then [] else [MOp.stream c.val slot pc p now.2 none false row col op]) ++ rest } }, event_ok ?_, ?_, ?_, ?_⟩
  · simp only [run_bind, run_get, hq, run_modCore, run_pure, runStream, acc_getD, acc_vput]
    simp only [streamNanOf, m, u, now] at hv
    cases howner : (s.core s.curEv.a).mat.owner with
    | none =>
      rw [howner] at hv
      simp only [hv, now]
    | some k =>
      rw [howner] at hv
      simp only [hv, now]
  · rw [modCore_mem, hmem, modCore_mem]
  · rw [modCore_ls, hls, modCore_ls]
  · have hcore : v.core s.curEv.a = u.core s.curEv.a := by simp only [State.core, hcores]
    rw [core_modCore_self hc, hcore, core_modCore_self hc]

end

/-- A shadow plane takes the weights of the rows loaded, and keeps those of the others (R193). -/
theorem loadRows_get? (w old : WPlane) {k : Nat} (hk : k < 256) (x : Nat) :
    SMap.get? (w.loadRows old k).cells x = (if x < 256 * k then SMap.get? w.cells x else SMap.get? old.cells x) ∧
      SMap.get? (w.loadRows old k).scales x = if x < 256 * k then SMap.get? w.scales x else SMap.get? old.scales x := by
  have hmix (new old : SMap Nat) : SMap.get? (new.filter (fun y => decide (y.1 < 256 * k)) ++ old.filter fun y => decide (256 * k ≤ y.1)) x =
      if x < 256 * k then SMap.get? new x else SMap.get? old x := by
    rw [get?_append, get?_filter_key (fun y => decide (y < 256 * k)), get?_filter_key (fun y => decide (256 * k ≤ y))]
    by_cases hx : x < 256 * k
    · simp [hx, Nat.not_le.mpr hx]
    · simp [hx, Nat.le_of_not_lt hx]
  simp only [WPlane.loadRows, Nat.not_le.mpr hk, ↓reduceIte]
  exact ⟨hmix w.cells old.cells, hmix w.scales old.scales⟩

theorem clearTo_get? (p : APlane) {k : Nat} (hk : k < 65536) (x : Nat) :
    SMap.get? (p.clearTo k).cells x = if x < k then none else SMap.get? p.cells x := by
  simp only [APlane.clearTo, Nat.not_le.mpr hk, ↓reduceIte]
  rw [get?_filter_key (fun y => decide (k ≤ y))]
  by_cases hx : x < k
  · simp [hx]
  · simp [hx, Nat.le_of_not_lt hx]

theorem upToStep_le (n done total : Nat) : upToStep n done total ≤ total := by
  unfold upToStep
  split
  · exact Nat.le_refl _
  · exact Nat.min_le_left ..

/-- Settles O46, by the operation at the head of the queue. -/
theorem theArrayCarriesOutItsQueue : Obligations.TheArrayCarriesOutItsQueue := by
  unfold Obligations.TheArrayCarriesOutItsQueue
  intro s o rest hc hq
  have hleaves {f : Core → Core} {m : Matrix} (hexec : exec .matrixQueueExecute s = .next (s.modCore s.curEv.a f))
      (hf : f (s.core s.curEv.a) = { s.core s.curEv.a with mat := m }) :
      exec .matrixQueueExecute s = .next (s.modCore s.curEv.a fun k => { k with mat := m }) := hexec.trans (congrArg _ (modCore_congr hf))
  refine ⟨?_, ?_, ?_, ?_, ?_⟩
  · intro w row ho k
    refine ⟨w.loadRows (s.core s.curEv.a).mat.shadow k, hleaves (exec_matrixQueueExecute_load hq ho) ?_, ?_, fun hk x => loadRows_get? _ _ hk x⟩
    · have hk : upToStep s.curEv.b row 256 = k := rfl
      rw [hk]
      split <;> rfl
    · intro hk
      simp only [WPlane.loadRows, hk, le_refl, ↓reduceIte]
  · intro ho
    exact hleaves (exec_matrixQueueExecute_swap hq ho) rfl
  · intro c cell ho k
    refine ⟨(s.core s.curEv.a).mat.acc[c].clearTo k, hleaves (exec_matrixQueueExecute_zero hq ho) ?_, ?_, fun hk x => clearTo_get? _ hk x⟩
    · have hk : upToStep s.curEv.b cell 65536 = k := rfl
      rw [hk]
      split <;> rfl
    · intro hk
      simp only [APlane.clearTo, hk, le_refl, ↓reduceIte]
  · intro c cells ho k
    refine hleaves (exec_matrixQueueExecute_write hq ho) ?_
    have hk : upToStep s.curEv.b 0 cells.length = k := rfl
    rw [hk]
    split <;> rfl
  · intro c slot pc p rows row col op ho nl left adds
    obtain ⟨t, hexec, hmem, hls, hmat⟩ := exec_matrixQueueExecute_stream hq hc ho
    have hadds {now : List (ActRow × Nat)} {later : List ActRow} (h : cellsNow s.curEv.b s.curEv.c nl rows = (now, later)) : adds now later := by
      refine ⟨t, hexec, hmem, hls, ?_⟩
      rw [hmat, h]
      cases later <;> rfl
    constructor
    · intro hn
      exact hadds (by simp only [cellsNow, hn, ↓reduceIte])
    · intro r hn hr k
      exact hadds (by simp only [cellsNow, hn, hr, ↓reduceIte, k])

end Sys2Proof.Machine
end

section
/-! The engines' events (O49): what an engine does for a transfer that may act, and the ends of moves and of old frames. -/

namespace Sys2Proof.Machine

section
variable {s : State} {h : Hart} {t : Transfer}

theorem run_asHart_ok {α : Type} {slot : Nat} {st : StreamId} {x : M α} {s u : State} {a : α} (hx : x { s with curSlot := slot, curStream := st } = .ok a u) :
    asHart slot st x s = .ok a { u with curSlot := s.curSlot, curStream := s.curStream } := by
  simp only [asHart, run_bind, run_get, run_set, hx, run_modify, run_pure]

theorem run_asHart_error {α : Type} {slot : Nat} {st : StreamId} {x : M α} {s u : State} {e : Stop}
    (hx : x { s with curSlot := slot, curStream := st } = .error e u) : asHart slot st x s = .error e u := by
  simp only [asHart, run_bind, run_get, run_set, hx]

/-- An engine that may act runs its part as its hart's stream (R20, R173). -/
theorem run_asEngine_of_acts {α : Type} (x : Hart → Transfer → Actor → M α) (hacts : s.acts h t) :
    asEngine s.curEv.a s.curEv.b x s = asHart s.curEv.a t.stream (do
      let s ← get
      x h t (s.engineActor h t)) s := by
  obtain ⟨hget, hack, hfind, hclear, hheld⟩ := hacts
  simp only [asEngine, transferOf, run_bind, run_get, hget, hfind, hack, Bool.false_eq_true, ↓reduceIte, run_pure, hclear, hheld, Bool.not_false,
    Bool.and_self]

/-- A part that an engine runs for a transfer that may act. -/
theorem run_asEngine {α : Type} {x : Hart → Transfer → Actor → M α} {a : α} {u : State} (hacts : s.acts h t)
    (hx : x h t ((s.engineFor t).engineActor h t) (s.engineFor t) = .ok a u) : asEngine s.curEv.a s.curEv.b x s = .ok a (s.engineDone u) :=
  (run_asEngine_of_acts x hacts).trans (run_asHart_ok hx)

theorem run_asEngine_error {α : Type} {x : Hart → Transfer → Actor → M α} {e : Stop} {u : State} (hacts : s.acts h t)
    (hx : x h t ((s.engineFor t).engineActor h t) (s.engineFor t) = .error e u) : asEngine s.curEv.a s.curEv.b x s = .error e u :=
  (run_asEngine_of_acts x hacts).trans (run_asHart_error hx)

/-- The hart with other work for one of its transfers. -/
def Hart.works (h : Hart) (id : Nat) (w : Work) : Hart :=
  { h with transfers := h.transfers.map fun t => if t.id = id then { t with work := w } else t }

theorem run_setWork {u : State} {slot id : Nat} (hget : SMap.get? u.harts slot = some h) (hack : h.acked = false) (w : Work) :
    setWork slot id w u = .ok () { u with harts := SMap.put u.harts slot (h.works id w) } :=
  run_modSlot hget hack rfl

theorem goesOn_of_get {u : State} (hget : SMap.get? u.harts s.curEv.a = some h) (w : Work) :
    s.goesOn u w = s.engineDone { u with harts := SMap.put u.harts s.curEv.a (h.works s.curEv.b w) } := by
  simp only [State.goesOn, hget, Hart.works]

/-- The chunk's bank conflicts are counted after its work (R69). -/
theorem run_countAgc {u : State} (hget : SMap.get? u.harts s.curEv.a = some h) (hack : h.acked = false) (w : Work) :
    modSlot s.curEv.a (fun h => pure (h.countAgc s.curEv.d)) (s.goesOn u w) = .ok () ((s.goesOn u w).bankCounted s.curEv) := by
  have hput : SMap.get? (s.goesOn u w).harts s.curEv.a = some (h.works s.curEv.b w) := by
    rw [goesOn_of_get hget]
    exact SMap.get?_put_self ..
  simp only [State.bankCounted, hput]
  exact run_modSlot hput hack rfl

/-- A chunk that may be done, in its turn where the copy's ranges meet (R245). -/
theorem chunk_in_turn {d l : Layout} {todo : List Nat} {c : Nat} (hin : c ∈ todo)
    (hord : overlaps (d.ranges true) (l.ranges false) = true → todo.head? = some c) :
    (!todo.contains c || (overlaps (d.ranges true) (l.ranges false) && todo.head? != some c)) = false := by
  simp only [List.contains_iff_mem.mpr hin, Bool.not_true, Bool.false_or, Bool.and_eq_false_imp, bne_eq_false_iff_eq]
  exact hord

theorem filter_bne (todo : List Nat) (c : Nat) : todo.filter (· != c) = todo.filter (· ≠ c) :=
  List.filter_congr fun _ _ => Bool.eq_iff_iff.mpr (by simp)

theorem exec_copyChunkDone_copied {u : State} (hacts : s.acts h t) (hget : SMap.get? u.harts s.curEv.a = some h) {kind : Nat} {d l : Layout}
    {todo : List Nat} {failed : SMap Nat} {written : Nat} (hwork : t.work = .copy kind d l todo failed written) (hin : s.curEv.c ∈ todo)
    (hord : overlaps (d.ranges true) (l.ranges false) = true → todo.head? = some s.curEv.c)
    (hx : each (chunkUnits kind d s.curEv.c) (copyUnit ((s.engineFor t).engineActor h t) kind d l) (s.engineFor t) = .ok () u) :
    exec .copyChunkDone s = .next ((s.goesOn u (.copy kind d l (todo.filter (· ≠ s.curEv.c)) failed
      (written + (chunkUnits kind d s.curEv.c).length * unitBits kind d))).bankCounted s.curEv) := by
  have hack : h.acked = false := hacts.2.1
  refine event_ok ?_
  simp only [run_bind, run_get]
  rw [run_asEngine hacts (a := ()) (u := { u with harts := SMap.put u.harts s.curEv.a (h.works s.curEv.b
        (.copy kind d l (todo.filter (· ≠ s.curEv.c)) failed (written + (chunkUnits kind d s.curEv.c).length * unitBits kind d))) }), ← goesOn_of_get hget]
  · exact run_countAgc hget hack _
  · simp only [hwork, chunk_in_turn hin hord, Bool.false_eq_true, ↓reduceIte, run_bind, run_attempt_ok hx, filter_bne]
    exact run_setWork hget hack _

theorem exec_copyChunkDone_failed {u u' : State} (hacts : s.acts h t) (hget : SMap.get? u.harts s.curEv.a = some h) {kind : Nat} {d l : Layout}
    {todo : List Nat} {failed : SMap Nat} {written : Nat} (hwork : t.work = .copy kind d l todo failed written) (hin : s.curEv.c ∈ todo)
    (hord : overlaps (d.ranges true) (l.ranges false) = true → todo.head? = some s.curEv.c) {c : BitVec 8} {v : Word64} {b : BitVec 5} {k : Bool} {n : Nat}
    (hx : each (chunkUnits kind d s.curEv.c) (copyUnit ((s.engineFor t).engineActor h t) kind d l) (s.engineFor t) = .error (.trap c v b k) u')
    (hz : eachFold (chunkUnits kind d s.curEv.c) 0 (fun n x => do
      let k ← zeroUnit ((s.engineFor t).engineActor h t) kind d x
      pure (n + k)) (s.engineFor t) = .ok n u) :
    exec .copyChunkDone s = .next ((s.goesOn u (.copy kind d l (todo.filter (· ≠ s.curEv.c)) (SMap.put failed s.curEv.c c.toNat)
      (written + n))).bankCounted s.curEv) := by
  have hack : h.acked = false := hacts.2.1
  refine event_ok ?_
  simp only [run_bind, run_get]
  rw [run_asEngine hacts (a := ()) (u := { u with harts := SMap.put u.harts s.curEv.a (h.works s.curEv.b
        (.copy kind d l (todo.filter (· ≠ s.curEv.c)) (SMap.put failed s.curEv.c c.toNat) (written + n))) }), ← goesOn_of_get hget]
  · exact run_countAgc hget hack _
  · simp only [hwork, chunk_in_turn hin hord, Bool.false_eq_true, ↓reduceIte, run_bind, run_attempt_error hx, hz, filter_bne]
    exact run_setWork hget hack _

/-- A copy with no chunk left ends: its mask is written, or that fails, and its record is posted (R246). -/
theorem exec_copyCompletion_ends {u1 v' : State} (hacts : s.acts h t) {kind : Nat} {d l : Layout} {failed : SMap Nat} {written : Nat}
    (hwork : t.work = .copy kind d l [] failed written) {r : Except Stop Unit} {wrote : Bool}
    (hx : attempt (((s.engineFor t).engineActor h t).storeNow (d.addr + 56) 8 (failed.map fun f => 2 ^ f.1).sum) (s.engineFor t) = .ok r u1)
    (hr : (r = .ok () ∧ wrote = true) ∨ (∃ c v b k, r = .error (.trap c v b k)) ∧ wrote = false)
    (hpost : postRecord s.curEv.a s.curEv.b kind false (failed.headD (0, 0)).2 (if failed = [] then 0 else if failed.length = d.chunks then 2 else 1)
      (BitVec.ofNat 64 (failed.map fun f => 2 ^ f.1).sum) d.addr (BitVec.ofNat 64 (written / 8))
      (State.endCover (u1.modCore (coreOfSlot s.curEv.a) fun c => match SMap.get? c.rcache (recKey h d.addr) with
        | none => c
        | some b => if wrote then { c with
            rcache := SMap.put c.rcache (recKey h d.addr) (BitVec.ofNat 512 (putBits b.toNat 448 64 (failed.map fun f => 2 ^ f.1).sum))
            rpoison := c.rpoison.filter fun x => x != (recKey h d.addr, 7) } else c) s.curEv.a t.stream t.id) = .ok () v') :
    exec .copyCompletion s = .next (s.engineDone v') := by
  refine event_ok ?_
  simp only [run_bind, run_get]
  refine run_asEngine hacts ?_
  simp only [List.isEmpty_iff] 
  rcases hr with ⟨rfl, rfl⟩ | ⟨⟨c, v, b, k, rfl⟩, rfl⟩
  · simp only [hwork, run_bind, hx, run_pure, run_modCore, run_modify]
    exact hpost
  · simp only [hwork, run_bind, hx, run_pure, run_modCore, run_modify]
    exact hpost

/-- The steps of a block's compaction (R249). -/
theorem exec_kvcompactEvent_walked {u1 : State} (hacts : s.acts h t) {page bitmap keep : Word64} {l : Leaf} (hwork : t.work = .kvc page bitmap keep)
    (hwalk : walk (((SMap.get? s.contexts h.asid).map Context.root).getD 0) page.toNat (s.engineFor t) = .ok (.leaf l) u1) :
    (∀ v', l.size ≠ 2 ^ 16 → postRecord s.curEv.a s.curEv.b 5 false 0 8 0 page 0 u1 = .ok () v' → exec .kvcompactEvent s = .next (s.engineDone v')) ∧
    (∀ v', l.size = 2 ^ 16 → l.tier = 2 → postRecord s.curEv.a s.curEv.b 5 false 0x0D 2 0 page 0 u1 = .ok () v' →
      exec .kvcompactEvent s = .next (s.engineDone v')) ∧
    ∀ bm u2 u3 v', l.size = 2 ^ 16 → l.tier ≠ 2 → ((s.engineFor t).engineActor h t).load .home bitmap 8 (some false) u1 = .ok bm u2 →
      (do
        compactRows ((s.engineFor t).engineActor h t) page bm (bm &&& keep.toNat)
        ((s.engineFor t).engineActor h t).storeNow bitmap 8 (bm &&& keep.toNat)) u2 = .ok () u3 →
      postRecord s.curEv.a s.curEv.b 5 false 0 0 0 page (BitVec.ofNat 64 (bm &&& keep.toNat)) u3 = .ok () v' →
      exec .kvcompactEvent s = .next (s.engineDone v') := by
  have hctx : (s.engineFor t).contexts = s.contexts := rfl
  refine ⟨?_, ?_, ?_⟩
  · intro v' hsize hpost
    refine event_ok ?_
    simp only [run_bind, run_get]
    refine run_asEngine hacts ?_
    simp only [hwork, run_bind, run_get, hctx, hwalk, hsize, ne_eq, not_false_eq_true, ↓reduceIte]
    exact hpost
  · intro v' hsize htier hpost
    refine event_ok ?_
    simp only [run_bind, run_get]
    refine run_asEngine hacts ?_
    simp only [hwork, run_bind, run_get, hctx, hwalk, hsize, ne_eq, not_true_eq_false, htier, ↓reduceIte]
    exact hpost
  · intro bm u2 u3 v' hsize htier hload hstored hpost
    refine event_ok ?_
    simp only [run_bind, run_get]
    refine run_asEngine hacts ?_
    have hattempt : attempt (do
        let bm ← ((s.engineFor t).engineActor h t).load .home bitmap 8
        let kept := bm &&& keep.toNat
        compactRows ((s.engineFor t).engineActor h t) page bm kept
        ((s.engineFor t).engineActor h t).storeNow bitmap 8 kept
        pure kept) u1 = .ok (.ok (bm &&& keep.toNat)) u3 := by
      refine run_attempt_ok ?_
      obtain ⟨_, w, hc, hs⟩ := ok_of_bind hstored
      simp only [run_bind, hload, hc, hs, run_pure]
    simp only [hwork, run_bind, run_get, hctx, hwalk, hsize, ne_eq, not_true_eq_false, htier, ↓reduceIte, hattempt]
    exact hpost

/-- The hart with the work of one of its passes and the pages that it still reads replaced (R173, R326). -/
def Hart.passes (h : Hart) (id : Nat) (p : Pass) (pages : List Nat) (un : Bool) : Hart :=
  { h with transfers := h.transfers.map fun t =>
    if t.id = id then { t with work := .pass p, pages := pages, unnamed := un && decide (p.fates.length < p.nblk) } else t }

theorem run_setPass {u : State} {slot id : Nat} (hget : SMap.get? u.harts slot = some h) (hack : h.acked = false) (p : Pass) (pages : List Nat)
    (un : Bool) : setPass slot id p pages un u = .ok () { u with harts := SMap.put u.harts slot (h.passes id p pages un) } :=
  run_modSlot hget hack rfl

/-- A pass that is told its pages stays the same transfer. -/
theorem nameNow_id {a : Actor} {p : Pass} {u u0 : State} {t' : Transfer} (hx : t.nameNow a p u = .ok t' u0) : t'.id = t.id := by
  unfold Transfer.nameNow at hx
  split at hx
  · simp only [run_pure, EStateM.Result.ok.injEq] at hx
    rw [← hx.1]
  · obtain ⟨r, v, -, hx⟩ := ok_of_bind hx
    cases r with
    | none =>
      simp only [run_pure, EStateM.Result.ok.injEq] at hx
      rw [← hx.1]
    | some l =>
      simp only [run_pure, EStateM.Result.ok.injEq] at hx
      rw [← hx.1]

/-- S1 holds the work of a pass (R20). -/
theorem exec_sliceBlockRead_held (hlevel : s.level ≠ .s2) : exec .sliceBlockRead s = .next s := by
  refine event_error (e := .noHart) (s' := s) ?_
  simp only [run_bind, run_get, hlevel, ne_eq, not_false_eq_true, ↓reduceIte, run_impossible]

theorem exec_sliceBlockRead_dispatch (hlevel : s.level = .s2) (hacts : s.acts h t) {p : Pass} (hwork : t.work = .pass p)
    (hc : s.curEv.c = p.fates.length) (hn : s.curEv.c < p.nblk) :
    (∀ u, dispatchTurn s.curEv.a h t ((s.engineFor t).engineActor h t) p s.curEv.c (s.engineFor t) = .ok () u →
      exec .sliceBlockRead s = .next (s.engineDone u)) ∧
    ∀ e u, dispatchTurn s.curEv.a h t ((s.engineFor t).engineActor h t) p s.curEv.c (s.engineFor t) = .error e u → exec .sliceBlockRead s = .next s := by
  constructor
  · intro u hx
    refine event_ok ?_
    simp only [run_bind, run_get, hlevel, ne_eq, not_true_eq_false, ↓reduceIte]
    refine run_asEngine hacts ?_
    simp only [hwork, if_pos (And.intro hc hn)]
    exact hx
  · intro e u hx
    refine event_error (e := e) (s' := u) ?_
    simp only [run_bind, run_get, hlevel, ne_eq, not_true_eq_false, ↓reduceIte]
    refine run_asEngine_error hacts ?_
    simp only [hwork, if_pos (And.intro hc hn)]
    exact hx

/-- The turn of a block whose dispatch has an answer: the pass is replaced, unless the block's page has still to be written (R173, R326). -/
theorem run_dispatchTurn {a : Actor} {p : Pass} {b : Nat} {u u0 u1 : State} {t' : Transfer} {f : BlockFate} (hname : t.nameNow a p u = .ok t' u0)
    (hdisp : dispatchBlock a p b u0 = .ok f u1) {slot : Nat} (hget : SMap.get? u1.harts slot = some h) (hack : h.acked = false) :
    ((∀ k page, f ≠ .dispatched k page) → dispatchTurn slot h t a p b u =
      .ok () { u1 with harts := SMap.put u1.harts slot (h.passes t.id { p with fates := p.fates ++ [f] } t'.pages t'.unnamed) }) ∧
    ∀ k page, f = .dispatched k page →
      (h.pageAhead t.id (page.toNat / 2 ^ 16) = true → dispatchTurn slot h t a p b u = .error .noHart u1) ∧
      (h.pageAhead t.id (page.toNat / 2 ^ 16) = false → dispatchTurn slot h t a p b u =
        .ok () { u1 with harts := (SMap.put u1.harts slot (h.passes t.id { p with
          fates := p.fates ++ [f]
          running := (if (SMap.get? p.running k).isSome then p.running else SMap.put p.running k (List.replicate (p.nr * p.nh) (emptyTriple p.hd))) }
          (p.pagesWith t'.pages (page.toNat / 2 ^ 16)) t'.unnamed)) }) := by
  have hid := nameNow_id hname
  refine ⟨fun hf => ?_, fun k page hf => ⟨fun hahead => ?_, fun hahead => ?_⟩⟩
  · cases f with
    | dispatched k page => exact absurd rfl (hf k page)
    | _ => simp only [dispatchTurn, run_bind, hname, hdisp, run_setPass hget hack, hid]
  · subst hf
    simp only [dispatchTurn, run_bind, hname, hdisp, hid, hahead, ↓reduceIte, run_impossible]
  · subst hf
    simp only [dispatchTurn, run_bind, hname, hdisp, hid, hahead, Bool.false_eq_true, ↓reduceIte, run_setPass hget hack]

/-- A slice keeps its running triples when another joins them. -/
theorem running_kept {α : Type} {m : SMap α} {k : Nat} {x : α} {k' : Nat} {v : α} (hget : SMap.get? m k' = some v) :
    SMap.get? (if (SMap.get? m k).isSome then m else SMap.put m k x) k' = some v := by
  split
  · exact hget
  · next hnone =>
    by_cases hk : k' = k
    · subst hk
      exact absurd (by rw [hget]; rfl) hnone
    · rw [SMap.get?_put_ne m x hk, hget]

/-- A pass after slice k has read block c (R326, R327). -/
def Pass.afterRead (p : Pass) (k c : Nat) (f : BlockFate) (rows : List (Nat × List Nat × List Nat)) : Pass :=
  match f with
  | .scored _ => ({ p with fates := p.fates.set c f } : Pass).absorb k c rows
  | _ => { p with fates := p.fates.set c f }

theorem afterRead_fates (p : Pass) (k c : Nat) (f : BlockFate) (rows : List (Nat × List Nat × List Nat)) :
    (p.afterRead k c f rows).fates = p.fates.set c f := by
  cases f <;> rfl

theorem afterRead_running {f : BlockFate} (hf : ∀ k', f ≠ .scored k') (p : Pass) (k c : Nat) (rows : List (Nat × List Nat × List Nat)) :
    (p.afterRead k c f rows).running = p.running := by
  cases f with
  | scored k' => exact absurd rfl (hf k')
  | _ => rfl

/-- A block that was dispatched and that none before it at its slice waits for is read. -/
theorem exec_sliceBlockRead_read (hlevel : s.level = .s2) (hacts : s.acts h t) {p : Pass} (hwork : t.work = .pass p) (hc : s.curEv.c < p.fates.length)
    {k : Nat} {page : Word64} (hfate : p.fates[s.curEv.c]? = some (.dispatched k page)) (hturn : ∀ x ∈ p.fates.take s.curEv.c, x.waitsAt k = false)
    {f : BlockFate} {rows : List (Nat × List Nat × List Nat)} {u : State}
    (hread : readBlock ((s.engineFor t).engineActor h t) p k page s.curEv.c (s.engineFor t) = .ok (f, rows) u)
    (hget : SMap.get? u.harts s.curEv.a = some h) :
    exec .sliceBlockRead s = .next (s.engineDone { u with harts := (SMap.put u.harts s.curEv.a
      (h.passes s.curEv.b (p.afterRead k s.curEv.c f rows) (t.pages.erase (page.toNat / 2 ^ 16)) t.unnamed)) }) := by
  have hnot : ¬(s.curEv.c = p.fates.length ∧ s.curEv.c < p.nblk) := fun hh => absurd hh.1 (Nat.ne_of_lt hc)
  have hany : ((p.fates.take s.curEv.c).any fun f => f.waitsAt k) = false :=
    List.any_eq_false.mpr fun x hx => by simp only [hturn x hx, Bool.false_eq_true, not_false_eq_true]
  refine event_ok ?_
  simp only [run_bind, run_get, hlevel, ne_eq, not_true_eq_false, ↓reduceIte]
  refine run_asEngine hacts ?_
  simp only [hwork, if_neg hnot, hfate, hany, Bool.false_eq_true, ↓reduceIte, run_bind, hread]
  cases f <;> exact run_setPass hget hacts.2.1 ..

/-- An event that cannot go on leaves the state as it was. -/
theorem event_stops {x : M Unit} (hx : ∀ v, x s ≠ .ok () v) : event x s = .next s := by
  cases h : x s with
  | ok r v => exact absurd h (hx v)
  | error e v => exact event_error h

/-- A part that stops for every transfer stops. -/
theorem asEngine_stops {α : Type} {x : Hart → Transfer → Actor → M α} (hx : ∀ h t a u r v, x h t a u ≠ .ok r v) (slot id : Nat) (s : State)
    (r : α) (v : State) : asEngine slot id x s ≠ .ok r v := by
  intro hrun
  obtain ⟨⟨h, t⟩, s1, -, hrun⟩ := ok_of_bind hrun
  obtain ⟨s2, s3, -, hrun⟩ := ok_of_bind hrun
  split at hrun
  · obtain ⟨s4, s5, -, hrun⟩ := ok_of_bind hrun
    obtain ⟨_, s6, -, hrun⟩ := ok_of_bind hrun
    obtain ⟨r', s7, hrun, -⟩ := ok_of_bind hrun
    obtain ⟨s8, s9, -, hrun⟩ := ok_of_bind hrun
    exact hx _ _ _ _ _ _ hrun
  · exact absurd hrun (by simp only [run_impossible, reduceCtorEq, not_false_eq_true])

/-- S1 holds the work of a pass (R20). -/
theorem exec_passCompletion_held (hlevel : s.level ≠ .s2) : exec .passCompletion s = .next s := by
  refine event_stops ?_
  simp only [run_bind, run_get]
  refine asEngine_stops ?_ s.curEv.a s.curEv.b s ()
  intro h t a u r v
  cases t.work with
  | pass p => simp only [hlevel, ne_eq, not_false_eq_true, true_or, ↓reduceIte, run_impossible, reduceCtorEq]
  | _ => simp only [run_impossible, ne_eq, reduceCtorEq, not_false_eq_true]

/-- A pass whose blocks have all been read writes its results and posts its record (R328). -/
theorem exec_passCompletion_done (hlevel : s.level = .s2) (hacts : s.acts h t) {p : Pass} (hwork : t.work = .pass p) (hlen : p.fates.length = p.nblk)
    (hall : ∀ f ∈ p.fates, ∀ k page, f ≠ .dispatched k page) {u v' : State}
    (hwrites : each (((((mergeAll p.pc p.hd 8 (p.running.map Prod.snd)).headD (List.replicate (p.nr * p.nh) (emptyTriple p.hd))).flatMap Triple.words ++
        blockMask p BlockFate.absent ++ blockMask p fun f => f.cause?.isSome)).zipIdx)
      (fun (w, i) => ((s.engineFor t).engineActor h t).storeNow (BitVec.ofNat 64 (windowBase + p.dst + 8 * i)) 8 w) (s.engineFor t) = .ok () u)
    (hpost : postRecord s.curEv.a s.curEv.b 6 false ((p.fates.filterMap BlockFate.cause?).headD 0) (if p.fates.filterMap BlockFate.cause? = [] then 0
        else if (p.fates.filterMap BlockFate.cause?).length = (p.fates.filter (· ≠ .noPage)).length then 2 else 1)
      (BitVec.ofNat 64 (p.fates.filterMap BlockFate.cause?).length) p.recAddr (BitVec.ofNat 64 (p.fates.filter BlockFate.absent).length) u = .ok () v') :
    exec .passCompletion s = .next (s.engineDone v') := by
  have htried : p.fates.filter (· != .noPage) = p.fates.filter (· ≠ .noPage) := List.filter_congr fun _ _ => Bool.eq_iff_iff.mpr (by simp)
  refine event_ok ?_
  simp only [run_bind, run_get]
  refine run_asEngine hacts ?_
  simp only [hwork]
  rw [if_neg, run_bind, hwrites]
  · simp only [List.isEmpty_iff, htried]
    exact hpost
  · rintro (hnot | hnot | hany)
    · exact hnot hlevel
    · exact hnot hlen
    · obtain ⟨f, hf, hopen⟩ := List.any_eq_true.mp hany
      cases f with
      | dispatched k page => exact hall _ hf k page rfl
      | _ => exact absurd hopen Bool.false_ne_true

/-- A word with its low bits cleared. -/
theorem clear_low_bits (x : Word64) (k : Nat) : x &&& ~~~(BitVec.ofNat 64 (2 ^ k - 1)) = BitVec.ofNat 64 (x.toNat / 2 ^ k * 2 ^ k) := by
  refine BitVec.eq_of_getLsbD_eq fun i hi => ?_
  rw [BitVec.getLsbD_and, BitVec.getLsbD_not, BitVec.getLsbD_ofNat, BitVec.getLsbD_ofNat, Nat.testBit_two_pow_sub_one, Nat.testBit_mul_two_pow,
    Nat.testBit_div_two_pow, decide_eq_true hi, Bool.true_and, Bool.true_and]
  by_cases hik : k ≤ i
  · simp [hik, Nat.not_lt.mpr hik, BitVec.getLsbD]
  · simp [hik, Nat.lt_of_not_le hik]

/-- A frame's number of a page of 64 KiB. -/
theorem page_base (page : Word64) : (page &&& ~~~0xFFFF#64) = BitVec.ofNat 64 (page.toNat / 2 ^ 16 * 2 ^ 16) := clear_low_bits page 16

/-- The asker's transfer, where every transfer of its identity is that one. -/
theorem findSome?_transfer {l : SMap Hart} {slot id : Nat} (hget : SMap.get? l slot = some h) (hfind : h.transfers.find? (fun x => x.id == id) = some t)
    {rest : SMap Hart} (huniq : ∀ x ∈ l ++ rest, ∀ y ∈ x.2.transfers, y.id = id → y = t) :
    ((l ++ rest).findSome? fun e => e.2.transfers.find? fun t => t.id == id) = some t := by
  have hmem : (slot, h) ∈ l ++ rest := List.mem_append_left _ (SMap.mem_of_get? hget)
  cases hsome : (l ++ rest).findSome? fun e => e.2.transfers.find? fun t => t.id == id with
  | none => exact absurd (List.findSome?_eq_none_iff.mp hsome _ hmem) (by rw [hfind]; exact Option.some_ne_none t)
  | some y =>
    obtain ⟨x, hx, hy⟩ := List.exists_of_findSome?_eq_some hsome
    rw [huniq x hx y (List.mem_of_find?_eq_some hy) (by simpa using List.find?_some hy)]

/-- A move that still stands when it ends installs its frame (R216). -/
theorem exec_moveInstall_still {s1 s2 s3 s4 s5 s6 s7 : State} {m : Move} {e : Nat} {r : FrameRec} (hm : s.moves.find? (fun x => x.id == s.curEv.a) = some m)
    (hread : hwRead m.leaf 16 { s with moves := s.moves.filter fun x => x.id != m.id } = .ok e s1) (hrec : frameRec m.oldFrame s1 = .ok (some r) s2)
    (hstill : e % 4 = 3 ∧ (Leaf.of m.leaf [] e).frame = m.oldFrame ∧ (Leaf.of m.leaf [] e).tier = (if m.promote then 3 else 4))
    (h3 : awaitEntry m.leaf 16 s2 = .ok () s3)
    (h4 : copyHeld (m.leaf, m.oldFrame) (m.leaf, m.target) r.key m.oldFrame r.key m.target (2 ^ 16) s3 = .ok () s4)
    (h5 : takeRecord m.leaf m.target { r with moving := false, pins := if m.pin then min (r.pins + 1) 0xFFFF else r.pins } s4 = .ok () s5)
    (h6 : putFrameRec { r with count := 0, moving := false } s5 = .ok () s6)
    (h7 : putLeaf (Leaf.of m.leaf [] e) m.target m.newTier (if m.promote then !m.late else (Leaf.of m.leaf [] e).a) s6 = .ok () s7) :
    let out : State := { s7 with oldFrames := s7.oldFrames ++ [{ frame := m.oldFrame, ring := ringOf m.oldFrame, leaf := m.leaf, place := none }] }
    (m.asker = none → exec .moveInstall s = .next out) ∧
      ∀ slot id h t pr page opt f tier s8, m.asker = some (slot, id) → SMap.get? s1.harts slot = some h → h.transfers.find? (fun x => x.id == id) = some t →
        t.work = .move pr page opt f tier → (∀ x ∈ s1.harts ++ s1.saved, ∀ y ∈ x.2.transfers, y.id = id → y = t) →
        postRecord slot id (if m.promote then 3 else 4) (m.promote && m.late) 0 0 0 (BitVec.ofNat 64 (page.toNat / 2 ^ 16 * 2 ^ 16)) (BitVec.ofNat 64 m.target) out
          = .ok () s8 → exec .moveInstall s = .next s8 := by
  intro out
  constructor
  · intro hasker
    refine event_ok ?_
    simp only [run_bind, run_get, hm, finishMove, run_modify, hread, hrec, if_pos hstill, Option.elim_some, h3, h4, h5, h6, h7, hasker, run_pure, out]
  · intro slot id h t pr page opt f tier s8 hasker hget hfind hwork huniq hpost
    refine event_ok ?_
    simp only [run_bind, run_get, hm, finishMove, run_modify, hread, hrec, if_pos hstill, Option.elim_some, h3, h4, h5, h6, h7, hasker]
    rw [findSome?_transfer hget hfind huniq, Option.bind_some, hwork]
    simp only [Option.getD_some, page_base]
    exact hpost

/-- A move that no longer stands when it ends is stale (R216, R219). -/
theorem exec_moveInstall_stale {s1 s2 s3 s4 : State} {m : Move} {e : Nat} {r : FrameRec} (hm : s.moves.find? (fun x => x.id == s.curEv.a) = some m)
    (hread : hwRead m.leaf 16 { s with moves := s.moves.filter fun x => x.id != m.id } = .ok e s1) (hrec : frameRec m.oldFrame s1 = .ok (some r) s2)
    (hstale : ¬(e % 4 = 3 ∧ (Leaf.of m.leaf [] e).frame = m.oldFrame ∧ (Leaf.of m.leaf [] e).tier = (if m.promote then 3 else 4)))
    (hasker : m.asker = none) (h3 : putFrameRec { r with moving := false } s2 = .ok () s3) (h4 : give m.leaf (ringOf m.target) m.target s3 = .ok () s4) :
    exec .moveInstall s = .next s4 := by
  refine event_ok ?_
  simp only [run_bind, run_get, hm, finishMove, run_modify, hread, hrec, if_neg hstale, h3, h4, hasker, run_pure]

theorem exec_oldFrameRelease_ring {s1 : State} {o : OldFrame} (ho : s.oldFrames[s.curEv.a]? = some o) (hplace : o.place = none)
    (hgive : give o.leaf o.ring o.frame { s with oldFrames := s.oldFrames.eraseIdx s.curEv.a } = .ok () s1) : exec .oldFrameRelease s = .next s1 := by
  refine event_ok ?_
  simp only [run_bind, run_get, ho, run_set, hplace]
  exact hgive

/-- An old frame goes to the place that a ring has made for it, once that is free (R214). -/
theorem exec_oldFrameRelease_place {s1 : State} {o : OldFrame} {x e : Nat} (ho : s.oldFrames[s.curEv.a]? = some o) (hplace : o.place = some x)
    (hread : hwRead x 8 { s with oldFrames := s.oldFrames.eraseIdx s.curEv.a } = .ok e s1) :
    (∀ s2, e = 0 → hwWrite x o.frame 8 s1 = .ok () s2 → exec .oldFrameRelease s = .next s2) ∧ (e ≠ 0 → exec .oldFrameRelease s = .next s) := by
  constructor
  · intro s2 he hwrite
    refine event_ok ?_
    simp only [run_bind, run_get, ho, run_set, hplace, hread, if_pos he]
    exact hwrite
  · intro he
    refine event_error (e := .noHart) (s' := s1) ?_
    simp only [run_bind, run_get, ho, run_set, hplace, hread, if_neg he, run_impossible]

end

/-- Settles O49, event by event. -/
theorem enginesDoTheirWork : Obligations.EnginesDoTheirWork := by
  unfold Obligations.EnginesDoTheirWork
  refine ⟨?_, ?_, ?_⟩
  · intro s u0 u1 u2 u3 h t hacts e u a record
    have hfor {i : Instr} {k cause status : Nat} {w1 w2 w3 : Word64} {v : State}
        (hi : ∀ j ∈ [(0, Instr.copyCompletion), (1, .copyCompletion), (2, .copyCompletion), (5, .kvcompactEvent), (6, .passCompletion)], j.1 = k → j.2 = i)
        (hexec : ∀ v', postRecord e.a e.b k false cause status w1 w2 w3 v = .ok () v' → exec i s = .next (s.engineDone v')) : record v k cause status w1 w2 w3 := by
      intro v' hpost j hj hk
      rw [hi j hj hk]
      exact hexec v' hpost
    have hack : h.acked = false := hacts.2.1
    refine ⟨?_, ?_, ?_, ?_, ?_⟩
    · intro kind d l todo failed written hwork hin hord units rest done
      exact ⟨fun hx hget => exec_copyChunkDone_copied hacts hget hwork hin hord hx, fun c v b k u' n hx hz hget => exec_copyChunkDone_failed hacts hget hwork hin hord hx hz⟩
    · intro kind d l failed written hwork hkind fmask key cached ends
      have hi : ∀ j ∈ [(0, Instr.copyCompletion), (1, .copyCompletion), (2, .copyCompletion), (5, .kvcompactEvent), (6, .passCompletion)],
          j.1 = kind → j.2 = .copyCompletion := by
        intro j hj hk
        simp only [List.mem_cons, List.not_mem_nil, or_false] at hj
        rcases hj with rfl | rfl | rfl | rfl | rfl
        · rfl
        · rfl
        · rfl
        · exact absurd hkind (by rw [← hk]; decide)
        · exact absurd hkind (by rw [← hk]; decide)
      exact ⟨fun hx => hfor hi fun v' => exec_copyCompletion_ends (wrote := true) hacts hwork (run_attempt_ok hx) (.inl ⟨rfl, rfl⟩),
        fun c v b k u' hx => hfor hi fun v' => exec_copyCompletion_ends (wrote := false) hacts hwork (run_attempt_error hx) (.inr ⟨⟨c, v, b, k, rfl⟩, rfl⟩)⟩
    · intro page bitmap keep l bm hwork hwalk
      have hi : ∀ j ∈ [(0, Instr.copyCompletion), (1, .copyCompletion), (2, .copyCompletion), (5, .kvcompactEvent), (6, .passCompletion)],
          j.1 = 5 → j.2 = .kvcompactEvent := by decide
      obtain ⟨hsize, htier, hdone⟩ := exec_kvcompactEvent_walked hacts hwork hwalk
      exact ⟨fun h1 => hfor hi fun v' => hsize v' h1, fun h1 h2 => hfor hi fun v' => htier v' h1 h2,
        fun h1 h2 h3 h4 => hfor hi fun v' => hdone bm u2 u3 v' h1 h2 h3 h4⟩
    · exact fun hlevel => ⟨exec_sliceBlockRead_held hlevel, exec_passCompletion_held hlevel⟩
    · intro p hwork hlevel leaves
      have hid : t.id = e.b := by simpa using List.find?_some hacts.2.2.1
      refine ⟨?_, ?_, ?_⟩
      · intro f t' hc hn hname hdisp hget
        obtain ⟨hok, hstop⟩ := exec_sliceBlockRead_dispatch hlevel hacts hwork hc hn
        obtain ⟨hother, hdispatched⟩ := run_dispatchTurn hname hdisp hget hack
        rw [hid] at hother hdispatched
        refine ⟨fun hf => ⟨_, hok _ (hother hf), rfl, SMap.get?_put_self ..⟩, fun k page hf => ?_⟩
        obtain ⟨hahead, hclear⟩ := hdispatched k page hf
        rw [hid]
        exact ⟨fun hp => hstop _ _ (hahead hp), fun hp => ⟨_, _, ⟨hok _ (hclear hp), rfl, SMap.get?_put_self ..⟩, rfl, rfl, fun _ _ => running_kept⟩⟩
      · intro k page f rows hc hfate hturn hread hget
        exact ⟨p.afterRead k e.c f rows, _, ⟨exec_sliceBlockRead_read hlevel hacts hwork hc hfate hturn hread hget, rfl, SMap.get?_put_self ..⟩,
          afterRead_fates .., fun hf => afterRead_running hf ..⟩
      · intro hlen hall merged causes hwrites
        have hi : ∀ j ∈ [(0, Instr.copyCompletion), (1, .copyCompletion), (2, .copyCompletion), (5, .kvcompactEvent), (6, .passCompletion)],
            j.1 = 6 → j.2 = .passCompletion := by decide
        exact hfor hi fun v' => exec_passCompletion_done hlevel hacts hwork hlen hall hwrites
  · intro s s1 s2 s3 s4 s5 s6 s7 s8 m e r hm hread hrec l still
    refine ⟨fun hstill h3 h4 h5 h6 h7 => ?_, fun hstale hasker h3 h4 => exec_moveInstall_stale hm hread hrec hstale hasker h3 h4⟩
    intro out
    obtain ⟨hnone, hsome⟩ := exec_moveInstall_still hm hread hrec hstill h3 h4 h5 h6 h7
    exact ⟨hnone, fun slot id h t pr page opt f tier h1 h2 h3 h4 h5 h6 => hsome slot id h t pr page opt f tier s8 h1 h2 h3 h4 h5 h6⟩
  · intro s s1 s2 o ho u
    refine ⟨exec_oldFrameRelease_ring ho, fun x e hplace hread => ?_⟩
    obtain ⟨hfree, hfull⟩ := exec_oldFrameRelease_place ho hplace hread
    exact ⟨hfree s2, hfull⟩

end Sys2Proof.Machine
end

section
/-! The host and the device's own life (O54): mailbox commands, restart and boot, the device window and the aperture. -/

namespace Sys2Proof.Machine

section
variable {s s1 s2 s3 : State}

/-- The device has taken the mailbox command of a number (R377). -/
def State.rung (s : State) (n : Nat) : Prop := s.mailbox.status = 1 ∧ s.mailbox.task = n

/-- A command has answered its data, its status and its number (R377). -/
def State.answered (u : State) (status : Nat) (data : List Byte) : State := { u with mailbox := { u.mailbox with
  data := data.take 3840 ++ u.mailbox.data.drop (min data.length 3840), status := BitVec.ofNat 32 status, seq := u.mailbox.bell } }

theorem run_command {n : Nat} {levels : Level → Bool} {x : M (Nat × List Byte)} {status : Nat} {data : List Byte} (hrung : s.rung n)
    (hl : levels s.level = true) (hx : x s = .ok (status, data) s1) : command n levels x s = .ok () (s1.answered status data) := by
  obtain ⟨hstatus, htask⟩ := hrung
  simp only [command, run_bind, run_get, hstatus, htask, ne_eq, not_true_eq_false, or_self, ↓reduceIte, hl, hx, run_modify, State.answered]

/-- A command that the level does not permit ends with status 3 (R377). -/
theorem run_command_denied {n : Nat} {levels : Level → Bool} {x : M (Nat × List Byte)} (hrung : s.rung n) (hl : levels s.level = false) :
    command n levels x s = .ok () (s.answered 3 []) := by
  obtain ⟨hstatus, htask⟩ := hrung
  simp only [command, run_bind, run_get, hstatus, htask, ne_eq, not_true_eq_false, or_self, ↓reduceIte, hl, Bool.false_eq_true, run_pure, run_modify,
    State.answered]

theorem exec_denied (hlevel : s.level = .s0) : ∀ f ∈ [(1, Instr.ctxRoot), (2, .setPcb), (3, .fabricTable), (7, .attest)], s.rung f.1 →
    exec f.2 s = .next (s.answered 3 []) := by
  have hrunning : Level.running s.level = false := by rw [hlevel]; rfl
  have hs2 : (s.level == Level.s2) = false := by rw [hlevel]; rfl
  intro f hf hrung
  simp only [List.mem_cons, List.not_mem_nil, or_false] at hf
  rcases hf with rfl | rfl | rfl | rfl
  · exact event_ok (run_command_denied hrung hrunning)
  · exact event_ok (run_command_denied hrung hrunning)
  · exact event_ok (run_command_denied hrung hs2)
  · exact event_ok (run_command_denied hrung hrunning)

theorem level_running (hlevel : s.level ≠ .s0) : Level.running s.level = true := decide_eq_true hlevel

theorem exec_ctxRoot_refused (hrung : s.rung 1) (hlevel : s.level ≠ .s0) (hbad : s.mailbox.arg 0 % 128 ≠ 0 ∨ inHbm (s.mailbox.arg 0) = false) :
    exec .ctxRoot s = .next (s.answered 2 []) := by
  refine event_ok (run_command hrung (level_running hlevel) ?_)
  simp only [run_bind, run_get, Bool.not_eq_eq_eq_not, Bool.not_true, if_pos hbad, run_pure]

theorem exec_ctxRoot_taken (hrung : s.rung 1) (hlevel : s.level ≠ .s0) (hpa : s.mailbox.arg 0 % 128 = 0) (hin : inHbm (s.mailbox.arg 0) = true)
    (hw : hwWrite (s.mailbox.arg 0 + 14) 0xFFFF 2 s = .ok () s1) :
    (∀ b, b ≠ 0 → bindCtx (s.mailbox.arg 0) s1 = .ok b s2 → exec .ctxRoot s = .next (s2.answered 0 (bytesOf b 4))) ∧
    ∀ asid c o, bindCtx (s.mailbox.arg 0) s1 = .ok 0 s2 → s2.boundAt (s.mailbox.arg 0) = some (asid, c) → openCtx asid c s2 = .ok o s3 →
      exec .ctxRoot s = .next (s3.answered 0 (bytesOf o 4)) := by
  refine ⟨fun b hb hbind => ?_, fun asid c o hbind hat hopen => ?_⟩
  · refine event_ok (run_command hrung (level_running hlevel) ?_)
    simp only [run_bind, run_get, hpa, hin, hw, hbind, hb, ne_eq, not_true_eq_false, Bool.not_true, Bool.false_eq_true, or_self, not_false_eq_true,
      ↓reduceIte, run_pure]
  · refine event_ok (run_command hrung (level_running hlevel) ?_)
    simp only [run_bind, run_get, hpa, hin, hw, hbind, hat, hopen, ne_eq, not_true_eq_false, Bool.not_true, Bool.false_eq_true, or_self,
      ↓reduceIte, run_pure]

theorem exec_setPcb_refused (hrung : s.rung 2) (hlevel : s.level ≠ .s0)
    (hbad : s.pcb ≠ none ∨ s.mailbox.arg 0 % 64 ≠ 0 ∨ inMemory (s.mailbox.arg 0) 672 = false) : exec .setPcb s = .next (s.answered 2 []) := by
  have hbad' : s.pcb.isSome = true ∨ s.mailbox.arg 0 % 64 ≠ 0 ∨ (!inMemory (s.mailbox.arg 0) 0x2A0) = true := by
    rcases hbad with h | h | h
    · exact .inl (Option.isSome_iff_ne_none.mpr h)
    · exact .inr (.inl h)
    · exact .inr (.inr (by rw [h]; rfl))
  refine event_ok (run_command hrung (level_running hlevel) ?_)
  simp only [run_bind, run_get, if_pos hbad', run_pure]

theorem exec_setPcb_checked (hrung : s.rung 2) (hlevel : s.level ≠ .s0) (hpcb : s.pcb = none) (hpa : s.mailbox.arg 0 % 64 = 0)
    (hin : inMemory (s.mailbox.arg 0) 672 = true) :
    (pcbValid (s.mailbox.arg 0) s = .ok true s1 → exec .setPcb s = .next (({ s1 with pcb := some (s.mailbox.arg 0) } : State).answered 0 [])) ∧
      (pcbValid (s.mailbox.arg 0) s = .ok false s1 → exec .setPcb s = .next (s1.answered 2 [])) := by
  have hbody {ok : Bool} (hv : pcbValid (s.mailbox.arg 0) s = .ok ok s1) : ¬(s.pcb.isSome = true ∨ s.mailbox.arg 0 % 64 ≠ 0 ∨ (!inMemory (s.mailbox.arg 0) 0x2A0) = true) := by
    simp only [hpcb, hpa, hin, Option.isSome_none, Bool.false_eq_true, ne_eq, not_true_eq_false, Bool.not_true, or_self, not_false_eq_true]
  constructor
  · intro hv
    refine event_ok (run_command hrung (level_running hlevel) ?_)
    simp only [run_bind, run_get, if_neg (hbody hv), hv, ↓reduceIte, run_modify, run_pure]
  · intro hv
    refine event_ok (run_command hrung (level_running hlevel) ?_)
    simp only [run_bind, run_get, if_neg (hbody hv), hv, Bool.false_eq_true, ↓reduceIte, run_pure]

theorem exec_fabricTable_refused (hrung : s.rung 3) (hlevel : s.level = .s2)
    (hbad : (∃ k ∈ s.kernels, k.2.fab = true) ∨ 512 < s.mailbox.arg 1 ∨ s.mailbox.arg 1 ≤ s.mailbox.arg 2 ∨
      inMemory (s.mailbox.arg 0) (16 * s.mailbox.arg 1) = false) : exec .fabricTable s = .next (s.answered 2 []) := by
  refine event_ok (run_command hrung (by rw [hlevel]; rfl) ?_)
  simp only [run_bind, run_get, List.any_eq_true, Bool.not_eq_eq_eq_not, Bool.not_true, if_pos hbad, run_pure]

theorem ofNat_bitsOf (x lo n : Nat) : BitVec.ofNat n (bitsOf x lo n) = BitVec.ofNat n (x / 2 ^ lo) := by
  rw [bitsOf_eq_div]
  exact BitVec.eq_of_toNat_eq (by simp only [BitVec.toNat_ofNat, Nat.mod_mod])

theorem exec_fabricTable_read (hrung : s.rung 3) (hlevel : s.level = .s2) (hfab : ∀ k ∈ s.kernels, k.2.fab = false) (hn : s.mailbox.arg 1 ≤ 512)
    (hself : s.mailbox.arg 2 < s.mailbox.arg 1) (hin : inMemory (s.mailbox.arg 0) (16 * s.mailbox.arg 1) = true) {es : List Nat}
    (hread : eachMap (List.range (s.mailbox.arg 1)) (fun i => hwRead (s.mailbox.arg 0 + 16 * i) 16) s = .ok es s1) :
    ((∀ x ∈ es, x / 2 ^ 73 % 2 ^ 7 = 0 ∧ x / 2 ^ 89 % 2 ^ 39 = 0) → exec .fabricTable s = .next (({ s1 with
      self := s.mailbox.arg 2
      fabric := (es.map fun x =>
        { id := BitVec.ofNat 64 x, ports := BitVec.ofNat 8 (x / 2 ^ 64), valid := x.testBit 72, key := x / 2 ^ 80 % 512 }) } : State).answered 0 [])) ∧
    ((∃ x ∈ es, x / 2 ^ 73 % 2 ^ 7 ≠ 0 ∨ x / 2 ^ 89 % 2 ^ 39 ≠ 0) → exec .fabricTable s = .next (s1.answered 2 [])) := by
  have hgood : ¬((s.kernels.any fun k => k.2.fab) = true ∨ 512 < s.mailbox.arg 1 ∨ s.mailbox.arg 1 ≤ s.mailbox.arg 2 ∨
      (!inMemory (s.mailbox.arg 0) (16 * s.mailbox.arg 1)) = true) := by
    rintro (h | h | h | h)
    · obtain ⟨k, hk, hf⟩ := List.any_eq_true.mp h
      exact absurd hf (by rw [hfab k hk]; exact Bool.false_ne_true)
    · exact absurd h (Nat.not_lt.mpr hn)
    · exact absurd h (Nat.not_le.mpr hself)
    · exact absurd h (by rw [hin]; exact Bool.false_ne_true)
  constructor
  · intro hes
    have hany : (es.any fun x => decide (bitsOf x 73 7 ≠ 0) || decide (bitsOf x 89 39 ≠ 0)) = false := List.any_eq_false.mpr fun x hx => by
      obtain ⟨h73, h89⟩ := hes x hx
      simp only [bitsOf_eq_div, h73, h89, ne_eq, not_true_eq_false, decide_false, Bool.or_self, Bool.false_eq_true, not_false_eq_true]
    refine event_ok (run_command hrung (by rw [hlevel]; rfl) ?_)
    simp only [run_bind, run_get, if_neg hgood, hread, hany, Bool.false_eq_true, ↓reduceIte, run_modify, run_pure, ofNat_bitsOf]
    simp only [bitsOf_eq_div, pow_zero, Nat.div_one]
    rfl
  · intro hes
    have hany : (es.any fun x => decide (bitsOf x 73 7 ≠ 0) || decide (bitsOf x 89 39 ≠ 0)) = true := by
      simpa [bitsOf_eq_div] using hes
    refine event_ok (run_command hrung (by rw [hlevel]; rfl) ?_)
    simp only [run_bind, run_get, if_neg hgood, hread, hany, ↓reduceIte, run_pure]

theorem takeEvent_answers (hrung : s.rung 4) : (s.hostEvents = [] → exec .takeEvent s = .next (s.answered 6 [])) ∧
    ∀ r rest, s.hostEvents = r :: rest → exec .takeEvent s = .next (({ s with hostEvents := rest } : State).answered 0
      ([r.w0, r.w1, r.w2, r.w3].flatMap fun w => bytesOf w.toNat 8)) := by
  refine ⟨fun hnone => event_ok (run_command hrung rfl ?_), fun r rest hsome => event_ok (run_command hrung rfl ?_)⟩
  · simp only [run_bind, run_get, hnone, run_pure]
  · simp only [run_bind, run_get, hsome, run_set, run_pure]

@[simp] theorem bytesOf_length (v n : Nat) : (bytesOf v n).length = n := by
  simp only [bytesOf, List.length_map, List.length_range]

theorem readLog_answers (hrung : s.rung 5) : ∃ recs : List (List Byte), recs.length = min 64 s.log.length ∧ (∀ r ∈ recs, r.length = 32) ∧
    exec .readLog s = .next (({ s with log := s.log.drop 64 } : State).answered 0 (bytesOf (min 64 s.log.length) 4 ++ recs.flatten)) := by
  refine ⟨(s.log.take 64).map fun r => bytesOf (Config.logData (r.cls, r.unit, r.addr, r.count, r.level.code)) 32, ?_, ?_, event_ok (run_command hrung rfl ?_)⟩
  · simp only [List.length_map, List.length_take]
  · intro r hr
    obtain ⟨x, -, rfl⟩ := List.mem_map.mp hr
    exact bytesOf_length ..
  · simp only [run_bind, run_get, run_set, run_pure, List.length_take, List.flatMap_def]

theorem attest_answers (hrung : s.rung 7) (hlevel : s.level ≠ .s0) : (2 ^ 20 ≤ s.flash.leafIndex → exec .attest s = .next (s.answered 5 [])) ∧
    (s.flash.leafIndex < 2 ^ 20 →
      let report := s.mailbox.args.take 32 ++ (List.replicate 64 0 :: s.flash.chain).flatten ++ s.flash.versions.flatMap (bytesOf · 4) ++
        bytesOf Config.deviceId.toNat 8
      exec .attest s = .next (({ s with flash := { s.flash with leafIndex := s.flash.leafIndex + 1 } } : State).answered 0
        (report ++ bytesOf s.flash.leafIndex 4 ++ bytesOf (Config.xmssSign report s.flash.leafIndex) 2816))) := by
  refine ⟨fun hfull => event_ok (run_command hrung (level_running hlevel) ?_), fun hfree => event_ok (run_command hrung (level_running hlevel) ?_)⟩
  · have hle : leaves ≤ s.flash.leafIndex := hfull
    simp only [run_bind, run_get, if_pos hle, run_pure]
  · have hle : ¬leaves ≤ s.flash.leafIndex := Nat.not_le.mpr hfree
    simp only [run_bind, run_get, if_neg hle, run_set, run_pure, signatureSize]

theorem keyAperture_answers (hrung : s.rung 8) : (511 < s.mailbox.arg 0 → exec .keyAperture s = .next (s.answered 2 [])) ∧
    (s.mailbox.arg 0 ≤ 511 → exec .keyAperture s = .next (({ s with apKey := s.mailbox.arg 0 } : State).answered 0 [])) := by
  refine ⟨fun hbad => event_ok (run_command hrung rfl ?_), fun hok => event_ok (run_command hrung rfl ?_)⟩
  · simp only [run_bind, run_get, if_pos hbad, run_pure]
  · simp only [run_bind, run_get, if_neg (Nat.not_lt.mpr hok), run_set, run_pure]

/-- What makes a signed object sound for the flash (R379, R380). -/
def Flash.sound (f : Flash) (bytes : List Byte) : Prop :=
  bytesLE bytes 0 4 = 0x50464E5A ∧ (bytesLE bytes 4 1 = 1 ∧ bytesLE bytes 5 1 = 0xFF ∨ (bytesLE bytes 4 1 = 2 ∨ bytesLE bytes 4 1 = 3) ∧ bytesLE bytes 5 1 ≤ 3) ∧
    (SMap.get? f.counters (bytesLE bytes 4 1 * 256 + bytesLE bytes 5 1)).getD 0 ≤ bytesLE bytes 8 4 ∧ Config.xmssVerify bytes = true ∧
    (bytesLE bytes 4 1 = 3 → ((bytes.drop 16).take 16).Nodup ∧ ((bytes.drop 32).take 32).Nodup ∧
      (∀ b ∈ (bytes.drop 16).take 16, b.toNat ≤ 17) ∧ ∀ b ∈ (bytes.drop 32).take 32, b.toNat ≤ 33)

theorem mapsDistinct_iff (bytes : List Byte) : mapsDistinct (bytes.drop 16) = true ↔ ((bytes.drop 16).take 16).Nodup ∧ ((bytes.drop 32).take 32).Nodup ∧
    (∀ b ∈ (bytes.drop 16).take 16, b.toNat ≤ 17) ∧ ∀ b ∈ (bytes.drop 32).take 32, b.toNat ≤ 33 := by
  have hdrop : (bytes.drop 16).drop 16 = bytes.drop 32 := List.drop_drop
  simp only [mapsDistinct, hdrop, Bool.and_eq_true, decide_eq_true_eq, List.all_eq_true, and_assoc]

/-- The header's kind is 1 to 3, with the die that goes with it. -/
theorem ranged_iff (kind die : Nat) : (decide (1 ≤ kind) && decide (kind ≤ 3) && (if kind = 1 then decide (die = 0xFF) else decide (die ≤ 3))) = true ↔
    (kind = 1 ∧ die = 0xFF ∨ (kind = 2 ∨ kind = 3) ∧ die ≤ 3) := by
  by_cases hone : kind = 1
  · subst hone
    simp
  · simp only [hone, ↓reduceIte, Bool.and_eq_true, decide_eq_true_eq, false_and, false_or]
    omega

theorem accepts_iff (f : Flash) (bytes : List Byte) : f.accepts bytes = true ↔ f.sound bytes := by
  have hkind : (decide (bytesLE bytes 4 1 ≠ 3) || mapsDistinct (bytes.drop 16)) = true ↔ (bytesLE bytes 4 1 = 3 → mapsDistinct (bytes.drop 16) = true) := by
    rw [Bool.or_eq_true, decide_eq_true_eq, ← imp_iff_not_or]
  rw [mapsDistinct_iff] at hkind
  unfold Flash.accepts Flash.sound
  dsimp only
  rw [Bool.and_eq_true, hkind, Bool.and_eq_true, Bool.and_eq_true, Bool.and_eq_true, ranged_iff, decide_eq_true_eq, decide_eq_true_eq, counterKey]
  simp only [and_assoc]

theorem readOnly_eachMap {α β : Type} {f : α → M β} (hf : ∀ a, ReadOnly (f a)) (l : List α) : ReadOnly (eachMap l f) := by
  induction l with
  | nil => exact readOnly_pure []
  | cons a l ih => exact readOnly_bind (hf a) fun _ => readOnly_bind ih fun _ => readOnly_pure _

theorem stage_refused (hrung : s.rung 6) (hbad : inMemory (s.mailbox.arg 0) (s.mailbox.arg 1) = false ∨ s.mailbox.arg 1 < 2836) :
    exec .stage s = .next (s.answered 2 []) := by
  have hbad' : (!inMemory (s.mailbox.arg 0) (s.mailbox.arg 1)) = true ∨ s.mailbox.arg 1 < 16 + signatureSize := by
    rcases hbad with h | h
    · exact .inl (by rw [h]; rfl)
    · exact .inr h
  refine event_ok (run_command hrung rfl ?_)
  simp only [run_bind, run_get, if_pos hbad', run_pure]

theorem stage_answers (hrung : s.rung 6) (hin : inMemory (s.mailbox.arg 0) (s.mailbox.arg 1) = true) (hn : 2836 ≤ s.mailbox.arg 1) {o : FlashObj}
    (hread : eachMap (List.range (s.mailbox.arg 1)) (fun i => do
      let b ← hwRead (s.mailbox.arg 0 + i) 1
      pure (BitVec.ofNat 8 b)) s = .ok o.bytes s1)
    (hkind : o.kind = bytesLE o.bytes 4 1) (hdie : o.die = bytesLE o.bytes 5 1) (hver : o.version = bytesLE o.bytes 8 4) :
    (s.mailbox.arg 1 ≠ 16 + bytesLE o.bytes 12 4 + 2820 → exec .stage s = .next (s1.answered 2 [])) ∧
    (s.mailbox.arg 1 = 16 + bytesLE o.bytes 12 4 + 2820 → (¬s1.flash.sound o.bytes → exec .stage s = .next (s1.answered 4 [])) ∧
      (s1.flash.sound o.bytes → (∀ x ∈ s1.flash.staged, ¬(x.kind = o.kind ∧ x.die = o.die)) →
        exec .stage s = .next (({ s1 with flash := { s1.flash with staged := s1.flash.staged ++ [o] } } : State).answered 0 []))) := by
  have hgood : ¬((!inMemory (s.mailbox.arg 0) (s.mailbox.arg 1)) = true ∨ s.mailbox.arg 1 < 16 + signatureSize) := by
    rintro (h | h)
    · exact absurd h (by rw [hin]; exact Bool.false_ne_true)
    · exact absurd h (Nat.not_lt.mpr hn)
  have hflash : s1.flash = s.flash := by
    obtain ⟨k, hk⟩ := (readOnly_eachMap (fun i => readOnly_bind (readOnly_hwRead (s.mailbox.arg 0 + i) 1) fun b => readOnly_pure (BitVec.ofNat 8 b))
      (List.range (s.mailbox.arg 1))).run s
    rw [hread] at hk
    rw [show s1 = _ from hk]
  have ho : ({ kind := bytesLE o.bytes 4 1, die := bytesLE o.bytes 5 1, version := bytesLE o.bytes 8 4, bytes := o.bytes } : FlashObj) = o := by
    rw [← hkind, ← hdie, ← hver]
  refine ⟨fun hlen => ?_, fun hlen => ⟨fun hsound => ?_, fun hsound hnew => ?_⟩⟩
  · refine event_ok (run_command hrung rfl ?_)
    have hlen' : s.mailbox.arg 1 ≠ 16 + bytesLE o.bytes 12 4 + signatureSize := hlen
    simp only [run_bind, run_get, if_neg hgood, hread, if_pos hlen', run_pure]
  · have hrej : (!s.flash.accepts o.bytes) = true := by
      rw [Bool.not_eq_true', ← Bool.not_eq_true, ← hflash, accepts_iff]
      exact hsound
    have hlen' : ¬s.mailbox.arg 1 ≠ 16 + bytesLE o.bytes 12 4 + signatureSize := not_not_intro hlen
    refine event_ok (run_command hrung rfl ?_)
    simp only [run_bind, run_get, if_neg hgood, hread, if_neg hlen', if_pos hrej, run_pure]
  · have hacc : ¬(!s.flash.accepts o.bytes) = true := by
      rw [Bool.not_eq_true', Bool.not_eq_false, ← hflash, accepts_iff]
      exact hsound
    have hlen' : ¬s.mailbox.arg 1 ≠ 16 + bytesLE o.bytes 12 4 + signatureSize := not_not_intro hlen
    have hfind : s.flash.staged.find? (fun x => x.kind == o.kind && x.die == o.die) = none := by
      rw [← hflash]
      refine List.find?_eq_none.mpr fun x hx => ?_
      rw [Bool.and_eq_true, beq_iff_eq, beq_iff_eq]
      exact hnew x hx
    rw [hkind, hdie] at hfind
    refine event_ok (run_command hrung rfl ?_)
    simp only [run_bind, run_get, if_neg hgood, hread, if_neg hlen', if_neg hacc, ho, hfind, run_modify, run_pure, hflash]

/-- The state after a restart (R18, R379). -/
theorem restart_starts (boot : Nat) (power : Bool) (s : State) : ∃ t, restart boot power s = .ok () t ∧ t.level = .s0 ∧ t.boot = boot ∧ t.harts = [] ∧
    t.contexts = [] ∧ t.kernels = [] ∧ t.pcb = none ∧ t.mem = s.mem ∧ t.ls = [] ∧ t.flash.objects = s.flash.objects ∧
    t.flash.leafIndex = s.flash.leafIndex ∧ t.log = (if power then [] else s.log) ∧ t.mailbox.status = 0 :=
  ⟨_, rfl, rfl, rfl, rfl, rfl, rfl, rfl, rfl, rfl, rfl, rfl, rfl, rfl⟩

/-- What a record adds to the log depends on the log and the level alone. -/
theorem logged_log_congr {u : State} (hlog : u.log = s.log) (hlevel : u.level = s.level) (cls unit addr : Nat) :
    (u.logged cls unit addr).log = (s.logged cls unit addr).log := by
  simp only [State.logged, hlog, hlevel]
  split
  · rfl
  · split
    · rfl
    · rfl

/-- A record changes the log alone. -/
theorem logged_kept (u : State) (cls unit addr : Nat) : (u.logged cls unit addr).mem = u.mem ∧ (u.logged cls unit addr).flash = u.flash := by
  unfold State.logged
  dsimp only
  split
  · exact ⟨rfl, rfl⟩
  · split <;> exact ⟨rfl, rfl⟩

theorem verify_one (f : Flash) (k d : Nat) :
    (f.accepts (f.object k d) = true ∧ bytesLE (f.object k d) 4 1 = k ∧ bytesLE (f.object k d) 5 1 = d → f.verify [(k, d)] = (verifyObject f k d, true)) ∧
    (¬(f.accepts (f.object k d) = true ∧ bytesLE (f.object k d) 4 1 = k ∧ bytesLE (f.object k d) 5 1 = d) → f.verify [(k, d)] = (f, false)) := by
  simp only [Flash.verify, Bool.and_eq_true, decide_eq_true_eq]
  exact ⟨fun h => if_pos h, fun h => if_neg h⟩

/-- A counter is at least the version just verified (R379). -/
theorem verifyObject_counter (f : Flash) (k d : Nat) :
    bytesLE (f.object k d) 8 4 ≤ (SMap.get? (verifyObject f k d).counters (k * 256 + d)).getD 0 := by
  simp only [verifyObject, counterKey, SMap.get?_put_self, Option.getD_some]
  exact Nat.le_max_left ..

end

section
variable {s : State}

theorem vector_getD {α : Type} {n : Nat} (v : Vector α n) (j : Nat) (d : α) : v.getD j d = v[j]?.getD d := by
  simp only [Vector.getD, Array.getD_eq_getD_getElem?, Vector.getElem?_toArray]

theorem core_modCore_ne {c i : Nat} (hne : i ≠ c) (f : Core → Core) : (s.modCore c f).core i = s.core i := by
  unfold State.modCore
  split
  · next hc => rw [State.core, State.core, vector_getD, vector_getD, Vector.getElem?_set_ne hc (Ne.symm hne)]
  · rfl

/-- A change of a core changes the cores alone. -/
theorem modCore_eq (s : State) (c : Nat) (f : Core → Core) : s.modCore c f = { s with cores := (s.modCore c f).cores } := by
  unfold State.modCore
  split <;> rfl

/-- A core is served by the physical core of its die's record, with the lanes of that (R23, R380). -/
def State.serve (s : State) (core : Nat) : State :=
  let s1 := s.modCore core fun c => { c with phys := s.flash.coreMap core }
  s1.modCore core fun c => { c with lanes := s1.laneRecord core }

theorem serve_eq (s : State) (core : Nat) : s.serve core = { s with cores := (s.serve core).cores } := by
  unfold State.serve
  dsimp only
  rw [modCore_eq, modCore_eq s]

theorem serve_phys {core : Nat} (hc : core < 64) (i : Nat) :
    ((s.serve core).core i).phys = if i = core then s.flash.coreMap core else (s.core i).phys := by
  unfold State.serve
  dsimp only
  by_cases hi : i = core
  · subst hi
    rw [if_pos rfl, core_modCore_self hc, core_modCore_self hc]
  · rw [if_neg hi, core_modCore_ne hi, core_modCore_ne hi]

theorem serveAll_eq (l : List Nat) (s : State) : l.foldl State.serve s = { s with cores := (l.foldl State.serve s).cores } := by
  induction l generalizing s with
  | nil => rfl
  | cons c l ih =>
    rw [List.foldl_cons, ih (s.serve c), serve_eq s c]

theorem serveAll_phys {l : List Nat} (hl : ∀ c ∈ l, c < 64) (s : State) (i : Nat) :
    ((l.foldl State.serve s).core i).phys = if i ∈ l then s.flash.coreMap i else (s.core i).phys := by
  induction l generalizing s with
  | nil => rfl
  | cons c l ih =>
    have hflash : (s.serve c).flash = s.flash := by rw [serve_eq]
    rw [List.foldl_cons, ih (fun x hx => hl x (List.mem_cons_of_mem c hx)) (s.serve c), serve_phys (hl c List.mem_cons_self), hflash]
    by_cases hi : i = c
    · subst hi
      simp only [↓reduceIte, List.mem_cons, true_or, ite_self]
    · simp only [hi, ↓reduceIte, List.mem_cons, false_or]

theorem run_serveAll (l : List Nat) (s : State) : each l (fun core => do
    let s ← get
    modCore core fun c => { c with phys := s.flash.coreMap core }
    let s ← get
    modCore core fun c => { c with lanes := s.laneRecord core }) s = .ok () (l.foldl State.serve s) := by
  induction l generalizing s with
  | nil => rfl
  | cons c l ih =>
    rw [each_cons, run_bind, List.foldl_cons, ← ih (s.serve c)]
    rfl

/-- The state in which a die's slices and cores are served as its record says. -/
def State.mapped (s : State) (die : Nat) : State :=
  ((List.range 16).map (16 * die + ·)).foldl State.serve { s with slices := s.slices.mapIdx fun i p => if i / 32 = die then s.flash.sliceMap i else p }

theorem run_mapDie (die : Nat) (s : State) : mapDie die s = .ok () (s.mapped die) := by
  simp only [mapDie, run_bind, run_modify, State.mapped]
  exact run_serveAll ..

theorem mapped_eq (s : State) (die : Nat) : s.mapped die = { s with slices := (s.mapped die).slices, cores := (s.mapped die).cores } := by
  unfold State.mapped
  rw [serveAll_eq]

theorem mapped_phys {die : Nat} (hd : die < 4) (s : State) (i : Nat) :
    ((s.mapped die).core i).phys = if i / 16 = die then s.flash.coreMap i else (s.core i).phys := by
  have hlt : ∀ c ∈ (List.range 16).map (16 * die + ·), c < 64 := by
    intro c hc
    obtain ⟨k, hk, rfl⟩ := List.mem_map.mp hc
    have := List.mem_range.mp hk
    omega
  have hmem : i ∈ (List.range 16).map (16 * die + ·) ↔ i / 16 = die := by
    rw [List.mem_map]
    constructor
    · rintro ⟨k, hk, rfl⟩
      have := List.mem_range.mp hk
      omega
    · intro hi
      exact ⟨i % 16, List.mem_range.mpr (Nat.mod_lt _ (by decide)), by omega⟩
  rw [State.mapped, serveAll_phys hlt]
  simp only [hmem]
  rfl

theorem mapped_slices (s : State) (die i : Nat) (hi : i < 128) :
    (s.mapped die).slices.getD i 0 = if i / 32 = die then s.flash.sliceMap i else s.slices.getD i 0 := by
  rw [State.mapped, serveAll_eq]
  simp [Vector.getD, hi]

theorem bootable_of (hboot : s.boot = 0 ∨ s.boot = 4) : s.bootable = true := by
  rw [State.bootable, Bool.or_eq_true, decide_eq_true_eq, decide_eq_true_eq]
  exact hboot

/-- The objects of the controller and of die 0 verified (R378, R379). -/
def State.bootedController (s : State) : Flash × Bool := ((s.flash.install 0xFF).install 0).verify [(1, 0xFF)]

theorem exec_enterS1_controller (hlevel : s.level = .s0) (hboot : s.boot = 0 ∨ s.boot = 4) (hc : s.bootedController.2 = false) :
    exec .enterS1 s = .next { s with boot := 3 } := by
  have hgo : ¬(s.level ≠ .s0 ∨ (!s.bootable) = true) := by simp [hlevel, bootable_of hboot]
  unfold State.bootedController at hc
  refine event_ok ?_
  simp only [run_bind, run_get, if_neg hgo, hc, Bool.not_false, ↓reduceIte, run_set]

theorem exec_enterS1_die (hlevel : s.level = .s0) (hboot : s.boot = 0 ∨ s.boot = 4) (hc : s.bootedController.2 = true) :
    ((s.bootedController.1.verify [(2, 0), (3, 0)]).2 = false ∨ s.curEv.yes = false →
      exec .enterS1 s = .next { s with boot := 1, flash := (s.bootedController.1.verify [(2, 0), (3, 0)]).1 }) ∧
    ((s.bootedController.1.verify [(2, 0), (3, 0)]).2 = true → s.curEv.yes = true →
      exec .enterS1 s = .next (({ s with level := .s1, flash := (s.bootedController.1.verify [(2, 0), (3, 0)]).1 } : State).mapped 0)) := by
  have hgo : ¬(s.level ≠ .s0 ∨ (!s.bootable) = true) := by simp [hlevel, bootable_of hboot]
  unfold State.bootedController at hc ⊢
  refine ⟨fun hbad => event_ok ?_, fun hsound hyes => event_ok ?_⟩
  · have hand : (((((s.flash.install 0xFF).install 0).verify [(1, 0xFF)]).1.verify [(2, 0), (3, 0)]).2 && s.curEv.yes) = false := by
      rcases hbad with h | h
      · rw [h, Bool.false_and]
      · rw [h, Bool.and_false]
    simp only [run_bind, run_get, if_neg hgo, hc, Bool.not_true, Bool.false_eq_true, ↓reduceIte, hand, run_set]
  · simp only [run_bind, run_get, if_neg hgo, hc, Bool.not_true, Bool.false_eq_true, ↓reduceIte, hsound, hyes, Bool.and_self, run_set, run_mapDie]

/-- The objects of dies 1 to 3 verified (R378, R379). -/
def State.bootedDies (s : State) : Flash × Bool :=
  (((s.flash.install 1).install 2).install 3).verify [(2, 1), (3, 1), (2, 2), (3, 2), (2, 3), (3, 3)]

/-- The ports of a list begin to train (R361). -/
def State.trains (s : State) (l : List Nat) : State :=
  l.foldl (fun s p => { s with voltor := vput s.voltor p { s.voltor.getD p .start with state := .training, cycles := 0 } }) s

theorem trains_eq (l : List Nat) (s : State) : s.trains l = { s with voltor := (s.trains l).voltor } := by
  induction l generalizing s with
  | nil => rfl
  | cons p l ih => exact ih { s with voltor := vput s.voltor p { s.voltor.getD p .start with state := .training, cycles := 0 } }

theorem run_trainAll (l : List Nat) (s : State) : each l trainVoltor s = .ok () (s.trains l) := by
  induction l generalizing s with
  | nil => rfl
  | cons p l ih =>
    rw [each_cons, run_bind]
    change each l trainVoltor (s.trains [p]) = _
    rw [ih]
    rfl

theorem enterS2_answers (hlevel : s.level = .s1) (hboot : s.boot = 0 ∨ s.boot = 4) :
    (s.bootedDies.2 = false ∨ s.curEv.yes = false → exec .enterS2 s = .next { s with boot := 2, flash := s.bootedDies.1 }) ∧
    (s.bootedDies.2 = true → s.curEv.yes = true → exec .enterS2 s =
      .next ((((({ s with level := .s2, flash := s.bootedDies.1, clock := Vector.replicate 4 1750 } : State).mapped 1).mapped 2).mapped 3).trains (List.range 8))) := by
  have hgo : ¬(s.level ≠ .s1 ∨ (!s.bootable) = true) := by simp [hlevel, bootable_of hboot]
  unfold State.bootedDies
  refine ⟨fun hbad => event_ok ?_, fun hsound hyes => event_ok ?_⟩
  · have hand : (((((s.flash.install 1).install 2).install 3).verify [(2, 1), (3, 1), (2, 2), (3, 2), (2, 3), (3, 3)]).2 && s.curEv.yes) = false := by
      rcases hbad with h | h
      · rw [h, Bool.false_and]
      · rw [h, Bool.and_false]
    simp only [run_bind, run_get, if_neg hgo, hand, Bool.false_eq_true, ↓reduceIte, run_set]
  · simp only [run_bind, run_get, if_neg hgo, hsound, hyes, Bool.and_self, ↓reduceIte, run_set, each_cons, run_each_nil, run_mapDie]
    exact run_trainAll ..

/-- A port trains from zero cycles (R361). -/
def State.trainsAt (s : State) (p : Nat) : Prop := (s.voltor.getD p .start).state = .training ∧ (s.voltor.getD p .start).cycles = 0

theorem getD_vput_ne {α : Type} {n i j : Nat} (hne : j ≠ i) (v : Vector α n) (a d : α) : (vput v i a).getD j d = v.getD j d := by
  unfold vput
  split
  · next hi => rw [vector_getD, vector_getD, Vector.getElem?_set_ne hi (Ne.symm hne)]
  · rfl

theorem trainsAt_trains {p : Nat} (hp : p < 8) {l : List Nat} {s : State} (h : p ∈ l ∨ s.trainsAt p) : (s.trains l).trainsAt p := by
  induction l generalizing s with
  | nil => exact h.resolve_left List.not_mem_nil
  | cons q l ih =>
    refine ih (s := { s with voltor := vput s.voltor q { s.voltor.getD q .start with state := .training, cycles := 0 } }) ?_
    by_cases hq : p = q
    · subst hq
      refine .inr ?_
      simp only [State.trainsAt, getD_vput_self hp, and_self]
    · refine (List.mem_cons.mp · |>.resolve_left hq) |> h.imp <| fun hs => ?_
      simp only [State.trainsAt, getD_vput_ne hq]
      exact hs

/-! The device window and the aperture (R374 to R377). -/

theorem written_window {e : EvArgs} (i : Nat) : bitsOf e.written (8 * i) 8 = (if e.b ≤ 8 then e.w.toNat else e.data) / 2 ^ (8 * i) % 2 ^ 8 := by
  rw [bitsOf_eq_div, EvArgs.written]

theorem deviceWindowWrite_mailbox (hyes : s.curEv.yes = false) (hin : s.curEv.a + s.curEv.b ≤ 0x1000) : exec .deviceWindowWrite s = .next { s with
    mailbox := (List.range s.curEv.b).foldl (fun m i => m.putByte (s.curEv.a + i)
      ((if s.curEv.b ≤ 8 then s.curEv.w.toNat else s.curEv.data) / 2 ^ (8 * i) % 2 ^ 8)) s.mailbox } := by
  refine event_ok ?_
  simp only [run_bind, run_get, hyes, Bool.false_eq_true, ↓reduceIte, hin, run_set, written_window]

theorem run_ringMailbox (seq : Nat) (s : State) : 
    (s.mailbox.status = 1 → ringMailbox seq s = .ok () (s.logged 4 0 0x1000)) ∧
    (s.mailbox.status ≠ 1 → ringMailbox seq s = .ok () { s with mailbox :=
      (if 1 ≤ s.mailbox.cmd.toNat ∧ s.mailbox.cmd.toNat ≤ 9 then { s.mailbox with bell := BitVec.ofNat 32 seq, task := s.mailbox.cmd.toNat, status := 1 }
        else { s.mailbox with status := 2, seq := BitVec.ofNat 32 seq }) }) := by
  constructor
  · intro hbusy
    simp only [ringMailbox, run_bind, run_get, hbusy, ↓reduceIte]
    rfl
  · intro hfree
    simp only [ringMailbox, run_bind, run_get, hfree, ↓reduceIte, knownCommand, Bool.and_eq_true, decide_eq_true_eq]
    split <;> rfl

theorem deviceWindowWrite_ring (hyes : s.curEv.yes = false) (ha : s.curEv.a = 0x1000) (hb : s.curEv.b = 4) :
    (s.mailbox.status = 1 → exec .deviceWindowWrite s = .next (s.logged 4 0 0x1000)) ∧
    (s.mailbox.status ≠ 1 → exec .deviceWindowWrite s = .next { s with mailbox :=
      (if 1 ≤ s.mailbox.cmd.toNat ∧ s.mailbox.cmd.toNat ≤ 9 then
          { s.mailbox with bell := BitVec.ofNat 32 s.curEv.w.toNat, task := s.mailbox.cmd.toNat, status := 1 }
        else { s.mailbox with status := 2, seq := BitVec.ofNat 32 s.curEv.w.toNat }) }) := by
  have hmod : BitVec.ofNat 32 (s.curEv.w.toNat % 2 ^ 32) = BitVec.ofNat 32 s.curEv.w.toNat :=
    BitVec.eq_of_toNat_eq (by simp only [BitVec.toNat_ofNat, Nat.mod_mod])
  have hrun {u : State} (h : ringMailbox (s.curEv.w.toNat % 2 ^ 32) s = .ok () u) : exec .deviceWindowWrite s = .next u := by
    refine event_ok ?_
    simp only [run_bind, run_get, hyes, Bool.false_eq_true, ↓reduceIte, ha, hb, Nat.reduceAdd, Nat.reduceLeDiff, and_self]
    exact h
  obtain ⟨hbusy, hfree⟩ := run_ringMailbox (s.curEv.w.toNat % 2 ^ 32) s
  rw [hmod] at hfree
  exact ⟨fun h => hrun (hbusy h), fun h => hrun (hfree h)⟩

theorem deviceWindowWrite_doorbell {lq : Nat} {r : Bell} {s1 : State} (hyes : s.curEv.yes = false) (hlq : lq < 4096) (ha : s.curEv.a = 0x100000 + 8 * lq)
    (hb : s.curEv.b = 8) (hbell : doorbell lq s.curEv.w.toNat (fun asid => postEvent asid 4 (BitVec.ofNat 64 lq) 0 0) s = .ok r s1) :
    exec .deviceWindowWrite s = .next s1 := by
  have h1 : ¬s.curEv.a + s.curEv.b ≤ 0x1000 := by omega
  have h2 : ¬(s.curEv.a = 0x1000 ∧ s.curEv.b = 4) := by omega
  have h3 : 0x100000 ≤ s.curEv.a ∧ s.curEv.a < 0x108000 ∧ s.curEv.a % 8 = 0 ∧ s.curEv.b = 8 := by omega
  have h4 : (s.curEv.a - 0x100000) / 8 = lq := by omega
  refine event_ok ?_
  simp only [run_bind, run_get, hyes, Bool.false_eq_true, ↓reduceIte, if_neg h1, if_neg h2, if_pos h3, h4, hbell, run_pure]

theorem deviceWindowWrite_nothing (hyes : s.curEv.yes = false) (ha : 0x1000 < s.curEv.a) (hout : s.curEv.a < 0x100000 ∨ 0x108000 ≤ s.curEv.a) :
    exec .deviceWindowWrite s = .next (s.logged 5 0 s.curEv.a) := by
  have h1 : ¬s.curEv.a + s.curEv.b ≤ 0x1000 := by omega
  have h2 : ¬(s.curEv.a = 0x1000 ∧ s.curEv.b = 4) := by omega
  have h3 : ¬(0x100000 ≤ s.curEv.a ∧ s.curEv.a < 0x108000 ∧ s.curEv.a % 8 = 0 ∧ s.curEv.b = 8) := by omega
  refine event_ok ?_
  simp only [run_bind, run_get, hyes, Bool.false_eq_true, ↓reduceIte, if_neg h1, if_neg h2, if_neg h3]
  rfl

theorem deviceWindowWrite_reads (hyes : s.curEv.yes = true) {v : Nat} {u : State} (hread : windowRead s.curEv.a s.curEv.b s = .ok v u) :
    exec .deviceWindowWrite s = .next { u with hostRead := v } := by
  refine event_ok ?_
  simp only [run_bind, run_get, hyes, ↓reduceIte, hread, run_modify]

theorem bytes_of_lt {x : Nat} (hx : x < 4294967296) :
    x % 256 + x / 256 % 256 * 256 + x / 65536 % 256 * 65536 + x / 16777216 % 256 * 16777216 = x := by
  have h2 : x / 65536 = x / 256 / 256 := by rw [Nat.div_div_eq_div_mul]
  have h3 : x / 16777216 = x / 256 / 256 / 256 := by rw [Nat.div_div_eq_div_mul, Nat.div_div_eq_div_mul]
  have h4 : x / 256 / 256 / 256 < 256 := by omega
  rw [h2, h3, Nat.mod_eq_of_lt h4]
  omega

/-- The bytes of a word, put together, are the word. -/
theorem foldl_bytes (x : BitVec 32) : (List.range 4).foldl (fun v i => v + bitsOf x.toNat (8 * i) 8 * 2 ^ (8 * i)) 0 = x.toNat := by
  have hrange : List.range 4 = [0, 1, 2, 3] := rfl
  rw [hrange, List.foldl_cons, List.foldl_cons, List.foldl_cons, List.foldl_cons, List.foldl_nil]
  rw [bitsOf_eq_div, bitsOf_eq_div, bitsOf_eq_div, bitsOf_eq_div]
  have h := x.isLt
  generalize x.toNat = n at h
  have hbytes : _ := bytes_of_lt (show n < 4294967296 from h)
  simpa using hbytes

theorem windowRead_mailbox {a b : Nat} (hin : a + b ≤ 0x1000) :
    windowRead a b s = .ok ((List.range b).foldl (fun v i => v + s.mailbox.byte (a + i) * 2 ^ (8 * i)) 0) s := by
  simp only [windowRead, run_bind, run_get, if_pos hin, run_pure]

/-- The bytes of the fields that the host reads of the mailbox (R377). -/
theorem mailbox_byte (m : Mailbox) {a : Nat} {x : BitVec 32} (hx : (a, x) ∈ [(0, m.cmd), (4, m.seq), (8, m.status)]) {i : Nat} (hi : i < 4) :
    m.byte (a + i) = bitsOf x.toNat (8 * i) 8 := by
  simp only [List.mem_cons, Prod.mk.injEq, List.not_mem_nil, or_false] at hx
  rcases hx with ⟨rfl, rfl⟩ | ⟨rfl, rfl⟩ | ⟨rfl, rfl⟩
  · have h0 : 0 + i < 4 := by omega
    rw [Mailbox.byte, if_pos h0, Nat.zero_add]
  · have h0 : ¬4 + i < 4 := by omega
    have h4 : 4 + i < 8 := by omega
    rw [Mailbox.byte, if_neg h0, if_pos h4, Nat.add_sub_cancel_left]
  · have h0 : ¬8 + i < 4 := by omega
    have h4 : ¬8 + i < 8 := by omega
    have h8 : 8 + i < 12 := by omega
    rw [Mailbox.byte, if_neg h0, if_neg h4, if_pos h8, Nat.add_sub_cancel_left]

theorem windowRead_word {a : Nat} {x : BitVec 32} (hx : (a, x) ∈ [(0, s.mailbox.cmd), (4, s.mailbox.seq), (8, s.mailbox.status)]) :
    windowRead a 4 s = .ok x.toNat s := by
  have ha : a ≤ 8 := by
    simp only [List.mem_cons, Prod.mk.injEq, List.not_mem_nil, or_false] at hx
    omega
  rw [windowRead_mailbox (by omega), ← foldl_bytes x]
  congr 1
  exact List.foldl_ext _ _ _ fun v i hi => by rw [mailbox_byte s.mailbox hx (List.mem_range.mp hi)]

theorem windowRead_status : windowRead 0x2000 8 s = .ok s.status.toNat s := by
  simp only [windowRead, run_bind, run_get, Nat.reduceAdd, Nat.reduceLeDiff, ↓reduceIte, and_self, Nat.sub_self, Nat.mul_zero, Nat.reduceMul, bitsOf_zero,
    run_pure, Nat.mod_eq_of_lt s.status.isLt]

theorem windowRead_nothing {a b : Nat} (hb : 1 ≤ b) (hout : 0x1000 < a ∧ a + b ≤ 0x2000 ∨ 0x2008 ≤ a ∧ a < 0x100000 ∨ 0x108000 ≤ a) :
    windowRead a b s = .ok 0 (s.logged 5 0 a) := by
  have h1 : ¬a + b ≤ 0x1000 := by omega
  have h2 : ¬(0x2000 ≤ a ∧ a + b ≤ 0x2008) := by omega
  have h3 : ¬((a = 0x1000 ∧ b = 4) ∨ (0x100000 ≤ a ∧ a < 0x108000 ∧ a % 8 = 0 ∧ b = 8)) := by omega
  simp only [windowRead, run_bind, run_get, if_neg h1, if_neg h2, if_neg h3]
  rfl

/-- The flags that hold below n, as a number. -/
def flags (n : Nat) (f : Nat → Bool) : Nat := ((List.range n).map fun p => if f p then 2 ^ p else 0).sum

theorem flags_bits (f : Nat → Bool) (n : Nat) : flags n f < 2 ^ n ∧ ∀ p, p < n → (flags n f).testBit p = f p := by
  induction n with
  | zero => exact ⟨Nat.one_pos, fun p hp => absurd hp (Nat.not_lt_zero p)⟩
  | succ n ih =>
    obtain ⟨hlt, hbit⟩ := ih
    have hsum : flags (n + 1) f = 2 ^ n * (f n).toNat + flags n f := by
      unfold flags
      rw [List.range_succ, List.map_append, List.sum_append, Nat.add_comm, List.map_singleton, List.sum_singleton]
      cases f n
      · rfl
      · simp only [↓reduceIte, Bool.toNat_true, Nat.mul_one]
    rw [hsum]
    refine ⟨?_, fun p hp => ?_⟩
    · have hf : (f n).toNat ≤ 1 := Bool.toNat_le _
      calc _ < 2 ^ n * (f n).toNat + 2 ^ n := Nat.add_lt_add_left hlt _
        _ ≤ 2 ^ n * 1 + 2 ^ n := Nat.add_le_add_right (Nat.mul_le_mul_left _ hf) _
        _ = 2 ^ (n + 1) := by omega
    · rw [Nat.testBit_two_pow_mul_add _ hlt]
      by_cases hpn : p < n
      · rw [if_pos hpn, hbit p hpn]
      · have : p = n := by omega
        subst this
        rw [if_neg hpn, Nat.sub_self]
        cases f p <;> rfl

/-- Fields of 4, 4, 8, 8 and 4 bits, one above the other. -/
theorem packed_fields {l b v u f x : Nat} (hl : l < 2 ^ 4) (hb : b < 2 ^ 4) (hv : v < 2 ^ 8) (hu : u < 2 ^ 4) (hf : f < 2 ^ 4)
    (hx : x = l + b * 2 ^ 4 + v * 2 ^ 8 + u * 2 ^ 16 + f * 2 ^ 24) :
    x < 2 ^ 64 ∧ x % 2 ^ 4 = l ∧ x / 2 ^ 4 % 2 ^ 4 = b ∧ x / 2 ^ 8 % 2 ^ 8 = v ∧ x / 2 ^ 16 % 2 ^ 8 = u ∧ x / 2 ^ 24 = f := by
  omega

theorem testBit_field {x lo n p v : Nat} (hv : x / 2 ^ lo % 2 ^ n = v) (hp : p < n) : x.testBit (lo + p) = v.testBit p := by
  rw [← hv, Nat.testBit_mod_two_pow, decide_eq_true hp, Bool.true_and, Nat.testBit_div_two_pow, Nat.add_comm]

/-- The level's code in the status register (R375). -/
theorem levelCode_lt (l : Level) : (match l with | .s0 => 0 | .s1 => 1 | .s2 => 2 : Nat) < 2 ^ 4 := by
  cases l
  · decide
  · decide
  · decide

/-- A Voltor port is up or degraded (R375). -/
def Voltor.works (v : Voltor) : Bool := match v.state with
  | .up | .degraded => true
  | _ => false

theorem works_iff (v : Voltor) : v.works = true ↔ v.state = .up ∨ v.state = .degraded := by
  unfold Voltor.works
  cases v.state <;> simp

theorem status_eq (s : State) : s.status = BitVec.ofNat 64 (s.level.code + s.boot % 16 * 2 ^ 4 + flags 8 (fun p => (s.voltor.getD p .start).works) * 2 ^ 8 +
    flags 4 (fun p => s.cxl.getD p .untrained == .up) * 2 ^ 16 + flags 4 (fun p => s.cxl.getD p .untrained == .failed) * 2 ^ 24) := by
  unfold State.status Level.code flags Voltor.works
  rfl

theorem ofNat_of_mod {n x y : Nat} (h : x % 2 ^ n = y) : BitVec.ofNat n x = BitVec.ofNat n y := by
  rw [← h]
  exact BitVec.eq_of_toNat_eq (by rw [BitVec.toNat_ofNat, BitVec.toNat_ofNat, Nat.mod_mod])

/-- The status register's fields (R375). -/
theorem status_fields (hboot : s.boot < 16) :
    (s.status.extractLsb' 0 4 = match s.level with | .s0 => 0 | .s1 => 1 | .s2 => 2) ∧ s.status.extractLsb' 4 4 = BitVec.ofNat 4 s.boot ∧
    (∀ p, p < 8 → (s.status.getLsbD (8 + p) = true ↔ (s.voltor.getD p .start).state = .up ∨ (s.voltor.getD p .start).state = .degraded)) ∧
    ∀ p, p < 4 → s.status.getLsbD (16 + p) = (s.cxl.getD p .untrained == .up) ∧ s.status.getLsbD (24 + p) = (s.cxl.getD p .untrained == .failed) := by
  obtain ⟨hv, hvbit⟩ := flags_bits (fun p => (s.voltor.getD p .start).works) 8
  obtain ⟨hu, hubit⟩ := flags_bits (fun p => s.cxl.getD p .untrained == .up) 4
  obtain ⟨hf, hfbit⟩ := flags_bits (fun p => s.cxl.getD p .untrained == .failed) 4
  have hcode : s.level.code < 2 ^ 4 := by cases s.level <;> decide
  have hb16 : s.boot % 16 < 2 ^ 4 := Nat.mod_lt _ (by decide)
  obtain ⟨hlt, hl, hb, hv8, hu8, hf24⟩ := packed_fields hcode hb16 hv hu hf rfl
  have hbit (i : Nat) : s.status.getLsbD i = Nat.testBit (s.level.code + s.boot % 16 * 2 ^ 4 + flags 8 (fun p => (s.voltor.getD p .start).works) * 2 ^ 8 +
      flags 4 (fun p => s.cxl.getD p .untrained == .up) * 2 ^ 16 + flags 4 (fun p => s.cxl.getD p .untrained == .failed) * 2 ^ 24) i := by
    rw [status_eq, BitVec.getLsbD, BitVec.toNat_ofNat, Nat.mod_eq_of_lt hlt]
  have hpart (lo : Nat) : s.status.extractLsb' lo 4 = BitVec.ofNat 4 ((s.level.code + s.boot % 16 * 2 ^ 4 + flags 8 (fun p => (s.voltor.getD p .start).works) * 2 ^ 8 +
      flags 4 (fun p => s.cxl.getD p .untrained == .up) * 2 ^ 16 + flags 4 (fun p => s.cxl.getD p .untrained == .failed) * 2 ^ 24) / 2 ^ lo) := by
    rw [status_eq]
    refine BitVec.eq_of_toNat_eq ?_
    rw [BitVec.extractLsb'_toNat, BitVec.toNat_ofNat, BitVec.toNat_ofNat, Nat.mod_eq_of_lt hlt, Nat.shiftRight_eq_div_pow]
  refine ⟨?_, ?_, fun p hp => ?_, fun p hp => ⟨?_, ?_⟩⟩
  · have hfield := ofNat_of_mod hl
    rw [hpart, pow_zero, Nat.div_one, hfield]
    cases s.level <;> rfl
  · rw [hpart, ofNat_of_mod hb, Nat.mod_eq_of_lt hboot]
  · rw [hbit, testBit_field hv8 hp]
    rw [hvbit p hp, works_iff]
  · rw [hbit, testBit_field hu8 (Nat.lt_of_lt_of_le hp (by decide)), hubit p hp]
  · rw [hbit, Nat.add_comm 24 p, ← Nat.testBit_div_two_pow, hf24, hfbit p hp]

theorem inDoublewords_one {pa n : Nat} (hn : 1 ≤ n) (hfit : pa % 8 + n ≤ 8) : inDoublewords pa n = [(pa, n, 0)] := by
  have hone : (pa + n + 7) / 8 - pa / 8 = 1 := by omega
  have hmax : max pa (8 * (pa / 8 + 0)) = pa := by omega
  have hmin : min (pa + n) (8 * (pa / 8 + 0) + 8) - pa = n := by omega
  simp only [inDoublewords, hone, List.range_one, List.map_cons, List.map_nil, hmax, hmin, Nat.sub_self]

/-- Less than a sector writes no sector whole. -/
theorem no_whole_sector {pa n : Nat} (hn : n < 32) : ((sectorsOf pa n).filter fun x => decide (pa ≤ 32 * x) && decide (32 * x + 32 ≤ pa + n)) = [] := by
  refine List.filter_eq_nil_iff.mpr fun x _ => ?_
  rw [Bool.and_eq_true, decide_eq_true_eq, decide_eq_true_eq]
  omega

theorem run_outsideWrite_one {key pa n v : Nat} {u : State} (hn : 1 ≤ n) (hfit : pa % 8 + n ≤ 8)
    (hstore : outsideStore key pa n (v % 2 ^ (8 * n)) s = .ok () u) : outsideWrite key pa n v s = .ok () u := by
  simp only [outsideWrite, run_bind, inDoublewords_one hn hfit, no_whole_sector (show n < 32 by omega), each_cons, run_each_nil, Nat.mul_zero, bitsOf_zero, hstore]

theorem run_outsideRead_one {key pa n v : Nat} {u : State} (hn : 1 ≤ n) (hfit : pa % 8 + n ≤ 8) (hload : outsideLoad key pa n s = .ok v u) :
    outsideRead key pa n s = .ok v u := by
  simp only [outsideRead, run_bind, inDoublewords_one hn hfit, eachFold_cons, run_eachFold_nil, hload, run_pure, Nat.mul_zero, pow_zero, Nat.mul_one,
    Nat.zero_add]

/-- No page is frozen for a checkpoint. -/
def State.undrained (s : State) : Prop := s.drains = []

theorem undrained_closed : MemClosed State.undrained where
  mem := fun _ _ _ h => h
  ls := fun _ _ _ h => h
  poison := fun _ _ h => h
  slicePoison := fun _ _ h => h
  lsPoison := fun _ _ h => h
  sectorKey := fun _ _ h => h
  cores := fun _ _ h => h
  pending := fun _ _ h => h
  held := fun _ _ h => h
  cover := fun _ _ h => h
  lost := fun _ _ h => h
  hits := fun _ _ h => h
  spilled := fun _ _ h => h
  voltor := fun _ _ h => h
  freeCtr := fun _ _ h => h
  oldFrames := fun _ _ h => h
  taken := fun _ _ h => h
  badTaken := fun _ _ h => h
  spoiled := fun _ _ h => h

theorem run_outsideTarget (hs : s.undrained) (key pa : Nat) (stores : Bool) : outsideTarget key pa stores s = .ok (pa, key) s := by
  have hnone : s.drains = [] := hs
  simp only [outsideTarget, run_bind, run_get, hnone, List.findSome?_nil, run_pure]

theorem keeps_outsideStore (key pa n v : Nat) : Keeps State.undrained (outsideStore key pa n v) := by
  have hP := undrained_closed
  refine keeps_bind ⟨fun s hs => by rw [run_outsideTarget hs]; exact hs⟩ fun (at', k) => keeps_bind (keeps_drainVia hP _ _) fun _ => keeps_bind keeps_get fun s => ?_
  dsimp only
  split
  · exact keeps_writePA hP _ _ _ _
  · exact keeps_bind (keeps_freeBytes hP n) fun _ => keeps_writePA hP _ _ _ _

/-- A sector that the outside writes whole is poisoned no more (R376, R382). -/
theorem outsideWrite_sound {key pa v : Nat} {u : State} (hs : s.undrained) (hpa : pa % 32 = 0) (hrun : outsideWrite key pa 32 v s = .ok () u) :
    pa / 32 ∉ u.poison := by
  obtain ⟨_, s1, hstores, hsound⟩ := ok_of_bind hrun
  have hs1 : s1.undrained := (keeps_each (fun _ => keeps_outsideStore ..) _).ok hstores hs
  have hone : (sectorsOf pa 32).filter (fun x => decide (pa ≤ 32 * x) && decide (32 * x + 32 ≤ pa + 32)) = [pa / 32] := by
    have hcount : (pa + 32 + 31) / 32 - pa / 32 = 1 := by omega
    have h1 : pa ≤ 32 * (pa / 32) := by omega
    have h2 : 32 * (pa / 32) + 32 ≤ pa + 32 := by omega
    simp only [sectorsOf, hcount, List.range_one, List.map_cons, List.map_nil, Nat.add_zero, List.filter_cons, h1, h2, decide_true, Bool.and_self, ↓reduceIte,
      List.filter_nil]
  have hback : 32 * (pa / 32) / 32 = pa / 32 := by omega
  simp only [hone, each_cons, run_bind, run_outsideTarget hs1, run_modify, run_each_nil, hback, EStateM.Result.ok.injEq, true_and] at hsound
  rw [← hsound]
  simp only [State.soundSector, delNum, List.mem_filter, bne_self_eq_false, Bool.false_eq_true, and_false, not_false_eq_true]

theorem aperture_beyond (hout : hbmEnd < s.curEv.a + s.curEv.b) : exec .apertureWrite s = .next (s.logged 5 0 s.curEv.a) ∧
    exec .apertureRead s = .next { s with hostRead := 2 ^ (8 * s.curEv.b) - 1 } := by
  refine ⟨event_ok ?_, event_ok ?_⟩
  · simp only [run_bind, run_get, if_pos hout]
    rfl
  · simp only [run_bind, run_get, if_pos hout, run_pure, run_modify]

theorem apertureWrite_reaches {u : State} (hin : s.curEv.a + s.curEv.b ≤ hbmEnd) (hlevel : s.level ≠ .s0)
    (hwrite : outsideWrite s.apKey s.curEv.a s.curEv.b s.curEv.written s = .ok () u) : exec .apertureWrite s = .next u := by
  refine event_ok ?_
  simp only [run_bind, run_get, if_neg (Nat.not_lt.mpr hin), if_neg hlevel]
  exact hwrite

theorem apertureRead_reaches {v : Nat} {u : State} (hin : s.curEv.a + s.curEv.b ≤ hbmEnd) (hlevel : s.level ≠ .s0)
    (hread : outsideRead s.apKey s.curEv.a s.curEv.b s = .ok v u) : exec .apertureRead s = .next { u with hostRead := v } := by
  refine event_ok ?_
  simp only [run_bind, run_get, if_neg (Nat.not_lt.mpr hin), if_neg hlevel, hread, run_modify]

end

/-- What a restart leaves, of the event that makes it (R18, R379, R383, R384). -/
def State.freshBy (s : State) (i : Instr) (boot : Nat) : Prop := ∃ t, exec i s = .next t ∧ t.level = .s0 ∧ t.boot = boot ∧ t.harts = [] ∧ t.contexts = [] ∧
  t.kernels = [] ∧ t.pcb = none ∧ t.mem = s.mem ∧ t.ls = [] ∧ t.flash.objects = s.flash.objects ∧ t.flash.leafIndex = s.flash.leafIndex ∧
  (i = .powerOn → t.log = []) ∧ (i = .reset → t.log = s.log ∧ t.mailbox.status = 0 ∧ t.mailbox.seq = s.mailbox.bell) ∧
  (i = .thermalTrip → ∃ unit addr, t.log = (s.logged 8 unit addr).log)

theorem fresh_powerOn (s : State) : s.freshBy .powerOn 0 := by
  obtain ⟨t, ht, h1, h2, h3, h4, h5, h6, h7, h8, h9, h10, h11, -⟩ := restart_starts 0 true s
  exact ⟨t, event_ok ht, h1, h2, h3, h4, h5, h6, h7, h8, h9, h10, fun _ => h11, nofun, nofun⟩

theorem fresh_thermalTrip (s : State) : s.freshBy .thermalTrip 4 := by
  obtain ⟨unit, u1, hunit, hu1⟩ : ∃ unit u1, freeWord s = .ok unit u1 ∧ u1 = { s with freeCtr := s.freeCtr + 1 } := ⟨_, _, rfl, rfl⟩
  obtain ⟨addr, u2, haddr, hu2⟩ : ∃ addr u2, freeWord u1 = .ok addr u2 ∧ u2 = { s with freeCtr := s.freeCtr + 2 } := ⟨_, _, rfl, by rw [hu1]⟩
  obtain ⟨t, ht, h1, h2, h3, h4, h5, h6, h7, h8, h9, h10, h11, -⟩ := restart_starts 4 false (u2.logged 8 unit.toNat addr.toNat)
  obtain ⟨hmem, hflash⟩ := logged_kept u2 8 unit.toNat addr.toNat
  have hexec : execThermalTrip s = .next t := by
    unfold execThermalTrip
    refine event_ok ?_
    simp only [run_bind, hunit, haddr, logError, run_modify]
    exact ht
  exact ⟨t, hexec, h1, h2, h3, h4, h5, h6, h7.trans (hmem.trans (by rw [hu2])), h8, h9.trans (by rw [hflash, hu2]), h10.trans (by rw [hflash, hu2]),
    nofun, nofun, fun _ => ⟨unit.toNat, addr.toNat, h11.trans (logged_log_congr (by rw [hu2]) (by rw [hu2]) ..)⟩⟩

theorem fresh_reset {s : State} (hrung : s.rung 9) : s.freshBy .reset 0 := by
  obtain ⟨t, ht, h1, h2, h3, h4, h5, h6, h7, h8, h9, h10, h11, h12⟩ := restart_starts 0 false (s.answered 0 [])
  refine ⟨{ t with mailbox := { t.mailbox with cmd := s.mailbox.cmd, seq := s.mailbox.bell, bell := s.mailbox.bell } }, event_ok ?_, h1, h2, h3, h4, h5, h6, h7, h8, h9,
    h10, nofun, fun _ => ⟨h11, h12, rfl⟩, nofun⟩
  have hcommand : command 0x09 (fun _ => true) (pure (0, [])) s = .ok () (s.answered 0 []) := run_command hrung rfl (run_pure ..)
  simp only [run_bind, run_get, hcommand, ht, run_modify]

/-- What the mapping of dies and the training of ports leave as it is. -/
structure State.keptByBoot (s t : State) : Prop where
  level : t.level = s.level
  boot : t.boot = s.boot
  flash : t.flash = s.flash
  mem : t.mem = s.mem
  harts : t.harts = s.harts
  clock : t.clock = s.clock
  mailbox : t.mailbox = s.mailbox

theorem State.keptByBoot.trans {s t u : State} (h : s.keptByBoot t) (h' : t.keptByBoot u) : s.keptByBoot u :=
  ⟨h'.level.trans h.level, h'.boot.trans h.boot, h'.flash.trans h.flash, h'.mem.trans h.mem, h'.harts.trans h.harts, h'.clock.trans h.clock,
    h'.mailbox.trans h.mailbox⟩

theorem mapped_kept (s : State) (die : Nat) : s.keptByBoot (s.mapped die) := by
  rw [mapped_eq]
  exact ⟨rfl, rfl, rfl, rfl, rfl, rfl, rfl⟩

theorem trains_kept (s : State) (l : List Nat) : s.keptByBoot (s.trains l) := by
  rw [trains_eq]
  exact ⟨rfl, rfl, rfl, rfl, rfl, rfl, rfl⟩

/-- What coming into S1 leaves (R17, R380). -/
theorem bootedS1 (s : State) (f : Flash) : let t := ({ s with level := .s1, flash := f } : State).mapped 0
    t.level = .s1 ∧ t.boot = s.boot ∧ t.flash = f ∧ t.mem = s.mem ∧ t.harts = s.harts ∧ t.mailbox = s.mailbox ∧
      (∀ i, i < 16 → (t.core i).phys = bytesLE (f.object 3 0) (16 + i) 1) ∧ ∀ i, i < 32 → t.slices.getD i 0 = bytesLE (f.object 3 0) (32 + i) 1 := by
  intro t
  have hkept := mapped_kept { s with level := .s1, flash := f } 0
  refine ⟨hkept.level, hkept.boot, hkept.flash, hkept.mem, hkept.harts, hkept.mailbox, fun i hi => ?_, fun i hi => ?_⟩
  · have hdie : i / 16 = 0 := Nat.div_eq_of_lt hi
    rw [mapped_phys (by decide), if_pos hdie, Flash.coreMap, dieOfCore, hdie, Nat.mod_eq_of_lt hi]
  · have hdie : i / 32 = 0 := Nat.div_eq_of_lt hi
    rw [mapped_slices _ _ _ (by omega), if_pos hdie, Flash.sliceMap, hdie, Nat.mod_eq_of_lt hi]

/-- The dies from 1 on are served as their records say, once each has been mapped. -/
theorem mappedAll (u : State) : let t := ((u.mapped 1).mapped 2).mapped 3
    u.keptByBoot t ∧ (∀ i, 16 ≤ i → i < 64 → (t.core i).phys = bytesLE (u.flash.object 3 (i / 16)) (16 + i % 16) 1) ∧
      ∀ i, 32 ≤ i → i < 128 → t.slices.getD i 0 = bytesLE (u.flash.object 3 (i / 32)) (32 + i % 32) 1 := by
  intro t
  have h1 := mapped_kept u 1
  have h2 := h1.trans (mapped_kept (u.mapped 1) 2)
  refine ⟨h2.trans (mapped_kept _ 3), fun i hlo hi => ?_, fun i hlo hi => ?_⟩
  · have hdie : i / 16 = 3 ∨ i / 16 = 2 ∨ i / 16 = 1 := by omega
    rw [mapped_phys (by decide), mapped_phys (by decide), mapped_phys (by decide), h2.flash, h1.flash]
    simp only [Flash.coreMap, dieOfCore]
    rcases hdie with h | h | h <;> simp [h]
  · have hdie : i / 32 = 3 ∨ i / 32 = 2 ∨ i / 32 = 1 := by omega
    rw [mapped_slices _ _ _ hi, mapped_slices _ _ _ hi, mapped_slices _ _ _ hi, h2.flash, h1.flash]
    simp only [Flash.sliceMap]
    rcases hdie with h | h | h <;> simp [h]

/-- What coming into S2 leaves (R18, R361, R380). -/
theorem bootedS2 (s : State) (f : Flash) :
    let t := (((({ s with level := .s2, flash := f, clock := Vector.replicate 4 1750 } : State).mapped 1).mapped 2).mapped 3).trains (List.range 8)
    t.level = .s2 ∧ t.boot = s.boot ∧ t.flash = f ∧ t.mem = s.mem ∧ t.harts = s.harts ∧ t.clock = Vector.replicate 4 1750 ∧
      (∀ p, p < 8 → (t.voltor.getD p .start).state = .training ∧ (t.voltor.getD p .start).cycles = 0) ∧
      (∀ i, 16 ≤ i → i < 64 → (t.core i).phys = bytesLE (f.object 3 (i / 16)) (16 + i % 16) 1) ∧
      ∀ i, 32 ≤ i → i < 128 → t.slices.getD i 0 = bytesLE (f.object 3 (i / 32)) (32 + i % 32) 1 := by
  obtain ⟨hmaps, hphys, hslices⟩ := mappedAll { s with level := .s2, flash := f, clock := Vector.replicate 4 1750 }
  generalize hu : ((({ s with level := .s2, flash := f, clock := Vector.replicate 4 1750 } : State).mapped 1).mapped 2).mapped 3 = u at hmaps hphys hslices
  have hkept := hmaps.trans (trains_kept u (List.range 8))
  have hcores : (u.trains (List.range 8)).cores = u.cores := by rw [trains_eq]
  have hsame : (u.trains (List.range 8)).slices = u.slices := by rw [trains_eq]
  intro t
  clear hu
  refine ⟨hkept.level, hkept.boot, hkept.flash, hkept.mem, hkept.harts, hkept.clock, fun p hp => trainsAt_trains hp (.inl (List.mem_range.mpr hp)),
    fun i hlo hi => ?_, fun i hlo hi => ?_⟩
  · rw [State.core, hcores]
    exact hphys i hlo hi
  · rw [hsame]
    exact hslices i hlo hi

/-- Settles O54, command by command and event by event. -/
theorem theHostIsServed : Obligations.TheHostIsServed := by
  unfold Obligations.TheHostIsServed
  intro s s1 s2 s3 e rung answered arg pa
  refine ⟨exec_denied, fun hr hl => ⟨exec_ctxRoot_refused hr hl, exec_ctxRoot_taken hr hl⟩, fun hr hl => ⟨exec_setPcb_refused hr hl, exec_setPcb_checked hr hl⟩,
    fun hr hl => ?_, fun hr hl => ⟨exec_fabricTable_refused hr hl, fun h1 h2 h3 h4 es => exec_fabricTable_read hr hl h1 h2 h3 h4⟩, takeEvent_answers,
    readLog_answers, fun hr => ⟨stage_refused hr, fun h1 h2 o h3 h4 h5 h6 => ?_⟩, attest_answers, keyAperture_answers, ?_, ?_, ?_, ?_, ?_, ?_, status_fields,
    aperture_beyond, ?_⟩
  · exact event_ok (run_command_denied hr (by rw [hl]; rfl))
  · intro sound
    have hsound : sound ↔ s1.flash.sound o.bytes := by
      unfold Flash.sound
      rw [← h4, ← h5, ← h6]
    rw [hsound]
    exact stage_answers hr h1 h2 h3 h4 h5 h6
  · intro fresh
    exact ⟨fresh_powerOn s, fresh_thermalTrip s, fresh_reset⟩
  · intro hlevel hboot f c d
    obtain ⟨hbad, hgood⟩ : _ ∧ _ := ⟨fun hc => (exec_enterS1_die hlevel hboot hc).1, fun hc => (exec_enterS1_die hlevel hboot hc).2⟩
    refine ⟨exec_enterS1_controller hlevel hboot, hbad, fun hc hd hyes => ⟨_, hgood hc hd hyes, ?_⟩⟩
    exact bootedS1 s d.1
  · intro hlevel hboot d
    obtain ⟨hbad, hgood⟩ := enterS2_answers hlevel hboot
    exact ⟨hbad, fun hd hyes => ⟨_, hgood hd hyes, bootedS2 s d.1⟩⟩
  · intro f k d o takes
    obtain ⟨htakes, hnot⟩ := verify_one f k d
    exact ⟨fun ht => ⟨_, htakes ht, rfl, rfl, rfl, rfl, verifyObject_counter f k d⟩, hnot⟩
  · intro hyes
    exact ⟨deviceWindowWrite_mailbox hyes, deviceWindowWrite_ring hyes, fun lq r hlq ha hb hbell => deviceWindowWrite_doorbell hyes hlq ha hb hbell,
      deviceWindowWrite_nothing hyes⟩
  · intro hyes
    refine ⟨fun hb x hx => deviceWindowWrite_reads hyes ?_, fun ha hb => deviceWindowWrite_reads hyes ?_, fun hb hout =>
      deviceWindowWrite_reads hyes (windowRead_nothing hb hout)⟩
    · rw [show s.curEv.b = 4 from hb]
      exact windowRead_word hx
    · rw [show s.curEv.a = 0x2000 from ha, show s.curEv.b = 8 from hb]
      exact windowRead_status
  · intro hin hlevel
    refine ⟨fun hb hfit hstore => ?_, fun hb hwrite => ?_, fun ha hb hdrains hwrite => ?_, fun hb hfit v hload => ?_, fun v hread => ?_⟩
    · have hw : s.curEv.written = s.curEv.w.toNat := if_pos (Nat.le_trans (Nat.le_add_left ..) hfit)
      exact apertureWrite_reaches hin hlevel (run_outsideWrite_one hb hfit (by rw [hw]; exact hstore))
    · have hw : s.curEv.written = s.curEv.data := if_neg (Nat.not_le.mpr hb)
      exact apertureWrite_reaches hin hlevel (by rw [hw]; exact hwrite)
    · exact outsideWrite_sound hdrains ha hwrite
    · exact apertureRead_reaches hin hlevel (run_outsideRead_one hb hfit hload)
    · exact apertureRead_reaches hin hlevel hread

end Sys2Proof.Machine
end

section
/-! The matrix forms (O45): the rules of the array of a core, and each form's checks, waits and operation. -/

namespace Sys2Proof.Machine

/-- The array of the issuing core. -/
def State.mat (s : State) : Matrix := (s.core (coreOfSlot s.curSlot)).mat

section
variable {s s1 s2 s3 : State} {h g : Hart}

@[simp] theorem run_getMat (s : State) : getMat s = .ok s.mat s := rfl
@[simp] theorem run_modMat (f : Matrix → Matrix) (s : State) : modMat f s = .ok () (s.withMat f) := rfl
@[simp] theorem withMat_curStream (s : State) (f : Matrix → Matrix) : (s.withMat f).curStream = s.curStream := modCore_curStream ..
@[simp] theorem withMat_curSlot (s : State) (f : Matrix → Matrix) : (s.withMat f).curSlot = s.curSlot := modCore_curSlot ..
@[simp] theorem withMat_hart (s : State) (f : Matrix → Matrix) : (s.withMat f).hart = s.hart := hart_modCore ..

theorem withMat_withMat (s : State) (f f' : Matrix → Matrix) : (s.withMat f).withMat f' = s.withMat fun x => f' (f x) := by
  simp only [State.withMat, modCore_curSlot, modCore_modCore]

/-- A change of the array depends on what the array is alone. -/
theorem withMat_congr {f f' : Matrix → Matrix} (h : f s.mat = f' s.mat) : s.withMat f = s.withMat f' :=
  modCore_congr (congrArg (fun x => { s.core (coreOfSlot s.curSlot) with mat := x }) h)

/-- A change of the array and a change of a hart do not meet. -/
theorem putHart_withMat (s : State) (h : Hart) (f : Matrix → Matrix) : (s.putHart h).withMat f = (s.withMat f).putHart h := by
  unfold State.withMat State.modCore State.putHart
  dsimp only
  split <;> rfl

theorem run_matrixIssue (hh : s.hart = some h) (hst : s.curStream = .x) (hown : s.mat.owner = some h.kernel) {planes : List CRegNo}
    (hplanes : ∀ c ∈ planes, c.val < s.mat.planes) : matrixIssue planes s = .ok () s := by
  have hany : (planes.any fun c => decide (s.mat.planes ≤ c.val)) = false :=
    List.any_eq_false.mpr fun c hc => by simpa using hplanes c hc
  simp only [matrixIssue, run_bind, run_onlyX, hst, ↓reduceIte, run_getHart, hh, run_getMat, hown, ne_eq, not_true_eq_false, hany, Bool.false_eq_true,
    or_self, run_pure]

theorem run_matrixIssue_trap (hh : s.hart = some h) (hst : s.curStream = .x) {planes : List CRegNo}
    (hbad : s.mat.owner ≠ some h.kernel ∨ ∃ c ∈ planes, s.mat.planes ≤ c.val) :
    matrixIssue planes s = .error (.trap 0x05 (s.curWord.setWidth 64) 0 false) s := by
  have hany : s.mat.owner ≠ some h.kernel ∨ (planes.any fun c => decide (s.mat.planes ≤ c.val)) = true := by
    simpa only [List.any_eq_true, decide_eq_true_eq] using hbad
  simp only [matrixIssue, run_bind, run_onlyX, hst, ↓reduceIte, run_getHart, hh, run_getMat, if_pos hany]
  rfl

theorem run_needMatrix (hq : s.mat.queue.length < 8) : needMatrix s = .ok () s := by
  simp only [needMatrix, run_bind, run_getMat, if_pos hq, run_pure]

theorem run_needMatrix_full (hq : 8 ≤ s.mat.queue.length) : needMatrix s = .error (.wait .matrix false) s := by
  simp only [needMatrix, run_bind, run_getMat, if_neg (Nat.not_lt.mpr hq), run_waitFor]

/-- A form that retires in a state of which the array has been changed. -/
theorem run_retire_withMat (hh : s.hart = some h) {f f' : Matrix → Matrix} (hf : f s.mat = f' s.mat) :
    retire (s.withMat f) = .ok () ((s.withMat f').putHart (h.advance (s.withMat f').curStream)) := by
  rw [withMat_congr hf]
  exact retire_ok (by rw [withMat_hart, hh])

/-! ### The checks that come before the queue -/

section
variable (hh : s.hart = some h) (hst : s.curStream = .x)
include hh hst

theorem matrix_traps (hbad : s.mat.owner ≠ some h.kernel ∨ s.mat.planes ≤ c.val) (v : VRegNo) (ra rb : SReg) :
    ∀ i ∈ [Instr.mzero c, .mrd v c rb, .mwr c v rb, .mstreamLocal c ra rb, .mstreamVector c v rb],
      exec i s = .next (s.trapped 0x05 (s.curWord.setWidth 64) 0) := by
  have hfirst {f : Unit → M Unit} : (matrixIssue [c] >>= f) s = .error (.trap 0x05 (s.curWord.setWidth 64) 0 false) s := by
    rw [run_bind, run_matrixIssue_trap hh hst (hbad.imp_right fun hc => ⟨c, List.mem_singleton_self c, hc⟩)]
  intro i hi
  simp only [List.mem_cons, List.not_mem_nil, or_false] at hi
  rcases hi with rfl | rfl | rfl | rfl | rfl
  · exact issue_eq_trapped (s' := s) hfirst
  · exact issue_eq_trapped (s' := s) hfirst
  · exact issue_eq_trapped (s' := s) hfirst
  · exact issue_eq_trapped (s' := s) hfirst
  · exact issue_eq_trapped (s' := s) hfirst

theorem matrix_traps_unowned (hbad : s.mat.owner ≠ some h.kernel) (rd ra rb : SReg) :
    ∀ i ∈ [Instr.mshapeCore rd ra rb, .mshapeDie rd ra rb, .mlds rd ra, .mswap], exec i s = .next (s.trapped 0x05 (s.curWord.setWidth 64) 0) := by
  have hfirst {f : Unit → M Unit} : (matrixIssue [] >>= f) s = .error (.trap 0x05 (s.curWord.setWidth 64) 0 false) s := by
    rw [run_bind, run_matrixIssue_trap hh hst (.inl hbad)]
  intro i hi
  simp only [List.mem_cons, List.not_mem_nil, or_false] at hi
  rcases hi with rfl | rfl | rfl | rfl
  · exact issue_eq_trapped (s' := s) hfirst
  · exact issue_eq_trapped (s' := s) hfirst
  · exact issue_eq_trapped (s' := s) hfirst
  · exact issue_eq_trapped (s' := s) hfirst

end

/-! ### Shapes -/

section
variable (hh : s.hart = some h) (hst : s.curStream = .x) (hown : s.mat.owner = some h.kernel)
include hh hst hown

theorem run_matrixIssue_none : matrixIssue [] s = .ok () s := run_matrixIssue hh hst hown fun _ hc => absurd hc List.not_mem_nil

theorem run_matrixIssue_one {c : CRegNo} (hc : c.val < s.mat.planes) : matrixIssue [c] s = .ok () s :=
  run_matrixIssue hh hst hown fun d hd => by rw [List.mem_singleton.mp hd]; exact hc

theorem mshape_full {rd ra rb : SReg} {a w : Fmt} (ha : Fmt.ofCode? ((h.sreg .x rb).toNat % 16) = some a)
    (hw : Fmt.ofCode? ((h.sreg .x rb).toNat / 16 % 16) = some w) (hpair : matrixPair a w = true) (hq : 8 ≤ s.mat.queue.length) (die : Bool) :
    issue (mshape die rd ra rb) s = .next (s.waits h .matrix) := by
  have ha' : Fmt.ofCode? (bitsOf (h.sreg .x rb).toNat 0 4) = some a := ha
  have hw' : Fmt.ofCode? (bitsOf (h.sreg .x rb).toNat 4 4) = some w := by rw [bitsOf_eq_div]; exact hw
  refine issue_eq_waits (s' := s) hh ?_ (by decide)
  simp only [mshape, run_bind, run_matrixIssue_none hh hst hown, run_rS, hh, hst, ha', hw', hpair, ↓reduceIte, run_needMatrix_full hq]

theorem mshape_unsupported {rd ra rb : SReg} {a w : Fmt} (ha : Fmt.ofCode? ((h.sreg .x rb).toNat % 16) = some a)
    (hw : Fmt.ofCode? ((h.sreg .x rb).toNat / 16 % 16) = some w) (hpair : matrixPair a w = false) (die : Bool) :
    issue (mshape die rd ra rb) s = .next (s.trapped 0x06 (s.curWord.setWidth 64) 0) := by
  have ha' : Fmt.ofCode? (bitsOf (h.sreg .x rb).toNat 0 4) = some a := ha
  have hw' : Fmt.ofCode? (bitsOf (h.sreg .x rb).toNat 4 4) = some w := by rw [bitsOf_eq_div]; exact hw
  refine issue_eq_trapped (s' := s) ?_
  simp only [mshape, run_bind, run_matrixIssue_none hh hst hown, run_rS, hh, hst, ha', hw', hpair, Bool.false_eq_true, ↓reduceIte]
  rfl

theorem mshape_grants {rd ra rb : SReg} {a w : Fmt} (ha : Fmt.ofCode? ((h.sreg .x rb).toNat % 16) = some a)
    (hw : Fmt.ofCode? ((h.sreg .x rb).toNat / 16 % 16) = some w) (hpair : matrixPair a w = true) (hq : s.mat.queue.length < 8) (die : Bool) :
    issue (mshape die rd ra rb) s =
      .next ((s.withMat fun x => { x with shape := grantShape die h (h.sreg .x ra) a w (if (h.sreg .x rb).getLsbD 8 then 32 else 16) }).retired
        (h.setS .x rd (grantShape die h (h.sreg .x ra) a w (if (h.sreg .x rb).getLsbD 8 then 32 else 16)).word)) := by
  have ha' : Fmt.ofCode? (bitsOf (h.sreg .x rb).toNat 0 4) = some a := ha
  have hw' : Fmt.ofCode? (bitsOf (h.sreg .x rb).toNat 4 4) = some w := by rw [bitsOf_eq_div]; exact hw
  refine issue_eq_retired ?_
  simp only [mshape, run_bind, run_matrixIssue_none hh hst hown, run_rS, hh, hst, ha', hw', hpair, ↓reduceIte, run_needMatrix hq, run_getHart, run_modMat,
    run_wS, withMat_hart, run_retire, hart_putHart, withMat_curStream, putHart_curStream, putHart_putHart]

omit hh hst hown in
/-- The bit of the operand that names the block length (R187). -/
theorem getLsbD_eight (x : Word64) : (x.getLsbD 8 = true) ↔ x.toNat / 256 % 2 = 1 := by
  rw [BitVec.getLsbD, Nat.testBit_eq_decide_div_mod_eq, decide_eq_true_eq]

omit hh hst hown in
/-- The shape granted, field by field (R187, R188). -/
theorem grantShape_eq (die : Bool) (h : Hart) (req : Word64) (a w : Fmt) (bl : Nat) : grantShape die h req a w bl =
    { m := min (req.toNat % 2 ^ 16) (if die && decide (h.gcoord.toNat / 2 ^ 24 % 16 = 15) then 1024 else 256)
      n := min (req.toNat / 2 ^ 16 % 2 ^ 16) (if die && decide (h.gcoord.toNat / 2 ^ 24 % 16 = 15) then 1024 else 256)
      k := if a = .b4 then min (req.toNat / 2 ^ 32 % 2 ^ 16) 256 / bl * bl else min (req.toNat / 2 ^ 32 % 2 ^ 16) 256
      grid := die && decide (h.gcoord.toNat / 2 ^ 24 % 16 = 15), a := a, w := w, bl := bl } := by
  have hk (k : Nat) : k - k % bl = k / bl * bl := by
    rw [Nat.mul_comm]
    exact Nat.sub_eq_of_eq_add (Nat.div_add_mod k bl).symm
  simp only [grantShape, Hart.fullDie, bitsOf_eq_div, pow_zero, Nat.div_one, hk, Nat.reducePow]

omit hh hst hown in
theorem word_eq (p : Shape) : p.word = BitVec.ofNat 64 (p.m + p.n * 2 ^ 16 + p.k * 2 ^ 32 + if p.grid then 2 ^ 48 else 0) := by
  unfold Shape.word
  cases p.grid with
  | false => rfl
  | true => rfl

/-! ### The forms that name no memory -/

theorem mswap_full (hq : 8 ≤ s.mat.queue.length) : exec .mswap s = .next (s.waits h .matrix) := by
  refine issue_eq_waits (s' := s) hh ?_ (by decide)
  simp only [run_bind, run_matrixIssue_none hh hst hown, run_needMatrix_full hq]

theorem mswap_joins (hq : s.mat.queue.length < 8) : exec .mswap s = .next ((s.withMat fun x => { x with
    queue := s.mat.queue ++ [.swap], actFmt := s.mat.shFmt, actBl := s.mat.shBl, shFmt := s.mat.actFmt, shBl := s.mat.actBl }).retired h) := by
  refine issue_eq_retired ?_
  simp only [run_bind, run_matrixIssue_none hh hst hown, run_needMatrix hq, pushMat, run_modMat, withMat_withMat]
  exact run_retire_withMat hh rfl

theorem mzero_full {c : CRegNo} (hc : c.val < s.mat.planes) (hq : 8 ≤ s.mat.queue.length) : exec (.mzero c) s = .next (s.waits h .matrix) := by
  refine issue_eq_waits (s' := s) hh ?_ (by decide)
  simp only [run_bind, run_matrixIssue_one hh hst hown hc, run_needMatrix_full hq]

theorem mzero_joins {c : CRegNo} (hc : c.val < s.mat.planes) (hq : s.mat.queue.length < 8) : exec (.mzero c) s = .next ((s.withMat fun x => { x with
    queue := s.mat.queue ++ [.zero c.val 0], tags := s.mat.tags.set c (some .fp32) }).retired h) := by
  refine issue_eq_retired ?_
  simp only [run_bind, run_matrixIssue_one hh hst hown hc, run_needMatrix hq, pushMat, run_modMat, withMat_withMat]
  exact run_retire_withMat hh rfl

/-! ### Loads of weights -/

theorem mlds_empty {rd ra : SReg} (hempty : s.mat.shape.empty = true) : (8 ≤ s.mat.queue.length → exec (.mlds rd ra) s = .next (s.waits h .matrix)) ∧
    (s.mat.queue.length < 8 → exec (.mlds rd ra) s = .next (s.retired h)) := by
  refine ⟨fun hq => issue_eq_waits (s' := s) hh ?_ (by decide), fun hq => issue_eq_retired ?_⟩
  · simp only [run_bind, run_matrixIssue_none hh hst hown, run_getMat, run_getHart, hh, hempty, ↓reduceIte, run_needMatrix_full hq]
  · simp only [run_bind, run_matrixIssue_none hh hst hown, run_getMat, run_getHart, hh, hempty, ↓reduceIte, run_needMatrix hq, run_retire]

theorem mlds_full {rd ra : SReg} (hempty : s.mat.shape.empty = false) {t : Tile}
    (hop : matrixOperand rd ra s.mat.shape.w (s.mat.shape.extents h.cix).2 s.mat.shape.k (s.mat.shape.k / s.mat.shape.bl * (s.mat.shape.extents h.cix).2) s =
      .ok t s1) (hmat : s1.mat = s.mat) (hq : 8 ≤ s.mat.queue.length) : exec (.mlds rd ra) s = .next (s.waits h .matrix) := by
  refine issue_eq_waits (s' := s1) hh ?_ (by decide)
  rw [← hmat] at hq
  simp only [run_bind, run_matrixIssue_none hh hst hown, run_getMat, run_getHart, hh, hempty, Bool.false_eq_true, ↓reduceIte, hop, run_needMatrix_full hq]

theorem mlds_joins {rd ra : SReg} (hempty : s.mat.shape.empty = false) {t : Tile} {w : WPlane} (hh3 : s3.hart = some g) (hmat1 : s1.mat = s.mat) (hmat3 : s3.mat = s.mat)
    (hop : matrixOperand rd ra s.mat.shape.w (s.mat.shape.extents h.cix).2 s.mat.shape.k (s.mat.shape.k / s.mat.shape.bl * (s.mat.shape.extents h.cix).2) s =
      .ok t s1) (henter : t.enter s1 = .ok () s2)
    (hread : eachFold (List.range (s.mat.shape.k * (s.mat.shape.extents h.cix).2))
      ({ fmt := s.mat.shape.w, bl := s.mat.shape.bl, cells := [], scales := [], poison := [] } : WPlane) (fun w x => do
        let k := x / (s.mat.shape.extents h.cix).2
        let n := x % (s.mat.shape.extents h.cix).2
        let e ← t.elem n k
        let sc ← t.scale (k / s.mat.shape.bl * (s.mat.shape.extents h.cix).2 + n)
        pure { w with cells := w.cells.putNZ (256 * k + n) e.1, scales := w.scales.putNZ (256 * k + n) sc.1
                      poison := if e.2 || sc.2 then addNum w.poison (256 * k + n) else w.poison }) s2 = .ok w s3)
    (hq : s.mat.queue.length < 8) : exec (.mlds rd ra) s = .next ((s3.withMat fun x => { x with
      queue := s.mat.queue ++ [.load w 0], shFmt := s.mat.shape.w, shBl := s.mat.shape.bl }).retired g) := by
  refine issue_eq_retired ?_
  rw [← hmat1] at hq
  simp only [run_bind, run_matrixIssue_none hh hst hown, run_getMat, run_getHart, hh, hempty, Bool.false_eq_true, ↓reduceIte, hop, run_needMatrix hq, henter]
  rw [hread]
  simp only [pushMat, run_modMat, withMat_withMat]
  exact run_retire_withMat hh3 (by rw [hmat3])

/-! ### Streams -/

omit hst hown in
theorem run_pushStream (c : CRegNo) (rows : List ActRow) (receiver : Bool) : pushStream c rows receiver s = .ok () (s.withMat fun m => { m with
    queue := m.queue ++ [.stream c.val h.slot h.xpc m.shape rows (if m.shape.grid then some m.gridCount else none) receiver (h.cix / 4) (h.cix % 4) s.tick]
    gridCount := if m.shape.grid then m.gridCount + 1 else m.gridCount }) := by
  simp only [pushStream, run_bind, run_getHart, hh, run_get, run_modMat]

omit hh hst hown in
theorem run_streamChecks {c : CRegNo} (htag : s.mat.tags[c] = some .fp32) (hpair : matrixPair s.mat.shape.a s.mat.actFmt = true) :
    streamChecks c s = .ok () s := by
  simp only [streamChecks, needTagged, run_bind, run_getMat, if_pos htag, run_pure, hpair, ↓reduceIte]

omit hh hst hown in
theorem receives_iff (p : Shape) (cix : Nat) : p.receives cix = true ↔ p.grid = true ∧ cix % 4 ≠ 0 := by
  rw [Shape.receives, Bool.and_eq_true, decide_eq_true_eq]

theorem mstreamLocal_empty {c : CRegNo} (hc : c.val < s.mat.planes) (ra rb : SReg) (hempty : s.mat.shape.empty = true) :
    (8 ≤ s.mat.queue.length → exec (.mstreamLocal c ra rb) s = .next (s.waits h .matrix)) ∧
    (s.mat.queue.length < 8 → exec (.mstreamLocal c ra rb) s = .next (s.retired h)) := by
  refine ⟨fun hq => issue_eq_waits (s' := s) hh ?_ (by decide), fun hq => issue_eq_retired ?_⟩
  · simp only [run_bind, run_matrixIssue_one hh hst hown hc, run_getMat, run_getHart, hh, hempty, ↓reduceIte, run_needMatrix_full hq]
  · simp only [run_bind, run_matrixIssue_one hh hst hown hc, run_getMat, run_getHart, hh, hempty, ↓reduceIte, run_needMatrix hq, run_retire]

section
variable {c : CRegNo} (hc : c.val < s.mat.planes) (hempty : s.mat.shape.empty = false) (htag : s.mat.tags[c] = some .fp32)
  (hpair : matrixPair s.mat.shape.a s.mat.actFmt = true)
include hc hempty htag hpair

theorem mstreamLocal_receives (ra rb : SReg) (hrecv : s.mat.shape.grid = true ∧ h.cix % 4 ≠ 0) :
    (8 ≤ s.mat.queue.length → exec (.mstreamLocal c ra rb) s = .next (s.waits h .matrix)) ∧
    (s.mat.queue.length < 8 → exec (.mstreamLocal c ra rb) s = .next ((s.withMat fun x => { x with
      queue := s.mat.queue ++ [.stream c.val h.slot h.xpc s.mat.shape [] (if s.mat.shape.grid then some s.mat.gridCount else none) true (h.cix / 4) (h.cix % 4) s.tick]
      gridCount := if s.mat.shape.grid then s.mat.gridCount + 1 else s.mat.gridCount }).retired h)) := by
  have hr := (receives_iff s.mat.shape h.cix).mpr hrecv
  refine ⟨fun hq => issue_eq_waits (s' := s) hh ?_ (by decide), fun hq => issue_eq_retired ?_⟩
  · simp only [run_bind, run_matrixIssue_one hh hst hown hc, run_getMat, run_getHart, hh, hempty, Bool.false_eq_true, ↓reduceIte, run_streamChecks htag hpair,
      hr, run_needMatrix_full hq]
  · simp only [run_bind, run_matrixIssue_one hh hst hown hc, run_getMat, run_getHart, hh, hempty, Bool.false_eq_true, ↓reduceIte, run_streamChecks htag hpair,
      hr, run_needMatrix hq, run_pushStream hh]
    exact run_retire_withMat hh rfl

theorem mstreamLocal_full {ra rb : SReg} (hrecv : ¬(s.mat.shape.grid = true ∧ h.cix % 4 ≠ 0)) {t : Tile}
    (hop : matrixOperand ra rb s.mat.shape.a s.mat.shape.k (s.mat.shape.extents h.cix).1
      ((s.mat.shape.extents h.cix).1 * (s.mat.shape.k / s.mat.shape.bl)) s = .ok t s1) (hmat : s1.mat = s.mat) (hq : 8 ≤ s.mat.queue.length) :
    exec (.mstreamLocal c ra rb) s = .next (s.waits h .matrix) := by
  have hr : s.mat.shape.receives h.cix = false := Bool.eq_false_iff.mpr fun h' => hrecv ((receives_iff _ _).mp h')
  rw [← hmat] at hq
  refine issue_eq_waits (s' := s1) hh ?_ (by decide)
  simp only [run_bind, run_matrixIssue_one hh hst hown hc, run_getMat, run_getHart, hh, hempty, Bool.false_eq_true, ↓reduceIte, run_streamChecks htag hpair,
    hr, hop, run_needMatrix_full hq]

theorem mstreamLocal_joins {ra rb : SReg} (hrecv : ¬(s.mat.shape.grid = true ∧ h.cix % 4 ≠ 0)) {t : Tile} {rows : List ActRow} (hh3 : s3.hart = some h)
    (hmat1 : s1.mat = s.mat) (hmat3 : s3.mat = s.mat)
    (hop : matrixOperand ra rb s.mat.shape.a s.mat.shape.k (s.mat.shape.extents h.cix).1
      ((s.mat.shape.extents h.cix).1 * (s.mat.shape.k / s.mat.shape.bl)) s = .ok t s1) (henter : t.enter s1 = .ok () s2)
    (hread : eachMap (List.range (s.mat.shape.extents h.cix).1) (fun m => do
      let xs ← eachMap (List.range s.mat.shape.k) fun k => do
        let e ← t.elem k m
        let sc ← t.scale (m * (s.mat.shape.k / s.mat.shape.bl) + k / s.mat.shape.bl)
        pure (e.1, sc.1, e.2 || sc.2)
      pure ({ m := m, elems := xs.map fun x => x.1, scales := xs.map fun x => x.2.1
              poison := (List.range s.mat.shape.k).filter fun k => (xs.getD k (0, 0, false)).2.2 } : ActRow)) s2 = .ok rows s3)
    (hq : s.mat.queue.length < 8) : exec (.mstreamLocal c ra rb) s = .next ((s3.withMat fun x => { x with
      queue := s.mat.queue ++ [.stream c.val h.slot h.xpc s.mat.shape rows (if s.mat.shape.grid then some s.mat.gridCount else none) false (h.cix / 4) (h.cix % 4) s3.tick]
      gridCount := if s.mat.shape.grid then s.mat.gridCount + 1 else s.mat.gridCount }).retired h) := by
  have hr : s.mat.shape.receives h.cix = false := Bool.eq_false_iff.mpr fun h' => hrecv ((receives_iff _ _).mp h')
  rw [← hmat1] at hq
  refine issue_eq_retired ?_
  simp only [run_bind, run_matrixIssue_one hh hst hown hc, run_getMat, run_getHart, hh, hempty, Bool.false_eq_true, ↓reduceIte, run_streamChecks htag hpair,
    hr, hop, run_needMatrix hq, henter]
  rw [hread]
  simp only [run_pushStream hh3]
  exact run_retire_withMat hh3 (by rw [hmat3])

end

omit hst hown in
/-- The one register that a form names is resident. -/
theorem run_checkNamed_one (hlive : h.live = true) (hslots : 1 ≤ vectorSlots h.vt) (v : VRegNo) : checkNamed { vs := [v.val] } s = .ok () s := by
  have hv : ({ vs := [v.val] } : Named).allV.length ≤ vectorSlots h.vt := hslots
  have hp : ({ vs := [v.val] } : Named).allP.length ≤ predicateSlots h.vt := Nat.zero_le _
  simp [checkNamed, hh, hlive, hv, hp]

theorem mstreamVector_empty {c : CRegNo} (hc : c.val < s.mat.planes) (v : VRegNo) (rb : SReg) (hempty : s.mat.shape.empty = true) (hlive : h.live = true)
    (hslots : 1 ≤ vectorSlots h.vt) :
    (8 ≤ s.mat.queue.length → exec (.mstreamVector c v rb) s = .next (s.waits h .matrix)) ∧
    (s.mat.queue.length < 8 → exec (.mstreamVector c v rb) s = .next (s.retired h)) := by
  have hnamed := run_checkNamed_one hh hlive hslots v
  refine ⟨fun hq => issue_eq_waits (s' := s) hh ?_ (by decide), fun hq => issue_eq_retired ?_⟩
  · simp only [run_bind, run_matrixIssue_one hh hst hown hc, hnamed, run_getMat, hempty, ↓reduceIte, run_needMatrix_full hq]
  · simp only [run_bind, run_matrixIssue_one hh hst hown hc, hnamed, run_getMat, hempty, ↓reduceIte, run_needMatrix hq, run_retire, hh]

section
variable {c : CRegNo} (hc : c.val < s.mat.planes) (hempty : s.mat.shape.empty = false) (htag : s.mat.tags[c] = some .fp32)
  (hpair : matrixPair s.mat.shape.a s.mat.actFmt = true)
include hc hempty htag hpair

theorem mstreamVector_full {v : VRegNo} (rb : SReg) (hlive : h.live = true) (hslots : 1 ≤ vectorSlots h.vt) (hfmt : h.fmt = s.mat.shape.a)
    (hv : h.tagOf v = some s.mat.shape.a) (hbl : s.mat.shape.a = .b4 → vtBl h.vt = s.mat.shape.bl) (hq : 8 ≤ s.mat.queue.length) :
    exec (.mstreamVector c v rb) s = .next (s.waits h .matrix) := by
  have hbl' : ¬(s.mat.shape.a = .b4 ∧ vtBl h.vt ≠ s.mat.shape.bl) := fun hb => hb.2 (hbl hb.1)
  have htags : checkTags (fun f => decide (f = s.mat.shape.a)) [v.val] s = .ok () s := by simp [checkTags, hh, hfmt, hv]
  refine issue_eq_waits (s' := s) hh ?_ (by decide)
  simp only [run_bind, run_matrixIssue_one hh hst hown hc, run_checkNamed_one hh hlive hslots, run_getMat, hempty, Bool.false_eq_true, ↓reduceIte,
    run_streamChecks htag hpair, htags, run_getHart, hh, if_neg hbl', run_needMatrix_full hq]

theorem mstreamVector_joins {v : VRegNo} {rb : SReg} (ho : s.opensPlain (fun f => decide (f = s.mat.shape.a)) { vs := [v.val] } s1 g) (hslot : g.slot = h.slot)
    (hpc : g.xpc = h.xpc) (hcoord : g.gcoord = h.gcoord) (hmat1 : s1.mat = s.mat) (hbl : s.mat.shape.a = .b4 → vtBl h.vt = s.mat.shape.bl)
    (hq : s.mat.queue.length < 8) {rows : List ActRow} {receiver : Bool}
    (hrows : (rows, receiver) = if s.mat.shape.grid = true ∧ h.cix % 4 ≠ 0 then ([], true)
      else (vectorRows g s.mat.shape (s.mat.shape.extents h.cix).1 ((g.sreg .x rb).toNat % 2 ^ 16) v.val, false)) :
    exec (.mstreamVector c v rb) s = .next ((s1.withMat fun x => { x with
      queue := s.mat.queue ++ [.stream c.val h.slot h.xpc s.mat.shape rows (if s.mat.shape.grid then some s.mat.gridCount else none) receiver (h.cix / 4) (h.cix % 4) s1.tick]
      gridCount := if s.mat.shape.grid then s.mat.gridCount + 1 else s.mat.gridCount }).retired g) := by
  obtain ⟨-, hnamed, htags, hswap⟩ := checks_of_opensFor ho
  have hg := hart_of_opensFor ho
  have hcix : g.cix = h.cix := by rw [Hart.cix, hcoord, Hart.cix]
  have hbl' : ¬(s.mat.shape.a = .b4 ∧ vtBl h.vt ≠ s.mat.shape.bl) := fun hb => hb.2 (hbl hb.1)
  have hjoin : retire (s1.withMat fun m => { m with
      queue := m.queue ++ [.stream c.val g.slot g.xpc m.shape rows (if m.shape.grid then some m.gridCount else none) receiver (g.cix / 4) (g.cix % 4) s1.tick]
      gridCount := if m.shape.grid then m.gridCount + 1 else m.gridCount }) = .ok () _ := run_retire_withMat hg (f' := fun x => { x with
      queue := s.mat.queue ++ [.stream c.val h.slot h.xpc s.mat.shape rows (if s.mat.shape.grid then some s.mat.gridCount else none) receiver (h.cix / 4) (h.cix % 4) s1.tick]
      gridCount := if s.mat.shape.grid then s.mat.gridCount + 1 else s.mat.gridCount }) (by rw [hmat1, hslot, hpc, hcix])
  refine issue_eq_retired ?_
  by_cases hrecv : s.mat.shape.grid = true ∧ h.cix % 4 ≠ 0
  · rw [if_pos hrecv, Prod.mk.injEq] at hrows
    obtain ⟨rfl, rfl⟩ := hrows
    have hr : s.mat.shape.receives g.cix = true := by rw [hcix]; exact (receives_iff _ _).mpr hrecv
    simp only [run_bind, run_matrixIssue_one hh hst hown hc, hnamed, run_getMat, hempty, Bool.false_eq_true, ↓reduceIte,
      run_streamChecks htag hpair, htags, run_getHart, hh, if_neg hbl', run_needMatrix hq, hswap, hg, hr, run_pushStream hg]
    exact hjoin
  · rw [if_neg hrecv, Prod.mk.injEq] at hrows
    obtain ⟨rfl, rfl⟩ := hrows
    have hr : s.mat.shape.receives h.cix = false := Bool.eq_false_iff.mpr fun h' => hrecv ((receives_iff _ _).mp h')
    rw [hcix] at hjoin
    simp only [run_bind, run_matrixIssue_one hh hst hown hc, hnamed, run_getMat, hempty, Bool.false_eq_true, ↓reduceIte,
      run_streamChecks htag hpair, htags, run_getHart, hh, if_neg hbl', run_needMatrix hq, hswap, hg, hr, rS_of_opensFor ho, hcix, run_pushStream hg]
    exact hjoin

end

/-! ### Planes -/

omit hst hown in
/-- The registers of a form that names one vector register, and its guard, are resident. -/
theorem run_checkNamed_guarded {r : Named} (hlive : h.live = true) (hv : r.allV.length ≤ vectorSlots h.vt) (hp : r.allP.length ≤ predicateSlots h.vt) :
    checkNamed r s = .ok () s := by
  simp [checkNamed, hh, hlive, hv, hp]

theorem mrd_full {c : CRegNo} (hc : c.val < s.mat.planes) {v : VRegNo} (rb : SReg) (hlive : h.live = true)
    (hv : (({ vs := [v.val] } : Named).guarded h).allV.length ≤ vectorSlots h.vt) (hp : (({ vs := [v.val] } : Named).guarded h).allP.length ≤ predicateSlots h.vt)
    (htag : s.mat.tags[c] = some .fp32) (hq : 8 ≤ s.mat.queue.length) : exec (.mrd v c rb) s = .next (s.waits h .matrix) := by
  have hnamed : checkNamed (({ vw := [v.val] } : Named).guarded h) s = .ok () s := run_checkNamed_guarded hh hlive hv hp
  refine issue_eq_waits (s' := s) hh ?_ (by decide)
  simp only [run_bind, run_matrixIssue_one hh hst hown hc, run_getHart, hh, hnamed, needTagged, run_getMat, if_pos htag, run_pure, run_needMatrix_full hq]

theorem mwr_full {c : CRegNo} (hc : c.val < s.mat.planes) {v : VRegNo} (rb : SReg) (hlive : h.live = true)
    (hv : (({ vs := [v.val] } : Named).guarded h).allV.length ≤ vectorSlots h.vt) (hp : (({ vs := [v.val] } : Named).guarded h).allP.length ≤ predicateSlots h.vt)
    (htag : h.tagOf v = some h.fmt) (hq : 8 ≤ s.mat.queue.length) : exec (.mwr c v rb) s = .next (s.waits h .matrix) := by
  have hnamed : checkNamed (({ vs := [v.val] } : Named).guarded h) s = .ok () s := run_checkNamed_guarded hh hlive hv hp
  have htags : checkTags anyFmt [v.val] s = .ok () s := by simp [checkTags, hh, htag, anyFmt]
  refine issue_eq_waits (s' := s) hh ?_ (by decide)
  simp only [run_bind, run_matrixIssue_one hh hst hown hc, run_getHart, hh, hnamed, htags, run_needMatrix_full hq]

omit hh hst hown in
theorem planeWindow_eq (b : Word64) : planeWindow b = (b.toNat % 2 ^ 16, if b.toNat / 2 ^ 16 % 512 = 0 ∨ 256 < b.toNat / 2 ^ 16 % 512 then 256 else b.toNat / 2 ^ 16 % 512) := by
  simp only [planeWindow, bitsOf_eq_div]
  rfl

theorem mrd_reads {c : CRegNo} (hc : c.val < s.mat.planes) {v : VRegNo} {rb : SReg} {row0 w : Nat} (hwin : planeWindow (g.sreg .x rb) = (row0, w))
    (htag : s.mat.tags[c] = some .fp32) (hwrites : ∀ o ∈ s.mat.queue, o.writes c.val = false) (ho : s.opens anyFmt { vw := [v.val] } s1 g)
    (hpoison : ∀ i, g.writes i → row0 + i / w < 256 → 256 * (row0 + i / w) + i % w ∉ (s.mat.acc[c]).poison) (hq : s.mat.queue.length < 8) :
    exec (.mrd v c rb) s = .next (s1.retired (if g.vl = 0 then g else convertInto g .fp32 g.fmt
      (fun i => if row0 + i / w < 256 then (SMap.get? (s.mat.acc[c]).cells (256 * (row0 + i / w) + i % w)).getD 0 else 0) v.val 1)) := by
  obtain ⟨h0, hh0, ho⟩ := ho
  obtain rfl : h = h0 := Option.some.inj (hh.symm.trans hh0)
  obtain ⟨-, hnamed, -, hswap⟩ := checks_of_opensFor ho
  have hg := hart_of_opensFor ho
  have hx := curStream_of_opensFor ho
  have hany : (s.mat.queue.any fun o => o.writes c.val) = false := List.any_eq_false.mpr fun o hm => by
    rw [hwrites o hm]
    exact Bool.false_ne_true
  have hfind : (g.active.find? fun i => decide (row0 + i / w < 256) && (s.mat.acc[c]).poison.contains (256 * (row0 + i / w) + i % w)) = none := by
    refine List.find?_eq_none.mpr fun i hi => ?_
    rw [Bool.and_eq_true, decide_eq_true_eq, List.contains_iff_mem]
    exact fun hb => hpoison i (mem_active.mp hi) hb.1 hb.2
  refine issue_eq_retired ?_
  by_cases hvl : g.vl = 0
  · simp only [run_bind, run_matrixIssue_one hh hst hown hc, run_getHart, hh, hnamed, needTagged, run_getMat, if_pos htag, run_pure, run_needMatrix hq, hany,
      Bool.false_eq_true, ↓reduceIte, hswap, hg, rS_of_opensFor ho, hwin, hfind, hvl, run_retire]
  · simp only [run_bind, run_matrixIssue_one hh hst hown hc, run_getHart, hh, hnamed, needTagged, run_getMat, if_pos htag, run_pure, run_needMatrix hq, hany,
      Bool.false_eq_true, ↓reduceIte, hswap, hg, rS_of_opensFor ho, hwin, hfind, hvl, run_setHart, run_retire, hart_putHart, putHart_putHart, putHart_curStream]

end

/-! ### Cells put one after another -/

section
variable {key : Nat → Nat} {val : Nat → Nat}

/-- The cells that the elements of a list put. -/
def putCells (key val : Nat → Nat) (l : List Nat) (m : SMap Nat) : SMap Nat := l.foldl (fun m i => SMap.put m (key i) (val i)) m

theorem putCells_key {l : List Nat} {m : SMap Nat} {x : Nat} (h : SMap.get? (putCells key val l m) x ≠ none) :
    (∃ i ∈ l, x = key i) ∨ SMap.get? m x ≠ none := by
  induction l generalizing m with
  | nil => exact .inr h
  | cons j l ih =>
    rcases ih (m := SMap.put m (key j) (val j)) h with ⟨i, hi, hx⟩ | hm
    · exact .inl ⟨i, List.mem_cons_of_mem j hi, hx⟩
    · by_cases hx : x = key j
      · exact .inl ⟨j, List.mem_cons_self, hx⟩
      · rw [SMap.get?_put_ne m (val j) hx] at hm
        exact .inr hm

/-- A cell that no element puts stays as it is. -/
theorem putCells_ne {l : List Nat} {m : SMap Nat} {x : Nat} (h : ∀ i ∈ l, x ≠ key i) : SMap.get? (putCells key val l m) x = SMap.get? m x := by
  induction l generalizing m with
  | nil => rfl
  | cons j l ih =>
    refine (ih (m := SMap.put m (key j) (val j)) fun i hi => h i (List.mem_cons_of_mem j hi)).trans ?_
    exact SMap.get?_put_ne m (val j) (h j List.mem_cons_self)

theorem putCells_mem {l : List Nat} {m : SMap Nat} (hinj : ∀ i ∈ l, ∀ j ∈ l, key i = key j → i = j) {i : Nat} (hi : i ∈ l) :
    SMap.get? (putCells key val l m) (key i) = some (val i) := by
  induction l generalizing m with
  | nil => exact absurd hi List.not_mem_nil
  | cons j l ih =>
    have hinj' : ∀ i ∈ l, ∀ k ∈ l, key i = key k → i = k := fun i hi k hk => hinj i (List.mem_cons_of_mem j hi) k (List.mem_cons_of_mem j hk)
    by_cases hl : i ∈ l
    · exact ih (m := SMap.put m (key j) (val j)) hinj' hl
    · obtain rfl : i = j := (List.mem_cons.mp hi).resolve_right hl
      refine (putCells_ne (m := SMap.put m (key i) (val i)) fun k hk he => ?_).trans (SMap.get?_put_self ..)
      exact hl (hinj i List.mem_cons_self k (List.mem_cons_of_mem i hk) he ▸ hk)

end

/-- The cells of a window of at most 256 columns are distinct. -/
theorem window_cell_inj {row0 w i j : Nat} (hw : 0 < w) (hw256 : w ≤ 256)
    (h : 256 * (row0 + i / w) + i % w = 256 * (row0 + j / w) + j % w) : i = j := by
  have hi : i % w < 256 := Nat.lt_of_lt_of_le (Nat.mod_lt i hw) hw256
  have hj : j % w < 256 := Nat.lt_of_lt_of_le (Nat.mod_lt j hw) hw256
  have hdiv : i / w = j / w := by omega
  have hmod : i % w = j % w := by omega
  rw [← Nat.div_add_mod i w, ← Nat.div_add_mod j w, hdiv, hmod]

/-- The cells that `mwr` writes from the register of an element list, where nothing is drawn (R200). -/
theorem foldl_undrawn (g : Hart) (key : Nat → Nat) (val : Nat → Nat → Nat) (l : List Nat) (m : SMap Nat) {draws : Bool} (hdraws : draws = false) :
    l.foldl (fun (acc : Vector (BitVec 32) 256 × SMap Nat) i =>
      let d := if draws then drawGen acc.1 i else (acc.1, 0)
      (d.1, SMap.put acc.2 (key i) (val d.2 i))) (g.gen, m) = (g.gen, putCells key (val 0) l m) := by
  subst hdraws
  induction l generalizing m with
  | nil => rfl
  | cons i l ih => exact ih (SMap.put m (key i) (val 0 i))

theorem mwr_joins (hh : s.hart = some h) (hst : s.curStream = .x) (hown : s.mat.owner = some h.kernel) {c : CRegNo} (hc : c.val < s.mat.planes) {v : VRegNo}
    {rb : SReg} {row0 w : Nat} (hwin : planeWindow (g.sreg .x rb) = (row0, w)) (ho : s.opens anyFmt { vs := [v.val] } s1 g) (hmat1 : s1.mat = s.mat)
    (hsr : g.isSr = false) (hq : s.mat.queue.length < 8) :
    (g.vl = 0 → exec (.mwr c v rb) s = .next (s1.retired g)) ∧
    (g.vl ≠ 0 → exec (.mwr c v rb) s = .next ((s1.withMat fun x => { x with
      queue := s.mat.queue ++ [.write c.val (putCells (fun i => 256 * (row0 + i / w) + i % w)
        (fun i => convert g g.fmt .fp32 (g.k.getD 0 0) (elemOf (Fmt.ew g.fmt) (g.vbitsOf v) i) 0 i) (g.active.filter fun i => decide (row0 + i / w < 256)) [])]
      tags := s.mat.tags.set c (some .fp32) }).retired g)) := by
  obtain ⟨h0, hh0, ho⟩ := ho
  obtain rfl : h = h0 := Option.some.inj (hh.symm.trans hh0)
  obtain ⟨-, hnamed, htags, hswap⟩ := checks_of_opensFor ho
  have hg := hart_of_opensFor ho
  have hx := curStream_of_opensFor ho
  have htags' : checkTags anyFmt [v.val] s = .ok () s := htags
  have hdraws : (convRounds g.fmt .fp32 && g.isSr) = false := by rw [hsr, Bool.and_false]
  refine ⟨fun hvl => issue_eq_retired ?_, fun hvl => issue_eq_retired ?_⟩
  · simp only [run_bind, run_matrixIssue_one hh hst hown hc, run_getHart, hh, hnamed, htags', run_needMatrix hq, hswap, hg, rS_of_opensFor ho, hvl, ↓reduceIte,
      run_retire]
  · simp only [run_bind, run_matrixIssue_one hh hst hown hc, run_getHart, hh, hnamed, htags', run_needMatrix hq, hswap, hg, rS_of_opensFor ho, hwin, hvl,
      ↓reduceIte]
    rw [foldl_undrawn g (fun i => 256 * (row0 + i / w) + i % w) (fun d i => convert g g.fmt .fp32 (g.k.getD 0 0) (elemOf (Fmt.ew g.fmt) (g.vbitsOf v) i) d i) _ _ hdraws]
    simp only [run_setHart, pushMat, run_modMat, putHart_withMat, withMat_withMat, run_retire, hart_putHart, putHart_putHart, putHart_curStream]
    refine congrArg _ ?_
    rw [withMat_curStream, withMat_curStream]
    exact congrArg (State.putHart · _) (withMat_congr (by rw [hmat1]))

end

/-- Settles O45, form by form. -/
theorem matrixFormsComplete : Obligations.MatrixFormsComplete := by
  unfold Obligations.MatrixFormsComplete
  intro s h hh hst hcore m granted push rd ra rb c v
  refine ⟨fun hbad => matrix_traps hh hst hbad v ra rb, fun hbad => matrix_traps_unowned hh hst hbad rd ra rb, fun hown hq => ?_, fun hown hq => ?_⟩
  · intro waits r
    refine ⟨mswap_full hh hst hown hq, fun a w ha hw hpair => ⟨mshape_full hh hst hown ha hw hpair hq false, mshape_full hh hst hown ha hw hpair hq true⟩,
      fun hempty => (mlds_empty hh hst hown hempty).1 hq, fun hempty s1 t hop hmat => mlds_full hh hst hown hempty hop hmat hq,
      fun hc => ⟨mzero_full hh hst hown hc hq, fun hlive hv hp => ⟨fun htag => mrd_full hh hst hown hc rb hlive hv hp htag hq,
        fun htag => mwr_full hh hst hown hc rb hlive hv hp htag hq⟩, fun hempty => ⟨(mstreamLocal_empty hh hst hown hc ra rb hempty).1 hq,
        fun hlive hslots => (mstreamVector_empty hh hst hown hc v rb hempty hlive hslots).1 hq⟩, fun hempty htag hpair => ⟨?_, ?_, ?_⟩⟩⟩
    · exact fun hrecv => (mstreamLocal_receives hh hst hown hc hempty htag hpair ra rb hrecv).1 hq
    · exact fun hrecv s1 t hop hmat => mstreamLocal_full hh hst hown hc hempty htag hpair hrecv hop hmat hq
    · exact fun hlive hslots hfmt hv hbl => mstreamVector_full hh hst hown hc hempty htag hpair rb hlive hslots hfmt hv hbl hq
  · refine ⟨fun a w ha hw hpair => ?_, fun a w ha hw hpair => ?_, mswap_joins hh hst hown hq, fun hc => mzero_joins hh hst hown hc hq,
      fun hempty => ⟨(mlds_empty hh hst hown hempty).2 hq, fun hc => ⟨(mstreamLocal_empty hh hst hown hc ra rb hempty).2 hq,
        fun hlive hslots => (mstreamVector_empty hh hst hown hc v rb hempty hlive hslots).2 hq⟩⟩, ?_, fun hempty hc htag hpair => ?_, fun hc s1 g => ?_⟩
    · intro req bl shape f hf
      have hbl : (if (h.sreg .x rb).getLsbD 8 then 32 else 16) = bl := if_congr (getLsbD_eight _) rfl rfl
      have hshape (die : Bool) : grantShape die h (h.sreg .x ra) a w bl = shape die := grantShape_eq die h (h.sreg .x ra) a w bl
      have hgrant (die : Bool) : issue (mshape die rd ra rb) s = .next ((s.withMat fun x => { x with shape := shape die }).retired (h.setS .x rd
          (BitVec.ofNat 64 ((shape die).m + (shape die).n * 2 ^ 16 + (shape die).k * 2 ^ 32 + if (shape die).grid then 2 ^ 48 else 0)))) := by
        rw [mshape_grants hh hst hown ha hw hpair hq die, hbl, hshape, word_eq]
      rw [List.mem_cons, List.mem_singleton] at hf
      rcases hf with rfl | rfl
      · exact hgrant false
      · exact hgrant true
    · intro i hi
      rw [List.mem_cons, List.mem_singleton] at hi
      rcases hi with rfl | rfl
      · exact mshape_unsupported hh hst hown ha hw hpair false
      · exact mshape_unsupported hh hst hown ha hw hpair true
    · intro hempty s1 s2 s3 t g w p nl _ _ hmat1 hh3 _ _ hmat3 hop henter hread
      exact mlds_joins hh hst hown hempty hh3 hmat1 hmat3 hop henter hread hq
    · intro p ml join receives
      refine ⟨fun hrecv => (mstreamLocal_receives hh hst hown hc hempty htag hpair ra rb hrecv).2 hq, ?_, ?_⟩
      · intro hrecv s1 s2 s3 t rows _ _ hmat1 hh3 _ _ hmat3 hop henter hread
        exact mstreamLocal_joins hh hst hown hc hempty htag hpair hrecv hh3 hmat1 hmat3 hop henter hread hq
      · intro s1 g ho hslot hpc hcoord hgranted hbl _ row0 row
        have hrows : vectorRows g p ml row0 v.val = (List.range (min (g.vl.toNat / p.k) (ml - row0))).map row := by
          simp only [vectorRows, bitsOf_eq_div]
          rfl
        by_cases hrecv : receives
        · rw [if_pos hrecv]
          exact mstreamVector_joins hh hst hown hc hempty htag hpair ho hslot hpc hcoord hgranted.1 hbl hq (if_pos hrecv).symm
        · rw [if_neg hrecv, ← hrows]
          exact mstreamVector_joins hh hst hown hc hempty htag hpair ho hslot hpc hcoord hgranted.1 hbl hq (if_neg hrecv).symm
    · intro b row0 w cell hgranted _
      have hwin : planeWindow (g.sreg .x rb) = (row0, w) := planeWindow_eq _
      have hw : 0 < w ∧ w ≤ 256 := by
        simp only [w]
        split <;> omega
      refine ⟨fun htag hwrites ho hpoison => mrd_reads hh hst hown hc hwin htag hwrites ho hpoison hq, fun ho hmode => ?_⟩
      obtain ⟨hstill, hjoins⟩ := mwr_joins hh hst hown hc hwin ho hgranted.1 (decide_eq_false hmode) hq
      have hmem {i : Nat} : (i ∈ g.active.filter fun i => decide (row0 + i / w < 256)) ↔ g.writes i ∧ row0 + i / w < 256 := by
        rw [List.mem_filter, mem_active, decide_eq_true_eq]
      refine ⟨hstill, fun hvl => ⟨_, hjoins hvl, fun i hi hrow => ?_, fun x hx => ?_⟩⟩
      · exact putCells_mem (fun i _ j _ he => window_cell_inj hw.1 hw.2 he) (hmem.mpr ⟨hi, hrow⟩)
      · rcases putCells_key hx with ⟨i, hi, hx⟩ | hnone
        · exact ⟨i, (hmem.mp hi).1, (hmem.mp hi).2, hx⟩
        · exact absurd rfl hnone

end Sys2Proof.Machine
end

section
/-! The page forms (O47): a page form's parts in their order, commits, discards, queries and reference counts. -/

namespace Sys2Proof.Machine

section
variable {s s0 s1 s2 s3 s4 s5 s6 s7 s8 s9 : State} {h g : Hart} {p : PageAt} {va : Word64} {ra rb rd : SReg} {r : FrameRec} {o : Overlay}

theorem readOnly_hart : ReadOnly getHart := readOnly_of_same fun s => by
  rw [run_getHart]
  cases s.hart <;> rfl

theorem readOnly_actorOf : ReadOnly actor := readOnly_bind readOnly_hart fun _ => readOnly_bind readOnly_get fun _ => readOnly_pure _

/-- The translation of a page form changes nothing (R224). -/
theorem readOnly_pageAt (kind : Kind) (va : Word64) (peers : Bool) : ReadOnly (pageAt kind va peers) := by
  refine readOnly_bind readOnly_actorOf fun a => readOnly_ite (fun _ => readOnly_trap ..) fun _ => readOnly_bind (readOnly_req ..) fun q =>
    readOnly_bind (readOnly_walk ..) fun w => ?_
  cases w with
  | noPath => exact readOnly_fault q 0
  | invalid => exact readOnly_fault q 4
  | uncorrectable => exact readOnly_trap ..
  | leaf l =>
    refine readOnly_ite (fun _ => readOnly_fault q 0) fun _ => readOnly_bind readOnly_get fun s => readOnly_ite (fun _ => readOnly_trap ..) fun _ =>
      readOnly_ite (fun _ => readOnly_fault q 14) fun _ => readOnly_pure _

theorem run_behindPage {l : Loc} {n : Nat} (hh : s.hart = some h) (hb : s.behindHeld (s.actor h s.curStream) l n = false) : behindPage l n s = .ok () s := by
  simp only [behindPage, actor, run_bind, run_getHart, hh, run_get, run_pure, hb, Bool.false_eq_true, ↓reduceIte]

/-- The parts of a page form up to its page's move state (R173, R224). -/
theorem run_pageForm {kind : Kind} {peers : Bool} {p0 : PageAt} (hh : s.hart = some h) (hp0 : pageAt kind va peers s = .ok p0 s0)
    (hfree : s.free h (BitVec.ofNat 64 (va.toNat / p0.leaf.size * p0.leaf.size)) p0.leaf.size true) (hh0 : s0.hart = some h) (hst0 : s0.curStream = s.curStream)
    (hb : s0.behindHeld (s0.actor h s.curStream) (.pa p0.leaf.frame) p0.leaf.size = false) (hdrain : drainStream h.slot s.curStream s0 = .ok () s1)
    (hp : pageAt kind va peers s1 = .ok p s2) :
    (setA p.leaf s2 = .ok () s3 → p.moving = false → pageForm kind va true peers s = .ok p s3) ∧
      (setA p.leaf s2 = .ok () s3 → pageForm kind va false peers s = .ok p s3) ∧
      (p.moving = true → pageForm kind va true peers s = .error (.wait .move false) s2) := by
  have hfree0 : s0.free h (BitVec.ofNat 64 (va.toNat / p0.leaf.size * p0.leaf.size)) p0.leaf.size true := by
    obtain ⟨k, hk⟩ := (readOnly_pageAt kind va peers).run s
    rw [hp0] at hk
    rw [show s0 = _ from hk]
    exact hfree
  rw [← hst0] at hb
  have hbehind := run_behindPage hh0 hb
  refine ⟨fun hset hmove => ?_, fun hset => ?_, fun hmove => ?_⟩
  · simp only [pageForm, run_bind, run_curStream, run_getHart, hh, hp0, run_interlock_free hh0 hfree0, hbehind, hdrain, hp, hmove, Bool.and_false,
      Bool.false_eq_true, ↓reduceIte, run_pure, hset]
  · simp only [pageForm, run_bind, run_curStream, run_getHart, hh, hp0, run_interlock_free hh0 hfree0, hbehind, hdrain, hp, Bool.false_and,
      Bool.false_eq_true, ↓reduceIte, run_pure, hset]
  · simp only [pageForm, run_bind, run_curStream, run_getHart, hh, hp0, run_interlock_free hh0 hfree0, hbehind, hdrain, hp, hmove, Bool.and_self,
      ↓reduceIte, run_waitFor]

/-- A page in a move state makes the forms that name it wait (R215). -/
theorem pageForm_waits (hh : s.hart = some h) (hform : pageForm .load (h.sreg s.curStream ra) true false s = .error (.wait .move false) s1) :
    ∀ i ∈ [Instr.opin ra, .ounpin ra, .odiscard ra], exec i s = .next (s.waits h .move) := by
  have hpin (f : Nat → Nat) : issue (pinForm ra f) s = .next (s.waits h .move) := by
    refine issue_eq_waits (s' := s1) hh ?_ (by decide)
    simp only [pinForm, run_bind, run_rS, hh, hform]
  intro i hi
  simp only [List.mem_cons, List.not_mem_nil, or_false] at hi
  rcases hi with rfl | rfl | rfl
  · exact hpin _
  · exact hpin _
  · refine issue_eq_waits (s' := s1) hh ?_ (by decide)
    simp only [run_bind, run_rS, hh, hform]

/-- A pin or its end (R224). -/
theorem run_pinForm {f : Nat → Nat} (hh : s.hart = some h) (hform : pageForm .load (h.sreg s.curStream ra) true false s = .ok p s1)
    (hrec : formRecord p s1 = .ok r s2) (hh2 : s2.hart = some g) (hb : s2.behindHeld (s2.actor g s2.curStream) (.pa r.addr) 16 = false)
    (hput : putFrameRec { r with pins := f r.pins } s2 = .ok () s4) (hh4 : s4.hart = some g) : issue (pinForm ra f) s = .next (s4.retired g) := by
  refine issue_eq_retired ?_
  simp only [pinForm, run_bind, run_rS, hh, hform, hrec, run_behindPage hh2 hb, hput, run_retire, hh4]

/-! ### Commits -/

theorem ocommitPriv_still (hstart : commitStart ra false s = .ok none s1) (hh1 : s1.hart = some g) : exec (.ocommitPriv ra) s = .next (s1.retired g) := by
  refine issue_eq_retired ?_
  simp only [run_bind, hstart, run_retire, hh1]

theorem ocommitPub_still (hstart : commitStart ra true s = .ok none s1) (hh1 : s1.hart = some g) : exec (.ocommitPub ra) s = .next (s1.retired g) := by
  refine issue_eq_retired ?_
  simp only [run_bind, hstart, run_retire, hh1]

/-- A commit to a base that the page alone has (R225). -/
theorem ocommitPriv_merges (hstart : commitStart ra false s = .ok (some (p, o)) s1) (hrec : frameRec p.frame s1 = .ok (some r) s2) (hcount : r.count ≤ 1)
    (hmerge : mergeLines p.leaf.addr p.req.key o r.key p.frame s2 = .ok () s3) (hempty : emptyOverlay o s3 = .ok () s9) (hh9 : s9.hart = some g) :
    exec (.ocommitPriv ra) s = .next (s9.retired g) := by
  refine issue_eq_retired ?_
  simp only [run_bind, hstart, hrec, if_neg (Nat.not_lt.mpr hcount), hmerge, hempty, run_retire, hh9]

theorem ocommitPriv_noFrame (hstart : commitStart ra false s = .ok (some (p, o)) s1) (hrec : frameRec p.frame s1 = .ok (some r) s2) (hcount : 1 < r.count)
    (hawait : awaitEntry p.leaf.addr 16 s2 = .ok () s3) (htake : take (homeSlice p.frame / 32) s3 = .ok none s4) :
    exec (.ocommitPriv ra) s = .next (s.trapped 0x0C p.req.va 5) := by
  refine issue_eq_trapped (s' := s4) ?_
  simp only [run_bind, hstart, hrec, if_pos hcount, hawait, htake, run_trap]

/-- A commit to a base that is shared goes to a fresh frame (R225). -/
theorem ocommitPriv_copies {x : Nat} (hstart : commitStart ra false s = .ok (some (p, o)) s1) (hrec : frameRec p.frame s1 = .ok (some r) s2) (hcount : 1 < r.count)
    (hawait : awaitEntry p.leaf.addr 16 s2 = .ok () s3) (htake : take (homeSlice p.frame / 32) s3 = .ok (some x) s4)
    (hhold : (do
      hold p.leaf.addr x (frameOf x)
      takeRecord p.leaf.addr (frameOf x) { r with count := 1, pins := 0, moving := false, owner := p.leaf.addr }) s4 = .ok () s5)
    (hcopy : each ((List.range 256).filter fun i => !o.v.testBit i) (fun i =>
      copyHeld (p.leaf.addr, p.frame) (p.leaf.addr, frameOf x) r.key (p.frame + 256 * i) r.key (frameOf x + 256 * i) 256) s5 = .ok () s6)
    (hmerge : mergeLines p.leaf.addr p.req.key o r.key (frameOf x) s6 = .ok () s7) (hput : putFrameRec { r with count := r.count - 1 } s7 = .ok () s8)
    (hleaf : (do
      putLeaf p.leaf (frameOf x) 0 true
      emptyOverlay o) s8 = .ok () s9) (hh9 : s9.hart = some g) : exec (.ocommitPriv ra) s = .next (s9.retired g) := by
  obtain ⟨_, t4, hhold, htaken⟩ := ok_of_bind hhold
  obtain ⟨_, t8, hleaf, hempty⟩ := ok_of_bind hleaf
  refine issue_eq_retired ?_
  simp only [run_bind, hstart, hrec, if_pos hcount, hawait, htake, hhold, htaken, hcopy, hmerge, hput, hleaf, hempty, run_retire, hh9]

theorem ocommitPub_publishes {fk : Nat} (hstart : commitStart ra true s = .ok (some (p, o)) s1) (hkey : frameKey p.req.key p.frame s1 = .ok fk s2)
    (hh2 : s2.hart = some h)
    (hlines : each ((List.range 256).filter fun i => o.v.testBit i) (fun i => do
      copyHeldBy copyHome (o.addr, o.ext) (p.leaf.addr, p.frame) p.req.key (o.ext + 256 * popcountN o.v i) fk (p.frame + 256 * i) 256
      dropFor h.asid (sectorsOf (p.frame + 256 * i) 256)) s2 = .ok () s3)
    (hempty : emptyOverlay o s3 = .ok () s4) (hh4 : s4.hart = some g) : exec (.ocommitPub ra) s = .next (s4.retired g) := by
  have hpublish : publishLines p.leaf.addr h.asid p.req.key o fk p.frame s2 = .ok () s3 := hlines
  refine issue_eq_retired ?_
  simp only [run_bind, hstart, hkey, run_getHart, hh2, hpublish, hempty, run_retire, hh4]

/-! ### Discards and queries -/

theorem odiscard_plain (hh : s.hart = some h) (hform : pageForm .load (h.sreg s.curStream ra) true false s = .ok p s2) (hplain : p.leaf.o = false)
    (hh2 : s2.hart = some g) : exec (.odiscard ra) s = .next (s2.retired g) := by
  refine issue_eq_retired ?_
  simp only [run_bind, run_rS, hh, hform, hplain, Bool.not_false, ↓reduceIte, run_retire, hh2]

section
variable (hh : s.hart = some h) (hform : pageForm .load (h.sreg s.curStream ra) true false s = .ok p s2) (hover : p.leaf.o = true)
  (hread : readOverlay p.leaf.ovr s2 = .ok o s3) (hgood : o.consistent = true)
include hh hform hover hread hgood

theorem odiscard_still (hh3 : s3.hart = some g) (hv : o.v = 0) (hpcb : s3.pcb = none) : exec (.odiscard ra) s = .next (s3.retired g) := by
  refine issue_eq_retired ?_
  simp only [run_bind, run_rS, hh, hform, hover, Bool.not_true, Bool.false_eq_true, ↓reduceIte, hread, run_get, hgood, hpcb, Option.isNone_none, hv, run_retire,
    hh3]

theorem odiscard_noRing (hv : o.v ≠ 0) (hpcb : s3.pcb = none) : exec (.odiscard ra) s = .next (s.trapped 0x0C (h.sreg s.curStream ra) 5) := by
  refine issue_eq_trapped (s' := s3) ?_
  simp only [run_bind, run_rS, hh, hform, hover, Bool.not_true, Bool.false_eq_true, ↓reduceIte, hread, run_get, hgood, hpcb, Option.isNone_none, if_neg hv, run_trap]

theorem odiscard_empties (hpcb : s3.pcb ≠ none) (hempty : emptyOverlay o s3 = .ok () s4) (hh4 : s4.hart = some g) :
    exec (.odiscard ra) s = .next (s4.retired g) := by
  have hring : s3.pcb.isNone = false := by
    rw [Option.isNone_eq_false_iff]
    exact Option.isSome_iff_ne_none.mpr hpcb
  refine issue_eq_retired ?_
  simp only [run_bind, run_rS, hh, hform, hover, Bool.not_true, Bool.false_eq_true, ↓reduceIte, hread, run_get, hgood, hring, hempty, run_retire, hh4]

end

section
variable {k : Hart} (hh : s.hart = some h) (hform : pageForm .load (h.sreg s.curStream ra) false true s = .ok p s2) (hh2 : s2.hart = some h)
  (hst2 : s2.curStream = s.curStream)
include hh hform hh2 hst2

theorem oquery_zero (hzero : inPeer p.leaf.frame = true ∨ 5 ≤ (h.sreg s.curStream rb).toNat % 8) :
    exec (.oquery rd ra rb) s = .next (s2.retired (h.setS s2.curStream rd 0)) := by
  refine issue_eq_retired ?_
  by_cases hpeer : inPeer p.leaf.frame = true
  · simp only [run_bind, run_rS, hh, hform, hh2, hst2, hpeer, ↓reduceIte, run_pure, run_wS, run_retire, hart_putHart, putHart_putHart, putHart_curStream,
      BitVec.ofNat_eq_ofNat]
  · simp only [run_bind, run_rS, hh, hform, hh2, hst2, if_neg hpeer, if_pos (hzero.resolve_left hpeer), run_pure, run_wS, run_retire, hart_putHart,
      putHart_putHart, putHart_curStream, BitVec.ofNat_eq_ofNat]

section
variable (hpeer : inPeer p.leaf.frame = false)
include hpeer

theorem oquery_lines (hover : p.leaf.o = true) (hread : readOverlay p.leaf.ovr s2 = .ok o s3) (hgood : o.consistent = true)
    (hj : (h.sreg s.curStream rb).toNat % 8 < 4) (hk : s3.hart = some k) : exec (.oquery rd ra rb) s = .next (s3.retired
      (k.setS s3.curStream rd (BitVec.ofNat 64 (o.v / 2 ^ (64 * ((h.sreg s.curStream rb).toNat % 8)) % 2 ^ 64)))) := by
  have h5 : ¬5 ≤ (h.sreg s.curStream rb).toNat % 8 := by omega
  refine issue_eq_retired ?_
  simp only [run_bind, run_rS, hh, hform, hh2, hst2, hpeer, Bool.false_eq_true, ↓reduceIte, if_neg h5, hover, hread, hgood, run_pure, if_pos hj, Option.elim_some,
    bitsOf_eq_div, run_wS, hk, run_retire, hart_putHart, putHart_putHart, putHart_curStream]

theorem oquery_counts (hover : p.leaf.o = true) (hread : readOverlay p.leaf.ovr s2 = .ok o s3) (hgood : o.consistent = true)
    (hj : (h.sreg s.curStream rb).toNat % 8 = 4) (hrec : frameRec p.frame s3 = .ok (some r) s4) (hk : s4.hart = some k) {v : Nat}
    (hv : o.count % 512 + o.cc % 16 * 2 ^ 9 + p.leaf.tier * 2 ^ 13 + (r.pins * 2 ^ 16 + r.count * 2 ^ 32) = v) :
    exec (.oquery rd ra rb) s = .next (s4.retired (k.setS s4.curStream rd (BitVec.ofNat 64 v))) := by
  have h5 : ¬5 ≤ (h.sreg s.curStream rb).toNat % 8 := by rw [hj]; decide
  have h4 : ¬(h.sreg s.curStream rb).toNat % 8 < 4 := by rw [hj]; decide
  have hword : ((some o).elim 0 fun o => o.count % 512 + o.cc % 16 * 2 ^ 9) + p.leaf.tier * 2 ^ 13 +
      ((some r).elim 0 fun r => r.pins * 2 ^ 16 + r.count * 2 ^ 32) = v := by
    rw [Option.elim_some, Option.elim_some]
    exact hv
  refine issue_eq_retired ?_
  simp only [run_bind, run_rS, hh, hform, hh2, hst2, hpeer, Bool.false_eq_true, ↓reduceIte, if_neg h5, hover, hread, hgood, run_pure, if_neg h4, hrec]
  rw [hword]
  simp only [run_wS, hk, run_retire, hart_putHart, putHart_putHart, putHart_curStream]

theorem oquery_plain_lines (hplain : p.leaf.o = false) (hj : (h.sreg s.curStream rb).toNat % 8 < 4) :
    exec (.oquery rd ra rb) s = .next (s2.retired (h.setS s2.curStream rd 0)) := by
  have h5 : ¬5 ≤ (h.sreg s.curStream rb).toNat % 8 := by omega
  refine issue_eq_retired ?_
  simp only [run_bind, run_rS, hh, hform, hh2, hst2, hpeer, Bool.false_eq_true, ↓reduceIte, if_neg h5, hplain, run_pure, if_pos hj, Option.elim_none,
    run_wS, run_retire, hart_putHart, putHart_putHart, putHart_curStream, BitVec.ofNat_eq_ofNat]

theorem oquery_plain_counts (hplain : p.leaf.o = false) (hj : (h.sreg s.curStream rb).toNat % 8 = 4) (hrec : frameRec p.frame s2 = .ok (some r) s3)
    (hk : s3.hart = some k) {v : Nat} (hv : p.leaf.tier * 2 ^ 13 + (r.pins * 2 ^ 16 + r.count * 2 ^ 32) = v) :
    exec (.oquery rd ra rb) s = .next (s3.retired (k.setS s3.curStream rd (BitVec.ofNat 64 v))) := by
  have h5 : ¬5 ≤ (h.sreg s.curStream rb).toNat % 8 := by rw [hj]; decide
  have h4 : ¬(h.sreg s.curStream rb).toNat % 8 < 4 := by rw [hj]; decide
  have hword : ((none : Option Overlay).elim 0 fun o => o.count % 512 + o.cc % 16 * 2 ^ 9) + p.leaf.tier * 2 ^ 13 +
      ((some r).elim 0 fun r => r.pins * 2 ^ 16 + r.count * 2 ^ 32) = v := by
    rw [Option.elim_none, Option.elim_some, Nat.zero_add]
    exact hv
  refine issue_eq_retired ?_
  simp only [run_bind, run_rS, hh, hform, hh2, hst2, hpeer, Bool.false_eq_true, ↓reduceIte, if_neg h5, hplain, run_pure, if_neg h4, hrec]
  rw [hword]
  simp only [run_wS, hk, run_retire, hart_putHart, putHart_putHart, putHart_curStream]

end

end

/-! ### Reference counts -/

/-- An order's parts about a part of a form, one after another (R167). -/
theorem run_ordered_steps {α : Type} {x : M α} {v : α} {sc : Scope} {od : Order}
    (hset : if Order.releases od then settle s.curStream sc s = .ok () s1 else s1 = s) (hx : x s1 = .ok v s2)
    (href : if Order.acquires od then refreshPoint s.curStream s2 = .ok () s3 else s3 = s2) : ordered od sc x s = .ok v s3 := by
  have hlast : ∀ u, x u = .ok v s2 → (do
      let v ← x
      if Order.acquires od = true then refreshPoint s.curStream else pure ()
      pure v) u = .ok v s3 := by
    intro u hx
    by_cases ha : Order.acquires od = true
    · rw [if_pos ha] at href
      simp only [run_bind, hx, if_pos ha, href, run_pure]
    · rw [if_neg ha] at href
      simp only [run_bind, hx, if_neg ha, href, run_pure]
  have hfirst : ordered od sc x s = (do
      if Order.releases od = true then settle s.curStream sc else pure ()
      let v ← x
      if Order.acquires od = true then refreshPoint s.curStream else pure ()
      pure v) s := rfl
  rw [hfirst]
  by_cases hr : Order.releases od = true
  · rw [if_pos hr] at hset ⊢
    rw [run_bind, hset]
    exact hlast s1 hx
  · rw [if_neg hr] at hset ⊢
    exact hlast s (hset ▸ hx)

/-- The sum of a count and a delta fits, and is put; or it does not, and nothing is put (R229). -/
theorem run_countOf {d : Word64} (hdrop : dropOwn s.curSlot (.pa r.addr) 4 s = .ok () s1) :
    (0 ≤ (r.count : Int) + d.toInt ∧ (r.count : Int) + d.toInt ≤ 0xFFFFFFFF →
      putFrameRec { r with count := ((r.count : Int) + d.toInt).toNat } s1 = .ok () s2 → countOf r d s = .ok (BitVec.ofInt 64 ((r.count : Int) + d.toInt)) s2) ∧
    (¬(0 ≤ (r.count : Int) + d.toInt ∧ (r.count : Int) + d.toInt ≤ 0xFFFFFFFF) → countOf r d s = .ok 0xFFFFFFFFFFFFFFFF s1) := by
  refine ⟨fun hfits hput => ?_, fun hnot => ?_⟩
  · simp only [countOf, run_bind, run_get, hdrop, if_pos hfits, hput, run_pure]
  · simp only [countOf, run_bind, run_get, hdrop, if_neg hnot, run_pure]
    rfl

theorem frref_counts {od : Order} {sc : Scope} {p0 : PageAt} {r0 : FrameRec} {v : Word64} (hh : s.hart = some h)
    (hp0 : pageAt .load (h.sreg s.curStream ra) false s = .ok p0 s1) (hr0 : formRecord p0 s1 = .ok r0 s2) (hst2 : s2.curStream = s.curStream)
    (hlevel : sc ≠ .fab ∨ s2.level = .s2) (hset : if Order.releases od then settle s.curStream (countScope sc) s2 = .ok () s3 else s3 = s2)
    (hform : pageForm .load (h.sreg s.curStream ra) true false s3 = .ok p s4) (hrec : formRecord p s4 = .ok r s5) (hh5 : s5.hart = some h)
    (hb : s5.behindHeld (s5.actor h s5.curStream) (.pa r.addr) 4 = false) (hcount : countOf r (h.sreg s.curStream rb) s5 = .ok v s7)
    (href : if Order.acquires od then refreshPoint s.curStream s7 = .ok () s9 else s9 = s7) (hh9 : s9.hart = some g) (hst9 : s9.curStream = s.curStream) :
    exec (.frref od sc rd ra rb) s = .next (s9.retired (g.setS s.curStream rd v)) := by
  have hnot : ¬(sc = .fab ∧ s2.level ≠ .s2) := fun hboth => hlevel.elim (fun h => h hboth.1) (fun h => hboth.2 h)
  have hordered : ordered od (countScope sc) (do
      let p ← pageForm .load (h.sreg s.curStream ra) true
      let r ← formRecord p
      behindPage (.pa r.addr) 4
      countOf r (h.sreg s.curStream rb)) s2 = .ok v s9 := by
    refine run_ordered_steps (s1 := s3) (s2 := s7) (by rw [hst2]; exact hset) ?_ (by rw [hst2]; exact href)
    simp only [run_bind, hform, hrec, run_behindPage hh5 hb, hcount]
  refine issue_eq_retired ?_
  simp only [run_bind, run_rS, hh, hp0, hr0, run_get, if_neg hnot, hordered, run_wS, hh9, hst9, run_retire, hart_putHart, putHart_putHart, putHart_curStream]

/-- At `.fab` scope S1 holds a count's change (R20). -/
theorem frref_held {od : Order} {p0 : PageAt} {r0 : FrameRec} (hh : s.hart = some h)
    (hp0 : pageAt .load (h.sreg s.curStream ra) false s = .ok p0 s1) (hr0 : formRecord p0 s1 = .ok r0 s2) (hlevel : s2.level ≠ .s2)
    (hform : pageForm .load (h.sreg s.curStream ra) true false s2 = .ok p s4) (hrec : formRecord p s4 = .ok r s5) (hh5 : s5.hart = some h)
    (hst5 : s5.curStream = s.curStream) :
    ∃ t w v, exec (.frref od .fab rd ra rb) s = .next t ∧ t.held = s5.held ++ [w] ∧ t.mem = s5.mem ∧ w.slot = h.slot ∧ w.stream = s.curStream ∧
      w.regs = [.s rd.val] ∧ w.work = .count (h.sreg s.curStream ra) (h.sreg s.curStream rb) ∧
      t.hart = some ((h.setS s.curStream rd v).advance s.curStream).stirred := by
  let w : Held := { slot := h.slot, stream := s5.curStream, regs := [.s rd.val], acquires := Order.acquires od, releases := Order.releases od
                    loc := .pa r.addr, len := 4, after := h.inFlight s5.curStream, work := .count (h.sreg s.curStream ra) (h.sreg s.curStream rb), born := s2.nextId
                    lines := [linesOf ((h.sreg s.curStream ra).toNat / p.leaf.size * p.leaf.size)
                      ((h.sreg s.curStream ra).toNat / p.leaf.size * p.leaf.size + p.leaf.size - 1) true] }
  obtain ⟨v, s6, hv, hs6⟩ : ∃ v s6, freeWord { s5 with held := s5.held ++ [w] } = .ok v s6 ∧ s6 = { s5 with held := s5.held ++ [w], freeCtr := s5.freeCtr + 1 } :=
    ⟨_, _, rfl, rfl⟩
  have hh6 : s6.hart = some h := by rw [hs6]; exact hh5
  have hst6 : s6.curStream = s.curStream := by rw [hs6]; exact hst5
  have hlast : (do
      let v ← freeWord
      wS rd v
      retire) { s5 with held := s5.held ++ [w] } = .ok () (s6.putHart ((h.setS s.curStream rd v).advance s6.curStream)) := by
    simp only [run_bind, hv, run_wS, hh6, hst6, run_retire, hart_putHart, putHart_putHart, putHart_curStream]
  simp only [run_bind] at hlast
  refine ⟨s6.retired (h.setS s.curStream rd v), w, v, issue_eq_retired ?_, by rw [hs6]; rfl, by rw [hs6]; rfl, rfl, hst5, rfl, rfl, ?_⟩
  · simp only [run_bind, run_rS, hh, hp0, hr0, run_get, hlevel, ne_eq, not_false_eq_true, and_self, ↓reduceIte, hform, hrec, run_getHart, hh5, run_curStream,
      run_modify]
    exact hlast
  · rw [State.retired, hart_putHart, hst6]

end

theorem moving_iff (p : PageAt) : p.moving = true ↔ 3 ≤ p.leaf.tier := decide_eq_true_iff

/-- Settles O47, form by form. -/
theorem pageFormsComplete : Obligations.PageFormsComplete := by
  unfold Obligations.PageFormsComplete
  intro s s1 s2 s3 s4 s5 s6 s7 s8 s9 h g rd ra rb p r o hh st va
  refine ⟨?_, ?_, ?_, ?_, ?_, ?_, ?_, ?_⟩
  · intro p0 s0 hp0 hfree hh0 hst0 hb hdrain hp hset
    obtain ⟨hwaits, hplain, hmoves⟩ := run_pageForm (peers := false) hh hp0 hfree hh0 hst0 hb hdrain hp
    refine ⟨fun htier => hwaits hset (Bool.eq_false_iff.mpr fun hm => ?_), hplain hset, fun htier => pageForm_waits hh (hmoves ((moving_iff p).mpr htier))⟩
    exact absurd ((moving_iff p).mp hm) (by omega)
  · intro hform hrec hh2 hst2 hb hh4
    rw [← hst2] at hb
    exact ⟨fun hput => run_pinForm hh hform hrec hh2 hb hput hh4, fun hput => run_pinForm hh hform hrec hh2 hb hput hh4⟩
  · intro releases hstart hh1
    cases releases with
    | false => exact ocommitPriv_still hstart hh1
    | true => exact ocommitPub_still hstart hh1
  · intro hstart hrec hh9
    refine ⟨fun hcount hmerge hempty => ocommitPriv_merges hstart hrec hcount hmerge hempty hh9, fun hcount hawait => ⟨fun x htake => ?_,
      fun htake => ocommitPriv_noFrame hstart hrec hcount hawait htake⟩⟩
    exact fun hhold hcopy hmerge hput hleaf => ocommitPriv_copies hstart hrec hcount hawait htake hhold hcopy hmerge hput hleaf hh9
  · exact fun fk hstart hkey hh2 hlines hempty hh4 => ocommitPub_publishes hstart hkey hh2 hlines hempty hh4
  · intro hform
    refine ⟨fun hplain hh2 => odiscard_plain hh hform hplain hh2, fun hover hread hgood hh3 => ⟨fun hv hpcb => odiscard_still hh hform hover hread hgood hh3 hv hpcb,
      fun hv hpcb => odiscard_noRing hh hform hover hread hgood hv hpcb, fun g4 hpcb hempty hh4 => odiscard_empties hh hform hover hread hgood hpcb hempty hh4⟩⟩
  · intro hform hh2 hst2 j answers
    have hzero (hexec : exec (.oquery rd ra rb) s = .next (s2.retired (h.setS s2.curStream rd 0))) : answers s2 0 := by
      intro k hk
      obtain rfl : h = k := Option.some.inj (hh2.symm.trans hk)
      exact hexec
    refine ⟨fun hz => hzero (oquery_zero hh hform hh2 hst2 hz), fun hpeer hover hread hgood => ⟨fun hj k hk => ?_, fun hj hrec k hk => ?_⟩,
      fun hpeer hplain => ⟨fun hj => hzero (oquery_plain_lines hh hform hh2 hst2 hpeer hplain hj), fun hj hrec k hk => ?_⟩⟩
    · exact oquery_lines hh hform hh2 hst2 hpeer hover hread hgood hj hk
    · exact oquery_counts hh hform hh2 hst2 hpeer hover hread hgood hj hrec hk rfl
    · exact oquery_plain_counts hh hform hh2 hst2 hpeer hplain hj hrec hk rfl
  · intro od sc p0 r0 hp0 hr0 hst2
    have hrel : (Order.releases od = true) ↔ (od = .rel ∨ od = .ar) := decide_eq_true_iff
    have hacq : (Order.acquires od = true) ↔ (od = .acq ∨ od = .ar) := decide_eq_true_iff
    refine ⟨?_, fun hsc hlevel hform hrec hh5 hst5 => ?_⟩
    · intro hlevel hset hform hrec hh5 hst5 hb sum ends hdrop
      have hset' : if Order.releases od then settle s.curStream (countScope sc) s2 = .ok () s3 else s3 = s2 := by
        simp only [hrel]
        exact hset
      rw [← hst5] at hb
      have hends {t : State} {v : Word64} (hcount : countOf r (h.sreg st rb) s5 = .ok v t) : ends t v := by
        rintro ⟨href, hh9, hst9⟩
        have href' : if Order.acquires od then refreshPoint s.curStream t = .ok () s9 else s9 = t := by
          simp only [hacq]
          exact href
        exact frref_counts hh hp0 hr0 hst2 hlevel hset' hform hrec hh5 hb hcount href' hh9 hst9
      obtain ⟨hfits, hnot⟩ := run_countOf (d := h.sreg st rb) (s2 := s7) hdrop
      exact ⟨fun hf hput => hends (hfits hf hput), fun hn => hends (hnot hn)⟩
    · subst hsc
      exact frref_held hh hp0 hr0 hlevel hform hrec hh5 hst5

end Sys2Proof.Machine
end

section
/-! Contexts and checkpoints (O53): keys, contexts, the record of a checkpoint, collection, resumption, drains and restores. -/


namespace Sys2Proof.Machine

section
variable {s s1 s2 s3 s4 s5 s6 : State} {h g : Hart} {rd ra : SReg}

/-- A form marked S and mg that is let go on has changed nothing (R253). -/
theorem state_of_onlyMg (hok : onlyMg s = .ok () s1) : s1 = s := by
  obtain ⟨_, u, hs, hok⟩ := ok_of_bind hok
  cases hh : s.hart with
  | none => simp only [run_onlyS, hh] at hs; exact nomatch hs
  | some h =>
    simp only [run_onlyS, hh] at hs
    split at hs
    · cases hs
      simp only [run_bind, run_getHart, hh, run_get] at hok
      cases hc : SMap.get? s.contexts h.asid with
      | none => rw [hc] at hok; exact nomatch hok
      | some c =>
        rw [hc] at hok
        cases hmg : c.mg with
        | true => simp only [hmg, ↓reduceIte, run_pure] at hok; cases hok; rfl
        | false => simp only [hmg, Bool.false_eq_true, ↓reduceIte] at hok; exact nomatch hok
    · exact nomatch hs

theorem run_getCtx {asid : Nat} {c : Context} (hc : SMap.get? s.contexts asid = some c) : getCtx asid s = .ok c s := by
  simp only [getCtx, run_bind, run_get, hc, run_pure]

/-! ### Keys -/

/-- A store of the collected work, or one that only a closed route keeps, is in flight under a key slot (R256). -/
theorem no_keyed_store {slot : Nat} (hpeer : ∀ p ∈ s.pending, p.key = slot → p.peer ≠ none) :
    ¬(s.pending.any fun p => p.key == slot && p.peer.isNone) = true := by
  rw [List.any_eq_true]
  rintro ⟨p, hp, hkey⟩
  rw [Bool.and_eq_true, beq_iff_eq, Option.isNone_iff_eq_none] at hkey
  exact hpeer p hp hkey.1 hkey.2

section
variable {b : Nat} {k : Hart} (hmg : onlyMg s = .ok () s) (hh : s.hart = some h) (hal : (h.sreg s.curStream ra).toNat % 64 = 0)
  (hfree : s.free h (h.sreg s.curStream ra) 128 true)
  (hread : eachFold (List.range 16) 0 (fun x i => do
    let y ← (s.actor h s.curStream).load .home (h.sreg s.curStream ra + BitVec.ofNat 64 (8 * i)) 8
    pure (x + y * 2 ^ (64 * i))) s = .ok b s2)
include hmg hh hal hfree hread

theorem keyset_refuses_slot (hslot : bitsOf b 0 16 = 0 ∨ 511 < bitsOf b 0 16) (hk : s2.hart = some k) :
    exec (.keyset rd ra) s = .next (s2.retired (k.setS s2.curStream rd (BitVec.ofNat 64 1))) := by
  refine issue_eq_retired ?_
  simp only [run_bind, hmg, run_rS, hh, run_aligned hal, run_interlock_free hh hfree, run_actor hh, hread, if_pos hslot,
    run_wS, hk, run_retire, hart_putHart, putHart_curStream, putHart_putHart]

section
variable (hslot : ¬(bitsOf b 0 16 = 0 ∨ 511 < bitsOf b 0 16))
include hslot

theorem keyset_refuses_record (hbad : 1 < bitsOf b 16 8 ∨ bitsOf b 24 40 ≠ 0 ∨ bitsOf b 576 448 ≠ 0) (hk : s2.hart = some k) :
    exec (.keyset rd ra) s = .next (s2.retired (k.setS s2.curStream rd (BitVec.ofNat 64 2))) := by
  refine issue_eq_retired ?_
  simp only [run_bind, hmg, run_rS, hh, run_aligned hal, run_interlock_free hh hfree, run_actor hh, hread, if_neg hslot, if_pos hbad,
    run_wS, hk, run_retire, hart_putHart, putHart_curStream, putHart_putHart]

variable (hgood : ¬(1 < bitsOf b 16 8 ∨ bitsOf b 24 40 ≠ 0 ∨ bitsOf b 576 448 ≠ 0))
  (hdrain : drain (fun p => p.key == bitsOf b 0 16) s2 = .ok () s3) (hpeer : ∀ p ∈ s3.pending, p.key = bitsOf b 0 16 → p.peer ≠ none)
include hgood hdrain hpeer

theorem keyset_loads (hop : bitsOf b 16 8 = 0)
    (hclear : each (List.range 8) (fun i => (s.actor h s.curStream).storeNow (h.sreg s.curStream ra + BitVec.ofNat 64 (8 + 8 * i)) 8 0) s3 = .ok () s4)
    (hk : s4.hart = some k) : exec (.keyset rd ra) s =
      .next (State.retired { s4 with keys := SMap.put s4.keys (bitsOf b 0 16) (BitVec.ofNat 512 (bitsOf b 64 512)) } (k.setS s4.curStream rd (BitVec.ofNat 64 0))) := by
  have hk' : State.hart { s4 with keys := SMap.put s4.keys (bitsOf b 0 16) (BitVec.ofNat 512 (bitsOf b 64 512)) } = some k := hk
  refine issue_eq_retired ?_
  simp only [run_bind, hmg, run_rS, hh, run_aligned hal, run_interlock_free hh hfree, run_actor hh, hread, if_neg hslot, if_neg hgood, hdrain, run_get,
    if_neg (no_keyed_store hpeer), if_pos hop, hclear, run_modify, run_wS, hk',
    run_retire, hart_putHart, putHart_curStream, putHart_putHart]

theorem keyset_clears (hop : bitsOf b 16 8 ≠ 0) (hk : s3.hart = some k) : exec (.keyset rd ra) s =
      .next (State.retired { s3 with keys := SMap.del s3.keys (bitsOf b 0 16) } (k.setS s3.curStream rd
        (BitVec.ofNat 64 ((s3.contexts.filter fun c => c.2.key == bitsOf b 0 16).length * 2 ^ 16)))) := by
  have hk' : State.hart { s3 with keys := SMap.del s3.keys (bitsOf b 0 16) } = some k := hk
  refine issue_eq_retired ?_
  simp only [run_bind, hmg, run_rS, hh, run_aligned hal, run_interlock_free hh hfree, run_actor hh, hread, if_neg hslot, if_neg hgood, hdrain, run_get,
    if_neg (no_keyed_store hpeer), if_neg hop, run_modify, run_wS, hk',
    run_retire, hart_putHart, putHart_curStream, putHart_putHart]

end
end

/-! ### Contexts -/

theorem asidset_answers {desc status : Nat} (hmg : onlyMg s = .ok () s) (hh : s.hart = some h)
    (hform : formAddr .store (BitVec.ofNat 64 ((h.sreg s.curStream ra).toNat / 128 * 128)) s = .ok desc s2)
    (hcmd : asidCommand ((h.sreg s.curStream ra).toNat % 128) desc failDrains s2 = .ok status s3) (hk : s3.hart = some g) :
    exec (.asidset rd ra) s = .next (s3.retired (g.setS s3.curStream rd (BitVec.ofNat 64 status))) := by
  have hbase : (h.sreg s.curStream ra) &&& ~~~0x7F#64 = BitVec.ofNat 64 ((h.sreg s.curStream ra).toNat / 128 * 128) := clear_low_bits _ 7
  refine issue_eq_retired ?_
  simp only [run_bind, hmg, run_rS, hh, hbase, hform, hcmd, run_wS, hk, run_retire, hart_putHart, putHart_curStream,
    putHart_putHart]

section
variable {target d desc : Nat} {p : Place} (hmg : onlyMg s = .ok () s) (hh : s.hart = some h) (hal : (h.sreg s.curStream ra).toNat % 8 = 0)
  (hfree : s.free h (h.sreg s.curStream ra) 16 true)
  (htarget : (s.actor h s.curStream).load .plain (h.sreg s.curStream ra) 8 (some false) s = .ok target s2)
  (hd : (s.actor h s.curStream).load .plain (h.sreg s.curStream ra + 8) 4 (some false) s2 = .ok d s3)
  (hp : (s.actor h s.curStream).place .store (h.sreg s.curStream ra + 12) 4 (some false) false s3 = .ok p s4)
  (hform : formAddr .load (BitVec.ofNat 64 target) s4 = .ok desc s5) (hh5 : s5.hart = some h)
include hmg hh hal hfree htarget hd hp hform hh5

theorem ctxsave_unbound (hb : s5.boundAt desc = none)
    (hstore : (s.actor h s.curStream).storeNow (h.sreg s.curStream ra + 12) 4 2 (some false) none s5 = .ok () s6) (hk : s6.hart = some g) :
    exec (.ctxsave ra) s = .next (s6.retired g) := by
  refine issue_eq_retired ?_
  simp only [run_bind, hmg, run_rS, hh, run_aligned hal, run_interlock_free hh hfree, run_actor hh, htarget, hd, hp, hform, run_get, run_getHart, hh5, hb, hstore,
    run_retire, hk]

variable {asid : Nat} {c : Context} (hb : s5.boundAt desc = some (asid, c))
include hb

theorem ctxsave_running (hrun : c.state = .running ∨ c.state = .yielding ∨ c.state = .checkpointing)
    (haway : (do
      modCtx asid fun c => { c with parked := true, waiters := c.waiters ++ [(h.asid, h.sreg s.curStream ra + 12)] }
      giveDeadline asid d
      checkCollected asid) s5 = .ok () s6) (hk : s6.hart = some g) : exec (.ctxsave ra) s = .next (s6.retired g) := by
  obtain ⟨_, u, hmod, haway⟩ := ok_of_bind haway
  have haway : sendAway asid d u = .ok () s6 := haway
  refine issue_eq_retired ?_
  simp only [run_bind, hmg, run_rS, hh, run_aligned hal, run_interlock_free hh hfree, run_actor hh, htarget, hd, hp, hform, run_get, run_getHart, hh5, hb,
    if_pos hrun, hmod, haway, run_retire, hk]

theorem ctxsave_preempted (hpre : c.state = .preempted)
    (hstore : (do
      modCtx asid fun c => { c with parked := true }
      (s.actor h s.curStream).storeNow (h.sreg s.curStream ra + 12) 4 1) s5 = .ok () s6) (hk : s6.hart = some g) :
    exec (.ctxsave ra) s = .next (s6.retired g) := by
  obtain ⟨_, u, hmod, hstore⟩ := ok_of_bind hstore
  have hrun : ¬(c.state = .running ∨ c.state = .yielding ∨ c.state = .checkpointing) := by
    rw [hpre]
    exact of_decide_eq_false rfl
  refine issue_eq_retired ?_
  simp only [run_bind, hmg, run_rS, hh, run_aligned hal, run_interlock_free hh hfree, run_actor hh, htarget, hd, hp, hform, run_get, run_getHart, hh5, hb,
    if_neg hrun, if_pos hpre, hmod, hstore, run_retire, hk]

end

theorem ctxload_unbound {desc : Nat} (hmg : onlyMg s = .ok () s) (hh : s.hart = some h) (hform : formAddr .load (h.sreg s.curStream ra) s = .ok desc s2)
    (hb : s2.boundAt desc = none) (hk : s2.hart = some g) : exec (.ctxload ra) s = .next (s2.retired g) := by
  refine issue_eq_retired ?_
  simp only [run_bind, hmg, run_rS, hh, hform, run_get, hb, run_retire, hk]

theorem ctxload_unparks {desc asid : Nat} {c : Context} (hmg : onlyMg s = .ok () s) (hh : s.hart = some h)
    (hform : formAddr .load (h.sreg s.curStream ra) s = .ok desc s2) (hk : s2.hart = some g) (hb : s2.boundAt desc = some (asid, c))
    (hmod : modCtx asid (fun c => { c with parked := false }) s2 = .ok () s3) : exec (.ctxload ra) s = .next (s3.retired g) := by
  have hk3 : s3.hart = some g := by
    cases hmod
    rw [← hk]
    show State.hart (match SMap.get? s2.contexts asid with
      | none => s2
      | some c => _) = _
    cases SMap.get? s2.contexts asid <;> rfl
  refine issue_eq_retired ?_
  simp only [run_bind, hmg, run_rS, hh, hform, run_get, hb, hmod, run_retire, hk3]

/-! ### Checkpoints -/

section
variable {r : CkRec} {status : Nat}

section
variable {desc asid : Nat} {c : Context} (hmg : onlyMg s = .ok () s) (hh : s.hart = some h) (hread : readCk ra true false s = .ok (r, status) s2)
  (hh2 : s2.hart = some h) (hform : formAddr .load r.tdesc s2 = .ok desc s3) (hb : s3.boundAt desc = some (asid, c))
include hmg hh hread hh2 hform hb

theorem ckrestore_starts (hcreated : c.state = .created) (hstore : (s2.actor h s2.curStream).storeNow r.statusAt 1 4 (some false) none s3 = .ok () s4)
    (hk : s4.hart = some g) : exec (.ckrestore ra) s =
      .next (State.retired { s4 with restores := s4.restores ++ [{ asid := h.asid, ck := r, target := some asid }] } g) := by
  have hk' : State.hart { s4 with restores := s4.restores ++ [{ asid := h.asid, ck := r, target := some asid }] } = some g := hk
  refine issue_eq_retired ?_
  simp only [run_bind, hmg, run_getHart, hh, hread, run_actor hh2, run_attempt_ok hform, run_pure, run_get, Option.bind_some, hb, if_pos hcreated, hstore,
    run_modify, run_retire, hk']

theorem ckrestore_fails (hcreated : c.state ≠ .created) (hstore : (s2.actor h s2.curStream).storeNow r.statusAt 1 3 (some false) none s3 = .ok () s4)
    (hk : s4.hart = some g) : exec (.ckrestore ra) s = .next (s4.retired g) := by
  refine issue_eq_retired ?_
  simp only [run_bind, hmg, run_getHart, hh, hread, run_actor hh2, run_attempt_ok hform, run_pure, run_get, Option.bind_some, hb, if_neg hcreated, hstore,
    run_retire, hk]

end

section
variable {c : Context} (hh : s.hart = some h) (hs : h.priv = .s) (hc : SMap.get? s.contexts h.asid = some c)
include hh hs hc

theorem ckfreeze_waits (hdrains : c.drains ≠ 0) : exec (.ckfreeze ra) s = .next (s.waits h .checkpoint) := by
  refine issue_eq_waits (s' := s) hh ?_ (by decide)
  simp only [run_bind, run_onlyS, hh, if_pos hs, run_getHart, run_curStream, run_getCtx hc, if_pos hdrains, run_waitFor]

theorem ckfreeze_freezes {pages : List (Nat × Nat × Bool)} (hdrains : c.drains = 0) (hread : readCk ra true true s = .ok (r, status) s1)
    (hsettle : settle s.curStream .dev s1 = .ok () s2) (hh2 : s2.hart = some h) (hst2 : s2.curStream = s.curStream)
    (hpages : eachMap (List.range r.npages) (freezePage (s2.actor h s.curStream) r) s2 = .ok pages s3)
    (hstore : (s2.actor h s.curStream).storeNow r.statusAt 1 1 (some false) none s3 = .ok () s4)
    (hjoin : (do
      modify fun s => { s with drains := s.drains ++ [{ asid := h.asid, ck := r, pages := pages }] }
      modCtx h.asid fun c => { c with drains := c.drains + 1 }
      if c.state = .running then setCtxState h.asid .checkpointing else pure () : M Unit) s4 = .ok () s5) (hk : s5.hart = some g) :
    exec (.ckfreeze ra) s = .next (s5.retired g) := by
  obtain ⟨_, u, hadd, hjoin⟩ := ok_of_bind hjoin
  obtain ⟨_, v, hmod, hstate⟩ := ok_of_bind hjoin
  rw [← hst2] at hpages hstore
  refine issue_eq_retired ?_
  simp only [run_bind, run_onlyS, hh, if_pos hs, run_getHart, run_curStream, run_getCtx hc, if_neg (not_not.mpr hdrains), hread, hsettle,
    run_actor hh2, hpages, hstore, hadd, hmod]
  by_cases hrun : c.state = .running
  · rw [if_pos hrun] at hstate ⊢
    simp only [run_bind, hstate, run_retire, hk]
  · rw [if_neg hrun] at hstate
    cases hstate
    simp only [if_neg hrun, run_retire, hk]

end

theorem ckwait_ends {v : Word64} (hread : readCk ra false false s = .ok (r, status) s1) (hh1 : s1.hart = some h) (hst1 : s1.curStream = s.curStream)
    (hstatus : (status, v) ∈ [(2, 0#64), (5, 0#64), (3, 2), (6, 3)]) (hfresh : refreshPoint s.curStream (s1.putHart (h.setS s.curStream rd v)) = .ok () s2)
    (hk : s2.hart = some g) : exec (.ckwait rd ra) s = .next (s2.retired g) := by
  refine issue_eq_retired ?_
  simp only [List.mem_cons, Prod.mk.injEq, List.not_mem_nil, or_false] at hstatus
  rcases hstatus with ⟨rfl, rfl⟩ | ⟨rfl, rfl⟩ | ⟨rfl, rfl⟩ | ⟨rfl, rfl⟩ <;>
    simp only [run_bind, run_curStream, hread, run_pure, run_wS, hh1, hst1, hfresh, run_retire, hk]

theorem ckwait_waits (hh : s.hart = some h) (hread : readCk ra false false s = .ok (r, status) s1) (hstatus : status = 1 ∨ status = 4) :
    exec (.ckwait rd ra) s = .next (s.waits h .checkpoint) := by
  refine issue_eq_waits (s' := s1) hh ?_ (by decide)
  rcases hstatus with rfl | rfl <;> simp only [run_bind, run_curStream, hread, run_waitFor]

end

/-! ### Collection and resumption -/

section
variable {x : Hart}

theorem collectorAcknowledgement_still (hx : SMap.get? s.harts s.curEv.a = some x)
    (hno : x.stopped = false ∨ x.acked = true ∨ ∃ w ∈ s.held, w.slot = s.curEv.a) : exec .collectorAcknowledgement s = .next s := by
  have hstill : (!x.stopped || x.acked || s.held.any fun w => decide (w.slot = s.curEv.a)) = true := by
    rcases hno with h | h | ⟨w, hw, hslot⟩
    · rw [h]; rfl
    · rw [h, Bool.or_true]; rfl
    · rw [List.any_eq_true.mpr ⟨w, hw, decide_eq_true hslot⟩, Bool.or_true]
  refine event_error (e := .noHart) (s' := s) ?_
  simp only [collectHart, run_bind, run_get, hx, hstill, ↓reduceIte, run_impossible]

theorem collectorAcknowledgement_pending (hx : SMap.get? s.harts s.curEv.a = some x) (hdrain : drainHart s.curEv.a s = .ok () s1)
    (hp : ∃ p ∈ s1.pending, p.slot = s.curEv.a) : exec .collectorAcknowledgement s = .next s := by
  obtain ⟨p, hp, hslot⟩ := hp
  have hany : (s1.pending.any fun p => decide (p.slot = s.curEv.a)) = true := List.any_eq_true.mpr ⟨p, hp, decide_eq_true hslot⟩
  by_cases hstill : (!x.stopped || x.acked || s.held.any fun w => decide (w.slot = s.curEv.a)) = true
  · refine event_error (e := .noHart) (s' := s) ?_
    simp only [collectHart, run_bind, run_get, hx, if_pos hstill, run_impossible]
  · refine event_error (e := .noHart) (s' := s1) ?_
    simp only [collectHart, run_bind, run_get, hx, if_neg hstill, hdrain, hany, ↓reduceIte, run_impossible]

theorem collectorAcknowledgement_collects (hcollect : collectHart s.curEv.a s = .ok () s1) : exec .collectorAcknowledgement s = .next s1 := by
  refine event_ok ?_
  simp only [run_bind, run_get, hcollect]

theorem yieldDeadlineExpiry_stops {c : Context} (hx : SMap.get? s.harts s.curEv.a = some x) (hdead : x.deadline = some 0) (hstop : x.stopped = false)
    (hc : SMap.get? s.contexts x.asid = some c) (hyield : c.state = .yielding) : exec .yieldDeadlineExpiry s = .next { s with
      harts := SMap.put s.harts s.curEv.a { x.stop with deadline := none }
      contexts := SMap.put s.contexts x.asid { c with forced := c.forced + 1 } } := by
  have hruns : c.runs = false := by
    rw [Context.runs, hyield]
    rfl
  refine event_ok ?_
  simp only [run_bind, run_get, hx, hdead, hstop, and_self, ↓reduceIte, run_set, getCtx, hc, run_pure, modCtx, run_modify, hruns, Bool.false_eq_true]

theorem contextResumption_resumes {c : Context} (hc : SMap.get? s.contexts s.curEv.a = some c) (hpre : c.state = .preempted) (hpark : c.parked = false)
    (hcan : s.canResume s.curEv.a = true) (hback : (do
      each (s.coresOf s.curEv.a) fun core => do
        switchCore s.curEv.a core
        reloadCore s.curEv.a core
      each (s.savedHarts s.curEv.a) reloadHart
      moveBarriers s.curEv.a .broken .gathering : M Unit) s = .ok () s1)
    (hrun : (do
      setCtxState s.curEv.a .running
      postEvent s.curEv.a 5 0 0 0
      each (s.kernels.filter fun k => k.2.partOf s.curEv.a) fun k => tellPeers (.placed s.curEv.a k.2.kid)
      each ((s.savedHarts s.curEv.a).map Hart.slot) retakeHart
      contextEmpty s.curEv.a : M Unit) { s1 with
        savedCores := SMap.delRange s1.savedCores (s.curEv.a * 64) (s.curEv.a * 64 + 64)
        cores := s1.cores.map fun k => { k with icache := k.icache.filter fun x => match x.2 with
          | .poison _ _ => decide (x.1 / 2 ^ 64 ≠ s.curEv.a)
          | .word _ _ => true } } = .ok () s2) : exec .contextResumption s = .next s2 := by
  obtain ⟨_, u, hcores, hback⟩ := ok_of_bind hback
  obtain ⟨_, v, hharts, hmove⟩ := ok_of_bind hback
  refine event_ok ?_
  simp only [run_bind, run_get, run_getCtx hc, if_pos (And.intro hpre (And.intro hpark hcan)), hcores, hharts, hmove, run_modify]
  simp only [run_bind] at hrun
  exact hrun

end

/-! ### Events, drains and restores -/

section
variable {x : CtxEvent} (hx : (s.core s.curEv.a).ctxEvents[s.curEv.b]? = some x)
include hx

theorem contextEventWrite_later (hfirst : ¬∀ y ∈ (s.core s.curEv.a).ctxEvents.take s.curEv.b, y.parent ≠ x.parent) :
    exec .contextEventWrite s = .next s := by
  have hany : ((s.core s.curEv.a).ctxEvents.take s.curEv.b).any (fun y => y.parent == x.parent) = true := by
    rw [List.any_eq_true]
    push Not at hfirst
    obtain ⟨y, hy, heq⟩ := hfirst
    exact ⟨y, hy, beq_iff_eq.mpr heq⟩
  refine event_error (e := .noHart) (s' := s) ?_
  simp only [run_bind, run_get, hx, hany, ↓reduceIte, run_impossible]

variable (hfirst : ∀ y ∈ (s.core s.curEv.a).ctxEvents.take s.curEv.b, y.parent ≠ x.parent)
include hfirst

omit hx in
theorem no_earlier_event : (((s.core s.curEv.a).ctxEvents.take s.curEv.b).any fun y => y.parent == x.parent) = false := by
  rw [List.any_eq_false]
  exact fun y hy heq => hfirst y hy (beq_iff_eq.mp heq)

/-- The event has left its core. -/
def State.eventGone (s u : State) : State := u.modCore s.curEv.a fun k => { k with ctxEvents := k.ctxEvents.eraseIdx s.curEv.b }

theorem contextEventWrite_host (hparent : x.parent = 0xFFFF) : exec .contextEventWrite s =
    .next (if s.hostEvents.length < 256 then s.eventGone { s with hostEvents := s.hostEvents ++ [x.words] } else s) := by
  by_cases hroom : s.hostEvents.length < 256
  · rw [if_pos hroom]
    refine event_ok ?_
    simp only [run_bind, run_get, hx, no_earlier_event hfirst, Bool.false_eq_true, ↓reduceIte, if_pos hparent, if_pos hroom, run_modify, run_modCore]
    rfl
  · rw [if_neg hroom]
    refine event_error (e := .noHart) (s' := s) ?_
    simp only [run_bind, run_get, hx, no_earlier_event hfirst, Bool.false_eq_true, ↓reduceIte, if_pos hparent, if_neg hroom, run_impossible]

variable {c : Context} {evr sz hd tl : Nat} (hparent : x.parent ≠ 0xFFFF) (hc : SMap.get? s.contexts x.parent = some c)
  (hevr : hwRead (c.desc + 64) 8 s = .ok evr s1) (hsz : hwRead (c.desc + 72) 1 s1 = .ok sz s2) (hhd : hwRead (c.desc + 80) 8 s2 = .ok hd s3)
  (htl : hwRead (c.desc + 88) 8 s3 = .ok tl s4)
include hparent hc hevr hsz hhd htl

theorem contextEventWrite_full (hfull : (hd + 2 ^ 64 - tl) % 2 ^ 64 = 2 ^ (sz % 16)) : exec .contextEventWrite s = .next s := by
  refine event_error (e := .noHart) (s' := s4) ?_
  simp only [run_bind, run_get, hx, no_earlier_event hfirst, Bool.false_eq_true, ↓reduceIte, if_neg hparent, run_getCtx hc, descField, hevr, hsz, hhd, htl,
    if_pos hfull, run_impossible]

theorem contextEventWrite_parent (hroom : (hd + 2 ^ 64 - tl) % 2 ^ 64 ≠ 2 ^ (sz % 16))
    (hstore : (do
      each ([x.words.w0, x.words.w1, x.words.w2, x.words.w3].zipIdx) fun (w, i) =>
        (deviceActor deviceSlot x.parent).storeNow (BitVec.ofNat 64 (evr + hd % 2 ^ (sz % 16) * 32) + BitVec.ofNat 64 (8 * i)) 8 w.toNat
      hwWrite (c.desc + 80) ((hd + 1) % 2 ^ 64) 8) s4 = .ok () s5) : exec .contextEventWrite s = .next (s.eventGone s5) := by
  obtain ⟨_, u, hstore, hhead⟩ := ok_of_bind hstore
  refine event_ok ?_
  simp only [run_bind, run_get, hx, no_earlier_event hfirst, Bool.false_eq_true, ↓reduceIte, if_neg hparent, run_getCtx hc, descField, hevr, hsz, hhd, htl,
    if_neg hroom, hstore, hhead, run_modCore]
  rfl

end

section
variable {P : State → Prop} (hP : MemClosed P)
include hP

omit hP in
theorem keeps_getCtx (asid : Nat) : Keeps P (getCtx asid) := keeps_bind keeps_get fun s => by
  split
  · exact keeps_pure _
  · exact keeps_impossible

theorem keeps_frozenChunk (d : Drain) (x : Nat) : Keeps P (frozenChunk d x) := by
  unfold frozenChunk
  split
  · exact keeps_pure _
  · exact keeps_bind keeps_get fun s => keeps_ite (fun _ => keeps_freeBytes hP _) fun _ =>
      keeps_bind (keeps_getCtx _) fun c => keeps_bind (keeps_frameKey hP _ _) fun fk => keeps_readPA hP _ _ _

theorem keeps_unitChunk (d : Drain) (j : Nat) (k : Option Nat) (x : Nat) : Keeps P (unitChunk d j k x) := by
  cases k with
  | some k => exact keeps_frozenChunk hP _ _
  | none => exact keeps_eachFold (fun v k => keeps_bind (keeps_frozenChunk hP _ _) fun u => keeps_pure _) _ _

theorem keeps_writeUnit (d : Drain) (j : Nat) (k : Option Nat) : Keeps P (writeUnit d j k) := by
  unfold writeUnit
  refine keeps_eachFold (fun ok i => ?_) _ _
  extract_lets m jp
  have hjp (go : Bool) : Keeps P (jp go) := by
    refine keeps_ite (fun _ => keeps_pure _) fun _ => keeps_bind (keeps_unitChunk hP _ _ _ _) fun v =>
      keeps_bind (keeps_attempt (keeps_storeNow hP _ _ _ _ _ _)) fun r => ?_
    split
    · exact keeps_pure _
    · exact keeps_pure _
    · exact keeps_throw _
  exact keeps_ite (fun _ => keeps_bind (keeps_pure _) hjp) fun _ => keeps_bind (keeps_freeBool hP) hjp

/-- Writing the units of a drain changes memory and what stands for it alone. -/
theorem keeps_writeUnits (d : Drain) : Keeps P (writeUnits d) := by
  unfold writeUnits
  refine keeps_eachFold (fun (n, bad) (j, k) => ?_) _ _
  refine keeps_ite (fun _ => keeps_bind (keeps_freeBool hP) fun go => ?_) fun _ => keeps_bind (keeps_pure _) fun go => ?_
  all_goals exact keeps_ite (fun _ => keeps_pure _) fun _ => keeps_bind (keeps_writeUnit hP _ _ _) fun ok => keeps_pure _

end

theorem curEv_closed (e : EvArgs) : MemClosed fun s => s.curEv = e := by
  constructor <;> intros <;> assumption

theorem drainEnd_ends {d : Drain} {n : Nat} {bad : Bool} (hd : s.drains[s.curEv.a]? = some d) (hunits : writeUnits d s = .ok (n, bad) s1)
    (hend : finishDrain d (some n) (if bad then 3 else 2) { s1 with drains := s1.drains.eraseIdx s.curEv.a } = .ok () s2) :
    exec .drainEnd s = .next s2 := by
  refine event_ok ?_
  have hev : s1.curEv = s.curEv := (keeps_writeUnits (curEv_closed _) d).ok hunits rfl
  rw [← hev] at hend
  simp only [run_bind, run_get, hd, hunits, run_modify]
  exact hend

theorem restoreEnd_unbound {r : Restore} (hr : s.restores[s.curEv.a]? = some r) (hc : SMap.get? s.contexts r.asid = none) :
    exec .restoreEnd s = .next { s with restores := s.restores.eraseIdx s.curEv.a } := by
  refine event_ok ?_
  simp only [run_bind, run_get, hr, run_modify, hc, Option.isSome_none, Bool.false_eq_true, ↓reduceIte, run_pure]

theorem restoreEnd_rebuilds {r : Restore} {target : Nat} (hr : s.restores[s.curEv.a]? = some r) (hc : SMap.get? s.contexts r.asid ≠ none)
    (htarget : r.target = some target) (hrows : restoreRows r target { s with restores := s.restores.eraseIdx s.curEv.a } = .ok true s1)
    (hwrite : (do
      writeCk r.asid (r.ck.addr + 52) 4 (r.ck.rows * (r.ck.g - 1))
      writeCk r.asid r.ck.statusAt 1 (if r.ck.lost = 31 then 5 else 6) : M Unit) { s1 with freeCtr := s1.freeCtr + 1 } = .ok () s2) :
    exec .restoreEnd s = .next s2 := by
  obtain ⟨_, u, hunits, hstatus⟩ := ok_of_bind hwrite
  refine event_ok ?_
  simp only [run_bind, run_get, hr, run_modify, Option.isSome_iff_ne_none.mpr hc, ↓reduceIte, htarget, hrows, run_freeWord, hunits, hstatus]

end

/-- Settles O53. -/
theorem contextsAndCheckpoints : Obligations.ContextsAndCheckpoints := by
  unfold Obligations.ContextsAndCheckpoints
  intro s s1 s2 s3 s4 s5 s6 h g rd ra
  refine ⟨fun hh => ⟨fun hu i hi => ?_, fun hmg hh1 hst => ?_, fun hs c hc => ?_, fun r status hread hh1 hst => ?_⟩, fun x hx => ?_, fun x c hx hdead hstop hc hyield => ?_,
    fun c hc hpre hpark hcan hback hrun => ?_, fun x hx => ?_, fun d n bad hd => ?_, fun r hr => ?_⟩
  · refine exec_privileged_user hh hu rd ra ?_
    simp only [List.mem_cons, List.not_mem_nil, or_false] at hi ⊢
    rcases hi with rfl | rfl | rfl | rfl | rfl | rfl <;> simp
  · cases state_of_onlyMg hmg
    refine ⟨fun b hal hfree hread hh2 hst2 => ?_, fun desc status hform hcmd hk => asidset_answers hmg hh hform hcmd hk,
      fun target d p desc hal hfree ht hd hp hform hh5 => ⟨ctxsave_unbound hmg hh hal hfree ht hd hp hform hh5, fun asid c hb =>
        ⟨ctxsave_running hmg hh hal hfree ht hd hp hform hh5 hb, ctxsave_preempted hmg hh hal hfree ht hd hp hform hh5 hb⟩⟩,
      fun desc hform hk => ⟨fun hb => ctxload_unbound hmg hh hform hb hk, fun asid c hb hmod => ctxload_unparks hmg hh hform hk hb hmod⟩,
      fun r status desc asid c hread hh2 hst2 hform hb => ?_⟩
    · simp only [← bitsOf_eq_div]
      simp only [← bitsOf_zero b]
      refine ⟨fun hslot k hk => keyset_refuses_slot hmg hh hal hfree hread hslot hk, fun h0 h511 hbad k hk =>
          keyset_refuses_record hmg hh hal hfree hread (by omega) hbad hk, fun h0 h511 hz1 hz2 hdrain hpeer => ⟨fun hop hclear k hk =>
          keyset_loads hmg hh hal hfree hread (by omega) (by omega) hdrain hpeer hop hclear hk, fun hop k hk =>
          keyset_clears hmg hh hal hfree hread (by omega) (by omega) hdrain hpeer (by omega) hk⟩⟩
    · rw [← hst2]
      exact ⟨ckrestore_starts hmg hh hread hh2 hform hb, ckrestore_fails hmg hh hread hh2 hform hb⟩
  · exact ⟨ckfreeze_waits hh hs hc, fun hd r status pages hread hsettle hh2 hst2 hpages hstore hjoin =>
      ckfreeze_freezes hh hs hc hd hread hsettle hh2 hst2 hpages hstore hjoin⟩
  · refine ⟨fun f hf hstatus hfresh hk => ckwait_ends hread hh1 hst (hstatus ▸ hf) hfresh hk, ckwait_waits hh hread⟩
  · exact ⟨collectorAcknowledgement_still hx, collectorAcknowledgement_pending hx, collectorAcknowledgement_collects⟩
  · exact ⟨_, yieldDeadlineExpiry_stops hx hdead hstop hc hyield, rfl, rfl, rfl⟩
  · exact contextResumption_resumes hc hpre hpark hcan hback hrun
  · exact ⟨contextEventWrite_later hx, contextEventWrite_host hx, fun hfirst hparent c evr sz hd tl hc hevr hsz hhd htl =>
      ⟨contextEventWrite_full hx hfirst hparent hc hevr hsz hhd htl, contextEventWrite_parent hx hfirst hparent hc hevr hsz hhd htl⟩⟩
  · exact drainEnd_ends hd
  · exact ⟨restoreEnd_unbound hr, fun target hc ht => restoreEnd_rebuilds hr hc ht⟩

end Sys2Proof.Machine
end

section
/-! Kernels, groups and barriers (O52): arrivals and waits, splits, triggers and ends, launches, claims, and their events. -/

namespace Sys2Proof.Machine

/-- A part that waits, with all that it has done standing. -/
theorem issue_eq_waits_standing {s s1 : State} {h : Hart} {w : Wait} {x : M Unit} (hh : s1.hart = some h) (hx : x s = .error (.wait w true) s1)
    (hw : w ≠ .absent) : issue x s = .next (s1.waits h w) := by
  have hi : issue x s = .next (markWait (some w) s1) := by
    unfold issue
    rw [hx]
    cases w
    case absent => exact absurd rfl hw
    all_goals rfl
  rw [hi, markWait, hh]
  rfl

section
variable {s s1 s2 s3 s4 : State} {h g k : Hart} {rd ra rb : SReg} {sc : BScope} {n : Fin 16}

/-! ### Closing contexts -/

/-- The context of a hart is being closed (R254). -/
def State.closes (s : State) (asid : Nat) : Prop := ∃ c, SMap.get? s.contexts asid = some c ∧ c.closing ≠ none

/-- The state in which a free choice has been made. -/
def State.decided (s : State) : State := { s with freeCtr := s.freeCtr + 1 }

theorem closes_iff {asid : Nat} : ((SMap.get? s.contexts asid).any fun c => c.closing.isSome) = true ↔ s.closes asid := by
  cases hc : SMap.get? s.contexts asid <;> simp [State.closes, hc, Option.isSome_iff_ne_none]

theorem run_closingEnds_open (hh : s.hart = some h) (hopen : ¬s.closes h.asid) : closingEnds s = .ok false s := by
  simp only [closingEnds, run_bind, run_getHart, hh, run_get, if_neg (closes_iff.not.mpr hopen), run_pure]

theorem run_closingEnds_closing (hh : s.hart = some h) (hclose : s.closes h.asid) : closingEnds s = .ok (Config.freeBool s.freeCtr) s.decided := by
  simp only [closingEnds, run_bind, run_getHart, hh, run_get, if_pos (closes_iff.mpr hclose), run_freeBool]
  rfl

theorem hart_decided : s.decided.hart = s.hart := rfl
theorem decided_putHart : (s.putHart h).decided = s.decided.putHart h := rfl
theorem run_freeWord_decided : freeWord s = .ok (Config.freeWord s.freeCtr) s.decided := rfl

theorem run_keeping_waitFor (w : Wait) : (keeping (waitFor w) : M Unit) s = .error (.wait w true) s := rfl

/-- The word with one of its bits cleared. -/
theorem setBit64_false (w : BitVec 64) (i : Nat) : setBit64 w i false = w &&& ~~~BitVec.twoPow 64 i := rfl
theorem setBit64_true (w : BitVec 64) (i : Nat) : setBit64 w i true = w ||| BitVec.twoPow 64 i := rfl

/-! ### Barriers -/

section
variable (hh : s.hart = some h) (hst : s.curStream = .x)
include hh hst

theorem barr_waits (hpend : h.pend.getLsbD (16 * BScope.tier sc + n.val) = true) (hopen : ¬s.closes h.asid) :
    exec (.barr sc n) s = .next (s.waits h .barrier) := by
  refine issue_eq_waits_standing hh ?_ (by decide)
  simp only [run_bind, run_onlyX, if_pos hst, run_getHart, hh, barBit, hpend, ↓reduceIte, run_closingEnds_open hh hopen, Bool.false_eq_true, run_keeping_waitFor]

theorem bwait_waits (hpend : h.pend.getLsbD (16 * BScope.tier sc + n.val) = true) (hopen : ¬s.closes h.asid) :
    exec (.bwait sc n) s = .next (s.waits h .barrier) := by
  refine issue_eq_waits_standing hh ?_ (by decide)
  simp only [run_bind, run_onlyX, if_pos hst, run_getHart, hh, barBit, hpend, ↓reduceIte, run_closingEnds_open hh hopen, Bool.false_eq_true, run_keeping_waitFor]

theorem barr_closing (hpend : h.pend.getLsbD (16 * BScope.tier sc + n.val) = true) (hclose : s.closes h.asid) :
    exec (.barr sc n) s = .next (if Config.freeBool s.freeCtr = true then s.decided.retired h else s.decided.waits h .barrier) := by
  have hch : s.decided.hart = some h := hh
  cases hends : Config.freeBool s.freeCtr with
  | true =>
    refine issue_eq_retired ?_
    simp only [run_bind, run_onlyX, if_pos hst, run_getHart, hh, barBit, hpend, ↓reduceIte, run_closingEnds_closing hh hclose, hends, run_retire, hch]
  | false =>
    refine issue_eq_waits_standing hch ?_ (by decide)
    simp only [run_bind, run_onlyX, if_pos hst, run_getHart, hh, barBit, hpend, ↓reduceIte, run_closingEnds_closing hh hclose, hends, Bool.false_eq_true,
      run_keeping_waitFor]

theorem bwait_closing (hpend : h.pend.getLsbD (16 * BScope.tier sc + n.val) = true) (hclose : s.closes h.asid) (hfresh : refreshPoint .x s.decided = .ok () s1)
    (hg : s1.hart = some g) :
    exec (.bwait sc n) s = .next (if Config.freeBool s.freeCtr = true then s1.retired g else s.decided.waits h .barrier) := by
  have hch : s.decided.hart = some h := hh
  cases hends : Config.freeBool s.freeCtr with
  | true =>
    refine issue_eq_retired ?_
    simp only [run_bind, run_onlyX, if_pos hst, run_getHart, hh, barBit, hpend, ↓reduceIte, run_closingEnds_closing hh hclose, hends, hfresh, run_retire, hg]
  | false =>
    refine issue_eq_waits_standing hch ?_ (by decide)
    simp only [run_bind, run_onlyX, if_pos hst, run_getHart, hh, barBit, hpend, ↓reduceIte, run_closingEnds_closing hh hclose, hends, Bool.false_eq_true,
      run_keeping_waitFor]

theorem bwait_passes (hpend : h.pend.getLsbD (16 * BScope.tier sc + n.val) = false) (hfresh : refreshPoint .x s = .ok () s1) (hg : s1.hart = some g) :
    exec (.bwait sc n) s = .next (s1.retired g) := by
  refine issue_eq_retired ?_
  simp only [run_bind, run_onlyX, if_pos hst, run_getHart, hh, barBit, hpend, Bool.false_eq_true, ↓reduceIte, run_pure, hfresh, run_retire, hg]

end

/-- The state in which a hart has arrived at a barrier of a group (R304, R307). -/
def State.arrived (s : State) (gid n : Nat) (k : Hart) : State := { s.putHart k with barriers := SMap.put s.barriers (16 * gid + n) .gathering }

theorem hart_arrived (gid n : Nat) : (s.arrived gid n k).hart = some k := hart_putHart s k

theorem putHart_arrived (gid n : Nat) : (s.arrived gid n k).putHart g = s.arrived gid n g := by
  simp only [State.arrived, State.putHart, SMap.put_put]

/-- A hart that arrives at barrier i (R304, R307). -/
def Hart.arriving (h : Hart) (i : Nat) (sync : Bool) : Hart :=
  { h with pend := h.pend ||| BitVec.twoPow 64 i, sync := if sync then h.sync ||| BitVec.twoPow 64 i else h.sync }

theorem run_arrive (hsettle : settle .x (wideScope sc) s = .ok () s1) (hh : s1.hart = some h) (sync : Bool) :
    arrive sc n.val sync s =
      .ok () (s1.arrived (h.groups.getD (BScope.tier sc) 0) n.val (h.arriving (16 * BScope.tier sc + n.val) sync)) := by
  rw [← BScope.scope_eq_wideScope] at hsettle
  simp only [arrive, run_bind, hsettle, run_getHart, hh, run_setHart, run_modify]
  rfl

/-- A hart whose `bsync` has arrived at barrier i (R309). -/
def Hart.syncing (h : Hart) (i : Nat) : Hart := { h with pend := h.pend ||| BitVec.twoPow 64 i, sync := h.sync ||| BitVec.twoPow 64 i, firstWait := none }

/-- A hart whose `bsync` has finished (R309). -/
def Hart.synced (h : Hart) (i : Nat) : Hart := { h with syncDone := h.syncDone &&& ~~~BitVec.twoPow 64 i, firstWait := none }

theorem run_syncFinish {i : Nat} (hh : s.hart = some h) (hfresh : refreshPoint .x (s.putHart (h.synced i)) = .ok () s1) (hg : s1.hart = some g) :
    syncFinish i s = .ok () (s1.putHart (g.advance s1.curStream)) := by
  have hfresh : refreshPoint .x (s.putHart { h with syncDone := setBit64 h.syncDone i false, firstWait := none }) = .ok () s1 := hfresh
  simp only [syncFinish, run_bind, run_modHart, hh, hfresh, run_retire, hg]

theorem run_syncWait_open {i : Nat} (hh : s.hart = some h) (hopen : ¬s.closes h.asid) : syncWait i s = .error (.wait .barrier true) s := by
  simp only [syncWait, run_bind, run_closingEnds_open hh hopen, Bool.false_eq_true, ↓reduceIte, run_keeping_waitFor]

theorem run_syncWait_goesOn {i : Nat} (hh : s.hart = some h) (hclose : s.closes h.asid) (hends : Config.freeBool s.freeCtr = false) :
    syncWait i s = .error (.wait .barrier true) s.decided := by
  simp only [syncWait, run_bind, run_closingEnds_closing hh hclose, hends, Bool.false_eq_true, ↓reduceIte, run_keeping_waitFor]

theorem run_syncWait_ends {i : Nat} (hh : s.hart = some h) (hclose : s.closes h.asid) (hends : Config.freeBool s.freeCtr = true) :
    syncWait i s = syncFinish i s.decided := by
  simp only [syncWait, run_bind, run_closingEnds_closing hh hclose, hends, ↓reduceIte]

section
variable (hh : s.hart = some h) (hst : s.curStream = .x)
include hh hst

section
variable (hpend : h.pend.getLsbD (16 * BScope.tier sc + n.val) = false) (hsettle : settle .x (wideScope sc) s = .ok () s1) (hh1 : s1.hart = some h)
  (hst1 : s1.curStream = .x)
include hpend hsettle hh1 hst1

theorem barr_arrives (hcheck : checkBarrier (BScope.tier sc) (h.groups.getD (BScope.tier sc) 0) n.val
      (s1.arrived (h.groups.getD (BScope.tier sc) 0) n.val ((h.arriving (16 * BScope.tier sc + n.val) false).advance .x)) = .ok () s2) :
    exec (.barr sc n) s = .next (markWait none s2) := by
  have harr := run_arrive (n := n) hsettle hh1 false
  have hst' : (s1.arrived (h.groups.getD (BScope.tier sc) 0) n.val (h.arriving (16 * BScope.tier sc + n.val) false)).curStream = .x := hst1
  refine issue_ok ?_
  simp only [run_bind, run_onlyX, if_pos hst, run_getHart, hh, barBit, hpend, Bool.false_eq_true, ↓reduceIte, harr, run_retire, hart_arrived, putHart_arrived]
  rw [hst']
  exact hcheck

variable (hsync : h.syncDone.getLsbD (16 * BScope.tier sc + n.val) = false)
  (hcheck : checkBarrier (BScope.tier sc) (h.groups.getD (BScope.tier sc) 0) n.val
    (s1.arrived (h.groups.getD (BScope.tier sc) 0) n.val (h.syncing (16 * BScope.tier sc + n.val))) = .ok () s2) (hg : s2.hart = some g)
include hsync hcheck hg

omit hst hst1 hh hpend hsync hsettle hh1 hg in
/-- What the arrival of a `bsync` has completed, as the form asks it (R305, R309). -/
theorem check_arriving : checkBarrier (BScope.tier sc) (h.group (BScope.tier sc)) n.val (s1.arrived (h.groups.getD (BScope.tier sc) 0) n.val
    { h.arriving (16 * BScope.tier sc + n.val) true with firstWait := none }) = .ok () s2 := hcheck

omit hst1 in
theorem bsync_arrives_waits (hdone : g.syncDone.getLsbD (16 * BScope.tier sc + n.val) = false) (hopen : ¬s2.closes g.asid) :
    exec (.bsync sc n) s = .next (s2.waits g .barrier) := by
  refine issue_eq_waits_standing hg ?_ (by decide)
  simp only [run_bind, run_onlyX, if_pos hst, run_getHart, hh, barBit, hsync, hpend, Bool.false_eq_true, ↓reduceIte, run_arrive hsettle hh1 true, run_modHart,
    hart_arrived, putHart_arrived, check_arriving hcheck, hg, hdone, run_syncWait_open hg hopen]

omit hst1 in
theorem bsync_arrives_passes (hdone : g.syncDone.getLsbD (16 * BScope.tier sc + n.val) = true)
    (hfresh : refreshPoint .x (s2.putHart (g.synced (16 * BScope.tier sc + n.val))) = .ok () s3) (hk : s3.hart = some k) :
    exec (.bsync sc n) s = .next (s3.retired k) := by
  refine issue_eq_retired ?_
  simp only [run_bind, run_onlyX, if_pos hst, run_getHart, hh, barBit, hsync, hpend, Bool.false_eq_true, ↓reduceIte, run_arrive hsettle hh1 true, run_modHart,
    hart_arrived, putHart_arrived, check_arriving hcheck, hg, hdone, run_syncFinish hg hfresh hk]

end

theorem bsync_passes (hdone : h.syncDone.getLsbD (16 * BScope.tier sc + n.val) = true)
    (hfresh : refreshPoint .x (s.putHart (h.synced (16 * BScope.tier sc + n.val))) = .ok () s1) (hk : s1.hart = some k) :
    exec (.bsync sc n) s = .next (s1.retired k) := by
  refine issue_eq_retired ?_
  simp only [run_bind, run_onlyX, if_pos hst, run_getHart, hh, barBit, hdone, ↓reduceIte, run_syncFinish hh hfresh hk]

/-- A hart in a `bsync` that waits on a phase it may not have arrived at by `bsync` (R309, R312). -/
def Hart.waitsFirst (h : Hart) (i : Nat) : Hart := { h with firstWait := if h.sync.getLsbD i = true then none else some i }

section
variable (hdone : h.syncDone.getLsbD (16 * BScope.tier sc + n.val) = false) (hpend : h.pend.getLsbD (16 * BScope.tier sc + n.val) = true)
include hdone hpend

theorem bsync_waits (hopen : ¬s.closes h.asid) :
    exec (.bsync sc n) s = .next ((s.putHart (h.waitsFirst (16 * BScope.tier sc + n.val))).waits (h.waitsFirst (16 * BScope.tier sc + n.val)) .barrier) := by
  refine issue_eq_waits_standing (hart_putHart _ _) ?_ (by decide)
  simp only [run_bind, run_onlyX, if_pos hst, run_getHart, hh, barBit, hdone, hpend, Bool.false_eq_true, ↓reduceIte, run_modHart]
  exact run_syncWait_open (s := s.putHart (h.waitsFirst _)) (hart_putHart _ _) hopen

theorem bsync_closing_waits (hclose : s.closes h.asid) (hends : Config.freeBool s.freeCtr = false) : exec (.bsync sc n) s =
    .next ((s.putHart (h.waitsFirst (16 * BScope.tier sc + n.val))).decided.waits (h.waitsFirst (16 * BScope.tier sc + n.val)) .barrier) := by
  refine issue_eq_waits_standing (hart_putHart s _) ?_ (by decide)
  simp only [run_bind, run_onlyX, if_pos hst, run_getHart, hh, barBit, hdone, hpend, Bool.false_eq_true, ↓reduceIte, run_modHart]
  exact run_syncWait_goesOn (s := s.putHart (h.waitsFirst _)) (hart_putHart _ _) hclose hends

theorem bsync_closing_passes (hclose : s.closes h.asid) (hends : Config.freeBool s.freeCtr = true)
    (hfresh : refreshPoint .x (s.decided.putHart (h.synced (16 * BScope.tier sc + n.val))) = .ok () s1) (hk : s1.hart = some k) :
    exec (.bsync sc n) s = .next (s1.retired k) := by
  refine issue_eq_retired ?_
  simp only [run_bind, run_onlyX, if_pos hst, run_getHart, hh, barBit, hdone, hpend, Bool.false_eq_true, ↓reduceIte, run_modHart]
  refine (run_syncWait_ends (s := s.putHart (h.waitsFirst _)) (hart_putHart _ _) hclose hends).trans ?_
  refine run_syncFinish (h := h.waitsFirst _) (hart_putHart s _) ?_ hk
  rw [← hfresh]
  exact congrArg (refreshPoint .x) (putHart_putHart s.decided _ _)

end
end

/-! ### Splits -/

section
variable (hh : s.hart = some h) (hst : s.curStream = .x)
include hh hst

theorem gsplit_done {w : Word64} (hdone : h.splitDone = some w) :
    exec (.gsplit rd ra) s = .next (s.retired (({ h with splitDone := none } : Hart).setS .x rd w)) := by
  rw [← hst]
  refine issue_eq_retired ?_
  simp only [run_bind, run_onlyX, if_pos hst, run_getHart, hh, hdone, run_modHart, run_wS, hart_putHart, putHart_curStream, run_retire, putHart_putHart]

variable (hnone : h.splitDone = none)
include hnone

theorem gsplit_bad (hbad : bitsOf (h.sreg .x ra).toNat 0 3 = 0 ∨ 4 ≤ bitsOf (h.sreg .x ra).toNat 0 3 ∨ bitsOf (h.sreg .x ra).toNat 3 5 ≠ 0) :
    exec (.gsplit rd ra) s = .next (s.retired (h.setS .x rd (BitVec.allOnes 64))) := by
  rw [← hst] at hbad ⊢
  refine issue_eq_retired ?_
  simp only [run_bind, run_onlyX, if_pos hst, run_getHart, hh, hnone, run_rS, if_pos hbad, run_wS, hart_putHart, putHart_curStream, run_retire,
    putHart_putHart]

section
variable (hgood : ¬(bitsOf (h.sreg .x ra).toNat 0 3 = 0 ∨ 4 ≤ bitsOf (h.sreg .x ra).toNat 0 3 ∨ bitsOf (h.sreg .x ra).toNat 3 5 ≠ 0))
include hgood

omit hst hnone hgood in
theorem run_splitWait_open (hopen : ¬s.closes h.asid) : splitWait rd s = .error (.wait .split true) s := by
  simp only [splitWait, run_bind, run_closingEnds_open hh hopen, Bool.false_eq_true, ↓reduceIte, run_keeping_waitFor]

section
variable (harr : h.arrival.isSome = true)
include harr

theorem gsplit_waits (hopen : ¬s.closes h.asid) : exec (.gsplit rd ra) s = .next (s.waits h .split) := by
  rw [← hst] at hgood
  refine issue_eq_waits_standing hh ?_ (by decide)
  simp only [run_bind, run_onlyX, if_pos hst, run_getHart, hh, hnone, run_rS, if_neg hgood, harr, ↓reduceIte, run_splitWait_open hh hopen]

theorem gsplit_closing (hclose : s.closes h.asid) : ∃ v, exec (.gsplit rd ra) s = .next (if Config.freeBool s.freeCtr = true then
    s.decided.decided.retired (({ h with arrival := none } : Hart).setS .x rd v) else s.decided.waits h .split) := by
  rw [← hst] at hgood ⊢
  have hdec : s.decided.hart = some h := hh
  refine ⟨Config.freeWord s.decided.freeCtr, ?_⟩
  cases hends : Config.freeBool s.freeCtr with
  | true =>
    refine issue_eq_retired ?_
    simp only [run_bind, run_onlyX, if_pos hst, run_getHart, hh, hnone, run_rS, if_neg hgood, harr, ↓reduceIte, splitWait, run_closingEnds_closing hh hclose, hends,
      run_modHart, hdec, run_freeWord_decided, decided_putHart, run_wS, hart_putHart, putHart_curStream, run_retire, putHart_putHart]
    rfl
  | false =>
    refine issue_eq_waits_standing hdec ?_ (by decide)
    simp only [run_bind, run_onlyX, if_pos hst, run_getHart, hh, hnone, run_rS, if_neg hgood, harr, ↓reduceIte, splitWait, run_closingEnds_closing hh hclose, hends,
      Bool.false_eq_true, run_keeping_waitFor]

end

section
variable (harr : h.arrival = none)
  (hcheck : checkSplit (bitsOf (h.sreg .x ra).toNat 0 3 - 1) (h.groups.getD (bitsOf (h.sreg .x ra).toNat 0 3 - 1) 0)
    (s.putHart { h with arrival := some (bitsOf (h.sreg .x ra).toNat 0 3 - 1, bitsOf (h.sreg .x ra).toNat 8 8) }) = .ok () s1) (hg : s1.hart = some g)
include harr hcheck hg

theorem gsplit_arrives_waits (hnone1 : g.splitDone = none) (hopen : ¬s1.closes g.asid) : exec (.gsplit rd ra) s = .next (s1.waits g .split) := by
  have hcheck : checkSplit (bitsOf (h.sreg .x ra).toNat 0 3 - 1) (h.group (bitsOf (h.sreg .x ra).toNat 0 3 - 1)) (s.putHart
    { h with arrival := some (bitsOf (h.sreg .x ra).toNat 0 3 - 1, bitsOf (h.sreg .x ra).toNat 8 8) }) = .ok () s1 := hcheck
  rw [← hst] at hgood hcheck
  simp only [hnone] at hcheck
  refine issue_eq_waits_standing hg ?_ (by decide)
  simp only [run_bind, run_onlyX, if_pos hst, run_getHart, hh, hnone, run_rS, if_neg hgood, harr, Option.isSome_none, Bool.false_eq_true, ↓reduceIte, run_setHart,
    hcheck, hg, hnone1, run_splitWait_open hg hopen]

theorem gsplit_arrives_done {w : Word64} (hst1 : s1.curStream = .x) (hdone : g.splitDone = some w) :
    exec (.gsplit rd ra) s = .next (s1.retired (({ g with splitDone := none } : Hart).setS .x rd w)) := by
  have hcheck : checkSplit (bitsOf (h.sreg .x ra).toNat 0 3 - 1) (h.group (bitsOf (h.sreg .x ra).toNat 0 3 - 1)) (s.putHart
    { h with arrival := some (bitsOf (h.sreg .x ra).toNat 0 3 - 1, bitsOf (h.sreg .x ra).toNat 8 8) }) = .ok () s1 := hcheck
  rw [← hst] at hgood hcheck hst1 ⊢
  simp only [hnone] at hcheck
  refine issue_eq_retired ?_
  simp only [run_bind, run_onlyX, if_pos hst, run_getHart, hh, hnone, run_rS, if_neg hgood, harr, Option.isSome_none, Bool.false_eq_true, ↓reduceIte, run_setHart,
    hcheck, hg, hdone, run_modHart, run_wS, hart_putHart, putHart_curStream, hst1, run_retire, putHart_putHart]

end
end
end
/-! ### Triggers and ends -/

theorem run_trigger_done (hh : s.hart = some h) (ht : h.triggered = true) : trigger s = .ok () s := by
  simp only [trigger, run_bind, run_getHart, hh, ht, ↓reduceIte, run_pure]

theorem run_trigger (hh : s.hart = some h) (ht : h.triggered = false) (hsettle : settle .x .dev s = .ok () s1) (hg : s1.hart = some g) :
    trigger s = .ok () (s1.putHart { g with triggered := true }) := by
  simp only [trigger, run_bind, run_getHart, hh, ht, Bool.false_eq_true, ↓reduceIte, hsettle, run_modHart, hg]

theorem ktrig_triggers (hst : s.curStream = .x) (ht : trigger s = .ok () s1) (hg : s1.hart = some g) : exec .ktrig s = .next (s1.retired g) := by
  refine issue_eq_retired ?_
  simp only [run_bind, run_onlyX, if_pos hst, ht, run_retire, hg]

section
variable (hst : s.curStream = .x) (ht : trigger s = .ok () s1) (hh : s1.hart = some h) (hdrain : drainHart h.slot (s1.putHart h.endAccess) = .ok () s2)

/-- What an ending hart waits for besides its transfers (R20, R294, R361). -/
def State.unsettled (s : State) (h : Hart) : Bool :=
  s.held.any (fun w => decide (w.slot = h.slot)) || s.pending.any (fun p => decide (p.slot = h.slot)) || s.arrivalHeld h .x

theorem unsettled_iff : s.unsettled h = false ↔ (∀ w ∈ s.held, w.slot ≠ h.slot) ∧ (∀ p ∈ s.pending, p.slot ≠ h.slot) ∧ s.arrivalHeld h .x = false := by
  simp only [State.unsettled, Bool.or_eq_false_iff, List.any_eq_false, decide_eq_true_eq, and_assoc, ne_eq]

include hst ht hh hdrain

theorem hend_unsettled (hk : s2.hart = some k) (hleft : s2.unsettled h.endAccess = true) : exec .hend s = .next (s2.waits k .level) := by
  have hslot : h.endAccess.slot = h.slot := rfl
  have hleft' : (s2.held.any (fun w => decide (w.slot = h.slot)) || s2.pending.any (fun p => decide (p.slot = h.slot)) || s2.arrivalHeld h.endAccess .x) =
      true := hleft
  refine issue_eq_waits_standing hk ?_ (by decide)
  simp only [run_bind, run_onlyX, if_pos hst, ht, run_modHart, hh, keeping, settleHart, run_getHart, hart_putHart, hslot, hdrain, run_get, hleft', ↓reduceIte,
    run_waitFor]

section
variable (hleft : s2.unsettled h.endAccess = false) (hk : s2.hart = some k)
include hleft hk

theorem hend_transfers (hbusy : k.transfers ≠ [] ∨ k.filling = true) : exec .hend s = .next (s2.waits k .ended) := by
  have hslot : h.endAccess.slot = h.slot := rfl
  have hleft' : (s2.held.any (fun w => decide (w.slot = h.slot)) || s2.pending.any (fun p => decide (p.slot = h.slot)) || s2.arrivalHeld h.endAccess .x) =
      false := hleft
  have hbusy' : (k.transfers.isEmpty && !k.filling) = false := by
    rw [Bool.and_eq_false_iff, List.isEmpty_eq_false_iff, Bool.not_eq_false']
    exact hbusy
  refine issue_eq_waits_standing hk ?_ (by decide)
  simp only [run_bind, run_onlyX, if_pos hst, ht, run_modHart, hh, keeping, settleHart, run_getHart, hart_putHart, hslot, hdrain, run_get, hleft',
    Bool.false_eq_true, ↓reduceIte, run_pure, hk, hbusy', run_waitFor]

theorem hend_ends (htransfers : k.transfers = []) (hfill : k.filling = false) (hend : endHart s2 = .ok () s3) : exec .hend s = .next (markWait none s3) := by
  have hslot : h.endAccess.slot = h.slot := rfl
  have hleft' : (s2.held.any (fun w => decide (w.slot = h.slot)) || s2.pending.any (fun p => decide (p.slot = h.slot)) || s2.arrivalHeld h.endAccess .x) =
      false := hleft
  refine issue_ok ?_
  simp only [run_bind, run_onlyX, if_pos hst, ht, run_modHart, hh, keeping, settleHart, run_getHart, hart_putHart, hslot, hdrain, run_get, hleft',
    Bool.false_eq_true, ↓reduceIte, run_pure, hk, htransfers, hfill, List.isEmpty_nil, Bool.not_false, Bool.and_self, hend]

end
end

/-! ### Launches -/

section
variable (hst : s.curStream = .x) (hh : s.hart = some h)
include hst hh

theorem klaunch_misaligned (hal : (h.sreg .x ra).toNat % 16 ≠ 0) : exec (.klaunch rd ra) s = .next (s.trapped 0x08 (h.sreg .x ra) 0) := by
  rw [← hst] at hal ⊢
  refine issue_eq_trapped (s' := s) ?_
  simp only [run_bind, run_onlyX, if_pos hst, run_rS, hh, run_misaligned hal]

variable {j w : Nat} (hal : (h.sreg .x ra).toNat % 16 = 0) (hfree : s.free h (h.sreg .x ra) 16 false)
  (hj : (s.actor h .x).load .plain (h.sreg .x ra) 8 (some false) s = .ok j s1)
  (hw : (s.actor h .x).load .plain (h.sreg .x ra + 8) 8 (some false) s1 = .ok w s2) (hh2 : s2.hart = some h)
include hal hfree hj hw hh2

theorem klaunch_beyond (hbeyond : 64 ≤ j) : exec (.klaunch rd ra) s = .next (s2.retired (h.setS s2.curStream rd (BitVec.ofNat 64 3))) := by
  rw [← hst] at hal hfree hj hw
  refine issue_eq_retired ?_
  simp only [run_bind, run_onlyX, if_pos hst, run_rS, hh, run_aligned hal, run_interlock_free hh hfree, run_actor hh, hj, hw, run_getHart, hh2, if_pos hbeyond,
    run_wS, run_retire, hart_putHart, putHart_curStream, putHart_putHart]

section
variable {c : Context} (hin : ¬64 ≤ j) (hc : SMap.get? s2.contexts h.asid = some c)
include hin hc

theorem klaunch_noQueue (hbeyond : c.nq ≤ j) : exec (.klaunch rd ra) s = .next (s2.retired (h.setS s2.curStream rd (BitVec.ofNat 64 2))) := by
  rw [← hst] at hal hfree hj hw
  refine issue_eq_retired ?_
  simp only [run_bind, run_onlyX, if_pos hst, run_rS, hh, run_aligned hal, run_interlock_free hh hfree, run_actor hh, hj, hw, run_getHart, hh2, if_neg hin,
    run_getCtx hc, if_pos hbeyond, run_wS, run_retire, hart_putHart, putHart_curStream, putHart_putHart]

variable (hq : ¬c.nq ≤ j)
include hq

theorem klaunch_disabled (hnone : enabledQueue (c.lq0 + j) s2 = .ok none s3) (hg : s3.hart = some g) :
    exec (.klaunch rd ra) s = .next (s3.retired (g.setS s3.curStream rd (BitVec.ofNat 64 2))) := by
  rw [← hst] at hal hfree hj hw
  refine issue_eq_retired ?_
  simp only [run_bind, run_onlyX, if_pos hst, run_rS, hh, run_aligned hal, run_interlock_free hh hfree, run_actor hh, hj, hw, run_getHart, hh2, if_neg hin,
    run_getCtx hc, if_neg hq, hnone, run_wS, hg, run_retire, hart_putHart, putHart_curStream, putHart_putHart]

theorem klaunch_rings {q : LaunchQ} {r : Bell} (hsome : enabledQueue (c.lq0 + j) s2 = .ok (some q) s3)
    (hring : (do
      settle .x .dev
      doorbell (c.lq0 + j) w fun asid => postHartEvent asid 4 0 h.slot (BitVec.ofNat 64 (c.lq0 + j)) 0 0) s3 = .ok r s4) (hg : s4.hart = some g) :
    exec (.klaunch rd ra) s = .next (s4.retired (g.setS s4.curStream rd (BitVec.ofNat 64 (if r = .accepted ∨ w = q.wr then 0 else 1)))) := by
  obtain ⟨_, u, hsettle, hring⟩ := ok_of_bind hring
  rw [← hst] at hal hfree hj hw
  refine issue_eq_retired ?_
  simp only [run_bind, run_onlyX, if_pos hst, run_rS, hh, run_aligned hal, run_interlock_free hh hfree, run_actor hh, hj, hw, run_getHart, hh2, if_neg hin,
    run_getCtx hc, if_neg hq, hsome, hsettle, hring, run_wS, hg, run_retire, hart_putHart, putHart_curStream, putHart_putHart]

end
end
/-! ### Claims -/

section
variable {P : State → Prop} (hP : MemClosed P)
include hP

theorem keeps_claimBlock (a : Actor) (va : Word64) (take : Nat → Nat) : Keeps P (a.claimBlock va take) := by
  refine keeps_bind (keeps_attempt (keeps_place hP _ _ _ _ _ _)) fun r => ?_
  have hrest (p : Place) : Keeps P (do
      let old ← a.readHome p va 16
      if take old = 0 then do
        let _ ← a.place .load va 16 (some false)
        pure old
      else
        let p ← a.place .store va 16 (some false)
        let new := putBits old 0 64 (bitsOf old 0 64 + take old)
        dropOwn a.slot p.loc 16
        a.note (a.storeOf p 16 new (fullMask 16))
        a.performNow p.loc 16 (a.storeOf p 16 new (fullMask 16))
        pure old) :=
    keeps_bind (keeps_readHome hP _ _ _ _) fun old => keeps_ite (fun _ => keeps_bind (keeps_place hP _ _ _ _ _ _) fun _ => keeps_pure _) fun _ =>
      keeps_bind (keeps_place hP _ _ _ _ _ _) fun p => keeps_bind (keeps_dropOwn hP _ _ _) fun _ => keeps_bind (keeps_note hP _ _) fun _ =>
      keeps_bind (keeps_performNow hP _ _ _ _) fun _ => keeps_pure _
  cases r with
  | ok p => exact keeps_bind (keeps_pure _) hrest
  | error e =>
    refine keeps_bind (keeps_attempt (keeps_place hP _ _ _ _ _ _)) fun r => ?_
    cases r with
    | ok p => exact keeps_bind (keeps_pure _) hrest
    | error _ => exact keeps_bind (keeps_throw _) hrest

end

/-- The harts, who issues and the time, which the accesses of an instruction leave as they are. -/
def State.sameMoment (s t : State) : Prop := s.sameIssue t ∧ t.tick = s.tick

theorem sameMoment_closed (s : State) : MemClosed s.sameMoment := by constructor <;> intros <;> assumption

/-- A byte of what is read of memory. -/
theorem read_eq_bitsOf (m : Memory) (a : Nat) {i n : Nat} (hi : i < n) : m.read (a + i) = BitVec.ofNat 8 (bitsOf (m.readLE a n) (8 * i) 8) := by
  refine BitVec.eq_of_getLsbD_eq fun j hj => ?_
  rw [BitVec.getLsbD_ofNat, decide_eq_true hj, Bool.true_and, bitsOf_eq_div, Nat.testBit_mod_two_pow, decide_eq_true hj, Bool.true_and, Nat.testBit_div_two_pow,
    testBit_readLE, decide_eq_true (by omega), Bool.true_and, show (j + 8 * i) / 8 = i by omega, show (j + 8 * i) % 8 = j by omega]

/-- What is read of memory begins with what fewer bytes give. -/
theorem readLE_mod (m : Memory) (a : Nat) {k n : Nat} (hk : k ≤ n) : m.readLE a k = m.readLE a n % 2 ^ (8 * k) := by
  refine readLE_of_bytes fun i hi => ?_
  rw [read_eq_bitsOf m a (Nat.lt_of_lt_of_le hi hk), bitsOf_eq_div]
  exact BitVec.eq_of_toNat_eq (by simp)

section
variable {core off : Nat} {va : Word64}

/-- A claim on a block in the local store, with no store in flight: what it finds, its first doubleword advanced by what it takes (R156, R287). -/
theorem run_claimBlock_local (hp : s.pending = []) (hu : s.undisturbed h) (hl : s.localPlace h va 16 core off) (hsound : s.lsPoisoned core off 16 = false)
    (hspill : s.inSpill (s.actor h s.curStream) va 16 = false) (take : Nat → Nat) :
    ∃ t, (s.actor h s.curStream).claimBlock va take s = .ok (s.ls.readLE (lsIndex core off) 16) t ∧ t.mem = s.mem ∧
      t.ls.readLE (lsIndex core off) 8 = (s.ls.readLE (lsIndex core off) 16 % 2 ^ 64 + take (s.ls.readLE (lsIndex core off) 16)) % 2 ^ 64 ∧
      ∀ y, (y < lsIndex core off ∨ lsIndex core off + 8 ≤ y) → t.ls.read y = s.ls.read y := by
  have hread := run_readHome_local hp hsound hspill
  by_cases htake : take (s.ls.readLE (lsIndex core off) 16) = 0
  · refine ⟨s, ?_, rfl, ?_, fun _ _ => rfl⟩
    · simp only [Actor.claimBlock, run_bind, run_attempt_ok (run_place_local hu hl _ _ _), run_pure, hread, if_pos htake, run_place_local hu hl]
    · rw [htake, Nat.add_zero, Nat.mod_mod]
      exact readLE_mod _ _ (by decide)
  · have hnew : putBits (s.ls.readLE (lsIndex core off) 16) 0 64 (bitsOf (s.ls.readLE (lsIndex core off) 16) 0 64 + take (s.ls.readLE (lsIndex core off) 16)) <
        2 ^ (8 * 16) := by
      refine Nat.lt_pow_two_of_testBit _ fun i hi => ?_
      rw [testBit_putBits, if_neg (by omega), testBit_readLE, decide_eq_false (by omega), Bool.false_and]
    obtain ⟨t, hrun, hls, hmem, -, hrest⟩ := run_performNow_ls (a := s.actor h s.curStream) hp hnew
      (p := (s.actor h s.curStream).storeOf { loc := .ls core off, key := 0, path := [], overlay := false, garbled := false } 16
        (putBits (s.ls.readLE (lsIndex core off) 16) 0 64 (bitsOf (s.ls.readLE (lsIndex core off) 16) 0 64 + take (s.ls.readLE (lsIndex core off) 16)))
        (fullMask 16)) rfl
    have hdrop : dropOwn (s.actor h s.curStream).slot (.ls core off) 16 s = .ok () s := rfl
    have hnote (p : PendingStore) : (s.actor h s.curStream).note p s = .ok () s := rfl
    refine ⟨t, ?_, hmem, ?_, fun y hy => ?_⟩
    · simp only [Actor.claimBlock, run_bind, run_attempt_ok (run_place_local hu hl _ _ _), run_pure, hread, if_neg htake, run_place_local hu hl, hdrop, hnote, hrun]
    · rw [readLE_mod t.ls _ (show 8 ≤ 16 by decide), hls]
      exact bitsOf_putBits_self _ 0 64 _
    · rcases hy with hy | hy
      · exact hrest y (Or.inl hy)
      by_cases hin : y < lsIndex core off + 16
      · obtain ⟨j, rfl⟩ : ∃ j, y = lsIndex core off + j := ⟨y - lsIndex core off, by omega⟩
        rw [read_eq_bitsOf t.ls _ (show j < 16 by omega), hls, bitsOf_putBits_ne (Or.inr (by omega)), ← read_eq_bitsOf s.ls _ (by omega)]
      · exact hrest y (by omega)

end

/-- The hart after a claim: the old index in sd, and what it has taken in `vl` (R287). -/
def Hart.claimed (h : Hart) (rd : SReg) (old taken : Nat) : Hart := { h.setS .x rd (BitVec.ofNat 64 (old % 2 ^ 64)) with vl := BitVec.ofNat 17 taken }

/-- How many a claim of a hart takes of a block (R287). -/
def Hart.takes (h : Hart) (b : Word64) (old : Nat) : Nat := min (min b.toNat h.vlmax) (bitsOf old 64 64 - bitsOf old 0 64)

section
variable (hst : s.curStream = .x) (hh : s.hart = some h) (hlive : h.live = true)
include hst hh hlive

theorem claim_misaligned (hal : (h.sreg .x ra).toNat % 16 ≠ 0) : exec (.claim rd ra rb) s = .next (s.trapped 0x08 (h.sreg .x ra) 0) := by
  rw [← hst] at hal ⊢
  refine issue_eq_trapped (s' := s) ?_
  simp only [run_bind, run_onlyX, if_pos hst, needLive, run_getHart, hh, hlive, ↓reduceIte, run_pure, run_rS, run_misaligned hal]

theorem claim_claims {old : Nat} (hal : (h.sreg .x ra).toNat % 16 = 0) (hfree : s.free h (h.sreg .x ra) 16 true)
    (hsettle : settle .x .dev s = .ok () s1) (hh1 : s1.hart = some h) (hst1 : s1.curStream = .x)
    (hclaim : (s1.actor h .x).claimBlock (h.sreg .x ra) (h.takes (h.sreg .x rb)) s1 = .ok old s2) (hfresh : refreshPoint .x s2 = .ok () s3)
    (hk : s3.hart = some k) (hst3 : s3.curStream = .x) :
    exec (.claim rd ra rb) s = .next (s3.retired (k.claimed rd old (h.takes (h.sreg .x rb) old))) := by
  have hclaim : (s1.actor h s1.curStream).claimBlock (h.sreg s.curStream ra)
      (fun old => min (min (h.sreg s.curStream rb).toNat h.vlmax) (bitsOf old 64 64 - bitsOf old 0 64)) s1 = .ok old s2 := by
    rw [hst1, hst]
    exact hclaim
  rw [← hst] at hal hfree
  refine issue_eq_retired ?_
  simp only [run_bind, run_onlyX, if_pos hst, needLive, run_getHart, hh, hlive, ↓reduceIte, run_pure, run_rS, run_aligned hal, run_interlock_free hh hfree, hsettle,
    run_actor hh1, hclaim, hfresh, run_wS, hk, run_modHart, hart_putHart, run_retire, putHart_putHart, putHart_curStream, hst3]
  rw [hst]
  rfl

end
/-- The clause of O52 about a claim on a block in the local store. -/
theorem claim_local {core off : Nat} (hst : s.curStream = .x) (hh : s.hart = some h) (hlive : h.live = true) (hal : (h.sreg .x ra).toNat % 16 = 0)
    (hfree : s.free h (h.sreg .x ra) 16 true) (hp : s.pending = []) (hblock : s.unblocked h) (hl : s.localPlace h (h.sreg .x ra) 16 core off)
    (hsound : s.lsPoisoned core off 16 = false) (hspill : s.inSpill (s.actor h .x) (h.sreg .x ra) 16 = false) (hu : s.undisturbed h) :
    ∃ x, exec (.claim rd ra rb) s = .next x ∧ x.mem = s.mem ∧
      x.hart = some (((Hart.claimed { h with refX := s.tick } rd (s.ls.readLE (lsIndex core off) 16)
        (h.takes (h.sreg .x rb) (s.ls.readLE (lsIndex core off) 16))).advance .x).stirred) ∧
      x.ls.readLE (lsIndex core off) 8 = (s.ls.readLE (lsIndex core off) 16 % 2 ^ 64 + h.takes (h.sreg .x rb) (s.ls.readLE (lsIndex core off) 16)) % 2 ^ 64 ∧
      ∀ y, (y < lsIndex core off ∨ lsIndex core off + 8 ≤ y) → x.ls.read y = s.ls.read y := by
  have hnone {f : PendingStore → Bool} : ∀ q ∈ s.pending, f q = false := by rw [hp]; exact fun q hq => nomatch hq
  have hsettle : settle .x .dev s = .ok () s := by
    have hwide := settle_wide (s1 := s) hh hblock (sc := .dev) (Or.inl rfl)
    rw [hst] at hwide
    rw [hwide (run_drain_of_none hnone), hp]
    rfl
  have hspill' : s.inSpill (s.actor h s.curStream) (h.sreg .x ra) 16 = false := by rw [hst]; exact hspill
  obtain ⟨t, hclaim, hmem, hlow, hrest⟩ := run_claimBlock_local hp hu hl hsound hspill' (h.takes (h.sreg .x rb))
  obtain ⟨hsame, htick⟩ : s.sameMoment t := (keeps_claimBlock (sameMoment_closed s) _ _ _).ok hclaim ⟨⟨rfl, rfl, rfl⟩, rfl⟩
  have hht : t.hart = some h := hsame.hart_eq.trans hh
  rw [hst] at hclaim
  have hfresh := run_refreshPoint hht .x
  obtain ⟨u, hu⟩ : ∃ u, u = (t.putHart (h.refreshed .x t.tick)).modCore (coreOfSlot t.curSlot) Core.refetching := ⟨_, rfl⟩
  rw [← hu] at hfresh
  have hstu : u.curStream = .x := by rw [hu, modCore_curStream, putHart_curStream]; exact hsame.2.2.trans hst
  have hk : u.hart = some (h.refreshed .x t.tick) := by rw [hu, hart_modCore, hart_putHart]
  have hmemu : u.mem = t.mem := by rw [hu]; simp
  have hlsu : u.ls = t.ls := by rw [hu]; simp
  refine ⟨_, claim_claims hst hh hlive hal hfree hsettle hh hst hclaim hfresh hk hstu, hmemu.trans hmem, ?_, ?_, fun y hy => ?_⟩
  · rw [State.retired, hart_putHart, hstu, htick]
    rfl
  · exact (congrArg (Memory.readLE · _ 8) hlsu).trans hlow
  · exact (congrArg (Memory.read · y) hlsu).trans (hrest y hy)

/-! ### The events of kernels and barriers -/

section
variable {t gid : Nat} {i : Nat}

theorem group_phaseEnded (h : Hart) (i t : Nat) : (h.phaseEnded i).group t = h.group t := rfl

theorem pend_phaseEnded (h : Hart) (i : Nat) : (h.phaseEnded i).pend.getLsbD i = false := by
  have hbit : (h.phaseEnded i).pend = h.pend &&& ~~~BitVec.twoPow 64 i := rfl
  rw [hbit, BitVec.getLsbD_and, BitVec.getLsbD_not, BitVec.getLsbD_twoPow]
  by_cases hi : i < 64 <;> simp [hi]

/-- The state in which a phase of a barrier has ended (R305). -/
def State.endsPhase (s : State) (t gid i : Nat) : State :=
  let ended (h : Hart) : Hart := if h.group t = gid then h.phaseEnded (barBit t i) else h
  { s with harts := s.harts.map fun e => (e.1, ended e.2), saved := s.saved.map fun e => (e.1, ended e.2),
           barriers := SMap.put s.barriers (barKey gid i) .complete }

theorem checkBarrier_ends (hgather : s.barrier gid i = .gathering) (hall : s.allArrived t gid i = true)
    (hfab : t = 3 → s.level = .s2 ∧ ∀ x ∈ s.members 3 gid, s.isFab x = false) :
    ∃ u, checkBarrier t gid i s = .ok () u ∧ u.barrier gid i = .complete ∧
      ∀ x ∈ u.harts, x.2.groups.getD t 0 = gid → x.2.pend.getLsbD (16 * t + i) = false := by
  have hheld : ¬(t = 3 ∧ (s.level ≠ .s2 ∨ (s.members t gid).any s.isFab = true)) := by
    rintro ⟨rfl, hno⟩
    obtain ⟨hlevel, hpart⟩ := hfab rfl
    rcases hno with hno | hno
    · exact hno hlevel
    · obtain ⟨x, hx, hyes⟩ := List.any_eq_true.mp hno
      rw [hpart x hx] at hyes
      exact Bool.false_ne_true hyes
  refine ⟨s.endsPhase t gid i, ?_, ?_, fun x hx hgid => ?_⟩
  · simp only [checkBarrier, run_bind, run_get, if_pos (And.intro hgather (And.intro hall hheld)), endPhase, mapHarts, run_modify]
    rfl
  · rw [State.barrier, State.endsPhase, SMap.get?_put_self]
    rfl
  · obtain ⟨e, -, rfl⟩ := List.mem_map.mp hx
    dsimp only at hgid ⊢
    by_cases hin : e.2.group t = gid
    · rw [if_pos hin]
      exact pend_phaseEnded _ _
    · rw [if_neg hin] at hgid
      exact absurd hgid hin

end

/-- A part that goes on after one that has succeeded. -/
theorem run_bind_of_ok {α β : Type} {x : M α} {f : α → M β} {a : α} {u : State} (hx : x s = .ok a u) : (x >>= f) s = f a u := by
  rw [run_bind, hx]

theorem launchQueueDoorbell_rings {r : Bell} (hring : doorbell s.curEv.a s.curEv.w.toNat (fun asid => postEvent asid 4 (BitVec.ofNat 64 s.curEv.a) 0 0) s = .ok r s1) :
    exec .launchQueueDoorbell s = .next s1 := by
  refine event_ok ?_
  simp only [run_bind, run_get, hring, run_pure]

theorem kernelDispatch_still (hout : s.inService (16 * s.curEv.a) = false) : exec .kernelDispatch s = .next s := by
  refine event_error (e := .noHart) (s' := s) ?_
  simp only [run_bind, run_get, hout, Bool.not_false, ↓reduceIte, run_impossible]

theorem kernelDispatch_tries {heads : List Head} (hin : s.inService (16 * s.curEv.a) = true)
    (hheads : eachFold (s.contexts.flatMap fun c => (List.range c.2.nq).map (c.2.lq0 + ·)) [] (fun l lq => do
      match ← headOf lq with
      | none => pure l
      | some h => pure (if (diesOf h.r.dmask).headD 0 = s.curEv.a then insertHead h l else l)) s = .ok heads s1)
    (htry : tryHeads s.curEv.a heads s1 = .ok () s2) : exec .kernelDispatch s = .next s2 := by
  refine event_ok ?_
  refine (run_bind _ _ _).trans ?_
  simp only [run_get, hin, Bool.not_true, Bool.false_eq_true, ↓reduceIte]
  exact (run_bind_of_ok hheads).trans htry

/-- A kernel is the part of a fabric kernel that the present event names (R365). -/
def State.namesPart (s : State) (k : Kernel) : Bool := decide (k.asid = s.curEv.a) && decide (k.kid = s.curEv.b) && k.fab

theorem namesPart_iff (x : Kernel) : s.namesPart x = true ↔ x.asid = s.curEv.a ∧ x.kid = s.curEv.b ∧ x.fab = true := by
  simp only [State.namesPart, Bool.and_eq_true, decide_eq_true_eq, and_assoc]

theorem fabPartReport_known (hsome : ∃ x ∈ s.kernels, x.2.asid = s.curEv.a ∧ x.2.kid = s.curEv.b ∧ x.2.fab = true) : exec .fabPartReport s =
    .next { s with kernels := s.kernels.map fun x => if x.2.asid = s.curEv.a ∧ x.2.kid = s.curEv.b ∧ x.2.fab = true then
      (x.1, { x.2 with reports := addNum x.2.reports s.curEv.c }) else x } := by
  have hany : (s.kernels.any fun x => s.namesPart x.2) = true := by
    obtain ⟨x, hx, hmine⟩ := hsome
    exact List.any_eq_true.mpr ⟨x, hx, (namesPart_iff _).mpr hmine⟩
  have hpart : exec .fabPartReport s = .next (if (s.kernels.any fun x => s.namesPart x.2) = true then
      { s with kernels := s.kernels.map fun x => if s.namesPart x.2 then (x.1, { x.2 with reports := addNum x.2.reports s.curEv.c }) else x }
    else { s with early := s.early ++ [(s.curEv.a, s.curEv.b, s.curEv.c)] }) := rfl
  rw [hpart, if_pos hany]
  simp only [namesPart_iff]

theorem fabPartReport_early (hnone : ∀ x ∈ s.kernels, ¬(x.2.asid = s.curEv.a ∧ x.2.kid = s.curEv.b ∧ x.2.fab = true)) : exec .fabPartReport s =
    .next { s with early := s.early ++ [(s.curEv.a, s.curEv.b, s.curEv.c)] } := by
  have hany : ¬(s.kernels.any fun x => s.namesPart x.2) = true := by
    rw [List.any_eq_true]
    rintro ⟨x, hx, hmine⟩
    exact hnone x hx ((namesPart_iff _).mp hmine)
  exact congrArg Host.Outcome.next (if_neg hany)

theorem fabPause_pauses {c : Context} (hc : SMap.get? s.contexts s.curEv.a = some c) (hrun : c.state = .running ∨ c.state = .yielding ∨ c.state = .checkpointing)
    (hpart : ∃ x ∈ s.kernels, x.2.asid = s.curEv.a ∧ x.2.fab = true) (haway : (do
      giveDeadline s.curEv.a s.curEv.b
      checkCollected s.curEv.a) s = .ok () s1) : exec .fabPause s = .next s1 := by
  have hany : (s.kernels.any fun x => x.2.asid == s.curEv.a && x.2.fab) = true := by
    obtain ⟨x, hx, hasid, hfab⟩ := hpart
    exact List.any_eq_true.mpr ⟨x, hx, by rw [hfab, Bool.and_true, beq_iff_eq]; exact hasid⟩
  have hruns : (c.runs || decide (c.state = .yielding)) = true := by
    rw [Context.runs]
    rcases hrun with h | h | h <;> rw [h] <;> rfl
  have haway : sendAway s.curEv.a s.curEv.b s = .ok () s1 := haway
  refine event_ok ?_
  simp only [run_bind, run_get, run_getCtx hc, hany, hruns, Bool.and_self, ↓reduceIte, haway]

theorem fabricBarrierCombine_nobody (hnone : s.members 3 s.curEv.a = []) : exec .fabricBarrierCombine s = .next s := by
  refine event_error (e := .noHart) (s' := s) ?_
  simp only [run_bind, run_get, hnone, List.isEmpty_nil, Bool.true_eq_false, false_and, and_false, ↓reduceIte, run_impossible]

theorem fabricBarrierCombine_ends (hb : s.curEv.b < 16) (hlevel : s.level = .s2) (hgather : s.barrier s.curEv.a s.curEv.b = .gathering)
    (hfab : ∃ x ∈ s.members 3 s.curEv.a, s.isFab x = true) (hreach : s.unreached = []) (hall : s.allArrived 3 s.curEv.a s.curEv.b = true)
    (hend : endPhase 3 s.curEv.a s.curEv.b s = .ok () s1) : exec .fabricBarrierCombine s = .next s1 := by
  have hsome : (s.members 3 s.curEv.a).isEmpty = false := by
    obtain ⟨x, hx, -⟩ := hfab
    rw [List.isEmpty_eq_false_iff]
    exact List.ne_nil_of_mem hx
  refine event_ok ?_
  simp only [run_bind, run_get, hb, hlevel, hsome, hgather, and_self, ↓reduceIte, hreach, ite_self, hall, hend]

end
/-- Settles O52. -/
theorem kernelsGroupsAndBarriers : Obligations.KernelsGroupsAndBarriers := by
  unfold Obligations.KernelsGroupsAndBarriers
  intro s s1 s2 s3 s4 h g rd ra rb sc n t i
  refine ⟨fun hh hst => ⟨?_, ?_, ?_, ?_, ?_, ?_, ?_, ?_, ?_, ?_, ?_, ?_, ?_, ?_, ?_⟩, ?_⟩
  · exact fun hpend hopen => ⟨barr_waits hh hst hpend hopen, bwait_waits hh hst hpend hopen⟩
  · exact fun hpend hclose => ⟨barr_closing hh hst hpend hclose, bwait_closing hh hst hpend hclose⟩
  · exact bwait_passes hh hst
  · intro hpend hsettle hh1 hst1 gid arrived
    refine ⟨barr_arrives hh hst hpend hsettle hh1 hst1, fun hsync hcheck hg hasid hst2 hw => ⟨fun hdone hopen => ?_, fun hdone k hfresh hk => ?_⟩⟩
    · exact bsync_arrives_waits hh hst hpend hsettle hh1 hsync hcheck hg hdone (by rw [hasid]; exact hopen)
    · exact bsync_arrives_passes hh hst hpend hsettle hh1 hsync hcheck hg hdone hfresh hk
  · exact fun hdone k hfresh hk => bsync_passes hh hst hdone hfresh hk
  · intro hdone hpend waited
    refine ⟨fun hopen => ⟨_, bsync_waits hh hst hdone hpend hopen, rfl, ?_⟩, fun hclose k hfresh hk => ?_⟩
    · rw [State.waits, hart_putHart, putHart_curStream, hst]
      rfl
    · cases hends : Config.freeBool s.freeCtr with
      | true =>
        refine ⟨_, bsync_closing_passes hh hst hdone hpend hclose hends hfresh hk, ?_⟩
        dsimp only
        rw [if_pos hends]
      | false =>
        refine ⟨_, bsync_closing_waits hh hst hdone hpend hclose hends, ?_⟩
        dsimp only
        rw [if_neg (ne_true_of_eq_false hends)]
        refine ⟨rfl, ?_⟩
        rw [State.waits, hart_putHart, decided_putHart, putHart_curStream]
        rw [show s.decided.curStream = .x from hst]
        rfl
  · exact fun w hdone => gsplit_done hh hst hdone
  · intro hnone tier good
    have hiff : good ↔
        ¬(bitsOf (h.sreg .x ra).toNat 0 3 = 0 ∨ 4 ≤ bitsOf (h.sreg .x ra).toNat 0 3 ∨ bitsOf (h.sreg .x ra).toNat 3 5 ≠ 0) := by
      rw [bitsOf_eq_div _ 3, bitsOf_zero]
      exact ⟨fun hg => by omega, fun hg => by omega⟩
    refine ⟨fun hbad => gsplit_bad hh hst hnone (not_not.mp (hiff.not.mp hbad)), fun hgood harr => ?_, fun hgood harr hcheck hg hasid hst1 hw => ?_⟩
    · have harr' : h.arrival.isSome = true := Option.isSome_iff_ne_none.mpr harr
      exact ⟨gsplit_waits hh hst hnone (hiff.mp hgood) harr', gsplit_closing hh hst hnone (hiff.mp hgood) harr'⟩
    · rw [← bitsOf_eq_div] at hcheck
      exact ⟨fun hno hopen => gsplit_arrives_waits hh hst hnone (hiff.mp hgood) harr hcheck hg hno (by rw [hasid]; exact hopen), fun w hdone =>
        gsplit_arrives_done hh hst hnone (hiff.mp hgood) harr hcheck hg hst1 hdone⟩
  · exact fun ht => ktrig_triggers hst (run_trigger_done hh ht) hh
  · intro ht hsettle hg
    rw [ktrig_triggers hst (run_trigger hh ht hsettle hg) (hart_putHart _ _), State.retired, putHart_putHart, putHart_curStream]
    rfl
  · intro u k hu hstu hwu left
    refine ⟨rfl, fun k1 hdrain hk hst1 hw1 => ?_⟩
    have htrig : trigger s = .ok () u ∧ u.hart = some k := by
      by_cases ht : h.triggered = true
      · rw [if_pos ht] at hu
        obtain ⟨rfl, rfl⟩ := hu
        exact ⟨run_trigger_done hh ht, hh⟩
      · rw [if_neg ht] at hu
        obtain ⟨u0, k0, hsettle, hk0, rfl, rfl⟩ := hu
        exact ⟨run_trigger hh (Bool.eq_false_iff.mpr ht) hsettle hk0, hart_putHart _ _⟩
    obtain ⟨htrig, hk0⟩ := htrig
    refine ⟨fun hno => ?_, fun hclear => ?_⟩
    · exact hend_unsettled hst htrig hk0 hdrain hk (Bool.eq_true_of_not_eq_false (unsettled_iff.not.mpr hno))
    · exact ⟨hend_transfers hst htrig hk0 hdrain (unsettled_iff.mpr hclear) hk, hend_ends hst htrig hk0 hdrain (unsettled_iff.mpr hclear) hk⟩
  · exact fun hlive => claim_misaligned hst hh hlive
  · intro hlive hal hfree m taken answers
    have htakes (x : Nat) : taken x = h.takes (h.sreg .x rb) x := by
      rw [Hart.takes, bitsOf_eq_div, bitsOf_zero]
    refine ⟨fun core off hp hblock hl hsound hspill hu => ?_, fun hsettle hh1 hst1 old k hclaim hfresh hk hst3 => ?_⟩
    · obtain ⟨x, hx, hmem, hhart, hlow, hrest⟩ := claim_local (rd := rd) (rb := rb) hst hh hlive hal hfree hp hblock hl hsound hspill hu
      refine ⟨x, hx, hmem, ?_, ?_, hrest⟩
      · rw [hhart, ← htakes]
        rfl
      · rw [hlow, ← htakes]
    · have hclaim : (s1.actor h .x).claimBlock (h.sreg .x ra) (h.takes (h.sreg .x rb)) s1 = .ok old s2 := by
        rw [← funext htakes]
        exact hclaim
      rw [claim_claims hst hh hlive hal hfree hsettle hh1 hst1 hclaim hfresh hk hst3, ← htakes]
      rfl
  · exact klaunch_misaligned hst hh
  · intro hal hfree j w c hj hw hh2 hst2 hc answers
    refine ⟨fun hbeyond k hk => ?_, fun hin hq k hk => ?_, fun hin hq hnone k hk => klaunch_disabled hst hh hal hfree hj hw hh2 (by omega) hc (by omega) hnone hk,
      fun q r hin hq hsome hring k hk => klaunch_rings hst hh hal hfree hj hw hh2 (by omega) hc (by omega) hsome hring hk⟩
    · cases hh2.symm.trans hk
      exact klaunch_beyond hst hh hal hfree hj hw hh2 hbeyond
    · cases hh2.symm.trans hk
      exact klaunch_noQueue hst hh hal hfree hj hw hh2 (by omega) hc hq
  · exact ⟨fun gid k _ hgather hall hfab => checkBarrier_ends hgather hall hfab, fun r hring => launchQueueDoorbell_rings hring, kernelDispatch_still,
      fun hin heads hheads htry => kernelDispatch_tries hin hheads htry, fabPartReport_known, fabPartReport_early,
      fun c hc hrun hpart haway => fabPause_pauses hc hrun hpart haway, fabricBarrierCombine_nobody, fabricBarrierCombine_ends⟩

end Sys2Proof.Machine
end

section
/-! The walk of the tables and the conditions of an access, in the order of R385 (R205 to R208, R385). -/

namespace Sys2Proof.Machine

section
variable {s : State} {h : Hart} {c : Context} {va : Nat} {root table e k : Nat}

/-! ### Walks -/

/-- The levels of a walk from its k-th step on (R205). -/
def levelsFrom (k : Nat) : List Nat := [3, 2, 1, 0].drop k

theorem levelsFrom_eq (hk : k < 4) : levelsFrom k = (3 - k) :: levelsFrom (k + 1) := by
  obtain rfl | rfl | rfl | rfl : k = 0 ∨ k = 1 ∨ k = 2 ∨ k = 3 := by omega
  all_goals rfl

/-- The address of the entry that a walk reads at its k-th step (R205). -/
def entryAt (table va k : Nat) : Nat := table + va / 2 ^ (46 - 10 * k) % 2 ^ 10 * 16

theorem entryAt_eq (hk : k < 4) : table + bitsOf va (16 + 10 * (3 - k)) 10 * 16 = entryAt table va k := by
  rw [bitsOf_eq_div, show 16 + 10 * (3 - k) = 46 - 10 * k by omega, entryAt]

theorem testBits_of_mod {r : Nat} (hmod : e % 4 = r) : e.testBit 0 = r.testBit 0 ∧ e.testBit 1 = r.testBit 1 := by
  have hb (i : Nat) (hi : i < 2) : (e % 2 ^ 2).testBit i = e.testBit i := by
    rw [Nat.testBit_mod_two_pow, decide_eq_true hi, Bool.true_and]
  rw [show (4 : Nat) = 2 ^ 2 from rfl] at hmod
  rw [← hb 0 (by decide), ← hb 1 (by decide), hmod]
  exact ⟨rfl, rfl⟩

theorem bit_of_even (hmod : e % 2 = 0) : e.testBit 0 = false := by
  rw [Nat.testBit_zero, hmod]
  rfl

theorem bits_of_table (hmod : e % 4 = 1) : e.testBit 0 = true ∧ e.testBit 1 = false := testBits_of_mod hmod

theorem bits_of_leaf (hmod : e % 4 = 3) : e.testBit 0 = true ∧ e.testBit 1 = true := testBits_of_mod hmod

section
variable (hk : k < 4) (path : List Nat)
include hk

theorem run_walkFrom_poisoned (hin : entryAt table va k < hbmEnd) (hbad : s.poisoned (entryAt table va k) 16 = true) :
    walkFrom va (levelsFrom k) table path s = .ok .uncorrectable s := by
  rw [levelsFrom_eq hk]
  simp only [walkFrom, entryAt_eq hk, inHbm, hin, decide_true, Bool.true_or, Bool.not_true, Bool.false_eq_true, ↓reduceIte, run_bind, run_get, hbad, run_pure]

section
variable (he : s.entry (entryAt table va k) e)
include he

theorem run_walkFrom_noPath (hmod : e % 2 = 0) : walkFrom va (levelsFrom k) table path s = .ok .noPath s := by
  obtain ⟨hin, hsound, hread⟩ := he
  rw [levelsFrom_eq hk]
  simp only [walkFrom, entryAt_eq hk, inHbm, hin, decide_true, Bool.true_or, Bool.not_true, Bool.false_eq_true, ↓reduceIte, run_bind, run_get, hsound, hread,
    bit_of_even hmod, run_pure]

section
variable (hmod : e % 4 = 1)
include hmod

theorem run_walkFrom_badTable (hbad : 3 - k = 0 ∨ bitsOf e 2 12 ≠ 0 ∨ bitsOf e 52 76 ≠ 0) :
    walkFrom va (levelsFrom k) table path s = .ok .invalid s := by
  obtain ⟨hin, hsound, hread⟩ := he
  obtain ⟨h0, h1⟩ := bits_of_table hmod
  rw [levelsFrom_eq hk]
  simp only [walkFrom, entryAt_eq hk, inHbm, hin, decide_true, Bool.true_or, Bool.not_true, Bool.false_eq_true, ↓reduceIte, run_bind, run_get, hsound, hread,
    h0, h1, Bool.true_eq_false, if_pos hbad, run_pure]

theorem run_walkFrom_table (hgood : ¬(3 - k = 0 ∨ bitsOf e 2 12 ≠ 0 ∨ bitsOf e 52 76 ≠ 0)) :
    walkFrom va (levelsFrom k) table path s =
      walkFrom va (levelsFrom (k + 1)) (bitsOf e 14 38 * 2 ^ 14) (entryAt table va k :: path) s := by
  obtain ⟨hin, hsound, hread⟩ := he
  obtain ⟨h0, h1⟩ := bits_of_table hmod
  rw [levelsFrom_eq hk]
  simp only [walkFrom, entryAt_eq hk, inHbm, hin, decide_true, Bool.true_or, Bool.not_true, Bool.false_eq_true, ↓reduceIte, run_bind, run_get, hsound, hread,
    h0, h1, Bool.true_eq_false, if_neg hgood]

end

section
variable (hmod : e % 4 = 3)
include hmod

theorem run_walkFrom_badLeaf (hbad : ¬(3 - k = 1 ∧ bitsOf e 2 2 = 2 ∨ 3 - k = 0 ∧ bitsOf e 2 2 < 2)) :
    walkFrom va (levelsFrom k) table path s = .ok .invalid s := by
  obtain ⟨hin, hsound, hread⟩ := he
  obtain ⟨h0, h1⟩ := bits_of_leaf hmod
  rw [levelsFrom_eq hk]
  simp only [walkFrom, entryAt_eq hk, inHbm, hin, decide_true, Bool.true_or, Bool.not_true, Bool.false_eq_true, ↓reduceIte, run_bind, run_get, hsound, hread,
    h0, h1, Bool.true_eq_false, if_neg hbad, run_pure]

theorem run_walkFrom_leaf {ok : Bool} {u : State} (hgood : 3 - k = 1 ∧ bitsOf e 2 2 = 2 ∨ 3 - k = 0 ∧ bitsOf e 2 2 < 2)
    (hvalid : leafValid (Leaf.of (entryAt table va k) (entryAt table va k :: path) e) s = .ok ok u) :
    walkFrom va (levelsFrom k) table path s =
      .ok (if ok then .leaf (Leaf.of (entryAt table va k) (entryAt table va k :: path) e) else .invalid) u := by
  obtain ⟨hin, hsound, hread⟩ := he
  obtain ⟨h0, h1⟩ := bits_of_leaf hmod
  rw [levelsFrom_eq hk]
  simp only [walkFrom, entryAt_eq hk, inHbm, hin, decide_true, Bool.true_or, Bool.not_true, Bool.false_eq_true, ↓reduceIte, run_bind, run_get, hsound, hread,
    h0, h1, Bool.true_eq_false, if_pos hgood, hvalid, run_pure]

end
end
end

/-- A walk that has reached a table goes on from there (R205). -/
theorem walk_reaches (hk : k < 4) (ht : s.tableAt root va k table) : ∃ path, walk root va s = walkFrom va (levelsFrom k) table path s := by
  induction k generalizing table with
  | zero =>
    rw [State.tableAt] at ht
    exact ⟨[], by rw [ht]; rfl⟩
  | succ k ih =>
    obtain ⟨u, e, hu, he, hmod, hlow, hhigh, rfl⟩ := ht
    obtain ⟨path, hpath⟩ := ih (by omega) hu
    refine ⟨entryAt u va k :: path, hpath.trans ?_⟩
    rw [run_walkFrom_table (by omega) path he hmod, bitsOf_eq_div]
    rw [bitsOf_eq_div, bitsOf_eq_div]
    omega

/-! ### Frames and their records -/

section
variable {frame p hft r : Nat}

/-- A frame record as its entry gives it (R211). -/
def FrameRec.ofEntry (addr e : Nat) : FrameRec :=
  { addr := addr, key := bitsOf e 116 9, owner := bitsOf e 64 52, moving := e.testBit 51, frozen := e.testBit 50
    evictable := e.testBit 49, pins := bitsOf e 32 16, count := bitsOf e 0 32
    valid := bitsOf e 125 3 = 0 ∧ bitsOf e 52 12 = 0 ∧ e.testBit 48 = false }

theorem inCxl_iff : inCxl frame = true ↔ 2 ^ 48 ≤ frame ∧ frame < 2 ^ 48 + 2 ^ 44 := by
  rw [inCxl, Bool.and_eq_true, decide_eq_true_eq, decide_eq_true_eq]
  exact Iff.rfl

theorem inPeer_iff : inPeer frame = true ↔ 2 ^ 51 ≤ frame ∧ frame < 2 ^ 51 + 2 ^ 49 := by
  rw [inPeer, Bool.and_eq_true, decide_eq_true_eq, decide_eq_true_eq]
  exact Iff.rfl

theorem inHbm_iff : inHbm frame = true ↔ frame < hbmEnd := decide_eq_true_iff

theorem hbmEnd_eq : hbmEnd = 412316860416 := rfl

theorem not_inCxl_of_hbm (hf : frame < hbmEnd) : inCxl frame = false := by
  rw [Bool.eq_false_iff, ne_eq, inCxl_iff]
  rw [hbmEnd_eq] at hf
  omega

theorem not_inPeer_of_hbm (hf : frame < hbmEnd) : inPeer frame = false := by
  rw [Bool.eq_false_iff, ne_eq, inPeer_iff]
  rw [hbmEnd_eq] at hf
  omega

/-- The record of a frame in HBM4E is read from the frame table (R211, R213). -/
theorem run_frameRec_recorded {u : State} (hf : frame < hbmEnd) (hp : s.pcb = some p) (hhft : hwRead p 8 s = .ok hft s)
    (hr : hwRead (hft + frame / 2 ^ 16 * 16) 16 s = .ok r u) :
    frameRec frame s = .ok (some (FrameRec.ofEntry (hft + frame / 2 ^ 16 * 16) r)) u := by
  have hhft : hwRead (p + 0) 8 s = .ok hft s := hhft
  simp only [frameRec, frameRecAddr, inHbm_iff.mpr hf, ↓reduceIte, run_bind, pcbWord, run_get, hp, hhft, run_pure, Option.map_some, hr]
  rfl

theorem run_frameRec_none (hf : frame < hbmEnd) (hp : s.pcb = none) : frameRec frame s = .ok none s := by
  simp only [frameRec, frameRecAddr, inHbm_iff.mpr hf, ↓reduceIte, run_bind, pcbWord, run_get, hp, run_pure, Option.map_none]

theorem run_frameRec_cxl (hf : hbmEnd ≤ frame) (hin : inCxl frame = true) (hp : s.pcb = none) : frameRec frame s = .ok none s := by
  have hout : inHbm frame = false := decide_eq_false (Nat.not_lt.mpr hf)
  simp only [frameRec, frameRecAddr, hout, Bool.false_eq_true, hin, ↓reduceIte, run_bind, pcbWord, run_get, hp, run_pure, Option.getD_none, Nat.not_lt_zero]

theorem run_frameRec_outside (hf : hbmEnd ≤ frame) (hout : inCxl frame = false) : frameRec frame s = .ok none s := by
  have hhbm : inHbm frame = false := decide_eq_false (Nat.not_lt.mpr hf)
  simp only [frameRec, frameRecAddr, hhbm, Bool.false_eq_true, hout, ↓reduceIte, run_bind, run_pure]

theorem run_frameMapped_hbm (hf : frame < hbmEnd) : frameMapped frame s = .ok true s := by
  simp only [frameMapped, inHbm_iff.mpr hf, ↓reduceIte, run_pure]

theorem run_frameMapped_cxl (hf : hbmEnd ≤ frame) (hin : inCxl frame = true) (hp : s.pcb = none) : frameMapped frame s = .ok true s := by
  have hhbm : inHbm frame = false := decide_eq_false (Nat.not_lt.mpr hf)
  simp only [frameMapped, hhbm, Bool.false_eq_true, hin, ↓reduceIte, run_bind, pcbWord, run_get, hp, run_pure]

theorem run_frameMapped_outside (hf : hbmEnd ≤ frame) (hout : inCxl frame = false) :
    frameMapped frame s = .ok (inPeer frame && decide ((frame - 2 ^ 51) % 2 ^ 40 < hbmEnd)) s := by
  have hhbm : inHbm frame = false := decide_eq_false (Nat.not_lt.mpr hf)
  cases hpeer : inPeer frame with
  | true =>
    simp only [frameMapped, hhbm, Bool.false_eq_true, hout, hpeer, ↓reduceIte, run_pure, Bool.true_and]
    rfl
  | false => simp only [frameMapped, hhbm, Bool.false_eq_true, hout, hpeer, ↓reduceIte, run_pure, Bool.false_and]

end

/-! ### Valid leaves -/

section
variable {l : Leaf}

/-- The fields of a leaf entry are as R206 and R363 have them, its frame and the frame's record left aside. -/
def Leaf.shaped (l : Leaf) : Prop :=
  bitsOf l.raw 116 12 = 0 ∧ bitsOf l.raw 52 12 = 0 ∧ bitsOf l.raw 4 2 = 0 ∧ l.tier ≤ 4 ∧ l.frame % l.size = 0 ∧
    ¬(l.size ≠ 2 ^ 16 ∧ (l.o = true ∨ l.tier ≠ 0)) ∧ (if l.o = true then l.ovr % 64 = 0 ∧ inHbm l.ovr = true else l.ovr = 0) ∧
    ¬(inPeer l.frame = true ∧ (l.tier ≠ 0 ∨ l.o = true ∨ l.z = true))

theorem run_leafValid_unshaped (hl : ¬l.shaped) : leafValid l s = .ok false s := by
  rw [Leaf.shaped] at hl
  simp only [leafValid, if_neg hl, run_pure]

theorem run_leafValid_unmapped (hm : frameMapped l.frame s = .ok false s) : leafValid l s = .ok false s := by
  by_cases hl : l.shaped
  · rw [Leaf.shaped] at hl
    simp only [leafValid, if_pos hl, run_bind, hm, Bool.false_eq_true, ↓reduceIte, run_pure]
  · exact run_leafValid_unshaped hl

/-- What the record of its frame says of a leaf (R207, R211, R213). -/
def Leaf.recordSays (l : Leaf) : Option FrameRec → Bool
  | none => decide (l.tier ≤ 2)
  | some r => r.valid && (decide (l.tier ≤ 2) || r.moving)

theorem run_leafValid_mapped {r : Option FrameRec} {u : State} (hl : l.shaped) (hm : frameMapped l.frame s = .ok true s) (hr : frameRec l.frame s = .ok r u) :
    leafValid l s = .ok (l.recordSays r) u := by
  rw [Leaf.shaped] at hl
  simp only [leafValid, if_pos hl, run_bind, hm, ↓reduceIte, hr]
  cases r <;> rfl

/-- A leaf whose frame's record speaks against it is invalid, whatever its shape. -/
theorem run_leafValid_refused {r : Option FrameRec} (hf : l.frame < hbmEnd) (hr : frameRec l.frame s = .ok r s) (hno : l.recordSays r = false) :
    leafValid l s = .ok false s := by
  by_cases hl : l.shaped
  · rw [run_leafValid_mapped hl (run_frameMapped_hbm hf) hr, hno]
  · exact run_leafValid_unshaped hl

end

/-! ### The conditions of an access -/

section
variable {q : Req} {l : Leaf} {u : State}

/-- What a leaf lets a kind of access do (R207). -/
def Leaf.lets (l : Leaf) : Kind → Bool
  | .load => l.r
  | .store => l.w
  | .fetch => l.x

/-- The permissions of a leaf admit an access (R207). -/
def Leaf.admits (l : Leaf) (q : Req) : Bool := l.lets q.kind && (!q.user || l.u)

theorem run_lookup_noPath (hw : walk q.root q.va.toNat s = .ok .noPath u) : lookup q s = .error (.trap q.kind.cause q.va 0 false) u := by
  simp only [lookup, run_bind, hw, Req.fault, run_trap]

theorem run_lookup_invalid (hw : walk q.root q.va.toNat s = .ok .invalid u) : lookup q s = .error (.trap q.kind.cause q.va 4 false) u := by
  simp only [lookup, run_bind, hw, Req.fault, run_trap]

theorem run_lookup_uncorrectable (hw : walk q.root q.va.toNat s = .ok .uncorrectable u) : lookup q s = .error (.trap q.kind.badData q.va 0 false) u := by
  simp only [lookup, run_bind, hw, run_trap]

variable (hw : walk q.root q.va.toNat s = .ok (.leaf l) s)
include hw

theorem run_lookup_denied (hno : l.admits q = false) : lookup q s = .error (.trap q.kind.cause q.va 0 false) s := by
  have hdeny : (!(l.lets q.kind) || (q.user && !l.u)) = true := by
    rw [Leaf.admits] at hno
    cases hl : l.lets q.kind <;> cases hu : q.user <;> cases hlu : l.u <;> simp_all
  simp only [lookup, run_bind, hw]
  exact congrFun (if_pos hdeny) s

section
variable (hyes : l.admits q = true)
include hyes

/-- An access that the permissions of its leaf admit meets its key slot next (R385). -/
theorem run_lookup_admitted : lookup q s = (do
    let s ← get
    if (s.keyOf q.key).isNone then trap 0x15 q.va
    else
      let port ←
        if inPeer l.frame then
          match s.level, s.fabric[(peerOf l.frame).1]? with
          | .s2, none => q.fault 0
          | .s2, some e => if !e.valid then q.fault 0 else pure (s.peerReached e)
          | _, _ => pure true
        else if inCxl l.frame && (l.tier ≠ 2 || s.level == .s2) then pure ((s.cxl.getD (cxlPort l.frame) .untrained) == .up)
        else pure true
      if !port then q.fault 13
      else match q.z with
        | none => pure l
        | some z => if l.z = z then pure l else q.fault 1 : M Leaf) s := by
  have hdeny : ¬(!(l.lets q.kind) || (q.user && !l.u)) = true := by
    rw [Leaf.admits] at hyes
    cases hl : l.lets q.kind <;> cases hu : q.user <;> cases hlu : l.u <;> simp_all
  rw [lookup, run_bind, hw]
  exact congrFun (if_neg hdeny) s

theorem run_lookup_noKey (hk : s.keyOf q.key = none) : lookup q s = .error (.trap 0x15 q.va 0 false) s := by
  rw [run_lookup_admitted hw hyes]
  simp only [run_bind, run_get, hk, Option.isNone_none, ↓reduceIte, run_trap]

section
variable (hk : s.keyOf q.key ≠ none)
include hk

omit hw hyes in
theorem key_present : ¬(s.keyOf q.key).isNone = true := by
  rw [Option.isNone_iff_eq_none]
  exact hk

theorem run_lookup_portDown (hpeer : inPeer l.frame = false) (hcxl : inCxl l.frame = true) (hlevel : l.tier = 2 → s.level = .s2)
    (hdown : s.cxl.getD (cxlPort l.frame) .untrained ≠ .up) : lookup q s = .error (.trap q.kind.cause q.va 13 false) s := by
  have hmeets : (inCxl l.frame && (l.tier ≠ 2 || s.level == .s2)) = true := by
    rw [hcxl, Bool.true_and]
    by_cases ht : l.tier = 2
    · rw [hlevel ht, beq_self_eq_true, Bool.or_true]
    · rw [decide_eq_true ht, Bool.true_or]
  have hport : (s.cxl.getD (cxlPort l.frame) .untrained == .up) = false := beq_eq_false_iff_ne.mpr hdown
  rw [run_lookup_admitted hw hyes]
  simp only [run_bind, run_get, if_neg (key_present hk), hpeer, Bool.false_eq_true, hmeets, ↓reduceIte, run_pure, hport, Bool.not_false, Req.fault, run_trap]

theorem run_lookup_peerInvalid (hpeer : inPeer l.frame = true) (hlevel : s.level = .s2)
    (hnone : ∀ x, s.fabric[(peerOf l.frame).1]? = some x → x.valid = false) : lookup q s = .error (.trap q.kind.cause q.va 0 false) s := by
  rw [run_lookup_admitted hw hyes]
  cases hx : s.fabric[(peerOf l.frame).1]? with
  | none => simp only [run_bind, run_get, if_neg (key_present hk), hpeer, ↓reduceIte, hlevel, hx, Req.fault, run_trap]
  | some x =>
    simp only [run_bind, run_get, if_neg (key_present hk), hpeer, ↓reduceIte, hlevel, hx, hnone x hx, Bool.not_false, Req.fault, run_trap]

theorem run_lookup_peerUnreached {x : FabEntry} (hpeer : inPeer l.frame = true) (hlevel : s.level = .s2) (hx : s.fabric[(peerOf l.frame).1]? = some x)
    (hvalid : x.valid = true) (hno : s.peerReached x = false) : lookup q s = .error (.trap q.kind.cause q.va 13 false) s := by
  rw [run_lookup_admitted hw hyes]
  simp only [run_bind, run_get, if_neg (key_present hk), hpeer, ↓reduceIte, hlevel, hx, hvalid, Bool.not_true, Bool.false_eq_true, run_pure, hno, Bool.not_false,
    Req.fault, run_trap]

section
variable (hf : l.frame < hbmEnd) {z : Bool} (hz : q.z = some z)
include hf hz

theorem run_lookup_wrongZ (hno : l.z ≠ z) : lookup q s = .error (.trap q.kind.cause q.va 1 false) s := by
  rw [run_lookup_admitted hw hyes]
  simp only [run_bind, run_get, if_neg (key_present hk), not_inPeer_of_hbm hf, not_inCxl_of_hbm hf, Bool.false_and, Bool.false_eq_true, ↓reduceIte, run_pure,
    Bool.not_true, hz, if_neg hno, Req.fault, run_trap]

theorem run_lookup_hbm (hyesz : l.z = z) : lookup q s = .ok l s := by
  rw [run_lookup_admitted hw hyes]
  simp only [run_bind, run_get, if_neg (key_present hk), not_inPeer_of_hbm hf, not_inCxl_of_hbm hf, Bool.false_and, Bool.false_eq_true, ↓reduceIte, run_pure,
    Bool.not_true, hz, if_pos hyesz]

end
end
end
end

/-! ### Where an access goes -/

section
variable {q : Req} {l : Leaf} {u : State} {fk : Nat} (hfk : frameKey q.key (l.frame + q.va.toNat % l.size / 2 ^ 16 * 2 ^ 16) s = .ok fk u)
include hfk

theorem run_resolve_inconsistent {o : Overlay} {v : State} (hover : l.o = true) (hread : readOverlay l.ovr u = .ok o v) (hbad : o.consistent = false) :
    resolve q l s = .error (.trap q.kind.cause q.va 4 false) v := by
  simp only [resolve, run_bind, hfk, hover, ↓reduceIte, hread, hbad, Bool.not_false, Req.fault, run_trap]

variable (hplain : l.o = false)
include hplain

theorem run_resolve_error {e : Stop} {v : State} (hbase : baseTarget q l u = .error e v) : resolve q l s = .error e v := by
  simp only [resolve, run_bind, hfk, hplain, Bool.false_eq_true, ↓reduceIte, hbase]

theorem run_resolve_base {b : Loc} {v : State} (hbase : baseTarget q l u = .ok b v) : resolve q l s =
    .ok { loc := b, key := v.targetKey q l, overlay := false, garbled := (decide (fk ≠ q.key) && !inPeer l.frame) || b.isNowhere } v := by
  simp only [resolve, run_bind, hfk, hplain, Bool.false_eq_true, ↓reduceIte, hbase, run_get, run_pure]

end

section
variable {q : Req} {l : Leaf}

theorem run_baseTarget_promotes (ht : l.tier = 2) : baseTarget q l s = .error (.trap 0x0D q.va 0 false) s := by
  simp only [baseTarget, run_bind, run_get, if_pos ht, run_trap]

theorem run_baseTarget_storeWaits (ht : 3 ≤ l.tier) (hk : q.kind = .store) : baseTarget q l s = .error (.wait .move false) s := by
  have ht2 : ¬l.tier = 2 := by omega
  simp only [baseTarget, run_bind, run_get, if_neg ht2, hk, decide_eq_true ht, Bool.true_and, ↓reduceIte, run_waitFor]

theorem run_baseTarget_loadWaits (ht : l.tier = 3) (hno : ∀ m ∈ s.moves, m.leaf ≠ l.addr) (hk : q.kind = .load) :
    baseTarget q l s = .error (.wait .move false) s := by
  have ht2 : ¬l.tier = 2 := by omega
  have hmove : (s.moves.any fun m => decide (m.leaf = l.addr) && decide (m.oldTier = 1)) = false := by
    rw [List.any_eq_false]
    intro m hm
    rw [decide_eq_false (hno m hm), Bool.false_and]
    exact Bool.false_ne_true
  have ht3 : decide (3 ≤ l.tier) = true := decide_eq_true (by omega)
  simp only [baseTarget, run_bind, run_get, if_neg ht2, hk, ht3, decide_eq_true ht, hmove, Bool.true_and, Bool.not_false, ↓reduceIte, run_waitFor]

theorem run_baseTarget_hbm (ht : l.tier = 0) (hf : l.frame < hbmEnd) (hsound : s.spoils l.addr l.frame = false) :
    baseTarget q l s = .ok (.pa (l.frame + q.va.toNat % l.size)) s := by
  have ht2 : ¬l.tier = 2 := by omega
  have ht3 : (decide (3 ≤ l.tier)) = false := decide_eq_false (by omega)
  simp only [baseTarget, run_bind, run_get, if_neg ht2, ht3, Bool.false_and, Bool.false_eq_true, ↓reduceIte, not_inPeer_of_hbm hf, hsound, run_pure]

end
/-! ### Accesses of a hart's stream -/

/-- An access of a hart, as translation sees it (R207). -/
def Context.request (c : Context) (h : Hart) (kind : Kind) (va : Word64) : Req :=
  { root := c.root, key := c.key, user := decide (h.priv = .u), kind := kind, va := va, z := some false, dry := false }

section
variable {kind : Kind} {va : Word64} {n : Nat} {u : State} {e : Stop} (hc : SMap.get? s.contexts h.asid = some c) (hlow : va.toNat < windowBase)
include hc hlow

theorem run_find_translated : (s.actor h s.curStream).find kind va n (some false) false s = (do
    let l ← lookup (c.request h kind va)
    let t ← resolve (c.request h kind va) l
    setA l
    pure { loc := t.loc, key := t.key, path := l.path, overlay := t.overlay, garbled := t.garbled } : M Place) s := by
  have hbase : windowBase < 2 ^ 56 := by decide
  have hbig : ¬2 ^ 56 ≤ va.toNat := by omega
  have hout : ¬inWindow va = true := by
    rw [inWindow, Bool.and_eq_true, decide_eq_true_eq]
    exact fun hin => absurd hin.1 (Nat.not_le.mpr hlow)
  have hreq : (s.actor h s.curStream).req kind va (some false) false s = .ok (c.request h kind va) s := by
    have hasid : (s.actor h s.curStream).asid = h.asid := rfl
    simp only [Actor.req, run_bind, run_get, hasid, hc, run_pure]
    rfl
  simp only [Actor.find, if_neg hbig, if_neg hout, run_bind, hreq]

theorem run_find_lookup (hl : lookup (c.request h kind va) s = .error e u) : (s.actor h s.curStream).find kind va n (some false) false s = .error e u := by
  rw [run_find_translated hc hlow]
  simp only [run_bind, hl]

theorem run_find_resolve {l : Leaf} {v : State} (hl : lookup (c.request h kind va) s = .ok l v) (hr : resolve (c.request h kind va) l v = .error e u) :
    (s.actor h s.curStream).find kind va n (some false) false s = .error e u := by
  rw [run_find_translated hc hlow]
  simp only [run_bind, hl, hr]

end

section
variable {kind : Kind} {va : Word64} {u : State} {e : Stop} (hu : s.undisturbed h)
include hu

theorem run_place_find_error {n : Nat} (hf : (s.actor h s.curStream).find kind va n (some false) false s = .error e u) :
    (s.actor h s.curStream).place kind va n (some false) false s = .error e u := by
  by_cases hk : kind = .fetch
  · simp only [Actor.place, if_pos hk, run_bind, hf]
  · simp only [Actor.place, if_neg hk, run_bind, run_observe_of_undisturbed hu, hf]

end

section
variable {rd ra : SReg} {disp : BitVec 9} {u : State}

/-- An access of a kind to the address of a load and a store raises a cause (R207, R385). -/
def State.raises (s : State) (h : Hart) (rd ra : SReg) (disp : BitVec 9) (kind : Kind) (cause : BitVec 8) (sub : BitVec 5) : Prop :=
  match kind with
  | .load => exec (.ldMd rd ra disp true) s = .next (s.trapped cause (h.addrMd s.curStream ra disp) sub)
  | .store => exec (.sdMd rd ra disp) s = .next (s.trapped cause (h.addrMd s.curStream ra disp) sub)
  | .fetch => ∃ u, fetchHome (s.actor h s.curStream) (h.addrMd s.curStream ra disp) s = .error (.trap cause (h.addrMd s.curStream ra disp) sub false) u

variable (hh : s.hart = some h) (hu : s.undisturbed h) (hal : (h.addrMd s.curStream ra disp).toNat % 8 = 0)
  (hload : s.free h (h.addrMd s.curStream ra disp) 8 false) (hstore : s.free h (h.addrMd s.curStream ra disp) 8 true)
include hh hu hal hload hstore

theorem raises_of_find {kind : Kind} {cause : BitVec 8} {sub : BitVec 5}
    (hf : ∀ n, (s.actor h s.curStream).find kind (h.addrMd s.curStream ra disp) n (some false) false s =
      .error (.trap cause (h.addrMd s.curStream ra disp) sub false) u) : s.raises h rd ra disp kind cause sub := by
  cases kind with
  | load => exact issue_scalarLoad_trapped hh (run_addrMd hh ra disp) hal hload (run_load_error (run_place_find_error hu (hf 8)))
  | store =>
    refine issue_scalarStore_trapped (s1 := u) hh (run_addrMd hh ra disp) hal hstore ?_
    simp only [Actor.store, run_bind, run_place_find_error hu (hf 8)]
  | fetch =>
    refine ⟨u, ?_⟩
    simp only [fetchHome, run_bind, run_place_find_error hu (hf 4)]

omit hload in
theorem store_waits_of_find (hf : (s.actor h s.curStream).find .store (h.addrMd s.curStream ra disp) 8 (some false) false s = .error (.wait .move false) u) :
    exec (.sdMd rd ra disp) s = .next (s.waits h .move) := by
  refine issue_eq_waits (s' := u) hh ?_ (by decide)
  simp only [scalarStore, run_bind, run_addrMd hh, run_aligned hal, run_interlock_free hh hstore, run_actor hh, run_rS, hh, Actor.store,
    run_place_find_error hu hf]

omit hstore in
theorem load_waits_of_find (hf : (s.actor h s.curStream).find .load (h.addrMd s.curStream ra disp) 8 (some false) false s = .error (.wait .move false) u) :
    exec (.ldMd rd ra disp true) s = .next (s.waits h .move) := by
  refine issue_eq_waits (s' := u) hh ?_ (by decide)
  simp only [scalarLoad, run_bind, run_addrMd hh, run_aligned hal, run_interlock_free hh hload, run_actor hh, run_load_error (run_place_find_error hu hf)]

end
end
end Sys2Proof.Machine
end

section
/-! Leaf entries, and what a load, a store and a fetch through one do (R206 to R208, R217, R385). -/

namespace Sys2Proof.Machine

/-! ### Leaf entries -/

section
variable {e addr : Nat} {path : List Nat}

/-- The size of the page of a leaf entry (R206). -/
def entrySize (e : Nat) : Nat := if e / 2 ^ 2 % 4 = 0 then 2 ^ 16 else if e / 2 ^ 2 % 4 = 1 then 2 ^ 21 else 2 ^ 30

/-- The frame of a leaf entry (R206). -/
def entryFrame (e : Nat) : Nat := e / 2 ^ 16 % 2 ^ 36 * 2 ^ 16

/-- The tier of a leaf entry (R206). -/
def entryTier (e : Nat) : Nat := e / 2 ^ 13 % 8

/-- The overlay record of a leaf entry (R206). -/
def entryOvr (e : Nat) : Nat := e / 2 ^ 64 % 2 ^ 52

/-- The fields of a leaf entry are as R206 has them. -/
def entryShape (e : Nat) : Prop :=
  e / 2 ^ 116 % 2 ^ 12 = 0 ∧ e / 2 ^ 52 % 2 ^ 12 = 0 ∧ e / 2 ^ 4 % 4 = 0 ∧ entryTier e ≤ 4 ∧ entryFrame e % entrySize e = 0 ∧
    (e / 2 ^ 2 % 4 ≠ 0 → ¬e.testBit 11 = true ∧ entryTier e = 0) ∧ (e.testBit 11 = true → entryOvr e % 64 = 0 ∧ entryOvr e < hbmEnd) ∧
    (¬e.testBit 11 = true → entryOvr e = 0)

theorem leaf_frame : (Leaf.of addr path e).frame = entryFrame e := by
  have hf : (Leaf.of addr path e).frame = bitsOf e 16 36 * 2 ^ 16 := rfl
  rw [hf, bitsOf_eq_div, entryFrame]

theorem leaf_tier : (Leaf.of addr path e).tier = entryTier e := bitsOf_eq_div e 13 3

theorem leaf_ovr : (Leaf.of addr path e).ovr = entryOvr e := bitsOf_eq_div e 64 52

theorem leaf_size : (Leaf.of addr path e).size = entrySize e := by
  have hb : bitsOf e 2 2 = e / 2 ^ 2 % 4 := bitsOf_eq_div e 2 2
  have hs : (Leaf.of addr path e).size = match bitsOf e 2 2 with | 0 => 2 ^ 16 | 1 => 2 ^ 21 | _ => 2 ^ 30 := rfl
  rw [hs, hb, entrySize]
  generalize e / 2 ^ 2 % 4 = x
  match x with
  | 0 => rfl
  | 1 => rfl
  | x + 2 => rfl

theorem entrySize_cases : entrySize e = 2 ^ 16 ∨ entrySize e = 2 ^ 21 ∨ entrySize e = 2 ^ 30 := by
  unfold entrySize
  split
  · exact .inl rfl
  · split
    · exact .inr (.inl rfl)
    · exact .inr (.inr rfl)

theorem entrySize_pos : 0 < entrySize e := by
  rcases entrySize_cases (e := e) with h | h | h <;> rw [h] <;> decide

theorem entrySize_big : entrySize e ≠ 2 ^ 16 ↔ e / 2 ^ 2 % 4 ≠ 0 := by
  unfold entrySize
  generalize e / 2 ^ 2 % 4 = x
  by_cases h0 : x = 0
  · simp [h0]
  · rw [if_neg h0]
    split <;> simp [h0]

theorem leaf_shaped_iff : (Leaf.of addr path e).shaped ↔
    entryShape e ∧ ¬(inPeer (entryFrame e) = true ∧ (entryTier e ≠ 0 ∨ e.testBit 11 = true ∨ e.testBit 12 = true)) := by
  have h116 : bitsOf e 116 12 = e / 2 ^ 116 % 2 ^ 12 := bitsOf_eq_div e 116 12
  have h52 : bitsOf e 52 12 = e / 2 ^ 52 % 2 ^ 12 := bitsOf_eq_div e 52 12
  have h4 : bitsOf e 4 2 = e / 2 ^ 4 % 4 := bitsOf_eq_div e 4 2
  have hraw : (Leaf.of addr path e).raw = e := rfl
  have ho : (Leaf.of addr path e).o = e.testBit 11 := rfl
  have hz : (Leaf.of addr path e).z = e.testBit 12 := rfl
  rw [Leaf.shaped, hraw, ho, hz, leaf_frame, leaf_tier, leaf_ovr, leaf_size, h116, h52, h4, entryShape, inHbm_iff, entrySize_big]
  cases e.testBit 11 <;> simp <;> tauto

/-- The bit of a leaf entry that lets a kind of access go on (R206, R207). -/
def Kind.bit : Kind → Nat
  | .load => 6
  | .store => 7
  | .fetch => 8

theorem leaf_admits_iff {c : Context} {h : Hart} {kind : Kind} {va : Word64} : (Leaf.of addr path e).admits (c.request h kind va) = true ↔
    e.testBit kind.bit = true ∧ (h.priv = .u → e.testBit 9 = true) := by
  have hlets : (Leaf.of addr path e).lets (c.request h kind va).kind = e.testBit kind.bit := by cases kind <;> rfl
  have hu : (Leaf.of addr path e).u = e.testBit 9 := rfl
  have huser : (c.request h kind va).user = decide (h.priv = .u) := rfl
  rw [Leaf.admits, hlets, hu, huser, Bool.and_eq_true, Bool.or_eq_true, Bool.not_eq_true', decide_eq_false_iff_not, ← imp_iff_not_or]

/-- A frame record is sound, and lets its leaf have a tier (R207, R211). -/
def recordSound (tier r : Nat) : Prop := r / 2 ^ 125 % 8 = 0 ∧ r / 2 ^ 52 % 2 ^ 12 = 0 ∧ r.testBit 48 = false ∧ (tier ≤ 2 ∨ r.testBit 51 = true)

theorem recordSays_iff {a r : Nat} : (Leaf.of addr path e).recordSays (some (FrameRec.ofEntry a r)) = true ↔ recordSound (entryTier e) r := by
  have h125 : bitsOf r 125 3 = r / 2 ^ 125 % 8 := bitsOf_eq_div r 125 3
  have h52 : bitsOf r 52 12 = r / 2 ^ 52 % 2 ^ 12 := bitsOf_eq_div r 52 12
  have hv : (FrameRec.ofEntry a r).valid = decide (bitsOf r 125 3 = 0 ∧ bitsOf r 52 12 = 0 ∧ r.testBit 48 = false) := rfl
  have hm : (FrameRec.ofEntry a r).moving = r.testBit 51 := rfl
  rw [Leaf.recordSays, hv, hm, leaf_tier, h125, h52, recordSound, Bool.and_eq_true, Bool.or_eq_true, decide_eq_true_eq, decide_eq_true_eq]
  tauto

/-- A page that begins in HBM4E ends there (R206, R210). -/
theorem page_in_hbm {x : Nat} (hs : entryShape e) (hf : entryFrame e < hbmEnd) (hx : x < entrySize e) : entryFrame e + x < hbmEnd := by
  obtain ⟨-, -, -, -, hal, -⟩ := hs
  rw [hbmEnd_eq] at hf ⊢
  rcases entrySize_cases (e := e) with h | h | h <;> rw [h] at hal hx <;> omega

end

/-! ### Leaves that a walk finds -/

section
variable {s : State} {h : Hart} {c : Context} {va root table e k : Nat} {path : List Nat}

section
variable (hk : k < 4) (he : s.entry (entryAt table va k) e) (hmod : e % 4 = 3) (hsz : k = 2 ∧ e / 2 ^ 2 % 4 = 2 ∨ k = 3 ∧ e / 2 ^ 2 % 4 < 2)
include hk he hmod hsz

theorem run_walkFrom_entry {ok : Bool} {u : State} (hvalid : leafValid (Leaf.of (entryAt table va k) (entryAt table va k :: path) e) s = .ok ok u) :
    walkFrom va (levelsFrom k) table path s =
      .ok (if ok then .leaf (Leaf.of (entryAt table va k) (entryAt table va k :: path) e) else .invalid) u := by
  have hb : bitsOf e 2 2 = e / 2 ^ 2 % 4 := bitsOf_eq_div e 2 2
  refine run_walkFrom_leaf hk path he hmod ?_ hvalid
  rw [hb]
  omega

theorem run_walkFrom_unshaped (hno : ¬entryShape e) : walkFrom va (levelsFrom k) table path s = .ok .invalid s := by
  rw [run_walkFrom_entry hk he hmod hsz (run_leafValid_unshaped fun hs => hno (leaf_shaped_iff.mp hs).1)]
  rfl

theorem run_walkFrom_unmapped (hm : frameMapped (entryFrame e) s = .ok false s) : walkFrom va (levelsFrom k) table path s = .ok .invalid s := by
  rw [run_walkFrom_entry hk he hmod hsz (run_leafValid_unmapped (by rw [leaf_frame]; exact hm))]
  rfl

theorem run_walkFrom_refused {r : Option FrameRec} (hf : entryFrame e < hbmEnd) (hr : frameRec (entryFrame e) s = .ok r s)
    (hno : (Leaf.of (entryAt table va k) (entryAt table va k :: path) e).recordSays r = false) :
    walkFrom va (levelsFrom k) table path s = .ok .invalid s := by
  rw [run_walkFrom_entry hk he hmod hsz (run_leafValid_refused (by rw [leaf_frame]; exact hf) (by rw [leaf_frame]; exact hr) hno)]
  rfl

theorem run_walkFrom_valid {r : Option FrameRec} (hs : entryShape e)
    (hpeer : ¬(inPeer (entryFrame e) = true ∧ (entryTier e ≠ 0 ∨ e.testBit 11 = true ∨ e.testBit 12 = true)))
    (hm : frameMapped (entryFrame e) s = .ok true s) (hr : frameRec (entryFrame e) s = .ok r s)
    (hyes : (Leaf.of (entryAt table va k) (entryAt table va k :: path) e).recordSays r = true) :
    walkFrom va (levelsFrom k) table path s = .ok (.leaf (Leaf.of (entryAt table va k) (entryAt table va k :: path) e)) s := by
  rw [run_walkFrom_entry hk he hmod hsz (run_leafValid_mapped (leaf_shaped_iff.mpr ⟨hs, hpeer⟩) (by rw [leaf_frame]; exact hm) (by rw [leaf_frame]; exact hr)),
    hyes]
  rfl

end

/-- The frame's record, as the frame table gives it (R211, R213). -/
def State.recorded (s : State) (frame p hft r : Nat) : Prop :=
  s.pcb = some p ∧ hwRead p 8 s = .ok hft s ∧ hwRead (hft + frame / 2 ^ 16 * 16) 16 s = .ok r s

/-- The record of a leaf's frame in HBM4E, where it can be read and lets the leaf stand. -/
theorem frameRec_of_sound {a : Nat} (hf : entryFrame e < hbmEnd)
    (hrec : s.pcb = none ∧ entryTier e ≤ 2 ∨ ∃ p hft r, s.recorded (entryFrame e) p hft r ∧ recordSound (entryTier e) r) :
    ∃ r, frameRec (entryFrame e) s = .ok r s ∧ (Leaf.of a path e).recordSays r = true := by
  rcases hrec with ⟨hp, ht⟩ | ⟨p, hft, r, ⟨hp, hhft, hr⟩, hs⟩
  · refine ⟨none, run_frameRec_none hf hp, ?_⟩
    rw [Leaf.recordSays, leaf_tier]
    exact decide_eq_true ht
  · exact ⟨_, run_frameRec_recorded hf hp hhft hr, recordSays_iff.mpr hs⟩

theorem run_frameKey {key frame : Nat} {r : Option FrameRec} {u : State} (hr : frameRec frame s = .ok r u) :
    frameKey key frame s = .ok (r.elim key FrameRec.key) u := by
  simp only [frameKey, run_bind, hr]
  cases r <;> rfl

/-- The key slot of a frame is found, and nothing is changed but the count of free choices. -/
theorem frameKey_found (key frame : Nat) (s : State) : ∃ fk n, frameKey key frame s = .ok fk { s with freeCtr := n } := by
  obtain ⟨r, u, hr⟩ := total_frameRec frame s
  obtain ⟨n, hn⟩ := (readOnly_frameKey key frame).run s
  have hrun := run_frameKey (key := key) hr
  rw [hrun] at hn
  have hu : u = { s with freeCtr := n } := hn
  exact ⟨_, n, by rw [hrun, hu]⟩

end

/-! ### The A bit -/

section
variable {s : State} {a : Nat}

theorem sectorsOf_one (a : Nat) : sectorsOf a 1 = [a / 32] := by
  rw [sectorsOf, show (a + 1 + 31) / 32 - a / 32 = 1 by omega]
  rfl

/-- One byte written under key slot 0 into a sector that reads true under it (R255). -/
theorem run_writePA_byte {v : Nat} (hread : s.sectorReadable 0 (a / 32) = true) (hkey : s.keyOf 0 ≠ none) :
    ∃ m, writePA 0 a v 1 s = .ok () { s with mem := s.mem.write a (BitVec.ofNat 8 v), sectorKey := m } := by
  obtain ⟨key, hk⟩ := Option.ne_none_iff_exists'.mp hkey
  have habsent : s.absent (a / 32) = false := by
    rw [State.sectorReadable, Bool.and_eq_true, Bool.not_eq_true'] at hread
    exact hread.1
  refine ⟨SMap.put s.sectorKey (a / 32) key, ?_⟩
  have habsent' : State.absent { s with mem := s.mem.write a (BitVec.ofNat 8 v), sectorKey := SMap.put s.sectorKey (a / 32) key } (a / 32) = false := habsent
  simp only [writePA, sectorsOf_one, each_cons, run_bind, claimSector, run_get, hk, hread, ↓reduceIte, run_set, run_each_nil, run_modify, Memory.writeLE, loseAbsent,
    habsent', Bool.false_eq_true, run_pure]

/-- Setting A changes the byte of the entry that holds it, by that bit, and no other (R208). -/
theorem run_setA {l : Leaf} (ha : l.a = false) (hread : s.sectorReadable 0 ((l.addr + 1) / 32) = true) (hkey : s.keyOf 0 ≠ none) :
    ∃ m, setA l s = .ok () { s with mem := s.mem.write (l.addr + 1) (s.mem.read (l.addr + 1) ||| 4), sectorKey := m } := by
  have hbyte : hwRead (l.addr + 1) 1 s = .ok (s.mem.read (l.addr + 1)).toNat s := by
    simp only [hwRead, readPA, run_bind, run_get, sectorsOf_one, List.all_cons, hread, List.all_nil, Bool.and_self, ↓reduceIte, run_pure, Memory.readLE,
      Nat.mul_zero, Nat.add_zero]
  obtain ⟨m, hm⟩ := run_writePA_byte (v := (s.mem.read (l.addr + 1)).toNat ||| 4) hread hkey
  have hv : BitVec.ofNat 8 ((s.mem.read (l.addr + 1)).toNat ||| 4) = s.mem.read (l.addr + 1) ||| 4 := by
    rw [BitVec.ofNat_or, BitVec.ofNat_toNat, BitVec.setWidth_eq]
    rfl
  rw [hv] at hm
  exact ⟨m, by simp only [setA, ha, Bool.false_eq_true, ↓reduceIte, run_bind, hbyte, hm]⟩

end

/-! ### Bytes that an access has found -/

section
variable {s : State} {h : Hart}

/-- The bytes of an access found are at their place, where S1 holds no work. -/
theorem run_place_found {va : Word64} {n : Nat} {p : Place} {t : State} (hu : s.undisturbed h) (hheld : t.held = [])
    (hfind : (s.actor h s.curStream).find .load va n (some false) false s = .ok p t) :
    (s.actor h s.curStream).place .load va n (some false) false s = .ok p t := by
  have hbehind : t.behindHeld (s.actor h s.curStream) p.loc n = false := by
    rw [State.behindHeld, hheld]
    exact Bool.and_false _
  simp only [Actor.place, if_neg (show ¬Kind.load = .fetch by decide), run_bind, run_observe_of_undisturbed hu, hfind, Actor.afterHeld, run_get, hbehind,
    Bool.false_eq_true, and_false, if_false, run_pure]

/-- A load of poisoned bytes raises poison, where no store is in flight (R382). -/
theorem run_load_poisoned {a : Actor} {via : LoadVia} {va : Word64} {n x : Nat} {p : Place} {t : State}
    (hp : a.place .load va n (some false) false s = .ok p t) (hloc : p.loc = .pa x) (hpend : t.pending = []) (hbad : t.poisoned x n = true) :
    a.load via va n (some false) s = .error (.trap 0x11 va 0 false) t := by
  simp only [Actor.load, run_bind, hp, hloc, run_meetOwn_of_none (show ∀ q ∈ t.pending, a.earlier (.pa x) n q = false from hpend ▸ nofun), run_get,
    Place.poisoned, hbad, if_true, run_trap]

/-- The key slot that a frame of the page of a leaf has, as the context's accesses find it. -/
theorem frameKey_of_recorded {k off e : Nat} (hs : entryShape e) (hf : entryFrame e < hbmEnd) (hoff : off < entrySize e)
    (hrec : s.pcb = none ∨ ∃ p hft r, s.recorded (entryFrame e) p hft r ∧ recordSound (entryTier e) r ∧
      ∃ r', hwRead (hft + (entryFrame e + off / 2 ^ 16 * 2 ^ 16) / 2 ^ 16 * 16) 16 s = .ok r' s ∧ r' / 2 ^ 116 % 2 ^ 9 = k) :
    frameKey k (entryFrame e + off / 2 ^ 16 * 2 ^ 16) s = .ok k s := by
  have hin : entryFrame e + off / 2 ^ 16 * 2 ^ 16 < hbmEnd := page_in_hbm hs hf (Nat.lt_of_le_of_lt (Nat.div_mul_le_self _ _) hoff)
  rcases hrec with hp | ⟨p, hft, r, ⟨hp, hhft, -⟩, -, r', hr', hkey⟩
  · exact run_frameKey (run_frameRec_none hin hp)
  · have hk : (FrameRec.ofEntry (hft + (entryFrame e + off / 2 ^ 16 * 2 ^ 16) / 2 ^ 16 * 16) r').key = k := (bitsOf_eq_div r' 116 9).trans hkey
    exact hk ▸ run_frameKey (run_frameRec_recorded hin hp hhft hr')

end

/-! ### Accesses through a leaf in HBM4E -/

section
variable {s : State} {h : Hart} {c : Context} {rd ra : SReg} {disp : BitVec 9} {kind : Kind} {l : Leaf} (hc : SMap.get? s.contexts h.asid = some c)
  (hlow : (h.addrMd s.curStream ra disp).toNat < windowBase) (hw : walk c.root (h.addrMd s.curStream ra disp).toNat s = .ok (.leaf l) s) (hf : l.frame < hbmEnd)
  (hyes : l.admits (c.request h kind (h.addrMd s.curStream ra disp)) = true) (hkey : s.keyOf c.key ≠ none) (hz : l.z = false)
include hc hlow hw hf hyes hkey hz

/-- The conditions from the overlay record on decide of an access that those before them let go on (R385). -/
theorem run_find_resolved {x : Stop} {u : State} (hres : resolve (c.request h kind (h.addrMd s.curStream ra disp)) l s = .error x u) (n : Nat) :
    (s.actor h s.curStream).find kind (h.addrMd s.curStream ra disp) n (some false) false s = .error x u :=
  run_find_resolve hc hlow (run_lookup_hbm (z := false) hw hyes hkey hf rfl hz) hres

section
variable (hh : s.hart = some h) (hu : s.undisturbed h) (hal : (h.addrMd s.curStream ra disp).toNat % 8 = 0)
  (hload : s.free h (h.addrMd s.curStream ra disp) 8 false) (hstore : s.free h (h.addrMd s.curStream ra disp) 8 true)
include hh hu hal hload hstore

/-- An inconsistent overlay record is a fault (R221, R385). -/
theorem raises_inconsistent {r : Option FrameRec} {o : Overlay} {u : State} (hsize : l.size = 2 ^ 16) (hr : frameRec l.frame s = .ok r s) (ho : l.o = true)
    (hread : readOverlay l.ovr s = .ok o u) (hbad : o.consistent = false) : s.raises h rd ra disp kind kind.cause 4 := by
  have hbase : l.frame + (h.addrMd s.curStream ra disp).toNat % l.size / 2 ^ 16 * 2 ^ 16 = l.frame := by
    rw [hsize, Nat.div_eq_of_lt (Nat.mod_lt _ (by decide)), Nat.zero_mul, Nat.add_zero]
  have hfk := run_frameKey (key := c.key) hr
  rw [← hbase] at hfk
  exact raises_of_find hh hu hal hload hstore (run_find_resolved hc hlow hw hf hyes hkey hz (run_resolve_inconsistent (q := c.request h _ (h.addrMd s.curStream ra disp)) hfk ho hread hbad))

/-- An access to a page in C-promote raises promote-on-touch (R219). -/
theorem raises_promote (ho : l.o = false) (ht : l.tier = 2) : s.raises h rd ra disp kind 0x0D 0 := by
  obtain ⟨fk, n, hfk⟩ := frameKey_found c.key (l.frame + (h.addrMd s.curStream ra disp).toNat % l.size / 2 ^ 16 * 2 ^ 16) s
  exact raises_of_find hh hu hal hload hstore
    (run_find_resolved hc hlow hw hf hyes hkey hz (run_resolve_error (q := c.request h _ (h.addrMd s.curStream ra disp)) hfk ho (run_baseTarget_promotes ht)))

end

/-- A store to a page in a move state waits (R215). -/
theorem store_waits_moving (hh : s.hart = some h) (hu : s.undisturbed h) (hal : (h.addrMd s.curStream ra disp).toNat % 8 = 0)
    (hstore : s.free h (h.addrMd s.curStream ra disp) 8 true) (ho : l.o = false) (ht : 3 ≤ l.tier) (hk : kind = .store) :
    exec (.sdMd rd ra disp) s = .next (s.waits h .move) := by
  subst hk
  obtain ⟨fk, n, hfk⟩ := frameKey_found c.key (l.frame + (h.addrMd s.curStream ra disp).toNat % l.size / 2 ^ 16 * 2 ^ 16) s
  exact store_waits_of_find hh hu hal hstore
    (run_find_resolved hc hlow hw hf hyes hkey hz (run_resolve_error (q := c.request h _ (h.addrMd s.curStream ra disp)) hfk ho (run_baseTarget_storeWaits ht rfl)) 8)

/-- A load of a page in a move state whose old frame is gone waits (R215). -/
theorem load_waits_moving (hh : s.hart = some h) (hu : s.undisturbed h) (hal : (h.addrMd s.curStream ra disp).toNat % 8 = 0)
    (hload : s.free h (h.addrMd s.curStream ra disp) 8 false) (ho : l.o = false) (ht : l.tier = 3) (hno : ∀ m ∈ s.moves, m.leaf ≠ l.addr)
    (hk : kind = .load) : exec (.ldMd rd ra disp true) s = .next (s.waits h .move) := by
  subst hk
  obtain ⟨fk, n, hfk⟩ := frameKey_found c.key (l.frame + (h.addrMd s.curStream ra disp).toNat % l.size / 2 ^ 16 * 2 ^ 16) s
  exact load_waits_of_find hh hu hal hload
    (run_find_resolved hc hlow hw hf hyes hkey hz (run_resolve_error (q := c.request h _ (h.addrMd s.curStream ra disp)) hfk ho (run_baseTarget_loadWaits ht hno rfl)) 8)

/-- An access to a resident page without an overlay is found in its frame, and A is set in the leaf (R208, R217). -/
theorem run_find_found {fk : Nat} {t : State} (hfk : frameKey c.key (l.frame + (h.addrMd s.curStream ra disp).toNat % l.size / 2 ^ 16 * 2 ^ 16) s = .ok fk s)
    (ho : l.o = false) (ht : l.tier = 0) (hsound : s.spoils l.addr l.frame = false) (hset : setA l s = .ok () t) (n : Nat) :
    (s.actor h s.curStream).find kind (h.addrMd s.curStream ra disp) n (some false) false s =
      .ok { loc := .pa (l.frame + (h.addrMd s.curStream ra disp).toNat % l.size), key := c.key, path := l.path, overlay := false, garbled := decide (fk ≠ c.key) } t := by
  rw [run_find_translated hc hlow]
  simp only [run_bind, run_lookup_hbm (q := c.request h kind (h.addrMd s.curStream ra disp)) (z := false) hw hyes hkey hf rfl hz,
    run_resolve_base (q := c.request h kind (h.addrMd s.curStream ra disp)) hfk ho (run_baseTarget_hbm ht hf hsound), hset, run_pure, State.targetKey,
    not_inPeer_of_hbm hf, Bool.false_eq_true, ↓reduceIte, Bool.not_false, Bool.and_true, Loc.isNowhere, Bool.or_false]
  rfl

section
variable (hh : s.hart = some h) (hu : s.undisturbed h) (hheld : s.held = []) (hfree : s.free h (h.addrMd s.curStream ra disp) 8 false) (hk : kind = .load)
  (hal : (h.addrMd s.curStream ra disp).toNat % 8 = 0)
  (hfk : frameKey c.key (l.frame + (h.addrMd s.curStream ra disp).toNat % l.size / 2 ^ 16 * 2 ^ 16) s = .ok c.key s) (ho : l.o = false) (ht : l.tier = 0)
  (ha : l.a = true) (hspoil : s.spoils l.addr l.frame = false) (hpend : s.pending = [])
include hh hu hheld hfree hk hal hfk ho ht ha hspoil hpend

omit hh hfree hal hpend in
/-- The place of an access to a page that carries A already (R208). -/
theorem run_place_accessed : (s.actor h s.curStream).place .load (h.addrMd s.curStream ra disp) 8 (some false) false s =
    .ok { loc := .pa (l.frame + (h.addrMd s.curStream ra disp).toNat % l.size), key := c.key, path := l.path, overlay := false, garbled := decide (c.key ≠ c.key) } s := by
  subst hk
  have hset : setA l s = .ok () s := by rw [setA, if_pos ha]; rfl
  exact run_place_found hu hheld (run_find_found hc hlow hw hf hyes hkey hz hfk ho ht hspoil hset 8)

/-- A load of poisoned bytes of memory raises poison (R382). -/
theorem load_traps_poisoned (hbad : s.poisoned (l.frame + (h.addrMd s.curStream ra disp).toNat % l.size) 8 = true) :
    exec (.ldMd rd ra disp true) s = .next (s.trapped 0x11 (h.addrMd s.curStream ra disp) 0) :=
  issue_scalarLoad_trapped hh (run_addrMd hh ra disp) hal hfree
    (run_load_poisoned (run_place_accessed hc hlow hw hf hyes hkey hz hu hheld hk hfk ho ht ha hspoil) rfl hpend hbad)

/-- A load of sound bytes of memory gives the bytes of the frame, and changes nothing else there (R143, R206). -/
theorem load_gives_frame (hsound : s.poisoned (l.frame + (h.addrMd s.curStream ra disp).toNat % l.size) 8 = false)
    (hspill : s.inSpill (s.actor h s.curStream) (h.addrMd s.curStream ra disp) 8 = false)
    (hread : (sectorsOf (l.frame + (h.addrMd s.curStream ra disp).toNat % l.size) 8).all (s.sectorReadable c.key) = true) :
    ∃ t, exec (.ldMd rd ra disp true) s = .next t ∧ t.mem = s.mem ∧ t.pending = [] ∧
      t.hart = some ((h.setS s.curStream rd (BitVec.ofNat 64 (s.mem.readLE (l.frame + (h.addrMd s.curStream ra disp).toNat % l.size) 8))).advance
        s.curStream).stirred := by
  obtain ⟨u, hl, hfill⟩ := run_load_fresh (run_place_accessed hc hlow hw hf hyes hkey hz hu hheld hk hfk ho ht ha hspoil) rfl
    (decide_eq_false fun hno => hno rfl) hsound hspill hread (show ∀ q ∈ s.pending, _ from hpend ▸ nofun)
  obtain ⟨-, -, hst⟩ := harts_of_outer (load_outer hl)
  refine ⟨_, issue_scalarLoad hh (run_addrMd hh ra disp) hal hfree (fr := true) hl, ?_, ?_, ?_⟩
  · have e := congrArg State.mem hfill; exact e
  · have e := congrArg State.pending hfill; exact e.trans hpend
  · rw [State.retired, hart_putHart, hst]
    rfl

end

/-- An access to a page that does not carry A sets it, and changes no other byte (R208). -/
theorem place_sets_accessed (hu : s.undisturbed h) (hheld : s.held = []) (hk : kind = .load)
    (hfk : frameKey c.key (l.frame + (h.addrMd s.curStream ra disp).toNat % l.size / 2 ^ 16 * 2 ^ 16) s = .ok c.key s) (ho : l.o = false) (ht : l.tier = 0)
    (ha : l.a = false) (hspoil : s.spoils l.addr l.frame = false) (hread : s.sectorReadable 0 ((l.addr + 1) / 32) = true) (hkey0 : s.keyOf 0 ≠ none) :
    ∃ p t, (s.actor h s.curStream).place .load (h.addrMd s.curStream ra disp) 8 (some false) false s = .ok p t ∧
      p.loc = .pa (l.frame + (h.addrMd s.curStream ra disp).toNat % l.size) ∧
      t.mem.read (l.addr + 1) = s.mem.read (l.addr + 1) ||| 4 ∧ ∀ x, x ≠ l.addr + 1 → t.mem.read x = s.mem.read x := by
  subst hk
  obtain ⟨m, hset⟩ := run_setA ha hread hkey0
  have hfind := run_find_found hc hlow hw hf hyes hkey hz hfk ho ht hspoil hset 8
  exact ⟨_, _, run_place_found hu (by exact hheld) hfind, rfl, Memory.read_write_self _ _ _,
    fun x hx => Memory.read_write_ne _ _ hx⟩

end

/-- Settles O21: the walk reaches the entry of level k, and each clause is the first condition of R385 that its leaf meets. -/
theorem translationFollowsTheTables : Obligations.TranslationFollowsTheTables := by
  unfold Obligations.TranslationFollowsTheTables
  intro s h c rd ra disp k table e hh hu hheld hc va load store hal hlow hload hstore hk ht entry raises faults invalid
  obtain ⟨path, hpath⟩ := walk_reaches hk ht
  have hraise {kind : Kind} {cause : BitVec 8} {sub : BitVec 5} {u : State} (hl : lookup (c.request h kind va) s = .error (.trap cause va sub false) u) :
      raises kind cause sub := raises_of_find hh hu hal hload hstore fun n => run_find_lookup hc hlow hl
  have hinvalid (hw : walkFrom va.toNat (levelsFrom k) table path s = .ok .invalid s) : invalid := fun kind =>
    hraise (run_lookup_invalid (q := c.request h kind va) (hpath.trans hw))
  refine ⟨fun hin hbad => ?_, fun he => ?_⟩
  · have hw (kind : Kind) := run_lookup_uncorrectable (q := c.request h kind va) (hpath.trans (run_walkFrom_poisoned hk path hin hbad))
    exact ⟨hraise (hw .load), hraise (hw .store), hraise (hw .fetch)⟩
  · intro big size frame ovr tier overlay shape recorded sound permits
    refine ⟨fun hmod kind => hraise (run_lookup_noPath (q := c.request h kind va) (hpath.trans (run_walkFrom_noPath hk path he hmod))),
      fun hmod hbad => ?_, fun hmod hbad => ?_, fun hmod hsz => ?_⟩
    · refine hinvalid (run_walkFrom_badTable hk path he hmod ?_)
      rw [bitsOf_eq_div, bitsOf_eq_div]
      omega
    · refine hinvalid (run_walkFrom_badLeaf hk path he hmod ?_)
      have hb : bitsOf e 2 2 = e / 2 ^ 2 % 4 := bitsOf_eq_div e 2 2
      rw [hb]
      omega
    · obtain ⟨l, hl⟩ : ∃ l, l = Leaf.of (entryAt table va.toNat k) (entryAt table va.toNat k :: path) e := ⟨_, rfl⟩
      have hlf : l.frame = frame := hl ▸ leaf_frame
      have hlt : l.tier = tier := hl ▸ leaf_tier
      have hls : l.size = size := hl ▸ leaf_size
      have hadmits (kind : Kind) : l.admits (c.request h kind va) = true ↔ permits kind := hl ▸ leaf_admits_iff
      refine ⟨fun hno => hinvalid (run_walkFrom_unshaped hk he hmod hsz hno), fun hf hout => ?_, fun hf hp ht2 => ?_, fun hf p hft r hrec hno => ?_,
        fun hs hlo hhi hp ht2 kind hper hkey hdown hlevel => ?_, fun hs ht0 ho hz hlo hhi hin kind hper hkey => ?_, fun hs hf hrec kind => ?_,
        fun hs hf ht0 ho hz ha hrec hper hkey hpend hspoil => ?_, fun hs hf ht0 ho hz ha hp hper hkey hspoil hread hkey0 => ?_⟩
      · refine hinvalid (run_walkFrom_unmapped hk he hmod hsz ?_)
        have hcxl : inCxl frame = false := by
          rw [Bool.eq_false_iff, ne_eq, inCxl_iff]
          rw [hbmEnd_eq] at hf
          omega
        rw [show entryFrame e = frame from rfl, run_frameMapped_outside hf hcxl]
        congr 1
        rw [Bool.and_eq_false_iff, Bool.eq_false_iff, ne_eq, inPeer_iff, decide_eq_false_iff_not]
        omega
      · refine hinvalid (run_walkFrom_refused hk he hmod hsz hf (run_frameRec_none hf hp) ?_)
        rw [Leaf.recordSays, leaf_tier]
        exact decide_eq_false (Nat.not_le.mpr ht2)
      · obtain ⟨hp, hhft, hr⟩ := hrec
        exact hinvalid (run_walkFrom_refused hk he hmod hsz hf (run_frameRec_recorded hf hp hhft hr) (Bool.eq_false_iff.mpr fun hy => hno (recordSays_iff.mp hy)))
      · have hf : hbmEnd ≤ frame := by rw [hbmEnd_eq]; omega
        have hcxl : inCxl frame = true := inCxl_iff.mpr ⟨hlo, hhi⟩
        have hpeer : inPeer frame = false := by
          rw [Bool.eq_false_iff, ne_eq, inPeer_iff]
          omega
        have hw := run_walkFrom_valid (path := path) hk he hmod hsz hs (by rw [show inPeer (entryFrame e) = false from hpeer]; exact fun hno => Bool.false_ne_true hno.1)
          (run_frameMapped_cxl hf hcxl hp) (run_frameRec_cxl hf hcxl hp) (by rw [Leaf.recordSays, leaf_tier]; exact decide_eq_true ht2)
        rw [← hl] at hw
        rw [← hlf] at hpeer hcxl hdown
        rw [← hlt] at hlevel
        exact hraise (run_lookup_portDown (hpath.trans hw) ((hadmits kind).mpr hper) hkey hpeer hcxl hlevel hdown)
      · have hf : hbmEnd ≤ frame := by rw [hbmEnd_eq]; omega
        have hpeer : inPeer frame = true := inPeer_iff.mpr ⟨hlo, hhi⟩
        have hcxl : inCxl frame = false := by
          rw [Bool.eq_false_iff, ne_eq, inCxl_iff]
          omega
        have hshape : ¬(inPeer (entryFrame e) = true ∧ (entryTier e ≠ 0 ∨ e.testBit 11 = true ∨ e.testBit 12 = true)) := by
          rw [show entryTier e = 0 from ht0, hz, Bool.eq_false_iff.mpr ho]
          simp
        have hmapped : frameMapped (entryFrame e) s = .ok true s := by
          rw [show entryFrame e = frame from rfl, run_frameMapped_outside hf hcxl, hpeer, decide_eq_true hin]
          rfl
        have hw := run_walkFrom_valid (path := path) hk he hmod hsz hs hshape hmapped (run_frameRec_outside hf hcxl)
          (by rw [Leaf.recordSays, leaf_tier, show entryTier e = 0 from ht0]; rfl)
        rw [← hl] at hw
        rw [← hlf] at hpeer
        refine ⟨fun hlevel hnone => ?_, fun x hx hvalid hlevel hno => ?_⟩
        · rw [← hlf] at hnone
          exact hraise (run_lookup_peerInvalid (hpath.trans hw) ((hadmits kind).mpr hper) hkey hpeer hlevel hnone)
        · rw [← hlf] at hx
          exact hraise (run_lookup_peerUnreached (hpath.trans hw) ((hadmits kind).mpr hper) hkey hpeer hlevel hx hvalid hno)
      · obtain ⟨r, hr, hyes⟩ := frameRec_of_sound (a := entryAt table va.toNat k) (path := entryAt table va.toNat k :: path) hf hrec
        have hw := run_walkFrom_valid (path := path) hk he hmod hsz hs (by rw [not_inPeer_of_hbm (show entryFrame e < hbmEnd from hf)]; exact fun hno => Bool.false_ne_true hno.1)
          (run_frameMapped_hbm hf) hr hyes
        rw [← hl] at hw
        have hfl : l.frame < hbmEnd := by rw [hlf]; exact hf
        refine ⟨fun hno => hraise (run_lookup_denied (hpath.trans hw) (Bool.eq_false_iff.mpr fun hy => hno ((hadmits kind).mp hy))),
          fun hper hkey => hraise (run_lookup_noKey (hpath.trans hw) ((hadmits kind).mpr hper) hkey), fun hper hkey => ?_⟩
        have hz : l.z = e.testBit 12 := by rw [hl]; rfl
        have ho : l.o = e.testBit 11 := by rw [hl]; rfl
        have hadm := (hadmits kind).mpr hper
        refine ⟨fun hz1 => hraise (run_lookup_wrongZ (z := false) (hpath.trans hw) hadm hkey hfl rfl (by rw [hz, hz1]; decide)), fun hz0 hov o u hread hbad => ?_,
          fun hz0 hov ht => ?_, fun hz0 hov ht hst => ?_, fun hz0 hov ht hno hld => ?_⟩
        · have hsize : l.size = 2 ^ 16 := by
            obtain ⟨-, -, -, -, -, hbig, -⟩ := hs
            rw [hls]
            by_contra hb
            exact (hbig (entrySize_big.mp hb)).1 hov
          have hovr : l.ovr = ovr := hl ▸ leaf_ovr
          exact raises_inconsistent hc hlow (hpath.trans hw) hfl hadm hkey (hz.trans hz0) hh hu hal hload hstore hsize (by rw [hlf]; exact hr) (ho.trans hov)
            (by rw [hovr]; exact hread) hbad
        · exact raises_promote hc hlow (hpath.trans hw) hfl hadm hkey (hz.trans hz0) hh hu hal hload hstore (ho.trans (Bool.eq_false_iff.mpr hov)) (hlt.trans ht)
        · exact store_waits_moving hc hlow (hpath.trans hw) hfl hadm hkey (hz.trans hz0) hh hu hal hstore (ho.trans (Bool.eq_false_iff.mpr hov)) (hlt ▸ ht) hst
        · have hno' : ∀ m ∈ s.moves, m.leaf ≠ l.addr := by
            rw [hl]
            exact hno
          exact load_waits_moving hc hlow (hpath.trans hw) hfl hadm hkey (hz.trans hz0) hh hu hal hload (ho.trans (Bool.eq_false_iff.mpr hov)) (hlt.trans ht) hno' hld
      · obtain ⟨r, hr, hyes⟩ := frameRec_of_sound (a := entryAt table va.toNat k) (path := entryAt table va.toNat k :: path) hf
          (hrec.imp (fun hp => ⟨hp, by rw [show entryTier e = 0 from ht0]; decide⟩) fun ⟨p, hft, r, h1, h2, _⟩ => ⟨p, hft, r, h1, h2⟩)
        have hw := run_walkFrom_valid (path := path) hk he hmod hsz hs (by rw [not_inPeer_of_hbm (show entryFrame e < hbmEnd from hf)]; exact fun hno => Bool.false_ne_true hno.1)
          (run_frameMapped_hbm hf) hr hyes
        rw [← hl] at hw
        have hfk := frameKey_of_recorded (k := c.key) hs hf (Nat.mod_lt va.toNat (entrySize_pos (e := e))) hrec
        rw [show entryFrame e = l.frame from hlf.symm, show entrySize e = l.size from hls.symm] at hfk
        have hoff : l.o = false := hl ▸ Bool.eq_false_iff.mpr ho
        have hspoil' : s.spoils l.addr l.frame = false := by rw [hlf, hl]; exact hspoil
        intro pa
        have hpa : l.frame + va.toNat % l.size = pa := by rw [hlf, hls]
        have hzl : l.z = false := hl ▸ hz
        have hal' : l.a = true := hl ▸ ha
        have hfl : l.frame < hbmEnd := by rw [hlf]; exact hf
        rw [← hpa]
        exact ⟨load_traps_poisoned hc hlow (hpath.trans hw) hfl ((hadmits .load).mpr hper) hkey hzl hh hu hheld hload rfl hal hfk hoff (hlt.trans ht0) hal' hspoil' hpend,
          load_gives_frame hc hlow (hpath.trans hw) hfl ((hadmits .load).mpr hper) hkey hzl hh hu hheld hload rfl hal hfk hoff (hlt.trans ht0) hal' hspoil' hpend⟩
      · obtain ⟨r, hr, hyes⟩ := frameRec_of_sound (a := entryAt table va.toNat k) (path := entryAt table va.toNat k :: path) hf
          (.inl ⟨hp, by rw [show entryTier e = 0 from ht0]; decide⟩)
        have hw := run_walkFrom_valid (path := path) hk he hmod hsz hs (by rw [not_inPeer_of_hbm (show entryFrame e < hbmEnd from hf)]; exact fun hno => Bool.false_ne_true hno.1)
          (run_frameMapped_hbm hf) hr hyes
        rw [← hl] at hw
        have hfk := frameKey_of_recorded (k := c.key) hs hf (Nat.mod_lt va.toNat (entrySize_pos (e := e))) (.inl hp)
        rw [show entryFrame e = l.frame from hlf.symm, show entrySize e = l.size from hls.symm] at hfk
        have hoff : l.o = false := hl ▸ Bool.eq_false_iff.mpr ho
        have hspoil' : s.spoils l.addr l.frame = false := by rw [hlf, hl]; exact hspoil
        have hzl : l.z = false := hl ▸ hz
        have hal' : l.a = false := hl ▸ ha
        have hfl : l.frame < hbmEnd := by rw [hlf]; exact hf
        have haddr : l.addr = entry := hl ▸ rfl
        rw [sectorsOf_one, List.all_cons, List.all_nil, Bool.and_true, ← haddr] at hread
        obtain ⟨p, t, hplace, hloc, hmem⟩ :=
          place_sets_accessed hc hlow (hpath.trans hw) hfl ((hadmits .load).mpr hper) hkey hzl hu hheld rfl hfk hoff (hlt.trans ht0) hal' hspoil' hread hkey0
        rw [haddr] at hmem
        rw [hlf, hls] at hloc
        exact ⟨p, t, hplace, hloc, hmem⟩

end Sys2Proof.Machine
end

section
/-! The grids of the floating formats, and the one rounding of an exact result to them (R72, R73, R78, R79, R82, R84, R86). -/

namespace Sys2Proof.Machine

/-! ### The grid of a floating format -/

section
variable {w : Nat}

/-- The value of a magnitude, in units of the least subnormal (R72, R79). -/
def gridNum (w m : Nat) : Nat := if m < 2 ^ w then m else (2 ^ w + m % 2 ^ w) * 2 ^ (m / 2 ^ w - 1)

/-- A magnitude is K quanta of its binade G, binade 0 holding the subnormals too. -/
def InBinade (w G K : Nat) : Prop := (G = 0 ∨ 2 ^ w ≤ K) ∧ K < 2 ^ (w + 1)

theorem gridNum_quanta {G K : Nat} (hG : G = 0 ∨ 2 ^ w ≤ K) (hK : K ≤ 2 ^ (w + 1)) : gridNum w (G * 2 ^ w + K) = K * 2 ^ G := by
  have hpow : (2 : Nat) ^ (w + 1) = 2 ^ w + 2 ^ w := by rw [Nat.pow_succ, Nat.mul_two]
  have hpos : 0 < 2 ^ w := Nat.two_pow_pos w
  by_cases hlow : K < 2 ^ w
  · obtain rfl : G = 0 := by omega
    rw [Nat.zero_mul, Nat.zero_add, gridNum, if_pos hlow, Nat.pow_zero, Nat.mul_one]
  · obtain ⟨d, rfl⟩ := Nat.exists_eq_add_of_le (Nat.not_lt.mp hlow)
    have hge : ¬G * 2 ^ w + (2 ^ w + d) < 2 ^ w := by omega
    rw [gridNum, if_neg hge, show G * 2 ^ w + (2 ^ w + d) = d + (G + 1) * 2 ^ w by rw [Nat.succ_mul]; omega, Nat.add_mul_mod_self_right,
      Nat.add_mul_div_right _ _ hpos]
    rcases Nat.lt_or_eq_of_le (show d ≤ 2 ^ w by omega) with hd | rfl
    · rw [Nat.mod_eq_of_lt hd, Nat.div_eq_of_lt hd, Nat.zero_add, Nat.add_sub_cancel]
    · rw [Nat.mod_self, Nat.div_self hpos, show 1 + (G + 1) - 1 = G + 1 by omega, Nat.pow_succ, Nat.add_zero, ← Nat.mul_two, Nat.mul_assoc, Nat.mul_comm 2]

theorem exists_binade (w m : Nat) : ∃ G K, m = G * 2 ^ w + K ∧ InBinade w G K := by
  have hpow : (2 : Nat) ^ (w + 1) = 2 ^ w + 2 ^ w := by rw [Nat.pow_succ, Nat.mul_two]
  have hdm : 2 ^ w * (m / 2 ^ w) + m % 2 ^ w = m := Nat.div_add_mod m (2 ^ w)
  have hmod : m % 2 ^ w < 2 ^ w := Nat.mod_lt m (Nat.two_pow_pos w)
  cases hd : m / 2 ^ w with
  | zero =>
    rw [hd] at hdm
    exact ⟨0, m, by omega, .inl rfl, by omega⟩
  | succ G =>
    rw [hd, Nat.mul_succ, Nat.mul_comm] at hdm
    exact ⟨G, 2 ^ w + m % 2 ^ w, by omega, .inr (by omega), by omega⟩

theorem gridNum_strictMono (w : Nat) : StrictMono (gridNum w) := by
  refine strictMono_nat_of_lt_succ fun m => ?_
  obtain ⟨G, K, rfl, hG, hK⟩ := exists_binade w m
  rw [gridNum_quanta hG hK.le, Nat.add_assoc, gridNum_quanta (hG.imp_right fun h => by omega) hK]
  exact Nat.mul_lt_mul_of_pos_right K.lt_succ_self (Nat.two_pow_pos G)

/-- The exponent of the least subnormal of a format (R72). -/
def Fmt.lowExp (f : Fmt) : Int := 1 - (Fmt.bias f : Int) - Fmt.fracBits f

theorem magVal_eq (f : Fmt) (m : Nat) : magVal f m = gridNum (Fmt.fracBits f) m * (2 : ℚ) ^ Fmt.lowExp f := by
  have hexp : (1 - (2 ^ (Fmt.expBits f - 1) - 1 : Int) - Fmt.fracBits f) = Fmt.lowExp f := by
    rw [Fmt.lowExp, Fmt.bias, Nat.cast_sub Nat.one_le_two_pow]
    push_cast
    rfl
  simp only [magVal, gridNum]
  rw [hexp]
  split
  · rfl
  · push_cast
    rfl

theorem magVal_strictMono (f : Fmt) : StrictMono (magVal f) := fun a b hab => by
  rw [magVal_eq, magVal_eq]
  exact mul_lt_mul_of_pos_right (Nat.cast_lt.mpr (gridNum_strictMono _ hab)) (zpow_pos two_pos _)

theorem magVal_quanta {f : Fmt} {G K : Nat} (hG : G = 0 ∨ 2 ^ Fmt.fracBits f ≤ K) (hK : K ≤ 2 ^ (Fmt.fracBits f + 1)) :
    magVal f (G * 2 ^ Fmt.fracBits f + K) = K * (2 : ℚ) ^ (Fmt.lowExp f + G) := by
  rw [magVal_eq, gridNum_quanta hG hK, zpow_add₀ two_ne_zero, zpow_natCast]
  push_cast
  ring

/-- The place of a value between two magnitudes of the grid is its only one. -/
theorem magVal_index_unique {f : Fmt} {v : ℚ} {a b : Nat} (ha : magVal f a ≤ v) (ha' : v < magVal f (a + 1)) (hb : magVal f b ≤ v) (hb' : v < magVal f (b + 1)) :
    a = b := by
  have hmono := magVal_strictMono f
  have h1 : a < b + 1 := hmono.lt_iff_lt.mp (ha.trans_lt hb')
  have h2 : b < a + 1 := hmono.lt_iff_lt.mp (hb.trans_lt ha')
  omega

end

/-! ### The decision of a rounding -/

section
variable {rm : Rm} {rnd : Nat} {neg : Bool}

/-- Whether a magnitude of K quanta and a fraction φ of one more is rounded away from zero (R78, R82). -/
def roundsAway (rm : Rm) (rnd : Nat) (neg : Bool) (K : Nat) (φ : ℚ) : Bool :=
  match rm with
  | .rne => decide (1 < 2 * φ) || (decide (2 * φ = 1) && decide (K % 2 = 1))
  | .rtz => false
  | .rdn => neg && decide (φ ≠ 0)
  | .rup => !neg && decide (φ ≠ 0)
  | .sr => decide ((rnd : Int) < (φ * 2 ^ 24).floor)

theorem lt_floor_iff (x : ℚ) : (rnd : Int) < x.floor ↔ ((rnd + 1 : Nat) : ℚ) ≤ x := by
  rw [← Int.add_one_le_iff, Rat.le_floor_iff]
  push_cast
  rfl

theorem roundsAway_zero (K : Nat) : roundsAway rm rnd neg K 0 = false := by
  have hdraw : ¬((rnd + 1 : Nat) : ℚ) ≤ 0 * 2 ^ 24 := by
    rw [zero_mul, not_le]
    exact Nat.cast_pos.mpr rnd.succ_pos
  cases rm with
  | sr => exact decide_eq_false ((lt_floor_iff _).not.mpr hdraw)
  | _ => simp [roundsAway]

/-- Rounding to the grid by the fraction of a quantum past the lower magnitude (R78, R82). -/
theorem roundMag_eq {f : Fmt} {G K : Nat} {φ v : ℚ} (hw : 0 < Fmt.fracBits f) (hb : InBinade (Fmt.fracBits f) G K) (hv : v = (K + φ) * (2 : ℚ) ^ (Fmt.lowExp f + G)) :
    roundMag f rm rnd neg v (G * 2 ^ Fmt.fracBits f + K) = G * 2 ^ Fmt.fracBits f + K + if roundsAway rm rnd neg K φ then 1 else 0 := by
  obtain ⟨hG, hK⟩ := hb
  have hpos : (0 : ℚ) < (2 : ℚ) ^ (Fmt.lowExp f + G) := zpow_pos two_pos _
  have hlo := magVal_quanta hG hK.le
  have hhi : magVal f (G * 2 ^ Fmt.fracBits f + K + 1) = (K + 1) * (2 : ℚ) ^ (Fmt.lowExp f + G) := by
    rw [Nat.add_assoc, magVal_quanta (hG.imp_right fun h => by omega) hK]
    push_cast
    rfl
  have hpar : (G * 2 ^ Fmt.fracBits f + K) % 2 = K % 2 := by
    obtain ⟨n, hn⟩ := Nat.exists_eq_succ_of_ne_zero hw.ne'
    rw [hn, Nat.pow_succ, ← Nat.mul_assoc, Nat.add_comm, Nat.add_mul_mod_self_right]
  generalize (2 : ℚ) ^ (Fmt.lowExp f + G) = u at hpos hlo hhi hv
  subst hv
  simp only [roundMag, hlo, hhi, hpar]
  have heq : ((K : ℚ) + φ) * u = K * u ↔ φ = 0 := by rw [mul_left_inj' hpos.ne', add_eq_left]
  have hlt : 2 * (((K : ℚ) + φ) * u) < K * u + (K + 1) * u ↔ 2 * φ < 1 := by
    rw [← add_mul, ← mul_assoc, mul_lt_mul_iff_left₀ hpos]
    constructor <;> intro h <;> linarith
  have hgt : K * u + (K + 1) * u < 2 * (((K : ℚ) + φ) * u) ↔ 1 < 2 * φ := by
    rw [← add_mul, ← mul_assoc, mul_lt_mul_iff_left₀ hpos]
    constructor <;> intro h <;> linarith
  have hfrac : (((K : ℚ) + φ) * u - K * u) / ((K + 1) * u - K * u) = φ := by
    field_simp
    ring
  by_cases hz : φ = 0
  · subst hz
    rw [roundsAway_zero, if_pos (heq.mpr rfl)]
    rfl
  · rw [if_neg (heq.not.mpr hz)]
    cases rm with
    | rne =>
      simp only [hlt, hgt, roundsAway]
      rcases lt_trichotomy (2 * φ) 1 with h | h | h
      · simp [h, h.ne, h.not_gt]
      · rcases Nat.mod_two_eq_zero_or_one K with hk | hk <;> simp [h, hk]
      · simp [h, h.ne', h.not_gt]
    | rtz => rfl
    | rdn => cases neg <;> simp [roundsAway, hz]
    | rup => cases neg <;> simp [roundsAway, hz]
    | sr => simp only [hfrac, roundsAway, decide_eq_true_eq]; split <;> rfl

theorem roundsUp_exact {k r sh : Nat} : roundsUp rm rnd neg k r sh false = roundsAway rm rnd neg k (r / 2 ^ sh) := by
  have hpos : (0 : ℚ) < 2 ^ sh := by positivity
  have hzero : ((r : ℚ) / 2 ^ sh ≠ 0) ↔ r ≠ 0 := by simp
  cases rm with
  | rne =>
    have hgt : 1 < 2 * ((r : ℚ) / 2 ^ sh) ↔ 2 ^ sh < 2 * r := by
      rw [← mul_div_assoc, one_lt_div hpos]
      exact_mod_cast Iff.rfl
    have heq : 2 * ((r : ℚ) / 2 ^ sh) = 1 ↔ 2 * r = 2 ^ sh := by
      rw [← mul_div_assoc, div_eq_one_iff_eq hpos.ne']
      exact_mod_cast Iff.rfl
    simp [roundsUp, roundsAway, hgt, heq]
  | rtz => rfl
  | rdn => simp [roundsUp, roundsAway]
  | rup => simp [roundsUp, roundsAway]
  | sr =>
    have hle : ((rnd + 1 : Nat) : ℚ) ≤ r / 2 ^ sh * 2 ^ 24 ↔ (rnd + 1) * 2 ^ sh ≤ r * 2 ^ 24 := by
      rw [div_mul_eq_mul_div, le_div_iff₀ hpos]
      exact_mod_cast Iff.rfl
    have hnz : (rnd + 1) * 2 ^ sh ≤ r * 2 ^ 24 → r ≠ 0 := by
      rintro h rfl
      have := Nat.two_pow_pos sh
      rw [Nat.zero_mul, Nat.le_zero, Nat.mul_eq_zero] at h
      omega
    simp only [roundsUp, roundsAway, lt_floor_iff, hle, Bool.or_false, ← Bool.decide_and]
    refine decide_eq_decide.mpr ?_
    rw [← Nat.succ_le_iff, Nat.le_div_iff_mul_le (Nat.two_pow_pos sh)]
    exact ⟨And.right, fun h => ⟨hnz h, h⟩⟩

section
variable {k r sh : Nat} {ρ : ℚ} (hsh : 24 < sh) (hlo : r < ρ) (hhi : ρ < r + 1)
include hsh hlo hhi

/-- A result known to within one unit decides as every value in the unit does, where the unit is small enough (R73, R82). -/
theorem roundsUp_sticky : roundsUp rm rnd neg k r sh true = roundsAway rm rnd neg k (ρ / 2 ^ sh) := by
  have hpos : (0 : ℚ) < 2 ^ sh := by positivity
  have hne : ρ / 2 ^ sh ≠ 0 := (div_pos (lt_of_le_of_lt (Nat.cast_nonneg r) hlo) hpos).ne'
  have hbelow (n : Nat) : (n : ℚ) ≤ ρ ↔ n ≤ r := by
    constructor
    · intro h
      have : n < r + 1 := by exact_mod_cast h.trans_lt hhi
      omega
    · exact fun h => (Nat.cast_le.mpr h).trans hlo.le
  have hnat (n : Nat) : ρ ≠ n := by
    rintro rfl
    have h1 : r < n := by exact_mod_cast hlo
    have h2 : n < r + 1 := by exact_mod_cast hhi
    omega
  cases rm with
  | rne =>
    obtain ⟨d, rfl⟩ : ∃ d, sh = d + 1 := ⟨sh - 1, by omega⟩
    have hhalf : 2 * (ρ / 2 ^ (d + 1)) = ρ / 2 ^ d := by
      rw [pow_succ]
      field_simp
    have hgt : 1 < ρ / 2 ^ d ↔ 2 ^ (d + 1) ≤ 2 * r := by
      rw [one_lt_div (by positivity), pow_succ, Nat.mul_comm (2 ^ d), Nat.mul_le_mul_left_iff two_pos, ← hbelow, lt_iff_le_and_ne]
      push_cast
      exact and_iff_left (by exact_mod_cast (hnat (2 ^ d)).symm)
    have heq : ρ / 2 ^ d ≠ 1 := by
      rw [ne_eq, div_eq_one_iff_eq (by positivity)]
      exact_mod_cast hnat (2 ^ d)
    simp only [roundsUp, roundsAway, hhalf, heq, hgt, decide_false, Bool.false_and, Bool.or_false, Bool.true_or, Bool.and_true, ← Bool.decide_or]
    exact decide_eq_decide.mpr (by omega)
  | rtz => rfl
  | rdn => simp [roundsUp, roundsAway, hne]
  | rup => simp [roundsUp, roundsAway, hne]
  | sr =>
    obtain ⟨d, rfl⟩ : ∃ d, sh = d + 24 := ⟨sh - 24, by omega⟩
    have hparts : ρ / 2 ^ (d + 24) * 2 ^ 24 = ρ / 2 ^ d := by
      rw [pow_add]
      field_simp
    have hle : ((rnd + 1 : Nat) : ℚ) ≤ ρ / 2 ^ d ↔ (rnd + 1) * 2 ^ d ≤ r := by
      rw [le_div_iff₀ (by positivity), ← hbelow]
      push_cast
      rfl
    simp only [roundsUp, roundsAway, lt_floor_iff, hparts, hle, Bool.or_true, Bool.true_and]
    refine decide_eq_decide.mpr ?_
    rw [Nat.pow_add, Nat.mul_div_mul_right _ _ (by decide), ← Nat.succ_le_iff, Nat.le_div_iff_mul_le (Nat.two_pow_pos d)]

end

/-- A magnitude far below the quantum is decided as any tiny one (R78, R82). -/
theorem roundsUp_tiny {φ : ℚ} (hlo : 0 < φ) (hhi : φ < 1 / 2 ^ 25) : roundsUp rm rnd neg 0 1 66 true = roundsAway rm rnd neg 0 φ := by
  cases rm with
  | rne =>
    have h1 : ¬1 < 2 * φ := by norm_num at hhi ⊢; linarith
    simp [roundsUp, roundsAway, h1]
  | rtz => rfl
  | rdn => simp [roundsUp, roundsAway, hlo.ne']
  | rup => simp [roundsUp, roundsAway, hlo.ne']
  | sr =>
    have h1 : ¬((rnd + 1 : Nat) : ℚ) ≤ φ * 2 ^ 24 := by
      have hr : (1 : ℚ) ≤ ((rnd + 1 : Nat) : ℚ) := by exact_mod_cast Nat.le_add_left 1 rnd
      norm_num at hhi
      linarith
    simp only [roundsUp, roundsAway, lt_floor_iff, h1, decide_false]
    have hdraw : ¬rnd < 1 * 2 ^ 24 / 2 ^ 66 := by norm_num
    rw [decide_eq_false hdraw, Bool.and_false]

end


/-! ### Rounding to a format -/

section
variable {f : Fmt}

theorem two_pow_bitLen_sub_one_le {m : Nat} (hm : m ≠ 0) : 2 ^ (bitLen m - 1) ≤ m := by
  rw [bitLen, if_neg hm, Nat.add_sub_cancel]
  exact Nat.log2_self_le hm

theorem lt_two_pow_bitLen (m : Nat) : m < 2 ^ bitLen m := by
  unfold bitLen
  split
  · omega
  · exact Nat.lt_log2_self

/-- The exponent of the quantum of a magnitude of so many bits (R73). -/
def Fmt.quantum (f : Fmt) (mant : Nat) (exp : Int) : Int := max ((bitLen mant : Int) + exp - 1 - Fmt.fracBits f) (Fmt.lowExp f)

/-- A value that a number of bits with an exponent gives: the number itself, or, with `sticky`, one above it within its last unit (R73). -/
def Exact.holds (mant : Nat) (exp : Int) (sticky : Bool) (v : ℚ) : Prop :=
  if sticky then mant * (2 : ℚ) ^ exp < v ∧ v < (mant + 1) * (2 : ℚ) ^ exp else v = mant * (2 : ℚ) ^ exp

section
variable {mant : Nat} {exp : Int} {sticky : Bool} {v : ℚ} (hm : mant ≠ 0) (hv : Exact.holds mant exp sticky v)
include hm hv

theorem le_of_holds : (2 : ℚ) ^ ((bitLen mant : Int) + exp - 1) ≤ v := by
  have hle : (mant : ℚ) * (2 : ℚ) ^ exp ≤ v := by
    unfold Exact.holds at hv
    split at hv
    · exact hv.1.le
    · exact hv.ge
  have hlen : bitLen mant ≠ 0 := by rw [bitLen, if_neg hm]; omega
  refine le_trans ?_ hle
  rw [show (bitLen mant : Int) + exp - 1 = ((bitLen mant - 1 : Nat) : Int) + exp by omega, zpow_add₀ two_ne_zero, zpow_natCast]
  exact mul_le_mul_of_nonneg_right (by exact_mod_cast two_pow_bitLen_sub_one_le hm) (zpow_pos two_pos _).le

omit hm in
theorem lt_of_holds : v < (2 : ℚ) ^ ((bitLen mant : Int) + exp) := by
  have hpos : (0 : ℚ) < (2 : ℚ) ^ exp := zpow_pos two_pos _
  have hlt : v < (mant + 1) * (2 : ℚ) ^ exp := by
    unfold Exact.holds at hv
    split at hv
    · exact hv.2
    · rw [hv]
      exact mul_lt_mul_of_pos_right (lt_add_one _) hpos
  refine hlt.trans_le ?_
  rw [zpow_add₀ two_ne_zero, zpow_natCast]
  exact mul_le_mul_of_nonneg_right (by exact_mod_cast lt_two_pow_bitLen mant) hpos.le

/-- The quanta of a value lie in the binade that its quantum names. -/
theorem inBinade_of_holds {K : Nat} {φ : ℚ} (hφ : 0 ≤ φ) (hφ' : φ < 1) (hK : v = (K + φ) * (2 : ℚ) ^ Fmt.quantum f mant exp) :
    InBinade (Fmt.fracBits f) (Fmt.quantum f mant exp - Fmt.lowExp f).toNat K := by
  have hpos : (0 : ℚ) < (2 : ℚ) ^ Fmt.quantum f mant exp := zpow_pos two_pos _
  have hq : (bitLen mant : Int) + exp - 1 - Fmt.fracBits f ≤ Fmt.quantum f mant exp := le_max_left _ _
  refine ⟨?_, ?_⟩
  · by_cases hG : Fmt.quantum f mant exp = Fmt.lowExp f
    · exact .inl (by omega)
    · have hq' : (bitLen mant : Int) + exp - 1 - Fmt.fracBits f = Fmt.quantum f mant exp := by
        rcases max_choice ((bitLen mant : Int) + exp - 1 - Fmt.fracBits f) (Fmt.lowExp f) with h | h
        · exact h.symm
        · exact absurd h hG
      have hle := le_of_holds hm hv
      rw [show (bitLen mant : Int) + exp - 1 = (Fmt.fracBits f : Int) + Fmt.quantum f mant exp by omega, zpow_add₀ two_ne_zero, zpow_natCast, hK,
        mul_le_mul_iff_left₀ hpos] at hle
      have hlt : (2 ^ Fmt.fracBits f : ℚ) < K + 1 := by linarith
      have : 2 ^ Fmt.fracBits f < K + 1 := by exact_mod_cast hlt
      exact .inr (by omega)
  · have hlt := lt_of_holds hv
    have hle : (2 : ℚ) ^ ((bitLen mant : Int) + exp) ≤ (2 : ℚ) ^ (((Fmt.fracBits f + 1 : Nat) : Int) + Fmt.quantum f mant exp) :=
      zpow_le_zpow_right₀ one_le_two (by omega)
    have hlt' := hlt.trans_le hle
    rw [hK, zpow_add₀ two_ne_zero, zpow_natCast, mul_lt_mul_iff_left₀ hpos] at hlt'
    have hlt'' : (K : ℚ) < 2 ^ (Fmt.fracBits f + 1) := by linarith
    exact_mod_cast hlt''

/-- The quanta of a value, and the fraction that decides whether one more is counted (R78, R82). -/
theorem quanta_spec (hsticky : sticky = true → 2 ^ (Fmt.fracBits f + 28) ≤ mant) (rm : Rm) (rnd : Nat) (neg : Bool) :
    ∃ (K : Nat) (φ : ℚ), 0 ≤ φ ∧ φ < 1 ∧ v = (K + φ) * (2 : ℚ) ^ Fmt.quantum f mant exp ∧
      quanta rm rnd neg mant exp sticky (Fmt.quantum f mant exp) = K + if roundsAway rm rnd neg K φ then 1 else 0 := by
  have hq : (bitLen mant : Int) + exp - 1 - Fmt.fracBits f ≤ Fmt.quantum f mant exp := le_max_left _ _
  generalize Fmt.quantum f mant exp = q at hq ⊢
  have hqpos : (0 : ℚ) < (2 : ℚ) ^ q := zpow_pos two_pos _
  have hepos : (0 : ℚ) < (2 : ℚ) ^ exp := zpow_pos two_pos _
  by_cases htiny : (bitLen mant : Int) + exp < q - 66
  · have hv0 : 0 < v := (zpow_pos two_pos _).trans_le (le_of_holds hm hv)
    have hlt : v / 2 ^ q < 1 / 2 ^ 25 := by
      rw [div_lt_iff₀ hqpos]
      refine (lt_of_holds hv).trans_le ?_
      calc (2 : ℚ) ^ ((bitLen mant : Int) + exp) ≤ (2 : ℚ) ^ (-25 + q) := zpow_le_zpow_right₀ one_le_two (by omega)
        _ = 1 / 2 ^ 25 * 2 ^ q := by rw [zpow_add₀ two_ne_zero, zpow_neg, one_div]; rfl
    refine ⟨0, v / 2 ^ q, (div_pos hv0 hqpos).le, hlt.trans (by norm_num), ?_, ?_⟩
    · rw [Nat.cast_zero, zero_add, div_mul_cancel₀ _ hqpos.ne']
    · rw [quanta, if_pos htiny, roundsUp_tiny (div_pos hv0 hqpos) hlt, Nat.zero_add]
  · by_cases hexp : q ≤ exp
    · have hns : sticky = false := by
        by_contra hs
        have hlen := (hsticky (Bool.eq_true_of_not_eq_false hs)).trans_lt (lt_two_pow_bitLen mant)
        have := (Nat.pow_lt_pow_iff_right one_lt_two).mp hlen
        omega
      subst hns
      refine ⟨mant * 2 ^ (exp - q).toNat, 0, le_rfl, one_pos, ?_, ?_⟩
      · rw [show v = mant * (2 : ℚ) ^ exp from hv, add_zero]
        push_cast
        rw [mul_assoc, ← zpow_natCast, ← zpow_add₀ two_ne_zero, Int.toNat_of_nonneg (by omega), Int.sub_add_cancel]
      · rw [quanta, if_neg htiny, if_pos hexp, roundsAway_zero]
        rfl
    · obtain ⟨sh, hsh⟩ : ∃ sh : Nat, q = exp + sh := ⟨(q - exp).toNat, by omega⟩
      have hsh' : (q - exp).toNat = sh := by omega
      have hdm : 2 ^ sh * (mant / 2 ^ sh) + mant % 2 ^ sh = mant := Nat.div_add_mod _ _
      have hdmq : (2 ^ sh : ℚ) * (mant / 2 ^ sh : Nat) + (mant % 2 ^ sh : Nat) = mant := by exact_mod_cast hdm
      have hmod : mant % 2 ^ sh + 1 ≤ 2 ^ sh := Nat.mod_lt _ (Nat.two_pow_pos sh)
      have hmodq : ((mant % 2 ^ sh : Nat) : ℚ) + 1 ≤ 2 ^ sh := by exact_mod_cast hmod
      have hspos : (0 : ℚ) < 2 ^ sh := by positivity
      obtain ⟨ρ, hρ⟩ : ∃ ρ : ℚ, ρ = v / 2 ^ exp - 2 ^ sh * (mant / 2 ^ sh : Nat) := ⟨_, rfl⟩
      have hval : v = ((mant / 2 ^ sh : Nat) + ρ / 2 ^ sh) * (2 : ℚ) ^ q := by
        rw [hsh, zpow_add₀ two_ne_zero, zpow_natCast, hρ]
        field_simp
        ring
      have hquanta : quanta rm rnd neg mant exp sticky q = mant / 2 ^ sh + if roundsUp rm rnd neg (mant / 2 ^ sh) (mant % 2 ^ sh) sh sticky then 1 else 0 := by
        rw [quanta, if_neg htiny, if_neg hexp, hsh']
      cases sticky with
      | false =>
        have hρr : ρ = (mant % 2 ^ sh : Nat) := by
          rw [hρ, show v = mant * (2 : ℚ) ^ exp from hv, mul_div_cancel_right₀ _ hepos.ne', ← hdmq, add_sub_cancel_left]
        refine ⟨_, _, ?_, ?_, hval, ?_⟩
        · rw [hρr]; positivity
        · rw [div_lt_one hspos, hρr]; linarith
        · rw [hquanta, roundsUp_exact, hρr]
      | true =>
        obtain ⟨hlo, hhi⟩ := hv
        rw [← lt_div_iff₀ hepos] at hlo
        rw [← div_lt_iff₀ hepos] at hhi
        have hrlo : (mant % 2 ^ sh : Nat) < ρ := by rw [hρ]; linarith
        have hrhi : ρ < (mant % 2 ^ sh : Nat) + 1 := by rw [hρ]; linarith
        have hbig : 24 < sh := by
          have hlen := (hsticky rfl).trans_lt (lt_two_pow_bitLen mant)
          have := (Nat.pow_lt_pow_iff_right one_lt_two).mp hlen
          omega
        refine ⟨_, _, ?_, ?_, hval, ?_⟩
        · exact div_nonneg ((Nat.cast_nonneg _).trans hrlo.le) hspos.le
        · rw [div_lt_one hspos]; linarith
        · rw [hquanta, roundsUp_sticky hbig hrlo hrhi]

/-- The magnitude before its limit is the one of the grid that the mode names (R78, R82). -/
theorem roundMag_of_holds (hw : 0 < Fmt.fracBits f) (hsticky : sticky = true → 2 ^ (Fmt.fracBits f + 28) ≤ mant) {rm : Rm} {rnd k : Nat} {neg : Bool}
    (hlo : magVal f k ≤ v) (hhi : v < magVal f (k + 1)) :
    (Fmt.quantum f mant exp - Fmt.lowExp f).toNat * 2 ^ Fmt.fracBits f + quanta rm rnd neg mant exp sticky (Fmt.quantum f mant exp) = roundMag f rm rnd neg v k := by
  obtain ⟨K, φ, hφ, hφ', hval, hquanta⟩ := quanta_spec (f := f) hm hv hsticky rm rnd neg
  have hb := inBinade_of_holds hm hv hφ hφ' hval
  have hq : Fmt.lowExp f ≤ Fmt.quantum f mant exp := le_max_right _ _
  obtain ⟨G, hG⟩ : ∃ G, (Fmt.quantum f mant exp - Fmt.lowExp f).toNat = G := ⟨_, rfl⟩
  have hqG : Fmt.quantum f mant exp = Fmt.lowExp f + G := by omega
  rw [hqG] at hval
  rw [hG] at hb ⊢
  have hpos : (0 : ℚ) < (2 : ℚ) ^ (Fmt.lowExp f + G) := zpow_pos two_pos _
  have hk : k = G * 2 ^ Fmt.fracBits f + K := by
    refine magVal_index_unique hlo hhi ?_ ?_
    · rw [magVal_quanta hb.1 hb.2.le, hval]
      exact mul_le_mul_of_nonneg_right (le_add_of_nonneg_right hφ) hpos.le
    · rw [Nat.add_assoc, magVal_quanta (hb.1.imp_right fun h => h.trans K.le_succ) hb.2, hval]
      push_cast
      exact mul_lt_mul_of_pos_right (by linarith) hpos
  rw [hk, roundMag_eq hw hb hval, hquanta, Nat.add_assoc]

end
end


/-! ### The patterns of a format -/

section
variable {f : Fmt} (hf : Fmt.isFloat f = true)
include hf

/-- The widths of a floating format (R72). -/
theorem float_widths : 2 ≤ Fmt.fracBits f ∧ Fmt.fracBits f ≤ 23 := by
  revert hf
  cases f <;> decide

theorem largestMag_eq : largestMag f = Fmt.maxMag f := by
  revert hf
  cases f <;> decide

/-- Normal magnitudes end below the sign bit (R72). -/
theorem maxMag_bounds : 2 ^ Fmt.fracBits f ≤ Fmt.maxMag f ∧ Fmt.maxMag f + 1 < Fmt.signBit f := by
  revert hf
  cases f <;> decide

theorem infMag_eq (he : f ≠ .e4m3) : Fmt.infMag f = Fmt.maxMag f + 1 := by
  revert he hf
  cases f <;> decide

omit hf
section
variable {m : Nat} (hm : m < Fmt.signBit f)
include hm

theorem withSign_mod (neg : Bool) : withSign f neg m % Fmt.signBit f = m := by
  cases neg with
  | false => rw [withSign, if_neg Bool.false_ne_true, Nat.zero_add, Nat.mod_eq_of_lt hm]
  | true => rw [withSign, if_pos rfl, Nat.add_mod_left, Nat.mod_eq_of_lt hm]

theorem signBitOf_withSign (neg : Bool) : signBitOf f (withSign f neg m) = neg := by
  have hbit : m.testBit (Fmt.ew f - 1) = false := Nat.testBit_lt_two_pow hm
  cases neg with
  | false => rw [withSign, if_neg Bool.false_ne_true, Nat.zero_add, signBitOf, hbit]
  | true => rw [withSign, if_pos rfl, Fmt.signBit, signBitOf, Nat.testBit_two_pow_add_eq, hbit]; rfl

/-- A subnormal flushed is a zero of its sign, and any other magnitude itself (R84). -/
theorem flush_withSign (ftz neg : Bool) : flush f ftz (withSign f neg m) = withSign f neg (if ftz = true ∧ m < 2 ^ Fmt.fracBits f then 0 else m) := by
  simp only [flush, isSubnormal, withSign_mod hm, signBitOf_withSign hm]
  cases ftz with
  | false => simp
  | true =>
    by_cases h0 : m = 0
    · simp [h0]
    · simp [Nat.pos_of_ne_zero h0, apply_ite (withSign f neg)]

theorem of_withSign_finite (hle : m ≤ Fmt.maxMag f) (neg : Bool) : ∃ k e, Fp.of f (withSign f neg m) = .fin neg k e ∧ (k : ℚ) * (2 : ℚ) ^ e = magVal f m := by
  simp only [Fp.of, withSign_mod hm, signBitOf_withSign hm, if_neg (Nat.not_lt.mpr hle)]
  have hpos := Nat.two_pow_pos (Fmt.fracBits f)
  by_cases hlow : m < 2 ^ Fmt.fracBits f
  · refine ⟨_, _, if_pos (Nat.div_eq_of_lt hlow), ?_⟩
    rw [Nat.mod_eq_of_lt hlow, magVal_eq, gridNum, if_pos hlow]
    rfl
  · have hone : 1 ≤ m / 2 ^ Fmt.fracBits f := (Nat.one_le_div_iff hpos).mpr (Nat.not_lt.mp hlow)
    refine ⟨_, _, if_neg (by omega), ?_⟩
    rw [magVal_eq, gridNum, if_neg hlow, Nat.cast_mul, mul_assoc, Nat.cast_pow, Nat.cast_two, ← zpow_natCast, ← zpow_add₀ two_ne_zero]
    congr 2
    rw [Fmt.lowExp]
    omega

theorem of_withSign_nan (hlt : Fmt.maxMag f < m) (hnan : f = .e4m3 ∨ m % 2 ^ Fmt.fracBits f ≠ 0) (neg : Bool) :
    Fp.of f (withSign f neg m) = .nan neg (m % 2 ^ Fmt.fracBits f * 2 ^ (23 - Fmt.fracBits f)) := by
  simp only [Fp.of, withSign_mod hm, signBitOf_withSign hm, if_pos hlt]
  exact if_neg (by tauto)

end

include hf

theorem of_withSign_inf (he : f ≠ .e4m3) (neg : Bool) : Fp.of f (withSign f neg (Fmt.maxMag f + 1)) = .inf neg := by
  have hm := (maxMag_bounds hf).2
  have hmod : (Fmt.maxMag f + 1) % 2 ^ Fmt.fracBits f = 0 := by rw [← infMag_eq hf he, Fmt.infMag, Nat.mul_mod_left]
  simp only [Fp.of, withSign_mod hm, signBitOf_withSign hm, if_pos (Nat.lt_succ_self _), if_pos (And.intro he hmod)]

/-- Past the largest finite magnitude only the infinity has no fraction (R72). -/
theorem frac_ne_zero_of_nan {m : Nat} (hlt : Fmt.maxMag f < m) (hm : m < Fmt.signBit f) (hne : m ≠ Fmt.maxMag f + 1) (he : f ≠ .e4m3) :
    m % 2 ^ Fmt.fracBits f ≠ 0 := by
  have hinf := infMag_eq hf he
  have hsign : Fmt.signBit f = Fmt.infMag f + 2 ^ Fmt.fracBits f := by
    revert hf he
    cases f <;> decide
  have hmod : Fmt.infMag f % 2 ^ Fmt.fracBits f = 0 := by rw [Fmt.infMag, Nat.mul_mod_left]
  obtain ⟨d, rfl⟩ := Nat.exists_eq_add_of_le (show Fmt.infMag f ≤ m by omega)
  rw [Nat.add_mod, hmod, Nat.zero_add, Nat.mod_mod, Nat.mod_eq_of_lt (by omega)]
  omega

/-- The magnitude that a result past the largest finite one becomes (R73, R79). -/
theorem overflowBits_eq (rm : Rm) (neg : Bool) : overflowBits f rm neg = withSign f neg (if f = .e4m3 then Fmt.maxMag f
    else match rm with
      | .rne | .sr => Fmt.maxMag f + 1
      | .rtz => Fmt.maxMag f
      | .rdn => if neg then Fmt.maxMag f + 1 else Fmt.maxMag f
      | .rup => if neg then Fmt.maxMag f else Fmt.maxMag f + 1) := by
  unfold overflowBits
  split
  · rfl
  · next he =>
    have hinf (neg : Bool) : infBits f neg = withSign f neg (Fmt.maxMag f + 1) := by rw [infBits, if_neg he, infMag_eq hf he]
    cases rm <;> cases neg <;> simp [hinf]

/-- A rounded magnitude as the result: limited, and flushed (R73, R79, R84). -/
theorem flush_limited {c : FpCtx} (hc : c.fmt = f) (m : Nat) (neg : Bool) :
    flush f c.ftz (if m > Fmt.maxMag f then overflowBits f c.rm neg else withSign f neg m) = rounded c neg m := by
  obtain ⟨hlow, hhigh⟩ := maxMag_bounds hf
  subst hc
  simp only [rounded, largestMag_eq hf]
  by_cases hm : m ≤ Fmt.maxMag c.fmt
  · rw [if_neg (Nat.not_lt.mpr hm), flush_withSign (by omega), if_pos hm]
    rfl
  · have hkeep (x : Nat) (hx : Fmt.maxMag c.fmt ≤ x) (hx' : x ≤ Fmt.maxMag c.fmt + 1) : flush c.fmt c.ftz (withSign c.fmt neg x) = withSign c.fmt neg x := by
      rw [flush_withSign (by omega), if_neg (by omega)]
    rw [if_pos (Nat.not_le.mp hm), if_neg hm, overflowBits_eq hf, hkeep]
    · rfl
    all_goals
      split
      · omega
      · cases c.rm <;> cases neg <;> simp

end

/-! ### The one rounding -/

section
variable {c : FpCtx} (hf : Fmt.isFloat c.fmt = true)
include hf

/-- An exact result rounds to the magnitude of the grid that the mode names, limited and flushed (R73, R78, R79, R82, R84). -/
theorem round_num {rnd ln mant k : Nat} {exp : Int} {neg sticky : Bool} {v : ℚ} (hm : mant ≠ 0) (hv : Exact.holds mant exp sticky v)
    (hsticky : sticky = true → 2 ^ (Fmt.fracBits c.fmt + 28) ≤ mant) (hlo : magVal c.fmt k ≤ v) (hhi : v < magVal c.fmt (k + 1)) :
    c.round rnd ln (.num neg mant exp sticky) = (rounded c neg (roundMag c.fmt c.rm rnd neg v k), false) := by
  rw [← roundMag_of_holds hm hv (by have := (float_widths hf).1; omega) hsticky hlo hhi, ← flush_limited hf rfl]
  rfl

omit hf in
theorem quiet_or_self {i x : Nat} (hx : x < 2 ^ i) : (2 ^ i + x) ||| 2 ^ i = 2 ^ i + x := by
  have hor := Nat.two_pow_add_eq_or_of_lt hx 1
  rw [Nat.mul_one] at hor
  rw [hor, Nat.or_assoc, Nat.or_comm x, ← Nat.or_assoc, Nat.or_self]

/-- The generated NaN of each format: quiet, with as much of the fold of the address as its fraction holds (R86). -/
theorem round_invalid (rnd ln : Nat) : c.round rnd ln .invalid = (match c.fmt with
    | .fp32 => 0x7FC00000 + c.pc.toNat / 2 ^ 2 % 2 ^ 14 * 2 ^ 8 + ln % 256
    | .bf16 => 0x7FC0 + c.pc.toNat / 2 ^ 10 % 2 ^ 6
    | .fp16 => 0x7E00 + c.pc.toNat / 2 ^ 7 % 2 ^ 9
    | .e4m3 => 0x7F
    | _ => 0x7E + c.pc.toNat / 2 ^ 15 % 2, true) := by
  have hfrac : generatedFrac c.pc ln = 2 ^ 22 + c.pc.toNat / 2 ^ 2 % 2 ^ 14 * 2 ^ 8 + ln % 256 := by rw [generatedFrac, bitsOf_eq_div]
  have hround : c.round rnd ln .invalid = (nanBits c.fmt false (generatedFrac c.pc ln) true, true) := rfl
  have hbits (he : c.fmt ≠ .e4m3) (x : Nat) (hx : x < 2 ^ (Fmt.fracBits c.fmt - 1))
      (hfr : generatedFrac c.pc ln / 2 ^ (23 - Fmt.fracBits c.fmt) = 2 ^ (Fmt.fracBits c.fmt - 1) + x) :
      nanBits c.fmt false (generatedFrac c.pc ln) true = Fmt.infMag c.fmt + (2 ^ (Fmt.fracBits c.fmt - 1) + x) := by
    simp only [nanBits, if_neg he, hfr, if_true, quiet_or_self hx, withSign, Bool.false_eq_true, if_false, Nat.zero_add]
  rw [hround]
  generalize hfmt : c.fmt = f at hf hbits
  cases f with
  | fp32 =>
    rw [hbits nofun (c.pc.toNat / 2 ^ 2 % 2 ^ 14 * 2 ^ 8 + ln % 256) (by simp only [Fmt.fracBits]; omega) (by simp only [hfrac, Fmt.fracBits]; omega)]
    simp only [Fmt.infMag, Fmt.expBits, Fmt.fracBits, Prod.mk.injEq, and_true]
    omega
  | bf16 =>
    rw [hbits nofun (c.pc.toNat / 2 ^ 10 % 2 ^ 6) (by simp only [Fmt.fracBits]; omega) (by simp only [hfrac, Fmt.fracBits]; omega)]
    simp only [Fmt.infMag, Fmt.expBits, Fmt.fracBits, Prod.mk.injEq, and_true]
    omega
  | fp16 =>
    rw [hbits nofun (c.pc.toNat / 2 ^ 7 % 2 ^ 9) (by simp only [Fmt.fracBits]; omega) (by simp only [hfrac, Fmt.fracBits]; omega)]
    simp only [Fmt.infMag, Fmt.expBits, Fmt.fracBits, Prod.mk.injEq, and_true]
    omega
  | e4m3 => rfl
  | e5m2 =>
    rw [hbits nofun (c.pc.toNat / 2 ^ 15 % 2) (by simp only [Fmt.fracBits]; omega) (by simp only [hfrac, Fmt.fracBits]; omega)]
    simp only [Fmt.infMag, Fmt.expBits, Fmt.fracBits, Prod.mk.injEq, and_true]
    omega
  | _ => exact nomatch hf

end

end Sys2Proof.Machine
end

section
/-! Exact sums, products, quotients, roots, powers and logarithms of floating values (R73, R85). -/

namespace Sys2Proof.Machine

/-! ### Exact sums and products -/

section
variable {na nb nc : Bool} {ma mb mc : Nat} {ea eb ec : Int}

/-- The value of a finite number by its signed mantissa (R72). -/
theorem rat_fin (n : Bool) (m : Nat) (e : Int) : Fp.rat (.fin n m e) = signedMant n m * (2 : ℚ) ^ e := by
  cases n <;> simp [Fp.rat, signedMant]

theorem signedMant_not (n : Bool) (m : Nat) : signedMant (!n) m = -signedMant n m := by
  cases n <;> simp [signedMant]

theorem signedMant_mul : signedMant (xor na nb) (ma * mb) = signedMant na ma * signedMant nb mb := by
  cases na <;> cases nb <;> simp [signedMant]

theorem signedMant_eq_zero {n : Bool} {m : Nat} : signedMant n m = 0 ↔ m = 0 := by
  cases n <;> simp [signedMant]

theorem rat_flip (a : Fp) : a.flip.rat = -a.rat := by
  cases a with
  | fin n m e => rw [Fp.flip, rat_fin, rat_fin, signedMant_not, Int.cast_neg, neg_mul]
  | _ => simp [Fp.flip, Fp.rat]

/-- A nonzero signed mantissa with an exponent is an exact result of its value. -/
theorem has_num {t : Int} {e : Int} (ht : t ≠ 0) (zero : Bool) : (Exact.num (decide (t < 0)) t.natAbs e false).has (t * (2 : ℚ) ^ e) zero := by
  have hpos : (0 : ℚ) < (2 : ℚ) ^ e := zpow_pos two_pos _
  have hlt : (t : ℚ) * 2 ^ e < 0 ↔ t < 0 := by rw [← not_le, ← not_le, mul_nonneg_iff_of_pos_right hpos, Int.cast_nonneg_iff]
  have hne : (t : ℚ) * 2 ^ e ≠ 0 := mul_ne_zero (Int.cast_ne_zero.mpr ht) hpos.ne'
  rw [Exact.has, if_neg hne]
  refine ⟨t.natAbs, e, Int.natAbs_ne_zero.mpr ht, ?_, ?_⟩
  · simp only [hlt]
  · rw [abs_mul, abs_of_pos hpos, Nat.cast_natAbs, Int.cast_abs]

theorem has_exactFin (n : Bool) (m : Nat) (e : Int) : (exactFin n m e).has (Fp.rat (.fin n m e)) n := by
  rw [rat_fin]
  by_cases hm : m = 0
  · rw [exactFin, if_pos hm, signedMant_eq_zero.mpr hm, Int.cast_zero, zero_mul, Exact.has, if_pos rfl]
  · have hneg : decide (signedMant n m < 0) = n := by cases n <;> simp [signedMant, Nat.pos_of_ne_zero hm]
    have habs : (signedMant n m).natAbs = m := by cases n <;> simp [signedMant]
    have hhas := has_num (t := signedMant n m) (e := e) (signedMant_eq_zero.not.mpr hm) n
    rwa [hneg, habs, ← show exactFin n m e = .num n m e false from if_neg hm] at hhas

theorem has_addFin (rm : Rm) : (addFin rm na ma ea nb mb eb).has (Fp.rat (.fin na ma ea) + Fp.rat (.fin nb mb eb))
    (if ma = 0 ∧ mb = 0 ∧ na = nb then na else decide (rm = .rdn)) := by
  have hshift (n : Bool) (m : Nat) {e x : Int} (hx : x ≤ e) : Fp.rat (.fin n m e) = (signedMant n (m * 2 ^ (e - x).toNat) : Int) * (2 : ℚ) ^ x := by
    have hsigned : signedMant n (m * 2 ^ (e - x).toNat) = signedMant n m * 2 ^ (e - x).toNat := by cases n <;> simp [signedMant]
    rw [rat_fin, hsigned, Int.cast_mul, mul_assoc, Int.cast_pow, Int.cast_ofNat, ← zpow_natCast, ← zpow_add₀ two_ne_zero, Int.toNat_of_nonneg (by omega),
      Int.sub_add_cancel]
  rw [hshift na ma (min_le_left ea eb), hshift nb mb (min_le_right ea eb), ← add_mul, ← Int.cast_add]
  obtain ⟨t, ht⟩ : ∃ t, t = signedMant na (ma * 2 ^ (ea - min ea eb).toNat) + signedMant nb (mb * 2 ^ (eb - min ea eb).toNat) := ⟨_, rfl⟩
  have hadd : addFin rm na ma ea nb mb eb =
      if t = 0 then .zero (if ma = 0 ∧ mb = 0 ∧ na = nb then na else decide (rm = .rdn)) else .num (decide (t < 0)) t.natAbs (min ea eb) false := by
    rw [ht]
    rfl
  rw [hadd, ← ht]
  split
  · next h0 => rw [h0, Int.cast_zero, zero_mul, Exact.has, if_pos rfl]
  · next h0 => exact has_num h0 _

/-- A sum is exact, and an exact zero has the sign of both where both are zeros of one sign (R73). -/
theorem has_fpAdd (rm : Rm) {zeros : Prop} [Decidable zeros] (hz : zeros ↔ ma = 0 ∧ mb = 0) :
    (fpAdd rm (.fin na ma ea) (.fin nb mb eb)).has (Fp.rat (.fin na ma ea) + Fp.rat (.fin nb mb eb)) (if zeros ∧ na = nb then na else decide (rm = .rdn)) := by
  simp only [hz, and_assoc]
  exact has_addFin rm

theorem rat_mul : Fp.rat (.fin (xor na nb) (ma * mb) (ea + eb)) = Fp.rat (.fin na ma ea) * Fp.rat (.fin nb mb eb) := by
  rw [rat_fin, rat_fin, rat_fin, signedMant_mul, zpow_add₀ two_ne_zero, Int.cast_mul]
  ring

end

/-! ### Quotients and roots -/

theorem isqrtFrom_spec (x n r : Nat) (hlo : r * r ≤ x) (hhi : x < (r + 2 ^ n) * (r + 2 ^ n)) :
    isqrtFrom x n r * isqrtFrom x n r ≤ x ∧ x < (isqrtFrom x n r + 1) * (isqrtFrom x n r + 1) := by
  induction n generalizing r with
  | zero => exact ⟨hlo, hhi⟩
  | succ n ih =>
    have hpow : 2 ^ (n + 1) = 2 ^ n + 2 ^ n := by rw [Nat.pow_succ, Nat.mul_two]
    rw [isqrtFrom]
    split
    · next h => exact ih _ h (by rwa [Nat.add_assoc, ← hpow])
    · next h => exact ih _ hlo (Nat.not_le.mp h)

theorem isqrt_spec (x : Nat) : isqrt x * isqrt x ≤ x ∧ x < (isqrt x + 1) * (isqrt x + 1) := by
  refine isqrtFrom_spec x _ 0 (Nat.zero_le x) ?_
  rw [Nat.zero_add, ← Nat.pow_add]
  exact (lt_two_pow_bitLen x).trans_le (Nat.pow_le_pow_right two_pos (by omega))

/-- A root has half the bits of its square. -/
theorem two_pow_le_isqrt {x n : Nat} (hx : 2 ^ (2 * n) ≤ x) : 2 ^ n ≤ isqrt x := by
  by_contra h
  have hlt : isqrt x + 1 ≤ 2 ^ n := Nat.not_le.mp h
  have hsq := Nat.mul_le_mul hlt hlt
  rw [← Nat.pow_add, ← Nat.two_mul] at hsq
  have := (isqrt_spec x).2
  omega

section
variable {na nb : Bool} {ma mb : Nat} {ea eb : Int}

theorem abs_rat_fin (n : Bool) (m : Nat) (e : Int) : |Fp.rat (.fin n m e)| = m * (2 : ℚ) ^ e := by
  rw [rat_fin, abs_mul, abs_of_pos (a := (2 : ℚ) ^ e) (zpow_pos two_pos e)]
  cases n <;> simp [signedMant]

/-- A quotient is held to within one unit of at least 60 bits (R73). -/
theorem div_near (ha : ma ≠ 0) (hb : mb ≠ 0) : (fpDiv (.fin na ma ea) (.fin nb mb eb)).near (xor na nb) id |Fp.rat (.fin na ma ea) / Fp.rat (.fin nb mb eb)| := by
  have hbpos : (0 : ℚ) < mb := Nat.cast_pos.mpr (Nat.pos_of_ne_zero hb)
  obtain ⟨k, hk⟩ : ∃ k, k = 128 + bitLen mb := ⟨_, rfl⟩
  have hquot : fpDiv (.fin na ma ea) (.fin nb mb eb) = .num (xor na nb) (ma * 2 ^ k / mb) (ea - eb - k) (decide (ma * 2 ^ k % mb ≠ 0)) := by
    subst hk
    simp only [fpDiv, if_neg hb, if_neg ha]
  have hval : |Fp.rat (.fin na ma ea) / Fp.rat (.fin nb mb eb)| = ((ma * 2 ^ k : Nat) : ℚ) / mb * (2 : ℚ) ^ (ea - eb - k) := by
    rw [abs_div, abs_rat_fin, abs_rat_fin, zpow_sub₀ two_ne_zero, zpow_sub₀ two_ne_zero, zpow_natCast]
    push_cast
    field_simp
  have hupos : (0 : ℚ) < (2 : ℚ) ^ (ea - eb - k) := zpow_pos two_pos _
  have hsize : 2 ^ 60 ≤ ma * 2 ^ k / mb := by
    rw [Nat.le_div_iff_mul_le (Nat.pos_of_ne_zero hb), hk, Nat.pow_add]
    calc 2 ^ 60 * mb ≤ 2 ^ 128 * 2 ^ bitLen mb := Nat.mul_le_mul (by decide) (lt_two_pow_bitLen mb).le
      _ ≤ ma * (2 ^ 128 * 2 ^ bitLen mb) := Nat.le_mul_of_pos_left _ (Nat.pos_of_ne_zero ha)
  refine ⟨_, _, _, hquot, hsize, ?_, ?_, ?_⟩
  · rw [hval, id, mul_le_mul_iff_left₀ hupos, le_div_iff₀ hbpos]
    exact_mod_cast Nat.div_mul_le_self _ _
  · rw [hval, id, mul_lt_mul_iff_left₀ hupos, div_lt_iff₀ hbpos]
    exact_mod_cast Nat.lt_mul_of_div_lt (Nat.lt_succ_self _) (Nat.pos_of_ne_zero hb)
  · rw [hval, id, mul_left_inj' hupos.ne', eq_div_iff hbpos.ne', decide_eq_false_iff_not, not_not, ← Nat.dvd_iff_mod_eq_zero, Nat.dvd_iff_div_mul_eq]
    exact_mod_cast Iff.rfl

/-- A root is held to within one unit of at least 60 bits (R73). -/
theorem sqrt_near (ha : ma ≠ 0) : (fpSqrt (.fin false ma ea)).near false (fun x => x * x) (Fp.rat (.fin false ma ea)) := by
  obtain ⟨k, hk⟩ : ∃ k, k = 256 + (ea % 2).toNat := ⟨_, rfl⟩
  obtain ⟨E, hE⟩ : ∃ E, E = (ea - k) / 2 := ⟨_, rfl⟩
  obtain ⟨x, hx⟩ : ∃ x, x = ma * 2 ^ k := ⟨_, rfl⟩
  have hroot : fpSqrt (.fin false ma ea) = .num false (isqrt x) E (decide (isqrt x * isqrt x ≠ x)) := by
    subst hx hE hk
    simp only [fpSqrt, if_neg ha, Bool.false_eq_true, if_false]
  have hupos : (0 : ℚ) < (2 : ℚ) ^ E := zpow_pos two_pos _
  have hval : Fp.rat (.fin false ma ea) = x * ((2 : ℚ) ^ E * (2 : ℚ) ^ E) := by
    rw [rat_fin, hx, ← zpow_add₀ two_ne_zero, show signedMant false ma = (ma : Int) from rfl, Nat.cast_mul, mul_assoc, Nat.cast_pow, Nat.cast_two, ← zpow_natCast,
      ← zpow_add₀ two_ne_zero]
    congr 2
    omega
  have hsq (y : ℚ) : y * 2 ^ E * (y * 2 ^ E) = y * y * (2 ^ E * 2 ^ E) := by ring
  obtain ⟨hlo, hhi⟩ := isqrt_spec x
  refine ⟨_, _, _, hroot, two_pow_le_isqrt ?_, ?_, ?_, ?_⟩
  · rw [hx]
    exact (Nat.pow_le_pow_right two_pos (by omega)).trans (Nat.le_mul_of_pos_left _ (Nat.pos_of_ne_zero ha))
  · beta_reduce
    rw [hval, hsq, mul_le_mul_iff_left₀ (mul_pos hupos hupos)]
    exact_mod_cast hlo
  · beta_reduce
    rw [hval, hsq, mul_lt_mul_iff_left₀ (mul_pos hupos hupos)]
    exact_mod_cast hhi
  · beta_reduce
    rw [hval, hsq, mul_left_inj' (mul_pos hupos hupos).ne', decide_eq_false_iff_not, not_not]
    exact_mod_cast Iff.rfl

/-- A reciprocal root of a number of a floating format is held to within one unit of at least 60 bits (R73). -/
theorem rsqrt_near (ha : ma ≠ 0) (hsize : ma < 2 ^ 24) : (fpRsqrt (.fin false ma ea)).near false (fun x => x * x * Fp.rat (.fin false ma ea)) 1 := by
  obtain ⟨m', hm'⟩ : ∃ m', m' = ma * 2 ^ (ea % 2).toNat := ⟨_, rfl⟩
  obtain ⟨H, hH⟩ : ∃ H, H = (ea - ea % 2) / 2 := ⟨_, rfl⟩
  obtain ⟨r, hr⟩ : ∃ r, r = isqrt (2 ^ 384 / m') := ⟨_, rfl⟩
  have hroot : fpRsqrt (.fin false ma ea) = .num false r (-H - 192) (decide (r * r * m' ≠ 2 ^ 384)) := by
    subst hr hH hm'
    simp only [fpRsqrt, if_neg ha, Bool.false_eq_true, if_false]
  have hpos : 0 < m' := hm' ▸ Nat.mul_pos (Nat.pos_of_ne_zero ha) (Nat.two_pow_pos _)
  have hlt : m' < 2 ^ 26 := by
    have h2 : 2 ^ (ea % 2).toNat ≤ 2 ^ 1 := Nat.pow_le_pow_right two_pos (by omega)
    have := Nat.mul_le_mul_left ma h2
    omega
  have hval : Fp.rat (.fin false ma ea) = m' * ((2 : ℚ) ^ H * (2 : ℚ) ^ H) := by
    rw [rat_fin, hm', ← zpow_add₀ two_ne_zero, show signedMant false ma = (ma : Int) from rfl, Nat.cast_mul, mul_assoc, Nat.cast_pow, Nat.cast_two, ← zpow_natCast,
      ← zpow_add₀ two_ne_zero]
    congr 2
    omega
  have hone (y : ℚ) : y * (2 : ℚ) ^ (-H - 192) * (y * (2 : ℚ) ^ (-H - 192)) * (m' * ((2 : ℚ) ^ H * (2 : ℚ) ^ H)) = y * y * m' / 2 ^ 384 := by
    have hu : (2 : ℚ) ^ H ≠ 0 := (zpow_pos two_pos H).ne'
    have hdouble : (2 : ℚ) ^ 384 = 2 ^ 192 * 2 ^ 192 := pow_add (2 : ℚ) 192 192
    rw [zpow_sub₀ two_ne_zero, zpow_neg, show (2 : ℚ) ^ (192 : Int) = 2 ^ 192 from rfl, hdouble]
    generalize (2 : ℚ) ^ 192 = d
    field_simp
  have htop : (0 : ℚ) < 2 ^ 384 := by positivity
  obtain ⟨hlo, hhi⟩ := isqrt_spec (2 ^ 384 / m')
  rw [← hr] at hlo hhi
  rw [Nat.le_div_iff_mul_le hpos] at hlo
  rw [Nat.div_lt_iff_lt_mul hpos] at hhi
  refine ⟨_, _, _, hroot, hr ▸ two_pow_le_isqrt ?_, ?_, ?_, ?_⟩
  · rw [Nat.le_div_iff_mul_le hpos]
    calc 2 ^ (2 * 60) * m' ≤ 2 ^ (2 * 60) * 2 ^ 26 := Nat.mul_le_mul_left _ hlt.le
      _ ≤ 2 ^ 384 := (Nat.pow_add 2 (2 * 60) 26).symm.trans_le (Nat.pow_le_pow_right two_pos (by decide))
  · beta_reduce
    rw [hval, hone, div_le_one htop]
    exact_mod_cast hlo
  · beta_reduce
    rw [hval, hone, one_lt_div htop]
    exact_mod_cast hhi
  · beta_reduce
    rw [hval, hone, div_eq_one_iff_eq htop.ne', decide_eq_false_iff_not, not_not]
    exact_mod_cast Iff.rfl

end

/-! ### Exact powers and logarithms -/

section
variable {n : Bool} {m : Nat} {e : Int}

/-- 2 to the power of an integer in reach is exact (R73). -/
theorem exp2_of_int {k : Int} (hm : m ≠ 0) (hk : Fp.rat (.fin n m e) = k) (hsize : |k| < 2 ^ 16) : fpExp2 (.fin n m e) = .num false 1 k false := by
  rw [rat_fin] at hk
  by_cases he : 0 ≤ e
  · obtain ⟨j, rfl⟩ := Int.eq_ofNat_of_zero_le he
    have hkj : signedMant n (m * 2 ^ j) = k := by
      have hsigned : signedMant n (m * 2 ^ j) = signedMant n m * 2 ^ j := by cases n <;> simp [signedMant]
      rw [hsigned]
      rw [zpow_natCast] at hk
      exact_mod_cast hk
    have hj : j ≤ 16 := by
      have habs : m * 2 ^ j < 2 ^ 16 := by
        have hcast : |k| = ((m * 2 ^ j : Nat) : Int) := by rw [← hkj]; cases n <;> simp [signedMant, abs_mul]
        rw [hcast] at hsize
        exact_mod_cast hsize
      exact (Nat.pow_lt_pow_iff_right one_lt_two).mp ((Nat.le_mul_of_pos_left _ (Nat.pos_of_ne_zero hm)).trans_lt habs) |>.le
    simp only [fpExp2, if_neg hm, if_pos he, Int.toNat_natCast, Nat.min_eq_left hj, hkj]
  · obtain ⟨j, hj⟩ : ∃ j : Nat, (-e).toNat = j := ⟨_, rfl⟩
    have hkj : signedMant n m = k * (2 ^ j : Nat) := by
      rw [show e = -(j : Int) by omega, zpow_neg, zpow_natCast, mul_inv_eq_iff_eq_mul₀ (by positivity)] at hk
      exact_mod_cast hk
    have hpos : ((2 ^ j : Nat) : Int) ≠ 0 := by positivity
    simp only [fpExp2, if_neg hm, if_neg he, hj, hkj, Int.mul_emod_left, Int.toNat_zero, if_true, Int.mul_ediv_cancel _ hpos]

/-- The logarithm of a power of two is exact (R73). -/
theorem log2_of_pow {k : Int} (hk : Fp.rat (.fin false m e) = (2 : ℚ) ^ k) : fpLog2 (.fin false m e) = exactInt k := by
  have hmant : (m : ℚ) = (2 : ℚ) ^ (k - e) := by
    rw [zpow_sub₀ two_ne_zero, eq_div_iff (zpow_pos two_pos e).ne', ← hk, rat_fin]
    rfl
  have hm : m ≠ 0 := by
    rintro rfl
    exact (zpow_pos (two_pos (α := ℚ)) (k - e)).ne hmant
  have hke : 0 ≤ k - e := by
    by_contra h
    have hle : (2 : ℚ) ^ (k - e) ≤ (2 : ℚ) ^ (-1 : Int) := zpow_le_zpow_right₀ one_le_two (by omega)
    have hone : (1 : ℚ) ≤ m := by exact_mod_cast Nat.pos_of_ne_zero hm
    rw [hmant] at hone
    norm_num at hle
    linarith
  obtain ⟨j, hj⟩ := Int.eq_ofNat_of_zero_le hke
  have hpow : m = 2 ^ j := by
    rw [hj, zpow_natCast] at hmant
    exact_mod_cast hmant
  have hlen : bitLen m = j + 1 := by rw [bitLen, if_neg hm, hpow, Nat.log2_two_pow]
  simp only [fpLog2, if_neg hm, Bool.false_eq_true, if_false, hlen, Nat.add_sub_cancel, if_pos hpow]
  congr 1
  omega

end

/-- Settles O15: the results are exact, and `round_num` gives the one rounding. -/
theorem floatingResultsAreExactAndRoundedOnce : Obligations.FloatingResultsAreExactAndRoundedOnce := by
  unfold Obligations.FloatingResultsAreExactAndRoundedOnce
  refine ⟨?_, ?_, ?_, ?_⟩
  · intro c rnd ln hf f w top sign
    have hf' : Fmt.isFloat f = true := hf
    have htop : top = Fmt.maxMag f := largestMag_eq hf'
    have hsign (neg : Bool) (m : Nat) : sign neg + m = withSign f neg m := rfl
    obtain ⟨hnormal, hlast⟩ := maxMag_bounds hf'
    refine ⟨fun neg m e v k hm hv hlo hhi => round_num hf hm hv nofun hlo hhi, fun neg m e v k hm hv hv' hlo hhi =>
        round_num hf (by have := Nat.two_pow_pos (w + 28); omega) ⟨hv, hv'⟩ (fun _ => hm) hlo hhi, fun neg => ⟨rfl, ?_, fun frac _ => ?_⟩,
      round_invalid hf rnd ln, fun neg m hm => ?_, fun neg he => ?_, fun neg m hlt hm hne => ?_⟩
    · have hinf : c.round rnd ln (.inf neg) = (infBits f neg, false) := rfl
      rw [hinf, infBits]
      split
      · rfl
      · next he => rw [infMag_eq hf' he, htop, hsign]
    · have hnan : c.round rnd ln (.nan neg frac) = (nanBits f neg frac true, false) := rfl
      rw [hnan, nanBits]
      split
      · rfl
      · next he =>
        rw [infMag_eq hf' he, htop, hsign]
        rfl
    · rw [hsign]
      exact of_withSign_finite (by omega) (htop ▸ hm) neg
    · rw [hsign, htop]
      exact of_withSign_inf hf' he neg
    · rw [hsign]
      refine of_withSign_nan hm (htop ▸ hlt) ?_ neg
      refine or_iff_not_imp_left.mpr fun he => frac_ne_zero_of_nan hf' (htop ▸ hlt) hm ?_ he
      exact htop ▸ hne.resolve_left he
  · rintro rm a b c n1 n2 n3 m1 m2 m3 e1 e2 e3 rfl rfl rfl zero
    have hproduct (negate : Bool) : fpFma rm negate (.fin n1 m1 e1) (.fin n2 m2 e2) (.fin n3 m3 e3) =
        fpAdd rm (.fin (xor negate (xor n1 n2)) (m1 * m2) (e1 + e2)) (.fin n3 m3 e3) := by cases negate <;> simp [fpFma, mulFin, Fp.flip]
    refine ⟨has_fpAdd rm Iff.rfl, ?_, ?_, ?_, ?_, div_near, fun ha hb => ?_, fun ha hb => ?_, fun ha hb => ?_, fun hm hneg => ?_, fun hm hneg => ?_, fun hm => ?_,
      fun k hm hk => exp2_of_int hm hk, fun k hneg hk => ?_⟩
    · rw [sub_eq_add_neg, ← rat_flip]
      exact has_fpAdd rm Iff.rfl
    · rw [← rat_mul]
      exact has_exactFin _ _ _
    · rw [hproduct, ← rat_mul, Bool.false_xor]
      exact has_fpAdd rm Iff.rfl
    · rw [hproduct, sub_eq_neg_add, ← rat_mul, ← rat_flip, Bool.true_xor]
      exact has_fpAdd rm Iff.rfl
    · simp [fpDiv, ha, hb]
    · simp [fpDiv, ha, hb]
    · simp [fpDiv, ha, hb]
    · simp [fpSqrt, fpRsqrt, fpLog2, hm, hneg]
    · subst hneg
      exact ⟨sqrt_near hm, rsqrt_near hm⟩
    · simp [fpSqrt, fpRsqrt, fpLog2, fpExp2, hm]
    · subst hneg
      exact log2_of_pow hk
  · intro rm n m k e
    have hless : fpSub rm (.inf n) (.inf m) = if n = m then .invalid else .inf n := by cases n <;> cases m <;> rfl
    have hright (hk : k ≠ 0) : fpMul (.inf n) (.fin m k e) = .inf (xor n m) := by simp only [fpMul, mulFin, if_neg hk, Fp.exact]
    have hleft (hk : k ≠ 0) : fpMul (.fin m k e) (.inf n) = .inf (xor n m) := by simp only [fpMul, mulFin, if_neg hk, Fp.exact, Bool.xor_comm]
    exact ⟨rfl, rfl, rfl, hless, rfl, fun hk => ⟨hright hk, hleft hk⟩, rfl, rfl, rfl, rfl, rfl, rfl, rfl, rfl, rfl⟩
  · intro rm neg a b c n f
    refine ⟨?_, fun ha hb => ?_, fun ha hb hc => ?_⟩
    · rintro rfl
      simp [fpAdd, fpSub, fpMul, mulFin, Fp.exact, fpDiv, fpFma, fpSqrt, fpRsqrt, fpExp2, fpLog2]
    · subst hb
      cases a with
      | nan n f => exact absurd rfl (ha n f)
      | inf n => simp [fpAdd, fpSub, Fp.flip, fpMul, mulFin, Fp.exact, fpDiv, fpFma]
      | fin n m e => simp [fpAdd, fpSub, Fp.flip, fpMul, mulFin, Fp.exact, fpDiv, fpFma]
    · subst hc
      cases a with
      | nan n f => exact absurd rfl (ha n f)
      | inf n =>
        cases b with
        | nan n f => exact absurd rfl (hb n f)
        | _ => rfl
      | fin n m e =>
        cases b with
        | nan n f => exact absurd rfl (hb n f)
        | _ => rfl

end Sys2Proof.Machine
end

section
/-! The memories stay canonical through each part of the model (log 3): memory, pages, accesses, traps and operands. -/

namespace Sys2Proof.Machine

/-! ### Parts that keep the memories canonical -/

/-- A part that keeps the memories canonical, by the way it is put together: each part of it does, where what it writes back is canonical. -/
inductive Tidy : {α : Type} → M α → Prop where
  | pure {α : Type} (a : α) : Tidy (pure a)
  | get : Tidy get
  | throw {α : Type} (e : Stop) : Tidy (throw e : M α)
  | getThen {β : Type} {f : State → M β} (hf : ∀ s, s.MemInv → Tidy (f s)) : Tidy (get >>= f)
  | bind {α β : Type} {x : M α} {f : α → M β} (hx : Tidy x) (hf : ∀ a, Tidy (f a)) : Tidy (x >>= f)
  | map {α β : Type} {f : α → β} {x : M α} (hx : Tidy x) : Tidy (f <$> x)
  | modify {f : State → State} (hf : ∀ s, s.MemInv → (f s).MemInv) : Tidy (modify f)
  | set {s : State} (hs : s.MemInv) : Tidy (set s)
  | ite {α : Type} {c : Prop} [Decidable c] {x y : M α} (hx : Tidy x) (hy : Tidy y) : Tidy (if c then x else y)
  | each {α : Type} {l : List α} {f : α → M Unit} (hf : ∀ a, Tidy (f a)) : Tidy (each l f)
  | eachMap {α β : Type} {l : List α} {f : α → M β} (hf : ∀ a, Tidy (f a)) : Tidy (eachMap l f)
  | eachFold {α β : Type} {l : List α} {b : β} {f : β → α → M β} (hf : ∀ b a, Tidy (f b a)) : Tidy (eachFold l b f)
  | attempt {α : Type} {x : M α} (hx : Tidy x) : Tidy (attempt x)
  | keeping {α : Type} {x : M α} (hx : Tidy x) : Tidy (keeping x)
  | probe {α : Type} {x : M α} (hx : Tidy x) : Tidy (probe x)
  | withSub {α : Type} {c : BitVec 8} {b : BitVec 5} {x : M α} (hx : Tidy x) : Tidy (withSub c b x)
  | atRecord {α : Type} {va : Word64} {x : M α} (hx : Tidy x) : Tidy (atRecord va x)
  | asHart {α : Type} {slot : Nat} {st : StreamId} {x : M α} (hx : Tidy x) : Tidy (asHart slot st x)

/-- A part that looks at the state goes on from a state with the property. -/
theorem keeps_get_of {β : Type} {P : State → Prop} {f : State → M β} (hf : ∀ s, P s → Keeps P (f s)) : Keeps P (get >>= f) :=
  ⟨fun s hs => (hf s hs).run s hs⟩

theorem keeps_set {P : State → Prop} {s : State} (hs : P s) : Keeps P (set s : M PUnit) := ⟨fun _ _ => hs⟩

theorem keeps_asHart {α : Type} {x : M α} {slot : Nat} {st : StreamId} (hx : Keeps State.MemInv x) : Keeps State.MemInv (asHart slot st x) :=
  keeps_get_of fun _ hs => keeps_bind (keeps_set hs) fun _ => keeps_bind hx fun _ => keeps_bind (keeps_modify fun _ hs => hs) fun _ => keeps_pure _

/-- A part put together of such parts keeps the memories canonical. -/
theorem keeps_of_tidy {α : Type} {x : M α} (hx : Tidy x) : Keeps State.MemInv x := by
  induction hx with
  | pure a => exact keeps_pure a
  | get => exact keeps_get
  | throw e => exact keeps_throw e
  | getThen _ ih => exact keeps_get_of ih
  | bind _ _ hx hf => exact keeps_bind hx hf
  | map _ hx => exact keeps_map _ hx
  | modify hf => exact keeps_modify hf
  | set hs => exact keeps_set hs
  | ite _ _ hx hy => exact keeps_if hx hy
  | each _ hf => exact keeps_each hf _
  | eachMap _ hf => exact keeps_eachMap hf _
  | eachFold _ hf => exact keeps_eachFold hf _ _
  | attempt _ hx => exact keeps_attempt hx
  | keeping _ hx => exact keeps_keeping hx
  | probe _ hx => exact keeps_probe hx
  | withSub _ hx => exact keeps_withSub hx _ _
  | atRecord _ hx => exact keeps_atRecord hx _
  | asHart _ hx => exact keeps_asHart hx

/-- A part that keeps the memories canonical is one, whatever it is put together of: it looks at the state, and leaves the one in which it ends. -/
theorem tidy_of_keeps {α : Type} {x : M α} (hx : Keeps State.MemInv x) : Tidy x := by
  have hrun : x = get >>= fun s => set (endState (x s)) >>= fun _ => match x s with
      | .ok a _ => pure a
      | .error e _ => throw e := by
    funext s
    simp only [run_bind, run_get, run_set]
    cases x s <;> rfl
  rw [hrun]
  refine .getThen fun s hs => .bind (.set (hx.run s hs)) fun _ => ?_
  cases x s with
  | ok a t => exact .pure a
  | error e t => exact .throw e

@[simp] theorem modCore_memInv {s : State} {core : Nat} {f : Core → Core} : (s.modCore core f).MemInv ↔ s.MemInv := by
  unfold State.modCore
  split <;> exact Iff.rfl

/-! ### The parts of the model's file Monad -/

@[simp] theorem tidy_trap {α : Type} (cause : BitVec 8) (etval : Word64) (sub : BitVec 5) :
    Tidy (trap cause etval sub : M α) := tidy_of_keeps (keeps_trap ..)

@[simp] theorem tidy_waitFor {α : Type} (w : Wait) : Tidy (waitFor w : M α) := tidy_of_keeps (keeps_waitFor ..)

@[simp] theorem tidy_freeWord : Tidy freeWord := tidy_of_keeps (keeps_freeWord memInv_closed)

@[simp] theorem tidy_freeBool : Tidy freeBool := tidy_of_keeps (keeps_freeBool memInv_closed)

@[simp] theorem tidy_freeBytes (n : Nat) : Tidy (freeBytes n) := tidy_of_keeps (keeps_freeBytes memInv_closed ..)

@[simp] theorem tidy_newId : Tidy newId := .getThen fun _ hs => .bind (.set hs) fun _ => .pure _

@[simp] theorem tidy_getHart : Tidy getHart := by
  unfold getHart
  repeat' first | with_reducible constructor | intro _ | split

@[simp] theorem tidy_setHart (h : Hart) : Tidy (setHart h) := by
  unfold setHart
  repeat' first | assumption | with_reducible constructor | intro _

@[simp] theorem tidy_modHart (f : Hart → Hart) : Tidy (modHart f) := by
  unfold modHart
  repeat' first | with_reducible constructor | intro _ | simp

@[simp] theorem tidy_curStream : Tidy curStream := by
  unfold curStream
  repeat' first | with_reducible constructor | intro _

@[simp] theorem tidy_curWord : Tidy curWord := by
  unfold curWord
  repeat' first | with_reducible constructor | intro _

@[simp] theorem tidy_trapWord {α : Type} (cause : BitVec 8) (sub : BitVec 5) : Tidy (trapWord cause sub : M α) := by
  unfold trapWord
  repeat' first | with_reducible constructor | intro _ | simp

@[simp] theorem tidy_modCore (c : Nat) (f : Core → Core) : Tidy (modCore c f) := tidy_of_keeps (keeps_modCore memInv_closed ..)

/-! ### The parts of the model's file Mem -/

@[simp] theorem tidy_readPA (slot a n : Nat) : Tidy (readPA slot a n) := tidy_of_keeps (keeps_readPA memInv_closed ..)

@[simp] theorem tidy_writePA (slot a v n : Nat) : Tidy (writePA slot a v n) := tidy_of_keeps (keeps_writePA memInv_closed ..)

@[simp] theorem tidy_dropL1 (core sec : Nat) : Tidy (dropL1 core sec) := tidy_of_keeps (keeps_dropL1 memInv_closed ..)

@[simp] theorem tidy_sendOn (port : Nat) (m : PeerMsg) : Tidy (sendOn port m) := tidy_of_keeps (keeps_sendOn memInv_closed ..)

@[simp] theorem tidy_sendFlit (f : Nat) (m : PeerMsg) : Tidy (sendFlit f m) := tidy_of_keeps (keeps_sendFlit memInv_closed ..)

@[simp] theorem tidy_makeRoom (f n : Nat) : Tidy (makeRoom f n) := tidy_of_keeps (keeps_makeRoom memInv_closed ..)

@[simp] theorem tidy_tellPeer (f : Nat) (m : PeerMsg) : Tidy (tellPeer f m) := by
  unfold tellPeer
  repeat' first | with_reducible constructor | intro _ | simp | split

@[simp] theorem tidy_tellPeers (m : PeerMsg) : Tidy (tellPeers m) := by
  unfold tellPeers
  repeat' first | with_reducible constructor | intro _ | simp

@[simp] theorem tidy_drain (f : PendingStore → Bool) : Tidy (drain f) := tidy_of_keeps (keeps_drain memInv_closed ..)

@[simp] theorem tidy_drainVia (a n : Nat) : Tidy (drainVia a n) := tidy_of_keeps (keeps_drainVia memInv_closed ..)

@[simp] theorem tidy_awaitEntry (a n : Nat) : Tidy (awaitEntry a n) := by
  unfold awaitEntry
  repeat' first | with_reducible constructor | intro _ | simp

@[simp] theorem tidy_hwWrite (a v n : Nat) : Tidy (hwWrite a v n) := tidy_of_keeps (keeps_hwWrite memInv_closed ..)

@[simp] theorem tidy_hwRead (a n : Nat) : Tidy (hwRead a n) := tidy_of_keeps (keeps_hwRead memInv_closed ..)

@[simp] theorem tidy_loadLoc (who : Loader) (via : LoadVia) (key : Nat) (l : Loc) (n : Nat) :
    Tidy (loadLoc who via key l n) := tidy_of_keeps (keeps_loadLoc memInv_closed ..)

/-! ### The parts of the model's file Page -/

@[simp] theorem tidy_pcbWord (off : Nat) : Tidy (pcbWord off) := tidy_of_keeps (keeps_pcbWord memInv_closed ..)

@[simp] theorem tidy_frameRec (frame : Nat) : Tidy (frameRec frame) := tidy_of_keeps (keeps_frameRec memInv_closed ..)

@[simp] theorem tidy_putFrameRec (r : FrameRec) : Tidy (putFrameRec r) := tidy_of_keeps (keeps_putFrameRec memInv_closed ..)

@[simp] theorem tidy_leafValid (l : Leaf) : Tidy (leafValid l) := tidy_of_keeps (keeps_leafValid memInv_closed ..)

@[simp] theorem tidy_walk (root va : Nat) : Tidy (walk root va) := tidy_of_keeps (keeps_walk memInv_closed ..)

@[simp] theorem tidy_Req_fault {α : Type} (q : Req) (sub : BitVec 5) : Tidy (Req.fault q sub : M α) := tidy_of_keeps (keeps_fault ..)

@[simp] theorem tidy_lookup (q : Req) : Tidy (lookup q) := tidy_of_keeps (keeps_lookup memInv_closed ..)

@[simp] theorem tidy_readOverlay (addr : Nat) : Tidy (readOverlay addr) := tidy_of_keeps (keeps_readOverlay memInv_closed ..)

@[simp] theorem tidy_Overlay_put (o : Overlay) : Tidy (Overlay.put o) := by
  unfold Overlay.put
  exact tidy_hwWrite ..

@[simp] theorem tidy_give (holder ring x : Nat) : Tidy (give holder ring x) := tidy_of_keeps (keeps_give memInv_closed ..)

@[simp] theorem tidy_take (ring : Nat) : Tidy (take ring) := tidy_of_keeps (keeps_take memInv_closed ..)

@[simp] theorem tidy_hold (holder x name : Nat) : Tidy (hold holder x name) := tidy_of_keeps (keeps_hold memInv_closed ..)

@[simp] theorem tidy_dropEverywhere (secs : List Nat) : Tidy (dropEverywhere secs) := tidy_of_keeps (keeps_dropEverywhere memInv_closed ..)

@[simp] theorem tidy_hwWriteUnder (key a v n : Nat) : Tidy (hwWriteUnder key a v n) := tidy_of_keeps (keeps_hwWriteUnder memInv_closed ..)

@[simp] theorem tidy_copyHome (srcKey src dstKey dst n : Nat) :
    Tidy (copyHome srcKey src dstKey dst n) := tidy_of_keeps (keeps_copyHome memInv_closed ..)

@[simp] theorem tidy_copyHeldBy (copy : Nat → Nat → Nat → Nat → Nat → M Unit) (src dst : Nat × Nat) (srcKey a dstKey b n : Nat)
    (hcopy : ∀ a b c d e, Tidy (copy a b c d e)) :
    Tidy (copyHeldBy copy src dst srcKey a dstKey b n) := by
  unfold copyHeldBy
  repeat' first | with_reducible constructor | intro _ | simp [*]

@[simp] theorem tidy_copyHeld (src dst : Nat × Nat) (srcKey a dstKey b n : Nat) :
    Tidy (copyHeld src dst srcKey a dstKey b n) := tidy_of_keeps (keeps_copyHeld memInv_closed ..)

@[simp] theorem tidy_frameKey (key frame : Nat) : Tidy (frameKey key frame) := tidy_of_keeps (keeps_frameKey memInv_closed ..)

@[simp] theorem tidy_copyOnWrite (q : Req) (l : Leaf) (o : Overlay) (i : Nat) :
    Tidy (copyOnWrite q l o i) := tidy_of_keeps (keeps_copyOnWrite memInv_closed ..)

@[simp] theorem tidy_baseTarget (q : Req) (l : Leaf) : Tidy (baseTarget q l) := tidy_of_keeps (keeps_baseTarget ..)

@[simp] theorem tidy_resolve (q : Req) (l : Leaf) : Tidy (resolve q l) := tidy_of_keeps (keeps_resolve memInv_closed ..)

@[simp] theorem tidy_setA (l : Leaf) : Tidy (setA l) := tidy_of_keeps (keeps_setA memInv_closed ..)

@[simp] theorem tidy_putLeaf (l : Leaf) (frame tier : Nat) (a : Bool) :
    Tidy (putLeaf l frame tier a) := tidy_of_keeps (keeps_putLeaf memInv_closed ..)

/-! ### The parts of the model's file Access -/

@[simp] theorem tidy_actor : Tidy actor := by
  unfold actor
  repeat' first | with_reducible constructor | intro _ | simp

@[simp] theorem tidy_Actor_req (a : Actor) (kind : Kind) (va : Word64) (z : Option Bool) (dry : Bool) :
    Tidy (Actor.req a kind va z dry) := tidy_of_keeps (keeps_req ..)

@[simp] theorem tidy_Actor_local (a : Actor) (kind : Kind) (va : Word64) (n : Nat) : Tidy (Actor.local a kind va n) := tidy_of_keeps (keeps_local ..)

@[simp] theorem tidy_Actor_find (a : Actor) (kind : Kind) (va : Word64) (n : Nat) (z : Option Bool) (dry : Bool) :
    Tidy (Actor.find a kind va n z dry) := tidy_of_keeps (keeps_find memInv_closed ..)

@[simp] theorem tidy_Actor_place (a : Actor) (kind : Kind) (va : Word64) (n : Nat) (z : Option Bool) (dry : Bool) :
    Tidy (Actor.place a kind va n z dry) := tidy_of_keeps (keeps_place memInv_closed ..)

@[simp] theorem tidy_dropOwn (slot : Nat) (l : Loc) (n : Nat) : Tidy (dropOwn slot l n) := tidy_of_keeps (keeps_dropOwn memInv_closed ..)

@[simp] theorem tidy_drainHart (slot : Nat) : Tidy (drainHart slot) := tidy_of_keeps (keeps_drainHart memInv_closed ..)

@[simp] theorem tidy_drainStream (slot : Nat) (st : StreamId) : Tidy (drainStream slot st) := tidy_of_keeps (keeps_drainStream memInv_closed ..)

@[simp] theorem tidy_Actor_load (a : Actor) (via : LoadVia) (va : Word64) (n : Nat) (z : Option Bool) :
    Tidy (Actor.load a via va n z) := tidy_of_keeps (keeps_load memInv_closed ..)

@[simp] theorem tidy_Actor_note (a : Actor) (p : PendingStore) : Tidy (Actor.note a p) := tidy_of_keeps (keeps_note memInv_closed ..)

@[simp] theorem tidy_Actor_performNow (a : Actor) (l : Loc) (n : Nat) (p : PendingStore) :
    Tidy (Actor.performNow a l n p) := tidy_of_keeps (keeps_performNow memInv_closed ..)

@[simp] theorem tidy_Actor_store (a : Actor) (va : Word64) (n v mask : Nat) :
    Tidy (Actor.store a va n v mask) := tidy_of_keeps (keeps_store memInv_closed ..)

@[simp] theorem tidy_Actor_storeNow (a : Actor) (va : Word64) (n v : Nat) (z : Option Bool) (mask : Option Nat) :
    Tidy (Actor.storeNow a va n v z mask) := tidy_of_keeps (keeps_storeNow memInv_closed ..)

@[simp] theorem tidy_Actor_holdAtomic (a : Actor) (va : Word64) (n : Nat) (op : AmoOp) (b e : Nat) (as : HoldAs) :
    Tidy (Actor.holdAtomic a va n op b e as) := tidy_of_keeps (keeps_holdAtomic memInv_closed ..)

@[simp] theorem tidy_Actor_readHome (a : Actor) (p : Place) (va : Word64) (n : Nat) :
    Tidy (Actor.readHome a p va n) := tidy_of_keeps (keeps_readHome memInv_closed ..)

@[simp] theorem tidy_Actor_atomic (a : Actor) (va : Word64) (n : Nat) (op : AmoOp) (b e : Nat) :
    Tidy (Actor.atomic a va n op b e) := tidy_of_keeps (keeps_atomic memInv_closed ..)

@[simp] theorem tidy_interlockLines (lo hi : Nat) (write : Bool) : Tidy (interlockLines lo hi write) := by
  unfold interlockLines
  repeat' first | with_reducible constructor | intro _ | simp

@[simp] theorem tidy_interlock (va : Word64) (n : Nat) (write : Bool) : Tidy (interlock va n write) := by
  unfold interlock
  simp

@[simp] theorem tidy_aligned (va : Word64) (n : Nat) : Tidy (aligned va n) := by
  unfold aligned
  repeat' first | with_reducible constructor | intro _ | simp

/-! ### The parts of the model's file Ops -/

@[simp] theorem tidy_rS (r : SReg) : Tidy (rS r) := by
  unfold rS
  repeat' first | with_reducible constructor | intro _ | simp

@[simp] theorem tidy_wS (r : SReg) (v : Word64) : Tidy (wS r v) := by
  unfold wS
  repeat' first | with_reducible constructor | intro _ | simp

@[simp] theorem tidy_retire : Tidy retire := by
  unfold retire
  repeat' first | with_reducible constructor | intro _ | simp

@[simp] theorem tidy_curPc : Tidy curPc := by
  unfold curPc
  repeat' first | with_reducible constructor | intro _ | simp

@[simp] theorem tidy_jumpTo (v : Word64) : Tidy (jumpTo v) := by
  unfold jumpTo
  repeat' first | with_reducible constructor | intro _ | simp

@[simp] theorem tidy_onlyX : Tidy onlyX := by
  unfold onlyX
  repeat' first | with_reducible constructor | intro _ | simp

@[simp] theorem tidy_onlyA : Tidy onlyA := by
  unfold onlyA
  repeat' first | with_reducible constructor | intro _ | simp

@[simp] theorem tidy_onlyS : Tidy onlyS := by
  unfold onlyS
  repeat' first | with_reducible constructor | intro _ | simp

@[simp] theorem tidy_onlyMg : Tidy onlyMg := by
  unfold onlyMg
  repeat' first | with_reducible constructor | intro _ | (simp; done) | split

@[simp] theorem tidy_needLive : Tidy needLive := by
  unfold needLive
  repeat' first | with_reducible constructor | intro _ | simp

@[simp] theorem tidy_refreshPoint (st : StreamId) : Tidy (refreshPoint st) := by
  unfold refreshPoint
  repeat' first | with_reducible constructor | intro _ | simp

@[simp] theorem tidy_stopContext (asid : Nat) : Tidy (stopContext asid) := by
  unfold stopContext
  repeat' first | assumption | with_reducible constructor | intro _

@[simp] theorem tidy_pauseParts (asid d : Nat) : Tidy (pauseParts asid d) := by
  unfold pauseParts
  repeat' first | assumption | with_reducible constructor | intro _ | simp

@[simp] theorem tidy_doubleFault (cause : BitVec 8) (addr : Word64) : Tidy (doubleFault cause addr) := by
  unfold doubleFault
  repeat' first | assumption | with_reducible constructor | intro _ | (simp; done) | split

@[simp] theorem tidy_storeFrame (h : Hart) : Tidy (storeFrame h) := by
  unfold storeFrame
  repeat' first | with_reducible constructor | intro _ | simp

@[simp] theorem tidy_joinHart (slot : Nat) : Tidy (joinHart slot) := by
  unfold joinHart
  repeat' first | assumption | with_reducible constructor | intro _ | simp

@[simp] theorem tidy_enterTrap : Tidy enterTrap := by
  unfold enterTrap
  repeat' first | with_reducible constructor | intro _ | simp | split

@[simp] theorem tidy_trapEntry (cause : BitVec 8) (etval : Word64) (sub : BitVec 5) : Tidy (trapEntry cause etval sub) := by
  unfold trapEntry
  repeat' first | with_reducible constructor | intro _ | simp

@[simp] theorem tidy_retakeTrap : Tidy retakeTrap := by
  unfold retakeTrap
  repeat' first | with_reducible constructor | intro _ | simp

@[simp] theorem tidy_readFrame (h : Hart) : Tidy (readFrame h) := by
  unfold readFrame
  repeat' first | with_reducible constructor | intro _ | simp

@[simp] theorem tidy_trapReturn : Tidy trapReturn := by
  unfold trapReturn
  repeat' first | with_reducible constructor | intro _ | simp

@[simp] theorem tidy_impossible {α : Type} : Tidy (impossible : M α) := by
  unfold impossible
  repeat' first | with_reducible constructor

@[simp] theorem tidy_settleEngines (st : StreamId) : Tidy (settleEngines st) := by
  unfold settleEngines
  repeat' first | with_reducible constructor | intro _ | simp

theorem orderCuts_memInv {s : State} {slot : Nat} {st : StreamId} (hs : s.MemInv) : (s.orderCuts slot st).MemInv := by
  cases st <;> exact hs

@[simp] theorem tidy_settle (st : StreamId) (sc : Scope) : Tidy (settle st sc) :=
  tidy_of_keeps (keeps_settle memInv_closed (fun _ _ hs => hs) st sc)

/-! ### The parts of the model's file Operands -/

@[simp] theorem tidy_spillHomes (f : RFile) (x : Nat) : Tidy (spillHomes f x) := by
  unfold spillHomes
  repeat' first | assumption | with_reducible constructor | intro _ | (simp; done) | split

@[simp] theorem tidy_spillOut (f : RFile) (x : Nat) : Tidy (spillOut f x) := by
  unfold spillOut
  repeat' first | assumption | with_reducible constructor | intro _ | simp

@[simp] theorem tidy_garble (gran n old was mem hit : Nat) : Tidy (garble gran n old was mem hit) := by
  unfold garble
  repeat' first | with_reducible constructor | intro _ | simp

@[simp] theorem tidy_spillIn (f : RFile) (x : Nat) : Tidy (spillIn f x) := by
  unfold spillIn
  repeat' first | assumption | with_reducible constructor | intro _ | simp

@[simp] theorem tidy_evictOne (f : RFile) (named : List Nat) : Tidy (evictOne f named) := by
  unfold evictOne
  repeat' first | with_reducible constructor | intro _ | (simp; done) | split

@[simp] theorem tidy_evictDown (f : RFile) (slots n : Nat) : Tidy (evictDown f slots n) := by
  induction n with
  | zero => exact .pure _
  | succ n ih =>
    unfold evictDown
    repeat' first | assumption | with_reducible constructor | intro _ | simp [*]

@[simp] theorem tidy_placeAmong (others : List Nat) (x : Nat) : Tidy (placeAmong others x) := by
  unfold placeAmong
  repeat' first | with_reducible constructor | intro _ | simp

@[simp] theorem tidy_placeAll : Tidy placeAll := by
  unfold placeAll
  repeat' first | with_reducible constructor | intro _ | simp

@[simp] theorem tidy_swapFile (f : RFile) (named : List Nat) : Tidy (swapFile f named) := by
  unfold swapFile
  repeat' first | with_reducible constructor | intro _ | simp | split

@[simp] theorem tidy_checkNamed (r : Named) : Tidy (checkNamed r) := by
  unfold checkNamed
  repeat' first | with_reducible constructor | intro _ | simp

@[simp] theorem tidy_garbleShared (f : RFile) (named : List Nat) : Tidy (garbleShared f named) := by
  unfold garbleShared
  repeat' first | with_reducible constructor | intro _ | simp

@[simp] theorem tidy_swapIn (r : Named) : Tidy (swapIn r) := by
  unfold swapIn
  repeat' first | with_reducible constructor | intro _ | simp

@[simp] theorem tidy_checkTags (admits : Fmt → Bool) (srcs : List Nat) : Tidy (checkTags admits srcs) := by
  unfold checkTags
  repeat' first | with_reducible constructor | intro _ | simp

@[simp] theorem tidy_vectorIssue (admits : Fmt → Bool) (r : Named) : Tidy (vectorIssue admits r) := by
  unfold vectorIssue
  repeat' first | with_reducible constructor | intro _ | simp

@[simp] theorem tidy_noteNan (elem : Option Nat) : Tidy (noteNan elem) := by
  unfold noteNan
  repeat' first | with_reducible constructor | intro _ | simp | split

@[simp] theorem tidy_finishV (h : Hart) (vd : Nat) (tag : Fmt) (l : Lanes) : Tidy (finishV h vd tag l) := by
  unfold finishV
  repeat' first | with_reducible constructor | intro _ | simp

@[simp] theorem tidy_elementwise (h : Hart) (vd : Nat) (draws : Bool) (f : Nat → Nat → Nat × Bool) : Tidy (elementwise h vd draws f) := by
  unfold elementwise
  repeat' first | with_reducible constructor | intro _ | simp

@[simp] theorem tidy_addrMd (ra : SReg) (disp : BitVec 9) : Tidy (addrMd ra disp) := by
  unfold addrMd
  repeat' first | with_reducible constructor | intro _ | simp

@[simp] theorem tidy_addrMx (ra rb : SReg) : Tidy (addrMx ra rb) := by
  unfold addrMx
  repeat' first | with_reducible constructor | intro _ | simp

end Sys2Proof.Machine
end

section
/-! The memories stay canonical through each part of the model: queues, loads, gathers, pages, copies, trees, attention and barriers. -/

namespace Sys2Proof.Machine

/-! ### The parts of the model's file Queue -/

@[simp] theorem tidy_needPlace (q : QNo) : Tidy (needPlace q) := by
  unfold needPlace
  repeat' first | with_reducible constructor | intro _ | simp

@[simp] theorem tidy_takingStream (q : QNo) : Tidy (takingStream q) := by
  unfold takingStream
  repeat' first | with_reducible constructor | intro _ | simp

@[simp] theorem tidy_scalarHead (q : QNo) (r : SReg) (free : Bool) : Tidy (scalarHead q r free) := by
  unfold scalarHead
  repeat' first | with_reducible constructor | intro _ | (simp; done) | split

@[simp] theorem tidy_vectorHead (q : QNo) (vd : Nat) (free : Bool) : Tidy (vectorHead q vd free) := by
  unfold vectorHead
  repeat' first | with_reducible constructor | intro _ | (simp; done) | split

/-! ### The parts of the model's file Transfers -/

@[simp] theorem tidy_needTable (n : Nat) : Tidy (needTable n) := by
  unfold needTable
  repeat' first | with_reducible constructor | intro _ | simp

@[simp] theorem tidy_needWindow : Tidy needWindow := by
  unfold needWindow
  repeat' first | with_reducible constructor | intro _ | simp

@[simp] theorem tidy_takeTag : Tidy takeTag := by
  unfold takeTag
  repeat' first | with_reducible constructor | intro _ | simp

@[simp] theorem tidy_startTransfer (t : Transfer) : Tidy (startTransfer t) := by
  unfold startTransfer
  repeat' first | with_reducible constructor | intro _ | simp

@[simp] theorem tidy_interlockRanges (rs : List LineRange) : Tidy (interlockRanges rs) := by
  unfold interlockRanges
  repeat' first | with_reducible constructor | intro _ | simp

/-! ### The parts of the model's file Loads -/

@[simp] theorem tidy_scalarLoad (n : Nat) (signed fr : Bool) (rd : SReg) (addr : M Word64) (haddr : Tidy addr) :
    Tidy (scalarLoad n signed fr rd addr) := by
  unfold scalarLoad
  repeat' first | assumption | with_reducible constructor | intro _ | simp

@[simp] theorem tidy_scalarStore (n : Nat) (rs : SReg) (addr : M Word64) (haddr : Tidy addr) : Tidy (scalarStore n rs addr) := by
  unfold scalarStore
  repeat' first | assumption | with_reducible constructor | intro _ | simp

@[simp] theorem tidy_prefetch (toL1 : Bool) (addr : M Word64) (haddr : Tidy addr) : Tidy (prefetch toL1 addr) := by
  unfold prefetch
  repeat' first | assumption | with_reducible constructor | intro _ | simp | split

@[simp] theorem tidy_ordered {α : Type} (o : Order) (sc : Scope) (x : M α) (hx : Tidy x) : Tidy (ordered o sc x : M α) := by
  unfold ordered
  repeat' first | assumption | with_reducible constructor | intro _ | simp

@[simp] theorem tidy_atomicForm (sc : BScope) (o : Order) (dw : Bool) (rd rb ra : SReg) (op : AmoOp) : Tidy (atomicForm sc o dw rd rb ra op) := by
  unfold atomicForm
  repeat' first | with_reducible constructor | intro _ | simp

/-! ### The parts of the model's file VectorMemory -/

@[simp] theorem tidy_stopAt {α : Type} (opens : Option Bool) (j : Nat) (e : Stop) : Tidy (stopAt opens j e : M α) := by
  unfold stopAt
  repeat' first | with_reducible constructor | intro _ | simp

@[simp] theorem tidy_stopHere (i : Nat) : Tidy (stopHere i) := by
  unfold stopHere
  repeat' first | with_reducible constructor | intro _ | simp

@[simp] theorem tidy_resumeFrom (limit : Nat) (takes : Nat → Bool) (body : Nat → M Unit) (opens : Option Bool) (hbody : ∀ a, Tidy (body a)) :
    Tidy (resumeFrom limit takes body opens) := by
  unfold resumeFrom
  repeat' first | with_reducible constructor | intro _ | simp [*] | split

@[simp] theorem tidy_noteLate (a : Actor) (va : Word64) : Tidy (noteLate a va) := by
  unfold noteLate
  repeat' first | assumption | with_reducible constructor | intro _ | simp | split

@[simp] theorem tidy_firstFault (limit : Nat) (takes : Nat → Bool) (addrOf : Nat → M Word64) (onTrap body : Nat → M Unit)
    (opens : Option Bool) (haddrOf : ∀ a, Tidy (addrOf a)) (honTrap : ∀ a, Tidy (onTrap a)) (hbody : ∀ a, Tidy (body a)) :
    Tidy (firstFault limit takes addrOf onTrap body opens) := by
  unfold firstFault
  repeat' first | with_reducible constructor | intro _ | (simp [*]; done) | split

@[simp] theorem tidy_retireResumable : Tidy retireResumable := by
  unfold retireResumable
  repeat' first | with_reducible constructor | intro _ | simp

@[simp] theorem tidy_vectorActor : Tidy vectorActor := by
  unfold vectorActor
  repeat' first | with_reducible constructor | intro _ | simp

@[simp] theorem tidy_forgetCover : Tidy forgetCover := by
  unfold forgetCover
  repeat' first | assumption | with_reducible constructor | intro _ | simp

@[simp] theorem tidy_storesFrom (limit : Nat) (takes : Nat → Bool) (body : Nat → M Unit) (opens : Option Bool) (hbody : ∀ a, Tidy (body a)) :
    Tidy (storesFrom limit takes body opens) := by
  unfold storesFrom
  repeat' first | with_reducible constructor | intro _ | simp [*]

@[simp] theorem tidy_loadElem (fr : Bool) (vd i : Nat) (va : Word64) : Tidy (loadElem fr vd i va) := by
  unfold loadElem
  repeat' first | with_reducible constructor | intro _ | simp

@[simp] theorem tidy_supersede (a : Actor) (l : Loc) (mask : Nat) : Tidy (supersede a l mask) := by
  unfold supersede
  repeat' first | assumption | with_reducible constructor | intro _

@[simp] theorem tidy_storeElem (vs i : Nat) (va : Word64) : Tidy (storeElem vs i va) := by
  unfold storeElem
  repeat' first | with_reducible constructor | intro _ | simp

@[simp] theorem tidy_memIssue (unit : Bool) (r : Named) : Tidy (memIssue unit r) := by
  unfold memIssue
  simp

@[simp] theorem tidy_alignedStride (base stride : Word64) (n : Nat) : Tidy (alignedStride base stride n) := by
  unfold alignedStride
  repeat' first | with_reducible constructor | intro _ | simp

@[simp] theorem tidy_vectorLoad (fr : Bool) (vd : VRegNo) (unit : Bool) (ops : Fmt → M (Nat → Word64)) (hops : ∀ f, Tidy (ops f)) :
    Tidy (vectorLoad fr vd unit ops) := by
  unfold vectorLoad
  repeat' first | assumption | with_reducible constructor | intro _ | simp [*]

@[simp] theorem tidy_vectorLoadFf (fr : Bool) (vd : VRegNo) (ops : Fmt → M (Nat → Word64)) (hops : ∀ f, Tidy (ops f)) :
    Tidy (vectorLoadFf fr vd ops) := by
  have hcut (h : Hart) (addr : Nat → Word64) : Tidy
      (firstFault h.vl.toNat h.activeAt (fun i => pure (addr i)) (fun _ => pure ()) fun i => loadElem fr vd.val i (addr i)) :=
    tidy_firstFault _ _ _ _ _ _ (fun _ => .pure _) (fun _ => .pure _) fun _ => tidy_loadElem ..
  unfold vectorLoadFf
  repeat' first | assumption | with_reducible constructor | intro _ | simp [*]

@[simp] theorem tidy_vectorStore (vs : VRegNo) (unit : Bool) (ops : Fmt → M (Nat → Word64)) (hops : ∀ f, Tidy (ops f)) :
    Tidy (vectorStore vs unit ops) := by
  unfold vectorStore
  repeat' first | assumption | with_reducible constructor | intro _ | simp [*]

@[simp] theorem tidy_segmentLoad (n : Nat) (vd : VRegNo) (addr : M Word64) (haddr : Tidy addr) : Tidy (segmentLoad n vd addr) := by
  have hfields (h : Hart) (base : Word64) (i : Nat) : Tidy
      (each (List.range n) fun f => loadElem false (vd.val + f) i (segAddr h.fmt base n i f)) := by
    repeat' first | assumption | with_reducible constructor | intro _ | simp [*]
  unfold segmentLoad
  repeat' first | assumption | with_reducible constructor | intro _ | simp [*]

@[simp] theorem tidy_segmentStore (n : Nat) (vs : VRegNo) (addr : M Word64) (haddr : Tidy addr) : Tidy (segmentStore n vs addr) := by
  have hfields (h : Hart) (base : Word64) (i : Nat) : Tidy
      (each (List.range n) fun f => storeElem (vs.val + f) i (segAddr h.fmt base n i f)) := by
    repeat' first | assumption | with_reducible constructor | intro _ | simp [*]
  unfold segmentStore
  repeat' first | assumption | with_reducible constructor | intro _ | simp [*]

@[simp] theorem tidy_unitOps (addr : M Word64) (fmt : Fmt) (haddr : Tidy addr) : Tidy (unitOps addr fmt) := by
  unfold unitOps
  repeat' first | assumption | with_reducible constructor | intro _ | simp [*]

@[simp] theorem tidy_strideOps (ra rb : SReg) (f : Fmt) : Tidy (strideOps ra rb f) := by
  unfold strideOps
  repeat' first | with_reducible constructor | intro _ | simp

/-! ### The parts of the model's file Gather -/

@[simp] theorem tidy_elemCount (rc : SReg) : Tidy (elemCount rc) := by
  unfold elemCount
  repeat' first | with_reducible constructor | intro _ | simp

@[simp] theorem tidy_listWord (va : Word64) : Tidy (listWord va) := by
  unfold listWord
  repeat' first | with_reducible constructor | intro _ | simp

@[simp] theorem tidy_modHeld (q : QNo) (new : Word64 → VEntry → List VPlace) : Tidy (modHeld q new) := by
  unfold modHeld
  repeat' first | with_reducible constructor | intro _ | simp

@[simp] theorem tidy_takeEntry (q : QNo) (esize : Nat) : Tidy (takeEntry q esize) := by
  unfold takeEntry
  repeat' first | with_reducible constructor | intro _ | simp | split

@[simp] theorem tidy_padElems (n : Nat) (l : List Word64) : Tidy (padElems n l) := by
  unfold padElems
  repeat' first | with_reducible constructor | intro _ | simp

@[simp] theorem tidy_putEntry (q : QNo) (i : Nat) (v : Word64) : Tidy (putEntry q i v) := by
  unfold putEntry
  repeat' first | with_reducible constructor | intro _ | simp | split

@[simp] theorem tidy_gatherElem (q : QNo) (n : Nat) (fr : Bool) (base list : Word64) (i : Nat) : Tidy (gatherElem q n fr base list i) := by
  unfold gatherElem
  repeat' first | with_reducible constructor | intro _ | simp

@[simp] theorem tidy_gatherStop (base list : Word64) (n i : Nat) : Tidy (gatherStop base list n i) := by
  unfold gatherStop
  repeat' first | with_reducible constructor | intro _ | simp | split

@[simp] theorem tidy_indexedIssue (n : Nat) (ra rb : SReg) : Tidy (indexedIssue n ra rb) := by
  unfold indexedIssue
  repeat' first | with_reducible constructor | intro _ | simp

@[simp] theorem tidy_finishEntry (q : QNo) (kvx : Bool) (n : Nat) : Tidy (finishEntry q kvx n) := by
  unfold finishEntry
  repeat' first | with_reducible constructor | intro _ | (simp; done) | split

@[simp] theorem tidy_accessQueue (q : QNo) : Tidy (accessQueue q) := by
  unfold accessQueue
  repeat' first | with_reducible constructor | intro _ | simp

@[simp] theorem tidy_modStatus (q : QNo) (new : SPlace) : Tidy (modStatus q new) := by
  unfold modStatus
  repeat' first | with_reducible constructor | intro _ | simp

@[simp] theorem tidy_takeStatus (q : QNo) : Tidy (takeStatus q) := by
  unfold takeStatus
  repeat' first | with_reducible constructor | intro _ | simp

@[simp] theorem tidy_scatter (q : QNo) (ew : Ew) (ra rb rc : SReg) (put : Actor → Word64 → Nat → Nat → M Unit)
    (hput : ∀ a va n v, Tidy (put a va n v)) : Tidy (scatter q ew ra rb rc put) := by
  have hstores (count : Nat) (body : Nat → M Unit) (hbody : ∀ i, Tidy (body i)) :
      Tidy (storesFrom count (fun _ => true) body (some true)) := tidy_storesFrom _ _ _ _ hbody
  unfold scatter
  refine .bind (tidy_accessQueue q) fun _ => .bind (tidy_indexedIssue ..) fun _ => .bind (tidy_elemCount rc) fun _ => .bind (tidy_takeStatus q) fun _ =>
    .bind (hstores _ _ fun _ => ?_) fun _ => .bind (tidy_modStatus ..) fun _ => tidy_retireResumable
  repeat' first | assumption | with_reducible constructor | intro _ | simp [*]

@[simp] theorem tidy_modSlot (slot : Nat) (f : Hart → M Hart) (hf : ∀ a, Tidy (f a)) : Tidy (modSlot slot f) := by
  unfold modSlot
  repeat' first | assumption | with_reducible constructor | intro _ | (simp [*]; done) | split

@[simp] theorem tidy_fillEntry (kvx : Bool) : Tidy (fillEntry kvx) := by
  unfold fillEntry
  refine .getThen fun s _ => ?_
  dsimp only
  refine .ite (.bind tidy_impossible fun _ => tidy_modSlot _ _ fun _ => ?_) (tidy_modSlot _ _ fun _ => ?_)
  all_goals
    repeat' first | assumption | with_reducible constructor | intro _ | (simp [*]; done) | split

/-! ### The parts of the model's file Layout -/

@[simp] theorem tidy_read64 (a : Actor) (va : Word64) : Tidy (read64 a va) := by
  unfold read64
  repeat' first | with_reducible constructor | intro _ | simp

@[simp] theorem tidy_recordHome (va : Word64) : Tidy (recordHome va) := tidy_of_keeps (keeps_recordHome memInv_closed va)

@[simp] theorem tidy_recordCached (va : Word64) : Tidy (recordCached va) := by
  unfold recordCached
  repeat' first | with_reducible constructor | intro _ | (simp; done) | split

@[simp] theorem tidy_recordBad {α : Type} (va : Word64) : Tidy (recordBad va : M α) := by
  unfold recordBad
  simp

@[simp] theorem tidy_parsed (va : Word64) (b : Nat) : Tidy (parsed va b) := by
  unfold parsed
  repeat' first | with_reducible constructor | intro _ | simp | split

/-! ### The parts of the model's file PageForms -/

@[simp] theorem tidy_pageAt (kind : Kind) (va : Word64) (peers : Bool) : Tidy (pageAt kind va peers) := by
  unfold pageAt
  repeat' first | with_reducible constructor | intro _ | (simp; done) | split

@[simp] theorem tidy_behindPage (l : Loc) (n : Nat) : Tidy (behindPage l n) := by
  unfold behindPage
  repeat' first | with_reducible constructor | intro _ | simp

@[simp] theorem tidy_pageForm (kind : Kind) (va : Word64) (waits peers : Bool) : Tidy (pageForm kind va waits peers) := by
  unfold pageForm
  repeat' first | with_reducible constructor | intro _ | simp

@[simp] theorem tidy_formRecord (p : PageAt) : Tidy (formRecord p) := by
  unfold formRecord
  repeat' first | with_reducible constructor | intro _ | (simp; done) | split

@[simp] theorem tidy_pinForm (ra : SReg) (f : Nat → Nat) : Tidy (pinForm ra f) := by
  unfold pinForm
  repeat' first | with_reducible constructor | intro _ | simp

@[simp] theorem tidy_emptyOverlay (o : Overlay) : Tidy (emptyOverlay o) := by
  unfold emptyOverlay
  repeat' first | with_reducible constructor | intro _ | simp

@[simp] theorem tidy_mergeLines (leaf key : Nat) (o : Overlay) (fk frame : Nat) : Tidy (mergeLines leaf key o fk frame) := by
  unfold mergeLines
  repeat' first | with_reducible constructor | intro _ | simp

@[simp] theorem tidy_dropFor (asid : Nat) (secs : List Nat) : Tidy (dropFor asid secs) := by
  unfold dropFor
  repeat' first | with_reducible constructor | intro _ | simp

@[simp] theorem tidy_publishLines (leaf asid key : Nat) (o : Overlay) (fk frame : Nat) : Tidy (publishLines leaf asid key o fk frame) := by
  unfold publishLines
  repeat' first | with_reducible constructor | intro _ | simp

@[simp] theorem tidy_basePort (p : PageAt) : Tidy (basePort p) := by
  unfold basePort
  repeat' first | with_reducible constructor | intro _ | simp

@[simp] theorem tidy_commitStart (ra : SReg) (releases : Bool) : Tidy (commitStart ra releases) := by
  unfold commitStart
  repeat' first | with_reducible constructor | intro _ | (simp; done) | split

@[simp] theorem tidy_takeRecord (leaf frame : Nat) (r : FrameRec) : Tidy (takeRecord leaf frame r) := by
  unfold takeRecord
  repeat' first | with_reducible constructor | intro _ | simp | split

@[simp] theorem tidy_countOf (r : FrameRec) (d : Word64) : Tidy (countOf r d) := by
  unfold countOf
  repeat' first | with_reducible constructor | intro _ | simp

/-! ### The parts of the model's file Copies -/

@[simp] theorem tidy_copyForm (kind : Nat) (rd ra rb : SReg) : Tidy (copyForm kind rd ra rb) := by
  unfold copyForm
  repeat' first | with_reducible constructor | intro _ | (simp; done) | split

@[simp] theorem tidy_readElem (a : Actor) (l : Layout) (o : Nat) : Tidy (readElem a l o) := by
  unfold readElem
  repeat' first | with_reducible constructor | intro _ | simp

@[simp] theorem tidy_writeElem (a : Actor) (l : Layout) (o v : Nat) : Tidy (writeElem a l o v) := by
  unfold writeElem
  repeat' first | with_reducible constructor | intro _ | simp

@[simp] theorem tidy_readLine (a : Actor) (l : Layout) (line : Nat) : Tidy (readLine a l line) := by
  unfold readLine
  repeat' first | with_reducible constructor | intro _ | simp

@[simp] theorem tidy_writeLine (a : Actor) (l : Layout) (line v : Nat) : Tidy (writeLine a l line v) := by
  unfold writeLine
  repeat' first | with_reducible constructor | intro _ | simp

@[simp] theorem tidy_copyUnit (a : Actor) (kind : Nat) (d l : Layout) (u : Nat) : Tidy (copyUnit a kind d l u) := by
  unfold copyUnit
  repeat' first | with_reducible constructor | intro _ | (simp; done) | split

@[simp] theorem tidy_zeroUnit (a : Actor) (kind : Nat) (d : Layout) (u : Nat) : Tidy (zeroUnit a kind d u) := by
  unfold zeroUnit
  repeat' first | with_reducible constructor | intro _ | (simp; done) | split

@[simp] theorem tidy_transferOf (slot id : Nat) : Tidy (transferOf slot id) := by
  unfold transferOf
  repeat' first | with_reducible constructor | intro _ | simp | split

theorem tidy_asEngine {α : Type} (slot id : Nat) (x : Hart → Transfer → Actor → M α) (hx : ∀ h t a, Tidy (x h t a)) :
    Tidy (asEngine slot id x) := by
  have hact (h : Hart) (t : Transfer) : Tidy (asHart slot t.stream (do
      let s ← get
      x h t (s.engineActor h t))) :=
    .asHart (.getThen fun _ _ => hx ..)
  unfold asEngine
  repeat' first | assumption | with_reducible constructor | intro _ | simp [*]

@[simp] theorem tidy_setWork (slot id : Nat) (w : Work) : Tidy (setWork slot id w) := tidy_modSlot _ _ fun _ => .pure _

@[simp] theorem tidy_postRecord (slot id kind : Nat) (late : Bool) (cause status : Nat) (w1 w2 w3 : Word64) :
    Tidy (postRecord slot id kind late cause status w1 w2 w3) := by
  unfold postRecord
  repeat' first | assumption | with_reducible constructor | intro _

@[simp] theorem tidy_readEvent (rd ra : SReg) (waits : Bool) : Tidy (readEvent rd ra waits) := by
  unfold readEvent
  repeat' first | with_reducible constructor | intro _ | (simp; done) | split

@[simp] theorem tidy_readsLeaf (root : Nat) (t : Transfer) (leaf : Nat) : Tidy (readsLeaf root t leaf) := by
  unfold readsLeaf
  repeat' first | with_reducible constructor | intro _ | simp | split

@[simp] theorem tidy_busyLeaf (leaf : Nat) : Tidy (busyLeaf leaf) := by
  unfold busyLeaf
  repeat' first | with_reducible constructor | intro _ | simp | split

@[simp] theorem tidy_demotionTier : Tidy demotionTier := by
  unfold demotionTier
  repeat' first | with_reducible constructor | intro _ | simp | split

@[simp] theorem tidy_ringHolds (ring : Nat) : Tidy (ringHolds ring) := by
  refine tidy_of_keeps ⟨fun s hs => ?_⟩
  unfold ringHolds
  cases take ring s <;> exact hs

@[simp] theorem tidy_beginMove (m : Move) (l : Leaf) (r : FrameRec) : Tidy (beginMove m l r) := by
  unfold beginMove
  repeat' first | assumption | with_reducible constructor | intro _ | (simp; done) | split

@[simp] theorem tidy_startMove (slot id : Nat) (h : Hart) (promote : Bool) (va opt : Word64) (frame tier : Nat) :
    Tidy (startMove slot id h promote va opt frame tier) := by
  unfold startMove
  repeat' first | with_reducible constructor | intro _ | (simp [*]; done) | split | dsimp only

@[simp] theorem tidy_moveForm (promote : Bool) (rd ra rb : SReg) : Tidy (moveForm promote rd ra rb) := by
  unfold moveForm
  repeat' first | with_reducible constructor | intro _ | simp

@[simp] theorem tidy_finishMove (m : Move) : Tidy (finishMove m) := by
  unfold finishMove
  repeat' first | assumption | with_reducible constructor | intro _ | (simp; done) | split

@[simp] theorem tidy_compactRows (a : Actor) (page : Word64) (keptFrom kept : Nat) : Tidy (compactRows a page keptFrom kept) := by
  unfold compactRows
  repeat' first | with_reducible constructor | intro _ | simp

/-! ### The parts of the model's file Scalar -/

@[simp] theorem tidy_alu (rd : SReg) (f : (SReg → Word64) → Word64) : Tidy (alu rd f) := by
  unfold alu
  repeat' first | with_reducible constructor | intro _ | simp

@[simp] theorem tidy_branch (ra rb : SReg) (off : BitVec 15) (taken : Word64 → Word64 → Bool) : Tidy (branch ra rb off taken) := by
  unfold branch
  repeat' first | with_reducible constructor | intro _ | simp

/-! ### The parts of the model's file Vector -/

@[simp] theorem tidy_vecBin (admits : Fmt → Bool) (draws : Bool) (vd va vb : VRegNo) (f : Hart → Nat → Nat → Nat → Nat → Nat × Bool) :
    Tidy (vecBin admits draws vd va vb f) := by
  unfold vecBin
  repeat' first | with_reducible constructor | intro _ | simp

@[simp] theorem tidy_vecUn (admits : Fmt → Bool) (draws : Bool) (vd va : VRegNo) (f : Hart → Nat → Nat → Nat → Nat × Bool) :
    Tidy (vecUn admits draws vd va f) := by
  unfold vecUn
  repeat' first | with_reducible constructor | intro _ | simp

@[simp] theorem tidy_formImm (imm : BitVec 8) : Tidy (formImm imm) := by
  unfold formImm
  repeat' first | with_reducible constructor | intro _ | simp

@[simp] theorem tidy_vecImm (draws : Bool) (vd va : VRegNo) (imm : BitVec 8) (f : Hart → Nat → Nat → Nat → Nat → Nat × Bool) :
    Tidy (vecImm draws vd va imm f) := by
  unfold vecImm
  repeat' first | with_reducible constructor | intro _ | simp

@[simp] theorem tidy_writeP (h : Hart) (pd : Nat) (idx : List Nat) (f : Nat → Bool) : Tidy (writeP h pd idx f) := by
  unfold writeP
  repeat' first | with_reducible constructor | intro _ | simp

@[simp] theorem tidy_writeV (h : Hart) (vd : Nat) (idx : List Nat) (f : Nat → Nat) : Tidy (writeV h vd idx f) := by
  unfold writeV
  repeat' first | with_reducible constructor | intro _ | simp

@[simp] theorem tidy_plainIssue (admits : Fmt → Bool) (r : Named) : Tidy (plainIssue admits r) := by
  unfold plainIssue
  repeat' first | with_reducible constructor | intro _ | simp

@[simp] theorem tidy_vredPick (greater : Bool) (vd va : VRegNo) : Tidy (vredPick greater vd va) := by
  unfold vredPick
  repeat' first | with_reducible constructor | intro _ | (simp; done) | split

@[simp] theorem tidy_slideUp (vd va : VRegNo) (n : Nat) (h : Hart) : Tidy (slideUp vd va n h) := by
  unfold slideUp
  simp

@[simp] theorem tidy_slideDown (vd va : VRegNo) (n : Nat) (h : Hart) : Tidy (slideDown vd va n h) := by
  unfold slideDown
  simp

@[simp] theorem tidy_predIssue (ps pw : List PRegNo) : Tidy (predIssue ps pw) := by
  unfold predIssue
  simp

@[simp] theorem tidy_predBody (ps : List PRegNo) (pd : PRegNo) (f : Hart → Nat → Bool) : Tidy (predBody ps pd f) := by
  unfold predBody
  repeat' first | with_reducible constructor | intro _ | simp

/-! ### The parts of the model's file Trees -/

@[simp] theorem tidy_treeError {α : Type} (sub : BitVec 5) : Tidy (treeError sub : M α) := by
  unfold treeError
  simp

/-! ### The parts of the model's file Attention -/

@[simp] theorem tidy_kvxElem (t : BlockTable) (list : Word64) (i : Nat) : Tidy (kvxElem t list i) := by
  unfold kvxElem
  repeat' first | with_reducible constructor | intro _ | simp

@[simp] theorem tidy_kvxStop (t : BlockTable) (list : Word64) (i : Nat) : Tidy (kvxStop t list i) := by
  unfold kvxStop
  repeat' first | with_reducible constructor | intro _ | (simp; done) | split

@[simp] theorem tidy_namedPages (a : Actor) (pages : Word64) (nblk k : Nat) : Tidy (namedPages a pages nblk k) := by
  unfold namedPages
  repeat' first | with_reducible constructor | intro _ | (simp; done) | split

@[simp] theorem tidy_pagesAtIssue (a : Actor) (h : Hart) (pages : Word64) (nblk : Nat) : Tidy (pagesAtIssue a h pages nblk) := by
  unfold pagesAtIssue
  repeat' first | with_reducible constructor | intro _ | simp

@[simp] theorem tidy_blockLeaf (a : Actor) (page : Word64) : Tidy (blockLeaf a page) := by
  unfold blockLeaf
  repeat' first | with_reducible constructor | intro _ | simp

@[simp] theorem tidy_orFailed (slice : Option Nat) (x : M BlockFate) (hx : Tidy x) : Tidy (orFailed slice x) := by
  unfold orFailed
  repeat' first | assumption | with_reducible constructor | intro _ | split

@[simp] theorem tidy_dispatchBlock (a : Actor) (p : Pass) (b : Nat) : Tidy (dispatchBlock a p b) := by
  refine tidy_orFailed _ _ ?_
  repeat' first | assumption | with_reducible constructor | intro _ | simp [*]

@[simp] theorem tidy_readRow (a : Actor) (p : Pass) (page : Word64) (off : Nat) : Tidy (readRow a p page off) := by
  unfold readRow
  repeat' first | with_reducible constructor | intro _ | simp

@[simp] theorem tidy_blockPoisoned (a : Actor) (page : Word64) : Tidy (blockPoisoned a page) := by
  unfold blockPoisoned
  repeat' first | with_reducible constructor | intro _ | (simp; done) | split

@[simp] theorem tidy_readRows (a : Actor) (p : Pass) (page : Word64) (map : Nat) : Tidy (readRows a p page map) := by
  unfold readRows
  repeat' first | with_reducible constructor | intro _ | simp

@[simp] theorem tidy_readBlock (a : Actor) (p : Pass) (slice : Nat) (page : Word64) (b : Nat) : Tidy (readBlock a p slice page b) := by
  unfold readBlock
  repeat' first | assumption | with_reducible constructor | intro _ | simp | split

@[simp] theorem tidy_setPass (slot id : Nat) (p : Pass) (pages : List Nat) (unnamed : Bool) : Tidy (setPass slot id p pages unnamed) :=
  tidy_modSlot _ _ fun _ => .pure _

@[simp] theorem tidy_Transfer_nameNow (t : Transfer) (a : Actor) (p : Pass) : Tidy (Transfer.nameNow t a p) := by
  unfold Transfer.nameNow
  repeat' first | with_reducible constructor | intro _ | simp | split

@[simp] theorem tidy_dispatchTurn (slot : Nat) (h : Hart) (t : Transfer) (a : Actor) (p : Pass) (b : Nat) : Tidy (dispatchTurn slot h t a p b) := by
  unfold dispatchTurn
  repeat' first | with_reducible constructor | intro _ | (simp; done) | split

/-! ### The parts of the model's file Barrier -/

@[simp] theorem tidy_mapHarts (f : Hart → Hart) : Tidy (mapHarts f) := by
  unfold mapHarts
  repeat' first | assumption | with_reducible constructor | intro _

@[simp] theorem tidy_endPhase (t gid n : Nat) : Tidy (endPhase t gid n) := by
  unfold endPhase
  repeat' first | assumption | with_reducible constructor | intro _ | simp

@[simp] theorem tidy_checkBarrier (t gid n : Nat) : Tidy (checkBarrier t gid n) := by
  unfold checkBarrier
  repeat' first | with_reducible constructor | intro _ | simp

@[simp] theorem tidy_arrive (sc : BScope) (n : Nat) (sync : Bool) : Tidy (arrive sc n sync) := by
  unfold arrive
  repeat' first | assumption | with_reducible constructor | intro _ | simp

@[simp] theorem tidy_closingEnds : Tidy closingEnds := by
  unfold closingEnds
  repeat' first | with_reducible constructor | intro _ | simp

@[simp] theorem tidy_syncFinish (i : Nat) : Tidy (syncFinish i) := by
  unfold syncFinish
  repeat' first | with_reducible constructor | intro _ | simp

@[simp] theorem tidy_syncWait (i : Nat) : Tidy (syncWait i) := by
  unfold syncWait
  repeat' first | with_reducible constructor | intro _ | simp

@[simp] theorem tidy_discardBarriers (t gid : Nat) : Tidy (discardBarriers t gid) := by
  unfold discardBarriers
  repeat' first | assumption | with_reducible constructor | intro _ | simp

@[simp] theorem tidy_checkSplit (t gid : Nat) : Tidy (checkSplit t gid) := by
  unfold checkSplit
  repeat' first | with_reducible constructor | intro _ | simp

@[simp] theorem tidy_splitWait (rd : SReg) : Tidy (splitWait rd) := by
  unfold splitWait
  repeat' first | with_reducible constructor | intro _ | simp

end Sys2Proof.Machine
end

section
/-! The memories stay canonical through each part of the model: the device, fetch, the save area, kernels, contexts and checkpoints. -/

namespace Sys2Proof.Machine

/-! ### The parts of the model's file Device -/

@[simp] theorem logged_memInv {s : State} {cls unit addr : Nat} : (s.logged cls unit addr).MemInv ↔ s.MemInv := by
  unfold State.logged
  dsimp only
  split
  · exact Iff.rfl
  · split <;> exact Iff.rfl

@[simp] theorem tidy_logError (cls unit addr : Nat) : Tidy (logError cls unit addr) := .modify fun _ hs => logged_memInv.mpr hs

@[simp] theorem tidy_descField (c : Context) (off n : Nat) : Tidy (descField c off n) := by
  unfold descField
  simp

@[simp] theorem tidy_getCtx (asid : Nat) : Tidy (getCtx asid) := by
  unfold getCtx
  repeat' first | with_reducible constructor | intro _ | simp | split

@[simp] theorem tidy_modCtx (asid : Nat) (f : Context → Context) : Tidy (modCtx asid f) := by
  unfold modCtx
  repeat' first | assumption | with_reducible constructor | intro _ | split

@[simp] theorem tidy_setCtxState (asid : Nat) (st : CtxState) : Tidy (setCtxState asid st) := by
  unfold setCtxState
  repeat' first | with_reducible constructor | intro _ | simp

@[simp] theorem tidy_postAt (c : Context) (core : Nat) (r : Record) : Tidy (postAt c core r) := by
  unfold postAt
  repeat' first | with_reducible constructor | intro _ | simp

@[simp] theorem tidy_postEvent (asid code : Nat) (w1 w2 w3 : Word64) : Tidy (postEvent asid code w1 w2 w3) := by
  unfold postEvent
  repeat' first | with_reducible constructor | intro _ | simp

@[simp] theorem tidy_postHartEvent (asid code second slot : Nat) (w1 w2 w3 : Word64) : Tidy (postHartEvent asid code second slot w1 w2 w3) := by
  unfold postHartEvent
  repeat' first | with_reducible constructor | intro _ | simp

@[simp] theorem tidy_giveDeadline (asid d : Nat) : Tidy (giveDeadline asid d) := by
  unfold giveDeadline
  repeat' first | with_reducible constructor | intro _ | simp

@[simp] theorem tidy_readQueue (asid : Nat) (c : Context) (lq : Nat) : Tidy (readQueue asid c lq) := by
  unfold readQueue
  repeat' first | with_reducible constructor | intro _ | simp

@[simp] theorem tidy_putQueue (q : LaunchQ) (off n v : Nat) : Tidy (putQueue q off n v) := by
  unfold putQueue
  simp

@[simp] theorem tidy_usableQueue (asid : Nat) (c : Context) (lq : Nat) : Tidy (usableQueue asid c lq) := by
  unfold usableQueue
  repeat' first | with_reducible constructor | intro _ | simp

@[simp] theorem tidy_enabledQueue (lq : Nat) : Tidy (enabledQueue lq) := by
  unfold enabledQueue
  repeat' first | with_reducible constructor | intro _ | simp | split

@[simp] theorem tidy_newHead (lq : Nat) : Tidy (newHead lq) := by
  unfold newHead
  repeat' first | assumption | with_reducible constructor | intro _

@[simp] theorem tidy_putQueueSt (q : LaunchQ) : Tidy (putQueueSt q) := by
  unfold putQueueSt
  simp

@[simp] theorem tidy_doorbell (lq w : Nat) (post : Nat → M Unit) (hpost : ∀ a, Tidy (post a)) : Tidy (doorbell lq w post) := by
  unfold doorbell
  repeat' first | with_reducible constructor | intro _ | (simp [*]; done) | split

/-! ### The parts of the model's file Fetch -/

@[simp] theorem tidy_fetchHome (a : Actor) (va : Word64) : Tidy (fetchHome a va) := by
  unfold fetchHome
  repeat' first | with_reducible constructor | intro _ | (simp; done) | split

@[simp] theorem tidy_fetchWord : Tidy fetchWord := by
  unfold fetchWord
  repeat' first | with_reducible constructor | intro _ | (simp [*]; done) | split | dsimp only

/-! ### The parts of the model's file Background -/

@[simp] theorem tidy_ringCount (ring : Nat) : Tidy (ringCount ring) := by
  unfold ringCount
  repeat' first | with_reducible constructor | intro _ | simp

@[simp] theorem tidy_examineFrame (frame tier : Nat) : Tidy (examineFrame frame tier) := by
  unfold examineFrame
  repeat' first | with_reducible constructor | intro _ | (simp; done) | split

@[simp] theorem tidy_heldAtomic (a : Actor) (va : Word64) (n : Nat) (op : AmoOp) (b e : Nat) : Tidy (heldAtomic a va n op b e) := by
  unfold heldAtomic
  repeat' first | with_reducible constructor | intro _ | simp | split

@[simp] theorem tidy_heldCount (root va : Nat) (d : Word64) : Tidy (heldCount root va d) := by
  unfold heldCount
  repeat' first | with_reducible constructor | intro _ | (simp; done) | split

@[simp] theorem tidy_performHeld (i : Nat) : Tidy (performHeld i) := by
  unfold performHeld
  repeat' first | assumption | with_reducible constructor | intro _ | (simp; done) | split

@[simp] theorem tidy_refreshRecord (core i : Nat) : Tidy (refreshRecord core i) := by
  unfold refreshRecord
  repeat' first | with_reducible constructor | intro _ | (simp; done) | split

/-! ### The parts of the model's file Length -/

@[simp] theorem tidy_laneGrant (lg : Nat) : Tidy (laneGrant lg) := by
  unfold laneGrant
  repeat' first | with_reducible constructor | intro _ | simp

@[simp] theorem tidy_evictBoth (vt : BitVec 8) : Tidy (evictBoth vt) := by
  unfold evictBoth
  repeat' first | with_reducible constructor | intro _ | simp

@[simp] theorem tidy_fillUp (vt : BitVec 8) (f : RFile) : Tidy (fillUp vt f) := by
  unfold fillUp
  repeat' first | with_reducible constructor | intro _ | simp

@[simp] theorem tidy_adjustBoth (vt : BitVec 8) : Tidy (adjustBoth vt) := by
  unfold adjustBoth
  repeat' first | with_reducible constructor | intro _ | simp

@[simp] theorem tidy_replace (vt : BitVec 8) (old : Hart) : Tidy (replace vt old) := by
  unfold replace
  repeat' first | with_reducible constructor | intro _ | simp

theorem tidy_swapsStand (h : Hart) (x : M Unit) (hx : Tidy x) : Tidy (swapsStand h x) := by
  refine tidy_of_keeps ⟨fun s hs => ?_⟩
  have hend := (keeps_of_tidy hx).run s hs
  unfold swapsStand
  split
  · next hrun => rw [hrun] at hend; exact hend
  · exact hend

/-! ### The parts of the model's file System -/

@[simp] theorem tidy_csrChecks (csr : Csr) (writes : Bool) : Tidy (csrChecks csr writes) := by
  unfold csrChecks
  repeat' first | with_reducible constructor | intro _ | simp

@[simp] theorem tidy_csrRead (csr : Csr) : Tidy (csrRead csr) := by
  unfold csrRead
  repeat' first | with_reducible constructor | intro _ | simp

@[simp] theorem tidy_csrWrite (csr : Csr) (v : Word64) : Tidy (csrWrite csr v) := by
  unfold csrWrite
  repeat' first | with_reducible constructor | intro _ | simp

@[simp] theorem tidy_csrModify (rd : SReg) (csr : Csr) (ra : SReg) (f : Word64 → Word64 → Word64) : Tidy (csrModify rd csr ra f) := by
  unfold csrModify
  repeat' first | with_reducible constructor | intro _ | simp

/-! ### The parts of the model's file SaveArea -/

@[simp] theorem tidy_deviceWrite (asid : Nat) (va : Word64) (n v : Nat) : Tidy (deviceWrite asid va n v) := by
  unfold deviceWrite
  repeat' first | with_reducible constructor | intro _ | simp

@[simp] theorem tidy_deviceRead (asid : Nat) (va : Word64) (n : Nat) : Tidy (deviceRead asid va n) := by
  unfold deviceRead
  repeat' first | with_reducible constructor | intro _ | simp

@[simp] theorem tidy_deviceScribble (asid : Nat) (va : Word64) (n : Nat) : Tidy (deviceScribble asid va n) := by
  unfold deviceScribble
  repeat' first | with_reducible constructor | intro _ | simp

@[simp] theorem tidy_writeHartRegion (save : Nat) (h : Hart) : Tidy (writeHartRegion save h) := by
  unfold writeHartRegion
  repeat' first | with_reducible constructor | intro _ | simp

@[simp] theorem tidy_writeBarriers (save : Nat) (h : Hart) : Tidy (writeBarriers save h) := by
  unfold writeBarriers
  repeat' first | with_reducible constructor | intro _ | simp

@[simp] theorem tidy_spillDirty : Tidy spillDirty := by
  unfold spillDirty
  repeat' first | with_reducible constructor | intro _ | simp

@[simp] theorem tidy_inFlight : Tidy inFlight := by
  unfold inFlight
  repeat' first | with_reducible constructor | intro _ | simp

@[simp] theorem tidy_savedBytes (asid core off : Nat) : Tidy (savedBytes asid core off) := by
  unfold savedBytes
  repeat' first | with_reducible constructor | intro _ | (simp; done) | split

@[simp] theorem tidy_writeCoreRegions (asid : Nat) : Tidy (writeCoreRegions asid) := by
  unfold writeCoreRegions
  repeat' first | assumption | with_reducible constructor | intro _ | simp

@[simp] theorem tidy_saveFault (asid slot : Nat) (cause : BitVec 8) (va : Word64) : Tidy (saveFault asid slot cause va) := by
  unfold saveFault
  repeat' first | with_reducible constructor | intro _ | simp

@[simp] theorem tidy_collectorWrite (asid slot : Nat) (x : M Unit) (hx : Tidy x) : Tidy (collectorWrite asid slot x) := by
  unfold collectorWrite
  repeat' first | assumption | with_reducible constructor | intro _ | simp | split

theorem tidy_reload (save : Nat) (h : Hart) (off n : Nat) (changed : Nat → Hart → M Hart) (hchanged : ∀ v h, Tidy (changed v h)) :
    Tidy (reload save h off n changed) := by
  unfold reload
  repeat' first | assumption | with_reducible constructor | intro _ | simp [*] | split

@[simp] theorem tidy_reloadField (save : Nat) (h : Hart) (f : SaveField) : Tidy (reloadField save h f) := by
  refine tidy_reload _ _ _ _ _ fun _ _ => ?_
  repeat' first | assumption | with_reducible constructor | intro _ | simp [*]

@[simp] theorem tidy_freeWhere {n : Nat} (old new : BitVec n) : Tidy (freeWhere old new) := by
  unfold freeWhere
  repeat' first | with_reducible constructor | intro _ | simp

@[simp] theorem tidy_freeNode (i : Nat) : Tidy (freeNode i) := by
  unfold freeNode
  repeat' first | with_reducible constructor | intro _ | simp

@[simp] theorem tidy_Tree_changed (old new : Tree) : Tidy (Tree.changed old new) := by
  unfold Tree.changed
  repeat' first | with_reducible constructor | intro _ | (simp; done) | split

@[simp] theorem tidy_reloadTree (save : Nat) (h : Hart) (k : Nat) : Tidy (reloadTree save h k) := by
  refine tidy_reload _ _ _ _ _ fun _ _ => ?_
  repeat' first | assumption | with_reducible constructor | intro _ | (simp [*]; done) | split

@[simp] theorem tidy_reloadRecord (save : Nat) (h : Hart) (i : Nat) : Tidy (reloadRecord save h i) := by
  refine tidy_reload _ _ _ _ _ fun _ _ => ?_
  repeat' first | assumption | with_reducible constructor | intro _ | simp [*]

@[simp] theorem tidy_freeOrder : Tidy freeOrder := by
  unfold freeOrder
  repeat' first | with_reducible constructor | intro _ | simp

@[simp] theorem tidy_freePart {α : Type} (l : List α) : Tidy (freePart l) := by
  unfold freePart
  repeat' first | assumption | with_reducible constructor | intro _ | simp [*]

@[simp] theorem tidy_reloadResidency (save : Nat) (h : Hart) : Tidy (reloadResidency save h) := by
  refine tidy_reload _ _ _ _ _ fun _ _ => ?_
  repeat' first | assumption | with_reducible constructor | intro _ | simp [*]

@[simp] theorem tidy_SPlace_freed (p : SPlace) : Tidy (SPlace.freed p) := by
  unfold SPlace.freed
  repeat' first | with_reducible constructor | intro _ | simp | split

@[simp] theorem tidy_reloadScalarQueues (save : Nat) (h : Hart) : Tidy (reloadScalarQueues save h) := by
  refine tidy_reload _ _ _ _ _ fun _ _ => ?_
  repeat' first | assumption | with_reducible constructor | intro _ | simp [*]

@[simp] theorem tidy_Transfer_freed (t : Transfer) : Tidy (Transfer.freed t) := by
  unfold Transfer.freed
  repeat' first | with_reducible constructor | intro _ | (simp; done) | split

@[simp] theorem tidy_reloadTransfer (save : Nat) (h : Hart) (i : Nat) : Tidy (reloadTransfer save h i) := by
  refine tidy_reload _ _ _ _ _ fun _ _ => ?_
  repeat' first | assumption | with_reducible constructor | intro _ | (simp [*]; done) | split

@[simp] theorem tidy_reloadAll (save : Nat) (parked : Bool) (h : Hart) : Tidy (reloadAll save parked h) := by
  unfold reloadAll
  repeat' first | with_reducible constructor | intro _ | simp

@[simp] theorem tidy_freeFmt : Tidy freeFmt := by
  unfold freeFmt
  repeat' first | with_reducible constructor | intro _ | simp

@[simp] theorem tidy_freeCells (w : Nat) : Tidy (freeCells w) := by
  unfold freeCells
  repeat' first | with_reducible constructor | intro _ | simp

@[simp] theorem tidy_freeWPlane : Tidy freeWPlane := by
  unfold freeWPlane
  repeat' first | with_reducible constructor | intro _ | simp

@[simp] theorem tidy_freeAPlane : Tidy freeAPlane := by
  unfold freeAPlane
  repeat' first | with_reducible constructor | intro _ | simp

@[simp] theorem tidy_Matrix_freedRest (m : Matrix) : Tidy (Matrix.freedRest m) := by
  unfold Matrix.freedRest
  repeat' first | with_reducible constructor | intro _ | simp

@[simp] theorem tidy_Matrix_freed (m : Matrix) : Tidy (Matrix.freed m) := by
  unfold Matrix.freed
  repeat' first | with_reducible constructor | intro _ | simp

@[simp] theorem tidy_freeCell (core plane cell : Nat) : Tidy (freeCell core plane cell) := by
  unfold freeCell
  repeat' first | with_reducible constructor | intro _ | simp

/-! ### The parts of the model's file Kernel -/

@[simp] theorem tidy_deviceWords (asid : Nat) (va : Word64) (n : Nat) : Tidy (deviceWords asid va n) := by
  unfold deviceWords
  repeat' first | with_reducible constructor | intro _ | simp

@[simp] theorem tidy_writeCompletion (asid cpl kid status ended : Nat) : Tidy (writeCompletion asid cpl kid status ended) := by
  unfold writeCompletion
  repeat' first | with_reducible constructor | intro _ | simp | split

@[simp] theorem tidy_completeKernel (num status : Nat) : Tidy (completeKernel num status) := by
  unfold completeKernel
  repeat' first | assumption | with_reducible constructor | intro _ | simp | split

@[simp] theorem tidy_contextEmpty (asid : Nat) : Tidy (contextEmpty asid) := by
  unfold contextEmpty
  repeat' first | with_reducible constructor | intro _ | simp | split

@[simp] theorem tidy_takeLanes (asid : Nat) : Tidy (takeLanes asid) := by
  unfold takeLanes
  repeat' first | with_reducible constructor | intro _ | simp

@[simp] theorem tidy_victimDone (asid : Nat) : Tidy (victimDone asid) := by
  unfold victimDone
  repeat' first | assumption | with_reducible constructor | intro _

@[simp] theorem tidy_saveCores (asid : Nat) : Tidy (saveCores asid) := by
  unfold saveCores
  refine .getThen fun s _ => .each fun e => .each fun c => .modify fun s hs => modCore_memInv.mpr ⟨hs.1, Memory.wf_delRange _ _ hs.2⟩

@[simp] theorem tidy_moveBarriers (asid : Nat) (old new : BarState) : Tidy (moveBarriers asid old new) := by
  unfold moveBarriers
  repeat' first | assumption | with_reducible constructor | intro _

@[simp] theorem tidy_answerWaiters (asid : Nat) : Tidy (answerWaiters asid) := by
  unfold answerWaiters
  repeat' first | with_reducible constructor | intro _ | simp | split

@[simp] theorem tidy_saveHarts (asid save : Nat) : Tidy (saveHarts asid save) := by
  unfold saveHarts
  repeat' first | assumption | with_reducible constructor | intro _ | (simp; done) | split

@[simp] theorem tidy_checkCollected (asid : Nat) : Tidy (checkCollected asid) := by
  unfold checkCollected
  repeat' first | with_reducible constructor | intro _ | (simp; done) | split

@[simp] theorem tidy_sendAway (asid d : Nat) : Tidy (sendAway asid d) := by
  unfold sendAway
  repeat' first | with_reducible constructor | intro _ | simp

@[simp] theorem tidy_checkGroups (h : Hart) : Tidy (checkGroups h) := by
  unfold checkGroups
  repeat' first | with_reducible constructor | intro _ | simp

@[simp] theorem tidy_endHart : Tidy endHart := by
  unfold endHart
  repeat' first | assumption | with_reducible constructor | intro _ | (simp; done) | split

@[simp] theorem tidy_trigger : Tidy trigger := by
  unfold trigger
  repeat' first | with_reducible constructor | intro _ | simp

@[simp] theorem tidy_settleHart : Tidy settleHart := by
  unfold settleHart
  repeat' first | with_reducible constructor | intro _ | simp

@[simp] theorem tidy_Actor_claimBlock (a : Actor) (va : Word64) (take : Nat → Nat) : Tidy (Actor.claimBlock a va take) := by
  unfold Actor.claimBlock
  repeat' first | with_reducible constructor | intro _ | (simp; done) | split

@[simp] theorem windowFree_memInv {s : State} {asid slot : Nat} : (s.windowFree asid slot).MemInv ↔ s.MemInv := Iff.rfl

@[simp] theorem ls_delRange_memInv {s : State} (lo hi : Nat) (x : List Nat) (k : SMap Kernel) (hs : s.MemInv) :
    State.MemInv { s with ls := SMap.delRange s.ls lo hi, lsPoison := x, kernels := k } :=
  ⟨hs.1, Memory.wf_delRange lo hi hs.2⟩

@[simp] theorem tidy_placeCore (num asid : Nat) (r : LaunchRec) (thandler tstack ewin : Nat) (coord : Nat) (dev fab die core cix : Nat) :
    Tidy (placeCore num asid r thandler tstack ewin coord dev fab die core cix) := by
  unfold placeCore
  repeat' first | assumption | with_reducible constructor | intro _ | simp [*]

@[simp] theorem tidy_switchCore (asid core : Nat) : Tidy (switchCore asid core) := by
  refine .modify fun s hs => ?_
  split
  · exact hs
  · exact modCore_memInv.mpr hs

@[simp] theorem tidy_placeKernel (asid : Nat) (r : LaunchRec) (prio : Nat) (places : List (Nat × List Nat)) :
    Tidy (placeKernel asid r prio places) := by
  unfold placeKernel
  repeat' first | assumption | with_reducible constructor | intro _ | simp

@[simp] theorem tidy_queued (q : LaunchQ) (kid but : Nat) (own : Bool) : Tidy (queued q kid but own) := by
  unfold queued
  repeat' first | with_reducible constructor | intro _ | simp | split

@[simp] theorem tidy_predDone (q : LaunchQ) (r : LaunchRec) (p : Nat) : Tidy (predDone q r p) := by
  unfold predDone
  repeat' first | with_reducible constructor | intro _ | simp | split

@[simp] theorem tidy_headOf (lq : Nat) : Tidy (headOf lq) := by
  unfold headOf
  repeat' first | with_reducible constructor | intro _ | (simp; done) | split

@[simp] theorem tidy_nextRecord (q : LaunchQ) : Tidy (nextRecord q) := by
  unfold nextRecord
  repeat' first | with_reducible constructor | intro _ | simp

@[simp] theorem tidy_pickVictim (die : Nat) (h : Head) (short : List Nat) : Tidy (pickVictim die h short) := by
  unfold pickVictim
  repeat' first | assumption | with_reducible constructor | intro _ | simp | split

@[simp] theorem tidy_disposeRecord (h : Head) : Tidy (disposeRecord h) := by
  unfold disposeRecord
  repeat' first | with_reducible constructor | intro _ | simp

@[simp] theorem tidy_tryHeads (die : Nat) (heads : List Head) : Tidy (tryHeads die heads) := by
  induction heads with
  | nil => exact .pure _
  | cons head rest ih =>
    unfold tryHeads
    repeat' first | assumption | with_reducible constructor | intro _ | simp [*] | split

/-! ### The parts of the model's file Context -/

@[simp] theorem tidy_bindCtx (desc : Nat) : Tidy (bindCtx desc) := by
  unfold bindCtx
  repeat' first | assumption | with_reducible constructor | intro _ | simp

@[simp] theorem tidy_enableQueues (asid : Nat) (c : Context) (on : Bool) : Tidy (enableQueues asid c on) := by
  unfold enableQueues
  repeat' first | with_reducible constructor | intro _ | simp | split

@[simp] theorem tidy_openCtx (asid : Nat) (c : Context) : Tidy (openCtx asid c) := by
  unfold openCtx
  repeat' first | assumption | with_reducible constructor | intro _ | simp | split

@[simp] theorem tidy_closeCtx (asid : Nat) (c : Context) (me : Nat) : Tidy (closeCtx asid c me) := by
  unfold closeCtx
  repeat' first | with_reducible constructor | intro _ | (simp; done) | split

@[simp] theorem tidy_unbindCtx (asid : Nat) (c : Context) (endDrains : M Unit) (hendDrains : Tidy endDrains) : Tidy (unbindCtx asid c endDrains) := by
  unfold unbindCtx
  repeat' first | assumption | with_reducible constructor | intro _ | simp

@[simp] theorem tidy_discardCtx (asid : Nat) (c : Context) : Tidy (discardCtx asid c) := by
  unfold discardCtx
  repeat' first | assumption | with_reducible constructor | intro _ | simp

@[simp] theorem tidy_recoverCtx (asid : Nat) (c : Context) : Tidy (recoverCtx asid c) := by
  unfold recoverCtx
  repeat' first | with_reducible constructor | intro _ | simp

@[simp] theorem tidy_formAddr (kind : Kind) (va : Word64) : Tidy (formAddr kind va) := by
  unfold formAddr
  repeat' first | with_reducible constructor | intro _ | simp

@[simp] theorem tidy_whoAsks : Tidy whoAsks := by
  unfold whoAsks
  repeat' first | with_reducible constructor | intro _ | simp

@[simp] theorem tidy_asidCommand (cmd desc : Nat) (endDrains : Nat → M Unit) (hendDrains : ∀ a, Tidy (endDrains a)) :
    Tidy (asidCommand cmd desc endDrains) := by
  unfold asidCommand
  repeat' first | with_reducible constructor | intro _ | (simp [*]; done) | split

@[simp] theorem tidy_leaveWith (asid : Nat) : Tidy (leaveWith asid) := by
  unfold leaveWith
  repeat' first | assumption | with_reducible constructor | intro _ | simp

@[simp] theorem tidy_collectHart (slot : Nat) : Tidy (collectHart slot) := by
  have hspill (h : Hart) : Tidy (collectorWrite h.asid slot (asHart slot .x spillDirty)) :=
    tidy_collectorWrite _ _ _ (.asHart tidy_spillDirty)
  unfold collectHart
  repeat' first | assumption | with_reducible constructor | intro _ | (simp [*]; done) | split

@[simp] theorem tidy_freeAllocation (asid core : Nat) : Tidy (freeAllocation asid core) := by
  unfold freeAllocation
  repeat' first | assumption | with_reducible constructor | intro _ | simp

@[simp] theorem ls_write_memInv {s : State} (a : Nat) (b : Byte) (hs : s.MemInv) : State.MemInv { s with ls := s.ls.write a b } :=
  ⟨hs.1, Memory.wf_write a b hs.2⟩

@[simp] theorem tidy_reloadPiece (asid core off old new : Nat) : Tidy (reloadPiece asid core off old new) := by
  unfold reloadPiece
  repeat' first | assumption | with_reducible constructor | intro _ | simp [*]

theorem foldl_write_wf {l : List Host.Cell} {m : Memory} (hm : m.wf) : Memory.wf (l.foldl (fun m c => Memory.write m c.1 c.2) m) := by
  induction l generalizing m with
  | nil => exact hm
  | cons c l ih => exact ih (Memory.wf_write _ _ hm)

theorem foldl_restore_wf {l : List (Nat × List Host.Cell)} {m : Memory} (hm : m.wf) :
    Memory.wf (l.foldl (fun m p => p.2.foldl (fun m c => Memory.write m c.1 c.2) m) m) := by
  induction l generalizing m with
  | nil => exact hm
  | cons p l ih => exact ih (foldl_write_wf hm)

@[simp] theorem ls_restore_memInv {s : State} (l : List (Nat × List Host.Cell)) (hs : s.MemInv) :
    State.MemInv { s with ls := l.foldl (fun m p => p.2.foldl (fun m c => Memory.write m c.1 c.2) m) s.ls } := ⟨hs.1, foldl_restore_wf hs.2⟩

@[simp] theorem tidy_reloadCore (asid core : Nat) : Tidy (reloadCore asid core) := by
  unfold reloadCore
  repeat' first | assumption | with_reducible constructor | intro _ | (simp [*]; done) | split

@[simp] theorem tidy_reloadHart (h : Hart) : Tidy (reloadHart h) := by
  unfold reloadHart
  repeat' first | assumption | with_reducible constructor | intro _ | (simp [*]; done) | split

@[simp] theorem tidy_retakeHart (slot : Nat) : Tidy (retakeHart slot) := by
  unfold retakeHart
  repeat' first | with_reducible constructor | intro _ | (simp; done) | split

/-! ### The parts of the model's file Checkpoint -/

@[simp] theorem tidy_readCk (ra : SReg) (fresh freezes : Bool) : Tidy (readCk ra fresh freezes) := by
  unfold readCk
  repeat' first | with_reducible constructor | intro _ | simp

@[simp] theorem tidy_unfit {α : Type} (page : Word64) : Tidy (unfit page : M α) := by
  unfold unfit
  simp

@[simp] theorem tidy_freezePage (a : Actor) (r : CkRec) (i : Nat) : Tidy (freezePage a r i) := by
  unfold freezePage
  repeat' first | with_reducible constructor | intro _ | (simp; done) | split

@[simp] theorem tidy_frozenChunk (d : Drain) (x : Nat) : Tidy (frozenChunk d x) := by
  unfold frozenChunk
  repeat' first | with_reducible constructor | intro _ | (simp; done) | split

@[simp] theorem tidy_unitChunk (d : Drain) (j : Nat) (k : Option Nat) (x : Nat) : Tidy (unitChunk d j k x) := by
  unfold unitChunk
  repeat' first | with_reducible constructor | intro _ | (simp; done) | split

@[simp] theorem tidy_writeUnit (d : Drain) (j : Nat) (k : Option Nat) : Tidy (writeUnit d j k) := by
  unfold writeUnit
  repeat' first | with_reducible constructor | intro _ | simp | split

@[simp] theorem tidy_writeUnits (d : Drain) : Tidy (writeUnits d) := by
  unfold writeUnits
  repeat' first | with_reducible constructor | intro _ | simp

@[simp] theorem tidy_thawPage (key : Nat) (p : Nat × Nat × Bool) : Tidy (thawPage key p) := by
  unfold thawPage
  repeat' first | with_reducible constructor | intro _ | simp | split

@[simp] theorem tidy_writeCk (asid : Nat) (va : Word64) (n v : Nat) : Tidy (writeCk asid va n v) := by
  unfold writeCk
  repeat' first | with_reducible constructor | intro _ | simp | split

@[simp] theorem tidy_finishDrain (d : Drain) (units : Option Nat) (status : Nat) : Tidy (finishDrain d units status) := by
  unfold finishDrain
  repeat' first | with_reducible constructor | intro _ | (simp; done) | split

@[simp] theorem tidy_failDrains (asid : Nat) : Tidy (failDrains asid) := by
  unfold failDrains
  repeat' first | assumption | with_reducible constructor | intro _ | simp

@[simp] theorem tidy_stripeUnit (asid : Nat) (r : CkRec) (j m : Nat) : Tidy (stripeUnit asid r j m) := by
  unfold stripeUnit
  repeat' first | with_reducible constructor | intro _ | simp | split

@[simp] theorem tidy_restoredRow (asid : Nat) (r : CkRec) (j : Nat) : Tidy (restoredRow asid r j) := by
  unfold restoredRow
  repeat' first | with_reducible constructor | intro _ | simp

@[simp] theorem soundSector_foldl_memInv {l : List Nat} {s : State} : (l.foldl State.soundSector s).MemInv ↔ s.MemInv := by
  induction l generalizing s with
  | nil => exact Iff.rfl
  | cons a l ih => exact ih

@[simp] theorem tidy_restorePage (target : Nat) (r : CkRec) (i v : Nat) : Tidy (restorePage target r i v) := by
  unfold restorePage
  repeat' first | assumption | with_reducible constructor | intro _ | (simp [*]; done) | split

@[simp] theorem tidy_restoreRows (t : Restore) (target : Nat) : Tidy (restoreRows t target) := by
  unfold restoreRows
  repeat' first | with_reducible constructor | intro _ | (simp; done) | split

end Sys2Proof.Machine
end

section
/-! The memories stay canonical through each part of the model: the cutter, the links, the array and the host's service. -/

namespace Sys2Proof.Machine

/-! ### The parts of the model's file Cutter -/

@[simp] theorem tidy_cutterTrap {α : Type} (sub : BitVec 5) : Tidy (cutterTrap sub : M α) := by
  unfold cutterTrap
  simp

@[simp] theorem tidy_localRange (va : Word64) (n : Nat) : Tidy (localRange va n) := by
  unfold localRange
  repeat' first | with_reducible constructor | intro _ | (simp; done) | split

@[simp] theorem tidy_meetOthers (a : Actor) (l : Loc) (n : Nat) : Tidy (meetOthers a l n) := by
  unfold meetOthers
  repeat' first | with_reducible constructor | intro _ | simp

@[simp] theorem tidy_cutRead (va : Word64) (n : Nat) : Tidy (cutRead va n) := by
  unfold cutRead
  repeat' first | with_reducible constructor | intro _ | simp

@[simp] theorem tidy_cutWrite (va : Word64) (n v : Nat) : Tidy (cutWrite va n v) := by
  unfold cutWrite
  repeat' first | with_reducible constructor | intro _ | simp

@[simp] theorem tidy_cutEntry (va : Word64) (n v : Nat) : Tidy (cutEntry va n v) := by
  unfold cutEntry
  repeat' first | assumption | with_reducible constructor | intro _ | simp

@[simp] theorem tidy_entry32 (base : Word64) (i : Nat) : Tidy (entry32 base i) := by
  unfold entry32
  simp

@[simp] theorem tidy_readSparse (va : Word64) : Tidy (readSparse va) := by
  unfold readSparse
  repeat' first | with_reducible constructor | intro _ | (simp; done) | split

@[simp] theorem tidy_putBound (bd : BRegNo) (d : Sparse) (r : BoundRec) : Tidy (putBound bd d r) := by
  unfold putBound
  repeat' first | with_reducible constructor | intro _ | simp

@[simp] theorem tidy_readColumns (d : Sparse) (n t : Nat) (set : List Nat) : Tidy (readColumns d n t set) := by
  induction n generalizing t set with
  | zero => exact .pure _
  | succ n ih =>
    unfold readColumns
    repeat' first | assumption | with_reducible constructor | intro _ | simp [*]

@[simp] theorem tidy_cutRows (d : Sparse) (r k n : Nat) (c : Cut) : Tidy (cutRows d r k n c) := by
  induction n generalizing c with
  | zero => exact .pure _
  | succ n ih =>
    unfold cutRows
    repeat' first | assumption | with_reducible constructor | intro _ | (simp [*]; done) | split | dsimp only

@[simp] theorem tidy_cutterIssue (n : Nat) : Tidy (cutterIssue n) := by
  unfold cutterIssue
  repeat' first | with_reducible constructor | intro _ | simp

@[simp] theorem tidy_cutRecord (va : Word64) (dst : Bool) : Tidy (cutRecord va dst) := by
  unfold cutRecord
  repeat' first | with_reducible constructor | intro _ | simp

@[simp] theorem tidy_recordPlaced (l : Layout) (dst : Bool) : Tidy (recordPlaced l dst) := by
  unfold recordPlaced
  repeat' first | with_reducible constructor | intro _ | (simp; done) | split

@[simp] theorem tidy_readMap (d : Sparse) (nc : Nat) : Tidy (readMap d nc) := by
  unfold readMap
  repeat' first | with_reducible constructor | intro _ | simp

@[simp] theorem tidy_partner (src : Layout) (map : List Nat) (nc i j : Nat) : Tidy (partner src map nc i j) := by
  unfold partner
  repeat' first | with_reducible constructor | intro _ | simp

@[simp] theorem tidy_tileRows (d : Sparse) (r0 r1 : Nat) : Tidy (tileRows d r0 r1) := by
  unfold tileRows
  repeat' first | with_reducible constructor | intro _ | simp

@[simp] theorem tidy_tileItem (d : Sparse) (b : BoundRec) (dst : Layout) (map : List Nat) (t : Nat) : Tidy (tileItem d b dst map t) := by
  unfold tileItem
  repeat' first | with_reducible constructor | intro _ | simp

@[simp] theorem tidy_clearTile (dst : Layout) (row0 rows : Nat) : Tidy (clearTile dst row0 rows) := by
  unfold clearTile
  repeat' first | with_reducible constructor | intro _ | simp

@[simp] theorem tidy_writeItem (d : Sparse) (dst : Layout) (row0 : Nat) (item : Nat × Nat × List Nat) : Tidy (writeItem d dst row0 item) := by
  unfold writeItem
  repeat' first | with_reducible constructor | intro _ | simp

/-! ### The parts of the model's file Link -/

@[simp] theorem tidy_modVoltor (p : Nat) (f : Voltor → Voltor) : Tidy (modVoltor p f) := by
  unfold modVoltor
  repeat' first | assumption | with_reducible constructor | intro _

@[simp] theorem tidy_voltorState (p : Nat) : Tidy (voltorState p) := by
  unfold voltorState
  repeat' first | with_reducible constructor | intro _ | simp

@[simp] theorem tidy_trainVoltor (p : Nat) : Tidy (trainVoltor p) := by
  unfold trainVoltor
  simp

@[simp] theorem tidy_failVoltor (p : Nat) : Tidy (failVoltor p) := by
  unfold failVoltor
  repeat' first | assumption | with_reducible constructor | intro _ | simp

@[simp] theorem tidy_outsideTarget (key pa : Nat) (stores : Bool) : Tidy (outsideTarget key pa stores) := by
  unfold outsideTarget
  repeat' first | with_reducible constructor | intro _ | (simp; done) | split

@[simp] theorem tidy_outsideStore (key pa n v : Nat) : Tidy (outsideStore key pa n v) := by
  unfold outsideStore
  repeat' first | with_reducible constructor | intro _ | simp

@[simp] theorem tidy_outsideLoad (key pa n : Nat) : Tidy (outsideLoad key pa n) := by
  unfold outsideLoad
  repeat' first | with_reducible constructor | intro _ | simp

@[simp] theorem tidy_outsideWrite (key pa n v : Nat) : Tidy (outsideWrite key pa n v) := by
  unfold outsideWrite
  repeat' first | assumption | with_reducible constructor | intro _ | simp

@[simp] theorem tidy_outsideRead (key pa n : Nat) : Tidy (outsideRead key pa n) := by
  unfold outsideRead
  repeat' first | with_reducible constructor | intro _ | simp

@[simp] theorem tidy_reportLost (asid peer : Nat) : Tidy (reportLost asid peer) := by
  unfold reportLost
  repeat' first | assumption | with_reducible constructor | intro _ | simp | split

/-! ### The parts of the model's file Matrix -/

@[simp] theorem tidy_getMat : Tidy getMat := by
  unfold getMat
  repeat' first | with_reducible constructor | intro _

@[simp] theorem tidy_modMat (f : Matrix → Matrix) : Tidy (modMat f) := by
  unfold modMat
  repeat' first | with_reducible constructor | intro _ | simp

@[simp] theorem tidy_matrixIssue (planes : List CRegNo) : Tidy (matrixIssue planes) := by
  unfold matrixIssue
  repeat' first | with_reducible constructor | intro _ | simp

@[simp] theorem tidy_needMatrix : Tidy needMatrix := by
  unfold needMatrix
  repeat' first | with_reducible constructor | intro _ | simp

@[simp] theorem tidy_pushMat (o : MOp) : Tidy (pushMat o) := by
  unfold pushMat
  simp

@[simp] theorem tidy_mshape (die : Bool) (rd ra rb : SReg) : Tidy (mshape die rd ra rb) := by
  unfold mshape
  repeat' first | with_reducible constructor | intro _ | (simp; done) | split

@[simp] theorem tidy_matrixOperand (ra sb : SReg) (f : Fmt) (n0 n1 nscales : Nat) : Tidy (matrixOperand ra sb f n0 n1 nscales) := by
  unfold matrixOperand
  repeat' first | with_reducible constructor | intro _ | (simp [*]; done) | split | dsimp only

@[simp] theorem tidy_Tile_enter (t : Tile) : Tidy (Tile.enter t) := by
  unfold Tile.enter
  repeat' first | with_reducible constructor | intro _ | simp

@[simp] theorem tidy_readWindow (va : Word64) (n : Nat) : Tidy (readWindow va n) := by
  unfold readWindow
  repeat' first | with_reducible constructor | intro _ | (simp; done) | split

@[simp] theorem tidy_Tile_elem (t : Tile) (i0 i1 : Nat) : Tidy (Tile.elem t i0 i1) := by
  unfold Tile.elem
  repeat' first | with_reducible constructor | intro _ | simp

@[simp] theorem tidy_Tile_scale (t : Tile) (i : Nat) : Tidy (Tile.scale t i) := by
  unfold Tile.scale
  repeat' first | with_reducible constructor | intro _ | simp

@[simp] theorem tidy_needTagged (c : CRegNo) : Tidy (needTagged c) := by
  unfold needTagged
  repeat' first | with_reducible constructor | intro _ | simp

@[simp] theorem tidy_streamChecks (cd : CRegNo) : Tidy (streamChecks cd) := by
  unfold streamChecks
  repeat' first | with_reducible constructor | intro _ | simp

@[simp] theorem tidy_pushStream (cd : CRegNo) (rows : List ActRow) (receiver : Bool) : Tidy (pushStream cd rows receiver) := by
  unfold pushStream
  repeat' first | with_reducible constructor | intro _ | simp

@[simp] theorem tidy_garbleCells (ml nl : Nat) (plane : APlane) : Tidy (garbleCells ml nl plane) := by
  unfold garbleCells
  repeat' first | with_reducible constructor | intro _ | simp

@[simp] theorem tidy_streamNan (kernel slot op : Nat) (pc : Word64) (cell : Option Nat) : Tidy (streamNan kernel slot op pc cell) := by
  unfold streamNan
  repeat' first | assumption | with_reducible constructor | intro _ | split

@[simp] theorem tidy_sendRows (j : Nat) (b : Broadcast) (q : Nat) : Tidy (sendRows j b q) := by
  unfold sendRows
  simp

@[simp] theorem tidy_runStream (core c slot : Nat) (pc : Word64) (p : Shape) (rows : List ActRow) (pair : Option Nat)
    (receiver : Bool) (row col op n i : Nat) :
    Tidy (runStream core c slot pc p rows pair receiver row col op n i) := by
  unfold runStream
  repeat' first | with_reducible constructor | intro _ | (simp; done) | split

@[simp] theorem tidy_modPlane (core c : Nat) (f : APlane → APlane) : Tidy (modPlane core c f) := by
  unfold modPlane
  simp

/-! ### The parts of the model's file Service -/

@[simp] theorem tidy_restart (boot : Nat) (power : Bool) : Tidy (restart boot power) :=
  .bind (tidy_freeBytes 64) fun _ => .bind (.modify fun _ hs => ⟨hs.1, Memory.wf_nil⟩) fun _ => .modify fun _ hs => ⟨hs.1, Memory.wf_nil⟩

@[simp] theorem tidy_mapDie (die : Nat) : Tidy (mapDie die) := by
  unfold mapDie
  repeat' first | assumption | with_reducible constructor | intro _ | simp

@[simp] theorem tidy_ringMailbox (seq : Nat) : Tidy (ringMailbox seq) := by
  unfold ringMailbox
  repeat' first | assumption | with_reducible constructor | intro _ | simp

@[simp] theorem tidy_windowRead (a b : Nat) : Tidy (windowRead a b) := by
  unfold windowRead
  repeat' first | with_reducible constructor | intro _ | simp

@[simp] theorem tidy_command (number : Nat) (levels : Level → Bool) (x : M (Nat × List Byte)) (hx : Tidy x) : Tidy (command number levels x) := by
  unfold command
  repeat' first | assumption | with_reducible constructor | intro _ | simp

@[simp] theorem tidy_pcbValid (p : Nat) : Tidy (pcbValid p) := by
  unfold pcbValid
  repeat' first | with_reducible constructor | intro _ | simp

/-! ### The parts of the model's file Redo -/

@[simp] theorem tidy_elemAddrs (ops : Fmt → M (Nat → Word64)) (fields : Nat) (hops : ∀ f, Tidy (ops f)) :
    Tidy (elemAddrs ops fields) := by
  unfold elemAddrs
  repeat' first | assumption | with_reducible constructor | intro _ | simp [*]

@[simp] theorem tidy_scalarAddr (n : Nat) (addr : M Word64) (haddr : Tidy addr) : Tidy (scalarAddr n addr) := by
  unfold scalarAddr
  repeat' first | assumption | with_reducible constructor | intro _

/-- The addresses of a load are found without a change to the memories. -/
theorem lateAddrs_tidy {i : Instr} {addrs : M (List (Word64 × Nat))} (h : lateAddrs i = some addrs) : Tidy addrs := by
  have hstride (ra rb : SReg) : Tidy (elemAddrs (strideOps ra rb) 1) := tidy_elemAddrs _ _ fun _ => tidy_strideOps ..
  have hunit (addr : M Word64) (n : Nat) (haddr : Tidy addr) : Tidy (elemAddrs (unitOps addr) n) :=
    tidy_elemAddrs _ _ fun _ => tidy_unitOps _ _ haddr
  unfold lateAddrs at h
  split at h <;> cases h <;> simp [hstride, hunit]

@[simp] theorem tidy_latePlaces (i : Instr) : Tidy (latePlaces i) := by
  unfold latePlaces
  split
  · exact .pure _
  · next addrs haddrs =>
    have hlate := lateAddrs_tidy haddrs
    repeat' first | assumption | with_reducible constructor | intro _ | simp [*]

end Sys2Proof.Machine
end

section
/-! Every instruction and event leaves the memories canonical: one lemma for each. -/

namespace Sys2Proof.Machine

/-! ### Instructions and events -/

/-- Where an outcome goes on, it does so with canonical memories. -/
def LeavesMemInv (o : Host.Outcome State Fault Refusal) : Prop := ∀ t, o = .next t → t.MemInv

theorem markWait_memInv {s : State} (w : Option Wait) (hs : s.MemInv) : (markWait w s).MemInv := by
  unfold markWait
  split <;> exact hs

theorem holdWhole_memInv {s : State} (hs : s.MemInv) : s.holdWhole.MemInv := by
  unfold State.holdWhole
  split <;> exact hs

theorem after_memInv {s : State} {x : M Unit} (hx : Tidy x) (hs : s.MemInv) : (after x s).MemInv := by
  have hend := (keeps_of_tidy hx).run s hs
  unfold after
  split
  · next h => rw [h] at hend; exact hend
  · exact markWait_memInv _ hs
  · next h => rw [h] at hend; exact hend

@[simp] theorem tidy_perform (n : Nat) (p : PendingStore) : Tidy (perform n p) := tidy_of_keeps (keeps_perform memInv_closed ..)

@[simp] theorem tidy_installL1 (core key sec : Nat) : Tidy (installL1 core key sec) := tidy_of_keeps (keeps_installL1 memInv_closed ..)

@[simp] theorem tickCore_memInv {s : State} {core : Nat} : (tickCore core s).MemInv ↔ s.MemInv := by
  unfold tickCore
  dsimp only
  split <;> exact modCore_memInv

section
variable {s : State} (hs : s.MemInv) {x : M Unit}
include hs

/-- An instruction leaves the memories canonical where its meaning keeps them so: it retires, waits, is held as a whole, or enters its trap. -/
theorem issue_leaves (hx : Tidy x) : LeavesMemInv (issue x s) := by
  intro t ht
  have hend := (keeps_of_tidy hx).run s hs
  unfold issue at ht
  split at ht
  · next hrun =>
    cases ht
    rw [hrun] at hend
    exact markWait_memInv none hend
  · next keep _ hrun =>
    cases ht
    rw [hrun] at hend
    exact after_memInv (tidy_trapEntry ..) (by split <;> assumption)
  · cases ht
    exact holdWhole_memInv hs
  · next hrun =>
    cases ht
    rw [hrun] at hend
    exact markWait_memInv _ (by split <;> assumption)
  · cases ht

/-- An event leaves the memories canonical where its meaning keeps them so. -/
theorem event_leaves (hx : Tidy x) : LeavesMemInv (event x s) := by
  intro t ht
  have hend := (keeps_of_tidy hx).run s hs
  unfold event at ht
  split at ht
  · next h =>
    cases ht
    rw [h] at hend
    exact hend
  · cases ht
    exact hs

/-! ### The parts of the model's file Queue -/

@[simp] theorem execQpush_leaves (q : QNo) (r : Fin 64) : LeavesMemInv (execQpush q r s) := issue_leaves hs <| by
  repeat' first | with_reducible constructor | intro _ | simp

@[simp] theorem execQpop_leaves (r : Fin 64) (q : QNo) : LeavesMemInv (execQpop r q s) := issue_leaves hs <| by
  repeat' first | with_reducible constructor | intro _ | simp

@[simp] theorem execQpeek_leaves (r : Fin 64) (q : QNo) : LeavesMemInv (execQpeek r q s) := issue_leaves hs <| by
  repeat' first | with_reducible constructor | intro _ | simp

@[simp] theorem execQlen_leaves (rd : SReg) (q : QNo) : LeavesMemInv (execQlen rd q s) := issue_leaves hs <| by
  repeat' first | with_reducible constructor | intro _ | simp

/-! ### The parts of the model's file Loads -/

@[simp] theorem execLbMd_leaves (rd ra : SReg) (disp : BitVec 9) (fr : Bool) : LeavesMemInv (execLbMd rd ra disp fr s) := issue_leaves hs (by simp)

@[simp] theorem execLbMx_leaves (rd ra rb : SReg) (fr : Bool) : LeavesMemInv (execLbMx rd ra rb fr s) := issue_leaves hs (by simp)

@[simp] theorem execLbnMd_leaves (rd ra : SReg) (disp : BitVec 9) (fr : Bool) : LeavesMemInv (execLbnMd rd ra disp fr s) := issue_leaves hs (by simp)

@[simp] theorem execLbnMx_leaves (rd ra rb : SReg) (fr : Bool) : LeavesMemInv (execLbnMx rd ra rb fr s) := issue_leaves hs (by simp)

@[simp] theorem execLhMd_leaves (rd ra : SReg) (disp : BitVec 9) (fr : Bool) : LeavesMemInv (execLhMd rd ra disp fr s) := issue_leaves hs (by simp)

@[simp] theorem execLhMx_leaves (rd ra rb : SReg) (fr : Bool) : LeavesMemInv (execLhMx rd ra rb fr s) := issue_leaves hs (by simp)

@[simp] theorem execLhnMd_leaves (rd ra : SReg) (disp : BitVec 9) (fr : Bool) : LeavesMemInv (execLhnMd rd ra disp fr s) := issue_leaves hs (by simp)

@[simp] theorem execLhnMx_leaves (rd ra rb : SReg) (fr : Bool) : LeavesMemInv (execLhnMx rd ra rb fr s) := issue_leaves hs (by simp)

@[simp] theorem execLwMd_leaves (rd ra : SReg) (disp : BitVec 9) (fr : Bool) : LeavesMemInv (execLwMd rd ra disp fr s) := issue_leaves hs (by simp)

@[simp] theorem execLwMx_leaves (rd ra rb : SReg) (fr : Bool) : LeavesMemInv (execLwMx rd ra rb fr s) := issue_leaves hs (by simp)

@[simp] theorem execLwnMd_leaves (rd ra : SReg) (disp : BitVec 9) (fr : Bool) : LeavesMemInv (execLwnMd rd ra disp fr s) := issue_leaves hs (by simp)

@[simp] theorem execLwnMx_leaves (rd ra rb : SReg) (fr : Bool) : LeavesMemInv (execLwnMx rd ra rb fr s) := issue_leaves hs (by simp)

@[simp] theorem execLdMd_leaves (rd ra : SReg) (disp : BitVec 9) (fr : Bool) : LeavesMemInv (execLdMd rd ra disp fr s) := issue_leaves hs (by simp)

@[simp] theorem execLdMx_leaves (rd ra rb : SReg) (fr : Bool) : LeavesMemInv (execLdMx rd ra rb fr s) := issue_leaves hs (by simp)

@[simp] theorem execSbMd_leaves (rs ra : SReg) (disp : BitVec 9) : LeavesMemInv (execSbMd rs ra disp s) := issue_leaves hs (by simp)

@[simp] theorem execSbMx_leaves (rs ra rb : SReg) : LeavesMemInv (execSbMx rs ra rb s) := issue_leaves hs (by simp)

@[simp] theorem execShMd_leaves (rs ra : SReg) (disp : BitVec 9) : LeavesMemInv (execShMd rs ra disp s) := issue_leaves hs (by simp)

@[simp] theorem execShMx_leaves (rs ra rb : SReg) : LeavesMemInv (execShMx rs ra rb s) := issue_leaves hs (by simp)

@[simp] theorem execSwMd_leaves (rs ra : SReg) (disp : BitVec 9) : LeavesMemInv (execSwMd rs ra disp s) := issue_leaves hs (by simp)

@[simp] theorem execSwMx_leaves (rs ra rb : SReg) : LeavesMemInv (execSwMx rs ra rb s) := issue_leaves hs (by simp)

@[simp] theorem execSdMd_leaves (rs ra : SReg) (disp : BitVec 9) : LeavesMemInv (execSdMd rs ra disp s) := issue_leaves hs (by simp)

@[simp] theorem execSdMx_leaves (rs ra rb : SReg) : LeavesMemInv (execSdMx rs ra rb s) := issue_leaves hs (by simp)

@[simp] theorem execPrefL1Md_leaves (ra : SReg) (disp : BitVec 9) : LeavesMemInv (execPrefL1Md ra disp s) := issue_leaves hs (by simp)

@[simp] theorem execPrefL1Mx_leaves (ra rb : SReg) : LeavesMemInv (execPrefL1Mx ra rb s) := issue_leaves hs (by simp)

@[simp] theorem execPrefLlcMd_leaves (ra : SReg) (disp : BitVec 9) : LeavesMemInv (execPrefLlcMd ra disp s) := issue_leaves hs (by simp)

@[simp] theorem execPrefLlcMx_leaves (ra rb : SReg) : LeavesMemInv (execPrefLlcMx ra rb s) := issue_leaves hs (by simp)

@[simp] theorem execAmoadd_leaves (sc : BScope) (o : Order) (dw : Bool) (rd rb ra : SReg) :
    LeavesMemInv (execAmoadd sc o dw rd rb ra s) := issue_leaves hs (by simp)

@[simp] theorem execAmoswap_leaves (sc : BScope) (o : Order) (dw : Bool) (rd rb ra : SReg) :
    LeavesMemInv (execAmoswap sc o dw rd rb ra s) := issue_leaves hs (by simp)

@[simp] theorem execAmomax_leaves (sc : BScope) (o : Order) (dw : Bool) (rd rb ra : SReg) :
    LeavesMemInv (execAmomax sc o dw rd rb ra s) := issue_leaves hs (by simp)

@[simp] theorem execAmomin_leaves (sc : BScope) (o : Order) (dw : Bool) (rd rb ra : SReg) :
    LeavesMemInv (execAmomin sc o dw rd rb ra s) := issue_leaves hs (by simp)

@[simp] theorem execAmomaxN_leaves (sc : BScope) (o : Order) (dw : Bool) (rd rb ra : SReg) :
    LeavesMemInv (execAmomaxN sc o dw rd rb ra s) := issue_leaves hs (by simp)

@[simp] theorem execAmominN_leaves (sc : BScope) (o : Order) (dw : Bool) (rd rb ra : SReg) :
    LeavesMemInv (execAmominN sc o dw rd rb ra s) := issue_leaves hs (by simp)

@[simp] theorem execAmoand_leaves (sc : BScope) (o : Order) (dw : Bool) (rd rb ra : SReg) :
    LeavesMemInv (execAmoand sc o dw rd rb ra s) := issue_leaves hs (by simp)

@[simp] theorem execAmoor_leaves (sc : BScope) (o : Order) (dw : Bool) (rd rb ra : SReg) :
    LeavesMemInv (execAmoor sc o dw rd rb ra s) := issue_leaves hs (by simp)

@[simp] theorem execCas_leaves (sc : BScope) (o : Order) (dw : Bool) (rd rb ra : SReg) :
    LeavesMemInv (execCas sc o dw rd rb ra s) := issue_leaves hs (by simp)

/-! ### The parts of the model's file VectorMemory -/

@[simp] theorem execVldMd_leaves (vd : VRegNo) (ra : SReg) (disp : BitVec 9) (fr : Bool) :
    LeavesMemInv (execVldMd vd ra disp fr s) := issue_leaves hs (by simp)

@[simp] theorem execVldMx_leaves (vd : VRegNo) (ra rb : SReg) (fr : Bool) : LeavesMemInv (execVldMx vd ra rb fr s) := issue_leaves hs (by simp)

@[simp] theorem execVlds_leaves (vd : VRegNo) (ra rb : SReg) (fr : Bool) : LeavesMemInv (execVlds vd ra rb fr s) := issue_leaves hs (by simp)

@[simp] theorem execVldffMd_leaves (vd : VRegNo) (ra : SReg) (disp : BitVec 9) (fr : Bool) :
    LeavesMemInv (execVldffMd vd ra disp fr s) := issue_leaves hs (by simp)

@[simp] theorem execVldffMx_leaves (vd : VRegNo) (ra rb : SReg) (fr : Bool) : LeavesMemInv (execVldffMx vd ra rb fr s) := issue_leaves hs (by simp)

@[simp] theorem execVstMd_leaves (vs : VRegNo) (ra : SReg) (disp : BitVec 9) : LeavesMemInv (execVstMd vs ra disp s) := issue_leaves hs (by simp)

@[simp] theorem execVstMx_leaves (vs : VRegNo) (ra rb : SReg) : LeavesMemInv (execVstMx vs ra rb s) := issue_leaves hs (by simp)

@[simp] theorem execVsts_leaves (vs : VRegNo) (ra rb : SReg) : LeavesMemInv (execVsts vs ra rb s) := issue_leaves hs (by simp)

@[simp] theorem execVldsegMd_leaves (n : Fin 7) (vd : VRegNo) (ra : SReg) (disp : BitVec 9) :
    LeavesMemInv (execVldsegMd n vd ra disp s) := issue_leaves hs (by simp)

@[simp] theorem execVldsegMx_leaves (n : Fin 7) (vd : VRegNo) (ra rb : SReg) : LeavesMemInv (execVldsegMx n vd ra rb s) := issue_leaves hs (by simp)

@[simp] theorem execVstsegMd_leaves (n : Fin 7) (vs : VRegNo) (ra : SReg) (disp : BitVec 9) :
    LeavesMemInv (execVstsegMd n vs ra disp s) := issue_leaves hs (by simp)

@[simp] theorem execVstsegMx_leaves (n : Fin 7) (vs : VRegNo) (ra rb : SReg) : LeavesMemInv (execVstsegMx n vs ra rb s) := issue_leaves hs (by simp)

@[simp] theorem execKsld_leaves (kd : KRegNo) (ra rb : SReg) (fr : Bool) : LeavesMemInv (execKsld kd ra rb fr s) := issue_leaves hs <| by
  repeat' first | with_reducible constructor | intro _ | simp | refine tidy_resumeFrom _ _ _ _ ?_

/-! ### The parts of the model's file Gather -/

@[simp] theorem execVgat_leaves (q : QNo) (ew : Ew) (fr : Bool) (ra rb rc : SReg) :
    LeavesMemInv (execVgat q ew fr ra rb rc s) := issue_leaves hs <| by
  repeat' first | with_reducible constructor | intro _ | simp

@[simp] theorem execVgatff_leaves (q : QNo) (ew : Ew) (fr : Bool) (ra rb rc : SReg) :
    LeavesMemInv (execVgatff q ew fr ra rb rc s) := issue_leaves hs <| by
  repeat' first | with_reducible constructor | intro _ | simp | refine tidy_firstFault _ _ _ _ _ _ ?_ ?_ ?_

@[simp] theorem execVsca_leaves (q : QNo) (ew : Ew) (ra rb rc : SReg) : LeavesMemInv (execVsca q ew ra rb rc s) := issue_leaves hs (by simp)

@[simp] theorem execVscaa_leaves (q : QNo) (ew : Ew) (ra rb rc : SReg) : LeavesMemInv (execVscaa q ew ra rb rc s) := issue_leaves hs <| by
  repeat' first | with_reducible constructor | intro _ | simp | refine tidy_scatter _ _ _ _ _ _ ?_

@[simp] theorem execGatherFill_leaves : LeavesMemInv (execGatherFill s) := event_leaves hs (by simp)

@[simp] theorem execKvxFill_leaves : LeavesMemInv (execKvxFill s) := event_leaves hs (by simp)

@[simp] theorem execScatterStatusFill_leaves : LeavesMemInv (execScatterStatusFill s) := event_leaves hs <| by
  repeat' first | with_reducible constructor | intro _ | (simp [*]; done) | split | dsimp only | refine tidy_modSlot _ _ ?_

/-! ### The parts of the model's file PageForms -/

@[simp] theorem execOpin_leaves (ra : SReg) : LeavesMemInv (execOpin ra s) := issue_leaves hs (by simp)

@[simp] theorem execOunpin_leaves (ra : SReg) : LeavesMemInv (execOunpin ra s) := issue_leaves hs (by simp)

@[simp] theorem execOcommitPriv_leaves (ra : SReg) : LeavesMemInv (execOcommitPriv ra s) := issue_leaves hs <| by
  repeat' first | with_reducible constructor | intro _ | (simp; done) | split

@[simp] theorem execOcommitPub_leaves (ra : SReg) : LeavesMemInv (execOcommitPub ra s) := issue_leaves hs <| by
  repeat' first | with_reducible constructor | intro _ | simp | split

@[simp] theorem execOdiscard_leaves (ra : SReg) : LeavesMemInv (execOdiscard ra s) := issue_leaves hs <| by
  repeat' first | with_reducible constructor | intro _ | simp

@[simp] theorem execOquery_leaves (rd ra rb : SReg) : LeavesMemInv (execOquery rd ra rb s) := issue_leaves hs <| by
  repeat' first | with_reducible constructor | intro _ | simp

@[simp] theorem execFrref_leaves (o : Order) (sc : Scope) (rd ra rb : SReg) : LeavesMemInv (execFrref o sc rd ra rb s) := issue_leaves hs <| by
  repeat' first | assumption | with_reducible constructor | intro _ | simp | refine tidy_ordered _ _ _ ?_

/-! ### The parts of the model's file Copies -/

@[simp] theorem execCpy_leaves (rd ra rb : SReg) : LeavesMemInv (execCpy rd ra rb s) := issue_leaves hs (by simp)

@[simp] theorem execCpyx_leaves (rd ra rb : SReg) : LeavesMemInv (execCpyx rd ra rb s) := issue_leaves hs (by simp)

@[simp] theorem execCpyz_leaves (rd ra rb : SReg) : LeavesMemInv (execCpyz rd ra rb s) := issue_leaves hs (by simp)

@[simp] theorem execCopyChunkDone_leaves : LeavesMemInv (execCopyChunkDone s) := event_leaves hs <| by
  repeat' first | with_reducible constructor | intro _ | (simp; done) | split | refine tidy_asEngine _ _ _ ?_ | refine tidy_modSlot _ _ ?_

@[simp] theorem execCopyCompletion_leaves : LeavesMemInv (execCopyCompletion s) := event_leaves hs <| by
  repeat' first | assumption | with_reducible constructor | intro _ | (simp; done) | split | refine tidy_asEngine _ _ _ ?_

@[simp] theorem execLrfence_leaves : LeavesMemInv (execLrfence s) := issue_leaves hs <| by
  repeat' first | with_reducible constructor | intro _ | simp

@[simp] theorem execEvwait_leaves (rd ra : SReg) : LeavesMemInv (execEvwait rd ra s) := issue_leaves hs (by simp)

@[simp] theorem execEvpoll_leaves (rd ra : SReg) : LeavesMemInv (execEvpoll rd ra s) := issue_leaves hs (by simp)

@[simp] theorem execCpyp_leaves (rd ra rb : SReg) : LeavesMemInv (execCpyp rd ra rb s) := issue_leaves hs (by simp)

@[simp] theorem execCpyd_leaves (rd ra rb : SReg) : LeavesMemInv (execCpyd rd ra rb s) := issue_leaves hs (by simp)

@[simp] theorem execMoveInstall_leaves : LeavesMemInv (execMoveInstall s) := event_leaves hs <| by
  repeat' first | with_reducible constructor | intro _ | (simp [*]; done) | split | dsimp only

@[simp] theorem execOldFrameRelease_leaves : LeavesMemInv (execOldFrameRelease s) := event_leaves hs <| by
  repeat' first | assumption | with_reducible constructor | intro _ | simp | split

@[simp] theorem execKvcompact_leaves (rd ra rb : SReg) : LeavesMemInv (execKvcompact rd ra rb s) := issue_leaves hs <| by
  repeat' first | with_reducible constructor | intro _ | simp

@[simp] theorem execKvcompactEvent_leaves : LeavesMemInv (execKvcompactEvent s) := event_leaves hs <| by
  repeat' first | with_reducible constructor | intro _ | (simp; done) | split | refine tidy_asEngine _ _ _ ?_

/-! ### The parts of the model's file Scalar -/

@[simp] theorem execAdd_leaves (rd ra rb : SReg) : LeavesMemInv (execAdd rd ra rb s) := issue_leaves hs (by simp)

@[simp] theorem execSub_leaves (rd ra rb : SReg) : LeavesMemInv (execSub rd ra rb s) := issue_leaves hs (by simp)

@[simp] theorem execMul_leaves (rd ra rb : SReg) : LeavesMemInv (execMul rd ra rb s) := issue_leaves hs (by simp)

@[simp] theorem execMulh_leaves (rd ra rb : SReg) : LeavesMemInv (execMulh rd ra rb s) := issue_leaves hs (by simp)

@[simp] theorem execDiv_leaves (rd ra rb : SReg) : LeavesMemInv (execDiv rd ra rb s) := issue_leaves hs (by simp)

@[simp] theorem execDivn_leaves (rd ra rb : SReg) : LeavesMemInv (execDivn rd ra rb s) := issue_leaves hs (by simp)

@[simp] theorem execRem_leaves (rd ra rb : SReg) : LeavesMemInv (execRem rd ra rb s) := issue_leaves hs (by simp)

@[simp] theorem execRemn_leaves (rd ra rb : SReg) : LeavesMemInv (execRemn rd ra rb s) := issue_leaves hs (by simp)

@[simp] theorem execAnd_leaves (rd ra rb : SReg) : LeavesMemInv (execAnd rd ra rb s) := issue_leaves hs (by simp)

@[simp] theorem execOr_leaves (rd ra rb : SReg) : LeavesMemInv (execOr rd ra rb s) := issue_leaves hs (by simp)

@[simp] theorem execXor_leaves (rd ra rb : SReg) : LeavesMemInv (execXor rd ra rb s) := issue_leaves hs (by simp)

@[simp] theorem execSll_leaves (rd ra rb : SReg) : LeavesMemInv (execSll rd ra rb s) := issue_leaves hs (by simp)

@[simp] theorem execSrl_leaves (rd ra rb : SReg) : LeavesMemInv (execSrl rd ra rb s) := issue_leaves hs (by simp)

@[simp] theorem execSra_leaves (rd ra rb : SReg) : LeavesMemInv (execSra rd ra rb s) := issue_leaves hs (by simp)

@[simp] theorem execSlt_leaves (rd ra rb : SReg) : LeavesMemInv (execSlt rd ra rb s) := issue_leaves hs (by simp)

@[simp] theorem execSltn_leaves (rd ra rb : SReg) : LeavesMemInv (execSltn rd ra rb s) := issue_leaves hs (by simp)

@[simp] theorem execMin_leaves (rd ra rb : SReg) : LeavesMemInv (execMin rd ra rb s) := issue_leaves hs (by simp)

@[simp] theorem execMax_leaves (rd ra rb : SReg) : LeavesMemInv (execMax rd ra rb s) := issue_leaves hs (by simp)

@[simp] theorem execMinN_leaves (rd ra rb : SReg) : LeavesMemInv (execMinN rd ra rb s) := issue_leaves hs (by simp)

@[simp] theorem execMaxN_leaves (rd ra rb : SReg) : LeavesMemInv (execMaxN rd ra rb s) := issue_leaves hs (by simp)

@[simp] theorem execSel_leaves (rd ra rb : SReg) : LeavesMemInv (execSel rd ra rb s) := issue_leaves hs (by simp)

@[simp] theorem execClz_leaves (rd ra : SReg) : LeavesMemInv (execClz rd ra s) := issue_leaves hs (by simp)

@[simp] theorem execPopc_leaves (rd ra : SReg) : LeavesMemInv (execPopc rd ra s) := issue_leaves hs (by simp)

@[simp] theorem execLea_leaves (rd ra rb : SReg) (n : Fin 4) : LeavesMemInv (execLea rd ra rb n s) := issue_leaves hs (by simp)

@[simp] theorem execAndi_leaves (rd rs : SReg) (imm : BitVec 15) : LeavesMemInv (execAndi rd rs imm s) := issue_leaves hs (by simp)

@[simp] theorem execOri_leaves (rd rs : SReg) (imm : BitVec 15) : LeavesMemInv (execOri rd rs imm s) := issue_leaves hs (by simp)

@[simp] theorem execXori_leaves (rd rs : SReg) (imm : BitVec 15) : LeavesMemInv (execXori rd rs imm s) := issue_leaves hs (by simp)

@[simp] theorem execSlti_leaves (rd rs : SReg) (imm : BitVec 15) : LeavesMemInv (execSlti rd rs imm s) := issue_leaves hs (by simp)

@[simp] theorem execAddi_leaves (rd rs : SReg) (imm : BitVec 15) : LeavesMemInv (execAddi rd rs imm s) := issue_leaves hs (by simp)

@[simp] theorem execSlli_leaves (rd rs : SReg) (n : Fin 64) : LeavesMemInv (execSlli rd rs n s) := issue_leaves hs (by simp)

@[simp] theorem execSrli_leaves (rd rs : SReg) (n : Fin 64) : LeavesMemInv (execSrli rd rs n s) := issue_leaves hs (by simp)

@[simp] theorem execSrai_leaves (rd rs : SReg) (n : Fin 64) : LeavesMemInv (execSrai rd rs n s) := issue_leaves hs (by simp)

@[simp] theorem execExt_leaves (rd rs : SReg) (pos wm1 : Fin 64) : LeavesMemInv (execExt rd rs pos wm1 s) := issue_leaves hs (by simp)

@[simp] theorem execIns_leaves (rd rs : SReg) (pos wm1 : Fin 64) : LeavesMemInv (execIns rd rs pos wm1 s) := issue_leaves hs (by simp)

@[simp] theorem execLhi_leaves (rd : SReg) (imm : BitVec 20) : LeavesMemInv (execLhi rd imm s) := issue_leaves hs (by simp)

@[simp] theorem execBeq_leaves (ra rb : SReg) (off : BitVec 15) : LeavesMemInv (execBeq ra rb off s) := issue_leaves hs (by simp)

@[simp] theorem execBne_leaves (ra rb : SReg) (off : BitVec 15) : LeavesMemInv (execBne ra rb off s) := issue_leaves hs (by simp)

@[simp] theorem execBlt_leaves (ra rb : SReg) (off : BitVec 15) : LeavesMemInv (execBlt ra rb off s) := issue_leaves hs (by simp)

@[simp] theorem execBge_leaves (ra rb : SReg) (off : BitVec 15) : LeavesMemInv (execBge ra rb off s) := issue_leaves hs (by simp)

@[simp] theorem execBltn_leaves (ra rb : SReg) (off : BitVec 15) : LeavesMemInv (execBltn ra rb off s) := issue_leaves hs (by simp)

@[simp] theorem execBgen_leaves (ra rb : SReg) (off : BitVec 15) : LeavesMemInv (execBgen ra rb off s) := issue_leaves hs (by simp)

@[simp] theorem execJal_leaves (rd : SReg) (off : BitVec 20) : LeavesMemInv (execJal rd off s) := issue_leaves hs <| by
  repeat' first | with_reducible constructor | intro _ | simp

@[simp] theorem execJalr_leaves (rd rs : SReg) (imm : BitVec 15) : LeavesMemInv (execJalr rd rs imm s) := issue_leaves hs <| by
  repeat' first | with_reducible constructor | intro _ | simp

@[simp] theorem execSmb_leaves (ra rb : SReg) (off : BitVec 15) : LeavesMemInv (execSmb ra rb off s) := issue_leaves hs <| by
  repeat' first | with_reducible constructor | intro _ | simp

@[simp] theorem execAstart_leaves (off : BitVec 20) : LeavesMemInv (execAstart off s) := issue_leaves hs <| by
  repeat' first | with_reducible constructor | intro _ | simp

@[simp] theorem execCtok_leaves (rs : SReg) (off : BitVec 20) : LeavesMemInv (execCtok rs off s) := issue_leaves hs <| by
  repeat' first | with_reducible constructor | intro _ | simp

@[simp] theorem execCtake_leaves (rd : SReg) : LeavesMemInv (execCtake rd s) := issue_leaves hs <| by
  repeat' first | with_reducible constructor | intro _ | simp | split

/-! ### The parts of the model's file Vector -/

@[simp] theorem execVadd_leaves (vd va vb : VRegNo) : LeavesMemInv (execVadd vd va vb s) := issue_leaves hs (by simp)

@[simp] theorem execVsub_leaves (vd va vb : VRegNo) : LeavesMemInv (execVsub vd va vb s) := issue_leaves hs (by simp)

@[simp] theorem execVmul_leaves (vd va vb : VRegNo) : LeavesMemInv (execVmul vd va vb s) := issue_leaves hs (by simp)

@[simp] theorem execVmadd_leaves (vd va vb : VRegNo) : LeavesMemInv (execVmadd vd va vb s) := issue_leaves hs <| by
  repeat' first | with_reducible constructor | intro _ | simp

@[simp] theorem execVnmadd_leaves (vd va vb : VRegNo) : LeavesMemInv (execVnmadd vd va vb s) := issue_leaves hs <| by
  repeat' first | with_reducible constructor | intro _ | simp

@[simp] theorem execVdiv_leaves (vd va vb : VRegNo) : LeavesMemInv (execVdiv vd va vb s) := issue_leaves hs (by simp)

@[simp] theorem execVsqrt_leaves (vd va : VRegNo) : LeavesMemInv (execVsqrt vd va s) := issue_leaves hs (by simp)

@[simp] theorem execVrsqrt_leaves (vd va : VRegNo) : LeavesMemInv (execVrsqrt vd va s) := issue_leaves hs (by simp)

@[simp] theorem execVexp2_leaves (vd va : VRegNo) : LeavesMemInv (execVexp2 vd va s) := issue_leaves hs (by simp)

@[simp] theorem execVlog2_leaves (vd va : VRegNo) : LeavesMemInv (execVlog2 vd va s) := issue_leaves hs (by simp)

@[simp] theorem execVmax_leaves (vd va vb : VRegNo) : LeavesMemInv (execVmax vd va vb s) := issue_leaves hs (by simp)

@[simp] theorem execVmin_leaves (vd va vb : VRegNo) : LeavesMemInv (execVmin vd va vb s) := issue_leaves hs (by simp)

@[simp] theorem execVabs_leaves (vd va : VRegNo) : LeavesMemInv (execVabs vd va s) := issue_leaves hs (by simp)

@[simp] theorem execVneg_leaves (vd va : VRegNo) : LeavesMemInv (execVneg vd va s) := issue_leaves hs (by simp)

@[simp] theorem execVand_leaves (vd va vb : VRegNo) : LeavesMemInv (execVand vd va vb s) := issue_leaves hs (by simp)

@[simp] theorem execVor_leaves (vd va vb : VRegNo) : LeavesMemInv (execVor vd va vb s) := issue_leaves hs (by simp)

@[simp] theorem execVxor_leaves (vd va vb : VRegNo) : LeavesMemInv (execVxor vd va vb s) := issue_leaves hs (by simp)

@[simp] theorem execVnot_leaves (vd va : VRegNo) : LeavesMemInv (execVnot vd va s) := issue_leaves hs (by simp)

@[simp] theorem execVshl_leaves (vd va vb : VRegNo) : LeavesMemInv (execVshl vd va vb s) := issue_leaves hs (by simp)

@[simp] theorem execVshr_leaves (vd va vb : VRegNo) : LeavesMemInv (execVshr vd va vb s) := issue_leaves hs (by simp)

@[simp] theorem execVsra_leaves (vd va vb : VRegNo) : LeavesMemInv (execVsra vd va vb s) := issue_leaves hs (by simp)

@[simp] theorem execVaddImm_leaves (vd va : VRegNo) (imm : BitVec 8) : LeavesMemInv (execVaddImm vd va imm s) := issue_leaves hs (by simp)

@[simp] theorem execVsubImm_leaves (vd va : VRegNo) (imm : BitVec 8) : LeavesMemInv (execVsubImm vd va imm s) := issue_leaves hs (by simp)

@[simp] theorem execVmulImm_leaves (vd va : VRegNo) (imm : BitVec 8) : LeavesMemInv (execVmulImm vd va imm s) := issue_leaves hs (by simp)

@[simp] theorem execVmaxImm_leaves (vd va : VRegNo) (imm : BitVec 8) : LeavesMemInv (execVmaxImm vd va imm s) := issue_leaves hs (by simp)

@[simp] theorem execVminImm_leaves (vd va : VRegNo) (imm : BitVec 8) : LeavesMemInv (execVminImm vd va imm s) := issue_leaves hs (by simp)

@[simp] theorem execVandImm_leaves (vd va : VRegNo) (imm : BitVec 8) : LeavesMemInv (execVandImm vd va imm s) := issue_leaves hs (by simp)

@[simp] theorem execVorImm_leaves (vd va : VRegNo) (imm : BitVec 8) : LeavesMemInv (execVorImm vd va imm s) := issue_leaves hs (by simp)

@[simp] theorem execVxorImm_leaves (vd va : VRegNo) (imm : BitVec 8) : LeavesMemInv (execVxorImm vd va imm s) := issue_leaves hs (by simp)

@[simp] theorem execVshlImm_leaves (vd va : VRegNo) (n : BitVec 8) : LeavesMemInv (execVshlImm vd va n s) := issue_leaves hs (by simp)

@[simp] theorem execVshrImm_leaves (vd va : VRegNo) (n : BitVec 8) : LeavesMemInv (execVshrImm vd va n s) := issue_leaves hs (by simp)

@[simp] theorem execVsraImm_leaves (vd va : VRegNo) (n : BitVec 8) : LeavesMemInv (execVsraImm vd va n s) := issue_leaves hs (by simp)

@[simp] theorem execVcmp_leaves (cc : Cc) (pd : PRegNo) (va vb : VRegNo) : LeavesMemInv (execVcmp cc pd va vb s) := issue_leaves hs <| by
  repeat' first | with_reducible constructor | intro _ | simp

@[simp] theorem execVcmpImm_leaves (cc : Cc) (pd : PRegNo) (va : VRegNo) (imm : BitVec 8) :
    LeavesMemInv (execVcmpImm cc pd va imm s) := issue_leaves hs <| by
  repeat' first | with_reducible constructor | intro _ | simp

@[simp] theorem execVsel_leaves (vd va vb : VRegNo) : LeavesMemInv (execVsel vd va vb s) := issue_leaves hs <| by
  repeat' first | with_reducible constructor | intro _ | simp

@[simp] theorem execVmv_leaves (vd va : VRegNo) : LeavesMemInv (execVmv vd va s) := issue_leaves hs <| by
  repeat' first | with_reducible constructor | intro _ | simp

@[simp] theorem execVsplat_leaves (vd : VRegNo) (ra : SReg) : LeavesMemInv (execVsplat vd ra s) := issue_leaves hs <| by
  repeat' first | with_reducible constructor | intro _ | simp

@[simp] theorem execVsplatImm_leaves (vd : VRegNo) (imm : BitVec 8) : LeavesMemInv (execVsplatImm vd imm s) := issue_leaves hs <| by
  repeat' first | with_reducible constructor | intro _ | simp

@[simp] theorem execVid_leaves (vd : VRegNo) : LeavesMemInv (execVid vd s) := issue_leaves hs <| by
  repeat' first | with_reducible constructor | intro _ | simp

@[simp] theorem execVext_leaves (rd : SReg) (va : VRegNo) (rb : SReg) : LeavesMemInv (execVext rd va rb s) := issue_leaves hs <| by
  repeat' first | with_reducible constructor | intro _ | simp

@[simp] theorem execVins_leaves (vd : VRegNo) (ra rb : SReg) : LeavesMemInv (execVins vd ra rb s) := issue_leaves hs <| by
  repeat' first | with_reducible constructor | intro _ | simp

@[simp] theorem execVtag_leaves (vd : VRegNo) (fmt : Fmt) : LeavesMemInv (execVtag vd fmt s) := issue_leaves hs <| by
  repeat' first | with_reducible constructor | intro _ | simp

@[simp] theorem execVcvt_leaves (vd va : VRegNo) (fmt : Fmt) : LeavesMemInv (execVcvt vd va fmt s) := issue_leaves hs <| by
  repeat' first | with_reducible constructor | intro _ | simp

@[simp] theorem execVredsum_leaves (vd va : VRegNo) : LeavesMemInv (execVredsum vd va s) := issue_leaves hs <| by
  repeat' first | with_reducible constructor | intro _ | simp

@[simp] theorem execVredmax_leaves (vd va : VRegNo) : LeavesMemInv (execVredmax vd va s) := issue_leaves hs (by simp)

@[simp] theorem execVredmin_leaves (vd va : VRegNo) : LeavesMemInv (execVredmin vd va s) := issue_leaves hs (by simp)

@[simp] theorem execVargmax_leaves (rd : SReg) (va : VRegNo) : LeavesMemInv (execVargmax rd va s) := issue_leaves hs <| by
  repeat' first | with_reducible constructor | intro _ | simp

@[simp] theorem execVslideup_leaves (vd va : VRegNo) (rb : SReg) : LeavesMemInv (execVslideup vd va rb s) := issue_leaves hs <| by
  repeat' first | with_reducible constructor | intro _ | simp

@[simp] theorem execVslidedn_leaves (vd va : VRegNo) (rb : SReg) : LeavesMemInv (execVslidedn vd va rb s) := issue_leaves hs <| by
  repeat' first | with_reducible constructor | intro _ | simp

@[simp] theorem execVslideupImm_leaves (vd va : VRegNo) (n : BitVec 8) : LeavesMemInv (execVslideupImm vd va n s) := issue_leaves hs <| by
  repeat' first | with_reducible constructor | intro _ | simp

@[simp] theorem execVslidednImm_leaves (vd va : VRegNo) (n : BitVec 8) : LeavesMemInv (execVslidednImm vd va n s) := issue_leaves hs <| by
  repeat' first | with_reducible constructor | intro _ | simp

@[simp] theorem execVperm_leaves (vd va vb : VRegNo) : LeavesMemInv (execVperm vd va vb s) := issue_leaves hs <| by
  repeat' first | with_reducible constructor | intro _ | simp

@[simp] theorem execVcompress_leaves (vd va : VRegNo) (pb : PRegNo) : LeavesMemInv (execVcompress vd va pb s) := issue_leaves hs <| by
  repeat' first | with_reducible constructor | intro _ | simp

@[simp] theorem execVexpand_leaves (vd va : VRegNo) (pb : PRegNo) : LeavesMemInv (execVexpand vd va pb s) := issue_leaves hs <| by
  repeat' first | with_reducible constructor | intro _ | simp

@[simp] theorem execVconf_leaves (pd : PRegNo) (va : VRegNo) : LeavesMemInv (execVconf pd va s) := issue_leaves hs <| by
  repeat' first | with_reducible constructor | intro _ | simp

@[simp] theorem execPand_leaves (pd pa pb : PRegNo) : LeavesMemInv (execPand pd pa pb s) := issue_leaves hs (by simp)

@[simp] theorem execPor_leaves (pd pa pb : PRegNo) : LeavesMemInv (execPor pd pa pb s) := issue_leaves hs (by simp)

@[simp] theorem execPxor_leaves (pd pa pb : PRegNo) : LeavesMemInv (execPxor pd pa pb s) := issue_leaves hs (by simp)

@[simp] theorem execPnot_leaves (pd pa : PRegNo) : LeavesMemInv (execPnot pd pa s) := issue_leaves hs (by simp)

@[simp] theorem execPsbf_leaves (pd pa : PRegNo) : LeavesMemInv (execPsbf pd pa s) := issue_leaves hs (by simp)

@[simp] theorem execPsif_leaves (pd pa : PRegNo) : LeavesMemInv (execPsif pd pa s) := issue_leaves hs (by simp)

@[simp] theorem execPfirst_leaves (rd : SReg) (pa : PRegNo) : LeavesMemInv (execPfirst rd pa s) := issue_leaves hs <| by
  repeat' first | with_reducible constructor | intro _ | simp

@[simp] theorem execPcnt_leaves (rd : SReg) (pa : PRegNo) : LeavesMemInv (execPcnt rd pa s) := issue_leaves hs <| by
  repeat' first | with_reducible constructor | intro _ | simp

@[simp] theorem execPset_leaves (pd : PRegNo) (ra : SReg) : LeavesMemInv (execPset pd ra s) := issue_leaves hs <| by
  repeat' first | with_reducible constructor | intro _ | simp

@[simp] theorem execKmvToScale_leaves (kd : KRegNo) (va : VRegNo) : LeavesMemInv (execKmvToScale kd va s) := issue_leaves hs <| by
  repeat' first | with_reducible constructor | intro _ | simp

@[simp] theorem execKmvToVector_leaves (vd : VRegNo) (ka : KRegNo) : LeavesMemInv (execKmvToVector vd ka s) := issue_leaves hs <| by
  repeat' first | with_reducible constructor | intro _ | simp

/-! ### The parts of the model's file Trees -/

@[simp] theorem execDtinit_leaves (dd : DRegNo) (ra : SReg) : LeavesMemInv (execDtinit dd ra s) := issue_leaves hs <| by
  repeat' first | with_reducible constructor | intro _ | simp

@[simp] theorem execDtadd_leaves (dd : DRegNo) (va vb : VRegNo) : LeavesMemInv (execDtadd dd va vb s) := issue_leaves hs <| by
  repeat' first | with_reducible constructor | intro _ | simp

@[simp] theorem execDtmaskPred_leaves (pd : PRegNo) (da : DRegNo) (rb : SReg) : LeavesMemInv (execDtmaskPred pd da rb s) := issue_leaves hs <| by
  repeat' first | with_reducible constructor | intro _ | simp

@[simp] theorem execDtmaskVec_leaves (vd : VRegNo) (da : DRegNo) (rb : SReg) : LeavesMemInv (execDtmaskVec vd da rb s) := issue_leaves hs <| by
  repeat' first | with_reducible constructor | intro _ | simp

@[simp] theorem execDtpos_leaves (vd : VRegNo) (da : DRegNo) : LeavesMemInv (execDtpos vd da s) := issue_leaves hs <| by
  repeat' first | with_reducible constructor | intro _ | simp

@[simp] theorem execDtacc_leaves (rd : SReg) (da : DRegNo) (va : VRegNo) : LeavesMemInv (execDtacc rd da va s) := issue_leaves hs <| by
  repeat' first | with_reducible constructor | intro _ | simp

@[simp] theorem execDtprune_leaves (dd : DRegNo) (ra : SReg) : LeavesMemInv (execDtprune dd ra s) := issue_leaves hs <| by
  repeat' first | with_reducible constructor | intro _ | simp

@[simp] theorem execDtld_leaves (dd : DRegNo) (ra : SReg) : LeavesMemInv (execDtld dd ra s) := issue_leaves hs <| by
  repeat' first | with_reducible constructor | intro _ | (simp; done) | split

@[simp] theorem execDtst_leaves (dd : DRegNo) (ra : SReg) : LeavesMemInv (execDtst dd ra s) := issue_leaves hs <| by
  repeat' first | with_reducible constructor | intro _ | simp | refine tidy_resumeFrom _ _ _ _ ?_

@[simp] theorem execDtinfo_leaves (rd : SReg) (da : DRegNo) : LeavesMemInv (execDtinfo rd da s) := issue_leaves hs <| by
  repeat' first | with_reducible constructor | intro _ | simp

/-! ### The parts of the model's file Attention -/

@[simp] theorem execKvx_leaves (q : QNo) (ra rb rc : SReg) : LeavesMemInv (execKvx q ra rb rc s) := issue_leaves hs <| by
  repeat' first | with_reducible constructor | intro _ | simp | split | refine tidy_firstFault _ _ _ _ _ _ ?_ ?_ ?_

@[simp] theorem execSpld_leaves (sp : SpNo) (ra : SReg) : LeavesMemInv (execSpld sp ra s) := issue_leaves hs <| by
  repeat' first | with_reducible constructor | intro _ | simp | split

@[simp] theorem execSmerge_leaves (vd va vb : VRegNo) : LeavesMemInv (execSmerge vd va vb s) := issue_leaves hs <| by
  repeat' first | with_reducible constructor | intro _ | simp

@[simp] theorem execSapply_leaves (vd va : VRegNo) (sp : SpNo) : LeavesMemInv (execSapply vd va sp s) := issue_leaves hs <| by
  repeat' first | with_reducible constructor | intro _ | simp

@[simp] theorem execSattn_leaves (va : VRegNo) (rb : SReg) : LeavesMemInv (execSattn va rb s) := issue_leaves hs <| by
  repeat' first | with_reducible constructor | intro _ | (simp [*]; done) | split | dsimp only

@[simp] theorem execSliceBlockRead_leaves : LeavesMemInv (execSliceBlockRead s) := event_leaves hs <| by
  repeat' first | with_reducible constructor | intro _ | (simp; done) | split | refine tidy_asEngine _ _ _ ?_

@[simp] theorem execPassCompletion_leaves : LeavesMemInv (execPassCompletion s) := event_leaves hs <| by
  repeat' first | with_reducible constructor | intro _ | (simp; done) | split | refine tidy_asEngine _ _ _ ?_

/-! ### The parts of the model's file Barrier -/

@[simp] theorem execBarr_leaves (sc : BScope) (n : Fin 16) : LeavesMemInv (execBarr sc n s) := issue_leaves hs <| by
  repeat' first | with_reducible constructor | intro _ | simp

@[simp] theorem execBwait_leaves (sc : BScope) (n : Fin 16) : LeavesMemInv (execBwait sc n s) := issue_leaves hs <| by
  repeat' first | with_reducible constructor | intro _ | simp

@[simp] theorem execBsync_leaves (sc : BScope) (n : Fin 16) : LeavesMemInv (execBsync sc n s) := issue_leaves hs <| by
  repeat' first | with_reducible constructor | intro _ | simp

@[simp] theorem execGsplit_leaves (rd ra : SReg) : LeavesMemInv (execGsplit rd ra s) := issue_leaves hs <| by
  repeat' first | with_reducible constructor | intro _ | (simp; done) | split

/-! ### The parts of the model's file Device -/

@[simp] theorem execContextEventWrite_leaves : LeavesMemInv (execContextEventWrite s) := event_leaves hs <| by
  repeat' first | assumption | with_reducible constructor | intro _ | (simp [*]; done) | split | dsimp only

@[simp] theorem execYieldDeadlineExpiry_leaves : LeavesMemInv (execYieldDeadlineExpiry s) := event_leaves hs <| by
  repeat' first | assumption | with_reducible constructor | intro _ | (simp; done) | split

@[simp] theorem execLaunchQueueDoorbell_leaves : LeavesMemInv (execLaunchQueueDoorbell s) := event_leaves hs <| by
  repeat' first | with_reducible constructor | intro _ | simp

@[simp] theorem execKlaunch_leaves (rd ra : SReg) : LeavesMemInv (execKlaunch rd ra s) := issue_leaves hs <| by
  repeat' first | with_reducible constructor | intro _ | (simp; done) | split

/-! ### The parts of the model's file Background -/

@[simp] theorem execPrefFillArrival_leaves : LeavesMemInv (execPrefFillArrival s) := event_leaves hs <| by
  repeat' first | with_reducible constructor | intro _ | (simp [*]; done) | split | dsimp only

@[simp] theorem execEvictionSweep_leaves : LeavesMemInv (execEvictionSweep s) := event_leaves hs <| by
  repeat' first | assumption | with_reducible constructor | intro _ | (simp; done) | split

@[simp] theorem execQueueDeadlock_leaves : LeavesMemInv (execQueueDeadlock s) := event_leaves hs <| by
  repeat' first | with_reducible constructor | intro _ | (simp [*]; done) | split | dsimp only

@[simp] theorem execInstructionFetchAhead_leaves : LeavesMemInv (execInstructionFetchAhead s) := event_leaves hs <| by
  repeat' first | with_reducible constructor | intro _ | (simp [*]; done) | split | dsimp only

@[simp] theorem execStorePerform_leaves : LeavesMemInv (execStorePerform s) := event_leaves hs <| by
  repeat' first | assumption | with_reducible constructor | intro _ | (simp; done) | split

@[simp] theorem execCycleCounterAdvance_leaves : LeavesMemInv (execCycleCounterAdvance s) := event_leaves hs <| by
  repeat' first | assumption | with_reducible constructor | intro _ | simp

@[simp] theorem execEccCorrected_leaves : LeavesMemInv (execEccCorrected s) := event_leaves hs <| by
  repeat' first | with_reducible constructor | intro _ | simp

@[simp] theorem execEccUncorrectable_leaves : LeavesMemInv (execEccUncorrectable s) := event_leaves hs <| by
  repeat' first | assumption | with_reducible constructor | intro _ | (simp; done) | split

@[simp] theorem execThermalLimit_leaves : LeavesMemInv (execThermalLimit s) := event_leaves hs <| by
  repeat' first | assumption | with_reducible constructor | intro _ | simp

/-! ### The parts of the model's file Length -/

@[simp] theorem execSetvl_leaves (rd ra : SReg) (fmt : Fmt) (dc : Depth) (ftz bl : Bool) (lg : Fin 17) :
    LeavesMemInv (execSetvl rd ra fmt dc ftz bl lg s) := issue_leaves hs <| by
  repeat' first | with_reducible constructor | intro _ | simp | refine tidy_swapsStand _ _ ?_

@[simp] theorem execMode_leaves (g : Option PRegNo) (rm : Rm) (sat : Bool) : LeavesMemInv (execMode g rm sat s) := issue_leaves hs <| by
  repeat' first | with_reducible constructor | intro _ | simp

@[simp] theorem execVrelease_leaves : LeavesMemInv (execVrelease s) := issue_leaves hs <| by
  repeat' first | assumption | with_reducible constructor | intro _ | simp

/-! ### The parts of the model's file System -/

@[simp] theorem execCsrr_leaves (rd : SReg) (csr : Csr) : LeavesMemInv (execCsrr rd csr s) := issue_leaves hs <| by
  repeat' first | with_reducible constructor | intro _ | simp

@[simp] theorem execCsrw_leaves (csr : Csr) (ra : SReg) : LeavesMemInv (execCsrw csr ra s) := issue_leaves hs <| by
  repeat' first | with_reducible constructor | intro _ | simp

@[simp] theorem execCsrs_leaves (rd : SReg) (csr : Csr) (ra : SReg) : LeavesMemInv (execCsrs rd csr ra s) := issue_leaves hs (by simp)

@[simp] theorem execCsrc_leaves (rd : SReg) (csr : Csr) (ra : SReg) : LeavesMemInv (execCsrc rd csr ra s) := issue_leaves hs (by simp)

@[simp] theorem execEcall_leaves (n : BitVec 10) : LeavesMemInv (execEcall n s) := issue_leaves hs (by simp)

@[simp] theorem execBreakpoint_leaves : LeavesMemInv (execBreakpoint s) := issue_leaves hs (by simp)

@[simp] theorem execEret_leaves : LeavesMemInv (execEret s) := issue_leaves hs <| by
  repeat' first | with_reducible constructor | intro _ | simp

@[simp] theorem execTrapack_leaves : LeavesMemInv (execTrapack s) := issue_leaves hs <| by
  repeat' first | with_reducible constructor | intro _ | simp

@[simp] theorem execYield_leaves : LeavesMemInv (execYield s) := issue_leaves hs <| by
  repeat' first | with_reducible constructor | intro _ | simp

@[simp] theorem execFence_leaves (sc : Scope) (k : FenceKind) : LeavesMemInv (execFence sc k s) := issue_leaves hs <| by
  repeat' first | with_reducible constructor | intro _ | (simp; done) | split

@[simp] theorem execNullFetch_leaves : LeavesMemInv (execNullFetch s) := issue_leaves hs (by simp)

@[simp] theorem execIllegalInstruction_leaves : LeavesMemInv (execIllegalInstruction s) := issue_leaves hs (by simp)

@[simp] theorem execFetchForIssueFault_leaves : LeavesMemInv (execFetchForIssueFault s) := issue_leaves hs <| by
  repeat' first | with_reducible constructor | intro _ | simp

/-! ### The parts of the model's file Kernel -/

@[simp] theorem execFabPause_leaves : LeavesMemInv (execFabPause s) := event_leaves hs <| by
  repeat' first | with_reducible constructor | intro _ | simp

@[simp] theorem execKtrig_leaves : LeavesMemInv (execKtrig s) := issue_leaves hs <| by
  repeat' first | with_reducible constructor | intro _ | simp

@[simp] theorem execHend_leaves : LeavesMemInv (execHend s) := issue_leaves hs <| by
  repeat' first | with_reducible constructor | intro _ | simp

@[simp] theorem execClaim_leaves (rd ra rb : SReg) : LeavesMemInv (execClaim rd ra rb s) := issue_leaves hs <| by
  repeat' first | with_reducible constructor | intro _ | simp

@[simp] theorem execKernelDispatch_leaves : LeavesMemInv (execKernelDispatch s) := event_leaves hs <| by
  repeat' first | with_reducible constructor | intro _ | (simp; done) | split

@[simp] theorem execFabPartReport_leaves : LeavesMemInv (execFabPartReport s) := event_leaves hs <| by
  repeat' first | assumption | with_reducible constructor | intro _ | (simp [*]; done) | split | dsimp only

/-! ### The parts of the model's file Context -/

@[simp] theorem execKeyset_leaves (rd ra : SReg) : LeavesMemInv (execKeyset rd ra s) := issue_leaves hs <| by
  repeat' first | assumption | with_reducible constructor | intro _ | simp

@[simp] theorem execCtxsave_leaves (ra : SReg) : LeavesMemInv (execCtxsave ra s) := issue_leaves hs <| by
  repeat' first | with_reducible constructor | intro _ | (simp; done) | split

@[simp] theorem execCtxload_leaves (ra : SReg) : LeavesMemInv (execCtxload ra s) := issue_leaves hs <| by
  repeat' first | with_reducible constructor | intro _ | (simp; done) | split

@[simp] theorem execCollectorAcknowledgement_leaves : LeavesMemInv (execCollectorAcknowledgement s) := event_leaves hs <| by
  repeat' first | with_reducible constructor | intro _ | simp

@[simp] theorem execContextResumption_leaves : LeavesMemInv (execContextResumption s) := event_leaves hs <| by
  repeat' first | assumption | with_reducible constructor | intro _ | simp

/-! ### The parts of the model's file Checkpoint -/

@[simp] theorem execCkfreeze_leaves (ra : SReg) : LeavesMemInv (execCkfreeze ra s) := issue_leaves hs <| by
  repeat' first | assumption | with_reducible constructor | intro _ | simp

@[simp] theorem execCkwait_leaves (rd ra : SReg) : LeavesMemInv (execCkwait rd ra s) := issue_leaves hs <| by
  repeat' first | with_reducible constructor | intro _ | (simp; done) | split

@[simp] theorem execCkrestore_leaves (ra : SReg) : LeavesMemInv (execCkrestore ra s) := issue_leaves hs <| by
  repeat' first | assumption | with_reducible constructor | intro _ | (simp; done) | split

@[simp] theorem execDrainEnd_leaves : LeavesMemInv (execDrainEnd s) := event_leaves hs <| by
  repeat' first | assumption | with_reducible constructor | intro _ | (simp; done) | split

@[simp] theorem execRestoreEnd_leaves : LeavesMemInv (execRestoreEnd s) := event_leaves hs <| by
  repeat' first | assumption | with_reducible constructor | intro _ | (simp; done) | split

@[simp] theorem execAsidset_leaves (rd ra : SReg) : LeavesMemInv (execAsidset rd ra s) := issue_leaves hs <| by
  repeat' first | with_reducible constructor | intro _ | simp

/-! ### The parts of the model's file Cutter -/

@[simp] theorem execCut_leaves (bd : BRegNo) (ra rb : SReg) : LeavesMemInv (execCut bd ra rb s) := issue_leaves hs <| by
  repeat' first | with_reducible constructor | intro _ | simp

@[simp] theorem execCutp_leaves (bd : BRegNo) (ra rb : SReg) : LeavesMemInv (execCutp bd ra rb s) := issue_leaves hs <| by
  repeat' first | with_reducible constructor | intro _ | simp

@[simp] theorem execCutd_leaves (bd : BRegNo) (ra rb : SReg) : LeavesMemInv (execCutd bd ra rb s) := issue_leaves hs <| by
  repeat' first | with_reducible constructor | intro _ | simp

/-! ### The parts of the model's file Link -/

@[simp] theorem execCxlPortTrainingDone_leaves : LeavesMemInv (execCxlPortTrainingDone s) := event_leaves hs <| by
  repeat' first | assumption | with_reducible constructor | intro _ | simp

@[simp] theorem execVoltorTrainingDone_leaves : LeavesMemInv (execVoltorTrainingDone s) := event_leaves hs <| by
  repeat' first | with_reducible constructor | intro _ | simp

@[simp] theorem execVoltorTrainingTimeout_leaves : LeavesMemInv (execVoltorTrainingTimeout s) := event_leaves hs <| by
  repeat' first | with_reducible constructor | intro _ | simp

@[simp] theorem execVoltorLaneFault_leaves : LeavesMemInv (execVoltorLaneFault s) := event_leaves hs <| by
  repeat' first | with_reducible constructor | intro _ | simp

@[simp] theorem execLossOfSignal_leaves : LeavesMemInv (execLossOfSignal s) := event_leaves hs <| by
  repeat' first | with_reducible constructor | intro _ | simp

@[simp] theorem execVoltorFirmwareCommand_leaves : LeavesMemInv (execVoltorFirmwareCommand s) := event_leaves hs <| by
  repeat' first | with_reducible constructor | intro _ | simp

@[simp] theorem execFlitReceive_leaves : LeavesMemInv (execFlitReceive s) := event_leaves hs <| by
  repeat' first | with_reducible constructor | intro _ | simp

@[simp] theorem execPeerAccessArrival_leaves : LeavesMemInv (execPeerAccessArrival s) := event_leaves hs <| by
  repeat' first | with_reducible constructor | intro _ | (simp [*]; done) | split | dsimp only

@[simp] theorem execFabricBarrierCombine_leaves : LeavesMemInv (execFabricBarrierCombine s) := event_leaves hs <| by
  repeat' first | with_reducible constructor | intro _ | (simp; done) | split

@[simp] theorem execPeerStoreLost_leaves : LeavesMemInv (execPeerStoreLost s) := event_leaves hs <| by
  repeat' first | assumption | with_reducible constructor | intro _ | (simp; done) | split

/-! ### The parts of the model's file Matrix -/

@[simp] theorem execMshapeCore_leaves (rd ra rb : SReg) : LeavesMemInv (execMshapeCore rd ra rb s) := issue_leaves hs (by simp)

@[simp] theorem execMshapeDie_leaves (rd ra rb : SReg) : LeavesMemInv (execMshapeDie rd ra rb s) := issue_leaves hs (by simp)

@[simp] theorem execMlds_leaves (rd ra : SReg) : LeavesMemInv (execMlds rd ra s) := issue_leaves hs <| by
  repeat' first | with_reducible constructor | intro _ | simp

@[simp] theorem execMswap_leaves : LeavesMemInv (execMswap s) := issue_leaves hs <| by
  repeat' first | with_reducible constructor | intro _ | simp

@[simp] theorem execMstreamLocal_leaves (cd : CRegNo) (ra rb : SReg) : LeavesMemInv (execMstreamLocal cd ra rb s) := issue_leaves hs <| by
  repeat' first | with_reducible constructor | intro _ | simp

@[simp] theorem execMstreamVector_leaves (cd : CRegNo) (va : VRegNo) (rb : SReg) :
    LeavesMemInv (execMstreamVector cd va rb s) := issue_leaves hs <| by
  repeat' first | with_reducible constructor | intro _ | simp

@[simp] theorem execMzero_leaves (cd : CRegNo) : LeavesMemInv (execMzero cd s) := issue_leaves hs <| by
  repeat' first | with_reducible constructor | intro _ | simp

@[simp] theorem execMrd_leaves (vd : VRegNo) (ca : CRegNo) (rb : SReg) : LeavesMemInv (execMrd vd ca rb s) := issue_leaves hs <| by
  repeat' first | with_reducible constructor | intro _ | (simp [*]; done) | split | dsimp only

@[simp] theorem execMwr_leaves (cd : CRegNo) (va : VRegNo) (rb : SReg) : LeavesMemInv (execMwr cd va rb s) := issue_leaves hs <| by
  repeat' first | with_reducible constructor | intro _ | simp

@[simp] theorem execMatrixQueueExecute_leaves : LeavesMemInv (execMatrixQueueExecute s) := event_leaves hs <| by
  repeat' first | with_reducible constructor | intro _ | (simp [*]; done) | split | dsimp only

/-! ### The parts of the model's file Service -/

@[simp] theorem execPowerOn_leaves : LeavesMemInv (execPowerOn s) := event_leaves hs (by simp)

@[simp] theorem execThermalTrip_leaves : LeavesMemInv (execThermalTrip s) := event_leaves hs <| by
  repeat' first | with_reducible constructor | intro _ | simp

@[simp] theorem execEnterS1_leaves : LeavesMemInv (execEnterS1 s) := event_leaves hs <| by
  repeat' first | assumption | with_reducible constructor | intro _ | simp

@[simp] theorem execEnterS2_leaves : LeavesMemInv (execEnterS2 s) := event_leaves hs <| by
  repeat' first | assumption | with_reducible constructor | intro _ | simp

@[simp] theorem execDeviceWindowWrite_leaves : LeavesMemInv (execDeviceWindowWrite s) := event_leaves hs <| by
  repeat' first | assumption | with_reducible constructor | intro _ | simp

@[simp] theorem execCtxRoot_leaves : LeavesMemInv (execCtxRoot s) := event_leaves hs <| tidy_command _ _ _ <| by
  repeat' first | with_reducible constructor | intro _ | (simp; done) | split

@[simp] theorem execSetPcb_leaves : LeavesMemInv (execSetPcb s) := event_leaves hs <| tidy_command _ _ _ <| by
  repeat' first | assumption | with_reducible constructor | intro _ | simp

@[simp] theorem execFabricTable_leaves : LeavesMemInv (execFabricTable s) := event_leaves hs <| tidy_command _ _ _ <| by
  repeat' first | assumption | with_reducible constructor | intro _ | simp

@[simp] theorem execTakeEvent_leaves : LeavesMemInv (execTakeEvent s) := event_leaves hs <| tidy_command _ _ _ <| by
  repeat' first | assumption | with_reducible constructor | intro _ | (simp; done) | split

@[simp] theorem execReadLog_leaves : LeavesMemInv (execReadLog s) := event_leaves hs <| tidy_command _ _ _ <| by
  repeat' first | assumption | with_reducible constructor | intro _

@[simp] theorem execStage_leaves : LeavesMemInv (execStage s) := event_leaves hs <| tidy_command _ _ _ <| by
  repeat' first | assumption | with_reducible constructor | intro _ | simp

@[simp] theorem execAttest_leaves : LeavesMemInv (execAttest s) := event_leaves hs <| tidy_command _ _ _ <| by
  repeat' first | assumption | with_reducible constructor | intro _

@[simp] theorem execKeyAperture_leaves : LeavesMemInv (execKeyAperture s) := event_leaves hs <| tidy_command _ _ _ <| by
  repeat' first | assumption | with_reducible constructor | intro _

@[simp] theorem execReset_leaves : LeavesMemInv (execReset s) := event_leaves hs <| by
  repeat' first | assumption | with_reducible constructor | intro _ | simp | refine tidy_command _ _ _ ?_

@[simp] theorem execApertureWrite_leaves : LeavesMemInv (execApertureWrite s) := event_leaves hs <| by
  repeat' first | with_reducible constructor | intro _ | simp

@[simp] theorem execApertureRead_leaves : LeavesMemInv (execApertureRead s) := event_leaves hs <| by
  repeat' first | assumption | with_reducible constructor | intro _ | simp

/-- Every instruction and event leaves the memories canonical. -/
theorem exec_leaves (i : Instr) : LeavesMemInv (exec i s) := by
  cases i <;> simp [exec, hs]

end

end Sys2Proof.Machine
end

section
/-! Every step keeps the memories canonical: turns, held instructions and late loads (O59). -/

namespace Sys2Proof.Machine

/-! ### Turns -/

/-- The state with which an instruction carried out after it retired ends has a property. -/
def Redone.Ends (P : State → Prop) : Redone → Prop
  | .retired t _ | .waits t _ | .trapped t => P t

/-- An instruction carried out after it retired ends with canonical memories. -/
theorem redo_ends_memInv (word : Word32) (st : StreamId) (h : Hart) {s : State} (hs : s.MemInv) : (redo word st h s).Ends State.MemInv := by
  unfold redo
  dsimp only
  split
  · next i _ =>
    split
    · next hexec =>
      have hissues : ({ s with curSlot := h.slot, curStream := st, curWord := word, curFetch := (0, 0), curStop := none }.putHart h).MemInv := hs
      have ht := exec_leaves hissues i _ hexec
      split
      · split
        · exact ht
        · split <;> exact ht
      · exact ht
    · exact hs
    · exact hs
  · exact hs
  · exact hs

theorem carryOut_memInv (n : Nat) {s : State} (hs : s.MemInv) : (carryOut n s).MemInv := by
  unfold carryOut
  split
  · exact hs
  · next w _ =>
    split
    · next word pc resume priv regs h _ _ =>
      split
      · exact hs
      · have hend := redo_ends_memInv word w.stream (h.recalled w.stream pc resume priv regs) (s := { s with held := s.held.eraseIdx n }) hs
        dsimp only
        split
        · next hredo => rw [hredo] at hend; exact hend
        · next hredo => rw [hredo] at hend; exact hend
        · exact hs
    · exact hs

theorem fixLate_memInv (n : Nat) {s : State} (hs : s.MemInv) : (fixLate n s).MemInv := by
  unfold fixLate
  split
  · exact hs
  · next l _ =>
    split
    · next h _ _ _ =>
      have hend := redo_ends_memInv l.word .x (h.recalled .x l.pc 0 .u l.regs) hs
      refine iteInduction (motive := State.MemInv) (fun _ => ?_) fun _ => hs
      split
      · next hredo => rw [hredo] at hend; exact hend
      · exact hs
      · exact hs
    · exact hs

theorem fetched_memInv {slot : Nat} {st : StreamId} {s t : State} {i : Instr} (hs : s.MemInv) (ht : fetched slot st s = some (i, t)) : t.MemInv := by
  have hend := (keeps_of_tidy tidy_fetchWord).run { s with curSlot := slot, curStream := st, curWord := 0, curFetch := (0, 0), curStop := none } hs
  unfold fetched at ht
  dsimp only at ht
  split at ht
  · next hrun =>
    rw [hrun] at hend
    split at ht
    · split at ht
      · cases ht
      · cases ht
        exact hend
    · cases ht
      exact hend
    · cases ht
      exact hend
  · cases ht
    exact hs
  · cases ht

theorem cycleFor_memInv {core : Nat} {c : IssueClass} {s t : State} (hs : s.MemInv) (ht : s.cycleFor core c = some t) : t.MemInv := by
  unfold State.cycleFor at ht
  split at ht
  · cases ht
    exact hs
  · split at ht
    · cases ht
    · cases ht
      exact tickCore_memInv.mpr hs

theorem fetchTurn_memInv {slot : Nat} {st : StreamId} {s t : State} {i : Instr} (hs : s.MemInv) (ht : fetchTurn slot st s = some (i, t)) :
    t.MemInv := by
  simp only [fetchTurn, Option.bind_eq_bind, Option.bind_eq_some_iff] at ht
  obtain ⟨h, -, s₁, hcycle, h₁, -, ht⟩ := ht
  split at ht
  · obtain ⟨⟨j, s₂⟩, hfetch, ht⟩ := Option.bind_eq_some_iff.mp ht
    cases ht
    exact modCore_memInv.mpr (fetched_memInv (cycleFor_memInv hs hcycle) hfetch)
  · cases ht

theorem fixedBy_memInv {s : State} {t : Turn} : (s.fixedBy t).MemInv ↔ s.MemInv := Iff.rfl

theorem takeTurn_leaves (t : Turn) {s : State} (hs : s.MemInv) : LeavesMemInv (takeTurn t s) := by
  unfold takeTurn
  split
  · refine exec_leaves ?_ _
    exact hs
  · split
    · rintro _ ⟨⟩
      exact hs
    · next hfetch => exact exec_leaves (fetchTurn_memInv hs hfetch) _
  · split
    · rintro _ ⟨⟩
      exact hs
    · next hfetch =>
      have hend := fetchTurn_memInv hs hfetch
      refine exec_leaves ?_ _
      exact hend
  · split
    · rintro _ ⟨⟩
      exact hs
    · next hfetch =>
      split
      · next hexec =>
        rintro _ ⟨⟩
        have hend := exec_leaves (fetchTurn_memInv hs hfetch) _ _ hexec
        exact hend
      · rintro _ ⟨⟩
      · rintro _ ⟨⟩
  · rintro _ ⟨⟩
    exact fixLate_memInv _ hs
  · rintro _ ⟨⟩
    exact carryOut_memInv _ hs

/-- Settles O59: every part of the model is put together of parts that keep the memories canonical, and so is every instruction and event; a turn
takes one of them, from a state whose memories are the ones before it. -/
theorem memoryStaysCanonical : Obligations.MemoryStaysCanonical := by
  unfold Obligations.MemoryStaysCanonical
  intro s t hs ht
  have hticked : State.MemInv { s with tick := s.tick + 1 } := hs
  unfold step at ht
  generalize ({ s with tick := s.tick + 1 } : State) = s' at hticked ht
  dsimp only at ht
  split at ht
  · refine takeTurn_leaves _ (fixedBy_memInv.mpr ?_) t ht
    exact hticked
  · exact takeTurn_leaves _ (fixedBy_memInv.mpr hticked) t ht

end Sys2Proof.Machine
end
